-- ==== Sys2Proof/Word.lean ====
section
/-!
DEFINITION. The word of the part (R6: 24 bits, the native unit of registers, memories, samples, messages and
image blocks) and its plainest arithmetic.
-/
namespace Sys2Proof

/-- A word: 24 bits (R6). -/
abbrev Word := BitVec 24

/-- A byte of a memory window. -/
abbrev Byte := BitVec 8

/-- The word that holds a number modulo 2^24. -/
def word (n : Nat) : Word := BitVec.ofNat 24 n

/-- The word that holds an integer modulo 2^24 (two's complement, R8). -/
def wordI (z : Int) : Word := BitVec.ofInt 24 z

end Sys2Proof
end

