-- ==== Sys2Proof/Syntax.lean ====
section
/-!
DEFINITION. The commands of the part: one constructor per row of the spec's table of operations and events
(spec/opcode_table.json), with the operands the row's rule needs. The table gives the rows no bits.
-/
namespace Sys2Proof

/-- Requester classes (R39): hosts, firmware, Hoist channels, and the debug port, which acts as secure host on the
local address space (R389). -/
inductive Cls | nsHost | secHost | firmware | hoist | debug
  deriving DecidableEq, Repr

/-- A requester: its class and, for a host, its PCI Express requester ID (R378). -/
structure Req where
  cls : Cls
  rid : Nat
  deriving DecidableEq, Repr

/-- A register page: its die, whether it is a secure (BAR2) page, and its page number (R52, R56, R57). -/
structure Pg where
  die : Nat
  sec : Bool
  num : Nat
  deriving DecidableEq, Repr

/-- What a register access addresses: a page register, an entry word of the MSI-X table or a word of the pending bit array
in BAR4 (R51, R425), or the configuration space of the endpoint (R418, R420, R421, R425). -/
inductive Target
  | reg (p : Pg) (off : Nat)
  | msixTable (vector : Nat) (dword : Nat)
  | pba (dword : Nat)
  | config (field : Nat)
  deriving DecidableEq, Repr

/-- How a register write arrives: its size in bytes, whether its address is aligned to 32 bits (R35), and whether
its TLP is poisoned (R423). -/
structure Shape where
  size : Nat
  aligned : Bool
  poisoned : Bool
  deriving DecidableEq, Repr

/-- The bits of a serial frame that ends: position bits as received, SSI parity bit, BiSS-C start bit, nE, nW and CRC,
and the measured line delay (R98 to R100). -/
structure SerFrame where
  raw : Nat
  parity : Bool := false
  start : Bool := true
  nE : Bool := true
  nW : Bool := true
  crc : Nat := 0
  line : Nat := 0
  deriving DecidableEq, Repr

/-- What boot step 1 reads from a die's fuses, voted: whether a copy pair agreed, and the contents (R373, R375, R376,
R399). -/
structure Fuses where
  good : Bool
  keyGood : Bool
  serial : Nat
  lot : Nat
  wafer : Nat
  key : Nat
  keyId : Nat
  lc : Nat
  deriving DecidableEq, Repr

/-- How a host read of a Hoist burst completes (R285): its words, or the number of good words before the first that
fails, with Unsupported Request or Completer Abort, or poisoned. -/
inductive Cpl
  | data (ws : List Word)
  | refused (good : Nat)
  | poisoned (good : Nat)
  deriving DecidableEq, Repr

/-- An 8b/10b character (R72, R230): control K.x.y, with code 32 y + x, data D.x.y likewise, or one that the code does not
hold. -/
inductive Chr
  | control (code : Nat)
  | data (byte : Nat)
  | invalid
  deriving DecidableEq, Repr

/-- What a Burim port has to send of its own die's traffic next (R429): TYPE (0 for nothing), destination, virtual channel
and valid payload words; with it the ticks that the hop takes, and the bits of the 1,024 on the lanes that arrive inverted. -/
structure FlitIn where
  kind : Nat
  dst : Nat := 0
  vc : Nat := 0
  words : List Word := []
  hop : Nat := 12
  noise : Nat := 0
  deriving DecidableEq, Repr

/-- A training attempt that ends without success (R234): the port, and the step of the attempt (1 to 3) that was not passed. -/
structure AttemptEnd where
  port : Nat
  step : Nat
  deriving DecidableEq, Repr

/-- How the oldest burst of a Hoist channel ends (R276, R283): the completion of a host read where the source is the host,
and the words of the dual-port store that the other reader of R315 touches in the same tick. -/
structure BurstEnd where
  cpl : Cpl
  collide : List Nat := []
  deriving DecidableEq, Repr

/-- A completion timeout (R422): the outstanding read whose time is over, and the correctable errors of the PCI Express link
since the last such event, which CNT_CORR counts (R434). -/
structure ReadTimeout where
  read : Nat
  corr : Nat := 0
  deriving DecidableEq, Repr

/-- The commands, in the order of the table. -/
inductive Instr
  /-- MODE_REQ_WRITE (R26). -/
  | modeReqWrite (r : Req) (d : Nat) (v : Word)
  /-- MODE_LEAD_WRITE (R32). -/
  | modeLeadWrite (r : Req) (d : Nat) (v : Word)
  /-- MODE_CHANGED (R27). -/
  | modeChanged
  /-- MODE_MIRROR_ARRIVE (R30). -/
  | modeMirrorArrive (d : Nat)
  /-- MODE_CLOCK_SETTLED (R27). -/
  | modeClockSettled
  /-- REGISTER_WRITE (R36). -/
  | registerWrite (r : Req) (t : Target) (sh : Shape) (v : Nat)
  /-- UNSUPPORTED_REQUEST (R53). -/
  | unsupportedRequest (r : Req) (bar off : Nat) (write : Bool)
  /-- EN_WRITE (R42). -/
  | enWrite (r : Req) (p : Pg) (b : Bool)
  /-- BLOCK_STARTED (R41). -/
  | blockStarted (p : Pg)
  /-- SHUTDOWN_COMPLETE (R42). -/
  | shutdownComplete (p : Pg)
  /-- SOFT_RESET (R43). -/
  | softReset (r : Req) (p : Pg)
  /-- EVT_LAT_WRITE (R44). -/
  | evtLatWrite (r : Req) (p : Pg) (v : Word)
  /-- EVT_EN_WRITE (R45). -/
  | evtEnWrite (r : Req) (p : Pg) (v : Word)
  /-- EVT_SET_WRITE (R44). -/
  | evtSetWrite (r : Req) (p : Pg) (v : Word)
  /-- EVT_VEC_WRITE (R46). -/
  | evtVecWrite (r : Req) (p : Pg) (v : Word)
  /-- ERR_INFO_CLEAR (R39). -/
  | errInfoClear (r : Req) (p : Pg)
  /-- COMMIT_GO (R47). -/
  | commitGo (r : Req) (p : Pg) (v : Word)
  /-- COMMIT_CANCEL (R47). -/
  | commitCancel (r : Req) (p : Pg)
  /-- HAND_OVER (R47). -/
  | handOver (p : Pg)
  /-- WIDE_L_READ (R49): a read of `n` bytes. -/
  | wideLRead (r : Req) (t : Target) (n : Nat)
  /-- WIDE_L_WRITE (R50). -/
  | wideLWrite (r : Req) (p : Pg) (off : Nat) (v : Word)
  /-- XTAL_COMP_UPDATE (R59). -/
  | xtalCompUpdate (temp : Int)
  /-- XTAL_FAIL (R61). -/
  | xtalFail
  /-- PLL_UNLOCK (R62). -/
  | pllUnlock (d : Nat)
  /-- PLL_RELOCK_RELEASE (R62). -/
  | pllRelockRelease (d : Nat)
  /-- WRAP (R65). -/
  | wrap (d : Nat)
  /-- SEC_EDGE (R66). -/
  | secEdge
  /-- TIME_FLIT_EXCHANGE (R69). -/
  | timeFlitExchange (d : Nat) (off : Int)
  /-- TIME_SOURCE_SWITCH (R71). -/
  | timeSourceSwitch (d : Nat)
  /-- TIME_SKEW_RELEASE (R408). -/
  | timeSkewRelease (d : Nat)
  /-- TSYNC_FRAME_SEND (R73). -/
  | tsyncFrameSend
  /-- TSYNC_FRAME_RECEIVE (R74). -/
  | tsyncFrameReceive (cap : Nat) (c : Chr) (cs : List Chr)
  /-- STEP_APPLIED (R75). -/
  | stepApplied
  /-- TSYNC_HOLDOVER (R76). -/
  | tsyncHoldover
  /-- ENC_COUNT (R85). -/
  | encCount (d c : Nat) (a b : List Bool)
  /-- INDEX (R93). -/
  | index (d c : Nat) (raw : List Bool)
  /-- SPEED_WINDOW (R94). -/
  | speedWindow (d c : Nat)
  /-- SPEED_STOPPED (R95). -/
  | speedStopped (d c : Nat)
  /-- SERIAL_FRAME_START (R97). -/
  | serialFrameStart (d c : Nat) (slo : Bool)
  /-- SERIAL_FRAME_END (R98). -/
  | serialFrameEnd (d c : Nat) (f : SerFrame)
  /-- SERIAL_TIMEOUT (R99). -/
  | serialTimeout (d c : Nat) (ack : Bool)
  /-- LATCH_SW (R102). -/
  | latchSw (r : Req) (d c : Nat) (v : Word)
  /-- LATCH_PERIODIC (R102). -/
  | latchPeriodic (d c : Nat)
  /-- ESTIMATOR_UPDATE (R104). -/
  | estimatorUpdate (d c : Nat)
  /-- REMOTE_ESTIMATE_RECEIVE (R109). -/
  | remoteEstimateReceive (d c : Nat)
  /-- REMOTE_SOURCE_LOST (R109). -/
  | remoteSourceLost (d c : Nat)
  /-- PRODUCT (R111). -/
  | product (d n : Nat) (level : Bool)
  /-- PD_LOCKOUT_END (R112). -/
  | pdLockoutEnd (d n : Nat)
  /-- ESTIMATE_ARRIVAL (R107). -/
  | estimateArrival (d c : Nat)
  /-- POSITION_STEP (R140). -/
  | positionStep (d c : Nat)
  /-- SOURCE_LOST (R141). -/
  | sourceLost (d c : Nat)
  /-- PD_EDGE_ARRIVAL (R130). -/
  | pdEdgeArrival (d n : Nat)
  /-- CTX_ARM (R128). -/
  | ctxArm (r : Req) (d k : Nat)
  /-- CTX_DISARM (R126). -/
  | ctxDisarm (r : Req) (d k : Nat)
  /-- CTX_START (R129). -/
  | ctxStart (r : Req) (d k : Nat)
  /-- CTX_PAUSE (R126). -/
  | ctxPause (r : Req) (d k : Nat)
  /-- CTX_RESUME (R143). -/
  | ctxResume (r : Req) (d k : Nat)
  /-- CTX_DRAIN (R126). -/
  | ctxDrain (r : Req) (d k : Nat)
  /-- CTX_ABORT (R126). -/
  | ctxAbort (r : Req) (d k : Nat)
  /-- CTX_FLUSH (R144). -/
  | ctxFlush (r : Req) (d k : Nat)
  /-- CHUTE_FLUSH_SCAN (R299). -/
  | chuteFlushScan (d c : Nat)
  /-- CTX_FENCE (R144). -/
  | ctxFence (r : Req) (d k : Nat)
  /-- CTX_RELEASE (R126). -/
  | ctxRelease (r : Req) (d k : Nat)
  /-- FOLLOWER_REJOIN (R127). -/
  | followerRejoin (d k : Nat)
  /-- DESCRIPTOR_WRITE (R118). -/
  | descriptorWrite (r : Req) (d k w : Nat) (v : Word)
  /-- CTX_COMMIT_GO (R119). -/
  | ctxCommitGo (r : Req) (d k : Nat) (v : Word)
  /-- CTX_HAND_OVER (R120). -/
  | ctxHandOver (d k : Nat)
  /-- LINE_BIND (R133). -/
  | lineBind (d k : Nat)
  /-- LINE_FREEZE (R133). -/
  | lineFreeze (d k : Nat)
  /-- CYCLE_FIRE (R186). -/
  | cycleFire (d k : Nat)
  /-- DRAIN_COMPLETE (R126). -/
  | drainComplete (d k : Nat)
  /-- STALL (R138). -/
  | stall (d k : Nat)
  /-- BLOCK_ACCEPT (R152). -/
  | blockAccept (d c : Nat)
  /-- LINE_BUILD (R159). -/
  | lineBuild (d k : Nat)
  /-- SEAM_SHARE_RECEIVE (R164). -/
  | seamShareReceive (d : Nat)
  /-- SEAM_CREDIT_RETURN (R164). -/
  | seamCreditReturn (d : Nat)
  /-- WF_LOAD_START (R196). -/
  | wfLoadStart (r : Req) (d p : Nat) (v : Word)
  /-- WF_LOAD_COPY (R196). -/
  | wfLoadCopy (d p : Nat)
  /-- WF_LOAD_HEAD (R196). -/
  | wfLoadHead (d p : Nat)
  /-- LOAD_DONE (R196). -/
  | loadDone (d p : Nat)
  /-- HEATER_UPDATE (R194). -/
  | heaterUpdate (d p : Nat)
  /-- NOZZLE_MAP_LOAD_DONE (R203). -/
  | nozzleMapLoadDone (d k : Nat)
  /-- ECHO_RESULT (R212). -/
  | echoResult (d : Nat) (base win : List Nat)
  /-- SWEEP_START (R214). -/
  | sweepStart (r : Req) (d : Nat)
  /-- SWEEP_ABORT (R214). -/
  | sweepAbort (r : Req) (d : Nat)
  /-- SET_STATE (R226). -/
  | setState (r : Req) (d arg : Nat)
  /-- SET_TRIM (R226). -/
  | setTrim (r : Req) (d arg : Nat)
  /-- CLEAR_HIST (R226). -/
  | clearHist (r : Req) (d : Nat)
  /-- REF_INVALID (R226). -/
  | refInvalid (r : Req) (d : Nat)
  /-- REF_VALID (R226). -/
  | refValid (r : Req) (d : Nat)
  /-- LOCK_TRIM (R226). -/
  | lockTrim (r : Req) (d arg : Nat)
  /-- LINK_DISCOVERY (R233). -/
  | linkDiscovery (d p : Nat) (ans : Option (List Byte))
  /-- DISCOVERY_REPEAT (R232). -/
  | discoveryRepeat (d p : Nat)
  /-- LINK_UP (R234). -/
  | linkUp (d p : Nat)
  /-- TRAIN_ATTEMPT_TIMEOUT (R234). -/
  | trainAttemptTimeout (d : Nat) (p : AttemptEnd)
  /-- FRAME_SEND (R240). -/
  | frameSend (d p : Nat)
  /-- ACK_RECEIVE (R239). -/
  | ackReceive (d p : Nat) (cs : List Chr)
  /-- ACK_TIMEOUT (R240). -/
  | ackTimeout (d p q : Nat)
  /-- STATUS_RECEIVE (R238). -/
  | statusReceive (d p : Nat) (cs : List Chr)
  /-- STATUS_STALE (R238). -/
  | statusStale (d p : Nat)
  /-- CURRENT_LOOP_TICK (R249). -/
  | currentLoopTick (d a : Nat) (ia ib : Int)
  /-- BRIDGE_FAULT (R251). -/
  | bridgeFault (d a : Nat)
  /-- STEP_INPUT (R253). -/
  | stepInput (d a : Nat) (fwd : Bool)
  /-- PROFILE_TICK (R254). -/
  | profileTick (d a : Nat)
  /-- AX_ENABLE_DONE (R267). -/
  | axEnableDone (d a : Nat)
  /-- AX_MOVE (R255). -/
  | axMove (r : Req) (d a : Nat)
  /-- AX_STOP (R259). -/
  | axStop (r : Req) (d a : Nat)
  /-- AX_RESUME (R269). -/
  | axResume (r : Req) (d a : Nat)
  /-- AX_HOME (R263). -/
  | axHome (r : Req) (d a : Nat)
  /-- AX_LOAD (R269). -/
  | axLoad (r : Req) (d a : Nat)
  /-- AX_CLEAR (R260). -/
  | axClear (r : Req) (d a : Nat)
  /-- AX_CUT (R259). -/
  | axCut (r : Req) (d a : Nat)
  /-- SWITCH_INPUT_EDGE (R261). -/
  | switchInputEdge (d a i : Nat) (raw : Bool)
  /-- SW_EDGE (R261). -/
  | swEdge (d a i : Nat)
  /-- HC_START (R280). -/
  | hcStart (r : Req) (d c : Nat)
  /-- HC_CANCEL (R280). -/
  | hcCancel (r : Req) (d c : Nat)
  /-- HC_HOLD (R283). -/
  | hcHold (r : Req) (d c : Nat) (b : Bool)
  /-- HC_RESUME (R286). -/
  | hcResume (r : Req) (d c : Nat)
  /-- HC_ABORT (R286). -/
  | hcAbort (r : Req) (d c : Nat)
  /-- HOIST_TRIGGER (R280). -/
  | hoistTrigger (d c : Nat)
  /-- RUN_START (R281). -/
  | runStart (d c : Nat)
  /-- MOVE (R275). -/
  | hoistMove (d c : Nat)
  /-- LOOP (R277). -/
  | hoistLoop (d c : Nat)
  /-- WAIT (R278). -/
  | hoistWait (d c : Nat)
  /-- WAIT_SATISFIED (R278). -/
  | waitSatisfied (d c : Nat)
  /-- WAIT_TIMEOUT (R278). -/
  | waitTimeout (d c : Nat)
  /-- SIGNAL (R279). -/
  | hoistSignal (d c : Nat)
  /-- SETA (R274). -/
  | hoistSeta (d c : Nat)
  /-- ADDA (R274). -/
  | hoistAdda (d c : Nat)
  /-- NOP (R273). -/
  | hoistNop (d c : Nat)
  /-- END (R279). -/
  | hoistEnd (d c : Nat)
  /-- BURST_START (R283). -/
  | burstStart (d c : Nat)
  /-- BURST_WRITTEN (R276). -/
  | burstWritten (d c : Nat) (a : BurstEnd)
  /-- HOIST_WATCHDOG (R287). -/
  | hoistWatchdog (d c : Nat)
  /-- GLOBAL_TIMER_FIRE (R282). -/
  | globalTimerFire (d k : Nat)
  /-- CQ_RECORD_WRITE (R290). -/
  | cqRecordWrite (d q : Nat)
  /-- CQ_SIZE_WRITE (R290). -/
  | cqSizeWrite (r : Req) (d q : Nat) (v : Word)
  /-- CQ_CONS_WRITE (R292). -/
  | cqConsWrite (r : Req) (d q : Nat) (v : Word)
  /-- CHUTE_PUSH (R300). -/
  | chutePush (r : Req) (d c i : Nat) (v : Word)
  /-- CHUTE_POP (R300). -/
  | chutePop (r : Req) (d c i : Nat)
  /-- MEM_WINDOW_WRITE (R312). -/
  | memWindowWrite (r : Req) (d off : Nat) (bs : List Byte) (poisoned : Bool) (collide : List Nat)
  /-- MEM_WINDOW_READ (R311). -/
  | memWindowRead (r : Req) (d off len : Nat)
  /-- MEMTEST_REGION_START (R316). -/
  | memtestRegionStart (d : Nat)
  /-- MEMTEST_PHASE_DONE (R316). -/
  | memtestPhaseDone (d : Nat) (rows : List Nat)
  /-- REPAIR_MAP_SAVE (R318). -/
  | repairMapSave (d : Nat)
  /-- RET_DATA_WRITE (R320). -/
  | retDataWrite (r : Req) (d : Nat) (v : Word)
  /-- RET_DATA_READ (R320). -/
  | retDataRead (r : Req) (d : Nat)
  /-- RET_WORD_WRITTEN (R320). -/
  | retWordWritten (d : Nat)
  /-- AS_REQUEST (R325). -/
  | asRequest (r : Req) (d ch : Nat)
  /-- AS_SAVE (R334). -/
  | asSave (r : Req) (d : Nat)
  /-- AS_RESTORE (R334). -/
  | asRestore (r : Req) (d : Nat)
  /-- AS_CANCEL (R326). -/
  | asCancel (r : Req) (d ch : Nat)
  /-- SAVED (R334). -/
  | saved (d : Nat)
  /-- RESTORED (R334). -/
  | restored (d : Nat)
  /-- ASSAY_RUN_START (R326). -/
  | assayRunStart (d cls : Nat)
  /-- ASSAY_TAKEOVER (R327). -/
  | assayTakeover (d cls : Nat)
  /-- ASSAY_MEASURE_START (R327). -/
  | assayMeasureStart (d cls : Nat)
  /-- ASSAY_MEASURE_END (R329). -/
  | assayMeasureEnd (d cls : Nat) (p : List Int)
  /-- RUN_DONE (R327). -/
  | runDone (d cls : Nat)
  /-- TAB_READ (R333). -/
  | tabRead (r : Req) (d : Nat)
  /-- TAB_WRITE (R333). -/
  | tabWrite (r : Req) (d : Nat)
  /-- TAB_CLEAR (R333). -/
  | tabClear (r : Req) (d : Nat)
  /-- TEMP_UPDATE (R340). -/
  | tempUpdate (d : Nat) (isl : List Int) (power : Nat)
  /-- THERMISTOR_SAMPLE (R341). -/
  | thermistorSample (d p ohm : Nat)
  /-- WARN_CLEAR (R342). -/
  | warnClear (d : Nat) (o : Option Nat)
  /-- GRACE_EXPIRY (R345). -/
  | graceExpiry (d : Nat) (o : Option Nat)
  /-- CRITICAL (R349). -/
  | critical (d o : Nat)
  /-- LAMP_MEASURE (R351). -/
  | lampMeasure (d : Nat)
  /-- LAMP_MEASURE_CMD (R351). -/
  | lampMeasureCmd (r : Req) (d : Nat)
  /-- MEASURED (R351). -/
  | measured (d : Nat) (cnt : List (Nat × Nat))
  /-- CALINT_EXPIRY (R352). -/
  | calintExpiry (d i : Nat)
  /-- HIST_WRITTEN (R354). -/
  | histWritten (d : Nat)
  /-- HIST_CLEAR (R354). -/
  | histClear (r : Req) (d : Nat)
  /-- MAILBOX_POST (R359). -/
  | mailboxPost (r : Req) (d : Nat) (sec : Bool) (n : Nat) (v : Word)
  /-- MAILBOX_TAKE (R360). -/
  | mailboxTake (d : Nat)
  /-- IN_DONE (R360). -/
  | inDone (d : Nat) (sec : Bool) (n : Nat)
  /-- GET_INFO (R366). -/
  | getInfo (d : Nat) (sec : Bool) (n : Nat)
  /-- PING (R366). -/
  | ping (d : Nat) (sec : Bool) (n : Nat)
  /-- HEAD_DISCOVER (R366). -/
  | headDiscover (d : Nat) (sec : Bool) (n : Nat) (ans : Option (List Byte))
  /-- SB_READ (R366). -/
  | sbRead (d : Nat) (sec : Bool) (n : Nat) (ans : Option (List Byte))
  /-- SB_WRITE (R366). -/
  | sbWrite (d : Nat) (sec : Bool) (n : Nat) (ack : Bool)
  /-- CAPTURE_REF (R366). -/
  | captureRef (d : Nat) (sec : Bool) (n : Nat)
  /-- ASSAY_REQUEST (R366). -/
  | assayRequest (d : Nat) (sec : Bool) (n : Nat)
  /-- ABORT_LONG (R366). -/
  | abortLong (d : Nat) (sec : Bool) (n : Nat)
  /-- TALLY_CLEAR (R366). -/
  | tallyClear (d : Nat) (sec : Bool) (n : Nat)
  /-- FW_RESTART (R362). -/
  | fwRestart (d : Nat) (sec : Bool) (n : Nat)
  /-- LIFECYCLE_ADVANCE (R374). -/
  | lifecycleAdvance (d : Nat) (sec : Bool) (n : Nat) (good : Bool)
  /-- LONG_CMD_TIMEOUT (R366). -/
  | longCmdTimeout (d : Nat)
  /-- FW_WATCHDOG_RESTART (R362). -/
  | fwWatchdogRestart (d : Nat)
  /-- FW_STARTED (R363). -/
  | fwStarted (d : Nat)
  /-- OUT_FULL (R367). -/
  | outFull (d : Nat) (sec : Bool) (n : Nat)
  /-- NOTICE_ACK (R368). -/
  | noticeAck (r : Req) (d : Nat) (sec : Bool) (n : Nat) (v : Word)
  /-- IN_STUCK (R370). -/
  | inStuck (d : Nat) (sec : Bool) (n : Nat)
  /-- OUT_STUCK (R370). -/
  | outStuck (d : Nat) (sec : Bool) (n : Nat)
  /-- FLR (R426). -/
  | flr
  /-- CONVENTIONAL_RESET (R426). -/
  | conventionalReset
  /-- SESSION_START (R376). -/
  | sessionStart (r : Req) (d : Nat) (bind : Bool)
  /-- SESSION_CHECK (R377). -/
  | sessionCheck (r : Req) (d : Nat) (v : Word)
  /-- SESSION_CLOSE (R379). -/
  | sessionClose (r : Req) (d : Nat)
  /-- SESSION_TIMEOUT (R379). -/
  | sessionTimeout (d : Nat)
  /-- BACKOFF_END (R380). -/
  | backoffEnd (d : Nat)
  /-- GUARD_WRITE (R382). -/
  | guardWrite (r : Req) (d off : Nat) (v : Word)
  /-- EXTEST (R385). -/
  | extest (d : Nat)
  /-- SAMPLE_PRELOAD (R384). -/
  | samplePreload (d : Nat)
  /-- IDCODE (R384). -/
  | idcode (d : Nat)
  /-- CLAMP (R385). -/
  | clamp (d : Nat)
  /-- HIGHZ (R385). -/
  | highz (d : Nat)
  /-- EXTEST_PULSE (R385). -/
  | extestPulse (d : Nat)
  /-- EXTEST_TRAIN (R385). -/
  | extestTrain (d : Nat)
  /-- DBG_STATUS (R384). -/
  | dbgStatus (d : Nat)
  /-- UNLOCK_CHAL (R387). -/
  | unlockChal (d : Nat)
  /-- UNLOCK_RESP (R386). -/
  | unlockResp (d token : Nat)
  /-- DBG_ACCESS (R389). -/
  | dbgAccess (d : Nat) (write : Bool) (addr data : Nat)
  /-- DBG_CLOSE (R388). -/
  | dbgClose (d : Nat)
  /-- BYPASS (R384). -/
  | bypass (d code : Nat)
  /-- DBG_CTRL_CLOSE (R388). -/
  | dbgCtrlClose (r : Req) (d : Nat)
  /-- TRST_LOW (R388). -/
  | trstLow (d : Nat)
  /-- IJL_ALLOW_WRITE (R390). -/
  | ijlAllowWrite (r : Req) (d : Nat) (allow : Bool)
  /-- DORMANT_ENTRY (R395). -/
  | dormantEntry
  /-- VIN_OFF (R395). -/
  | vinOff
  /-- WAKE_PIN (R396). -/
  | wakePin (n : Nat) (rising : Bool)
  /-- WAKE_ALARM (R396). -/
  | wakeAlarm
  /-- VIN_BROWNOUT (R438). -/
  | vinBrownout
  /-- VAON_RESET (R438). -/
  | vaonReset
  /-- POWER_GOOD (R399). -/
  | powerGood (d : Nat)
  /-- FUSE_READ (R399). -/
  | fuseRead (d : Nat) (f : Fuses)
  /-- CRYSTAL (R399). -/
  | crystal
  /-- PLL_LOCK (R399). -/
  | pllLock (d : Nat)
  /-- MEM_REPAIR (R399). -/
  | memRepair (d : Nat)
  /-- BURIM_TRAIN (R399). -/
  | burimTrain (d i : Nat)
  /-- FW_VERIFY (R404). -/
  | fwVerify (d image : Nat)
  /-- PCIE_LINK (R399). -/
  | pcieLink (gen width ltssm : Nat)
  /-- INITIAL_ASSAY (R335). -/
  | initialAssay (d : Nat)
  /-- BOOT_STEP_TIMEOUT (R400). -/
  | bootStepTimeout (d step detail : Nat)
  /-- BOOT_RESTART (R400). -/
  | bootRestart
  /-- TL_CLEAR (R403). -/
  | tlClear (r : Req) (d : Nat) (v : Word)
  /-- CLEARED (R403). -/
  | cleared (d : Nat)
  /-- PAGE_FENCE (R406). -/
  | pageFence (r : Req) (p : Pg)
  /-- FENCE_RELEASE (R408). -/
  | fenceRelease (r : Req) (p : Pg) (bflt : Bool)
  /-- RELEASE_COMPLETE (R409). -/
  | releaseComplete (p : Pg)
  /-- DIE_FENCED (R410). -/
  | dieFenced (r : Req) (v : Word)
  /-- WATCHDOG (R410). -/
  | watchdog (d : Nat)
  /-- COMPLETION_TIMEOUT (R422). -/
  | completionTimeout (x : ReadTimeout)
  /-- MSIX_PENDING_SEND (R425). -/
  | msixPendingSend (v : Nat)
  /-- PCIE_LINK_UP (R426). -/
  | pcieLinkUp (gen width ltssm : Nat)
  /-- FLIT_RECEIVE (R431). -/
  | flitReceive (d i : Nat) (a : FlitIn)
  /-- NAK_RECEIVE (R431). -/
  | nakReceive (d i seq : Nat)
  /-- BURIM_RETRAIN (R432). -/
  | burimRetrain (d i : Nat)
  /-- BURIM_RETRAIN_DONE (R432). -/
  | burimRetrainDone (d i : Nat) (good : Bool)
  /-- PERIOD_SPEED_LIMIT (R95). -/
  | periodSpeedLimit (d c : Nat)
  /-- UPSTREAM_CODE_ERRORS (R235). -/
  | upstreamCodeErrors (d p : Nat)
  /-- PCIE_LINK_DOWN (R434). -/
  | pcieLinkDown (ltssm : Nat)
  /-- VAON_APPLIED (R397). -/
  | vaonApplied
  /-- DORMANT_SECONDS_EDGE (R68). -/
  | dormantSecondsEdge
  /-- BUS_MASTER_ENABLE (R421). -/
  | busMasterEnable
  deriving DecidableEq, Repr
end Sys2Proof
end

