-- ==== Sys2Proof/WellFormed.lean ====
section
/-!
DEFINITION. Well-formed commands: every operand lies in the range its index has in the largest part (R1, R52). The
meanings are total and do nothing on an index that the part at hand does not have.
-/
namespace Sys2Proof

/-! Ranges. -/

/-- A die (R1). -/
def dieOk (d : Nat) : Bool := decide (d < 8)
/-- A head port (R1). -/
def portOk (p : Nat) : Bool := decide (p < 16)
/-- An encoder channel (R1). -/
def encOk (c : Nat) : Bool := decide (c < 8)
/-- A motion axis (R1). -/
def axisOk (a : Nat) : Bool := decide (a < 4)
/-- A context (R116). -/
def ctxOk (k : Nat) : Bool := decide (k < 256)
/-- A Hoist channel (R271). -/
def hoistOk (c : Nat) : Bool := decide (c < 32)
/-- A chute (R294). -/
def chuteOk (c : Nat) : Bool := decide (c < 64)
/-- A completion queue (R290). -/
def queueOk (q : Nat) : Bool := decide (q < 4)
/-- A global timer (R282). -/
def globalTimerOk (k : Nat) : Bool := decide (k < 4)
/-- The sequence number of a frame on a head link (R236). -/
def retryOk (q : Nat) : Bool := decide (q < 256)
/-- An Assay channel (R323). -/
def assayOk (c : Nat) : Bool := decide (c < 51) || decide (c = 0xFF)
/-- An Assay class (R323). -/
def assayClassOk (c : Nat) : Bool := decide (c < 3)
/-- A mailbox channel (R357). -/
def mboxOk (n : Nat) : Bool := decide (n < 4)
/-- A product-detect input or a wake pin (R111, R396). -/
def pinOk (n : Nat) : Bool := decide (n < 4)
/-- A switch input of an axis (R261). -/
def switchOk (i : Nat) : Bool := decide (i < 3)
/-- A Burim port (R21). -/
def burimOk (i : Nat) : Bool := decide (i < 2)
/-- A word of a push or pop window (R300). -/
def pushOk (i : Nat) : Bool := decide (i < 256)
/-- An island (R12). -/
def islandOk (i : Nat) : Bool := decide (i < 11)
/-- A word of a descriptor (R117). -/
def descrOk (w : Nat) : Bool := decide (w < 64)
/-- A register offset within a page (R37, R52). -/
def offsetOk (off : Nat) : Bool := decide (off < 4096) && decide (off % 4 = 0)
/-- An offset within a BAR0 die window (R52). -/
def windowOk (off : Nat) : Bool := decide (off < 2 ^ 27)
/-- A length in bytes. -/
def lenOk (n : Nat) : Bool := decide (n ≤ 4096)
/-- An MSI-X vector (R425). -/
def vectorOk (v : Nat) : Bool := decide (v < 128)
/-- A BAR by its code: 0 BAR0, 1 BAR2, 2 BAR4 (R51, `PC_UR_OFF_H.BAR`). -/
def barOk (b : Nat) : Bool := decide (b < 3)
/-- A read of 1 to 4 bytes (R35). -/
def bytesOk (n : Nat) : Bool := decide (1 ≤ n) && decide (n ≤ 4)
/-- A number that a 24-bit counter can count at once (R34). -/
def counterOk (n : Nat) : Bool := decide (n < 2 ^ 24)
/-- A step of a training attempt (R234). -/
def attemptOk (n : Nat) : Bool := decide (1 ≤ n) && decide (n ≤ 3)
/-- The raw samples of a decimation window (R84). -/
def windowLenOk {α : Type} (l : List α) : Bool := decide (1 ≤ l.length) && decide (l.length ≤ 16)
/-- Samples of the 12-bit converter (R207). -/
def adcOk (l : List Nat) : Bool := l.all fun v => decide (v < 4096)
/-- Words of the dual-port store (R308). -/
def placesOk (l : List Nat) : Bool := l.all fun w => decide (w < 131072)
/-- A boot step (R399). -/
def stepOk (st : Nat) : Bool := decide (st < 9)
/-- An LTSSM state (R434). -/
def ltssmOk (l : Nat) : Bool := decide (l < 64)
/-- A flit sequence number (R429). -/
def seqOk (q : Nat) : Bool := decide (q < 1024)
/-- An instruction of the test access port (R384). -/
def irOk (c : Nat) : Bool := decide (c < 256)
/-- One of the outstanding host reads (R422). -/
def tagOk (n : Nat) : Bool := decide (n < 256)
/-- A warning scope that a port names: a port, or 16 for the die (R342). -/
def scopeOk (o : Nat) : Bool := decide (o ≤ 16)
/-- A warning scope: the die, or a port (R342). -/
def scopeOptOk (o : Option Nat) : Bool := match o with | none => true | some p => portOk p

/-! Operands of structure. -/

/-- A requester ID has 16 bits. -/
def Req.wf (r : Req) : Bool := decide (r.rid < 2 ^ 16)
/-- A page of a die's register window (R52). -/
def Pg.wf (p : Pg) : Bool := dieOk p.die && decide (p.num < 256)
/-- What a register write addresses. -/
def Target.wf (t : Target) : Bool :=
  match t with
  | .reg p off => p.wf && decide (off < 4096)
  | .msixTable v w => vectorOk v && decide (w < 4)
  | .pba w => decide (w < 4)
  | .config f => decide (f < 13)
/-- The port and the step that an attempt ends in. -/
def AttemptEnd.wf (e : AttemptEnd) : Bool := portOk e.port && attemptOk e.step
/-- The words that collide. -/
def BurstEnd.wf (e : BurstEnd) : Bool := placesOk e.collide
/-- The read and the errors counted. -/
def ReadTimeout.wf (e : ReadTimeout) : Bool := tagOk e.read && counterOk e.corr
/-- A transfer of at least one byte (R35). -/
def Shape.wf (sh : Shape) : Bool := decide (1 ≤ sh.size) && decide (sh.size ≤ 4096)
/-- A serial frame's fields (R98 to R100). -/
def SerFrame.wf (f : SerFrame) : Bool := decide (f.raw < 2 ^ 48) && decide (f.crc < 64)
/-- A flit's TYPE, destination, virtual channel and payload (R429). -/
def FlitIn.wf (a : FlitIn) : Bool :=
  decide (a.kind ≤ 3) && dieOk a.dst && decide (a.vc < 4) && decide (a.words.length ≤ 40)
/-- What a die's fuses hold (R373 to R376). -/
def Fuses.wf (f : Fuses) : Bool :=
  decide (f.serial < 2 ^ 48) && decide (f.lot < 2 ^ 16) && decide (f.wafer < 32) && decide (f.key < 2 ^ 256) && decide (f.lc < 4)

/-- A command is well-formed. -/
def Instr.wf (i : Instr) : Bool :=
  match i with
  | .modeReqWrite r d _ => r.wf && dieOk d
  | .modeLeadWrite r d _ => r.wf && dieOk d
  | .modeChanged => true
  | .modeMirrorArrive d => dieOk d
  | .modeClockSettled => true
  | .registerWrite r t sh _ => r.wf && t.wf && sh.wf
  | .unsupportedRequest r bar off _ => r.wf && barOk bar && windowOk off
  | .enWrite r p _ => r.wf && p.wf
  | .blockStarted p => p.wf
  | .shutdownComplete p => p.wf
  | .softReset r p => r.wf && p.wf
  | .evtLatWrite r p _ => r.wf && p.wf
  | .evtEnWrite r p _ => r.wf && p.wf
  | .evtSetWrite r p _ => r.wf && p.wf
  | .evtVecWrite r p _ => r.wf && p.wf
  | .errInfoClear r p => r.wf && p.wf
  | .commitGo r p _ => r.wf && p.wf
  | .commitCancel r p => r.wf && p.wf
  | .handOver p => p.wf
  | .wideLRead r t n => r.wf && t.wf && bytesOk n
  | .wideLWrite r p off _ => r.wf && p.wf && offsetOk off
  | .xtalCompUpdate _ => true
  | .xtalFail => true
  | .pllUnlock d => dieOk d
  | .pllRelockRelease d => dieOk d
  | .wrap d => dieOk d
  | .secEdge => true
  | .timeFlitExchange d _ => dieOk d
  | .timeSourceSwitch d => dieOk d
  | .timeSkewRelease d => dieOk d
  | .tsyncFrameSend => true
  | .tsyncFrameReceive _ _ _ => true
  | .stepApplied => true
  | .tsyncHoldover => true
  | .encCount d c a b => dieOk d && encOk c && windowLenOk a && windowLenOk b
  | .index d c raw => dieOk d && encOk c && windowLenOk raw
  | .speedWindow d c => dieOk d && encOk c
  | .speedStopped d c => dieOk d && encOk c
  | .serialFrameStart d c _ => dieOk d && encOk c
  | .serialFrameEnd d c f => dieOk d && encOk c && f.wf
  | .serialTimeout d c _ => dieOk d && encOk c
  | .latchSw r d c _ => r.wf && dieOk d && encOk c
  | .latchPeriodic d c => dieOk d && encOk c
  | .estimatorUpdate d c => dieOk d && encOk c
  | .remoteEstimateReceive d c => dieOk d && encOk c
  | .remoteSourceLost d c => dieOk d && encOk c
  | .product d n _ => dieOk d && pinOk n
  | .pdLockoutEnd d n => dieOk d && pinOk n
  | .estimateArrival d c => dieOk d && encOk c
  | .positionStep d c => dieOk d && encOk c
  | .sourceLost d c => dieOk d && encOk c
  | .pdEdgeArrival d n => dieOk d && pinOk n
  | .ctxArm r d k => r.wf && dieOk d && ctxOk k
  | .ctxDisarm r d k => r.wf && dieOk d && ctxOk k
  | .ctxStart r d k => r.wf && dieOk d && ctxOk k
  | .ctxPause r d k => r.wf && dieOk d && ctxOk k
  | .ctxResume r d k => r.wf && dieOk d && ctxOk k
  | .ctxDrain r d k => r.wf && dieOk d && ctxOk k
  | .ctxAbort r d k => r.wf && dieOk d && ctxOk k
  | .ctxFlush r d k => r.wf && dieOk d && ctxOk k
  | .chuteFlushScan d c => dieOk d && chuteOk c
  | .ctxFence r d k => r.wf && dieOk d && ctxOk k
  | .ctxRelease r d k => r.wf && dieOk d && ctxOk k
  | .followerRejoin d k => dieOk d && ctxOk k
  | .descriptorWrite r d k w _ => r.wf && dieOk d && ctxOk k && descrOk w
  | .ctxCommitGo r d k _ => r.wf && dieOk d && ctxOk k
  | .ctxHandOver d k => dieOk d && ctxOk k
  | .lineBind d k => dieOk d && ctxOk k
  | .lineFreeze d k => dieOk d && ctxOk k
  | .cycleFire d k => dieOk d && ctxOk k
  | .drainComplete d k => dieOk d && ctxOk k
  | .stall d k => dieOk d && ctxOk k
  | .blockAccept d c => dieOk d && chuteOk c
  | .lineBuild d k => dieOk d && ctxOk k
  | .seamShareReceive d => dieOk d
  | .seamCreditReturn d => dieOk d
  | .wfLoadStart r d p _ => r.wf && dieOk d && portOk p
  | .wfLoadCopy d p => dieOk d && portOk p
  | .wfLoadHead d p => dieOk d && portOk p
  | .loadDone d p => dieOk d && portOk p
  | .heaterUpdate d p => dieOk d && portOk p
  | .nozzleMapLoadDone d k => dieOk d && ctxOk k
  | .echoResult d base win => dieOk d && adcOk base && adcOk win
  | .sweepStart r d => r.wf && dieOk d
  | .sweepAbort r d => r.wf && dieOk d
  | .setState r d _ => r.wf && dieOk d
  | .setTrim r d _ => r.wf && dieOk d
  | .clearHist r d => r.wf && dieOk d
  | .refInvalid r d => r.wf && dieOk d
  | .refValid r d => r.wf && dieOk d
  | .lockTrim r d _ => r.wf && dieOk d
  | .linkDiscovery d p _ => dieOk d && portOk p
  | .discoveryRepeat d p => dieOk d && portOk p
  | .linkUp d p => dieOk d && portOk p
  | .trainAttemptTimeout d p => dieOk d && p.wf
  | .frameSend d p => dieOk d && portOk p
  | .ackReceive d p _ => dieOk d && portOk p
  | .ackTimeout d p q => dieOk d && portOk p && retryOk q
  | .statusReceive d p _ => dieOk d && portOk p
  | .statusStale d p => dieOk d && portOk p
  | .currentLoopTick d a _ _ => dieOk d && axisOk a
  | .bridgeFault d a => dieOk d && axisOk a
  | .stepInput d a _ => dieOk d && axisOk a
  | .profileTick d a => dieOk d && axisOk a
  | .axEnableDone d a => dieOk d && axisOk a
  | .axMove r d a => r.wf && dieOk d && axisOk a
  | .axStop r d a => r.wf && dieOk d && axisOk a
  | .axResume r d a => r.wf && dieOk d && axisOk a
  | .axHome r d a => r.wf && dieOk d && axisOk a
  | .axLoad r d a => r.wf && dieOk d && axisOk a
  | .axClear r d a => r.wf && dieOk d && axisOk a
  | .axCut r d a => r.wf && dieOk d && axisOk a
  | .switchInputEdge d a i _ => dieOk d && axisOk a && switchOk i
  | .swEdge d a i => dieOk d && axisOk a && switchOk i
  | .hcStart r d c => r.wf && dieOk d && hoistOk c
  | .hcCancel r d c => r.wf && dieOk d && hoistOk c
  | .hcHold r d c _ => r.wf && dieOk d && hoistOk c
  | .hcResume r d c => r.wf && dieOk d && hoistOk c
  | .hcAbort r d c => r.wf && dieOk d && hoistOk c
  | .hoistTrigger d c => dieOk d && hoistOk c
  | .runStart d c => dieOk d && hoistOk c
  | .hoistMove d c => dieOk d && hoistOk c
  | .hoistLoop d c => dieOk d && hoistOk c
  | .hoistWait d c => dieOk d && hoistOk c
  | .waitSatisfied d c => dieOk d && hoistOk c
  | .waitTimeout d c => dieOk d && hoistOk c
  | .hoistSignal d c => dieOk d && hoistOk c
  | .hoistSeta d c => dieOk d && hoistOk c
  | .hoistAdda d c => dieOk d && hoistOk c
  | .hoistNop d c => dieOk d && hoistOk c
  | .hoistEnd d c => dieOk d && hoistOk c
  | .burstStart d c => dieOk d && hoistOk c
  | .burstWritten d c a => dieOk d && hoistOk c && a.wf
  | .hoistWatchdog d c => dieOk d && hoistOk c
  | .globalTimerFire d k => dieOk d && globalTimerOk k
  | .cqRecordWrite d q => dieOk d && queueOk q
  | .cqSizeWrite r d q _ => r.wf && dieOk d && queueOk q
  | .cqConsWrite r d q _ => r.wf && dieOk d && queueOk q
  | .chutePush r d c i _ => r.wf && dieOk d && chuteOk c && pushOk i
  | .chutePop r d c i => r.wf && dieOk d && chuteOk c && pushOk i
  | .memWindowWrite r d off _ _ _ => r.wf && dieOk d && windowOk off
  | .memWindowRead r d off len => r.wf && dieOk d && windowOk off && lenOk len
  | .memtestRegionStart d => dieOk d
  | .memtestPhaseDone d _ => dieOk d
  | .repairMapSave d => dieOk d
  | .retDataWrite r d _ => r.wf && dieOk d
  | .retDataRead r d => r.wf && dieOk d
  | .retWordWritten d => dieOk d
  | .asRequest r d ch => r.wf && dieOk d && assayOk ch
  | .asSave r d => r.wf && dieOk d
  | .asRestore r d => r.wf && dieOk d
  | .asCancel r d ch => r.wf && dieOk d && assayOk ch
  | .saved d => dieOk d
  | .restored d => dieOk d
  | .assayRunStart d cls => dieOk d && assayClassOk cls
  | .assayTakeover d cls => dieOk d && assayClassOk cls
  | .assayMeasureStart d cls => dieOk d && assayClassOk cls
  | .assayMeasureEnd d cls _ => dieOk d && assayClassOk cls
  | .runDone d cls => dieOk d && assayClassOk cls
  | .tabRead r d => r.wf && dieOk d
  | .tabWrite r d => r.wf && dieOk d
  | .tabClear r d => r.wf && dieOk d
  | .tempUpdate d _ _ => dieOk d
  | .thermistorSample d p _ => dieOk d && portOk p
  | .warnClear d o => dieOk d && scopeOptOk o
  | .graceExpiry d o => dieOk d && scopeOptOk o
  | .critical d o => dieOk d && scopeOk o
  | .lampMeasure d => dieOk d
  | .lampMeasureCmd r d => r.wf && dieOk d
  | .measured d _ => dieOk d
  | .calintExpiry d i => dieOk d && islandOk i
  | .histWritten d => dieOk d
  | .histClear r d => r.wf && dieOk d
  | .mailboxPost r d _ n _ => r.wf && dieOk d && mboxOk n
  | .mailboxTake d => dieOk d
  | .inDone d _ n => dieOk d && mboxOk n
  | .getInfo d _ n => dieOk d && mboxOk n
  | .ping d _ n => dieOk d && mboxOk n
  | .headDiscover d _ n _ => dieOk d && mboxOk n
  | .sbRead d _ n _ => dieOk d && mboxOk n
  | .sbWrite d _ n _ => dieOk d && mboxOk n
  | .captureRef d _ n => dieOk d && mboxOk n
  | .assayRequest d _ n => dieOk d && mboxOk n
  | .abortLong d _ n => dieOk d && mboxOk n
  | .tallyClear d _ n => dieOk d && mboxOk n
  | .fwRestart d _ n => dieOk d && mboxOk n
  | .lifecycleAdvance d _ n _ => dieOk d && mboxOk n
  | .longCmdTimeout d => dieOk d
  | .fwWatchdogRestart d => dieOk d
  | .fwStarted d => dieOk d
  | .outFull d _ n => dieOk d && mboxOk n
  | .noticeAck r d _ n _ => r.wf && dieOk d && mboxOk n
  | .inStuck d _ n => dieOk d && mboxOk n
  | .outStuck d _ n => dieOk d && mboxOk n
  | .flr => true
  | .conventionalReset => true
  | .sessionStart r d _ => r.wf && dieOk d
  | .sessionCheck r d _ => r.wf && dieOk d
  | .sessionClose r d => r.wf && dieOk d
  | .sessionTimeout d => dieOk d
  | .backoffEnd d => dieOk d
  | .guardWrite r d off _ => r.wf && dieOk d && offsetOk off
  | .extest d => dieOk d
  | .samplePreload d => dieOk d
  | .idcode d => dieOk d
  | .clamp d => dieOk d
  | .highz d => dieOk d
  | .extestPulse d => dieOk d
  | .extestTrain d => dieOk d
  | .dbgStatus d => dieOk d
  | .unlockChal d => dieOk d
  | .unlockResp d _ => dieOk d
  | .dbgAccess d _ _ _ => dieOk d
  | .dbgClose d => dieOk d
  | .bypass d code => dieOk d && irOk code
  | .dbgCtrlClose r d => r.wf && dieOk d
  | .trstLow d => dieOk d
  | .ijlAllowWrite r d _ => r.wf && dieOk d
  | .dormantEntry => true
  | .vinOff => true
  | .wakePin n _ => pinOk n
  | .wakeAlarm => true
  | .vinBrownout => true
  | .vaonReset => true
  | .powerGood d => dieOk d
  | .fuseRead d f => dieOk d && f.wf
  | .crystal => true
  | .pllLock d => dieOk d
  | .memRepair d => dieOk d
  | .burimTrain d i => dieOk d && burimOk i
  | .fwVerify d _ => dieOk d
  | .pcieLink _ _ ltssm => ltssmOk ltssm
  | .initialAssay d => dieOk d
  | .bootStepTimeout d step _ => dieOk d && stepOk step
  | .bootRestart => true
  | .tlClear r d _ => r.wf && dieOk d
  | .cleared d => dieOk d
  | .pageFence r p => r.wf && p.wf
  | .fenceRelease r p _ => r.wf && p.wf
  | .releaseComplete p => p.wf
  | .dieFenced r _ => r.wf
  | .watchdog d => dieOk d
  | .completionTimeout x => x.wf
  | .msixPendingSend v => vectorOk v
  | .pcieLinkUp _ _ ltssm => ltssmOk ltssm
  | .flitReceive d i a => dieOk d && burimOk i && a.wf
  | .nakReceive d i seq => dieOk d && burimOk i && seqOk seq
  | .burimRetrain d i => dieOk d && burimOk i
  | .burimRetrainDone d i _ => dieOk d && burimOk i
  | .periodSpeedLimit d c => dieOk d && encOk c
  | .upstreamCodeErrors d p => dieOk d && portOk p
  | .pcieLinkDown ltssm => ltssmOk ltssm
  | .vaonApplied => true
  | .dormantSecondsEdge => true
  | .busMasterEnable => true

end Sys2Proof
end

