-- ==== Sys2Proof/Decode.lean ====
section
/-!
DEFINITION. Words of the table: spec/opcode_table.json gives its rows no bits, since the part takes commands and events,
not encoded instructions. No word spells a command.
-/
namespace Sys2Proof

/-- The command that a word of `nbits` bits spells by the table's bits: none, for the table gives no row any. -/
def decodeTableWord (_nbits _w : Nat) : Option Instr := none

end Sys2Proof
end

