-- ==== Sys2Proof/Config.lean ====
section
/-!
DEFINITION. What the manual leaves open: uninterpreted constants. Nothing evaluates them and no proof knows a value
of theirs, so a statement holds whatever they are.
-/
namespace Sys2Proof.Config

/-- Free numbers, by the model's free-value counter: nonces and challenges (R376, R387), destroyed or unstated
values. -/
opaque freeNat : Nat → Nat

/-- Free truth values, by the same counter: ties of roundings the manual calls "nearest" and choices it leaves to the
part. -/
opaque freeBool : Nat → Bool

/-- Firmware version (0) and build number (1) of an image (0 A, 1 B) (R366). -/
opaque firmware : Nat → Nat → Nat

/-- Credits of a virtual channel of a Burim link, less one (R430). -/
opaque burimCredits : Nat → Nat

/-- Subsystem ID of the endpoint, from the fuses (R418). -/
opaque subsystemId : Nat

end Sys2Proof.Config
end

