-- ==== Sys2Proof/Machine/Bits.lean ====
section
/-!
DEFINITION. Bit fields, signed values, saturation, rounding and the CRC-24 of the manual (R8, R9, R460).
-/
namespace Sys2Proof.Machine

/-- The field of `n` bits whose lowest bit is `lo`. -/
def fld (w : Word) (lo n : Nat) : Nat := (w.toNat / 2 ^ lo) % 2 ^ n

/-- Bit `i` of a word. -/
def bit (w : Word) (i : Nat) : Bool := w.getLsbD i

/-- The mask of the field of `n` bits from bit `lo`. -/
def fmask (lo n : Nat) : Word := word ((2 ^ n - 1) * 2 ^ lo)

/-- A word with the field of `n` bits from bit `lo` set to `v` (modulo 2^n). -/
def setFld (w : Word) (lo n v : Nat) : Word :=
  (w &&& ~~~ fmask lo n) ||| word ((v % 2 ^ n) * 2 ^ lo)

/-- A word with bit `i` set to `b`. -/
def setBit (w : Word) (i : Nat) (b : Bool) : Word := setFld w i 1 (if b then 1 else 0)

/-- The word whose only bit is `i`. -/
def bitw (i : Nat) : Word := word (2 ^ i)

/-- 0 or 1. -/
def b2n (b : Bool) : Nat := if b then 1 else 0

/-- The signed value of an `n`-bit number (two's complement, R8). -/
def sgn (n v : Nat) : Int := if v % 2 ^ n < 2 ^ (n - 1) then ((v % 2 ^ n : Nat) : Int) else ((v % 2 ^ n : Nat) : Int) - 2 ^ n

/-- The `n`-bit two's-complement number of an integer. -/
def uns (n : Nat) (z : Int) : Nat := (z % 2 ^ n).toNat

/-- `z` held between `lo` and `hi`. -/
def clampI (lo hi z : Int) : Int := if z < lo then lo else if hi < z then hi else z

/-- `n` held between `lo` and `hi`. -/
def clampN (lo hi n : Nat) : Nat := if n < lo then lo else if hi < n then hi else n

/-- A saturating 24-bit counter one higher (counters "saturate at 0xFF_FFFF"). -/
def inc24 (w : Word) : Word := if w.toNat = 0xFFFFFF then w else word (w.toNat + 1)

/-- A saturating 24-bit counter `n` higher. -/
def add24 (w : Word) (n : Nat) : Word := word (min (w.toNat + n) 0xFFFFFF)

/-- An integer saturated to `n` signed bits. -/
def satI (n : Nat) (z : Int) : Int := clampI (-(2 ^ (n - 1))) (2 ^ (n - 1) - 1) z

/-- `a / b` to the nearest integer, halves away from zero (`b` > 0). -/
def roundAway (a b : Int) : Int := if 0 ≤ a then (2 * a + b) / (2 * b) else -((2 * -a + b) / (2 * b))

/-- `a / b` to the nearest integer, halves towards minus infinity (the earlier tick of R134; `b` > 0). -/
def roundEarlier (a b : Int) : Int := -((-(2 * a) + b) / (2 * b))

/-- `a / b` rounded up (`b` > 0). -/
def ceilDiv (a b : Nat) : Nat := (a + b - 1) / b

/-- The modulus of the tick counter (R65). -/
def tickMod : Nat := 2 ^ 48

/-- The signed distance from tick `a` to tick `b`, modulo 2^48 (R65). -/
def tickDiff (b a : Nat) : Int := sgn 48 (uns 48 ((b : Int) - (a : Int)))

/-- One bit of the CRC-24 of R460. -/
def crcBit (crc : Nat) (b : Bool) : Nat :=
  let fb := Nat.xor ((crc / 2 ^ 23) % 2) (b2n b)
  let c := (crc * 2) % 2 ^ 24
  if fb = 1 then Nat.xor c 0x864CFB else c

/-- The CRC-24 of R460 over bits in order. -/
def crcBits (bits : List Bool) : Nat := bits.foldl crcBit 0xB704CE

/-- The bits of the low `n` bits of a number, most significant first. -/
def bitsMsb : Nat → Nat → List Bool
  | 0, _ => []
  | n + 1, v => v.testBit n :: bitsMsb n v

/-- The CRC-24 of R460 over whole words, each most significant bit first. -/
def crcWords (ws : List Word) : Word := word (crcBits (ws.flatMap fun w => bitsMsb 24 w.toNat))

/-- The three bytes of a word, least significant first (R312). -/
def wordBytes (w : Word) : List Byte :=
  [BitVec.ofNat 8 w.toNat, BitVec.ofNat 8 (w.toNat / 256), BitVec.ofNat 8 (w.toNat / 65536)]

/-- The word of three bytes, least significant first (R312). -/
def bytesWord (a b c : Byte) : Word := word (a.toNat + 256 * b.toNat + 65536 * c.toNat)

/-- The low part of a wide value (R48). -/
def lo24 (n : Nat) : Word := word n

/-- Bits 47:24 of a wide value (R48). -/
def hi24 (n : Nat) : Word := word (n / 2 ^ 24)

/-- Bits 71:48 of a wide value (R48). -/
def top24 (n : Nat) : Word := word (n / 2 ^ 48)

end Sys2Proof.Machine
end

