-- ==== Sys2Proof/Machine/State.lean ====
section
/-!
DEFINITION. The state of the part as plain data: every register copy, memory, queue, counter and mode the manual
gives it, the queue of waiting commands, and the state right after reset.
-/
namespace Sys2Proof.Machine

/-- A finite table: the entries that differ from a default, first entry first. -/
abbrev Tbl (κ α : Type) := List (κ × α)

/-- The entry of a key, or the default. -/
def Tbl.get {κ α : Type} [DecidableEq κ] : Tbl κ α → κ → α → α
  | [], _, d => d
  | (j, v) :: r, k, d => if j = k then v else Tbl.get r k d

/-- The table with one entry set. -/
def Tbl.put {κ α : Type} [DecidableEq κ] : Tbl κ α → κ → α → Tbl κ α
  | [], k, v => [(k, v)]
  | (j, w) :: r, k, v => if j = k then (k, v) :: r else (j, w) :: Tbl.put r k v

/-- The table without the entries whose key satisfies `f`. -/
def Tbl.drop {κ α : Type} (t : Tbl κ α) (f : κ → Bool) : Tbl κ α := t.filter fun e => !f e.1

/-- The table holds an entry of the key. -/
def Tbl.has {κ α : Type} [DecidableEq κ] (t : Tbl κ α) (k : κ) : Bool := t.any fun e => decide (e.1 = k)

/-- A register: its page and byte offset. -/
abbrev RegKey := Pg × Nat

/-- The tier of the dies (R1, R2, R3). -/
inductive Tier | t08 | t16 | t16E
  deriving DecidableEq, Repr

/-- What the package and the fuses fix (R1). -/
structure Part where
  dies : Nat := 8
  tier : Tier := .t16E
  deriving DecidableEq, Repr

/-- The check-bit state of a stored word (R298, R310). -/
inductive Ecc | good | single | bad
  deriving DecidableEq, Repr

/-- A word held in a chute: its data, its start-of-record mark and its check state (R294, R298). -/
structure CWord where
  w : Word
  mark : Bool := false
  ecc : Ecc := .good
  seen : Bool := false         -- its error has been found and counted (R298)
  deriving DecidableEq, Repr

/-- The swathe block that a line assembler is taking from a chute (R151 to R153): its context, header words, the swathe of its
image lines, what R154 and R155 said of it, the settings under which its check started, the words taken, newest first,
the run in progress, the expanded words made, and those of the image line in progress, newest first. -/
structure Blk where
  ctx : Nat
  head : List Word
  sw : Nat
  gap : Bool := false
  missing : Nat := 0
  newSw : Bool := false
  grey : Nat := 1
  crcReq : Bool := false
  got : List Word := []
  zero : Bool := false
  run : Nat := 0
  made : Nat := 0
  line : List Word := []
  stalled : Bool := false      -- its wait for a seam credit has been counted (R164)
  deriving DecidableEq, Repr

/-- A chute (R294 to R302): its words, head first, the words bursts have reserved, its credits, and the flush scan. -/
structure ChuteSt where
  words : List CWord := []
  reserved : Nat := 0
  openRec : Bool := false      -- the record at the head has been begun (R297)
  dropping : Bool := false     -- the rest of a dropped pushed record is dropped (R297)
  spill : Nat := 0             -- spill words in force (R294)
  cfgBad : Bool := false
  grant : Nat := 0             -- CR_GRANT (R296)
  used : Nat := 0              -- CR_USED
  mirrored : Nat := 0          -- CR_GRANT at the last mirror write (R301)
  mirrorHeld : Bool := false   -- a mirror write waits for Bus Master Enable (R421)
  blk : Option Blk := none     -- the block that the assembler is taking (R151)
  skip : Nat := 0              -- words of a discarded block still to come (R153)
  hunting : Bool := false      -- header hunt after a TYPE failure (R153)
  flush : List Nat := []       -- contexts whose flush scan is in progress (R299)
  tailFlush : Option (List Word × Nat) := none -- first header words, and words seen, of a flushed block still arriving
  deriving DecidableEq, Repr

/-- A fenced page: the state code it was fenced in, whether a soft reset was in progress, and whether its release
has been requested (R409). -/
structure FenceSt where
  before : Nat := 0
  softReset : Bool := false
  releasing : Bool := false
  enAt : Option (Nat × Nat) := none -- clock of the last write of EN, and the state before the first of that tick (R409)
  deriving DecidableEq, Repr

/-- Context states (R125). -/
inductive CState | idle | armed | printing | paused | draining | fenced
  deriving DecidableEq, Repr


/-- A fixed-point estimate of a channel (R104, R106): position 24.24 modular, velocity and acceleration in their
register formats, the tick it holds for, and VALID. -/
structure Est where
  p : Int := 0
  v : Int := 0
  a : Int := 0
  t : Nat := 0
  valid : Bool := false
  deriving DecidableEq, Repr

/-- What a message from the encoder island carries to the jet island (R107, R111). -/
inductive MsgKind
  | estimate (e : Est)
  | step (delta : Int) (stamp : Nat)
  | lost
  | pdEdge (n : Nat) (stamp : Nat) (accepted : Nat) (pos : Int)
  deriving DecidableEq, Repr

/-- A message in flight: its die, its channel, and the clock at which it arrives (12 ticks, R16). -/
structure Msg where
  die : Nat
  chan : Nat
  due : Nat
  kind : MsgKind
  deriving DecidableEq, Repr

/-- Map entry of a nozzle: state and trim (R203). -/
structure NzMap where
  st : Nat := 0
  trim : Nat := 0
  deriving DecidableEq, Repr

/-- An image line held in a context's line store (R158, R164, R166): its swathe and line number, whether its block is
checked (R153), and its seam share. -/
structure ImgLine where
  sw : Nat := 0
  m : Nat
  ready : Bool := true
  sent : Bool := false         -- owner: the share was sent while the seam was UP
  share : Bool := false        -- partner: the share is stored
  ownHost : Bool := false      -- partner: the band has been printed from host data
  deriving DecidableEq, Repr

/-- A built line waiting for binding (R160): its swathe, number and the select codes of the context's nozzles. -/
structure Built where
  sw : Nat := 0
  n : Nat
  codes : List Nat := []
  deriving DecidableEq, Repr

/-- A seam share, or a slot credit (`vals` none), on its way to a context (R164). -/
structure SeamMsg where
  die : Nat
  ctx : Nat
  m : Nat := 0
  sw : Nat := 0
  vals : Option (List Nat) := none
  deriving DecidableEq, Repr

/-- The other-pass set of a swathe (R218). -/
structure OpSet where
  nozzles : List Nat := []     -- port nozzles withheld
  sw : Nat := 0                -- its swathe
  xs : List Nat := []          -- their mask columns
  yFirst : Nat := 0
  yLast : Nat := 0
  closed : Bool := false       -- its swathe is no longer in the assembler
  pass : Nat := 0
  maskCfg : List Word := []    -- words 24 to 27 of the swathe
  deriving DecidableEq, Repr

/-- A jet context (R116 to R147) with its assembler state (R151 to R169) and its side of a seam (R162 to R166). -/
structure CtxSt where
  st : CState := .idle
  act : Tbl Nat Word := []     -- active copy of words 0 to 55
  lat : Tbl Nat Word := []     -- words 0 to 3 latched at ARM (R121)
  before : CState := .idle     -- state before the fence
  cause : Nat := 0
  degraded : Bool := false
  throttled : Bool := false
  stallRun : Bool := false
  lost : Bool := false
  doneN : Nat := 0
  seqExp : Nat := 0
  lastFire : Nat := 0
  cntNull : Nat := 0
  cntLate : Nat := 0
  cntStep : Nat := 0
  cntDup : Nat := 0
  cntGap : Nat := 0
  next : Nat := 0              -- next line to bind
  fireNext : Option Int := none -- its fire tick as last computed, fine steps
  lastPlaced : Option Int := none -- fire tick of the last line placed, fine steps
  lastFired : Option Int := none -- placed tick of the last cycle of its group that fired, fine steps
  ref : Int := 0               -- reference of a PD start, 24.24 (R130)
  armedAt : Nat := 0           -- clock at which the context entered ARMED
  pdFrom : Nat := 0            -- clock from which an accepted edge may start it (R130, R131)
  turning : Bool := false      -- the new swathe waits for the old one's bound lines (R131)
  rejoin : Bool := false       -- released, rejoins at the next binding point (R127)
  drainCause : Nat := 0        -- CAUSE for the end of DRAINING
  aborting : Bool := false     -- an ABORT waits for the group's next cycle (R126)
  abortBy : Nat := 0           -- the member it came from
  abortCause : Nat := 0
  under : Bool := false        -- a data underrun blanked a line and none was delivered since (R138, R413)
  gapPause : Option Nat := none -- a line that missing image lines have paused the group before (R156)
  stallBad : Bool := false     -- the latest cycle with a line of it was NULL or not delivered (R138)
  stallAt : Nat := 0           -- clock at which the stall timer last started
  stallAcc : Nat := 0          -- ticks it has run before that
  skipDue : Bool := false      -- rejoined while the group is PAUSED: lines are skipped at RESUME (R127)
  lineL : Nat := 0             -- expected image line L (R155)
  swIn : Nat := 0              -- swathe of the image arriving
  swBuild : Nat := 0           -- swathe of the lines being built
  imgEnds : Tbl Nat Nat := []  -- per swathe: first line beyond its image (R155, R159)
  lines : List ImgLine := []
  inChute : Nat := 0           -- the chute of its block in the assembler
  blanks : List (Nat × Nat × Nat) := [] -- swathe, first line, number: blank image lines (R156)
  gaps : List (Nat × Nat × Nat) := []   -- missing image lines that pause the group (R156)
  shares : List (Nat × Nat × List Nat) := []  -- partner: swathe, line and share, until the slot's image line stands (R164)
  built : List Built := []
  nextBuild : Nat := 0
  wrapped : Bool := false      -- `nextBuild` has passed 2^24 − 1 in this swathe
  geomBad : Bool := false
  geom : List Word := []       -- geometry descriptor as checked (R157, R161)
  seamD : List Word := []      -- seam descriptor as checked (R162)
  map : Tbl Nat NzMap := []
  mapReady : Bool := true
  ntBad : Bool := false
  limitSeen : Bool := false    -- a SUBST_LIMIT record has been written (R215)
  opSet : Option OpSet := none -- set of this swathe
  opUse : Option OpSet := none -- set of the previous swathe, in use
  opSw : Option Nat := none    -- the swathe for which the sets have been turned
  seam : Nat := 0              -- seam state code (R165)
  seamCause : Nat := 0         -- 1 partner fenced, 2 owner fenced, 3 link or match, 4 a side went IDLE
  seamIdle : Bool := true      -- passed through IDLE since the seam left UP
  credits : Nat := 0           -- partner slots the owner may fill (R164)
  peerFallback : Bool := false
  deriving DecidableEq, Repr

/-- One context's part in a cycle: its line, whether its content was ready, and the select codes of its nozzles
from FIRST on. -/
structure Member where
  ctx : Nat
  line : Nat
  ready : Bool := true
  nul : Bool := false          -- carries no data of the context
  done : Bool := false         -- its line is completed for the context
  codes : List Nat := []
  deriving DecidableEq, Repr

/-- One thermal beat as fixed at binding: start offset, pre-pulse, gap and main pulse in fine steps (R193). -/
structure Pulse where
  off : Nat
  pre : Nat
  gap : Nat
  main : Nat
  deriving DecidableEq, Repr

/-- A bound cycle of a fire group (R133, R189 to R193, R241). -/
structure Cycle where
  fg : Nat := 0
  cseq : Nat := 0
  tctx : Nat := 0
  line : Nat := 0
  t0 : Int := 0                -- placed tick, fine steps
  dur : Int := 0               -- length, fine steps rounded up (R186, R193)
  timing : List Word := []     -- words 8 to 15 under which it was bound (R121)
  bank : Nat := 0
  set : Nat := 0
  table : Nat := 0
  s : Nat := 0x400000
  k : Nat := 0x400000
  pulses : List Pulse := []
  sense : Option (Nat × Nat) := none  -- context and port nozzle chosen
  sweep : Bool := false        -- its nozzle was chosen by a running sweep (R214)
  cap : Bool := false          -- of kind CAPTURE
  nul : Bool := false          -- NULL cycle
  noWave : Bool := false       -- no waveform and no ARM (R190, R191)
  mute : Bool := false         -- its set is of a kind that the port's personality does not play (R175)
  frozen : Bool := false
  armed : Bool := false
  fired : Bool := false
  sent : Bool := false
  acked : Bool := false
  lostFrame : Bool := false    -- given up (R240)
  repls : Nat := 0             -- its REPLACE frames not yet acknowledged (R241)
  supp : Bool := false         -- suppressed (R190)
  deadline : Int := 0          -- tick by which its frame must leave
  members : List Member := []
  deriving DecidableEq, Repr

/-- A downstream Sypol frame (R236, R237) on its way: its words without the check word, its group and cycle, its
deadline, and its transmissions. -/
structure Frame where
  kind : Nat := 0
  fseq : Nat := 0
  fg : Nat := 0
  cseq : Nat := 0
  words : List Word := []
  deadline : Option Int := none
  tries : Nat := 0
  sentAt : Nat := 0            -- clock at which its last EOF left
  load : Nat := 0              -- the bank load of a TABLE frame (R196)
  deriving DecidableEq, Repr

/-- The retry layer's open fault of a port (R413): first frame given up and the number of give-ups. -/
structure PortFault where
  cseq : Nat
  fseq : Nat
  count : Nat
  deriving DecidableEq, Repr

/-- A head port: its waveform banks, load, heater loop, cycles, sensing pointer and Sypol link. -/
structure PortSt where
  bank0 : Tbl Nat Word := []
  bank1 : Tbl Nat Word := []
  rest : Nat := 0
  tempSeen : Bool := false     -- a valid temperature since RUNNING (R185)
  integ : Int := 0
  cycles : List Cycle := []
  cseq : Tbl Nat Nat := []     -- next CSEQ per fire group
  senseJ : Nat := 0            -- bound cycles since RUNNING (R205)
  ptr : Nat := 0
  link : Nat := 0              -- LINK code (R232)
  rate : Nat := 3              -- rate code of the training attempt, then of the trained link (R234)
  trained : Nat := 0           -- `SY_STAT.RATE`: the rate last trained
  attempts : Nat := 0          -- failed attempts at this rate (R234)
  tryAt : Nat := 0             -- clock at which the attempt began
  upAt : Nat := 0              -- clock at which the striped stream began (R229)
  retrainCause : Nat := 0      -- LAST_FAIL code if retraining fails (R235)
  failAt : Nat := 0            -- clock of the last discovery failure (R232)
  lead : Nat := 0              -- BIND_LEAD (R242)
  fseqNext : Nat := 0
  queue : List Frame := []
  outst : List Frame := []
  giveRow : Nat := 0           -- consecutive give-ups (R235)
  wireFree : Nat := 0          -- clock at which the frame on the lanes ends
  fault : Option PortFault := none
  held : List Frame := []      -- reordered frames that wait for the next frame sent, the latest first (R243)
  follow : List Frame := []    -- reordered frames that go next, in order
  stopFrames : List Frame := [] -- NULL frames and HOLD that follow the last waveform of a shut-down (R244)
  upHeld : List (List Word) := [] -- a reordered upstream frame
  statusAt : Nat := 0          -- clock of the last STATUS
  loadTables : Nat := 0        -- select tables of a load still to be acknowledged
  loadBank : Nat := 0
  loadQueued : Bool := false   -- the select tables of a load have been queued (R196)
  loadNo : Nat := 0            -- number of the load
  loadValid : Nat := 0         -- valid sets of the bank copied (R184, R196)
  play : List Cycle := []      -- fired cycles that have not reached their end (R189, R198)
  wfOut : List (Nat × Nat) := []  -- output samples of the cycle last played: tick, amplitude (R198)
  smp : Option Nat := none     -- level that the sample stream carries between waveforms; none: no stream (R177, R231)
  dacOn : Bool := false        -- the DAC follows the stream (R192)
  dacHeld : Nat := 0           -- the code it takes between waveforms
  htrDuty : Nat := 0           -- duty in force (R194)
  htrNew : Nat := 0            -- duty from the next PWM period on
  pwmAt : Nat := 0             -- clock at which a PWM period began
  pwmUs : Nat := 100           -- its length, µs
  htrAt : Option Nat := none   -- clock of the last run of the heater loop
  deriving DecidableEq, Repr

/-- A ring-down measurement whose window has opened (R207): the nozzle, the table pointer and the first window
tick. -/
structure Meas where
  port : Nat
  ctx : Nat
  idx : Nat
  ptr : Nat                    -- NT_PTR.ADDR when the window started
  tick : Nat
  len : Nat := 0               -- samples in the window: L (R207)
  sweep : Bool := false        -- of a sweep, and of one of kind CAPTURE (R214)
  cap : Bool := false
  stale : Bool := false
  deriving DecidableEq, Repr

/-- The running sweep of a die (R214). -/
structure SweepSt where
  got : Nat := 0               -- valid measurements of the nozzle swept
  cycles : Nat := 0            -- sensing cycles spent on it
  port : Nat := 0              -- the port swept
  broken : Bool := false       -- the mode has left SERVICE, or the context PRINTING, since it started
  results : List (Nat × Nat × Nat × Nat) := []
  deriving DecidableEq, Repr

/-- The echo analyser and the moved-drop stores of a die. -/
structure EchoSt where
  meas : List Meas := []
  sweep : SweepSt := {}
  moved : List (Nat × Nat × Nat × Nat) := [] -- primary context, image line, column, size (R217)
  deriving DecidableEq, Repr

/-- The memory tester and the retention queue of a die (R316, R318, R320). -/
structure MemSt where
  bank : Nat := 0
  region : Nat := 0
  phase : Nat := 0
  sweepBank : Nat := 0         -- place of the sweep, when a region is tested ahead of it
  sweepRegion : Nat := 0
  ahead : List (Nat × Nat) := []
  failing : List Nat := []     -- rows found failing in the region under test
  lastStart : Nat := 0         -- clock of the last region start
  toSave : List Word := []     -- live repairs not yet in the repair map
  saved : List Nat := []       -- banks of the live repairs in the repair map, oldest first (R318)
  queue : List (Nat × Word) := [] -- retention writes waiting
  deriving DecidableEq, Repr

/-- An encoder channel beside its registers (R84 to R109). -/
structure EncSt where
  ab : Nat := 0                -- last decode sample of A (bit 1) and B (bit 0)
  z : Bool := false            -- last decode sample of Z
  hasRef : Bool := false       -- A and B have their reference sample (R89)
  zRef : Bool := false         -- Z has its own
  counted : Bool := false      -- a count has been made since RUNNING (R91)
  back : Bool := false         -- last counted direction is reverse
  p : Int := 0                 -- estimator position, 2^-24 counts
  v : Int := 0                 -- velocity, 2^-40 counts per tick
  a : Int := 0                 -- acceleration, 2^-47 counts per tick^2
  tk : Nat := 0                -- tick of the last update
  pair : Option (Int × Nat) := none -- newest unused pair: z in half counts, stamp (R104)
  restart : Bool := true       -- the next update restarts the estimator (R105)
  quiet : Nat := 0             -- consecutive updates without a pair
  edges : List (Nat × Bool) := [] -- stamps and reverse flags of the newest count edges, newest first (R95)
  edgeClock : Nat := 0         -- clock of the last count edge
  win : List (Nat × Int × Int) := List.replicate 17 (0, 0, 0) -- for W = 2^4 to 2^20: the clock of the newest window
                               -- boundary, `POS` then and one W before, corrections taken out (R94)
  winAt : Nat := 0             -- clock at which `win` was last brought up to date
  winBad : Bool := false       -- the window in progress is discarded
  serBusy : Bool := false      -- a serial frame is in progress (R97)
  serStamp : Nat := 0          -- its stamp
  serPrev : Option Nat := none -- value of the last valid frame since RUNNING (R98)
  serLast : Option Nat := none -- stamp of the last frame used (R101)
  acc : Int := 0               -- virtual position accumulator, 2^-40 counts (R108)
  remote : Est := {}           -- last estimate received from the source channel (R109)
  remoteAt : Nat := 0          -- clock at which it came
  remotePer : Nat := 64        -- the source's estimator period
  remoteLost : Bool := false
  jet : Est := {}              -- last estimate that reached the jet island (R107)
  startAt : Nat := 0           -- clock of the first raw sample of the present decode windows (R84)
  sampleAt : Nat := 0          -- clock of the last decode sample of A and B
  zAt : Nat := 0               -- clock of the last decode sample of Z
  spdAt : Option Nat := none   -- clock of the last window of R94
  accAt : Nat := 0             -- clock at which `acc` held
  updAt : Option Nat := none   -- clock of the last estimator update or publication
  latAt : Option Nat := none   -- clock of the last latch
  latSrc : Nat × Nat := (0, 0) -- its source and input (R102)
  latStamp : Int := 0          -- its stamp
  perAt : Option Nat := none   -- clock of the last periodic trigger
  loadAt : Option Nat := none  -- clock of the last load (R90)
  serAt : Option Nat := none   -- clock at which the last serial frame was due
  limAt : Option Nat := none   -- clock of the last 64-tick limit (R95)
  deriving DecidableEq, Repr

/-- A product-detect input (R111, R112). -/
structure PdSt where
  locked : Bool := false
  lockClock : Nat := 0         -- clock at which the lockout began
  raw : Bool := false          -- level of the last raw sample
  since : Nat := 0             -- clock of the first of the consecutive raw samples at that level
  deriving DecidableEq, Repr
/-- A switch input of an axis (R261): its level, the burst in progress with the position and stamp of its first edge,
its chatter, and the clock of its last change. -/
structure SwSt where
  raw : Bool := false          -- the input before its inversion
  level : Bool := false
  burst : Bool := false
  pos : Int := 0
  stamp : Nat := 0
  chat : Nat := 0
  since : Nat := 0
  deriving DecidableEq, Repr

/-- A stretch of commanded motion from clock `at_` on, as of an axis. -/
structure MotionSeg where
  x : Int
  v : Int
  a : Int
  at_ : Nat
  endN : Nat
  xEnd : Int
  deriving DecidableEq, Repr

/-- A motion axis beside its registers (R248 to R268). The commanded motion is a segment of constant acceleration
that starts at clock `at_`: position in 2^-56 microsteps, velocity and acceleration in 2^-55 microsteps per tick and
tick^2; a segment with `endN` > 0 ends after `endN` ticks at rest at `xEnd`. -/
structure AxisSt where
  x : Int := 0
  v : Int := 0
  a : Int := 0
  at_ : Nat := 0
  endN : Nat := 0
  xEnd : Int := 0
  lastMove : Nat := 0          -- clock of the last change of position before this segment
  approach : Bool := false     -- R255
  overshot : Bool := false         -- a reversal is due after overshoot (R256)
  tgt : Int := 0               -- target last used
  dec : Nat := 0               -- deceleration in force (R257)
  decSeen : Nat := 0           -- AX_DEC last judged
  deferred : Bool := false     -- the old deceleration stays in force until the axis stops
  past : List MotionSeg := []  -- the stretches before this one, the latest first: those of the last ticks (R261)
  cmds : List (Req × Nat) := []  -- AX_CMD codes written since the last profile tick, with their requesters (R254)
  stopDue : Bool := false      -- a fault since the last profile tick stops the axis by policy (R260)
  sw : Tbl Nat SwSt := []      -- LIM_NEG 0, LIM_POS 1, HOME 2
  homeEv : List (Nat × Bool) := [] -- edges qualified in HOMING since the last profile tick
  hdir : Int := 0              -- search direction (R263)
  hstop : Bool := false        -- the homing phase decelerates to rest
  hnext : Nat := 0             -- phase that follows the rest
  hoff : Option Int := none    -- end position of the back-off's further distance
  hfirst : Bool := false       -- an approach is still due after the back-off
  hrev : Bool := false         -- the search has been reversed (R264)
  hchat : Nat := 0             -- chatter of the run (R265)
  y : Int := 0                 -- input position, microsteps (R253)
  rate : Int := 0              -- rate of R253, 2^-55 microsteps per tick
  stepPrev : Option (Nat × Int) := none  -- stamp and direction of the last step
  ben : Bool := false          -- AX_a_BEN
  coast : Bool := false        -- fenced in COAST (R268)
  rampAt : Nat := 0            -- clock at which the enable ramp began (R267)
  integA : Int := 0
  integB : Int := 0
  uA : Int := 0                -- drives (R249)
  uB : Int := 0
  onA : Int := 0               -- signed on-times of the next PWM period, ticks
  onB : Int := 0
  iA : Int := 0                -- currents at the last loop tick
  iB : Int := 0
  ocCount : Nat := 0           -- consecutive loop ticks above AX_OC.LIMIT
  stallCount : Nat := 0
  deltaF : Int := 0
  loopAt : Option Nat := none  -- clock of the last loop tick
  profAt : Option Nat := none  -- clock of the last profile tick
  deriving DecidableEq, Repr

/-- A MOVE in progress (R275, R276): its registers and kinds, words not yet written, and the addresses and words of
the bursts still to start. -/
structure MoveSt where
  sr : Nat
  dr : Nat
  sk : Nat
  dk : Nat
  remain : Nat                 -- words not yet written
  sw : Nat                     -- source address of the first unwritten word
  src : Nat := 0               -- source address of the next burst
  dst : Nat := 0
  left : Nat := 0              -- words no burst has started for
  deriving DecidableEq, Repr

/-- A failed access (R285): code, address, whether a write, whether a host address, and the chute whose poisoned word
it was. -/
structure HcErr where
  code : Nat
  addr : Nat
  write : Bool := false
  host : Bool := false
  chute : Option Nat := none
  recorded : Bool := false     -- a poisoned word of die memory, reported where it was read (R311)
  deriving DecidableEq, Repr

/-- A burst in flight (R276, R283). -/
structure Burst where
  n : Nat
  src : Nat
  dst : Nat
  id : Nat := 0                -- its number among the channel's bursts
  err : Option HcErr := none   -- a failure found at its start, reported when its turn comes
  res : Option Nat := none     -- chute whose space it has reserved
  sres : Option Nat := none    -- chute whose words it has reserved
  sn : Nat := 0                -- how many
  hostRead : Bool := false     -- its host read is outstanding
  deriving DecidableEq, Repr

/-- A Hoist channel beside its registers (R271 to R289). -/
structure HoistSt where
  cs : Nat := 1                -- CSTATE code while RUNNING: 1 IDLE to 6 ABORTING; RUN stands for FLOW too
  pc : Nat := 0
  lc0 : Nat := 0
  lc1 : Nat := 0
  act0 : Bool := false
  act1 : Bool := false
  wait : Option (Nat × Nat × Nat × Nat) := none  -- KIND, CHUTE, VALUE and the clock at which it ends, 0 none
  move : Option MoveSt := none
  bursts : List Burst := []
  held : Option Burst := none  -- the failed burst, whose reservation is kept (R285)
  lastStart : Option Nat := none -- clock of the last burst start
  bseq : Nat := 0              -- number of the next burst
  tokens : Nat := 0
  wdAt : Nat := 0              -- clock at which the watchdog last reset
  fcs : Nat := 1               -- CSTATE when fenced (R288)
  sig : Option Word := none    -- SIGNAL or END whose record waits for its queue (R279, R292)
  stopRec : Bool := false      -- a shut-down appends an ABORT record (R289)
  deriving DecidableEq, Repr

/-- A completion record that waits for its queue (R285, R292): channel, queue, type, code and run number; `instr` if the
channel's SIGNAL or END waits for it. -/
structure CqRec where
  chan : Nat
  q : Nat
  kind : Nat
  code : Nat
  run : Nat
  instr : Bool := false
  deriving DecidableEq, Repr

/-- An Assay channel (R323 to R337). Temperatures are signed 1/64 °C. -/
structure AsChan where
  st : Nat := 0                -- the run in progress: 0 none, 2 TAKEOVER, 3 MEASURE or CHECK
  queued : Nat := 0            -- kind of the queue entry (R325); 0: not queued
  kind : Nat := 0              -- kind of the run
  lent : Bool := false         -- the spare has taken the channel's work
  aborted : Bool := false      -- the run has been abandoned; the hand-back is still to come (R336)
  origEnd : Int := 0           -- tick at which the last cycle on the original channel ends
  takenAt : Nat := 0           -- clock at which the run started, then that of the takeover
  measAt : Nat := 0            -- clock at which MEASURE started
  measured : Bool := false     -- MEASURE has ended; the hand-back is still to come
  runTemp : Int := 0           -- temperature at the start of MEASURE
  result : Nat := 0            -- result of the run in progress
  lastKind : Nat := 0
  lastResult : Nat := 0
  consec : Nat := 0
  runs : Nat := 0
  fails : Nat := 0
  lastSec : Nat := 0
  lastTs : Nat := 0
  lastTemp : Int := 0
  applied : List Int := []     -- codes in force; empty stands for codes 0
  next : Option (List Int) := none -- codes that take effect at the next cycle boundary (R332)
  points : Tbl Nat (List Word) := [] -- the eight points (R330)
  deriving DecidableEq, Repr

/-- The Assay engine of a die beside its registers and channels. -/
structure AssaySt where
  chans : Tbl Nat AsChan := []
  active : Tbl Nat Nat := []   -- class to running channel
  lastRot : Tbl Nat Nat := []  -- last ROTATION channel of each class
  spareEnd : Tbl Nat Int := [] -- tick at which the last cycle on the spare of each class ends (R327)
  xtalLost : Bool := false     -- TB_STAT.SRC has become 1 during the TIMING run
  deriving DecidableEq, Repr

/-- A warning scope (R342 to R347). -/
structure ScopeSt where
  warned : Bool := false
  stage : Nat := 0             -- 0 NORMAL, 1 GRACE, 2 ECHO_REDUCED, 3 ENFORCED
  w0 : Nat := 0
  graceAt : Option Nat := none -- clock at which the grace timer expires
  belowAt : Option Nat := none -- clock since which the condition has stayed below
  deriving DecidableEq, Repr

/-- A head thermistor's filter (R341). -/
structure HeadTh where
  y : Int := 0
  good : Bool := false         -- the last reading was good
  deriving DecidableEq, Repr

/-- Thermal state of a die. -/
structure ThermSt where
  die : ScopeSt := {}
  ports : Tbl Nat ScopeSt := []
  heads : Tbl Nat HeadTh := []
  fired : Tbl Nat (List (Nat × Nat)) := [] -- per port: clock and drops of the cycles of the last 100 ms (R343)
  islBad : List Nat := []      -- island sensors marked not valid
  updAt : Option Nat := none   -- clock of the last 10 ms update
  deriving DecidableEq, Repr

/-- An island's ageing monitor (R351, R352). -/
structure IslandSt where
  drift : Nat := 0
  vtrim : Nat := 0
  guard : Nat := 0
  calint : Nat := 720
  m0 : Nat := 0                -- factory fuses
  kv : Nat := 0
  lastReplan : Option Nat := none -- seconds of the last re-plan
  lastAge : Nat := 0           -- seconds of the last AGEING queueing
  deriving DecidableEq, Repr

/-- The ageing monitors and the daily history of a die (R351 to R354). -/
structure LampSt where
  isl : Tbl Nat IslandSt := []
  since : Option Nat := none   -- clock at which the measurement in progress began
  hourDone : Nat := 0          -- last hour measured
  dayDone : Nat := 0           -- last day recorded
  hottest : Option Int := none -- highest die temperature of the day
  sum : Int := 0               -- sum and number of its 10 ms updates
  n : Nat := 0
  replans : Nat := 0           -- re-plans of the day
  firing : Nat := 0            -- seconds in firing modes
  deriving DecidableEq, Repr


/-- A channel pair of a mailbox page beside its registers (R358 to R371). -/
structure MboxCh where
  args : List Word := []       -- arguments of the message posted (R360)
  result : Option (Nat × List Word) := none  -- code and results of the command executed, before they are loaded
  discard : Bool := false      -- a Function Level Reset discards its acknowledgement (R363)
  held : Option (Word × List Word) := none   -- acknowledgement held while the page is fenced (R371)
  dAck : Word := 0#24          -- deduplication record: acknowledgement and results (R361)
  dRes : List Word := []
  postAt : Option Nat := none  -- clock of the post that stands in the slot (R363)
  inAt : Nat := 0              -- clock at which the inbound timer last restarted (R370)
  inLate : Bool := false       -- it has latched its event for this message
  outAt : Nat := 0
  outLate : Bool := false
  queue : List (Nat × List Word) := []       -- notices waiting: code and arguments (R367)
  outTag : Nat := 0            -- tag of the next notice
  outCode : Option (Nat × Nat) := none -- tag and code of the last notice acknowledged with a code other than 0 (R368)
  deriving DecidableEq, Repr

/-- A long command (R365): its page, channel and code, the clock at which it began and its first argument. -/
structure LongCmd where
  sec : Bool
  n : Nat
  cmd : Nat
  start : Nat
  arg : Nat := 0
  deriving DecidableEq, Repr

/-- The firmware of a die (R362 to R366). -/
structure FwSt where
  long : Option LongCmd := none
  cause : Nat := 0             -- cause the next FW_STARTED notice reports (R367)
  deriving DecidableEq, Repr

/-- The time-transfer servo of TSYNC (R72 to R79). -/
structure TsyncSt where
  integ : Int := 0
  goodRow : Nat := 0           -- consecutive valid frames with |e| ≤ 4 (R76)
  badRow : Nat := 0            -- consecutive valid frames with |e| > 8
  heardAt : Nat := 0           -- clock of the last valid frame, or of the start of the servo
  missed : Nat := 0            -- missing periods counted since
  step : Option (Nat × Int) := none  -- clock of T_step and the step in fine steps (R75)
  slew : Bool := false         -- a step was blocked: the servo runs at the slew limit
  seq : Nat := 0               -- sequence number of the next frame sent
  sentAt : Option Nat := none  -- clock of the last timing point
  relax : Bool := false        -- TS_FREQ returns to 0 after a soft reset (R79)
  secSet : Bool := false       -- the seconds counter has been set since its last DORMANT (R72)
  stopAt : Nat := 0            -- tick at which EN was cleared (R79)
  adopted : Bool := false      -- SEC_ADOPT has been served in this LOCKED (R78)
  deriving DecidableEq, Repr

/-- A Burim flit (R429): its SEQ, TYPE, destination, source, virtual channel and valid payload words; and, for one in
transit, the port at which it has come in (R430). -/
structure Flit where
  seq : Nat
  kind : Nat
  dst : Nat := 0
  src : Nat := 0
  vc : Nat := 0
  words : List Word := []
  via : Option Nat := none
  deriving DecidableEq, Repr

/-- One direction of a Burim port's traffic and its link (R431 to R433). -/
structure BurimSt where
  next : Nat := 0              -- SEQ of the next flit sent
  queue : List Flit := []      -- flits that wait to be sent, oldest first (R430)
  spent : Tbl Nat Nat := []    -- credits in use of each virtual channel (R430)
  buf : List Flit := []        -- replay buffer, oldest first
  resend : List Nat := []      -- SEQs still to be resent
  late : Option Flit := none   -- a reordered flit follows the next one (R433)
  last : Nat := 1023           -- last SEQ accepted
  nak : Option Nat := none     -- SEQ of the NAK sent whose replay has not arrived
  errs : List Nat := []        -- clocks of the CRC failures that count (R432)
  attempts : Nat := 0          -- retraining attempts failed in a row
  since : Nat := 0             -- clock at which the retraining attempt began
  deriving DecidableEq, Repr

/-- A message of an encoder channel on its way to a REMOTE channel of another die (R109): receiver, message, and the
source's `POS` and `SPD`. -/
structure HopMsg where
  die : Nat
  chan : Nat
  kind : MsgKind
  pos : Nat
  spd : Nat
  deriving DecidableEq, Repr

/-- A secure session of a die (R376 to R380). -/
structure SessSt where
  st : Nat := 0                -- STATE code: 0 IDLE, 1 CHALLENGE, 2 OPEN, 3 BACKOFF
  bind : Bool := false
  consec : Nat := 0            -- consecutive failed checks, for the backoff time
  backoffEnd : Nat := 0        -- clock at which BACKOFF ends
  last : Nat := 0              -- clock of the last access by a permitted requester
  deriving DecidableEq, Repr

/-- The test access port and debug session of a die (R384 to R389). -/
structure TapSt where
  ir : Nat := 0xFF
  session : Bool := false
  lockout : Bool := false
  fails : Nat := 0
  chal : Option Nat := none    -- challenge captured and not yet used (R387)
  accDone : Bool := false
  accError : Bool := false
  accTag : Nat := 0
  accData : Word := 0#24
  pins : Bool := false         -- the boundary-scan cells control the balls (R385)
  dr : Nat := 0                -- data register captured last
  deriving DecidableEq, Repr

/-- The start-up of a die (R399 to R401): the step in progress, what each step did at this start, and the due time
of a restart. -/
structure BootSt where
  step : Nat := 0
  since : Nat := 0             -- clock at which the step began
  outcome : List Nat := []     -- per finished step: LAST code (R402)
  alts : Nat := 0              -- bit s: step s took its alternative (ALT_NOW)
  restartAt : Option Nat := none
  complete : Bool := false
  stuck : Bool := false        -- the die stays in reset or is left out
  image : Nat := 0             -- image running: 0 A, 1 B
  noFw : Bool := false         -- neither image verified: NO_FIRMWARE (R401)
  skips : Nat := 0             -- bit s: step s had failed 3 times or more in a row when this start began (R400)
  lastImage : Nat := 0         -- image of the previous start
  starts : Nat := 0
  us0 : Nat := 0               -- duration of step 0, until the board is open
  deriving DecidableEq, Repr

/-- A position record (R103): its place among the records of its tick (channels 0 to 7, inputs 8 to 15), word 0 without
the sequence number, words 1 to 5, whether it stands in the chute, and whether it is a latch record. -/
structure PosRec where
  key : Nat
  head : Nat
  ws : List Word
  written : Bool
  latch : Bool
  deriving DecidableEq, Repr

/-- State of a die that no register shows in this form. -/
structure DieSt where
  counting : Bool := false     -- the tick counter runs (R64)
  tick : Nat := 0              -- tick counter, 48 bits (R65)
  serial : Nat := 0
  lot : Nat := 0
  wafer : Nat := 0
  key : Nat := 0               -- die-unique key, 256 bits (R375, R376)
  keyId : Nat := 0
  lc : Nat := 0                -- lifecycle fuses (R373)
  fuseOk : Bool := true
  keyOk : Bool := true
  logSeq : Nat := 0            -- record sequence numbers, 12 bits (R103, R222, R350, R411)
  posSeq : Nat := 0
  recs : List PosRec := []     -- position records of the tick at clock `recsAt`, in the order of R103
  recsAt : Nat := 0
  echoSeq : Nat := 0
  stateSeq : Nat := 0
  thermSeq : Nat := 0
  sess : SessSt := {}
  tap : TapSt := {}
  boot : BootSt := {}
  pllLocked : Bool := false
  pllSince : Nat := 0          -- clock since which the PLL has been locked (R62)
  syncSince : Nat := 0         -- clock since which SYNC_OK has been 1 (R408)
  phase : Int := 0             -- phase correction in force (R69)
  refSeen : Nat := 0           -- refused mode requests that have reached the die (R30, R33)
  lastFlit0 : Nat := 0         -- clock of the last flit from die 0 (R410)
  dieReason : Nat := 0         -- reason of the die fence, 0 none (R410)
  dieCount : Nat := 0          -- pages and contexts fenced with the die (R411)
  dieTied : Bool := false      -- die 0's log still owes the FAULT record of the die fence (R411)
  turn : Bool := false         -- the next flit for the die opposite takes port 1 (R22)
  ijSeen : Nat := 0            -- eligible frames counted (R414)
  deriving DecidableEq, Repr

/-- Power phases of the package (R392, R395). -/
inductive Power | running | entering | stopped | off
  deriving DecidableEq, Repr

/-- A host read of a Hoist burst that has no completion yet (R422). -/
structure HostRead where
  die : Nat
  chan : Nat
  burst : Nat                  -- number of the burst that it serves
  addr : Nat
  bytes : Nat
  tries : Nat := 0
  deriving DecidableEq, Repr

/-- The writes of one tick to a register (R36): the clock, the register's value before them and after them, and each
write with the place of its requester class, in the order in which they apply. -/
structure TickWrites where
  reg : RegKey
  clock : Nat
  before : Word
  after : Word
  writes : List (Nat × Word)
  deriving DecidableEq, Repr

/-- The PCI Express endpoint (R418 to R426). -/
structure PcieSt where
  bme : Bool := false          -- Bus Master Enable
  mse : Bool := false          -- Memory Space Enable
  msixEn : Bool := false
  msixFmask : Bool := false
  unmasked : List Nat := []    -- vectors whose mask bit is 0
  pba : List Nat := []         -- pending vectors
  table : Tbl (Nat × Nat) Nat := []  -- MSI-X table: (vector, dword) to value
  bars : Tbl Nat Nat := []     -- address bits of the BAR registers BAR0 to BAR5 (R420)
  ctoRange : Nat := 0          -- Device Control 2 completion timeout value
  maxPayload : Nat := 128
  maxRead : Nat := 512
  perst : Bool := true         -- PERST# asserted
  flrAt : Option Nat := none   -- clock of the last Function Level Reset (R363)
  clksel : Bool := false       -- strap PCIE_CLKSEL (R419)
  reads : List HostRead := []
  deriving DecidableEq, Repr

/-- State of the package. -/
structure PkgSt where
  seconds : Nat := 0           -- seconds counter, 48 bits (R66), always-on
  secFrac : Int := 0           -- ticks by which the next seconds edge comes early after a wake (R68)
  lpoInc : Nat := 0            -- the oscillator's increment: its second lasts 249,937,500 ticks and this many (R68)
  edgeAt : Nat := 0            -- clock of the last seconds edge
  power : Power := .running
  vinEn : Bool := true         -- AON_VIN_EN
  wokeBy : Nat := 0            -- WAKE_CAUSE sources of the wake in progress (PWR_STAT layout)
  woken : Bool := false
  wokeAt : Nat := 0            -- clock of the wake
  throt : Nat := 0             -- THROT_REQ: high time of the period at clock `throtAt`, 1/256; 256 steady high (R344)
  throtNew : Nat := 0          -- the same from the next period on
  throtAt : Nat := 0
  lastMode : Nat := 0
  vaonOn : Bool := true
  powerOn : Bool := true       -- VAON has been applied since the last start (R397)
  hostEpoch : Nat := 0
  refusals : Nat := 0          -- refused mode requests (R33)
  noFw : Bool := false         -- an enumerated die has run without firmware since this start (R25)
  nextMode : Nat := 2          -- mode of the accepted request that waits for its switch tick (R26, R27)
  settleAt : Nat := 0          -- clock at which the island clocks have settled (R27)
  secSetSeen : Bool := false   -- SEC_SET_L written since the last hand-over (R67)
  xtal : List Int := []        -- factory table of the crystal: 17 points in ppb; an empty list stands for 0 (R59)
  compAt : Option Nat := none  -- clock of the last crystal reading
  exchAt : Tbl Nat Nat := []   -- per die: clock of the last exchange of timing flits (R69)
  deriving DecidableEq, Repr

/-- The answer to the last bus read: its data, its tag byte, and how it completed (R34, R53, R423). -/
inductive Resp
  | none
  | data (tag : Nat) (w : Word)
  | bytes (bs : List Byte) (poisoned : Bool)
  | unsupported
  | error
  | tdo (v : Nat)
  deriving DecidableEq, Repr

/-- What a channel does with its pair ENC_c_B (R83): an input, or an output idle high or with the clock MA, which falls
first and changes every `half` ticks. -/
inductive PadB | input | high | clock (half : Nat)
  deriving DecidableEq, Repr

/-- What leaves the part, oldest first. -/
inductive Out
  | msix (vector : Nat)
  | hostWrite (addr : Nat) (bytes : List Byte)
  | hostRead (die chan : Nat) (addr bytes : Nat)
  | frame (die port : Nat) (pos : Nat) (words : List Word) -- a downstream Sypol frame with its check word, and the place
                                                        -- of its SOF in the character stream (R229, R236)
  | armUnit (die port : Nat) (pos d : Nat)             -- an ARM unit (R241)
  | sample (die port : Nat) (tick amp flags : Nat)     -- an output sample of a cycle (R186), as an SMP unit (R230)
  | stream (die port : Nat) (tick : Nat) (amp : Option Nat) -- from here on every sample instant without a `sample` carries
                                                        -- this level and flags 0, or nothing is sent (R177, R231)
  | senseOff (die : Nat) (tick : Nat)                   -- from here on samples emitted before carry SENSE 0 (R224)
  | dac (die port : Nat) (tick code : Nat)              -- a code of the on-die DAC (R192)
  | dacHold (die port : Nat) (tick code : Nat)          -- from here on its code at every instant without a `dac`
  | heater (die port : Nat) (clock us duty : Nat)       -- from here on HP_p_HTR has this period and duty (R194)
  | train (die port : Nat) (da db : List Chr) (sets : Nat) -- training ordered sets on the lanes; 0: over and over (R234)
  | cut (die port : Nat) (tick : Nat)                  -- outputs of cycles already emitted end here (R198)
  | pulse (die port fg : Nat) (start width : Int)      -- a FIRE pulse, fine steps (R193)
  | sideWrite (die port offset : Nat) (bytes : List Nat) -- bytes on a head's management bus (R366)
  | encB (die chan tick : Nat) (drive : PadB)           -- ENC_c_B changes (R83)
  | tsync (tick : Nat) (chars : List Chr)               -- a frame at TSYNC_OUT: timing point and characters (R72)
  deriving DecidableEq, Repr

/-- The state of the part. -/
structure State where
  pending : List Instr := []       -- commands waiting, first in first out
  clock : Nat := 0                 -- ticks elapsed
  free : Nat := 0                  -- names the next free value
  part : Part := {}
  regs : Tbl RegKey Word := []     -- registers (active copies) that differ from reset
  shad : Tbl RegKey Word := []     -- shadow copies written (R47)
  gos : Tbl RegKey Nat := []       -- clock of the last GO write of each commit word (R47)
  hold : Tbl RegKey Word := []     -- holding copies of upper parts (R50)
  ticks : List TickWrites := []    -- registers written in this tick (R36)
  caps : Tbl (Nat × RegKey) Word := []  -- captures of wide values per requester class (R49)
  fences : Tbl Pg FenceSt := []
  mem : List Host.Cell := []       -- lode and dual-port bytes by BAR0 address (R52)
  ecc : Tbl Nat Ecc := []          -- check state of words, by the address of their first byte (R310)
  ret : List Host.Cell := []       -- retention store bytes (R319)
  retEcc : Tbl Nat Ecc := []
  chutes : Tbl (Nat × Nat) ChuteSt := []
  ctxs : Tbl (Nat × Nat) CtxSt := []
  ports : Tbl (Nat × Nat) PortSt := []
  encs : Tbl (Nat × Nat) EncSt := []
  pds : Tbl (Nat × Nat) PdSt := []
  seamQ : List SeamMsg := []       -- shares and credits in flight (R164)
  echos : Tbl Nat EchoSt := []
  mems : Tbl Nat MemSt := []
  msgs : List Msg := []            -- messages crossing to the jet islands (R107)
  axes : Tbl (Nat × Nat) AxisSt := []
  hoists : Tbl (Nat × Nat) HoistSt := []
  served : Tbl Nat Nat := []       -- the channel of each die whose burst was served last (R284)
  trigs : List (Nat × Nat) := []   -- triggers on their way: die and channel (R280)
  tmrs : Tbl (Nat × Nat) Nat := []     -- clock at which each global timer last fired (R282)
  cqWait : Tbl Nat (List CqRec) := []  -- records waiting on a die, in the order of their appending (R292)
  cqSeq : Tbl (Nat × Nat) Nat := []    -- record sequence number of each queue (R291)
  assays : Tbl Nat AssaySt := []
  therms : Tbl Nat ThermSt := []
  lamps : Tbl Nat LampSt := []
  mboxes : Tbl (Nat × Nat) MboxCh := []  -- die and channel: non-secure 0 to 3, secure 4 to 7
  fws : Tbl Nat FwSt := []
  tsync : TsyncSt := {}
  burims : Tbl (Nat × Nat) BurimSt := []
  hops : List HopMsg := []         -- messages crossing to REMOTE channels (R109)
  dies : Tbl Nat DieSt := []
  pkg : PkgSt := {}
  pcie : PcieSt := {}
  resp : Resp := .none
  out : List Out := []
  deriving DecidableEq, Repr

/-- Reasons the machine stops with a fault. -/
inductive Fault
  /-- Raised by no meaning: the part records errors in registers and goes on (R39, R44, R53, R411). Safe: it is
  never answered. -/
  | none
  deriving DecidableEq, Repr

/-- Reasons a command has no meaning. -/
inductive Refusal
  /-- Raised by an arm of `exec` that has no meaning yet. Safe: nothing is proved of such a command. -/
  | notModelled (mnemonic : String)
  deriving DecidableEq, Repr

/-- The part right after reset, VAON and VIN applied: every register at the value its table gives (R10), memories
listing nothing, start-up in step 0 on every die (R399), no command waiting. The part number is the DESIGN CHOICE
PZ-816E (log entry 5). -/
def State.reset : State := {}

end Sys2Proof.Machine
end

