-- ==== Sys2Proof/Machine/Regs.lean ====
section
/-!
DEFINITION. The register tables of the manual: each page's registers with offset, access code, reset value, writable
bits, the parts of wide values (R48 to R50), the registers a read captures (R49, R113) and the codes an enumerated
field accepts (R11); the pages and which of them are present (R2, R54, R56, R57).
-/
namespace Sys2Proof.Machine

/-- Access codes (R9). -/
inductive Acc | ro | rw | wo | w1c | w1s | rws
  deriving DecidableEq, Repr

/-- One row of a page's register table: first offset, how many registers it stands for and their stride, access,
reset value, writable bits, how many upper parts follow an `_L` part, whether it is an upper part itself, how many
following registers a read captures, and its enumerated fields (lowest bit, width, codes listed). -/
structure RegRow where
  off : Nat
  count : Nat
  stride : Nat
  acc : Acc
  reset : Nat
  mask : Nat
  ups : Nat
  upper : Bool
  caps : Nat
  enums : List (Nat × Nat × List Nat)
  deriving DecidableEq, Repr

/-- The block a page belongs to (R56, R57). -/
inductive Kind
  | absent
  | die | mode | timebase | tsync | eventHub | fence | inject | tally | assay | thermal | lamp | memctl | retain | hoistGlobal | chuteGlobal | mbox
  | hp | enc | ax | pd | seam | echo | burim | pcie | ctxCtrl | hoistCh | chute | secDie | guard | debug | injectLock | session
  deriving DecidableEq, Repr

/-! Offsets of the registers, by the names the manual gives them; a numbered register is its first instance. -/

namespace Off
@[simp] abbrev PAGE_ID : Nat := 0x000
@[simp] abbrev PAGE_CTRL : Nat := 0x004
@[simp] abbrev PAGE_STAT : Nat := 0x008
@[simp] abbrev COMMIT : Nat := 0x00C
@[simp] abbrev EVT_DYN : Nat := 0x010
@[simp] abbrev EVT_LAT : Nat := 0x014
@[simp] abbrev EVT_EN : Nat := 0x018
@[simp] abbrev EVT_LVL : Nat := 0x01C
@[simp] abbrev EVT_VEC : Nat := 0x020
@[simp] abbrev EVT_SET : Nat := 0x024
@[simp] abbrev ERR_INFO : Nat := 0x028
@[simp] abbrev ERR_ADDR : Nat := 0x02C
@[simp] abbrev DIE_ID : Nat := 0x040
@[simp] abbrev DIE_SN_L : Nat := 0x044
@[simp] abbrev DIE_SN_H : Nat := 0x048
@[simp] abbrev DIE_LOT : Nat := 0x04C
@[simp] abbrev DIE_SEC : Nat := 0x050
@[simp] abbrev PWR_CFG : Nat := 0x054
@[simp] abbrev PWR_ALARM_L : Nat := 0x058
@[simp] abbrev PWR_ALARM_H : Nat := 0x05C
@[simp] abbrev PWR_STAT : Nat := 0x060
@[simp] abbrev PWR_WAKES : Nat := 0x064
@[simp] abbrev MODE_REQ : Nat := 0x040
@[simp] abbrev MODE_CUR : Nat := 0x044
@[simp] abbrev MODE_STAT : Nat := 0x048
@[simp] abbrev MODE_ALLOWED : Nat := 0x04C
@[simp] abbrev MODE_LEAD : Nat := 0x050
@[simp] abbrev MODE_SW_TS_L : Nat := 0x054
@[simp] abbrev MODE_SW_TS_H : Nat := 0x058
@[simp] abbrev MODE_REFUSED : Nat := 0x05C
@[simp] abbrev TB_NOW_L : Nat := 0x040
@[simp] abbrev TB_NOW_H : Nat := 0x044
@[simp] abbrev TB_STAT : Nat := 0x048
@[simp] abbrev TB_CTRL : Nat := 0x04C
@[simp] abbrev TB_COMP : Nat := 0x050
@[simp] abbrev TB_TRIM : Nat := 0x054
@[simp] abbrev TB_XTEMP : Nat := 0x058
@[simp] abbrev DIE_SKEW : Nat := 0x05C
@[simp] abbrev SEC_L : Nat := 0x060
@[simp] abbrev SEC_H : Nat := 0x064
@[simp] abbrev SEC_EDGE_TS_L : Nat := 0x068
@[simp] abbrev SEC_EDGE_TS_H : Nat := 0x06C
@[simp] abbrev SEC_SET_L : Nat := 0x070
@[simp] abbrev SEC_SET_H : Nat := 0x074
@[simp] abbrev TS_CFG : Nat := 0x040
@[simp] abbrev TS_PERIOD : Nat := 0x044
@[simp] abbrev TS_CABLE : Nat := 0x048
@[simp] abbrev TS_GAIN : Nat := 0x04C
@[simp] abbrev TS_LIMIT : Nat := 0x050
@[simp] abbrev TS_STAT : Nat := 0x054
@[simp] abbrev TS_OFFSET : Nat := 0x058
@[simp] abbrev TS_FREQ : Nat := 0x05C
@[simp] abbrev TS_BAD : Nat := 0x060
@[simp] abbrev TS_MISSED : Nat := 0x064
@[simp] abbrev TS_STEPS : Nat := 0x068
@[simp] abbrev PAGE_SUM : Nat := 0x040
@[simp] abbrev PAGE_SUM_10 : Nat := 0x068
@[simp] abbrev DIE_SUM : Nat := 0x06C
@[simp] abbrev FN_SUM : Nat := 0x040
@[simp] abbrev FN_SUM_S : Nat := 0x06C
@[simp] abbrev FN_DIE_CTRL : Nat := 0x070
@[simp] abbrev FN_DIE_STAT : Nat := 0x074
@[simp] abbrev FN_WDOG : Nat := 0x078
@[simp] abbrev FN_LAST : Nat := 0x07C
@[simp] abbrev FN_REL_REFUSED : Nat := 0x080
@[simp] abbrev FN_CNT_FENCES : Nat := 0x084
@[simp] abbrev FN_CNT_RELEASES : Nat := 0x088
@[simp] abbrev FN_CNT_RECORDS : Nat := 0x08C
@[simp] abbrev IJ_CFG : Nat := 0x040
@[simp] abbrev IJ_EVERY : Nat := 0x044
@[simp] abbrev IJ_COUNT : Nat := 0x048
@[simp] abbrev IJ_DONE : Nat := 0x04C
@[simp] abbrev IJ_STAT : Nat := 0x050
@[simp] abbrev TL_STARTS : Nat := 0x040
@[simp] abbrev TL_STEP : Nat := 0x044
@[simp] abbrev TL_CLEAR : Nat := 0x068
@[simp] abbrev TL_STAT : Nat := 0x06C
@[simp] abbrev AS_CFG : Nat := 0x040
@[simp] abbrev AS_THRESH : Nat := 0x044
@[simp] abbrev AS_LIMIT : Nat := 0x048
@[simp] abbrev AS_MERGE : Nat := 0x04C
@[simp] abbrev AS_CMD : Nat := 0x050
@[simp] abbrev AS_CMD_STAT : Nat := 0x054
@[simp] abbrev AS_ACTIVE : Nat := 0x058
@[simp] abbrev AS_QUEUED_T : Nat := 0x05C
@[simp] abbrev AS_QUEUED_D : Nat := 0x060
@[simp] abbrev AS_QUEUED_A : Nat := 0x064
@[simp] abbrev AS_CH_SEL : Nat := 0x068
@[simp] abbrev AS_CH_STAT : Nat := 0x06C
@[simp] abbrev AS_CH_RUNS : Nat := 0x070
@[simp] abbrev AS_CH_FAILS : Nat := 0x074
@[simp] abbrev AS_CH_LAST_SEC_L : Nat := 0x078
@[simp] abbrev AS_CH_LAST_SEC_H : Nat := 0x07C
@[simp] abbrev AS_CH_LAST_TS_L : Nat := 0x080
@[simp] abbrev AS_CH_LAST_TS_H : Nat := 0x084
@[simp] abbrev AS_CH_LAST_TEMP : Nat := 0x088
@[simp] abbrev AS_CH_APPLIED : Nat := 0x08C
@[simp] abbrev AS_CH_TEMP : Nat := 0x09C
@[simp] abbrev AS_TAB_SEL : Nat := 0x0A0
@[simp] abbrev AS_TAB_CTRL : Nat := 0x0A4
@[simp] abbrev AS_TAB_W0 : Nat := 0x0A8
@[simp] abbrev AS_SAVE_STAT : Nat := 0x0BC
@[simp] abbrev AS_SAVES : Nat := 0x0C0
@[simp] abbrev TH_CFG : Nat := 0x040
@[simp] abbrev TH_DIE_WARN : Nat := 0x044
@[simp] abbrev TH_DIE_TEMP : Nat := 0x048
@[simp] abbrev TH_STAT : Nat := 0x04C
@[simp] abbrev TH_WORK_REF : Nat := 0x050
@[simp] abbrev TH_WORK_NOW : Nat := 0x054
@[simp] abbrev TH_WARN_CNT : Nat := 0x058
@[simp] abbrev TH_ENF_CNT : Nat := 0x05C
@[simp] abbrev TH_ISL : Nat := 0x060
@[simp] abbrev TH_HEAD : Nat := 0x0C0
@[simp] abbrev TH_HEAD_WARN : Nat := 0x100
@[simp] abbrev TH_HEAD_R25 : Nat := 0x140
@[simp] abbrev TH_HEAD_BETA : Nat := 0x180
@[simp] abbrev TH_HEAD_WORK : Nat := 0x1C0
@[simp] abbrev TH_HEAD_REF : Nat := 0x200
@[simp] abbrev LAMP_CFG : Nat := 0x040
@[simp] abbrev LAMP_SEL : Nat := 0x044
@[simp] abbrev LAMP_DRIFT : Nat := 0x048
@[simp] abbrev LAMP_MARGIN : Nat := 0x04C
@[simp] abbrev LAMP_TRIM : Nat := 0x050
@[simp] abbrev LAMP_CALINT : Nat := 0x054
@[simp] abbrev LAMP_FUSE : Nat := 0x058
@[simp] abbrev LAMP_WORST : Nat := 0x05C
@[simp] abbrev LAMP_TTL : Nat := 0x060
@[simp] abbrev LAMP_REPLANS : Nat := 0x064
@[simp] abbrev LAMP_CMD : Nat := 0x068
@[simp] abbrev MT_CFG : Nat := 0x040
@[simp] abbrev MT_STAT : Nat := 0x044
@[simp] abbrev MT_SWEEPS : Nat := 0x048
@[simp] abbrev ECC_CORR : Nat := 0x04C
@[simp] abbrev ECC_UNCORR : Nat := 0x050
@[simp] abbrev UNC_ADDR : Nat := 0x054
@[simp] abbrev UNC_SRC : Nat := 0x058
@[simp] abbrev UNC_TS_L : Nat := 0x05C
@[simp] abbrev UNC_TS_H : Nat := 0x060
@[simp] abbrev COLL_CNT : Nat := 0x064
@[simp] abbrev COLL_INFO : Nat := 0x068
@[simp] abbrev REP_CNT : Nat := 0x06C
@[simp] abbrev REP_USED : Nat := 0x070
@[simp] abbrev RET_ADDR : Nat := 0x040
@[simp] abbrev RET_DATA : Nat := 0x044
@[simp] abbrev RET_STAT : Nat := 0x048
@[simp] abbrev RET_WCOUNT_L : Nat := 0x04C
@[simp] abbrev RET_WCOUNT_H : Nat := 0x050
@[simp] abbrev RET_CORR : Nat := 0x054
@[simp] abbrev RET_UNCORR : Nat := 0x058
@[simp] abbrev TMR_PERIOD : Nat := 0x040
@[simp] abbrev CQ_BASE_L : Nat := 0x050
@[simp] abbrev CQ_BASE_M : Nat := 0x054
@[simp] abbrev CQ_BASE_H : Nat := 0x058
@[simp] abbrev CQ_SIZE : Nat := 0x05C
@[simp] abbrev CQ_PROD : Nat := 0x060
@[simp] abbrev CQ_CONS : Nat := 0x064
@[simp] abbrev HG_BUSY_0 : Nat := 0x0D0
@[simp] abbrev HG_BUSY_1 : Nat := 0x0D4
@[simp] abbrev HG_HALT_0 : Nat := 0x0D8
@[simp] abbrev HG_HALT_1 : Nat := 0x0DC
@[simp] abbrev CG_THRESH : Nat := 0x040
@[simp] abbrev CG_NONEMPTY : Nat := 0x04C
@[simp] abbrev CG_FULL : Nat := 0x058
@[simp] abbrev CG_HELD : Nat := 0x064
@[simp] abbrev CG_THRESH_EN : Nat := 0x070
@[simp] abbrev CG_SPILL : Nat := 0x07C
@[simp] abbrev CG_LOST_TOTAL : Nat := 0x080
@[simp] abbrev CG_POISON_TOTAL : Nat := 0x084
@[simp] abbrev CG_CORR_TOTAL : Nat := 0x088
@[simp] abbrev MB_EPOCH : Nat := 0x040
@[simp] abbrev MB_CFG : Nat := 0x044
@[simp] abbrev MB_STAT : Nat := 0x048
@[simp] abbrev CNT_REPLAY : Nat := 0x04C
@[simp] abbrev CNT_STALE : Nat := 0x050
@[simp] abbrev CNT_ACK_DISCARD : Nat := 0x054
@[simp] abbrev CNT_SLOT_BUSY : Nat := 0x058
@[simp] abbrev CNT_NOTE_LOST : Nat := 0x05C
@[simp] abbrev IN_HDR : Nat := 0x100
@[simp] abbrev IN_STAT : Nat := 0x104
@[simp] abbrev IN_ACK : Nat := 0x108
@[simp] abbrev IN_LAST : Nat := 0x10C
@[simp] abbrev IN_PROG : Nat := 0x110
@[simp] abbrev IN_ARG : Nat := 0x120
@[simp] abbrev IN_RES : Nat := 0x160
@[simp] abbrev OUT_HDR : Nat := 0x180
@[simp] abbrev OUT_STAT : Nat := 0x184
@[simp] abbrev OUT_ACK : Nat := 0x188
@[simp] abbrev OUT_ARG : Nat := 0x190
@[simp] abbrev HP_CFG : Nat := 0x040
@[simp] abbrev WF_SRC : Nat := 0x044
@[simp] abbrev WF_CTRL : Nat := 0x048
@[simp] abbrev WF_STAT : Nat := 0x04C
@[simp] abbrev WF_VALID_0 : Nat := 0x050
@[simp] abbrev WF_VALID_1 : Nat := 0x054
@[simp] abbrev WF_LOAD_ERR : Nat := 0x058
@[simp] abbrev WF_BANK_SEL : Nat := 0x05C
@[simp] abbrev WF_TEMP : Nat := 0x060
@[simp] abbrev WF_SCALE : Nat := 0x064
@[simp] abbrev WF_STRETCH : Nat := 0x068
@[simp] abbrev WF_DAC_DELAY : Nat := 0x06C
@[simp] abbrev THM_VHEAD : Nat := 0x070
@[simp] abbrev HTR_CFG : Nat := 0x074
@[simp] abbrev HTR_SET : Nat := 0x078
@[simp] abbrev HTR_GAIN : Nat := 0x07C
@[simp] abbrev HTR_LIMIT : Nat := 0x080
@[simp] abbrev HTR_DUTY : Nat := 0x084
@[simp] abbrev WF_OVERRUN : Nat := 0x088
@[simp] abbrev WF_INVALID_CNT : Nat := 0x08C
@[simp] abbrev WF_CLIP : Nat := 0x090
@[simp] abbrev THM_CLIP : Nat := 0x094
@[simp] abbrev SY_CFG : Nat := 0x100
@[simp] abbrev SY_STAT : Nat := 0x104
@[simp] abbrev SY_HEAD_ID0 : Nat := 0x108
@[simp] abbrev SY_HEAD_ID1 : Nat := 0x10C
@[simp] abbrev SY_HEAD_ID2 : Nat := 0x110
@[simp] abbrev SY_HEAD_ID3 : Nat := 0x114
@[simp] abbrev SY_HEAD_SN_L : Nat := 0x118
@[simp] abbrev SY_HEAD_SN_H : Nat := 0x11C
@[simp] abbrev SY_HEAD_STAT : Nat := 0x120
@[simp] abbrev SY_SPAN : Nat := 0x124
@[simp] abbrev CNT_TX : Nat := 0x134
@[simp] abbrev CNT_RETRY : Nat := 0x138
@[simp] abbrev CNT_GIVEUP : Nat := 0x13C
@[simp] abbrev CNT_DUP_ACK : Nat := 0x140
@[simp] abbrev CNT_REJECT : Nat := 0x144
@[simp] abbrev CNT_LATE : Nat := 0x148
@[simp] abbrev CNT_RETRAIN : Nat := 0x14C
@[simp] abbrev CNT_UP_BAD : Nat := 0x150
@[simp] abbrev CNT_ERR_DA : Nat := 0x154
@[simp] abbrev CNT_ERR_DB : Nat := 0x158
@[simp] abbrev ENC_CFG : Nat := 0x040
@[simp] abbrev IDX_CFG : Nat := 0x044
@[simp] abbrev IDX_PERIOD : Nat := 0x048
@[simp] abbrev IDX_EXP_L : Nat := 0x04C
@[simp] abbrev IDX_EXP_H : Nat := 0x050
@[simp] abbrev SPD_CFG : Nat := 0x054
@[simp] abbrev SPD_UP : Nat := 0x058
@[simp] abbrev SPD_DN : Nat := 0x05C
@[simp] abbrev EST_CFG : Nat := 0x060
@[simp] abbrev EST_ALPHA : Nat := 0x064
@[simp] abbrev EST_BETA : Nat := 0x068
@[simp] abbrev EST_GAMMA : Nat := 0x06C
@[simp] abbrev SER_CFG : Nat := 0x070
@[simp] abbrev SER_CLK : Nat := 0x074
@[simp] abbrev SER_PERIOD : Nat := 0x078
@[simp] abbrev SER_TMO : Nat := 0x07C
@[simp] abbrev SER_LAT : Nat := 0x080
@[simp] abbrev SER_JUMP : Nat := 0x084
@[simp] abbrev VIRT_CFG : Nat := 0x088
@[simp] abbrev VIRT_RATE_L : Nat := 0x08C
@[simp] abbrev VIRT_RATE_H : Nat := 0x090
@[simp] abbrev POS_SET_L : Nat := 0x094
@[simp] abbrev POS_SET_H : Nat := 0x098
@[simp] abbrev POS_CTRL : Nat := 0x09C
@[simp] abbrev LAT_CFG : Nat := 0x0A0
@[simp] abbrev LAT_TRIG : Nat := 0x0A4
@[simp] abbrev POS_L : Nat := 0x0A8
@[simp] abbrev POS_H : Nat := 0x0AC
@[simp] abbrev SPD_L : Nat := 0x0B0
@[simp] abbrev SPD_H : Nat := 0x0B4
@[simp] abbrev SPD_STAT : Nat := 0x0B8
@[simp] abbrev EST_POS_L : Nat := 0x0BC
@[simp] abbrev EST_POS_H : Nat := 0x0C0
@[simp] abbrev EST_VEL_L : Nat := 0x0C4
@[simp] abbrev EST_VEL_H : Nat := 0x0C8
@[simp] abbrev EST_ACC_L : Nat := 0x0CC
@[simp] abbrev EST_ACC_H : Nat := 0x0D0
@[simp] abbrev EST_TS_L : Nat := 0x0D4
@[simp] abbrev EST_TS_H : Nat := 0x0D8
@[simp] abbrev EST_STAT : Nat := 0x0DC
@[simp] abbrev LAT_POS_L : Nat := 0x0E0
@[simp] abbrev LAT_POS_H : Nat := 0x0E4
@[simp] abbrev LAT_TS_L : Nat := 0x0E8
@[simp] abbrev LAT_TS_H : Nat := 0x0EC
@[simp] abbrev LAT_INFO : Nat := 0x0F0
@[simp] abbrev IDX_MM_ACT_L : Nat := 0x0F4
@[simp] abbrev IDX_MM_ACT_H : Nat := 0x0F8
@[simp] abbrev IDX_MM_EXP_L : Nat := 0x0FC
@[simp] abbrev IDX_MM_EXP_H : Nat := 0x100
@[simp] abbrev IDX_MM_TS_L : Nat := 0x104
@[simp] abbrev IDX_MM_TS_H : Nat := 0x108
@[simp] abbrev SER_STAT : Nat := 0x10C
@[simp] abbrev CNT_ILLEGAL : Nat := 0x110
@[simp] abbrev CNT_INFER : Nat := 0x114
@[simp] abbrev CNT_IDX : Nat := 0x118
@[simp] abbrev CNT_IDX_SILENT : Nat := 0x11C
@[simp] abbrev CNT_IDX_MM : Nat := 0x120
@[simp] abbrev CNT_IDX_SKIP : Nat := 0x124
@[simp] abbrev CNT_SER_BAD : Nat := 0x128
@[simp] abbrev CNT_SER_STALE : Nat := 0x12C
@[simp] abbrev LAT_EST : Nat := 0x130
@[simp] abbrev AX_CFG : Nat := 0x040
@[simp] abbrev AX_PLAN : Nat := 0x044
@[simp] abbrev AX_TARGET_L : Nat := 0x048
@[simp] abbrev AX_TARGET_H : Nat := 0x04C
@[simp] abbrev AX_VMAX : Nat := 0x050
@[simp] abbrev AX_ACC : Nat := 0x054
@[simp] abbrev AX_DEC : Nat := 0x058
@[simp] abbrev AX_DEC_STOP : Nat := 0x05C
@[simp] abbrev AX_CUR : Nat := 0x060
@[simp] abbrev AX_LOOP : Nat := 0x064
@[simp] abbrev AX_MOTOR : Nat := 0x068
@[simp] abbrev AX_SUPPLY : Nat := 0x06C
@[simp] abbrev AX_OC : Nat := 0x070
@[simp] abbrev AX_SW_CFG : Nat := 0x074
@[simp] abbrev AX_HOME_CFG : Nat := 0x078
@[simp] abbrev AX_HOME_V1 : Nat := 0x07C
@[simp] abbrev AX_HOME_V2 : Nat := 0x080
@[simp] abbrev AX_HOME_BACK : Nat := 0x084
@[simp] abbrev AX_HOME_POS_L : Nat := 0x088
@[simp] abbrev AX_HOME_POS_H : Nat := 0x08C
@[simp] abbrev AX_STALL_CFG : Nat := 0x090
@[simp] abbrev AX_STALL_VMIN : Nat := 0x094
@[simp] abbrev AX_SLOW : Nat := 0x098
@[simp] abbrev AX_POS_SET_L : Nat := 0x09C
@[simp] abbrev AX_POS_SET_H : Nat := 0x0A0
@[simp] abbrev AX_CMD : Nat := 0x0A4
@[simp] abbrev AX_CMD_STAT : Nat := 0x0A8
@[simp] abbrev AX_STAT : Nat := 0x0AC
@[simp] abbrev AX_POS_L : Nat := 0x0B0
@[simp] abbrev AX_POS_H : Nat := 0x0B4
@[simp] abbrev AX_VEL : Nat := 0x0B8
@[simp] abbrev AX_REMAIN_L : Nat := 0x0BC
@[simp] abbrev AX_REMAIN_H : Nat := 0x0C0
@[simp] abbrev AX_EDGE_POS_L : Nat := 0x0C4
@[simp] abbrev AX_EDGE_POS_H : Nat := 0x0C8
@[simp] abbrev AX_EDGE_TS_L : Nat := 0x0CC
@[simp] abbrev AX_EDGE_TS_H : Nat := 0x0D0
@[simp] abbrev AX_EDGE_INFO : Nat := 0x0D4
@[simp] abbrev AX_LOAD : Nat := 0x0D8
@[simp] abbrev AX_IPH : Nat := 0x0DC
@[simp] abbrev AX_FAULT : Nat := 0x0E0
@[simp] abbrev CNT_CHATTER : Nat := 0x0E4
@[simp] abbrev CNT_STALL : Nat := 0x0E8
@[simp] abbrev CNT_STEP_IN : Nat := 0x0EC
@[simp] abbrev PD_CFG : Nat := 0x040
@[simp] abbrev PD_LOCK : Nat := 0x060
@[simp] abbrev PD_TS_L : Nat := 0x080
@[simp] abbrev PD_TS_H : Nat := 0x084
@[simp] abbrev PD_POS_L : Nat := 0x088
@[simp] abbrev PD_POS_H : Nat := 0x08C
@[simp] abbrev PD_LEVEL : Nat := 0x100
@[simp] abbrev PD_ACC : Nat := 0x104
@[simp] abbrev PD_LOCKED : Nat := 0x124
@[simp] abbrev IMG_CFG : Nat := 0x040
@[simp] abbrev SEAM_CFG : Nat := 0x044
@[simp] abbrev IMG_BAD : Nat := 0x048
@[simp] abbrev IMG_HUNT : Nat := 0x04C
@[simp] abbrev IMG_BAD_INFO : Nat := 0x050
@[simp] abbrev IMG_BAD_W0 : Nat := 0x054
@[simp] abbrev IMG_BAD_W1 : Nat := 0x058
@[simp] abbrev GEOM_BAD_INFO : Nat := 0x05C
@[simp] abbrev SEAM_INFO : Nat := 0x060
@[simp] abbrev SHARE_TX : Nat := 0x064
@[simp] abbrev SHARE_RX : Nat := 0x068
@[simp] abbrev SEAM_STALL : Nat := 0x06C
@[simp] abbrev SEAM_DROP : Nat := 0x070
@[simp] abbrev ECHO_CFG : Nat := 0x040
@[simp] abbrev ECHO_DIV : Nat := 0x044
@[simp] abbrev CLS_DRY : Nat := 0x048
@[simp] abbrev CLS_BLK : Nat := 0x04C
@[simp] abbrev CLS_BUB : Nat := 0x050
@[simp] abbrev CLS_WEAK : Nat := 0x054
@[simp] abbrev DIST_W : Nat := 0x058
@[simp] abbrev FAIL_MASK : Nat := 0x05C
@[simp] abbrev TRIM_CFG : Nat := 0x060
@[simp] abbrev NB_ADD : Nat := 0x064
@[simp] abbrev NB_ONE : Nat := 0x068
@[simp] abbrev SWEEP_CFG : Nat := 0x06C
@[simp] abbrev SWEEP_CTRL : Nat := 0x070
@[simp] abbrev SWEEP_STAT : Nat := 0x074
@[simp] abbrev SWEEP_DONE : Nat := 0x078
@[simp] abbrev SWEEP_MISS : Nat := 0x07C
@[simp] abbrev NZ_SEL : Nat := 0x080
@[simp] abbrev NZ_CMD : Nat := 0x084
@[simp] abbrev NZ_CMD_STAT : Nat := 0x088
@[simp] abbrev MEAS_CNT : Nat := 0x08C
@[simp] abbrev INVALID_CNT : Nat := 0x090
@[simp] abbrev STATE_CNT : Nat := 0x094
@[simp] abbrev TRIM_CNT : Nat := 0x098
@[simp] abbrev SUBST_DROPS : Nat := 0x09C
@[simp] abbrev LOST_DROPS : Nat := 0x0A0
@[simp] abbrev OP_DISCARD : Nat := 0x0A4
@[simp] abbrev MISSED_CNT : Nat := 0x0A8
@[simp] abbrev NT_BAD_INFO : Nat := 0x0AC
@[simp] abbrev BU_CFG : Nat := 0x040
@[simp] abbrev BU_STAT_0 : Nat := 0x044
@[simp] abbrev BU_STAT_1 : Nat := 0x048
@[simp] abbrev BU_ROUTE : Nat := 0x04C
@[simp] abbrev CNT_TX_burim : Nat := 0x060
@[simp] abbrev CNT_RX : Nat := 0x064
@[simp] abbrev CNT_CRC : Nat := 0x068
@[simp] abbrev CNT_REPLAY_burim : Nat := 0x06C
@[simp] abbrev CNT_RETRAIN_burim : Nat := 0x070
@[simp] abbrev LAT_MAX : Nat := 0x074
@[simp] abbrev PC_CFG : Nat := 0x040
@[simp] abbrev PC_STAT : Nat := 0x044
@[simp] abbrev PC_UR_OFF_L : Nat := 0x048
@[simp] abbrev PC_UR_OFF_H : Nat := 0x04C
@[simp] abbrev CNT_UR : Nat := 0x050
@[simp] abbrev CNT_CTO : Nat := 0x054
@[simp] abbrev CNT_REISSUE : Nat := 0x058
@[simp] abbrev CNT_POISON_RX : Nat := 0x05C
@[simp] abbrev CNT_POISON_TX : Nat := 0x060
@[simp] abbrev CNT_CORR : Nat := 0x064
@[simp] abbrev CNT_LINKDOWN : Nat := 0x068
@[simp] abbrev CNT_FLR : Nat := 0x06C
@[simp] abbrev CTX_CMD : Nat := 0x040
@[simp] abbrev CTX_CMD_STAT : Nat := 0x044
@[simp] abbrev ACT_SEL : Nat := 0x048
@[simp] abbrev CTX_EVT_MASK : Nat := 0x04C
@[simp] abbrev CMD_REFUSED : Nat := 0x050
@[simp] abbrev CTX_SUM : Nat := 0x080
@[simp] abbrev BIND_LEAD : Nat := 0x0C0
@[simp] abbrev ACT : Nat := 0x100
@[simp] abbrev CTX_STATE : Nat := 0x200
@[simp] abbrev CTX_COMMIT : Nat := 0x400
@[simp] abbrev CTX_EVT : Nat := 0x800
@[simp] abbrev HC_CFG : Nat := 0x040
@[simp] abbrev HC_PROG : Nat := 0x044
@[simp] abbrev HC_PROG_LEN : Nat := 0x048
@[simp] abbrev HC_TRIG : Nat := 0x04C
@[simp] abbrev HC_CTRL : Nat := 0x050
@[simp] abbrev HC_STAT : Nat := 0x054
@[simp] abbrev HC_PEND : Nat := 0x058
@[simp] abbrev HC_WDOG : Nat := 0x05C
@[simp] abbrev HC_GAP : Nat := 0x060
@[simp] abbrev HC_REMAIN : Nat := 0x064
@[simp] abbrev HC_LC_0 : Nat := 0x068
@[simp] abbrev HC_LC_1 : Nat := 0x06C
@[simp] abbrev HC_ERR : Nat := 0x070
@[simp] abbrev HC_ERR_ADDR_L : Nat := 0x074
@[simp] abbrev HC_ERR_ADDR_M : Nat := 0x078
@[simp] abbrev HC_ERR_ADDR_H : Nat := 0x07C
@[simp] abbrev CNT_RUNS : Nat := 0x080
@[simp] abbrev CNT_WORDS : Nat := 0x084
@[simp] abbrev CNT_HALTS : Nat := 0x088
@[simp] abbrev HC_A_L : Nat := 0x090
@[simp] abbrev HC_A_M : Nat := 0x094
@[simp] abbrev HC_A_H : Nat := 0x098
@[simp] abbrev CH_CFG : Nat := 0x040
@[simp] abbrev CH_SPILL_BASE : Nat := 0x044
@[simp] abbrev CH_SPILL_SIZE : Nat := 0x048
@[simp] abbrev CH_THRESH : Nat := 0x04C
@[simp] abbrev CH_FILL : Nat := 0x050
@[simp] abbrev CH_FREE : Nat := 0x054
@[simp] abbrev CH_STAT : Nat := 0x058
@[simp] abbrev CR_GRANT : Nat := 0x05C
@[simp] abbrev CR_USED : Nat := 0x060
@[simp] abbrev CR_MIRROR_L : Nat := 0x064
@[simp] abbrev CR_MIRROR_M : Nat := 0x068
@[simp] abbrev CR_MIRROR_H : Nat := 0x06C
@[simp] abbrev CR_STEP : Nat := 0x070
@[simp] abbrev CNT_CORR_chute : Nat := 0x074
@[simp] abbrev CNT_LOST : Nat := 0x078
@[simp] abbrev CNT_POISON : Nat := 0x07C
@[simp] abbrev HEAD : Nat := 0x100
@[simp] abbrev PUSH : Nat := 0x800
@[simp] abbrev POP : Nat := 0xC00
@[simp] abbrev SD_LC : Nat := 0x040
@[simp] abbrev SD_KEY_ID_L : Nat := 0x044
@[simp] abbrev SD_KEY_ID_H : Nat := 0x048
@[simp] abbrev GD_NS : Nat := 0x040
@[simp] abbrev GD_S : Nat := 0x0EC
@[simp] abbrev GD_MEM : Nat := 0x0F0
@[simp] abbrev GD_CHANGES : Nat := 0x0F4
@[simp] abbrev GD_LAST_TS_L : Nat := 0x0F8
@[simp] abbrev GD_LAST_TS_H : Nat := 0x0FC
@[simp] abbrev GD_LAST : Nat := 0x100
@[simp] abbrev GD_DENIED : Nat := 0x104
@[simp] abbrev GD_DENY_INFO : Nat := 0x108
@[simp] abbrev DBG_CTRL : Nat := 0x040
@[simp] abbrev DBG_STAT : Nat := 0x044
@[simp] abbrev DBG_OPENS : Nat := 0x048
@[simp] abbrev DBG_FAILS_CNT : Nat := 0x04C
@[simp] abbrev DBG_ACCESSES : Nat := 0x050
@[simp] abbrev IJL_CTRL : Nat := 0x040
@[simp] abbrev IJL_STAT : Nat := 0x044
@[simp] abbrev SESS_CTRL : Nat := 0x040
@[simp] abbrev SESS_STAT : Nat := 0x044
@[simp] abbrev SESS_RID : Nat := 0x048
@[simp] abbrev SESS_TMO : Nat := 0x04C
@[simp] abbrev SESS_NONCE_D : Nat := 0x050
@[simp] abbrev SESS_NONCE_H : Nat := 0x060
@[simp] abbrev SESS_RESP : Nat := 0x070
@[simp] abbrev SESS_PROOF : Nat := 0x0A0
@[simp] abbrev SESS_OPENS : Nat := 0x0CC
@[simp] abbrev SESS_FAILS : Nat := 0x0D0
end Off

/-- Registers of the hdr pages. -/
def rows_hdr : List RegRow := [
  ⟨0x000, 1, 4, .ro, 0x0, 0x0, 0, false, 0, []⟩,
  ⟨0x004, 1, 4, .rw, 0x0, 0x7, 0, false, 0, []⟩,
  ⟨0x008, 1, 4, .ro, 0x0, 0x0, 0, false, 0, []⟩,
  ⟨0x00C, 1, 4, .rw, 0x0, 0xF3, 0, false, 0, []⟩,
  ⟨0x010, 1, 4, .ro, 0x0, 0x0, 0, false, 0, []⟩,
  ⟨0x014, 1, 4, .w1c, 0x0, 0xFFFFFF, 0, false, 0, []⟩,
  ⟨0x018, 1, 4, .rw, 0x0, 0xFFFFFF, 0, false, 0, []⟩,
  ⟨0x01C, 1, 4, .rw, 0x0, 0xFFFFFF, 0, false, 0, []⟩,
  ⟨0x020, 1, 4, .rw, 0x0, 0x7F, 0, false, 0, []⟩,
  ⟨0x024, 1, 4, .wo, 0x0, 0xFFFFFF, 0, false, 0, []⟩,
  ⟨0x028, 1, 4, .w1c, 0x0, 0x800000, 0, false, 0, []⟩,
  ⟨0x02C, 1, 4, .ro, 0x0, 0x0, 0, false, 0, []⟩]

/-- Registers of the die page. -/
def rows_die : List RegRow := [
  ⟨0x040, 1, 4, .ro, 0x0, 0x0, 0, false, 0, []⟩,
  ⟨0x044, 1, 4, .ro, 0x0, 0x0, 1, false, 1, []⟩,
  ⟨0x048, 1, 4, .ro, 0x0, 0x0, 0, true, 0, []⟩,
  ⟨0x04C, 1, 4, .ro, 0x0, 0x0, 0, false, 0, []⟩,
  ⟨0x050, 1, 4, .ro, 0x0, 0x0, 0, false, 0, []⟩,
  ⟨0x054, 1, 4, .rw, 0x0, 0x1FF1, 0, false, 0, []⟩,
  ⟨0x058, 1, 4, .rw, 0x0, 0xFFFFFF, 1, false, 1, []⟩,
  ⟨0x05C, 1, 4, .rw, 0x0, 0xFFFFFF, 0, true, 0, []⟩,
  ⟨0x060, 1, 4, .ro, 0x1, 0x0, 0, false, 0, []⟩,
  ⟨0x064, 1, 4, .ro, 0x0, 0x0, 0, false, 0, []⟩]

/-- Registers of the mode page. -/
def rows_mode : List RegRow := [
  ⟨0x040, 1, 4, .rw, 0x2, 0x7, 0, false, 0, []⟩,
  ⟨0x044, 1, 4, .ro, 0x22, 0x0, 0, false, 0, []⟩,
  ⟨0x048, 1, 4, .ro, 0x0, 0x0, 0, false, 0, []⟩,
  ⟨0x04C, 1, 4, .ro, 0xFF, 0x0, 0, false, 0, []⟩,
  ⟨0x050, 1, 4, .rw, 0x9C4, 0xFFFF, 0, false, 0, []⟩,
  ⟨0x054, 1, 4, .ro, 0x0, 0x0, 1, false, 1, []⟩,
  ⟨0x058, 1, 4, .ro, 0x0, 0x0, 0, true, 0, []⟩,
  ⟨0x05C, 1, 4, .ro, 0x0, 0x0, 0, false, 0, []⟩]

/-- Registers of the timebase page. -/
def rows_timebase : List RegRow := [
  ⟨0x040, 1, 4, .ro, 0x0, 0x0, 1, false, 1, []⟩,
  ⟨0x044, 1, 4, .ro, 0x0, 0x0, 0, true, 0, []⟩,
  ⟨0x048, 1, 4, .ro, 0x20, 0x0, 0, false, 0, []⟩,
  ⟨0x04C, 1, 4, .rw, 0x1, 0x1, 0, false, 0, []⟩,
  ⟨0x050, 1, 4, .ro, 0x0, 0x0, 0, false, 0, []⟩,
  ⟨0x054, 1, 4, .rws, 0x0, 0xFFFFFF, 0, false, 0, []⟩,
  ⟨0x058, 1, 4, .ro, 0x0, 0x0, 0, false, 0, []⟩,
  ⟨0x05C, 1, 4, .ro, 0x0, 0x0, 0, false, 0, []⟩,
  ⟨0x060, 1, 4, .ro, 0x0, 0x0, 1, false, 1, []⟩,
  ⟨0x064, 1, 4, .ro, 0x0, 0x0, 0, true, 0, []⟩,
  ⟨0x068, 1, 4, .ro, 0x0, 0x0, 1, false, 1, []⟩,
  ⟨0x06C, 1, 4, .ro, 0x0, 0x0, 0, true, 0, []⟩,
  ⟨0x070, 1, 4, .rws, 0x0, 0xFFFFFF, 1, false, 1, []⟩,
  ⟨0x074, 1, 4, .rws, 0x0, 0xFFFFFF, 0, true, 0, []⟩]

/-- Registers of the tsync page. -/
def rows_tsync : List RegRow := [
  ⟨0x040, 1, 4, .rws, 0x10, 0x33, 0, false, 0, []⟩,
  ⟨0x044, 1, 4, .rws, 0x64, 0x1FFFF, 0, false, 0, []⟩,
  ⟨0x048, 1, 4, .rws, 0x0, 0xFFFFF, 0, false, 0, []⟩,
  ⟨0x04C, 1, 4, .rws, 0x1010, 0xFFFF, 0, false, 0, []⟩,
  ⟨0x050, 1, 4, .rws, 0xFA032, 0xFFFFFF, 0, false, 0, []⟩,
  ⟨0x054, 1, 4, .ro, 0x0, 0x0, 0, false, 0, []⟩,
  ⟨0x058, 1, 4, .ro, 0x0, 0x0, 0, false, 0, []⟩,
  ⟨0x05C, 1, 4, .ro, 0x0, 0x0, 0, false, 0, []⟩,
  ⟨0x060, 1, 4, .ro, 0x0, 0x0, 0, false, 0, []⟩,
  ⟨0x064, 1, 4, .ro, 0x0, 0x0, 0, false, 0, []⟩,
  ⟨0x068, 1, 4, .ro, 0x0, 0x0, 0, false, 0, []⟩]

/-- Registers of the eventHub page. -/
def rows_eventHub : List RegRow := [
  ⟨0x040, 10, 4, .ro, 0x0, 0x0, 0, false, 0, []⟩,
  ⟨0x068, 1, 4, .ro, 0x0, 0x0, 0, false, 0, []⟩,
  ⟨0x06C, 1, 4, .ro, 0x0, 0x0, 0, false, 0, []⟩]

/-- Registers of the fence page. -/
def rows_fence : List RegRow := [
  ⟨0x040, 11, 4, .ro, 0x0, 0x0, 0, false, 0, []⟩,
  ⟨0x06C, 1, 4, .ro, 0x0, 0x0, 0, false, 0, []⟩,
  ⟨0x070, 1, 4, .rw, 0x0, 0xFE, 0, false, 0, []⟩,
  ⟨0x074, 1, 4, .ro, 0x1, 0x0, 0, false, 0, []⟩,
  ⟨0x078, 1, 4, .rw, 0x18, 0xFFFF, 0, false, 0, []⟩,
  ⟨0x07C, 1, 4, .ro, 0x0, 0x0, 0, false, 0, []⟩,
  ⟨0x080, 1, 4, .ro, 0x0, 0x0, 0, false, 0, []⟩,
  ⟨0x084, 1, 4, .ro, 0x0, 0x0, 0, false, 0, []⟩,
  ⟨0x088, 1, 4, .ro, 0x0, 0x0, 0, false, 0, []⟩,
  ⟨0x08C, 1, 4, .ro, 0x0, 0x0, 0, false, 0, []⟩]

/-- Registers of the inject page. -/
def rows_inject : List RegRow := [
  ⟨0x040, 1, 4, .rw, 0x0, 0xF8FFFF, 0, false, 0, []⟩,
  ⟨0x044, 1, 4, .rw, 0x1, 0xFFFF, 0, false, 0, []⟩,
  ⟨0x048, 1, 4, .rw, 0x1, 0xFFFFFF, 0, false, 0, []⟩,
  ⟨0x04C, 1, 4, .ro, 0x0, 0x0, 0, false, 0, []⟩,
  ⟨0x050, 1, 4, .ro, 0x0, 0x0, 0, false, 0, []⟩]

/-- Registers of the tally page. -/
def rows_tally : List RegRow := [
  ⟨0x040, 1, 4, .ro, 0x0, 0x0, 0, false, 0, []⟩,
  ⟨0x044, 9, 4, .ro, 0x0, 0x0, 0, false, 0, []⟩,
  ⟨0x068, 1, 4, .w1s, 0x0, 0x1FF, 0, false, 0, []⟩,
  ⟨0x06C, 1, 4, .ro, 0x0, 0x0, 0, false, 0, []⟩]

/-- Registers of the assay page. -/
def rows_assay : List RegRow := [
  ⟨0x040, 1, 4, .rws, 0x7, 0x7, 0, false, 0, []⟩,
  ⟨0x044, 1, 4, .rws, 0x100, 0xFFFF, 0, false, 0, []⟩,
  ⟨0x048, 1, 4, .rws, 0x281E, 0xFFFF, 0, false, 0, []⟩,
  ⟨0x04C, 1, 4, .rws, 0x80, 0xFFFF, 0, false, 0, []⟩,
  ⟨0x050, 1, 4, .wo, 0x0, 0xFF0F, 0, false, 0, []⟩,
  ⟨0x054, 1, 4, .ro, 0x0, 0x0, 0, false, 0, []⟩,
  ⟨0x058, 1, 4, .ro, 0x0, 0x0, 0, false, 0, []⟩,
  ⟨0x05C, 1, 4, .ro, 0x0, 0x0, 0, false, 0, []⟩,
  ⟨0x060, 1, 4, .ro, 0x0, 0x0, 0, false, 0, []⟩,
  ⟨0x064, 1, 4, .ro, 0x0, 0x0, 0, false, 0, []⟩,
  ⟨0x068, 1, 4, .rw, 0x0, 0x3F, 0, false, 0, []⟩,
  ⟨0x06C, 1, 4, .ro, 0x0, 0x0, 0, false, 0, []⟩,
  ⟨0x070, 1, 4, .ro, 0x0, 0x0, 0, false, 0, []⟩,
  ⟨0x074, 1, 4, .ro, 0x0, 0x0, 0, false, 0, []⟩,
  ⟨0x078, 1, 4, .ro, 0x0, 0x0, 1, false, 0, []⟩,
  ⟨0x07C, 1, 4, .ro, 0x0, 0x0, 0, true, 0, []⟩,
  ⟨0x080, 1, 4, .ro, 0x0, 0x0, 1, false, 0, []⟩,
  ⟨0x084, 1, 4, .ro, 0x0, 0x0, 0, true, 0, []⟩,
  ⟨0x088, 1, 4, .ro, 0x0, 0x0, 0, false, 0, []⟩,
  ⟨0x08C, 4, 4, .ro, 0x0, 0x0, 0, false, 0, []⟩,
  ⟨0x09C, 1, 4, .ro, 0x0, 0x0, 0, false, 0, []⟩,
  ⟨0x0A0, 1, 4, .rw, 0x0, 0x73F, 0, false, 0, []⟩,
  ⟨0x0A4, 1, 4, .w1s, 0x0, 0x7, 0, false, 0, []⟩,
  ⟨0x0A8, 5, 4, .rw, 0x0, 0xFFFFFF, 0, false, 0, []⟩,
  ⟨0x0BC, 1, 4, .ro, 0x0, 0x0, 0, false, 0, []⟩,
  ⟨0x0C0, 1, 4, .ro, 0x0, 0x0, 0, false, 0, []⟩]

/-- Registers of the thermal page. -/
def rows_thermal : List RegRow := [
  ⟨0x040, 1, 4, .rws, 0x32403A, 0xFFFFFF, 0, false, 0, []⟩,
  ⟨0x044, 1, 4, .rws, 0x1900, 0xFFFF, 0, false, 0, []⟩,
  ⟨0x048, 1, 4, .ro, 0x0, 0x0, 0, false, 0, []⟩,
  ⟨0x04C, 1, 4, .ro, 0x0, 0x0, 0, false, 0, []⟩,
  ⟨0x050, 1, 4, .ro, 0x0, 0x0, 0, false, 0, []⟩,
  ⟨0x054, 1, 4, .ro, 0x0, 0x0, 0, false, 0, []⟩,
  ⟨0x058, 1, 4, .ro, 0x0, 0x0, 0, false, 0, []⟩,
  ⟨0x05C, 1, 4, .ro, 0x0, 0x0, 0, false, 0, []⟩,
  ⟨0x060, 11, 4, .ro, 0x0, 0x0, 0, false, 0, []⟩,
  ⟨0x0C0, 16, 4, .ro, 0x0, 0x0, 0, false, 0, []⟩,
  ⟨0x100, 16, 4, .rws, 0x1040, 0xFFFF, 0, false, 0, []⟩,
  ⟨0x140, 16, 4, .rws, 0x2710, 0xFFFFFF, 0, false, 0, []⟩,
  ⟨0x180, 16, 4, .rws, 0xD6B, 0xFFFFFF, 0, false, 0, []⟩,
  ⟨0x1C0, 16, 4, .ro, 0x0, 0x0, 0, false, 0, []⟩,
  ⟨0x200, 16, 4, .ro, 0x0, 0x0, 0, false, 0, []⟩]

/-- Registers of the lamp page. -/
def rows_lamp : List RegRow := [
  ⟨0x040, 1, 4, .rw, 0x12710, 0x1FFFF, 0, false, 0, []⟩,
  ⟨0x044, 1, 4, .rw, 0x0, 0xF, 0, false, 0, []⟩,
  ⟨0x048, 1, 4, .ro, 0x0, 0x0, 0, false, 4, []⟩,
  ⟨0x04C, 1, 4, .ro, 0x0, 0x0, 0, false, 0, []⟩,
  ⟨0x050, 1, 4, .ro, 0x0, 0x0, 0, false, 0, []⟩,
  ⟨0x054, 1, 4, .ro, 0x2D0, 0x0, 0, false, 0, []⟩,
  ⟨0x058, 1, 4, .ro, 0x0, 0x0, 0, false, 0, []⟩,
  ⟨0x05C, 1, 4, .ro, 0x0, 0x0, 0, false, 0, []⟩,
  ⟨0x060, 1, 4, .ro, 0xFFFF, 0x0, 0, false, 0, []⟩,
  ⟨0x064, 1, 4, .ro, 0x0, 0x0, 0, false, 0, []⟩,
  ⟨0x068, 1, 4, .w1s, 0x0, 0x3, 0, false, 0, []⟩]

/-- Registers of the memctl page. -/
def rows_memctl : List RegRow := [
  ⟨0x040, 1, 4, .rw, 0xA01, 0xFF01, 0, false, 0, []⟩,
  ⟨0x044, 1, 4, .ro, 0x0, 0x0, 0, false, 0, []⟩,
  ⟨0x048, 1, 4, .ro, 0x0, 0x0, 0, false, 0, []⟩,
  ⟨0x04C, 1, 4, .ro, 0x0, 0x0, 0, false, 0, []⟩,
  ⟨0x050, 1, 4, .ro, 0x0, 0x0, 0, false, 0, []⟩,
  ⟨0x054, 1, 4, .ro, 0x0, 0x0, 0, false, 3, []⟩,
  ⟨0x058, 1, 4, .ro, 0x0, 0x0, 0, false, 0, []⟩,
  ⟨0x05C, 1, 4, .ro, 0x0, 0x0, 1, false, 0, []⟩,
  ⟨0x060, 1, 4, .ro, 0x0, 0x0, 0, true, 0, []⟩,
  ⟨0x064, 1, 4, .ro, 0x0, 0x0, 0, false, 0, []⟩,
  ⟨0x068, 1, 4, .ro, 0x0, 0x0, 0, false, 0, []⟩,
  ⟨0x06C, 1, 4, .ro, 0x0, 0x0, 0, false, 0, []⟩,
  ⟨0x070, 5, 4, .ro, 0x0, 0x0, 0, false, 0, []⟩]

/-- Registers of the retain page. -/
def rows_retain : List RegRow := [
  ⟨0x040, 1, 4, .rw, 0x0, 0x1FFF, 0, false, 0, []⟩,
  ⟨0x044, 1, 4, .rw, 0x0, 0xFFFFFF, 0, false, 0, []⟩,
  ⟨0x048, 1, 4, .ro, 0x0, 0x0, 0, false, 0, []⟩,
  ⟨0x04C, 1, 4, .ro, 0x0, 0x0, 1, false, 1, []⟩,
  ⟨0x050, 1, 4, .ro, 0x0, 0x0, 0, true, 0, []⟩,
  ⟨0x054, 1, 4, .ro, 0x0, 0x0, 0, false, 0, []⟩,
  ⟨0x058, 1, 4, .ro, 0x0, 0x0, 0, false, 0, []⟩]

/-- Registers of the hoistGlobal page. -/
def rows_hoistGlobal : List RegRow := [
  ⟨0x040, 4, 4, .rw, 0x0, 0xFFFFFF, 0, false, 0, []⟩,
  ⟨0x050, 4, 32, .rw, 0x0, 0xFFFFFF, 2, false, 2, []⟩,
  ⟨0x054, 4, 32, .rw, 0x0, 0xFFFFFF, 0, true, 0, []⟩,
  ⟨0x058, 4, 32, .rw, 0x0, 0xFFFF, 0, true, 0, []⟩,
  ⟨0x05C, 4, 32, .rw, 0x0, 0x1F, 0, false, 0, []⟩,
  ⟨0x060, 4, 32, .ro, 0x0, 0x0, 0, false, 0, []⟩,
  ⟨0x064, 4, 32, .rw, 0x0, 0xFFFF, 0, false, 0, []⟩,
  ⟨0x0D0, 1, 4, .ro, 0x0, 0x0, 0, false, 0, []⟩,
  ⟨0x0D4, 1, 4, .ro, 0x0, 0x0, 0, false, 0, []⟩,
  ⟨0x0D8, 1, 4, .ro, 0x0, 0x0, 0, false, 0, []⟩,
  ⟨0x0DC, 1, 4, .ro, 0x0, 0x0, 0, false, 0, []⟩]

/-- Registers of the chuteGlobal page. -/
def rows_chuteGlobal : List RegRow := [
  ⟨0x040, 3, 4, .ro, 0x0, 0x0, 0, false, 0, []⟩,
  ⟨0x04C, 3, 4, .ro, 0x0, 0x0, 0, false, 0, []⟩,
  ⟨0x058, 3, 4, .ro, 0x0, 0x0, 0, false, 0, []⟩,
  ⟨0x064, 3, 4, .ro, 0x0, 0x0, 0, false, 0, []⟩,
  ⟨0x070, 2, 4, .rw, 0x0, 0xFFFFFF, 0, false, 0, []⟩,
  ⟨0x078, 1, 4, .rw, 0x0, 0xFFFF, 0, false, 0, []⟩,
  ⟨0x07C, 1, 4, .ro, 0x0, 0x0, 0, false, 0, []⟩,
  ⟨0x080, 1, 4, .ro, 0x0, 0x0, 0, false, 0, []⟩,
  ⟨0x084, 1, 4, .ro, 0x0, 0x0, 0, false, 0, []⟩,
  ⟨0x088, 1, 4, .ro, 0x0, 0x0, 0, false, 0, []⟩]

/-- Registers of the mbox page. -/
def rows_mbox1 : List RegRow := [
  ⟨0x040, 1, 4, .ro, 0x0, 0x0, 0, false, 0, []⟩,
  ⟨0x044, 1, 4, .rw, 0x64640F, 0xFFFF0F, 0, false, 0, []⟩,
  ⟨0x048, 1, 4, .ro, 0x0, 0x0, 0, false, 0, []⟩,
  ⟨0x04C, 1, 4, .ro, 0x0, 0x0, 0, false, 0, []⟩,
  ⟨0x050, 1, 4, .ro, 0x0, 0x0, 0, false, 0, []⟩,
  ⟨0x054, 1, 4, .ro, 0x0, 0x0, 0, false, 0, []⟩,
  ⟨0x058, 1, 4, .ro, 0x0, 0x0, 0, false, 0, []⟩,
  ⟨0x05C, 1, 4, .ro, 0x0, 0x0, 0, false, 0, []⟩,
  ⟨0x100, 1, 4, .rw, 0x0, 0xFFFFFF, 0, false, 0, []⟩,
  ⟨0x200, 1, 4, .rw, 0x0, 0xFFFFFF, 0, false, 0, []⟩,
  ⟨0x300, 1, 4, .rw, 0x0, 0xFFFFFF, 0, false, 0, []⟩,
  ⟨0x400, 1, 4, .rw, 0x0, 0xFFFFFF, 0, false, 0, []⟩,
  ⟨0x104, 1, 4, .ro, 0x0, 0x0, 0, false, 0, []⟩,
  ⟨0x204, 1, 4, .ro, 0x0, 0x0, 0, false, 0, []⟩,
  ⟨0x304, 1, 4, .ro, 0x0, 0x0, 0, false, 0, []⟩,
  ⟨0x404, 1, 4, .ro, 0x0, 0x0, 0, false, 0, []⟩,
  ⟨0x108, 1, 4, .ro, 0x0, 0x0, 0, false, 0, []⟩,
  ⟨0x208, 1, 4, .ro, 0x0, 0x0, 0, false, 0, []⟩,
  ⟨0x308, 1, 4, .ro, 0x0, 0x0, 0, false, 0, []⟩,
  ⟨0x408, 1, 4, .ro, 0x0, 0x0, 0, false, 0, []⟩,
  ⟨0x10C, 1, 4, .ro, 0x0, 0x0, 0, false, 0, []⟩,
  ⟨0x20C, 1, 4, .ro, 0x0, 0x0, 0, false, 0, []⟩,
  ⟨0x30C, 1, 4, .ro, 0x0, 0x0, 0, false, 0, []⟩,
  ⟨0x40C, 1, 4, .ro, 0x0, 0x0, 0, false, 0, []⟩,
  ⟨0x110, 1, 4, .ro, 0x0, 0x0, 0, false, 0, []⟩,
  ⟨0x210, 1, 4, .ro, 0x0, 0x0, 0, false, 0, []⟩,
  ⟨0x310, 1, 4, .ro, 0x0, 0x0, 0, false, 0, []⟩,
  ⟨0x410, 1, 4, .ro, 0x0, 0x0, 0, false, 0, []⟩,
  ⟨0x120, 16, 4, .rw, 0x0, 0xFFFFFF, 0, false, 0, []⟩,
  ⟨0x220, 16, 4, .rw, 0x0, 0xFFFFFF, 0, false, 0, []⟩]

def rows_mbox2 : List RegRow := [
  ⟨0x320, 16, 4, .rw, 0x0, 0xFFFFFF, 0, false, 0, []⟩,
  ⟨0x420, 16, 4, .rw, 0x0, 0xFFFFFF, 0, false, 0, []⟩,
  ⟨0x160, 8, 4, .ro, 0x0, 0x0, 0, false, 0, []⟩,
  ⟨0x260, 8, 4, .ro, 0x0, 0x0, 0, false, 0, []⟩,
  ⟨0x360, 8, 4, .ro, 0x0, 0x0, 0, false, 0, []⟩,
  ⟨0x460, 8, 4, .ro, 0x0, 0x0, 0, false, 0, []⟩,
  ⟨0x180, 1, 4, .ro, 0x0, 0x0, 0, false, 0, []⟩,
  ⟨0x280, 1, 4, .ro, 0x0, 0x0, 0, false, 0, []⟩,
  ⟨0x380, 1, 4, .ro, 0x0, 0x0, 0, false, 0, []⟩,
  ⟨0x480, 1, 4, .ro, 0x0, 0x0, 0, false, 0, []⟩,
  ⟨0x184, 1, 4, .ro, 0x0, 0x0, 0, false, 0, []⟩,
  ⟨0x284, 1, 4, .ro, 0x0, 0x0, 0, false, 0, []⟩,
  ⟨0x384, 1, 4, .ro, 0x0, 0x0, 0, false, 0, []⟩,
  ⟨0x484, 1, 4, .ro, 0x0, 0x0, 0, false, 0, []⟩,
  ⟨0x188, 1, 4, .wo, 0x0, 0xFFFF, 0, false, 0, []⟩,
  ⟨0x288, 1, 4, .wo, 0x0, 0xFFFF, 0, false, 0, []⟩,
  ⟨0x388, 1, 4, .wo, 0x0, 0xFFFF, 0, false, 0, []⟩,
  ⟨0x488, 1, 4, .wo, 0x0, 0xFFFF, 0, false, 0, []⟩,
  ⟨0x190, 16, 4, .ro, 0x0, 0x0, 0, false, 0, []⟩,
  ⟨0x290, 16, 4, .ro, 0x0, 0x0, 0, false, 0, []⟩,
  ⟨0x390, 16, 4, .ro, 0x0, 0x0, 0, false, 0, []⟩,
  ⟨0x490, 16, 4, .ro, 0x0, 0x0, 0, false, 0, []⟩]

/-- Registers of the mbox page. -/
def rows_mbox : List RegRow := rows_mbox1 ++ rows_mbox2

/-- Registers of the hp page. -/
def rows_hp1 : List RegRow := [
  ⟨0x040, 1, 4, .rw, 0x0, 0x3, 0, false, 0, [(0, 2, [0, 1, 2])]⟩,
  ⟨0x044, 1, 4, .rw, 0x4000, 0x1FFFF, 0, false, 0, []⟩,
  ⟨0x048, 1, 4, .rw, 0x0, 0x11, 0, false, 0, []⟩,
  ⟨0x04C, 1, 4, .ro, 0x0, 0x0, 0, false, 0, []⟩,
  ⟨0x050, 1, 4, .ro, 0x0, 0x0, 0, false, 0, []⟩,
  ⟨0x054, 1, 4, .ro, 0x0, 0x0, 0, false, 0, []⟩,
  ⟨0x058, 1, 4, .ro, 0x0, 0x0, 0, false, 0, []⟩,
  ⟨0x05C, 1, 4, .rws, 0x0, 0x1, 0, false, 0, []⟩,
  ⟨0x060, 1, 4, .ro, 0x0, 0x0, 0, false, 0, []⟩,
  ⟨0x064, 1, 4, .ro, 0x400000, 0x0, 0, false, 0, []⟩,
  ⟨0x068, 1, 4, .ro, 0x400000, 0x0, 0, false, 0, []⟩,
  ⟨0x06C, 1, 4, .rws, 0x0, 0xFFF, 0, false, 0, []⟩,
  ⟨0x070, 1, 4, .ro, 0x0, 0x0, 0, false, 0, []⟩,
  ⟨0x074, 1, 4, .rws, 0x640, 0x3FF1, 0, false, 0, []⟩,
  ⟨0x078, 1, 4, .rws, 0x0, 0xFFFF, 0, false, 0, []⟩,
  ⟨0x07C, 1, 4, .rws, 0x40004, 0xFFFFFF, 0, false, 0, []⟩,
  ⟨0x080, 1, 4, .rws, 0x800046, 0xFFC0FF, 0, false, 0, []⟩,
  ⟨0x084, 1, 4, .ro, 0x1000, 0x0, 0, false, 0, []⟩,
  ⟨0x088, 1, 4, .ro, 0x0, 0x0, 0, false, 0, []⟩,
  ⟨0x08C, 1, 4, .ro, 0x0, 0x0, 0, false, 0, []⟩,
  ⟨0x090, 1, 4, .ro, 0x0, 0x0, 0, false, 0, []⟩,
  ⟨0x094, 1, 4, .ro, 0x0, 0x0, 0, false, 0, []⟩,
  ⟨0x100, 1, 4, .rw, 0x7, 0x37, 0, false, 0, []⟩,
  ⟨0x104, 1, 4, .ro, 0x0, 0x0, 0, false, 0, []⟩,
  ⟨0x108, 1, 4, .ro, 0x0, 0x0, 0, false, 0, []⟩,
  ⟨0x10C, 1, 4, .ro, 0x0, 0x0, 0, false, 0, []⟩,
  ⟨0x110, 1, 4, .ro, 0x0, 0x0, 0, false, 0, []⟩,
  ⟨0x114, 1, 4, .ro, 0x0, 0x0, 0, false, 0, []⟩,
  ⟨0x118, 1, 4, .ro, 0x0, 0x0, 1, false, 1, []⟩,
  ⟨0x11C, 1, 4, .ro, 0x0, 0x0, 0, true, 0, []⟩]

def rows_hp2 : List RegRow := [
  ⟨0x120, 1, 4, .ro, 0x0, 0x0, 0, false, 0, []⟩,
  ⟨0x124, 1, 4, .rw, 0xFFF, 0xFFFFFF, 0, false, 0, []⟩,
  ⟨0x128, 3, 4, .rw, 0x0, 0xFFFFFF, 0, false, 0, []⟩,
  ⟨0x134, 1, 4, .ro, 0x0, 0x0, 0, false, 0, []⟩,
  ⟨0x138, 1, 4, .ro, 0x0, 0x0, 0, false, 0, []⟩,
  ⟨0x13C, 1, 4, .ro, 0x0, 0x0, 0, false, 0, []⟩,
  ⟨0x140, 1, 4, .ro, 0x0, 0x0, 0, false, 0, []⟩,
  ⟨0x144, 1, 4, .ro, 0x0, 0x0, 0, false, 0, []⟩,
  ⟨0x148, 1, 4, .ro, 0x0, 0x0, 0, false, 0, []⟩,
  ⟨0x14C, 1, 4, .ro, 0x0, 0x0, 0, false, 0, []⟩,
  ⟨0x150, 1, 4, .ro, 0x0, 0x0, 0, false, 0, []⟩,
  ⟨0x154, 1, 4, .ro, 0x0, 0x0, 0, false, 0, []⟩,
  ⟨0x158, 1, 4, .ro, 0x0, 0x0, 0, false, 0, []⟩]

/-- Registers of the hp page. -/
def rows_hp : List RegRow := rows_hp1 ++ rows_hp2

/-- Registers of the enc page. -/
def rows_enc1 : List RegRow := [
  ⟨0x040, 1, 4, .rws, 0x4000, 0xF13F, 0, false, 0, []⟩,
  ⟨0x044, 1, 4, .rws, 0x400, 0xFFFF9F, 0, false, 0, [(0, 2, [0, 1, 2])]⟩,
  ⟨0x048, 1, 4, .rws, 0x0, 0xFFFFFF, 0, false, 0, []⟩,
  ⟨0x04C, 1, 4, .rws, 0x0, 0xFFFFFF, 1, false, 1, []⟩,
  ⟨0x050, 1, 4, .rws, 0x0, 0xFFFFFF, 0, true, 0, []⟩,
  ⟨0x054, 1, 4, .rws, 0x20C, 0x37F, 0, false, 0, [(5, 2, [0, 1, 2])]⟩,
  ⟨0x058, 1, 4, .rws, 0x100, 0xFFFFFF, 0, false, 0, []⟩,
  ⟨0x05C, 1, 4, .rws, 0x80, 0xFFFFFF, 0, false, 0, []⟩,
  ⟨0x060, 1, 4, .rws, 0x402006, 0xFFFF0F, 0, false, 0, []⟩,
  ⟨0x064, 1, 4, .rws, 0x400000, 0xFFFFFF, 0, false, 0, []⟩,
  ⟨0x068, 1, 4, .rws, 0x60000, 0xFFFFFF, 0, false, 0, []⟩,
  ⟨0x06C, 1, 4, .rws, 0x4000, 0xFFFFFF, 0, false, 0, []⟩,
  ⟨0x070, 1, 4, .rws, 0x18, 0xFF, 0, false, 0, []⟩,
  ⟨0x074, 1, 4, .rws, 0x7D, 0x7FF, 0, false, 0, []⟩,
  ⟨0x078, 1, 4, .rws, 0x61A8, 0xFFFFFF, 0, false, 0, []⟩,
  ⟨0x07C, 1, 4, .rws, 0x140810, 0xFFFFFF, 0, false, 0, []⟩,
  ⟨0x080, 1, 4, .rws, 0x0, 0xFFFFFF, 0, false, 0, []⟩,
  ⟨0x084, 1, 4, .rws, 0x100000, 0xFFFFFF, 0, false, 0, []⟩,
  ⟨0x088, 1, 4, .rws, 0x0, 0x7703, 0, false, 0, []⟩,
  ⟨0x08C, 1, 4, .rws, 0x0, 0xFFFFFF, 1, false, 1, []⟩,
  ⟨0x090, 1, 4, .rws, 0x0, 0xFFFFFF, 0, true, 0, []⟩,
  ⟨0x094, 1, 4, .rws, 0x0, 0xFFFFFF, 1, false, 1, []⟩,
  ⟨0x098, 1, 4, .rws, 0x0, 0xFFFFFF, 0, true, 0, []⟩,
  ⟨0x09C, 1, 4, .rws, 0x0, 0x1, 0, false, 0, []⟩,
  ⟨0x0A0, 1, 4, .rws, 0x4000, 0xFFFF, 0, false, 0, []⟩,
  ⟨0x0A4, 1, 4, .w1s, 0x0, 0x1, 0, false, 0, []⟩,
  ⟨0x0A8, 1, 4, .ro, 0x0, 0x0, 1, false, 1, []⟩,
  ⟨0x0AC, 1, 4, .ro, 0x0, 0x0, 0, true, 0, []⟩,
  ⟨0x0B0, 1, 4, .ro, 0x0, 0x0, 1, false, 1, []⟩,
  ⟨0x0B4, 1, 4, .ro, 0x0, 0x0, 0, true, 0, []⟩]

def rows_enc2 : List RegRow := [
  ⟨0x0B8, 1, 4, .ro, 0x0, 0x0, 0, false, 0, []⟩,
  ⟨0x0BC, 1, 4, .ro, 0x0, 0x0, 1, false, 8, []⟩,
  ⟨0x0C0, 1, 4, .ro, 0x0, 0x0, 0, true, 0, []⟩,
  ⟨0x0C4, 1, 4, .ro, 0x0, 0x0, 1, false, 0, []⟩,
  ⟨0x0C8, 1, 4, .ro, 0x0, 0x0, 0, true, 0, []⟩,
  ⟨0x0CC, 1, 4, .ro, 0x0, 0x0, 1, false, 0, []⟩,
  ⟨0x0D0, 1, 4, .ro, 0x0, 0x0, 0, true, 0, []⟩,
  ⟨0x0D4, 1, 4, .ro, 0x0, 0x0, 1, false, 0, []⟩,
  ⟨0x0D8, 1, 4, .ro, 0x0, 0x0, 0, true, 0, []⟩,
  ⟨0x0DC, 1, 4, .ro, 0x0, 0x0, 0, false, 0, []⟩,
  ⟨0x0E0, 1, 4, .ro, 0x0, 0x0, 1, false, 4, []⟩,
  ⟨0x0E4, 1, 4, .ro, 0x0, 0x0, 0, true, 0, []⟩,
  ⟨0x0E8, 1, 4, .ro, 0x0, 0x0, 1, false, 0, []⟩,
  ⟨0x0EC, 1, 4, .ro, 0x0, 0x0, 0, true, 0, []⟩,
  ⟨0x0F0, 1, 4, .ro, 0x0, 0x0, 0, false, 0, []⟩,
  ⟨0x0F4, 1, 4, .ro, 0x0, 0x0, 1, false, 5, []⟩,
  ⟨0x0F8, 1, 4, .ro, 0x0, 0x0, 0, true, 0, []⟩,
  ⟨0x0FC, 1, 4, .ro, 0x0, 0x0, 1, false, 0, []⟩,
  ⟨0x100, 1, 4, .ro, 0x0, 0x0, 0, true, 0, []⟩,
  ⟨0x104, 1, 4, .ro, 0x0, 0x0, 1, false, 0, []⟩,
  ⟨0x108, 1, 4, .ro, 0x0, 0x0, 0, true, 0, []⟩,
  ⟨0x10C, 1, 4, .ro, 0x0, 0x0, 0, false, 0, []⟩,
  ⟨0x110, 1, 4, .ro, 0x0, 0x0, 0, false, 0, []⟩,
  ⟨0x114, 1, 4, .ro, 0x0, 0x0, 0, false, 0, []⟩,
  ⟨0x118, 1, 4, .ro, 0x0, 0x0, 0, false, 0, []⟩,
  ⟨0x11C, 1, 4, .ro, 0x0, 0x0, 0, false, 0, []⟩,
  ⟨0x120, 1, 4, .ro, 0x0, 0x0, 0, false, 0, []⟩,
  ⟨0x124, 1, 4, .ro, 0x0, 0x0, 0, false, 0, []⟩,
  ⟨0x128, 1, 4, .ro, 0x0, 0x0, 0, false, 0, []⟩,
  ⟨0x12C, 1, 4, .ro, 0x0, 0x0, 0, false, 0, []⟩]

def rows_enc3 : List RegRow := [
  ⟨0x130, 1, 4, .ro, 0x0, 0x0, 0, false, 0, []⟩]

/-- Registers of the enc page. -/
def rows_enc : List RegRow := rows_enc1 ++ rows_enc2 ++ rows_enc3

/-- Registers of the ax page. -/
def rows_ax1 : List RegRow := [
  ⟨0x040, 1, 4, .rw, 0xC408, 0xFF0F, 0, false, 0, [(12, 2, [0, 1])]⟩,
  ⟨0x044, 1, 4, .rws, 0x6400, 0xFF7B, 0, false, 0, []⟩,
  ⟨0x048, 1, 4, .rws, 0x0, 0xFFFFFF, 1, false, 1, []⟩,
  ⟨0x04C, 1, 4, .rws, 0x0, 0xFFFFFF, 0, true, 0, []⟩,
  ⟨0x050, 1, 4, .rws, 0x0, 0xFFFFFF, 0, false, 0, []⟩,
  ⟨0x054, 1, 4, .rws, 0x0, 0xFFFFFF, 0, false, 0, []⟩,
  ⟨0x058, 1, 4, .rws, 0x0, 0xFFFFFF, 0, false, 0, []⟩,
  ⟨0x05C, 1, 4, .rws, 0x0, 0xFFFFFF, 0, false, 0, []⟩,
  ⟨0x060, 1, 4, .rws, 0x0, 0xFFFFFF, 0, false, 0, []⟩,
  ⟨0x064, 1, 4, .rws, 0x40004, 0xFFFFFF, 0, false, 0, []⟩,
  ⟨0x068, 1, 4, .rws, 0x0, 0xFFFFFF, 0, false, 0, []⟩,
  ⟨0x06C, 1, 4, .rws, 0x0, 0xFFFFFF, 0, false, 0, []⟩,
  ⟨0x070, 1, 4, .rws, 0xFA0, 0xFFF, 0, false, 0, []⟩,
  ⟨0x074, 1, 4, .rws, 0x303E8, 0x1FFFFF, 0, false, 0, []⟩,
  ⟨0x078, 1, 4, .rws, 0x1010, 0xFF1B, 0, false, 0, [(0, 2, [0, 1, 2])]⟩,
  ⟨0x07C, 1, 4, .rws, 0x0, 0xFFFFFF, 0, false, 0, []⟩,
  ⟨0x080, 1, 4, .rws, 0x0, 0xFFFFFF, 0, false, 0, []⟩,
  ⟨0x084, 1, 4, .rws, 0x0, 0xFFFFFF, 0, false, 0, []⟩,
  ⟨0x088, 1, 4, .rws, 0x0, 0xFFFFFF, 1, false, 1, []⟩,
  ⟨0x08C, 1, 4, .rws, 0x0, 0xFFFFFF, 0, true, 0, []⟩,
  ⟨0x090, 1, 4, .rws, 0x80355, 0xFF0FFF, 0, false, 0, []⟩,
  ⟨0x094, 1, 4, .rws, 0x0, 0xFFFFFF, 0, false, 0, []⟩,
  ⟨0x098, 1, 4, .rws, 0x80, 0xFF, 0, false, 0, []⟩,
  ⟨0x09C, 1, 4, .rws, 0x0, 0xFFFFFF, 1, false, 1, []⟩,
  ⟨0x0A0, 1, 4, .rws, 0x0, 0xFFFFFF, 0, true, 0, []⟩,
  ⟨0x0A4, 1, 4, .wo, 0x0, 0xF, 0, false, 0, []⟩,
  ⟨0x0A8, 1, 4, .ro, 0x0, 0x0, 0, false, 0, []⟩,
  ⟨0x0AC, 1, 4, .ro, 0x0, 0x0, 0, false, 0, []⟩,
  ⟨0x0B0, 1, 4, .ro, 0x0, 0x0, 1, false, 1, []⟩,
  ⟨0x0B4, 1, 4, .ro, 0x0, 0x0, 0, true, 0, []⟩]

def rows_ax2 : List RegRow := [
  ⟨0x0B8, 1, 4, .ro, 0x0, 0x0, 0, false, 0, []⟩,
  ⟨0x0BC, 1, 4, .ro, 0x0, 0x0, 1, false, 1, []⟩,
  ⟨0x0C0, 1, 4, .ro, 0x0, 0x0, 0, true, 0, []⟩,
  ⟨0x0C4, 1, 4, .ro, 0x0, 0x0, 1, false, 4, []⟩,
  ⟨0x0C8, 1, 4, .ro, 0x0, 0x0, 0, true, 0, []⟩,
  ⟨0x0CC, 1, 4, .ro, 0x0, 0x0, 1, false, 0, []⟩,
  ⟨0x0D0, 1, 4, .ro, 0x0, 0x0, 0, true, 0, []⟩,
  ⟨0x0D4, 1, 4, .ro, 0x0, 0x0, 0, false, 0, []⟩,
  ⟨0x0D8, 1, 4, .ro, 0x0, 0x0, 0, false, 0, []⟩,
  ⟨0x0DC, 1, 4, .ro, 0x0, 0x0, 0, false, 0, []⟩,
  ⟨0x0E0, 1, 4, .ro, 0x0, 0x0, 0, false, 0, []⟩,
  ⟨0x0E4, 1, 4, .ro, 0x0, 0x0, 0, false, 0, []⟩,
  ⟨0x0E8, 1, 4, .ro, 0x0, 0x0, 0, false, 0, []⟩,
  ⟨0x0EC, 1, 4, .ro, 0x0, 0x0, 0, false, 0, []⟩]

/-- Registers of the ax page. -/
def rows_ax : List RegRow := rows_ax1 ++ rows_ax2

/-- Registers of the pd page. -/
def rows_pd : List RegRow := [
  ⟨0x040, 8, 4, .rws, 0x0, 0x7FFFF, 0, false, 0, [(1, 2, [0, 1, 2])]⟩,
  ⟨0x060, 8, 4, .rws, 0x0, 0xFFFFFF, 0, false, 0, []⟩,
  ⟨0x080, 8, 16, .ro, 0x0, 0x0, 1, false, 3, []⟩,
  ⟨0x084, 8, 16, .ro, 0x0, 0x0, 0, true, 0, []⟩,
  ⟨0x088, 8, 16, .ro, 0x0, 0x0, 1, false, 0, []⟩,
  ⟨0x08C, 8, 16, .ro, 0x0, 0x0, 0, true, 0, []⟩,
  ⟨0x100, 1, 4, .ro, 0x0, 0x0, 0, false, 0, []⟩,
  ⟨0x104, 8, 4, .ro, 0x0, 0x0, 0, false, 0, []⟩,
  ⟨0x124, 8, 4, .ro, 0x0, 0x0, 0, false, 0, []⟩]

/-- Registers of the seam page. -/
def rows_seam : List RegRow := [
  ⟨0x040, 1, 4, .rws, 0x0, 0x1, 0, false, 0, []⟩,
  ⟨0x044, 1, 4, .rws, 0x3, 0x3, 0, false, 0, []⟩,
  ⟨0x048, 1, 4, .ro, 0x0, 0x0, 0, false, 0, []⟩,
  ⟨0x04C, 1, 4, .ro, 0x0, 0x0, 0, false, 0, []⟩,
  ⟨0x050, 1, 4, .ro, 0x0, 0x0, 0, false, 2, []⟩,
  ⟨0x054, 1, 4, .ro, 0x0, 0x0, 0, false, 0, []⟩,
  ⟨0x058, 1, 4, .ro, 0x0, 0x0, 0, false, 0, []⟩,
  ⟨0x05C, 1, 4, .ro, 0x0, 0x0, 0, false, 0, []⟩,
  ⟨0x060, 1, 4, .ro, 0x0, 0x0, 0, false, 0, []⟩,
  ⟨0x064, 1, 4, .ro, 0x0, 0x0, 0, false, 0, []⟩,
  ⟨0x068, 1, 4, .ro, 0x0, 0x0, 0, false, 0, []⟩,
  ⟨0x06C, 1, 4, .ro, 0x0, 0x0, 0, false, 0, []⟩,
  ⟨0x070, 1, 4, .ro, 0x0, 0x0, 0, false, 0, []⟩]

/-- Registers of the echo page. -/
def rows_echo : List RegRow := [
  ⟨0x040, 1, 4, .rws, 0xFF2014, 0xFFF33F, 0, false, 0, [(4, 2, [0, 1, 2])]⟩,
  ⟨0x044, 1, 4, .ro, 0x0, 0x0, 0, false, 0, []⟩,
  ⟨0x048, 1, 4, .rws, 0x20, 0xFF, 0, false, 0, []⟩,
  ⟨0x04C, 1, 4, .rws, 0x19A333, 0xFFFFFF, 0, false, 0, []⟩,
  ⟨0x050, 1, 4, .rws, 0x1484CD, 0xFFFFFF, 0, false, 0, []⟩,
  ⟨0x054, 1, 4, .rws, 0x190064, 0xFFFFFF, 0, false, 0, []⟩,
  ⟨0x058, 1, 4, .rws, 0x8442, 0xFFFF, 0, false, 0, []⟩,
  ⟨0x05C, 1, 4, .rws, 0x78, 0xFF, 0, false, 0, []⟩,
  ⟨0x060, 1, 4, .rws, 0x52440, 0xFFFFF0, 0, false, 0, []⟩,
  ⟨0x064, 1, 4, .rws, 0xDA449, 0x1FFFFF, 0, false, 0, []⟩,
  ⟨0x068, 1, 4, .rws, 0x1AC691, 0x1FFFFF, 0, false, 0, []⟩,
  ⟨0x06C, 1, 4, .rw, 0x3001, 0xFFF003, 0, false, 0, [(0, 2, [1, 2])]⟩,
  ⟨0x070, 1, 4, .w1s, 0x0, 0x3, 0, false, 0, []⟩,
  ⟨0x074, 1, 4, .ro, 0x0, 0x0, 0, false, 0, []⟩,
  ⟨0x078, 1, 4, .ro, 0x0, 0x0, 0, false, 0, []⟩,
  ⟨0x07C, 1, 4, .ro, 0x0, 0x0, 0, false, 0, []⟩,
  ⟨0x080, 1, 4, .rw, 0x0, 0xFF0FFF, 0, false, 0, []⟩,
  ⟨0x084, 1, 4, .wo, 0x0, 0xFF, 0, false, 0, []⟩,
  ⟨0x088, 1, 4, .ro, 0x0, 0x0, 0, false, 0, []⟩,
  ⟨0x08C, 1, 4, .ro, 0x0, 0x0, 0, false, 0, []⟩,
  ⟨0x090, 1, 4, .ro, 0x0, 0x0, 0, false, 0, []⟩,
  ⟨0x094, 1, 4, .ro, 0x0, 0x0, 0, false, 0, []⟩,
  ⟨0x098, 1, 4, .ro, 0x0, 0x0, 0, false, 0, []⟩,
  ⟨0x09C, 1, 4, .ro, 0x0, 0x0, 0, false, 0, []⟩,
  ⟨0x0A0, 1, 4, .ro, 0x0, 0x0, 0, false, 0, []⟩,
  ⟨0x0A4, 1, 4, .ro, 0x0, 0x0, 0, false, 0, []⟩,
  ⟨0x0A8, 1, 4, .ro, 0x0, 0x0, 0, false, 0, []⟩,
  ⟨0x0AC, 1, 4, .ro, 0x0, 0x0, 0, false, 0, []⟩]

/-- Registers of the burim page. -/
def rows_burim : List RegRow := [
  ⟨0x040, 1, 4, .rw, 0x1000, 0xFF00, 0, false, 0, []⟩,
  ⟨0x044, 1, 4, .ro, 0x0, 0x0, 0, false, 0, []⟩,
  ⟨0x048, 1, 4, .ro, 0x0, 0x0, 0, false, 0, []⟩,
  ⟨0x04C, 1, 4, .ro, 0x0, 0x0, 0, false, 0, []⟩,
  ⟨0x060, 2, 32, .ro, 0x0, 0x0, 0, false, 0, []⟩,
  ⟨0x064, 2, 32, .ro, 0x0, 0x0, 0, false, 0, []⟩,
  ⟨0x068, 2, 32, .ro, 0x0, 0x0, 0, false, 0, []⟩,
  ⟨0x06C, 2, 32, .ro, 0x0, 0x0, 0, false, 0, []⟩,
  ⟨0x070, 2, 32, .ro, 0x0, 0x0, 0, false, 0, []⟩,
  ⟨0x074, 2, 32, .ro, 0x0, 0x0, 0, false, 0, []⟩]

/-- Registers of the pcie page. -/
def rows_pcie : List RegRow := [
  ⟨0x040, 1, 4, .rw, 0x1, 0x3, 0, false, 0, []⟩,
  ⟨0x044, 1, 4, .ro, 0x0, 0x0, 0, false, 0, []⟩,
  ⟨0x048, 1, 4, .ro, 0x0, 0x0, 1, false, 1, []⟩,
  ⟨0x04C, 1, 4, .ro, 0x0, 0x0, 0, true, 0, []⟩,
  ⟨0x050, 1, 4, .ro, 0x0, 0x0, 0, false, 0, []⟩,
  ⟨0x054, 1, 4, .ro, 0x0, 0x0, 0, false, 0, []⟩,
  ⟨0x058, 1, 4, .ro, 0x0, 0x0, 0, false, 0, []⟩,
  ⟨0x05C, 1, 4, .ro, 0x0, 0x0, 0, false, 0, []⟩,
  ⟨0x060, 1, 4, .ro, 0x0, 0x0, 0, false, 0, []⟩,
  ⟨0x064, 1, 4, .ro, 0x0, 0x0, 0, false, 0, []⟩,
  ⟨0x068, 1, 4, .ro, 0x0, 0x0, 0, false, 0, []⟩,
  ⟨0x06C, 1, 4, .ro, 0x0, 0x0, 0, false, 0, []⟩]

/-- Registers of the ctxCtrl page. -/
def rows_ctxCtrl : List RegRow := [
  ⟨0x040, 1, 4, .wo, 0x0, 0xFFF, 0, false, 0, []⟩,
  ⟨0x044, 1, 4, .ro, 0x0, 0x0, 0, false, 0, []⟩,
  ⟨0x048, 1, 4, .rw, 0x0, 0xFF, 0, false, 0, []⟩,
  ⟨0x04C, 1, 4, .rw, 0x3FFFF, 0x3FFFF, 0, false, 0, []⟩,
  ⟨0x050, 1, 4, .ro, 0x0, 0x0, 0, false, 0, []⟩,
  ⟨0x080, 11, 4, .ro, 0x0, 0x0, 0, false, 0, []⟩,
  ⟨0x0C0, 16, 4, .ro, 0x0, 0x0, 0, false, 0, []⟩,
  ⟨0x100, 56, 4, .ro, 0x0, 0x0, 0, false, 0, []⟩,
  ⟨0x200, 32, 4, .ro, 0x0, 0x0, 0, false, 0, []⟩,
  ⟨0x400, 256, 4, .rw, 0x20, 0x73, 0, false, 0, []⟩,
  ⟨0x800, 256, 4, .w1c, 0x0, 0x3FFFF, 0, false, 0, []⟩]

/-- Registers of the hoistCh page. -/
def rows_hoistCh : List RegRow := [
  ⟨0x040, 1, 4, .rw, 0x0, 0x7, 0, false, 0, []⟩,
  ⟨0x044, 1, 4, .rw, 0x4000, 0x1FFFF, 0, false, 0, []⟩,
  ⟨0x048, 1, 4, .rw, 0x0, 0x1FFFF, 0, false, 0, []⟩,
  ⟨0x04C, 1, 4, .rw, 0x0, 0xF01FFF, 0, false, 0, [(21, 3, [0, 1, 2, 3, 4])]⟩,
  ⟨0x050, 1, 4, .rw, 0x0, 0x1F, 0, false, 0, []⟩,
  ⟨0x054, 1, 4, .ro, 0x0, 0x0, 0, false, 0, []⟩,
  ⟨0x058, 1, 4, .ro, 0x0, 0x0, 0, false, 0, []⟩,
  ⟨0x05C, 1, 4, .rw, 0x0, 0xFFFF, 0, false, 0, []⟩,
  ⟨0x060, 1, 4, .rw, 0x0, 0xFFFF, 0, false, 0, []⟩,
  ⟨0x064, 1, 4, .ro, 0x0, 0x0, 0, false, 0, []⟩,
  ⟨0x068, 1, 4, .ro, 0x0, 0x0, 0, false, 0, []⟩,
  ⟨0x06C, 1, 4, .ro, 0x0, 0x0, 0, false, 0, []⟩,
  ⟨0x070, 1, 4, .ro, 0x0, 0x0, 0, false, 0, []⟩,
  ⟨0x074, 1, 4, .ro, 0x0, 0x0, 2, false, 2, []⟩,
  ⟨0x078, 1, 4, .ro, 0x0, 0x0, 0, true, 0, []⟩,
  ⟨0x07C, 1, 4, .ro, 0x0, 0x0, 0, true, 0, []⟩,
  ⟨0x080, 1, 4, .ro, 0x0, 0x0, 0, false, 0, []⟩,
  ⟨0x084, 1, 4, .ro, 0x0, 0x0, 0, false, 0, []⟩,
  ⟨0x088, 1, 4, .ro, 0x0, 0x0, 0, false, 0, []⟩,
  ⟨0x090, 4, 16, .rw, 0x0, 0xFFFFFF, 2, false, 2, []⟩,
  ⟨0x094, 4, 16, .rw, 0x0, 0xFFFFFF, 0, true, 0, []⟩,
  ⟨0x098, 4, 16, .rw, 0x0, 0x1FFFF, 0, true, 0, []⟩]

/-- Registers of the chute page. -/
def rows_chute : List RegRow := [
  ⟨0x040, 1, 4, .rw, 0x1, 0x1, 0, false, 0, []⟩,
  ⟨0x044, 1, 4, .rw, 0x0, 0x1FFFFF, 0, false, 0, []⟩,
  ⟨0x048, 1, 4, .rw, 0x0, 0x1FFFFF, 0, false, 0, []⟩,
  ⟨0x04C, 1, 4, .rw, 0x0, 0xFFFFFF, 0, false, 0, []⟩,
  ⟨0x050, 1, 4, .ro, 0x0, 0x0, 0, false, 0, []⟩,
  ⟨0x054, 1, 4, .ro, 0x0, 0x0, 0, false, 0, []⟩,
  ⟨0x058, 1, 4, .ro, 0x1, 0x0, 0, false, 0, []⟩,
  ⟨0x05C, 1, 4, .ro, 0x0, 0x0, 0, false, 0, []⟩,
  ⟨0x060, 1, 4, .ro, 0x0, 0x0, 0, false, 0, []⟩,
  ⟨0x064, 1, 4, .rw, 0x0, 0xFFFFFF, 2, false, 2, []⟩,
  ⟨0x068, 1, 4, .rw, 0x0, 0xFFFFFF, 0, true, 0, []⟩,
  ⟨0x06C, 1, 4, .rw, 0x0, 0xFFFF, 0, true, 0, []⟩,
  ⟨0x070, 1, 4, .rw, 0x0, 0xFFFF, 0, false, 0, []⟩,
  ⟨0x074, 1, 4, .ro, 0x0, 0x0, 0, false, 0, []⟩,
  ⟨0x078, 1, 4, .ro, 0x0, 0x0, 0, false, 0, []⟩,
  ⟨0x07C, 1, 4, .ro, 0x0, 0x0, 0, false, 0, []⟩,
  ⟨0x100, 16, 4, .ro, 0x0, 0x0, 0, false, 0, []⟩,
  ⟨0x800, 256, 4, .wo, 0x0, 0xFFFFFF, 0, false, 0, []⟩,
  ⟨0xC00, 256, 4, .ro, 0x0, 0x0, 0, false, 0, []⟩]

/-- Registers of the secDie page. -/
def rows_secDie : List RegRow := [
  ⟨0x040, 1, 4, .ro, 0x0, 0x0, 0, false, 0, []⟩,
  ⟨0x044, 1, 4, .ro, 0x0, 0x0, 1, false, 1, []⟩,
  ⟨0x048, 1, 4, .ro, 0x0, 0x0, 0, true, 0, []⟩]

/-- Registers of the guard page. -/
def rows_guard : List RegRow := [
  ⟨0x040, 42, 4, .rw, 0xFFFFFF, 0xFFFFFF, 0, false, 0, []⟩,
  ⟨0x0E8, 1, 4, .rw, 0xFFFF, 0xFFFF, 0, false, 0, []⟩,
  ⟨0x0EC, 1, 4, .rw, 0xCCCCCC, 0xCCC0C, 0, false, 0, []⟩,
  ⟨0x0F0, 1, 4, .rw, 0xFF, 0xFF, 0, false, 0, []⟩,
  ⟨0x0F4, 1, 4, .ro, 0x0, 0x0, 0, false, 0, []⟩,
  ⟨0x0F8, 1, 4, .ro, 0x0, 0x0, 1, false, 2, []⟩,
  ⟨0x0FC, 1, 4, .ro, 0x0, 0x0, 0, true, 0, []⟩,
  ⟨0x100, 1, 4, .ro, 0x0, 0x0, 0, false, 0, []⟩,
  ⟨0x104, 1, 4, .ro, 0x0, 0x0, 0, false, 0, []⟩,
  ⟨0x108, 1, 4, .ro, 0x0, 0x0, 0, false, 0, []⟩]

/-- Registers of the debug page. -/
def rows_debug : List RegRow := [
  ⟨0x040, 1, 4, .w1s, 0x0, 0x1, 0, false, 0, []⟩,
  ⟨0x044, 1, 4, .ro, 0x0, 0x0, 0, false, 0, []⟩,
  ⟨0x048, 1, 4, .ro, 0x0, 0x0, 0, false, 0, []⟩,
  ⟨0x04C, 1, 4, .ro, 0x0, 0x0, 0, false, 0, []⟩,
  ⟨0x050, 1, 4, .ro, 0x0, 0x0, 0, false, 0, []⟩]

/-- Registers of the injectLock page. -/
def rows_injectLock : List RegRow := [
  ⟨0x040, 1, 4, .rw, 0x0, 0x1, 0, false, 0, []⟩,
  ⟨0x044, 1, 4, .ro, 0x0, 0x0, 0, false, 0, []⟩]

/-- Registers of the session page. -/
def rows_session : List RegRow := [
  ⟨0x040, 1, 4, .rw, 0x0, 0x7, 0, false, 0, []⟩,
  ⟨0x044, 1, 4, .ro, 0x0, 0x0, 0, false, 0, []⟩,
  ⟨0x048, 1, 4, .ro, 0x0, 0x0, 0, false, 0, []⟩,
  ⟨0x04C, 1, 4, .rw, 0x258, 0xFFFF, 0, false, 0, []⟩,
  ⟨0x050, 4, 4, .ro, 0x0, 0x0, 0, false, 0, []⟩,
  ⟨0x060, 4, 4, .rw, 0x0, 0xFFFFFF, 0, false, 0, []⟩,
  ⟨0x070, 11, 4, .wo, 0x0, 0xFFFFFF, 0, false, 0, []⟩,
  ⟨0x0A0, 11, 4, .ro, 0x0, 0x0, 0, false, 0, []⟩,
  ⟨0x0CC, 1, 4, .ro, 0x0, 0x0, 0, false, 0, []⟩,
  ⟨0x0D0, 1, 4, .ro, 0x0, 0x0, 0, false, 0, []⟩]

/-- The block registers of a kind of page. -/
def Kind.rows : Kind → List RegRow
  | .absent => []
  | .die => rows_die
  | .mode => rows_mode
  | .timebase => rows_timebase
  | .tsync => rows_tsync
  | .eventHub => rows_eventHub
  | .fence => rows_fence
  | .inject => rows_inject
  | .tally => rows_tally
  | .assay => rows_assay
  | .thermal => rows_thermal
  | .lamp => rows_lamp
  | .memctl => rows_memctl
  | .retain => rows_retain
  | .hoistGlobal => rows_hoistGlobal
  | .chuteGlobal => rows_chuteGlobal
  | .mbox => rows_mbox
  | .hp => rows_hp
  | .enc => rows_enc
  | .ax => rows_ax
  | .pd => rows_pd
  | .seam => rows_seam
  | .echo => rows_echo
  | .burim => rows_burim
  | .pcie => rows_pcie
  | .ctxCtrl => rows_ctxCtrl
  | .hoistCh => rows_hoistCh
  | .chute => rows_chute
  | .secDie => rows_secDie
  | .guard => rows_guard
  | .debug => rows_debug
  | .injectLock => rows_injectLock
  | .session => rows_session

/-- The block of a non-secure page number (R56). -/
def nsKind (n : Nat) : Kind :=
  if 0x60 ≤ n ∧ n ≤ 0x9F then .chute
  else if 0x40 ≤ n ∧ n ≤ 0x5F then .hoistCh
  else if 0x10 ≤ n ∧ n ≤ 0x1F then .hp
  else if 0x20 ≤ n ∧ n ≤ 0x27 then .enc
  else if 0x28 ≤ n ∧ n ≤ 0x2B then .ax
  else match n with
  | 0x00 => .die | 0x01 => .mode | 0x02 => .timebase | 0x03 => .tsync | 0x04 => .eventHub
  | 0x05 => .fence | 0x06 => .inject | 0x07 => .tally | 0x08 => .assay | 0x09 => .thermal
  | 0x0A => .lamp | 0x0B => .memctl | 0x0C => .retain | 0x0D => .hoistGlobal | 0x0E => .chuteGlobal
  | 0x0F => .mbox | 0x2C => .pd | 0x2D => .seam | 0x2E => .echo | 0x2F => .burim | 0x30 => .pcie
  | 0x31 => .ctxCtrl | _ => .absent

/-- The block of a secure page number (R57). -/
def secKind (n : Nat) : Kind :=
  match n with
  | 0 => .secDie | 1 => .guard | 2 => .mbox | 3 => .debug | 4 => .injectLock | 5 => .session | _ => .absent

/-- The block of a page by its address alone. -/
def pgKind (p : Pg) : Kind := if p.sec then secKind p.num else nsKind p.num

/-- The instance number of a page within its block type (R56). -/
def pgInst (p : Pg) : Nat :=
  match pgKind p with
  | .hp => p.num - 0x10 | .enc => p.num - 0x20 | .ax => p.num - 0x28 | .hoistCh => p.num - 0x40
  | .chute => p.num - 0x60 | _ => 0

/-- The page is one of the absent-resource pages of tier 08 (R2). -/
def absent08 (p : Pg) : Bool :=
  !p.sec && ((0x18 ≤ p.num && p.num ≤ 0x1F) || (0x24 ≤ p.num && p.num ≤ 0x27) || p.num == 0x2A || p.num == 0x2B
    || (0x50 ≤ p.num && p.num ≤ 0x5F) || (0x80 ≤ p.num && p.num ≤ 0x9F))

/-- The page is present on a part: its die exists, a table assigns it (R54), the tier carries its resource (R2), the
PCIE page lies on die 0 (R54), and the ECHO page answers only on tier 16E (R3, R15). -/
def Part.present (q : Part) (p : Pg) : Bool :=
  decide (p.die < q.dies) && decide (pgKind p ≠ .absent) && !(decide (q.tier = .t08) && absent08 p)
    && !(decide (pgKind p = .pcie) && decide (p.die ≠ 0)) && !(decide (pgKind p = .echo) && decide (q.tier ≠ .t16E))

/-- The block type code of a page (R56, R57). -/
def Kind.blockType : Kind → Nat
  | .absent => 0 | .die => 0x01 | .mode => 0x02 | .timebase => 0x03 | .tsync => 0x04 | .eventHub => 0x05
  | .fence => 0x06 | .inject => 0x07 | .tally => 0x08 | .assay => 0x09 | .thermal => 0x0A | .lamp => 0x0B
  | .memctl => 0x0C | .retain => 0x0D | .hoistGlobal => 0x0E | .chuteGlobal => 0x0F | .mbox => 0x10 | .hp => 0x11
  | .enc => 0x12 | .ax => 0x13 | .pd => 0x14 | .seam => 0x15 | .echo => 0x16 | .burim => 0x17 | .pcie => 0x18
  | .ctxCtrl => 0x19 | .hoistCh => 0x1A | .chute => 0x1B | .secDie => 0x80 | .guard => 0x81 | .debug => 0x83
  | .injectLock => 0x84 | .session => 0x85

/-- The block type of a page (the mailbox pages have one each, R56, R57). -/
def pgBlockType (p : Pg) : Nat := if p.sec && p.num == 2 then 0x82 else (pgKind p).blockType

/-- `EN` is fixed at 1 on the page ("1 F", R43, R56, R57). -/
def Kind.enFixed : Kind → Bool
  | .die | .mode | .timebase | .eventHub | .fence | .tally | .thermal | .memctl | .retain | .burim | .pcie | .ctxCtrl
  | .secDie | .guard | .injectLock | .session => true
  | _ => false

/-- `EN` at reset (R56, R57). -/
def Kind.enReset : Kind → Bool
  | .assay | .lamp | .hoistGlobal | .chuteGlobal | .mbox => true
  | k => k.enFixed

/-- The page has RWS registers (R56, R57). -/
def Kind.hasRws : Kind → Bool
  | .timebase | .tsync | .assay | .thermal | .hp | .enc | .ax | .pd | .seam | .echo => true
  | _ => false

/-- The `BOUNDARY` codes a page accepts (R47, R197; the other chapters give NEXT_TICK only). -/
def Kind.boundaries : Kind → List Nat
  | .hp => [0, 1]
  | _ => [0]

/-- The page can be fenced (R406). -/
def Kind.fenceable : Kind → Bool
  | .tsync | .inject | .assay | .thermal | .lamp | .mbox | .hp | .enc | .ax | .pd | .seam | .echo | .hoistCh | .chute
  | .debug => true
  | _ => false

/-- The row of a list that stands for an offset. -/
def findRow : List RegRow → Nat → Option RegRow
  | [], _ => none
  | r :: rs, o =>
    if r.off ≤ o ∧ o < r.off + r.count * r.stride ∧ (o - r.off) % r.stride = 0 then some r else findRow rs o

/-- The table row of a page's register: the header (R38), then the block's table. -/
def regRow (p : Pg) (off : Nat) : Option RegRow :=
  if off < 0x40 then findRow rows_hdr off else findRow (pgKind p).rows off

/-- The reset value of a register (R10), with the values the tables give as "per page". -/
def resetWord (p : Pg) (off : Nat) : Word :=
  let k := pgKind p
  if off = Off.PAGE_CTRL then word (if k.enReset then 1 else 0)
  else if off = Off.PAGE_STAT then word (if k.enReset then 2 else 0)
  else if off = Off.COMMIT then word (if k = .hp then 0x10 else 0)
  else if off = Off.EVT_VEC then word (if p.sec then 0x60 else 0)
  else if k = .chute ∧ off = Off.CH_CFG then word (if 16 ≤ p.num - 0x60 ∧ p.num - 0x60 ≤ 20 then 1 else 0)
  else if k = .fence ∧ off = Off.FN_DIE_STAT then word (if p.die = 0 then 1 else 0)
  else match regRow p off with
    | some r => word r.reset
    | none => 0#24

end Sys2Proof.Machine
end

