-- ==== Sys2Proof/Machine/Ops.lean ====
section
/-!
DEFINITION. Named operations over registers, engine tables, time and free values: the one way every meaning reads and
writes the state.
-/
namespace Sys2Proof.Machine

/-! Pages by name. -/

/-- Non-secure page `n` of die `d`. -/
def ns (d n : Nat) : Pg := ⟨d, false, n⟩
/-- Secure page `n` of die `d`. -/
def sp (d n : Nat) : Pg := ⟨d, true, n⟩
/-- Instance `i` of the `n` pages of one block type from page `base`; an index beyond them names a page that does not
exist (R54). -/
def nsAt (d base n i : Nat) : Pg := ns d (if i < n then base + i else 0xFFFF)
def pgDie (d : Nat) : Pg := ns d 0x00
def pgMode (d : Nat) : Pg := ns d 0x01
def pgTb (d : Nat) : Pg := ns d 0x02
def pgTsync : Pg := ns 0 0x03
def pgFence (d : Nat) : Pg := ns d 0x05
def pgInject (d : Nat) : Pg := ns d 0x06
def pgTally (d : Nat) : Pg := ns d 0x07
def pgAssay (d : Nat) : Pg := ns d 0x08
def pgThermal (d : Nat) : Pg := ns d 0x09
def pgLamp (d : Nat) : Pg := ns d 0x0A
def pgMemctl (d : Nat) : Pg := ns d 0x0B
def pgRetain (d : Nat) : Pg := ns d 0x0C
def pgHoistGlobal (d : Nat) : Pg := ns d 0x0D
def pgChuteGlobal (d : Nat) : Pg := ns d 0x0E
def pgMbox (d : Nat) (secure : Bool) : Pg := if secure then sp d 2 else ns d 0x0F
def pgHp (d p : Nat) : Pg := nsAt d 0x10 16 p
def pgEnc (d c : Nat) : Pg := nsAt d 0x20 8 c
def pgAx (d a : Nat) : Pg := nsAt d 0x28 4 a
def pgPd (d : Nat) : Pg := ns d 0x2C
def pgSeam (d : Nat) : Pg := ns d 0x2D
def pgEcho (d : Nat) : Pg := ns d 0x2E
def pgBurim (d : Nat) : Pg := ns d 0x2F
def pgPcie : Pg := ns 0 0x30
def pgCtx (d : Nat) : Pg := ns d 0x31
def pgHc (d c : Nat) : Pg := nsAt d 0x40 32 c
def pgChute (d c : Nat) : Pg := nsAt d 0x60 64 c
def pgSecDie (d : Nat) : Pg := sp d 0
def pgGuard (d : Nat) : Pg := sp d 1
def pgDebug (d : Nat) : Pg := sp d 3
def pgIjl (d : Nat) : Pg := sp d 4
def pgSess (d : Nat) : Pg := sp d 5

/-! Registers. -/

/-- The active copy of a register. -/
def rd (s : State) (p : Pg) (off : Nat) : Word := Tbl.get s.regs (p, off) (resetWord p off)

/-- Set the active copy of a register. -/
def wr (s : State) (p : Pg) (off : Nat) (v : Word) : State := { s with regs := Tbl.put s.regs (p, off) v }

/-- The shadow copy of an RWS register (R47). -/
def rdShadow (s : State) (p : Pg) (off : Nat) : Word := Tbl.get s.shad (p, off) (resetWord p off)

/-- Set the shadow copy. -/
def wrShadow (s : State) (p : Pg) (off : Nat) (v : Word) : State :=
  { s with shad := Tbl.put s.shad (p, off) v }

/-- A register as a number. -/
def rdN (s : State) (p : Pg) (off : Nat) : Nat := (rd s p off).toNat

/-- A field of a register. -/
def rf (s : State) (p : Pg) (off lo n : Nat) : Nat := fld (rd s p off) lo n

/-- A one-bit field. -/
def rb (s : State) (p : Pg) (off i : Nat) : Bool := bit (rd s p off) i

/-- Set a field of a register. -/
def wf (s : State) (p : Pg) (off lo n v : Nat) : State := wr s p off (setFld (rd s p off) lo n v)

/-- Set a one-bit field. -/
def wb (s : State) (p : Pg) (off i : Nat) (b : Bool) : State := wr s p off (setBit (rd s p off) i b)

/-- A pair `_L`, `_H` (R48). -/
def rd48 (s : State) (p : Pg) (off : Nat) : Nat := rdN s p off + 2 ^ 24 * rdN s p (off + 4)

/-- Set a pair. -/
def wr48 (s : State) (p : Pg) (off : Nat) (v : Nat) : State := wr (wr s p off (lo24 v)) p (off + 4) (hi24 v)

/-- A triple `_L`, `_M`, `_H` (R48). -/
def rd72 (s : State) (p : Pg) (off : Nat) : Nat := rd48 s p off + 2 ^ 48 * rdN s p (off + 8)

/-- Set a triple. -/
def wr72 (s : State) (p : Pg) (off : Nat) (v : Nat) : State := wr (wr48 s p off v) p (off + 8) (top24 v)

/-- Count one on a saturating 24-bit counter register. -/
def count (s : State) (p : Pg) (off : Nat) : State := wr s p off (inc24 (rd s p off))

/-- Count `n` on a saturating 24-bit counter register. -/
def countBy (s : State) (p : Pg) (off n : Nat) : State := wr s p off (add24 (rd s p off) n)

/-! Engine tables. -/

def die (s : State) (d : Nat) : DieSt := Tbl.get s.dies d {}
def setDie (s : State) (d : Nat) (x : DieSt) : State := { s with dies := Tbl.put s.dies d x }
def chute (s : State) (d c : Nat) : ChuteSt := Tbl.get s.chutes (d, c) {}
def setChute (s : State) (d c : Nat) (x : ChuteSt) : State := { s with chutes := Tbl.put s.chutes (d, c) x }
def ctx (s : State) (d k : Nat) : CtxSt := Tbl.get s.ctxs (d, k) {}
def setCtx (s : State) (d k : Nat) (x : CtxSt) : State := { s with ctxs := Tbl.put s.ctxs (d, k) x }
def port (s : State) (d p : Nat) : PortSt := Tbl.get s.ports (d, p) {}
def setPort (s : State) (d p : Nat) (x : PortSt) : State := { s with ports := Tbl.put s.ports (d, p) x }
def enc (s : State) (d c : Nat) : EncSt := Tbl.get s.encs (d, c) {}
def setEnc (s : State) (d c : Nat) (x : EncSt) : State := { s with encs := Tbl.put s.encs (d, c) x }
def pdIn (s : State) (d n : Nat) : PdSt := Tbl.get s.pds (d, n) {}
def setPdIn (s : State) (d n : Nat) (x : PdSt) : State := { s with pds := Tbl.put s.pds (d, n) x }
def echo (s : State) (d : Nat) : EchoSt := Tbl.get s.echos d {}
def setEcho (s : State) (d : Nat) (x : EchoSt) : State := { s with echos := Tbl.put s.echos d x }
def memSt (s : State) (d : Nat) : MemSt := Tbl.get s.mems d {}
def setMemSt (s : State) (d : Nat) (x : MemSt) : State := { s with mems := Tbl.put s.mems d x }
def fenceSt (s : State) (p : Pg) : FenceSt := Tbl.get s.fences p {}
def setFenceSt (s : State) (p : Pg) (x : FenceSt) : State := { s with fences := Tbl.put s.fences p x }
def axis (s : State) (d a : Nat) : AxisSt := Tbl.get s.axes (d, a) {}
def setAxis (s : State) (d a : Nat) (x : AxisSt) : State := { s with axes := Tbl.put s.axes (d, a) x }
def hoist (s : State) (d c : Nat) : HoistSt := Tbl.get s.hoists (d, c) {}
def setHoist (s : State) (d c : Nat) (x : HoistSt) : State := { s with hoists := Tbl.put s.hoists (d, c) x }
def cqRecs (s : State) (d : Nat) : List CqRec := Tbl.get s.cqWait d []
def setCqRecs (s : State) (d : Nat) (l : List CqRec) : State := { s with cqWait := Tbl.put s.cqWait d l }
def assay (s : State) (d : Nat) : AssaySt := Tbl.get s.assays d {}
def setAssay (s : State) (d : Nat) (x : AssaySt) : State := { s with assays := Tbl.put s.assays d x }
def therm (s : State) (d : Nat) : ThermSt := Tbl.get s.therms d {}
def setTherm (s : State) (d : Nat) (x : ThermSt) : State := { s with therms := Tbl.put s.therms d x }
def lamp (s : State) (d : Nat) : LampSt := Tbl.get s.lamps d {}
def setLamp (s : State) (d : Nat) (x : LampSt) : State := { s with lamps := Tbl.put s.lamps d x }
def mbox (s : State) (d n : Nat) : MboxCh := Tbl.get s.mboxes (d, n) {}
def setMbox (s : State) (d n : Nat) (x : MboxCh) : State := { s with mboxes := Tbl.put s.mboxes (d, n) x }
def fw (s : State) (d : Nat) : FwSt := Tbl.get s.fws d {}
def setFw (s : State) (d : Nat) (x : FwSt) : State := { s with fws := Tbl.put s.fws d x }
def burim (s : State) (d i : Nat) : BurimSt := Tbl.get s.burims (d, i) {}
def setBurim (s : State) (d i : Nat) (x : BurimSt) : State := { s with burims := Tbl.put s.burims (d, i) x }

/-! The part. -/

/-- The dies of the part. -/
def dieList (s : State) : List Nat := List.range s.part.dies
/-- Contexts per die (R116). -/
def nCtx (s : State) : Nat := if s.part.tier = .t08 then 128 else 256
/-- Head ports per die (R1). -/
def nPorts (s : State) : Nat := if s.part.tier = .t08 then 8 else 16
/-- Encoder channels per die. -/
def nEnc (s : State) : Nat := if s.part.tier = .t08 then 4 else 8
/-- Motion axes per die. -/
def nAx (s : State) : Nat := if s.part.tier = .t08 then 2 else 4
/-- Hoist channels per die. -/
def nHc (s : State) : Nat := if s.part.tier = .t08 then 16 else 32
/-- Chutes per die. -/
def nChutes (s : State) : Nat := if s.part.tier = .t08 then 32 else 64
/-- Tier 16E. -/
def is16E (s : State) : Bool := decide (s.part.tier = .t16E)
/-- The page is present. -/
def present (s : State) (p : Pg) : Bool := s.part.present p

/-! Page state (R38, R41). -/

/-- STATE codes of `PAGE_STAT`. -/
abbrev stOff : Nat := 0
abbrev stStarting : Nat := 1
abbrev stRunning : Nat := 2
abbrev stShutting : Nat := 3
abbrev stRestart : Nat := 4
abbrev stFenced : Nat := 5

/-- The state of a page's block. -/
def pstate (s : State) (p : Pg) : Nat := rf s p Off.PAGE_STAT 0 3
/-- Set it. -/
def setPstate (s : State) (p : Pg) (st : Nat) : State := wf s p Off.PAGE_STAT 0 3 st
/-- The block is RUNNING. -/
def running (s : State) (p : Pg) : Bool := present s p && decide (pstate s p = stRunning)
/-- The page is fenced. -/
def fenced (s : State) (p : Pg) : Bool := decide (pstate s p = stFenced)

/-- Every field of a page takes its reset value, in both copies (R10, R42, R43, R47); captures are kept. -/
def resetPage (s : State) (p : Pg) : State :=
  { s with
    regs := Tbl.drop s.regs fun k => decide (k.1 = p)
    shad := Tbl.drop s.shad fun k => decide (k.1 = p)
    hold := Tbl.drop s.hold fun k => decide (k.1 = p) }

/-! Time. -/

/-- The tick counter of a die (R65). -/
def now (s : State) (d : Nat) : Nat := (die s d).tick

/-! Free values: what the manual leaves open is an uninterpreted constant of Config applied to a counter. -/

/-- A fresh number below `n`. -/
def freeBelow (s : State) (n : Nat) : Nat := if n = 0 then 0 else Config.freeNat s.free % n
/-- A fresh truth value. -/
def freeBit (s : State) : Bool := Config.freeBool s.free
/-- Move on to the next free value. -/
def nextFree (s : State) : State := { s with free := s.free + 1 }

/-- `a / b` to the nearest integer, a tie decided by a free value: the manual says "nearest" and no more (`b` > 0). -/
def nearest (s : State) (a b : Int) : Int :=
  if (2 * a) % (2 * b) = b ∧ freeBit s then a / b else (2 * a + b) / (2 * b)

/-- A value of exact arithmetic whose rounding the manual leaves open: `a / b` rounded down or up (`b` > 0). -/
def openRound (s : State) (a b : Int) : Int := if a % b ≠ 0 ∧ freeBit s then a / b + 1 else a / b

/-- Send something out of the part. -/
def emit (s : State) (o : Out) : State := { s with out := s.out ++ [o] }

/-- Apply an operation for each element of a list, in order. -/
def each {α : Type} (l : List α) (s : State) (f : State → α → State) : State := l.foldl f s

/-- Apply an operation if a condition holds. -/
def whenDo (b : Bool) (s : State) (f : State → State) : State := if b then f s else s

/-- The number of bits set among the lowest `n` of a number, and the list of their places. -/
def bitsSet (n v : Nat) : List Nat := (List.range n).filter fun i => v.testBit i

/-- The answer of a meaning that completes. -/
abbrev ok (s : State) : Host.Outcome State Fault Refusal := .next s

end Sys2Proof.Machine
end

