-- ==== Sys2Proof/Machine/Flags.lean ====
section
/-!
DEFINITION. Flags of the register pages: events and interrupt summaries (R44, R45), MSI-X messages (R410, R425), and
access errors (R39).
-/
namespace Sys2Proof.Machine

/-- The code of a requester class (R39); debug access acts as secure host (R389). -/
def clsCode : Cls → Nat
  | .nsHost => 0 | .secHost => 1 | .firmware => 2 | .hoist => 3 | .debug => 1

/-- Die `d` is isolated: fenced as a whole, or lost (R410, R405). -/
def isolated (s : State) (d : Nat) : Bool :=
  decide (d ≠ 0) && (rb s (pgFence 0) Off.FN_DIE_STAT (8 + d) || rb s (pgFence 0) Off.FN_DIE_STAT (16 + d))

/-- The four conditions under which a message of a vector leaves (R425). -/
def msixOpen (s : State) (v : Nat) : Bool :=
  s.pcie.msixEn && !s.pcie.msixFmask && s.pcie.unmasked.contains v && s.pcie.bme

/-- A message of die `d` on a vector: sent, made pending (R425), or discarded with its isolated die (R410). -/
def msix (s : State) (d v : Nat) : State :=
  if isolated s d then s
  else if msixOpen s v then emit s (.msix v)
  else { s with pcie := { s.pcie with pba := if s.pcie.pba.contains v then s.pcie.pba else s.pcie.pba ++ [v] } }

/-- The interrupt summary of a page (R45). -/
def summary (s : State) (p : Pg) : Bool := decide (rd s p Off.EVT_LAT &&& rd s p Off.EVT_EN ≠ 0#24)

/-- The message of a page's summary (R45). -/
def pageMsix (s : State) (p : Pg) : State := msix s p.die (rf s p Off.EVT_VEC 0 7)

/-- Latch the event bits of a mask; a message leaves when the summary rises (R44, R45). Absent pages raise no event
(R2). -/
def latch (s : State) (p : Pg) (m : Word) : State :=
  if present s p then
    let s1 := wr s p Off.EVT_LAT (rd s p Off.EVT_LAT ||| m)
    whenDo (!summary s p && summary s1 p) s1 (pageMsix · p)
  else s

/-- An event of one tick occurs (R44). -/
def raise (s : State) (p : Pg) (i : Nat) : State := latch s p (bitw i)

/-- The condition of event bit `i` is `b`: `EVT_DYN` follows it, and its rise latches (R44). -/
def setDyn (s : State) (p : Pg) (i : Nat) (b : Bool) : State :=
  if present s p then
    let was := rb s p Off.EVT_DYN i
    let s1 := whenDo (was != b) s (wb · p Off.EVT_DYN i b)
    whenDo (b && !was) s1 (raise · p i)
  else s

/-- A Hoist channel names a trigger source: code, index, and for a context the event bit (R280). -/
def hoistNames (s : State) (d src idx evt c : Nat) : Bool :=
  let w := rd s (pgHc d c) Off.HC_TRIG
  present s (pgHc d c) && decide (fld w 21 3 = src) && decide (src ≠ 4 ∨ fld w 8 5 = evt)
    && decide (fld w 0 (match src with | 1 => 2 | 2 => 5 | 3 => 6 | _ => 8) = idx)

/-- A trigger source fires: one trigger goes to every channel that names it (R280). -/
def hoistSource (s : State) (d src idx evt : Nat) : State :=
  { s with trigs := s.trigs ++ ((List.range 32).filter (hoistNames s d src idx evt)).map fun c => (d, c) }

/-- Firmware of a die is up (R360). -/
def fwUp (s : State) (d : Nat) : Bool := rb s (pgMbox d false) Off.MB_STAT 0

/-- Index of a mailbox channel. -/
def mbIx (sec : Bool) (n : Nat) : Nat := 4 * b2n sec + n

/-- Offset of a channel's register. -/
def mbOff (n off : Nat) : Nat := off + 0x100 * n

/-- `OUT_STAT_n.QUEUED` follows the queue (R367). -/
def outQueued (s : State) (d : Nat) (sec : Bool) (n : Nat) : State :=
  wf s (pgMbox d sec) (mbOff n Off.OUT_STAT) 8 5 (mbox s d (mbIx sec n)).queue.length

/-- One page's queue takes a notice, or the notice is lost (R367). -/
def noticeOn (s : State) (d : Nat) (sec : Bool) (n code : Nat) (args : List Word) : State :=
  let p := pgMbox d sec
  let x := mbox s d (mbIx sec n)
  if !(running s p || fenced s p) then s
  else if 16 ≤ x.queue.length then raise (count s p Off.CNT_NOTE_LOST) p 18
  else outQueued (setMbox s d (mbIx sec n) { x with queue := x.queue ++ [(code, args)] }) d sec n

/-- Firmware has a notice for software: it goes to the queue of either page (R367). -/
def notice (s : State) (d n code : Nat) (args : List Word) : State :=
  if fwUp s d then noticeOn (noticeOn s d false n code args) d true n code args else s

/-- The bits that stay set because their condition holds at level (R44). -/
def levelBits (s : State) (p : Pg) : Word := rd s p Off.EVT_DYN &&& rd s p Off.EVT_LVL

/-- Log an access error in a page (R39): the first since VALID was cleared is kept, a further one sets OVF. -/
def logErr (s : State) (r : Req) (p : Pg) (off : Nat) (write : Bool) (code : Nat) : State :=
  if rb s p Off.ERR_INFO 23 then wb s p Off.ERR_INFO 22 true
  else
    wr (wr s p Off.ERR_INFO (word (2 ^ 23 + clsCode r.cls * 2 ^ 18 + code * 2 ^ 8))) p Off.ERR_ADDR
      (word (b2n write * 2 ^ 12 + off % 2 ^ 12))

/-- Latch an event of a context (R146) and the page event that follows its unmasked summary (R147). -/
def ctxEvt (s : State) (d k i : Nat) : State :=
  let off := Off.CTX_EVT + 4 * k
  let s1 := hoistSource (wr s (pgCtx d) off (rd s (pgCtx d) off ||| bitw i)) d 4 k i
  whenDo (rb s1 (pgCtx d) Off.CTX_EVT_MASK i) s1 (setDyn · (pgCtx d) 0 true)

/-- Some context of the die has an unmasked event (R147). -/
def anyCtxEvt (s : State) (d : Nat) : Bool :=
  (List.range (nCtx s)).any fun k =>
    decide (rd s (pgCtx d) (Off.CTX_EVT + 4 * k) &&& rd s (pgCtx d) Off.CTX_EVT_MASK ≠ 0#24)

end Sys2Proof.Machine
end

