-- ==== Sys2Proof/Machine/Chute.lean ====
section
/-!
DEFINITION. Chutes: capacity and levels, credits, records in OVERWRITE mode, poison, and the CHUTE_GLOBAL summaries
(R294 to R302, R306).
-/
namespace Sys2Proof.Machine

/-- OVERWRITE mode (R293): fixed by the register's reset value for chutes 0 to 20. -/
def overwrite (s : State) (d c : Nat) : Bool := rb s (pgChute d c) Off.CH_CFG 0

/-- The capacity of a chute in words (R294). -/
def capacity (x : ChuteSt) : Nat := 32 + x.spill

/-- Words free: capacity less those held and reserved (R295). -/
def freeWords (x : ChuteSt) : Nat := capacity x - x.words.length - x.reserved

/-- The level of a chute (R295). -/
def chuteLevel (s : State) (d c : Nat) : Nat :=
  let x := chute s d c
  if overwrite s d c then x.words.length else freeWords x

/-- The chute's level meets its threshold (R295). -/
def threshMet (s : State) (d c : Nat) : Bool :=
  decide (rdN s (pgChute d c) Off.CH_THRESH ≤ chuteLevel s d c)

/-- A chute is present and is none of CHUTE_21 to CHUTE_23 (R293, R306). -/
def realChute (s : State) (c : Nat) : Bool := decide (c < nChutes s) && !(decide (21 ≤ c) && decide (c ≤ 23))

/-- Some enabled chute of the die meets its threshold (R307). -/
def anyThresh (s : State) (d : Nat) : Bool :=
  (List.range (nChutes s)).any fun c =>
    realChute s c && rb s (pgChute d c) Off.EVT_DYN 0 && rb s (pgChuteGlobal d) (Off.CG_THRESH_EN + 4 * (c / 24)) (c % 24)

/-- CHUTE_GLOBAL's dynamic event follows the chutes while its page runs (R306, R307). -/
def cgFollow (s : State) (d : Nat) : State :=
  whenDo (running s (pgChuteGlobal d)) s fun s => setDyn s (pgChuteGlobal d) 0 (anyThresh s d)

/-- After a change of the chute's words: THRESH's condition follows the level (R295); a rise is a Hoist trigger
(R280). -/
def chuteFollow (s : State) (d c : Nat) : State :=
  let met := running s (pgChute d c) && threshMet s d c
  let rise := met && !rb s (pgChute d c) Off.EVT_DYN 0
  cgFollow (whenDo rise (setDyn s (pgChute d c) 0 met) fun s => hoistSource s d 3 c 0) d

/-- Raise a chute event and the CHUTE_GLOBAL event that gathers it (R307). -/
def chuteEvt (s : State) (d c i g : Nat) : State :=
  let s1 := raise s (pgChute d c) i
  whenDo (running s1 (pgChuteGlobal d)) s1 fun s => raise s (pgChuteGlobal d) g

/-- Count on a chute counter and on its CHUTE_GLOBAL total (R306). -/
def chuteCount (s : State) (d c off total : Nat) : State :=
  let s1 := count s (pgChute d c) off
  whenDo (running s1 (pgChuteGlobal d)) s1 fun s => count s (pgChuteGlobal d) total

/-- `CNT_LOST` and LOST (R297). -/
def chuteLost (s : State) (d c : Nat) : State := chuteEvt (chuteCount s d c Off.CNT_LOST Off.CG_LOST_TOTAL) d c 2 1

/-- An uncorrectable word of a chute is found: `CNT_POISON` and POISON (R298). -/
def spotted (s : State) (d c : Nat) : State :=
  chuteEvt (chuteCount s d c Off.CNT_POISON Off.CG_POISON_TOTAL) d c 4 2

/-- Words that leave a chute undelivered: an error among them that has not been counted has been found by now (R298). -/
def spotGone (s : State) (d c : Nat) (ws : List CWord) : State :=
  each (ws.filter fun w => decide (w.ecc = .bad) && !w.seen) s fun s _ => spotted s d c

/-- The words without the oldest record: its first word and the unmarked words after it (R297). -/
def dropRecord : List CWord → List CWord
  | [] => []
  | _ :: r => r.dropWhile fun w => !w.mark

/-- Words at the head that bursts have reserved as their source (R283). -/
def srcReserved (s : State) (d c : Nat) : Nat :=
  ((List.range 32).flatMap fun h =>
    (((hoist s d h).bursts ++ (hoist s d h).held.toList).filter fun b => decide (b.sres = some c)).map Burst.sn).sum

/-- Split off what is never discarded (R297): reserved words and the open record, to the end of their record. -/
def openPart (s : State) (d c : Nat) : List CWord × List CWord :=
  let x := chute s d c
  let i := max (if x.openRec then (x.words.takeWhile fun w => !w.mark).length else 0) (srcReserved s d c)
  if i = 0 then ([], x.words)
  else
    let rest := (x.words.drop i).takeWhile fun w => !w.mark
    (x.words.take i ++ rest, x.words.drop (i + rest.length))

/-- Make room for `n` words by discarding whole records from the oldest, never the open one: the words left and the
number of records discarded. The fuel is the number of words. -/
def makeRoom : Nat → List CWord → Nat → Nat → List CWord × Nat
  | 0, ws, _, k => (ws, k)
  | f + 1, ws, keep, k => if ws.length ≤ keep ∨ ws = [] then (ws, k) else makeRoom f (dropRecord ws) keep (k + 1)

/-- Count `k` discarded records. -/
def chuteLostN : Nat → State → Nat → Nat → State
  | 0, s, _, _ => s
  | k + 1, s, d, c => chuteLostN k (chuteLost s d c) d c

/-- Discard whole records until `n` more words fit beside the open record and the reserved words (R297). -/
def chuteRoom (s : State) (d c n : Nat) : State :=
  let x := chute s d c
  let (op, rest) := openPart s d c
  let keep := capacity x - x.reserved - op.length - n
  if op.length + n + x.reserved ≤ capacity x then
    let (left, k) := makeRoom rest.length rest keep 0
    let s1 := spotGone s d c (rest.take (rest.length - left.length))
    chuteLostN k (setChute s1 d c { x with words := op ++ left }) d c
  else s

/-- The number of words of the record being pushed: the last mark and what follows it. -/
def lastRecord (ws : List CWord) : Nat := (ws.reverse.takeWhile fun w => !w.mark).length + 1

/-- Room for one pushed word that continues a record: the record being pushed is not discarded (R297). -/
def chuteRoomTail (s : State) (d c : Nat) : State :=
  let x := chute s d c
  let (op, rest) := openPart s d c
  let tl := min (lastRecord rest) rest.length
  let body := rest.take (rest.length - tl)
  let fixed := op.length + tl + x.reserved + 1
  if fixed ≤ capacity x then
    let (left, k) := makeRoom body.length body (capacity x - fixed) 0
    let s1 := spotGone s d c (body.take (body.length - left.length))
    chuteLostN k (setChute s1 d c { x with words := op ++ left ++ rest.drop (rest.length - tl) }) d c
  else s

/-- A record as it stands in a chute: its first word carries the mark (R297). -/
def recordCells (ws : List Word) : List CWord := ws.zipIdx.map fun e => { w := e.1, mark := decide (e.2 = 0) }

/-- Write a record of the part to an OVERWRITE chute in one step (R297): room is made first; without room, or with
the chute not RUNNING, it is not written. -/
def chuteRecord (s : State) (d c : Nat) (ws : List Word) : State :=
  if running s (pgChute d c) then
    let s1 := if freeWords (chute s d c) < ws.length then chuteRoom s d c ws.length else s
    let x := chute s1 d c
    if ws.length ≤ freeWords x then
      chuteFollow (setChute s1 d c { x with words := x.words ++ recordCells ws, used := (x.used + ws.length) % 2 ^ 24 }) d c
    else chuteLost s1 d c
  else s

/-- The 4-byte credit mirror of a chute: `CR_GRANT`, then the chute number, little-endian (R301). -/
def mirrorBytes (x : ChuteSt) (c : Nat) : List Byte := wordBytes (word x.grant) ++ [BitVec.ofNat 8 c]

/-- Writes of a die reach the host: Bus Master Enable is 1 (R421), and the die is not lost (R405; DEDUCED, log entry 79). -/
def hostOpen (s : State) (d : Nat) : Bool := s.pcie.bme && !rb s (pgFence 0) Off.FN_DIE_STAT (16 + d)

/-- The mirror write: sent to host memory, or held (R421). -/
def mirrorWrite (s : State) (d c : Nat) : State :=
  let x := chute s d c
  let s1 := setChute s d c { x with mirrored := x.grant, mirrorHeld := !hostOpen s d }
  if hostOpen s d then emit s1 (.hostWrite (rd72 s (pgChute d c) Off.CR_MIRROR_L) (mirrorBytes x c)) else s1

/-- The mirror is written when CR_GRANT has advanced by CR_STEP since the last write (R301). -/
def mirrorFollow (s : State) (d c : Nat) : State :=
  let x := chute s d c
  let step := rf s (pgChute d c) Off.CR_STEP 0 16
  if step ≠ 0 ∧ !overwrite s d c ∧ step ≤ (x.grant + 2 ^ 24 - x.mirrored) % 2 ^ 24 then mirrorWrite s d c else s

/-- `n` words removed from a CREDIT chute return their credits (R296). -/
def creditBack (s : State) (d c n : Nat) : State :=
  if overwrite s d c then s
  else
    let x := chute s d c
    mirrorFollow (setChute s d c { x with grant := (x.grant + n) % 2 ^ 24 }) d c

/-- A context FENCED while it names the chute freezes it (R299). -/
def frozen (s : State) (d c : Nat) : Bool :=
  (List.range (nCtx s)).any fun k =>
    decide ((ctx s d k).st = .fenced) && !(ctx s d k).rejoin && decide (fld (Tbl.get (ctx s d k).act 16 0#24) 0 6 = c) && decide (c < 16 ∨ 24 ≤ c)

/-- The chute delivers no word (R299, R300, R302). -/
def chuteHeld (s : State) (d c : Nat) : Bool :=
  !running s (pgChute d c) || decide ((chute s d c).flush ≠ []) || frozen s d c

/-- The open-record mark after the word `w` has been delivered and `rest` remains (R297). -/
def openAfter (rest : List CWord) : Bool :=
  match rest with
  | [] => false
  | w :: _ => !w.mark

/-- Remove the word at the head: the word and the state after. A single-bit error is corrected and counted, a
poisoned word is counted unless it has been (R298); credits return (R296). -/
def headTake (s : State) (d c : Nat) : Option CWord × State :=
  match (chute s d c).words with
  | [] => (none, s)
  | w :: rest =>
    let s1 := setChute s d c { chute s d c with words := rest, openRec := openAfter rest }
    let s2 := match w.ecc with
      | .good => s1
      | .single => raise (chuteCount s1 d c Off.CNT_CORR_chute Off.CG_CORR_TOTAL) (pgChute d c) 3
      | .bad => if w.seen then s1 else spotted s1 d c
    (some w, chuteFollow (creditBack s2 d c 1) d c)

/-- Length of an image block, from its header words 0 and 5 (R148). -/
def blockLen (h : List Word) : Nat := 8 + (h.getD 5 0#24).toNat + b2n (bit (h.getD 0 0#24) 6)

/-- Words of an incomplete flushed block are discarded as they arrive (R299): what is still to come, and the words left
over. -/
def tailDrop : Option (List Word × Nat) → List CWord → Option (List Word × Nat) × List CWord
  | t, [] => (t, [])
  | none, ws => (none, ws)
  | some (h, n), w :: r =>
    let h1 := if h.length < 6 then h ++ [w.w] else h
    tailDrop (if 6 ≤ h1.length ∧ blockLen h1 ≤ n + 1 then none else some (h1, n + 1)) r

/-- Append words to a chute that has room for them; the words of an incomplete flushed block are discarded and their
credits return (R296, R299). -/
def chuteAppend (s : State) (d c : Nat) (ws : List CWord) : State :=
  let x := chute s d c
  let (tf, left) := tailDrop x.tailFlush ws
  let gone := ws.length - left.length
  let s1 := setChute s d c
    { x with words := x.words ++ left, used := (x.used + ws.length) % 2 ^ 24, tailFlush := tf }
  chuteFollow (if gone = 0 then s1 else creditBack s1 d c gone) d c

/-- The chute enters RUNNING: empty, the spill region in force, credits at the capacity (R294, R295, R301, R302). -/
def chuteStart (s : State) (d c : Nat) : State :=
  let base := rf s (pgChute d c) Off.CH_SPILL_BASE 0 21
  let size := (rf s (pgChute d c) Off.CH_SPILL_SIZE 0 21) / 16 * 16
  let bad := decide (2097152 < base + size)
  let sp := if bad then 0 else size
  let s1 := setChute s d c
    { words := [], spill := sp, cfgBad := bad, grant := (32 + sp) % 2 ^ 24 }
  let s2 := whenDo bad s1 fun s => chuteEvt s d c 7 3
  let s3 := chuteFollow s2 d c
  if rf s (pgChute d c) Off.CR_STEP 0 16 ≠ 0 ∧ !overwrite s d c then mirrorWrite s3 d c else s3

end Sys2Proof.Machine
end

