-- ==== Sys2Proof/Machine/Memory.lean ====
section
/-!
DEFINITION. Fault records (R411, R412), the lode banks and the dual-port store with their check bits and poison
(R308 to R315), and the retention store's bytes (R319).
-/
namespace Sys2Proof.Machine

/-! Records. -/

/-- One link of a record's cause chain (R412). -/
structure Link where
  block : Nat
  inst : Nat
  code : Nat
  detail : Nat
  deriving DecidableEq, Repr

/-- The two words of a link. -/
def Link.words (l : Link) : List Word := [word (l.block * 2 ^ 16 + l.inst % 256 * 2 ^ 8 + l.code % 256), word l.detail]

/-- A fault record (R412): kind, die of the cause, whether a block was fenced, cause, effect, reason, followers. -/
structure Rec where
  kind : Nat := 1
  fenced : Bool := true
  cause : Link
  effect : Option Link := none
  reason : Nat := 0
  followed : Nat := 0
  deriving DecidableEq, Repr

/-- The words of a record made by die `d`'s log for a cause on die `cd` (R412). -/
def Rec.words (x : Rec) (cd seq tick : Nat) : List Word :=
  [word (x.kind * 2 ^ 20 + cd * 2 ^ 17 + b2n x.fenced * 2 ^ 16 + b2n x.effect.isSome * 2 ^ 15 + seq)]
    ++ x.cause.words
    ++ (match x.effect with | some e => e.words | none => [0#24, 0#24])
    ++ [word (x.reason % 256 * 2 ^ 16 + min x.followed 255 * 2 ^ 8), lo24 tick, hi24 tick]

/-- Make a record in the log of die `d` for a cause on die `cd`: its sequence number is consumed whether or not it is
written (R411). -/
def logRecord (s : State) (d cd : Nat) (x : Rec) : State :=
  let seq := (die s d).logSeq
  let s1 := count (setDie s d { die s d with logSeq := (seq + 1) % 4096 }) (pgFence d) Off.FN_CNT_RECORDS
  chuteRecord s1 d 19 (x.words cd seq (now s d))

/-! Bytes. -/

/-- What an address of the lode banks and the dual-port store reads as: 0 where nothing is listed (R309). -/
def memGet : List Host.Cell → Nat → Byte
  | [], _ => 0#8
  | (a, b) :: r, k => if a = k then b else memGet r k

/-- List a byte at its place in rising order. -/
def memIns : List Host.Cell → Nat → Byte → List Host.Cell
  | [], a, b => [(a, b)]
  | (k, v) :: r, a, b =>
    if a < k then (a, b) :: (k, v) :: r else if a = k then (a, b) :: r else (k, v) :: memIns r a b

/-- Write a byte: 0 is what an unlisted address reads as, so writing it removes the entry. -/
def memSet (m : List Host.Cell) (a : Nat) (b : Byte) : List Host.Cell :=
  if b = 0#8 then m.filter fun c => decide (c.1 ≠ a) else memIns m a b

/-- The canonical form: addresses strictly rising and no byte 0 listed. -/
abbrev Memory.wf (m : List Host.Cell) : Prop := (m.map Prod.fst).Pairwise (· < ·) ∧ ∀ c ∈ m, c.2 ≠ 0#8

/-- BAR0 address of dual-port word `w` of die `d` (R52, R312). -/
def dpsAddr (d w : Nat) : Nat := d * 2 ^ 24 + 0x100000 + 3 * w

/-- BAR0 address of lode word `w` of die `d` (R52, R312). -/
def lodeAddr (d w : Nat) : Nat := d * 2 ^ 24 + 0x400000 + 3 * w

/-- A die's lode bank (`false`) or dual-port (`true`) word address. -/
def wordAddr (d : Nat) (dps : Bool) (w : Nat) : Nat := if dps then dpsAddr d w else lodeAddr d w

/-- The stored word at an address, whatever its check bits say. -/
def rawWord (s : State) (a : Nat) : Word := bytesWord (memGet s.mem a) (memGet s.mem (a + 1)) (memGet s.mem (a + 2))

/-- The check state of a word. -/
def eccOf (s : State) (a : Nat) : Ecc := Tbl.get s.ecc a .good

/-- Three bytes written at an address. -/
def memSet3 (m : List Host.Cell) (a : Nat) (w : Word) : List Host.Cell :=
  memSet (memSet (memSet m a (BitVec.ofNat 8 w.toNat)) (a + 1) (BitVec.ofNat 8 (w.toNat / 256))) (a + 2)
    (BitVec.ofNat 8 (w.toNat / 65536))

/-- Write a whole word with new check bits (R310, R312). -/
def wrWord (s : State) (a : Nat) (w : Word) : State := { s with mem := memSet3 s.mem a w, ecc := Tbl.put s.ecc a .good }

/-- Store a word as poisoned (R310). -/
def poisonWord (s : State) (a : Nat) : State := { s with ecc := Tbl.put s.ecc a .bad }

/-- Bank number as `MT_STAT.BANK` and region of a word (R308, R316). -/
def bankOf (dps : Bool) (w : Nat) : Nat × Nat :=
  if dps then (16 + w / 32768, w % 32768 / 1024) else (w / 131072, w % 131072 / 1024)

/-- Report an uncorrectable word found by reader `src` (R310, R311): registers, event and one record with the
consumer's effect. -/
def reportBad (s : State) (d : Nat) (dps : Bool) (w src : Nat) (eff : Option Link) (reason : Nat) : State :=
  let p := pgMemctl d
  let a := b2n dps * 2 ^ 21 + w
  let s1 := wr48 (wr (wr s p Off.UNC_ADDR (word a)) p Off.UNC_SRC (word src)) p Off.UNC_TS_L (now s d)
  let s2 := raise (count s1 p Off.ECC_UNCORR) p 1
  let s3 := logRecord s2 d d
    { fenced := decide (reason ≠ 0), cause := ⟨0x0C, 0, 1, a⟩, effect := eff, reason := reason }
  let b := bankOf dps w
  whenDo (decide (src ≠ 6) && !(memSt s3 d).ahead.contains b) s3 fun s =>
    setMemSt s d { memSt s d with ahead := (memSt s d).ahead ++ [b] }

/-- Read a word through its check bits (R310): the word, whether it is poisoned, and the state after. A consumer that
is fenced by the poison names its effect for the record (R311). -/
def readWord (s : State) (d : Nat) (dps : Bool) (w src : Nat) (eff : Option Link := none) (reason : Nat := 0) :
    Word × Bool × State :=
  let a := wordAddr d dps w
  match eccOf s a with
  | .good => (rawWord s a, false, s)
  | .single =>
    (rawWord s a, false, raise (count { s with ecc := Tbl.put s.ecc a .good } (pgMemctl d) Off.ECC_CORR) (pgMemctl d) 0)
  | .bad => (0#24, true, reportBad s d dps w src eff reason)

/-- Read consecutive words; the first poisoned one ends the reading. -/
def readWords : Nat → State → Nat → Bool → Nat → Nat → Option Link → Nat → List Word × Bool × State
  | 0, s, _, _, _, _, _, _ => ([], false, s)
  | n + 1, s, d, dps, w, src, eff, reason =>
    let (v, bad, s1) := readWord s d dps w src eff reason
    if bad then ([], true, s1)
    else
      let (vs, bad2, s2) := readWords n s1 d dps (w + 1) src eff reason
      (v :: vs, bad2, s2)

/-- The words a run of bytes touches: word number, first byte and bytes covered (R312), from byte `b` for `n` bytes.
The fuel is `n`. -/
def touched : Nat → Nat → Nat → List (Nat × Nat × Nat)
  | 0, _, _ => []
  | _, _, 0 => []
  | f + 1, b, n =>
    let k := b % 3
    let m := min (3 - k) n
    (b / 3, k, m) :: touched f (b + m) (n - m)

/-! Words of a chute on their way out (R294, R298). -/

/-- The places at the head that a removal of one word from a chute of `n` fills from its spill region, which holds all but
the 16 words next to go and the last 16 (R294). -/
def unspilled (n : Nat) : List Nat := if 32 < n then [15] else []

/-- The word that has come to place `i` of a chute out of its spill region is a lode read (R298, R310, R311). The manual does
not say which word of the region held it: its number is a free value. -/
def spillRead (s : State) (d c i : Nat) : State :=
  let x := chute s d c
  match x.words[i]? with
  | none => s
  | some w =>
    match w.ecc with
    | .good => s
    | .single =>
      let s1 := setChute s d c { x with words := x.words.set i { w with ecc := .good } }
      let s2 := raise (chuteCount s1 d c Off.CNT_CORR_chute Off.CG_CORR_TOTAL) (pgChute d c) 3
      raise (count s2 (pgMemctl d) Off.ECC_CORR) (pgMemctl d) 0
    | .bad =>
      let s1 := setChute s d c { x with words := x.words.set i { w with seen := true } }
      let s2 := if w.seen then s1 else spotted s1 d c
      reportBad (nextFree s2) d false (rf s (pgChute d c) Off.CH_SPILL_BASE 0 21 + freeBelow s x.spill) 1 none 0

/-- Remove the word at the head of a chute; the words behind it move up (R294, R296, R298). -/
def chuteTake (s : State) (d c : Nat) : Option CWord × State :=
  let n := (chute s d c).words.length
  let (w, s1) := headTake s d c
  (w, each (unspilled n) s1 fun s i => spillRead s d c i)

/-- Remove the first `n` words without delivering them, returning their credits. -/
def chuteSkip (s : State) (d c n : Nat) : State := each (List.range n) s fun s _ => (chuteTake s d c).2

/-! Retention store: word `w` of die `d` lies at byte address d * 2^24 + 3 w of its own store (R319). -/

def retAddr (d w : Nat) : Nat := d * 2 ^ 24 + 3 * w
/-- A stored retention word. -/
def retRaw (s : State) (d w : Nat) : Word :=
  bytesWord (memGet s.ret (retAddr d w)) (memGet s.ret (retAddr d w + 1)) (memGet s.ret (retAddr d w + 2))
/-- Write a retention word to the store (R319): `RET_WCOUNT` counts the words written, by whomever. -/
def retWrite (s : State) (d w : Nat) (v : Word) : State :=
  let s1 := wr48 s (pgRetain d) Off.RET_WCOUNT_L (min (rd48 s (pgRetain d) Off.RET_WCOUNT_L + 1) (2 ^ 48 - 1))
  { s1 with ret := memSet3 s.ret (retAddr d w) v, retEcc := Tbl.put s.retEcc (retAddr d w) .good }
/-- Write consecutive retention words. -/
def retWrites (s : State) (d w : Nat) (vs : List Word) : State :=
  each vs.zipIdx s fun s x => retWrite s d (w + x.2) x.1

end Sys2Proof.Machine
end

