-- ==== Sys2Proof/Machine/Operands.lean ====
section
/-!
DEFINITION. Bus accesses: who may reach a register page and how an access ends (R34 to R40, R53, R54, R58, R381,
R383), and the write and read forms of registers by their access code (R9, R11, R47 to R50).
-/
namespace Sys2Proof.Machine

/-- How a register access ends before the register sees it. -/
inductive Verdict | unsupported | absent | locked | denied | fenced | busy | pass
  deriving DecidableEq, Repr

/-- The class a requester counts as on a page: BAR2 is reached as secure host (R58, R381). -/
def clsOn (r : Req) (p : Pg) : Cls := if p.sec ∧ r.cls = .nsHost then .secHost else r.cls

/-- A host outside the part, whose accesses pass die 0 (R53). -/
def isHost (r : Req) : Bool := decide (r.cls = .nsHost) || decide (r.cls = .secHost)

/-- An open secure session serves the requester (R377, R378). -/
def sessionServes (s : State) (d : Nat) (r : Req) : Bool :=
  let x := (die s d).sess
  decide (x.st = 2) && (!x.bind || decide (rdN s (pgSess d) Off.SESS_RID = r.rid % 2 ^ 16))

/-- A guard register as it judges an access now: a write of this tick applies from the next tick on (R382). -/
def guardReg (s : State) (d off : Nat) : Word :=
  match s.ticks.find? fun t => decide (t.reg = (pgGuard d, off)) && decide (t.clock = s.clock) with
  | some t => t.before
  | none => rd s (pgGuard d) off

/-- The guard of a page: NS_R, NS_W, S_R, S_W in bits 0 to 3 (R381). -/
def guardOf (s : State) (p : Pg) : Nat :=
  if p.sec then
    if p.num = 1 ∨ p.num = 5 then 0xC else fld (guardReg s p.die Off.GD_S) (4 * p.num) 4
  else fld (guardReg s p.die (Off.GD_NS + 4 * (p.num / 6))) (4 * (p.num % 6)) 4

/-- The bit of a guard that judges a class (R381). -/
def guardBit (c : Cls) (write : Bool) : Nat :=
  (match c with | .nsHost | .hoist => 0 | .secHost | .firmware | .debug => 2) + b2n write

/-- The guard permits the access (R381). -/
def permits (s : State) (r : Req) (p : Pg) (write : Bool) : Bool := (guardOf s p).testBit (guardBit (clsOn r p) write)

/-- The page exists for its requester: the die answers, and a secure page lies within BAR2's pages (R53). A local access
to a secure page number from 6 on is answered as the hole that BAR2 has there (DEDUCED: R55 and R54 leave it open). -/
def answers (s : State) (r : Req) (p : Pg) : Bool :=
  decide (p.die < s.part.dies) && !(isHost r && isolated s p.die) && (!p.sec || decide (p.num ≤ 5))

/-- An axis takes commands also while fenced, where all but CLEAR are refused (R268, R269; DEDUCED against R40, log entry
74). -/
def takesFenced (p : Pg) (off : Nat) : Bool := decide (pgKind p = .ax) && decide (off = Off.AX_CMD)

/-- The verdict on an access to offset `off` of a page (R39, R40, R42, R53, R54, R58, R383). -/
def verdict (s : State) (r : Req) (p : Pg) (off : Nat) (write : Bool) : Verdict :=
  if !answers s r p then .unsupported
  else if !present s p then .absent
  else if p.sec && decide (p.num ≠ 5) && isHost r && !sessionServes s p.die r then .locked
  else if !permits s r p write then .denied
  else if write && decide (0x40 ≤ off) && fenced s p && !takesFenced p off then .fenced
  else if write && decide (0x40 ≤ off) && (decide (pstate s p = stShutting) || decide (pstate s p = stRestart)) then .busy
  else .pass

/-- BAR and offset of a register in the host's map (R51, R52). -/
def barOf (p : Pg) : Nat := if p.sec then 1 else 0
def barOff (p : Pg) (off : Nat) : Nat := (if p.sec then p.die * 0x200000 else p.die * 0x1000000) + p.num * 0x1000 + off

/-- An Unsupported Request or a discarded write, counted and logged on the PCIE page (R53, R424). -/
def unsupported (s : State) (bar off : Nat) (write : Bool) : State :=
  let s1 := count s pgPcie Off.CNT_UR
  let s2 := wr (wr s1 pgPcie Off.PC_UR_OFF_L (lo24 off)) pgPcie Off.PC_UR_OFF_H
    (word (bar * 2 ^ 13 + b2n write * 2 ^ 12 + off / 2 ^ 24 % 16))
  { raise s2 pgPcie 3 with resp := if write then s2.resp else .unsupported }

/-- The part is supplied and out of DORMANT. -/
def powered (s : State) : Bool := decide (s.pkg.power = .running) || decide (s.pkg.power = .entering)

/-- An access that nothing answers: Unsupported Request for a host (R53), an error response on the local bus (R55). -/
def noAnswer (s : State) (r : Req) (bar off : Nat) (write : Bool) : State :=
  if isHost r then unsupported s bar off write else { s with resp := .error }

/-- A denial counted on the GUARD page (R383). -/
def denyCount (s : State) (r : Req) (p : Pg) (write mem : Bool) : State :=
  let g := pgGuard p.die
  let s1 := wr (count s g Off.GD_DENIED) g Off.GD_DENY_INFO
    (word (b2n write * 2 ^ 23 + b2n mem * 2 ^ 22 + clsCode (clsOn r p) * 2 ^ 18 + b2n p.sec * 2 ^ 8 + p.num % 256))
  raise s1 g 1

/-- An access by a permitted requester keeps its session alive (R379). -/
def touchSession (s : State) (r : Req) (p : Pg) : State :=
  if p.sec && isHost r && sessionServes s p.die r then
    setDie s p.die { die s p.die with sess := { (die s p.die).sess with last := s.clock } }
  else s

/-- A write to a block register of a fenced page is ignored and logged (R40); a requester of the die gets an error
response (R17). -/
def fencedWrite (s : State) (r : Req) (p : Pg) (off : Nat) : State :=
  let s1 := logErr s ⟨clsOn r p, r.rid⟩ p off true 3
  if isHost r then s1 else { s1 with resp := .error }

/-- A register write under its verdict: only a passing one has the effect. -/
def guardedWrite (s : State) (r : Req) (p : Pg) (off : Nat) (eff : State → State) : State :=
  if !powered s then s else
  match verdict s r p off true with
  | .unsupported => noAnswer s r (barOf p) (barOff p off) true
  | .absent => s
  | .locked => logErr s ⟨clsOn r p, r.rid⟩ p off true 4
  | .denied => denyCount (logErr s ⟨clsOn r p, r.rid⟩ p off true 4) r p true false
  | .fenced => fencedWrite s r p off
  | .busy => logErr s ⟨clsOn r p, r.rid⟩ p off true 2
  | .pass => eff (touchSession s r p)

/-! Register forms. -/

/-- An enumerated field written with a code its table does not list keeps its previous value (R11). -/
def keepEnums : List (Nat × Nat × List Nat) → Word → Word → Word
  | [], _, v => v
  | (lo, n, codes) :: r, old, v =>
    keepEnums r old (if codes.contains (fld v lo n) then v else setFld v lo n (fld old lo n))

/-- The value a register takes from a write: writable bits from the write, enumerated fields as R11 gives. -/
def merge (row : RegRow) (old v : Word) : Word :=
  keepEnums row.enums old ((old &&& ~~~ word row.mask) ||| (v &&& word row.mask))

/-- `COMMIT.GO` (R47). -/
def goSet (s : State) (p : Pg) : Bool := rb s p Off.COMMIT 0

/-- The holding copy of an upper part (R50). -/
def heldUpper (s : State) (p : Pg) (off : Nat) : Word := Tbl.get s.hold (p, off) 0#24

/-- Transfer the holding copies of the `n` upper parts after `off` into the register, or into its shadow (R50). -/
def transferUppers (s : State) (p : Pg) (off n : Nat) (shadow : Bool) : State :=
  each (List.range n) s fun s i =>
    let o := off + 4 * (i + 1)
    match regRow p o with
    | none => s
    | some row =>
      if shadow then wrShadow s p o (merge row (rdShadow s p o) (heldUpper s p o))
      else wr s p o (merge row (rd s p o) (heldUpper s p o))

/-! Several writes of a register in one tick (R36). -/

/-- Place of a requester class among the writes of one tick. -/
def tickRank : Cls → Nat
  | .secHost | .debug => 0
  | .firmware => 1
  | .nsHost => 2
  | .hoist => 3

/-- A write put in its place among those of its tick. -/
def tickInsert (x : Nat × Word) : List (Nat × Word) → List (Nat × Word)
  | [] => [x]
  | y :: r => if x.1 < y.1 then x :: y :: r else y :: tickInsert x r

/-- What is noted of a register's writes in the present tick: nothing where its value has changed since. -/
def tickSeen (s : State) (k : RegKey) (old : Word) : Word × List (Nat × Word) :=
  match s.ticks.find? fun t => decide (t.reg = k) && decide (t.clock = s.clock) && decide (t.after = old) with
  | some t => (t.before, t.writes)
  | none => (old, [])

/-- A write of value `v` to a register that holds `old`: the value that the writes of this tick leave, in the order of
R36, and the state that notes them. -/
def tickWrite (s : State) (r : Req) (k : RegKey) (row : RegRow) (old v : Word) : Word × State :=
  let seen := tickSeen s k old
  let ws := tickInsert (tickRank r.cls, v) seen.2
  let w := ws.foldl (fun x y => merge row x y.2) seen.1
  let others := s.ticks.filter fun t => decide (t.clock = s.clock) && decide (t.reg ≠ k)
  (w, { s with ticks := ⟨k, s.clock, seen.1, w, ws⟩ :: others })

/-- A write of a register by its access code (R9), its row of the page's table, the order of one tick's writes (R36) and
the rules of wide and shadowed values (R47, R50). -/
def rowWrite (s : State) (r : Req) (p : Pg) (off : Nat) (row : RegRow) (v : Word) : State :=
  match row.acc with
  | .ro => s
  | .wo => s
  | .w1c => wr s p off (rd s p off &&& ~~~ (v &&& word row.mask))
  | .w1s => wr s p off (rd s p off ||| (v &&& word row.mask))
  | .rw =>
    if row.upper then { s with hold := Tbl.put s.hold (p, off) v }
    else
      let (w, s1) := tickWrite s r (p, off) row (rd s p off) v
      transferUppers (wr s1 p off w) p off row.ups false
  | .rws =>
    if goSet s p then logErr s r p off true 5
    else if row.upper then { s with hold := Tbl.put s.hold (p, off) v }
    else
      let (w, s1) := tickWrite s r (p, off) row (rdShadow s p off) v
      transferUppers (wrShadow s1 p off w) p off row.ups true

/-- A write of any register by its row; reserved offsets ignore it (R9). -/
def plainWrite (s : State) (r : Req) (p : Pg) (off : Nat) (v : Word) : State :=
  match regRow p off with
  | none => s
  | some row => rowWrite s ⟨clsOn r p, r.rid⟩ p off row v

/-- The tag byte of a read (R34). -/
def tagOf (s : State) (p : Pg) (off : Nat) (lock : Bool) : Nat :=
  let rws := match regRow p off with | some row => decide (row.acc = .rws) | none => false
  b2n lock * 128 + b2n (rws && goSet s p) * 64 + p.num % 64

/-- Capture the parts that a read of `off` captures, for one class (R49, R113). -/
def capture (s : State) (r : Req) (p : Pg) (off : Nat) (val : State → Pg → Nat → Word) : State :=
  match regRow p off with
  | none => s
  | some row =>
    each (List.range row.caps) s fun t i =>
      let o := off + 4 * (i + 1)
      { t with caps := Tbl.put t.caps (clsCode (clsOn r p), (p, o)) (val s p o) }

/-- What a class reads: its capture of a part if it has one, else the live value (R49). -/
def captured (s : State) (r : Req) (p : Pg) (off : Nat) (val : State → Pg → Nat → Word) : Word :=
  Tbl.get s.caps (clsCode (clsOn r p), (p, off)) (val s p off)

/-- A register read under its verdict (R34, R53, R54, R58, R383): the live value comes from `val`, and a passing read
has the effect `eff` after it. -/
def guardedRead (s : State) (r : Req) (p : Pg) (off : Nat) (val : State → Pg → Nat → Word) (eff : State → State) :
    State :=
  if !powered s then s else
  match verdict s r p off false with
  | .unsupported => noAnswer s r (barOf p) (barOff p off) false
  | .absent => { s with resp := .data (tagOf s p off false) 0#24 }
  | .locked => { s with resp := .data (tagOf s p off true) 0#24 }
  | .denied =>
    { denyCount (logErr s ⟨clsOn r p, r.rid⟩ p off false 4) r p false false with
      resp := .data (tagOf s p off true) 0#24 }
  | _ =>
    let s1 := touchSession s r p
    let v := captured s1 r p off val
    let s2 := capture s1 r p off val
    eff { s2 with resp := .data (tagOf s p off false) v }

end Sys2Proof.Machine
end

