-- ==== Sys2Proof/Machine/Descr.lean ====
section
/-!
DEFINITION. Descriptors of jet contexts: their fields (R122), fire groups (R124, R176), and the geometry and seam
descriptors a context works from (R157, R162).
-/
namespace Sys2Proof.Machine

/-- Word `w` of the active copy of a context (R117). -/
def aw (s : State) (d k w : Nat) : Word := Tbl.get (ctx s d k).act w 0#24
/-- Word `w` (0 to 3) latched at ARM (R121). -/
def lw (s : State) (d k w : Nat) : Word := Tbl.get (ctx s d k).lat w 0#24
/-- A field of the active copy. -/
def af (s : State) (d k w lo n : Nat) : Nat := fld (aw s d k w) lo n
/-- A field of the latched words. -/
def lf (s : State) (d k w lo n : Nat) : Nat := fld (lw s d k w) lo n

/-- The context is bound: outside IDLE, and not merely fenced from IDLE (R125, R128). -/
def bound (s : State) (d k : Nat) : Bool :=
  let x := ctx s d k
  !(decide (x.st = .idle) || (decide (x.st = .fenced) && decide (x.before = .idle)))

/-- ARMED, PRINTING, PAUSED or DRAINING (R26). -/
def activeSt (s : State) (d k : Nat) : Bool :=
  match (ctx s d k).st with | .armed | .printing | .paused | .draining => true | _ => false

def cPort (s : State) (d k : Nat) : Nat := lf s d k 0 12 4
def cFg (s : State) (d k : Nat) : Nat := lf s d k 0 20 2
def cTiming (s : State) (d k : Nat) : Bool := bit (lw s d k 0) 19
def cSrc (s : State) (d k : Nat) : Nat := lf s d k 0 16 3
def cFirst (s : State) (d k : Nat) : Nat := lf s d k 1 12 12
def cCount (s : State) (d k : Nat) : Nat := lf s d k 1 0 12
def cStartPd (s : State) (d k : Nat) : Bool := bit (lw s d k 2) 0
def cPd (s : State) (d k : Nat) : Nat := lf s d k 2 2 3
def cRate (s : State) (d k : Nat) : Nat := lf s d k 3 0 17

/-- The contexts of a die bound to a port and fire group (R124). -/
def members (s : State) (d p g : Nat) : List Nat :=
  (List.range (nCtx s)).filter fun k => bound s d k && decide (cPort s d k = p) && decide (cFg s d k = g)

/-- The timing context of a group (R124). -/
def timingOf (s : State) (d p g : Nat) : Option Nat := (members s d p g).find? fun k => cTiming s d k

/-- The timing context of a context's group, or the context itself. -/
def leader (s : State) (d k : Nat) : Nat := ((timingOf s d (cPort s d k) (cFg s d k))).getD k

/-- The members that move together with a context: its group without fenced members and followers still to rejoin
(R124, R127). -/
def movers (s : State) (d k : Nat) : List Nat :=
  if bound s d k then
    (members s d (cPort s d k) (cFg s d k)).filter fun m =>
      m = k || (!decide ((ctx s d m).st = .fenced) && !(ctx s d m).rejoin)
  else [k]

/-- The contexts of a port outside IDLE. -/
def portCtxs (s : State) (d p : Nat) : List Nat :=
  (List.range (nCtx s)).filter fun k => bound s d k && decide (cPort s d k = p)

/-- The lead context of a port (R176). -/
def leadCtx (s : State) (d p : Nat) : Option Nat := (portCtxs s d p).find? fun k => cTiming s d k

/-- PITCH, unsigned 24.24 (words 8 and 9). -/
def pitchOf (w : Nat → Word) : Nat := (w 8).toNat + 2 ^ 24 * (w 9).toNat
/-- ORIGIN, signed 24.24 (words 10 and 11). -/
def originOf (w : Nat → Word) : Int := sgn 48 ((w 10).toNat + 2 ^ 24 * (w 11).toNat)

/-! The words of a descriptor as they are written (R11, R122). -/

/-- The bits of words 0 to 55 that a field covers (R122); the others are reserved. -/
def descMasks : List Nat :=
  [0x3FF000, 0xFFFFFF, 0x00001D, 0x01FFFF, 0, 0, 0, 0,
   0xFFFFFF, 0xFFFFFF, 0xFFFFFF, 0xFFFFFF, 0xFFFFFF, 0xFFFFFF, 0xFFFFFF, 0xFFFF01,
   0x00003F, 0xFFFFFF, 0x01FFFF, 0x01FFFF, 0x000003, 0, 0, 0,
   0x000FF3, 0x1FFFFF, 0xFFFFFF, 0xFFFFFF, 0, 0, 0, 0] ++
  [0x000FFF, 0x00000F, 0, 0, 0, 0, 0, 0,
   0x0000FF, 0x1FFFFF, 0xFFFF07, 0, 0, 0, 0, 0,
   0xFFFF33, 0x000003, 0xFFFF01, 0x000001, 0x00FF37, 0x000001, 0x000001, 0]

/-- Enumerated fields of a descriptor: word, lowest bit, width, codes listed (R11, R122). GREY is not among them: ARM
judges its range (R128). -/
def descEnums : List (Nat × Nat × Nat × List Nat) :=
  [(24, 0, 2, [0, 1, 2]), (48, 4, 2, [0, 1]), (48, 0, 2, [0, 1, 2]), (49, 0, 2, [0, 1]),
    (52, 0, 3, [0, 1, 2, 3, 4])]

/-- What word `w` of a descriptor holds after a write of `v` (R11): reserved bits read 0, and an enumerated field with an
unlisted code keeps its previous value. -/
def descWord (w : Nat) (old v : Word) : Word :=
  keepEnums ((descEnums.filter fun e => e.1 = w).map fun e => e.2) old (v &&& word (descMasks.getD w 0))

/-! Geometry (R157, R158). -/

/-- Word `i` of the geometry descriptor in force. -/
def geoW (s : State) (d k i : Nat) : Word := (ctx s d k).geom.getD i 0#24
/-- Rows. -/
def geoRows (s : State) (d k : Nat) : Nat := fld (geoW s d k 0) 20 4 + 1
/-- Image columns. -/
def geoCols (s : State) (d k : Nat) : Nat := fld (geoW s d k 0) 0 12 + 1
/-- Lode word of slot 0. -/
def geoLs (s : State) (d k : Nat) : Nat := fld (geoW s d k 1) 0 21
/-- Image lines held. -/
def geoDepth (s : State) (d k : Nat) : Nat := fld (geoW s d k 2) 12 12 + 1

/-- A row of the geometry: first nozzle, nozzles − 1, start column, line offset, signed step. -/
structure GRow where
  nozFirst : Nat
  nozCount : Nat
  colStart : Nat
  off : Nat
  step : Int
  deriving DecidableEq, Repr

/-- Row `r`. -/
def geoRow (s : State) (d k r : Nat) : GRow :=
  let a := geoW s d k (4 + 3 * r)
  let b := geoW s d k (5 + 3 * r)
  ⟨fld a 12 12, fld a 0 12, fld b 12 12, fld b 0 12, sgn 4 (fld (geoW s d k (6 + 3 * r)) 20 4)⟩

/-- Every row. -/
def geoAll (s : State) (d k : Nat) : List GRow := (List.range (geoRows s d k)).map (geoRow s d k)
/-- The largest line offset. -/
def offMax (s : State) (d k : Nat) : Nat := ((geoAll s d k).map GRow.off).foldl max 0

/-! Seams (R162). -/

/-- Word `i` of the seam descriptor in force. -/
def seamW (s : State) (d k i : Nat) : Word := (ctx s d k).seamD.getD i 0#24
/-- ROLE: 1 OWNER, 2 PARTNER, 0 no seam. -/
def seamRole (s : State) (d k : Nat) : Nat := fld (seamW s d k 0) 22 2
def seamFallback (s : State) (d k : Nat) : Bool := bit (seamW s d k 0) 21
def seamMirror (s : State) (d k : Nat) : Bool := bit (seamW s d k 0) 20
def seamSide (s : State) (d k : Nat) : Nat := fld (seamW s d k 0) 19 1
def seamPeer (s : State) (d k : Nat) : Nat × Nat := (fld (seamW s d k 0) 16 3, fld (seamW s d k 0) 8 8)
def seamRamp (s : State) (d k : Nat) : Nat := fld (seamW s d k 0) 0 3
def seamFirst (s : State) (d k : Nat) : Nat := fld (seamW s d k 1) 12 12
def seamK (s : State) (d k : Nat) : Nat := fld (seamW s d k 1) 0 12 + 1
def seamPeerFirst (s : State) (d k : Nat) : Nat := fld (seamW s d k 2) 12 12
def seamSeed (s : State) (d k : Nat) : Nat := (seamW s d k 3).toNat

/-- Words of a line-store slot (R158). -/
def slotWords (s : State) (d k : Nat) : Nat :=
  2 + ceilDiv (geoCols s d k) 8 + (if seamRole s d k = 2 then ceilDiv (seamK s d k) 8 else 0)

/-! Modular time in fine steps (R65). -/

/-- The tick counter of a die in fine steps. -/
def nowFine (s : State) (d : Nat) : Int := 16 * (now s d : Int)
/-- `a − b`, modulo 2^52 fine steps, signed (R65). -/
def fdiff (a b : Int) : Int := sgn 52 (uns 52 (a - b))
/-- The earliest of two instants stands at or before the other. -/
def fle (a b : Int) : Bool := decide (0 ≤ fdiff b a)

end Sys2Proof.Machine
end

