-- ==== Sys2Proof/Machine/Frames.lean ====
section
/-!
DEFINITION. Downstream Sypol frames (R236, R237): their words, the frame of a cycle, and the queue of a port.
-/
namespace Sys2Proof.Machine

/-! Characters (R72, R229, R230, R236). -/

/-- K28.5: a comma, COM on Sypol. -/
def kComma : Chr := .control (5 * 32 + 28)
/-- K27.7, SOF. -/
def kSof : Chr := .control (7 * 32 + 27)
/-- K29.7, EOF. -/
def kEof : Chr := .control (7 * 32 + 29)
/-- K28.0, SMP. -/
def kSmp : Chr := .control 28
/-- K28.2, ARM. -/
def kArm : Chr := .control (2 * 32 + 28)
/-- D.x.y. -/
def dChr (x y : Nat) : Chr := .data (32 * y + x)

/-- A word as three characters, most significant byte first. -/
def wordChars (w : Word) : List Chr := [.data (fld w 16 8), .data (fld w 8 8), .data (fld w 0 8)]

/-- Words of data characters, three each. -/
def charWords : List Chr → Option (List Word)
  | [] => some []
  | .data a :: .data b :: .data c :: r => (charWords r).map (word (a % 256 * 2 ^ 16 + b % 256 * 2 ^ 8 + c % 256) :: ·)
  | _ => none

/-- A frame: SOF, its words, EOF (R236). -/
def frameChars (ws : List Word) : List Chr := kSof :: ws.flatMap wordChars ++ [kEof]

/-- The words of a frame as received: none where a character is in error, a control character stands inside, or SOF or EOF
is missing (R230, R236). -/
def frameRead (cs : List Chr) : Option (List Word) :=
  match cs with
  | c :: r => if c = kSof ∧ r.getLast? = some kEof then charWords r.dropLast else none
  | [] => none

/-- The characters that an output puts on the downstream lanes of a head port (R229 to R231, R234, R236, R241): the frame,
the ARM unit, the SMP unit of a sample. -/
def Out.chars : Out → List Chr
  | .frame _ _ _ ws => frameChars ws
  | .armUnit _ _ _ d => [kArm, .data d, .data (255 - d)]
  | .sample _ _ _ amp flags => kSmp :: wordChars (word (amp * 64 + flags))
  | .stream _ _ _ (some amp) => kSmp :: wordChars (word (amp * 64))
  | _ => []

/-- The place in the character stream at a clock: characters since the striped stream began (R229). Its origin is the tick of
LINK_UP, and the places of COM and SMP in it follow from R231 only within bounds (DESIGN CHOICE, log entry 73). -/
def charAt (x : PortSt) (c : Nat) : Nat := (c - x.upAt) * (64 * (x.rate + 1)) / 100

/-- Character `k` of the stream goes on lane DA when `k` is even and on DB when it is odd (R229). -/
def onDa (k : Nat) : Bool := decide (k % 2 = 0)

/-- The characters of one lane, from those that start at place `k` (R229). -/
def laneChars (da : Bool) (k : Nat) (cs : List Chr) : List Chr :=
  (cs.zipIdx.filter fun c => onDa (k + c.2) == da).map Prod.fst

/-- Nozzles of the head (R233). -/
def headNozzles (s : State) (d p : Nat) : Nat := rf s (pgHp d p) Off.SY_HEAD_ID2 12 12 + 1

/-- First nozzle and number of nozzles of group `g`'s span, clipped to the head's nozzles (R237). -/
def spanOf (s : State) (d p g : Nat) : Nat × Nat :=
  let f := rf s (pgHp d p) (Off.SY_SPAN + 4 * g) 12 12
  let n := rf s (pgHp d p) (Off.SY_SPAN + 4 * g) 0 12 + 1
  (f, max 1 (min n (headNozzles s d p - f)))

/-- Words of a group's DATA frame, check word included (R236). -/
def dataLen (s : State) (d p g : Nat) : Nat := 5 + ceilDiv (5 * (spanOf s d p g).2) 24

/-- The code a cycle carries for nozzle `z`: the one of the member that holds it, unless its data is withdrawn
(R237, R241). -/
def codeAt (s : State) (d : Nat) (c : Cycle) (z : Nat) : Nat :=
  match c.members.find? fun m => !m.nul && decide (cFirst s d m.ctx ≤ z) && decide (z ≤ cFirst s d m.ctx + cCount s d m.ctx) with
  | none => 0
  | some m => m.codes.getD (z - cFirst s d m.ctx) 0

/-- Pack bits, lowest first, into `n` words (R237). -/
def packBits (n : Nat) (bits : List Bool) : List Word :=
  (List.range n).map fun i => word (((bits.drop (24 * i)).take 24).foldr (fun b a => 2 * a + b2n b) 0)

/-- The low `n` bits of a number, lowest first. -/
def bitsLsb : Nat → Nat → List Bool
  | 0, _ => []
  | n + 1, v => v.testBit 0 :: bitsLsb n (v / 2)

/-- Words of a DATA frame without check word, FSEQ 0 (R237). -/
def dataWords (s : State) (d p : Nat) (c : Cycle) (replace : Bool) : List Word :=
  let (f, n) := spanOf s d p c.fg
  let codes := (List.range n).map fun j => codeAt s d c (f + j)
  let sense := match c.sense with
    | some (_, z) => word (2 ^ 23 + z)
    | none => 0#24
  [word (0x1 * 2 ^ 20 + c.fg * 2 ^ 10 + c.bank % 2 * 2 ^ 9 + b2n replace * 2 ^ 8 + c.table % 16 * 2 ^ 4),
   word (c.cseq * 2 ^ 12), word (f * 2 ^ 12 + (n - 1)), sense]
    ++ packBits (ceilDiv (5 * n) 24) (codes.flatMap (bitsLsb 5))

/-- Words of a NULL frame (R237). -/
def nullWords (fg cseq : Nat) : List Word := [word (0x2 * 2 ^ 20 + fg * 2 ^ 10), word (cseq * 2 ^ 12)]

/-- Words of a TABLE frame: entries 0 to 3 are sent as 0 (R188, R237). -/
def tableWords (bank table : Nat) (masks : List Nat) : List Word :=
  word (0x3 * 2 ^ 20 + bank % 2 * 2 ^ 11 + table % 16 * 2 ^ 4)
    :: packBits 11 (masks.zipIdx.flatMap fun x => bitsLsb 8 (if x.2 < 4 then 0 else x.1))

/-- Words of a CTRL frame (R237). -/
def ctrlWords (code : Nat) : List Word := [word (0x4 * 2 ^ 20 + code), 0#24]

/-- A frame's words with its sequence number, and its check word (R236, R239). -/
def sealWords (ws : List Word) (fseq : Nat) (corrupt : Bool) : List Word :=
  let body := match ws with
    | [] => []
    | w :: r => setFld w 12 8 fseq :: r
  let crc := crcWords body
  body ++ [if corrupt then crc ^^^ 1#24 else crc]

/-- The deadline of a cycle's frame: t_fire − 520 ticks, with t_fire as predicted at the binding point (R240). -/
def frameDeadline (c : Cycle) : Int := c.deadline

/-- The cycle carries data of some member. -/
def hasData (c : Cycle) : Bool := c.members.any fun m => !m.nul

/-- The DATA or NULL frame of a cycle as it stands (R237, R240). -/
def cycleFrame (s : State) (d p : Nat) (c : Cycle) : Frame :=
  if hasData c && !c.nul then
    { kind := 1, fg := c.fg, cseq := c.cseq, words := dataWords s d p c false, deadline := some (frameDeadline c) }
  else { kind := 2, fg := c.fg, cseq := c.cseq, words := nullWords c.fg c.cseq, deadline := some (frameDeadline c) }

/-- Queue a frame. -/
def queueFrame (s : State) (d p : Nat) (f : Frame) : State :=
  setPort s d p { port s d p with queue := (port s d p).queue ++ [f] }

/-- A frame belongs to a cycle. -/
def ofCycle (c : Cycle) (f : Frame) : Bool :=
  (decide (f.kind = 1) || decide (f.kind = 2)) && decide (f.fg = c.fg) && decide (f.cseq = c.cseq)

/-- Put a changed cycle back. -/
def setCycle (s : State) (d p : Nat) (c : Cycle) : State :=
  setPort s d p { port s d p with
    cycles := (port s d p).cycles.map fun x => if x.fg = c.fg ∧ x.cseq = c.cseq then c else x }

/-- The content of a line withdrawn from its cycle is kept, to be bound again after RESUME (R126, R143, R144). -/
def keepLine (s : State) (d k : Nat) (c : Cycle) : State :=
  match c.members.find? fun m => decide (m.ctx = k) && !m.nul && m.ready with
  | none => s
  | some m =>
    let x := ctx s d k
    if (ctx s d c.tctx).turning then s
    else setCtx s d k { x with built := { sw := x.swBuild, n := m.line, codes := m.codes } :: x.built.filter fun b => decide (b.n ≠ m.line) }

/-- The line of a member of a cycle becomes NULL for it (R141, R144, R241): a frame still queued is rebuilt, and for a
frame already sent a REPLACE frame is queued. -/
def withdraw (s : State) (d p k : Nat) (c : Cycle) : State :=
  if c.members.any fun m => decide (m.ctx = k) && !m.nul then
    let c1 := { c with members := c.members.map fun m => if m.ctx = k then { m with nul := true } else m }
    let x := port s d p
    if c.sent then
      let s1 := setCycle s d p { c1 with repls := c.repls + 1 }
      queueFrame s1 d p { kind := 1, fg := c.fg, cseq := c.cseq, words := dataWords s d p c1 true,
                          deadline := some (frameDeadline c) }
    else
      let s1 := setCycle s d p c1
      let fresh := fun (f : Frame) => if ofCycle c f then cycleFrame s d p c1 else f
      setPort s1 d p { port s1 d p with
        queue := x.queue.map fresh, held := x.held.map fresh, follow := x.follow.map fresh }
  else s

/-- Withdraw a context's lines from the bound cycles of its port that have not fired and satisfy `f`. -/
def withdrawAll (s : State) (d k : Nat) (f : Cycle → Bool) : State :=
  each ((port s d (cPort s d k)).cycles.filter fun c => !c.fired && f c) s fun s c =>
    withdraw (keepLine s d k c) d (cPort s d k) k c

/-- `SY_STAT` shows the link, its rate, the frames outstanding and whether one is retried (R232, R240). -/
def linkStat (s : State) (d p : Nat) : State :=
  let x := port s d p
  let w := rd s (pgHp d p) Off.SY_STAT
  wr s (pgHp d p) Off.SY_STAT
    (setFld (setBit (setFld (setFld w 0 3 x.link) 4 2 x.trained) 7 (x.outst.any fun f => decide (f.tries ≠ 0))) 8 4 x.outst.length)

end Sys2Proof.Machine
end

