-- ==== Sys2Proof/Machine/Seam.lean ====
section
/-!
DEFINITION. Seam states (R164 to R166): when a seam is WAITING, UP, PEER_FENCED or LINK_LOST, and what a change of
state does on both sides.
-/
namespace Sys2Proof.Machine

/-- The Burim port of die `d` that leads to its neighbour `e` in a part of `n` dies (R21). -/
def burimPort (n d e : Nat) : Option Nat :=
  if n = 2 then (if d = 0 ∧ e = 1 then some 0 else if d = 1 ∧ e = 0 then some 1 else none)
  else if 4 ≤ n then (if (d + 1) % n = e then some 0 else if (e + 1) % n = d then some 1 else none)
  else none

/-- State code of a Burim port. -/
def burimState (s : State) (d i : Nat) : Nat := rf s (pgBurim d) (Off.BU_STAT_0 + 4 * i) 0 3

/-- The Burim port of `d` towards `e` carries traffic and is open to seams (R164, R165, R432). -/
def seamPort (s : State) (d e : Nat) : Bool :=
  match burimPort s.part.dies d e with
  | none => false
  | some i =>
    (decide (burimState s d i = 2) || decide (burimState s d i = 3)) && rb s (pgSeam d) Off.SEAM_CFG i

/-- The path between the two sides of a seam is usable (R165, R172). -/
def seamPath (s : State) (d e : Nat) : Bool :=
  running s (pgSeam d) && running s (pgSeam e) && (decide (d = e) || (seamPort s d e && seamPort s e d))

/-- The two descriptors name each other and fit (R162). -/
def seamMatch (s : State) (d k e j : Nat) : Bool :=
  decide (seamPeer s d k = (e, j)) && decide (seamPeer s e j = (d, k))
    && ((decide (seamRole s d k = 1) && decide (seamRole s e j = 2) && decide (seamFirst s e j = seamPeerFirst s d k))
      || (decide (seamRole s d k = 2) && decide (seamRole s e j = 1) && decide (seamFirst s d k = seamPeerFirst s e j)))
    && decide (seamK s d k = seamK s e j)

/-- A context is fenced, or its die is fenced or lost (R165). -/
def sideFenced (s : State) (d k : Nat) : Bool := decide ((ctx s d k).st = .fenced) || isolated s d

/-- The state of a seam that has not left UP since both contexts last passed through IDLE (R165, R172): code and cause. -/
def seamFresh (s : State) (d k e j : Nat) : Nat × Nat :=
  let x := ctx s d k
  let y := ctx s e j
  if x.st = .idle ∧ y.st = .idle then (0, 0)
  else if x.st = .idle ∨ y.st = .idle then (if seamPath s d e then (1, 0) else (4, 3))
  else if activeSt s d k && activeSt s e j then
    (if seamPath s d e && seamMatch s d k e j then (2, 0) else (4, 3))
  else (x.seam, x.seamCause)

/-- What the state of the seam of context `k` ought to be, from its present state (R165): code and cause (1 partner
fenced, 2 owner fenced, 3 link or match, 4 a side has gone IDLE). The manual names no state for a seam that leaves UP
because a side goes IDLE: it is shown as NONE, and either side prints as if it were UP (DESIGN CHOICE, log entry 68). -/
def seamNext (s : State) (d k : Nat) : Nat × Nat :=
  let x := ctx s d k
  let (e, j) := seamPeer s d k
  let y := ctx s e j
  if seamRole s d k = 0 then (0, 0)
  else if x.seam = 3 ∨ x.seam = 4 ∨ x.seamCause = 4 then
    if x.seamIdle && y.seamIdle then seamFresh s d k e j else (x.seam, x.seamCause)
  else if x.seam = 2 ∧ (sideFenced s d k ∨ sideFenced s e j) then
    (3, if sideFenced s d k = (seamRole s d k = 1 : Bool) then 2 else 1)
  else if x.seam = 2 ∧ (x.st = .idle ∨ y.st = .idle) then (0, 4)
  else seamFresh s d k e j

/-- Slots of the partner that hold no share when a seam enters UP (R164). -/
def freeSlots (s : State) (e j : Nat) : Nat := geoDepth s e j - ((ctx s e j).lines.filter ImgLine.share).length

/-- Shares and credits on their way between the two sides of a seam are lost: a new run begins, or the path between the dies
fails, or a SEAM page is fenced; a page that shuts down finishes the share in progress (R164, R166, R172). -/
def seamPurge (s : State) (d k e j : Nat) : State :=
  { s with seamQ := s.seamQ.filter fun q => !(decide ((q.die, q.ctx) = (d, k)) || decide ((q.die, q.ctx) = (e, j))) }

/-- The path of a seam no longer carries what is on its way. -/
def pathCut (s : State) (d e : Nat) : Bool :=
  let up := fun d => running s (pgSeam d) || decide (pstate s (pgSeam d) = stShutting)
  !up d || !up e || isolated s d || isolated s e || (decide (d ≠ e) && !(seamPort s d e && seamPort s e d))

/-- Put a seam into a state (R165): `SEAM_INFO`, SEAM_UP and SEAM_DOWN; at UP the FALLBACK bits are exchanged and the
owner holds a credit for each free slot of the partner. -/
def seamSet (s : State) (d k st cause : Nat) : State :=
  let x := ctx s d k
  if x.seam = st ∧ x.seamCause = cause then s
  else
    let (e, j) := seamPeer s d k
    let s0 := if st = 2 ∨ (x.seam = 2 ∧ pathCut s d e) then seamPurge s d k e j else s
    let s1 := setCtx s0 d k { x with
      seam := st, seamCause := cause
      seamIdle := if st = 3 ∨ st = 4 ∨ cause = 4 then decide (x.st = .idle) else x.seamIdle
      shares := if st = 2 then [] else x.shares
      peerFallback := if st = 2 then seamFallback s e j else x.peerFallback
      credits := if st = 2 ∧ seamRole s d k = 1 then freeSlots s e j else x.credits }
    let s2 := wr s1 (pgSeam d) Off.SEAM_INFO (word (k % 256 * 2 ^ 8 + seamRole s d k * 2 ^ 4 + st))
    let s3 := whenDo (decide (x.seam = 2)) s2 (raise · (pgSeam d) 2)
    whenDo (decide (st = 2)) s3 (raise · (pgSeam d) 3)

/-- Bring both sides of a context's seam to the states that hold now (R165); without a seam descriptor the context is in no
seam. -/
def seamUpdate (s : State) (d k : Nat) : State :=
  if seamRole s d k = 0 then seamSet s d k 0 0
  else
    let (e, j) := seamPeer s d k
    let (a, ca) := seamNext s d k
    let (b, cb) := if e < s.part.dies ∧ seamPeer s e j = (d, k) then seamNext s e j else (0, 0)
    let s1 := seamSet s d k a ca
    if e < s.part.dies ∧ seamPeer s e j = (d, k) then seamSet s1 e j b cb else s1

/-- A share is on its way to or from a die (R172). -/
def shareBusy (s : State) (d : Nat) : Bool :=
  s.seamQ.any fun q => q.vals.isSome && (decide (q.die = d) || decide ((seamPeer s q.die q.ctx).1 = d))

/-- Every seam with a side on a die is brought up to date (R165, R172). -/
def seamsUpdate (s : State) (d : Nat) : State := each (List.range (nCtx s)) s fun s k => seamUpdate s d k

end Sys2Proof.Machine
end

