-- ==== Sys2Proof/Machine/Ctx.lean ====
section
/-!
DEFINITION. Jet contexts as the shared operations of their commands and policies: state changes of a group (R124 to
R127), stall timers (R138), fences (R144), hand-overs of descriptors (R119 to R121) and their checks (R161, R176,
R203).
-/
namespace Sys2Proof.Machine

/-! Modes (R24, R28). -/

/-- Maximum jetting frequency of a mode (R24). -/
def modeMax (m : Nat) : Nat :=
  match m with | 3 => 20000 | 4 => 60000 | 5 => 80000 | 6 => 100000 | 7 => 40000 | _ => 0
/-- The mode in force on a die. -/
def modeOf (s : State) (d : Nat) : Nat := rf s (pgMode d) Off.MODE_CUR 0 3
/-- A request waits for its switch tick. -/
def inTransition (s : State) : Bool := rb s (pgMode 0) Off.MODE_CUR 8
/-- A cycle rate lies within the limit of the mode in force and of the mode to come (R28, R29). -/
def rateOk (s : State) (d rate : Nat) : Bool :=
  decide (rate ≤ modeMax (modeOf s d)) && (!inTransition s || decide (rate ≤ modeMax s.pkg.nextMode))

/-! Records and counters of a context. -/

/-- The link of a context in a fault record (R412). -/
def ctxLink (s : State) (d k cause : Nat) : Link := ⟨0x19, k, cause, (ctx s d k).doneN % 2 ^ 24⟩

/-- A policy pauses or fences a context: one record (R411, R412). -/
def ctxRecord (s : State) (d k cause : Nat) (fences : Bool) : State :=
  logRecord s d d { fenced := fences, cause := ctxLink s d k cause, reason := if fences then cause else 0 }

/-- Saturating 12-bit count. -/
def inc12 (n : Nat) : Nat := min (n + 1) 4095

/-- `CNT_LATE` and LATE (R127, R135). -/
def ctxLate (s : State) (d k : Nat) : State :=
  ctxEvt (setCtx s d k { ctx s d k with cntLate := inc12 (ctx s d k).cntLate }) d k 13

/-- `CNT_NULL` (R137, R190). -/
def ctxNull (s : State) (d k : Nat) : State :=
  setCtx s d k { ctx s d k with cntNull := min ((ctx s d k).cntNull + 1) 0xFFFFFF }

/-- A line of a context is completed, as blank or skipped with DEGRADED (R122). -/
def lineDone (s : State) (d k : Nat) (blank : Bool) : State :=
  let x := ctx s d k
  if x.st = .idle then s else setCtx s d k { x with doneN := (x.doneN + 1) % 2 ^ 24, degraded := x.degraded || blank }

/-- DEGRADED is set in a context that is not IDLE. -/
def ctxDegraded (s : State) (d k : Nat) : State :=
  if (ctx s d k).st = .idle then s else setCtx s d k { ctx s d k with degraded := true }

/-! Stall timers (R138). -/

/-- `STALL_TMO` in ticks; 0 is off. -/
def stallTmo (s : State) (d k : Nat) : Nat := af s d k 48 8 16 * 256

/-- A frame of the group is being retried (R138, R240). -/
def groupRetry (s : State) (d p g : Nat) : Bool :=
  (port s d p).outst.any fun f => decide (f.tries ≠ 0) && decide (f.kind ≤ 2) && decide (f.fg = g)

/-- The timer runs (R138): the context prints, its latest cycle was NULL or not delivered, the time-out is on, and no frame
of the group is being retried. -/
def stallOn (s : State) (d k : Nat) : Bool :=
  let x := ctx s d k
  decide (x.st = .printing) && x.stallBad && decide (stallTmo s d k ≠ 0) && !groupRetry s d (cPort s d k) (cFg s d k)

/-- Ticks the timer has run. -/
def stallTime (s : State) (d k : Nat) : Nat :=
  let x := ctx s d k
  if x.stallRun then x.stallAcc + (s.clock - x.stallAt) else x.stallAcc

/-- The timer stops or goes on as R138 has it now. -/
def stallFollow (s : State) (d k : Nat) : State :=
  if (ctx s d k).stallRun = stallOn s d k then s
  else setCtx s d k { ctx s d k with stallRun := stallOn s d k, stallAcc := stallTime s d k, stallAt := s.clock }

/-- A cycle with data of the context was delivered: the timer resets (R138). -/
def stallReset (s : State) (d k : Nat) : State :=
  setCtx s d k { ctx s d k with stallBad := false, stallRun := false, stallAcc := 0 }

/-- A cycle with a line of the context was NULL or not delivered (R138). -/
def stallMark (s : State) (d k : Nat) : State := stallFollow (setCtx s d k { ctx s d k with stallBad := true }) d k

/-- Change the frames of a port: the stall timers of a group pause while a frame of it is being retried and go on when
none is (R138), and `SY_STAT` follows. -/
def withRetry (s : State) (d p g : Nat) (f : State → State) : State :=
  let s1 := f s
  linkStat (each (members s1 d p g) s1 fun s k => stallFollow s d k) d p

/-! Moved drops (R217). -/

/-- Entries of a context that leaves PRINTING or DRAINING are discarded and their drops lost (R217). -/
def dropMoved (s : State) (d k : Nat) : State :=
  let x := echo s d
  let gone := x.moved.filter fun e => e.1 = k
  if gone = [] then s
  else
    let s1 := setEcho s d { x with moved := x.moved.filter fun e => e.1 ≠ k }
    raise (countBy s1 (pgEcho d) Off.LOST_DROPS gone.length) (pgEcho d) 4

/-- The running sweep of a die is broken if its context satisfies `f` (R214). -/
def sweepBreak (s : State) (d : Nat) (f : Nat → Bool) : State :=
  let x := echo s d
  if f (rf s (pgEcho d) Off.SWEEP_CFG 16 8) then setEcho s d { x with sweep := { x.sweep with broken := true } } else s

/-- Measurements of a context in progress become STALE (R209). -/
def staleMeas (s : State) (d k : Nat) : State :=
  setEcho s d { echo s d with meas := (echo s d).meas.map fun m => if m.ctx = k then { m with stale := true } else m }

/-! Fences (R144). -/

/-- A context is fenced (R126, R144): no line is bound, its bound lines become NULL, and its seam follows. A second
fence changes nothing. -/
def ctxFence (s : State) (d k cause : Nat) : State :=
  let x := ctx s d k
  if x.st = .fenced ∧ ¬x.rejoin then s
  else
    let s1 := withdrawAll s d k fun _ => true
    let s2 := stallFollow (setCtx s1 d k { ctx s1 d k with
      st := .fenced, before := if x.st = .fenced then x.before else x.st, cause := cause, rejoin := false }) d k
    seamUpdate (sweepBreak (staleMeas (dropMoved (ctxEvt s2 d k 6) d k) d k) d fun j => decide (j = k)) d k

/-- The context consumed a poisoned word whose report already names the fence as its effect (R144, R311). -/
def ctxPoison (s : State) (d k : Nat) : State := ctxFence s d k 0x0B

/-- The effect that a poisoned word has on a context that consumes it (R311). -/
def poisonEff (s : State) (d k : Nat) : Option Link :=
  if (ctx s d k).st = .fenced then none else some (ctxLink s d k 0x0B)

/-- Read words of the dual-port store or the lode for a context; a poisoned one fences it (R311). -/
def ctxRead (s : State) (d k : Nat) (dps : Bool) (w n : Nat) : List Word × Bool × State :=
  let (vs, bad, s1) := readWords n s d dps w 0 (poisonEff s d k) 0x0B
  (vs, bad, if bad then ctxPoison s1 d k else s1)

/-! Descriptor checks (R161). -/

/-- First nozzle and COUNT of a context: latched while bound (R121). -/
def ctxRange (s : State) (d k : Nat) : Nat × Nat :=
  if bound s d k then (cFirst s d k, cCount s d k) else (af s d k 1 12 12, af s d k 1 0 12)

/-- Rows outside the context's nozzles, or a step of 0. -/
def rowsBad (s : State) (d k : Nat) : Bool :=
  let (f, c) := ctxRange s d k
  (geoAll s d k).any fun r => decide (r.nozFirst < f) || decide (f + c < r.nozFirst + r.nozCount) || decide (r.step = 0)

/-- The line store is too small or extends beyond the lode. -/
def lineStoreBad (s : State) (d k : Nat) : Bool :=
  decide (geoDepth s d k < offMax s d k + 2) || decide (2097152 < geoLs s d k + geoDepth s d k * slotWords s d k)

/-- The seam descriptor breaks a rule of R162. A peer that is not bound has no descriptor in force to compare. -/
def seamBad (s : State) (d k : Nat) : Bool :=
  let (e, j) := seamPeer s d k
  !(decide (seamRole s d k = 1) || decide (seamRole s d k = 2)) || (decide (seamRole s d k = 1) && decide (2 < seamRamp s d k))
    || decide (1024 < seamK s d k) || decide (geoCols s d k < seamFirst s d k + seamK s d k)
    || !(decide (e = d) || (burimPort s.part.dies d e).isSome)
    || (decide (e < s.part.dies) && bound s e j && !seamMatch s d k e j)

/-- The mask fields are invalid. -/
def maskBad (s : State) (d k : Nat) : Bool :=
  let n := (af s d k 26 12 12 + 1) * (af s d k 26 0 12 + 1)
  decide (af s d k 24 4 4 < af s d k 24 8 4)
    || (decide (af s d k 24 0 2 = 1) && (decide (1048576 < n) || decide (2097152 < af s d k 25 0 21 + ceilDiv n 6)))

/-- An invalid descriptor is reported (R161). -/
def geomReport (s : State) (d k code : Nat) : State :=
  let s1 := setCtx s d k { ctx s d k with geomBad := true }
  raise (wr s1 (pgSeam d) Off.GEOM_BAD_INFO (word (k % 256 * 2 ^ 8 + code))) (pgSeam d) 1

/-- Check the seam and mask descriptors, after a good geometry (R161). -/
def checkSeamMask (s : State) (d k : Nat) : State :=
  if lineStoreBad s d k then geomReport s d k 2
  else if seamRole s d k ≠ 0 ∧ seamBad s d k then geomReport s d k 3
  else if maskBad s d k then geomReport s d k 4
  else s

/-- Read and check the geometry, seam and mask descriptors (R157, R161, R162). -/
def readDescr (s : State) (d k : Nat) : State :=
  let g := af s d k 18 0 17
  let sp := af s d k 19 0 17
  let s0 := setCtx s d k { ctx s d k with geomBad := false, geom := [], seamD := [] }
  if g < 16384 ∨ 131072 < g + 4 ∨ (sp ≠ 0 ∧ (sp < 16384 ∨ 131072 < sp + 8)) then geomReport s0 d k 5
  else
    let (h, bad, s1) := ctxRead s0 d k true g 4
    if bad then s1
    else
      let rows := fld (h.getD 0 0#24) 20 4 + 1
      if 131072 < g + 4 + 3 * rows then geomReport s1 d k 5
      else
        let (r, bad2, s2) := ctxRead s1 d k true (g + 4) (3 * rows)
        if bad2 then s2
        else
          let (sd, bad3, s3) := if sp = 0 then ([], false, s2) else ctxRead s2 d k true sp 8
          if bad3 then s3
          else
            let s4 := setCtx s3 d k { ctx s3 d k with geom := h ++ r, seamD := sd }
            if rowsBad s4 d k then geomReport s4 d k 1
            else if sp ≠ 0 ∧ seamRole s4 d k = 0 then geomReport s4 d k 3 else checkSeamMask s4 d k

/-- The descriptors are read and checked, and the seams that they make or end are brought up to date: the context's own, and
the one of the peer that it named before (R161, R165). -/
def checkDescr (s : State) (d k : Nat) : State :=
  let (e, j) := seamPeer s d k
  let s1 := seamUpdate (readDescr s d k) d k
  if seamRole s d k ≠ 0 ∧ e < s.part.dies then seamUpdate s1 e j else s1

/-! The nozzle map (R201, R203). -/

/-- The nozzle table extends beyond the lode (R201). -/
def tableBad (s : State) (d k : Nat) : Bool := decide (2097152 < af s d k 41 0 21 + 8 * ((ctxRange s d k).2 + 1))

/-- The map is to be loaded again (R203); an invalid table is reported and leaves every nozzle UNKNOWN (R201). On
tiers 08 and 16 there is no map (R223). -/
def mapReload (s : State) (d k : Nat) : State :=
  if !is16E s then setCtx s d k { ctx s d k with mapReady := true, map := [] }
  else if tableBad s d k then
    let s1 := setCtx s d k { ctx s d k with map := [], mapReady := true, ntBad := true, limitSeen := false }
    raise (wr s1 (pgEcho d) Off.NT_BAD_INFO (word (k % 256 * 2 ^ 8))) (pgEcho d) 7
  else setCtx s d k { ctx s d k with map := [], mapReady := false, ntBad := false, limitSeen := false }

/-- CTX_DIFF (R176): words 32 or 33 of a timing context differ from the lead context's. -/
def ctxDiff (s : State) (d k : Nat) : State :=
  match leadCtx s d (cPort s d k) with
  | none => s
  | some l =>
    if bound s d k && cTiming s d k && decide (l ≠ k) && (decide (aw s d l 32 ≠ aw s d k 32) || decide (aw s d l 33 ≠ aw s d k 33))
    then raise s (pgHp d (cPort s d k)) 6 else s

/-! Hand-over (R119 to R121). -/

/-- Offset of a context's commit word. -/
def commitOff (k : Nat) : Nat := Off.CTX_COMMIT + 4 * k
/-- `CTX_COMMIT_k.GO`. -/
def ctxGo (s : State) (d k : Nat) : Bool := rb s (pgCtx d) (commitOff k) 0
/-- `CTX_COMMIT_k.BOUNDARY`. -/
def ctxBoundary (s : State) (d k : Nat) : Nat := rf s (pgCtx d) (commitOff k) 4 3

/-- The 56 words of the shadow copy become active in one tick (R117, R119): COUNT, GO, HANDED_OVER; the descriptors are
checked (R161), CTX_DIFF is judged (R176), and a changed `NT_PTR.ADDR` reloads the map (R203). -/
def ctxHandOver (s : State) (d k : Nat) : State :=
  let (ws, bad, s1) := ctxRead s d k true (64 * k) 56
  if bad then s1
  else
    let old := (ctx s1 d k).act
    let nt := af s1 d k 41 0 21
    let act := ws.zipIdx.map fun x => (x.2, descWord x.2 (Tbl.get old x.2 0#24) x.1)
    let s2 := setCtx s1 d k { ctx s1 d k with act := act }
    let c := rd s2 (pgCtx d) (commitOff k)
    let s3 := wr s2 (pgCtx d) (commitOff k) (setFld (setFld c 0 1 0) 8 8 (fld c 8 8 + 1))
    let s4 := stallFollow (checkDescr (ctxDiff (ctxEvt s3 d k 7) d k) d k) d k
    if bound s4 d k && decide (af s4 d k 41 0 21 ≠ nt) then staleMeas (mapReload s4 d k) d k else s4

/-- A pending hand-over that its state lets take place at once (R120). -/
def tryHandOver (s : State) (d k : Nat) : State :=
  let x := ctx s d k
  if ctxGo s d k && (decide (x.st = .idle) || decide (x.st = .armed)
      || (decide (ctxBoundary s d k = 0) && (decide (x.st = .printing) || decide (x.st = .paused)))) then ctxHandOver s d k
  else s

/-! State changes. -/

/-- The event of entering a state (R146). -/
def entryEvt (old new : CState) : Option Nat :=
  match new with
  | .idle => some 5 | .armed => some 0 | .paused => some 2 | .fenced => some 6 | .draining => none
  | .printing => (match old with | .armed => some 1 | .paused => some 3 | _ => none)

/-- The context's block in the assembler is discarded, and the rest of it as it comes. -/
def blkDrop (s : State) (d k : Nat) : State :=
  let c := (ctx s d k).inChute
  let x := chute s d c
  match x.blk with
  | none => s
  | some b =>
    if b.ctx = k then setChute s d c { x with blk := none, skip := blockLen b.head - b.got.length } else s

/-- The other-pass set of a swathe that leaves the assembler (R218): the mask line of its last image line is settled, or
where that never came, it reaches to the line before its first. -/
def opClose (x : CtxSt) (o : OpSet) : OpSet :=
  if o.closed then o
  else
    let e := match x.imgEnds.find? fun e => decide (e.1 = o.sw) with | some e => e.2 | none => 2 ^ 24
    { o with closed := true, yLast := (o.yFirst + e + 2 ^ 24 - 1) % 2 ^ 24 }

/-- The line assembler state of a context is discarded (R126, R144); its other-pass set serves its next swathe (R218). -/
def discardAsm (s : State) (d k : Nat) : State :=
  let s0 := blkDrop s d k
  setCtx s0 d k { ctx s0 d k with
    lines := [], blanks := [], gaps := [], shares := [], built := [], nextBuild := 0, wrapped := false, lineL := 0
    swIn := 0, swBuild := 0, imgEnds := [], opSet := (ctx s0 d k).opSet.map (opClose (ctx s0 d k)), opUse := none
    opSw := none }

/-- One context enters a state, with its cause (R122, R125, R126). -/
def ctxEnter (s : State) (d k : Nat) (st : CState) (cause : Nat) : State :=
  let x := ctx s d k
  if x.st = st then s
  else
    let s0 := if st = .idle then withdrawAll s d k (fun _ => true) else s
    let s1 := stallFollow (setCtx s0 d k { ctx s0 d k with
      st := st
      cause := if st = .paused ∨ st = .idle then cause else x.cause
      rejoin := false
      skipDue := if st = .idle ∨ st = .armed then false else x.skipDue
      aborting := if st = .idle then false else x.aborting
      turning := if st = .printing ∨ st = .paused then x.turning else false
      fireNext := if st = .printing ∨ st = .paused then x.fireNext else none
      armedAt := if st = .armed then s.clock else x.armedAt
      pdFrom := if st = .armed then s.clock else x.pdFrom
      seamIdle := if st = .idle then true else x.seamIdle
      throttled := if st = .idle then false else x.throttled }) d k
    let s2 := match entryEvt x.st st with | none => s1 | some i => ctxEvt s1 d k i
    let s3 := if st = .printing ∨ st = .draining then s2 else dropMoved s2 d k
    let s4 := sweepBreak (if st = .idle then staleMeas s3 d k else s3) d fun j => decide (j = k) && decide (st ≠ .printing)
    let s5 := tryHandOver (seamUpdate s4 d k) d k
    if st = .armed then mapReload (checkDescr s5 d k) d k else s5

/-- A context and the members that move with it enter a state: the others with `CAUSE` = GROUP (R124). A released
follower that waits to rejoin follows its timing context into IDLE or ARMED (R127). -/
def ctxMove (s : State) (d k : Nat) (st : CState) (cause : Nat) : State :=
  let ms := movers s d k
  let rj := if bound s d k then (members s d (cPort s d k) (cFg s d k)).filter fun m => (ctx s d m).rejoin else []
  let s1 := each ms s fun s m => ctxEnter s d m st (if m = k then cause else 7)
  if st = .idle ∨ st = .armed then each rj s1 fun s m => ctxEnter s d m st 7 else s1

/-- The group's bound cycles that have not fired. -/
def unfired (s : State) (d p g : Nat) : List Cycle := (port s d p).cycles.filter fun c => decide (c.fg = g) && !c.fired

/-- An ABORT takes effect (R126): IDLE, the line assembler state discarded, the chute untouched. -/
def ctxAbortNow (s : State) (d k : Nat) : State :=
  let x := ctx s d k
  let by_ := if (ctx s d x.abortBy).st = .fenced then k else x.abortBy
  let ms := movers s d by_
  let s1 := ctxMove s d by_ .idle x.abortCause
  each ms s1 fun s m => discardAsm s d m

/-- An ABORT waits for the group's next cycle (R126); without a bound cycle it takes effect at once. -/
def ctxAbortAt (s : State) (d by_ cause : Nat) : State :=
  let k := leader s d by_
  let s1 := setCtx s d k { ctx s d k with aborting := true, abortBy := by_, abortCause := cause }
  if unfired s d (cPort s d k) (cFg s d k) = [] then ctxAbortNow s1 d k else s1

/-- A policy action PAUSE of a member: PAUSED from PRINTING, as ABORT from DRAINING (R126). -/
def ctxPolicyPause (s : State) (d k cause : Nat) : State :=
  match (ctx s d k).st with
  | .printing => ctxMove s d k .paused cause
  | .draining => ctxAbortAt s d k cause
  | _ => s

end Sys2Proof.Machine
end

