-- ==== Sys2Proof/Machine/Time.lean ====
section
/-!
DEFINITION. Time: the tick counters (R64, R65), an event row whose due time lies ahead, hand-overs of register pages
(R47), and messages to the jet islands (R107).
-/
namespace Sys2Proof.Machine

/-- The PLL of a die does not run: in STANDBY, or while it is unlocked (R62, R63). -/
def pllOff (s : State) (d : Nat) : Bool := !(die s d).pllLocked || decide (modeOf s d = 1)

/-- By how much a die's counter advances in the `n` ticks from clock `c` on: by 5 on each crystal cycle while its PLL does
not run (R62, R63). The crystal's edges stand at the clocks that 5 divides (DESIGN CHOICE: their phase is open). -/
def tickGain (s : State) (c n d : Nat) : Nat := if pllOff s d then 5 * ((c + n) / 5 - c / 5) else n

/-- The tick counter of one die advances (R65): WRAP latches when it passes 2^48 − 1. A counter that has not been
started, or is stopped in DORMANT, stands (R64). -/
def dieTicks (s : State) (c n d : Nat) : State :=
  let x := die s d
  let t := x.tick + tickGain s c n d
  if !x.counting then s
  else
    let s1 := setDie s d { x with tick := t % tickMod }
    whenDo (decide (tickMod ≤ t)) s1 (raise · (pgTb d) 3)

/-- `n` ticks pass on every die. -/
def ticksPass (s : State) (n : Nat) : State :=
  each (dieList s) { s with clock := s.clock + n } fun t d => dieTicks t s.clock n d

/-- The ticks that pass until a die's counter has advanced by `n` (R62, R63). -/
def ticksFor (s : State) (d n : Nat) : Nat :=
  if n = 0 then 0 else if pllOff s d then (s.clock / 5 + ceilDiv n 5) * 5 - s.clock else n

/-- Wait until the model clock reads `c`, if it does not yet. -/
def waitClock (s : State) (c : Nat) : State := if c ≤ s.clock then s else ticksPass s (c - s.clock)

/-- Wait until die `d`'s counter reaches a tick, if it lies ahead (R65). -/
def waitTick (s : State) (d : Nat) (t : Int) : State :=
  let n := sgn 48 (uns 48 (t - (now s d : Int)))
  if n ≤ 0 then s else ticksPass s (ticksFor s d n.toNat)

/-- The next clock at which a die's tick is a multiple of `per`, after the last one served. -/
def nextAt (s : State) (d per : Nat) (last : Option Nat) : Nat :=
  let t := now s d
  let n := min (ceilDiv t per * per) tickMod
  let c := s.clock + (n - t)
  if last = some c then c + per else c

/-- The first whole tick at or after an instant in fine steps. -/
def ceilTick (t : Int) : Int := (t + 15) / 16

/-- The clock at which a commit word was last given GO. -/
def goAt (s : State) (p : Pg) (off : Nat) : Nat := Tbl.get s.gos (p, off) 0

/-- GO was written before this tick (R47 rule 2). -/
def goBefore (s : State) (p : Pg) (off : Nat) : Bool := decide (goAt s p off < s.clock) || decide (goAt s p off = 0)

/-- Offsets of the RWS registers of a page. -/
def rwsOffs (p : Pg) : List Nat :=
  ((pgKind p).rows.filter fun r => decide (r.acc = .rws)).flatMap fun r =>
    (List.range r.count).map fun i => r.off + i * r.stride

/-- Every RWS register of a page takes its shadow value, GO clears, COUNT increments and HANDED_OVER latches (R47). -/
def takeShadows (s : State) (p : Pg) : State :=
  let s1 := each (rwsOffs p) s fun t o => wr t p o (rdShadow s p o)
  let c := rd s1 p Off.COMMIT
  raise (wr s1 p Off.COMMIT (setFld (setFld c 0 1 0) 8 8 (fld c 8 8 + 1))) p 23

/-- A step of the counters that waits (R75) is withdrawn. -/
def stepDrop (s : State) : State := wb { s with tsync := { s.tsync with step := none } } pgTsync Off.TS_STAT 4 false

/-- Hand a message to the jet island of a die: it arrives 12 ticks later (R16, R107). -/
def sendMsg (s : State) (d c : Nat) (k : MsgKind) : State :=
  { s with msgs := s.msgs ++ [⟨d, c, s.clock + 12, k⟩] }

/-- The first message in flight to die `d` for which `f` holds, and the state in which it has arrived. -/
def takeMsg (s : State) (d : Nat) (f : Msg → Bool) : Option (Msg × State) :=
  match s.msgs.find? fun m => decide (m.die = d) && f m with
  | none => none
  | some m => some (m, waitClock { s with msgs := s.msgs.erase m } m.due)

end Sys2Proof.Machine
end

