-- ==== Sys2Proof/Machine/Assay.lean ====
section
/-!
DEFINITION. Assay calibration: channels, triggers and queue, runs, checks, temperature tables, codes in force, saving
and restoring (R323 to R338).
-/
namespace Sys2Proof.Machine

/-! Channels (R323). Class 0 TIMING, 1 DAC, 2 ADC; channel index c = 17 × class + p. -/

/-- Class and port position of a channel index. -/
def asClass (c : Nat) : Nat := c / 17
def asPos (c : Nat) : Nat := c % 17

/-- The channel is present. -/
def asPresent (s : State) (c : Nat) : Bool :=
  decide (c < 51) && (decide (asPos c = 16) || decide (asPos c < nPorts s)) && (decide (asClass c ≠ 2) || is16E s)

/-- The present channels in ascending order. -/
def asAll (s : State) : List Nat := (List.range 51).filter (asPresent s)

def asChan (s : State) (d c : Nat) : AsChan := Tbl.get (assay s d).chans c {}
def setAsChan (s : State) (d c : Nat) (x : AsChan) : State :=
  setAssay s d { assay s d with chans := Tbl.put (assay s d).chans c x }

/-- The island that holds a channel (R323, R340): the port's jet island, or for a spare the timebase island. -/
def asIsland (c : Nat) : Nat := if asPos c = 16 then 0 else 1 + asPos c / 4

/-- An island's reported temperature (R340). -/
def islTemp (s : State) (d i : Nat) : Int := sgn 16 (rf s (pgThermal d) (Off.TH_ISL + 4 * i) 0 16)

/-! Queue (R325, R326). -/

/-- Rank of a kind, the lowest first served. -/
def asRank (kind : Nat) : Nat :=
  match kind with | 1 => 0 | 6 => 1 | 2 => 2 | 3 => 3 | 4 => 4 | _ => 5

/-- The internal oscillator runs the timebase (R61). -/
def noXtal (s : State) (d : Nat) : Bool := rb s (pgTb d) Off.TB_STAT 0

/-- Modes IDLE to HUSHED. -/
def awake (s : State) (d : Nat) : Bool := decide (2 ≤ modeOf s d) && decide (modeOf s d ≤ 7)

/-- Queue a channel, or raise the kind of its entry (R326); a channel whose run is in progress is queued for another. Outside
start-up no trigger acts in DORMANT and STANDBY (R325). -/
def asQueue (s : State) (d c kind : Nat) : State :=
  let x := asChan s d c
  if !asPresent s c || !running s (pgAssay d) || !(awake s d || decide (kind = 6)) || (noXtal s d && decide (asClass c = 0)) then s
  else if x.queued = 0 ∨ asRank kind < asRank x.queued then setAsChan s d c { x with queued := kind }
  else s

/-- TEMPERATURE trigger of a channel at its island's update (R325). -/
def asTempTrigger (s : State) (d c : Nat) : State :=
  let t := max 16 (rf s (pgAssay d) Off.AS_THRESH 0 16) * (if modeOf s d = 7 then 2 else 1)
  let x := asChan s d c
  if rb s (pgAssay d) Off.AS_CFG 0 && decide (t < (islTemp s d (asIsland c) - x.lastTemp).natAbs) then asQueue s d c 3
  else s

/-- HOURLY trigger at a seconds edge (R325). -/
def asHourly (s : State) (d : Nat) : State :=
  if rb s (pgAssay d) Off.AS_CFG 2 && decide (modeOf s d = 5) && decide (s.pkg.seconds % 3600 = 0) then
    each (asAll s) s fun s c => asQueue s d c 4
  else s

/-- The channels of a class that are queued. -/
def asWaiting (s : State) (d cls : Nat) : List Nat :=
  (asAll s).filter fun c => decide (asClass c = cls) && decide ((asChan s d c).queued ≠ 0)

/-- The channel a class runs. -/
def asActive (s : State) (d cls : Nat) : Option Nat :=
  match Tbl.get (assay s d).active cls 0 with | 0 => none | n + 1 => some n
def setAsActive (s : State) (d cls : Nat) (c : Option Nat) : State :=
  setAssay s d { assay s d with active := Tbl.put (assay s d).active cls (match c with | none => 0 | some c => c + 1) }

/-- ROTATION: a class without a run and with an empty queue takes the next present channel (R325). -/
def asRotate (s : State) (d cls : Nat) : State :=
  if rb s (pgAssay d) Off.AS_CFG 2 && decide (modeOf s d = 4) && decide (asActive s d cls = none) && decide (asWaiting s d cls = []) then
    let l := (asAll s).filter fun c => decide (asClass c = cls)
    let last := Tbl.get (assay s d).lastRot cls 0
    match (l.filter fun c => decide (last < c + 1)) ++ l with
    | [] => s
    | c :: _ =>
      let s1 := asQueue s d c 5
      if (asChan s1 d c).queued = 0 then s
      else setAssay s1 d { assay s1 d with lastRot := Tbl.put (assay s1 d).lastRot cls (c + 1) }
  else s

/-- At T_sw of a mode change, HOURLY and ROTATION entries without their mode leave the queue (R326). -/
def asModeChange (s : State) (d : Nat) : State :=
  each (asAll s) s fun s c =>
    let x := asChan s d c
    if (x.queued = 4 ∧ modeOf s d ≠ 5) ∨ (x.queued = 5 ∧ modeOf s d ≠ 4) then setAsChan s d c { x with queued := 0 }
    else s

/-! Codes (R328 to R332). -/

/-- Nominal position of tap `i` and tap distance in 1/64 of the correction LSB (R323). -/
def asNominal (cls i : Nat) : Int :=
  match cls with | 0 => 512 * i | 1 => 16384 * i | _ => 8192 + 16384 * i
def asStep (cls : Nat) : Int := if cls = 0 then 512 else 16384

/-- The correction of a measured position (R328). -/
def asCorr (cls i : Nat) (p : Int) : Int := roundAway (asNominal cls i - p) 64

/-- The result of a run's checks (R329). -/
def asCheck (s : State) (d cls : Nat) (xtalLost : Bool) (p : List Int) : Nat :=
  let at_ (i : Nat) : Int := p.getD i 0
  let q (i : Nat) : Int := at_ i + 64 * asCorr cls i (at_ i)
  let pct : Int := (clampN 1 90 (rf s (pgAssay d) Off.AS_LIMIT 8 8) : Nat)
  let span : Int := (rf s (pgAssay d) Off.AS_LIMIT 0 8 : Nat)
  let st := asStep cls
  let steps := (List.range 15).map (· + 1)
  if steps.any fun i => decide ((at_ i - at_ (i - 1)) * 100 < (100 - pct) * st ∨ (100 + pct) * st < (at_ i - at_ (i - 1)) * 100) then 2
  else if steps.any fun i => decide (q i ≤ q (i - 1)) then 3
  else if (List.range 16).any fun i => decide (asCorr cls i (at_ i) < -32 ∨ 31 < asCorr cls i (at_ i)) then 4
  else if span * 15 * st < ((at_ 15 - at_ 0 - 15 * st).natAbs : Int) * 1000 then 5
  else if decide (cls = 0) && xtalLost then 6
  else 1

/-- The four words of sixteen signed 6-bit codes (R330). -/
def codeWords (c : List Int) : List Word :=
  (List.range 4).map fun w => word (((List.range 4).map fun k => uns 6 (c.getD (4 * w + k) 0) * 2 ^ (6 * k)).sum)

/-- A point: validity, temperature, codes (R330). -/
def ptValid (w : List Word) : Bool := bit (w.getD 0 0#24) 23
def ptTemp (w : List Word) : Int := sgn 16 (fld (w.getD 0 0#24) 0 16)
def ptCode (w : List Word) (i : Nat) : Int := sgn 6 (fld (w.getD (1 + i / 4) 0#24) (6 * (i % 4)) 6)
def mkPoint (t : Int) (c : List Int) : List Word := word (2 ^ 23 + uns 16 t) :: codeWords c

/-- Point `k` of a channel. -/
def point (x : AsChan) (k : Nat) : List Word := Tbl.get x.points k [0#24, 0#24, 0#24, 0#24, 0#24]

/-- The valid point nearest to a temperature, the lower-numbered on a tie (R331). -/
def nearestPoint (x : AsChan) (t : Int) : Option Nat :=
  (List.range 8).foldl (fun (best : Option Nat) k =>
    if !ptValid (point x k) then best
    else match best with
      | none => some k
      | some b => if (ptTemp (point x k) - t).natAbs < (ptTemp (point x b) - t).natAbs then some k else some b) none

/-- Store the codes of a passed run (R331). -/
def storePoint (x : AsChan) (merge : Nat) (t : Int) (c : List Int) : AsChan :=
  let near := nearestPoint x t
  let slot := match near with
    | some k =>
      if (ptTemp (point x k) - t).natAbs ≤ merge then k
      else match (List.range 8).find? fun k => !ptValid (point x k) with
        | some j => j
        | none => k
    | none => 0
  { x with points := Tbl.put x.points slot (mkPoint t c) }

/-- Insert a point into a list sorted by temperature. -/
def insPoint (w : List Word) : List (List Word) → List (List Word)
  | [] => [w]
  | v :: r => if ptTemp w < ptTemp v then w :: v :: r else v :: insPoint w r

/-- The codes of a channel at a temperature (R332). -/
def codesAt (x : AsChan) (t : Int) : List Int :=
  let v := ((List.range 8).map (point x)).filter ptValid |>.foldr insPoint []
  let get (j i : Nat) : Int := ptCode (v.getD j []) i
  let temp (j : Nat) : Int := ptTemp (v.getD j [])
  let n := v.length
  (List.range 16).map fun i =>
    if n = 0 then 0
    else if n = 1 ∨ t ≤ temp 0 then get 0 i
    else if temp (n - 1) ≤ t then get (n - 1) i
    else
      let j := ((List.range n).filter fun j => decide (temp j ≤ t)).getLastD 0
      let f := (t - temp j) * 256 / (temp (j + 1) - temp j)
      roundAway (get j i * (256 - f) + get (j + 1) i * f) 256

/-- A port's cycle boundary is not waited for: no context of the port is outside IDLE, or the HP page is not RUNNING
(R327). -/
def portIdle (s : State) (d p : Nat) : Bool :=
  !running s (pgHp d p) || !(List.range (nCtx s)).any fun k => bound s d k && decide (cPort s d k = p) && decide ((ctx s d k).st ≠ .idle)

/-- The port at whose cycle boundary the codes of a channel change (R332): its own, or for a spare the port that it serves
now; 16 for a spare without one. -/
def asPort (s : State) (d c : Nat) : Nat :=
  if asPos c ≠ 16 then asPos c
  else match (asAll s).find? fun b => decide (asClass b = asClass c) && (asChan s d b).lent with
    | some b => asPos b
    | none => 16

/-- The codes computed for a channel come into force (R332). -/
def asApply (s : State) (d c : Nat) : State :=
  let x := asChan s d c
  match x.next with
  | none => s
  | some l => setAsChan s d c { x with applied := l, next := none }

/-- The codes are recomputed at a temperature update (R332). -/
def asCodes (s : State) (d c : Nat) : State :=
  let x := asChan s d c
  let s1 := setAsChan s d c { x with next := some (codesAt x (islTemp s d (asIsland c))) }
  if asPort s d c = 16 ∨ portIdle s d (asPort s d c) then asApply s1 d c else s1

/-- Trigger and codes of every channel at the 10 ms update (R325, R332). -/
def asTempUpdate (s : State) (d : Nat) : State :=
  each (asAll s) s fun s c => asCodes (asTempTrigger s d c) d c

/-! Runs (R326, R327). -/

/-- The tick at which the last cycle bound so far on a port ends. -/
def portEnd (s : State) (d p : Nat) : Int :=
  let x := port s d p
  ((x.cycles ++ x.play).map fun c => ceilTick (c.t0 + c.dur)).foldl max (now s d : Int)

/-- The run of a channel ends at its hand-back: its result, counters and event (R327, R329, R336). -/
def asEnd (s : State) (d c res : Nat) : State :=
  let x := asChan s d c
  let ab := decide (res = 7)
  let y := { x with
    st := 0, kind := 0, lent := false, aborted := false, measured := false, lastKind := x.kind, lastResult := res
    runs := if ab then x.runs else min (x.runs + 1) 0xFFFFFF
    fails := if ab ∨ res = 1 then x.fails else min (x.fails + 1) 0xFFFFFF
    consec := if res = 1 then 0 else min (x.consec + 1) 255
    lastSec := s.pkg.seconds, lastTs := now s d, lastTemp := if x.st = 3 then x.runTemp else x.lastTemp }
  let s1 := setAsActive (setAsChan s d c y) d (asClass c) none
  asRotate (raise s1 (pgAssay d) (if res = 1 then 0 else 1)) d (asClass c)

/-- A run that has not begun to measure ends without a result (R326, R336). -/
def asForget (s : State) (d c : Nat) : State :=
  setAsActive (setAsChan s d c { asChan s d c with st := 0, kind := 0, lent := false, aborted := false }) d (asClass c) none

/-- The spare of a channel's class serves its port no more; it is free once its last cycle there has ended (R327). -/
def spareBack (s : State) (d c : Nat) : State :=
  if (asChan s d c).lent then
    setAssay s d { assay s d with spareEnd := Tbl.put (assay s d).spareEnd (asClass c) (portEnd s d (asPos c)) }
  else s

/-- The spare of a class is free (R327). -/
def spareFree (s : State) (d cls : Nat) : Bool :=
  decide (sgn 48 (uns 48 (Tbl.get (assay s d).spareEnd cls 0 - (now s d : Int))) ≤ 0) || !(assay s d).spareEnd.any fun e => decide (e.1 = cls)

/-- Wait until the spare of a class is free. -/
def waitSpare (s : State) (d cls : Nat) : State :=
  if spareFree s d cls then s else waitTick s d (Tbl.get (assay s d).spareEnd cls 0)

/-- The takeover tick of a run (R327): the spare takes the channel's work. -/
def asTake (s : State) (d c : Nat) : State :=
  let x := asChan s d c
  if x.st = 2 ∧ !x.lent ∧ asPos c ≠ 16 ∧ spareFree s d (asClass c) then
    setAsChan s d c { x with lent := true, takenAt := s.clock, origEnd := portEnd s d (asPos c) }
  else s

/-- The hand-back of a run (R327): cycles bind to the channel again, with the corrections of R332 or, where the run was
abandoned, with its previous codes (R336). -/
def asHandBack (s : State) (d c : Nat) : State :=
  let x := asChan s d c
  if x.aborted then (if x.st = 3 then asEnd (spareBack s d c) d c 7 else asForget (spareBack s d c) d c)
  else if x.st = 3 ∧ x.measured then asEnd (asApply (spareBack s d c) d c) d c x.result
  else s

/-- At a cycle boundary of port `p` its channels are handed back, taken over, or take new codes (R327, R332). -/
def asBoundary (s : State) (d p : Nat) : State :=
  let s1 := each ((asAll s).filter fun c => decide (asPort s d c = p)) s fun s c => asApply s d c
  each ((asAll s).filter fun c => decide (asPos c = p)) s1 fun s c =>
    if (asChan s d c).lent then asHandBack s d c else asTake s d c

/-- The ASSAY page is fenced: a run that measures is abandoned with ABORTED, and a channel lent to a spare is handed back at
its port's next cycle boundary with its previous codes (R336). -/
def asAbandon (s : State) (d c : Nat) : State :=
  let x := asChan s d c
  if x.st = 0 then s
  else if x.st = 2 ∧ !x.lent then asForget s d c
  else
    let s1 := setAsChan s d c { x with aborted := true, next := none }
    if asPos c = 16 ∨ portIdle s d (asPos c) then asHandBack s1 d c else s1

/-- A port is fenced: runs on its channels are abandoned with ABORTED and handed back at once (R336). -/
def asPortFenced (s : State) (d p : Nat) : State :=
  each ((asAll s).filter fun c => decide (asPos c = p)) s fun s c =>
    if (asChan s d c).st = 0 then s else asEnd (spareBack s d c) d c 7

/-- The safe state of the ASSAY page (R336). -/
def asSafe (s : State) (d : Nat) : State := each (asAll s) s fun s c => asAbandon s d c

/-- `EN` := 0: the queue is emptied (R336). -/
def asStop (s : State) (d : Nat) : State :=
  each (asAll s) s fun s c => setAsChan s d c { asChan s d c with queued := 0 }

/-- Every class is free. -/
def asFree (s : State) (d : Nat) : Bool := (List.range 3).all fun cls => decide (asActive s d cls = none)

/-- The rows of runs act on a die outside STANDBY, where Assay stands (R393). -/
def asLive (s : State) (d cls : Nat) : Bool := decide (d < s.part.dies) && decide (cls < 3) && decide (modeOf s d ≠ 1)

/-- The queued channel of highest rank, the lowest index on a tie (R326). -/
def asBest (s : State) (d cls : Nat) : Option Nat :=
  (asWaiting s d cls).foldl (fun (best : Option Nat) c =>
    match best with
    | none => some c
    | some b => if asRank (asChan s d c).queued < asRank (asChan s d b).queued then some c else some b) none

/-- ASSAY_RUN_START: a free class takes its highest-ranked queued channel (R326). -/
def execAssayRunStart (d cls : Nat) (s : State) : Host.Outcome State Fault Refusal :=
  ok (if asLive s d cls && running s (pgAssay d) && decide (asActive s d cls = none) then
    let s1 := asRotate s d cls
    match asBest s1 d cls with
    | none => s1
    | some c =>
      let s2 := setAssay s1 d { assay s1 d with xtalLost := if cls = 0 then noXtal s1 d else (assay s1 d).xtalLost }
      let x := asChan s2 d c
      setAsActive
        (setAsChan s2 d c
          { x with st := 2, queued := 0, kind := x.queued, result := 0, measured := false, aborted := false, takenAt := s2.clock })
        d cls (some c)
  else s)

/-- The channel that a class runs, for the rows of runs. -/
def asRun (s : State) (d cls : Nat) : Option Nat := if asLive s d cls then asActive s d cls else none

/-- ASSAY_TAKEOVER: in the first tick after its run starts the spare takes the work of a channel whose port waits for no
cycle boundary (R327). At a cycle boundary the takeover is part of LINE_BIND. -/
def execAssayTakeover (d cls : Nat) (s : State) : Host.Outcome State Fault Refusal :=
  ok (match asRun s d cls with
    | none => s
    | some c =>
      let x := asChan s d c
      if x.st = 2 ∧ !x.lent ∧ asPos c ≠ 16 ∧ portIdle s d (asPos c) then
        asTake (waitSpare (waitClock s (x.takenAt + 1)) d cls) d c
      else s)

/-- ASSAY_MEASURE_START: 16 ticks after the later of the takeover and the end of the last cycle on the original channel
(R327). A spare is measured directly. -/
def execAssayMeasureStart (d cls : Nat) (s : State) : Host.Outcome State Fault Refusal :=
  ok (match asRun s d cls with
    | none => s
    | some c =>
      let x := asChan s d c
      if x.st = 2 ∧ !x.aborted ∧ (x.lent ∨ asPos c = 16) then
        let s1 := if asPos c = 16 then waitSpare s d cls else waitTick (waitClock s (x.takenAt + 16)) d (x.origEnd + 16)
        setAsChan s1 d c { x with st := 3, measAt := s1.clock, runTemp := islTemp s1 d (asIsland c) }
      else s)

/-- Ticks of a class's measuring phase (R324). -/
def asLength (cls : Nat) : Nat := match cls with | 0 => 16384 | 1 => 32768 | _ => 65536

/-- ASSAY_MEASURE_END: the tap positions, in 1/64 of the correction LSB, are checked and the table is updated (R328 to
R331). -/
def execAssayMeasureEnd (d cls : Nat) (p : List Int) (s : State) : Host.Outcome State Fault Refusal :=
  ok (match asRun s d cls with
    | none => s
    | some c =>
      if (asChan s d c).st = 3 ∧ !(asChan s d c).measured ∧ !(asChan s d c).aborted then
        let s1 := waitClock s ((asChan s d c).measAt + asLength cls)
        let x := asChan s1 d c
        let res := asCheck s1 d cls ((assay s1 d).xtalLost || noXtal s1 d) p
        let codes := (List.range 16).map fun i => asCorr cls i (p.getD i 0)
        let y := if res = 1 then storePoint x (rf s1 (pgAssay d) Off.AS_MERGE 0 16) x.runTemp codes else x
        setAsChan s1 d c
          { y with
            measured := true, result := res
            next := if res = 1 then some (codesAt y (islTemp s1 d (asIsland c))) else x.next }
      else s)

/-- RUN_DONE: the hand-back of a spare's own run, and of a channel whose port waits for no cycle boundary (R327). At a cycle
boundary the hand-back is part of LINE_BIND. -/
def execRunDone (d cls : Nat) (s : State) : Host.Outcome State Fault Refusal :=
  ok (match asRun s d cls with
    | none => s
    | some c => if asPos c = 16 ∨ portIdle s d (asPos c) then asHandBack s d c else s)

/-! Commands (R325, R326, R334, R338). -/

/-- Save and restore state (R334). -/
def saveState (s : State) (d : Nat) : Nat := rf s (pgAssay d) Off.AS_SAVE_STAT 0 2
def setSave (s : State) (d st : Nat) : State := wf s (pgAssay d) Off.AS_SAVE_STAT 0 2 st

/-- The result of a command. -/
def asResult (s : State) (d op ch res : Nat) : State :=
  wr s (pgAssay d) Off.AS_CMD_STAT (word (res * 2 ^ 16 + ch % 256 * 2 ^ 8 + op))

/-- REQUEST (R325). -/
def asRequest (s : State) (d ch : Nat) : State :=
  if ch = 0xFF then asResult (each (asAll s) s fun s c => asQueue s d c 1) d 1 ch 1
  else if !asPresent s ch then asResult s d 1 ch 0x10
  else if noXtal s d ∧ asClass ch = 0 then asResult s d 1 ch 0x11
  else asResult (asQueue s d ch 1) d 1 ch 1

/-- SAVE (R334). -/
def asSave (s : State) (d ch : Nat) : State :=
  if saveState s d ≠ 0 then asResult s d 2 ch 0x12 else asResult (setSave s d 1) d 2 ch 2

/-- RESTORE (R334). -/
def asRestore (s : State) (d ch : Nat) : State :=
  let past := (asAll s).any fun c => (asChan s d c).lent || decide ((asChan s d c).st = 3)
  if saveState s d ≠ 0 ∨ past then asResult s d 3 ch 0x12 else asResult (setSave s d 2) d 3 ch 2

/-- CANCEL removes queued channels and those that wait for takeover (R326). -/
def asCancel1 (s : State) (d c : Nat) : State :=
  let s1 := setAsChan s d c { asChan s d c with queued := 0 }
  if (asChan s d c).st = 2 ∧ !(asChan s d c).lent then asForget s1 d c else s1
def asCancel (s : State) (d ch : Nat) : State :=
  if ch = 0xFF then asResult (each (asAll s) s fun s c => asCancel1 s d c) d 4 ch 1
  else if !asPresent s ch then asResult s d 4 ch 0x10
  else asResult (asCancel1 s d ch) d 4 ch 1

/-- A write of `AS_CMD` (R338). -/
def asCmd (d op ch : Nat) (s : State) : State :=
  match op with
  | 1 => asRequest s d ch
  | 2 => asSave s d ch
  | 3 => asRestore s d ch
  | 4 => asCancel s d ch
  | _ => asResult s d op ch 0x14

/-- AS_REQUEST (R325). -/
def execAsRequest (r : Req) (d ch : Nat) (s : State) : Host.Outcome State Fault Refusal :=
  ok (guardedWrite s r (pgAssay d) Off.AS_CMD (asCmd d 1 (ch % 256)))
/-- AS_SAVE (R334). -/
def execAsSave (r : Req) (d : Nat) (s : State) : Host.Outcome State Fault Refusal :=
  ok (guardedWrite s r (pgAssay d) Off.AS_CMD (asCmd d 2 0))
/-- AS_RESTORE (R334). -/
def execAsRestore (r : Req) (d : Nat) (s : State) : Host.Outcome State Fault Refusal :=
  ok (guardedWrite s r (pgAssay d) Off.AS_CMD (asCmd d 3 0))
/-- AS_CANCEL (R326). -/
def execAsCancel (r : Req) (d ch : Nat) (s : State) : Host.Outcome State Fault Refusal :=
  ok (guardedWrite s r (pgAssay d) Off.AS_CMD (asCmd d 4 (ch % 256)))

/-- The area of the Assay tables from word 344 on (R334). -/
def asArea (s : State) (d : Nat) : List Word :=
  (List.range 51).flatMap fun c => (List.range 8).flatMap fun k => point (asChan s d c) k

/-- A save writes the points, then the seconds and the CRC, and the version last (R334). -/
def asSaved (s : State) (d : Nat) : State :=
  let a := asArea s d
  let sec := s.pkg.seconds
  let s1 := retWrites s d 336
    ([word 1, lo24 sec, hi24 sec, crcWords a, 0#24, 0#24, 0#24, 0#24] ++ a)
  let s2 := wf (setSave s1 d 0) (pgAssay d) Off.AS_SAVE_STAT 4 4 1
  raise (count s2 (pgAssay d) Off.AS_SAVES) (pgAssay d) 2

/-- SAVED (R334). -/
def execSaved (d : Nat) (s : State) : Host.Outcome State Fault Refusal :=
  ok (if d < s.part.dies ∧ saveState s d = 1 then asSaved s d else s)

/-- A word of the retention store as firmware reads it: 0 where it is uncorrectable (R320). -/
def retGet (s : State) (d w : Nat) : Word := if Tbl.get s.retEcc (retAddr d w) .good = .bad then 0#24 else retRaw s d w

/-- The stored copy is valid: version and CRC (R334). -/
def storeGood (s : State) (d : Nat) : Bool :=
  decide (retGet s d 336 = 1#24) && decide (retGet s d 339 = crcWords ((List.range 2040).map fun i => retGet s d (344 + i)))

/-- Every point is loaded from the store (R334). -/
def loadPoints (s : State) (d : Nat) : State :=
  each (asAll s) s fun s c =>
    setAsChan s d c { asChan s d c with
      points := (List.range 8).map fun k => (k, (List.range 5).map fun j => retGet s d (344 + 40 * c + 5 * k + j)) }

/-- RESTORED: the tables are loaded, or the store is bad (R334); the save of an entry to DORMANT then follows (R395). -/
def execRestored (d : Nat) (s : State) : Host.Outcome State Fault Refusal :=
  let st := if s.pkg.power = .entering then 1 else 0
  ok (if d < s.part.dies ∧ saveState s d = 2 then
    if storeGood s d then raise (wf (setSave (loadPoints s d) d st) (pgAssay d) Off.AS_SAVE_STAT 4 4 2) (pgAssay d) 3
    else raise (wf (setSave s d st) (pgAssay d) Off.AS_SAVE_STAT 4 4 3) (pgAssay d) 4
  else s)

/-! Points (R333). -/

/-- The channel and point named by `AS_TAB_SEL`. -/
def tabCh (s : State) (d : Nat) : Nat := rf s (pgAssay d) Off.AS_TAB_SEL 0 6
def tabPt (s : State) (d : Nat) : Nat := rf s (pgAssay d) Off.AS_TAB_SEL 8 3

/-- WRITE and CLEAR are turned away (R333). -/
def tabBusy (s : State) (d : Nat) : Bool := decide ((asChan s d (tabCh s d)).st = 3) || decide (saveState s d = 2)

/-- READ (R333). -/
def tabRead (d : Nat) (s : State) : State :=
  if asPresent s (tabCh s d) then
    each (List.range 5) s fun s i => wr s (pgAssay d) (Off.AS_TAB_W0 + 4 * i) ((point (asChan s d (tabCh s d)) (tabPt s d)).getD i 0#24)
  else s

/-- WRITE (R333). -/
def tabWrite (r : Req) (d : Nat) (s : State) : State :=
  let c := tabCh s d
  if tabBusy s d then logErr s r (pgAssay d) Off.AS_TAB_CTRL true 0x40
  else if !asPresent s c then s
  else
    let w := (List.range 5).map fun i => rd s (pgAssay d) (Off.AS_TAB_W0 + 4 * i) &&& word (if i = 0 then 0x80FFFF else 0xFFFFFF)
    let x := asChan s d c
    let clash (k : Nat) : Bool := decide (k ≠ tabPt s d) && ptValid w && ptValid (point x k) && decide (ptTemp (point x k) = ptTemp w)
    let pts := (List.range 8).map fun k =>
      (k, if k = tabPt s d then w else if clash k then (point x k).set 0 (setBit ((point x k).getD 0 0#24) 23 false) else point x k)
    setAsChan s d c { x with points := pts }

/-- CLEAR (R333). -/
def tabClear (r : Req) (d : Nat) (s : State) : State :=
  let c := tabCh s d
  if tabBusy s d then logErr s r (pgAssay d) Off.AS_TAB_CTRL true 0x40
  else if !asPresent s c then s
  else
    let x := asChan s d c
    let w := point x (tabPt s d)
    setAsChan s d c { x with points := Tbl.put x.points (tabPt s d) (w.set 0 (setBit (w.getD 0 0#24) 23 false)) }

/-- TAB_READ (R333). -/
def execTabRead (r : Req) (d : Nat) (s : State) : Host.Outcome State Fault Refusal :=
  ok (guardedWrite s r (pgAssay d) Off.AS_TAB_CTRL (tabRead d))
/-- TAB_WRITE (R333). -/
def execTabWrite (r : Req) (d : Nat) (s : State) : Host.Outcome State Fault Refusal :=
  ok (guardedWrite s r (pgAssay d) Off.AS_TAB_CTRL (tabWrite ⟨clsOn r (pgAssay d), r.rid⟩ d))
/-- TAB_CLEAR (R333). -/
def execTabClear (r : Req) (d : Nat) (s : State) : Host.Outcome State Fault Refusal :=
  ok (guardedWrite s r (pgAssay d) Off.AS_TAB_CTRL (tabClear ⟨clsOn r (pgAssay d), r.rid⟩ d))

end Sys2Proof.Machine
end

