-- ==== Sys2Proof/Machine/AxisCore.lean ====
section
/-!
DEFINITION. Motion axes: the commanded motion as a function of time, the motion state, and the angle arithmetic of the
current loop (R248, R250, R254, R266).
-/
namespace Sys2Proof.Machine

/-- One microstep in the planner's position unit. -/
def ustep : Int := 2 ^ 56

/-- Position, velocity and acceleration of a stretch of motion at a clock. -/
def MotionSeg.motionAt (x : MotionSeg) (clock : Nat) : Int × Int × Int :=
  let n : Int := (clock : Int) - x.at_
  if x.endN ≠ 0 ∧ (x.endN : Int) ≤ n then (x.xEnd, 0, 0)
  else (x.x + 2 * x.v * n + x.a * n * n, x.v + x.a * n, x.a)

/-- The present stretch of motion. -/
def AxisSt.seg (x : AxisSt) : MotionSeg := ⟨x.x, x.v, x.a, x.at_, x.endN, x.xEnd⟩

/-- Position, velocity and acceleration at a clock. -/
def AxisSt.motionAt (x : AxisSt) (clock : Nat) : Int × Int × Int := x.seg.motionAt clock

/-- The commanded position a few ticks ago, in the stretch of motion that held then (R261). -/
def AxisSt.posBefore (x : AxisSt) (clock : Nat) : Int :=
  ((((x.seg :: x.past).find? fun g => decide (g.at_ ≤ clock)).getD x.seg).motionAt clock).1

/-- The motion at the present clock. -/
def axMotion (s : State) (d a : Nat) : Int × Int × Int := (axis s d a).motionAt s.clock

/-- The commanded position in whole microsteps (R248). -/
def axPos (s : State) (d a : Nat) : Int := sgn 48 (uns 48 ((axMotion s d a).1 / ustep))

/-- The axis moves now. -/
def axMoving (s : State) (d a : Nat) : Bool := decide ((axMotion s d a).2.1 ≠ 0)

/-- The clock of the last change of the commanded position (R250). -/
def AxisSt.lastChange (x : AxisSt) (clock : Nat) : Nat :=
  if x.v = 0 ∧ x.a = 0 then x.lastMove
  else if x.endN ≠ 0 ∧ x.endN ≤ clock - x.at_ then x.at_ + x.endN
  else clock

/-- The axis with a new segment of motion that starts now at position `p` with velocity `v` and acceleration `a`; the
position wraps at 48 bits of microsteps (R248). -/
def AxisSt.segment (x : AxisSt) (clock : Nat) (p v a : Int) (endN : Nat := 0) (xEnd : Int := 0) : AxisSt :=
  let w := sgn 104 (uns 104 p)
  { x with
    lastMove := x.lastChange clock
    past := (if x.at_ = clock then x.past else x.seg :: x.past).take 2
    at_ := clock, x := w, v := v, a := a, endN := endN, xEnd := xEnd + (w - p) }

/-- The axis stands still at the position it has now. -/
def AxisSt.freeze (x : AxisSt) (clock : Nat) : AxisSt := x.segment clock (x.motionAt clock).1 0 0

/-- MS of R248. -/
def axMs (s : State) (d a : Nat) : Nat := 2 ^ min (rf s (pgAx d a) Off.AX_CFG 0 4) 10

/-- The axis takes step inputs (R252). -/
def stepIn (s : State) (d a : Nat) : Bool := decide (rf s (pgAx d a) Off.AX_CFG 12 2 = 1)

/-- MSTATE codes. -/
abbrev msOff : Nat := 0
abbrev msRest : Nat := 1
abbrev msMoving : Nat := 2
abbrev msStopping : Nat := 3
abbrev msHalted : Nat := 4
abbrev msHoming : Nat := 5
abbrev msFollow : Nat := 6
abbrev msFenced : Nat := 7

/-- `AX_STAT.MSTATE`. -/
def mstate (s : State) (d a : Nat) : Nat := rf s (pgAx d a) Off.AX_STAT 0 4
/-- Set it; a homing phase is shown in HOMING only. -/
def setMstate (s : State) (d a m : Nat) : State :=
  let s1 := wf s (pgAx d a) Off.AX_STAT 0 4 m
  if m = msHoming then s1 else wf s1 (pgAx d a) Off.AX_STAT 4 4 0
/-- `AX_STAT.HPHASE`. -/
def hphase (s : State) (d a : Nat) : Nat := rf s (pgAx d a) Off.AX_STAT 4 4
/-- Set it. -/
def setHphase (s : State) (d a h : Nat) : State := wf s (pgAx d a) Off.AX_STAT 4 4 h
/-- `AX_STAT.POS_VALID`. -/
def setPosValid (s : State) (d a : Nat) (b : Bool) : State := wb s (pgAx d a) Off.AX_STAT 18 b
/-- The qualified level of a switch input (R261). -/
def swLevel (s : State) (d a i : Nat) : Bool := rb s (pgAx d a) Off.AX_STAT (13 + i)

/-- A context of the die has a SLOW_AXIS action on the axis in force (R346). -/
def slowAction (s : State) (d a : Nat) : Bool :=
  (List.range (nCtx s)).any fun k =>
    let w := Tbl.get (ctx s d k).act 52 0#24
    (ctx s d k).throttled && decide ((ctx s d k).st ≠ .idle) && decide (fld w 0 3 = 1) && decide (fld w 4 2 = a)

/-- A thermal SLOW_AXIS action acts on the axis (R258). -/
def axSlowed (s : State) (d a : Nat) : Bool := slowAction s d a && running s (pgAx d a) && !stepIn s d a

/-- The velocity cap of R258: one full step per 10,000 ticks, in the planner's unit, rounded down to 2^-39 microstep per tick
(DESIGN CHOICE, log entry 76): velocities at profile ticks are then exact in the format of R106. -/
def axCap (s : State) (d a : Nat) : Int := (axMs s d a * 2 ^ 55 / 10000 / 2 ^ 16 * 2 ^ 16 : Nat)

/-- The effective limit for a velocity register (R258). -/
def axVm (s : State) (d a : Nat) (v : Nat) : Int :=
  let f := if axSlowed s d a then rf s (pgAx d a) Off.AX_SLOW 0 8 else 256
  min ((v * f * 2 ^ 23 : Nat) : Int) (axCap s d a)

/-! Angles: 2^32 to the turn, sines and cosines scaled by 2^40. -/

/-- The terms of the sine series from the term `t` of degree `k` on, for the square `x2` of the angle. -/
def sinTerms : Nat → Int → Nat → Int → Int
  | 0, _, _, _ => 0
  | f + 1, t, k, x2 => t + sinTerms f (-(t * x2 / 2 ^ 40) / (((k + 1) * (k + 2) : Nat) : Int)) (k + 2) x2

/-- Sine of an angle in the first quadrant, `r` of 2^30 parts of it. -/
def sinQuad (r : Nat) : Int :=
  let x : Int := ((r * 1727108826179 / 2 ^ 30 : Nat) : Int)
  sinTerms 12 x 1 (x * x / 2 ^ 40)

/-- Cosine of an angle in the first quadrant. -/
def cosQuad (r : Nat) : Int := sinQuad (2 ^ 30 - r)

/-- Sine of an angle. -/
def sinTurn (n : Nat) : Int :=
  let r := n % 2 ^ 30
  match n / 2 ^ 30 % 4 with
  | 0 => sinQuad r
  | 1 => cosQuad r
  | 2 => -sinQuad r
  | _ => -cosQuad r

/-- Cosine of an angle. -/
def cosTurn (n : Nat) : Int := sinTurn (n + 2 ^ 30)

/-- The largest angle below `lo + 2^k` parts of 2^20 to the turn, and at least `lo`, that does not pass the direction
(`a`, `b`) of the first quadrant. -/
def atanSearch : Nat → Nat → Int → Int → Nat
  | 0, lo, _, _ => lo
  | k + 1, lo, a, b =>
    let m := lo + 2 ^ k
    if 0 ≤ cosTurn (m * 2 ^ 12) * b - sinTurn (m * 2 ^ 12) * a then atanSearch k m a b else atanSearch k lo a b

/-- The angle of the direction (`a`, `b`) in parts of 2^20 to the turn, rounded down. -/
def atanTurn (a b : Int) : Nat :=
  if 0 < a ∧ 0 ≤ b then atanSearch 18 0 a b
  else if a ≤ 0 ∧ 0 < b then 2 ^ 18 + atanSearch 18 0 b (-a)
  else if a < 0 then 2 ^ 19 + atanSearch 18 0 (-a) (-b)
  else 2 ^ 18 + 2 ^ 19 + atanSearch 18 0 (-b) a

/-- The electrical angle of a position (R250), 2^32 to the turn. -/
def axAngle (ms : Nat) (p : Int) : Nat := (p % (4 * (ms : Int) * ustep)).toNat / (ms * 2 ^ 26)

end Sys2Proof.Machine
end

