-- ==== Sys2Proof/Machine/Wave.lean ====
section
/-!
DEFINITION. Waveform banks: set headers, segments and thermal records (R180 to R183), the checks of a bank (R184),
temperature compensation (R185), output samples (R186), the stream between waveforms (R177, R192), firing pulses (R193),
the PWM and the off conditions of the heater (R194, R195), and bank loads (R196).
-/
namespace Sys2Proof.Machine

/-- Word `i` of bank `b` of a port (R180). -/
def bankWord (s : State) (d p b i : Nat) : Word :=
  Tbl.get (if b = 0 then (port s d p).bank0 else (port s d p).bank1) i 0#24

/-- A set, read from a bank (R181). -/
structure WSet where
  kind : Nat
  npt : Nat
  first : Nat
  count : Nat
  rest : Nat
  vcomp : Bool
  vnom : Nat
  mainMax : Nat
  temps : List Int
  scales : List Nat
  stretches : List Nat
  deriving DecidableEq, Repr

/-- Set `k` of a bank. -/
def wset (s : State) (d p b k : Nat) : WSet :=
  let w := fun i => bankWord s d p b (32 * k + i)
  let n := fld (w 0) 12 3 + 1
  { kind := fld (w 0) 22 2, npt := n, first := fld (w 1) 12 12, count := fld (w 1) 0 12 + 1, rest := fld (w 2) 6 18
    vcomp := bit (w 3) 23, vnom := fld (w 3) 0 16, mainMax := if fld (w 4) 0 16 = 0 then 65535 else fld (w 4) 0 16
    temps := (List.range n).map fun i => sgn 16 (fld (w (8 + 3 * i)) 0 16)
    scales := (List.range n).map fun i => (w (9 + 3 * i)).toNat
    stretches := (List.range n).map fun i => (w (10 + 3 * i)).toNat }

/-- A piezo segment (R182). -/
structure Seg where
  op : Nat
  flags : Nat
  len : Nat
  level : Nat
  deriving DecidableEq, Repr

/-- The segments of a set. -/
def segs (s : State) (d p b : Nat) (x : WSet) : List Seg :=
  (List.range x.count).map fun i =>
    let w := bankWord s d p b (x.first + 2 * i)
    ⟨fld w 22 2, fld w 16 6, fld w 0 14 + 1, fld (bankWord s d p b (x.first + 2 * i + 1)) 6 18⟩

/-- A thermal beat record (R193). -/
structure BeatRec where
  offset : Nat
  pre : Nat
  gap : Nat
  main : Nat
  deriving DecidableEq, Repr

/-- The beat records of a thermal set. -/
def beatRecs (s : State) (d p b : Nat) (x : WSet) : List BeatRec :=
  (List.range x.count).map fun i =>
    let w := fun j => bankWord s d p b (x.first + 4 * i + j)
    ⟨(w 0).toNat, fld (w 1) 0 16, fld (w 2) 0 16, fld (w 3) 0 16⟩

/-- Samples of a set (R183). -/
def setLen (l : List Seg) : Nat := (l.map Seg.len).sum

/-- Runs of segments with a flag: start and end sample of each, in order. -/
def runsOf (flag : Nat) : List Seg → Nat → List (Nat × Nat)
  | [], _ => []
  | g :: r, pos =>
    let rest := runsOf flag r (pos + g.len)
    if g.flags.testBit flag then
      match rest with
      | (a, b) :: t => if a = pos + g.len then (pos, b) :: t else (pos, pos + g.len) :: rest
      | [] => [(pos, pos + g.len)]
    else rest

/-- Start samples of the segments with a pulse flag. -/
def pulsesOf (flag : Nat) : List Seg → Nat → List Nat
  | [], _ => []
  | g :: r, pos => (if g.flags.testBit flag then [pos] else []) ++ pulsesOf flag r (pos + g.len)

/-- Gaps between runs of at least 2 samples, and runs of at least 2. -/
def runsOk : List (Nat × Nat) → Bool
  | [] => true
  | [(a, b)] => decide (a + 2 ≤ b)
  | (a, b) :: (c, e) :: r => decide (a + 2 ≤ b) && decide (b + 2 ≤ c) && runsOk ((c, e) :: r)

/-- A list rises strictly. -/
def rising : List Int → Bool
  | a :: b :: r => decide (a < b) && rising (b :: r)
  | _ => true

/-- The first check of R184 that a piezo set fails after BOUNDS, or 0. -/
def checkPiezo (x : WSet) (l : List Seg) : Nat :=
  let latch := pulsesOf 4 l 0
  let beats := runsOf 3 l 0
  let senses := runsOf 5 l 0
  if l.any fun g => decide (2 ≤ g.op) then 3
  else if latch.length ≠ 1 ∨ (beats.head?.map Prod.fst).getD (setLen l) < latch.headD 0 then 4
  else if 8 < beats.length ∨ !runsOk beats then 5
  else if 1 < senses.length ∨ (senses ≠ [] ∧ (senses.headD (0, 0)).1 < (beats.getLast?.map Prod.snd).getD 0) then 6
  else if 1 < (pulsesOf 2 l 0).length then 7
  else if 65535 < setLen l then 8
  else if (l.getLast?.map Seg.level).getD x.rest ≠ x.rest then 9
  else if !rising x.temps ∨ x.scales.any (fun v => decide (0x800000 < v))
      ∨ x.stretches.any (fun v => decide (v < 0x200000) || decide (0x800000 < v)) then 10
  else 0

/-- The first check that a thermal set fails after BOUNDS, or 0. -/
def checkThermal (x : WSet) (l : List BeatRec) : Nat :=
  if !rising x.temps ∨ x.scales.any (fun v => decide (0x800000 < v)) then 10
  else if 8 < x.count ∨ l.any (fun r => decide (r.main = 0)) ∨ (x.vcomp ∧ x.vnom = 0) then 11
  else 0

/-- The first check of R184 that set `k` of a bank fails, or 0; an EMPTY set fails none. -/
def checkSet (s : State) (d p b k : Nat) : Nat :=
  let x := wset s d p b k
  if x.kind = 0 then 0
  else if x.kind = 3 then 1
  else if x.first < 1024 ∨ (x.kind = 1 ∧ (x.first % 2 = 1 ∨ 4096 < x.first + 2 * x.count))
      ∨ (x.kind = 2 ∧ 4096 < x.first + 4 * x.count) then 2
  else if x.kind = 1 then checkPiezo x (segs s d p b x)
  else checkThermal x (beatRecs s d p b x)

/-- S and K of a cycle (R185). -/
def compensation (s : State) (d p : Nat) (x : WSet) : Nat × Nat :=
  if !(port s d p).tempSeen then (2 ^ 22, 2 ^ 22)
  else
    let t := sgn 16 (rf s (pgHp d p) Off.WF_TEMP 0 16)
    let n := x.npt
    let tm := fun i => x.temps.getD i 0
    let sc := fun i => x.scales.getD i 0
    let st := fun i => x.stretches.getD i 0
    if n = 1 ∨ t ≤ tm 0 then (sc 0, st 0)
    else if tm (n - 1) ≤ t then (sc (n - 1), st (n - 1))
    else
      let i := ((List.range n).filter fun i => decide (tm i ≤ t)).getLastD 0
      let f := (t - tm i) * 2 ^ 16 / (tm (i + 1) - tm i)
      let ip := fun (a b : Nat) => ((a : Int) + ((b : Int) - (a : Int)) * f / 2 ^ 16).toNat
      (ip (sc i) (sc (i + 1)), ip (st i) (st (i + 1)))

/-! Output samples (R186). -/

/-- The source value `s[i]` of a piezo set, as an exact fraction (R183); REST beyond the end. -/
def source (rest : Nat) : List Seg → Nat → Nat → Rat
  | [], _, _ => rest
  | g :: r, a, i =>
    if i < g.len then
      (if g.op = 0 then (g.level : Rat) else (a : Rat) + ((g.level : Rat) - (a : Rat)) * ((i : Rat) + 1) / (g.len : Rat))
    else source rest r g.level (i - g.len)

/-- The segment that holds sample `i`. -/
def segAt : List Seg → Nat → Option Seg
  | [], _ => none
  | g :: r, i => if i < g.len then some g else segAt r (i - g.len)

/-- The nearest integer of a fraction; the manual's "round" leaves a tie open, which the free value `k` decides. -/
def nearestAt (k : Nat) (q : Rat) : Int :=
  let a := q.num
  let b : Int := q.den
  if (2 * a) % (2 * b) = b ∧ Config.freeBool k then a / b else (2 * a + b) / (2 * b)

/-- One output sample (R186): amplitude, flags, and whether it was clamped, of source position `u`, after source
index `prev`. -/
def sampleAt (k : Nat) (rest sc : Nat) (l : List Seg) (u : Rat) (prev : Int) : Nat × Nat × Bool :=
  let i := u.floor.toNat
  let f := u - (u.floor : Rat)
  let w := source rest l rest i + (source rest l rest (i + 1) - source rest l rest i) * f
  let a := nearestAt k ((rest : Rat) + (w - (rest : Rat)) * (sc : Rat) / (2 ^ 22 : Rat))
  let amp := clampI 0 262143 a
  let level := match segAt l i with | none => 0 | some g => g.flags
  let pulses := fun fl => (pulsesOf fl l 0).any fun j => decide (prev < (j : Int)) && decide (j ≤ i)
  let fl := b2n (level.testBit 5) * 32 + b2n (pulses 4) * 16 + b2n (level.testBit 3) * 8 + b2n (pulses 2) * 4 + level % 4
  (amp.toNat, fl, decide (amp ≠ a))

/-- The output samples of a piezo cycle from tick `t` on (R186): tick, amplitude, flags, clamped. -/
def samplesFrom : Nat → Nat → Nat → Nat → List Seg → Nat → Int → Int → Int → List (Int × Nat × Nat × Bool)
  | 0, _, _, _, _, _, _, _, _ => []
  | n + 1, k, rest, sc, l, kk, t0, t, prev =>
    let u : Rat := ((16 * t - t0 : Int) : Rat) * (2 ^ 22 : Rat) / (80 * (kk : Rat))
    if (setLen l : Rat) ≤ u then []
    else
      let (a, f, c) := sampleAt k rest sc l u prev
      (t, a, f, c) :: samplesFrom n (k + 1) rest sc l kk t0 (t + 5) u.floor

/-- The first sample instant at or after an instant in fine steps (R177). -/
def firstInstant (t : Int) : Int := (ceilTick t + 4) / 5 * 5

/-- The samples of a cycle placed at `t0` with delay `dl` (R186). -/
def cycleSamples (s : State) (d p : Nat) (c : Cycle) (dl : Nat) : List (Int × Nat × Nat × Bool) :=
  let x := wset s d p c.bank c.set
  let l := segs s d p c.bank x
  samplesFrom (setLen l * c.k / 2 ^ 22 + 2) s.free x.rest c.s l c.k (c.t0 + dl) (firstInstant (c.t0 + dl)) (-1)

/-! The stream between waveforms (R177, R192, R231). -/

/-- `HP_CFG.PERS` (R175). -/
def persOf (s : State) (d p : Nat) : Nat := rf s (pgHp d p) Off.HP_CFG 0 2

/-- The port's personality plays sets of this KIND: samples on a piezo port, FIRE pulses on a thermal one (R175). -/
def plays (s : State) (d p kind : Nat) : Bool := decide (if persOf s d p = 2 then kind = 2 else kind = 1)

/-- The DAC code of an amplitude (R192). -/
def dacCode (amp : Nat) : Nat := min ((amp + 2) / 4) 65535

/-- A piezo port sends an SMP unit at every sample instant: while its lanes train, and from then on until they go to
electrical idle (R231, R244), which they do in STANDBY too (R393). -/
def streamOn (s : State) (d p : Nat) : Bool :=
  let l := (port s d p).link
  decide (persOf s d p ≠ 2) && decide (2 ≤ l) && decide (l ≤ 4) && decide (2 ≤ rf s (pgMode d) Off.MODE_CUR 0 3)

/-- The DAC of a piezo-analog port follows the stream from RUNNING until the port is OFF again (R177, R192, R198). -/
def dacLive (s : State) (d p : Nat) : Bool :=
  let x := port s d p
  decide (persOf s d p = 1) && decide (x.link ≠ 0) && decide (2 ≤ rf s (pgMode d) Off.MODE_CUR 0 3)
    && (running s (pgHp d p) || x.dacOn)

/-- The level that the sample stream and the DAC carry outside waveforms follows the state of the port (R177, R192). -/
def streamFollow (s : State) (d p : Nat) : State :=
  let x := port s d p
  let lvl := if streamOn s d p then some (if persOf s d p = 1 then 0 else x.rest) else none
  let on := dacLive s d p
  let code := if on then dacCode x.rest else 0
  let s1 := setPort s d p { x with smp := lvl, dacOn := on, dacHeld := code }
  let s2 := if lvl = x.smp then s1 else emit s1 (.stream d p (now s d) lvl)
  if code = x.dacHeld then s2 else emit s2 (.dacHold d p (now s d) code)

/-- Length of a piezo cycle in fine steps, rounded up (R186). -/
def piezoDur (l : List Seg) (k : Nat) : Int := ceilDiv (80 * setLen l * k) (2 ^ 22)

/-! Thermal pulses (R193). -/

/-- The voltage factor r, and whether it was clamped (R193). -/
def voltFactor (s : State) (d p : Nat) (x : WSet) : Rat × Bool :=
  let v := rd s (pgHp d p) Off.THM_VHEAD
  if x.vcomp && bit v 16 then
    if fld v 0 16 = 0 then (2, true)
    else
      let q : Rat := (x.vnom : Rat) / (fld v 0 16 : Rat)
      let r := q * q
      if r < 1 / 2 then (1 / 2, true) else if 2 < r then (2, true) else (r, false)
  else (1, false)

/-- The pulses of a thermal cycle and the number of limited main pulses (R193). -/
def thermalPulses (s : State) (x : WSet) (l : List BeatRec) (sc : Nat) (r : Rat) : List Pulse × Nat :=
  let q : Rat := (sc : Rat) / (2 ^ 22 : Rat) * r
  let ps := l.zipIdx.map fun b =>
    let pre := (nearestAt (s.free + 2 * b.2) ((b.1.pre : Rat) * q)).toNat
    let main := (nearestAt (s.free + 2 * b.2 + 1) ((b.1.main : Rat) * q)).toNat
    ((⟨b.1.offset, pre, if b.1.pre = 0 then 0 else b.1.gap, min main x.mainMax⟩ : Pulse), decide (x.mainMax < main))
  (ps.map Prod.fst, (ps.filter Prod.snd).length)

/-- Length of a pulse train, fine steps. -/
def pulsesDur (l : List Pulse) : Int := ((l.map fun p => p.off + p.pre + p.gap + p.main).sum : Nat)

/-- The pulses of a train as start and width, from instant `t`. -/
def pulseTimes : List Pulse → Int → List (Int × Int)
  | [], _ => []
  | p :: r, t =>
    let a := t + p.off
    (if p.pre = 0 then [] else [(a, (p.pre : Int))]) ++ [(a + p.pre + p.gap, (p.main : Int))]
      ++ pulseTimes r (a + p.pre + p.gap + p.main)

/-! The heater (R194, R195). -/

/-- Offset of port `p`'s register of a row of sixteen. -/
def thReg (off p : Nat) : Nat := off + 4 * p

/-- The head temperature of a port is valid (R341). -/
def headValid (s : State) (d p : Nat) : Bool := rb s (pgThermal d) (thReg Off.TH_HEAD p) 21
/-- The published head temperature (R341). -/
def headTemp (s : State) (d p : Nat) : Int := sgn 16 (rf s (pgThermal d) (thReg Off.TH_HEAD p) 0 16)

/-- A warning scope: a port, or none for the die (R342). -/
def scope (s : State) (d : Nat) (o : Option Nat) : ScopeSt :=
  match o with | none => (therm s d).die | some p => Tbl.get (therm s d).ports p {}

/-- The PWM periods that have begun since the port last looked: a new duty and a new period count from the start of the
next one (R194). The periods run from reset on (DESIGN CHOICE, log entry 72: their phase is open). -/
def pwmRoll (s : State) (d p : Nat) : State :=
  let x := port s d p
  let q := pgHp d p
  let n := x.pwmAt + 250 * x.pwmUs
  if s.clock < n then s
  else
    let us := clampN 10 1000 (rf s q Off.HTR_CFG 4 10)
    let s1 := setPort s d p { x with
      htrDuty := x.htrNew, pwmUs := us, pwmAt := n + (s.clock - n) / (250 * us) * (250 * us) }
    let s2 := if x.htrNew = x.htrDuty then s1 else wf s1 q Off.HTR_DUTY 0 10 x.htrNew
    if x.htrNew = x.htrDuty ∧ us = x.pwmUs then s2 else emit s2 (.heater d p n us x.htrNew)

/-- The first off reason that holds (R195). STANDBY holds the heater low (R393) and shows as PORT (DESIGN CHOICE, log
entry 71: the table has no code of its own for it). -/
def htrReason (s : State) (d p : Nat) : Nat :=
  let q := pgHp d p
  if !rb s q Off.HTR_CFG 0 then 1
  else if !running s q ∨ rf s (pgMode d) Off.MODE_CUR 0 3 < 2 then 2
  else if !headValid s d p then 3
  else if (rf s q Off.HTR_LIMIT 0 8 : Int) * 64 ≤ headTemp s d p then 4
  else if (scope s d (some p)).warned then 5
  else 0

/-- The heater follows its off conditions: the output goes low at once (R195). -/
def htrFollow (s : State) (d p : Nat) : State :=
  let q := pgHp d p
  let c := htrReason s d p
  let s1 := setDyn (pwmRoll s d p) q 7 (decide (1 < c))
  if c = 0 then wf s1 q Off.HTR_DUTY 12 4 0
  else
    let x := port s1 d p
    let s2 := setPort (wr s1 q Off.HTR_DUTY (word (c * 2 ^ 12))) d p { x with integ := 0, htrDuty := 0, htrNew := 0 }
    if x.htrDuty = 0 then s2 else emit s2 (.heater d p s.clock x.pwmUs 0)

/-- `WF_BANK_SEL` and the other RWS registers of an HP page take their shadows: the selected bank is active (R197), and
the heater follows its new configuration (R194, R195). -/
def hpHandOver (s : State) (d p : Nat) : State :=
  let q := pgHp d p
  let s1 := takeShadows (pwmRoll s d p) q
  htrFollow (wf s1 q Off.WF_STAT 6 1 (rf s1 q Off.WF_BANK_SEL 0 1)) d p

/-- The tick at which the last cycle in play ends. -/
def playEnd (s : State) (d p : Nat) : Int :=
  ((port s d p).play.map fun c => ceilTick (c.t0 + c.dur)).foldl (fun m t => if 0 ≤ t - m then t else m) (now s d)

/-! Loads (R196). -/

/-- `WF_STAT.LOAD_STATE`. -/
def loadState (s : State) (d p : Nat) : Nat := rf s (pgHp d p) Off.WF_STAT 0 3
/-- A load is in WAIT, COPY or HEAD. -/
def loading (s : State) (d p : Nat) : Bool := decide (1 ≤ loadState s d p) && decide (loadState s d p ≤ 3)
/-- The active bank. -/
def activeBank (s : State) (d p : Nat) : Nat := rf s (pgHp d p) Off.WF_BANK_SEL 0 1

/-- A load fails with a code (R196). Its select tables that have not been sent yet are sent no more (DEDUCED: the load has
ended), and those on their way count for no later load. -/
def loadFail (s : State) (d p code : Nat) : State :=
  let w := rd s (pgHp d p) Off.WF_STAT
  let s1 := wr s (pgHp d p) Off.WF_STAT (setFld (setFld w 0 3 5) 12 4 code)
  let x := port s1 d p
  raise (setPort s1 d p { x with
    loadTables := 0, loadQueued := false, queue := x.queue.filter fun f => !(decide (f.kind = 3) && decide (f.tries = 0)) })
    (pgHp d p) 1

/-- A load in progress when the port leaves RUNNING fails with ABORTED (R196). -/
def loadAbort (s : State) (d p : Nat) : State := if loading s d p then loadFail s d p 6 else s

/-- Some cycle bound to the bank has not reached its end (R189, R196). -/
def bankUsed (s : State) (d p b : Nat) : Bool :=
  ((port s d p).cycles.any fun c => decide (c.bank = b) && !c.fired && !c.noWave)
    || (port s d p).play.any fun c => decide (c.bank = b) && !fle (c.t0 + c.dur) (nowFine s d)

/-- The select table `t` of a bank. -/
def selTable (s : State) (d p b t : Nat) : List Nat :=
  (List.range 32).map fun c => fld (bankWord s d p b (512 + 32 * t + c)) 0 8

end Sys2Proof.Machine
end

