-- ==== Sys2Proof/Machine/Image.lean ====
section
/-!
DEFINITION. The image path: swathe blocks (R148 to R156), the line store (R158), seam shares (R163, R164, R166), pass
masks and thinning (R168, R169), and the pixels of a line (R159).
-/
namespace Sys2Proof.Machine

/-- The hash of R163. -/
def hashH (s x y : Nat) : Nat :=
  let h := (x * 0x9E3779 + y * 0x85EBCB + s) % 2 ^ 24
  let h := Nat.xor h (h / 2 ^ 12)
  let h := (h * 0x2C1B3D) % 2 ^ 24
  Nat.xor h (h / 2 ^ 11)

/-- The partner's threshold of band column `q` of `k` (R163). -/
def seamThresh (ramp k q : Nat) : Nat :=
  match ramp with
  | 0 => (2 * q + 1) * 2 ^ 23 / k
  | 1 =>
    let a := 2 * q + 1
    let n := 2 * k
    2 ^ 24 * (3 * a * a * n - 2 * a * a * a) / (n * n * n)
  | _ => if k < 2 * q + 1 then 2 ^ 24 else 0

/-- Band column `j` of the owner's line with mask line `y` belongs to the partner (R163). -/
def partnerPixel (s : State) (d k j y : Nat) : Bool :=
  let n := seamK s d k
  let q := if seamSide s d k = 0 then j else n - 1 - j
  decide (hashH (seamSeed s d k) j y < seamThresh (seamRamp s d k) n q)

/-! Blocks (R148 to R150). -/

/-- Bits per pixel (R149). -/
def greyBits (s : State) (d k : Nat) : Nat := af s d k 20 0 2

/-- The pixels of one packed image line (R149). -/
def unpackLine (cols g : Nat) (ws : List Word) : List Nat :=
  (List.range cols).map fun c => fld (ws.getD (c * g / 24) 0#24) (g * (c % (24 / g))) g

/-- Pixels as 3-bit values, eight per word (R158). -/
def packPix (px : List Nat) : List Word :=
  (List.range (ceilDiv px.length 8)).map fun i =>
    word (((px.drop (8 * i)).take 8).foldr (fun v a => 8 * a + v % 8) 0)

/-- Header fields of a block (R148). -/
structure Hdr where
  w0 : Word
  w1 : Word
  ctx : Nat
  comp : Bool
  crc : Bool
  last : Bool
  seq : Nat
  first : Nat
  lines : Nat
  cols : Nat
  payload : Nat
  colBase : Nat
  lineBase : Nat
  deriving DecidableEq, Repr

/-- Read a header. -/
def hdrOf (ws : List Word) : Hdr :=
  let w := fun i => ws.getD i 0#24
  { w0 := w 0, w1 := w 1, ctx := fld (w 0) 8 8, comp := bit (w 0) 7, crc := bit (w 0) 6, last := bit (w 0) 5
    seq := (w 1).toNat, first := (w 2).toNat, lines := fld (w 3) 12 12 + 1, cols := fld (w 4) 12 12 + 1
    payload := (w 5).toNat, colBase := (w 6).toNat, lineBase := (w 7).toNat }

/-- Length of a block in words (R148). -/
def Hdr.len (h : Hdr) : Nat := 8 + h.payload + b2n h.crc

/-- TYPE and VERSION of a header word (R152). -/
def typeOk (w : Word) : Bool := decide (fld w 20 4 = 0xC) && decide (fld w 16 4 = 1)

/-- Check 2 of R152: the header names a context of this tier whose active DATA_CHUTE names the chute. -/
def ctxOk (s : State) (d c : Nat) (w : Word) : Bool :=
  decide (fld w 8 8 < nCtx s) && decide (af s d (fld w 8 8) 16 0 6 = c)

/-- A bad block (R153): counted, shown, reported with one record; its sequence number is not consumed. -/
def blockBad (s : State) (d c reason : Nat) (h : Hdr) : State :=
  let p := pgSeam d
  let info := word (c * 2 ^ 18 + h.ctx * 2 ^ 8 + reason)
  let s1 := wr (wr (wr (count s p Off.IMG_BAD) p Off.IMG_BAD_INFO info) p Off.IMG_BAD_W0 h.w0) p Off.IMG_BAD_W1 h.w1
  logRecord (raise s1 p 0) d d { fenced := false, cause := ⟨0x15, 0, reason, info.toNat⟩ }

/-! The line store (R158) and seam shares (R164). -/

/-- Lode word of the slot of image line `m`. -/
def slotAddr (s : State) (d k m : Nat) : Nat := geoLs s d k + m % geoDepth s d k * slotWords s d k

/-- LINES of the swathe of a context: the timing context's (R124, R131). -/
def groupLines (s : State) (d k : Nat) : Nat := (aw s d (leader s d k) 13).toNat

/-- Line `n` is at or past the last line that needs image line `m`; numbers are modular (R155, R158). -/
def lineOver (s : State) (d k m n : Nat) : Bool := decide (0 ≤ sgn 24 (uns 24 ((n : Int) - m - offMax s d k)))

/-- A range of image lines holds line `m` of a swathe. -/
def inRange (sw m : Nat) (r : Nat × Nat × Nat) : Bool :=
  decide (r.1 = sw) && decide ((m + 2 ^ 24 - r.2.1) % 2 ^ 24 < r.2.2)

/-- The slot of image line `m` of a swathe is free: it holds neither a stored line nor a blank one not yet freed (R156,
R158). -/
def slotFree (s : State) (d k sw m : Nat) : Bool :=
  let x := ctx s d k
  let n := geoDepth s d k
  let before := (m + 2 ^ 24 - n) % 2 ^ 24
  x.lines.all (fun l => decide (l.m % n ≠ m % n))
    && !(x.blanks.any (inRange sw before)
      && (decide (x.swBuild < sw) || !lineOver s d k before (x.nextBuild + 2 ^ 24 - 1)))

/-- Write consecutive lode words, leaving out any beyond the lode. -/
def lodeWrites (s : State) (d w : Nat) (vs : List Word) : State :=
  each vs.zipIdx s fun s x => if w + x.2 < 2097152 then wrWord s (lodeAddr d (w + x.2)) x.1 else s

/-- The share of an image line in the partner's column order: the owner's pixels assigned to the partner, and 0
elsewhere (R164). -/
def shareOf (s : State) (d k y : Nat) (pix : List Nat) : List Nat :=
  let n := seamK s d k
  let v := (List.range n).map fun j => if partnerPixel s d k j y then pix.getD (seamFirst s d k + j) 0 else 0
  if seamMirror s d k then v.reverse else v

/-- Store a share in the slot of image line `m` of a partner (R158, R164). -/
def storeShare (s : State) (d k m : Nat) (vals : List Nat) : State :=
  let s1 := lodeWrites s d (slotAddr s d k m + 2 + ceilDiv (geoCols s d k) 8) (packPix vals)
  setCtx s1 d k { ctx s1 d k with lines := (ctx s1 d k).lines.map fun l => if l.m = m then { l with share := true } else l }

/-- An image line of swathe `sw` is expanded into its slot (R158): pixels are stored, the share of an owner whose seam is
UP is sent (R164), and a share that came before is stored. -/
def expandLine (s : State) (d k sw m colBase y : Nat) (ready : Bool) (pix : List Nat) : State :=
  let x := ctx s d k
  let send := decide (x.seam = 2) && decide (seamRole s d k = 1)
  let s1 := lodeWrites s d (slotAddr s d k m) ([word colBase, word y] ++ packPix pix)
  let s2 := setCtx s1 d k { x with
    lines := x.lines ++ [{ sw := sw, m := m, ready := ready, sent := send }]
    credits := if send then x.credits - 1 else x.credits
    shares := x.shares.filter fun e => !(decide (e.1 = sw) && decide (e.2.1 = m)) }
  let s3 := if send then
      let (e, j) := seamPeer s d k
      { count s2 (pgSeam d) Off.SHARE_TX with
        seamQ := s2.seamQ ++ [⟨e, j, m, sw, some (shareOf s d k y pix)⟩] }
    else s2
  match x.shares.find? fun e => decide (e.1 = sw) && decide (e.2.1 = m) with
  | some e => storeShare s3 d k m e.2.2
  | none => s3

/-- A slot of a partner is freed: one credit returns to the owner (R164). -/
def creditOwner (s : State) (d k : Nat) : State :=
  if seamRole s d k = 2 ∧ (ctx s d k).seam = 2 then
    { s with seamQ := s.seamQ ++ [⟨(seamPeer s d k).1, (seamPeer s d k).2, 0, 0, none⟩] }
  else s

/-- Free the slots of the image lines for which `f` holds (R158). -/
def freeLines (s : State) (d k : Nat) (f : ImgLine → Bool) : State :=
  let x := ctx s d k
  let gone := x.lines.filter f
  let s1 := setCtx s d k { x with lines := x.lines.filter fun l => !f l }
  each gone s1 fun s _ => creditOwner s d k

/-! Accepting blocks (R151 to R156). -/

/-- What the sequence and shape rules say of a block (R154, R155). -/
inductive Fit | dup | shape | ok (gap : Bool) (missing : Nat) (newSwathe : Bool)
  deriving DecidableEq, Repr

/-- Judge a block by R154 and R155. -/
def fitOf (s : State) (d k : Nat) (h : Hdr) : Fit :=
  let x := ctx s d k
  let diff := sgn 24 (uns 24 ((h.seq : Int) - (x.seqExp : Int)))
  let e := sgn 24 (uns 24 ((h.first : Int) - (x.lineL : Int)))
  if diff < 0 then .dup
  else if h.cols ≠ geoCols s d k then .shape
  else if e = 0 then .ok (decide (0 < diff)) 0 false
  else if diff = 0 then .shape
  else if h.first = 0 ∧ x.lineL ≠ 0 ∧ groupLines s d k ≠ 0 then .ok true 0 true
  else if 0 < e then .ok true e.toNat false
  else .shape

/-- The block of chute `c` changes. -/
def setBlk (s : State) (d c : Nat) (b : Option Blk) : State := setChute s d c { chute s d c with blk := b }

/-- The context that consumes a poisoned word of a chute (R298): the one the block names, else the lowest-numbered
that names the chute. -/
def poisonCtx (s : State) (d c : Nat) (w0 : Option CWord) : Option Nat :=
  match w0 with
  | some w => if w.ecc ≠ .bad ∧ ctxOk s d c w.w then some (fld w.w 8 8)
    else (List.range (nCtx s)).find? fun k => decide (af s d k 16 0 6 = c)
  | none => none

/-- A poisoned word has been delivered to the assembler for a context: one record, and the fence (R298). -/
def asmPoison (s : State) (d c : Nat) (o : Option Nat) : State :=
  match o with
  | none => s
  | some k =>
    let s1 := logRecord s d d
      { fenced := (ctx s d k).st ≠ .fenced, cause := ⟨0x1B, c, 1, 0⟩, effect := poisonEff s d k, reason := 0x0B }
    ctxPoison s1 d k

/-- Hunt for a header (R153): words are discarded and counted until one passes TYPE and CONTEXT. -/
def huntOn : Nat → State → Nat → Nat → State
  | 0, s, _, _ => s
  | f + 1, s, d, c =>
    match (chute s d c).words with
    | [] => s
    | w :: _ =>
      if typeOk w.w && ctxOk s d c w.w then setChute s d c { chute s d c with hunting := false }
      else huntOn f (count (chuteSkip s d c 1) (pgSeam d) Off.IMG_HUNT) d c

/-- Discard `n` words of a bad or duplicate block, now and as they arrive. -/
def dropBlock (s : State) (d c n : Nat) : State :=
  let k := min n (chute s d c).words.length
  let s1 := chuteSkip s d c k
  setChute s1 d c { chute s1 d c with skip := n - k }

/-- The image line is one that block `b` has stored. -/
def ofBlk (b : Blk) (l : ImgLine) : Bool :=
  decide (l.sw = b.sw) && decide ((l.m + 2 ^ 24 - (hdrOf b.head).first) % 2 ^ 24 < (hdrOf b.head).lines)

/-- The block is given up: its image lines leave the line store, and the words still to come are discarded (R153). -/
def blkGiveUp (s : State) (d c : Nat) (b : Blk) : State :=
  let s1 := freeLines (setBlk s d c none) d b.ctx (ofBlk b)
  dropBlock s1 d c ((hdrOf b.head).len - b.got.length)

/-- The block in the assembler fails LENGTH or CRC (R152, R153). -/
def blkFail (s : State) (d c reason : Nat) (b : Blk) : State := blockBad (blkGiveUp s d c b) d c reason (hdrOf b.head)

/-- The block in the assembler is accepted (R154 to R156, R139): its gap is reported, its image lines are usable, and
LAST closes the image of the swathe. -/
def blkTake (s : State) (d c : Nat) (b : Blk) : State :=
  let k := b.ctx
  let h := hdrOf b.head
  let x := ctx s d k
  let pause := decide (af s d k 49 0 2 = 1)
  let x1 := if b.newSw then { x with imgEnds := Tbl.put x.imgEnds x.swIn x.lineL, swIn := x.swIn + 1, lineL := 0 } else x
  let range := (x1.swIn, x1.lineL, b.missing)
  let x2 := if b.missing = 0 then x1
    else if pause then { x1 with gaps := x1.gaps ++ [range] }
    else { x1 with blanks := x1.blanks ++ [range], degraded := true }
  let x3 := { x2 with
    seqExp := (h.seq + 1) % 2 ^ 24
    cntGap := if b.gap then inc12 x2.cntGap else x2.cntGap
    lines := x2.lines.map fun l => if ofBlk b l then { l with ready := true } else l
    lineL := (h.first + h.lines) % 2 ^ 24 }
  let x4 := if h.last then { x3 with imgEnds := Tbl.put x3.imgEnds x3.swIn x3.lineL, swIn := x3.swIn + 1, lineL := 0 } else x3
  let s1 := setCtx (setBlk s d c none) d k x4
  if b.gap then ctxEvt s1 d k 10 else s1

/-- The next word of the block leaves the chute: `f` goes on with it. The answer tells of progress. -/
def blkWord (s : State) (d c : Nat) (b : Blk) (f : State → Blk → Word → State) : Bool × State :=
  match chuteTake s d c with
  | (none, _) => (false, s)
  | (some w, s1) =>
    let b1 := { b with got := w.w :: b.got }
    (true, if w.ecc = .bad then asmPoison (blkGiveUp s1 d c b1) d c (some b.ctx) else f (setBlk s1 d c (some b1)) b1 w.w)

/-- Words of one expanded image line (R149). -/
def blkLineWords (b : Blk) : Nat := ceilDiv ((hdrOf b.head).cols * b.grey) 24

/-- Expanded words join the image line in progress; a full line goes to its slot (R158). -/
def blkAdd (s : State) (d c : Nat) (b : Blk) (ws : List Word) : State :=
  let h := hdrOf b.head
  let si := blkLineWords b
  let line := ws ++ b.line
  let b1 := { b with made := b.made + ws.length, run := b.run - ws.length, line := line, stalled := false }
  if line.length < si then setBlk s d c (some b1)
  else
    let m := (h.first + b.made / si) % 2 ^ 24
    expandLine (setBlk s d c (some { b1 with line := [] })) d b.ctx b.sw m h.colBase ((h.lineBase + m) % 2 ^ 24) (!h.crc)
      (unpackLine h.cols b.grey line.reverse)

/-- A control word of a compressed payload begins a run (R150). -/
def blkToken (s : State) (d c : Nat) (b : Blk) (w : Word) : State :=
  let n := fld w 0 22 + 1
  if (hdrOf b.head).lines * blkLineWords b < b.made + n ∨ (fld w 22 2 ≠ 1 ∧ fld w 22 2 ≠ 2) then blkFail s d c 4 b
  else setBlk s d c (some { b with run := n, zero := decide (fld w 22 2 = 2) })

/-- The expanded block is complete: LENGTH and CRC (R150, R152). -/
def blkEnd (s : State) (d c : Nat) (b : Blk) : Bool × State :=
  let h := hdrOf b.head
  if b.got.length < 8 + h.payload then (true, blkFail s d c 4 b)
  else if h.crc then
    blkWord s d c b fun s b1 w => if crcWords b.got.reverse = w then blkTake s d c b1 else blkFail s d c 5 b1
  else (true, if b.crcReq then blkFail s d c 5 b else blkTake s d c b)

/-- An image line waits for its slot, or for a seam credit, which is counted once (R151, R164). -/
def blkWait (s : State) (d c : Nat) (b : Blk) : Bool × State :=
  let x := ctx s d b.ctx
  let m := ((hdrOf b.head).first + b.made / blkLineWords b) % 2 ^ 24
  if slotFree s d b.ctx b.sw m && decide (x.seam = 2) && decide (seamRole s d b.ctx = 1) && decide (x.credits = 0) && !b.stalled then
    (true, raise (count (setBlk s d c (some { b with stalled := true })) (pgSeam d) Off.SEAM_STALL) (pgSeam d) 4)
  else (false, s)

/-- The next image line of the block can be expanded. -/
def blkRoom (s : State) (d : Nat) (b : Blk) : Bool :=
  let x := ctx s d b.ctx
  slotFree s d b.ctx b.sw (((hdrOf b.head).first + b.made / blkLineWords b) % 2 ^ 24)
    && !(decide (x.seam = 2) && decide (seamRole s d b.ctx = 1) && decide (x.credits = 0))

/-- The context takes blocks (R160). -/
def takesBlocks (s : State) (d k : Nat) : Bool :=
  match (ctx s d k).st with | .armed | .printing | .paused => true | _ => false

/-- One step of the assembler on the block that it is taking (R150 to R153), if it does not wait. -/
def blkStep (s : State) (d c : Nat) (b : Blk) : Bool × State :=
  let h := hdrOf b.head
  if chuteHeld s d c || !takesBlocks s d b.ctx then (false, s)
  else if h.lines * blkLineWords b ≤ b.made then blkEnd s d c b
  else if decide (b.line = []) && !blkRoom s d b then blkWait s d c b
  else if b.run ≠ 0 ∧ b.zero then
    (true, blkAdd s d c b (List.replicate (min b.run (blkLineWords b - b.line.length)) 0#24))
  else if b.got.length = 8 + h.payload then (true, blkFail s d c 4 b)
  else blkWord s d c b fun s b1 w => if b.run = 0 then blkToken s d c b1 w else blkAdd s d c b1 [w]

/-- The assembler goes on with its block until it waits or the block has ended. -/
def blkGo : Nat → State → Nat → Nat → State
  | 0, s, _, _ => s
  | f + 1, s, d, c =>
    match (chute s d c).blk with
    | none => s
    | some b => match blkStep s d c b with
      | (false, t) => t
      | (true, t) => blkGo f t d c

/-- Enough steps for what stands in a chute. -/
def blkFuel (s : State) (d c : Nat) : Nat := 2 * (chute s d c).words.length + 3 * 4096 + 16

/-- A slot or a credit has become free: the context's block in the assembler goes on. -/
def expandAll (s : State) (d k : Nat) : State :=
  let c := (ctx s d k).inChute
  match (chute s d c).blk with
  | none => s
  | some b => if b.ctx = k then blkGo (blkFuel s d c) s d c else s

/-- The assembler begins a block whose header has passed TYPE, CONTEXT, the sequence rule and SHAPE; an uncompressed payload
of the wrong length fails at once (R150, R152). -/
def blkBegin (s : State) (d c : Nat) (h : Hdr) (gap : Bool) (missing : Nat) (newSw : Bool) : State :=
  let k := h.ctx
  let ws := ((chute s d c).words.take 8).map CWord.w
  let b : Blk := { ctx := k, head := ws, sw := (ctx s d k).swIn + b2n newSw, gap := gap, missing := missing, newSw := newSw
                   grey := greyBits s d k, crcReq := rb s (pgSeam d) Off.IMG_CFG 0, got := ws.reverse }
  let total := h.lines * blkLineWords b
  if !h.comp && decide (h.payload ≠ total) then dropBlock (blockBad s d c 4 h) d c h.len
  else
    let s1 := setCtx (each ws s fun s _ => (chuteTake s d c).2) d k { ctx s d k with inChute := c }
    blkGo (blkFuel s1 d c) (setBlk s1 d c (some { b with run := if h.comp then 0 else total })) d c

/-- A poisoned word stands in the header at the head: the words up to it are delivered, and the assembler hunts for the next
header (DESIGN CHOICE, log entry 69: the manual does not say where it goes on). -/
def headPoison (s : State) (d c n : Nat) : State :=
  let w0 := (chute s d c).words.head?
  let s1 := each (List.range (n + 1)) s fun s _ => (chuteTake s d c).2
  asmPoison (setChute s1 d c { chute s1 d c with hunting := true }) d c (poisonCtx s d c w0)

/-- The block whose header stands at the head of the chute (R151, R152): bad by its header, waiting, a duplicate, or
begun. -/
def blockHead (s : State) (d c : Nat) : State :=
  let x := chute s d c
  match (x.words.take 8).findIdx? fun w => decide (w.ecc = .bad) with
  | some n => headPoison s d c n
  | none =>
    if x.words.length < 8 then s
    else
      let h := hdrOf (x.words.map CWord.w)
      let k := h.ctx
      if !typeOk h.w0 then
        let s1 := blockBad s d c 1 h
        let s2 := count (chuteSkip s1 d c 1) (pgSeam d) Off.IMG_HUNT
        huntOn x.words.length (setChute s2 d c { chute s2 d c with hunting := true }) d c
      else if !ctxOk s d c h.w0 then dropBlock (blockBad s d c 2 h) d c h.len
      else if !takesBlocks s d k || decide (geoDepth s d k ≤ (ctx s d k).lines.length) then s
      else match fitOf s d k h with
        | .dup => dropBlock (ctxEvt (setCtx s d k { ctx s d k with cntDup := inc12 (ctx s d k).cntDup }) d k 16) d c h.len
        | .shape => dropBlock (blockBad s d c 3 h) d c h.len
        | .ok gap missing newSw => blkBegin s d c h gap missing newSw

/-- The assembler works on the head of a chute (R151 to R153). -/
def blockAccept (s : State) (d c : Nat) : State :=
  if chuteHeld s d c then s
  else
    let x := chute s d c
    if x.skip ≠ 0 then dropBlock s d c x.skip
    else if x.blk.isSome then blkGo (blkFuel s d c) s d c
    else
      let s1 := if x.hunting then huntOn x.words.length s d c else s
      if (chute s1 d c).hunting then s1 else blockHead s1 d c

/-! Pixels of a line (R159, R165, R166, R168, R169). -/

/-- Line `m` is a blank image line of the swathe being built (R156). -/
def isBlank (s : State) (d k m : Nat) : Bool := (ctx s d k).blanks.any (inRange (ctx s d k).swBuild m)
/-- Line `m` is missing and pauses the group (R156). -/
def isGap (s : State) (d k m : Nat) : Bool := (ctx s d k).gaps.any (inRange (ctx s d k).swBuild m)
/-- Image line `m` lies beyond the swathe's image (R159); in an unbounded swathe the numbers are modular (R155). -/
def beyondEnd (s : State) (d k m : Nat) : Bool :=
  match (ctx s d k).imgEnds.find? fun e => decide (e.1 = (ctx s d k).swBuild) with
  | some e => if groupLines s d k = 0 then decide (0 ≤ sgn 24 (uns 24 ((m : Int) - e.2))) else decide (e.2 ≤ m)
  | none => false

/-- The image line that a row with offset `off` prints in line `n` (R159); none before image line 0. -/
def rowLine (s : State) (d k n off : Nat) : Option Nat :=
  if off ≤ n ∨ (ctx s d k).wrapped then some ((n + 2 ^ 24 - off) % 2 ^ 24) else none

/-- The stored image line `m` of the swathe being built. -/
def imgLine (s : State) (d k m : Nat) : Option ImgLine :=
  (ctx s d k).lines.find? fun l => decide (l.m = m) && decide (l.sw = (ctx s d k).swBuild)

/-- Context `q` serves as redundant context of `p` (R217). -/
def servesFor (s : State) (d q p : Nat) : Bool :=
  is16E s && bound s d q && bound s d p && decide (cPort s d q = cPort s d p) && decide (cFg s d q = cFg s d p)
    && !cTiming s d q && bit (aw s d q 40) 2 && decide (af s d q 42 0 3 = 0) && decide (af s d q 42 8 8 = p) && decide (p ≠ q)

/-- The image lines that a line needs are ready (R159): blank, or stored, with the share where the partner waits for
it; a redundant context waits for none (R217). -/
def lineReady (s : State) (d k m : Nat) : Bool :=
  if servesFor s d k (af s d k 42 8 8) then true
  else if beyondEnd s d k m || isBlank s d k m then true
  else match imgLine s d k m with
    | none => false
    | some l =>
      let x := ctx s d k
      if !l.ready then false
      else if seamRole s d k = 2 ∧ (x.seam = 1 ∨ x.seam = 2) then
        l.share || (let (e, j) := seamPeer s d k; isBlank s e j m)
      else true

/-- A slot's words, read once for the lines being built. -/
abbrev Slots := List (Nat × List Word)

/-- Read the slots of image lines; a poisoned word fences the context (R311). -/
def readSlots : List Nat → State → Nat → Nat → Slots × Bool × State
  | [], s, _, _ => ([], false, s)
  | m :: r, s, d, k =>
    let (ws, bad, s1) := ctxRead s d k false (slotAddr s d k m) (slotWords s d k)
    if bad then ([], true, s1)
    else
      let (l, b, s2) := readSlots r s1 d k
      ((m, ws) :: l, b, s2)

/-- A 3-bit value of a slot. -/
def slotPix (ws : List Word) (base i : Nat) : Nat := fld (ws.getD (base + i / 8) 0#24) (3 * (i % 8)) 3

/-- The band pixel of an owner's line (R165, R166). -/
def ownerBand (s : State) (d k : Nat) (l : ImgLine) (j y v : Nat) : Nat :=
  let x := ctx s d k
  let own := if partnerPixel s d k j y then 0 else v
  if x.seam = 1 then (if seamFallback s d k then v else own)
  else if x.seam = 2 ∨ x.seam = 0 ∨ l.sent then own
  else match x.seamCause with
    | 2 => if x.peerFallback then 0 else own
    | _ => if seamFallback s d k then v else own

/-- The band pixel of a partner's line (R165, R166). -/
def partnerBand (s : State) (d k : Nat) (l : ImgLine) (share v : Nat) : Nat :=
  let x := ctx s d k
  if l.share then share
  else if x.seam = 1 ∨ x.seam = 2 ∨ x.seam = 0 then 0
  else if x.seamCause = 2 ∧ seamFallback s d k then v else 0

/-- `seam_pixel(m, c)` (R159). -/
def seamPixel (s : State) (d k : Nat) (l : ImgLine) (ws : List Word) (c : Nat) : Nat :=
  let v := slotPix ws 2 c
  let f := seamFirst s d k
  if seamRole s d k = 0 ∨ c < f ∨ f + seamK s d k ≤ c then v
  else if seamRole s d k = 1 then ownerBand s d k l (c - f) (ws.getD 1 0#24).toNat v
  else partnerBand s d k l (slotPix ws (2 + ceilDiv (geoCols s d k) 8) (c - f)) v

/-- Tile index of a stored mask (R168). -/
def tileIdx (s : State) (d k x y : Nat) : Nat :=
  (y % (af s d k 26 0 12 + 1)) * (af s d k 26 12 12 + 1) + x % (af s d k 26 12 12 + 1)

/-- The pass value of a pixel (R168): `none` where every pass prints it. A poisoned mask word fences the context. -/
def passValue (s : State) (d k x y : Nat) : Option Nat × Bool × State :=
  let np := af s d k 24 4 4 + 1
  match af s d k 24 0 2 with
  | 1 =>
    let i := tileIdx s d k x y
    let (ws, bad, s1) := ctxRead s d k false (af s d k 25 0 21 + i / 6) 1
    (some (fld (ws.headD 0#24) (4 * (i % 6)) 4 % np), bad, s1)
  | 2 => (some (hashH (aw s d k 27).toNat x y * np / 2 ^ 24), false, s)
  | _ => (none, false, s)

/-- Thinning is in force (R142, R169). -/
def thinning (s : State) (d k : Nat) : Bool := (ctx s d k).throttled && decide (af s d k 52 0 3 = 3)

/-- `thin(x, y)` (R169). -/
def thinPixel (s : State) (d k x y : Nat) : Bool :=
  decide (hashH (Nat.xor (aw s d k 27).toNat 0xA5A5A5) x y / 2 ^ 16 < af s d k 52 8 8)

/-- What the assembler knows of one nozzle of a line before substitution: its row, column, image line, mask place and
size, and whether another pass's drop was restored (R218). -/
structure Noz where
  z : Nat
  row : Option Nat := none
  c : Nat := 0
  m : Nat := 0
  x : Nat := 0
  y : Nat := 0
  v : Nat := 0
  restored : Bool := false
  deriving DecidableEq, Repr

/-- The lowest row that holds a nozzle (R159). -/
def rowOf (rows : List GRow) (z : Nat) : Option (Nat × GRow) :=
  (rows.zipIdx.find? fun r => decide (r.1.nozFirst ≤ z) && decide (z ≤ r.1.nozFirst + r.1.nozCount)).map fun r => (r.2, r.1)

/-- The pass mask and thinning on one pixel (R168, R169, R218): a pixel removed by the mask is restored where the
previous swathe's set withheld it. -/
def maskPixel (s : State) (d k : Nat) (n : Noz) : Noz × Bool × State :=
  let (pv, bad, s1) := passValue s d k n.x n.y
  if bad then ({ n with v := 0 }, true, s1)
  else
    let keep := match pv with | none => true | some e => decide (e = af s d k 24 8 4)
    let rest := !keep && decide (n.v ≠ 0) && match (ctx s d k).opUse with
      | none => false
      | some o => decide (pv = some o.pass) && o.xs.contains n.x
          && decide ((n.y + 2 ^ 24 - o.yFirst) % 2 ^ 24 ≤ (o.yLast + 2 ^ 24 - o.yFirst) % 2 ^ 24)
    let v := if keep || rest then n.v else 0
    let gone := thinning s d k && decide (v ≠ 0) && thinPixel s d k n.x n.y
    let s2 := if gone then setCtx s1 d k { ctx s1 d k with degraded := true } else s1
    ({ n with v := if gone then 0 else v, restored := rest && !gone }, false, s2)

/-- One nozzle of line `n` (R159). -/
def nozPixel (s : State) (d k n : Nat) (rows : List GRow) (sl : Slots) (z : Nat) : Noz × Bool × State :=
  match rowOf rows z with
  | none => ({ z := z }, false, s)
  | some (r, g) =>
    let c := (g.colStart : Int) + g.step * ((z : Int) - (g.nozFirst : Int))
    match (if c < 0 ∨ (geoCols s d k : Int) ≤ c then none else rowLine s d k n g.off) with
    | none => ({ z := z, row := some r }, false, s)
    | some m =>
      let base : Noz := { z := z, row := some r, c := c.toNat, m := m }
      if beyondEnd s d k m || servesFor s d k (af s d k 42 8 8) || isBlank s d k m then (base, false, s)
      else match imgLine s d k m, sl.find? fun e => e.1 = m with
        | some l, some e =>
          let x := ((e.2.getD 0 0#24).toNat + c.toNat) % 2 ^ 24
          maskPixel s d k { base with x := x, y := (e.2.getD 1 0#24).toNat, v := seamPixel s d k l e.2 c.toNat }
        | _, _ => (base, false, s)

/-- Every nozzle of a line, in order; a poisoned word ends it. -/
def nozPixels : List Nat → State → Nat → Nat → Nat → List GRow → Slots → List Noz × Bool × State
  | [], s, _, _, _, _, _ => ([], false, s)
  | z :: r, s, d, k, n, rows, sl =>
    let (x, bad, s1) := nozPixel s d k n rows sl z
    if bad then ([], true, s1)
    else
      let (l, b, s2) := nozPixels r s1 d k n rows sl
      (x :: l, b, s2)

end Sys2Proof.Machine
end

