-- ==== Sys2Proof/Machine/Subst.lean ====
section
/-!
DEFINITION. Substitution and equalization (R213, R215 to R219, R223), the build of a line (R159, R160), and the two
commands that move seam shares and credits (R164).
-/
namespace Sys2Proof.Machine

/-! Nozzle records (R222). -/

/-- The port of a context: latched while bound, else the one its active copy names. -/
def ctxPort (s : State) (d k : Nat) : Nat := if bound s d k then cPort s d k else af s d k 0 12 4
/-- First nozzle of a context. -/
def ctxFirst (s : State) (d k : Nat) : Nat := (ctxRange s d k).1
/-- COUNT of a context. -/
def ctxCount (s : State) (d k : Nat) : Nat := (ctxRange s d k).2

/-- A record of CHUTE_17 (R222): type, cause, nozzle index, its word 2 and F. -/
def nozRecord (s : State) (d k type cause idx : Nat) (w2 : Word) (f : Nat) : State :=
  let seq := (die s d).stateSeq
  let s1 := setDie s d { die s d with stateSeq := (seq + 1) % 4096 }
  chuteRecord s1 d 17
    [word (type * 2 ^ 20 + ctxPort s d k * 2 ^ 16 + cause * 2 ^ 12 + seq), word (k % 256 * 2 ^ 16 + idx % 4096), w2,
     word (f % 2 ^ 16 * 2 ^ 8), lo24 (now s d), hi24 (now s d)]

/-! Failed nozzles (R215). -/

/-- Map entry of port nozzle `z` of a context (R203). -/
def mapOf (s : State) (d k z : Nat) : NzMap := Tbl.get (ctx s d k).map (z - ctxFirst s d k) {}
/-- `FAIL_MASK` marks the nozzle's state as failed. -/
def failedNoz (s : State) (d k z : Nat) : Bool :=
  let st := (mapOf s d k z).st
  decide (st < 7) && rb s (pgEcho d) Off.FAIL_MASK st
/-- `NH_CFG.SUBST_EN`. -/
def substOn (s : State) (d k : Nat) : Bool := is16E s && bit (aw s d k 40) 2
/-- Bit `i` of `SUBST.METHODS`. -/
def method (s : State) (d k i : Nat) : Bool := bit (aw s d k 42) i
/-- The failed nozzles of a context in ascending order. -/
def failedList (s : State) (d k : Nat) : List Nat :=
  ((List.range (ctxCount s d k + 1)).map fun i => ctxFirst s d k + i).filter fun z => failedNoz s d k z
/-- `SUBST.MAX`; 0 is no limit. -/
def substMax (s : State) (d k : Nat) : Nat := af s d k 42 16 8
/-- The failed nozzles served. -/
def servedList (s : State) (d k : Nat) : List Nat :=
  if substMax s d k = 0 then failedList s d k else (failedList s d k).take (substMax s d k)

/-- SUBST_LIMIT and its record, when the failed nozzles first exceed the limit (R215, R222). -/
def limitCheck (s : State) (d k : Nat) : State :=
  let fl := failedList s d k
  let m := substMax s d k
  if m = 0 ∨ fl.length ≤ m ∨ (ctx s d k).limitSeen ∨ !substOn s d k then s
  else
    let s1 := setCtx s d k { ctx s d k with limitSeen := true }
    raise (nozRecord s1 d k 0xB 0 (fl.getD m 0 - ctxFirst s d k) (word (min fl.length 4095)) 0) (pgEcho d) 3

/-- A drop is lost (R215). -/
def dropLost (s : State) (d : Nat) : State := raise (count s (pgEcho d) Off.LOST_DROPS) (pgEcho d) 4
/-- A drop is moved or withheld (R215). -/
def dropMoved1 (s : State) (d : Nat) : State := count s (pgEcho d) Off.SUBST_DROPS

/-! The methods. -/

/-- The nozzle of context `q` that covers column `c`, with its row's offset (R217). -/
def coverOf (s : State) (d q c : Nat) : Option (Nat × Nat) :=
  let rows := geoAll s d q
  (rows.zipIdx.filterMap fun r =>
    ((List.range (r.1.nozCount + 1)).find? fun (i : Nat) =>
        decide ((r.1.colStart : Int) + r.1.step * (i : Int) = (c : Int))
          && decide ((rowOf rows (r.1.nozFirst + i)).map Prod.fst = some r.2)).map fun i => (r.1.nozFirst + i, r.1.off)).head?

/-- Free entries of the moved-drop store of a context's island (R217). -/
def movedFree (s : State) (d k : Nat) : Bool :=
  decide (((echo s d).moved.filter fun e => decide (e.1 / 64 = k / 64)).length < 4096)

/-- The redundant-row method is available for column `c` of a row with offset `off` (R217). -/
def redAvail (s : State) (d k c off : Nat) : Bool :=
  let q := af s d k 42 8 8
  method s d k 0 && servesFor s d q k && movedFree s d k
    && match coverOf s d q c with
      | none => false
      | some (z, o) => !failedNoz s d q z && decide (off + 1 ≤ o) && decide (o ≤ off + 255)

/-- The available neighbours of `z` in row `r` (R216). -/
def neighbours (s : State) (d k r z : Nat) : List Nat :=
  ((if z = 0 then [] else [z - 1]) ++ [z + 1]).filter fun y =>
    decide (ctxFirst s d k ≤ y) && decide (y ≤ ctxFirst s d k + ctxCount s d k)
      && decide ((rowOf (geoAll s d k) y).map Prod.fst = some r) && !failedNoz s d k y

/-- The neighbours method is available. -/
def nbAvail (s : State) (d k r z : Nat) : Bool := method s d k 1 && decide (neighbours s d k r z ≠ [])

/-- The other-pass method can apply at all (R218). -/
def passAvail (s : State) (d k : Nat) : Bool :=
  method s d k 2 && decide (1 ≤ af s d k 24 4 4) && (decide (af s d k 24 0 2 = 1) || decide (af s d k 24 0 2 = 2))

/-- The row and column of a nozzle in its context's geometry. -/
def placeOf (s : State) (d k z : Nat) : Option (Nat × Nat × Nat) :=
  match rowOf (geoAll s d k) z with
  | none => none
  | some (r, g) =>
    let c := (g.colStart : Int) + g.step * ((z : Int) - (g.nozFirst : Int))
    if c < 0 ∨ (geoCols s d k : Int) ≤ c then none else some (r, c.toNat, g.off)

/-- The first image line stored for a swathe: its COL_BASE, and its mask line less its number (R158). -/
def firstLine (s : State) (d k sw : Nat) : Option (Nat × Nat) :=
  ((ctx s d k).lines.find? fun l => decide (l.sw = sw)).map fun l =>
    let a := lodeAddr d (slotAddr s d k l.m)
    ((rawWord s a).toNat, uns 24 (((rawWord s (a + 3)).toNat : Int) - (l.m : Int)))

/-- Form the other-pass set of the swathe at the build of its first line (R218). -/
def formOpSet (s : State) (d k : Nat) : State :=
  let sw := (ctx s d k).swBuild
  match firstLine s d k sw with
  | none => setCtx s d k { ctx s d k with opSet := none }
  | some (cb, y0) =>
    let zs := if substOn s d k && passAvail s d k then
        ((servedList s d k).filter fun z => match placeOf s d k z with
          | none => false
          | some (r, c, off) => !redAvail s d k c off && !nbAvail s d k r z).take 32
      else []
    let set : OpSet :=
      { nozzles := zs, sw := sw, pass := af s d k 24 8 4, yFirst := y0, maskCfg := [24, 25, 26, 27].map (aw s d k)
        xs := zs.map fun z => match placeOf s d k z with
          | none => 0
          | some (_, c, _) => (cb + c) % 2 ^ 24 }
    setCtx s d k { ctx s d k with opSet := if zs = [] then none else some set }

/-- The swathe now built continues the one whose set is given: same mode, passes and mask, next pass (R218). -/
def opFits (s : State) (d k : Nat) (o : OpSet) : Bool :=
  let w := fun i => o.maskCfg.getD i 0#24
  let np := af s d k 24 4 4 + 1
  decide (fld (w 0) 0 2 = af s d k 24 0 2) && decide (fld (w 0) 4 4 + 1 = np)
    && decide (af s d k 24 8 4 = (o.pass + 1) % np)
    && (if af s d k 24 0 2 = 1 then decide (w 1 = aw s d k 25) && decide (w 2 = aw s d k 26) else decide (w 3 = aw s d k 27))

/-- At the first line of a swathe that is built the set of the previous swathe comes into use or is discarded, and the
swathe's own set is formed (R218). -/
def opTurn (s0 : State) (d k : Nat) : State :=
  let s := setCtx s0 d k { ctx s0 d k with opSw := some (ctx s0 d k).swBuild }
  let x := ctx s d k
  let s1 := match x.opSet with
    | none => setCtx s d k { x with opUse := none }
    | some o =>
      if opFits s d k o then setCtx s d k { x with opUse := some (opClose x o) }
      else
        raise (countBy (setCtx s d k { x with opUse := none }) (pgEcho d) Off.OP_DISCARD o.nozzles.length) (pgEcho d) 4
  formOpSet s1 d k

/-! The stage. -/

/-- What substitution has so far: the state, the additions to neighbours, and the sizes in nozzle order, newest first. -/
structure SubSt where
  s : State
  adds : List (Nat × Nat)
  sizes : List (Nat × Nat)
  deriving DecidableEq, Repr

/-- The drop of `n` is lost. -/
def subLost (d : Nat) (a : SubSt) (n : Noz) : SubSt := { a with s := dropLost a.s d, sizes := (n.z, 0) :: a.sizes }

/-- A failed nozzle's pixel: the first method available takes the drop (R215 to R217). -/
def subFailed (d k : Nat) (a : SubSt) (n : Noz) : SubSt :=
  let r := n.row.getD 0
  let off := ((geoAll a.s d k).getD r ⟨0, 0, 0, 0, 0⟩).off
  if redAvail a.s d k n.c off then
    let s1 := setEcho a.s d { echo a.s d with moved := (echo a.s d).moved ++ [(k, n.m, n.c, n.v)] }
    { a with s := dropMoved1 s1 d, sizes := (n.z, 0) :: a.sizes }
  else if nbAvail a.s d k r n.z then
    let ns := neighbours a.s d k r n.z
    let add := rf a.s (pgEcho d) (if ns.length = 2 then Off.NB_ADD else Off.NB_ONE) (3 * (n.v - 1)) 3
    { s := dropMoved1 a.s d, adds := a.adds ++ ns.map fun y => (y, add), sizes := (n.z, 0) :: a.sizes }
  else subLost d a n

/-- One nozzle of a primary context. -/
def subNoz (d k : Nat) (served : List Nat) (a : SubSt) (n : Noz) : SubSt :=
  let member := match (ctx a.s d k).opSet with | none => false | some o => o.nozzles.contains n.z
  if n.v = 0 then { a with sizes := (n.z, 0) :: a.sizes }
  else if member && !n.restored then { a with s := dropMoved1 a.s d, sizes := (n.z, 0) :: a.sizes }
  else if !failedNoz a.s d k n.z then { a with sizes := (n.z, n.v) :: a.sizes }
  else if served.contains n.z then subFailed d k a n
  else subLost d a n

/-- One nozzle of a redundant context: it prints the drop moved to it, unless it has failed (R217). -/
def redNoz (d k : Nat) (a : SubSt) (n : Noz) : SubSt :=
  let p := af a.s d k 42 8 8
  match n.row, (echo a.s d).moved.find? fun e => decide (e.1 = p) && decide (e.2.1 = n.m) && decide (e.2.2.1 = n.c) with
  | some _, some e =>
    let s1 := setEcho a.s d { echo a.s d with moved := (echo a.s d).moved.erase e }
    if failedNoz s1 d k n.z then subLost d { a with s := s1 } n else { a with s := s1, sizes := (n.z, e.2.2.2) :: a.sizes }
  | _, _ => { a with sizes := (n.z, 0) :: a.sizes }

/-- With substitution off only a DISABLED nozzle loses its drops (R215). -/
def offNoz (d k : Nat) (a : SubSt) (n : Noz) : SubSt :=
  if n.v ≠ 0 ∧ (mapOf a.s d k n.z).st = 6 then subLost d a n else { a with sizes := (n.z, n.v) :: a.sizes }

/-- The substitution stage (R215, R223): the sizes of the context's nozzles, in order. -/
def substitute (s : State) (d k : Nat) (l : List Noz) : List Nat × State :=
  if !is16E s then (l.map Noz.v, s)
  else
    let s0 := limitCheck s d k
    let a0 : SubSt := ⟨s0, [], []⟩
    let a :=
      if servesFor s0 d k (af s0 d k 42 8 8) then l.foldl (redNoz d k) a0
      else if substOn s0 d k then l.foldl (subNoz d k (servedList s0 d k)) a0
      else l.foldl (offNoz d k) a0
    (a.sizes.reverse.map fun e => min 7 (e.2 + ((a.adds.filter fun x => decide (x.1 = e.1)).map Prod.snd).sum), a.s)

/-- The equalization stage (R188, R219, R223): select codes. -/
def equalize (s : State) (d k : Nat) (sizes : List Nat) : List Nat :=
  sizes.zipIdx.map fun x =>
    4 * x.1 + (if is16E s then (mapOf s d k (ctxFirst s d k + x.2)).trim % 4 else 0)

/-! Building a line (R159, R160). -/

/-- The image lines that line `n` needs: those of rows with a nozzle on an image column. -/
def needed (s : State) (d k n : Nat) : List Nat :=
  ((geoAll s d k).filter fun g => (List.range (g.nozCount + 1)).any fun i =>
        let c := (g.colStart : Int) + g.step * (i : Int)
        decide (0 ≤ c) && decide (c < (geoCols s d k : Int))).filterMap (fun g => rowLine s d k n g.off) |>.eraseDups

/-- The context takes part in building (R160, R161, R203). -/
def buildOpen (s : State) (d k : Nat) : Bool :=
  let x := ctx s d k
  (match x.st with | .armed | .printing | .paused => true | _ => false)
    && !x.geomBad && decide (x.geom ≠ []) && x.mapReady && !x.rejoin && decide (x.built.length < 8)
    && (decide (groupLines s d k = 0) || decide (x.nextBuild < groupLines s d k))

/-- A partner prints the band of an unshared line from host data (R166). -/
def hostBand (s : State) (d k : Nat) : Bool :=
  let x := ctx s d k
  decide (seamRole s d k = 2) && (decide (x.seam = 3) || decide (x.seam = 4)) && decide (x.seamCause = 2) && seamFallback s d k

/-- Build the next line of a context (R159, R160): from the line store through mask, substitution and equalization
into the queue of built lines; slots no later line needs are freed (R158). -/
def lineBuild (s : State) (d k : Nat) : State :=
  let n := (ctx s d k).nextBuild
  if !(buildOpen s d k && (needed s d k n).all fun m => lineReady s d k m) then s
  else
    let ms := (needed s d k n).filter fun m => (imgLine s d k m).isSome && !beyondEnd s d k m
    let (sl, bad, s1) := readSlots ms s d k
    if bad then s1
    else
      let s2 := if (ctx s1 d k).opSw = some (ctx s1 d k).swBuild then s1 else opTurn s1 d k
      let zs := (List.range (ctxCount s d k + 1)).map fun i => ctxFirst s d k + i
      let (px, bad2, s3) := nozPixels zs s2 d k n (geoAll s d k) sl
      if bad2 then s3
      else
        let (sizes, s4) := substitute s3 d k px
        let x := ctx s4 d k
        let mark := hostBand s4 d k
        let s5 := setCtx s4 d k { x with
          built := x.built ++ [{ sw := x.swBuild, n := n, codes := equalize s4 d k sizes }]
          nextBuild := (n + 1) % 2 ^ 24
          wrapped := x.wrapped || decide (n + 1 = 2 ^ 24)
          blanks := x.blanks.filter fun r => !(decide (r.1 = x.swBuild) && lineOver s d k (r.2.1 + r.2.2 - 1) n)
          lines := x.lines.map fun l => if mark && ms.contains l.m && !l.share then { l with ownHost := true } else l }
        expandAll (freeLines s5 d k fun l => decide (l.sw = x.swBuild) && lineOver s d k l.m n) d k

/-- LINE_BUILD (R159). -/
def execLineBuild (d k : Nat) (s : State) : Host.Outcome State Fault Refusal :=
  if d < s.part.dies ∧ k < nCtx s then ok (lineBuild s d k) else ok s

/-! Shares and credits (R164 to R166). -/

/-- A share is discarded (R165, R166). -/
def shareDrop (s : State) (d : Nat) : State := raise (count s (pgSeam d) Off.SEAM_DROP) (pgSeam d) 5

/-- The share of a line reaches its partner (R164 to R166, R172): stored, kept until the slot's image line stands, or
discarded: in WAITING, by a page that is neither RUNNING nor shutting down, and for a line whose band the partner prints,
or has printed, from host data. -/
def shareArrive (s : State) (q : SeamMsg) (vals : List Nat) : State :=
  let d := q.die
  let k := q.ctx
  let x := ctx s d k
  let up := running s (pgSeam d) || decide (pstate s (pgSeam d) = stShutting)
  if x.seam = 1 ∨ seamRole s d k ≠ 2 ∨ !up then shareDrop s d
  else
    let s1 := count s (pgSeam d) Off.SHARE_RX
    let late := decide (q.sw < x.swBuild) || (decide (q.sw = x.swBuild) && lineOver s d k q.m (x.nextBuild + 2 ^ 24 - 1)
      && (decide (x.nextBuild ≠ 0) || x.wrapped))
    match x.lines.find? fun l => decide (l.m = q.m) && decide (l.sw = q.sw) with
    | some l => if l.ownHost then shareDrop s1 d else storeShare s1 d k q.m vals
    | none => if late then shareDrop s1 d else setCtx s1 d k { x with shares := x.shares ++ [(q.sw, q.m, vals)] }

/-- SEAM_SHARE_RECEIVE (R164): the first share in flight to the die arrives. -/
def execSeamShareReceive (d : Nat) (s : State) : Host.Outcome State Fault Refusal :=
  match s.seamQ.find? fun q => decide (q.die = d) && q.vals.isSome with
  | none => ok s
  | some q => ok (shareArrive { s with seamQ := s.seamQ.erase q } q (q.vals.getD []))

/-- SEAM_CREDIT_RETURN (R164): the first credit in flight to the die arrives. -/
def execSeamCreditReturn (d : Nat) (s : State) : Host.Outcome State Fault Refusal :=
  match s.seamQ.find? fun q => decide (q.die = d) && q.vals.isNone with
  | none => ok s
  | some q =>
    let s1 := { s with seamQ := s.seamQ.erase q }
    ok (expandAll (setCtx s1 d q.ctx { ctx s1 d q.ctx with credits := (ctx s1 d q.ctx).credits + 1 }) d q.ctx)

end Sys2Proof.Machine
end

