-- ==== Sys2Proof/Machine/Bind.lean ====
section
/-!
DEFINITION. The fire scheduler: prediction (R132 to R134), messages of the encoder island (R107, R130, R140, R141),
binding (R131, R133, R135, R137, R191), freezing (R190, R241), firing (R186, R193), stalls (R138, R413), draining
(R126) and followers that rejoin (R127).
-/
namespace Sys2Proof.Machine

/-! Prediction (R132 to R134). -/

/-- The placement grid of a mode in fine steps (R134). -/
def gridOf (m : Nat) : Int := match m with | 5 => 4 | 6 | 7 => 16 | _ => 1

/-- The nearest multiple of the grid, a tie to the earlier (R134). -/
def roundGrid (g : Int) (q : Rat) : Int := -g * ((1 / 2 : Rat) - q / (g : Rat)).floor

/-- The first multiple of the grid at or after an instant. -/
def gridUp (g t : Int) : Int := -((-t) / g) * g

/-- One Newton step of R132: `none` where motion stops before the boundary. -/
def newton (vs as d vmin tau : Rat) : Option Rat :=
  let g := vs * tau + as * tau * tau / 2 - d
  let gd := vs + as * tau
  if gd * 65536 < vmin ∨ gd ≤ 0 then none else some (tau - g / gd)

/-- The fire instant of line `n` in fine steps before rounding (R132), from timing words `w`, a reference in 24.24 and
an estimate. -/
def place (w : Nat → Word) (ref : Int) (e : Est) (n : Nat) : Option Rat :=
  let sg : Int := if bit (w 15) 0 then -1 else 1
  let b := ref + originOf w + sg * (n : Int) * (pitchOf w : Int)
  let d : Rat := ((sg * sgn 48 (uns 48 (b - e.p)) : Int) : Rat) / 2 ^ 24
  let vs : Rat := ((sg * e.v : Int) : Rat) / 2 ^ 40
  let as : Rat := ((sg * e.a : Int) : Rat) / 2 ^ 47
  let vmin : Rat := (fld (w 15) 8 16 : Nat)
  if !e.valid ∨ vs * 65536 < vmin ∨ vs ≤ 0 then none
  else do
    let t1 ← newton vs as d vmin (d / vs)
    let t2 ← newton vs as d vmin t1
    return 16 * ((e.t : Rat) + t2) - ((w 12).toNat : Rat) + ((sgn 16 (fld (w 14) 0 16) : Int) : Rat)

/-- The estimate a context works from: the last that reached the jet island from its channel (R107). -/
def estOf (s : State) (d k : Nat) : Est := (enc s d (cSrc s d k)).jet

/-- The fire tick of the next line of a timing context under its active words (R132, R134). -/
def predictNext (s : State) (d k : Nat) : Option Int :=
  (place (aw s d k) (ctx s d k).ref (estOf s d k) (ctx s d k).next).map (roundGrid (gridOf (modeOf s d)))

/-- T_min in fine steps (R135). -/
def tMin (s : State) (d k : Nat) : Int := 16 * (ceilDiv 250000000 (cRate s d k) : Nat)

/-- Keep the prediction of the next line up to date. -/
def rePredict (s : State) (d k : Nat) : State :=
  setCtx s d k { ctx s d k with fireNext := if (ctx s d k).st = .printing then predictNext s d k else (ctx s d k).fireNext }

/-- The refined placement of a bound cycle: not before 40 ticks from now, and a cycle time after the cycle before it. -/
def refineCycle (s : State) (d k : Nat) (prev : Option Int) (c : Cycle) : Cycle :=
  if c.frozen || c.fired then c
  else match place (fun i => c.timing.getD (i - 8) 0#24) (ctx s d k).ref (estOf s d k) c.line with
    | none => c
    | some q =>
      let t := roundGrid (gridOf (modeOf s d)) q
      let a := nowFine s d + 640
      let t1 := if fle a t then t else gridUp (gridOf (modeOf s d)) a
      match prev with
      | none => { c with t0 := t1 }
      | some p => { c with t0 := if fle (p + tMin s d k) t1 then t1 else p + tMin s d k }

/-- Refine the bound cycles of a group in order. -/
def refineAll (s : State) (d k g : Nat) : List Cycle → Option Int → List Cycle
  | [], _ => []
  | c :: r, prev =>
    if c.fg = g then
      let c1 := refineCycle s d k prev c
      c1 :: refineAll s d k g r (some c1.t0)
    else c :: refineAll s d k g r prev

/-- Recompute the placements of a timing context after an estimate (R132). -/
def recompute (s : State) (d k : Nat) : State :=
  let p := cPort s d k
  let g := cFg s d k
  let s1 := setPort s d p { port s d p with cycles := refineAll s d k g (port s d p).cycles (ctx s d k).lastFired }
  let last := ((port s1 d p).cycles.filter fun c => decide (c.fg = g)).getLast?
  let s2 := match last with
    | none => s1
    | some c => setCtx s1 d k { ctx s1 d k with lastPlaced := some c.t0 }
  rePredict s2 d k

/-- The contexts bound to a channel. -/
def boundTo (s : State) (d c : Nat) : List Nat :=
  (List.range (nCtx s)).filter fun k => bound s d k && decide (cSrc s d k = c)

/-- An estimate reaches the contexts bound to its channel (R107, R132, R141). -/
def estimateArrives (s : State) (d c : Nat) (e : Est) : State :=
  let s1 := setEnc s d c { enc s d c with jet := e }
  each (boundTo s1 d c) s1 fun s k =>
    let s2 := if e.valid then setCtx s d k { ctx s d k with lost := false } else s
    if cTiming s2 d k && activeSt s2 d k then recompute s2 d k else s2

/-- ESTIMATE_ARRIVAL (R107): the first estimate of the channel in flight. -/
def execEstimateArrival (d c : Nat) (s : State) : Host.Outcome State Fault Refusal :=
  match takeMsg s d fun m => decide (m.chan = c) && (match m.kind with | .estimate _ => true | _ => false) with
  | some (⟨_, _, _, .estimate e⟩, s1) => ok (estimateArrives s1 d c e)
  | _ => ok s

/-! Steps (R140). -/

/-- Δ counts added to the active ORIGIN, and to the timing of bound cycles not yet frozen. -/
def shiftOrigin (s : State) (d k : Nat) (delta : Int) : State :=
  let sh := fun (w : Word) => wordI ((w.toNat : Int) + delta)
  let x := ctx s d k
  let s1 := setCtx s d k { x with act := Tbl.put x.act 11 (sh (Tbl.get x.act 11 0#24)) }
  let p := cPort s d k
  setPort s1 d p { port s1 d p with
    cycles := (port s1 d p).cycles.map fun c =>
      if c.tctx = k ∧ ¬c.frozen then { c with timing := c.timing.zipIdx.map fun w => if w.2 = 3 then sh w.1 else w.1 } else c }

/-- A policy action PAUSE of a context, with its record (R126, R411). -/
def policyPause (s : State) (d k cause : Nat) (record : Bool) : State :=
  if (ctx s d k).st = .printing ∨ (ctx s d k).st = .draining then
    ctxPolicyPause (if record then ctxRecord s d k cause false else s) d k cause
  else s

/-- POSITION_STEP at one context (R140). -/
def stepAt (s : State) (d k : Nat) (delta : Int) : State :=
  let x := ctx s d k
  let s1 := ctxEvt (setCtx s d k { x with cntStep := inc12 x.cntStep }) d k 11
  let lim := af s1 d k 50 8 16
  if !bit (aw s1 d k 50) 0 && (decide (lim = 0) || decide (delta.natAbs ≤ lim)) then
    shiftOrigin s1 d k delta
  else policyPause s1 d k 5 true

/-- A step reaches the contexts bound to a channel; the estimate the island holds moves with the count. -/
def stepArrives (s : State) (d c : Nat) (delta : Int) : State :=
  let x := enc s d c
  let s1 := setEnc s d c { x with jet := { x.jet with p := x.jet.p + delta * 2 ^ 24 } }
  each (boundTo s1 d c) s1 fun s k => stepAt s d k delta

/-- POSITION_STEP (R140). -/
def execPositionStep (d c : Nat) (s : State) : Host.Outcome State Fault Refusal :=
  match takeMsg s d fun m => decide (m.chan = c) && (match m.kind with | .step _ _ => true | _ => false) with
  | some (⟨_, _, _, .step z _⟩, s1) => ok (stepArrives s1 d c z)
  | _ => ok s

/-! Source lost (R141). -/

/-- SOURCE.ACT at a context that printed when the message came (R141). A fenced channel's record stands for the policy
(R411). -/
def lostPolicy (s : State) (d c k : Nat) : State :=
  let rec_ := !fenced s (pgEnc d c)
  if bit (aw s d k 51) 0 then
    if (ctx s d k).st = .fenced then s else ctxFence (if rec_ then ctxRecord s d k 6 true else s) d k 6
  else policyPause s d k 6 rec_

/-- SOURCE_LOST reaches the contexts bound to a channel. -/
def lostArrives (s : State) (d c : Nat) : State :=
  let x := enc s d c
  let s1 := setEnc s d c { x with jet := { x.jet with valid := false } }
  let ks := boundTo s1 d c
  let s2 := each ks s1 fun s k =>
    let s3 := ctxEvt (setCtx s d k { ctx s d k with lost := true }) d k 12
    if (ctx s3 d k).st = .printing ∨ (ctx s3 d k).st = .draining then withdrawAll s3 d k fun c => !c.frozen else s3
  each (ks.filter fun k => decide ((ctx s1 d k).st = .printing) || decide ((ctx s1 d k).st = .draining)) s2 fun s k =>
    lostPolicy s d c k

/-- SOURCE_LOST (R141). -/
def execSourceLost (d c : Nat) (s : State) : Host.Outcome State Fault Refusal :=
  match takeMsg s d fun m => decide (m.chan = c) && (match m.kind with | .lost => true | _ => false) with
  | some (_, s1) => ok (lostArrives s1 d c)
  | none => ok s

/-! Starting (R129, R130). -/

/-- A timing context and its group enter PRINTING with a reference. -/
def startGroup (s : State) (d k : Nat) (ref : Int) : State :=
  let s1 := ctxMove s d k .printing 0
  rePredict (setCtx s1 d k { ctx s1 d k with ref := ref, next := (ctx s1 d k).doneN }) d k

/-- The estimate extrapolated to a stamp, in 24.24 (R106, R130). -/
def extrapolate (s : State) (e : Est) (stamp : Nat) : Int :=
  let dt : Rat := (tickDiff stamp e.t : Rat)
  let q : Rat := (e.p : Rat) + (e.v : Rat) / 2 ^ 16 * dt + (e.a : Rat) / 2 ^ 23 * dt * dt / 2
  nearest s q.num q.den

/-- A product-detect edge at one context (R29, R130). -/
def pdAt (s : State) (d n stamp accepted k : Nat) : State :=
  let x := ctx s d k
  if x.st = .armed ∧ cTiming s d k ∧ cStartPd s d k ∧ cPd s d k = n ∧ ¬x.lost ∧ x.pdFrom ≤ accepted then
    if rateOk s d (cRate s d k) then startGroup s d k (extrapolate s (estOf s d k) stamp) else ctxEvt s d k 17
  else s

/-- PD_EDGE_ARRIVAL (R130). -/
def execPdEdgeArrival (d n : Nat) (s : State) : Host.Outcome State Fault Refusal :=
  match takeMsg s d fun m => (match m.kind with | .pdEdge i _ _ _ => decide (i = n) | _ => false) with
  | some (⟨_, _, _, .pdEdge _ stamp acc _⟩, s1) =>
    ok (each ((List.range (nCtx s1)).filter (bound s1 d)) s1 fun s k => pdAt s d n stamp acc k)
  | _ => ok s

/-! Lines completed (R122, R131). -/

/-- Cycles of a group that have not both fired and become known as delivered or lost. -/
def groupOpen (s : State) (d p g : Nat) : Bool := (port s d p).cycles.any fun c => decide (c.fg = g)

/-- The new swathe begins when the old one's bound lines have completed (R131). -/
def turnEnd (s : State) (d k : Nat) : State :=
  let x := ctx s d k
  if x.turning ∧ x.st = .printing ∧ !groupOpen s d (cPort s d k) (cFg s d k) then
    let s1 := each (members s d (cPort s d k) (cFg s d k)) s fun s m => setCtx s d m { ctx s d m with doneN := 0 }
    let s2 := setCtx s1 d k { ctx s1 d k with turning := false, next := 0 }
    if cStartPd s d k then
      let s3 := ctxMove s2 d k .armed 0
      setCtx s3 d k { ctx s3 d k with pdFrom := max x.pdFrom s.clock }
    else rePredict s2 d k
  else s

/-- A member's line of a cycle is completed, as blank or not. -/
def memberDone (s : State) (d p : Nat) (c : Cycle) (k : Nat) (blank : Bool) : State :=
  match (port s d p).cycles.find? fun x => decide (x.fg = c.fg) && decide (x.cseq = c.cseq) with
  | none => s
  | some x =>
    if x.members.any fun m => decide (m.ctx = k) && !m.done then
      lineDone (setCycle s d p { x with members := x.members.map fun m => if m.ctx = k then { m with done := true } else m })
        d k blank
    else s

/-- The cycle leaves the list when it has fired and its outcome is known. -/
def retire (s : State) (d p : Nat) (c : Cycle) : State :=
  match (port s d p).cycles.find? fun x => decide (x.fg = c.fg) && decide (x.cseq = c.cseq) with
  | none => s
  | some x =>
    if x.fired && (x.acked || x.lostFrame) then
      let s1 := setPort s d p { port s d p with
        cycles := (port s d p).cycles.filter fun y => !(decide (y.fg = c.fg) && decide (y.cseq = c.cseq)) }
      turnEnd s1 d x.tctx
    else s

/-- The outcome of a cycle's frame is known (R122, R138, R240). -/
def cycleOutcome (s : State) (d p : Nat) (c : Cycle) (delivered : Bool) : State :=
  let s1 := setCycle s d p { c with acked := c.acked || delivered, lostFrame := c.lostFrame || !delivered }
  let s2 := each c.members s1 fun s m =>
    let good := delivered && !m.nul
    let a := if good then setCtx (stallReset s d m.ctx) d m.ctx { ctx (stallReset s d m.ctx) d m.ctx with under := false }
      else stallMark s d m.ctx
    if m.nul then a else memberDone a d p c m.ctx (!delivered)
  retire s2 d p c

/-- Frames of the port can be delivered (R198, R235). -/
def deliverable (s : State) (d p : Nat) : Bool :=
  running s (pgHp d p) && (decide ((port s d p).link = 3) || decide ((port s d p).link = 4))

/-! Swathes (R131). -/

/-- What the assembler does at a swathe boundary: lines of the new swathe are built from line 0, and the old swathe's
image lines are let go. -/
def asmTurn (s : State) (d k : Nat) : State :=
  let x := ctx s d k
  let s1 := setCtx s d k { x with swBuild := x.swBuild + 1, nextBuild := 0, wrapped := false, built := [], swIn := max x.swIn (x.swBuild + 1) }
  expandAll (freeLines s1 d k fun l => decide (l.sw ≤ x.swBuild)) d k

/-- The last line of the group's swathe has been bound (R131). -/
def swatheDue (s : State) (d k : Nat) : Bool :=
  let x := ctx s d k
  let lines := (aw s d k 13).toNat
  decide (lines ≠ 0) && decide (lines ≤ x.next) && !x.turning && decide (x.st = .printing)

/-- The swathe boundary of a group whose last line has been bound (R119, R131). -/
def swatheCheck (s : State) (d k : Nat) : State :=
  if !swatheDue s d k then s
  else
    let ms := movers s d k
    let cont := ctxGo s d k && (decide (ctxBoundary s d k = 3) || decide (ctxBoundary s d k = 4))
    let s1 := each ms s fun s m => ctxEvt s d m 4
    let s2 := each ms s1 fun s m =>
      if ctxGo s d m && (decide (ctxBoundary s d m = 3) || decide (ctxBoundary s d m = 4)) then ctxHandOver s d m else s
    if cont then
      let s3 := each ms s2 fun s m => asmTurn s d m
      let s4 := setCtx s3 d k { ctx s3 d k with turning := true, pdFrom := s.clock + 1, fireNext := none }
      turnEnd s4 d k
    else
      let s3 := setCtx s2 d k { ctx s2 d k with drainCause := 12 }
      ctxMove s3 d k .draining 12

/-! Followers that rejoin (R127). -/

/-- Lines from DONE up to `n` are completed as skipped: their data is consumed. -/
def skipTo (s : State) (d k n : Nat) : State :=
  let x := ctx s d k
  let c := (n + 2 ^ 24 - x.doneN) % 2 ^ 24
  let ahead := decide (0 < sgn 24 (uns 24 ((n : Int) - x.nextBuild)))
  let s1 := setCtx s d k { x with
    doneN := n, cntLate := min (x.cntLate + c) 4095, degraded := x.degraded || decide (c ≠ 0)
    built := x.built.filter fun b => decide (0 ≤ sgn 24 (uns 24 ((b.n : Int) - n)))
    nextBuild := if ahead then n else x.nextBuild, wrapped := x.wrapped || (ahead && decide (n < x.nextBuild)) }
  let s2 := if c = 0 then s1 else ctxEvt s1 d k 13
  expandAll (freeLines s2 d k fun l => decide (l.sw = x.swBuild) && lineOver s d k l.m (n + 2 ^ 24 - 1)) d k

/-- A released follower takes its timing context's state and skips what the group has placed (R127); in a PAUSED group it
does so at RESUME, which settles the first line that the group then binds. -/
def rejoinNow (s : State) (d t k : Nat) : State :=
  let st := (ctx s d t).st
  let s1 := setCtx s d k { ctx s d k with rejoin := false, st := st, fireNext := none, skipDue := decide (st = .paused) }
  let s2 := match entryEvt .armed st with | none => s1 | some i => ctxEvt s1 d k i
  seamUpdate (tryHandOver (if st = .paused then s2 else skipTo s2 d k (ctx s d t).next) d k) d k

/-! Binding (R133). -/

/-- The set a cycle uses (R176). -/
def chosenSet (s : State) (d p : Nat) : Nat :=
  match leadCtx s d p with
  | none => 0
  | some l =>
    if modeOf s d = 3 then af s d l 32 8 4
    else if (ctx s d l).throttled ∧ af s d l 52 0 3 = 2 then af s d l 32 4 4 else af s d l 32 0 4
/-- The select table a cycle uses (R176). -/
def chosenTable (s : State) (d p : Nat) : Nat := match leadCtx s d p with | none => 0 | some l => af s d l 33 0 4

/-- The set is valid in its bank (R184, R191). -/
def setValid (s : State) (d p b k : Nat) : Bool :=
  rb s (pgHp d p) (if b = 0 then Off.WF_VALID_0 else Off.WF_VALID_1) k && decide ((wset s d p b k).kind ≠ 0)

/-- The lines of a group's printing members. -/
def liveMembers (s : State) (d k : Nat) : List Nat :=
  (movers s d k).filter fun m => decide ((ctx s d m).st = .printing)

/-- The built line of a member. -/
def builtLine (s : State) (d m n : Nat) : Option Built :=
  (ctx s d m).built.find? fun b => decide (b.n = n) && decide (b.sw = (ctx s d m).swBuild)

/-! Choice of the sensed nozzle (R205, R206, R214). -/

/-- The running sweep of the die names a context of this port. -/
def sweepOn (s : State) (d p : Nat) : Bool :=
  let k := rf s (pgEcho d) Off.SWEEP_CFG 16 8
  decide (rf s (pgEcho d) Off.SWEEP_STAT 0 3 = 1) && bound s d k && decide (cPort s d k = p)

/-- `MODE_DIV` of a mode; in SERVICE it is 1 where a sweep runs (R24, R205). -/
def modeDiv (mode : Nat) (sweeps : Bool) : Nat :=
  match mode with | 3 => b2n sweeps | 4 => 1 | 5 => 2 | 6 => 4 | _ => 0

/-- `EFF` of a mode divisor under the thermal fields of `ECHO_DIV` (R205). -/
def effDiv (s : State) (d m : Nat) : Nat :=
  let w := rd s (pgEcho d) Off.ECHO_DIV
  if bit w 7 then 0 else m * 2 ^ fld w 4 2

/-- The divisor in force for a port (R205). -/
def effOf (s : State) (d p : Nat) : Nat := effDiv s d (modeDiv (modeOf s d) (sweepOn s d p))

/-- The mode under which a cycle is sensed: the one that comes for a cycle placed at or after the switch tick (R27; DEDUCED:
a cycle begins at its placed tick). -/
def senseMode (s : State) (d : Nat) (c : Cycle) : Nat :=
  if inTransition s && decide (0 ≤ sgn 48 (uns 48 (c.t0 / 16 - (rd48 s (pgMode 0) Off.MODE_SW_TS_L : Int)))) then s.pkg.nextMode
  else modeOf s d

/-- The drop size a cycle gives a port nozzle. -/
def sizeAt (s : State) (d : Nat) (c : Cycle) (z : Nat) : Nat := codeAt s d c z / 4

/-- Nozzle `z` is a candidate in a cycle (R206): its context. -/
def candidate (s : State) (d p : Nat) (c : Cycle) (z : Nat) : Option Nat :=
  (c.members.find? fun m =>
    !m.nul && decide (cFirst s d m.ctx ≤ z) && decide (z ≤ cFirst s d m.ctx + cCount s d m.ctx)
      && bit (aw s d m.ctx 40) 0 && !(ctx s d m.ctx).ntBad && decide ((mapOf s d m.ctx z).st ≠ 6)
      && decide (sizeAt s d c z ≠ 0)
      && (!bit (aw s d m.ctx 40) 1 || (List.range (rf s (pgEcho d) Off.ECHO_CFG 8 2 + 1)).all fun i =>
          decide (sizeAt s d c (z + i + 1) = 0) && (decide (z ≤ i) || decide (sizeAt s d c (z - i - 1) = 0)))
      && (!sweepOn s d p || (decide (m.ctx = rf s (pgEcho d) Off.SWEEP_CFG 16 8)
            && decide (z = cFirst s d m.ctx + rf s (pgEcho d) Off.SWEEP_STAT 12 12)))).map Member.ctx

/-- End the sweep of a die (R214): state and reason, SWEEP_DONE. -/
def sweepEnd (s : State) (d st fail : Nat) : State :=
  let w := rd s (pgEcho d) Off.SWEEP_STAT
  raise (wr s (pgEcho d) Off.SWEEP_STAT (setFld (setFld w 0 3 st) 4 4 fail)) (pgEcho d) 6

/-- A sweep whose mode has left SERVICE, or whose context has left PRINTING, ends at the next cycle of its port, also if the
one or the other has come back since (R214). -/
def sweepCheck (s : State) (d p : Nat) : State :=
  if rf s (pgEcho d) Off.SWEEP_STAT 0 3 = 1 ∧ (echo s d).sweep.port = p ∧ (echo s d).sweep.broken then sweepEnd s d 3 4 else s

/-- The sweep goes on to the next nozzle, or ends after the last (R214). -/
def sweepNext (s : State) (d : Nat) (missed : Bool) : State :=
  let p := pgEcho d
  let k := rf s p Off.SWEEP_CFG 16 8
  let i := rf s p Off.SWEEP_STAT 12 12
  let off := if missed then Off.SWEEP_MISS else Off.SWEEP_DONE
  let s1 := wf s p off 0 13 (rf s p off 0 13 + 1)
  let x := echo s1 d
  let s2 := setEcho s1 d { x with sweep := { port := x.sweep.port, broken := x.sweep.broken } }
  if i = cCount s d k then sweepEnd s2 d 2 0 else wf s2 p Off.SWEEP_STAT 12 12 (i + 1)

/-- A sensing cycle of a sweep: once 64 × R of them have passed for the nozzle it counts as missed and the sweep goes on, and
the cycle is spent on the nozzle now swept (R214). -/
def sweepSpend (s : State) (d p : Nat) : State :=
  let r := rf s (pgEcho d) Off.SWEEP_CFG 12 4 + 1
  let s1 := if 64 * r ≤ (echo s d).sweep.cycles then sweepNext s d true else s
  if sweepOn s1 d p then
    let x := echo s1 d
    setEcho s1 d { x with sweep := { x.sweep with cycles := x.sweep.cycles + 1 } }
  else s1

/-- The nozzle a cycle senses (R206), and the state with the pointer moved. -/
def senseChoice (s : State) (d p : Nat) (c : Cycle) : Option (Nat × Nat) × State :=
  let j := (port s d p).senseJ
  let s0 := setPort s d p { port s d p with senseJ := j + 1 }
  let mode := senseMode s d c
  let eff := effDiv s d (modeDiv mode (sweepOn s d p))
  let hasRun := decide (runsOf 5 (segs s d p c.bank (wset s d p c.bank c.set)) 0 ≠ [])
  if !is16E s || decide (persOf s d p = 2) || !running s (pgEcho d) || c.noWave || c.mute || !hasRun || decide (eff = 0)
      || decide (j % eff ≠ 0) then (none, s0)
  else
    let swept := sweepOn s d p
    let s1 := if swept then sweepSpend s0 d p else s0
    if mode = 3 ∧ !sweepOn s1 d p then (none, s1)
    else
      let ptr := (port s1 d p).ptr
      let hit := (List.range 64).findSome? fun i =>
        let z := if sweepOn s1 d p then
            cFirst s1 d (rf s1 (pgEcho d) Off.SWEEP_CFG 16 8) + rf s1 (pgEcho d) Off.SWEEP_STAT 12 12
          else (ptr + i) % 4096
        (candidate s1 d p c z).map fun k => (k, z)
      match hit with
      | some (k, z) => (some (k, z), setPort s1 d p { port s1 d p with ptr := (z + 1) % 4096 })
      | none =>
        (none, count (setPort s1 d p { port s1 d p with ptr := (ptr + 64) % 4096 }) (pgEcho d) Off.MISSED_CNT)

/-! One cycle. -/

/-- Fix waveform, table, compensation and pulses of a cycle (R189), or none where its set is unusable (R191). A valid set of
the other KIND gives a cycle without output and without LATCH (DESIGN CHOICE, log entry 70: R175 gives the port no output
for it, and R184 does not call it invalid). -/
def bindWave (s : State) (d p : Nat) (c : Cycle) : Cycle × State :=
  let b := activeBank s d p
  let k := chosenSet s d p
  let c1 := { c with bank := b, set := k, table := chosenTable s d p }
  if !setValid s d p b k then
    ({ c1 with noWave := true, nul := true }, raise (count s (pgHp d p) Off.WF_INVALID_CNT) (pgHp d p) 3)
  else
    let x := wset s d p b k
    let (sc, st) := compensation s d p x
    let s1 := wr (wr s (pgHp d p) Off.WF_SCALE (word sc)) (pgHp d p) Off.WF_STRETCH (word st)
    if !plays s d p x.kind then ({ c1 with s := sc, k := st, mute := true }, s1)
    else if x.kind = 1 then ({ c1 with s := sc, k := st, dur := piezoDur (segs s d p b x) st }, s1)
    else
      let (r, out) := voltFactor s d p x
      let (ps, clips) := thermalPulses s x (beatRecs s d p b x) sc r
      let s2 := whenDo out s1 (raise · (pgHp d p) 8)
      let s3 := whenDo (decide (clips ≠ 0)) s2 fun s => raise (countBy s (pgHp d p) Off.THM_CLIP clips) (pgHp d p) 5
      ({ c1 with s := sc, k := st, pulses := ps, dur := pulsesDur ps }, { s3 with free := s3.free + 2 * x.count })

/-- A member loses its line under R137 or R191. -/
def loseLine (s : State) (d m : Nat) : State := ctxNull s d m

/-- The underrun policy of a member whose content was late (R137). -/
def underrun (s : State) (d m : Nat) : State :=
  match af s d m 48 0 2 with
  | 1 => policyPause s d m 2 true
  | 2 => ctxFence (ctxRecord s d m 2 true) d m 2
  | _ => setCtx s d m { ctx s d m with under := true }

/-- Line `n` of the group is placed at `t0`: its cycle is bound and its frame queued (R133, R189, R237). -/
def bindCycle (s : State) (d k : Nat) (t0 : Int) : State :=
  let p := cPort s d k
  let g := cFg s d k
  let n := (ctx s d k).next
  let ms := liveMembers s d k
  let late := ms.filter fun m => (builtLine s d m n).isNone
  let pause := late.any fun m => decide (af s d m 48 0 2 = 1)
  let cs := Tbl.get (port s d p).cseq g 0
  let base : Cycle :=
    { fg := g, cseq := cs, tctx := k, line := n, t0 := t0, timing := (List.range 8).map fun i => aw s d k (8 + i)
      deadline := t0 / 16 - 520 }
  let (c1, s1) := bindWave s d p base
  let nul := decide (late ≠ []) || c1.nul
  let c2 := { c1 with
    nul := nul
    members := ms.map fun m =>
      let codes := match builtLine s d m n with | none => [] | some b => if nul then [] else b.codes
      ({ ctx := m, line := n, ready := (builtLine s d m n).isSome, nul := nul, done := nul && !pause, codes := codes } : Member) }
  let (sense, s2) := senseChoice s1 d p c2
  let swept := sense.isSome && sweepOn s2 d p
  let c3 := { c2 with sense := sense, sweep := swept, cap := swept && decide (rf s2 (pgEcho d) Off.SWEEP_CFG 0 2 = 2) }
  let s3 := setPort s2 d p { port s2 d p with
    cycles := (port s2 d p).cycles ++ [c3], cseq := Tbl.put (port s2 d p).cseq g ((cs + 1) % 4096) }
  let s4 := if deliverable s3 d p then queueFrame s3 d p (cycleFrame s3 d p c3) else cycleOutcome s3 d p c3 false
  let s5 := each ms s4 fun s m =>
    let a := if nul then ctxNull s d m else s
    let b := if late.contains m then ctxEvt a d m 8 else a
    let e := if nul && !pause then lineDone b d m true else b
    let f := if nul then stallMark e d m else e
    if pause then f
    else setCtx f d m { ctx f d m with built := (ctx f d m).built.filter fun b => decide (b.n ≠ n) }
  let s6 := setCtx s5 d k { ctx s5 d k with
    next := if pause then n else (n + 1) % 2 ^ 24, lastPlaced := some t0 }
  rePredict (each late s6 fun s m => underrun s d m) d k

/-- A late line that cannot be placed is skipped for every member (R135). -/
def skipLine (s : State) (d k : Nat) : State :=
  let n := (ctx s d k).next
  let s1 := each (liveMembers s d k) s fun s m =>
    let x := ctx s d m
    lineDone (ctxLate (setCtx s d m { x with
      built := x.built.filter fun b => decide (b.n ≠ n), nextBuild := if x.nextBuild = n then (n + 1) % 2 ^ 24 else x.nextBuild
      wrapped := x.wrapped || (decide (x.nextBuild = n) && decide (n + 1 = 2 ^ 24)) })
      d m) d m true
  rePredict (setCtx s1 d k { ctx s1 d k with next := (n + 1) % 2 ^ 24 }) d k

/-- The earliest instant at which a line can be placed (R135). -/
def earliest (s : State) (d k : Nat) : Int :=
  let a := nowFine s d + 16 * ((port s d (cPort s d k)).lead : Int)
  match (ctx s d k).lastPlaced with
  | none => a
  | some p => if fle (p + tMin s d k) a then a else p + tMin s d k

/-- A member that waits for a missing image line with GAP.ACT = PAUSE (R156). -/
def gapWait (s : State) (d m n : Nat) : Bool :=
  (builtLine s d m n).isNone && (needed s d m n).any fun i => isGap s d m i

/-- A line at its binding point, once hand-overs and rejoining followers are through (R133, R135, R156). -/
def bindLine (s : State) (d k : Nat) : State :=
  match predictNext s d k with
  | none => s
  | some t =>
    let e := earliest s d k
    let tol : Int := 16 * (af s d k 14 16 8 : Nat)
    if !fle e t && !fle (e - tol) t then skipLine s d k
    else
      let ms := liveMembers s d k
      let n := (ctx s d k).next
      let ws := ms.filter fun m => gapWait s d m n
      match ws with
      | m :: _ => policyPause (each ws s fun s m => setCtx s d m { ctx s d m with gapPause := some n }) d m 4 true
      | [] =>
        let s1 := if fle e t then s else each ms s fun s m => ctxLate s d m
        bindCycle s1 d k (if fle e t then t else gridUp (gridOf (modeOf s d)) e)

/-- A port's CYCLE boundary (R197). -/
def portHandOver (s : State) (d p : Nat) : State :=
  let q := pgHp d p
  if goSet s q && decide (rf s q Off.COMMIT 4 3 = 1) && goBefore s q Off.COMMIT then hpHandOver s d p else s

/-- Member hand-overs at a binding point (R119). -/
def memberHandOvers (s : State) (d k : Nat) : State :=
  each (movers s d k) s fun s m =>
    if ctxGo s d m && (decide (ctxBoundary s d m = 1) || decide (ctxBoundary s d m = 2))
        && goBefore s (pgCtx d) (commitOff m) then ctxHandOver s d m else s

/-- The next binding point of a group whose timing context is `k` has come (R119, R127, R131, R133). -/
def bindPoint (s : State) (d k : Nat) (t : Int) : State :=
  let p := cPort s d k
  let s1 := waitTick s d (ceilTick (t - 16 * ((port s d p).lead : Int)))
  let s2 := rePredict (memberHandOvers (asBoundary (portHandOver (sweepCheck s1 d p) d p) d p) d k) d k
  if (ctx s2 d k).st ≠ .printing then s2
  else
    let rj := (members s2 d p (cFg s2 d k)).filter fun m => (ctx s2 d m).rejoin
    let s3 := each rj s2 fun s m => rejoinNow s d k m
    let s4 := bindLine s3 d k
    if swatheDue s4 d k then swatheCheck (waitClock s4 (s4.clock + 1)) d k else s4

/-- LINE_BIND (R133): the binding point of the next line of a context's group. Where the line cannot bind (no
prediction, four lines bound, not PRINTING), nothing happens; an ABORT that waits takes effect (R126). -/
def execLineBind (d k0 : Nat) (s : State) : Host.Outcome State Fault Refusal :=
  if d < s.part.dies ∧ k0 < nCtx s ∧ bound s d k0 then
    let k := leader s d k0
    if (ctx s d k).aborting then ok (ctxAbortNow s d k)
    else if (ctx s d k).st ≠ .printing then ok s
    else
      let s1 := swatheCheck (turnEnd s d k) d k
      if (ctx s1 d k).st ≠ .printing ∨ (ctx s1 d k).turning ∨ 4 ≤ (unfired s1 d (cPort s1 d k) (cFg s1 d k)).length then ok s1
      else match predictNext s1 d k with
        | none => ok s1
        | some t => ok (bindPoint s1 d k t)
  else ok s

/-- FOLLOWER_REJOIN (R127): a released follower takes part from its group's next binding point on. -/
def execFollowerRejoin (d k : Nat) (s : State) : Host.Outcome State Fault Refusal :=
  if d < s.part.dies ∧ k < nCtx s ∧ (ctx s d k).rejoin then
    match timingOf s d (cPort s d k) (cFg s d k) with
    | none => ok s
    | some t =>
      match (ctx s d t).st with
      | .paused | .draining => ok (rejoinNow s d t k)
      | .printing =>
        match predictNext s d t with
        | none => ok s
        | some f => ok (rejoinNow (waitTick s d (ceilTick (f - 16 * ((port s d (cPort s d k)).lead : Int)))) d t k)
      | _ => ok s
  else ok s

/-! Freezing and firing. -/

/-- A cycle of the group that plays over instant `t` (R190). -/
def overrun (s : State) (d p : Nat) (c : Cycle) : Bool :=
  let x := port s d p
  let before := x.cycles.takeWhile fun y => !(decide (y.fg = c.fg) && decide (y.cseq = c.cseq))
  (x.play ++ before).any fun y =>
    decide (y.fg = c.fg) && !y.noWave && !y.mute && !y.supp && !fle (y.t0 + y.dur) c.t0

/-- The placement of a cycle is fixed (R133, R190, R241). -/
def freezeCycle (s : State) (d p : Nat) (c : Cycle) : State :=
  if overrun s d p c ∧ !c.noWave then
    let s1 := setCycle s d p { c with frozen := true, supp := true }
    let s2 := raise (count s1 (pgHp d p) Off.WF_OVERRUN) (pgHp d p) 2
    each (c.members.filter fun m => !m.nul) s2 fun s m => ctxDegraded (memberDone (ctxNull s d m.ctx) d p c m.ctx true) d m.ctx
  else if c.noWave ∨ c.mute ∨ c.repls ≠ 0 ∨ !running s (pgHp d p) ∨ (port s d p).link ≠ 3 then
    setCycle s d p { c with frozen := true }
  else
    emit (setCycle s d p { c with frozen := true, armed := true })
      (.armUnit d p (charAt (port s d p) s.clock) (c.fg * 64 + c.cseq % 64))

/-- The group of a context: its first bound cycle for which `f` holds. -/
def firstCycle (s : State) (d k : Nat) (f : Cycle → Bool) : Option Cycle :=
  (unfired s d (cPort s d k) (cFg s d k)).find? f

/-- Freeze a cycle at its freeze point, 40 ticks before it fires. -/
def freezeAt (s : State) (d p : Nat) (c : Cycle) : State :=
  freezeCycle (waitTick s d (ceilTick (c.t0 - 640))) d p c

/-- LINE_FREEZE (R133): the first cycle of the group not yet frozen. -/
def execLineFreeze (d k : Nat) (s : State) : Host.Outcome State Fault Refusal :=
  if d < s.part.dies ∧ k < nCtx s ∧ bound s d k then
    match firstCycle s d k fun c => !c.frozen with
    | none => ok s
    | some c => ok (freezeAt s d (cPort s d k) c)
  else ok s

/-- SENSE is sent in a cycle: a nozzle was chosen, its context is not fenced, and the ECHO page is not (R179, R224). -/
def senses (s : State) (d : Nat) (c : Cycle) : Bool :=
  match c.sense with
  | none => false
  | some (k, _) => !fenced s (pgEcho d) && decide ((ctx s d k).st ≠ .fenced)

/-- The samples of a piezo cycle leave the port (R178, R179, R186, R192); the level of the stream is then its REST (R177). -/
def playPiezo (s : State) (d p : Nat) (c : Cycle) : State :=
  let x := wset s d p c.bank c.set
  let sense := senses s d c
  let fl := fun f => if sense then f else f % 32
  let ana := decide (persOf s d p = 1)
  let ss := cycleSamples s d p c 0
  let s1 := { s with free := s.free + ss.length }
  let dd := if ana then cycleSamples s1 d p c (rf s (pgHp d p) Off.WF_DAC_DELAY 0 12) else []
  let s2 := { s1 with
    free := s1.free + dd.length
    out := s1.out ++ (ss.map fun e => Out.sample d p (uns 48 e.1) (if ana then 0 else e.2.1) (fl e.2.2.1))
      ++ dd.map fun e => Out.dac d p (uns 48 e.1) (dacCode e.2.1) }
  let clips := ((if ana then dd else ss).filter fun e => e.2.2.2).length
  let s3 := whenDo (decide (clips ≠ 0)) s2 fun s => raise (countBy s (pgHp d p) Off.WF_CLIP clips) (pgHp d p) 4
  streamFollow (setPort s3 d p { port s3 d p with
    rest := x.rest, wfOut := (if ana then dd else ss).map fun e => (uns 48 e.1, e.2.1) }) d p

/-- The output sample instants of a cycle with SENSE = 1 (R207). -/
def senseTicks (s : State) (d p : Nat) (c : Cycle) : List Int :=
  ((cycleSamples s d p c 0).filter fun e => e.2.2.1.testBit 5).map fun e => e.1

/-- The first instant of the echo ADC at or after an instant in fine steps (R207). -/
def adcInstant (a : Int) : Int := -((-a) / 200) * 200

/-- ADC instants of a window that starts at `w`, before the tick at which SENSE returns to 0 (R207). -/
def adcCount (w t : Int) : Nat := (-((w - 16 * t) / 200)).toNat

/-- The measurement of the chosen nozzle begins (R207); none begins while the page shuts down (R224). -/
def senseOpen (s : State) (d p : Nat) (c : Cycle) : State :=
  match c.sense, senseTicks s d p c with
  | some (k, z), t :: r =>
    if running s (pgEcho d) && senses s d c then
      let q := pgEcho d
      let w := adcInstant (16 * t + 200 * (rf s q Off.ECHO_CFG 12 4 : Int))
      setEcho s d { echo s d with meas := (echo s d).meas ++
        [{ port := p, ctx := k, idx := z - cFirst s d k, ptr := af s d k 41 0 21, tick := uns 48 (w / 16)
           len := min (clampN 31 255 (rf s q Off.ECHO_CFG 16 8) + 1) (adcCount w (r.getLastD t + 5))
           sweep := c.sweep, cap := c.cap }] }
    else s
  | _, _ => s

/-- Pulses of a thermal cycle (R193). -/
def playThermal (s : State) (d p : Nat) (c : Cycle) : State :=
  { s with out := s.out ++ (pulseTimes c.pulses c.t0).map fun e => Out.pulse d p c.fg e.1 e.2 }

/-- The cycle's waveform or pulse train (R175, R186, R193); none for a suppressed or invalid cycle or on a port that is not
RUNNING (R190, R191, R198). -/
def playCycle (s : State) (d p : Nat) (c : Cycle) : State :=
  if c.noWave || c.mute || c.supp || !running s (pgHp d p) then s
  else
    let s1 := if persOf s d p = 2 then playThermal s d p c else senseOpen (playPiezo s d p c) d p c
    let x := port s1 d p
    setPort s1 d p { x with play := x.play.filter (fun y => !fle (y.t0 + y.dur) (nowFine s1 d)) ++ [c] }

/-- The drops a cycle fires: the nozzles of its members with a size other than 0. -/
def cycleDrops (c : Cycle) : Nat :=
  if c.nul then 0 else ((c.members.filter fun m => !m.nul).map fun m => (m.codes.filter fun x => decide (4 ≤ x)).length).sum

/-- The drops of a port's cycle count in its work (R343). -/
def logDrops (s : State) (d p : Nat) (c : Cycle) : State :=
  let l := (Tbl.get (therm s d).fired p []).filter fun e => decide (s.clock < e.1 + 25000000)
  setTherm s d { therm s d with fired := Tbl.put (therm s d).fired p (l ++ [(s.clock, cycleDrops c)]) }

/-- Fire a frozen cycle (R186). -/
def fireCycle (s : State) (d p : Nat) (c : Cycle) : State :=
  let s1 := waitTick s d (c.t0 / 16)
  let s2 := logDrops (playCycle (setCycle s1 d p { c with fired := true }) d p c) d p c
  let s3 := each (c.members.filter fun m => !m.nul) s2 fun s m =>
    setCtx s d m.ctx { ctx s d m.ctx with lastFire := uns 48 (c.t0 / 16) }
  let s4 := setCtx s3 d c.tctx { ctx s3 d c.tctx with lastFired := some c.t0 }
  let s5 := retire s4 d p c
  if (ctx s5 d c.tctx).aborting then ctxAbortNow s5 d c.tctx else s5

/-- CYCLE_FIRE (R186, R193): the first cycle of the group that has not fired, frozen first if its freeze point has not
been reported. -/
def execCycleFire (d k : Nat) (s : State) : Host.Outcome State Fault Refusal :=
  if d < s.part.dies ∧ k < nCtx s ∧ bound s d k then
    match firstCycle s d k fun _ => true with
    | none => ok s
    | some c =>
      let p := cPort s d k
      let s1 := if c.frozen then s else freezeAt s d p c
      match (port s1 d p).cycles.find? fun x => decide (x.fg = c.fg) && decide (x.cseq = c.cseq) with
      | none => ok s1
      | some c1 => ok (fireCycle s1 d p c1)
  else ok s

/-- The group's last bound line has completed: its members that drain enter IDLE (R126), also while their timing context is
fenced. -/
def drainEnd (s : State) (d k0 : Nat) : State :=
  let k := leader s d k0
  if groupOpen s d (cPort s d k) (cFg s d k) then s
  else if (ctx s d k).st = .draining then ctxMove s d k .idle (ctx s d k).drainCause
  else each ((movers s d k0).filter fun m => decide ((ctx s d m).st = .draining)) s fun s m => ctxEnter s d m .idle 7

/-- DRAIN_COMPLETE (R126): every bound line of a draining group has completed. -/
def execDrainComplete (d k0 : Nat) (s : State) : Host.Outcome State Fault Refusal :=
  ok (if d < s.part.dies ∧ k0 < nCtx s ∧ bound s d k0 then drainEnd s d k0 else s)

/-! Stalls (R138, R413). -/

/-- Link of a port's give-up in a record (R412). -/
def giveUpLink (p : Nat) (f : PortFault) : Link :=
  ⟨0x11, p, 1, f.cseq * 2 ^ 12 + f.fseq * 2 ^ 4 + min f.count 15⟩

/-- The record of a stall: the lower layer's open fault and the stall, or the stall alone (R138, R413). -/
def stallRecord (s : State) (d k : Nat) (fence : Bool) : State :=
  let p := cPort s d k
  let stall := ctxLink s d k 3
  let r := if fence then 3 else 0
  match (port s d p).fault with
  | some f =>
    logRecord (setPort s d p { port s d p with fault := none }) d d
      { fenced := fence, cause := giveUpLink p f, effect := some stall, reason := r }
  | none =>
    match (members s d p (cFg s d k)).find? fun m => (ctx s d m).under with
    | some m =>
      logRecord (setCtx s d m { ctx s d m with under := false }) d d
        { fenced := fence, cause := ctxLink s d m 2, effect := some stall, reason := r }
    | none => logRecord s d d { fenced := fence, cause := stall, reason := r }

/-- The stall timer of a context has reached its limit (R138). It begins again at 0 (DESIGN CHOICE, log entry 67: the manual
does not say what it does after the stall if no cycle is delivered). -/
def stallNow (s : State) (d k : Nat) : State :=
  let fence := decide (af s d k 48 4 2 = 1)
  let s0 := setCtx s d k { ctx s d k with stallAcc := 0, stallAt := s.clock }
  let s1 := stallRecord (ctxEvt s0 d k 9) d k fence
  if fence then ctxFence s1 d k 3 else ctxMove s1 d k .paused 3

/-- STALL (R138): the timer of a context runs out; it does not while it stands for a retry. -/
def execStall (d k : Nat) (s : State) : Host.Outcome State Fault Refusal :=
  if d < s.part.dies ∧ k < nCtx s ∧ stallOn s d k then
    ok (stallNow (waitClock s (s.clock + (stallTmo s d k - stallTime s d k))) d k)
  else ok s

end Sys2Proof.Machine
end

