-- ==== Sys2Proof/Machine/Load.lean ====
section
/-!
DEFINITION. Waveform bank loads (R196, R197): their start, copy and checks, the select tables sent to the head, and
their end.
-/
namespace Sys2Proof.Machine

/-- Put a load into a state (R196). -/
def setLoad (s : State) (d p st : Nat) : State := wf s (pgHp d p) Off.WF_STAT 0 3 st

/-- `LOADED[b]`. -/
def loaded (s : State) (d p b : Nat) : Bool := rb s (pgHp d p) Off.WF_STAT (8 + b)

/-- A load of bank `b` is asked for (R196 steps 1 and 2). -/
def loadStart (s : State) (d p b : Nat) : State :=
  let q := pgHp d p
  let a := rf s q Off.WF_SRC 0 17
  let w := rd s q Off.WF_STAT
  let s1 := wr s q Off.WF_STAT (setFld (setFld w 4 1 b) 12 4 0)
  if b = activeBank s d p then loadFail s1 d p 1
  else if b = fld (rdShadow s q Off.WF_BANK_SEL) 0 1 then loadFail s1 d p 2
  else if a < 16384 ∨ 131071 < a + 4095 then loadFail s1 d p 3
  else
    let s2 := wf (setLoad s1 d p 1) q Off.WF_STAT (8 + b) 1 0
    let x := port s2 d p
    setPort s2 d p { x with loadBank := b, loadTables := 0, loadQueued := false, loadNo := x.loadNo + 1 }

/-- A write of `WF_CTRL` (R196). -/
def wfCtrlEff (r : Req) (d p : Nat) (v : Word) (s : State) : State :=
  if loading s d p then logErr s r (pgHp d p) Off.WF_CTRL true 0x42
  else
    let s1 := wf s (pgHp d p) Off.WF_CTRL 4 1 (fld v 4 1)
    if bit v 0 then loadStart s1 d p (fld v 4 1) else s1

/-- WF_LOAD_START (R196): a write of `WF_CTRL` with LOAD. -/
def execWfLoadStart (r : Req) (d p : Nat) (v : Word) (s : State) : Host.Outcome State Fault Refusal :=
  if p < 16 then
    ok (guardedWrite s r (pgHp d p) Off.WF_CTRL (wfCtrlEff ⟨clsOn r (pgHp d p), r.rid⟩ d p (setBit v 0 true)))
  else ok s

/-- Check every set of a copied bank (R184): the mask of valid sets, and the first failure. -/
def checkBank (s : State) (d p b : Nat) : Nat × Option (Nat × Nat) :=
  let rs := (List.range 16).map fun k => (k, checkSet s d p b k)
  let good := rs.filter fun r => decide (r.2 = 0) && decide ((wset s d p b r.1).kind ≠ 0)
  ((good.map fun r => 2 ^ r.1).sum, rs.find? fun r => decide (r.2 ≠ 0))

/-- The ends of the cycles that play from a bank (R189). -/
def bankEnd (s : State) (d p b : Nat) : List Int :=
  ((port s d p).play.filter fun c => decide (c.bank = b)).map fun c => ceilTick (c.t0 + c.dur)

/-- The copy and its checks (R196 step 3, R184). -/
def loadCopy (s : State) (d p : Nat) : State :=
  let q := pgHp d p
  let b := (port s d p).loadBank
  let (ws, bad, s1) := readWords 4096 (setLoad s d p 2) d true (rf s q Off.WF_SRC 0 17) 0 none 0
  if bad then loadFail s1 d p 4
  else
    let tb : Tbl Nat Word := ws.zipIdx.map fun x => (x.2, x.1)
    let x := port s1 d p
    let s2 := setPort s1 d p (if b = 0 then { x with bank0 := tb } else { x with bank1 := tb })
    let (m, err) := checkBank s2 d p b
    let s3 := wr s2 q Off.WF_LOAD_ERR (match err with | none => 0#24 | some (k, c) => word (k * 2 ^ 16 + c))
    setLoad (setPort s3 d p { port s3 d p with loadValid := m }) d p 3

/-- WF_LOAD_COPY (R196): once no cycle uses the bank; a cycle that still plays is waited for. -/
def execWfLoadCopy (d p : Nat) (s : State) : Host.Outcome State Fault Refusal :=
  if d < s.part.dies ∧ loadState s d p = 1 then
    let b := (port s d p).loadBank
    if (port s d p).cycles.any fun c => decide (c.bank = b) && !c.fired && !c.noWave then ok s
    else ok (loadCopy (each (bankEnd s d p b) s fun s t => waitTick s d t) d p)
  else ok s

/-- WF_LOAD_HEAD (R196 step 4): 16 TABLE frames are queued; without a trained link the load fails. -/
def execWfLoadHead (d p : Nat) (s : State) : Host.Outcome State Fault Refusal :=
  let x := port s d p
  if d < s.part.dies ∧ loadState s d p = 3 ∧ !x.loadQueued then
    if x.link ≠ 3 then ok (loadFail s d p 5)
    else
      let fs : List Frame := (List.range 16).map fun t =>
        { kind := 3, words := tableWords x.loadBank t (selTable s d p x.loadBank t), load := x.loadNo }
      ok (setPort s d p { x with queue := x.queue ++ fs, loadTables := 16, loadQueued := true })
  else ok s

/-- LOAD_DONE (R196 step 5): every table has been acknowledged; the bank is loaded, and its valid sets show. -/
def execLoadDone (d p : Nat) (s : State) : Host.Outcome State Fault Refusal :=
  let x := port s d p
  if d < s.part.dies ∧ loadState s d p = 3 ∧ x.loadQueued ∧ x.loadTables = 0 then
    let s1 := wf (setLoad s d p 4) (pgHp d p) Off.WF_STAT (8 + x.loadBank) 1 1
    let s2 := wr s1 (pgHp d p) (if x.loadBank = 0 then Off.WF_VALID_0 else Off.WF_VALID_1) (word x.loadValid)
    ok (raise (setPort s2 d p { x with loadQueued := false }) (pgHp d p) 0)
  else ok s

end Sys2Proof.Machine
end

