-- ==== Sys2Proof/Machine/SecCore.lean ====
section
/-!
DEFINITION. Security state as other blocks see it: lifecycle, sessions and their ends, fault-injection permission, and
the modes available (R25, R373, R375, R379, R388, R390, R391).
-/
namespace Sys2Proof.Machine

/-- The part's lifecycle state: the most advanced among its dies (R375). -/
def partLc (s : State) : Nat := ((dieList s).map fun d => (die s d).lc).foldl max 0

/-- Die `d` is enumerated (R405). -/
def enumerated (s : State) (d : Nat) : Bool := rb s (pgFence 0) Off.FN_DIE_STAT d

/-- A debug session of a LOCKED die is open (R391). -/
def lockedDebug (s : State) : Bool := (dieList s).any fun d => decide ((die s d).lc = 2) && (die s d).tap.session

/-- An enumerated die runs without firmware (R25). -/
def someNoFw (s : State) : Bool := (dieList s).any fun d => enumerated s d && (die s d).boot.noFw

/-- `MODE_ALLOWED` (R25, R61, R391, R401). -/
def allowedMask (s : State) : Word :=
  (if partLc s = 3 then 0x07#24 else 0xFF#24)
    &&& (if lockedDebug s then 0x0F#24 else 0xFF#24)
    &&& (if rb s (pgTb 0) Off.TB_STAT 0 then 0xCF#24 else 0xFF#24)
    &&& (if s.pkg.noFw then 0x07#24 else 0xFF#24)

/-- The firmware reason of R25 stays from a die's enumeration without firmware until the next start. -/
def noFwFollow (s : State) : State := { s with pkg := { s.pkg with noFw := s.pkg.noFw || someNoFw s } }

/-- `MODE_ALLOWED` of die 0 follows its reasons, and ALLOWED_CHANGED latches when a bit changes (R25, R33). -/
def allowedFollow (s0 : State) : State :=
  let s := noFwFollow s0
  if rd s (pgMode 0) Off.MODE_ALLOWED = allowedMask s then s
  else raise (wr s (pgMode 0) Off.MODE_ALLOWED (allowedMask s)) (pgMode 0) 2

/-- Fault injection is permitted on a die (R375, R390). -/
def injOk (s : State) (d : Nat) : Bool :=
  decide (partLc s = 0) || (decide (partLc s = 1) && rb s (pgIjl d) Off.IJL_CTRL 0)

/-- `IJL_STAT.PERMITTED`, its copy on the INJECT page, PERMIT_CHANGED and DENIED follow the permission (R390, R417). -/
def injFollow (s : State) (d : Nat) : State :=
  let b := injOk s d
  let s1 := if rb s (pgIjl d) Off.IJL_STAT 0 = b then s
    else raise (wb s (pgIjl d) Off.IJL_STAT 0 b) (pgIjl d) 0
  let s2 := wb s1 (pgInject d) Off.IJ_STAT 0 b
  setDyn s2 (pgInject d) 2 (rb s2 (pgInject d) Off.PAGE_CTRL 0 && !b)

/-- The debug session of a die closes (R388). -/
def dbgClose (s : State) (d : Nat) : State :=
  let x := die s d
  if x.tap.session then
    let s1 := wb (setDie s d { x with tap := { x.tap with session := false } }) (pgDebug d) Off.DBG_STAT 0 false
    allowedFollow (raise (raise s1 (pgDebug d) 1) (pgDie d) 2)
  else s

/-- The secure session of a die closes (R379). -/
def sessClose (s : State) (d : Nat) : State :=
  let x := die s d
  if x.sess.st = 2 then
    raise (wf (setDie s d { x with sess := { x.sess with st := 0 } }) (pgSess d) Off.SESS_STAT 0 3 0) (pgSess d) 2
  else s

/-- A frame of class `cls` (0 Sypol, 1 Burim, 2 encoder), direction and target is counted, and perhaps selected: the
kind (0 none, 1 drop, 2 corrupt, 3 reorder) and the state after (R414). -/
def injPick (s : State) (d cls dir t : Nat) : Nat × State :=
  let p := pgInject d
  let c := rd s p Off.IJ_CFG
  if !running s p || !injOk s d || decide (fld c 22 2 ≠ cls) || (decide (cls = 0) && decide (fld c 19 1 ≠ dir))
      || !bit c t then (0, s)
  else
    let k := (die s d).ijSeen + 1
    let s1 := setDie s d { die s d with ijSeen := k }
    let n := max 1 (rf s p Off.IJ_EVERY 0 16)
    let left := rdN s p Off.IJ_COUNT
    if fld c 20 2 = 0 ∨ left = 0 ∨ k % n ≠ 0 then (0, s1)
    else
      let s2 := if left = 0xFFFFFF then s1 else wr s1 p Off.IJ_COUNT (word (left - 1))
      let s3 := raise (count s2 p Off.IJ_DONE) p 0
      (fld c 20 2, whenDo (decide (left = 1)) s3 (raise · p 1))

end Sys2Proof.Machine
end

