-- ==== Sys2Proof/Machine/Sypol.lean ====
section
/-!
DEFINITION. The Sypol link of a head port (R228 to R246): discovery, training, frames sent and acknowledged, retries
and give-ups, status, and fault injection on its frames (R243, R414).
-/
namespace Sys2Proof.Machine

/-! Transmission (R229, R242). -/

/-- Characters per 100 ticks left for frames (R242). -/
def charRate (s : State) (d p : Nat) : Nat :=
  let r := 64 * ((port s d p).rate + 1)
  if persOf s d p = 2 then r else r - 80

/-- Ticks that `n` characters take. -/
def charTicks (s : State) (d p n : Nat) : Nat := ceilDiv (100 * n) (max 1 (charRate s d p))

/-- Ticks a frame of `w` words takes, with SOF and EOF. -/
def frameTicks (s : State) (d p w : Nat) : Nat := charTicks s d p (3 * w + 2)

/-- The binding lead (R133, R242). -/
def bindLead (s : State) (d p : Nat) : Nat :=
  let groups := if persOf s d p = 2 then rf s (pgHp d p) Off.SY_HEAD_ID2 10 2 + 1 else 1
  let sum := ((List.range groups).map fun g => 3 * dataLen s d p g + 2).sum
  let a := rf s (pgHp d p) Off.SY_CFG 4 2
  500 + (32 + charTicks s d p (50 + sum) + a * (400 + charTicks s d p sum)) + 64

/-- `LINK` changes (R232): LINK_UP and LINK_DOWN latch, firmware posts HEAD_CHANGE (R367), and the sample stream follows
(R231). -/
def setLink (s : State) (d p st : Nat) : State :=
  let old := (port s d p).link
  let s1 := streamFollow (linkStat (setPort s d p { port s d p with link := st, tryAt := s.clock }) d p) d p
  let s2 := whenDo (decide (old = 3) && decide (st ≠ 3)) s1 (raise · (pgHp d p) 13)
  let s3 := whenDo (decide (st = 3) && decide (old ≠ 3)) s2 (raise · (pgHp d p) 12)
  whenDo (decide (old ≠ st)) s3 fun s =>
    notice s d 1 0x82 [word (p + st * 2 ^ 4 + rf s (pgHp d p) Off.SY_STAT 12 4 * 2 ^ 8)]

/-! Frames leaving the queue (R239, R240). -/

/-- `a` lies after deadline `b`, both ticks (R65). -/
def pastTick (a b : Int) : Bool := decide (sgn 48 (uns 48 (b - a)) < 0)

/-- The frame's cycle. -/
def frameCycle (s : State) (d p : Nat) (f : Frame) : Option Cycle := (port s d p).cycles.find? fun c => ofCycle c f

/-- REPLACE frames carry bit 8 of word 0 (R237). -/
def isReplace (f : Frame) : Bool := decide (f.kind = 1) && bit (f.words.headD 0#24) 8

/-- What ends with a frame: a table of a load, or the outcome of a cycle (R196, R240, R241). -/
def frameEnd (s : State) (d p : Nat) (f : Frame) (good : Bool) : State :=
  if f.kind = 3 then
    if loadState s d p = 3 ∧ (port s d p).loadQueued ∧ f.load = (port s d p).loadNo then
      if good then setPort s d p { port s d p with loadTables := (port s d p).loadTables - 1 } else loadFail s d p 5
    else s
  else match frameCycle s d p f with
    | none => s
    | some c =>
      if isReplace f then (if good then setCycle s d p { c with repls := c.repls - 1 } else s)
      else if c.acked || c.lostFrame then s else cycleOutcome s d p c good

/-- A frame is lost to its deadline or a give-up: a cycle with data counts in `CNT_LATE` (R240). -/
def frameLost (s : State) (d p : Nat) (f : Frame) : State :=
  let s1 := if f.kind = 1 ∧ !isReplace f then raise (count s (pgHp d p) Off.CNT_LATE) (pgHp d p) 18 else s
  frameEnd s1 d p f false

/-- The order in which frames leave: by deadline, those without one last (R240). -/
def firstDue : List Frame → Option Frame → Option Frame
  | [], best => best
  | f :: r, none => firstDue r (some f)
  | f :: r, some b =>
    match f.deadline, b.deadline with
    | some x, some y => firstDue r (if pastTick y x then some f else some b)
    | some _, none => firstDue r (some f)
    | none, _ => firstDue r (some b)

/-- The frames that may be sent: retransmissions, and new frames while fewer than 8 are unacknowledged (R239). -/
def sendable (s : State) (d p : Nat) : List Frame :=
  let x := port s d p
  x.queue.filter fun f => decide (f.tries ≠ 0) || decide (x.outst.length < 8)

/-- The NULL frame of a DATA frame's cycle (R240). -/
def nullOf (f : Frame) : Frame := { kind := 2, fg := f.fg, cseq := f.cseq, words := nullWords f.fg f.cseq, deadline := f.deadline }

/-- Take a frame off the queue. -/
def unqueue (s : State) (d p : Nat) (f : Frame) : State :=
  setPort s d p { port s d p with queue := (port s d p).queue.erase f }

/-- Put a frame on the lanes (R236, R239): a new frame takes the next FSEQ; `inj` is the injection kind (R243). -/
def transmit (s : State) (d p inj : Nat) (f : Frame) : State :=
  let x := port s d p
  let fresh := decide (f.tries = 0)
  let q := if fresh then x.fseqNext else f.fseq
  let at_ := max s.clock x.wireFree
  let eof := at_ + frameTicks s d p (f.words.length + 1)
  let f1 := { f with fseq := q, sentAt := eof }
  let s1 := setPort s d p { x with
    wireFree := eof
    fseqNext := if fresh then (x.fseqNext + 1) % 256 else x.fseqNext
    outst := if fresh then x.outst ++ [f1] else x.outst.map fun g => if g.fseq = q then f1 else g }
  let s2 := whenDo fresh s1 fun s => count s (pgHp d p) Off.CNT_TX
  let s3 := match frameCycle s2 d p f with
    | none => s2
    | some c => setCycle s2 d p { c with sent := true }
  let s4 := if inj = 1 then s3 else emit s3 (.frame d p (charAt x at_) (sealWords f1.words q (decide (inj = 2))))
  linkStat s4 d p

/-! Give-ups and retraining (R235, R240, R413). -/

/-- Take a frame off the unacknowledged ones, and its retransmission off the queue. -/
def dropFrame (s : State) (d p : Nat) (f : Frame) : State :=
  let keep := fun (g : Frame) => !(decide (g.tries ≠ 0) && decide (g.fseq = f.fseq))
  withRetry s d p f.fg fun s =>
    let x := port s d p
    setPort s d p { x with
      outst := x.outst.filter fun g => decide (g.fseq ≠ f.fseq)
      queue := x.queue.filter keep, held := x.held.filter keep, follow := x.follow.filter keep }

/-- Every frame of a port is abandoned: its cycles are lost, to no deadline (R235). -/
def abandonFrames (s : State) (d p : Nat) : State :=
  let x := port s d p
  let fs := x.outst ++ (x.queue ++ x.held ++ x.follow).filter fun f => decide (f.tries = 0)
  let s1 := linkStat (setPort s d p { x with
    outst := [], queue := [], held := [], follow := [], stopFrames := [], wireFree := s.clock }) d p
  let s2 := each (portCtxs s1 d p) s1 fun s k => stallFollow s d k
  each fs s2 fun s f => frameEnd s d p f false

/-- The link starts retraining for a cause (6 upstream lost, 7 give-up) (R235). -/
def retrain (s : State) (d p cause : Nat) : State :=
  if (port s d p).link ≠ 3 then s
  else
    let s1 := setLink (count s (pgHp d p) Off.CNT_RETRAIN) d p 4
    abandonFrames (setPort s1 d p { port s1 d p with attempts := 0, retrainCause := cause }) d p

/-- A frame is given up (R240): counted, the port's fault opens or counts on (R413), and the link retrains after a
third retransmission or four give-ups in a row (R235). -/
def giveUp (s : State) (d p : Nat) (f : Frame) : State :=
  let s1 := raise (count (dropFrame s d p f) (pgHp d p) Off.CNT_GIVEUP) (pgHp d p) 16
  let x := port s1 d p
  let s2 := setPort s1 d p { x with
    giveRow := x.giveRow + 1
    fault := match x.fault with
      | none => some ⟨f.cseq, f.fseq, 1⟩
      | some g => some { g with count := g.count + 1 } }
  let s3 := frameLost s2 d p f
  if 3 ≤ f.tries ∨ 4 ≤ (port s3 d p).giveRow then retrain s3 d p 7 else s3

/-- Frames with a deadline that go before one with deadline `t` hold the lanes until this clock (R240). -/
def aheadUntil (s : State) (d p : Nat) (t : Int) : Nat :=
  max s.clock (port s d p).wireFree
    + (((port s d p).queue.filter fun f => match f.deadline with | none => false | some x => !pastTick x t).map
        fun f => frameTicks s d p (f.words.length + 1)).sum

/-- A clock as a tick of die `d`. -/
def tickOf (s : State) (d c : Nat) : Int := (now s d : Int) + ((c : Int) - (s.clock : Int))

/-- A frame of `w` words can leave by the deadline of `f`. -/
def meets (s : State) (d p w : Nat) (f : Frame) : Bool :=
  match f.deadline with
  | none => true
  | some t => !pastTick (tickOf s d (aheadUntil s d p t + frameTicks s d p w)) t

/-- Put a frame into the queue again as a retransmission (R240). -/
def retransmit (s : State) (d p : Nat) (f : Frame) : State :=
  let f1 := { f with tries := f.tries + 1 }
  let s1 := raise (count s (pgHp d p) Off.CNT_RETRY) (pgHp d p) 15
  withRetry s1 d p f.fg fun s =>
    setPort s d p { port s d p with
      outst := (port s d p).outst.map fun g => if g.fseq = f.fseq then f1 else g
      queue := (port s d p).queue ++ [f1] }

/-- A frame that can leave by its deadline is put on the lanes. One that cannot is not sent, and the NULL frame of its cycle
is queued in its place where that can (R240). -/
def sendOrLose (s : State) (d p inj : Nat) (f : Frame) : State :=
  if meets s d p (f.words.length + 1) f then transmit s d p inj f
  else
    let sub := f.kind = 1 ∧ !isReplace f ∧ meets s d p 3 f
    let s1 := if f.tries = 0 then frameLost s d p f else giveUp s d p f
    if sub ∧ (port s1 d p).link = 3 then queueFrame s1 d p (nullOf f) else s1

/-- The last waveform of a shut-down has ended, or nothing else is left to send: the NULL frames and HOLD follow (R244). -/
def stopNow (s : State) (d p : Nat) : State :=
  let x := port s d p
  if x.stopFrames = [] then s
  else
    let t := playEnd s d p
    if x.queue ≠ [] ∧ 0 < sgn 48 (uns 48 (t - (now s d : Int))) then s
    else
      let s1 := waitTick s d t
      setPort s1 d p { port s1 d p with queue := (port s1 d p).queue ++ x.stopFrames, stopFrames := [] }

/-- A frame of the queue is sent, unless it is selected for Reorder: then it waits for the next one, and those that wait
follow that one (R243). -/
def sendNext (s : State) (d p : Nat) (f : Frame) : State :=
  let (inj, s1) := if meets s d p (f.words.length + 1) f then injPick s d 0 0 p else (0, s)
  if inj = 3 then setPort s1 d p { port s1 d p with held := f :: (port s1 d p).held }
  else
    let x := port s1 d p
    sendOrLose (setPort s1 d p { x with follow := x.held, held := [] }) d p inj f

/-- FRAME_SEND (R240): a reordered frame whose turn has come, or the next frame of the queue in deadline order. -/
def frameSend (s0 : State) (d p : Nat) : State :=
  let s := stopNow (waitClock s0 (port s0 d p).wireFree) d p
  let x := port s d p
  match x.follow with
  | f :: r =>
    if f.tries ≠ 0 ∨ x.outst.length < 8 then sendOrLose (setPort s d p { x with follow := r }) d p 0 f else s
  | [] =>
    match firstDue (sendable s d p) none with
    | none => s
    | some f => sendNext (unqueue s d p f) d p f

/-- The lanes of a trained port: they rest in STANDBY (R393). -/
def lanesUp (s : State) (d p : Nat) : Bool :=
  decide (d < s.part.dies) && decide (p < nPorts s) && decide ((port s d p).link = 3) && decide (2 ≤ modeOf s d)

/-- FRAME_SEND (R240). -/
def execFrameSend (d p : Nat) (s : State) : Host.Outcome State Fault Refusal :=
  if lanesUp s d p then ok (frameSend s d p) else ok s

/-! Upstream frames (R236, R238, R239). -/

/-- An upstream frame is discarded (R236). -/
def upBad (s : State) (d p : Nat) : State := raise (count s (pgHp d p) Off.CNT_UP_BAD) (pgHp d p) 19

/-- The ACK of a frame counts: it comes within 400 ticks of the EOF of the frame's last transmission, and no earlier (R239).
The first transmission has left when its ACK comes. -/
def ackInTime (s : State) (f : Frame) : Bool := decide (f.sentAt ≤ s.clock) && decide (s.clock ≤ f.sentAt + 400)

/-- Wait for the EOF of a frame that is sent for the first time. -/
def awaitEof (s : State) (f : Frame) : State := if f.tries = 0 then waitClock s f.sentAt else s

/-- An ACK (R238, R239): completes, duplicates or rejects the frame with its FSEQ. One that is late completes nothing; a
rejected frame is not retried. -/
def ackTake (s : State) (d p : Nat) (w : Word) : State :=
  let q := fld w 12 8
  let code := fld w 10 2
  let s1 := match code with
    | 1 => count s (pgHp d p) Off.CNT_DUP_ACK
    | 2 => raise (count s (pgHp d p) Off.CNT_REJECT) (pgHp d p) 17
    | _ => s
  match (port s1 d p).outst.find? fun f => decide (f.fseq = q) with
  | none => s1
  | some f =>
    if code = 3 ∨ (code ≠ 2 ∧ !ackInTime s1 f) then s1
    else
      let s2 := dropFrame s1 d p f
      if code = 2 then frameEnd s2 d p f false
      else
        let s3 := if f.kind = 1 ∧ !isReplace f then
            match (port s2 d p).fault with
            | none => s2
            | some g =>
              match frameCycle s2 d p f with
              | none => s2
              | some c =>
                if hasData c then
                  logRecord (setPort s2 d p { port s2 d p with fault := none }) d d { fenced := false, cause := giveUpLink p g }
                else s2
          else s2
        frameEnd (setPort s3 d p { port s3 d p with giveRow := 0 }) d p f true

/-- `HEAD_FAULT` follows the status flags and STALE (R246). -/
def headFault (s : State) (d p : Nat) : State :=
  setDyn s (pgHp d p) 20 (decide (rf s (pgHp d p) Off.SY_HEAD_STAT 0 5 ≠ 0))

/-- The head's over-temperature flag as the thermal page shows it; while it is 1, the clear time of the port's warning does
not run (R238, R342). -/
def flagFollow (s : State) (d p : Nat) : State :=
  let b := rb s (pgHp d p) Off.SY_HEAD_STAT 0
  let s1 := wb s (pgThermal d) (thReg Off.TH_HEAD p) 20 b
  whenDo b s1 fun s =>
    setTherm s d { therm s d with ports := Tbl.put (therm s d).ports p { scope s d (some p) with belowAt := none } }

/-- A STATUS (R238). -/
def statusTake (s : State) (d p : Nat) (ws : List Word) : State :=
  let w := fun i => ws.getD i 0#24
  let q := pgHp d p
  let s1 := wr s q Off.THM_VHEAD (word (2 ^ 16 + fld (w 1) 0 16))
  let s2 := wr s1 q Off.SY_HEAD_STAT (word (fld (w 0) 12 8 * 2 ^ 16 + fld (w 0) 0 4))
  let s3 := countBy (countBy s2 q Off.CNT_ERR_DA (fld (w 2) 12 12)) q Off.CNT_ERR_DB (fld (w 2) 0 12)
  headFault (flagFollow (setPort s3 d p { port s3 d p with statusAt := s.clock }) d p) d p

/-- The frame that an ACK names has left. -/
def ackAwait (s : State) (d p : Nat) (w : Word) : State :=
  match (port s d p).outst.find? fun f => decide (f.fseq = fld w 12 8) with
  | none => s
  | some f => awaitEof s f

/-- A good upstream frame takes effect. -/
def upTake (s : State) (d p : Nat) (ws : List Word) : State :=
  let w := ws.headD 0#24
  if fld w 20 4 = 1 then ackTake (ackAwait s d p w) d p w else statusTake s d p ws

/-- An upstream frame with its check word is of a known type and length and its check word is right (R236). -/
def upGood (ws : List Word) : Bool :=
  ((decide (fld (ws.headD 0#24) 20 4 = 1) && decide (ws.length = 2))
    || (decide (fld (ws.headD 0#24) 20 4 = 2) && decide (ws.length = 4)))
    && decide (ws.getLast? = some (crcWords ws.dropLast))

/-- An upstream frame reaches the part's receiver (R236, R243): one with a code error, a wrong form, type, length or check
word is discarded. -/
def upFrame (s : State) (d p : Nat) (cs : List Chr) : State :=
  let ws := (frameRead cs).getD []
  if !upGood ws then upBad s d p
  else
    let (inj, s1) := injPick s d 0 1 p
    let held := (port s1 d p).upHeld
    if inj = 1 then s1
    else if inj = 2 then upBad s1 d p
    else if inj = 3 then setPort s1 d p { port s1 d p with upHeld := held ++ [ws] }
    else each held (upTake (setPort s1 d p { port s1 d p with upHeld := [] }) d p ws) fun s w => upTake s d p w

/-- ACK_RECEIVE (R239): the characters of an upstream frame, from SOF to EOF. -/
def execAckReceive (d p : Nat) (cs : List Chr) (s : State) : Host.Outcome State Fault Refusal :=
  if lanesUp s d p then ok (upFrame s d p cs) else ok s

/-- STATUS_RECEIVE (R238): the characters of an upstream frame, from SOF to EOF. -/
def execStatusReceive (d p : Nat) (cs : List Chr) (s : State) : Host.Outcome State Fault Refusal :=
  if lanesUp s d p then ok (upFrame s d p cs) else ok s

/-- No ACK has come for a frame (R240): retransmitted, replaced by NULL, or given up. -/
def ackTimeout (s : State) (d p : Nat) (f : Frame) : State :=
  if f.tries < 3 ∧ meets s d p (f.words.length + 1) f then retransmit s d p f
  else
    let sub := f.kind = 1 ∧ !isReplace f ∧ meets s d p 3 f
    let s1 := giveUp s d p f
    if sub ∧ (port s1 d p).link = 3 then queueFrame s1 d p (nullOf f) else s1

/-- ACK_TIMEOUT (R240): 400 ticks have passed since the EOF of the unacknowledged frame `q`. -/
def execAckTimeout (d p q : Nat) (s : State) : Host.Outcome State Fault Refusal :=
  if lanesUp s d p then
    match (port s d p).outst.find? fun f => decide (f.fseq = q) with
    | none => ok s
    | some f =>
      let x := port s d p
      if (x.queue ++ x.held ++ x.follow).any fun g => decide (g.tries ≠ 0) && decide (g.fseq = q) then ok s
      else ok (ackTimeout (waitClock s (f.sentAt + 400)) d p f)
  else ok s

/-- STATUS_STALE (R238): no STATUS for 4 ms. -/
def execStatusStale (d p : Nat) (s : State) : Host.Outcome State Fault Refusal :=
  if d < s.part.dies ∧ p < nPorts s ∧ 3 ≤ (port s d p).link ∧ (port s d p).link ≤ 4 then
    ok (headFault (wb (waitClock s ((port s d p).statusAt + 1000000)) (pgHp d p) Off.SY_HEAD_STAT 4 true) d p)
  else ok s

/-- UPSTREAM_CODE_ERRORS (R235): 4 code errors in 64 characters. -/
def execUpstreamCodeErrors (d p : Nat) (s : State) : Host.Outcome State Fault Refusal :=
  if lanesUp s d p then ok (retrain s d p 6) else ok s

/-! Discovery (R232, R233). -/

/-- Discovery or training fails (R232). -/
def linkFail (s : State) (d p code : Nat) : State :=
  let s1 := setLink (wf s (pgHp d p) Off.SY_STAT 12 4 code) d p 5
  raise (setPort s1 d p { port s1 d p with failAt := s.clock }) (pgHp d p) 14

/-- Byte `i` of an identity record. -/
def recByte (l : List Byte) (i : Nat) : Nat := (l.getD i 0#8).toNat

/-- The record is well formed (R233). -/
def recGood (l : List Byte) : Bool :=
  decide (l.length = 32) && decide (recByte l 0 = 0x53) && decide (recByte l 1 = 0x59) && decide (recByte l 2 = 1)
    && decide ((l.map BitVec.toNat).sum % 256 = 0)

/-- The record is copied into the `SY_HEAD` registers (R233). -/
def copyRecord (s : State) (d p : Nat) (l : List Byte) : State :=
  let b := recByte l
  let q := pgHp d p
  let s1 := wr s q Off.SY_HEAD_ID0 (word ((b 10 * 256 + b 11) * 2 ^ 8 + b 2))
  let s2 := wr s1 q Off.SY_HEAD_ID1 (word ((b 12 * 256 + b 13) * 2 ^ 8 + b 3 % 8 * 4 + b 6 % 4))
  let s3 := wr s2 q Off.SY_HEAD_ID2 (word ((b 4 * 256 + b 5 - 1) % 4096 * 2 ^ 12 + b 6 / 4 % 4 * 2 ^ 10 + b 6 / 16 % 2 * 2 ^ 9))
  let s4 := wr s3 q Off.SY_HEAD_ID3 (word (b 7 * 2 ^ 16 + b 8 * 2 ^ 8))
  wr48 s4 q Off.SY_HEAD_SN_L (((b 14 * 256 + b 15) * 256 + b 16) * 256 + b 17)

/-- Check the identity record; where no failure applies, firmware writes LINK_CTRL and training starts (R233, R234). -/
def discover (s : State) (d p : Nat) (ans : Option (List Byte)) : State :=
  match ans with
  | none => linkFail s d p 1
  | some l =>
    let s1 := copyRecord s d p l
    let pers := persOf s d p
    let top := recByte l 6 % 4
    let rate := min (rf s (pgHp d p) Off.SY_CFG 0 2) top
    if !recGood l then linkFail s1 d p 2
    else if !(recByte l 3).testBit pers then linkFail s1 d p 3
    else if pers ≠ 2 ∧ top = 0 then linkFail s1 d p 4
    else
      let s2 := setPort s1 d p { port s1 d p with rate := rate, attempts := 0 }
      let s3 := emit (emit s2 (.sideWrite d p 0x20 [0x81])) (.sideWrite d p 0x20 [0x01])
      if pers ≠ 2 ∧ rate = 0 then linkFail s3 d p 5 else setLink s3 d p 2

/-- LINK_DISCOVERY (R233): the head's 32 bytes, or no acknowledge. -/
def execLinkDiscovery (d p : Nat) (ans : Option (List Byte)) (s : State) : Host.Outcome State Fault Refusal :=
  if d < s.part.dies ∧ p < nPorts s ∧ (port s d p).link = 1 then ok (discover s d p ans) else ok s

/-- DISCOVERY_REPEAT (R232): 100 ms after a failure, while `EN` = 1. -/
def execDiscoveryRepeat (d p : Nat) (s : State) : Host.Outcome State Fault Refusal :=
  if d < s.part.dies ∧ p < nPorts s ∧ (port s d p).link = 5 ∧ pstate s (pgHp d p) = stStarting
      ∧ rb s (pgHp d p) Off.PAGE_CTRL 0 then
    ok (setLink (waitClock s ((port s d p).failAt + 25000000)) d p 1)
  else ok s

/-- A port enters RUNNING (R177, R185, R195, R205, R206): a head temperature that is valid counts from here on. -/
def portRunning (s : State) (d p : Nat) : State :=
  let s1 := setPstate s (pgHp d p) stRunning
  let s2 := setPort s1 d p { port s1 d p with tempSeen := headValid s d p, senseJ := 0, ptr := 0, integ := 0 }
  streamFollow (htrFollow s2 d p) d p

/-- Training ordered sets of an attempt as far as step `n` of R234: TS1 on both lanes over and over, then 16 TS2. -/
def trainSets (s : State) (d p n : Nat) : State :=
  let r := (port s d p).rate
  let ts1 := fun (lane : Nat) => [kComma, dChr 10 2, dChr lane 0, Chr.data r]
  let ts2 := [kComma, dChr 21 5, dChr 0 0, Chr.data r]
  let s1 := whenDo (decide (2 ≤ n)) s (emit · (.train d p (ts1 0) (ts1 1) 0))
  whenDo (decide (3 ≤ n)) s1 (emit · (.train d p ts2 ts2 16))

/-- Training completes (R234 step 4, R242). -/
def linkUp (s0 : State) (d p : Nat) : State :=
  let s := trainSets s0 d p 3
  let s1 := setLink (setPort s d p { port s d p with trained := (port s d p).rate }) d p 3
  let x := port s1 d p
  let s2 := setPort s1 d p { x with
    fseqNext := 0, giveRow := 0, attempts := 0, statusAt := s.clock, wireFree := s.clock, upAt := s.clock
    lead := bindLead s1 d p }
  let s3 := wb s2 (pgHp d p) Off.THM_VHEAD 16 false
  if pstate s3 (pgHp d p) = stStarting then portRunning s3 d p else s3

/-- LINK_UP (R234). -/
def execLinkUp (d p : Nat) (s : State) : Host.Outcome State Fault Refusal :=
  if d < s.part.dies ∧ p < nPorts s ∧ ((port s d p).link = 2 ∨ (port s d p).link = 4) then ok (linkUp s d p) else ok s

end Sys2Proof.Machine
end

