-- ==== Sys2Proof/Machine/Echo.lean ====
section
/-!
DEFINITION. The echo analyser (R207 to R214, R220, R221): features of a ring-down, classification, the nozzle state
machine, trim re-planning, sweeps, the nozzle commands (R226) and the load of the nozzle map (R203).
-/
namespace Sys2Proof.Machine

/-! Nozzle entries (R202). -/

/-- Lode word of entry `i` of the table at `ptr`. -/
def nozAddr (ptr i : Nat) : Nat := ptr + 8 * i

/-- A nozzle entry. -/
structure NozEntry where
  w : List Word
  deriving DecidableEq, Repr

/-- Word `i`. -/
def NozEntry.at (x : NozEntry) (i : Nat) : Word := x.w.getD i 0#24
/-- A field. -/
def NozEntry.f (x : NozEntry) (i lo n : Nat) : Nat := fld (x.at i) lo n
/-- Set a field. -/
def NozEntry.set (x : NozEntry) (i lo n v : Nat) : NozEntry := ⟨x.w.set i (setFld (x.at i) lo n v)⟩
/-- Set a whole word. -/
def NozEntry.setW (x : NozEntry) (i : Nat) (v : Word) : NozEntry := ⟨x.w.set i v⟩

def NozEntry.st (x : NozEntry) : Nat := x.f 0 21 3
def NozEntry.trim (x : NozEntry) : Nat := x.f 0 12 2
def NozEntry.base (x : NozEntry) : Nat := x.f 0 10 2
def NozEntry.drift (x : NozEntry) : Int := sgn 16 (x.f 5 8 16)

/-- Read an entry; a poisoned word is reported and ends it. -/
def readEntry (s : State) (d ptr i : Nat) : Option NozEntry × State :=
  let (ws, bad, s1) := readWords 8 s d false (nozAddr ptr i) 0 none 0
  (if bad then none else some ⟨ws⟩, s1)

/-- Write an entry back, and keep the map of its context in step (R203). -/
def writeEntry (s : State) (d k ptr i : Nat) (x : NozEntry) : State :=
  let s1 := lodeWrites s d (nozAddr ptr i) x.w
  if bound s1 d k ∧ ptr = af s1 d k 41 0 21 then
    setCtx s1 d k { ctx s1 d k with map := Tbl.put (ctx s1 d k).map i ⟨x.st, x.trim⟩ }
  else s1

/-- Word 2 of a state, trim or limit record (R222). -/
def recW2 (o n : NozEntry) (dd : Nat) : Word :=
  word (o.st * 2 ^ 21 + n.st * 2 ^ 18 + o.trim * 2 ^ 16 + n.trim * 2 ^ 14 + n.base * 2 ^ 12 + dd % 4096)

/-! Features (R208). -/

/-- Natural logarithm of `a / b` in units of 2^-64 (`a` ≥ `b` > 0), by its series. -/
def lnFix (a b : Nat) : Int :=
  let k := Nat.log2 (a / b)
  let one : Int := 2 ^ 64
  let at2 := fun (z : Int) =>
    ((List.range 48).foldl (fun (st : Int × Int) (i : Nat) => (st.1 * (z * z / one) / one, st.2 + st.1 / (2 * (i : Int) + 1))) (z, 0)).2
  let m : Int := (a : Int) * one / ((b : Int) * 2 ^ k)
  2 * at2 ((m - one) * one / (m + one)) + (k : Int) * (2 * at2 (one / 3))

/-- Positive crossings of a window: times in 1/16 sample (R208). `y` in 1/8 code; `h8` is H in 1/8 code. -/
def crossings : List (Nat × Int) → Int → Option Int → Bool → Nat → List Int
  | [], _, _, _, _ => []
  | (k, y) :: r, h8, prev, low, n =>
    if n = 0 then []
    else
      let hit := low && decide (0 ≤ y)
      let t := match prev with
        | none => (16 * (k : Int))
        | some q => 16 * ((k : Int) - 1) + (2 * 16 * (-q) + (y - q)) / (2 * (y - q))
      (if hit then [t] else []) ++ crossings r h8 (some y) (if hit then false else low || decide (y ≤ -h8)) (if hit then n - 1 else n)

/-- The largest |y| among samples `k` with `a` ≤ 16 k < `b`, and its first index. -/
def peakIn (ys : List (Nat × Int)) (a b : Int) : Nat × Nat :=
  (ys.filter fun e => decide (a ≤ 16 * (e.1 : Int)) && decide (16 * (e.1 : Int) < b)).foldl
    (fun best e => if best.1 < e.2.natAbs then (e.2.natAbs, e.1) else best) (0, 0)

/-- The features of a measurement in their stored formats; `n` is the number of crossings (R208). -/
structure Feat where
  n : Nat
  p : Nat
  t : Nat
  a : Nat
  ph : Nat
  deriving DecidableEq, Repr

/-- The features of a window (R208). With fewer than three crossings period, decay and phase have no stated value. -/
def features (s : State) (h8 : Int) (base win : List Nat) : Feat × State :=
  let b : Int := (base.sum : Nat)
  let ys : List (Nat × Int) := win.zipIdx.map fun e => (e.2, 8 * (e.1 : Int) - b)
  let ts := crossings ys h8 none false 9
  let amp := (ys.map fun e => e.2.natAbs).foldl max 0
  let a := clampN 0 4095 (nearest s amp 8).toNat
  let n := ts.length
  if n < 3 then
    (⟨n, freeBelow s 4096, freeBelow (nextFree s) 4096, a, freeBelow (nextFree (nextFree s)) 4096⟩,
      nextFree (nextFree (nextFree s)))
  else
    let tm := fun i => ts.getD i 0
    let span := tm (n - 1) - tm 0
    let p := clampI 0 4095 (nearest s span ((n : Int) - 1))
    let (fa, fi) := peakIn ys (tm 0) (tm 1)
    let (la, li) := peakIn ys (tm (n - 2)) (tm (n - 1))
    let t : Nat :=
      if fa ≤ la then 4095
      else if la = 0 then freeBelow s 4096
      else (clampI 0 4095 (nearest s (4 * ((li : Int) - (fi : Int)) * 2 ^ 64) (lnFix fa la))).toNat
    let num := tm 0 * ((n : Int) - 1)
    let ph := (nearest s ((num % span) * 4096) span % 4096).toNat
    (⟨n, p.toNat, t, a, ph⟩, nextFree s)

/-! Classification (R209, R210). -/

/-- A relative deviation in 1/4096, truncated and saturated; a reference of 0 leaves it open. -/
def relDev (s : State) (x r : Nat) : Int :=
  if r = 0 then (freeBelow s 8191 : Int) - 4095
  else clampI (-4095) 4095 (Int.tdiv (((x : Int) - (r : Int)) * 4096) (r : Int))

/-- A judged measurement: class (7 invalid), reason, features, deviations. -/
structure Verd where
  cls : Nat
  reason : Nat
  feat : Feat
  dp : Int
  dist : Nat
  len : Nat
  deriving DecidableEq, Repr

/-- Class of a measurement with a reference, NO_RING apart (R210). -/
def classOf (s : State) (d : Nat) (x : NozEntry) (f : Feat) : Nat × Int × Nat :=
  let p := pgEcho d
  let dp := relDev s f.p (x.f 1 12 12)
  let dt := relDev (nextFree s) f.t (x.f 1 0 12)
  let da := relDev (nextFree (nextFree s)) f.a (x.f 2 12 12)
  let dph := sgn 12 (uns 12 ((f.ph : Int) - (x.f 2 0 12 : Int)))
  let w := fun lo => rf s p Off.DIST_W lo 4
  let dist := min 4095 ((w 12 * dp.natAbs + w 8 * dt.natAbs + w 4 * da.natAbs + w 0 * dph.natAbs) / 16)
  let c :=
    if f.a * 256 < x.f 2 12 12 * rf s p Off.CLS_DRY 0 8 then 5
    else if f.n < 3 then 7
    else if dp ≤ -(rf s p Off.CLS_BLK 12 12 : Int) ∧ (rf s p Off.CLS_BLK 0 12 : Int) ≤ dt then 4
    else if (rf s p Off.CLS_BUB 12 12 : Int) ≤ dp ∨ da ≤ -(rf s p Off.CLS_BUB 0 12 : Int) then 3
    else if rf s p Off.CLS_WEAK 12 12 ≤ dist then 2
    else 1
  (c, dp, dist)

/-- Judge a measurement on its baseline and window samples (R209, R210). -/
def judge (s : State) (d : Nat) (m : Meas) (x : NozEntry) (base win : List Nat) : Verd × State :=
  let p := pgEcho d
  let h8 : Int := 32 * (rf s p Off.ECHO_CFG 0 4 : Nat)
  let (f, s1) := features s h8 base win
  let s2 := nextFree (nextFree (nextFree s1))
  let (c, dp, dist) := classOf s1 d x f
  let bad := fun r => (({ cls := 7, reason := r, feat := f, dp := 0, dist := 0, len := win.length } : Verd), s2)
  if (base ++ win).any fun v => decide (v = 0) || decide (4095 ≤ v) then bad 1
  else if win.length < 32 then bad 2
  else if x.f 0 9 1 = 0 then bad 3
  else if c = 7 then bad 4
  else if m.stale then bad 5
  else ({ cls := c, reason := 0, feat := f, dp := dp, dist := dist, len := win.length }, s2)

/-- The class after the band of R210. -/
def banded (s : State) (d : Nat) (x : NozEntry) (v : Verd) : Nat :=
  let lo : Int := (rf s (pgEcho d) Off.CLS_WEAK 12 12 : Int) - (rf s (pgEcho d) Off.CLS_WEAK 0 12 : Int)
  if v.cls = 1 ∧ 2 ≤ x.st ∧ x.st ≤ 5 ∧ lo ≤ (v.dist : Int) then x.st else v.cls

/-! The state machine (R212), trim re-planning (R221). -/

/-- Features stored in words 3 and 4 of an entry. -/
def storeFeat (x : NozEntry) (f : Feat) : NozEntry :=
  (x.setW 3 (word (f.p * 2 ^ 12 + f.t))).setW 4 (word (f.a * 2 ^ 12 + f.ph))

/-- What every result does to its entry (R212). -/
def touched0 (s : State) (x : NozEntry) (cls : Nat) : NozEntry :=
  ((x.set 6 12 12 (min 4095 (x.f 6 12 12 + 1))).setW 7 (word s.pkg.seconds)).set 5 5 3 cls

/-- The state part of R212: the entry after, and whether its state changed. -/
def stateStep (x : NozEntry) (c n : Nat) : NozEntry × Bool :=
  if x.st = 6 then (x, false)
  else
    let y :=
      if c = x.st then x.set 0 14 4 0
      else if c = x.f 0 18 3 ∧ 0 < x.f 0 14 4 then x.set 0 14 4 (min 15 (x.f 0 14 4 + 1))
      else (x.set 0 18 3 c).set 0 14 4 1
    if n ≤ y.f 0 14 4 then ((y.set 0 21 3 (y.f 0 18 3)).set 0 14 4 0, true) else (y, false)

/-- Trim re-planning (R221). -/
def trimStep (s : State) (d k i : Nat) (x : NozEntry) (dist : Nat) : NozEntry × State :=
  let c := rd s (pgEcho d) Off.TRIM_CFG
  let step := sgn 12 (fld c 12 12)
  if !bit (aw s d k 40) 3 || decide (step = 0) || decide (x.f 0 8 1 = 1) || !(decide (x.st = 1) || decide (x.st = 2)) then (x, s)
  else
    let o : Int := (x.trim : Int) - (x.base : Int)
    let q := Int.tdiv (x.drift * 16) step
    let h : Int := 8 + (fld c 4 4 : Int)
    let o2 := if 16 * o + h < q then o + 1 else if q < 16 * o - h then o - 1 else o
    let t := (x.base : Int) + o2
    if o2 = o then (x, s)
    else if 0 ≤ t ∧ t ≤ 3 then
      let y := (x.set 0 12 2 t.toNat).set 0 7 1 0
      (y, raise (count (nozRecord s d k 0xA 0 i (recW2 x y dist) (x.f 5 8 16)) (pgEcho d) Off.TRIM_CNT) (pgEcho d) 1)
    else if x.f 0 7 1 = 0 then
      let y := x.set 0 7 1 1
      (y, raise (nozRecord s d k 0xC 0 i (recW2 x y dist) (x.f 5 8 16)) (pgEcho d) 2)
    else (x, s)

/-- A valid result at its entry (R212). -/
def applyValid (s : State) (d k i : Nat) (x0 : NozEntry) (v : Verd) : NozEntry × State :=
  let c := banded s d x0 v
  let x1 := storeFeat (touched0 s x0 v.cls) v.feat
  let x2 := if 2 ≤ c ∧ c ≤ 5 then x1.set 6 0 12 (min 4095 (x1.f 6 0 12 + 1)) else x1
  let sh := rf s (pgEcho d) Off.TRIM_CFG 8 4
  let x3 := if c = 1 ∨ c = 2 then
      x2.set 5 8 16 (uns 16 (satI 16 (x2.drift + (v.dp - x2.drift) / 2 ^ sh)))
    else x2
  let (x4, ch) := stateStep x3 c (max 1 (af s d k 40 4 4))
  let s1 := if ch then
      raise (count (nozRecord s d k 0x9 0 i (recW2 x3 x4 v.dist) (x4.f 5 8 16)) (pgEcho d) Off.STATE_CNT) (pgEcho d) 0
    else s
  if x4.st = 6 then (x4, s1) else trimStep s1 d k i x4 v.dist

/-- An invalid result at its entry (R209, R212). -/
def applyInvalid (s : State) (x : NozEntry) (v : Verd) : NozEntry :=
  let y := (touched0 s x 7).set 5 2 3 v.reason
  if v.reason = 3 ∧ 3 ≤ v.feat.n then storeFeat y v.feat else y

/-! Result records (R222). -/

/-- The record of a result, where `ECHO_CFG.REC` asks for one. -/
def resultRecord (s : State) (d : Nat) (m : Meas) (v : Verd) : State :=
  let rec_ := rf s (pgEcho d) Off.ECHO_CFG 4 2
  if rec_ = 2 ∨ (rec_ = 1 ∧ v.cls ≠ 1) then
    let seq := (die s d).echoSeq
    let s1 := setDie s d { die s d with echoSeq := (seq + 1) % 4096 }
    let keep := decide (v.cls ≠ 7) || decide (v.reason = 3)
    chuteRecord s1 d 16
      [word (0x8 * 2 ^ 20 + m.port * 2 ^ 16 + v.cls * 2 ^ 13 + b2n m.sweep * 2 ^ 12 + seq), word (m.ctx * 2 ^ 16 + m.idx),
       (if keep then word (v.feat.p * 2 ^ 12 + v.feat.t) else 0#24), (if keep then word (v.feat.a * 2 ^ 12 + v.feat.ph) else 0#24),
       word ((if v.cls = 7 then 0 else v.dist) * 2 ^ 12 + v.reason * 2 ^ 8 + (v.len - 1) % 256), lo24 m.tick, hi24 m.tick]
  else s

/-! Sweeps (R214). -/

/-- The running sweep is a capture. -/
def capturing (s : State) (d : Nat) : Bool := decide (rf s (pgEcho d) Off.SWEEP_CFG 0 2 = 2)

/-- The reference that a capture writes (R214). -/
def captureEntry (x : NozEntry) (l : List (Nat × Nat × Nat × Nat)) : NozEntry :=
  let r := max 1 l.length
  let mean := fun (f : Nat × Nat × Nat × Nat → Nat) => (l.map f).sum / r
  let ph0 := ((l.head?.map fun e => e.2.2.2).getD 0)
  let dsum : Int := (l.map fun e => sgn 12 (uns 12 ((e.2.2.2 : Int) - (ph0 : Int)))).sum
  let ph := uns 12 ((ph0 : Int) + Int.tdiv dsum (r : Int))
  let y := (x.setW 1 (word (mean (fun e => e.1) * 2 ^ 12 + mean (fun e => e.2.1)))).setW 2 (word (mean (fun e => e.2.2.1) * 2 ^ 12 + ph))
  ((((((y.set 0 9 1 1).set 0 21 3 1).set 0 18 3 0).set 0 14 4 0).set 5 8 16 0).set 0 12 2 x.base)

/-- A valid result of the nozzle swept (R214): after R of them the nozzle is complete. -/
def sweepResult (s : State) (d : Nat) (m : Meas) (v : Verd) : State :=
  let p := pgEcho d
  let k := rf s p Off.SWEEP_CFG 16 8
  if m.sweep ∧ rf s p Off.SWEEP_STAT 0 3 = 1 ∧ m.ctx = k ∧ m.idx = rf s p Off.SWEEP_STAT 12 12 then
    let x := echo s d
    let sw := { x.sweep with got := x.sweep.got + 1, results := x.sweep.results ++ [(v.feat.p, v.feat.t, v.feat.a, v.feat.ph)] }
    let s1 := setEcho s d { x with sweep := sw }
    if sw.got < rf s p Off.SWEEP_CFG 12 4 + 1 then s1
    else if capturing s1 d then
      let (o, s2) := readEntry s1 d m.ptr m.idx
      match o with
      | none => sweepNext s2 d false
      | some e =>
        let n := captureEntry e sw.results
        let s3 := writeEntry s2 d k m.ptr m.idx n
        let s4 := if n.st ≠ e.st ∨ n.trim ≠ e.trim then nozRecord s3 d k 0x9 2 m.idx (recW2 e n 0) 0 else s3
        sweepNext s4 d false
    else sweepNext s1 d false
  else s

/-! Results. -/

/-- Apply a result (R212): counters, records, the entry, the sweep. -/
def echoApply (s : State) (d : Nat) (m : Meas) (base win : List Nat) : State :=
  let (o, s1) := readEntry s d m.ptr m.idx
  match o with
  | none => s1
  | some x =>
    let (v, s2) := judge s1 d m x base win
    let good := decide (v.cls ≠ 7) || (m.cap && decide (v.reason = 3))
    let s3 := if good then count s2 (pgEcho d) Off.MEAS_CNT
      else raise (count s2 (pgEcho d) Off.INVALID_CNT) (pgEcho d) 5
    let s4 := resultRecord s3 d m v
    if m.cap then (if good then sweepResult s4 d m v else s4)
    else if v.cls = 7 then writeEntry s4 d m.ctx m.ptr m.idx (applyInvalid s4 x v)
    else
      let (y, s5) := applyValid s4 d m.ctx m.idx x v
      sweepResult (writeEntry s5 d m.ctx m.ptr m.idx y) d m v

/-- ECHO_RESULT (R212): the analyser ends the oldest measurement of the die on its 8 baseline samples and its L window
samples of the 12-bit ADC (R207). -/
def execEchoResult (d : Nat) (base win : List Nat) (s : State) : Host.Outcome State Fault Refusal :=
  match (echo s d).meas with
  | [] => ok s
  | m :: r =>
    if base.length = 8 ∧ win.length = m.len ∧ (base ++ win).all fun v => decide (v < 4096) then
      ok (echoApply (setEcho s d { echo s d with meas := r }) d m base win)
    else ok s

/-- `SWEEP_CTRL.START` (R214). -/
def sweepStart (r : Req) (d : Nat) (s : State) : State :=
  let p := pgEcho d
  let k := rf s p Off.SWEEP_CFG 16 8
  let refuse := fun s c => wr s p Off.SWEEP_STAT (setFld (setFld (rd s p Off.SWEEP_STAT) 0 3 3) 4 4 c)
  if rf s p Off.SWEEP_STAT 0 3 = 1 then s
  else if modeOf s d ≠ 3 then refuse s 1
  else if (ctx s d k).st ≠ .printing ∨ persOf s d (cPort s d k) = 2 ∨ !bit (aw s d k 40) 0 ∨ (ctx s d k).ntBad then refuse s 2
  else if capturing s d ∧ r.cls ≠ .firmware then refuse (logErr s r p Off.SWEEP_CTRL true 0x40) 3
  else
    let s1 := wr (wr (wr s p Off.SWEEP_STAT (word 1)) p Off.SWEEP_DONE 0#24) p Off.SWEEP_MISS 0#24
    setEcho s1 d { echo s1 d with sweep := { port := cPort s d k } }

/-- `SWEEP_CTRL.ABORT` (R214). -/
def sweepAbort (d : Nat) (s : State) : State := if rf s (pgEcho d) Off.SWEEP_STAT 0 3 = 1 then sweepEnd s d 3 4 else s

/-- SWEEP_START (R214). -/
def execSweepStart (r : Req) (d : Nat) (s : State) : Host.Outcome State Fault Refusal :=
  ok (guardedWrite s r (pgEcho d) Off.SWEEP_CTRL (sweepStart ⟨clsOn r (pgEcho d), r.rid⟩ d))

/-- SWEEP_ABORT (R214). -/
def execSweepAbort (r : Req) (d : Nat) (s : State) : Host.Outcome State Fault Refusal :=
  ok (guardedWrite s r (pgEcho d) Off.SWEEP_CTRL (sweepAbort d))

/-! Nozzle commands (R226). -/

/-- The entry after a command, or none where its argument is not listed. -/
def nzEffect (op arg : Nat) (x : NozEntry) : Option NozEntry :=
  match op with
  | 1 => if arg % 8 = 7 then none else some (((x.set 0 21 3 (arg % 8)).set 0 18 3 0).set 0 14 4 0)
  | 2 => some (((x.set 0 12 2 (arg % 4)).set 0 10 2 (arg % 4)).set 0 7 1 0)
  | 3 => some (((((x.set 0 18 3 0).set 0 14 4 0).set 0 7 1 0).set 5 8 16 0).setW 6 0#24)
  | 4 => some (x.set 0 9 1 0)
  | 5 => some (x.set 0 9 1 1)
  | 6 => some (x.set 0 8 1 (arg % 2))
  | _ => none

/-- The result of the last command. -/
def nzResult (s : State) (d op res : Nat) : State :=
  let s1 := wr s (pgEcho d) Off.NZ_CMD_STAT (word (res * 2 ^ 16 + op))
  if res = 1 then s1 else raise s1 (pgEcho d) 8

/-- A nozzle command on the entry that `NZ_SEL` names (R226). -/
def nzCmd (d op arg : Nat) (s : State) : State :=
  let k := rf s (pgEcho d) Off.NZ_SEL 16 8
  let i := rf s (pgEcho d) Off.NZ_SEL 0 12
  if modeOf s d < 2 then s
  else if nCtx s ≤ k then nzResult s d op 0x13
  else if (ctxRange s d k).2 < i then nzResult s d op 0x10
  else if tableBad s d k then nzResult s d op 0x12
  else
    let ptr := af s d k 41 0 21
    if (nzEffect op arg ⟨List.replicate 8 0#24⟩).isNone then nzResult s d op 0x11
    else
      let (o, s1) := readEntry s d ptr i
      match o with
      | none => nzResult s1 d op 1
      | some x =>
        let y := (nzEffect op arg x).getD x
        let s2 := writeEntry s1 d k ptr i y
        let s3 := if y.st ≠ x.st then nozRecord s2 d k 0x9 1 i (recW2 x y 0) (y.f 5 8 16)
          else if y.trim ≠ x.trim then nozRecord s2 d k 0xA 1 i (recW2 x y 0) (y.f 5 8 16) else s2
        nzResult s3 d op 1

/-- SET_STATE (R226). -/
def execSetState (r : Req) (d arg : Nat) (s : State) : Host.Outcome State Fault Refusal :=
  ok (guardedWrite s r (pgEcho d) Off.NZ_CMD (nzCmd d 1 (arg % 16)))
/-- SET_TRIM (R226). -/
def execSetTrim (r : Req) (d arg : Nat) (s : State) : Host.Outcome State Fault Refusal :=
  ok (guardedWrite s r (pgEcho d) Off.NZ_CMD (nzCmd d 2 (arg % 16)))
/-- CLEAR_HIST (R226). -/
def execClearHist (r : Req) (d : Nat) (s : State) : Host.Outcome State Fault Refusal :=
  ok (guardedWrite s r (pgEcho d) Off.NZ_CMD (nzCmd d 3 0))
/-- REF_INVALID (R226). -/
def execRefInvalid (r : Req) (d : Nat) (s : State) : Host.Outcome State Fault Refusal :=
  ok (guardedWrite s r (pgEcho d) Off.NZ_CMD (nzCmd d 4 0))
/-- REF_VALID (R226). -/
def execRefValid (r : Req) (d : Nat) (s : State) : Host.Outcome State Fault Refusal :=
  ok (guardedWrite s r (pgEcho d) Off.NZ_CMD (nzCmd d 5 0))
/-- LOCK_TRIM (R226). -/
def execLockTrim (r : Req) (d arg : Nat) (s : State) : Host.Outcome State Fault Refusal :=
  ok (guardedWrite s r (pgEcho d) Off.NZ_CMD (nzCmd d 6 (arg % 16)))

/-! The map (R203). -/

/-- Read word 0 of the entries from `i` on into the map; a poisoned word fences the context. -/
def mapLoad : Nat → State → Nat → Nat → Nat → Tbl Nat NzMap → State
  | 0, s, d, k, _, m => setCtx s d k { ctx s d k with map := m, mapReady := true }
  | n + 1, s, d, k, i, m =>
    let (ws, bad, s1) := ctxRead s d k false (nozAddr (af s d k 41 0 21) i) 1
    if bad then s1
    else
      let w := ws.headD 0#24
      mapLoad n s1 d k (i + 1) (m ++ [(i, ⟨fld w 21 3, fld w 12 2⟩)])

/-- NOZZLE_MAP_LOAD_DONE (R203). -/
def execNozzleMapLoadDone (d k : Nat) (s : State) : Host.Outcome State Fault Refusal :=
  if d < s.part.dies ∧ k < nCtx s ∧ bound s d k ∧ !(ctx s d k).mapReady then
    ok (mapLoad (cCount s d k + 1) s d k 0 [])
  else ok s

end Sys2Proof.Machine
end

