-- ==== Sys2Proof/Machine/EncCore.lean ====
section
/-!
DEFINITION. Encoder channels as others see them: modes, position, and the messages a channel sends to its contexts and
to REMOTE channels (R82, R106, R107, R109).
-/
namespace Sys2Proof.Machine

/-- `ENC_CFG.MODE` (R82). -/
def encMode (s : State) (d c : Nat) : Nat := rf s (pgEnc d c) Off.ENC_CFG 0 3
/-- QUAD, STEP_DIR or UP_DOWN. -/
def encIncr (s : State) (d c : Nat) : Bool := decide (encMode s d c ≤ 2)
/-- SSI or BISS_C. -/
def encSerial (s : State) (d c : Nat) : Bool := decide (encMode s d c = 3) || decide (encMode s d c = 4)
/-- `VIRT_RATE`, signed 8.40 counts per tick. -/
def virtRate (s : State) (d c : Nat) : Int := sgn 48 (rd48 s (pgEnc d c) Off.VIRT_RATE_L)
/-- The position accumulator of VIRT_RATE at the present clock, 2^-40 counts (R108); it stands in STANDBY (R393). -/
def virtAcc (s : State) (d c : Nat) : Int :=
  (enc s d c).acc + if modeOf s d = 1 then 0 else virtRate s d c * ((s.clock : Int) - (enc s d c).accAt)
/-- The axis a VIRT_AXIS channel follows. -/
def virtAxis (s : State) (d c : Nat) : Nat := rf s (pgEnc d c) Off.VIRT_CFG 0 2
/-- `POS` (R88, R106, R108): in the virtual modes the accumulator's count, or the axis position with its offset. -/
def encPos (s : State) (d c : Nat) : Int :=
  if running s (pgEnc d c) ∧ encMode s d c = 5 then sgn 48 (uns 48 ((virtAcc s d c + 2 ^ 39) / 2 ^ 40))
  else if running s (pgEnc d c) ∧ encMode s d c = 6 then
    sgn 48 (uns 48 (axPos s d (virtAxis s d c) + (enc s d c).acc / 2 ^ 40))
  else sgn 48 (rd48 s (pgEnc d c) Off.POS_L)
/-- The record of the window boundaries of length W = 2^(k + 4), brought up to date: `POS` has followed the same law since
clock `since` (R94). -/
def winNext (s : State) (d c since k : Nat) (w : Nat × Int × Int) : Nat × Int × Int :=
  let n := 2 ^ (k + 4)
  let b := s.clock - now s d % n
  let at_ := fun t => encPos { s with clock := t } d c
  if b < since then w
  else (b, at_ b, if w.1 = b then w.2.2 else if w.1 + n ≠ b ∧ since + n ≤ b then at_ (b - n) else w.2.1)

/-- The window boundaries are recorded up to now, before `POS` changes (R94). -/
def winSync (s : State) (d c : Nat) : State :=
  let x := enc s d c
  setEnc s d c { x with win := x.win.zipIdx.map fun e => winNext s d c x.winAt e.2 e.1, winAt := s.clock }

/-- A load, a reference or an index correction is taken out of the windows in progress (R94). -/
def winShift (s : State) (d c : Nat) (amount : Int) : State :=
  let x := enc s d c
  setEnc s d c { x with win := x.win.map fun w => (w.1, w.2.1 + amount, w.2.2 + amount) }

/-- The `POS` register shows the count of a virtual channel. -/
def encSync (s : State) (d c : Nat) : State :=
  let s1 := winSync s d c
  wr48 s1 (pgEnc d c) Off.POS_L (uns 48 (encPos s1 d c))

/-- ENC_c_B (R83, R97). The manual does not say how many clock periods a frame takes: MA is shown as running until the
frame has ended. -/
def encB (s : State) (d c : Nat) : PadB :=
  if encIncr s d c then .input
  else if encSerial s d c && (enc s d c).serBusy then .clock (clampN 13 1250 (rf s (pgEnc d c) Off.SER_CLK 0 11))
  else .high

/-- Report the pair ENC_c_B if it has changed since state `s0`. -/
def padB (s0 s : State) (d c : Nat) : State :=
  if encB s d c = encB s0 d c then s else emit s (.encB d c (now s d) (encB s d c))

/-- A serial frame in progress is given up, or ends unused (R110). -/
def serDrop (s : State) (d c : Nat) : State := padB s (setEnc s d c { enc s d c with serBusy := false }) d c
/-- dt of R104. -/
def encPer (s : State) (d c : Nat) : Nat := clampN 3 12 (rf s (pgEnc d c) Off.EST_CFG 0 4)

/-- The die and channel that a REMOTE channel mirrors (R109). -/
def remoteSrc (s : State) (d c : Nat) : Nat × Nat :=
  (rf s (pgEnc d c) Off.VIRT_CFG 8 3, rf s (pgEnc d c) Off.VIRT_CFG 12 3)

/-- The REMOTE channels that mirror a channel (R109). -/
def remotesOf (s : State) (d c : Nat) : List (Nat × Nat) :=
  (dieList s).flatMap fun e =>
    ((List.range (nEnc s)).filter fun x =>
      decide (e ≠ d) && running s (pgEnc e x) && decide (encMode s e x = 7) && decide (remoteSrc s e x = (d, c))).map
      fun x => (e, x)

/-- The channel sends a message to the contexts of its die and to the REMOTE channels that mirror it (R107, R109). -/
def encSend (s : State) (d c : Nat) (k : MsgKind) : State :=
  let p := pgEnc d c
  let ms := (remotesOf s d c).map fun r =>
    (⟨r.1, r.2, k, uns 48 (encPos s d c), rd48 s p Off.SPD_L⟩ : HopMsg)
  sendMsg { s with hops := s.hops ++ ms } d c k

/-- The estimate is no longer valid. -/
def encInvalid (s : State) (d c : Nat) : State := setDyn (wb s (pgEnc d c) Off.EST_STAT 0 false) (pgEnc d c) 8 false

/-- `PD_CFG_n` binds an input to a channel (R111). -/
def pdBound (s : State) (d n c : Nat) : Bool :=
  let w := rd s (pgPd d) (Off.PD_CFG + 4 * n)
  !bit w 17 && decide (fld w 14 3 = c)

/-- A position lies at least `PD_LOCK_n` counts from `PD_POS_n` (R112). -/
def pdFar (s : State) (d n : Nat) (pos : Int) : Bool :=
  decide (rdN s (pgPd d) (Off.PD_LOCK + 4 * n)
    ≤ (sgn 48 (uns 48 (pos - (rd48 s (pgPd d) (Off.PD_POS_L + 16 * n) : Int)))).natAbs)

/-- The lockouts measured by a channel that `f` holds for end (R112). -/
def pdUnlock (s : State) (d c : Nat) (f : Nat → Bool) : State :=
  each (List.range 8) s fun s n =>
    if (pdIn s d n).locked && pdBound s d n c && f n then setPdIn s d n { pdIn s d n with locked := false } else s

/-- `POS` of a channel has changed: lockouts that it has left behind end (R112). -/
def pdMoved (s : State) (d c : Nat) : State := pdUnlock s d c fun n => pdFar s d n (encPos s d c)

/-- The channel sends SOURCE_LOST (R107 to R110). -/
def encLost (s : State) (d c : Nat) : State := raise (encSend s d c .lost) (pgEnc d c) 13

/-- The VIRT_AXIS channels that follow an axis send SOURCE_LOST (R108, R268). -/
def axisLost (s : State) (d a : Nat) : State :=
  each ((List.range (nEnc s)).filter fun c =>
    running s (pgEnc d c) && decide (encMode s d c = 6) && decide (rf s (pgEnc d c) Off.VIRT_CFG 0 2 = a)) s
    fun s c => encLost s d c

end Sys2Proof.Machine
end

