-- ==== Sys2Proof/Machine/HoistCore.lean ====
section
/-!
DEFINITION. Hoist channels: address registers and kinds (R272, R275), when a burst may start (R276, R283), reservations
(R283, R285), and completion queues (R290 to R292).
-/
namespace Sys2Proof.Machine

/-! Address registers (R272). -/

/-- Address register `a`: its 64-bit address and HOST flag. -/
def hcA (s : State) (d c a : Nat) : Nat × Bool :=
  let o := Off.HC_A_L + 16 * a
  (rd48 s (pgHc d c) o + 2 ^ 48 * rf s (pgHc d c) (o + 8) 0 16, rb s (pgHc d c) (o + 8) 16)

/-- Load an address register; addresses are modulo 2^64. -/
def setHcA (s : State) (d c a addr : Nat) (host : Bool) : State :=
  let o := Off.HC_A_L + 16 * a
  let x := addr % 2 ^ 64
  wr (wr48 s (pgHc d c) o x) (pgHc d c) (o + 8) (word (b2n host * 2 ^ 16 + x / 2 ^ 48))

/-- The step of a kind in bytes (R275): PACKED 3, WIDE 4, FIXED 0. -/
def kindStep (k : Nat) : Nat := match k with | 0 => 3 | 1 => 4 | _ => 0

/-- Local byte address of a dual-port word (R55, R285). -/
def dpsLocal (w : Nat) : Nat := 0x100000 + 3 * w

/-- The chute that a local FIXED address names as destination (push window) or source (pop window) (R275, R300). Chutes
16 to 20 take no push. -/
def hcChute (s : State) (d addr : Nat) (host : Bool) (kind : Nat) (push : Bool) : Option Nat :=
  let n := addr / 0x1000 - 0x60
  let o := addr % 0x1000
  if !host && decide (kind = 2) && decide (0x60000 ≤ addr) && decide (addr < 0xA0000) && present s (pgChute d n)
      && realChute s n
      && (if push then decide (0x800 ≤ o) && decide (o < 0xC00) && !(decide (16 ≤ n) && decide (n ≤ 20))
          else decide (0xC00 ≤ o))
  then some n else none

/-! When a burst may start (R276, R283). -/

/-- HOST flags of the two sides of a MOVE. -/
def moveHosts (s : State) (d c : Nat) (m : MoveSt) : Bool × Bool := ((hcA s d c m.sr).2, (hcA s d c m.dr).2)

/-- Words up to the next 4 KiB boundary of a host address; at least one (R276). -/
def toBoundary (addr : Nat) (host : Bool) (kind : Nat) : Nat :=
  if host && decide (kind ≠ 2) then max ((4096 - addr % 4096) / kindStep kind) 1 else 64

/-- Length of the next burst of a MOVE (R276). -/
def burstLen (s : State) (d c : Nat) (m : MoveSt) : Nat :=
  let h := moveHosts s d c m
  min (min 64 m.left) (min (toBoundary m.src h.1 m.sk) (toBoundary m.dst h.2 m.dk))

/-- `HC_CTRL.HOLD`. -/
def hcHeld (s : State) (d c : Nat) : Bool := rb s (pgHc d c) Off.HC_CTRL 2

/-- The pacing condition (R283). -/
def hcPaced (s : State) (d c : Nat) : Bool :=
  let t := rd s (pgHc d c) Off.HC_TRIG
  if !bit t 20 then true
  else match fld t 21 3 with
    | 1 => decide ((hoist s d c).tokens ≠ 0)
    | 3 => let q := fld t 0 6
      present s (pgChute d q) && realChute s q && running s (pgChute d q) && threshMet s d q
    | _ => true

/-- Space or words for a burst of `n` in the chutes of a MOVE; a fenced chute fails the burst instead (R283, R285). -/
def hcRoom (s : State) (d c n : Nat) (m : MoveSt) : Bool :=
  let h := moveHosts s d c m
  (match hcChute s d m.dst h.2 m.dk true with
    | some q => fenced s (pgChute d q) || (running s (pgChute d q) && decide (n ≤ freeWords (chute s d q)))
    | none => true)
  && (match hcChute s d m.src h.1 m.sk false with
    | some q => fenced s (pgChute d q)
        || (!chuteHeld s d q && decide (n + srcReserved s d q ≤ (chute s d q).words.length))
    | none => true)

/-- Every condition of R283 but the gap. -/
def hcMayStart (s : State) (d c : Nat) (m : MoveSt) : Bool :=
  !hcHeld s d c && hcPaced s d c && hcRoom s d c (burstLen s d c m) m

/-- The clock from which the gap permits the next burst. -/
def hcGapClock (s : State) (d c : Nat) : Nat :=
  match (hoist s d c).lastStart with
  | some t => t + rf s (pgHc d c) Off.HC_GAP 0 16
  | none => 0

/-- A channel that runs waits: for a condition of R283, for a completion queue (R292), or with HOLD = 1. -/
def hcFlow (s : State) (d c : Nat) : Bool :=
  let x := hoist s d c
  if x.sig.isSome then true
  else match x.move with
    | none => hcHeld s d c
    | some m =>
      decide (m.left ≠ 0) && decide (x.bursts.length < 4)
        && (!hcMayStart s d c m || decide (s.clock < hcGapClock s d c))

/-- `HC_STAT.CSTATE` (R303): RUN shows as FLOW while the channel waits (R283). -/
def hcState (s : State) (d c : Nat) : Nat :=
  let st := pstate s (pgHc d c)
  if st = stFenced then 7
  else if st = stRunning ∨ st = stShutting ∨ st = stRestart then
    let cs := (hoist s d c).cs
    if cs = 2 ∧ hcFlow s d c then 4 else cs
  else 0

/-! Reservations (R283, R285). -/

/-- Release what a burst has reserved: space in its destination chute, and words of its source chute, which stay at
the head. -/
def unreserve (s : State) (d : Nat) (b : Burst) : State :=
  match b.res with
  | none => s
  | some q => let y := chute s d q; chuteFollow (setChute s d q { y with reserved := y.reserved - b.n }) d q

/-- A burst in flight has reserved space or words in a chute (R302). -/
def burstsTo (s : State) (d q : Nat) : Bool :=
  (List.range 32).any fun c => (hoist s d c).bursts.any fun b => decide (b.res = some q) || decide (b.sres = some q)

/-- The content of a chute has been discarded (R302): failed bursts hold no reservation in it any more. -/
def heldForget (s : State) (d q : Nat) : State :=
  each (List.range 32) s fun s c =>
    setHoist s d c { hoist s d c with held := (hoist s d c).held.map fun b =>
      { b with res := if b.res = some q then none else b.res, sres := if b.sres = some q then none else b.sres } }

/-- Bursts in flight are discarded and what they reserved is released; their host reads are abandoned (R285, R288). -/
def hcDrop (s : State) (d c : Nat) : State :=
  let x := hoist s d c
  let s1 := setHoist s d c { x with bursts := [] }
  let s2 := { s1 with pcie := { s1.pcie with
    reads := s1.pcie.reads.filter fun r => !(decide (r.die = d) && decide (r.chan = c)) } }
  each x.bursts s2 fun s b => unreserve s d b

/-- Release the reservation of the failed burst (R285). -/
def hcUnhold (s : State) (d c : Nat) : State :=
  let x := hoist s d c
  each x.held.toList (setHoist s d c { x with held := none }) fun s b => unreserve s d b

/-! Completion queues (R290 to R292). -/

/-- K of a queue (R290): 0 is off, codes other than 4 to 16 act as 16. -/
def cqK (s : State) (d q : Nat) : Nat :=
  let v := rf s (pgHoistGlobal d) (Off.CQ_SIZE + 32 * q) 0 5
  if v = 0 then 0 else if 4 ≤ v ∧ v ≤ 16 then v else 16

/-- Index and phase of a queue. -/
def cqIdx (s : State) (d q : Nat) : Nat := rf s (pgHoistGlobal d) (Off.CQ_PROD + 32 * q) 0 16
def cqPhase (s : State) (d q : Nat) : Nat := rf s (pgHoistGlobal d) (Off.CQ_PROD + 32 * q) 16 1

/-- The queue is full (R292). -/
def cqFull (s : State) (d q : Nat) : Bool :=
  decide ((cqIdx s d q + 1) % 2 ^ cqK s d q = rf s (pgHoistGlobal d) (Off.CQ_CONS + 32 * q) 0 16)

/-- CQ_FULL_q is set when a record finds its queue full, and stays set until it has been written (R292, R303): `kept` says
whether the record that found it so still waits. -/
def cqFollow (s : State) (d q : Nat) (kept : Bool := true) : State :=
  setDyn s (pgHoistGlobal d) (4 + q)
    ((cqRecs s d).any (fun r => decide (r.q = q)) && decide (cqK s d q ≠ 0)
      && (cqFull s d q || (kept && rb s (pgHoistGlobal d) Off.EVT_DYN (4 + q))))

/-- Append a record: it waits until it is written; one for a queue that is off is not written (R290). -/
def cqAppend (s : State) (d c kind code q : Nat) (instr : Bool) : State :=
  if cqK s d q = 0 then s
  else
    let r : CqRec := ⟨c, q, kind, code, rf s (pgHc d c) Off.CNT_RUNS 0 16, instr⟩
    cqFollow (setCqRecs s d (cqRecs s d ++ [r])) d q

/-- The record that a SIGNAL or END waits for is withdrawn with its instruction. -/
def hcUnsig (s : State) (d c : Nat) : State :=
  let x := hoist s d c
  if x.sig.isSome then
    let s1 := setCqRecs (setHoist s d c { x with sig := none }) d
      ((cqRecs s d).filter fun r => !(decide (r.chan = c) && r.instr))
    each [0, 1, 2, 3] s1 fun s q => cqFollow s d q
  else s

/-- An error record, with `HC_CFG.ERR_REC` = 1 (R285, R286). -/
def errRecord (s : State) (d c kind code : Nat) : State :=
  if rb s (pgHc d c) Off.HC_CFG 2 then cqAppend s d c kind code (rf s (pgHc d c) Off.HC_CFG 0 2) false else s

/-- SIGNAL or END completes once its record has been appended (R279): `w` is its word. -/
def hcFinish (s : State) (d c : Nat) (w : Word) : State :=
  let x := hoist s d c
  let p := pgHc d c
  if fld w 20 4 = 0xF then
    let s1 := setHoist s d c { x with cs := 1, sig := none, move := none, wait := none }
    raise (hoistSource s1 d 2 c 0) p 1
  else
    let s1 := setHoist s d c { x with pc := x.pc + 1, sig := none, wdAt := s.clock }
    let s2 := whenDo (bit w 16) s1 (raise · p 2)
    whenDo (bit w 7) s2 fun s => hoistSource s d 2 c 0

/-- The first record of a queue whose channel has no earlier record waiting (R285, R292). -/
def cqNext (q : Nat) : List CqRec → List Nat → Option CqRec
  | [], _ => none
  | r :: l, seen => if r.q = q ∧ !seen.contains r.chan then some r else cqNext q l (r.chan :: seen)

/-- The words of a completion record (R291). -/
def cqWords (s : State) (d : Nat) (r : CqRec) (seq : Nat) : List Word :=
  [word (r.kind * 2 ^ 20 + d * 2 ^ 17 + r.chan * 2 ^ 12 + seq % 2 ^ 12), word (r.code % 256 * 2 ^ 16 + r.run % 2 ^ 16),
   lo24 (now s d), hi24 (now s d)]

/-- The 16 bytes of a record; bit 31 of word 0 carries PHASE (R290). -/
def cqBytes (ws : List Word) (phase : Nat) : List Byte :=
  ws.zipIdx.flatMap fun x => wordBytes x.1 ++ [BitVec.ofNat 8 (if x.2 = 0 then phase * 128 else 0)]

/-- The record leaves its place, and the instruction that waited for it completes. -/
def cqDone (s : State) (d : Nat) (r : CqRec) : State :=
  let s1 := cqFollow (setCqRecs s d ((cqRecs s d).erase r)) d r.q false
  if r.instr then
    match (hoist s1 d r.chan).sig with
    | some w => hcFinish s1 d r.chan w
    | none => s1
  else s1

/-- Write the next record of a queue, if the queue has room and Bus Master Enable is 1 (R290, R292, R421); a record of a
queue that has been turned off is not written. -/
def cqWrite (s : State) (d q : Nat) : State :=
  match cqNext q (cqRecs s d) [] with
  | none => s
  | some r =>
    let k := cqK s d q
    if k = 0 then cqDone s d r
    else if cqFull s d q || !hostOpen s d then s
    else
      let g := pgHoistGlobal d
      let i := cqIdx s d q
      let ph := cqPhase s d q
      let seq := Tbl.get s.cqSeq (d, q) 0
      let at_ := (rd48 s g (Off.CQ_BASE_L + 32 * q) + 2 ^ 48 * rf s g (Off.CQ_BASE_H + 32 * q) 0 16 + 16 * i) % 2 ^ 64
      let s1 := emit s (.hostWrite at_ (cqBytes (cqWords s d r seq) ph))
      let j := (i + 1) % 2 ^ k
      let ph2 := if j = 0 then 1 - ph else ph
      let s2 := wr { s1 with cqSeq := Tbl.put s1.cqSeq (d, q) ((seq + 1) % 2 ^ 12) } g (Off.CQ_PROD + 32 * q)
        (word (ph2 * 2 ^ 16 + j))
      raise (cqDone s2 d r) g q

end Sys2Proof.Machine
end

