-- ==== Sys2Proof/Machine/Thermal.lean ====
section
/-!
DEFINITION. Temperatures, head heaters, warnings, the throttle request and enforcement (R194, R195, R340 to R350).
-/
namespace Sys2Proof.Machine

/-! Registers of the THERMAL page. -/

/-- The head's over-temperature flag (R238). -/
def headFlag (s : State) (d p : Nat) : Bool := rb s (pgHp d p) Off.SY_HEAD_STAT 0

/-- The stage fields and the request bit follow the scopes. -/
def thStat (s : State) (d : Nat) : State :=
  let p := pgThermal d
  let any := (scope s d none).warned || (List.range (nPorts s)).any fun q => (scope s d (some q)).warned
  let s1 := wb (wf s p Off.TH_STAT 2 2 (scope s d none).stage) p Off.TH_STAT 6 any
  each (List.range (nPorts s)) s1 fun s q =>
    wb (wf s p (thReg Off.TH_HEAD q) 16 2 (match (scope s d (some q)).stage with | 0 => 0 | 3 => 2 | _ => 1))
      p (thReg Off.TH_HEAD q) 20 (headFlag s d q)

/-- `REDUCE` (R343). -/
def reduceOf (s : State) (d : Nat) : Nat := clampN 16 240 (rf s (pgThermal d) Off.TH_CFG 8 8)

/-- The high time of THROT_REQ in the present period, 1/256 of it; 256: steady high. Periods of 1 ms run from reset on
(R344; DESIGN CHOICE, log entry 72: their phase is open). -/
def throtNow (s : State) : Nat :=
  if s.pkg.throtAt / 250000 < s.clock / 250000 then s.pkg.throtNew else s.pkg.throt

/-- THROT_REQ from the next period on: steady high under a critical fence, else the largest REDUCE of the dies with a warned
scope (R344). -/
def throtFollow (s : State) : State :=
  let crit := (dieList s).any fun d => rb s (pgThermal d) Off.TH_STAT 7
  let duty := ((dieList s).filter fun d => rb s (pgThermal d) Off.TH_STAT 6).foldl (fun m d => max m (reduceOf s d)) 0
  { s with pkg := { s.pkg with throt := throtNow s, throtNew := if crit then 256 else duty, throtAt := s.clock } }

def setScope (s : State) (d : Nat) (o : Option Nat) (x : ScopeSt) : State :=
  let t := therm s d
  throtFollow (thStat (setTherm s d (match o with | none => { t with die := x } | some p => { t with ports := Tbl.put t.ports p x })) d)

/-! Work (R343). -/

/-- Drops fired by a port in the preceding 100 ms, in units of 4. -/
def portWork (s : State) (d p : Nat) : Nat :=
  (((Tbl.get (therm s d).fired p []).filter fun e => decide (s.clock < e.1 + 25000000)).map Prod.snd).sum / 4

/-- The work of a scope. -/
def scopeWork (s : State) (d : Nat) (o : Option Nat) : Nat :=
  match o with | none => rdN s (pgThermal d) Off.TH_WORK_NOW | some p => portWork s d p

/-- Work has fallen against the reference (R343). -/
def workFallen (s : State) (d : Nat) (o : Option Nat) : Bool :=
  decide (scopeWork s d o * 256 ≤ (scope s d o).w0 * (256 - reduceOf s d))

/-! Records (R350). -/

/-- The temperature of a scope. -/
def scopeTemp (s : State) (d : Nat) (o : Option Nat) : Int :=
  match o with | none => sgn 16 (rf s (pgThermal d) Off.TH_DIE_TEMP 0 16) | some p => headTemp s d p

/-- Make a record of the thermal log; its sequence number is consumed whether or not it is written. -/
def thRecord (s : State) (d type which : Nat) (isDie : Bool) (bits : Nat) (temp : Int) (w2 w3 : Word) : State :=
  let seq := (die s d).thermSeq
  let s1 := setDie s d { die s d with thermSeq := (seq + 1) % 4096 }
  chuteRecord s1 d 20
    [word (type * 2 ^ 20 + which % 16 * 2 ^ 16 + b2n isDie * 2 ^ 15 + seq), word (bits * 2 ^ 16 + uns 16 temp), w2, w3,
      lo24 (now s d), hi24 (now s d)]

/-- A record about a scope. -/
def scopeRecord (s : State) (d type : Nat) (o : Option Nat) (bits : Nat) : State :=
  thRecord s d type (o.getD 0) o.isNone bits (scopeTemp s d o) (word (scope s d o).w0) (word (scopeWork s d o))

/-! Head heater (R194). -/

/-- HEATER_UPDATE: the loop runs every 10 ms (R194); its duty counts from the next PWM period on. -/
def execHeaterUpdate (d p : Nat) (s : State) : Host.Outcome State Fault Refusal :=
  ok (if d < s.part.dies ∧ p < nPorts s ∧ awake s d then
    let s0 := match (port s d p).htrAt with | none => s | some c => waitClock s (c + 2500000)
    let s1 := htrFollow (setPort s0 d p { port s0 d p with htrAt := some s0.clock }) d p
    if htrReason s1 d p = 0 then
      let q := pgHp d p
      let maxd : Int := (rf s1 q Off.HTR_LIMIT 14 10 : Nat)
      let e := sgn 16 (rf s1 q Off.HTR_SET 0 16) - headTemp s1 d p
      let x := port s1 d p
      let i := clampI 0 maxd (x.integ + (rf s1 q Off.HTR_GAIN 0 12 : Int) * e / 256)
      let u := clampI 0 maxd ((rf s1 q Off.HTR_GAIN 12 12 : Int) * e / 256 + i)
      setPort s1 d p { x with integ := i, htrNew := u.toNat }
    else s1
  else s)

/-! Thermal actions of contexts (R346). -/

/-- An enforced scope covers the context. -/
def covered (s : State) (d k : Nat) : Bool :=
  decide ((scope s d none).stage = 3) || (bound s d k && decide ((scope s d (some (cPort s d k))).stage = 3))

/-- A context applies its action once (R142, R346). -/
def thermAct (s : State) (d k : Nat) : State :=
  let x := ctx s d k
  let act := af s d k 52 0 3
  if x.st = .idle ∨ x.throttled ∨ act = 0 then s
  else
    let s1 := ctxEvt (setCtx s d k { x with throttled := true, degraded := x.degraded || decide (act = 3) }) d k 15
    if act = 4 ∧ x.st ≠ .fenced then ctxRecord (ctxFence s1 d k 8) d k 8 true else s1

/-- The actions of the contexts no enforced scope covers any more end (R347). -/
def thermUnact (s : State) (d : Nat) : State :=
  each (List.range (nCtx s)) s fun s k =>
    if (ctx s d k).throttled && !covered s d k then setCtx s d k { ctx s d k with throttled := false } else s

/-- A context that arms while one of its scopes is enforced takes the action (R346). -/
def thermArm (s : State) (d k : Nat) : State := if covered s d k then thermAct s d k else s

/-! Warnings (R342, R345). -/

/-- The threshold of a scope. -/
def scopeLimit (s : State) (d : Nat) (o : Option Nat) : Int :=
  match o with
  | none => sgn 16 (rf s (pgThermal d) Off.TH_DIE_WARN 0 16)
  | some p => sgn 16 (rf s (pgThermal d) (thReg Off.TH_HEAD_WARN p) 0 16)

/-- The temperature of a scope is valid. -/
def scopeValid (s : State) (d : Nat) (o : Option Nat) : Bool :=
  match o with
  | none => (List.range 11).any fun i => rb s (pgThermal d) (Off.TH_ISL + 4 * i) 16
  | some p => headValid s d p

/-- The scope's condition for a warning holds. -/
def scopeHot (s : State) (d : Nat) (o : Option Nat) : Bool :=
  (scopeValid s d o && decide (scopeLimit s d o ≤ scopeTemp s d o)) || (match o with | none => false | some p => headFlag s d p)

/-- The scope's condition for clearing holds. -/
def scopeCool (s : State) (d : Nat) (o : Option Nat) : Bool :=
  scopeValid s d o && decide (scopeTemp s d o < scopeLimit s d o - 64 * (rf s (pgThermal d) Off.TH_CFG 4 4 : Nat))
    && (match o with | none => true | some p => !headFlag s d p)

/-- Grace time in ticks. -/
def graceTicks (s : State) (d : Nat) : Nat := max 1 (rf s (pgThermal d) Off.TH_CFG 16 8) * 2500000

/-- A scope becomes warned (R343, R345). -/
def warn (s : State) (d : Nat) (o : Option Nat) : State :=
  let p := pgThermal d
  let w := scopeWork s d o
  let s1 := setScope s d o { warned := true, stage := 1, w0 := w, graceAt := some (s.clock + graceTicks s d) }
  let s2 := match o with
    | none => raise (wr s1 p Off.TH_WORK_REF (word w)) p 0
    | some q => htrFollow (raise (wr s1 p (thReg Off.TH_HEAD_REF q) (word w)) p (6 + q)) d q
  scopeRecord (count s2 p Off.TH_WARN_CNT) d 1 o 0

/-- A 10 ms update judges a scope (R342). A fenced THERMAL page warns and enforces nothing (R355). -/
def scopeUpdate (s : State) (d : Nat) (o : Option Nat) : State :=
  let x := scope s d o
  if !running s (pgThermal d) then s
  else if !x.warned then (if scopeHot s d o then warn s d o else s)
  else if scopeCool s d o then setScope s d o { x with belowAt := some (x.belowAt.getD s.clock) }
  else setScope s d o { x with belowAt := none }

/-- A sensor or thermistor is found not valid (R340, R341, R350). -/
def sensorFault (s : State) (d which : Nat) (isDie : Bool) (t : Int) : State :=
  let o := if isDie then none else some which
  thRecord (raise s (pgThermal d) 4) d 5 which isDie 0 t (word (scope s d o).w0) (word (scopeWork s d o))

/-- One island sensor's reading (R340). -/
def islReading (s : State) (d i : Nat) (t : Int) : State :=
  let p := pgThermal d
  let x := therm s d
  if t < -3840 ∨ 9600 < t then
    let s1 := wb s p (Off.TH_ISL + 4 * i) 16 false
    if x.islBad.contains i then s1 else sensorFault (setTherm s1 d { x with islBad := x.islBad ++ [i] }) d i true t
  else setTherm (wr s p (Off.TH_ISL + 4 * i) (word (2 ^ 16 + uns 16 t))) d { x with islBad := x.islBad.erase i }

/-- The highest valid island reading and its island (R340). -/
def dieTemp (s : State) (d : Nat) : State :=
  let p := pgThermal d
  let best := (List.range 11).foldl (fun (b : Option Nat) i =>
    if !rb s p (Off.TH_ISL + 4 * i) 16 then b
    else match b with
      | none => some i
      | some j => if islTemp s d j < islTemp s d i then some i else some j) none
  match best with
  | none => s
  | some i => wr s p Off.TH_DIE_TEMP (word (i * 2 ^ 16 + uns 16 (islTemp s d i)))

/-- A port's filtered temperature is published every 10 ms (R341). -/
def publishHead (s : State) (d p : Nat) : State :=
  let h := Tbl.get (therm s d).heads p {}
  if !h.good || decide (pstate s (pgHp d p) = stOff) then s
  else
    let r := thReg Off.TH_HEAD p
    let s1 := wb (wf s (pgThermal d) r 0 16 (uns 16 h.y)) (pgThermal d) r 21 true
    let s2 := wr s1 (pgHp d p) Off.WF_TEMP (word (uns 16 h.y))
    setPort s2 d p { port s2 d p with tempSeen := true }

/-- The day's temperature statistics (R354). -/
def lampTemp (s : State) (d : Nat) : State :=
  let t := scopeTemp s d none
  let x := lamp s d
  setLamp s d { x with hottest := some (max t (x.hottest.getD t)), sum := x.sum + t, n := x.n + 1 }

/-- The 10 ms update of a die: island readings in 1/64 °C and the power drawn from VIN by the die in
10 mW, as an average over the 100 ms before (R340 to R343). -/
def tempUpdate (s : State) (d : Nat) (isl : List Int) (power : Nat) : State :=
  let s1 := setTherm s d { therm s d with updAt := some s.clock }
  let s2 := dieTemp (each ((isl.take 11).zipIdx) s1 fun s e => islReading s d e.2 e.1) d
  let s3 := wr s2 (pgThermal d) Off.TH_WORK_NOW (word (min power 0xFFFFFF))
  let s4 := each (List.range (nPorts s)) s3 fun s p => wr (publishHead s d p) (pgThermal d) (thReg Off.TH_HEAD_WORK p) (word (portWork s d p))
  let s5 := scopeUpdate (thStat s4 d) d none
  let s6 := each (List.range (nPorts s)) s5 fun s p => htrFollow (scopeUpdate s d (some p)) d p
  lampTemp (asTempUpdate s6 d) d

/-- TEMP_UPDATE: every 10 ms, in every mode but DORMANT and STANDBY (R340). -/
def execTempUpdate (d : Nat) (isl : List Int) (power : Nat) (s : State) : Host.Outcome State Fault Refusal :=
  ok (if d < s.part.dies ∧ 2 ≤ modeOf s d then
    let s1 := match (therm s d).updAt with | none => s | some c => waitClock s (c + 2500000)
    tempUpdate s1 d isl power
  else s)

/-! Head thermistors (R341). -/

/-- Natural logarithm of `a / b`, scaled by 2^64. -/
def lnRat (a b : Nat) : Int := if a < b then -lnFix b a else lnFix a b

/-- The β model: temperature in 1/64 °C of a resistance in ohms (R341); where the model gives no number of the register's
format, a free value. -/
def betaTemp (s : State) (d p ohm : Nat) : Int × State :=
  let r25 := rdN s (pgThermal d) (thReg Off.TH_HEAD_R25 p)
  let beta := rdN s (pgThermal d) (thReg Off.TH_HEAD_BETA p)
  let free := (sgn 16 (freeBelow s (2 ^ 16)), nextFree s)
  if r25 = 0 ∨ beta = 0 ∨ ohm = 0 then free
  else
    let l := lnRat ohm r25
    let dn := 20 * (beta : Int) * 2 ^ 64 + 5963 * l
    if dn ≤ 0 then free
    else
      let t := openRound s (5 * 64 * 5963 * (beta : Int) * 2 ^ 64 - 87408 * dn) (5 * dn)
      if -32768 ≤ t ∧ t ≤ 32767 then (t, nextFree s) else free

/-- One reading of a head thermistor. -/
def thermistor (s : State) (d p ohm : Nat) : State :=
  let r := thReg Off.TH_HEAD p
  let q := pgThermal d
  let h := Tbl.get (therm s d).heads p {}
  let put := fun (s : State) (h : HeadTh) => setTherm s d { therm s d with heads := Tbl.put (therm s d).heads p h }
  if 1000000 < ohm ∨ ohm < 100 then
    let s1 := wb (wf (put s { h with good := false }) q r 18 2 (if ohm < 100 then 2 else 1)) q r 21 false
    let s2 := wb s1 (pgHp d p) Off.WF_TEMP 16 true
    let first := h.good || decide (rf s q r 18 2 = 0)
    htrFollow (whenDo first s2 fun s => sensorFault s d p false h.y) d p
  else
    let (t, s1) := betaTemp s d p ohm
    wf (put s1 { y := if h.good then h.y + (t - h.y) / 16 else t, good := true }) q r 18 2 0

/-- THERMISTOR_SAMPLE: every 1 ms the port measures its head thermistor, in ohms (R341). -/
def execThermistorSample (d p ohm : Nat) (s : State) : Host.Outcome State Fault Refusal :=
  ok (if d < s.part.dies ∧ p < nPorts s ∧ awake s d ∧ pstate s (pgHp d p) ≠ stOff then thermistor s d p ohm else s)

/-- A port that enters OFF has no valid head temperature (R199, R341). -/
def thermOff (s : State) (d p : Nat) : State :=
  let s1 := setTherm s d { therm s d with heads := Tbl.put (therm s d).heads p {} }
  htrFollow (wb (wb s1 (pgThermal d) (thReg Off.TH_HEAD p) 21 false) (pgHp d p) Off.WF_TEMP 16 true) d p

/-! Enforcement and clearing (R345, R347, R348). -/

/-- The THROTTLE notice of a scope (R367). -/
def throttleNote (s : State) (d : Nat) (o : Option Nat) (on : Bool) : State :=
  notice s d 3 0x85 [word (o.getD 0 + b2n o.isNone * 2 ^ 4 + b2n on * 2 ^ 5)]

/-- Context actions for a scope (R345, R346, R348). -/
def enforceCtxs (s : State) (d : Nat) (o : Option Nat) (bits : Nat) : State :=
  let s1 := setScope s d o { scope s d o with stage := 3, graceAt := none }
  let s2 := each ((List.range (nCtx s)).filter fun k =>
    match o with | none => true | some p => bound s d k && decide (cPort s d k = p)) s1 fun s k => thermAct s d k
  let s3 := raise (count s2 (pgThermal d) Off.TH_ENF_CNT) (pgThermal d) 1
  throttleNote (scopeRecord s3 d 2 o (bits + 2)) d o true

/-- Divisor in force for the die's echo coverage: 0 when sensing is off whatever the port (R205, R345). -/
def echoEff (s : State) (d : Nat) : Nat :=
  if !is16E s then 0 else ((List.range (nPorts s)).map fun p => effOf s d p).foldl max 0

/-- An echo step (R345): `bitNo` of ECHO_DIV's thermal fields is set and the grace timer restarts. -/
def echoStep (s : State) (d : Nat) (off : Bool) : State :=
  let p := pgEcho d
  let s1 := if off then wb s p Off.ECHO_DIV 7 true else wf s p Off.ECHO_DIV 4 2 1
  let s2 := setScope s1 d none { scope s1 d none with stage := 2, graceAt := some (s.clock + graceTicks s d) }
  throttleNote (scopeRecord (raise s2 (pgThermal d) 1) d 2 none (if off then 4 else 1)) d none true

/-- A grace timer expires (R345). -/
def graceExpiry (s : State) (d : Nat) (o : Option Nat) : State :=
  let x := scope s d o
  if workFallen s d o then setScope s d o { x with graceAt := none }
  else match o with
    | some _ => enforceCtxs s d o 0
    | none =>
      if echoEff s d = 0 then enforceCtxs s d none 0
      else echoStep s d (decide (rf s (pgEcho d) Off.ECHO_DIV 4 2 = 1))

/-- Firmware runs on the die, unless neither image has been verified (R401). -/
def fwRuns (s : State) (d : Nat) : Bool := !(die s d).boot.noFw

/-- GRACE_EXPIRY: the grace timer of a scope has expired and firmware compares work (R345). -/
def execGraceExpiry (d : Nat) (o : Option Nat) (s : State) : Host.Outcome State Fault Refusal :=
  ok (match (if decide (d < s.part.dies) && running s (pgThermal d) && fwRuns s d && awake s d then (scope s d o).graceAt else none) with
    | none => s
    | some c => graceExpiry (waitClock s c) d o)

/-- A scope clears (R342, R347). -/
def scopeClear (s : State) (d : Nat) (o : Option Nat) : State :=
  let enf := decide (2 ≤ (scope s d o).stage)
  let s0 := whenDo enf s fun s => throttleNote (raise (scopeRecord s d 3 o 0) (pgThermal d) 2) d o false
  let s1 := thermUnact (setScope s0 d o { w0 := (scope s d o).w0 }) d
  match o with
  | none => whenDo (is16E s) s1 fun s => wb (wf s (pgEcho d) Off.ECHO_DIV 4 2 0) (pgEcho d) Off.ECHO_DIV 7 false
  | some p => htrFollow s1 d p

/-- WARN_CLEAR: the condition of a warned scope has stayed below for the clear time (R342, R347). -/
def execWarnClear (d : Nat) (o : Option Nat) (s : State) : Host.Outcome State Fault Refusal :=
  ok (match (if decide (d < s.part.dies) && running s (pgThermal d) && (scope s d o).warned then (scope s d o).belowAt else none) with
    | none => s
    | some c => scopeClear (waitClock s (c + max 1 (rf s (pgThermal d) Off.TH_CFG 0 4) * 25000000)) d o)

end Sys2Proof.Machine
end

