-- ==== Sys2Proof/Machine/Lamp.lean ====
section
/-!
DEFINITION. Ageing monitors: measurement, re-planning, calibration intervals and the daily history (R351 to R355).
-/
namespace Sys2Proof.Machine

def island (s : State) (d i : Nat) : IslandSt := Tbl.get (lamp s d).isl i {}
def setIsland (s : State) (d i : Nat) (x : IslandSt) : State :=
  setLamp s d { lamp s d with isl := Tbl.put (lamp s d).isl i x }

/-- Islands that are not held in reset (R14, R15, R340). -/
def islandUp (s : State) (i : Nat) : Bool :=
  decide (i < 11) && !(decide (i = 3 ∨ i = 4) && decide (s.part.tier = .t08)) && !(decide (i = 5) && !is16E s)

/-- The remaining margin in ppm (R351). -/
def margin (x : IslandSt) : Int := 100 * (x.m0 : Int) + 10 * (x.vtrim : Int) * x.kv - x.drift

/-- `LAMP_WORST`: the measured island with the lowest margin (R351). -/
def worstIsland (s : State) (d : Nat) : Nat :=
  ((List.range 11).filter (islandUp s)).foldl
    (fun b i => if margin (island s d i) < margin (island s d b) then i else b) 0

/-- `LAMP_WORST` follows the margins. -/
def lampWorst (s : State) (d : Nat) : State :=
  let i := worstIsland s d
  wr s (pgLamp d) Off.LAMP_WORST (word (i * 2 ^ 20 + uns 20 (satI 20 (margin (island s d i)))))

/-- Testing is possible: the page runs and the mode is IDLE to HUSHED (R351). -/
def lampOn (s : State) (d : Nat) : Bool := running s (pgLamp d) && awake s d

/-- A measurement starts (R351). -/
def lampStart (s : State) (d : Nat) : State :=
  if lampOn s d && decide ((lamp s d).since = none) then setLamp s d { lamp s d with since := some s.clock } else s

/-- LAMP_MEASURE: at a seconds edge at which the counter is a multiple of 3,600 (R351). -/
def execLampMeasure (d : Nat) (s : State) : Host.Outcome State Fault Refusal :=
  ok (if d < s.part.dies ∧ s.pkg.seconds % 3600 = 0 ∧ (lamp s d).hourDone ≠ s.pkg.seconds / 3600 then
    lampStart (setLamp s d { lamp s d with hourDone := s.pkg.seconds / 3600 }) d
  else s)

/-- LAMP_MEASURE_CMD (R351). -/
def execLampMeasureCmd (r : Req) (d : Nat) (s : State) : Host.Outcome State Fault Refusal :=
  ok (guardedWrite s r (pgLamp d) Off.LAMP_CMD (lampStart · d))

/-- The Assay channels of an island: its ports' for a jet island, the spares for the timebase island (R352). -/
def islandChans (s : State) (i : Nat) : List Nat :=
  (asAll s).filter fun c => if i = 0 then decide (asPos c = 16) else decide (1 ≤ i) && decide (i ≤ 4) && decide (asPos c / 4 = i - 1) && decide (asPos c ≠ 16)

/-- AGEING runs of an island's channels are queued (R325, R352). -/
def ageQueue (s : State) (d i : Nat) : State :=
  if rb s (pgAssay d) Off.AS_CFG 1 then
    each (islandChans s i) (setIsland s d i { island s d i with lastAge := s.pkg.seconds }) fun s c => asQueue s d c 2
  else s

/-- Firmware re-plans an island (R352). -/
def replan (s : State) (d i : Nat) : State :=
  let p := pgLamp d
  let x := island s d i
  let s1 := if x.vtrim < 8 then s else raise s p 2
  let y := { x with
    vtrim := min (x.vtrim + 1) 8, guard := min (ceilDiv x.drift 2500) 15, calint := max (x.calint / 2) 24
    lastReplan := some s.pkg.seconds }
  let s2 := ageQueue (setIsland s1 d i y) d i
  let s3 := setLamp s2 d { lamp s2 d with replans := (lamp s2 d).replans + 1 }
  let s4 := thRecord s3 d 6 i true (y.guard * 16 + y.vtrim) (islTemp s3 d i) (wordI (margin x)) (word x.drift)
  notice (raise (count s4 p Off.LAMP_REPLANS) p 1) d 2 0x83
    [word (i + y.vtrim * 2 ^ 4 + y.guard * 2 ^ 8), wordI (margin y)]

/-- A re-plan is due: the page runs, it is allowed, the margin is below the threshold, and none in the last 24 hours
(R352, R355). -/
def replanDue (s : State) (d i : Nat) : Bool :=
  let x := island s d i
  running s (pgLamp d) && rb s (pgLamp d) Off.LAMP_CFG 16 && fwRuns s d && decide (margin x < (rf s (pgLamp d) Off.LAMP_CFG 0 16 : Nat))
    && (match x.lastReplan with | none => true | some t => decide (t + 86400 ≤ s.pkg.seconds))

/-- One island's counts (R351, R352): D is truncated and at least 0; without stressed counts the manual states no
drift, and it is a free value. -/
def lampIsland (s : State) (d i ns np : Nat) : State :=
  let (dr, s0) := if ns = 0 then (freeBelow s (2 ^ 24), nextFree s) else ((np - ns) * 1000000 / ns % 2 ^ 24, s)
  let s1 := setIsland s0 d i { island s0 d i with drift := dr }
  let s2 := if replanDue s1 d i then replan s1 d i else s1
  whenDo (decide (margin (island s2 d i) < 0)) s2 (raise · (pgLamp d) 3)

/-- MEASURED: the counts of the stressed and the protected oscillator of each island, after 2^20 ticks (R351). -/
def execMeasured (d : Nat) (cnt : List (Nat × Nat)) (s : State) : Host.Outcome State Fault Refusal :=
  ok (match (if d < s.part.dies then (lamp s d).since else none) with
    | none => s
    | some c =>
      let s1 := waitClock s (c + 2 ^ 20)
      let s2 := raise (setLamp s1 d { lamp s1 d with since := none }) (pgLamp d) 0
      lampWorst (each ((cnt.take 11).zipIdx.filter fun e => islandUp s e.2) s2 fun s e => lampIsland s d e.2 e.1.1 e.1.2) d)

/-- CALINT_EXPIRY: CALINT hours after the island's last AGEING run its channels are queued again (R352). -/
def execCalintExpiry (d i : Nat) (s : State) : Host.Outcome State Fault Refusal :=
  ok (if d < s.part.dies ∧ i < 5 ∧ fwRuns s d ∧ awake s d ∧ (island s d i).lastAge + (island s d i).calint * 3600 ≤ s.pkg.seconds then ageQueue s d i else s)

/-! Daily history (R353, R354). -/

/-- A record of the ring, if its CRC is right. -/
def histRec (s : State) (d slot : Nat) : Option (List Word) :=
  let ws := (List.range 8).map fun i => retRaw s d (2392 + 8 * slot + i)
  if ws.getD 7 0#24 = crcWords (ws.take 7) then some ws else none

/-- The newest valid records, newest first, up to `n`. -/
def histNewest (s : State) (d n : Nat) : List (List Word) :=
  let next := (retRaw s d 2385).toNat
  let k := min (retRaw s d 2386).toNat 127
  ((List.range k).filterMap fun i => histRec s d ((next + 127 * 2 - 1 - i) % 127)).take n

/-- `LAMP_TTL` by least squares over the newest records, up to 30 (R353). -/
def lampTtl (s : State) (d : Nat) : Nat :=
  let l := (histNewest s d 30).map fun ws => (((ws.getD 0 0#24).toNat : Int), sgn 20 (fld (ws.getD 1 0#24) 0 20))
  let n : Int := l.length
  let sx := (l.map Prod.fst).sum
  let sy := (l.map Prod.snd).sum
  let num := n * (l.map fun e => e.1 * e.2).sum - sx * sy
  let den := n * (l.map fun e => e.1 * e.1).sum - sx * sx
  let worst := (l.headD (0, 0)).2
  if l.length < 7 ∨ den ≤ 0 ∨ 0 ≤ num then 65535
  else if worst ≤ 0 then 0
  else min (worst * den / -num).toNat 65534

/-- Write the day's record and advance the header (R354). -/
def histWrite (s : State) (d : Nat) : State :=
  let x := lamp s d
  let w := worstIsland s d
  let mean := if x.n = 0 then 0 else openRound s x.sum x.n
  let hours := openRound (nextFree s) x.firing 3600
  let trim (l : List Nat) : Nat := (l.zipIdx.map fun e => (island s d e.1).vtrim * 16 ^ e.2).sum
  let ws := [word (s.pkg.seconds / 86400), word (w * 2 ^ 20 + uns 20 (satI 20 (margin (island s d w)))),
    word (uns 16 (x.hottest.getD 0)), word (uns 16 mean), word (trim (List.range 6)), word (trim ((List.range 5).map (· + 6))),
    word (min x.replans 255 * 2 ^ 8 + min hours.toNat 31)]
  let slot := (retRaw s d 2385).toNat % 127
  let s1 := retWrites (nextFree (nextFree s)) d (2392 + 8 * slot) (ws ++ [crcWords ws])
  let s2 := retWrites s1 d 2384 [word 1, word ((slot + 1) % 127), word (min ((retRaw s d 2386).toNat + 1) 127)]
  let s3 := setLamp s2 d { lamp s2 d with
    dayDone := s.pkg.seconds / 86400, hottest := none, sum := 0, n := 0, replans := 0, firing := 0 }
  raise (wr s3 (pgLamp d) Off.LAMP_TTL (word (lampTtl s3 d))) (pgLamp d) 4

/-- HIST_WRITTEN: at the daily seconds edge firmware writes a record (R354). -/
def execHistWritten (d : Nat) (s : State) : Host.Outcome State Fault Refusal :=
  ok (if decide (d < s.part.dies) && fwRuns s d && awake s d && decide (s.pkg.seconds % 86400 = 0)
      && decide ((lamp s d).dayDone ≠ s.pkg.seconds / 86400) then histWrite s d else s)

/-- HIST_CLEAR empties the history (R354). -/
def histClear (d : Nat) (s : State) : State :=
  let s1 := retWrites s d 2385 [0#24, 0#24]
  wr s1 (pgLamp d) Off.LAMP_TTL (word (lampTtl s1 d))

/-- HIST_CLEAR (R354). -/
def execHistClear (r : Req) (d : Nat) (s : State) : Host.Outcome State Fault Refusal :=
  ok (guardedWrite s r (pgLamp d) Off.LAMP_CMD (histClear d))

/-- A seconds edge counts towards the day's hours in firing modes (R354). -/
def lampSecond (s : State) (d : Nat) : State :=
  if 3 ≤ modeOf s d then setLamp s d { lamp s d with firing := (lamp s d).firing + 1 } else s

end Sys2Proof.Machine
end

