-- ==== Sys2Proof/Machine/Route.lean ====
section
/-!
DEFINITION. Routes of the Burim bridge (R21, R22): which links carry traffic, which dies reach each other, the time
source of a die (R69), and `BU_ROUTE`.
-/
namespace Sys2Proof.Machine

/-- One side of the link from die `a` to die `b` carries traffic: UP, or RETRAINING, where it waits (R432). -/
def sideAlive (s : State) (a b : Nat) : Bool :=
  match burimPort s.part.dies a b with
  | none => false
  | some i => decide (burimState s a i = 2) || decide (burimState s a i = 3)

/-- The link between two neighbours carries traffic. -/
def linkAlive (s : State) (a b : Nat) : Bool := sideAlive s a b && sideAlive s b a

/-- The next die in a direction: up or down the ring. -/
def ringStep (n : Nat) (up : Bool) (d : Nat) : Nat := if up then (d + 1) % n else (d + n - 1) % n

/-- Hops to die `e` in a direction, if every link on the way carries traffic. -/
def wayHops (s : State) (up : Bool) (e : Nat) : Nat → Nat → Option Nat
  | 0, d => if d = e then some 0 else none
  | f + 1, d =>
    if d = e then some 0
    else
      let x := ringStep s.part.dies up d
      if linkAlive s d x then (wayHops s up e f x).map (· + 1) else none

/-- Hops on each way round. -/
def waysTo (s : State) (d e : Nat) : Option Nat × Option Nat :=
  (wayHops s true e s.part.dies d, wayHops s false e s.part.dies d)

/-- Die `e` is reachable from die `d` (R22). -/
def reaches (s : State) (d e : Nat) : Bool := let w := waysTo s d e; w.1.isSome || w.2.isSome

/-- Every link from die `d` to die 0 in a direction is UP. -/
def upWay (s : State) (up : Bool) : Nat → Nat → Bool
  | 0, d => decide (d = 0)
  | f + 1, d =>
    decide (d = 0) || match burimPort s.part.dies d (ringStep s.part.dies up d) with
      | none => false
      | some i => decide (burimState s d i = 2) && upWay s up f (ringStep s.part.dies up d)

/-- A message from die `d` reaches die 0 now: no link on one of its ways retrains or is DOWN (R22, R432). -/
def crossesNow (s : State) (d : Nat) : Bool := upWay s true s.part.dies d || upWay s false s.part.dies d

/-- Hops of the route between two dies (R22); without one, the shorter way round. -/
def hopsBetween (s : State) (d e : Nat) : Nat :=
  let n := s.part.dies
  match waysTo s d e with
  | (some a, some b) => min a b
  | (some a, none) => a
  | (none, some b) => b
  | (none, none) => min ((e + n - d) % n) ((d + n - e) % n)

/-- The port on which die `d` sends traffic for die `e` (R22): the shorter way, or the only one; `turn` is port 1's turn where
both are equally long. -/
def routePort (s : State) (d e : Nat) (turn : Bool) : Option Nat :=
  if s.part.dies = 2 then if reaches s d e then some d else none
  else match waysTo s d e with
  | (some a, some b) => some (if a < b then 0 else if b < a then 1 else b2n turn)
  | (some _, none) => some 0
  | (none, some _) => some 1
  | (none, none) => none

/-- Both ways to a die are equally long: the die opposite (R22). -/
def opposite (s : State) (d e : Nat) : Bool :=
  decide (2 < s.part.dies) && match waysTo s d e with | (some a, some b) => decide (a = b) | _ => false

/-- Traffic to die `e` leaves on port 1 (R22): in a two-die part, where only that port is bonded; else where the way
down is the shorter or the only one. -/
def viaPort1 (s : State) (d e : Nat) : Bool :=
  if s.part.dies = 2 then decide (d = 1) && reaches s d e
  else match waysTo s d e with
  | (some a, some b) => decide (b < a)
  | (none, some _) => true
  | _ => false

/-- The value of `BU_ROUTE` of a die. -/
def routeWord (s : State) (d : Nat) : Word :=
  let others := (dieList s).filter fun e => decide (e ≠ d)
  word (((others.filter fun e => reaches s d e).map fun e => 2 ^ (8 + e)).sum
    + ((others.filter fun e => viaPort1 s d e).map fun e => 2 ^ e).sum)

/-- `BU_ROUTE` of every die follows the links (R435). -/
def routesFollow (s : State) : State :=
  each (dieList s) s fun s d =>
    if rd s (pgBurim d) Off.BU_ROUTE = routeWord s d then s
    else raise (wr s (pgBurim d) Off.BU_ROUTE (routeWord s d)) (pgBurim d) 6

/-- The time source of a die (R69): the neighbour on the shorter path to die 0; the lower-numbered one for the die
opposite. -/
def timeSource (n d : Nat) : Nat := if 2 * d ≤ n then d - 1 else (d + 1) % n

/-- `TB_STAT.SYNC_SRC` code of a port: 0b01 port 0, 0b10 port 1 (R80). -/
def syncCode (n d e : Nat) : Nat := match burimPort n d e with | some i => i + 1 | none => 3

end Sys2Proof.Machine
end

