-- ==== Sys2Proof/Machine/Fence.lean ====
section
/-!
DEFINITION. Fences of pages, contexts and dies: safe states, consequences and records (R406, R407, R410 to R412), and
the failures of training and retraining (R234, R235).
-/
namespace Sys2Proof.Machine

/-- The link of a page in a fault record (R412). -/
def pageLink (p : Pg) (code : Nat) : Link := ⟨pgBlockType p, pgInst p, code, 0⟩

/-! Safe states (R407). -/

/-- The contexts that a fence of a page fences with it (R144, R406). -/
def fenceCtxs (s : State) (p : Pg) : List Nat :=
  match pgKind p with
  | .hp => (portCtxs s p.die (pgInst p)).filter fun k => !decide ((ctx s p.die k).st = .fenced) || (ctx s p.die k).rejoin
  | _ => []

/-- A cycle that has not fired starts no more (R198). -/
def deadCycle (c : Cycle) : Cycle :=
  if c.fired then c
  else { c with nul := true, noWave := true, members := c.members.map fun m => { m with nul := true } }

/-- The NULL frames of the cycles sent but not armed (R244). -/
def nullList (s : State) (d p : Nat) : List Frame :=
  ((port s d p).cycles.filter fun c => c.sent && !c.armed).map fun c =>
    { kind := 2, fg := c.fg, cseq := c.cseq, words := nullWords c.fg c.cseq, deadline := some (frameDeadline c) }

/-- NULL frames stand for every cycle not armed: frames still to be sent carry no data, and a NULL frame is queued for
each cycle sent (R244). -/
def nullFrames (s : State) (d p : Nat) : State :=
  let x := port s d p
  let dead := x.cycles.filter fun c => !c.armed
  let nul := fun (f : Frame) => if decide (f.kind = 1) && dead.any (fun c => ofCycle c f) then nullOf f else f
  let q := x.queue.map nul
  let more := (nullList s d p).filter fun n => !q.any fun f => decide (f.kind = 2) && decide (f.fg = n.fg) && decide (f.cseq = n.cseq)
  setPort s d p { x with queue := q ++ more, held := x.held.map nul, follow := x.follow.map nul, stopFrames := [] }

/-- The amplitude at the output of a port now: that of its last output sample, or the rest level. -/
def ampNow (s : State) (d : Nat) (x : PortSt) : Nat :=
  ((x.wfOut.filter fun e => decide (0 ≤ sgn 48 (uns 48 ((now s d : Int) - e.1)))).getLast?.map Prod.snd).getD x.rest

/-- The output of an abandoned waveform moves linearly to the rest level over 16 samples, with all flags 0 (R198). -/
def rampDown (s : State) (d p : Nat) (x : PortSt) : State :=
  let a := ampNow s d x
  let t := firstInstant (16 * (now s d + 1))
  let ana := decide (persOf s d p = 1)
  let vs := (List.range 16).map fun (k : Nat) =>
    (t + 5 * (k : Int), (nearestAt (s.free + k) (((a * (15 - k) + x.rest * (k + 1) : Nat) : Rat) / 16)).toNat)
  { s with
    free := s.free + 16
    out := s.out ++ (vs.map fun e => Out.sample d p (uns 48 e.1) (if ana then 0 else e.2) 0)
      ++ if ana then vs.map fun e => Out.dac d p (uns 48 e.1) (dacCode e.2) else [] }

/-- SENSE of a port returns to 0 at its next sample instant: windows in progress hold no later samples (R207). -/
def senseCut (s : State) (d p : Nat) : State :=
  let t := firstInstant (16 * (now s d + 1))
  let x := echo s d
  setEcho s d { x with meas := x.meas.map fun m =>
    if m.port = p then
      let w := adcInstant (16 * ((now s d : Int) + sgn 48 (uns 48 ((m.tick : Int) - now s d))))
      { m with len := min m.len (adcCount w t) }
    else m }

/-- Outputs of a fenced port: no cycle starts, waveforms and pulses in progress are cut (R198). -/
def hpCut (s : State) (d p : Nat) : State :=
  let x := port s d p
  let busy := x.play.filter fun c => !fle (c.t0 + c.dur) (nowFine s d)
  let s1 := setPort s d p { x with cycles := x.cycles.map deadCycle, play := [], wfOut := [] }
  if busy = [] then s1
  else
    let s2 := senseCut (emit s1 (.cut d p (now s d))) d p
    if persOf s d p = 2 then s2 else rampDown s2 d p x

/-- The safe state of an HP page (R198, R244), with the contexts bound to it (R144). -/
def hpSafe (s : State) (d p : Nat) (ks : List Nat) : State :=
  let s1 := hpCut (nullFrames (loadAbort s d p) d p) d p
  let s2 := each ks s1 fun s k => ctxFence s d k 9
  asPortFenced (htrFollow s2 d p) d p

/-- The safe state of an encoder channel (R110); lockouts it measures end (R112). -/
def encSafe (s : State) (d c : Nat) : State :=
  let s0 := pdUnlock s d c fun _ => true
  encLost (encInvalid (serDrop s0 d c) d c) d c

/-- The safe state of the PD page: an accepted edge on its way is dropped (R407). -/
def pdSafe (s : State) (d : Nat) : State :=
  { s with msgs := s.msgs.filter fun m => !(decide (m.die = d) && match m.kind with | .pdEdge _ _ _ _ => true | _ => false) }

/-- The safe state of an axis (R268): COAST by `SAFE` or by the reason, else HOLD. Commands that wait are still processed. -/
def axSafe (s : State) (d a : Nat) (reason : Nat) : State :=
  let coast := !rb s (pgAx d a) Off.AX_CFG 15 || decide (reason = 0x12) || decide (reason = 0x13)
  let moving := axMoving s d a
  let x := (axis s d a).freeze s.clock
  let y := if coast then
      { x with coast := true, ben := false, uA := 0, uB := 0, onA := 0, onB := 0, integA := 0, integB := 0 }
    else { x with coast := false }
  let s1 := setMstate (setAxis s d a { y with stopDue := false, ocCount := 0 }) d a msFenced
  let s2 := if moving || coast then setPosValid s1 d a false else s1
  axisLost s2 d a

/-- The safe state of the ECHO page: windows in progress are abandoned, and SENSE is sent as 0, in the waveforms that play and
in the cycles bound already (R224). -/
def echoSafe (s : State) (d : Nat) : State :=
  let s1 := emit (setEcho s d { echo s d with meas := [] }) (.senseOff d (now s d))
  each (List.range (nPorts s)) s1 fun s p =>
    setPort s d p { port s d p with cycles := (port s d p).cycles.map fun c => { c with sense := none } }

/-- The page is on its way back to RUNNING, the state in which it was fenced (R409). -/
def cameBack (s : State) (p : Pg) : Bool := decide ((fenceSt s p).before = stRunning)

/-- The safe state of a Hoist channel: data in flight and triggers are discarded, the reservation of a failed burst is
kept (R285, R288). -/
def hoistSafe (s : State) (d c : Nat) : State :=
  let s1 := hcUnsig (hcDrop s d c) d c
  let x := hoist s1 d c
  let s2 := setHoist s1 d c { x with wait := none, fcs := if cameBack s (pgHc d c) then x.cs else x.fcs }
  { s2 with trigs := s2.trigs.filter fun t => !decide (t = (d, c)) }

/-- The safe state of the LAMP page: measuring stops (R355). -/
def lampSafe (s : State) (d : Nat) : State := setLamp s d { lamp s d with since := none }

/-- The safe state of the THERMAL page: warnings and enforcement stop, and clear times do not run (R355). -/
def thermSafe (s : State) (d : Nat) : State :=
  let x := therm s d
  setTherm s d { x with
    die := { x.die with belowAt := none }, ports := x.ports.map fun e => (e.1, { e.2 with belowAt := none }) }

/-- The block of a page reaches its safe state (R407). -/
def pageSafe (s : State) (p : Pg) (reason : Nat) (ks : List Nat) : State :=
  let d := p.die
  let i := pgInst p
  match pgKind p with
  | .hp => hpSafe s d i ks
  | .enc => encSafe s d i
  | .pd => pdSafe s d
  | .ax => axSafe s d i reason
  | .seam => seamsUpdate s d
  | .echo => echoSafe s d
  | .assay => asSafe s d
  | .hoistCh => hoistSafe s d i
  | .lamp => lampSafe s d
  | .thermal => thermSafe s d
  | .debug => dbgClose s d
  | .tsync => stepDrop s
  | .inject => wf s p Off.IJ_STAT 0 2 (rf s p Off.IJ_STAT 0 1)
  | .chute => chuteFollow s d i
  | _ => s

/-- The state in which a fence finds the page: it acts before a write of `EN` of its tick (R409). -/
def stateBefore (s : State) (p : Pg) : Nat :=
  match (fenceSt s p).enAt with
  | some (c, st) => if c = s.clock then st else pstate s p
  | none => pstate s p

/-- The page becomes FENCED: header, FENCE page, and safe state, without a record (R406, R416). A page that cannot be
fenced, is absent, or is already fenced stays as it is. -/
def fenceQuiet (s : State) (p : Pg) (reason : Nat) (ks : List Nat) : State :=
  if !(pgKind p).fenceable || !present s p || fenced s p then s
  else
    let st := stateBefore s p
    let was := if st = stStarting ∧ cameBack s p then stRunning else st
    let s0 := if pgKind p = .enc then encSync s p.die (pgInst p) else s
    let s1 := setFenceSt s0 p { before := was, softReset := rb s p Off.PAGE_CTRL 2 }
    let s2 := wf (setPstate (wb s1 p Off.PAGE_CTRL 1 true) p stFenced) p Off.PAGE_STAT 8 8 reason
    let f := pgFence p.die
    let s3 := wr s2 f Off.FN_LAST (word (b2n p.sec * 2 ^ 23 + p.num * 2 ^ 8 + reason))
    raise (count (pageSafe s3 p reason ks) f Off.FN_CNT_FENCES) f 0

/-- The page takes a fence now. -/
def takesFence (s : State) (p : Pg) : Bool := (pgKind p).fenceable && present s p && !fenced s p

/-- A fault fences a page: its consequences and one record (R406, R411, R412). -/
def fencePage (s : State) (p : Pg) (reason : Nat) : State :=
  if takesFence s p then
    let ks := fenceCtxs s p
    logRecord (fenceQuiet s p reason ks) p.die p.die
      { cause := pageLink p reason, reason := reason, followed := ks.length }
  else s

/-- A page is fenced as the effect of a cause that is reported with it (R298, R311, R413). -/
def fencePageFor (s : State) (p : Pg) (reason : Nat) (cause : Link) : State :=
  if takesFence s p then
    let ks := fenceCtxs s p
    logRecord (fenceQuiet s p reason ks) p.die p.die
      { cause := cause, effect := some (pageLink p reason), reason := reason, followed := ks.length }
  else s

/-! Dies (R410, R411). -/

/-- Every page of a die that can be fenced. -/
def fenceablePages (s : State) (d : Nat) : List Pg :=
  ((List.range 0xA0).map (ns d) ++ (List.range 6).map (sp d)).filter fun p => (pgKind p).fenceable && present s p

/-- The contexts of a die that a die fence fences: those not yet fenced (R126, R144, R410). -/
def dieCtxs (s : State) (d : Nat) : List Nat :=
  (List.range (nCtx s)).filter fun k => !decide ((ctx s d k).st = .fenced) || (ctx s d k).rejoin

/-- Contexts and pages of a die are fenced with reason DIE, or WATCHDOG if the die fences itself (R410); the count is the
number that this fenced. -/
def fenceAll (s : State) (d reason : Nat) : State :=
  let ks := dieCtxs s d
  let ps := (fenceablePages s d).filter fun p => takesFence s p
  let s1 := each ks s fun s k => ctxFence s d k 0x0A
  let s2 := each ps s1 fun s p => fenceQuiet s p (if reason = 6 then 6 else 2) []
  setDie s2 d { die s2 d with dieCount := ks.length + ps.length }

/-- The record of a die fence or of its release, in die 0's log (R411). -/
def dieRecord (s : State) (d kind reason : Nat) : State :=
  logRecord s 0 d { kind := kind, fenced := decide (kind = 1), cause := ⟨0x06, 0, reason, d⟩, reason := 2,
                    followed := (die s d).dieCount }

/-- Seams with a side on another die follow the die's isolation (R165, R410). -/
def seamsAll (s : State) : State := each (dieList s) s fun s d => seamsUpdate s d

/-- Die 0 isolates a fenced die and writes the record of its fence (R410, R411). -/
def dieReport (s : State) (d reason : Nat) : State :=
  dieRecord (raise (seamsAll (wb s (pgFence 0) Off.FN_DIE_STAT (8 + d) true)) (pgFence 0) 3) d 1 reason

/-- Die `d` is fenced as a whole (R410): its contexts, its pages, its isolation, and the record in die 0's log, which waits
until die 0 learns of a fence that the die has made itself (R411). A TIME_PLL fence of die 0 does not isolate it, and its
record waits for the release. -/
def fenceDie (s : State) (d reason : Nat) : State :=
  if (die s d).dieReason ≠ 0 ∨ s.part.dies ≤ d then s
  else
    let s1 := fenceAll s d reason
    let own := decide (4 ≤ reason) && decide (reason ≤ 6)
    let tied := decide (d = 0) || (own && !crossesNow s1 d)
    let s2 := setDie s1 d { die s1 d with dieReason := reason, dieTied := tied }
    if tied then s2 else dieReport s2 d reason

/-- Die 0 learns of the fences that dies have made themselves: over the bridge, or as it finds the die lost (R411). -/
def diesLearn (s : State) : State :=
  each ((dieList s).filter fun d => decide (d ≠ 0) && (die s d).dieTied
      && (crossesNow s d || rb s (pgFence 0) Off.FN_DIE_STAT (16 + d))) s fun s d =>
    dieReport (setDie s d { die s d with dieTied := false }) d (die s d).dieReason

/-! Sypol training that fails (R234, R235, R413). -/

/-- The lowest rate code of a port (R234): 0.8 Gb/s on a thermal port, 1.6 Gb/s on a piezo port. -/
def rateFloor (s : State) (d p : Nat) : Nat := if persOf s d p = 2 then 0 else 1

/-- Training has failed for good: a first training ends in FAILED with code TRAIN; a retraining fences the port with
SYPOL_LOST, closing the port's open fault (R234, R235, R413). -/
def trainFailed (s : State) (d p : Nat) : State :=
  let x := port s d p
  if x.link = 4 then
    let s1 := setPort (linkFail s d p x.retrainCause) d p { port (linkFail s d p x.retrainCause) d p with fault := none }
    let s2 := abandonFrames s1 d p
    match x.fault with
    | some f => fencePageFor s2 (pgHp d p) 0x0A (giveUpLink p f)
    | none => fencePageFor s2 (pgHp d p) 0x0A ⟨0x11, p, 2, x.retrainCause⟩
  else linkFail s d p 5

/-- An attempt ends in step `n` (R234): without upstream lock after 20 µs, else after 100 µs. -/
def attemptEnd (s : State) (d p n : Nat) : State :=
  waitClock (trainSets s d p n) ((port s d p).tryAt + if n ≤ 1 then 5000 else 25000)

/-- TRAIN_ATTEMPT_TIMEOUT: an attempt at the present rate has failed in a step (1 to 3); after two the next lower rate is
tried (R234). -/
def execTrainAttemptTimeout (d : Nat) (e : AttemptEnd) (s : State) : Host.Outcome State Fault Refusal :=
  let p := e.port
  if d < s.part.dies ∧ p < nPorts s ∧ ((port s d p).link = 2 ∨ (port s d p).link = 4) then
    let s1 := attemptEnd s d p e.step
    let x := port s1 d p
    if x.attempts = 0 then ok (setPort s1 d p { x with attempts := 1, tryAt := s1.clock })
    else if rateFloor s1 d p < x.rate then ok (setPort s1 d p { x with attempts := 0, rate := x.rate - 1, tryAt := s1.clock })
    else ok (trainFailed s1 d p)
  else ok s

end Sys2Proof.Machine
end

