-- ==== Sys2Proof/Machine/Axis.lean ====
section
/-!
DEFINITION. Motion axes: current loop, stall detection, step inputs, planner, homing, switches and commands (R249 to
R270).
-/
namespace Sys2Proof.Machine

/-- The page is present: the axis exists (R247). -/
def axThere (s : State) (d a : Nat) : Bool := decide (a < 4) && present s (pgAx d a)

/-! Faults (R260). -/

/-- Set a fault bit and latch its event (R260). -/
def axFault (s : State) (d a bitNo evt : Nat) : State := raise (wb s (pgAx d a) Off.AX_FAULT bitNo true) (pgAx d a) evt

/-- A fault that stops by policy at the next profile tick, or fences if its choice in `AX_PLAN` says so (R260). -/
def axPolicy (s : State) (d a fenceBit reason : Nat) : State :=
  if rb s (pgAx d a) Off.AX_PLAN fenceBit then fencePage s (pgAx d a) reason
  else setAxis s d a { axis s d a with stopDue := true }

/-! Current loop (R249 to R251, R266). -/

/-- The current amplitude of R250, scaled by the enable ramp of R267, which also follows
STANDBY (R393). -/
def axAmp (s : State) (d a : Nat) : Nat :=
  let x := axis s d a
  let hold := rf s (pgAx d a) Off.AX_CUR 0 12
  if pstate s (pgAx d a) = stStarting ∨ s.clock - x.rampAt < 80000 then hold * min ((s.clock - x.rampAt) / 5000) 16 / 16
  else if x.lastChange s.clock = s.clock ∨ s.clock - x.lastChange s.clock ≤ rf s (pgAx d a) Off.AX_PLAN 8 8 * 250000
  then (if mstate s d a = msFenced then hold else rf s (pgAx d a) Off.AX_CUR 12 12)
  else hold

/-- One phase of the loop: the new integrator and drive (R249). -/
def loopPhase (kp ki : Nat) (iref i integ : Int) : Int × Int :=
  let e := iref - i
  let g := clampI (-4095) 4095 (integ + (ki : Int) * e / 256)
  (g, clampI (-4095) 4095 ((kp : Int) * e / 256 + g))

/-- Back-EMF of a phase scaled by 4,096,000, in units of 20 mV (R266). -/
def bemf (s : State) (d a : Nat) (u i prev : Int) : Int :=
  let vb := rf s (pgAx d a) Off.AX_SUPPLY 12 12
  let fs := rf s (pgAx d a) Off.AX_SUPPLY 0 12
  let r := rf s (pgAx d a) Off.AX_MOTOR 12 12
  let l := rf s (pgAx d a) Off.AX_MOTOR 0 12
  1000 * (vb : Int) * u - (r * fs : Nat) * i - 250 * (l * fs : Nat) * (i - prev)

/-- A STALL (R260, R266). -/
def axStall (s : State) (d a : Nat) : State :=
  axPolicy (axFault (count s (pgAx d a) Off.CNT_STALL) d a 0 8) d a 3 0x0E

/-- Stall detection at a loop tick with the commanded angle `theta`: the state, and whether STALL is raised (R266). -/
def stallDetect (s : State) (d a : Nat) (theta : Nat) (ia ib : Int) : Bool × State :=
  let p := pgAx d a
  let x := axis s d a
  let v := (axMotion s d a).2.1
  let vmin : Int := ((rdN s p Off.AX_STALL_VMIN * 2 ^ 31 : Nat) : Int)
  let off := decide (rdN s p Off.AX_STALL_VMIN = 0) || decide (rf s p Off.AX_SUPPLY 12 12 = 0) || decide (rf s p Off.AX_SUPPLY 0 12 = 0)
  if off ∨ v.natAbs < vmin then (false, setAxis s d a { x with stallCount := 0 })
  else
    let ea := bemf s d a x.uA ia x.iA
    let eb := bemf s d a x.uB ib x.iB
    let sg : Int := if v < 0 then -1 else 1
    let (thr, s1) := if ea = 0 ∧ eb = 0 then ((freeBelow s (2 ^ 20) : Nat), nextFree s) else (atanTurn ea eb, s)
    let diff := sgn 20 (uns 20 (((theta / 2 ^ 12 : Nat) : Int) - ((thr : Int) - sg * 2 ^ 18)))
    let delta := openRound s1 (sg * diff) 256
    let s2 := nextFree s1
    let df := x.deltaF + (delta - x.deltaF) / 8
    let m := Nat.sqrt ((ea * ea + eb * eb).toNat / 4096000 / 4096000)
    let mag := if m + b2n (freeBit s2) < 4096 then m + b2n (freeBit s2) else freeBelow s2 4096
    let s3 := wr (nextFree s2) p Off.AX_LOAD (word (uns 12 df * 2 ^ 12 + mag))
    let hit := decide (rf s p Off.AX_STALL_CFG 0 12 ≤ df.natAbs)
    let n := if hit then x.stallCount + 1 else 0
    let fire := decide (0 < n) && decide (max 1 (rf s p Off.AX_STALL_CFG 16 8) ≤ n)
    (fire, setAxis s3 d a { axis s3 d a with deltaF := df, stallCount := if fire then 0 else n })

/-- A loop tick with the sampled currents in 1/2,048 FS (R249, R250, R251, R266): the new drive, then OVERCURRENT and STALL
in the order of R254. With AX_a_BEN low the loop rests, and no tick counts towards an overcurrent. -/
def loopTick (s : State) (d a : Nat) (sa sb : Int) : State :=
  let p := pgAx d a
  let x := axis s d a
  if !x.ben then setAxis s d a { x with ocCount := 0 }
  else
    let ia := 2 * satI 12 sa
    let ib := 2 * satI 12 sb
    let pos := (x.motionAt (s.clock + 2500)).1
    let theta := axAngle (axMs s d a) pos
    let amp : Int := axAmp s d a
    let ra := openRound s (amp * cosTurn theta) (2 ^ 40)
    let s1 := nextFree s
    let rb' := openRound s1 (amp * sinTurn theta) (2 ^ 40)
    let s2 := nextFree s1
    let kp := rf s p Off.AX_LOOP 12 12
    let ki := rf s p Off.AX_LOOP 0 12
    let (ga, ua) := loopPhase kp ki ra ia x.integA
    let (gb, ub) := loopPhase kp ki rb' ib x.integB
    let (stall, s3) := stallDetect (wr s2 p Off.AX_IPH (word (uns 12 (ia / 2) * 2 ^ 12 + uns 12 (ib / 2)))) d a theta ia ib
    let x3 := axis s3 d a
    let lim : Nat := rf s p Off.AX_OC 0 12
    let oc := if lim < ia.natAbs ∨ lim < ib.natAbs then x.ocCount + 1 else 0
    let s4 := setAxis s3 d a
      { x3 with
        loopAt := some s.clock, integA := ga, integB := gb, uA := ua, uB := ub, iA := ia, iB := ib
        onA := nearest s3 (ua * 5000) 4096, onB := nearest (nextFree s3) (ub * 5000) 4096
        ocCount := if 2 ≤ oc then 0 else oc }
    let s5 := whenDo (decide (2 ≤ oc)) (nextFree (nextFree s4)) fun s => fencePage (axFault s d a 6 10) p 0x13
    whenDo stall s5 (axStall · d a)

/-- CURRENT_LOOP_TICK: at the next tick with t mod 5,000 = 0 the currents are sampled (R249). -/
def execCurrentLoopTick (d a : Nat) (ia ib : Int) (s : State) : Host.Outcome State Fault Refusal :=
  ok (if axThere s d a && awake s d then loopTick (waitClock s (nextAt s d 5000 (axis s d a).loopAt)) d a ia ib else s)

/-- BRIDGE_FAULT: AX_a_BFLT_N has been low for 250 ticks while AX_a_BEN is high (R251). -/
def execBridgeFault (d a : Nat) (s : State) : Host.Outcome State Fault Refusal :=
  ok (if axThere s d a && (axis s d a).ben then fencePage (axFault s d a 5 9) (pgAx d a) 0x12 else s)

/-! Step inputs (R252, R253). -/

/-- `SC` of R252. -/
def stepWorth (s : State) (d a : Nat) : Int :=
  2 ^ min (rf s (pgAx d a) Off.AX_CFG 8 4) (min (rf s (pgAx d a) Off.AX_CFG 0 4) 10)

/-- A counted step in direction `dir` with stamp `te` moves the input position, which wraps as x does; x follows by
interpolation and reaches y after the interval `gap` (R253). -/
def stepApply (s : State) (d a : Nat) (dir : Int) (te : Nat) : State :=
  let x := axis s d a
  let sc := stepWorth s d a
  let y := sgn 48 (uns 48 (x.y + dir * sc))
  let cur := (x.motionAt s.clock).1
  let gap := match x.stepPrev with | some (tp, _) => uns 48 ((te : Int) - (tp : Int)) | none => 0
  let turn := match x.stepPrev with | some (_, dp) => decide (dp ≠ dir) | none => true
  let far := sgn 104 (uns 104 (y * ustep - cur))
  let s1 := if dir < 0 then wb s (pgAx d a) Off.AX_STAT 17 true else wb s (pgAx d a) Off.AX_STAT 17 false
  if !rb s (pgAx d a) Off.AX_CFG 14 || turn || decide (2 ^ 22 < gap) || decide (gap = 0) then
    let seg := x.segment s.clock (y * ustep) 0 0
    setAxis s1 d a { seg with lastMove := s.clock, y := y, rate := 0, stepPrev := some (te, dir) }
  else
    let rate := far.tdiv (2 * gap)
    let onto := cur + far
    let from_ := if 2 * sc * ustep < far.natAbs then onto - dir * sc * ustep else cur
    let n := ceilDiv ((onto - from_).natAbs * gap.natAbs) far.natAbs
    let seg := x.segment s.clock from_ rate 0 n onto
    let s2 := setAxis s1 d a { seg with y := y, rate := rate, stepPrev := some (te, dir) }
    let cap : Int := axMs s d a * gap * ustep
    whenDo (decide (cap < far.natAbs * 10000)) s2 (raise · (pgAx d a) 11)

/-- STEP_INPUT: a rising edge of AX_a_STEP has been high for 8 samples; its stamp lies 9 ticks back (R252, R253). -/
def execStepInput (d a : Nat) (fwd : Bool) (s : State) : Host.Outcome State Fault Refusal :=
  ok (if axThere s d a && awake s d && stepIn s d a && running s (pgAx d a) then
    let te := uns 48 ((now s d : Int) - 9)
    let dir : Int := if fwd then 1 else -1
    let s1 := wr s (pgAx d a) Off.CNT_STEP_IN (rd s (pgAx d a) Off.CNT_STEP_IN + 1)
    if mstate s d a = msFollow then stepApply s1 d a dir te
    else setAxis s1 d a { axis s1 d a with stepPrev := some (te, dir) }
  else s)

/-! Planning (R255 to R258). -/

/-- `AX_TARGET` as a signed number. -/
def axTarget (s : State) (d a : Nat) : Int := sgn 48 (rd48 s (pgAx d a) Off.AX_TARGET_L)

/-- The axis brakes at deceleration code `dec` until rest; it rests within the profile period if its speed allows. -/
def brake (x : AxisSt) (clock : Nat) (dec : Nat) (onto : Option Int) : AxisSt :=
  let (p, v, _) := x.motionAt clock
  let a : Int := (dec * 256 : Nat)
  let sg : Int := if v < 0 then -1 else 1
  if v = 0 then x.segment clock p 0 0
  else if 0 < a ∧ (v.natAbs : Int) ≤ 256 * a then
    x.segment clock p v (-sg * a) (ceilDiv v.natAbs a.natAbs) (match onto with | some t => t | none => p + sg * (v * v / a))
  else x.segment clock p v (-sg * a)

/-- The axis changes its speed in direction `sg` towards the limit `vm`, not passing it within the period (R255). -/
def cruise (x : AxisSt) (clock : Nat) (sg vm : Int) (acc dec : Nat) : AxisSt :=
  let (p, v, _) := x.motionAt clock
  let sp := v * sg
  if sp < vm then x.segment clock p v (sg * min ((acc * 256 : Nat) : Int) ((vm - sp) / 256))
  else if vm < sp then x.segment clock p v (-sg * min ((dec * 256 : Nat) : Int) ((sp - vm) / 256))
  else x.segment clock p v 0

/-- Steering towards a target (R255): the axis, and whether it has come to rest there. -/
def steer (x0 : AxisSt) (clock : Nat) (target vm : Int) (acc dec : Nat) : AxisSt × Bool :=
  let (p, v, _) := x0.motionAt clock
  let dist := target * ustep - p
  let x := if v = 0 then { x0 with approach := false } else x0
  let sg : Int := if dist < 0 then -1 else 1
  if dist = 0 ∧ v = 0 then (x.segment clock p 0 0, true)
  else if v * sg < 0 ∨ dist = 0 then ({ brake x clock dec none with overshot := true }, false)
  else if v ≠ 0 ∧ (dist.natAbs : Int) * dec * 2 ^ 8 ≤ v * v + v.natAbs * 2 ^ 17 * dec then
    let lands := decide ((dist.natAbs : Int) * dec * 2 ^ 8 + 2 ^ 64 * dec ≥ v * v)
    ({ brake x clock dec (if lands then some (target * ustep) else none) with approach := true }, false)
  else if x.approach then (x.segment clock p v 0, false)
  else (cruise x clock sg vm acc dec, false)

/-- `AX_DEC` changed during an approach (R257). -/
def judgeDec (s : State) (d a : Nat) : State :=
  let x := axis s d a
  let new := rdN s (pgAx d a) Off.AX_DEC
  if new = x.decSeen then s
  else
    let (p, v, _) := axMotion s d a
    let dist := axTarget s d a * ustep - p
    let x1 := { x with decSeen := new }
    if !x.approach then setAxis s d a { x1 with dec := if x.deferred then x.dec else new }
    else if v * v ≤ (dist.natAbs : Int) * new * 2 ^ 8 ∨ rb s (pgAx d a) Off.AX_PLAN 1 then
      setAxis s d a { x1 with dec := new, deferred := false }
    else raise (setAxis s d a { x1 with deferred := true }) (pgAx d a) 2

/-- The planner in MOVING (R255 to R257). -/
def planMoving (s0 : State) (d a : Nat) : State :=
  let t := axTarget s0 d a
  let x0 := axis s0 d a
  let s := judgeDec (whenDo (decide (x0.tgt ≠ t)) s0 fun s => setAxis s d a { x0 with tgt := t, approach := false }) d a
  let p := pgAx d a
  let v := (axMotion s d a).2.1
  let x := if v = 0 then { axis s d a with deferred := false, dec := rdN s p Off.AX_DEC, decSeen := rdN s p Off.AX_DEC }
    else axis s d a
  let (x1, there) := steer x s.clock t (axVm s d a (rdN s p Off.AX_VMAX)) (rdN s p Off.AX_ACC) x.dec
  if there then raise (setMstate (setAxis s d a { x1 with overshot := false }) d a msRest) p 0
  else
    let back := decide (v = 0) && x.overshot
    whenDo back (setAxis s d a (if back then { x1 with overshot := false } else x1)) (raise · p 3)

/-- The planner in STOPPING: deceleration to HALTED (R259). -/
def planStopping (s : State) (d a : Nat) : State :=
  let p := pgAx d a
  let ds := rdN s p Off.AX_DEC_STOP
  let x := axis s d a
  let rest := decide ((axMotion s d a).2.1 = 0)
  let s1 := setAxis s d a (brake x s.clock (if ds = 0 then rdN s p Off.AX_DEC else ds) none)
  if rest then
    raise (setMstate (wr48 s1 p Off.AX_REMAIN_L (uns 48 (axTarget s d a - axPos s d a))) d a msHalted) p 1
  else s1

/-- A stop under HOLD_REMAINING begins (R259). -/
def axHold (s : State) (d a : Nat) : State :=
  if mstate s d a = msMoving ∨ mstate s d a = msHoming then setMstate s d a msStopping else s

/-- A cut: x freezes, v := 0 (R259). A homing run that software ends so keeps `POS_VALID` (R264). -/
def axCut (s : State) (d a : Nat) (soft : Bool) : State :=
  let x := axis s d a
  let s1 := setAxis s d a { x.freeze s.clock with rate := 0, approach := false, overshot := false }
  let s2 := if soft ∧ mstate s d a = msHoming then s1 else setPosValid s1 d a false
  raise (setMstate (wr48 s2 (pgAx d a) Off.AX_REMAIN_L 0) d a msRest) (pgAx d a) 1

/-- A stop under the policy, by software or by a fault (R259): with CUT a fault also cuts an axis that is stopping, where a
STOP command has no effect. -/
def axStop (s : State) (d a : Nat) (soft : Bool) : State :=
  let m := mstate s d a
  if m = msFollow then axCut s d a soft
  else if m = msMoving ∨ m = msHoming ∨ (m = msStopping ∧ !soft) then
    (if rb s (pgAx d a) Off.AX_PLAN 0 then axCut s d a soft else axHold s d a)
  else s

/-! Homing (R263 to R265). -/

/-- The input that is the reference: LIM_NEG 0, LIM_POS 1, HOME 2. -/
def homeRef (s : State) (d a : Nat) : Nat :=
  match rf s (pgAx d a) Off.AX_HOME_CFG 0 2 with | 1 => 0 | 2 => 1 | _ => 2

/-- The search direction (R263). -/
def homeDir (s : State) (d a : Nat) : Int :=
  match homeRef s d a with
  | 0 => -1
  | 1 => 1
  | _ => if rb s (pgAx d a) Off.AX_HOME_CFG 3 then 1 else -1

/-- A homing run begins (R263). -/
def homeStart (s : State) (d a : Nat) : State :=
  let act := swLevel s d a (homeRef s d a)
  let x := axis s d a
  setHphase
    (setMstate
      (setAxis s d a
        { x with
          hdir := homeDir s d a, hstop := false, hnext := 0, hoff := none, hfirst := false, hrev := false, hchat := 0
          homeEv := [], approach := false, overshot := false })
      d a msHoming)
    d a (if act then 3 else 1)

/-- The next homing phase begins with the axis at rest. -/
def homePhase (s : State) (d a h : Nat) : State :=
  setHphase (setAxis s d a { axis s d a with hstop := false, hoff := none, approach := false }) d a h

/-- The present phase ends: deceleration to rest, then phase `h`. -/
def homeEnd (s : State) (d a h : Nat) : State := setAxis s d a { axis s d a with hstop := true, hnext := h }

/-- HOMING_FAULT (R264). -/
def homingFault (s : State) (d a : Nat) : State := axPolicy (axFault s d a 1 6) d a 4 0x10

/-- An edge that qualified during homing: input and level (R263, R264). A limit that is not the reference reverses the search
whether or not its `LIM_EN` is set, which R262 gives to trips outside homing (log entry 34). -/
def homeEdge (s : State) (d a : Nat) (e : Nat × Bool) : State :=
  if mstate s d a ≠ msHoming then s
  else
    let x := axis s d a
    let h := hphase s d a
    let two := rb s (pgAx d a) Off.AX_HOME_CFG 4 || x.hrev
    let (i, lvl) := e
    if i = homeRef s d a then
      if x.hstop then s
      else if lvl && decide (h = 1 ∨ h = 2) then
        let s1 := setAxis s d a { x with hfirst := true }
        if two then homeEnd s1 d a 3 else homePhase s1 d a 5
      else if lvl && decide (h = 4) then homePhase s d a 5
      else if !lvl && decide (h = 3) && decide (x.hoff = none) then
        setAxis s d a { x with hoff := some (axPos s d a - x.hdir * (rdN s (pgAx d a) Off.AX_HOME_BACK : Nat)) }
      else s
    else
      let v := (axMotion s d a).2.1
      let trips := lvl && decide (i < 2) && (if i = 0 then decide (v < 0) else decide (0 < v))
      if !trips then s
      else if x.hrev then homingFault s d a
      else homeEnd (setAxis s d a { x with hrev := true }) d a 2

/-- HOMED at the end of SETTLE: x moves by the difference of `AX_HOME_POS` and `AX_EDGE_POS` (R263). -/
def homed (s : State) (d a : Nat) : State :=
  let p := pgAx d a
  let x := axis s d a
  let pos := sgn 48 (rd48 s p Off.AX_HOME_POS_L)
  let edge := sgn 48 (rd48 s p Off.AX_EDGE_POS_L)
  let s1 := setAxis s d a (x.segment s.clock ((axMotion s d a).1 - edge * ustep + pos * ustep) 0 0)
  raise (setMstate (setPosValid s1 d a true) d a msRest) p 5

/-- The planner in HOMING (R263): each phase is a planned move with `AX_ACC` and `AX_DEC`. -/
def planHoming (s : State) (d a : Nat) : State :=
  let p := pgAx d a
  let x := axis s d a
  let v := (axMotion s d a).2.1
  let acc := rdN s p Off.AX_ACC
  let dec := rdN s p Off.AX_DEC
  let run (sg : Int) (reg : Nat) : State :=
    if v * sg < 0 then setAxis s d a (brake x s.clock dec none)
    else setAxis s d a (cruise x s.clock sg (axVm s d a (rdN s p reg)) acc dec)
  if x.hstop then
    if v = 0 then homePhase s d a x.hnext else setAxis s d a (brake x s.clock dec none)
  else match hphase s d a with
    | 1 => run x.hdir Off.AX_HOME_V1
    | 2 => run (-x.hdir) Off.AX_HOME_V1
    | 3 =>
      match x.hoff with
      | none => run (-x.hdir) Off.AX_HOME_V1
      | some t =>
        let (x1, there) := steer x s.clock t (axVm s d a (rdN s p Off.AX_HOME_V1)) acc dec
        if there then homePhase (setAxis s d a x1) d a (if x.hfirst then 4 else 1) else setAxis s d a x1
    | 4 => run x.hdir Off.AX_HOME_V2
    | _ => if v = 0 then homed s d a else setAxis s d a (brake x s.clock dec none)

/-! Commands (R269). -/

/-- A limit is active in the direction of the target, whether or not its `LIM_EN` is set (R262, log entry 34). -/
def limitAhead (s : State) (d a : Nat) : Bool :=
  let dist := axTarget s d a * ustep - (axMotion s d a).1
  (decide (dist < 0) && swLevel s d a 0) || (decide (0 < dist) && swLevel s d a 1)

/-- The axis starts towards the target (R255). -/
def axGo (s : State) (d a : Nat) : State :=
  let dec := rdN s (pgAx d a) Off.AX_DEC
  setMstate (setAxis s d a
    { axis s d a with
      tgt := axTarget s d a, dec := dec, decSeen := dec, deferred := false, approach := false, overshot := false })
    d a msMoving

/-- The page shuts down: a command that would start a motion finds the axis in the wrong state (DESIGN CHOICE, log entry
75). -/
def axEnding (s : State) (d a : Nat) : Bool :=
  decide (pstate s (pgAx d a) = stShutting) || decide (pstate s (pgAx d a) = stRestart)

/-- The result of a command and the state after it (R269). -/
def axDo (s : State) (d a cmd : Nat) : Nat × State :=
  let p := pgAx d a
  let m := mstate s d a
  let z := fun off => decide (rdN s p off = 0)
  let still := decide (m = msRest ∨ m = msHalted)
  match cmd with
  | 1 =>
    if !(still || decide (m = msMoving)) || stepIn s d a || axEnding s d a then (0x10, s)
    else if z Off.AX_VMAX || z Off.AX_ACC || z Off.AX_DEC then (0x11, s)
    else if rdN s p Off.AX_FAULT ≠ 0 then (0x12, s)
    else if limitAhead s d a then (0x13, s)
    else (1, if m = msMoving then s else axGo s d a)
  | 2 =>
    if m = msMoving ∨ m = msHoming ∨ m = msFollow then (1, axStop s d a true)
    else if m = msStopping ∨ still then (1, s)
    else (0x10, s)
  | 3 =>
    if !(decide (m = msHalted) || (decide (m = msRest) && stepIn s d a)) || axEnding s d a then (0x10, s)
    else if rdN s p Off.AX_FAULT ≠ 0 then (0x12, s)
    else if limitAhead s d a && !stepIn s d a then (0x13, s)
    else (1, if stepIn s d a then setMstate s d a msFollow else axGo s d a)
  | 4 =>
    if !still || stepIn s d a || axEnding s d a then (0x10, s)
    else if z Off.AX_HOME_V1 || z Off.AX_ACC || z Off.AX_DEC
        || (rb s p Off.AX_HOME_CFG 4 && (z Off.AX_HOME_V2 || z Off.AX_HOME_BACK)) then (0x11, s)
    else if rdN s p Off.AX_FAULT ≠ 0 then (0x12, s)
    else (1, homeStart s d a)
  | 5 =>
    if !still then (0x10, s)
    else
      let v := sgn 48 (rd48 s p Off.AX_POS_SET_L)
      let x := axis s d a
      (1, setPosValid (setAxis s d a { x.segment s.clock (v * ustep) 0 0 with y := v, lastMove := s.clock }) d a true)
  | 6 => if still ∨ m = msFenced then (1, wr s p Off.AX_FAULT 0#24) else (0x10, s)
  | 7 =>
    if m = msMoving ∨ m = msStopping ∨ m = msHoming ∨ m = msFollow then (1, axCut s d a true) else (0x10, s)
  | _ => (0x10, s)

/-- Process one command of the queue (R254, R269). -/
def axCommand (s : State) (d a cmd : Nat) : State :=
  let (res, s1) := axDo s d a cmd
  let s2 := wr s1 (pgAx d a) Off.AX_CMD_STAT (word (res * 2 ^ 16 + cmd))
  whenDo (decide (0x10 ≤ res)) s2 (raise · (pgAx d a) 13)

/-- The planning of a profile tick (R254). -/
def axPlan (s : State) (d a : Nat) : State :=
  let m := mstate s d a
  let s1 :=
    if m = msMoving then planMoving s d a
    else if m = msStopping then planStopping s d a
    else if m = msHoming then planHoming s d a
    else s
  let v := (axMotion s1 d a).2.1
  if v = 0 then s1 else wb s1 (pgAx d a) Off.AX_STAT 17 (decide (v < 0))

/-- A profile tick (R254): faults and homing events, commands in the order written, planning. The hand-over of the RWS
registers is HAND_OVER, at NEXT_TICK. -/
def profileTick (s : State) (d a : Nat) : State :=
  let x := axis s d a
  let s0 := setAxis s d a { x with profAt := some s.clock, stopDue := false, homeEv := [], cmds := [] }
  let s1 := whenDo x.stopDue s0 (axStop · d a false)
  let s2 := each x.homeEv s1 fun s e => homeEdge s d a e
  let s3 := whenDo (axis s2 d a).stopDue (setAxis s2 d a { axis s2 d a with stopDue := false }) (axStop · d a false)
  let s4 := each x.cmds s3 fun s c => axCommand s d a c.2
  axPlan s4 d a

/-- The next profile tick of an axis, in a die that is awake (R254). -/
def profileNext (s : State) (d a : Nat) : State :=
  if axThere s d a && awake s d then profileTick (waitClock s (nextAt s d 256 (axis s d a).profAt)) d a else s

/-- PROFILE_TICK: the next tick with t mod 256 = 0 (R254). -/
def execProfileTick (d a : Nat) (s : State) : Host.Outcome State Fault Refusal := ok (profileNext s d a)

/-- A read of `AX_CMD_STAT` returns only once every earlier command of its requester has been processed (R254). -/
def axStatWait (s : State) (r : Req) (d a : Nat) : State :=
  if (axis s d a).cmds.any fun c => decide (c.1 = r) then profileNext s d a else s

/-! Start and shut-down (R267, R268). -/

/-- The axis is enabled: AX_a_BEN goes high and the current ramp starts; an axis released in HOLD keeps its current. -/
def axStart (s : State) (d a : Nat) : State :=
  let x := axis s d a
  if cameBack s (pgAx d a) && !x.coast && x.ben then s
  else setAxis s d a { x with ben := true, coast := false, rampAt := s.clock, integA := 0, integB := 0, ocCount := 0 }

/-- The axis enters RUNNING in REST (PLANNER) or FOLLOW (STEP_IN); after a fence in REST (R267, R268). -/
def axRunning (s : State) (d a : Nat) : State :=
  let s1 := setPstate s (pgAx d a) stRunning
  let x := axis s1 d a
  let s2 := setAxis s1 d a { x with y := axPos s1 d a, rate := 0, stepPrev := none }
  setMstate s2 d a (if stepIn s2 d a && !cameBack s (pgAx d a) then msFollow else msRest)

/-- `EN` := 0: a moving planner axis stops as under HOLD_REMAINING, a following axis as under CUT (R267). -/
def axShut (s : State) (d a : Nat) : State :=
  let s1 := setPstate s (pgAx d a) stShutting
  if mstate s d a = msFollow then axCut s1 d a false else axHold s1 d a

/-- The shut-down ends (R267): no current, AX_a_BEN low, `POS_VALID` := 0, SOURCE_LOST. -/
def axOff (s : State) (d a : Nat) : State :=
  let s1 := setAxis s d a { axis s d a with ben := false, uA := 0, uB := 0, onA := 0, onB := 0, integA := 0, integB := 0, ocCount := 0 }
  axisLost (setPosValid (setMstate s1 d a msOff) d a false) d a

/-- AX_ENABLE_DONE: 16 loop periods after `EN` := 1 the axis enters RUNNING (R267); with `EN` = 0 it then shuts down
(R42). -/
def execAxEnableDone (d a : Nat) (s : State) : Host.Outcome State Fault Refusal :=
  ok (if axThere s d a && decide (pstate s (pgAx d a) = stStarting) then
    let s1 := axRunning (waitClock s ((axis s d a).rampAt + 16 * 5000)) d a
    if rb s1 (pgAx d a) Off.PAGE_CTRL 0 then s1 else axShut s1 d a
  else s)

/-- A command of a requester waits for the next profile tick (R254). -/
def axCmdAdd (r : Req) (d a cmd : Nat) (s : State) : State :=
  setAxis s d a { axis s d a with cmds := (axis s d a).cmds ++ [(r, cmd)] }

/-- A write of a command to `AX_CMD`: it is processed at the next profile tick (R254). -/
def axCmdWrite (r : Req) (d a cmd : Nat) (s : State) : State := guardedWrite s r (pgAx d a) Off.AX_CMD (axCmdAdd r d a cmd)

/-- AX_MOVE (R255, R269). -/
def execAxMove (r : Req) (d a : Nat) (s : State) : Host.Outcome State Fault Refusal := ok (axCmdWrite r d a 1 s)
/-- AX_STOP (R259, R269). -/
def execAxStop (r : Req) (d a : Nat) (s : State) : Host.Outcome State Fault Refusal := ok (axCmdWrite r d a 2 s)
/-- AX_RESUME (R262, R269). -/
def execAxResume (r : Req) (d a : Nat) (s : State) : Host.Outcome State Fault Refusal := ok (axCmdWrite r d a 3 s)
/-- AX_HOME (R263, R269). -/
def execAxHome (r : Req) (d a : Nat) (s : State) : Host.Outcome State Fault Refusal := ok (axCmdWrite r d a 4 s)
/-- AX_LOAD (R269). -/
def execAxLoad (r : Req) (d a : Nat) (s : State) : Host.Outcome State Fault Refusal := ok (axCmdWrite r d a 5 s)
/-- AX_CLEAR (R260, R269). -/
def execAxClear (r : Req) (d a : Nat) (s : State) : Host.Outcome State Fault Refusal := ok (axCmdWrite r d a 6 s)
/-- AX_CUT (R259, R269). -/
def execAxCut (r : Req) (d a : Nat) (s : State) : Host.Outcome State Fault Refusal := ok (axCmdWrite r d a 7 s)

/-! Switches (R261, R262). -/

/-- A limit in the direction of motion trips outside homing (R262). -/
def limitTrip (s : State) (d a i : Nat) : State :=
  let v := (axMotion s d a).2.1
  let m := mstate s d a
  if decide (i < 2) && rb s (pgAx d a) Off.AX_SW_CFG (16 + i) && decide (m ≠ msHoming) && decide (m ≠ msFenced)
      && (if i = 0 then decide (v < 0) else decide (0 < v)) then
    axPolicy (axFault s d a (3 + i) 4) d a 6 0x0F
  else s

/-- An edge of input `i` to level `lvl` qualifies (R261). -/
def swQualify (s : State) (d a i : Nat) (lvl : Bool) (pos : Int) (stamp chat : Nat) : State :=
  let p := pgAx d a
  let s1 := wb s p Off.AX_STAT (13 + i) lvl
  let s2 := wr48 (wr48 s1 p Off.AX_EDGE_POS_L (uns 48 pos)) p Off.AX_EDGE_TS_L stamp
  let s3 := raise (wr s2 p Off.AX_EDGE_INFO (word (min chat 255 * 2 ^ 8 + b2n lvl * 4 + i))) p 12
  let s4 := whenDo (decide (mstate s3 d a = msHoming)) s3 fun s =>
    setAxis s d a { axis s d a with homeEv := (axis s d a).homeEv ++ [(i, lvl)] }
  whenDo lvl s4 (limitTrip · d a i)

/-- CHATTER is raised once the chatter of a homing run exceeds `CHAT_MAX` (R265). -/
def chatFollow (s : State) (d a : Nat) : State :=
  let lim := rf s (pgAx d a) Off.AX_HOME_CFG 8 8
  let past := decide (mstate s d a = msHoming) && decide (lim ≠ 0) && decide (lim < (axis s d a).hchat)
  whenDo (past && !rb s (pgAx d a) Off.AX_FAULT 2) s fun s => axPolicy (axFault s d a 2 7) d a 5 0x11

/-- One chatter edge (R261, R265). -/
def chatter (s : State) (d a : Nat) : State :=
  let s1 := count s (pgAx d a) Off.CNT_CHATTER
  let x := axis s1 d a
  chatFollow (setAxis s1 d a { x with hchat := x.hchat + 1 }) d a

/-- `B` of R261, in ticks. -/
def debounce (s : State) (d a : Nat) : Nat := rf s (pgAx d a) Off.AX_SW_CFG 0 16 * 250

/-- The sampled level of input `i` becomes `raw`, before its inversion (R261). -/
def swEdge (s : State) (d a i : Nat) (raw : Bool) : State :=
  let x := axis s d a
  let w := { Tbl.get x.sw i {} with raw := raw }
  let lvl := raw != rb s (pgAx d a) Off.AX_SW_CFG (18 + i)
  let put (s : State) (v : SwSt) : State := setAxis s d a { axis s d a with sw := Tbl.put (axis s d a).sw i v }
  if lvl = w.level then put s w
  else
    let pos := x.posBefore (s.clock - 2) / ustep
    let stamp := uns 48 ((now s d : Int) - 2)
    if debounce s d a = 0 then swQualify (put s { w with level := lvl, burst := false }) d a i lvl pos stamp 0
    else if w.burst then chatter (put s { w with level := lvl, since := s.clock, chat := w.chat + 1 }) d a
    else if lvl ≠ swLevel s d a i then put s ⟨raw, lvl, true, pos, stamp, 0, s.clock⟩
    else put s { w with level := lvl }

/-- The switch inputs are sampled with the inversions in force now (R261). -/
def swFollow (s : State) (d a : Nat) : State :=
  each (List.range 3) s fun s i => swEdge s d a i (Tbl.get (axis s d a).sw i {}).raw

/-- A hand-over of an axis page: changed inversions act on the inputs (R261), a changed `CHAT_MAX` on the chatter of a homing
run (R265). -/
def axHandOver (s : State) (d a : Nat) : State := chatFollow (swFollow (takeShadows s (pgAx d a)) d a) d a

/-- The state of an axis beside its registers after a reset of its page: the levels of its inputs stay (R261). -/
def axReset (s : State) (d a : Nat) : State :=
  let sw := (axis s d a).sw.map fun e => (e.1, ({ raw := e.2.raw } : SwSt))
  swFollow (setAxis s d a { sw := sw }) d a

/-- SWITCH_INPUT_EDGE: the level of a limit or home input changes (R261, R265). -/
def execSwitchInputEdge (d a i : Nat) (raw : Bool) (s : State) : Host.Outcome State Fault Refusal :=
  ok (if axThere s d a && awake s d && decide (i < 3) then swEdge s d a i raw else s)

/-- SW_EDGE: the input has held one level for the debounce time, and its burst ends (R261). -/
def execSwEdge (d a i : Nat) (s : State) : Host.Outcome State Fault Refusal :=
  ok (if axThere s d a && awake s d && decide (i < 3) && (Tbl.get (axis s d a).sw i {}).burst then
    let w := Tbl.get (axis s d a).sw i {}
    let s1 := waitClock s (w.since + debounce s d a)
    let s2 := setAxis s1 d a { axis s1 d a with sw := Tbl.put (axis s1 d a).sw i { w with burst := false } }
    if w.level ≠ swLevel s2 d a i then swQualify s2 d a i w.level w.pos w.stamp w.chat else chatter s2 d a
  else s)

end Sys2Proof.Machine
end

