-- ==== Sys2Proof/Machine/Encoder.lean ====
section
/-!
DEFINITION. Encoder channels (R82 to R110): decode samples, index checks, speed, serial frames, latches, the
estimator, virtual and REMOTE sources, and the hand-overs, start and stop of a channel.
-/
namespace Sys2Proof.Machine

/-- Channels 0 and 1 in the incremental modes: the privileged ones (R82). -/
def encPriv (s : State) (d c : Nat) : Bool := decide (c < 2) && encIncr s d c
/-- The channel is RUNNING and the die is not in STANDBY (R393). -/
def encOn (s : State) (d c : Nat) : Bool := decide (c < 8) && running s (pgEnc d c) && awake s d
/-- N of R84. -/
def encN (s : State) (d c : Nat) : Nat := rf s (pgEnc d c) Off.ENC_CFG 12 4 + 1
/-- The selected speed method (R96): WINDOW 0, PERIOD 1, AUTO 2. -/
def spdSel (s : State) (d c : Nat) : Nat := if encPriv s d c then rf s (pgEnc d c) Off.SPD_CFG 5 2 else 0
/-- The channel measures speed by PERIOD now. -/
def spdPeriod (s : State) (d c : Nat) : Bool := encPriv s d c && rb s (pgEnc d c) Off.SPD_STAT 0
/-- K of R95. -/
def spdK (s : State) (d c : Nat) : Nat := 2 ^ rf s (pgEnc d c) Off.SPD_CFG 8 2
/-- W of R94. -/
def spdW (s : State) (d c : Nat) : Nat := 2 ^ clampN 4 20 (rf s (pgEnc d c) Off.SPD_CFG 0 5)
/-- `SPD`, 2^-40 counts per tick. -/
def spdOf (s : State) (d c : Nat) : Int := sgn 48 (rd48 s (pgEnc d c) Off.SPD_L)

/-- A result in a 48-bit signed register format; the manual states no result outside it (a free value). -/
def fit48 (s : State) (z : Int) : Int × State :=
  if -(2 ^ 47) ≤ z ∧ z < 2 ^ 47 then (z, s) else (sgn 48 (freeBelow s (2 ^ 48)), nextFree s)

/-- Set `SPD`. -/
def setSpd (s : State) (d c : Nat) (v : Int) : State :=
  let (w, s1) := fit48 s v
  wr48 s1 (pgEnc d c) Off.SPD_L (uns 48 w)

/-! Position (R88 to R90, R93). -/

/-- `POS` takes a count; it wraps at 48 bits (R88). -/
def setPos (s : State) (d c : Nat) (n : Int) : State :=
  let s1 := wr48 (winSync s d c) (pgEnc d c) Off.POS_L (uns 48 n)
  pdMoved (if sgn 48 (uns 48 n) = n then s1 else raise s1 (pgEnc d c) 11) d c

/-- `POS` of a virtual channel follows its source (R108); passing the end of the range latches POS_WRAP (R88). -/
def virtFollow (s : State) (d c : Nat) : State :=
  let old := sgn 48 (rd48 s (pgEnc d c) Off.POS_L)
  let new := encPos s d c
  let s1 := encSync s d c
  pdMoved (if (2 : Int) ^ 47 < (new - old).natAbs then raise s1 (pgEnc d c) 11 else s1) d c

/-- A record with its sequence number. -/
def posBlock (seq : Nat) (r : PosRec) : List Word := word (r.head + seq % 2 ^ 12) :: r.ws

/-- The records of a tick with a new one in its place: a latch record stands for the earlier one of its channel, behind the
others of the channel (R89, R102, R103). -/
def posInsert (l : List PosRec) (r : PosRec) : List PosRec :=
  let k := l.filter fun e => !(r.latch && e.latch && decide (e.key = r.key))
  (k.takeWhile fun e => decide (e.key ≤ r.key)) ++ r :: (k.dropWhile fun e => decide (e.key ≤ r.key))

/-- The records of this tick stand at the tail of the chute in the order of R103, and each latch shows its number. -/
def posArrange (s : State) (d : Nat) : State :=
  let x := die s d
  let rs := x.recs.zipIdx.map fun e => (e.1, (x.posSeq + 2 ^ 12 * x.recs.length - x.recs.length + e.2) % 2 ^ 12)
  let bs := (rs.filter fun e => e.1.written).map fun e => recordCells (posBlock e.2 e.1)
  let c := chute s d 18
  let m := min bs.length (c.words.length / 6)
  let s1 := setChute s d 18 { c with words := c.words.take (c.words.length - 6 * m) ++ (bs.drop (bs.length - m)).flatten }
  each (rs.filter fun e => e.1.latch) s1 fun s e => wf s (pgEnc d e.1.key) Off.LAT_INFO 0 12 e.2

/-- Write a position record (R103): the sequence number counts in any case. The records of one tick stand in order of
channel, then of input; those a reader has popped within the tick keep their place. -/
def posRecord (s : State) (d key type ch pd : Nat) (count stamp w5 : Int) (write latch : Bool) : State :=
  let x := die s d
  let old := if x.recsAt = s.clock then x.recs else []
  let k := uns 48 count
  let t := uns 48 stamp
  let r : PosRec := ⟨key, type * 2 ^ 20 + ch * 2 ^ 17 + pd * 2 ^ 14, [lo24 k, hi24 k, lo24 t, hi24 t, wordI (satI 24 w5)],
    false, latch⟩
  match if latch then old.find? fun e => e.latch && decide (e.key = key) else none with
  | some e => posArrange (setDie s d { x with recs := posInsert old { r with written := e.written } }) d
  | none =>
    let s1 := if write then chuteRecord s d 18 (posBlock x.posSeq r) else s
    let l := posInsert old { r with written := decide ((chute s1 d 18).used ≠ (chute s d 18).used) }
    posArrange (setDie s1 d { die s1 d with posSeq := (x.posSeq + 1) % 2 ^ 12, recs := l, recsAt := s.clock }) d

/-- A change of `POS` by a load, a reference or a correction shifts the estimate and the unused pair and is taken out
of the speed window (R94, R105). -/
def shiftEst (s : State) (d c : Nat) (amount : Int) : State :=
  let x := enc (winShift s d c amount) d c
  let p := sgn 72 (uns 72 (x.p + amount * 2 ^ 24))
  let s1 := setEnc s d c { x with p := p, pair := x.pair.map fun q => (q.1 + 2 * amount, q.2) }
  wr48 s1 (pgEnc d c) Off.EST_POS_L (uns 48 p)

/-- POSITION_STEP leaves the channel with its amount and stamp (R103, R107, R114). -/
def sendStep (s : State) (d c : Nat) (amount stamp : Int) : State :=
  encSend (posRecord (raise s (pgEnc d c) 4) d c 7 c 0 (encPos s d c) stamp amount true false) d c (.step amount (uns 48 stamp))

/-! Latches (R102, R103). -/

/-- The estimate at a stamp, 2^-48 counts (R106); `base` names whose estimate. -/
def estAt (e : Est) (stamp : Int) : Int :=
  let n := tickDiff (uns 48 stamp) e.t
  e.p * 2 ^ 24 + e.v * 2 ^ 8 * n + e.a * n * n

/-- The estimate that a channel's latches use (R102, R109). -/
def latEst (s : State) (d c : Nat) : Est :=
  let x := enc s d c
  if encMode s d c = 7 then x.remote else ⟨x.p, x.v, x.a, x.tk, true⟩

/-- The estimate at a stamp less a count, 2^-48 counts: the estimate of a REMOTE channel is modular (R102, R106, R109). -/
def latOver (s : State) (d c : Nat) (stamp count : Int) : Int :=
  let n := if encMode s d c = 7 then 72 else 96
  sgn n (uns n (estAt (latEst s d c) stamp - count * 2 ^ 48))

/-- The count that a latch takes (R102): a REMOTE channel extrapolates to the stamp, near the mirrored count (R109). -/
def latCount (s : State) (d c : Nat) (stamp : Int) : Int :=
  let n := encPos s d c
  if encMode s d c = 7 then sgn 48 (uns 48 (n + nearest s (latOver s d c stamp n) (2 ^ 48))) else n

/-- The estimate less the count, signed 8.16, before saturation (R102). -/
def latDiff (s : State) (d c : Nat) (stamp count : Int) : Int := openRound (nextFree s) (latOver s d c stamp count) (2 ^ 32)

/-- The latch of a channel in this tick takes `POS` as it is now (R102): `src` is the record type, `pd` the input. -/
def latchSet (s : State) (d c src pd : Nat) (stamp : Int) : State :=
  let p := pgEnc d c
  let n := latCount s d c stamp
  let e := satI 24 (latDiff s d c stamp n)
  let s1 := nextFree (nextFree (setEnc s d c { enc s d c with latAt := some s.clock, latSrc := (src, pd), latStamp := stamp }))
  let s2 := wr (wr48 (wr48 s1 p Off.LAT_POS_L (uns 48 n)) p Off.LAT_TS_L (uns 48 stamp)) p Off.LAT_EST (wordI e)
  let s3 := wr s2 p Off.LAT_INFO (word (src * 2 ^ 20 + pd * 2 ^ 17))
  posRecord s3 d c src c pd n stamp e (rb s p Off.LAT_CFG 15) true

/-- A trigger of a channel's latch (R102): of several in one tick the first source in the order of the record types, and
the lowest input, has the one latch. -/
def takeLatch (s : State) (d c src pd : Nat) (stamp : Int) : State :=
  let p := pgEnc d c
  let x := enc s d c
  if !running s p then s
  else if x.latAt = some s.clock then
    if 8 * src + pd < 8 * x.latSrc.1 + x.latSrc.2 then latchSet s d c src pd stamp else s
  else latchSet (raise s p 5) d c src pd stamp

/-- `POS` has changed in the tick: a latch already taken in it takes the later count (R89, R102). -/
def latchAgain (s : State) (d c : Nat) : State :=
  let x := enc s d c
  if running s (pgEnc d c) && decide (x.latAt = some s.clock) then latchSet s d c x.latSrc.1 x.latSrc.2 x.latStamp else s

/-- `POS` is corrected by an amount (R93). -/
def correctPos (s : State) (d c : Nat) (amount : Int) : State :=
  latchAgain (shiftEst (setPos s d c (encPos s d c + amount)) d c amount) d c

/-- A load (R90): the one-shot field clears in both copies. -/
def encLoad (s : State) (d c : Nat) : State :=
  let p := pgEnc d c
  let new := sgn 48 (rd48 s p Off.POS_SET_L)
  let amount := sgn 48 (uns 48 (new - encPos s d c))
  let s1 := wrShadow (wr s p Off.POS_CTRL 0#24) p Off.POS_CTRL 0#24
  let x := enc s1 d c
  let s2 := setEnc s1 d c { x with acc := x.acc + amount * 2 ^ 40, loadAt := some s.clock }
  latchAgain (sendStep (shiftEst (setPos s2 d c new) d c amount) d c amount (now s d)) d c

/-- LATCH_SW: a write of `LAT_TRIG` (R102). -/
def latTrigWrite (d c : Nat) (v : Word) (s : State) : State :=
  if bit v 0 then takeLatch s d c 1 0 (now s d) else s

/-- LATCH_SW (R102). -/
def execLatchSw (r : Req) (d c : Nat) (v : Word) (s : State) : Host.Outcome State Fault Refusal :=
  ok (if c < 8 then guardedWrite s r (pgEnc d c) Off.LAT_TRIG (latTrigWrite d c v) else s)

/-- LATCH_PERIODIC: the next multiple of 2^PER_K ticks (R102). -/
def execLatchPeriodic (d c : Nat) (s : State) : Host.Outcome State Fault Refusal :=
  let w := rd s (pgEnc d c) Off.LAT_CFG
  if encOn s d c && bit w 9 then
    let s1 := waitClock s (nextAt s d (2 ^ clampN 8 24 (fld w 10 5)) (enc s d c).perAt)
    let s2 := setEnc s1 d c { enc s1 d c with perAt := some s1.clock }
    ok (takeLatch s2 d c 4 0 (now s2 d))
  else ok s

/-! Decode samples (R84 to R87). -/

/-- The clock at which the decode sample of a line after that of clock `last` is available (R84). -/
def sampleClock (s : State) (d c last : Nat) : Nat :=
  let x := enc s d c
  let n := encN s d c
  let k := x.startAt + max 1 (ceilDiv (s.clock - x.startAt) n) * n
  if k ≤ last then last + n else k

/-- The majority value of a line in a window; a tied vote leaves its previous value (R84). -/
def majority (old : Bool) (raw : List Bool) : Bool :=
  let n := raw.countP id
  if 2 * n = raw.length then old else decide (raw.length < 2 * n)

/-- The stamp of the decode sample available now (R84). -/
def sampleStamp (s : State) (d c : Nat) : Int :=
  let n := encN s d c
  (now s d : Int) - n + ((n - 1) / 2 : Nat) - 2

/-- Place of a state AB (A bit 1, B bit 0) in the forward sequence 00, 10, 11, 01 (R85). -/
def quadPlace (ab : Nat) : Nat := match ab with | 0 => 0 | 2 => 1 | 3 => 2 | _ => 3

/-- The count change of a decode sample before `DIR_INV`; none stands for an ILLEGAL sample (R85 to R87). -/
def decodeStep (mode : Nat) (both : Bool) (old new : Nat) : Option Int :=
  let riseA := decide (old / 2 = 0) && decide (new / 2 = 1)
  let fallA := decide (old / 2 = 1) && decide (new / 2 = 0)
  let riseB := decide (old % 2 = 0) && decide (new % 2 = 1)
  match mode with
  | 0 => match (quadPlace new + 4 - quadPlace old) % 4 with | 0 => some 0 | 1 => some 1 | 2 => none | _ => some (-1)
  | 1 => some (if riseA || (both && fallA) then (if old % 2 = 1 then 1 else -1) else 0)
  | _ => some ((b2n riseA : Int) - b2n riseB)

/-- The estimated speed exceeds half the decode rate (R86). -/
def fastEnough (s : State) (d c : Nat) : Bool :=
  let v := if rb s (pgEnc d c) Off.EST_STAT 0 then (enc s d c).v else spdOf s d c
  decide (2 ^ 40 < v.natAbs * (2 * encN s d c))

/-- The change that an ILLEGAL sample makes, and the state after it (R86). -/
def illegalSample (s : State) (d c : Nat) : Int × State :=
  let p := pgEnc d c
  let s1 := raise (count s p Off.CNT_ILLEGAL) p 0
  if encPriv s d c && rb s p Off.ENC_CFG 4 && fastEnough s d c then
    (if (enc s d c).back then -2 else 2, raise (count s1 p Off.CNT_INFER) p 1)
  else (0, if rb s p Off.ENC_CFG 5 then fencePage s1 p 0x0C else s1)

/-- A result of the period method at the newest edge (R95): 0 while a reversal lies among the last K counts, and none while
fewer counts have been made. -/
def periodResult (s : State) (d c : Nat) : Option (Int × State) :=
  let x := enc s d c
  let k := spdK s d c
  if (x.edges.take k).any (fun e => e.2 != x.back) then some (0, s)
  else
    match x.edges[0]?, x.edges[k]? with
    | some e, some f =>
      let n := tickDiff e.1 f.1
      let sign : Int := if x.back then -1 else 1
      some (if n ≤ 0 then (sgn 48 (freeBelow s (2 ^ 48)), nextFree s) else (roundAway (sign * k * 2 ^ 40) n, s))
    | _, _ => none

/-- The speed method changes in AUTO (R96). -/
def setMethod (s : State) (d c : Nat) (period : Bool) : State := raise (wb s (pgEnc d c) Off.SPD_STAT 0 period) (pgEnc d c) 10

/-- A count edge measures the period (R95, R96). -/
def periodEdge (s : State) (d c : Nat) : State :=
  if !spdPeriod s d c then s
  else
    match periodResult s d c with
    | none => s
    | some (v, s1) =>
      let s2 := setSpd s1 d c v
      if spdSel s d c = 2 ∧ rdN s (pgEnc d c) Off.SPD_UP * 2 ^ 24 < v.natAbs then setMethod s2 d c false else s2

/-- Count edges enter the record of edges (R95). -/
def pushEdges (s : State) (d c : Nat) (n : Nat) (stamp : Int) (back : Bool) : State :=
  let x := enc s d c
  let es := (List.replicate n (uns 48 stamp, back) ++ x.edges).take 9
  wb (wb (setEnc s d c { x with edges := es, edgeClock := s.clock, limAt := none, counted := true, back := back })
    (pgEnc d c) Off.SPD_STAT 2 false) (pgEnc d c) Off.SPD_STAT 1 back

/-- A count change by an edge or an inference (R85 to R88, R95, R104); its pair ends a standstill (R105). -/
def countBySample (s : State) (d c : Nat) (delta stamp : Int) : State :=
  if delta = 0 then s
  else
    let back := decide (delta < 0)
    let s1 := setPos (pushEdges s d c delta.natAbs stamp back) d c (encPos s d c + delta)
    let z := 2 * encPos s1 d c + (if back then 1 else -1)
    let s2 := setDyn (wb s1 (pgEnc d c) Off.EST_STAT 2 false) (pgEnc d c) 12 false
    latchAgain (periodEdge (setEnc s2 d c { enc s2 d c with pair := some (z, uns 48 stamp) }) d c) d c

/-- A decode sample of A and B (R85 to R89). -/
def abSample (s : State) (d c : Nat) (ab : Nat) : State :=
  let x := enc s d c
  let s1 := setEnc s d c { x with ab := ab, hasRef := true, sampleAt := s.clock }
  if !x.hasRef then s1
  else
    let sign : Int := if rb s (pgEnc d c) Off.ENC_CFG 3 then -1 else 1
    match decodeStep (encMode s d c) (rb s (pgEnc d c) Off.ENC_CFG 8) x.ab ab with
    | some n => countBySample s1 d c (sign * n) (sampleStamp s1 d c)
    | none =>
      let (n, s2) := illegalSample s1 d c
      countBySample s2 d c n (sampleStamp s1 d c)

/-- ENC_COUNT: the next window has these N raw samples of A and B (R84 to R88). -/
def execEncCount (d c : Nat) (la lb : List Bool) (s : State) : Host.Outcome State Fault Refusal :=
  if encOn s d c && encIncr s d c && decide (la.length = encN s d c) && decide (lb.length = encN s d c) then
    let x := enc s d c
    let a := majority (decide (2 ≤ x.ab)) la
    let b := majority (decide (x.ab % 2 = 1)) lb
    ok (abSample (waitClock s (sampleClock s d c x.sampleAt)) d c (2 * b2n a + b2n b))
  else ok s

/-! Index edges (R91 to R93). -/

/-- d of R92 for an actual count. -/
def idxDist (period : Nat) (exp count : Int) : Int :=
  if period = 0 then count - exp
  else
    let d := (count - exp) % (period : Int)
    if (period : Int) < 2 * d then d - period else d

/-- The reference or the correction that is sent to the contexts (R93). -/
def correctStep (s : State) (d c : Nat) (amount stamp : Int) : State :=
  sendStep (correctPos s d c amount) d c amount stamp

/-- A mismatch is recorded (R93). -/
def idxMismatch (s : State) (d c : Nat) (cnt dist stamp : Int) : State :=
  let p := pgEnc d c
  let s1 := wr48 (wr48 (wr48 s p Off.IDX_MM_ACT_L (uns 48 cnt)) p Off.IDX_MM_EXP_L (uns 48 (cnt - dist))) p Off.IDX_MM_TS_L
    (uns 48 stamp)
  posRecord (raise (count s1 p Off.CNT_IDX_MM) p 3) d c 5 c 0 cnt stamp dist true false

/-- The check of a qualified index edge (R90, R92, R93). -/
def idxCheck (s : State) (d c : Nat) (stamp : Int) : State :=
  let p := pgEnc d c
  if (enc s d c).loadAt = some s.clock then count s p Off.CNT_IDX_SKIP
  else
    let w := rd s p Off.IDX_CFG
    let cnt := encPos s d c
    let dist := idxDist (rdN s p Off.IDX_PERIOD) (sgn 48 (rd48 s p Off.IDX_EXP_L)) cnt
    if bit w 7 then
      let s1 := wrShadow (wb s p Off.IDX_CFG 7 false) p Off.IDX_CFG (setBit (rdShadow s p Off.IDX_CFG) 7 false)
      correctStep s1 d c (-dist) stamp
    else if dist.natAbs ≤ fld w 8 16 then
      if fld w 0 2 = 1 ∧ dist ≠ 0 then count (correctPos s d c (-dist)) p Off.CNT_IDX_SILENT else s
    else
      let s1 := idxMismatch s d c cnt dist stamp
      match fld w 0 2 with
      | 1 => correctStep s1 d c (-dist) stamp
      | 2 => fencePage s1 p 0x0B
      | _ => s1

/-- The edge qualifies (R91). -/
def idxQualified (s : State) (d c : Nat) (old new : Bool) : Bool :=
  let w := rd s (pgEnc d c) Off.IDX_CFG
  let x := enc s d c
  let want := !(x.counted && x.back)
  decide ((old != bit w 3) = !want) && decide ((new != bit w 3) = want)
    && (!bit w 4 || decide (encMode s d c ≠ 0) || decide (x.ab = 3))

/-- Z of a decode sample (R91, R93, R102). The manual leaves open whether an edge sets the reference of `ARM_REF` while
`IDX_CFG.EN` = 0: here it does not, as the edge is not checked (DESIGN CHOICE, log entry 61). -/
def zSample (s : State) (d c : Nat) (z : Bool) : State :=
  let p := pgEnc d c
  let x := enc s d c
  let s1 := setEnc s d c { x with z := z, zAt := s.clock, zRef := true }
  if !x.zRef || !idxQualified s d c x.z z then s1
  else
    let stamp := sampleStamp s d c
    let s2 := raise (count s1 p Off.CNT_IDX) p 2
    let s3 := if rb s2 p Off.IDX_CFG 2 then idxCheck s2 d c stamp else s2
    if rb s3 p Off.LAT_CFG 8 then takeLatch s3 d c 3 0 stamp else s3

/-- INDEX: the next window has these N raw samples of Z (R84, R91 to R93). In a tick in which both are available, the decode
sample of A and B comes before that of Z (R89). -/
def execIndex (d c : Nat) (raw : List Bool) (s : State) : Host.Outcome State Fault Refusal :=
  if encOn s d c && encIncr s d c && decide (raw.length = encN s d c) then
    let x := enc s d c
    ok (zSample (waitClock s (sampleClock s d c x.zAt)) d c (majority x.z raw))
  else ok s

/-! Speed (R94 to R96). -/

/-- The threshold down of AUTO, in half counts per 65,536 ticks (R96). -/
def spdDown (s : State) (d c : Nat) : Nat :=
  let up := rdN s (pgEnc d c) Off.SPD_UP
  let dn := rdN s (pgEnc d c) Off.SPD_DN
  if up ≤ dn then up else 2 * dn

/-- The end of a speed window (R94, R96). -/
def windowEnd (s : State) (d c : Nat) : State :=
  let s0 := winSync s d c
  let x := enc s0 d c
  let w := x.win.getD (clampN 4 20 (rf s (pgEnc d c) Off.SPD_CFG 0 5) - 4) (0, 0, 0)
  let v := roundAway (sgn 48 (uns 48 (w.2.1 - w.2.2)) * 2 ^ 40) (spdW s d c)
  let s1 := setEnc s0 d c { x with winBad := false, spdAt := some s.clock }
  if x.winBad || spdPeriod s d c then s1
  else
    let s2 := setSpd s1 d c v
    if spdSel s d c = 2 ∧ 2 * v.natAbs < spdDown s d c * 2 ^ 24 then setMethod s2 d c true else s2

/-- SPEED_WINDOW: the next tick that is a multiple of W (R94). -/
def execSpeedWindow (d c : Nat) (s : State) : Host.Outcome State Fault Refusal :=
  if encOn s d c && decide (encMode s d c ≠ 7) then
    ok (windowEnd (waitClock s (nextAt s d (spdW s d c) (enc s d c).spdAt)) d c)
  else ok s

/-- PERIOD_SPEED_LIMIT: the next 64 ticks without an edge have passed (R95). -/
def execPeriodSpeedLimit (d c : Nat) (s : State) : Host.Outcome State Fault Refusal :=
  if encOn s d c && spdPeriod s d c then
    let x := enc s d c
    let k := x.edgeClock + max 1 (ceilDiv (s.clock - x.edgeClock) 64) * 64
    let s1 := waitClock s (if x.limAt = some k then k + 64 else k)
    let s2 := setEnc s1 d c { enc s1 d c with limAt := some s1.clock }
    let kk := spdK s d c
    match x.edges[kk - 1]? with
    | none => ok s2
    | some e =>
      let lim := roundAway ((kk : Int) * 2 ^ 40) (max 1 (tickDiff (now s2 d) e.1))
      ok (if lim < (spdOf s2 d c).natAbs then setSpd s2 d c (if spdOf s2 d c < 0 then -lim else lim) else s2)
  else ok s

/-- SPEED_STOPPED: 2^24 ticks have passed without an edge (R95). -/
def execSpeedStopped (d c : Nat) (s : State) : Host.Outcome State Fault Refusal :=
  if encOn s d c && spdPeriod s d c then
    let s1 := waitClock s ((enc s d c).edgeClock + 2 ^ 24)
    ok (wb (setSpd s1 d c 0) (pgEnc d c) Off.SPD_STAT 2 true)
  else ok s

/-! Serial frames (R97 to R101). -/

/-- `SER_CFG.BITS`, clamped. -/
def serBits (s : State) (d c : Nat) : Nat := clampN 8 48 (rf s (pgEnc d c) Off.SER_CFG 0 6)

/-- A failed frame (R101). -/
def serFail (s : State) (d c code : Nat) : State :=
  let p := pgEnc d c
  let n := min (rf s p Off.SER_STAT 16 8 + 1) 255
  let s1 := wf (wf (count s p Off.CNT_SER_BAD) p Off.SER_STAT 16 8 n) p Off.SER_STAT 0 4 code
  let s2 := raise (setEnc s1 d c { enc s1 d c with serBusy := false }) p 6
  let m := rf s p Off.SER_TMO 8 8
  if m ≠ 0 ∧ m ≤ n then fencePage s2 p 0x0D else s2

/-- SERIAL_FRAME_START: the next frame is due; `slo` is the level of SLO (R97, R99). The first falling edge of MA is taken to
stand at the ball in the tick in which the frame is due (DESIGN CHOICE, log entry 62). -/
def execSerialFrameStart (d c : Nat) (slo : Bool) (s : State) : Host.Outcome State Fault Refusal :=
  if encOn s d c && encSerial s d c then
    let x := enc s d c
    let s1 := waitClock s (x.serAt.getD s.clock + max 1 (rdN s (pgEnc d c) Off.SER_PERIOD))
    let y := { enc s1 d c with serAt := some s1.clock }
    if x.serBusy then ok (setEnc s1 d c y)
    else if !slo && decide (encMode s d c = 3) then ok (serFail (setEnc s1 d c y) d c 1)
    else
      let stamp := (now s1 d : Int) - rf s1 (pgEnc d c) Off.SER_LAT 0 16
      ok (padB s1 (setEnc s1 d c { y with serBusy := true, serStamp := uns 48 stamp }) d c)
  else ok s

/-- Gray code to binary, `n` bits. -/
def grayBin : Nat → Nat → Nat
  | 0, _ => 0
  | n + 1, v => Nat.xor v (grayBin n (v / 2))

/-- One bit of the CRC-6 of R100 (polynomial 0x43). -/
def crc6Bit (crc : Nat) (b : Bool) : Nat :=
  let fb := Nat.xor (crc / 32) (b2n b)
  let r := crc * 2 % 64
  if fb = 1 then Nat.xor r 3 else r

/-- The CRC-6 sent on the line: inverted (R100). -/
def crc6 (bits : List Bool) : Nat := 63 - bits.foldl crc6Bit 0

/-- The first check that a frame fails (R99, R100). -/
def serCheck (s : State) (d c : Nat) (f : SerFrame) : Option Nat :=
  let bits := bitsMsb (serBits s d c) f.raw
  if encMode s d c = 3 then
    if rb s (pgEnc d c) Off.SER_CFG 7 ∧ (bits ++ [f.parity]).foldl (· != ·) false then some 4 else none
  else if !f.start then some 3
  else if f.crc % 64 ≠ crc6 (bits ++ [f.nE, f.nW]) then some 5
  else if !f.nE then some 6
  else none

/-- A frame with one bit inverted by fault injection (R101). -/
def serCorrupt (s : State) (d c : Nat) (f : SerFrame) : SerFrame :=
  if encMode s d c = 4 then { f with crc := Nat.xor f.crc 1 }
  else if rb s (pgEnc d c) Off.SER_CFG 7 then { f with parity := !f.parity }
  else f

/-- The position of a frame; a corruption without parity inverts its most significant bit after decoding (R97,
R101). -/
def serValue (s : State) (d c : Nat) (f : SerFrame) (corrupt : Bool) : Nat :=
  let n := serBits s d c
  let v := f.raw % 2 ^ n
  let g := if rb s (pgEnc d c) Off.SER_CFG 6 then grayBin n v else v
  if corrupt && decide (encMode s d c = 3) && !rb s (pgEnc d c) Off.SER_CFG 7 then Nat.xor g (2 ^ (n - 1)) else g

/-- A frame that is used: `POS` is extended (R98) and the estimator gets a pair (R104). A first frame of 48 bits whose
value does not fit a signed count wraps, and latches POS_WRAP as every wrap does (DEDUCED, log entry 64). -/
def serUse (s : State) (d c : Nat) (value : Nat) (delta : Option Int) (warn : Bool) : State :=
  let p := pgEnc d c
  let x := enc s d c
  let s1 := setEnc s d c { x with serPrev := some value, serLast := some x.serStamp, serBusy := false }
  let s2 := wb (wf s1 p Off.SER_STAT 16 8 0) p Off.SER_STAT 4 warn
  let s3 := match delta with
    | none => setPos s2 d c value
    | some z => setPos (if z = 0 then s2 else wb s2 p Off.SPD_STAT 1 (decide (z < 0))) d c (encPos s2 d c + z)
  let s4 := if warn then raise s3 p 7 else s3
  latchAgain (setEnc s4 d c { enc s4 d c with pair := some (2 * encPos s4 d c, x.serStamp) }) d c

/-- A frame that passed its checks (R98, R101). -/
def serPassed (s : State) (d c : Nat) (value : Nat) (warn : Bool) : State :=
  let p := pgEnc d c
  let x := enc s d c
  let n := serBits s d c
  match x.serPrev with
  | none => serUse s d c value none warn
  | some prev =>
    let delta := sgn n (uns n ((value : Int) - prev))
    let jump := rdN s p Off.SER_JUMP
    if jump ≠ 0 ∧ jump < delta.natAbs then serFail s d c 8
    else serUse s d c value (some (if rb s p Off.ENC_CFG 3 then -delta else delta)) warn

/-- A frame that is discarded as STALE (R101). -/
def serStale (s : State) (d c : Nat) : State :=
  let s1 := wf (count s (pgEnc d c) Off.CNT_SER_STALE) (pgEnc d c) Off.SER_STAT 0 4 9
  setEnc s1 d c { enc s1 d c with serBusy := false }

/-- The measured line delay is shown (R100); one that the field cannot hold is not stated. -/
def serLine (s : State) (d c line : Nat) : State :=
  if encMode s d c ≠ 4 then s
  else if line < 256 then wf s (pgEnc d c) Off.SER_STAT 8 8 line
  else nextFree (wf s (pgEnc d c) Off.SER_STAT 8 8 (freeBelow s 256))

/-- The end of a frame (R98 to R101, R414). -/
def serEnd (s : State) (d c : Nat) (f : SerFrame) : State :=
  let (inj, s0) := injPick s d 2 0 c
  let x := enc s0 d c
  if inj = 1 then serFail s0 d c (if encMode s d c = 3 then 1 else 2)
  else
    let s1 := serLine s0 d c f.line
    let g := if inj = 2 then serCorrupt s d c f else f
    match serCheck s1 d c g with
    | some code => serFail s1 d c code
    | none =>
      let old := match x.serLast with | some t => decide (tickDiff x.serStamp t ≤ 0) | none => false
      if inj = 3 || old then serStale s1 d c
      else serPassed s1 d c (serValue s d c g (decide (inj = 2))) (decide (encMode s d c = 4) && !f.nW)

/-- The frame in progress at `EN` := 0 ends (R110): the channel has stopped counting, so it is not used (DEDUCED, log entry
63). -/
def serShut (s : State) (d c : Nat) : State :=
  if decide (c < 8) && decide (pstate s (pgEnc d c) = stShutting) && encSerial s d c && awake s d then serDrop s d c else s

/-- SERIAL_FRAME_END: the frame in progress has been received (R98 to R101). -/
def execSerialFrameEnd (d c : Nat) (f : SerFrame) (s : State) : Host.Outcome State Fault Refusal :=
  if encOn s d c && encSerial s d c && (enc s d c).serBusy then ok (padB s (serEnd s d c f) d c)
  else ok (serShut s d c)

/-- SERIAL_TIMEOUT: no acknowledge (`ack`, BiSS-C), or SLO stays low after the frame (R99, R100). -/
def execSerialTimeout (d c : Nat) (ack : Bool) (s : State) : Host.Outcome State Fault Refusal :=
  if encOn s d c && encSerial s d c && (enc s d c).serBusy && (!ack || decide (encMode s d c = 4)) then
    ok (padB s (serFail s d c (if ack then 2 else 7)) d c)
  else ok (serShut s d c)

/-! The estimator (R104 to R108). -/

/-- Store and publish an estimate that holds now (R104 to R107). -/
def estPublish (s : State) (d c : Nat) (p v a : Int) (valid : Bool) : State :=
  let g := pgEnc d c
  let t := now s d
  let s1 := setEnc s d c { enc s d c with p := p, v := v, a := a, tk := t }
  let s2 := wr48 (wr48 s1 g Off.EST_POS_L (uns 48 p)) g Off.EST_VEL_L (uns 48 v)
  let s3 := wr48 (wr48 s2 g Off.EST_ACC_L (uns 48 a)) g Off.EST_TS_L t
  let s4 := setDyn (wb s3 g Off.EST_STAT 0 valid) g 8 valid
  encSend (setDyn s4 g 12 (rb s4 g Off.EST_STAT 2)) d c (.estimate ⟨sgn 48 (uns 48 p), v, a, t, valid⟩)

/-- The prediction error r of R104, 2^-48 counts: `p` and `v` are the prediction in 2^-48 counts and 2^-47 counts per
tick, `c` the present count. -/
def estError (pair : Option (Int × Nat)) (incr : Bool) (p v : Int) (c : Int) (t : Nat) : Int :=
  match pair with
  | some (z, tz) => sgn 96 (uns 96 (z * 2 ^ 47 - (p - 2 * v * tickDiff t tz)))
  | none =>
    let lag := sgn 96 (uns 96 (p - c * 2 ^ 48))
    if incr && decide (lag < -(2 ^ 47)) then -(2 ^ 47) - lag
    else if incr && decide (2 ^ 47 < lag) then 2 ^ 47 - lag
    else 0

/-- p, v and a after an update that does not restart (R104), and the free values it used. -/
def estNext (s : State) (d c : Nat) : (Int × Int × Int) × State :=
  let g := pgEnc d c
  let x := enc s d c
  let k := encPer s d c
  let dt : Int := 2 ^ k
  let p := x.p * 2 ^ 24 + x.v * 2 ^ 8 * dt + x.a * dt * dt
  let v := x.v * 2 ^ 7 + x.a * dt
  let r := estError x.pair (encIncr s d c) p v (encPos s d c) (now s d)
  let s1 := nextFree s
  let s2 := nextFree s1
  let p1 := nearest s (p * 2 ^ 24 + rdN s g Off.EST_ALPHA * r) (2 ^ 48)
  let v1 := nearest s1 (v * 2 ^ (25 + k) + rdN s g Off.EST_BETA * r) (2 ^ (32 + k))
  let a1 := nearest s2 (x.a * 2 ^ (25 + 2 * k) + 2 * rdN s g Off.EST_GAMMA * r) (2 ^ (25 + 2 * k))
  let (v2, s3) := fit48 (nextFree s2) v1
  let (a2, s4) := fit48 s3 a1
  ((sgn 72 (uns 72 p1), v2, a2), s4)

/-- The restart update (R105). -/
def estRestart (s : State) (d c : Nat) : (Int × Int × Int) × State :=
  let x := enc s d c
  let z := match x.pair with | some (z, _) => z | none => 2 * encPos s d c
  let s1 := setEnc s d c { x with restart := false, quiet := 0 }
  ((z * 2 ^ 23, spdOf s d c, 0), wf (raise s1 (pgEnc d c) 9) (pgEnc d c) Off.EST_STAT 8 8 (rf s (pgEnc d c) Off.EST_CFG 8 8))

/-- Standstill (R105): p, v and a after the rule. -/
def estStill (s : State) (d c : Nat) (e : Int × Int × Int) : (Int × Int × Int) × State :=
  let g := pgEnc d c
  let x := enc s d c
  let quiet := if x.pair = none then x.quiet + 1 else 0
  let n := rf s g Off.EST_CFG 16 8
  let still := decide (n ≠ 0) && decide (n ≤ quiet) && encIncr s d c
  let s1 := setEnc s d c { x with quiet := quiet, pair := none }
  (if still then (encPos s d c * 2 ^ 24, 0, 0) else e,
    if still then wb s1 g Off.EST_STAT 2 true else if quiet = 0 then wb s1 g Off.EST_STAT 2 false else s1)

/-- An update of the estimator (R104, R105). -/
def estUpdate (s : State) (d c : Nat) : State :=
  let g := pgEnc d c
  let (e, s1) := if (enc s d c).restart then estRestart s d c else estNext s d c
  let (e2, s2) := estStill s1 d c e
  let left := rf s2 g Off.EST_STAT 8 8
  let s3 := wf s2 g Off.EST_STAT 8 8 (left - 1)
  estPublish (wb s3 g Off.EST_STAT 1 (decide (1 < left))) d c e2.1 e2.2.1 e2.2.2 (decide (left = 0))

/-- p, v and a of a virtual channel at this tick (R108). -/
def virtEst (s : State) (d c : Nat) : Int × Int × Int :=
  if encMode s d c = 5 then (sgn 72 (uns 72 (openRound s (virtAcc s d c) (2 ^ 16))), virtRate s d c, 0)
  else
    let m := axMotion s d (virtAxis s d c)
    (sgn 72 (uns 72 (openRound s (m.1 + (enc s d c).acc * 2 ^ 16) (2 ^ 32))), nearest (nextFree s) m.2.1 (2 ^ 15),
      nearest (nextFree (nextFree s)) m.2.2 (2 ^ 8))

/-- The axis of a VIRT_AXIS channel is absent or OFF (R108). -/
def virtGone (s : State) (d c : Nat) : Bool :=
  let p := pgAx d (virtAxis s d c)
  decide (encMode s d c = 6) && (!present s p || decide (pstate s p = stOff))

/-- A virtual channel publishes (R108). When its axis is absent or OFF its estimate is no longer valid (DEDUCED, log entry
65: the manual names only SOURCE_LOST). -/
def virtUpdate (s : State) (d c : Nat) : State :=
  let g := pgEnc d c
  let x := enc s d c
  if virtGone s d c then
    if x.remoteLost then s else encLost (encInvalid (setEnc s d c { x with remoteLost := true }) d c) d c
  else
    let s1 := virtFollow (setEnc s d c { x with remoteLost := false, restart := false, quiet := 0 }) d c
    let e := virtEst s1 d c
    estPublish (wf (wf (nextFree (nextFree (nextFree s1))) g Off.EST_STAT 1 2 0) g Off.EST_STAT 8 8 0) d c e.1 e.2.1 e.2.2 true

/-- ESTIMATOR_UPDATE: the next tick that is a multiple of dt (R104, R108). -/
def execEstimatorUpdate (d c : Nat) (s : State) : Host.Outcome State Fault Refusal :=
  if encOn s d c && decide (encMode s d c ≠ 7) then
    let s1 := waitClock s (nextAt s d (2 ^ encPer s d c) (enc s d c).updAt)
    let s2 := setEnc s1 d c { enc s1 d c with updAt := some s1.clock }
    ok (if encMode s d c ≤ 4 then estUpdate s2 d c else virtUpdate s2 d c)
  else ok s

/-! REMOTE channels (R109). -/

/-- The channel has lost its source: SOURCE_LOST once (R109), and its estimate is no longer valid (DEDUCED, log entry 65: the
manual names only SOURCE_LOST). -/
def remoteLose (s : State) (d c : Nat) : State :=
  let x := enc s d c
  if x.remoteLost then s else encLost (encInvalid (setEnc s d c { x with remoteLost := true }) d c) d c

/-- An estimate of the source (R109). -/
def remoteEst (s : State) (d c : Nat) (e : Est) : State :=
  let (sd, sc) := remoteSrc s d c
  let s1 := setEnc s d c { enc s d c with
    remote := e, remoteAt := s.clock, remotePer := 2 ^ encPer s sd sc, remoteLost := false, p := e.p, v := e.v, a := e.a, tk := e.t }
  let g := pgEnc d c
  let s2 := wr48 (wr48 s1 g Off.EST_POS_L (uns 48 e.p)) g Off.EST_VEL_L (uns 48 e.v)
  let s3 := wr48 (wr48 s2 g Off.EST_ACC_L (uns 48 e.a)) g Off.EST_TS_L e.t
  encSend (setDyn (wb s3 g Off.EST_STAT 0 e.valid) g 8 e.valid) d c (.estimate e)

/-- A message of the source reaches the channel (R109). -/
def remoteTake (s : State) (d c : Nat) (m : HopMsg) : State :=
  let s1 := { s with hops := s.hops.erase m }
  if !running s (pgEnc d c) || decide (encMode s d c ≠ 7) then s1
  else
    let s2 := pdMoved (wr48 (wr48 (winSync s1 d c) (pgEnc d c) Off.POS_L m.pos) (pgEnc d c) Off.SPD_L m.spd) d c
    match m.kind with
    | .estimate e => remoteEst s2 d c e
    | .step z t => encSend (winShift s2 d c z) d c (.step z t)
    | .lost => remoteLose s2 d c
    | .pdEdge _ _ _ _ => s2

/-- REMOTE_ESTIMATE_RECEIVE: the oldest message on its way to the channel arrives (R109). -/
def execRemoteEstimateReceive (d c : Nat) (s : State) : Host.Outcome State Fault Refusal :=
  match s.hops.find? fun m => decide (m.die = d) && decide (m.chan = c) with
  | some m => ok (remoteTake s d c m)
  | none => ok s

/-- The channel has no source to mirror (R109). -/
def remoteGone (s : State) (d c : Nat) : Bool :=
  let (sd, sc) := remoteSrc s d c
  decide (sd = d) || decide (s.part.dies ≤ sd) || isolated s sd || !running s (pgEnc sd sc) || !reaches s d sd

/-- REMOTE_SOURCE_LOST: the source is gone, or the remote timeout passes (R109). -/
def execRemoteSourceLost (d c : Nat) (s : State) : Host.Outcome State Fault Refusal :=
  if encOn s d c && decide (encMode s d c = 7) then
    let x := enc s d c
    let (sd, _) := remoteSrc s d c
    if remoteGone s d c then ok (remoteLose s d c)
    else ok (remoteLose (waitClock s (x.remoteAt + 4 * x.remotePer + 40 * hopsBetween s d sd)) d c)
  else ok s

/-! Hand-overs, start and stop (R84, R88 to R90, R105, R110). -/

/-- The decode windows start again with the raw sample at clock `k` (R84, R89). The manual does not say what becomes of the
count edges that the period method has recorded: they are forgotten (DESIGN CHOICE, log entry 66). -/
def decodeRestart (s : State) (d c k : Nat) : State :=
  setEnc s d c { enc s d c with startAt := k, sampleAt := k, zAt := k, hasRef := false, zRef := false, edges := [], edgeClock := s.clock, limAt := none }

/-- The accumulator of a virtual mode takes over the count (R88, R89, R108). -/
def virtTake (s : State) (d c : Nat) (pos : Int) : State :=
  let acc := if encMode s d c = 6 then (pos - axPos s d (virtAxis s d c)) * 2 ^ 40 else pos * 2 ^ 40
  setEnc s d c { enc s d c with acc := acc, accAt := s.clock }

/-- The speed method follows a new `SPD_CFG.SEL` (R96). -/
def spdFollow (s : State) (d c : Nat) : State := wb s (pgEnc d c) Off.SPD_STAT 0 (decide (spdSel s d c ≠ 0))

/-- After a hand-over that changed `MODE` or `FILT` (R84, R89, R105). -/
def modeTurn (s : State) (d c : Nat) (pos : Int) : State :=
  let s1 := decodeRestart s d c (s.clock + 1)
  let s2 := virtTake (wr48 s1 (pgEnc d c) Off.POS_L (uns 48 pos)) d c pos
  setEnc s2 d c { enc s2 d c with
    restart := true, serBusy := false, serAt := some s.clock, remoteAt := s.clock, remoteLost := false }

/-- A hand-over of a channel's page (R89, R90, R96, R108). -/
def encHandOver (s : State) (d c : Nat) : State :=
  let p := pgEnc d c
  let up := running s p
  let s0 := if up then virtFollow s d c else winSync s d c
  let pos := encPos s0 d c
  let acc := virtAcc s0 d c
  let mode := encMode s d c
  let s1 := if up && decide (mode = 5) then setEnc s0 d c { enc s0 d c with acc := acc, accAt := s.clock } else s0
  let s2 := takeShadows s1 p
  let s3 := if up && (decide (encMode s2 d c ≠ mode) || decide (encN s2 d c ≠ encN s d c)) then modeTurn s2 d c pos else s2
  let s4 := if spdSel s3 d c ≠ spdSel s d c then spdFollow s3 d c else s3
  padB s (pdMoved (if rb s4 p Off.POS_CTRL 0 then encLoad s4 d c else s4) d c) d c

/-- The channel enters RUNNING (R84, R88, R91, R98, R105). -/
def encStart (s : State) (d c : Nat) : State :=
  let pos := encPos (setPstate s (pgEnc d c) stOff) d c
  let x := enc s d c
  let s1 := setEnc s d c { x with
    counted := false, back := false, pair := none, restart := true, quiet := 0, winBad := false
    win := List.replicate 17 (s.clock, pos, pos), winAt := s.clock
    serBusy := false, serPrev := none, serLast := none, serAt := some s.clock, remoteAt := s.clock, remoteLost := false }
  spdFollow (virtTake (decodeRestart s1 d c s.clock) d c pos) d c

/-- The channel leaves RUNNING on `EN` := 0 (R107, R110, R112). -/
def encStop (s : State) (d c : Nat) : State :=
  let s1 := pdUnlock s d c fun _ => true
  encLost (encInvalid s1 d c) d c

/-- A timebase step of the die (R75, R94, R105): pairs stamped before T_step are discarded, and so, by DESIGN CHOICE (log
entry 66), are the count edges of the period method, whose stamps lie before it. -/
def encTimeStep (s : State) (d c : Nat) : State :=
  serDrop (setEnc s d c { enc s d c with restart := true, winBad := true, pair := none, edges := [] }) d c

end Sys2Proof.Machine
end

