-- ==== Sys2Proof/Machine/Timebase.lean ====
section
/-!
DEFINITION. The timebase (R59 to R71): crystal compensation, source failure, seconds, time across dies; and its
hand-over.
-/
namespace Sys2Proof.Machine

/-! Compensation (R59 to R61). -/

/-- Mirror a register of die 0's TIMEBASE page to every die (R61). -/
def tbMirror (s : State) (off : Nat) : State := each (dieList s) s fun t d => wr t (pgTb d) off (rd s (pgTb 0) off)

/-- The correction of the timebase PLL before its clamp, ppb (R60). -/
def steerSum (s : State) : Int :=
  (if rb s (pgTb 0) Off.TB_CTRL 0 ∧ !rb s (pgTb 0) Off.TB_STAT 0 then sgn 24 (rdN s (pgTb 0) Off.TB_COMP) else 0)
    + sgn 24 (rdN s (pgTb 0) Off.TB_TRIM) + sgn 24 (rdN s pgTsync Off.TS_FREQ)

/-- `COMP_ACTIVE` and `COMP_SAT` follow on every die (R60, R61, R80). -/
def tbFollow (s : State) : State :=
  let sat := decide (500000 < (steerSum s).natAbs)
  let act := rb s (pgTb 0) Off.TB_CTRL 0 && !rb s (pgTb 0) Off.TB_STAT 0
  each (dieList s) s fun s d => setDyn (wb (wb s (pgTb d) Off.TB_STAT 4 sat) (pgTb d) Off.TB_STAT 3 act) (pgTb d) 5 sat

/-- The interpolated correction for a crystal temperature in 1/64 °C (R59); beyond the table it is not stated. -/
def xtalCorr (s : State) (temp : Int) : Int :=
  let x := temp + 40 * 64
  if x < 0 ∨ 160 * 64 < x then sgn 24 (freeBelow s (2 ^ 24))
  else
    let i := (x / 640).toNat
    let a := s.pkg.xtal.getD i 0
    let b := s.pkg.xtal.getD (i + 1) a
    openRound s (a * 640 + (b - a) * (x - 640 * i)) 640

/-- One step of `TS_FREQ` back to 0 after a soft reset of TSYNC (R79). -/
def freqRelax (s : State) : State :=
  if !s.tsync.relax then s
  else
    let f := sgn 24 (rdN s pgTsync Off.TS_FREQ)
    let g := f - clampI (-50) 50 f
    { wr s pgTsync Off.TS_FREQ (wordI g) with tsync := { s.tsync with relax := decide (g ≠ 0) } }

/-- The reading and the update of `TB_COMP` (R59). -/
def xtalUpdate (s : State) (temp : Int) : State :=
  let old := sgn 24 (rdN s (pgTb 0) Off.TB_COMP)
  let new := old + clampI (-50) 50 (xtalCorr s temp - old)
  let s1 := wr (wr (nextFree s) (pgTb 0) Off.TB_XTEMP (word (uns 16 temp))) (pgTb 0) Off.TB_COMP (wordI new)
  let s2 := { s1 with pkg := { s1.pkg with compAt := some s1.clock } }
  tbFollow (freqRelax (tbMirror (tbMirror s2 Off.TB_XTEMP) Off.TB_COMP))

/-- XTAL_COMP_UPDATE: 10 ms after the last reading (R59). -/
def execXtalCompUpdate (temp : Int) (s : State) : Host.Outcome State Fault Refusal :=
  ok (xtalUpdate (match s.pkg.compAt with | none => s | some c => waitClock s (c + 2500000)) temp)

/-- The timebase runs from the internal oscillator (R61): SRC and XTAL_FAIL on every die. -/
def toInternal (s : State) : State :=
  let s1 := each (dieList s) s fun s d =>
    let s1 := raise (wb s (pgTb d) Off.TB_STAT 0 true) (pgTb d) 0
    setAssay s1 d { assay s1 d with xtalLost := true }
  allowedFollow (tbFollow s1)

/-- XTAL_FAIL (R61). -/
def execXtalFail (s : State) : Host.Outcome State Fault Refusal :=
  ok (if rb s (pgTb 0) Off.TB_STAT 0 then s else toInternal s)

/-- A die's PLL is unlocked (R62). -/
def pllLost (s : State) (d : Nat) : State :=
  let s1 := setDie s d { die s d with pllLocked := false, pllSince := s.clock }
  setDyn (wb s1 (pgTb d) Off.TB_STAT 2 false) (pgTb d) 1 true

/-- PLL_UNLOCK (R62). -/
def execPllUnlock (d : Nat) (s : State) : Host.Outcome State Fault Refusal :=
  ok (if decide (d < s.part.dies) && (die s d).pllLocked && awake s d then fenceDie (pllLost s d) d 4 else s)

/-! Ticks and seconds (R65 to R67). -/

/-- WRAP: the counter reaches 2^48 − 1 and passes to 0 (R65). -/
def execWrap (d : Nat) (s : State) : Host.Outcome State Fault Refusal :=
  ok (if d < s.part.dies ∧ (die s d).counting then ticksPass s (ticksFor s d (tickMod - now s d)) else s)

/-- The seconds counter takes a value; `SEC_EDGE_TS` takes each die's local tick (R66, R67). -/
def setSeconds (s : State) (v : Nat) : State :=
  let s1 := { s with pkg := { s.pkg with seconds := v % tickMod, secFrac := 0, edgeAt := s.clock } }
  each (dieList s) s1 fun s d => raise (wr48 s (pgTb d) Off.SEC_EDGE_TS_L (now s d)) (pgTb d) 2

/-- A seconds edge, with what happens on it (R66, R325, R354). -/
def secEdge (s : State) : State :=
  each (dieList s) (setSeconds s (s.pkg.seconds + 1)) fun s d => lampSecond (asHourly s d) d

/-- SEC_EDGE: 250,000,000 ticks after the last (R66); the first edge after a wake keeps the sub-second phase (R68). -/
def execSecEdge (s : State) : Host.Outcome State Fault Refusal :=
  ok (if (die s 0).counting && powered s then
    secEdge (waitTick s 0 (rd48 s (pgTb 0) Off.SEC_EDGE_TS_L + (250000000 - s.pkg.secFrac)))
  else s)

/-- A hand-over of a TIMEBASE page (R60, R67). -/
def tbHandOver (s : State) (d : Nat) : State :=
  let s1 := takeShadows s (pgTb d)
  if d ≠ 0 then s1
  else
    let s2 := if s.pkg.secSetSeen then
        let s2 := setSeconds s1 (rd48 s1 (pgTb 0) Off.SEC_SET_L)
        { s2 with pkg := { s2.pkg with secSetSeen := false }, tsync := { s2.tsync with secSet := true } }
      else s1
    tbFollow s2

/-! Time across dies (R69 to R71). -/

/-- `SYNC_OK` of a die, with SYNC_LOST (R70). In HOLDOVER it stays as it was (DESIGN CHOICE: no source reports). -/
def setSyncOk (s : State) (d : Nat) (b : Bool) : State :=
  let was := rb s (pgTb d) Off.TB_STAT 5
  let s1 := setDyn (wb s (pgTb d) Off.TB_STAT 5 b) (pgTb d) 4 (!b)
  if b && !was then setDie s1 d { die s1 d with syncSince := s.clock } else s1

/-- The die from which a die takes its phase now, by `SYNC_SRC`. -/
def syncFrom (s : State) (d : Nat) : Option Nat :=
  match rf s (pgTb d) Off.TB_STAT 6 2 with
  | 1 => some ((d + 1) % s.part.dies)
  | 2 => some ((d + s.part.dies - 1) % s.part.dies)
  | _ => none

/-- The die measures its offset, in 1/64 tick (R69 to R71). -/
def skewTake (s : State) (d e : Nat) (off : Int) : State :=
  let s1 := wr s (pgTb d) Off.DIE_SKEW (word (uns 16 (satI 16 off)))
  let ph := (die s d).phase - clampI (-1) 1 off
  let s2 := setDie s1 d { die s1 d with phase := ph }
  let s3 := setSyncOk s2 d (decide (off.natAbs ≤ 1) && rb s (pgTb e) Off.TB_STAT 5)
  let s4 := { s3 with pkg := { s3.pkg with exchAt := Tbl.put s3.pkg.exchAt d s.clock } }
  if 64 < off.natAbs then fenceDie s4 d 5 else s4

/-- TIME_FLIT_EXCHANGE: 1,024 ticks after the last exchange the die measures the offset `off` (R69); a TIME flit
of die 0 counts for the watchdog (R410). -/
def execTimeFlitExchange (d : Nat) (off : Int) (s : State) : Host.Outcome State Fault Refusal :=
  ok (match (if 0 < d ∧ d < s.part.dies then syncFrom s d else none) with
    | none => s
    | some e =>
      let s1 := if Tbl.has s.pkg.exchAt d then waitClock s (Tbl.get s.pkg.exchAt d 0 + 1024) else s
      skewTake (if e = 0 then setDie s1 d { die s1 d with lastFlit0 := s1.clock } else s1) d e off)

/-- The neighbour that a die can take as source: its own source, else the other one, over a link that is UP (R71). A die
beyond the failed link keeps the source it has, so two dies can name each other (DESIGN CHOICE: R71 moves only the die
that has lost its source). -/
def newSource (s : State) (d : Nat) : Option Nat :=
  let n := s.part.dies
  let l := [timeSource n d, (d + 1) % n, (d + n - 1) % n]
  l.find? fun e => match burimPort n d e with | some i => decide (burimState s d i = 2) | none => false

/-- The die takes another source, or is fenced without one (R71). -/
def sourceSwitch (s : State) (d : Nat) : State :=
  match newSource s d with
  | some e => wf s (pgTb d) Off.TB_STAT 6 2 (syncCode s.part.dies d e)
  | none => fenceDie (setSyncOk s d false) d 5

/-- TIME_SOURCE_SWITCH: a die in HOLDOVER changes its source (R71). -/
def execTimeSourceSwitch (d : Nat) (s : State) : Host.Outcome State Fault Refusal :=
  ok (if 0 < d ∧ d < s.part.dies ∧ rf s (pgTb d) Off.TB_STAT 6 2 = 3 then sourceSwitch s d else s)

end Sys2Proof.Machine
end

