-- ==== Sys2Proof/Machine/Tsync.lean ====
section
/-!
DEFINITION. Time between packages (R72 to R79).
-/
namespace Sys2Proof.Machine

/-- `TS_CFG.ROLE`. -/
def tsRole (s : State) : Nat := rf s pgTsync Off.TS_CFG 0 2
/-- P in ticks (R73). -/
def tsPeriod (s : State) : Nat := 2500 * clampN 4 100000 (rf s pgTsync Off.TS_PERIOD 0 17)
/-- The slew limit in ppb (R74). -/
def tsSlew (s : State) : Int := 1000 * clampN 1 200 (rf s pgTsync Off.TS_LIMIT 0 8)
/-- `TS_STAT.STATE`. -/
def tsState (s : State) : Nat := rf s pgTsync Off.TS_STAT 0 3
/-- A slave role. -/
def tsSlave (s : State) : Bool := running s pgTsync && decide (2 ≤ tsRole s)

/-- The slave takes a frame captured at `cap` (fine steps): in RUNNING, or after `EN` := 0 one that was then in progress
(R79). -/
def tsListens (s : State) (cap : Nat) : Bool :=
  tsSlave s || (decide (pstate s pgTsync = stShutting) && decide (2 ≤ tsRole s)
    && decide (tickDiff (cap / 16) s.tsync.stopAt ≤ 0))

/-- Set `TS_STAT.STATE`, with LOCKED and LOCK_LOST (R76, R81). The seconds are adopted once in each LOCKED, whatever
SEC_ADOPT does meanwhile (DESIGN CHOICE: R78 does not say when the counter is adopted again). -/
def setTsState (s : State) (st : Nat) : State :=
  let old := tsState s
  let s1 := wf s pgTsync Off.TS_STAT 0 3 st
  if old ≠ 3 ∧ st = 3 then
    let s2 := raise (wb s1 pgTsync Off.TS_STAT 3 false) pgTsync 0
    { s2 with tsync := { s2.tsync with adopted := false, slew := false } }
  else if old = 3 ∧ st ≠ 3 then raise s1 pgTsync 1
  else s1

/-! Frames sent (R72, R73). -/

/-- The clock of the next timing point. -/
def tsPoint (s : State) : Nat :=
  let p := tsPeriod s
  let n := uns 48 ((now s 0 : Int) - (rd48 s (pgTb 0) Off.SEC_EDGE_TS_L : Int)) % p
  let c := s.clock + (p - n) % p
  if s.tsync.sentAt = some c then c + p else c

/-- The words of a frame whose timing point is now (R72). -/
def tsWords (s : State) : List Word :=
  let t := now s 0
  let edge := decide (rd48 s (pgTb 0) Off.SEC_EDGE_TS_L = t)
  let lock := decide (tsRole s = 1) || decide (tsState s = 3)
  let w0 := word (0xA * 2 ^ 20 + b2n edge * 2 ^ 19 + b2n s.tsync.secSet * 2 ^ 18 + b2n lock * 2 ^ 17
    + b2n (!rb s (pgTb 0) Off.TB_STAT 0) * 2 ^ 16 + s.tsync.seq % 256 * 2 ^ 8)
  let ws := [w0, lo24 t, hi24 t, lo24 s.pkg.seconds, hi24 s.pkg.seconds]
  ws ++ [crcWords ws]

/-- The characters of a frame (R72). -/
def tsChars (ws : List Word) : List Chr := kComma :: ws.flatMap wordChars

/-- The words of a frame received: none where a character is invalid or the frame does not begin with K28.5. -/
def tsRead (cs : List Chr) : Option (List Word) :=
  match cs with
  | [] => none
  | c :: r => if c = kComma then charWords r else none

/-- A frame is sent; one that is due while the previous frame lasts is skipped (R72, R73). -/
def tsSend (s : State) : State :=
  let busy := match s.tsync.sentAt with | some c => decide (s.clock < c + 380) | none => false
  if busy then s
  else
    let s1 := emit s (.tsync (now s 0) (tsChars (tsWords s)))
    { s1 with tsync := { s1.tsync with seq := (s.tsync.seq + 1) % 256, sentAt := some s.clock } }

/-- TSYNC_FRAME_SEND: the next timing point of a master or a forwarding slave (R73). -/
def execTsyncFrameSend (s : State) : Host.Outcome State Fault Refusal :=
  ok (if running s pgTsync && (decide (tsRole s = 1) || decide (tsRole s = 3)) then tsSend (waitClock s (tsPoint s)) else s)

/-! Frames received (R74 to R76, R78). -/

/-- Contexts allow a step (R75). -/
def stepFree (s : State) : Bool :=
  (dieList s).all fun d => (List.range (nCtx s)).all fun k => !activeSt s d k

/-- The conditions of R75. -/
def stepOk (s : State) : Bool := rb s pgTsync Off.TS_CFG 4 && stepFree s && !inTransition s && decide (s.tsync.step = none)

/-- A step of `e` fine steps is needed (R75). -/
def tsNeedStep (s : State) (e : Int) : State :=
  if stepOk s then
    { wb s pgTsync Off.TS_STAT 4 true with tsync := { s.tsync with step := some (s.clock + 500, e), slew := false } }
  else
    let s1 := raise (wb s pgTsync Off.TS_STAT 3 true) pgTsync 4
    tbFollow { wr s1 pgTsync Off.TS_FREQ (wordI (if 0 ≤ e then tsSlew s else -tsSlew s)) with
               tsync := { s1.tsync with slew := true } }

/-- The servo (R74). -/
def tsServo (s : State) (e : Int) : State :=
  let lim := tsSlew s
  let g := s.tsync.integ + e * rf s pgTsync Off.TS_GAIN 8 8 / 256
  let f := e * rf s pgTsync Off.TS_GAIN 0 8 / 16 + g
  tbFollow { wr s pgTsync Off.TS_FREQ (wordI (clampI (-lim) lim f)) with
             tsync := { s.tsync with integ := clampI (-lim) lim g, slew := false } }

/-- Rows of good and bad frames move the state (R76). -/
def tsLock (s : State) (e : Int) : State :=
  let x := s.tsync
  let g := if e.natAbs ≤ 4 then x.goodRow + 1 else 0
  let b := if 8 < e.natAbs then x.badRow + 1 else 0
  let s1 := { s with tsync := { x with goodRow := g, badRow := b } }
  match tsState s with
  | 4 => setTsState s1 2
  | 2 => if 8 ≤ g then setTsState s1 3 else s1
  | 3 => if 2 ≤ b then setTsState s1 2 else s1
  | _ => s1

/-- The seconds counter is adopted from a frame (R78). -/
def tsAdopt (s : State) (ws : List Word) : State :=
  let w := ws.getD 0 0#24
  if rb s pgTsync Off.TS_CFG 5 && decide (tsState s = 3) && bit w 19 && bit w 18 && !s.tsync.adopted then
    let t := (ws.getD 1 0#24).toNat + 2 ^ 24 * (ws.getD 2 0#24).toNat
    let sec := (ws.getD 3 0#24).toNat + 2 ^ 24 * (ws.getD 4 0#24).toNat
    let gone := (tickDiff (now s 0) t).toNat / 250000000
    let s1 := each (dieList s) (setSeconds s (sec + gone)) fun s d => wr48 s (pgTb d) Off.SEC_EDGE_TS_L t
    raise { s1 with tsync := { s1.tsync with adopted := true, secSet := true } } pgTsync 5
  else s

/-- Periods that have passed without a frame before this one are counted (R76). -/
def tsMissed (s : State) : State :=
  let p := tsPeriod s
  let k := (s.clock - s.tsync.heardAt + p / 2) / p - 1
  let s1 := countBy s pgTsync Off.TS_MISSED (k - s.tsync.missed)
  { s1 with tsync := { s1.tsync with missed := 0, heardAt := s.clock } }

/-- A valid frame (R74): `e` in fine steps. -/
def tsFrame (s : State) (e : Int) (ws : List Word) : State :=
  let s1 := wf (tsMissed s) pgTsync Off.TS_STAT 16 8 (fld (ws.getD 0 0#24) 8 8)
  let s2 := wr s1 pgTsync Off.TS_OFFSET (wordI (satI 24 e))
  let s3 := if s2.tsync.step.isSome then s2
    else if (rf s pgTsync Off.TS_LIMIT 8 16 : Int) < e.natAbs then tsNeedStep s2 e
    else tsServo s2 e
  tsAdopt (tsLock s3 e) ws

/-- A frame passes the checks of R74: its length, type and CRC. -/
def tsGood (ws : List Word) : Bool :=
  decide (ws.length = 6) && decide (fld (ws.getD 0 0#24) 20 4 = 0xA) && decide (ws.getD 5 0#24 = crcWords (ws.take 5))

/-- The offset of a frame captured at `cap` from its own stamp and the cable delay, in fine steps (R74). -/
def tsOffset (s : State) (cap : Nat) (ws : List Word) : Int :=
  let t := (ws.getD 1 0#24).toNat + 2 ^ 24 * (ws.getD 2 0#24).toNat
  sgn 52 (uns 52 (((t * 16 + rf s pgTsync Off.TS_CABLE 0 20 : Nat) : Int) - cap))

/-- TSYNC_FRAME_RECEIVE: the characters of a frame captured at `cap` (fine steps of the local counter) (R72, R74). -/
def execTsyncFrameReceive (cap : Nat) (c : Chr) (cs : List Chr) (s : State) : Host.Outcome State Fault Refusal :=
  ok (if tsListens s cap then
    match tsRead (c :: cs) with
    | some ws => if tsGood ws then tsFrame s (tsOffset s cap ws) ws else raise (count s pgTsync Off.TS_BAD) pgTsync 2
    | none => raise (count s pgTsync Off.TS_BAD) pgTsync 2
  else s)

/-- A die's counter takes a step of `e` fine steps (R75). -/
def stepDie (s : State) (d : Nat) (e : Int) : State :=
  let n := e / 16
  let x := die s d
  let t := (x.tick : Int) + n
  let s1 := setDie s d { x with tick := uns 48 t, phase := x.phase + 4 * (e % 16) }
  let s2 := if t < 0 ∨ (tickMod : Int) ≤ t then raise s1 (pgTb d) 3 else s1
  let s3 := wr48 s2 (pgTb d) Off.SEC_EDGE_TS_L (uns 48 ((rd48 s (pgTb d) Off.SEC_EDGE_TS_L : Int) + n))
  each (List.range (nEnc s)) s3 fun s c => encTimeStep s d c

/-- STEP_APPLIED: T_step (R75). -/
def execStepApplied (s : State) : Host.Outcome State Fault Refusal :=
  match s.tsync.step with
  | none => ok s
  | some (c, e) =>
    let s1 := each (dieList s) (waitClock s c) fun s d => stepDie s d e
    let s2 := wf s1 pgTsync Off.TS_STAT 3 2 0
    ok (raise (count { s2 with tsync := { s2.tsync with step := none } } pgTsync Off.TS_STEPS) pgTsync 3)

/-- TSYNC_HOLDOVER: three periods, and each one after them, pass without a valid frame (R76). -/
def execTsyncHoldover (s : State) : Host.Outcome State Fault Refusal :=
  ok (if tsSlave s && decide (2 ≤ tsState s) then
    let k := if tsState s = 4 then s.tsync.missed + 1 else 3
    let s1 := waitClock s (s.tsync.heardAt + k * tsPeriod s)
    let s2 := countBy s1 pgTsync Off.TS_MISSED (k - s.tsync.missed)
    setTsState { s2 with tsync := { s2.tsync with missed := k, goodRow := 0, badRow := 0 } } 4
  else s)

/-! The page (R79). -/

/-- The servo starts in the state of its role (R79). -/
def tsRestart (s : State) : State :=
  let st := match tsRole s with | 0 => 0 | 1 => 1 | _ => 2
  setTsState { s with tsync := { s.tsync with
    integ := 0, goodRow := 0, badRow := 0, heardAt := s.clock, missed := 0, slew := false } } st

/-- The page enters RUNNING. `TS_FREQ` keeps the value it has until the servo first sets it, and a return to 0 after a soft
reset ends (DESIGN CHOICE: R79 keeps the value until `EN` := 1 and names no new one). -/
def tsStart (s : State) : State := tsRestart { s with tsync := { s.tsync with relax := false } }

/-- `EN` := 0 (R79): the frame in progress is still served. A step that waits for T_step is withdrawn for good (DESIGN
CHOICE: R75 does not say what becomes of it). -/
def tsStop (s : State) : State :=
  let s1 := stepDrop s
  { s1 with tsync := { s1.tsync with stopAt := now s 0 } }

/-- The clock at which the frame being sent ends (R72, R79). -/
def tsSentEnd (s : State) : Nat := match s.tsync.sentAt with | some c => c + 380 | none => 0

/-- The page is off (R79): `TS_FREQ` keeps its value. -/
def tsOff (s : State) : State := setTsState s 0

/-- A hand-over: a change of ROLE restarts the servo (R79). -/
def tsHandOver (s : State) : State :=
  let s1 := takeShadows s pgTsync
  if tsRole s1 ≠ tsRole s ∧ running s pgTsync then tsRestart s1 else s1

end Sys2Proof.Machine
end

