-- ==== Sys2Proof/Machine/Burim.lean ====
section
/-!
DEFINITION. The Burim links (R429 to R433): flits, virtual channels and credits, acceptance, replay, fault injection,
retraining, and the loss of a link and of dies (R405, R412, R432).
-/
namespace Sys2Proof.Machine

/-- The die and port at the far end of a port (R21). -/
def burimPeer (n d i : Nat) : Option (Nat × Nat) :=
  match (List.range n).find? fun e => decide (burimPort n d e = some i) with
  | none => none
  | some e => (burimPort n e d).map fun j => (e, j)

/-- Offset of a port's counter. -/
def buOff (i off : Nat) : Nat := off + 32 * i

/-- Count on a counter that counts modulo 2^24. -/
def countMod (s : State) (p : Pg) (off : Nat) : State := wr s p off (rd s p off + 1#24)

/-! Lost dies (R405). -/

/-- Die `d` is left out or lost: `FN_DIE_STAT`, DIE_LOST, and its fence with BURIM_LOST (R405, R410, R416). -/
def dieLost (s : State) (d : Nat) : State :=
  if d = 0 ∨ rb s (pgFence 0) Off.FN_DIE_STAT (16 + d) then s
  else
    let s1 := wb (wb s (pgFence 0) Off.FN_DIE_STAT (16 + d) true) (pgFence 0) Off.FN_DIE_STAT d false
    allowedFollow (sessClose (diesLearn (fenceDie (raise s1 (pgFence 0) 4) d 7)) d)

/-- The enumerated dies that no path leads to any more are lost (R405). -/
def losePathless (s : State) : State :=
  each ((dieList s).filter fun d => decide (d ≠ 0) && enumerated s d && !reaches s 0 d) s dieLost

/-! Retraining (R432). -/

/-- One side of the link enters RETRAINING. -/
def sideRetrain (s : State) (d i : Nat) : State :=
  let s1 := setBurim (wf s (pgBurim d) (Off.BU_STAT_0 + 4 * i) 0 3 3) d i
    { burim s d i with since := s.clock, attempts := 0, nak := none, errs := [] }
  raise (count s1 (pgBurim d) (buOff i Off.CNT_RETRAIN_burim)) (pgBurim d) (4 + i)

/-- The link of a port retrains: both its ends (R432). -/
def linkRetrain (s : State) (d i e j : Nat) : State := sideRetrain (sideRetrain s d i) e j

/-- One side enters DOWN (R432). -/
def sideDown (s : State) (d i : Nat) : State :=
  raise (setBurim (wf s (pgBurim d) (Off.BU_STAT_0 + 4 * i) 0 3 4) d i {}) (pgBurim d) (2 + i)

/-- A die whose time source lay across the lost link holds its phase until it takes another (R71); its `SYNC_OK` stays as it
was meanwhile (DESIGN CHOICE: R70 speaks of a source that reports). -/
def sourceGone (s : State) (d i : Nat) : State :=
  if rf s (pgTb d) Off.TB_STAT 6 2 = i + 1 then wf s (pgTb d) Off.TB_STAT 6 2 3 else s

/-- Flits of a lost link go along the other path, where one exists (R22, R432). -/
def flitsReroute (s : State) (d i : Nat) (fs : List Flit) : State :=
  each fs s fun s f =>
    match routePort s d f.dst (decide (i = 0)) with
    | some p => if p = i then s else setBurim s d p { burim s d p with queue := (burim s d p).queue ++ [f] }
    | none => s

/-- What a port still has to send: its replay buffer and the flits that wait. -/
def unsent (s : State) (d i : Nat) : List Flit := (burim s d i).buf ++ (burim s d i).queue

/-- A link is lost (R405, R432): both ends DOWN, one record by the lower-numbered die, routes, time sources, seams and
pathless dies follow, and the flits of both ends take the other path. -/
def linkDown (s : State) (d i e j : Nat) : State :=
  let s1 := sideDown (sideDown s d i) e j
  let lo := min d e
  let s2 := logRecord s1 lo lo { fenced := false, cause := ⟨0x17, 0, 1, if lo = d then i else j⟩ }
  let s3 := routesFollow (sourceGone (sourceGone s2 d i) e j)
  let s4 := flitsReroute (flitsReroute s3 d i (unsent s d i)) e j (unsent s e j)
  diesLearn (losePathless (seamsAll s4))

/-! Flits (R429 to R431, R433). -/

/-- Fault injection of the sending die is announced on a port (R433). -/
def announced (s : State) (e j : Nat) : Bool :=
  let c := rd s (pgInject e) Off.IJ_CFG
  running s (pgInject e) && injOk s e && decide (fld c 22 2 = 1) && bit c j && decide (fld c 20 2 ≠ 0)
    && decide (rdN s (pgInject e) Off.IJ_COUNT ≠ 0)

/-- Header word, route and payload of a flit, 1,000 bits in transmission order (R429); payload words that are not valid
are sent as 0, which no receiver reads. -/
def flitBody (f : Flit) (ack : Nat) : Nat :=
  let head := f.kind % 16 * 2 ^ 20 + f.seq % 1024 * 2 ^ 10 + ack % 1024
  let route := f.dst % 8 * 2 ^ 13 + f.src % 8 * 2 ^ 10 + f.vc % 4 * 2 ^ 8 + (f.words.length - 1) % 64
  let pay := (List.range 40).foldl (fun n i => n * 2 ^ 24 + (f.words.getD i 0#24).toNat) 0
  (head * 2 ^ 16 + route) * 2 ^ 960 + pay

/-- The CRC word over the 1,000 bits (R429, R460). -/
def flitCrc (body : Nat) : Nat := crcBits (bitsMsb 1000 body)

/-- A flit on the lanes: its 1,024 bits (R429). -/
def flitWire (f : Flit) (ack : Nat) : Nat := flitBody f ack * 2 ^ 24 + flitCrc (flitBody f ack)

/-- The flit and the ACK that the lanes' bits spell. -/
def flitRead (x : Nat) : Flit × Nat :=
  let body := x / 2 ^ 24
  let route := body / 2 ^ 960 % 2 ^ 16
  let head := body / 2 ^ 976 % 2 ^ 24
  let n := if head / 2 ^ 20 = 0 ∨ head / 2 ^ 20 = 4 then 0 else min 40 (route % 64 + 1)
  let ws := (List.range n).map fun i => word (body / 2 ^ (24 * (39 - i)))
  ({ seq := head / 2 ^ 10 % 1024, kind := head / 2 ^ 20, dst := route / 2 ^ 13, src := route / 2 ^ 10 % 8
     vc := route / 2 ^ 8 % 4, words := ws }, head % 1024)

/-- The flits of a replay buffer that an acknowledgement up to `q` leaves. -/
def afterAck (buf : List Flit) (q : Nat) : List Flit :=
  buf.filter fun f => decide (0 < (f.seq + 1024 - q) % 1024) && decide ((f.seq + 1024 - q) % 1024 ≤ 512)

/-- A flit that arrives at port `i` of die `d` acknowledges what the far end has received in order (R429). -/
def flitAckTake (s : State) (d i ack : Nat) : State :=
  setBurim s d i { burim s d i with buf := afterAck (burim s d i).buf ack }

/-! Credits and virtual channels (R430). -/

/-- A port has credit on a virtual channel. -/
def hasCredit (x : BurimSt) (v : Nat) : Bool := decide (Tbl.get x.spent v 0 < Config.burimCredits v + 1)

/-- A credit of a port is used, or given back. -/
def creditUse (x : BurimSt) (v : Nat) : BurimSt := { x with spent := Tbl.put x.spent v (Tbl.get x.spent v 0 + 1) }
def creditFree (x : BurimSt) (v : Nat) : BurimSt := { x with spent := Tbl.put x.spent v (Tbl.get x.spent v 0 - 1) }

/-- A waiting flit goes before another (R430): by its virtual channel, and in transit before local traffic. -/
def flitBefore (f g : Flit) : Bool :=
  decide (f.vc < g.vc) || (decide (f.vc = g.vc) && f.via.isSome && g.via.isNone)

/-- The flit of a queue that is sent first among those with credit; flits of one place keep their order. -/
def flitPick (x : BurimSt) : List Flit → Option Flit
  | [] => none
  | f :: r =>
    let g := flitPick x r
    if !hasCredit x f.vc then g
    else match g with
      | none => some f
      | some g => if flitBefore g f then some g else some f

/-- A die offers a flit of its own traffic at a port: it waits there if its route leads over the port (R22); the ways to the
die opposite take turns. TIME flits use virtual channel 0 (R430). -/
def flitOffer (s : State) (e j : Nat) (a : FlitIn) : State :=
  if a.kind = 0 ∨ a.dst = e ∨ s.part.dies ≤ a.dst ∨ routePort s e a.dst (die s e).turn ≠ some j then s
  else
    let f : Flit := { seq := 0, kind := a.kind, dst := a.dst, src := e, vc := if a.kind = 3 then 0 else a.vc % 4, words := a.words }
    let s1 := setBurim s e j { burim s e j with queue := (burim s e j).queue ++ [f] }
    if opposite s e a.dst then setDie s1 e { die s1 e with turn := !(die s1 e).turn } else s1

/-- A flit that has been accepted at port `i` of die `d` is taken there, and its credit returns to the sending port, or it
waits to be forwarded (R430). -/
def flitDeliver (s : State) (d i e j : Nat) (f : Flit) : State :=
  let back := setBurim s e j (creditFree (burim s e j) f.vc)
  if f.dst = d then back
  else match routePort s d f.dst (decide (i = 0)) with
    | some p => setBurim s d p { burim s d p with queue := (burim s d p).queue ++ [{ f with via := some i }] }
    | none => back

/-- The credit of a forwarded flit returns to the port from which it came as it leaves (R430). -/
def viaFree (s : State) (e : Nat) (f : Flit) : State :=
  match f.via.bind fun i => burimPeer s.part.dies e i with
  | some (c, k) => setBurim s c k (creditFree (burim s c k) f.vc)
  | none => s

/-! Arrival (R431). -/

/-- A flit of die 0 has arrived (R410). -/
def heardFrom (s : State) (d src : Nat) : State := if src = 0 then setDie s d { die s d with lastFlit0 := s.clock } else s

/-- A flit is accepted at port `i` of die `d` (R431). -/
def flitAccept (s : State) (d i e j : Nat) (f : Flit) (ack hop : Nat) : State :=
  let s1 := flitAckTake (setBurim s d i { burim s d i with last := f.seq }) d i ack
  let s2 := countMod s1 (pgBurim d) (buOff i Off.CNT_RX)
  let m := rf s2 (pgBurim d) (buOff i Off.LAT_MAX) 0 8
  let s3 := wf s2 (pgBurim d) (buOff i Off.LAT_MAX) 0 8 (min 255 (max m hop))
  flitDeliver (heardFrom s3 d f.src) d i e j f

/-- One NAK carrying the last good SEQ is sent, unless one is outstanding (R431). -/
def nakSend (s : State) (d i : Nat) : State :=
  let x := burim s d i
  if x.nak = none then setBurim s d i { x with nak := some x.last } else s

/-- One side enters UP; what the far end has not received in order is replayed (R432). -/
def sideUp (s : State) (d i e j : Nat) : State :=
  let s1 := flitAckTake s d i (burim s e j).last
  let x := burim s1 d i
  raise (setBurim (wf s1 (pgBurim d) (Off.BU_STAT_0 + 4 * i) 0 3 2) d i
    { x with attempts := 0, resend := x.buf.map fun f => f.seq, late := none }) (pgBurim d) i

/-- More CRC failures within 2^20 ticks than the limit allows (R432). -/
def errsOver (s : State) (d i : Nat) : Bool :=
  decide (max 1 (rf s (pgBurim d) Off.BU_CFG 8 8) < (burim s d i).errs.length)

/-- A flit with a CRC failure (R431, R432): counted, discarded, and one NAK sent; a failed replay or too many failures
retrain the link. -/
def flitBad (s : State) (d i e j : Nat) (ann replay : Bool) : State :=
  let s1 := count s (pgBurim d) (buOff i Off.CNT_CRC)
  let x := burim s1 d i
  let errs := (if ann then x.errs else x.errs ++ [s.clock]).filter fun t => decide (s.clock < t + 2 ^ 20)
  let s2 := setBurim s1 d i { x with errs := errs }
  if replay || errsOver s2 d i then linkRetrain s2 d i e j else nakSend s2 d i

/-- A flit arrives as the lanes' bits `x`: its CRC is checked (R460); IDLE and NAK flits carry no SEQ and acknowledge
(R429); any other is accepted if it is the next one, else discarded (R431). -/
def flitArrive (s : State) (d i e j x hop : Nat) (ann replay : Bool) : State :=
  let r := flitRead x
  if flitCrc (x / 2 ^ 24) ≠ x % 2 ^ 24 then flitBad s d i e j ann replay
  else if r.1.kind = 0 ∨ r.1.kind = 4 then heardFrom (flitAckTake s d i r.2) d r.1.src
  else if r.1.seq = ((burim s d i).last + 1) % 1024 then flitAccept s d i e j r.1 r.2 hop
  else nakSend s d i

/-- A flit on the lanes from port `j` of die `e`, with its ACK and the errors of the crossing. -/
def onLanes (s : State) (e j noise : Nat) (f : Flit) : Nat :=
  Nat.xor (flitWire f (burim s e j).last) (noise % 2 ^ 1024)

/-- A replayed flit crosses (R431). -/
def flitReplay (s : State) (d i e j q : Nat) (rest : List Nat) (a : FlitIn) : State :=
  let y := burim s e j
  let s0 := setBurim s e j { y with resend := rest }
  match y.buf.find? fun f => decide (f.seq = q) with
  | none => s0
  | some f =>
    let s1 := setBurim s0 d i { burim s0 d i with nak := none }
    let s2 := count s1 (pgBurim e) (buOff j Off.CNT_REPLAY_burim)
    flitArrive s2 d i e j (onLanes s2 e j a.noise f) a.hop (announced s e j) true

/-- A flit is taken from the queue of port `j` of die `e`: it gets its SEQ and its place in the replay buffer, and uses a
credit. -/
def flitTake (s : State) (e j : Nat) (f : Flit) : Flit × State :=
  let y := burim s e j
  let g := { f with seq := y.next, via := none }
  let z := creditUse { y with next := (y.next + 1) % 1024, buf := y.buf ++ [g], queue := y.queue.erase f } f.vc
  (g, countMod (viaFree (setBurim s e j z) e f) (pgBurim e) (buOff j Off.CNT_TX_burim))

/-- A flit sent for the first time crosses, or fault injection takes it (R431, R433). -/
def flitNew (s : State) (d i e j : Nat) (f : Flit) (a : FlitIn) : State :=
  let ann := announced s e j
  let late := (burim s e j).late
  let (g, s1) := flitTake s e j f
  let (k, s2) := injPick s1 e 1 0 j
  if k = 1 then s2
  else if k = 3 ∧ late = none then setBurim s2 e j { burim s2 e j with late := some g }
  else
    let x := Nat.xor (onLanes s2 e j a.noise g) (b2n (decide (k = 2)))
    let s3 := flitArrive s2 d i e j x a.hop ann false
    match late with
    | none => s3
    | some h =>
      let s4 := setBurim s3 e j { burim s3 e j with late := none }
      flitArrive s4 d i e j (onLanes s4 e j 0 h) a.hop ann false

/-- An IDLE flit crosses (R429). -/
def flitIdle (s : State) (d i e j : Nat) (a : FlitIn) : State :=
  flitArrive s d i e j (onLanes s e j a.noise { seq := 0, kind := 0, dst := d, src := e }) a.hop (announced s e j) false

/-- What port `j` of die `e` sends next arrives at port `i` of die `d` (R429 to R431): a replay, a flit that waits and has
credit, or an IDLE flit. -/
def flitIn (s : State) (d i e j : Nat) (a : FlitIn) : State :=
  if 3 < a.kind then s
  else
    let s1 := flitOffer s e j a
    match (burim s1 e j).resend with
    | q :: rest => flitReplay s1 d i e j q rest a
    | [] =>
      match (if 256 ≤ (burim s1 e j).buf.length then none else flitPick (burim s1 e j) (burim s1 e j).queue) with
      | some f => flitNew s1 d i e j f a
      | none => flitIdle s1 d i e j a

/-- Both ends of a link are in a state. -/
def linkIn (s : State) (d i e j st : Nat) : Bool := decide (burimState s d i = st) && decide (burimState s e j = st)

/-- FLIT_RECEIVE: what the far end of a port sends next crosses the link (R431). -/
def execFlitReceive (d i : Nat) (a : FlitIn) (s : State) : Host.Outcome State Fault Refusal :=
  ok (match burimPeer s.part.dies d i with
    | none => s
    | some (e, j) => if linkIn s d i e j 2 then flitIn s d i e j a else s)

/-- NAK_RECEIVE: the NAK that the far end has sent reaches the sender (R431). -/
def execNakReceive (d i seq : Nat) (s : State) : Host.Outcome State Fault Refusal :=
  ok (match burimPeer s.part.dies d i with
    | none => s
    | some (e, j) =>
      if linkIn s d i e j 2 && decide ((burim s e j).nak = some seq) then
        let x := burim s d i
        let b := afterAck x.buf seq
        setBurim s d i { x with buf := b, resend := b.map fun f => f.seq }
      else s)

/-- BURIM_RETRAIN: lane block lock is lost on an UP link (R432). -/
def execBurimRetrain (d i : Nat) (s : State) : Host.Outcome State Fault Refusal :=
  ok (match burimPeer s.part.dies d i with
    | none => s
    | some (e, j) => if linkIn s d i e j 2 then linkRetrain s d i e j else s)

/-- BURIM_RETRAIN_DONE: an attempt ends; the third failure in a row loses the link (R432). -/
def execBurimRetrainDone (d i : Nat) (good : Bool) (s : State) : Host.Outcome State Fault Refusal :=
  ok (match burimPeer s.part.dies d i with
    | none => s
    | some (e, j) =>
      if !linkIn s d i e j 3 then s
      else if good then diesLearn (sideUp (sideUp s d i e j) e j d i)
      else if (burim s d i).attempts < 2 then
        let n := (burim s d i).attempts + 1
        setBurim (setBurim s d i { burim s d i with attempts := n, since := s.clock }) e j
          { burim s e j with attempts := n, since := s.clock }
      else linkDown s d i e j)

end Sys2Proof.Machine
end

