-- ==== Sys2Proof/Machine/Mode.lean ====
section
/-!
DEFINITION. Operating modes: requests and their checks (R26, R28), the switch (R27), the mirrored MODE pages (R30), and
STANDBY (R392, R393).
-/
namespace Sys2Proof.Machine

/-- Cycle rates of the contexts in ARMED, PRINTING, PAUSED or DRAINING, on every die (R26). -/
def activeRates (s : State) : List Nat :=
  (dieList s).flatMap fun d => ((List.range (nCtx s)).filter fun k => activeSt s d k).map fun k => cRate s d k

/-- The code with which a request is refused, if a check fails (R26). -/
def modeVerdict (s : State) (code : Nat) : Option Nat :=
  if inTransition s then some 0x10
  else if !bit (rd s (pgMode 0) Off.MODE_ALLOWED) code then some 0x11
  else if modeMax code = 0 ∧ activeRates s ≠ [] then some 0x12
  else if (activeRates s).any fun r => decide (modeMax code < r) then some 0x13
  else none

/-- Ticks from acceptance to the switch tick (R27, R392). -/
def modeLead (s : State) (code : Nat) : Nat :=
  let l := rf s (pgMode 0) Off.MODE_LEAD 0 16
  if code = 0 then 30000000 else if modeOf s 0 = 1 ∧ 2 ≤ code then max l 62500 else l

/-- A request is accepted (R27, R395): for DORMANT the Assay tables are saved and the low-power oscillator is
measured (R68). -/
def modeAccept (s : State) (code : Nat) : State :=
  let p := pgMode 0
  let t := (now s 0 + modeLead s code) % tickMod
  let s1 := wr48 (wf (wb s p Off.MODE_CUR 8 true) p Off.MODE_STAT 0 8 1) p Off.MODE_SW_TS_L t
  let s2 := { s1 with pkg := { s1.pkg with nextMode := code } }
  if code = 0 then
    let s3 := { s2 with pkg := { s2.pkg with lastMode := modeOf s 0, lpoInc := freeBelow s2 125001, power := .entering } }
    each (dieList s) (nextFree s3) fun s d => if saveState s d = 0 then setSave s d 1 else s
  else s2

/-- A write of `MODE_REQ` (R26, R30). -/
def modeReq (d : Nat) (v : Word) (s : State) : State :=
  if d ≠ 0 then raise s (pgMode d) 3
  else
    let p := pgMode 0
    let code := fld v 0 3
    let s1 := wf (wf s p Off.MODE_REQ 0 3 code) p Off.MODE_STAT 8 3 code
    match modeVerdict s code with
    | some r =>
      let s2 := raise (count (wf s1 p Off.MODE_STAT 0 8 r) p Off.MODE_REFUSED) p 1
      { s2 with pkg := { s2.pkg with refusals := s2.pkg.refusals + 1 } }
    | none => modeAccept s1 code

/-- MODE_REQ_WRITE (R26). -/
def execModeReqWrite (r : Req) (d : Nat) (v : Word) (s : State) : Host.Outcome State Fault Refusal :=
  ok (guardedWrite s r (pgMode d) Off.MODE_REQ (modeReq d v))

/-- A write of `MODE_LEAD` (R30, R32). -/
def modeLeadSet (d : Nat) (v : Word) (s : State) : State :=
  if d ≠ 0 then raise s (pgMode d) 3 else wf s (pgMode 0) Off.MODE_LEAD 0 16 (max 500 (fld v 0 16))

/-- MODE_LEAD_WRITE (R32). -/
def execModeLeadWrite (r : Req) (d : Nat) (v : Word) (s : State) : Host.Outcome State Fault Refusal :=
  ok (guardedWrite s r (pgMode d) Off.MODE_LEAD (modeLeadSet d v))

/-! STANDBY (R63, R393). -/

/-- The outputs of the head ports follow a mode change: in STANDBY lanes at electrical idle, waveform at DAC code 0, FIRE and
heater low (R195, R393). -/
def portsFollow (s : State) (d : Nat) : State :=
  each (List.range (nPorts s)) s fun s p => streamFollow (htrFollow s d p) d p

/-- An axis at entry. -/
def stbyAxis (s : State) (d a : Nat) : State :=
  if !running s (pgAx d a) then s
  else
    let x := (axis s d a).freeze s.clock
    setPosValid (setAxis s d a { x with ben := false, ocCount := 0, uA := 0, uB := 0, onA := 0, onB := 0, integA := 0, integB := 0 }) d a false

/-- An encoder channel at entry: counting stops and `POS` is kept. -/
def stbyEnc (s : State) (d c : Nat) : State :=
  if !running s (pgEnc d c) then s
  else setEnc (encSync s d c) d c { enc s d c with acc := virtAcc s d c, accAt := s.clock }

/-- A die enters STANDBY: its PLL stops (R63). -/
def stbyEnter (s : State) (d : Nat) : State :=
  let s2 := each (List.range (nAx s)) s fun s a => stbyAxis s d a
  let s3 := each (List.range (nEnc s)) s2 fun s c => stbyEnc s d c
  let s4 := setDyn (wb s3 (pgTb d) Off.TB_STAT 2 false) (pgTb d) 1 true
  if d = 0 then s4 else setDyn (wb s4 (pgTb d) Off.TB_STAT 5 false) (pgTb d) 4 true

/-- A die leaves STANDBY with its PLL locked and its counter aligned (R63, R392, R393). -/
def stbyExit (s : State) (d : Nat) : State :=
  let s1 := each ((List.range (nPorts s)).filter fun p => running s (pgHp d p)) s fun s p => retrain s d p 5
  let s2 := each ((List.range (nAx s)).filter fun a => running s (pgAx d a)) s1 fun s a =>
    setMstate (setAxis s d a { axis s d a with ben := true, rampAt := s.clock }) d a msRest
  let s3 := each ((List.range (nEnc s)).filter fun c => running s (pgEnc d c)) s2 fun s c =>
    let s1 := decodeRestart s d c s.clock
    setEnc s1 d c { enc s1 d c with restart := true, accAt := s.clock }
  let s4 := setDyn (wb s3 (pgTb d) Off.TB_STAT 2 true) (pgTb d) 1 false
  if d = 0 then s4 else setDyn (wb s4 (pgTb d) Off.TB_STAT 5 true) (pgTb d) 4 false

/-! The switch (R27). -/

/-- A die takes a mode in force from now on (R27, R33, R393); a request that waits on die 0 still shows on the others
(R30). -/
def dieMode (s : State) (d code : Nat) : State :=
  let old := modeOf s d
  let p := pgMode d
  let s0 := if old ≠ 1 ∧ code = 1 then stbyEnter s d else s
  let s1 := raise (wf (wf (wb s0 p Off.MODE_CUR 8 (decide (d ≠ 0) && inTransition s)) p Off.MODE_CUR 4 3 old) p Off.MODE_CUR 0 3 code) p 0
  let s2 := portsFollow (sweepBreak (asModeChange s1 d) d fun _ => decide (code ≠ 3)) d
  if old = 1 ∧ 2 ≤ code then stbyExit s2 d else s2

/-- The switch tick of an accepted request: every die that is not fenced changes (R27, R33). RESULT becomes DONE although a
request refused since then has left BUSY and its own REQ_CODE (DESIGN CHOICE: R26 does not say which result stands). -/
def modeSwitch (s : State) : State :=
  let code := s.pkg.nextMode
  let s1 := wf s (pgMode 0) Off.MODE_STAT 0 8 2
  let s2 := { s1 with pkg := { s1.pkg with settleAt := s.clock + 64 } }
  each ((dieList s).filter fun d => !isolated s d) s2 fun s d => dieMode s d code

/-- MODE_CHANGED: the switch tick of the request that waits (R27); a switch to DORMANT is DORMANT_ENTRY (R395). -/
def execModeChanged (s : State) : Host.Outcome State Fault Refusal :=
  if inTransition s && decide (s.pkg.nextMode ≠ 0) then
    ok (modeSwitch (waitTick s 0 (rd48 s (pgMode 0) Off.MODE_SW_TS_L)))
  else ok s

/-- MODE_CLOCK_SETTLED: the crossing bounds of the new mode apply (R27). -/
def execModeClockSettled (s : State) : Host.Outcome State Fault Refusal :=
  if s.pkg.settleAt = 0 then ok s
  else
    let s1 := waitClock s s.pkg.settleAt
    ok { s1 with pkg := { s1.pkg with settleAt := 0 } }

/-- Registers of the MODE page that a change on die 0 carries to the others (R30). -/
def modeMirrored : List Nat :=
  [Off.MODE_REQ, Off.MODE_STAT, Off.MODE_ALLOWED, Off.MODE_LEAD, Off.MODE_SW_TS_L, Off.MODE_SW_TS_H, Off.MODE_REFUSED]

/-- The present values of die 0's MODE page reach a die (R30, R33). -/
def modeMirror (s : State) (d : Nat) : State :=
  let refused := decide ((die s d).refSeen ≠ s.pkg.refusals)
  let allowed := decide (rd s (pgMode d) Off.MODE_ALLOWED ≠ rd s (pgMode 0) Off.MODE_ALLOWED)
  let s1 := each modeMirrored s fun t o => wr t (pgMode d) o (rd s (pgMode 0) o)
  let s2 := wb (setDie s1 d { die s1 d with refSeen := s.pkg.refusals }) (pgMode d) Off.MODE_CUR 8 (inTransition s)
  whenDo allowed (whenDo refused s2 fun s => raise s (pgMode d) 1) fun s => raise s (pgMode d) 2

/-- MODE_MIRROR_ARRIVE (R30). -/
def execModeMirrorArrive (d : Nat) (s : State) : Host.Outcome State Fault Refusal :=
  ok (if 0 < d ∧ d < s.part.dies then modeMirror s d else s)

end Sys2Proof.Machine
end

