-- ==== Sys2Proof/Machine/HoistCtl.lean ====
section
/-!
DEFINITION. Control of Hoist channels: halts (R285), `HC_CTRL` (R280, R286), the start and the end of a channel
(R288, R289), and its registers' write rules (R302).
-/
namespace Sys2Proof.Machine

/-! Halts (R285). -/

/-- The link of a halt in a record (R412). -/
def hcLink (c : Nat) (e : HcErr) : Link := ⟨0x1A, c, e.code, e.addr % 2 ^ 24⟩

/-- The record of a halt (R285, R413): a completion timeout stands before it, a poisoned chute word causes it (R298),
a poisoned word of die memory has been reported with it (R311). -/
def hcRecord (s : State) (d c : Nat) (e : HcErr) : State :=
  let l := hcLink c e
  if e.recorded then s
  else match e.chute with
    | some q => logRecord s d d { cause := ⟨0x1B, q, 1, 0⟩, effect := some l, reason := 3 }
    | none =>
      if e.code = 2 then logRecord s d d { fenced := false, cause := ⟨0x18, 0, 1, c⟩, effect := some l }
      else logRecord s d d { fenced := decide (e.code = 3), cause := l, reason := if e.code = 3 then 3 else 0 }

/-- What a halt loads, latches and records (R285). -/
def hcReport (s : State) (d c : Nat) (e : HcErr) : State :=
  let p := pgHc d c
  let s1 := wr s p Off.HC_ERR (word (b2n e.write * 2 ^ 15 + b2n e.host * 2 ^ 14 + e.code % 2 ^ 8))
  let s2 := wr (wr48 s1 p Off.HC_ERR_ADDR_L (e.addr % 2 ^ 64)) p Off.HC_ERR_ADDR_H (word (e.addr % 2 ^ 64 / 2 ^ 48))
  errRecord (hcRecord (count (raise s2 p 3) p Off.CNT_HALTS) d c e) d c 3 e.code

/-- An abort completes (R286). -/
def hcAborted (s : State) (d c : Nat) : State :=
  let s1 := errRecord (hcUnhold s d c) d c 4 0
  raise (setHoist s1 d c { hoist s1 d c with cs := 1, move := none, wait := none }) (pgHc d c) 4

/-- A channel fails (R285): bursts behind the failed one are discarded, the failed one keeps its reservation, the
halt is reported, and POISON fences the channel (R288). A failure while it aborts or shuts down is reported before that
goes on (R286, R289). -/
def hcFail (s : State) (d c : Nat) (b : Option Burst) (e : HcErr) : State :=
  let run := decide (pstate s (pgHc d c) = stRunning)
  let aborting := decide ((hoist s d c).cs = 6)
  let s1 := hcUnsig (hcDrop s d c) d c
  let x := hoist s1 d c
  let s2 := setHoist s1 d c { x with
    held := b.map fun b => { b with hostRead := false, err := none }
    wait := none
    cs := if run && !aborting then 5 else x.cs }
  let s3 := hcReport s2 d c e
  if e.code = 3 then fenceQuiet s3 (pgHc d c) 3 []
  else if run && aborting then hcAborted s3 d c
  else s3

/-- A halt without a failed data access: its address is that of a program word (R285). -/
def hcHalt (s : State) (d c code w : Nat) : State := hcFail s d c none { code := code, addr := dpsLocal w }

/-! `HC_CTRL` (R280, R286). -/

/-- A trigger reaches the channel; in OFF and FENCED it is discarded (R280). -/
def hcTrigger (s : State) (d c : Nat) : State :=
  let p := pgHc d c
  if pstate s p ≠ stOff ∧ pstate s p ≠ stFenced then
    let n := rf s p Off.HC_PEND 0 8
    if n = 255 then raise s p 5 else wf s p Off.HC_PEND 0 8 (n + 1)
  else s

/-- RESUME (R286): a MOVE restarts from its failed burst at the addresses its registers hold. -/
def hcResume (s : State) (d c : Nat) : State :=
  if running s (pgHc d c) && decide ((hoist s d c).cs = 5) then
    let s1 := hcUnhold s d c
    let x := hoist s1 d c
    let mv := x.move.map fun m =>
      { m with src := if m.sr = m.dr then m.sw else (hcA s1 d c m.sr).1, dst := (hcA s1 d c m.dr).1, left := m.remain }
    setHoist s1 d c { x with cs := 2, wdAt := s.clock, move := mv }
  else s

/-- ABORT (R286): at once in HALTED; in RUN, WAIT and FLOW after the bursts in flight. -/
def hcAbort (s : State) (d c : Nat) : State :=
  let x := hoist s d c
  if !running s (pgHc d c) then s
  else if x.cs = 5 then hcAborted s d c
  else if x.cs = 2 ∨ x.cs = 3 then
    let s1 := hcUnsig s d c
    let s2 := setHoist s1 d c { hoist s1 d c with cs := 6, wait := none }
    if x.bursts = [] then hcAborted s2 d c else s2
  else s

/-- A write of `HC_CTRL`: HOLD, CANCEL, ABORT, RESUME, START, in this order (R286). -/
def hcCtrl (s : State) (d c : Nat) (v : Word) : State :=
  let p := pgHc d c
  let s1 := wb s p Off.HC_CTRL 2 (bit v 2)
  let s2 := whenDo (bit v 1) s1 (wf · p Off.HC_PEND 0 8 0)
  let s3 := whenDo (bit v 4) s2 (hcAbort · d c)
  let s4 := whenDo (bit v 3) s3 (hcResume · d c)
  whenDo (bit v 0) s4 (hcTrigger · d c)

/-! Start and end (R288, R289). -/

/-- The channel enters RUNNING: IDLE, or after a fence as R288 gives. -/
def hcStarted (s : State) (d c : Nat) : State :=
  let x := hoist s d c
  let p := pgHc d c
  let s1 := setHoist s d c { x with fcs := 1, wait := none }
  match x.fcs with
  | 1 => setHoist s d c { x with cs := 1 }
  | 5 => setHoist s1 d c { hoist s1 d c with cs := 5 }
  | 6 => hcAborted s1 d c
  | _ =>
    let (addr, wrt, host) : Nat × Bool × Bool := match x.move with
      | some m => ((hcA s d c m.dr).1, true, (hcA s d c m.dr).2)
      | none => (dpsLocal x.pc, false, false)
    let s2 := setHoist s1 d c { hoist s1 d c with cs := 5 }
    let s3 := wr s2 p Off.HC_ERR (word (b2n wrt * 2 ^ 15 + b2n host * 2 ^ 14 + 0x0C))
    let s4 := wr (wr48 s3 p Off.HC_ERR_ADDR_L addr) p Off.HC_ERR_ADDR_H (word (addr / 2 ^ 48))
    errRecord (count (raise s4 p 3) p Off.CNT_HALTS) d c 3 0x0C

/-- `EN` := 0 (R289): no further burst starts, and pending triggers are dropped. -/
def hcStop (s : State) (d c : Nat) : State :=
  let s1 := wf (hcUnsig s d c) (pgHc d c) Off.HC_PEND 0 8 0
  let x := hoist s1 d c
  setHoist s1 d c { x with
    wait := none
    stopRec := decide (x.cs ≠ 1) }

/-- The shut-down ends when no burst is in flight (R289): reservations are released and the run is abandoned. -/
def hcStopped (s : State) (d c : Nat) : State :=
  let s1 := hcUnhold s d c
  let s2 := if (hoist s1 d c).stopRec then errRecord s1 d c 4 0 else s1
  setHoist s2 d c { hoist s2 d c with cs := 1, move := none, wait := none, fcs := 1, stopRec := false }

/-- Registers that can be written only in OFF, IDLE and HALTED. -/
def hcLocked (off : Nat) : Bool :=
  decide (off = Off.HC_CFG) || decide (off = Off.HC_PROG) || decide (off = Off.HC_PROG_LEN) || decide (off = Off.HC_TRIG)
    || decide (Off.HC_A_L ≤ off)

/-- The channel is busy for such a write. -/
def hcBusy (s : State) (d c : Nat) : Bool := [2, 3, 4, 6].contains (hcState s d c)

end Sys2Proof.Machine
end

