-- ==== Sys2Proof/Machine/Tally.lean ====
section
/-!
DEFINITION. The tally board of a die: its entries in the retention store, their clears, and the TALLY page (R402, R403,
R415).
-/
namespace Sys2Proof.Machine

/-- Retention word of entry word `j` of boot step `st` (R402). -/
def tlWord (st j : Nat) : Nat := 20 + 4 * st + j

/-- LAST, CONSEC, ALT and DETAIL of a step. -/
def tlLast (s : State) (d st : Nat) : Nat := fld (retRaw s d (tlWord st 0)) 20 4
def tlConsec (s : State) (d st : Nat) : Nat := fld (retRaw s d (tlWord st 0)) 16 4
def tlAlt (s : State) (d st : Nat) : Nat := fld (retRaw s d (tlWord st 0)) 8 8

/-- The TALLY page's copies of the board (R415 table). -/
def tlCopies (s : State) (d : Nat) : State :=
  each (List.range 9) (wr s (pgTally d) Off.TL_STARTS (retRaw s d 17)) fun s st =>
    wr s (pgTally d) (Off.TL_STEP + 4 * st) (retRaw s d (tlWord st 0))

/-- A fresh board: the version, and every count and slot at 0 (R402). -/
def tlFresh (s : State) (d : Nat) : State :=
  raise (retWrites s d 16 (1#24 :: List.replicate 255 0#24)) (pgTally d) 2

/-- The board with its version checked (R402). -/
def tlCheck (s : State) (d : Nat) : State := if retRaw s d 16 = 1#24 then s else tlFresh s d

/-- The outcome of a boot step is written to its entry (R400, R402): LAST, ALT and DETAIL; the duration in µs; a
failure counts and notes the seconds, a completion clears CONSEC. -/
def tlRecord (s : State) (d st last alt detail us : Nat) : State :=
  let c := match last with | 1 => 0 | 2 => min (tlConsec s d st + 1) 15 | _ => tlConsec s d st
  let w0 := word (last * 2 ^ 20 + c * 2 ^ 16 + alt * 2 ^ 8 + min detail 255)
  let s1 := retWrite (retWrite s d (tlWord st 0) w0) d (tlWord st 2) (word (min us 0xFFFFFF))
  if last = 2 then
    retWrite (retWrite s1 d (tlWord st 1) (inc24 (retRaw s1 d (tlWord st 1)))) d (tlWord st 3) (lo24 s.pkg.seconds)
  else s1

/-- A history record is appended (R402): its word 0 is cleared first and written last. -/
def tlHistory (s : State) (d : Nat) (outcome : Nat) : State :=
  let k := (retRaw s d 18).toNat % 54
  let s1 := retWrite s d (56 + 4 * k) 0#24
  let s2 := retWrites s1 d (57 + 4 * k) [retRaw s d 17, word outcome, lo24 s.pkg.seconds]
  retWrite (retWrite s2 d (56 + 4 * k) 0xA5A#24) d 18 (word ((k + 1) % 54))

/-- The entries of the steps in a mask are cleared (R403). -/
def tallyClear (s : State) (d mask : Nat) : State :=
  let s1 := each (bitsSet 9 mask) s fun s st => retWrite (retWrite s d (tlWord st 0) 0#24) d (tlWord st 1) 0#24
  let s2 := if mask % 512 = 511 then retWrite s1 d 17 0#24 else s1
  let s3 := tlCopies s2 d
  let left := rd s3 (pgTally d) Off.TL_CLEAR &&& ~~~ word (mask % 512)
  raise (wb (wr s3 (pgTally d) Off.TL_CLEAR left) (pgTally d) Off.TL_STAT 0 (decide (left ≠ 0#24))) (pgTally d) 1

/-- A write of `TL_CLEAR` (R403). -/
def tlClearWrite (d : Nat) (v : Word) (s : State) : State :=
  let m := rd s (pgTally d) Off.TL_CLEAR ||| (v &&& 0x1FF#24)
  wb (wr s (pgTally d) Off.TL_CLEAR m) (pgTally d) Off.TL_STAT 0 (decide (m ≠ 0#24))

/-- TL_CLEAR (R403). -/
def execTlClear (r : Req) (d : Nat) (v : Word) (s : State) : Host.Outcome State Fault Refusal :=
  ok (guardedWrite s r (pgTally d) Off.TL_CLEAR (tlClearWrite d v))

/-- CLEARED: firmware has cleared the entries named (R403). -/
def execCleared (d : Nat) (s : State) : Host.Outcome State Fault Refusal :=
  let m := rd s (pgTally d) Off.TL_CLEAR
  ok (if d < s.part.dies ∧ fwUp s d ∧ 2 ≤ rf s (pgMode d) Off.MODE_CUR 0 3 ∧ m ≠ 0#24 then tallyClear s d m.toNat else s)

end Sys2Proof.Machine
end

