-- ==== Sys2Proof/Machine/Mailbox.lean ====
section
/-!
DEFINITION. Mailboxes and firmware commands (R358 to R372), and the changes of lifecycle (R374).
-/
namespace Sys2Proof.Machine

/-- Firmware runs: the Foreman core is up, and its island is clocked, which it is not in STANDBY (R24, R360, R392; DEDUCED,
log entry 78). -/
def fwLive (s : State) (d : Nat) : Bool := fwUp s d && awake s d

/-! Slots (R359 to R361). -/

/-- State code of an inbound slot: 0 EMPTY, 1 FULL, 2 BUSY, 3 DONE (R360). -/
def inState (s : State) (d : Nat) (sec : Bool) (n : Nat) : Nat := rf s (pgMbox d sec) (mbOff n Off.IN_STAT) 0 2
/-- Set it. -/
def setInState (s : State) (d : Nat) (sec : Bool) (n st : Nat) : State :=
  wf s (pgMbox d sec) (mbOff n Off.IN_STAT) 0 2 st
/-- The header posted last. -/
def inHdr (s : State) (d : Nat) (sec : Bool) (n : Nat) : Word := rd s (pgMbox d sec) (mbOff n Off.IN_HDR)
/-- CMD, TAG and LEN of a message (R358). -/
def inCmd (s : State) (d : Nat) (sec : Bool) (n : Nat) : Nat := fld (inHdr s d sec n) 16 8
def inTag (s : State) (d : Nat) (sec : Bool) (n : Nat) : Nat := fld (inHdr s d sec n) 8 8
def inLen (s : State) (d : Nat) (sec : Bool) (n : Nat) : Nat := fld (inHdr s d sec n) 4 4
/-- An argument of the message. -/
def inArg (s : State) (d : Nat) (sec : Bool) (n i : Nat) : Word := (mbox s d (mbIx sec n)).args.getD i 0#24
/-- `FW_EPOCH` (R362). -/
def fwEpoch (s : State) (d : Nat) (sec : Bool) : Nat := rf s (pgMbox d sec) Off.MB_EPOCH 8 8
/-- The message was posted in an earlier firmware epoch (R362). -/
def oldEpoch (s : State) (d : Nat) (sec : Bool) (n : Nat) : Bool :=
  decide (rf s (pgMbox d sec) (mbOff n Off.IN_STAT) 8 8 ≠ fwEpoch s d sec)

/-- An acknowledgement and its results become visible, and the slot is DONE (R360). -/
def inLoad (s : State) (d : Nat) (sec : Bool) (n : Nat) (ack : Word) (res : List Word) : State :=
  let p := pgMbox d sec
  let s1 := each res.zipIdx (wr s p (mbOff n Off.IN_ACK) ack) fun s x => wr s p (mbOff n Off.IN_RES + 4 * x.2) x.1
  raise (setInState s1 d sec n 3) p n

/-- Firmware completes the message of a slot with a code and results (R360, R361, R363): the record is updated; the
acknowledgement is loaded, discarded after a Function Level Reset, or held while the page is fenced (R371). -/
def inFinish (s : State) (d : Nat) (sec : Bool) (n code : Nat) (res : List Word) : State :=
  let p := pgMbox d sec
  let ack := word (inTag s d sec n * 2 ^ 16 + code * 2 ^ 8 + b2n (oldEpoch s d sec n) * 2 ^ 6 + res.length)
  let x := mbox s d (mbIx sec n)
  let s1 := setMbox s d (mbIx sec n) { x with dAck := ack, dRes := res, result := none, discard := false }
  let s2 := wr s1 p (mbOff n Off.IN_LAST) (word (inTag s d sec n * 2 ^ 8 + 1))
  let s3 := whenDo (decide (code = 1)) s2 (count · p Off.CNT_STALE)
  if x.discard then setInState (count s3 p Off.CNT_ACK_DISCARD) d sec n 0
  else if fenced s p then setMbox s3 d (mbIx sec n) { mbox s3 d (mbIx sec n) with held := some (ack, res) }
  else inLoad s3 d sec n ack res

/-- A post accepted (R359): stamped, its arguments taken; one whose tag is that of the record is answered from it
(R361). -/
def inPost (s : State) (d : Nat) (sec : Bool) (n : Nat) (v : Word) : State :=
  let p := pgMbox d sec
  let last := rd s p (mbOff n Off.IN_LAST)
  let args := (List.range 16).map fun i => rd s p (mbOff n Off.IN_ARG + 4 * i)
  let stamp := rd s p Off.MB_EPOCH
  let s1 := wr s p (mbOff n Off.IN_HDR) (v &&& 0xFFFFF0#24)
  let s2 := wr s1 p (mbOff n Off.IN_STAT) (word (fld stamp 0 8 * 2 ^ 16 + fld stamp 8 8 * 2 ^ 8 + 1))
  let x := mbox s2 d (mbIx sec n)
  let s3 := setMbox s2 d (mbIx sec n)
    { x with args := args, result := none, discard := false, postAt := some s.clock, inAt := s.clock, inLate := false }
  if bit last 0 ∧ fld last 8 8 = fld v 8 8 then
    inLoad (count s3 p Off.CNT_REPLAY) d sec n (setBit x.dAck 7 true) x.dRes
  else s3

/-- A write of `IN_HDR_n` (R359); in the tick of a Function Level Reset a post on MBOX_NS is discarded (R363). -/
def inHdrWrite (r : Req) (d : Nat) (sec : Bool) (n : Nat) (v : Word) (s : State) : State :=
  let p := pgMbox d sec
  if pstate s p = stOff then logErr s r p (mbOff n Off.IN_HDR) true 0x42
  else if sec = false ∧ s.pcie.flrAt = some s.clock then s
  else if inState s d sec n = 1 ∨ inState s d sec n = 2 then
    logErr (count s p Off.CNT_SLOT_BUSY) r p (mbOff n Off.IN_HDR) true 0x40
  else inPost s d sec n v

/-- MAILBOX_POST (R359, R361). -/
def execMailboxPost (r : Req) (d : Nat) (sec : Bool) (n : Nat) (v : Word) (s : State) :
    Host.Outcome State Fault Refusal :=
  ok (guardedWrite s r (pgMbox d sec) (mbOff (n % 4) Off.IN_HDR)
    (inHdrWrite ⟨clsOn r (pgMbox d sec), r.rid⟩ d sec (n % 4) v))

/-! Taking a message (R360, R363). -/

/-- The command codes of R365. -/
def knownCmd (c : Nat) : Bool := (decide (1 ≤ c) && decide (c ≤ 9)) || decide (c = 0x40) || decide (c = 0x41)
/-- Commands that are answered STALE after a firmware restart (R365). -/
def staleCmd (c : Nat) : Bool := knownCmd c && !(decide (c = 1) || decide (c = 2) || decide (c = 4))

/-- Firmware takes the message of a slot (R360): a message of an earlier epoch is executed or answered STALE (R363),
and an unknown code is answered BAD_CMD. -/
def inTake (s : State) (d : Nat) (sec : Bool) (n : Nat) : State :=
  let c := inCmd s d sec n
  let s1 := setInState s d sec n 2
  let x := mbox s1 d (mbIx sec n)
  let s2 := setMbox s1 d (mbIx sec n) { x with result := if knownCmd c then none else some (2, []), inAt := s.clock }
  if oldEpoch s d sec n ∧ staleCmd c then inFinish s2 d sec n 1 [] else s2

/-- The order in which firmware takes slots: MBOX_S before MBOX_NS, then ascending (R360). -/
def takeOrder : List (Bool × Nat) :=
  [(true, 0), (true, 1), (true, 2), (true, 3), (false, 0), (false, 1), (false, 2), (false, 3)]

/-- The slots firmware may take now. -/
def fullSlots (s : State) (d : Nat) : List (Bool × Nat) :=
  takeOrder.filter fun x => decide (inState s d x.1 x.2 = 1) && running s (pgMbox d x.1)

/-- MAILBOX_TAKE (R360). -/
def execMailboxTake (d : Nat) (s : State) : Host.Outcome State Fault Refusal :=
  ok (if d < s.part.dies ∧ fwLive s d then
    match fullSlots s d with
    | [] => s
    | x :: _ => inTake s d x.1 x.2
  else s)

/-! Long commands (R365, R366). -/

/-- `MB_STAT.LONG` of both pages follows the long command of the die. -/
def longFollow (s : State) (d : Nat) : State :=
  let on := fun sec => match (fw s d).long with | none => false | some l => decide (l.sec = sec)
  wb (wb s (pgMbox d false) Off.MB_STAT 8 (on false)) (pgMbox d true) Off.MB_STAT 8 (on true)

/-- A long command starts or ends. -/
def setLong (s : State) (d : Nat) (l : Option LongCmd) : State := longFollow (setFw s d { fw s d with long := l }) d

/-- The long command of this slot runs. -/
def longHere (s : State) (d : Nat) (sec : Bool) (n : Nat) : Option LongCmd :=
  match (fw s d).long with
  | none => none
  | some l => if l.sec = sec ∧ l.n = n then some l else none

/-- What HEAD_DISCOVER answers at its end: nothing while discovery or training runs (R366). -/
def discoverResult (s : State) (d p : Nat) : Option (Nat × List Word) :=
  let l := (port s d p).link
  let f := rf s (pgHp d p) Off.SY_STAT 12 4
  let r := [word (l + f * 2 ^ 8)]
  if l = 1 ∨ l = 2 then none
  else if l = 5 then some (if f = 1 then 9 else 0x0A, r)
  else some (0, r)

/-- The result words of CAPTURE_REF (R366). -/
def sweepWords (s : State) (d : Nat) : List Word :=
  [rd s (pgEcho d) Off.SWEEP_DONE, rd s (pgEcho d) Off.SWEEP_MISS, word (rf s (pgEcho d) Off.SWEEP_STAT 4 4)]

/-- What CAPTURE_REF answers at the end of its sweep (R366). -/
def captureResult (s : State) (d : Nat) : Option (Nat × List Word) :=
  let p := pgEcho d
  let f := rf s p Off.SWEEP_STAT 4 4
  let r := sweepWords s d
  match rf s p Off.SWEEP_STAT 0 3 with
  | 1 => none
  | 3 => some (if f = 4 then 0x0C else if f = 1 ∨ f = 2 then 7 else 0x0A, r)
  | _ => some (0, r)

/-- What ASSAY_REQUEST with WAIT answers once the run has completed (R366). -/
def assayResult (s : State) (d c : Nat) : Option (Nat × List Word) :=
  let x := asChan s d c
  if x.st ≠ 0 ∨ x.queued ≠ 0 then none
  else some (if x.lastResult = 1 then 0 else 0x0A, [word x.lastResult])

/-- The end of the long command of a die, if it has come. -/
def longResult (s : State) (d : Nat) (l : LongCmd) : Option (Nat × List Word) :=
  match l.cmd with
  | 3 => discoverResult s d (l.arg % 16)
  | 6 => captureResult s d
  | _ => assayResult s d (l.arg % 256)

/-- IN_DONE: firmware completes the command of a BUSY slot (R360): its result, or that of its long command once it has
ended. -/
def execInDone (d : Nat) (sec : Bool) (n : Nat) (s : State) : Host.Outcome State Fault Refusal :=
  ok (if d < s.part.dies ∧ n < 4 ∧ fwLive s d ∧ inState s d sec n = 2 ∧ (mbox s d (mbIx sec n)).held = none then
    match longHere s d sec n with
    | some l =>
      match longResult s d l with
      | none => s
      | some x => inFinish (setLong s d none) d sec n x.1 x.2
    | none =>
      match (mbox s d (mbIx sec n)).result with
      | none => s
      | some x => inFinish s d sec n x.1 x.2
  else s)

/-- The operation of a long command is abandoned: a sweep is aborted, discovery or training ends in FAILED with its last
code (DESIGN CHOICE, log entry 85), and an Assay run goes on (R366). -/
def longAbandon (s : State) (d : Nat) (l : LongCmd) : State :=
  match l.cmd with
  | 3 =>
    let p := l.arg % 16
    if (port s d p).link = 1 ∨ (port s d p).link = 2 then setLink s d p 5 else s
  | 6 => sweepAbort d s
  | _ => s

/-- The long command of the die ends with a code before its time (R366). -/
def longEnd (s : State) (d code : Nat) : State :=
  match (fw s d).long with
  | none => s
  | some l =>
    let s1 := if l.cmd = 7 ∧ code = 0x0B then s else longAbandon s d l
    inFinish (setLong s1 d none) d l.sec l.n code (if l.cmd = 6 then sweepWords s1 d else [])

/-- The limit of a long command in ticks; none for CAPTURE_REF (R365). -/
def longLimit (l : LongCmd) : Option Nat :=
  match l.cmd with | 3 => some 12500000 | 6 => none | _ => some 500000000

/-- LONG_CMD_TIMEOUT (R366): a long command that has not ended reaches its limit. -/
def execLongCmdTimeout (d : Nat) (s : State) : Host.Outcome State Fault Refusal :=
  ok (if d < s.part.dies ∧ fwLive s d then
    match (fw s d).long with
    | none => s
    | some l =>
      match longLimit l, longResult s d l with
      | some n, none => longEnd (waitClock s (l.start + n)) d 0x0B
      | _, _ => s
  else s)

/-! Commands (R366). -/

/-- The slot holds a command of this code that firmware is about to execute. -/
def inReady (s : State) (d : Nat) (sec : Bool) (n cmd : Nat) : Bool :=
  decide (d < s.part.dies) && decide (n < 4) && fwLive s d && decide (inState s d sec n = 2) && decide (inCmd s d sec n = cmd)
    && decide ((mbox s d (mbIx sec n)).result = none) && decide ((mbox s d (mbIx sec n)).held = none)
    && (longHere s d sec n).isNone

/-- The command has a result, which IN_DONE loads. -/
def setResult (s : State) (d : Nat) (sec : Bool) (n code : Nat) (res : List Word) : State :=
  setMbox s d (mbIx sec n) { mbox s d (mbIx sec n) with result := some (code, res) }

/-- Execute a command: its first failing check (`bad` is its code) or its effect (R364). -/
def inRun (s : State) (d : Nat) (sec : Bool) (n cmd : Nat) (bad : Option Nat) (eff : State → State) : State :=
  if inReady s d sec n cmd then
    match bad with
    | some c => setResult s d sec n c []
    | none => eff s
  else s

/-- The first check of a list that fails. -/
def firstBad : List (Bool × Nat) → Option Nat
  | [] => none
  | (b, c) :: r => if b then some c else firstBad r

/-- GET_INFO (R366). -/
def execGetInfo (d : Nat) (sec : Bool) (n : Nat) (s : State) : Host.Outcome State Fault Refusal :=
  let img := (die s d).boot.image
  ok (inRun s d sec n 1 (firstBad [(decide (inLen s d sec n ≠ 0), 4)]) fun s =>
    setResult s d sec n 0
      [word (Config.firmware 0 img), word (d * 2 ^ 16 + fwEpoch s d sec * 2 ^ 8 + img), word (Config.firmware 1 img)])

/-- PING (R366). -/
def execPing (d : Nat) (sec : Bool) (n : Nat) (s : State) : Host.Outcome State Fault Refusal :=
  ok (inRun s d sec n 2 (firstBad [(decide (8 < inLen s d sec n), 4)]) fun s =>
    setResult s d sec n 0 ((mbox s d (mbIx sec n)).args.take (inLen s d sec n)))

/-- A long command of the die runs. -/
def longBusy (s : State) (d : Nat) : Bool := (fw s d).long.isSome

/-- HEAD_DISCOVER (R366): the answer of the head to the discovery, or no acknowledge. -/
def execHeadDiscover (d : Nat) (sec : Bool) (n : Nat) (ans : Option (List Byte)) (s : State) :
    Host.Outcome State Fault Refusal :=
  let a := (inArg s d sec n 0).toNat
  let p := a % 16
  ok (inRun s d sec n 3 (firstBad [(decide (inLen s d sec n ≠ 1), 4), (decide (nPorts s ≤ p), 8), (longBusy s d, 6),
      (!rb s (pgHp d p) Off.PAGE_CTRL 0 || decide ((port s d p).link ≠ 5), 7)]) fun s =>
    let s1 := setLong s d (some ⟨sec, n, 3, s.clock, a⟩)
    discover (setLink s1 d p 1) d p ans)

/-- Port, offset and count of a management-bus command (R366). -/
def sbPort (a : Word) : Nat := fld a 0 4
def sbOff (a : Word) : Nat := fld a 8 8
def sbCount (a : Word) : Nat := fld a 16 4 + 1

/-- The arguments of a management-bus command are out of range. -/
def sbBad (s : State) (a : Word) : Bool :=
  decide (nPorts s ≤ sbPort a) || decide (12 < sbCount a) || decide (256 < sbOff a + sbCount a)

/-- The head's management bus is taken by discovery or training. -/
def sbTaken (s : State) (d : Nat) (a : Word) : Bool :=
  decide ((port s d (sbPort a)).link = 1) || decide ((port s d (sbPort a)).link = 2)

/-- Bytes packed three to a word, the first lowest (R366). -/
def packBytes : List Nat → List Word
  | [] => []
  | [a] => [word a]
  | [a, b] => [word (a + b * 2 ^ 8)]
  | a :: b :: c :: r => word (a + b * 2 ^ 8 + c * 2 ^ 16) :: packBytes r

/-- The bytes of words, the lowest first. -/
def unpackBytes (ws : List Word) : List Nat := ws.flatMap fun w => [fld w 0 8, fld w 8 8, fld w 16 8]

/-- SB_READ (R366): the bytes the head answers with, or no acknowledge. -/
def execSbRead (d : Nat) (sec : Bool) (n : Nat) (ans : Option (List Byte)) (s : State) :
    Host.Outcome State Fault Refusal :=
  let a := inArg s d sec n 0
  ok (inRun s d sec n 4 (firstBad [(decide (inLen s d sec n ≠ 1), 4), (sbBad s a, 3), (sbTaken s d a, 7)]) fun s =>
    match ans with
    | none => setResult s d sec n 9 []
    | some l => setResult s d sec n 0 (packBytes ((List.range (sbCount a)).map fun i => (l.getD i 0#8).toNat)))

/-- SB_WRITE (R366): `ack` if the head acknowledges. -/
def execSbWrite (d : Nat) (sec : Bool) (n : Nat) (ack : Bool) (s : State) : Host.Outcome State Fault Refusal :=
  let a := inArg s d sec n 0
  ok (inRun s d sec n 5 (firstBad [(decide (sbOff a < 0x40), 5), (decide (inLen s d sec n ≠ 1 + ceilDiv (sbCount a) 3), 4),
      (sbBad s a, 3), (sbTaken s d a, 7)]) fun s =>
    if ack then
      emit (setResult s d sec n 0 [])
        (.sideWrite d (sbPort a) (sbOff a) ((unpackBytes ((mbox s d (mbIx sec n)).args.drop 1)).take (sbCount a)))
    else setResult s d sec n 9 [])

/-- CAPTURE_REF (R214, R366): firmware sets the sweep up and starts it; a refused start is its result. -/
def execCaptureRef (d : Nat) (sec : Bool) (n : Nat) (s : State) : Host.Outcome State Fault Refusal :=
  let a := inArg s d sec n 0
  let p := pgEcho d
  ok (inRun s d sec n 6 (firstBad [(decide (inLen s d sec n ≠ 1), 4), (!is16E s, 8),
      (longBusy s d || decide (rf s p Off.SWEEP_STAT 0 3 = 1), 6)]) fun s =>
    let s1 := wr s p Off.SWEEP_CFG (word (fld a 0 8 * 2 ^ 16 + fld a 8 4 * 2 ^ 12 + 2))
    let s2 := sweepStart ⟨.firmware, 0⟩ d s1
    setLong s2 d (some ⟨sec, n, 6, s.clock, a.toNat⟩))

/-- ASSAY_REQUEST (R325, R366). -/
def execAssayRequest (d : Nat) (sec : Bool) (n : Nat) (s : State) : Host.Outcome State Fault Refusal :=
  let a := inArg s d sec n 0
  let c := fld a 0 8
  let wait := bit a 8
  ok (inRun s d sec n 7 (firstBad [(decide (inLen s d sec n ≠ 1), 4),
      ((decide (c ≠ 0xFF) && !asPresent s c) || (wait && decide (c = 0xFF)), 3), (wait && longBusy s d, 6),
      (!running s (pgAssay d) || (decide (c ≠ 0xFF) && noXtal s d && decide (asClass c = 0)), 7)]) fun s =>
    let s1 := asRequest s d c
    if wait then setLong s1 d (some ⟨sec, n, 7, s.clock, a.toNat⟩)
    else setResult s1 d sec n 0 [word (rf s1 (pgAssay d) Off.AS_CMD_STAT 16 8)])

/-- ABORT_LONG (R366). -/
def execAbortLong (d : Nat) (sec : Bool) (n : Nat) (s : State) : Host.Outcome State Fault Refusal :=
  ok (inRun s d sec n 8 (firstBad [(decide (inLen s d sec n ≠ 0), 4), (!longBusy s d, 7)]) fun s =>
    setResult (longEnd s d 0x0C) d sec n 0 [])

/-- TALLY_CLEAR (R366, R403). -/
def execTallyClear (d : Nat) (sec : Bool) (n : Nat) (s : State) : Host.Outcome State Fault Refusal :=
  let a := inArg s d sec n 0
  ok (inRun s d sec n 9 (firstBad [(decide (inLen s d sec n ≠ 1), 4), (decide (fld a 9 15 ≠ 0), 3)]) fun s =>
    setResult (tallyClear s d a.toNat) d sec n 0 [])

/-! Restarts of the Foreman core (R362, R363). -/

/-- `FW_UP` of both pages. -/
def setFwUp (s : State) (d : Nat) (b : Bool) : State :=
  wb (wb s (pgMbox d false) Off.MB_STAT 0 b) (pgMbox d true) Off.MB_STAT 0 b

/-- The core restarts (R362, R363): `FW_EPOCH` increments on both pages, messages that were BUSY return to FULL, or are
ABORTED where the page shuts down (R371), and the long command is lost with its core. -/
def fwRestart (s : State) (d cause : Nat) : State :=
  let s1 := setFwUp (setFw s d { (fw s d) with long := none, cause := cause }) d false
  let s2 := longFollow s1 d
  each [false, true] s2 fun s sec =>
    let p := pgMbox d sec
    let s1 := raise (wf s p Off.MB_EPOCH 8 8 (fwEpoch s d sec + 1)) p 16
    each (List.range 4) s1 fun s n =>
      if inState s d sec n = 2 ∧ (mbox s d (mbIx sec n)).held = none then
        let s1 := setInState (setMbox s d (mbIx sec n) { mbox s d (mbIx sec n) with result := none }) d sec n 1
        if running s p || fenced s p then s1 else inFinish s1 d sec n 0x0C []
      else s

/-- FW_RESTART (R362, R366): acknowledged OK, then the core restarts. -/
def execFwRestart (d : Nat) (sec : Bool) (n : Nat) (s : State) : Host.Outcome State Fault Refusal :=
  ok (inRun s d sec n 0x40 (firstBad [(!sec, 5), (decide (inLen s d sec n ≠ 0), 4)]) fun s =>
    fwRestart (inFinish s d sec n 0 []) d 2)

/-- FW_WATCHDOG_RESTART (R362). -/
def execFwWatchdogRestart (d : Nat) (s : State) : Host.Outcome State Fault Refusal :=
  ok (if d < s.part.dies ∧ fwLive s d then fwRestart s d 3 else s)

/-- The notice of a start of the core (R367). -/
def fwStartNote (s : State) (d : Nat) : State :=
  notice s d 0 0x81 [word (fwEpoch s d false * 2 ^ 8 + (die s d).boot.image), word (fw s d).cause]

/-- FW_STARTED: firmware is up again and handles the slots of an older epoch (R363, R367). -/
def execFwStarted (d : Nat) (s : State) : Host.Outcome State Fault Refusal :=
  ok (if d < s.part.dies ∧ awake s d ∧ ¬fwUp s d ∧ (fw s d).cause ≠ 0 then
    let s1 := fwStartNote (setFwUp s d true) d
    each ((fullSlots s1 d).filter fun x => oldEpoch s1 d x.1 x.2) s1 fun s x => inTake s d x.1 x.2
  else s)

/-! Lifecycle (R374). -/

/-- LIFECYCLE_ADVANCE is denied: not forward, skipping a state on the way to LOCKED, or RETIRED in a firing mode. -/
def lcDenied (s : State) (d t : Nat) : Bool :=
  decide (t ≤ (die s d).lc) || (decide (t = 2) && decide ((die s d).lc = 0))
    || (decide (t = 3) && decide (3 ≤ modeOf s d) && decide (modeOf s d ≤ 7))

/-- The new lifecycle state takes force (R374): sessions it would not open close, injection it does not permit stops,
and the key is destroyed in RETIRED. -/
def lcChange (s : State) (d t : Nat) : State :=
  let s1 := setDie s d { die s d with lc := t }
  let keep := decide (t = 0) || (decide (t = 1) && rb s (pgDebug d) Off.PAGE_CTRL 0)
  let s2 := if keep then s1 else dbgClose s1 d
  let s3 := if t = 3 then
      let x := sessClose (setDie s2 d { die s2 d with key := 2 ^ 256 - 1, keyId := 0 }) d
      wf (setDie x d { die x d with sess := { (die x d).sess with st := 4 } }) (pgSess d) Off.SESS_STAT 0 3 4
    else s2
  let s4 := each (dieList s) (allowedFollow s3) injFollow
  raise (raise s4 (pgSecDie d) 0) (pgDie d) 1

/-- LIFECYCLE_ADVANCE (R366, R374): `good` if the programmed fuses are verified. -/
def execLifecycleAdvance (d : Nat) (sec : Bool) (n : Nat) (good : Bool) (s : State) :
    Host.Outcome State Fault Refusal :=
  let t := fld (inArg s d sec n 0) 0 2
  ok (inRun s d sec n 0x41
    (firstBad [(!sec || lcDenied s d t, 5), (decide (inLen s d sec n ≠ 2), 4), (decide (inArg s d sec n 1 ≠ 0x5AA5C3#24), 3)])
    fun s => if good then setResult (lcChange s d t) d sec n 0 [] else setResult s d sec n 0x0A [])

/-! Notices (R367, R368). -/

/-- OUT_FULL: the next queued notice of a channel is posted (R367). -/
def execOutFull (d : Nat) (sec : Bool) (n : Nat) (s : State) : Host.Outcome State Fault Refusal :=
  let p := pgMbox d sec
  ok (if d < s.part.dies ∧ n < 4 ∧ fwLive s d ∧ running s p ∧ ¬rb s p (mbOff n Off.OUT_STAT) 0
      ∧ rb s p Off.MB_CFG n then
    let x := mbox s d (mbIx sec n)
    match x.queue with
    | [] => s
    | (code, args) :: q =>
      let s1 := setMbox s d (mbIx sec n)
        { x with queue := q, outTag := (x.outTag + 1) % 256, outAt := s.clock, outLate := false }
      let s2 := each args.zipIdx s1 fun s a => wr s p (mbOff n Off.OUT_ARG + 4 * a.2) a.1
      let s3 := wr s2 p (mbOff n Off.OUT_HDR) (word (code * 2 ^ 16 + x.outTag * 2 ^ 8 + args.length * 2 ^ 4))
      raise (wb (outQueued s3 d sec n) p (mbOff n Off.OUT_STAT) 0 true) p (4 + n)
  else s)

/-- A write of `OUT_ACK_n` (R368): a code other than 0 is recorded. -/
def outAck (r : Req) (d : Nat) (sec : Bool) (n : Nat) (v : Word) (s : State) : State :=
  let p := pgMbox d sec
  if rb s p (mbOff n Off.OUT_STAT) 0 ∧ fld (rd s p (mbOff n Off.OUT_HDR)) 8 8 = fld v 8 8 then
    let x := mbox s d (mbIx sec n)
    let s1 := if fld v 0 8 = 0 then s else setMbox s d (mbIx sec n) { x with outCode := some (fld v 8 8, fld v 0 8) }
    wb s1 p (mbOff n Off.OUT_STAT) 0 false
  else logErr s r p (mbOff n Off.OUT_ACK) true 0x41

/-- NOTICE_ACK (R368). -/
def execNoticeAck (r : Req) (d : Nat) (sec : Bool) (n : Nat) (v : Word) (s : State) :
    Host.Outcome State Fault Refusal :=
  ok (guardedWrite s r (pgMbox d sec) (mbOff (n % 4) Off.OUT_ACK)
    (outAck ⟨clsOn r (pgMbox d sec), r.rid⟩ d sec (n % 4) v))

/-! Timers (R370). -/

/-- Firmware writes `IN_PROG_n` of a long command at least every 100 ms, so an inbound timer of 100 ms or more never
expires while it runs (R365, R370). A shorter one may: the manual leaves the times of the writes open. -/
def progKeeps (s : State) (d : Nat) (sec : Bool) (n : Nat) (tmo : Nat) : Bool :=
  (longHere s d sec n).isSome && (decide (10 ≤ tmo) || freeBit s)

/-- IN_STUCK (R370). -/
def execInStuck (d : Nat) (sec : Bool) (n : Nat) (s : State) : Host.Outcome State Fault Refusal :=
  let p := pgMbox d sec
  let x := mbox s d (mbIx sec n)
  let tmo := rf s p Off.MB_CFG 16 8
  ok (if d < s.part.dies ∧ n < 4 ∧ (inState s d sec n = 1 ∨ inState s d sec n = 2) ∧ tmo ≠ 0 ∧ ¬fenced s p ∧ ¬x.inLate then
    if progKeeps s d sec n tmo then nextFree s
    else
      let s1 := waitClock s (x.inAt + tmo * 2500000)
      raise (setMbox s1 d (mbIx sec n) { mbox s1 d (mbIx sec n) with inLate := true }) p (8 + n)
  else s)

/-- OUT_STUCK (R370). -/
def execOutStuck (d : Nat) (sec : Bool) (n : Nat) (s : State) : Host.Outcome State Fault Refusal :=
  let p := pgMbox d sec
  let x := mbox s d (mbIx sec n)
  let tmo := rf s p Off.MB_CFG 8 8
  ok (if d < s.part.dies ∧ n < 4 ∧ rb s p (mbOff n Off.OUT_STAT) 0 ∧ tmo ≠ 0 ∧ ¬fenced s p ∧ ¬x.outLate then
    let s1 := waitClock s (x.outAt + tmo * 2500000)
    raise (setMbox s1 d (mbIx sec n) { mbox s1 d (mbIx sec n) with outLate := true }) p (12 + n)
  else s)

/-! Shut-down, fences and resets of the pages (R363, R371). -/

/-- The outbound halves of a page are cleared. -/
def outClear (s : State) (d : Nat) (sec : Bool) : State :=
  each (List.range 4) s fun s n =>
    wr (setMbox s d (mbIx sec n) { mbox s d (mbIx sec n) with queue := [] }) (pgMbox d sec) (mbOff n Off.OUT_STAT) 0#24

/-- `EN` := 0 (R371): FULL slots are answered ABORTED, a long command of the page is aborted, the outbound side is
cleared. -/
def mbStop (s : State) (d : Nat) (sec : Bool) : State :=
  let s1 := match (fw s d).long with
    | none => s
    | some l => if l.sec = sec then longEnd s d 0x0C else s
  let s2 := each (List.range 4) s1 fun s n => if inState s d sec n = 1 then inFinish s d sec n 0x0C [] else s
  outClear s2 d sec

/-- No slot of the page is BUSY (R371). -/
def mbIdle (s : State) (d : Nat) (sec : Bool) : Bool := (List.range 4).all fun n => decide (inState s d sec n ≠ 2)

/-- The page runs again after a fence (R371): acknowledgements that were held appear, or are discarded after a Function Level
Reset (R363), and the timers start anew (DESIGN CHOICE, log entry 84). -/
def mbResume (s : State) (d : Nat) (sec : Bool) : State :=
  each (List.range 4) s fun s n =>
    let x := mbox s d (mbIx sec n)
    let s1 := setMbox s d (mbIx sec n)
      { x with held := none, discard := x.discard && x.held.isNone, inAt := s.clock, outAt := s.clock }
    match x.held with
    | none => s1
    | some h =>
      if x.discard then setInState (count s1 (pgMbox d sec) Off.CNT_ACK_DISCARD) d sec n 0 else inLoad s1 d sec n h.1 h.2

/-- A soft reset of the page clears its slots and deduplication records (R361). -/
def mbReset (s : State) (d : Nat) (sec : Bool) : State :=
  each (List.range 4) s fun s n => setMbox s d (mbIx sec n) {}

/-- A Function Level Reset on MBOX_NS of a die (R362, R363); it discards a post of its own tick. -/
def mbFlr (s : State) (d : Nat) : State :=
  let p := pgMbox d false
  let s1 := each (List.range 4) s fun s n =>
    let x := mbox s d n
    match inState s d false n with
    | 1 => if x.postAt = some s.clock then setInState s d false n 0 else setMbox s d n { x with discard := true }
    | 2 => setMbox s d n { x with discard := true }
    | _ => setInState s d false n 0
  let s2 := wr (outClear s1 d false) p Off.MB_CFG 0x64640F#24
  raise (wf s2 p Off.MB_EPOCH 0 8 (rf s2 p Off.MB_EPOCH 0 8 + 1)) p 17

end Sys2Proof.Machine
end

