-- ==== Sys2Proof/Machine/Sha.lean ====
section
/-!
DEFINITION. HMAC-SHA-256 of R376 and R387. The manual names the function and does not define it: PRESUMED, as FIPS
180-4 and RFC 2104 define it (log entry 10).
-/
namespace Sys2Proof.Machine

/-- A 32-bit number rotated right. -/
def ror32 (n v : Nat) : Nat := (v / 2 ^ n + v * 2 ^ (32 - n)) % 2 ^ 32

/-- Exclusive or of three numbers. -/
def xor3 (a b c : Nat) : Nat := Nat.xor a (Nat.xor b c)

/-- The largest number below `r + 2 ^ i` and from `r` on whose `k`-th power is at most `n`. -/
def rootFrom (k n : Nat) : Nat → Nat → Nat
  | 0, r => r
  | i + 1, r => rootFrom k n i (if (r + 2 ^ i) ^ k ≤ n then r + 2 ^ i else r)

/-- The first 32 bits of the fraction of the `k`-th root of `p`. -/
def rootFraction (k p : Nat) : Nat := rootFrom k (p * 2 ^ (32 * k)) 37 0 % 2 ^ 32

/-- The primes below 312: the first 64. -/
def shaPrimes : List Nat :=
  (List.range 312).filter fun n =>
    decide (2 ≤ n) && (List.range 18).all fun m => decide (m < 2) || decide (n ≤ m) || decide (n % m ≠ 0)

/-- The round constants: of the cube roots of the first 64 primes. -/
def shaK : List Nat := shaPrimes.map (rootFraction 3)

/-- The initial hash: of the square roots of the first 8 primes. -/
def shaInit : List Nat := (shaPrimes.take 8).map (rootFraction 2)

/-- `n` further words of the message schedule in front of the words so far, newest first. -/
def shaExtend : Nat → List Nat → List Nat
  | 0, w => w
  | n + 1, w =>
    let x := w.getD 14 0
    let y := w.getD 1 0
    let s0 := xor3 (ror32 7 x) (ror32 18 x) (x / 2 ^ 3)
    let s1 := xor3 (ror32 17 y) (ror32 19 y) (y / 2 ^ 10)
    shaExtend n ((w.getD 15 0 + s0 + w.getD 6 0 + s1) % 2 ^ 32 :: w)

/-- One round on the working variables a to h. -/
def shaRound (v : List Nat) (kw : Nat) : List Nat :=
  match v with
  | [a, b, c, d, e, f, g, h] =>
    let t1 := h + xor3 (ror32 6 e) (ror32 11 e) (ror32 25 e) + Nat.xor (Nat.land e f) (Nat.land (2 ^ 32 - 1 - e) g) + kw
    let t2 := xor3 (ror32 2 a) (ror32 13 a) (ror32 22 a) + xor3 (Nat.land a b) (Nat.land a c) (Nat.land b c)
    [(t1 + t2) % 2 ^ 32, a, b, c, (d + t1) % 2 ^ 32, e, f, g]
  | _ => v

/-- The hash after one block of 16 words. -/
def shaBlock (h block : List Nat) : List Nat :=
  let w := (shaExtend 48 block.reverse).reverse
  let v := (List.zipWith (· + ·) shaK w).foldl shaRound h
  List.zipWith (fun a b => (a + b) % 2 ^ 32) h v

/-- The bytes of a number, most significant first. -/
def bytesBe (n v : Nat) : List Nat := (List.range n).map fun i => v / 256 ^ (n - 1 - i) % 256

/-- The number of a byte list, most significant first. -/
def ofBytesBe (bs : List Nat) : Nat := bs.foldl (fun a b => 256 * a + b) 0

/-- Sixteen 32-bit words of a block of 64 bytes. -/
def shaWords (bs : List Nat) : List Nat := (List.range 16).map fun i => ofBytesBe ((bs.drop (4 * i)).take 4)

/-- The padded message. -/
def shaPad (bs : List Nat) : List Nat :=
  bs ++ [0x80] ++ List.replicate ((119 - bs.length % 64) % 64) 0 ++ bytesBe 8 (8 * bs.length)

/-- SHA-256 of a byte list, as 32 bytes. -/
def sha256 (bs : List Nat) : List Nat :=
  let p := shaPad bs
  ((List.range (p.length / 64)).foldl (fun h i => shaBlock h (shaWords ((p.drop (64 * i)).take 64))) shaInit).flatMap
    fun w => bytesBe 4 w

/-- HMAC-SHA-256 with a 32-byte key. -/
def hmac256 (key msg : List Nat) : List Nat :=
  let k := key ++ List.replicate (64 - key.length) 0
  sha256 (k.map (fun b => Nat.xor b 0x5c) ++ sha256 (k.map (fun b => Nat.xor b 0x36) ++ msg))

end Sys2Proof.Machine
end

