-- ==== Sys2Proof/Machine/Security.lean ====
section
/-!
DEFINITION. The secure session (R376 to R380), page guards (R381, R382), the test access port and the debug session
(R384 to R388), and fault-injection permission (R390).
-/
namespace Sys2Proof.Machine

/-! The secure session. -/

/-- Set `SESS_STAT.STATE` and the state of the session. -/
def sessState (s : State) (d st : Nat) : State :=
  wf (setDie s d { die s d with sess := { (die s d).sess with st := st } }) (pgSess d) Off.SESS_STAT 0 3 st

/-- A write of `n` registers in a row. -/
def wrs (s : State) (p : Pg) (off : Nat) (ws : List Word) : State :=
  each ws.zipIdx s fun s e => wr s p (off + 4 * e.2) e.1

/-- `n` registers in a row. -/
def rds (s : State) (p : Pg) (off n : Nat) : List Word := (List.range n).map fun i => rd s p (off + 4 * i)

/-- `n` fresh words. -/
def freshWords (s : State) (n : Nat) : List Word := (List.range n).map fun i => word (Config.freeNat (s.free + i) % 2 ^ 24)

/-- Use up `n` free values. -/
def skipFree (s : State) (n : Nat) : State := { s with free := s.free + n }

/-- START: a fresh nonce and CHALLENGE (R376, R378); a session that is open closes first (R377). -/
def sessStart (s : State) (r : Req) (d : Nat) (bind : Bool) : State :=
  let p := pgSess d
  if (die s d).lc = 3 then s
  else if (die s d).sess.st = 3 then logErr s ⟨clsOn r p, r.rid⟩ p Off.SESS_CTRL true 0x40
  else
    let s1 := sessClose s d
    let s2 := setDie s1 d { die s1 d with sess := { (die s1 d).sess with bind := bind } }
    let s3 := skipFree (wrs s2 p Off.SESS_NONCE_D (freshWords s2 4)) 4
    sessState (if bind then wr s3 p Off.SESS_RID (word (r.rid % 2 ^ 16)) else s3) d 1

/-- A write of `SESS_CTRL`: BIND, CLOSE, START (R376, R379). -/
def sessCtrlWrite (r : Req) (d : Nat) (v : Word) (s : State) : State :=
  let s1 := wb s (pgSess d) Off.SESS_CTRL 2 (bit v 2)
  let s2 := if bit v 1 then sessClose s1 d else s1
  if bit v 0 then sessStart s2 r d (bit v 2) else s2

/-- SESSION_START: a write of `SESS_CTRL` with START (R376). -/
def execSessionStart (r : Req) (d : Nat) (bind : Bool) (s : State) : Host.Outcome State Fault Refusal :=
  ok (guardedWrite s r (pgSess d) Off.SESS_CTRL (sessCtrlWrite r d (word (1 + 4 * b2n bind))))

/-- SESSION_CLOSE: a write of `SESS_CTRL` with CLOSE (R379). -/
def sessCloseWrite (r : Req) (d : Nat) (s : State) : State :=
  sessCtrlWrite r d (setBit (rd s (pgSess d) Off.SESS_CTRL) 1 true) s

/-- SESSION_CLOSE (R379). -/
def execSessionClose (r : Req) (d : Nat) (s : State) : Host.Outcome State Fault Refusal :=
  ok (guardedWrite s r (pgSess d) Off.SESS_CTRL (sessCloseWrite r d))

/-- A requester other than the one that the last START with BIND = 1 names (R378). -/
def sessOther (s : State) (r : Req) (d : Nat) : Bool :=
  let x := (die s d).sess
  x.bind && decide (rdN s (pgSess d) Off.SESS_RID ≠ r.rid % 2 ^ 16)

/-- The bytes of words, most significant first. -/
def wordsBytes (ws : List Word) : List Nat := ws.flatMap fun w => bytesBe 3 w.toNat

/-- The message M of R376. -/
def sessMsg (s : State) (d : Nat) : List Nat :=
  let p := pgSess d
  let x := (die s d).sess
  [0x50, 0x5A, 0x53, 0x31] ++ bytesBe 6 (die s d).serial ++ wordsBytes (rds s p Off.SESS_NONCE_D 4)
    ++ wordsBytes (rds s p Off.SESS_NONCE_H 4) ++ [b2n x.bind] ++ bytesBe 2 (if x.bind then rdN s p Off.SESS_RID else 0)

/-- A 256-bit value in eleven words (R376). -/
def words256 (bs : List Nat) : List Word :=
  (List.range 11).map fun i => word (ofBytesBe ((((bs ++ [0]).drop (3 * i)).take 3)))

/-- HMAC-SHA-256 with the die-unique key. -/
def dieHmac (s : State) (d : Nat) (msg : List Nat) : List Nat := hmac256 (bytesBe 32 (die s d).key) msg

/-- The nonces are discarded (R377): what their registers hold then is not stated. -/
def nonceDrop (s : State) (d : Nat) : State :=
  let s1 := wrs s (pgSess d) Off.SESS_NONCE_D (freshWords s 4)
  let s2 := skipFree s1 4
  skipFree (wrs s2 (pgSess d) Off.SESS_NONCE_H (freshWords s2 4)) 4

/-- The response matches (R377). -/
def sessOpen (s : State) (d : Nat) : State :=
  let p := pgSess d
  let s1 := wrs s p Off.SESS_PROOF (words256 (dieHmac s d (sessMsg s d ++ [2])))
  let s2 := setDie s1 d { die s1 d with sess := { (die s1 d).sess with consec := 0, last := s.clock } }
  raise (count (wf (sessState s2 d 2) p Off.SESS_STAT 8 4 0) p Off.SESS_OPENS) p 0

/-- Backoff time in seconds after `n` consecutive failures (R380). -/
def backoffSec (n : Nat) : Nat := min (2 ^ (n - 4)) 64

/-- The response does not match (R377, R380). -/
def sessFail (s : State) (d : Nat) : State :=
  let p := pgSess d
  let n := (die s d).sess.consec + 1
  let s1 := setDie s d { die s d with sess := { (die s d).sess with
    consec := n, backoffEnd := s.clock + 250000000 * backoffSec n } }
  let s2 := sessState s1 d (if 4 ≤ n then 3 else 0)
  raise (count (wf s2 p Off.SESS_STAT 8 4 (min n 15)) p Off.SESS_FAILS) p 1

/-- The write of `SESS_RESP_10` checks the response (R377). -/
def sessCheck (r : Req) (d : Nat) (v : Word) (s : State) : State :=
  let p := pgSess d
  if sessOther s r d then logErr s ⟨clsOn r p, r.rid⟩ p (Off.SESS_RESP + 40) true 0x41
  else
    let s1 := wr s p (Off.SESS_RESP + 40) v
    if (die s d).sess.st ≠ 1 then s1
    else if rds s1 p Off.SESS_RESP 11 = words256 (dieHmac s d (sessMsg s d ++ [1])) then nonceDrop (sessOpen s1 d) d
    else nonceDrop (sessFail s1 d) d

/-- SESSION_CHECK: a write of `SESS_RESP_10` (R377). -/
def execSessionCheck (r : Req) (d : Nat) (v : Word) (s : State) : Host.Outcome State Fault Refusal :=
  ok (guardedWrite s r (pgSess d) (Off.SESS_RESP + 40) (sessCheck r d v))

/-- A write of `SESS_NONCE_H` or of `SESS_RESP_0` to `SESS_RESP_9` (R376, R378). -/
def sessDataWrite (r : Req) (d off : Nat) (v : Word) (s : State) : State :=
  let p := pgSess d
  if sessOther s r d then logErr s ⟨clsOn r p, r.rid⟩ p off true 0x41 else wr s p off v

/-- SESSION_TIMEOUT: `SESS_TMO` seconds have passed without an access (R379). -/
def execSessionTimeout (d : Nat) (s : State) : Host.Outcome State Fault Refusal :=
  let t := rf s (pgSess d) Off.SESS_TMO 0 16
  ok (if t ≠ 0 ∧ (die s d).sess.st = 2 then sessClose (waitClock s ((die s d).sess.last + t * 250000000)) d else s)

/-- BACKOFF_END (R380). -/
def execBackoffEnd (d : Nat) (s : State) : Host.Outcome State Fault Refusal :=
  ok (if (die s d).sess.st = 3 then sessState (waitClock s (die s d).sess.backoffEnd) d 0 else s)

/-! Page guards. -/

/-- A write of a guard register (R381, R382). -/
def guardSet (r : Req) (d off : Nat) (v : Word) (s : State) : State :=
  let p := pgGuard d
  let s1 := plainWrite s r p off v
  if rd s1 p off = rd s p off then s
  else
    let s2 := wr48 (count s1 p Off.GD_CHANGES) p Off.GD_LAST_TS_L (now s d)
    raise (wr s2 p Off.GD_LAST (word (clsCode (clsOn r p) * 2 ^ 18 + off / 4 % 256))) p 0

/-- GUARD_WRITE (R382). -/
def execGuardWrite (r : Req) (d off : Nat) (v : Word) (s : State) : Host.Outcome State Fault Refusal :=
  ok (if Off.GD_NS ≤ off ∧ off ≤ Off.GD_MEM then guardedWrite s r (pgGuard d) off (guardSet r d off v) else s)

/-! The test access port (R384 to R388). -/

/-- Instructions that give the boundary-scan cells control of the balls (R385). -/
def irPins (code : Nat) : Bool := [0x00, 0x03, 0x04, 0x05, 0x06].contains code

/-- The instruction register takes a code. -/
def tapIr (s : State) (d code : Nat) : State :=
  wf (setDie s d { die s d with tap := { (die s d).tap with ir := code, pins := irPins code } }) (pgDebug d) Off.DBG_STAT 8 8 code

/-- Pages that a boundary-scan instruction fences (R385). -/
def bscanPages (s : State) (d : Nat) : List Pg :=
  ((List.range (nPorts s)).map (pgHp d)) ++ (List.range (nAx s)).map (pgAx d)

/-- A boundary-scan instruction: every present HP and AX page is fenced first (R385). -/
def tapScan (s : State) (d code : Nat) : State := tapIr (each (bscanPages s d) s fun s p => fencePage s p 8) d code

/-- EXTEST (R385). -/
def execExtest (d : Nat) (s : State) : Host.Outcome State Fault Refusal := ok (if d < s.part.dies then tapScan s d 0x00 else s)
/-- CLAMP (R385). -/
def execClamp (d : Nat) (s : State) : Host.Outcome State Fault Refusal := ok (if d < s.part.dies then tapScan s d 0x03 else s)
/-- HIGHZ (R385). -/
def execHighz (d : Nat) (s : State) : Host.Outcome State Fault Refusal := ok (if d < s.part.dies then tapScan s d 0x04 else s)
/-- EXTEST_PULSE (R385). -/
def execExtestPulse (d : Nat) (s : State) : Host.Outcome State Fault Refusal :=
  ok (if d < s.part.dies then tapScan s d 0x05 else s)
/-- EXTEST_TRAIN (R385). -/
def execExtestTrain (d : Nat) (s : State) : Host.Outcome State Fault Refusal :=
  ok (if d < s.part.dies then tapScan s d 0x06 else s)
/-- SAMPLE/PRELOAD (R384). -/
def execSamplePreload (d : Nat) (s : State) : Host.Outcome State Fault Refusal :=
  ok (if d < s.part.dies then tapIr s d 0x01 else s)

/-- TIER code of `DIE_ID` and of IDCODE. -/
def tierCode (s : State) : Nat := match s.part.tier with | .t08 => 1 | .t16 => 2 | .t16E => 3

/-- The identification code (R384). -/
def idcode (s : State) (d : Nat) : Nat := 0x2 * 2 ^ 28 + (0x5E00 + 16 * tierCode s + d) * 2 ^ 12 + 0x2B6 * 2 + 1

/-- IDCODE (R384). -/
def execIdcode (d : Nat) (s : State) : Host.Outcome State Fault Refusal :=
  ok (if d < s.part.dies then { tapIr s d 0x02 with resp := .tdo (idcode s d) } else s)

/-- DBG_STATUS: the data register holds `DBG_STAT` (R384). -/
def execDbgStatus (d : Nat) (s : State) : Host.Outcome State Fault Refusal :=
  let s1 := tapIr s d 0x40
  ok (if d < s.part.dies then { s1 with resp := .tdo (rdN s1 (pgDebug d) Off.DBG_STAT) } else s)

/-- A capture of UNLOCK_CHAL (R387). -/
def tapChal (s : State) (d : Nat) : State :=
  let c := freeBelow s (2 ^ 64)
  let s1 := tapIr (nextFree s) d 0x41
  { setDie s1 d { die s1 d with tap := { (die s1 d).tap with chal := some c } } with resp := .tdo c }

/-- UNLOCK_CHAL (R387). -/
def execUnlockChal (d : Nat) (s : State) : Host.Outcome State Fault Refusal := ok (if d < s.part.dies then tapChal s d else s)

/-- The token of a challenge (R387). -/
def unlockToken (s : State) (d c : Nat) : Nat :=
  ofBytesBe ((dieHmac s d ([0x50, 0x5A, 0x44, 0x42, 0x47] ++ bytesBe 6 (die s d).serial ++ bytesBe 8 c)).take 8)

/-- A debug session opens (R386, R391). -/
def dbgOpen (s : State) (d : Nat) : State :=
  let s1 := setDie s d { die s d with tap := { (die s d).tap with session := true } }
  allowedFollow (raise (raise (count (wb s1 (pgDebug d) Off.DBG_STAT 0 true) (pgDebug d) Off.DBG_OPENS) (pgDebug d) 0) (pgDie d) 2)

/-- A wrong token in LOCKED (R386). -/
def tokenBad (s : State) (d : Nat) : State :=
  let p := pgDebug d
  let n := min ((die s d).tap.fails + 1) 3
  let s1 := setDie s d { die s d with tap := { (die s d).tap with fails := n, lockout := (die s d).tap.lockout || decide (n = 3) } }
  let s2 := wf (wb s1 p Off.DBG_STAT 6 (die s1 d).tap.lockout) p Off.DBG_STAT 4 2 n
  raise (count s2 p Off.DBG_FAILS_CNT) p 2

/-- An update of UNLOCK_RESP (R386, R387); the challenge is used up. -/
def unlockUpdate (s : State) (d token : Nat) : State :=
  let x := (die s d).tap
  let s0 := tapIr s d 0x42
  let s1 := setDie s0 d { die s0 d with tap := { (die s0 d).tap with chal := none } }
  if fenced s (pgDebug d) then s1
  else match (die s d).lc with
  | 0 => dbgOpen s1 d
  | 1 => if rb s (pgDebug d) Off.PAGE_CTRL 0 then dbgOpen s1 d else s1
  | 2 =>
    let good := match x.chal with | some c => decide (token % 2 ^ 64 = unlockToken s d c) | none => false
    if !good then tokenBad s1 d
    else if x.lockout || decide (4 ≤ rf s (pgMode d) Off.MODE_CUR 0 3) then s1
    else dbgOpen s1 d
  | _ => s1

/-- UNLOCK_RESP (R386). -/
def execUnlockResp (d token : Nat) (s : State) : Host.Outcome State Fault Refusal :=
  ok (if d < s.part.dies then unlockUpdate s d token else s)

/-- DBG_CLOSE (R388). -/
def execDbgClose (d : Nat) (s : State) : Host.Outcome State Fault Refusal :=
  ok (if d < s.part.dies then dbgClose (tapIr s d 0x44) d else s)

/-- Codes that name an instruction other than BYPASS (R384). -/
def irListed (code : Nat) : Bool := code ≤ 6 || (0x40 ≤ code && code ≤ 0x44)

/-- BYPASS: a code the table does not list (R384). -/
def execBypass (d code : Nat) (s : State) : Host.Outcome State Fault Refusal :=
  ok (if decide (d < s.part.dies) && decide (code < 256) && !irListed code then tapIr s d code else s)

/-- A write of `DBG_CTRL` (R388). -/
def dbgCtrlWrite (d : Nat) (v : Word) (s : State) : State := if bit v 0 then dbgClose s d else s

/-- DBG_CTRL_CLOSE (R388). -/
def execDbgCtrlClose (r : Req) (d : Nat) (s : State) : Host.Outcome State Fault Refusal :=
  ok (guardedWrite s r (pgDebug d) Off.DBG_CTRL (dbgCtrlWrite d 1#24))

/-- TRST_LOW: the session closes (R388); the instruction register returns to its reset value. -/
def execTrstLow (d : Nat) (s : State) : Host.Outcome State Fault Refusal :=
  ok (if d < s.part.dies then dbgClose (tapIr s d 0xFF) d else s)

/-! Fault-injection permission. -/

/-- A write of `IJL_CTRL` (R390). -/
def ijlWrite (r : Req) (d : Nat) (v : Word) (s : State) : State := injFollow (plainWrite s r (pgIjl d) Off.IJL_CTRL v) d

/-- IJL_ALLOW_WRITE (R390). -/
def execIjlAllowWrite (r : Req) (d : Nat) (allow : Bool) (s : State) : Host.Outcome State Fault Refusal :=
  ok (guardedWrite s r (pgIjl d) Off.IJL_CTRL (ijlWrite r d (word (b2n allow))))

end Sys2Proof.Machine
end

