-- ==== Sys2Proof/Machine/Pcie.lean ====
section
/-!
DEFINITION. The PCI Express endpoint: its link (R426, R427, R434), host reads (R422), held messages (R425), Bus Master
Enable (R421), and the resets of the function (R426).
-/
namespace Sys2Proof.Machine

/-! Host reads of Hoist bursts (R422). -/

/-- The burst of a channel whose host read is outstanding fails with a code of R285: it halts the channel if
it is the oldest, and else when its turn comes. -/
def readFails (s : State) (x : HostRead) (code : Nat) : State :=
  let h := hoist s x.die x.chan
  let e : HcErr := { code := code, addr := x.addr, host := true }
  match h.bursts with
  | [] => s
  | b :: r =>
    if b.hostRead && decide (b.id = x.burst) then
      hcFail (setHoist s x.die x.chan { h with bursts := r }) x.die x.chan (some b) e
    else
      let late (y : Burst) : Burst :=
        if y.hostRead && decide (y.id = x.burst) then { y with hostRead := false, err := some e } else y
      setHoist s x.die x.chan { h with bursts := b :: r.map late }

/-- Read `n` of those outstanding times out (R422): it is issued again, or given up. -/
def readTimeout (s : State) (n : Nat) (x : HostRead) : State :=
  if x.tries < rf s pgPcie Off.PC_CFG 0 2 then
    let s1 := { s with pcie := { s.pcie with reads := s.pcie.reads.set n { x with tries := x.tries + 1 } } }
    emit (count s1 pgPcie Off.CNT_REISSUE) (.hostRead x.die x.chan x.addr x.bytes)
  else
    let left := s.pcie.reads.filter fun y =>
      !(decide (y.die = x.die) && decide (y.chan = x.chan) && decide (y.burst = x.burst))
    let s1 := { s with pcie := { s.pcie with reads := left } }
    readFails (raise (count s1 pgPcie Off.CNT_CTO) pgPcie 4) x 2

/-- Correctable errors of the host link (R424), late completions of abandoned tags among them (R422). -/
def linkErrors (s : State) (n : Nat) : State :=
  if n = 0 then s else raise (countBy s pgPcie Off.CNT_CORR n) pgPcie 6

/-- COMPLETION_TIMEOUT (R422): the completion timeout of the `n`-th outstanding host read passes, after `corr` correctable
errors. -/
def execCompletionTimeout (e : ReadTimeout) (s : State) : Host.Outcome State Fault Refusal :=
  ok (match s.pcie.reads[e.read]? with
    | some x => readTimeout (linkErrors s e.corr) e.read x
    | none => s)

/-! Messages (R425). -/

/-- MSIX_PENDING_SEND (R425): the message of a pending vector leaves once the four conditions hold. -/
def execMsixPendingSend (v : Nat) (s : State) : Host.Outcome State Fault Refusal :=
  ok (if v ∈ s.pcie.pba ∧ msixOpen s v then
    emit { s with pcie := { s.pcie with pba := s.pcie.pba.filter fun w => decide (w ≠ v) } } (.msix v)
  else s)

/-! Bus Master Enable (R421). -/

/-- Credit mirrors that were held are sent (R421). -/
def mirrorsSend (s : State) (d : Nat) : State :=
  each (List.range (nChutes s)) s fun s c => whenDo (chute s d c).mirrorHeld s fun s => mirrorWrite s d c

/-- Completion records that were held are written, as far as their queues have room (R292, R421). -/
def recordsSend (s : State) (d : Nat) : State :=
  each (List.range 4) s fun s q =>
    each (List.replicate ((cqRecs s d).filter fun r => decide (r.q = q)).length ()) s fun s _ => cqWrite s d q

/-- Bus Master Enable takes a value (R421). -/
def bmeSet (s : State) (b : Bool) : State :=
  let s1 := { s with pcie := { s.pcie with bme := b } }
  if b then each (dieList s) s1 fun s d => recordsSend (mirrorsSend s d) d else s1

/-- BUS_MASTER_ENABLE (R421): the host sets Bus Master Enable. -/
def execBusMasterEnable (s : State) : Host.Outcome State Fault Refusal := ok (bmeSet s true)

/-! Resets (R426). -/

/-- Configuration space takes its reset values, and every vector is masked (R426). -/
def configReset (s : State) : State :=
  { s with pcie := { s.pcie with
    bme := false, mse := false, msixEn := false, msixFmask := false, unmasked := [], bars := [], ctoRange := 0, maxPayload := 128
    maxRead := 512 } }

/-- Outstanding host reads are abandoned, and their channels halt with HOST_UR (R426). -/
def readsAbandon (s : State) : State :=
  each s.pcie.reads { s with pcie := { s.pcie with reads := [] } } fun s x => readFails s x 1

/-- `EVT_EN` := 0 on the non-secure pages of a die (R426). -/
def eventsOff (s : State) (d : Nat) : State :=
  { s with regs := Tbl.drop s.regs fun k => decide (k.1.die = d) && !k.1.sec && decide (k.2 = Off.EVT_EN) }

/-- A Function Level Reset (R363, R426). -/
def functionReset (s : State) : State :=
  let s1 := readsAbandon (configReset s)
  let s2 := each (dieList s) { s1 with pcie := { s1.pcie with flrAt := some s.clock } } fun s d => mbFlr (eventsOff s d) d
  raise (count s2 pgPcie Off.CNT_FLR) pgPcie 2

/-- FLR (R426). -/
def execFlr (s : State) : Host.Outcome State Fault Refusal := ok (functionReset s)

/-! The link (R426, R434). -/

/-- `PC_STAT` with a link: generation, lanes, LTSSM state, L0. -/
def linkWord (s : State) (gen width ltssm : Nat) (l0 : Bool) : Word :=
  word (gen % 16 * 2 ^ 16 + width % 16 * 2 ^ 8 + ltssm % 64 * 2 ^ 2 + b2n (rb s pgPcie Off.PC_STAT 1) * 2 + b2n l0)

/-- The host link leaves L0 other than to L1 (R434). -/
def hostLinkDown (s : State) (ltssm : Nat) : State :=
  let was := rb s pgPcie Off.PC_STAT 0
  let s1 := wr s pgPcie Off.PC_STAT (linkWord s 0 0 ltssm false)
  if was then raise (count s1 pgPcie Off.CNT_LINKDOWN) pgPcie 1 else s1

/-- The host link is in L0 at a generation and width (R434). -/
def hostLinkUp (s : State) (gen width ltssm : Nat) : State :=
  let old := rd s pgPcie Off.PC_STAT
  let s1 := wr s pgPcie Off.PC_STAT (linkWord s gen width ltssm true)
  if !bit old 0 then raise s1 pgPcie 0
  else if fld old 16 4 = gen ∧ fld old 8 4 = width then s1
  else raise s1 pgPcie 7

/-- A generation and a width that the endpoint trains at (R418). -/
def linkShape (gen width : Nat) : Bool := decide (1 ≤ gen) && decide (gen ≤ 5) && [1, 2, 4, 8].contains width

/-- CONVENTIONAL_RESET (R426): as a Function Level Reset; every secure session closes (R379) and the link goes down. -/
def execConventionalReset (s : State) : Host.Outcome State Fault Refusal :=
  ok (let s1 := each (dieList s) (functionReset s) fun s d => sessClose s d
    let s2 := { s1 with pcie := { s1.pcie with perst := true } }
    nextFree (hostLinkDown s2 (freeBelow s2 64)))

/-- PCIE_LINK_UP (R426, R434): the link of a part that has passed step 7 of start-up reaches L0, or changes its speed or
width in L0. -/
def execPcieLinkUp (gen width ltssm : Nat) (s : State) : Host.Outcome State Fault Refusal :=
  ok (if powered s && linkShape gen width && ((die s 0).boot.complete || decide (7 < (die s 0).boot.step)) then
    hostLinkUp { s with pcie := { s.pcie with perst := false } } gen width ltssm
  else s)

/-- PCIE_LINK_DOWN (R434). -/
def execPcieLinkDown (ltssm : Nat) (s : State) : Host.Outcome State Fault Refusal :=
  ok (if rb s pgPcie Off.PC_STAT 0 then hostLinkDown s ltssm else s)

end Sys2Proof.Machine
end

