-- ==== Sys2Proof/Machine/Power.lean ====
section
/-!
DEFINITION. Supplies and the always-on domain: entry to DORMANT (R395), wakes (R396), brown-out and the loss of VAON
(R397, R438), and the state in which a start begins (R10, R397, R399).
-/
namespace Sys2Proof.Machine

/-! What outlasts the loss of VIN (R397). -/

/-- The power registers of die 0, which belong to the always-on domain (R397). -/
def alwaysOn (k : RegKey) : Bool :=
  decide (k.1 = pgDie 0) && [Off.PWR_CFG, Off.PWR_ALARM_L, Off.PWR_ALARM_H, Off.PWR_STAT, Off.PWR_WAKES].contains k.2

/-- A die in reset, its fuses, its serial number and what the package keeps of its starts. -/
def dieAfresh (s : State) (d : Nat) : DieSt :=
  let x := die s d
  { serial := x.serial, lot := x.lot, wafer := x.wafer, key := x.key, keyId := x.keyId, lc := x.lc, fuseOk := x.fuseOk
    keyOk := x.keyOk, boot := { lastImage := x.boot.lastImage, starts := x.boot.starts, since := s.clock } }

/-- The ageing monitors of a die whose islands lose their supply. -/
def lampAfresh (x : LampSt) : LampSt := { isl := x.isl, hourDone := x.hourDone, dayDone := x.dayDone }

/-- The package after a loss of VIN or a restart: the seconds counter, the always-on domain, the factory table. -/
def pkgAfresh (x : PkgSt) : PkgSt :=
  { seconds := x.seconds, secFrac := 0, lpoInc := x.lpoInc, edgeAt := x.edgeAt, power := x.power, vinEn := x.vinEn, wokeBy := x.wokeBy
    woken := x.woken, wokeAt := x.wokeAt, lastMode := x.lastMode, vaonOn := x.vaonOn, powerOn := x.powerOn, xtal := x.xtal }

/-- Every die in reset at the start of step 0 (R10, R397, R400): the retention store, the fuses, the always-on domain
and the strap remain. -/
def startOver (s : State) : State :=
  { pending := s.pending, clock := s.clock, free := s.free, part := s.part
    regs := s.regs.filter fun e => alwaysOn e.1
    ret := s.ret, retEcc := s.retEcc
    mems := s.mems.map fun e => (e.1, ({ saved := e.2.saved } : MemSt))
    lamps := s.lamps.map fun e => (e.1, lampAfresh e.2)
    dies := (dieList s).map fun d => (d, dieAfresh s d)
    tsync := { secSet := s.tsync.secSet }
    pkg := pkgAfresh s.pkg
    pcie := { clksel := s.pcie.clksel }
    resp := s.resp, out := s.out }

/-! Entry to DORMANT (R395). -/

/-- A die stops as for STANDBY (R393, R395), with its Assay tables saved, which takes less time than the switch (R334), and
its sessions close (R379, R388). -/
def dormantDie (s : State) (d : Nat) : State :=
  let s1 := if saveState s d = 1 then asSaved s d else s
  dbgClose (sessClose (if modeOf s1 d = 1 then s1 else stbyEnter s1 d) d) d

/-- The switch tick of a DORMANT request (R395): the dies stop, the host link goes to electrical idle, AON_VIN_EN goes
low; the seconds counter has not been set in the time to come (R72). The LTSSM state has no code in the manual: a free
value. -/
def dormantEnter (s : State) : State :=
  let s1 := each (dieList s) (modeSwitch s) dormantDie
  let s2 := nextFree (hostLinkDown s1 (freeBelow s1 64))
  { s2 with pkg := { s2.pkg with power := .stopped, vinEn := false }, tsync := { s2.tsync with secSet := false } }

/-- DORMANT_ENTRY (R395). -/
def execDormantEntry (s : State) : Host.Outcome State Fault Refusal :=
  ok (if s.pkg.power = .entering ∧ inTransition s ∧ s.pkg.nextMode = 0 then
    dormantEnter (waitTick s 0 (rd48 s (pgMode 0) Off.MODE_SW_TS_L))
  else s)

/-- VIN_OFF (R395, R438): VIN falls below its off level with a DORMANT entry in progress. -/
def execVinOff (s : State) : Host.Outcome State Fault Refusal :=
  ok (if s.pkg.power = .stopped then
    startOver { s with pkg := { s.pkg with power := .off } }
  else s)

/-! Wakes (R396). -/

/-- The part is stopped or off after a DORMANT entry, and no wake has come. -/
def asleep (s : State) : Bool :=
  !s.pkg.woken && (decide (s.pkg.power = .stopped) || (decide (s.pkg.power = .off) && !s.pkg.vinEn))

/-- A source qualifies now: it wakes the part, or shares the wake of this oscillator cycle (R396). -/
def wakeNow (s : State) : Bool :=
  s.pkg.vaonOn && (asleep s || (s.pkg.woken && decide (s.pkg.power ≠ .running) && decide (s.pkg.wokeAt = s.clock)))

/-- A wake by the source of bit `i` of `PWR_STAT` (R396). -/
def wakeBy (s : State) (i : Nat) : State :=
  { s with pkg := { s.pkg with
    wokeBy := s.pkg.wokeBy ||| 2 ^ i, woken := true, wokeAt := s.clock, vinEn := true } }

/-- WAKE_PIN (R396): a qualified edge on AON_WAKE_n. -/
def execWakePin (n : Nat) (rising : Bool) (s : State) : Host.Outcome State Fault Refusal :=
  let w := rd s (pgDie 0) Off.PWR_CFG
  ok (if decide (n < 4) && wakeNow s && bit w (4 + n) && (bit w (8 + n) != rising) then wakeBy s (4 + n) else s)

/-- WAKE_ALARM (R396): the seconds edge at which the counter equals `PWR_ALARM`. -/
def execWakeAlarm (s : State) : Host.Outcome State Fault Refusal :=
  ok (if wakeNow s && rb s (pgDie 0) Off.PWR_CFG 12 && decide (s.pkg.edgeAt = s.clock) && decide (s.pkg.seconds = rd48 s (pgDie 0) Off.PWR_ALARM_L) then
    wakeBy s 2
  else s)

/-- The clock of the low-power oscillator's next seconds edge (R68): a second of 250,000,000 ticks within ±250 ppm. -/
def lpoEdge (s : State) : Nat := s.pkg.edgeAt + 249937500 + s.pkg.lpoInc

/-- The seconds counter runs from the low-power oscillator (R68): from the DORMANT entry until the counter of die 0 runs
again. -/
def lpoRuns (s : State) : Bool :=
  s.pkg.vaonOn && (s.pkg.woken || !s.pkg.vinEn) && !(powered s && (die s 0).counting)

/-- DORMANT_SECONDS_EDGE (R68): the counter advances from the low-power oscillator, whose error until the next edge is a
free value. -/
def execDormantSecondsEdge (s : State) : Host.Outcome State Fault Refusal :=
  ok (if lpoRuns s then
    let s1 := waitClock s (lpoEdge s)
    nextFree { s1 with pkg := { s1.pkg with
      seconds := (s1.pkg.seconds + 1) % tickMod, edgeAt := s1.clock, lpoInc := freeBelow s1 125001 } }
  else s)

/-! Supply failures (R397, R438). -/

/-- VIN_BROWNOUT (R438): every die is reset at once, and VIN returns later without a DORMANT entry. -/
def execVinBrownout (s : State) : Host.Outcome State Fault Refusal :=
  ok (if powered s then
    startOver { s with pkg := { s.pkg with power := .off, vinEn := true, woken := false, wokeBy := 0 } }
  else s)

/-- VAON_RESET (R438): the always-on domain is reset, and its registers take their reset values. -/
def execVaonReset (s : State) : Host.Outcome State Fault Refusal :=
  ok { s with
    regs := Tbl.drop s.regs alwaysOn
    pkg := { s.pkg with
      seconds := 0, secFrac := 0, lpoInc := 0, edgeAt := s.clock, wokeBy := 0, woken := false, lastMode := 0, vinEn := true, vaonOn := false }
    tsync := { s.tsync with secSet := false } }

/-- VAON_APPLIED (R397): the always-on domain starts from its reset values, with POWER_ON set. -/
def execVaonApplied (s : State) : Host.Outcome State Fault Refusal :=
  ok (if s.pkg.vaonOn then s
  else
    let s1 := { s with pkg := { s.pkg with vaonOn := true, powerOn := true } }
    wr s1 (pgDie 0) Off.PWR_STAT 1#24)

end Sys2Proof.Machine
end

