-- ==== Sys2Proof/Machine/Boot.lean ====
section
/-!
DEFINITION. Start-up (R399 to R405): the boot steps, their alternatives and failures, the enumeration of the dies, and
the end of a start (R31, R335, R397).
-/
namespace Sys2Proof.Machine

/-! Steps. -/

/-- The step in progress on a die, which has not failed: `st`. -/
def atStep (s : State) (d st : Nat) : Bool :=
  let b := (die s d).boot
  decide (d < s.part.dies) && decide (s.pkg.power = .running) && decide (b.step = st) && decide (b.outcome.length = st)
    && !b.complete && !b.stuck

/-- The next step of a die begins. -/
def setBoot (s : State) (d : Nat) (b : BootSt) : State := setDie s d { die s d with boot := b }

/-- Duration of the step in progress, µs; the manual gives no rounding. -/
def stepUs (s : State) (d : Nat) : Nat := (openRound s (s.clock - (die s d).boot.since : Nat) 250).toNat

/-- A step of a die ends with a LAST code (R400 to R402), and the next one begins. -/
def stepEnd (s : State) (d last alt detail : Nat) : State :=
  let b := (die s d).boot
  let s1 := nextFree (tlRecord s d b.step last alt detail (stepUs s d))
  setBoot s1 d { b with
    step := b.step + 1, since := s.clock, outcome := b.outcome ++ [last]
    alts := if last = 3 then b.alts + 2 ^ b.step else b.alts }

/-- The steps whose count of consecutive failures is 3 or more, one bit each (R400). -/
def tlSkips (s : State) (d : Nat) : Nat := (((List.range 9).filter fun st => decide (3 ≤ tlConsec s d st)).map (2 ^ ·)).sum

/-- The step is skipped at this start: its count was 3 or more when the start began; a clear acts from the next one (R400,
R403). -/
def stepSkip (s : State) (d : Nat) : Bool := (die s d).boot.skips.testBit (die s d).boot.step

/-- The DETAIL that the entry of the step in progress holds: an alternative keeps the failure's (R402). -/
def stepDetail (s : State) (d : Nat) : Nat := fld (retRaw s d (tlWord (die s d).boot.step 0)) 0 8

/-- The step in progress completes, or its alternative `alt` is taken. -/
def stepDone (s : State) (d alt : Nat) : State :=
  if stepSkip s d then stepEnd s d 3 alt (stepDetail s d) else stepEnd s d 1 0 0

/-- A step that a die does not run (R401). -/
def stepNone (s : State) (d : Nat) : State := stepEnd s d 4 0 0

/-! Step 0 (R397, R399, R438). -/

/-- The cause that `PWR_STAT` shows of the start that begins (R397). -/
def powerCause (s : State) : Nat :=
  (if s.pkg.powerOn then 1 else if s.pkg.woken then s.pkg.wokeBy else 2) + s.pkg.lastMode % 8 * 2 ^ 8

/-- VIN is there again: a start begins, and `PWR_STAT` is loaded (R395, R397). -/
def powerReturn (s : State) : State :=
  let s1 := startOver { s with pkg := { s.pkg with power := .running, vinEn := true } }
  wr s1 (pgDie 0) Off.PWR_STAT (word (powerCause s1))

/-- The counter of die 0 starts after a wake (R68): the first seconds edge comes in the phase of the low-power oscillator,
to within 1/32,768 s (7,629 ticks), a free value. -/
def secPhase (s : State) : State :=
  if s.pkg.woken then
    let left : Nat := lpoEdge s + freeBelow s 15259 - 7629 - s.clock
    nextFree { s with pkg := { s.pkg with secFrac := 250000000 - (left : Int) } }
  else s

/-- VIN can rise: it was lost without a DORMANT entry, or a wake has come (R395 to R397). -/
def vinReturns (s : State) : Bool :=
  s.pkg.vaonOn && (decide (s.pkg.power = .off) || decide (s.pkg.power = .stopped)) && (s.pkg.woken || s.pkg.vinEn)

/-- POWER_GOOD (R399). Its entry on the board is written once firmware's boot ROM opens the board at step 1. -/
def execPowerGood (d : Nat) (s : State) : Host.Outcome State Fault Refusal :=
  let s1 := if decide (d < s.part.dies) && vinReturns s then powerReturn s else s
  ok (if atStep s1 d 0 then
    let b := (die s1 d).boot
    nextFree (setBoot s1 d { b with step := 1, since := s1.clock, outcome := [1], us0 := stepUs s1 d })
  else s1)

/-! Enumeration (R405). -/

/-- A die is left out of this start (R401, R405). -/
def leaveOut (s : State) (d : Nat) : State := dieLost (setBoot s d { (die s d).boot with stuck := true }) d

/-- Steps 5 of every die that takes part have ended. -/
def linksSettled (s : State) : Bool :=
  (dieList s).all fun d => (die s d).boot.stuck || decide (6 ≤ (die s d).boot.step)

/-- Firmware restores the Assay tables and queues the STARTUP runs of a die at the start of its step 8 (R335). -/
def assayBegin (s : State) (d : Nat) : State :=
  let s1 := setBoot s d { (die s d).boot with since := s.clock }
  if (die s1 d).boot.noFw then s1
  else
    let s2 := if storeGood s1 d then loadPoints s1 d else s1
    if stepSkip s2 d then s2 else each (asAll s2) s2 fun s c => asQueue s d c 6

/-- Die `d` has completed steps 0 to 6. -/
def sixDone (s : State) (d : Nat) : Bool := decide (7 ≤ (die s d).boot.step) && !(die s d).boot.stuck

/-- The dies whose steps 0 to 6 are complete and that a trained path leads to become enumerated (R405); step 8 begins on
one that joins after step 7 of die 0. -/
def enumFollow (s : State) : State :=
  each ((dieList s).filter fun d => sixDone s d && !enumerated s d && reaches s 0 d) s fun s d =>
    let s1 := allowedFollow (wb s (pgFence 0) Off.FN_DIE_STAT d true)
    if d ≠ 0 ∧ 8 ≤ (die s1 0).boot.step then assayBegin s1 d else s1

/-- Enumeration follows what has trained: dies that no path leads to once the links have settled are left out (R405). -/
def startFollow (s : State) : State :=
  let s1 := enumFollow s
  if linksSettled s1 then
    each ((dieList s1).filter fun d => decide (d ≠ 0) && !(die s1 d).boot.stuck && !reaches s1 0 d) s1 leaveOut
  else s1

/-! Step 1 (R399, R402). -/

/-- The boot ROM opens the board: its version, the start number, the seconds, the steps to skip, and the entry of step 0
(R400, R402). -/
def boardOpen (s : State) (d : Nat) : State :=
  let s0 := tlCheck s d
  let s1 := setBoot s0 d { (die s0 d).boot with skips := tlSkips s0 d }
  let s2 := retWrite (retWrite s1 d 17 (inc24 (retRaw s1 d 17))) d 19 (lo24 s.pkg.seconds)
  tlRecord s2 d 0 1 0 0 (die s d).boot.us0

/-- What the voted fuses of a die hold (R373, R375, R376): programmed lifecycle bits do not return, and the key of a
retired die is destroyed. -/
def fusesTake (s : State) (d : Nat) (f : Fuses) : State :=
  let x := die s d
  let lc := max x.lc (f.lc % 4)
  let s1 := setDie s d { x with
    serial := f.serial % 2 ^ 48, lot := f.lot, wafer := f.wafer, lc := lc, fuseOk := true, keyOk := f.keyGood
    key := if lc = 3 then 2 ^ 256 - 1 else f.key % 2 ^ 256, keyId := if lc = 3 then 0 else f.keyId }
  let s2 := if lc = 3 then
      wf (setDie s1 d { die s1 d with sess := { (die s1 d).sess with st := 4 } }) (pgSess d) Off.SESS_STAT 0 3 4
    else s1
  each (dieList s) (allowedFollow s2) injFollow

/-- FUSE_READ (R399, R401): without its alternative on die 0, which stays in reset. -/
def execFuseRead (d : Nat) (f : Fuses) (s : State) : Host.Outcome State Fault Refusal :=
  ok (if !atStep s d 1 then s
  else
    let s1 := boardOpen s d
    if stepSkip s1 d then
      if d = 0 then setBoot s1 0 { (die s1 0).boot with stuck := true }
      else startFollow (leaveOut (stepEnd s1 d 3 6 (stepDetail s1 d)) d)
    else if !f.good then s
    else
      let s2 := stepEnd (fusesTake s1 d f) d 1 0 0
      if d = 0 then s2 else stepNone s2 d)

/-! Steps 2 to 4 (R399, R401). -/

/-- CRYSTAL (R399): the crystal runs, or the timebase takes the internal oscillator (R61, R401). -/
def execCrystal (s : State) : Host.Outcome State Fault Refusal :=
  ok (if atStep s 0 2 then stepDone (if stepSkip s 0 then toInternal s else s) 0 2 else s)

/-- PLL_LOCK (R64, R399): the timebase PLL of a die, or its second one, is locked; the counter starts at 0. -/
def execPllLock (d : Nat) (s : State) : Host.Outcome State Fault Refusal :=
  ok (if atStep s d 3 then
    let s1 := setDie s d { die s d with pllLocked := true, pllSince := s.clock, counting := true, tick := 0 }
    let s2 := setDyn (wb s1 (pgTb d) Off.TB_STAT 2 true) (pgTb d) 1 false
    stepDone (if d = 0 then secPhase (setSyncOk s2 0 true) else s2) d 3
  else s)

/-- The lode banks and the dual-port store of a die hold 0 with valid check bits (R309). -/
def memAfresh (s : State) (d : Nat) : State :=
  { s with mem := s.mem.filter (fun e => decide (e.1 / 2 ^ 24 ≠ d)), ecc := Tbl.drop s.ecc fun a => decide (a / 2 ^ 24 = d) }

/-- The repair map is applied: each live repair takes a spare row of its bank (R316, R318). -/
def mapApply (s : State) (d : Nat) : State :=
  each (memSt s d).saved s fun s b =>
    let off := Off.REP_USED + 4 * (b / 4)
    wf s (pgMemctl d) off (5 * (b % 4)) 5 (rf s (pgMemctl d) off (5 * (b % 4)) 5 + 1)

/-- Firmware clears the repair map (R401). -/
def mapClear (s : State) (d : Nat) : State :=
  retWrites (setMemSt s d { memSt s d with saved := [] }) d 272 (List.replicate 64 0#24)

/-- Bonded ports of a die, with the far die and port (R21). -/
def bonds (s : State) (d : Nat) : List (Nat × Nat × Nat) :=
  [0, 1].filterMap fun i => (burimPeer s.part.dies d i).map fun e => (i, e.1, e.2)

/-- `BU_STAT` of a port takes a state and its peer. -/
def portIs (s : State) (d i e st : Nat) : State :=
  wr s (pgBurim d) (Off.BU_STAT_0 + 4 * i) (word (e * 2 ^ 8 + st))

/-- Step 5 of a die begins on the links whose other die has completed step 4 too; a part of one die has none. -/
def linksBegin (s : State) (d : Nat) : State :=
  if s.part.dies = 1 then stepNone s d
  else each (bonds s d) s fun s b => if burimState s d b.1 = 0 then portIs s d b.1 b.2.1 1 else s

/-- MEM_REPAIR (R309, R318, R399, R401). -/
def execMemRepair (d : Nat) (s : State) : Host.Outcome State Fault Refusal :=
  ok (if atStep s d 4 then
    let s1 := memAfresh s d
    let s2 := stepDone (if stepSkip s d then mapClear s1 d else mapApply s1 d) d 4
    linksBegin s2 d
  else s)

/-! Step 5 (R399, R401, R405). -/

/-- The link has failed three times at an end: it stays down (R400, R401). -/
def linkSkip (s : State) (d i : Nat) : Bool := (die s d).boot.skips.testBit 5 && (fld (retRaw s d (tlWord 5 0)) 0 8).testBit i

/-- The counter of a die agrees with that of die 0 to within the residual offset, from its time source or, where that
link is not UP, from its other neighbour (R69 to R71). -/
def alignDie (s : State) (d : Nat) : State :=
  let s1 := setDie s d { die s d with tick := now s 0, lastFlit0 := s.clock }
  match newSource s d with
  | some e => setSyncOk (wf s1 (pgTb d) Off.TB_STAT 6 2 (syncCode s.part.dies d e)) d true
  | none => s1

/-- The dies that a trained path leads to, and that have not been aligned, are aligned. -/
def alignFollow (s : State) : State :=
  each ((dieList s).filter fun d =>
    decide (d ≠ 0) && !(die s d).boot.stuck && (die s d).counting && (die s 0).counting && reaches s 0 d
      && decide (rf s (pgTb d) Off.TB_STAT 6 2 = 0)) s alignDie

/-- Every bonded link of a die has ended its step 5: UP, kept down, or to a die that is left out. -/
def linksEnded (s : State) (d : Nat) : Bool :=
  (bonds s d).all fun b => decide (burimState s d b.1 = 2) || decide (burimState s d b.1 = 4) || (die s b.2.1).boot.stuck

/-- Step 5 ends on the dies all of whose links have ended it. -/
def linksEnd (s : State) : State :=
  each ((dieList s).filter fun d => atStep s d 5 && linksEnded s d) s fun s d =>
    let down := ((bonds s d).filter fun b => decide (burimState s d b.1 = 4)).map fun b => 2 ^ b.1
    if down = [] then stepEnd s d 1 0 0 else stepEnd s d 3 5 down.sum

/-- Both ends of a link enter UP for the first time. -/
def linkFirstUp (s : State) (d i e j : Nat) : State :=
  raise (raise (portIs (portIs s d i e 2) e j d 2) (pgBurim d) i) (pgBurim e) j

/-- Both ends of a link stay DOWN at this start (R401). -/
def linkKeptDown (s : State) (d i e j : Nat) : State :=
  raise (raise (portIs (portIs s d i e 4) e j d 4) (pgBurim d) (2 + i)) (pgBurim e) (2 + j)

/-- What follows a change of the links during start-up. -/
def linksFollow (s : State) : State := startFollow (linksEnd (alignFollow (seamsAll (routesFollow s))))

/-- BURIM_TRAIN (R399): the link of a port is trained and the counter of the far die aligned, or it is kept down. -/
def execBurimTrain (d i : Nat) (s : State) : Host.Outcome State Fault Refusal :=
  ok (match burimPeer s.part.dies d i with
    | none => s
    | some (e, j) =>
      if atStep s d 5 && atStep s e 5 && linkIn s d i e j 1 then
        linksFollow (if linkSkip s d i || linkSkip s e j then linkKeptDown s d i e j else linkFirstUp s d i e j)
      else s)

/-! Step 6 (R362, R401, R404). -/

/-- The trims come back from the newest good record of the daily history (R352, R354); it holds no GUARD and no CALINT,
which stay as they were. Without a record every island starts from its defaults. -/
def trimsRestore (s : State) (d : Nat) : State :=
  let trim (ws : List Word) (i : Nat) : Nat := if i < 6 then fld (ws.getD 4 0#24) (4 * i) 4 else fld (ws.getD 5 0#24) (4 * (i - 6)) 4
  each (List.range 11) s fun s i =>
    let x := island s d i
    match histNewest s d 1 with
    | ws :: _ => setIsland s d i { x with drift := 0, vtrim := min (trim ws i) 8 }
    | [] => setIsland s d i { m0 := x.m0, kv := x.kv, lastAge := x.lastAge }

/-- The Foreman core of a die starts on an image (R362, R367, R404). -/
def coreStart (s : State) (d image : Nat) : State :=
  let b := (die s d).boot
  let change := decide (b.starts ≠ 0) && decide (b.lastImage ≠ image)
  let s1 := setBoot s d { b with image := image, lastImage := image, starts := b.starts + 1 }
  let s2 := setFw (setFwUp s1 d true) d { long := none, cause := if change then 4 else 1 }
  trimsRestore (fwStartNote s2 d) d

/-- FW_VERIFY (R404): `image` 0 or 1 has been verified and runs; at a start that skips image A a larger number says that
image B fails too (R401). Dies other than die 0 have no step 7. -/
def execFwVerify (d image : Nat) (s : State) : Host.Outcome State Fault Refusal :=
  let skip := stepSkip s d
  let fit := if skip then decide (1 ≤ image) else decide (image = 0)
  ok (if !(atStep s d 6 && fit) then s
  else
    let s1 :=
      if image ≤ 1 then stepDone (coreStart s d image) d 7
      else stepDone (setBoot s d { (die s d).boot with noFw := true }) d 8
    let s2 := if d = 0 then s1 else stepNone s1 d
    allowedFollow (startFollow s2))

/-! Step 7 (R399, R401, R419). -/

/-- PCIE_LINK (R399): PERST# has been deasserted and the link reaches L0; the alternative trains at Gen1 in the other
reference mode. Step 8 begins on the enumerated dies. -/
def execPcieLink (gen width ltssm : Nat) (s : State) : Host.Outcome State Fault Refusal :=
  let skip := stepSkip s 0
  ok (if atStep s 0 7 && linkShape gen width && (!skip || decide (gen = 1)) then
    let s1 := wb { s with pcie := { s.pcie with perst := false } } pgPcie Off.PC_STAT 1 (s.pcie.clksel != skip)
    let s2 := stepDone (hostLinkUp s1 gen width ltssm) 0 9
    each ((dieList s2).filter fun d => enumerated s2 d && decide ((die s2 d).boot.step = 8)) s2 assayBegin
  else s)

/-! Step 8 and the end of a start (R31, R335, R397, R399, R402). -/

/-- The outcome word of a history record (R402). -/
def outcomeWord (l : List Nat) : Nat := (l.zipIdx.map fun e => (if e.1 = 4 then 0 else e.1) * 4 ^ e.2).sum

/-- The board of a die at the end of a start: its history, the TALLY page's copies, ALTERNATIVE, and the notices of the
alternatives taken (R367, R402, R415). -/
def boardEnd (s : State) (d : Nat) : State :=
  let b := (die s d).boot
  let s1 := tlCopies (tlHistory s d (outcomeWord b.outcome)) d
  let s2 := wf s1 (pgTally d) Off.TL_STAT 8 9 b.alts
  let s3 := whenDo (decide (b.alts ≠ 0)) s2 (raise · (pgTally d) 0)
  each (bitsSet 9 b.alts) s3 fun s st => notice s d 0 0x84 [word (st + tlAlt s d st * 2 ^ 8)]

/-- The wake that began this start is reported, and WAKE_MODE applied (R397). -/
def wakeEnd (s : State) : State :=
  if !s.pkg.woken then s
  else
    let s1 := raise (count s (pgDie 0) Off.PWR_WAKES) (pgDie 0) 0
    let s2 := { s1 with pkg := { s1.pkg with woken := false, wokeBy := 0 } }
    if rb s2 (pgDie 0) Off.PWR_CFG 0 then modeReq 0 1#24 s2 else s2

/-- Every descriptor word and every active copy of a die is written 0 at the end of start-up (R117). -/
def descClear (s : State) (d : Nat) : State :=
  let lo := d * 2 ^ 24 + 0x100000
  let hit := fun (a : Nat) => decide (lo ≤ a) && decide (a < lo + 192 * nCtx s)
  { s with
    mem := s.mem.filter fun e => !hit e.1
    ecc := Tbl.drop s.ecc hit
    ctxs := s.ctxs.map fun e => if e.1.1 = d then (e.1, { e.2 with act := [] }) else e }

/-- Start-up is complete: the part is in IDLE (R31); a debug session is open on every die in OPEN (R386). -/
def startEnd (s : State) : State :=
  let live := (dieList s).filter fun d => enumerated s d
  let s1 := each live (each live s descClear) boardEnd
  let s2 := each (live.filter fun d => decide ((die s d).lc = 0)) s1 dbgOpen
  wakeEnd { s2 with pkg := { s2.pkg with powerOn := false } }

/-- Die 0 has found a die lost (R405). -/
def isLost (s : State) (d : Nat) : Bool := rb s (pgFence 0) Off.FN_DIE_STAT (16 + d)

/-- Step 8 has ended on every die that takes part. -/
def allComplete (s : State) : Bool :=
  (dieList s).all fun d => (die s d).boot.stuck || (die s d).boot.complete || isLost s d

/-- Step 8 of a die has ended. -/
def assayStepEnd (s : State) (d : Nat) : State :=
  let s1 := setBoot s d { (die s d).boot with complete := true }
  if allComplete s1 then startEnd s1 else s1

/-- Every STARTUP run of a die has ended. -/
def startupRunsEnded (s : State) (d : Nat) : Bool :=
  (asAll s).all fun c => decide ((asChan s d c).queued ≠ 6) && (decide ((asChan s d c).st = 0) || decide ((asChan s d c).kind ≠ 6))

/-- INITIAL_ASSAY (R335, R399); a die that has been lost meanwhile takes no further part. -/
def execInitialAssay (d : Nat) (s : State) : Host.Outcome State Fault Refusal :=
  ok (if atStep s d 8 && enumerated s d && decide (8 ≤ (die s 0).boot.step) && startupRunsEnded s d then
    assayStepEnd (stepDone (tlCheck s d) d 10) d
  else if atStep s d 8 && isLost s d then assayStepEnd s d
  else s)

/-! Failures (R400). -/

/-- Limits of the steps in ticks (R399). -/
def stepLimit (st : Nat) : Nat := [2000, 200, 10000, 100, 20000, 5000, 50000, 100000, 500000].getD st 0 * 250

/-- The ports of a die whose links still train (R399). -/
def linksOpen (s : State) (d : Nat) : List (Nat × Nat × Nat) :=
  (bonds s d).filter fun b => decide (burimState s d b.1 = 1) && atStep s b.2.1 5
    && !(linkSkip s d b.1 || linkSkip s b.2.1 b.2.2)

/-- The DETAIL of a failure (R402): for step 5 the ports that failed, for step 8 the channels whose run failed; for steps 1, 6
and 7 it comes with the failure. -/
def failDetail (s : State) (d st detail : Nat) : Nat :=
  match st with
  | 1 | 6 | 7 => detail
  | 5 => ((linksOpen s d).map fun b => 2 ^ b.1).sum
  | 8 => ((asAll s).filter fun c => decide ((asChan s d c).lastKind = 6) && decide (1 < (asChan s d c).lastResult)).length
  | _ => 1

/-- A step of a die fails: FAILED is recorded; steps 1 to 7 restart every die 10 ms later, step 8 does not (R400). -/
def stepFail (s : State) (d st detail : Nat) : State :=
  let s1 := if st = 1 then boardOpen s d else s
  let s2 := stepEnd s1 d 2 0 (failDetail s1 d st detail)
  if st = 8 then assayStepEnd s2 d
  else setBoot s2 d { (die s2 d).boot with step := st, restartAt := some s.clock }

/-- The clocks at which step 5 began on the links of a die that still train (R399). -/
def linkStarts (s : State) (d : Nat) : List Nat :=
  (linksOpen s d).map fun b => max (die s d).boot.since (die s b.2.1).boot.since

/-- The clock at which the limit of a step began to count (R399). -/
def stepStart (s : State) (d st : Nat) : Nat :=
  if st = 5 then (linkStarts s d).foldl max 0 else (die s d).boot.since

/-- A step that can miss its limit here: step 0 only waits, a step that is skipped takes its alternative, and step 8
begins after step 7 of die 0. -/
def canFail (s : State) (d st : Nat) : Bool :=
  atStep s d st && match st with
    | 0 => false
    | 1 => decide (tlConsec (tlCheck s d) d 1 < 3)
    | 5 => decide (linkStarts s d ≠ [])
    | 8 => !stepSkip s d && enumerated s d && decide (8 ≤ (die s 0).boot.step)
    | _ => !stepSkip s d

/-- BOOT_STEP_TIMEOUT (R400): the limit counts from the start of the step, for step 7 from the deassertion of PERST#. -/
def execBootStepTimeout (d step detail : Nat) (s : State) : Host.Outcome State Fault Refusal :=
  ok (if canFail s d step then
    stepFail (if step = 7 then s else waitClock s (stepStart s d step + stepLimit step)) d step detail
  else s)

/-- The clock of the failure after which the dies restart. -/
def failedAt (s : State) : Option Nat := (dieList s).findSome? fun d => (die s d).boot.restartAt

/-- BOOT_RESTART (R400): 10 ms after the failure every die starts again from step 0, while VIN stays applied; the start
that ends so has its history record (R402). -/
def execBootRestart (s : State) : Host.Outcome State Fault Refusal :=
  ok (match failedAt s with
    | none => s
    | some t =>
      let s1 := waitClock s (t + 2500000)
      let opened := (dieList s).filter fun d => decide (2 ≤ (die s d).boot.outcome.length)
      startOver (each opened s1 fun s d => tlHistory s d (outcomeWord (die s d).boot.outcome)))

end Sys2Proof.Machine
end

