-- ==== Sys2Proof/Machine/ChuteCmd.lean ====
section
/-!
DEFINITION. Accesses to chutes: pushes and pops (R296 to R298, R300), flush scans (R299), and the assembler's work on a
chute (R152).
-/
namespace Sys2Proof.Machine

/-! Pushes (R296, R297, R300). -/

/-- A word pushed to a chute in CREDIT mode: appended, or discarded by a full chute; a host's loss is counted and logged
(R296). -/
def pushCredit (s : State) (r : Req) (d c off : Nat) (w : CWord) : State :=
  if freeWords (chute s d c) = 0 then
    logErr (chuteEvt (chuteCount s d c Off.CNT_LOST Off.CG_LOST_TOTAL) d c 1 1) r (pgChute d c) off true 0x42
  else chuteAppend s d c [w]

/-- A word pushed to a chute in OVERWRITE mode (R297). -/
def pushOver (s : State) (d c : Nat) (w : CWord) : State :=
  let x := chute s d c
  if !w.mark && x.dropping then s
  else
    let s0 := setChute s d c { x with dropping := false }
    let s1 := if freeWords x ≠ 0 then s0 else if w.mark then chuteRoom s0 d c 1 else chuteRoomTail s0 d c
    if freeWords (chute s1 d c) = 0 then chuteLost (setChute s1 d c { chute s1 d c with dropping := true }) d c
    else chuteAppend s1 d c [w]

/-- A write to the push window (R300): outside RUNNING no push is accepted (R302). -/
def chutePush (r : Req) (d c off : Nat) (v : Word) (s : State) : State :=
  if 16 ≤ c ∧ c ≤ 20 then logErr s r (pgChute d c) off true 0x43
  else if !running s (pgChute d c) then s
  else if overwrite s d c then pushOver s d c { w := v, mark := decide (off = 0x800) }
  else pushCredit s r d c off { w := v, mark := decide (off = 0x800) }

/-- CHUTE_PUSH: a 32-bit write to the push window at offset 0x800 + 4 `i` (R300). -/
def execChutePush (r : Req) (d c i : Nat) (v : Word) (s : State) : Host.Outcome State Fault Refusal :=
  let off := 0x800 + 4 * (i % 256)
  ok (if c < 64 then guardedWrite s r (pgChute d c) off (chutePush ⟨clsOn r (pgChute d c), r.rid⟩ d c off v) else s)

/-! Pops (R298, R300). -/

/-- The word that a pop returns. -/
def popVal (s : State) (d c : Nat) : Word :=
  if chuteHeld s d c then 0#24
  else match (chute s d c).words with
    | w :: _ => if w.ecc = .bad then 0#24 else w.w
    | [] => 0#24

/-- The record of a poisoned word delivered to a host pop (R298, R412). -/
def popPoison (s : State) (d c : Nat) : State :=
  let s1 := logRecord s d d { fenced := false, cause := ⟨0x1B, c, 1, 0⟩ }
  { count s1 pgPcie Off.CNT_POISON_TX with resp := .bytes [0#8, 0#8, 0#8, 0#8] true }

/-- A read of the pop window has removed the head word, or found none (R300). -/
def chutePop (r : Req) (d c off : Nat) (s : State) : State :=
  let p := pgChute d c
  if chuteHeld s d c then logErr s r p off false 0x44
  else match chuteTake s d c with
    | (none, _) => logErr (raise s p 5) r p off false 0x41
    | (some w, s1) => if w.ecc = .bad then popPoison s1 d c else s1

/-- A read of the pop window at an offset. -/
def popRead (s : State) (r : Req) (d c off : Nat) : State :=
  guardedRead s r (pgChute d c) off (fun s _ _ => popVal s d c) (chutePop ⟨clsOn r (pgChute d c), r.rid⟩ d c off)

/-- CHUTE_POP: a read of the pop window at offset 0xC00 + 4 `i` (R300). -/
def execChutePop (r : Req) (d c i : Nat) (s : State) : Host.Outcome State Fault Refusal :=
  ok (if c < 64 then popRead s r d c (0xC00 + 4 * (i % 256)) else s)

/-! Flushes (R144, R299). -/

/-- Scan words from a place where a block should start: the words kept, the words removed, and the incomplete block of
context `k` at the tail. A poisoned word among those that a header takes its type and length from is no valid header. The
fuel is the number of words. -/
def flushScan (k : Nat) : Nat → List CWord → List CWord × List CWord × Option (List Word × Nat)
  | 0, ws => (ws, [], none)
  | _, [] => ([], [], none)
  | f + 1, w :: r =>
    if !typeOk w.w || ((w :: r).take 6).any (fun v => decide (v.ecc = .bad)) then
      let (a, n, t) := flushScan k f r
      (w :: a, n, t)
    else
      let ws := w :: r
      let h := (ws.take 6).map CWord.w
      let mine := decide (fld w.w 8 8 = k)
      if ws.length < 6 ∨ ws.length < blockLen h then
        if mine then ([], ws, some (h, ws.length)) else (ws, [], none)
      else
        let (a, n, t) := flushScan k f (ws.drop (blockLen h))
        if mine then (a, ws.take (blockLen h) ++ n, t) else (ws.take (blockLen h) ++ a, n, t)

/-- Words at the head that belong to the block in progress: the rest of a discarded block, or of the one in the
assembler. -/
def headRest (x : ChuteSt) : Nat :=
  match x.blk with
  | none => x.skip
  | some b => blockLen b.head - b.got.length

/-- One context's blocks are removed from a chute (R299). -/
def scanFor (s : State) (d c k : Nat) : State :=
  let x := chute s d c
  let n := min (headRest x) x.words.length
  let (a, m, t) := flushScan k x.words.length (x.words.drop n)
  let s1 := setChute (spotGone s d c m) d c
    { x with words := x.words.take n ++ a, tailFlush := if t = none then x.tailFlush else t }
  creditBack s1 d c m.length

/-- The flush scan of a chute ends (R299). -/
def flushEnd (s : State) (d c : Nat) : State :=
  let ks := (chute s d c).flush
  let s1 := each ks s fun s k => scanFor s d c k
  raise (chuteFollow (setChute s1 d c { chute s1 d c with flush := [] }) d c) (pgChute d c) 6

/-- CHUTE_FLUSH_SCAN: the scan of a chute that runs ends (R299). -/
def execChuteFlushScan (d c : Nat) (s : State) : Host.Outcome State Fault Refusal :=
  ok (if running s (pgChute d c) && decide (c < 64) && decide ((chute s d c).flush ≠ []) then flushEnd s d c else s)

/-- The chute keeps content to scan (R299, R302): it runs, or it ran when it was fenced and is fenced still or on its way
back. -/
def chuteKeeps (s : State) (d c : Nat) : Bool :=
  let p := pgChute d c
  running s p || (fenced s p && decide ((fenceSt s p).before ≠ stOff))
    || (decide (pstate s p = stStarting) && decide ((fenceSt s p).before = stRunning))

/-- FLUSH of a context in its chute (R299): a scan begins, waits for the release of a fence, or has nothing to scan. -/
def chuteFlush (s : State) (d c k : Nat) : State :=
  let p := pgChute d c
  if !present s p then s
  else if chuteKeeps s d c then
    let x := chute s d c
    setChute s d c { x with flush := if x.flush.contains k then x.flush else x.flush ++ [k] }
  else raise s p 6

/-! The assembler (R151, R152). -/

/-- A line assembler reads the chute (R151, R293): the image chute of a present port, or a chute that a context names. -/
def asmReads (s : State) (d c : Nat) : Bool :=
  decide (c < nPorts s) || (realChute s c && (decide (c < 16) || decide (24 ≤ c))
    && (List.range (nCtx s)).any fun k => decide (af s d k 16 0 6 = c))

/-- BLOCK_ACCEPT: the line assembler works on the block at the head of a chute (R152). -/
def execBlockAccept (d c : Nat) (s : State) : Host.Outcome State Fault Refusal :=
  ok (if d < s.part.dies ∧ asmReads s d c then blockAccept s d c else s)

end Sys2Proof.Machine
end

