-- ==== Sys2Proof/Machine/Context.lean ====
section
/-!
DEFINITION. Commands to jet contexts (R125 to R129, R143 to R145) and the hand-over of descriptors (R119, R120).
-/
namespace Sys2Proof.Machine

/-! Results (R145). -/

/-- Result codes of `CTX_CMD_STAT`. -/
abbrev resDone : Nat := 0x01
abbrev resWrongState : Nat := 0x10
abbrev resTier : Nat := 0x11
abbrev resPort : Nat := 0x12
abbrev resSource : Nat := 0x13
abbrev resOverlap : Nat := 0x14
abbrev resGroup : Nat := 0x15
abbrev resRate : Nat := 0x16
abbrev resBinding : Nat := 0x17

/-- A command is processed: its result, and for a refusal the counter and the events (R116, R145). -/
def ctxResult (s : State) (d k cmd res : Nat) : State :=
  let p := pgCtx d
  let s1 := wr s p Off.CTX_CMD_STAT (word (res * 2 ^ 16 + k % 256 * 2 ^ 4 + cmd))
  if res = resDone then s1
  else
    let s2 := count s1 p Off.CMD_REFUSED
    raise (whenDo (decide (k < nCtx s)) s2 fun s => ctxEvt s d k 17) p 1

/-- A follower whose timing context is not IDLE takes no command but FENCE, FLUSH and RELEASE (R125). -/
def followerHeld (s : State) (d k : Nat) : Bool :=
  bound s d k && !cTiming s d k && (timingOf s d (cPort s d k) (cFg s d k)).isSome

/-- A write of `CTX_CMD` (R145): the tier, the group rule, then the command. -/
def ctxCommand (r : Req) (d k cmd : Nat) (group : Bool) (f : State → Nat × State) (s : State) : State :=
  guardedWrite s r (pgCtx d) Off.CTX_CMD fun s =>
    if nCtx s ≤ k then ctxResult s d k cmd resTier
    else if group && followerHeld s d k then ctxResult s d k cmd resGroup
    else ctxResult (f s).2 d k cmd (f s).1

/-- A command takes effect in some states only. -/
def ctxIn (s : State) (b : Bool) (f : State → State) : Nat × State := if b then (resDone, f s) else (resWrongState, s)

/-! ARM (R126, R128). -/

/-- The PD input that the context names cannot start it (R128). -/
def pdUnfit (s : State) (d k : Nat) : Bool :=
  let w := rd s (pgPd d) (Off.PD_CFG + 4 * af s d k 2 2 3)
  bit (aw s d k 0) 19 && bit (aw s d k 2) 0 && (!bit w 0 || bit w 17 || decide (fld w 14 3 ≠ af s d k 0 16 3))

/-- The nozzle range overlaps another context outside IDLE on the port (R128). -/
def rangeOverlaps (s : State) (d k : Nat) : Bool :=
  let f := af s d k 1 12 12
  let c := af s d k 1 0 12
  (portCtxs s d (af s d k 0 12 4)).any fun m =>
    decide (m ≠ k) && decide (cFirst s d m ≤ f + c) && decide (f ≤ cFirst s d m + cCount s d m)

/-- The group check of ARM (R128). -/
def groupFits (s : State) (d k : Nat) : Bool :=
  let t := timingOf s d (af s d k 0 12 4) (af s d k 0 20 2)
  if bit (aw s d k 0) 19 then t.isNone
  else match t with
    | none => false
    | some t =>
      decide ((ctx s d t).st = .armed) && decide (cSrc s d t = af s d k 0 16 3)
        && decide (bit (aw s d t 15) 0 = bit (aw s d k 15) 0) && decide (aw s d t 8 = aw s d k 8)
        && decide (aw s d t 9 = aw s d k 9) && decide (cRate s d t = af s d k 3 0 17)

/-- The binding check of ARM (R122, R128). -/
def bindingFits (s : State) (d k : Nat) : Bool :=
  let c := af s d k 16 0 6
  decide (2 ^ 16 ≤ pitchOf (aw s d k)) && decide (pitchOf (aw s d k) < 2 ^ 46) && decide (greyBits s d k ≠ 0)
    && (decide (c < 16) || decide (24 ≤ c)) && running s (pgChute d c)

/-- The checks of R128 after the state and the tier: the first that fails names its code. -/
def armVerdict (s : State) (d k : Nat) : Option Nat :=
  let p := af s d k 0 12 4
  let rate := af s d k 3 0 17
  if p / 4 ≠ k / 64 ∨ !running s (pgHp d p) ∨ (af s d k 0 20 2 ≠ 0 ∧ persOf s d p ≠ 2) then some resPort
  else if !running s (pgEnc d (af s d k 0 16 3)) ∨ pdUnfit s d k then some resSource
  else if 4095 < af s d k 1 12 12 + af s d k 1 0 12 ∨ rangeOverlaps s d k then some resOverlap
  else if !groupFits s d k then some resGroup
  else if rate = 0 ∨ 100000 < rate ∨ !rateOk s d rate then some resRate
  else if !bindingFits s d k then some resBinding
  else none

/-- Nozzles outside the group's span, or the head's nozzles, at ARM (R237). -/
def spanMiss (s : State) (d k : Nat) : State :=
  let p := cPort s d k
  let (f, n) := spanOf s d p (cFg s d k)
  if cFirst s d k < f ∨ f + n ≤ cFirst s d k + cCount s d k then raise s (pgHp d p) 21 else s

/-- A context arms (R126): words 0 to 3 are latched, `DONE`, counters and CAUSE cleared, `SEQ_EXP` := `SEQ_FIRST`. -/
def armNow (s : State) (d k : Nat) : State :=
  let s0 := discardAsm s d k
  let x := ctx s0 d k
  let s1 := setCtx s0 d k { x with
    lat := (List.range 4).map fun i => (i, aw s d k i)
    doneN := 0, seqExp := (aw s d k 17).toNat, cause := 0, degraded := false, throttled := false
    cntNull := 0, cntLate := 0, cntStep := 0, cntDup := 0, cntGap := 0
    next := 0, lastPlaced := none, lastFired := none, ref := 0, drainCause := 0, under := false, gapPause := none
    stallBad := false, stallRun := false, stallAcc := 0 }
  thermArm (ctxDiff (spanMiss (ctxEnter s1 d k .armed 0) d k) d k) d k

/-- ARM, with its checks (R128). -/
def armCmd (d k : Nat) (s : State) : Nat × State :=
  if (ctx s d k).st ≠ .idle then (resWrongState, s)
  else match armVerdict s d k with
    | some c => (c, s)
    | none => (resDone, armNow s d k)

/-- CTX_ARM (R128). -/
def execCtxArm (r : Req) (d k : Nat) (s : State) : Host.Outcome State Fault Refusal :=
  ok (ctxCommand r d k 1 false (armCmd d k) s)

/-! DISARM, START, PAUSE, DRAIN, ABORT (R126, R129). -/

/-- The group enters IDLE by a command, its assembler state discarded. -/
def groupIdle (s : State) (d k : Nat) : State :=
  let ms := movers s d k
  each ms (ctxMove s d k .idle 1) fun s m => discardAsm s d m

/-- DISARM. -/
def disarmCmd (d k : Nat) (s : State) : Nat × State := ctxIn s (decide ((ctx s d k).st = .armed)) (groupIdle · d k)

/-- CTX_DISARM (R126). -/
def execCtxDisarm (r : Req) (d k : Nat) (s : State) : Host.Outcome State Fault Refusal :=
  ok (ctxCommand r d k 2 true (disarmCmd d k) s)

/-- START: refused with WRONG_STATE under START_SRC = PD (R145) and with RATE under R29. -/
def startCmd (d k : Nat) (s : State) : Nat × State :=
  if (ctx s d k).st ≠ .armed ∨ cStartPd s d k then (resWrongState, s)
  else if !rateOk s d (cRate s d k) then (resRate, s)
  else (resDone, startGroup s d k 0)

/-- CTX_START (R129). -/
def execCtxStart (r : Req) (d k : Nat) (s : State) : Host.Outcome State Fault Refusal :=
  ok (ctxCommand r d k 3 true (startCmd d k) s)

/-- PAUSE. -/
def pauseCmd (d k : Nat) (s : State) : Nat × State :=
  ctxIn s (decide ((ctx s d k).st = .printing)) fun s => ctxMove s d k .paused 1

/-- CTX_PAUSE (R126). -/
def execCtxPause (r : Req) (d k : Nat) (s : State) : Host.Outcome State Fault Refusal :=
  ok (ctxCommand r d k 4 true (pauseCmd d k) s)

/-- DRAIN. -/
def drainCmd (d k : Nat) (s : State) : Nat × State :=
  ctxIn s (decide ((ctx s d k).st = .printing)) fun s =>
    ctxMove (setCtx s d k { ctx s d k with drainCause := 1 }) d k .draining 1

/-- CTX_DRAIN (R126). -/
def execCtxDrain (r : Req) (d k : Nat) (s : State) : Host.Outcome State Fault Refusal :=
  ok (ctxCommand r d k 6 true (drainCmd d k) s)

/-- ABORT. -/
def abortCmd (d k : Nat) (s : State) : Nat × State :=
  match (ctx s d k).st with
  | .armed | .paused => (resDone, groupIdle s d k)
  | .printing | .draining => (resDone, ctxAbortAt s d k 1)
  | _ => (resWrongState, s)

/-- CTX_ABORT (R126). -/
def execCtxAbort (r : Req) (d k : Nat) (s : State) : Host.Outcome State Fault Refusal :=
  ok (ctxCommand r d k 7 true (abortCmd d k) s)

/-! RESUME (R126, R143, R156). -/

/-- The first line not completed, n := `DONE` (R143); while the lines of the old swathe complete, line 0 of the new one. -/
def resumeLine (s : State) (d k : Nat) : Nat := if (ctx s d k).turning then (ctx s d k).next else (ctx s d k).doneN

/-- A bound cycle of the group still carries data for line `n`. -/
def inFlight (s : State) (d k n : Nat) : Bool :=
  !(ctx s d k).turning && (port s d (cPort s d k)).cycles.any fun c => decide (c.fg = cFg s d k) && decide (c.line = n) && hasData c

/-- The first line from `n` on that no bound cycle carries: a line in flight is not bound a second time. The fuel is the
number of bound cycles. -/
def pastFlight (s : State) (d k : Nat) : Nat → Nat → Nat
  | 0, n => n
  | f + 1, n => if inFlight s d k n then pastFlight s d k f ((n + 1) % 2 ^ 24) else n

/-- The missing image lines before which the group paused are entered as blank, with DEGRADED (R156). -/
def fillGaps (s : State) (d k : Nat) : State :=
  let x := ctx s d k
  match x.gapPause with
  | none => s
  | some n =>
    let hit := fun r => (needed s d k n).any fun m => inRange x.swBuild m r
    setCtx s d k { x with blanks := x.blanks ++ x.gaps.filter hit, gaps := x.gaps.filter fun r => !hit r, degraded := true, gapPause := none }

/-- The descriptor words with the boundary moved by `j` pitches in the print direction (R143). -/
def rebased (w : Nat → Word) (j : Nat) : Nat → Word :=
  let sg : Int := if bit (w 15) 0 then -1 else 1
  let o := uns 48 (originOf w + sg * (j : Int) * (pitchOf w : Int))
  fun i => if i = 10 then lo24 o else if i = 11 then hi24 o else w i

/-- The binding point of the next line with the boundary moved by `j` pitches falls at least 64 ticks from now. -/
def rebaseFar (s : State) (d k j : Nat) : Bool :=
  match place (rebased (aw s d k) j) (ctx s d k).ref (estOf s d k) (ctx s d k).next with
  | none => true
  | some q =>
    let t := roundGrid (gridOf (modeOf s d)) q
    let b := t - 16 * ((port s d (cPort s d k)).lead : Int)
    fle (nowFine s d + 16 * 64) (16 * ceilTick b)

/-- The smallest power of two, or 2^`f`, at which `g` holds, from `j`. -/
def growTo (g : Nat → Bool) : Nat → Nat → Nat
  | 0, j => j
  | f + 1, j => if g j then j else growTo g f (2 * j)

/-- The smallest number above `a` at which `g` holds, where it holds at `b`; the fuel halves the distance. -/
def findFirst (g : Nat → Bool) : Nat → Nat → Nat → Nat
  | 0, _, b => b
  | f + 1, a, b =>
    if b ≤ a + 1 then b
    else
      let m := (a + b) / 2
      if g m then findFirst g f a m else findFirst g f m b

/-- REBASE (R143): the active ORIGIN moves by the smallest number of pitches that puts the binding point far enough. -/
def rebase (s : State) (d k : Nat) : State :=
  let far := rebaseFar s d k
  let j := if far 0 then 0 else findFirst far 48 0 (growTo far 47 1)
  let w := rebased (aw s d k) j
  let x := ctx s d k
  ctxEvt (setCtx s d k { x with act := Tbl.put (Tbl.put x.act 10 (w 10)) 11 (w 11) }) d k 14

/-- RESUME is accepted (R126, R143). Lines at n that are still in flight are not bound again (DEDUCED, log entry 26), and a
follower that has rejoined skips to the first line bound (R127). -/
def resumeNow (s : State) (d k : Nat) : State :=
  let s1 := each (movers s d k) s fun s m => fillGaps s d m
  if (ctx s1 d k).doneN = 0 ∧ cStartPd s1 d k ∧ !(ctx s1 d k).turning then ctxMove s1 d k .armed 0
  else
    let s2 := setCtx s1 d k { ctx s1 d k with next := resumeLine s1 d k }
    let s3 := if bit (aw s2 d k 54) 0 then rebase s2 d k else s2
    let n := pastFlight s3 d k (port s3 d (cPort s3 d k)).cycles.length (ctx s3 d k).next
    let s4 := setCtx s3 d k { ctx s3 d k with next := n }
    let s5 := each ((movers s4 d k).filter fun m => (ctx s4 d m).skipDue) s4 fun s m =>
      let t := skipTo s d m n
      setCtx t d m { ctx t d m with skipDue := false }
    rePredict (ctxMove s5 d k .printing 0) d k

/-- RESUME, with its checks (R29, R126). -/
def resumeCmd (d k : Nat) (s : State) : Nat × State :=
  if (ctx s d k).st ≠ .paused then (resWrongState, s)
  else if !running s (pgEnc d (cSrc s d k)) ∨ !(estOf s d k).valid then (resSource, s)
  else if !rateOk s d (cRate s d k) then (resRate, s)
  else (resDone, resumeNow s d k)

/-- CTX_RESUME (R143). -/
def execCtxResume (r : Req) (d k : Nat) (s : State) : Host.Outcome State Fault Refusal :=
  ok (ctxCommand r d k 5 true (resumeCmd d k) s)

/-! FLUSH (R126, R144). -/

/-- Assembler state and blocks of a context are discarded (R144, R299). -/
def flushCtx (s : State) (d k : Nat) : State := chuteFlush (discardAsm s d k) d (af s d k 16 0 6) k

/-- A context and those that move with it discard their data and enter IDLE (R124 to R126): a timing context takes its group
with it. -/
def flushGroup (s : State) (d k : Nat) : State :=
  let ms := if cTiming s d k then movers s d k else [k]
  let s1 := each ms s fun s m => flushCtx s d m
  let s2 := if cTiming s d k then ctxMove s1 d k .idle 1 else ctxEnter s1 d k .idle 1
  each ms s2 fun s m => discardAsm s d m

/-- FLUSH. -/
def flushCmd (d k : Nat) (s : State) : Nat × State :=
  match (ctx s d k).st with
  | .idle => (resDone, flushCtx s d k)
  | .paused | .fenced => (resDone, flushGroup s d k)
  | _ => (resWrongState, s)

/-- CTX_FLUSH (R144). -/
def execCtxFlush (r : Req) (d k : Nat) (s : State) : Host.Outcome State Fault Refusal :=
  ok (ctxCommand r d k 8 false (flushCmd d k) s)

/-! FENCE and RELEASE (R126, R127, R144, R408, R411). -/

/-- FENCE. -/
def fenceCmd (d k : Nat) (s : State) : Nat × State :=
  ctxIn s (decide ((ctx s d k).st ≠ .fenced) || (ctx s d k).rejoin) fun s => ctxFence (ctxRecord s d k 1 true) d k 1

/-- CTX_FENCE (R144). -/
def execCtxFence (r : Req) (d k : Nat) (s : State) : Host.Outcome State Fault Refusal :=
  ok (ctxCommand r d k 9 false (fenceCmd d k) s)

/-- A RELEASE or REFUSED record of a context (R411, R412). -/
def ctxRelRecord (s : State) (d k kind : Nat) : State :=
  logRecord s d d { kind := kind, fenced := false, cause := ctxLink s d k (ctx s d k).cause }

/-- The port a context names: latched while it is bound. -/
def namedPort (s : State) (d k : Nat) : Nat := if bound s d k then cPort s d k else af s d k 0 12 4

/-- A released context enters a state; a timing context takes its group with it (R124, R125). -/
def releaseTo (s : State) (d k : Nat) (st : CState) (cause : Nat) : State :=
  if cTiming s d k then ctxMove s d k st cause else ctxEnter s d k st cause

/-- A context's fence ends (R126, R127); a flush comes before IDLE. -/
def releaseNow (s : State) (d k : Nat) : State :=
  let x := ctx s d k
  let flush := bit (aw s d k 53) 0
  let t := if bound s d k && !cTiming s d k then timingOf s d (cPort s d k) (cFg s d k) else none
  let s1 := ctxRelRecord s d k 2
  if x.before = .idle ∨ x.before = .draining ∨ flush ∨ (!cTiming s d k ∧ t = none) then
    releaseTo (if flush then flushCtx s1 d k else s1) d k .idle x.cause
  else if cTiming s d k then releaseTo s1 d k .paused x.cause
  else match t with
    | none => s1
    | some t =>
      if (ctx s d t).st = .armed then ctxEnter s1 d k .armed x.cause
      else setCtx s1 d k { ctx s1 d k with rejoin := true }

/-- RELEASE: refused with PORT while the context's port or die is fenced (R408). -/
def releaseCmd (d k : Nat) (s : State) : Nat × State :=
  if (ctx s d k).st ≠ .fenced ∨ (ctx s d k).rejoin then (resWrongState, s)
  else if fenced s (pgHp d (namedPort s d k)) || decide ((die s d).dieReason ≠ 0) then (resPort, ctxRelRecord s d k 3)
  else (resDone, chuteFollow (releaseNow s d k) d (af s d k 16 0 6))

/-- CTX_RELEASE (R126). -/
def execCtxRelease (r : Req) (d k : Nat) (s : State) : Host.Outcome State Fault Refusal :=
  ok (ctxCommand r d k 10 false (releaseCmd d k) s)

/-- What a write of `CTX_CMD` does, by its code; a code that R145 does not list is in no state's list (R126). -/
def ctxCmdWrite (r : Req) (d : Nat) (v : Word) (s : State) : State :=
  let k := fld v 4 8
  let c := fld v 0 4
  let f : State → Nat × State := match c with
    | 1 => armCmd d k | 2 => disarmCmd d k | 3 => startCmd d k | 4 => pauseCmd d k | 5 => resumeCmd d k
    | 6 => drainCmd d k | 7 => abortCmd d k | 8 => flushCmd d k | 9 => fenceCmd d k | 10 => releaseCmd d k
    | _ => fun s => (resWrongState, s)
  ctxCommand r d k c (!(decide (c = 1) || decide (c = 8) || decide (c = 9) || decide (c = 10))) f s

/-! Commit words (R119, R120). -/

/-- A write of a commit word: BOUNDARY while GO is 0 or unchanged, CANCEL, then GO (R47, R119). -/
def ctxCommitWrite (r : Req) (d k : Nat) (v : Word) (s : State) : State :=
  let p := pgCtx d
  let off := commitOff k
  if nCtx s ≤ k then s
  else
    let b := fld v 4 3
    let go := ctxGo s d k
    let s1 := if b = ctxBoundary s d k then s
      else if go then logErr s r p off true 5
      else if b ≤ 4 then wf s p off 4 3 b else s
    let s2 := if bit v 1 then wb s1 p off 0 false else s1
    if bit v 0 && !ctxGo s2 d k then { wb s2 p off 0 true with gos := Tbl.put s2.gos (p, off) s.clock } else s2

/-- CTX_COMMIT_GO: a write of `CTX_COMMIT_k` (R119). -/
def execCtxCommitGo (r : Req) (d k : Nat) (v : Word) (s : State) : Host.Outcome State Fault Refusal :=
  ok (if k < 256 then guardedWrite s r (pgCtx d) (commitOff k) (ctxCommitWrite ⟨clsOn r (pgCtx d), r.rid⟩ d k v) else s)

/-- The state of a context lets a pending hand-over take place without a binding point (R120). -/
def handOverFree (s : State) (d k : Nat) : Bool :=
  match (ctx s d k).st with
  | .idle | .armed => true
  | .printing | .paused => decide (ctxBoundary s d k = 0)
  | _ => false

/-- CTX_HAND_OVER: in the first tick after GO where the state allows it (R120); the hand-overs of binding points and
swathe boundaries take place with the binding (R119). -/
def execCtxHandOver (d k : Nat) (s : State) : Host.Outcome State Fault Refusal :=
  ok (if d < s.part.dies ∧ k < nCtx s ∧ ctxGo s d k ∧ handOverFree s d k then
    ctxHandOver (waitClock s (goAt s (pgCtx d) (commitOff k) + 1)) d k
  else s)

end Sys2Proof.Machine
end

