-- ==== Sys2Proof/Machine/MemCtl.lean ====
section
/-!
DEFINITION. Background testing and live repair of the memories (R316 to R318), and the retention store's registers
and queue (R319, R320).
-/
namespace Sys2Proof.Machine

/-! Background tester (R316). Phases: 0 waiting, 1 COPY, 2 MARCH, 3 REPAIR, 4 RESTORE. -/

/-- Regions of a bank, banks numbered as `MT_STAT.BANK` (R316). -/
def regionsOf (bank : Nat) : Nat := if bank < 16 then 128 else 32

/-- Spare rows of a bank (R316). -/
def sparesOf (bank : Nat) : Nat := if bank < 16 then 16 else 8

/-- `MT_STAT` follows the tester. -/
def mtStat (s : State) (d : Nat) : State :=
  let x := memSt s d
  wr s (pgMemctl d) Off.MT_STAT
    (word ((if x.phase = 3 then 2 else if x.phase = 4 then 3 else x.phase) * 2 ^ 22 + x.bank * 2 ^ 16 + x.region))

/-- The mode is IDLE to HUSHED and testing is on (R316). -/
def mtOn (s : State) (d : Nat) : Bool :=
  rb s (pgMemctl d) Off.MT_CFG 0 && decide (2 ≤ modeOf s d) && decide (modeOf s d ≤ 7) && decide (s.pkg.power = .running)

/-- The next region begins with COPY: regions found bad by a reader go first, in the order found (R316). -/
def mtStart (s : State) (d : Nat) : State :=
  let x := memSt s d
  let y := match x.ahead with
    | (b, r) :: rest => { x with bank := b, region := r, phase := 1, ahead := rest, failing := [], lastStart := s.clock }
    | [] => { x with bank := x.sweepBank, region := x.sweepRegion, phase := 1, failing := [], lastStart := s.clock }
  mtStat (setMemSt s d y) d

/-- MEMTEST_REGION_START: every INTERVAL × 100 µs the tester starts one region (R316). -/
def execMemtestRegionStart (d : Nat) (s : State) : Host.Outcome State Fault Refusal :=
  ok (if decide (d < s.part.dies) && mtOn s d && decide ((memSt s d).phase = 0) then
    mtStart (waitClock s ((memSt s d).lastStart + max 1 (rf s (pgMemctl d) Off.MT_CFG 8 8) * 25000)) d
  else s)

/-- COPY reads every word of the region through its check bits (R310, R316). -/
def mtCopy (s : State) (d : Nat) : State :=
  let x := memSt s d
  let dps := decide (16 ≤ x.bank)
  let base := (if dps then (x.bank - 16) * 32768 else x.bank * 131072) + x.region * 1024
  each (List.range 1024) s fun s i => (readWord s d dps (base + i) 6).2.2

/-- One failing row is mapped to a spare row, or none is left (R316). -/
def mtRepairRow (s : State) (d row : Nat) : State :=
  let p := pgMemctl d
  let x := memSt s d
  let off := Off.REP_USED + 4 * (x.bank / 4)
  let lo := 5 * (x.bank % 4)
  let used := rf s p off lo 5
  if used < sparesOf x.bank then
    let s1 := raise (count (wf s p off lo 5 (used + 1)) p Off.REP_CNT) p 3
    setMemSt s1 d { memSt s1 d with toSave := (memSt s1 d).toSave ++ [word (x.bank * 2 ^ 16 + x.region * 16 + row)] }
  else raise s p 4

/-- The sweep moves to the next region; the tester waits again (R316). -/
def mtEnd (s : State) (d : Nat) : State :=
  let x := memSt s d
  let own := decide (x.bank = x.sweepBank ∧ x.region = x.sweepRegion)
  let y := { x with phase := 0, failing := [] }
  if !own then mtStat (setMemSt s d y) d
  else if x.region + 1 < regionsOf x.bank then mtStat (setMemSt s d { y with sweepRegion := x.region + 1 }) d
  else if x.bank < 19 then mtStat (setMemSt s d { y with sweepBank := x.bank + 1, sweepRegion := 0 }) d
  else
    let s1 := mtStat (setMemSt s d { y with sweepBank := 0, sweepRegion := 0 }) d
    raise (count s1 (pgMemctl d) Off.MT_SWEEPS) (pgMemctl d) 5

/-- MEMTEST_PHASE_DONE: the phase ends; `rows` are the rows of the region that a MARCH finds failing (R316). A region begun
is completed also with testing turned off, and in STANDBY before the clocks stop (R317). -/
def execMemtestPhaseDone (d : Nat) (rows : List Nat) (s : State) : Host.Outcome State Fault Refusal :=
  let x := memSt s d
  ok (if s.part.dies ≤ d then s
  else match x.phase with
    | 1 => mtStat (setMemSt (mtCopy s d) d { memSt (mtCopy s d) d with phase := 2 }) d
    | 2 => mtStat (setMemSt s d { x with phase := 3, failing := (rows.filter (· < 16)).eraseDups }) d
    | 3 =>
      let s1 := each x.failing s fun s row => mtRepairRow s d row
      mtStat (setMemSt s1 d { memSt s1 d with phase := 4, failing := [] }) d
    | 4 => mtEnd s d
    | _ => s)

/-- REPAIR_MAP_SAVE: firmware copies a live repair into the retention repair map, which holds 64 (R318). The manual
gives the map's words no format: the word written is a free value. -/
def execRepairMapSave (d : Nat) (s : State) : Host.Outcome State Fault Refusal :=
  let x := memSt s d
  ok (match x.toSave with
    | [] => s
    | w :: rest =>
      if d < s.part.dies ∧ x.saved.length < 64 then
        let s1 := setMemSt s d { x with toSave := rest, saved := x.saved ++ [w.toNat / 2 ^ 16] }
        nextFree (retWrite s1 d (272 + x.saved.length) (word (freeBelow s1 (2 ^ 24))))
      else setMemSt s d { x with toSave := rest })

/-! Retention registers (R320). -/

/-- `RET_STAT` follows the queue. -/
def retStat (s : State) (d : Nat) : State :=
  let n := (memSt s d).queue.length
  wb (wf s (pgRetain d) Off.RET_STAT 4 4 n) (pgRetain d) Off.RET_STAT 0 (decide (n ≠ 0))

/-- Each access to `RET_DATA` advances `RET_ADDR` with AUTOINC (R320). -/
def retAdvance (s : State) (d : Nat) : State :=
  let p := pgRetain d
  if rb s p Off.RET_ADDR 12 then wf s p Off.RET_ADDR 0 12 (rf s p Off.RET_ADDR 0 12 + 1) else s

/-- A write of `RET_DATA` (R320). -/
def retDataWrite (r : Req) (d : Nat) (v : Word) (s : State) : State :=
  let p := pgRetain d
  let w := rf s p Off.RET_ADDR 0 12
  let s1 :=
    if w < 3584 ∧ r.cls ≠ .firmware then raise (logErr s r p Off.RET_DATA true 0x40) p 2
    else if 8 ≤ (memSt s d).queue.length then logErr s r p Off.RET_DATA true 0x41
    else retStat (setMemSt s d { memSt s d with queue := (memSt s d).queue ++ [(w, v)] }) d
  retAdvance s1 d

/-- RET_DATA_WRITE (R320). -/
def execRetDataWrite (r : Req) (d : Nat) (v : Word) (s : State) : Host.Outcome State Fault Refusal :=
  ok (guardedWrite s r (pgRetain d) Off.RET_DATA (retDataWrite ⟨clsOn r (pgRetain d), r.rid⟩ d v))

/-- The value a read of `RET_DATA` returns: the queued value of a word not yet written, else the stored word, 0 if it
is uncorrectable (R320). -/
def retDataVal (s : State) (d : Nat) : Word :=
  let w := rf s (pgRetain d) Off.RET_ADDR 0 12
  match (memSt s d).queue.reverse.find? fun e => decide (e.1 = w) with
  | some e => e.2
  | none => if Tbl.get s.retEcc (retAddr d w) .good = .bad then 0#24 else retRaw s d w

/-- What a read of `RET_DATA` does beside returning its value (R320). -/
def retDataRead (d : Nat) (s : State) : State :=
  let p := pgRetain d
  let w := rf s p Off.RET_ADDR 0 12
  let queued := (memSt s d).queue.any fun e => decide (e.1 = w)
  let e := if queued then Ecc.good else Tbl.get s.retEcc (retAddr d w) .good
  let s1 := wb (wb s p Off.RET_STAT 2 (decide (e = .bad))) p Off.RET_STAT 1 (decide (e = .single))
  let s2 := match e with
    | .good => s1
    | .single => raise (count { s1 with retEcc := Tbl.put s1.retEcc (retAddr d w) .good } p Off.RET_CORR) p 0
    | .bad => raise (count s1 p Off.RET_UNCORR) p 1
  retAdvance s2 d

/-- RET_DATA_READ (R320). -/
def execRetDataRead (r : Req) (d : Nat) (s : State) : Host.Outcome State Fault Refusal :=
  ok (guardedRead s r (pgRetain d) Off.RET_DATA (fun s _ _ => retDataVal s d) (retDataRead d))

/-- RET_WORD_WRITTEN: the oldest queued word reaches the store (R319, R320). -/
def execRetWordWritten (d : Nat) (s : State) : Host.Outcome State Fault Refusal :=
  ok (match (memSt s d).queue with
    | [] => s
    | (w, v) :: rest =>
      retStat (retWrite (setMemSt s d { memSt s d with queue := rest }) d w v) d)

end Sys2Proof.Machine
end

