-- ==== Sys2Proof/Machine/Views.lean ====
section
/-!
DEFINITION. What a read of a register returns: registers whose value follows the state of the part, and the stored
value of all others (R34, R38, R46, R47, R49).
-/
namespace Sys2Proof.Machine

/-- A word whose bit `i` is `f i`, for the lowest `n` bits. -/
def bitsWord (n : Nat) (f : Nat → Bool) : Word := word (((List.range n).map fun i => b2n (f i) * 2 ^ i).sum)

/-- The header registers that follow others (R38, R47). -/
def hdrView (s : State) (p : Pg) (off : Nat) : Option Word :=
  if off = Off.PAGE_ID then some (word (pgBlockType p * 2 ^ 16 + pgInst p * 2 ^ 8 + 3))
  else if off = Off.PAGE_STAT then
    some (setBit (setBit (rd s p off) 7 ((pgKind p).hasRws && goSet s p)) 6 (rb s p Off.ERR_INFO 23))
  else if off = Off.COMMIT then some (if (pgKind p).hasRws then rd s p off else 0#24)
  else none

/-! DIE, TIMEBASE, TSYNC, EVENT_HUB, FENCE, INJECT. -/

/-- Code of the tier and of the die count (R397). -/
def dieId (s : State) (d : Nat) : Word :=
  word ((match s.part.tier with | .t08 => 1 | .t16 => 2 | .t16E => 3) * 2 ^ 22 + Nat.log2 s.part.dies * 2 ^ 20
    + d * 2 ^ 12 + 0xB1)

/-- The DIE page (R397). The power registers exist on die 0 only. -/
def dieView (s : State) (d off : Nat) : Option Word :=
  let x := die s d
  if off = Off.DIE_ID then some (dieId s d)
  else if off = Off.DIE_SN_L then some (lo24 x.serial)
  else if off = Off.DIE_SN_H then some (hi24 x.serial)
  else if off = Off.DIE_LOT then some (word (x.lot % 2 ^ 16 * 2 ^ 8 + x.wafer % 32))
  else if off = Off.DIE_SEC then
    some (word (b2n (injOk s d) * 2 ^ 10 + b2n (decide (x.sess.st = 2)) * 2 ^ 9 + b2n x.tap.session * 2 ^ 8
      + partLc s * 2 ^ 4 + x.lc))
  else if Off.PWR_CFG ≤ off ∧ off ≤ Off.PWR_WAKES ∧ d ≠ 0 then some 0#24
  else none

/-- The TIMEBASE page: the running counters (R65, R66). -/
def tbView (s : State) (d off : Nat) : Option Word :=
  if off = Off.TB_NOW_L then some (lo24 (now s d))
  else if off = Off.TB_NOW_H then some (hi24 (now s d))
  else if off = Off.SEC_L then some (lo24 s.pkg.seconds)
  else if off = Off.SEC_H then some (hi24 s.pkg.seconds)
  else none

/-- The TSYNC page of dies other than die 0 (R80). -/
def tsyncView (s : State) (d off : Nat) : Option Word :=
  if d ≠ 0 ∧ (off = Off.TS_STAT ∨ off = Off.TS_OFFSET ∨ off = Off.TS_FREQ) then some (rd s pgTsync off) else none

/-- `PAGE_SUM_i` of a die (R46). -/
def pageSum (s : State) (d i : Nat) : Word := bitsWord 24 fun k => decide (24 * i + k < 256) && summary s (ns d (24 * i + k))

/-- The EVENT_HUB page (R46). -/
def hubView (s : State) (d off : Nat) : Option Word :=
  if Off.PAGE_SUM ≤ off ∧ off ≤ Off.PAGE_SUM_10 then some (pageSum s d ((off - Off.PAGE_SUM) / 4))
  else if off = Off.DIE_SUM then
    some (if d = 0 then bitsWord s.part.dies fun e => (List.range 11).any fun i => decide (pageSum s e i ≠ 0#24) else 0#24)
  else none

/-- The FENCE page (R415): fences by page; die control and status exist on die 0 only. -/
def fenceView (s : State) (d off : Nat) : Option Word :=
  if Off.FN_SUM ≤ off ∧ off < Off.FN_SUM_S then
    let i := (off - Off.FN_SUM) / 4
    some (bitsWord 24 fun k => decide (24 * i + k < 256) && fenced s (ns d (24 * i + k)))
  else if off = Off.FN_SUM_S then some (bitsWord 6 fun k => fenced s (sp d k))
  else if (off = Off.FN_DIE_CTRL ∨ off = Off.FN_DIE_STAT) ∧ d ≠ 0 then some 0#24
  else none

/-- Fault injection is selecting (R390, R414). -/
def injActive (s : State) (d : Nat) : Bool :=
  let c := rd s (pgInject d) Off.IJ_CFG
  running s (pgInject d) && injOk s d && decide (fld c 22 2 ≠ 3) && decide (fld c 20 2 ≠ 0)
    && decide (rdN s (pgInject d) Off.IJ_COUNT ≠ 0)

/-! ASSAY and LAMP: the channel or island selected (R337, R355). -/

/-- A class's part of `AS_ACTIVE`. -/
def activeCode (s : State) (d cls : Nat) : Nat := match asActive s d cls with | none => 0 | some c => 32 + asPos c

/-- The queued channels of a class. -/
def queuedWord (s : State) (d cls : Nat) : Word :=
  bitsWord 17 fun p => asPresent s (17 * cls + p) && decide ((asChan s d (17 * cls + p)).queued ≠ 0)

/-- The registers of the channel in `AS_CH_SEL` (R337). -/
def asChView (s : State) (d off : Nat) : Word :=
  let c := rf s (pgAssay d) Off.AS_CH_SEL 0 6
  let x := asChan s d c
  if !asPresent s c then 0#24
  else if off = Off.AS_CH_STAT then
    word (min x.consec 255 * 2 ^ 12 + (if x.st = 0 ∧ x.queued ≠ 0 then 1 else x.st) * 2 ^ 8 + x.lastKind * 2 ^ 4 + x.lastResult)
  else if off = Off.AS_CH_RUNS then word (min x.runs 0xFFFFFF)
  else if off = Off.AS_CH_FAILS then word (min x.fails 0xFFFFFF)
  else if off = Off.AS_CH_LAST_SEC_L then lo24 x.lastSec
  else if off = Off.AS_CH_LAST_SEC_H then hi24 x.lastSec
  else if off = Off.AS_CH_LAST_TS_L then lo24 x.lastTs
  else if off = Off.AS_CH_LAST_TS_H then hi24 x.lastTs
  else if off = Off.AS_CH_LAST_TEMP then word (uns 16 x.lastTemp)
  else if off = Off.AS_CH_TEMP then word (uns 16 (islTemp s d (asIsland c)))
  else (codeWords x.applied).getD ((off - Off.AS_CH_APPLIED) / 4) 0#24

/-- The ASSAY page. -/
def assayView (s : State) (d off : Nat) : Option Word :=
  if off = Off.AS_ACTIVE then
    some (word (activeCode s d 0 + activeCode s d 1 * 2 ^ 6 + activeCode s d 2 * 2 ^ 12))
  else if off = Off.AS_QUEUED_T then some (queuedWord s d 0)
  else if off = Off.AS_QUEUED_D then some (queuedWord s d 1)
  else if off = Off.AS_QUEUED_A then some (queuedWord s d 2)
  else if Off.AS_CH_STAT ≤ off ∧ off ≤ Off.AS_CH_TEMP then some (asChView s d off)
  else none

/-- The LAMP page: the island in `LAMP_SEL` (R355). -/
def lampView (s : State) (d off : Nat) : Option Word :=
  let i := rf s (pgLamp d) Off.LAMP_SEL 0 4
  let x := island s d i
  if off < Off.LAMP_DRIFT ∨ Off.LAMP_FUSE < off then none
  else if 11 ≤ i then some 0#24
  else if off = Off.LAMP_DRIFT then some (word x.drift)
  else if off = Off.LAMP_MARGIN then some (wordI (satI 24 (margin x)))
  else if off = Off.LAMP_TRIM then some (word (x.guard % 16 * 2 ^ 4 + x.vtrim % 16))
  else if off = Off.LAMP_CALINT then some (word (x.calint % 2 ^ 16))
  else some (word (x.m0 % 2 ^ 12 * 2 ^ 12 + x.kv % 2 ^ 12))

/-! Mailboxes, encoder channels, axes. -/

/-- `IN_PROG_n`: progress of the long command of a channel (R365): the nozzle index being swept, or elapsed time in
10 ms, whose contents the manual leaves to firmware. -/
def inProg (s : State) (d : Nat) (sec : Bool) (n : Nat) : Word :=
  match (fw s d).long with
  | some l =>
    if l.sec = sec ∧ l.n = n then
      if l.cmd = 6 then word (rf s (pgEcho d) Off.SWEEP_STAT 12 12) else word (freeBelow s (2 ^ 24))
    else 0#24
  | none => 0#24

/-- The mailbox pages. -/
def mboxView (s : State) (d : Nat) (sec : Bool) (off : Nat) : Option Word :=
  if 0x100 ≤ off ∧ off < 0x500 ∧ off % 0x100 = Off.IN_PROG % 0x100 then some (inProg s d sec ((off - 0x100) / 0x100)) else none

/-- The ENC page: the count of a virtual channel (R108). -/
def encView (s : State) (d c off : Nat) : Option Word :=
  if off = Off.POS_L then some (lo24 (uns 48 (encPos s d c)))
  else if off = Off.POS_H then some (hi24 (uns 48 (encPos s d c)))
  else none

/-- The AX page: the commanded motion; a following axis shows the rate of R253 (R248, R258). -/
def axView (s : State) (d a off : Nat) : Option Word :=
  if off = Off.AX_POS_L then some (lo24 (uns 48 (axPos s d a)))
  else if off = Off.AX_POS_H then some (hi24 (uns 48 (axPos s d a)))
  else if off = Off.AX_VEL then
    some (wordI (satI 24 (openRound s (if mstate s d a = msFollow then (axis s d a).rate else (axMotion s d a).2.1) (2 ^ 31))))
  else if off = Off.AX_STAT then some (setBit (rd s (pgAx d a) off) 19 (axSlowed s d a))
  else none

/-- `ECHO_DIV` (R205): the mode divisor and EFF; in SERVICE those of a running sweep's port. -/
def echoView (s : State) (d off : Nat) : Option Word :=
  let m := modeDiv (modeOf s d) (decide (rf s (pgEcho d) Off.SWEEP_STAT 0 3 = 1))
  if off = Off.ECHO_DIV ∧ is16E s then some (setFld (setFld (rd s (pgEcho d) off) 0 3 m) 8 8 (effDiv s d m)) else none

/-- `HTR_DUTY` shows the duty in force (R194), and `WF_STAT.LOAD_STATE` COPY once no cycle uses the bank (R196). -/
def hpView (s : State) (d p off : Nat) : Option Word :=
  if off = Off.HTR_DUTY then some (rd (pwmRoll s d p) (pgHp d p) off)
  else if off = Off.WF_STAT ∧ loadState s d p = 1 ∧ !bankUsed s d p (port s d p).loadBank then
    some (setFld (rd s (pgHp d p) off) 0 3 2)
  else none

/-! Contexts. -/

/-- STATE code of a context (R125). -/
def cstCode : CState → Nat
  | .idle => 0 | .armed => 1 | .printing => 2 | .paused => 3 | .draining => 4 | .fenced => 5

/-- Status word `w` (56 to 63) of a context (R122). -/
def statusWord (s : State) (d k w : Nat) : Word :=
  let x := ctx s d k
  match w - 56 with
  | 0 => word (x.cause % 256 * 2 ^ 16 + b2n x.degraded * 2 ^ 11 + b2n x.throttled * 2 ^ 10 + b2n x.stallRun * 2 ^ 9
      + b2n x.lost * 2 ^ 8 + cstCode x.st)
  | 1 => word x.doneN
  | 2 => word x.seqExp
  | 3 => lo24 x.lastFire
  | 4 => hi24 x.lastFire
  | 5 => word x.cntNull
  | 6 => word (x.cntLate % 4096 * 2 ^ 12 + x.cntStep % 4096)
  | _ => word (x.cntDup % 4096 * 2 ^ 12 + x.cntGap % 4096)

/-- Context `k` has an unmasked event (R147). -/
def ctxSum (s : State) (d k : Nat) : Bool :=
  decide (k < nCtx s) && decide (rd s (pgCtx d) (Off.CTX_EVT + 4 * k) &&& rd s (pgCtx d) Off.CTX_EVT_MASK ≠ 0#24)

/-- The CTX_CTRL page (R144 to R147). -/
def ctxView (s : State) (d off : Nat) : Option Word :=
  if 0x080 ≤ off ∧ off ≤ 0x0A8 then some (bitsWord 24 fun j => ctxSum s d (24 * ((off - 0x080) / 4) + j))
  else if 0x0C0 ≤ off ∧ off ≤ 0x0FC then
    let p := (off - 0x0C0) / 4
    some (if p < nPorts s ∧ (port s d p).link = 3 then word (port s d p).lead else 0#24)
  else if 0x100 ≤ off ∧ off ≤ 0x1DC then some (aw s d (rf s (pgCtx d) Off.ACT_SEL 0 8) ((off - 0x100) / 4))
  else if 0x200 ≤ off ∧ off ≤ 0x27C then
    let i := (off - 0x200) / 4
    some (word (((List.range 8).map fun j => cstCode (ctx s d (8 * i + j)).st * 8 ^ j).sum))
  else if nCtx s ≤ (off - 0x400) % 0x400 / 4 ∧ 0x400 ≤ off ∧ off < 0xC00 then some 0#24
  else none

/-! Hoist channels and chutes. -/

/-- The HOIST_CH page. -/
def hcView (s : State) (d c off : Nat) : Option Word :=
  let x := hoist s d c
  if off = Off.HC_STAT then
    some (word (hcState s d c * 2 ^ 20 + x.bursts.length * 2 ^ 17 + x.pc % 2 ^ 17))
  else if off = Off.HC_REMAIN then some (word (match x.move with | some m => m.remain | none => 0))
  else if off = Off.HC_LC_0 then some (word x.lc0)
  else if off = Off.HC_LC_1 then some (word x.lc1)
  else none

/-- The HOIST_GLOBAL page's summaries (R302). -/
def hgView (s : State) (d off : Nat) : Option Word :=
  let busy (c : Nat) : Bool := decide (c < nHc s) && [2, 3, 4, 6].contains (hcState s d c)
  let halt (c : Nat) : Bool := decide (c < nHc s) && decide (hcState s d c = 5)
  if off = Off.HG_BUSY_0 then some (bitsWord 24 busy)
  else if off = Off.HG_BUSY_1 then some (bitsWord 8 fun j => busy (24 + j))
  else if off = Off.HG_HALT_0 then some (bitsWord 24 halt)
  else if off = Off.HG_HALT_1 then some (bitsWord 8 fun j => halt (24 + j))
  else none

/-- `CH_STAT` (R304). -/
def chStat (s : State) (d c : Nat) : Word :=
  let x := chute s d c
  word (b2n x.cfgBad * 2 ^ 7 + b2n x.openRec * 2 ^ 6 + b2n (decide (x.flush ≠ [])) * 2 ^ 5 + b2n (frozen s d c) * 2 ^ 4
    + b2n (decide (freeWords x = 0)) * 2 + b2n (decide (x.words = [])))

/-- The CHUTE page (R294 to R300, R304). -/
def chView (s : State) (d c off : Nat) : Option Word :=
  let x := chute s d c
  if off = Off.CH_FILL then some (word x.words.length)
  else if off = Off.CH_FREE then some (word (freeWords x))
  else if off = Off.CH_STAT then some (chStat s d c)
  else if off = Off.CR_GRANT then some (word x.grant)
  else if off = Off.CR_USED then some (word x.used)
  else if 0x100 ≤ off ∧ off ≤ 0x13C then
    some (match x.words[(off - 0x100) / 4]? with | some w => if w.ecc = .bad then 0#24 else w.w | none => 0#24)
  else none

/-- The CHUTE_GLOBAL page (R306): its summaries follow the chutes while it runs. -/
def cgView (s : State) (d off : Nat) : Option Word :=
  let on := running s (pgChuteGlobal d)
  let sum (o : Nat) (f : Nat → Bool) : Word := bitsWord 24 fun k =>
    let c := 24 * ((off - o) / 4) + k
    on && decide (c < 64) && realChute s c && f c
  if Off.CG_THRESH ≤ off ∧ off < Off.CG_NONEMPTY then some (sum Off.CG_THRESH fun c => rb s (pgChute d c) Off.EVT_DYN 0)
  else if Off.CG_NONEMPTY ≤ off ∧ off < Off.CG_FULL then some (sum Off.CG_NONEMPTY fun c => decide ((chute s d c).words ≠ []))
  else if Off.CG_FULL ≤ off ∧ off < Off.CG_HELD then some (sum Off.CG_FULL fun c => decide (freeWords (chute s d c) = 0))
  else if Off.CG_HELD ≤ off ∧ off < Off.CG_THRESH_EN then
    some (sum Off.CG_HELD fun c => fenced s (pgChute d c) || frozen s d c || decide ((chute s d c).flush ≠ []))
  else if off = Off.CG_SPILL then
    some (word (if on then ((List.range (nChutes s)).filter fun c => realChute s c && decide (32 < (chute s d c).words.length)).length
      else 0))
  else none

/-! Secure pages. -/

/-- The SEC_DIE page (R398). -/
def secDieView (s : State) (d off : Nat) : Option Word :=
  let x := die s d
  if off = Off.SD_LC then
    some (word (b2n x.keyOk * 2 ^ 9 + b2n x.fuseOk * 2 ^ 8 + partLc s * 2 ^ 4 + x.lc))
  else if off = Off.SD_KEY_ID_L then some (if x.lc = 3 then 0#24 else lo24 x.keyId)
  else if off = Off.SD_KEY_ID_H then some (if x.lc = 3 then 0#24 else hi24 x.keyId)
  else none

/-- `SESS_STAT` (R380): the backoff that remains in seconds, a fraction counting as one; a retired die is
UNAVAILABLE. -/
def sessView (s : State) (d off : Nat) : Option Word :=
  let x := (die s d).sess
  if off = Off.SESS_STAT then
    let w := rd s (pgSess d) off
    let w1 := if (die s d).lc = 3 then setFld w 0 3 4 else w
    some (setFld w1 16 8 (if x.st = 3 then ceilDiv (x.backoffEnd - s.clock) 250000000 else 0))
  else none

/-- The registers whose value follows the state of the part. -/
def liveView (s : State) (p : Pg) (off : Nat) : Option Word :=
  let d := p.die
  if off < 0x40 then hdrView s p off
  else match pgKind p with
    | .die => dieView s d off
    | .timebase => tbView s d off
    | .tsync => tsyncView s d off
    | .eventHub => hubView s d off
    | .fence => fenceView s d off
    | .inject => if off = Off.IJ_STAT then some (setBit (rd s p off) 1 (injActive s d)) else none
    | .assay => assayView s d off
    | .lamp => lampView s d off
    | .retain => if off = Off.RET_DATA then some (retDataVal s d) else none
    | .mbox => mboxView s d p.sec off
    | .hp => hpView s d (pgInst p) off
    | .echo => echoView s d off
    | .enc => encView s d (pgInst p) off
    | .ax => axView s d (pgInst p) off
    | .ctxCtrl => ctxView s d off
    | .hoistCh => hcView s d (pgInst p) off
    | .hoistGlobal => hgView s d off
    | .chute => chView s d (pgInst p) off
    | .chuteGlobal => cgView s d off
    | .secDie => secDieView s d off
    | .session => sessView s d off
    | _ => none

/-- `COMMIT.VIEW`: reads return the shadow copy (R47). -/
def viewsShadow (s : State) (p : Pg) : Bool := (pgKind p).hasRws && rb s p Off.COMMIT 7

/-- What a register reads as: write-only registers and reserved offsets read 0 (R9). -/
def regView (s : State) (p : Pg) (off : Nat) : Word :=
  match liveView s p off with
  | some w => w
  | none =>
    match regRow p off with
    | none => 0#24
    | some row =>
      match row.acc with
      | .wo => 0#24
      | .rws => if viewsShadow s p then rdShadow s p off else rd s p off
      | _ => rd s p off

end Sys2Proof.Machine
end

