-- ==== Sys2Proof/Machine/MemWin.lean ====
section
/-!
DEFINITION. Accesses to the memory windows (R52, R308 to R315, R383, R423) and to context descriptors (R117, R118).
-/
namespace Sys2Proof.Machine

/-- The memory that holds `n` bytes from an offset of a die's window: the dual-port store or the lode, and the byte
within it (R52). -/
def memZone (off n : Nat) : Option (Bool × Nat) :=
  if 0x100000 ≤ off ∧ off + n ≤ 0x160000 then some (true, off - 0x100000)
  else if 0x400000 ≤ off ∧ off + n ≤ 0xA00000 then some (false, off - 0x400000)
  else none

/-- `GD_MEM` permits the access (R381). -/
def memPermits (s : State) (r : Req) (d : Nat) (dps write : Bool) : Bool :=
  (fld (guardReg s d Off.GD_MEM) (if dps then 0 else 4) 4).testBit (guardBit r.cls write)

/-- The die answers the requester (R53, R410). -/
def dieAnswers (s : State) (r : Req) (d : Nat) : Bool := decide (d < s.part.dies) && !(isHost r && isolated s d)

/-- `UNC_SRC` of a requester class. -/
def clsSrc : Cls → Nat
  | .nsHost => 2 | .secHost => 3 | .debug => 3 | .firmware => 4 | .hoist => 5

/-- The dual-port word belongs to a descriptor (R117). -/
def isDescr (s : State) (w : Nat) : Bool := decide (w < 64 * nCtx s)

/-- The error with which the part discards a write to a descriptor word (R118): a status word turns away host, debug and
Hoist; words 0 to 55 turn away every write while the context's GO is 1. Firmware's write of a status word changes the
stored word, which no read shows (R117). -/
def descrErr (s : State) (r : Req) (d w : Nat) : Option Nat :=
  if !isDescr s w then none
  else if 56 ≤ w % 64 then if r.cls = .firmware then none else some 0x40
  else if ctxGo s d (w / 64) then some 0x41
  else none

/-- The word stored by a write of `v` at word `w` (R11): a descriptor's shadow word keeps to its fields. -/
def storedWord (s : State) (d : Nat) (dps : Bool) (w : Nat) (v : Word) : Word :=
  if dps && isDescr s w && decide (w % 64 < 56) then descWord (w % 64) (rawWord s (wordAddr d dps w)) v else v

/-- A port B write collides with a port A write (R315). -/
def collision (s : State) (r : Req) (d w : Nat) : State :=
  let p := pgMemctl d
  let info := word (clsCode r.cls * 2 ^ 22 + w)
  let s1 := raise (wr (count s p Off.COLL_CNT) p Off.COLL_INFO info) p 2
  match r.cls with
  | .hoist | .firmware => s1
  | _ => logRecord s1 d d { fenced := false, cause := ⟨0x0C, 0, 2, info.toNat⟩ }

/-- Replace the bytes of a word from byte `k` on (R312). -/
def mergeBytes (w : Word) (k : Nat) (bs : List Byte) : Word :=
  let old := wordBytes w
  let at_ (i : Nat) : Byte := if k ≤ i ∧ i < k + bs.length then bs.getD (i - k) 0#8 else old.getD i 0#8
  bytesWord (at_ 0) (at_ 1) (at_ 2)

/-- Write bytes of one word: whole, or by a read-modify-write, which a poisoned word discards (R311, R312, R315). -/
def wordWrite (s : State) (r : Req) (d : Nat) (dps : Bool) (w k : Nat) (bs : List Byte) (collide : Bool) : State :=
  let a := wordAddr d dps w
  if 3 ≤ bs.length then
    if collide then collision s r d w else wrWord s a (storedWord s d dps w (mergeBytes 0#24 k bs))
  else
    let (v, bad, s1) := readWord s d dps w (clsSrc r.cls)
    if bad then s1
    else if collide then collision s1 r d w
    else wrWord s1 a (storedWord s d dps w (mergeBytes v k bs))

/-- One word of a window write: protected descriptor words discard it (R118); a poisoned request poisons the word
(R423). -/
def windowWord (s : State) (r : Req) (d : Nat) (dps : Bool) (w k : Nat) (bs : List Byte) (poisoned collide : Bool) :
    State :=
  match if dps then descrErr s r d w else none with
  | some code => logErr s r (pgCtx d) (w / 64) true code
  | none =>
    if poisoned then if collide then collision s r d w else poisonWord s (wordAddr d dps w)
    else wordWrite s r d dps w k bs collide

/-- The words a run of bytes touches, with the bytes for each. -/
def splitWords : List (Nat × Nat × Nat) → List Byte → List (Nat × Nat × List Byte)
  | [], _ => []
  | (w, k, m) :: r, bs => (w, k, bs.take m) :: splitWords r (bs.drop m)

/-- A poisoned posted write is counted (R423). -/
def poisonRx (s : State) : State := raise (count s pgPcie Off.CNT_POISON_RX) pgPcie 5

/-- A write of bytes to a memory window, its words in rising order (R312, R313); `collide` lists the dual-port words
at which port A writes in the same clock (R315). -/
def memWrite (s0 : State) (r : Req) (d off : Nat) (bs : List Byte) (poisoned : Bool) (collide : List Nat) : State :=
  if !powered s0 then s0 else
  let s := if poisoned then poisonRx s0 else s0
  match memZone off bs.length with
  | none => noAnswer s r 0 (d * 2 ^ 24 + off) true
  | some (dps, b) =>
    if !dieAnswers s r d then noAnswer s r 0 (d * 2 ^ 24 + off) true
    else if !memPermits s r d dps true then denyCount s r (ns d 0) true true
    else
      each (splitWords (touched bs.length b bs.length) bs) s fun s x =>
        windowWord s r d dps x.1 x.2.1 x.2.2 poisoned (dps && collide.contains x.1)

/-- A word as a window shows it: status words from the engine, all others from the memory (R117). -/
def windowRead (s : State) (d : Nat) (dps : Bool) (w src : Nat) (eff : Option Link := none) (reason : Nat := 0) :
    Word × Bool × State :=
  if dps && isDescr s w && decide (56 ≤ w % 64) then (statusWord s d (w / 64) (w % 64), false, s)
  else readWord s d dps w src eff reason

/-- The bytes of the words touched, those of poisoned words 0, and whether any was poisoned (R311, R312). -/
def readBytes : List (Nat × Nat × Nat) → State → Nat → Bool → Nat → List Byte × Bool × State
  | [], s, _, _, _ => ([], false, s)
  | (w, k, m) :: r, s, d, dps, src =>
    let (v, bad, s1) := windowRead s d dps w src
    let (bs, bad2, s2) := readBytes r s1 d dps src
    (((wordBytes (if bad then 0#24 else v)).drop k).take m ++ bs, bad || bad2, s2)

/-- A read of bytes of a memory window (R311, R312, R383, R423). -/
def memRead (s : State) (r : Req) (d off len : Nat) : State :=
  if !powered s then s else
  match memZone off len with
  | none => noAnswer s r 0 (d * 2 ^ 24 + off) false
  | some (dps, b) =>
    if !dieAnswers s r d then noAnswer s r 0 (d * 2 ^ 24 + off) false
    else if !memPermits s r d dps false then
      { denyCount s r (ns d 0) false true with resp := .bytes (List.replicate len 0#8) false }
    else
      let (bs, bad, s1) := readBytes (touched len b len) s d dps (clsSrc r.cls)
      let s2 := whenDo (bad && isHost r) s1 fun s => count s pgPcie Off.CNT_POISON_TX
      { s2 with resp := .bytes bs bad }

/-- MEM_WINDOW_WRITE (R312): bytes written to a memory window from an offset of die `d`'s window. -/
def execMemWindowWrite (r : Req) (d off : Nat) (bs : List Byte) (poisoned : Bool) (collide : List Nat) (s : State) :
    Host.Outcome State Fault Refusal :=
  ok (memWrite s r d off bs poisoned collide)

/-- MEM_WINDOW_READ (R311, R312). -/
def execMemWindowRead (r : Req) (d off len : Nat) (s : State) : Host.Outcome State Fault Refusal :=
  ok (memRead s r d off len)

/-- DESCRIPTOR_WRITE (R118): a write of word `w` of context `k`'s descriptor. -/
def execDescriptorWrite (r : Req) (d k w : Nat) (v : Word) (s : State) : Host.Outcome State Fault Refusal :=
  ok (if k < nCtx s ∧ w < 64 then memWrite s r d (0x100000 + 3 * (64 * k + w)) (wordBytes v) false [] else s)

end Sys2Proof.Machine
end

