-- ==== Sys2Proof/Machine/Pd.lean ====
section
/-!
DEFINITION. Product-detect inputs (R111, R112).
-/
namespace Sys2Proof.Machine

/-- `PD_CFG_n`. -/
def pdCfg (s : State) (d n : Nat) : Word := rd s (pgPd d) (Off.PD_CFG + 4 * n)
/-- `PD_LOCK_n`. -/
def pdLock (s : State) (d n : Nat) : Nat := rdN s (pgPd d) (Off.PD_LOCK + 4 * n)

/-- The lockout of an input has ended (R112). -/
def lockEnded (s : State) (d n : Nat) : Bool :=
  let w := pdCfg s d n
  !(pdIn s d n).locked || decide (pdLock s d n = 0)
    || (if bit w 17 then decide ((pdIn s d n).lockClock + 256 * pdLock s d n ≤ s.clock)
        else !running s (pgEnc d (fld w 14 3)) || pdFar s d n (encPos s d (fld w 14 3)))

/-- The frozen or present count that an edge latches (R111, R112): an absent channel reads 0. -/
def pdPos (s : State) (d n : Nat) : Int :=
  let c := fld (pdCfg s d n) 14 3
  if present s (pgEnc d c) then encPos s d c else 0

/-- Word 5 of a PRODUCT record: estimate less count (R103). -/
def pdDiff (s : State) (d n : Nat) (stamp : Int) : Int :=
  let w := pdCfg s d n
  if bit w 17 || !present s (pgEnc d (fld w 14 3)) then 0
  else latDiff s d (fld w 14 3) stamp (pdPos s d n)

/-- The input ignores the edge (R112). -/
def pdIgnore (s : State) (d n : Nat) : State := raise (count s (pgPd d) (Off.PD_LOCKED + 4 * n)) (pgPd d) (8 + n)

/-- The input accepts an edge with its stamp (R111). -/
def pdAccept (s : State) (d n : Nat) (stamp : Int) : State :=
  let p := pgPd d
  let w := pdCfg s d n
  let ub := bit w 17
  let pos := pdPos s d n
  let dif := pdDiff s d n stamp
  let s1 := raise (count (wr48 (nextFree (nextFree s)) p (Off.PD_TS_L + 16 * n) (uns 48 stamp)) p (Off.PD_ACC + 4 * n)) p n
  let s2 := if ub then s1 else wr48 s1 p (Off.PD_POS_L + 16 * n) (uns 48 pos)
  let lock := decide (pdLock s d n ≠ 0) && (ub || running s (pgEnc d (fld w 14 3)))
  let s3 := setPdIn s2 d n { pdIn s2 d n with locked := lock, lockClock := s.clock }
  let s4 := each ((List.range (nEnc s)).filter fun c => rb s (pgEnc d c) Off.LAT_CFG n) s3 fun s c => takeLatch s d c 2 n stamp
  let s5 := posRecord s4 d (8 + n) 6 (if ub then 0 else fld w 14 3) n (if ub then 0 else pos) stamp dif (bit w 18) false
  sendMsg s5 d n (.pdEdge n (uns 48 stamp) s.clock pos)

/-- The edge is the one that `EDGE` chooses (R111). -/
def pdEdgeOk (edge : Nat) (level : Bool) : Bool := decide (edge = 2) || decide (edge = if level then 0 else 1)

/-- The number of consecutive raw samples that change the filtered level (R111). -/
def pdNeed (s : State) (d n : Nat) : Nat := (fld (pdCfg s d n) 4 8 + 1) * 16 ^ fld (pdCfg s d n) 12 2

/-- The raw level after inversion by `INV` (R111). -/
def pdIn1 (s : State) (d n : Nat) : Bool := (pdIn s d n).raw != bit (pdCfg s d n) 3

/-- The raw level has held for the samples that R111 asks for: the filtered level changes, with its edge. The stamp is the
tick of the first sample less 2. -/
def pdPass (s : State) (d n : Nat) : State :=
  let p := pgPd d
  let x := pdIn s d n
  let level := pdIn1 s d n
  if rb s p Off.PD_LEVEL n = level ∨ s.clock < x.since + pdNeed s d n then s
  else
    let w := pdCfg s d n
    let s1 := wb s p Off.PD_LEVEL n level
    if !bit w 0 || !pdEdgeOk (fld w 1 2) level then s1
    else if lockEnded s d n then pdAccept s1 d n ((now s d : Int) - ((s.clock - x.since : Nat) : Int) - 2)
    else pdIgnore s1 d n

/-- The raw samples of an input from this tick on have a level (R111). -/
def pdRaw (s : State) (d n : Nat) (level : Bool) : State :=
  if (pdIn s d n).raw = level then s else setPdIn s d n { pdIn s d n with raw := level, since := s.clock }

/-- PRODUCT: the raw input changes to a level, with the sample of this tick; or, given for the level that it has, it
holds that level until the persistence filter has passed it, which is waited for (R111, R112). -/
def execProduct (d n : Nat) (level : Bool) (s : State) : Host.Outcome State Fault Refusal :=
  if decide (n < 8) && running s (pgPd d) then
    let x := pdIn s d n
    let s1 := if x.raw = level ∧ rb s (pgPd d) Off.PD_LEVEL n ≠ pdIn1 s d n then waitClock s (x.since + pdNeed s d n) else s
    ok (pdRaw (pdPass s1 d n) d n level)
  else ok (if n < 8 then pdRaw s d n level else s)

/-- The PD page enters RUNNING: its filters begin (R111). -/
def pdStart (s : State) (d : Nat) : State :=
  each (List.range 8) s fun s n => setPdIn s d n { pdIn s d n with since := s.clock }

/-- PD_LOCKOUT_END: the lockout of an unbound input is over, or that of a bound one by distance (R112). -/
def execPdLockoutEnd (d n : Nat) (s : State) : Host.Outcome State Fault Refusal :=
  if decide (n < 8) && (pdIn s d n).locked then
    let s1 := if bit (pdCfg s d n) 17 then waitClock s ((pdIn s d n).lockClock + 256 * pdLock s d n) else s
    ok (if lockEnded s1 d n then setPdIn s1 d n { pdIn s1 d n with locked := false } else s1)
  else ok s

/-- A hand-over of one input: a changed `INV` inverts the filtered level shown (R111), a shorter filter takes the newest
raw samples, and a lockout that the new settings end is over (R112). -/
def pdTurn (s0 s : State) (d n : Nat) : State :=
  let s1 := if bit (pdCfg s d n) 3 != bit (pdCfg s0 d n) 3 then wb s (pgPd d) Off.PD_LEVEL n (!rb s (pgPd d) Off.PD_LEVEL n)
    else s
  let x := pdIn s1 d n
  setPdIn s1 d n { x with since := max x.since (s.clock - pdNeed s1 d n), locked := !lockEnded s1 d n }

/-- A hand-over of the page. -/
def pdHandOver (s : State) (d : Nat) : State :=
  each (List.range 8) (takeShadows s (pgPd d)) fun t n => pdTurn s t d n

end Sys2Proof.Machine
end

