-- ==== Sys2Proof/Machine/Page.lean ====
section
/-!
DEFINITION. The life of a register page: `EN`, start-up, shut-down and soft reset (R41 to R43), events (R44 to R46),
and hand-overs (R47), with what each block does at its start and its end.
-/
namespace Sys2Proof.Machine

/-! Head ports (R198, R232, R244). -/

/-- No cycle starts any more and data frames not yet sent are dropped; once the waveforms in progress have ended, a NULL
frame follows for each cycle sent but not armed, and CTRL HOLD (R198, R244). A load in progress ends. -/
def hpStop (s : State) (d p : Nat) : State :=
  let s1 := loadAbort s d p
  let x := port s1 d p
  let fresh := fun (f : Frame) => decide (f.kind = 1) && decide (f.tries = 0)
  let lost := (x.queue ++ x.held ++ x.follow).filter fresh
  let rest := fun (l : List Frame) => l.filter fun f => !fresh f
  let s2 := setPort s1 d p { x with
    queue := rest x.queue, held := rest x.held, follow := rest x.follow
    cycles := x.cycles.map deadCycle }
  let s3 := each lost s2 fun s f => frameEnd s d p f false
  htrFollow (setPort s3 d p { port s3 d p with stopFrames := nullList s d p ++ [{ kind := 4, words := ctrlWords 2 }] }) d p

/-- Outputs and link of a port have reached their off state (R198, R244); the end of the last cycle is awaited. -/
def hpIdle (s : State) (d p : Nat) : Bool :=
  let x := port s d p
  decide (x.link ≠ 3)
    || (x.queue.isEmpty && x.outst.isEmpty && x.held.isEmpty && x.follow.isEmpty && x.stopFrames.isEmpty)

/-- The lanes go to electrical idle, the DAC holds code 0 (R192, R198, R232, R244), and no head temperature is valid
(R341). -/
def hpOff (s : State) (d p : Nat) : State :=
  let s1 := setLink (abandonFrames s d p) d p 0
  thermOff (setPort s1 d p { port s1 d p with play := [], wfOut := [] }) d p

/-! Start (R41, R232, R267, R302). -/

/-- A block enters STARTING. -/
def pageStart (s : State) (p : Pg) : State :=
  let s1 := setPstate s p stStarting
  let d := p.die
  let i := pgInst p
  match pgKind p with
  | .hp => if (port s1 d i).link = 0 then setLink s1 d i 1 else s1
  | .ax => axStart s1 d i
  | .inject => injFollow s1 d
  | _ => s1

/-- Die 0's records of its TIME_PLL fence, the FAULT record ahead of the RELEASE record, once its log can take them
(R411). -/
def pageTied (s : State) (p : Pg) : State :=
  if p = pgChute 0 19 ∧ (die s 0).dieTied ∧ (die s 0).dieReason = 0 then
    dieRecord (dieRecord (setDie s 0 { die s 0 with dieTied := false }) 0 1 4) 0 2 4
  else s

/-- What a block does as it enters RUNNING. -/
def pageRun (s : State) (p : Pg) : State :=
  let d := p.die
  let i := pgInst p
  let s1 := setPstate s p stRunning
  match pgKind p with
  | .hp => portRunning s d i
  | .ax => axRunning s d i
  | .enc => encStart s1 d i
  | .pd => pdStart s1 d
  | .chute => pageTied (if cameBack s p then chuteFollow s1 d i else chuteStart s1 d i) p
  | .chuteGlobal => cgFollow s1 d
  | .hoistCh => hcStarted s1 d i
  | .tsync => tsStart s1
  | .seam => seamsUpdate s1 d
  | .inject => injFollow (setDie s1 d { die s1 d with ijSeen := 0 }) d
  | _ => s1

/-- The start-up of a block can complete now: a port's link is UP (R232); an axis completes by AX_ENABLE_DONE. -/
def pageReady (s : State) (p : Pg) : Bool :=
  match pgKind p with
  | .hp => decide ((port s p.die (pgInst p)).link = 3)
  | .ax => false
  | _ => true

/-! Shut-down (R41, R42, and each block's chapter). -/

/-- A block enters SHUTTING. -/
def pageShut (s : State) (p : Pg) : State :=
  let d := p.die
  let i := pgInst p
  let s1 := setPstate s p stShutting
  match pgKind p with
  | .hp => hpStop s1 d i
  | .ax => axShut s d i
  | .enc => encStop (setPstate (encSync s d i) p stShutting) d i
  | .chute => chuteFollow s1 d i
  | .chuteGlobal => setDyn s1 p 0 false
  | .hoistCh => hcStop s1 d i
  | .tsync => tsStop s1
  | .seam => seamsUpdate s1 d
  | .assay => asStop s1 d
  | .mbox => mbStop s1 d p.sec
  | .debug => if (die s d).lc = 1 then dbgClose s1 d else s1
  | .inject => injFollow s1 d
  | _ => s1

/-- Nothing that the shut-down of the block waits for is left. -/
def pageIdle (s : State) (p : Pg) : Bool :=
  let d := p.die
  let i := pgInst p
  match pgKind p with
  | .hp => hpIdle s d i
  | .ax => !axMoving s d i && decide (mstate s d i ≠ msStopping) && (axis s d i).cmds.isEmpty
  | .enc => !(enc s d i).serBusy
  | .chute => !burstsTo s d i
  | .hoistCh => decide ((hoist s d i).bursts = [])
  | .assay => asFree s d
  | .lamp => (lamp s d).since.isNone
  | .mbox => mbIdle s d p.sec
  | .echo => (echo s d).meas.isEmpty
  | .seam => !shareBusy s d
  | _ => true

/-- What a block does at the end of its shut-down. -/
def pageOff (s : State) (p : Pg) : State :=
  let d := p.die
  let i := pgInst p
  match pgKind p with
  | .hp => hpOff s d i
  | .ax => axOff s d i
  | .chute =>
    let s1 := heldForget (setChute (spotGone s d i (chute s d i).words) d i { spill := (chute s d i).spill }) d i
    if (chute s d i).flush = [] then s1 else raise s1 p 6
  | .hoistCh => hcStopped s d i
  | .enc => serDrop s d i
  | .tsync => tsOff s
  | _ => s

/-- The state of a block beside its registers after a reset of its page (R10, R180). -/
def engineReset (s : State) (p : Pg) : State :=
  let d := p.die
  let i := pgInst p
  match pgKind p with
  | .hp =>
    let x := port s d i
    linkStat (htrFollow (setPort s d i { cycles := x.cycles, cseq := x.cseq, play := x.play, rest := x.rest, wfOut := x.wfOut }) d i) d i
  | .ax => axReset s d i
  | .enc => setEnc s d i { startAt := s.clock }
  | .chute => setChute s d i {}
  | .hoistCh => setHoist s d i {}
  | .hoistGlobal => { s with cqSeq := s.cqSeq.filter fun e => decide (e.1.1 ≠ d) }
  | .tsync => { s with tsync := { secSet := s.tsync.secSet, seq := s.tsync.seq } }
  | .mbox => mbReset s d p.sec
  | .echo => setEcho s d { echo s d with meas := [], sweep := {} }
  | .assay => setAssay s d {}
  | .lamp => setLamp s d { lamp s d with since := none }
  | .pd => { s with pds := s.pds.map fun e => if e.1.1 = d then (e.1, { raw := e.2.raw, since := s.clock }) else e }
  | _ => s

/-- Every field of the page takes its reset value, with `EN` as given, and the page its state (R42, R43). A soft reset of
TSYNC returns `TS_FREQ` to 0 slowly (R79). -/
def pageReset (s : State) (p : Pg) (en : Bool) : State :=
  let freq := rd s pgTsync Off.TS_FREQ
  let s1 := setPstate (wb (resetPage s p) p Off.PAGE_CTRL 0 en) p stOff
  let s2 := setFenceSt (engineReset s1 p) p {}
  if pgKind p ≠ .tsync then s2
  else tbFollow (if en then s2 else { wr s2 p Off.TS_FREQ freq with tsync := { s2.tsync with relax := true } })

/-- A shut-down ends (R42, R43). -/
def pageDone (s : State) (p : Pg) : State :=
  let s1 := pageOff s p
  if rb s1 p Off.PAGE_CTRL 2 then pageReset s1 p (pgKind p).enReset
  else if pstate s1 p = stRestart then pageStart (pageReset s1 p true) p
  else setFenceSt (setPstate s1 p stOff) p {}

/-! `PAGE_CTRL` (R41 to R43). -/

/-- `EN` of the page ignores writes: fixed (R43), CHUTE_21 to CHUTE_23 (R293). -/
def enLocked (p : Pg) : Bool :=
  (pgKind p).enFixed || (decide (pgKind p = .chute) && decide (21 ≤ pgInst p) && decide (pgInst p ≤ 23))

/-- A port that has not reached UP is abandoned (R232). -/
def hpAbandon (s : State) (p : Pg) : Bool := decide (pgKind p = .hp) && decide ((port s p.die (pgInst p)).link ≠ 3)

/-- A write of `EN` (R42); the fault injection's DENIED follows it (R417). -/
def enSet (s : State) (p : Pg) (b : Bool) : State :=
  if enLocked p then s
  else
    let st := pstate s p
    let s0 := whenDo (decide (pgKind p = .inject)) (wb s p Off.PAGE_CTRL 0 b) (injFollow · p.die)
    let s1 := if st = stFenced then s0 else setFenceSt s0 p { fenceSt s p with enAt := some (s.clock, stateBefore s p) }
    if st = stOff then (if b then pageStart s1 p else s1)
    else if st = stStarting then
      if b then s
      else if hpAbandon s p then setPstate (setLink s1 p.die (pgInst p) 0) p stShutting
      else s1
    else if st = stRunning then (if b then s1 else pageShut s1 p)
    else if st = stShutting then (if b then setPstate s1 p stRestart else s1)
    else if st = stRestart then (if b then s1 else setPstate s1 p stShutting)
    else s1

/-- A write of 1 to `SOFT_RESET` (R43). -/
def softReset (s : State) (p : Pg) : State :=
  let st := pstate s p
  if (pgKind p).enFixed ∨ st = stFenced then s
  else if st = stOff then pageReset s p (pgKind p).enReset
  else
    let s1 := wb s p Off.PAGE_CTRL 2 true
    if st = stStarting ∨ st = stRunning then enSet s1 p false
    else if st = stRestart then setPstate s1 p stShutting
    else s1

/-- BLOCK_STARTED (R41): start-up completes; with `EN` = 0 the block then shuts down (R42). -/
def execBlockStarted (p : Pg) (s : State) : Host.Outcome State Fault Refusal :=
  ok (if present s p && decide (pstate s p = stStarting) && pageReady s p then
    let s1 := setFenceSt (pageRun s p) p {}
    if rb s1 p Off.PAGE_CTRL 0 then s1 else pageShut s1 p
  else s)

/-- SHUTDOWN_COMPLETE (R41, R42, R43): the outputs of the block have reached their off state. -/
def execShutdownComplete (p : Pg) (s : State) : Host.Outcome State Fault Refusal :=
  ok (if present s p && (decide (pstate s p = stShutting) || decide (pstate s p = stRestart)) then
    let s1 := match pgKind p with
      | .hp => waitTick s p.die (playEnd s p.die (pgInst p))
      | .tsync => waitClock s (tsSentEnd s)
      | .assay => if asFree s p.die then each (List.range 3) s fun s cls => waitSpare s p.die cls else s
      | _ => s
    if pageIdle s1 p then pageDone s1 p else s
  else s)

/-! Events (R44 to R46). -/

/-- The event bits a page has. -/
def Kind.events : Kind → Nat
  | .absent | .eventHub => 0
  | .die | .inject | .tally | .retain | .debug | .session => 0x7
  | .mode | .chuteGlobal => 0xF
  | .timebase | .tsync | .seam => 0x80003F
  | .fence | .memctl | .hoistCh => 0x3F
  | .assay => 0x80001F
  | .thermal => 0xBFFFDF
  | .lamp => 0x1F
  | .hoistGlobal | .pcie | .chute => 0xFF
  | .mbox => 0x7FFFF
  | .hp => 0xBFF1FF
  | .enc | .ax => 0x803FFF
  | .pd => 0x80FFFF
  | .echo => 0x8001FF
  | .burim => 0x7F
  | .ctxCtrl | .guard => 0x3
  | .secDie | .injectLock => 0x1

/-- The event bits of a write. -/
def evtMask (p : Pg) (v : Word) : Word := v &&& word (pgKind p).events

/-- A message for a summary that a write leaves at 1 (R45). -/
def resend (s : State) (p : Pg) : State := if summary s p then pageMsix s p else s

/-- A write to `EVT_LAT` (R44, R45): bits held at level stay set. -/
def evtLat (s : State) (p : Pg) (v : Word) : State :=
  resend (wr s p Off.EVT_LAT ((rd s p Off.EVT_LAT &&& ~~~ v) ||| levelBits s p)) p

/-- A write to `EVT_EN` (R45). -/
def evtEn (s : State) (p : Pg) (v : Word) : State := resend (wr s p Off.EVT_EN (evtMask p v)) p

/-- A write to `EVT_LVL` (R44): a bit whose condition holds latches at level. -/
def evtLvl (s : State) (p : Pg) (v : Word) : State :=
  let s1 := wr s p Off.EVT_LVL (evtMask p v)
  latch s1 p (levelBits s1 p)

/-- A write to `EVT_SET` (R44): the bits latch as if the events had occurred. -/
def evtSet (s : State) (p : Pg) (v : Word) : State := latch s p (evtMask p v)

/-- A write to `EVT_VEC` (R46): vectors 96 to 127 belong to secure pages. -/
def evtVec (s : State) (p : Pg) (v : Word) : State :=
  let n := fld v 0 7
  if p.sec = decide (96 ≤ n) then wr s p Off.EVT_VEC (word n) else s

/-- VALID and OVF clear by a write of 1 to VALID (R39). -/
def errClear (s : State) (p : Pg) (v : Word) : State :=
  if bit v 23 then wb (wb s p Off.ERR_INFO 23 false) p Off.ERR_INFO 22 false else s

/-! Hand-overs (R47). -/

/-- TSYNC of a die other than die 0 (R79). -/
def notPrimary (p : Pg) : Bool := decide (pgKind p = .tsync) && decide (p.die ≠ 0)

/-- A write of `COMMIT` (R47): VIEW, BOUNDARY, CANCEL and GO. -/
def commitWrite (s : State) (r : Req) (p : Pg) (v : Word) : State :=
  if notPrimary p then logErr s r p Off.COMMIT true 0x40
  else if !(pgKind p).hasRws then s
  else
    let c := Off.COMMIT
    let go := goSet s p
    let b := fld v 4 3
    let s1 := wb s p c 7 (bit v 7)
    let s2 := if go then (if b = rf s p c 4 3 then s1 else logErr s1 r p c true 5)
      else if (pgKind p).boundaries.contains b then wf s1 p c 4 3 b else s1
    let s3 := whenDo (bit v 1) s2 fun s => wb s p c 0 false
    if bit v 0 && !goSet s3 p then { wb s3 p c 0 true with gos := Tbl.put s3.gos (p, c) s.clock } else s3

/-- Every RWS register of the page takes its shadow value, with what that does to the block. -/
def pageHandOver (s : State) (p : Pg) : State :=
  let d := p.die
  match pgKind p with
  | .enc => encHandOver s d (pgInst p)
  | .hp => hpHandOver s d (pgInst p)
  | .pd => pdHandOver s d
  | .timebase => tbHandOver s d
  | .tsync => tsHandOver s
  | .ax => axHandOver s d (pgInst p)
  | .seam => seamsUpdate (takeShadows s p) d
  | _ => takeShadows s p

/-- The hand-over is due in the tick after the GO write: in OFF, at NEXT_TICK, and at CYCLE with no context of the port
outside IDLE (R47, R197). A fenced page waits. -/
def handOverNow (s : State) (p : Pg) : Bool :=
  goSet s p && !fenced s p
    && (decide (pstate s p = stOff) || decide (rf s p Off.COMMIT 4 3 = 0)
      || (decide (pgKind p = .hp)
        && (portCtxs s p.die (pgInst p)).all fun k => decide ((ctx s p.die k).st = .idle)))

/-- HAND_OVER (R47). At a cycle boundary of a port the hand-over is part of LINE_BIND. -/
def execHandOver (p : Pg) (s : State) : Host.Outcome State Fault Refusal :=
  ok (if present s p && handOverNow s p then pageHandOver (waitClock s (goAt s p Off.COMMIT + 1)) p else s)

/-! The header commands on the bus. -/

/-- The requester as the page sees it. -/
def asSeen (r : Req) (p : Pg) : Req := ⟨clsOn r p, r.rid⟩

/-- A write of `EN` or `SOFT_RESET` to TSYNC of a die other than die 0 is ignored and logged (R79). -/
def primaryWrite (s : State) (r : Req) (p : Pg) (eff : State → State) : State :=
  if notPrimary p then logErr s (asSeen r p) p Off.PAGE_CTRL true 0x40 else eff s

/-- EN_WRITE (R42). -/
def execEnWrite (r : Req) (p : Pg) (b : Bool) (s : State) : Host.Outcome State Fault Refusal :=
  ok (guardedWrite s r p Off.PAGE_CTRL fun s => primaryWrite s r p fun s => enSet s p b)

/-- SOFT_RESET (R43). -/
def execSoftReset (r : Req) (p : Pg) (s : State) : Host.Outcome State Fault Refusal :=
  ok (guardedWrite s r p Off.PAGE_CTRL fun s => primaryWrite s r p fun s => softReset s p)

/-- EVT_LAT_WRITE (R44, R45). -/
def execEvtLatWrite (r : Req) (p : Pg) (v : Word) (s : State) : Host.Outcome State Fault Refusal :=
  ok (guardedWrite s r p Off.EVT_LAT fun s => evtLat s p v)

/-- EVT_EN_WRITE (R45). -/
def execEvtEnWrite (r : Req) (p : Pg) (v : Word) (s : State) : Host.Outcome State Fault Refusal :=
  ok (guardedWrite s r p Off.EVT_EN fun s => evtEn s p v)

/-- EVT_SET_WRITE (R44). -/
def execEvtSetWrite (r : Req) (p : Pg) (v : Word) (s : State) : Host.Outcome State Fault Refusal :=
  ok (guardedWrite s r p Off.EVT_SET fun s => evtSet s p v)

/-- EVT_VEC_WRITE (R46). -/
def execEvtVecWrite (r : Req) (p : Pg) (v : Word) (s : State) : Host.Outcome State Fault Refusal :=
  ok (guardedWrite s r p Off.EVT_VEC fun s => evtVec s p v)

/-- ERR_INFO_CLEAR (R39). -/
def execErrInfoClear (r : Req) (p : Pg) (s : State) : Host.Outcome State Fault Refusal :=
  ok (guardedWrite s r p Off.ERR_INFO fun s => errClear s p (bitw 23))

/-- COMMIT_GO (R47): a write of `COMMIT` with GO. -/
def execCommitGo (r : Req) (p : Pg) (v : Word) (s : State) : Host.Outcome State Fault Refusal :=
  ok (guardedWrite s r p Off.COMMIT fun s => commitWrite s (asSeen r p) p (setBit v 0 true))

/-- COMMIT_CANCEL (R47): a write of CANCEL that leaves BOUNDARY and VIEW as they are. -/
def execCommitCancel (r : Req) (p : Pg) (s : State) : Host.Outcome State Fault Refusal :=
  ok (guardedWrite s r p Off.COMMIT fun s =>
    commitWrite s (asSeen r p) p (setBit (setBit (rd s p Off.COMMIT) 0 false) 1 true))

end Sys2Proof.Machine
end

