-- ==== Sys2Proof/Machine/Release.lean ====
section
/-!
DEFINITION. Fences by software and their release: requests and refusals (R406, R408), what a release does (R409), die
fences (R410, R411), and the critical temperature (R349).
-/
namespace Sys2Proof.Machine

/-! Requests (R408). -/

/-- `PAGE_STAT.REASON`. -/
def pageReason (s : State) (p : Pg) : Nat := rf s p Off.PAGE_STAT 8 8

/-- The die hears die 0 (R410): flits of die 0 arrive within the watchdog's time. -/
def contact (s : State) (d : Nat) : Bool :=
  let w := rf s (pgFence d) Off.FN_WDOG 0 16
  reaches s d 0 && (decide (w = 0) || decide (s.clock < (die s d).lastFlit0 + w * 1024))

/-- A request to release a fence of THERMAL_CRIT is refused while the die is hot (R349). -/
def critHot (s : State) (d : Nat) : Bool :=
  decide (scopeLimit s d none - 64 * (rf s (pgThermal d) Off.TH_CFG 4 4 : Nat) ≤ scopeTemp s d none)

/-- A write of `FENCE` := 0 is refused (R408); `bflt` if AX_a_BFLT_N is low. -/
def relRefused (s : State) (p : Pg) (bflt : Bool) : Bool :=
  match pageReason s p with
  | 2 | 4 | 5 | 7 => true
  | 6 => !contact s p.die
  | 8 => irPins (die s p.die).tap.ir
  | 9 => critHot s p.die
  | 0x12 => bflt
  | _ => false

/-- A refused release (R408, R411). -/
def refuseRelease (s : State) (p : Pg) : State :=
  let f := pgFence p.die
  let s1 := wr s f Off.FN_REL_REFUSED (word (b2n p.sec * 2 ^ 23 + p.num * 2 ^ 8 + pageReason s p))
  logRecord (raise s1 f 2) p.die p.die { kind := 3, fenced := false, cause := pageLink p (pageReason s p) }

/-- A write of `FENCE` := 0 (R408). -/
def relRequest (s : State) (p : Pg) (bflt : Bool) : State :=
  if !fenced s p || (fenceSt s p).releasing then s
  else if relRefused s p bflt then refuseRelease s p
  else setFenceSt s p { fenceSt s p with releasing := true }

/-! Release (R409). -/

/-- What a block does as its fence ends, before it takes its next state. -/
def pageUnsafe (s : State) (p : Pg) : State :=
  let d := p.die
  let i := pgInst p
  match pgKind p with
  | .mbox => mbResume s d p.sec
  | .enc => setEnc s d i { enc s d i with restart := true }
  | .ax => setMstate s d i msOff
  | .inject => injFollow s d
  | _ => s

/-- The page leaves FENCED as R409 gives. -/
def pageRelease (s : State) (p : Pg) : State :=
  let x := fenceSt s p
  let en := rb s p Off.PAGE_CTRL 0
  let s1 := pageUnsafe (setFenceSt (wb s p Off.PAGE_CTRL 1 false) p { x with releasing := false }) p
  let s2 :=
    if x.softReset then pageReset (pageOff s1 p) p (pgKind p).enReset
    else if en ∧ (x.before = stShutting ∨ x.before = stRestart) then pageStart (pageReset (pageOff s1 p) p true) p
    else if en then pageStart s1 p
    else if x.before = stOff then setFenceSt (setPstate s1 p stOff) p {}
    else setFenceSt (setPstate (pageOff s1 p) p stOff) p {}
  let f := pgFence p.die
  raise (count s2 f Off.FN_CNT_RELEASES) f 1

/-- The record of a released page (R411, R412), made as the fence ends. -/
def releaseRecord (s : State) (p : Pg) (reason : Nat) : State :=
  logRecord s p.die p.die { kind := 2, fenced := false, cause := pageLink p reason }

/-- `TH_STAT.CRIT` and the throttle request follow the fences of THERMAL_CRIT (R344, R349). -/
def critFollow (s : State) (d : Nat) : State :=
  let b := (List.range (nPorts s)).any fun p => fenced s (pgHp d p) && decide (pageReason s (pgHp d p) = 9)
  throtFollow (wb s (pgThermal d) Off.TH_STAT 7 b)

/-- RELEASE_COMPLETE (R409). -/
def execReleaseComplete (p : Pg) (s : State) : Host.Outcome State Fault Refusal :=
  ok (if present s p && fenced s p && (fenceSt s p).releasing then
    critFollow (releaseRecord (pageRelease s p) p (pageReason s p)) p.die
  else s)

/-! `FENCE` (R406, R408). -/

/-- A write of `FENCE` to a page (R406, R408). -/
def fenceWrite (s : State) (p : Pg) (b bflt : Bool) : State :=
  if !(pgKind p).fenceable then s
  else if b then fencePage s p 1
  else relRequest s p bflt

/-- PAGE_FENCE (R406): a write of `FENCE` := 1. -/
def execPageFence (r : Req) (p : Pg) (s : State) : Host.Outcome State Fault Refusal :=
  ok (guardedWrite s r p Off.PAGE_CTRL fun s => fenceWrite s p true false)

/-- FENCE_RELEASE (R408): a write of `FENCE` := 0, with the level of AX_a_BFLT_N for an axis. -/
def execFenceRelease (r : Req) (p : Pg) (bflt : Bool) (s : State) : Host.Outcome State Fault Refusal :=
  ok (guardedWrite s r p Off.PAGE_CTRL fun s => fenceWrite s p false bflt)

/-! Dies (R410, R411). -/

/-- A released die takes the mode of die 0 (R29). -/
def dieTakesMode (s : State) (d : Nat) : State :=
  if d = 0 ∨ modeOf s d = modeOf s 0 then s else dieMode s d (modeOf s 0)

/-- Die 0's FAULT record of a fence that the die has made itself and that ends before die 0 has learned of it, ahead of the
RELEASE record (R411, as for die 0's own fence). -/
def dieTold (s : State) (d reason : Nat) : State :=
  if (die s d).dieTied then dieRecord (setDie s d { die s d with dieTied := false }) d 1 reason else s

/-- A die fence is released (R410): its isolation ends, and with it the fences of its pages with reason DIE or WATCHDOG;
one RELEASE record stands for all (R411). -/
def dieRelease (s : State) (d : Nat) : State :=
  let reason := (die s d).dieReason
  let ps := (fenceablePages s d).filter fun p => fenced s p && (decide (pageReason s p = 2) || decide (pageReason s p = 6))
  let s1 := setDie s d { die s d with dieReason := 0 }
  let s2 := whenDo (decide (d ≠ 0)) s1 fun s => wb s (pgFence 0) Off.FN_DIE_STAT (8 + d) false
  let s3 := dieTakesMode (each ps s2 fun s p => pageRelease s p) d
  let s4 := critFollow (seamsAll s3) d
  if d ≠ 0 then dieRecord (dieTold s4 d reason) d 2 reason
  else if ps.contains (pgChute 0 19) && decide (pstate s4 (pgChute 0 19) = stStarting) then s4
  else pageTied s4 (pgChute 0 19)

/-- A release of a die that its reason refuses (R408). -/
def dieRefused (s : State) (d : Nat) : State :=
  logRecord (raise s (pgFence 0) 2) 0 d { kind := 3, fenced := false, cause := ⟨0x06, 0, (die s d).dieReason, d⟩ }

/-- A write of 0 to the bit of a fenced die: released by software where the reason allows it (R408, R410). -/
def dieUnfence (s : State) (d : Nat) : State :=
  match (die s d).dieReason with
  | 0 => s
  | 1 => dieRelease s d
  | 6 => if contact s d then dieRelease s d else dieRefused s d
  | _ => dieRefused s d

/-- A write of `FN_DIE_CTRL` on die 0 (R410): a rise of a bit fences the die, a fall releases it. -/
def dieCtrl (s : State) (v : Word) : State :=
  let f := pgFence 0
  let old := rd s f Off.FN_DIE_CTRL
  let s1 := wr s f Off.FN_DIE_CTRL (v &&& word 0xFE)
  each ((List.range 8).filter fun d => decide (1 ≤ d) && decide (d < s.part.dies)) s1 fun s d =>
    if bit v d && !bit old d then fenceDie s d 1
    else if !bit v d && bit old d then dieUnfence s d
    else s

/-- DIE_FENCED (R410): a write of `FN_DIE_CTRL` on die 0. -/
def execDieFenced (r : Req) (v : Word) (s : State) : Host.Outcome State Fault Refusal :=
  ok (guardedWrite s r (pgFence 0) Off.FN_DIE_CTRL fun s => dieCtrl s v)

/-- WATCHDOG (R410): no flit from die 0 has arrived for `FN_WDOG` x 1,024 ticks, and the die fences itself. The time counts
from the alignment of the die's counter on (DEDUCED, log entry 79). -/
def execWatchdog (d : Nat) (s : State) : Host.Outcome State Fault Refusal :=
  let w := rf s (pgFence d) Off.FN_WDOG 0 16
  ok (if 0 < d ∧ d < s.part.dies ∧ w ≠ 0 ∧ (die s d).dieReason = 0 ∧ rf s (pgTb d) Off.TB_STAT 6 2 ≠ 0 then
    let s1 := waitClock s ((die s d).lastFlit0 + w * 1024)
    fenceDie (raise s1 (pgFence d) 5) d 6
  else s)

/-- The PLL of a die locks again (R62). -/
def pllRelock (s : State) (d : Nat) : State :=
  let s1 := setDie s d { die s d with pllLocked := true, pllSince := s.clock }
  setDyn (wb s1 (pgTb d) Off.TB_STAT 2 true) (pgTb d) 1 false

/-- PLL_RELOCK_RELEASE (R62, R408): a PLL that is unlocked locks again; once it has been locked for 100 µs, the TIME_PLL
fence ends. -/
def execPllRelockRelease (d : Nat) (s : State) : Host.Outcome State Fault Refusal :=
  ok (if !(decide (d < s.part.dies) && (die s d).boot.complete) then s
  else if !(die s d).pllLocked then pllRelock s d
  else if (die s d).dieReason = 4 then dieRelease (waitClock s ((die s d).pllSince + 25000)) d
  else s)

/-- TIME_SKEW_RELEASE (R408): `SYNC_OK` has been 1 for 1 ms, and a TIME_SKEW fence ends. -/
def execTimeSkewRelease (d : Nat) (s : State) : Host.Outcome State Fault Refusal :=
  ok (if d < s.part.dies ∧ (die s d).dieReason = 5 ∧ rb s (pgTb d) Off.TB_STAT 5 then
    dieRelease (waitClock s ((die s d).syncSince + 250000)) d
  else s)

/-! Critical temperature (R349). -/

/-- A trip during a grace timer ends enforcement for the die scope: no further step is taken, and the scope clears under
R342 (R349). -/
def critScope (s : State) (d : Nat) : State := setScope s d none { scope s d none with graceAt := none }

/-- CRITICAL (R349): the comparator of an island's sensor trips; every present HP page of the die is fenced. -/
def execCritical (d o : Nat) (s : State) : Host.Outcome State Fault Refusal :=
  ok (if d < s.part.dies ∧ o < 11 ∧ awake s d then
    let x := scope s d none
    let s1 := each ((List.range (nPorts s)).map (pgHp d)) s fun s p => fencePage s p 9
    let s2 := raise (critFollow (critScope s1 d) d) (pgThermal d) 3
    thRecord s2 d 4 o true 0 (islTemp s2 d o) (word x.w0) (word (scopeWork s2 d none))
  else s)

end Sys2Proof.Machine
end

