-- ==== Sys2Proof/Machine/Bus.lean ====
section
/-!
DEFINITION. What a bus access does to a register: which writes a page ignores or refuses by its own rules, the actions of
command registers, and accesses by address (R34 to R37, R49 to R55, R389, R423, R425).
-/
namespace Sys2Proof.Machine

/-! Writes a page turns away. -/

/-- A write that has no effect and is not logged (R2, R43, R67, R79, R144, R293, R397, R410). -/
def regIgnored (s : State) (p : Pg) (off : Nat) : Bool :=
  match pgKind p with
  | .die => decide (p.die ≠ 0) && decide (Off.PWR_CFG ≤ off) && decide (off ≤ Off.PWR_WAKES)
  | .timebase => decide (p.die ≠ 0) && (decide (off = Off.TB_TRIM) || decide (off = Off.SEC_SET_L) || decide (off = Off.SEC_SET_H))
  | .fence => decide (p.die ≠ 0) && decide (off = Off.FN_DIE_CTRL)
  | .ctxCtrl => decide (0x400 ≤ off) && decide (off < 0xC00) && decide (nCtx s ≤ (off - 0x400) % 0x400 / 4)
  | .chute => decide (off = Off.CH_CFG) && (decide (pgInst p ≤ 20))
  | _ => false

/-- A write of `WF_BANK_SEL` names a bank that is neither active nor loaded (R197). -/
def bankNotReady (s : State) (p : Pg) (v : Word) : Bool :=
  let b := fld v 0 1
  decide (b ≠ activeBank s p.die (pgInst p)) && !loaded s p.die (pgInst p) b

/-- The code with which a page ignores and logs a write in its present state (R79, R175, R196, R197, R214, R245, R267,
R302, R303, R416). -/
def regLocked (s : State) (p : Pg) (off : Nat) (v : Word) : Option Nat :=
  let busy := decide (pstate s p ≠ stOff)
  match pgKind p with
  | .tsync => if notPrimary p then some 0x40 else none
  | .hp =>
    if off = Off.HP_CFG ∧ busy then some 0x40
    else if off = Off.WF_SRC ∧ loading s p.die (pgInst p) then some 0x42
    else if (off = Off.SY_CFG ∨ (Off.SY_SPAN ≤ off ∧ off ≤ Off.SY_SPAN + 12)) ∧ busy then some 0x50
    else if off = Off.WF_BANK_SEL ∧ !goSet s p ∧ bankNotReady s p v then some 0x41
    else none
  | .ax => if off = Off.AX_CFG ∧ busy then some 0x40 else none
  | .echo => if off = Off.SWEEP_CFG ∧ rf s p Off.SWEEP_STAT 0 3 = 1 then some 0x41 else none
  | .inject => if off ≤ Off.IJ_COUNT ∧ busy then some 0x40 else none
  | .hoistCh => if hcLocked off && hcBusy s p.die (pgInst p) then some 0x40 else none
  | .chute => if off ≤ Off.CH_SPILL_SIZE ∧ busy then some 0x40 else none
  | _ => none

/-! Values that a register takes from a write in its own way. -/

/-- Channels 2 to 7 have no inference and no period measurement (R82). -/
def encValue (s : State) (p : Pg) (off : Nat) (v : Word) : Word :=
  if pgInst p ≤ 1 then v
  else if off = Off.ENC_CFG then setBit v 4 false
  else if off = Off.SPD_CFG ∧ fld v 5 2 ≠ 0 then setFld v 5 2 (fld (rdShadow s p off) 5 2)
  else v

/-- The value as the page takes it: `TB_TRIM` saturates at 50,000 ppb either way. -/
def regValue (s : State) (p : Pg) (off : Nat) (v : Word) : Word :=
  match pgKind p with
  | .timebase => if off = Off.TB_TRIM then wordI (clampI (-50000) 50000 v.toInt) else v
  | .enc => encValue s p off v
  | _ => v

/-! The header. -/

/-- A write of `PAGE_CTRL`: FENCE, then EN, then SOFT_RESET (R42, R43, R406, R408). The level of AX_a_BFLT_N is a free
value. -/
def ctrlWrite (s : State) (r : Req) (p : Pg) (v : Word) : State :=
  let bflt := freeBit s
  let s1 := fenceWrite (nextFree s) p (bit v 1) bflt
  primaryWrite s1 r p fun s => whenDo (bit v 2) (enSet s p (bit v 0)) fun s => softReset s p

/-- A write of a header register (R38). -/
def hdrWrite (s : State) (r : Req) (p : Pg) (off : Nat) (v : Word) : State :=
  if off = Off.PAGE_CTRL then ctrlWrite s r p v
  else if off = Off.COMMIT then commitWrite s (asSeen r p) p v
  else if off = Off.EVT_LAT then evtLat s p v
  else if off = Off.EVT_EN then evtEn s p v
  else if off = Off.EVT_LVL then evtLvl s p v
  else if off = Off.EVT_VEC then evtVec s p v
  else if off = Off.EVT_SET then evtSet s p v
  else if off = Off.ERR_INFO then errClear s p v
  else s

/-! Registers with an action. -/

/-- The page event of CTX_CTRL follows the contexts' events (R147). -/
def ctxFollow (s : State) (d : Nat) : State := setDyn s (pgCtx d) 0 (anyCtxEvt s d)

/-- A write of a CTX_CTRL register (R119, R144 to R147). -/
def ctxWrite (s : State) (r : Req) (p : Pg) (off : Nat) (v : Word) : State :=
  let d := p.die
  if off = Off.CTX_CMD then ctxCmdWrite r d v s
  else if 0x400 ≤ off ∧ off < 0x800 then ctxCommitWrite r d ((off - 0x400) / 4) v s
  else if off = Off.CTX_EVT_MASK ∨ (0x800 ≤ off ∧ off < 0xC00) then ctxFollow (plainWrite s r p off v) d
  else plainWrite s r p off v

/-- `EVT_DYN` bit 0 of a chute follows a write of its threshold; the level has not changed, so THRESH does not latch as
an edge (R280, R295). -/
def threshWrite (s : State) (r : Req) (p : Pg) (v : Word) : State :=
  let s1 := plainWrite s r p Off.CH_THRESH v
  let s2 := wb s1 p Off.EVT_DYN 0 (running s1 p && threshMet s1 p.die (pgInst p))
  cgFollow (latch s2 p (levelBits s2 p)) p.die

/-- A write of a CHUTE register (R295, R300, R301). -/
def chuteWrite (s : State) (r : Req) (p : Pg) (off : Nat) (v : Word) : State :=
  let d := p.die
  let c := pgInst p
  if 0x800 ≤ off ∧ off < 0xC00 then chutePush (asSeen r p) d c off v s
  else if off = Off.CH_THRESH then threshWrite s r p v
  else if off = Off.CR_STEP then
    let s1 := plainWrite s r p off v
    if running s1 p then mirrorFollow s1 d c else s1
  else plainWrite s r p off v

/-- A write of `CQ_SIZE_q` (R290): the index returns to 0 and the first pass over the ring begins. -/
def cqSizeSet (s : State) (r : Req) (d q : Nat) (v : Word) : State :=
  let p := pgHoistGlobal d
  let s1 := plainWrite s r p (Off.CQ_SIZE + 32 * q) v
  cqFollow (wr s1 p (Off.CQ_PROD + 32 * q) (word (2 ^ 16))) d q

/-- A write of `CQ_CONS_q` (R292). -/
def cqConsSet (s : State) (r : Req) (d q : Nat) (v : Word) : State :=
  cqFollow (plainWrite s r (pgHoistGlobal d) (Off.CQ_CONS + 32 * q) v) d q

/-- A write of a HOIST_GLOBAL register. -/
def hgWrite (s : State) (r : Req) (p : Pg) (off : Nat) (v : Word) : State :=
  let q := (off - 0x50) / 32
  if 0x50 ≤ off ∧ off < 0xD0 ∧ (off - 0x50) % 32 = 12 then cqSizeSet s r p.die q v
  else if 0x50 ≤ off ∧ off < 0xD0 ∧ (off - 0x50) % 32 = 20 then cqConsSet s r p.die q v
  else plainWrite s r p off v

/-- A write of a mailbox register (R359, R368). -/
def mboxWrite (s : State) (r : Req) (p : Pg) (off : Nat) (v : Word) : State :=
  let n := (off - 0x100) / 0x100
  if 0x100 ≤ off ∧ off < 0x500 ∧ off = mbOff n Off.IN_HDR then inHdrWrite (asSeen r p) p.die p.sec n v s
  else if 0x100 ≤ off ∧ off < 0x500 ∧ off = mbOff n Off.OUT_ACK then outAck (asSeen r p) p.die p.sec n v s
  else plainWrite s r p off v

/-- A write of `AS_TAB_CTRL` (R333). -/
def tabCtrl (s : State) (r : Req) (d : Nat) (v : Word) : State :=
  let q := asSeen r (pgAssay d)
  whenDo (bit v 2) (whenDo (bit v 1) (whenDo (bit v 0) s (tabRead d)) (tabWrite q d)) (tabClear q d)

/-- A write of an ECHO register (R214, R226). -/
def echoWrite (s : State) (r : Req) (p : Pg) (off : Nat) (v : Word) : State :=
  let d := p.die
  if off = Off.SWEEP_CTRL then whenDo (bit v 1) (whenDo (bit v 0) s (sweepStart (asSeen r p) d)) (sweepAbort d)
  else if off = Off.NZ_CMD then nzCmd d (fld v 0 4) (fld v 4 4) s
  else plainWrite s r p off v

/-- A write of a SESSION register (R376 to R380). -/
def sessionWrite (s : State) (r : Req) (p : Pg) (off : Nat) (v : Word) : State :=
  let d := p.die
  if off = Off.SESS_CTRL then sessCtrlWrite r d v s
  else if off = Off.SESS_RESP + 40 then sessCheck r d v s
  else if Off.SESS_NONCE_H ≤ off ∧ off < Off.SESS_RESP + 40 then sessDataWrite r d off v s
  else plainWrite s r p off v

/-- A write of a TIMEBASE register (R59, R67). -/
def tbWrite (s : State) (r : Req) (p : Pg) (off : Nat) (v : Word) : State :=
  let s1 := plainWrite s r p off v
  if off = Off.TB_CTRL then tbFollow s1
  else if off = Off.SEC_SET_L ∧ !goSet s p then { s1 with pkg := { s1.pkg with secSetSeen := true } }
  else s1

/-- What a write of a block register does once the page takes it. -/
def blockWrite (s : State) (r : Req) (p : Pg) (off : Nat) (v : Word) : State :=
  let d := p.die
  let i := pgInst p
  match pgKind p with
  | .mode => if off = Off.MODE_REQ then modeReq d v s else if off = Off.MODE_LEAD then modeLeadSet d v s else plainWrite s r p off v
  | .timebase => tbWrite s r p off v
  | .fence => if off = Off.FN_DIE_CTRL then dieCtrl s v else plainWrite s r p off v
  | .tally => if off = Off.TL_CLEAR then tlClearWrite d v s else plainWrite s r p off v
  | .assay =>
    if off = Off.AS_CMD then asCmd d (fld v 0 4) (fld v 8 8) s
    else if off = Off.AS_TAB_CTRL then tabCtrl s r d v
    else plainWrite s r p off v
  | .lamp =>
    if off = Off.LAMP_CMD then whenDo (bit v 1) (whenDo (bit v 0) s (lampStart · d)) (histClear d) else plainWrite s r p off v
  | .retain => if off = Off.RET_DATA then retDataWrite (asSeen r p) d v s else plainWrite s r p off v
  | .hoistGlobal => hgWrite s r p off v
  | .chuteGlobal => cgFollow (plainWrite s r p off v) d
  | .mbox => mboxWrite s r p off v
  | .hp => if off = Off.WF_CTRL then wfCtrlEff (asSeen r p) d i v s else plainWrite s r p off v
  | .enc => if off = Off.LAT_TRIG then latTrigWrite d i v s else plainWrite s r p off v
  | .ax => if off = Off.AX_CMD then axCmdAdd r d i (fld v 0 4) s else plainWrite s r p off v
  | .echo => echoWrite s r p off v
  | .ctxCtrl => ctxWrite s (asSeen r p) p off v
  | .hoistCh => if off = Off.HC_CTRL then hcCtrl s d i v else plainWrite s r p off v
  | .chute => chuteWrite s r p off v
  | .guard => if Off.GD_NS ≤ off ∧ off ≤ Off.GD_MEM then guardSet r d off v s else plainWrite s r p off v
  | .debug => if off = Off.DBG_CTRL then dbgCtrlWrite d v s else plainWrite s r p off v
  | .injectLock => if off = Off.IJL_CTRL then ijlWrite r d v s else plainWrite s r p off v
  | .session => sessionWrite s r p off v
  | _ => plainWrite s r p off v

/-- What a write of a register does once its verdict lets it pass. -/
def regEffect (r : Req) (p : Pg) (off : Nat) (v : Word) (s : State) : State :=
  if off < 0x40 then hdrWrite s r p off v
  else if regIgnored s p off then s
  else match regLocked s p off v with
    | some code => logErr s (asSeen r p) p off true code
    | none => blockWrite s r p off (regValue s p off v)

/-! Accesses to register pages. -/

/-- An aligned 32-bit write of a register (R34 to R37). -/
def regWrite (s : State) (r : Req) (p : Pg) (off : Nat) (v : Word) : State := guardedWrite s r p off (regEffect r p off v)

/-- A read of `LAT_POS_L` also captures `LAT_EST` (R113). -/
def latCapture (r : Req) (p : Pg) (off : Nat) (s : State) : State :=
  if pgKind p = .enc ∧ off = Off.LAT_POS_L then
    { s with caps := Tbl.put s.caps (clsCode (clsOn r p), (p, Off.LAT_EST)) (regView s p Off.LAT_EST) }
  else s

/-- An aligned 32-bit read of a register (R34, R49, R300, R320). -/
def regRead (s : State) (r : Req) (p : Pg) (off : Nat) : State :=
  match pgKind p with
  | .chute => if 0xC00 ≤ off then popRead s r p.die (pgInst p) off else guardedRead s r p off regView id
  | .retain =>
    if off = Off.RET_DATA then guardedRead s r p off (fun s _ _ => retDataVal s p.die) (retDataRead p.die)
    else guardedRead s r p off regView id
  | .ax =>
    let wait := decide (off = Off.AX_CMD_STAT) && decide (verdict s r p off false = .pass)
    guardedRead (if wait then axStatWait s r p.die (pgInst p) else s) r p off regView (latCapture r p off)
  | _ => guardedRead s r p off regView (latCapture r p off)

/-- A register write of any shape (R35, R423). -/
def shapedWrite (s : State) (r : Req) (p : Pg) (off : Nat) (sh : Shape) (v : Word) : State :=
  if !powered s then s
  else if sh.poisoned then poisonRx s
  else if sh.size = 4 ∧ sh.aligned ∧ off % 4 = 0 then regWrite s r p off v
  else guardedWrite s r p off fun s => logErr s (asSeen r p) p off true 1

/-! BAR4 and configuration space (R418, R421, R422, R425, R426). -/

/-- A write of an entry word of the MSI-X table (R425): word 3 holds the mask bit. -/
def msixTableWrite (s : State) (v dw x : Nat) : State :=
  if 128 ≤ v ∨ 4 ≤ dw then s
  else
    let t := Tbl.put s.pcie.table (v, dw) (x % 2 ^ 32)
    let others := s.pcie.unmasked.filter fun w => decide (w ≠ v)
    let open_ := if dw ≠ 3 then s.pcie.unmasked else if x % 2 = 1 then others else others ++ [v]
    { s with pcie := { s.pcie with table := t, unmasked := open_ } }

/-- Address bits of BAR register `i` that software can write (R51, R420): BAR0, BAR2 and BAR4 are 64-bit, and an odd
register holds the upper half of the one before it. -/
def barMask (i : Nat) : Nat :=
  match i with | 0 => 0xF8000000 | 2 => 0xFF000000 | 4 => 0xFFFFC000 | _ => 0xFFFFFFFF

/-- BAR register `i` as it reads: a 64-bit, non-prefetchable memory BAR (R420), in the layout of the PCI Express
specification (PRESUMED). -/
def barRead (s : State) (i : Nat) : Nat := Tbl.get s.pcie.bars i 0 + if i % 2 = 0 then 4 else 0

/-- A write of configuration space: the Command register (0), MSI-X Message Control (1), Device Control (2), Device
Control 2 (3) and the BAR registers (4 to 9), in the layout of the PCI Express specification (PRESUMED). -/
def configWrite (s : State) (field x : Nat) : State :=
  match field with
  | 0 =>
    let s1 := { s with pcie := { s.pcie with mse := x.testBit 1 } }
    if s.pcie.bme = x.testBit 2 then s1 else bmeSet s1 (x.testBit 2)
  | 1 => { s with pcie := { s.pcie with msixEn := x.testBit 15, msixFmask := x.testBit 14 } }
  | 2 =>
    let mps := x / 2 ^ 5 % 8
    let mrs := x / 2 ^ 12 % 8
    let s1 := { s with pcie := { s.pcie with
      maxPayload := if mps ≤ 2 then 128 * 2 ^ mps else s.pcie.maxPayload
      maxRead := if mrs ≤ 5 then 128 * 2 ^ mrs else s.pcie.maxRead } }
    if x.testBit 15 then functionReset s1 else s1
  | 3 => { s with pcie := { s.pcie with ctoRange := x % 16 } }
  | f => if 4 ≤ f ∧ f < 10 then { s with pcie := { s.pcie with bars := Tbl.put s.pcie.bars (f - 4) (x &&& barMask (f - 4)) } } else s

/-- REGISTER_WRITE (R36): a write to a register page, to the MSI-X table or to configuration space. -/
def execRegisterWrite (r : Req) (t : Target) (sh : Shape) (v : Nat) (s : State) : Host.Outcome State Fault Refusal :=
  ok (match t with
    | .reg p off => if off < 0x1000 then shapedWrite s r p off sh (word v) else s
    | .msixTable n dw =>
      if !powered s || !isHost r then s
      else if sh.poisoned then poisonRx s
      else if sh.size = 4 ∧ sh.aligned then msixTableWrite s n dw v
      else s
    | .pba _ => s
    | .config f => if !powered s || !isHost r then s else configWrite s f v)

/-- UNSUPPORTED_REQUEST (R53): an access to an offset of BAR `bar` (0: BAR0, 1: BAR2) that nothing answers. -/
def nothingThere (s : State) (bar off : Nat) : Bool :=
  match bar with
  | 0 =>
    let d := off / 2 ^ 24
    let o := off % 2 ^ 24
    decide (s.part.dies ≤ d) || isolated s d || (decide (0x160000 ≤ o) && decide (o < 0x400000)) || decide (0xA00000 ≤ o)
  | 1 =>
    let d := off / 0x200000
    decide (s.part.dies ≤ d) || isolated s d || decide (6 ≤ off % 0x200000 / 0x1000)
  | _ => false

/-- UNSUPPORTED_REQUEST (R53). -/
def execUnsupportedRequest (r : Req) (bar off : Nat) (write : Bool) (s : State) : Host.Outcome State Fault Refusal :=
  ok (if powered s && isHost r && nothingThere s bar off then unsupported s bar off write else s)

/-! Reads (R35, R49, R51). -/

/-- The bytes of an answer and whether they are poisoned. -/
def respBytes (x : Resp) : List Byte × Bool :=
  match x with
  | .data tag w => (wordBytes w ++ [BitVec.ofNat 8 tag], false)
  | .bytes bs bad => (bs, bad)
  | _ => ([], false)

/-- A read of `n` bytes of a page from byte offset `off` (R35): each aligned 32-bit location that it touches is read in full,
and the bytes asked for are answered. -/
def lanesRead (s : State) (r : Req) (p : Pg) (off n : Nat) : State :=
  let k := off % 4
  let s1 := regRead s r p (off - k)
  let a := respBytes s1.resp
  if a.1 = [] then s1
  else if k + n ≤ 4 then { s1 with resp := .bytes ((a.1.drop k).take n) a.2 }
  else
    let s2 := regRead s1 r p (off - k + 4)
    let b := respBytes s2.resp
    { s2 with resp := .bytes (((a.1 ++ b.1).drop k).take n) (a.2 || b.2) }

/-- The four bytes of a 32-bit answer, least significant first. -/
def dwordBytes (x : Nat) : List Byte := (List.range 4).map fun i => BitVec.ofNat 8 (x / 256 ^ i)

/-- An entry word of the MSI-X table (R425): bit 0 of word 3 is the vector's mask bit. -/
def msixTableRead (s : State) (v dw : Nat) : Nat :=
  let x := Tbl.get s.pcie.table (v, dw) 0
  if 128 ≤ v ∨ 4 ≤ dw then 0 else if dw = 3 then x / 2 * 2 + b2n (!s.pcie.unmasked.contains v) else x

/-- Word `i` of the pending bit array (R425). -/
def pbaRead (s : State) (i : Nat) : Nat := ((List.range 32).map fun k => b2n (s.pcie.pba.contains (32 * i + k)) * 2 ^ k).sum

/-- Device ID of the endpoint (R418). -/
def deviceId (x : Part) : Nat :=
  0x5A00 + 16 * (match x.tier with | .t08 => 1 | .t16 => 2 | .t16E => 3) + Nat.log2 x.dies

/-- A read of configuration space: the registers that software writes, the two IDs (10), the class code (11) and the
Subsystem ID (12), which the fuses hold (R418). -/
def configRead (s : State) (field : Nat) : Nat :=
  let x := s.pcie
  match field with
  | 0 => b2n x.mse * 2 + b2n x.bme * 4
  | 1 => 127 + b2n x.msixFmask * 2 ^ 14 + b2n x.msixEn * 2 ^ 15
  | 2 => Nat.log2 (x.maxPayload / 128) * 2 ^ 5 + Nat.log2 (x.maxRead / 128) * 2 ^ 12
  | 3 => x.ctoRange
  | 10 => deviceId s.part * 2 ^ 16 + 0x1E9C
  | 11 => 0x118000
  | 12 => Config.subsystemId
  | f => if 4 ≤ f ∧ f < 10 then barRead s (f - 4) else 0

/-- WIDE_L_READ (R49): a read of the `_L` part of a wide value, or of any other register, of `n` bytes from an offset (R35);
or of a word of BAR4 (R51) or of configuration space. -/
def execWideLRead (r : Req) (t : Target) (n : Nat) (s : State) : Host.Outcome State Fault Refusal :=
  let host (x : Nat) : State := if !powered s || !isHost r then s else { s with resp := .bytes (dwordBytes x) false }
  ok (match t with
    | .reg p off =>
      if n = 0 ∨ 4 < n ∨ 0x1000 < off + n then s
      else if off % 4 = 0 ∧ n = 4 then regRead s r p off
      else lanesRead s r p off n
    | .msixTable v dw => host (msixTableRead s v dw)
    | .pba i => host (if i < 4 then pbaRead s i else 0)
    | .config f => host (configRead s f))

/-- WIDE_L_WRITE (R50): a write of the `_L` part of a wide value. -/
def execWideLWrite (r : Req) (p : Pg) (off : Nat) (v : Word) (s : State) : Host.Outcome State Fault Refusal :=
  ok (if off < 0x1000 ∧ off % 4 = 0 then regWrite s r p off v else s)

/-! The local address space of a die (R55). -/

/-- The register page and offset at a local address. -/
def localReg (d addr : Nat) : Option (Pg × Nat) :=
  if addr < 0x100000 then some (ns d (addr / 0x1000), addr % 0x1000)
  else if 0x1000000 ≤ addr ∧ addr < 0x1200000 then some (sp d ((addr - 0x1000000) / 0x1000), addr % 0x1000)
  else none

/-- A 32-bit write at an aligned local address (R55). -/
def localWrite (s : State) (r : Req) (d addr : Nat) (v : Word) : State :=
  match localReg d addr with
  | some (p, off) => regWrite s r p off v
  | none => memWrite s r d addr (wordBytes v ++ [0#8]) false []

/-- A 32-bit read at an aligned local address (R55). -/
def localRead (s : State) (r : Req) (d addr : Nat) : State :=
  match localReg d addr with
  | some (p, off) => regRead s r p off
  | none => memRead s r d addr 4

/-! The debug port (R389). -/

/-- The result of an access as the next capture of DBG_ACCESS shows it. -/
def dbgResult (x : Resp) : Bool × Nat × Word :=
  match x with
  | .data tag w => (false, tag, w)
  | .bytes bs _ => (false, 0, bytesWord (bs.getD 0 0#8) (bs.getD 1 0#8) (bs.getD 2 0#8))
  | .none => (false, 0, 0#24)
  | _ => (true, 0, 0#24)

/-- The data register of DBG_ACCESS as captured. -/
def dbgCapture (x : TapSt) : Nat :=
  b2n x.accDone * 2 ^ 63 + b2n x.accError * 2 ^ 62 + x.accTag % 256 * 2 ^ 54 + x.accData.toNat

/-- One access of the debug port (R389): an address that is not a multiple of 4 is answered with an error. -/
def dbgDo (s : State) (d : Nat) (write : Bool) (addr data : Nat) : State :=
  let r : Req := ⟨.debug, 0⟩
  let s1 := count { s with resp := .none } (pgDebug d) Off.DBG_ACCESSES
  let s2 := if addr % 4 ≠ 0 then { s1 with resp := .error }
    else if write then localWrite s1 r d addr (word data) else localRead s1 r d addr
  let (e, tag, w) := dbgResult s2.resp
  setDie s2 d { die s2 d with tap := { (die s2 d).tap with accDone := true, accError := e, accTag := tag, accData := w } }

/-- DBG_ACCESS (R384, R389): a capture of the access before, and an update that performs one; outside a session the
instruction behaves as BYPASS. -/
def execDbgAccess (d : Nat) (write : Bool) (addr data : Nat) (s : State) : Host.Outcome State Fault Refusal :=
  ok (if s.part.dies ≤ d then s
    else if (die s d).tap.session then
      let cap := dbgCapture (die s d).tap
      { dbgDo (tapIr s d 0x43) d write (addr % 2 ^ 32) (data % 2 ^ 24) with resp := .tdo cap }
    else tapIr s d 0x43)

end Sys2Proof.Machine
end

