-- ==== Sys2Proof/Machine/Hoist.lean ====
section
/-!
DEFINITION. Hoist channels at work: runs and triggers (R280, R281), instructions (R271 to R279), bursts (R275, R276,
R283, R285), the watchdog (R287), global timers (R282) and completion queues (R290 to R292).
-/
namespace Sys2Proof.Machine

/-! `HC_CTRL` (R280, R283, R286). -/

/-- A write of `HC_CTRL` that sets one action bit and leaves HOLD as it is. -/
def hcCommand (s : State) (r : Req) (d c i : Nat) : State :=
  guardedWrite s r (pgHc d c) Off.HC_CTRL fun s => hcCtrl s d c (setBit (setBit 0#24 2 (hcHeld s d c)) i true)

/-- HC_START (R280). -/
def execHcStart (r : Req) (d c : Nat) (s : State) : Host.Outcome State Fault Refusal :=
  ok (if c < 32 then hcCommand s r d c 0 else s)
/-- HC_CANCEL (R280). -/
def execHcCancel (r : Req) (d c : Nat) (s : State) : Host.Outcome State Fault Refusal :=
  ok (if c < 32 then hcCommand s r d c 1 else s)
/-- HC_RESUME (R286). -/
def execHcResume (r : Req) (d c : Nat) (s : State) : Host.Outcome State Fault Refusal :=
  ok (if c < 32 then hcCommand s r d c 3 else s)
/-- HC_ABORT (R286). -/
def execHcAbort (r : Req) (d c : Nat) (s : State) : Host.Outcome State Fault Refusal :=
  ok (if c < 32 then hcCommand s r d c 4 else s)
/-- HC_HOLD (R283): a write of `HC_CTRL.HOLD`. -/
def execHcHold (r : Req) (d c : Nat) (b : Bool) (s : State) : Host.Outcome State Fault Refusal :=
  ok (if c < 32 then guardedWrite s r (pgHc d c) Off.HC_CTRL fun s => hcCtrl s d c (setBit 0#24 2 b) else s)

/-- HOIST_TRIGGER (R280): a trigger that a source has fired reaches a channel. -/
def execHoistTrigger (d c : Nat) (s : State) : Host.Outcome State Fault Refusal :=
  ok (if (d, c) ∈ s.trigs then hcTrigger { s with trigs := s.trigs.erase (d, c) } d c else s)

/-! Runs (R281). -/

/-- The islands are clocked and the channel runs (R392). -/
def hcOn (s : State) (d c : Nat) : Bool := decide (c < 32) && powered s && awake s d && running s (pgHc d c)

/-- RUN_START (R281). -/
def execRunStart (d c : Nat) (s : State) : Host.Outcome State Fault Refusal :=
  let p := pgHc d c
  let n := rf s p Off.HC_PEND 0 8
  ok (if hcOn s d c && decide ((hoist s d c).cs = 1) && decide (0 < n) then
    let s1 := countMod (wf s p Off.HC_PEND 0 8 (n - 1)) p Off.CNT_RUNS
    let x := hoist s1 d c
    raise (setHoist s1 d c { x with
      cs := 2, pc := rf s p Off.HC_PROG 0 17, act0 := false, act1 := false, move := none, wait := none, wdAt := s.clock }) p 0
  else s)

/-! Instructions (R271, R273, R274). -/

/-- Words of the instruction of an opcode (R273). -/
def opWords (op : Nat) : Option Nat :=
  match op with
  | 1 | 2 | 3 | 6 => some 2
  | 5 => some 4
  | 4 | 7 | 0xF => some 1
  | _ => none

/-- The channel is about to execute an instruction. -/
def hcReady (s : State) (d c : Nat) : Bool :=
  let x := hoist s d c
  hcOn s d c && decide (x.cs = 2) && x.move.isNone && x.sig.isNone && !hcHeld s d c

/-- A program word lies within the program and at or above word 16,384 (R271). -/
def progWord (s : State) (d c w : Nat) : Bool :=
  let a := rf s (pgHc d c) Off.HC_PROG 0 17
  decide (16384 ≤ w) && decide (a ≤ w) && decide (w < a + rf s (pgHc d c) Off.HC_PROG_LEN 0 17) && decide (w < 131072)

/-- Fetch `n` words from word `w` on (R271): none if the fetch has halted the channel. -/
def hcFetch : Nat → State → Nat → Nat → Nat → Option (List Word) × State
  | 0, s, _, _, _ => (some [], s)
  | n + 1, s, d, c, w =>
    if !progWord s d c w then (none, hcHalt s d c 7 w)
    else
      let e : HcErr := { code := 3, addr := dpsLocal w, recorded := true }
      let (v, bad, s1) := readWord s d true w 5 (some (hcLink c e)) 3
      if bad then (none, hcFail s1 d c none e)
      else
        let (vs, s2) := hcFetch n s1 d c (w + 1)
        (vs.map (v :: ·), s2)

/-- One instruction: fetched whole, refused with ILLEGAL_OP where its opcode or its fields are not as R273 and R274 give,
and else carried out by `eff`. Nothing happens if another instruction is due. -/
def hcInstr (s : State) (d c op : Nat) (bad : List Word → Bool) (eff : State → List Word → State) : State :=
  if !hcReady s d c then s
  else
    let pc := (hoist s d c).pc
    match hcFetch 1 s d c pc with
    | (none, s1) => s1
    | (some ws, s1) =>
      match opWords (fld (ws.headD 0#24) 20 4) with
      | none => hcHalt s1 d c 6 pc
      | some n =>
        if fld (ws.headD 0#24) 20 4 ≠ op then s
        else match hcFetch (n - 1) s1 d c (pc + 1) with
          | (none, s2) => s2
          | (some rest, s2) => if bad (ws ++ rest) then hcHalt s2 d c 6 pc else eff s2 (ws ++ rest)

/-- The instruction completes: the next one stands `n` words on. -/
def hcNext (s : State) (d c n : Nat) : State :=
  let x := hoist s d c
  setHoist s d c { x with pc := x.pc + n, wdAt := s.clock }

/-- Word `i` of an instruction. -/
def iw (ws : List Word) (i : Nat) : Word := ws.getD i 0#24

/-- The reserved bits of a word are not all 0. -/
def rsv (w : Word) (mask : Nat) : Bool := decide (w &&& word mask ≠ 0#24)

/-- MOVE begins (R275): its first burst is still to start. -/
def moveBegin (s : State) (d c : Nat) (ws : List Word) : State :=
  let sr := fld (iw ws 0) 18 2
  let dr := fld (iw ws 0) 16 2
  let n := (iw ws 1).toNat
  let x := hoist s d c
  let src := (hcA s d c sr).1
  setHoist s d c { x with move := some {
    sr := sr, dr := dr, sk := fld (iw ws 0) 14 2, dk := fld (iw ws 0) 12 2, remain := n, sw := src, src := src
    dst := (hcA s d c dr).1, left := n } }

/-- MOVE is illegal: a reserved kind or field, or COUNT = 0 (R274, R275). -/
def moveBad (ws : List Word) : Bool :=
  rsv (iw ws 0) 0xFFF || decide (fld (iw ws 0) 14 2 = 3) || decide (fld (iw ws 0) 12 2 = 3) || decide (iw ws 1 = 0#24)

/-- MOVE (R275, R276). -/
def execHoistMove (d c : Nat) (s : State) : Host.Outcome State Fault Refusal :=
  ok (hcInstr s d c 1 moveBad fun s ws => moveBegin s d c ws)

/-- LOOP (R277). A counter that stands at 0 while it is active goes to -1 and ends the loop; what the register then shows
is a free value. -/
def loopDo (s : State) (d c : Nat) (ws : List Word) : State :=
  let x := hoist s d c
  let lc := bit (iw ws 0) 19
  let n := (iw ws 1).toNat
  let act := if lc then x.act1 else x.act0
  let cnt := if act then (if lc then x.lc1 else x.lc0) else n
  let setLc (v : Nat) (a : Bool) : HoistSt := if lc then { x with lc1 := v, act1 := a } else { x with lc0 := v, act0 := a }
  let back (y : HoistSt) : HoistSt := { y with pc := x.pc - fld (iw ws 0) 0 12, wdAt := s.clock }
  if n = 0 then setHoist s d c (back (setLc cnt true))
  else
    let k := if cnt = 0 then freeBelow s (2 ^ 24) else cnt - 1
    let s1 := if cnt = 0 then nextFree s else s
    if cnt ≠ 0 ∧ k ≠ 0 then setHoist s1 d c (back (setLc k true))
    else hcNext (setHoist s1 d c (setLc k false)) d c 2

/-- LOOP (R277). -/
def execHoistLoop (d c : Nat) (s : State) : Host.Outcome State Fault Refusal :=
  ok (hcInstr s d c 2 (fun ws => rsv (iw ws 0) 0x7F000 || decide (fld (iw ws 0) 0 12 = 0)) fun s ws => loopDo s d c ws)

/-- WAIT begins (R278). -/
def waitBegin (s : State) (d c : Nat) (ws : List Word) : State :=
  let kind := fld (iw ws 0) 16 4
  let v := (iw ws 1).toNat
  let fin := match kind with | 0 => s.clock + v | 1 => if v = 0 then 0 else s.clock + 256 * v | _ => 0
  setHoist s d c { hoist s d c with cs := 3, wait := some (kind, fld (iw ws 0) 0 6, v, fin) }

/-- WAIT (R278). -/
def execHoistWait (d c : Nat) (s : State) : Host.Outcome State Fault Refusal :=
  ok (hcInstr s d c 3 (fun ws => rsv (iw ws 0) 0xFFC0 || decide (2 < fld (iw ws 0) 16 4)) fun s ws => waitBegin s d c ws)

/-- The wait ends. -/
def waitDone (s : State) (d c : Nat) : State :=
  hcNext (setHoist s d c { hoist s d c with cs := 2, wait := none }) d c 2

/-- WAIT_SATISFIED (R278). -/
def execWaitSatisfied (d c : Nat) (s : State) : Host.Outcome State Fault Refusal :=
  let x := hoist s d c
  let n := rf s (pgHc d c) Off.HC_PEND 0 8
  ok (if hcOn s d c && decide (x.cs = 3) then
    match x.wait with
    | some (0, _, _, fin) => waitDone (waitClock s fin) d c
    | some (1, _, _, _) => if 0 < n then waitDone (wf s (pgHc d c) Off.HC_PEND 0 8 (n - 1)) d c else s
    | some (_, q, v, _) =>
      if present s (pgChute d q) && realChute s q && decide (v ≤ chuteLevel s d q) then waitDone s d c else s
    | none => s
  else s)

/-- WAIT_TIMEOUT (R278): no trigger has arrived in time. -/
def execWaitTimeout (d c : Nat) (s : State) : Host.Outcome State Fault Refusal :=
  let x := hoist s d c
  ok (if hcOn s d c && decide (x.cs = 3) then
    match x.wait with
    | some (1, _, v, fin) =>
      if v ≠ 0 ∧ rf s (pgHc d c) Off.HC_PEND 0 8 = 0 then hcHalt (waitClock s fin) d c 9 x.pc else s
    | _ => s
  else s)

/-- SIGNAL and END (R279): the record first, if one is asked for and its queue is on. -/
def signalDo (s : State) (d c kind : Nat) (ws : List Word) : State :=
  let w := iw ws 0
  let q := fld w 17 2
  if bit w 19 && decide (cqK s d q ≠ 0) then
    cqAppend (setHoist s d c { hoist s d c with sig := some w }) d c kind (fld w 8 8) q true
  else hcFinish s d c w

/-- SIGNAL (R279). -/
def execHoistSignal (d c : Nat) (s : State) : Host.Outcome State Fault Refusal :=
  ok (hcInstr s d c 4 (fun ws => rsv (iw ws 0) 0x7F) fun s ws => signalDo s d c 2 ws)

/-- END (R279). -/
def execHoistEnd (d c : Nat) (s : State) : Host.Outcome State Fault Refusal :=
  ok (hcInstr s d c 0xF (fun ws => rsv (iw ws 0) 0x100FF) fun s ws => signalDo s d c 1 ws)

/-- SETA (R272, R274). -/
def setaDo (s : State) (d c : Nat) (ws : List Word) : State :=
  let addr := (iw ws 1).toNat + 2 ^ 24 * (iw ws 2).toNat + 2 ^ 48 * fld (iw ws 3) 0 16
  hcNext (setHcA s d c (fld (iw ws 0) 18 2) addr (bit (iw ws 0) 17)) d c 4

/-- SETA (R274). -/
def execHoistSeta (d c : Nat) (s : State) : Host.Outcome State Fault Refusal :=
  ok (hcInstr s d c 5 (fun ws => rsv (iw ws 0) 0x1FFFF || rsv (iw ws 3) 0xFF0000) fun s ws => setaDo s d c ws)

/-- ADDA (R272, R274). -/
def addaDo (s : State) (d c : Nat) (ws : List Word) : State :=
  let a := fld (iw ws 0) 18 2
  let x := hcA s d c a
  hcNext (setHcA s d c a (uns 64 ((x.1 : Int) + (iw ws 1).toInt)) x.2) d c 2

/-- ADDA (R274). -/
def execHoistAdda (d c : Nat) (s : State) : Host.Outcome State Fault Refusal :=
  ok (hcInstr s d c 6 (fun ws => rsv (iw ws 0) 0x3FFFF) fun s ws => addaDo s d c ws)

/-- NOP (R273). -/
def execHoistNop (d c : Nat) (s : State) : Host.Outcome State Fault Refusal :=
  ok (hcInstr s d c 7 (fun ws => rsv (iw ws 0) 0xFFFFF) fun s _ => hcNext s d c 1)

/-! Bursts start (R275, R276, R283, R421). -/

/-- A breach of the alignment rules of R275 by one side of a burst. -/
def alignBad (addr n kind : Nat) (host : Bool) : Bool :=
  let fin := addr + 3 * n
  if kind = 0 then !host && (decide (addr < 0x100000) || (decide (addr < 0x1200000) && decide (0x1000000 < fin)))
  else decide (addr % 4 ≠ 0)

/-- What one side of a burst fails on before it starts: alignment, the path to die 0 (R285), Bus Master Enable (R421). -/
def sideErr (s : State) (d addr n kind : Nat) (host write : Bool) : Option HcErr :=
  let e (code : Nat) : Option HcErr := some { code := code, addr := addr, write := write, host := host }
  if alignBad addr n kind host then e 0x0A
  else if host && decide (d ≠ 0) && !reaches s d 0 then e 0x0B
  else if host && !s.pcie.bme then e 0x01
  else none

/-- A burst that names a fenced chute fails (R285). -/
def chuteErr (s : State) (d addr : Nat) (q : Option Nat) (write : Bool) : Option HcErr :=
  match q with
  | some c => if fenced s (pgChute d c) then some { code := 0x04, addr := addr, write := write } else none
  | none => none

/-- The first of several failures. -/
def firstErr : List (Option HcErr) → Option HcErr
  | [] => none
  | some e :: _ => some e
  | none :: r => firstErr r

/-- A pacing token is used (R283). -/
def tokenUse (s : State) (d c : Nat) (x : HoistSt) : HoistSt :=
  let t := rd s (pgHc d c) Off.HC_TRIG
  if bit t 20 && decide (fld t 21 3 = 1) then { x with tokens := x.tokens - 1 } else x

/-- Requests for a run of bytes of host memory: none crosses a 4 KiB boundary (R276) or exceeds the largest size that
configuration space allows (R418). The fuel is the number of bytes. -/
def hostParts (most : Nat) : Nat → Nat → Nat → List (Nat × Nat)
  | 0, _, _ => []
  | _, _, 0 => []
  | f + 1, addr, n =>
    let k := min n (min (max most 1) (4096 - addr % 4096))
    (addr, k) :: hostParts most f ((addr + k) % 2 ^ 64) (n - k)

/-- The requests of a burst of `n` words (R275, R276): a FIXED address is read once for each word. -/
def burstParts (most addr n kind : Nat) : List (Nat × Nat) :=
  if kind = 2 then List.replicate n (addr, 4) else hostParts most (n * kindStep kind) addr (n * kindStep kind)

/-- Host reads are issued for a burst (R276, R422). -/
def hostReadIssue (s : State) (d c id addr n kind : Nat) : State :=
  each (burstParts s.pcie.maxRead addr n kind) s fun s x =>
    emit { s with pcie := { s.pcie with reads := s.pcie.reads ++ [⟨d, c, id, x.1, x.2, 0⟩] } } (.hostRead d c x.1 x.2)

/-- The endpoint has tags for the host reads of a channel's next burst: at most 256 are outstanding (R418). -/
def tagsFree (s : State) (d c : Nat) (m : MoveSt) : Bool :=
  let n := burstLen s d c m
  !(moveHosts s d c m).1 || decide (s.pcie.reads.length + (burstParts s.pcie.maxRead m.src n m.sk).length ≤ 256)

/-- The next burst of a MOVE starts (R276, R283): it reserves its chutes and issues its host read, or it will fail when
its turn comes. -/
def burstBegin (s : State) (d c : Nat) (m : MoveSt) : State :=
  let n := burstLen s d c m
  let h := moveHosts s d c m
  let dq := hcChute s d m.dst h.2 m.dk true
  let sq := hcChute s d m.src h.1 m.sk false
  let err := firstErr [sideErr s d m.src n m.sk h.1 false, sideErr s d m.dst n m.dk h.2 true, chuteErr s d m.dst dq true,
    chuteErr s d m.src sq false]
  let good := err.isNone
  let b : Burst := {
    n := n, src := m.src, dst := m.dst, id := (hoist s d c).bseq, err := err
    res := if good then dq else none
    sres := if good then sq else none
    sn := if good && sq.isSome then n else 0
    hostRead := good && h.1 }
  let x := hoist s d c
  let m2 := { m with
    src := (m.src + n * kindStep m.sk) % 2 ^ 64, dst := (m.dst + n * kindStep m.dk) % 2 ^ 64, left := m.left - n }
  let s1 := setHoist s d c { tokenUse s d c x with
    bursts := x.bursts ++ [b], bseq := x.bseq + 1, lastStart := some s.clock, move := some m2 }
  let s2 := match b.res with
    | some q => let y := chute s1 d q; chuteFollow (setChute s1 d q { y with reserved := y.reserved + n }) d q
    | none => s1
  if b.hostRead then hostReadIssue s2 d c b.id m.src n m.sk else s2

/-- The MOVE of a channel whose next burst waits for nothing but its gap (R276, R283). -/
def burstReady (s : State) (d c : Nat) : Option MoveSt :=
  let x := hoist s d c
  match x.move with
  | some m =>
    if hcOn s d c && decide (x.cs = 2) && decide (m.left ≠ 0) && decide (x.bursts.length < 4) && hcMayStart s d c m
        && tagsFree s d c m then some m else none
  | none => none

/-- The channel that a die served last (R284); after reset the order begins with channel 0. -/
def lastServed (s : State) (d : Nat) : Nat := Tbl.get s.served d 31

/-- Order of a ready channel among those of its die (R284): the clock at which its burst is ready, and then its place in
the round that follows the channel served last. -/
def servedKey (s : State) (d c : Nat) : Nat × Nat := (max s.clock (hcGapClock s d c), (c + 31 - lastServed s d) % 32)

/-- A channel stands before another. -/
def servedBefore (a b : Nat × Nat) : Bool := decide (a.1 < b.1) || (decide (a.1 = b.1) && decide (a.2 < b.2))

/-- It is the turn of channel `c` (R284): no other ready channel of the die stands before it. -/
def burstTurn (s : State) (d c : Nat) : Bool :=
  (List.range 32).all fun e => !((burstReady s d e).isSome && servedBefore (servedKey s d e) (servedKey s d c))

/-- BURST_START (R276, R283, R284). -/
def execBurstStart (d c : Nat) (s : State) : Host.Outcome State Fault Refusal :=
  ok (match burstReady s d c with
    | some m =>
      if burstTurn s d c then
        let s1 := waitClock s (hcGapClock s d c)
        burstBegin { s1 with served := Tbl.put s1.served d c } d c m
      else s
    | none => s)

/-! Local accesses (R55, R272, R285, R383). -/

/-- The class of a Hoist channel's accesses. -/
def hcReq : Req := ⟨.hoist, 0⟩

/-- The code with which a local access fails at its target, if it does (R285): a hole, a write to a block register of a
fenced page (R17, R40), or a guard. -/
def accessErr (s : State) (d addr n : Nat) (write : Bool) : Option Nat :=
  match localReg d addr with
  | some (p, off) =>
    match verdict s hcReq p off write with
    | .unsupported | .fenced => some 0x04
    | .denied => some 0x05
    | _ => none
  | none =>
    match memZone addr n with
    | none => some 0x04
    | some (dps, _) => if memPermits s hcReq d dps write then none else some 0x05

/-- What a failed local access leaves behind: the log and the count of a denial (R383), and the log of a write to a fenced
page (R40). -/
def hcTrace (s : State) (d addr : Nat) (write : Bool) (code : Nat) : State :=
  match localReg d addr with
  | some (p, off) =>
    if code = 0x05 then denyCount (logErr s hcReq p off write 4) hcReq p write false
    else if code = 0x04 ∧ write ∧ present s p ∧ fenced s p then logErr s hcReq p off true 3
    else s
  | none => if code = 0x05 then denyCount s hcReq (ns d 0) write true else s

/-- The dual-port words of `n` bytes at a local address (R55, R312). -/
def dpsTouched (addr n : Nat) : List Nat :=
  match memZone addr n with
  | some (true, b) => (touched n b n).map Prod.fst
  | _ => []

/-- The collisions of a write of `n` bytes (R315): `hits` lists the dual-port words at which port A writes in the same clock,
a word twice if it does so again when the channel issues the word once more. -/
def hcCollide (s : State) (d addr n : Nat) (hits : List Nat) : State :=
  each ((dpsTouched addr n).flatMap fun w => hits.filter fun h => decide (h = w)) s fun s w => collision s hcReq d w

/-- A word of the write collides at its second issue too (R315). -/
def hcCollides (addr n : Nat) (hits : List Nat) : Bool := (dpsTouched addr n).any fun w => decide (2 ≤ hits.count w)

/-- Write one word of a kind at a local address: the code of its failure, and the state after. -/
def hcPut (s : State) (d addr kind : Nat) (v : Word) (hits : List Nat) : Option Nat × State :=
  let n := if kind = 0 then 3 else 4
  match accessErr s d addr n true with
  | some code => (some code, hcTrace s d addr true code)
  | none =>
    let s1 := hcCollide s d addr n hits
    if hcCollides addr n hits then (some 0x04, s1)
    else
      let t := if kind = 0 then memWrite s1 hcReq d addr (wordBytes v) false [] else localWrite s1 hcReq d addr v
      (none, { t with resp := s.resp })

/-- Write the words of a burst to local addresses: the first failure with its address. -/
def hcPuts : List Word → State → Nat → Nat → Nat → List Nat → Option HcErr × State
  | [], s, _, _, _, _ => (none, s)
  | v :: r, s, d, addr, kind, hits =>
    match hcPut s d addr kind v hits with
    | (some code, s1) => (some { code := code, addr := addr, write := true }, s1)
    | (none, s1) => hcPuts r s1 d ((addr + kindStep kind) % 2 ^ 64) kind hits

/-- The bytes of a memory access by a channel: the first poisoned word is reported with the channel's halt as its effect
(R311). -/
def hcBytes : List (Nat × Nat × Nat) → State → Nat → Nat → Nat → Bool → List Byte × Bool × State
  | [], s, _, _, _, _ => ([], false, s)
  | (w, k, m) :: r, s, d, c, addr, dps =>
    let (v, bad, s1) := windowRead s d dps w 5 (some (hcLink c { code := 3, addr := addr })) 3
    if bad then ([], true, s1)
    else
      let (bs, bad2, s2) := hcBytes r s1 d c addr dps
      (((wordBytes v).drop k).take m ++ bs, bad2, s2)

/-- Words at the head of a chute whose oldest is poisoned, read through a pop window (R298). -/
def popBad (s : State) (d : Nat) (p : Pg) (off : Nat) : Bool :=
  decide (pgKind p = .chute) && decide (0xC00 ≤ off) && !chuteHeld s d (pgInst p)
    && (chute s d (pgInst p)).words.head?.any fun w => decide (w.ecc = .bad)

/-- What a read of a register page has returned. -/
def respWord (x : Resp) : Word :=
  match x with
  | .data _ w => w
  | _ => 0#24

/-- Read one word of a kind at a local address: its failure or its word, and the state after. -/
def hcGet (s : State) (d c addr kind : Nat) : Option HcErr × Word × State :=
  let n := if kind = 0 then 3 else 4
  match accessErr s d addr n false with
  | some code => (some { code := code, addr := addr }, 0#24, hcTrace s d addr false code)
  | none =>
    match localReg d addr with
    | some (p, off) =>
      if popBad s d p off then (some { code := 0x03, addr := addr, chute := some (pgInst p) }, 0#24, s)
      else
        let t := localRead s hcReq d addr
        (none, respWord t.resp, { t with resp := s.resp })
    | none =>
      match memZone addr n with
      | none => (some { code := 0x04, addr := addr }, 0#24, s)
      | some (dps, b) =>
        let (bs, bad, s1) := hcBytes (touched n b n) s d c addr dps
        if bad then (some { code := 0x03, addr := addr, recorded := true }, 0#24, s1)
        else (none, bytesWord (bs.getD 0 0#8) (bs.getD 1 0#8) (bs.getD 2 0#8), s1)

/-- Read the words of a burst from local addresses: the first failure, the words before it, and the state after. -/
def hcGets : Nat → State → Nat → Nat → Nat → Nat → Option HcErr × List Word × State
  | 0, s, _, _, _, _ => (none, [], s)
  | n + 1, s, d, c, addr, kind =>
    match hcGet s d c addr kind with
    | (some e, _, s1) => (some e, [], s1)
    | (none, v, s1) =>
      let (e, vs, s2) := hcGets n s1 d c ((addr + kindStep kind) % 2 ^ 64) kind
      (e, v :: vs, s2)

/-! A burst is written (R276, R283, R285, R298). -/

/-- Take a poisoned word out of a chute at place `j`: it is delivered, and counts as removed (R298). -/
def poisonTake (s : State) (d q j : Nat) : State :=
  let y := chute s d q
  let s1 := spotGone s d q ((y.words.drop j).take 1)
  let s2 := setChute s1 d q { y with words := y.words.take j ++ y.words.drop (j + 1) }
  each (unspilled y.words.length) (chuteFollow (creditBack s2 d q 1) d q) fun s i => spillRead s d q i

/-- What a failed read of a burst leaves (R273): the trace of the failing access and no effect of the `j` reads before it.
A poisoned word of a chute counts as delivered (R298); the check of a memory word has been made (R310). -/
def readTrace (s0 s1 : State) (d j : Nat) (e : HcErr) : State :=
  match e.chute with
  | some q => poisonTake s0 d q (min j ((e.addr % 0x1000 - 0xC00) / 4))
  | none => if e.code = 3 then s1 else hcTrace s0 d e.addr false e.code

/-- Take `n` good words from the head of a chute. -/
def takeWords : Nat → State → Nat → Nat → List Word × State
  | 0, s, _, _ => ([], s)
  | n + 1, s, d, q =>
    match chuteTake s d q with
    | (none, s1) => ([], s1)
    | (some w, s1) => let (ws, s2) := takeWords n s1 d q; (w.w :: ws, s2)

/-- The source words of a burst from a chute (R283, R298): a poisoned word among them fails the burst, and the words
before it stay at the head. -/
def chuteSource (s : State) (d q : Nat) (b : Burst) : Option HcErr × List Word × Burst × State :=
  let y := chute s d q
  if !(running s (pgChute d q) || decide (pstate s (pgChute d q) = stShutting) || decide (pstate s (pgChute d q) = stRestart))
      || decide (y.words.length < b.n) then
    (some { code := 0x04, addr := b.src }, [], b, s)
  else match (y.words.take b.n).findIdx? fun w => decide (w.ecc = .bad) with
    | some j => (some { code := 0x03, addr := b.src, chute := some q }, [], { b with sn := b.n - 1 }, poisonTake s d q j)
    | none => let (ws, s1) := takeWords b.n s d q; (none, ws, b, s1)

/-- How the host read of a burst has completed (R285): none if the operand fits no completion of it. -/
def hostSource (b : Burst) (kind : Nat) (a : Cpl) : Option (Option HcErr × List Word) :=
  let e (code g : Nat) : Option HcErr := some { code := code, addr := (b.src + g * kindStep kind) % 2 ^ 64, host := true }
  match a with
  | .data ws => if ws.length = b.n then some (none, ws) else none
  | .refused g => if g < b.n then some (e 0x01 g, []) else none
  | .poisoned g => if g < b.n then some (e 0x03 g, []) else none

/-- Words pushed to a chute by a burst, its reservation given up (R283, R297, R300). -/
def burstPush (s : State) (d q : Nat) (b : Burst) (ws : List Word) : State :=
  let y := chute s d q
  let s1 := setChute s d q { y with reserved := y.reserved - b.n }
  let cells := ws.map fun w => ({ w := w, mark := decide (b.dst % 0x1000 = 0x800) } : CWord)
  if overwrite s1 d q then chuteFollow (each cells s1 fun s w => pushOver s d q w) d q else chuteAppend s1 d q cells

/-- The bytes of a word for a kind. -/
def kindBytes (kind : Nat) (w : Word) : List Byte := if kind = 0 then wordBytes w else wordBytes w ++ [0#8]

/-- Posted writes of a burst to host memory (R275, R276): a word that straddles a 4 KiB boundary takes two, and none is
larger than Max Payload Size (R418). -/
def hostPuts (s : State) (dst kind : Nat) (ws : List Word) : State :=
  if kind = 2 then each ws s fun s w => emit s (.hostWrite dst (kindBytes 2 w))
  else
    let bs := ws.flatMap (kindBytes kind)
    each (hostParts s.pcie.maxPayload bs.length dst bs.length) s fun s x =>
      emit s (.hostWrite x.1 ((bs.drop ((x.1 + 2 ^ 64 - dst) % 2 ^ 64)).take x.2))

/-- The destination side of a burst: its failure, and the state after. -/
def burstPut (s : State) (d : Nat) (m : MoveSt) (host : Bool) (b : Burst) (ws : List Word) (hits : List Nat) :
    Option HcErr × State :=
  match b.res with
  | some q =>
    if fenced s (pgChute d q) then (some { code := 0x04, addr := b.dst, write := true }, s) else (none, burstPush s d q b ws)
  | none =>
    if host then
      if !s.pcie.bme then (some { code := 0x01, addr := b.dst, write := true, host := true }, s)
      else if d ≠ 0 ∧ !reaches s d 0 then (some { code := 0x0B, addr := b.dst, write := true, host := true }, s)
      else (none, hostPuts s b.dst m.dk ws)
    else hcPuts ws s d b.dst m.dk hits

/-- A burst has been written: the address registers and `HC_REMAIN` follow; the last one ends the MOVE (R275, R276), and
an abort that waited for it (R286). -/
def burstDone (s : State) (d c : Nat) (b : Burst) (m : MoveSt) : State :=
  let h := moveHosts s d c m
  let src := (b.src + b.n * kindStep m.sk) % 2 ^ 64
  let s1 := if m.sr = m.dr then s else setHcA s d c m.sr src h.1
  let s2 := setHcA s1 d c m.dr (b.dst + b.n * kindStep m.dk) h.2
  let s3 := wr s2 (pgHc d c) Off.CNT_WORDS (rd s2 (pgHc d c) Off.CNT_WORDS + word b.n)
  let x := hoist s3 d c
  let left := m.remain - b.n
  let y := { x with wdAt := s.clock, move := if left = 0 then none else some { m with remain := left, sw := src } }
  let s4 := setHoist s3 d c (if left = 0 then { y with pc := x.pc + 2 } else y)
  if x.cs = 6 ∧ x.bursts = [] ∧ running s4 (pgHc d c) then hcAborted s4 d c else s4

/-- What the failure of a burst at its local address leaves (R40, R315, R383): a host address is not traced. -/
def burstTrace (s : State) (d : Nat) (e : HcErr) (kind : Nat := 2) (hits : List Nat := []) : State :=
  if e.host then s
  else
    let n := if kind = 0 then 3 else 4
    let s1 := if e.code = 4 ∧ hcCollides e.addr n hits then hcCollide s d e.addr n hits else s
    hcTrace s1 d e.addr e.write e.code

/-- The words of a burst are written, or none of them is (R273): `s0` is the state before they were read. -/
def burstWrite (s0 s : State) (d c : Nat) (b : Burst) (m : MoveSt) (ws : List Word) (hits : List Nat) :
    State :=
  match burstPut s d m (moveHosts s d c m).2 b ws hits with
  | (some e, _) => hcFail (burstTrace s0 d e m.dk hits) d c (some b) e
  | (none, s1) => burstDone s1 d c b m

/-- The oldest burst of a channel is read, if it has not been, and written. -/
def burstGo (s : State) (d c : Nat) (b : Burst) (m : MoveSt) (a : Cpl) (hits : List Nat) : State :=
  match b.err with
  | some e => hcFail (burstTrace s d e) d c (some b) e
  | none =>
    if b.hostRead then
      match hostSource b m.sk a with
      | some (some e, _) => hcFail s d c (some b) e
      | some (none, ws) =>
        let left := s.pcie.reads.filter fun r => !(decide (r.die = d) && decide (r.chan = c) && decide (r.burst = b.id))
        let s1 := { s with pcie := { s.pcie with reads := left } }
        burstWrite s1 s1 d c b m ws hits
      | none => s
    else match b.sres with
      | some q =>
        match chuteSource s d q b with
        | (some e, _, b2, s1) => hcFail s1 d c (some b2) e
        | (none, ws, _, s1) => burstWrite s s1 d c b m ws hits
      | none =>
        match hcGets b.n s d c b.src m.sk with
        | (some e, ws, s1) => hcFail (readTrace s s1 d ws.length e) d c (some b) e
        | (none, ws, s1) => burstWrite s s1 d c b m ws hits

/-- The operand of a completion fits the burst. -/
def cplFits (b : Burst) (m : MoveSt) (a : Cpl) : Bool := b.err.isSome || !b.hostRead || (hostSource b m.sk a).isSome

/-- BURST_WRITTEN (R276, R283, R285): `a` is how the host read of the burst has completed, and `hits` the dual-port words at
which its writes collide (R315). -/
def execBurstWritten (d c : Nat) (e : BurstEnd) (s : State) : Host.Outcome State Fault Refusal :=
  let x := hoist s d c
  let live := running s (pgHc d c) || decide (pstate s (pgHc d c) = stShutting) || decide (pstate s (pgHc d c) = stRestart)
  ok (match x.bursts, x.move with
    | b :: r, some m =>
      if decide (c < 32) && powered s && live && cplFits b m e.cpl then burstGo (setHoist s d c { x with bursts := r }) d c b m e.cpl e.collide
      else s
    | _, _ => s)

/-! The watchdog (R287). -/

/-- HOIST_WATCHDOG (R287). -/
def execHoistWatchdog (d c : Nat) (s : State) : Host.Outcome State Fault Refusal :=
  let x := hoist s d c
  let w := rf s (pgHc d c) Off.HC_WDOG 0 16
  ok (if hcOn s d c && decide (w ≠ 0) && decide (x.cs = 2) && !(x.bursts.any Burst.hostRead) then
    hcHalt (waitClock s (x.wdAt + 4096 * w)) d c 8 x.pc
  else s)

/-! Global timers (R282). -/

/-- A timer event adds a pacing token to each channel that the timer paces (R283). -/
def timerTokens (s : State) (d k : Nat) : State :=
  each ((List.range (nHc s)).filter fun c => bit (rd s (pgHc d c) Off.HC_TRIG) 20 && hoistNames s d 1 k 0 c) s fun s c =>
    setHoist s d c { hoist s d c with tokens := min ((hoist s d c).tokens + 1) 255 }

/-- GLOBAL_TIMER_FIRE (R282): the next tick that is a multiple of 16 x `TMR_PERIOD_k`. -/
def execGlobalTimerFire (d k : Nat) (s : State) : Host.Outcome State Fault Refusal :=
  let n := rdN s (pgHoistGlobal d) (Off.TMR_PERIOD + 4 * k)
  ok (if d < s.part.dies ∧ k < 4 ∧ n ≠ 0 ∧ running s (pgHoistGlobal d) then
    let s1 := waitClock s (nextAt s d (16 * n) (s.tmrs.lookup (d, k)))
    hoistSource (timerTokens { s1 with tmrs := Tbl.put s1.tmrs (d, k) s1.clock } d k) d 1 k 0
  else s)

/-! Completion queues (R290, R292). -/

/-- CQ_RECORD_WRITE (R290): the next record of a queue is written. -/
def execCqRecordWrite (d q : Nat) (s : State) : Host.Outcome State Fault Refusal :=
  ok (if d < s.part.dies ∧ q < 4 then cqWrite s d q else s)

/-- CQ_SIZE_WRITE (R290). -/
def execCqSizeWrite (r : Req) (d q : Nat) (v : Word) (s : State) : Host.Outcome State Fault Refusal :=
  ok (if q < 4 then guardedWrite s r (pgHoistGlobal d) (Off.CQ_SIZE + 32 * q) fun s => cqSizeSet s r d q v else s)

/-- CQ_CONS_WRITE (R292). -/
def execCqConsWrite (r : Req) (d q : Nat) (v : Word) (s : State) : Host.Outcome State Fault Refusal :=
  ok (if q < 4 then guardedWrite s r (pgHoistGlobal d) (Off.CQ_CONS + 32 * q) fun s => cqConsSet s r d q v else s)

end Sys2Proof.Machine
end

