-- ==== Sys2Proof/Machine/Dispatch.lean ====
section
/-!
DEFINITION. The meaning of every command, one arm per row of the table.
-/
namespace Sys2Proof.Machine

def exec (i : Instr) (s : State) : Host.Outcome State Fault Refusal :=
  match i with
  | .modeReqWrite r d v => Sys2Proof.Machine.execModeReqWrite r d v s
  | .modeLeadWrite r d v => Sys2Proof.Machine.execModeLeadWrite r d v s
  | .modeChanged => Sys2Proof.Machine.execModeChanged s
  | .modeMirrorArrive d => Sys2Proof.Machine.execModeMirrorArrive d s
  | .modeClockSettled => Sys2Proof.Machine.execModeClockSettled s
  | .registerWrite r t sh v => Sys2Proof.Machine.execRegisterWrite r t sh v s
  | .unsupportedRequest r bar off write => Sys2Proof.Machine.execUnsupportedRequest r bar off write s
  | .enWrite r p b => Sys2Proof.Machine.execEnWrite r p b s
  | .blockStarted p => Sys2Proof.Machine.execBlockStarted p s
  | .shutdownComplete p => Sys2Proof.Machine.execShutdownComplete p s
  | .softReset r p => Sys2Proof.Machine.execSoftReset r p s
  | .evtLatWrite r p v => Sys2Proof.Machine.execEvtLatWrite r p v s
  | .evtEnWrite r p v => Sys2Proof.Machine.execEvtEnWrite r p v s
  | .evtSetWrite r p v => Sys2Proof.Machine.execEvtSetWrite r p v s
  | .evtVecWrite r p v => Sys2Proof.Machine.execEvtVecWrite r p v s
  | .errInfoClear r p => Sys2Proof.Machine.execErrInfoClear r p s
  | .commitGo r p v => Sys2Proof.Machine.execCommitGo r p v s
  | .commitCancel r p => Sys2Proof.Machine.execCommitCancel r p s
  | .handOver p => Sys2Proof.Machine.execHandOver p s
  | .wideLRead r t n => Sys2Proof.Machine.execWideLRead r t n s
  | .wideLWrite r p off v => Sys2Proof.Machine.execWideLWrite r p off v s
  | .xtalCompUpdate temp => Sys2Proof.Machine.execXtalCompUpdate temp s
  | .xtalFail => Sys2Proof.Machine.execXtalFail s
  | .pllUnlock d => Sys2Proof.Machine.execPllUnlock d s
  | .pllRelockRelease d => Sys2Proof.Machine.execPllRelockRelease d s
  | .wrap d => Sys2Proof.Machine.execWrap d s
  | .secEdge => Sys2Proof.Machine.execSecEdge s
  | .timeFlitExchange d off => Sys2Proof.Machine.execTimeFlitExchange d off s
  | .timeSourceSwitch d => Sys2Proof.Machine.execTimeSourceSwitch d s
  | .timeSkewRelease d => Sys2Proof.Machine.execTimeSkewRelease d s
  | .tsyncFrameSend => Sys2Proof.Machine.execTsyncFrameSend s
  | .tsyncFrameReceive cap c cs => Sys2Proof.Machine.execTsyncFrameReceive cap c cs s
  | .stepApplied => Sys2Proof.Machine.execStepApplied s
  | .tsyncHoldover => Sys2Proof.Machine.execTsyncHoldover s
  | .encCount d c a b => Sys2Proof.Machine.execEncCount d c a b s
  | .index d c raw => Sys2Proof.Machine.execIndex d c raw s
  | .speedWindow d c => Sys2Proof.Machine.execSpeedWindow d c s
  | .speedStopped d c => Sys2Proof.Machine.execSpeedStopped d c s
  | .serialFrameStart d c slo => Sys2Proof.Machine.execSerialFrameStart d c slo s
  | .serialFrameEnd d c f => Sys2Proof.Machine.execSerialFrameEnd d c f s
  | .serialTimeout d c ack => Sys2Proof.Machine.execSerialTimeout d c ack s
  | .latchSw r d c v => Sys2Proof.Machine.execLatchSw r d c v s
  | .latchPeriodic d c => Sys2Proof.Machine.execLatchPeriodic d c s
  | .estimatorUpdate d c => Sys2Proof.Machine.execEstimatorUpdate d c s
  | .remoteEstimateReceive d c => Sys2Proof.Machine.execRemoteEstimateReceive d c s
  | .remoteSourceLost d c => Sys2Proof.Machine.execRemoteSourceLost d c s
  | .product d n level => Sys2Proof.Machine.execProduct d n level s
  | .pdLockoutEnd d n => Sys2Proof.Machine.execPdLockoutEnd d n s
  | .estimateArrival d c => Sys2Proof.Machine.execEstimateArrival d c s
  | .positionStep d c => Sys2Proof.Machine.execPositionStep d c s
  | .sourceLost d c => Sys2Proof.Machine.execSourceLost d c s
  | .pdEdgeArrival d n => Sys2Proof.Machine.execPdEdgeArrival d n s
  | .ctxArm r d k => Sys2Proof.Machine.execCtxArm r d k s
  | .ctxDisarm r d k => Sys2Proof.Machine.execCtxDisarm r d k s
  | .ctxStart r d k => Sys2Proof.Machine.execCtxStart r d k s
  | .ctxPause r d k => Sys2Proof.Machine.execCtxPause r d k s
  | .ctxResume r d k => Sys2Proof.Machine.execCtxResume r d k s
  | .ctxDrain r d k => Sys2Proof.Machine.execCtxDrain r d k s
  | .ctxAbort r d k => Sys2Proof.Machine.execCtxAbort r d k s
  | .ctxFlush r d k => Sys2Proof.Machine.execCtxFlush r d k s
  | .chuteFlushScan d c => Sys2Proof.Machine.execChuteFlushScan d c s
  | .ctxFence r d k => Sys2Proof.Machine.execCtxFence r d k s
  | .ctxRelease r d k => Sys2Proof.Machine.execCtxRelease r d k s
  | .followerRejoin d k => Sys2Proof.Machine.execFollowerRejoin d k s
  | .descriptorWrite r d k w v => Sys2Proof.Machine.execDescriptorWrite r d k w v s
  | .ctxCommitGo r d k v => Sys2Proof.Machine.execCtxCommitGo r d k v s
  | .ctxHandOver d k => Sys2Proof.Machine.execCtxHandOver d k s
  | .lineBind d k => Sys2Proof.Machine.execLineBind d k s
  | .lineFreeze d k => Sys2Proof.Machine.execLineFreeze d k s
  | .cycleFire d k => Sys2Proof.Machine.execCycleFire d k s
  | .drainComplete d k => Sys2Proof.Machine.execDrainComplete d k s
  | .stall d k => Sys2Proof.Machine.execStall d k s
  | .blockAccept d c => Sys2Proof.Machine.execBlockAccept d c s
  | .lineBuild d k => Sys2Proof.Machine.execLineBuild d k s
  | .seamShareReceive d => Sys2Proof.Machine.execSeamShareReceive d s
  | .seamCreditReturn d => Sys2Proof.Machine.execSeamCreditReturn d s
  | .wfLoadStart r d p v => Sys2Proof.Machine.execWfLoadStart r d p v s
  | .wfLoadCopy d p => Sys2Proof.Machine.execWfLoadCopy d p s
  | .wfLoadHead d p => Sys2Proof.Machine.execWfLoadHead d p s
  | .loadDone d p => Sys2Proof.Machine.execLoadDone d p s
  | .heaterUpdate d p => Sys2Proof.Machine.execHeaterUpdate d p s
  | .nozzleMapLoadDone d k => Sys2Proof.Machine.execNozzleMapLoadDone d k s
  | .echoResult d base win => Sys2Proof.Machine.execEchoResult d base win s
  | .sweepStart r d => Sys2Proof.Machine.execSweepStart r d s
  | .sweepAbort r d => Sys2Proof.Machine.execSweepAbort r d s
  | .setState r d arg => Sys2Proof.Machine.execSetState r d arg s
  | .setTrim r d arg => Sys2Proof.Machine.execSetTrim r d arg s
  | .clearHist r d => Sys2Proof.Machine.execClearHist r d s
  | .refInvalid r d => Sys2Proof.Machine.execRefInvalid r d s
  | .refValid r d => Sys2Proof.Machine.execRefValid r d s
  | .lockTrim r d arg => Sys2Proof.Machine.execLockTrim r d arg s
  | .linkDiscovery d p ans => Sys2Proof.Machine.execLinkDiscovery d p ans s
  | .discoveryRepeat d p => Sys2Proof.Machine.execDiscoveryRepeat d p s
  | .linkUp d p => Sys2Proof.Machine.execLinkUp d p s
  | .trainAttemptTimeout d p => Sys2Proof.Machine.execTrainAttemptTimeout d p s
  | .frameSend d p => Sys2Proof.Machine.execFrameSend d p s
  | .ackReceive d p cs => Sys2Proof.Machine.execAckReceive d p cs s
  | .ackTimeout d p q => Sys2Proof.Machine.execAckTimeout d p q s
  | .statusReceive d p cs => Sys2Proof.Machine.execStatusReceive d p cs s
  | .statusStale d p => Sys2Proof.Machine.execStatusStale d p s
  | .currentLoopTick d a ia ib => Sys2Proof.Machine.execCurrentLoopTick d a ia ib s
  | .bridgeFault d a => Sys2Proof.Machine.execBridgeFault d a s
  | .stepInput d a fwd => Sys2Proof.Machine.execStepInput d a fwd s
  | .profileTick d a => Sys2Proof.Machine.execProfileTick d a s
  | .axEnableDone d a => Sys2Proof.Machine.execAxEnableDone d a s
  | .axMove r d a => Sys2Proof.Machine.execAxMove r d a s
  | .axStop r d a => Sys2Proof.Machine.execAxStop r d a s
  | .axResume r d a => Sys2Proof.Machine.execAxResume r d a s
  | .axHome r d a => Sys2Proof.Machine.execAxHome r d a s
  | .axLoad r d a => Sys2Proof.Machine.execAxLoad r d a s
  | .axClear r d a => Sys2Proof.Machine.execAxClear r d a s
  | .axCut r d a => Sys2Proof.Machine.execAxCut r d a s
  | .switchInputEdge d a ix raw => Sys2Proof.Machine.execSwitchInputEdge d a ix raw s
  | .swEdge d a ix => Sys2Proof.Machine.execSwEdge d a ix s
  | .hcStart r d c => Sys2Proof.Machine.execHcStart r d c s
  | .hcCancel r d c => Sys2Proof.Machine.execHcCancel r d c s
  | .hcHold r d c b => Sys2Proof.Machine.execHcHold r d c b s
  | .hcResume r d c => Sys2Proof.Machine.execHcResume r d c s
  | .hcAbort r d c => Sys2Proof.Machine.execHcAbort r d c s
  | .hoistTrigger d c => Sys2Proof.Machine.execHoistTrigger d c s
  | .runStart d c => Sys2Proof.Machine.execRunStart d c s
  | .hoistMove d c => Sys2Proof.Machine.execHoistMove d c s
  | .hoistLoop d c => Sys2Proof.Machine.execHoistLoop d c s
  | .hoistWait d c => Sys2Proof.Machine.execHoistWait d c s
  | .waitSatisfied d c => Sys2Proof.Machine.execWaitSatisfied d c s
  | .waitTimeout d c => Sys2Proof.Machine.execWaitTimeout d c s
  | .hoistSignal d c => Sys2Proof.Machine.execHoistSignal d c s
  | .hoistSeta d c => Sys2Proof.Machine.execHoistSeta d c s
  | .hoistAdda d c => Sys2Proof.Machine.execHoistAdda d c s
  | .hoistNop d c => Sys2Proof.Machine.execHoistNop d c s
  | .hoistEnd d c => Sys2Proof.Machine.execHoistEnd d c s
  | .burstStart d c => Sys2Proof.Machine.execBurstStart d c s
  | .burstWritten d c a => Sys2Proof.Machine.execBurstWritten d c a s
  | .hoistWatchdog d c => Sys2Proof.Machine.execHoistWatchdog d c s
  | .globalTimerFire d k => Sys2Proof.Machine.execGlobalTimerFire d k s
  | .cqRecordWrite d q => Sys2Proof.Machine.execCqRecordWrite d q s
  | .cqSizeWrite r d q v => Sys2Proof.Machine.execCqSizeWrite r d q v s
  | .cqConsWrite r d q v => Sys2Proof.Machine.execCqConsWrite r d q v s
  | .chutePush r d c ix v => Sys2Proof.Machine.execChutePush r d c ix v s
  | .chutePop r d c ix => Sys2Proof.Machine.execChutePop r d c ix s
  | .memWindowWrite r d off bs poisoned collide => Sys2Proof.Machine.execMemWindowWrite r d off bs poisoned collide s
  | .memWindowRead r d off len => Sys2Proof.Machine.execMemWindowRead r d off len s
  | .memtestRegionStart d => Sys2Proof.Machine.execMemtestRegionStart d s
  | .memtestPhaseDone d rows => Sys2Proof.Machine.execMemtestPhaseDone d rows s
  | .repairMapSave d => Sys2Proof.Machine.execRepairMapSave d s
  | .retDataWrite r d v => Sys2Proof.Machine.execRetDataWrite r d v s
  | .retDataRead r d => Sys2Proof.Machine.execRetDataRead r d s
  | .retWordWritten d => Sys2Proof.Machine.execRetWordWritten d s
  | .asRequest r d ch => Sys2Proof.Machine.execAsRequest r d ch s
  | .asSave r d => Sys2Proof.Machine.execAsSave r d s
  | .asRestore r d => Sys2Proof.Machine.execAsRestore r d s
  | .asCancel r d ch => Sys2Proof.Machine.execAsCancel r d ch s
  | .saved d => Sys2Proof.Machine.execSaved d s
  | .restored d => Sys2Proof.Machine.execRestored d s
  | .assayRunStart d cls => Sys2Proof.Machine.execAssayRunStart d cls s
  | .assayTakeover d cls => Sys2Proof.Machine.execAssayTakeover d cls s
  | .assayMeasureStart d cls => Sys2Proof.Machine.execAssayMeasureStart d cls s
  | .assayMeasureEnd d cls p => Sys2Proof.Machine.execAssayMeasureEnd d cls p s
  | .runDone d cls => Sys2Proof.Machine.execRunDone d cls s
  | .tabRead r d => Sys2Proof.Machine.execTabRead r d s
  | .tabWrite r d => Sys2Proof.Machine.execTabWrite r d s
  | .tabClear r d => Sys2Proof.Machine.execTabClear r d s
  | .tempUpdate d isl power => Sys2Proof.Machine.execTempUpdate d isl power s
  | .thermistorSample d p ohm => Sys2Proof.Machine.execThermistorSample d p ohm s
  | .warnClear d o => Sys2Proof.Machine.execWarnClear d o s
  | .graceExpiry d o => Sys2Proof.Machine.execGraceExpiry d o s
  | .critical d o => Sys2Proof.Machine.execCritical d o s
  | .lampMeasure d => Sys2Proof.Machine.execLampMeasure d s
  | .lampMeasureCmd r d => Sys2Proof.Machine.execLampMeasureCmd r d s
  | .measured d cnt => Sys2Proof.Machine.execMeasured d cnt s
  | .calintExpiry d ix => Sys2Proof.Machine.execCalintExpiry d ix s
  | .histWritten d => Sys2Proof.Machine.execHistWritten d s
  | .histClear r d => Sys2Proof.Machine.execHistClear r d s
  | .mailboxPost r d sec n v => Sys2Proof.Machine.execMailboxPost r d sec n v s
  | .mailboxTake d => Sys2Proof.Machine.execMailboxTake d s
  | .inDone d sec n => Sys2Proof.Machine.execInDone d sec n s
  | .getInfo d sec n => Sys2Proof.Machine.execGetInfo d sec n s
  | .ping d sec n => Sys2Proof.Machine.execPing d sec n s
  | .headDiscover d sec n ans => Sys2Proof.Machine.execHeadDiscover d sec n ans s
  | .sbRead d sec n ans => Sys2Proof.Machine.execSbRead d sec n ans s
  | .sbWrite d sec n ack => Sys2Proof.Machine.execSbWrite d sec n ack s
  | .captureRef d sec n => Sys2Proof.Machine.execCaptureRef d sec n s
  | .assayRequest d sec n => Sys2Proof.Machine.execAssayRequest d sec n s
  | .abortLong d sec n => Sys2Proof.Machine.execAbortLong d sec n s
  | .tallyClear d sec n => Sys2Proof.Machine.execTallyClear d sec n s
  | .fwRestart d sec n => Sys2Proof.Machine.execFwRestart d sec n s
  | .lifecycleAdvance d sec n good => Sys2Proof.Machine.execLifecycleAdvance d sec n good s
  | .longCmdTimeout d => Sys2Proof.Machine.execLongCmdTimeout d s
  | .fwWatchdogRestart d => Sys2Proof.Machine.execFwWatchdogRestart d s
  | .fwStarted d => Sys2Proof.Machine.execFwStarted d s
  | .outFull d sec n => Sys2Proof.Machine.execOutFull d sec n s
  | .noticeAck r d sec n v => Sys2Proof.Machine.execNoticeAck r d sec n v s
  | .inStuck d sec n => Sys2Proof.Machine.execInStuck d sec n s
  | .outStuck d sec n => Sys2Proof.Machine.execOutStuck d sec n s
  | .flr => Sys2Proof.Machine.execFlr s
  | .conventionalReset => Sys2Proof.Machine.execConventionalReset s
  | .sessionStart r d bind => Sys2Proof.Machine.execSessionStart r d bind s
  | .sessionCheck r d v => Sys2Proof.Machine.execSessionCheck r d v s
  | .sessionClose r d => Sys2Proof.Machine.execSessionClose r d s
  | .sessionTimeout d => Sys2Proof.Machine.execSessionTimeout d s
  | .backoffEnd d => Sys2Proof.Machine.execBackoffEnd d s
  | .guardWrite r d off v => Sys2Proof.Machine.execGuardWrite r d off v s
  | .extest d => Sys2Proof.Machine.execExtest d s
  | .samplePreload d => Sys2Proof.Machine.execSamplePreload d s
  | .idcode d => Sys2Proof.Machine.execIdcode d s
  | .clamp d => Sys2Proof.Machine.execClamp d s
  | .highz d => Sys2Proof.Machine.execHighz d s
  | .extestPulse d => Sys2Proof.Machine.execExtestPulse d s
  | .extestTrain d => Sys2Proof.Machine.execExtestTrain d s
  | .dbgStatus d => Sys2Proof.Machine.execDbgStatus d s
  | .unlockChal d => Sys2Proof.Machine.execUnlockChal d s
  | .unlockResp d token => Sys2Proof.Machine.execUnlockResp d token s
  | .dbgAccess d write addr data => Sys2Proof.Machine.execDbgAccess d write addr data s
  | .dbgClose d => Sys2Proof.Machine.execDbgClose d s
  | .bypass d code => Sys2Proof.Machine.execBypass d code s
  | .dbgCtrlClose r d => Sys2Proof.Machine.execDbgCtrlClose r d s
  | .trstLow d => Sys2Proof.Machine.execTrstLow d s
  | .ijlAllowWrite r d allow => Sys2Proof.Machine.execIjlAllowWrite r d allow s
  | .dormantEntry => Sys2Proof.Machine.execDormantEntry s
  | .vinOff => Sys2Proof.Machine.execVinOff s
  | .wakePin n rising => Sys2Proof.Machine.execWakePin n rising s
  | .wakeAlarm => Sys2Proof.Machine.execWakeAlarm s
  | .vinBrownout => Sys2Proof.Machine.execVinBrownout s
  | .vaonReset => Sys2Proof.Machine.execVaonReset s
  | .powerGood d => Sys2Proof.Machine.execPowerGood d s
  | .fuseRead d f => Sys2Proof.Machine.execFuseRead d f s
  | .crystal => Sys2Proof.Machine.execCrystal s
  | .pllLock d => Sys2Proof.Machine.execPllLock d s
  | .memRepair d => Sys2Proof.Machine.execMemRepair d s
  | .burimTrain d ix => Sys2Proof.Machine.execBurimTrain d ix s
  | .fwVerify d image => Sys2Proof.Machine.execFwVerify d image s
  | .pcieLink gen width ltssm => Sys2Proof.Machine.execPcieLink gen width ltssm s
  | .initialAssay d => Sys2Proof.Machine.execInitialAssay d s
  | .bootStepTimeout d step detail => Sys2Proof.Machine.execBootStepTimeout d step detail s
  | .bootRestart => Sys2Proof.Machine.execBootRestart s
  | .tlClear r d v => Sys2Proof.Machine.execTlClear r d v s
  | .cleared d => Sys2Proof.Machine.execCleared d s
  | .pageFence r p => Sys2Proof.Machine.execPageFence r p s
  | .fenceRelease r p bflt => Sys2Proof.Machine.execFenceRelease r p bflt s
  | .releaseComplete p => Sys2Proof.Machine.execReleaseComplete p s
  | .dieFenced r v => Sys2Proof.Machine.execDieFenced r v s
  | .watchdog d => Sys2Proof.Machine.execWatchdog d s
  | .completionTimeout x => Sys2Proof.Machine.execCompletionTimeout x s
  | .msixPendingSend v => Sys2Proof.Machine.execMsixPendingSend v s
  | .pcieLinkUp gen width ltssm => Sys2Proof.Machine.execPcieLinkUp gen width ltssm s
  | .flitReceive d ix a => Sys2Proof.Machine.execFlitReceive d ix a s
  | .nakReceive d ix seq => Sys2Proof.Machine.execNakReceive d ix seq s
  | .burimRetrain d ix => Sys2Proof.Machine.execBurimRetrain d ix s
  | .burimRetrainDone d ix good => Sys2Proof.Machine.execBurimRetrainDone d ix good s
  | .periodSpeedLimit d c => Sys2Proof.Machine.execPeriodSpeedLimit d c s
  | .upstreamCodeErrors d p => Sys2Proof.Machine.execUpstreamCodeErrors d p s
  | .pcieLinkDown ltssm => Sys2Proof.Machine.execPcieLinkDown ltssm s
  | .vaonApplied => Sys2Proof.Machine.execVaonApplied s
  | .dormantSecondsEdge => Sys2Proof.Machine.execDormantSecondsEdge s
  | .busMasterEnable => Sys2Proof.Machine.execBusMasterEnable s

end Sys2Proof.Machine
end

