-- ==== Sys2Proof/Machine/Step.lean ====
section
/-!
DEFINITION. One step: the command at the front of the queue, or a tick in which none waits.
-/
namespace Sys2Proof.Machine

/-- One step of the part: the oldest waiting command acts on the state with the rest of the queue. With no command
waiting one tick passes (DESIGN CHOICE, log entry 2): counters run, and nothing else happens. -/
def step (s : State) : Host.Outcome State Fault Refusal :=
  match s.pending with
  | [] => .next (ticksPass s 1)
  | i :: rest => exec i { s with pending := rest }

/-- `s` with the command that a word spells put in front of its queue; unchanged where the word spells none. -/
def State.withFetchWord (s : State) (nbits w : Nat) : State :=
  match decodeTableWord nbits w with
  | some i => { s with pending := i :: s.pending }
  | none => s

end Sys2Proof.Machine
end

