-- ==== Sys2Proof/Safety.lean ====
section
/-!
DEFINITION. What counts as a safe run, in the terms the statements use.
-/
namespace Sys2Proof.Machine

/-- The invariant of the model: the lode and dual-port bytes and the retention bytes stand in the canonical form, so
equal memories are equal data. -/
def Inv (s : State) : Prop := Memory.wf s.mem ∧ Memory.wf s.ret

/-- What the fuses of a die hold: serial number, lot, wafer, die-unique key, its identifier and the lifecycle (R373,
R375). -/
def fuses (x : DieSt) : Nat × Nat × Nat × Nat × Nat × Nat := (x.serial, x.lot, x.wafer, x.key, x.keyId, x.lc)

/-- A run of `n` steps that meets neither a fault nor a refusal. -/
def Safe : Nat → State → Prop
  | 0, _ => True
  | n + 1, s => ∃ t, step s = .next t ∧ Safe n t

/-! What each command may change. -/

/-- A part of the state beside the registers, the queue, the clock, the part and what has left it. -/
inductive Engine
  | free | gos | hold | ticks | caps | fences | mem | ecc | ret | retEcc | chutes | ctxs
  | ports | encs | pds | seamQ | echos | mems | msgs | axes | hoists | served | trigs | tmrs
  | cqWait | cqSeq | assays | therms | lamps | mboxes | fws | tsync | burims | hops | dies | pkg
  | pcie | resp
  deriving DecidableEq, Repr

/-- A part of the state is the same in two states. -/
def Engine.Same : Engine → State → State → Prop
  | .free, s, t => t.free = s.free
  | .gos, s, t => t.gos = s.gos
  | .hold, s, t => t.hold = s.hold
  | .ticks, s, t => t.ticks = s.ticks
  | .caps, s, t => t.caps = s.caps
  | .fences, s, t => t.fences = s.fences
  | .mem, s, t => t.mem = s.mem
  | .ecc, s, t => t.ecc = s.ecc
  | .ret, s, t => t.ret = s.ret
  | .retEcc, s, t => t.retEcc = s.retEcc
  | .chutes, s, t => t.chutes = s.chutes
  | .ctxs, s, t => t.ctxs = s.ctxs
  | .ports, s, t => t.ports = s.ports
  | .encs, s, t => t.encs = s.encs
  | .pds, s, t => t.pds = s.pds
  | .seamQ, s, t => t.seamQ = s.seamQ
  | .echos, s, t => t.echos = s.echos
  | .mems, s, t => t.mems = s.mems
  | .msgs, s, t => t.msgs = s.msgs
  | .axes, s, t => t.axes = s.axes
  | .hoists, s, t => t.hoists = s.hoists
  | .served, s, t => t.served = s.served
  | .trigs, s, t => t.trigs = s.trigs
  | .tmrs, s, t => t.tmrs = s.tmrs
  | .cqWait, s, t => t.cqWait = s.cqWait
  | .cqSeq, s, t => t.cqSeq = s.cqSeq
  | .assays, s, t => t.assays = s.assays
  | .therms, s, t => t.therms = s.therms
  | .lamps, s, t => t.lamps = s.lamps
  | .mboxes, s, t => t.mboxes = s.mboxes
  | .fws, s, t => t.fws = s.fws
  | .tsync, s, t => t.tsync = s.tsync
  | .burims, s, t => t.burims = s.burims
  | .hops, s, t => t.hops = s.hops
  | .dies, s, t => t.dies = s.dies
  | .pkg, s, t => t.pkg = s.pkg
  | .pcie, s, t => t.pcie = s.pcie
  | .resp, s, t => t.resp = s.resp

/-- Every block type. -/
def allKinds : List Kind :=
  [.die, .mode, .timebase, .tsync, .eventHub, .fence, .inject, .tally, .assay, .thermal, .lamp, .memctl, .retain,
   .hoistGlobal, .chuteGlobal, .mbox, .hp, .enc, .ax, .pd, .seam, .echo, .burim, .pcie, .ctxCtrl, .hoistCh,
   .chute, .secDie, .guard, .debug, .injectLock, .session]

/-- The pages that a fence of one page may change: the page itself, those of what depends on it, and the log. -/
def blockKinds : List Kind :=
  [.assay, .ax, .chute, .chuteGlobal, .ctxCtrl, .debug, .die, .echo, .enc, .fence, .hoistGlobal, .hp, .mode,
   .seam]

/-- The pages of printing: contexts, ports, chutes, the seam, the memory error registers and the log. -/
def jetKinds : List Kind :=
  [.chute, .chuteGlobal, .ctxCtrl, .echo, .fence, .hp, .memctl, .seam]

/-- The pages that a fault record changes. -/
def logKinds : List Kind :=
  [.chute, .chuteGlobal, .fence]

/-- The pages that a refused bus access changes. -/
def busKinds : List Kind :=
  [.guard, .pcie]

/-- What a fence of one page may change. -/
def fenceEngines : List Engine :=
  [.free, .fences, .chutes, .ctxs, .ports, .encs, .pds, .echos, .msgs, .axes, .hoists, .trigs, .cqWait, .assays,
   .lamps, .tsync, .hops, .dies, .pcie]

/-- What printing may change. -/
def jetEngines : List Engine :=
  [.ecc, .chutes, .ctxs, .ports, .echos, .mems, .trigs, .dies, .pcie]

/-- What a bus access may change beside its own effect. -/
def busEngines : List Engine :=
  [.dies, .pcie, .resp]

/-- The block types whose pages a command may write, beside the page it names (`pageOperand`). -/
def mayWrite : Instr → List Kind
  | .modeReqWrite .. => busKinds ++ [.mode, .assay]
  | .modeLeadWrite .. => busKinds ++ [.mode]
  | .modeChanged => jetKinds ++ [.mode, .timebase, .mbox, .enc, .ax]
  | .modeMirrorArrive .. => [.mode]
  | .modeClockSettled | .wrap .. | .secEdge | .tsyncFrameSend | .pdLockoutEnd .. | .estimateArrival .. |
    .globalTimerFire .. | .assayTakeover .. | .assayMeasureStart .. | .assayMeasureEnd .. | .dormantSecondsEdge =>
    [.timebase]
  | .registerWrite .. | .wideLWrite .. | .burstWritten .. | .dbgAccess .. | .vinOff | .vinBrownout | .powerGood .. |
    .bootRestart => allKinds
  | .unsupportedRequest .. | .pcieLinkUp .. | .pcieLinkDown .. => [.pcie]
  | .enWrite .. => jetKinds ++ busKinds ++ [.die, .mode, .tsync, .inject, .hoistGlobal, .mbox, .enc, .ax, .hoistCh,
    .debug, .injectLock]
  | .blockStarted .. => jetKinds ++ [.die, .mode, .tsync, .inject, .hoistGlobal, .mbox, .enc, .ax, .hoistCh, .debug,
    .injectLock]
  | .shutdownComplete .. | .releaseComplete .. => blockKinds ++ [.timebase, .tsync, .inject, .thermal, .memctl,
    .mbox, .injectLock]
  | .softReset .. => blockKinds ++ busKinds ++ [.timebase, .tsync, .inject, .memctl, .mbox, .hoistCh, .injectLock]
  | .evtLatWrite .. | .evtEnWrite .. | .evtSetWrite .. | .evtVecWrite .. | .errInfoClear .. | .commitGo .. |
    .commitCancel .. | .guardWrite .. => busKinds
  | .handOver .. => blockKinds ++ [.timebase, .tsync, .pd]
  | .wideLRead .. => blockKinds ++ busKinds ++ [.timebase, .tsync, .memctl, .retain]
  | .xtalCompUpdate .. | .tsyncFrameReceive .. | .stepApplied | .tsyncHoldover => [.timebase, .tsync]
  | .xtalFail => [.mode, .timebase]
  | .pllUnlock .. | .timeFlitExchange .. | .timeSourceSwitch .. | .watchdog .. => blockKinds ++ [.timebase, .tsync,
    .inject, .thermal, .lamp, .mbox, .pd, .hoistCh]
  | .pllRelockRelease .. | .timeSkewRelease .. => blockKinds ++ [.timebase, .tsync, .inject, .thermal, .lamp,
    .memctl, .mbox, .pd, .hoistCh, .injectLock]
  | .encCount .. | .index .. | .serialFrameStart .. | .currentLoopTick .. | .profileTick .. | .swEdge .. =>
    blockKinds ++ [.timebase, .tsync]
  | .speedWindow .. | .speedStopped .. | .estimatorUpdate .. | .remoteSourceLost .. | .periodSpeedLimit .. =>
    [.timebase, .enc]
  | .serialFrameEnd .. => blockKinds ++ [.tsync, .inject]
  | .serialTimeout .. | .bridgeFault .. | .switchInputEdge .. | .extest .. | .clamp .. | .highz .. | .extestPulse ..
    | .extestTrain .. => blockKinds ++ [.tsync]
  | .latchSw .. => busKinds ++ [.chuteGlobal, .enc, .chute]
  | .latchPeriodic .. => [.timebase, .chuteGlobal, .enc, .chute]
  | .remoteEstimateReceive .. => [.enc]
  | .product .. => [.timebase, .chuteGlobal, .enc, .pd, .chute]
  | .positionStep .. | .sourceLost .. | .pdEdgeArrival .. | .followerRejoin .. | .ctxHandOver .. | .cycleFire .. |
    .stall .. => jetKinds ++ [.timebase]
  | .ctxArm .. | .ctxDisarm .. | .ctxStart .. | .ctxPause .. | .ctxResume .. | .ctxDrain .. | .ctxAbort .. |
    .ctxFlush .. | .ctxRelease .. => jetKinds ++ busKinds
  | .chuteFlushScan .. => [.chuteGlobal, .chute]
  | .ctxFence .. => logKinds ++ busKinds ++ [.seam, .echo, .ctxCtrl]
  | .descriptorWrite .. | .memWindowWrite .. => logKinds ++ busKinds ++ [.memctl, .ctxCtrl]
  | .ctxCommitGo .. => busKinds ++ [.ctxCtrl]
  | .lineBind .. => jetKinds ++ [.timebase, .assay]
  | .lineFreeze .. | .heaterUpdate .. | .statusStale .. => [.timebase, .hp]
  | .drainComplete .. => jetKinds
  | .blockAccept .. | .lineBuild .. | .seamCreditReturn .. | .nozzleMapLoadDone .. => logKinds ++ [.memctl, .seam,
    .echo, .ctxCtrl]
  | .seamShareReceive .. => [.seam]
  | .wfLoadStart .. => busKinds ++ [.hp]
  | .wfLoadCopy .. => logKinds ++ [.timebase, .memctl, .hp]
  | .wfLoadHead .. | .loadDone .. => [.hp]
  | .echoResult .. => logKinds ++ [.memctl, .echo]
  | .sweepStart .. | .sweepAbort .. => busKinds ++ [.echo]
  | .setState .. | .setTrim .. | .clearHist .. | .refInvalid .. | .refValid .. | .lockTrim .. => logKinds ++
    busKinds ++ [.memctl, .echo]
  | .linkDiscovery .. | .linkUp .. | .headDiscover .. => [.mbox, .hp]
  | .discoveryRepeat .. => [.timebase, .mbox, .hp]
  | .trainAttemptTimeout .. => blockKinds ++ [.timebase, .tsync, .memctl, .mbox]
  | .frameSend .. => jetKinds ++ [.timebase, .inject, .mbox]
  | .ackReceive .. | .statusReceive .. => jetKinds ++ [.timebase, .inject, .thermal]
  | .ackTimeout .. => jetKinds ++ [.timebase, .mbox]
  | .stepInput .. => [.ax]
  | .axEnableDone .. => [.timebase, .ax]
  | .axMove .. | .axStop .. | .axResume .. | .axHome .. | .axLoad .. | .axClear .. | .axCut .. => busKinds ++ [.ax]
  | .hcStart .. | .hcCancel .. | .hcHold .. | .hcResume .. | .hcAbort .. => busKinds ++ [.hoistGlobal, .chuteGlobal,
    .hoistCh, .chute]
  | .hoistTrigger .. | .runStart .. => [.hoistCh]
  | .hoistMove .. | .hoistLoop .. | .hoistWait .. | .hoistSignal .. | .hoistSeta .. | .hoistAdda .. | .hoistNop .. |
    .hoistEnd .. => blockKinds ++ [.tsync, .memctl, .hoistCh]
  | .waitSatisfied .. => [.timebase, .hoistCh]
  | .waitTimeout .. | .hoistWatchdog .. => blockKinds ++ [.timebase, .tsync, .hoistCh]
  | .burstStart .. => [.timebase, .chuteGlobal, .chute]
  | .cqRecordWrite .. | .busMasterEnable => [.hoistGlobal, .hoistCh]
  | .cqSizeWrite .. | .cqConsWrite .. => busKinds ++ [.hoistGlobal]
  | .chutePush .. => busKinds ++ [.chuteGlobal, .chute]
  | .chutePop .. | .memWindowRead .. => logKinds ++ busKinds ++ [.memctl]
  | .memtestRegionStart .. => [.timebase, .memctl]
  | .memtestPhaseDone .. => logKinds ++ [.memctl]
  | .repairMapSave .. | .retWordWritten .. => [.retain]
  | .retDataWrite .. | .retDataRead .. => busKinds ++ [.retain]
  | .asRequest .. | .asSave .. | .asRestore .. | .asCancel .. | .tabRead .. | .tabWrite .. | .tabClear .. =>
    busKinds ++ [.assay]
  | .saved .. => [.assay, .retain]
  | .restored .. | .runDone .. => [.assay]
  | .assayRunStart .. | .lampMeasure .. | .calintExpiry .. | .getInfo .. | .ping .. | .sbRead .. | .sbWrite .. |
    .wakePin .. | .wakeAlarm | .msixPendingSend .. | .nakReceive .. => []
  | .tempUpdate .. => [.timebase, .thermal, .chuteGlobal, .hp, .chute]
  | .thermistorSample .. => [.thermal, .chuteGlobal, .hp, .chute]
  | .warnClear .. => [.timebase, .thermal, .chuteGlobal, .mbox, .hp, .echo, .chute]
  | .graceExpiry .. => logKinds ++ [.timebase, .thermal, .mbox, .seam, .echo, .ctxCtrl]
  | .critical .. => blockKinds ++ [.tsync, .thermal]
  | .lampMeasureCmd .. => busKinds ++ [.lamp]
  | .measured .. => [.timebase, .lamp, .chuteGlobal, .mbox, .chute]
  | .histWritten .. => [.lamp, .retain]
  | .histClear .. => busKinds ++ [.lamp, .retain]
  | .mailboxPost .. | .noticeAck .. => busKinds ++ [.mbox]
  | .mailboxTake .. | .inDone .. | .fwRestart .. | .fwWatchdogRestart .. | .fwStarted .. | .outFull .. => [.mbox]
  | .captureRef .. => [.mbox, .echo]
  | .assayRequest .. => [.assay, .mbox]
  | .abortLong .. => [.mbox, .hp, .echo]
  | .tallyClear .. | .cleared .. => [.tally, .retain]
  | .lifecycleAdvance .. => [.die, .mode, .inject, .secDie, .debug, .injectLock, .session]
  | .longCmdTimeout .. => [.timebase, .mbox, .hp, .echo]
  | .inStuck .. | .outStuck .. => [.timebase, .mbox]
  | .flr => blockKinds ++ [.timebase, .tsync, .eventHub, .inject, .tally, .thermal, .lamp, .memctl, .retain, .mbox,
    .pd, .burim, .pcie, .hoistCh]
  | .conventionalReset => blockKinds ++ [.timebase, .tsync, .eventHub, .inject, .tally, .thermal, .lamp, .memctl,
    .retain, .mbox, .pd, .burim, .pcie, .hoistCh, .session]
  | .sessionStart .. | .sessionCheck .. | .sessionClose .. => busKinds ++ [.session]
  | .sessionTimeout .. | .backoffEnd .. => [.timebase, .session]
  | .samplePreload .. | .idcode .. | .dbgStatus .. | .unlockChal .. | .bypass .. => [.debug]
  | .unlockResp .. | .dbgClose .. | .trstLow .. => [.die, .mode, .debug]
  | .dbgCtrlClose .. => busKinds ++ [.die, .mode, .debug]
  | .ijlAllowWrite .. => busKinds ++ [.inject, .injectLock]
  | .dormantEntry => jetKinds ++ [.die, .mode, .timebase, .assay, .retain, .mbox, .enc, .ax, .pcie, .debug,
    .session]
  | .vaonReset | .vaonApplied => [.die]
  | .fuseRead .. => blockKinds ++ [.tsync, .inject, .tally, .thermal, .lamp, .retain, .mbox, .pd, .hoistCh,
    .injectLock, .session]
  | .crystal => [.mode, .timebase, .retain]
  | .pllLock .. => [.timebase, .retain]
  | .memRepair .. => [.memctl, .retain, .burim]
  | .burimTrain .. => blockKinds ++ [.timebase, .tsync, .inject, .thermal, .lamp, .retain, .mbox, .pd, .burim,
    .hoistCh, .session]
  | .fwVerify .. => blockKinds ++ [.tsync, .inject, .thermal, .lamp, .retain, .mbox, .pd, .hoistCh, .session]
  | .pcieLink .. => [.retain, .pcie]
  | .initialAssay .. => [.die, .mode, .tally, .assay, .retain, .mbox, .debug]
  | .bootStepTimeout .. => [.die, .mode, .timebase, .tally, .assay, .retain, .mbox, .debug]
  | .tlClear .. => busKinds ++ [.tally]
  | .pageFence .. | .fenceRelease .. => blockKinds ++ busKinds ++ [.tsync]
  | .dieFenced .. => blockKinds ++ busKinds ++ [.timebase, .tsync, .inject, .thermal, .lamp, .memctl, .mbox, .pd,
    .hoistCh, .injectLock]
  | .completionTimeout .. => blockKinds ++ [.tsync, .pcie, .hoistCh]
  | .flitReceive .. => [.inject, .burim]
  | .burimRetrain .. => [.burim]
  | .burimRetrainDone .. => blockKinds ++ [.timebase, .tsync, .inject, .thermal, .lamp, .mbox, .pd, .burim,
    .hoistCh, .session]
  | .upstreamCodeErrors .. => jetKinds ++ [.mbox]

/-- The page a command names. -/
def pageOperand : Instr → Option Pg
  | .enWrite _ p _ => some p
  | .blockStarted p => some p
  | .shutdownComplete p => some p
  | .softReset _ p => some p
  | .evtLatWrite _ p _ => some p
  | .evtEnWrite _ p _ => some p
  | .evtSetWrite _ p _ => some p
  | .evtVecWrite _ p _ => some p
  | .errInfoClear _ p => some p
  | .commitGo _ p _ => some p
  | .commitCancel _ p => some p
  | .handOver p => some p
  | .wideLWrite _ p _ _ => some p
  | .pageFence _ p => some p
  | .fenceRelease _ p _ => some p
  | .releaseComplete p => some p
  | .wideLRead _ (.reg p _) _ => some p
  | _ => none

/-- The parts of the state that a command may change. -/
def mayTouch : Instr → List Engine
  | .modeReqWrite .. => busEngines ++ [.free, .pkg]
  | .modeLeadWrite .. | .evtLatWrite .. | .evtEnWrite .. | .evtSetWrite .. | .evtVecWrite .. | .errInfoClear .. |
    .sweepAbort .. | .tabRead .. | .tlClear .. => busEngines
  | .modeChanged => jetEngines ++ [.encs, .seamQ, .axes, .assays, .mboxes, .pkg]
  | .modeMirrorArrive .. | .wrap .. | .statusStale .. | .sessionTimeout .. | .backoffEnd .. => [.dies, .pcie]
  | .modeClockSettled | .unlockResp .. | .dbgClose .. | .trstLow .. => [.dies, .pkg, .pcie]
  | .registerWrite .. | .wideLWrite .. => fenceEngines ++ [.gos, .hold, .ticks, .mem, .ecc, .ret, .retEcc, .seamQ,
    .mems, .cqSeq, .therms, .mboxes, .fws, .pkg, .resp]
  | .unsupportedRequest .. => [.pcie, .resp]
  | .enWrite .. => jetEngines ++ [.fences, .encs, .pds, .seamQ, .msgs, .axes, .hoists, .cqWait, .assays, .mboxes,
    .fws, .tsync, .hops, .pkg, .resp]
  | .blockStarted .. => jetEngines ++ [.fences, .encs, .pds, .seamQ, .msgs, .axes, .hoists, .cqWait, .assays,
    .mboxes, .fws, .tsync, .hops, .pkg]
  | .shutdownComplete .. | .handOver .. | .pllUnlock .. | .pllRelockRelease .. | .timeFlitExchange .. |
    .timeSourceSwitch .. | .timeSkewRelease .. | .encCount .. | .index .. | .serialFrameStart .. |
    .serialFrameEnd .. | .serialTimeout .. | .trainAttemptTimeout .. | .currentLoopTick .. | .bridgeFault .. |
    .profileTick .. | .switchInputEdge .. | .swEdge .. | .hoistMove .. | .hoistLoop .. | .hoistWait .. |
    .waitTimeout .. | .hoistSignal .. | .hoistSeta .. | .hoistAdda .. | .hoistNop .. | .hoistEnd .. |
    .hoistWatchdog .. | .critical .. | .flr | .conventionalReset | .extest .. | .clamp .. | .highz .. |
    .extestPulse .. | .extestTrain .. | .releaseComplete .. | .watchdog .. | .completionTimeout .. => fenceEngines
    ++ [.hold, .ecc, .seamQ, .mems, .cqSeq, .therms, .mboxes, .fws, .pkg]
  | .softReset .. | .pageFence .. | .fenceRelease .. | .dieFenced .. => fenceEngines ++ [.hold, .ecc, .seamQ, .mems,
    .cqSeq, .therms, .mboxes, .fws, .pkg, .resp]
  | .commitGo .. | .commitCancel .. | .ctxCommitGo .. => busEngines ++ [.gos]
  | .wideLRead .. => fenceEngines ++ [.hold, .caps, .ecc, .retEcc, .seamQ, .mems, .cqSeq, .therms, .mboxes, .fws,
    .pkg, .resp]
  | .xtalCompUpdate .. => [.free, .tsync, .dies, .pkg, .pcie]
  | .xtalFail => [.assays, .pkg, .pcie]
  | .secEdge => [.assays, .lamps, .dies, .pkg, .pcie]
  | .tsyncFrameSend | .tsyncHoldover => [.tsync, .dies, .pcie]
  | .tsyncFrameReceive .. => [.tsync, .pkg, .pcie]
  | .stepApplied => [.encs, .tsync, .dies, .pcie]
  | .speedWindow .. | .periodSpeedLimit .. => [.free, .encs, .dies, .pcie]
  | .speedStopped .. => [.free, .dies, .pcie]
  | .latchSw .. => busEngines ++ [.free, .chutes, .encs, .trigs]
  | .latchPeriodic .. => [.free, .chutes, .encs, .trigs, .dies, .pcie]
  | .estimatorUpdate .. => [.free, .encs, .pds, .msgs, .hops, .dies, .pcie]
  | .remoteEstimateReceive .. => [.encs, .pds, .msgs, .hops, .pcie]
  | .remoteSourceLost .. => [.encs, .msgs, .hops, .dies, .pcie]
  | .product .. => [.free, .chutes, .encs, .pds, .msgs, .trigs, .dies, .pcie]
  | .pdLockoutEnd .. => [.pds, .dies, .pcie]
  | .estimateArrival .. => [.ctxs, .ports, .encs, .msgs, .dies, .pcie]
  | .positionStep .. | .sourceLost .. => jetEngines ++ [.encs, .seamQ, .msgs]
  | .pdEdgeArrival .. => jetEngines ++ [.seamQ, .msgs]
  | .ctxArm .. | .ctxDisarm .. | .ctxStart .. | .ctxPause .. | .ctxDrain .. | .ctxAbort .. | .ctxFlush .. |
    .ctxRelease .. => jetEngines ++ [.seamQ, .resp]
  | .ctxResume .. => jetEngines ++ [.free, .mem, .seamQ, .resp]
  | .chuteFlushScan .. => [.chutes, .trigs, .pcie]
  | .ctxFence .. => busEngines ++ [.chutes, .ctxs, .ports, .seamQ, .echos, .trigs]
  | .followerRejoin .. | .blockAccept .. | .lineBuild .. | .seamCreditReturn .. => jetEngines ++ [.free, .mem,
    .seamQ]
  | .descriptorWrite .. | .memWindowWrite .. => busEngines ++ [.mem, .ecc, .chutes, .mems, .trigs]
  | .ctxHandOver .. | .drainComplete .. | .stall .. | .nozzleMapLoadDone .. => jetEngines ++ [.seamQ]
  | .lineBind .. => jetEngines ++ [.free, .mem, .seamQ, .assays]
  | .lineFreeze .. => [.ctxs, .ports, .dies, .pcie]
  | .cycleFire .. => jetEngines ++ [.free, .seamQ, .therms]
  | .seamShareReceive .. => [.mem, .ecc, .ctxs, .seamQ, .pcie]
  | .wfLoadStart .. => busEngines ++ [.ports]
  | .wfLoadCopy .. => [.ecc, .chutes, .ports, .mems, .trigs, .dies, .pcie]
  | .wfLoadHead .. | .loadDone .. => [.ports, .pcie]
  | .heaterUpdate .. => [.ports, .dies, .pcie]
  | .echoResult .. => [.free, .mem, .ecc, .chutes, .ctxs, .echos, .mems, .trigs, .dies, .pcie]
  | .sweepStart .. => busEngines ++ [.echos]
  | .setState .. | .setTrim .. | .clearHist .. | .refInvalid .. | .refValid .. | .lockTrim .. => busEngines ++
    [.mem, .ecc, .chutes, .ctxs, .mems, .trigs]
  | .linkDiscovery .. | .linkUp .. => [.ports, .mboxes, .pcie]
  | .discoveryRepeat .. => [.ports, .mboxes, .dies, .pcie]
  | .frameSend .. | .ackTimeout .. | .upstreamCodeErrors .. => jetEngines ++ [.seamQ, .mboxes]
  | .ackReceive .. | .statusReceive .. => jetEngines ++ [.seamQ, .therms]
  | .stepInput .. => [.axes, .pcie]
  | .axEnableDone .. => [.axes, .dies, .pcie]
  | .axMove .. | .axStop .. | .axResume .. | .axHome .. | .axLoad .. | .axClear .. | .axCut .. => busEngines ++
    [.axes]
  | .hcStart .. | .hcCancel .. | .hcHold .. | .hcResume .. | .hcAbort .. => busEngines ++ [.chutes, .hoists, .trigs,
    .cqWait]
  | .hoistTrigger .. => [.trigs, .pcie]
  | .runStart .. => [.hoists, .pcie]
  | .waitSatisfied .. => [.hoists, .dies, .pcie]
  | .burstStart .. => [.chutes, .hoists, .served, .trigs, .dies, .pcie]
  | .burstWritten .. | .dbgAccess .. => fenceEngines ++ [.gos, .hold, .ticks, .caps, .mem, .ecc, .ret, .retEcc,
    .seamQ, .mems, .cqSeq, .therms, .mboxes, .fws, .pkg, .resp]
  | .globalTimerFire .. => [.hoists, .trigs, .tmrs, .dies, .pcie]
  | .cqRecordWrite .. => [.hoists, .trigs, .cqWait, .cqSeq, .pcie]
  | .cqSizeWrite .. | .cqConsWrite .. | .guardWrite .. | .ijlAllowWrite .. => busEngines ++ [.hold, .ticks]
  | .chutePush .. => busEngines ++ [.chutes, .trigs]
  | .chutePop .. => busEngines ++ [.free, .caps, .ecc, .chutes, .mems, .trigs]
  | .memWindowRead .. => busEngines ++ [.ecc, .chutes, .mems, .trigs]
  | .memtestRegionStart .. => [.mems, .dies, .pcie]
  | .memtestPhaseDone .. => [.ecc, .chutes, .mems, .trigs, .dies, .pcie]
  | .repairMapSave .. => [.free, .ret, .retEcc, .mems]
  | .retDataWrite .. => busEngines ++ [.mems]
  | .retDataRead .. => busEngines ++ [.caps, .retEcc]
  | .retWordWritten .. => [.ret, .retEcc, .mems]
  | .asRequest .. | .asSave .. | .asRestore .. | .asCancel .. | .tabWrite .. | .tabClear .. => busEngines ++
    [.assays]
  | .saved .. | .cleared .. => [.ret, .retEcc, .pcie]
  | .restored .. | .runDone .. => [.assays, .pcie]
  | .assayRunStart .. => [.assays]
  | .assayTakeover .. | .assayMeasureStart .. | .assayMeasureEnd .. => [.assays, .dies, .pcie]
  | .tempUpdate .. => [.chutes, .ports, .trigs, .assays, .therms, .lamps, .dies, .pkg, .pcie]
  | .thermistorSample .. => [.free, .chutes, .ports, .trigs, .therms, .dies, .pcie]
  | .warnClear .. => [.chutes, .ctxs, .ports, .trigs, .therms, .mboxes, .dies, .pkg, .pcie]
  | .graceExpiry .. => [.chutes, .ctxs, .ports, .seamQ, .echos, .trigs, .therms, .mboxes, .dies, .pkg, .pcie]
  | .lampMeasure .. => [.lamps]
  | .lampMeasureCmd .. => busEngines ++ [.lamps]
  | .measured .. => [.free, .chutes, .trigs, .assays, .lamps, .mboxes, .dies, .pcie]
  | .calintExpiry .. => [.assays, .lamps]
  | .histWritten .. => [.free, .ret, .retEcc, .lamps, .pcie]
  | .histClear .. => busEngines ++ [.ret, .retEcc]
  | .mailboxPost .. | .noticeAck .. => busEngines ++ [.mboxes]
  | .mailboxTake .. | .fwStarted .. | .outFull .. => [.mboxes, .pcie]
  | .inDone .. | .fwRestart .. | .fwWatchdogRestart .. => [.mboxes, .fws, .pcie]
  | .getInfo .. | .ping .. | .sbRead .. | .sbWrite .. => [.mboxes]
  | .headDiscover .. | .abortLong .. => [.ports, .mboxes, .fws, .pcie]
  | .captureRef .. => [.echos, .mboxes, .fws]
  | .assayRequest .. => [.assays, .mboxes, .fws]
  | .tallyClear .. => [.ret, .retEcc, .mboxes, .pcie]
  | .lifecycleAdvance .. => [.mboxes, .dies, .pkg, .pcie]
  | .longCmdTimeout .. => [.ports, .mboxes, .fws, .dies, .pcie]
  | .inStuck .. => [.free, .mboxes, .dies, .pcie]
  | .outStuck .. => [.mboxes, .dies, .pcie]
  | .sessionStart .. | .sessionCheck .. | .sessionClose .. => busEngines ++ [.free]
  | .samplePreload .. | .bypass .. => [.dies]
  | .idcode .. | .dbgStatus .. => [.dies, .resp]
  | .unlockChal .. => [.free, .dies, .resp]
  | .dbgCtrlClose .. => busEngines ++ [.pkg]
  | .dormantEntry => jetEngines ++ [.free, .ret, .retEcc, .encs, .seamQ, .axes, .assays, .mboxes, .tsync, .pkg]
  | .vinOff | .vinBrownout => jetEngines ++ [.gos, .hold, .ticks, .caps, .fences, .mem, .encs, .pds, .seamQ, .msgs,
    .axes, .hoists, .served, .tmrs, .cqWait, .cqSeq, .assays, .therms, .lamps, .mboxes, .fws, .tsync, .burims,
    .hops, .pkg]
  | .wakePin .. | .wakeAlarm | .vaonApplied => [.pkg]
  | .vaonReset => [.tsync, .pkg]
  | .powerGood .. => fenceEngines ++ [.gos, .hold, .ticks, .caps, .mem, .ecc, .seamQ, .mems, .served, .tmrs, .cqSeq,
    .therms, .mboxes, .fws, .burims, .pkg]
  | .fuseRead .. | .burimTrain .. | .fwVerify .. => fenceEngines ++ [.hold, .ecc, .ret, .retEcc, .seamQ, .mems,
    .cqSeq, .therms, .mboxes, .fws, .pkg]
  | .crystal => [.free, .ret, .retEcc, .assays, .dies, .pkg, .pcie]
  | .pllLock .. => [.free, .ret, .retEcc, .dies, .pkg, .pcie]
  | .memRepair .. => [.free, .mem, .ecc, .ret, .retEcc, .mems, .dies]
  | .pcieLink .. => [.free, .ret, .retEcc, .assays, .dies, .pcie]
  | .initialAssay .. | .bootStepTimeout .. => [.free, .mem, .ecc, .ret, .retEcc, .ctxs, .mboxes, .dies, .pkg, .pcie]
  | .bootRestart => jetEngines ++ [.gos, .hold, .ticks, .caps, .fences, .mem, .ret, .retEcc, .encs, .pds, .seamQ,
    .msgs, .axes, .hoists, .served, .tmrs, .cqWait, .cqSeq, .assays, .therms, .lamps, .mboxes, .fws, .tsync,
    .burims, .hops, .pkg]
  | .msixPendingSend .. | .pcieLinkUp .. | .pcieLinkDown .. => [.pcie]
  | .flitReceive .. => [.burims, .dies, .pcie]
  | .nakReceive .. | .burimRetrain .. => [.burims, .pcie]
  | .burimRetrainDone .. => fenceEngines ++ [.hold, .ecc, .seamQ, .mems, .cqSeq, .therms, .mboxes, .fws, .burims,
    .pkg]
  | .dormantSecondsEdge => [.free, .dies, .pkg, .pcie]
  | .busMasterEnable => [.chutes, .hoists, .trigs, .cqWait, .cqSeq, .pcie]

end Sys2Proof.Machine
end

