-- ==== Sys2Proof/Certificates/Slice0/Obligations.lean ====
section
/-!
DEFINITION. Statements about the model, one per obligation, for the provers.
-/
namespace Sys2Proof.Machine

/-- The command completes, in a state with the property `P`. -/
def Completes (i : Instr) (s : State) (P : State → Prop) : Prop := ∃ t, exec i s = .next t ∧ P t

/-- A write of a register is taken: the part is supplied, and no check turns the access away (R39, R42, R53, R54, R58,
R381, R383). -/
abbrev Taken (s : State) (r : Req) (p : Pg) (off : Nat) : Prop := powered s = true ∧ verdict s r p off true = .pass

/-- A read of a register is taken. -/
abbrev TakenRead (s : State) (r : Req) (p : Pg) (off : Nat) : Prop := powered s = true ∧ verdict s r p off false = .pass

/-- A command to a context of the die is taken, no word of memory is poisoned, and no scope is enforced (R145, R311,
R346). -/
abbrev CtxTaken (s : State) (r : Req) (d k : Nat) : Prop :=
  Taken s r (pgCtx d) Off.CTX_CMD ∧ k < nCtx s ∧ s.ecc = [] ∧ ∀ o, (scope s d o).stage ≠ 3

/-- The result of the last context command (R145). -/
abbrev ctxResultOf (s : State) (d : Nat) : Nat := rf s (pgCtx d) Off.CTX_CMD_STAT 16 8

/-- A nozzle command is taken and names entry `i` of a context with a table in the lode, none of it poisoned (R226). -/
abbrev NzTaken (s : State) (r : Req) (d i : Nat) : Prop :=
  Taken s r (pgEcho d) Off.NZ_CMD ∧ 2 ≤ modeOf s d ∧ s.ecc = [] ∧ rf s (pgEcho d) Off.NZ_SEL 16 8 < nCtx s ∧
    i = rf s (pgEcho d) Off.NZ_SEL 0 12 ∧ i ≤ (ctxRange s d (rf s (pgEcho d) Off.NZ_SEL 16 8)).2 ∧
    tableBad s d (rf s (pgEcho d) Off.NZ_SEL 16 8) = false

/-- Address of word `w` of the entry that a nozzle command names (R202). -/
abbrev nzWord (s : State) (d i w : Nat) : Nat :=
  lodeAddr d (af s d (rf s (pgEcho d) Off.NZ_SEL 16 8) 41 0 21 + 8 * i + w)

/-- Every byte of the lode and dual-port stores outside `n` bytes from address `a` reads as before. -/
abbrev OtherBytes (s t : State) (a n : Nat) : Prop := ∀ x, x < a ∨ a + n ≤ x → memGet t.mem x = memGet s.mem x

/-- The head port is one of the part (R1). -/
abbrev PortThere (s : State) (d p : Nat) : Prop := d < s.part.dies ∧ p < nPorts s ∧ present s (pgHp d p) = true

/-- The head port is one of the part, its link is UP, and the die is not in STANDBY (R232, R393). -/
abbrev PortUp (s : State) (d p : Nat) : Prop := PortThere s d p ∧ (port s d p).link = 3 ∧ 2 ≤ modeOf s d

/-- A Hoist channel is about to execute the instruction `ws`: its words stand in its program, none of them poisoned
(R271). -/
abbrev HoistDue (s : State) (d c : Nat) (ws : List Word) : Prop :=
  hcReady s d c = true ∧ s.ecc = [] ∧ opWords (fld (iw ws 0) 20 4) = some ws.length ∧
    ∀ i < ws.length, progWord s d c ((hoist s d c).pc + i) = true ∧
      rawWord s (wordAddr d true ((hoist s d c).pc + i)) = iw ws i

/-- The loop counter that a LOOP names is active (R277). -/
abbrev loopOn (x : HoistSt) (w : Word) : Bool := if bit w 19 then x.act1 else x.act0

/-- The value of that loop counter. -/
abbrev loopCount (x : HoistSt) (w : Word) : Nat := if bit w 19 then x.lc1 else x.lc0

/-- A write of `HC_CTRL` of a Hoist channel is taken. -/
abbrev HcTaken (s : State) (r : Req) (d c : Nat) : Prop := c < 32 ∧ Taken s r (pgHc d c) Off.HC_CTRL

/-- `HC_STAT.CSTATE` as the engine holds it, its code HALTED, with error `code` (R285). -/
abbrev Halted (t : State) (d c code : Nat) : Prop :=
  (hoist t d c).cs = 5 ∧ rf t (pgHc d c) Off.HC_ERR 0 8 = code ∧ rb t (pgHc d c) Off.EVT_LAT 3 = true

/-- An access of `n` bytes at an offset of die `d`'s window lies in one of its memories, and the die and its guard let
it through (R52, R53, R381). -/
abbrev MemTaken (s : State) (r : Req) (d off n : Nat) (write : Bool) : Prop :=
  powered s = true ∧ dieAnswers s r d = true ∧
    ∃ z, memZone off n = some z ∧ memPermits s r d z.1 write = true

/-- The access touches no word of a descriptor (R117). -/
abbrev OffDescr (s : State) (off : Nat) : Prop := 0x100000 + 192 * nCtx s ≤ off

/-- The commands that write what the fuses of a die hold (R374, R399). -/
def setsFuses : Instr → Bool
  | .lifecycleAdvance .. | .fuseRead .. => true
  | _ => false

/-- The commands in which a secure session or a debug session can open (R377, R386), those that write a register by its
address among them. -/
def opensSessions : Instr → Bool
  | .sessionCheck .. | .unlockResp .. | .initialAssay .. | .bootStepTimeout .. | .registerWrite .. | .wideLWrite .. |
    .dbgAccess .. | .burstWritten .. => true
  | _ => false

end Sys2Proof.Machine

open Sys2Proof Sys2Proof.Machine

/-- A step runs the command at the front of the queue (opcode_table.json, log entry 1). For every state whose
queue has the command c in front, a step is exec of c on the state with the rest of the queue. The queue is
the model's form (log entry 1), not a rule of the manual. -/
def Obligations.StepTakesFront : Prop :=
  ∀ (s : State) (c : Instr) (rest : List Instr), s.pending = c :: rest → step s = exec c { s with pending := rest }

/-- With no command waiting one tick passes (spec/03_timebase.md, log entry 2). For every state with an empty
queue a step completes and the clock advances by one tick. The counter of a die advances by one modulo 2^48 if
it counts and its PLL runs; if it counts without the PLL, in STANDBY or unlocked, it advances by 5 at the
clocks that 5 divides and else by 0; if it does not count it keeps its value. A counting counter that passes
2^48 - 1 latches WRAP of its TIMEBASE page. That an idle step is one tick, and that the crystal's edges lie at
the clocks that 5 divides, are the model's choices (log entry 2). -/
def Obligations.IdleTick : Prop :=
  ∀ s : State, s.pending = [] → ∃ t, step s = .next t ∧ t.clock = s.clock + 1 ∧ ∀ d < s.part.dies,
    (∀ g, g = (if pllOff s d then if (s.clock + 1) % 5 = 0 then 5 else 0 else 1) →
      now t d = (if (die s d).counting then (now s d + g) % 2 ^ 48 else now s d) ∧
      ((die s d).counting = true → 2 ^ 48 ≤ now s d + g → rb t (pgTb d) Off.EVT_LAT 3 = true))

/-- Registers, queue, interrupts and memories after reset (spec/00_scope.md, spec/02_register_pages.md, log entry
5). In the state after reset no command waits, no interrupt is pending, the memories list no byte, and every
register of every page, active copy and shadow copy, holds the word that the reset values of its fields make
(resetWord). After resetPage, the model's operation for the reset of a page, every register of that page holds
that word in both copies. -/
def Obligations.ResetValues : Prop :=
  State.reset.pending = [] ∧ State.reset.mem = [] ∧ State.reset.ret = [] ∧ State.reset.pcie.pba = [] ∧
    (∀ p off, rd State.reset p off = resetWord p off ∧ rdShadow State.reset p off = resetWord p off) ∧
    (∀ s p off, rd (resetPage s p) p off = resetWord p off ∧ rdShadow (resetPage s p) p off = resetWord p off)

/-- The memories after reset are in canonical form (spec/12_memory.md, log entry 7). The invariant Inv holds in
the state after reset: the listed bytes of the memories and of the retention store have rising addresses and
none is 0. -/
def Obligations.ResetInvariant : Prop :=
  Inv State.reset

/-- Every step keeps the memories in canonical form (spec/12_memory.md, log entry 7). For every state in which the
lode and dual-port bytes and the retention bytes stand in canonical form (addresses strictly rising, no byte 0
listed), whatever command a step takes, or none, the state after it has them in canonical form. -/
def Obligations.StepKeepsInvariant : Prop :=
  ∀ s t : State, Inv s → step s = .next t → Inv t

/-- Every command completes, and keeps the queue, the part and what has happened (opcode_table.json, log entry 3).
For every command and every state, exec answers a next state, never a fault or a refusal. In it the rest of
the queue and the part are unchanged, the clock has not gone back, and what had left the part stands at the
front of what has left it now. That a command without an effect completes is the model's form (log entry 3). -/
def Obligations.EveryCommandCompletes : Prop :=
  ∀ (i : Instr) (s : State), ∃ t, exec i s = .next t ∧ t.pending = s.pending ∧ t.part = s.part ∧ s.clock ≤ t.clock ∧
    s.out <+: t.out

/-- A command changes registers only of the pages it may write (spec/00_scope.md, spec/02_register_pages.md,
opcode_table.json). For every command, every state and every register page of a block type that mayWrite does
not list for the command, other than the page the command names (pageOperand), the command completes and every
register of that page, active and shadow copy, reads as before. -/
def Obligations.RegisterFrame : Prop :=
  ∀ (i : Instr) (s : State) (p : Pg), pgKind p ≠ .absent → pgKind p ∉ mayWrite i → pageOperand i ≠ some p →
    ∃ t, exec i s = .next t ∧ ∀ off, rd t p off = rd s p off ∧ rdShadow t p off = rdShadow s p off

/-- A command changes only the parts of the state listed for it (opcode_table.json, log entry 1). For every
command, every state and every part of the state (Engine) that mayTouch does not list for the command, the
command completes and that part is unchanged. The parts are every field of the state but the registers, the
queue, the clock, the part and what has left it. -/
def Obligations.EngineFrame : Prop :=
  ∀ (i : Instr) (s : State) (e : Engine), e ∉ mayTouch i → ∃ t, exec i s = .next t ∧ e.Same s t

/-- Writes of MODE_REQ and MODE_LEAD on every die (spec/01_architecture.md). MODE_REQ_WRITE, taken on die 0. If no
request is in transition, the mode is allowed, the mode prints or no context is active, and no active context
needs a rate above the mode's, the request is accepted: TRANSITION is 1, RESULT is ACCEPTED, REQ_CODE and the
next mode are the code, and MODE_SW_TS is the present tick plus 30,000,000 for DORMANT, else plus the lead
(modeLead). Otherwise the first check that fails gives the code 0x10, 0x11, 0x12 or 0x13 in RESULT, with
REQ_CODE the code; MODE_REFUSED counts, MODE_CUR, the next mode and the switch tick stay. MODE_LEAD_WRITE
taken on die 0 stores the value, raised to 500, and changes nothing else. Either write taken on another die
latches event 3 there and changes no register of die 0's page. -/
def Obligations.ModeRequests : Prop :=
  (∀ (s : State) (r : Req) (v : Word), Taken s r (pgMode 0) Off.MODE_REQ → inTransition s = false →
    bit (rd s (pgMode 0) Off.MODE_ALLOWED) (fld v 0 3) = true → (∀ c ∈ activeRates s, c ≤ modeMax (fld v 0 3)) →
    (modeMax (fld v 0 3) = 0 → activeRates s = []) →
    Completes (.modeReqWrite r 0 v) s fun t =>
      rb t (pgMode 0) Off.MODE_CUR 8 = true ∧ rf t (pgMode 0) Off.MODE_STAT 0 8 = 1 ∧
      rf t (pgMode 0) Off.MODE_STAT 8 3 = fld v 0 3 ∧ t.pkg.nextMode = fld v 0 3 ∧
      rd48 t (pgMode 0) Off.MODE_SW_TS_L =
        (now s 0 + if fld v 0 3 = 0 then 30000000 else modeLead s (fld v 0 3)) % 2 ^ 48) ∧
  (∀ (s : State) (r : Req) (v : Word) (n : Nat), Taken s r (pgMode 0) Off.MODE_REQ →
    n = (if inTransition s then 0x10 else if !bit (rd s (pgMode 0) Off.MODE_ALLOWED) (fld v 0 3) then 0x11
      else if modeMax (fld v 0 3) = 0 ∧ activeRates s ≠ [] then 0x12
      else if ∃ c ∈ activeRates s, modeMax (fld v 0 3) < c then 0x13 else 0) → n ≠ 0 →
    Completes (.modeReqWrite r 0 v) s fun t =>
      rf t (pgMode 0) Off.MODE_STAT 0 8 = n ∧ rf t (pgMode 0) Off.MODE_STAT 8 3 = fld v 0 3 ∧
      rd t (pgMode 0) Off.MODE_REFUSED = inc24 (rd s (pgMode 0) Off.MODE_REFUSED) ∧
      rd t (pgMode 0) Off.MODE_CUR = rd s (pgMode 0) Off.MODE_CUR ∧ t.pkg.nextMode = s.pkg.nextMode ∧
      rd48 t (pgMode 0) Off.MODE_SW_TS_L = rd48 s (pgMode 0) Off.MODE_SW_TS_L) ∧
  (∀ (s : State) (r : Req) (v : Word), Taken s r (pgMode 0) Off.MODE_LEAD →
    exec (.modeLeadWrite r 0 v) s = .next (wf s (pgMode 0) Off.MODE_LEAD 0 16 (max 500 (fld v 0 16)))) ∧
  (∀ (s : State) (r : Req) (d : Nat) (v : Word), 0 < d → Taken s r (pgMode d) Off.MODE_REQ →
    Completes (.modeReqWrite r d v) s fun t => rb t (pgMode d) Off.EVT_LAT 3 = true ∧ rd t (pgMode 0) = rd s (pgMode 0)) ∧
  (∀ (s : State) (r : Req) (d : Nat) (v : Word), 0 < d → Taken s r (pgMode d) Off.MODE_LEAD →
    Completes (.modeLeadWrite r d v) s fun t => rb t (pgMode d) Off.EVT_LAT 3 = true ∧ rd t (pgMode 0) = rd s (pgMode 0))

/-- A mode switch, its mirrors and the settling of its clocks (spec/01_architecture.md). MODE_CHANGED with a
request in transition for a mode from 1 to 7, die 0 not isolated: RESULT reads DONE, and every die that is not
isolated has the code in MODE_CUR.MODE, the mode it leaves in PREV, and TRANSITION 0. MODE_MIRROR_ARRIVE on
another die than die 0 gives that die's page the values of die 0's REQ, STAT, ALLOWED, LEAD, SW_TS and REFUSED
registers and its TRANSITION bit, and leaves die 0's page as it was. MODE_CLOCK_SETTLED, with a settling time
set, has the clock at that time or later and no settling time left. -/
def Obligations.ModeSwitch : Prop :=
  (∀ s : State, inTransition s = true → s.pkg.nextMode ≠ 0 → s.pkg.nextMode < 8 → isolated s 0 = false →
    Completes .modeChanged s fun t =>
      rf t (pgMode 0) Off.MODE_STAT 0 8 = 2 ∧
      ∀ d < s.part.dies, isolated s d = false → rf t (pgMode d) Off.MODE_CUR 0 3 = s.pkg.nextMode ∧
        rf t (pgMode d) Off.MODE_CUR 4 3 = modeOf s d ∧ rb t (pgMode d) Off.MODE_CUR 8 = false) ∧
  (∀ (s : State) (d : Nat), 0 < d → d < s.part.dies →
    Completes (.modeMirrorArrive d) s fun t =>
      (∀ o ∈ modeMirrored, rd t (pgMode d) o = rd s (pgMode 0) o) ∧ rb t (pgMode d) Off.MODE_CUR 8 = inTransition s ∧
      rd t (pgMode 0) = rd s (pgMode 0)) ∧
  (∀ s : State, s.pkg.settleAt ≠ 0 →
    Completes .modeClockSettled s fun t => t.pkg.settleAt = 0 ∧ s.pkg.settleAt ≤ t.clock)

/-- Writes of the event registers and of ERR_INFO (spec/02_register_pages.md). EVT_LAT_WRITE, EVT_EN_WRITE,
EVT_SET_WRITE, EVT_VEC_WRITE and ERR_INFO_CLEAR, taken on any page. A write to EVT_LAT clears the bits written
as 1, but for those held at level; EVT_EN takes the event bits the page has; EVT_SET latches bits as if the
events had occurred, and the message of the summary leaves when it rises and the vector is open; VECTOR is
taken from 96 on a secure page and below 96 on another, else the field keeps its value; ERR_INFO loses VALID
and OVF and keeps its other fields. Every register but the one written, of every page, reads as before. -/
def Obligations.EventWrites : Prop :=
  (∀ (s : State) (r : Req) (p : Pg) (v : Word), Taken s r p Off.EVT_LAT → Completes (.evtLatWrite r p v) s fun t =>
    rd t p Off.EVT_LAT = (rd s p Off.EVT_LAT &&& ~~~ v) ||| (rd s p Off.EVT_DYN &&& rd s p Off.EVT_LVL) ∧
    ∀ q o, (q, o) ≠ (p, Off.EVT_LAT) → rd t q o = rd s q o) ∧
  (∀ (s : State) (r : Req) (p : Pg) (v : Word), Taken s r p Off.EVT_EN → Completes (.evtEnWrite r p v) s fun t =>
    rd t p Off.EVT_EN = evtMask p v ∧ ∀ q o, (q, o) ≠ (p, Off.EVT_EN) → rd t q o = rd s q o) ∧
  (∀ (s : State) (r : Req) (p : Pg) (v : Word), Taken s r p Off.EVT_SET → Completes (.evtSetWrite r p v) s fun t =>
    rd t p Off.EVT_LAT = rd s p Off.EVT_LAT ||| evtMask p v ∧
    (∀ q o, (q, o) ≠ (p, Off.EVT_LAT) → rd t q o = rd s q o) ∧
    (summary s p = false → summary t p = true → isolated s p.die = false → msixOpen s (rf s p Off.EVT_VEC 0 7) = true →
      t.out = s.out ++ [.msix (rf s p Off.EVT_VEC 0 7)])) ∧
  (∀ (s : State) (r : Req) (p : Pg) (v : Word), Taken s r p Off.EVT_VEC → Completes (.evtVecWrite r p v) s fun t =>
    rd t p Off.EVT_VEC = (if p.sec = decide (96 ≤ fld v 0 7) then word (fld v 0 7) else rd s p Off.EVT_VEC) ∧
    ∀ q o, (q, o) ≠ (p, Off.EVT_VEC) → rd t q o = rd s q o) ∧
  (∀ (s : State) (r : Req) (p : Pg), Taken s r p Off.ERR_INFO → Completes (.errInfoClear r p) s fun t =>
    rd t p Off.ERR_INFO = setBit (setBit (rd s p Off.ERR_INFO) 23 false) 22 false ∧
    ∀ q o, (q, o) ≠ (p, Off.ERR_INFO) → rd t q o = rd s q o)

/-- A 32-bit register write that is turned away has no effect but its error report (spec/02_register_pages.md,
spec/16_security_debug_power.md, spec/18_host_and_die_links.md, log entry 8). REGISTER_WRITE of 32 bits to an
aligned offset of a page. Without supply it changes nothing. Poisoned, on a supplied part, it has only the
effect of poisonRx, and CNT_POISON_RX counts. Not poisoned, on a supplied part, by the verdict of the access
checks: on an absent page nothing changes; a fenced block register has the error logged with code 3, and a
requester other than a host is answered with an error; a page that shuts down has it logged with code 2; a
locked secure page with code 4; a denied access counts in GD_DENIED, and every register of every page but the
one addressed and the die's GUARD page is as before; a host's write that no page answers counts in CNT_UR, and
every register of every page but PCIE is as before. Logging (logErr) into an ERR_INFO without VALID stores the
code and sets VALID; into one with VALID it sets OVF and keeps the code. -/
def Obligations.RefusedWrites : Prop :=
  (∀ (s : State) (r : Req) (p : Pg) (off v : Nat) (b : Bool), powered s = false →
    exec (.registerWrite r (.reg p off) ⟨4, true, b⟩ v) s = .next s) ∧
  (∀ (s : State) (r : Req) (p : Pg) (off v : Nat), off < 0x1000 → powered s = true →
    exec (.registerWrite r (.reg p off) ⟨4, true, true⟩ v) s = .next (poisonRx s) ∧
    rd (poisonRx s) pgPcie Off.CNT_POISON_RX = inc24 (rd s pgPcie Off.CNT_POISON_RX)) ∧
  (∀ (s : State) (r : Req) (p : Pg) (off v : Nat), off < 0x1000 → off % 4 = 0 → powered s = true →
    (verdict s r p off true = .absent → exec (.registerWrite r (.reg p off) ⟨4, true, false⟩ v) s = .next s) ∧
    (verdict s r p off true = .fenced →
      exec (.registerWrite r (.reg p off) ⟨4, true, false⟩ v) s =
        .next { logErr s ⟨clsOn r p, r.rid⟩ p off true 3 with resp := if isHost r then s.resp else .error }) ∧
    (verdict s r p off true = .busy →
      exec (.registerWrite r (.reg p off) ⟨4, true, false⟩ v) s = .next (logErr s ⟨clsOn r p, r.rid⟩ p off true 2)) ∧
    (verdict s r p off true = .locked →
      exec (.registerWrite r (.reg p off) ⟨4, true, false⟩ v) s = .next (logErr s ⟨clsOn r p, r.rid⟩ p off true 4)) ∧
    (verdict s r p off true = .denied → Completes (.registerWrite r (.reg p off) ⟨4, true, false⟩ v) s fun t =>
      rd t (pgGuard p.die) Off.GD_DENIED = inc24 (rd s (pgGuard p.die) Off.GD_DENIED) ∧
      ∀ q, q ≠ p → q ≠ pgGuard p.die → ∀ o, rd t q o = rd s q o) ∧
    (verdict s r p off true = .unsupported → isHost r = true → Completes (.registerWrite r (.reg p off) ⟨4, true, false⟩ v) s fun t =>
      rd t pgPcie Off.CNT_UR = inc24 (rd s pgPcie Off.CNT_UR) ∧ ∀ q, q ≠ pgPcie → ∀ o, rd t q o = rd s q o)) ∧
  (∀ (s : State) (r : Req) (p : Pg) (off n : Nat), n < 256 →
    (rb s p Off.ERR_INFO 23 = false → rf (logErr s r p off true n) p Off.ERR_INFO 8 8 = n ∧
      rb (logErr s r p off true n) p Off.ERR_INFO 23 = true) ∧
    (rb s p Off.ERR_INFO 23 = true → rf (logErr s r p off true n) p Off.ERR_INFO 8 8 = rf s p Off.ERR_INFO 8 8 ∧
      rb (logErr s r p off true n) p Off.ERR_INFO 22 = true))

/-- Plain and wide register writes, short reads, accesses to BAR4 and the BAR registers, and unsupported requests
(spec/02_register_pages.md, spec/18_host_and_die_links.md, log entry 8). For a register that was not written
before in the same tick. REGISTER_WRITE, taken, of 32 bits of a plain read-write register (RW, no further
parts) from 0x40 of a THERMAL, MEMCTL, PD, SEAM, BURIM, PCIE or TALLY page, other than TL_CLEAR, changes
exactly that register, by the merge of its writable bits, beside the note of the tick's writes. The same of a
shadowed register (RWS, no further parts) of a THERMAL, PD or SEAM page changes exactly its shadow copy; while
GO is 1 it is logged with code 5 and changes no register but ERR_INFO and ERR_ADDR. WIDE_L_WRITE, taken, of a
writable low part that the page neither ignores nor locks, GO being 0 for a shadowed one, stores the value in
the low part and the held value, merged by its writable bits, in each further part: in the registers of RW
parts, in the shadow copies of RWS parts. WIDE_L_READ of 1 to 3 bytes within an aligned location answers those
bytes of the full read's answer. WIDE_L_READ of the MSI-X table, of the pending bit array or of configuration
space by a host of a supplied part answers the word's four bytes and changes nothing else. REGISTER_WRITE, not
poisoned, by such a host: a 32-bit aligned write of a word of the MSI-X table reads back as its 32 bits, and a
write of a BAR register (configuration fields 4 to 9) reads back as its address bits, with bit 2 set in the
even ones, which are 64-bit BARs. UNSUPPORTED_REQUEST by a host of a supplied part, to an offset where nothing
is, counts in CNT_UR, answers a read with Unsupported Request and, if the PCIE page is present, latches its
event 3. -/
def Obligations.PlainAccess : Prop :=
  (∀ (s : State) (r : Req) (p : Pg) (off : Nat) (row : RegRow) (v : Nat),
    pgKind p ∈ [.thermal, .memctl, .pd, .seam, .burim, .pcie, .tally] → p.sec = false → off ≠ Off.TL_CLEAR →
    0x40 ≤ off → off < 0x1000 → off % 4 = 0 → regRow p off = some row → row.acc = .rw → row.upper = false → row.ups = 0 →
    Taken s r p off → (∀ x ∈ s.ticks, x.clock ≠ s.clock) →
    Completes (.registerWrite r (.reg p off) ⟨4, true, false⟩ v) s fun t =>
      t = { wr s p off (merge row (rd s p off) (word v)) with ticks := t.ticks }) ∧
  (∀ (s : State) (r : Req) (p : Pg) (off : Nat) (row : RegRow) (v : Nat),
    pgKind p ∈ [.thermal, .pd, .seam] → p.sec = false → 0x40 ≤ off → off < 0x1000 → off % 4 = 0 → regRow p off = some row →
    row.acc = .rws → row.upper = false → row.ups = 0 → Taken s r p off → (∀ x ∈ s.ticks, x.clock ≠ s.clock) →
    Completes (.registerWrite r (.reg p off) ⟨4, true, false⟩ v) s fun t =>
      (goSet s p = true → t = logErr s ⟨clsOn r p, r.rid⟩ p off true 5) ∧
      (goSet s p = false → t = { wrShadow s p off (merge row (rdShadow s p off) (word v)) with ticks := t.ticks })) ∧
  (∀ (s : State) (r : Req) (p : Pg) (off : Nat) (row : RegRow) (v : Word),
    off < 0x1000 → off % 4 = 0 → regRow p off = some row → 0 < row.ups → row.upper = false → regIgnored s p off = false →
    regLocked s p off v = none → Taken s r p off → (∀ x ∈ s.ticks, x.clock ≠ s.clock) →
    Completes (.wideLWrite r p off v) s fun t =>
      (row.acc = .rw → rd t p off = v ∧ ∀ i < row.ups, ∀ rowH, regRow p (off + 4 * (i + 1)) = some rowH →
        rd t p (off + 4 * (i + 1)) = merge rowH (rd s p (off + 4 * (i + 1))) (heldUpper s p (off + 4 * (i + 1)))) ∧
      (row.acc = .rws → goSet s p = false → rdShadow t p off = v ∧ ∀ i < row.ups, ∀ rowH, regRow p (off + 4 * (i + 1)) = some rowH →
        rdShadow t p (off + 4 * (i + 1)) =
          merge rowH (rdShadow s p (off + 4 * (i + 1))) (heldUpper s p (off + 4 * (i + 1))))) ∧
  (∀ (s : State) (r : Req) (p : Pg) (off k n tag : Nat) (w : Word), off < 0x1000 → off % 4 = 0 → 0 < n → k + n ≤ 4 → n < 4 →
    (regRead s r p off).resp = .data tag w →
    exec (.wideLRead r (.reg p (off + k)) n) s = .next { regRead s r p off with
      resp := .bytes (((wordBytes w ++ [BitVec.ofNat 8 tag]).drop k).take n) false }) ∧
  (∀ (s : State) (r : Req) (n : Nat), powered s = true → isHost r = true →
    (∀ v < 128, ∀ dw < 4, exec (.wideLRead r (.msixTable v dw) n) s =
      .next { s with resp := .bytes (dwordBytes (msixTableRead s v dw)) false }) ∧
    (∀ i < 4, exec (.wideLRead r (.pba i) n) s = .next { s with resp := .bytes (dwordBytes (pbaRead s i)) false }) ∧
    (∀ f, exec (.wideLRead r (.config f) n) s = .next { s with resp := .bytes (dwordBytes (configRead s f)) false })) ∧
  (∀ (s : State) (r : Req) (x : Nat), powered s = true → isHost r = true →
    (∀ v < 128, ∀ dw < 4, Completes (.registerWrite r (.msixTable v dw) ⟨4, true, false⟩ x) s fun t =>
      msixTableRead t v dw = x % 2 ^ 32) ∧
    (∀ f, 4 ≤ f → f < 10 → Completes (.registerWrite r (.config f) ⟨4, true, false⟩ x) s fun t =>
      configRead t f = (x &&& barMask (f - 4)) + if f % 2 = 0 then 4 else 0)) ∧
  (∀ (s : State) (r : Req) (bar off : Nat) (write : Bool), powered s = true → isHost r = true → nothingThere s bar off = true →
    Completes (.unsupportedRequest r bar off write) s fun t =>
      rd t pgPcie Off.CNT_UR = inc24 (rd s pgPcie Off.CNT_UR) ∧
      t.resp = (if write then s.resp else .unsupported) ∧
      (present s pgPcie = true → rb t pgPcie Off.EVT_LAT 3 = true))

/-- The life of a page: start, shut-down, restart and soft reset (spec/02_register_pages.md, log entry 21).
EN_WRITE, SOFT_RESET, BLOCK_STARTED and SHUTDOWN_COMPLETE. EN := 1 takes a page that is OFF to STARTING; EN :=
0 takes one that is RUNNING to SHUTTING; EN := 1 during SHUTTING makes it RESTART_PENDING, and EN := 0 then
takes it back to SHUTTING; a page whose EN is fixed ignores a write of it, CHUTE_21 to CHUTE_23 too, and a
page of a kind with EN fixed at 1 ignores SOFT_RESET. SOFT_RESET takes a RUNNING page whose EN is not fixed to
SHUTTING with the reset in progress, and gives the registers of one that is OFF their reset values (said for
the block types without registers that their engine keeps). A block whose start-up can complete becomes
RUNNING if EN is 1. A block with nothing left to wait for becomes OFF from SHUTTING, and starts again from
RESTART_PENDING. -/
def Obligations.PageLife : Prop :=
  (∀ (s : State) (r : Req) (p : Pg), Taken s r p Off.PAGE_CTRL → enLocked p = false → notPrimary p = false →
    (pstate s p = stOff → Completes (.enWrite r p true) s fun t => pstate t p = stStarting ∧ rb t p Off.PAGE_CTRL 0 = true) ∧
    (pstate s p = stRunning → Completes (.enWrite r p false) s fun t =>
      pstate t p = stShutting ∧ rb t p Off.PAGE_CTRL 0 = false) ∧
    (pstate s p = stShutting → Completes (.enWrite r p true) s fun t => pstate t p = stRestart ∧ t.out = s.out) ∧
    (pstate s p = stRestart → Completes (.enWrite r p false) s fun t => pstate t p = stShutting ∧ t.out = s.out) ∧
    (pstate s p = stRunning → Completes (.softReset r p) s fun t =>
      pstate t p = stShutting ∧ rb t p Off.PAGE_CTRL 2 = true)) ∧
  (∀ (s : State) (r : Req) (p : Pg), Taken s r p Off.PAGE_CTRL → (pgKind p).enFixed = false → notPrimary p = false →
    pstate s p = stOff → pgKind p ∉ [.hp, .tsync, .mbox] → Completes (.softReset r p) s fun t =>
      pstate t p = stOff ∧ ∀ off, off ≠ Off.PAGE_STAT → rd t p off = resetWord p off ∧ rdShadow t p off = resetWord p off) ∧
  (∀ (s : State) (r : Req) (p : Pg) (b : Bool), Taken s r p Off.PAGE_CTRL → notPrimary p = false →
    (enLocked p = true → exec (.enWrite r p b) s = .next (touchSession s r p)) ∧
    ((pgKind p).enFixed = true → exec (.softReset r p) s = .next (touchSession s r p))) ∧
  (∀ (s : State) (p : Pg), present s p = true → pstate s p = stStarting → pageReady s p = true → rb s p Off.PAGE_CTRL 0 = true →
    Completes (.blockStarted p) s fun t => pstate t p = stRunning ∧ rb t p Off.PAGE_CTRL 0 = true) ∧
  (∀ (s : State) (p : Pg), present s p = true → pgKind p ≠ .hp → pageIdle s p = true → rb s p Off.PAGE_CTRL 2 = false →
    (pstate s p = stShutting → Completes (.shutdownComplete p) s fun t => pstate t p = stOff) ∧
    (pstate s p = stRestart → Completes (.shutdownComplete p) s fun t => pstate t p = stStarting ∧ rb t p Off.PAGE_CTRL 0 = true))

/-- COMMIT and the hand-over of the shadowed registers (spec/02_register_pages.md, log entry 22). COMMIT_GO, taken
on a page with shadowed registers and without CANCEL, sets GO; a write with another BOUNDARY while GO is 1
leaves the boundary and logs the error SHADOW_BUSY. COMMIT_CANCEL clears GO. HAND_OVER, when it is due,
happens in the tick after the GO write or later: every shadowed register of the page takes its shadow value
(the LOAD order of an encoder page aside, which is served and clears), COUNT rises by 1 modulo 256, GO clears
and HANDED_OVER is latched. -/
def Obligations.PageHandOver : Prop :=
  (∀ (s : State) (r : Req) (p : Pg) (v : Word), Taken s r p Off.COMMIT → (pgKind p).hasRws = true → notPrimary p = false →
    (bit v 1 = false → Completes (.commitGo r p v) s fun t => goSet t p = true ∧
      (goSet s p = false → goAt t p Off.COMMIT = s.clock) ∧
      (goSet s p = true → fld v 4 3 ≠ rf s p Off.COMMIT 4 3 → rf t p Off.COMMIT 4 3 = rf s p Off.COMMIT 4 3 ∧
        (rb s p Off.ERR_INFO 23 = false → rf t p Off.ERR_INFO 8 8 = 5))) ∧
    Completes (.commitCancel r p) s fun t => goSet t p = false ∧ ∀ o, o ≠ Off.COMMIT → o ≠ Off.ERR_INFO → o ≠ Off.ERR_ADDR →
      rd t p o = rd s p o) ∧
  (∀ (s : State) (p : Pg), present s p = true → (pgKind p).hasRws = true → notPrimary p = false → handOverNow s p = true →
    Completes (.handOver p) s fun t => goSet t p = false ∧ rb t p Off.EVT_LAT 23 = true ∧
      rf t p Off.COMMIT 8 8 = (rf s p Off.COMMIT 8 8 + 1) % 256 ∧ goAt s p Off.COMMIT < t.clock ∧
      ∀ o ∈ rwsOffs p, (pgKind p = .enc → o ≠ Off.POS_CTRL) → rd t p o = rdShadow s p o)

/-- Fencing a page and releasing it (spec/17_startup_and_containment.md, log entry 23). PAGE_FENCE of a running
page that can be fenced makes it FENCED with reason SOFTWARE, counts the fence and latches its event on the
FENCE page of the die, and makes a record; on a page that cannot be fenced or is fenced it changes no
register. FENCE_RELEASE of a fenced page whose reason allows it starts the release and leaves the page fenced
until RELEASE_COMPLETE; one whose reason refuses it leaves the page fenced and its registers as they are
(CHUTE_19, which takes the record, aside), latches event 2 and names the page and the reason. RELEASE_COMPLETE
counts the release, clears FENCE and takes the page to STARTING if EN is 1 and no soft reset was in progress,
to OFF if EN is 0. -/
def Obligations.PageFences : Prop :=
  (∀ (s : State) (r : Req) (p : Pg), Taken s r p Off.PAGE_CTRL →
    (takesFence s p = true → Completes (.pageFence r p) s fun t =>
      pstate t p = stFenced ∧ pageReason t p = 1 ∧ rb t p Off.PAGE_CTRL 1 = true ∧ (fenceSt t p).releasing = false ∧
      rb t p Off.PAGE_CTRL 0 = rb s p Off.PAGE_CTRL 0 ∧
      rd t (pgFence p.die) Off.FN_CNT_FENCES = inc24 (rd s (pgFence p.die) Off.FN_CNT_FENCES) ∧
      rb t (pgFence p.die) Off.EVT_LAT 0 = true ∧
      (die t p.die).logSeq = ((die s p.die).logSeq + 1) % 4096) ∧
    (takesFence s p = false → exec (.pageFence r p) s = .next (touchSession s r p)) ∧
    (∀ b, (pgKind p).fenceable = true → fenced s p = true → (fenceSt s p).releasing = false →
      (relRefused s p b = false → Completes (.fenceRelease r p b) s fun t =>
        (fenceSt t p).releasing = true ∧ t.regs = s.regs) ∧
      (relRefused s p b = true → Completes (.fenceRelease r p b) s fun t =>
        (p ≠ pgChute p.die 19 → ∀ off, rd t p off = rd s p off) ∧ fenced t p = true ∧ fenceSt t p = fenceSt s p ∧
        rb t (pgFence p.die) Off.EVT_LAT 2 = true ∧ rf t (pgFence p.die) Off.FN_REL_REFUSED 0 8 = pageReason s p))) ∧
  (∀ (s : State) (p : Pg), present s p = true → fenced s p = true → (fenceSt s p).releasing = true →
    (fenceSt s p).softReset = false → Completes (.releaseComplete p) s fun t =>
      (rb s p Off.PAGE_CTRL 0 = true → pstate t p = stStarting) ∧ (rb s p Off.PAGE_CTRL 0 = false → pstate t p = stOff) ∧
      rb t p Off.PAGE_CTRL 1 = false ∧
      rd t (pgFence p.die) Off.FN_CNT_RELEASES = inc24 (rd s (pgFence p.die) Off.FN_CNT_RELEASES) ∧
      rb t (pgFence p.die) Off.EVT_LAT 1 = true)

/-- Fences of a whole die and of the head ports at the critical temperature (spec/03_timebase.md,
spec/14_thermal_and_ageing.md, spec/17_startup_and_containment.md, log entry 24). DIE_FENCED with the bit of a
die that has no fence isolates the die and fences every page of it that can be fenced; WATCHDOG of a die whose
counter is aligned, no earlier than the time without a flit from die 0 that FN_WDOG allows, fences every such
page of the die with reason WATCHDOG and event 5, and die 0 isolates it where a path of links that are UP
reports the fence. PLL_UNLOCK fences a running die with reason TIME_PLL; PLL_RELOCK_RELEASE locks an unlocked
PLL again, and with the PLL locked ends that fence no earlier than 25,000 ticks after the lock,
TIME_SKEW_RELEASE ends a TIME_SKEW fence no earlier than 250,000 ticks after SYNC_OK. CRITICAL fences every
present head port page of the die and latches its event on the THERMAL page. A fence already in force stays. -/
def Obligations.DieFences : Prop :=
  (∀ (s : State) (r : Req) (v : Word) (d : Nat), Taken s r (pgFence 0) Off.FN_DIE_CTRL → 0 < d → d < s.part.dies → d < 8 →
    bit v d = true → bit (rd s (pgFence 0) Off.FN_DIE_CTRL) d = false → (die s d).dieReason = 0 →
    Completes (.dieFenced r v) s fun t => isolated t d = true ∧ (die t d).dieReason = 1 ∧
      ∀ p ∈ fenceablePages s d, fenced t p = true) ∧
  (∀ (s : State) (d : Nat), 0 < d → d < 8 → d < s.part.dies → rf s (pgFence d) Off.FN_WDOG 0 16 ≠ 0 → (die s d).dieReason = 0 →
    rf s (pgTb d) Off.TB_STAT 6 2 ≠ 0 →
    Completes (.watchdog d) s fun t => (crossesNow s d = true → isolated t d = true) ∧ (die t d).dieReason = 6 ∧ rb t (pgFence d) Off.EVT_LAT 5 = true ∧
      (die s d).lastFlit0 + rf s (pgFence d) Off.FN_WDOG 0 16 * 1024 ≤ t.clock ∧
      ∀ p ∈ fenceablePages s d, fenced t p = true) ∧
  (∀ (s : State) (d : Nat), d < s.part.dies → (die s d).pllLocked = true → awake s d = true → (die s d).dieReason = 0 →
    Completes (.pllUnlock d) s fun t => (die t d).dieReason = 4 ∧ (die t d).pllLocked = false ∧
      rb t (pgTb d) Off.TB_STAT 2 = false ∧ ∀ p ∈ fenceablePages s d, fenced t p = true) ∧
  (∀ (s : State) (d : Nat), d < s.part.dies → (die s d).boot.complete = true → (die s d).pllLocked = false →
    Completes (.pllRelockRelease d) s fun t => (die t d).pllLocked = true ∧ (die t d).pllSince = t.clock ∧
      rb t (pgTb d) Off.TB_STAT 2 = true ∧ (die t d).dieReason = (die s d).dieReason) ∧
  (∀ (s : State) (d : Nat), d < s.part.dies → (die s d).boot.complete = true → (die s d).pllLocked = true →
    (die s d).dieReason = 4 →
    Completes (.pllRelockRelease d) s fun t => (die t d).dieReason = 0 ∧ (die s d).pllSince + 25000 ≤ t.clock) ∧
  (∀ (s : State) (d : Nat), d < s.part.dies → (die s d).dieReason = 5 → rb s (pgTb d) Off.TB_STAT 5 = true →
    Completes (.timeSkewRelease d) s fun t => (die t d).dieReason = 0 ∧ (die s d).syncSince + 250000 ≤ t.clock) ∧
  (∀ (s : State) (d o : Nat), d < s.part.dies → o < 11 → awake s d = true →
    Completes (.critical d o) s fun t => rb t (pgThermal d) Off.EVT_LAT 3 = true ∧
      ∀ p < nPorts s, present s (pgHp d p) = true → fenced t (pgHp d p) = true)

/-- Crystal compensation and failure, wrap of the tick counter, seconds (spec/03_timebase.md, log entry 2).
XTAL_COMP_UPDATE comes no earlier than 10 ms after the last reading, moves TB_COMP by at most 50 ppb, shows
the reading in TB_XTEMP and mirrors TB_COMP to every die. XTAL_FAIL moves every die to the internal oscillator
and latches XTAL_FAIL there. WRAP takes a running counter past 2^48 - 1, to 0 where its PLL runs, and latches
WRAP. SEC_EDGE of a supplied part whose die 0 counts advances the seconds counter by one modulo 2^48 and
latches, on every die, the local tick as SEC_EDGE_TS with its event. DORMANT_SECONDS_EDGE, while the low-power
oscillator drives the seconds counter, advances it by one modulo 2^48 no earlier than 249,937,500 ticks after
the last edge, and with no counter running changes nothing but the package state, the clock and the number of
the next free value. -/
def Obligations.Timebase : Prop :=
  (∀ (s : State) (temp : Int), (sgn 24 (rdN s (pgTb 0) Off.TB_COMP)).natAbs ≤ 8000000 → 0 < s.part.dies →
    Completes (.xtalCompUpdate temp) s fun t =>
      (sgn 24 (rdN t (pgTb 0) Off.TB_COMP) - sgn 24 (rdN s (pgTb 0) Off.TB_COMP)).natAbs ≤ 50 ∧
      rd t (pgTb 0) Off.TB_XTEMP = word (uns 16 temp) ∧ t.pkg.compAt = some t.clock ∧
      (∀ c, s.pkg.compAt = some c → c + 2500000 ≤ t.clock) ∧
      ∀ d < s.part.dies, rd t (pgTb d) Off.TB_COMP = rd t (pgTb 0) Off.TB_COMP) ∧
  (∀ s : State, rb s (pgTb 0) Off.TB_STAT 0 = false → Completes .xtalFail s fun t =>
    ∀ d < s.part.dies, rb t (pgTb d) Off.TB_STAT 0 = true ∧ rb t (pgTb d) Off.EVT_LAT 0 = true) ∧
  (∀ (s : State) (d : Nat), d < s.part.dies → (die s d).counting = true → now s d < 2 ^ 48 →
    Completes (.wrap d) s fun t => now t d < 5 ∧ rb t (pgTb d) Off.EVT_LAT 3 = true ∧
      (pllOff s d = false → now t d = 0 ∧ t.clock = s.clock + (2 ^ 48 - now s d))) ∧
  (∀ s : State, powered s = true → (die s 0).counting = true → Completes .secEdge s fun t =>
    t.pkg.seconds = (s.pkg.seconds + 1) % 2 ^ 48 ∧
    ∀ d < s.part.dies, rd48 t (pgTb d) Off.SEC_EDGE_TS_L = now t d % 2 ^ 48 ∧ rb t (pgTb d) Off.EVT_LAT 2 = true) ∧
  (∀ s : State, lpoRuns s = true → Completes .dormantSecondsEdge s fun t =>
    t.pkg.seconds = (s.pkg.seconds + 1) % 2 ^ 48 ∧ s.pkg.edgeAt + 249937500 ≤ t.clock ∧
    ((∀ d < s.part.dies, (die s d).counting = false) → { t with pkg := s.pkg, clock := s.clock, free := s.free } = s))

/-- Time across dies and between packages (spec/03_timebase.md, log entry 25). TIME_FLIT_EXCHANGE of a die with a
source comes no earlier than 1,024 ticks after the last one, shows the offset in DIE_SKEW saturated to 16
bits, moves the phase by at most 1/64 tick, fences an unfenced die with TIME_SKEW when the offset passes 64/64
tick, and otherwise leaves the fence of the die and sets SYNC_OK to whether the offset is at most 1/64 tick
and the source's SYNC_OK is 1. TIME_SOURCE_SWITCH of a die in HOLDOVER shows the neighbour that the search
finds in SYNC_SRC and changes no die's own state, or finds none, clears SYNC_OK and fences an unfenced die
with TIME_SKEW. TSYNC_FRAME_SEND of a running MASTER or SLAVE_FORWARD whose last frame is out sends K28.5 and
six words: type 0xA, the tick of die 0, the seconds counter and the CRC, and counts the sequence number.
TSYNC_FRAME_RECEIVE of a page that listens counts a frame that cannot be read or fails a check in TS_BAD,
latches event 2 and leaves the servo; of a good one it shows the offset in TS_OFFSET saturated to 24 bits and
the sequence number, restarts the count of missed periods, and with no step pending and the offset within the
threshold leaves TS_FREQ within the slew limit. STEP_APPLIED with a step pending comes no earlier than its
tick, moves every die's counter by the whole ticks of the step, counts it and leaves no step pending.
TSYNC_HOLDOVER takes a running slave that is acquiring, locked or in HOLDOVER to HOLDOVER, three periods after
the last frame or one period later than before, with TS_FREQ unchanged. That SYNC_OK demands at most 1/64 tick
and that the phase moves by 1/64 tick is the model's reading (log entry 25). -/
def Obligations.TimeTransfer : Prop :=
  (∀ (s : State) (d e : Nat) (off : Int), 0 < d → d < s.part.dies → syncFrom s d = some e →
    Completes (.timeFlitExchange d off) s fun t =>
      (Tbl.has s.pkg.exchAt d = true → Tbl.get s.pkg.exchAt d 0 + 1024 ≤ t.clock) ∧
      rd t (pgTb d) Off.DIE_SKEW = word (uns 16 (satI 16 off)) ∧
      ((die t d).phase - (die s d).phase).natAbs ≤ 1 ∧
      (64 < off.natAbs → (die s d).dieReason = 0 → (die t d).dieReason = 5) ∧
      (off.natAbs ≤ 64 → (die t d).dieReason = (die s d).dieReason ∧
        rb t (pgTb d) Off.TB_STAT 5 = (decide (off.natAbs ≤ 1) && rb s (pgTb e) Off.TB_STAT 5))) ∧
  (∀ (s : State) (d : Nat), 0 < d → d < s.part.dies → rf s (pgTb d) Off.TB_STAT 6 2 = 3 →
    Completes (.timeSourceSwitch d) s fun t =>
      (∀ e, newSource s d = some e → rf t (pgTb d) Off.TB_STAT 6 2 = syncCode s.part.dies d e % 4 ∧ t.dies = s.dies) ∧
      (newSource s d = none → rb t (pgTb d) Off.TB_STAT 5 = false ∧
        ((die s d).dieReason = 0 → (die t d).dieReason = 5))) ∧
  (∀ s : State, running s pgTsync = true → tsRole s = 1 ∨ tsRole s = 3 → (∀ c, s.tsync.sentAt = some c → c + 380 ≤ s.clock) →
    ∀ ws, ws = tsWords (waitClock s (tsPoint s)) → Completes .tsyncFrameSend s fun t =>
      t.out.getLast? = some (.tsync (now t 0) (kComma :: ws.flatMap wordChars)) ∧
      ws.length = 6 ∧ fld (ws.getD 0 0#24) 20 4 = 0xA ∧ ws.getD 1 0#24 = lo24 (now t 0) ∧ ws.getD 2 0#24 = hi24 (now t 0) ∧
      ws.getD 3 0#24 = lo24 t.pkg.seconds ∧ ws.getD 4 0#24 = hi24 t.pkg.seconds ∧ ws.getD 5 0#24 = crcWords (ws.take 5) ∧
      t.tsync.seq = (s.tsync.seq + 1) % 256 ∧ t.tsync.sentAt = some t.clock) ∧
  (∀ (s : State) (cap : Nat) (c : Chr) (cs : List Chr), tsListens s cap = true →
    ((∀ ws, tsRead (c :: cs) = some ws → tsGood ws = false) → Completes (.tsyncFrameReceive cap c cs) s fun t =>
      rd t pgTsync Off.TS_BAD = inc24 (rd s pgTsync Off.TS_BAD) ∧ rb t pgTsync Off.EVT_LAT 2 = true ∧ t.tsync = s.tsync) ∧
    (∀ ws, tsRead (c :: cs) = some ws → tsGood ws = true →
      Completes (.tsyncFrameReceive cap c cs) s fun t =>
        rd t pgTsync Off.TS_OFFSET = wordI (satI 24 (tsOffset s cap ws)) ∧
        rf t pgTsync Off.TS_STAT 16 8 = fld (ws.getD 0 0#24) 8 8 ∧ t.tsync.heardAt = s.clock ∧ t.tsync.missed = 0 ∧
        (s.tsync.step = none → (tsOffset s cap ws).natAbs ≤ rf s pgTsync Off.TS_LIMIT 8 16 →
          (sgn 24 (rdN t pgTsync Off.TS_FREQ)).natAbs ≤ (tsSlew s).natAbs))) ∧
  (∀ (s : State) (c : Nat) (e : Int), s.tsync.step = some (c, e) →
    Completes .stepApplied s fun t => c ≤ t.clock ∧ t.tsync.step = none ∧
      rd t pgTsync Off.TS_STEPS = inc24 (rd s pgTsync Off.TS_STEPS) ∧
      ∀ d < s.part.dies, now t d = uns 48 ((now (waitClock s c) d : Int) + e / 16)) ∧
  (∀ s : State, tsSlave s = true → 2 ≤ tsState s → Completes .tsyncHoldover s fun t =>
    tsState t = 4 ∧ t.tsync.missed = (if tsState s = 4 then s.tsync.missed + 1 else 3) ∧
    s.tsync.heardAt + t.tsync.missed * tsPeriod s ≤ t.clock ∧ rd t pgTsync Off.TS_FREQ = rd s pgTsync Off.TS_FREQ)

/-- Counting, index edges and product-detect inputs (spec/04_position_feedback.md, log entry 61). ENC_COUNT with
the N raw samples of a window of a channel in an incremental mode decodes their majority levels: the first
sample after a start sets the reference and leaves POS; from then on a sample that the decoder turns into a
change of n counts moves POS by n, or by -n under DIR_INV, modulo 2^48; in QUAD a step forward through 00, 10,
11, 01 is 1, a step back -1, the same levels 0; an illegal sample counts in CNT_ILLEGAL, latches event 0 and,
without inference and fencing, leaves POS. INDEX with the N raw samples of Z shows the majority level; a
qualified edge after the first sample counts in CNT_IDX and latches event 2, and with the check on, ARM_REF
clear, no load made and a distance beyond the tolerance counts and latches a mismatch and records the actual
count; any other sample leaves CNT_IDX and POS. PRODUCT with a new raw level takes it with its tick; given for
the level it has, it changes the level shown once that has held for the persistence, and then an enabled edge
of the chosen direction is accepted outside the lockout, with its stamp, and counted as ignored inside; a
level already shown changes nothing. PD_LOCKOUT_END ends the lockout of an unbound input when its time has
passed, and that of a bound one whose lockout is over. -/
def Obligations.EncoderCounts : Prop :=
  (∀ (s : State) (d c : Nat) (la lb : List Bool), encOn s d c = true → encIncr s d c = true → la.length = encN s d c →
    lb.length = encN s d c →
    ∀ ab, ab = 2 * b2n (majority (decide (2 ≤ (enc s d c).ab)) la)
        + b2n (majority (decide ((enc s d c).ab % 2 = 1)) lb) →
    Completes (.encCount d c la lb) s fun t => (enc t d c).ab = ab ∧ (enc t d c).hasRef = true ∧
      ((enc s d c).hasRef = false → rd48 t (pgEnc d c) Off.POS_L = rd48 s (pgEnc d c) Off.POS_L) ∧
      (∀ n, decodeStep (encMode s d c) (rb s (pgEnc d c) Off.ENC_CFG 8) (enc s d c).ab ab = some n → (enc s d c).hasRef = true →
        rd48 t (pgEnc d c) Off.POS_L =
          uns 48 ((rd48 s (pgEnc d c) Off.POS_L : Int) + if rb s (pgEnc d c) Off.ENC_CFG 3 then -n else n)) ∧
      (decodeStep (encMode s d c) (rb s (pgEnc d c) Off.ENC_CFG 8) (enc s d c).ab ab = none → (enc s d c).hasRef = true →
        rd t (pgEnc d c) Off.CNT_ILLEGAL = inc24 (rd s (pgEnc d c) Off.CNT_ILLEGAL) ∧ rb t (pgEnc d c) Off.EVT_LAT 0 = true ∧
        (rb s (pgEnc d c) Off.ENC_CFG 4 = false → rb s (pgEnc d c) Off.ENC_CFG 5 = false →
          rd48 t (pgEnc d c) Off.POS_L = rd48 s (pgEnc d c) Off.POS_L)) ∧
      (encMode s d c = 0 → decodeStep 0 (rb s (pgEnc d c) Off.ENC_CFG 8) (enc s d c).ab ab =
        match (quadPlace ab + 4 - quadPlace (enc s d c).ab) % 4 with
        | 0 => some 0 | 1 => some 1 | 2 => none | _ => some (-1))) ∧
  (∀ (s : State) (d c : Nat) (raw : List Bool), encOn s d c = true → encIncr s d c = true → raw.length = encN s d c →
    ∀ z, z = majority (enc s d c).z raw → Completes (.index d c raw) s fun t => (enc t d c).z = z ∧ (enc t d c).zRef = true ∧
      (((enc s d c).zRef && idxQualified s d c (enc s d c).z z) = false →
        rd t (pgEnc d c) Off.CNT_IDX = rd s (pgEnc d c) Off.CNT_IDX ∧
        rd48 t (pgEnc d c) Off.POS_L = rd48 s (pgEnc d c) Off.POS_L) ∧
      ((enc s d c).zRef = true → idxQualified s d c (enc s d c).z z = true →
        rd t (pgEnc d c) Off.CNT_IDX = inc24 (rd s (pgEnc d c) Off.CNT_IDX) ∧ rb t (pgEnc d c) Off.EVT_LAT 2 = true ∧
        (rb s (pgEnc d c) Off.IDX_CFG 2 = true → rb s (pgEnc d c) Off.IDX_CFG 7 = false → (enc s d c).loadAt = none →
          rf s (pgEnc d c) Off.IDX_CFG 8 16 < (idxDist (rdN s (pgEnc d c) Off.IDX_PERIOD)
            (sgn 48 (rd48 s (pgEnc d c) Off.IDX_EXP_L)) (encPos s d c)).natAbs →
          rd t (pgEnc d c) Off.CNT_IDX_MM = inc24 (rd s (pgEnc d c) Off.CNT_IDX_MM) ∧ rb t (pgEnc d c) Off.EVT_LAT 3 = true ∧
          rd48 t (pgEnc d c) Off.IDX_MM_ACT_L = rd48 s (pgEnc d c) Off.POS_L))) ∧
  (∀ (s : State) (d n : Nat) (l : Bool), n < 8 → running s (pgPd d) = true →
    ((pdIn s d n).raw ≠ l → Completes (.product d n l) s fun t =>
      (pdIn t d n).raw = l ∧ (pdIn t d n).since = s.clock ∧ t.clock = s.clock) ∧
    ((pdIn s d n).raw = l → rb s (pgPd d) Off.PD_LEVEL n = pdIn1 s d n → exec (.product d n l) s = .next s) ∧
    ((pdIn s d n).raw = l → rb s (pgPd d) Off.PD_LEVEL n ≠ pdIn1 s d n → Completes (.product d n l) s fun t =>
      rb t (pgPd d) Off.PD_LEVEL n = pdIn1 s d n ∧ (pdIn s d n).since + pdNeed s d n ≤ t.clock ∧
      (bit (pdCfg s d n) 0 = true → pdEdgeOk (fld (pdCfg s d n) 1 2) (pdIn1 s d n) = true →
        (lockEnded (waitClock s ((pdIn s d n).since + pdNeed s d n)) d n = true →
          rd t (pgPd d) (Off.PD_ACC + 4 * n) = inc24 (rd s (pgPd d) (Off.PD_ACC + 4 * n)) ∧ rb t (pgPd d) Off.EVT_LAT n = true ∧
          rd48 t (pgPd d) (Off.PD_TS_L + 16 * n) =
            uns 48 ((now t d : Int) - ((t.clock - (pdIn s d n).since : Nat) : Int) - 2)) ∧
        (lockEnded (waitClock s ((pdIn s d n).since + pdNeed s d n)) d n = false →
          rd t (pgPd d) (Off.PD_LOCKED + 4 * n) = inc24 (rd s (pgPd d) (Off.PD_LOCKED + 4 * n)) ∧
          rb t (pgPd d) Off.EVT_LAT (8 + n) = true ∧ t.msgs = s.msgs)))) ∧
  (∀ (s : State) (d n : Nat), n < 8 → (pdIn s d n).locked = true →
    (bit (pdCfg s d n) 17 = true → Completes (.pdLockoutEnd d n) s fun t =>
      (pdIn t d n).locked = false ∧ (pdIn s d n).lockClock + 256 * pdLock s d n ≤ t.clock) ∧
    (bit (pdCfg s d n) 17 = false → lockEnded s d n = true → Completes (.pdLockoutEnd d n) s fun t =>
      (pdIn t d n).locked = false ∧ t.regs = s.regs) ∧
    (bit (pdCfg s d n) 17 = false → lockEnded s d n = false → exec (.pdLockoutEnd d n) s = .next s))

/-- Speed, latches, estimates and REMOTE channels (spec/04_position_feedback.md, log entry 65, log entry 66).
SPEED_WINDOW of a channel that is not REMOTE, measures by window and has seen no step in this window stores
the displacement between the last two window boundaries over W, rounded half away from zero, where the
register can hold it, and with die 0's rate running ends at a tick that is a multiple of W. SPEED_STOPPED
makes the speed 0 and sets STOPPED no earlier than 2^24 ticks after the last edge; PERIOD_SPEED_LIMIT comes no
earlier than 64 ticks after it and never makes the speed larger. LATCH_SW of a running channel not latched in
this tick stores the count that the mode gives, POS in the incremental and serial modes, and the tick, latches
event 5 and uses up one record number. LATCH_PERIODIC of a channel with the trigger enabled, not latched in
this tick or later, stores its tick and latches event 5. ESTIMATOR_UPDATE of a channel with a source stamps
the estimate with its tick, sends it, its position modulo 2^48, to the contexts 12 ticks later, and ends a
restart, with event 9 in the incremental and serial modes. REMOTE_ESTIMATE_RECEIVE takes position and speed of
the channel's oldest message, and when that is an estimate and the first message on its way, the estimate and
its validity too. REMOTE_SOURCE_LOST of a REMOTE channel that had its source ends validity and latches event
13. That validity ends there is the model's choice (log entry 65). -/
def Obligations.EncoderSpeed : Prop :=
  (∀ (s : State) (d c : Nat), encOn s d c = true → encMode s d c ≠ 7 → spdPeriod s d c = false → (enc s d c).winBad = false →
    ∀ w, w = (enc (winSync (waitClock s (nextAt s d (spdW s d c) (enc s d c).spdAt)) d c) d c).win.getD
      (clampN 4 20 (rf s (pgEnc d c) Off.SPD_CFG 0 5) - 4) (0, 0, 0) →
    ∀ v : Int, v = roundAway (sgn 48 (uns 48 (w.2.1 - w.2.2)) * 2 ^ 40) (spdW s d c) →
      -(2 ^ 47) ≤ v → v < 2 ^ 47 → Completes (.speedWindow d c) s fun t =>
        rd48 t (pgEnc d c) Off.SPD_L = uns 48 v ∧ (enc t d c).spdAt = some t.clock ∧
        (d < s.part.dies → (die s d).counting = true → pllOff s d = false → now s d < 2 ^ 48 → now t d % spdW s d c = 0)) ∧
  (∀ (s : State) (d c : Nat), encOn s d c = true → spdPeriod s d c = true →
    (Completes (.speedStopped d c) s fun t => rd48 t (pgEnc d c) Off.SPD_L = 0 ∧ rb t (pgEnc d c) Off.SPD_STAT 2 = true ∧
      (enc s d c).edgeClock + 2 ^ 24 ≤ t.clock) ∧
    (Completes (.periodSpeedLimit d c) s fun t =>
      (sgn 48 (rd48 t (pgEnc d c) Off.SPD_L)).natAbs ≤ (sgn 48 (rd48 s (pgEnc d c) Off.SPD_L)).natAbs ∧
      (enc t d c).limAt = some t.clock ∧ (enc s d c).edgeClock + 64 ≤ t.clock)) ∧
  (∀ (s : State) (r : Req) (d c : Nat) (v : Word), Taken s r (pgEnc d c) Off.LAT_TRIG → c < 8 → running s (pgEnc d c) = true →
    bit v 0 = true → (enc s d c).latAt ≠ some s.clock → Completes (.latchSw r d c v) s fun t =>
      rd48 t (pgEnc d c) Off.LAT_POS_L = uns 48 (latCount s d c (now s d)) ∧
      (encMode s d c ≤ 4 → rd48 t (pgEnc d c) Off.LAT_POS_L = rd48 s (pgEnc d c) Off.POS_L) ∧
      rd48 t (pgEnc d c) Off.LAT_TS_L = now s d % 2 ^ 48 ∧
      rb t (pgEnc d c) Off.EVT_LAT 5 = true ∧ (die t d).posSeq = ((die s d).posSeq + 1) % 4096) ∧
  (∀ (s : State) (d c : Nat), encOn s d c = true → rb s (pgEnc d c) Off.LAT_CFG 9 = true →
    (∀ k, (enc s d c).latAt = some k → k < s.clock) →
    Completes (.latchPeriodic d c) s fun t => rd48 t (pgEnc d c) Off.LAT_TS_L = now t d % 2 ^ 48 ∧
      rb t (pgEnc d c) Off.EVT_LAT 5 = true ∧ (enc t d c).perAt = some t.clock) ∧
  (∀ (s : State) (d c : Nat), encOn s d c = true → encMode s d c ≤ 6 → virtGone s d c = false →
    Completes (.estimatorUpdate d c) s fun t => rd48 t (pgEnc d c) Off.EST_TS_L = now t d % 2 ^ 48 ∧
      (enc t d c).tk = now t d ∧ t.msgs.getLast? = some ⟨d, c, t.clock + 12, .estimate ⟨sgn 48 (uns 48 (enc t d c).p),
        (enc t d c).v, (enc t d c).a, now t d, rb t (pgEnc d c) Off.EST_STAT 0⟩⟩ ∧
      (enc t d c).restart = false ∧
      (encMode s d c ≤ 4 → (enc s d c).restart = true → rb t (pgEnc d c) Off.EVT_LAT 9 = true)) ∧
  (∀ (s : State) (d c : Nat) (m : HopMsg), s.hops.find? (fun m => decide (m.die = d) && decide (m.chan = c)) = some m →
    running s (pgEnc d c) = true → encMode s d c = 7 → Completes (.remoteEstimateReceive d c) s fun t =>
      rd48 t (pgEnc d c) Off.POS_L = m.pos % 2 ^ 48 ∧ rd48 t (pgEnc d c) Off.SPD_L = m.spd % 2 ^ 48) ∧
  (∀ (s : State) (d c pos spd : Nat) (e : Est) (rest : List HopMsg), s.hops = ⟨d, c, .estimate e, pos, spd⟩ :: rest →
    running s (pgEnc d c) = true → encMode s d c = 7 → Completes (.remoteEstimateReceive d c) s fun t =>
      (enc t d c).remote = e ∧ rb t (pgEnc d c) Off.EST_STAT 0 = e.valid ∧ rest <+: t.hops) ∧
  (∀ (s : State) (d c : Nat), encOn s d c = true → encMode s d c = 7 → (enc s d c).remoteLost = false →
    Completes (.remoteSourceLost d c) s fun t => rb t (pgEnc d c) Off.EST_STAT 0 = false ∧ (enc t d c).remoteLost = true ∧
      rb t (pgEnc d c) Off.EVT_LAT 13 = true)

/-- Serial encoder frames (spec/04_position_feedback.md, log entry 62, log entry 63, log entry 64).
SERIAL_FRAME_START of a channel in a serial mode comes at its due time: with a frame in progress it begins
none; with the data line high, or in BiSS-C, it begins a frame stamped with that tick less the latency; in SSI
with the data line low it fails with code 1. SERIAL_FRAME_END of a frame in progress ends it; without fault
injection a frame that fails a check counts, latches event 6, reports its code and leaves POS; the first good
SSI frame without parity and Gray code sets POS to its value, a later one without jump limit and inversion
adds the change modulo 2^BITS, sign-extended. SERIAL_TIMEOUT of a frame in progress fails it with code 2 for a
missing acknowledge of BiSS-C, else 7. In SHUTTING either ends the frame in progress and leaves POS. That the
first edge of MA lies in the tick in which the frame is due is the model's choice (log entry 62). -/
def Obligations.SerialEncoders : Prop :=
  (∀ (s : State) (d c : Nat) (slo : Bool), encOn s d c = true → encSerial s d c = true →
    Completes (.serialFrameStart d c slo) s fun t => (enc t d c).serAt = some t.clock ∧
      ((enc s d c).serBusy = true → (enc t d c).serBusy = true ∧ (enc t d c).serStamp = (enc s d c).serStamp) ∧
      ((enc s d c).serBusy = false → slo = true ∨ encMode s d c = 4 → (enc t d c).serBusy = true ∧ t.fences = s.fences ∧
        (enc t d c).serStamp = uns 48 ((now t d : Int) - rf s (pgEnc d c) Off.SER_LAT 0 16)) ∧
      ((enc s d c).serBusy = false → slo = false → encMode s d c = 3 → rf t (pgEnc d c) Off.SER_STAT 0 4 = 1 ∧
        rd t (pgEnc d c) Off.CNT_SER_BAD = inc24 (rd s (pgEnc d c) Off.CNT_SER_BAD))) ∧
  (∀ (s : State) (d c : Nat) (f : SerFrame), encOn s d c = true → encSerial s d c = true → (enc s d c).serBusy = true →
    Completes (.serialFrameEnd d c f) s fun t => (enc t d c).serBusy = false ∧
      (injOk s d = false → ∀ n, serCheck s d c f = some n →
        rd t (pgEnc d c) Off.CNT_SER_BAD = inc24 (rd s (pgEnc d c) Off.CNT_SER_BAD) ∧
        rf t (pgEnc d c) Off.SER_STAT 0 4 = n % 16 ∧ rb t (pgEnc d c) Off.EVT_LAT 6 = true ∧
        rd48 t (pgEnc d c) Off.POS_L = rd48 s (pgEnc d c) Off.POS_L) ∧
      (injOk s d = false → encMode s d c = 3 → rf s (pgEnc d c) Off.SER_CFG 6 2 = 0 → (enc s d c).serLast = none →
        ((enc s d c).serPrev = none → rd48 t (pgEnc d c) Off.POS_L = f.raw % 2 ^ serBits s d c) ∧
        (∀ prev, (enc s d c).serPrev = some prev → rdN s (pgEnc d c) Off.SER_JUMP = 0 → rb s (pgEnc d c) Off.ENC_CFG 3 = false →
          rd48 t (pgEnc d c) Off.POS_L = uns 48 (rd48 s (pgEnc d c) Off.POS_L
            + sgn (serBits s d c) (uns (serBits s d c) ((f.raw % 2 ^ serBits s d c : Nat) - (prev : Int))))))) ∧
  (∀ (s : State) (d c : Nat) (ack : Bool), encOn s d c = true → encSerial s d c = true → (enc s d c).serBusy = true →
    (ack = true → encMode s d c = 4) → Completes (.serialTimeout d c ack) s fun t =>
      rd t (pgEnc d c) Off.CNT_SER_BAD = inc24 (rd s (pgEnc d c) Off.CNT_SER_BAD) ∧
      rf t (pgEnc d c) Off.SER_STAT 0 4 = (if ack then 2 else 7) ∧ (enc t d c).serBusy = false) ∧
  (∀ (s : State) (d c : Nat) (f : SerFrame) (ack : Bool), c < 8 → pstate s (pgEnc d c) = stShutting → encSerial s d c = true →
    awake s d = true →
    (Completes (.serialFrameEnd d c f) s fun t => (enc t d c).serBusy = false ∧
      rd48 t (pgEnc d c) Off.POS_L = rd48 s (pgEnc d c) Off.POS_L) ∧
    (Completes (.serialTimeout d c ack) s fun t => (enc t d c).serBusy = false ∧
      rd48 t (pgEnc d c) Off.POS_L = rd48 s (pgEnc d c) Off.POS_L))

/-- Commands to jet contexts (spec/05_jet_contexts.md, log entry 26). Commands that are taken, with no word of
memory poisoned and no thermal scope of the die enforced. Of an IDLE context: CTX_ARM arms it if it passes
every check, latches words 0 to 3 and clears DONE; with a failed check it leaves the context as it is, the
check's code is the result, and a code other than 1 counts as refused; CTX_FLUSH leaves it IDLE without lines
and built lines. Of a context that is no follower held by its timing context: in ARMED, CTX_DISARM makes its
moving members IDLE, and CTX_START without PD start and within the rate limit makes them PRINTING; in
PRINTING, CTX_PAUSE makes them PAUSED with cause 1, CTX_DRAIN makes them DRAINING, and CTX_ABORT with unfired
cycles of the group leaves it PRINTING and the leader aborting; in ARMED or PAUSED, CTX_ABORT makes them IDLE;
in PAUSED, CTX_RESUME with a running source, a valid estimate and the rate within the limit makes them
PRINTING and goes on with the first line neither completed nor carried by a bound cycle, or with nothing
printed yet of a PD swathe makes them ARMED; outside ARMED, CTX_DISARM and CTX_START leave the context, have
the result WRONG_STATE, and CTX_START counts as refused. CTX_FENCE of a context not FENCED fences it with
cause 1 and keeps its state. CTX_RELEASE of a timing context fenced while PRINTING, whose port and die are not
fenced and which does not ask for a flush, makes it PAUSED. CTX_ARM of a context that the tier does not have
has the result TIER and changes no context. -/
def Obligations.ContextCommands : Prop :=
  (∀ (s : State) (r : Req) (d k : Nat), CtxTaken s r d k → (ctx s d k).st = .idle →
    (armVerdict s d k = none → Completes (.ctxArm r d k) s fun t => (ctx t d k).st = .armed ∧ ctxResultOf t d = 1 ∧
      (ctx t d k).doneN = 0 ∧ ∀ i < 4, lw t d k i = aw s d k i) ∧
    (∀ c, armVerdict s d k = some c → Completes (.ctxArm r d k) s fun t => ctx t d k = ctx s d k ∧ ctxResultOf t d = c % 256 ∧
      (c ≠ 1 → rd t (pgCtx d) Off.CMD_REFUSED = inc24 (rd s (pgCtx d) Off.CMD_REFUSED))) ∧
    (Completes (.ctxFlush r d k) s fun t => (ctx t d k).st = .idle ∧ (ctx t d k).lines = [] ∧ (ctx t d k).built = [] ∧
      ctxResultOf t d = 1)) ∧
  (∀ (s : State) (r : Req) (d k : Nat), CtxTaken s r d k → followerHeld s d k = false →
    ((ctx s d k).st = .armed →
      (Completes (.ctxDisarm r d k) s fun t => ctxResultOf t d = 1 ∧ ∀ m ∈ movers s d k, (ctx t d m).st = .idle) ∧
      (cStartPd s d k = false → rateOk s d (cRate s d k) = true → Completes (.ctxStart r d k) s fun t =>
        ctxResultOf t d = 1 ∧ ∀ m ∈ movers s d k, (ctx t d m).st = .printing)) ∧
    ((ctx s d k).st = .printing →
      (Completes (.ctxPause r d k) s fun t => ctxResultOf t d = 1 ∧ (ctx t d k).cause = 1 ∧
        ∀ m ∈ movers s d k, (ctx t d m).st = .paused) ∧
      (Completes (.ctxDrain r d k) s fun t => ctxResultOf t d = 1 ∧ ∀ m ∈ movers s d k, (ctx t d m).st = .draining) ∧
      (unfired s d (cPort s d (leader s d k)) (cFg s d (leader s d k)) ≠ [] → Completes (.ctxAbort r d k) s fun t =>
        (ctx t d k).st = .printing ∧ (ctx t d (leader s d k)).aborting = true ∧ ctxResultOf t d = 1)) ∧
    ((ctx s d k).st = .armed ∨ (ctx s d k).st = .paused →
      Completes (.ctxAbort r d k) s fun t => ctxResultOf t d = 1 ∧ ∀ m ∈ movers s d k, (ctx t d m).st = .idle) ∧
    ((ctx s d k).st = .paused → running s (pgEnc d (cSrc s d k)) = true → (estOf s d k).valid = true →
      rateOk s d (cRate s d k) = true → Completes (.ctxResume r d k) s fun t => ctxResultOf t d = 1 ∧
        ((ctx s d k).doneN = 0 ∧ cStartPd s d k = true ∧ (ctx s d k).turning = false →
          ∀ m ∈ movers s d k, (ctx t d m).st = .armed) ∧
        (¬((ctx s d k).doneN = 0 ∧ cStartPd s d k = true ∧ (ctx s d k).turning = false) →
          (∀ m ∈ movers s d k, (ctx t d m).st = .printing) ∧
          (ctx t d k).next = pastFlight s d k (port s d (cPort s d k)).cycles.length (resumeLine s d k))) ∧
    ((ctx s d k).st ≠ .armed → (Completes (.ctxDisarm r d k) s fun t => ctx t d k = ctx s d k ∧ ctxResultOf t d = 0x10) ∧
      (Completes (.ctxStart r d k) s fun t => ctx t d k = ctx s d k ∧ ctxResultOf t d = 0x10 ∧
        rd t (pgCtx d) Off.CMD_REFUSED = inc24 (rd s (pgCtx d) Off.CMD_REFUSED)))) ∧
  (∀ (s : State) (r : Req) (d k : Nat), CtxTaken s r d k → (ctx s d k).st ≠ .fenced → Completes (.ctxFence r d k) s fun t =>
    (ctx t d k).st = .fenced ∧ (ctx t d k).cause = 1 ∧ (ctx t d k).before = (ctx s d k).st ∧ ctxResultOf t d = 1) ∧
  (∀ (s : State) (r : Req) (d k : Nat), CtxTaken s r d k → (ctx s d k).st = .fenced → (ctx s d k).before = .printing →
    (ctx s d k).rejoin = false → cTiming s d k = true → fenced s (pgHp d (cPort s d k)) = false → (die s d).dieReason = 0 →
    bit (aw s d k 53) 0 = false → Completes (.ctxRelease r d k) s fun t => (ctx t d k).st = .paused ∧ ctxResultOf t d = 1) ∧
  (∀ (s : State) (r : Req) (d k : Nat), Taken s r (pgCtx d) Off.CTX_CMD → nCtx s ≤ k →
    Completes (.ctxArm r d k) s fun t => ctxResultOf t d = 0x11 ∧ t.ctxs = s.ctxs)

/-- Messages to contexts, hand-overs of descriptors, and the ends of draining and stalling
(spec/05_jet_contexts.md, log entry 67). Of the first message on its way, to the jet island of the die, which
arrives no earlier than it is due: ESTIMATE_ARRIVAL gives the island the estimate and, if valid, clears LOST
of the contexts bound to the channel; POSITION_STEP counts and latches the step in each of them; SOURCE_LOST
sets LOST in each, latches event 12 and invalidates the estimate; PD_EDGE_ARRIVAL makes PRINTING the one bound
context of the die, if it is an ARMED timing context, alone in its group, that waits for this input, has a
source, was armed before the edge and lies within the rate limit. CTX_COMMIT_GO of a context of the tier with
GO in the value sets GO and changes no context. CTX_HAND_OVER of a context with GO whose state lets it take
place, no word poisoned, comes after the tick of GO, makes the 56 words of the shadow copy active, each merged
with the active one, clears GO, counts and latches event 7. DRAIN_COMPLETE of a DRAINING timing context alone
in its group, with no cycle open, makes it IDLE with its cause. STALL of a context whose timer runs comes no
earlier than the timer allows, latches event 9 and makes it PAUSED with cause 3, or FENCED under ACT = FENCE;
that the timer then begins at 0 is the model's choice (log entry 67). FOLLOWER_REJOIN gives a waiting follower
the PAUSED or DRAINING state of its timing context. -/
def Obligations.ContextEvents : Prop :=
  (∀ (s : State) (d c due : Nat) (e : Est) (rest : List Msg), s.msgs = ⟨d, c, due, .estimate e⟩ :: rest →
    Completes (.estimateArrival d c) s fun t => (enc t d c).jet = e ∧ t.msgs = rest ∧ due ≤ t.clock ∧
      (e.valid = true → ∀ k ∈ boundTo s d c, (ctx t d k).lost = false)) ∧
  (∀ (s : State) (d c due : Nat) (z : Int) (st : Nat) (rest : List Msg), s.msgs = ⟨d, c, due, .step z st⟩ :: rest →
    Completes (.positionStep d c) s fun t => t.msgs = rest ∧ due ≤ t.clock ∧
      ∀ k ∈ boundTo s d c, (ctx t d k).cntStep = inc12 (ctx s d k).cntStep ∧ rb t (pgCtx d) (Off.CTX_EVT + 4 * k) 11 = true) ∧
  (∀ (s : State) (d c due : Nat) (rest : List Msg), s.msgs = ⟨d, c, due, .lost⟩ :: rest →
    Completes (.sourceLost d c) s fun t => t.msgs = rest ∧ (enc t d c).jet.valid = false ∧
      ∀ k ∈ boundTo s d c, (ctx t d k).lost = true ∧ rb t (pgCtx d) (Off.CTX_EVT + 4 * k) 12 = true) ∧
  (∀ (s : State) (d n due stamp acc ch k : Nat) (pos : Int) (rest : List Msg), s.msgs = ⟨d, ch, due, .pdEdge n stamp acc pos⟩ :: rest →
    s.ecc = [] → boundTo s d (cSrc s d k) = [k] → members s d (cPort s d k) (cFg s d k) = [k] →
    (∀ j, bound s d j = true → j = k) → (ctx s d k).st = .armed → cTiming s d k = true →
    cStartPd s d k = true → cPd s d k = n → (ctx s d k).lost = false → (ctx s d k).pdFrom ≤ acc → rateOk s d (cRate s d k) = true →
    Completes (.pdEdgeArrival d n) s fun t => (ctx t d k).st = .printing ∧ t.msgs = rest) ∧
  (∀ (s : State) (r : Req) (d k : Nat) (v : Word), Taken s r (pgCtx d) (commitOff k) → k < nCtx s → bit v 0 = true →
    Completes (.ctxCommitGo r d k v) s fun t => ctxGo t d k = true ∧ t.ctxs = s.ctxs) ∧
  (∀ (s : State) (d k : Nat), d < s.part.dies → k < nCtx s → s.ecc = [] → ctxGo s d k = true → handOverFree s d k = true →
    Completes (.ctxHandOver d k) s fun t => ctxGo t d k = false ∧
      rf t (pgCtx d) (commitOff k) 8 8 = (rf s (pgCtx d) (commitOff k) 8 8 + 1) % 256 ∧
      rb t (pgCtx d) (Off.CTX_EVT + 4 * k) 7 = true ∧ goAt s (pgCtx d) (commitOff k) < t.clock ∧
      ∀ w < 56, aw t d k w = descWord w (aw s d k w) (rawWord s (wordAddr d true (64 * k + w)))) ∧
  (∀ (s : State) (d k : Nat), d < s.part.dies → k < nCtx s → s.ecc = [] → (ctx s d k).st = .draining → cTiming s d k = true →
    members s d (cPort s d k) (cFg s d k) = [k] → groupOpen s d (cPort s d k) (cFg s d k) = false →
    Completes (.drainComplete d k) s fun t => (ctx t d k).st = .idle ∧ (ctx t d k).cause = (ctx s d k).drainCause) ∧
  (∀ (s : State) (d k : Nat), d < s.part.dies → k < nCtx s → s.ecc = [] → stallOn s d k = true →
    Completes (.stall d k) s fun t => s.clock + (stallTmo s d k - stallTime s d k) ≤ t.clock ∧
      rb t (pgCtx d) (Off.CTX_EVT + 4 * k) 9 = true ∧ (ctx t d k).cause = 3 ∧
      (af s d k 48 4 2 ≠ 1 → (ctx t d k).st = .paused) ∧ (af s d k 48 4 2 = 1 → (ctx t d k).st = .fenced)) ∧
  (∀ (s : State) (d k l : Nat), d < s.part.dies → k < nCtx s → s.ecc = [] → (ctx s d k).rejoin = true →
    timingOf s d (cPort s d k) (cFg s d k) = some l → (ctx s d l).st = .paused ∨ (ctx s d l).st = .draining → l ≠ k →
    Completes (.followerRejoin d k) s fun t => (ctx t d k).st = (ctx s d l).st ∧ (ctx t d k).rejoin = false)

/-- Binding, freezing and firing a cycle (spec/05_jet_contexts.md, spec/07_waveforms.md, spec/09_sypol_link.md,
log entry 70). LINE_BIND of a PRINTING timing context alone in its group, without an ABORT that waits, a turn,
a swathe length or a line placed before, on a port with no cycle bound, with no hand-over of context or port
pending and no sweep of the die running, its next line built, and its predicted instant a whole tick whose
binding point has not passed, appends one cycle with the line number and the placed tick and advances the next
line. With an ABORT that waits it takes effect: the context becomes IDLE. LINE_FREEZE of the first cycle of
the group that is not frozen: one that overruns another with a waveform counts in WF_OVERRUN and latches event
2; else, with a waveform that plays, no REPLACE frame open, the port running and its link UP, it is frozen and
armed and its ARM unit is sent; in any other case it is frozen and nothing is sent. CYCLE_FIRE of the first
cycle of the group, with no ABORT waiting, marks its placed tick as the last fired; a frozen cycle not yet
known as delivered or lost stands in the port as fired. -/
def Obligations.BoundCycles : Prop :=
  (∀ (s : State) (d k : Nat) (tk : Nat), d < s.part.dies → k < nCtx s → (die s d).counting = true → now s d < 2 ^ 48 →
    (ctx s d k).st = .printing → cTiming s d k = true → members s d (cPort s d k) (cFg s d k) = [k] →
    (ctx s d k).aborting = false → (ctx s d k).turning = false → (ctx s d k).rejoin = false → (ctx s d k).lastPlaced = none →
    aw s d k 13 = 0#24 → (port s d (cPort s d k)).cycles = [] → ctxGo s d k = false → goSet s (pgHp d (cPort s d k)) = false →
    rf s (pgEcho d) Off.SWEEP_STAT 0 3 ≠ 1 → (builtLine s d k (ctx s d k).next).isSome = true →
    predictNext s d k = some (16 * (tk : Int)) →
    0 ≤ sgn 48 (uns 48 ((tk : Int) - (port s d (cPort s d k)).lead - (now s d : Int))) →
    Completes (.lineBind d k) s fun t => ∃ c, (port t d (cPort s d k)).cycles = [c] ∧ c.line = (ctx s d k).next ∧
      c.t0 = 16 * (tk : Int) ∧ c.tctx = k ∧ c.fg = cFg s d k ∧ c.fired = false ∧
      (ctx t d k).next = ((ctx s d k).next + 1) % 2 ^ 24 ∧ (ctx t d k).lastPlaced = some (16 * (tk : Int))) ∧
  (∀ (s : State) (d k : Nat), d < s.part.dies → k < nCtx s → s.ecc = [] → cTiming s d k = true →
    members s d (cPort s d k) (cFg s d k) = [k] → (ctx s d k).aborting = true → (ctx s d k).abortBy = k →
    Completes (.lineBind d k) s fun t => (ctx t d k).st = .idle ∧ (ctx t d k).aborting = false) ∧
  (∀ (s : State) (d k : Nat), d < s.part.dies → k < nCtx s → bound s d k = true →
    ∀ c, firstCycle s d k (fun c => !c.frozen) = some c → Completes (.lineFreeze d k) s fun t =>
      (overrun s d (cPort s d k) c = true → c.noWave = false →
        rd t (pgHp d (cPort s d k)) Off.WF_OVERRUN = inc24 (rd s (pgHp d (cPort s d k)) Off.WF_OVERRUN) ∧
        rb t (pgHp d (cPort s d k)) Off.EVT_LAT 2 = true) ∧
      (overrun s d (cPort s d k) c = false ∨ c.noWave = true →
        (c.noWave = false ∧ c.mute = false ∧ c.repls = 0 ∧ running s (pgHp d (cPort s d k)) = true ∧
            (port s d (cPort s d k)).link = 3 →
          t.out.getLast? = some (.armUnit d (cPort s d k) (charAt (port s d (cPort s d k)) t.clock) (c.fg * 64 + c.cseq % 64)) ∧
          { c with frozen := true, armed := true } ∈ (port t d (cPort s d k)).cycles) ∧
        (¬(c.noWave = false ∧ c.mute = false ∧ c.repls = 0 ∧ running s (pgHp d (cPort s d k)) = true ∧
            (port s d (cPort s d k)).link = 3) →
          t.out = s.out ∧ { c with frozen := true } ∈ (port t d (cPort s d k)).cycles))) ∧
  (∀ (s : State) (d k : Nat), d < s.part.dies → k < nCtx s → bound s d k = true →
    ∀ c, firstCycle s d k (fun _ => true) = some c →
    (∀ x ∈ (port s d (cPort s d k)).cycles, x.fg = c.fg → x.cseq = c.cseq → x = c) → (ctx s d c.tctx).aborting = false →
    Completes (.cycleFire d k) s fun t => (ctx t d c.tctx).lastFired = some c.t0 ∧
      (c.frozen = true → c.acked = false → c.lostFrame = false →
        { c with fired := true } ∈ (port t d (cPort s d k)).cycles))

/-- Blocks, built lines, seam shares and flush scans (spec/06_image_path.md, spec/11_hoist_and_chutes.md, log
entry 29, log entry 69). BLOCK_ACCEPT of a chute that the assembler reads and that delivers, with no block in
the assembler, nothing to skip, no hunt, and a head of 8 words without poison: a head word without TYPE and
VERSION counts a bad block, shows chute, context and reason 1, and leaves the lode; of a context that takes
blocks and has a slot free, a duplicate counts and latches event 16 and leaves the expected sequence number,
and an uncompressed block of the right length without CRC and LAST that stands whole in the chute without
errors, fits, finds its slots free and is not in a seam that is UP takes the expected sequence number past its
own, the expected line past its last, and counts a gap if there was one. A chute that does not deliver is left
as it is. LINE_BUILD of a context whose next line can be built, no word poisoned, appends that line and moves
to the next. SEAM_SHARE_RECEIVE of the first message on its way, a share to a die of the part: a context that
is no partner or waits, or whose page is neither running nor shutting down, drops it, counted and with event
5; else it is counted, and kept if its image line is neither stored nor past, or stored with the image line if
that is not printed from host data. SEAM_CREDIT_RETURN of the first message on its way, a credit for a context
without a block in the assembler, gives it one. CHUTE_FLUSH_SCAN of a running chute with a scan in progress
ends it with event 6. -/
def Obligations.ImageBlocks : Prop :=
  (∀ (s : State) (d c : Nat), d < s.part.dies → asmReads s d c = true → chuteHeld s d c = false →
    (chute s d c).skip = 0 → (chute s d c).hunting = false → (chute s d c).blk = none →
    ∀ w ws, (chute s d c).words = w :: ws → 7 ≤ ws.length → (∀ x ∈ (w :: ws).take 8, x.ecc ≠ .bad) →
    (typeOk w.w = false → Completes (.blockAccept d c) s fun t =>
      rd t (pgSeam d) Off.IMG_BAD = inc24 (rd s (pgSeam d) Off.IMG_BAD) ∧
      rd t (pgSeam d) Off.IMG_BAD_INFO = word (c * 2 ^ 18 + fld w.w 8 8 * 2 ^ 8 + 1) ∧ t.mem = s.mem) ∧
    (∀ h, h = hdrOf ((w :: ws).map CWord.w) → typeOk w.w = true → ctxOk s d c w.w = true → takesBlocks s d h.ctx = true →
      (ctx s d h.ctx).lines.length < geoDepth s d h.ctx →
      (fitOf s d h.ctx h = .dup → Completes (.blockAccept d c) s fun t =>
        (ctx t d h.ctx).cntDup = inc12 (ctx s d h.ctx).cntDup ∧ (ctx t d h.ctx).seqExp = (ctx s d h.ctx).seqExp ∧
        rb t (pgCtx d) (Off.CTX_EVT + 4 * h.ctx) 16 = true) ∧
      (∀ gap missing sw, fitOf s d h.ctx h = .ok gap missing sw → h.comp = false → h.crc = false → h.last = false →
        rb s (pgSeam d) Off.IMG_CFG 0 = false → h.payload = h.lines * ceilDiv (h.cols * greyBits s d h.ctx) 24 →
        h.len ≤ ws.length + 1 → (∀ x ∈ w :: ws, x.ecc = .good) → (ctx s d h.ctx).seam ≠ 2 →
        h.lines ≤ geoDepth s d h.ctx → h.first + h.lines ≤ 2 ^ 24 →
        (∀ i < h.lines, slotFree s d h.ctx ((ctx s d h.ctx).swIn + b2n sw) (h.first + i) = true) →
        Completes (.blockAccept d c) s fun t =>
          (ctx t d h.ctx).seqExp = (h.seq + 1) % 2 ^ 24 ∧ (ctx t d h.ctx).lineL = (h.first + h.lines) % 2 ^ 24 ∧
          (ctx t d h.ctx).cntGap = (if gap then inc12 (ctx s d h.ctx).cntGap else (ctx s d h.ctx).cntGap)))) ∧
  (∀ (s : State) (d c : Nat), chuteHeld s d c = true → exec (.blockAccept d c) s = .next s) ∧
  (∀ (s : State) (d k : Nat), d < s.part.dies → k < nCtx s → s.ecc = [] → buildOpen s d k = true →
    (∀ m ∈ needed s d k (ctx s d k).nextBuild, lineReady s d k m = true) → Completes (.lineBuild d k) s fun t =>
      (ctx t d k).nextBuild = ((ctx s d k).nextBuild + 1) % 2 ^ 24 ∧
      ∃ b, (ctx t d k).built = (ctx s d k).built ++ [b] ∧ b.n = (ctx s d k).nextBuild ∧ b.sw = (ctx s d k).swBuild) ∧
  (∀ (s : State) (q : SeamMsg) (rest : List SeamMsg), s.seamQ = q :: rest → ∀ vals, q.vals = some vals →
    q.die < s.part.dies → ∀ d, d = q.die → ∀ k, k = q.ctx →
    (seamRole s d k ≠ 2 ∨ (ctx s d k).seam = 1 ∨ (running s (pgSeam d) = false ∧ pstate s (pgSeam d) ≠ stShutting) →
      Completes (.seamShareReceive d) s fun t =>
        rd t (pgSeam d) Off.SEAM_DROP = inc24 (rd s (pgSeam d) Off.SEAM_DROP) ∧ rb t (pgSeam d) Off.EVT_LAT 5 = true ∧
        t.ctxs = s.ctxs ∧ t.seamQ = rest) ∧
    (seamRole s d k = 2 → (ctx s d k).seam ≠ 1 → running s (pgSeam d) = true ∨ pstate s (pgSeam d) = stShutting →
      Completes (.seamShareReceive d) s fun t => rd t (pgSeam d) Off.SHARE_RX = inc24 (rd s (pgSeam d) Off.SHARE_RX) ∧
        t.seamQ = rest ∧
        ((ctx s d k).lines.find? (fun l => decide (l.m = q.m) && decide (l.sw = q.sw)) = none →
          (ctx s d k).swBuild < q.sw ∨ ((ctx s d k).swBuild = q.sw ∧ lineOver s d k q.m ((ctx s d k).nextBuild + 2 ^ 24 - 1) = false) →
          (ctx t d k).shares = (ctx s d k).shares ++ [(q.sw, q.m, vals)]) ∧
        (∀ l, (ctx s d k).lines.find? (fun l => decide (l.m = q.m) && decide (l.sw = q.sw)) = some l → l.ownHost = false →
          ∀ x ∈ (ctx t d k).lines, x.m = q.m → x.share = true))) ∧
  (∀ (s : State) (q : SeamMsg) (rest : List SeamMsg), s.seamQ = q :: rest → q.vals = none →
    ∀ d, d = q.die → ∀ k, k = q.ctx →
    (chute s d (ctx s d k).inChute).blk = none →
    Completes (.seamCreditReturn d) s fun t => (ctx t d k).credits = (ctx s d k).credits + 1 ∧ t.seamQ = rest) ∧
  (∀ (s : State) (d c : Nat), running s (pgChute d c) = true → c < 64 → (chute s d c).flush ≠ [] →
    Completes (.chuteFlushScan d c) s fun t => (chute t d c).flush = [] ∧ rb t (pgChute d c) Off.EVT_LAT 6 = true)

/-- Waveform loads, the head heater and the nozzle map (spec/07_waveforms.md, spec/08_nozzle_health.md, log entry
71). WF_LOAD_START, taken while no load runs: of the active bank it fails with code 1 and event 1; of a bank
neither active nor selected by the shadow, from 4,096 words of the dual-port store above word 16,383, it waits
for the copy and shows the bank as not loaded and no error. WF_LOAD_COPY of a waiting load, with every cycle
bound to the bank fired or without waveform and no word poisoned, copies the 4,096 words and goes on to the
head. WF_LOAD_HEAD before its frames are queued appends 16 TABLE frames not yet tried with the link UP, and
changes no register, or fails with code 5 without. LOAD_DONE with every table acknowledged shows the bank as
loaded with event 0. HEATER_UPDATE of a port of a die that is awake shows the off reason; without one the new
duty and the integrator lie within the limit, with one the duty is 0 and the integrator 0.
NOZZLE_MAP_LOAD_DONE of a bound context whose map is not ready, no word poisoned, fills the map with state and
trim of each entry of the table. -/
def Obligations.WaveformLoads : Prop :=
  (∀ (s : State) (r : Req) (d p : Nat) (v : Word), Taken s r (pgHp d p) Off.WF_CTRL → p < 16 → loading s d p = false →
    (fld v 4 1 = activeBank s d p → Completes (.wfLoadStart r d p v) s fun t =>
      loadState t d p = 5 ∧ rf t (pgHp d p) Off.WF_STAT 12 4 = 1 ∧ rb t (pgHp d p) Off.EVT_LAT 1 = true) ∧
    (fld v 4 1 ≠ activeBank s d p → fld v 4 1 ≠ fld (rdShadow s (pgHp d p) Off.WF_BANK_SEL) 0 1 →
      16384 ≤ rf s (pgHp d p) Off.WF_SRC 0 17 → rf s (pgHp d p) Off.WF_SRC 0 17 + 4095 ≤ 131071 →
      Completes (.wfLoadStart r d p v) s fun t => loadState t d p = 1 ∧ loaded t d p (fld v 4 1) = false ∧
        (port t d p).loadBank = fld v 4 1 ∧ rf t (pgHp d p) Off.WF_STAT 12 4 = 0)) ∧
  (∀ (s : State) (d p : Nat), d < s.part.dies → s.ecc = [] → loadState s d p = 1 →
    (∀ c ∈ (port s d p).cycles, c.bank = (port s d p).loadBank → c.fired = true ∨ c.noWave = true) →
    Completes (.wfLoadCopy d p) s fun t => loadState t d p = 3 ∧ ∀ i < 4096,
      bankWord t d p (port s d p).loadBank i = rawWord s (wordAddr d true (rf s (pgHp d p) Off.WF_SRC 0 17 + i))) ∧
  (∀ (s : State) (d p : Nat), d < s.part.dies → loadState s d p = 3 → (port s d p).loadQueued = false →
    ((port s d p).link = 3 → Completes (.wfLoadHead d p) s fun t => t.regs = s.regs ∧ (port t d p).loadTables = 16 ∧
      (port t d p).queue.length = (port s d p).queue.length + 16 ∧ (port s d p).queue <+: (port t d p).queue ∧
      ∀ f ∈ (port t d p).queue.drop (port s d p).queue.length, f.kind = 3 ∧ f.tries = 0) ∧
    ((port s d p).link ≠ 3 → Completes (.wfLoadHead d p) s fun t => loadState t d p = 5 ∧
      rf t (pgHp d p) Off.WF_STAT 12 4 = 5)) ∧
  (∀ (s : State) (d p : Nat), d < s.part.dies → loadState s d p = 3 → (port s d p).loadQueued = true →
    (port s d p).loadTables = 0 → (port s d p).loadBank < 2 → present s (pgHp d p) = true → Completes (.loadDone d p) s fun t =>
      loadState t d p = 4 ∧ loaded t d p (port s d p).loadBank = true ∧ rb t (pgHp d p) Off.EVT_LAT 0 = true) ∧
  (∀ (s : State) (d p : Nat), d < s.part.dies → p < nPorts s → awake s d = true →
    Completes (.heaterUpdate d p) s fun t => rf t (pgHp d p) Off.HTR_DUTY 12 4 = htrReason s d p ∧
      (htrReason s d p = 0 → (port t d p).htrNew ≤ rf s (pgHp d p) Off.HTR_LIMIT 14 10 ∧ 0 ≤ (port t d p).integ ∧
        (port t d p).integ ≤ rf s (pgHp d p) Off.HTR_LIMIT 14 10) ∧
      (htrReason s d p ≠ 0 → rf t (pgHp d p) Off.HTR_DUTY 0 10 = 0 ∧ (port t d p).htrNew = 0 ∧ (port t d p).integ = 0)) ∧
  (∀ (s : State) (d k : Nat), d < s.part.dies → k < nCtx s → s.ecc = [] → bound s d k = true → (ctx s d k).mapReady = false →
    Completes (.nozzleMapLoadDone d k) s fun t => (ctx t d k).mapReady = true ∧ ∀ i ≤ cCount s d k,
      Tbl.get (ctx t d k).map i {} = ⟨fld (rawWord s (lodeAddr d (af s d k 41 0 21 + 8 * i))) 21 3,
        fld (rawWord s (lodeAddr d (af s d k 41 0 21 + 8 * i))) 12 2⟩)

/-- Echo results, sweeps and nozzle commands (spec/08_nozzle_health.md). ECHO_RESULT with 8 baseline samples and
the samples of the window of the oldest measurement of the die, each of 12 bits and no word poisoned, ends
that measurement and counts it either as valid or as invalid. SWEEP_START, taken while no sweep runs: in
SERVICE, on a PRINTING context that is sensed, whose port is not thermal and whose table is good, as a capture
by firmware alone, it runs with its counts 0; a capture by another requester is refused with code 3; on a
context not PRINTING it is refused with code 2; in another mode with code 1. SWEEP_ABORT ends a running sweep
with code 4 and event 6. A nozzle command taken in a mode from 2 on, on an entry within a good table with no
word poisoned, answers DONE and changes only the 24 bytes of the entry in memory: SET_STATE the state,
SET_TRIM trim and base, CLEAR_HIST word 6 and the count in word 0, REF_INVALID and REF_VALID the reference
bit, LOCK_TRIM the lock; SET_STATE of state 7 answers 0x11, latches event 8 and changes no memory. -/
def Obligations.EchoAndNozzles : Prop :=
  (∀ (s : State) (d : Nat) (base win : List Nat), s.ecc = [] → base.length = 8 → (∀ v ∈ base ++ win, v < 4096) →
    ∀ m rest, (echo s d).meas = m :: rest → win.length = m.len → Completes (.echoResult d base win) s fun t => (echo t d).meas = rest ∧
      ((rd t (pgEcho d) Off.MEAS_CNT = inc24 (rd s (pgEcho d) Off.MEAS_CNT) ∧
          rd t (pgEcho d) Off.INVALID_CNT = rd s (pgEcho d) Off.INVALID_CNT) ∨
        (rd t (pgEcho d) Off.INVALID_CNT = inc24 (rd s (pgEcho d) Off.INVALID_CNT) ∧
          rd t (pgEcho d) Off.MEAS_CNT = rd s (pgEcho d) Off.MEAS_CNT))) ∧
  (∀ (s : State) (r : Req) (d k : Nat), Taken s r (pgEcho d) Off.SWEEP_CTRL → rf s (pgEcho d) Off.SWEEP_STAT 0 3 ≠ 1 →
    k = rf s (pgEcho d) Off.SWEEP_CFG 16 8 →
    (modeOf s d = 3 → (ctx s d k).st = .printing → persOf s d (cPort s d k) ≠ 2 → bit (aw s d k 40) 0 = true →
      (ctx s d k).ntBad = false → Completes (.sweepStart r d) s fun t =>
        (capturing s d = false ∨ clsOn r (pgEcho d) = .firmware →
          rf t (pgEcho d) Off.SWEEP_STAT 0 3 = 1 ∧ rd t (pgEcho d) Off.SWEEP_DONE = 0#24 ∧ rd t (pgEcho d) Off.SWEEP_MISS = 0#24) ∧
        (capturing s d = true → clsOn r (pgEcho d) ≠ .firmware →
          rf t (pgEcho d) Off.SWEEP_STAT 0 3 = 3 ∧ rf t (pgEcho d) Off.SWEEP_STAT 4 4 = 3)) ∧
    (modeOf s d = 3 → (ctx s d k).st ≠ .printing → Completes (.sweepStart r d) s fun t =>
      rf t (pgEcho d) Off.SWEEP_STAT 0 3 = 3 ∧ rf t (pgEcho d) Off.SWEEP_STAT 4 4 = 2) ∧
    (modeOf s d ≠ 3 → Completes (.sweepStart r d) s fun t =>
      rf t (pgEcho d) Off.SWEEP_STAT 0 3 = 3 ∧ rf t (pgEcho d) Off.SWEEP_STAT 4 4 = 1)) ∧
  (∀ (s : State) (r : Req) (d : Nat), Taken s r (pgEcho d) Off.SWEEP_CTRL → rf s (pgEcho d) Off.SWEEP_STAT 0 3 = 1 →
    Completes (.sweepAbort r d) s fun t => rf t (pgEcho d) Off.SWEEP_STAT 0 3 = 3 ∧ rf t (pgEcho d) Off.SWEEP_STAT 4 4 = 4 ∧
      rb t (pgEcho d) Off.EVT_LAT 6 = true) ∧
  (∀ (s : State) (r : Req) (d i : Nat), NzTaken s r d i →
    (∀ arg, arg % 8 ≠ 7 → Completes (.setState r d arg) s fun t => rf t (pgEcho d) Off.NZ_CMD_STAT 16 8 = 1 ∧
      fld (rawWord t (nzWord s d i 0)) 21 3 = arg % 8 ∧ OtherBytes s t (nzWord s d i 0) 24) ∧
    (∀ arg, arg % 8 = 7 → Completes (.setState r d arg) s fun t => rf t (pgEcho d) Off.NZ_CMD_STAT 16 8 = 0x11 ∧
      t.mem = s.mem ∧ rb t (pgEcho d) Off.EVT_LAT 8 = true) ∧
    (∀ arg, Completes (.setTrim r d arg) s fun t => rf t (pgEcho d) Off.NZ_CMD_STAT 16 8 = 1 ∧
      fld (rawWord t (nzWord s d i 0)) 12 2 = arg % 4 ∧ fld (rawWord t (nzWord s d i 0)) 10 2 = arg % 4 ∧
      OtherBytes s t (nzWord s d i 0) 24) ∧
    (Completes (.clearHist r d) s fun t => rf t (pgEcho d) Off.NZ_CMD_STAT 16 8 = 1 ∧ rawWord t (nzWord s d i 6) = 0#24 ∧
      fld (rawWord t (nzWord s d i 0)) 14 4 = 0 ∧ OtherBytes s t (nzWord s d i 0) 24) ∧
    (Completes (.refInvalid r d) s fun t => rf t (pgEcho d) Off.NZ_CMD_STAT 16 8 = 1 ∧
      rawWord t (nzWord s d i 0) = setBit (rawWord s (nzWord s d i 0)) 9 false ∧ OtherBytes s t (nzWord s d i 0) 24) ∧
    (Completes (.refValid r d) s fun t => rf t (pgEcho d) Off.NZ_CMD_STAT 16 8 = 1 ∧
      rawWord t (nzWord s d i 0) = setBit (rawWord s (nzWord s d i 0)) 9 true ∧ OtherBytes s t (nzWord s d i 0) 24) ∧
    (∀ arg, Completes (.lockTrim r d arg) s fun t => rf t (pgEcho d) Off.NZ_CMD_STAT 16 8 = 1 ∧
      rawWord t (nzWord s d i 0) = setFld (rawWord s (nzWord s d i 0)) 8 1 (arg % 16 % 2) ∧ OtherBytes s t (nzWord s d i 0) 24))

/-- Discovery, training and loss of a Sypol link (spec/09_sypol_link.md, spec/17_startup_and_containment.md). Of a
head port of the part. LINK_DISCOVERY in DISCOVER ends in FAILED with event 14 and its code: 1 without an
answer, 2 for a bad record, 3 for a head of another personality, 4 for a head too slow for a piezo port, 5 for
a configured rate too low for one; else it trains at the lower of the configured and the head's rate, with the
head's nozzles known. DISCOVERY_REPEAT of an enabled starting port in FAILED goes back to discovery no earlier
than 25,000,000 ticks after the failure. LINK_UP in training or retraining makes the link UP, shows its rate,
latches event 12, begins the frame numbers at 0 and takes a starting port to RUNNING. TRAIN_ATTEMPT_TIMEOUT
comes no earlier than 5,000 ticks after the attempt began, counts a first failure and changes no register of
the port; at a second one above the lowest rate it goes one rate lower, and at the lowest rate ends in FAILED,
with code 5 in a first training; in a retraining it fences a port that can be fenced with reason 0x0A.
UPSTREAM_CODE_ERRORS with the link UP starts retraining with cause 6, without unacknowledged frames, counted,
with event 13. STATUS_STALE with the link UP or retraining comes no earlier than 1,000,000 ticks after the
last STATUS and sets STALE and its level event. -/
def Obligations.LinkLife : Prop :=
  (∀ (s : State) (d p : Nat), PortThere s d p → (port s d p).link = 1 →
    (Completes (.linkDiscovery d p none) s fun t => (port t d p).link = 5 ∧ rf t (pgHp d p) Off.SY_STAT 0 3 = 5 ∧
      rf t (pgHp d p) Off.SY_STAT 12 4 = 1 ∧ rb t (pgHp d p) Off.EVT_LAT 14 = true) ∧
    (∀ l, Completes (.linkDiscovery d p (some l)) s fun t =>
      (recGood l = false → rf t (pgHp d p) Off.SY_STAT 0 3 = 5 ∧ rf t (pgHp d p) Off.SY_STAT 12 4 = 2) ∧
      (recGood l = true → (recByte l 3).testBit (persOf s d p) = false →
        rf t (pgHp d p) Off.SY_STAT 0 3 = 5 ∧ rf t (pgHp d p) Off.SY_STAT 12 4 = 3) ∧
      (recGood l = true → (recByte l 3).testBit (persOf s d p) = true →
        (persOf s d p ≠ 2 → recByte l 6 % 4 = 0 →
          rf t (pgHp d p) Off.SY_STAT 0 3 = 5 ∧ rf t (pgHp d p) Off.SY_STAT 12 4 = 4) ∧
        (persOf s d p ≠ 2 → recByte l 6 % 4 ≠ 0 → rf s (pgHp d p) Off.SY_CFG 0 2 = 0 →
          rf t (pgHp d p) Off.SY_STAT 0 3 = 5 ∧ rf t (pgHp d p) Off.SY_STAT 12 4 = 5) ∧
        ((persOf s d p ≠ 2 → recByte l 6 % 4 ≠ 0 ∧ rf s (pgHp d p) Off.SY_CFG 0 2 ≠ 0) →
          (port t d p).link = 2 ∧ rf t (pgHp d p) Off.SY_STAT 0 3 = 2 ∧
          (port t d p).rate = min (rf s (pgHp d p) Off.SY_CFG 0 2) (recByte l 6 % 4) ∧
          headNozzles t d p = (recByte l 4 * 256 + recByte l 5 - 1) % 4096 + 1)))) ∧
  (∀ (s : State) (d p : Nat), PortThere s d p → (port s d p).link = 5 → pstate s (pgHp d p) = stStarting →
    rb s (pgHp d p) Off.PAGE_CTRL 0 = true → Completes (.discoveryRepeat d p) s fun t => (port t d p).link = 1 ∧
      (port s d p).failAt + 25000000 ≤ t.clock) ∧
  (∀ (s : State) (d p : Nat), PortThere s d p → ((port s d p).link = 2 ∨ (port s d p).link = 4) →
    (Completes (.linkUp d p) s fun t => (port t d p).link = 3 ∧ rf t (pgHp d p) Off.SY_STAT 0 3 = 3 ∧
      rf t (pgHp d p) Off.SY_STAT 4 2 = (port s d p).rate % 4 ∧ rb t (pgHp d p) Off.EVT_LAT 12 = true ∧ (port t d p).fseqNext = 0 ∧
      pstate t (pgHp d p) = if pstate s (pgHp d p) = stStarting then stRunning else pstate s (pgHp d p)) ∧
    (∀ n, Completes (.trainAttemptTimeout d ⟨p, n⟩) s fun t => (port s d p).tryAt + 5000 ≤ t.clock ∧
      ((port s d p).attempts = 0 → (∀ off, rd t (pgHp d p) off = rd s (pgHp d p) off) ∧
        (port t d p).attempts = 1 ∧ (port t d p).rate = (port s d p).rate) ∧
      ((port s d p).attempts ≠ 0 → rateFloor s d p < (port s d p).rate →
        (port t d p).attempts = 0 ∧ (port t d p).rate + 1 = (port s d p).rate ∧ (port t d p).link = (port s d p).link) ∧
      ((port s d p).attempts ≠ 0 → (port s d p).rate ≤ rateFloor s d p →
        (port t d p).link = 5 ∧ ((port s d p).link = 2 → rf t (pgHp d p) Off.SY_STAT 12 4 = 5) ∧
        ((port s d p).link = 4 → takesFence s (pgHp d p) = true →
          fenced t (pgHp d p) = true ∧ pageReason t (pgHp d p) = 0x0A)))) ∧
  (∀ (s : State) (d p : Nat), PortUp s d p → Completes (.upstreamCodeErrors d p) s fun t => (port t d p).link = 4 ∧
    (port t d p).retrainCause = 6 ∧ (port t d p).outst = [] ∧ rb t (pgHp d p) Off.EVT_LAT 13 = true ∧
    rd t (pgHp d p) Off.CNT_RETRAIN = inc24 (rd s (pgHp d p) Off.CNT_RETRAIN)) ∧
  (∀ (s : State) (d p : Nat), PortThere s d p → ((port s d p).link = 3 ∨ (port s d p).link = 4) →
    Completes (.statusStale d p) s fun t => (port s d p).statusAt + 1000000 ≤ t.clock ∧
      rb t (pgHp d p) Off.SY_HEAD_STAT 4 = true ∧ rb t (pgHp d p) Off.EVT_DYN 20 = true)

/-- Frames, acknowledgements and status of a Sypol link (spec/09_sypol_link.md, log entry 73). Of a head port of
the part with its link UP on a die not in STANDBY, with no injection permitted. FRAME_SEND, with the lanes
free, no reordered frame to follow and no shut-down frames waiting, of the next frame, not yet sent: in time
for its deadline it puts its words with the next FSEQ and their check word on the lanes, counts it in CNT_TX
and waits for its ACK; a DATA frame that is too late is not sent, counts in CNT_LATE and latches event 18, and
where the NULL frame of its cycle can leave in time that is queued. The characters of an upstream frame that
cannot be read or fails its checks leave the port as it is, are counted in CNT_UP_BAD and latch event 19. The
characters of an ACK with code 0 for an unacknowledged frame, within 400 ticks of its last transmission and
not before a retransmission has left, take it off the unacknowledged ones and end the row of give-ups; later
ones leave the unacknowledged frames. The characters of a STATUS set the head's temperature, flags and error
counters. ACK_TIMEOUT of an unacknowledged frame whose retransmission is not queued comes no earlier than 400
ticks after its last transmission: with fewer than three retries and in time for its deadline it is queued
again, counted, with event 15; else it is given up, counted, with event 16, and after a third retry the link
retrains with cause 7. That the places of characters count from LINK_UP is the model's choice (log entry 73). -/
def Obligations.LinkFrames : Prop :=
  (∀ (s : State) (d p : Nat), PortUp s d p → injOk s d = false → (port s d p).follow = [] → (port s d p).stopFrames = [] →
    (port s d p).wireFree ≤ s.clock → ∀ f, firstDue (sendable s d p) none = some f → f.tries = 0 →
    (meets (unqueue s d p f) d p (f.words.length + 1) f = true → Completes (.frameSend d p) s fun t =>
      t.out = s.out ++ [.frame d p (charAt (port s d p) s.clock) (sealWords f.words (port s d p).fseqNext false)] ∧
      (port t d p).queue = (port s d p).queue.erase f ∧ (port t d p).outst.length = (port s d p).outst.length + 1 ∧
      (port t d p).fseqNext = ((port s d p).fseqNext + 1) % 256 ∧
      rd t (pgHp d p) Off.CNT_TX = inc24 (rd s (pgHp d p) Off.CNT_TX)) ∧
    (meets (unqueue s d p f) d p (f.words.length + 1) f = false → f.kind = 1 → isReplace f = false →
      Completes (.frameSend d p) s fun t => rb t (pgHp d p) Off.EVT_LAT 18 = true ∧
        rd t (pgHp d p) Off.CNT_LATE = inc24 (rd s (pgHp d p) Off.CNT_LATE) ∧
        rd t (pgHp d p) Off.CNT_TX = rd s (pgHp d p) Off.CNT_TX ∧
        (meets (unqueue s d p f) d p 3 f = true → nullOf f ∈ (port t d p).queue))) ∧
  (∀ (s : State) (d p : Nat), PortUp s d p →
    (∀ cs, upGood ((frameRead cs).getD []) = false →
      (Completes (.ackReceive d p cs) s fun t => port t d p = port s d p ∧
        rb t (pgHp d p) Off.EVT_LAT 19 = true ∧ rd t (pgHp d p) Off.CNT_UP_BAD = inc24 (rd s (pgHp d p) Off.CNT_UP_BAD)) ∧
      (Completes (.statusReceive d p cs) s fun t => port t d p = port s d p ∧
        rb t (pgHp d p) Off.EVT_LAT 19 = true ∧ rd t (pgHp d p) Off.CNT_UP_BAD = inc24 (rd s (pgHp d p) Off.CNT_UP_BAD))) ∧
    (∀ w, injOk s d = false → (port s d p).upHeld = [] → fld w 20 4 = 1 → fld w 10 2 = 0 →
      ∀ f, (port s d p).outst.find? (fun f => decide (f.fseq = fld w 12 8)) = some f →
        Completes (.ackReceive d p (frameChars [w, crcWords [w]])) s fun t =>
          (s.clock ≤ f.sentAt + 400 → f.tries = 0 ∨ f.sentAt ≤ s.clock →
            (∀ g ∈ (port t d p).outst, g.fseq ≠ f.fseq) ∧ (port t d p).giveRow = 0) ∧
          (f.sentAt + 400 < s.clock → (port t d p).outst = (port s d p).outst)) ∧
    (∀ w0 w1 w2, injOk s d = false → (port s d p).upHeld = [] → fld w0 20 4 = 2 →
      Completes (.statusReceive d p (frameChars [w0, w1, w2, crcWords [w0, w1, w2]])) s fun t => (port t d p).statusAt = s.clock ∧
        rf t (pgHp d p) Off.THM_VHEAD 0 16 = fld w1 0 16 ∧ rb t (pgHp d p) Off.THM_VHEAD 16 = true ∧
        rf t (pgHp d p) Off.SY_HEAD_STAT 0 5 = fld w0 0 4 ∧
        rd t (pgHp d p) Off.CNT_ERR_DA = add24 (rd s (pgHp d p) Off.CNT_ERR_DA) (fld w2 12 12) ∧
        rd t (pgHp d p) Off.CNT_ERR_DB = add24 (rd s (pgHp d p) Off.CNT_ERR_DB) (fld w2 0 12)) ∧
    (∀ q f, (port s d p).outst.find? (fun g => decide (g.fseq = q)) = some f →
      (((port s d p).queue ++ (port s d p).held ++ (port s d p).follow).any
        fun g => decide (g.tries ≠ 0) && decide (g.fseq = q)) = false →
      (f.tries < 3 → meets (waitClock s (f.sentAt + 400)) d p (f.words.length + 1) f = true →
        Completes (.ackTimeout d p q) s fun t => f.sentAt + 400 ≤ t.clock ∧ rb t (pgHp d p) Off.EVT_LAT 15 = true ∧
          rd t (pgHp d p) Off.CNT_RETRY = inc24 (rd s (pgHp d p) Off.CNT_RETRY) ∧
          { f with tries := f.tries + 1 } ∈ (port t d p).queue) ∧
      (3 ≤ f.tries ∨ meets (waitClock s (f.sentAt + 400)) d p (f.words.length + 1) f = false →
        Completes (.ackTimeout d p q) s fun t => f.sentAt + 400 ≤ t.clock ∧ rb t (pgHp d p) Off.EVT_LAT 16 = true ∧
          rd t (pgHp d p) Off.CNT_GIVEUP = inc24 (rd s (pgHp d p) Off.CNT_GIVEUP) ∧
          (3 ≤ f.tries → (port t d p).link = 4 ∧ (port t d p).retrainCause = 7))))

/-- Axis commands wait for the profile tick and act there (spec/10_motion_axes.md, log entry 34, log entry 75). A
taken write of a command to AX_CMD by any requester adds the requester and the command's code to the axis'
commands and changes nothing else of the axis. Of an axis of the part in a die that is awake, with no fault
stop and no homing edge due: PROFILE_TICK processes the one command waiting. MOVE from rest, under the
planner, in a page that is not shutting down, is refused with 0x11, its state kept and event 13 latched, when
AX_VMAX is 0, and with velocity and accelerations not 0, no fault bit set and no active limit in the direction
of the target it is accepted with that target; CUT of a moving axis stops it in REST with the position invalid
and event 1; LOAD at rest sets the position and makes it valid; CLEAR at rest clears the faults. With no
command waiting a stopping axis that stands is HALTED, with event 1 and the distance to its target in
AX_REMAIN. What a page that is shutting down does with commands that start a motion (log entry 75) is the
model's choice and not stated here; that a limit counts as active with or without its LIM_EN is what log entry
34 says. -/
def Obligations.AxisCommands : Prop :=
  (∀ (s : State) (r : Req) (d a : Nat), a < 4 → Taken s r (pgAx d a) Off.AX_CMD →
    ∀ ic ∈ [(Instr.axMove r d a, 1), (.axStop r d a, 2), (.axResume r d a, 3), (.axHome r d a, 4), (.axLoad r d a, 5),
      (.axClear r d a, 6), (.axCut r d a, 7)],
      Completes ic.1 s fun t => axis t d a = { axis s d a with cmds := (axis s d a).cmds ++ [(r, ic.2)] }) ∧
  (∀ (s : State) (d a : Nat), axThere s d a = true → awake s d = true → (axis s d a).stopDue = false → (axis s d a).homeEv = [] →
    ((axis s d a).cmds.map Prod.snd = [1] → mstate s d a = msRest → stepIn s d a = false → axEnding s d a = false →
      (rdN s (pgAx d a) Off.AX_VMAX = 0 → Completes (.profileTick d a) s fun t =>
        rdN t (pgAx d a) Off.AX_CMD_STAT = 0x110001 ∧ mstate t d a = msRest ∧ rb t (pgAx d a) Off.EVT_LAT 13 = true) ∧
      (rdN s (pgAx d a) Off.AX_VMAX ≠ 0 → rdN s (pgAx d a) Off.AX_ACC ≠ 0 → rdN s (pgAx d a) Off.AX_DEC ≠ 0 →
        rdN s (pgAx d a) Off.AX_FAULT = 0 → limitAhead s d a = false → Completes (.profileTick d a) s fun t =>
          rdN t (pgAx d a) Off.AX_CMD_STAT = 0x10001 ∧ (mstate t d a = msMoving ∨ mstate t d a = msRest) ∧
          (axis t d a).tgt = axTarget s d a)) ∧
    ((axis s d a).cmds.map Prod.snd = [7] → mstate s d a = msMoving → Completes (.profileTick d a) s fun t =>
      rdN t (pgAx d a) Off.AX_CMD_STAT = 0x10007 ∧ mstate t d a = msRest ∧ axMoving t d a = false ∧
      rb t (pgAx d a) Off.AX_STAT 18 = false ∧ rb t (pgAx d a) Off.EVT_LAT 1 = true) ∧
    ((axis s d a).cmds.map Prod.snd = [5] → mstate s d a = msRest → Completes (.profileTick d a) s fun t =>
      rdN t (pgAx d a) Off.AX_CMD_STAT = 0x10005 ∧ axPos t d a = sgn 48 (rd48 s (pgAx d a) Off.AX_POS_SET_L) ∧
      rb t (pgAx d a) Off.AX_STAT 18 = true) ∧
    ((axis s d a).cmds.map Prod.snd = [6] → mstate s d a = msRest → Completes (.profileTick d a) s fun t =>
      rdN t (pgAx d a) Off.AX_CMD_STAT = 0x10006 ∧ rd t (pgAx d a) Off.AX_FAULT = 0#24) ∧
    ((axis s d a).cmds = [] → mstate s d a = msStopping → (axis s d a).v = 0 → (axis s d a).a = 0 →
      Completes (.profileTick d a) s fun t => mstate t d a = msHalted ∧ rb t (pgAx d a) Off.EVT_LAT 1 = true ∧
        rd48 t (pgAx d a) Off.AX_REMAIN_L = uns 48 (axTarget s d a - axPos t d a)))

/-- The current loop, faults, step inputs, enabling and switches of an axis (spec/10_motion_axes.md, log entry
35). Of an axis of the part, its die awake where a row needs its clock. CURRENT_LOOP_TICK with the bridges
enabled shows both sampled currents, clamped to 12 bits, notes its tick, and on a second sample in a row with
the first phase's current above the limit, stall detection off, fences an axis that can be fenced with reason
0x13 and its fault bit. BRIDGE_FAULT with the bridges enabled fences an axis that can be fenced with reason
0x12, sets its fault bit and event and disables the bridges. STEP_INPUT of a running axis in FOLLOW counts the
step, moves the input position by the step's worth within 48 bits and shows its direction. AX_ENABLE_DONE of a
starting axis comes no earlier than 80,000 ticks after its ramp began; with EN = 1 the axis is then RUNNING,
in FOLLOW under step inputs unless it comes back from a fence, else in REST, and with EN = 0 it is SHUTTING. A
new level of a switch input, its inversion applied, qualifies at once without debounce, with its number in
AX_EDGE_INFO and event 12; with debounce, outside a burst, a level other than the qualified one starts a burst
and changes no register. SW_EDGE of an input in a burst comes no earlier than the debounce time after its last
edge, ends the burst and leaves the qualified level at the input's; a new one latches event 12, an old one
counts in CNT_CHATTER. -/
def Obligations.AxisInputs : Prop :=
  (∀ (s : State) (d a : Nat) (ia ib : Int), axThere s d a = true → awake s d = true → (axis s d a).ben = true →
    Completes (.currentLoopTick d a ia ib) s fun t => (axis t d a).loopAt = some t.clock ∧
      rf t (pgAx d a) Off.AX_IPH 12 12 = uns 12 (satI 12 ia) ∧ rf t (pgAx d a) Off.AX_IPH 0 12 = uns 12 (satI 12 ib) ∧
      (rdN s (pgAx d a) Off.AX_STALL_VMIN = 0 → takesFence s (pgAx d a) = true → 1 ≤ (axis s d a).ocCount →
        rf s (pgAx d a) Off.AX_OC 0 12 < (2 * satI 12 ia).natAbs → fenced t (pgAx d a) = true ∧ pageReason t (pgAx d a) = 0x13 ∧
          rb t (pgAx d a) Off.AX_FAULT 6 = true)) ∧
  (∀ (s : State) (d a : Nat), axThere s d a = true → (axis s d a).ben = true → takesFence s (pgAx d a) = true →
    Completes (.bridgeFault d a) s fun t => fenced t (pgAx d a) = true ∧ pageReason t (pgAx d a) = 0x12 ∧
      rb t (pgAx d a) Off.AX_FAULT 5 = true ∧ rb t (pgAx d a) Off.EVT_LAT 9 = true ∧ (axis t d a).ben = false) ∧
  (∀ (s : State) (d a : Nat) (fwd : Bool), axThere s d a = true → awake s d = true → stepIn s d a = true →
    running s (pgAx d a) = true → mstate s d a = msFollow → Completes (.stepInput d a fwd) s fun t =>
      rd t (pgAx d a) Off.CNT_STEP_IN = rd s (pgAx d a) Off.CNT_STEP_IN + 1#24 ∧
      (axis t d a).y = sgn 48 (uns 48 ((axis s d a).y + (if fwd then 1 else -1) * stepWorth s d a)) ∧ rb t (pgAx d a) Off.AX_STAT 17 = !fwd) ∧
  (∀ (s : State) (d a : Nat), axThere s d a = true → pstate s (pgAx d a) = stStarting →
    Completes (.axEnableDone d a) s fun t => (axis s d a).rampAt + 80000 ≤ t.clock ∧
      (rb s (pgAx d a) Off.PAGE_CTRL 0 = false → pstate t (pgAx d a) = stShutting) ∧
      (rb s (pgAx d a) Off.PAGE_CTRL 0 = true → pstate t (pgAx d a) = stRunning ∧
        mstate t d a = if stepIn s d a && !cameBack s (pgAx d a) then msFollow else msRest)) ∧
  (∀ (s : State) (d a i : Nat) (raw : Bool), axThere s d a = true → awake s d = true → i < 3 →
    (raw != rb s (pgAx d a) Off.AX_SW_CFG (18 + i)) ≠ (Tbl.get (axis s d a).sw i {}).level →
    (debounce s d a = 0 → Completes (.switchInputEdge d a i raw) s fun t =>
      swLevel t d a i = (raw != rb s (pgAx d a) Off.AX_SW_CFG (18 + i)) ∧ rf t (pgAx d a) Off.AX_EDGE_INFO 0 2 = i ∧
      rb t (pgAx d a) Off.EVT_LAT 12 = true) ∧
    (debounce s d a ≠ 0 → (Tbl.get (axis s d a).sw i {}).burst = false →
      (raw != rb s (pgAx d a) Off.AX_SW_CFG (18 + i)) ≠ swLevel s d a i → Completes (.switchInputEdge d a i raw) s fun t =>
        (Tbl.get (axis t d a).sw i {}).burst = true ∧ t.regs = s.regs)) ∧
  (∀ (s : State) (d a i : Nat), axThere s d a = true → awake s d = true → i < 3 → (Tbl.get (axis s d a).sw i {}).burst = true →
    Completes (.swEdge d a i) s fun t => (Tbl.get (axis t d a).sw i {}).burst = false ∧
      (Tbl.get (axis s d a).sw i {}).since + debounce s d a ≤ t.clock ∧
      swLevel t d a i = (Tbl.get (axis s d a).sw i {}).level ∧
      ((Tbl.get (axis s d a).sw i {}).level ≠ swLevel s d a i → rb t (pgAx d a) Off.EVT_LAT 12 = true) ∧
      ((Tbl.get (axis s d a).sw i {}).level = swLevel s d a i →
        rd t (pgAx d a) Off.CNT_CHATTER = inc24 (rd s (pgAx d a) Off.CNT_CHATTER)))

/-- Triggers, runs, waits and halts of a Hoist channel (spec/11_hoist_and_chutes.md, log entry 36). Taken writes
of HC_CTRL: START adds one pending trigger to a running channel, or at 255 none and latches the overrun event
5; CANCEL clears them and leaves HOLD; a write of HOLD keeps it as written and leaves the engine; RESUME takes
a running HALTED channel back to RUN at its pc, the failed burst's reservation given up; ABORT ends a running
HALTED channel's run at once, idle, with event 4, and waits for the bursts in flight of one in RUN.
HOIST_TRIGGER of a trigger on its way adds it to a running channel with fewer than 255. Of a channel that is
on: RUN_START in IDLE takes a pending trigger, counts the run, latches event 0 and is in RUN at the first
program word. WAIT_SATISFIED goes on two words further: a timed wait not before its end, a wait for a trigger
by taking one, a wait for a chute of the die once it holds the words. WAIT_TIMEOUT of a wait for a trigger
with a limit, none pending, halts with code 9 at its end; HOIST_WATCHDOG in RUN, with no host read of its
bursts outstanding, halts with code 8, no earlier than 4,096 ticks times HC_WDOG after the last progress.
GLOBAL_TIMER_FIRE with Hoist running and a period sends a trigger to each of the 32 channels that names the
timer. -/
def Obligations.HoistRuns : Prop :=
  (∀ (s : State) (r : Req) (d c : Nat), HcTaken s r d c →
    (running s (pgHc d c) = true → rf s (pgHc d c) Off.HC_PEND 0 8 < 255 → Completes (.hcStart r d c) s fun t =>
      rf t (pgHc d c) Off.HC_PEND 0 8 = rf s (pgHc d c) Off.HC_PEND 0 8 + 1) ∧
    (running s (pgHc d c) = true → rf s (pgHc d c) Off.HC_PEND 0 8 = 255 → Completes (.hcStart r d c) s fun t =>
      rf t (pgHc d c) Off.HC_PEND 0 8 = 255 ∧ rb t (pgHc d c) Off.EVT_LAT 5 = true) ∧
    (Completes (.hcCancel r d c) s fun t => rf t (pgHc d c) Off.HC_PEND 0 8 = 0 ∧ hcHeld t d c = hcHeld s d c) ∧
    (∀ b, Completes (.hcHold r d c b) s fun t => hcHeld t d c = b ∧ hoist t d c = hoist s d c) ∧
    (running s (pgHc d c) = true → (hoist s d c).cs = 5 → (Completes (.hcResume r d c) s fun t =>
        (hoist t d c).cs = 2 ∧ (hoist t d c).held = none ∧ (hoist t d c).pc = (hoist s d c).pc) ∧
      (Completes (.hcAbort r d c) s fun t => (hoist t d c).cs = 1 ∧ (hoist t d c).move = none ∧
        rb t (pgHc d c) Off.EVT_LAT 4 = true)) ∧
    (running s (pgHc d c) = true → (hoist s d c).cs = 2 → (hoist s d c).bursts ≠ [] → Completes (.hcAbort r d c) s fun t =>
      (hoist t d c).cs = 6 ∧ (hoist t d c).bursts = (hoist s d c).bursts)) ∧
  (∀ (s : State) (d c : Nat), (d, c) ∈ s.trigs → running s (pgHc d c) = true → rf s (pgHc d c) Off.HC_PEND 0 8 < 255 →
    Completes (.hoistTrigger d c) s fun t => t.trigs = s.trigs.erase (d, c) ∧
      rf t (pgHc d c) Off.HC_PEND 0 8 = rf s (pgHc d c) Off.HC_PEND 0 8 + 1) ∧
  (∀ (s : State) (d c : Nat), hcOn s d c = true →
    ((hoist s d c).cs = 1 → 0 < rf s (pgHc d c) Off.HC_PEND 0 8 → Completes (.runStart d c) s fun t => (hoist t d c).cs = 2 ∧
      (hoist t d c).pc = rf s (pgHc d c) Off.HC_PROG 0 17 ∧ rb t (pgHc d c) Off.EVT_LAT 0 = true ∧
      rf t (pgHc d c) Off.HC_PEND 0 8 + 1 = rf s (pgHc d c) Off.HC_PEND 0 8 ∧
      rd t (pgHc d c) Off.CNT_RUNS = rd s (pgHc d c) Off.CNT_RUNS + 1#24) ∧
    (∀ k q v f, (hoist s d c).cs = 3 → (hoist s d c).wait = some (k, q, v, f) →
      (k = 0 → Completes (.waitSatisfied d c) s fun t => (hoist t d c).cs = 2 ∧ (hoist t d c).pc = (hoist s d c).pc + 2 ∧
        f ≤ t.clock) ∧
      (k = 1 → 0 < rf s (pgHc d c) Off.HC_PEND 0 8 → Completes (.waitSatisfied d c) s fun t => (hoist t d c).cs = 2 ∧
        (hoist t d c).pc = (hoist s d c).pc + 2 ∧
        rf t (pgHc d c) Off.HC_PEND 0 8 + 1 = rf s (pgHc d c) Off.HC_PEND 0 8) ∧
      (k = 2 → present s (pgChute d q) = true → realChute s q = true → v ≤ chuteLevel s d q →
        Completes (.waitSatisfied d c) s fun t => (hoist t d c).cs = 2 ∧ (hoist t d c).pc = (hoist s d c).pc + 2) ∧
      (k = 1 → v ≠ 0 → rf s (pgHc d c) Off.HC_PEND 0 8 = 0 → Completes (.waitTimeout d c) s fun t =>
        Halted t d c 9 ∧ f ≤ t.clock)) ∧
    ((hoist s d c).cs = 2 → (hoist s d c).bursts.any Burst.hostRead = false → rf s (pgHc d c) Off.HC_WDOG 0 16 ≠ 0 →
      Completes (.hoistWatchdog d c) s fun t => Halted t d c 8 ∧
        (hoist s d c).wdAt + 4096 * rf s (pgHc d c) Off.HC_WDOG 0 16 ≤ t.clock)) ∧
  (∀ (s : State) (d k : Nat), d < s.part.dies → k < 4 → running s (pgHoistGlobal d) = true →
    rdN s (pgHoistGlobal d) (Off.TMR_PERIOD + 4 * k) ≠ 0 → Completes (.globalTimerFire d k) s fun t =>
      t.trigs = s.trigs ++ ((List.range 32).filter (hoistNames s d 1 k 0)).map fun c => (d, c))

/-- The instructions of a Hoist program (spec/11_hoist_and_chutes.md, log entry 37). An instruction that is due
(its words stand in the program, none poisoned, no MOVE, SIGNAL or hold in the way) has its effect if its
fields are legal. MOVE takes the addresses of its registers, its kinds and its count and changes no register;
LOOP with a counter value above 1, or its COUNT 0, jumps back its offset with the counter active, one less
where COUNT is not 0, and else falls through with the counter inactive, where a counter that is not active
counts as COUNT; WAIT waits, a timed one until its value has passed, one for a trigger for 256 times its value
or, at 0, without limit; SIGNAL and END without a record or with their queue off go on or end the run, with
their events, and with a record wait for it, appended to the records of the die; SETA loads and ADDA adds to
an address register modulo 2^64; NOP goes on and changes no register. With fields that are not legal each
halts the channel with code 6. Any of the eight commands on a ready channel halts it with code 6 at a word
with no listed opcode, and with code 7 at a pc outside its program. -/
def Obligations.HoistInstructions : Prop :=
  (∀ (s : State) (d c : Nat) (ws : List Word), HoistDue s d c ws →
    (fld (iw ws 0) 20 4 = 1 → moveBad ws = false → Completes (.hoistMove d c) s fun t => ∃ m, (hoist t d c).move = some m ∧
      m.left = (iw ws 1).toNat ∧ m.remain = (iw ws 1).toNat ∧ m.src = (hcA s d c (fld (iw ws 0) 18 2)).1 ∧
      m.dst = (hcA s d c (fld (iw ws 0) 16 2)).1 ∧ m.sk = fld (iw ws 0) 14 2 ∧ m.dk = fld (iw ws 0) 12 2 ∧ t.regs = s.regs) ∧
    (fld (iw ws 0) 20 4 = 1 → moveBad ws = true → Completes (.hoistMove d c) s fun t => Halted t d c 6) ∧
    (fld (iw ws 0) 20 4 = 2 → rsv (iw ws 0) 0x7F000 = false → fld (iw ws 0) 0 12 ≠ 0 →
      ((iw ws 1).toNat = 0 ∨ 1 < (if loopOn (hoist s d c) (iw ws 0) then loopCount (hoist s d c) (iw ws 0) else (iw ws 1).toNat) →
        Completes (.hoistLoop d c) s fun t => loopOn (hoist t d c) (iw ws 0) = true ∧
          (hoist t d c).pc = (hoist s d c).pc - fld (iw ws 0) 0 12 ∧
          ((iw ws 1).toNat ≠ 0 → loopCount (hoist t d c) (iw ws 0) + 1 =
            if loopOn (hoist s d c) (iw ws 0) then loopCount (hoist s d c) (iw ws 0) else (iw ws 1).toNat)) ∧
      ((iw ws 1).toNat ≠ 0 →
        (if loopOn (hoist s d c) (iw ws 0) then loopCount (hoist s d c) (iw ws 0) else (iw ws 1).toNat) ≤ 1 →
        Completes (.hoistLoop d c) s fun t => loopOn (hoist t d c) (iw ws 0) = false ∧
          (hoist t d c).pc = (hoist s d c).pc + 2)) ∧
    (fld (iw ws 0) 20 4 = 2 → rsv (iw ws 0) 0x7F000 = true ∨ fld (iw ws 0) 0 12 = 0 →
      Completes (.hoistLoop d c) s fun t => Halted t d c 6) ∧
    (fld (iw ws 0) 20 4 = 3 → rsv (iw ws 0) 0xFFC0 = false → fld (iw ws 0) 16 4 ≤ 2 → Completes (.hoistWait d c) s fun t =>
      (hoist t d c).cs = 3 ∧ (hoist t d c).pc = (hoist s d c).pc ∧
      ∃ f, (hoist t d c).wait = some (fld (iw ws 0) 16 4, fld (iw ws 0) 0 6, (iw ws 1).toNat, f) ∧
        (fld (iw ws 0) 16 4 = 0 → f = s.clock + (iw ws 1).toNat) ∧
        (fld (iw ws 0) 16 4 = 1 → f = if (iw ws 1).toNat = 0 then 0 else s.clock + 256 * (iw ws 1).toNat)) ∧
    (fld (iw ws 0) 20 4 = 3 → rsv (iw ws 0) 0xFFC0 = true ∨ 2 < fld (iw ws 0) 16 4 →
      Completes (.hoistWait d c) s fun t => Halted t d c 6) ∧
    (fld (iw ws 0) 20 4 = 4 → rsv (iw ws 0) 0x7F = false →
      (bit (iw ws 0) 19 = false ∨ cqK s d (fld (iw ws 0) 17 2) = 0 → Completes (.hoistSignal d c) s fun t =>
        (hoist t d c).pc = (hoist s d c).pc + 1 ∧ (bit (iw ws 0) 16 = true → rb t (pgHc d c) Off.EVT_LAT 2 = true) ∧
        cqRecs t d = cqRecs s d) ∧
      (bit (iw ws 0) 19 = true → cqK s d (fld (iw ws 0) 17 2) ≠ 0 → Completes (.hoistSignal d c) s fun t =>
        (hoist t d c).pc = (hoist s d c).pc ∧ (hoist t d c).sig = some (iw ws 0) ∧
        cqRecs t d = cqRecs s d ++
          [⟨c, fld (iw ws 0) 17 2, 2, fld (iw ws 0) 8 8, rf s (pgHc d c) Off.CNT_RUNS 0 16, true⟩])) ∧
    (fld (iw ws 0) 20 4 = 4 → rsv (iw ws 0) 0x7F = true → Completes (.hoistSignal d c) s fun t => Halted t d c 6) ∧
    (fld (iw ws 0) 20 4 = 15 → rsv (iw ws 0) 0x100FF = false →
      (bit (iw ws 0) 19 = false ∨ cqK s d (fld (iw ws 0) 17 2) = 0 → Completes (.hoistEnd d c) s fun t =>
        (hoist t d c).cs = 1 ∧ rb t (pgHc d c) Off.EVT_LAT 1 = true ∧ cqRecs t d = cqRecs s d) ∧
      (bit (iw ws 0) 19 = true → cqK s d (fld (iw ws 0) 17 2) ≠ 0 → Completes (.hoistEnd d c) s fun t =>
        (hoist t d c).cs = 2 ∧ (hoist t d c).sig = some (iw ws 0) ∧
        cqRecs t d = cqRecs s d ++
          [⟨c, fld (iw ws 0) 17 2, 1, fld (iw ws 0) 8 8, rf s (pgHc d c) Off.CNT_RUNS 0 16, true⟩])) ∧
    (fld (iw ws 0) 20 4 = 15 → rsv (iw ws 0) 0x100FF = true → Completes (.hoistEnd d c) s fun t => Halted t d c 6) ∧
    (fld (iw ws 0) 20 4 = 5 → rsv (iw ws 0) 0x1FFFF = false → rsv (iw ws 3) 0xFF0000 = false →
      Completes (.hoistSeta d c) s fun t => (hoist t d c).pc = (hoist s d c).pc + 4 ∧
        hcA t d c (fld (iw ws 0) 18 2) =
          ((iw ws 1).toNat + 2 ^ 24 * (iw ws 2).toNat + 2 ^ 48 * fld (iw ws 3) 0 16, bit (iw ws 0) 17)) ∧
    (fld (iw ws 0) 20 4 = 5 → rsv (iw ws 0) 0x1FFFF = true ∨ rsv (iw ws 3) 0xFF0000 = true →
      Completes (.hoistSeta d c) s fun t => Halted t d c 6) ∧
    (fld (iw ws 0) 20 4 = 6 → rsv (iw ws 0) 0x3FFFF = false → Completes (.hoistAdda d c) s fun t =>
      (hoist t d c).pc = (hoist s d c).pc + 2 ∧ hcA t d c (fld (iw ws 0) 18 2) =
        (uns 64 (((hcA s d c (fld (iw ws 0) 18 2)).1 : Int) + (iw ws 1).toInt), (hcA s d c (fld (iw ws 0) 18 2)).2)) ∧
    (fld (iw ws 0) 20 4 = 6 → rsv (iw ws 0) 0x3FFFF = true → Completes (.hoistAdda d c) s fun t => Halted t d c 6) ∧
    (fld (iw ws 0) 20 4 = 7 → rsv (iw ws 0) 0xFFFFF = false → Completes (.hoistNop d c) s fun t =>
      t.regs = s.regs ∧ hoist t d c = { hoist s d c with pc := (hoist s d c).pc + 1, wdAt := s.clock }) ∧
    (fld (iw ws 0) 20 4 = 7 → rsv (iw ws 0) 0xFFFFF = true → Completes (.hoistNop d c) s fun t => Halted t d c 6)) ∧
  (∀ (s : State) (d c : Nat), hcReady s d c = true → s.ecc = [] →
    ∀ i ∈ [Instr.hoistMove d c, .hoistLoop d c, .hoistWait d c, .hoistSignal d c, .hoistEnd d c, .hoistSeta d c,
      .hoistAdda d c, .hoistNop d c],
      (progWord s d c (hoist s d c).pc = false → Completes i s fun t => Halted t d c 7) ∧
      (progWord s d c (hoist s d c).pc = true →
        opWords (fld (rawWord s (wordAddr d true (hoist s d c).pc)) 20 4) = none → Completes i s fun t => Halted t d c 6))

/-- Bursts and completion queues (spec/11_hoist_and_chutes.md, spec/18_host_and_die_links.md, log entry 38).
BURST_START of a channel whose MOVE may start its next burst, when it is its turn among the die's channels,
comes no earlier than the gap, adds the burst, marks the channel as served last, and moves the MOVE's source,
destination and words left past it. BURST_WRITTEN of the oldest burst of a channel in RUN: from host to host
memory, its host read returned whole, Bus Master Enable set and die 0 reached, it writes the words to host
memory, counts them, and ends the MOVE, two words further, with the last of them or leaves it so many fewer;
from local to local addresses outside chute windows that all take their access it leaves memory as the writes
leave it and counts the words; a burst that failed at its start with a code other than 3 halts the channel
with it, with no burst in flight and no word counted. CQ_RECORD_WRITE with room and the host in reach writes
the next record at its place in the ring, removes it, moves the index and latches its event; with the queue
full it changes nothing. A taken write of CQ_SIZE starts the ring again at index 0 in the first pass; one of
CQ_CONS is kept and leaves the index. -/
def Obligations.HoistBursts : Prop :=
  (∀ (s : State) (d c : Nat), ∀ m, burstReady s d c = some m → burstTurn s d c = true →
    Completes (.burstStart d c) s fun t =>
      (hoist t d c).bursts.length = (hoist s d c).bursts.length + 1 ∧ hcGapClock s d c ≤ t.clock ∧
      (hoist t d c).lastStart = some t.clock ∧ lastServed t d = c ∧
      ∃ m2, (hoist t d c).move = some m2 ∧ m2.left + burstLen s d c m = m.left ∧ m2.remain = m.remain ∧
        m2.src = (m.src + burstLen s d c m * kindStep m.sk) % 2 ^ 64 ∧
        m2.dst = (m.dst + burstLen s d c m * kindStep m.dk) % 2 ^ 64) ∧
  (∀ (s : State) (d c : Nat), hcOn s d c = true → (hoist s d c).cs = 2 →
    ∀ m, (hoist s d c).move = some m → ∀ b rest, (hoist s d c).bursts = b :: rest →
    (∀ ws hits, b.err = none → b.hostRead = true → b.res = none → ws.length = b.n → (moveHosts s d c m).2 = true →
      s.pcie.bme = true → (d = 0 ∨ reaches s d 0 = true) → Completes (.burstWritten d c ⟨.data ws, hits⟩) s fun t =>
        t.out = (hostPuts s b.dst m.dk ws).out ∧ (hoist t d c).bursts = rest ∧ (hoist t d c).cs = 2 ∧
        rd t (pgHc d c) Off.CNT_WORDS = rd s (pgHc d c) Off.CNT_WORDS + word b.n ∧
        (m.remain ≤ b.n → (hoist t d c).move = none ∧ (hoist t d c).pc = (hoist s d c).pc + 2) ∧
        (b.n < m.remain → (hoist t d c).pc = (hoist s d c).pc ∧ ((hoist t d c).move.map MoveSt.remain) = some (m.remain - b.n))) ∧
    (∀ a hits, b.err = none → b.hostRead = false → b.sres = none → b.res = none → (moveHosts s d c m).2 = false →
      (hcGets b.n (setHoist s d c { hoist s d c with bursts := rest }) d c b.src m.sk).1 = none →
      (hcPuts (hcGets b.n (setHoist s d c { hoist s d c with bursts := rest }) d c b.src m.sk).2.1
        (hcGets b.n (setHoist s d c { hoist s d c with bursts := rest }) d c b.src m.sk).2.2 d b.dst m.dk hits).1 = none →
      Completes (.burstWritten d c ⟨a, hits⟩) s fun t =>
        t.mem = (hcPuts (hcGets b.n (setHoist s d c { hoist s d c with bursts := rest }) d c b.src m.sk).2.1
          (hcGets b.n (setHoist s d c { hoist s d c with bursts := rest }) d c b.src m.sk).2.2 d b.dst m.dk hits).2.mem ∧
        rd t (pgHc d c) Off.CNT_WORDS =
          rd (hcPuts (hcGets b.n (setHoist s d c { hoist s d c with bursts := rest }) d c b.src m.sk).2.1
            (hcGets b.n (setHoist s d c { hoist s d c with bursts := rest }) d c b.src m.sk).2.2 d b.dst m.dk hits).2
            (pgHc d c) Off.CNT_WORDS + word b.n) ∧
    (∀ a hits e, b.err = some e → e.code < 256 → e.code ≠ 3 → Completes (.burstWritten d c ⟨a, hits⟩) s fun t => Halted t d c e.code ∧
      (hoist t d c).bursts = [] ∧ rd t (pgHc d c) Off.CNT_WORDS = rd s (pgHc d c) Off.CNT_WORDS)) ∧
  (∀ (s : State) (d q : Nat), d < s.part.dies → q < 4 → ∀ x, cqNext q (cqRecs s d) [] = some x → cqK s d q ≠ 0 →
    hostOpen s d = true → (cqFull s d q = true → Completes (.cqRecordWrite d q) s fun t => t = s) ∧
    (cqFull s d q = false → Completes (.cqRecordWrite d q) s fun t =>
      cqRecs t d = (cqRecs s d).erase x ∧ cqIdx t d q = (cqIdx s d q + 1) % 2 ^ cqK s d q ∧
      rb t (pgHoistGlobal d) Off.EVT_LAT q = true ∧
      Out.hostWrite ((rd48 s (pgHoistGlobal d) (Off.CQ_BASE_L + 32 * q) +
          2 ^ 48 * rf s (pgHoistGlobal d) (Off.CQ_BASE_H + 32 * q) 0 16 + 16 * cqIdx s d q) % 2 ^ 64)
        (cqBytes (cqWords s d x (Tbl.get s.cqSeq (d, q) 0)) (cqPhase s d q)) ∈ t.out)) ∧
  (∀ (s : State) (r : Req) (d q : Nat) (v : Word), q < 4 →
    (Taken s r (pgHoistGlobal d) (Off.CQ_SIZE + 32 * q) → Completes (.cqSizeWrite r d q v) s fun t =>
      rf t (pgHoistGlobal d) (Off.CQ_SIZE + 32 * q) 0 5 = fld v 0 5 ∧ cqIdx t d q = 0 ∧ cqPhase t d q = 1) ∧
    (Taken s r (pgHoistGlobal d) (Off.CQ_CONS + 32 * q) → Completes (.cqConsWrite r d q v) s fun t =>
      rf t (pgHoistGlobal d) (Off.CQ_CONS + 32 * q) 0 16 = fld v 0 16 ∧ cqIdx t d q = cqIdx s d q))

/-- Pushes to and pops from a chute (spec/11_hoist_and_chutes.md, log entry 39). A taken CHUTE_PUSH to a chute of
16 to 20 pushes nothing. To another chute that runs, with no incomplete flushed block at its tail, it appends
the word with room for it, with the mark if it is written to the first address of the window, and the count of
words advances, in CREDIT mode and, unless it continues a record that is being discarded, in OVERWRITE mode;
in CREDIT mode without room the chute stays, and CNT_LOST and its event follow; outside RUNNING no chute
changes. A taken CHUTE_POP of a chute that does not deliver changes no chute. Of one that does, it answers a
good head word, where no capture of the window stands for the class that pops, and removes it, and in CREDIT
mode its credit returns; a poisoned head word is removed too and answered as poisoned zeros; an empty chute
stays and latches UNDERFLOW. -/
def Obligations.ChuteWindows : Prop :=
  (∀ (s : State) (r : Req) (d c i : Nat) (v : Word), c < 64 → Taken s r (pgChute d c) (0x800 + 4 * (i % 256)) →
    ((c < 16 ∨ 20 < c) → running s (pgChute d c) = false → Completes (.chutePush r d c i v) s fun t => t.chutes = s.chutes) ∧
    ((c < 16 ∨ 20 < c) → running s (pgChute d c) = true → (chute s d c).tailFlush = none →
      (freeWords (chute s d c) ≠ 0 → (overwrite s d c = false ∨ i % 256 = 0 ∨ (chute s d c).dropping = false) →
        Completes (.chutePush r d c i v) s fun t =>
          (chute t d c).words = (chute s d c).words ++ [{ w := v, mark := decide (i % 256 = 0) }] ∧
          (chute t d c).used = ((chute s d c).used + 1) % 2 ^ 24) ∧
      (freeWords (chute s d c) = 0 → overwrite s d c = false → Completes (.chutePush r d c i v) s fun t =>
        chute t d c = chute s d c ∧
        rd t (pgChute d c) Off.CNT_LOST = inc24 (rd s (pgChute d c) Off.CNT_LOST) ∧ rb t (pgChute d c) Off.EVT_LAT 1 = true)) ∧
    (16 ≤ c → c ≤ 20 → Completes (.chutePush r d c i v) s fun t => t.chutes = s.chutes)) ∧
  (∀ (s : State) (r : Req) (d c i : Nat), c < 64 → TakenRead s r (pgChute d c) (0xC00 + 4 * (i % 256)) →
    (chuteHeld s d c = true → Completes (.chutePop r d c i) s fun t => t.chutes = s.chutes) ∧
    (chuteHeld s d c = false → ∀ w rest, (chute s d c).words = w :: rest →
      (w.ecc = .good → Tbl.get s.caps (clsCode (clsOn r (pgChute d c)), (pgChute d c, 0xC00 + 4 * (i % 256))) w.w = w.w →
        Completes (.chutePop r d c i) s fun t => (chute t d c).words.map CWord.w = rest.map CWord.w ∧
          (∃ tag, t.resp = .data tag w.w) ∧
          (overwrite s d c = false → (chute t d c).grant = ((chute s d c).grant + 1) % 2 ^ 24)) ∧
      (w.ecc = .bad → Completes (.chutePop r d c i) s fun t => (chute t d c).words.map CWord.w = rest.map CWord.w ∧
        t.resp = .bytes [0#8, 0#8, 0#8, 0#8] true)) ∧
    (chuteHeld s d c = false → (chute s d c).words = [] → Completes (.chutePop r d c i) s fun t => t.chutes = s.chutes ∧
      rb t (pgChute d c) Off.EVT_LAT 5 = true))

/-- Writes to protected descriptor words are discarded and logged (R118). A write to a status word of a descriptor
(words 56 to 63) by other than firmware, and a write by anyone to words 0 to 55 of a context whose GO is 1,
through DESCRIPTOR_WRITE or by bytes within the word through MEM_WINDOW_WRITE, changes no byte of memory and
no check bits. If no error is logged before it, ERR_INFO of the CTX_CTRL page takes VALID, the class and code
0x40 or 0x41, and ERR_ADDR the context number with WRITE = 1. The write lies in a memory of a die that
answers, and the guard lets it through. -/
def Obligations.DescriptorProtection : Prop :=
  ∀ (s : State) (r : Req) (d k w : Nat), k < nCtx s → w < 64 →
    ((56 ≤ w ∧ r.cls ≠ .firmware) ∨ (w < 56 ∧ ctxGo s d k = true)) →
    (∀ v, MemTaken s r d (0x100000 + 3 * (64 * k + w)) 3 true → Completes (.descriptorWrite r d k w v) s fun t =>
      t.mem = s.mem ∧ t.ecc = s.ecc ∧
      (rb s (pgCtx d) Off.ERR_INFO 23 = false →
        rd t (pgCtx d) Off.ERR_INFO = word (2 ^ 23 + clsCode r.cls * 2 ^ 18 + (if 56 ≤ w then 0x40 else 0x41) * 2 ^ 8) ∧
        rd t (pgCtx d) Off.ERR_ADDR = word (2 ^ 12 + k))) ∧
    (∀ j bs hits, bs ≠ [] → j + bs.length ≤ 3 → MemTaken s r d (0x100000 + 3 * (64 * k + w) + j) bs.length true →
      Completes (.memWindowWrite r d (0x100000 + 3 * (64 * k + w) + j) bs false hits) s fun t =>
        t.mem = s.mem ∧ t.ecc = s.ecc ∧
        (rb s (pgCtx d) Off.ERR_INFO 23 = false →
          rd t (pgCtx d) Off.ERR_INFO = word (2 ^ 23 + clsCode r.cls * 2 ^ 18 + (if 56 ≤ w then 0x40 else 0x41) * 2 ^ 8) ∧
          rd t (pgCtx d) Off.ERR_ADDR = word (2 ^ 12 + k)))

/-- Reads and writes of the memory windows (spec/02_register_pages.md, spec/12_memory.md,
spec/16_security_debug_power.md, spec/18_host_and_die_links.md, log entry 40). A permitted write of bytes to a
memory window outside the descriptors, no word of memory poisoned and no collision, stores those bytes at its
address and no others; a poisoned one is counted and changes no byte; one that the guard does not permit
stores nothing. A permitted write to word 0 to 55 of the descriptor of a context whose GO is 0, no word
poisoned, leaves in the word what its fields take of the value, reserved bits 0 and an enumerated field with
an unlisted code as before, and no other byte changes, nor any context. A permitted read outside the
descriptors answers the bytes stored and changes none of them, and one that is not permitted answers zeros. -/
def Obligations.MemoryWindows : Prop :=
  (∀ (s : State) (r : Req) (d off : Nat) (bs : List Byte), s.ecc = [] → OffDescr s off → MemTaken s r d off bs.length true →
    (Completes (.memWindowWrite r d off bs false []) s fun t =>
      (∀ j < bs.length, memGet t.mem (d * 2 ^ 24 + off + j) = bs.getD j 0#8) ∧ OtherBytes s t (d * 2 ^ 24 + off) bs.length) ∧
    (Completes (.memWindowWrite r d off bs true []) s fun t => t.mem = s.mem ∧
      rd t pgPcie Off.CNT_POISON_RX = inc24 (rd s pgPcie Off.CNT_POISON_RX))) ∧
  (∀ (s : State) (r : Req) (d off : Nat) (bs : List Byte), powered s = true → dieAnswers s r d = true →
    ∀ z, memZone off bs.length = some z → memPermits s r d z.1 true = false →
    Completes (.memWindowWrite r d off bs false []) s fun t => t.mem = s.mem ∧ t.ecc = s.ecc) ∧
  (∀ (s : State) (r : Req) (d k w : Nat) (v : Word), k < nCtx s → w < 56 → ctxGo s d k = false →
    MemTaken s r d (0x100000 + 3 * (64 * k + w)) 3 true → Completes (.descriptorWrite r d k w v) s fun t =>
      rawWord t (dpsAddr d (64 * k + w)) = descWord w (rawWord s (dpsAddr d (64 * k + w))) v ∧ OtherBytes s t (dpsAddr d (64 * k + w)) 3 ∧ t.ctxs = s.ctxs) ∧
  (∀ (s : State) (r : Req) (d off n : Nat), s.ecc = [] → OffDescr s off → MemTaken s r d off n false →
    Completes (.memWindowRead r d off n) s fun t => t.mem = s.mem ∧
      t.resp = .bytes ((List.range n).map fun j => memGet s.mem (d * 2 ^ 24 + off + j)) false) ∧
  (∀ (s : State) (r : Req) (d off n : Nat), powered s = true → dieAnswers s r d = true →
    ∀ z, memZone off n = some z → memPermits s r d z.1 false = false → Completes (.memWindowRead r d off n) s fun t =>
      t.mem = s.mem ∧ t.resp = .bytes (List.replicate n 0#8) false)

/-- Background testing, live repair and the retention store (spec/12_memory.md, log entry 41).
MEMTEST_REGION_START in a mode with testing on, the tester waiting, starts the region that a reader found bad
first, if one waits, else the one where the sweep stands, no earlier than its interval, taken as at least 1.
MEMTEST_PHASE_DONE goes from COPY, with no word of memory poisoned and no byte changed, to MARCH, to REPAIR
with the failing rows, to RESTORE, and to waiting. REPAIR_MAP_SAVE with room in the map moves the oldest live
repair into it. A taken RET_DATA_WRITE of a word below 3,584 by other than firmware latches REFUSED and queues
nothing; of another it queues the word and advances the address with AUTOINC, or with 8 words queued queues
nothing. A taken RET_DATA_READ with no capture in the way and no bad word in the store answers the last value
queued for the word, else the stored one, and changes no stored byte. RET_WORD_WRITTEN stores the oldest
queued word and changes no other byte of the store. -/
def Obligations.MemoryService : Prop :=
  (∀ (s : State) (d : Nat), d < s.part.dies → mtOn s d = true → (memSt s d).phase = 0 →
    Completes (.memtestRegionStart d) s fun t => (memSt t d).phase = 1 ∧
      ((memSt t d).bank, (memSt t d).region) = (memSt s d).ahead.headD ((memSt s d).sweepBank, (memSt s d).sweepRegion) ∧
      (memSt t d).ahead = (memSt s d).ahead.tail ∧
      (memSt s d).lastStart + max 1 (rf s (pgMemctl d) Off.MT_CFG 8 8) * 25000 ≤ t.clock) ∧
  (∀ (s : State) (d : Nat) (rows : List Nat), d < s.part.dies →
    ((memSt s d).phase = 1 → s.ecc = [] → Completes (.memtestPhaseDone d rows) s fun t => (memSt t d).phase = 2 ∧ t.mem = s.mem) ∧
    ((memSt s d).phase = 2 → Completes (.memtestPhaseDone d rows) s fun t => (memSt t d).phase = 3 ∧
      (memSt t d).failing = (rows.filter (· < 16)).eraseDups) ∧
    ((memSt s d).phase = 3 → Completes (.memtestPhaseDone d rows) s fun t => (memSt t d).phase = 4 ∧ (memSt t d).failing = []) ∧
    ((memSt s d).phase = 4 → Completes (.memtestPhaseDone d rows) s fun t => (memSt t d).phase = 0)) ∧
  (∀ (s : State) (d : Nat), d < s.part.dies → (memSt s d).saved.length < 64 → ∀ w rest, (memSt s d).toSave = w :: rest → Completes (.repairMapSave d) s fun t => (memSt t d).toSave = rest ∧
      (memSt t d).saved = (memSt s d).saved ++ [w.toNat / 2 ^ 16]) ∧
  (∀ (s : State) (r : Req) (d : Nat) (v : Word), Taken s r (pgRetain d) Off.RET_DATA →
    ((3584 ≤ rf s (pgRetain d) Off.RET_ADDR 0 12 ∨ clsOn r (pgRetain d) = .firmware) →
      ((memSt s d).queue.length < 8 → Completes (.retDataWrite r d v) s fun t =>
        (memSt t d).queue = (memSt s d).queue ++ [(rf s (pgRetain d) Off.RET_ADDR 0 12, v)] ∧
        rf t (pgRetain d) Off.RET_STAT 4 4 = (memSt s d).queue.length + 1 ∧
        rf t (pgRetain d) Off.RET_ADDR 0 12 =
          (rf s (pgRetain d) Off.RET_ADDR 0 12 + b2n (rb s (pgRetain d) Off.RET_ADDR 12)) % 4096) ∧
      (8 ≤ (memSt s d).queue.length → Completes (.retDataWrite r d v) s fun t => t.mems = s.mems)) ∧
    (rf s (pgRetain d) Off.RET_ADDR 0 12 < 3584 → clsOn r (pgRetain d) ≠ .firmware → Completes (.retDataWrite r d v) s fun t =>
      t.mems = s.mems ∧ rb t (pgRetain d) Off.EVT_LAT 2 = true)) ∧
  (∀ (s : State) (r : Req) (d : Nat), TakenRead s r (pgRetain d) Off.RET_DATA → s.retEcc = [] → s.caps = [] →
    Completes (.retDataRead r d) s fun t => t.ret = s.ret ∧ ∃ tag, t.resp = .data tag
      (match (memSt s d).queue.reverse.find? fun e => decide (e.1 = rf s (pgRetain d) Off.RET_ADDR 0 12) with
        | some e => e.2
        | none => retRaw s d (rf s (pgRetain d) Off.RET_ADDR 0 12))) ∧
  (∀ (s : State) (d : Nat), ∀ e rest, (memSt s d).queue = e :: rest →
    Completes (.retWordWritten d) s fun t => (memSt t d).queue = rest ∧ retRaw t d e.1 = e.2 ∧
      ∀ x, x < retAddr d e.1 ∨ retAddr d e.1 + 3 ≤ x → memGet t.ret x = memGet s.ret x)

/-- Assay commands, saving, restoring and the temperature tables (spec/13_assay.md,
spec/16_security_debug_power.md, log entry 42). Taken writes of AS_CMD: AS_REQUEST of a present channel, of
class TIMING only with the crystal in use, queues it as a request where ASSAY runs on a die that is awake, and
answers 1; of a TIMING channel without the crystal it answers 0x11 and of an absent one 0x10, and queues
nothing; AS_CANCEL takes a present channel off the queue. AS_SAVE and AS_RESTORE begin when neither is under
way and, for a restore, no run is past its takeover, with answer 2, and are answered 0x12 with nothing changed
otherwise. SAVED ends the save with result 1, counted, its event and the version word stored; RESTORED ends
the restore, with its event, with result 2 and every point of the present channels as firmware reads it from a
good store, or with result 3 from a bad one, and a save follows an entry to DORMANT. Taken writes of
AS_TAB_CTRL with a present channel selected: TAB_READ shows the selected point; TAB_WRITE stores the five
words in it, without the reserved bits of the first, and a valid point of the others stays as it was;
TAB_CLEAR makes it not valid and leaves the others; while the channel measures or a restore is under way the
last two change no point. -/
def Obligations.AssayCommands : Prop :=
  (∀ (s : State) (r : Req) (d : Nat), Taken s r (pgAssay d) Off.AS_CMD →
    (∀ ch, ch < 51 → asPresent s ch = true →
      ((noXtal s d = false ∨ asClass ch ≠ 0) → Completes (.asRequest r d ch) s fun t =>
        rdN t (pgAssay d) Off.AS_CMD_STAT = 0x10000 + ch * 256 + 1 ∧
        (running s (pgAssay d) = true → awake s d = true → (asChan t d ch).queued = 1)) ∧
      (noXtal s d = true → asClass ch = 0 → Completes (.asRequest r d ch) s fun t => t.assays = s.assays ∧
        rdN t (pgAssay d) Off.AS_CMD_STAT = 0x110000 + ch * 256 + 1)) ∧
    (∀ ch, ch < 255 → asPresent s ch = false → Completes (.asRequest r d ch) s fun t => t.assays = s.assays ∧
      rdN t (pgAssay d) Off.AS_CMD_STAT = 0x100000 + ch * 256 + 1) ∧
    (∀ ch, ch < 51 → asPresent s ch = true → Completes (.asCancel r d ch) s fun t =>
      (asChan t d ch).queued = 0 ∧ rdN t (pgAssay d) Off.AS_CMD_STAT = 0x10000 + ch * 256 + 4) ∧
    (saveState s d = 0 → Completes (.asSave r d) s fun t => saveState t d = 1 ∧ rdN t (pgAssay d) Off.AS_CMD_STAT = 0x20002) ∧
    (saveState s d ≠ 0 → Completes (.asSave r d) s fun t => saveState t d = saveState s d ∧
      rdN t (pgAssay d) Off.AS_CMD_STAT = 0x120002) ∧
    (saveState s d = 0 → ((asAll s).any fun c => (asChan s d c).lent || decide ((asChan s d c).st = 3)) = false →
      Completes (.asRestore r d) s fun t => saveState t d = 2 ∧ rdN t (pgAssay d) Off.AS_CMD_STAT = 0x20003) ∧
    (saveState s d ≠ 0 ∨ ((asAll s).any fun c => (asChan s d c).lent || decide ((asChan s d c).st = 3)) = true →
      Completes (.asRestore r d) s fun t => saveState t d = saveState s d ∧ rdN t (pgAssay d) Off.AS_CMD_STAT = 0x120003)) ∧
  (∀ (s : State) (d : Nat), d < s.part.dies → present s (pgAssay d) = true →
    (saveState s d = 1 → Completes (.saved d) s fun t => saveState t d = 0 ∧ rf t (pgAssay d) Off.AS_SAVE_STAT 4 4 = 1 ∧
      rb t (pgAssay d) Off.EVT_LAT 2 = true ∧ retRaw t d 336 = 1#24 ∧ t.assays = s.assays ∧
      rd t (pgAssay d) Off.AS_SAVES = inc24 (rd s (pgAssay d) Off.AS_SAVES)) ∧
    (saveState s d = 2 → storeGood s d = true → Completes (.restored d) s fun t =>
      saveState t d = (if s.pkg.power = .entering then 1 else 0) ∧
      rf t (pgAssay d) Off.AS_SAVE_STAT 4 4 = 2 ∧ rb t (pgAssay d) Off.EVT_LAT 3 = true ∧
      ∀ c ∈ asAll s, ∀ k < 8, point (asChan t d c) k = (List.range 5).map fun j => retGet s d (344 + 40 * c + 5 * k + j)) ∧
    (saveState s d = 2 → storeGood s d = false → Completes (.restored d) s fun t =>
      saveState t d = (if s.pkg.power = .entering then 1 else 0) ∧
      rf t (pgAssay d) Off.AS_SAVE_STAT 4 4 = 3 ∧ rb t (pgAssay d) Off.EVT_LAT 4 = true ∧ t.assays = s.assays)) ∧
  (∀ (s : State) (r : Req) (d : Nat), Taken s r (pgAssay d) Off.AS_TAB_CTRL → asPresent s (tabCh s d) = true →
    (Completes (.tabRead r d) s fun t => t.assays = s.assays ∧ ∀ i < 5,
      rd t (pgAssay d) (Off.AS_TAB_W0 + 4 * i) = (point (asChan s d (tabCh s d)) (tabPt s d)).getD i 0#24) ∧
    (tabBusy s d = false → Completes (.tabWrite r d) s fun t =>
      point (asChan t d (tabCh s d)) (tabPt s d) = ((List.range 5).map fun i =>
        rd s (pgAssay d) (Off.AS_TAB_W0 + 4 * i) &&& word (if i = 0 then 0x80FFFF else 0xFFFFFF)) ∧
      ∀ k < 8, k ≠ tabPt s d → ptValid (point (asChan t d (tabCh s d)) k) = true →
        point (asChan t d (tabCh s d)) k = point (asChan s d (tabCh s d)) k) ∧
    (tabBusy s d = false → Completes (.tabClear r d) s fun t =>
      ptValid (point (asChan t d (tabCh s d)) (tabPt s d)) = false ∧
      ∀ k, k ≠ tabPt s d → point (asChan t d (tabCh s d)) k = point (asChan s d (tabCh s d)) k) ∧
    (tabBusy s d = true → (Completes (.tabWrite r d) s fun t => t.assays = s.assays) ∧
      (Completes (.tabClear r d) s fun t => t.assays = s.assays)))

/-- An Assay run from its start to its hand-back (spec/13_assay.md, log entry 43). In a die of the part that is
not in STANDBY, for a class with no run, ASSAY_RUN_START in a running page takes its best queued channel off
the queue and starts its run. Of the channel a class runs: ASSAY_TAKEOVER of one whose port waits for no cycle
boundary, where the spare is free in the first tick after the start or once its last cycle has ended, lends
the spare in such a tick. ASSAY_MEASURE_START of one lent a spare, no earlier than 16 ticks after the
takeover, or of a spare itself, begins to measure at the island's temperature. ASSAY_MEASURE_END, no earlier
than the class's length after that, has the result of the checks of R329, and keeps the points unless the run
has passed. RUN_DONE of a measured run of a spare, or of a channel whose port waits for no cycle boundary,
frees the class with the run's result, counted, and its event; of one abandoned while it measured, it frees
the class with result 7, not counted. -/
def Obligations.AssayRuns : Prop :=
  (∀ (s : State) (d cls : Nat), d < s.part.dies → cls < 3 → modeOf s d ≠ 1 →
    (running s (pgAssay d) = true → asActive s d cls = none → ∀ c, asBest s d cls = some c →
      Completes (.assayRunStart d cls) s fun t => asActive t d cls = some c ∧ (asChan t d c).st = 2 ∧
        (asChan t d c).queued = 0 ∧ (asChan t d c).kind = (asChan s d c).queued ∧ (asChan t d c).measured = false) ∧
    (∀ c, asActive s d cls = some c → (asChan s d c).st = 2 → (asChan s d c).lent = false → asPos c ≠ 16 →
      portIdle s d (asPos c) = true →
      spareFree (waitSpare (waitClock s ((asChan s d c).takenAt + 1)) d cls) d (asClass c) = true →
      portIdle (waitSpare (waitClock s ((asChan s d c).takenAt + 1)) d cls) d (asPos c) = true →
      Completes (.assayTakeover d cls) s fun t => (asChan t d c).lent = true ∧ (asChan t d c).takenAt = t.clock ∧
        (asChan s d c).takenAt + 1 ≤ t.clock ∧ (asChan t d c).origEnd = portEnd t d (asPos c)) ∧
    (∀ c, asActive s d cls = some c → (asChan s d c).st = 2 → (asChan s d c).aborted = false →
      ((asChan s d c).lent = true ∨ asPos c = 16) → Completes (.assayMeasureStart d cls) s fun t =>
        (asChan t d c).st = 3 ∧ (asChan t d c).measAt = t.clock ∧ (asChan t d c).runTemp = islTemp s d (asIsland c) ∧
        (asPos c ≠ 16 → (asChan s d c).takenAt + 16 ≤ t.clock)) ∧
    (∀ c, asActive s d cls = some c → (asChan s d c).st = 3 → (asChan s d c).measured = false → (asChan s d c).aborted = false →
      ∀ ps, Completes (.assayMeasureEnd d cls ps) s fun t => (asChan t d c).measured = true ∧
        (asChan s d c).measAt + asLength cls ≤ t.clock ∧
        (asChan t d c).result = asCheck s d cls ((assay s d).xtalLost || noXtal s d) ps ∧
        ((asChan t d c).result ≠ 1 → (asChan t d c).points = (asChan s d c).points)) ∧
    (∀ c, asActive s d cls = some c → asClass c = cls → (asChan s d c).st = 3 →
      (asPos c = 16 ∨ portIdle s d (asPos c) = true) → present s (pgAssay d) = true →
      ((asChan s d c).aborted = false → (asChan s d c).measured = true → (asChan s d c).result ≠ 7 →
        Completes (.runDone d cls) s fun t => asActive t d cls = none ∧ (asChan t d c).st = 0 ∧
          (asChan t d c).lastResult = (asChan s d c).result ∧ (asChan t d c).runs = min ((asChan s d c).runs + 1) 0xFFFFFF ∧
          rb t (pgAssay d) Off.EVT_LAT (if (asChan s d c).result = 1 then 0 else 1) = true) ∧
      ((asChan s d c).aborted = true → Completes (.runDone d cls) s fun t => asActive t d cls = none ∧ (asChan t d c).st = 0 ∧
        (asChan t d c).lastResult = 7 ∧ (asChan t d c).runs = (asChan s d c).runs ∧ rb t (pgAssay d) Off.EVT_LAT 1 = true)))

/-- Temperatures, warnings and enforcement (spec/14_thermal_and_ageing.md, log entry 44). TEMP_UPDATE of a die out
of STANDBY comes no earlier than 2,500,000 ticks after the last one, shows each island reading in range as
valid, and the power. THERMISTOR_SAMPLE of a port that is not OFF, its die awake, outside 100 Ω to 1 MΩ makes
the head's temperature not valid with its code, inside it the reading is good. In a running page whose die is
awake and has firmware, GRACE_EXPIRY of a due timer only stops it when work has fallen; else a head port's
scope, and the die's where sensing is off, is enforced, counted, with its event, and the die's with sensing on
takes an echo step with the timer running again. In a running page WARN_CLEAR ends the warning of a scope that
has stayed below, no earlier than the clear time, taken as at least 1. -/
def Obligations.ThermalScopes : Prop :=
  (∀ (s : State) (d power : Nat) (isl : List Int), d < s.part.dies → 2 ≤ modeOf s d → Completes (.tempUpdate d isl power) s fun t =>
    (therm t d).updAt = some t.clock ∧ rd t (pgThermal d) Off.TH_WORK_NOW = word (min power 0xFFFFFF) ∧
    (∀ c, (therm s d).updAt = some c → c + 2500000 ≤ t.clock) ∧
    ∀ i < 11, ∀ x, isl[i]? = some x → -3840 ≤ x → x ≤ 9600 →
      rd t (pgThermal d) (Off.TH_ISL + 4 * i) = word (2 ^ 16 + uns 16 x)) ∧
  (∀ (s : State) (d p ohm : Nat), d < s.part.dies → p < nPorts s → awake s d = true → pstate s (pgHp d p) ≠ stOff →
    ((ohm < 100 ∨ 1000000 < ohm) → Completes (.thermistorSample d p ohm) s fun t => headValid t d p = false ∧
      rf t (pgThermal d) (thReg Off.TH_HEAD p) 18 2 = (if ohm < 100 then 2 else 1)) ∧
    (100 ≤ ohm → ohm ≤ 1000000 → Completes (.thermistorSample d p ohm) s fun t =>
      rf t (pgThermal d) (thReg Off.TH_HEAD p) 18 2 = 0 ∧ (Tbl.get (therm t d).heads p {}).good = true)) ∧
  (∀ (s : State) (d : Nat) (o : Option Nat), d < s.part.dies → running s (pgThermal d) = true → fwRuns s d = true →
    awake s d = true → ∀ c, (scope s d o).graceAt = some c → c ≤ s.clock →
    (workFallen s d o = true → Completes (.graceExpiry d o) s fun t => scope t d o = { scope s d o with graceAt := none }) ∧
    (workFallen s d o = false → (o ≠ none ∨ echoEff s d = 0) → Completes (.graceExpiry d o) s fun t => (scope t d o).stage = 3 ∧
      (scope t d o).graceAt = none ∧ rb t (pgThermal d) Off.EVT_LAT 1 = true ∧
      rd t (pgThermal d) Off.TH_ENF_CNT = inc24 (rd s (pgThermal d) Off.TH_ENF_CNT)) ∧
    (workFallen s d o = false → o = none → echoEff s d ≠ 0 → Completes (.graceExpiry d o) s fun t => (scope t d o).stage = 2 ∧
      (scope t d o).graceAt = some (t.clock + graceTicks s d) ∧ rb t (pgThermal d) Off.EVT_LAT 1 = true)) ∧
  (∀ (s : State) (d : Nat) (o : Option Nat), d < s.part.dies → running s (pgThermal d) = true → (scope s d o).warned = true →
    ∀ c, (scope s d o).belowAt = some c → Completes (.warnClear d o) s fun t => (scope t d o).warned = false ∧
      (scope t d o).stage = 0 ∧ c + max 1 (rf s (pgThermal d) Off.TH_CFG 0 4) * 25000000 ≤ t.clock)

/-- Ageing monitors, calibration intervals and the daily history (spec/14_thermal_and_ageing.md, spec/13_assay.md,
log entry 45). LAMP_MEASURE in an hour not yet done marks the hour done and, where testing is possible and
none is under way, begins a measurement; a taken LAMP_MEASURE_CMD begins one there too. MEASURED, no earlier
than 2^20 ticks later, ends it with its event and sets each measured island's drift from its counts.
CALINT_EXPIRY of an island that is due, its die awake and with firmware, changes nothing with AS_CFG.AGEING 0,
and else marks the time and, with ASSAY running and the crystal in use, queues as AGEING its channels that are
not queued. HIST_WRITTEN in a day not yet done, its die awake and with firmware, writes the header with the
next slot and one record more, up to 127, and begins the day's statistics anew, with its event; a taken
HIST_CLEAR empties the history and changes no other byte of the store. -/
def Obligations.AgeingMonitors : Prop :=
  (∀ (s : State) (d : Nat), d < s.part.dies → s.pkg.seconds % 3600 = 0 → (lamp s d).hourDone ≠ s.pkg.seconds / 3600 →
    Completes (.lampMeasure d) s fun t => (lamp t d).hourDone = s.pkg.seconds / 3600 ∧
      (lampOn s d = true → (lamp s d).since = none → (lamp t d).since = some s.clock)) ∧
  (∀ (s : State) (r : Req) (d : Nat), Taken s r (pgLamp d) Off.LAMP_CMD →
    (lampOn s d = true → (lamp s d).since = none → Completes (.lampMeasureCmd r d) s fun t =>
      lamp t d = { lamp s d with since := some s.clock }) ∧
    (Completes (.histClear r d) s fun t => retRaw t d 2385 = 0#24 ∧ retRaw t d 2386 = 0#24 ∧
      ∀ x, x < retAddr d 2385 ∨ retAddr d 2387 ≤ x → memGet t.ret x = memGet s.ret x)) ∧
  (∀ (s : State) (d : Nat) (cnt : List (Nat × Nat)), d < s.part.dies → present s (pgLamp d) = true →
    ∀ c, (lamp s d).since = some c →
    Completes (.measured d cnt) s fun t => (lamp t d).since = none ∧ c + 2 ^ 20 ≤ t.clock ∧ rb t (pgLamp d) Off.EVT_LAT 0 = true ∧
      ∀ i < 11, islandUp s i = true → ∀ ns np, cnt[i]? = some (ns, np) → ns ≠ 0 →
        (island t d i).drift = (np - ns) * 1000000 / ns % 2 ^ 24) ∧
  (∀ (s : State) (d i : Nat), d < s.part.dies → i < 5 → fwRuns s d = true → awake s d = true →
    (island s d i).lastAge + (island s d i).calint * 3600 ≤ s.pkg.seconds →
    (rb s (pgAssay d) Off.AS_CFG 1 = false → Completes (.calintExpiry d i) s fun t => t = s) ∧
    (rb s (pgAssay d) Off.AS_CFG 1 = true → Completes (.calintExpiry d i) s fun t => (island t d i).lastAge = s.pkg.seconds ∧
      (running s (pgAssay d) = true → noXtal s d = false →
        ∀ c ∈ islandChans s i, (asChan s d c).queued = 0 → (asChan t d c).queued = 2))) ∧
  (∀ (s : State) (d : Nat), d < s.part.dies → fwRuns s d = true → awake s d = true → s.pkg.seconds % 86400 = 0 →
    (lamp s d).dayDone ≠ s.pkg.seconds / 86400 → present s (pgLamp d) = true → Completes (.histWritten d) s fun t =>
      (lamp t d).dayDone = s.pkg.seconds / 86400 ∧ (lamp t d).n = 0 ∧ rb t (pgLamp d) Off.EVT_LAT 4 = true ∧
      retRaw t d 2384 = 1#24 ∧ retRaw t d 2385 = word (((retRaw s d 2385).toNat % 127 + 1) % 127) ∧
      retRaw t d 2386 = word (min ((retRaw s d 2386).toNat + 1) 127))

/-- Messages through the mailboxes, notices and the mailbox timers (spec/15_mailboxes.md, log entry 46, log entry
78). A taken MAILBOX_POST on a page that is OFF changes no slot. On one that is not, in no tick of a Function
Level Reset where it is MBOX_NS: to a slot that is EMPTY or DONE, with a tag other than that of the record, it
makes the slot FULL with its header and arguments; with that tag it is answered from the record at once, with
its event, counted; to a FULL or BUSY slot it is discarded and counted. MAILBOX_TAKE, firmware live, makes the
first slot in order BUSY, with BAD_CMD as its result where the code is unknown, or answers it STALE if
firmware has restarted and the command is none that is executed all the same. IN_DONE of a BUSY slot with a
result, no long command, firmware live, loads acknowledgement and results, with the slot's event; in a fenced
page it holds them and the slot stays BUSY; after a Function Level Reset it discards and counts them and the
slot is EMPTY. OUT_FULL posts the next notice of an empty and enabled channel of a running page; a taken
NOTICE_ACK with its tag empties the slot, with another tag it leaves it. IN_STUCK of a FULL or BUSY slot
without a long command and OUT_STUCK of a posted notice latch their events in a page that is not fenced no
earlier than the page's limits. That firmware stands still in STANDBY is log entry 78's deduction. -/
def Obligations.MailboxMessages : Prop :=
  (∀ (s : State) (r : Req) (d n : Nat) (sec : Bool) (v : Word), n < 4 → Taken s r (pgMbox d sec) (mbOff n Off.IN_HDR) →
    (pstate s (pgMbox d sec) = stOff → Completes (.mailboxPost r d sec n v) s fun t => t.mboxes = s.mboxes ∧
      inState t d sec n = inState s d sec n) ∧
    (pstate s (pgMbox d sec) ≠ stOff → (sec = true ∨ s.pcie.flrAt ≠ some s.clock) →
      (inState s d sec n ≠ 1 → inState s d sec n ≠ 2 →
        (rb s (pgMbox d sec) (mbOff n Off.IN_LAST) 0 = false ∨ rf s (pgMbox d sec) (mbOff n Off.IN_LAST) 8 8 ≠ fld v 8 8) →
        Completes (.mailboxPost r d sec n v) s fun t => inState t d sec n = 1 ∧ inHdr t d sec n = (v &&& 0xFFFFF0#24) ∧
          (mbox t d (mbIx sec n)).args = (List.range 16).map fun i => rd s (pgMbox d sec) (mbOff n Off.IN_ARG + 4 * i)) ∧
      (inState s d sec n ≠ 1 → inState s d sec n ≠ 2 → rb s (pgMbox d sec) (mbOff n Off.IN_LAST) 0 = true →
        rf s (pgMbox d sec) (mbOff n Off.IN_LAST) 8 8 = fld v 8 8 → (mbox s d (mbIx sec n)).dRes.length ≤ 8 →
        Completes (.mailboxPost r d sec n v) s fun t => inState t d sec n = 3 ∧
          rd t (pgMbox d sec) (mbOff n Off.IN_ACK) = setBit (mbox s d (mbIx sec n)).dAck 7 true ∧
          rb t (pgMbox d sec) Off.EVT_LAT n = true ∧
          rd t (pgMbox d sec) Off.CNT_REPLAY = inc24 (rd s (pgMbox d sec) Off.CNT_REPLAY)) ∧
      ((inState s d sec n = 1 ∨ inState s d sec n = 2) → Completes (.mailboxPost r d sec n v) s fun t => t.mboxes = s.mboxes ∧
        inState t d sec n = inState s d sec n ∧
        rd t (pgMbox d sec) Off.CNT_SLOT_BUSY = inc24 (rd s (pgMbox d sec) Off.CNT_SLOT_BUSY)))) ∧
  (∀ (s : State) (d : Nat), d < s.part.dies → fwLive s d = true → ∀ e l, fullSlots s d = e :: l →
    ((oldEpoch s d e.1 e.2 && staleCmd (inCmd s d e.1 e.2)) = false → Completes (.mailboxTake d) s fun t =>
      inState t d e.1 e.2 = 2 ∧
      (mbox t d (mbIx e.1 e.2)).result = if knownCmd (inCmd s d e.1 e.2) then none else some (2, [])) ∧
    ((oldEpoch s d e.1 e.2 && staleCmd (inCmd s d e.1 e.2)) = true → (mbox s d (mbIx e.1 e.2)).discard = false →
      Completes (.mailboxTake d) s fun t => inState t d e.1 e.2 = 3 ∧
        rf t (pgMbox d e.1) (mbOff e.2 Off.IN_ACK) 8 8 = 1 ∧ rb t (pgMbox d e.1) Off.EVT_LAT e.2 = true)) ∧
  (∀ (s : State) (d n : Nat) (sec : Bool), d < s.part.dies → n < 4 → fwLive s d = true →
    present s (pgMbox d sec) = true → inState s d sec n = 2 →
    (mbox s d (mbIx sec n)).held = none → longHere s d sec n = none → ∀ x, (mbox s d (mbIx sec n)).result = some x →
    (fenced s (pgMbox d sec) = false → (mbox s d (mbIx sec n)).discard = false → x.1 < 256 → x.2.length ≤ 8 →
      Completes (.inDone d sec n) s fun t =>
        inState t d sec n = 3 ∧ rf t (pgMbox d sec) (mbOff n Off.IN_ACK) 8 8 = x.1 ∧
        rf t (pgMbox d sec) (mbOff n Off.IN_ACK) 16 8 = inTag s d sec n ∧
        rf t (pgMbox d sec) (mbOff n Off.IN_ACK) 0 4 = x.2.length ∧ rb t (pgMbox d sec) Off.EVT_LAT n = true ∧
        ∀ i < x.2.length, rd t (pgMbox d sec) (mbOff n Off.IN_RES + 4 * i) = x.2.getD i 0#24) ∧
    (fenced s (pgMbox d sec) = true → (mbox s d (mbIx sec n)).discard = false → Completes (.inDone d sec n) s fun t =>
      inState t d sec n = 2 ∧ (mbox t d (mbIx sec n)).held.map Prod.snd = some x.2) ∧
    ((mbox s d (mbIx sec n)).discard = true → Completes (.inDone d sec n) s fun t => inState t d sec n = 0 ∧
      rd t (pgMbox d sec) Off.CNT_ACK_DISCARD = inc24 (rd s (pgMbox d sec) Off.CNT_ACK_DISCARD))) ∧
  (∀ (s : State) (d n : Nat) (sec : Bool), d < s.part.dies → n < 4 →
    fwLive s d = true → running s (pgMbox d sec) = true → rb s (pgMbox d sec) (mbOff n Off.OUT_STAT) 0 = false →
    rb s (pgMbox d sec) Off.MB_CFG n = true → ∀ e q, (mbox s d (mbIx sec n)).queue = e :: q →
    Completes (.outFull d sec n) s fun t =>
      rb t (pgMbox d sec) (mbOff n Off.OUT_STAT) 0 = true ∧ (mbox t d (mbIx sec n)).queue = q ∧
      rd t (pgMbox d sec) (mbOff n Off.OUT_HDR) =
        word (e.1 * 2 ^ 16 + (mbox s d (mbIx sec n)).outTag * 2 ^ 8 + e.2.length * 2 ^ 4) ∧
      rb t (pgMbox d sec) Off.EVT_LAT (4 + n) = true) ∧
  (∀ (s : State) (r : Req) (d n : Nat) (sec : Bool) (v : Word), n < 4 → Taken s r (pgMbox d sec) (mbOff n Off.OUT_ACK) →
    (rb s (pgMbox d sec) (mbOff n Off.OUT_STAT) 0 = true → rf s (pgMbox d sec) (mbOff n Off.OUT_HDR) 8 8 = fld v 8 8 →
      Completes (.noticeAck r d sec n v) s fun t => rb t (pgMbox d sec) (mbOff n Off.OUT_STAT) 0 = false) ∧
    (rf s (pgMbox d sec) (mbOff n Off.OUT_HDR) 8 8 ≠ fld v 8 8 → Completes (.noticeAck r d sec n v) s fun t =>
      rb t (pgMbox d sec) (mbOff n Off.OUT_STAT) 0 = rb s (pgMbox d sec) (mbOff n Off.OUT_STAT) 0)) ∧
  (∀ (s : State) (d n : Nat) (sec : Bool), d < s.part.dies → n < 4 → present s (pgMbox d sec) = true → fenced s (pgMbox d sec) = false →
    ((inState s d sec n = 1 ∨ inState s d sec n = 2) → longHere s d sec n = none → rf s (pgMbox d sec) Off.MB_CFG 16 8 ≠ 0 →
      (mbox s d (mbIx sec n)).inLate = false → Completes (.inStuck d sec n) s fun t => rb t (pgMbox d sec) Off.EVT_LAT (8 + n) = true ∧
        (mbox s d (mbIx sec n)).inAt + rf s (pgMbox d sec) Off.MB_CFG 16 8 * 2500000 ≤ t.clock) ∧
    (rb s (pgMbox d sec) (mbOff n Off.OUT_STAT) 0 = true → rf s (pgMbox d sec) Off.MB_CFG 8 8 ≠ 0 →
      (mbox s d (mbIx sec n)).outLate = false → Completes (.outStuck d sec n) s fun t =>
        rb t (pgMbox d sec) Off.EVT_LAT (12 + n) = true ∧
        (mbox s d (mbIx sec n)).outAt + rf s (pgMbox d sec) Off.MB_CFG 8 8 * 2500000 ≤ t.clock))

/-- Firmware commands (spec/15_mailboxes.md, spec/16_security_debug_power.md, log entry 47, log entry 78). A
command that firmware, live, is about to execute, whose checks pass, has its result: GET_INFO the version
words of the image that runs, its die, epoch and image, PING its arguments, each leaving the registers;
SB_READ the bytes that the head answers or NAK, SB_WRITE at offset 0x40 or above puts the bytes on the head's
bus with the acknowledge, and without it answers NAK; TALLY_CLEAR clears the first word of the entries of its
steps, ABORT_LONG ends a long command, ASSAY_REQUEST of a channel of the running ASSAY page, the crystal in
use, without WAIT answers code OK with result 1; LIFECYCLE_ADVANCE in MBOX_S, with its second argument and the
fuses verified, changes the state of the die; HEAD_DISCOVER of a port that is enabled and has FAILED starts
discovery, CAPTURE_REF with no sweep running sets the sweep up, and they and ASSAY_REQUEST with WAIT begin a
long command. A wrong length answers BAD_LEN for the commands of fixed length, and an advance that is denied
answers DENIED and leaves the dies. That firmware stands still in STANDBY is log entry 78's deduction. -/
def Obligations.FirmwareCommands : Prop :=
  ∀ (s : State) (d n : Nat) (sec : Bool),
    (inReady s d sec n 1 = true →
      (inLen s d sec n = 0 → Completes (.getInfo d sec n) s fun t => t.regs = s.regs ∧
        (mbox t d (mbIx sec n)).result = some (0, [word (Config.firmware 0 (die s d).boot.image),
          word (d * 2 ^ 16 + fwEpoch s d sec * 2 ^ 8 + (die s d).boot.image), word (Config.firmware 1 (die s d).boot.image)])) ∧
      (inLen s d sec n ≠ 0 → Completes (.getInfo d sec n) s fun t => (mbox t d (mbIx sec n)).result = some (4, []))) ∧
    (∀ ans, ∀ e ∈ [(Instr.headDiscover d sec n ans, 3, 1), (.sbRead d sec n ans, 4, 1), (.captureRef d sec n, 6, 1),
      (.assayRequest d sec n, 7, 1), (.abortLong d sec n, 8, 0), (.tallyClear d sec n, 9, 1)],
      inReady s d sec n e.2.1 = true → inLen s d sec n ≠ e.2.2 → Completes e.1 s fun t =>
        (mbox t d (mbIx sec n)).result = some (4, [])) ∧
    (inReady s d sec n 2 = true → inLen s d sec n ≤ 8 → Completes (.ping d sec n) s fun t =>
      (mbox t d (mbIx sec n)).result = some (0, (mbox s d (mbIx sec n)).args.take (inLen s d sec n)) ∧ t.regs = s.regs) ∧
    (∀ p ans, inReady s d sec n 3 = true → inLen s d sec n = 1 → p = (inArg s d sec n 0).toNat % 16 → p < nPorts s →
      longBusy s d = false → rb s (pgHp d p) Off.PAGE_CTRL 0 = true → (port s d p).link = 5 →
      Completes (.headDiscover d sec n ans) s fun t => (port t d p).link ∈ [2, 5] ∧
        (fw t d).long = some ⟨sec, n, 3, s.clock, (inArg s d sec n 0).toNat⟩) ∧
    (inReady s d sec n 4 = true → inLen s d sec n = 1 → sbBad s (inArg s d sec n 0) = false →
      sbTaken s d (inArg s d sec n 0) = false →
      (Completes (.sbRead d sec n none) s fun t => (mbox t d (mbIx sec n)).result = some (9, [])) ∧
      (∀ l, Completes (.sbRead d sec n (some l)) s fun t => (mbox t d (mbIx sec n)).result =
        some (0, packBytes ((List.range (sbCount (inArg s d sec n 0))).map fun i => (l.getD i 0#8).toNat)))) ∧
    (inReady s d sec n 5 = true → 0x40 ≤ sbOff (inArg s d sec n 0) →
      inLen s d sec n = 1 + ceilDiv (sbCount (inArg s d sec n 0)) 3 → sbBad s (inArg s d sec n 0) = false →
      sbTaken s d (inArg s d sec n 0) = false → Completes (.sbWrite d sec n true) s fun t =>
        (mbox t d (mbIx sec n)).result = some (0, []) ∧ t.out = s.out ++ [.sideWrite d (sbPort (inArg s d sec n 0))
          (sbOff (inArg s d sec n 0))
          ((unpackBytes ((mbox s d (mbIx sec n)).args.drop 1)).take (sbCount (inArg s d sec n 0)))]) ∧
    (inReady s d sec n 5 = true → 0x40 ≤ sbOff (inArg s d sec n 0) →
      inLen s d sec n = 1 + ceilDiv (sbCount (inArg s d sec n 0)) 3 → sbBad s (inArg s d sec n 0) = false →
      sbTaken s d (inArg s d sec n 0) = false → Completes (.sbWrite d sec n false) s fun t =>
        (mbox t d (mbIx sec n)).result = some (9, []) ∧ t.out = s.out) ∧
    (inReady s d sec n 6 = true → inLen s d sec n = 1 → is16E s = true → longBusy s d = false →
      rf s (pgEcho d) Off.SWEEP_STAT 0 3 ≠ 1 → Completes (.captureRef d sec n) s fun t =>
        (fw t d).long = some ⟨sec, n, 6, s.clock, (inArg s d sec n 0).toNat⟩ ∧
        rf t (pgEcho d) Off.SWEEP_CFG 16 8 = fld (inArg s d sec n 0) 0 8) ∧
    (inReady s d sec n 7 = true → inLen s d sec n = 1 → fld (inArg s d sec n 0) 0 8 < 51 →
      asPresent s (fld (inArg s d sec n 0) 0 8) = true → noXtal s d = false → running s (pgAssay d) = true →
      (bit (inArg s d sec n 0) 8 = false → Completes (.assayRequest d sec n) s fun t =>
        (mbox t d (mbIx sec n)).result = some (0, [1#24])) ∧
      (bit (inArg s d sec n 0) 8 = true → longBusy s d = false → Completes (.assayRequest d sec n) s fun t =>
        (fw t d).long = some ⟨sec, n, 7, s.clock, (inArg s d sec n 0).toNat⟩)) ∧
    (inReady s d sec n 8 = true → inLen s d sec n = 0 → longBusy s d = true → Completes (.abortLong d sec n) s fun t =>
      (mbox t d (mbIx sec n)).result = some (0, []) ∧ (fw t d).long = none) ∧
    (inReady s d sec n 9 = true → inLen s d sec n = 1 → fld (inArg s d sec n 0) 9 15 = 0 → Completes (.tallyClear d sec n) s fun t =>
      (mbox t d (mbIx sec n)).result = some (0, []) ∧
      ∀ st < 9, fld (inArg s d sec n 0) st 1 = 1 → retRaw t d (tlWord st 0) = 0#24) ∧
    (inReady s d true n 0x41 = true → ∀ tgt, tgt = fld (inArg s d true n 0) 0 2 →
      (lcDenied s d tgt = false → inLen s d true n = 2 → inArg s d true n 1 = 0x5AA5C3#24 →
        Completes (.lifecycleAdvance d true n true) s fun t => (die t d).lc = tgt ∧ (mbox t d (mbIx true n)).result = some (0, [])) ∧
      (lcDenied s d tgt = true → Completes (.lifecycleAdvance d true n true) s fun t => t.dies = s.dies ∧
        (mbox t d (mbIx true n)).result = some (5, [])))

/-- Restarts of firmware, the limit of a long command and the clear of the tally board (spec/15_mailboxes.md,
spec/17_startup_and_containment.md, log entry 48, log entry 78). FW_RESTART in a MBOX_S that is not fenced,
acknowledged in its slot, and FW_WATCHDOG_RESTART, each with firmware live, take firmware down, advance
FW_EPOCH of both pages, and end the long command; FW_STARTED takes it up again on a die that is awake.
LONG_CMD_TIMEOUT of a long command that has not ended ends it, firmware live, no earlier than its limit. A
taken TL_CLEAR notes the entries to clear, and CLEARED, with firmware up and the die not in STANDBY, clears
the first word and the shown copy of those named, with its event. That firmware stands still in STANDBY is log
entry 78's deduction. -/
def Obligations.FirmwareRestarts : Prop :=
  (∀ (s : State) (d n : Nat), inReady s d true n 0x40 = true → inLen s d true n = 0 → fenced s (pgMbox d true) = false →
    (mbox s d (mbIx true n)).discard = false → Completes (.fwRestart d true n) s fun t => fwUp t d = false ∧
      (∀ sec, fwEpoch t d sec = (fwEpoch s d sec + 1) % 256) ∧ (fw t d).long = none ∧ inState t d true n = 3) ∧
  (∀ (s : State) (d : Nat), d < s.part.dies →
    (fwLive s d = true → Completes (.fwWatchdogRestart d) s fun t => fwUp t d = false ∧ (fw t d).long = none ∧ (fw t d).cause = 3 ∧
      ∀ sec, fwEpoch t d sec = (fwEpoch s d sec + 1) % 256) ∧
    (fwUp s d = false → awake s d = true → (fw s d).cause ≠ 0 → Completes (.fwStarted d) s fun t => fwUp t d = true) ∧
    (fwLive s d = true → ∀ l, (fw s d).long = some l → ∀ n, longLimit l = some n → longResult s d l = none →
      Completes (.longCmdTimeout d) s fun t => (fw t d).long = none ∧ l.start + n ≤ t.clock)) ∧
  (∀ (s : State) (r : Req) (d : Nat) (v : Word), Taken s r (pgTally d) Off.TL_CLEAR → Completes (.tlClear r d v) s fun t =>
    rd t (pgTally d) Off.TL_CLEAR = rd s (pgTally d) Off.TL_CLEAR ||| (v &&& 0x1FF#24) ∧ t.ret = s.ret) ∧
  (∀ (s : State) (d : Nat), d < s.part.dies → fwUp s d = true → 2 ≤ modeOf s d → rd s (pgTally d) Off.TL_CLEAR ≠ 0#24 →
    rd s (pgTally d) Off.TL_CLEAR &&& 0x1FF#24 = rd s (pgTally d) Off.TL_CLEAR → present s (pgTally d) = true →
    Completes (.cleared d) s fun t => rd t (pgTally d) Off.TL_CLEAR = 0#24 ∧ rb t (pgTally d) Off.EVT_LAT 1 = true ∧
      ∀ st < 9, rf s (pgTally d) Off.TL_CLEAR st 1 = 1 → retRaw t d (tlWord st 0) = 0#24 ∧ rd t (pgTally d) (Off.TL_STEP + 4 * st) = 0#24)

/-- The host link, its resets, outstanding reads and pending messages (spec/15_mailboxes.md,
spec/18_host_and_die_links.md, log entry 49). FLR turns off Bus Master Enable, Memory Space Enable and MSI-X,
masks every vector, clears the base address registers, is counted with its event, and advances the host epoch
of every die's MBOX_NS. CONVENTIONAL_RESET also turns Bus Master Enable off, asserts PERST#, leaves no session
open and takes the link down. COMPLETION_TIMEOUT of an outstanding host read adds the correctable errors
before it to their count, issues the read again while retries are left, counted, and then counts a completion
timeout with its event. MSIX_PENDING_SEND sends the message of a pending vector that is open. PCIE_LINK_UP of
a supplied part that has started or passed step 7, at a generation and width the endpoint trains at, shows the
link and deasserts PERST#, with event 0 where it was down; PCIE_LINK_DOWN of a link that is up is counted with
its event. BUS_MASTER_ENABLE sets Bus Master Enable and leaves every chute's words. -/
def Obligations.HostLink : Prop :=
  (∀ s : State, present s pgPcie = true →
    (Completes .flr s fun t => t.pcie.bme = false ∧ t.pcie.mse = false ∧ t.pcie.msixEn = false ∧ t.pcie.unmasked = [] ∧ t.pcie.bars = [] ∧
      rd t pgPcie Off.CNT_FLR = inc24 (rd s pgPcie Off.CNT_FLR) ∧ rb t pgPcie Off.EVT_LAT 2 = true ∧
      ∀ d < s.part.dies, rf t (pgMbox d false) Off.MB_EPOCH 0 8 = (rf s (pgMbox d false) Off.MB_EPOCH 0 8 + 1) % 256) ∧
    (Completes .conventionalReset s fun t => t.pcie.bme = false ∧ t.pcie.perst = true ∧ rb t pgPcie Off.PC_STAT 0 = false ∧
      ∀ d < s.part.dies, (die t d).sess.st ≠ 2)) ∧
  (∀ (s : State) (n corr : Nat), present s pgPcie = true → ∀ x, s.pcie.reads[n]? = some x →
    (x.tries < rf s pgPcie Off.PC_CFG 0 2 → Completes (.completionTimeout ⟨n, corr⟩) s fun t =>
      t.out = s.out ++ [.hostRead x.die x.chan x.addr x.bytes] ∧ t.pcie.reads = s.pcie.reads.set n { x with tries := x.tries + 1 } ∧
      rd t pgPcie Off.CNT_REISSUE = inc24 (rd s pgPcie Off.CNT_REISSUE) ∧
      rd t pgPcie Off.CNT_CORR = add24 (rd s pgPcie Off.CNT_CORR) corr) ∧
    (rf s pgPcie Off.PC_CFG 0 2 ≤ x.tries → Completes (.completionTimeout ⟨n, corr⟩) s fun t =>
      rd t pgPcie Off.CNT_CTO = inc24 (rd s pgPcie Off.CNT_CTO) ∧ rb t pgPcie Off.EVT_LAT 4 = true ∧
      rd t pgPcie Off.CNT_CORR = add24 (rd s pgPcie Off.CNT_CORR) corr)) ∧
  (∀ (s : State) (v : Nat), v ∈ s.pcie.pba → msixOpen s v = true → Completes (.msixPendingSend v) s fun t =>
    t.out = s.out ++ [.msix v] ∧ t.pcie.pba = s.pcie.pba.filter fun w => decide (w ≠ v)) ∧
  (∀ (s : State) (gen width ltssm : Nat), powered s = true → linkShape gen width = true → ((die s 0).boot.complete = true ∨ 7 < (die s 0).boot.step) →
    present s pgPcie = true → Completes (.pcieLinkUp gen width ltssm) s fun t => rb t pgPcie Off.PC_STAT 0 = true ∧
      rf t pgPcie Off.PC_STAT 16 4 = gen ∧ rf t pgPcie Off.PC_STAT 8 4 = width ∧ t.pcie.perst = false ∧
      (rb s pgPcie Off.PC_STAT 0 = false → rb t pgPcie Off.EVT_LAT 0 = true)) ∧
  (∀ (s : State) (ltssm : Nat), rb s pgPcie Off.PC_STAT 0 = true → present s pgPcie = true → Completes (.pcieLinkDown ltssm) s fun t =>
    rb t pgPcie Off.PC_STAT 0 = false ∧ rf t pgPcie Off.PC_STAT 16 4 = 0 ∧ rb t pgPcie Off.EVT_LAT 1 = true ∧
    rd t pgPcie Off.CNT_LINKDOWN = inc24 (rd s pgPcie Off.CNT_LINKDOWN)) ∧
  (∀ s : State, Completes .busMasterEnable s fun t => t.pcie.bme = true ∧ ∀ d c, (chute t d c).words = (chute s d c).words)

/-- The secure session, the page guards and the permission of fault injection (spec/16_security_debug_power.md,
log entry 50). A taken SESSION_START of a die that is not retired and not in backoff gives a challenge, bound
to its requester or not; a taken SESSION_CLOSE, START not set, ends an open session with its event. A taken
SESSION_CHECK in the challenge, by no requester that the binding shuts out, opens the session if the eleven
words are the HMAC of the message with label 1, counted, with its event and the row of failures ended, and
otherwise counts a failure, with its event, and the session is not open, from the fourth failure in a row on
in backoff. SESSION_TIMEOUT closes an open session with a limit no earlier than that many seconds after its
last access, with its event; BACKOFF_END ends the backoff no earlier than its end. A taken GUARD_WRITE leaves
what its register takes of the value; one that changes the register is counted, with its event, and one that
does not is not counted. A taken IJL_ALLOW_WRITE sets ALLOW, and PERMITTED follows. -/
def Obligations.SecureSession : Prop :=
  (∀ (s : State) (r : Req) (d : Nat), Taken s r (pgSess d) Off.SESS_CTRL →
    (∀ b, (die s d).lc ≠ 3 → (die s d).sess.st ≠ 3 → Completes (.sessionStart r d b) s fun t => (die t d).sess.st = 1 ∧
      (die t d).sess.bind = b ∧ rf t (pgSess d) Off.SESS_STAT 0 3 = 1 ∧ (b = true → rdN t (pgSess d) Off.SESS_RID = r.rid % 2 ^ 16)) ∧
    ((die s d).sess.st = 2 → rb s (pgSess d) Off.SESS_CTRL 0 = false → Completes (.sessionClose r d) s fun t =>
      (die t d).sess.st = 0 ∧ rf t (pgSess d) Off.SESS_STAT 0 3 = 0 ∧ rb t (pgSess d) Off.EVT_LAT 2 = true)) ∧
  (∀ (s : State) (r : Req) (d : Nat) (v : Word), Taken s r (pgSess d) (Off.SESS_RESP + 40) → sessOther s r d = false →
    (die s d).sess.st = 1 →
    (rds (wr s (pgSess d) (Off.SESS_RESP + 40) v) (pgSess d) Off.SESS_RESP 11 = words256 (dieHmac s d (sessMsg s d ++ [1])) →
      Completes (.sessionCheck r d v) s fun t => (die t d).sess.st = 2 ∧ (die t d).sess.consec = 0 ∧
        rb t (pgSess d) Off.EVT_LAT 0 = true ∧ rd t (pgSess d) Off.SESS_OPENS = inc24 (rd s (pgSess d) Off.SESS_OPENS)) ∧
    (rds (wr s (pgSess d) (Off.SESS_RESP + 40) v) (pgSess d) Off.SESS_RESP 11 ≠ words256 (dieHmac s d (sessMsg s d ++ [1])) →
      Completes (.sessionCheck r d v) s fun t => (die t d).sess.st = (if 3 ≤ (die s d).sess.consec then 3 else 0) ∧
        (die t d).sess.consec = (die s d).sess.consec + 1 ∧ rb t (pgSess d) Off.EVT_LAT 1 = true ∧
        rd t (pgSess d) Off.SESS_FAILS = inc24 (rd s (pgSess d) Off.SESS_FAILS))) ∧
  (∀ (s : State) (d : Nat), present s (pgSess d) = true →
    ((die s d).sess.st = 2 → rf s (pgSess d) Off.SESS_TMO 0 16 ≠ 0 → Completes (.sessionTimeout d) s fun t =>
      (die t d).sess.st = 0 ∧ rb t (pgSess d) Off.EVT_LAT 2 = true ∧
      (die s d).sess.last + rf s (pgSess d) Off.SESS_TMO 0 16 * 250000000 ≤ t.clock) ∧
    ((die s d).sess.st = 3 → Completes (.backoffEnd d) s fun t => (die t d).sess.st = 0 ∧ (die s d).sess.backoffEnd ≤ t.clock)) ∧
  (∀ (s : State) (r : Req) (d off : Nat) (v : Word), Taken s r (pgGuard d) off → Off.GD_NS ≤ off → off ≤ Off.GD_MEM →
    Completes (.guardWrite r d off v) s fun t => rd t (pgGuard d) off = rd (plainWrite s r (pgGuard d) off v) (pgGuard d) off ∧
      (rd t (pgGuard d) off ≠ rd s (pgGuard d) off → rb t (pgGuard d) Off.EVT_LAT 0 = true ∧
        rd t (pgGuard d) Off.GD_CHANGES = inc24 (rd s (pgGuard d) Off.GD_CHANGES)) ∧
      (rd t (pgGuard d) off = rd s (pgGuard d) off → rd t (pgGuard d) Off.GD_CHANGES = rd s (pgGuard d) Off.GD_CHANGES)) ∧
  (∀ (s : State) (r : Req) (d : Nat) (b : Bool), Taken s r (pgIjl d) Off.IJL_CTRL → Completes (.ijlAllowWrite r d b) s fun t =>
    rb t (pgIjl d) Off.IJL_CTRL 0 = b ∧ rb t (pgIjl d) Off.IJL_STAT 0 = injOk t d)

/-- The instructions of the test access port (spec/16_security_debug_power.md, log entry 51). Each instruction
loads its code. EXTEST, CLAMP, HIGHZ, EXTEST_PULSE and EXTEST_TRAIN give the cells the balls and fence every
head port and axis page of the die that can be fenced; SAMPLE_PRELOAD and BYPASS, of a code with no other
instruction, do not. IDCODE and DBG_STATUS answer their data register, UNLOCK_CHAL a challenge that it keeps.
With the DEBUG page not fenced, UNLOCK_RESP opens the session of a die in OPEN with its event; in LOCKED a
token that is not that of a challenge kept is counted and opens none. DBG_ACCESS in a session answers the
capture of the access before and performs one, without a session it does not. DBG_CLOSE, a taken
DBG_CTRL_CLOSE and TRST_LOW leave no session. -/
def Obligations.TestAccessPort : Prop :=
  (∀ (s : State) (d : Nat), d < s.part.dies →
    (∀ ic ∈ [(Instr.extest d, 0), (.clamp d, 3), (.highz d, 4), (.extestPulse d, 5), (.extestTrain d, 6)],
      Completes ic.1 s fun t => (die t d).tap.ir = ic.2 ∧ (die t d).tap.pins = true ∧ rf t (pgDebug d) Off.DBG_STAT 8 8 = ic.2 ∧
        ∀ p ∈ bscanPages s d, takesFence s p = true → fenced t p = true) ∧
    (Completes (.samplePreload d) s fun t => (die t d).tap.ir = 1 ∧ (die t d).tap.pins = false ∧ t.fences = s.fences) ∧
    (∀ c < 256, irListed c = false → Completes (.bypass d c) s fun t => (die t d).tap.ir = c ∧ (die t d).tap.pins = false ∧
      t.resp = s.resp ∧ t.fences = s.fences) ∧
    (Completes (.idcode d) s fun t => (die t d).tap.ir = 2 ∧ t.resp = .tdo (idcode s d)) ∧
    (Completes (.dbgStatus d) s fun t => (die t d).tap.ir = 0x40 ∧ t.resp = .tdo (rdN t (pgDebug d) Off.DBG_STAT)) ∧
    (Completes (.unlockChal d) s fun t => (die t d).tap.ir = 0x41 ∧ ∃ c, (die t d).tap.chal = some c ∧ t.resp = .tdo c) ∧
    (∀ token, fenced s (pgDebug d) = false → present s (pgDebug d) = true →
      ((die s d).lc = 0 → Completes (.unlockResp d token) s fun t => (die t d).tap.session = true ∧ (die t d).tap.chal = none ∧
        rb t (pgDebug d) Off.EVT_LAT 0 = true) ∧
      ((die s d).lc = 2 → (∀ c, (die s d).tap.chal = some c → token % 2 ^ 64 ≠ unlockToken s d c) →
        Completes (.unlockResp d token) s fun t => (die t d).tap.session = (die s d).tap.session ∧
          (die t d).tap.fails = min ((die s d).tap.fails + 1) 3 ∧
          rd t (pgDebug d) Off.DBG_FAILS_CNT = inc24 (rd s (pgDebug d) Off.DBG_FAILS_CNT))) ∧
    (∀ w a x, (die s d).tap.session = true → Completes (.dbgAccess d w a x) s fun t =>
      t.resp = .tdo (dbgCapture (die s d).tap) ∧ (die t d).tap.accDone = true) ∧
    (∀ w a x, (die s d).tap.session = false → Completes (.dbgAccess d w a x) s fun t =>
      (die t d).tap.ir = 0x43 ∧ t.mem = s.mem ∧ t.resp = s.resp) ∧
    (Completes (.dbgClose d) s fun t => (die t d).tap.session = false ∧ (die t d).tap.ir = 0x44) ∧
    (Completes (.trstLow d) s fun t => (die t d).tap.session = false ∧ (die t d).tap.ir = 0xFF)) ∧
  (∀ (s : State) (r : Req) (d : Nat), Taken s r (pgDebug d) Off.DBG_CTRL → Completes (.dbgCtrlClose r d) s fun t =>
    (die t d).tap.session = false ∧ (die t d).tap.ir = (die s d).tap.ir)

/-- DORMANT, wakes and failures of the supplies (spec/16_security_debug_power.md,
spec/19_electrical_and_package.md, log entry 52). DORMANT_ENTRY while an accepted DORMANT request is being
entered stops the part, takes AON_VIN_EN low, takes the host link down and leaves no session open. VIN_OFF of
the stopped part leaves it off, its memories empty, the retention store and the seconds as they were, and
every register at its reset value but those of the always-on domain, which it keeps. VIN_BROWNOUT leaves a
supplied part off in the same way, with AON_VIN_EN high. On a part that can wake, WAKE_PIN of an enabled pin
at its enabled edge, and an enabled WAKE_ALARM at the seconds edge that reaches the alarm, take AON_VIN_EN
high and add their source to the wake's sources. VAON_RESET clears the seconds and the registers of the
always-on domain alone and leaves the retention store. VAON_APPLIED starts a reset always-on domain with
POWER_ON in PWR_STAT. POWER_GOOD of a die where VIN may return runs the part with its retention store as it
was: that die is at step 1, the others at step 0. -/
def Obligations.PowerStates : Prop :=
  (∀ s : State, s.pkg.power = .entering → inTransition s = true → s.pkg.nextMode = 0 → Completes .dormantEntry s fun t =>
    t.pkg.power = .stopped ∧ t.pkg.vinEn = false ∧ rb t pgPcie Off.PC_STAT 0 = false ∧ ∀ d < s.part.dies, (die t d).sess.st ≠ 2) ∧
  (∀ s : State, s.pkg.power = .stopped → Completes .vinOff s fun t => t.pkg.power = .off ∧ t.mem = [] ∧ t.ret = s.ret ∧
    t.pkg.seconds = s.pkg.seconds ∧ ∀ p off, rd t p off = if alwaysOn (p, off) then rd s p off else resetWord p off) ∧
  (∀ s : State, powered s = true → Completes .vinBrownout s fun t => t.pkg.power = .off ∧ t.pkg.vinEn = true ∧ t.mem = [] ∧
    t.ret = s.ret ∧ ∀ p off, rd t p off = if alwaysOn (p, off) then rd s p off else resetWord p off) ∧
  (∀ s : State, wakeNow s = true →
    (∀ n rise, n < 4 → rb s (pgDie 0) Off.PWR_CFG (4 + n) = true → rb s (pgDie 0) Off.PWR_CFG (8 + n) = !rise →
      Completes (.wakePin n rise) s fun t => t.pkg.woken = true ∧ t.pkg.vinEn = true ∧ t.pkg.wokeBy = s.pkg.wokeBy ||| 2 ^ (4 + n)) ∧
    (rb s (pgDie 0) Off.PWR_CFG 12 = true → s.pkg.edgeAt = s.clock → s.pkg.seconds = rd48 s (pgDie 0) Off.PWR_ALARM_L → Completes .wakeAlarm s fun t =>
      t.pkg.woken = true ∧ t.pkg.vinEn = true ∧ t.pkg.wokeBy = s.pkg.wokeBy ||| 4)) ∧
  (∀ s : State, Completes .vaonReset s fun t => t.pkg.seconds = 0 ∧ t.pkg.vaonOn = false ∧ t.ret = s.ret ∧
    ∀ p off, rd t p off = if alwaysOn (p, off) then resetWord p off else rd s p off) ∧
  (∀ s : State, s.pkg.vaonOn = false → Completes .vaonApplied s fun t => t.pkg.vaonOn = true ∧ t.pkg.powerOn = true ∧
    rd t (pgDie 0) Off.PWR_STAT = 1#24) ∧
  (∀ (s : State) (d : Nat), d < s.part.dies → vinReturns s = true → Completes (.powerGood d) s fun t => t.pkg.power = .running ∧
    (die t d).boot.step = 1 ∧ t.ret = s.ret ∧ ∀ e < s.part.dies, e ≠ d → (die t e).boot.step = 0)

/-- The steps of a start (spec/12_memory.md, spec/17_startup_and_containment.md, log entry 53). On a die where the
step is in progress and is not skipped: FUSE_READ of good fuses goes on to the next step it runs with the
serial number and a lifecycle state that never goes back; CRYSTAL goes on to step 3; PLL_LOCK goes on to step
4 with the counter running from 0; MEM_REPAIR goes on with the die's memory 0 and every other die's as it was;
FW_VERIFY of image A goes on with firmware running from it; PCIE_LINK at a generation and width the endpoint
trains at goes on to step 8 with the link up; INITIAL_ASSAY of an enumerated die whose STARTUP runs have
ended, after step 7 of die 0, completes the die's start. BURIM_TRAIN takes both ends of a training link that
neither end keeps down to UP. BOOT_STEP_TIMEOUT of a step that can fail, but step 8, holds the step and notes
the restart, for a step but 7 no earlier than its limit. BOOT_RESTART takes every die to step 0 with its
memory empty, no earlier than 2,500,000 ticks after the failure noted. -/
def Obligations.BootSteps : Prop :=
  (∀ (s : State) (d : Nat) (f : Fuses), atStep s d 1 = true → stepSkip (boardOpen s d) d = false → f.good = true →
    Completes (.fuseRead d f) s fun t => (die t d).boot.step = (if d = 0 then 2 else 3) ∧ (die t d).serial = f.serial % 2 ^ 48 ∧
      (die t d).lc = max (die s d).lc (f.lc % 4) ∧ (die t d).fuseOk = true) ∧
  (∀ s : State, atStep s 0 2 = true → stepSkip s 0 = false → Completes .crystal s fun t => (die t 0).boot.step = 3) ∧
  (∀ (s : State) (d : Nat), atStep s d 3 = true → stepSkip s d = false → Completes (.pllLock d) s fun t => (die t d).boot.step = 4 ∧
    (die t d).counting = true ∧ (die t d).pllLocked = true ∧ now t d = 0) ∧
  (∀ (s : State) (d : Nat), atStep s d 4 = true → stepSkip s d = false → Completes (.memRepair d) s fun t =>
    (die t d).boot.step = (if s.part.dies = 1 then 6 else 5) ∧
    ∀ x, memGet t.mem x = if x / 2 ^ 24 = d then 0#8 else memGet s.mem x) ∧
  (∀ (s : State) (d i e j : Nat), burimPeer s.part.dies d i = some (e, j) → atStep s d 5 = true → atStep s e 5 = true →
    linkIn s d i e j 1 = true → linkSkip s d i = false → linkSkip s e j = false → Completes (.burimTrain d i) s fun t =>
      linkIn t d i e j 2 = true) ∧
  (∀ (s : State) (d : Nat), atStep s d 6 = true → stepSkip s d = false → Completes (.fwVerify d 0) s fun t => fwUp t d = true ∧
    (die t d).boot.image = 0 ∧ (die t d).boot.step = (if d = 0 then 7 else 8)) ∧
  (∀ (s : State) (gen width ltssm : Nat), atStep s 0 7 = true → stepSkip s 0 = false → linkShape gen width = true →
    Completes (.pcieLink gen width ltssm) s fun t => (die t 0).boot.step = 8 ∧ rb t pgPcie Off.PC_STAT 0 = true ∧
      rf t pgPcie Off.PC_STAT 16 4 = gen ∧ t.pcie.perst = false) ∧
  (∀ (s : State) (d : Nat), atStep s d 8 = true → enumerated s d = true → 8 ≤ (die s 0).boot.step →
    startupRunsEnded s d = true → Completes (.initialAssay d) s fun t => (die t d).boot.complete = true) ∧
  (∀ (s : State) (d st detail : Nat), canFail s d st = true → st ≠ 8 → Completes (.bootStepTimeout d st detail) s fun t =>
    (die t d).boot.restartAt = some t.clock ∧ (die t d).boot.step = st ∧
    (st ≠ 7 → stepStart s d st + stepLimit st ≤ t.clock)) ∧
  (∀ (s : State) (c : Nat), failedAt s = some c → Completes .bootRestart s fun t => c + 2500000 ≤ t.clock ∧ t.mem = [] ∧
    ∀ d < s.part.dies, (die t d).boot.step = 0 ∧ (die t d).boot.complete = false)

/-- Flits, replay and retraining on a Burim link (spec/18_host_and_die_links.md, log entry 54, log entry 79). On
an UP link with nothing to replay, room in the replay buffer, no reordered flit held and no injection running
on the sending die, a flit that the sending port picks, in order and with its fields in range, crosses without
error: it is counted at both ends and becomes the receiver's last SEQ, and one for another die waits at the
port of its route. An IDLE flit whose errors break its CRC is counted as a CRC failure and leaves the last
SEQ. NAK_RECEIVE of the NAK the far end holds queues the flits after its SEQ for replay. BURIM_RETRAIN takes
both ends to RETRAINING, counted with the port's event. A good end of retraining takes both ends to UP; a
failed one counts an attempt, and after two failures takes both ends to DOWN. -/
def Obligations.BurimLinks : Prop :=
  ∀ (s : State) (d i e j : Nat), burimPeer s.part.dies d i = some (e, j) →
    (∀ a : FlitIn, linkIn s d i e j 2 = true → a.kind ≤ 3 → a.noise = 0 → (burim s e j).resend = [] →
      (burim s e j).late = none → (burim s e j).buf.length < 256 → running s (pgInject e) = false →
      (burim s e j).next = ((burim s d i).last + 1) % 1024 →
      ∀ f, flitPick (burim (flitOffer s e j a) e j) (burim (flitOffer s e j a) e j).queue = some f →
      1 ≤ f.kind → f.kind ≤ 3 → f.dst < 8 → f.src < 8 → f.words.length ≤ 40 → Completes (.flitReceive d i a) s fun t =>
        (burim t d i).last = (burim s e j).next ∧ (burim t e j).next = ((burim s e j).next + 1) % 1024 ∧
        rd t (pgBurim d) (buOff i Off.CNT_RX) = rd s (pgBurim d) (buOff i Off.CNT_RX) + 1#24 ∧
        rd t (pgBurim e) (buOff j Off.CNT_TX_burim) = rd s (pgBurim e) (buOff j Off.CNT_TX_burim) + 1#24 ∧
        (f.dst ≠ d → ∀ p, routePort s d f.dst (decide (i = 0)) = some p →
          (burim t d p).queue.length = (burim s d p).queue.length + 1 ∧
          ((burim t d p).queue.getLast?.map fun g => (g.dst, g.via)) = some (f.dst, some i))) ∧
    (∀ a : FlitIn, linkIn s d i e j 2 = true → a.kind = 0 → (burim s e j).resend = [] → (burim s e j).queue = [] →
      (∀ x, onLanes s e j a.noise { seq := 0, kind := 0, dst := d, src := e } = x → flitCrc (x / 2 ^ 24) ≠ x % 2 ^ 24) → Completes (.flitReceive d i a) s fun t =>
      rd t (pgBurim d) (buOff i Off.CNT_CRC) = inc24 (rd s (pgBurim d) (buOff i Off.CNT_CRC)) ∧
      (burim t d i).last = (burim s d i).last) ∧
    (∀ q, linkIn s d i e j 2 = true → (burim s e j).nak = some q → Completes (.nakReceive d i q) s fun t =>
      (burim t d i).buf = afterAck (burim s d i).buf q ∧ (burim t d i).resend = (afterAck (burim s d i).buf q).map Flit.seq ∧
      t.regs = s.regs) ∧
    (linkIn s d i e j 2 = true → present s (pgBurim d) = true → Completes (.burimRetrain d i) s fun t => linkIn t d i e j 3 = true ∧
      rd t (pgBurim d) (buOff i Off.CNT_RETRAIN_burim) = inc24 (rd s (pgBurim d) (buOff i Off.CNT_RETRAIN_burim)) ∧
      rb t (pgBurim d) Off.EVT_LAT (4 + i) = true) ∧
    (linkIn s d i e j 3 = true → Completes (.burimRetrainDone d i true) s fun t => linkIn t d i e j 2 = true) ∧
    (linkIn s d i e j 3 = true → (burim s d i).attempts < 2 → Completes (.burimRetrainDone d i false) s fun t =>
      linkIn t d i e j 3 = true ∧ (burim t d i).attempts = (burim s d i).attempts + 1) ∧
    (linkIn s d i e j 3 = true → 2 ≤ (burim s d i).attempts → Completes (.burimRetrainDone d i false) s fun t =>
      linkIn t d i e j 4 = true)

/-- A lead below 500 ticks becomes 500 ticks (R32). Every write of MODE_LEAD on die 0 that is taken, by
MODE_LEAD_WRITE or as a 32-bit REGISTER_WRITE, leaves in the field the value written, or 500 where that value
is below 500, so at least 500 ticks. -/
def Obligations.ModeLeadMinimum : Prop :=
  ∀ (s : State) (r : Req) (v : Word), Taken s r (pgMode 0) Off.MODE_LEAD →
    ∀ i ∈ [Instr.modeLeadWrite r 0 v, .registerWrite r (.reg (pgMode 0) Off.MODE_LEAD) ⟨4, true, false⟩ v.toNat],
      Completes i s fun t =>
        rf t (pgMode 0) Off.MODE_LEAD 0 16 = (if fld v 0 16 < 500 then 500 else fld v 0 16) ∧
        500 ≤ rf t (pgMode 0) Off.MODE_LEAD 0 16

/-- Vectors 96 to 127 belong to secure pages (R46). Every write of EVT_VEC that is taken, by EVT_VEC_WRITE or as a
32-bit REGISTER_WRITE. A non-secure page keeps its vector on a write of 96 to 127, a secure page on a write of
0 to 95; otherwise the field takes the vector written, whatever vectors other pages have. No other register of
any page changes. -/
def Obligations.EventVectorRange : Prop :=
  ∀ (s : State) (r : Req) (p : Pg) (v : Word), Taken s r p Off.EVT_VEC →
    ∀ i ∈ [Instr.evtVecWrite r p v, .registerWrite r (.reg p Off.EVT_VEC) ⟨4, true, false⟩ v.toNat], Completes i s fun t =>
      (p.sec = false → 96 ≤ fld v 0 7 → rf t p Off.EVT_VEC 0 7 = rf s p Off.EVT_VEC 0 7) ∧
      (p.sec = true → fld v 0 7 ≤ 95 → rf t p Off.EVT_VEC 0 7 = rf s p Off.EVT_VEC 0 7) ∧
      (p.sec = false → fld v 0 7 ≤ 95 → rf t p Off.EVT_VEC 0 7 = fld v 0 7) ∧
      (p.sec = true → 96 ≤ fld v 0 7 → rf t p Off.EVT_VEC 0 7 = fld v 0 7) ∧
      ∀ q o, (q, o) ≠ (p, Off.EVT_VEC) → rd t q o = rd s q o

/-- A read of a low part captures the upper parts for its class (R49). WIDE_L_READ of 32 bits, taken, of any
register that has no effect of its own when read and waits for nothing (not a pop window, RET_DATA or
AX_CMD_STAT). The answer is the capture of the requester's class if it has one of that register, else the live
value. The upper parts of the register, if it is the low part of a wide value, are captured for that class as
they read live in this command, and no other capture of that class and none of another class changes, but for
LAT_EST, which a read of LAT_POS_L captures too. Later reads therefore return the captured values until the
next read of the low part by the same class. -/
def Obligations.WideReads : Prop :=
  ∀ (s : State) (r : Req) (p : Pg) (off : Nat) (row : RegRow), off < 0x1000 → off % 4 = 0 → regRow p off = some row →
    (pgKind p = .chute → off < 0xC00) → (pgKind p = .retain → off ≠ Off.RET_DATA) →
    (pgKind p = .ax → off ≠ Off.AX_CMD_STAT) → TakenRead s r p off →
    Completes (.wideLRead r (.reg p off) 4) s fun t =>
      t.resp = .data (tagOf s p off false)
        (Tbl.get s.caps (clsCode (clsOn r p), (p, off)) (regView (touchSession s r p) p off)) ∧
      (∀ i < row.caps, ∀ x, Tbl.get t.caps (clsCode (clsOn r p), (p, off + 4 * (i + 1))) x =
        regView (touchSession s r p) p (off + 4 * (i + 1))) ∧
      (∀ c q o x, (c, q) ≠ (clsCode (clsOn r p), p) ∨ (∀ i < row.caps, o ≠ off + 4 * (i + 1)) ∧ o ≠ Off.LAT_EST →
        Tbl.get t.caps (c, (q, o)) x = Tbl.get s.caps (c, (q, o)) x) ∧
      t.regs = s.regs

/-- Unassigned and absent pages read 0 and ignore writes (R54). The pages that no table assigns, the PCIE page of
a die other than 0 and the pages of resources that tier 08 lacks are absent on every part. A read of any
aligned offset of an absent page that is not out of the part's map answers 0, with the page's tag; a write of
any shape that is not poisoned leaves the state exactly as it was; and no event of the page ever latches. -/
def Obligations.AbsentPages : Prop :=
  (∀ (s : State) (p : Pg), pgKind p = .absent ∨ (pgKind p = .pcie ∧ p.die ≠ 0) ∨ (s.part.tier = .t08 ∧ absent08 p = true) →
    present s p = false) ∧
  ∀ (s : State) (r : Req) (p : Pg), powered s = true → answers s r p = true → present s p = false →
    (∀ off, off < 0x1000 → off % 4 = 0 →
      exec (.wideLRead r (.reg p off) 4) s = .next { s with resp := .data (tagOf s p off false) 0#24 }) ∧
    (∀ off, off < 0x1000 → ∀ (sh : Shape) (v : Nat), sh.poisoned = false →
      exec (.registerWrite r (.reg p off) sh v) s = .next s) ∧
    (∀ n, raise s p n = s) ∧ (∀ n b, setDyn s p n b = s)

/-- Without a session only the SESSION page answers (R58). A host reaches a present secure page of a die that
answers, through BAR2, and no open session of that die serves it. If the page is any but SESSION, a read
answers 0 with the LOCK tag set and changes nothing else, and a write is ignored and logged in the page with
code 4 (GUARD_DENIED), whose first such error ERR_INFO then holds with VALID set. A read of SESSION is not
locked: it answers with the value of the register, and a write of it is not turned away as locked. -/
def Obligations.LockedSecurePages : Prop :=
  ∀ (s : State) (r : Req) (p : Pg), powered s = true → isHost r = true → p.sec = true → answers s r p = true →
    present s p = true → sessionServes s p.die r = false → ∀ off, off < 0x1000 → off % 4 = 0 →
    (p.num ≠ 5 →
      exec (.wideLRead r (.reg p off) 4) s = .next { s with resp := .data (128 + p.num % 64) 0#24 } ∧
      (∀ v, exec (.registerWrite r (.reg p off) ⟨4, true, false⟩ v) s =
        .next (logErr s ⟨clsOn r p, r.rid⟩ p off true 4)) ∧
      (rb s p Off.ERR_INFO 23 = false →
        rb (logErr s ⟨clsOn r p, r.rid⟩ p off true 4) p Off.ERR_INFO 23 = true ∧
        rf (logErr s ⟨clsOn r p, r.rid⟩ p off true 4) p Off.ERR_INFO 8 8 = 4)) ∧
    (p.num = 5 → Completes (.wideLRead r (.reg p off) 4) s fun t =>
      t.resp = .data (tagOf s p off false) (captured s r p off regView) ∧ t.regs = s.regs ∧
      verdict s r p off true ≠ .locked)

/-- The fuses change only by LIFECYCLE_ADVANCE and FUSE_READ, and the lifecycle never goes back
(spec/16_security_debug_power.md, spec/17_startup_and_containment.md, log entry 52). For every command other
than LIFECYCLE_ADVANCE and FUSE_READ, in every state, the serial number, lot, wafer, die-unique key, its
identifier and the lifecycle of every die of the part are unchanged. No command takes a lifecycle back.
LIFECYCLE_ADVANCE and FUSE_READ change the fuses of the die they name only. That FUSE_READ cannot return a die
to an earlier lifecycle is the model's reading (log entry 52). -/
def Obligations.FuseFrame : Prop :=
  (∀ (i : Instr) (s : State), setsFuses i = false →
    Completes i s fun t => ∀ d < s.part.dies, fuses (die t d) = fuses (die s d)) ∧
  (∀ (i : Instr) (s : State), Completes i s fun t => ∀ d < s.part.dies, (die s d).lc ≤ (die t d).lc) ∧
  (∀ (s : State) (d : Nat) (sec : Bool) (n : Nat) (good : Bool) (f : Fuses),
    ∀ i ∈ [Instr.lifecycleAdvance d sec n good, .fuseRead d f],
      Completes i s fun t => ∀ e < s.part.dies, e ≠ d → fuses (die t e) = fuses (die s e))

/-- Only the commands that open a session can open one (spec/16_security_debug_power.md, log entry 50). For every
state and every command other than SESSION_CHECK, UNLOCK_RESP, the end of a start (INITIAL_ASSAY,
BOOT_STEP_TIMEOUT) and the commands that write a register by its address (REGISTER_WRITE, WIDE_L_WRITE,
DBG_ACCESS, BURST_WRITTEN), no die of the part has an open secure session or debug session after the command
that did not have it open before. -/
def Obligations.SessionFrame : Prop :=
  ∀ (i : Instr) (s : State), opensSessions i = false → Completes i s fun t => ∀ d < s.part.dies,
    ((die t d).sess.st = 2 → (die s d).sess.st = 2) ∧ ((die t d).tap.session = true → (die s d).tap.session = true)
end

