-- ==== Sys2Proof/Laws/State.lean ====
section
/-!
SUPPORT. What each elementary update of the state leaves alone, one lemma per update and field, and what a table read
gives after a table update.
-/

set_option Elab.async false
set_option linter.unusedTactic false
set_option linter.unreachableTactic false
namespace Sys2Proof.Machine

/-! Tables. -/

/-- A table read after a write of the same key gives the value written. -/
@[simp] theorem Tbl.get_put_same {κ α : Type} [DecidableEq κ] (t : Tbl κ α) (k : κ) (v d : α) :
    Tbl.get (Tbl.put t k v) k d = v := by
  induction t with
  | nil => simp [Tbl.put, Tbl.get]
  | cons e r ih =>
    obtain ⟨a, b⟩ := e
    by_cases h : a = k <;> simp_all [Tbl.put, Tbl.get]

/-- A write of another key changes nothing read. -/
theorem Tbl.get_put_other {κ α : Type} [DecidableEq κ] (t : Tbl κ α) (k j : κ) (v d : α) (h : k ≠ j) :
    Tbl.get (Tbl.put t k v) j d = Tbl.get t j d := by
  induction t with
  | nil => simp [Tbl.put, Tbl.get, h]
  | cons e r ih =>
    obtain ⟨a, b⟩ := e
    by_cases h1 : a = k
    · subst h1; simp [Tbl.put, Tbl.get, h]
    · by_cases h2 : a = j <;> simp_all [Tbl.put, Tbl.get]

/-- A table read after a write, by cases of the key. -/
theorem Tbl.get_put {κ α : Type} [DecidableEq κ] (t : Tbl κ α) (k j : κ) (v d : α) :
    Tbl.get (Tbl.put t k v) j d = if k = j then v else Tbl.get t j d := by
  by_cases h : k = j
  · subst h; simp
  · simp [h, Tbl.get_put_other]

/-! Fields. -/

section
variable (s : State)

@[simp] theorem wr_pending (p : Pg) (off : Nat) (v : Word) : (wr s p off v).pending = s.pending := rfl
@[simp] theorem wr_clock (p : Pg) (off : Nat) (v : Word) : (wr s p off v).clock = s.clock := rfl
@[simp] theorem wr_free (p : Pg) (off : Nat) (v : Word) : (wr s p off v).free = s.free := rfl
@[simp] theorem wr_part (p : Pg) (off : Nat) (v : Word) : (wr s p off v).part = s.part := rfl
@[simp] theorem wr_shad (p : Pg) (off : Nat) (v : Word) : (wr s p off v).shad = s.shad := rfl
@[simp] theorem wr_gos (p : Pg) (off : Nat) (v : Word) : (wr s p off v).gos = s.gos := rfl
@[simp] theorem wr_hold (p : Pg) (off : Nat) (v : Word) : (wr s p off v).hold = s.hold := rfl
@[simp] theorem wr_ticks (p : Pg) (off : Nat) (v : Word) : (wr s p off v).ticks = s.ticks := rfl
@[simp] theorem wr_caps (p : Pg) (off : Nat) (v : Word) : (wr s p off v).caps = s.caps := rfl
@[simp] theorem wr_fences (p : Pg) (off : Nat) (v : Word) : (wr s p off v).fences = s.fences := rfl
@[simp] theorem wr_mem (p : Pg) (off : Nat) (v : Word) : (wr s p off v).mem = s.mem := rfl
@[simp] theorem wr_ecc (p : Pg) (off : Nat) (v : Word) : (wr s p off v).ecc = s.ecc := rfl
@[simp] theorem wr_ret (p : Pg) (off : Nat) (v : Word) : (wr s p off v).ret = s.ret := rfl
@[simp] theorem wr_retEcc (p : Pg) (off : Nat) (v : Word) : (wr s p off v).retEcc = s.retEcc := rfl
@[simp] theorem wr_chutes (p : Pg) (off : Nat) (v : Word) : (wr s p off v).chutes = s.chutes := rfl
@[simp] theorem wr_ctxs (p : Pg) (off : Nat) (v : Word) : (wr s p off v).ctxs = s.ctxs := rfl
@[simp] theorem wr_ports (p : Pg) (off : Nat) (v : Word) : (wr s p off v).ports = s.ports := rfl
@[simp] theorem wr_encs (p : Pg) (off : Nat) (v : Word) : (wr s p off v).encs = s.encs := rfl
@[simp] theorem wr_pds (p : Pg) (off : Nat) (v : Word) : (wr s p off v).pds = s.pds := rfl
@[simp] theorem wr_seamQ (p : Pg) (off : Nat) (v : Word) : (wr s p off v).seamQ = s.seamQ := rfl
@[simp] theorem wr_echos (p : Pg) (off : Nat) (v : Word) : (wr s p off v).echos = s.echos := rfl
@[simp] theorem wr_mems (p : Pg) (off : Nat) (v : Word) : (wr s p off v).mems = s.mems := rfl
@[simp] theorem wr_msgs (p : Pg) (off : Nat) (v : Word) : (wr s p off v).msgs = s.msgs := rfl
@[simp] theorem wr_axes (p : Pg) (off : Nat) (v : Word) : (wr s p off v).axes = s.axes := rfl
@[simp] theorem wr_hoists (p : Pg) (off : Nat) (v : Word) : (wr s p off v).hoists = s.hoists := rfl
@[simp] theorem wr_served (p : Pg) (off : Nat) (v : Word) : (wr s p off v).served = s.served := rfl
@[simp] theorem wr_trigs (p : Pg) (off : Nat) (v : Word) : (wr s p off v).trigs = s.trigs := rfl
@[simp] theorem wr_tmrs (p : Pg) (off : Nat) (v : Word) : (wr s p off v).tmrs = s.tmrs := rfl
@[simp] theorem wr_cqWait (p : Pg) (off : Nat) (v : Word) : (wr s p off v).cqWait = s.cqWait := rfl
@[simp] theorem wr_cqSeq (p : Pg) (off : Nat) (v : Word) : (wr s p off v).cqSeq = s.cqSeq := rfl
@[simp] theorem wr_assays (p : Pg) (off : Nat) (v : Word) : (wr s p off v).assays = s.assays := rfl
@[simp] theorem wr_therms (p : Pg) (off : Nat) (v : Word) : (wr s p off v).therms = s.therms := rfl
@[simp] theorem wr_lamps (p : Pg) (off : Nat) (v : Word) : (wr s p off v).lamps = s.lamps := rfl
@[simp] theorem wr_mboxes (p : Pg) (off : Nat) (v : Word) : (wr s p off v).mboxes = s.mboxes := rfl
@[simp] theorem wr_fws (p : Pg) (off : Nat) (v : Word) : (wr s p off v).fws = s.fws := rfl
@[simp] theorem wr_tsync (p : Pg) (off : Nat) (v : Word) : (wr s p off v).tsync = s.tsync := rfl
@[simp] theorem wr_burims (p : Pg) (off : Nat) (v : Word) : (wr s p off v).burims = s.burims := rfl
@[simp] theorem wr_hops (p : Pg) (off : Nat) (v : Word) : (wr s p off v).hops = s.hops := rfl
@[simp] theorem wr_dies (p : Pg) (off : Nat) (v : Word) : (wr s p off v).dies = s.dies := rfl
@[simp] theorem wr_pkg (p : Pg) (off : Nat) (v : Word) : (wr s p off v).pkg = s.pkg := rfl
@[simp] theorem wr_pcie (p : Pg) (off : Nat) (v : Word) : (wr s p off v).pcie = s.pcie := rfl
@[simp] theorem wr_resp (p : Pg) (off : Nat) (v : Word) : (wr s p off v).resp = s.resp := rfl
@[simp] theorem wr_out (p : Pg) (off : Nat) (v : Word) : (wr s p off v).out = s.out := rfl
@[simp] theorem wf_pending (p : Pg) (off lo n v : Nat) : (wf s p off lo n v).pending = s.pending := rfl
@[simp] theorem wf_clock (p : Pg) (off lo n v : Nat) : (wf s p off lo n v).clock = s.clock := rfl
@[simp] theorem wf_free (p : Pg) (off lo n v : Nat) : (wf s p off lo n v).free = s.free := rfl
@[simp] theorem wf_part (p : Pg) (off lo n v : Nat) : (wf s p off lo n v).part = s.part := rfl
@[simp] theorem wf_shad (p : Pg) (off lo n v : Nat) : (wf s p off lo n v).shad = s.shad := rfl
@[simp] theorem wf_gos (p : Pg) (off lo n v : Nat) : (wf s p off lo n v).gos = s.gos := rfl
@[simp] theorem wf_hold (p : Pg) (off lo n v : Nat) : (wf s p off lo n v).hold = s.hold := rfl
@[simp] theorem wf_ticks (p : Pg) (off lo n v : Nat) : (wf s p off lo n v).ticks = s.ticks := rfl
@[simp] theorem wf_caps (p : Pg) (off lo n v : Nat) : (wf s p off lo n v).caps = s.caps := rfl
@[simp] theorem wf_fences (p : Pg) (off lo n v : Nat) : (wf s p off lo n v).fences = s.fences := rfl
@[simp] theorem wf_mem (p : Pg) (off lo n v : Nat) : (wf s p off lo n v).mem = s.mem := rfl
@[simp] theorem wf_ecc (p : Pg) (off lo n v : Nat) : (wf s p off lo n v).ecc = s.ecc := rfl
@[simp] theorem wf_ret (p : Pg) (off lo n v : Nat) : (wf s p off lo n v).ret = s.ret := rfl
@[simp] theorem wf_retEcc (p : Pg) (off lo n v : Nat) : (wf s p off lo n v).retEcc = s.retEcc := rfl
@[simp] theorem wf_chutes (p : Pg) (off lo n v : Nat) : (wf s p off lo n v).chutes = s.chutes := rfl
@[simp] theorem wf_ctxs (p : Pg) (off lo n v : Nat) : (wf s p off lo n v).ctxs = s.ctxs := rfl
@[simp] theorem wf_ports (p : Pg) (off lo n v : Nat) : (wf s p off lo n v).ports = s.ports := rfl
@[simp] theorem wf_encs (p : Pg) (off lo n v : Nat) : (wf s p off lo n v).encs = s.encs := rfl
@[simp] theorem wf_pds (p : Pg) (off lo n v : Nat) : (wf s p off lo n v).pds = s.pds := rfl
@[simp] theorem wf_seamQ (p : Pg) (off lo n v : Nat) : (wf s p off lo n v).seamQ = s.seamQ := rfl
@[simp] theorem wf_echos (p : Pg) (off lo n v : Nat) : (wf s p off lo n v).echos = s.echos := rfl
@[simp] theorem wf_mems (p : Pg) (off lo n v : Nat) : (wf s p off lo n v).mems = s.mems := rfl
@[simp] theorem wf_msgs (p : Pg) (off lo n v : Nat) : (wf s p off lo n v).msgs = s.msgs := rfl
@[simp] theorem wf_axes (p : Pg) (off lo n v : Nat) : (wf s p off lo n v).axes = s.axes := rfl
@[simp] theorem wf_hoists (p : Pg) (off lo n v : Nat) : (wf s p off lo n v).hoists = s.hoists := rfl
@[simp] theorem wf_served (p : Pg) (off lo n v : Nat) : (wf s p off lo n v).served = s.served := rfl
@[simp] theorem wf_trigs (p : Pg) (off lo n v : Nat) : (wf s p off lo n v).trigs = s.trigs := rfl
@[simp] theorem wf_tmrs (p : Pg) (off lo n v : Nat) : (wf s p off lo n v).tmrs = s.tmrs := rfl
@[simp] theorem wf_cqWait (p : Pg) (off lo n v : Nat) : (wf s p off lo n v).cqWait = s.cqWait := rfl
@[simp] theorem wf_cqSeq (p : Pg) (off lo n v : Nat) : (wf s p off lo n v).cqSeq = s.cqSeq := rfl
@[simp] theorem wf_assays (p : Pg) (off lo n v : Nat) : (wf s p off lo n v).assays = s.assays := rfl
@[simp] theorem wf_therms (p : Pg) (off lo n v : Nat) : (wf s p off lo n v).therms = s.therms := rfl
@[simp] theorem wf_lamps (p : Pg) (off lo n v : Nat) : (wf s p off lo n v).lamps = s.lamps := rfl
@[simp] theorem wf_mboxes (p : Pg) (off lo n v : Nat) : (wf s p off lo n v).mboxes = s.mboxes := rfl
@[simp] theorem wf_fws (p : Pg) (off lo n v : Nat) : (wf s p off lo n v).fws = s.fws := rfl
@[simp] theorem wf_tsync (p : Pg) (off lo n v : Nat) : (wf s p off lo n v).tsync = s.tsync := rfl
@[simp] theorem wf_burims (p : Pg) (off lo n v : Nat) : (wf s p off lo n v).burims = s.burims := rfl
@[simp] theorem wf_hops (p : Pg) (off lo n v : Nat) : (wf s p off lo n v).hops = s.hops := rfl
@[simp] theorem wf_dies (p : Pg) (off lo n v : Nat) : (wf s p off lo n v).dies = s.dies := rfl
@[simp] theorem wf_pkg (p : Pg) (off lo n v : Nat) : (wf s p off lo n v).pkg = s.pkg := rfl
@[simp] theorem wf_pcie (p : Pg) (off lo n v : Nat) : (wf s p off lo n v).pcie = s.pcie := rfl
@[simp] theorem wf_resp (p : Pg) (off lo n v : Nat) : (wf s p off lo n v).resp = s.resp := rfl
@[simp] theorem wf_out (p : Pg) (off lo n v : Nat) : (wf s p off lo n v).out = s.out := rfl
@[simp] theorem wb_pending (p : Pg) (off i : Nat) (b : Bool) : (wb s p off i b).pending = s.pending := rfl
@[simp] theorem wb_clock (p : Pg) (off i : Nat) (b : Bool) : (wb s p off i b).clock = s.clock := rfl
@[simp] theorem wb_free (p : Pg) (off i : Nat) (b : Bool) : (wb s p off i b).free = s.free := rfl
@[simp] theorem wb_part (p : Pg) (off i : Nat) (b : Bool) : (wb s p off i b).part = s.part := rfl
@[simp] theorem wb_shad (p : Pg) (off i : Nat) (b : Bool) : (wb s p off i b).shad = s.shad := rfl
@[simp] theorem wb_gos (p : Pg) (off i : Nat) (b : Bool) : (wb s p off i b).gos = s.gos := rfl
@[simp] theorem wb_hold (p : Pg) (off i : Nat) (b : Bool) : (wb s p off i b).hold = s.hold := rfl
@[simp] theorem wb_ticks (p : Pg) (off i : Nat) (b : Bool) : (wb s p off i b).ticks = s.ticks := rfl
@[simp] theorem wb_caps (p : Pg) (off i : Nat) (b : Bool) : (wb s p off i b).caps = s.caps := rfl
@[simp] theorem wb_fences (p : Pg) (off i : Nat) (b : Bool) : (wb s p off i b).fences = s.fences := rfl
@[simp] theorem wb_mem (p : Pg) (off i : Nat) (b : Bool) : (wb s p off i b).mem = s.mem := rfl
@[simp] theorem wb_ecc (p : Pg) (off i : Nat) (b : Bool) : (wb s p off i b).ecc = s.ecc := rfl
@[simp] theorem wb_ret (p : Pg) (off i : Nat) (b : Bool) : (wb s p off i b).ret = s.ret := rfl
@[simp] theorem wb_retEcc (p : Pg) (off i : Nat) (b : Bool) : (wb s p off i b).retEcc = s.retEcc := rfl
@[simp] theorem wb_chutes (p : Pg) (off i : Nat) (b : Bool) : (wb s p off i b).chutes = s.chutes := rfl
@[simp] theorem wb_ctxs (p : Pg) (off i : Nat) (b : Bool) : (wb s p off i b).ctxs = s.ctxs := rfl
@[simp] theorem wb_ports (p : Pg) (off i : Nat) (b : Bool) : (wb s p off i b).ports = s.ports := rfl
@[simp] theorem wb_encs (p : Pg) (off i : Nat) (b : Bool) : (wb s p off i b).encs = s.encs := rfl
@[simp] theorem wb_pds (p : Pg) (off i : Nat) (b : Bool) : (wb s p off i b).pds = s.pds := rfl
@[simp] theorem wb_seamQ (p : Pg) (off i : Nat) (b : Bool) : (wb s p off i b).seamQ = s.seamQ := rfl
@[simp] theorem wb_echos (p : Pg) (off i : Nat) (b : Bool) : (wb s p off i b).echos = s.echos := rfl
@[simp] theorem wb_mems (p : Pg) (off i : Nat) (b : Bool) : (wb s p off i b).mems = s.mems := rfl
@[simp] theorem wb_msgs (p : Pg) (off i : Nat) (b : Bool) : (wb s p off i b).msgs = s.msgs := rfl
@[simp] theorem wb_axes (p : Pg) (off i : Nat) (b : Bool) : (wb s p off i b).axes = s.axes := rfl
@[simp] theorem wb_hoists (p : Pg) (off i : Nat) (b : Bool) : (wb s p off i b).hoists = s.hoists := rfl
@[simp] theorem wb_served (p : Pg) (off i : Nat) (b : Bool) : (wb s p off i b).served = s.served := rfl
@[simp] theorem wb_trigs (p : Pg) (off i : Nat) (b : Bool) : (wb s p off i b).trigs = s.trigs := rfl
@[simp] theorem wb_tmrs (p : Pg) (off i : Nat) (b : Bool) : (wb s p off i b).tmrs = s.tmrs := rfl
@[simp] theorem wb_cqWait (p : Pg) (off i : Nat) (b : Bool) : (wb s p off i b).cqWait = s.cqWait := rfl
@[simp] theorem wb_cqSeq (p : Pg) (off i : Nat) (b : Bool) : (wb s p off i b).cqSeq = s.cqSeq := rfl
@[simp] theorem wb_assays (p : Pg) (off i : Nat) (b : Bool) : (wb s p off i b).assays = s.assays := rfl
@[simp] theorem wb_therms (p : Pg) (off i : Nat) (b : Bool) : (wb s p off i b).therms = s.therms := rfl
@[simp] theorem wb_lamps (p : Pg) (off i : Nat) (b : Bool) : (wb s p off i b).lamps = s.lamps := rfl
@[simp] theorem wb_mboxes (p : Pg) (off i : Nat) (b : Bool) : (wb s p off i b).mboxes = s.mboxes := rfl
@[simp] theorem wb_fws (p : Pg) (off i : Nat) (b : Bool) : (wb s p off i b).fws = s.fws := rfl
@[simp] theorem wb_tsync (p : Pg) (off i : Nat) (b : Bool) : (wb s p off i b).tsync = s.tsync := rfl
@[simp] theorem wb_burims (p : Pg) (off i : Nat) (b : Bool) : (wb s p off i b).burims = s.burims := rfl
@[simp] theorem wb_hops (p : Pg) (off i : Nat) (b : Bool) : (wb s p off i b).hops = s.hops := rfl
@[simp] theorem wb_dies (p : Pg) (off i : Nat) (b : Bool) : (wb s p off i b).dies = s.dies := rfl
@[simp] theorem wb_pkg (p : Pg) (off i : Nat) (b : Bool) : (wb s p off i b).pkg = s.pkg := rfl
@[simp] theorem wb_pcie (p : Pg) (off i : Nat) (b : Bool) : (wb s p off i b).pcie = s.pcie := rfl
@[simp] theorem wb_resp (p : Pg) (off i : Nat) (b : Bool) : (wb s p off i b).resp = s.resp := rfl
@[simp] theorem wb_out (p : Pg) (off i : Nat) (b : Bool) : (wb s p off i b).out = s.out := rfl
@[simp] theorem wr48_pending (p : Pg) (off v : Nat) : (wr48 s p off v).pending = s.pending := rfl
@[simp] theorem wr48_clock (p : Pg) (off v : Nat) : (wr48 s p off v).clock = s.clock := rfl
@[simp] theorem wr48_free (p : Pg) (off v : Nat) : (wr48 s p off v).free = s.free := rfl
@[simp] theorem wr48_part (p : Pg) (off v : Nat) : (wr48 s p off v).part = s.part := rfl
@[simp] theorem wr48_shad (p : Pg) (off v : Nat) : (wr48 s p off v).shad = s.shad := rfl
@[simp] theorem wr48_gos (p : Pg) (off v : Nat) : (wr48 s p off v).gos = s.gos := rfl
@[simp] theorem wr48_hold (p : Pg) (off v : Nat) : (wr48 s p off v).hold = s.hold := rfl
@[simp] theorem wr48_ticks (p : Pg) (off v : Nat) : (wr48 s p off v).ticks = s.ticks := rfl
@[simp] theorem wr48_caps (p : Pg) (off v : Nat) : (wr48 s p off v).caps = s.caps := rfl
@[simp] theorem wr48_fences (p : Pg) (off v : Nat) : (wr48 s p off v).fences = s.fences := rfl
@[simp] theorem wr48_mem (p : Pg) (off v : Nat) : (wr48 s p off v).mem = s.mem := rfl
@[simp] theorem wr48_ecc (p : Pg) (off v : Nat) : (wr48 s p off v).ecc = s.ecc := rfl
@[simp] theorem wr48_ret (p : Pg) (off v : Nat) : (wr48 s p off v).ret = s.ret := rfl
@[simp] theorem wr48_retEcc (p : Pg) (off v : Nat) : (wr48 s p off v).retEcc = s.retEcc := rfl
@[simp] theorem wr48_chutes (p : Pg) (off v : Nat) : (wr48 s p off v).chutes = s.chutes := rfl
@[simp] theorem wr48_ctxs (p : Pg) (off v : Nat) : (wr48 s p off v).ctxs = s.ctxs := rfl
@[simp] theorem wr48_ports (p : Pg) (off v : Nat) : (wr48 s p off v).ports = s.ports := rfl
@[simp] theorem wr48_encs (p : Pg) (off v : Nat) : (wr48 s p off v).encs = s.encs := rfl
@[simp] theorem wr48_pds (p : Pg) (off v : Nat) : (wr48 s p off v).pds = s.pds := rfl
@[simp] theorem wr48_seamQ (p : Pg) (off v : Nat) : (wr48 s p off v).seamQ = s.seamQ := rfl
@[simp] theorem wr48_echos (p : Pg) (off v : Nat) : (wr48 s p off v).echos = s.echos := rfl
@[simp] theorem wr48_mems (p : Pg) (off v : Nat) : (wr48 s p off v).mems = s.mems := rfl
@[simp] theorem wr48_msgs (p : Pg) (off v : Nat) : (wr48 s p off v).msgs = s.msgs := rfl
@[simp] theorem wr48_axes (p : Pg) (off v : Nat) : (wr48 s p off v).axes = s.axes := rfl
@[simp] theorem wr48_hoists (p : Pg) (off v : Nat) : (wr48 s p off v).hoists = s.hoists := rfl
@[simp] theorem wr48_served (p : Pg) (off v : Nat) : (wr48 s p off v).served = s.served := rfl
@[simp] theorem wr48_trigs (p : Pg) (off v : Nat) : (wr48 s p off v).trigs = s.trigs := rfl
@[simp] theorem wr48_tmrs (p : Pg) (off v : Nat) : (wr48 s p off v).tmrs = s.tmrs := rfl
@[simp] theorem wr48_cqWait (p : Pg) (off v : Nat) : (wr48 s p off v).cqWait = s.cqWait := rfl
@[simp] theorem wr48_cqSeq (p : Pg) (off v : Nat) : (wr48 s p off v).cqSeq = s.cqSeq := rfl
@[simp] theorem wr48_assays (p : Pg) (off v : Nat) : (wr48 s p off v).assays = s.assays := rfl
@[simp] theorem wr48_therms (p : Pg) (off v : Nat) : (wr48 s p off v).therms = s.therms := rfl
@[simp] theorem wr48_lamps (p : Pg) (off v : Nat) : (wr48 s p off v).lamps = s.lamps := rfl
@[simp] theorem wr48_mboxes (p : Pg) (off v : Nat) : (wr48 s p off v).mboxes = s.mboxes := rfl
@[simp] theorem wr48_fws (p : Pg) (off v : Nat) : (wr48 s p off v).fws = s.fws := rfl
@[simp] theorem wr48_tsync (p : Pg) (off v : Nat) : (wr48 s p off v).tsync = s.tsync := rfl
@[simp] theorem wr48_burims (p : Pg) (off v : Nat) : (wr48 s p off v).burims = s.burims := rfl
@[simp] theorem wr48_hops (p : Pg) (off v : Nat) : (wr48 s p off v).hops = s.hops := rfl
@[simp] theorem wr48_dies (p : Pg) (off v : Nat) : (wr48 s p off v).dies = s.dies := rfl
@[simp] theorem wr48_pkg (p : Pg) (off v : Nat) : (wr48 s p off v).pkg = s.pkg := rfl
@[simp] theorem wr48_pcie (p : Pg) (off v : Nat) : (wr48 s p off v).pcie = s.pcie := rfl
@[simp] theorem wr48_resp (p : Pg) (off v : Nat) : (wr48 s p off v).resp = s.resp := rfl
@[simp] theorem wr48_out (p : Pg) (off v : Nat) : (wr48 s p off v).out = s.out := rfl
@[simp] theorem wr72_pending (p : Pg) (off v : Nat) : (wr72 s p off v).pending = s.pending := rfl
@[simp] theorem wr72_clock (p : Pg) (off v : Nat) : (wr72 s p off v).clock = s.clock := rfl
@[simp] theorem wr72_free (p : Pg) (off v : Nat) : (wr72 s p off v).free = s.free := rfl
@[simp] theorem wr72_part (p : Pg) (off v : Nat) : (wr72 s p off v).part = s.part := rfl
@[simp] theorem wr72_shad (p : Pg) (off v : Nat) : (wr72 s p off v).shad = s.shad := rfl
@[simp] theorem wr72_gos (p : Pg) (off v : Nat) : (wr72 s p off v).gos = s.gos := rfl
@[simp] theorem wr72_hold (p : Pg) (off v : Nat) : (wr72 s p off v).hold = s.hold := rfl
@[simp] theorem wr72_ticks (p : Pg) (off v : Nat) : (wr72 s p off v).ticks = s.ticks := rfl
@[simp] theorem wr72_caps (p : Pg) (off v : Nat) : (wr72 s p off v).caps = s.caps := rfl
@[simp] theorem wr72_fences (p : Pg) (off v : Nat) : (wr72 s p off v).fences = s.fences := rfl
@[simp] theorem wr72_mem (p : Pg) (off v : Nat) : (wr72 s p off v).mem = s.mem := rfl
@[simp] theorem wr72_ecc (p : Pg) (off v : Nat) : (wr72 s p off v).ecc = s.ecc := rfl
@[simp] theorem wr72_ret (p : Pg) (off v : Nat) : (wr72 s p off v).ret = s.ret := rfl
@[simp] theorem wr72_retEcc (p : Pg) (off v : Nat) : (wr72 s p off v).retEcc = s.retEcc := rfl
@[simp] theorem wr72_chutes (p : Pg) (off v : Nat) : (wr72 s p off v).chutes = s.chutes := rfl
@[simp] theorem wr72_ctxs (p : Pg) (off v : Nat) : (wr72 s p off v).ctxs = s.ctxs := rfl
@[simp] theorem wr72_ports (p : Pg) (off v : Nat) : (wr72 s p off v).ports = s.ports := rfl
@[simp] theorem wr72_encs (p : Pg) (off v : Nat) : (wr72 s p off v).encs = s.encs := rfl
@[simp] theorem wr72_pds (p : Pg) (off v : Nat) : (wr72 s p off v).pds = s.pds := rfl
@[simp] theorem wr72_seamQ (p : Pg) (off v : Nat) : (wr72 s p off v).seamQ = s.seamQ := rfl
@[simp] theorem wr72_echos (p : Pg) (off v : Nat) : (wr72 s p off v).echos = s.echos := rfl
@[simp] theorem wr72_mems (p : Pg) (off v : Nat) : (wr72 s p off v).mems = s.mems := rfl
@[simp] theorem wr72_msgs (p : Pg) (off v : Nat) : (wr72 s p off v).msgs = s.msgs := rfl
@[simp] theorem wr72_axes (p : Pg) (off v : Nat) : (wr72 s p off v).axes = s.axes := rfl
@[simp] theorem wr72_hoists (p : Pg) (off v : Nat) : (wr72 s p off v).hoists = s.hoists := rfl
@[simp] theorem wr72_served (p : Pg) (off v : Nat) : (wr72 s p off v).served = s.served := rfl
@[simp] theorem wr72_trigs (p : Pg) (off v : Nat) : (wr72 s p off v).trigs = s.trigs := rfl
@[simp] theorem wr72_tmrs (p : Pg) (off v : Nat) : (wr72 s p off v).tmrs = s.tmrs := rfl
@[simp] theorem wr72_cqWait (p : Pg) (off v : Nat) : (wr72 s p off v).cqWait = s.cqWait := rfl
@[simp] theorem wr72_cqSeq (p : Pg) (off v : Nat) : (wr72 s p off v).cqSeq = s.cqSeq := rfl
@[simp] theorem wr72_assays (p : Pg) (off v : Nat) : (wr72 s p off v).assays = s.assays := rfl
@[simp] theorem wr72_therms (p : Pg) (off v : Nat) : (wr72 s p off v).therms = s.therms := rfl
@[simp] theorem wr72_lamps (p : Pg) (off v : Nat) : (wr72 s p off v).lamps = s.lamps := rfl
@[simp] theorem wr72_mboxes (p : Pg) (off v : Nat) : (wr72 s p off v).mboxes = s.mboxes := rfl
@[simp] theorem wr72_fws (p : Pg) (off v : Nat) : (wr72 s p off v).fws = s.fws := rfl
@[simp] theorem wr72_tsync (p : Pg) (off v : Nat) : (wr72 s p off v).tsync = s.tsync := rfl
@[simp] theorem wr72_burims (p : Pg) (off v : Nat) : (wr72 s p off v).burims = s.burims := rfl
@[simp] theorem wr72_hops (p : Pg) (off v : Nat) : (wr72 s p off v).hops = s.hops := rfl
@[simp] theorem wr72_dies (p : Pg) (off v : Nat) : (wr72 s p off v).dies = s.dies := rfl
@[simp] theorem wr72_pkg (p : Pg) (off v : Nat) : (wr72 s p off v).pkg = s.pkg := rfl
@[simp] theorem wr72_pcie (p : Pg) (off v : Nat) : (wr72 s p off v).pcie = s.pcie := rfl
@[simp] theorem wr72_resp (p : Pg) (off v : Nat) : (wr72 s p off v).resp = s.resp := rfl
@[simp] theorem wr72_out (p : Pg) (off v : Nat) : (wr72 s p off v).out = s.out := rfl
@[simp] theorem count_pending (p : Pg) (off : Nat) : (count s p off).pending = s.pending := rfl
@[simp] theorem count_clock (p : Pg) (off : Nat) : (count s p off).clock = s.clock := rfl
@[simp] theorem count_free (p : Pg) (off : Nat) : (count s p off).free = s.free := rfl
@[simp] theorem count_part (p : Pg) (off : Nat) : (count s p off).part = s.part := rfl
@[simp] theorem count_shad (p : Pg) (off : Nat) : (count s p off).shad = s.shad := rfl
@[simp] theorem count_gos (p : Pg) (off : Nat) : (count s p off).gos = s.gos := rfl
@[simp] theorem count_hold (p : Pg) (off : Nat) : (count s p off).hold = s.hold := rfl
@[simp] theorem count_ticks (p : Pg) (off : Nat) : (count s p off).ticks = s.ticks := rfl
@[simp] theorem count_caps (p : Pg) (off : Nat) : (count s p off).caps = s.caps := rfl
@[simp] theorem count_fences (p : Pg) (off : Nat) : (count s p off).fences = s.fences := rfl
@[simp] theorem count_mem (p : Pg) (off : Nat) : (count s p off).mem = s.mem := rfl
@[simp] theorem count_ecc (p : Pg) (off : Nat) : (count s p off).ecc = s.ecc := rfl
@[simp] theorem count_ret (p : Pg) (off : Nat) : (count s p off).ret = s.ret := rfl
@[simp] theorem count_retEcc (p : Pg) (off : Nat) : (count s p off).retEcc = s.retEcc := rfl
@[simp] theorem count_chutes (p : Pg) (off : Nat) : (count s p off).chutes = s.chutes := rfl
@[simp] theorem count_ctxs (p : Pg) (off : Nat) : (count s p off).ctxs = s.ctxs := rfl
@[simp] theorem count_ports (p : Pg) (off : Nat) : (count s p off).ports = s.ports := rfl
@[simp] theorem count_encs (p : Pg) (off : Nat) : (count s p off).encs = s.encs := rfl
@[simp] theorem count_pds (p : Pg) (off : Nat) : (count s p off).pds = s.pds := rfl
@[simp] theorem count_seamQ (p : Pg) (off : Nat) : (count s p off).seamQ = s.seamQ := rfl
@[simp] theorem count_echos (p : Pg) (off : Nat) : (count s p off).echos = s.echos := rfl
@[simp] theorem count_mems (p : Pg) (off : Nat) : (count s p off).mems = s.mems := rfl
@[simp] theorem count_msgs (p : Pg) (off : Nat) : (count s p off).msgs = s.msgs := rfl
@[simp] theorem count_axes (p : Pg) (off : Nat) : (count s p off).axes = s.axes := rfl
@[simp] theorem count_hoists (p : Pg) (off : Nat) : (count s p off).hoists = s.hoists := rfl
@[simp] theorem count_served (p : Pg) (off : Nat) : (count s p off).served = s.served := rfl
@[simp] theorem count_trigs (p : Pg) (off : Nat) : (count s p off).trigs = s.trigs := rfl
@[simp] theorem count_tmrs (p : Pg) (off : Nat) : (count s p off).tmrs = s.tmrs := rfl
@[simp] theorem count_cqWait (p : Pg) (off : Nat) : (count s p off).cqWait = s.cqWait := rfl
@[simp] theorem count_cqSeq (p : Pg) (off : Nat) : (count s p off).cqSeq = s.cqSeq := rfl
@[simp] theorem count_assays (p : Pg) (off : Nat) : (count s p off).assays = s.assays := rfl
@[simp] theorem count_therms (p : Pg) (off : Nat) : (count s p off).therms = s.therms := rfl
@[simp] theorem count_lamps (p : Pg) (off : Nat) : (count s p off).lamps = s.lamps := rfl
@[simp] theorem count_mboxes (p : Pg) (off : Nat) : (count s p off).mboxes = s.mboxes := rfl
@[simp] theorem count_fws (p : Pg) (off : Nat) : (count s p off).fws = s.fws := rfl
@[simp] theorem count_tsync (p : Pg) (off : Nat) : (count s p off).tsync = s.tsync := rfl
@[simp] theorem count_burims (p : Pg) (off : Nat) : (count s p off).burims = s.burims := rfl
@[simp] theorem count_hops (p : Pg) (off : Nat) : (count s p off).hops = s.hops := rfl
@[simp] theorem count_dies (p : Pg) (off : Nat) : (count s p off).dies = s.dies := rfl
@[simp] theorem count_pkg (p : Pg) (off : Nat) : (count s p off).pkg = s.pkg := rfl
@[simp] theorem count_pcie (p : Pg) (off : Nat) : (count s p off).pcie = s.pcie := rfl
@[simp] theorem count_resp (p : Pg) (off : Nat) : (count s p off).resp = s.resp := rfl
@[simp] theorem count_out (p : Pg) (off : Nat) : (count s p off).out = s.out := rfl
@[simp] theorem countBy_pending (p : Pg) (off n : Nat) : (countBy s p off n).pending = s.pending := rfl
@[simp] theorem countBy_clock (p : Pg) (off n : Nat) : (countBy s p off n).clock = s.clock := rfl
@[simp] theorem countBy_free (p : Pg) (off n : Nat) : (countBy s p off n).free = s.free := rfl
@[simp] theorem countBy_part (p : Pg) (off n : Nat) : (countBy s p off n).part = s.part := rfl
@[simp] theorem countBy_shad (p : Pg) (off n : Nat) : (countBy s p off n).shad = s.shad := rfl
@[simp] theorem countBy_gos (p : Pg) (off n : Nat) : (countBy s p off n).gos = s.gos := rfl
@[simp] theorem countBy_hold (p : Pg) (off n : Nat) : (countBy s p off n).hold = s.hold := rfl
@[simp] theorem countBy_ticks (p : Pg) (off n : Nat) : (countBy s p off n).ticks = s.ticks := rfl
@[simp] theorem countBy_caps (p : Pg) (off n : Nat) : (countBy s p off n).caps = s.caps := rfl
@[simp] theorem countBy_fences (p : Pg) (off n : Nat) : (countBy s p off n).fences = s.fences := rfl
@[simp] theorem countBy_mem (p : Pg) (off n : Nat) : (countBy s p off n).mem = s.mem := rfl
@[simp] theorem countBy_ecc (p : Pg) (off n : Nat) : (countBy s p off n).ecc = s.ecc := rfl
@[simp] theorem countBy_ret (p : Pg) (off n : Nat) : (countBy s p off n).ret = s.ret := rfl
@[simp] theorem countBy_retEcc (p : Pg) (off n : Nat) : (countBy s p off n).retEcc = s.retEcc := rfl
@[simp] theorem countBy_chutes (p : Pg) (off n : Nat) : (countBy s p off n).chutes = s.chutes := rfl
@[simp] theorem countBy_ctxs (p : Pg) (off n : Nat) : (countBy s p off n).ctxs = s.ctxs := rfl
@[simp] theorem countBy_ports (p : Pg) (off n : Nat) : (countBy s p off n).ports = s.ports := rfl
@[simp] theorem countBy_encs (p : Pg) (off n : Nat) : (countBy s p off n).encs = s.encs := rfl
@[simp] theorem countBy_pds (p : Pg) (off n : Nat) : (countBy s p off n).pds = s.pds := rfl
@[simp] theorem countBy_seamQ (p : Pg) (off n : Nat) : (countBy s p off n).seamQ = s.seamQ := rfl
@[simp] theorem countBy_echos (p : Pg) (off n : Nat) : (countBy s p off n).echos = s.echos := rfl
@[simp] theorem countBy_mems (p : Pg) (off n : Nat) : (countBy s p off n).mems = s.mems := rfl
@[simp] theorem countBy_msgs (p : Pg) (off n : Nat) : (countBy s p off n).msgs = s.msgs := rfl
@[simp] theorem countBy_axes (p : Pg) (off n : Nat) : (countBy s p off n).axes = s.axes := rfl
@[simp] theorem countBy_hoists (p : Pg) (off n : Nat) : (countBy s p off n).hoists = s.hoists := rfl
@[simp] theorem countBy_served (p : Pg) (off n : Nat) : (countBy s p off n).served = s.served := rfl
@[simp] theorem countBy_trigs (p : Pg) (off n : Nat) : (countBy s p off n).trigs = s.trigs := rfl
@[simp] theorem countBy_tmrs (p : Pg) (off n : Nat) : (countBy s p off n).tmrs = s.tmrs := rfl
@[simp] theorem countBy_cqWait (p : Pg) (off n : Nat) : (countBy s p off n).cqWait = s.cqWait := rfl
@[simp] theorem countBy_cqSeq (p : Pg) (off n : Nat) : (countBy s p off n).cqSeq = s.cqSeq := rfl
@[simp] theorem countBy_assays (p : Pg) (off n : Nat) : (countBy s p off n).assays = s.assays := rfl
@[simp] theorem countBy_therms (p : Pg) (off n : Nat) : (countBy s p off n).therms = s.therms := rfl
@[simp] theorem countBy_lamps (p : Pg) (off n : Nat) : (countBy s p off n).lamps = s.lamps := rfl
@[simp] theorem countBy_mboxes (p : Pg) (off n : Nat) : (countBy s p off n).mboxes = s.mboxes := rfl
@[simp] theorem countBy_fws (p : Pg) (off n : Nat) : (countBy s p off n).fws = s.fws := rfl
@[simp] theorem countBy_tsync (p : Pg) (off n : Nat) : (countBy s p off n).tsync = s.tsync := rfl
@[simp] theorem countBy_burims (p : Pg) (off n : Nat) : (countBy s p off n).burims = s.burims := rfl
@[simp] theorem countBy_hops (p : Pg) (off n : Nat) : (countBy s p off n).hops = s.hops := rfl
@[simp] theorem countBy_dies (p : Pg) (off n : Nat) : (countBy s p off n).dies = s.dies := rfl
@[simp] theorem countBy_pkg (p : Pg) (off n : Nat) : (countBy s p off n).pkg = s.pkg := rfl
@[simp] theorem countBy_pcie (p : Pg) (off n : Nat) : (countBy s p off n).pcie = s.pcie := rfl
@[simp] theorem countBy_resp (p : Pg) (off n : Nat) : (countBy s p off n).resp = s.resp := rfl
@[simp] theorem countBy_out (p : Pg) (off n : Nat) : (countBy s p off n).out = s.out := rfl
@[simp] theorem setPstate_pending (p : Pg) (st : Nat) : (setPstate s p st).pending = s.pending := rfl
@[simp] theorem setPstate_clock (p : Pg) (st : Nat) : (setPstate s p st).clock = s.clock := rfl
@[simp] theorem setPstate_free (p : Pg) (st : Nat) : (setPstate s p st).free = s.free := rfl
@[simp] theorem setPstate_part (p : Pg) (st : Nat) : (setPstate s p st).part = s.part := rfl
@[simp] theorem setPstate_shad (p : Pg) (st : Nat) : (setPstate s p st).shad = s.shad := rfl
@[simp] theorem setPstate_gos (p : Pg) (st : Nat) : (setPstate s p st).gos = s.gos := rfl
@[simp] theorem setPstate_hold (p : Pg) (st : Nat) : (setPstate s p st).hold = s.hold := rfl
@[simp] theorem setPstate_ticks (p : Pg) (st : Nat) : (setPstate s p st).ticks = s.ticks := rfl
@[simp] theorem setPstate_caps (p : Pg) (st : Nat) : (setPstate s p st).caps = s.caps := rfl
@[simp] theorem setPstate_fences (p : Pg) (st : Nat) : (setPstate s p st).fences = s.fences := rfl
@[simp] theorem setPstate_mem (p : Pg) (st : Nat) : (setPstate s p st).mem = s.mem := rfl
@[simp] theorem setPstate_ecc (p : Pg) (st : Nat) : (setPstate s p st).ecc = s.ecc := rfl
@[simp] theorem setPstate_ret (p : Pg) (st : Nat) : (setPstate s p st).ret = s.ret := rfl
@[simp] theorem setPstate_retEcc (p : Pg) (st : Nat) : (setPstate s p st).retEcc = s.retEcc := rfl
@[simp] theorem setPstate_chutes (p : Pg) (st : Nat) : (setPstate s p st).chutes = s.chutes := rfl
@[simp] theorem setPstate_ctxs (p : Pg) (st : Nat) : (setPstate s p st).ctxs = s.ctxs := rfl
@[simp] theorem setPstate_ports (p : Pg) (st : Nat) : (setPstate s p st).ports = s.ports := rfl
@[simp] theorem setPstate_encs (p : Pg) (st : Nat) : (setPstate s p st).encs = s.encs := rfl
@[simp] theorem setPstate_pds (p : Pg) (st : Nat) : (setPstate s p st).pds = s.pds := rfl
@[simp] theorem setPstate_seamQ (p : Pg) (st : Nat) : (setPstate s p st).seamQ = s.seamQ := rfl
@[simp] theorem setPstate_echos (p : Pg) (st : Nat) : (setPstate s p st).echos = s.echos := rfl
@[simp] theorem setPstate_mems (p : Pg) (st : Nat) : (setPstate s p st).mems = s.mems := rfl
@[simp] theorem setPstate_msgs (p : Pg) (st : Nat) : (setPstate s p st).msgs = s.msgs := rfl
@[simp] theorem setPstate_axes (p : Pg) (st : Nat) : (setPstate s p st).axes = s.axes := rfl
@[simp] theorem setPstate_hoists (p : Pg) (st : Nat) : (setPstate s p st).hoists = s.hoists := rfl
@[simp] theorem setPstate_served (p : Pg) (st : Nat) : (setPstate s p st).served = s.served := rfl
@[simp] theorem setPstate_trigs (p : Pg) (st : Nat) : (setPstate s p st).trigs = s.trigs := rfl
@[simp] theorem setPstate_tmrs (p : Pg) (st : Nat) : (setPstate s p st).tmrs = s.tmrs := rfl
@[simp] theorem setPstate_cqWait (p : Pg) (st : Nat) : (setPstate s p st).cqWait = s.cqWait := rfl
@[simp] theorem setPstate_cqSeq (p : Pg) (st : Nat) : (setPstate s p st).cqSeq = s.cqSeq := rfl
@[simp] theorem setPstate_assays (p : Pg) (st : Nat) : (setPstate s p st).assays = s.assays := rfl
@[simp] theorem setPstate_therms (p : Pg) (st : Nat) : (setPstate s p st).therms = s.therms := rfl
@[simp] theorem setPstate_lamps (p : Pg) (st : Nat) : (setPstate s p st).lamps = s.lamps := rfl
@[simp] theorem setPstate_mboxes (p : Pg) (st : Nat) : (setPstate s p st).mboxes = s.mboxes := rfl
@[simp] theorem setPstate_fws (p : Pg) (st : Nat) : (setPstate s p st).fws = s.fws := rfl
@[simp] theorem setPstate_tsync (p : Pg) (st : Nat) : (setPstate s p st).tsync = s.tsync := rfl
@[simp] theorem setPstate_burims (p : Pg) (st : Nat) : (setPstate s p st).burims = s.burims := rfl
@[simp] theorem setPstate_hops (p : Pg) (st : Nat) : (setPstate s p st).hops = s.hops := rfl
@[simp] theorem setPstate_dies (p : Pg) (st : Nat) : (setPstate s p st).dies = s.dies := rfl
@[simp] theorem setPstate_pkg (p : Pg) (st : Nat) : (setPstate s p st).pkg = s.pkg := rfl
@[simp] theorem setPstate_pcie (p : Pg) (st : Nat) : (setPstate s p st).pcie = s.pcie := rfl
@[simp] theorem setPstate_resp (p : Pg) (st : Nat) : (setPstate s p st).resp = s.resp := rfl
@[simp] theorem setPstate_out (p : Pg) (st : Nat) : (setPstate s p st).out = s.out := rfl
@[simp] theorem wrShadow_pending (p : Pg) (off : Nat) (v : Word) : (wrShadow s p off v).pending = s.pending := rfl
@[simp] theorem wrShadow_clock (p : Pg) (off : Nat) (v : Word) : (wrShadow s p off v).clock = s.clock := rfl
@[simp] theorem wrShadow_free (p : Pg) (off : Nat) (v : Word) : (wrShadow s p off v).free = s.free := rfl
@[simp] theorem wrShadow_part (p : Pg) (off : Nat) (v : Word) : (wrShadow s p off v).part = s.part := rfl
@[simp] theorem wrShadow_regs (p : Pg) (off : Nat) (v : Word) : (wrShadow s p off v).regs = s.regs := rfl
@[simp] theorem wrShadow_gos (p : Pg) (off : Nat) (v : Word) : (wrShadow s p off v).gos = s.gos := rfl
@[simp] theorem wrShadow_hold (p : Pg) (off : Nat) (v : Word) : (wrShadow s p off v).hold = s.hold := rfl
@[simp] theorem wrShadow_ticks (p : Pg) (off : Nat) (v : Word) : (wrShadow s p off v).ticks = s.ticks := rfl
@[simp] theorem wrShadow_caps (p : Pg) (off : Nat) (v : Word) : (wrShadow s p off v).caps = s.caps := rfl
@[simp] theorem wrShadow_fences (p : Pg) (off : Nat) (v : Word) : (wrShadow s p off v).fences = s.fences := rfl
@[simp] theorem wrShadow_mem (p : Pg) (off : Nat) (v : Word) : (wrShadow s p off v).mem = s.mem := rfl
@[simp] theorem wrShadow_ecc (p : Pg) (off : Nat) (v : Word) : (wrShadow s p off v).ecc = s.ecc := rfl
@[simp] theorem wrShadow_ret (p : Pg) (off : Nat) (v : Word) : (wrShadow s p off v).ret = s.ret := rfl
@[simp] theorem wrShadow_retEcc (p : Pg) (off : Nat) (v : Word) : (wrShadow s p off v).retEcc = s.retEcc := rfl
@[simp] theorem wrShadow_chutes (p : Pg) (off : Nat) (v : Word) : (wrShadow s p off v).chutes = s.chutes := rfl
@[simp] theorem wrShadow_ctxs (p : Pg) (off : Nat) (v : Word) : (wrShadow s p off v).ctxs = s.ctxs := rfl
@[simp] theorem wrShadow_ports (p : Pg) (off : Nat) (v : Word) : (wrShadow s p off v).ports = s.ports := rfl
@[simp] theorem wrShadow_encs (p : Pg) (off : Nat) (v : Word) : (wrShadow s p off v).encs = s.encs := rfl
@[simp] theorem wrShadow_pds (p : Pg) (off : Nat) (v : Word) : (wrShadow s p off v).pds = s.pds := rfl
@[simp] theorem wrShadow_seamQ (p : Pg) (off : Nat) (v : Word) : (wrShadow s p off v).seamQ = s.seamQ := rfl
@[simp] theorem wrShadow_echos (p : Pg) (off : Nat) (v : Word) : (wrShadow s p off v).echos = s.echos := rfl
@[simp] theorem wrShadow_mems (p : Pg) (off : Nat) (v : Word) : (wrShadow s p off v).mems = s.mems := rfl
@[simp] theorem wrShadow_msgs (p : Pg) (off : Nat) (v : Word) : (wrShadow s p off v).msgs = s.msgs := rfl
@[simp] theorem wrShadow_axes (p : Pg) (off : Nat) (v : Word) : (wrShadow s p off v).axes = s.axes := rfl
@[simp] theorem wrShadow_hoists (p : Pg) (off : Nat) (v : Word) : (wrShadow s p off v).hoists = s.hoists := rfl
@[simp] theorem wrShadow_served (p : Pg) (off : Nat) (v : Word) : (wrShadow s p off v).served = s.served := rfl
@[simp] theorem wrShadow_trigs (p : Pg) (off : Nat) (v : Word) : (wrShadow s p off v).trigs = s.trigs := rfl
@[simp] theorem wrShadow_tmrs (p : Pg) (off : Nat) (v : Word) : (wrShadow s p off v).tmrs = s.tmrs := rfl
@[simp] theorem wrShadow_cqWait (p : Pg) (off : Nat) (v : Word) : (wrShadow s p off v).cqWait = s.cqWait := rfl
@[simp] theorem wrShadow_cqSeq (p : Pg) (off : Nat) (v : Word) : (wrShadow s p off v).cqSeq = s.cqSeq := rfl
@[simp] theorem wrShadow_assays (p : Pg) (off : Nat) (v : Word) : (wrShadow s p off v).assays = s.assays := rfl
@[simp] theorem wrShadow_therms (p : Pg) (off : Nat) (v : Word) : (wrShadow s p off v).therms = s.therms := rfl
@[simp] theorem wrShadow_lamps (p : Pg) (off : Nat) (v : Word) : (wrShadow s p off v).lamps = s.lamps := rfl
@[simp] theorem wrShadow_mboxes (p : Pg) (off : Nat) (v : Word) : (wrShadow s p off v).mboxes = s.mboxes := rfl
@[simp] theorem wrShadow_fws (p : Pg) (off : Nat) (v : Word) : (wrShadow s p off v).fws = s.fws := rfl
@[simp] theorem wrShadow_tsync (p : Pg) (off : Nat) (v : Word) : (wrShadow s p off v).tsync = s.tsync := rfl
@[simp] theorem wrShadow_burims (p : Pg) (off : Nat) (v : Word) : (wrShadow s p off v).burims = s.burims := rfl
@[simp] theorem wrShadow_hops (p : Pg) (off : Nat) (v : Word) : (wrShadow s p off v).hops = s.hops := rfl
@[simp] theorem wrShadow_dies (p : Pg) (off : Nat) (v : Word) : (wrShadow s p off v).dies = s.dies := rfl
@[simp] theorem wrShadow_pkg (p : Pg) (off : Nat) (v : Word) : (wrShadow s p off v).pkg = s.pkg := rfl
@[simp] theorem wrShadow_pcie (p : Pg) (off : Nat) (v : Word) : (wrShadow s p off v).pcie = s.pcie := rfl
@[simp] theorem wrShadow_resp (p : Pg) (off : Nat) (v : Word) : (wrShadow s p off v).resp = s.resp := rfl
@[simp] theorem wrShadow_out (p : Pg) (off : Nat) (v : Word) : (wrShadow s p off v).out = s.out := rfl
@[simp] theorem setDie_pending (d : Nat) (x : DieSt) : (setDie s d x).pending = s.pending := rfl
@[simp] theorem setDie_clock (d : Nat) (x : DieSt) : (setDie s d x).clock = s.clock := rfl
@[simp] theorem setDie_free (d : Nat) (x : DieSt) : (setDie s d x).free = s.free := rfl
@[simp] theorem setDie_part (d : Nat) (x : DieSt) : (setDie s d x).part = s.part := rfl
@[simp] theorem setDie_regs (d : Nat) (x : DieSt) : (setDie s d x).regs = s.regs := rfl
@[simp] theorem setDie_shad (d : Nat) (x : DieSt) : (setDie s d x).shad = s.shad := rfl
@[simp] theorem setDie_gos (d : Nat) (x : DieSt) : (setDie s d x).gos = s.gos := rfl
@[simp] theorem setDie_hold (d : Nat) (x : DieSt) : (setDie s d x).hold = s.hold := rfl
@[simp] theorem setDie_ticks (d : Nat) (x : DieSt) : (setDie s d x).ticks = s.ticks := rfl
@[simp] theorem setDie_caps (d : Nat) (x : DieSt) : (setDie s d x).caps = s.caps := rfl
@[simp] theorem setDie_fences (d : Nat) (x : DieSt) : (setDie s d x).fences = s.fences := rfl
@[simp] theorem setDie_mem (d : Nat) (x : DieSt) : (setDie s d x).mem = s.mem := rfl
@[simp] theorem setDie_ecc (d : Nat) (x : DieSt) : (setDie s d x).ecc = s.ecc := rfl
@[simp] theorem setDie_ret (d : Nat) (x : DieSt) : (setDie s d x).ret = s.ret := rfl
@[simp] theorem setDie_retEcc (d : Nat) (x : DieSt) : (setDie s d x).retEcc = s.retEcc := rfl
@[simp] theorem setDie_chutes (d : Nat) (x : DieSt) : (setDie s d x).chutes = s.chutes := rfl
@[simp] theorem setDie_ctxs (d : Nat) (x : DieSt) : (setDie s d x).ctxs = s.ctxs := rfl
@[simp] theorem setDie_ports (d : Nat) (x : DieSt) : (setDie s d x).ports = s.ports := rfl
@[simp] theorem setDie_encs (d : Nat) (x : DieSt) : (setDie s d x).encs = s.encs := rfl
@[simp] theorem setDie_pds (d : Nat) (x : DieSt) : (setDie s d x).pds = s.pds := rfl
@[simp] theorem setDie_seamQ (d : Nat) (x : DieSt) : (setDie s d x).seamQ = s.seamQ := rfl
@[simp] theorem setDie_echos (d : Nat) (x : DieSt) : (setDie s d x).echos = s.echos := rfl
@[simp] theorem setDie_mems (d : Nat) (x : DieSt) : (setDie s d x).mems = s.mems := rfl
@[simp] theorem setDie_msgs (d : Nat) (x : DieSt) : (setDie s d x).msgs = s.msgs := rfl
@[simp] theorem setDie_axes (d : Nat) (x : DieSt) : (setDie s d x).axes = s.axes := rfl
@[simp] theorem setDie_hoists (d : Nat) (x : DieSt) : (setDie s d x).hoists = s.hoists := rfl
@[simp] theorem setDie_served (d : Nat) (x : DieSt) : (setDie s d x).served = s.served := rfl
@[simp] theorem setDie_trigs (d : Nat) (x : DieSt) : (setDie s d x).trigs = s.trigs := rfl
@[simp] theorem setDie_tmrs (d : Nat) (x : DieSt) : (setDie s d x).tmrs = s.tmrs := rfl
@[simp] theorem setDie_cqWait (d : Nat) (x : DieSt) : (setDie s d x).cqWait = s.cqWait := rfl
@[simp] theorem setDie_cqSeq (d : Nat) (x : DieSt) : (setDie s d x).cqSeq = s.cqSeq := rfl
@[simp] theorem setDie_assays (d : Nat) (x : DieSt) : (setDie s d x).assays = s.assays := rfl
@[simp] theorem setDie_therms (d : Nat) (x : DieSt) : (setDie s d x).therms = s.therms := rfl
@[simp] theorem setDie_lamps (d : Nat) (x : DieSt) : (setDie s d x).lamps = s.lamps := rfl
@[simp] theorem setDie_mboxes (d : Nat) (x : DieSt) : (setDie s d x).mboxes = s.mboxes := rfl
@[simp] theorem setDie_fws (d : Nat) (x : DieSt) : (setDie s d x).fws = s.fws := rfl
@[simp] theorem setDie_tsync (d : Nat) (x : DieSt) : (setDie s d x).tsync = s.tsync := rfl
@[simp] theorem setDie_burims (d : Nat) (x : DieSt) : (setDie s d x).burims = s.burims := rfl
@[simp] theorem setDie_hops (d : Nat) (x : DieSt) : (setDie s d x).hops = s.hops := rfl
@[simp] theorem setDie_pkg (d : Nat) (x : DieSt) : (setDie s d x).pkg = s.pkg := rfl
@[simp] theorem setDie_pcie (d : Nat) (x : DieSt) : (setDie s d x).pcie = s.pcie := rfl
@[simp] theorem setDie_resp (d : Nat) (x : DieSt) : (setDie s d x).resp = s.resp := rfl
@[simp] theorem setDie_out (d : Nat) (x : DieSt) : (setDie s d x).out = s.out := rfl
@[simp] theorem setChute_pending (d c : Nat) (x : ChuteSt) : (setChute s d c x).pending = s.pending := rfl
@[simp] theorem setChute_clock (d c : Nat) (x : ChuteSt) : (setChute s d c x).clock = s.clock := rfl
@[simp] theorem setChute_free (d c : Nat) (x : ChuteSt) : (setChute s d c x).free = s.free := rfl
@[simp] theorem setChute_part (d c : Nat) (x : ChuteSt) : (setChute s d c x).part = s.part := rfl
@[simp] theorem setChute_regs (d c : Nat) (x : ChuteSt) : (setChute s d c x).regs = s.regs := rfl
@[simp] theorem setChute_shad (d c : Nat) (x : ChuteSt) : (setChute s d c x).shad = s.shad := rfl
@[simp] theorem setChute_gos (d c : Nat) (x : ChuteSt) : (setChute s d c x).gos = s.gos := rfl
@[simp] theorem setChute_hold (d c : Nat) (x : ChuteSt) : (setChute s d c x).hold = s.hold := rfl
@[simp] theorem setChute_ticks (d c : Nat) (x : ChuteSt) : (setChute s d c x).ticks = s.ticks := rfl
@[simp] theorem setChute_caps (d c : Nat) (x : ChuteSt) : (setChute s d c x).caps = s.caps := rfl
@[simp] theorem setChute_fences (d c : Nat) (x : ChuteSt) : (setChute s d c x).fences = s.fences := rfl
@[simp] theorem setChute_mem (d c : Nat) (x : ChuteSt) : (setChute s d c x).mem = s.mem := rfl
@[simp] theorem setChute_ecc (d c : Nat) (x : ChuteSt) : (setChute s d c x).ecc = s.ecc := rfl
@[simp] theorem setChute_ret (d c : Nat) (x : ChuteSt) : (setChute s d c x).ret = s.ret := rfl
@[simp] theorem setChute_retEcc (d c : Nat) (x : ChuteSt) : (setChute s d c x).retEcc = s.retEcc := rfl
@[simp] theorem setChute_ctxs (d c : Nat) (x : ChuteSt) : (setChute s d c x).ctxs = s.ctxs := rfl
@[simp] theorem setChute_ports (d c : Nat) (x : ChuteSt) : (setChute s d c x).ports = s.ports := rfl
@[simp] theorem setChute_encs (d c : Nat) (x : ChuteSt) : (setChute s d c x).encs = s.encs := rfl
@[simp] theorem setChute_pds (d c : Nat) (x : ChuteSt) : (setChute s d c x).pds = s.pds := rfl
@[simp] theorem setChute_seamQ (d c : Nat) (x : ChuteSt) : (setChute s d c x).seamQ = s.seamQ := rfl
@[simp] theorem setChute_echos (d c : Nat) (x : ChuteSt) : (setChute s d c x).echos = s.echos := rfl
@[simp] theorem setChute_mems (d c : Nat) (x : ChuteSt) : (setChute s d c x).mems = s.mems := rfl
@[simp] theorem setChute_msgs (d c : Nat) (x : ChuteSt) : (setChute s d c x).msgs = s.msgs := rfl
@[simp] theorem setChute_axes (d c : Nat) (x : ChuteSt) : (setChute s d c x).axes = s.axes := rfl
@[simp] theorem setChute_hoists (d c : Nat) (x : ChuteSt) : (setChute s d c x).hoists = s.hoists := rfl
@[simp] theorem setChute_served (d c : Nat) (x : ChuteSt) : (setChute s d c x).served = s.served := rfl
@[simp] theorem setChute_trigs (d c : Nat) (x : ChuteSt) : (setChute s d c x).trigs = s.trigs := rfl
@[simp] theorem setChute_tmrs (d c : Nat) (x : ChuteSt) : (setChute s d c x).tmrs = s.tmrs := rfl
@[simp] theorem setChute_cqWait (d c : Nat) (x : ChuteSt) : (setChute s d c x).cqWait = s.cqWait := rfl
@[simp] theorem setChute_cqSeq (d c : Nat) (x : ChuteSt) : (setChute s d c x).cqSeq = s.cqSeq := rfl
@[simp] theorem setChute_assays (d c : Nat) (x : ChuteSt) : (setChute s d c x).assays = s.assays := rfl
@[simp] theorem setChute_therms (d c : Nat) (x : ChuteSt) : (setChute s d c x).therms = s.therms := rfl
@[simp] theorem setChute_lamps (d c : Nat) (x : ChuteSt) : (setChute s d c x).lamps = s.lamps := rfl
@[simp] theorem setChute_mboxes (d c : Nat) (x : ChuteSt) : (setChute s d c x).mboxes = s.mboxes := rfl
@[simp] theorem setChute_fws (d c : Nat) (x : ChuteSt) : (setChute s d c x).fws = s.fws := rfl
@[simp] theorem setChute_tsync (d c : Nat) (x : ChuteSt) : (setChute s d c x).tsync = s.tsync := rfl
@[simp] theorem setChute_burims (d c : Nat) (x : ChuteSt) : (setChute s d c x).burims = s.burims := rfl
@[simp] theorem setChute_hops (d c : Nat) (x : ChuteSt) : (setChute s d c x).hops = s.hops := rfl
@[simp] theorem setChute_dies (d c : Nat) (x : ChuteSt) : (setChute s d c x).dies = s.dies := rfl
@[simp] theorem setChute_pkg (d c : Nat) (x : ChuteSt) : (setChute s d c x).pkg = s.pkg := rfl
@[simp] theorem setChute_pcie (d c : Nat) (x : ChuteSt) : (setChute s d c x).pcie = s.pcie := rfl
@[simp] theorem setChute_resp (d c : Nat) (x : ChuteSt) : (setChute s d c x).resp = s.resp := rfl
@[simp] theorem setChute_out (d c : Nat) (x : ChuteSt) : (setChute s d c x).out = s.out := rfl
@[simp] theorem setCtx_pending (d k : Nat) (x : CtxSt) : (setCtx s d k x).pending = s.pending := rfl
@[simp] theorem setCtx_clock (d k : Nat) (x : CtxSt) : (setCtx s d k x).clock = s.clock := rfl
@[simp] theorem setCtx_free (d k : Nat) (x : CtxSt) : (setCtx s d k x).free = s.free := rfl
@[simp] theorem setCtx_part (d k : Nat) (x : CtxSt) : (setCtx s d k x).part = s.part := rfl
@[simp] theorem setCtx_regs (d k : Nat) (x : CtxSt) : (setCtx s d k x).regs = s.regs := rfl
@[simp] theorem setCtx_shad (d k : Nat) (x : CtxSt) : (setCtx s d k x).shad = s.shad := rfl
@[simp] theorem setCtx_gos (d k : Nat) (x : CtxSt) : (setCtx s d k x).gos = s.gos := rfl
@[simp] theorem setCtx_hold (d k : Nat) (x : CtxSt) : (setCtx s d k x).hold = s.hold := rfl
@[simp] theorem setCtx_ticks (d k : Nat) (x : CtxSt) : (setCtx s d k x).ticks = s.ticks := rfl
@[simp] theorem setCtx_caps (d k : Nat) (x : CtxSt) : (setCtx s d k x).caps = s.caps := rfl
@[simp] theorem setCtx_fences (d k : Nat) (x : CtxSt) : (setCtx s d k x).fences = s.fences := rfl
@[simp] theorem setCtx_mem (d k : Nat) (x : CtxSt) : (setCtx s d k x).mem = s.mem := rfl
@[simp] theorem setCtx_ecc (d k : Nat) (x : CtxSt) : (setCtx s d k x).ecc = s.ecc := rfl
@[simp] theorem setCtx_ret (d k : Nat) (x : CtxSt) : (setCtx s d k x).ret = s.ret := rfl
@[simp] theorem setCtx_retEcc (d k : Nat) (x : CtxSt) : (setCtx s d k x).retEcc = s.retEcc := rfl
@[simp] theorem setCtx_chutes (d k : Nat) (x : CtxSt) : (setCtx s d k x).chutes = s.chutes := rfl
@[simp] theorem setCtx_ports (d k : Nat) (x : CtxSt) : (setCtx s d k x).ports = s.ports := rfl
@[simp] theorem setCtx_encs (d k : Nat) (x : CtxSt) : (setCtx s d k x).encs = s.encs := rfl
@[simp] theorem setCtx_pds (d k : Nat) (x : CtxSt) : (setCtx s d k x).pds = s.pds := rfl
@[simp] theorem setCtx_seamQ (d k : Nat) (x : CtxSt) : (setCtx s d k x).seamQ = s.seamQ := rfl
@[simp] theorem setCtx_echos (d k : Nat) (x : CtxSt) : (setCtx s d k x).echos = s.echos := rfl
@[simp] theorem setCtx_mems (d k : Nat) (x : CtxSt) : (setCtx s d k x).mems = s.mems := rfl
@[simp] theorem setCtx_msgs (d k : Nat) (x : CtxSt) : (setCtx s d k x).msgs = s.msgs := rfl
@[simp] theorem setCtx_axes (d k : Nat) (x : CtxSt) : (setCtx s d k x).axes = s.axes := rfl
@[simp] theorem setCtx_hoists (d k : Nat) (x : CtxSt) : (setCtx s d k x).hoists = s.hoists := rfl
@[simp] theorem setCtx_served (d k : Nat) (x : CtxSt) : (setCtx s d k x).served = s.served := rfl
@[simp] theorem setCtx_trigs (d k : Nat) (x : CtxSt) : (setCtx s d k x).trigs = s.trigs := rfl
@[simp] theorem setCtx_tmrs (d k : Nat) (x : CtxSt) : (setCtx s d k x).tmrs = s.tmrs := rfl
@[simp] theorem setCtx_cqWait (d k : Nat) (x : CtxSt) : (setCtx s d k x).cqWait = s.cqWait := rfl
@[simp] theorem setCtx_cqSeq (d k : Nat) (x : CtxSt) : (setCtx s d k x).cqSeq = s.cqSeq := rfl
@[simp] theorem setCtx_assays (d k : Nat) (x : CtxSt) : (setCtx s d k x).assays = s.assays := rfl
@[simp] theorem setCtx_therms (d k : Nat) (x : CtxSt) : (setCtx s d k x).therms = s.therms := rfl
@[simp] theorem setCtx_lamps (d k : Nat) (x : CtxSt) : (setCtx s d k x).lamps = s.lamps := rfl
@[simp] theorem setCtx_mboxes (d k : Nat) (x : CtxSt) : (setCtx s d k x).mboxes = s.mboxes := rfl
@[simp] theorem setCtx_fws (d k : Nat) (x : CtxSt) : (setCtx s d k x).fws = s.fws := rfl
@[simp] theorem setCtx_tsync (d k : Nat) (x : CtxSt) : (setCtx s d k x).tsync = s.tsync := rfl
@[simp] theorem setCtx_burims (d k : Nat) (x : CtxSt) : (setCtx s d k x).burims = s.burims := rfl
@[simp] theorem setCtx_hops (d k : Nat) (x : CtxSt) : (setCtx s d k x).hops = s.hops := rfl
@[simp] theorem setCtx_dies (d k : Nat) (x : CtxSt) : (setCtx s d k x).dies = s.dies := rfl
@[simp] theorem setCtx_pkg (d k : Nat) (x : CtxSt) : (setCtx s d k x).pkg = s.pkg := rfl
@[simp] theorem setCtx_pcie (d k : Nat) (x : CtxSt) : (setCtx s d k x).pcie = s.pcie := rfl
@[simp] theorem setCtx_resp (d k : Nat) (x : CtxSt) : (setCtx s d k x).resp = s.resp := rfl
@[simp] theorem setCtx_out (d k : Nat) (x : CtxSt) : (setCtx s d k x).out = s.out := rfl
@[simp] theorem setPort_pending (d p : Nat) (x : PortSt) : (setPort s d p x).pending = s.pending := rfl
@[simp] theorem setPort_clock (d p : Nat) (x : PortSt) : (setPort s d p x).clock = s.clock := rfl
@[simp] theorem setPort_free (d p : Nat) (x : PortSt) : (setPort s d p x).free = s.free := rfl
@[simp] theorem setPort_part (d p : Nat) (x : PortSt) : (setPort s d p x).part = s.part := rfl
@[simp] theorem setPort_regs (d p : Nat) (x : PortSt) : (setPort s d p x).regs = s.regs := rfl
@[simp] theorem setPort_shad (d p : Nat) (x : PortSt) : (setPort s d p x).shad = s.shad := rfl
@[simp] theorem setPort_gos (d p : Nat) (x : PortSt) : (setPort s d p x).gos = s.gos := rfl
@[simp] theorem setPort_hold (d p : Nat) (x : PortSt) : (setPort s d p x).hold = s.hold := rfl
@[simp] theorem setPort_ticks (d p : Nat) (x : PortSt) : (setPort s d p x).ticks = s.ticks := rfl
@[simp] theorem setPort_caps (d p : Nat) (x : PortSt) : (setPort s d p x).caps = s.caps := rfl
@[simp] theorem setPort_fences (d p : Nat) (x : PortSt) : (setPort s d p x).fences = s.fences := rfl
@[simp] theorem setPort_mem (d p : Nat) (x : PortSt) : (setPort s d p x).mem = s.mem := rfl
@[simp] theorem setPort_ecc (d p : Nat) (x : PortSt) : (setPort s d p x).ecc = s.ecc := rfl
@[simp] theorem setPort_ret (d p : Nat) (x : PortSt) : (setPort s d p x).ret = s.ret := rfl
@[simp] theorem setPort_retEcc (d p : Nat) (x : PortSt) : (setPort s d p x).retEcc = s.retEcc := rfl
@[simp] theorem setPort_chutes (d p : Nat) (x : PortSt) : (setPort s d p x).chutes = s.chutes := rfl
@[simp] theorem setPort_ctxs (d p : Nat) (x : PortSt) : (setPort s d p x).ctxs = s.ctxs := rfl
@[simp] theorem setPort_encs (d p : Nat) (x : PortSt) : (setPort s d p x).encs = s.encs := rfl
@[simp] theorem setPort_pds (d p : Nat) (x : PortSt) : (setPort s d p x).pds = s.pds := rfl
@[simp] theorem setPort_seamQ (d p : Nat) (x : PortSt) : (setPort s d p x).seamQ = s.seamQ := rfl
@[simp] theorem setPort_echos (d p : Nat) (x : PortSt) : (setPort s d p x).echos = s.echos := rfl
@[simp] theorem setPort_mems (d p : Nat) (x : PortSt) : (setPort s d p x).mems = s.mems := rfl
@[simp] theorem setPort_msgs (d p : Nat) (x : PortSt) : (setPort s d p x).msgs = s.msgs := rfl
@[simp] theorem setPort_axes (d p : Nat) (x : PortSt) : (setPort s d p x).axes = s.axes := rfl
@[simp] theorem setPort_hoists (d p : Nat) (x : PortSt) : (setPort s d p x).hoists = s.hoists := rfl
@[simp] theorem setPort_served (d p : Nat) (x : PortSt) : (setPort s d p x).served = s.served := rfl
@[simp] theorem setPort_trigs (d p : Nat) (x : PortSt) : (setPort s d p x).trigs = s.trigs := rfl
@[simp] theorem setPort_tmrs (d p : Nat) (x : PortSt) : (setPort s d p x).tmrs = s.tmrs := rfl
@[simp] theorem setPort_cqWait (d p : Nat) (x : PortSt) : (setPort s d p x).cqWait = s.cqWait := rfl
@[simp] theorem setPort_cqSeq (d p : Nat) (x : PortSt) : (setPort s d p x).cqSeq = s.cqSeq := rfl
@[simp] theorem setPort_assays (d p : Nat) (x : PortSt) : (setPort s d p x).assays = s.assays := rfl
@[simp] theorem setPort_therms (d p : Nat) (x : PortSt) : (setPort s d p x).therms = s.therms := rfl
@[simp] theorem setPort_lamps (d p : Nat) (x : PortSt) : (setPort s d p x).lamps = s.lamps := rfl
@[simp] theorem setPort_mboxes (d p : Nat) (x : PortSt) : (setPort s d p x).mboxes = s.mboxes := rfl
@[simp] theorem setPort_fws (d p : Nat) (x : PortSt) : (setPort s d p x).fws = s.fws := rfl
@[simp] theorem setPort_tsync (d p : Nat) (x : PortSt) : (setPort s d p x).tsync = s.tsync := rfl
@[simp] theorem setPort_burims (d p : Nat) (x : PortSt) : (setPort s d p x).burims = s.burims := rfl
@[simp] theorem setPort_hops (d p : Nat) (x : PortSt) : (setPort s d p x).hops = s.hops := rfl
@[simp] theorem setPort_dies (d p : Nat) (x : PortSt) : (setPort s d p x).dies = s.dies := rfl
@[simp] theorem setPort_pkg (d p : Nat) (x : PortSt) : (setPort s d p x).pkg = s.pkg := rfl
@[simp] theorem setPort_pcie (d p : Nat) (x : PortSt) : (setPort s d p x).pcie = s.pcie := rfl
@[simp] theorem setPort_resp (d p : Nat) (x : PortSt) : (setPort s d p x).resp = s.resp := rfl
@[simp] theorem setPort_out (d p : Nat) (x : PortSt) : (setPort s d p x).out = s.out := rfl
@[simp] theorem setEnc_pending (d c : Nat) (x : EncSt) : (setEnc s d c x).pending = s.pending := rfl
@[simp] theorem setEnc_clock (d c : Nat) (x : EncSt) : (setEnc s d c x).clock = s.clock := rfl
@[simp] theorem setEnc_free (d c : Nat) (x : EncSt) : (setEnc s d c x).free = s.free := rfl
@[simp] theorem setEnc_part (d c : Nat) (x : EncSt) : (setEnc s d c x).part = s.part := rfl
@[simp] theorem setEnc_regs (d c : Nat) (x : EncSt) : (setEnc s d c x).regs = s.regs := rfl
@[simp] theorem setEnc_shad (d c : Nat) (x : EncSt) : (setEnc s d c x).shad = s.shad := rfl
@[simp] theorem setEnc_gos (d c : Nat) (x : EncSt) : (setEnc s d c x).gos = s.gos := rfl
@[simp] theorem setEnc_hold (d c : Nat) (x : EncSt) : (setEnc s d c x).hold = s.hold := rfl
@[simp] theorem setEnc_ticks (d c : Nat) (x : EncSt) : (setEnc s d c x).ticks = s.ticks := rfl
@[simp] theorem setEnc_caps (d c : Nat) (x : EncSt) : (setEnc s d c x).caps = s.caps := rfl
@[simp] theorem setEnc_fences (d c : Nat) (x : EncSt) : (setEnc s d c x).fences = s.fences := rfl
@[simp] theorem setEnc_mem (d c : Nat) (x : EncSt) : (setEnc s d c x).mem = s.mem := rfl
@[simp] theorem setEnc_ecc (d c : Nat) (x : EncSt) : (setEnc s d c x).ecc = s.ecc := rfl
@[simp] theorem setEnc_ret (d c : Nat) (x : EncSt) : (setEnc s d c x).ret = s.ret := rfl
@[simp] theorem setEnc_retEcc (d c : Nat) (x : EncSt) : (setEnc s d c x).retEcc = s.retEcc := rfl
@[simp] theorem setEnc_chutes (d c : Nat) (x : EncSt) : (setEnc s d c x).chutes = s.chutes := rfl
@[simp] theorem setEnc_ctxs (d c : Nat) (x : EncSt) : (setEnc s d c x).ctxs = s.ctxs := rfl
@[simp] theorem setEnc_ports (d c : Nat) (x : EncSt) : (setEnc s d c x).ports = s.ports := rfl
@[simp] theorem setEnc_pds (d c : Nat) (x : EncSt) : (setEnc s d c x).pds = s.pds := rfl
@[simp] theorem setEnc_seamQ (d c : Nat) (x : EncSt) : (setEnc s d c x).seamQ = s.seamQ := rfl
@[simp] theorem setEnc_echos (d c : Nat) (x : EncSt) : (setEnc s d c x).echos = s.echos := rfl
@[simp] theorem setEnc_mems (d c : Nat) (x : EncSt) : (setEnc s d c x).mems = s.mems := rfl
@[simp] theorem setEnc_msgs (d c : Nat) (x : EncSt) : (setEnc s d c x).msgs = s.msgs := rfl
@[simp] theorem setEnc_axes (d c : Nat) (x : EncSt) : (setEnc s d c x).axes = s.axes := rfl
@[simp] theorem setEnc_hoists (d c : Nat) (x : EncSt) : (setEnc s d c x).hoists = s.hoists := rfl
@[simp] theorem setEnc_served (d c : Nat) (x : EncSt) : (setEnc s d c x).served = s.served := rfl
@[simp] theorem setEnc_trigs (d c : Nat) (x : EncSt) : (setEnc s d c x).trigs = s.trigs := rfl
@[simp] theorem setEnc_tmrs (d c : Nat) (x : EncSt) : (setEnc s d c x).tmrs = s.tmrs := rfl
@[simp] theorem setEnc_cqWait (d c : Nat) (x : EncSt) : (setEnc s d c x).cqWait = s.cqWait := rfl
@[simp] theorem setEnc_cqSeq (d c : Nat) (x : EncSt) : (setEnc s d c x).cqSeq = s.cqSeq := rfl
@[simp] theorem setEnc_assays (d c : Nat) (x : EncSt) : (setEnc s d c x).assays = s.assays := rfl
@[simp] theorem setEnc_therms (d c : Nat) (x : EncSt) : (setEnc s d c x).therms = s.therms := rfl
@[simp] theorem setEnc_lamps (d c : Nat) (x : EncSt) : (setEnc s d c x).lamps = s.lamps := rfl
@[simp] theorem setEnc_mboxes (d c : Nat) (x : EncSt) : (setEnc s d c x).mboxes = s.mboxes := rfl
@[simp] theorem setEnc_fws (d c : Nat) (x : EncSt) : (setEnc s d c x).fws = s.fws := rfl
@[simp] theorem setEnc_tsync (d c : Nat) (x : EncSt) : (setEnc s d c x).tsync = s.tsync := rfl
@[simp] theorem setEnc_burims (d c : Nat) (x : EncSt) : (setEnc s d c x).burims = s.burims := rfl
@[simp] theorem setEnc_hops (d c : Nat) (x : EncSt) : (setEnc s d c x).hops = s.hops := rfl
@[simp] theorem setEnc_dies (d c : Nat) (x : EncSt) : (setEnc s d c x).dies = s.dies := rfl
@[simp] theorem setEnc_pkg (d c : Nat) (x : EncSt) : (setEnc s d c x).pkg = s.pkg := rfl
@[simp] theorem setEnc_pcie (d c : Nat) (x : EncSt) : (setEnc s d c x).pcie = s.pcie := rfl
@[simp] theorem setEnc_resp (d c : Nat) (x : EncSt) : (setEnc s d c x).resp = s.resp := rfl
@[simp] theorem setEnc_out (d c : Nat) (x : EncSt) : (setEnc s d c x).out = s.out := rfl
@[simp] theorem setPdIn_pending (d n : Nat) (x : PdSt) : (setPdIn s d n x).pending = s.pending := rfl
@[simp] theorem setPdIn_clock (d n : Nat) (x : PdSt) : (setPdIn s d n x).clock = s.clock := rfl
@[simp] theorem setPdIn_free (d n : Nat) (x : PdSt) : (setPdIn s d n x).free = s.free := rfl
@[simp] theorem setPdIn_part (d n : Nat) (x : PdSt) : (setPdIn s d n x).part = s.part := rfl
@[simp] theorem setPdIn_regs (d n : Nat) (x : PdSt) : (setPdIn s d n x).regs = s.regs := rfl
@[simp] theorem setPdIn_shad (d n : Nat) (x : PdSt) : (setPdIn s d n x).shad = s.shad := rfl
@[simp] theorem setPdIn_gos (d n : Nat) (x : PdSt) : (setPdIn s d n x).gos = s.gos := rfl
@[simp] theorem setPdIn_hold (d n : Nat) (x : PdSt) : (setPdIn s d n x).hold = s.hold := rfl
@[simp] theorem setPdIn_ticks (d n : Nat) (x : PdSt) : (setPdIn s d n x).ticks = s.ticks := rfl
@[simp] theorem setPdIn_caps (d n : Nat) (x : PdSt) : (setPdIn s d n x).caps = s.caps := rfl
@[simp] theorem setPdIn_fences (d n : Nat) (x : PdSt) : (setPdIn s d n x).fences = s.fences := rfl
@[simp] theorem setPdIn_mem (d n : Nat) (x : PdSt) : (setPdIn s d n x).mem = s.mem := rfl
@[simp] theorem setPdIn_ecc (d n : Nat) (x : PdSt) : (setPdIn s d n x).ecc = s.ecc := rfl
@[simp] theorem setPdIn_ret (d n : Nat) (x : PdSt) : (setPdIn s d n x).ret = s.ret := rfl
@[simp] theorem setPdIn_retEcc (d n : Nat) (x : PdSt) : (setPdIn s d n x).retEcc = s.retEcc := rfl
@[simp] theorem setPdIn_chutes (d n : Nat) (x : PdSt) : (setPdIn s d n x).chutes = s.chutes := rfl
@[simp] theorem setPdIn_ctxs (d n : Nat) (x : PdSt) : (setPdIn s d n x).ctxs = s.ctxs := rfl
@[simp] theorem setPdIn_ports (d n : Nat) (x : PdSt) : (setPdIn s d n x).ports = s.ports := rfl
@[simp] theorem setPdIn_encs (d n : Nat) (x : PdSt) : (setPdIn s d n x).encs = s.encs := rfl
@[simp] theorem setPdIn_seamQ (d n : Nat) (x : PdSt) : (setPdIn s d n x).seamQ = s.seamQ := rfl
@[simp] theorem setPdIn_echos (d n : Nat) (x : PdSt) : (setPdIn s d n x).echos = s.echos := rfl
@[simp] theorem setPdIn_mems (d n : Nat) (x : PdSt) : (setPdIn s d n x).mems = s.mems := rfl
@[simp] theorem setPdIn_msgs (d n : Nat) (x : PdSt) : (setPdIn s d n x).msgs = s.msgs := rfl
@[simp] theorem setPdIn_axes (d n : Nat) (x : PdSt) : (setPdIn s d n x).axes = s.axes := rfl
@[simp] theorem setPdIn_hoists (d n : Nat) (x : PdSt) : (setPdIn s d n x).hoists = s.hoists := rfl
@[simp] theorem setPdIn_served (d n : Nat) (x : PdSt) : (setPdIn s d n x).served = s.served := rfl
@[simp] theorem setPdIn_trigs (d n : Nat) (x : PdSt) : (setPdIn s d n x).trigs = s.trigs := rfl
@[simp] theorem setPdIn_tmrs (d n : Nat) (x : PdSt) : (setPdIn s d n x).tmrs = s.tmrs := rfl
@[simp] theorem setPdIn_cqWait (d n : Nat) (x : PdSt) : (setPdIn s d n x).cqWait = s.cqWait := rfl
@[simp] theorem setPdIn_cqSeq (d n : Nat) (x : PdSt) : (setPdIn s d n x).cqSeq = s.cqSeq := rfl
@[simp] theorem setPdIn_assays (d n : Nat) (x : PdSt) : (setPdIn s d n x).assays = s.assays := rfl
@[simp] theorem setPdIn_therms (d n : Nat) (x : PdSt) : (setPdIn s d n x).therms = s.therms := rfl
@[simp] theorem setPdIn_lamps (d n : Nat) (x : PdSt) : (setPdIn s d n x).lamps = s.lamps := rfl
@[simp] theorem setPdIn_mboxes (d n : Nat) (x : PdSt) : (setPdIn s d n x).mboxes = s.mboxes := rfl
@[simp] theorem setPdIn_fws (d n : Nat) (x : PdSt) : (setPdIn s d n x).fws = s.fws := rfl
@[simp] theorem setPdIn_tsync (d n : Nat) (x : PdSt) : (setPdIn s d n x).tsync = s.tsync := rfl
@[simp] theorem setPdIn_burims (d n : Nat) (x : PdSt) : (setPdIn s d n x).burims = s.burims := rfl
@[simp] theorem setPdIn_hops (d n : Nat) (x : PdSt) : (setPdIn s d n x).hops = s.hops := rfl
@[simp] theorem setPdIn_dies (d n : Nat) (x : PdSt) : (setPdIn s d n x).dies = s.dies := rfl
@[simp] theorem setPdIn_pkg (d n : Nat) (x : PdSt) : (setPdIn s d n x).pkg = s.pkg := rfl
@[simp] theorem setPdIn_pcie (d n : Nat) (x : PdSt) : (setPdIn s d n x).pcie = s.pcie := rfl
@[simp] theorem setPdIn_resp (d n : Nat) (x : PdSt) : (setPdIn s d n x).resp = s.resp := rfl
@[simp] theorem setPdIn_out (d n : Nat) (x : PdSt) : (setPdIn s d n x).out = s.out := rfl
@[simp] theorem setEcho_pending (d : Nat) (x : EchoSt) : (setEcho s d x).pending = s.pending := rfl
@[simp] theorem setEcho_clock (d : Nat) (x : EchoSt) : (setEcho s d x).clock = s.clock := rfl
@[simp] theorem setEcho_free (d : Nat) (x : EchoSt) : (setEcho s d x).free = s.free := rfl
@[simp] theorem setEcho_part (d : Nat) (x : EchoSt) : (setEcho s d x).part = s.part := rfl
@[simp] theorem setEcho_regs (d : Nat) (x : EchoSt) : (setEcho s d x).regs = s.regs := rfl
@[simp] theorem setEcho_shad (d : Nat) (x : EchoSt) : (setEcho s d x).shad = s.shad := rfl
@[simp] theorem setEcho_gos (d : Nat) (x : EchoSt) : (setEcho s d x).gos = s.gos := rfl
@[simp] theorem setEcho_hold (d : Nat) (x : EchoSt) : (setEcho s d x).hold = s.hold := rfl
@[simp] theorem setEcho_ticks (d : Nat) (x : EchoSt) : (setEcho s d x).ticks = s.ticks := rfl
@[simp] theorem setEcho_caps (d : Nat) (x : EchoSt) : (setEcho s d x).caps = s.caps := rfl
@[simp] theorem setEcho_fences (d : Nat) (x : EchoSt) : (setEcho s d x).fences = s.fences := rfl
@[simp] theorem setEcho_mem (d : Nat) (x : EchoSt) : (setEcho s d x).mem = s.mem := rfl
@[simp] theorem setEcho_ecc (d : Nat) (x : EchoSt) : (setEcho s d x).ecc = s.ecc := rfl
@[simp] theorem setEcho_ret (d : Nat) (x : EchoSt) : (setEcho s d x).ret = s.ret := rfl
@[simp] theorem setEcho_retEcc (d : Nat) (x : EchoSt) : (setEcho s d x).retEcc = s.retEcc := rfl
@[simp] theorem setEcho_chutes (d : Nat) (x : EchoSt) : (setEcho s d x).chutes = s.chutes := rfl
@[simp] theorem setEcho_ctxs (d : Nat) (x : EchoSt) : (setEcho s d x).ctxs = s.ctxs := rfl
@[simp] theorem setEcho_ports (d : Nat) (x : EchoSt) : (setEcho s d x).ports = s.ports := rfl
@[simp] theorem setEcho_encs (d : Nat) (x : EchoSt) : (setEcho s d x).encs = s.encs := rfl
@[simp] theorem setEcho_pds (d : Nat) (x : EchoSt) : (setEcho s d x).pds = s.pds := rfl
@[simp] theorem setEcho_seamQ (d : Nat) (x : EchoSt) : (setEcho s d x).seamQ = s.seamQ := rfl
@[simp] theorem setEcho_mems (d : Nat) (x : EchoSt) : (setEcho s d x).mems = s.mems := rfl
@[simp] theorem setEcho_msgs (d : Nat) (x : EchoSt) : (setEcho s d x).msgs = s.msgs := rfl
@[simp] theorem setEcho_axes (d : Nat) (x : EchoSt) : (setEcho s d x).axes = s.axes := rfl
@[simp] theorem setEcho_hoists (d : Nat) (x : EchoSt) : (setEcho s d x).hoists = s.hoists := rfl
@[simp] theorem setEcho_served (d : Nat) (x : EchoSt) : (setEcho s d x).served = s.served := rfl
@[simp] theorem setEcho_trigs (d : Nat) (x : EchoSt) : (setEcho s d x).trigs = s.trigs := rfl
@[simp] theorem setEcho_tmrs (d : Nat) (x : EchoSt) : (setEcho s d x).tmrs = s.tmrs := rfl
@[simp] theorem setEcho_cqWait (d : Nat) (x : EchoSt) : (setEcho s d x).cqWait = s.cqWait := rfl
@[simp] theorem setEcho_cqSeq (d : Nat) (x : EchoSt) : (setEcho s d x).cqSeq = s.cqSeq := rfl
@[simp] theorem setEcho_assays (d : Nat) (x : EchoSt) : (setEcho s d x).assays = s.assays := rfl
@[simp] theorem setEcho_therms (d : Nat) (x : EchoSt) : (setEcho s d x).therms = s.therms := rfl
@[simp] theorem setEcho_lamps (d : Nat) (x : EchoSt) : (setEcho s d x).lamps = s.lamps := rfl
@[simp] theorem setEcho_mboxes (d : Nat) (x : EchoSt) : (setEcho s d x).mboxes = s.mboxes := rfl
@[simp] theorem setEcho_fws (d : Nat) (x : EchoSt) : (setEcho s d x).fws = s.fws := rfl
@[simp] theorem setEcho_tsync (d : Nat) (x : EchoSt) : (setEcho s d x).tsync = s.tsync := rfl
@[simp] theorem setEcho_burims (d : Nat) (x : EchoSt) : (setEcho s d x).burims = s.burims := rfl
@[simp] theorem setEcho_hops (d : Nat) (x : EchoSt) : (setEcho s d x).hops = s.hops := rfl
@[simp] theorem setEcho_dies (d : Nat) (x : EchoSt) : (setEcho s d x).dies = s.dies := rfl
@[simp] theorem setEcho_pkg (d : Nat) (x : EchoSt) : (setEcho s d x).pkg = s.pkg := rfl
@[simp] theorem setEcho_pcie (d : Nat) (x : EchoSt) : (setEcho s d x).pcie = s.pcie := rfl
@[simp] theorem setEcho_resp (d : Nat) (x : EchoSt) : (setEcho s d x).resp = s.resp := rfl
@[simp] theorem setEcho_out (d : Nat) (x : EchoSt) : (setEcho s d x).out = s.out := rfl
@[simp] theorem setMemSt_pending (d : Nat) (x : MemSt) : (setMemSt s d x).pending = s.pending := rfl
@[simp] theorem setMemSt_clock (d : Nat) (x : MemSt) : (setMemSt s d x).clock = s.clock := rfl
@[simp] theorem setMemSt_free (d : Nat) (x : MemSt) : (setMemSt s d x).free = s.free := rfl
@[simp] theorem setMemSt_part (d : Nat) (x : MemSt) : (setMemSt s d x).part = s.part := rfl
@[simp] theorem setMemSt_regs (d : Nat) (x : MemSt) : (setMemSt s d x).regs = s.regs := rfl
@[simp] theorem setMemSt_shad (d : Nat) (x : MemSt) : (setMemSt s d x).shad = s.shad := rfl
@[simp] theorem setMemSt_gos (d : Nat) (x : MemSt) : (setMemSt s d x).gos = s.gos := rfl
@[simp] theorem setMemSt_hold (d : Nat) (x : MemSt) : (setMemSt s d x).hold = s.hold := rfl
@[simp] theorem setMemSt_ticks (d : Nat) (x : MemSt) : (setMemSt s d x).ticks = s.ticks := rfl
@[simp] theorem setMemSt_caps (d : Nat) (x : MemSt) : (setMemSt s d x).caps = s.caps := rfl
@[simp] theorem setMemSt_fences (d : Nat) (x : MemSt) : (setMemSt s d x).fences = s.fences := rfl
@[simp] theorem setMemSt_mem (d : Nat) (x : MemSt) : (setMemSt s d x).mem = s.mem := rfl
@[simp] theorem setMemSt_ecc (d : Nat) (x : MemSt) : (setMemSt s d x).ecc = s.ecc := rfl
@[simp] theorem setMemSt_ret (d : Nat) (x : MemSt) : (setMemSt s d x).ret = s.ret := rfl
@[simp] theorem setMemSt_retEcc (d : Nat) (x : MemSt) : (setMemSt s d x).retEcc = s.retEcc := rfl
@[simp] theorem setMemSt_chutes (d : Nat) (x : MemSt) : (setMemSt s d x).chutes = s.chutes := rfl
@[simp] theorem setMemSt_ctxs (d : Nat) (x : MemSt) : (setMemSt s d x).ctxs = s.ctxs := rfl
@[simp] theorem setMemSt_ports (d : Nat) (x : MemSt) : (setMemSt s d x).ports = s.ports := rfl
@[simp] theorem setMemSt_encs (d : Nat) (x : MemSt) : (setMemSt s d x).encs = s.encs := rfl
@[simp] theorem setMemSt_pds (d : Nat) (x : MemSt) : (setMemSt s d x).pds = s.pds := rfl
@[simp] theorem setMemSt_seamQ (d : Nat) (x : MemSt) : (setMemSt s d x).seamQ = s.seamQ := rfl
@[simp] theorem setMemSt_echos (d : Nat) (x : MemSt) : (setMemSt s d x).echos = s.echos := rfl
@[simp] theorem setMemSt_msgs (d : Nat) (x : MemSt) : (setMemSt s d x).msgs = s.msgs := rfl
@[simp] theorem setMemSt_axes (d : Nat) (x : MemSt) : (setMemSt s d x).axes = s.axes := rfl
@[simp] theorem setMemSt_hoists (d : Nat) (x : MemSt) : (setMemSt s d x).hoists = s.hoists := rfl
@[simp] theorem setMemSt_served (d : Nat) (x : MemSt) : (setMemSt s d x).served = s.served := rfl
@[simp] theorem setMemSt_trigs (d : Nat) (x : MemSt) : (setMemSt s d x).trigs = s.trigs := rfl
@[simp] theorem setMemSt_tmrs (d : Nat) (x : MemSt) : (setMemSt s d x).tmrs = s.tmrs := rfl
@[simp] theorem setMemSt_cqWait (d : Nat) (x : MemSt) : (setMemSt s d x).cqWait = s.cqWait := rfl
@[simp] theorem setMemSt_cqSeq (d : Nat) (x : MemSt) : (setMemSt s d x).cqSeq = s.cqSeq := rfl
@[simp] theorem setMemSt_assays (d : Nat) (x : MemSt) : (setMemSt s d x).assays = s.assays := rfl
@[simp] theorem setMemSt_therms (d : Nat) (x : MemSt) : (setMemSt s d x).therms = s.therms := rfl
@[simp] theorem setMemSt_lamps (d : Nat) (x : MemSt) : (setMemSt s d x).lamps = s.lamps := rfl
@[simp] theorem setMemSt_mboxes (d : Nat) (x : MemSt) : (setMemSt s d x).mboxes = s.mboxes := rfl
@[simp] theorem setMemSt_fws (d : Nat) (x : MemSt) : (setMemSt s d x).fws = s.fws := rfl
@[simp] theorem setMemSt_tsync (d : Nat) (x : MemSt) : (setMemSt s d x).tsync = s.tsync := rfl
@[simp] theorem setMemSt_burims (d : Nat) (x : MemSt) : (setMemSt s d x).burims = s.burims := rfl
@[simp] theorem setMemSt_hops (d : Nat) (x : MemSt) : (setMemSt s d x).hops = s.hops := rfl
@[simp] theorem setMemSt_dies (d : Nat) (x : MemSt) : (setMemSt s d x).dies = s.dies := rfl
@[simp] theorem setMemSt_pkg (d : Nat) (x : MemSt) : (setMemSt s d x).pkg = s.pkg := rfl
@[simp] theorem setMemSt_pcie (d : Nat) (x : MemSt) : (setMemSt s d x).pcie = s.pcie := rfl
@[simp] theorem setMemSt_resp (d : Nat) (x : MemSt) : (setMemSt s d x).resp = s.resp := rfl
@[simp] theorem setMemSt_out (d : Nat) (x : MemSt) : (setMemSt s d x).out = s.out := rfl
@[simp] theorem setFenceSt_pending (p : Pg) (x : FenceSt) : (setFenceSt s p x).pending = s.pending := rfl
@[simp] theorem setFenceSt_clock (p : Pg) (x : FenceSt) : (setFenceSt s p x).clock = s.clock := rfl
@[simp] theorem setFenceSt_free (p : Pg) (x : FenceSt) : (setFenceSt s p x).free = s.free := rfl
@[simp] theorem setFenceSt_part (p : Pg) (x : FenceSt) : (setFenceSt s p x).part = s.part := rfl
@[simp] theorem setFenceSt_regs (p : Pg) (x : FenceSt) : (setFenceSt s p x).regs = s.regs := rfl
@[simp] theorem setFenceSt_shad (p : Pg) (x : FenceSt) : (setFenceSt s p x).shad = s.shad := rfl
@[simp] theorem setFenceSt_gos (p : Pg) (x : FenceSt) : (setFenceSt s p x).gos = s.gos := rfl
@[simp] theorem setFenceSt_hold (p : Pg) (x : FenceSt) : (setFenceSt s p x).hold = s.hold := rfl
@[simp] theorem setFenceSt_ticks (p : Pg) (x : FenceSt) : (setFenceSt s p x).ticks = s.ticks := rfl
@[simp] theorem setFenceSt_caps (p : Pg) (x : FenceSt) : (setFenceSt s p x).caps = s.caps := rfl
@[simp] theorem setFenceSt_mem (p : Pg) (x : FenceSt) : (setFenceSt s p x).mem = s.mem := rfl
@[simp] theorem setFenceSt_ecc (p : Pg) (x : FenceSt) : (setFenceSt s p x).ecc = s.ecc := rfl
@[simp] theorem setFenceSt_ret (p : Pg) (x : FenceSt) : (setFenceSt s p x).ret = s.ret := rfl
@[simp] theorem setFenceSt_retEcc (p : Pg) (x : FenceSt) : (setFenceSt s p x).retEcc = s.retEcc := rfl
@[simp] theorem setFenceSt_chutes (p : Pg) (x : FenceSt) : (setFenceSt s p x).chutes = s.chutes := rfl
@[simp] theorem setFenceSt_ctxs (p : Pg) (x : FenceSt) : (setFenceSt s p x).ctxs = s.ctxs := rfl
@[simp] theorem setFenceSt_ports (p : Pg) (x : FenceSt) : (setFenceSt s p x).ports = s.ports := rfl
@[simp] theorem setFenceSt_encs (p : Pg) (x : FenceSt) : (setFenceSt s p x).encs = s.encs := rfl
@[simp] theorem setFenceSt_pds (p : Pg) (x : FenceSt) : (setFenceSt s p x).pds = s.pds := rfl
@[simp] theorem setFenceSt_seamQ (p : Pg) (x : FenceSt) : (setFenceSt s p x).seamQ = s.seamQ := rfl
@[simp] theorem setFenceSt_echos (p : Pg) (x : FenceSt) : (setFenceSt s p x).echos = s.echos := rfl
@[simp] theorem setFenceSt_mems (p : Pg) (x : FenceSt) : (setFenceSt s p x).mems = s.mems := rfl
@[simp] theorem setFenceSt_msgs (p : Pg) (x : FenceSt) : (setFenceSt s p x).msgs = s.msgs := rfl
@[simp] theorem setFenceSt_axes (p : Pg) (x : FenceSt) : (setFenceSt s p x).axes = s.axes := rfl
@[simp] theorem setFenceSt_hoists (p : Pg) (x : FenceSt) : (setFenceSt s p x).hoists = s.hoists := rfl
@[simp] theorem setFenceSt_served (p : Pg) (x : FenceSt) : (setFenceSt s p x).served = s.served := rfl
@[simp] theorem setFenceSt_trigs (p : Pg) (x : FenceSt) : (setFenceSt s p x).trigs = s.trigs := rfl
@[simp] theorem setFenceSt_tmrs (p : Pg) (x : FenceSt) : (setFenceSt s p x).tmrs = s.tmrs := rfl
@[simp] theorem setFenceSt_cqWait (p : Pg) (x : FenceSt) : (setFenceSt s p x).cqWait = s.cqWait := rfl
@[simp] theorem setFenceSt_cqSeq (p : Pg) (x : FenceSt) : (setFenceSt s p x).cqSeq = s.cqSeq := rfl
@[simp] theorem setFenceSt_assays (p : Pg) (x : FenceSt) : (setFenceSt s p x).assays = s.assays := rfl
@[simp] theorem setFenceSt_therms (p : Pg) (x : FenceSt) : (setFenceSt s p x).therms = s.therms := rfl
@[simp] theorem setFenceSt_lamps (p : Pg) (x : FenceSt) : (setFenceSt s p x).lamps = s.lamps := rfl
@[simp] theorem setFenceSt_mboxes (p : Pg) (x : FenceSt) : (setFenceSt s p x).mboxes = s.mboxes := rfl
@[simp] theorem setFenceSt_fws (p : Pg) (x : FenceSt) : (setFenceSt s p x).fws = s.fws := rfl
@[simp] theorem setFenceSt_tsync (p : Pg) (x : FenceSt) : (setFenceSt s p x).tsync = s.tsync := rfl
@[simp] theorem setFenceSt_burims (p : Pg) (x : FenceSt) : (setFenceSt s p x).burims = s.burims := rfl
@[simp] theorem setFenceSt_hops (p : Pg) (x : FenceSt) : (setFenceSt s p x).hops = s.hops := rfl
@[simp] theorem setFenceSt_dies (p : Pg) (x : FenceSt) : (setFenceSt s p x).dies = s.dies := rfl
@[simp] theorem setFenceSt_pkg (p : Pg) (x : FenceSt) : (setFenceSt s p x).pkg = s.pkg := rfl
@[simp] theorem setFenceSt_pcie (p : Pg) (x : FenceSt) : (setFenceSt s p x).pcie = s.pcie := rfl
@[simp] theorem setFenceSt_resp (p : Pg) (x : FenceSt) : (setFenceSt s p x).resp = s.resp := rfl
@[simp] theorem setFenceSt_out (p : Pg) (x : FenceSt) : (setFenceSt s p x).out = s.out := rfl
@[simp] theorem setAxis_pending (d a : Nat) (x : AxisSt) : (setAxis s d a x).pending = s.pending := rfl
@[simp] theorem setAxis_clock (d a : Nat) (x : AxisSt) : (setAxis s d a x).clock = s.clock := rfl
@[simp] theorem setAxis_free (d a : Nat) (x : AxisSt) : (setAxis s d a x).free = s.free := rfl
@[simp] theorem setAxis_part (d a : Nat) (x : AxisSt) : (setAxis s d a x).part = s.part := rfl
@[simp] theorem setAxis_regs (d a : Nat) (x : AxisSt) : (setAxis s d a x).regs = s.regs := rfl
@[simp] theorem setAxis_shad (d a : Nat) (x : AxisSt) : (setAxis s d a x).shad = s.shad := rfl
@[simp] theorem setAxis_gos (d a : Nat) (x : AxisSt) : (setAxis s d a x).gos = s.gos := rfl
@[simp] theorem setAxis_hold (d a : Nat) (x : AxisSt) : (setAxis s d a x).hold = s.hold := rfl
@[simp] theorem setAxis_ticks (d a : Nat) (x : AxisSt) : (setAxis s d a x).ticks = s.ticks := rfl
@[simp] theorem setAxis_caps (d a : Nat) (x : AxisSt) : (setAxis s d a x).caps = s.caps := rfl
@[simp] theorem setAxis_fences (d a : Nat) (x : AxisSt) : (setAxis s d a x).fences = s.fences := rfl
@[simp] theorem setAxis_mem (d a : Nat) (x : AxisSt) : (setAxis s d a x).mem = s.mem := rfl
@[simp] theorem setAxis_ecc (d a : Nat) (x : AxisSt) : (setAxis s d a x).ecc = s.ecc := rfl
@[simp] theorem setAxis_ret (d a : Nat) (x : AxisSt) : (setAxis s d a x).ret = s.ret := rfl
@[simp] theorem setAxis_retEcc (d a : Nat) (x : AxisSt) : (setAxis s d a x).retEcc = s.retEcc := rfl
@[simp] theorem setAxis_chutes (d a : Nat) (x : AxisSt) : (setAxis s d a x).chutes = s.chutes := rfl
@[simp] theorem setAxis_ctxs (d a : Nat) (x : AxisSt) : (setAxis s d a x).ctxs = s.ctxs := rfl
@[simp] theorem setAxis_ports (d a : Nat) (x : AxisSt) : (setAxis s d a x).ports = s.ports := rfl
@[simp] theorem setAxis_encs (d a : Nat) (x : AxisSt) : (setAxis s d a x).encs = s.encs := rfl
@[simp] theorem setAxis_pds (d a : Nat) (x : AxisSt) : (setAxis s d a x).pds = s.pds := rfl
@[simp] theorem setAxis_seamQ (d a : Nat) (x : AxisSt) : (setAxis s d a x).seamQ = s.seamQ := rfl
@[simp] theorem setAxis_echos (d a : Nat) (x : AxisSt) : (setAxis s d a x).echos = s.echos := rfl
@[simp] theorem setAxis_mems (d a : Nat) (x : AxisSt) : (setAxis s d a x).mems = s.mems := rfl
@[simp] theorem setAxis_msgs (d a : Nat) (x : AxisSt) : (setAxis s d a x).msgs = s.msgs := rfl
@[simp] theorem setAxis_hoists (d a : Nat) (x : AxisSt) : (setAxis s d a x).hoists = s.hoists := rfl
@[simp] theorem setAxis_served (d a : Nat) (x : AxisSt) : (setAxis s d a x).served = s.served := rfl
@[simp] theorem setAxis_trigs (d a : Nat) (x : AxisSt) : (setAxis s d a x).trigs = s.trigs := rfl
@[simp] theorem setAxis_tmrs (d a : Nat) (x : AxisSt) : (setAxis s d a x).tmrs = s.tmrs := rfl
@[simp] theorem setAxis_cqWait (d a : Nat) (x : AxisSt) : (setAxis s d a x).cqWait = s.cqWait := rfl
@[simp] theorem setAxis_cqSeq (d a : Nat) (x : AxisSt) : (setAxis s d a x).cqSeq = s.cqSeq := rfl
@[simp] theorem setAxis_assays (d a : Nat) (x : AxisSt) : (setAxis s d a x).assays = s.assays := rfl
@[simp] theorem setAxis_therms (d a : Nat) (x : AxisSt) : (setAxis s d a x).therms = s.therms := rfl
@[simp] theorem setAxis_lamps (d a : Nat) (x : AxisSt) : (setAxis s d a x).lamps = s.lamps := rfl
@[simp] theorem setAxis_mboxes (d a : Nat) (x : AxisSt) : (setAxis s d a x).mboxes = s.mboxes := rfl
@[simp] theorem setAxis_fws (d a : Nat) (x : AxisSt) : (setAxis s d a x).fws = s.fws := rfl
@[simp] theorem setAxis_tsync (d a : Nat) (x : AxisSt) : (setAxis s d a x).tsync = s.tsync := rfl
@[simp] theorem setAxis_burims (d a : Nat) (x : AxisSt) : (setAxis s d a x).burims = s.burims := rfl
@[simp] theorem setAxis_hops (d a : Nat) (x : AxisSt) : (setAxis s d a x).hops = s.hops := rfl
@[simp] theorem setAxis_dies (d a : Nat) (x : AxisSt) : (setAxis s d a x).dies = s.dies := rfl
@[simp] theorem setAxis_pkg (d a : Nat) (x : AxisSt) : (setAxis s d a x).pkg = s.pkg := rfl
@[simp] theorem setAxis_pcie (d a : Nat) (x : AxisSt) : (setAxis s d a x).pcie = s.pcie := rfl
@[simp] theorem setAxis_resp (d a : Nat) (x : AxisSt) : (setAxis s d a x).resp = s.resp := rfl
@[simp] theorem setAxis_out (d a : Nat) (x : AxisSt) : (setAxis s d a x).out = s.out := rfl
@[simp] theorem setHoist_pending (d c : Nat) (x : HoistSt) : (setHoist s d c x).pending = s.pending := rfl
@[simp] theorem setHoist_clock (d c : Nat) (x : HoistSt) : (setHoist s d c x).clock = s.clock := rfl
@[simp] theorem setHoist_free (d c : Nat) (x : HoistSt) : (setHoist s d c x).free = s.free := rfl
@[simp] theorem setHoist_part (d c : Nat) (x : HoistSt) : (setHoist s d c x).part = s.part := rfl
@[simp] theorem setHoist_regs (d c : Nat) (x : HoistSt) : (setHoist s d c x).regs = s.regs := rfl
@[simp] theorem setHoist_shad (d c : Nat) (x : HoistSt) : (setHoist s d c x).shad = s.shad := rfl
@[simp] theorem setHoist_gos (d c : Nat) (x : HoistSt) : (setHoist s d c x).gos = s.gos := rfl
@[simp] theorem setHoist_hold (d c : Nat) (x : HoistSt) : (setHoist s d c x).hold = s.hold := rfl
@[simp] theorem setHoist_ticks (d c : Nat) (x : HoistSt) : (setHoist s d c x).ticks = s.ticks := rfl
@[simp] theorem setHoist_caps (d c : Nat) (x : HoistSt) : (setHoist s d c x).caps = s.caps := rfl
@[simp] theorem setHoist_fences (d c : Nat) (x : HoistSt) : (setHoist s d c x).fences = s.fences := rfl
@[simp] theorem setHoist_mem (d c : Nat) (x : HoistSt) : (setHoist s d c x).mem = s.mem := rfl
@[simp] theorem setHoist_ecc (d c : Nat) (x : HoistSt) : (setHoist s d c x).ecc = s.ecc := rfl
@[simp] theorem setHoist_ret (d c : Nat) (x : HoistSt) : (setHoist s d c x).ret = s.ret := rfl
@[simp] theorem setHoist_retEcc (d c : Nat) (x : HoistSt) : (setHoist s d c x).retEcc = s.retEcc := rfl
@[simp] theorem setHoist_chutes (d c : Nat) (x : HoistSt) : (setHoist s d c x).chutes = s.chutes := rfl
@[simp] theorem setHoist_ctxs (d c : Nat) (x : HoistSt) : (setHoist s d c x).ctxs = s.ctxs := rfl
@[simp] theorem setHoist_ports (d c : Nat) (x : HoistSt) : (setHoist s d c x).ports = s.ports := rfl
@[simp] theorem setHoist_encs (d c : Nat) (x : HoistSt) : (setHoist s d c x).encs = s.encs := rfl
@[simp] theorem setHoist_pds (d c : Nat) (x : HoistSt) : (setHoist s d c x).pds = s.pds := rfl
@[simp] theorem setHoist_seamQ (d c : Nat) (x : HoistSt) : (setHoist s d c x).seamQ = s.seamQ := rfl
@[simp] theorem setHoist_echos (d c : Nat) (x : HoistSt) : (setHoist s d c x).echos = s.echos := rfl
@[simp] theorem setHoist_mems (d c : Nat) (x : HoistSt) : (setHoist s d c x).mems = s.mems := rfl
@[simp] theorem setHoist_msgs (d c : Nat) (x : HoistSt) : (setHoist s d c x).msgs = s.msgs := rfl
@[simp] theorem setHoist_axes (d c : Nat) (x : HoistSt) : (setHoist s d c x).axes = s.axes := rfl
@[simp] theorem setHoist_served (d c : Nat) (x : HoistSt) : (setHoist s d c x).served = s.served := rfl
@[simp] theorem setHoist_trigs (d c : Nat) (x : HoistSt) : (setHoist s d c x).trigs = s.trigs := rfl
@[simp] theorem setHoist_tmrs (d c : Nat) (x : HoistSt) : (setHoist s d c x).tmrs = s.tmrs := rfl
@[simp] theorem setHoist_cqWait (d c : Nat) (x : HoistSt) : (setHoist s d c x).cqWait = s.cqWait := rfl
@[simp] theorem setHoist_cqSeq (d c : Nat) (x : HoistSt) : (setHoist s d c x).cqSeq = s.cqSeq := rfl
@[simp] theorem setHoist_assays (d c : Nat) (x : HoistSt) : (setHoist s d c x).assays = s.assays := rfl
@[simp] theorem setHoist_therms (d c : Nat) (x : HoistSt) : (setHoist s d c x).therms = s.therms := rfl
@[simp] theorem setHoist_lamps (d c : Nat) (x : HoistSt) : (setHoist s d c x).lamps = s.lamps := rfl
@[simp] theorem setHoist_mboxes (d c : Nat) (x : HoistSt) : (setHoist s d c x).mboxes = s.mboxes := rfl
@[simp] theorem setHoist_fws (d c : Nat) (x : HoistSt) : (setHoist s d c x).fws = s.fws := rfl
@[simp] theorem setHoist_tsync (d c : Nat) (x : HoistSt) : (setHoist s d c x).tsync = s.tsync := rfl
@[simp] theorem setHoist_burims (d c : Nat) (x : HoistSt) : (setHoist s d c x).burims = s.burims := rfl
@[simp] theorem setHoist_hops (d c : Nat) (x : HoistSt) : (setHoist s d c x).hops = s.hops := rfl
@[simp] theorem setHoist_dies (d c : Nat) (x : HoistSt) : (setHoist s d c x).dies = s.dies := rfl
@[simp] theorem setHoist_pkg (d c : Nat) (x : HoistSt) : (setHoist s d c x).pkg = s.pkg := rfl
@[simp] theorem setHoist_pcie (d c : Nat) (x : HoistSt) : (setHoist s d c x).pcie = s.pcie := rfl
@[simp] theorem setHoist_resp (d c : Nat) (x : HoistSt) : (setHoist s d c x).resp = s.resp := rfl
@[simp] theorem setHoist_out (d c : Nat) (x : HoistSt) : (setHoist s d c x).out = s.out := rfl
@[simp] theorem setCqRecs_pending (d : Nat) (l : List CqRec) : (setCqRecs s d l).pending = s.pending := rfl
@[simp] theorem setCqRecs_clock (d : Nat) (l : List CqRec) : (setCqRecs s d l).clock = s.clock := rfl
@[simp] theorem setCqRecs_free (d : Nat) (l : List CqRec) : (setCqRecs s d l).free = s.free := rfl
@[simp] theorem setCqRecs_part (d : Nat) (l : List CqRec) : (setCqRecs s d l).part = s.part := rfl
@[simp] theorem setCqRecs_regs (d : Nat) (l : List CqRec) : (setCqRecs s d l).regs = s.regs := rfl
@[simp] theorem setCqRecs_shad (d : Nat) (l : List CqRec) : (setCqRecs s d l).shad = s.shad := rfl
@[simp] theorem setCqRecs_gos (d : Nat) (l : List CqRec) : (setCqRecs s d l).gos = s.gos := rfl
@[simp] theorem setCqRecs_hold (d : Nat) (l : List CqRec) : (setCqRecs s d l).hold = s.hold := rfl
@[simp] theorem setCqRecs_ticks (d : Nat) (l : List CqRec) : (setCqRecs s d l).ticks = s.ticks := rfl
@[simp] theorem setCqRecs_caps (d : Nat) (l : List CqRec) : (setCqRecs s d l).caps = s.caps := rfl
@[simp] theorem setCqRecs_fences (d : Nat) (l : List CqRec) : (setCqRecs s d l).fences = s.fences := rfl
@[simp] theorem setCqRecs_mem (d : Nat) (l : List CqRec) : (setCqRecs s d l).mem = s.mem := rfl
@[simp] theorem setCqRecs_ecc (d : Nat) (l : List CqRec) : (setCqRecs s d l).ecc = s.ecc := rfl
@[simp] theorem setCqRecs_ret (d : Nat) (l : List CqRec) : (setCqRecs s d l).ret = s.ret := rfl
@[simp] theorem setCqRecs_retEcc (d : Nat) (l : List CqRec) : (setCqRecs s d l).retEcc = s.retEcc := rfl
@[simp] theorem setCqRecs_chutes (d : Nat) (l : List CqRec) : (setCqRecs s d l).chutes = s.chutes := rfl
@[simp] theorem setCqRecs_ctxs (d : Nat) (l : List CqRec) : (setCqRecs s d l).ctxs = s.ctxs := rfl
@[simp] theorem setCqRecs_ports (d : Nat) (l : List CqRec) : (setCqRecs s d l).ports = s.ports := rfl
@[simp] theorem setCqRecs_encs (d : Nat) (l : List CqRec) : (setCqRecs s d l).encs = s.encs := rfl
@[simp] theorem setCqRecs_pds (d : Nat) (l : List CqRec) : (setCqRecs s d l).pds = s.pds := rfl
@[simp] theorem setCqRecs_seamQ (d : Nat) (l : List CqRec) : (setCqRecs s d l).seamQ = s.seamQ := rfl
@[simp] theorem setCqRecs_echos (d : Nat) (l : List CqRec) : (setCqRecs s d l).echos = s.echos := rfl
@[simp] theorem setCqRecs_mems (d : Nat) (l : List CqRec) : (setCqRecs s d l).mems = s.mems := rfl
@[simp] theorem setCqRecs_msgs (d : Nat) (l : List CqRec) : (setCqRecs s d l).msgs = s.msgs := rfl
@[simp] theorem setCqRecs_axes (d : Nat) (l : List CqRec) : (setCqRecs s d l).axes = s.axes := rfl
@[simp] theorem setCqRecs_hoists (d : Nat) (l : List CqRec) : (setCqRecs s d l).hoists = s.hoists := rfl
@[simp] theorem setCqRecs_served (d : Nat) (l : List CqRec) : (setCqRecs s d l).served = s.served := rfl
@[simp] theorem setCqRecs_trigs (d : Nat) (l : List CqRec) : (setCqRecs s d l).trigs = s.trigs := rfl
@[simp] theorem setCqRecs_tmrs (d : Nat) (l : List CqRec) : (setCqRecs s d l).tmrs = s.tmrs := rfl
@[simp] theorem setCqRecs_cqSeq (d : Nat) (l : List CqRec) : (setCqRecs s d l).cqSeq = s.cqSeq := rfl
@[simp] theorem setCqRecs_assays (d : Nat) (l : List CqRec) : (setCqRecs s d l).assays = s.assays := rfl
@[simp] theorem setCqRecs_therms (d : Nat) (l : List CqRec) : (setCqRecs s d l).therms = s.therms := rfl
@[simp] theorem setCqRecs_lamps (d : Nat) (l : List CqRec) : (setCqRecs s d l).lamps = s.lamps := rfl
@[simp] theorem setCqRecs_mboxes (d : Nat) (l : List CqRec) : (setCqRecs s d l).mboxes = s.mboxes := rfl
@[simp] theorem setCqRecs_fws (d : Nat) (l : List CqRec) : (setCqRecs s d l).fws = s.fws := rfl
@[simp] theorem setCqRecs_tsync (d : Nat) (l : List CqRec) : (setCqRecs s d l).tsync = s.tsync := rfl
@[simp] theorem setCqRecs_burims (d : Nat) (l : List CqRec) : (setCqRecs s d l).burims = s.burims := rfl
@[simp] theorem setCqRecs_hops (d : Nat) (l : List CqRec) : (setCqRecs s d l).hops = s.hops := rfl
@[simp] theorem setCqRecs_dies (d : Nat) (l : List CqRec) : (setCqRecs s d l).dies = s.dies := rfl
@[simp] theorem setCqRecs_pkg (d : Nat) (l : List CqRec) : (setCqRecs s d l).pkg = s.pkg := rfl
@[simp] theorem setCqRecs_pcie (d : Nat) (l : List CqRec) : (setCqRecs s d l).pcie = s.pcie := rfl
@[simp] theorem setCqRecs_resp (d : Nat) (l : List CqRec) : (setCqRecs s d l).resp = s.resp := rfl
@[simp] theorem setCqRecs_out (d : Nat) (l : List CqRec) : (setCqRecs s d l).out = s.out := rfl
@[simp] theorem setAssay_pending (d : Nat) (x : AssaySt) : (setAssay s d x).pending = s.pending := rfl
@[simp] theorem setAssay_clock (d : Nat) (x : AssaySt) : (setAssay s d x).clock = s.clock := rfl
@[simp] theorem setAssay_free (d : Nat) (x : AssaySt) : (setAssay s d x).free = s.free := rfl
@[simp] theorem setAssay_part (d : Nat) (x : AssaySt) : (setAssay s d x).part = s.part := rfl
@[simp] theorem setAssay_regs (d : Nat) (x : AssaySt) : (setAssay s d x).regs = s.regs := rfl
@[simp] theorem setAssay_shad (d : Nat) (x : AssaySt) : (setAssay s d x).shad = s.shad := rfl
@[simp] theorem setAssay_gos (d : Nat) (x : AssaySt) : (setAssay s d x).gos = s.gos := rfl
@[simp] theorem setAssay_hold (d : Nat) (x : AssaySt) : (setAssay s d x).hold = s.hold := rfl
@[simp] theorem setAssay_ticks (d : Nat) (x : AssaySt) : (setAssay s d x).ticks = s.ticks := rfl
@[simp] theorem setAssay_caps (d : Nat) (x : AssaySt) : (setAssay s d x).caps = s.caps := rfl
@[simp] theorem setAssay_fences (d : Nat) (x : AssaySt) : (setAssay s d x).fences = s.fences := rfl
@[simp] theorem setAssay_mem (d : Nat) (x : AssaySt) : (setAssay s d x).mem = s.mem := rfl
@[simp] theorem setAssay_ecc (d : Nat) (x : AssaySt) : (setAssay s d x).ecc = s.ecc := rfl
@[simp] theorem setAssay_ret (d : Nat) (x : AssaySt) : (setAssay s d x).ret = s.ret := rfl
@[simp] theorem setAssay_retEcc (d : Nat) (x : AssaySt) : (setAssay s d x).retEcc = s.retEcc := rfl
@[simp] theorem setAssay_chutes (d : Nat) (x : AssaySt) : (setAssay s d x).chutes = s.chutes := rfl
@[simp] theorem setAssay_ctxs (d : Nat) (x : AssaySt) : (setAssay s d x).ctxs = s.ctxs := rfl
@[simp] theorem setAssay_ports (d : Nat) (x : AssaySt) : (setAssay s d x).ports = s.ports := rfl
@[simp] theorem setAssay_encs (d : Nat) (x : AssaySt) : (setAssay s d x).encs = s.encs := rfl
@[simp] theorem setAssay_pds (d : Nat) (x : AssaySt) : (setAssay s d x).pds = s.pds := rfl
@[simp] theorem setAssay_seamQ (d : Nat) (x : AssaySt) : (setAssay s d x).seamQ = s.seamQ := rfl
@[simp] theorem setAssay_echos (d : Nat) (x : AssaySt) : (setAssay s d x).echos = s.echos := rfl
@[simp] theorem setAssay_mems (d : Nat) (x : AssaySt) : (setAssay s d x).mems = s.mems := rfl
@[simp] theorem setAssay_msgs (d : Nat) (x : AssaySt) : (setAssay s d x).msgs = s.msgs := rfl
@[simp] theorem setAssay_axes (d : Nat) (x : AssaySt) : (setAssay s d x).axes = s.axes := rfl
@[simp] theorem setAssay_hoists (d : Nat) (x : AssaySt) : (setAssay s d x).hoists = s.hoists := rfl
@[simp] theorem setAssay_served (d : Nat) (x : AssaySt) : (setAssay s d x).served = s.served := rfl
@[simp] theorem setAssay_trigs (d : Nat) (x : AssaySt) : (setAssay s d x).trigs = s.trigs := rfl
@[simp] theorem setAssay_tmrs (d : Nat) (x : AssaySt) : (setAssay s d x).tmrs = s.tmrs := rfl
@[simp] theorem setAssay_cqWait (d : Nat) (x : AssaySt) : (setAssay s d x).cqWait = s.cqWait := rfl
@[simp] theorem setAssay_cqSeq (d : Nat) (x : AssaySt) : (setAssay s d x).cqSeq = s.cqSeq := rfl
@[simp] theorem setAssay_therms (d : Nat) (x : AssaySt) : (setAssay s d x).therms = s.therms := rfl
@[simp] theorem setAssay_lamps (d : Nat) (x : AssaySt) : (setAssay s d x).lamps = s.lamps := rfl
@[simp] theorem setAssay_mboxes (d : Nat) (x : AssaySt) : (setAssay s d x).mboxes = s.mboxes := rfl
@[simp] theorem setAssay_fws (d : Nat) (x : AssaySt) : (setAssay s d x).fws = s.fws := rfl
@[simp] theorem setAssay_tsync (d : Nat) (x : AssaySt) : (setAssay s d x).tsync = s.tsync := rfl
@[simp] theorem setAssay_burims (d : Nat) (x : AssaySt) : (setAssay s d x).burims = s.burims := rfl
@[simp] theorem setAssay_hops (d : Nat) (x : AssaySt) : (setAssay s d x).hops = s.hops := rfl
@[simp] theorem setAssay_dies (d : Nat) (x : AssaySt) : (setAssay s d x).dies = s.dies := rfl
@[simp] theorem setAssay_pkg (d : Nat) (x : AssaySt) : (setAssay s d x).pkg = s.pkg := rfl
@[simp] theorem setAssay_pcie (d : Nat) (x : AssaySt) : (setAssay s d x).pcie = s.pcie := rfl
@[simp] theorem setAssay_resp (d : Nat) (x : AssaySt) : (setAssay s d x).resp = s.resp := rfl
@[simp] theorem setAssay_out (d : Nat) (x : AssaySt) : (setAssay s d x).out = s.out := rfl
@[simp] theorem setTherm_pending (d : Nat) (x : ThermSt) : (setTherm s d x).pending = s.pending := rfl
@[simp] theorem setTherm_clock (d : Nat) (x : ThermSt) : (setTherm s d x).clock = s.clock := rfl
@[simp] theorem setTherm_free (d : Nat) (x : ThermSt) : (setTherm s d x).free = s.free := rfl
@[simp] theorem setTherm_part (d : Nat) (x : ThermSt) : (setTherm s d x).part = s.part := rfl
@[simp] theorem setTherm_regs (d : Nat) (x : ThermSt) : (setTherm s d x).regs = s.regs := rfl
@[simp] theorem setTherm_shad (d : Nat) (x : ThermSt) : (setTherm s d x).shad = s.shad := rfl
@[simp] theorem setTherm_gos (d : Nat) (x : ThermSt) : (setTherm s d x).gos = s.gos := rfl
@[simp] theorem setTherm_hold (d : Nat) (x : ThermSt) : (setTherm s d x).hold = s.hold := rfl
@[simp] theorem setTherm_ticks (d : Nat) (x : ThermSt) : (setTherm s d x).ticks = s.ticks := rfl
@[simp] theorem setTherm_caps (d : Nat) (x : ThermSt) : (setTherm s d x).caps = s.caps := rfl
@[simp] theorem setTherm_fences (d : Nat) (x : ThermSt) : (setTherm s d x).fences = s.fences := rfl
@[simp] theorem setTherm_mem (d : Nat) (x : ThermSt) : (setTherm s d x).mem = s.mem := rfl
@[simp] theorem setTherm_ecc (d : Nat) (x : ThermSt) : (setTherm s d x).ecc = s.ecc := rfl
@[simp] theorem setTherm_ret (d : Nat) (x : ThermSt) : (setTherm s d x).ret = s.ret := rfl
@[simp] theorem setTherm_retEcc (d : Nat) (x : ThermSt) : (setTherm s d x).retEcc = s.retEcc := rfl
@[simp] theorem setTherm_chutes (d : Nat) (x : ThermSt) : (setTherm s d x).chutes = s.chutes := rfl
@[simp] theorem setTherm_ctxs (d : Nat) (x : ThermSt) : (setTherm s d x).ctxs = s.ctxs := rfl
@[simp] theorem setTherm_ports (d : Nat) (x : ThermSt) : (setTherm s d x).ports = s.ports := rfl
@[simp] theorem setTherm_encs (d : Nat) (x : ThermSt) : (setTherm s d x).encs = s.encs := rfl
@[simp] theorem setTherm_pds (d : Nat) (x : ThermSt) : (setTherm s d x).pds = s.pds := rfl
@[simp] theorem setTherm_seamQ (d : Nat) (x : ThermSt) : (setTherm s d x).seamQ = s.seamQ := rfl
@[simp] theorem setTherm_echos (d : Nat) (x : ThermSt) : (setTherm s d x).echos = s.echos := rfl
@[simp] theorem setTherm_mems (d : Nat) (x : ThermSt) : (setTherm s d x).mems = s.mems := rfl
@[simp] theorem setTherm_msgs (d : Nat) (x : ThermSt) : (setTherm s d x).msgs = s.msgs := rfl
@[simp] theorem setTherm_axes (d : Nat) (x : ThermSt) : (setTherm s d x).axes = s.axes := rfl
@[simp] theorem setTherm_hoists (d : Nat) (x : ThermSt) : (setTherm s d x).hoists = s.hoists := rfl
@[simp] theorem setTherm_served (d : Nat) (x : ThermSt) : (setTherm s d x).served = s.served := rfl
@[simp] theorem setTherm_trigs (d : Nat) (x : ThermSt) : (setTherm s d x).trigs = s.trigs := rfl
@[simp] theorem setTherm_tmrs (d : Nat) (x : ThermSt) : (setTherm s d x).tmrs = s.tmrs := rfl
@[simp] theorem setTherm_cqWait (d : Nat) (x : ThermSt) : (setTherm s d x).cqWait = s.cqWait := rfl
@[simp] theorem setTherm_cqSeq (d : Nat) (x : ThermSt) : (setTherm s d x).cqSeq = s.cqSeq := rfl
@[simp] theorem setTherm_assays (d : Nat) (x : ThermSt) : (setTherm s d x).assays = s.assays := rfl
@[simp] theorem setTherm_lamps (d : Nat) (x : ThermSt) : (setTherm s d x).lamps = s.lamps := rfl
@[simp] theorem setTherm_mboxes (d : Nat) (x : ThermSt) : (setTherm s d x).mboxes = s.mboxes := rfl
@[simp] theorem setTherm_fws (d : Nat) (x : ThermSt) : (setTherm s d x).fws = s.fws := rfl
@[simp] theorem setTherm_tsync (d : Nat) (x : ThermSt) : (setTherm s d x).tsync = s.tsync := rfl
@[simp] theorem setTherm_burims (d : Nat) (x : ThermSt) : (setTherm s d x).burims = s.burims := rfl
@[simp] theorem setTherm_hops (d : Nat) (x : ThermSt) : (setTherm s d x).hops = s.hops := rfl
@[simp] theorem setTherm_dies (d : Nat) (x : ThermSt) : (setTherm s d x).dies = s.dies := rfl
@[simp] theorem setTherm_pkg (d : Nat) (x : ThermSt) : (setTherm s d x).pkg = s.pkg := rfl
@[simp] theorem setTherm_pcie (d : Nat) (x : ThermSt) : (setTherm s d x).pcie = s.pcie := rfl
@[simp] theorem setTherm_resp (d : Nat) (x : ThermSt) : (setTherm s d x).resp = s.resp := rfl
@[simp] theorem setTherm_out (d : Nat) (x : ThermSt) : (setTherm s d x).out = s.out := rfl
@[simp] theorem setLamp_pending (d : Nat) (x : LampSt) : (setLamp s d x).pending = s.pending := rfl
@[simp] theorem setLamp_clock (d : Nat) (x : LampSt) : (setLamp s d x).clock = s.clock := rfl
@[simp] theorem setLamp_free (d : Nat) (x : LampSt) : (setLamp s d x).free = s.free := rfl
@[simp] theorem setLamp_part (d : Nat) (x : LampSt) : (setLamp s d x).part = s.part := rfl
@[simp] theorem setLamp_regs (d : Nat) (x : LampSt) : (setLamp s d x).regs = s.regs := rfl
@[simp] theorem setLamp_shad (d : Nat) (x : LampSt) : (setLamp s d x).shad = s.shad := rfl
@[simp] theorem setLamp_gos (d : Nat) (x : LampSt) : (setLamp s d x).gos = s.gos := rfl
@[simp] theorem setLamp_hold (d : Nat) (x : LampSt) : (setLamp s d x).hold = s.hold := rfl
@[simp] theorem setLamp_ticks (d : Nat) (x : LampSt) : (setLamp s d x).ticks = s.ticks := rfl
@[simp] theorem setLamp_caps (d : Nat) (x : LampSt) : (setLamp s d x).caps = s.caps := rfl
@[simp] theorem setLamp_fences (d : Nat) (x : LampSt) : (setLamp s d x).fences = s.fences := rfl
@[simp] theorem setLamp_mem (d : Nat) (x : LampSt) : (setLamp s d x).mem = s.mem := rfl
@[simp] theorem setLamp_ecc (d : Nat) (x : LampSt) : (setLamp s d x).ecc = s.ecc := rfl
@[simp] theorem setLamp_ret (d : Nat) (x : LampSt) : (setLamp s d x).ret = s.ret := rfl
@[simp] theorem setLamp_retEcc (d : Nat) (x : LampSt) : (setLamp s d x).retEcc = s.retEcc := rfl
@[simp] theorem setLamp_chutes (d : Nat) (x : LampSt) : (setLamp s d x).chutes = s.chutes := rfl
@[simp] theorem setLamp_ctxs (d : Nat) (x : LampSt) : (setLamp s d x).ctxs = s.ctxs := rfl
@[simp] theorem setLamp_ports (d : Nat) (x : LampSt) : (setLamp s d x).ports = s.ports := rfl
@[simp] theorem setLamp_encs (d : Nat) (x : LampSt) : (setLamp s d x).encs = s.encs := rfl
@[simp] theorem setLamp_pds (d : Nat) (x : LampSt) : (setLamp s d x).pds = s.pds := rfl
@[simp] theorem setLamp_seamQ (d : Nat) (x : LampSt) : (setLamp s d x).seamQ = s.seamQ := rfl
@[simp] theorem setLamp_echos (d : Nat) (x : LampSt) : (setLamp s d x).echos = s.echos := rfl
@[simp] theorem setLamp_mems (d : Nat) (x : LampSt) : (setLamp s d x).mems = s.mems := rfl
@[simp] theorem setLamp_msgs (d : Nat) (x : LampSt) : (setLamp s d x).msgs = s.msgs := rfl
@[simp] theorem setLamp_axes (d : Nat) (x : LampSt) : (setLamp s d x).axes = s.axes := rfl
@[simp] theorem setLamp_hoists (d : Nat) (x : LampSt) : (setLamp s d x).hoists = s.hoists := rfl
@[simp] theorem setLamp_served (d : Nat) (x : LampSt) : (setLamp s d x).served = s.served := rfl
@[simp] theorem setLamp_trigs (d : Nat) (x : LampSt) : (setLamp s d x).trigs = s.trigs := rfl
@[simp] theorem setLamp_tmrs (d : Nat) (x : LampSt) : (setLamp s d x).tmrs = s.tmrs := rfl
@[simp] theorem setLamp_cqWait (d : Nat) (x : LampSt) : (setLamp s d x).cqWait = s.cqWait := rfl
@[simp] theorem setLamp_cqSeq (d : Nat) (x : LampSt) : (setLamp s d x).cqSeq = s.cqSeq := rfl
@[simp] theorem setLamp_assays (d : Nat) (x : LampSt) : (setLamp s d x).assays = s.assays := rfl
@[simp] theorem setLamp_therms (d : Nat) (x : LampSt) : (setLamp s d x).therms = s.therms := rfl
@[simp] theorem setLamp_mboxes (d : Nat) (x : LampSt) : (setLamp s d x).mboxes = s.mboxes := rfl
@[simp] theorem setLamp_fws (d : Nat) (x : LampSt) : (setLamp s d x).fws = s.fws := rfl
@[simp] theorem setLamp_tsync (d : Nat) (x : LampSt) : (setLamp s d x).tsync = s.tsync := rfl
@[simp] theorem setLamp_burims (d : Nat) (x : LampSt) : (setLamp s d x).burims = s.burims := rfl
@[simp] theorem setLamp_hops (d : Nat) (x : LampSt) : (setLamp s d x).hops = s.hops := rfl
@[simp] theorem setLamp_dies (d : Nat) (x : LampSt) : (setLamp s d x).dies = s.dies := rfl
@[simp] theorem setLamp_pkg (d : Nat) (x : LampSt) : (setLamp s d x).pkg = s.pkg := rfl
@[simp] theorem setLamp_pcie (d : Nat) (x : LampSt) : (setLamp s d x).pcie = s.pcie := rfl
@[simp] theorem setLamp_resp (d : Nat) (x : LampSt) : (setLamp s d x).resp = s.resp := rfl
@[simp] theorem setLamp_out (d : Nat) (x : LampSt) : (setLamp s d x).out = s.out := rfl
@[simp] theorem setMbox_pending (d n : Nat) (x : MboxCh) : (setMbox s d n x).pending = s.pending := rfl
@[simp] theorem setMbox_clock (d n : Nat) (x : MboxCh) : (setMbox s d n x).clock = s.clock := rfl
@[simp] theorem setMbox_free (d n : Nat) (x : MboxCh) : (setMbox s d n x).free = s.free := rfl
@[simp] theorem setMbox_part (d n : Nat) (x : MboxCh) : (setMbox s d n x).part = s.part := rfl
@[simp] theorem setMbox_regs (d n : Nat) (x : MboxCh) : (setMbox s d n x).regs = s.regs := rfl
@[simp] theorem setMbox_shad (d n : Nat) (x : MboxCh) : (setMbox s d n x).shad = s.shad := rfl
@[simp] theorem setMbox_gos (d n : Nat) (x : MboxCh) : (setMbox s d n x).gos = s.gos := rfl
@[simp] theorem setMbox_hold (d n : Nat) (x : MboxCh) : (setMbox s d n x).hold = s.hold := rfl
@[simp] theorem setMbox_ticks (d n : Nat) (x : MboxCh) : (setMbox s d n x).ticks = s.ticks := rfl
@[simp] theorem setMbox_caps (d n : Nat) (x : MboxCh) : (setMbox s d n x).caps = s.caps := rfl
@[simp] theorem setMbox_fences (d n : Nat) (x : MboxCh) : (setMbox s d n x).fences = s.fences := rfl
@[simp] theorem setMbox_mem (d n : Nat) (x : MboxCh) : (setMbox s d n x).mem = s.mem := rfl
@[simp] theorem setMbox_ecc (d n : Nat) (x : MboxCh) : (setMbox s d n x).ecc = s.ecc := rfl
@[simp] theorem setMbox_ret (d n : Nat) (x : MboxCh) : (setMbox s d n x).ret = s.ret := rfl
@[simp] theorem setMbox_retEcc (d n : Nat) (x : MboxCh) : (setMbox s d n x).retEcc = s.retEcc := rfl
@[simp] theorem setMbox_chutes (d n : Nat) (x : MboxCh) : (setMbox s d n x).chutes = s.chutes := rfl
@[simp] theorem setMbox_ctxs (d n : Nat) (x : MboxCh) : (setMbox s d n x).ctxs = s.ctxs := rfl
@[simp] theorem setMbox_ports (d n : Nat) (x : MboxCh) : (setMbox s d n x).ports = s.ports := rfl
@[simp] theorem setMbox_encs (d n : Nat) (x : MboxCh) : (setMbox s d n x).encs = s.encs := rfl
@[simp] theorem setMbox_pds (d n : Nat) (x : MboxCh) : (setMbox s d n x).pds = s.pds := rfl
@[simp] theorem setMbox_seamQ (d n : Nat) (x : MboxCh) : (setMbox s d n x).seamQ = s.seamQ := rfl
@[simp] theorem setMbox_echos (d n : Nat) (x : MboxCh) : (setMbox s d n x).echos = s.echos := rfl
@[simp] theorem setMbox_mems (d n : Nat) (x : MboxCh) : (setMbox s d n x).mems = s.mems := rfl
@[simp] theorem setMbox_msgs (d n : Nat) (x : MboxCh) : (setMbox s d n x).msgs = s.msgs := rfl
@[simp] theorem setMbox_axes (d n : Nat) (x : MboxCh) : (setMbox s d n x).axes = s.axes := rfl
@[simp] theorem setMbox_hoists (d n : Nat) (x : MboxCh) : (setMbox s d n x).hoists = s.hoists := rfl
@[simp] theorem setMbox_served (d n : Nat) (x : MboxCh) : (setMbox s d n x).served = s.served := rfl
@[simp] theorem setMbox_trigs (d n : Nat) (x : MboxCh) : (setMbox s d n x).trigs = s.trigs := rfl
@[simp] theorem setMbox_tmrs (d n : Nat) (x : MboxCh) : (setMbox s d n x).tmrs = s.tmrs := rfl
@[simp] theorem setMbox_cqWait (d n : Nat) (x : MboxCh) : (setMbox s d n x).cqWait = s.cqWait := rfl
@[simp] theorem setMbox_cqSeq (d n : Nat) (x : MboxCh) : (setMbox s d n x).cqSeq = s.cqSeq := rfl
@[simp] theorem setMbox_assays (d n : Nat) (x : MboxCh) : (setMbox s d n x).assays = s.assays := rfl
@[simp] theorem setMbox_therms (d n : Nat) (x : MboxCh) : (setMbox s d n x).therms = s.therms := rfl
@[simp] theorem setMbox_lamps (d n : Nat) (x : MboxCh) : (setMbox s d n x).lamps = s.lamps := rfl
@[simp] theorem setMbox_fws (d n : Nat) (x : MboxCh) : (setMbox s d n x).fws = s.fws := rfl
@[simp] theorem setMbox_tsync (d n : Nat) (x : MboxCh) : (setMbox s d n x).tsync = s.tsync := rfl
@[simp] theorem setMbox_burims (d n : Nat) (x : MboxCh) : (setMbox s d n x).burims = s.burims := rfl
@[simp] theorem setMbox_hops (d n : Nat) (x : MboxCh) : (setMbox s d n x).hops = s.hops := rfl
@[simp] theorem setMbox_dies (d n : Nat) (x : MboxCh) : (setMbox s d n x).dies = s.dies := rfl
@[simp] theorem setMbox_pkg (d n : Nat) (x : MboxCh) : (setMbox s d n x).pkg = s.pkg := rfl
@[simp] theorem setMbox_pcie (d n : Nat) (x : MboxCh) : (setMbox s d n x).pcie = s.pcie := rfl
@[simp] theorem setMbox_resp (d n : Nat) (x : MboxCh) : (setMbox s d n x).resp = s.resp := rfl
@[simp] theorem setMbox_out (d n : Nat) (x : MboxCh) : (setMbox s d n x).out = s.out := rfl
@[simp] theorem setFw_pending (d : Nat) (x : FwSt) : (setFw s d x).pending = s.pending := rfl
@[simp] theorem setFw_clock (d : Nat) (x : FwSt) : (setFw s d x).clock = s.clock := rfl
@[simp] theorem setFw_free (d : Nat) (x : FwSt) : (setFw s d x).free = s.free := rfl
@[simp] theorem setFw_part (d : Nat) (x : FwSt) : (setFw s d x).part = s.part := rfl
@[simp] theorem setFw_regs (d : Nat) (x : FwSt) : (setFw s d x).regs = s.regs := rfl
@[simp] theorem setFw_shad (d : Nat) (x : FwSt) : (setFw s d x).shad = s.shad := rfl
@[simp] theorem setFw_gos (d : Nat) (x : FwSt) : (setFw s d x).gos = s.gos := rfl
@[simp] theorem setFw_hold (d : Nat) (x : FwSt) : (setFw s d x).hold = s.hold := rfl
@[simp] theorem setFw_ticks (d : Nat) (x : FwSt) : (setFw s d x).ticks = s.ticks := rfl
@[simp] theorem setFw_caps (d : Nat) (x : FwSt) : (setFw s d x).caps = s.caps := rfl
@[simp] theorem setFw_fences (d : Nat) (x : FwSt) : (setFw s d x).fences = s.fences := rfl
@[simp] theorem setFw_mem (d : Nat) (x : FwSt) : (setFw s d x).mem = s.mem := rfl
@[simp] theorem setFw_ecc (d : Nat) (x : FwSt) : (setFw s d x).ecc = s.ecc := rfl
@[simp] theorem setFw_ret (d : Nat) (x : FwSt) : (setFw s d x).ret = s.ret := rfl
@[simp] theorem setFw_retEcc (d : Nat) (x : FwSt) : (setFw s d x).retEcc = s.retEcc := rfl
@[simp] theorem setFw_chutes (d : Nat) (x : FwSt) : (setFw s d x).chutes = s.chutes := rfl
@[simp] theorem setFw_ctxs (d : Nat) (x : FwSt) : (setFw s d x).ctxs = s.ctxs := rfl
@[simp] theorem setFw_ports (d : Nat) (x : FwSt) : (setFw s d x).ports = s.ports := rfl
@[simp] theorem setFw_encs (d : Nat) (x : FwSt) : (setFw s d x).encs = s.encs := rfl
@[simp] theorem setFw_pds (d : Nat) (x : FwSt) : (setFw s d x).pds = s.pds := rfl
@[simp] theorem setFw_seamQ (d : Nat) (x : FwSt) : (setFw s d x).seamQ = s.seamQ := rfl
@[simp] theorem setFw_echos (d : Nat) (x : FwSt) : (setFw s d x).echos = s.echos := rfl
@[simp] theorem setFw_mems (d : Nat) (x : FwSt) : (setFw s d x).mems = s.mems := rfl
@[simp] theorem setFw_msgs (d : Nat) (x : FwSt) : (setFw s d x).msgs = s.msgs := rfl
@[simp] theorem setFw_axes (d : Nat) (x : FwSt) : (setFw s d x).axes = s.axes := rfl
@[simp] theorem setFw_hoists (d : Nat) (x : FwSt) : (setFw s d x).hoists = s.hoists := rfl
@[simp] theorem setFw_served (d : Nat) (x : FwSt) : (setFw s d x).served = s.served := rfl
@[simp] theorem setFw_trigs (d : Nat) (x : FwSt) : (setFw s d x).trigs = s.trigs := rfl
@[simp] theorem setFw_tmrs (d : Nat) (x : FwSt) : (setFw s d x).tmrs = s.tmrs := rfl
@[simp] theorem setFw_cqWait (d : Nat) (x : FwSt) : (setFw s d x).cqWait = s.cqWait := rfl
@[simp] theorem setFw_cqSeq (d : Nat) (x : FwSt) : (setFw s d x).cqSeq = s.cqSeq := rfl
@[simp] theorem setFw_assays (d : Nat) (x : FwSt) : (setFw s d x).assays = s.assays := rfl
@[simp] theorem setFw_therms (d : Nat) (x : FwSt) : (setFw s d x).therms = s.therms := rfl
@[simp] theorem setFw_lamps (d : Nat) (x : FwSt) : (setFw s d x).lamps = s.lamps := rfl
@[simp] theorem setFw_mboxes (d : Nat) (x : FwSt) : (setFw s d x).mboxes = s.mboxes := rfl
@[simp] theorem setFw_tsync (d : Nat) (x : FwSt) : (setFw s d x).tsync = s.tsync := rfl
@[simp] theorem setFw_burims (d : Nat) (x : FwSt) : (setFw s d x).burims = s.burims := rfl
@[simp] theorem setFw_hops (d : Nat) (x : FwSt) : (setFw s d x).hops = s.hops := rfl
@[simp] theorem setFw_dies (d : Nat) (x : FwSt) : (setFw s d x).dies = s.dies := rfl
@[simp] theorem setFw_pkg (d : Nat) (x : FwSt) : (setFw s d x).pkg = s.pkg := rfl
@[simp] theorem setFw_pcie (d : Nat) (x : FwSt) : (setFw s d x).pcie = s.pcie := rfl
@[simp] theorem setFw_resp (d : Nat) (x : FwSt) : (setFw s d x).resp = s.resp := rfl
@[simp] theorem setFw_out (d : Nat) (x : FwSt) : (setFw s d x).out = s.out := rfl
@[simp] theorem setBurim_pending (d i : Nat) (x : BurimSt) : (setBurim s d i x).pending = s.pending := rfl
@[simp] theorem setBurim_clock (d i : Nat) (x : BurimSt) : (setBurim s d i x).clock = s.clock := rfl
@[simp] theorem setBurim_free (d i : Nat) (x : BurimSt) : (setBurim s d i x).free = s.free := rfl
@[simp] theorem setBurim_part (d i : Nat) (x : BurimSt) : (setBurim s d i x).part = s.part := rfl
@[simp] theorem setBurim_regs (d i : Nat) (x : BurimSt) : (setBurim s d i x).regs = s.regs := rfl
@[simp] theorem setBurim_shad (d i : Nat) (x : BurimSt) : (setBurim s d i x).shad = s.shad := rfl
@[simp] theorem setBurim_gos (d i : Nat) (x : BurimSt) : (setBurim s d i x).gos = s.gos := rfl
@[simp] theorem setBurim_hold (d i : Nat) (x : BurimSt) : (setBurim s d i x).hold = s.hold := rfl
@[simp] theorem setBurim_ticks (d i : Nat) (x : BurimSt) : (setBurim s d i x).ticks = s.ticks := rfl
@[simp] theorem setBurim_caps (d i : Nat) (x : BurimSt) : (setBurim s d i x).caps = s.caps := rfl
@[simp] theorem setBurim_fences (d i : Nat) (x : BurimSt) : (setBurim s d i x).fences = s.fences := rfl
@[simp] theorem setBurim_mem (d i : Nat) (x : BurimSt) : (setBurim s d i x).mem = s.mem := rfl
@[simp] theorem setBurim_ecc (d i : Nat) (x : BurimSt) : (setBurim s d i x).ecc = s.ecc := rfl
@[simp] theorem setBurim_ret (d i : Nat) (x : BurimSt) : (setBurim s d i x).ret = s.ret := rfl
@[simp] theorem setBurim_retEcc (d i : Nat) (x : BurimSt) : (setBurim s d i x).retEcc = s.retEcc := rfl
@[simp] theorem setBurim_chutes (d i : Nat) (x : BurimSt) : (setBurim s d i x).chutes = s.chutes := rfl
@[simp] theorem setBurim_ctxs (d i : Nat) (x : BurimSt) : (setBurim s d i x).ctxs = s.ctxs := rfl
@[simp] theorem setBurim_ports (d i : Nat) (x : BurimSt) : (setBurim s d i x).ports = s.ports := rfl
@[simp] theorem setBurim_encs (d i : Nat) (x : BurimSt) : (setBurim s d i x).encs = s.encs := rfl
@[simp] theorem setBurim_pds (d i : Nat) (x : BurimSt) : (setBurim s d i x).pds = s.pds := rfl
@[simp] theorem setBurim_seamQ (d i : Nat) (x : BurimSt) : (setBurim s d i x).seamQ = s.seamQ := rfl
@[simp] theorem setBurim_echos (d i : Nat) (x : BurimSt) : (setBurim s d i x).echos = s.echos := rfl
@[simp] theorem setBurim_mems (d i : Nat) (x : BurimSt) : (setBurim s d i x).mems = s.mems := rfl
@[simp] theorem setBurim_msgs (d i : Nat) (x : BurimSt) : (setBurim s d i x).msgs = s.msgs := rfl
@[simp] theorem setBurim_axes (d i : Nat) (x : BurimSt) : (setBurim s d i x).axes = s.axes := rfl
@[simp] theorem setBurim_hoists (d i : Nat) (x : BurimSt) : (setBurim s d i x).hoists = s.hoists := rfl
@[simp] theorem setBurim_served (d i : Nat) (x : BurimSt) : (setBurim s d i x).served = s.served := rfl
@[simp] theorem setBurim_trigs (d i : Nat) (x : BurimSt) : (setBurim s d i x).trigs = s.trigs := rfl
@[simp] theorem setBurim_tmrs (d i : Nat) (x : BurimSt) : (setBurim s d i x).tmrs = s.tmrs := rfl
@[simp] theorem setBurim_cqWait (d i : Nat) (x : BurimSt) : (setBurim s d i x).cqWait = s.cqWait := rfl
@[simp] theorem setBurim_cqSeq (d i : Nat) (x : BurimSt) : (setBurim s d i x).cqSeq = s.cqSeq := rfl
@[simp] theorem setBurim_assays (d i : Nat) (x : BurimSt) : (setBurim s d i x).assays = s.assays := rfl
@[simp] theorem setBurim_therms (d i : Nat) (x : BurimSt) : (setBurim s d i x).therms = s.therms := rfl
@[simp] theorem setBurim_lamps (d i : Nat) (x : BurimSt) : (setBurim s d i x).lamps = s.lamps := rfl
@[simp] theorem setBurim_mboxes (d i : Nat) (x : BurimSt) : (setBurim s d i x).mboxes = s.mboxes := rfl
@[simp] theorem setBurim_fws (d i : Nat) (x : BurimSt) : (setBurim s d i x).fws = s.fws := rfl
@[simp] theorem setBurim_tsync (d i : Nat) (x : BurimSt) : (setBurim s d i x).tsync = s.tsync := rfl
@[simp] theorem setBurim_hops (d i : Nat) (x : BurimSt) : (setBurim s d i x).hops = s.hops := rfl
@[simp] theorem setBurim_dies (d i : Nat) (x : BurimSt) : (setBurim s d i x).dies = s.dies := rfl
@[simp] theorem setBurim_pkg (d i : Nat) (x : BurimSt) : (setBurim s d i x).pkg = s.pkg := rfl
@[simp] theorem setBurim_pcie (d i : Nat) (x : BurimSt) : (setBurim s d i x).pcie = s.pcie := rfl
@[simp] theorem setBurim_resp (d i : Nat) (x : BurimSt) : (setBurim s d i x).resp = s.resp := rfl
@[simp] theorem setBurim_out (d i : Nat) (x : BurimSt) : (setBurim s d i x).out = s.out := rfl
@[simp] theorem nextFree_pending : (nextFree s).pending = s.pending := rfl
@[simp] theorem nextFree_clock : (nextFree s).clock = s.clock := rfl
@[simp] theorem nextFree_part : (nextFree s).part = s.part := rfl
@[simp] theorem nextFree_regs : (nextFree s).regs = s.regs := rfl
@[simp] theorem nextFree_shad : (nextFree s).shad = s.shad := rfl
@[simp] theorem nextFree_gos : (nextFree s).gos = s.gos := rfl
@[simp] theorem nextFree_hold : (nextFree s).hold = s.hold := rfl
@[simp] theorem nextFree_ticks : (nextFree s).ticks = s.ticks := rfl
@[simp] theorem nextFree_caps : (nextFree s).caps = s.caps := rfl
@[simp] theorem nextFree_fences : (nextFree s).fences = s.fences := rfl
@[simp] theorem nextFree_mem : (nextFree s).mem = s.mem := rfl
@[simp] theorem nextFree_ecc : (nextFree s).ecc = s.ecc := rfl
@[simp] theorem nextFree_ret : (nextFree s).ret = s.ret := rfl
@[simp] theorem nextFree_retEcc : (nextFree s).retEcc = s.retEcc := rfl
@[simp] theorem nextFree_chutes : (nextFree s).chutes = s.chutes := rfl
@[simp] theorem nextFree_ctxs : (nextFree s).ctxs = s.ctxs := rfl
@[simp] theorem nextFree_ports : (nextFree s).ports = s.ports := rfl
@[simp] theorem nextFree_encs : (nextFree s).encs = s.encs := rfl
@[simp] theorem nextFree_pds : (nextFree s).pds = s.pds := rfl
@[simp] theorem nextFree_seamQ : (nextFree s).seamQ = s.seamQ := rfl
@[simp] theorem nextFree_echos : (nextFree s).echos = s.echos := rfl
@[simp] theorem nextFree_mems : (nextFree s).mems = s.mems := rfl
@[simp] theorem nextFree_msgs : (nextFree s).msgs = s.msgs := rfl
@[simp] theorem nextFree_axes : (nextFree s).axes = s.axes := rfl
@[simp] theorem nextFree_hoists : (nextFree s).hoists = s.hoists := rfl
@[simp] theorem nextFree_served : (nextFree s).served = s.served := rfl
@[simp] theorem nextFree_trigs : (nextFree s).trigs = s.trigs := rfl
@[simp] theorem nextFree_tmrs : (nextFree s).tmrs = s.tmrs := rfl
@[simp] theorem nextFree_cqWait : (nextFree s).cqWait = s.cqWait := rfl
@[simp] theorem nextFree_cqSeq : (nextFree s).cqSeq = s.cqSeq := rfl
@[simp] theorem nextFree_assays : (nextFree s).assays = s.assays := rfl
@[simp] theorem nextFree_therms : (nextFree s).therms = s.therms := rfl
@[simp] theorem nextFree_lamps : (nextFree s).lamps = s.lamps := rfl
@[simp] theorem nextFree_mboxes : (nextFree s).mboxes = s.mboxes := rfl
@[simp] theorem nextFree_fws : (nextFree s).fws = s.fws := rfl
@[simp] theorem nextFree_tsync : (nextFree s).tsync = s.tsync := rfl
@[simp] theorem nextFree_burims : (nextFree s).burims = s.burims := rfl
@[simp] theorem nextFree_hops : (nextFree s).hops = s.hops := rfl
@[simp] theorem nextFree_dies : (nextFree s).dies = s.dies := rfl
@[simp] theorem nextFree_pkg : (nextFree s).pkg = s.pkg := rfl
@[simp] theorem nextFree_pcie : (nextFree s).pcie = s.pcie := rfl
@[simp] theorem nextFree_resp : (nextFree s).resp = s.resp := rfl
@[simp] theorem nextFree_out : (nextFree s).out = s.out := rfl
@[simp] theorem emit_pending (o : Out) : (emit s o).pending = s.pending := rfl
@[simp] theorem emit_clock (o : Out) : (emit s o).clock = s.clock := rfl
@[simp] theorem emit_free (o : Out) : (emit s o).free = s.free := rfl
@[simp] theorem emit_part (o : Out) : (emit s o).part = s.part := rfl
@[simp] theorem emit_regs (o : Out) : (emit s o).regs = s.regs := rfl
@[simp] theorem emit_shad (o : Out) : (emit s o).shad = s.shad := rfl
@[simp] theorem emit_gos (o : Out) : (emit s o).gos = s.gos := rfl
@[simp] theorem emit_hold (o : Out) : (emit s o).hold = s.hold := rfl
@[simp] theorem emit_ticks (o : Out) : (emit s o).ticks = s.ticks := rfl
@[simp] theorem emit_caps (o : Out) : (emit s o).caps = s.caps := rfl
@[simp] theorem emit_fences (o : Out) : (emit s o).fences = s.fences := rfl
@[simp] theorem emit_mem (o : Out) : (emit s o).mem = s.mem := rfl
@[simp] theorem emit_ecc (o : Out) : (emit s o).ecc = s.ecc := rfl
@[simp] theorem emit_ret (o : Out) : (emit s o).ret = s.ret := rfl
@[simp] theorem emit_retEcc (o : Out) : (emit s o).retEcc = s.retEcc := rfl
@[simp] theorem emit_chutes (o : Out) : (emit s o).chutes = s.chutes := rfl
@[simp] theorem emit_ctxs (o : Out) : (emit s o).ctxs = s.ctxs := rfl
@[simp] theorem emit_ports (o : Out) : (emit s o).ports = s.ports := rfl
@[simp] theorem emit_encs (o : Out) : (emit s o).encs = s.encs := rfl
@[simp] theorem emit_pds (o : Out) : (emit s o).pds = s.pds := rfl
@[simp] theorem emit_seamQ (o : Out) : (emit s o).seamQ = s.seamQ := rfl
@[simp] theorem emit_echos (o : Out) : (emit s o).echos = s.echos := rfl
@[simp] theorem emit_mems (o : Out) : (emit s o).mems = s.mems := rfl
@[simp] theorem emit_msgs (o : Out) : (emit s o).msgs = s.msgs := rfl
@[simp] theorem emit_axes (o : Out) : (emit s o).axes = s.axes := rfl
@[simp] theorem emit_hoists (o : Out) : (emit s o).hoists = s.hoists := rfl
@[simp] theorem emit_served (o : Out) : (emit s o).served = s.served := rfl
@[simp] theorem emit_trigs (o : Out) : (emit s o).trigs = s.trigs := rfl
@[simp] theorem emit_tmrs (o : Out) : (emit s o).tmrs = s.tmrs := rfl
@[simp] theorem emit_cqWait (o : Out) : (emit s o).cqWait = s.cqWait := rfl
@[simp] theorem emit_cqSeq (o : Out) : (emit s o).cqSeq = s.cqSeq := rfl
@[simp] theorem emit_assays (o : Out) : (emit s o).assays = s.assays := rfl
@[simp] theorem emit_therms (o : Out) : (emit s o).therms = s.therms := rfl
@[simp] theorem emit_lamps (o : Out) : (emit s o).lamps = s.lamps := rfl
@[simp] theorem emit_mboxes (o : Out) : (emit s o).mboxes = s.mboxes := rfl
@[simp] theorem emit_fws (o : Out) : (emit s o).fws = s.fws := rfl
@[simp] theorem emit_tsync (o : Out) : (emit s o).tsync = s.tsync := rfl
@[simp] theorem emit_burims (o : Out) : (emit s o).burims = s.burims := rfl
@[simp] theorem emit_hops (o : Out) : (emit s o).hops = s.hops := rfl
@[simp] theorem emit_dies (o : Out) : (emit s o).dies = s.dies := rfl
@[simp] theorem emit_pkg (o : Out) : (emit s o).pkg = s.pkg := rfl
@[simp] theorem emit_pcie (o : Out) : (emit s o).pcie = s.pcie := rfl
@[simp] theorem emit_resp (o : Out) : (emit s o).resp = s.resp := rfl
end

/-! Registers read back. -/

/-- A register reads the value last written to it. -/
@[simp] theorem rd_wr_same (s : State) (p : Pg) (off : Nat) (v : Word) : rd (wr s p off v) p off = v := by
  simp [rd, wr]

/-- Another register is as it was. -/
theorem rd_wr_other (s : State) (p q : Pg) (off o : Nat) (v : Word) (h : (p, off) ≠ (q, o)) :
    rd (wr s p off v) q o = rd s q o := by
  simp [rd, wr, Tbl.get_put_other _ _ _ _ _ h]

/-- A register read after a register write, by cases of the register. -/
theorem rd_wr (s : State) (p q : Pg) (off o : Nat) (v : Word) :
    rd (wr s p off v) q o = if (p, off) = (q, o) then v else rd s q o := by
  simp only [rd, wr, Tbl.get_put]

/-- Setting a field is a write of its register. -/
theorem wf_eq (s : State) (p : Pg) (off lo n v : Nat) : wf s p off lo n v = wr s p off (setFld (rd s p off) lo n v) := rfl
/-- Setting a bit is a write of its register. -/
theorem wb_eq (s : State) (p : Pg) (off i : Nat) (b : Bool) : wb s p off i b = wr s p off (setBit (rd s p off) i b) := rfl
/-- Counting is a write of the counter. -/
theorem count_eq (s : State) (p : Pg) (off : Nat) : count s p off = wr s p off (inc24 (rd s p off)) := rfl

/-! Engine tables read back. -/

@[simp] theorem die_setDie (s : State) (d : Nat) (x : DieSt) : die (setDie s d x) d = x := by simp [die, setDie]
theorem die_setDie_other (s : State) (d : Nat) (d' : Nat) (x : DieSt) (h : d ≠ d') :
    die (setDie s d x) d' = die s d' := by simp [die, setDie, Tbl.get_put_other _ _ _ _ _ h]
@[simp] theorem chute_setChute (s : State) (d c : Nat) (x : ChuteSt) : chute (setChute s d c x) d c = x := by simp [chute, setChute]
theorem chute_setChute_other (s : State) (d c : Nat) (d' c' : Nat) (x : ChuteSt) (h : (d, c) ≠ (d', c')) :
    chute (setChute s d c x) d' c' = chute s d' c' := by simp [chute, setChute, Tbl.get_put_other _ _ _ _ _ h]
@[simp] theorem ctx_setCtx (s : State) (d k : Nat) (x : CtxSt) : ctx (setCtx s d k x) d k = x := by simp [ctx, setCtx]
theorem ctx_setCtx_other (s : State) (d k : Nat) (d' k' : Nat) (x : CtxSt) (h : (d, k) ≠ (d', k')) :
    ctx (setCtx s d k x) d' k' = ctx s d' k' := by simp [ctx, setCtx, Tbl.get_put_other _ _ _ _ _ h]
@[simp] theorem port_setPort (s : State) (d p : Nat) (x : PortSt) : port (setPort s d p x) d p = x := by simp [port, setPort]
theorem port_setPort_other (s : State) (d p : Nat) (d' p' : Nat) (x : PortSt) (h : (d, p) ≠ (d', p')) :
    port (setPort s d p x) d' p' = port s d' p' := by simp [port, setPort, Tbl.get_put_other _ _ _ _ _ h]
@[simp] theorem enc_setEnc (s : State) (d c : Nat) (x : EncSt) : enc (setEnc s d c x) d c = x := by simp [enc, setEnc]
theorem enc_setEnc_other (s : State) (d c : Nat) (d' c' : Nat) (x : EncSt) (h : (d, c) ≠ (d', c')) :
    enc (setEnc s d c x) d' c' = enc s d' c' := by simp [enc, setEnc, Tbl.get_put_other _ _ _ _ _ h]
@[simp] theorem pdIn_setPdIn (s : State) (d n : Nat) (x : PdSt) : pdIn (setPdIn s d n x) d n = x := by simp [pdIn, setPdIn]
theorem pdIn_setPdIn_other (s : State) (d n : Nat) (d' n' : Nat) (x : PdSt) (h : (d, n) ≠ (d', n')) :
    pdIn (setPdIn s d n x) d' n' = pdIn s d' n' := by simp [pdIn, setPdIn, Tbl.get_put_other _ _ _ _ _ h]
@[simp] theorem echo_setEcho (s : State) (d : Nat) (x : EchoSt) : echo (setEcho s d x) d = x := by simp [echo, setEcho]
theorem echo_setEcho_other (s : State) (d : Nat) (d' : Nat) (x : EchoSt) (h : d ≠ d') :
    echo (setEcho s d x) d' = echo s d' := by simp [echo, setEcho, Tbl.get_put_other _ _ _ _ _ h]
@[simp] theorem memSt_setMemSt (s : State) (d : Nat) (x : MemSt) : memSt (setMemSt s d x) d = x := by simp [memSt, setMemSt]
theorem memSt_setMemSt_other (s : State) (d : Nat) (d' : Nat) (x : MemSt) (h : d ≠ d') :
    memSt (setMemSt s d x) d' = memSt s d' := by simp [memSt, setMemSt, Tbl.get_put_other _ _ _ _ _ h]
@[simp] theorem axis_setAxis (s : State) (d a : Nat) (x : AxisSt) : axis (setAxis s d a x) d a = x := by simp [axis, setAxis]
theorem axis_setAxis_other (s : State) (d a : Nat) (d' a' : Nat) (x : AxisSt) (h : (d, a) ≠ (d', a')) :
    axis (setAxis s d a x) d' a' = axis s d' a' := by simp [axis, setAxis, Tbl.get_put_other _ _ _ _ _ h]
@[simp] theorem hoist_setHoist (s : State) (d c : Nat) (x : HoistSt) : hoist (setHoist s d c x) d c = x := by simp [hoist, setHoist]
theorem hoist_setHoist_other (s : State) (d c : Nat) (d' c' : Nat) (x : HoistSt) (h : (d, c) ≠ (d', c')) :
    hoist (setHoist s d c x) d' c' = hoist s d' c' := by simp [hoist, setHoist, Tbl.get_put_other _ _ _ _ _ h]
@[simp] theorem cqRecs_setCqRecs (s : State) (d : Nat) (x : List CqRec) : cqRecs (setCqRecs s d x) d = x := by simp [cqRecs, setCqRecs]
theorem cqRecs_setCqRecs_other (s : State) (d : Nat) (d' : Nat) (x : List CqRec) (h : d ≠ d') :
    cqRecs (setCqRecs s d x) d' = cqRecs s d' := by simp [cqRecs, setCqRecs, Tbl.get_put_other _ _ _ _ _ h]
@[simp] theorem assay_setAssay (s : State) (d : Nat) (x : AssaySt) : assay (setAssay s d x) d = x := by simp [assay, setAssay]
theorem assay_setAssay_other (s : State) (d : Nat) (d' : Nat) (x : AssaySt) (h : d ≠ d') :
    assay (setAssay s d x) d' = assay s d' := by simp [assay, setAssay, Tbl.get_put_other _ _ _ _ _ h]
@[simp] theorem therm_setTherm (s : State) (d : Nat) (x : ThermSt) : therm (setTherm s d x) d = x := by simp [therm, setTherm]
theorem therm_setTherm_other (s : State) (d : Nat) (d' : Nat) (x : ThermSt) (h : d ≠ d') :
    therm (setTherm s d x) d' = therm s d' := by simp [therm, setTherm, Tbl.get_put_other _ _ _ _ _ h]
@[simp] theorem lamp_setLamp (s : State) (d : Nat) (x : LampSt) : lamp (setLamp s d x) d = x := by simp [lamp, setLamp]
theorem lamp_setLamp_other (s : State) (d : Nat) (d' : Nat) (x : LampSt) (h : d ≠ d') :
    lamp (setLamp s d x) d' = lamp s d' := by simp [lamp, setLamp, Tbl.get_put_other _ _ _ _ _ h]
@[simp] theorem mbox_setMbox (s : State) (d n : Nat) (x : MboxCh) : mbox (setMbox s d n x) d n = x := by simp [mbox, setMbox]
theorem mbox_setMbox_other (s : State) (d n : Nat) (d' n' : Nat) (x : MboxCh) (h : (d, n) ≠ (d', n')) :
    mbox (setMbox s d n x) d' n' = mbox s d' n' := by simp [mbox, setMbox, Tbl.get_put_other _ _ _ _ _ h]
@[simp] theorem fw_setFw (s : State) (d : Nat) (x : FwSt) : fw (setFw s d x) d = x := by simp [fw, setFw]
theorem fw_setFw_other (s : State) (d : Nat) (d' : Nat) (x : FwSt) (h : d ≠ d') :
    fw (setFw s d x) d' = fw s d' := by simp [fw, setFw, Tbl.get_put_other _ _ _ _ _ h]
@[simp] theorem burim_setBurim (s : State) (d i : Nat) (x : BurimSt) : burim (setBurim s d i x) d i = x := by simp [burim, setBurim]
theorem burim_setBurim_other (s : State) (d i : Nat) (d' i' : Nat) (x : BurimSt) (h : (d, i) ≠ (d', i')) :
    burim (setBurim s d i x) d' i' = burim s d' i' := by simp [burim, setBurim, Tbl.get_put_other _ _ _ _ _ h]

/-! Registers are apart from the engine tables. -/

section
variable (s : State)

@[simp] theorem rd_wrShadow (p : Pg) (off : Nat) (v : Word) (q : Pg) (w : Nat) : rd (wrShadow s p off v) q w = rd s q w := rfl
@[simp] theorem rd_setDie (d : Nat) (x : DieSt) (q : Pg) (w : Nat) : rd (setDie s d x) q w = rd s q w := rfl
@[simp] theorem rd_setChute (d c : Nat) (x : ChuteSt) (q : Pg) (w : Nat) : rd (setChute s d c x) q w = rd s q w := rfl
@[simp] theorem rd_setCtx (d k : Nat) (x : CtxSt) (q : Pg) (w : Nat) : rd (setCtx s d k x) q w = rd s q w := rfl
@[simp] theorem rd_setPort (d p : Nat) (x : PortSt) (q : Pg) (w : Nat) : rd (setPort s d p x) q w = rd s q w := rfl
@[simp] theorem rd_setEnc (d c : Nat) (x : EncSt) (q : Pg) (w : Nat) : rd (setEnc s d c x) q w = rd s q w := rfl
@[simp] theorem rd_setPdIn (d n : Nat) (x : PdSt) (q : Pg) (w : Nat) : rd (setPdIn s d n x) q w = rd s q w := rfl
@[simp] theorem rd_setEcho (d : Nat) (x : EchoSt) (q : Pg) (w : Nat) : rd (setEcho s d x) q w = rd s q w := rfl
@[simp] theorem rd_setMemSt (d : Nat) (x : MemSt) (q : Pg) (w : Nat) : rd (setMemSt s d x) q w = rd s q w := rfl
@[simp] theorem rd_setFenceSt (p : Pg) (x : FenceSt) (q : Pg) (w : Nat) : rd (setFenceSt s p x) q w = rd s q w := rfl
@[simp] theorem rd_setAxis (d a : Nat) (x : AxisSt) (q : Pg) (w : Nat) : rd (setAxis s d a x) q w = rd s q w := rfl
@[simp] theorem rd_setHoist (d c : Nat) (x : HoistSt) (q : Pg) (w : Nat) : rd (setHoist s d c x) q w = rd s q w := rfl
@[simp] theorem rd_setCqRecs (d : Nat) (l : List CqRec) (q : Pg) (w : Nat) : rd (setCqRecs s d l) q w = rd s q w := rfl
@[simp] theorem rd_setAssay (d : Nat) (x : AssaySt) (q : Pg) (w : Nat) : rd (setAssay s d x) q w = rd s q w := rfl
@[simp] theorem rd_setTherm (d : Nat) (x : ThermSt) (q : Pg) (w : Nat) : rd (setTherm s d x) q w = rd s q w := rfl
@[simp] theorem rd_setLamp (d : Nat) (x : LampSt) (q : Pg) (w : Nat) : rd (setLamp s d x) q w = rd s q w := rfl
@[simp] theorem rd_setMbox (d n : Nat) (x : MboxCh) (q : Pg) (w : Nat) : rd (setMbox s d n x) q w = rd s q w := rfl
@[simp] theorem rd_setFw (d : Nat) (x : FwSt) (q : Pg) (w : Nat) : rd (setFw s d x) q w = rd s q w := rfl
@[simp] theorem rd_setBurim (d i : Nat) (x : BurimSt) (q : Pg) (w : Nat) : rd (setBurim s d i x) q w = rd s q w := rfl
@[simp] theorem rd_nextFree (q : Pg) (w : Nat) : rd (nextFree s) q w = rd s q w := rfl
@[simp] theorem rd_emit (o : Out) (q : Pg) (w : Nat) : rd (emit s o) q w = rd s q w := rfl
@[simp] theorem die_wr (p0 : Pg) (off0 : Nat) (v0 : Word) (d : Nat) : die (wr s p0 off0 v0) d = die s d := rfl
@[simp] theorem die_wrShadow (p0 : Pg) (off0 : Nat) (v0 : Word) (d : Nat) : die (wrShadow s p0 off0 v0) d = die s d := rfl
@[simp] theorem die_setChute (d0 c0 : Nat) (x0 : ChuteSt) (d : Nat) : die (setChute s d0 c0 x0) d = die s d := rfl
@[simp] theorem die_setCtx (d0 k0 : Nat) (x0 : CtxSt) (d : Nat) : die (setCtx s d0 k0 x0) d = die s d := rfl
@[simp] theorem die_setPort (d0 p0 : Nat) (x0 : PortSt) (d : Nat) : die (setPort s d0 p0 x0) d = die s d := rfl
@[simp] theorem die_setEnc (d0 c0 : Nat) (x0 : EncSt) (d : Nat) : die (setEnc s d0 c0 x0) d = die s d := rfl
@[simp] theorem die_setPdIn (d0 n0 : Nat) (x0 : PdSt) (d : Nat) : die (setPdIn s d0 n0 x0) d = die s d := rfl
@[simp] theorem die_setEcho (d0 : Nat) (x0 : EchoSt) (d : Nat) : die (setEcho s d0 x0) d = die s d := rfl
@[simp] theorem die_setMemSt (d0 : Nat) (x0 : MemSt) (d : Nat) : die (setMemSt s d0 x0) d = die s d := rfl
@[simp] theorem die_setFenceSt (p0 : Pg) (x0 : FenceSt) (d : Nat) : die (setFenceSt s p0 x0) d = die s d := rfl
@[simp] theorem die_setAxis (d0 a0 : Nat) (x0 : AxisSt) (d : Nat) : die (setAxis s d0 a0 x0) d = die s d := rfl
@[simp] theorem die_setHoist (d0 c0 : Nat) (x0 : HoistSt) (d : Nat) : die (setHoist s d0 c0 x0) d = die s d := rfl
@[simp] theorem die_setCqRecs (d0 : Nat) (l0 : List CqRec) (d : Nat) : die (setCqRecs s d0 l0) d = die s d := rfl
@[simp] theorem die_setAssay (d0 : Nat) (x0 : AssaySt) (d : Nat) : die (setAssay s d0 x0) d = die s d := rfl
@[simp] theorem die_setTherm (d0 : Nat) (x0 : ThermSt) (d : Nat) : die (setTherm s d0 x0) d = die s d := rfl
@[simp] theorem die_setLamp (d0 : Nat) (x0 : LampSt) (d : Nat) : die (setLamp s d0 x0) d = die s d := rfl
@[simp] theorem die_setMbox (d0 n0 : Nat) (x0 : MboxCh) (d : Nat) : die (setMbox s d0 n0 x0) d = die s d := rfl
@[simp] theorem die_setFw (d0 : Nat) (x0 : FwSt) (d : Nat) : die (setFw s d0 x0) d = die s d := rfl
@[simp] theorem die_setBurim (d0 i0 : Nat) (x0 : BurimSt) (d : Nat) : die (setBurim s d0 i0 x0) d = die s d := rfl
@[simp] theorem die_nextFree (d : Nat) : die (nextFree s) d = die s d := rfl
@[simp] theorem die_emit (o0 : Out) (d : Nat) : die (emit s o0) d = die s d := rfl
@[simp] theorem chute_wr (p0 : Pg) (off0 : Nat) (v0 : Word) (d c : Nat) : chute (wr s p0 off0 v0) d c = chute s d c := rfl
@[simp] theorem chute_wrShadow (p0 : Pg) (off0 : Nat) (v0 : Word) (d c : Nat) : chute (wrShadow s p0 off0 v0) d c = chute s d c := rfl
@[simp] theorem chute_setDie (d0 : Nat) (x0 : DieSt) (d c : Nat) : chute (setDie s d0 x0) d c = chute s d c := rfl
@[simp] theorem chute_setCtx (d0 k0 : Nat) (x0 : CtxSt) (d c : Nat) : chute (setCtx s d0 k0 x0) d c = chute s d c := rfl
@[simp] theorem chute_setPort (d0 p0 : Nat) (x0 : PortSt) (d c : Nat) : chute (setPort s d0 p0 x0) d c = chute s d c := rfl
@[simp] theorem chute_setEnc (d0 c0 : Nat) (x0 : EncSt) (d c : Nat) : chute (setEnc s d0 c0 x0) d c = chute s d c := rfl
@[simp] theorem chute_setPdIn (d0 n0 : Nat) (x0 : PdSt) (d c : Nat) : chute (setPdIn s d0 n0 x0) d c = chute s d c := rfl
@[simp] theorem chute_setEcho (d0 : Nat) (x0 : EchoSt) (d c : Nat) : chute (setEcho s d0 x0) d c = chute s d c := rfl
@[simp] theorem chute_setMemSt (d0 : Nat) (x0 : MemSt) (d c : Nat) : chute (setMemSt s d0 x0) d c = chute s d c := rfl
@[simp] theorem chute_setFenceSt (p0 : Pg) (x0 : FenceSt) (d c : Nat) : chute (setFenceSt s p0 x0) d c = chute s d c := rfl
@[simp] theorem chute_setAxis (d0 a0 : Nat) (x0 : AxisSt) (d c : Nat) : chute (setAxis s d0 a0 x0) d c = chute s d c := rfl
@[simp] theorem chute_setHoist (d0 c0 : Nat) (x0 : HoistSt) (d c : Nat) : chute (setHoist s d0 c0 x0) d c = chute s d c := rfl
@[simp] theorem chute_setCqRecs (d0 : Nat) (l0 : List CqRec) (d c : Nat) : chute (setCqRecs s d0 l0) d c = chute s d c := rfl
@[simp] theorem chute_setAssay (d0 : Nat) (x0 : AssaySt) (d c : Nat) : chute (setAssay s d0 x0) d c = chute s d c := rfl
@[simp] theorem chute_setTherm (d0 : Nat) (x0 : ThermSt) (d c : Nat) : chute (setTherm s d0 x0) d c = chute s d c := rfl
@[simp] theorem chute_setLamp (d0 : Nat) (x0 : LampSt) (d c : Nat) : chute (setLamp s d0 x0) d c = chute s d c := rfl
@[simp] theorem chute_setMbox (d0 n0 : Nat) (x0 : MboxCh) (d c : Nat) : chute (setMbox s d0 n0 x0) d c = chute s d c := rfl
@[simp] theorem chute_setFw (d0 : Nat) (x0 : FwSt) (d c : Nat) : chute (setFw s d0 x0) d c = chute s d c := rfl
@[simp] theorem chute_setBurim (d0 i0 : Nat) (x0 : BurimSt) (d c : Nat) : chute (setBurim s d0 i0 x0) d c = chute s d c := rfl
@[simp] theorem chute_nextFree (d c : Nat) : chute (nextFree s) d c = chute s d c := rfl
@[simp] theorem chute_emit (o0 : Out) (d c : Nat) : chute (emit s o0) d c = chute s d c := rfl
@[simp] theorem ctx_wr (p0 : Pg) (off0 : Nat) (v0 : Word) (d k : Nat) : ctx (wr s p0 off0 v0) d k = ctx s d k := rfl
@[simp] theorem ctx_wrShadow (p0 : Pg) (off0 : Nat) (v0 : Word) (d k : Nat) : ctx (wrShadow s p0 off0 v0) d k = ctx s d k := rfl
@[simp] theorem ctx_setDie (d0 : Nat) (x0 : DieSt) (d k : Nat) : ctx (setDie s d0 x0) d k = ctx s d k := rfl
@[simp] theorem ctx_setChute (d0 c0 : Nat) (x0 : ChuteSt) (d k : Nat) : ctx (setChute s d0 c0 x0) d k = ctx s d k := rfl
@[simp] theorem ctx_setPort (d0 p0 : Nat) (x0 : PortSt) (d k : Nat) : ctx (setPort s d0 p0 x0) d k = ctx s d k := rfl
@[simp] theorem ctx_setEnc (d0 c0 : Nat) (x0 : EncSt) (d k : Nat) : ctx (setEnc s d0 c0 x0) d k = ctx s d k := rfl
@[simp] theorem ctx_setPdIn (d0 n0 : Nat) (x0 : PdSt) (d k : Nat) : ctx (setPdIn s d0 n0 x0) d k = ctx s d k := rfl
@[simp] theorem ctx_setEcho (d0 : Nat) (x0 : EchoSt) (d k : Nat) : ctx (setEcho s d0 x0) d k = ctx s d k := rfl
@[simp] theorem ctx_setMemSt (d0 : Nat) (x0 : MemSt) (d k : Nat) : ctx (setMemSt s d0 x0) d k = ctx s d k := rfl
@[simp] theorem ctx_setFenceSt (p0 : Pg) (x0 : FenceSt) (d k : Nat) : ctx (setFenceSt s p0 x0) d k = ctx s d k := rfl
@[simp] theorem ctx_setAxis (d0 a0 : Nat) (x0 : AxisSt) (d k : Nat) : ctx (setAxis s d0 a0 x0) d k = ctx s d k := rfl
@[simp] theorem ctx_setHoist (d0 c0 : Nat) (x0 : HoistSt) (d k : Nat) : ctx (setHoist s d0 c0 x0) d k = ctx s d k := rfl
@[simp] theorem ctx_setCqRecs (d0 : Nat) (l0 : List CqRec) (d k : Nat) : ctx (setCqRecs s d0 l0) d k = ctx s d k := rfl
@[simp] theorem ctx_setAssay (d0 : Nat) (x0 : AssaySt) (d k : Nat) : ctx (setAssay s d0 x0) d k = ctx s d k := rfl
@[simp] theorem ctx_setTherm (d0 : Nat) (x0 : ThermSt) (d k : Nat) : ctx (setTherm s d0 x0) d k = ctx s d k := rfl
@[simp] theorem ctx_setLamp (d0 : Nat) (x0 : LampSt) (d k : Nat) : ctx (setLamp s d0 x0) d k = ctx s d k := rfl
@[simp] theorem ctx_setMbox (d0 n0 : Nat) (x0 : MboxCh) (d k : Nat) : ctx (setMbox s d0 n0 x0) d k = ctx s d k := rfl
@[simp] theorem ctx_setFw (d0 : Nat) (x0 : FwSt) (d k : Nat) : ctx (setFw s d0 x0) d k = ctx s d k := rfl
@[simp] theorem ctx_setBurim (d0 i0 : Nat) (x0 : BurimSt) (d k : Nat) : ctx (setBurim s d0 i0 x0) d k = ctx s d k := rfl
@[simp] theorem ctx_nextFree (d k : Nat) : ctx (nextFree s) d k = ctx s d k := rfl
@[simp] theorem ctx_emit (o0 : Out) (d k : Nat) : ctx (emit s o0) d k = ctx s d k := rfl
@[simp] theorem port_wr (p0 : Pg) (off0 : Nat) (v0 : Word) (d p : Nat) : port (wr s p0 off0 v0) d p = port s d p := rfl
@[simp] theorem port_wrShadow (p0 : Pg) (off0 : Nat) (v0 : Word) (d p : Nat) : port (wrShadow s p0 off0 v0) d p = port s d p := rfl
@[simp] theorem port_setDie (d0 : Nat) (x0 : DieSt) (d p : Nat) : port (setDie s d0 x0) d p = port s d p := rfl
@[simp] theorem port_setChute (d0 c0 : Nat) (x0 : ChuteSt) (d p : Nat) : port (setChute s d0 c0 x0) d p = port s d p := rfl
@[simp] theorem port_setCtx (d0 k0 : Nat) (x0 : CtxSt) (d p : Nat) : port (setCtx s d0 k0 x0) d p = port s d p := rfl
@[simp] theorem port_setEnc (d0 c0 : Nat) (x0 : EncSt) (d p : Nat) : port (setEnc s d0 c0 x0) d p = port s d p := rfl
@[simp] theorem port_setPdIn (d0 n0 : Nat) (x0 : PdSt) (d p : Nat) : port (setPdIn s d0 n0 x0) d p = port s d p := rfl
@[simp] theorem port_setEcho (d0 : Nat) (x0 : EchoSt) (d p : Nat) : port (setEcho s d0 x0) d p = port s d p := rfl
@[simp] theorem port_setMemSt (d0 : Nat) (x0 : MemSt) (d p : Nat) : port (setMemSt s d0 x0) d p = port s d p := rfl
@[simp] theorem port_setFenceSt (p0 : Pg) (x0 : FenceSt) (d p : Nat) : port (setFenceSt s p0 x0) d p = port s d p := rfl
@[simp] theorem port_setAxis (d0 a0 : Nat) (x0 : AxisSt) (d p : Nat) : port (setAxis s d0 a0 x0) d p = port s d p := rfl
@[simp] theorem port_setHoist (d0 c0 : Nat) (x0 : HoistSt) (d p : Nat) : port (setHoist s d0 c0 x0) d p = port s d p := rfl
@[simp] theorem port_setCqRecs (d0 : Nat) (l0 : List CqRec) (d p : Nat) : port (setCqRecs s d0 l0) d p = port s d p := rfl
@[simp] theorem port_setAssay (d0 : Nat) (x0 : AssaySt) (d p : Nat) : port (setAssay s d0 x0) d p = port s d p := rfl
@[simp] theorem port_setTherm (d0 : Nat) (x0 : ThermSt) (d p : Nat) : port (setTherm s d0 x0) d p = port s d p := rfl
@[simp] theorem port_setLamp (d0 : Nat) (x0 : LampSt) (d p : Nat) : port (setLamp s d0 x0) d p = port s d p := rfl
@[simp] theorem port_setMbox (d0 n0 : Nat) (x0 : MboxCh) (d p : Nat) : port (setMbox s d0 n0 x0) d p = port s d p := rfl
@[simp] theorem port_setFw (d0 : Nat) (x0 : FwSt) (d p : Nat) : port (setFw s d0 x0) d p = port s d p := rfl
@[simp] theorem port_setBurim (d0 i0 : Nat) (x0 : BurimSt) (d p : Nat) : port (setBurim s d0 i0 x0) d p = port s d p := rfl
@[simp] theorem port_nextFree (d p : Nat) : port (nextFree s) d p = port s d p := rfl
@[simp] theorem port_emit (o0 : Out) (d p : Nat) : port (emit s o0) d p = port s d p := rfl
@[simp] theorem enc_wr (p0 : Pg) (off0 : Nat) (v0 : Word) (d c : Nat) : enc (wr s p0 off0 v0) d c = enc s d c := rfl
@[simp] theorem enc_wrShadow (p0 : Pg) (off0 : Nat) (v0 : Word) (d c : Nat) : enc (wrShadow s p0 off0 v0) d c = enc s d c := rfl
@[simp] theorem enc_setDie (d0 : Nat) (x0 : DieSt) (d c : Nat) : enc (setDie s d0 x0) d c = enc s d c := rfl
@[simp] theorem enc_setChute (d0 c0 : Nat) (x0 : ChuteSt) (d c : Nat) : enc (setChute s d0 c0 x0) d c = enc s d c := rfl
@[simp] theorem enc_setCtx (d0 k0 : Nat) (x0 : CtxSt) (d c : Nat) : enc (setCtx s d0 k0 x0) d c = enc s d c := rfl
@[simp] theorem enc_setPort (d0 p0 : Nat) (x0 : PortSt) (d c : Nat) : enc (setPort s d0 p0 x0) d c = enc s d c := rfl
@[simp] theorem enc_setPdIn (d0 n0 : Nat) (x0 : PdSt) (d c : Nat) : enc (setPdIn s d0 n0 x0) d c = enc s d c := rfl
@[simp] theorem enc_setEcho (d0 : Nat) (x0 : EchoSt) (d c : Nat) : enc (setEcho s d0 x0) d c = enc s d c := rfl
@[simp] theorem enc_setMemSt (d0 : Nat) (x0 : MemSt) (d c : Nat) : enc (setMemSt s d0 x0) d c = enc s d c := rfl
@[simp] theorem enc_setFenceSt (p0 : Pg) (x0 : FenceSt) (d c : Nat) : enc (setFenceSt s p0 x0) d c = enc s d c := rfl
@[simp] theorem enc_setAxis (d0 a0 : Nat) (x0 : AxisSt) (d c : Nat) : enc (setAxis s d0 a0 x0) d c = enc s d c := rfl
@[simp] theorem enc_setHoist (d0 c0 : Nat) (x0 : HoistSt) (d c : Nat) : enc (setHoist s d0 c0 x0) d c = enc s d c := rfl
@[simp] theorem enc_setCqRecs (d0 : Nat) (l0 : List CqRec) (d c : Nat) : enc (setCqRecs s d0 l0) d c = enc s d c := rfl
@[simp] theorem enc_setAssay (d0 : Nat) (x0 : AssaySt) (d c : Nat) : enc (setAssay s d0 x0) d c = enc s d c := rfl
@[simp] theorem enc_setTherm (d0 : Nat) (x0 : ThermSt) (d c : Nat) : enc (setTherm s d0 x0) d c = enc s d c := rfl
@[simp] theorem enc_setLamp (d0 : Nat) (x0 : LampSt) (d c : Nat) : enc (setLamp s d0 x0) d c = enc s d c := rfl
@[simp] theorem enc_setMbox (d0 n0 : Nat) (x0 : MboxCh) (d c : Nat) : enc (setMbox s d0 n0 x0) d c = enc s d c := rfl
@[simp] theorem enc_setFw (d0 : Nat) (x0 : FwSt) (d c : Nat) : enc (setFw s d0 x0) d c = enc s d c := rfl
@[simp] theorem enc_setBurim (d0 i0 : Nat) (x0 : BurimSt) (d c : Nat) : enc (setBurim s d0 i0 x0) d c = enc s d c := rfl
@[simp] theorem enc_nextFree (d c : Nat) : enc (nextFree s) d c = enc s d c := rfl
@[simp] theorem enc_emit (o0 : Out) (d c : Nat) : enc (emit s o0) d c = enc s d c := rfl
@[simp] theorem pdIn_wr (p0 : Pg) (off0 : Nat) (v0 : Word) (d n : Nat) : pdIn (wr s p0 off0 v0) d n = pdIn s d n := rfl
@[simp] theorem pdIn_wrShadow (p0 : Pg) (off0 : Nat) (v0 : Word) (d n : Nat) : pdIn (wrShadow s p0 off0 v0) d n = pdIn s d n := rfl
@[simp] theorem pdIn_setDie (d0 : Nat) (x0 : DieSt) (d n : Nat) : pdIn (setDie s d0 x0) d n = pdIn s d n := rfl
@[simp] theorem pdIn_setChute (d0 c0 : Nat) (x0 : ChuteSt) (d n : Nat) : pdIn (setChute s d0 c0 x0) d n = pdIn s d n := rfl
@[simp] theorem pdIn_setCtx (d0 k0 : Nat) (x0 : CtxSt) (d n : Nat) : pdIn (setCtx s d0 k0 x0) d n = pdIn s d n := rfl
@[simp] theorem pdIn_setPort (d0 p0 : Nat) (x0 : PortSt) (d n : Nat) : pdIn (setPort s d0 p0 x0) d n = pdIn s d n := rfl
@[simp] theorem pdIn_setEnc (d0 c0 : Nat) (x0 : EncSt) (d n : Nat) : pdIn (setEnc s d0 c0 x0) d n = pdIn s d n := rfl
@[simp] theorem pdIn_setEcho (d0 : Nat) (x0 : EchoSt) (d n : Nat) : pdIn (setEcho s d0 x0) d n = pdIn s d n := rfl
@[simp] theorem pdIn_setMemSt (d0 : Nat) (x0 : MemSt) (d n : Nat) : pdIn (setMemSt s d0 x0) d n = pdIn s d n := rfl
@[simp] theorem pdIn_setFenceSt (p0 : Pg) (x0 : FenceSt) (d n : Nat) : pdIn (setFenceSt s p0 x0) d n = pdIn s d n := rfl
@[simp] theorem pdIn_setAxis (d0 a0 : Nat) (x0 : AxisSt) (d n : Nat) : pdIn (setAxis s d0 a0 x0) d n = pdIn s d n := rfl
@[simp] theorem pdIn_setHoist (d0 c0 : Nat) (x0 : HoistSt) (d n : Nat) : pdIn (setHoist s d0 c0 x0) d n = pdIn s d n := rfl
@[simp] theorem pdIn_setCqRecs (d0 : Nat) (l0 : List CqRec) (d n : Nat) : pdIn (setCqRecs s d0 l0) d n = pdIn s d n := rfl
@[simp] theorem pdIn_setAssay (d0 : Nat) (x0 : AssaySt) (d n : Nat) : pdIn (setAssay s d0 x0) d n = pdIn s d n := rfl
@[simp] theorem pdIn_setTherm (d0 : Nat) (x0 : ThermSt) (d n : Nat) : pdIn (setTherm s d0 x0) d n = pdIn s d n := rfl
@[simp] theorem pdIn_setLamp (d0 : Nat) (x0 : LampSt) (d n : Nat) : pdIn (setLamp s d0 x0) d n = pdIn s d n := rfl
@[simp] theorem pdIn_setMbox (d0 n0 : Nat) (x0 : MboxCh) (d n : Nat) : pdIn (setMbox s d0 n0 x0) d n = pdIn s d n := rfl
@[simp] theorem pdIn_setFw (d0 : Nat) (x0 : FwSt) (d n : Nat) : pdIn (setFw s d0 x0) d n = pdIn s d n := rfl
@[simp] theorem pdIn_setBurim (d0 i0 : Nat) (x0 : BurimSt) (d n : Nat) : pdIn (setBurim s d0 i0 x0) d n = pdIn s d n := rfl
@[simp] theorem pdIn_nextFree (d n : Nat) : pdIn (nextFree s) d n = pdIn s d n := rfl
@[simp] theorem pdIn_emit (o0 : Out) (d n : Nat) : pdIn (emit s o0) d n = pdIn s d n := rfl
@[simp] theorem echo_wr (p0 : Pg) (off0 : Nat) (v0 : Word) (d : Nat) : echo (wr s p0 off0 v0) d = echo s d := rfl
@[simp] theorem echo_wrShadow (p0 : Pg) (off0 : Nat) (v0 : Word) (d : Nat) : echo (wrShadow s p0 off0 v0) d = echo s d := rfl
@[simp] theorem echo_setDie (d0 : Nat) (x0 : DieSt) (d : Nat) : echo (setDie s d0 x0) d = echo s d := rfl
@[simp] theorem echo_setChute (d0 c0 : Nat) (x0 : ChuteSt) (d : Nat) : echo (setChute s d0 c0 x0) d = echo s d := rfl
@[simp] theorem echo_setCtx (d0 k0 : Nat) (x0 : CtxSt) (d : Nat) : echo (setCtx s d0 k0 x0) d = echo s d := rfl
@[simp] theorem echo_setPort (d0 p0 : Nat) (x0 : PortSt) (d : Nat) : echo (setPort s d0 p0 x0) d = echo s d := rfl
@[simp] theorem echo_setEnc (d0 c0 : Nat) (x0 : EncSt) (d : Nat) : echo (setEnc s d0 c0 x0) d = echo s d := rfl
@[simp] theorem echo_setPdIn (d0 n0 : Nat) (x0 : PdSt) (d : Nat) : echo (setPdIn s d0 n0 x0) d = echo s d := rfl
@[simp] theorem echo_setMemSt (d0 : Nat) (x0 : MemSt) (d : Nat) : echo (setMemSt s d0 x0) d = echo s d := rfl
@[simp] theorem echo_setFenceSt (p0 : Pg) (x0 : FenceSt) (d : Nat) : echo (setFenceSt s p0 x0) d = echo s d := rfl
@[simp] theorem echo_setAxis (d0 a0 : Nat) (x0 : AxisSt) (d : Nat) : echo (setAxis s d0 a0 x0) d = echo s d := rfl
@[simp] theorem echo_setHoist (d0 c0 : Nat) (x0 : HoistSt) (d : Nat) : echo (setHoist s d0 c0 x0) d = echo s d := rfl
@[simp] theorem echo_setCqRecs (d0 : Nat) (l0 : List CqRec) (d : Nat) : echo (setCqRecs s d0 l0) d = echo s d := rfl
@[simp] theorem echo_setAssay (d0 : Nat) (x0 : AssaySt) (d : Nat) : echo (setAssay s d0 x0) d = echo s d := rfl
@[simp] theorem echo_setTherm (d0 : Nat) (x0 : ThermSt) (d : Nat) : echo (setTherm s d0 x0) d = echo s d := rfl
@[simp] theorem echo_setLamp (d0 : Nat) (x0 : LampSt) (d : Nat) : echo (setLamp s d0 x0) d = echo s d := rfl
@[simp] theorem echo_setMbox (d0 n0 : Nat) (x0 : MboxCh) (d : Nat) : echo (setMbox s d0 n0 x0) d = echo s d := rfl
@[simp] theorem echo_setFw (d0 : Nat) (x0 : FwSt) (d : Nat) : echo (setFw s d0 x0) d = echo s d := rfl
@[simp] theorem echo_setBurim (d0 i0 : Nat) (x0 : BurimSt) (d : Nat) : echo (setBurim s d0 i0 x0) d = echo s d := rfl
@[simp] theorem echo_nextFree (d : Nat) : echo (nextFree s) d = echo s d := rfl
@[simp] theorem echo_emit (o0 : Out) (d : Nat) : echo (emit s o0) d = echo s d := rfl
@[simp] theorem memSt_wr (p0 : Pg) (off0 : Nat) (v0 : Word) (d : Nat) : memSt (wr s p0 off0 v0) d = memSt s d := rfl
@[simp] theorem memSt_wrShadow (p0 : Pg) (off0 : Nat) (v0 : Word) (d : Nat) : memSt (wrShadow s p0 off0 v0) d = memSt s d := rfl
@[simp] theorem memSt_setDie (d0 : Nat) (x0 : DieSt) (d : Nat) : memSt (setDie s d0 x0) d = memSt s d := rfl
@[simp] theorem memSt_setChute (d0 c0 : Nat) (x0 : ChuteSt) (d : Nat) : memSt (setChute s d0 c0 x0) d = memSt s d := rfl
@[simp] theorem memSt_setCtx (d0 k0 : Nat) (x0 : CtxSt) (d : Nat) : memSt (setCtx s d0 k0 x0) d = memSt s d := rfl
@[simp] theorem memSt_setPort (d0 p0 : Nat) (x0 : PortSt) (d : Nat) : memSt (setPort s d0 p0 x0) d = memSt s d := rfl
@[simp] theorem memSt_setEnc (d0 c0 : Nat) (x0 : EncSt) (d : Nat) : memSt (setEnc s d0 c0 x0) d = memSt s d := rfl
@[simp] theorem memSt_setPdIn (d0 n0 : Nat) (x0 : PdSt) (d : Nat) : memSt (setPdIn s d0 n0 x0) d = memSt s d := rfl
@[simp] theorem memSt_setEcho (d0 : Nat) (x0 : EchoSt) (d : Nat) : memSt (setEcho s d0 x0) d = memSt s d := rfl
@[simp] theorem memSt_setFenceSt (p0 : Pg) (x0 : FenceSt) (d : Nat) : memSt (setFenceSt s p0 x0) d = memSt s d := rfl
@[simp] theorem memSt_setAxis (d0 a0 : Nat) (x0 : AxisSt) (d : Nat) : memSt (setAxis s d0 a0 x0) d = memSt s d := rfl
@[simp] theorem memSt_setHoist (d0 c0 : Nat) (x0 : HoistSt) (d : Nat) : memSt (setHoist s d0 c0 x0) d = memSt s d := rfl
@[simp] theorem memSt_setCqRecs (d0 : Nat) (l0 : List CqRec) (d : Nat) : memSt (setCqRecs s d0 l0) d = memSt s d := rfl
@[simp] theorem memSt_setAssay (d0 : Nat) (x0 : AssaySt) (d : Nat) : memSt (setAssay s d0 x0) d = memSt s d := rfl
@[simp] theorem memSt_setTherm (d0 : Nat) (x0 : ThermSt) (d : Nat) : memSt (setTherm s d0 x0) d = memSt s d := rfl
@[simp] theorem memSt_setLamp (d0 : Nat) (x0 : LampSt) (d : Nat) : memSt (setLamp s d0 x0) d = memSt s d := rfl
@[simp] theorem memSt_setMbox (d0 n0 : Nat) (x0 : MboxCh) (d : Nat) : memSt (setMbox s d0 n0 x0) d = memSt s d := rfl
@[simp] theorem memSt_setFw (d0 : Nat) (x0 : FwSt) (d : Nat) : memSt (setFw s d0 x0) d = memSt s d := rfl
@[simp] theorem memSt_setBurim (d0 i0 : Nat) (x0 : BurimSt) (d : Nat) : memSt (setBurim s d0 i0 x0) d = memSt s d := rfl
@[simp] theorem memSt_nextFree (d : Nat) : memSt (nextFree s) d = memSt s d := rfl
@[simp] theorem memSt_emit (o0 : Out) (d : Nat) : memSt (emit s o0) d = memSt s d := rfl
@[simp] theorem axis_wr (p0 : Pg) (off0 : Nat) (v0 : Word) (d a : Nat) : axis (wr s p0 off0 v0) d a = axis s d a := rfl
@[simp] theorem axis_wrShadow (p0 : Pg) (off0 : Nat) (v0 : Word) (d a : Nat) : axis (wrShadow s p0 off0 v0) d a = axis s d a := rfl
@[simp] theorem axis_setDie (d0 : Nat) (x0 : DieSt) (d a : Nat) : axis (setDie s d0 x0) d a = axis s d a := rfl
@[simp] theorem axis_setChute (d0 c0 : Nat) (x0 : ChuteSt) (d a : Nat) : axis (setChute s d0 c0 x0) d a = axis s d a := rfl
@[simp] theorem axis_setCtx (d0 k0 : Nat) (x0 : CtxSt) (d a : Nat) : axis (setCtx s d0 k0 x0) d a = axis s d a := rfl
@[simp] theorem axis_setPort (d0 p0 : Nat) (x0 : PortSt) (d a : Nat) : axis (setPort s d0 p0 x0) d a = axis s d a := rfl
@[simp] theorem axis_setEnc (d0 c0 : Nat) (x0 : EncSt) (d a : Nat) : axis (setEnc s d0 c0 x0) d a = axis s d a := rfl
@[simp] theorem axis_setPdIn (d0 n0 : Nat) (x0 : PdSt) (d a : Nat) : axis (setPdIn s d0 n0 x0) d a = axis s d a := rfl
@[simp] theorem axis_setEcho (d0 : Nat) (x0 : EchoSt) (d a : Nat) : axis (setEcho s d0 x0) d a = axis s d a := rfl
@[simp] theorem axis_setMemSt (d0 : Nat) (x0 : MemSt) (d a : Nat) : axis (setMemSt s d0 x0) d a = axis s d a := rfl
@[simp] theorem axis_setFenceSt (p0 : Pg) (x0 : FenceSt) (d a : Nat) : axis (setFenceSt s p0 x0) d a = axis s d a := rfl
@[simp] theorem axis_setHoist (d0 c0 : Nat) (x0 : HoistSt) (d a : Nat) : axis (setHoist s d0 c0 x0) d a = axis s d a := rfl
@[simp] theorem axis_setCqRecs (d0 : Nat) (l0 : List CqRec) (d a : Nat) : axis (setCqRecs s d0 l0) d a = axis s d a := rfl
@[simp] theorem axis_setAssay (d0 : Nat) (x0 : AssaySt) (d a : Nat) : axis (setAssay s d0 x0) d a = axis s d a := rfl
@[simp] theorem axis_setTherm (d0 : Nat) (x0 : ThermSt) (d a : Nat) : axis (setTherm s d0 x0) d a = axis s d a := rfl
@[simp] theorem axis_setLamp (d0 : Nat) (x0 : LampSt) (d a : Nat) : axis (setLamp s d0 x0) d a = axis s d a := rfl
@[simp] theorem axis_setMbox (d0 n0 : Nat) (x0 : MboxCh) (d a : Nat) : axis (setMbox s d0 n0 x0) d a = axis s d a := rfl
@[simp] theorem axis_setFw (d0 : Nat) (x0 : FwSt) (d a : Nat) : axis (setFw s d0 x0) d a = axis s d a := rfl
@[simp] theorem axis_setBurim (d0 i0 : Nat) (x0 : BurimSt) (d a : Nat) : axis (setBurim s d0 i0 x0) d a = axis s d a := rfl
@[simp] theorem axis_nextFree (d a : Nat) : axis (nextFree s) d a = axis s d a := rfl
@[simp] theorem axis_emit (o0 : Out) (d a : Nat) : axis (emit s o0) d a = axis s d a := rfl
@[simp] theorem hoist_wr (p0 : Pg) (off0 : Nat) (v0 : Word) (d c : Nat) : hoist (wr s p0 off0 v0) d c = hoist s d c := rfl
@[simp] theorem hoist_wrShadow (p0 : Pg) (off0 : Nat) (v0 : Word) (d c : Nat) : hoist (wrShadow s p0 off0 v0) d c = hoist s d c := rfl
@[simp] theorem hoist_setDie (d0 : Nat) (x0 : DieSt) (d c : Nat) : hoist (setDie s d0 x0) d c = hoist s d c := rfl
@[simp] theorem hoist_setChute (d0 c0 : Nat) (x0 : ChuteSt) (d c : Nat) : hoist (setChute s d0 c0 x0) d c = hoist s d c := rfl
@[simp] theorem hoist_setCtx (d0 k0 : Nat) (x0 : CtxSt) (d c : Nat) : hoist (setCtx s d0 k0 x0) d c = hoist s d c := rfl
@[simp] theorem hoist_setPort (d0 p0 : Nat) (x0 : PortSt) (d c : Nat) : hoist (setPort s d0 p0 x0) d c = hoist s d c := rfl
@[simp] theorem hoist_setEnc (d0 c0 : Nat) (x0 : EncSt) (d c : Nat) : hoist (setEnc s d0 c0 x0) d c = hoist s d c := rfl
@[simp] theorem hoist_setPdIn (d0 n0 : Nat) (x0 : PdSt) (d c : Nat) : hoist (setPdIn s d0 n0 x0) d c = hoist s d c := rfl
@[simp] theorem hoist_setEcho (d0 : Nat) (x0 : EchoSt) (d c : Nat) : hoist (setEcho s d0 x0) d c = hoist s d c := rfl
@[simp] theorem hoist_setMemSt (d0 : Nat) (x0 : MemSt) (d c : Nat) : hoist (setMemSt s d0 x0) d c = hoist s d c := rfl
@[simp] theorem hoist_setFenceSt (p0 : Pg) (x0 : FenceSt) (d c : Nat) : hoist (setFenceSt s p0 x0) d c = hoist s d c := rfl
@[simp] theorem hoist_setAxis (d0 a0 : Nat) (x0 : AxisSt) (d c : Nat) : hoist (setAxis s d0 a0 x0) d c = hoist s d c := rfl
@[simp] theorem hoist_setCqRecs (d0 : Nat) (l0 : List CqRec) (d c : Nat) : hoist (setCqRecs s d0 l0) d c = hoist s d c := rfl
@[simp] theorem hoist_setAssay (d0 : Nat) (x0 : AssaySt) (d c : Nat) : hoist (setAssay s d0 x0) d c = hoist s d c := rfl
@[simp] theorem hoist_setTherm (d0 : Nat) (x0 : ThermSt) (d c : Nat) : hoist (setTherm s d0 x0) d c = hoist s d c := rfl
@[simp] theorem hoist_setLamp (d0 : Nat) (x0 : LampSt) (d c : Nat) : hoist (setLamp s d0 x0) d c = hoist s d c := rfl
@[simp] theorem hoist_setMbox (d0 n0 : Nat) (x0 : MboxCh) (d c : Nat) : hoist (setMbox s d0 n0 x0) d c = hoist s d c := rfl
@[simp] theorem hoist_setFw (d0 : Nat) (x0 : FwSt) (d c : Nat) : hoist (setFw s d0 x0) d c = hoist s d c := rfl
@[simp] theorem hoist_setBurim (d0 i0 : Nat) (x0 : BurimSt) (d c : Nat) : hoist (setBurim s d0 i0 x0) d c = hoist s d c := rfl
@[simp] theorem hoist_nextFree (d c : Nat) : hoist (nextFree s) d c = hoist s d c := rfl
@[simp] theorem hoist_emit (o0 : Out) (d c : Nat) : hoist (emit s o0) d c = hoist s d c := rfl
@[simp] theorem cqRecs_wr (p0 : Pg) (off0 : Nat) (v0 : Word) (d : Nat) : cqRecs (wr s p0 off0 v0) d = cqRecs s d := rfl
@[simp] theorem cqRecs_wrShadow (p0 : Pg) (off0 : Nat) (v0 : Word) (d : Nat) : cqRecs (wrShadow s p0 off0 v0) d = cqRecs s d := rfl
@[simp] theorem cqRecs_setDie (d0 : Nat) (x0 : DieSt) (d : Nat) : cqRecs (setDie s d0 x0) d = cqRecs s d := rfl
@[simp] theorem cqRecs_setChute (d0 c0 : Nat) (x0 : ChuteSt) (d : Nat) : cqRecs (setChute s d0 c0 x0) d = cqRecs s d := rfl
@[simp] theorem cqRecs_setCtx (d0 k0 : Nat) (x0 : CtxSt) (d : Nat) : cqRecs (setCtx s d0 k0 x0) d = cqRecs s d := rfl
@[simp] theorem cqRecs_setPort (d0 p0 : Nat) (x0 : PortSt) (d : Nat) : cqRecs (setPort s d0 p0 x0) d = cqRecs s d := rfl
@[simp] theorem cqRecs_setEnc (d0 c0 : Nat) (x0 : EncSt) (d : Nat) : cqRecs (setEnc s d0 c0 x0) d = cqRecs s d := rfl
@[simp] theorem cqRecs_setPdIn (d0 n0 : Nat) (x0 : PdSt) (d : Nat) : cqRecs (setPdIn s d0 n0 x0) d = cqRecs s d := rfl
@[simp] theorem cqRecs_setEcho (d0 : Nat) (x0 : EchoSt) (d : Nat) : cqRecs (setEcho s d0 x0) d = cqRecs s d := rfl
@[simp] theorem cqRecs_setMemSt (d0 : Nat) (x0 : MemSt) (d : Nat) : cqRecs (setMemSt s d0 x0) d = cqRecs s d := rfl
@[simp] theorem cqRecs_setFenceSt (p0 : Pg) (x0 : FenceSt) (d : Nat) : cqRecs (setFenceSt s p0 x0) d = cqRecs s d := rfl
@[simp] theorem cqRecs_setAxis (d0 a0 : Nat) (x0 : AxisSt) (d : Nat) : cqRecs (setAxis s d0 a0 x0) d = cqRecs s d := rfl
@[simp] theorem cqRecs_setHoist (d0 c0 : Nat) (x0 : HoistSt) (d : Nat) : cqRecs (setHoist s d0 c0 x0) d = cqRecs s d := rfl
@[simp] theorem cqRecs_setAssay (d0 : Nat) (x0 : AssaySt) (d : Nat) : cqRecs (setAssay s d0 x0) d = cqRecs s d := rfl
@[simp] theorem cqRecs_setTherm (d0 : Nat) (x0 : ThermSt) (d : Nat) : cqRecs (setTherm s d0 x0) d = cqRecs s d := rfl
@[simp] theorem cqRecs_setLamp (d0 : Nat) (x0 : LampSt) (d : Nat) : cqRecs (setLamp s d0 x0) d = cqRecs s d := rfl
@[simp] theorem cqRecs_setMbox (d0 n0 : Nat) (x0 : MboxCh) (d : Nat) : cqRecs (setMbox s d0 n0 x0) d = cqRecs s d := rfl
@[simp] theorem cqRecs_setFw (d0 : Nat) (x0 : FwSt) (d : Nat) : cqRecs (setFw s d0 x0) d = cqRecs s d := rfl
@[simp] theorem cqRecs_setBurim (d0 i0 : Nat) (x0 : BurimSt) (d : Nat) : cqRecs (setBurim s d0 i0 x0) d = cqRecs s d := rfl
@[simp] theorem cqRecs_nextFree (d : Nat) : cqRecs (nextFree s) d = cqRecs s d := rfl
@[simp] theorem cqRecs_emit (o0 : Out) (d : Nat) : cqRecs (emit s o0) d = cqRecs s d := rfl
@[simp] theorem assay_wr (p0 : Pg) (off0 : Nat) (v0 : Word) (d : Nat) : assay (wr s p0 off0 v0) d = assay s d := rfl
@[simp] theorem assay_wrShadow (p0 : Pg) (off0 : Nat) (v0 : Word) (d : Nat) : assay (wrShadow s p0 off0 v0) d = assay s d := rfl
@[simp] theorem assay_setDie (d0 : Nat) (x0 : DieSt) (d : Nat) : assay (setDie s d0 x0) d = assay s d := rfl
@[simp] theorem assay_setChute (d0 c0 : Nat) (x0 : ChuteSt) (d : Nat) : assay (setChute s d0 c0 x0) d = assay s d := rfl
@[simp] theorem assay_setCtx (d0 k0 : Nat) (x0 : CtxSt) (d : Nat) : assay (setCtx s d0 k0 x0) d = assay s d := rfl
@[simp] theorem assay_setPort (d0 p0 : Nat) (x0 : PortSt) (d : Nat) : assay (setPort s d0 p0 x0) d = assay s d := rfl
@[simp] theorem assay_setEnc (d0 c0 : Nat) (x0 : EncSt) (d : Nat) : assay (setEnc s d0 c0 x0) d = assay s d := rfl
@[simp] theorem assay_setPdIn (d0 n0 : Nat) (x0 : PdSt) (d : Nat) : assay (setPdIn s d0 n0 x0) d = assay s d := rfl
@[simp] theorem assay_setEcho (d0 : Nat) (x0 : EchoSt) (d : Nat) : assay (setEcho s d0 x0) d = assay s d := rfl
@[simp] theorem assay_setMemSt (d0 : Nat) (x0 : MemSt) (d : Nat) : assay (setMemSt s d0 x0) d = assay s d := rfl
@[simp] theorem assay_setFenceSt (p0 : Pg) (x0 : FenceSt) (d : Nat) : assay (setFenceSt s p0 x0) d = assay s d := rfl
@[simp] theorem assay_setAxis (d0 a0 : Nat) (x0 : AxisSt) (d : Nat) : assay (setAxis s d0 a0 x0) d = assay s d := rfl
@[simp] theorem assay_setHoist (d0 c0 : Nat) (x0 : HoistSt) (d : Nat) : assay (setHoist s d0 c0 x0) d = assay s d := rfl
@[simp] theorem assay_setCqRecs (d0 : Nat) (l0 : List CqRec) (d : Nat) : assay (setCqRecs s d0 l0) d = assay s d := rfl
@[simp] theorem assay_setTherm (d0 : Nat) (x0 : ThermSt) (d : Nat) : assay (setTherm s d0 x0) d = assay s d := rfl
@[simp] theorem assay_setLamp (d0 : Nat) (x0 : LampSt) (d : Nat) : assay (setLamp s d0 x0) d = assay s d := rfl
@[simp] theorem assay_setMbox (d0 n0 : Nat) (x0 : MboxCh) (d : Nat) : assay (setMbox s d0 n0 x0) d = assay s d := rfl
@[simp] theorem assay_setFw (d0 : Nat) (x0 : FwSt) (d : Nat) : assay (setFw s d0 x0) d = assay s d := rfl
@[simp] theorem assay_setBurim (d0 i0 : Nat) (x0 : BurimSt) (d : Nat) : assay (setBurim s d0 i0 x0) d = assay s d := rfl
@[simp] theorem assay_nextFree (d : Nat) : assay (nextFree s) d = assay s d := rfl
@[simp] theorem assay_emit (o0 : Out) (d : Nat) : assay (emit s o0) d = assay s d := rfl
@[simp] theorem therm_wr (p0 : Pg) (off0 : Nat) (v0 : Word) (d : Nat) : therm (wr s p0 off0 v0) d = therm s d := rfl
@[simp] theorem therm_wrShadow (p0 : Pg) (off0 : Nat) (v0 : Word) (d : Nat) : therm (wrShadow s p0 off0 v0) d = therm s d := rfl
@[simp] theorem therm_setDie (d0 : Nat) (x0 : DieSt) (d : Nat) : therm (setDie s d0 x0) d = therm s d := rfl
@[simp] theorem therm_setChute (d0 c0 : Nat) (x0 : ChuteSt) (d : Nat) : therm (setChute s d0 c0 x0) d = therm s d := rfl
@[simp] theorem therm_setCtx (d0 k0 : Nat) (x0 : CtxSt) (d : Nat) : therm (setCtx s d0 k0 x0) d = therm s d := rfl
@[simp] theorem therm_setPort (d0 p0 : Nat) (x0 : PortSt) (d : Nat) : therm (setPort s d0 p0 x0) d = therm s d := rfl
@[simp] theorem therm_setEnc (d0 c0 : Nat) (x0 : EncSt) (d : Nat) : therm (setEnc s d0 c0 x0) d = therm s d := rfl
@[simp] theorem therm_setPdIn (d0 n0 : Nat) (x0 : PdSt) (d : Nat) : therm (setPdIn s d0 n0 x0) d = therm s d := rfl
@[simp] theorem therm_setEcho (d0 : Nat) (x0 : EchoSt) (d : Nat) : therm (setEcho s d0 x0) d = therm s d := rfl
@[simp] theorem therm_setMemSt (d0 : Nat) (x0 : MemSt) (d : Nat) : therm (setMemSt s d0 x0) d = therm s d := rfl
@[simp] theorem therm_setFenceSt (p0 : Pg) (x0 : FenceSt) (d : Nat) : therm (setFenceSt s p0 x0) d = therm s d := rfl
@[simp] theorem therm_setAxis (d0 a0 : Nat) (x0 : AxisSt) (d : Nat) : therm (setAxis s d0 a0 x0) d = therm s d := rfl
@[simp] theorem therm_setHoist (d0 c0 : Nat) (x0 : HoistSt) (d : Nat) : therm (setHoist s d0 c0 x0) d = therm s d := rfl
@[simp] theorem therm_setCqRecs (d0 : Nat) (l0 : List CqRec) (d : Nat) : therm (setCqRecs s d0 l0) d = therm s d := rfl
@[simp] theorem therm_setAssay (d0 : Nat) (x0 : AssaySt) (d : Nat) : therm (setAssay s d0 x0) d = therm s d := rfl
@[simp] theorem therm_setLamp (d0 : Nat) (x0 : LampSt) (d : Nat) : therm (setLamp s d0 x0) d = therm s d := rfl
@[simp] theorem therm_setMbox (d0 n0 : Nat) (x0 : MboxCh) (d : Nat) : therm (setMbox s d0 n0 x0) d = therm s d := rfl
@[simp] theorem therm_setFw (d0 : Nat) (x0 : FwSt) (d : Nat) : therm (setFw s d0 x0) d = therm s d := rfl
@[simp] theorem therm_setBurim (d0 i0 : Nat) (x0 : BurimSt) (d : Nat) : therm (setBurim s d0 i0 x0) d = therm s d := rfl
@[simp] theorem therm_nextFree (d : Nat) : therm (nextFree s) d = therm s d := rfl
@[simp] theorem therm_emit (o0 : Out) (d : Nat) : therm (emit s o0) d = therm s d := rfl
@[simp] theorem lamp_wr (p0 : Pg) (off0 : Nat) (v0 : Word) (d : Nat) : lamp (wr s p0 off0 v0) d = lamp s d := rfl
@[simp] theorem lamp_wrShadow (p0 : Pg) (off0 : Nat) (v0 : Word) (d : Nat) : lamp (wrShadow s p0 off0 v0) d = lamp s d := rfl
@[simp] theorem lamp_setDie (d0 : Nat) (x0 : DieSt) (d : Nat) : lamp (setDie s d0 x0) d = lamp s d := rfl
@[simp] theorem lamp_setChute (d0 c0 : Nat) (x0 : ChuteSt) (d : Nat) : lamp (setChute s d0 c0 x0) d = lamp s d := rfl
@[simp] theorem lamp_setCtx (d0 k0 : Nat) (x0 : CtxSt) (d : Nat) : lamp (setCtx s d0 k0 x0) d = lamp s d := rfl
@[simp] theorem lamp_setPort (d0 p0 : Nat) (x0 : PortSt) (d : Nat) : lamp (setPort s d0 p0 x0) d = lamp s d := rfl
@[simp] theorem lamp_setEnc (d0 c0 : Nat) (x0 : EncSt) (d : Nat) : lamp (setEnc s d0 c0 x0) d = lamp s d := rfl
@[simp] theorem lamp_setPdIn (d0 n0 : Nat) (x0 : PdSt) (d : Nat) : lamp (setPdIn s d0 n0 x0) d = lamp s d := rfl
@[simp] theorem lamp_setEcho (d0 : Nat) (x0 : EchoSt) (d : Nat) : lamp (setEcho s d0 x0) d = lamp s d := rfl
@[simp] theorem lamp_setMemSt (d0 : Nat) (x0 : MemSt) (d : Nat) : lamp (setMemSt s d0 x0) d = lamp s d := rfl
@[simp] theorem lamp_setFenceSt (p0 : Pg) (x0 : FenceSt) (d : Nat) : lamp (setFenceSt s p0 x0) d = lamp s d := rfl
@[simp] theorem lamp_setAxis (d0 a0 : Nat) (x0 : AxisSt) (d : Nat) : lamp (setAxis s d0 a0 x0) d = lamp s d := rfl
@[simp] theorem lamp_setHoist (d0 c0 : Nat) (x0 : HoistSt) (d : Nat) : lamp (setHoist s d0 c0 x0) d = lamp s d := rfl
@[simp] theorem lamp_setCqRecs (d0 : Nat) (l0 : List CqRec) (d : Nat) : lamp (setCqRecs s d0 l0) d = lamp s d := rfl
@[simp] theorem lamp_setAssay (d0 : Nat) (x0 : AssaySt) (d : Nat) : lamp (setAssay s d0 x0) d = lamp s d := rfl
@[simp] theorem lamp_setTherm (d0 : Nat) (x0 : ThermSt) (d : Nat) : lamp (setTherm s d0 x0) d = lamp s d := rfl
@[simp] theorem lamp_setMbox (d0 n0 : Nat) (x0 : MboxCh) (d : Nat) : lamp (setMbox s d0 n0 x0) d = lamp s d := rfl
@[simp] theorem lamp_setFw (d0 : Nat) (x0 : FwSt) (d : Nat) : lamp (setFw s d0 x0) d = lamp s d := rfl
@[simp] theorem lamp_setBurim (d0 i0 : Nat) (x0 : BurimSt) (d : Nat) : lamp (setBurim s d0 i0 x0) d = lamp s d := rfl
@[simp] theorem lamp_nextFree (d : Nat) : lamp (nextFree s) d = lamp s d := rfl
@[simp] theorem lamp_emit (o0 : Out) (d : Nat) : lamp (emit s o0) d = lamp s d := rfl
@[simp] theorem mbox_wr (p0 : Pg) (off0 : Nat) (v0 : Word) (d n : Nat) : mbox (wr s p0 off0 v0) d n = mbox s d n := rfl
@[simp] theorem mbox_wrShadow (p0 : Pg) (off0 : Nat) (v0 : Word) (d n : Nat) : mbox (wrShadow s p0 off0 v0) d n = mbox s d n := rfl
@[simp] theorem mbox_setDie (d0 : Nat) (x0 : DieSt) (d n : Nat) : mbox (setDie s d0 x0) d n = mbox s d n := rfl
@[simp] theorem mbox_setChute (d0 c0 : Nat) (x0 : ChuteSt) (d n : Nat) : mbox (setChute s d0 c0 x0) d n = mbox s d n := rfl
@[simp] theorem mbox_setCtx (d0 k0 : Nat) (x0 : CtxSt) (d n : Nat) : mbox (setCtx s d0 k0 x0) d n = mbox s d n := rfl
@[simp] theorem mbox_setPort (d0 p0 : Nat) (x0 : PortSt) (d n : Nat) : mbox (setPort s d0 p0 x0) d n = mbox s d n := rfl
@[simp] theorem mbox_setEnc (d0 c0 : Nat) (x0 : EncSt) (d n : Nat) : mbox (setEnc s d0 c0 x0) d n = mbox s d n := rfl
@[simp] theorem mbox_setPdIn (d0 n0 : Nat) (x0 : PdSt) (d n : Nat) : mbox (setPdIn s d0 n0 x0) d n = mbox s d n := rfl
@[simp] theorem mbox_setEcho (d0 : Nat) (x0 : EchoSt) (d n : Nat) : mbox (setEcho s d0 x0) d n = mbox s d n := rfl
@[simp] theorem mbox_setMemSt (d0 : Nat) (x0 : MemSt) (d n : Nat) : mbox (setMemSt s d0 x0) d n = mbox s d n := rfl
@[simp] theorem mbox_setFenceSt (p0 : Pg) (x0 : FenceSt) (d n : Nat) : mbox (setFenceSt s p0 x0) d n = mbox s d n := rfl
@[simp] theorem mbox_setAxis (d0 a0 : Nat) (x0 : AxisSt) (d n : Nat) : mbox (setAxis s d0 a0 x0) d n = mbox s d n := rfl
@[simp] theorem mbox_setHoist (d0 c0 : Nat) (x0 : HoistSt) (d n : Nat) : mbox (setHoist s d0 c0 x0) d n = mbox s d n := rfl
@[simp] theorem mbox_setCqRecs (d0 : Nat) (l0 : List CqRec) (d n : Nat) : mbox (setCqRecs s d0 l0) d n = mbox s d n := rfl
@[simp] theorem mbox_setAssay (d0 : Nat) (x0 : AssaySt) (d n : Nat) : mbox (setAssay s d0 x0) d n = mbox s d n := rfl
@[simp] theorem mbox_setTherm (d0 : Nat) (x0 : ThermSt) (d n : Nat) : mbox (setTherm s d0 x0) d n = mbox s d n := rfl
@[simp] theorem mbox_setLamp (d0 : Nat) (x0 : LampSt) (d n : Nat) : mbox (setLamp s d0 x0) d n = mbox s d n := rfl
@[simp] theorem mbox_setFw (d0 : Nat) (x0 : FwSt) (d n : Nat) : mbox (setFw s d0 x0) d n = mbox s d n := rfl
@[simp] theorem mbox_setBurim (d0 i0 : Nat) (x0 : BurimSt) (d n : Nat) : mbox (setBurim s d0 i0 x0) d n = mbox s d n := rfl
@[simp] theorem mbox_nextFree (d n : Nat) : mbox (nextFree s) d n = mbox s d n := rfl
@[simp] theorem mbox_emit (o0 : Out) (d n : Nat) : mbox (emit s o0) d n = mbox s d n := rfl
@[simp] theorem fw_wr (p0 : Pg) (off0 : Nat) (v0 : Word) (d : Nat) : fw (wr s p0 off0 v0) d = fw s d := rfl
@[simp] theorem fw_wrShadow (p0 : Pg) (off0 : Nat) (v0 : Word) (d : Nat) : fw (wrShadow s p0 off0 v0) d = fw s d := rfl
@[simp] theorem fw_setDie (d0 : Nat) (x0 : DieSt) (d : Nat) : fw (setDie s d0 x0) d = fw s d := rfl
@[simp] theorem fw_setChute (d0 c0 : Nat) (x0 : ChuteSt) (d : Nat) : fw (setChute s d0 c0 x0) d = fw s d := rfl
@[simp] theorem fw_setCtx (d0 k0 : Nat) (x0 : CtxSt) (d : Nat) : fw (setCtx s d0 k0 x0) d = fw s d := rfl
@[simp] theorem fw_setPort (d0 p0 : Nat) (x0 : PortSt) (d : Nat) : fw (setPort s d0 p0 x0) d = fw s d := rfl
@[simp] theorem fw_setEnc (d0 c0 : Nat) (x0 : EncSt) (d : Nat) : fw (setEnc s d0 c0 x0) d = fw s d := rfl
@[simp] theorem fw_setPdIn (d0 n0 : Nat) (x0 : PdSt) (d : Nat) : fw (setPdIn s d0 n0 x0) d = fw s d := rfl
@[simp] theorem fw_setEcho (d0 : Nat) (x0 : EchoSt) (d : Nat) : fw (setEcho s d0 x0) d = fw s d := rfl
@[simp] theorem fw_setMemSt (d0 : Nat) (x0 : MemSt) (d : Nat) : fw (setMemSt s d0 x0) d = fw s d := rfl
@[simp] theorem fw_setFenceSt (p0 : Pg) (x0 : FenceSt) (d : Nat) : fw (setFenceSt s p0 x0) d = fw s d := rfl
@[simp] theorem fw_setAxis (d0 a0 : Nat) (x0 : AxisSt) (d : Nat) : fw (setAxis s d0 a0 x0) d = fw s d := rfl
@[simp] theorem fw_setHoist (d0 c0 : Nat) (x0 : HoistSt) (d : Nat) : fw (setHoist s d0 c0 x0) d = fw s d := rfl
@[simp] theorem fw_setCqRecs (d0 : Nat) (l0 : List CqRec) (d : Nat) : fw (setCqRecs s d0 l0) d = fw s d := rfl
@[simp] theorem fw_setAssay (d0 : Nat) (x0 : AssaySt) (d : Nat) : fw (setAssay s d0 x0) d = fw s d := rfl
@[simp] theorem fw_setTherm (d0 : Nat) (x0 : ThermSt) (d : Nat) : fw (setTherm s d0 x0) d = fw s d := rfl
@[simp] theorem fw_setLamp (d0 : Nat) (x0 : LampSt) (d : Nat) : fw (setLamp s d0 x0) d = fw s d := rfl
@[simp] theorem fw_setMbox (d0 n0 : Nat) (x0 : MboxCh) (d : Nat) : fw (setMbox s d0 n0 x0) d = fw s d := rfl
@[simp] theorem fw_setBurim (d0 i0 : Nat) (x0 : BurimSt) (d : Nat) : fw (setBurim s d0 i0 x0) d = fw s d := rfl
@[simp] theorem fw_nextFree (d : Nat) : fw (nextFree s) d = fw s d := rfl
@[simp] theorem fw_emit (o0 : Out) (d : Nat) : fw (emit s o0) d = fw s d := rfl
@[simp] theorem burim_wr (p0 : Pg) (off0 : Nat) (v0 : Word) (d i : Nat) : burim (wr s p0 off0 v0) d i = burim s d i := rfl
@[simp] theorem burim_wrShadow (p0 : Pg) (off0 : Nat) (v0 : Word) (d i : Nat) : burim (wrShadow s p0 off0 v0) d i = burim s d i := rfl
@[simp] theorem burim_setDie (d0 : Nat) (x0 : DieSt) (d i : Nat) : burim (setDie s d0 x0) d i = burim s d i := rfl
@[simp] theorem burim_setChute (d0 c0 : Nat) (x0 : ChuteSt) (d i : Nat) : burim (setChute s d0 c0 x0) d i = burim s d i := rfl
@[simp] theorem burim_setCtx (d0 k0 : Nat) (x0 : CtxSt) (d i : Nat) : burim (setCtx s d0 k0 x0) d i = burim s d i := rfl
@[simp] theorem burim_setPort (d0 p0 : Nat) (x0 : PortSt) (d i : Nat) : burim (setPort s d0 p0 x0) d i = burim s d i := rfl
@[simp] theorem burim_setEnc (d0 c0 : Nat) (x0 : EncSt) (d i : Nat) : burim (setEnc s d0 c0 x0) d i = burim s d i := rfl
@[simp] theorem burim_setPdIn (d0 n0 : Nat) (x0 : PdSt) (d i : Nat) : burim (setPdIn s d0 n0 x0) d i = burim s d i := rfl
@[simp] theorem burim_setEcho (d0 : Nat) (x0 : EchoSt) (d i : Nat) : burim (setEcho s d0 x0) d i = burim s d i := rfl
@[simp] theorem burim_setMemSt (d0 : Nat) (x0 : MemSt) (d i : Nat) : burim (setMemSt s d0 x0) d i = burim s d i := rfl
@[simp] theorem burim_setFenceSt (p0 : Pg) (x0 : FenceSt) (d i : Nat) : burim (setFenceSt s p0 x0) d i = burim s d i := rfl
@[simp] theorem burim_setAxis (d0 a0 : Nat) (x0 : AxisSt) (d i : Nat) : burim (setAxis s d0 a0 x0) d i = burim s d i := rfl
@[simp] theorem burim_setHoist (d0 c0 : Nat) (x0 : HoistSt) (d i : Nat) : burim (setHoist s d0 c0 x0) d i = burim s d i := rfl
@[simp] theorem burim_setCqRecs (d0 : Nat) (l0 : List CqRec) (d i : Nat) : burim (setCqRecs s d0 l0) d i = burim s d i := rfl
@[simp] theorem burim_setAssay (d0 : Nat) (x0 : AssaySt) (d i : Nat) : burim (setAssay s d0 x0) d i = burim s d i := rfl
@[simp] theorem burim_setTherm (d0 : Nat) (x0 : ThermSt) (d i : Nat) : burim (setTherm s d0 x0) d i = burim s d i := rfl
@[simp] theorem burim_setLamp (d0 : Nat) (x0 : LampSt) (d i : Nat) : burim (setLamp s d0 x0) d i = burim s d i := rfl
@[simp] theorem burim_setMbox (d0 n0 : Nat) (x0 : MboxCh) (d i : Nat) : burim (setMbox s d0 n0 x0) d i = burim s d i := rfl
@[simp] theorem burim_setFw (d0 : Nat) (x0 : FwSt) (d i : Nat) : burim (setFw s d0 x0) d i = burim s d i := rfl
@[simp] theorem burim_nextFree (d i : Nat) : burim (nextFree s) d i = burim s d i := rfl
@[simp] theorem burim_emit (o0 : Out) (d i : Nat) : burim (emit s o0) d i = burim s d i := rfl
end

end Sys2Proof.Machine
end

