-- ==== Sys2Proof/Laws/Skips.lean ====
section
/-!
SUPPORT. Reading a part of the state that an operation does not change: a projection that reads none of the fields the
operation may change has the same value after it.
-/

set_option Elab.async false
set_option linter.unusedTactic false
set_option linter.unreachableTactic false
namespace Sys2Proof.Laws

open Sys2Proof.Machine

/-! A projection skips a field when a change of that field does not change it. -/

abbrev Skips.pending {α : Type} (φ : State → α) : Prop := ∀ s v, φ { s with pending := v } = φ s
abbrev Skips.clock {α : Type} (φ : State → α) : Prop := ∀ s v, φ { s with clock := v } = φ s
abbrev Skips.free {α : Type} (φ : State → α) : Prop := ∀ s v, φ { s with free := v } = φ s
abbrev Skips.part {α : Type} (φ : State → α) : Prop := ∀ s v, φ { s with part := v } = φ s
abbrev Skips.regs {α : Type} (φ : State → α) : Prop := ∀ s v, φ { s with regs := v } = φ s
abbrev Skips.shad {α : Type} (φ : State → α) : Prop := ∀ s v, φ { s with shad := v } = φ s
abbrev Skips.gos {α : Type} (φ : State → α) : Prop := ∀ s v, φ { s with gos := v } = φ s
abbrev Skips.hold {α : Type} (φ : State → α) : Prop := ∀ s v, φ { s with hold := v } = φ s
abbrev Skips.ticks {α : Type} (φ : State → α) : Prop := ∀ s v, φ { s with ticks := v } = φ s
abbrev Skips.caps {α : Type} (φ : State → α) : Prop := ∀ s v, φ { s with caps := v } = φ s
abbrev Skips.fences {α : Type} (φ : State → α) : Prop := ∀ s v, φ { s with fences := v } = φ s
abbrev Skips.mem {α : Type} (φ : State → α) : Prop := ∀ s v, φ { s with mem := v } = φ s
abbrev Skips.ecc {α : Type} (φ : State → α) : Prop := ∀ s v, φ { s with ecc := v } = φ s
abbrev Skips.ret {α : Type} (φ : State → α) : Prop := ∀ s v, φ { s with ret := v } = φ s
abbrev Skips.retEcc {α : Type} (φ : State → α) : Prop := ∀ s v, φ { s with retEcc := v } = φ s
abbrev Skips.chutes {α : Type} (φ : State → α) : Prop := ∀ s v, φ { s with chutes := v } = φ s
abbrev Skips.ctxs {α : Type} (φ : State → α) : Prop := ∀ s v, φ { s with ctxs := v } = φ s
abbrev Skips.ports {α : Type} (φ : State → α) : Prop := ∀ s v, φ { s with ports := v } = φ s
abbrev Skips.encs {α : Type} (φ : State → α) : Prop := ∀ s v, φ { s with encs := v } = φ s
abbrev Skips.pds {α : Type} (φ : State → α) : Prop := ∀ s v, φ { s with pds := v } = φ s
abbrev Skips.seamQ {α : Type} (φ : State → α) : Prop := ∀ s v, φ { s with seamQ := v } = φ s
abbrev Skips.echos {α : Type} (φ : State → α) : Prop := ∀ s v, φ { s with echos := v } = φ s
abbrev Skips.mems {α : Type} (φ : State → α) : Prop := ∀ s v, φ { s with mems := v } = φ s
abbrev Skips.msgs {α : Type} (φ : State → α) : Prop := ∀ s v, φ { s with msgs := v } = φ s
abbrev Skips.axes {α : Type} (φ : State → α) : Prop := ∀ s v, φ { s with axes := v } = φ s
abbrev Skips.hoists {α : Type} (φ : State → α) : Prop := ∀ s v, φ { s with hoists := v } = φ s
abbrev Skips.served {α : Type} (φ : State → α) : Prop := ∀ s v, φ { s with served := v } = φ s
abbrev Skips.trigs {α : Type} (φ : State → α) : Prop := ∀ s v, φ { s with trigs := v } = φ s
abbrev Skips.tmrs {α : Type} (φ : State → α) : Prop := ∀ s v, φ { s with tmrs := v } = φ s
abbrev Skips.cqWait {α : Type} (φ : State → α) : Prop := ∀ s v, φ { s with cqWait := v } = φ s
abbrev Skips.cqSeq {α : Type} (φ : State → α) : Prop := ∀ s v, φ { s with cqSeq := v } = φ s
abbrev Skips.assays {α : Type} (φ : State → α) : Prop := ∀ s v, φ { s with assays := v } = φ s
abbrev Skips.therms {α : Type} (φ : State → α) : Prop := ∀ s v, φ { s with therms := v } = φ s
abbrev Skips.lamps {α : Type} (φ : State → α) : Prop := ∀ s v, φ { s with lamps := v } = φ s
abbrev Skips.mboxes {α : Type} (φ : State → α) : Prop := ∀ s v, φ { s with mboxes := v } = φ s
abbrev Skips.fws {α : Type} (φ : State → α) : Prop := ∀ s v, φ { s with fws := v } = φ s
abbrev Skips.tsync {α : Type} (φ : State → α) : Prop := ∀ s v, φ { s with tsync := v } = φ s
abbrev Skips.burims {α : Type} (φ : State → α) : Prop := ∀ s v, φ { s with burims := v } = φ s
abbrev Skips.hops {α : Type} (φ : State → α) : Prop := ∀ s v, φ { s with hops := v } = φ s
abbrev Skips.dies {α : Type} (φ : State → α) : Prop := ∀ s v, φ { s with dies := v } = φ s
abbrev Skips.pkg {α : Type} (φ : State → α) : Prop := ∀ s v, φ { s with pkg := v } = φ s
abbrev Skips.pcie {α : Type} (φ : State → α) : Prop := ∀ s v, φ { s with pcie := v } = φ s
abbrev Skips.resp {α : Type} (φ : State → α) : Prop := ∀ s v, φ { s with resp := v } = φ s
abbrev Skips.out {α : Type} (φ : State → α) : Prop := ∀ s v, φ { s with out := v } = φ s

/-- A projection has a value in a state. -/
def At {α : Type} (φ : State → α) (c : α) (s : State) : Prop := φ s = c

/-- A meaning completes in a state in which a projection has a value. -/
def AnsAt {α : Type} (φ : State → α) (c : α) (o : Host.Outcome State Fault Refusal) : Prop := ∃ t, o = .next t ∧ At φ c t

variable {α₀ : Type} {φ : State → α₀} {c₀ : α₀} {s t : State}

theorem At.step (e : φ t = φ s) (h : At φ c₀ s) : At φ c₀ t := e.trans h

theorem skip_mem_ecc (i : Skips.mem φ) (j : Skips.ecc φ) (s : State) (v : _) (w : _) :
    φ { s with mem := v, ecc := w } = φ s := (j { s with mem := v } w).trans (i s v)

theorem skip_ret_retEcc (i : Skips.ret φ) (j : Skips.retEcc φ) (s : State) (v : _) (w : _) :
    φ { s with ret := v, retEcc := w } = φ s := (j { s with ret := v } w).trans (i s v)

theorem skip_free_out (i : Skips.free φ) (j : Skips.out φ) (s : State) (v : _) (w : _) :
    φ { s with free := v, out := w } = φ s := (j { s with free := v } w).trans (i s v)

theorem skip_pkg_tsync (i : Skips.pkg φ) (j : Skips.tsync φ) (s : State) (v : _) (w : _) :
    φ { s with pkg := v, tsync := w } = φ s := (j { s with pkg := v } w).trans (i s v)

theorem skip_pkg_regs (i : Skips.pkg φ) (j : Skips.regs φ) (s : State) (v : _) (w : _) :
    φ { s with pkg := v, regs := w } = φ s := (j { s with pkg := v } w).trans (i s v)

theorem each_inv {α : Type} {l : List α} {f : State → α → State} (h : At φ c₀ s)
    (hf : ∀ t x, At φ c₀ t → At φ c₀ (f t x)) : At φ c₀ (each l s f) := by
  unfold each
  induction l generalizing s with
  | nil => exact h
  | cons x r ih => exact ih (hf _ _ h)

theorem whenDo_inv {b : Bool} {f : State → State} (h : At φ c₀ s) (hf : ∀ t, At φ c₀ t → At φ c₀ (f t)) :
    At φ c₀ (whenDo b s f) := by
  unfold whenDo; split
  · exact hf _ h
  · exact h

theorem ite_inv {c : Prop} [Decidable c] {x y : State} (hx : At φ c₀ x) (hy : At φ c₀ y) :
    At φ c₀ (if c then x else y) := by
  split
  · exact hx
  · exact hy

theorem pair_inv {α : Type} {x : α × State} {v : α} (e : x = (v, t)) (h : At φ c₀ x.2) : At φ c₀ t := by
  subst e; exact h

theorem trip_inv {α β : Type} {x : α × β × State} {v : α} {w : β} (e : x = (v, w, t)) (h : At φ c₀ x.2.2) :
    At φ c₀ t := by
  subst e; exact h

theorem quad_inv {α β γ : Type} {x : α × β × γ × State} {v : α} {w : β} {z : γ} (e : x = (v, w, z, t))
    (h : At φ c₀ x.2.2.2) : At φ c₀ t := by
  subst e; exact h

theorem ok_ansAt (h : At φ c₀ s) : AnsAt φ c₀ (ok s) := ⟨s, rfl, h⟩

theorem ite_ansAt {c : Prop} [Decidable c] {x y : Host.Outcome State Fault Refusal} (hx : AnsAt φ c₀ x)
    (hy : AnsAt φ c₀ y) : AnsAt φ c₀ (if c then x else y) := by
  split
  · exact hx
  · exact hy

end Sys2Proof.Laws
end

