-- ==== Sys2Proof/Laws/OpsInv.lean ====
section
/-!
SUPPORT. The fields of the state that each operation of `Machine/Ops.lean` may change: whatever reads none of them is the same after it.
-/

set_option Elab.async false
set_option linter.unusedTactic false
set_option linter.unreachableTactic false
namespace Sys2Proof.Laws

open Sys2Proof.Machine

variable {α₀ : Type} {φ : State → α₀} {c₀ : α₀} {s : State}

theorem wr_inv {p : Pg} {off : Nat} {v : Word} (i_regs : Skips.regs φ) (hU : At φ c₀ s) : At φ c₀ (wr s p off v) := by
  unfold wr
  try dsimp only
  repeat' first
    | with_reducible assumption
    | intro _
    | with_reducible apply ite_inv
    | split
    | with_reducible refine At.step (i_regs _ _) ?_

theorem wrShadow_inv {p : Pg} {off : Nat} {v : Word} (i_shad : Skips.shad φ) (hU : At φ c₀ s) : At φ c₀ (wrShadow s p off v) := by
  unfold wrShadow
  try dsimp only
  repeat' first
    | with_reducible assumption
    | intro _
    | with_reducible apply ite_inv
    | split
    | with_reducible refine At.step (i_shad _ _) ?_

theorem wf_inv {p : Pg} {off : Nat} {lo : Nat} {n : Nat} {v : Nat} (i_regs : Skips.regs φ) (hU : At φ c₀ s) : At φ c₀ (wf s p off lo n v) := by
  unfold wf
  try dsimp only
  repeat' first
    | with_reducible assumption
    | intro _
    | with_reducible apply ite_inv
    | with_reducible apply wr_inv
    | split

theorem wb_inv {p : Pg} {off : Nat} {i : Nat} {b : Bool} (i_regs : Skips.regs φ) (hU : At φ c₀ s) : At φ c₀ (wb s p off i b) := by
  unfold wb
  try dsimp only
  repeat' first
    | with_reducible assumption
    | intro _
    | with_reducible apply ite_inv
    | with_reducible apply wr_inv
    | split

theorem wr48_inv {p : Pg} {off : Nat} {v : Nat} (i_regs : Skips.regs φ) (hU : At φ c₀ s) : At φ c₀ (wr48 s p off v) := by
  unfold wr48
  try dsimp only
  repeat' first
    | with_reducible assumption
    | intro _
    | with_reducible apply ite_inv
    | with_reducible apply wr_inv
    | split

theorem wr72_inv {p : Pg} {off : Nat} {v : Nat} (i_regs : Skips.regs φ) (hU : At φ c₀ s) : At φ c₀ (wr72 s p off v) := by
  unfold wr72
  try dsimp only
  repeat' first
    | with_reducible assumption
    | intro _
    | with_reducible apply ite_inv
    | with_reducible apply wr_inv
    | with_reducible apply wr48_inv
    | split

theorem count_inv {p : Pg} {off : Nat} (i_regs : Skips.regs φ) (hU : At φ c₀ s) : At φ c₀ (count s p off) := by
  unfold count
  try dsimp only
  repeat' first
    | with_reducible assumption
    | intro _
    | with_reducible apply ite_inv
    | with_reducible apply wr_inv
    | split

theorem countBy_inv {p : Pg} {off : Nat} {n : Nat} (i_regs : Skips.regs φ) (hU : At φ c₀ s) : At φ c₀ (countBy s p off n) := by
  unfold countBy
  try dsimp only
  repeat' first
    | with_reducible assumption
    | intro _
    | with_reducible apply ite_inv
    | with_reducible apply wr_inv
    | split

theorem setDie_inv {d : Nat} {x : DieSt} (i_dies : Skips.dies φ) (hU : At φ c₀ s) : At φ c₀ (setDie s d x) := by
  unfold setDie
  try dsimp only
  repeat' first
    | with_reducible assumption
    | intro _
    | with_reducible apply ite_inv
    | split
    | with_reducible refine At.step (i_dies _ _) ?_

theorem setChute_inv {d : Nat} {c : Nat} {x : ChuteSt} (i_chutes : Skips.chutes φ) (hU : At φ c₀ s) : At φ c₀ (setChute s d c x) := by
  unfold setChute
  try dsimp only
  repeat' first
    | with_reducible assumption
    | intro _
    | with_reducible apply ite_inv
    | split
    | with_reducible refine At.step (i_chutes _ _) ?_

theorem setCtx_inv {d : Nat} {k : Nat} {x : CtxSt} (i_ctxs : Skips.ctxs φ) (hU : At φ c₀ s) : At φ c₀ (setCtx s d k x) := by
  unfold setCtx
  try dsimp only
  repeat' first
    | with_reducible assumption
    | intro _
    | with_reducible apply ite_inv
    | split
    | with_reducible refine At.step (i_ctxs _ _) ?_

theorem setPort_inv {d : Nat} {p : Nat} {x : PortSt} (i_ports : Skips.ports φ) (hU : At φ c₀ s) : At φ c₀ (setPort s d p x) := by
  unfold setPort
  try dsimp only
  repeat' first
    | with_reducible assumption
    | intro _
    | with_reducible apply ite_inv
    | split
    | with_reducible refine At.step (i_ports _ _) ?_

theorem setEnc_inv {d : Nat} {c : Nat} {x : EncSt} (i_encs : Skips.encs φ) (hU : At φ c₀ s) : At φ c₀ (setEnc s d c x) := by
  unfold setEnc
  try dsimp only
  repeat' first
    | with_reducible assumption
    | intro _
    | with_reducible apply ite_inv
    | split
    | with_reducible refine At.step (i_encs _ _) ?_

theorem setPdIn_inv {d : Nat} {n : Nat} {x : PdSt} (i_pds : Skips.pds φ) (hU : At φ c₀ s) : At φ c₀ (setPdIn s d n x) := by
  unfold setPdIn
  try dsimp only
  repeat' first
    | with_reducible assumption
    | intro _
    | with_reducible apply ite_inv
    | split
    | with_reducible refine At.step (i_pds _ _) ?_

theorem setEcho_inv {d : Nat} {x : EchoSt} (i_echos : Skips.echos φ) (hU : At φ c₀ s) : At φ c₀ (setEcho s d x) := by
  unfold setEcho
  try dsimp only
  repeat' first
    | with_reducible assumption
    | intro _
    | with_reducible apply ite_inv
    | split
    | with_reducible refine At.step (i_echos _ _) ?_

theorem setMemSt_inv {d : Nat} {x : MemSt} (i_mems : Skips.mems φ) (hU : At φ c₀ s) : At φ c₀ (setMemSt s d x) := by
  unfold setMemSt
  try dsimp only
  repeat' first
    | with_reducible assumption
    | intro _
    | with_reducible apply ite_inv
    | split
    | with_reducible refine At.step (i_mems _ _) ?_

theorem setFenceSt_inv {p : Pg} {x : FenceSt} (i_fences : Skips.fences φ) (hU : At φ c₀ s) : At φ c₀ (setFenceSt s p x) := by
  unfold setFenceSt
  try dsimp only
  repeat' first
    | with_reducible assumption
    | intro _
    | with_reducible apply ite_inv
    | split
    | with_reducible refine At.step (i_fences _ _) ?_

theorem setAxis_inv {d : Nat} {a : Nat} {x : AxisSt} (i_axes : Skips.axes φ) (hU : At φ c₀ s) : At φ c₀ (setAxis s d a x) := by
  unfold setAxis
  try dsimp only
  repeat' first
    | with_reducible assumption
    | intro _
    | with_reducible apply ite_inv
    | split
    | with_reducible refine At.step (i_axes _ _) ?_

theorem setHoist_inv {d : Nat} {c : Nat} {x : HoistSt} (i_hoists : Skips.hoists φ) (hU : At φ c₀ s) : At φ c₀ (setHoist s d c x) := by
  unfold setHoist
  try dsimp only
  repeat' first
    | with_reducible assumption
    | intro _
    | with_reducible apply ite_inv
    | split
    | with_reducible refine At.step (i_hoists _ _) ?_

theorem setCqRecs_inv {d : Nat} {l : List CqRec} (i_cqWait : Skips.cqWait φ) (hU : At φ c₀ s) : At φ c₀ (setCqRecs s d l) := by
  unfold setCqRecs
  try dsimp only
  repeat' first
    | with_reducible assumption
    | intro _
    | with_reducible apply ite_inv
    | split
    | with_reducible refine At.step (i_cqWait _ _) ?_

theorem setAssay_inv {d : Nat} {x : AssaySt} (i_assays : Skips.assays φ) (hU : At φ c₀ s) : At φ c₀ (setAssay s d x) := by
  unfold setAssay
  try dsimp only
  repeat' first
    | with_reducible assumption
    | intro _
    | with_reducible apply ite_inv
    | split
    | with_reducible refine At.step (i_assays _ _) ?_

theorem setTherm_inv {d : Nat} {x : ThermSt} (i_therms : Skips.therms φ) (hU : At φ c₀ s) : At φ c₀ (setTherm s d x) := by
  unfold setTherm
  try dsimp only
  repeat' first
    | with_reducible assumption
    | intro _
    | with_reducible apply ite_inv
    | split
    | with_reducible refine At.step (i_therms _ _) ?_

theorem setLamp_inv {d : Nat} {x : LampSt} (i_lamps : Skips.lamps φ) (hU : At φ c₀ s) : At φ c₀ (setLamp s d x) := by
  unfold setLamp
  try dsimp only
  repeat' first
    | with_reducible assumption
    | intro _
    | with_reducible apply ite_inv
    | split
    | with_reducible refine At.step (i_lamps _ _) ?_

theorem setMbox_inv {d : Nat} {n : Nat} {x : MboxCh} (i_mboxes : Skips.mboxes φ) (hU : At φ c₀ s) : At φ c₀ (setMbox s d n x) := by
  unfold setMbox
  try dsimp only
  repeat' first
    | with_reducible assumption
    | intro _
    | with_reducible apply ite_inv
    | split
    | with_reducible refine At.step (i_mboxes _ _) ?_

theorem setFw_inv {d : Nat} {x : FwSt} (i_fws : Skips.fws φ) (hU : At φ c₀ s) : At φ c₀ (setFw s d x) := by
  unfold setFw
  try dsimp only
  repeat' first
    | with_reducible assumption
    | intro _
    | with_reducible apply ite_inv
    | split
    | with_reducible refine At.step (i_fws _ _) ?_

theorem setBurim_inv {d : Nat} {i : Nat} {x : BurimSt} (i_burims : Skips.burims φ) (hU : At φ c₀ s) : At φ c₀ (setBurim s d i x) := by
  unfold setBurim
  try dsimp only
  repeat' first
    | with_reducible assumption
    | intro _
    | with_reducible apply ite_inv
    | split
    | with_reducible refine At.step (i_burims _ _) ?_

theorem setPstate_inv {p : Pg} {st : Nat} (i_regs : Skips.regs φ) (hU : At φ c₀ s) : At φ c₀ (setPstate s p st) := by
  unfold setPstate
  try dsimp only
  repeat' first
    | with_reducible assumption
    | intro _
    | with_reducible apply ite_inv
    | with_reducible apply wf_inv
    | split

theorem resetPage_inv {p : Pg} (i_regs : Skips.regs φ) (i_shad : Skips.shad φ) (i_hold : Skips.hold φ) (hU : At φ c₀ s) :
    At φ c₀ (resetPage s p) :=
  .step (i_hold { s with
    regs := Tbl.drop s.regs fun k => decide (k.1 = p), shad := Tbl.drop s.shad fun k => decide (k.1 = p) } _)
    (.step (i_shad { s with regs := Tbl.drop s.regs fun k => decide (k.1 = p) } _) (.step (i_regs s _) hU))

theorem nextFree_inv (i_free : Skips.free φ) (hU : At φ c₀ s) : At φ c₀ (nextFree s) := by
  unfold nextFree
  try dsimp only
  repeat' first
    | with_reducible assumption
    | intro _
    | with_reducible apply ite_inv
    | split
    | with_reducible refine At.step (i_free _ _) ?_

theorem emit_inv {o : Out} (i_out : Skips.out φ) (hU : At φ c₀ s) : At φ c₀ (emit s o) := by
  unfold emit
  try dsimp only
  repeat' first
    | with_reducible assumption
    | intro _
    | with_reducible apply ite_inv
    | split
    | with_reducible refine At.step (i_out _ _) ?_

end Sys2Proof.Laws
end

