-- ==== Sys2Proof/Laws/FlagsInv.lean ====
section
/-!
SUPPORT. The fields of the state that each operation of `Machine/Flags.lean` may change: whatever reads none of them is the same after it.
-/

set_option Elab.async false
set_option linter.unusedTactic false
set_option linter.unreachableTactic false
namespace Sys2Proof.Laws

open Sys2Proof.Machine

variable {α₀ : Type} {φ : State → α₀} {c₀ : α₀} {s : State}

theorem msix_inv {d : Nat} {v : Nat} (i_pcie : Skips.pcie φ) (i_out : Skips.out φ) (hU : At φ c₀ s) : At φ c₀ (msix s d v) := by
  unfold msix
  try dsimp only
  repeat' first
    | with_reducible assumption
    | intro _
    | with_reducible apply ite_inv
    | with_reducible apply emit_inv
    | split
    | with_reducible refine At.step (i_pcie _ _) ?_

theorem pageMsix_inv {p : Pg} (i_pcie : Skips.pcie φ) (i_out : Skips.out φ) (hU : At φ c₀ s) : At φ c₀ (pageMsix s p) := by
  unfold pageMsix
  try dsimp only
  repeat' first
    | with_reducible assumption
    | intro _
    | with_reducible apply ite_inv
    | with_reducible apply msix_inv
    | split

theorem latch_inv {p : Pg} {m : Word} (i_regs : Skips.regs φ) (i_pcie : Skips.pcie φ) (i_out : Skips.out φ) (hU : At φ c₀ s) : At φ c₀ (latch s p m) := by
  unfold latch
  try dsimp only
  repeat' first
    | with_reducible assumption
    | intro _
    | with_reducible apply ite_inv
    | with_reducible apply wr_inv
    | with_reducible apply whenDo_inv
    | with_reducible apply pageMsix_inv
    | split

theorem raise_inv {p : Pg} {i : Nat} (i_regs : Skips.regs φ) (i_pcie : Skips.pcie φ) (i_out : Skips.out φ) (hU : At φ c₀ s) : At φ c₀ (raise s p i) := by
  unfold raise
  try dsimp only
  repeat' first
    | with_reducible assumption
    | intro _
    | with_reducible apply ite_inv
    | with_reducible apply latch_inv
    | split

theorem setDyn_inv {p : Pg} {i : Nat} {b : Bool} (i_regs : Skips.regs φ) (i_pcie : Skips.pcie φ) (i_out : Skips.out φ) (hU : At φ c₀ s) : At φ c₀ (setDyn s p i b) := by
  unfold setDyn
  try dsimp only
  repeat' first
    | with_reducible assumption
    | intro _
    | with_reducible apply ite_inv
    | with_reducible apply whenDo_inv
    | with_reducible apply wb_inv
    | with_reducible apply raise_inv
    | split

theorem hoistSource_inv {d : Nat} {src : Nat} {idx : Nat} {evt : Nat} (i_trigs : Skips.trigs φ) (hU : At φ c₀ s) : At φ c₀ (hoistSource s d src idx evt) := by
  unfold hoistSource
  try dsimp only
  repeat' first
    | with_reducible assumption
    | intro _
    | with_reducible apply ite_inv
    | split
    | with_reducible refine At.step (i_trigs _ _) ?_

theorem outQueued_inv {d : Nat} {sec : Bool} {n : Nat} (i_regs : Skips.regs φ) (hU : At φ c₀ s) : At φ c₀ (outQueued s d sec n) := by
  unfold outQueued
  try dsimp only
  repeat' first
    | with_reducible assumption
    | intro _
    | with_reducible apply ite_inv
    | with_reducible apply wf_inv
    | split

theorem noticeOn_inv {d : Nat} {sec : Bool} {n : Nat} {code : Nat} {args : List Word} (i_regs : Skips.regs φ) (i_mboxes : Skips.mboxes φ) (i_pcie : Skips.pcie φ) (i_out : Skips.out φ) (hU : At φ c₀ s) : At φ c₀ (noticeOn s d sec n code args) := by
  unfold noticeOn
  try dsimp only
  repeat' first
    | with_reducible assumption
    | intro _
    | with_reducible apply ite_inv
    | with_reducible apply raise_inv
    | with_reducible apply count_inv
    | with_reducible apply outQueued_inv
    | with_reducible apply setMbox_inv
    | split

theorem notice_inv {d : Nat} {n : Nat} {code : Nat} {args : List Word} (i_regs : Skips.regs φ) (i_mboxes : Skips.mboxes φ) (i_pcie : Skips.pcie φ) (i_out : Skips.out φ) (hU : At φ c₀ s) : At φ c₀ (notice s d n code args) := by
  unfold notice
  try dsimp only
  repeat' first
    | with_reducible assumption
    | intro _
    | with_reducible apply ite_inv
    | with_reducible apply noticeOn_inv
    | split

theorem logErr_inv {r : Req} {p : Pg} {off : Nat} {write : Bool} {code : Nat} (i_regs : Skips.regs φ) (hU : At φ c₀ s) : At φ c₀ (logErr s r p off write code) := by
  unfold logErr
  try dsimp only
  repeat' first
    | with_reducible assumption
    | intro _
    | with_reducible apply ite_inv
    | with_reducible apply wb_inv
    | with_reducible apply wr_inv
    | split

theorem ctxEvt_inv {d : Nat} {k : Nat} {i : Nat} (i_regs : Skips.regs φ) (i_trigs : Skips.trigs φ) (i_pcie : Skips.pcie φ) (i_out : Skips.out φ) (hU : At φ c₀ s) : At φ c₀ (ctxEvt s d k i) := by
  unfold ctxEvt
  try dsimp only
  repeat' first
    | with_reducible assumption
    | intro _
    | with_reducible apply ite_inv
    | with_reducible apply hoistSource_inv
    | with_reducible apply wr_inv
    | with_reducible apply whenDo_inv
    | with_reducible apply setDyn_inv
    | split

end Sys2Proof.Laws
end

