-- ==== Sys2Proof/Laws/SecCoreInv.lean ====
section
/-!
SUPPORT. The fields of the state that each operation of `Machine/SecCore.lean` may change: whatever reads none of them is the same after it.
-/

set_option Elab.async false
set_option linter.unusedTactic false
set_option linter.unreachableTactic false
namespace Sys2Proof.Laws

open Sys2Proof.Machine

variable {α₀ : Type} {φ : State → α₀} {c₀ : α₀} {s : State}

theorem noFwFollow_inv (i_pkg : Skips.pkg φ) (hU : At φ c₀ s) : At φ c₀ (noFwFollow s) := by
  unfold noFwFollow
  try dsimp only
  repeat' first
    | with_reducible assumption
    | intro _
    | with_reducible apply ite_inv
    | split
    | with_reducible refine At.step (i_pkg _ _) ?_

theorem allowedFollow_inv (i_regs : Skips.regs φ) (i_pkg : Skips.pkg φ) (i_pcie : Skips.pcie φ) (i_out : Skips.out φ) (hU : At φ c₀ s) : At φ c₀ (allowedFollow s) := by
  unfold allowedFollow
  try dsimp only
  repeat' first
    | with_reducible assumption
    | intro _
    | with_reducible apply ite_inv
    | with_reducible apply noFwFollow_inv
    | with_reducible apply raise_inv
    | with_reducible apply wr_inv
    | split

theorem injFollow_inv {d : Nat} (i_regs : Skips.regs φ) (i_pcie : Skips.pcie φ) (i_out : Skips.out φ) (hU : At φ c₀ s) : At φ c₀ (injFollow s d) := by
  unfold injFollow
  try dsimp only
  repeat' first
    | with_reducible assumption
    | intro _
    | with_reducible apply ite_inv
    | with_reducible apply raise_inv
    | with_reducible apply wb_inv
    | with_reducible apply setDyn_inv
    | split

theorem dbgClose_inv {d : Nat} (i_regs : Skips.regs φ) (i_dies : Skips.dies φ) (i_pkg : Skips.pkg φ) (i_pcie : Skips.pcie φ) (i_out : Skips.out φ) (hU : At φ c₀ s) : At φ c₀ (dbgClose s d) := by
  unfold dbgClose
  try dsimp only
  repeat' first
    | with_reducible assumption
    | intro _
    | with_reducible apply ite_inv
    | with_reducible apply wb_inv
    | with_reducible apply setDie_inv
    | with_reducible apply allowedFollow_inv
    | with_reducible apply raise_inv
    | split

theorem sessClose_inv {d : Nat} (i_regs : Skips.regs φ) (i_dies : Skips.dies φ) (i_pcie : Skips.pcie φ) (i_out : Skips.out φ) (hU : At φ c₀ s) : At φ c₀ (sessClose s d) := by
  unfold sessClose
  try dsimp only
  repeat' first
    | with_reducible assumption
    | intro _
    | with_reducible apply ite_inv
    | with_reducible apply raise_inv
    | with_reducible apply wf_inv
    | with_reducible apply setDie_inv
    | split

theorem injPick_inv {d : Nat} {cls : Nat} {dir : Nat} {t : Nat} (i_regs : Skips.regs φ) (i_dies : Skips.dies φ) (i_pcie : Skips.pcie φ) (i_out : Skips.out φ) (hU : At φ c₀ s) : At φ c₀ (injPick s d cls dir t).2 := by
  unfold injPick
  try dsimp only
  repeat' first
    | with_reducible assumption
    | intro _
    | with_reducible apply ite_inv
    | with_reducible apply setDie_inv
    | with_reducible apply wr_inv
    | with_reducible apply raise_inv
    | with_reducible apply count_inv
    | with_reducible apply whenDo_inv
    | split

end Sys2Proof.Laws
end

