-- ==== Sys2Proof/Laws/AxisCoreInv.lean ====
section
/-!
SUPPORT. The fields of the state that each operation of `Machine/AxisCore.lean` may change: whatever reads none of them is the same after it.
-/

set_option Elab.async false
set_option linter.unusedTactic false
set_option linter.unreachableTactic false
namespace Sys2Proof.Laws

open Sys2Proof.Machine

variable {α₀ : Type} {φ : State → α₀} {c₀ : α₀} {s : State}

theorem setMstate_inv {d : Nat} {a : Nat} {m : Nat} (i_regs : Skips.regs φ) (hU : At φ c₀ s) : At φ c₀ (setMstate s d a m) := by
  unfold setMstate
  try dsimp only
  repeat' first
    | with_reducible assumption
    | intro _
    | with_reducible apply ite_inv
    | with_reducible apply wf_inv
    | split

theorem setHphase_inv {d : Nat} {a : Nat} {h : Nat} (i_regs : Skips.regs φ) (hU : At φ c₀ s) : At φ c₀ (setHphase s d a h) := by
  unfold setHphase
  try dsimp only
  repeat' first
    | with_reducible assumption
    | intro _
    | with_reducible apply ite_inv
    | with_reducible apply wf_inv
    | split

theorem setPosValid_inv {d : Nat} {a : Nat} {b : Bool} (i_regs : Skips.regs φ) (hU : At φ c₀ s) : At φ c₀ (setPosValid s d a b) := by
  unfold setPosValid
  try dsimp only
  repeat' first
    | with_reducible assumption
    | intro _
    | with_reducible apply ite_inv
    | with_reducible apply wb_inv
    | split

end Sys2Proof.Laws
end

