-- ==== Sys2Proof/Laws/ChuteInv.lean ====
section
/-!
SUPPORT. The fields of the state that each operation of `Machine/Chute.lean` may change: whatever reads none of them is the same after it.
-/

set_option Elab.async false
set_option linter.unusedTactic false
set_option linter.unreachableTactic false
namespace Sys2Proof.Laws

open Sys2Proof.Machine

variable {α₀ : Type} {φ : State → α₀} {c₀ : α₀} {s : State}

theorem cgFollow_inv {d : Nat} (i_regs : Skips.regs φ) (i_pcie : Skips.pcie φ) (i_out : Skips.out φ) (hU : At φ c₀ s) : At φ c₀ (cgFollow s d) := by
  unfold cgFollow
  try dsimp only
  repeat' first
    | with_reducible assumption
    | intro _
    | with_reducible apply ite_inv
    | with_reducible apply whenDo_inv
    | with_reducible apply setDyn_inv
    | split

theorem chuteFollow_inv {d : Nat} {c : Nat} (i_regs : Skips.regs φ) (i_trigs : Skips.trigs φ) (i_pcie : Skips.pcie φ) (i_out : Skips.out φ) (hU : At φ c₀ s) : At φ c₀ (chuteFollow s d c) := by
  unfold chuteFollow
  try dsimp only
  repeat' first
    | with_reducible assumption
    | intro _
    | with_reducible apply ite_inv
    | with_reducible apply cgFollow_inv
    | with_reducible apply whenDo_inv
    | with_reducible apply setDyn_inv
    | with_reducible apply hoistSource_inv
    | split

theorem chuteEvt_inv {d : Nat} {c : Nat} {i : Nat} {g : Nat} (i_regs : Skips.regs φ) (i_pcie : Skips.pcie φ) (i_out : Skips.out φ) (hU : At φ c₀ s) : At φ c₀ (chuteEvt s d c i g) := by
  unfold chuteEvt
  try dsimp only
  repeat' first
    | with_reducible assumption
    | intro _
    | with_reducible apply ite_inv
    | with_reducible apply raise_inv
    | with_reducible apply whenDo_inv
    | split

theorem chuteCount_inv {d : Nat} {c : Nat} {off : Nat} {total : Nat} (i_regs : Skips.regs φ) (hU : At φ c₀ s) : At φ c₀ (chuteCount s d c off total) := by
  unfold chuteCount
  try dsimp only
  repeat' first
    | with_reducible assumption
    | intro _
    | with_reducible apply ite_inv
    | with_reducible apply count_inv
    | with_reducible apply whenDo_inv
    | split

theorem chuteLost_inv {d : Nat} {c : Nat} (i_regs : Skips.regs φ) (i_pcie : Skips.pcie φ) (i_out : Skips.out φ) (hU : At φ c₀ s) : At φ c₀ (chuteLost s d c) := by
  unfold chuteLost
  try dsimp only
  repeat' first
    | with_reducible assumption
    | intro _
    | with_reducible apply ite_inv
    | with_reducible apply chuteEvt_inv
    | with_reducible apply chuteCount_inv
    | split

theorem spotted_inv {d : Nat} {c : Nat} (i_regs : Skips.regs φ) (i_pcie : Skips.pcie φ) (i_out : Skips.out φ) (hU : At φ c₀ s) : At φ c₀ (spotted s d c) := by
  unfold spotted
  try dsimp only
  repeat' first
    | with_reducible assumption
    | intro _
    | with_reducible apply ite_inv
    | with_reducible apply chuteEvt_inv
    | with_reducible apply chuteCount_inv
    | split

theorem spotGone_inv {d : Nat} {c : Nat} {ws : List CWord} (i_regs : Skips.regs φ) (i_pcie : Skips.pcie φ) (i_out : Skips.out φ) (hU : At φ c₀ s) : At φ c₀ (spotGone s d c ws) := by
  unfold spotGone
  try dsimp only
  repeat' first
    | with_reducible assumption
    | intro _
    | with_reducible apply ite_inv
    | with_reducible apply each_inv
    | with_reducible apply spotted_inv
    | split

theorem chuteLostN_inv {x0 : Nat} {x2 : Nat} {x3 : Nat} (i_regs : Skips.regs φ) (i_pcie : Skips.pcie φ) (i_out : Skips.out φ) (hU : At φ c₀ s) : At φ c₀ (chuteLostN x0 s x2 x3) := by
  induction x0 generalizing s x2 x3 with
  | zero => exact hU
  | succ n ih =>
    unfold chuteLostN
    try dsimp only
    repeat' first
      | with_reducible assumption
      | intro _
      | with_reducible apply ih
      | with_reducible apply ite_inv
      | with_reducible apply chuteLost_inv
      | split

theorem chuteRoom_inv {d : Nat} {c : Nat} {n : Nat} (i_regs : Skips.regs φ) (i_chutes : Skips.chutes φ) (i_pcie : Skips.pcie φ) (i_out : Skips.out φ) (hU : At φ c₀ s) : At φ c₀ (chuteRoom s d c n) := by
  unfold chuteRoom
  try dsimp only
  repeat' first
    | with_reducible assumption
    | intro _
    | with_reducible apply ite_inv
    | with_reducible apply spotGone_inv
    | with_reducible apply chuteLostN_inv
    | with_reducible apply setChute_inv
    | split

theorem chuteRoomTail_inv {d : Nat} {c : Nat} (i_regs : Skips.regs φ) (i_chutes : Skips.chutes φ) (i_pcie : Skips.pcie φ) (i_out : Skips.out φ) (hU : At φ c₀ s) : At φ c₀ (chuteRoomTail s d c) := by
  unfold chuteRoomTail
  try dsimp only
  repeat' first
    | with_reducible assumption
    | intro _
    | with_reducible apply ite_inv
    | with_reducible apply spotGone_inv
    | with_reducible apply chuteLostN_inv
    | with_reducible apply setChute_inv
    | split

theorem chuteRecord_inv {d : Nat} {c : Nat} {ws : List Word} (i_regs : Skips.regs φ) (i_chutes : Skips.chutes φ) (i_trigs : Skips.trigs φ) (i_pcie : Skips.pcie φ) (i_out : Skips.out φ) (hU : At φ c₀ s) : At φ c₀ (chuteRecord s d c ws) := by
  unfold chuteRecord
  try dsimp only
  repeat' first
    | with_reducible assumption
    | intro _
    | with_reducible apply ite_inv
    | with_reducible apply chuteRoom_inv
    | with_reducible apply chuteFollow_inv
    | with_reducible apply setChute_inv
    | with_reducible apply chuteLost_inv
    | split

theorem mirrorWrite_inv {d : Nat} {c : Nat} (i_chutes : Skips.chutes φ) (i_out : Skips.out φ) (hU : At φ c₀ s) : At φ c₀ (mirrorWrite s d c) := by
  unfold mirrorWrite
  try dsimp only
  repeat' first
    | with_reducible assumption
    | intro _
    | with_reducible apply ite_inv
    | with_reducible apply setChute_inv
    | with_reducible apply emit_inv
    | split

theorem mirrorFollow_inv {d : Nat} {c : Nat} (i_chutes : Skips.chutes φ) (i_out : Skips.out φ) (hU : At φ c₀ s) : At φ c₀ (mirrorFollow s d c) := by
  unfold mirrorFollow
  try dsimp only
  repeat' first
    | with_reducible assumption
    | intro _
    | with_reducible apply ite_inv
    | with_reducible apply mirrorWrite_inv
    | split

theorem creditBack_inv {d : Nat} {c : Nat} {n : Nat} (i_chutes : Skips.chutes φ) (i_out : Skips.out φ) (hU : At φ c₀ s) : At φ c₀ (creditBack s d c n) := by
  unfold creditBack
  try dsimp only
  repeat' first
    | with_reducible assumption
    | intro _
    | with_reducible apply ite_inv
    | with_reducible apply mirrorFollow_inv
    | with_reducible apply setChute_inv
    | split

theorem headTake_inv {d : Nat} {c : Nat} (i_regs : Skips.regs φ) (i_chutes : Skips.chutes φ) (i_trigs : Skips.trigs φ) (i_pcie : Skips.pcie φ) (i_out : Skips.out φ) (hU : At φ c₀ s) : At φ c₀ (headTake s d c).2 := by
  unfold headTake
  try dsimp only
  repeat' first
    | with_reducible assumption
    | intro _
    | with_reducible apply ite_inv
    | with_reducible apply setChute_inv
    | with_reducible apply raise_inv
    | with_reducible apply chuteCount_inv
    | with_reducible apply spotted_inv
    | with_reducible apply chuteFollow_inv
    | with_reducible apply creditBack_inv
    | split

theorem chuteAppend_inv {d : Nat} {c : Nat} {ws : List CWord} (i_regs : Skips.regs φ) (i_chutes : Skips.chutes φ) (i_trigs : Skips.trigs φ) (i_pcie : Skips.pcie φ) (i_out : Skips.out φ) (hU : At φ c₀ s) : At φ c₀ (chuteAppend s d c ws) := by
  unfold chuteAppend
  try dsimp only
  repeat' first
    | with_reducible assumption
    | intro _
    | with_reducible apply ite_inv
    | with_reducible apply setChute_inv
    | with_reducible apply chuteFollow_inv
    | with_reducible apply creditBack_inv
    | split

theorem chuteStart_inv {d : Nat} {c : Nat} (i_regs : Skips.regs φ) (i_chutes : Skips.chutes φ) (i_trigs : Skips.trigs φ) (i_pcie : Skips.pcie φ) (i_out : Skips.out φ) (hU : At φ c₀ s) : At φ c₀ (chuteStart s d c) := by
  unfold chuteStart
  try dsimp only
  repeat' first
    | with_reducible assumption
    | intro _
    | with_reducible apply ite_inv
    | with_reducible apply setChute_inv
    | with_reducible apply whenDo_inv
    | with_reducible apply chuteEvt_inv
    | with_reducible apply chuteFollow_inv
    | with_reducible apply mirrorWrite_inv
    | split

end Sys2Proof.Laws
end

