-- ==== Sys2Proof/Laws/HoistCoreInv.lean ====
section
/-!
SUPPORT. The fields of the state that each operation of `Machine/HoistCore.lean` may change: whatever reads none of them is the same after it.
-/

set_option Elab.async false
set_option linter.unusedTactic false
set_option linter.unreachableTactic false
namespace Sys2Proof.Laws

open Sys2Proof.Machine

variable {α₀ : Type} {φ : State → α₀} {c₀ : α₀} {s : State}

theorem setHcA_inv {d : Nat} {c : Nat} {a : Nat} {addr : Nat} {host : Bool} (i_regs : Skips.regs φ) (hU : At φ c₀ s) : At φ c₀ (setHcA s d c a addr host) := by
  unfold setHcA
  try dsimp only
  repeat' first
    | with_reducible assumption
    | intro _
    | with_reducible apply ite_inv
    | with_reducible apply wr_inv
    | with_reducible apply wr48_inv
    | split

theorem unreserve_inv {d : Nat} {b : Burst} (i_regs : Skips.regs φ) (i_chutes : Skips.chutes φ) (i_trigs : Skips.trigs φ) (i_pcie : Skips.pcie φ) (i_out : Skips.out φ) (hU : At φ c₀ s) : At φ c₀ (unreserve s d b) := by
  unfold unreserve
  try dsimp only
  repeat' first
    | with_reducible assumption
    | intro _
    | with_reducible apply ite_inv
    | with_reducible apply chuteFollow_inv
    | with_reducible apply setChute_inv
    | split

theorem heldForget_inv {d : Nat} {q : Nat} (i_hoists : Skips.hoists φ) (hU : At φ c₀ s) : At φ c₀ (heldForget s d q) := by
  unfold heldForget
  try dsimp only
  repeat' first
    | with_reducible assumption
    | intro _
    | with_reducible apply ite_inv
    | with_reducible apply each_inv
    | with_reducible apply setHoist_inv
    | split

theorem hcDrop_inv {d : Nat} {c : Nat} (i_regs : Skips.regs φ) (i_chutes : Skips.chutes φ) (i_hoists : Skips.hoists φ) (i_trigs : Skips.trigs φ) (i_pcie : Skips.pcie φ) (i_out : Skips.out φ) (hU : At φ c₀ s) : At φ c₀ (hcDrop s d c) := by
  unfold hcDrop
  try dsimp only
  repeat' first
    | with_reducible assumption
    | intro _
    | with_reducible apply ite_inv
    | with_reducible apply setHoist_inv
    | with_reducible apply each_inv
    | with_reducible apply unreserve_inv
    | split
    | with_reducible refine At.step (i_pcie _ _) ?_

theorem hcUnhold_inv {d : Nat} {c : Nat} (i_regs : Skips.regs φ) (i_chutes : Skips.chutes φ) (i_hoists : Skips.hoists φ) (i_trigs : Skips.trigs φ) (i_pcie : Skips.pcie φ) (i_out : Skips.out φ) (hU : At φ c₀ s) : At φ c₀ (hcUnhold s d c) := by
  unfold hcUnhold
  try dsimp only
  repeat' first
    | with_reducible assumption
    | intro _
    | with_reducible apply ite_inv
    | with_reducible apply each_inv
    | with_reducible apply setHoist_inv
    | with_reducible apply unreserve_inv
    | split

theorem cqFollow_inv {d : Nat} {q : Nat} {kept : Bool} (i_regs : Skips.regs φ) (i_pcie : Skips.pcie φ) (i_out : Skips.out φ) (hU : At φ c₀ s) : At φ c₀ (cqFollow s d q kept) := by
  unfold cqFollow
  try dsimp only
  repeat' first
    | with_reducible assumption
    | intro _
    | with_reducible apply ite_inv
    | with_reducible apply setDyn_inv
    | split

theorem cqAppend_inv {d : Nat} {c : Nat} {kind : Nat} {code : Nat} {q : Nat} {instr : Bool} (i_regs : Skips.regs φ) (i_cqWait : Skips.cqWait φ) (i_pcie : Skips.pcie φ) (i_out : Skips.out φ) (hU : At φ c₀ s) : At φ c₀ (cqAppend s d c kind code q instr) := by
  unfold cqAppend
  try dsimp only
  repeat' first
    | with_reducible assumption
    | intro _
    | with_reducible apply ite_inv
    | with_reducible apply cqFollow_inv
    | with_reducible apply setCqRecs_inv
    | split

theorem hcUnsig_inv {d : Nat} {c : Nat} (i_regs : Skips.regs φ) (i_hoists : Skips.hoists φ) (i_cqWait : Skips.cqWait φ) (i_pcie : Skips.pcie φ) (i_out : Skips.out φ) (hU : At φ c₀ s) : At φ c₀ (hcUnsig s d c) := by
  unfold hcUnsig
  try dsimp only
  repeat' first
    | with_reducible assumption
    | intro _
    | with_reducible apply ite_inv
    | with_reducible apply setCqRecs_inv
    | with_reducible apply setHoist_inv
    | with_reducible apply each_inv
    | with_reducible apply cqFollow_inv
    | split

theorem errRecord_inv {d : Nat} {c : Nat} {kind : Nat} {code : Nat} (i_regs : Skips.regs φ) (i_cqWait : Skips.cqWait φ) (i_pcie : Skips.pcie φ) (i_out : Skips.out φ) (hU : At φ c₀ s) : At φ c₀ (errRecord s d c kind code) := by
  unfold errRecord
  try dsimp only
  repeat' first
    | with_reducible assumption
    | intro _
    | with_reducible apply ite_inv
    | with_reducible apply cqAppend_inv
    | split

theorem hcFinish_inv {d : Nat} {c : Nat} {w : Word} (i_regs : Skips.regs φ) (i_hoists : Skips.hoists φ) (i_trigs : Skips.trigs φ) (i_pcie : Skips.pcie φ) (i_out : Skips.out φ) (hU : At φ c₀ s) : At φ c₀ (hcFinish s d c w) := by
  unfold hcFinish
  try dsimp only
  repeat' first
    | with_reducible assumption
    | intro _
    | with_reducible apply ite_inv
    | with_reducible apply setHoist_inv
    | with_reducible apply raise_inv
    | with_reducible apply hoistSource_inv
    | with_reducible apply whenDo_inv
    | split

theorem cqDone_inv {d : Nat} {r : CqRec} (i_regs : Skips.regs φ) (i_hoists : Skips.hoists φ) (i_trigs : Skips.trigs φ) (i_cqWait : Skips.cqWait φ) (i_pcie : Skips.pcie φ) (i_out : Skips.out φ) (hU : At φ c₀ s) : At φ c₀ (cqDone s d r) := by
  unfold cqDone
  try dsimp only
  repeat' first
    | with_reducible assumption
    | intro _
    | with_reducible apply ite_inv
    | with_reducible apply cqFollow_inv
    | with_reducible apply setCqRecs_inv
    | with_reducible apply hcFinish_inv
    | split

theorem cqWrite_inv {d : Nat} {q : Nat} (i_regs : Skips.regs φ) (i_hoists : Skips.hoists φ) (i_trigs : Skips.trigs φ) (i_cqWait : Skips.cqWait φ) (i_cqSeq : Skips.cqSeq φ) (i_pcie : Skips.pcie φ) (i_out : Skips.out φ) (hU : At φ c₀ s) : At φ c₀ (cqWrite s d q) := by
  unfold cqWrite
  try dsimp only
  repeat' first
    | with_reducible assumption
    | intro _
    | with_reducible apply ite_inv
    | with_reducible apply cqDone_inv
    | with_reducible apply emit_inv
    | with_reducible apply wr_inv
    | with_reducible apply raise_inv
    | split
    | with_reducible refine At.step (i_cqSeq _ _) ?_

end Sys2Proof.Laws
end

