-- ==== Sys2Proof/Laws/MemoryInv.lean ====
section
/-!
SUPPORT. The fields of the state that each operation of `Machine/Memory.lean` may change: whatever reads none of them is the same after it.
-/

set_option Elab.async false
set_option linter.unusedTactic false
set_option linter.unreachableTactic false
namespace Sys2Proof.Laws

open Sys2Proof.Machine

variable {α₀ : Type} {φ : State → α₀} {c₀ : α₀} {s : State}

theorem logRecord_inv {d : Nat} {cd : Nat} {x : Rec} (i_regs : Skips.regs φ) (i_chutes : Skips.chutes φ) (i_trigs : Skips.trigs φ) (i_dies : Skips.dies φ) (i_pcie : Skips.pcie φ) (i_out : Skips.out φ) (hU : At φ c₀ s) : At φ c₀ (logRecord s d cd x) := by
  unfold logRecord
  try dsimp only
  repeat' first
    | with_reducible assumption
    | intro _
    | with_reducible apply ite_inv
    | with_reducible apply count_inv
    | with_reducible apply setDie_inv
    | with_reducible apply chuteRecord_inv
    | split

theorem wrWord_inv {a : Nat} {w : Word} (i_mem : Skips.mem φ) (i_ecc : Skips.ecc φ) (hU : At φ c₀ s) : At φ c₀ (wrWord s a w) := by
  unfold wrWord
  try dsimp only
  repeat' first
    | with_reducible assumption
    | intro _
    | with_reducible apply ite_inv
    | split
    | with_reducible refine At.step (skip_mem_ecc i_mem i_ecc _ _ _) ?_
    | with_reducible refine At.step (i_ecc _ _) ?_
    | with_reducible refine At.step (i_mem _ _) ?_

theorem poisonWord_inv {a : Nat} (i_ecc : Skips.ecc φ) (hU : At φ c₀ s) : At φ c₀ (poisonWord s a) := by
  unfold poisonWord
  try dsimp only
  repeat' first
    | with_reducible assumption
    | intro _
    | with_reducible apply ite_inv
    | split
    | with_reducible refine At.step (i_ecc _ _) ?_

theorem reportBad_inv {d : Nat} {dps : Bool} {w : Nat} {src : Nat} {eff : Option Link} {reason : Nat} (i_regs : Skips.regs φ) (i_chutes : Skips.chutes φ) (i_mems : Skips.mems φ) (i_trigs : Skips.trigs φ) (i_dies : Skips.dies φ) (i_pcie : Skips.pcie φ) (i_out : Skips.out φ) (hU : At φ c₀ s) : At φ c₀ (reportBad s d dps w src eff reason) := by
  unfold reportBad
  try dsimp only
  repeat' first
    | with_reducible assumption
    | intro _
    | with_reducible apply ite_inv
    | with_reducible apply wr48_inv
    | with_reducible apply wr_inv
    | with_reducible apply raise_inv
    | with_reducible apply count_inv
    | with_reducible apply logRecord_inv
    | with_reducible apply whenDo_inv
    | with_reducible apply setMemSt_inv
    | split

theorem readWord_inv {d : Nat} {dps : Bool} {w : Nat} {src : Nat} {eff : Option Link} {reason : Nat} (i_regs : Skips.regs φ) (i_ecc : Skips.ecc φ) (i_chutes : Skips.chutes φ) (i_mems : Skips.mems φ) (i_trigs : Skips.trigs φ) (i_dies : Skips.dies φ) (i_pcie : Skips.pcie φ) (i_out : Skips.out φ) (hU : At φ c₀ s) : At φ c₀ (readWord s d dps w src eff reason).2.2 := by
  unfold readWord
  try dsimp only
  repeat' first
    | with_reducible assumption
    | intro _
    | with_reducible apply ite_inv
    | with_reducible apply raise_inv
    | with_reducible apply count_inv
    | with_reducible apply reportBad_inv
    | split
    | with_reducible refine At.step (i_ecc _ _) ?_

theorem readWords_inv {x0 : Nat} {x2 : Nat} {x3 : Bool} {x4 : Nat} {x5 : Nat} {x6 : Option Link} {x7 : Nat} (i_regs : Skips.regs φ) (i_ecc : Skips.ecc φ) (i_chutes : Skips.chutes φ) (i_mems : Skips.mems φ) (i_trigs : Skips.trigs φ) (i_dies : Skips.dies φ) (i_pcie : Skips.pcie φ) (i_out : Skips.out φ) (hU : At φ c₀ s) : At φ c₀ (readWords x0 s x2 x3 x4 x5 x6 x7).2.2 := by
  induction x0 generalizing s x2 x3 x4 x5 x6 x7 with
  | zero => exact hU
  | succ n ih =>
    unfold readWords
    try dsimp only
    repeat' first
      | with_reducible assumption
      | intro _
      | with_reducible apply ih
      | with_reducible apply ite_inv
      | with_reducible apply readWord_inv
      | (with_reducible refine trip_inv (by assumption) ?_)
      | split

theorem spillRead_inv {d : Nat} {c : Nat} {i : Nat} (i_free : Skips.free φ) (i_regs : Skips.regs φ) (i_ecc : Skips.ecc φ) (i_chutes : Skips.chutes φ) (i_mems : Skips.mems φ) (i_trigs : Skips.trigs φ) (i_dies : Skips.dies φ) (i_pcie : Skips.pcie φ) (i_out : Skips.out φ) (hU : At φ c₀ s) : At φ c₀ (spillRead s d c i) := by
  unfold spillRead
  try dsimp only
  repeat' first
    | with_reducible assumption
    | intro _
    | with_reducible apply ite_inv
    | with_reducible apply setChute_inv
    | with_reducible apply raise_inv
    | with_reducible apply chuteCount_inv
    | with_reducible apply count_inv
    | with_reducible apply spotted_inv
    | with_reducible apply reportBad_inv
    | with_reducible apply nextFree_inv
    | split
    | with_reducible refine At.step (i_ecc _ _) ?_

theorem chuteTake_inv {d : Nat} {c : Nat} (i_free : Skips.free φ) (i_regs : Skips.regs φ) (i_ecc : Skips.ecc φ) (i_chutes : Skips.chutes φ) (i_mems : Skips.mems φ) (i_trigs : Skips.trigs φ) (i_dies : Skips.dies φ) (i_pcie : Skips.pcie φ) (i_out : Skips.out φ) (hU : At φ c₀ s) : At φ c₀ (chuteTake s d c).2 := by
  unfold chuteTake
  try dsimp only
  repeat' first
    | with_reducible assumption
    | intro _
    | with_reducible apply ite_inv
    | with_reducible apply headTake_inv
    | with_reducible apply each_inv
    | with_reducible apply spillRead_inv
    | (with_reducible refine pair_inv (by assumption) ?_)
    | split

theorem chuteSkip_inv {d : Nat} {c : Nat} {n : Nat} (i_free : Skips.free φ) (i_regs : Skips.regs φ) (i_ecc : Skips.ecc φ) (i_chutes : Skips.chutes φ) (i_mems : Skips.mems φ) (i_trigs : Skips.trigs φ) (i_dies : Skips.dies φ) (i_pcie : Skips.pcie φ) (i_out : Skips.out φ) (hU : At φ c₀ s) : At φ c₀ (chuteSkip s d c n) := by
  unfold chuteSkip
  try dsimp only
  repeat' first
    | with_reducible assumption
    | intro _
    | with_reducible apply ite_inv
    | with_reducible apply each_inv
    | with_reducible apply chuteTake_inv
    | (with_reducible refine pair_inv (by assumption) ?_)
    | split

theorem retWrite_inv {d : Nat} {w : Nat} {v : Word} (i_regs : Skips.regs φ) (i_ret : Skips.ret φ) (i_retEcc : Skips.retEcc φ) (hU : At φ c₀ s) : At φ c₀ (retWrite s d w v) := by
  unfold retWrite
  try dsimp only
  repeat' first
    | with_reducible assumption
    | intro _
    | with_reducible apply ite_inv
    | with_reducible apply wr48_inv
    | split
    | with_reducible refine At.step (skip_ret_retEcc i_ret i_retEcc _ _ _) ?_
    | with_reducible refine At.step (i_ret _ _) ?_
    | with_reducible refine At.step (i_retEcc _ _) ?_

theorem retWrites_inv {d : Nat} {w : Nat} {vs : List Word} (i_regs : Skips.regs φ) (i_ret : Skips.ret φ) (i_retEcc : Skips.retEcc φ) (hU : At φ c₀ s) : At φ c₀ (retWrites s d w vs) := by
  unfold retWrites
  try dsimp only
  repeat' first
    | with_reducible assumption
    | intro _
    | with_reducible apply ite_inv
    | with_reducible apply each_inv
    | with_reducible apply retWrite_inv
    | split

end Sys2Proof.Laws
end

