-- ==== Sys2Proof/Laws/OperandsInv.lean ====
section
/-!
SUPPORT. The fields of the state that each operation of `Machine/Operands.lean` may change: whatever reads none of them is the same after it.
-/

set_option Elab.async false
set_option linter.unusedTactic false
set_option linter.unreachableTactic false
namespace Sys2Proof.Laws

open Sys2Proof.Machine

variable {α₀ : Type} {φ : State → α₀} {c₀ : α₀} {s : State}

theorem unsupported_inv {bar : Nat} {off : Nat} {write : Bool} (i_regs : Skips.regs φ) (i_pcie : Skips.pcie φ) (i_resp : Skips.resp φ) (i_out : Skips.out φ) (hU : At φ c₀ s) : At φ c₀ (unsupported s bar off write) := by
  unfold unsupported
  try dsimp only
  repeat' first
    | with_reducible assumption
    | intro _
    | with_reducible apply ite_inv
    | with_reducible apply count_inv
    | with_reducible apply wr_inv
    | with_reducible apply raise_inv
    | split
    | with_reducible refine At.step (i_resp _ _) ?_

theorem noAnswer_inv {r : Req} {bar : Nat} {off : Nat} {write : Bool} (i_regs : Skips.regs φ) (i_pcie : Skips.pcie φ) (i_resp : Skips.resp φ) (i_out : Skips.out φ) (hU : At φ c₀ s) : At φ c₀ (noAnswer s r bar off write) := by
  unfold noAnswer
  try dsimp only
  repeat' first
    | with_reducible assumption
    | intro _
    | with_reducible apply ite_inv
    | with_reducible apply unsupported_inv
    | split
    | with_reducible refine At.step (i_resp _ _) ?_

theorem denyCount_inv {r : Req} {p : Pg} {write : Bool} {mem : Bool} (i_regs : Skips.regs φ) (i_pcie : Skips.pcie φ) (i_out : Skips.out φ) (hU : At φ c₀ s) : At φ c₀ (denyCount s r p write mem) := by
  unfold denyCount
  try dsimp only
  repeat' first
    | with_reducible assumption
    | intro _
    | with_reducible apply ite_inv
    | with_reducible apply wr_inv
    | with_reducible apply count_inv
    | with_reducible apply raise_inv
    | split

theorem touchSession_inv {r : Req} {p : Pg} (i_dies : Skips.dies φ) (hU : At φ c₀ s) : At φ c₀ (touchSession s r p) := by
  unfold touchSession
  try dsimp only
  repeat' first
    | with_reducible assumption
    | intro _
    | with_reducible apply ite_inv
    | with_reducible apply setDie_inv
    | split

theorem fencedWrite_inv {r : Req} {p : Pg} {off : Nat} (i_regs : Skips.regs φ) (i_resp : Skips.resp φ) (hU : At φ c₀ s) : At φ c₀ (fencedWrite s r p off) := by
  unfold fencedWrite
  try dsimp only
  repeat' first
    | with_reducible assumption
    | intro _
    | with_reducible apply ite_inv
    | with_reducible apply logErr_inv
    | split
    | with_reducible refine At.step (i_resp _ _) ?_

theorem guardedWrite_inv {r : Req} {p : Pg} {off : Nat} {eff : State → State} (i_regs : Skips.regs φ) (i_dies : Skips.dies φ) (i_pcie : Skips.pcie φ) (i_resp : Skips.resp φ) (i_out : Skips.out φ) (hU : At φ c₀ s) (hf_eff : ∀ tU, At φ c₀ tU → At φ c₀ (eff tU)) : At φ c₀ (guardedWrite s r p off eff) := by
  unfold guardedWrite
  try dsimp only
  repeat' first
    | with_reducible assumption
    | intro _
    | with_reducible apply ite_inv
    | with_reducible apply hf_eff
    | with_reducible apply unsupported_inv
    | with_reducible apply noAnswer_inv
    | with_reducible apply logErr_inv
    | with_reducible apply denyCount_inv
    | with_reducible apply fencedWrite_inv
    | with_reducible apply touchSession_inv
    | split

theorem transferUppers_inv {p : Pg} {off : Nat} {n : Nat} {shadow : Bool} (i_regs : Skips.regs φ) (i_shad : Skips.shad φ) (hU : At φ c₀ s) : At φ c₀ (transferUppers s p off n shadow) := by
  unfold transferUppers
  try dsimp only
  repeat' first
    | with_reducible assumption
    | intro _
    | with_reducible apply ite_inv
    | with_reducible apply each_inv
    | with_reducible apply wrShadow_inv
    | with_reducible apply wr_inv
    | split

theorem tickWrite_inv {r : Req} {k : RegKey} {row : RegRow} {old : Word} {v : Word} (i_ticks : Skips.ticks φ) (hU : At φ c₀ s) : At φ c₀ (tickWrite s r k row old v).2 := by
  unfold tickWrite
  try dsimp only
  repeat' first
    | with_reducible assumption
    | intro _
    | with_reducible apply ite_inv
    | split
    | with_reducible refine At.step (i_ticks _ _) ?_

theorem rowWrite_inv {r : Req} {p : Pg} {off : Nat} {row : RegRow} {v : Word} (i_regs : Skips.regs φ) (i_shad : Skips.shad φ) (i_hold : Skips.hold φ) (i_ticks : Skips.ticks φ) (hU : At φ c₀ s) : At φ c₀ (rowWrite s r p off row v) := by
  unfold rowWrite
  try dsimp only
  repeat' first
    | with_reducible assumption
    | intro _
    | with_reducible apply ite_inv
    | with_reducible apply wr_inv
    | with_reducible apply tickWrite_inv
    | with_reducible apply transferUppers_inv
    | with_reducible apply logErr_inv
    | with_reducible apply wrShadow_inv
    | (with_reducible refine pair_inv (by assumption) ?_)
    | split
    | with_reducible refine At.step (i_hold _ _) ?_

theorem plainWrite_inv {r : Req} {p : Pg} {off : Nat} {v : Word} (i_regs : Skips.regs φ) (i_shad : Skips.shad φ) (i_hold : Skips.hold φ) (i_ticks : Skips.ticks φ) (hU : At φ c₀ s) : At φ c₀ (plainWrite s r p off v) := by
  unfold plainWrite
  try dsimp only
  repeat' first
    | with_reducible assumption
    | intro _
    | with_reducible apply ite_inv
    | with_reducible apply rowWrite_inv
    | split

theorem capture_inv {r : Req} {p : Pg} {off : Nat} {val : State → Pg → Nat → Word} (i_caps : Skips.caps φ) (hU : At φ c₀ s) : At φ c₀ (capture s r p off val) := by
  unfold capture
  try dsimp only
  repeat' first
    | with_reducible assumption
    | intro _
    | with_reducible apply ite_inv
    | with_reducible apply each_inv
    | split
    | with_reducible refine At.step (i_caps _ _) ?_

theorem guardedRead_inv {r : Req} {p : Pg} {off : Nat} {val : State → Pg → Nat → Word} {eff : State → State} (i_regs : Skips.regs φ) (i_caps : Skips.caps φ) (i_dies : Skips.dies φ) (i_pcie : Skips.pcie φ) (i_resp : Skips.resp φ) (i_out : Skips.out φ) (hU : At φ c₀ s) (hf_eff : ∀ tU, At φ c₀ tU → At φ c₀ (eff tU)) : At φ c₀ (guardedRead s r p off val eff) := by
  unfold guardedRead
  try dsimp only
  repeat' first
    | with_reducible assumption
    | intro _
    | with_reducible apply ite_inv
    | with_reducible apply hf_eff
    | with_reducible apply unsupported_inv
    | with_reducible apply noAnswer_inv
    | with_reducible apply denyCount_inv
    | with_reducible apply logErr_inv
    | with_reducible apply touchSession_inv
    | with_reducible apply capture_inv
    | split
    | with_reducible refine At.step (i_resp _ _) ?_

end Sys2Proof.Laws
end

