-- ==== Sys2Proof/Laws/TallyInv.lean ====
section
/-!
SUPPORT. The fields of the state that each operation of `Machine/Tally.lean` may change: whatever reads none of them is the same after it.
-/

set_option Elab.async false
set_option linter.unusedTactic false
set_option linter.unreachableTactic false
namespace Sys2Proof.Laws

open Sys2Proof.Machine

variable {α₀ : Type} {φ : State → α₀} {c₀ : α₀} {s : State}

theorem tlCopies_inv {d : Nat} (i_regs : Skips.regs φ) (hU : At φ c₀ s) : At φ c₀ (tlCopies s d) := by
  unfold tlCopies
  try dsimp only
  repeat' first
    | with_reducible assumption
    | intro _
    | with_reducible apply ite_inv
    | with_reducible apply each_inv
    | with_reducible apply wr_inv
    | split

theorem tlFresh_inv {d : Nat} (i_regs : Skips.regs φ) (i_ret : Skips.ret φ) (i_retEcc : Skips.retEcc φ) (i_pcie : Skips.pcie φ) (i_out : Skips.out φ) (hU : At φ c₀ s) : At φ c₀ (tlFresh s d) := by
  unfold tlFresh
  try dsimp only
  repeat' first
    | with_reducible assumption
    | intro _
    | with_reducible apply ite_inv
    | with_reducible apply raise_inv
    | with_reducible apply retWrites_inv
    | split

theorem tlCheck_inv {d : Nat} (i_regs : Skips.regs φ) (i_ret : Skips.ret φ) (i_retEcc : Skips.retEcc φ) (i_pcie : Skips.pcie φ) (i_out : Skips.out φ) (hU : At φ c₀ s) : At φ c₀ (tlCheck s d) := by
  unfold tlCheck
  try dsimp only
  repeat' first
    | with_reducible assumption
    | intro _
    | with_reducible apply ite_inv
    | with_reducible apply tlFresh_inv
    | split

theorem tlRecord_inv {d : Nat} {st : Nat} {last : Nat} {alt : Nat} {detail : Nat} {us : Nat} (i_regs : Skips.regs φ) (i_ret : Skips.ret φ) (i_retEcc : Skips.retEcc φ) (hU : At φ c₀ s) : At φ c₀ (tlRecord s d st last alt detail us) := by
  unfold tlRecord
  try dsimp only
  repeat' first
    | with_reducible assumption
    | intro _
    | with_reducible apply ite_inv
    | with_reducible apply retWrite_inv
    | split

theorem tlHistory_inv {d : Nat} {outcome : Nat} (i_regs : Skips.regs φ) (i_ret : Skips.ret φ) (i_retEcc : Skips.retEcc φ) (hU : At φ c₀ s) : At φ c₀ (tlHistory s d outcome) := by
  unfold tlHistory
  try dsimp only
  repeat' first
    | with_reducible assumption
    | intro _
    | with_reducible apply ite_inv
    | with_reducible apply retWrite_inv
    | with_reducible apply retWrites_inv
    | split

theorem tallyClear_inv {d : Nat} {mask : Nat} (i_regs : Skips.regs φ) (i_ret : Skips.ret φ) (i_retEcc : Skips.retEcc φ) (i_pcie : Skips.pcie φ) (i_out : Skips.out φ) (hU : At φ c₀ s) : At φ c₀ (tallyClear s d mask) := by
  unfold tallyClear
  try dsimp only
  repeat' first
    | with_reducible assumption
    | intro _
    | with_reducible apply ite_inv
    | with_reducible apply each_inv
    | with_reducible apply retWrite_inv
    | with_reducible apply tlCopies_inv
    | with_reducible apply raise_inv
    | with_reducible apply wb_inv
    | with_reducible apply wr_inv
    | split

theorem tlClearWrite_inv {d : Nat} {v : Word} (i_regs : Skips.regs φ) (hU : At φ c₀ s) : At φ c₀ (tlClearWrite d v s) := by
  unfold tlClearWrite
  try dsimp only
  repeat' first
    | with_reducible assumption
    | intro _
    | with_reducible apply ite_inv
    | with_reducible apply wb_inv
    | with_reducible apply wr_inv
    | split

theorem execTlClear_ansAt {r : Req} {d : Nat} {v : Word} (i_regs : Skips.regs φ) (i_dies : Skips.dies φ) (i_pcie : Skips.pcie φ) (i_resp : Skips.resp φ) (i_out : Skips.out φ) (hU : At φ c₀ s) : AnsAt φ c₀ (execTlClear r d v s) := by
  unfold execTlClear
  try dsimp only
  repeat' first
    | with_reducible assumption
    | intro _
    | with_reducible apply ok_ansAt
    | with_reducible apply ite_ansAt
    | with_reducible apply ite_inv
    | with_reducible exact ok_ansAt (by assumption)
    | with_reducible apply guardedWrite_inv
    | with_reducible apply tlClearWrite_inv
    | split

theorem execCleared_ansAt {d : Nat} (i_regs : Skips.regs φ) (i_ret : Skips.ret φ) (i_retEcc : Skips.retEcc φ) (i_pcie : Skips.pcie φ) (i_out : Skips.out φ) (hU : At φ c₀ s) : AnsAt φ c₀ (execCleared d s) := by
  unfold execCleared
  try dsimp only
  repeat' first
    | with_reducible assumption
    | intro _
    | with_reducible apply ok_ansAt
    | with_reducible apply ite_ansAt
    | with_reducible apply ite_inv
    | with_reducible exact ok_ansAt (by assumption)
    | with_reducible apply tallyClear_inv
    | split

end Sys2Proof.Laws
end

