-- ==== Sys2Proof/Laws/FramesInv.lean ====
section
/-!
SUPPORT. The fields of the state that each operation of `Machine/Frames.lean` may change: whatever reads none of them is the same after it.
-/

set_option Elab.async false
set_option linter.unusedTactic false
set_option linter.unreachableTactic false
namespace Sys2Proof.Laws

open Sys2Proof.Machine

variable {α₀ : Type} {φ : State → α₀} {c₀ : α₀} {s : State}

theorem queueFrame_inv {d : Nat} {p : Nat} {f : Frame} (i_ports : Skips.ports φ) (hU : At φ c₀ s) : At φ c₀ (queueFrame s d p f) := by
  unfold queueFrame
  try dsimp only
  repeat' first
    | with_reducible assumption
    | intro _
    | with_reducible apply ite_inv
    | with_reducible apply setPort_inv
    | split

theorem setCycle_inv {d : Nat} {p : Nat} {c : Cycle} (i_ports : Skips.ports φ) (hU : At φ c₀ s) : At φ c₀ (setCycle s d p c) := by
  unfold setCycle
  try dsimp only
  repeat' first
    | with_reducible assumption
    | intro _
    | with_reducible apply ite_inv
    | with_reducible apply setPort_inv
    | split

theorem keepLine_inv {d : Nat} {k : Nat} {c : Cycle} (i_ctxs : Skips.ctxs φ) (hU : At φ c₀ s) : At φ c₀ (keepLine s d k c) := by
  unfold keepLine
  try dsimp only
  repeat' first
    | with_reducible assumption
    | intro _
    | with_reducible apply ite_inv
    | with_reducible apply setCtx_inv
    | split

theorem withdraw_inv {d : Nat} {p : Nat} {k : Nat} {c : Cycle} (i_ports : Skips.ports φ) (hU : At φ c₀ s) : At φ c₀ (withdraw s d p k c) := by
  unfold withdraw
  try dsimp only
  repeat' first
    | with_reducible assumption
    | intro _
    | with_reducible apply ite_inv
    | with_reducible apply setCycle_inv
    | with_reducible apply queueFrame_inv
    | with_reducible apply setPort_inv
    | split

theorem withdrawAll_inv {d : Nat} {k : Nat} {f : Cycle → Bool} (i_ctxs : Skips.ctxs φ) (i_ports : Skips.ports φ) (hU : At φ c₀ s) : At φ c₀ (withdrawAll s d k f) := by
  unfold withdrawAll
  try dsimp only
  repeat' first
    | with_reducible assumption
    | intro _
    | with_reducible apply ite_inv
    | with_reducible apply each_inv
    | with_reducible apply withdraw_inv
    | with_reducible apply keepLine_inv
    | split

theorem linkStat_inv {d : Nat} {p : Nat} (i_regs : Skips.regs φ) (hU : At φ c₀ s) : At φ c₀ (linkStat s d p) := by
  unfold linkStat
  try dsimp only
  repeat' first
    | with_reducible assumption
    | intro _
    | with_reducible apply ite_inv
    | with_reducible apply wr_inv
    | split

end Sys2Proof.Laws
end

