-- ==== Sys2Proof/Laws/SeamInv.lean ====
section
/-!
SUPPORT. The fields of the state that each operation of `Machine/Seam.lean` may change: whatever reads none of them is the same after it.
-/

set_option Elab.async false
set_option linter.unusedTactic false
set_option linter.unreachableTactic false
namespace Sys2Proof.Laws

open Sys2Proof.Machine

variable {α₀ : Type} {φ : State → α₀} {c₀ : α₀} {s : State}

theorem seamPurge_inv {d : Nat} {k : Nat} {e : Nat} {j : Nat} (i_seamQ : Skips.seamQ φ) (hU : At φ c₀ s) : At φ c₀ (seamPurge s d k e j) := by
  unfold seamPurge
  try dsimp only
  repeat' first
    | with_reducible assumption
    | intro _
    | with_reducible apply ite_inv
    | split
    | with_reducible refine At.step (i_seamQ _ _) ?_

theorem seamSet_inv {d : Nat} {k : Nat} {st : Nat} {cause : Nat} (i_regs : Skips.regs φ) (i_ctxs : Skips.ctxs φ) (i_seamQ : Skips.seamQ φ) (i_pcie : Skips.pcie φ) (i_out : Skips.out φ) (hU : At φ c₀ s) : At φ c₀ (seamSet s d k st cause) := by
  unfold seamSet
  try dsimp only
  repeat' first
    | with_reducible assumption
    | intro _
    | with_reducible apply ite_inv
    | with_reducible apply seamPurge_inv
    | with_reducible apply setCtx_inv
    | with_reducible apply wr_inv
    | with_reducible apply whenDo_inv
    | with_reducible apply raise_inv
    | split

theorem seamUpdate_inv {d : Nat} {k : Nat} (i_regs : Skips.regs φ) (i_ctxs : Skips.ctxs φ) (i_seamQ : Skips.seamQ φ) (i_pcie : Skips.pcie φ) (i_out : Skips.out φ) (hU : At φ c₀ s) : At φ c₀ (seamUpdate s d k) := by
  unfold seamUpdate
  try dsimp only
  repeat' first
    | with_reducible assumption
    | intro _
    | with_reducible apply ite_inv
    | with_reducible apply seamSet_inv
    | split

theorem seamsUpdate_inv {d : Nat} (i_regs : Skips.regs φ) (i_ctxs : Skips.ctxs φ) (i_seamQ : Skips.seamQ φ) (i_pcie : Skips.pcie φ) (i_out : Skips.out φ) (hU : At φ c₀ s) : At φ c₀ (seamsUpdate s d) := by
  unfold seamsUpdate
  try dsimp only
  repeat' first
    | with_reducible assumption
    | intro _
    | with_reducible apply ite_inv
    | with_reducible apply each_inv
    | with_reducible apply seamUpdate_inv
    | split

end Sys2Proof.Laws
end

