-- ==== Sys2Proof/Laws/CtxInv.lean ====
section
/-!
SUPPORT. The fields of the state that each operation of `Machine/Ctx.lean` may change: whatever reads none of them is the same after it.
-/

set_option Elab.async false
set_option linter.unusedTactic false
set_option linter.unreachableTactic false
namespace Sys2Proof.Laws

open Sys2Proof.Machine

variable {α₀ : Type} {φ : State → α₀} {c₀ : α₀} {s : State}

theorem ctxRecord_inv {d : Nat} {k : Nat} {cause : Nat} {fences : Bool} (i_regs : Skips.regs φ) (i_chutes : Skips.chutes φ) (i_trigs : Skips.trigs φ) (i_dies : Skips.dies φ) (i_pcie : Skips.pcie φ) (i_out : Skips.out φ) (hU : At φ c₀ s) : At φ c₀ (ctxRecord s d k cause fences) := by
  unfold ctxRecord
  try dsimp only
  repeat' first
    | with_reducible assumption
    | intro _
    | with_reducible apply ite_inv
    | with_reducible apply logRecord_inv
    | split

theorem ctxLate_inv {d : Nat} {k : Nat} (i_regs : Skips.regs φ) (i_ctxs : Skips.ctxs φ) (i_trigs : Skips.trigs φ) (i_pcie : Skips.pcie φ) (i_out : Skips.out φ) (hU : At φ c₀ s) : At φ c₀ (ctxLate s d k) := by
  unfold ctxLate
  try dsimp only
  repeat' first
    | with_reducible assumption
    | intro _
    | with_reducible apply ite_inv
    | with_reducible apply ctxEvt_inv
    | with_reducible apply setCtx_inv
    | split

theorem ctxNull_inv {d : Nat} {k : Nat} (i_ctxs : Skips.ctxs φ) (hU : At φ c₀ s) : At φ c₀ (ctxNull s d k) := by
  unfold ctxNull
  try dsimp only
  repeat' first
    | with_reducible assumption
    | intro _
    | with_reducible apply ite_inv
    | with_reducible apply setCtx_inv
    | split

theorem lineDone_inv {d : Nat} {k : Nat} {blank : Bool} (i_ctxs : Skips.ctxs φ) (hU : At φ c₀ s) : At φ c₀ (lineDone s d k blank) := by
  unfold lineDone
  try dsimp only
  repeat' first
    | with_reducible assumption
    | intro _
    | with_reducible apply ite_inv
    | with_reducible apply setCtx_inv
    | split

theorem ctxDegraded_inv {d : Nat} {k : Nat} (i_ctxs : Skips.ctxs φ) (hU : At φ c₀ s) : At φ c₀ (ctxDegraded s d k) := by
  unfold ctxDegraded
  try dsimp only
  repeat' first
    | with_reducible assumption
    | intro _
    | with_reducible apply ite_inv
    | with_reducible apply setCtx_inv
    | split

theorem stallFollow_inv {d : Nat} {k : Nat} (i_ctxs : Skips.ctxs φ) (hU : At φ c₀ s) : At φ c₀ (stallFollow s d k) := by
  unfold stallFollow
  try dsimp only
  repeat' first
    | with_reducible assumption
    | intro _
    | with_reducible apply ite_inv
    | with_reducible apply setCtx_inv
    | split

theorem stallReset_inv {d : Nat} {k : Nat} (i_ctxs : Skips.ctxs φ) (hU : At φ c₀ s) : At φ c₀ (stallReset s d k) := by
  unfold stallReset
  try dsimp only
  repeat' first
    | with_reducible assumption
    | intro _
    | with_reducible apply ite_inv
    | with_reducible apply setCtx_inv
    | split

theorem stallMark_inv {d : Nat} {k : Nat} (i_ctxs : Skips.ctxs φ) (hU : At φ c₀ s) : At φ c₀ (stallMark s d k) := by
  unfold stallMark
  try dsimp only
  repeat' first
    | with_reducible assumption
    | intro _
    | with_reducible apply ite_inv
    | with_reducible apply stallFollow_inv
    | with_reducible apply setCtx_inv
    | split

theorem withRetry_inv {d : Nat} {p : Nat} {g : Nat} {f : State → State} (i_regs : Skips.regs φ) (i_ctxs : Skips.ctxs φ) (hU : At φ c₀ s) (hf_f : ∀ tU, At φ c₀ tU → At φ c₀ (f tU)) : At φ c₀ (withRetry s d p g f) := by
  unfold withRetry
  try dsimp only
  repeat' first
    | with_reducible assumption
    | intro _
    | with_reducible apply ite_inv
    | with_reducible apply hf_f
    | with_reducible apply linkStat_inv
    | with_reducible apply each_inv
    | with_reducible apply stallFollow_inv
    | split

theorem dropMoved_inv {d : Nat} {k : Nat} (i_regs : Skips.regs φ) (i_echos : Skips.echos φ) (i_pcie : Skips.pcie φ) (i_out : Skips.out φ) (hU : At φ c₀ s) : At φ c₀ (dropMoved s d k) := by
  unfold dropMoved
  try dsimp only
  repeat' first
    | with_reducible assumption
    | intro _
    | with_reducible apply ite_inv
    | with_reducible apply setEcho_inv
    | with_reducible apply raise_inv
    | with_reducible apply countBy_inv
    | split

theorem sweepBreak_inv {d : Nat} {f : Nat → Bool} (i_echos : Skips.echos φ) (hU : At φ c₀ s) : At φ c₀ (sweepBreak s d f) := by
  unfold sweepBreak
  try dsimp only
  repeat' first
    | with_reducible assumption
    | intro _
    | with_reducible apply ite_inv
    | with_reducible apply setEcho_inv
    | split

theorem staleMeas_inv {d : Nat} {k : Nat} (i_echos : Skips.echos φ) (hU : At φ c₀ s) : At φ c₀ (staleMeas s d k) := by
  unfold staleMeas
  try dsimp only
  repeat' first
    | with_reducible assumption
    | intro _
    | with_reducible apply ite_inv
    | with_reducible apply setEcho_inv
    | split

theorem ctxFence_inv {d : Nat} {k : Nat} {cause : Nat} (i_regs : Skips.regs φ) (i_ctxs : Skips.ctxs φ) (i_ports : Skips.ports φ) (i_seamQ : Skips.seamQ φ) (i_echos : Skips.echos φ) (i_trigs : Skips.trigs φ) (i_pcie : Skips.pcie φ) (i_out : Skips.out φ) (hU : At φ c₀ s) : At φ c₀ (ctxFence s d k cause) := by
  unfold ctxFence
  try dsimp only
  repeat' first
    | with_reducible assumption
    | intro _
    | with_reducible apply ite_inv
    | with_reducible apply withdrawAll_inv
    | with_reducible apply stallFollow_inv
    | with_reducible apply setCtx_inv
    | with_reducible apply seamUpdate_inv
    | with_reducible apply sweepBreak_inv
    | with_reducible apply staleMeas_inv
    | with_reducible apply dropMoved_inv
    | with_reducible apply ctxEvt_inv
    | split

theorem ctxPoison_inv {d : Nat} {k : Nat} (i_regs : Skips.regs φ) (i_ctxs : Skips.ctxs φ) (i_ports : Skips.ports φ) (i_seamQ : Skips.seamQ φ) (i_echos : Skips.echos φ) (i_trigs : Skips.trigs φ) (i_pcie : Skips.pcie φ) (i_out : Skips.out φ) (hU : At φ c₀ s) : At φ c₀ (ctxPoison s d k) := by
  unfold ctxPoison
  try dsimp only
  repeat' first
    | with_reducible assumption
    | intro _
    | with_reducible apply ite_inv
    | with_reducible apply ctxFence_inv
    | split

theorem ctxRead_inv {d : Nat} {k : Nat} {dps : Bool} {w : Nat} {n : Nat} (i_regs : Skips.regs φ) (i_ecc : Skips.ecc φ) (i_chutes : Skips.chutes φ) (i_ctxs : Skips.ctxs φ) (i_ports : Skips.ports φ) (i_seamQ : Skips.seamQ φ) (i_echos : Skips.echos φ) (i_mems : Skips.mems φ) (i_trigs : Skips.trigs φ) (i_dies : Skips.dies φ) (i_pcie : Skips.pcie φ) (i_out : Skips.out φ) (hU : At φ c₀ s) : At φ c₀ (ctxRead s d k dps w n).2.2 := by
  unfold ctxRead
  try dsimp only
  repeat' first
    | with_reducible assumption
    | intro _
    | with_reducible apply ite_inv
    | with_reducible apply readWords_inv
    | with_reducible apply ctxPoison_inv
    | (with_reducible refine trip_inv (by assumption) ?_)
    | split

theorem geomReport_inv {d : Nat} {k : Nat} {code : Nat} (i_regs : Skips.regs φ) (i_ctxs : Skips.ctxs φ) (i_pcie : Skips.pcie φ) (i_out : Skips.out φ) (hU : At φ c₀ s) : At φ c₀ (geomReport s d k code) := by
  unfold geomReport
  try dsimp only
  repeat' first
    | with_reducible assumption
    | intro _
    | with_reducible apply ite_inv
    | with_reducible apply setCtx_inv
    | with_reducible apply raise_inv
    | with_reducible apply wr_inv
    | split

theorem checkSeamMask_inv {d : Nat} {k : Nat} (i_regs : Skips.regs φ) (i_ctxs : Skips.ctxs φ) (i_pcie : Skips.pcie φ) (i_out : Skips.out φ) (hU : At φ c₀ s) : At φ c₀ (checkSeamMask s d k) := by
  unfold checkSeamMask
  try dsimp only
  repeat' first
    | with_reducible assumption
    | intro _
    | with_reducible apply ite_inv
    | with_reducible apply geomReport_inv
    | split

theorem readDescr_inv {d : Nat} {k : Nat} (i_regs : Skips.regs φ) (i_ecc : Skips.ecc φ) (i_chutes : Skips.chutes φ) (i_ctxs : Skips.ctxs φ) (i_ports : Skips.ports φ) (i_seamQ : Skips.seamQ φ) (i_echos : Skips.echos φ) (i_mems : Skips.mems φ) (i_trigs : Skips.trigs φ) (i_dies : Skips.dies φ) (i_pcie : Skips.pcie φ) (i_out : Skips.out φ) (hU : At φ c₀ s) : At φ c₀ (readDescr s d k) := by
  unfold readDescr
  try dsimp only
  repeat' first
    | with_reducible assumption
    | intro _
    | with_reducible apply ite_inv
    | with_reducible apply setCtx_inv
    | with_reducible apply geomReport_inv
    | with_reducible apply ctxRead_inv
    | with_reducible apply checkSeamMask_inv
    | (with_reducible refine trip_inv (by assumption) ?_)
    | split

theorem checkDescr_inv {d : Nat} {k : Nat} (i_regs : Skips.regs φ) (i_ecc : Skips.ecc φ) (i_chutes : Skips.chutes φ) (i_ctxs : Skips.ctxs φ) (i_ports : Skips.ports φ) (i_seamQ : Skips.seamQ φ) (i_echos : Skips.echos φ) (i_mems : Skips.mems φ) (i_trigs : Skips.trigs φ) (i_dies : Skips.dies φ) (i_pcie : Skips.pcie φ) (i_out : Skips.out φ) (hU : At φ c₀ s) : At φ c₀ (checkDescr s d k) := by
  unfold checkDescr
  try dsimp only
  repeat' first
    | with_reducible assumption
    | intro _
    | with_reducible apply ite_inv
    | with_reducible apply seamUpdate_inv
    | with_reducible apply readDescr_inv
    | split

theorem mapReload_inv {d : Nat} {k : Nat} (i_regs : Skips.regs φ) (i_ctxs : Skips.ctxs φ) (i_pcie : Skips.pcie φ) (i_out : Skips.out φ) (hU : At φ c₀ s) : At φ c₀ (mapReload s d k) := by
  unfold mapReload
  try dsimp only
  repeat' first
    | with_reducible assumption
    | intro _
    | with_reducible apply ite_inv
    | with_reducible apply setCtx_inv
    | with_reducible apply raise_inv
    | with_reducible apply wr_inv
    | split

theorem ctxDiff_inv {d : Nat} {k : Nat} (i_regs : Skips.regs φ) (i_pcie : Skips.pcie φ) (i_out : Skips.out φ) (hU : At φ c₀ s) : At φ c₀ (ctxDiff s d k) := by
  unfold ctxDiff
  try dsimp only
  repeat' first
    | with_reducible assumption
    | intro _
    | with_reducible apply ite_inv
    | with_reducible apply raise_inv
    | split

theorem ctxHandOver_inv {d : Nat} {k : Nat} (i_regs : Skips.regs φ) (i_ecc : Skips.ecc φ) (i_chutes : Skips.chutes φ) (i_ctxs : Skips.ctxs φ) (i_ports : Skips.ports φ) (i_seamQ : Skips.seamQ φ) (i_echos : Skips.echos φ) (i_mems : Skips.mems φ) (i_trigs : Skips.trigs φ) (i_dies : Skips.dies φ) (i_pcie : Skips.pcie φ) (i_out : Skips.out φ) (hU : At φ c₀ s) : At φ c₀ (ctxHandOver s d k) := by
  unfold ctxHandOver
  try dsimp only
  repeat' first
    | with_reducible assumption
    | intro _
    | with_reducible apply ite_inv
    | with_reducible apply ctxRead_inv
    | with_reducible apply setCtx_inv
    | with_reducible apply wr_inv
    | with_reducible apply stallFollow_inv
    | with_reducible apply checkDescr_inv
    | with_reducible apply ctxDiff_inv
    | with_reducible apply ctxEvt_inv
    | with_reducible apply staleMeas_inv
    | with_reducible apply mapReload_inv
    | (with_reducible refine trip_inv (by assumption) ?_)
    | split

theorem tryHandOver_inv {d : Nat} {k : Nat} (i_regs : Skips.regs φ) (i_ecc : Skips.ecc φ) (i_chutes : Skips.chutes φ) (i_ctxs : Skips.ctxs φ) (i_ports : Skips.ports φ) (i_seamQ : Skips.seamQ φ) (i_echos : Skips.echos φ) (i_mems : Skips.mems φ) (i_trigs : Skips.trigs φ) (i_dies : Skips.dies φ) (i_pcie : Skips.pcie φ) (i_out : Skips.out φ) (hU : At φ c₀ s) : At φ c₀ (tryHandOver s d k) := by
  unfold tryHandOver
  try dsimp only
  repeat' first
    | with_reducible assumption
    | intro _
    | with_reducible apply ite_inv
    | with_reducible apply ctxHandOver_inv
    | split

theorem blkDrop_inv {d : Nat} {k : Nat} (i_chutes : Skips.chutes φ) (hU : At φ c₀ s) : At φ c₀ (blkDrop s d k) := by
  unfold blkDrop
  try dsimp only
  repeat' first
    | with_reducible assumption
    | intro _
    | with_reducible apply ite_inv
    | with_reducible apply setChute_inv
    | split

theorem discardAsm_inv {d : Nat} {k : Nat} (i_chutes : Skips.chutes φ) (i_ctxs : Skips.ctxs φ) (hU : At φ c₀ s) : At φ c₀ (discardAsm s d k) := by
  unfold discardAsm
  try dsimp only
  repeat' first
    | with_reducible assumption
    | intro _
    | with_reducible apply ite_inv
    | with_reducible apply blkDrop_inv
    | with_reducible apply setCtx_inv
    | split

theorem ctxEnter_inv {d : Nat} {k : Nat} {st : CState} {cause : Nat} (i_regs : Skips.regs φ) (i_ecc : Skips.ecc φ) (i_chutes : Skips.chutes φ) (i_ctxs : Skips.ctxs φ) (i_ports : Skips.ports φ) (i_seamQ : Skips.seamQ φ) (i_echos : Skips.echos φ) (i_mems : Skips.mems φ) (i_trigs : Skips.trigs φ) (i_dies : Skips.dies φ) (i_pcie : Skips.pcie φ) (i_out : Skips.out φ) (hU : At φ c₀ s) : At φ c₀ (ctxEnter s d k st cause) := by
  unfold ctxEnter
  try dsimp only
  repeat' first
    | with_reducible assumption
    | intro _
    | with_reducible apply ite_inv
    | with_reducible apply withdrawAll_inv
    | with_reducible apply stallFollow_inv
    | with_reducible apply setCtx_inv
    | with_reducible apply ctxEvt_inv
    | with_reducible apply dropMoved_inv
    | with_reducible apply sweepBreak_inv
    | with_reducible apply staleMeas_inv
    | with_reducible apply tryHandOver_inv
    | with_reducible apply seamUpdate_inv
    | with_reducible apply mapReload_inv
    | with_reducible apply checkDescr_inv
    | split

theorem ctxMove_inv {d : Nat} {k : Nat} {st : CState} {cause : Nat} (i_regs : Skips.regs φ) (i_ecc : Skips.ecc φ) (i_chutes : Skips.chutes φ) (i_ctxs : Skips.ctxs φ) (i_ports : Skips.ports φ) (i_seamQ : Skips.seamQ φ) (i_echos : Skips.echos φ) (i_mems : Skips.mems φ) (i_trigs : Skips.trigs φ) (i_dies : Skips.dies φ) (i_pcie : Skips.pcie φ) (i_out : Skips.out φ) (hU : At φ c₀ s) : At φ c₀ (ctxMove s d k st cause) := by
  unfold ctxMove
  try dsimp only
  repeat' first
    | with_reducible assumption
    | intro _
    | with_reducible apply ite_inv
    | with_reducible apply each_inv
    | with_reducible apply ctxEnter_inv
    | split

theorem ctxAbortNow_inv {d : Nat} {k : Nat} (i_regs : Skips.regs φ) (i_ecc : Skips.ecc φ) (i_chutes : Skips.chutes φ) (i_ctxs : Skips.ctxs φ) (i_ports : Skips.ports φ) (i_seamQ : Skips.seamQ φ) (i_echos : Skips.echos φ) (i_mems : Skips.mems φ) (i_trigs : Skips.trigs φ) (i_dies : Skips.dies φ) (i_pcie : Skips.pcie φ) (i_out : Skips.out φ) (hU : At φ c₀ s) : At φ c₀ (ctxAbortNow s d k) := by
  unfold ctxAbortNow
  try dsimp only
  repeat' first
    | with_reducible assumption
    | intro _
    | with_reducible apply ite_inv
    | with_reducible apply ctxMove_inv
    | with_reducible apply each_inv
    | with_reducible apply discardAsm_inv
    | split

theorem ctxAbortAt_inv {d : Nat} {by_ : Nat} {cause : Nat} (i_regs : Skips.regs φ) (i_ecc : Skips.ecc φ) (i_chutes : Skips.chutes φ) (i_ctxs : Skips.ctxs φ) (i_ports : Skips.ports φ) (i_seamQ : Skips.seamQ φ) (i_echos : Skips.echos φ) (i_mems : Skips.mems φ) (i_trigs : Skips.trigs φ) (i_dies : Skips.dies φ) (i_pcie : Skips.pcie φ) (i_out : Skips.out φ) (hU : At φ c₀ s) : At φ c₀ (ctxAbortAt s d by_ cause) := by
  unfold ctxAbortAt
  try dsimp only
  repeat' first
    | with_reducible assumption
    | intro _
    | with_reducible apply ite_inv
    | with_reducible apply setCtx_inv
    | with_reducible apply ctxAbortNow_inv
    | split

theorem ctxPolicyPause_inv {d : Nat} {k : Nat} {cause : Nat} (i_regs : Skips.regs φ) (i_ecc : Skips.ecc φ) (i_chutes : Skips.chutes φ) (i_ctxs : Skips.ctxs φ) (i_ports : Skips.ports φ) (i_seamQ : Skips.seamQ φ) (i_echos : Skips.echos φ) (i_mems : Skips.mems φ) (i_trigs : Skips.trigs φ) (i_dies : Skips.dies φ) (i_pcie : Skips.pcie φ) (i_out : Skips.out φ) (hU : At φ c₀ s) : At φ c₀ (ctxPolicyPause s d k cause) := by
  unfold ctxPolicyPause
  try dsimp only
  repeat' first
    | with_reducible assumption
    | intro _
    | with_reducible apply ite_inv
    | with_reducible apply ctxMove_inv
    | with_reducible apply ctxAbortAt_inv
    | split

end Sys2Proof.Laws
end

