-- ==== Sys2Proof/Laws/TimeInv.lean ====
section
/-!
SUPPORT. The fields of the state that each operation of `Machine/Time.lean` may change: whatever reads none of them is the same after it.
-/

set_option Elab.async false
set_option linter.unusedTactic false
set_option linter.unreachableTactic false
namespace Sys2Proof.Laws

open Sys2Proof.Machine

variable {α₀ : Type} {φ : State → α₀} {c₀ : α₀} {s : State}

theorem dieTicks_inv {c : Nat} {n : Nat} {d : Nat} (i_regs : Skips.regs φ) (i_dies : Skips.dies φ) (i_pcie : Skips.pcie φ) (i_out : Skips.out φ) (hU : At φ c₀ s) : At φ c₀ (dieTicks s c n d) := by
  unfold dieTicks
  try dsimp only
  repeat' first
    | with_reducible assumption
    | intro _
    | with_reducible apply ite_inv
    | with_reducible apply setDie_inv
    | with_reducible apply whenDo_inv
    | with_reducible apply raise_inv
    | split

theorem ticksPass_inv {n : Nat} (i_clock : Skips.clock φ) (i_regs : Skips.regs φ) (i_dies : Skips.dies φ) (i_pcie : Skips.pcie φ) (i_out : Skips.out φ) (hU : At φ c₀ s) : At φ c₀ (ticksPass s n) := by
  unfold ticksPass
  try dsimp only
  repeat' first
    | with_reducible assumption
    | intro _
    | with_reducible apply ite_inv
    | with_reducible apply each_inv
    | with_reducible apply dieTicks_inv
    | split
    | with_reducible refine At.step (i_clock _ _) ?_

theorem waitClock_inv {c : Nat} (i_clock : Skips.clock φ) (i_regs : Skips.regs φ) (i_dies : Skips.dies φ) (i_pcie : Skips.pcie φ) (i_out : Skips.out φ) (hU : At φ c₀ s) : At φ c₀ (waitClock s c) := by
  unfold waitClock
  try dsimp only
  repeat' first
    | with_reducible assumption
    | intro _
    | with_reducible apply ite_inv
    | with_reducible apply ticksPass_inv
    | split

theorem waitTick_inv {d : Nat} {t : Int} (i_clock : Skips.clock φ) (i_regs : Skips.regs φ) (i_dies : Skips.dies φ) (i_pcie : Skips.pcie φ) (i_out : Skips.out φ) (hU : At φ c₀ s) : At φ c₀ (waitTick s d t) := by
  unfold waitTick
  try dsimp only
  repeat' first
    | with_reducible assumption
    | intro _
    | with_reducible apply ite_inv
    | with_reducible apply ticksPass_inv
    | split

theorem takeShadows_inv {p : Pg} (i_regs : Skips.regs φ) (i_pcie : Skips.pcie φ) (i_out : Skips.out φ) (hU : At φ c₀ s) : At φ c₀ (takeShadows s p) := by
  unfold takeShadows
  try dsimp only
  repeat' first
    | with_reducible assumption
    | intro _
    | with_reducible apply ite_inv
    | with_reducible apply each_inv
    | with_reducible apply wr_inv
    | with_reducible apply raise_inv
    | split

theorem stepDrop_inv (i_regs : Skips.regs φ) (i_tsync : Skips.tsync φ) (hU : At φ c₀ s) : At φ c₀ (stepDrop s) := by
  unfold stepDrop
  try dsimp only
  repeat' first
    | with_reducible assumption
    | intro _
    | with_reducible apply ite_inv
    | with_reducible apply wb_inv
    | split
    | with_reducible refine At.step (i_tsync _ _) ?_

theorem sendMsg_inv {d : Nat} {c : Nat} {k : MsgKind} (i_msgs : Skips.msgs φ) (hU : At φ c₀ s) : At φ c₀ (sendMsg s d c k) := by
  unfold sendMsg
  try dsimp only
  repeat' first
    | with_reducible assumption
    | intro _
    | with_reducible apply ite_inv
    | split
    | with_reducible refine At.step (i_msgs _ _) ?_

/-- The state in which a message has arrived. -/
theorem takeMsg_i {d : Nat} {f : Msg → Bool} (i_clock : Skips.clock φ) (i_regs : Skips.regs φ) (i_msgs : Skips.msgs φ) (i_dies : Skips.dies φ) (i_pcie : Skips.pcie φ) (i_out : Skips.out φ) (hU : At φ c₀ s) {m : Msg} {tU : State}
    (e : takeMsg s d f = some (m, tU)) : At φ c₀ tU := by
  unfold takeMsg at e
  split at e
  · cases e
  · cases e
    apply waitClock_inv <;> first | assumption | exact .step (i_msgs _ _) hU

end Sys2Proof.Laws
end

