-- ==== Sys2Proof/Laws/EncCoreInv.lean ====
section
/-!
SUPPORT. The fields of the state that each operation of `Machine/EncCore.lean` may change: whatever reads none of them is the same after it.
-/

set_option Elab.async false
set_option linter.unusedTactic false
set_option linter.unreachableTactic false
namespace Sys2Proof.Laws

open Sys2Proof.Machine

variable {α₀ : Type} {φ : State → α₀} {c₀ : α₀} {s : State}

theorem winSync_inv {d : Nat} {c : Nat} (i_encs : Skips.encs φ) (hU : At φ c₀ s) : At φ c₀ (winSync s d c) := by
  unfold winSync
  try dsimp only
  repeat' first
    | with_reducible assumption
    | intro _
    | with_reducible apply ite_inv
    | with_reducible apply setEnc_inv
    | split

theorem winShift_inv {d : Nat} {c : Nat} {amount : Int} (i_encs : Skips.encs φ) (hU : At φ c₀ s) : At φ c₀ (winShift s d c amount) := by
  unfold winShift
  try dsimp only
  repeat' first
    | with_reducible assumption
    | intro _
    | with_reducible apply ite_inv
    | with_reducible apply setEnc_inv
    | split

theorem encSync_inv {d : Nat} {c : Nat} (i_regs : Skips.regs φ) (i_encs : Skips.encs φ) (hU : At φ c₀ s) : At φ c₀ (encSync s d c) := by
  unfold encSync
  try dsimp only
  repeat' first
    | with_reducible assumption
    | intro _
    | with_reducible apply ite_inv
    | with_reducible apply winSync_inv
    | with_reducible apply wr48_inv
    | split

theorem padB_inv {s0 : State} {d : Nat} {c : Nat} (i_out : Skips.out φ) (hU : At φ c₀ s) (hU_s0 : At φ c₀ s0) : At φ c₀ (padB s0 s d c) := by
  unfold padB
  try dsimp only
  repeat' first
    | with_reducible assumption
    | intro _
    | with_reducible apply ite_inv
    | with_reducible apply emit_inv
    | split

theorem serDrop_inv {d : Nat} {c : Nat} (i_encs : Skips.encs φ) (i_out : Skips.out φ) (hU : At φ c₀ s) : At φ c₀ (serDrop s d c) := by
  unfold serDrop
  try dsimp only
  repeat' first
    | with_reducible assumption
    | intro _
    | with_reducible apply ite_inv
    | with_reducible apply padB_inv
    | with_reducible apply setEnc_inv
    | split

theorem encSend_inv {d : Nat} {c : Nat} {k : MsgKind} (i_msgs : Skips.msgs φ) (i_hops : Skips.hops φ) (hU : At φ c₀ s) : At φ c₀ (encSend s d c k) := by
  unfold encSend
  try dsimp only
  repeat' first
    | with_reducible assumption
    | intro _
    | with_reducible apply ite_inv
    | with_reducible apply sendMsg_inv
    | split
    | with_reducible refine At.step (i_hops _ _) ?_

theorem encInvalid_inv {d : Nat} {c : Nat} (i_regs : Skips.regs φ) (i_pcie : Skips.pcie φ) (i_out : Skips.out φ) (hU : At φ c₀ s) : At φ c₀ (encInvalid s d c) := by
  unfold encInvalid
  try dsimp only
  repeat' first
    | with_reducible assumption
    | intro _
    | with_reducible apply ite_inv
    | with_reducible apply setDyn_inv
    | with_reducible apply wb_inv
    | split

theorem pdUnlock_inv {d : Nat} {c : Nat} {f : Nat → Bool} (i_pds : Skips.pds φ) (hU : At φ c₀ s) : At φ c₀ (pdUnlock s d c f) := by
  unfold pdUnlock
  try dsimp only
  repeat' first
    | with_reducible assumption
    | intro _
    | with_reducible apply ite_inv
    | with_reducible apply each_inv
    | with_reducible apply setPdIn_inv
    | split

theorem pdMoved_inv {d : Nat} {c : Nat} (i_pds : Skips.pds φ) (hU : At φ c₀ s) : At φ c₀ (pdMoved s d c) := by
  unfold pdMoved
  try dsimp only
  repeat' first
    | with_reducible assumption
    | intro _
    | with_reducible apply ite_inv
    | with_reducible apply pdUnlock_inv
    | split

theorem encLost_inv {d : Nat} {c : Nat} (i_regs : Skips.regs φ) (i_msgs : Skips.msgs φ) (i_hops : Skips.hops φ) (i_pcie : Skips.pcie φ) (i_out : Skips.out φ) (hU : At φ c₀ s) : At φ c₀ (encLost s d c) := by
  unfold encLost
  try dsimp only
  repeat' first
    | with_reducible assumption
    | intro _
    | with_reducible apply ite_inv
    | with_reducible apply raise_inv
    | with_reducible apply encSend_inv
    | split

theorem axisLost_inv {d : Nat} {a : Nat} (i_regs : Skips.regs φ) (i_msgs : Skips.msgs φ) (i_hops : Skips.hops φ) (i_pcie : Skips.pcie φ) (i_out : Skips.out φ) (hU : At φ c₀ s) : At φ c₀ (axisLost s d a) := by
  unfold axisLost
  try dsimp only
  repeat' first
    | with_reducible assumption
    | intro _
    | with_reducible apply ite_inv
    | with_reducible apply each_inv
    | with_reducible apply encLost_inv
    | split

end Sys2Proof.Laws
end

