-- ==== Sys2Proof/Laws/AssayInv.lean ====
section
/-!
SUPPORT. The fields of the state that each operation of `Machine/Assay.lean` may change: whatever reads none of them is the same after it.
-/

set_option Elab.async false
set_option linter.unusedTactic false
set_option linter.unreachableTactic false
namespace Sys2Proof.Laws

open Sys2Proof.Machine

variable {α₀ : Type} {φ : State → α₀} {c₀ : α₀} {s : State}

theorem setAsChan_inv {d : Nat} {c : Nat} {x : AsChan} (i_assays : Skips.assays φ) (hU : At φ c₀ s) : At φ c₀ (setAsChan s d c x) := by
  unfold setAsChan
  try dsimp only
  repeat' first
    | with_reducible assumption
    | intro _
    | with_reducible apply ite_inv
    | with_reducible apply setAssay_inv
    | split

theorem asQueue_inv {d : Nat} {c : Nat} {kind : Nat} (i_assays : Skips.assays φ) (hU : At φ c₀ s) : At φ c₀ (asQueue s d c kind) := by
  unfold asQueue
  try dsimp only
  repeat' first
    | with_reducible assumption
    | intro _
    | with_reducible apply ite_inv
    | with_reducible apply setAsChan_inv
    | split

theorem asTempTrigger_inv {d : Nat} {c : Nat} (i_assays : Skips.assays φ) (hU : At φ c₀ s) : At φ c₀ (asTempTrigger s d c) := by
  unfold asTempTrigger
  try dsimp only
  repeat' first
    | with_reducible assumption
    | intro _
    | with_reducible apply ite_inv
    | with_reducible apply asQueue_inv
    | split

theorem asHourly_inv {d : Nat} (i_assays : Skips.assays φ) (hU : At φ c₀ s) : At φ c₀ (asHourly s d) := by
  unfold asHourly
  try dsimp only
  repeat' first
    | with_reducible assumption
    | intro _
    | with_reducible apply ite_inv
    | with_reducible apply each_inv
    | with_reducible apply asQueue_inv
    | split

theorem setAsActive_inv {d : Nat} {cls : Nat} {c : Option Nat} (i_assays : Skips.assays φ) (hU : At φ c₀ s) : At φ c₀ (setAsActive s d cls c) := by
  unfold setAsActive
  try dsimp only
  repeat' first
    | with_reducible assumption
    | intro _
    | with_reducible apply ite_inv
    | with_reducible apply setAssay_inv
    | split

theorem asRotate_inv {d : Nat} {cls : Nat} (i_assays : Skips.assays φ) (hU : At φ c₀ s) : At φ c₀ (asRotate s d cls) := by
  unfold asRotate
  try dsimp only
  repeat' first
    | with_reducible assumption
    | intro _
    | with_reducible apply ite_inv
    | with_reducible apply asQueue_inv
    | with_reducible apply setAssay_inv
    | split

theorem asModeChange_inv {d : Nat} (i_assays : Skips.assays φ) (hU : At φ c₀ s) : At φ c₀ (asModeChange s d) := by
  unfold asModeChange
  try dsimp only
  repeat' first
    | with_reducible assumption
    | intro _
    | with_reducible apply ite_inv
    | with_reducible apply each_inv
    | with_reducible apply setAsChan_inv
    | split

theorem asApply_inv {d : Nat} {c : Nat} (i_assays : Skips.assays φ) (hU : At φ c₀ s) : At φ c₀ (asApply s d c) := by
  unfold asApply
  try dsimp only
  repeat' first
    | with_reducible assumption
    | intro _
    | with_reducible apply ite_inv
    | with_reducible apply setAsChan_inv
    | split

theorem asCodes_inv {d : Nat} {c : Nat} (i_assays : Skips.assays φ) (hU : At φ c₀ s) : At φ c₀ (asCodes s d c) := by
  unfold asCodes
  try dsimp only
  repeat' first
    | with_reducible assumption
    | intro _
    | with_reducible apply ite_inv
    | with_reducible apply setAsChan_inv
    | with_reducible apply asApply_inv
    | split

theorem asTempUpdate_inv {d : Nat} (i_assays : Skips.assays φ) (hU : At φ c₀ s) : At φ c₀ (asTempUpdate s d) := by
  unfold asTempUpdate
  try dsimp only
  repeat' first
    | with_reducible assumption
    | intro _
    | with_reducible apply ite_inv
    | with_reducible apply each_inv
    | with_reducible apply asCodes_inv
    | with_reducible apply asTempTrigger_inv
    | split

theorem asEnd_inv {d : Nat} {c : Nat} {res : Nat} (i_regs : Skips.regs φ) (i_assays : Skips.assays φ) (i_pcie : Skips.pcie φ) (i_out : Skips.out φ) (hU : At φ c₀ s) : At φ c₀ (asEnd s d c res) := by
  unfold asEnd
  try dsimp only
  repeat' first
    | with_reducible assumption
    | intro _
    | with_reducible apply ite_inv
    | with_reducible apply setAsActive_inv
    | with_reducible apply setAsChan_inv
    | with_reducible apply asRotate_inv
    | with_reducible apply raise_inv
    | split

theorem asForget_inv {d : Nat} {c : Nat} (i_assays : Skips.assays φ) (hU : At φ c₀ s) : At φ c₀ (asForget s d c) := by
  unfold asForget
  try dsimp only
  repeat' first
    | with_reducible assumption
    | intro _
    | with_reducible apply ite_inv
    | with_reducible apply setAsActive_inv
    | with_reducible apply setAsChan_inv
    | split

theorem spareBack_inv {d : Nat} {c : Nat} (i_assays : Skips.assays φ) (hU : At φ c₀ s) : At φ c₀ (spareBack s d c) := by
  unfold spareBack
  try dsimp only
  repeat' first
    | with_reducible assumption
    | intro _
    | with_reducible apply ite_inv
    | with_reducible apply setAssay_inv
    | split

theorem waitSpare_inv {d : Nat} {cls : Nat} (i_clock : Skips.clock φ) (i_regs : Skips.regs φ) (i_dies : Skips.dies φ) (i_pcie : Skips.pcie φ) (i_out : Skips.out φ) (hU : At φ c₀ s) : At φ c₀ (waitSpare s d cls) := by
  unfold waitSpare
  try dsimp only
  repeat' first
    | with_reducible assumption
    | intro _
    | with_reducible apply ite_inv
    | with_reducible apply waitTick_inv
    | split

theorem asTake_inv {d : Nat} {c : Nat} (i_assays : Skips.assays φ) (hU : At φ c₀ s) : At φ c₀ (asTake s d c) := by
  unfold asTake
  try dsimp only
  repeat' first
    | with_reducible assumption
    | intro _
    | with_reducible apply ite_inv
    | with_reducible apply setAsChan_inv
    | split

theorem asHandBack_inv {d : Nat} {c : Nat} (i_regs : Skips.regs φ) (i_assays : Skips.assays φ) (i_pcie : Skips.pcie φ) (i_out : Skips.out φ) (hU : At φ c₀ s) : At φ c₀ (asHandBack s d c) := by
  unfold asHandBack
  try dsimp only
  repeat' first
    | with_reducible assumption
    | intro _
    | with_reducible apply ite_inv
    | with_reducible apply asEnd_inv
    | with_reducible apply spareBack_inv
    | with_reducible apply asForget_inv
    | with_reducible apply asApply_inv
    | split

theorem asBoundary_inv {d : Nat} {p : Nat} (i_regs : Skips.regs φ) (i_assays : Skips.assays φ) (i_pcie : Skips.pcie φ) (i_out : Skips.out φ) (hU : At φ c₀ s) : At φ c₀ (asBoundary s d p) := by
  unfold asBoundary
  try dsimp only
  repeat' first
    | with_reducible assumption
    | intro _
    | with_reducible apply ite_inv
    | with_reducible apply each_inv
    | with_reducible apply asApply_inv
    | with_reducible apply asHandBack_inv
    | with_reducible apply asTake_inv
    | split

theorem asAbandon_inv {d : Nat} {c : Nat} (i_regs : Skips.regs φ) (i_assays : Skips.assays φ) (i_pcie : Skips.pcie φ) (i_out : Skips.out φ) (hU : At φ c₀ s) : At φ c₀ (asAbandon s d c) := by
  unfold asAbandon
  try dsimp only
  repeat' first
    | with_reducible assumption
    | intro _
    | with_reducible apply ite_inv
    | with_reducible apply asForget_inv
    | with_reducible apply setAsChan_inv
    | with_reducible apply asHandBack_inv
    | split

theorem asPortFenced_inv {d : Nat} {p : Nat} (i_regs : Skips.regs φ) (i_assays : Skips.assays φ) (i_pcie : Skips.pcie φ) (i_out : Skips.out φ) (hU : At φ c₀ s) : At φ c₀ (asPortFenced s d p) := by
  unfold asPortFenced
  try dsimp only
  repeat' first
    | with_reducible assumption
    | intro _
    | with_reducible apply ite_inv
    | with_reducible apply each_inv
    | with_reducible apply asEnd_inv
    | with_reducible apply spareBack_inv
    | split

theorem asSafe_inv {d : Nat} (i_regs : Skips.regs φ) (i_assays : Skips.assays φ) (i_pcie : Skips.pcie φ) (i_out : Skips.out φ) (hU : At φ c₀ s) : At φ c₀ (asSafe s d) := by
  unfold asSafe
  try dsimp only
  repeat' first
    | with_reducible assumption
    | intro _
    | with_reducible apply ite_inv
    | with_reducible apply each_inv
    | with_reducible apply asAbandon_inv
    | split

theorem asStop_inv {d : Nat} (i_assays : Skips.assays φ) (hU : At φ c₀ s) : At φ c₀ (asStop s d) := by
  unfold asStop
  try dsimp only
  repeat' first
    | with_reducible assumption
    | intro _
    | with_reducible apply ite_inv
    | with_reducible apply each_inv
    | with_reducible apply setAsChan_inv
    | split

theorem execAssayRunStart_ansAt {d : Nat} {cls : Nat} (i_assays : Skips.assays φ) (hU : At φ c₀ s) : AnsAt φ c₀ (execAssayRunStart d cls s) := by
  unfold execAssayRunStart
  try dsimp only
  repeat' first
    | with_reducible assumption
    | intro _
    | with_reducible apply ok_ansAt
    | with_reducible apply ite_ansAt
    | with_reducible apply ite_inv
    | with_reducible exact ok_ansAt (by assumption)
    | with_reducible apply asRotate_inv
    | with_reducible apply setAssay_inv
    | with_reducible apply setAsActive_inv
    | with_reducible apply setAsChan_inv
    | split

theorem execAssayTakeover_ansAt {d : Nat} {cls : Nat} (i_clock : Skips.clock φ) (i_regs : Skips.regs φ) (i_assays : Skips.assays φ) (i_dies : Skips.dies φ) (i_pcie : Skips.pcie φ) (i_out : Skips.out φ) (hU : At φ c₀ s) : AnsAt φ c₀ (execAssayTakeover d cls s) := by
  unfold execAssayTakeover
  try dsimp only
  repeat' first
    | with_reducible assumption
    | intro _
    | with_reducible apply ok_ansAt
    | with_reducible apply ite_ansAt
    | with_reducible apply ite_inv
    | with_reducible exact ok_ansAt (by assumption)
    | with_reducible apply asTake_inv
    | with_reducible apply waitSpare_inv
    | with_reducible apply waitClock_inv
    | split

theorem execAssayMeasureStart_ansAt {d : Nat} {cls : Nat} (i_clock : Skips.clock φ) (i_regs : Skips.regs φ) (i_assays : Skips.assays φ) (i_dies : Skips.dies φ) (i_pcie : Skips.pcie φ) (i_out : Skips.out φ) (hU : At φ c₀ s) : AnsAt φ c₀ (execAssayMeasureStart d cls s) := by
  unfold execAssayMeasureStart
  try dsimp only
  repeat' first
    | with_reducible assumption
    | intro _
    | with_reducible apply ok_ansAt
    | with_reducible apply ite_ansAt
    | with_reducible apply ite_inv
    | with_reducible exact ok_ansAt (by assumption)
    | with_reducible apply waitSpare_inv
    | with_reducible apply waitTick_inv
    | with_reducible apply waitClock_inv
    | with_reducible apply setAsChan_inv
    | split

theorem execAssayMeasureEnd_ansAt {d : Nat} {cls : Nat} {p : List Int} (i_clock : Skips.clock φ) (i_regs : Skips.regs φ) (i_assays : Skips.assays φ) (i_dies : Skips.dies φ) (i_pcie : Skips.pcie φ) (i_out : Skips.out φ) (hU : At φ c₀ s) : AnsAt φ c₀ (execAssayMeasureEnd d cls p s) := by
  unfold execAssayMeasureEnd
  try dsimp only
  repeat' first
    | with_reducible assumption
    | intro _
    | with_reducible apply ok_ansAt
    | with_reducible apply ite_ansAt
    | with_reducible apply ite_inv
    | with_reducible exact ok_ansAt (by assumption)
    | with_reducible apply waitClock_inv
    | with_reducible apply setAsChan_inv
    | split

theorem execRunDone_ansAt {d : Nat} {cls : Nat} (i_regs : Skips.regs φ) (i_assays : Skips.assays φ) (i_pcie : Skips.pcie φ) (i_out : Skips.out φ) (hU : At φ c₀ s) : AnsAt φ c₀ (execRunDone d cls s) := by
  unfold execRunDone
  try dsimp only
  repeat' first
    | with_reducible assumption
    | intro _
    | with_reducible apply ok_ansAt
    | with_reducible apply ite_ansAt
    | with_reducible apply ite_inv
    | with_reducible exact ok_ansAt (by assumption)
    | with_reducible apply asHandBack_inv
    | split

theorem setSave_inv {d : Nat} {st : Nat} (i_regs : Skips.regs φ) (hU : At φ c₀ s) : At φ c₀ (setSave s d st) := by
  unfold setSave
  try dsimp only
  repeat' first
    | with_reducible assumption
    | intro _
    | with_reducible apply ite_inv
    | with_reducible apply wf_inv
    | split

theorem asResult_inv {d : Nat} {op : Nat} {ch : Nat} {res : Nat} (i_regs : Skips.regs φ) (hU : At φ c₀ s) : At φ c₀ (asResult s d op ch res) := by
  unfold asResult
  try dsimp only
  repeat' first
    | with_reducible assumption
    | intro _
    | with_reducible apply ite_inv
    | with_reducible apply wr_inv
    | split

theorem asRequest_inv {d : Nat} {ch : Nat} (i_regs : Skips.regs φ) (i_assays : Skips.assays φ) (hU : At φ c₀ s) : At φ c₀ (asRequest s d ch) := by
  unfold asRequest
  try dsimp only
  repeat' first
    | with_reducible assumption
    | intro _
    | with_reducible apply ite_inv
    | with_reducible apply asResult_inv
    | with_reducible apply each_inv
    | with_reducible apply asQueue_inv
    | split

theorem asSave_inv {d : Nat} {ch : Nat} (i_regs : Skips.regs φ) (hU : At φ c₀ s) : At φ c₀ (asSave s d ch) := by
  unfold asSave
  try dsimp only
  repeat' first
    | with_reducible assumption
    | intro _
    | with_reducible apply ite_inv
    | with_reducible apply asResult_inv
    | with_reducible apply setSave_inv
    | split

theorem asRestore_inv {d : Nat} {ch : Nat} (i_regs : Skips.regs φ) (hU : At φ c₀ s) : At φ c₀ (asRestore s d ch) := by
  unfold asRestore
  try dsimp only
  repeat' first
    | with_reducible assumption
    | intro _
    | with_reducible apply ite_inv
    | with_reducible apply asResult_inv
    | with_reducible apply setSave_inv
    | split

theorem asCancel1_inv {d : Nat} {c : Nat} (i_assays : Skips.assays φ) (hU : At φ c₀ s) : At φ c₀ (asCancel1 s d c) := by
  unfold asCancel1
  try dsimp only
  repeat' first
    | with_reducible assumption
    | intro _
    | with_reducible apply ite_inv
    | with_reducible apply setAsChan_inv
    | with_reducible apply asForget_inv
    | split

theorem asCancel_inv {d : Nat} {ch : Nat} (i_regs : Skips.regs φ) (i_assays : Skips.assays φ) (hU : At φ c₀ s) : At φ c₀ (asCancel s d ch) := by
  unfold asCancel
  try dsimp only
  repeat' first
    | with_reducible assumption
    | intro _
    | with_reducible apply ite_inv
    | with_reducible apply asResult_inv
    | with_reducible apply each_inv
    | with_reducible apply asCancel1_inv
    | split

theorem asCmd_inv {d : Nat} {op : Nat} {ch : Nat} (i_regs : Skips.regs φ) (i_assays : Skips.assays φ) (hU : At φ c₀ s) : At φ c₀ (asCmd d op ch s) := by
  unfold asCmd
  try dsimp only
  repeat' first
    | with_reducible assumption
    | intro _
    | with_reducible apply ite_inv
    | with_reducible apply asRequest_inv
    | with_reducible apply asSave_inv
    | with_reducible apply asRestore_inv
    | with_reducible apply asCancel_inv
    | with_reducible apply asResult_inv
    | split

theorem execAsRequest_ansAt {r : Req} {d : Nat} {ch : Nat} (i_regs : Skips.regs φ) (i_assays : Skips.assays φ) (i_dies : Skips.dies φ) (i_pcie : Skips.pcie φ) (i_resp : Skips.resp φ) (i_out : Skips.out φ) (hU : At φ c₀ s) : AnsAt φ c₀ (execAsRequest r d ch s) := by
  unfold execAsRequest
  try dsimp only
  repeat' first
    | with_reducible assumption
    | intro _
    | with_reducible apply ok_ansAt
    | with_reducible apply ite_ansAt
    | with_reducible apply ite_inv
    | with_reducible exact ok_ansAt (by assumption)
    | with_reducible apply guardedWrite_inv
    | with_reducible apply asCmd_inv
    | split

theorem execAsSave_ansAt {r : Req} {d : Nat} (i_regs : Skips.regs φ) (i_assays : Skips.assays φ) (i_dies : Skips.dies φ) (i_pcie : Skips.pcie φ) (i_resp : Skips.resp φ) (i_out : Skips.out φ) (hU : At φ c₀ s) : AnsAt φ c₀ (execAsSave r d s) := by
  unfold execAsSave
  try dsimp only
  repeat' first
    | with_reducible assumption
    | intro _
    | with_reducible apply ok_ansAt
    | with_reducible apply ite_ansAt
    | with_reducible apply ite_inv
    | with_reducible exact ok_ansAt (by assumption)
    | with_reducible apply guardedWrite_inv
    | with_reducible apply asCmd_inv
    | split

theorem execAsRestore_ansAt {r : Req} {d : Nat} (i_regs : Skips.regs φ) (i_assays : Skips.assays φ) (i_dies : Skips.dies φ) (i_pcie : Skips.pcie φ) (i_resp : Skips.resp φ) (i_out : Skips.out φ) (hU : At φ c₀ s) : AnsAt φ c₀ (execAsRestore r d s) := by
  unfold execAsRestore
  try dsimp only
  repeat' first
    | with_reducible assumption
    | intro _
    | with_reducible apply ok_ansAt
    | with_reducible apply ite_ansAt
    | with_reducible apply ite_inv
    | with_reducible exact ok_ansAt (by assumption)
    | with_reducible apply guardedWrite_inv
    | with_reducible apply asCmd_inv
    | split

theorem execAsCancel_ansAt {r : Req} {d : Nat} {ch : Nat} (i_regs : Skips.regs φ) (i_assays : Skips.assays φ) (i_dies : Skips.dies φ) (i_pcie : Skips.pcie φ) (i_resp : Skips.resp φ) (i_out : Skips.out φ) (hU : At φ c₀ s) : AnsAt φ c₀ (execAsCancel r d ch s) := by
  unfold execAsCancel
  try dsimp only
  repeat' first
    | with_reducible assumption
    | intro _
    | with_reducible apply ok_ansAt
    | with_reducible apply ite_ansAt
    | with_reducible apply ite_inv
    | with_reducible exact ok_ansAt (by assumption)
    | with_reducible apply guardedWrite_inv
    | with_reducible apply asCmd_inv
    | split

theorem asSaved_inv {d : Nat} (i_regs : Skips.regs φ) (i_ret : Skips.ret φ) (i_retEcc : Skips.retEcc φ) (i_pcie : Skips.pcie φ) (i_out : Skips.out φ) (hU : At φ c₀ s) : At φ c₀ (asSaved s d) := by
  unfold asSaved
  try dsimp only
  repeat' first
    | with_reducible assumption
    | intro _
    | with_reducible apply ite_inv
    | with_reducible apply retWrites_inv
    | with_reducible apply wf_inv
    | with_reducible apply setSave_inv
    | with_reducible apply raise_inv
    | with_reducible apply count_inv
    | split

theorem execSaved_ansAt {d : Nat} (i_regs : Skips.regs φ) (i_ret : Skips.ret φ) (i_retEcc : Skips.retEcc φ) (i_pcie : Skips.pcie φ) (i_out : Skips.out φ) (hU : At φ c₀ s) : AnsAt φ c₀ (execSaved d s) := by
  unfold execSaved
  try dsimp only
  repeat' first
    | with_reducible assumption
    | intro _
    | with_reducible apply ok_ansAt
    | with_reducible apply ite_ansAt
    | with_reducible apply ite_inv
    | with_reducible exact ok_ansAt (by assumption)
    | with_reducible apply asSaved_inv
    | split

theorem loadPoints_inv {d : Nat} (i_assays : Skips.assays φ) (hU : At φ c₀ s) : At φ c₀ (loadPoints s d) := by
  unfold loadPoints
  try dsimp only
  repeat' first
    | with_reducible assumption
    | intro _
    | with_reducible apply ite_inv
    | with_reducible apply each_inv
    | with_reducible apply setAsChan_inv
    | split

theorem execRestored_ansAt {d : Nat} (i_regs : Skips.regs φ) (i_assays : Skips.assays φ) (i_pcie : Skips.pcie φ) (i_out : Skips.out φ) (hU : At φ c₀ s) : AnsAt φ c₀ (execRestored d s) := by
  unfold execRestored
  try dsimp only
  repeat' first
    | with_reducible assumption
    | intro _
    | with_reducible apply ok_ansAt
    | with_reducible apply ite_ansAt
    | with_reducible apply ite_inv
    | with_reducible exact ok_ansAt (by assumption)
    | with_reducible apply raise_inv
    | with_reducible apply wf_inv
    | with_reducible apply setSave_inv
    | with_reducible apply loadPoints_inv
    | split

theorem tabRead_inv {d : Nat} (i_regs : Skips.regs φ) (hU : At φ c₀ s) : At φ c₀ (tabRead d s) := by
  unfold tabRead
  try dsimp only
  repeat' first
    | with_reducible assumption
    | intro _
    | with_reducible apply ite_inv
    | with_reducible apply each_inv
    | with_reducible apply wr_inv
    | split

theorem tabWrite_inv {r : Req} {d : Nat} (i_regs : Skips.regs φ) (i_assays : Skips.assays φ) (hU : At φ c₀ s) : At φ c₀ (tabWrite r d s) := by
  unfold tabWrite
  try dsimp only
  repeat' first
    | with_reducible assumption
    | intro _
    | with_reducible apply ite_inv
    | with_reducible apply logErr_inv
    | with_reducible apply setAsChan_inv
    | split

theorem tabClear_inv {r : Req} {d : Nat} (i_regs : Skips.regs φ) (i_assays : Skips.assays φ) (hU : At φ c₀ s) : At φ c₀ (tabClear r d s) := by
  unfold tabClear
  try dsimp only
  repeat' first
    | with_reducible assumption
    | intro _
    | with_reducible apply ite_inv
    | with_reducible apply logErr_inv
    | with_reducible apply setAsChan_inv
    | split

theorem execTabRead_ansAt {r : Req} {d : Nat} (i_regs : Skips.regs φ) (i_dies : Skips.dies φ) (i_pcie : Skips.pcie φ) (i_resp : Skips.resp φ) (i_out : Skips.out φ) (hU : At φ c₀ s) : AnsAt φ c₀ (execTabRead r d s) := by
  unfold execTabRead
  try dsimp only
  repeat' first
    | with_reducible assumption
    | intro _
    | with_reducible apply ok_ansAt
    | with_reducible apply ite_ansAt
    | with_reducible apply ite_inv
    | with_reducible exact ok_ansAt (by assumption)
    | with_reducible apply guardedWrite_inv
    | with_reducible apply tabRead_inv
    | split

theorem execTabWrite_ansAt {r : Req} {d : Nat} (i_regs : Skips.regs φ) (i_assays : Skips.assays φ) (i_dies : Skips.dies φ) (i_pcie : Skips.pcie φ) (i_resp : Skips.resp φ) (i_out : Skips.out φ) (hU : At φ c₀ s) : AnsAt φ c₀ (execTabWrite r d s) := by
  unfold execTabWrite
  try dsimp only
  repeat' first
    | with_reducible assumption
    | intro _
    | with_reducible apply ok_ansAt
    | with_reducible apply ite_ansAt
    | with_reducible apply ite_inv
    | with_reducible exact ok_ansAt (by assumption)
    | with_reducible apply guardedWrite_inv
    | with_reducible apply tabWrite_inv
    | split

theorem execTabClear_ansAt {r : Req} {d : Nat} (i_regs : Skips.regs φ) (i_assays : Skips.assays φ) (i_dies : Skips.dies φ) (i_pcie : Skips.pcie φ) (i_resp : Skips.resp φ) (i_out : Skips.out φ) (hU : At φ c₀ s) : AnsAt φ c₀ (execTabClear r d s) := by
  unfold execTabClear
  try dsimp only
  repeat' first
    | with_reducible assumption
    | intro _
    | with_reducible apply ok_ansAt
    | with_reducible apply ite_ansAt
    | with_reducible apply ite_inv
    | with_reducible exact ok_ansAt (by assumption)
    | with_reducible apply guardedWrite_inv
    | with_reducible apply tabClear_inv
    | split

end Sys2Proof.Laws
end

