-- ==== Sys2Proof/Laws/Keeps.lean ====
section
/-!
SUPPORT. A page whose registers an operation leaves alone, as a relation between the state before and after.
-/

set_option Elab.async false
set_option linter.unusedTactic false
set_option linter.unreachableTactic false
namespace Sys2Proof.Laws

open Sys2Proof.Machine

/-- Every register of a page reads as before, in both copies. -/
structure Keeps (q : Pg) (a s : State) : Prop where
  regs : ∀ off, rd s q off = rd a q off
  shadows : ∀ off, rdShadow s q off = rdShadow a q off

variable {q : Pg} {s₀ s t : State}

theorem Keeps.refl (q : Pg) (s : State) : Keeps q s s := ⟨fun _ => rfl, fun _ => rfl⟩

/-- An update of fields that hold no register, as it stands written out. -/
theorem Keeps.lit
    {w_pending : List Instr} {w_clock : Nat} {w_free : Nat} {w_part : Part} {w_gos : Tbl RegKey Nat} {w_hold : Tbl
    RegKey Word} {w_ticks : List TickWrites} {w_caps : Tbl (Nat × RegKey) Word} {w_fences : Tbl Pg FenceSt} {w_mem : List Host.Cell} {w_ecc :
    Tbl Nat Ecc} {w_ret : List Host.Cell} {w_retEcc : Tbl Nat Ecc} {w_chutes : Tbl (Nat × Nat) ChuteSt} {w_ctxs :
    Tbl (Nat × Nat) CtxSt} {w_ports : Tbl (Nat × Nat) PortSt} {w_encs : Tbl (Nat × Nat) EncSt} {w_pds : Tbl (Nat ×
    Nat) PdSt} {w_seamQ : List SeamMsg} {w_echos : Tbl Nat EchoSt} {w_mems : Tbl Nat MemSt} {w_msgs : List Msg}
    {w_axes : Tbl (Nat × Nat) AxisSt} {w_hoists : Tbl (Nat × Nat) HoistSt} {w_served : Tbl Nat Nat} {w_trigs : List (Nat × Nat)} {w_tmrs :
    Tbl (Nat × Nat) Nat} {w_cqWait : Tbl Nat (List CqRec)} {w_cqSeq : Tbl (Nat × Nat) Nat} {w_assays : Tbl Nat
    AssaySt} {w_therms : Tbl Nat ThermSt} {w_lamps : Tbl Nat LampSt} {w_mboxes : Tbl (Nat × Nat) MboxCh} {w_fws :
    Tbl Nat FwSt} {w_tsync : TsyncSt} {w_burims : Tbl (Nat × Nat) BurimSt} {w_hops : List HopMsg} {w_dies : Tbl Nat
    DieSt} {w_pkg : PkgSt} {w_pcie : PcieSt} {w_resp : Resp} {w_out : List Out}
    (h : Keeps q s₀ s) : Keeps q s₀ {
      pending := w_pending, clock := w_clock, free := w_free, part := w_part, regs := s.regs, shad := s.shad, gos :=
      w_gos, hold := w_hold, ticks := w_ticks, caps := w_caps, fences := w_fences, mem := w_mem, ecc := w_ecc, ret := w_ret, retEcc :=
      w_retEcc, chutes := w_chutes, ctxs := w_ctxs, ports := w_ports, encs := w_encs, pds := w_pds, seamQ :=
      w_seamQ, echos := w_echos, mems := w_mems, msgs := w_msgs, axes := w_axes, hoists := w_hoists, served := w_served, trigs :=
      w_trigs, tmrs := w_tmrs, cqWait := w_cqWait, cqSeq := w_cqSeq, assays := w_assays, therms := w_therms, lamps
      := w_lamps, mboxes := w_mboxes, fws := w_fws, tsync := w_tsync, burims := w_burims, hops := w_hops, dies :=
      w_dies, pkg := w_pkg, pcie := w_pcie, resp := w_resp, out := w_out } :=
  ⟨h.regs, h.shadows⟩

theorem Tbl.get_drop_apart {κ α : Type} [DecidableEq κ] (t : Tbl κ α) (f : κ → Bool) {k : κ} (h : f k = false) (d : α) :
    Tbl.get (Tbl.drop t f) k d = Tbl.get t k d := by
  induction t with
  | nil => rfl
  | cons e r ih =>
    obtain ⟨j, v⟩ := e
    unfold Tbl.drop at ih ⊢
    by_cases hj : f j
    · have : j ≠ k := fun e => by subst e; simp [h] at hj
      simp [hj, Tbl.get, this, ih]
    · simp only [List.filter, hj, Bool.not_false, Tbl.get, ih]

theorem each_keeps {α : Type} {l : List α} {f : State → α → State} (h : Keeps q s₀ s)
    (hf : ∀ t x, Keeps q s₀ t → Keeps q s₀ (f t x)) : Keeps q s₀ (each l s f) := by
  unfold each
  induction l generalizing s with
  | nil => exact h
  | cons x r ih => exact ih (hf _ _ h)

theorem each_keeps_mem {α : Type} {l : List α} {f : State → α → State} (h : Keeps q s₀ s)
    (hf : ∀ t, ∀ x ∈ l, Keeps q s₀ t → Keeps q s₀ (f t x)) : Keeps q s₀ (each l s f) := by
  unfold each
  induction l generalizing s with
  | nil => exact h
  | cons x r ih => exact ih (hf _ _ (List.mem_cons_self ..) h) fun t y hy => hf t y (List.mem_cons_of_mem _ hy)

theorem whenDo_keeps {b : Bool} {f : State → State} (h : Keeps q s₀ s) (hf : ∀ t, Keeps q s₀ t → Keeps q s₀ (f t)) :
    Keeps q s₀ (whenDo b s f) := by
  unfold whenDo; split
  · exact hf _ h
  · exact h

theorem ite_keeps {c : Prop} [Decidable c] {x y : State} (hx : Keeps q s₀ x) (hy : Keeps q s₀ y) :
    Keeps q s₀ (if c then x else y) := by
  split
  · exact hx
  · exact hy

theorem pair_keeps {α : Type} {x : α × State} {v : α} (e : x = (v, t)) (h : Keeps q s₀ x.2) : Keeps q s₀ t := by
  subst e; exact h

theorem trip_keeps {α β : Type} {x : α × β × State} {v : α} {w : β} (e : x = (v, w, t)) (h : Keeps q s₀ x.2.2) :
    Keeps q s₀ t := by
  subst e; exact h

theorem quad_keeps {α β γ : Type} {x : α × β × γ × State} {v : α} {w : β} {z : γ} (e : x = (v, w, z, t))
    (h : Keeps q s₀ x.2.2.2) : Keeps q s₀ t := by
  subst e; exact h

/-- A meaning completes in a state in which a page reads as before. -/
def Kept (q : Pg) (a : State) (o : Host.Outcome State Fault Refusal) : Prop := ∃ t, o = .next t ∧ Keeps q a t

theorem ok_kept (h : Keeps q s₀ s) : Kept q s₀ (ok s) := ⟨s, rfl, h⟩

theorem ite_kept {c : Prop} [Decidable c] {x y : Host.Outcome State Fault Refusal} (hx : Kept q s₀ x)
    (hy : Kept q s₀ y) : Kept q s₀ (if c then x else y) := by
  split
  · exact hx
  · exact hy

end Sys2Proof.Laws
end

