-- ==== Sys2Proof/Laws/OpsReg.lean ====
section
/-!
SUPPORT. The register pages that each operation of `Machine/Ops.lean` may write: every other page reads as before.
-/

set_option Elab.async false
set_option linter.unusedTactic false
set_option linter.unreachableTactic false
namespace Sys2Proof.Laws

open Sys2Proof.Machine

variable {q₀ : Pg} {s₀ s : State}

theorem wr_keeps {p : Pg} {off : Nat} {v : Word} (kp : p ≠ q₀) (hU : Keeps q₀ s₀ s) : Keeps q₀ s₀ (wr s p off v) := by
  refine ⟨fun o => ?_, hU.shadows⟩
  have e : ¬ (p, off) = (q₀, o) := fun h => kp (congrArg Prod.fst h)
  simpa [rd, wr, Tbl.get_put, e] using hU.regs o

theorem wrShadow_keeps {p : Pg} {off : Nat} {v : Word} (kp : p ≠ q₀) (hU : Keeps q₀ s₀ s) : Keeps q₀ s₀ (wrShadow s p off v) := by
  refine ⟨hU.regs, fun o => ?_⟩
  have e : ¬ (p, off) = (q₀, o) := fun h => kp (congrArg Prod.fst h)
  simpa [rdShadow, wrShadow, Tbl.get_put, e] using hU.shadows o

theorem wf_keeps {p : Pg} {off : Nat} {lo : Nat} {n : Nat} {v : Nat} (kp : p ≠ q₀) (hU : Keeps q₀ s₀ s) : Keeps q₀ s₀ (wf s p off lo n v) := by
  unfold wf
  try dsimp only
  repeat' first
    | with_reducible assumption
    | intro _
    | with_reducible apply ite_keeps
    | with_reducible apply wr_keeps
    | split
    | with_reducible apply Keeps.lit

theorem wb_keeps {p : Pg} {off : Nat} {i : Nat} {b : Bool} (kp : p ≠ q₀) (hU : Keeps q₀ s₀ s) : Keeps q₀ s₀ (wb s p off i b) := by
  unfold wb
  try dsimp only
  repeat' first
    | with_reducible assumption
    | intro _
    | with_reducible apply ite_keeps
    | with_reducible apply wr_keeps
    | split
    | with_reducible apply Keeps.lit

theorem wr48_keeps {p : Pg} {off : Nat} {v : Nat} (kp : p ≠ q₀) (hU : Keeps q₀ s₀ s) : Keeps q₀ s₀ (wr48 s p off v) := by
  unfold wr48
  try dsimp only
  repeat' first
    | with_reducible assumption
    | intro _
    | with_reducible apply ite_keeps
    | with_reducible apply wr_keeps
    | split
    | with_reducible apply Keeps.lit

theorem wr72_keeps {p : Pg} {off : Nat} {v : Nat} (kp : p ≠ q₀) (hU : Keeps q₀ s₀ s) : Keeps q₀ s₀ (wr72 s p off v) := by
  unfold wr72
  try dsimp only
  repeat' first
    | with_reducible assumption
    | intro _
    | with_reducible apply ite_keeps
    | with_reducible apply wr_keeps
    | with_reducible apply wr48_keeps
    | split
    | with_reducible apply Keeps.lit

theorem count_keeps {p : Pg} {off : Nat} (kp : p ≠ q₀) (hU : Keeps q₀ s₀ s) : Keeps q₀ s₀ (count s p off) := by
  unfold count
  try dsimp only
  repeat' first
    | with_reducible assumption
    | intro _
    | with_reducible apply ite_keeps
    | with_reducible apply wr_keeps
    | split
    | with_reducible apply Keeps.lit

theorem countBy_keeps {p : Pg} {off : Nat} {n : Nat} (kp : p ≠ q₀) (hU : Keeps q₀ s₀ s) : Keeps q₀ s₀ (countBy s p off n) := by
  unfold countBy
  try dsimp only
  repeat' first
    | with_reducible assumption
    | intro _
    | with_reducible apply ite_keeps
    | with_reducible apply wr_keeps
    | split
    | with_reducible apply Keeps.lit

theorem setDie_keeps {d : Nat} {x : DieSt} (hU : Keeps q₀ s₀ s) : Keeps q₀ s₀ (setDie s d x) := by
  unfold setDie
  try dsimp only
  repeat' first
    | with_reducible assumption
    | intro _
    | with_reducible apply ite_keeps
    | split
    | with_reducible apply Keeps.lit

theorem setChute_keeps {d : Nat} {c : Nat} {x : ChuteSt} (hU : Keeps q₀ s₀ s) : Keeps q₀ s₀ (setChute s d c x) := by
  unfold setChute
  try dsimp only
  repeat' first
    | with_reducible assumption
    | intro _
    | with_reducible apply ite_keeps
    | split
    | with_reducible apply Keeps.lit

theorem setCtx_keeps {d : Nat} {k : Nat} {x : CtxSt} (hU : Keeps q₀ s₀ s) : Keeps q₀ s₀ (setCtx s d k x) := by
  unfold setCtx
  try dsimp only
  repeat' first
    | with_reducible assumption
    | intro _
    | with_reducible apply ite_keeps
    | split
    | with_reducible apply Keeps.lit

theorem setPort_keeps {d : Nat} {p : Nat} {x : PortSt} (hU : Keeps q₀ s₀ s) : Keeps q₀ s₀ (setPort s d p x) := by
  unfold setPort
  try dsimp only
  repeat' first
    | with_reducible assumption
    | intro _
    | with_reducible apply ite_keeps
    | split
    | with_reducible apply Keeps.lit

theorem setEnc_keeps {d : Nat} {c : Nat} {x : EncSt} (hU : Keeps q₀ s₀ s) : Keeps q₀ s₀ (setEnc s d c x) := by
  unfold setEnc
  try dsimp only
  repeat' first
    | with_reducible assumption
    | intro _
    | with_reducible apply ite_keeps
    | split
    | with_reducible apply Keeps.lit

theorem setPdIn_keeps {d : Nat} {n : Nat} {x : PdSt} (hU : Keeps q₀ s₀ s) : Keeps q₀ s₀ (setPdIn s d n x) := by
  unfold setPdIn
  try dsimp only
  repeat' first
    | with_reducible assumption
    | intro _
    | with_reducible apply ite_keeps
    | split
    | with_reducible apply Keeps.lit

theorem setEcho_keeps {d : Nat} {x : EchoSt} (hU : Keeps q₀ s₀ s) : Keeps q₀ s₀ (setEcho s d x) := by
  unfold setEcho
  try dsimp only
  repeat' first
    | with_reducible assumption
    | intro _
    | with_reducible apply ite_keeps
    | split
    | with_reducible apply Keeps.lit

theorem setMemSt_keeps {d : Nat} {x : MemSt} (hU : Keeps q₀ s₀ s) : Keeps q₀ s₀ (setMemSt s d x) := by
  unfold setMemSt
  try dsimp only
  repeat' first
    | with_reducible assumption
    | intro _
    | with_reducible apply ite_keeps
    | split
    | with_reducible apply Keeps.lit

theorem setFenceSt_keeps {p : Pg} {x : FenceSt} (hU : Keeps q₀ s₀ s) : Keeps q₀ s₀ (setFenceSt s p x) := by
  unfold setFenceSt
  try dsimp only
  repeat' first
    | with_reducible assumption
    | intro _
    | with_reducible apply ite_keeps
    | split
    | with_reducible apply Keeps.lit

theorem setAxis_keeps {d : Nat} {a : Nat} {x : AxisSt} (hU : Keeps q₀ s₀ s) : Keeps q₀ s₀ (setAxis s d a x) := by
  unfold setAxis
  try dsimp only
  repeat' first
    | with_reducible assumption
    | intro _
    | with_reducible apply ite_keeps
    | split
    | with_reducible apply Keeps.lit

theorem setHoist_keeps {d : Nat} {c : Nat} {x : HoistSt} (hU : Keeps q₀ s₀ s) : Keeps q₀ s₀ (setHoist s d c x) := by
  unfold setHoist
  try dsimp only
  repeat' first
    | with_reducible assumption
    | intro _
    | with_reducible apply ite_keeps
    | split
    | with_reducible apply Keeps.lit

theorem setCqRecs_keeps {d : Nat} {l : List CqRec} (hU : Keeps q₀ s₀ s) : Keeps q₀ s₀ (setCqRecs s d l) := by
  unfold setCqRecs
  try dsimp only
  repeat' first
    | with_reducible assumption
    | intro _
    | with_reducible apply ite_keeps
    | split
    | with_reducible apply Keeps.lit

theorem setAssay_keeps {d : Nat} {x : AssaySt} (hU : Keeps q₀ s₀ s) : Keeps q₀ s₀ (setAssay s d x) := by
  unfold setAssay
  try dsimp only
  repeat' first
    | with_reducible assumption
    | intro _
    | with_reducible apply ite_keeps
    | split
    | with_reducible apply Keeps.lit

theorem setTherm_keeps {d : Nat} {x : ThermSt} (hU : Keeps q₀ s₀ s) : Keeps q₀ s₀ (setTherm s d x) := by
  unfold setTherm
  try dsimp only
  repeat' first
    | with_reducible assumption
    | intro _
    | with_reducible apply ite_keeps
    | split
    | with_reducible apply Keeps.lit

theorem setLamp_keeps {d : Nat} {x : LampSt} (hU : Keeps q₀ s₀ s) : Keeps q₀ s₀ (setLamp s d x) := by
  unfold setLamp
  try dsimp only
  repeat' first
    | with_reducible assumption
    | intro _
    | with_reducible apply ite_keeps
    | split
    | with_reducible apply Keeps.lit

theorem setMbox_keeps {d : Nat} {n : Nat} {x : MboxCh} (hU : Keeps q₀ s₀ s) : Keeps q₀ s₀ (setMbox s d n x) := by
  unfold setMbox
  try dsimp only
  repeat' first
    | with_reducible assumption
    | intro _
    | with_reducible apply ite_keeps
    | split
    | with_reducible apply Keeps.lit

theorem setFw_keeps {d : Nat} {x : FwSt} (hU : Keeps q₀ s₀ s) : Keeps q₀ s₀ (setFw s d x) := by
  unfold setFw
  try dsimp only
  repeat' first
    | with_reducible assumption
    | intro _
    | with_reducible apply ite_keeps
    | split
    | with_reducible apply Keeps.lit

theorem setBurim_keeps {d : Nat} {i : Nat} {x : BurimSt} (hU : Keeps q₀ s₀ s) : Keeps q₀ s₀ (setBurim s d i x) := by
  unfold setBurim
  try dsimp only
  repeat' first
    | with_reducible assumption
    | intro _
    | with_reducible apply ite_keeps
    | split
    | with_reducible apply Keeps.lit

theorem setPstate_keeps {p : Pg} {st : Nat} (kp : p ≠ q₀) (hU : Keeps q₀ s₀ s) : Keeps q₀ s₀ (setPstate s p st) := by
  unfold setPstate
  try dsimp only
  repeat' first
    | with_reducible assumption
    | intro _
    | with_reducible apply ite_keeps
    | with_reducible apply wf_keeps
    | split
    | with_reducible apply Keeps.lit

theorem resetPage_keeps {p : Pg} (kp : p ≠ q₀) (hU : Keeps q₀ s₀ s) : Keeps q₀ s₀ (resetPage s p) := by
  have e : ∀ o, decide (((q₀, o) : RegKey).1 = p) = false := fun o => by simpa using Ne.symm kp
  exact ⟨fun o => (Tbl.get_drop_apart _ (fun k : RegKey => decide (k.1 = p)) (e o) _).trans (hU.regs o),
    fun o => (Tbl.get_drop_apart _ (fun k : RegKey => decide (k.1 = p)) (e o) _).trans (hU.shadows o)⟩

theorem nextFree_keeps (hU : Keeps q₀ s₀ s) : Keeps q₀ s₀ (nextFree s) := by
  unfold nextFree
  try dsimp only
  repeat' first
    | with_reducible assumption
    | intro _
    | with_reducible apply ite_keeps
    | split
    | with_reducible apply Keeps.lit

theorem emit_keeps {o : Out} (hU : Keeps q₀ s₀ s) : Keeps q₀ s₀ (emit s o) := by
  unfold emit
  try dsimp only
  repeat' first
    | with_reducible assumption
    | intro _
    | with_reducible apply ite_keeps
    | split
    | with_reducible apply Keeps.lit

end Sys2Proof.Laws
end

