-- ==== Sys2Proof/Laws/FlagsReg.lean ====
section
/-!
SUPPORT. The register pages that each operation of `Machine/Flags.lean` may write: every other page reads as before.
-/

set_option Elab.async false
set_option linter.unusedTactic false
set_option linter.unreachableTactic false
namespace Sys2Proof.Laws

open Sys2Proof.Machine

variable {q₀ : Pg} {s₀ s : State}

theorem msix_keeps {d : Nat} {v : Nat} (hU : Keeps q₀ s₀ s) : Keeps q₀ s₀ (msix s d v) := by
  unfold msix
  try dsimp only
  repeat' first
    | with_reducible assumption
    | intro _
    | with_reducible apply ite_keeps
    | with_reducible apply emit_keeps
    | split
    | with_reducible apply Keeps.lit

theorem pageMsix_keeps {p : Pg} (hU : Keeps q₀ s₀ s) : Keeps q₀ s₀ (pageMsix s p) := by
  unfold pageMsix
  try dsimp only
  repeat' first
    | with_reducible assumption
    | intro _
    | with_reducible apply ite_keeps
    | with_reducible apply msix_keeps
    | split
    | with_reducible apply Keeps.lit

theorem latch_keeps {p : Pg} {m : Word} (kp : p ≠ q₀) (hU : Keeps q₀ s₀ s) : Keeps q₀ s₀ (latch s p m) := by
  unfold latch
  try dsimp only
  repeat' first
    | with_reducible assumption
    | intro _
    | with_reducible apply ite_keeps
    | with_reducible apply wr_keeps
    | with_reducible apply whenDo_keeps
    | with_reducible apply pageMsix_keeps
    | split
    | with_reducible apply Keeps.lit

theorem raise_keeps {p : Pg} {i : Nat} (kp : p ≠ q₀) (hU : Keeps q₀ s₀ s) : Keeps q₀ s₀ (raise s p i) := by
  unfold raise
  try dsimp only
  repeat' first
    | with_reducible assumption
    | intro _
    | with_reducible apply ite_keeps
    | with_reducible apply latch_keeps
    | split
    | with_reducible apply Keeps.lit

theorem setDyn_keeps {p : Pg} {i : Nat} {b : Bool} (kp : p ≠ q₀) (hU : Keeps q₀ s₀ s) : Keeps q₀ s₀ (setDyn s p i b) := by
  unfold setDyn
  try dsimp only
  repeat' first
    | with_reducible assumption
    | intro _
    | with_reducible apply ite_keeps
    | with_reducible apply whenDo_keeps
    | with_reducible apply wb_keeps
    | with_reducible apply raise_keeps
    | split
    | with_reducible apply Keeps.lit

theorem hoistSource_keeps {d : Nat} {src : Nat} {idx : Nat} {evt : Nat} (hU : Keeps q₀ s₀ s) : Keeps q₀ s₀ (hoistSource s d src idx evt) := by
  unfold hoistSource
  try dsimp only
  repeat' first
    | with_reducible assumption
    | intro _
    | with_reducible apply ite_keeps
    | split
    | with_reducible apply Keeps.lit

theorem outQueued_keeps {d : Nat} {sec : Bool} {n : Nat} (k_mbox : ∀ d b, pgMbox d b ≠ q₀) (hU : Keeps q₀ s₀ s) : Keeps q₀ s₀ (outQueued s d sec n) := by
  unfold outQueued
  try dsimp only
  repeat' first
    | with_reducible assumption
    | with_reducible exact k_mbox _ _
    | intro _
    | with_reducible apply ite_keeps
    | with_reducible apply wf_keeps
    | split
    | with_reducible apply Keeps.lit

theorem noticeOn_keeps {d : Nat} {sec : Bool} {n : Nat} {code : Nat} {args : List Word} (k_mbox : ∀ d b, pgMbox d b ≠ q₀) (hU : Keeps q₀ s₀ s) : Keeps q₀ s₀ (noticeOn s d sec n code args) := by
  unfold noticeOn
  try dsimp only
  repeat' first
    | with_reducible assumption
    | with_reducible exact k_mbox _ _
    | intro _
    | with_reducible apply ite_keeps
    | with_reducible apply raise_keeps
    | with_reducible apply count_keeps
    | with_reducible apply outQueued_keeps
    | with_reducible apply setMbox_keeps
    | split
    | with_reducible apply Keeps.lit

theorem notice_keeps {d : Nat} {n : Nat} {code : Nat} {args : List Word} (k_mbox : ∀ d b, pgMbox d b ≠ q₀) (hU : Keeps q₀ s₀ s) : Keeps q₀ s₀ (notice s d n code args) := by
  unfold notice
  try dsimp only
  repeat' first
    | with_reducible assumption
    | with_reducible exact k_mbox _ _
    | intro _
    | with_reducible apply ite_keeps
    | with_reducible apply noticeOn_keeps
    | split
    | with_reducible apply Keeps.lit

theorem logErr_keeps {r : Req} {p : Pg} {off : Nat} {write : Bool} {code : Nat} (kp : p ≠ q₀) (hU : Keeps q₀ s₀ s) : Keeps q₀ s₀ (logErr s r p off write code) := by
  unfold logErr
  try dsimp only
  repeat' first
    | with_reducible assumption
    | intro _
    | with_reducible apply ite_keeps
    | with_reducible apply wb_keeps
    | with_reducible apply wr_keeps
    | split
    | with_reducible apply Keeps.lit

theorem ctxEvt_keeps {d : Nat} {k : Nat} {i : Nat} (k_ctx : ∀ d, pgCtx d ≠ q₀) (hU : Keeps q₀ s₀ s) : Keeps q₀ s₀ (ctxEvt s d k i) := by
  unfold ctxEvt
  try dsimp only
  repeat' first
    | with_reducible assumption
    | with_reducible exact k_ctx _
    | intro _
    | with_reducible apply ite_keeps
    | with_reducible apply hoistSource_keeps
    | with_reducible apply wr_keeps
    | with_reducible apply whenDo_keeps
    | with_reducible apply setDyn_keeps
    | split
    | with_reducible apply Keeps.lit

end Sys2Proof.Laws
end

