-- ==== Sys2Proof/Laws/SecCoreReg.lean ====
section
/-!
SUPPORT. The register pages that each operation of `Machine/SecCore.lean` may write: every other page reads as before.
-/

set_option Elab.async false
set_option linter.unusedTactic false
set_option linter.unreachableTactic false
namespace Sys2Proof.Laws

open Sys2Proof.Machine

variable {q₀ : Pg} {s₀ s : State}

theorem noFwFollow_keeps (hU : Keeps q₀ s₀ s) : Keeps q₀ s₀ (noFwFollow s) := by
  unfold noFwFollow
  try dsimp only
  repeat' first
    | with_reducible assumption
    | intro _
    | with_reducible apply ite_keeps
    | split
    | with_reducible apply Keeps.lit

theorem allowedFollow_keeps (k_mode : ∀ d, pgMode d ≠ q₀) (hU : Keeps q₀ s₀ s) : Keeps q₀ s₀ (allowedFollow s) := by
  unfold allowedFollow
  try dsimp only
  repeat' first
    | with_reducible assumption
    | with_reducible exact k_mode _
    | intro _
    | with_reducible apply ite_keeps
    | with_reducible apply noFwFollow_keeps
    | with_reducible apply raise_keeps
    | with_reducible apply wr_keeps
    | split
    | with_reducible apply Keeps.lit

theorem injFollow_keeps {d : Nat} (k_inject : ∀ d, pgInject d ≠ q₀) (k_ijl : ∀ d, pgIjl d ≠ q₀) (hU : Keeps q₀ s₀ s) : Keeps q₀ s₀ (injFollow s d) := by
  unfold injFollow
  try dsimp only
  repeat' first
    | with_reducible assumption
    | with_reducible exact k_inject _
    | with_reducible exact k_ijl _
    | intro _
    | with_reducible apply ite_keeps
    | with_reducible apply raise_keeps
    | with_reducible apply wb_keeps
    | with_reducible apply setDyn_keeps
    | split
    | with_reducible apply Keeps.lit

theorem dbgClose_keeps {d : Nat} (k_die : ∀ d, pgDie d ≠ q₀) (k_mode : ∀ d, pgMode d ≠ q₀) (k_debug : ∀ d, pgDebug d ≠ q₀) (hU : Keeps q₀ s₀ s) : Keeps q₀ s₀ (dbgClose s d) := by
  unfold dbgClose
  try dsimp only
  repeat' first
    | with_reducible assumption
    | with_reducible exact k_die _
    | with_reducible exact k_mode _
    | with_reducible exact k_debug _
    | intro _
    | with_reducible apply ite_keeps
    | with_reducible apply wb_keeps
    | with_reducible apply setDie_keeps
    | with_reducible apply allowedFollow_keeps
    | with_reducible apply raise_keeps
    | split
    | with_reducible apply Keeps.lit

theorem sessClose_keeps {d : Nat} (k_sess : ∀ d, pgSess d ≠ q₀) (hU : Keeps q₀ s₀ s) : Keeps q₀ s₀ (sessClose s d) := by
  unfold sessClose
  try dsimp only
  repeat' first
    | with_reducible assumption
    | with_reducible exact k_sess _
    | intro _
    | with_reducible apply ite_keeps
    | with_reducible apply raise_keeps
    | with_reducible apply wf_keeps
    | with_reducible apply setDie_keeps
    | split
    | with_reducible apply Keeps.lit

theorem injPick_keeps {d : Nat} {cls : Nat} {dir : Nat} {t : Nat} (k_inject : ∀ d, pgInject d ≠ q₀) (hU : Keeps q₀ s₀ s) : Keeps q₀ s₀ (injPick s d cls dir t).2 := by
  unfold injPick
  try dsimp only
  repeat' first
    | with_reducible assumption
    | with_reducible exact k_inject _
    | intro _
    | with_reducible apply ite_keeps
    | with_reducible apply setDie_keeps
    | with_reducible apply wr_keeps
    | with_reducible apply raise_keeps
    | with_reducible apply count_keeps
    | with_reducible apply whenDo_keeps
    | split
    | with_reducible apply Keeps.lit

end Sys2Proof.Laws
end

