-- ==== Sys2Proof/Laws/AxisCoreReg.lean ====
section
/-!
SUPPORT. The register pages that each operation of `Machine/AxisCore.lean` may write: every other page reads as before.
-/

set_option Elab.async false
set_option linter.unusedTactic false
set_option linter.unreachableTactic false
namespace Sys2Proof.Laws

open Sys2Proof.Machine

variable {q₀ : Pg} {s₀ s : State}

theorem setMstate_keeps {d : Nat} {a : Nat} {m : Nat} (k_ax : ∀ d i, pgAx d i ≠ q₀) (hU : Keeps q₀ s₀ s) : Keeps q₀ s₀ (setMstate s d a m) := by
  unfold setMstate
  try dsimp only
  repeat' first
    | with_reducible assumption
    | with_reducible exact k_ax _ _
    | intro _
    | with_reducible apply ite_keeps
    | with_reducible apply wf_keeps
    | split
    | with_reducible apply Keeps.lit

theorem setHphase_keeps {d : Nat} {a : Nat} {h : Nat} (k_ax : ∀ d i, pgAx d i ≠ q₀) (hU : Keeps q₀ s₀ s) : Keeps q₀ s₀ (setHphase s d a h) := by
  unfold setHphase
  try dsimp only
  repeat' first
    | with_reducible assumption
    | with_reducible exact k_ax _ _
    | intro _
    | with_reducible apply ite_keeps
    | with_reducible apply wf_keeps
    | split
    | with_reducible apply Keeps.lit

theorem setPosValid_keeps {d : Nat} {a : Nat} {b : Bool} (k_ax : ∀ d i, pgAx d i ≠ q₀) (hU : Keeps q₀ s₀ s) : Keeps q₀ s₀ (setPosValid s d a b) := by
  unfold setPosValid
  try dsimp only
  repeat' first
    | with_reducible assumption
    | with_reducible exact k_ax _ _
    | intro _
    | with_reducible apply ite_keeps
    | with_reducible apply wb_keeps
    | split
    | with_reducible apply Keeps.lit

end Sys2Proof.Laws
end

