-- ==== Sys2Proof/Laws/ChuteReg.lean ====
section
/-!
SUPPORT. The register pages that each operation of `Machine/Chute.lean` may write: every other page reads as before.
-/

set_option Elab.async false
set_option linter.unusedTactic false
set_option linter.unreachableTactic false
namespace Sys2Proof.Laws

open Sys2Proof.Machine

variable {q₀ : Pg} {s₀ s : State}

theorem cgFollow_keeps {d : Nat} (k_chuteGlobal : ∀ d, pgChuteGlobal d ≠ q₀) (hU : Keeps q₀ s₀ s) : Keeps q₀ s₀ (cgFollow s d) := by
  unfold cgFollow
  try dsimp only
  repeat' first
    | with_reducible assumption
    | with_reducible exact k_chuteGlobal _
    | intro _
    | with_reducible apply ite_keeps
    | with_reducible apply whenDo_keeps
    | with_reducible apply setDyn_keeps
    | split
    | with_reducible apply Keeps.lit

theorem chuteFollow_keeps {d : Nat} {c : Nat} (k_chuteGlobal : ∀ d, pgChuteGlobal d ≠ q₀) (k_chute : ∀ d i, pgChute d i ≠ q₀) (hU : Keeps q₀ s₀ s) : Keeps q₀ s₀ (chuteFollow s d c) := by
  unfold chuteFollow
  try dsimp only
  repeat' first
    | with_reducible assumption
    | with_reducible exact k_chuteGlobal _
    | with_reducible exact k_chute _ _
    | intro _
    | with_reducible apply ite_keeps
    | with_reducible apply cgFollow_keeps
    | with_reducible apply whenDo_keeps
    | with_reducible apply setDyn_keeps
    | with_reducible apply hoistSource_keeps
    | split
    | with_reducible apply Keeps.lit

theorem chuteEvt_keeps {d : Nat} {c : Nat} {i : Nat} {g : Nat} (k_chuteGlobal : ∀ d, pgChuteGlobal d ≠ q₀) (k_chute : ∀ d i, pgChute d i ≠ q₀) (hU : Keeps q₀ s₀ s) : Keeps q₀ s₀ (chuteEvt s d c i g) := by
  unfold chuteEvt
  try dsimp only
  repeat' first
    | with_reducible assumption
    | with_reducible exact k_chuteGlobal _
    | with_reducible exact k_chute _ _
    | intro _
    | with_reducible apply ite_keeps
    | with_reducible apply raise_keeps
    | with_reducible apply whenDo_keeps
    | split
    | with_reducible apply Keeps.lit

theorem chuteCount_keeps {d : Nat} {c : Nat} {off : Nat} {total : Nat} (k_chuteGlobal : ∀ d, pgChuteGlobal d ≠ q₀) (k_chute : ∀ d i, pgChute d i ≠ q₀) (hU : Keeps q₀ s₀ s) : Keeps q₀ s₀ (chuteCount s d c off total) := by
  unfold chuteCount
  try dsimp only
  repeat' first
    | with_reducible assumption
    | with_reducible exact k_chuteGlobal _
    | with_reducible exact k_chute _ _
    | intro _
    | with_reducible apply ite_keeps
    | with_reducible apply count_keeps
    | with_reducible apply whenDo_keeps
    | split
    | with_reducible apply Keeps.lit

theorem chuteLost_keeps {d : Nat} {c : Nat} (k_chuteGlobal : ∀ d, pgChuteGlobal d ≠ q₀) (k_chute : ∀ d i, pgChute d i ≠ q₀) (hU : Keeps q₀ s₀ s) : Keeps q₀ s₀ (chuteLost s d c) := by
  unfold chuteLost
  try dsimp only
  repeat' first
    | with_reducible assumption
    | with_reducible exact k_chuteGlobal _
    | with_reducible exact k_chute _ _
    | intro _
    | with_reducible apply ite_keeps
    | with_reducible apply chuteEvt_keeps
    | with_reducible apply chuteCount_keeps
    | split
    | with_reducible apply Keeps.lit

theorem spotted_keeps {d : Nat} {c : Nat} (k_chuteGlobal : ∀ d, pgChuteGlobal d ≠ q₀) (k_chute : ∀ d i, pgChute d i ≠ q₀) (hU : Keeps q₀ s₀ s) : Keeps q₀ s₀ (spotted s d c) := by
  unfold spotted
  try dsimp only
  repeat' first
    | with_reducible assumption
    | with_reducible exact k_chuteGlobal _
    | with_reducible exact k_chute _ _
    | intro _
    | with_reducible apply ite_keeps
    | with_reducible apply chuteEvt_keeps
    | with_reducible apply chuteCount_keeps
    | split
    | with_reducible apply Keeps.lit

theorem spotGone_keeps {d : Nat} {c : Nat} {ws : List CWord} (k_chuteGlobal : ∀ d, pgChuteGlobal d ≠ q₀) (k_chute : ∀ d i, pgChute d i ≠ q₀) (hU : Keeps q₀ s₀ s) : Keeps q₀ s₀ (spotGone s d c ws) := by
  unfold spotGone
  try dsimp only
  repeat' first
    | with_reducible assumption
    | with_reducible exact k_chuteGlobal _
    | with_reducible exact k_chute _ _
    | intro _
    | with_reducible apply ite_keeps
    | with_reducible apply each_keeps
    | with_reducible apply spotted_keeps
    | split
    | with_reducible apply Keeps.lit

theorem chuteLostN_keeps {x0 : Nat} {x2 : Nat} {x3 : Nat} (k_chuteGlobal : ∀ d, pgChuteGlobal d ≠ q₀) (k_chute : ∀ d i, pgChute d i ≠ q₀) (hU : Keeps q₀ s₀ s) : Keeps q₀ s₀ (chuteLostN x0 s x2 x3) := by
  induction x0 generalizing s x2 x3 with
  | zero => exact hU
  | succ n ih =>
    unfold chuteLostN
    try dsimp only
    repeat' first
      | with_reducible assumption
      | with_reducible apply ih
      | with_reducible exact k_chuteGlobal _
      | with_reducible exact k_chute _ _
      | intro _
      | with_reducible apply ite_keeps
      | with_reducible apply chuteLost_keeps
      | split

theorem chuteRoom_keeps {d : Nat} {c : Nat} {n : Nat} (k_chuteGlobal : ∀ d, pgChuteGlobal d ≠ q₀) (k_chute : ∀ d i, pgChute d i ≠ q₀) (hU : Keeps q₀ s₀ s) : Keeps q₀ s₀ (chuteRoom s d c n) := by
  unfold chuteRoom
  try dsimp only
  repeat' first
    | with_reducible assumption
    | with_reducible exact k_chuteGlobal _
    | with_reducible exact k_chute _ _
    | intro _
    | with_reducible apply ite_keeps
    | with_reducible apply spotGone_keeps
    | with_reducible apply chuteLostN_keeps
    | with_reducible apply setChute_keeps
    | split
    | with_reducible apply Keeps.lit

theorem chuteRoomTail_keeps {d : Nat} {c : Nat} (k_chuteGlobal : ∀ d, pgChuteGlobal d ≠ q₀) (k_chute : ∀ d i, pgChute d i ≠ q₀) (hU : Keeps q₀ s₀ s) : Keeps q₀ s₀ (chuteRoomTail s d c) := by
  unfold chuteRoomTail
  try dsimp only
  repeat' first
    | with_reducible assumption
    | with_reducible exact k_chuteGlobal _
    | with_reducible exact k_chute _ _
    | intro _
    | with_reducible apply ite_keeps
    | with_reducible apply spotGone_keeps
    | with_reducible apply chuteLostN_keeps
    | with_reducible apply setChute_keeps
    | split
    | with_reducible apply Keeps.lit

theorem chuteRecord_keeps {d : Nat} {c : Nat} {ws : List Word} (k_chuteGlobal : ∀ d, pgChuteGlobal d ≠ q₀) (k_chute : ∀ d i, pgChute d i ≠ q₀) (hU : Keeps q₀ s₀ s) : Keeps q₀ s₀ (chuteRecord s d c ws) := by
  unfold chuteRecord
  try dsimp only
  repeat' first
    | with_reducible assumption
    | with_reducible exact k_chuteGlobal _
    | with_reducible exact k_chute _ _
    | intro _
    | with_reducible apply ite_keeps
    | with_reducible apply chuteRoom_keeps
    | with_reducible apply chuteFollow_keeps
    | with_reducible apply setChute_keeps
    | with_reducible apply chuteLost_keeps
    | split
    | with_reducible apply Keeps.lit

theorem mirrorWrite_keeps {d : Nat} {c : Nat} (hU : Keeps q₀ s₀ s) : Keeps q₀ s₀ (mirrorWrite s d c) := by
  unfold mirrorWrite
  try dsimp only
  repeat' first
    | with_reducible assumption
    | intro _
    | with_reducible apply ite_keeps
    | with_reducible apply setChute_keeps
    | with_reducible apply emit_keeps
    | split
    | with_reducible apply Keeps.lit

theorem mirrorFollow_keeps {d : Nat} {c : Nat} (hU : Keeps q₀ s₀ s) : Keeps q₀ s₀ (mirrorFollow s d c) := by
  unfold mirrorFollow
  try dsimp only
  repeat' first
    | with_reducible assumption
    | intro _
    | with_reducible apply ite_keeps
    | with_reducible apply mirrorWrite_keeps
    | split
    | with_reducible apply Keeps.lit

theorem creditBack_keeps {d : Nat} {c : Nat} {n : Nat} (hU : Keeps q₀ s₀ s) : Keeps q₀ s₀ (creditBack s d c n) := by
  unfold creditBack
  try dsimp only
  repeat' first
    | with_reducible assumption
    | intro _
    | with_reducible apply ite_keeps
    | with_reducible apply mirrorFollow_keeps
    | with_reducible apply setChute_keeps
    | split
    | with_reducible apply Keeps.lit

theorem headTake_keeps {d : Nat} {c : Nat} (k_chuteGlobal : ∀ d, pgChuteGlobal d ≠ q₀) (k_chute : ∀ d i, pgChute d i ≠ q₀) (hU : Keeps q₀ s₀ s) : Keeps q₀ s₀ (headTake s d c).2 := by
  unfold headTake
  try dsimp only
  repeat' first
    | with_reducible assumption
    | with_reducible exact k_chuteGlobal _
    | with_reducible exact k_chute _ _
    | intro _
    | with_reducible apply ite_keeps
    | with_reducible apply setChute_keeps
    | with_reducible apply raise_keeps
    | with_reducible apply chuteCount_keeps
    | with_reducible apply spotted_keeps
    | with_reducible apply chuteFollow_keeps
    | with_reducible apply creditBack_keeps
    | split
    | with_reducible apply Keeps.lit

theorem chuteAppend_keeps {d : Nat} {c : Nat} {ws : List CWord} (k_chuteGlobal : ∀ d, pgChuteGlobal d ≠ q₀) (k_chute : ∀ d i, pgChute d i ≠ q₀) (hU : Keeps q₀ s₀ s) : Keeps q₀ s₀ (chuteAppend s d c ws) := by
  unfold chuteAppend
  try dsimp only
  repeat' first
    | with_reducible assumption
    | with_reducible exact k_chuteGlobal _
    | with_reducible exact k_chute _ _
    | intro _
    | with_reducible apply ite_keeps
    | with_reducible apply setChute_keeps
    | with_reducible apply chuteFollow_keeps
    | with_reducible apply creditBack_keeps
    | split
    | with_reducible apply Keeps.lit

theorem chuteStart_keeps {d : Nat} {c : Nat} (k_chuteGlobal : ∀ d, pgChuteGlobal d ≠ q₀) (k_chute : ∀ d i, pgChute d i ≠ q₀) (hU : Keeps q₀ s₀ s) : Keeps q₀ s₀ (chuteStart s d c) := by
  unfold chuteStart
  try dsimp only
  repeat' first
    | with_reducible assumption
    | with_reducible exact k_chuteGlobal _
    | with_reducible exact k_chute _ _
    | intro _
    | with_reducible apply ite_keeps
    | with_reducible apply setChute_keeps
    | with_reducible apply whenDo_keeps
    | with_reducible apply chuteEvt_keeps
    | with_reducible apply chuteFollow_keeps
    | with_reducible apply mirrorWrite_keeps
    | split
    | with_reducible apply Keeps.lit

end Sys2Proof.Laws
end

