-- ==== Sys2Proof/Laws/HoistCoreReg.lean ====
section
/-!
SUPPORT. The register pages that each operation of `Machine/HoistCore.lean` may write: every other page reads as before.
-/

set_option Elab.async false
set_option linter.unusedTactic false
set_option linter.unreachableTactic false
namespace Sys2Proof.Laws

open Sys2Proof.Machine

variable {q₀ : Pg} {s₀ s : State}

theorem setHcA_keeps {d : Nat} {c : Nat} {a : Nat} {addr : Nat} {host : Bool} (k_hc : ∀ d i, pgHc d i ≠ q₀) (hU : Keeps q₀ s₀ s) : Keeps q₀ s₀ (setHcA s d c a addr host) := by
  unfold setHcA
  try dsimp only
  repeat' first
    | with_reducible assumption
    | with_reducible exact k_hc _ _
    | intro _
    | with_reducible apply ite_keeps
    | with_reducible apply wr_keeps
    | with_reducible apply wr48_keeps
    | split
    | with_reducible apply Keeps.lit

theorem unreserve_keeps {d : Nat} {b : Burst} (k_chuteGlobal : ∀ d, pgChuteGlobal d ≠ q₀) (k_chute : ∀ d i, pgChute d i ≠ q₀) (hU : Keeps q₀ s₀ s) : Keeps q₀ s₀ (unreserve s d b) := by
  unfold unreserve
  try dsimp only
  repeat' first
    | with_reducible assumption
    | with_reducible exact k_chuteGlobal _
    | with_reducible exact k_chute _ _
    | intro _
    | with_reducible apply ite_keeps
    | with_reducible apply chuteFollow_keeps
    | with_reducible apply setChute_keeps
    | split
    | with_reducible apply Keeps.lit

theorem heldForget_keeps {d : Nat} {q : Nat} (hU : Keeps q₀ s₀ s) : Keeps q₀ s₀ (heldForget s d q) := by
  unfold heldForget
  try dsimp only
  repeat' first
    | with_reducible assumption
    | intro _
    | with_reducible apply ite_keeps
    | with_reducible apply each_keeps
    | with_reducible apply setHoist_keeps
    | split
    | with_reducible apply Keeps.lit

theorem hcDrop_keeps {d : Nat} {c : Nat} (k_chuteGlobal : ∀ d, pgChuteGlobal d ≠ q₀) (k_chute : ∀ d i, pgChute d i ≠ q₀) (hU : Keeps q₀ s₀ s) : Keeps q₀ s₀ (hcDrop s d c) := by
  unfold hcDrop
  try dsimp only
  repeat' first
    | with_reducible assumption
    | with_reducible exact k_chuteGlobal _
    | with_reducible exact k_chute _ _
    | intro _
    | with_reducible apply ite_keeps
    | with_reducible apply setHoist_keeps
    | with_reducible apply each_keeps
    | with_reducible apply unreserve_keeps
    | split
    | with_reducible apply Keeps.lit

theorem hcUnhold_keeps {d : Nat} {c : Nat} (k_chuteGlobal : ∀ d, pgChuteGlobal d ≠ q₀) (k_chute : ∀ d i, pgChute d i ≠ q₀) (hU : Keeps q₀ s₀ s) : Keeps q₀ s₀ (hcUnhold s d c) := by
  unfold hcUnhold
  try dsimp only
  repeat' first
    | with_reducible assumption
    | with_reducible exact k_chuteGlobal _
    | with_reducible exact k_chute _ _
    | intro _
    | with_reducible apply ite_keeps
    | with_reducible apply each_keeps
    | with_reducible apply setHoist_keeps
    | with_reducible apply unreserve_keeps
    | split
    | with_reducible apply Keeps.lit

theorem cqFollow_keeps {d : Nat} {q : Nat} {kept : Bool} (k_hoistGlobal : ∀ d, pgHoistGlobal d ≠ q₀) (hU : Keeps q₀ s₀ s) : Keeps q₀ s₀ (cqFollow s d q kept) := by
  unfold cqFollow
  try dsimp only
  repeat' first
    | with_reducible assumption
    | with_reducible exact k_hoistGlobal _
    | intro _
    | with_reducible apply ite_keeps
    | with_reducible apply setDyn_keeps
    | split
    | with_reducible apply Keeps.lit

theorem cqAppend_keeps {d : Nat} {c : Nat} {kind : Nat} {code : Nat} {q : Nat} {instr : Bool} (k_hoistGlobal : ∀ d, pgHoistGlobal d ≠ q₀) (hU : Keeps q₀ s₀ s) : Keeps q₀ s₀ (cqAppend s d c kind code q instr) := by
  unfold cqAppend
  try dsimp only
  repeat' first
    | with_reducible assumption
    | with_reducible exact k_hoistGlobal _
    | intro _
    | with_reducible apply ite_keeps
    | with_reducible apply cqFollow_keeps
    | with_reducible apply setCqRecs_keeps
    | split
    | with_reducible apply Keeps.lit

theorem hcUnsig_keeps {d : Nat} {c : Nat} (k_hoistGlobal : ∀ d, pgHoistGlobal d ≠ q₀) (hU : Keeps q₀ s₀ s) : Keeps q₀ s₀ (hcUnsig s d c) := by
  unfold hcUnsig
  try dsimp only
  repeat' first
    | with_reducible assumption
    | with_reducible exact k_hoistGlobal _
    | intro _
    | with_reducible apply ite_keeps
    | with_reducible apply setCqRecs_keeps
    | with_reducible apply setHoist_keeps
    | with_reducible apply each_keeps
    | with_reducible apply cqFollow_keeps
    | split
    | with_reducible apply Keeps.lit

theorem errRecord_keeps {d : Nat} {c : Nat} {kind : Nat} {code : Nat} (k_hoistGlobal : ∀ d, pgHoistGlobal d ≠ q₀) (hU : Keeps q₀ s₀ s) : Keeps q₀ s₀ (errRecord s d c kind code) := by
  unfold errRecord
  try dsimp only
  repeat' first
    | with_reducible assumption
    | with_reducible exact k_hoistGlobal _
    | intro _
    | with_reducible apply ite_keeps
    | with_reducible apply cqAppend_keeps
    | split
    | with_reducible apply Keeps.lit

theorem hcFinish_keeps {d : Nat} {c : Nat} {w : Word} (k_hc : ∀ d i, pgHc d i ≠ q₀) (hU : Keeps q₀ s₀ s) : Keeps q₀ s₀ (hcFinish s d c w) := by
  unfold hcFinish
  try dsimp only
  repeat' first
    | with_reducible assumption
    | with_reducible exact k_hc _ _
    | intro _
    | with_reducible apply ite_keeps
    | with_reducible apply setHoist_keeps
    | with_reducible apply raise_keeps
    | with_reducible apply hoistSource_keeps
    | with_reducible apply whenDo_keeps
    | split
    | with_reducible apply Keeps.lit

theorem cqDone_keeps {d : Nat} {r : CqRec} (k_hoistGlobal : ∀ d, pgHoistGlobal d ≠ q₀) (k_hc : ∀ d i, pgHc d i ≠ q₀) (hU : Keeps q₀ s₀ s) : Keeps q₀ s₀ (cqDone s d r) := by
  unfold cqDone
  try dsimp only
  repeat' first
    | with_reducible assumption
    | with_reducible exact k_hoistGlobal _
    | with_reducible exact k_hc _ _
    | intro _
    | with_reducible apply ite_keeps
    | with_reducible apply cqFollow_keeps
    | with_reducible apply setCqRecs_keeps
    | with_reducible apply hcFinish_keeps
    | split
    | with_reducible apply Keeps.lit

theorem cqWrite_keeps {d : Nat} {q : Nat} (k_hoistGlobal : ∀ d, pgHoistGlobal d ≠ q₀) (k_hc : ∀ d i, pgHc d i ≠ q₀) (hU : Keeps q₀ s₀ s) : Keeps q₀ s₀ (cqWrite s d q) := by
  unfold cqWrite
  try dsimp only
  repeat' first
    | with_reducible assumption
    | with_reducible exact k_hoistGlobal _
    | with_reducible exact k_hc _ _
    | intro _
    | with_reducible apply ite_keeps
    | with_reducible apply cqDone_keeps
    | with_reducible apply emit_keeps
    | with_reducible apply wr_keeps
    | with_reducible apply raise_keeps
    | split
    | with_reducible apply Keeps.lit

end Sys2Proof.Laws
end

