-- ==== Sys2Proof/Laws/MemoryReg.lean ====
section
/-!
SUPPORT. The register pages that each operation of `Machine/Memory.lean` may write: every other page reads as before.
-/

set_option Elab.async false
set_option linter.unusedTactic false
set_option linter.unreachableTactic false
namespace Sys2Proof.Laws

open Sys2Proof.Machine

variable {q₀ : Pg} {s₀ s : State}

theorem logRecord_keeps {d : Nat} {cd : Nat} {x : Rec} (k_fence : ∀ d, pgFence d ≠ q₀) (k_chuteGlobal : ∀ d, pgChuteGlobal d ≠ q₀) (k_chute : ∀ d i, pgChute d i ≠ q₀) (hU : Keeps q₀ s₀ s) : Keeps q₀ s₀ (logRecord s d cd x) := by
  unfold logRecord
  try dsimp only
  repeat' first
    | with_reducible assumption
    | with_reducible exact k_fence _
    | with_reducible exact k_chuteGlobal _
    | with_reducible exact k_chute _ _
    | intro _
    | with_reducible apply ite_keeps
    | with_reducible apply count_keeps
    | with_reducible apply setDie_keeps
    | with_reducible apply chuteRecord_keeps
    | split
    | with_reducible apply Keeps.lit

theorem wrWord_keeps {a : Nat} {w : Word} (hU : Keeps q₀ s₀ s) : Keeps q₀ s₀ (wrWord s a w) := by
  unfold wrWord
  try dsimp only
  repeat' first
    | with_reducible assumption
    | intro _
    | with_reducible apply ite_keeps
    | split
    | with_reducible apply Keeps.lit

theorem poisonWord_keeps {a : Nat} (hU : Keeps q₀ s₀ s) : Keeps q₀ s₀ (poisonWord s a) := by
  unfold poisonWord
  try dsimp only
  repeat' first
    | with_reducible assumption
    | intro _
    | with_reducible apply ite_keeps
    | split
    | with_reducible apply Keeps.lit

theorem reportBad_keeps {d : Nat} {dps : Bool} {w : Nat} {src : Nat} {eff : Option Link} {reason : Nat} (k_fence : ∀ d, pgFence d ≠ q₀) (k_memctl : ∀ d, pgMemctl d ≠ q₀) (k_chuteGlobal : ∀ d, pgChuteGlobal d ≠ q₀) (k_chute : ∀ d i, pgChute d i ≠ q₀) (hU : Keeps q₀ s₀ s) : Keeps q₀ s₀ (reportBad s d dps w src eff reason) := by
  unfold reportBad
  try dsimp only
  repeat' first
    | with_reducible assumption
    | with_reducible exact k_fence _
    | with_reducible exact k_memctl _
    | with_reducible exact k_chuteGlobal _
    | with_reducible exact k_chute _ _
    | intro _
    | with_reducible apply ite_keeps
    | with_reducible apply wr48_keeps
    | with_reducible apply wr_keeps
    | with_reducible apply raise_keeps
    | with_reducible apply count_keeps
    | with_reducible apply logRecord_keeps
    | with_reducible apply whenDo_keeps
    | with_reducible apply setMemSt_keeps
    | split
    | with_reducible apply Keeps.lit

theorem readWord_keeps {d : Nat} {dps : Bool} {w : Nat} {src : Nat} {eff : Option Link} {reason : Nat} (k_fence : ∀ d, pgFence d ≠ q₀) (k_memctl : ∀ d, pgMemctl d ≠ q₀) (k_chuteGlobal : ∀ d, pgChuteGlobal d ≠ q₀) (k_chute : ∀ d i, pgChute d i ≠ q₀) (hU : Keeps q₀ s₀ s) : Keeps q₀ s₀ (readWord s d dps w src eff reason).2.2 := by
  unfold readWord
  try dsimp only
  repeat' first
    | with_reducible assumption
    | with_reducible exact k_fence _
    | with_reducible exact k_memctl _
    | with_reducible exact k_chuteGlobal _
    | with_reducible exact k_chute _ _
    | intro _
    | with_reducible apply ite_keeps
    | with_reducible apply raise_keeps
    | with_reducible apply count_keeps
    | with_reducible apply reportBad_keeps
    | split
    | with_reducible apply Keeps.lit

theorem readWords_keeps {x0 : Nat} {x2 : Nat} {x3 : Bool} {x4 : Nat} {x5 : Nat} {x6 : Option Link} {x7 : Nat} (k_fence : ∀ d, pgFence d ≠ q₀) (k_memctl : ∀ d, pgMemctl d ≠ q₀) (k_chuteGlobal : ∀ d, pgChuteGlobal d ≠ q₀) (k_chute : ∀ d i, pgChute d i ≠ q₀) (hU : Keeps q₀ s₀ s) : Keeps q₀ s₀ (readWords x0 s x2 x3 x4 x5 x6 x7).2.2 := by
  induction x0 generalizing s x2 x3 x4 x5 x6 x7 with
  | zero => exact hU
  | succ n ih =>
    unfold readWords
    try dsimp only
    repeat' first
      | with_reducible assumption
      | with_reducible apply ih
      | with_reducible exact k_fence _
      | with_reducible exact k_memctl _
      | with_reducible exact k_chuteGlobal _
      | with_reducible exact k_chute _ _
      | intro _
      | with_reducible apply ite_keeps
      | with_reducible apply readWord_keeps
      | (with_reducible refine trip_keeps (by assumption) ?_)
      | split
      | with_reducible apply Keeps.lit

theorem spillRead_keeps {d : Nat} {c : Nat} {i : Nat} (k_fence : ∀ d, pgFence d ≠ q₀) (k_memctl : ∀ d, pgMemctl d ≠ q₀) (k_chuteGlobal : ∀ d, pgChuteGlobal d ≠ q₀) (k_chute : ∀ d i, pgChute d i ≠ q₀) (hU : Keeps q₀ s₀ s) : Keeps q₀ s₀ (spillRead s d c i) := by
  unfold spillRead
  try dsimp only
  repeat' first
    | with_reducible assumption
    | with_reducible exact k_fence _
    | with_reducible exact k_memctl _
    | with_reducible exact k_chuteGlobal _
    | with_reducible exact k_chute _ _
    | intro _
    | with_reducible apply ite_keeps
    | with_reducible apply setChute_keeps
    | with_reducible apply raise_keeps
    | with_reducible apply chuteCount_keeps
    | with_reducible apply count_keeps
    | with_reducible apply spotted_keeps
    | with_reducible apply reportBad_keeps
    | with_reducible apply nextFree_keeps
    | split
    | with_reducible apply Keeps.lit

theorem chuteTake_keeps {d : Nat} {c : Nat} (k_fence : ∀ d, pgFence d ≠ q₀) (k_memctl : ∀ d, pgMemctl d ≠ q₀) (k_chuteGlobal : ∀ d, pgChuteGlobal d ≠ q₀) (k_chute : ∀ d i, pgChute d i ≠ q₀) (hU : Keeps q₀ s₀ s) : Keeps q₀ s₀ (chuteTake s d c).2 := by
  unfold chuteTake
  try dsimp only
  repeat' first
    | with_reducible assumption
    | with_reducible exact k_fence _
    | with_reducible exact k_memctl _
    | with_reducible exact k_chuteGlobal _
    | with_reducible exact k_chute _ _
    | intro _
    | with_reducible apply ite_keeps
    | with_reducible apply headTake_keeps
    | with_reducible apply each_keeps
    | with_reducible apply spillRead_keeps
    | (with_reducible refine pair_keeps (by assumption) ?_)
    | split
    | with_reducible apply Keeps.lit

theorem chuteSkip_keeps {d : Nat} {c : Nat} {n : Nat} (k_fence : ∀ d, pgFence d ≠ q₀) (k_memctl : ∀ d, pgMemctl d ≠ q₀) (k_chuteGlobal : ∀ d, pgChuteGlobal d ≠ q₀) (k_chute : ∀ d i, pgChute d i ≠ q₀) (hU : Keeps q₀ s₀ s) : Keeps q₀ s₀ (chuteSkip s d c n) := by
  unfold chuteSkip
  try dsimp only
  repeat' first
    | with_reducible assumption
    | with_reducible exact k_fence _
    | with_reducible exact k_memctl _
    | with_reducible exact k_chuteGlobal _
    | with_reducible exact k_chute _ _
    | intro _
    | with_reducible apply ite_keeps
    | with_reducible apply each_keeps
    | with_reducible apply chuteTake_keeps
    | (with_reducible refine pair_keeps (by assumption) ?_)
    | split
    | with_reducible apply Keeps.lit

theorem retWrite_keeps {d : Nat} {w : Nat} {v : Word} (k_retain : ∀ d, pgRetain d ≠ q₀) (hU : Keeps q₀ s₀ s) : Keeps q₀ s₀ (retWrite s d w v) := by
  unfold retWrite
  try dsimp only
  repeat' first
    | with_reducible assumption
    | with_reducible exact k_retain _
    | intro _
    | with_reducible apply ite_keeps
    | with_reducible apply wr48_keeps
    | split
    | with_reducible apply Keeps.lit

theorem retWrites_keeps {d : Nat} {w : Nat} {vs : List Word} (k_retain : ∀ d, pgRetain d ≠ q₀) (hU : Keeps q₀ s₀ s) : Keeps q₀ s₀ (retWrites s d w vs) := by
  unfold retWrites
  try dsimp only
  repeat' first
    | with_reducible assumption
    | with_reducible exact k_retain _
    | intro _
    | with_reducible apply ite_keeps
    | with_reducible apply each_keeps
    | with_reducible apply retWrite_keeps
    | split
    | with_reducible apply Keeps.lit

end Sys2Proof.Laws
end

