-- ==== Sys2Proof/Laws/OperandsReg.lean ====
section
/-!
SUPPORT. The register pages that each operation of `Machine/Operands.lean` may write: every other page reads as before.
-/

set_option Elab.async false
set_option linter.unusedTactic false
set_option linter.unreachableTactic false
namespace Sys2Proof.Laws

open Sys2Proof.Machine

variable {q₀ : Pg} {s₀ s : State}

theorem unsupported_keeps {bar : Nat} {off : Nat} {write : Bool} (k_pcie : pgPcie ≠ q₀) (hU : Keeps q₀ s₀ s) : Keeps q₀ s₀ (unsupported s bar off write) := by
  unfold unsupported
  try dsimp only
  repeat' first
    | with_reducible assumption
    | with_reducible exact k_pcie
    | intro _
    | with_reducible apply ite_keeps
    | with_reducible apply count_keeps
    | with_reducible apply wr_keeps
    | with_reducible apply raise_keeps
    | split
    | with_reducible apply Keeps.lit

theorem noAnswer_keeps {r : Req} {bar : Nat} {off : Nat} {write : Bool} (k_pcie : pgPcie ≠ q₀) (hU : Keeps q₀ s₀ s) : Keeps q₀ s₀ (noAnswer s r bar off write) := by
  unfold noAnswer
  try dsimp only
  repeat' first
    | with_reducible assumption
    | with_reducible exact k_pcie
    | intro _
    | with_reducible apply ite_keeps
    | with_reducible apply unsupported_keeps
    | split
    | with_reducible apply Keeps.lit

theorem denyCount_keeps {r : Req} {p : Pg} {write : Bool} {mem : Bool} (k_guard : ∀ d, pgGuard d ≠ q₀) (hU : Keeps q₀ s₀ s) : Keeps q₀ s₀ (denyCount s r p write mem) := by
  unfold denyCount
  try dsimp only
  repeat' first
    | with_reducible assumption
    | with_reducible exact k_guard _
    | intro _
    | with_reducible apply ite_keeps
    | with_reducible apply wr_keeps
    | with_reducible apply count_keeps
    | with_reducible apply raise_keeps
    | split
    | with_reducible apply Keeps.lit

theorem touchSession_keeps {r : Req} {p : Pg} (hU : Keeps q₀ s₀ s) : Keeps q₀ s₀ (touchSession s r p) := by
  unfold touchSession
  try dsimp only
  repeat' first
    | with_reducible assumption
    | intro _
    | with_reducible apply ite_keeps
    | with_reducible apply setDie_keeps
    | split
    | with_reducible apply Keeps.lit

theorem fencedWrite_keeps {r : Req} {p : Pg} {off : Nat} (kp : p ≠ q₀) (hU : Keeps q₀ s₀ s) : Keeps q₀ s₀ (fencedWrite s r p off) := by
  unfold fencedWrite
  try dsimp only
  repeat' first
    | with_reducible assumption
    | intro _
    | with_reducible apply ite_keeps
    | with_reducible apply logErr_keeps
    | split
    | with_reducible apply Keeps.lit

theorem guardedWrite_keeps {r : Req} {p : Pg} {off : Nat} {eff : State → State} (kp : p ≠ q₀) (k_pcie : pgPcie ≠ q₀) (k_guard : ∀ d, pgGuard d ≠ q₀) (hU : Keeps q₀ s₀ s) (hf_eff : ∀ tU, Keeps q₀ s₀ tU → Keeps q₀ s₀ (eff tU)) : Keeps q₀ s₀ (guardedWrite s r p off eff) := by
  unfold guardedWrite
  try dsimp only
  repeat' first
    | with_reducible assumption
    | with_reducible exact k_pcie
    | with_reducible exact k_guard _
    | intro _
    | with_reducible apply ite_keeps
    | with_reducible apply hf_eff
    | with_reducible apply unsupported_keeps
    | with_reducible apply noAnswer_keeps
    | with_reducible apply logErr_keeps
    | with_reducible apply denyCount_keeps
    | with_reducible apply fencedWrite_keeps
    | with_reducible apply touchSession_keeps
    | split
    | with_reducible apply Keeps.lit

theorem transferUppers_keeps {p : Pg} {off : Nat} {n : Nat} {shadow : Bool} (kp : p ≠ q₀) (hU : Keeps q₀ s₀ s) : Keeps q₀ s₀ (transferUppers s p off n shadow) := by
  unfold transferUppers
  try dsimp only
  repeat' first
    | with_reducible assumption
    | intro _
    | with_reducible apply ite_keeps
    | with_reducible apply each_keeps
    | with_reducible apply wrShadow_keeps
    | with_reducible apply wr_keeps
    | split
    | with_reducible apply Keeps.lit

theorem tickWrite_keeps {r : Req} {k : RegKey} {row : RegRow} {old : Word} {v : Word} (hU : Keeps q₀ s₀ s) : Keeps q₀ s₀ (tickWrite s r k row old v).2 := by
  unfold tickWrite
  try dsimp only
  repeat' first
    | with_reducible assumption
    | intro _
    | with_reducible apply ite_keeps
    | split
    | with_reducible apply Keeps.lit

theorem rowWrite_keeps {r : Req} {p : Pg} {off : Nat} {row : RegRow} {v : Word} (kp : p ≠ q₀) (hU : Keeps q₀ s₀ s) : Keeps q₀ s₀ (rowWrite s r p off row v) := by
  unfold rowWrite
  try dsimp only
  repeat' first
    | with_reducible assumption
    | intro _
    | with_reducible apply ite_keeps
    | with_reducible apply wr_keeps
    | with_reducible apply tickWrite_keeps
    | with_reducible apply transferUppers_keeps
    | with_reducible apply logErr_keeps
    | with_reducible apply wrShadow_keeps
    | (with_reducible refine pair_keeps (by assumption) ?_)
    | split
    | with_reducible apply Keeps.lit

theorem plainWrite_keeps {r : Req} {p : Pg} {off : Nat} {v : Word} (kp : p ≠ q₀) (hU : Keeps q₀ s₀ s) : Keeps q₀ s₀ (plainWrite s r p off v) := by
  unfold plainWrite
  try dsimp only
  repeat' first
    | with_reducible assumption
    | intro _
    | with_reducible apply ite_keeps
    | with_reducible apply rowWrite_keeps
    | split
    | with_reducible apply Keeps.lit

theorem capture_keeps {r : Req} {p : Pg} {off : Nat} {val : State → Pg → Nat → Word} (hU : Keeps q₀ s₀ s) : Keeps q₀ s₀ (capture s r p off val) := by
  unfold capture
  try dsimp only
  repeat' first
    | with_reducible assumption
    | intro _
    | with_reducible apply ite_keeps
    | with_reducible apply each_keeps
    | split
    | with_reducible apply Keeps.lit

theorem guardedRead_keeps {r : Req} {p : Pg} {off : Nat} {val : State → Pg → Nat → Word} {eff : State → State} (kp : p ≠ q₀) (k_pcie : pgPcie ≠ q₀) (k_guard : ∀ d, pgGuard d ≠ q₀) (hU : Keeps q₀ s₀ s) (hf_eff : ∀ tU, Keeps q₀ s₀ tU → Keeps q₀ s₀ (eff tU)) : Keeps q₀ s₀ (guardedRead s r p off val eff) := by
  unfold guardedRead
  try dsimp only
  repeat' first
    | with_reducible assumption
    | with_reducible exact k_pcie
    | with_reducible exact k_guard _
    | intro _
    | with_reducible apply ite_keeps
    | with_reducible apply hf_eff
    | with_reducible apply unsupported_keeps
    | with_reducible apply noAnswer_keeps
    | with_reducible apply denyCount_keeps
    | with_reducible apply logErr_keeps
    | with_reducible apply touchSession_keeps
    | with_reducible apply capture_keeps
    | split
    | with_reducible apply Keeps.lit

end Sys2Proof.Laws
end

