-- ==== Sys2Proof/Laws/TallyReg.lean ====
section
/-!
SUPPORT. The register pages that each operation of `Machine/Tally.lean` may write: every other page reads as before.
-/

set_option Elab.async false
set_option linter.unusedTactic false
set_option linter.unreachableTactic false
namespace Sys2Proof.Laws

open Sys2Proof.Machine

variable {q₀ : Pg} {s₀ s : State}

theorem tlCopies_keeps {d : Nat} (k_tally : ∀ d, pgTally d ≠ q₀) (hU : Keeps q₀ s₀ s) : Keeps q₀ s₀ (tlCopies s d) := by
  unfold tlCopies
  try dsimp only
  repeat' first
    | with_reducible assumption
    | with_reducible exact k_tally _
    | intro _
    | with_reducible apply ite_keeps
    | with_reducible apply each_keeps
    | with_reducible apply wr_keeps
    | split
    | with_reducible apply Keeps.lit

theorem tlFresh_keeps {d : Nat} (k_tally : ∀ d, pgTally d ≠ q₀) (k_retain : ∀ d, pgRetain d ≠ q₀) (hU : Keeps q₀ s₀ s) : Keeps q₀ s₀ (tlFresh s d) := by
  unfold tlFresh
  try dsimp only
  repeat' first
    | with_reducible assumption
    | with_reducible exact k_tally _
    | with_reducible exact k_retain _
    | intro _
    | with_reducible apply ite_keeps
    | with_reducible apply raise_keeps
    | with_reducible apply retWrites_keeps
    | split
    | with_reducible apply Keeps.lit

theorem tlCheck_keeps {d : Nat} (k_tally : ∀ d, pgTally d ≠ q₀) (k_retain : ∀ d, pgRetain d ≠ q₀) (hU : Keeps q₀ s₀ s) : Keeps q₀ s₀ (tlCheck s d) := by
  unfold tlCheck
  try dsimp only
  repeat' first
    | with_reducible assumption
    | with_reducible exact k_tally _
    | with_reducible exact k_retain _
    | intro _
    | with_reducible apply ite_keeps
    | with_reducible apply tlFresh_keeps
    | split
    | with_reducible apply Keeps.lit

theorem tlRecord_keeps {d : Nat} {st : Nat} {last : Nat} {alt : Nat} {detail : Nat} {us : Nat} (k_retain : ∀ d, pgRetain d ≠ q₀) (hU : Keeps q₀ s₀ s) : Keeps q₀ s₀ (tlRecord s d st last alt detail us) := by
  unfold tlRecord
  try dsimp only
  repeat' first
    | with_reducible assumption
    | with_reducible exact k_retain _
    | intro _
    | with_reducible apply ite_keeps
    | with_reducible apply retWrite_keeps
    | split
    | with_reducible apply Keeps.lit

theorem tlHistory_keeps {d : Nat} {outcome : Nat} (k_retain : ∀ d, pgRetain d ≠ q₀) (hU : Keeps q₀ s₀ s) : Keeps q₀ s₀ (tlHistory s d outcome) := by
  unfold tlHistory
  try dsimp only
  repeat' first
    | with_reducible assumption
    | with_reducible exact k_retain _
    | intro _
    | with_reducible apply ite_keeps
    | with_reducible apply retWrite_keeps
    | with_reducible apply retWrites_keeps
    | split
    | with_reducible apply Keeps.lit

theorem tallyClear_keeps {d : Nat} {mask : Nat} (k_tally : ∀ d, pgTally d ≠ q₀) (k_retain : ∀ d, pgRetain d ≠ q₀) (hU : Keeps q₀ s₀ s) : Keeps q₀ s₀ (tallyClear s d mask) := by
  unfold tallyClear
  try dsimp only
  repeat' first
    | with_reducible assumption
    | with_reducible exact k_tally _
    | with_reducible exact k_retain _
    | intro _
    | with_reducible apply ite_keeps
    | with_reducible apply each_keeps
    | with_reducible apply retWrite_keeps
    | with_reducible apply tlCopies_keeps
    | with_reducible apply raise_keeps
    | with_reducible apply wb_keeps
    | with_reducible apply wr_keeps
    | split
    | with_reducible apply Keeps.lit

theorem tlClearWrite_keeps {d : Nat} {v : Word} (k_tally : ∀ d, pgTally d ≠ q₀) (hU : Keeps q₀ s₀ s) : Keeps q₀ s₀ (tlClearWrite d v s) := by
  unfold tlClearWrite
  try dsimp only
  repeat' first
    | with_reducible assumption
    | with_reducible exact k_tally _
    | intro _
    | with_reducible apply ite_keeps
    | with_reducible apply wb_keeps
    | with_reducible apply wr_keeps
    | split
    | with_reducible apply Keeps.lit

theorem execTlClear_kept {r : Req} {d : Nat} {v : Word} (k_tally : ∀ d, pgTally d ≠ q₀) (k_pcie : pgPcie ≠ q₀) (k_guard : ∀ d, pgGuard d ≠ q₀) (hU : Keeps q₀ s₀ s) : Kept q₀ s₀ (execTlClear r d v s) := by
  unfold execTlClear
  try dsimp only
  repeat' first
    | with_reducible assumption
    | with_reducible exact k_tally _
    | with_reducible exact k_pcie
    | with_reducible exact k_guard _
    | intro _
    | with_reducible apply ok_kept
    | with_reducible apply ite_kept
    | with_reducible apply ite_keeps
    | with_reducible exact ok_kept (by assumption)
    | with_reducible apply guardedWrite_keeps
    | with_reducible apply tlClearWrite_keeps
    | split
    | with_reducible apply Keeps.lit

theorem execCleared_kept {d : Nat} (k_tally : ∀ d, pgTally d ≠ q₀) (k_retain : ∀ d, pgRetain d ≠ q₀) (hU : Keeps q₀ s₀ s) : Kept q₀ s₀ (execCleared d s) := by
  unfold execCleared
  try dsimp only
  repeat' first
    | with_reducible assumption
    | with_reducible exact k_tally _
    | with_reducible exact k_retain _
    | intro _
    | with_reducible apply ok_kept
    | with_reducible apply ite_kept
    | with_reducible apply ite_keeps
    | with_reducible exact ok_kept (by assumption)
    | with_reducible apply tallyClear_keeps
    | split
    | with_reducible apply Keeps.lit

end Sys2Proof.Laws
end

