-- ==== Sys2Proof/Laws/FramesReg.lean ====
section
/-!
SUPPORT. The register pages that each operation of `Machine/Frames.lean` may write: every other page reads as before.
-/

set_option Elab.async false
set_option linter.unusedTactic false
set_option linter.unreachableTactic false
namespace Sys2Proof.Laws

open Sys2Proof.Machine

variable {q₀ : Pg} {s₀ s : State}

theorem queueFrame_keeps {d : Nat} {p : Nat} {f : Frame} (hU : Keeps q₀ s₀ s) : Keeps q₀ s₀ (queueFrame s d p f) := by
  unfold queueFrame
  try dsimp only
  repeat' first
    | with_reducible assumption
    | intro _
    | with_reducible apply ite_keeps
    | with_reducible apply setPort_keeps
    | split
    | with_reducible apply Keeps.lit

theorem setCycle_keeps {d : Nat} {p : Nat} {c : Cycle} (hU : Keeps q₀ s₀ s) : Keeps q₀ s₀ (setCycle s d p c) := by
  unfold setCycle
  try dsimp only
  repeat' first
    | with_reducible assumption
    | intro _
    | with_reducible apply ite_keeps
    | with_reducible apply setPort_keeps
    | split
    | with_reducible apply Keeps.lit

theorem keepLine_keeps {d : Nat} {k : Nat} {c : Cycle} (hU : Keeps q₀ s₀ s) : Keeps q₀ s₀ (keepLine s d k c) := by
  unfold keepLine
  try dsimp only
  repeat' first
    | with_reducible assumption
    | intro _
    | with_reducible apply ite_keeps
    | with_reducible apply setCtx_keeps
    | split
    | with_reducible apply Keeps.lit

theorem withdraw_keeps {d : Nat} {p : Nat} {k : Nat} {c : Cycle} (hU : Keeps q₀ s₀ s) : Keeps q₀ s₀ (withdraw s d p k c) := by
  unfold withdraw
  try dsimp only
  repeat' first
    | with_reducible assumption
    | intro _
    | with_reducible apply ite_keeps
    | with_reducible apply setCycle_keeps
    | with_reducible apply queueFrame_keeps
    | with_reducible apply setPort_keeps
    | split
    | with_reducible apply Keeps.lit

theorem withdrawAll_keeps {d : Nat} {k : Nat} {f : Cycle → Bool} (hU : Keeps q₀ s₀ s) : Keeps q₀ s₀ (withdrawAll s d k f) := by
  unfold withdrawAll
  try dsimp only
  repeat' first
    | with_reducible assumption
    | intro _
    | with_reducible apply ite_keeps
    | with_reducible apply each_keeps
    | with_reducible apply withdraw_keeps
    | with_reducible apply keepLine_keeps
    | split
    | with_reducible apply Keeps.lit

theorem linkStat_keeps {d : Nat} {p : Nat} (k_hp : ∀ d i, pgHp d i ≠ q₀) (hU : Keeps q₀ s₀ s) : Keeps q₀ s₀ (linkStat s d p) := by
  unfold linkStat
  try dsimp only
  repeat' first
    | with_reducible assumption
    | with_reducible exact k_hp _ _
    | intro _
    | with_reducible apply ite_keeps
    | with_reducible apply wr_keeps
    | split
    | with_reducible apply Keeps.lit

end Sys2Proof.Laws
end

