-- ==== Sys2Proof/Laws/SeamReg.lean ====
section
/-!
SUPPORT. The register pages that each operation of `Machine/Seam.lean` may write: every other page reads as before.
-/

set_option Elab.async false
set_option linter.unusedTactic false
set_option linter.unreachableTactic false
namespace Sys2Proof.Laws

open Sys2Proof.Machine

variable {q₀ : Pg} {s₀ s : State}

theorem seamPurge_keeps {d : Nat} {k : Nat} {e : Nat} {j : Nat} (hU : Keeps q₀ s₀ s) : Keeps q₀ s₀ (seamPurge s d k e j) := by
  unfold seamPurge
  try dsimp only
  repeat' first
    | with_reducible assumption
    | intro _
    | with_reducible apply ite_keeps
    | split
    | with_reducible apply Keeps.lit

theorem seamSet_keeps {d : Nat} {k : Nat} {st : Nat} {cause : Nat} (k_seam : ∀ d, pgSeam d ≠ q₀) (hU : Keeps q₀ s₀ s) : Keeps q₀ s₀ (seamSet s d k st cause) := by
  unfold seamSet
  try dsimp only
  repeat' first
    | with_reducible assumption
    | with_reducible exact k_seam _
    | intro _
    | with_reducible apply ite_keeps
    | with_reducible apply seamPurge_keeps
    | with_reducible apply setCtx_keeps
    | with_reducible apply wr_keeps
    | with_reducible apply whenDo_keeps
    | with_reducible apply raise_keeps
    | split
    | with_reducible apply Keeps.lit

theorem seamUpdate_keeps {d : Nat} {k : Nat} (k_seam : ∀ d, pgSeam d ≠ q₀) (hU : Keeps q₀ s₀ s) : Keeps q₀ s₀ (seamUpdate s d k) := by
  unfold seamUpdate
  try dsimp only
  repeat' first
    | with_reducible assumption
    | with_reducible exact k_seam _
    | intro _
    | with_reducible apply ite_keeps
    | with_reducible apply seamSet_keeps
    | split
    | with_reducible apply Keeps.lit

theorem seamsUpdate_keeps {d : Nat} (k_seam : ∀ d, pgSeam d ≠ q₀) (hU : Keeps q₀ s₀ s) : Keeps q₀ s₀ (seamsUpdate s d) := by
  unfold seamsUpdate
  try dsimp only
  repeat' first
    | with_reducible assumption
    | with_reducible exact k_seam _
    | intro _
    | with_reducible apply ite_keeps
    | with_reducible apply each_keeps
    | with_reducible apply seamUpdate_keeps
    | split
    | with_reducible apply Keeps.lit

end Sys2Proof.Laws
end

