-- ==== Sys2Proof/Laws/CtxReg.lean ====
section
/-!
SUPPORT. The register pages that each operation of `Machine/Ctx.lean` may write: every other page reads as before.
-/

set_option Elab.async false
set_option linter.unusedTactic false
set_option linter.unreachableTactic false
namespace Sys2Proof.Laws

open Sys2Proof.Machine

variable {q₀ : Pg} {s₀ s : State}

theorem ctxRecord_keeps {d : Nat} {k : Nat} {cause : Nat} {fences : Bool} (k_fence : ∀ d, pgFence d ≠ q₀) (k_chuteGlobal : ∀ d, pgChuteGlobal d ≠ q₀) (k_chute : ∀ d i, pgChute d i ≠ q₀) (hU : Keeps q₀ s₀ s) : Keeps q₀ s₀ (ctxRecord s d k cause fences) := by
  unfold ctxRecord
  try dsimp only
  repeat' first
    | with_reducible assumption
    | with_reducible exact k_fence _
    | with_reducible exact k_chuteGlobal _
    | with_reducible exact k_chute _ _
    | intro _
    | with_reducible apply ite_keeps
    | with_reducible apply logRecord_keeps
    | split
    | with_reducible apply Keeps.lit

theorem ctxLate_keeps {d : Nat} {k : Nat} (k_ctx : ∀ d, pgCtx d ≠ q₀) (hU : Keeps q₀ s₀ s) : Keeps q₀ s₀ (ctxLate s d k) := by
  unfold ctxLate
  try dsimp only
  repeat' first
    | with_reducible assumption
    | with_reducible exact k_ctx _
    | intro _
    | with_reducible apply ite_keeps
    | with_reducible apply ctxEvt_keeps
    | with_reducible apply setCtx_keeps
    | split
    | with_reducible apply Keeps.lit

theorem ctxNull_keeps {d : Nat} {k : Nat} (hU : Keeps q₀ s₀ s) : Keeps q₀ s₀ (ctxNull s d k) := by
  unfold ctxNull
  try dsimp only
  repeat' first
    | with_reducible assumption
    | intro _
    | with_reducible apply ite_keeps
    | with_reducible apply setCtx_keeps
    | split
    | with_reducible apply Keeps.lit

theorem lineDone_keeps {d : Nat} {k : Nat} {blank : Bool} (hU : Keeps q₀ s₀ s) : Keeps q₀ s₀ (lineDone s d k blank) := by
  unfold lineDone
  try dsimp only
  repeat' first
    | with_reducible assumption
    | intro _
    | with_reducible apply ite_keeps
    | with_reducible apply setCtx_keeps
    | split
    | with_reducible apply Keeps.lit

theorem ctxDegraded_keeps {d : Nat} {k : Nat} (hU : Keeps q₀ s₀ s) : Keeps q₀ s₀ (ctxDegraded s d k) := by
  unfold ctxDegraded
  try dsimp only
  repeat' first
    | with_reducible assumption
    | intro _
    | with_reducible apply ite_keeps
    | with_reducible apply setCtx_keeps
    | split
    | with_reducible apply Keeps.lit

theorem stallFollow_keeps {d : Nat} {k : Nat} (hU : Keeps q₀ s₀ s) : Keeps q₀ s₀ (stallFollow s d k) := by
  unfold stallFollow
  try dsimp only
  repeat' first
    | with_reducible assumption
    | intro _
    | with_reducible apply ite_keeps
    | with_reducible apply setCtx_keeps
    | split
    | with_reducible apply Keeps.lit

theorem stallReset_keeps {d : Nat} {k : Nat} (hU : Keeps q₀ s₀ s) : Keeps q₀ s₀ (stallReset s d k) := by
  unfold stallReset
  try dsimp only
  repeat' first
    | with_reducible assumption
    | intro _
    | with_reducible apply ite_keeps
    | with_reducible apply setCtx_keeps
    | split
    | with_reducible apply Keeps.lit

theorem stallMark_keeps {d : Nat} {k : Nat} (hU : Keeps q₀ s₀ s) : Keeps q₀ s₀ (stallMark s d k) := by
  unfold stallMark
  try dsimp only
  repeat' first
    | with_reducible assumption
    | intro _
    | with_reducible apply ite_keeps
    | with_reducible apply stallFollow_keeps
    | with_reducible apply setCtx_keeps
    | split
    | with_reducible apply Keeps.lit

theorem withRetry_keeps {d : Nat} {p : Nat} {g : Nat} {f : State → State} (k_hp : ∀ d i, pgHp d i ≠ q₀) (hU : Keeps q₀ s₀ s) (hf_f : ∀ tU, Keeps q₀ s₀ tU → Keeps q₀ s₀ (f tU)) : Keeps q₀ s₀ (withRetry s d p g f) := by
  unfold withRetry
  try dsimp only
  repeat' first
    | with_reducible assumption
    | with_reducible exact k_hp _ _
    | intro _
    | with_reducible apply ite_keeps
    | with_reducible apply hf_f
    | with_reducible apply linkStat_keeps
    | with_reducible apply each_keeps
    | with_reducible apply stallFollow_keeps
    | split
    | with_reducible apply Keeps.lit

theorem dropMoved_keeps {d : Nat} {k : Nat} (k_echo : ∀ d, pgEcho d ≠ q₀) (hU : Keeps q₀ s₀ s) : Keeps q₀ s₀ (dropMoved s d k) := by
  unfold dropMoved
  try dsimp only
  repeat' first
    | with_reducible assumption
    | with_reducible exact k_echo _
    | intro _
    | with_reducible apply ite_keeps
    | with_reducible apply setEcho_keeps
    | with_reducible apply raise_keeps
    | with_reducible apply countBy_keeps
    | split
    | with_reducible apply Keeps.lit

theorem sweepBreak_keeps {d : Nat} {f : Nat → Bool} (hU : Keeps q₀ s₀ s) : Keeps q₀ s₀ (sweepBreak s d f) := by
  unfold sweepBreak
  try dsimp only
  repeat' first
    | with_reducible assumption
    | intro _
    | with_reducible apply ite_keeps
    | with_reducible apply setEcho_keeps
    | split
    | with_reducible apply Keeps.lit

theorem staleMeas_keeps {d : Nat} {k : Nat} (hU : Keeps q₀ s₀ s) : Keeps q₀ s₀ (staleMeas s d k) := by
  unfold staleMeas
  try dsimp only
  repeat' first
    | with_reducible assumption
    | intro _
    | with_reducible apply ite_keeps
    | with_reducible apply setEcho_keeps
    | split
    | with_reducible apply Keeps.lit

theorem ctxFence_keeps {d : Nat} {k : Nat} {cause : Nat} (k_seam : ∀ d, pgSeam d ≠ q₀) (k_echo : ∀ d, pgEcho d ≠ q₀) (k_ctx : ∀ d, pgCtx d ≠ q₀) (hU : Keeps q₀ s₀ s) : Keeps q₀ s₀ (ctxFence s d k cause) := by
  unfold ctxFence
  try dsimp only
  repeat' first
    | with_reducible assumption
    | with_reducible exact k_seam _
    | with_reducible exact k_echo _
    | with_reducible exact k_ctx _
    | intro _
    | with_reducible apply ite_keeps
    | with_reducible apply withdrawAll_keeps
    | with_reducible apply stallFollow_keeps
    | with_reducible apply setCtx_keeps
    | with_reducible apply seamUpdate_keeps
    | with_reducible apply sweepBreak_keeps
    | with_reducible apply staleMeas_keeps
    | with_reducible apply dropMoved_keeps
    | with_reducible apply ctxEvt_keeps
    | split
    | with_reducible apply Keeps.lit

theorem ctxPoison_keeps {d : Nat} {k : Nat} (k_seam : ∀ d, pgSeam d ≠ q₀) (k_echo : ∀ d, pgEcho d ≠ q₀) (k_ctx : ∀ d, pgCtx d ≠ q₀) (hU : Keeps q₀ s₀ s) : Keeps q₀ s₀ (ctxPoison s d k) := by
  unfold ctxPoison
  try dsimp only
  repeat' first
    | with_reducible assumption
    | with_reducible exact k_seam _
    | with_reducible exact k_echo _
    | with_reducible exact k_ctx _
    | intro _
    | with_reducible apply ite_keeps
    | with_reducible apply ctxFence_keeps
    | split
    | with_reducible apply Keeps.lit

theorem ctxRead_keeps {d : Nat} {k : Nat} {dps : Bool} {w : Nat} {n : Nat} (k_fence : ∀ d, pgFence d ≠ q₀) (k_memctl : ∀ d, pgMemctl d ≠ q₀) (k_chuteGlobal : ∀ d, pgChuteGlobal d ≠ q₀) (k_seam : ∀ d, pgSeam d ≠ q₀) (k_echo : ∀ d, pgEcho d ≠ q₀) (k_ctx : ∀ d, pgCtx d ≠ q₀) (k_chute : ∀ d i, pgChute d i ≠ q₀) (hU : Keeps q₀ s₀ s) : Keeps q₀ s₀ (ctxRead s d k dps w n).2.2 := by
  unfold ctxRead
  try dsimp only
  repeat' first
    | with_reducible assumption
    | with_reducible exact k_fence _
    | with_reducible exact k_memctl _
    | with_reducible exact k_chuteGlobal _
    | with_reducible exact k_seam _
    | with_reducible exact k_echo _
    | with_reducible exact k_ctx _
    | with_reducible exact k_chute _ _
    | intro _
    | with_reducible apply ite_keeps
    | with_reducible apply readWords_keeps
    | with_reducible apply ctxPoison_keeps
    | (with_reducible refine trip_keeps (by assumption) ?_)
    | split
    | with_reducible apply Keeps.lit

theorem geomReport_keeps {d : Nat} {k : Nat} {code : Nat} (k_seam : ∀ d, pgSeam d ≠ q₀) (hU : Keeps q₀ s₀ s) : Keeps q₀ s₀ (geomReport s d k code) := by
  unfold geomReport
  try dsimp only
  repeat' first
    | with_reducible assumption
    | with_reducible exact k_seam _
    | intro _
    | with_reducible apply ite_keeps
    | with_reducible apply setCtx_keeps
    | with_reducible apply raise_keeps
    | with_reducible apply wr_keeps
    | split
    | with_reducible apply Keeps.lit

theorem checkSeamMask_keeps {d : Nat} {k : Nat} (k_seam : ∀ d, pgSeam d ≠ q₀) (hU : Keeps q₀ s₀ s) : Keeps q₀ s₀ (checkSeamMask s d k) := by
  unfold checkSeamMask
  try dsimp only
  repeat' first
    | with_reducible assumption
    | with_reducible exact k_seam _
    | intro _
    | with_reducible apply ite_keeps
    | with_reducible apply geomReport_keeps
    | split
    | with_reducible apply Keeps.lit

theorem readDescr_keeps {d : Nat} {k : Nat} (k_fence : ∀ d, pgFence d ≠ q₀) (k_memctl : ∀ d, pgMemctl d ≠ q₀) (k_chuteGlobal : ∀ d, pgChuteGlobal d ≠ q₀) (k_seam : ∀ d, pgSeam d ≠ q₀) (k_echo : ∀ d, pgEcho d ≠ q₀) (k_ctx : ∀ d, pgCtx d ≠ q₀) (k_chute : ∀ d i, pgChute d i ≠ q₀) (hU : Keeps q₀ s₀ s) : Keeps q₀ s₀ (readDescr s d k) := by
  unfold readDescr
  try dsimp only
  repeat' first
    | with_reducible assumption
    | with_reducible exact k_fence _
    | with_reducible exact k_memctl _
    | with_reducible exact k_chuteGlobal _
    | with_reducible exact k_seam _
    | with_reducible exact k_echo _
    | with_reducible exact k_ctx _
    | with_reducible exact k_chute _ _
    | intro _
    | with_reducible apply ite_keeps
    | with_reducible apply setCtx_keeps
    | with_reducible apply geomReport_keeps
    | with_reducible apply ctxRead_keeps
    | with_reducible apply checkSeamMask_keeps
    | (with_reducible refine trip_keeps (by assumption) ?_)
    | split
    | with_reducible apply Keeps.lit

theorem checkDescr_keeps {d : Nat} {k : Nat} (k_fence : ∀ d, pgFence d ≠ q₀) (k_memctl : ∀ d, pgMemctl d ≠ q₀) (k_chuteGlobal : ∀ d, pgChuteGlobal d ≠ q₀) (k_seam : ∀ d, pgSeam d ≠ q₀) (k_echo : ∀ d, pgEcho d ≠ q₀) (k_ctx : ∀ d, pgCtx d ≠ q₀) (k_chute : ∀ d i, pgChute d i ≠ q₀) (hU : Keeps q₀ s₀ s) : Keeps q₀ s₀ (checkDescr s d k) := by
  unfold checkDescr
  try dsimp only
  repeat' first
    | with_reducible assumption
    | with_reducible exact k_fence _
    | with_reducible exact k_memctl _
    | with_reducible exact k_chuteGlobal _
    | with_reducible exact k_seam _
    | with_reducible exact k_echo _
    | with_reducible exact k_ctx _
    | with_reducible exact k_chute _ _
    | intro _
    | with_reducible apply ite_keeps
    | with_reducible apply seamUpdate_keeps
    | with_reducible apply readDescr_keeps
    | split
    | with_reducible apply Keeps.lit

theorem mapReload_keeps {d : Nat} {k : Nat} (k_echo : ∀ d, pgEcho d ≠ q₀) (hU : Keeps q₀ s₀ s) : Keeps q₀ s₀ (mapReload s d k) := by
  unfold mapReload
  try dsimp only
  repeat' first
    | with_reducible assumption
    | with_reducible exact k_echo _
    | intro _
    | with_reducible apply ite_keeps
    | with_reducible apply setCtx_keeps
    | with_reducible apply raise_keeps
    | with_reducible apply wr_keeps
    | split
    | with_reducible apply Keeps.lit

theorem ctxDiff_keeps {d : Nat} {k : Nat} (k_hp : ∀ d i, pgHp d i ≠ q₀) (hU : Keeps q₀ s₀ s) : Keeps q₀ s₀ (ctxDiff s d k) := by
  unfold ctxDiff
  try dsimp only
  repeat' first
    | with_reducible assumption
    | with_reducible exact k_hp _ _
    | intro _
    | with_reducible apply ite_keeps
    | with_reducible apply raise_keeps
    | split
    | with_reducible apply Keeps.lit

theorem ctxHandOver_keeps {d : Nat} {k : Nat} (k_fence : ∀ d, pgFence d ≠ q₀) (k_memctl : ∀ d, pgMemctl d ≠ q₀) (k_chuteGlobal : ∀ d, pgChuteGlobal d ≠ q₀) (k_hp : ∀ d i, pgHp d i ≠ q₀) (k_seam : ∀ d, pgSeam d ≠ q₀) (k_echo : ∀ d, pgEcho d ≠ q₀) (k_ctx : ∀ d, pgCtx d ≠ q₀) (k_chute : ∀ d i, pgChute d i ≠ q₀) (hU : Keeps q₀ s₀ s) : Keeps q₀ s₀ (ctxHandOver s d k) := by
  unfold ctxHandOver
  try dsimp only
  repeat' first
    | with_reducible assumption
    | with_reducible exact k_fence _
    | with_reducible exact k_memctl _
    | with_reducible exact k_chuteGlobal _
    | with_reducible exact k_hp _ _
    | with_reducible exact k_seam _
    | with_reducible exact k_echo _
    | with_reducible exact k_ctx _
    | with_reducible exact k_chute _ _
    | intro _
    | with_reducible apply ite_keeps
    | with_reducible apply ctxRead_keeps
    | with_reducible apply setCtx_keeps
    | with_reducible apply wr_keeps
    | with_reducible apply stallFollow_keeps
    | with_reducible apply checkDescr_keeps
    | with_reducible apply ctxDiff_keeps
    | with_reducible apply ctxEvt_keeps
    | with_reducible apply staleMeas_keeps
    | with_reducible apply mapReload_keeps
    | (with_reducible refine trip_keeps (by assumption) ?_)
    | split
    | with_reducible apply Keeps.lit

theorem tryHandOver_keeps {d : Nat} {k : Nat} (k_fence : ∀ d, pgFence d ≠ q₀) (k_memctl : ∀ d, pgMemctl d ≠ q₀) (k_chuteGlobal : ∀ d, pgChuteGlobal d ≠ q₀) (k_hp : ∀ d i, pgHp d i ≠ q₀) (k_seam : ∀ d, pgSeam d ≠ q₀) (k_echo : ∀ d, pgEcho d ≠ q₀) (k_ctx : ∀ d, pgCtx d ≠ q₀) (k_chute : ∀ d i, pgChute d i ≠ q₀) (hU : Keeps q₀ s₀ s) : Keeps q₀ s₀ (tryHandOver s d k) := by
  unfold tryHandOver
  try dsimp only
  repeat' first
    | with_reducible assumption
    | with_reducible exact k_fence _
    | with_reducible exact k_memctl _
    | with_reducible exact k_chuteGlobal _
    | with_reducible exact k_hp _ _
    | with_reducible exact k_seam _
    | with_reducible exact k_echo _
    | with_reducible exact k_ctx _
    | with_reducible exact k_chute _ _
    | intro _
    | with_reducible apply ite_keeps
    | with_reducible apply ctxHandOver_keeps
    | split
    | with_reducible apply Keeps.lit

theorem blkDrop_keeps {d : Nat} {k : Nat} (hU : Keeps q₀ s₀ s) : Keeps q₀ s₀ (blkDrop s d k) := by
  unfold blkDrop
  try dsimp only
  repeat' first
    | with_reducible assumption
    | intro _
    | with_reducible apply ite_keeps
    | with_reducible apply setChute_keeps
    | split
    | with_reducible apply Keeps.lit

theorem discardAsm_keeps {d : Nat} {k : Nat} (hU : Keeps q₀ s₀ s) : Keeps q₀ s₀ (discardAsm s d k) := by
  unfold discardAsm
  try dsimp only
  repeat' first
    | with_reducible assumption
    | intro _
    | with_reducible apply ite_keeps
    | with_reducible apply blkDrop_keeps
    | with_reducible apply setCtx_keeps
    | split
    | with_reducible apply Keeps.lit

theorem ctxEnter_keeps {d : Nat} {k : Nat} {st : CState} {cause : Nat} (k_fence : ∀ d, pgFence d ≠ q₀) (k_memctl : ∀ d, pgMemctl d ≠ q₀) (k_chuteGlobal : ∀ d, pgChuteGlobal d ≠ q₀) (k_hp : ∀ d i, pgHp d i ≠ q₀) (k_seam : ∀ d, pgSeam d ≠ q₀) (k_echo : ∀ d, pgEcho d ≠ q₀) (k_ctx : ∀ d, pgCtx d ≠ q₀) (k_chute : ∀ d i, pgChute d i ≠ q₀) (hU : Keeps q₀ s₀ s) : Keeps q₀ s₀ (ctxEnter s d k st cause) := by
  unfold ctxEnter
  try dsimp only
  repeat' first
    | with_reducible assumption
    | with_reducible exact k_fence _
    | with_reducible exact k_memctl _
    | with_reducible exact k_chuteGlobal _
    | with_reducible exact k_hp _ _
    | with_reducible exact k_seam _
    | with_reducible exact k_echo _
    | with_reducible exact k_ctx _
    | with_reducible exact k_chute _ _
    | intro _
    | with_reducible apply ite_keeps
    | with_reducible apply withdrawAll_keeps
    | with_reducible apply stallFollow_keeps
    | with_reducible apply setCtx_keeps
    | with_reducible apply ctxEvt_keeps
    | with_reducible apply dropMoved_keeps
    | with_reducible apply sweepBreak_keeps
    | with_reducible apply staleMeas_keeps
    | with_reducible apply tryHandOver_keeps
    | with_reducible apply seamUpdate_keeps
    | with_reducible apply mapReload_keeps
    | with_reducible apply checkDescr_keeps
    | split
    | with_reducible apply Keeps.lit

theorem ctxMove_keeps {d : Nat} {k : Nat} {st : CState} {cause : Nat} (k_fence : ∀ d, pgFence d ≠ q₀) (k_memctl : ∀ d, pgMemctl d ≠ q₀) (k_chuteGlobal : ∀ d, pgChuteGlobal d ≠ q₀) (k_hp : ∀ d i, pgHp d i ≠ q₀) (k_seam : ∀ d, pgSeam d ≠ q₀) (k_echo : ∀ d, pgEcho d ≠ q₀) (k_ctx : ∀ d, pgCtx d ≠ q₀) (k_chute : ∀ d i, pgChute d i ≠ q₀) (hU : Keeps q₀ s₀ s) : Keeps q₀ s₀ (ctxMove s d k st cause) := by
  unfold ctxMove
  try dsimp only
  repeat' first
    | with_reducible assumption
    | with_reducible exact k_fence _
    | with_reducible exact k_memctl _
    | with_reducible exact k_chuteGlobal _
    | with_reducible exact k_hp _ _
    | with_reducible exact k_seam _
    | with_reducible exact k_echo _
    | with_reducible exact k_ctx _
    | with_reducible exact k_chute _ _
    | intro _
    | with_reducible apply ite_keeps
    | with_reducible apply each_keeps
    | with_reducible apply ctxEnter_keeps
    | split
    | with_reducible apply Keeps.lit

theorem ctxAbortNow_keeps {d : Nat} {k : Nat} (k_fence : ∀ d, pgFence d ≠ q₀) (k_memctl : ∀ d, pgMemctl d ≠ q₀) (k_chuteGlobal : ∀ d, pgChuteGlobal d ≠ q₀) (k_hp : ∀ d i, pgHp d i ≠ q₀) (k_seam : ∀ d, pgSeam d ≠ q₀) (k_echo : ∀ d, pgEcho d ≠ q₀) (k_ctx : ∀ d, pgCtx d ≠ q₀) (k_chute : ∀ d i, pgChute d i ≠ q₀) (hU : Keeps q₀ s₀ s) : Keeps q₀ s₀ (ctxAbortNow s d k) := by
  unfold ctxAbortNow
  try dsimp only
  repeat' first
    | with_reducible assumption
    | with_reducible exact k_fence _
    | with_reducible exact k_memctl _
    | with_reducible exact k_chuteGlobal _
    | with_reducible exact k_hp _ _
    | with_reducible exact k_seam _
    | with_reducible exact k_echo _
    | with_reducible exact k_ctx _
    | with_reducible exact k_chute _ _
    | intro _
    | with_reducible apply ite_keeps
    | with_reducible apply ctxMove_keeps
    | with_reducible apply each_keeps
    | with_reducible apply discardAsm_keeps
    | split
    | with_reducible apply Keeps.lit

theorem ctxAbortAt_keeps {d : Nat} {by_ : Nat} {cause : Nat} (k_fence : ∀ d, pgFence d ≠ q₀) (k_memctl : ∀ d, pgMemctl d ≠ q₀) (k_chuteGlobal : ∀ d, pgChuteGlobal d ≠ q₀) (k_hp : ∀ d i, pgHp d i ≠ q₀) (k_seam : ∀ d, pgSeam d ≠ q₀) (k_echo : ∀ d, pgEcho d ≠ q₀) (k_ctx : ∀ d, pgCtx d ≠ q₀) (k_chute : ∀ d i, pgChute d i ≠ q₀) (hU : Keeps q₀ s₀ s) : Keeps q₀ s₀ (ctxAbortAt s d by_ cause) := by
  unfold ctxAbortAt
  try dsimp only
  repeat' first
    | with_reducible assumption
    | with_reducible exact k_fence _
    | with_reducible exact k_memctl _
    | with_reducible exact k_chuteGlobal _
    | with_reducible exact k_hp _ _
    | with_reducible exact k_seam _
    | with_reducible exact k_echo _
    | with_reducible exact k_ctx _
    | with_reducible exact k_chute _ _
    | intro _
    | with_reducible apply ite_keeps
    | with_reducible apply setCtx_keeps
    | with_reducible apply ctxAbortNow_keeps
    | split
    | with_reducible apply Keeps.lit

theorem ctxPolicyPause_keeps {d : Nat} {k : Nat} {cause : Nat} (k_fence : ∀ d, pgFence d ≠ q₀) (k_memctl : ∀ d, pgMemctl d ≠ q₀) (k_chuteGlobal : ∀ d, pgChuteGlobal d ≠ q₀) (k_hp : ∀ d i, pgHp d i ≠ q₀) (k_seam : ∀ d, pgSeam d ≠ q₀) (k_echo : ∀ d, pgEcho d ≠ q₀) (k_ctx : ∀ d, pgCtx d ≠ q₀) (k_chute : ∀ d i, pgChute d i ≠ q₀) (hU : Keeps q₀ s₀ s) : Keeps q₀ s₀ (ctxPolicyPause s d k cause) := by
  unfold ctxPolicyPause
  try dsimp only
  repeat' first
    | with_reducible assumption
    | with_reducible exact k_fence _
    | with_reducible exact k_memctl _
    | with_reducible exact k_chuteGlobal _
    | with_reducible exact k_hp _ _
    | with_reducible exact k_seam _
    | with_reducible exact k_echo _
    | with_reducible exact k_ctx _
    | with_reducible exact k_chute _ _
    | intro _
    | with_reducible apply ite_keeps
    | with_reducible apply ctxMove_keeps
    | with_reducible apply ctxAbortAt_keeps
    | split
    | with_reducible apply Keeps.lit

end Sys2Proof.Laws
end

