-- ==== Sys2Proof/Laws/TimeReg.lean ====
section
/-!
SUPPORT. The register pages that each operation of `Machine/Time.lean` may write: every other page reads as before.
-/

set_option Elab.async false
set_option linter.unusedTactic false
set_option linter.unreachableTactic false
namespace Sys2Proof.Laws

open Sys2Proof.Machine

variable {q₀ : Pg} {s₀ s : State}

theorem dieTicks_keeps {c : Nat} {n : Nat} {d : Nat} (k_tb : ∀ d, pgTb d ≠ q₀) (hU : Keeps q₀ s₀ s) : Keeps q₀ s₀ (dieTicks s c n d) := by
  unfold dieTicks
  try dsimp only
  repeat' first
    | with_reducible assumption
    | with_reducible exact k_tb _
    | intro _
    | with_reducible apply ite_keeps
    | with_reducible apply setDie_keeps
    | with_reducible apply whenDo_keeps
    | with_reducible apply raise_keeps
    | split
    | with_reducible apply Keeps.lit

theorem ticksPass_keeps {n : Nat} (k_tb : ∀ d, pgTb d ≠ q₀) (hU : Keeps q₀ s₀ s) : Keeps q₀ s₀ (ticksPass s n) := by
  unfold ticksPass
  try dsimp only
  repeat' first
    | with_reducible assumption
    | with_reducible exact k_tb _
    | intro _
    | with_reducible apply ite_keeps
    | with_reducible apply each_keeps
    | with_reducible apply dieTicks_keeps
    | split
    | with_reducible apply Keeps.lit

theorem waitClock_keeps {c : Nat} (k_tb : ∀ d, pgTb d ≠ q₀) (hU : Keeps q₀ s₀ s) : Keeps q₀ s₀ (waitClock s c) := by
  unfold waitClock
  try dsimp only
  repeat' first
    | with_reducible assumption
    | with_reducible exact k_tb _
    | intro _
    | with_reducible apply ite_keeps
    | with_reducible apply ticksPass_keeps
    | split
    | with_reducible apply Keeps.lit

theorem waitTick_keeps {d : Nat} {t : Int} (k_tb : ∀ d, pgTb d ≠ q₀) (hU : Keeps q₀ s₀ s) : Keeps q₀ s₀ (waitTick s d t) := by
  unfold waitTick
  try dsimp only
  repeat' first
    | with_reducible assumption
    | with_reducible exact k_tb _
    | intro _
    | with_reducible apply ite_keeps
    | with_reducible apply ticksPass_keeps
    | split
    | with_reducible apply Keeps.lit

theorem takeShadows_keeps {p : Pg} (kp : p ≠ q₀) (hU : Keeps q₀ s₀ s) : Keeps q₀ s₀ (takeShadows s p) := by
  unfold takeShadows
  try dsimp only
  repeat' first
    | with_reducible assumption
    | intro _
    | with_reducible apply ite_keeps
    | with_reducible apply each_keeps
    | with_reducible apply wr_keeps
    | with_reducible apply raise_keeps
    | split
    | with_reducible apply Keeps.lit

theorem stepDrop_keeps (k_tsync : pgTsync ≠ q₀) (hU : Keeps q₀ s₀ s) : Keeps q₀ s₀ (stepDrop s) := by
  unfold stepDrop
  try dsimp only
  repeat' first
    | with_reducible assumption
    | with_reducible exact k_tsync
    | intro _
    | with_reducible apply ite_keeps
    | with_reducible apply wb_keeps
    | split
    | with_reducible apply Keeps.lit

theorem sendMsg_keeps {d : Nat} {c : Nat} {k : MsgKind} (hU : Keeps q₀ s₀ s) : Keeps q₀ s₀ (sendMsg s d c k) := by
  unfold sendMsg
  try dsimp only
  repeat' first
    | with_reducible assumption
    | intro _
    | with_reducible apply ite_keeps
    | split
    | with_reducible apply Keeps.lit

/-- The state in which a message has arrived. -/
theorem takeMsg_k {d : Nat} {f : Msg → Bool} (k_tb : ∀ d, pgTb d ≠ q₀) (hU : Keeps q₀ s₀ s) {m : Msg} {tU : State}
    (e : takeMsg s d f = some (m, tU)) : Keeps q₀ s₀ tU := by
  unfold takeMsg at e
  split at e
  · cases e
  · cases e
    apply waitClock_keeps <;> first | assumption | exact Keeps.lit hU

end Sys2Proof.Laws
end

