-- ==== Sys2Proof/Laws/EncCoreReg.lean ====
section
/-!
SUPPORT. The register pages that each operation of `Machine/EncCore.lean` may write: every other page reads as before.
-/

set_option Elab.async false
set_option linter.unusedTactic false
set_option linter.unreachableTactic false
namespace Sys2Proof.Laws

open Sys2Proof.Machine

variable {q₀ : Pg} {s₀ s : State}

theorem winSync_keeps {d : Nat} {c : Nat} (hU : Keeps q₀ s₀ s) : Keeps q₀ s₀ (winSync s d c) := by
  unfold winSync
  try dsimp only
  repeat' first
    | with_reducible assumption
    | intro _
    | with_reducible apply ite_keeps
    | with_reducible apply setEnc_keeps
    | split
    | with_reducible apply Keeps.lit

theorem winShift_keeps {d : Nat} {c : Nat} {amount : Int} (hU : Keeps q₀ s₀ s) : Keeps q₀ s₀ (winShift s d c amount) := by
  unfold winShift
  try dsimp only
  repeat' first
    | with_reducible assumption
    | intro _
    | with_reducible apply ite_keeps
    | with_reducible apply setEnc_keeps
    | split
    | with_reducible apply Keeps.lit

theorem encSync_keeps {d : Nat} {c : Nat} (k_enc : ∀ d i, pgEnc d i ≠ q₀) (hU : Keeps q₀ s₀ s) : Keeps q₀ s₀ (encSync s d c) := by
  unfold encSync
  try dsimp only
  repeat' first
    | with_reducible assumption
    | with_reducible exact k_enc _ _
    | intro _
    | with_reducible apply ite_keeps
    | with_reducible apply winSync_keeps
    | with_reducible apply wr48_keeps
    | split
    | with_reducible apply Keeps.lit

theorem padB_keeps {s0 : State} {d : Nat} {c : Nat} (hU : Keeps q₀ s₀ s) (hU_s0 : Keeps q₀ s₀ s0) : Keeps q₀ s₀ (padB s0 s d c) := by
  unfold padB
  try dsimp only
  repeat' first
    | with_reducible assumption
    | intro _
    | with_reducible apply ite_keeps
    | with_reducible apply emit_keeps
    | split
    | with_reducible apply Keeps.lit

theorem serDrop_keeps {d : Nat} {c : Nat} (hU : Keeps q₀ s₀ s) : Keeps q₀ s₀ (serDrop s d c) := by
  unfold serDrop
  try dsimp only
  repeat' first
    | with_reducible assumption
    | intro _
    | with_reducible apply ite_keeps
    | with_reducible apply padB_keeps
    | with_reducible apply setEnc_keeps
    | split
    | with_reducible apply Keeps.lit

theorem encSend_keeps {d : Nat} {c : Nat} {k : MsgKind} (hU : Keeps q₀ s₀ s) : Keeps q₀ s₀ (encSend s d c k) := by
  unfold encSend
  try dsimp only
  repeat' first
    | with_reducible assumption
    | intro _
    | with_reducible apply ite_keeps
    | with_reducible apply sendMsg_keeps
    | split
    | with_reducible apply Keeps.lit

theorem encInvalid_keeps {d : Nat} {c : Nat} (k_enc : ∀ d i, pgEnc d i ≠ q₀) (hU : Keeps q₀ s₀ s) : Keeps q₀ s₀ (encInvalid s d c) := by
  unfold encInvalid
  try dsimp only
  repeat' first
    | with_reducible assumption
    | with_reducible exact k_enc _ _
    | intro _
    | with_reducible apply ite_keeps
    | with_reducible apply setDyn_keeps
    | with_reducible apply wb_keeps
    | split
    | with_reducible apply Keeps.lit

theorem pdUnlock_keeps {d : Nat} {c : Nat} {f : Nat → Bool} (hU : Keeps q₀ s₀ s) : Keeps q₀ s₀ (pdUnlock s d c f) := by
  unfold pdUnlock
  try dsimp only
  repeat' first
    | with_reducible assumption
    | intro _
    | with_reducible apply ite_keeps
    | with_reducible apply each_keeps
    | with_reducible apply setPdIn_keeps
    | split
    | with_reducible apply Keeps.lit

theorem pdMoved_keeps {d : Nat} {c : Nat} (hU : Keeps q₀ s₀ s) : Keeps q₀ s₀ (pdMoved s d c) := by
  unfold pdMoved
  try dsimp only
  repeat' first
    | with_reducible assumption
    | intro _
    | with_reducible apply ite_keeps
    | with_reducible apply pdUnlock_keeps
    | split
    | with_reducible apply Keeps.lit

theorem encLost_keeps {d : Nat} {c : Nat} (k_enc : ∀ d i, pgEnc d i ≠ q₀) (hU : Keeps q₀ s₀ s) : Keeps q₀ s₀ (encLost s d c) := by
  unfold encLost
  try dsimp only
  repeat' first
    | with_reducible assumption
    | with_reducible exact k_enc _ _
    | intro _
    | with_reducible apply ite_keeps
    | with_reducible apply raise_keeps
    | with_reducible apply encSend_keeps
    | split
    | with_reducible apply Keeps.lit

theorem axisLost_keeps {d : Nat} {a : Nat} (k_enc : ∀ d i, pgEnc d i ≠ q₀) (hU : Keeps q₀ s₀ s) : Keeps q₀ s₀ (axisLost s d a) := by
  unfold axisLost
  try dsimp only
  repeat' first
    | with_reducible assumption
    | with_reducible exact k_enc _ _
    | intro _
    | with_reducible apply ite_keeps
    | with_reducible apply each_keeps
    | with_reducible apply encLost_keeps
    | split
    | with_reducible apply Keeps.lit

end Sys2Proof.Laws
end

