-- ==== Sys2Proof/Laws/AssayReg.lean ====
section
/-!
SUPPORT. The register pages that each operation of `Machine/Assay.lean` may write: every other page reads as before.
-/

set_option Elab.async false
set_option linter.unusedTactic false
set_option linter.unreachableTactic false
namespace Sys2Proof.Laws

open Sys2Proof.Machine

variable {q₀ : Pg} {s₀ s : State}

theorem setAsChan_keeps {d : Nat} {c : Nat} {x : AsChan} (hU : Keeps q₀ s₀ s) : Keeps q₀ s₀ (setAsChan s d c x) := by
  unfold setAsChan
  try dsimp only
  repeat' first
    | with_reducible assumption
    | intro _
    | with_reducible apply ite_keeps
    | with_reducible apply setAssay_keeps
    | split
    | with_reducible apply Keeps.lit

theorem asQueue_keeps {d : Nat} {c : Nat} {kind : Nat} (hU : Keeps q₀ s₀ s) : Keeps q₀ s₀ (asQueue s d c kind) := by
  unfold asQueue
  try dsimp only
  repeat' first
    | with_reducible assumption
    | intro _
    | with_reducible apply ite_keeps
    | with_reducible apply setAsChan_keeps
    | split
    | with_reducible apply Keeps.lit

theorem asTempTrigger_keeps {d : Nat} {c : Nat} (hU : Keeps q₀ s₀ s) : Keeps q₀ s₀ (asTempTrigger s d c) := by
  unfold asTempTrigger
  try dsimp only
  repeat' first
    | with_reducible assumption
    | intro _
    | with_reducible apply ite_keeps
    | with_reducible apply asQueue_keeps
    | split
    | with_reducible apply Keeps.lit

theorem asHourly_keeps {d : Nat} (hU : Keeps q₀ s₀ s) : Keeps q₀ s₀ (asHourly s d) := by
  unfold asHourly
  try dsimp only
  repeat' first
    | with_reducible assumption
    | intro _
    | with_reducible apply ite_keeps
    | with_reducible apply each_keeps
    | with_reducible apply asQueue_keeps
    | split
    | with_reducible apply Keeps.lit

theorem setAsActive_keeps {d : Nat} {cls : Nat} {c : Option Nat} (hU : Keeps q₀ s₀ s) : Keeps q₀ s₀ (setAsActive s d cls c) := by
  unfold setAsActive
  try dsimp only
  repeat' first
    | with_reducible assumption
    | intro _
    | with_reducible apply ite_keeps
    | with_reducible apply setAssay_keeps
    | split
    | with_reducible apply Keeps.lit

theorem asRotate_keeps {d : Nat} {cls : Nat} (hU : Keeps q₀ s₀ s) : Keeps q₀ s₀ (asRotate s d cls) := by
  unfold asRotate
  try dsimp only
  repeat' first
    | with_reducible assumption
    | intro _
    | with_reducible apply ite_keeps
    | with_reducible apply asQueue_keeps
    | with_reducible apply setAssay_keeps
    | split
    | with_reducible apply Keeps.lit

theorem asModeChange_keeps {d : Nat} (hU : Keeps q₀ s₀ s) : Keeps q₀ s₀ (asModeChange s d) := by
  unfold asModeChange
  try dsimp only
  repeat' first
    | with_reducible assumption
    | intro _
    | with_reducible apply ite_keeps
    | with_reducible apply each_keeps
    | with_reducible apply setAsChan_keeps
    | split
    | with_reducible apply Keeps.lit

theorem asApply_keeps {d : Nat} {c : Nat} (hU : Keeps q₀ s₀ s) : Keeps q₀ s₀ (asApply s d c) := by
  unfold asApply
  try dsimp only
  repeat' first
    | with_reducible assumption
    | intro _
    | with_reducible apply ite_keeps
    | with_reducible apply setAsChan_keeps
    | split
    | with_reducible apply Keeps.lit

theorem asCodes_keeps {d : Nat} {c : Nat} (hU : Keeps q₀ s₀ s) : Keeps q₀ s₀ (asCodes s d c) := by
  unfold asCodes
  try dsimp only
  repeat' first
    | with_reducible assumption
    | intro _
    | with_reducible apply ite_keeps
    | with_reducible apply setAsChan_keeps
    | with_reducible apply asApply_keeps
    | split
    | with_reducible apply Keeps.lit

theorem asTempUpdate_keeps {d : Nat} (hU : Keeps q₀ s₀ s) : Keeps q₀ s₀ (asTempUpdate s d) := by
  unfold asTempUpdate
  try dsimp only
  repeat' first
    | with_reducible assumption
    | intro _
    | with_reducible apply ite_keeps
    | with_reducible apply each_keeps
    | with_reducible apply asCodes_keeps
    | with_reducible apply asTempTrigger_keeps
    | split
    | with_reducible apply Keeps.lit

theorem asEnd_keeps {d : Nat} {c : Nat} {res : Nat} (k_assay : ∀ d, pgAssay d ≠ q₀) (hU : Keeps q₀ s₀ s) : Keeps q₀ s₀ (asEnd s d c res) := by
  unfold asEnd
  try dsimp only
  repeat' first
    | with_reducible assumption
    | with_reducible exact k_assay _
    | intro _
    | with_reducible apply ite_keeps
    | with_reducible apply setAsActive_keeps
    | with_reducible apply setAsChan_keeps
    | with_reducible apply asRotate_keeps
    | with_reducible apply raise_keeps
    | split
    | with_reducible apply Keeps.lit

theorem asForget_keeps {d : Nat} {c : Nat} (hU : Keeps q₀ s₀ s) : Keeps q₀ s₀ (asForget s d c) := by
  unfold asForget
  try dsimp only
  repeat' first
    | with_reducible assumption
    | intro _
    | with_reducible apply ite_keeps
    | with_reducible apply setAsActive_keeps
    | with_reducible apply setAsChan_keeps
    | split
    | with_reducible apply Keeps.lit

theorem spareBack_keeps {d : Nat} {c : Nat} (hU : Keeps q₀ s₀ s) : Keeps q₀ s₀ (spareBack s d c) := by
  unfold spareBack
  try dsimp only
  repeat' first
    | with_reducible assumption
    | intro _
    | with_reducible apply ite_keeps
    | with_reducible apply setAssay_keeps
    | split
    | with_reducible apply Keeps.lit

theorem waitSpare_keeps {d : Nat} {cls : Nat} (k_tb : ∀ d, pgTb d ≠ q₀) (hU : Keeps q₀ s₀ s) : Keeps q₀ s₀ (waitSpare s d cls) := by
  unfold waitSpare
  try dsimp only
  repeat' first
    | with_reducible assumption
    | with_reducible exact k_tb _
    | intro _
    | with_reducible apply ite_keeps
    | with_reducible apply waitTick_keeps
    | split
    | with_reducible apply Keeps.lit

theorem asTake_keeps {d : Nat} {c : Nat} (hU : Keeps q₀ s₀ s) : Keeps q₀ s₀ (asTake s d c) := by
  unfold asTake
  try dsimp only
  repeat' first
    | with_reducible assumption
    | intro _
    | with_reducible apply ite_keeps
    | with_reducible apply setAsChan_keeps
    | split
    | with_reducible apply Keeps.lit

theorem asHandBack_keeps {d : Nat} {c : Nat} (k_assay : ∀ d, pgAssay d ≠ q₀) (hU : Keeps q₀ s₀ s) : Keeps q₀ s₀ (asHandBack s d c) := by
  unfold asHandBack
  try dsimp only
  repeat' first
    | with_reducible assumption
    | with_reducible exact k_assay _
    | intro _
    | with_reducible apply ite_keeps
    | with_reducible apply asEnd_keeps
    | with_reducible apply spareBack_keeps
    | with_reducible apply asForget_keeps
    | with_reducible apply asApply_keeps
    | split
    | with_reducible apply Keeps.lit

theorem asBoundary_keeps {d : Nat} {p : Nat} (k_assay : ∀ d, pgAssay d ≠ q₀) (hU : Keeps q₀ s₀ s) : Keeps q₀ s₀ (asBoundary s d p) := by
  unfold asBoundary
  try dsimp only
  repeat' first
    | with_reducible assumption
    | with_reducible exact k_assay _
    | intro _
    | with_reducible apply ite_keeps
    | with_reducible apply each_keeps
    | with_reducible apply asApply_keeps
    | with_reducible apply asHandBack_keeps
    | with_reducible apply asTake_keeps
    | split
    | with_reducible apply Keeps.lit

theorem asAbandon_keeps {d : Nat} {c : Nat} (k_assay : ∀ d, pgAssay d ≠ q₀) (hU : Keeps q₀ s₀ s) : Keeps q₀ s₀ (asAbandon s d c) := by
  unfold asAbandon
  try dsimp only
  repeat' first
    | with_reducible assumption
    | with_reducible exact k_assay _
    | intro _
    | with_reducible apply ite_keeps
    | with_reducible apply asForget_keeps
    | with_reducible apply setAsChan_keeps
    | with_reducible apply asHandBack_keeps
    | split
    | with_reducible apply Keeps.lit

theorem asPortFenced_keeps {d : Nat} {p : Nat} (k_assay : ∀ d, pgAssay d ≠ q₀) (hU : Keeps q₀ s₀ s) : Keeps q₀ s₀ (asPortFenced s d p) := by
  unfold asPortFenced
  try dsimp only
  repeat' first
    | with_reducible assumption
    | with_reducible exact k_assay _
    | intro _
    | with_reducible apply ite_keeps
    | with_reducible apply each_keeps
    | with_reducible apply asEnd_keeps
    | with_reducible apply spareBack_keeps
    | split
    | with_reducible apply Keeps.lit

theorem asSafe_keeps {d : Nat} (k_assay : ∀ d, pgAssay d ≠ q₀) (hU : Keeps q₀ s₀ s) : Keeps q₀ s₀ (asSafe s d) := by
  unfold asSafe
  try dsimp only
  repeat' first
    | with_reducible assumption
    | with_reducible exact k_assay _
    | intro _
    | with_reducible apply ite_keeps
    | with_reducible apply each_keeps
    | with_reducible apply asAbandon_keeps
    | split
    | with_reducible apply Keeps.lit

theorem asStop_keeps {d : Nat} (hU : Keeps q₀ s₀ s) : Keeps q₀ s₀ (asStop s d) := by
  unfold asStop
  try dsimp only
  repeat' first
    | with_reducible assumption
    | intro _
    | with_reducible apply ite_keeps
    | with_reducible apply each_keeps
    | with_reducible apply setAsChan_keeps
    | split
    | with_reducible apply Keeps.lit

theorem execAssayRunStart_kept {d : Nat} {cls : Nat} (hU : Keeps q₀ s₀ s) : Kept q₀ s₀ (execAssayRunStart d cls s) := by
  unfold execAssayRunStart
  try dsimp only
  repeat' first
    | with_reducible assumption
    | intro _
    | with_reducible apply ok_kept
    | with_reducible apply ite_kept
    | with_reducible apply ite_keeps
    | with_reducible exact ok_kept (by assumption)
    | with_reducible apply asRotate_keeps
    | with_reducible apply setAssay_keeps
    | with_reducible apply setAsActive_keeps
    | with_reducible apply setAsChan_keeps
    | split
    | with_reducible apply Keeps.lit

theorem execAssayTakeover_kept {d : Nat} {cls : Nat} (k_tb : ∀ d, pgTb d ≠ q₀) (hU : Keeps q₀ s₀ s) : Kept q₀ s₀ (execAssayTakeover d cls s) := by
  unfold execAssayTakeover
  try dsimp only
  repeat' first
    | with_reducible assumption
    | with_reducible exact k_tb _
    | intro _
    | with_reducible apply ok_kept
    | with_reducible apply ite_kept
    | with_reducible apply ite_keeps
    | with_reducible exact ok_kept (by assumption)
    | with_reducible apply asTake_keeps
    | with_reducible apply waitSpare_keeps
    | with_reducible apply waitClock_keeps
    | split
    | with_reducible apply Keeps.lit

theorem execAssayMeasureStart_kept {d : Nat} {cls : Nat} (k_tb : ∀ d, pgTb d ≠ q₀) (hU : Keeps q₀ s₀ s) : Kept q₀ s₀ (execAssayMeasureStart d cls s) := by
  unfold execAssayMeasureStart
  try dsimp only
  repeat' first
    | with_reducible assumption
    | with_reducible exact k_tb _
    | intro _
    | with_reducible apply ok_kept
    | with_reducible apply ite_kept
    | with_reducible apply ite_keeps
    | with_reducible exact ok_kept (by assumption)
    | with_reducible apply waitSpare_keeps
    | with_reducible apply waitTick_keeps
    | with_reducible apply waitClock_keeps
    | with_reducible apply setAsChan_keeps
    | split
    | with_reducible apply Keeps.lit

theorem execAssayMeasureEnd_kept {d : Nat} {cls : Nat} {p : List Int} (k_tb : ∀ d, pgTb d ≠ q₀) (hU : Keeps q₀ s₀ s) : Kept q₀ s₀ (execAssayMeasureEnd d cls p s) := by
  unfold execAssayMeasureEnd
  try dsimp only
  repeat' first
    | with_reducible assumption
    | with_reducible exact k_tb _
    | intro _
    | with_reducible apply ok_kept
    | with_reducible apply ite_kept
    | with_reducible apply ite_keeps
    | with_reducible exact ok_kept (by assumption)
    | with_reducible apply waitClock_keeps
    | with_reducible apply setAsChan_keeps
    | split
    | with_reducible apply Keeps.lit

theorem execRunDone_kept {d : Nat} {cls : Nat} (k_assay : ∀ d, pgAssay d ≠ q₀) (hU : Keeps q₀ s₀ s) : Kept q₀ s₀ (execRunDone d cls s) := by
  unfold execRunDone
  try dsimp only
  repeat' first
    | with_reducible assumption
    | with_reducible exact k_assay _
    | intro _
    | with_reducible apply ok_kept
    | with_reducible apply ite_kept
    | with_reducible apply ite_keeps
    | with_reducible exact ok_kept (by assumption)
    | with_reducible apply asHandBack_keeps
    | split
    | with_reducible apply Keeps.lit

theorem setSave_keeps {d : Nat} {st : Nat} (k_assay : ∀ d, pgAssay d ≠ q₀) (hU : Keeps q₀ s₀ s) : Keeps q₀ s₀ (setSave s d st) := by
  unfold setSave
  try dsimp only
  repeat' first
    | with_reducible assumption
    | with_reducible exact k_assay _
    | intro _
    | with_reducible apply ite_keeps
    | with_reducible apply wf_keeps
    | split
    | with_reducible apply Keeps.lit

theorem asResult_keeps {d : Nat} {op : Nat} {ch : Nat} {res : Nat} (k_assay : ∀ d, pgAssay d ≠ q₀) (hU : Keeps q₀ s₀ s) : Keeps q₀ s₀ (asResult s d op ch res) := by
  unfold asResult
  try dsimp only
  repeat' first
    | with_reducible assumption
    | with_reducible exact k_assay _
    | intro _
    | with_reducible apply ite_keeps
    | with_reducible apply wr_keeps
    | split
    | with_reducible apply Keeps.lit

theorem asRequest_keeps {d : Nat} {ch : Nat} (k_assay : ∀ d, pgAssay d ≠ q₀) (hU : Keeps q₀ s₀ s) : Keeps q₀ s₀ (asRequest s d ch) := by
  unfold asRequest
  try dsimp only
  repeat' first
    | with_reducible assumption
    | with_reducible exact k_assay _
    | intro _
    | with_reducible apply ite_keeps
    | with_reducible apply asResult_keeps
    | with_reducible apply each_keeps
    | with_reducible apply asQueue_keeps
    | split
    | with_reducible apply Keeps.lit

theorem asSave_keeps {d : Nat} {ch : Nat} (k_assay : ∀ d, pgAssay d ≠ q₀) (hU : Keeps q₀ s₀ s) : Keeps q₀ s₀ (asSave s d ch) := by
  unfold asSave
  try dsimp only
  repeat' first
    | with_reducible assumption
    | with_reducible exact k_assay _
    | intro _
    | with_reducible apply ite_keeps
    | with_reducible apply asResult_keeps
    | with_reducible apply setSave_keeps
    | split
    | with_reducible apply Keeps.lit

theorem asRestore_keeps {d : Nat} {ch : Nat} (k_assay : ∀ d, pgAssay d ≠ q₀) (hU : Keeps q₀ s₀ s) : Keeps q₀ s₀ (asRestore s d ch) := by
  unfold asRestore
  try dsimp only
  repeat' first
    | with_reducible assumption
    | with_reducible exact k_assay _
    | intro _
    | with_reducible apply ite_keeps
    | with_reducible apply asResult_keeps
    | with_reducible apply setSave_keeps
    | split
    | with_reducible apply Keeps.lit

theorem asCancel1_keeps {d : Nat} {c : Nat} (hU : Keeps q₀ s₀ s) : Keeps q₀ s₀ (asCancel1 s d c) := by
  unfold asCancel1
  try dsimp only
  repeat' first
    | with_reducible assumption
    | intro _
    | with_reducible apply ite_keeps
    | with_reducible apply setAsChan_keeps
    | with_reducible apply asForget_keeps
    | split
    | with_reducible apply Keeps.lit

theorem asCancel_keeps {d : Nat} {ch : Nat} (k_assay : ∀ d, pgAssay d ≠ q₀) (hU : Keeps q₀ s₀ s) : Keeps q₀ s₀ (asCancel s d ch) := by
  unfold asCancel
  try dsimp only
  repeat' first
    | with_reducible assumption
    | with_reducible exact k_assay _
    | intro _
    | with_reducible apply ite_keeps
    | with_reducible apply asResult_keeps
    | with_reducible apply each_keeps
    | with_reducible apply asCancel1_keeps
    | split
    | with_reducible apply Keeps.lit

theorem asCmd_keeps {d : Nat} {op : Nat} {ch : Nat} (k_assay : ∀ d, pgAssay d ≠ q₀) (hU : Keeps q₀ s₀ s) : Keeps q₀ s₀ (asCmd d op ch s) := by
  unfold asCmd
  try dsimp only
  repeat' first
    | with_reducible assumption
    | with_reducible exact k_assay _
    | intro _
    | with_reducible apply ite_keeps
    | with_reducible apply asRequest_keeps
    | with_reducible apply asSave_keeps
    | with_reducible apply asRestore_keeps
    | with_reducible apply asCancel_keeps
    | with_reducible apply asResult_keeps
    | split
    | with_reducible apply Keeps.lit

theorem execAsRequest_kept {r : Req} {d : Nat} {ch : Nat} (k_assay : ∀ d, pgAssay d ≠ q₀) (k_pcie : pgPcie ≠ q₀) (k_guard : ∀ d, pgGuard d ≠ q₀) (hU : Keeps q₀ s₀ s) : Kept q₀ s₀ (execAsRequest r d ch s) := by
  unfold execAsRequest
  try dsimp only
  repeat' first
    | with_reducible assumption
    | with_reducible exact k_assay _
    | with_reducible exact k_pcie
    | with_reducible exact k_guard _
    | intro _
    | with_reducible apply ok_kept
    | with_reducible apply ite_kept
    | with_reducible apply ite_keeps
    | with_reducible exact ok_kept (by assumption)
    | with_reducible apply guardedWrite_keeps
    | with_reducible apply asCmd_keeps
    | split
    | with_reducible apply Keeps.lit

theorem execAsSave_kept {r : Req} {d : Nat} (k_assay : ∀ d, pgAssay d ≠ q₀) (k_pcie : pgPcie ≠ q₀) (k_guard : ∀ d, pgGuard d ≠ q₀) (hU : Keeps q₀ s₀ s) : Kept q₀ s₀ (execAsSave r d s) := by
  unfold execAsSave
  try dsimp only
  repeat' first
    | with_reducible assumption
    | with_reducible exact k_assay _
    | with_reducible exact k_pcie
    | with_reducible exact k_guard _
    | intro _
    | with_reducible apply ok_kept
    | with_reducible apply ite_kept
    | with_reducible apply ite_keeps
    | with_reducible exact ok_kept (by assumption)
    | with_reducible apply guardedWrite_keeps
    | with_reducible apply asCmd_keeps
    | split
    | with_reducible apply Keeps.lit

theorem execAsRestore_kept {r : Req} {d : Nat} (k_assay : ∀ d, pgAssay d ≠ q₀) (k_pcie : pgPcie ≠ q₀) (k_guard : ∀ d, pgGuard d ≠ q₀) (hU : Keeps q₀ s₀ s) : Kept q₀ s₀ (execAsRestore r d s) := by
  unfold execAsRestore
  try dsimp only
  repeat' first
    | with_reducible assumption
    | with_reducible exact k_assay _
    | with_reducible exact k_pcie
    | with_reducible exact k_guard _
    | intro _
    | with_reducible apply ok_kept
    | with_reducible apply ite_kept
    | with_reducible apply ite_keeps
    | with_reducible exact ok_kept (by assumption)
    | with_reducible apply guardedWrite_keeps
    | with_reducible apply asCmd_keeps
    | split
    | with_reducible apply Keeps.lit

theorem execAsCancel_kept {r : Req} {d : Nat} {ch : Nat} (k_assay : ∀ d, pgAssay d ≠ q₀) (k_pcie : pgPcie ≠ q₀) (k_guard : ∀ d, pgGuard d ≠ q₀) (hU : Keeps q₀ s₀ s) : Kept q₀ s₀ (execAsCancel r d ch s) := by
  unfold execAsCancel
  try dsimp only
  repeat' first
    | with_reducible assumption
    | with_reducible exact k_assay _
    | with_reducible exact k_pcie
    | with_reducible exact k_guard _
    | intro _
    | with_reducible apply ok_kept
    | with_reducible apply ite_kept
    | with_reducible apply ite_keeps
    | with_reducible exact ok_kept (by assumption)
    | with_reducible apply guardedWrite_keeps
    | with_reducible apply asCmd_keeps
    | split
    | with_reducible apply Keeps.lit

theorem asSaved_keeps {d : Nat} (k_assay : ∀ d, pgAssay d ≠ q₀) (k_retain : ∀ d, pgRetain d ≠ q₀) (hU : Keeps q₀ s₀ s) : Keeps q₀ s₀ (asSaved s d) := by
  unfold asSaved
  try dsimp only
  repeat' first
    | with_reducible assumption
    | with_reducible exact k_assay _
    | with_reducible exact k_retain _
    | intro _
    | with_reducible apply ite_keeps
    | with_reducible apply retWrites_keeps
    | with_reducible apply wf_keeps
    | with_reducible apply setSave_keeps
    | with_reducible apply raise_keeps
    | with_reducible apply count_keeps
    | split
    | with_reducible apply Keeps.lit

theorem execSaved_kept {d : Nat} (k_assay : ∀ d, pgAssay d ≠ q₀) (k_retain : ∀ d, pgRetain d ≠ q₀) (hU : Keeps q₀ s₀ s) : Kept q₀ s₀ (execSaved d s) := by
  unfold execSaved
  try dsimp only
  repeat' first
    | with_reducible assumption
    | with_reducible exact k_assay _
    | with_reducible exact k_retain _
    | intro _
    | with_reducible apply ok_kept
    | with_reducible apply ite_kept
    | with_reducible apply ite_keeps
    | with_reducible exact ok_kept (by assumption)
    | with_reducible apply asSaved_keeps
    | split
    | with_reducible apply Keeps.lit

theorem loadPoints_keeps {d : Nat} (hU : Keeps q₀ s₀ s) : Keeps q₀ s₀ (loadPoints s d) := by
  unfold loadPoints
  try dsimp only
  repeat' first
    | with_reducible assumption
    | intro _
    | with_reducible apply ite_keeps
    | with_reducible apply each_keeps
    | with_reducible apply setAsChan_keeps
    | split
    | with_reducible apply Keeps.lit

theorem execRestored_kept {d : Nat} (k_assay : ∀ d, pgAssay d ≠ q₀) (hU : Keeps q₀ s₀ s) : Kept q₀ s₀ (execRestored d s) := by
  unfold execRestored
  try dsimp only
  repeat' first
    | with_reducible assumption
    | with_reducible exact k_assay _
    | intro _
    | with_reducible apply ok_kept
    | with_reducible apply ite_kept
    | with_reducible apply ite_keeps
    | with_reducible exact ok_kept (by assumption)
    | with_reducible apply raise_keeps
    | with_reducible apply wf_keeps
    | with_reducible apply setSave_keeps
    | with_reducible apply loadPoints_keeps
    | split
    | with_reducible apply Keeps.lit

theorem tabRead_keeps {d : Nat} (k_assay : ∀ d, pgAssay d ≠ q₀) (hU : Keeps q₀ s₀ s) : Keeps q₀ s₀ (tabRead d s) := by
  unfold tabRead
  try dsimp only
  repeat' first
    | with_reducible assumption
    | with_reducible exact k_assay _
    | intro _
    | with_reducible apply ite_keeps
    | with_reducible apply each_keeps
    | with_reducible apply wr_keeps
    | split
    | with_reducible apply Keeps.lit

theorem tabWrite_keeps {r : Req} {d : Nat} (k_assay : ∀ d, pgAssay d ≠ q₀) (hU : Keeps q₀ s₀ s) : Keeps q₀ s₀ (tabWrite r d s) := by
  unfold tabWrite
  try dsimp only
  repeat' first
    | with_reducible assumption
    | with_reducible exact k_assay _
    | intro _
    | with_reducible apply ite_keeps
    | with_reducible apply logErr_keeps
    | with_reducible apply setAsChan_keeps
    | split
    | with_reducible apply Keeps.lit

theorem tabClear_keeps {r : Req} {d : Nat} (k_assay : ∀ d, pgAssay d ≠ q₀) (hU : Keeps q₀ s₀ s) : Keeps q₀ s₀ (tabClear r d s) := by
  unfold tabClear
  try dsimp only
  repeat' first
    | with_reducible assumption
    | with_reducible exact k_assay _
    | intro _
    | with_reducible apply ite_keeps
    | with_reducible apply logErr_keeps
    | with_reducible apply setAsChan_keeps
    | split
    | with_reducible apply Keeps.lit

theorem execTabRead_kept {r : Req} {d : Nat} (k_assay : ∀ d, pgAssay d ≠ q₀) (k_pcie : pgPcie ≠ q₀) (k_guard : ∀ d, pgGuard d ≠ q₀) (hU : Keeps q₀ s₀ s) : Kept q₀ s₀ (execTabRead r d s) := by
  unfold execTabRead
  try dsimp only
  repeat' first
    | with_reducible assumption
    | with_reducible exact k_assay _
    | with_reducible exact k_pcie
    | with_reducible exact k_guard _
    | intro _
    | with_reducible apply ok_kept
    | with_reducible apply ite_kept
    | with_reducible apply ite_keeps
    | with_reducible exact ok_kept (by assumption)
    | with_reducible apply guardedWrite_keeps
    | with_reducible apply tabRead_keeps
    | split
    | with_reducible apply Keeps.lit

theorem execTabWrite_kept {r : Req} {d : Nat} (k_assay : ∀ d, pgAssay d ≠ q₀) (k_pcie : pgPcie ≠ q₀) (k_guard : ∀ d, pgGuard d ≠ q₀) (hU : Keeps q₀ s₀ s) : Kept q₀ s₀ (execTabWrite r d s) := by
  unfold execTabWrite
  try dsimp only
  repeat' first
    | with_reducible assumption
    | with_reducible exact k_assay _
    | with_reducible exact k_pcie
    | with_reducible exact k_guard _
    | intro _
    | with_reducible apply ok_kept
    | with_reducible apply ite_kept
    | with_reducible apply ite_keeps
    | with_reducible exact ok_kept (by assumption)
    | with_reducible apply guardedWrite_keeps
    | with_reducible apply tabWrite_keeps
    | split
    | with_reducible apply Keeps.lit

theorem execTabClear_kept {r : Req} {d : Nat} (k_assay : ∀ d, pgAssay d ≠ q₀) (k_pcie : pgPcie ≠ q₀) (k_guard : ∀ d, pgGuard d ≠ q₀) (hU : Keeps q₀ s₀ s) : Kept q₀ s₀ (execTabClear r d s) := by
  unfold execTabClear
  try dsimp only
  repeat' first
    | with_reducible assumption
    | with_reducible exact k_assay _
    | with_reducible exact k_pcie
    | with_reducible exact k_guard _
    | intro _
    | with_reducible apply ok_kept
    | with_reducible apply ite_kept
    | with_reducible apply ite_keeps
    | with_reducible exact ok_kept (by assumption)
    | with_reducible apply guardedWrite_keeps
    | with_reducible apply tabClear_keeps
    | split
    | with_reducible apply Keeps.lit

end Sys2Proof.Laws
end

