-- ==== Sys2Proof/Laws/Memory.lean ====
section
/-!
SUPPORT. The memory form: every memory operation keeps it, and a byte read after a write.
-/

set_option Elab.async false
set_option linter.unusedTactic false
set_option linter.unreachableTactic false
namespace Sys2Proof.Laws

open Sys2Proof.Machine

/-- A byte read after listing one. -/
theorem memGet_memIns (m : List Host.Cell) (a k : Nat) (b : Byte) :
    memGet (memIns m a b) k = if a = k then b else memGet m k := by
  induction m with
  | nil => simp [memIns, memGet]
  | cons c r ih =>
    obtain ⟨j, v⟩ := c
    simp only [memIns]
    split
    · by_cases h : a = k <;> simp [memGet, h]
    · split
      · rename_i e; subst e; by_cases h : a = k <;> simp [memGet, h]
      · by_cases h : j = k
        · subst h; simp [memGet]; intro e; omega
        · simp [memGet, h, ih]

/-- A byte read after one has been taken off the list. -/
theorem memGet_filter (m : List Host.Cell) (a k : Nat) :
    memGet (m.filter fun c => decide (c.1 ≠ a)) k = if a = k then 0#8 else memGet m k := by
  induction m with
  | nil => simp [memGet]
  | cons c r ih =>
    obtain ⟨j, v⟩ := c
    by_cases h : j = a
    · subst h; simp only [List.filter, ne_eq, not_true_eq_false, decide_false, ih, memGet]
      by_cases h2 : j = k <;> simp [h2]
    · simp only [List.filter, ne_eq, h, not_false_eq_true, decide_true, memGet, ih]
      by_cases h2 : j = k
      · subst h2; simp [Ne.symm h]
      · simp [h2]

/-- A read after a write: the byte written at its address, every other byte as before. -/
theorem memGet_memSet (m : List Host.Cell) (a k : Nat) (b : Byte) :
    memGet (memSet m a b) k = if a = k then b else memGet m k := by
  unfold memSet; split
  · subst_vars; exact memGet_filter m a k
  · exact memGet_memIns m a k b

/-- Listing a byte other than 0 keeps the form. -/
theorem memIns_wf (m : List Host.Cell) (a : Nat) (b : Byte) (hb : b ≠ 0#8) (h : Memory.wf m) :
    Memory.wf (memIns m a b) ∧ ∀ k ∈ (memIns m a b).map Prod.fst, k = a ∨ k ∈ m.map Prod.fst := by
  induction m with
  | nil => simp [memIns, Memory.wf, hb]
  | cons c r ih =>
    obtain ⟨j, v⟩ := c
    have hr : Memory.wf r := by
      refine ⟨?_, fun c hc => h.2 c (List.mem_cons_of_mem _ hc)⟩
      have := h.1; simp only [List.map_cons, List.pairwise_cons] at this; exact this.2
    have hj : ∀ k ∈ r.map Prod.fst, j < k := by
      have := h.1; simp only [List.map_cons, List.pairwise_cons] at this; exact this.1
    have hv : v ≠ 0#8 := h.2 (j, v) (by simp)
    simp only [memIns]
    split
    · rename_i hlt
      refine ⟨⟨?_, ?_⟩, ?_⟩
      · simp only [List.map_cons, List.pairwise_cons, List.mem_cons, forall_eq_or_imp]
        refine ⟨⟨hlt, fun k hk => ?_⟩, hj, hr.1⟩
        exact Nat.lt_trans hlt (hj k hk)
      · intro c hc
        simp only [List.mem_cons] at hc
        rcases hc with rfl | rfl | hc
        · exact hb
        · exact hv
        · exact hr.2 c hc
      · intro k hk; simpa using hk
    · rename_i hge
      split
      · rename_i he
        subst he
        refine ⟨⟨?_, ?_⟩, ?_⟩
        · simp only [List.map_cons, List.pairwise_cons]; exact ⟨hj, hr.1⟩
        · intro c hc
          simp only [List.mem_cons] at hc
          rcases hc with rfl | hc
          · exact hb
          · exact hr.2 c hc
        · intro k hk; simp only [List.map_cons, List.mem_cons] at hk ⊢; exact hk.imp_right Or.inr
      · rename_i hne
        have q := ih hr
        refine ⟨⟨?_, ?_⟩, ?_⟩
        · simp only [List.map_cons, List.pairwise_cons]
          refine ⟨fun k hk => ?_, q.1.1⟩
          rcases q.2 k hk with rfl | hk
          · omega
          · exact hj k hk
        · intro c hc
          simp only [List.mem_cons] at hc
          rcases hc with rfl | hc
          · exact hv
          · exact q.1.2 c hc
        · intro k hk
          simp only [List.map_cons, List.mem_cons] at hk ⊢
          rcases hk with rfl | hk
          · exact .inr (.inl rfl)
          · exact (q.2 k hk).imp_right Or.inr

/-- Taking entries off the list keeps the form. -/
theorem filter_wf (m : List Host.Cell) (f : Host.Cell → Bool) (h : Memory.wf m) : Memory.wf (m.filter f) :=
  ⟨h.1.sublist ((List.filter_sublist (p := f)).map Prod.fst), fun c hc => h.2 c (List.mem_filter.1 hc).1⟩

/-- Writing a byte keeps the form. -/
theorem memSet_wf (m : List Host.Cell) (a : Nat) (b : Byte) (h : Memory.wf m) : Memory.wf (memSet m a b) := by
  unfold memSet; split
  · exact filter_wf m _ h
  · exact (memIns_wf m a b ‹_› h).1

/-- Writing a word keeps the form. -/
theorem memSet3_wf (m : List Host.Cell) (a : Nat) (w : Word) (h : Memory.wf m) : Memory.wf (memSet3 m a w) :=
  memSet_wf _ _ _ (memSet_wf _ _ _ (memSet_wf _ _ _ h))

/-- A byte read after a word was written. -/
theorem memGet_memSet3 (m : List Host.Cell) (a k : Nat) (w : Word) (h : k < a ∨ a + 2 < k) :
    memGet (memSet3 m a w) k = memGet m k := by
  unfold memSet3
  rw [memGet_memSet, memGet_memSet, memGet_memSet, if_neg (by omega), if_neg (by omega), if_neg (by omega)]

end Sys2Proof.Laws
end

