-- ==== Sys2Proof/Laws/Upd.lean ====
section
/-!
SUPPORT. What an operation may change, as one relation between the state before and after: the groups of state it
touches, and what no operation touches.
-/

set_option Elab.async false
set_option linter.unusedTactic false
set_option linter.unreachableTactic false
namespace Sys2Proof.Laws

open Sys2Proof.Machine

/-- The groups of state an operation may change: the bytes of the lode banks and the dual-port store, the check bits
of memory, the bytes of the retention store, the fuses, and
whether a session is open. -/
structure Grp where
  mem : Bool := false
  ecc : Bool := false
  ret : Bool := false
  fuse : Bool := false
  sess : Bool := false

/-- What every operation keeps, and what one keeps that touches only the groups of `g`. -/
structure Upd (g : Grp) (s t : State) : Prop where
  pending : t.pending = s.pending
  part : t.part = s.part
  clock : s.clock ≤ t.clock
  out : s.out <+: t.out
  memWf : Memory.wf s.mem → Memory.wf t.mem
  retWf : Memory.wf s.ret → Memory.wf t.ret
  mem : g.mem = false → t.mem = s.mem
  ecc : g.ecc = false → t.ecc = s.ecc ∧ t.retEcc = s.retEcc
  ret : g.ret = false → t.ret = s.ret
  fuse : g.fuse = false → ∀ d < s.part.dies, fuses (die t d) = fuses (die s d)
  sess : g.sess = false → ∀ d < s.part.dies, ((die t d).sess.st = 2 → (die s d).sess.st = 2)
    ∧ ((die t d).tap.session = true → (die s d).tap.session = true)

variable {g : Grp} {a s t : State}

theorem Upd.refl (g : Grp) (s : State) : Upd g s s :=
  ⟨rfl, rfl, Nat.le_refl _, List.prefix_refl _, id, id, fun _ => rfl, fun _ => ⟨rfl, rfl⟩, fun _ => rfl,
    fun _ _ _ => rfl, fun _ _ _ => ⟨id, id⟩⟩

theorem Upd.trans {b : State} (h : Upd g a s) (k : Upd g s b) : Upd g a b where
  pending := k.pending.trans h.pending
  part := k.part.trans h.part
  clock := Nat.le_trans h.clock k.clock
  out := h.out.trans k.out
  memWf := fun x => k.memWf (h.memWf x)
  retWf := fun x => k.retWf (h.retWf x)
  mem := fun x => (k.mem x).trans (h.mem x)
  ecc := fun x => ⟨(k.ecc x).1.trans (h.ecc x).1, (k.ecc x).2.trans (h.ecc x).2⟩
  ret := fun x => (k.ret x).trans (h.ret x)
  fuse := fun x d hd => (k.fuse x d (h.part ▸ hd)).trans (h.fuse x d hd)
  sess := fun x d hd => ⟨fun y => (h.sess x d hd).1 ((k.sess x d (h.part ▸ hd)).1 y),
    fun y => (h.sess x d hd).2 ((k.sess x d (h.part ▸ hd)).2 y)⟩

/-- A record update of fields that no group holds. -/
theorem Upd.same (h : Upd g a s) (e1 : t.pending = s.pending) (e2 : t.part = s.part) (e3 : t.clock = s.clock)
    (e4 : t.out = s.out) (e5 : t.mem = s.mem) (e6 : t.ecc = s.ecc) (e7 : t.ret = s.ret) (e8 : t.retEcc = s.retEcc)
    (e9 : t.dies = s.dies) : Upd g a t := by
  have e : ∀ d, die t d = die s d := fun d => by simp only [die, e9]
  refine h.trans ⟨e1, e2, Nat.le_of_eq e3.symm, e4 ▸ List.prefix_refl _, fun x => e5 ▸ x, fun x => e7 ▸ x,
    fun _ => e5, fun _ => ⟨e6, e8⟩, fun _ => e7, fun _ d _ => by rw [e],
    fun _ d _ => by rw [e]; exact ⟨id, id⟩⟩

/-- A record update of fields that no group holds, as it stands written out. -/
theorem Upd.lit {w_free : Nat} {w_regs : Tbl RegKey Word} {w_shad : Tbl RegKey Word} {w_gos : Tbl RegKey Nat}
    {w_hold : Tbl RegKey Word} {w_ticks : List TickWrites} {w_caps : Tbl (Nat × RegKey) Word} {w_fences : Tbl Pg FenceSt} {w_chutes : Tbl (Nat ×
    Nat) ChuteSt} {w_ctxs : Tbl (Nat × Nat) CtxSt} {w_ports : Tbl (Nat × Nat) PortSt} {w_encs : Tbl (Nat × Nat) EncSt}
    {w_pds : Tbl (Nat × Nat) PdSt} {w_seamQ : List SeamMsg} {w_echos : Tbl Nat EchoSt} {w_mems : Tbl Nat MemSt} {w_msgs
    : List Msg} {w_axes : Tbl (Nat × Nat) AxisSt} {w_hoists : Tbl (Nat × Nat) HoistSt} {w_served : Tbl Nat Nat} {w_trigs : List (Nat × Nat)}
    {w_tmrs : Tbl (Nat × Nat) Nat} {w_cqWait : Tbl Nat (List CqRec)} {w_cqSeq : Tbl (Nat × Nat) Nat} {w_assays : Tbl Nat
    AssaySt} {w_therms : Tbl Nat ThermSt} {w_lamps : Tbl Nat LampSt} {w_mboxes : Tbl (Nat × Nat) MboxCh} {w_fws : Tbl
    Nat FwSt} {w_tsync : TsyncSt} {w_burims : Tbl (Nat × Nat) BurimSt} {w_hops : List HopMsg} {w_pkg : PkgSt} {w_pcie :
    PcieSt} {w_resp : Resp} (h : Upd g a s) :
    Upd g a {
      pending := s.pending, clock := s.clock, free := w_free, part := s.part, regs := w_regs, shad := w_shad, gos
      := w_gos, hold := w_hold, ticks := w_ticks, caps := w_caps, fences := w_fences, mem := s.mem, ecc := s.ecc, ret := s.ret,
      retEcc := s.retEcc, chutes := w_chutes, ctxs := w_ctxs, ports := w_ports, encs := w_encs, pds := w_pds,
      seamQ := w_seamQ, echos := w_echos, mems := w_mems, msgs := w_msgs, axes := w_axes, hoists := w_hoists, served := w_served,
      trigs := w_trigs, tmrs := w_tmrs, cqWait := w_cqWait, cqSeq := w_cqSeq, assays := w_assays, therms :=
      w_therms, lamps := w_lamps, mboxes := w_mboxes, fws := w_fws, tsync := w_tsync, burims := w_burims, hops :=
      w_hops, dies := s.dies, pkg := w_pkg, pcie := w_pcie, resp := w_resp, out := s.out } :=
  h.same rfl rfl rfl rfl rfl rfl rfl rfl rfl

/-- A record update of fields that no group holds, as it stands written out, by which more leaves the part. -/
theorem Upd.litOut {w_free : Nat} {w_regs : Tbl RegKey Word} {w_shad : Tbl RegKey Word} {w_gos : Tbl RegKey Nat}
    {w_hold : Tbl RegKey Word} {w_ticks : List TickWrites} {w_caps : Tbl (Nat × RegKey) Word} {w_fences : Tbl Pg FenceSt} {w_chutes : Tbl (Nat ×
    Nat) ChuteSt} {w_ctxs : Tbl (Nat × Nat) CtxSt} {w_ports : Tbl (Nat × Nat) PortSt} {w_encs : Tbl (Nat × Nat) EncSt}
    {w_pds : Tbl (Nat × Nat) PdSt} {w_seamQ : List SeamMsg} {w_echos : Tbl Nat EchoSt} {w_mems : Tbl Nat MemSt} {w_msgs
    : List Msg} {w_axes : Tbl (Nat × Nat) AxisSt} {w_hoists : Tbl (Nat × Nat) HoistSt} {w_served : Tbl Nat Nat} {w_trigs : List (Nat × Nat)}
    {w_tmrs : Tbl (Nat × Nat) Nat} {w_cqWait : Tbl Nat (List CqRec)} {w_cqSeq : Tbl (Nat × Nat) Nat} {w_assays : Tbl Nat
    AssaySt} {w_therms : Tbl Nat ThermSt} {w_lamps : Tbl Nat LampSt} {w_mboxes : Tbl (Nat × Nat) MboxCh} {w_fws : Tbl
    Nat FwSt} {w_tsync : TsyncSt} {w_burims : Tbl (Nat × Nat) BurimSt} {w_hops : List HopMsg} {w_pkg : PkgSt} {w_pcie :
    PcieSt} {w_resp : Resp} {w_out : List Out} (h : Upd g a s)
    (ho : s.out <+: w_out) :
    Upd g a {
      pending := s.pending, clock := s.clock, free := w_free, part := s.part, regs := w_regs, shad := w_shad, gos
      := w_gos, hold := w_hold, ticks := w_ticks, caps := w_caps, fences := w_fences, mem := s.mem, ecc := s.ecc, ret := s.ret,
      retEcc := s.retEcc, chutes := w_chutes, ctxs := w_ctxs, ports := w_ports, encs := w_encs, pds := w_pds,
      seamQ := w_seamQ, echos := w_echos, mems := w_mems, msgs := w_msgs, axes := w_axes, hoists := w_hoists, served := w_served,
      trigs := w_trigs, tmrs := w_tmrs, cqWait := w_cqWait, cqSeq := w_cqSeq, assays := w_assays, therms :=
      w_therms, lamps := w_lamps, mboxes := w_mboxes, fws := w_fws, tsync := w_tsync, burims := w_burims, hops :=
      w_hops, dies := s.dies, pkg := w_pkg, pcie := w_pcie, resp := w_resp, out := w_out } :=
  Upd.lit (h.trans ⟨rfl, rfl, Nat.le_refl _, ho, id, id, fun _ => rfl, fun _ => ⟨rfl, rfl⟩, fun _ => rfl,
    fun _ _ _ => rfl, fun _ _ _ => ⟨id, id⟩⟩ : Upd g a { s with out := w_out })

/-- The fuses and sessions of a die record are those of another. -/
abbrev SameDie (x y : DieSt) : Prop :=
  fuses x = fuses y ∧ (x.sess.st = 2 → y.sess.st = 2) ∧ (x.tap.session = true → y.tap.session = true)

theorem setDie_upd {d : Nat} {x : DieSt} (h : Upd g a s) (e : SameDie x (die s d)) : Upd g a (setDie s d x) := by
  have key : ∀ d', die (setDie s d x) d' = if d = d' then x else die s d' := by
    intro d'; simp only [die, setDie, Tbl.get_put]
  refine h.trans ⟨rfl, rfl, Nat.le_refl _, List.prefix_refl _, id, id, fun _ => rfl, fun _ => ⟨rfl, rfl⟩, fun _ => rfl,
    fun _ d' _ => ?_, fun _ d' _ => ?_⟩ <;> rw [key] <;> by_cases hd : d = d'
  · subst hd; simp [e.1]
  · simp [hd]
  · subst hd; simpa using e.2
  · simp [hd]

/-- A change of one die's fuses or sessions, allowed by the groups. -/
theorem setDie_upd_of {d : Nat} {x : DieSt} (h : Upd g a s) 
    (hf : g.fuse = false → fuses x = fuses (die s d))
    (hs : g.sess = false → (x.sess.st = 2 → (die s d).sess.st = 2) ∧ (x.tap.session = true → (die s d).tap.session = true)) :
    Upd g a (setDie s d x) := by
  have key : ∀ d', die (setDie s d x) d' = if d = d' then x else die s d' := by
    intro d'; simp only [die, setDie, Tbl.get_put]
  refine h.trans ⟨rfl, rfl, Nat.le_refl _, List.prefix_refl _, id, id, fun _ => rfl, fun _ => ⟨rfl, rfl⟩, fun _ => rfl,
    fun q d' _ => ?_, fun q d' _ => ?_⟩ <;> rw [key] <;> by_cases hd : d = d'
  · subst hd; simpa using hf q
  · simp [hd]
  · subst hd; simpa using hs q
  · simp [hd]

/-- More leaves the part. -/
theorem Upd.emits {l : List Out} (h : Upd g a s) : Upd g a { s with out := s.out ++ l } :=
  h.trans ⟨rfl, rfl, Nat.le_refl _, List.prefix_append _ _, id, id, fun _ => rfl, fun _ => ⟨rfl, rfl⟩, fun _ => rfl,
    fun _ _ _ => rfl, fun _ _ _ => ⟨id, id⟩⟩

theorem emit_upd {o : Out} (h : Upd g a s) : Upd g a (emit s o) := h.emits

/-- The clock moves on. -/
theorem Upd.later {n : Nat} (h : Upd g a s) : Upd g a { s with clock := s.clock + n } :=
  h.trans ⟨rfl, rfl, Nat.le_add_right _ _, List.prefix_refl _, id, id, fun _ => rfl, fun _ => ⟨rfl, rfl⟩, fun _ => rfl,
    fun _ _ _ => rfl, fun _ _ _ => ⟨id, id⟩⟩

/-- Bytes of the lode banks and the dual-port store change, with their check bits. -/
theorem Upd.memory {m : List Host.Cell} {e : Tbl Nat Ecc} (hM : g.mem = true) (hE : g.ecc = true) (h : Upd g a s)
    (hw : Memory.wf s.mem → Memory.wf m) : Upd g a { s with mem := m, ecc := e } :=
  h.trans ⟨rfl, rfl, Nat.le_refl _, List.prefix_refl _, hw, id, fun x => by simp [hM] at x, fun x => by simp [hE] at x,
    fun _ => rfl, fun _ _ _ => rfl, fun _ _ _ => ⟨id, id⟩⟩

/-- Check bits change. -/
theorem Upd.checks {e f : Tbl Nat Ecc} (hE : g.ecc = true) (h : Upd g a s) : Upd g a { s with ecc := e, retEcc := f } :=
  h.trans ⟨rfl, rfl, Nat.le_refl _, List.prefix_refl _, id, id, fun _ => rfl, fun x => by simp [hE] at x,
    fun _ => rfl, fun _ _ _ => rfl, fun _ _ _ => ⟨id, id⟩⟩

/-- Bytes of the retention store change, with their check bits. -/
theorem Upd.store {m : List Host.Cell} {e : Tbl Nat Ecc} (hR : g.ret = true) (hE : g.ecc = true) (h : Upd g a s)
    (hw : Memory.wf s.ret → Memory.wf m) : Upd g a { s with ret := m, retEcc := e } :=
  h.trans ⟨rfl, rfl, Nat.le_refl _, List.prefix_refl _, id, hw, fun _ => rfl, fun x => by simp [hE] at x,
    fun x => by simp [hR] at x, fun _ _ _ => rfl, fun _ _ _ => ⟨id, id⟩⟩

theorem each_upd {α : Type} {l : List α} {f : State → α → State} (h : Upd g a s)
    (hf : ∀ t x, Upd g a t → Upd g a (f t x)) : Upd g a (each l s f) := by
  unfold each
  induction l generalizing s with
  | nil => exact h
  | cons x r ih => exact ih (hf _ _ h)

theorem whenDo_upd {b : Bool} {f : State → State} (h : Upd g a s) (hf : ∀ t, Upd g a t → Upd g a (f t)) :
    Upd g a (whenDo b s f) := by
  unfold whenDo; split
  · exact hf _ h
  · exact h

theorem ite_upd {c : Prop} [Decidable c] {x y : State} (hx : Upd g a x) (hy : Upd g a y) :
    Upd g a (if c then x else y) := by
  split
  · exact hx
  · exact hy

/-- The state of a pair. -/
theorem pair_upd {α : Type} {x : α × State} {v : α} (e : x = (v, t)) (h : Upd g a x.2) : Upd g a t := by
  subst e; exact h

/-- The state of a triple. -/
theorem trip_upd {α β : Type} {x : α × β × State} {v : α} {w : β} (e : x = (v, w, t)) (h : Upd g a x.2.2) : Upd g a t := by
  subst e; exact h

/-- The state of a quadruple. -/
theorem quad_upd {α β γ : Type} {x : α × β × γ × State} {v : α} {w : β} {z : γ} (e : x = (v, w, z, t))
    (h : Upd g a x.2.2.2) : Upd g a t := by
  subst e; exact h

/-- A meaning completes in a state reached by what the groups allow. -/
def Ans (g : Grp) (a : State) (o : Host.Outcome State Fault Refusal) : Prop := ∃ t, o = .next t ∧ Upd g a t

theorem ok_ans (h : Upd g a s) : Ans g a (ok s) := ⟨s, rfl, h⟩

theorem ite_ans {c : Prop} [Decidable c] {x y : Host.Outcome State Fault Refusal} (hx : Ans g a x) (hy : Ans g a y) :
    Ans g a (if c then x else y) := by
  split
  · exact hx
  · exact hy

end Sys2Proof.Laws
end

