-- ==== Sys2Proof/Laws/OpsUpd.lean ====
section
/-!
SUPPORT. What each operation of `Machine/Ops.lean` keeps, and the groups of state it may change (`Upd`).
-/

set_option Elab.async false
set_option linter.unusedTactic false
set_option linter.unreachableTactic false
namespace Sys2Proof.Laws

open Sys2Proof.Machine

variable {gr : Grp} {s₀ s : State}

theorem wr_upd {p : Pg} {off : Nat} {v : Word} (hU : Upd gr s₀ s) : Upd gr s₀ (wr s p off v) := by
  unfold wr
  try dsimp only
  repeat' first
    | intro _
    | with_reducible assumption
    | with_reducible apply ite_upd
    | split
    | with_reducible apply Upd.lit

theorem wrShadow_upd {p : Pg} {off : Nat} {v : Word} (hU : Upd gr s₀ s) : Upd gr s₀ (wrShadow s p off v) := by
  unfold wrShadow
  try dsimp only
  repeat' first
    | intro _
    | with_reducible assumption
    | with_reducible apply ite_upd
    | split
    | with_reducible apply Upd.lit

theorem wf_upd {p : Pg} {off : Nat} {lo : Nat} {n : Nat} {v : Nat} (hU : Upd gr s₀ s) : Upd gr s₀ (wf s p off lo n v) := by
  unfold wf
  try dsimp only
  repeat' first
    | intro _
    | with_reducible assumption
    | with_reducible apply ite_upd
    | with_reducible apply wr_upd
    | split

theorem wb_upd {p : Pg} {off : Nat} {i : Nat} {b : Bool} (hU : Upd gr s₀ s) : Upd gr s₀ (wb s p off i b) := by
  unfold wb
  try dsimp only
  repeat' first
    | intro _
    | with_reducible assumption
    | with_reducible apply ite_upd
    | with_reducible apply wr_upd
    | split

theorem wr48_upd {p : Pg} {off : Nat} {v : Nat} (hU : Upd gr s₀ s) : Upd gr s₀ (wr48 s p off v) := by
  unfold wr48
  try dsimp only
  repeat' first
    | intro _
    | with_reducible assumption
    | with_reducible apply ite_upd
    | with_reducible apply wr_upd
    | split

theorem wr72_upd {p : Pg} {off : Nat} {v : Nat} (hU : Upd gr s₀ s) : Upd gr s₀ (wr72 s p off v) := by
  unfold wr72
  try dsimp only
  repeat' first
    | intro _
    | with_reducible assumption
    | with_reducible apply ite_upd
    | with_reducible apply wr_upd
    | with_reducible apply wr48_upd
    | split

theorem count_upd {p : Pg} {off : Nat} (hU : Upd gr s₀ s) : Upd gr s₀ (count s p off) := by
  unfold count
  try dsimp only
  repeat' first
    | intro _
    | with_reducible assumption
    | with_reducible apply ite_upd
    | with_reducible apply wr_upd
    | split

theorem countBy_upd {p : Pg} {off : Nat} {n : Nat} (hU : Upd gr s₀ s) : Upd gr s₀ (countBy s p off n) := by
  unfold countBy
  try dsimp only
  repeat' first
    | intro _
    | with_reducible assumption
    | with_reducible apply ite_upd
    | with_reducible apply wr_upd
    | split

theorem setChute_upd {d : Nat} {c : Nat} {x : ChuteSt} (hU : Upd gr s₀ s) : Upd gr s₀ (setChute s d c x) := by
  unfold setChute
  try dsimp only
  repeat' first
    | intro _
    | with_reducible assumption
    | with_reducible apply ite_upd
    | split
    | with_reducible apply Upd.lit

theorem setCtx_upd {d : Nat} {k : Nat} {x : CtxSt} (hU : Upd gr s₀ s) : Upd gr s₀ (setCtx s d k x) := by
  unfold setCtx
  try dsimp only
  repeat' first
    | intro _
    | with_reducible assumption
    | with_reducible apply ite_upd
    | split
    | with_reducible apply Upd.lit

theorem setPort_upd {d : Nat} {p : Nat} {x : PortSt} (hU : Upd gr s₀ s) : Upd gr s₀ (setPort s d p x) := by
  unfold setPort
  try dsimp only
  repeat' first
    | intro _
    | with_reducible assumption
    | with_reducible apply ite_upd
    | split
    | with_reducible apply Upd.lit

theorem setEnc_upd {d : Nat} {c : Nat} {x : EncSt} (hU : Upd gr s₀ s) : Upd gr s₀ (setEnc s d c x) := by
  unfold setEnc
  try dsimp only
  repeat' first
    | intro _
    | with_reducible assumption
    | with_reducible apply ite_upd
    | split
    | with_reducible apply Upd.lit

theorem setPdIn_upd {d : Nat} {n : Nat} {x : PdSt} (hU : Upd gr s₀ s) : Upd gr s₀ (setPdIn s d n x) := by
  unfold setPdIn
  try dsimp only
  repeat' first
    | intro _
    | with_reducible assumption
    | with_reducible apply ite_upd
    | split
    | with_reducible apply Upd.lit

theorem setEcho_upd {d : Nat} {x : EchoSt} (hU : Upd gr s₀ s) : Upd gr s₀ (setEcho s d x) := by
  unfold setEcho
  try dsimp only
  repeat' first
    | intro _
    | with_reducible assumption
    | with_reducible apply ite_upd
    | split
    | with_reducible apply Upd.lit

theorem setMemSt_upd {d : Nat} {x : MemSt} (hU : Upd gr s₀ s) : Upd gr s₀ (setMemSt s d x) := by
  unfold setMemSt
  try dsimp only
  repeat' first
    | intro _
    | with_reducible assumption
    | with_reducible apply ite_upd
    | split
    | with_reducible apply Upd.lit

theorem setFenceSt_upd {p : Pg} {x : FenceSt} (hU : Upd gr s₀ s) : Upd gr s₀ (setFenceSt s p x) := by
  unfold setFenceSt
  try dsimp only
  repeat' first
    | intro _
    | with_reducible assumption
    | with_reducible apply ite_upd
    | split
    | with_reducible apply Upd.lit

theorem setAxis_upd {d : Nat} {a : Nat} {x : AxisSt} (hU : Upd gr s₀ s) : Upd gr s₀ (setAxis s d a x) := by
  unfold setAxis
  try dsimp only
  repeat' first
    | intro _
    | with_reducible assumption
    | with_reducible apply ite_upd
    | split
    | with_reducible apply Upd.lit

theorem setHoist_upd {d : Nat} {c : Nat} {x : HoistSt} (hU : Upd gr s₀ s) : Upd gr s₀ (setHoist s d c x) := by
  unfold setHoist
  try dsimp only
  repeat' first
    | intro _
    | with_reducible assumption
    | with_reducible apply ite_upd
    | split
    | with_reducible apply Upd.lit

theorem setCqRecs_upd {d : Nat} {l : List CqRec} (hU : Upd gr s₀ s) : Upd gr s₀ (setCqRecs s d l) := by
  unfold setCqRecs
  try dsimp only
  repeat' first
    | intro _
    | with_reducible assumption
    | with_reducible apply ite_upd
    | split
    | with_reducible apply Upd.lit

theorem setAssay_upd {d : Nat} {x : AssaySt} (hU : Upd gr s₀ s) : Upd gr s₀ (setAssay s d x) := by
  unfold setAssay
  try dsimp only
  repeat' first
    | intro _
    | with_reducible assumption
    | with_reducible apply ite_upd
    | split
    | with_reducible apply Upd.lit

theorem setTherm_upd {d : Nat} {x : ThermSt} (hU : Upd gr s₀ s) : Upd gr s₀ (setTherm s d x) := by
  unfold setTherm
  try dsimp only
  repeat' first
    | intro _
    | with_reducible assumption
    | with_reducible apply ite_upd
    | split
    | with_reducible apply Upd.lit

theorem setLamp_upd {d : Nat} {x : LampSt} (hU : Upd gr s₀ s) : Upd gr s₀ (setLamp s d x) := by
  unfold setLamp
  try dsimp only
  repeat' first
    | intro _
    | with_reducible assumption
    | with_reducible apply ite_upd
    | split
    | with_reducible apply Upd.lit

theorem setMbox_upd {d : Nat} {n : Nat} {x : MboxCh} (hU : Upd gr s₀ s) : Upd gr s₀ (setMbox s d n x) := by
  unfold setMbox
  try dsimp only
  repeat' first
    | intro _
    | with_reducible assumption
    | with_reducible apply ite_upd
    | split
    | with_reducible apply Upd.lit

theorem setFw_upd {d : Nat} {x : FwSt} (hU : Upd gr s₀ s) : Upd gr s₀ (setFw s d x) := by
  unfold setFw
  try dsimp only
  repeat' first
    | intro _
    | with_reducible assumption
    | with_reducible apply ite_upd
    | split
    | with_reducible apply Upd.lit

theorem setBurim_upd {d : Nat} {i : Nat} {x : BurimSt} (hU : Upd gr s₀ s) : Upd gr s₀ (setBurim s d i x) := by
  unfold setBurim
  try dsimp only
  repeat' first
    | intro _
    | with_reducible assumption
    | with_reducible apply ite_upd
    | split
    | with_reducible apply Upd.lit

theorem setPstate_upd {p : Pg} {st : Nat} (hU : Upd gr s₀ s) : Upd gr s₀ (setPstate s p st) := by
  unfold setPstate
  try dsimp only
  repeat' first
    | intro _
    | with_reducible assumption
    | with_reducible apply ite_upd
    | with_reducible apply wf_upd
    | split

theorem resetPage_upd {p : Pg} (hU : Upd gr s₀ s) : Upd gr s₀ (resetPage s p) := by
  unfold resetPage
  try dsimp only
  repeat' first
    | intro _
    | with_reducible assumption
    | with_reducible apply ite_upd
    | split
    | with_reducible apply Upd.lit

theorem nextFree_upd (hU : Upd gr s₀ s) : Upd gr s₀ (nextFree s) := by
  unfold nextFree
  try dsimp only
  repeat' first
    | intro _
    | with_reducible assumption
    | with_reducible apply ite_upd
    | split
    | with_reducible apply Upd.lit

end Sys2Proof.Laws
end

