-- ==== Sys2Proof/Laws/FlagsUpd.lean ====
section
/-!
SUPPORT. What each operation of `Machine/Flags.lean` keeps, and the groups of state it may change (`Upd`).
-/

set_option Elab.async false
set_option linter.unusedTactic false
set_option linter.unreachableTactic false
namespace Sys2Proof.Laws

open Sys2Proof.Machine

variable {gr : Grp} {s₀ s : State}

theorem msix_upd {d : Nat} {v : Nat} (hU : Upd gr s₀ s) : Upd gr s₀ (msix s d v) := by
  unfold msix
  try dsimp only
  repeat' first
    | intro _
    | with_reducible assumption
    | with_reducible apply ite_upd
    | with_reducible apply emit_upd
    | split
    | with_reducible apply Upd.lit

theorem pageMsix_upd {p : Pg} (hU : Upd gr s₀ s) : Upd gr s₀ (pageMsix s p) := by
  unfold pageMsix
  try dsimp only
  repeat' first
    | intro _
    | with_reducible assumption
    | with_reducible apply ite_upd
    | with_reducible apply msix_upd
    | split

theorem latch_upd {p : Pg} {m : Word} (hU : Upd gr s₀ s) : Upd gr s₀ (latch s p m) := by
  unfold latch
  try dsimp only
  repeat' first
    | intro _
    | with_reducible assumption
    | with_reducible apply ite_upd
    | with_reducible apply wr_upd
    | with_reducible apply whenDo_upd
    | with_reducible apply pageMsix_upd
    | split

theorem raise_upd {p : Pg} {i : Nat} (hU : Upd gr s₀ s) : Upd gr s₀ (raise s p i) := by
  unfold raise
  try dsimp only
  repeat' first
    | intro _
    | with_reducible assumption
    | with_reducible apply ite_upd
    | with_reducible apply latch_upd
    | split

theorem setDyn_upd {p : Pg} {i : Nat} {b : Bool} (hU : Upd gr s₀ s) : Upd gr s₀ (setDyn s p i b) := by
  unfold setDyn
  try dsimp only
  repeat' first
    | intro _
    | with_reducible assumption
    | with_reducible apply ite_upd
    | with_reducible apply whenDo_upd
    | with_reducible apply wb_upd
    | with_reducible apply raise_upd
    | split

theorem hoistSource_upd {d : Nat} {src : Nat} {idx : Nat} {evt : Nat} (hU : Upd gr s₀ s) : Upd gr s₀ (hoistSource s d src idx evt) := by
  unfold hoistSource
  try dsimp only
  repeat' first
    | intro _
    | with_reducible assumption
    | with_reducible apply ite_upd
    | split
    | with_reducible apply Upd.lit

theorem outQueued_upd {d : Nat} {sec : Bool} {n : Nat} (hU : Upd gr s₀ s) : Upd gr s₀ (outQueued s d sec n) := by
  unfold outQueued
  try dsimp only
  repeat' first
    | intro _
    | with_reducible assumption
    | with_reducible apply ite_upd
    | with_reducible apply wf_upd
    | split

theorem noticeOn_upd {d : Nat} {sec : Bool} {n : Nat} {code : Nat} {args : List Word} (hU : Upd gr s₀ s) : Upd gr s₀ (noticeOn s d sec n code args) := by
  unfold noticeOn
  try dsimp only
  repeat' first
    | intro _
    | with_reducible assumption
    | with_reducible apply ite_upd
    | with_reducible apply raise_upd
    | with_reducible apply count_upd
    | with_reducible apply outQueued_upd
    | with_reducible apply setMbox_upd
    | split
    | with_reducible apply Upd.lit

theorem notice_upd {d : Nat} {n : Nat} {code : Nat} {args : List Word} (hU : Upd gr s₀ s) : Upd gr s₀ (notice s d n code args) := by
  unfold notice
  try dsimp only
  repeat' first
    | intro _
    | with_reducible assumption
    | with_reducible apply ite_upd
    | with_reducible apply noticeOn_upd
    | split

theorem logErr_upd {r : Req} {p : Pg} {off : Nat} {write : Bool} {code : Nat} (hU : Upd gr s₀ s) : Upd gr s₀ (logErr s r p off write code) := by
  unfold logErr
  try dsimp only
  repeat' first
    | intro _
    | with_reducible assumption
    | with_reducible apply ite_upd
    | with_reducible apply wb_upd
    | with_reducible apply wr_upd
    | split

theorem ctxEvt_upd {d : Nat} {k : Nat} {i : Nat} (hU : Upd gr s₀ s) : Upd gr s₀ (ctxEvt s d k i) := by
  unfold ctxEvt
  try dsimp only
  repeat' first
    | intro _
    | with_reducible assumption
    | with_reducible apply ite_upd
    | with_reducible apply hoistSource_upd
    | with_reducible apply wr_upd
    | with_reducible apply whenDo_upd
    | with_reducible apply setDyn_upd
    | split

end Sys2Proof.Laws
end

