-- ==== Sys2Proof/Laws/SecCoreUpd.lean ====
section
/-!
SUPPORT. What each operation of `Machine/SecCore.lean` keeps, and the groups of state it may change (`Upd`).
-/

set_option Elab.async false
set_option linter.unusedTactic false
set_option linter.unreachableTactic false
namespace Sys2Proof.Laws

open Sys2Proof.Machine

variable {gr : Grp} {s₀ s : State}

theorem noFwFollow_upd (hU : Upd gr s₀ s) : Upd gr s₀ (noFwFollow s) := by
  unfold noFwFollow
  try dsimp only
  repeat' first
    | intro _
    | with_reducible assumption
    | with_reducible apply ite_upd
    | split
    | with_reducible apply Upd.lit

theorem allowedFollow_upd (hU : Upd gr s₀ s) : Upd gr s₀ (allowedFollow s) := by
  unfold allowedFollow
  try dsimp only
  repeat' first
    | intro _
    | with_reducible assumption
    | with_reducible apply ite_upd
    | with_reducible apply noFwFollow_upd
    | with_reducible apply raise_upd
    | with_reducible apply wr_upd
    | split

theorem injFollow_upd {d : Nat} (hU : Upd gr s₀ s) : Upd gr s₀ (injFollow s d) := by
  unfold injFollow
  try dsimp only
  repeat' first
    | intro _
    | with_reducible assumption
    | with_reducible apply ite_upd
    | with_reducible apply raise_upd
    | with_reducible apply wb_upd
    | with_reducible apply setDyn_upd
    | split

theorem dbgClose_upd {d : Nat} (hU : Upd gr s₀ s) : Upd gr s₀ (dbgClose s d) := by
  unfold dbgClose
  try dsimp only
  repeat' first
    | intro _
    | with_reducible assumption
    | with_reducible apply ite_upd
    | with_reducible apply wb_upd
    | with_reducible apply setDie_upd
    | with_reducible apply allowedFollow_upd
    | with_reducible apply raise_upd
    | exact ⟨rfl, fun h => h, fun h => h⟩
    | exact ⟨rfl, by simp, by simp⟩
    | split
    | with_reducible apply Upd.lit

theorem sessClose_upd {d : Nat} (hU : Upd gr s₀ s) : Upd gr s₀ (sessClose s d) := by
  unfold sessClose
  try dsimp only
  repeat' first
    | intro _
    | with_reducible assumption
    | with_reducible apply ite_upd
    | with_reducible apply raise_upd
    | with_reducible apply wf_upd
    | with_reducible apply setDie_upd
    | exact ⟨rfl, fun h => h, fun h => h⟩
    | exact ⟨rfl, by simp, by simp⟩
    | split
    | with_reducible apply Upd.lit

theorem injPick_upd {d : Nat} {cls : Nat} {dir : Nat} {t : Nat} (hU : Upd gr s₀ s) : Upd gr s₀ (injPick s d cls dir t).2 := by
  unfold injPick
  try dsimp only
  repeat' first
    | intro _
    | with_reducible assumption
    | with_reducible apply ite_upd
    | with_reducible apply setDie_upd
    | with_reducible apply wr_upd
    | with_reducible apply raise_upd
    | with_reducible apply count_upd
    | with_reducible apply whenDo_upd
    | exact ⟨rfl, fun h => h, fun h => h⟩
    | exact ⟨rfl, by simp, by simp⟩
    | split
    | with_reducible apply Upd.lit

end Sys2Proof.Laws
end

