-- ==== Sys2Proof/Laws/AxisCoreUpd.lean ====
section
/-!
SUPPORT. What each operation of `Machine/AxisCore.lean` keeps, and the groups of state it may change (`Upd`).
-/

set_option Elab.async false
set_option linter.unusedTactic false
set_option linter.unreachableTactic false
namespace Sys2Proof.Laws

open Sys2Proof.Machine

variable {gr : Grp} {s₀ s : State}

theorem setMstate_upd {d : Nat} {a : Nat} {m : Nat} (hU : Upd gr s₀ s) : Upd gr s₀ (setMstate s d a m) := by
  unfold setMstate
  try dsimp only
  repeat' first
    | intro _
    | with_reducible assumption
    | with_reducible apply ite_upd
    | with_reducible apply wf_upd
    | split

theorem setHphase_upd {d : Nat} {a : Nat} {h : Nat} (hU : Upd gr s₀ s) : Upd gr s₀ (setHphase s d a h) := by
  unfold setHphase
  try dsimp only
  repeat' first
    | intro _
    | with_reducible assumption
    | with_reducible apply ite_upd
    | with_reducible apply wf_upd
    | split

theorem setPosValid_upd {d : Nat} {a : Nat} {b : Bool} (hU : Upd gr s₀ s) : Upd gr s₀ (setPosValid s d a b) := by
  unfold setPosValid
  try dsimp only
  repeat' first
    | intro _
    | with_reducible assumption
    | with_reducible apply ite_upd
    | with_reducible apply wb_upd
    | split

end Sys2Proof.Laws
end

