-- ==== Sys2Proof/Laws/ChuteUpd.lean ====
section
/-!
SUPPORT. What each operation of `Machine/Chute.lean` keeps, and the groups of state it may change (`Upd`).
-/

set_option Elab.async false
set_option linter.unusedTactic false
set_option linter.unreachableTactic false
namespace Sys2Proof.Laws

open Sys2Proof.Machine

variable {gr : Grp} {s₀ s : State}

theorem cgFollow_upd {d : Nat} (hU : Upd gr s₀ s) : Upd gr s₀ (cgFollow s d) := by
  unfold cgFollow
  try dsimp only
  repeat' first
    | intro _
    | with_reducible assumption
    | with_reducible apply ite_upd
    | with_reducible apply whenDo_upd
    | with_reducible apply setDyn_upd
    | split

theorem chuteFollow_upd {d : Nat} {c : Nat} (hU : Upd gr s₀ s) : Upd gr s₀ (chuteFollow s d c) := by
  unfold chuteFollow
  try dsimp only
  repeat' first
    | intro _
    | with_reducible assumption
    | with_reducible apply ite_upd
    | with_reducible apply cgFollow_upd
    | with_reducible apply whenDo_upd
    | with_reducible apply setDyn_upd
    | with_reducible apply hoistSource_upd
    | split

theorem chuteEvt_upd {d : Nat} {c : Nat} {i : Nat} {g : Nat} (hU : Upd gr s₀ s) : Upd gr s₀ (chuteEvt s d c i g) := by
  unfold chuteEvt
  try dsimp only
  repeat' first
    | intro _
    | with_reducible assumption
    | with_reducible apply ite_upd
    | with_reducible apply raise_upd
    | with_reducible apply whenDo_upd
    | split

theorem chuteCount_upd {d : Nat} {c : Nat} {off : Nat} {total : Nat} (hU : Upd gr s₀ s) : Upd gr s₀ (chuteCount s d c off total) := by
  unfold chuteCount
  try dsimp only
  repeat' first
    | intro _
    | with_reducible assumption
    | with_reducible apply ite_upd
    | with_reducible apply count_upd
    | with_reducible apply whenDo_upd
    | split

theorem chuteLost_upd {d : Nat} {c : Nat} (hU : Upd gr s₀ s) : Upd gr s₀ (chuteLost s d c) := by
  unfold chuteLost
  try dsimp only
  repeat' first
    | intro _
    | with_reducible assumption
    | with_reducible apply ite_upd
    | with_reducible apply chuteEvt_upd
    | with_reducible apply chuteCount_upd
    | split

theorem spotted_upd {d : Nat} {c : Nat} (hU : Upd gr s₀ s) : Upd gr s₀ (spotted s d c) := by
  unfold spotted
  try dsimp only
  repeat' first
    | intro _
    | with_reducible assumption
    | with_reducible apply ite_upd
    | with_reducible apply chuteEvt_upd
    | with_reducible apply chuteCount_upd
    | split

theorem spotGone_upd {d : Nat} {c : Nat} {ws : List CWord} (hU : Upd gr s₀ s) : Upd gr s₀ (spotGone s d c ws) := by
  unfold spotGone
  try dsimp only
  repeat' first
    | intro _
    | with_reducible assumption
    | with_reducible apply ite_upd
    | with_reducible apply each_upd
    | with_reducible apply spotted_upd
    | split

theorem chuteLostN_upd {x0 : Nat} {x2 : Nat} {x3 : Nat} (hU : Upd gr s₀ s) : Upd gr s₀ (chuteLostN x0 s x2 x3) := by
  induction x0 generalizing s x2 x3 with
  | zero => exact hU
  | succ n ih =>
    unfold chuteLostN
    try dsimp only
    repeat' first
      | intro _
      | with_reducible assumption
      | with_reducible apply ih
      | with_reducible apply ite_upd
      | with_reducible apply chuteLost_upd
      | split

theorem chuteRoom_upd {d : Nat} {c : Nat} {n : Nat} (hU : Upd gr s₀ s) : Upd gr s₀ (chuteRoom s d c n) := by
  unfold chuteRoom
  try dsimp only
  repeat' first
    | intro _
    | with_reducible assumption
    | with_reducible apply ite_upd
    | with_reducible apply spotGone_upd
    | with_reducible apply chuteLostN_upd
    | with_reducible apply setChute_upd
    | split
    | with_reducible apply Upd.lit

theorem chuteRoomTail_upd {d : Nat} {c : Nat} (hU : Upd gr s₀ s) : Upd gr s₀ (chuteRoomTail s d c) := by
  unfold chuteRoomTail
  try dsimp only
  repeat' first
    | intro _
    | with_reducible assumption
    | with_reducible apply ite_upd
    | with_reducible apply spotGone_upd
    | with_reducible apply chuteLostN_upd
    | with_reducible apply setChute_upd
    | split
    | with_reducible apply Upd.lit

theorem chuteRecord_upd {d : Nat} {c : Nat} {ws : List Word} (hU : Upd gr s₀ s) : Upd gr s₀ (chuteRecord s d c ws) := by
  unfold chuteRecord
  try dsimp only
  repeat' first
    | intro _
    | with_reducible assumption
    | with_reducible apply ite_upd
    | with_reducible apply chuteRoom_upd
    | with_reducible apply chuteFollow_upd
    | with_reducible apply setChute_upd
    | with_reducible apply chuteLost_upd
    | split
    | with_reducible apply Upd.lit

theorem mirrorWrite_upd {d : Nat} {c : Nat} (hU : Upd gr s₀ s) : Upd gr s₀ (mirrorWrite s d c) := by
  unfold mirrorWrite
  try dsimp only
  repeat' first
    | intro _
    | with_reducible assumption
    | with_reducible apply ite_upd
    | with_reducible apply setChute_upd
    | with_reducible apply emit_upd
    | split
    | with_reducible apply Upd.lit

theorem mirrorFollow_upd {d : Nat} {c : Nat} (hU : Upd gr s₀ s) : Upd gr s₀ (mirrorFollow s d c) := by
  unfold mirrorFollow
  try dsimp only
  repeat' first
    | intro _
    | with_reducible assumption
    | with_reducible apply ite_upd
    | with_reducible apply mirrorWrite_upd
    | split

theorem creditBack_upd {d : Nat} {c : Nat} {n : Nat} (hU : Upd gr s₀ s) : Upd gr s₀ (creditBack s d c n) := by
  unfold creditBack
  try dsimp only
  repeat' first
    | intro _
    | with_reducible assumption
    | with_reducible apply ite_upd
    | with_reducible apply mirrorFollow_upd
    | with_reducible apply setChute_upd
    | split
    | with_reducible apply Upd.lit

theorem headTake_upd {d : Nat} {c : Nat} (hU : Upd gr s₀ s) : Upd gr s₀ (headTake s d c).2 := by
  unfold headTake
  try dsimp only
  repeat' first
    | intro _
    | with_reducible assumption
    | with_reducible apply ite_upd
    | with_reducible apply setChute_upd
    | with_reducible apply raise_upd
    | with_reducible apply chuteCount_upd
    | with_reducible apply spotted_upd
    | with_reducible apply chuteFollow_upd
    | with_reducible apply creditBack_upd
    | split
    | with_reducible apply Upd.lit

theorem chuteAppend_upd {d : Nat} {c : Nat} {ws : List CWord} (hU : Upd gr s₀ s) : Upd gr s₀ (chuteAppend s d c ws) := by
  unfold chuteAppend
  try dsimp only
  repeat' first
    | intro _
    | with_reducible assumption
    | with_reducible apply ite_upd
    | with_reducible apply setChute_upd
    | with_reducible apply chuteFollow_upd
    | with_reducible apply creditBack_upd
    | split
    | with_reducible apply Upd.lit

theorem chuteStart_upd {d : Nat} {c : Nat} (hU : Upd gr s₀ s) : Upd gr s₀ (chuteStart s d c) := by
  unfold chuteStart
  try dsimp only
  repeat' first
    | intro _
    | with_reducible assumption
    | with_reducible apply ite_upd
    | with_reducible apply setChute_upd
    | with_reducible apply whenDo_upd
    | with_reducible apply chuteEvt_upd
    | with_reducible apply chuteFollow_upd
    | with_reducible apply mirrorWrite_upd
    | split

end Sys2Proof.Laws
end

