-- ==== Sys2Proof/Laws/HoistCoreUpd.lean ====
section
/-!
SUPPORT. What each operation of `Machine/HoistCore.lean` keeps, and the groups of state it may change (`Upd`).
-/

set_option Elab.async false
set_option linter.unusedTactic false
set_option linter.unreachableTactic false
namespace Sys2Proof.Laws

open Sys2Proof.Machine

variable {gr : Grp} {s₀ s : State}

theorem setHcA_upd {d : Nat} {c : Nat} {a : Nat} {addr : Nat} {host : Bool} (hU : Upd gr s₀ s) : Upd gr s₀ (setHcA s d c a addr host) := by
  unfold setHcA
  try dsimp only
  repeat' first
    | intro _
    | with_reducible assumption
    | with_reducible apply ite_upd
    | with_reducible apply wr_upd
    | with_reducible apply wr48_upd
    | split

theorem unreserve_upd {d : Nat} {b : Burst} (hU : Upd gr s₀ s) : Upd gr s₀ (unreserve s d b) := by
  unfold unreserve
  try dsimp only
  repeat' first
    | intro _
    | with_reducible assumption
    | with_reducible apply ite_upd
    | with_reducible apply chuteFollow_upd
    | with_reducible apply setChute_upd
    | split
    | with_reducible apply Upd.lit

theorem heldForget_upd {d : Nat} {q : Nat} (hU : Upd gr s₀ s) : Upd gr s₀ (heldForget s d q) := by
  unfold heldForget
  try dsimp only
  repeat' first
    | intro _
    | with_reducible assumption
    | with_reducible apply ite_upd
    | with_reducible apply each_upd
    | with_reducible apply setHoist_upd
    | split
    | with_reducible apply Upd.lit

theorem hcDrop_upd {d : Nat} {c : Nat} (hU : Upd gr s₀ s) : Upd gr s₀ (hcDrop s d c) := by
  unfold hcDrop
  try dsimp only
  repeat' first
    | intro _
    | with_reducible assumption
    | with_reducible apply ite_upd
    | with_reducible apply setHoist_upd
    | with_reducible apply each_upd
    | with_reducible apply unreserve_upd
    | split
    | with_reducible apply Upd.lit

theorem hcUnhold_upd {d : Nat} {c : Nat} (hU : Upd gr s₀ s) : Upd gr s₀ (hcUnhold s d c) := by
  unfold hcUnhold
  try dsimp only
  repeat' first
    | intro _
    | with_reducible assumption
    | with_reducible apply ite_upd
    | with_reducible apply each_upd
    | with_reducible apply setHoist_upd
    | with_reducible apply unreserve_upd
    | split
    | with_reducible apply Upd.lit

theorem cqFollow_upd {d : Nat} {q : Nat} {kept : Bool} (hU : Upd gr s₀ s) : Upd gr s₀ (cqFollow s d q kept) := by
  unfold cqFollow
  try dsimp only
  repeat' first
    | intro _
    | with_reducible assumption
    | with_reducible apply ite_upd
    | with_reducible apply setDyn_upd
    | split

theorem cqAppend_upd {d : Nat} {c : Nat} {kind : Nat} {code : Nat} {q : Nat} {instr : Bool} (hU : Upd gr s₀ s) : Upd gr s₀ (cqAppend s d c kind code q instr) := by
  unfold cqAppend
  try dsimp only
  repeat' first
    | intro _
    | with_reducible assumption
    | with_reducible apply ite_upd
    | with_reducible apply cqFollow_upd
    | with_reducible apply setCqRecs_upd
    | split

theorem hcUnsig_upd {d : Nat} {c : Nat} (hU : Upd gr s₀ s) : Upd gr s₀ (hcUnsig s d c) := by
  unfold hcUnsig
  try dsimp only
  repeat' first
    | intro _
    | with_reducible assumption
    | with_reducible apply ite_upd
    | with_reducible apply setCqRecs_upd
    | with_reducible apply setHoist_upd
    | with_reducible apply each_upd
    | with_reducible apply cqFollow_upd
    | split
    | with_reducible apply Upd.lit

theorem errRecord_upd {d : Nat} {c : Nat} {kind : Nat} {code : Nat} (hU : Upd gr s₀ s) : Upd gr s₀ (errRecord s d c kind code) := by
  unfold errRecord
  try dsimp only
  repeat' first
    | intro _
    | with_reducible assumption
    | with_reducible apply ite_upd
    | with_reducible apply cqAppend_upd
    | split

theorem hcFinish_upd {d : Nat} {c : Nat} {w : Word} (hU : Upd gr s₀ s) : Upd gr s₀ (hcFinish s d c w) := by
  unfold hcFinish
  try dsimp only
  repeat' first
    | intro _
    | with_reducible assumption
    | with_reducible apply ite_upd
    | with_reducible apply setHoist_upd
    | with_reducible apply raise_upd
    | with_reducible apply hoistSource_upd
    | with_reducible apply whenDo_upd
    | split
    | with_reducible apply Upd.lit

theorem cqDone_upd {d : Nat} {r : CqRec} (hU : Upd gr s₀ s) : Upd gr s₀ (cqDone s d r) := by
  unfold cqDone
  try dsimp only
  repeat' first
    | intro _
    | with_reducible assumption
    | with_reducible apply ite_upd
    | with_reducible apply cqFollow_upd
    | with_reducible apply setCqRecs_upd
    | with_reducible apply hcFinish_upd
    | split
    | with_reducible apply Upd.lit

theorem cqWrite_upd {d : Nat} {q : Nat} (hU : Upd gr s₀ s) : Upd gr s₀ (cqWrite s d q) := by
  unfold cqWrite
  try dsimp only
  repeat' first
    | intro _
    | with_reducible assumption
    | with_reducible apply ite_upd
    | with_reducible apply cqDone_upd
    | with_reducible apply emit_upd
    | with_reducible apply wr_upd
    | with_reducible apply raise_upd
    | split
    | with_reducible apply Upd.lit

end Sys2Proof.Laws
end

