-- ==== Sys2Proof/Laws/MemoryUpd.lean ====
section
/-!
SUPPORT. What each operation of `Machine/Memory.lean` keeps, and the groups of state it may change (`Upd`).
-/

set_option Elab.async false
set_option linter.unusedTactic false
set_option linter.unreachableTactic false
namespace Sys2Proof.Laws

open Sys2Proof.Machine

variable {gr : Grp} {s₀ s : State}

theorem logRecord_upd {d : Nat} {cd : Nat} {x : Rec} (hU : Upd gr s₀ s) : Upd gr s₀ (logRecord s d cd x) := by
  unfold logRecord
  try dsimp only
  repeat' first
    | intro _
    | with_reducible assumption
    | with_reducible apply ite_upd
    | with_reducible apply count_upd
    | with_reducible apply setDie_upd
    | with_reducible apply chuteRecord_upd
    | exact ⟨rfl, fun h => h, fun h => h⟩
    | exact ⟨rfl, by simp, by simp⟩
    | split
    | with_reducible apply Upd.lit

theorem wrWord_upd {a : Nat} {w : Word} (hM : gr.mem = true) (hE : gr.ecc = true) (hU : Upd gr s₀ s) :
    Upd gr s₀ (wrWord s a w) :=
  hU.memory hM hE (memSet3_wf _ _ _)

theorem poisonWord_upd {a : Nat} (hE : gr.ecc = true) (hU : Upd gr s₀ s) : Upd gr s₀ (poisonWord s a) :=
  hU.checks hE

theorem reportBad_upd {d : Nat} {dps : Bool} {w : Nat} {src : Nat} {eff : Option Link} {reason : Nat} (hU : Upd gr s₀ s) : Upd gr s₀ (reportBad s d dps w src eff reason) := by
  unfold reportBad
  try dsimp only
  repeat' first
    | intro _
    | with_reducible assumption
    | with_reducible apply ite_upd
    | with_reducible apply wr48_upd
    | with_reducible apply wr_upd
    | with_reducible apply raise_upd
    | with_reducible apply count_upd
    | with_reducible apply logRecord_upd
    | with_reducible apply whenDo_upd
    | with_reducible apply setMemSt_upd
    | split
    | with_reducible apply Upd.lit

theorem readWord_upd {d : Nat} {dps : Bool} {w src : Nat} {eff : Option Link} {reason : Nat} (hE : gr.ecc = true)
    (hU : Upd gr s₀ s) : Upd gr s₀ (readWord s d dps w src eff reason).2.2 := by
  unfold readWord
  dsimp only
  split
  · exact hU
  · exact raise_upd (count_upd (hU.checks hE))
  · exact reportBad_upd hU

theorem readWords_upd {x0 : Nat} {x2 : Nat} {x3 : Bool} {x4 : Nat} {x5 : Nat} {x6 : Option Link} {x7 : Nat} (hE : gr.ecc = true) (hU : Upd gr s₀ s) : Upd gr s₀ (readWords x0 s x2 x3 x4 x5 x6 x7).2.2 := by
  induction x0 generalizing s x2 x3 x4 x5 x6 x7 with
  | zero => exact hU
  | succ n ih =>
    unfold readWords
    try dsimp only
    repeat' first
      | intro _
      | with_reducible assumption
      | with_reducible apply ih
      | with_reducible apply ite_upd
      | with_reducible apply readWord_upd
      | (with_reducible refine trip_upd (by assumption) ?_)
      | split

theorem spillRead_upd {d : Nat} {c : Nat} {i : Nat} (hU : Upd gr s₀ s) : Upd gr s₀ (spillRead s d c i) := by
  unfold spillRead
  try dsimp only
  repeat' first
    | intro _
    | with_reducible assumption
    | with_reducible apply ite_upd
    | with_reducible apply setChute_upd
    | with_reducible apply raise_upd
    | with_reducible apply chuteCount_upd
    | with_reducible apply count_upd
    | with_reducible apply spotted_upd
    | with_reducible apply reportBad_upd
    | with_reducible apply nextFree_upd
    | split
    | with_reducible apply Upd.lit

theorem chuteTake_upd {d : Nat} {c : Nat} (hU : Upd gr s₀ s) : Upd gr s₀ (chuteTake s d c).2 := by
  unfold chuteTake
  try dsimp only
  repeat' first
    | intro _
    | with_reducible assumption
    | with_reducible apply ite_upd
    | with_reducible apply headTake_upd
    | with_reducible apply each_upd
    | with_reducible apply spillRead_upd
    | (with_reducible refine pair_upd (by assumption) ?_)
    | split

theorem chuteSkip_upd {d : Nat} {c : Nat} {n : Nat} (hU : Upd gr s₀ s) : Upd gr s₀ (chuteSkip s d c n) := by
  unfold chuteSkip
  try dsimp only
  repeat' first
    | intro _
    | with_reducible assumption
    | with_reducible apply ite_upd
    | with_reducible apply each_upd
    | with_reducible apply chuteTake_upd
    | (with_reducible refine pair_upd (by assumption) ?_)
    | split

theorem retWrite_upd {d w : Nat} {v : Word} (hE : gr.ecc = true) (hR : gr.ret = true) (hU : Upd gr s₀ s) :
    Upd gr s₀ (retWrite s d w v) :=
  (wr48_upd hU).store hR hE (memSet3_wf _ _ _)

theorem retWrites_upd {d : Nat} {w : Nat} {vs : List Word} (hE : gr.ecc = true) (hR : gr.ret = true) (hU : Upd gr s₀ s) : Upd gr s₀ (retWrites s d w vs) := by
  unfold retWrites
  try dsimp only
  repeat' first
    | intro _
    | with_reducible assumption
    | with_reducible apply ite_upd
    | with_reducible apply each_upd
    | with_reducible apply retWrite_upd
    | split

end Sys2Proof.Laws
end

