-- ==== Sys2Proof/Laws/OperandsUpd.lean ====
section
/-!
SUPPORT. What each operation of `Machine/Operands.lean` keeps, and the groups of state it may change (`Upd`).
-/

set_option Elab.async false
set_option linter.unusedTactic false
set_option linter.unreachableTactic false
namespace Sys2Proof.Laws

open Sys2Proof.Machine

variable {gr : Grp} {s₀ s : State}

theorem unsupported_upd {bar : Nat} {off : Nat} {write : Bool} (hU : Upd gr s₀ s) : Upd gr s₀ (unsupported s bar off write) := by
  unfold unsupported
  try dsimp only
  repeat' first
    | intro _
    | with_reducible assumption
    | with_reducible apply ite_upd
    | with_reducible apply count_upd
    | with_reducible apply wr_upd
    | with_reducible apply raise_upd
    | split
    | with_reducible apply Upd.lit

theorem noAnswer_upd {r : Req} {bar : Nat} {off : Nat} {write : Bool} (hU : Upd gr s₀ s) : Upd gr s₀ (noAnswer s r bar off write) := by
  unfold noAnswer
  try dsimp only
  repeat' first
    | intro _
    | with_reducible assumption
    | with_reducible apply ite_upd
    | with_reducible apply unsupported_upd
    | split
    | with_reducible apply Upd.lit

theorem denyCount_upd {r : Req} {p : Pg} {write : Bool} {mem : Bool} (hU : Upd gr s₀ s) : Upd gr s₀ (denyCount s r p write mem) := by
  unfold denyCount
  try dsimp only
  repeat' first
    | intro _
    | with_reducible assumption
    | with_reducible apply ite_upd
    | with_reducible apply wr_upd
    | with_reducible apply count_upd
    | with_reducible apply raise_upd
    | split

theorem touchSession_upd {r : Req} {p : Pg} (hU : Upd gr s₀ s) : Upd gr s₀ (touchSession s r p) := by
  unfold touchSession
  try dsimp only
  repeat' first
    | intro _
    | with_reducible assumption
    | with_reducible apply ite_upd
    | with_reducible apply setDie_upd
    | exact ⟨rfl, fun h => h, fun h => h⟩
    | exact ⟨rfl, by simp, by simp⟩
    | split
    | with_reducible apply Upd.lit

theorem fencedWrite_upd {r : Req} {p : Pg} {off : Nat} (hU : Upd gr s₀ s) : Upd gr s₀ (fencedWrite s r p off) := by
  unfold fencedWrite
  try dsimp only
  repeat' first
    | intro _
    | with_reducible assumption
    | with_reducible apply ite_upd
    | with_reducible apply logErr_upd
    | split
    | with_reducible apply Upd.lit

theorem guardedWrite_upd {r : Req} {p : Pg} {off : Nat} {eff : State → State} (hU : Upd gr s₀ s) (hf_eff : ∀ tU, Upd gr s₀ tU → Upd gr s₀ (eff tU)) : Upd gr s₀ (guardedWrite s r p off eff) := by
  unfold guardedWrite
  try dsimp only
  repeat' first
    | intro _
    | with_reducible assumption
    | with_reducible apply ite_upd
    | with_reducible apply hf_eff
    | with_reducible apply unsupported_upd
    | with_reducible apply noAnswer_upd
    | with_reducible apply logErr_upd
    | with_reducible apply denyCount_upd
    | with_reducible apply fencedWrite_upd
    | with_reducible apply touchSession_upd
    | split
    | with_reducible apply Upd.lit

theorem transferUppers_upd {p : Pg} {off : Nat} {n : Nat} {shadow : Bool} (hU : Upd gr s₀ s) : Upd gr s₀ (transferUppers s p off n shadow) := by
  unfold transferUppers
  try dsimp only
  repeat' first
    | intro _
    | with_reducible assumption
    | with_reducible apply ite_upd
    | with_reducible apply each_upd
    | with_reducible apply wrShadow_upd
    | with_reducible apply wr_upd
    | split
    | with_reducible apply Upd.lit

theorem tickWrite_upd {r : Req} {k : RegKey} {row : RegRow} {old : Word} {v : Word} (hU : Upd gr s₀ s) : Upd gr s₀ (tickWrite s r k row old v).2 := by
  unfold tickWrite
  try dsimp only
  repeat' first
    | intro _
    | with_reducible assumption
    | with_reducible apply ite_upd
    | split
    | with_reducible apply Upd.lit

theorem rowWrite_upd {r : Req} {p : Pg} {off : Nat} {row : RegRow} {v : Word} (hU : Upd gr s₀ s) : Upd gr s₀ (rowWrite s r p off row v) := by
  unfold rowWrite
  try dsimp only
  repeat' first
    | intro _
    | with_reducible assumption
    | with_reducible apply ite_upd
    | with_reducible apply wr_upd
    | with_reducible apply tickWrite_upd
    | with_reducible apply transferUppers_upd
    | with_reducible apply logErr_upd
    | with_reducible apply wrShadow_upd
    | (with_reducible refine pair_upd (by assumption) ?_)
    | split
    | with_reducible apply Upd.lit

theorem plainWrite_upd {r : Req} {p : Pg} {off : Nat} {v : Word} (hU : Upd gr s₀ s) : Upd gr s₀ (plainWrite s r p off v) := by
  unfold plainWrite
  try dsimp only
  repeat' first
    | intro _
    | with_reducible assumption
    | with_reducible apply ite_upd
    | with_reducible apply rowWrite_upd
    | split
    | with_reducible apply Upd.lit

theorem capture_upd {r : Req} {p : Pg} {off : Nat} {val : State → Pg → Nat → Word} (hU : Upd gr s₀ s) : Upd gr s₀ (capture s r p off val) := by
  unfold capture
  try dsimp only
  repeat' first
    | intro _
    | with_reducible assumption
    | with_reducible apply ite_upd
    | with_reducible apply each_upd
    | split
    | with_reducible apply Upd.lit

theorem guardedRead_upd {r : Req} {p : Pg} {off : Nat} {val : State → Pg → Nat → Word} {eff : State → State} (hU : Upd gr s₀ s) (hf_eff : ∀ tU, Upd gr s₀ tU → Upd gr s₀ (eff tU)) : Upd gr s₀ (guardedRead s r p off val eff) := by
  unfold guardedRead
  try dsimp only
  repeat' first
    | intro _
    | with_reducible assumption
    | with_reducible apply ite_upd
    | with_reducible apply hf_eff
    | with_reducible apply unsupported_upd
    | with_reducible apply noAnswer_upd
    | with_reducible apply denyCount_upd
    | with_reducible apply logErr_upd
    | with_reducible apply touchSession_upd
    | with_reducible apply capture_upd
    | split
    | with_reducible apply Upd.lit

end Sys2Proof.Laws
end

