-- ==== Sys2Proof/Laws/TallyUpd.lean ====
section
/-!
SUPPORT. What each operation of `Machine/Tally.lean` keeps, and the groups of state it may change (`Upd`).
-/

set_option Elab.async false
set_option linter.unusedTactic false
set_option linter.unreachableTactic false
namespace Sys2Proof.Laws

open Sys2Proof.Machine

variable {gr : Grp} {s₀ s : State}

theorem tlCopies_upd {d : Nat} (hU : Upd gr s₀ s) : Upd gr s₀ (tlCopies s d) := by
  unfold tlCopies
  try dsimp only
  repeat' first
    | intro _
    | with_reducible assumption
    | with_reducible apply ite_upd
    | with_reducible apply each_upd
    | with_reducible apply wr_upd
    | split

theorem tlFresh_upd {d : Nat} (hE : gr.ecc = true) (hR : gr.ret = true) (hU : Upd gr s₀ s) : Upd gr s₀ (tlFresh s d) := by
  unfold tlFresh
  try dsimp only
  repeat' first
    | intro _
    | with_reducible assumption
    | with_reducible apply ite_upd
    | with_reducible apply raise_upd
    | with_reducible apply retWrites_upd
    | split

theorem tlCheck_upd {d : Nat} (hE : gr.ecc = true) (hR : gr.ret = true) (hU : Upd gr s₀ s) : Upd gr s₀ (tlCheck s d) := by
  unfold tlCheck
  try dsimp only
  repeat' first
    | intro _
    | with_reducible assumption
    | with_reducible apply ite_upd
    | with_reducible apply tlFresh_upd
    | split

theorem tlRecord_upd {d : Nat} {st : Nat} {last : Nat} {alt : Nat} {detail : Nat} {us : Nat} (hE : gr.ecc = true) (hR : gr.ret = true) (hU : Upd gr s₀ s) : Upd gr s₀ (tlRecord s d st last alt detail us) := by
  unfold tlRecord
  try dsimp only
  repeat' first
    | intro _
    | with_reducible assumption
    | with_reducible apply ite_upd
    | with_reducible apply retWrite_upd
    | split
    | with_reducible apply Upd.lit

theorem tlHistory_upd {d : Nat} {outcome : Nat} (hE : gr.ecc = true) (hR : gr.ret = true) (hU : Upd gr s₀ s) : Upd gr s₀ (tlHistory s d outcome) := by
  unfold tlHistory
  try dsimp only
  repeat' first
    | intro _
    | with_reducible assumption
    | with_reducible apply ite_upd
    | with_reducible apply retWrite_upd
    | with_reducible apply retWrites_upd
    | split

theorem tallyClear_upd {d : Nat} {mask : Nat} (hE : gr.ecc = true) (hR : gr.ret = true) (hU : Upd gr s₀ s) : Upd gr s₀ (tallyClear s d mask) := by
  unfold tallyClear
  try dsimp only
  repeat' first
    | intro _
    | with_reducible assumption
    | with_reducible apply ite_upd
    | with_reducible apply each_upd
    | with_reducible apply retWrite_upd
    | with_reducible apply tlCopies_upd
    | with_reducible apply raise_upd
    | with_reducible apply wb_upd
    | with_reducible apply wr_upd
    | split

theorem tlClearWrite_upd {d : Nat} {v : Word} (hU : Upd gr s₀ s) : Upd gr s₀ (tlClearWrite d v s) := by
  unfold tlClearWrite
  try dsimp only
  repeat' first
    | intro _
    | with_reducible assumption
    | with_reducible apply ite_upd
    | with_reducible apply wb_upd
    | with_reducible apply wr_upd
    | split

theorem execTlClear_ans {r : Req} {d : Nat} {v : Word} (hU : Upd gr s₀ s) : Ans gr s₀ (execTlClear r d v s) := by
  unfold execTlClear
  try dsimp only
  repeat' first
    | intro _
    | with_reducible assumption
    | with_reducible apply ok_ans
    | with_reducible apply ite_ans
    | with_reducible apply ite_upd
    | with_reducible exact ok_ans (by assumption)
    | with_reducible apply guardedWrite_upd
    | with_reducible apply tlClearWrite_upd
    | split

theorem execCleared_ans {d : Nat} (hE : gr.ecc = true) (hR : gr.ret = true) (hU : Upd gr s₀ s) : Ans gr s₀ (execCleared d s) := by
  unfold execCleared
  try dsimp only
  repeat' first
    | intro _
    | with_reducible assumption
    | with_reducible apply ok_ans
    | with_reducible apply ite_ans
    | with_reducible apply ite_upd
    | with_reducible exact ok_ans (by assumption)
    | with_reducible apply tallyClear_upd
    | split

end Sys2Proof.Laws
end

