-- ==== Sys2Proof/Laws/FramesUpd.lean ====
section
/-!
SUPPORT. What each operation of `Machine/Frames.lean` keeps, and the groups of state it may change (`Upd`).
-/

set_option Elab.async false
set_option linter.unusedTactic false
set_option linter.unreachableTactic false
namespace Sys2Proof.Laws

open Sys2Proof.Machine

variable {gr : Grp} {s₀ s : State}

theorem queueFrame_upd {d : Nat} {p : Nat} {f : Frame} (hU : Upd gr s₀ s) : Upd gr s₀ (queueFrame s d p f) := by
  unfold queueFrame
  try dsimp only
  repeat' first
    | intro _
    | with_reducible assumption
    | with_reducible apply ite_upd
    | with_reducible apply setPort_upd
    | split
    | with_reducible apply Upd.lit

theorem setCycle_upd {d : Nat} {p : Nat} {c : Cycle} (hU : Upd gr s₀ s) : Upd gr s₀ (setCycle s d p c) := by
  unfold setCycle
  try dsimp only
  repeat' first
    | intro _
    | with_reducible assumption
    | with_reducible apply ite_upd
    | with_reducible apply setPort_upd
    | split
    | with_reducible apply Upd.lit

theorem keepLine_upd {d : Nat} {k : Nat} {c : Cycle} (hU : Upd gr s₀ s) : Upd gr s₀ (keepLine s d k c) := by
  unfold keepLine
  try dsimp only
  repeat' first
    | intro _
    | with_reducible assumption
    | with_reducible apply ite_upd
    | with_reducible apply setCtx_upd
    | split
    | with_reducible apply Upd.lit

theorem withdraw_upd {d : Nat} {p : Nat} {k : Nat} {c : Cycle} (hU : Upd gr s₀ s) : Upd gr s₀ (withdraw s d p k c) := by
  unfold withdraw
  try dsimp only
  repeat' first
    | intro _
    | with_reducible assumption
    | with_reducible apply ite_upd
    | with_reducible apply setCycle_upd
    | with_reducible apply queueFrame_upd
    | with_reducible apply setPort_upd
    | split
    | with_reducible apply Upd.lit

theorem withdrawAll_upd {d : Nat} {k : Nat} {f : Cycle → Bool} (hU : Upd gr s₀ s) : Upd gr s₀ (withdrawAll s d k f) := by
  unfold withdrawAll
  try dsimp only
  repeat' first
    | intro _
    | with_reducible assumption
    | with_reducible apply ite_upd
    | with_reducible apply each_upd
    | with_reducible apply withdraw_upd
    | with_reducible apply keepLine_upd
    | split
    | with_reducible apply Upd.lit

theorem linkStat_upd {d : Nat} {p : Nat} (hU : Upd gr s₀ s) : Upd gr s₀ (linkStat s d p) := by
  unfold linkStat
  try dsimp only
  repeat' first
    | intro _
    | with_reducible assumption
    | with_reducible apply ite_upd
    | with_reducible apply wr_upd
    | split

end Sys2Proof.Laws
end

