-- ==== Sys2Proof/Laws/SeamUpd.lean ====
section
/-!
SUPPORT. What each operation of `Machine/Seam.lean` keeps, and the groups of state it may change (`Upd`).
-/

set_option Elab.async false
set_option linter.unusedTactic false
set_option linter.unreachableTactic false
namespace Sys2Proof.Laws

open Sys2Proof.Machine

variable {gr : Grp} {s₀ s : State}

theorem seamPurge_upd {d : Nat} {k : Nat} {e : Nat} {j : Nat} (hU : Upd gr s₀ s) : Upd gr s₀ (seamPurge s d k e j) := by
  unfold seamPurge
  try dsimp only
  repeat' first
    | intro _
    | with_reducible assumption
    | with_reducible apply ite_upd
    | split
    | with_reducible apply Upd.lit

theorem seamSet_upd {d : Nat} {k : Nat} {st : Nat} {cause : Nat} (hU : Upd gr s₀ s) : Upd gr s₀ (seamSet s d k st cause) := by
  unfold seamSet
  try dsimp only
  repeat' first
    | intro _
    | with_reducible assumption
    | with_reducible apply ite_upd
    | with_reducible apply seamPurge_upd
    | with_reducible apply setCtx_upd
    | with_reducible apply wr_upd
    | with_reducible apply whenDo_upd
    | with_reducible apply raise_upd
    | split
    | with_reducible apply Upd.lit

theorem seamUpdate_upd {d : Nat} {k : Nat} (hU : Upd gr s₀ s) : Upd gr s₀ (seamUpdate s d k) := by
  unfold seamUpdate
  try dsimp only
  repeat' first
    | intro _
    | with_reducible assumption
    | with_reducible apply ite_upd
    | with_reducible apply seamSet_upd
    | split

theorem seamsUpdate_upd {d : Nat} (hU : Upd gr s₀ s) : Upd gr s₀ (seamsUpdate s d) := by
  unfold seamsUpdate
  try dsimp only
  repeat' first
    | intro _
    | with_reducible assumption
    | with_reducible apply ite_upd
    | with_reducible apply each_upd
    | with_reducible apply seamUpdate_upd
    | split

end Sys2Proof.Laws
end

