-- ==== Sys2Proof/Laws/CtxUpd.lean ====
section
/-!
SUPPORT. What each operation of `Machine/Ctx.lean` keeps, and the groups of state it may change (`Upd`).
-/

set_option Elab.async false
set_option linter.unusedTactic false
set_option linter.unreachableTactic false
namespace Sys2Proof.Laws

open Sys2Proof.Machine

variable {gr : Grp} {s₀ s : State}

theorem ctxRecord_upd {d : Nat} {k : Nat} {cause : Nat} {fences : Bool} (hU : Upd gr s₀ s) : Upd gr s₀ (ctxRecord s d k cause fences) := by
  unfold ctxRecord
  try dsimp only
  repeat' first
    | intro _
    | with_reducible assumption
    | with_reducible apply ite_upd
    | with_reducible apply logRecord_upd
    | split

theorem ctxLate_upd {d : Nat} {k : Nat} (hU : Upd gr s₀ s) : Upd gr s₀ (ctxLate s d k) := by
  unfold ctxLate
  try dsimp only
  repeat' first
    | intro _
    | with_reducible assumption
    | with_reducible apply ite_upd
    | with_reducible apply ctxEvt_upd
    | with_reducible apply setCtx_upd
    | split
    | with_reducible apply Upd.lit

theorem ctxNull_upd {d : Nat} {k : Nat} (hU : Upd gr s₀ s) : Upd gr s₀ (ctxNull s d k) := by
  unfold ctxNull
  try dsimp only
  repeat' first
    | intro _
    | with_reducible assumption
    | with_reducible apply ite_upd
    | with_reducible apply setCtx_upd
    | split
    | with_reducible apply Upd.lit

theorem lineDone_upd {d : Nat} {k : Nat} {blank : Bool} (hU : Upd gr s₀ s) : Upd gr s₀ (lineDone s d k blank) := by
  unfold lineDone
  try dsimp only
  repeat' first
    | intro _
    | with_reducible assumption
    | with_reducible apply ite_upd
    | with_reducible apply setCtx_upd
    | split
    | with_reducible apply Upd.lit

theorem ctxDegraded_upd {d : Nat} {k : Nat} (hU : Upd gr s₀ s) : Upd gr s₀ (ctxDegraded s d k) := by
  unfold ctxDegraded
  try dsimp only
  repeat' first
    | intro _
    | with_reducible assumption
    | with_reducible apply ite_upd
    | with_reducible apply setCtx_upd
    | split
    | with_reducible apply Upd.lit

theorem stallFollow_upd {d : Nat} {k : Nat} (hU : Upd gr s₀ s) : Upd gr s₀ (stallFollow s d k) := by
  unfold stallFollow
  try dsimp only
  repeat' first
    | intro _
    | with_reducible assumption
    | with_reducible apply ite_upd
    | with_reducible apply setCtx_upd
    | split
    | with_reducible apply Upd.lit

theorem stallReset_upd {d : Nat} {k : Nat} (hU : Upd gr s₀ s) : Upd gr s₀ (stallReset s d k) := by
  unfold stallReset
  try dsimp only
  repeat' first
    | intro _
    | with_reducible assumption
    | with_reducible apply ite_upd
    | with_reducible apply setCtx_upd
    | split
    | with_reducible apply Upd.lit

theorem stallMark_upd {d : Nat} {k : Nat} (hU : Upd gr s₀ s) : Upd gr s₀ (stallMark s d k) := by
  unfold stallMark
  try dsimp only
  repeat' first
    | intro _
    | with_reducible assumption
    | with_reducible apply ite_upd
    | with_reducible apply stallFollow_upd
    | with_reducible apply setCtx_upd
    | split
    | with_reducible apply Upd.lit

theorem withRetry_upd {d : Nat} {p : Nat} {g : Nat} {f : State → State} (hU : Upd gr s₀ s) (hf_f : ∀ tU, Upd gr s₀ tU → Upd gr s₀ (f tU)) : Upd gr s₀ (withRetry s d p g f) := by
  unfold withRetry
  try dsimp only
  repeat' first
    | intro _
    | with_reducible assumption
    | with_reducible apply ite_upd
    | with_reducible apply hf_f
    | with_reducible apply linkStat_upd
    | with_reducible apply each_upd
    | with_reducible apply stallFollow_upd
    | split

theorem dropMoved_upd {d : Nat} {k : Nat} (hU : Upd gr s₀ s) : Upd gr s₀ (dropMoved s d k) := by
  unfold dropMoved
  try dsimp only
  repeat' first
    | intro _
    | with_reducible assumption
    | with_reducible apply ite_upd
    | with_reducible apply setEcho_upd
    | with_reducible apply raise_upd
    | with_reducible apply countBy_upd
    | split
    | with_reducible apply Upd.lit

theorem sweepBreak_upd {d : Nat} {f : Nat → Bool} (hU : Upd gr s₀ s) : Upd gr s₀ (sweepBreak s d f) := by
  unfold sweepBreak
  try dsimp only
  repeat' first
    | intro _
    | with_reducible assumption
    | with_reducible apply ite_upd
    | with_reducible apply setEcho_upd
    | split
    | with_reducible apply Upd.lit

theorem staleMeas_upd {d : Nat} {k : Nat} (hU : Upd gr s₀ s) : Upd gr s₀ (staleMeas s d k) := by
  unfold staleMeas
  try dsimp only
  repeat' first
    | intro _
    | with_reducible assumption
    | with_reducible apply ite_upd
    | with_reducible apply setEcho_upd
    | split
    | with_reducible apply Upd.lit

theorem ctxFence_upd {d : Nat} {k : Nat} {cause : Nat} (hU : Upd gr s₀ s) : Upd gr s₀ (ctxFence s d k cause) := by
  unfold ctxFence
  try dsimp only
  repeat' first
    | intro _
    | with_reducible assumption
    | with_reducible apply ite_upd
    | with_reducible apply withdrawAll_upd
    | with_reducible apply stallFollow_upd
    | with_reducible apply setCtx_upd
    | with_reducible apply seamUpdate_upd
    | with_reducible apply sweepBreak_upd
    | with_reducible apply staleMeas_upd
    | with_reducible apply dropMoved_upd
    | with_reducible apply ctxEvt_upd
    | split
    | with_reducible apply Upd.lit

theorem ctxPoison_upd {d : Nat} {k : Nat} (hU : Upd gr s₀ s) : Upd gr s₀ (ctxPoison s d k) := by
  unfold ctxPoison
  try dsimp only
  repeat' first
    | intro _
    | with_reducible assumption
    | with_reducible apply ite_upd
    | with_reducible apply ctxFence_upd
    | split

theorem ctxRead_upd {d : Nat} {k : Nat} {dps : Bool} {w : Nat} {n : Nat} (hE : gr.ecc = true) (hU : Upd gr s₀ s) : Upd gr s₀ (ctxRead s d k dps w n).2.2 := by
  unfold ctxRead
  try dsimp only
  repeat' first
    | intro _
    | with_reducible assumption
    | with_reducible apply ite_upd
    | with_reducible apply readWords_upd
    | with_reducible apply ctxPoison_upd
    | (with_reducible refine trip_upd (by assumption) ?_)
    | split

theorem geomReport_upd {d : Nat} {k : Nat} {code : Nat} (hU : Upd gr s₀ s) : Upd gr s₀ (geomReport s d k code) := by
  unfold geomReport
  try dsimp only
  repeat' first
    | intro _
    | with_reducible assumption
    | with_reducible apply ite_upd
    | with_reducible apply setCtx_upd
    | with_reducible apply raise_upd
    | with_reducible apply wr_upd
    | split
    | with_reducible apply Upd.lit

theorem checkSeamMask_upd {d : Nat} {k : Nat} (hU : Upd gr s₀ s) : Upd gr s₀ (checkSeamMask s d k) := by
  unfold checkSeamMask
  try dsimp only
  repeat' first
    | intro _
    | with_reducible assumption
    | with_reducible apply ite_upd
    | with_reducible apply geomReport_upd
    | split

theorem readDescr_upd {d : Nat} {k : Nat} (hE : gr.ecc = true) (hU : Upd gr s₀ s) : Upd gr s₀ (readDescr s d k) := by
  unfold readDescr
  try dsimp only
  repeat' first
    | intro _
    | with_reducible assumption
    | with_reducible apply ite_upd
    | with_reducible apply setCtx_upd
    | with_reducible apply geomReport_upd
    | with_reducible apply ctxRead_upd
    | with_reducible apply checkSeamMask_upd
    | (with_reducible refine trip_upd (by assumption) ?_)
    | split
    | with_reducible apply Upd.lit

theorem checkDescr_upd {d : Nat} {k : Nat} (hE : gr.ecc = true) (hU : Upd gr s₀ s) : Upd gr s₀ (checkDescr s d k) := by
  unfold checkDescr
  try dsimp only
  repeat' first
    | intro _
    | with_reducible assumption
    | with_reducible apply ite_upd
    | with_reducible apply seamUpdate_upd
    | with_reducible apply readDescr_upd
    | split

theorem mapReload_upd {d : Nat} {k : Nat} (hU : Upd gr s₀ s) : Upd gr s₀ (mapReload s d k) := by
  unfold mapReload
  try dsimp only
  repeat' first
    | intro _
    | with_reducible assumption
    | with_reducible apply ite_upd
    | with_reducible apply setCtx_upd
    | with_reducible apply raise_upd
    | with_reducible apply wr_upd
    | split
    | with_reducible apply Upd.lit

theorem ctxDiff_upd {d : Nat} {k : Nat} (hU : Upd gr s₀ s) : Upd gr s₀ (ctxDiff s d k) := by
  unfold ctxDiff
  try dsimp only
  repeat' first
    | intro _
    | with_reducible assumption
    | with_reducible apply ite_upd
    | with_reducible apply raise_upd
    | split
    | with_reducible apply Upd.lit

theorem ctxHandOver_upd {d : Nat} {k : Nat} (hE : gr.ecc = true) (hU : Upd gr s₀ s) : Upd gr s₀ (ctxHandOver s d k) := by
  unfold ctxHandOver
  try dsimp only
  repeat' first
    | intro _
    | with_reducible assumption
    | with_reducible apply ite_upd
    | with_reducible apply ctxRead_upd
    | with_reducible apply setCtx_upd
    | with_reducible apply wr_upd
    | with_reducible apply stallFollow_upd
    | with_reducible apply checkDescr_upd
    | with_reducible apply ctxDiff_upd
    | with_reducible apply ctxEvt_upd
    | with_reducible apply staleMeas_upd
    | with_reducible apply mapReload_upd
    | (with_reducible refine trip_upd (by assumption) ?_)
    | split
    | with_reducible apply Upd.lit

theorem tryHandOver_upd {d : Nat} {k : Nat} (hE : gr.ecc = true) (hU : Upd gr s₀ s) : Upd gr s₀ (tryHandOver s d k) := by
  unfold tryHandOver
  try dsimp only
  repeat' first
    | intro _
    | with_reducible assumption
    | with_reducible apply ite_upd
    | with_reducible apply ctxHandOver_upd
    | split

theorem blkDrop_upd {d : Nat} {k : Nat} (hU : Upd gr s₀ s) : Upd gr s₀ (blkDrop s d k) := by
  unfold blkDrop
  try dsimp only
  repeat' first
    | intro _
    | with_reducible assumption
    | with_reducible apply ite_upd
    | with_reducible apply setChute_upd
    | split
    | with_reducible apply Upd.lit

theorem discardAsm_upd {d : Nat} {k : Nat} (hU : Upd gr s₀ s) : Upd gr s₀ (discardAsm s d k) := by
  unfold discardAsm
  try dsimp only
  repeat' first
    | intro _
    | with_reducible assumption
    | with_reducible apply ite_upd
    | with_reducible apply blkDrop_upd
    | with_reducible apply setCtx_upd
    | split
    | with_reducible apply Upd.lit

theorem ctxEnter_upd {d : Nat} {k : Nat} {st : CState} {cause : Nat} (hE : gr.ecc = true) (hU : Upd gr s₀ s) : Upd gr s₀ (ctxEnter s d k st cause) := by
  unfold ctxEnter
  try dsimp only
  repeat' first
    | intro _
    | with_reducible assumption
    | with_reducible apply ite_upd
    | with_reducible apply withdrawAll_upd
    | with_reducible apply stallFollow_upd
    | with_reducible apply setCtx_upd
    | with_reducible apply ctxEvt_upd
    | with_reducible apply dropMoved_upd
    | with_reducible apply sweepBreak_upd
    | with_reducible apply staleMeas_upd
    | with_reducible apply tryHandOver_upd
    | with_reducible apply seamUpdate_upd
    | with_reducible apply mapReload_upd
    | with_reducible apply checkDescr_upd
    | split
    | with_reducible apply Upd.lit

theorem ctxMove_upd {d : Nat} {k : Nat} {st : CState} {cause : Nat} (hE : gr.ecc = true) (hU : Upd gr s₀ s) : Upd gr s₀ (ctxMove s d k st cause) := by
  unfold ctxMove
  try dsimp only
  repeat' first
    | intro _
    | with_reducible assumption
    | with_reducible apply ite_upd
    | with_reducible apply each_upd
    | with_reducible apply ctxEnter_upd
    | split

theorem ctxAbortNow_upd {d : Nat} {k : Nat} (hE : gr.ecc = true) (hU : Upd gr s₀ s) : Upd gr s₀ (ctxAbortNow s d k) := by
  unfold ctxAbortNow
  try dsimp only
  repeat' first
    | intro _
    | with_reducible assumption
    | with_reducible apply ite_upd
    | with_reducible apply ctxMove_upd
    | with_reducible apply each_upd
    | with_reducible apply discardAsm_upd
    | split

theorem ctxAbortAt_upd {d : Nat} {by_ : Nat} {cause : Nat} (hE : gr.ecc = true) (hU : Upd gr s₀ s) : Upd gr s₀ (ctxAbortAt s d by_ cause) := by
  unfold ctxAbortAt
  try dsimp only
  repeat' first
    | intro _
    | with_reducible assumption
    | with_reducible apply ite_upd
    | with_reducible apply setCtx_upd
    | with_reducible apply ctxAbortNow_upd
    | split
    | with_reducible apply Upd.lit

theorem ctxPolicyPause_upd {d : Nat} {k : Nat} {cause : Nat} (hE : gr.ecc = true) (hU : Upd gr s₀ s) : Upd gr s₀ (ctxPolicyPause s d k cause) := by
  unfold ctxPolicyPause
  try dsimp only
  repeat' first
    | intro _
    | with_reducible assumption
    | with_reducible apply ite_upd
    | with_reducible apply ctxMove_upd
    | with_reducible apply ctxAbortAt_upd
    | split
    | with_reducible apply Upd.lit

end Sys2Proof.Laws
end

