-- ==== Sys2Proof/Laws/TimeUpd.lean ====
section
/-!
SUPPORT. What each operation of `Machine/Time.lean` keeps, and the groups of state it may change (`Upd`).
-/

set_option Elab.async false
set_option linter.unusedTactic false
set_option linter.unreachableTactic false
namespace Sys2Proof.Laws

open Sys2Proof.Machine

variable {gr : Grp} {s₀ s : State}

theorem dieTicks_upd {c : Nat} {n : Nat} {d : Nat} (hU : Upd gr s₀ s) : Upd gr s₀ (dieTicks s c n d) := by
  unfold dieTicks
  try dsimp only
  repeat' first
    | intro _
    | with_reducible assumption
    | with_reducible apply ite_upd
    | with_reducible apply setDie_upd
    | with_reducible apply whenDo_upd
    | with_reducible apply raise_upd
    | exact ⟨rfl, fun h => h, fun h => h⟩
    | exact ⟨rfl, by simp, by simp⟩
    | split
    | with_reducible apply Upd.lit

theorem ticksPass_upd {n : Nat} (hU : Upd gr s₀ s) : Upd gr s₀ (ticksPass s n) :=
  each_upd hU.later fun _ _ h => dieTicks_upd h

theorem waitClock_upd {c : Nat} (hU : Upd gr s₀ s) : Upd gr s₀ (waitClock s c) := by
  unfold waitClock
  try dsimp only
  repeat' first
    | intro _
    | with_reducible assumption
    | with_reducible apply ite_upd
    | with_reducible apply ticksPass_upd
    | split

theorem waitTick_upd {d : Nat} {t : Int} (hU : Upd gr s₀ s) : Upd gr s₀ (waitTick s d t) := by
  unfold waitTick
  try dsimp only
  repeat' first
    | intro _
    | with_reducible assumption
    | with_reducible apply ite_upd
    | with_reducible apply ticksPass_upd
    | split

theorem takeShadows_upd {p : Pg} (hU : Upd gr s₀ s) : Upd gr s₀ (takeShadows s p) := by
  unfold takeShadows
  try dsimp only
  repeat' first
    | intro _
    | with_reducible assumption
    | with_reducible apply ite_upd
    | with_reducible apply each_upd
    | with_reducible apply wr_upd
    | with_reducible apply raise_upd
    | split

theorem stepDrop_upd (hU : Upd gr s₀ s) : Upd gr s₀ (stepDrop s) := by
  unfold stepDrop
  try dsimp only
  repeat' first
    | intro _
    | with_reducible assumption
    | with_reducible apply ite_upd
    | with_reducible apply wb_upd
    | split
    | with_reducible apply Upd.lit

theorem sendMsg_upd {d : Nat} {c : Nat} {k : MsgKind} (hU : Upd gr s₀ s) : Upd gr s₀ (sendMsg s d c k) := by
  unfold sendMsg
  try dsimp only
  repeat' first
    | intro _
    | with_reducible assumption
    | with_reducible apply ite_upd
    | split
    | with_reducible apply Upd.lit

/-- The state in which a message has arrived. -/
theorem takeMsg_e {d : Nat} {f : Msg → Bool} (hU : Upd gr s₀ s) {m : Msg} {tU : State}
    (e : takeMsg s d f = some (m, tU)) : Upd gr s₀ tU := by
  unfold takeMsg at e
  split at e
  · cases e
  · cases e
    apply waitClock_upd
    with_reducible apply Upd.lit
    exact hU

end Sys2Proof.Laws
end

