-- ==== Sys2Proof/Laws/EncCoreUpd.lean ====
section
/-!
SUPPORT. What each operation of `Machine/EncCore.lean` keeps, and the groups of state it may change (`Upd`).
-/

set_option Elab.async false
set_option linter.unusedTactic false
set_option linter.unreachableTactic false
namespace Sys2Proof.Laws

open Sys2Proof.Machine

variable {gr : Grp} {s₀ s : State}

theorem winSync_upd {d : Nat} {c : Nat} (hU : Upd gr s₀ s) : Upd gr s₀ (winSync s d c) := by
  unfold winSync
  try dsimp only
  repeat' first
    | intro _
    | with_reducible assumption
    | with_reducible apply ite_upd
    | with_reducible apply setEnc_upd
    | split
    | with_reducible apply Upd.lit

theorem winShift_upd {d : Nat} {c : Nat} {amount : Int} (hU : Upd gr s₀ s) : Upd gr s₀ (winShift s d c amount) := by
  unfold winShift
  try dsimp only
  repeat' first
    | intro _
    | with_reducible assumption
    | with_reducible apply ite_upd
    | with_reducible apply setEnc_upd
    | split
    | with_reducible apply Upd.lit

theorem encSync_upd {d : Nat} {c : Nat} (hU : Upd gr s₀ s) : Upd gr s₀ (encSync s d c) := by
  unfold encSync
  try dsimp only
  repeat' first
    | intro _
    | with_reducible assumption
    | with_reducible apply ite_upd
    | with_reducible apply winSync_upd
    | with_reducible apply wr48_upd
    | split

theorem padB_upd {s0 : State} {d : Nat} {c : Nat} (hU : Upd gr s₀ s) (hU_s0 : Upd gr s₀ s0) : Upd gr s₀ (padB s0 s d c) := by
  unfold padB
  try dsimp only
  repeat' first
    | intro _
    | with_reducible assumption
    | with_reducible apply ite_upd
    | with_reducible apply emit_upd
    | split

theorem serDrop_upd {d : Nat} {c : Nat} (hU : Upd gr s₀ s) : Upd gr s₀ (serDrop s d c) := by
  unfold serDrop
  try dsimp only
  repeat' first
    | intro _
    | with_reducible assumption
    | with_reducible apply ite_upd
    | with_reducible apply padB_upd
    | with_reducible apply setEnc_upd
    | split
    | with_reducible apply Upd.lit

theorem encSend_upd {d : Nat} {c : Nat} {k : MsgKind} (hU : Upd gr s₀ s) : Upd gr s₀ (encSend s d c k) := by
  unfold encSend
  try dsimp only
  repeat' first
    | intro _
    | with_reducible assumption
    | with_reducible apply ite_upd
    | with_reducible apply sendMsg_upd
    | split
    | with_reducible apply Upd.lit

theorem encInvalid_upd {d : Nat} {c : Nat} (hU : Upd gr s₀ s) : Upd gr s₀ (encInvalid s d c) := by
  unfold encInvalid
  try dsimp only
  repeat' first
    | intro _
    | with_reducible assumption
    | with_reducible apply ite_upd
    | with_reducible apply setDyn_upd
    | with_reducible apply wb_upd
    | split

theorem pdUnlock_upd {d : Nat} {c : Nat} {f : Nat → Bool} (hU : Upd gr s₀ s) : Upd gr s₀ (pdUnlock s d c f) := by
  unfold pdUnlock
  try dsimp only
  repeat' first
    | intro _
    | with_reducible assumption
    | with_reducible apply ite_upd
    | with_reducible apply each_upd
    | with_reducible apply setPdIn_upd
    | split
    | with_reducible apply Upd.lit

theorem pdMoved_upd {d : Nat} {c : Nat} (hU : Upd gr s₀ s) : Upd gr s₀ (pdMoved s d c) := by
  unfold pdMoved
  try dsimp only
  repeat' first
    | intro _
    | with_reducible assumption
    | with_reducible apply ite_upd
    | with_reducible apply pdUnlock_upd
    | split

theorem encLost_upd {d : Nat} {c : Nat} (hU : Upd gr s₀ s) : Upd gr s₀ (encLost s d c) := by
  unfold encLost
  try dsimp only
  repeat' first
    | intro _
    | with_reducible assumption
    | with_reducible apply ite_upd
    | with_reducible apply raise_upd
    | with_reducible apply encSend_upd
    | split

theorem axisLost_upd {d : Nat} {a : Nat} (hU : Upd gr s₀ s) : Upd gr s₀ (axisLost s d a) := by
  unfold axisLost
  try dsimp only
  repeat' first
    | intro _
    | with_reducible assumption
    | with_reducible apply ite_upd
    | with_reducible apply each_upd
    | with_reducible apply encLost_upd
    | split

end Sys2Proof.Laws
end

