-- ==== Sys2Proof/Laws/AssayUpd.lean ====
section
/-!
SUPPORT. What each operation of `Machine/Assay.lean` keeps, and the groups of state it may change (`Upd`).
-/

set_option Elab.async false
set_option linter.unusedTactic false
set_option linter.unreachableTactic false
namespace Sys2Proof.Laws

open Sys2Proof.Machine

variable {gr : Grp} {s₀ s : State}

theorem setAsChan_upd {d : Nat} {c : Nat} {x : AsChan} (hU : Upd gr s₀ s) : Upd gr s₀ (setAsChan s d c x) := by
  unfold setAsChan
  try dsimp only
  repeat' first
    | intro _
    | with_reducible assumption
    | with_reducible apply ite_upd
    | with_reducible apply setAssay_upd
    | split
    | with_reducible apply Upd.lit

theorem asQueue_upd {d : Nat} {c : Nat} {kind : Nat} (hU : Upd gr s₀ s) : Upd gr s₀ (asQueue s d c kind) := by
  unfold asQueue
  try dsimp only
  repeat' first
    | intro _
    | with_reducible assumption
    | with_reducible apply ite_upd
    | with_reducible apply setAsChan_upd
    | split
    | with_reducible apply Upd.lit

theorem asTempTrigger_upd {d : Nat} {c : Nat} (hU : Upd gr s₀ s) : Upd gr s₀ (asTempTrigger s d c) := by
  unfold asTempTrigger
  try dsimp only
  repeat' first
    | intro _
    | with_reducible assumption
    | with_reducible apply ite_upd
    | with_reducible apply asQueue_upd
    | split

theorem asHourly_upd {d : Nat} (hU : Upd gr s₀ s) : Upd gr s₀ (asHourly s d) := by
  unfold asHourly
  try dsimp only
  repeat' first
    | intro _
    | with_reducible assumption
    | with_reducible apply ite_upd
    | with_reducible apply each_upd
    | with_reducible apply asQueue_upd
    | split

theorem setAsActive_upd {d : Nat} {cls : Nat} {c : Option Nat} (hU : Upd gr s₀ s) : Upd gr s₀ (setAsActive s d cls c) := by
  unfold setAsActive
  try dsimp only
  repeat' first
    | intro _
    | with_reducible assumption
    | with_reducible apply ite_upd
    | with_reducible apply setAssay_upd
    | split
    | with_reducible apply Upd.lit

theorem asRotate_upd {d : Nat} {cls : Nat} (hU : Upd gr s₀ s) : Upd gr s₀ (asRotate s d cls) := by
  unfold asRotate
  try dsimp only
  repeat' first
    | intro _
    | with_reducible assumption
    | with_reducible apply ite_upd
    | with_reducible apply asQueue_upd
    | with_reducible apply setAssay_upd
    | split
    | with_reducible apply Upd.lit

theorem asModeChange_upd {d : Nat} (hU : Upd gr s₀ s) : Upd gr s₀ (asModeChange s d) := by
  unfold asModeChange
  try dsimp only
  repeat' first
    | intro _
    | with_reducible assumption
    | with_reducible apply ite_upd
    | with_reducible apply each_upd
    | with_reducible apply setAsChan_upd
    | split
    | with_reducible apply Upd.lit

theorem asApply_upd {d : Nat} {c : Nat} (hU : Upd gr s₀ s) : Upd gr s₀ (asApply s d c) := by
  unfold asApply
  try dsimp only
  repeat' first
    | intro _
    | with_reducible assumption
    | with_reducible apply ite_upd
    | with_reducible apply setAsChan_upd
    | split
    | with_reducible apply Upd.lit

theorem asCodes_upd {d : Nat} {c : Nat} (hU : Upd gr s₀ s) : Upd gr s₀ (asCodes s d c) := by
  unfold asCodes
  try dsimp only
  repeat' first
    | intro _
    | with_reducible assumption
    | with_reducible apply ite_upd
    | with_reducible apply setAsChan_upd
    | with_reducible apply asApply_upd
    | split
    | with_reducible apply Upd.lit

theorem asTempUpdate_upd {d : Nat} (hU : Upd gr s₀ s) : Upd gr s₀ (asTempUpdate s d) := by
  unfold asTempUpdate
  try dsimp only
  repeat' first
    | intro _
    | with_reducible assumption
    | with_reducible apply ite_upd
    | with_reducible apply each_upd
    | with_reducible apply asCodes_upd
    | with_reducible apply asTempTrigger_upd
    | split

theorem asEnd_upd {d : Nat} {c : Nat} {res : Nat} (hU : Upd gr s₀ s) : Upd gr s₀ (asEnd s d c res) := by
  unfold asEnd
  try dsimp only
  repeat' first
    | intro _
    | with_reducible assumption
    | with_reducible apply ite_upd
    | with_reducible apply setAsActive_upd
    | with_reducible apply setAsChan_upd
    | with_reducible apply asRotate_upd
    | with_reducible apply raise_upd
    | split
    | with_reducible apply Upd.lit

theorem asForget_upd {d : Nat} {c : Nat} (hU : Upd gr s₀ s) : Upd gr s₀ (asForget s d c) := by
  unfold asForget
  try dsimp only
  repeat' first
    | intro _
    | with_reducible assumption
    | with_reducible apply ite_upd
    | with_reducible apply setAsActive_upd
    | with_reducible apply setAsChan_upd
    | split
    | with_reducible apply Upd.lit

theorem spareBack_upd {d : Nat} {c : Nat} (hU : Upd gr s₀ s) : Upd gr s₀ (spareBack s d c) := by
  unfold spareBack
  try dsimp only
  repeat' first
    | intro _
    | with_reducible assumption
    | with_reducible apply ite_upd
    | with_reducible apply setAssay_upd
    | split
    | with_reducible apply Upd.lit

theorem waitSpare_upd {d : Nat} {cls : Nat} (hU : Upd gr s₀ s) : Upd gr s₀ (waitSpare s d cls) := by
  unfold waitSpare
  try dsimp only
  repeat' first
    | intro _
    | with_reducible assumption
    | with_reducible apply ite_upd
    | with_reducible apply waitTick_upd
    | split

theorem asTake_upd {d : Nat} {c : Nat} (hU : Upd gr s₀ s) : Upd gr s₀ (asTake s d c) := by
  unfold asTake
  try dsimp only
  repeat' first
    | intro _
    | with_reducible assumption
    | with_reducible apply ite_upd
    | with_reducible apply setAsChan_upd
    | split
    | with_reducible apply Upd.lit

theorem asHandBack_upd {d : Nat} {c : Nat} (hU : Upd gr s₀ s) : Upd gr s₀ (asHandBack s d c) := by
  unfold asHandBack
  try dsimp only
  repeat' first
    | intro _
    | with_reducible assumption
    | with_reducible apply ite_upd
    | with_reducible apply asEnd_upd
    | with_reducible apply spareBack_upd
    | with_reducible apply asForget_upd
    | with_reducible apply asApply_upd
    | split

theorem asBoundary_upd {d : Nat} {p : Nat} (hU : Upd gr s₀ s) : Upd gr s₀ (asBoundary s d p) := by
  unfold asBoundary
  try dsimp only
  repeat' first
    | intro _
    | with_reducible assumption
    | with_reducible apply ite_upd
    | with_reducible apply each_upd
    | with_reducible apply asApply_upd
    | with_reducible apply asHandBack_upd
    | with_reducible apply asTake_upd
    | split

theorem asAbandon_upd {d : Nat} {c : Nat} (hU : Upd gr s₀ s) : Upd gr s₀ (asAbandon s d c) := by
  unfold asAbandon
  try dsimp only
  repeat' first
    | intro _
    | with_reducible assumption
    | with_reducible apply ite_upd
    | with_reducible apply asForget_upd
    | with_reducible apply setAsChan_upd
    | with_reducible apply asHandBack_upd
    | split
    | with_reducible apply Upd.lit

theorem asPortFenced_upd {d : Nat} {p : Nat} (hU : Upd gr s₀ s) : Upd gr s₀ (asPortFenced s d p) := by
  unfold asPortFenced
  try dsimp only
  repeat' first
    | intro _
    | with_reducible assumption
    | with_reducible apply ite_upd
    | with_reducible apply each_upd
    | with_reducible apply asEnd_upd
    | with_reducible apply spareBack_upd
    | split

theorem asSafe_upd {d : Nat} (hU : Upd gr s₀ s) : Upd gr s₀ (asSafe s d) := by
  unfold asSafe
  try dsimp only
  repeat' first
    | intro _
    | with_reducible assumption
    | with_reducible apply ite_upd
    | with_reducible apply each_upd
    | with_reducible apply asAbandon_upd
    | split

theorem asStop_upd {d : Nat} (hU : Upd gr s₀ s) : Upd gr s₀ (asStop s d) := by
  unfold asStop
  try dsimp only
  repeat' first
    | intro _
    | with_reducible assumption
    | with_reducible apply ite_upd
    | with_reducible apply each_upd
    | with_reducible apply setAsChan_upd
    | split
    | with_reducible apply Upd.lit

theorem execAssayRunStart_ans {d : Nat} {cls : Nat} (hU : Upd gr s₀ s) : Ans gr s₀ (execAssayRunStart d cls s) := by
  unfold execAssayRunStart
  try dsimp only
  repeat' first
    | intro _
    | with_reducible assumption
    | with_reducible apply ok_ans
    | with_reducible apply ite_ans
    | with_reducible apply ite_upd
    | with_reducible exact ok_ans (by assumption)
    | with_reducible apply asRotate_upd
    | with_reducible apply setAssay_upd
    | with_reducible apply setAsActive_upd
    | with_reducible apply setAsChan_upd
    | split
    | with_reducible apply Upd.lit

theorem execAssayTakeover_ans {d : Nat} {cls : Nat} (hU : Upd gr s₀ s) : Ans gr s₀ (execAssayTakeover d cls s) := by
  unfold execAssayTakeover
  try dsimp only
  repeat' first
    | intro _
    | with_reducible assumption
    | with_reducible apply ok_ans
    | with_reducible apply ite_ans
    | with_reducible apply ite_upd
    | with_reducible exact ok_ans (by assumption)
    | with_reducible apply asTake_upd
    | with_reducible apply waitSpare_upd
    | with_reducible apply waitClock_upd
    | split
    | with_reducible apply Upd.lit

theorem execAssayMeasureStart_ans {d : Nat} {cls : Nat} (hU : Upd gr s₀ s) : Ans gr s₀ (execAssayMeasureStart d cls s) := by
  unfold execAssayMeasureStart
  try dsimp only
  repeat' first
    | intro _
    | with_reducible assumption
    | with_reducible apply ok_ans
    | with_reducible apply ite_ans
    | with_reducible apply ite_upd
    | with_reducible exact ok_ans (by assumption)
    | with_reducible apply waitSpare_upd
    | with_reducible apply waitTick_upd
    | with_reducible apply waitClock_upd
    | with_reducible apply setAsChan_upd
    | split
    | with_reducible apply Upd.lit

theorem execAssayMeasureEnd_ans {d : Nat} {cls : Nat} {p : List Int} (hU : Upd gr s₀ s) : Ans gr s₀ (execAssayMeasureEnd d cls p s) := by
  unfold execAssayMeasureEnd
  try dsimp only
  repeat' first
    | intro _
    | with_reducible assumption
    | with_reducible apply ok_ans
    | with_reducible apply ite_ans
    | with_reducible apply ite_upd
    | with_reducible exact ok_ans (by assumption)
    | with_reducible apply waitClock_upd
    | with_reducible apply setAsChan_upd
    | split
    | with_reducible apply Upd.lit

theorem execRunDone_ans {d : Nat} {cls : Nat} (hU : Upd gr s₀ s) : Ans gr s₀ (execRunDone d cls s) := by
  unfold execRunDone
  try dsimp only
  repeat' first
    | intro _
    | with_reducible assumption
    | with_reducible apply ok_ans
    | with_reducible apply ite_ans
    | with_reducible apply ite_upd
    | with_reducible exact ok_ans (by assumption)
    | with_reducible apply asHandBack_upd
    | split
    | with_reducible apply Upd.lit

theorem setSave_upd {d : Nat} {st : Nat} (hU : Upd gr s₀ s) : Upd gr s₀ (setSave s d st) := by
  unfold setSave
  try dsimp only
  repeat' first
    | intro _
    | with_reducible assumption
    | with_reducible apply ite_upd
    | with_reducible apply wf_upd
    | split

theorem asResult_upd {d : Nat} {op : Nat} {ch : Nat} {res : Nat} (hU : Upd gr s₀ s) : Upd gr s₀ (asResult s d op ch res) := by
  unfold asResult
  try dsimp only
  repeat' first
    | intro _
    | with_reducible assumption
    | with_reducible apply ite_upd
    | with_reducible apply wr_upd
    | split

theorem asRequest_upd {d : Nat} {ch : Nat} (hU : Upd gr s₀ s) : Upd gr s₀ (asRequest s d ch) := by
  unfold asRequest
  try dsimp only
  repeat' first
    | intro _
    | with_reducible assumption
    | with_reducible apply ite_upd
    | with_reducible apply asResult_upd
    | with_reducible apply each_upd
    | with_reducible apply asQueue_upd
    | split

theorem asSave_upd {d : Nat} {ch : Nat} (hU : Upd gr s₀ s) : Upd gr s₀ (asSave s d ch) := by
  unfold asSave
  try dsimp only
  repeat' first
    | intro _
    | with_reducible assumption
    | with_reducible apply ite_upd
    | with_reducible apply asResult_upd
    | with_reducible apply setSave_upd
    | split

theorem asRestore_upd {d : Nat} {ch : Nat} (hU : Upd gr s₀ s) : Upd gr s₀ (asRestore s d ch) := by
  unfold asRestore
  try dsimp only
  repeat' first
    | intro _
    | with_reducible assumption
    | with_reducible apply ite_upd
    | with_reducible apply asResult_upd
    | with_reducible apply setSave_upd
    | split

theorem asCancel1_upd {d : Nat} {c : Nat} (hU : Upd gr s₀ s) : Upd gr s₀ (asCancel1 s d c) := by
  unfold asCancel1
  try dsimp only
  repeat' first
    | intro _
    | with_reducible assumption
    | with_reducible apply ite_upd
    | with_reducible apply setAsChan_upd
    | with_reducible apply asForget_upd
    | split
    | with_reducible apply Upd.lit

theorem asCancel_upd {d : Nat} {ch : Nat} (hU : Upd gr s₀ s) : Upd gr s₀ (asCancel s d ch) := by
  unfold asCancel
  try dsimp only
  repeat' first
    | intro _
    | with_reducible assumption
    | with_reducible apply ite_upd
    | with_reducible apply asResult_upd
    | with_reducible apply each_upd
    | with_reducible apply asCancel1_upd
    | split

theorem asCmd_upd {d : Nat} {op : Nat} {ch : Nat} (hU : Upd gr s₀ s) : Upd gr s₀ (asCmd d op ch s) := by
  unfold asCmd
  try dsimp only
  repeat' first
    | intro _
    | with_reducible assumption
    | with_reducible apply ite_upd
    | with_reducible apply asRequest_upd
    | with_reducible apply asSave_upd
    | with_reducible apply asRestore_upd
    | with_reducible apply asCancel_upd
    | with_reducible apply asResult_upd
    | split
    | with_reducible apply Upd.lit

theorem execAsRequest_ans {r : Req} {d : Nat} {ch : Nat} (hU : Upd gr s₀ s) : Ans gr s₀ (execAsRequest r d ch s) := by
  unfold execAsRequest
  try dsimp only
  repeat' first
    | intro _
    | with_reducible assumption
    | with_reducible apply ok_ans
    | with_reducible apply ite_ans
    | with_reducible apply ite_upd
    | with_reducible exact ok_ans (by assumption)
    | with_reducible apply guardedWrite_upd
    | with_reducible apply asCmd_upd
    | split

theorem execAsSave_ans {r : Req} {d : Nat} (hU : Upd gr s₀ s) : Ans gr s₀ (execAsSave r d s) := by
  unfold execAsSave
  try dsimp only
  repeat' first
    | intro _
    | with_reducible assumption
    | with_reducible apply ok_ans
    | with_reducible apply ite_ans
    | with_reducible apply ite_upd
    | with_reducible exact ok_ans (by assumption)
    | with_reducible apply guardedWrite_upd
    | with_reducible apply asCmd_upd
    | split

theorem execAsRestore_ans {r : Req} {d : Nat} (hU : Upd gr s₀ s) : Ans gr s₀ (execAsRestore r d s) := by
  unfold execAsRestore
  try dsimp only
  repeat' first
    | intro _
    | with_reducible assumption
    | with_reducible apply ok_ans
    | with_reducible apply ite_ans
    | with_reducible apply ite_upd
    | with_reducible exact ok_ans (by assumption)
    | with_reducible apply guardedWrite_upd
    | with_reducible apply asCmd_upd
    | split

theorem execAsCancel_ans {r : Req} {d : Nat} {ch : Nat} (hU : Upd gr s₀ s) : Ans gr s₀ (execAsCancel r d ch s) := by
  unfold execAsCancel
  try dsimp only
  repeat' first
    | intro _
    | with_reducible assumption
    | with_reducible apply ok_ans
    | with_reducible apply ite_ans
    | with_reducible apply ite_upd
    | with_reducible exact ok_ans (by assumption)
    | with_reducible apply guardedWrite_upd
    | with_reducible apply asCmd_upd
    | split

theorem asSaved_upd {d : Nat} (hE : gr.ecc = true) (hR : gr.ret = true) (hU : Upd gr s₀ s) : Upd gr s₀ (asSaved s d) := by
  unfold asSaved
  try dsimp only
  repeat' first
    | intro _
    | with_reducible assumption
    | with_reducible apply ite_upd
    | with_reducible apply retWrites_upd
    | with_reducible apply wf_upd
    | with_reducible apply setSave_upd
    | with_reducible apply raise_upd
    | with_reducible apply count_upd
    | split

theorem execSaved_ans {d : Nat} (hE : gr.ecc = true) (hR : gr.ret = true) (hU : Upd gr s₀ s) : Ans gr s₀ (execSaved d s) := by
  unfold execSaved
  try dsimp only
  repeat' first
    | intro _
    | with_reducible assumption
    | with_reducible apply ok_ans
    | with_reducible apply ite_ans
    | with_reducible apply ite_upd
    | with_reducible exact ok_ans (by assumption)
    | with_reducible apply asSaved_upd
    | split

theorem loadPoints_upd {d : Nat} (hU : Upd gr s₀ s) : Upd gr s₀ (loadPoints s d) := by
  unfold loadPoints
  try dsimp only
  repeat' first
    | intro _
    | with_reducible assumption
    | with_reducible apply ite_upd
    | with_reducible apply each_upd
    | with_reducible apply setAsChan_upd
    | split
    | with_reducible apply Upd.lit

theorem execRestored_ans {d : Nat} (hU : Upd gr s₀ s) : Ans gr s₀ (execRestored d s) := by
  unfold execRestored
  try dsimp only
  repeat' first
    | intro _
    | with_reducible assumption
    | with_reducible apply ok_ans
    | with_reducible apply ite_ans
    | with_reducible apply ite_upd
    | with_reducible exact ok_ans (by assumption)
    | with_reducible apply raise_upd
    | with_reducible apply wf_upd
    | with_reducible apply setSave_upd
    | with_reducible apply loadPoints_upd
    | split

theorem tabRead_upd {d : Nat} (hU : Upd gr s₀ s) : Upd gr s₀ (tabRead d s) := by
  unfold tabRead
  try dsimp only
  repeat' first
    | intro _
    | with_reducible assumption
    | with_reducible apply ite_upd
    | with_reducible apply each_upd
    | with_reducible apply wr_upd
    | split

theorem tabWrite_upd {r : Req} {d : Nat} (hU : Upd gr s₀ s) : Upd gr s₀ (tabWrite r d s) := by
  unfold tabWrite
  try dsimp only
  repeat' first
    | intro _
    | with_reducible assumption
    | with_reducible apply ite_upd
    | with_reducible apply logErr_upd
    | with_reducible apply setAsChan_upd
    | split
    | with_reducible apply Upd.lit

theorem tabClear_upd {r : Req} {d : Nat} (hU : Upd gr s₀ s) : Upd gr s₀ (tabClear r d s) := by
  unfold tabClear
  try dsimp only
  repeat' first
    | intro _
    | with_reducible assumption
    | with_reducible apply ite_upd
    | with_reducible apply logErr_upd
    | with_reducible apply setAsChan_upd
    | split
    | with_reducible apply Upd.lit

theorem execTabRead_ans {r : Req} {d : Nat} (hU : Upd gr s₀ s) : Ans gr s₀ (execTabRead r d s) := by
  unfold execTabRead
  try dsimp only
  repeat' first
    | intro _
    | with_reducible assumption
    | with_reducible apply ok_ans
    | with_reducible apply ite_ans
    | with_reducible apply ite_upd
    | with_reducible exact ok_ans (by assumption)
    | with_reducible apply guardedWrite_upd
    | with_reducible apply tabRead_upd
    | split

theorem execTabWrite_ans {r : Req} {d : Nat} (hU : Upd gr s₀ s) : Ans gr s₀ (execTabWrite r d s) := by
  unfold execTabWrite
  try dsimp only
  repeat' first
    | intro _
    | with_reducible assumption
    | with_reducible apply ok_ans
    | with_reducible apply ite_ans
    | with_reducible apply ite_upd
    | with_reducible exact ok_ans (by assumption)
    | with_reducible apply guardedWrite_upd
    | with_reducible apply tabWrite_upd
    | split

theorem execTabClear_ans {r : Req} {d : Nat} (hU : Upd gr s₀ s) : Ans gr s₀ (execTabClear r d s) := by
  unfold execTabClear
  try dsimp only
  repeat' first
    | intro _
    | with_reducible assumption
    | with_reducible apply ok_ans
    | with_reducible apply ite_ans
    | with_reducible apply ite_upd
    | with_reducible exact ok_ans (by assumption)
    | with_reducible apply guardedWrite_upd
    | with_reducible apply tabClear_upd
    | split

end Sys2Proof.Laws
end

