-- ==== Sys2Proof/Laws/MemCtlInv.lean ====
section
/-!
SUPPORT. The fields of the state that each operation of `Machine/MemCtl.lean` may change: whatever reads none of them is the same after it.
-/

set_option Elab.async false
set_option linter.unusedTactic false
set_option linter.unreachableTactic false
namespace Sys2Proof.Laws

open Sys2Proof.Machine

variable {α₀ : Type} {φ : State → α₀} {c₀ : α₀} {s : State}

theorem mtStat_inv {d : Nat} (i_regs : Skips.regs φ) (hU : At φ c₀ s) : At φ c₀ (mtStat s d) := by
  unfold mtStat
  try dsimp only
  repeat' first
    | with_reducible assumption
    | intro _
    | with_reducible apply ite_inv
    | with_reducible apply wr_inv
    | split

theorem mtStart_inv {d : Nat} (i_regs : Skips.regs φ) (i_mems : Skips.mems φ) (hU : At φ c₀ s) : At φ c₀ (mtStart s d) := by
  unfold mtStart
  try dsimp only
  repeat' first
    | with_reducible assumption
    | intro _
    | with_reducible apply ite_inv
    | with_reducible apply mtStat_inv
    | with_reducible apply setMemSt_inv
    | split

theorem execMemtestRegionStart_ansAt {d : Nat} (i_clock : Skips.clock φ) (i_regs : Skips.regs φ) (i_mems : Skips.mems φ) (i_dies : Skips.dies φ) (i_pcie : Skips.pcie φ) (i_out : Skips.out φ) (hU : At φ c₀ s) : AnsAt φ c₀ (execMemtestRegionStart d s) := by
  unfold execMemtestRegionStart
  try dsimp only
  repeat' first
    | with_reducible assumption
    | intro _
    | with_reducible apply ok_ansAt
    | with_reducible apply ite_ansAt
    | with_reducible apply ite_inv
    | with_reducible exact ok_ansAt (by assumption)
    | with_reducible apply mtStart_inv
    | with_reducible apply waitClock_inv
    | split

theorem mtCopy_inv {d : Nat} (i_regs : Skips.regs φ) (i_ecc : Skips.ecc φ) (i_chutes : Skips.chutes φ) (i_mems : Skips.mems φ) (i_trigs : Skips.trigs φ) (i_dies : Skips.dies φ) (i_pcie : Skips.pcie φ) (i_out : Skips.out φ) (hU : At φ c₀ s) : At φ c₀ (mtCopy s d) := by
  unfold mtCopy
  try dsimp only
  repeat' first
    | with_reducible assumption
    | intro _
    | with_reducible apply ite_inv
    | with_reducible apply each_inv
    | with_reducible apply readWord_inv
    | (with_reducible refine trip_inv (by assumption) ?_)
    | split

theorem mtRepairRow_inv {d : Nat} {row : Nat} (i_regs : Skips.regs φ) (i_mems : Skips.mems φ) (i_pcie : Skips.pcie φ) (i_out : Skips.out φ) (hU : At φ c₀ s) : At φ c₀ (mtRepairRow s d row) := by
  unfold mtRepairRow
  try dsimp only
  repeat' first
    | with_reducible assumption
    | intro _
    | with_reducible apply ite_inv
    | with_reducible apply raise_inv
    | with_reducible apply count_inv
    | with_reducible apply wf_inv
    | with_reducible apply setMemSt_inv
    | split

theorem mtEnd_inv {d : Nat} (i_regs : Skips.regs φ) (i_mems : Skips.mems φ) (i_pcie : Skips.pcie φ) (i_out : Skips.out φ) (hU : At φ c₀ s) : At φ c₀ (mtEnd s d) := by
  unfold mtEnd
  try dsimp only
  repeat' first
    | with_reducible assumption
    | intro _
    | with_reducible apply ite_inv
    | with_reducible apply mtStat_inv
    | with_reducible apply setMemSt_inv
    | with_reducible apply raise_inv
    | with_reducible apply count_inv
    | split

theorem execMemtestPhaseDone_ansAt {d : Nat} {rows : List Nat} (i_regs : Skips.regs φ) (i_ecc : Skips.ecc φ) (i_chutes : Skips.chutes φ) (i_mems : Skips.mems φ) (i_trigs : Skips.trigs φ) (i_dies : Skips.dies φ) (i_pcie : Skips.pcie φ) (i_out : Skips.out φ) (hU : At φ c₀ s) : AnsAt φ c₀ (execMemtestPhaseDone d rows s) := by
  unfold execMemtestPhaseDone
  try dsimp only
  repeat' first
    | with_reducible assumption
    | intro _
    | with_reducible apply ok_ansAt
    | with_reducible apply ite_ansAt
    | with_reducible apply ite_inv
    | with_reducible exact ok_ansAt (by assumption)
    | with_reducible apply mtStat_inv
    | with_reducible apply setMemSt_inv
    | with_reducible apply mtCopy_inv
    | with_reducible apply each_inv
    | with_reducible apply mtRepairRow_inv
    | with_reducible apply mtEnd_inv
    | split

theorem execRepairMapSave_ansAt {d : Nat} (i_free : Skips.free φ) (i_regs : Skips.regs φ) (i_ret : Skips.ret φ) (i_retEcc : Skips.retEcc φ) (i_mems : Skips.mems φ) (hU : At φ c₀ s) : AnsAt φ c₀ (execRepairMapSave d s) := by
  unfold execRepairMapSave
  try dsimp only
  repeat' first
    | with_reducible assumption
    | intro _
    | with_reducible apply ok_ansAt
    | with_reducible apply ite_ansAt
    | with_reducible apply ite_inv
    | with_reducible exact ok_ansAt (by assumption)
    | with_reducible apply setMemSt_inv
    | with_reducible apply nextFree_inv
    | with_reducible apply retWrite_inv
    | split

theorem retStat_inv {d : Nat} (i_regs : Skips.regs φ) (hU : At φ c₀ s) : At φ c₀ (retStat s d) := by
  unfold retStat
  try dsimp only
  repeat' first
    | with_reducible assumption
    | intro _
    | with_reducible apply ite_inv
    | with_reducible apply wb_inv
    | with_reducible apply wf_inv
    | split

theorem retAdvance_inv {d : Nat} (i_regs : Skips.regs φ) (hU : At φ c₀ s) : At φ c₀ (retAdvance s d) := by
  unfold retAdvance
  try dsimp only
  repeat' first
    | with_reducible assumption
    | intro _
    | with_reducible apply ite_inv
    | with_reducible apply wf_inv
    | split

theorem retDataWrite_inv {r : Req} {d : Nat} {v : Word} (i_regs : Skips.regs φ) (i_mems : Skips.mems φ) (i_pcie : Skips.pcie φ) (i_out : Skips.out φ) (hU : At φ c₀ s) : At φ c₀ (retDataWrite r d v s) := by
  unfold retDataWrite
  try dsimp only
  repeat' first
    | with_reducible assumption
    | intro _
    | with_reducible apply ite_inv
    | with_reducible apply raise_inv
    | with_reducible apply logErr_inv
    | with_reducible apply retStat_inv
    | with_reducible apply setMemSt_inv
    | with_reducible apply retAdvance_inv
    | split

theorem execRetDataWrite_ansAt {r : Req} {d : Nat} {v : Word} (i_regs : Skips.regs φ) (i_mems : Skips.mems φ) (i_dies : Skips.dies φ) (i_pcie : Skips.pcie φ) (i_resp : Skips.resp φ) (i_out : Skips.out φ) (hU : At φ c₀ s) : AnsAt φ c₀ (execRetDataWrite r d v s) := by
  unfold execRetDataWrite
  try dsimp only
  repeat' first
    | with_reducible assumption
    | intro _
    | with_reducible apply ok_ansAt
    | with_reducible apply ite_ansAt
    | with_reducible apply ite_inv
    | with_reducible exact ok_ansAt (by assumption)
    | with_reducible apply guardedWrite_inv
    | with_reducible apply retDataWrite_inv
    | split

theorem retDataRead_inv {d : Nat} (i_regs : Skips.regs φ) (i_retEcc : Skips.retEcc φ) (i_pcie : Skips.pcie φ) (i_out : Skips.out φ) (hU : At φ c₀ s) : At φ c₀ (retDataRead d s) := by
  unfold retDataRead
  try dsimp only
  repeat' first
    | with_reducible assumption
    | intro _
    | with_reducible apply ite_inv
    | with_reducible apply wb_inv
    | with_reducible apply raise_inv
    | with_reducible apply count_inv
    | with_reducible apply retAdvance_inv
    | split
    | with_reducible refine At.step (i_retEcc _ _) ?_

theorem execRetDataRead_ansAt {r : Req} {d : Nat} (i_regs : Skips.regs φ) (i_caps : Skips.caps φ) (i_retEcc : Skips.retEcc φ) (i_dies : Skips.dies φ) (i_pcie : Skips.pcie φ) (i_resp : Skips.resp φ) (i_out : Skips.out φ) (hU : At φ c₀ s) : AnsAt φ c₀ (execRetDataRead r d s) := by
  unfold execRetDataRead
  try dsimp only
  repeat' first
    | with_reducible assumption
    | intro _
    | with_reducible apply ok_ansAt
    | with_reducible apply ite_ansAt
    | with_reducible apply ite_inv
    | with_reducible exact ok_ansAt (by assumption)
    | with_reducible apply guardedRead_inv
    | with_reducible apply retDataRead_inv
    | split

theorem execRetWordWritten_ansAt {d : Nat} (i_regs : Skips.regs φ) (i_ret : Skips.ret φ) (i_retEcc : Skips.retEcc φ) (i_mems : Skips.mems φ) (hU : At φ c₀ s) : AnsAt φ c₀ (execRetWordWritten d s) := by
  unfold execRetWordWritten
  try dsimp only
  repeat' first
    | with_reducible assumption
    | intro _
    | with_reducible apply ok_ansAt
    | with_reducible apply ite_ansAt
    | with_reducible apply ite_inv
    | with_reducible exact ok_ansAt (by assumption)
    | with_reducible apply retStat_inv
    | with_reducible apply retWrite_inv
    | with_reducible apply setMemSt_inv
    | split

end Sys2Proof.Laws
end

