-- ==== Sys2Proof/Laws/WaveInv.lean ====
section
/-!
SUPPORT. The fields of the state that each operation of `Machine/Wave.lean` may change: whatever reads none of them is the same after it.
-/

set_option Elab.async false
set_option linter.unusedTactic false
set_option linter.unreachableTactic false
namespace Sys2Proof.Laws

open Sys2Proof.Machine

variable {α₀ : Type} {φ : State → α₀} {c₀ : α₀} {s : State}

theorem streamFollow_inv {d : Nat} {p : Nat} (i_ports : Skips.ports φ) (i_out : Skips.out φ) (hU : At φ c₀ s) : At φ c₀ (streamFollow s d p) := by
  unfold streamFollow
  try dsimp only
  repeat' first
    | with_reducible assumption
    | intro _
    | with_reducible apply ite_inv
    | with_reducible apply setPort_inv
    | with_reducible apply emit_inv
    | split

theorem pwmRoll_inv {d : Nat} {p : Nat} (i_regs : Skips.regs φ) (i_ports : Skips.ports φ) (i_out : Skips.out φ) (hU : At φ c₀ s) : At φ c₀ (pwmRoll s d p) := by
  unfold pwmRoll
  try dsimp only
  repeat' first
    | with_reducible assumption
    | intro _
    | with_reducible apply ite_inv
    | with_reducible apply setPort_inv
    | with_reducible apply wf_inv
    | with_reducible apply emit_inv
    | split

theorem htrFollow_inv {d : Nat} {p : Nat} (i_regs : Skips.regs φ) (i_ports : Skips.ports φ) (i_pcie : Skips.pcie φ) (i_out : Skips.out φ) (hU : At φ c₀ s) : At φ c₀ (htrFollow s d p) := by
  unfold htrFollow
  try dsimp only
  repeat' first
    | with_reducible assumption
    | intro _
    | with_reducible apply ite_inv
    | with_reducible apply setDyn_inv
    | with_reducible apply pwmRoll_inv
    | with_reducible apply wf_inv
    | with_reducible apply setPort_inv
    | with_reducible apply wr_inv
    | with_reducible apply emit_inv
    | split

theorem hpHandOver_inv {d : Nat} {p : Nat} (i_regs : Skips.regs φ) (i_ports : Skips.ports φ) (i_pcie : Skips.pcie φ) (i_out : Skips.out φ) (hU : At φ c₀ s) : At φ c₀ (hpHandOver s d p) := by
  unfold hpHandOver
  try dsimp only
  repeat' first
    | with_reducible assumption
    | intro _
    | with_reducible apply ite_inv
    | with_reducible apply takeShadows_inv
    | with_reducible apply pwmRoll_inv
    | with_reducible apply htrFollow_inv
    | with_reducible apply wf_inv
    | split

theorem loadFail_inv {d : Nat} {p : Nat} {code : Nat} (i_regs : Skips.regs φ) (i_ports : Skips.ports φ) (i_pcie : Skips.pcie φ) (i_out : Skips.out φ) (hU : At φ c₀ s) : At φ c₀ (loadFail s d p code) := by
  unfold loadFail
  try dsimp only
  repeat' first
    | with_reducible assumption
    | intro _
    | with_reducible apply ite_inv
    | with_reducible apply wr_inv
    | with_reducible apply raise_inv
    | with_reducible apply setPort_inv
    | split

theorem loadAbort_inv {d : Nat} {p : Nat} (i_regs : Skips.regs φ) (i_ports : Skips.ports φ) (i_pcie : Skips.pcie φ) (i_out : Skips.out φ) (hU : At φ c₀ s) : At φ c₀ (loadAbort s d p) := by
  unfold loadAbort
  try dsimp only
  repeat' first
    | with_reducible assumption
    | intro _
    | with_reducible apply ite_inv
    | with_reducible apply loadFail_inv
    | split

end Sys2Proof.Laws
end

