-- ==== Sys2Proof/Laws/ImageInv.lean ====
section
/-!
SUPPORT. The fields of the state that each operation of `Machine/Image.lean` may change: whatever reads none of them is the same after it.
-/

set_option Elab.async false
set_option linter.unusedTactic false
set_option linter.unreachableTactic false
namespace Sys2Proof.Laws

open Sys2Proof.Machine

variable {α₀ : Type} {φ : State → α₀} {c₀ : α₀} {s : State}

theorem blockBad_inv {d : Nat} {c : Nat} {reason : Nat} {h : Hdr} (i_regs : Skips.regs φ) (i_chutes : Skips.chutes φ) (i_trigs : Skips.trigs φ) (i_dies : Skips.dies φ) (i_pcie : Skips.pcie φ) (i_out : Skips.out φ) (hU : At φ c₀ s) : At φ c₀ (blockBad s d c reason h) := by
  unfold blockBad
  try dsimp only
  repeat' first
    | with_reducible assumption
    | intro _
    | with_reducible apply ite_inv
    | with_reducible apply wr_inv
    | with_reducible apply count_inv
    | with_reducible apply logRecord_inv
    | with_reducible apply raise_inv
    | split

theorem lodeWrites_inv {d : Nat} {w : Nat} {vs : List Word} (i_mem : Skips.mem φ) (i_ecc : Skips.ecc φ) (hU : At φ c₀ s) : At φ c₀ (lodeWrites s d w vs) := by
  unfold lodeWrites
  try dsimp only
  repeat' first
    | with_reducible assumption
    | intro _
    | with_reducible apply ite_inv
    | with_reducible apply each_inv
    | with_reducible apply wrWord_inv
    | split

theorem storeShare_inv {d : Nat} {k : Nat} {m : Nat} {vals : List Nat} (i_mem : Skips.mem φ) (i_ecc : Skips.ecc φ) (i_ctxs : Skips.ctxs φ) (hU : At φ c₀ s) : At φ c₀ (storeShare s d k m vals) := by
  unfold storeShare
  try dsimp only
  repeat' first
    | with_reducible assumption
    | intro _
    | with_reducible apply ite_inv
    | with_reducible apply lodeWrites_inv
    | with_reducible apply setCtx_inv
    | split

theorem expandLine_inv {d : Nat} {k : Nat} {sw : Nat} {m : Nat} {colBase : Nat} {y : Nat} {ready : Bool} {pix : List Nat} (i_regs : Skips.regs φ) (i_mem : Skips.mem φ) (i_ecc : Skips.ecc φ) (i_ctxs : Skips.ctxs φ) (i_seamQ : Skips.seamQ φ) (hU : At φ c₀ s) : At φ c₀ (expandLine s d k sw m colBase y ready pix) := by
  unfold expandLine
  try dsimp only
  repeat' first
    | with_reducible assumption
    | intro _
    | with_reducible apply ite_inv
    | with_reducible apply lodeWrites_inv
    | with_reducible apply setCtx_inv
    | with_reducible apply count_inv
    | with_reducible apply storeShare_inv
    | split
    | with_reducible refine At.step (i_seamQ _ _) ?_

theorem creditOwner_inv {d : Nat} {k : Nat} (i_seamQ : Skips.seamQ φ) (hU : At φ c₀ s) : At φ c₀ (creditOwner s d k) := by
  unfold creditOwner
  try dsimp only
  repeat' first
    | with_reducible assumption
    | intro _
    | with_reducible apply ite_inv
    | split
    | with_reducible refine At.step (i_seamQ _ _) ?_

theorem freeLines_inv {d : Nat} {k : Nat} {f : ImgLine → Bool} (i_ctxs : Skips.ctxs φ) (i_seamQ : Skips.seamQ φ) (hU : At φ c₀ s) : At φ c₀ (freeLines s d k f) := by
  unfold freeLines
  try dsimp only
  repeat' first
    | with_reducible assumption
    | intro _
    | with_reducible apply ite_inv
    | with_reducible apply setCtx_inv
    | with_reducible apply each_inv
    | with_reducible apply creditOwner_inv
    | split

theorem setBlk_inv {d : Nat} {c : Nat} {b : Option Blk} (i_chutes : Skips.chutes φ) (hU : At φ c₀ s) : At φ c₀ (setBlk s d c b) := by
  unfold setBlk
  try dsimp only
  repeat' first
    | with_reducible assumption
    | intro _
    | with_reducible apply ite_inv
    | with_reducible apply setChute_inv
    | split

theorem asmPoison_inv {d : Nat} {c : Nat} {o : Option Nat} (i_regs : Skips.regs φ) (i_chutes : Skips.chutes φ) (i_ctxs : Skips.ctxs φ) (i_ports : Skips.ports φ) (i_seamQ : Skips.seamQ φ) (i_echos : Skips.echos φ) (i_trigs : Skips.trigs φ) (i_dies : Skips.dies φ) (i_pcie : Skips.pcie φ) (i_out : Skips.out φ) (hU : At φ c₀ s) : At φ c₀ (asmPoison s d c o) := by
  unfold asmPoison
  try dsimp only
  repeat' first
    | with_reducible assumption
    | intro _
    | with_reducible apply ite_inv
    | with_reducible apply logRecord_inv
    | with_reducible apply ctxPoison_inv
    | split

theorem huntOn_inv {x0 : Nat} {x2 : Nat} {x3 : Nat} (i_free : Skips.free φ) (i_regs : Skips.regs φ) (i_ecc : Skips.ecc φ) (i_chutes : Skips.chutes φ) (i_mems : Skips.mems φ) (i_trigs : Skips.trigs φ) (i_dies : Skips.dies φ) (i_pcie : Skips.pcie φ) (i_out : Skips.out φ) (hU : At φ c₀ s) : At φ c₀ (huntOn x0 s x2 x3) := by
  induction x0 generalizing s x2 x3 with
  | zero => exact hU
  | succ n ih =>
    unfold huntOn
    try dsimp only
    repeat' first
      | with_reducible assumption
      | intro _
      | with_reducible apply ih
      | with_reducible apply ite_inv
      | with_reducible apply setChute_inv
      | with_reducible apply count_inv
      | with_reducible apply chuteSkip_inv
      | split

theorem dropBlock_inv {d : Nat} {c : Nat} {n : Nat} (i_free : Skips.free φ) (i_regs : Skips.regs φ) (i_ecc : Skips.ecc φ) (i_chutes : Skips.chutes φ) (i_mems : Skips.mems φ) (i_trigs : Skips.trigs φ) (i_dies : Skips.dies φ) (i_pcie : Skips.pcie φ) (i_out : Skips.out φ) (hU : At φ c₀ s) : At φ c₀ (dropBlock s d c n) := by
  unfold dropBlock
  try dsimp only
  repeat' first
    | with_reducible assumption
    | intro _
    | with_reducible apply ite_inv
    | with_reducible apply chuteSkip_inv
    | with_reducible apply setChute_inv
    | split

theorem blkGiveUp_inv {d : Nat} {c : Nat} {b : Blk} (i_free : Skips.free φ) (i_regs : Skips.regs φ) (i_ecc : Skips.ecc φ) (i_chutes : Skips.chutes φ) (i_ctxs : Skips.ctxs φ) (i_seamQ : Skips.seamQ φ) (i_mems : Skips.mems φ) (i_trigs : Skips.trigs φ) (i_dies : Skips.dies φ) (i_pcie : Skips.pcie φ) (i_out : Skips.out φ) (hU : At φ c₀ s) : At φ c₀ (blkGiveUp s d c b) := by
  unfold blkGiveUp
  try dsimp only
  repeat' first
    | with_reducible assumption
    | intro _
    | with_reducible apply ite_inv
    | with_reducible apply freeLines_inv
    | with_reducible apply setBlk_inv
    | with_reducible apply dropBlock_inv
    | split

theorem blkFail_inv {d : Nat} {c : Nat} {reason : Nat} {b : Blk} (i_free : Skips.free φ) (i_regs : Skips.regs φ) (i_ecc : Skips.ecc φ) (i_chutes : Skips.chutes φ) (i_ctxs : Skips.ctxs φ) (i_seamQ : Skips.seamQ φ) (i_mems : Skips.mems φ) (i_trigs : Skips.trigs φ) (i_dies : Skips.dies φ) (i_pcie : Skips.pcie φ) (i_out : Skips.out φ) (hU : At φ c₀ s) : At φ c₀ (blkFail s d c reason b) := by
  unfold blkFail
  try dsimp only
  repeat' first
    | with_reducible assumption
    | intro _
    | with_reducible apply ite_inv
    | with_reducible apply blockBad_inv
    | with_reducible apply blkGiveUp_inv
    | split

theorem blkTake_inv {d : Nat} {c : Nat} {b : Blk} (i_regs : Skips.regs φ) (i_chutes : Skips.chutes φ) (i_ctxs : Skips.ctxs φ) (i_trigs : Skips.trigs φ) (i_pcie : Skips.pcie φ) (i_out : Skips.out φ) (hU : At φ c₀ s) : At φ c₀ (blkTake s d c b) := by
  unfold blkTake
  try dsimp only
  repeat' first
    | with_reducible assumption
    | intro _
    | with_reducible apply ite_inv
    | with_reducible apply setCtx_inv
    | with_reducible apply setBlk_inv
    | with_reducible apply ctxEvt_inv
    | split

theorem blkWord_inv {d : Nat} {c : Nat} {b : Blk} {f : State → Blk → Word → State} (i_free : Skips.free φ) (i_regs : Skips.regs φ) (i_ecc : Skips.ecc φ) (i_chutes : Skips.chutes φ) (i_ctxs : Skips.ctxs φ) (i_ports : Skips.ports φ) (i_seamQ : Skips.seamQ φ) (i_echos : Skips.echos φ) (i_mems : Skips.mems φ) (i_trigs : Skips.trigs φ) (i_dies : Skips.dies φ) (i_pcie : Skips.pcie φ) (i_out : Skips.out φ) (hU : At φ c₀ s) (hf_f : ∀ tU x0 x1, At φ c₀ tU → At φ c₀ (f tU x0 x1)) : At φ c₀ (blkWord s d c b f).2 := by
  unfold blkWord
  try dsimp only
  repeat' first
    | with_reducible assumption
    | intro _
    | with_reducible apply ite_inv
    | with_reducible apply hf_f
    | with_reducible apply chuteTake_inv
    | with_reducible apply asmPoison_inv
    | with_reducible apply blkGiveUp_inv
    | with_reducible apply setBlk_inv
    | (with_reducible refine pair_inv (by assumption) ?_)
    | split

theorem blkAdd_inv {d : Nat} {c : Nat} {b : Blk} {ws : List Word} (i_regs : Skips.regs φ) (i_mem : Skips.mem φ) (i_ecc : Skips.ecc φ) (i_chutes : Skips.chutes φ) (i_ctxs : Skips.ctxs φ) (i_seamQ : Skips.seamQ φ) (hU : At φ c₀ s) : At φ c₀ (blkAdd s d c b ws) := by
  unfold blkAdd
  try dsimp only
  repeat' first
    | with_reducible assumption
    | intro _
    | with_reducible apply ite_inv
    | with_reducible apply setBlk_inv
    | with_reducible apply expandLine_inv
    | split

theorem blkToken_inv {d : Nat} {c : Nat} {b : Blk} {w : Word} (i_free : Skips.free φ) (i_regs : Skips.regs φ) (i_ecc : Skips.ecc φ) (i_chutes : Skips.chutes φ) (i_ctxs : Skips.ctxs φ) (i_seamQ : Skips.seamQ φ) (i_mems : Skips.mems φ) (i_trigs : Skips.trigs φ) (i_dies : Skips.dies φ) (i_pcie : Skips.pcie φ) (i_out : Skips.out φ) (hU : At φ c₀ s) : At φ c₀ (blkToken s d c b w) := by
  unfold blkToken
  try dsimp only
  repeat' first
    | with_reducible assumption
    | intro _
    | with_reducible apply ite_inv
    | with_reducible apply blkFail_inv
    | with_reducible apply setBlk_inv
    | split

theorem blkEnd_inv {d : Nat} {c : Nat} {b : Blk} (i_free : Skips.free φ) (i_regs : Skips.regs φ) (i_ecc : Skips.ecc φ) (i_chutes : Skips.chutes φ) (i_ctxs : Skips.ctxs φ) (i_ports : Skips.ports φ) (i_seamQ : Skips.seamQ φ) (i_echos : Skips.echos φ) (i_mems : Skips.mems φ) (i_trigs : Skips.trigs φ) (i_dies : Skips.dies φ) (i_pcie : Skips.pcie φ) (i_out : Skips.out φ) (hU : At φ c₀ s) : At φ c₀ (blkEnd s d c b).2 := by
  unfold blkEnd
  try dsimp only
  repeat' first
    | with_reducible assumption
    | intro _
    | with_reducible apply ite_inv
    | with_reducible apply blkFail_inv
    | with_reducible apply blkWord_inv
    | with_reducible apply blkTake_inv
    | (with_reducible refine pair_inv (by assumption) ?_)
    | split

theorem blkWait_inv {d : Nat} {c : Nat} {b : Blk} (i_regs : Skips.regs φ) (i_chutes : Skips.chutes φ) (i_pcie : Skips.pcie φ) (i_out : Skips.out φ) (hU : At φ c₀ s) : At φ c₀ (blkWait s d c b).2 := by
  unfold blkWait
  try dsimp only
  repeat' first
    | with_reducible assumption
    | intro _
    | with_reducible apply ite_inv
    | with_reducible apply raise_inv
    | with_reducible apply count_inv
    | with_reducible apply setBlk_inv
    | split

theorem blkStep_inv {d : Nat} {c : Nat} {b : Blk} (i_free : Skips.free φ) (i_regs : Skips.regs φ) (i_mem : Skips.mem φ) (i_ecc : Skips.ecc φ) (i_chutes : Skips.chutes φ) (i_ctxs : Skips.ctxs φ) (i_ports : Skips.ports φ) (i_seamQ : Skips.seamQ φ) (i_echos : Skips.echos φ) (i_mems : Skips.mems φ) (i_trigs : Skips.trigs φ) (i_dies : Skips.dies φ) (i_pcie : Skips.pcie φ) (i_out : Skips.out φ) (hU : At φ c₀ s) : At φ c₀ (blkStep s d c b).2 := by
  unfold blkStep
  try dsimp only
  repeat' first
    | with_reducible assumption
    | intro _
    | with_reducible apply ite_inv
    | with_reducible apply blkEnd_inv
    | with_reducible apply blkWait_inv
    | with_reducible apply blkAdd_inv
    | with_reducible apply blkFail_inv
    | with_reducible apply blkWord_inv
    | with_reducible apply blkToken_inv
    | (with_reducible refine pair_inv (by assumption) ?_)
    | split

theorem blkGo_inv {x0 : Nat} {x2 : Nat} {x3 : Nat} (i_free : Skips.free φ) (i_regs : Skips.regs φ) (i_mem : Skips.mem φ) (i_ecc : Skips.ecc φ) (i_chutes : Skips.chutes φ) (i_ctxs : Skips.ctxs φ) (i_ports : Skips.ports φ) (i_seamQ : Skips.seamQ φ) (i_echos : Skips.echos φ) (i_mems : Skips.mems φ) (i_trigs : Skips.trigs φ) (i_dies : Skips.dies φ) (i_pcie : Skips.pcie φ) (i_out : Skips.out φ) (hU : At φ c₀ s) : At φ c₀ (blkGo x0 s x2 x3) := by
  induction x0 generalizing s x2 x3 with
  | zero => exact hU
  | succ n ih =>
    unfold blkGo
    try dsimp only
    repeat' first
      | with_reducible assumption
      | intro _
      | with_reducible apply ih
      | with_reducible apply ite_inv
      | with_reducible apply blkStep_inv
      | (with_reducible refine pair_inv (by assumption) ?_)
      | split

theorem expandAll_inv {d : Nat} {k : Nat} (i_free : Skips.free φ) (i_regs : Skips.regs φ) (i_mem : Skips.mem φ) (i_ecc : Skips.ecc φ) (i_chutes : Skips.chutes φ) (i_ctxs : Skips.ctxs φ) (i_ports : Skips.ports φ) (i_seamQ : Skips.seamQ φ) (i_echos : Skips.echos φ) (i_mems : Skips.mems φ) (i_trigs : Skips.trigs φ) (i_dies : Skips.dies φ) (i_pcie : Skips.pcie φ) (i_out : Skips.out φ) (hU : At φ c₀ s) : At φ c₀ (expandAll s d k) := by
  unfold expandAll
  try dsimp only
  repeat' first
    | with_reducible assumption
    | intro _
    | with_reducible apply ite_inv
    | with_reducible apply blkGo_inv
    | split

theorem blkBegin_inv {d : Nat} {c : Nat} {h : Hdr} {gap : Bool} {missing : Nat} {newSw : Bool} (i_free : Skips.free φ) (i_regs : Skips.regs φ) (i_mem : Skips.mem φ) (i_ecc : Skips.ecc φ) (i_chutes : Skips.chutes φ) (i_ctxs : Skips.ctxs φ) (i_ports : Skips.ports φ) (i_seamQ : Skips.seamQ φ) (i_echos : Skips.echos φ) (i_mems : Skips.mems φ) (i_trigs : Skips.trigs φ) (i_dies : Skips.dies φ) (i_pcie : Skips.pcie φ) (i_out : Skips.out φ) (hU : At φ c₀ s) : At φ c₀ (blkBegin s d c h gap missing newSw) := by
  unfold blkBegin
  try dsimp only
  repeat' first
    | with_reducible assumption
    | intro _
    | with_reducible apply ite_inv
    | with_reducible apply dropBlock_inv
    | with_reducible apply blockBad_inv
    | with_reducible apply setCtx_inv
    | with_reducible apply each_inv
    | with_reducible apply chuteTake_inv
    | with_reducible apply blkGo_inv
    | with_reducible apply setBlk_inv
    | (with_reducible refine pair_inv (by assumption) ?_)
    | split

theorem headPoison_inv {d : Nat} {c : Nat} {n : Nat} (i_free : Skips.free φ) (i_regs : Skips.regs φ) (i_ecc : Skips.ecc φ) (i_chutes : Skips.chutes φ) (i_ctxs : Skips.ctxs φ) (i_ports : Skips.ports φ) (i_seamQ : Skips.seamQ φ) (i_echos : Skips.echos φ) (i_mems : Skips.mems φ) (i_trigs : Skips.trigs φ) (i_dies : Skips.dies φ) (i_pcie : Skips.pcie φ) (i_out : Skips.out φ) (hU : At φ c₀ s) : At φ c₀ (headPoison s d c n) := by
  unfold headPoison
  try dsimp only
  repeat' first
    | with_reducible assumption
    | intro _
    | with_reducible apply ite_inv
    | with_reducible apply each_inv
    | with_reducible apply chuteTake_inv
    | with_reducible apply asmPoison_inv
    | with_reducible apply setChute_inv
    | (with_reducible refine pair_inv (by assumption) ?_)
    | split

theorem blockHead_inv {d : Nat} {c : Nat} (i_free : Skips.free φ) (i_regs : Skips.regs φ) (i_mem : Skips.mem φ) (i_ecc : Skips.ecc φ) (i_chutes : Skips.chutes φ) (i_ctxs : Skips.ctxs φ) (i_ports : Skips.ports φ) (i_seamQ : Skips.seamQ φ) (i_echos : Skips.echos φ) (i_mems : Skips.mems φ) (i_trigs : Skips.trigs φ) (i_dies : Skips.dies φ) (i_pcie : Skips.pcie φ) (i_out : Skips.out φ) (hU : At φ c₀ s) : At φ c₀ (blockHead s d c) := by
  unfold blockHead
  try dsimp only
  repeat' first
    | with_reducible assumption
    | intro _
    | with_reducible apply ite_inv
    | with_reducible apply headPoison_inv
    | with_reducible apply blockBad_inv
    | with_reducible apply count_inv
    | with_reducible apply chuteSkip_inv
    | with_reducible apply huntOn_inv
    | with_reducible apply setChute_inv
    | with_reducible apply dropBlock_inv
    | with_reducible apply ctxEvt_inv
    | with_reducible apply setCtx_inv
    | with_reducible exact ok_ansAt (by assumption)
    | with_reducible apply blkBegin_inv
    | split

theorem blockAccept_inv {d : Nat} {c : Nat} (i_free : Skips.free φ) (i_regs : Skips.regs φ) (i_mem : Skips.mem φ) (i_ecc : Skips.ecc φ) (i_chutes : Skips.chutes φ) (i_ctxs : Skips.ctxs φ) (i_ports : Skips.ports φ) (i_seamQ : Skips.seamQ φ) (i_echos : Skips.echos φ) (i_mems : Skips.mems φ) (i_trigs : Skips.trigs φ) (i_dies : Skips.dies φ) (i_pcie : Skips.pcie φ) (i_out : Skips.out φ) (hU : At φ c₀ s) : At φ c₀ (blockAccept s d c) := by
  unfold blockAccept
  try dsimp only
  repeat' first
    | with_reducible assumption
    | intro _
    | with_reducible apply ite_inv
    | with_reducible apply dropBlock_inv
    | with_reducible apply blkGo_inv
    | with_reducible apply huntOn_inv
    | with_reducible apply blockHead_inv
    | split

theorem readSlots_inv {x0 : List Nat} {x2 : Nat} {x3 : Nat} (i_regs : Skips.regs φ) (i_ecc : Skips.ecc φ) (i_chutes : Skips.chutes φ) (i_ctxs : Skips.ctxs φ) (i_ports : Skips.ports φ) (i_seamQ : Skips.seamQ φ) (i_echos : Skips.echos φ) (i_mems : Skips.mems φ) (i_trigs : Skips.trigs φ) (i_dies : Skips.dies φ) (i_pcie : Skips.pcie φ) (i_out : Skips.out φ) (hU : At φ c₀ s) : At φ c₀ (readSlots x0 s x2 x3).2.2 := by
  induction x0 generalizing s x2 x3 with
  | nil => exact hU
  | cons e r ih =>
    unfold readSlots
    try dsimp only
    repeat' first
      | with_reducible assumption
      | intro _
      | with_reducible apply ih
      | with_reducible apply ite_inv
      | with_reducible apply ctxRead_inv
      | (with_reducible refine trip_inv (by assumption) ?_)
      | split

theorem passValue_inv {d : Nat} {k : Nat} {x : Nat} {y : Nat} (i_regs : Skips.regs φ) (i_ecc : Skips.ecc φ) (i_chutes : Skips.chutes φ) (i_ctxs : Skips.ctxs φ) (i_ports : Skips.ports φ) (i_seamQ : Skips.seamQ φ) (i_echos : Skips.echos φ) (i_mems : Skips.mems φ) (i_trigs : Skips.trigs φ) (i_dies : Skips.dies φ) (i_pcie : Skips.pcie φ) (i_out : Skips.out φ) (hU : At φ c₀ s) : At φ c₀ (passValue s d k x y).2.2 := by
  unfold passValue
  try dsimp only
  repeat' first
    | with_reducible assumption
    | intro _
    | with_reducible apply ite_inv
    | with_reducible apply ctxRead_inv
    | (with_reducible refine trip_inv (by assumption) ?_)
    | split

theorem maskPixel_inv {d : Nat} {k : Nat} {n : Noz} (i_regs : Skips.regs φ) (i_ecc : Skips.ecc φ) (i_chutes : Skips.chutes φ) (i_ctxs : Skips.ctxs φ) (i_ports : Skips.ports φ) (i_seamQ : Skips.seamQ φ) (i_echos : Skips.echos φ) (i_mems : Skips.mems φ) (i_trigs : Skips.trigs φ) (i_dies : Skips.dies φ) (i_pcie : Skips.pcie φ) (i_out : Skips.out φ) (hU : At φ c₀ s) : At φ c₀ (maskPixel s d k n).2.2 := by
  unfold maskPixel
  try dsimp only
  repeat' first
    | with_reducible assumption
    | intro _
    | with_reducible apply ite_inv
    | with_reducible apply passValue_inv
    | with_reducible apply setCtx_inv
    | (with_reducible refine trip_inv (by assumption) ?_)
    | split

theorem nozPixel_inv {d : Nat} {k : Nat} {n : Nat} {rows : List GRow} {sl : Slots} {z : Nat} (i_regs : Skips.regs φ) (i_ecc : Skips.ecc φ) (i_chutes : Skips.chutes φ) (i_ctxs : Skips.ctxs φ) (i_ports : Skips.ports φ) (i_seamQ : Skips.seamQ φ) (i_echos : Skips.echos φ) (i_mems : Skips.mems φ) (i_trigs : Skips.trigs φ) (i_dies : Skips.dies φ) (i_pcie : Skips.pcie φ) (i_out : Skips.out φ) (hU : At φ c₀ s) : At φ c₀ (nozPixel s d k n rows sl z).2.2 := by
  unfold nozPixel
  try dsimp only
  repeat' first
    | with_reducible assumption
    | intro _
    | with_reducible apply ite_inv
    | with_reducible apply maskPixel_inv
    | (with_reducible refine trip_inv (by assumption) ?_)
    | split

theorem nozPixels_inv {x0 : List Nat} {x2 : Nat} {x3 : Nat} {x4 : Nat} {x5 : List GRow} {x6 : Slots} (i_regs : Skips.regs φ) (i_ecc : Skips.ecc φ) (i_chutes : Skips.chutes φ) (i_ctxs : Skips.ctxs φ) (i_ports : Skips.ports φ) (i_seamQ : Skips.seamQ φ) (i_echos : Skips.echos φ) (i_mems : Skips.mems φ) (i_trigs : Skips.trigs φ) (i_dies : Skips.dies φ) (i_pcie : Skips.pcie φ) (i_out : Skips.out φ) (hU : At φ c₀ s) : At φ c₀ (nozPixels x0 s x2 x3 x4 x5 x6).2.2 := by
  induction x0 generalizing s x2 x3 x4 x5 x6 with
  | nil => exact hU
  | cons e r ih =>
    unfold nozPixels
    try dsimp only
    repeat' first
      | with_reducible assumption
      | intro _
      | with_reducible apply ih
      | with_reducible apply ite_inv
      | with_reducible apply nozPixel_inv
      | (with_reducible refine trip_inv (by assumption) ?_)
      | split

end Sys2Proof.Laws
end

