-- ==== Sys2Proof/Laws/ChuteCmdInv.lean ====
section
/-!
SUPPORT. The fields of the state that each operation of `Machine/ChuteCmd.lean` may change: whatever reads none of them is the same after it.
-/

set_option Elab.async false
set_option linter.unusedTactic false
set_option linter.unreachableTactic false
namespace Sys2Proof.Laws

open Sys2Proof.Machine

variable {α₀ : Type} {φ : State → α₀} {c₀ : α₀} {s : State}

theorem pushCredit_inv {r : Req} {d : Nat} {c : Nat} {off : Nat} {w : CWord} (i_regs : Skips.regs φ) (i_chutes : Skips.chutes φ) (i_trigs : Skips.trigs φ) (i_pcie : Skips.pcie φ) (i_out : Skips.out φ) (hU : At φ c₀ s) : At φ c₀ (pushCredit s r d c off w) := by
  unfold pushCredit
  try dsimp only
  repeat' first
    | with_reducible assumption
    | intro _
    | with_reducible apply ite_inv
    | with_reducible apply logErr_inv
    | with_reducible apply chuteEvt_inv
    | with_reducible apply chuteCount_inv
    | with_reducible apply chuteAppend_inv
    | split

theorem pushOver_inv {d : Nat} {c : Nat} {w : CWord} (i_regs : Skips.regs φ) (i_chutes : Skips.chutes φ) (i_trigs : Skips.trigs φ) (i_pcie : Skips.pcie φ) (i_out : Skips.out φ) (hU : At φ c₀ s) : At φ c₀ (pushOver s d c w) := by
  unfold pushOver
  try dsimp only
  repeat' first
    | with_reducible assumption
    | intro _
    | with_reducible apply ite_inv
    | with_reducible apply setChute_inv
    | with_reducible apply chuteRoom_inv
    | with_reducible apply chuteRoomTail_inv
    | with_reducible apply chuteLost_inv
    | with_reducible apply chuteAppend_inv
    | split

theorem chutePush_inv {r : Req} {d : Nat} {c : Nat} {off : Nat} {v : Word} (i_regs : Skips.regs φ) (i_chutes : Skips.chutes φ) (i_trigs : Skips.trigs φ) (i_pcie : Skips.pcie φ) (i_out : Skips.out φ) (hU : At φ c₀ s) : At φ c₀ (chutePush r d c off v s) := by
  unfold chutePush
  try dsimp only
  repeat' first
    | with_reducible assumption
    | intro _
    | with_reducible apply ite_inv
    | with_reducible apply logErr_inv
    | with_reducible apply pushOver_inv
    | with_reducible apply pushCredit_inv
    | split

theorem execChutePush_ansAt {r : Req} {d : Nat} {c : Nat} {i : Nat} {v : Word} (i_regs : Skips.regs φ) (i_chutes : Skips.chutes φ) (i_trigs : Skips.trigs φ) (i_dies : Skips.dies φ) (i_pcie : Skips.pcie φ) (i_resp : Skips.resp φ) (i_out : Skips.out φ) (hU : At φ c₀ s) : AnsAt φ c₀ (execChutePush r d c i v s) := by
  unfold execChutePush
  try dsimp only
  repeat' first
    | with_reducible assumption
    | intro _
    | with_reducible apply ok_ansAt
    | with_reducible apply ite_ansAt
    | with_reducible apply ite_inv
    | with_reducible exact ok_ansAt (by assumption)
    | with_reducible apply guardedWrite_inv
    | with_reducible apply chutePush_inv
    | split

theorem popPoison_inv {d : Nat} {c : Nat} (i_regs : Skips.regs φ) (i_chutes : Skips.chutes φ) (i_trigs : Skips.trigs φ) (i_dies : Skips.dies φ) (i_pcie : Skips.pcie φ) (i_resp : Skips.resp φ) (i_out : Skips.out φ) (hU : At φ c₀ s) : At φ c₀ (popPoison s d c) := by
  unfold popPoison
  try dsimp only
  repeat' first
    | with_reducible assumption
    | intro _
    | with_reducible apply ite_inv
    | with_reducible apply logRecord_inv
    | with_reducible apply count_inv
    | split
    | with_reducible refine At.step (i_resp _ _) ?_

theorem chutePop_inv {r : Req} {d : Nat} {c : Nat} {off : Nat} (i_free : Skips.free φ) (i_regs : Skips.regs φ) (i_ecc : Skips.ecc φ) (i_chutes : Skips.chutes φ) (i_mems : Skips.mems φ) (i_trigs : Skips.trigs φ) (i_dies : Skips.dies φ) (i_pcie : Skips.pcie φ) (i_resp : Skips.resp φ) (i_out : Skips.out φ) (hU : At φ c₀ s) : At φ c₀ (chutePop r d c off s) := by
  unfold chutePop
  try dsimp only
  repeat' first
    | with_reducible assumption
    | intro _
    | with_reducible apply ite_inv
    | with_reducible apply logErr_inv
    | with_reducible apply chuteTake_inv
    | with_reducible apply raise_inv
    | with_reducible apply popPoison_inv
    | (with_reducible refine pair_inv (by assumption) ?_)
    | split

theorem popRead_inv {r : Req} {d : Nat} {c : Nat} {off : Nat} (i_free : Skips.free φ) (i_regs : Skips.regs φ) (i_caps : Skips.caps φ) (i_ecc : Skips.ecc φ) (i_chutes : Skips.chutes φ) (i_mems : Skips.mems φ) (i_trigs : Skips.trigs φ) (i_dies : Skips.dies φ) (i_pcie : Skips.pcie φ) (i_resp : Skips.resp φ) (i_out : Skips.out φ) (hU : At φ c₀ s) : At φ c₀ (popRead s r d c off) := by
  unfold popRead
  try dsimp only
  repeat' first
    | with_reducible assumption
    | intro _
    | with_reducible apply ite_inv
    | with_reducible apply guardedRead_inv
    | with_reducible apply chutePop_inv
    | split

theorem execChutePop_ansAt {r : Req} {d : Nat} {c : Nat} {i : Nat} (i_free : Skips.free φ) (i_regs : Skips.regs φ) (i_caps : Skips.caps φ) (i_ecc : Skips.ecc φ) (i_chutes : Skips.chutes φ) (i_mems : Skips.mems φ) (i_trigs : Skips.trigs φ) (i_dies : Skips.dies φ) (i_pcie : Skips.pcie φ) (i_resp : Skips.resp φ) (i_out : Skips.out φ) (hU : At φ c₀ s) : AnsAt φ c₀ (execChutePop r d c i s) := by
  unfold execChutePop
  try dsimp only
  repeat' first
    | with_reducible assumption
    | intro _
    | with_reducible apply ok_ansAt
    | with_reducible apply ite_ansAt
    | with_reducible apply ite_inv
    | with_reducible exact ok_ansAt (by assumption)
    | with_reducible apply popRead_inv
    | split

theorem scanFor_inv {d : Nat} {c : Nat} {k : Nat} (i_regs : Skips.regs φ) (i_chutes : Skips.chutes φ) (i_pcie : Skips.pcie φ) (i_out : Skips.out φ) (hU : At φ c₀ s) : At φ c₀ (scanFor s d c k) := by
  unfold scanFor
  try dsimp only
  repeat' first
    | with_reducible assumption
    | intro _
    | with_reducible apply ite_inv
    | with_reducible apply setChute_inv
    | with_reducible apply spotGone_inv
    | with_reducible apply creditBack_inv
    | split

theorem flushEnd_inv {d : Nat} {c : Nat} (i_regs : Skips.regs φ) (i_chutes : Skips.chutes φ) (i_trigs : Skips.trigs φ) (i_pcie : Skips.pcie φ) (i_out : Skips.out φ) (hU : At φ c₀ s) : At φ c₀ (flushEnd s d c) := by
  unfold flushEnd
  try dsimp only
  repeat' first
    | with_reducible assumption
    | intro _
    | with_reducible apply ite_inv
    | with_reducible apply each_inv
    | with_reducible apply scanFor_inv
    | with_reducible apply raise_inv
    | with_reducible apply chuteFollow_inv
    | with_reducible apply setChute_inv
    | split

theorem execChuteFlushScan_ansAt {d : Nat} {c : Nat} (i_regs : Skips.regs φ) (i_chutes : Skips.chutes φ) (i_trigs : Skips.trigs φ) (i_pcie : Skips.pcie φ) (i_out : Skips.out φ) (hU : At φ c₀ s) : AnsAt φ c₀ (execChuteFlushScan d c s) := by
  unfold execChuteFlushScan
  try dsimp only
  repeat' first
    | with_reducible assumption
    | intro _
    | with_reducible apply ok_ansAt
    | with_reducible apply ite_ansAt
    | with_reducible apply ite_inv
    | with_reducible exact ok_ansAt (by assumption)
    | with_reducible apply flushEnd_inv
    | split

theorem chuteFlush_inv {d : Nat} {c : Nat} {k : Nat} (i_regs : Skips.regs φ) (i_chutes : Skips.chutes φ) (i_pcie : Skips.pcie φ) (i_out : Skips.out φ) (hU : At φ c₀ s) : At φ c₀ (chuteFlush s d c k) := by
  unfold chuteFlush
  try dsimp only
  repeat' first
    | with_reducible assumption
    | intro _
    | with_reducible apply ite_inv
    | with_reducible apply setChute_inv
    | with_reducible apply raise_inv
    | split

theorem execBlockAccept_ansAt {d : Nat} {c : Nat} (i_free : Skips.free φ) (i_regs : Skips.regs φ) (i_mem : Skips.mem φ) (i_ecc : Skips.ecc φ) (i_chutes : Skips.chutes φ) (i_ctxs : Skips.ctxs φ) (i_ports : Skips.ports φ) (i_seamQ : Skips.seamQ φ) (i_echos : Skips.echos φ) (i_mems : Skips.mems φ) (i_trigs : Skips.trigs φ) (i_dies : Skips.dies φ) (i_pcie : Skips.pcie φ) (i_out : Skips.out φ) (hU : At φ c₀ s) : AnsAt φ c₀ (execBlockAccept d c s) := by
  unfold execBlockAccept
  try dsimp only
  repeat' first
    | with_reducible assumption
    | intro _
    | with_reducible apply ok_ansAt
    | with_reducible apply ite_ansAt
    | with_reducible apply ite_inv
    | with_reducible exact ok_ansAt (by assumption)
    | with_reducible apply blockAccept_inv
    | split

end Sys2Proof.Laws
end

