-- ==== Sys2Proof/Laws/SubstInv.lean ====
section
/-!
SUPPORT. The fields of the state that each operation of `Machine/Subst.lean` may change: whatever reads none of them is the same after it.
-/

set_option Elab.async false
set_option linter.unusedTactic false
set_option linter.unreachableTactic false
namespace Sys2Proof.Laws

open Sys2Proof.Machine

variable {α₀ : Type} {φ : State → α₀} {c₀ : α₀} {s : State}

theorem nozRecord_inv {d : Nat} {k : Nat} {type : Nat} {cause : Nat} {idx : Nat} {w2 : Word} {f : Nat} (i_regs : Skips.regs φ) (i_chutes : Skips.chutes φ) (i_trigs : Skips.trigs φ) (i_dies : Skips.dies φ) (i_pcie : Skips.pcie φ) (i_out : Skips.out φ) (hU : At φ c₀ s) : At φ c₀ (nozRecord s d k type cause idx w2 f) := by
  unfold nozRecord
  try dsimp only
  repeat' first
    | with_reducible assumption
    | intro _
    | with_reducible apply ite_inv
    | with_reducible apply setDie_inv
    | with_reducible apply chuteRecord_inv
    | split

theorem limitCheck_inv {d : Nat} {k : Nat} (i_regs : Skips.regs φ) (i_chutes : Skips.chutes φ) (i_ctxs : Skips.ctxs φ) (i_trigs : Skips.trigs φ) (i_dies : Skips.dies φ) (i_pcie : Skips.pcie φ) (i_out : Skips.out φ) (hU : At φ c₀ s) : At φ c₀ (limitCheck s d k) := by
  unfold limitCheck
  try dsimp only
  repeat' first
    | with_reducible assumption
    | intro _
    | with_reducible apply ite_inv
    | with_reducible apply setCtx_inv
    | with_reducible apply raise_inv
    | with_reducible apply nozRecord_inv
    | split

theorem dropLost_inv {d : Nat} (i_regs : Skips.regs φ) (i_pcie : Skips.pcie φ) (i_out : Skips.out φ) (hU : At φ c₀ s) : At φ c₀ (dropLost s d) := by
  unfold dropLost
  try dsimp only
  repeat' first
    | with_reducible assumption
    | intro _
    | with_reducible apply ite_inv
    | with_reducible apply raise_inv
    | with_reducible apply count_inv
    | split

theorem dropMoved1_inv {d : Nat} (i_regs : Skips.regs φ) (hU : At φ c₀ s) : At φ c₀ (dropMoved1 s d) := by
  unfold dropMoved1
  try dsimp only
  repeat' first
    | with_reducible assumption
    | intro _
    | with_reducible apply ite_inv
    | with_reducible apply count_inv
    | split

theorem formOpSet_inv {d : Nat} {k : Nat} (i_ctxs : Skips.ctxs φ) (hU : At φ c₀ s) : At φ c₀ (formOpSet s d k) := by
  unfold formOpSet
  try dsimp only
  repeat' first
    | with_reducible assumption
    | intro _
    | with_reducible apply ite_inv
    | with_reducible apply setCtx_inv
    | split

theorem opTurn_inv {d : Nat} {k : Nat} (i_regs : Skips.regs φ) (i_ctxs : Skips.ctxs φ) (i_pcie : Skips.pcie φ) (i_out : Skips.out φ) (hU : At φ c₀ s) : At φ c₀ (opTurn s d k) := by
  unfold opTurn
  try dsimp only
  repeat' first
    | with_reducible assumption
    | intro _
    | with_reducible apply ite_inv
    | with_reducible apply setCtx_inv
    | with_reducible apply raise_inv
    | with_reducible apply countBy_inv
    | with_reducible apply formOpSet_inv
    | split

theorem subLost_inv {d : Nat} {x : SubSt} {n : Noz} (i_regs : Skips.regs φ) (i_chutes : Skips.chutes φ) (i_ctxs : Skips.ctxs φ) (i_echos : Skips.echos φ) (i_trigs : Skips.trigs φ) (i_dies : Skips.dies φ) (i_pcie : Skips.pcie φ) (i_out : Skips.out φ) (hU : At φ c₀ x.s) : At φ c₀ (subLost d x n).s := by
  show At φ c₀ (dropLost x.s d)
  apply dropLost_inv <;> assumption

theorem subFailed_inv {d k : Nat} {x : SubSt} {n : Noz} (i_regs : Skips.regs φ) (i_chutes : Skips.chutes φ) (i_ctxs : Skips.ctxs φ) (i_echos : Skips.echos φ) (i_trigs : Skips.trigs φ) (i_dies : Skips.dies φ) (i_pcie : Skips.pcie φ) (i_out : Skips.out φ) (hU : At φ c₀ x.s) : At φ c₀ (subFailed d k x n).s := by
  unfold subFailed
  dsimp only
  split
  · apply dropMoved1_inv <;> first | assumption | (apply setEcho_inv <;> assumption)
  · split
    · apply dropMoved1_inv <;> assumption
    · apply subLost_inv <;> assumption

theorem subNoz_inv {d k : Nat} {l : List Nat} {x : SubSt} {n : Noz} (i_regs : Skips.regs φ) (i_chutes : Skips.chutes φ) (i_ctxs : Skips.ctxs φ) (i_echos : Skips.echos φ) (i_trigs : Skips.trigs φ) (i_dies : Skips.dies φ) (i_pcie : Skips.pcie φ) (i_out : Skips.out φ) (hU : At φ c₀ x.s) :
    At φ c₀ (subNoz d k l x n).s := by
  unfold subNoz
  extract_lets mb
  clear_value mb
  split
  · exact hU
  · split
    · apply dropMoved1_inv <;> assumption
    · split
      · exact hU
      · split
        · apply subFailed_inv <;> assumption
        · apply subLost_inv <;> assumption

theorem redNoz_inv {d k : Nat} {x : SubSt} {n : Noz} (i_regs : Skips.regs φ) (i_chutes : Skips.chutes φ) (i_ctxs : Skips.ctxs φ) (i_echos : Skips.echos φ) (i_trigs : Skips.trigs φ) (i_dies : Skips.dies φ) (i_pcie : Skips.pcie φ) (i_out : Skips.out φ) (hU : At φ c₀ x.s) : At φ c₀ (redNoz d k x n).s := by
  unfold redNoz
  dsimp only
  split
  · split
    · apply subLost_inv <;> first | assumption | (apply setEcho_inv <;> assumption)
    · apply setEcho_inv <;> assumption
  · exact hU

theorem offNoz_inv {d k : Nat} {x : SubSt} {n : Noz} (i_regs : Skips.regs φ) (i_chutes : Skips.chutes φ) (i_ctxs : Skips.ctxs φ) (i_echos : Skips.echos φ) (i_trigs : Skips.trigs φ) (i_dies : Skips.dies φ) (i_pcie : Skips.pcie φ) (i_out : Skips.out φ) (hU : At φ c₀ x.s) : At φ c₀ (offNoz d k x n).s := by
  unfold offNoz
  split
  · apply subLost_inv <;> assumption
  · exact hU

theorem subFold_inv {f : SubSt → Noz → SubSt} (hf : ∀ x n, At φ c₀ x.s → At φ c₀ (f x n).s) {l : List Noz} {x : SubSt}
    (hU : At φ c₀ x.s) : At φ c₀ (l.foldl f x).s := by
  induction l generalizing x with
  | nil => exact hU
  | cons e r ih => exact ih (hf _ _ hU)

theorem substitute_inv {d k : Nat} {l : List Noz} (i_regs : Skips.regs φ) (i_chutes : Skips.chutes φ) (i_ctxs : Skips.ctxs φ) (i_echos : Skips.echos φ) (i_trigs : Skips.trigs φ) (i_dies : Skips.dies φ) (i_pcie : Skips.pcie φ) (i_out : Skips.out φ) (hU : At φ c₀ s) : At φ c₀ (substitute s d k l).2 := by
  unfold substitute
  dsimp only
  split
  · exact hU
  · dsimp only
    have h0 : At φ c₀ (limitCheck s d k) := by apply limitCheck_inv <;> assumption
    split
    · exact subFold_inv (fun _ _ h => by apply redNoz_inv <;> assumption) h0
    · split
      · exact subFold_inv (fun _ _ h => by apply subNoz_inv <;> assumption) h0
      · exact subFold_inv (fun _ _ h => by apply offNoz_inv <;> assumption) h0

theorem lineBuild_inv {d : Nat} {k : Nat} (i_free : Skips.free φ) (i_regs : Skips.regs φ) (i_mem : Skips.mem φ) (i_ecc : Skips.ecc φ) (i_chutes : Skips.chutes φ) (i_ctxs : Skips.ctxs φ) (i_ports : Skips.ports φ) (i_seamQ : Skips.seamQ φ) (i_echos : Skips.echos φ) (i_mems : Skips.mems φ) (i_trigs : Skips.trigs φ) (i_dies : Skips.dies φ) (i_pcie : Skips.pcie φ) (i_out : Skips.out φ) (hU : At φ c₀ s) : At φ c₀ (lineBuild s d k) := by
  unfold lineBuild
  try dsimp only
  repeat' first
    | with_reducible assumption
    | intro _
    | with_reducible apply ite_inv
    | with_reducible apply readSlots_inv
    | with_reducible apply opTurn_inv
    | with_reducible apply nozPixels_inv
    | with_reducible apply substitute_inv
    | with_reducible apply setCtx_inv
    | with_reducible apply expandAll_inv
    | with_reducible apply freeLines_inv
    | (with_reducible refine pair_inv (by assumption) ?_)
    | (with_reducible refine trip_inv (by assumption) ?_)
    | split

theorem execLineBuild_ansAt {d : Nat} {k : Nat} (i_free : Skips.free φ) (i_regs : Skips.regs φ) (i_mem : Skips.mem φ) (i_ecc : Skips.ecc φ) (i_chutes : Skips.chutes φ) (i_ctxs : Skips.ctxs φ) (i_ports : Skips.ports φ) (i_seamQ : Skips.seamQ φ) (i_echos : Skips.echos φ) (i_mems : Skips.mems φ) (i_trigs : Skips.trigs φ) (i_dies : Skips.dies φ) (i_pcie : Skips.pcie φ) (i_out : Skips.out φ) (hU : At φ c₀ s) : AnsAt φ c₀ (execLineBuild d k s) := by
  unfold execLineBuild
  try dsimp only
  repeat' first
    | with_reducible assumption
    | intro _
    | with_reducible apply ok_ansAt
    | with_reducible apply ite_ansAt
    | with_reducible apply ite_inv
    | with_reducible exact ok_ansAt (by assumption)
    | with_reducible apply lineBuild_inv
    | split

theorem shareDrop_inv {d : Nat} (i_regs : Skips.regs φ) (i_pcie : Skips.pcie φ) (i_out : Skips.out φ) (hU : At φ c₀ s) : At φ c₀ (shareDrop s d) := by
  unfold shareDrop
  try dsimp only
  repeat' first
    | with_reducible assumption
    | intro _
    | with_reducible apply ite_inv
    | with_reducible apply raise_inv
    | with_reducible apply count_inv
    | split

theorem shareArrive_inv {q : SeamMsg} {vals : List Nat} (i_regs : Skips.regs φ) (i_mem : Skips.mem φ) (i_ecc : Skips.ecc φ) (i_ctxs : Skips.ctxs φ) (i_pcie : Skips.pcie φ) (i_out : Skips.out φ) (hU : At φ c₀ s) : At φ c₀ (shareArrive s q vals) := by
  unfold shareArrive
  try dsimp only
  repeat' first
    | with_reducible assumption
    | intro _
    | with_reducible apply ite_inv
    | with_reducible apply shareDrop_inv
    | with_reducible apply count_inv
    | with_reducible apply storeShare_inv
    | with_reducible apply setCtx_inv
    | split

theorem execSeamShareReceive_ansAt {d : Nat} (i_regs : Skips.regs φ) (i_mem : Skips.mem φ) (i_ecc : Skips.ecc φ) (i_ctxs : Skips.ctxs φ) (i_seamQ : Skips.seamQ φ) (i_pcie : Skips.pcie φ) (i_out : Skips.out φ) (hU : At φ c₀ s) : AnsAt φ c₀ (execSeamShareReceive d s) := by
  unfold execSeamShareReceive
  try dsimp only
  repeat' first
    | with_reducible assumption
    | intro _
    | with_reducible apply ok_ansAt
    | with_reducible apply ite_ansAt
    | with_reducible apply ite_inv
    | with_reducible exact ok_ansAt (by assumption)
    | with_reducible apply shareArrive_inv
    | split
    | with_reducible refine At.step (i_seamQ _ _) ?_

theorem execSeamCreditReturn_ansAt {d : Nat} (i_free : Skips.free φ) (i_regs : Skips.regs φ) (i_mem : Skips.mem φ) (i_ecc : Skips.ecc φ) (i_chutes : Skips.chutes φ) (i_ctxs : Skips.ctxs φ) (i_ports : Skips.ports φ) (i_seamQ : Skips.seamQ φ) (i_echos : Skips.echos φ) (i_mems : Skips.mems φ) (i_trigs : Skips.trigs φ) (i_dies : Skips.dies φ) (i_pcie : Skips.pcie φ) (i_out : Skips.out φ) (hU : At φ c₀ s) : AnsAt φ c₀ (execSeamCreditReturn d s) := by
  unfold execSeamCreditReturn
  try dsimp only
  repeat' first
    | with_reducible assumption
    | intro _
    | with_reducible apply ok_ansAt
    | with_reducible apply ite_ansAt
    | with_reducible apply ite_inv
    | with_reducible exact ok_ansAt (by assumption)
    | with_reducible apply expandAll_inv
    | with_reducible apply setCtx_inv
    | split
    | with_reducible refine At.step (i_seamQ _ _) ?_

end Sys2Proof.Laws
end

