-- ==== Sys2Proof/Laws/BindInv.lean ====
section
/-!
SUPPORT. The fields of the state that each operation of `Machine/Bind.lean` may change: whatever reads none of them is the same after it.
-/

set_option Elab.async false
set_option linter.unusedTactic false
set_option linter.unreachableTactic false
namespace Sys2Proof.Laws

open Sys2Proof.Machine

variable {α₀ : Type} {φ : State → α₀} {c₀ : α₀} {s : State}

theorem rePredict_inv {d : Nat} {k : Nat} (i_ctxs : Skips.ctxs φ) (hU : At φ c₀ s) : At φ c₀ (rePredict s d k) := by
  unfold rePredict
  try dsimp only
  repeat' first
    | with_reducible assumption
    | intro _
    | with_reducible apply ite_inv
    | with_reducible apply setCtx_inv
    | split

theorem recompute_inv {d : Nat} {k : Nat} (i_ctxs : Skips.ctxs φ) (i_ports : Skips.ports φ) (hU : At φ c₀ s) : At φ c₀ (recompute s d k) := by
  unfold recompute
  try dsimp only
  repeat' first
    | with_reducible assumption
    | intro _
    | with_reducible apply ite_inv
    | with_reducible apply setPort_inv
    | with_reducible apply setCtx_inv
    | with_reducible apply rePredict_inv
    | split

theorem estimateArrives_inv {d : Nat} {c : Nat} {e : Est} (i_ctxs : Skips.ctxs φ) (i_ports : Skips.ports φ) (i_encs : Skips.encs φ) (hU : At φ c₀ s) : At φ c₀ (estimateArrives s d c e) := by
  unfold estimateArrives
  try dsimp only
  repeat' first
    | with_reducible assumption
    | intro _
    | with_reducible apply ite_inv
    | with_reducible apply setEnc_inv
    | with_reducible apply each_inv
    | with_reducible apply setCtx_inv
    | with_reducible apply recompute_inv
    | split

theorem execEstimateArrival_ansAt {d : Nat} {c : Nat} (i_clock : Skips.clock φ) (i_regs : Skips.regs φ) (i_ctxs : Skips.ctxs φ) (i_ports : Skips.ports φ) (i_encs : Skips.encs φ) (i_msgs : Skips.msgs φ) (i_dies : Skips.dies φ) (i_pcie : Skips.pcie φ) (i_out : Skips.out φ) (hU : At φ c₀ s) : AnsAt φ c₀ (execEstimateArrival d c s) := by
  unfold execEstimateArrival
  try dsimp only
  repeat' first
    | with_reducible assumption
    | intro _
    | with_reducible apply ok_ansAt
    | with_reducible apply ite_ansAt
    | with_reducible apply ite_inv
    | (with_reducible refine takeMsg_i ?_ ?_ ?_ ?_ ?_ ?_ ?_ (by assumption))
    | with_reducible exact ok_ansAt (by assumption)
    | with_reducible apply estimateArrives_inv
    | split

theorem shiftOrigin_inv {d : Nat} {k : Nat} {delta : Int} (i_ctxs : Skips.ctxs φ) (i_ports : Skips.ports φ) (hU : At φ c₀ s) : At φ c₀ (shiftOrigin s d k delta) := by
  unfold shiftOrigin
  try dsimp only
  repeat' first
    | with_reducible assumption
    | intro _
    | with_reducible apply ite_inv
    | with_reducible apply setCtx_inv
    | with_reducible apply setPort_inv
    | split

theorem policyPause_inv {d : Nat} {k : Nat} {cause : Nat} {record : Bool} (i_regs : Skips.regs φ) (i_ecc : Skips.ecc φ) (i_chutes : Skips.chutes φ) (i_ctxs : Skips.ctxs φ) (i_ports : Skips.ports φ) (i_seamQ : Skips.seamQ φ) (i_echos : Skips.echos φ) (i_mems : Skips.mems φ) (i_trigs : Skips.trigs φ) (i_dies : Skips.dies φ) (i_pcie : Skips.pcie φ) (i_out : Skips.out φ) (hU : At φ c₀ s) : At φ c₀ (policyPause s d k cause record) := by
  unfold policyPause
  try dsimp only
  repeat' first
    | with_reducible assumption
    | intro _
    | with_reducible apply ite_inv
    | with_reducible apply ctxPolicyPause_inv
    | with_reducible apply ctxRecord_inv
    | split

theorem stepAt_inv {d : Nat} {k : Nat} {delta : Int} (i_regs : Skips.regs φ) (i_ecc : Skips.ecc φ) (i_chutes : Skips.chutes φ) (i_ctxs : Skips.ctxs φ) (i_ports : Skips.ports φ) (i_seamQ : Skips.seamQ φ) (i_echos : Skips.echos φ) (i_mems : Skips.mems φ) (i_trigs : Skips.trigs φ) (i_dies : Skips.dies φ) (i_pcie : Skips.pcie φ) (i_out : Skips.out φ) (hU : At φ c₀ s) : At φ c₀ (stepAt s d k delta) := by
  unfold stepAt
  try dsimp only
  repeat' first
    | with_reducible assumption
    | intro _
    | with_reducible apply ite_inv
    | with_reducible apply ctxEvt_inv
    | with_reducible apply setCtx_inv
    | with_reducible apply shiftOrigin_inv
    | with_reducible apply policyPause_inv
    | split

theorem stepArrives_inv {d : Nat} {c : Nat} {delta : Int} (i_regs : Skips.regs φ) (i_ecc : Skips.ecc φ) (i_chutes : Skips.chutes φ) (i_ctxs : Skips.ctxs φ) (i_ports : Skips.ports φ) (i_encs : Skips.encs φ) (i_seamQ : Skips.seamQ φ) (i_echos : Skips.echos φ) (i_mems : Skips.mems φ) (i_trigs : Skips.trigs φ) (i_dies : Skips.dies φ) (i_pcie : Skips.pcie φ) (i_out : Skips.out φ) (hU : At φ c₀ s) : At φ c₀ (stepArrives s d c delta) := by
  unfold stepArrives
  try dsimp only
  repeat' first
    | with_reducible assumption
    | intro _
    | with_reducible apply ite_inv
    | with_reducible apply setEnc_inv
    | with_reducible apply each_inv
    | with_reducible apply stepAt_inv
    | split

theorem execPositionStep_ansAt {d : Nat} {c : Nat} (i_clock : Skips.clock φ) (i_regs : Skips.regs φ) (i_ecc : Skips.ecc φ) (i_chutes : Skips.chutes φ) (i_ctxs : Skips.ctxs φ) (i_ports : Skips.ports φ) (i_encs : Skips.encs φ) (i_seamQ : Skips.seamQ φ) (i_echos : Skips.echos φ) (i_mems : Skips.mems φ) (i_msgs : Skips.msgs φ) (i_trigs : Skips.trigs φ) (i_dies : Skips.dies φ) (i_pcie : Skips.pcie φ) (i_out : Skips.out φ) (hU : At φ c₀ s) : AnsAt φ c₀ (execPositionStep d c s) := by
  unfold execPositionStep
  try dsimp only
  repeat' first
    | with_reducible assumption
    | intro _
    | with_reducible apply ok_ansAt
    | with_reducible apply ite_ansAt
    | with_reducible apply ite_inv
    | (with_reducible refine takeMsg_i ?_ ?_ ?_ ?_ ?_ ?_ ?_ (by assumption))
    | with_reducible exact ok_ansAt (by assumption)
    | with_reducible apply stepArrives_inv
    | split

theorem lostPolicy_inv {d : Nat} {c : Nat} {k : Nat} (i_regs : Skips.regs φ) (i_ecc : Skips.ecc φ) (i_chutes : Skips.chutes φ) (i_ctxs : Skips.ctxs φ) (i_ports : Skips.ports φ) (i_seamQ : Skips.seamQ φ) (i_echos : Skips.echos φ) (i_mems : Skips.mems φ) (i_trigs : Skips.trigs φ) (i_dies : Skips.dies φ) (i_pcie : Skips.pcie φ) (i_out : Skips.out φ) (hU : At φ c₀ s) : At φ c₀ (lostPolicy s d c k) := by
  unfold lostPolicy
  try dsimp only
  repeat' first
    | with_reducible assumption
    | intro _
    | with_reducible apply ite_inv
    | with_reducible apply ctxFence_inv
    | with_reducible apply ctxRecord_inv
    | with_reducible apply policyPause_inv
    | split

theorem lostArrives_inv {d : Nat} {c : Nat} (i_regs : Skips.regs φ) (i_ecc : Skips.ecc φ) (i_chutes : Skips.chutes φ) (i_ctxs : Skips.ctxs φ) (i_ports : Skips.ports φ) (i_encs : Skips.encs φ) (i_seamQ : Skips.seamQ φ) (i_echos : Skips.echos φ) (i_mems : Skips.mems φ) (i_trigs : Skips.trigs φ) (i_dies : Skips.dies φ) (i_pcie : Skips.pcie φ) (i_out : Skips.out φ) (hU : At φ c₀ s) : At φ c₀ (lostArrives s d c) := by
  unfold lostArrives
  try dsimp only
  repeat' first
    | with_reducible assumption
    | intro _
    | with_reducible apply ite_inv
    | with_reducible apply setEnc_inv
    | with_reducible apply each_inv
    | with_reducible apply ctxEvt_inv
    | with_reducible apply setCtx_inv
    | with_reducible apply withdrawAll_inv
    | with_reducible apply lostPolicy_inv
    | split

theorem execSourceLost_ansAt {d : Nat} {c : Nat} (i_clock : Skips.clock φ) (i_regs : Skips.regs φ) (i_ecc : Skips.ecc φ) (i_chutes : Skips.chutes φ) (i_ctxs : Skips.ctxs φ) (i_ports : Skips.ports φ) (i_encs : Skips.encs φ) (i_seamQ : Skips.seamQ φ) (i_echos : Skips.echos φ) (i_mems : Skips.mems φ) (i_msgs : Skips.msgs φ) (i_trigs : Skips.trigs φ) (i_dies : Skips.dies φ) (i_pcie : Skips.pcie φ) (i_out : Skips.out φ) (hU : At φ c₀ s) : AnsAt φ c₀ (execSourceLost d c s) := by
  unfold execSourceLost
  try dsimp only
  repeat' first
    | with_reducible assumption
    | intro _
    | with_reducible apply ok_ansAt
    | with_reducible apply ite_ansAt
    | with_reducible apply ite_inv
    | (with_reducible refine takeMsg_i ?_ ?_ ?_ ?_ ?_ ?_ ?_ (by assumption))
    | with_reducible exact ok_ansAt (by assumption)
    | with_reducible apply lostArrives_inv
    | split

theorem startGroup_inv {d : Nat} {k : Nat} {ref : Int} (i_regs : Skips.regs φ) (i_ecc : Skips.ecc φ) (i_chutes : Skips.chutes φ) (i_ctxs : Skips.ctxs φ) (i_ports : Skips.ports φ) (i_seamQ : Skips.seamQ φ) (i_echos : Skips.echos φ) (i_mems : Skips.mems φ) (i_trigs : Skips.trigs φ) (i_dies : Skips.dies φ) (i_pcie : Skips.pcie φ) (i_out : Skips.out φ) (hU : At φ c₀ s) : At φ c₀ (startGroup s d k ref) := by
  unfold startGroup
  try dsimp only
  repeat' first
    | with_reducible assumption
    | intro _
    | with_reducible apply ite_inv
    | with_reducible apply ctxMove_inv
    | with_reducible apply rePredict_inv
    | with_reducible apply setCtx_inv
    | split

theorem pdAt_inv {d : Nat} {n : Nat} {stamp : Nat} {accepted : Nat} {k : Nat} (i_regs : Skips.regs φ) (i_ecc : Skips.ecc φ) (i_chutes : Skips.chutes φ) (i_ctxs : Skips.ctxs φ) (i_ports : Skips.ports φ) (i_seamQ : Skips.seamQ φ) (i_echos : Skips.echos φ) (i_mems : Skips.mems φ) (i_trigs : Skips.trigs φ) (i_dies : Skips.dies φ) (i_pcie : Skips.pcie φ) (i_out : Skips.out φ) (hU : At φ c₀ s) : At φ c₀ (pdAt s d n stamp accepted k) := by
  unfold pdAt
  try dsimp only
  repeat' first
    | with_reducible assumption
    | intro _
    | with_reducible apply ite_inv
    | with_reducible apply startGroup_inv
    | with_reducible apply ctxEvt_inv
    | split

theorem execPdEdgeArrival_ansAt {d : Nat} {n : Nat} (i_clock : Skips.clock φ) (i_regs : Skips.regs φ) (i_ecc : Skips.ecc φ) (i_chutes : Skips.chutes φ) (i_ctxs : Skips.ctxs φ) (i_ports : Skips.ports φ) (i_seamQ : Skips.seamQ φ) (i_echos : Skips.echos φ) (i_mems : Skips.mems φ) (i_msgs : Skips.msgs φ) (i_trigs : Skips.trigs φ) (i_dies : Skips.dies φ) (i_pcie : Skips.pcie φ) (i_out : Skips.out φ) (hU : At φ c₀ s) : AnsAt φ c₀ (execPdEdgeArrival d n s) := by
  unfold execPdEdgeArrival
  try dsimp only
  repeat' first
    | with_reducible assumption
    | intro _
    | with_reducible apply ok_ansAt
    | with_reducible apply ite_ansAt
    | with_reducible apply ite_inv
    | (with_reducible refine takeMsg_i ?_ ?_ ?_ ?_ ?_ ?_ ?_ (by assumption))
    | with_reducible exact ok_ansAt (by assumption)
    | with_reducible apply each_inv
    | with_reducible apply pdAt_inv
    | split

theorem turnEnd_inv {d : Nat} {k : Nat} (i_regs : Skips.regs φ) (i_ecc : Skips.ecc φ) (i_chutes : Skips.chutes φ) (i_ctxs : Skips.ctxs φ) (i_ports : Skips.ports φ) (i_seamQ : Skips.seamQ φ) (i_echos : Skips.echos φ) (i_mems : Skips.mems φ) (i_trigs : Skips.trigs φ) (i_dies : Skips.dies φ) (i_pcie : Skips.pcie φ) (i_out : Skips.out φ) (hU : At φ c₀ s) : At φ c₀ (turnEnd s d k) := by
  unfold turnEnd
  try dsimp only
  repeat' first
    | with_reducible assumption
    | intro _
    | with_reducible apply ite_inv
    | with_reducible apply each_inv
    | with_reducible apply setCtx_inv
    | with_reducible apply ctxMove_inv
    | with_reducible apply rePredict_inv
    | split

theorem memberDone_inv {d : Nat} {p : Nat} {c : Cycle} {k : Nat} {blank : Bool} (i_ctxs : Skips.ctxs φ) (i_ports : Skips.ports φ) (hU : At φ c₀ s) : At φ c₀ (memberDone s d p c k blank) := by
  unfold memberDone
  try dsimp only
  repeat' first
    | with_reducible assumption
    | intro _
    | with_reducible apply ite_inv
    | with_reducible apply lineDone_inv
    | with_reducible apply setCycle_inv
    | split

theorem retire_inv {d : Nat} {p : Nat} {c : Cycle} (i_regs : Skips.regs φ) (i_ecc : Skips.ecc φ) (i_chutes : Skips.chutes φ) (i_ctxs : Skips.ctxs φ) (i_ports : Skips.ports φ) (i_seamQ : Skips.seamQ φ) (i_echos : Skips.echos φ) (i_mems : Skips.mems φ) (i_trigs : Skips.trigs φ) (i_dies : Skips.dies φ) (i_pcie : Skips.pcie φ) (i_out : Skips.out φ) (hU : At φ c₀ s) : At φ c₀ (retire s d p c) := by
  unfold retire
  try dsimp only
  repeat' first
    | with_reducible assumption
    | intro _
    | with_reducible apply ite_inv
    | with_reducible apply setPort_inv
    | with_reducible apply turnEnd_inv
    | split

theorem cycleOutcome_inv {d : Nat} {p : Nat} {c : Cycle} {delivered : Bool} (i_regs : Skips.regs φ) (i_ecc : Skips.ecc φ) (i_chutes : Skips.chutes φ) (i_ctxs : Skips.ctxs φ) (i_ports : Skips.ports φ) (i_seamQ : Skips.seamQ φ) (i_echos : Skips.echos φ) (i_mems : Skips.mems φ) (i_trigs : Skips.trigs φ) (i_dies : Skips.dies φ) (i_pcie : Skips.pcie φ) (i_out : Skips.out φ) (hU : At φ c₀ s) : At φ c₀ (cycleOutcome s d p c delivered) := by
  unfold cycleOutcome
  try dsimp only
  repeat' first
    | with_reducible assumption
    | intro _
    | with_reducible apply ite_inv
    | with_reducible apply setCycle_inv
    | with_reducible apply each_inv
    | with_reducible apply setCtx_inv
    | with_reducible apply stallReset_inv
    | with_reducible apply stallMark_inv
    | with_reducible apply memberDone_inv
    | with_reducible apply retire_inv
    | split

theorem asmTurn_inv {d : Nat} {k : Nat} (i_free : Skips.free φ) (i_regs : Skips.regs φ) (i_mem : Skips.mem φ) (i_ecc : Skips.ecc φ) (i_chutes : Skips.chutes φ) (i_ctxs : Skips.ctxs φ) (i_ports : Skips.ports φ) (i_seamQ : Skips.seamQ φ) (i_echos : Skips.echos φ) (i_mems : Skips.mems φ) (i_trigs : Skips.trigs φ) (i_dies : Skips.dies φ) (i_pcie : Skips.pcie φ) (i_out : Skips.out φ) (hU : At φ c₀ s) : At φ c₀ (asmTurn s d k) := by
  unfold asmTurn
  try dsimp only
  repeat' first
    | with_reducible assumption
    | intro _
    | with_reducible apply ite_inv
    | with_reducible apply setCtx_inv
    | with_reducible apply expandAll_inv
    | with_reducible apply freeLines_inv
    | split

theorem swatheCheck_inv {d : Nat} {k : Nat} (i_free : Skips.free φ) (i_regs : Skips.regs φ) (i_mem : Skips.mem φ) (i_ecc : Skips.ecc φ) (i_chutes : Skips.chutes φ) (i_ctxs : Skips.ctxs φ) (i_ports : Skips.ports φ) (i_seamQ : Skips.seamQ φ) (i_echos : Skips.echos φ) (i_mems : Skips.mems φ) (i_trigs : Skips.trigs φ) (i_dies : Skips.dies φ) (i_pcie : Skips.pcie φ) (i_out : Skips.out φ) (hU : At φ c₀ s) : At φ c₀ (swatheCheck s d k) := by
  unfold swatheCheck
  try dsimp only
  repeat' first
    | with_reducible assumption
    | intro _
    | with_reducible apply ite_inv
    | with_reducible apply each_inv
    | with_reducible apply ctxEvt_inv
    | with_reducible apply ctxHandOver_inv
    | with_reducible apply asmTurn_inv
    | with_reducible apply setCtx_inv
    | with_reducible apply turnEnd_inv
    | with_reducible apply ctxMove_inv
    | split

theorem skipTo_inv {d : Nat} {k : Nat} {n : Nat} (i_free : Skips.free φ) (i_regs : Skips.regs φ) (i_mem : Skips.mem φ) (i_ecc : Skips.ecc φ) (i_chutes : Skips.chutes φ) (i_ctxs : Skips.ctxs φ) (i_ports : Skips.ports φ) (i_seamQ : Skips.seamQ φ) (i_echos : Skips.echos φ) (i_mems : Skips.mems φ) (i_trigs : Skips.trigs φ) (i_dies : Skips.dies φ) (i_pcie : Skips.pcie φ) (i_out : Skips.out φ) (hU : At φ c₀ s) : At φ c₀ (skipTo s d k n) := by
  unfold skipTo
  try dsimp only
  repeat' first
    | with_reducible assumption
    | intro _
    | with_reducible apply ite_inv
    | with_reducible apply setCtx_inv
    | with_reducible apply ctxEvt_inv
    | with_reducible apply expandAll_inv
    | with_reducible apply freeLines_inv
    | split

theorem rejoinNow_inv {d : Nat} {t : Nat} {k : Nat} (i_free : Skips.free φ) (i_regs : Skips.regs φ) (i_mem : Skips.mem φ) (i_ecc : Skips.ecc φ) (i_chutes : Skips.chutes φ) (i_ctxs : Skips.ctxs φ) (i_ports : Skips.ports φ) (i_seamQ : Skips.seamQ φ) (i_echos : Skips.echos φ) (i_mems : Skips.mems φ) (i_trigs : Skips.trigs φ) (i_dies : Skips.dies φ) (i_pcie : Skips.pcie φ) (i_out : Skips.out φ) (hU : At φ c₀ s) : At φ c₀ (rejoinNow s d t k) := by
  unfold rejoinNow
  try dsimp only
  repeat' first
    | with_reducible assumption
    | intro _
    | with_reducible apply ite_inv
    | with_reducible apply setCtx_inv
    | with_reducible apply ctxEvt_inv
    | with_reducible apply seamUpdate_inv
    | with_reducible apply tryHandOver_inv
    | with_reducible apply skipTo_inv
    | split

theorem sweepEnd_inv {d : Nat} {st : Nat} {fail : Nat} (i_regs : Skips.regs φ) (i_pcie : Skips.pcie φ) (i_out : Skips.out φ) (hU : At φ c₀ s) : At φ c₀ (sweepEnd s d st fail) := by
  unfold sweepEnd
  try dsimp only
  repeat' first
    | with_reducible assumption
    | intro _
    | with_reducible apply ite_inv
    | with_reducible apply raise_inv
    | with_reducible apply wr_inv
    | split

theorem sweepCheck_inv {d : Nat} {p : Nat} (i_regs : Skips.regs φ) (i_pcie : Skips.pcie φ) (i_out : Skips.out φ) (hU : At φ c₀ s) : At φ c₀ (sweepCheck s d p) := by
  unfold sweepCheck
  try dsimp only
  repeat' first
    | with_reducible assumption
    | intro _
    | with_reducible apply ite_inv
    | with_reducible apply sweepEnd_inv
    | split

theorem sweepNext_inv {d : Nat} {missed : Bool} (i_regs : Skips.regs φ) (i_echos : Skips.echos φ) (i_pcie : Skips.pcie φ) (i_out : Skips.out φ) (hU : At φ c₀ s) : At φ c₀ (sweepNext s d missed) := by
  unfold sweepNext
  try dsimp only
  repeat' first
    | with_reducible assumption
    | intro _
    | with_reducible apply ite_inv
    | with_reducible apply wf_inv
    | with_reducible apply setEcho_inv
    | with_reducible apply sweepEnd_inv
    | split

theorem sweepSpend_inv {d : Nat} {p : Nat} (i_regs : Skips.regs φ) (i_echos : Skips.echos φ) (i_pcie : Skips.pcie φ) (i_out : Skips.out φ) (hU : At φ c₀ s) : At φ c₀ (sweepSpend s d p) := by
  unfold sweepSpend
  try dsimp only
  repeat' first
    | with_reducible assumption
    | intro _
    | with_reducible apply ite_inv
    | with_reducible apply sweepNext_inv
    | with_reducible apply setEcho_inv
    | split

theorem senseChoice_inv {d : Nat} {p : Nat} {c : Cycle} (i_regs : Skips.regs φ) (i_ports : Skips.ports φ) (i_echos : Skips.echos φ) (i_pcie : Skips.pcie φ) (i_out : Skips.out φ) (hU : At φ c₀ s) : At φ c₀ (senseChoice s d p c).2 := by
  unfold senseChoice
  try dsimp only
  repeat' first
    | with_reducible assumption
    | intro _
    | with_reducible apply ite_inv
    | with_reducible apply setPort_inv
    | with_reducible apply sweepSpend_inv
    | with_reducible apply count_inv
    | split

theorem bindWave_inv {d : Nat} {p : Nat} {c : Cycle} (i_free : Skips.free φ) (i_regs : Skips.regs φ) (i_pcie : Skips.pcie φ) (i_out : Skips.out φ) (hU : At φ c₀ s) : At φ c₀ (bindWave s d p c).2 := by
  unfold bindWave
  try dsimp only
  repeat' first
    | with_reducible assumption
    | intro _
    | with_reducible apply ite_inv
    | with_reducible apply raise_inv
    | with_reducible apply count_inv
    | with_reducible apply wr_inv
    | with_reducible apply whenDo_inv
    | with_reducible apply countBy_inv
    | split
    | with_reducible refine At.step (i_free _ _) ?_

theorem loseLine_inv {d : Nat} {m : Nat} (i_ctxs : Skips.ctxs φ) (hU : At φ c₀ s) : At φ c₀ (loseLine s d m) := by
  unfold loseLine
  try dsimp only
  repeat' first
    | with_reducible assumption
    | intro _
    | with_reducible apply ite_inv
    | with_reducible apply ctxNull_inv
    | split

theorem underrun_inv {d : Nat} {m : Nat} (i_regs : Skips.regs φ) (i_ecc : Skips.ecc φ) (i_chutes : Skips.chutes φ) (i_ctxs : Skips.ctxs φ) (i_ports : Skips.ports φ) (i_seamQ : Skips.seamQ φ) (i_echos : Skips.echos φ) (i_mems : Skips.mems φ) (i_trigs : Skips.trigs φ) (i_dies : Skips.dies φ) (i_pcie : Skips.pcie φ) (i_out : Skips.out φ) (hU : At φ c₀ s) : At φ c₀ (underrun s d m) := by
  unfold underrun
  try dsimp only
  repeat' first
    | with_reducible assumption
    | intro _
    | with_reducible apply ite_inv
    | with_reducible apply policyPause_inv
    | with_reducible apply ctxFence_inv
    | with_reducible apply ctxRecord_inv
    | with_reducible apply setCtx_inv
    | split

theorem bindCycle_inv {d : Nat} {k : Nat} {t0 : Int} (i_free : Skips.free φ) (i_regs : Skips.regs φ) (i_ecc : Skips.ecc φ) (i_chutes : Skips.chutes φ) (i_ctxs : Skips.ctxs φ) (i_ports : Skips.ports φ) (i_seamQ : Skips.seamQ φ) (i_echos : Skips.echos φ) (i_mems : Skips.mems φ) (i_trigs : Skips.trigs φ) (i_dies : Skips.dies φ) (i_pcie : Skips.pcie φ) (i_out : Skips.out φ) (hU : At φ c₀ s) : At φ c₀ (bindCycle s d k t0) := by
  unfold bindCycle
  try dsimp only
  repeat' first
    | with_reducible assumption
    | intro _
    | with_reducible apply ite_inv
    | with_reducible apply bindWave_inv
    | with_reducible apply senseChoice_inv
    | with_reducible apply setPort_inv
    | with_reducible apply queueFrame_inv
    | with_reducible apply cycleOutcome_inv
    | with_reducible apply each_inv
    | with_reducible apply ctxNull_inv
    | with_reducible apply ctxEvt_inv
    | with_reducible apply lineDone_inv
    | with_reducible apply stallMark_inv
    | with_reducible apply setCtx_inv
    | with_reducible apply rePredict_inv
    | with_reducible apply underrun_inv
    | (with_reducible refine pair_inv (by assumption) ?_)
    | split

theorem skipLine_inv {d : Nat} {k : Nat} (i_regs : Skips.regs φ) (i_ctxs : Skips.ctxs φ) (i_trigs : Skips.trigs φ) (i_pcie : Skips.pcie φ) (i_out : Skips.out φ) (hU : At φ c₀ s) : At φ c₀ (skipLine s d k) := by
  unfold skipLine
  try dsimp only
  repeat' first
    | with_reducible assumption
    | intro _
    | with_reducible apply ite_inv
    | with_reducible apply each_inv
    | with_reducible apply lineDone_inv
    | with_reducible apply ctxLate_inv
    | with_reducible apply setCtx_inv
    | with_reducible apply rePredict_inv
    | split

theorem bindLine_inv {d : Nat} {k : Nat} (i_free : Skips.free φ) (i_regs : Skips.regs φ) (i_ecc : Skips.ecc φ) (i_chutes : Skips.chutes φ) (i_ctxs : Skips.ctxs φ) (i_ports : Skips.ports φ) (i_seamQ : Skips.seamQ φ) (i_echos : Skips.echos φ) (i_mems : Skips.mems φ) (i_trigs : Skips.trigs φ) (i_dies : Skips.dies φ) (i_pcie : Skips.pcie φ) (i_out : Skips.out φ) (hU : At φ c₀ s) : At φ c₀ (bindLine s d k) := by
  unfold bindLine
  try dsimp only
  repeat' first
    | with_reducible assumption
    | intro _
    | with_reducible apply ite_inv
    | with_reducible apply skipLine_inv
    | with_reducible apply policyPause_inv
    | with_reducible apply each_inv
    | with_reducible apply setCtx_inv
    | with_reducible apply ctxLate_inv
    | with_reducible apply bindCycle_inv
    | split

theorem portHandOver_inv {d : Nat} {p : Nat} (i_regs : Skips.regs φ) (i_ports : Skips.ports φ) (i_pcie : Skips.pcie φ) (i_out : Skips.out φ) (hU : At φ c₀ s) : At φ c₀ (portHandOver s d p) := by
  unfold portHandOver
  try dsimp only
  repeat' first
    | with_reducible assumption
    | intro _
    | with_reducible apply ite_inv
    | with_reducible apply hpHandOver_inv
    | split

theorem memberHandOvers_inv {d : Nat} {k : Nat} (i_regs : Skips.regs φ) (i_ecc : Skips.ecc φ) (i_chutes : Skips.chutes φ) (i_ctxs : Skips.ctxs φ) (i_ports : Skips.ports φ) (i_seamQ : Skips.seamQ φ) (i_echos : Skips.echos φ) (i_mems : Skips.mems φ) (i_trigs : Skips.trigs φ) (i_dies : Skips.dies φ) (i_pcie : Skips.pcie φ) (i_out : Skips.out φ) (hU : At φ c₀ s) : At φ c₀ (memberHandOvers s d k) := by
  unfold memberHandOvers
  try dsimp only
  repeat' first
    | with_reducible assumption
    | intro _
    | with_reducible apply ite_inv
    | with_reducible apply each_inv
    | with_reducible apply ctxHandOver_inv
    | split

theorem bindPoint_inv {d : Nat} {k : Nat} {t : Int} (i_clock : Skips.clock φ) (i_free : Skips.free φ) (i_regs : Skips.regs φ) (i_mem : Skips.mem φ) (i_ecc : Skips.ecc φ) (i_chutes : Skips.chutes φ) (i_ctxs : Skips.ctxs φ) (i_ports : Skips.ports φ) (i_seamQ : Skips.seamQ φ) (i_echos : Skips.echos φ) (i_mems : Skips.mems φ) (i_trigs : Skips.trigs φ) (i_assays : Skips.assays φ) (i_dies : Skips.dies φ) (i_pcie : Skips.pcie φ) (i_out : Skips.out φ) (hU : At φ c₀ s) : At φ c₀ (bindPoint s d k t) := by
  unfold bindPoint
  try dsimp only
  repeat' first
    | with_reducible assumption
    | intro _
    | with_reducible apply ite_inv
    | with_reducible apply waitTick_inv
    | with_reducible apply rePredict_inv
    | with_reducible apply memberHandOvers_inv
    | with_reducible apply asBoundary_inv
    | with_reducible apply portHandOver_inv
    | with_reducible apply sweepCheck_inv
    | with_reducible apply each_inv
    | with_reducible apply rejoinNow_inv
    | with_reducible apply bindLine_inv
    | with_reducible apply swatheCheck_inv
    | with_reducible apply waitClock_inv
    | split

theorem execLineBind_ansAt {d : Nat} {k0 : Nat} (i_clock : Skips.clock φ) (i_free : Skips.free φ) (i_regs : Skips.regs φ) (i_mem : Skips.mem φ) (i_ecc : Skips.ecc φ) (i_chutes : Skips.chutes φ) (i_ctxs : Skips.ctxs φ) (i_ports : Skips.ports φ) (i_seamQ : Skips.seamQ φ) (i_echos : Skips.echos φ) (i_mems : Skips.mems φ) (i_trigs : Skips.trigs φ) (i_assays : Skips.assays φ) (i_dies : Skips.dies φ) (i_pcie : Skips.pcie φ) (i_out : Skips.out φ) (hU : At φ c₀ s) : AnsAt φ c₀ (execLineBind d k0 s) := by
  unfold execLineBind
  try dsimp only
  repeat' first
    | with_reducible assumption
    | intro _
    | with_reducible apply ok_ansAt
    | with_reducible apply ite_ansAt
    | with_reducible apply ite_inv
    | with_reducible exact ok_ansAt (by assumption)
    | with_reducible apply ctxAbortNow_inv
    | with_reducible apply swatheCheck_inv
    | with_reducible apply turnEnd_inv
    | with_reducible apply bindPoint_inv
    | split

theorem execFollowerRejoin_ansAt {d : Nat} {k : Nat} (i_clock : Skips.clock φ) (i_free : Skips.free φ) (i_regs : Skips.regs φ) (i_mem : Skips.mem φ) (i_ecc : Skips.ecc φ) (i_chutes : Skips.chutes φ) (i_ctxs : Skips.ctxs φ) (i_ports : Skips.ports φ) (i_seamQ : Skips.seamQ φ) (i_echos : Skips.echos φ) (i_mems : Skips.mems φ) (i_trigs : Skips.trigs φ) (i_dies : Skips.dies φ) (i_pcie : Skips.pcie φ) (i_out : Skips.out φ) (hU : At φ c₀ s) : AnsAt φ c₀ (execFollowerRejoin d k s) := by
  unfold execFollowerRejoin
  try dsimp only
  repeat' first
    | with_reducible assumption
    | intro _
    | with_reducible apply ok_ansAt
    | with_reducible apply ite_ansAt
    | with_reducible apply ite_inv
    | with_reducible exact ok_ansAt (by assumption)
    | with_reducible apply rejoinNow_inv
    | with_reducible apply waitTick_inv
    | split

theorem freezeCycle_inv {d : Nat} {p : Nat} {c : Cycle} (i_regs : Skips.regs φ) (i_ctxs : Skips.ctxs φ) (i_ports : Skips.ports φ) (i_pcie : Skips.pcie φ) (i_out : Skips.out φ) (hU : At φ c₀ s) : At φ c₀ (freezeCycle s d p c) := by
  unfold freezeCycle
  try dsimp only
  repeat' first
    | with_reducible assumption
    | intro _
    | with_reducible apply ite_inv
    | with_reducible apply setCycle_inv
    | with_reducible apply raise_inv
    | with_reducible apply count_inv
    | with_reducible apply each_inv
    | with_reducible apply ctxDegraded_inv
    | with_reducible apply memberDone_inv
    | with_reducible apply ctxNull_inv
    | with_reducible apply emit_inv
    | split

theorem freezeAt_inv {d : Nat} {p : Nat} {c : Cycle} (i_clock : Skips.clock φ) (i_regs : Skips.regs φ) (i_ctxs : Skips.ctxs φ) (i_ports : Skips.ports φ) (i_dies : Skips.dies φ) (i_pcie : Skips.pcie φ) (i_out : Skips.out φ) (hU : At φ c₀ s) : At φ c₀ (freezeAt s d p c) := by
  unfold freezeAt
  try dsimp only
  repeat' first
    | with_reducible assumption
    | intro _
    | with_reducible apply ite_inv
    | with_reducible apply freezeCycle_inv
    | with_reducible apply waitTick_inv
    | split

theorem execLineFreeze_ansAt {d : Nat} {k : Nat} (i_clock : Skips.clock φ) (i_regs : Skips.regs φ) (i_ctxs : Skips.ctxs φ) (i_ports : Skips.ports φ) (i_dies : Skips.dies φ) (i_pcie : Skips.pcie φ) (i_out : Skips.out φ) (hU : At φ c₀ s) : AnsAt φ c₀ (execLineFreeze d k s) := by
  unfold execLineFreeze
  try dsimp only
  repeat' first
    | with_reducible assumption
    | intro _
    | with_reducible apply ok_ansAt
    | with_reducible apply ite_ansAt
    | with_reducible apply ite_inv
    | with_reducible exact ok_ansAt (by assumption)
    | with_reducible apply freezeAt_inv
    | split

theorem playPiezo_inv {d : Nat} {p : Nat} {c : Cycle} (i_free : Skips.free φ) (i_regs : Skips.regs φ) (i_ports : Skips.ports φ) (i_pcie : Skips.pcie φ) (i_out : Skips.out φ) (hU : At φ c₀ s) : At φ c₀ (playPiezo s d p c) := by
  unfold playPiezo
  try dsimp only
  repeat' first
    | with_reducible assumption
    | intro _
    | with_reducible apply ite_inv
    | with_reducible apply whenDo_inv
    | with_reducible apply raise_inv
    | with_reducible apply countBy_inv
    | with_reducible apply streamFollow_inv
    | with_reducible apply setPort_inv
    | split
    | with_reducible refine At.step (skip_free_out i_free i_out _ _ _) ?_
    | with_reducible refine At.step (i_free _ _) ?_
    | with_reducible refine At.step (i_out _ _) ?_

theorem senseOpen_inv {d : Nat} {p : Nat} {c : Cycle} (i_echos : Skips.echos φ) (hU : At φ c₀ s) : At φ c₀ (senseOpen s d p c) := by
  unfold senseOpen
  try dsimp only
  repeat' first
    | with_reducible assumption
    | intro _
    | with_reducible apply ite_inv
    | with_reducible apply setEcho_inv
    | split

theorem playThermal_inv {d : Nat} {p : Nat} {c : Cycle} (i_out : Skips.out φ) (hU : At φ c₀ s) : At φ c₀ (playThermal s d p c) := by
  unfold playThermal
  try dsimp only
  repeat' first
    | with_reducible assumption
    | intro _
    | with_reducible apply ite_inv
    | split
    | with_reducible refine At.step (i_out _ _) ?_

theorem playCycle_inv {d : Nat} {p : Nat} {c : Cycle} (i_free : Skips.free φ) (i_regs : Skips.regs φ) (i_ports : Skips.ports φ) (i_echos : Skips.echos φ) (i_pcie : Skips.pcie φ) (i_out : Skips.out φ) (hU : At φ c₀ s) : At φ c₀ (playCycle s d p c) := by
  unfold playCycle
  try dsimp only
  repeat' first
    | with_reducible assumption
    | intro _
    | with_reducible apply ite_inv
    | with_reducible apply playThermal_inv
    | with_reducible apply senseOpen_inv
    | with_reducible apply playPiezo_inv
    | with_reducible apply setPort_inv
    | split

theorem logDrops_inv {d : Nat} {p : Nat} {c : Cycle} (i_therms : Skips.therms φ) (hU : At φ c₀ s) : At φ c₀ (logDrops s d p c) := by
  unfold logDrops
  try dsimp only
  repeat' first
    | with_reducible assumption
    | intro _
    | with_reducible apply ite_inv
    | with_reducible apply setTherm_inv
    | split

theorem fireCycle_inv {d : Nat} {p : Nat} {c : Cycle} (i_clock : Skips.clock φ) (i_free : Skips.free φ) (i_regs : Skips.regs φ) (i_ecc : Skips.ecc φ) (i_chutes : Skips.chutes φ) (i_ctxs : Skips.ctxs φ) (i_ports : Skips.ports φ) (i_seamQ : Skips.seamQ φ) (i_echos : Skips.echos φ) (i_mems : Skips.mems φ) (i_trigs : Skips.trigs φ) (i_therms : Skips.therms φ) (i_dies : Skips.dies φ) (i_pcie : Skips.pcie φ) (i_out : Skips.out φ) (hU : At φ c₀ s) : At φ c₀ (fireCycle s d p c) := by
  unfold fireCycle
  try dsimp only
  repeat' first
    | with_reducible assumption
    | intro _
    | with_reducible apply ite_inv
    | with_reducible apply waitTick_inv
    | with_reducible apply logDrops_inv
    | with_reducible apply playCycle_inv
    | with_reducible apply setCycle_inv
    | with_reducible apply each_inv
    | with_reducible apply setCtx_inv
    | with_reducible apply retire_inv
    | with_reducible apply ctxAbortNow_inv
    | split

theorem execCycleFire_ansAt {d : Nat} {k : Nat} (i_clock : Skips.clock φ) (i_free : Skips.free φ) (i_regs : Skips.regs φ) (i_ecc : Skips.ecc φ) (i_chutes : Skips.chutes φ) (i_ctxs : Skips.ctxs φ) (i_ports : Skips.ports φ) (i_seamQ : Skips.seamQ φ) (i_echos : Skips.echos φ) (i_mems : Skips.mems φ) (i_trigs : Skips.trigs φ) (i_therms : Skips.therms φ) (i_dies : Skips.dies φ) (i_pcie : Skips.pcie φ) (i_out : Skips.out φ) (hU : At φ c₀ s) : AnsAt φ c₀ (execCycleFire d k s) := by
  unfold execCycleFire
  try dsimp only
  repeat' first
    | with_reducible assumption
    | intro _
    | with_reducible apply ok_ansAt
    | with_reducible apply ite_ansAt
    | with_reducible apply ite_inv
    | with_reducible exact ok_ansAt (by assumption)
    | with_reducible apply freezeAt_inv
    | with_reducible apply fireCycle_inv
    | split

theorem drainEnd_inv {d : Nat} {k0 : Nat} (i_regs : Skips.regs φ) (i_ecc : Skips.ecc φ) (i_chutes : Skips.chutes φ) (i_ctxs : Skips.ctxs φ) (i_ports : Skips.ports φ) (i_seamQ : Skips.seamQ φ) (i_echos : Skips.echos φ) (i_mems : Skips.mems φ) (i_trigs : Skips.trigs φ) (i_dies : Skips.dies φ) (i_pcie : Skips.pcie φ) (i_out : Skips.out φ) (hU : At φ c₀ s) : At φ c₀ (drainEnd s d k0) := by
  unfold drainEnd
  try dsimp only
  repeat' first
    | with_reducible assumption
    | intro _
    | with_reducible apply ite_inv
    | with_reducible apply ctxMove_inv
    | with_reducible apply each_inv
    | with_reducible apply ctxEnter_inv
    | split

theorem execDrainComplete_ansAt {d : Nat} {k0 : Nat} (i_regs : Skips.regs φ) (i_ecc : Skips.ecc φ) (i_chutes : Skips.chutes φ) (i_ctxs : Skips.ctxs φ) (i_ports : Skips.ports φ) (i_seamQ : Skips.seamQ φ) (i_echos : Skips.echos φ) (i_mems : Skips.mems φ) (i_trigs : Skips.trigs φ) (i_dies : Skips.dies φ) (i_pcie : Skips.pcie φ) (i_out : Skips.out φ) (hU : At φ c₀ s) : AnsAt φ c₀ (execDrainComplete d k0 s) := by
  unfold execDrainComplete
  try dsimp only
  repeat' first
    | with_reducible assumption
    | intro _
    | with_reducible apply ok_ansAt
    | with_reducible apply ite_ansAt
    | with_reducible apply ite_inv
    | with_reducible exact ok_ansAt (by assumption)
    | with_reducible apply drainEnd_inv
    | split

theorem stallRecord_inv {d : Nat} {k : Nat} {fence : Bool} (i_regs : Skips.regs φ) (i_chutes : Skips.chutes φ) (i_ctxs : Skips.ctxs φ) (i_ports : Skips.ports φ) (i_trigs : Skips.trigs φ) (i_dies : Skips.dies φ) (i_pcie : Skips.pcie φ) (i_out : Skips.out φ) (hU : At φ c₀ s) : At φ c₀ (stallRecord s d k fence) := by
  unfold stallRecord
  try dsimp only
  repeat' first
    | with_reducible assumption
    | intro _
    | with_reducible apply ite_inv
    | with_reducible apply logRecord_inv
    | with_reducible apply setPort_inv
    | with_reducible apply setCtx_inv
    | split

theorem stallNow_inv {d : Nat} {k : Nat} (i_regs : Skips.regs φ) (i_ecc : Skips.ecc φ) (i_chutes : Skips.chutes φ) (i_ctxs : Skips.ctxs φ) (i_ports : Skips.ports φ) (i_seamQ : Skips.seamQ φ) (i_echos : Skips.echos φ) (i_mems : Skips.mems φ) (i_trigs : Skips.trigs φ) (i_dies : Skips.dies φ) (i_pcie : Skips.pcie φ) (i_out : Skips.out φ) (hU : At φ c₀ s) : At φ c₀ (stallNow s d k) := by
  unfold stallNow
  try dsimp only
  repeat' first
    | with_reducible assumption
    | intro _
    | with_reducible apply ite_inv
    | with_reducible apply setCtx_inv
    | with_reducible apply stallRecord_inv
    | with_reducible apply ctxEvt_inv
    | with_reducible apply ctxFence_inv
    | with_reducible apply ctxMove_inv
    | split

theorem execStall_ansAt {d : Nat} {k : Nat} (i_clock : Skips.clock φ) (i_regs : Skips.regs φ) (i_ecc : Skips.ecc φ) (i_chutes : Skips.chutes φ) (i_ctxs : Skips.ctxs φ) (i_ports : Skips.ports φ) (i_seamQ : Skips.seamQ φ) (i_echos : Skips.echos φ) (i_mems : Skips.mems φ) (i_trigs : Skips.trigs φ) (i_dies : Skips.dies φ) (i_pcie : Skips.pcie φ) (i_out : Skips.out φ) (hU : At φ c₀ s) : AnsAt φ c₀ (execStall d k s) := by
  unfold execStall
  try dsimp only
  repeat' first
    | with_reducible assumption
    | intro _
    | with_reducible apply ok_ansAt
    | with_reducible apply ite_ansAt
    | with_reducible apply ite_inv
    | with_reducible exact ok_ansAt (by assumption)
    | with_reducible apply stallNow_inv
    | with_reducible apply waitClock_inv
    | split

end Sys2Proof.Laws
end

