-- ==== Sys2Proof/Laws/LoadInv.lean ====
section
/-!
SUPPORT. The fields of the state that each operation of `Machine/Load.lean` may change: whatever reads none of them is the same after it.
-/

set_option Elab.async false
set_option linter.unusedTactic false
set_option linter.unreachableTactic false
namespace Sys2Proof.Laws

open Sys2Proof.Machine

variable {α₀ : Type} {φ : State → α₀} {c₀ : α₀} {s : State}

theorem setLoad_inv {d : Nat} {p : Nat} {st : Nat} (i_regs : Skips.regs φ) (hU : At φ c₀ s) : At φ c₀ (setLoad s d p st) := by
  unfold setLoad
  try dsimp only
  repeat' first
    | with_reducible assumption
    | intro _
    | with_reducible apply ite_inv
    | with_reducible apply wf_inv
    | split

theorem loadStart_inv {d : Nat} {p : Nat} {b : Nat} (i_regs : Skips.regs φ) (i_ports : Skips.ports φ) (i_pcie : Skips.pcie φ) (i_out : Skips.out φ) (hU : At φ c₀ s) : At φ c₀ (loadStart s d p b) := by
  unfold loadStart
  try dsimp only
  repeat' first
    | with_reducible assumption
    | intro _
    | with_reducible apply ite_inv
    | with_reducible apply wr_inv
    | with_reducible apply loadFail_inv
    | with_reducible apply wf_inv
    | with_reducible apply setLoad_inv
    | with_reducible apply setPort_inv
    | split

theorem wfCtrlEff_inv {r : Req} {d : Nat} {p : Nat} {v : Word} (i_regs : Skips.regs φ) (i_ports : Skips.ports φ) (i_pcie : Skips.pcie φ) (i_out : Skips.out φ) (hU : At φ c₀ s) : At φ c₀ (wfCtrlEff r d p v s) := by
  unfold wfCtrlEff
  try dsimp only
  repeat' first
    | with_reducible assumption
    | intro _
    | with_reducible apply ite_inv
    | with_reducible apply logErr_inv
    | with_reducible apply wf_inv
    | with_reducible apply loadStart_inv
    | split

theorem execWfLoadStart_ansAt {r : Req} {d : Nat} {p : Nat} {v : Word} (i_regs : Skips.regs φ) (i_ports : Skips.ports φ) (i_dies : Skips.dies φ) (i_pcie : Skips.pcie φ) (i_resp : Skips.resp φ) (i_out : Skips.out φ) (hU : At φ c₀ s) : AnsAt φ c₀ (execWfLoadStart r d p v s) := by
  unfold execWfLoadStart
  try dsimp only
  repeat' first
    | with_reducible assumption
    | intro _
    | with_reducible apply ok_ansAt
    | with_reducible apply ite_ansAt
    | with_reducible apply ite_inv
    | with_reducible exact ok_ansAt (by assumption)
    | with_reducible apply guardedWrite_inv
    | with_reducible apply wfCtrlEff_inv
    | split

theorem loadCopy_inv {d : Nat} {p : Nat} (i_regs : Skips.regs φ) (i_ecc : Skips.ecc φ) (i_chutes : Skips.chutes φ) (i_ports : Skips.ports φ) (i_mems : Skips.mems φ) (i_trigs : Skips.trigs φ) (i_dies : Skips.dies φ) (i_pcie : Skips.pcie φ) (i_out : Skips.out φ) (hU : At φ c₀ s) : At φ c₀ (loadCopy s d p) := by
  unfold loadCopy
  try dsimp only
  repeat' first
    | with_reducible assumption
    | intro _
    | with_reducible apply ite_inv
    | with_reducible apply readWords_inv
    | with_reducible apply setLoad_inv
    | with_reducible apply loadFail_inv
    | with_reducible apply setPort_inv
    | with_reducible apply wr_inv
    | (with_reducible refine trip_inv (by assumption) ?_)
    | split

theorem execWfLoadCopy_ansAt {d : Nat} {p : Nat} (i_clock : Skips.clock φ) (i_regs : Skips.regs φ) (i_ecc : Skips.ecc φ) (i_chutes : Skips.chutes φ) (i_ports : Skips.ports φ) (i_mems : Skips.mems φ) (i_trigs : Skips.trigs φ) (i_dies : Skips.dies φ) (i_pcie : Skips.pcie φ) (i_out : Skips.out φ) (hU : At φ c₀ s) : AnsAt φ c₀ (execWfLoadCopy d p s) := by
  unfold execWfLoadCopy
  try dsimp only
  repeat' first
    | with_reducible assumption
    | intro _
    | with_reducible apply ok_ansAt
    | with_reducible apply ite_ansAt
    | with_reducible apply ite_inv
    | with_reducible exact ok_ansAt (by assumption)
    | with_reducible apply loadCopy_inv
    | with_reducible apply each_inv
    | with_reducible apply waitTick_inv
    | split

theorem execWfLoadHead_ansAt {d : Nat} {p : Nat} (i_regs : Skips.regs φ) (i_ports : Skips.ports φ) (i_pcie : Skips.pcie φ) (i_out : Skips.out φ) (hU : At φ c₀ s) : AnsAt φ c₀ (execWfLoadHead d p s) := by
  unfold execWfLoadHead
  try dsimp only
  repeat' first
    | with_reducible assumption
    | intro _
    | with_reducible apply ok_ansAt
    | with_reducible apply ite_ansAt
    | with_reducible apply ite_inv
    | with_reducible exact ok_ansAt (by assumption)
    | with_reducible apply loadFail_inv
    | with_reducible apply setPort_inv
    | split

theorem execLoadDone_ansAt {d : Nat} {p : Nat} (i_regs : Skips.regs φ) (i_ports : Skips.ports φ) (i_pcie : Skips.pcie φ) (i_out : Skips.out φ) (hU : At φ c₀ s) : AnsAt φ c₀ (execLoadDone d p s) := by
  unfold execLoadDone
  try dsimp only
  repeat' first
    | with_reducible assumption
    | intro _
    | with_reducible apply ok_ansAt
    | with_reducible apply ite_ansAt
    | with_reducible apply ite_inv
    | with_reducible apply wf_inv
    | with_reducible apply setLoad_inv
    | with_reducible apply wr_inv
    | with_reducible exact ok_ansAt (by assumption)
    | with_reducible apply raise_inv
    | with_reducible apply setPort_inv
    | split

end Sys2Proof.Laws
end

