-- ==== Sys2Proof/Laws/SypolInv.lean ====
section
/-!
SUPPORT. The fields of the state that each operation of `Machine/Sypol.lean` may change: whatever reads none of them is the same after it.
-/

set_option Elab.async false
set_option linter.unusedTactic false
set_option linter.unreachableTactic false
namespace Sys2Proof.Laws

open Sys2Proof.Machine

variable {α₀ : Type} {φ : State → α₀} {c₀ : α₀} {s : State}

theorem setLink_inv {d : Nat} {p : Nat} {st : Nat} (i_regs : Skips.regs φ) (i_ports : Skips.ports φ) (i_mboxes : Skips.mboxes φ) (i_pcie : Skips.pcie φ) (i_out : Skips.out φ) (hU : At φ c₀ s) : At φ c₀ (setLink s d p st) := by
  unfold setLink
  try dsimp only
  repeat' first
    | with_reducible assumption
    | intro _
    | with_reducible apply ite_inv
    | with_reducible apply streamFollow_inv
    | with_reducible apply linkStat_inv
    | with_reducible apply setPort_inv
    | with_reducible apply whenDo_inv
    | with_reducible apply raise_inv
    | with_reducible apply notice_inv
    | split

theorem frameEnd_inv {d : Nat} {p : Nat} {f : Frame} {good : Bool} (i_regs : Skips.regs φ) (i_ecc : Skips.ecc φ) (i_chutes : Skips.chutes φ) (i_ctxs : Skips.ctxs φ) (i_ports : Skips.ports φ) (i_seamQ : Skips.seamQ φ) (i_echos : Skips.echos φ) (i_mems : Skips.mems φ) (i_trigs : Skips.trigs φ) (i_dies : Skips.dies φ) (i_pcie : Skips.pcie φ) (i_out : Skips.out φ) (hU : At φ c₀ s) : At φ c₀ (frameEnd s d p f good) := by
  unfold frameEnd
  try dsimp only
  repeat' first
    | with_reducible assumption
    | intro _
    | with_reducible apply ite_inv
    | with_reducible apply setPort_inv
    | with_reducible apply loadFail_inv
    | with_reducible apply setCycle_inv
    | with_reducible apply cycleOutcome_inv
    | split

theorem frameLost_inv {d : Nat} {p : Nat} {f : Frame} (i_regs : Skips.regs φ) (i_ecc : Skips.ecc φ) (i_chutes : Skips.chutes φ) (i_ctxs : Skips.ctxs φ) (i_ports : Skips.ports φ) (i_seamQ : Skips.seamQ φ) (i_echos : Skips.echos φ) (i_mems : Skips.mems φ) (i_trigs : Skips.trigs φ) (i_dies : Skips.dies φ) (i_pcie : Skips.pcie φ) (i_out : Skips.out φ) (hU : At φ c₀ s) : At φ c₀ (frameLost s d p f) := by
  unfold frameLost
  try dsimp only
  repeat' first
    | with_reducible assumption
    | intro _
    | with_reducible apply ite_inv
    | with_reducible apply raise_inv
    | with_reducible apply count_inv
    | with_reducible apply frameEnd_inv
    | split

theorem unqueue_inv {d : Nat} {p : Nat} {f : Frame} (i_ports : Skips.ports φ) (hU : At φ c₀ s) : At φ c₀ (unqueue s d p f) := by
  unfold unqueue
  try dsimp only
  repeat' first
    | with_reducible assumption
    | intro _
    | with_reducible apply ite_inv
    | with_reducible apply setPort_inv
    | split

theorem transmit_inv {d : Nat} {p : Nat} {inj : Nat} {f : Frame} (i_regs : Skips.regs φ) (i_ports : Skips.ports φ) (i_out : Skips.out φ) (hU : At φ c₀ s) : At φ c₀ (transmit s d p inj f) := by
  unfold transmit
  try dsimp only
  repeat' first
    | with_reducible assumption
    | intro _
    | with_reducible apply ite_inv
    | with_reducible apply setPort_inv
    | with_reducible apply whenDo_inv
    | with_reducible apply count_inv
    | with_reducible apply setCycle_inv
    | with_reducible apply emit_inv
    | with_reducible apply linkStat_inv
    | split

theorem dropFrame_inv {d : Nat} {p : Nat} {f : Frame} (i_regs : Skips.regs φ) (i_ctxs : Skips.ctxs φ) (i_ports : Skips.ports φ) (hU : At φ c₀ s) : At φ c₀ (dropFrame s d p f) := by
  unfold dropFrame
  try dsimp only
  repeat' first
    | with_reducible assumption
    | intro _
    | with_reducible apply ite_inv
    | with_reducible apply withRetry_inv
    | with_reducible apply setPort_inv
    | split

theorem abandonFrames_inv {d : Nat} {p : Nat} (i_regs : Skips.regs φ) (i_ecc : Skips.ecc φ) (i_chutes : Skips.chutes φ) (i_ctxs : Skips.ctxs φ) (i_ports : Skips.ports φ) (i_seamQ : Skips.seamQ φ) (i_echos : Skips.echos φ) (i_mems : Skips.mems φ) (i_trigs : Skips.trigs φ) (i_dies : Skips.dies φ) (i_pcie : Skips.pcie φ) (i_out : Skips.out φ) (hU : At φ c₀ s) : At φ c₀ (abandonFrames s d p) := by
  unfold abandonFrames
  try dsimp only
  repeat' first
    | with_reducible assumption
    | intro _
    | with_reducible apply ite_inv
    | with_reducible apply linkStat_inv
    | with_reducible apply setPort_inv
    | with_reducible apply each_inv
    | with_reducible apply stallFollow_inv
    | with_reducible apply frameEnd_inv
    | split

theorem retrain_inv {d : Nat} {p : Nat} {cause : Nat} (i_regs : Skips.regs φ) (i_ecc : Skips.ecc φ) (i_chutes : Skips.chutes φ) (i_ctxs : Skips.ctxs φ) (i_ports : Skips.ports φ) (i_seamQ : Skips.seamQ φ) (i_echos : Skips.echos φ) (i_mems : Skips.mems φ) (i_trigs : Skips.trigs φ) (i_mboxes : Skips.mboxes φ) (i_dies : Skips.dies φ) (i_pcie : Skips.pcie φ) (i_out : Skips.out φ) (hU : At φ c₀ s) : At φ c₀ (retrain s d p cause) := by
  unfold retrain
  try dsimp only
  repeat' first
    | with_reducible assumption
    | intro _
    | with_reducible apply ite_inv
    | with_reducible apply setLink_inv
    | with_reducible apply count_inv
    | with_reducible apply abandonFrames_inv
    | with_reducible apply setPort_inv
    | split

theorem giveUp_inv {d : Nat} {p : Nat} {f : Frame} (i_regs : Skips.regs φ) (i_ecc : Skips.ecc φ) (i_chutes : Skips.chutes φ) (i_ctxs : Skips.ctxs φ) (i_ports : Skips.ports φ) (i_seamQ : Skips.seamQ φ) (i_echos : Skips.echos φ) (i_mems : Skips.mems φ) (i_trigs : Skips.trigs φ) (i_mboxes : Skips.mboxes φ) (i_dies : Skips.dies φ) (i_pcie : Skips.pcie φ) (i_out : Skips.out φ) (hU : At φ c₀ s) : At φ c₀ (giveUp s d p f) := by
  unfold giveUp
  try dsimp only
  repeat' first
    | with_reducible assumption
    | intro _
    | with_reducible apply ite_inv
    | with_reducible apply raise_inv
    | with_reducible apply count_inv
    | with_reducible apply dropFrame_inv
    | with_reducible apply setPort_inv
    | with_reducible apply frameLost_inv
    | with_reducible apply retrain_inv
    | split

theorem retransmit_inv {d : Nat} {p : Nat} {f : Frame} (i_regs : Skips.regs φ) (i_ctxs : Skips.ctxs φ) (i_ports : Skips.ports φ) (i_pcie : Skips.pcie φ) (i_out : Skips.out φ) (hU : At φ c₀ s) : At φ c₀ (retransmit s d p f) := by
  unfold retransmit
  try dsimp only
  repeat' first
    | with_reducible assumption
    | intro _
    | with_reducible apply ite_inv
    | with_reducible apply raise_inv
    | with_reducible apply count_inv
    | with_reducible apply withRetry_inv
    | with_reducible apply setPort_inv
    | split

theorem sendOrLose_inv {d : Nat} {p : Nat} {inj : Nat} {f : Frame} (i_regs : Skips.regs φ) (i_ecc : Skips.ecc φ) (i_chutes : Skips.chutes φ) (i_ctxs : Skips.ctxs φ) (i_ports : Skips.ports φ) (i_seamQ : Skips.seamQ φ) (i_echos : Skips.echos φ) (i_mems : Skips.mems φ) (i_trigs : Skips.trigs φ) (i_mboxes : Skips.mboxes φ) (i_dies : Skips.dies φ) (i_pcie : Skips.pcie φ) (i_out : Skips.out φ) (hU : At φ c₀ s) : At φ c₀ (sendOrLose s d p inj f) := by
  unfold sendOrLose
  try dsimp only
  repeat' first
    | with_reducible assumption
    | intro _
    | with_reducible apply ite_inv
    | with_reducible apply transmit_inv
    | with_reducible apply frameLost_inv
    | with_reducible apply giveUp_inv
    | with_reducible apply queueFrame_inv
    | split

theorem stopNow_inv {d : Nat} {p : Nat} (i_clock : Skips.clock φ) (i_regs : Skips.regs φ) (i_ports : Skips.ports φ) (i_dies : Skips.dies φ) (i_pcie : Skips.pcie φ) (i_out : Skips.out φ) (hU : At φ c₀ s) : At φ c₀ (stopNow s d p) := by
  unfold stopNow
  try dsimp only
  repeat' first
    | with_reducible assumption
    | intro _
    | with_reducible apply ite_inv
    | with_reducible apply waitTick_inv
    | with_reducible apply setPort_inv
    | split

theorem sendNext_inv {d : Nat} {p : Nat} {f : Frame} (i_regs : Skips.regs φ) (i_ecc : Skips.ecc φ) (i_chutes : Skips.chutes φ) (i_ctxs : Skips.ctxs φ) (i_ports : Skips.ports φ) (i_seamQ : Skips.seamQ φ) (i_echos : Skips.echos φ) (i_mems : Skips.mems φ) (i_trigs : Skips.trigs φ) (i_mboxes : Skips.mboxes φ) (i_dies : Skips.dies φ) (i_pcie : Skips.pcie φ) (i_out : Skips.out φ) (hU : At φ c₀ s) : At φ c₀ (sendNext s d p f) := by
  unfold sendNext
  try dsimp only
  repeat' first
    | with_reducible assumption
    | intro _
    | with_reducible apply ite_inv
    | with_reducible apply injPick_inv
    | with_reducible apply setPort_inv
    | with_reducible apply sendOrLose_inv
    | (with_reducible refine pair_inv (by assumption) ?_)
    | split

theorem frameSend_inv {d : Nat} {p : Nat} (i_clock : Skips.clock φ) (i_regs : Skips.regs φ) (i_ecc : Skips.ecc φ) (i_chutes : Skips.chutes φ) (i_ctxs : Skips.ctxs φ) (i_ports : Skips.ports φ) (i_seamQ : Skips.seamQ φ) (i_echos : Skips.echos φ) (i_mems : Skips.mems φ) (i_trigs : Skips.trigs φ) (i_mboxes : Skips.mboxes φ) (i_dies : Skips.dies φ) (i_pcie : Skips.pcie φ) (i_out : Skips.out φ) (hU : At φ c₀ s) : At φ c₀ (frameSend s d p) := by
  unfold frameSend
  try dsimp only
  repeat' first
    | with_reducible assumption
    | intro _
    | with_reducible apply ite_inv
    | with_reducible apply stopNow_inv
    | with_reducible apply waitClock_inv
    | with_reducible apply sendOrLose_inv
    | with_reducible apply setPort_inv
    | with_reducible apply sendNext_inv
    | with_reducible apply unqueue_inv
    | split

theorem execFrameSend_ansAt {d : Nat} {p : Nat} (i_clock : Skips.clock φ) (i_regs : Skips.regs φ) (i_ecc : Skips.ecc φ) (i_chutes : Skips.chutes φ) (i_ctxs : Skips.ctxs φ) (i_ports : Skips.ports φ) (i_seamQ : Skips.seamQ φ) (i_echos : Skips.echos φ) (i_mems : Skips.mems φ) (i_trigs : Skips.trigs φ) (i_mboxes : Skips.mboxes φ) (i_dies : Skips.dies φ) (i_pcie : Skips.pcie φ) (i_out : Skips.out φ) (hU : At φ c₀ s) : AnsAt φ c₀ (execFrameSend d p s) := by
  unfold execFrameSend
  try dsimp only
  repeat' first
    | with_reducible assumption
    | intro _
    | with_reducible apply ok_ansAt
    | with_reducible apply ite_ansAt
    | with_reducible apply ite_inv
    | with_reducible exact ok_ansAt (by assumption)
    | with_reducible apply frameSend_inv
    | split

theorem upBad_inv {d : Nat} {p : Nat} (i_regs : Skips.regs φ) (i_pcie : Skips.pcie φ) (i_out : Skips.out φ) (hU : At φ c₀ s) : At φ c₀ (upBad s d p) := by
  unfold upBad
  try dsimp only
  repeat' first
    | with_reducible assumption
    | intro _
    | with_reducible apply ite_inv
    | with_reducible apply raise_inv
    | with_reducible apply count_inv
    | split

theorem awaitEof_inv {f : Frame} (i_clock : Skips.clock φ) (i_regs : Skips.regs φ) (i_dies : Skips.dies φ) (i_pcie : Skips.pcie φ) (i_out : Skips.out φ) (hU : At φ c₀ s) : At φ c₀ (awaitEof s f) := by
  unfold awaitEof
  try dsimp only
  repeat' first
    | with_reducible assumption
    | intro _
    | with_reducible apply ite_inv
    | with_reducible apply waitClock_inv
    | split

theorem ackTake_inv {d : Nat} {p : Nat} {w : Word} (i_regs : Skips.regs φ) (i_ecc : Skips.ecc φ) (i_chutes : Skips.chutes φ) (i_ctxs : Skips.ctxs φ) (i_ports : Skips.ports φ) (i_seamQ : Skips.seamQ φ) (i_echos : Skips.echos φ) (i_mems : Skips.mems φ) (i_trigs : Skips.trigs φ) (i_dies : Skips.dies φ) (i_pcie : Skips.pcie φ) (i_out : Skips.out φ) (hU : At φ c₀ s) : At φ c₀ (ackTake s d p w) := by
  unfold ackTake
  try dsimp only
  repeat' first
    | with_reducible assumption
    | intro _
    | with_reducible apply ite_inv
    | with_reducible apply count_inv
    | with_reducible apply raise_inv
    | with_reducible apply dropFrame_inv
    | with_reducible apply frameEnd_inv
    | with_reducible apply logRecord_inv
    | with_reducible apply setPort_inv
    | split

theorem headFault_inv {d : Nat} {p : Nat} (i_regs : Skips.regs φ) (i_pcie : Skips.pcie φ) (i_out : Skips.out φ) (hU : At φ c₀ s) : At φ c₀ (headFault s d p) := by
  unfold headFault
  try dsimp only
  repeat' first
    | with_reducible assumption
    | intro _
    | with_reducible apply ite_inv
    | with_reducible apply setDyn_inv
    | split

theorem flagFollow_inv {d : Nat} {p : Nat} (i_regs : Skips.regs φ) (i_ports : Skips.ports φ) (i_therms : Skips.therms φ) (hU : At φ c₀ s) : At φ c₀ (flagFollow s d p) := by
  unfold flagFollow
  try dsimp only
  repeat' first
    | with_reducible assumption
    | intro _
    | with_reducible apply ite_inv
    | with_reducible apply wb_inv
    | with_reducible apply whenDo_inv
    | with_reducible apply setTherm_inv
    | split
    | with_reducible refine At.step (i_ports _ _) ?_

theorem statusTake_inv {d : Nat} {p : Nat} {ws : List Word} (i_regs : Skips.regs φ) (i_ports : Skips.ports φ) (i_therms : Skips.therms φ) (i_pcie : Skips.pcie φ) (i_out : Skips.out φ) (hU : At φ c₀ s) : At φ c₀ (statusTake s d p ws) := by
  unfold statusTake
  try dsimp only
  repeat' first
    | with_reducible assumption
    | intro _
    | with_reducible apply ite_inv
    | with_reducible apply wr_inv
    | with_reducible apply countBy_inv
    | with_reducible apply headFault_inv
    | with_reducible apply flagFollow_inv
    | with_reducible apply setPort_inv
    | split

theorem ackAwait_inv {d : Nat} {p : Nat} {w : Word} (i_clock : Skips.clock φ) (i_regs : Skips.regs φ) (i_dies : Skips.dies φ) (i_pcie : Skips.pcie φ) (i_out : Skips.out φ) (hU : At φ c₀ s) : At φ c₀ (ackAwait s d p w) := by
  unfold ackAwait
  try dsimp only
  repeat' first
    | with_reducible assumption
    | intro _
    | with_reducible apply ite_inv
    | with_reducible apply awaitEof_inv
    | split

theorem upTake_inv {d : Nat} {p : Nat} {ws : List Word} (i_clock : Skips.clock φ) (i_regs : Skips.regs φ) (i_ecc : Skips.ecc φ) (i_chutes : Skips.chutes φ) (i_ctxs : Skips.ctxs φ) (i_ports : Skips.ports φ) (i_seamQ : Skips.seamQ φ) (i_echos : Skips.echos φ) (i_mems : Skips.mems φ) (i_trigs : Skips.trigs φ) (i_therms : Skips.therms φ) (i_dies : Skips.dies φ) (i_pcie : Skips.pcie φ) (i_out : Skips.out φ) (hU : At φ c₀ s) : At φ c₀ (upTake s d p ws) := by
  unfold upTake
  try dsimp only
  repeat' first
    | with_reducible assumption
    | intro _
    | with_reducible apply ite_inv
    | with_reducible apply ackTake_inv
    | with_reducible apply ackAwait_inv
    | with_reducible apply statusTake_inv
    | split

theorem upFrame_inv {d : Nat} {p : Nat} {cs : List Chr} (i_clock : Skips.clock φ) (i_regs : Skips.regs φ) (i_ecc : Skips.ecc φ) (i_chutes : Skips.chutes φ) (i_ctxs : Skips.ctxs φ) (i_ports : Skips.ports φ) (i_seamQ : Skips.seamQ φ) (i_echos : Skips.echos φ) (i_mems : Skips.mems φ) (i_trigs : Skips.trigs φ) (i_therms : Skips.therms φ) (i_dies : Skips.dies φ) (i_pcie : Skips.pcie φ) (i_out : Skips.out φ) (hU : At φ c₀ s) : At φ c₀ (upFrame s d p cs) := by
  unfold upFrame
  try dsimp only
  repeat' first
    | with_reducible assumption
    | intro _
    | with_reducible apply ite_inv
    | with_reducible apply upBad_inv
    | with_reducible apply injPick_inv
    | with_reducible apply setPort_inv
    | with_reducible apply each_inv
    | with_reducible apply upTake_inv
    | (with_reducible refine pair_inv (by assumption) ?_)
    | split

theorem execAckReceive_ansAt {d : Nat} {p : Nat} {cs : List Chr} (i_clock : Skips.clock φ) (i_regs : Skips.regs φ) (i_ecc : Skips.ecc φ) (i_chutes : Skips.chutes φ) (i_ctxs : Skips.ctxs φ) (i_ports : Skips.ports φ) (i_seamQ : Skips.seamQ φ) (i_echos : Skips.echos φ) (i_mems : Skips.mems φ) (i_trigs : Skips.trigs φ) (i_therms : Skips.therms φ) (i_dies : Skips.dies φ) (i_pcie : Skips.pcie φ) (i_out : Skips.out φ) (hU : At φ c₀ s) : AnsAt φ c₀ (execAckReceive d p cs s) := by
  unfold execAckReceive
  try dsimp only
  repeat' first
    | with_reducible assumption
    | intro _
    | with_reducible apply ok_ansAt
    | with_reducible apply ite_ansAt
    | with_reducible apply ite_inv
    | with_reducible exact ok_ansAt (by assumption)
    | with_reducible apply upFrame_inv
    | split

theorem execStatusReceive_ansAt {d : Nat} {p : Nat} {cs : List Chr} (i_clock : Skips.clock φ) (i_regs : Skips.regs φ) (i_ecc : Skips.ecc φ) (i_chutes : Skips.chutes φ) (i_ctxs : Skips.ctxs φ) (i_ports : Skips.ports φ) (i_seamQ : Skips.seamQ φ) (i_echos : Skips.echos φ) (i_mems : Skips.mems φ) (i_trigs : Skips.trigs φ) (i_therms : Skips.therms φ) (i_dies : Skips.dies φ) (i_pcie : Skips.pcie φ) (i_out : Skips.out φ) (hU : At φ c₀ s) : AnsAt φ c₀ (execStatusReceive d p cs s) := by
  unfold execStatusReceive
  try dsimp only
  repeat' first
    | with_reducible assumption
    | intro _
    | with_reducible apply ok_ansAt
    | with_reducible apply ite_ansAt
    | with_reducible apply ite_inv
    | with_reducible exact ok_ansAt (by assumption)
    | with_reducible apply upFrame_inv
    | split

theorem ackTimeout_inv {d : Nat} {p : Nat} {f : Frame} (i_regs : Skips.regs φ) (i_ecc : Skips.ecc φ) (i_chutes : Skips.chutes φ) (i_ctxs : Skips.ctxs φ) (i_ports : Skips.ports φ) (i_seamQ : Skips.seamQ φ) (i_echos : Skips.echos φ) (i_mems : Skips.mems φ) (i_trigs : Skips.trigs φ) (i_mboxes : Skips.mboxes φ) (i_dies : Skips.dies φ) (i_pcie : Skips.pcie φ) (i_out : Skips.out φ) (hU : At φ c₀ s) : At φ c₀ (ackTimeout s d p f) := by
  unfold ackTimeout
  try dsimp only
  repeat' first
    | with_reducible assumption
    | intro _
    | with_reducible apply ite_inv
    | with_reducible apply retransmit_inv
    | with_reducible apply giveUp_inv
    | with_reducible apply queueFrame_inv
    | split

theorem execAckTimeout_ansAt {d : Nat} {p : Nat} {q : Nat} (i_clock : Skips.clock φ) (i_regs : Skips.regs φ) (i_ecc : Skips.ecc φ) (i_chutes : Skips.chutes φ) (i_ctxs : Skips.ctxs φ) (i_ports : Skips.ports φ) (i_seamQ : Skips.seamQ φ) (i_echos : Skips.echos φ) (i_mems : Skips.mems φ) (i_trigs : Skips.trigs φ) (i_mboxes : Skips.mboxes φ) (i_dies : Skips.dies φ) (i_pcie : Skips.pcie φ) (i_out : Skips.out φ) (hU : At φ c₀ s) : AnsAt φ c₀ (execAckTimeout d p q s) := by
  unfold execAckTimeout
  try dsimp only
  repeat' first
    | with_reducible assumption
    | intro _
    | with_reducible apply ok_ansAt
    | with_reducible apply ite_ansAt
    | with_reducible apply ite_inv
    | with_reducible exact ok_ansAt (by assumption)
    | with_reducible apply ackTimeout_inv
    | with_reducible apply waitClock_inv
    | split

theorem execStatusStale_ansAt {d : Nat} {p : Nat} (i_clock : Skips.clock φ) (i_regs : Skips.regs φ) (i_dies : Skips.dies φ) (i_pcie : Skips.pcie φ) (i_out : Skips.out φ) (hU : At φ c₀ s) : AnsAt φ c₀ (execStatusStale d p s) := by
  unfold execStatusStale
  try dsimp only
  repeat' first
    | with_reducible assumption
    | intro _
    | with_reducible apply ok_ansAt
    | with_reducible apply ite_ansAt
    | with_reducible apply ite_inv
    | with_reducible exact ok_ansAt (by assumption)
    | with_reducible apply headFault_inv
    | with_reducible apply wb_inv
    | with_reducible apply waitClock_inv
    | split

theorem execUpstreamCodeErrors_ansAt {d : Nat} {p : Nat} (i_regs : Skips.regs φ) (i_ecc : Skips.ecc φ) (i_chutes : Skips.chutes φ) (i_ctxs : Skips.ctxs φ) (i_ports : Skips.ports φ) (i_seamQ : Skips.seamQ φ) (i_echos : Skips.echos φ) (i_mems : Skips.mems φ) (i_trigs : Skips.trigs φ) (i_mboxes : Skips.mboxes φ) (i_dies : Skips.dies φ) (i_pcie : Skips.pcie φ) (i_out : Skips.out φ) (hU : At φ c₀ s) : AnsAt φ c₀ (execUpstreamCodeErrors d p s) := by
  unfold execUpstreamCodeErrors
  try dsimp only
  repeat' first
    | with_reducible assumption
    | intro _
    | with_reducible apply ok_ansAt
    | with_reducible apply ite_ansAt
    | with_reducible apply ite_inv
    | with_reducible exact ok_ansAt (by assumption)
    | with_reducible apply retrain_inv
    | split

theorem linkFail_inv {d : Nat} {p : Nat} {code : Nat} (i_regs : Skips.regs φ) (i_ports : Skips.ports φ) (i_mboxes : Skips.mboxes φ) (i_pcie : Skips.pcie φ) (i_out : Skips.out φ) (hU : At φ c₀ s) : At φ c₀ (linkFail s d p code) := by
  unfold linkFail
  try dsimp only
  repeat' first
    | with_reducible assumption
    | intro _
    | with_reducible apply ite_inv
    | with_reducible apply setLink_inv
    | with_reducible apply wf_inv
    | with_reducible apply raise_inv
    | with_reducible apply setPort_inv
    | split

theorem copyRecord_inv {d : Nat} {p : Nat} {l : List Byte} (i_regs : Skips.regs φ) (hU : At φ c₀ s) : At φ c₀ (copyRecord s d p l) := by
  unfold copyRecord
  try dsimp only
  repeat' first
    | with_reducible assumption
    | intro _
    | with_reducible apply ite_inv
    | with_reducible apply wr_inv
    | with_reducible apply wr48_inv
    | split

theorem discover_inv {d : Nat} {p : Nat} {ans : Option (List Byte)} (i_regs : Skips.regs φ) (i_ports : Skips.ports φ) (i_mboxes : Skips.mboxes φ) (i_pcie : Skips.pcie φ) (i_out : Skips.out φ) (hU : At φ c₀ s) : At φ c₀ (discover s d p ans) := by
  unfold discover
  try dsimp only
  repeat' first
    | with_reducible assumption
    | intro _
    | with_reducible apply ite_inv
    | with_reducible apply linkFail_inv
    | with_reducible apply copyRecord_inv
    | with_reducible apply setPort_inv
    | with_reducible apply emit_inv
    | with_reducible apply setLink_inv
    | split

theorem execLinkDiscovery_ansAt {d : Nat} {p : Nat} {ans : Option (List Byte)} (i_regs : Skips.regs φ) (i_ports : Skips.ports φ) (i_mboxes : Skips.mboxes φ) (i_pcie : Skips.pcie φ) (i_out : Skips.out φ) (hU : At φ c₀ s) : AnsAt φ c₀ (execLinkDiscovery d p ans s) := by
  unfold execLinkDiscovery
  try dsimp only
  repeat' first
    | with_reducible assumption
    | intro _
    | with_reducible apply ok_ansAt
    | with_reducible apply ite_ansAt
    | with_reducible apply ite_inv
    | with_reducible exact ok_ansAt (by assumption)
    | with_reducible apply discover_inv
    | split

theorem execDiscoveryRepeat_ansAt {d : Nat} {p : Nat} (i_clock : Skips.clock φ) (i_regs : Skips.regs φ) (i_ports : Skips.ports φ) (i_mboxes : Skips.mboxes φ) (i_dies : Skips.dies φ) (i_pcie : Skips.pcie φ) (i_out : Skips.out φ) (hU : At φ c₀ s) : AnsAt φ c₀ (execDiscoveryRepeat d p s) := by
  unfold execDiscoveryRepeat
  try dsimp only
  repeat' first
    | with_reducible assumption
    | intro _
    | with_reducible apply ok_ansAt
    | with_reducible apply ite_ansAt
    | with_reducible apply ite_inv
    | with_reducible exact ok_ansAt (by assumption)
    | with_reducible apply setLink_inv
    | with_reducible apply waitClock_inv
    | split

theorem portRunning_inv {d : Nat} {p : Nat} (i_regs : Skips.regs φ) (i_ports : Skips.ports φ) (i_pcie : Skips.pcie φ) (i_out : Skips.out φ) (hU : At φ c₀ s) : At φ c₀ (portRunning s d p) := by
  unfold portRunning
  try dsimp only
  repeat' first
    | with_reducible assumption
    | intro _
    | with_reducible apply ite_inv
    | with_reducible apply setPstate_inv
    | with_reducible apply setPort_inv
    | with_reducible apply streamFollow_inv
    | with_reducible apply htrFollow_inv
    | split

theorem trainSets_inv {d : Nat} {p : Nat} {n : Nat} (i_out : Skips.out φ) (hU : At φ c₀ s) : At φ c₀ (trainSets s d p n) := by
  unfold trainSets
  try dsimp only
  repeat' first
    | with_reducible assumption
    | intro _
    | with_reducible apply ite_inv
    | with_reducible apply whenDo_inv
    | with_reducible apply emit_inv
    | split

theorem linkUp_inv {d : Nat} {p : Nat} (i_regs : Skips.regs φ) (i_ports : Skips.ports φ) (i_mboxes : Skips.mboxes φ) (i_pcie : Skips.pcie φ) (i_out : Skips.out φ) (hU : At φ c₀ s) : At φ c₀ (linkUp s d p) := by
  unfold linkUp
  try dsimp only
  repeat' first
    | with_reducible assumption
    | intro _
    | with_reducible apply ite_inv
    | with_reducible apply trainSets_inv
    | with_reducible apply setLink_inv
    | with_reducible apply setPort_inv
    | with_reducible apply wb_inv
    | with_reducible apply portRunning_inv
    | split

theorem execLinkUp_ansAt {d : Nat} {p : Nat} (i_regs : Skips.regs φ) (i_ports : Skips.ports φ) (i_mboxes : Skips.mboxes φ) (i_pcie : Skips.pcie φ) (i_out : Skips.out φ) (hU : At φ c₀ s) : AnsAt φ c₀ (execLinkUp d p s) := by
  unfold execLinkUp
  try dsimp only
  repeat' first
    | with_reducible assumption
    | intro _
    | with_reducible apply ok_ansAt
    | with_reducible apply ite_ansAt
    | with_reducible apply ite_inv
    | with_reducible exact ok_ansAt (by assumption)
    | with_reducible apply linkUp_inv
    | split

end Sys2Proof.Laws
end

