-- ==== Sys2Proof/Laws/EchoInv.lean ====
section
/-!
SUPPORT. The fields of the state that each operation of `Machine/Echo.lean` may change: whatever reads none of them is the same after it.
-/

set_option Elab.async false
set_option linter.unusedTactic false
set_option linter.unreachableTactic false
namespace Sys2Proof.Laws

open Sys2Proof.Machine

variable {α₀ : Type} {φ : State → α₀} {c₀ : α₀} {s : State}

theorem readEntry_inv {d : Nat} {ptr : Nat} {i : Nat} (i_regs : Skips.regs φ) (i_ecc : Skips.ecc φ) (i_chutes : Skips.chutes φ) (i_mems : Skips.mems φ) (i_trigs : Skips.trigs φ) (i_dies : Skips.dies φ) (i_pcie : Skips.pcie φ) (i_out : Skips.out φ) (hU : At φ c₀ s) : At φ c₀ (readEntry s d ptr i).2 := by
  unfold readEntry
  try dsimp only
  repeat' first
    | with_reducible assumption
    | intro _
    | with_reducible apply ite_inv
    | with_reducible apply readWords_inv
    | (with_reducible refine trip_inv (by assumption) ?_)
    | split

theorem writeEntry_inv {d : Nat} {k : Nat} {ptr : Nat} {i : Nat} {x : NozEntry} (i_mem : Skips.mem φ) (i_ecc : Skips.ecc φ) (i_ctxs : Skips.ctxs φ) (hU : At φ c₀ s) : At φ c₀ (writeEntry s d k ptr i x) := by
  unfold writeEntry
  try dsimp only
  repeat' first
    | with_reducible assumption
    | intro _
    | with_reducible apply ite_inv
    | with_reducible apply lodeWrites_inv
    | with_reducible apply setCtx_inv
    | split

theorem features_inv {h8 : Int} {base : List Nat} {win : List Nat} (i_free : Skips.free φ) (hU : At φ c₀ s) : At φ c₀ (features s h8 base win).2 := by
  unfold features
  try dsimp only
  repeat' first
    | with_reducible assumption
    | intro _
    | with_reducible apply ite_inv
    | with_reducible apply nextFree_inv
    | split

theorem judge_inv {d : Nat} {m : Meas} {x : NozEntry} {base : List Nat} {win : List Nat} (i_free : Skips.free φ) (hU : At φ c₀ s) : At φ c₀ (judge s d m x base win).2 := by
  unfold judge
  try dsimp only
  repeat' first
    | with_reducible assumption
    | intro _
    | with_reducible apply ite_inv
    | with_reducible apply features_inv
    | with_reducible apply nextFree_inv
    | (with_reducible refine pair_inv (by assumption) ?_)
    | split

theorem trimStep_inv {d : Nat} {k : Nat} {i : Nat} {x : NozEntry} {dist : Nat} (i_regs : Skips.regs φ) (i_chutes : Skips.chutes φ) (i_trigs : Skips.trigs φ) (i_dies : Skips.dies φ) (i_pcie : Skips.pcie φ) (i_out : Skips.out φ) (hU : At φ c₀ s) : At φ c₀ (trimStep s d k i x dist).2 := by
  unfold trimStep
  try dsimp only
  repeat' first
    | with_reducible assumption
    | intro _
    | with_reducible apply ite_inv
    | with_reducible apply raise_inv
    | with_reducible apply count_inv
    | with_reducible apply nozRecord_inv
    | split

theorem applyValid_inv {d : Nat} {k : Nat} {i : Nat} {x0 : NozEntry} {v : Verd} (i_regs : Skips.regs φ) (i_chutes : Skips.chutes φ) (i_trigs : Skips.trigs φ) (i_dies : Skips.dies φ) (i_pcie : Skips.pcie φ) (i_out : Skips.out φ) (hU : At φ c₀ s) : At φ c₀ (applyValid s d k i x0 v).2 := by
  unfold applyValid
  try dsimp only
  repeat' first
    | with_reducible assumption
    | intro _
    | with_reducible apply ite_inv
    | with_reducible apply raise_inv
    | with_reducible apply count_inv
    | with_reducible apply nozRecord_inv
    | with_reducible apply trimStep_inv
    | (with_reducible refine pair_inv (by assumption) ?_)
    | split

theorem resultRecord_inv {d : Nat} {m : Meas} {v : Verd} (i_regs : Skips.regs φ) (i_chutes : Skips.chutes φ) (i_trigs : Skips.trigs φ) (i_dies : Skips.dies φ) (i_pcie : Skips.pcie φ) (i_out : Skips.out φ) (hU : At φ c₀ s) : At φ c₀ (resultRecord s d m v) := by
  unfold resultRecord
  try dsimp only
  repeat' first
    | with_reducible assumption
    | intro _
    | with_reducible apply ite_inv
    | with_reducible apply setDie_inv
    | with_reducible apply chuteRecord_inv
    | split

theorem sweepResult_inv {d : Nat} {m : Meas} {v : Verd} (i_regs : Skips.regs φ) (i_mem : Skips.mem φ) (i_ecc : Skips.ecc φ) (i_chutes : Skips.chutes φ) (i_ctxs : Skips.ctxs φ) (i_echos : Skips.echos φ) (i_mems : Skips.mems φ) (i_trigs : Skips.trigs φ) (i_dies : Skips.dies φ) (i_pcie : Skips.pcie φ) (i_out : Skips.out φ) (hU : At φ c₀ s) : At φ c₀ (sweepResult s d m v) := by
  unfold sweepResult
  try dsimp only
  repeat' first
    | with_reducible assumption
    | intro _
    | with_reducible apply ite_inv
    | with_reducible apply setEcho_inv
    | with_reducible apply readEntry_inv
    | with_reducible apply sweepNext_inv
    | with_reducible apply writeEntry_inv
    | with_reducible apply nozRecord_inv
    | (with_reducible refine pair_inv (by assumption) ?_)
    | split

theorem echoApply_inv {d : Nat} {m : Meas} {base : List Nat} {win : List Nat} (i_free : Skips.free φ) (i_regs : Skips.regs φ) (i_mem : Skips.mem φ) (i_ecc : Skips.ecc φ) (i_chutes : Skips.chutes φ) (i_ctxs : Skips.ctxs φ) (i_echos : Skips.echos φ) (i_mems : Skips.mems φ) (i_trigs : Skips.trigs φ) (i_dies : Skips.dies φ) (i_pcie : Skips.pcie φ) (i_out : Skips.out φ) (hU : At φ c₀ s) : At φ c₀ (echoApply s d m base win) := by
  unfold echoApply
  try dsimp only
  repeat' first
    | with_reducible assumption
    | intro _
    | with_reducible apply ite_inv
    | with_reducible apply readEntry_inv
    | with_reducible apply judge_inv
    | with_reducible apply count_inv
    | with_reducible apply raise_inv
    | with_reducible apply resultRecord_inv
    | with_reducible apply sweepResult_inv
    | with_reducible apply writeEntry_inv
    | with_reducible apply applyValid_inv
    | (with_reducible refine pair_inv (by assumption) ?_)
    | split

theorem execEchoResult_ansAt {d : Nat} {base : List Nat} {win : List Nat} (i_free : Skips.free φ) (i_regs : Skips.regs φ) (i_mem : Skips.mem φ) (i_ecc : Skips.ecc φ) (i_chutes : Skips.chutes φ) (i_ctxs : Skips.ctxs φ) (i_echos : Skips.echos φ) (i_mems : Skips.mems φ) (i_trigs : Skips.trigs φ) (i_dies : Skips.dies φ) (i_pcie : Skips.pcie φ) (i_out : Skips.out φ) (hU : At φ c₀ s) : AnsAt φ c₀ (execEchoResult d base win s) := by
  unfold execEchoResult
  try dsimp only
  repeat' first
    | with_reducible assumption
    | intro _
    | with_reducible apply ok_ansAt
    | with_reducible apply ite_ansAt
    | with_reducible apply ite_inv
    | with_reducible exact ok_ansAt (by assumption)
    | with_reducible apply echoApply_inv
    | with_reducible apply setEcho_inv
    | split

theorem sweepStart_inv {r : Req} {d : Nat} (i_regs : Skips.regs φ) (i_echos : Skips.echos φ) (hU : At φ c₀ s) : At φ c₀ (sweepStart r d s) := by
  unfold sweepStart
  try dsimp only
  repeat' first
    | with_reducible assumption
    | intro _
    | with_reducible apply ite_inv
    | with_reducible apply wr_inv
    | with_reducible apply logErr_inv
    | with_reducible apply setEcho_inv
    | split

theorem sweepAbort_inv {d : Nat} (i_regs : Skips.regs φ) (i_pcie : Skips.pcie φ) (i_out : Skips.out φ) (hU : At φ c₀ s) : At φ c₀ (sweepAbort d s) := by
  unfold sweepAbort
  try dsimp only
  repeat' first
    | with_reducible assumption
    | intro _
    | with_reducible apply ite_inv
    | with_reducible apply sweepEnd_inv
    | split

theorem execSweepStart_ansAt {r : Req} {d : Nat} (i_regs : Skips.regs φ) (i_echos : Skips.echos φ) (i_dies : Skips.dies φ) (i_pcie : Skips.pcie φ) (i_resp : Skips.resp φ) (i_out : Skips.out φ) (hU : At φ c₀ s) : AnsAt φ c₀ (execSweepStart r d s) := by
  unfold execSweepStart
  try dsimp only
  repeat' first
    | with_reducible assumption
    | intro _
    | with_reducible apply ok_ansAt
    | with_reducible apply ite_ansAt
    | with_reducible apply ite_inv
    | with_reducible exact ok_ansAt (by assumption)
    | with_reducible apply guardedWrite_inv
    | with_reducible apply sweepStart_inv
    | split

theorem execSweepAbort_ansAt {r : Req} {d : Nat} (i_regs : Skips.regs φ) (i_dies : Skips.dies φ) (i_pcie : Skips.pcie φ) (i_resp : Skips.resp φ) (i_out : Skips.out φ) (hU : At φ c₀ s) : AnsAt φ c₀ (execSweepAbort r d s) := by
  unfold execSweepAbort
  try dsimp only
  repeat' first
    | with_reducible assumption
    | intro _
    | with_reducible apply ok_ansAt
    | with_reducible apply ite_ansAt
    | with_reducible apply ite_inv
    | with_reducible exact ok_ansAt (by assumption)
    | with_reducible apply guardedWrite_inv
    | with_reducible apply sweepAbort_inv
    | split

theorem nzResult_inv {d : Nat} {op : Nat} {res : Nat} (i_regs : Skips.regs φ) (i_pcie : Skips.pcie φ) (i_out : Skips.out φ) (hU : At φ c₀ s) : At φ c₀ (nzResult s d op res) := by
  unfold nzResult
  try dsimp only
  repeat' first
    | with_reducible assumption
    | intro _
    | with_reducible apply ite_inv
    | with_reducible apply wr_inv
    | with_reducible apply raise_inv
    | split

theorem nzCmd_inv {d : Nat} {op : Nat} {arg : Nat} (i_regs : Skips.regs φ) (i_mem : Skips.mem φ) (i_ecc : Skips.ecc φ) (i_chutes : Skips.chutes φ) (i_ctxs : Skips.ctxs φ) (i_mems : Skips.mems φ) (i_trigs : Skips.trigs φ) (i_dies : Skips.dies φ) (i_pcie : Skips.pcie φ) (i_out : Skips.out φ) (hU : At φ c₀ s) : At φ c₀ (nzCmd d op arg s) := by
  unfold nzCmd
  try dsimp only
  repeat' first
    | with_reducible assumption
    | intro _
    | with_reducible apply ite_inv
    | with_reducible apply nzResult_inv
    | with_reducible apply readEntry_inv
    | with_reducible apply writeEntry_inv
    | with_reducible apply nozRecord_inv
    | (with_reducible refine pair_inv (by assumption) ?_)
    | split

theorem execSetState_ansAt {r : Req} {d : Nat} {arg : Nat} (i_regs : Skips.regs φ) (i_mem : Skips.mem φ) (i_ecc : Skips.ecc φ) (i_chutes : Skips.chutes φ) (i_ctxs : Skips.ctxs φ) (i_mems : Skips.mems φ) (i_trigs : Skips.trigs φ) (i_dies : Skips.dies φ) (i_pcie : Skips.pcie φ) (i_resp : Skips.resp φ) (i_out : Skips.out φ) (hU : At φ c₀ s) : AnsAt φ c₀ (execSetState r d arg s) := by
  unfold execSetState
  try dsimp only
  repeat' first
    | with_reducible assumption
    | intro _
    | with_reducible apply ok_ansAt
    | with_reducible apply ite_ansAt
    | with_reducible apply ite_inv
    | with_reducible exact ok_ansAt (by assumption)
    | with_reducible apply guardedWrite_inv
    | with_reducible apply nzCmd_inv
    | split

theorem execSetTrim_ansAt {r : Req} {d : Nat} {arg : Nat} (i_regs : Skips.regs φ) (i_mem : Skips.mem φ) (i_ecc : Skips.ecc φ) (i_chutes : Skips.chutes φ) (i_ctxs : Skips.ctxs φ) (i_mems : Skips.mems φ) (i_trigs : Skips.trigs φ) (i_dies : Skips.dies φ) (i_pcie : Skips.pcie φ) (i_resp : Skips.resp φ) (i_out : Skips.out φ) (hU : At φ c₀ s) : AnsAt φ c₀ (execSetTrim r d arg s) := by
  unfold execSetTrim
  try dsimp only
  repeat' first
    | with_reducible assumption
    | intro _
    | with_reducible apply ok_ansAt
    | with_reducible apply ite_ansAt
    | with_reducible apply ite_inv
    | with_reducible exact ok_ansAt (by assumption)
    | with_reducible apply guardedWrite_inv
    | with_reducible apply nzCmd_inv
    | split

theorem execClearHist_ansAt {r : Req} {d : Nat} (i_regs : Skips.regs φ) (i_mem : Skips.mem φ) (i_ecc : Skips.ecc φ) (i_chutes : Skips.chutes φ) (i_ctxs : Skips.ctxs φ) (i_mems : Skips.mems φ) (i_trigs : Skips.trigs φ) (i_dies : Skips.dies φ) (i_pcie : Skips.pcie φ) (i_resp : Skips.resp φ) (i_out : Skips.out φ) (hU : At φ c₀ s) : AnsAt φ c₀ (execClearHist r d s) := by
  unfold execClearHist
  try dsimp only
  repeat' first
    | with_reducible assumption
    | intro _
    | with_reducible apply ok_ansAt
    | with_reducible apply ite_ansAt
    | with_reducible apply ite_inv
    | with_reducible exact ok_ansAt (by assumption)
    | with_reducible apply guardedWrite_inv
    | with_reducible apply nzCmd_inv
    | split

theorem execRefInvalid_ansAt {r : Req} {d : Nat} (i_regs : Skips.regs φ) (i_mem : Skips.mem φ) (i_ecc : Skips.ecc φ) (i_chutes : Skips.chutes φ) (i_ctxs : Skips.ctxs φ) (i_mems : Skips.mems φ) (i_trigs : Skips.trigs φ) (i_dies : Skips.dies φ) (i_pcie : Skips.pcie φ) (i_resp : Skips.resp φ) (i_out : Skips.out φ) (hU : At φ c₀ s) : AnsAt φ c₀ (execRefInvalid r d s) := by
  unfold execRefInvalid
  try dsimp only
  repeat' first
    | with_reducible assumption
    | intro _
    | with_reducible apply ok_ansAt
    | with_reducible apply ite_ansAt
    | with_reducible apply ite_inv
    | with_reducible exact ok_ansAt (by assumption)
    | with_reducible apply guardedWrite_inv
    | with_reducible apply nzCmd_inv
    | split

theorem execRefValid_ansAt {r : Req} {d : Nat} (i_regs : Skips.regs φ) (i_mem : Skips.mem φ) (i_ecc : Skips.ecc φ) (i_chutes : Skips.chutes φ) (i_ctxs : Skips.ctxs φ) (i_mems : Skips.mems φ) (i_trigs : Skips.trigs φ) (i_dies : Skips.dies φ) (i_pcie : Skips.pcie φ) (i_resp : Skips.resp φ) (i_out : Skips.out φ) (hU : At φ c₀ s) : AnsAt φ c₀ (execRefValid r d s) := by
  unfold execRefValid
  try dsimp only
  repeat' first
    | with_reducible assumption
    | intro _
    | with_reducible apply ok_ansAt
    | with_reducible apply ite_ansAt
    | with_reducible apply ite_inv
    | with_reducible exact ok_ansAt (by assumption)
    | with_reducible apply guardedWrite_inv
    | with_reducible apply nzCmd_inv
    | split

theorem execLockTrim_ansAt {r : Req} {d : Nat} {arg : Nat} (i_regs : Skips.regs φ) (i_mem : Skips.mem φ) (i_ecc : Skips.ecc φ) (i_chutes : Skips.chutes φ) (i_ctxs : Skips.ctxs φ) (i_mems : Skips.mems φ) (i_trigs : Skips.trigs φ) (i_dies : Skips.dies φ) (i_pcie : Skips.pcie φ) (i_resp : Skips.resp φ) (i_out : Skips.out φ) (hU : At φ c₀ s) : AnsAt φ c₀ (execLockTrim r d arg s) := by
  unfold execLockTrim
  try dsimp only
  repeat' first
    | with_reducible assumption
    | intro _
    | with_reducible apply ok_ansAt
    | with_reducible apply ite_ansAt
    | with_reducible apply ite_inv
    | with_reducible exact ok_ansAt (by assumption)
    | with_reducible apply guardedWrite_inv
    | with_reducible apply nzCmd_inv
    | split

theorem mapLoad_inv {x0 : Nat} {x2 : Nat} {x3 : Nat} {x4 : Nat} {x5 : Tbl Nat NzMap} (i_regs : Skips.regs φ) (i_ecc : Skips.ecc φ) (i_chutes : Skips.chutes φ) (i_ctxs : Skips.ctxs φ) (i_ports : Skips.ports φ) (i_seamQ : Skips.seamQ φ) (i_echos : Skips.echos φ) (i_mems : Skips.mems φ) (i_trigs : Skips.trigs φ) (i_dies : Skips.dies φ) (i_pcie : Skips.pcie φ) (i_out : Skips.out φ) (hU : At φ c₀ s) : At φ c₀ (mapLoad x0 s x2 x3 x4 x5) := by
  induction x0 generalizing s x2 x3 x4 x5 with
  | zero => (apply setCtx_inv <;> assumption)
  | succ n ih =>
    unfold mapLoad
    try dsimp only
    repeat' first
      | with_reducible assumption
      | intro _
      | with_reducible apply ih
      | with_reducible apply ite_inv
      | with_reducible apply setCtx_inv
      | with_reducible apply ctxRead_inv
      | (with_reducible refine trip_inv (by assumption) ?_)
      | split

theorem execNozzleMapLoadDone_ansAt {d : Nat} {k : Nat} (i_regs : Skips.regs φ) (i_ecc : Skips.ecc φ) (i_chutes : Skips.chutes φ) (i_ctxs : Skips.ctxs φ) (i_ports : Skips.ports φ) (i_seamQ : Skips.seamQ φ) (i_echos : Skips.echos φ) (i_mems : Skips.mems φ) (i_trigs : Skips.trigs φ) (i_dies : Skips.dies φ) (i_pcie : Skips.pcie φ) (i_out : Skips.out φ) (hU : At φ c₀ s) : AnsAt φ c₀ (execNozzleMapLoadDone d k s) := by
  unfold execNozzleMapLoadDone
  try dsimp only
  repeat' first
    | with_reducible assumption
    | intro _
    | with_reducible apply ok_ansAt
    | with_reducible apply ite_ansAt
    | with_reducible apply ite_inv
    | with_reducible exact ok_ansAt (by assumption)
    | with_reducible apply mapLoad_inv
    | split

end Sys2Proof.Laws
end

