-- ==== Sys2Proof/Laws/ThermalInv.lean ====
section
/-!
SUPPORT. The fields of the state that each operation of `Machine/Thermal.lean` may change: whatever reads none of them is the same after it.
-/

set_option Elab.async false
set_option linter.unusedTactic false
set_option linter.unreachableTactic false
namespace Sys2Proof.Laws

open Sys2Proof.Machine

variable {α₀ : Type} {φ : State → α₀} {c₀ : α₀} {s : State}

theorem thStat_inv {d : Nat} (i_regs : Skips.regs φ) (hU : At φ c₀ s) : At φ c₀ (thStat s d) := by
  unfold thStat
  try dsimp only
  repeat' first
    | with_reducible assumption
    | intro _
    | with_reducible apply ite_inv
    | with_reducible apply wb_inv
    | with_reducible apply wf_inv
    | with_reducible apply each_inv
    | split

theorem throtFollow_inv (i_pkg : Skips.pkg φ) (hU : At φ c₀ s) : At φ c₀ (throtFollow s) := by
  unfold throtFollow
  try dsimp only
  repeat' first
    | with_reducible assumption
    | intro _
    | with_reducible apply ite_inv
    | split
    | with_reducible refine At.step (i_pkg _ _) ?_

theorem setScope_inv {d : Nat} {o : Option Nat} {x : ScopeSt} (i_regs : Skips.regs φ) (i_ports : Skips.ports φ) (i_therms : Skips.therms φ) (i_pkg : Skips.pkg φ) (hU : At φ c₀ s) : At φ c₀ (setScope s d o x) := by
  unfold setScope
  try dsimp only
  repeat' first
    | with_reducible assumption
    | intro _
    | with_reducible apply ite_inv
    | with_reducible apply throtFollow_inv
    | with_reducible apply thStat_inv
    | with_reducible apply setTherm_inv
    | split
    | with_reducible refine At.step (i_ports _ _) ?_

theorem thRecord_inv {d : Nat} {type : Nat} {which : Nat} {isDie : Bool} {bits : Nat} {temp : Int} {w2 : Word} {w3 : Word} (i_regs : Skips.regs φ) (i_chutes : Skips.chutes φ) (i_trigs : Skips.trigs φ) (i_dies : Skips.dies φ) (i_pcie : Skips.pcie φ) (i_out : Skips.out φ) (hU : At φ c₀ s) : At φ c₀ (thRecord s d type which isDie bits temp w2 w3) := by
  unfold thRecord
  try dsimp only
  repeat' first
    | with_reducible assumption
    | intro _
    | with_reducible apply ite_inv
    | with_reducible apply setDie_inv
    | with_reducible apply chuteRecord_inv
    | split

theorem scopeRecord_inv {d : Nat} {type : Nat} {o : Option Nat} {bits : Nat} (i_regs : Skips.regs φ) (i_chutes : Skips.chutes φ) (i_trigs : Skips.trigs φ) (i_dies : Skips.dies φ) (i_pcie : Skips.pcie φ) (i_out : Skips.out φ) (hU : At φ c₀ s) : At φ c₀ (scopeRecord s d type o bits) := by
  unfold scopeRecord
  try dsimp only
  repeat' first
    | with_reducible assumption
    | intro _
    | with_reducible apply ite_inv
    | with_reducible apply thRecord_inv
    | split

theorem execHeaterUpdate_ansAt {d : Nat} {p : Nat} (i_clock : Skips.clock φ) (i_regs : Skips.regs φ) (i_ports : Skips.ports φ) (i_dies : Skips.dies φ) (i_pcie : Skips.pcie φ) (i_out : Skips.out φ) (hU : At φ c₀ s) : AnsAt φ c₀ (execHeaterUpdate d p s) := by
  unfold execHeaterUpdate
  try dsimp only
  repeat' first
    | with_reducible assumption
    | intro _
    | with_reducible apply ok_ansAt
    | with_reducible apply ite_ansAt
    | with_reducible apply ite_inv
    | with_reducible exact ok_ansAt (by assumption)
    | with_reducible apply waitClock_inv
    | with_reducible apply htrFollow_inv
    | with_reducible apply setPort_inv
    | split

theorem thermAct_inv {d : Nat} {k : Nat} (i_regs : Skips.regs φ) (i_chutes : Skips.chutes φ) (i_ctxs : Skips.ctxs φ) (i_ports : Skips.ports φ) (i_seamQ : Skips.seamQ φ) (i_echos : Skips.echos φ) (i_trigs : Skips.trigs φ) (i_dies : Skips.dies φ) (i_pcie : Skips.pcie φ) (i_out : Skips.out φ) (hU : At φ c₀ s) : At φ c₀ (thermAct s d k) := by
  unfold thermAct
  try dsimp only
  repeat' first
    | with_reducible assumption
    | intro _
    | with_reducible apply ite_inv
    | with_reducible apply ctxEvt_inv
    | with_reducible apply setCtx_inv
    | with_reducible apply ctxRecord_inv
    | with_reducible apply ctxFence_inv
    | split

theorem thermUnact_inv {d : Nat} (i_ctxs : Skips.ctxs φ) (hU : At φ c₀ s) : At φ c₀ (thermUnact s d) := by
  unfold thermUnact
  try dsimp only
  repeat' first
    | with_reducible assumption
    | intro _
    | with_reducible apply ite_inv
    | with_reducible apply each_inv
    | with_reducible apply setCtx_inv
    | split

theorem thermArm_inv {d : Nat} {k : Nat} (i_regs : Skips.regs φ) (i_chutes : Skips.chutes φ) (i_ctxs : Skips.ctxs φ) (i_ports : Skips.ports φ) (i_seamQ : Skips.seamQ φ) (i_echos : Skips.echos φ) (i_trigs : Skips.trigs φ) (i_dies : Skips.dies φ) (i_pcie : Skips.pcie φ) (i_out : Skips.out φ) (hU : At φ c₀ s) : At φ c₀ (thermArm s d k) := by
  unfold thermArm
  try dsimp only
  repeat' first
    | with_reducible assumption
    | intro _
    | with_reducible apply ite_inv
    | with_reducible apply thermAct_inv
    | split

theorem warn_inv {d : Nat} {o : Option Nat} (i_regs : Skips.regs φ) (i_chutes : Skips.chutes φ) (i_ports : Skips.ports φ) (i_trigs : Skips.trigs φ) (i_therms : Skips.therms φ) (i_dies : Skips.dies φ) (i_pkg : Skips.pkg φ) (i_pcie : Skips.pcie φ) (i_out : Skips.out φ) (hU : At φ c₀ s) : At φ c₀ (warn s d o) := by
  unfold warn
  try dsimp only
  repeat' first
    | with_reducible assumption
    | intro _
    | with_reducible apply ite_inv
    | with_reducible apply setScope_inv
    | with_reducible apply raise_inv
    | with_reducible apply wr_inv
    | with_reducible apply htrFollow_inv
    | with_reducible apply scopeRecord_inv
    | with_reducible apply count_inv
    | split

theorem scopeUpdate_inv {d : Nat} {o : Option Nat} (i_regs : Skips.regs φ) (i_chutes : Skips.chutes φ) (i_ports : Skips.ports φ) (i_trigs : Skips.trigs φ) (i_therms : Skips.therms φ) (i_dies : Skips.dies φ) (i_pkg : Skips.pkg φ) (i_pcie : Skips.pcie φ) (i_out : Skips.out φ) (hU : At φ c₀ s) : At φ c₀ (scopeUpdate s d o) := by
  unfold scopeUpdate
  try dsimp only
  repeat' first
    | with_reducible assumption
    | intro _
    | with_reducible apply ite_inv
    | with_reducible apply warn_inv
    | with_reducible apply setScope_inv
    | split

theorem sensorFault_inv {d : Nat} {which : Nat} {isDie : Bool} {t : Int} (i_regs : Skips.regs φ) (i_chutes : Skips.chutes φ) (i_trigs : Skips.trigs φ) (i_dies : Skips.dies φ) (i_pcie : Skips.pcie φ) (i_out : Skips.out φ) (hU : At φ c₀ s) : At φ c₀ (sensorFault s d which isDie t) := by
  unfold sensorFault
  try dsimp only
  repeat' first
    | with_reducible assumption
    | intro _
    | with_reducible apply ite_inv
    | with_reducible apply thRecord_inv
    | with_reducible apply raise_inv
    | split

theorem islReading_inv {d : Nat} {i : Nat} {t : Int} (i_regs : Skips.regs φ) (i_chutes : Skips.chutes φ) (i_trigs : Skips.trigs φ) (i_therms : Skips.therms φ) (i_dies : Skips.dies φ) (i_pcie : Skips.pcie φ) (i_out : Skips.out φ) (hU : At φ c₀ s) : At φ c₀ (islReading s d i t) := by
  unfold islReading
  try dsimp only
  repeat' first
    | with_reducible assumption
    | intro _
    | with_reducible apply ite_inv
    | with_reducible apply wb_inv
    | with_reducible apply sensorFault_inv
    | with_reducible apply setTherm_inv
    | with_reducible apply wr_inv
    | split

theorem dieTemp_inv {d : Nat} (i_regs : Skips.regs φ) (hU : At φ c₀ s) : At φ c₀ (dieTemp s d) := by
  unfold dieTemp
  try dsimp only
  repeat' first
    | with_reducible assumption
    | intro _
    | with_reducible apply ite_inv
    | with_reducible apply wr_inv
    | split

theorem publishHead_inv {d : Nat} {p : Nat} (i_regs : Skips.regs φ) (i_ports : Skips.ports φ) (hU : At φ c₀ s) : At φ c₀ (publishHead s d p) := by
  unfold publishHead
  try dsimp only
  repeat' first
    | with_reducible assumption
    | intro _
    | with_reducible apply ite_inv
    | with_reducible apply wb_inv
    | with_reducible apply wf_inv
    | with_reducible apply wr_inv
    | with_reducible apply setPort_inv
    | split

theorem lampTemp_inv {d : Nat} (i_lamps : Skips.lamps φ) (hU : At φ c₀ s) : At φ c₀ (lampTemp s d) := by
  unfold lampTemp
  try dsimp only
  repeat' first
    | with_reducible assumption
    | intro _
    | with_reducible apply ite_inv
    | with_reducible apply setLamp_inv
    | split

theorem tempUpdate_inv {d : Nat} {isl : List Int} {power : Nat} (i_regs : Skips.regs φ) (i_chutes : Skips.chutes φ) (i_ports : Skips.ports φ) (i_trigs : Skips.trigs φ) (i_assays : Skips.assays φ) (i_therms : Skips.therms φ) (i_lamps : Skips.lamps φ) (i_dies : Skips.dies φ) (i_pkg : Skips.pkg φ) (i_pcie : Skips.pcie φ) (i_out : Skips.out φ) (hU : At φ c₀ s) : At φ c₀ (tempUpdate s d isl power) := by
  unfold tempUpdate
  try dsimp only
  repeat' first
    | with_reducible assumption
    | intro _
    | with_reducible apply ite_inv
    | with_reducible apply setTherm_inv
    | with_reducible apply dieTemp_inv
    | with_reducible apply each_inv
    | with_reducible apply islReading_inv
    | with_reducible apply wr_inv
    | with_reducible apply publishHead_inv
    | with_reducible apply scopeUpdate_inv
    | with_reducible apply thStat_inv
    | with_reducible apply htrFollow_inv
    | with_reducible apply lampTemp_inv
    | with_reducible apply asTempUpdate_inv
    | split

theorem execTempUpdate_ansAt {d : Nat} {isl : List Int} {power : Nat} (i_clock : Skips.clock φ) (i_regs : Skips.regs φ) (i_chutes : Skips.chutes φ) (i_ports : Skips.ports φ) (i_trigs : Skips.trigs φ) (i_assays : Skips.assays φ) (i_therms : Skips.therms φ) (i_lamps : Skips.lamps φ) (i_dies : Skips.dies φ) (i_pkg : Skips.pkg φ) (i_pcie : Skips.pcie φ) (i_out : Skips.out φ) (hU : At φ c₀ s) : AnsAt φ c₀ (execTempUpdate d isl power s) := by
  unfold execTempUpdate
  try dsimp only
  repeat' first
    | with_reducible assumption
    | intro _
    | with_reducible apply ok_ansAt
    | with_reducible apply ite_ansAt
    | with_reducible apply ite_inv
    | with_reducible exact ok_ansAt (by assumption)
    | with_reducible apply waitClock_inv
    | with_reducible apply tempUpdate_inv
    | split

theorem betaTemp_inv {d : Nat} {p : Nat} {ohm : Nat} (i_free : Skips.free φ) (hU : At φ c₀ s) : At φ c₀ (betaTemp s d p ohm).2 := by
  unfold betaTemp
  try dsimp only
  repeat' first
    | with_reducible assumption
    | intro _
    | with_reducible apply ite_inv
    | with_reducible apply nextFree_inv
    | split
    | with_reducible refine At.step (i_free _ _) ?_

theorem thermistor_inv {d : Nat} {p : Nat} {ohm : Nat} (i_free : Skips.free φ) (i_regs : Skips.regs φ) (i_chutes : Skips.chutes φ) (i_ports : Skips.ports φ) (i_trigs : Skips.trigs φ) (i_therms : Skips.therms φ) (i_dies : Skips.dies φ) (i_pcie : Skips.pcie φ) (i_out : Skips.out φ) (hU : At φ c₀ s) : At φ c₀ (thermistor s d p ohm) := by
  unfold thermistor
  try dsimp only
  repeat' first
    | with_reducible assumption
    | intro _
    | with_reducible apply ite_inv
    | with_reducible apply setTherm_inv
    | with_reducible apply wb_inv
    | with_reducible apply wf_inv
    | with_reducible apply htrFollow_inv
    | with_reducible apply whenDo_inv
    | with_reducible apply sensorFault_inv
    | with_reducible apply betaTemp_inv
    | (with_reducible refine pair_inv (by assumption) ?_)
    | split

theorem execThermistorSample_ansAt {d : Nat} {p : Nat} {ohm : Nat} (i_free : Skips.free φ) (i_regs : Skips.regs φ) (i_chutes : Skips.chutes φ) (i_ports : Skips.ports φ) (i_trigs : Skips.trigs φ) (i_therms : Skips.therms φ) (i_dies : Skips.dies φ) (i_pcie : Skips.pcie φ) (i_out : Skips.out φ) (hU : At φ c₀ s) : AnsAt φ c₀ (execThermistorSample d p ohm s) := by
  unfold execThermistorSample
  try dsimp only
  repeat' first
    | with_reducible assumption
    | intro _
    | with_reducible apply ok_ansAt
    | with_reducible apply ite_ansAt
    | with_reducible apply ite_inv
    | with_reducible exact ok_ansAt (by assumption)
    | with_reducible apply thermistor_inv
    | split

theorem thermOff_inv {d : Nat} {p : Nat} (i_regs : Skips.regs φ) (i_ports : Skips.ports φ) (i_therms : Skips.therms φ) (i_pcie : Skips.pcie φ) (i_out : Skips.out φ) (hU : At φ c₀ s) : At φ c₀ (thermOff s d p) := by
  unfold thermOff
  try dsimp only
  repeat' first
    | with_reducible assumption
    | intro _
    | with_reducible apply ite_inv
    | with_reducible apply setTherm_inv
    | with_reducible apply htrFollow_inv
    | with_reducible apply wb_inv
    | split

theorem throttleNote_inv {d : Nat} {o : Option Nat} {on : Bool} (i_regs : Skips.regs φ) (i_mboxes : Skips.mboxes φ) (i_pcie : Skips.pcie φ) (i_out : Skips.out φ) (hU : At φ c₀ s) : At φ c₀ (throttleNote s d o on) := by
  unfold throttleNote
  try dsimp only
  repeat' first
    | with_reducible assumption
    | intro _
    | with_reducible apply ite_inv
    | with_reducible apply notice_inv
    | split

theorem enforceCtxs_inv {d : Nat} {o : Option Nat} {bits : Nat} (i_regs : Skips.regs φ) (i_chutes : Skips.chutes φ) (i_ctxs : Skips.ctxs φ) (i_ports : Skips.ports φ) (i_seamQ : Skips.seamQ φ) (i_echos : Skips.echos φ) (i_trigs : Skips.trigs φ) (i_therms : Skips.therms φ) (i_mboxes : Skips.mboxes φ) (i_dies : Skips.dies φ) (i_pkg : Skips.pkg φ) (i_pcie : Skips.pcie φ) (i_out : Skips.out φ) (hU : At φ c₀ s) : At φ c₀ (enforceCtxs s d o bits) := by
  unfold enforceCtxs
  try dsimp only
  repeat' first
    | with_reducible assumption
    | intro _
    | with_reducible apply ite_inv
    | with_reducible apply setScope_inv
    | with_reducible apply each_inv
    | with_reducible apply thermAct_inv
    | with_reducible apply raise_inv
    | with_reducible apply count_inv
    | with_reducible apply throttleNote_inv
    | with_reducible apply scopeRecord_inv
    | split

theorem echoStep_inv {d : Nat} {off : Bool} (i_regs : Skips.regs φ) (i_chutes : Skips.chutes φ) (i_ports : Skips.ports φ) (i_trigs : Skips.trigs φ) (i_therms : Skips.therms φ) (i_mboxes : Skips.mboxes φ) (i_dies : Skips.dies φ) (i_pkg : Skips.pkg φ) (i_pcie : Skips.pcie φ) (i_out : Skips.out φ) (hU : At φ c₀ s) : At φ c₀ (echoStep s d off) := by
  unfold echoStep
  try dsimp only
  repeat' first
    | with_reducible assumption
    | intro _
    | with_reducible apply ite_inv
    | with_reducible apply wb_inv
    | with_reducible apply wf_inv
    | with_reducible apply setScope_inv
    | with_reducible apply throttleNote_inv
    | with_reducible apply scopeRecord_inv
    | with_reducible apply raise_inv
    | split

theorem graceExpiry_inv {d : Nat} {o : Option Nat} (i_regs : Skips.regs φ) (i_chutes : Skips.chutes φ) (i_ctxs : Skips.ctxs φ) (i_ports : Skips.ports φ) (i_seamQ : Skips.seamQ φ) (i_echos : Skips.echos φ) (i_trigs : Skips.trigs φ) (i_therms : Skips.therms φ) (i_mboxes : Skips.mboxes φ) (i_dies : Skips.dies φ) (i_pkg : Skips.pkg φ) (i_pcie : Skips.pcie φ) (i_out : Skips.out φ) (hU : At φ c₀ s) : At φ c₀ (graceExpiry s d o) := by
  unfold graceExpiry
  try dsimp only
  repeat' first
    | with_reducible assumption
    | intro _
    | with_reducible apply ite_inv
    | with_reducible apply setScope_inv
    | with_reducible apply enforceCtxs_inv
    | with_reducible apply echoStep_inv
    | split

theorem execGraceExpiry_ansAt {d : Nat} {o : Option Nat} (i_clock : Skips.clock φ) (i_regs : Skips.regs φ) (i_chutes : Skips.chutes φ) (i_ctxs : Skips.ctxs φ) (i_ports : Skips.ports φ) (i_seamQ : Skips.seamQ φ) (i_echos : Skips.echos φ) (i_trigs : Skips.trigs φ) (i_therms : Skips.therms φ) (i_mboxes : Skips.mboxes φ) (i_dies : Skips.dies φ) (i_pkg : Skips.pkg φ) (i_pcie : Skips.pcie φ) (i_out : Skips.out φ) (hU : At φ c₀ s) : AnsAt φ c₀ (execGraceExpiry d o s) := by
  unfold execGraceExpiry
  try dsimp only
  repeat' first
    | with_reducible assumption
    | intro _
    | with_reducible apply ok_ansAt
    | with_reducible apply ite_ansAt
    | with_reducible apply ite_inv
    | with_reducible exact ok_ansAt (by assumption)
    | with_reducible apply graceExpiry_inv
    | with_reducible apply waitClock_inv
    | split

theorem scopeClear_inv {d : Nat} {o : Option Nat} (i_regs : Skips.regs φ) (i_chutes : Skips.chutes φ) (i_ctxs : Skips.ctxs φ) (i_ports : Skips.ports φ) (i_trigs : Skips.trigs φ) (i_therms : Skips.therms φ) (i_mboxes : Skips.mboxes φ) (i_dies : Skips.dies φ) (i_pkg : Skips.pkg φ) (i_pcie : Skips.pcie φ) (i_out : Skips.out φ) (hU : At φ c₀ s) : At φ c₀ (scopeClear s d o) := by
  unfold scopeClear
  try dsimp only
  repeat' first
    | with_reducible assumption
    | intro _
    | with_reducible apply ite_inv
    | with_reducible apply whenDo_inv
    | with_reducible apply throttleNote_inv
    | with_reducible apply raise_inv
    | with_reducible apply scopeRecord_inv
    | with_reducible apply thermUnact_inv
    | with_reducible apply setScope_inv
    | with_reducible apply wb_inv
    | with_reducible apply wf_inv
    | with_reducible apply htrFollow_inv
    | split

theorem execWarnClear_ansAt {d : Nat} {o : Option Nat} (i_clock : Skips.clock φ) (i_regs : Skips.regs φ) (i_chutes : Skips.chutes φ) (i_ctxs : Skips.ctxs φ) (i_ports : Skips.ports φ) (i_trigs : Skips.trigs φ) (i_therms : Skips.therms φ) (i_mboxes : Skips.mboxes φ) (i_dies : Skips.dies φ) (i_pkg : Skips.pkg φ) (i_pcie : Skips.pcie φ) (i_out : Skips.out φ) (hU : At φ c₀ s) : AnsAt φ c₀ (execWarnClear d o s) := by
  unfold execWarnClear
  try dsimp only
  repeat' first
    | with_reducible assumption
    | intro _
    | with_reducible apply ok_ansAt
    | with_reducible apply ite_ansAt
    | with_reducible apply ite_inv
    | with_reducible exact ok_ansAt (by assumption)
    | with_reducible apply scopeClear_inv
    | with_reducible apply waitClock_inv
    | split

end Sys2Proof.Laws
end

