-- ==== Sys2Proof/Laws/LampInv.lean ====
section
/-!
SUPPORT. The fields of the state that each operation of `Machine/Lamp.lean` may change: whatever reads none of them is the same after it.
-/

set_option Elab.async false
set_option linter.unusedTactic false
set_option linter.unreachableTactic false
namespace Sys2Proof.Laws

open Sys2Proof.Machine

variable {α₀ : Type} {φ : State → α₀} {c₀ : α₀} {s : State}

theorem setIsland_inv {d : Nat} {i : Nat} {x : IslandSt} (i_lamps : Skips.lamps φ) (hU : At φ c₀ s) : At φ c₀ (setIsland s d i x) := by
  unfold setIsland
  try dsimp only
  repeat' first
    | with_reducible assumption
    | intro _
    | with_reducible apply ite_inv
    | with_reducible apply setLamp_inv
    | split

theorem lampWorst_inv {d : Nat} (i_regs : Skips.regs φ) (hU : At φ c₀ s) : At φ c₀ (lampWorst s d) := by
  unfold lampWorst
  try dsimp only
  repeat' first
    | with_reducible assumption
    | intro _
    | with_reducible apply ite_inv
    | with_reducible apply wr_inv
    | split

theorem lampStart_inv {d : Nat} (i_lamps : Skips.lamps φ) (hU : At φ c₀ s) : At φ c₀ (lampStart s d) := by
  unfold lampStart
  try dsimp only
  repeat' first
    | with_reducible assumption
    | intro _
    | with_reducible apply ite_inv
    | with_reducible apply setLamp_inv
    | split

theorem execLampMeasure_ansAt {d : Nat} (i_lamps : Skips.lamps φ) (hU : At φ c₀ s) : AnsAt φ c₀ (execLampMeasure d s) := by
  unfold execLampMeasure
  try dsimp only
  repeat' first
    | with_reducible assumption
    | intro _
    | with_reducible apply ok_ansAt
    | with_reducible apply ite_ansAt
    | with_reducible apply ite_inv
    | with_reducible exact ok_ansAt (by assumption)
    | with_reducible apply lampStart_inv
    | with_reducible apply setLamp_inv
    | split

theorem execLampMeasureCmd_ansAt {r : Req} {d : Nat} (i_regs : Skips.regs φ) (i_lamps : Skips.lamps φ) (i_dies : Skips.dies φ) (i_pcie : Skips.pcie φ) (i_resp : Skips.resp φ) (i_out : Skips.out φ) (hU : At φ c₀ s) : AnsAt φ c₀ (execLampMeasureCmd r d s) := by
  unfold execLampMeasureCmd
  try dsimp only
  repeat' first
    | with_reducible assumption
    | intro _
    | with_reducible apply ok_ansAt
    | with_reducible apply ite_ansAt
    | with_reducible apply ite_inv
    | with_reducible exact ok_ansAt (by assumption)
    | with_reducible apply guardedWrite_inv
    | with_reducible apply lampStart_inv
    | split

theorem ageQueue_inv {d : Nat} {i : Nat} (i_assays : Skips.assays φ) (i_lamps : Skips.lamps φ) (hU : At φ c₀ s) : At φ c₀ (ageQueue s d i) := by
  unfold ageQueue
  try dsimp only
  repeat' first
    | with_reducible assumption
    | intro _
    | with_reducible apply ite_inv
    | with_reducible apply each_inv
    | with_reducible apply setIsland_inv
    | with_reducible apply asQueue_inv
    | split

theorem replan_inv {d : Nat} {i : Nat} (i_regs : Skips.regs φ) (i_chutes : Skips.chutes φ) (i_trigs : Skips.trigs φ) (i_assays : Skips.assays φ) (i_lamps : Skips.lamps φ) (i_mboxes : Skips.mboxes φ) (i_dies : Skips.dies φ) (i_pcie : Skips.pcie φ) (i_out : Skips.out φ) (hU : At φ c₀ s) : At φ c₀ (replan s d i) := by
  unfold replan
  try dsimp only
  repeat' first
    | with_reducible assumption
    | intro _
    | with_reducible apply ite_inv
    | with_reducible apply raise_inv
    | with_reducible apply ageQueue_inv
    | with_reducible apply setIsland_inv
    | with_reducible apply setLamp_inv
    | with_reducible apply thRecord_inv
    | with_reducible apply notice_inv
    | with_reducible apply count_inv
    | split

theorem lampIsland_inv {d : Nat} {i : Nat} {ns : Nat} {np : Nat} (i_free : Skips.free φ) (i_regs : Skips.regs φ) (i_chutes : Skips.chutes φ) (i_trigs : Skips.trigs φ) (i_assays : Skips.assays φ) (i_lamps : Skips.lamps φ) (i_mboxes : Skips.mboxes φ) (i_dies : Skips.dies φ) (i_pcie : Skips.pcie φ) (i_out : Skips.out φ) (hU : At φ c₀ s) : At φ c₀ (lampIsland s d i ns np) := by
  unfold lampIsland
  try dsimp only
  repeat' first
    | with_reducible assumption
    | intro _
    | with_reducible apply ite_inv
    | with_reducible apply nextFree_inv
    | with_reducible apply setIsland_inv
    | with_reducible apply replan_inv
    | with_reducible apply whenDo_inv
    | with_reducible apply raise_inv
    | split

theorem execMeasured_ansAt {d : Nat} {cnt : List (Nat × Nat)} (i_clock : Skips.clock φ) (i_free : Skips.free φ) (i_regs : Skips.regs φ) (i_chutes : Skips.chutes φ) (i_trigs : Skips.trigs φ) (i_assays : Skips.assays φ) (i_lamps : Skips.lamps φ) (i_mboxes : Skips.mboxes φ) (i_dies : Skips.dies φ) (i_pcie : Skips.pcie φ) (i_out : Skips.out φ) (hU : At φ c₀ s) : AnsAt φ c₀ (execMeasured d cnt s) := by
  unfold execMeasured
  try dsimp only
  repeat' first
    | with_reducible assumption
    | intro _
    | with_reducible apply ok_ansAt
    | with_reducible apply ite_ansAt
    | with_reducible apply ite_inv
    | with_reducible exact ok_ansAt (by assumption)
    | with_reducible apply waitClock_inv
    | with_reducible apply raise_inv
    | with_reducible apply setLamp_inv
    | with_reducible apply lampWorst_inv
    | with_reducible apply each_inv
    | with_reducible apply lampIsland_inv
    | split

theorem execCalintExpiry_ansAt {d : Nat} {i : Nat} (i_assays : Skips.assays φ) (i_lamps : Skips.lamps φ) (hU : At φ c₀ s) : AnsAt φ c₀ (execCalintExpiry d i s) := by
  unfold execCalintExpiry
  try dsimp only
  repeat' first
    | with_reducible assumption
    | intro _
    | with_reducible apply ok_ansAt
    | with_reducible apply ite_ansAt
    | with_reducible apply ite_inv
    | with_reducible exact ok_ansAt (by assumption)
    | with_reducible apply ageQueue_inv
    | split

theorem histWrite_inv {d : Nat} (i_free : Skips.free φ) (i_regs : Skips.regs φ) (i_ret : Skips.ret φ) (i_retEcc : Skips.retEcc φ) (i_lamps : Skips.lamps φ) (i_pcie : Skips.pcie φ) (i_out : Skips.out φ) (hU : At φ c₀ s) : At φ c₀ (histWrite s d) := by
  unfold histWrite
  try dsimp only
  repeat' first
    | with_reducible assumption
    | intro _
    | with_reducible apply ite_inv
    | with_reducible apply nextFree_inv
    | with_reducible apply retWrites_inv
    | with_reducible apply setLamp_inv
    | with_reducible apply raise_inv
    | with_reducible apply wr_inv
    | split

theorem execHistWritten_ansAt {d : Nat} (i_free : Skips.free φ) (i_regs : Skips.regs φ) (i_ret : Skips.ret φ) (i_retEcc : Skips.retEcc φ) (i_lamps : Skips.lamps φ) (i_pcie : Skips.pcie φ) (i_out : Skips.out φ) (hU : At φ c₀ s) : AnsAt φ c₀ (execHistWritten d s) := by
  unfold execHistWritten
  try dsimp only
  repeat' first
    | with_reducible assumption
    | intro _
    | with_reducible apply ok_ansAt
    | with_reducible apply ite_ansAt
    | with_reducible apply ite_inv
    | with_reducible exact ok_ansAt (by assumption)
    | with_reducible apply histWrite_inv
    | split

theorem histClear_inv {d : Nat} (i_regs : Skips.regs φ) (i_ret : Skips.ret φ) (i_retEcc : Skips.retEcc φ) (hU : At φ c₀ s) : At φ c₀ (histClear d s) := by
  unfold histClear
  try dsimp only
  repeat' first
    | with_reducible assumption
    | intro _
    | with_reducible apply ite_inv
    | with_reducible apply retWrites_inv
    | with_reducible apply wr_inv
    | split

theorem execHistClear_ansAt {r : Req} {d : Nat} (i_regs : Skips.regs φ) (i_ret : Skips.ret φ) (i_retEcc : Skips.retEcc φ) (i_dies : Skips.dies φ) (i_pcie : Skips.pcie φ) (i_resp : Skips.resp φ) (i_out : Skips.out φ) (hU : At φ c₀ s) : AnsAt φ c₀ (execHistClear r d s) := by
  unfold execHistClear
  try dsimp only
  repeat' first
    | with_reducible assumption
    | intro _
    | with_reducible apply ok_ansAt
    | with_reducible apply ite_ansAt
    | with_reducible apply ite_inv
    | with_reducible exact ok_ansAt (by assumption)
    | with_reducible apply guardedWrite_inv
    | with_reducible apply histClear_inv
    | split

theorem lampSecond_inv {d : Nat} (i_lamps : Skips.lamps φ) (hU : At φ c₀ s) : At φ c₀ (lampSecond s d) := by
  unfold lampSecond
  try dsimp only
  repeat' first
    | with_reducible assumption
    | intro _
    | with_reducible apply ite_inv
    | with_reducible apply setLamp_inv
    | split

end Sys2Proof.Laws
end

