-- ==== Sys2Proof/Laws/FenceInv.lean ====
section
/-!
SUPPORT. The fields of the state that each operation of `Machine/Fence.lean` may change: whatever reads none of them is the same after it.
-/

set_option Elab.async false
set_option linter.unusedTactic false
set_option linter.unreachableTactic false
namespace Sys2Proof.Laws

open Sys2Proof.Machine

variable {α₀ : Type} {φ : State → α₀} {c₀ : α₀} {s : State}

theorem nullFrames_inv {d : Nat} {p : Nat} (i_ports : Skips.ports φ) (hU : At φ c₀ s) : At φ c₀ (nullFrames s d p) := by
  unfold nullFrames
  try dsimp only
  repeat' first
    | with_reducible assumption
    | intro _
    | with_reducible apply ite_inv
    | with_reducible apply setPort_inv
    | split

theorem rampDown_inv {d : Nat} {p : Nat} {x : PortSt} (i_free : Skips.free φ) (i_out : Skips.out φ) (hU : At φ c₀ s) : At φ c₀ (rampDown s d p x) := by
  unfold rampDown
  try dsimp only
  repeat' first
    | with_reducible assumption
    | intro _
    | with_reducible apply ite_inv
    | split
    | with_reducible refine At.step (skip_free_out i_free i_out _ _ _) ?_
    | with_reducible refine At.step (i_free _ _) ?_
    | with_reducible refine At.step (i_out _ _) ?_

theorem senseCut_inv {d : Nat} {p : Nat} (i_echos : Skips.echos φ) (hU : At φ c₀ s) : At φ c₀ (senseCut s d p) := by
  unfold senseCut
  try dsimp only
  repeat' first
    | with_reducible assumption
    | intro _
    | with_reducible apply ite_inv
    | with_reducible apply setEcho_inv
    | split

theorem hpCut_inv {d : Nat} {p : Nat} (i_free : Skips.free φ) (i_ports : Skips.ports φ) (i_echos : Skips.echos φ) (i_out : Skips.out φ) (hU : At φ c₀ s) : At φ c₀ (hpCut s d p) := by
  unfold hpCut
  try dsimp only
  repeat' first
    | with_reducible assumption
    | intro _
    | with_reducible apply ite_inv
    | with_reducible apply setPort_inv
    | with_reducible apply senseCut_inv
    | with_reducible apply emit_inv
    | with_reducible apply rampDown_inv
    | split

theorem hpSafe_inv {d : Nat} {p : Nat} {ks : List Nat} (i_free : Skips.free φ) (i_regs : Skips.regs φ) (i_ctxs : Skips.ctxs φ) (i_ports : Skips.ports φ) (i_seamQ : Skips.seamQ φ) (i_echos : Skips.echos φ) (i_trigs : Skips.trigs φ) (i_assays : Skips.assays φ) (i_pcie : Skips.pcie φ) (i_out : Skips.out φ) (hU : At φ c₀ s) : At φ c₀ (hpSafe s d p ks) := by
  unfold hpSafe
  try dsimp only
  repeat' first
    | with_reducible assumption
    | intro _
    | with_reducible apply ite_inv
    | with_reducible apply hpCut_inv
    | with_reducible apply nullFrames_inv
    | with_reducible apply loadAbort_inv
    | with_reducible apply each_inv
    | with_reducible apply ctxFence_inv
    | with_reducible apply asPortFenced_inv
    | with_reducible apply htrFollow_inv
    | split

theorem encSafe_inv {d : Nat} {c : Nat} (i_regs : Skips.regs φ) (i_encs : Skips.encs φ) (i_pds : Skips.pds φ) (i_msgs : Skips.msgs φ) (i_hops : Skips.hops φ) (i_pcie : Skips.pcie φ) (i_out : Skips.out φ) (hU : At φ c₀ s) : At φ c₀ (encSafe s d c) := by
  unfold encSafe
  try dsimp only
  repeat' first
    | with_reducible assumption
    | intro _
    | with_reducible apply ite_inv
    | with_reducible apply pdUnlock_inv
    | with_reducible apply encLost_inv
    | with_reducible apply encInvalid_inv
    | with_reducible apply serDrop_inv
    | split

theorem pdSafe_inv {d : Nat} (i_msgs : Skips.msgs φ) (hU : At φ c₀ s) : At φ c₀ (pdSafe s d) := by
  unfold pdSafe
  try dsimp only
  repeat' first
    | with_reducible assumption
    | intro _
    | with_reducible apply ite_inv
    | split
    | with_reducible refine At.step (i_msgs _ _) ?_

theorem axSafe_inv {d : Nat} {a : Nat} {reason : Nat} (i_regs : Skips.regs φ) (i_msgs : Skips.msgs φ) (i_axes : Skips.axes φ) (i_hops : Skips.hops φ) (i_pcie : Skips.pcie φ) (i_out : Skips.out φ) (hU : At φ c₀ s) : At φ c₀ (axSafe s d a reason) := by
  unfold axSafe
  try dsimp only
  repeat' first
    | with_reducible assumption
    | intro _
    | with_reducible apply ite_inv
    | with_reducible apply setMstate_inv
    | with_reducible apply setAxis_inv
    | with_reducible apply setPosValid_inv
    | with_reducible apply axisLost_inv
    | split

theorem echoSafe_inv {d : Nat} (i_ports : Skips.ports φ) (i_echos : Skips.echos φ) (i_out : Skips.out φ) (hU : At φ c₀ s) : At φ c₀ (echoSafe s d) := by
  unfold echoSafe
  try dsimp only
  repeat' first
    | with_reducible assumption
    | intro _
    | with_reducible apply ite_inv
    | with_reducible apply emit_inv
    | with_reducible apply setEcho_inv
    | with_reducible apply each_inv
    | with_reducible apply setPort_inv
    | split

theorem hoistSafe_inv {d : Nat} {c : Nat} (i_regs : Skips.regs φ) (i_chutes : Skips.chutes φ) (i_hoists : Skips.hoists φ) (i_trigs : Skips.trigs φ) (i_cqWait : Skips.cqWait φ) (i_pcie : Skips.pcie φ) (i_out : Skips.out φ) (hU : At φ c₀ s) : At φ c₀ (hoistSafe s d c) := by
  unfold hoistSafe
  try dsimp only
  repeat' first
    | with_reducible assumption
    | intro _
    | with_reducible apply ite_inv
    | with_reducible apply hcUnsig_inv
    | with_reducible apply hcDrop_inv
    | with_reducible apply setHoist_inv
    | split
    | with_reducible refine At.step (i_trigs _ _) ?_

theorem lampSafe_inv {d : Nat} (i_lamps : Skips.lamps φ) (hU : At φ c₀ s) : At φ c₀ (lampSafe s d) := by
  unfold lampSafe
  try dsimp only
  repeat' first
    | with_reducible assumption
    | intro _
    | with_reducible apply ite_inv
    | with_reducible apply setLamp_inv
    | split

theorem thermSafe_inv {d : Nat} (i_ports : Skips.ports φ) (i_therms : Skips.therms φ) (hU : At φ c₀ s) : At φ c₀ (thermSafe s d) := by
  unfold thermSafe
  try dsimp only
  repeat' first
    | with_reducible assumption
    | intro _
    | with_reducible apply ite_inv
    | with_reducible apply setTherm_inv
    | split
    | with_reducible refine At.step (i_ports _ _) ?_

theorem pageSafe_inv {p : Pg} {reason : Nat} {ks : List Nat} (i_free : Skips.free φ) (i_regs : Skips.regs φ) (i_chutes : Skips.chutes φ) (i_ctxs : Skips.ctxs φ) (i_ports : Skips.ports φ) (i_encs : Skips.encs φ) (i_pds : Skips.pds φ) (i_seamQ : Skips.seamQ φ) (i_echos : Skips.echos φ) (i_msgs : Skips.msgs φ) (i_axes : Skips.axes φ) (i_hoists : Skips.hoists φ) (i_trigs : Skips.trigs φ) (i_cqWait : Skips.cqWait φ) (i_assays : Skips.assays φ) (i_therms : Skips.therms φ) (i_lamps : Skips.lamps φ) (i_tsync : Skips.tsync φ) (i_hops : Skips.hops φ) (i_dies : Skips.dies φ) (i_pkg : Skips.pkg φ) (i_pcie : Skips.pcie φ) (i_out : Skips.out φ) (hU : At φ c₀ s) : At φ c₀ (pageSafe s p reason ks) := by
  unfold pageSafe
  try dsimp only
  repeat' first
    | with_reducible assumption
    | intro _
    | with_reducible apply ite_inv
    | with_reducible apply hpSafe_inv
    | with_reducible apply encSafe_inv
    | with_reducible apply pdSafe_inv
    | with_reducible apply axSafe_inv
    | with_reducible apply seamsUpdate_inv
    | with_reducible apply echoSafe_inv
    | with_reducible apply asSafe_inv
    | with_reducible apply hoistSafe_inv
    | with_reducible apply lampSafe_inv
    | with_reducible apply thermSafe_inv
    | with_reducible apply dbgClose_inv
    | with_reducible apply stepDrop_inv
    | with_reducible apply wf_inv
    | with_reducible apply chuteFollow_inv
    | split

theorem fenceQuiet_inv {p : Pg} {reason : Nat} {ks : List Nat} (i_free : Skips.free φ) (i_regs : Skips.regs φ) (i_shad : Skips.shad φ) (i_hold : Skips.hold φ) (i_fences : Skips.fences φ) (i_ecc : Skips.ecc φ) (i_chutes : Skips.chutes φ) (i_ctxs : Skips.ctxs φ) (i_ports : Skips.ports φ) (i_encs : Skips.encs φ) (i_pds : Skips.pds φ) (i_seamQ : Skips.seamQ φ) (i_echos : Skips.echos φ) (i_mems : Skips.mems φ) (i_msgs : Skips.msgs φ) (i_axes : Skips.axes φ) (i_hoists : Skips.hoists φ) (i_trigs : Skips.trigs φ) (i_cqWait : Skips.cqWait φ) (i_cqSeq : Skips.cqSeq φ) (i_assays : Skips.assays φ) (i_therms : Skips.therms φ) (i_lamps : Skips.lamps φ) (i_mboxes : Skips.mboxes φ) (i_fws : Skips.fws φ) (i_tsync : Skips.tsync φ) (i_hops : Skips.hops φ) (i_dies : Skips.dies φ) (i_pkg : Skips.pkg φ) (i_pcie : Skips.pcie φ) (i_out : Skips.out φ) (hU : At φ c₀ s) : At φ c₀ (fenceQuiet s p reason ks) := by
  unfold fenceQuiet
  try dsimp only
  repeat' first
    | with_reducible assumption
    | intro _
    | with_reducible apply ite_inv
    | with_reducible apply encSync_inv
    | with_reducible apply setFenceSt_inv
    | with_reducible apply softReset_inv
    | with_reducible apply wf_inv
    | with_reducible apply setPstate_inv
    | with_reducible apply wb_inv
    | with_reducible apply wr_inv
    | with_reducible apply raise_inv
    | with_reducible apply count_inv
    | with_reducible apply pageSafe_inv
    | split

theorem fencePage_inv {p : Pg} {reason : Nat} (i_free : Skips.free φ) (i_regs : Skips.regs φ) (i_shad : Skips.shad φ) (i_hold : Skips.hold φ) (i_fences : Skips.fences φ) (i_ecc : Skips.ecc φ) (i_chutes : Skips.chutes φ) (i_ctxs : Skips.ctxs φ) (i_ports : Skips.ports φ) (i_encs : Skips.encs φ) (i_pds : Skips.pds φ) (i_seamQ : Skips.seamQ φ) (i_echos : Skips.echos φ) (i_mems : Skips.mems φ) (i_msgs : Skips.msgs φ) (i_axes : Skips.axes φ) (i_hoists : Skips.hoists φ) (i_trigs : Skips.trigs φ) (i_cqWait : Skips.cqWait φ) (i_cqSeq : Skips.cqSeq φ) (i_assays : Skips.assays φ) (i_therms : Skips.therms φ) (i_lamps : Skips.lamps φ) (i_mboxes : Skips.mboxes φ) (i_fws : Skips.fws φ) (i_tsync : Skips.tsync φ) (i_hops : Skips.hops φ) (i_dies : Skips.dies φ) (i_pkg : Skips.pkg φ) (i_pcie : Skips.pcie φ) (i_out : Skips.out φ) (hU : At φ c₀ s) : At φ c₀ (fencePage s p reason) := by
  unfold fencePage
  try dsimp only
  repeat' first
    | with_reducible assumption
    | intro _
    | with_reducible apply ite_inv
    | with_reducible apply logRecord_inv
    | with_reducible apply fenceQuiet_inv
    | split

theorem fencePageFor_inv {p : Pg} {reason : Nat} {cause : Link} (i_free : Skips.free φ) (i_regs : Skips.regs φ) (i_shad : Skips.shad φ) (i_hold : Skips.hold φ) (i_fences : Skips.fences φ) (i_ecc : Skips.ecc φ) (i_chutes : Skips.chutes φ) (i_ctxs : Skips.ctxs φ) (i_ports : Skips.ports φ) (i_encs : Skips.encs φ) (i_pds : Skips.pds φ) (i_seamQ : Skips.seamQ φ) (i_echos : Skips.echos φ) (i_mems : Skips.mems φ) (i_msgs : Skips.msgs φ) (i_axes : Skips.axes φ) (i_hoists : Skips.hoists φ) (i_trigs : Skips.trigs φ) (i_cqWait : Skips.cqWait φ) (i_cqSeq : Skips.cqSeq φ) (i_assays : Skips.assays φ) (i_therms : Skips.therms φ) (i_lamps : Skips.lamps φ) (i_mboxes : Skips.mboxes φ) (i_fws : Skips.fws φ) (i_tsync : Skips.tsync φ) (i_hops : Skips.hops φ) (i_dies : Skips.dies φ) (i_pkg : Skips.pkg φ) (i_pcie : Skips.pcie φ) (i_out : Skips.out φ) (hU : At φ c₀ s) : At φ c₀ (fencePageFor s p reason cause) := by
  unfold fencePageFor
  try dsimp only
  repeat' first
    | with_reducible assumption
    | intro _
    | with_reducible apply ite_inv
    | with_reducible apply logRecord_inv
    | with_reducible apply fenceQuiet_inv
    | split

theorem fenceAll_inv {d : Nat} {reason : Nat} (i_free : Skips.free φ) (i_regs : Skips.regs φ) (i_shad : Skips.shad φ) (i_hold : Skips.hold φ) (i_fences : Skips.fences φ) (i_ecc : Skips.ecc φ) (i_chutes : Skips.chutes φ) (i_ctxs : Skips.ctxs φ) (i_ports : Skips.ports φ) (i_encs : Skips.encs φ) (i_pds : Skips.pds φ) (i_seamQ : Skips.seamQ φ) (i_echos : Skips.echos φ) (i_mems : Skips.mems φ) (i_msgs : Skips.msgs φ) (i_axes : Skips.axes φ) (i_hoists : Skips.hoists φ) (i_trigs : Skips.trigs φ) (i_cqWait : Skips.cqWait φ) (i_cqSeq : Skips.cqSeq φ) (i_assays : Skips.assays φ) (i_therms : Skips.therms φ) (i_lamps : Skips.lamps φ) (i_mboxes : Skips.mboxes φ) (i_fws : Skips.fws φ) (i_tsync : Skips.tsync φ) (i_hops : Skips.hops φ) (i_dies : Skips.dies φ) (i_pkg : Skips.pkg φ) (i_pcie : Skips.pcie φ) (i_out : Skips.out φ) (hU : At φ c₀ s) : At φ c₀ (fenceAll s d reason) := by
  unfold fenceAll
  try dsimp only
  repeat' first
    | with_reducible assumption
    | intro _
    | with_reducible apply ite_inv
    | with_reducible apply each_inv
    | with_reducible apply ctxFence_inv
    | with_reducible apply fenceQuiet_inv
    | with_reducible apply setDie_inv
    | split

theorem dieRecord_inv {d : Nat} {kind : Nat} {reason : Nat} (i_regs : Skips.regs φ) (i_chutes : Skips.chutes φ) (i_trigs : Skips.trigs φ) (i_dies : Skips.dies φ) (i_pcie : Skips.pcie φ) (i_out : Skips.out φ) (hU : At φ c₀ s) : At φ c₀ (dieRecord s d kind reason) := by
  unfold dieRecord
  try dsimp only
  repeat' first
    | with_reducible assumption
    | intro _
    | with_reducible apply ite_inv
    | with_reducible apply logRecord_inv
    | split

theorem seamsAll_inv (i_regs : Skips.regs φ) (i_ctxs : Skips.ctxs φ) (i_seamQ : Skips.seamQ φ) (i_pcie : Skips.pcie φ) (i_out : Skips.out φ) (hU : At φ c₀ s) : At φ c₀ (seamsAll s) := by
  unfold seamsAll
  try dsimp only
  repeat' first
    | with_reducible assumption
    | intro _
    | with_reducible apply ite_inv
    | with_reducible apply each_inv
    | with_reducible apply seamsUpdate_inv
    | split

theorem dieReport_inv {d : Nat} {reason : Nat} (i_regs : Skips.regs φ) (i_chutes : Skips.chutes φ) (i_ctxs : Skips.ctxs φ) (i_seamQ : Skips.seamQ φ) (i_trigs : Skips.trigs φ) (i_dies : Skips.dies φ) (i_pcie : Skips.pcie φ) (i_out : Skips.out φ) (hU : At φ c₀ s) : At φ c₀ (dieReport s d reason) := by
  unfold dieReport
  try dsimp only
  repeat' first
    | with_reducible assumption
    | intro _
    | with_reducible apply ite_inv
    | with_reducible apply dieRecord_inv
    | with_reducible apply raise_inv
    | with_reducible apply seamsAll_inv
    | with_reducible apply wb_inv
    | split

theorem fenceDie_inv {d : Nat} {reason : Nat} (i_free : Skips.free φ) (i_regs : Skips.regs φ) (i_shad : Skips.shad φ) (i_hold : Skips.hold φ) (i_fences : Skips.fences φ) (i_ecc : Skips.ecc φ) (i_chutes : Skips.chutes φ) (i_ctxs : Skips.ctxs φ) (i_ports : Skips.ports φ) (i_encs : Skips.encs φ) (i_pds : Skips.pds φ) (i_seamQ : Skips.seamQ φ) (i_echos : Skips.echos φ) (i_mems : Skips.mems φ) (i_msgs : Skips.msgs φ) (i_axes : Skips.axes φ) (i_hoists : Skips.hoists φ) (i_trigs : Skips.trigs φ) (i_cqWait : Skips.cqWait φ) (i_cqSeq : Skips.cqSeq φ) (i_assays : Skips.assays φ) (i_therms : Skips.therms φ) (i_lamps : Skips.lamps φ) (i_mboxes : Skips.mboxes φ) (i_fws : Skips.fws φ) (i_tsync : Skips.tsync φ) (i_hops : Skips.hops φ) (i_dies : Skips.dies φ) (i_pkg : Skips.pkg φ) (i_pcie : Skips.pcie φ) (i_out : Skips.out φ) (hU : At φ c₀ s) : At φ c₀ (fenceDie s d reason) := by
  unfold fenceDie
  try dsimp only
  repeat' first
    | with_reducible assumption
    | intro _
    | with_reducible apply ite_inv
    | with_reducible apply fenceAll_inv
    | with_reducible apply setDie_inv
    | with_reducible apply dieReport_inv
    | split

theorem diesLearn_inv (i_regs : Skips.regs φ) (i_chutes : Skips.chutes φ) (i_ctxs : Skips.ctxs φ) (i_seamQ : Skips.seamQ φ) (i_trigs : Skips.trigs φ) (i_dies : Skips.dies φ) (i_pcie : Skips.pcie φ) (i_out : Skips.out φ) (hU : At φ c₀ s) : At φ c₀ (diesLearn s) := by
  unfold diesLearn
  try dsimp only
  repeat' first
    | with_reducible assumption
    | intro _
    | with_reducible apply ite_inv
    | with_reducible apply each_inv
    | with_reducible apply dieReport_inv
    | with_reducible apply setDie_inv
    | split

theorem trainFailed_inv {d : Nat} {p : Nat} (i_free : Skips.free φ) (i_regs : Skips.regs φ) (i_shad : Skips.shad φ) (i_hold : Skips.hold φ) (i_fences : Skips.fences φ) (i_ecc : Skips.ecc φ) (i_chutes : Skips.chutes φ) (i_ctxs : Skips.ctxs φ) (i_ports : Skips.ports φ) (i_encs : Skips.encs φ) (i_pds : Skips.pds φ) (i_seamQ : Skips.seamQ φ) (i_echos : Skips.echos φ) (i_mems : Skips.mems φ) (i_msgs : Skips.msgs φ) (i_axes : Skips.axes φ) (i_hoists : Skips.hoists φ) (i_trigs : Skips.trigs φ) (i_cqWait : Skips.cqWait φ) (i_cqSeq : Skips.cqSeq φ) (i_assays : Skips.assays φ) (i_therms : Skips.therms φ) (i_lamps : Skips.lamps φ) (i_mboxes : Skips.mboxes φ) (i_fws : Skips.fws φ) (i_tsync : Skips.tsync φ) (i_hops : Skips.hops φ) (i_dies : Skips.dies φ) (i_pkg : Skips.pkg φ) (i_pcie : Skips.pcie φ) (i_out : Skips.out φ) (hU : At φ c₀ s) : At φ c₀ (trainFailed s d p) := by
  unfold trainFailed
  try dsimp only
  repeat' first
    | with_reducible assumption
    | intro _
    | with_reducible apply ite_inv
    | with_reducible apply setPort_inv
    | with_reducible apply linkFail_inv
    | with_reducible apply abandonFrames_inv
    | with_reducible apply fencePageFor_inv
    | split

theorem attemptEnd_inv {d : Nat} {p : Nat} {n : Nat} (i_clock : Skips.clock φ) (i_regs : Skips.regs φ) (i_dies : Skips.dies φ) (i_pcie : Skips.pcie φ) (i_out : Skips.out φ) (hU : At φ c₀ s) : At φ c₀ (attemptEnd s d p n) := by
  unfold attemptEnd
  try dsimp only
  repeat' first
    | with_reducible assumption
    | intro _
    | with_reducible apply ite_inv
    | with_reducible apply waitClock_inv
    | with_reducible apply trainSets_inv
    | split

theorem execTrainAttemptTimeout_ansAt {d : Nat} {e : AttemptEnd} (i_clock : Skips.clock φ) (i_free : Skips.free φ) (i_regs : Skips.regs φ) (i_shad : Skips.shad φ) (i_hold : Skips.hold φ) (i_fences : Skips.fences φ) (i_ecc : Skips.ecc φ) (i_chutes : Skips.chutes φ) (i_ctxs : Skips.ctxs φ) (i_ports : Skips.ports φ) (i_encs : Skips.encs φ) (i_pds : Skips.pds φ) (i_seamQ : Skips.seamQ φ) (i_echos : Skips.echos φ) (i_mems : Skips.mems φ) (i_msgs : Skips.msgs φ) (i_axes : Skips.axes φ) (i_hoists : Skips.hoists φ) (i_trigs : Skips.trigs φ) (i_cqWait : Skips.cqWait φ) (i_cqSeq : Skips.cqSeq φ) (i_assays : Skips.assays φ) (i_therms : Skips.therms φ) (i_lamps : Skips.lamps φ) (i_mboxes : Skips.mboxes φ) (i_fws : Skips.fws φ) (i_tsync : Skips.tsync φ) (i_hops : Skips.hops φ) (i_dies : Skips.dies φ) (i_pkg : Skips.pkg φ) (i_pcie : Skips.pcie φ) (i_out : Skips.out φ) (hU : At φ c₀ s) : AnsAt φ c₀ (execTrainAttemptTimeout d e s) := by
  unfold execTrainAttemptTimeout
  try dsimp only
  repeat' first
    | with_reducible assumption
    | intro _
    | with_reducible apply ok_ansAt
    | with_reducible apply ite_ansAt
    | with_reducible apply ite_inv
    | with_reducible apply attemptEnd_inv
    | with_reducible exact ok_ansAt (by assumption)
    | with_reducible apply setPort_inv
    | with_reducible apply trainFailed_inv
    | split

end Sys2Proof.Laws
end

