-- ==== Sys2Proof/Laws/HoistCtlInv.lean ====
section
/-!
SUPPORT. The fields of the state that each operation of `Machine/HoistCtl.lean` may change: whatever reads none of them is the same after it.
-/

set_option Elab.async false
set_option linter.unusedTactic false
set_option linter.unreachableTactic false
namespace Sys2Proof.Laws

open Sys2Proof.Machine

variable {α₀ : Type} {φ : State → α₀} {c₀ : α₀} {s : State}

theorem hcRecord_inv {d : Nat} {c : Nat} {e : HcErr} (i_regs : Skips.regs φ) (i_chutes : Skips.chutes φ) (i_trigs : Skips.trigs φ) (i_dies : Skips.dies φ) (i_pcie : Skips.pcie φ) (i_out : Skips.out φ) (hU : At φ c₀ s) : At φ c₀ (hcRecord s d c e) := by
  unfold hcRecord
  try dsimp only
  repeat' first
    | with_reducible assumption
    | intro _
    | with_reducible apply ite_inv
    | with_reducible apply logRecord_inv
    | split

theorem hcReport_inv {d : Nat} {c : Nat} {e : HcErr} (i_regs : Skips.regs φ) (i_chutes : Skips.chutes φ) (i_trigs : Skips.trigs φ) (i_cqWait : Skips.cqWait φ) (i_dies : Skips.dies φ) (i_pcie : Skips.pcie φ) (i_out : Skips.out φ) (hU : At φ c₀ s) : At φ c₀ (hcReport s d c e) := by
  unfold hcReport
  try dsimp only
  repeat' first
    | with_reducible assumption
    | intro _
    | with_reducible apply ite_inv
    | with_reducible apply wr_inv
    | with_reducible apply wr48_inv
    | with_reducible apply errRecord_inv
    | with_reducible apply hcRecord_inv
    | with_reducible apply count_inv
    | with_reducible apply raise_inv
    | split

theorem hcAborted_inv {d : Nat} {c : Nat} (i_regs : Skips.regs φ) (i_chutes : Skips.chutes φ) (i_hoists : Skips.hoists φ) (i_trigs : Skips.trigs φ) (i_cqWait : Skips.cqWait φ) (i_pcie : Skips.pcie φ) (i_out : Skips.out φ) (hU : At φ c₀ s) : At φ c₀ (hcAborted s d c) := by
  unfold hcAborted
  try dsimp only
  repeat' first
    | with_reducible assumption
    | intro _
    | with_reducible apply ite_inv
    | with_reducible apply errRecord_inv
    | with_reducible apply hcUnhold_inv
    | with_reducible apply raise_inv
    | with_reducible apply setHoist_inv
    | split

theorem hcFail_inv {d : Nat} {c : Nat} {b : Option Burst} {e : HcErr} (i_free : Skips.free φ) (i_regs : Skips.regs φ) (i_shad : Skips.shad φ) (i_hold : Skips.hold φ) (i_fences : Skips.fences φ) (i_ecc : Skips.ecc φ) (i_chutes : Skips.chutes φ) (i_ctxs : Skips.ctxs φ) (i_ports : Skips.ports φ) (i_encs : Skips.encs φ) (i_pds : Skips.pds φ) (i_seamQ : Skips.seamQ φ) (i_echos : Skips.echos φ) (i_mems : Skips.mems φ) (i_msgs : Skips.msgs φ) (i_axes : Skips.axes φ) (i_hoists : Skips.hoists φ) (i_trigs : Skips.trigs φ) (i_cqWait : Skips.cqWait φ) (i_cqSeq : Skips.cqSeq φ) (i_assays : Skips.assays φ) (i_therms : Skips.therms φ) (i_lamps : Skips.lamps φ) (i_mboxes : Skips.mboxes φ) (i_fws : Skips.fws φ) (i_tsync : Skips.tsync φ) (i_hops : Skips.hops φ) (i_dies : Skips.dies φ) (i_pkg : Skips.pkg φ) (i_pcie : Skips.pcie φ) (i_out : Skips.out φ) (hU : At φ c₀ s) : At φ c₀ (hcFail s d c b e) := by
  unfold hcFail
  try dsimp only
  repeat' first
    | with_reducible assumption
    | intro _
    | with_reducible apply ite_inv
    | with_reducible apply hcUnsig_inv
    | with_reducible apply hcDrop_inv
    | with_reducible apply setHoist_inv
    | with_reducible apply hcReport_inv
    | with_reducible apply fenceQuiet_inv
    | with_reducible apply hcAborted_inv
    | split

theorem hcHalt_inv {d : Nat} {c : Nat} {code : Nat} {w : Nat} (i_free : Skips.free φ) (i_regs : Skips.regs φ) (i_shad : Skips.shad φ) (i_hold : Skips.hold φ) (i_fences : Skips.fences φ) (i_ecc : Skips.ecc φ) (i_chutes : Skips.chutes φ) (i_ctxs : Skips.ctxs φ) (i_ports : Skips.ports φ) (i_encs : Skips.encs φ) (i_pds : Skips.pds φ) (i_seamQ : Skips.seamQ φ) (i_echos : Skips.echos φ) (i_mems : Skips.mems φ) (i_msgs : Skips.msgs φ) (i_axes : Skips.axes φ) (i_hoists : Skips.hoists φ) (i_trigs : Skips.trigs φ) (i_cqWait : Skips.cqWait φ) (i_cqSeq : Skips.cqSeq φ) (i_assays : Skips.assays φ) (i_therms : Skips.therms φ) (i_lamps : Skips.lamps φ) (i_mboxes : Skips.mboxes φ) (i_fws : Skips.fws φ) (i_tsync : Skips.tsync φ) (i_hops : Skips.hops φ) (i_dies : Skips.dies φ) (i_pkg : Skips.pkg φ) (i_pcie : Skips.pcie φ) (i_out : Skips.out φ) (hU : At φ c₀ s) : At φ c₀ (hcHalt s d c code w) := by
  unfold hcHalt
  try dsimp only
  repeat' first
    | with_reducible assumption
    | intro _
    | with_reducible apply ite_inv
    | with_reducible apply hcFail_inv
    | split

theorem hcTrigger_inv {d : Nat} {c : Nat} (i_regs : Skips.regs φ) (i_pcie : Skips.pcie φ) (i_out : Skips.out φ) (hU : At φ c₀ s) : At φ c₀ (hcTrigger s d c) := by
  unfold hcTrigger
  try dsimp only
  repeat' first
    | with_reducible assumption
    | intro _
    | with_reducible apply ite_inv
    | with_reducible apply raise_inv
    | with_reducible apply wf_inv
    | split

theorem hcResume_inv {d : Nat} {c : Nat} (i_regs : Skips.regs φ) (i_chutes : Skips.chutes φ) (i_hoists : Skips.hoists φ) (i_trigs : Skips.trigs φ) (i_pcie : Skips.pcie φ) (i_out : Skips.out φ) (hU : At φ c₀ s) : At φ c₀ (hcResume s d c) := by
  unfold hcResume
  try dsimp only
  repeat' first
    | with_reducible assumption
    | intro _
    | with_reducible apply ite_inv
    | with_reducible apply hcUnhold_inv
    | with_reducible apply setHoist_inv
    | split

theorem hcAbort_inv {d : Nat} {c : Nat} (i_regs : Skips.regs φ) (i_chutes : Skips.chutes φ) (i_hoists : Skips.hoists φ) (i_trigs : Skips.trigs φ) (i_cqWait : Skips.cqWait φ) (i_pcie : Skips.pcie φ) (i_out : Skips.out φ) (hU : At φ c₀ s) : At φ c₀ (hcAbort s d c) := by
  unfold hcAbort
  try dsimp only
  repeat' first
    | with_reducible assumption
    | intro _
    | with_reducible apply ite_inv
    | with_reducible apply hcAborted_inv
    | with_reducible apply hcUnsig_inv
    | with_reducible apply setHoist_inv
    | split

theorem hcCtrl_inv {d : Nat} {c : Nat} {v : Word} (i_regs : Skips.regs φ) (i_chutes : Skips.chutes φ) (i_hoists : Skips.hoists φ) (i_trigs : Skips.trigs φ) (i_cqWait : Skips.cqWait φ) (i_pcie : Skips.pcie φ) (i_out : Skips.out φ) (hU : At φ c₀ s) : At φ c₀ (hcCtrl s d c v) := by
  unfold hcCtrl
  try dsimp only
  repeat' first
    | with_reducible assumption
    | intro _
    | with_reducible apply ite_inv
    | with_reducible apply wb_inv
    | with_reducible apply whenDo_inv
    | with_reducible apply wf_inv
    | with_reducible apply hcAbort_inv
    | with_reducible apply hcResume_inv
    | with_reducible apply hcTrigger_inv
    | split

theorem hcStarted_inv {d : Nat} {c : Nat} (i_regs : Skips.regs φ) (i_chutes : Skips.chutes φ) (i_hoists : Skips.hoists φ) (i_trigs : Skips.trigs φ) (i_cqWait : Skips.cqWait φ) (i_pcie : Skips.pcie φ) (i_out : Skips.out φ) (hU : At φ c₀ s) : At φ c₀ (hcStarted s d c) := by
  unfold hcStarted
  try dsimp only
  repeat' first
    | with_reducible assumption
    | intro _
    | with_reducible apply ite_inv
    | with_reducible apply setHoist_inv
    | with_reducible apply hcAborted_inv
    | with_reducible apply wr_inv
    | with_reducible apply wr48_inv
    | with_reducible apply errRecord_inv
    | with_reducible apply count_inv
    | with_reducible apply raise_inv
    | split

theorem hcStop_inv {d : Nat} {c : Nat} (i_regs : Skips.regs φ) (i_hoists : Skips.hoists φ) (i_cqWait : Skips.cqWait φ) (i_pcie : Skips.pcie φ) (i_out : Skips.out φ) (hU : At φ c₀ s) : At φ c₀ (hcStop s d c) := by
  unfold hcStop
  try dsimp only
  repeat' first
    | with_reducible assumption
    | intro _
    | with_reducible apply ite_inv
    | with_reducible apply wf_inv
    | with_reducible apply hcUnsig_inv
    | with_reducible apply setHoist_inv
    | split

theorem hcStopped_inv {d : Nat} {c : Nat} (i_regs : Skips.regs φ) (i_chutes : Skips.chutes φ) (i_hoists : Skips.hoists φ) (i_trigs : Skips.trigs φ) (i_cqWait : Skips.cqWait φ) (i_pcie : Skips.pcie φ) (i_out : Skips.out φ) (hU : At φ c₀ s) : At φ c₀ (hcStopped s d c) := by
  unfold hcStopped
  try dsimp only
  repeat' first
    | with_reducible assumption
    | intro _
    | with_reducible apply ite_inv
    | with_reducible apply hcUnhold_inv
    | with_reducible apply errRecord_inv
    | with_reducible apply setHoist_inv
    | split

end Sys2Proof.Laws
end

