-- ==== Sys2Proof/Laws/AxisInv.lean ====
section
/-!
SUPPORT. The fields of the state that each operation of `Machine/Axis.lean` may change: whatever reads none of them is the same after it.
-/

set_option Elab.async false
set_option linter.unusedTactic false
set_option linter.unreachableTactic false
namespace Sys2Proof.Laws

open Sys2Proof.Machine

variable {α₀ : Type} {φ : State → α₀} {c₀ : α₀} {s : State}

theorem axFault_inv {d : Nat} {a : Nat} {bitNo : Nat} {evt : Nat} (i_regs : Skips.regs φ) (i_pcie : Skips.pcie φ) (i_out : Skips.out φ) (hU : At φ c₀ s) : At φ c₀ (axFault s d a bitNo evt) := by
  unfold axFault
  try dsimp only
  repeat' first
    | with_reducible assumption
    | intro _
    | with_reducible apply ite_inv
    | with_reducible apply raise_inv
    | with_reducible apply wb_inv
    | split

theorem axPolicy_inv {d : Nat} {a : Nat} {fenceBit : Nat} {reason : Nat} (i_free : Skips.free φ) (i_regs : Skips.regs φ) (i_shad : Skips.shad φ) (i_hold : Skips.hold φ) (i_fences : Skips.fences φ) (i_ecc : Skips.ecc φ) (i_chutes : Skips.chutes φ) (i_ctxs : Skips.ctxs φ) (i_ports : Skips.ports φ) (i_encs : Skips.encs φ) (i_pds : Skips.pds φ) (i_seamQ : Skips.seamQ φ) (i_echos : Skips.echos φ) (i_mems : Skips.mems φ) (i_msgs : Skips.msgs φ) (i_axes : Skips.axes φ) (i_hoists : Skips.hoists φ) (i_trigs : Skips.trigs φ) (i_cqWait : Skips.cqWait φ) (i_cqSeq : Skips.cqSeq φ) (i_assays : Skips.assays φ) (i_therms : Skips.therms φ) (i_lamps : Skips.lamps φ) (i_mboxes : Skips.mboxes φ) (i_fws : Skips.fws φ) (i_tsync : Skips.tsync φ) (i_hops : Skips.hops φ) (i_dies : Skips.dies φ) (i_pkg : Skips.pkg φ) (i_pcie : Skips.pcie φ) (i_out : Skips.out φ) (hU : At φ c₀ s) : At φ c₀ (axPolicy s d a fenceBit reason) := by
  unfold axPolicy
  try dsimp only
  repeat' first
    | with_reducible assumption
    | intro _
    | with_reducible apply ite_inv
    | with_reducible apply fencePage_inv
    | with_reducible apply setAxis_inv
    | split

theorem axStall_inv {d : Nat} {a : Nat} (i_free : Skips.free φ) (i_regs : Skips.regs φ) (i_shad : Skips.shad φ) (i_hold : Skips.hold φ) (i_fences : Skips.fences φ) (i_ecc : Skips.ecc φ) (i_chutes : Skips.chutes φ) (i_ctxs : Skips.ctxs φ) (i_ports : Skips.ports φ) (i_encs : Skips.encs φ) (i_pds : Skips.pds φ) (i_seamQ : Skips.seamQ φ) (i_echos : Skips.echos φ) (i_mems : Skips.mems φ) (i_msgs : Skips.msgs φ) (i_axes : Skips.axes φ) (i_hoists : Skips.hoists φ) (i_trigs : Skips.trigs φ) (i_cqWait : Skips.cqWait φ) (i_cqSeq : Skips.cqSeq φ) (i_assays : Skips.assays φ) (i_therms : Skips.therms φ) (i_lamps : Skips.lamps φ) (i_mboxes : Skips.mboxes φ) (i_fws : Skips.fws φ) (i_tsync : Skips.tsync φ) (i_hops : Skips.hops φ) (i_dies : Skips.dies φ) (i_pkg : Skips.pkg φ) (i_pcie : Skips.pcie φ) (i_out : Skips.out φ) (hU : At φ c₀ s) : At φ c₀ (axStall s d a) := by
  unfold axStall
  try dsimp only
  repeat' first
    | with_reducible assumption
    | intro _
    | with_reducible apply ite_inv
    | with_reducible apply axPolicy_inv
    | with_reducible apply axFault_inv
    | with_reducible apply count_inv
    | split

theorem stallDetect_inv {d : Nat} {a : Nat} {theta : Nat} {ia : Int} {ib : Int} (i_free : Skips.free φ) (i_regs : Skips.regs φ) (i_axes : Skips.axes φ) (hU : At φ c₀ s) : At φ c₀ (stallDetect s d a theta ia ib).2 := by
  unfold stallDetect
  try dsimp only
  repeat' first
    | with_reducible assumption
    | intro _
    | with_reducible apply ite_inv
    | with_reducible apply setAxis_inv
    | with_reducible apply nextFree_inv
    | with_reducible apply wr_inv
    | split

theorem loopTick_inv {d : Nat} {a : Nat} {sa : Int} {sb : Int} (i_free : Skips.free φ) (i_regs : Skips.regs φ) (i_shad : Skips.shad φ) (i_hold : Skips.hold φ) (i_fences : Skips.fences φ) (i_ecc : Skips.ecc φ) (i_chutes : Skips.chutes φ) (i_ctxs : Skips.ctxs φ) (i_ports : Skips.ports φ) (i_encs : Skips.encs φ) (i_pds : Skips.pds φ) (i_seamQ : Skips.seamQ φ) (i_echos : Skips.echos φ) (i_mems : Skips.mems φ) (i_msgs : Skips.msgs φ) (i_axes : Skips.axes φ) (i_hoists : Skips.hoists φ) (i_trigs : Skips.trigs φ) (i_cqWait : Skips.cqWait φ) (i_cqSeq : Skips.cqSeq φ) (i_assays : Skips.assays φ) (i_therms : Skips.therms φ) (i_lamps : Skips.lamps φ) (i_mboxes : Skips.mboxes φ) (i_fws : Skips.fws φ) (i_tsync : Skips.tsync φ) (i_hops : Skips.hops φ) (i_dies : Skips.dies φ) (i_pkg : Skips.pkg φ) (i_pcie : Skips.pcie φ) (i_out : Skips.out φ) (hU : At φ c₀ s) : At φ c₀ (loopTick s d a sa sb) := by
  unfold loopTick
  try dsimp only
  repeat' first
    | with_reducible assumption
    | intro _
    | with_reducible apply ite_inv
    | with_reducible apply setAxis_inv
    | with_reducible apply nextFree_inv
    | with_reducible apply stallDetect_inv
    | with_reducible apply wr_inv
    | with_reducible apply whenDo_inv
    | with_reducible apply fencePage_inv
    | with_reducible apply axFault_inv
    | with_reducible apply axStall_inv
    | (with_reducible refine pair_inv (by assumption) ?_)
    | split

theorem execCurrentLoopTick_ansAt {d : Nat} {a : Nat} {ia : Int} {ib : Int} (i_clock : Skips.clock φ) (i_free : Skips.free φ) (i_regs : Skips.regs φ) (i_shad : Skips.shad φ) (i_hold : Skips.hold φ) (i_fences : Skips.fences φ) (i_ecc : Skips.ecc φ) (i_chutes : Skips.chutes φ) (i_ctxs : Skips.ctxs φ) (i_ports : Skips.ports φ) (i_encs : Skips.encs φ) (i_pds : Skips.pds φ) (i_seamQ : Skips.seamQ φ) (i_echos : Skips.echos φ) (i_mems : Skips.mems φ) (i_msgs : Skips.msgs φ) (i_axes : Skips.axes φ) (i_hoists : Skips.hoists φ) (i_trigs : Skips.trigs φ) (i_cqWait : Skips.cqWait φ) (i_cqSeq : Skips.cqSeq φ) (i_assays : Skips.assays φ) (i_therms : Skips.therms φ) (i_lamps : Skips.lamps φ) (i_mboxes : Skips.mboxes φ) (i_fws : Skips.fws φ) (i_tsync : Skips.tsync φ) (i_hops : Skips.hops φ) (i_dies : Skips.dies φ) (i_pkg : Skips.pkg φ) (i_pcie : Skips.pcie φ) (i_out : Skips.out φ) (hU : At φ c₀ s) : AnsAt φ c₀ (execCurrentLoopTick d a ia ib s) := by
  unfold execCurrentLoopTick
  try dsimp only
  repeat' first
    | with_reducible assumption
    | intro _
    | with_reducible apply ok_ansAt
    | with_reducible apply ite_ansAt
    | with_reducible apply ite_inv
    | with_reducible exact ok_ansAt (by assumption)
    | with_reducible apply loopTick_inv
    | with_reducible apply waitClock_inv
    | split

theorem execBridgeFault_ansAt {d : Nat} {a : Nat} (i_free : Skips.free φ) (i_regs : Skips.regs φ) (i_shad : Skips.shad φ) (i_hold : Skips.hold φ) (i_fences : Skips.fences φ) (i_ecc : Skips.ecc φ) (i_chutes : Skips.chutes φ) (i_ctxs : Skips.ctxs φ) (i_ports : Skips.ports φ) (i_encs : Skips.encs φ) (i_pds : Skips.pds φ) (i_seamQ : Skips.seamQ φ) (i_echos : Skips.echos φ) (i_mems : Skips.mems φ) (i_msgs : Skips.msgs φ) (i_axes : Skips.axes φ) (i_hoists : Skips.hoists φ) (i_trigs : Skips.trigs φ) (i_cqWait : Skips.cqWait φ) (i_cqSeq : Skips.cqSeq φ) (i_assays : Skips.assays φ) (i_therms : Skips.therms φ) (i_lamps : Skips.lamps φ) (i_mboxes : Skips.mboxes φ) (i_fws : Skips.fws φ) (i_tsync : Skips.tsync φ) (i_hops : Skips.hops φ) (i_dies : Skips.dies φ) (i_pkg : Skips.pkg φ) (i_pcie : Skips.pcie φ) (i_out : Skips.out φ) (hU : At φ c₀ s) : AnsAt φ c₀ (execBridgeFault d a s) := by
  unfold execBridgeFault
  try dsimp only
  repeat' first
    | with_reducible assumption
    | intro _
    | with_reducible apply ok_ansAt
    | with_reducible apply ite_ansAt
    | with_reducible apply ite_inv
    | with_reducible exact ok_ansAt (by assumption)
    | with_reducible apply fencePage_inv
    | with_reducible apply axFault_inv
    | split

theorem stepApply_inv {d : Nat} {a : Nat} {dir : Int} {te : Nat} (i_regs : Skips.regs φ) (i_axes : Skips.axes φ) (i_pcie : Skips.pcie φ) (i_out : Skips.out φ) (hU : At φ c₀ s) : At φ c₀ (stepApply s d a dir te) := by
  unfold stepApply
  try dsimp only
  repeat' first
    | with_reducible assumption
    | intro _
    | with_reducible apply ite_inv
    | with_reducible apply wb_inv
    | with_reducible apply setAxis_inv
    | with_reducible apply whenDo_inv
    | with_reducible apply raise_inv
    | split

theorem execStepInput_ansAt {d : Nat} {a : Nat} {fwd : Bool} (i_regs : Skips.regs φ) (i_axes : Skips.axes φ) (i_pcie : Skips.pcie φ) (i_out : Skips.out φ) (hU : At φ c₀ s) : AnsAt φ c₀ (execStepInput d a fwd s) := by
  unfold execStepInput
  try dsimp only
  repeat' first
    | with_reducible assumption
    | intro _
    | with_reducible apply ok_ansAt
    | with_reducible apply ite_ansAt
    | with_reducible apply ite_inv
    | with_reducible exact ok_ansAt (by assumption)
    | with_reducible apply wr_inv
    | with_reducible apply stepApply_inv
    | with_reducible apply setAxis_inv
    | split

theorem judgeDec_inv {d : Nat} {a : Nat} (i_regs : Skips.regs φ) (i_axes : Skips.axes φ) (i_pcie : Skips.pcie φ) (i_out : Skips.out φ) (hU : At φ c₀ s) : At φ c₀ (judgeDec s d a) := by
  unfold judgeDec
  try dsimp only
  repeat' first
    | with_reducible assumption
    | intro _
    | with_reducible apply ite_inv
    | with_reducible apply setAxis_inv
    | with_reducible apply raise_inv
    | split

theorem planMoving_inv {d : Nat} {a : Nat} (i_regs : Skips.regs φ) (i_axes : Skips.axes φ) (i_pcie : Skips.pcie φ) (i_out : Skips.out φ) (hU : At φ c₀ s) : At φ c₀ (planMoving s d a) := by
  unfold planMoving
  try dsimp only
  repeat' first
    | with_reducible assumption
    | intro _
    | with_reducible apply ite_inv
    | with_reducible apply judgeDec_inv
    | with_reducible apply whenDo_inv
    | with_reducible apply setAxis_inv
    | with_reducible apply raise_inv
    | with_reducible apply setMstate_inv
    | split

theorem planStopping_inv {d : Nat} {a : Nat} (i_regs : Skips.regs φ) (i_axes : Skips.axes φ) (i_pcie : Skips.pcie φ) (i_out : Skips.out φ) (hU : At φ c₀ s) : At φ c₀ (planStopping s d a) := by
  unfold planStopping
  try dsimp only
  repeat' first
    | with_reducible assumption
    | intro _
    | with_reducible apply ite_inv
    | with_reducible apply setAxis_inv
    | with_reducible apply raise_inv
    | with_reducible apply setMstate_inv
    | with_reducible apply wr48_inv
    | split

theorem axHold_inv {d : Nat} {a : Nat} (i_regs : Skips.regs φ) (hU : At φ c₀ s) : At φ c₀ (axHold s d a) := by
  unfold axHold
  try dsimp only
  repeat' first
    | with_reducible assumption
    | intro _
    | with_reducible apply ite_inv
    | with_reducible apply setMstate_inv
    | split

theorem axCut_inv {d : Nat} {a : Nat} {soft : Bool} (i_regs : Skips.regs φ) (i_axes : Skips.axes φ) (i_pcie : Skips.pcie φ) (i_out : Skips.out φ) (hU : At φ c₀ s) : At φ c₀ (axCut s d a soft) := by
  unfold axCut
  try dsimp only
  repeat' first
    | with_reducible assumption
    | intro _
    | with_reducible apply ite_inv
    | with_reducible apply setAxis_inv
    | with_reducible apply setPosValid_inv
    | with_reducible apply raise_inv
    | with_reducible apply setMstate_inv
    | with_reducible apply wr48_inv
    | split

theorem axStop_inv {d : Nat} {a : Nat} {soft : Bool} (i_regs : Skips.regs φ) (i_axes : Skips.axes φ) (i_pcie : Skips.pcie φ) (i_out : Skips.out φ) (hU : At φ c₀ s) : At φ c₀ (axStop s d a soft) := by
  unfold axStop
  try dsimp only
  repeat' first
    | with_reducible assumption
    | intro _
    | with_reducible apply ite_inv
    | with_reducible apply axCut_inv
    | with_reducible apply axHold_inv
    | split

theorem homeStart_inv {d : Nat} {a : Nat} (i_regs : Skips.regs φ) (i_axes : Skips.axes φ) (hU : At φ c₀ s) : At φ c₀ (homeStart s d a) := by
  unfold homeStart
  try dsimp only
  repeat' first
    | with_reducible assumption
    | intro _
    | with_reducible apply ite_inv
    | with_reducible apply setHphase_inv
    | with_reducible apply setMstate_inv
    | with_reducible apply setAxis_inv
    | split

theorem homePhase_inv {d : Nat} {a : Nat} {h : Nat} (i_regs : Skips.regs φ) (i_axes : Skips.axes φ) (hU : At φ c₀ s) : At φ c₀ (homePhase s d a h) := by
  unfold homePhase
  try dsimp only
  repeat' first
    | with_reducible assumption
    | intro _
    | with_reducible apply ite_inv
    | with_reducible apply setHphase_inv
    | with_reducible apply setAxis_inv
    | split

theorem homeEnd_inv {d : Nat} {a : Nat} {h : Nat} (i_axes : Skips.axes φ) (hU : At φ c₀ s) : At φ c₀ (homeEnd s d a h) := by
  unfold homeEnd
  try dsimp only
  repeat' first
    | with_reducible assumption
    | intro _
    | with_reducible apply ite_inv
    | with_reducible apply setAxis_inv
    | split

theorem homingFault_inv {d : Nat} {a : Nat} (i_free : Skips.free φ) (i_regs : Skips.regs φ) (i_shad : Skips.shad φ) (i_hold : Skips.hold φ) (i_fences : Skips.fences φ) (i_ecc : Skips.ecc φ) (i_chutes : Skips.chutes φ) (i_ctxs : Skips.ctxs φ) (i_ports : Skips.ports φ) (i_encs : Skips.encs φ) (i_pds : Skips.pds φ) (i_seamQ : Skips.seamQ φ) (i_echos : Skips.echos φ) (i_mems : Skips.mems φ) (i_msgs : Skips.msgs φ) (i_axes : Skips.axes φ) (i_hoists : Skips.hoists φ) (i_trigs : Skips.trigs φ) (i_cqWait : Skips.cqWait φ) (i_cqSeq : Skips.cqSeq φ) (i_assays : Skips.assays φ) (i_therms : Skips.therms φ) (i_lamps : Skips.lamps φ) (i_mboxes : Skips.mboxes φ) (i_fws : Skips.fws φ) (i_tsync : Skips.tsync φ) (i_hops : Skips.hops φ) (i_dies : Skips.dies φ) (i_pkg : Skips.pkg φ) (i_pcie : Skips.pcie φ) (i_out : Skips.out φ) (hU : At φ c₀ s) : At φ c₀ (homingFault s d a) := by
  unfold homingFault
  try dsimp only
  repeat' first
    | with_reducible assumption
    | intro _
    | with_reducible apply ite_inv
    | with_reducible apply axPolicy_inv
    | with_reducible apply axFault_inv
    | split

theorem homeEdge_inv {d : Nat} {a : Nat} {e : Nat × Bool} (i_free : Skips.free φ) (i_regs : Skips.regs φ) (i_shad : Skips.shad φ) (i_hold : Skips.hold φ) (i_fences : Skips.fences φ) (i_ecc : Skips.ecc φ) (i_chutes : Skips.chutes φ) (i_ctxs : Skips.ctxs φ) (i_ports : Skips.ports φ) (i_encs : Skips.encs φ) (i_pds : Skips.pds φ) (i_seamQ : Skips.seamQ φ) (i_echos : Skips.echos φ) (i_mems : Skips.mems φ) (i_msgs : Skips.msgs φ) (i_axes : Skips.axes φ) (i_hoists : Skips.hoists φ) (i_trigs : Skips.trigs φ) (i_cqWait : Skips.cqWait φ) (i_cqSeq : Skips.cqSeq φ) (i_assays : Skips.assays φ) (i_therms : Skips.therms φ) (i_lamps : Skips.lamps φ) (i_mboxes : Skips.mboxes φ) (i_fws : Skips.fws φ) (i_tsync : Skips.tsync φ) (i_hops : Skips.hops φ) (i_dies : Skips.dies φ) (i_pkg : Skips.pkg φ) (i_pcie : Skips.pcie φ) (i_out : Skips.out φ) (hU : At φ c₀ s) : At φ c₀ (homeEdge s d a e) := by
  unfold homeEdge
  try dsimp only
  repeat' first
    | with_reducible assumption
    | intro _
    | with_reducible apply ite_inv
    | with_reducible apply setAxis_inv
    | with_reducible apply homeEnd_inv
    | with_reducible apply homePhase_inv
    | with_reducible apply homingFault_inv
    | split

theorem homed_inv {d : Nat} {a : Nat} (i_regs : Skips.regs φ) (i_axes : Skips.axes φ) (i_pcie : Skips.pcie φ) (i_out : Skips.out φ) (hU : At φ c₀ s) : At φ c₀ (homed s d a) := by
  unfold homed
  try dsimp only
  repeat' first
    | with_reducible assumption
    | intro _
    | with_reducible apply ite_inv
    | with_reducible apply setAxis_inv
    | with_reducible apply raise_inv
    | with_reducible apply setMstate_inv
    | with_reducible apply setPosValid_inv
    | split

theorem planHoming_inv {d : Nat} {a : Nat} (i_regs : Skips.regs φ) (i_axes : Skips.axes φ) (i_pcie : Skips.pcie φ) (i_out : Skips.out φ) (hU : At φ c₀ s) : At φ c₀ (planHoming s d a) := by
  unfold planHoming
  try dsimp only
  repeat' first
    | with_reducible assumption
    | intro _
    | with_reducible apply ite_inv
    | with_reducible apply setAxis_inv
    | with_reducible apply homePhase_inv
    | with_reducible apply homed_inv
    | split

theorem axGo_inv {d : Nat} {a : Nat} (i_regs : Skips.regs φ) (i_axes : Skips.axes φ) (hU : At φ c₀ s) : At φ c₀ (axGo s d a) := by
  unfold axGo
  try dsimp only
  repeat' first
    | with_reducible assumption
    | intro _
    | with_reducible apply ite_inv
    | with_reducible apply setMstate_inv
    | with_reducible apply setAxis_inv
    | split

theorem axDo_inv {d : Nat} {a : Nat} {cmd : Nat} (i_regs : Skips.regs φ) (i_axes : Skips.axes φ) (i_pcie : Skips.pcie φ) (i_out : Skips.out φ) (hU : At φ c₀ s) : At φ c₀ (axDo s d a cmd).2 := by
  unfold axDo
  try dsimp only
  repeat' first
    | with_reducible assumption
    | intro _
    | with_reducible apply ite_inv
    | with_reducible apply axGo_inv
    | with_reducible apply axStop_inv
    | with_reducible apply setMstate_inv
    | with_reducible apply homeStart_inv
    | with_reducible apply setPosValid_inv
    | with_reducible apply setAxis_inv
    | with_reducible apply wr_inv
    | with_reducible apply axCut_inv
    | split

theorem axCommand_inv {d : Nat} {a : Nat} {cmd : Nat} (i_regs : Skips.regs φ) (i_axes : Skips.axes φ) (i_pcie : Skips.pcie φ) (i_out : Skips.out φ) (hU : At φ c₀ s) : At φ c₀ (axCommand s d a cmd) := by
  unfold axCommand
  try dsimp only
  repeat' first
    | with_reducible assumption
    | intro _
    | with_reducible apply ite_inv
    | with_reducible apply axDo_inv
    | with_reducible apply wr_inv
    | with_reducible apply whenDo_inv
    | with_reducible apply raise_inv
    | (with_reducible refine pair_inv (by assumption) ?_)
    | split

theorem axPlan_inv {d : Nat} {a : Nat} (i_regs : Skips.regs φ) (i_axes : Skips.axes φ) (i_pcie : Skips.pcie φ) (i_out : Skips.out φ) (hU : At φ c₀ s) : At φ c₀ (axPlan s d a) := by
  unfold axPlan
  try dsimp only
  repeat' first
    | with_reducible assumption
    | intro _
    | with_reducible apply ite_inv
    | with_reducible apply planMoving_inv
    | with_reducible apply planStopping_inv
    | with_reducible apply planHoming_inv
    | with_reducible apply wb_inv
    | split

theorem profileTick_inv {d : Nat} {a : Nat} (i_free : Skips.free φ) (i_regs : Skips.regs φ) (i_shad : Skips.shad φ) (i_hold : Skips.hold φ) (i_fences : Skips.fences φ) (i_ecc : Skips.ecc φ) (i_chutes : Skips.chutes φ) (i_ctxs : Skips.ctxs φ) (i_ports : Skips.ports φ) (i_encs : Skips.encs φ) (i_pds : Skips.pds φ) (i_seamQ : Skips.seamQ φ) (i_echos : Skips.echos φ) (i_mems : Skips.mems φ) (i_msgs : Skips.msgs φ) (i_axes : Skips.axes φ) (i_hoists : Skips.hoists φ) (i_trigs : Skips.trigs φ) (i_cqWait : Skips.cqWait φ) (i_cqSeq : Skips.cqSeq φ) (i_assays : Skips.assays φ) (i_therms : Skips.therms φ) (i_lamps : Skips.lamps φ) (i_mboxes : Skips.mboxes φ) (i_fws : Skips.fws φ) (i_tsync : Skips.tsync φ) (i_hops : Skips.hops φ) (i_dies : Skips.dies φ) (i_pkg : Skips.pkg φ) (i_pcie : Skips.pcie φ) (i_out : Skips.out φ) (hU : At φ c₀ s) : At φ c₀ (profileTick s d a) := by
  unfold profileTick
  try dsimp only
  repeat' first
    | with_reducible assumption
    | intro _
    | with_reducible apply ite_inv
    | with_reducible apply setAxis_inv
    | with_reducible apply whenDo_inv
    | with_reducible apply axStop_inv
    | with_reducible apply each_inv
    | with_reducible apply homeEdge_inv
    | with_reducible apply axCommand_inv
    | with_reducible apply axPlan_inv
    | split

theorem profileNext_inv {d : Nat} {a : Nat} (i_clock : Skips.clock φ) (i_free : Skips.free φ) (i_regs : Skips.regs φ) (i_shad : Skips.shad φ) (i_hold : Skips.hold φ) (i_fences : Skips.fences φ) (i_ecc : Skips.ecc φ) (i_chutes : Skips.chutes φ) (i_ctxs : Skips.ctxs φ) (i_ports : Skips.ports φ) (i_encs : Skips.encs φ) (i_pds : Skips.pds φ) (i_seamQ : Skips.seamQ φ) (i_echos : Skips.echos φ) (i_mems : Skips.mems φ) (i_msgs : Skips.msgs φ) (i_axes : Skips.axes φ) (i_hoists : Skips.hoists φ) (i_trigs : Skips.trigs φ) (i_cqWait : Skips.cqWait φ) (i_cqSeq : Skips.cqSeq φ) (i_assays : Skips.assays φ) (i_therms : Skips.therms φ) (i_lamps : Skips.lamps φ) (i_mboxes : Skips.mboxes φ) (i_fws : Skips.fws φ) (i_tsync : Skips.tsync φ) (i_hops : Skips.hops φ) (i_dies : Skips.dies φ) (i_pkg : Skips.pkg φ) (i_pcie : Skips.pcie φ) (i_out : Skips.out φ) (hU : At φ c₀ s) : At φ c₀ (profileNext s d a) := by
  unfold profileNext
  try dsimp only
  repeat' first
    | with_reducible assumption
    | intro _
    | with_reducible apply ite_inv
    | with_reducible apply profileTick_inv
    | with_reducible apply waitClock_inv
    | split

theorem execProfileTick_ansAt {d : Nat} {a : Nat} (i_clock : Skips.clock φ) (i_free : Skips.free φ) (i_regs : Skips.regs φ) (i_shad : Skips.shad φ) (i_hold : Skips.hold φ) (i_fences : Skips.fences φ) (i_ecc : Skips.ecc φ) (i_chutes : Skips.chutes φ) (i_ctxs : Skips.ctxs φ) (i_ports : Skips.ports φ) (i_encs : Skips.encs φ) (i_pds : Skips.pds φ) (i_seamQ : Skips.seamQ φ) (i_echos : Skips.echos φ) (i_mems : Skips.mems φ) (i_msgs : Skips.msgs φ) (i_axes : Skips.axes φ) (i_hoists : Skips.hoists φ) (i_trigs : Skips.trigs φ) (i_cqWait : Skips.cqWait φ) (i_cqSeq : Skips.cqSeq φ) (i_assays : Skips.assays φ) (i_therms : Skips.therms φ) (i_lamps : Skips.lamps φ) (i_mboxes : Skips.mboxes φ) (i_fws : Skips.fws φ) (i_tsync : Skips.tsync φ) (i_hops : Skips.hops φ) (i_dies : Skips.dies φ) (i_pkg : Skips.pkg φ) (i_pcie : Skips.pcie φ) (i_out : Skips.out φ) (hU : At φ c₀ s) : AnsAt φ c₀ (execProfileTick d a s) := by
  unfold execProfileTick
  try dsimp only
  repeat' first
    | with_reducible assumption
    | intro _
    | with_reducible apply ok_ansAt
    | with_reducible apply ite_ansAt
    | with_reducible apply ite_inv
    | with_reducible exact ok_ansAt (by assumption)
    | with_reducible apply profileNext_inv
    | split

theorem axStatWait_inv {r : Req} {d : Nat} {a : Nat} (i_clock : Skips.clock φ) (i_free : Skips.free φ) (i_regs : Skips.regs φ) (i_shad : Skips.shad φ) (i_hold : Skips.hold φ) (i_fences : Skips.fences φ) (i_ecc : Skips.ecc φ) (i_chutes : Skips.chutes φ) (i_ctxs : Skips.ctxs φ) (i_ports : Skips.ports φ) (i_encs : Skips.encs φ) (i_pds : Skips.pds φ) (i_seamQ : Skips.seamQ φ) (i_echos : Skips.echos φ) (i_mems : Skips.mems φ) (i_msgs : Skips.msgs φ) (i_axes : Skips.axes φ) (i_hoists : Skips.hoists φ) (i_trigs : Skips.trigs φ) (i_cqWait : Skips.cqWait φ) (i_cqSeq : Skips.cqSeq φ) (i_assays : Skips.assays φ) (i_therms : Skips.therms φ) (i_lamps : Skips.lamps φ) (i_mboxes : Skips.mboxes φ) (i_fws : Skips.fws φ) (i_tsync : Skips.tsync φ) (i_hops : Skips.hops φ) (i_dies : Skips.dies φ) (i_pkg : Skips.pkg φ) (i_pcie : Skips.pcie φ) (i_out : Skips.out φ) (hU : At φ c₀ s) : At φ c₀ (axStatWait s r d a) := by
  unfold axStatWait
  try dsimp only
  repeat' first
    | with_reducible assumption
    | intro _
    | with_reducible apply ite_inv
    | with_reducible apply profileNext_inv
    | split

theorem axStart_inv {d : Nat} {a : Nat} (i_axes : Skips.axes φ) (hU : At φ c₀ s) : At φ c₀ (axStart s d a) := by
  unfold axStart
  try dsimp only
  repeat' first
    | with_reducible assumption
    | intro _
    | with_reducible apply ite_inv
    | with_reducible apply setAxis_inv
    | split

theorem axRunning_inv {d : Nat} {a : Nat} (i_regs : Skips.regs φ) (i_axes : Skips.axes φ) (hU : At φ c₀ s) : At φ c₀ (axRunning s d a) := by
  unfold axRunning
  try dsimp only
  repeat' first
    | with_reducible assumption
    | intro _
    | with_reducible apply ite_inv
    | with_reducible apply setPstate_inv
    | with_reducible apply setAxis_inv
    | with_reducible apply setMstate_inv
    | split

theorem axShut_inv {d : Nat} {a : Nat} (i_regs : Skips.regs φ) (i_axes : Skips.axes φ) (i_pcie : Skips.pcie φ) (i_out : Skips.out φ) (hU : At φ c₀ s) : At φ c₀ (axShut s d a) := by
  unfold axShut
  try dsimp only
  repeat' first
    | with_reducible assumption
    | intro _
    | with_reducible apply ite_inv
    | with_reducible apply setPstate_inv
    | with_reducible apply axCut_inv
    | with_reducible apply axHold_inv
    | split

theorem axOff_inv {d : Nat} {a : Nat} (i_regs : Skips.regs φ) (i_msgs : Skips.msgs φ) (i_axes : Skips.axes φ) (i_hops : Skips.hops φ) (i_pcie : Skips.pcie φ) (i_out : Skips.out φ) (hU : At φ c₀ s) : At φ c₀ (axOff s d a) := by
  unfold axOff
  try dsimp only
  repeat' first
    | with_reducible assumption
    | intro _
    | with_reducible apply ite_inv
    | with_reducible apply setAxis_inv
    | with_reducible apply axisLost_inv
    | with_reducible apply setPosValid_inv
    | with_reducible apply setMstate_inv
    | split

theorem execAxEnableDone_ansAt {d : Nat} {a : Nat} (i_clock : Skips.clock φ) (i_regs : Skips.regs φ) (i_axes : Skips.axes φ) (i_dies : Skips.dies φ) (i_pcie : Skips.pcie φ) (i_out : Skips.out φ) (hU : At φ c₀ s) : AnsAt φ c₀ (execAxEnableDone d a s) := by
  unfold execAxEnableDone
  try dsimp only
  repeat' first
    | with_reducible assumption
    | intro _
    | with_reducible apply ok_ansAt
    | with_reducible apply ite_ansAt
    | with_reducible apply ite_inv
    | with_reducible exact ok_ansAt (by assumption)
    | with_reducible apply axRunning_inv
    | with_reducible apply waitClock_inv
    | with_reducible apply axShut_inv
    | split

theorem axCmdAdd_inv {r : Req} {d : Nat} {a : Nat} {cmd : Nat} (i_axes : Skips.axes φ) (hU : At φ c₀ s) : At φ c₀ (axCmdAdd r d a cmd s) := by
  unfold axCmdAdd
  try dsimp only
  repeat' first
    | with_reducible assumption
    | intro _
    | with_reducible apply ite_inv
    | with_reducible apply setAxis_inv
    | split

theorem axCmdWrite_inv {r : Req} {d : Nat} {a : Nat} {cmd : Nat} (i_regs : Skips.regs φ) (i_axes : Skips.axes φ) (i_dies : Skips.dies φ) (i_pcie : Skips.pcie φ) (i_resp : Skips.resp φ) (i_out : Skips.out φ) (hU : At φ c₀ s) : At φ c₀ (axCmdWrite r d a cmd s) := by
  unfold axCmdWrite
  try dsimp only
  repeat' first
    | with_reducible assumption
    | intro _
    | with_reducible apply ite_inv
    | with_reducible apply guardedWrite_inv
    | with_reducible apply axCmdAdd_inv
    | split

theorem execAxMove_ansAt {r : Req} {d : Nat} {a : Nat} (i_regs : Skips.regs φ) (i_axes : Skips.axes φ) (i_dies : Skips.dies φ) (i_pcie : Skips.pcie φ) (i_resp : Skips.resp φ) (i_out : Skips.out φ) (hU : At φ c₀ s) : AnsAt φ c₀ (execAxMove r d a s) := by
  unfold execAxMove
  try dsimp only
  repeat' first
    | with_reducible assumption
    | intro _
    | with_reducible apply ok_ansAt
    | with_reducible apply ite_ansAt
    | with_reducible apply ite_inv
    | with_reducible exact ok_ansAt (by assumption)
    | with_reducible apply axCmdWrite_inv
    | split

theorem execAxStop_ansAt {r : Req} {d : Nat} {a : Nat} (i_regs : Skips.regs φ) (i_axes : Skips.axes φ) (i_dies : Skips.dies φ) (i_pcie : Skips.pcie φ) (i_resp : Skips.resp φ) (i_out : Skips.out φ) (hU : At φ c₀ s) : AnsAt φ c₀ (execAxStop r d a s) := by
  unfold execAxStop
  try dsimp only
  repeat' first
    | with_reducible assumption
    | intro _
    | with_reducible apply ok_ansAt
    | with_reducible apply ite_ansAt
    | with_reducible apply ite_inv
    | with_reducible exact ok_ansAt (by assumption)
    | with_reducible apply axCmdWrite_inv
    | split

theorem execAxResume_ansAt {r : Req} {d : Nat} {a : Nat} (i_regs : Skips.regs φ) (i_axes : Skips.axes φ) (i_dies : Skips.dies φ) (i_pcie : Skips.pcie φ) (i_resp : Skips.resp φ) (i_out : Skips.out φ) (hU : At φ c₀ s) : AnsAt φ c₀ (execAxResume r d a s) := by
  unfold execAxResume
  try dsimp only
  repeat' first
    | with_reducible assumption
    | intro _
    | with_reducible apply ok_ansAt
    | with_reducible apply ite_ansAt
    | with_reducible apply ite_inv
    | with_reducible exact ok_ansAt (by assumption)
    | with_reducible apply axCmdWrite_inv
    | split

theorem execAxHome_ansAt {r : Req} {d : Nat} {a : Nat} (i_regs : Skips.regs φ) (i_axes : Skips.axes φ) (i_dies : Skips.dies φ) (i_pcie : Skips.pcie φ) (i_resp : Skips.resp φ) (i_out : Skips.out φ) (hU : At φ c₀ s) : AnsAt φ c₀ (execAxHome r d a s) := by
  unfold execAxHome
  try dsimp only
  repeat' first
    | with_reducible assumption
    | intro _
    | with_reducible apply ok_ansAt
    | with_reducible apply ite_ansAt
    | with_reducible apply ite_inv
    | with_reducible exact ok_ansAt (by assumption)
    | with_reducible apply axCmdWrite_inv
    | split

theorem execAxLoad_ansAt {r : Req} {d : Nat} {a : Nat} (i_regs : Skips.regs φ) (i_axes : Skips.axes φ) (i_dies : Skips.dies φ) (i_pcie : Skips.pcie φ) (i_resp : Skips.resp φ) (i_out : Skips.out φ) (hU : At φ c₀ s) : AnsAt φ c₀ (execAxLoad r d a s) := by
  unfold execAxLoad
  try dsimp only
  repeat' first
    | with_reducible assumption
    | intro _
    | with_reducible apply ok_ansAt
    | with_reducible apply ite_ansAt
    | with_reducible apply ite_inv
    | with_reducible exact ok_ansAt (by assumption)
    | with_reducible apply axCmdWrite_inv
    | split

theorem execAxClear_ansAt {r : Req} {d : Nat} {a : Nat} (i_regs : Skips.regs φ) (i_axes : Skips.axes φ) (i_dies : Skips.dies φ) (i_pcie : Skips.pcie φ) (i_resp : Skips.resp φ) (i_out : Skips.out φ) (hU : At φ c₀ s) : AnsAt φ c₀ (execAxClear r d a s) := by
  unfold execAxClear
  try dsimp only
  repeat' first
    | with_reducible assumption
    | intro _
    | with_reducible apply ok_ansAt
    | with_reducible apply ite_ansAt
    | with_reducible apply ite_inv
    | with_reducible exact ok_ansAt (by assumption)
    | with_reducible apply axCmdWrite_inv
    | split

theorem execAxCut_ansAt {r : Req} {d : Nat} {a : Nat} (i_regs : Skips.regs φ) (i_axes : Skips.axes φ) (i_dies : Skips.dies φ) (i_pcie : Skips.pcie φ) (i_resp : Skips.resp φ) (i_out : Skips.out φ) (hU : At φ c₀ s) : AnsAt φ c₀ (execAxCut r d a s) := by
  unfold execAxCut
  try dsimp only
  repeat' first
    | with_reducible assumption
    | intro _
    | with_reducible apply ok_ansAt
    | with_reducible apply ite_ansAt
    | with_reducible apply ite_inv
    | with_reducible exact ok_ansAt (by assumption)
    | with_reducible apply axCmdWrite_inv
    | split

theorem limitTrip_inv {d : Nat} {a : Nat} {i : Nat} (i_free : Skips.free φ) (i_regs : Skips.regs φ) (i_shad : Skips.shad φ) (i_hold : Skips.hold φ) (i_fences : Skips.fences φ) (i_ecc : Skips.ecc φ) (i_chutes : Skips.chutes φ) (i_ctxs : Skips.ctxs φ) (i_ports : Skips.ports φ) (i_encs : Skips.encs φ) (i_pds : Skips.pds φ) (i_seamQ : Skips.seamQ φ) (i_echos : Skips.echos φ) (i_mems : Skips.mems φ) (i_msgs : Skips.msgs φ) (i_axes : Skips.axes φ) (i_hoists : Skips.hoists φ) (i_trigs : Skips.trigs φ) (i_cqWait : Skips.cqWait φ) (i_cqSeq : Skips.cqSeq φ) (i_assays : Skips.assays φ) (i_therms : Skips.therms φ) (i_lamps : Skips.lamps φ) (i_mboxes : Skips.mboxes φ) (i_fws : Skips.fws φ) (i_tsync : Skips.tsync φ) (i_hops : Skips.hops φ) (i_dies : Skips.dies φ) (i_pkg : Skips.pkg φ) (i_pcie : Skips.pcie φ) (i_out : Skips.out φ) (hU : At φ c₀ s) : At φ c₀ (limitTrip s d a i) := by
  unfold limitTrip
  try dsimp only
  repeat' first
    | with_reducible assumption
    | intro _
    | with_reducible apply ite_inv
    | with_reducible apply axPolicy_inv
    | with_reducible apply axFault_inv
    | split

theorem swQualify_inv {d : Nat} {a : Nat} {i : Nat} {lvl : Bool} {pos : Int} {stamp : Nat} {chat : Nat} (i_free : Skips.free φ) (i_regs : Skips.regs φ) (i_shad : Skips.shad φ) (i_hold : Skips.hold φ) (i_fences : Skips.fences φ) (i_ecc : Skips.ecc φ) (i_chutes : Skips.chutes φ) (i_ctxs : Skips.ctxs φ) (i_ports : Skips.ports φ) (i_encs : Skips.encs φ) (i_pds : Skips.pds φ) (i_seamQ : Skips.seamQ φ) (i_echos : Skips.echos φ) (i_mems : Skips.mems φ) (i_msgs : Skips.msgs φ) (i_axes : Skips.axes φ) (i_hoists : Skips.hoists φ) (i_trigs : Skips.trigs φ) (i_cqWait : Skips.cqWait φ) (i_cqSeq : Skips.cqSeq φ) (i_assays : Skips.assays φ) (i_therms : Skips.therms φ) (i_lamps : Skips.lamps φ) (i_mboxes : Skips.mboxes φ) (i_fws : Skips.fws φ) (i_tsync : Skips.tsync φ) (i_hops : Skips.hops φ) (i_dies : Skips.dies φ) (i_pkg : Skips.pkg φ) (i_pcie : Skips.pcie φ) (i_out : Skips.out φ) (hU : At φ c₀ s) : At φ c₀ (swQualify s d a i lvl pos stamp chat) := by
  unfold swQualify
  try dsimp only
  repeat' first
    | with_reducible assumption
    | intro _
    | with_reducible apply ite_inv
    | with_reducible apply wb_inv
    | with_reducible apply wr48_inv
    | with_reducible apply raise_inv
    | with_reducible apply wr_inv
    | with_reducible apply whenDo_inv
    | with_reducible apply setAxis_inv
    | with_reducible apply limitTrip_inv
    | split

theorem chatFollow_inv {d : Nat} {a : Nat} (i_free : Skips.free φ) (i_regs : Skips.regs φ) (i_shad : Skips.shad φ) (i_hold : Skips.hold φ) (i_fences : Skips.fences φ) (i_ecc : Skips.ecc φ) (i_chutes : Skips.chutes φ) (i_ctxs : Skips.ctxs φ) (i_ports : Skips.ports φ) (i_encs : Skips.encs φ) (i_pds : Skips.pds φ) (i_seamQ : Skips.seamQ φ) (i_echos : Skips.echos φ) (i_mems : Skips.mems φ) (i_msgs : Skips.msgs φ) (i_axes : Skips.axes φ) (i_hoists : Skips.hoists φ) (i_trigs : Skips.trigs φ) (i_cqWait : Skips.cqWait φ) (i_cqSeq : Skips.cqSeq φ) (i_assays : Skips.assays φ) (i_therms : Skips.therms φ) (i_lamps : Skips.lamps φ) (i_mboxes : Skips.mboxes φ) (i_fws : Skips.fws φ) (i_tsync : Skips.tsync φ) (i_hops : Skips.hops φ) (i_dies : Skips.dies φ) (i_pkg : Skips.pkg φ) (i_pcie : Skips.pcie φ) (i_out : Skips.out φ) (hU : At φ c₀ s) : At φ c₀ (chatFollow s d a) := by
  unfold chatFollow
  try dsimp only
  repeat' first
    | with_reducible assumption
    | intro _
    | with_reducible apply ite_inv
    | with_reducible apply whenDo_inv
    | with_reducible apply axPolicy_inv
    | with_reducible apply axFault_inv
    | split

theorem chatter_inv {d : Nat} {a : Nat} (i_free : Skips.free φ) (i_regs : Skips.regs φ) (i_shad : Skips.shad φ) (i_hold : Skips.hold φ) (i_fences : Skips.fences φ) (i_ecc : Skips.ecc φ) (i_chutes : Skips.chutes φ) (i_ctxs : Skips.ctxs φ) (i_ports : Skips.ports φ) (i_encs : Skips.encs φ) (i_pds : Skips.pds φ) (i_seamQ : Skips.seamQ φ) (i_echos : Skips.echos φ) (i_mems : Skips.mems φ) (i_msgs : Skips.msgs φ) (i_axes : Skips.axes φ) (i_hoists : Skips.hoists φ) (i_trigs : Skips.trigs φ) (i_cqWait : Skips.cqWait φ) (i_cqSeq : Skips.cqSeq φ) (i_assays : Skips.assays φ) (i_therms : Skips.therms φ) (i_lamps : Skips.lamps φ) (i_mboxes : Skips.mboxes φ) (i_fws : Skips.fws φ) (i_tsync : Skips.tsync φ) (i_hops : Skips.hops φ) (i_dies : Skips.dies φ) (i_pkg : Skips.pkg φ) (i_pcie : Skips.pcie φ) (i_out : Skips.out φ) (hU : At φ c₀ s) : At φ c₀ (chatter s d a) := by
  unfold chatter
  try dsimp only
  repeat' first
    | with_reducible assumption
    | intro _
    | with_reducible apply ite_inv
    | with_reducible apply count_inv
    | with_reducible apply chatFollow_inv
    | with_reducible apply setAxis_inv
    | split

theorem swEdge_inv {d : Nat} {a : Nat} {i : Nat} {raw : Bool} (i_free : Skips.free φ) (i_regs : Skips.regs φ) (i_shad : Skips.shad φ) (i_hold : Skips.hold φ) (i_fences : Skips.fences φ) (i_ecc : Skips.ecc φ) (i_chutes : Skips.chutes φ) (i_ctxs : Skips.ctxs φ) (i_ports : Skips.ports φ) (i_encs : Skips.encs φ) (i_pds : Skips.pds φ) (i_seamQ : Skips.seamQ φ) (i_echos : Skips.echos φ) (i_mems : Skips.mems φ) (i_msgs : Skips.msgs φ) (i_axes : Skips.axes φ) (i_hoists : Skips.hoists φ) (i_trigs : Skips.trigs φ) (i_cqWait : Skips.cqWait φ) (i_cqSeq : Skips.cqSeq φ) (i_assays : Skips.assays φ) (i_therms : Skips.therms φ) (i_lamps : Skips.lamps φ) (i_mboxes : Skips.mboxes φ) (i_fws : Skips.fws φ) (i_tsync : Skips.tsync φ) (i_hops : Skips.hops φ) (i_dies : Skips.dies φ) (i_pkg : Skips.pkg φ) (i_pcie : Skips.pcie φ) (i_out : Skips.out φ) (hU : At φ c₀ s) : At φ c₀ (swEdge s d a i raw) := by
  unfold swEdge
  try dsimp only
  repeat' first
    | with_reducible assumption
    | intro _
    | with_reducible apply ite_inv
    | with_reducible apply setAxis_inv
    | with_reducible apply swQualify_inv
    | with_reducible apply chatter_inv
    | split

theorem swFollow_inv {d : Nat} {a : Nat} (i_free : Skips.free φ) (i_regs : Skips.regs φ) (i_shad : Skips.shad φ) (i_hold : Skips.hold φ) (i_fences : Skips.fences φ) (i_ecc : Skips.ecc φ) (i_chutes : Skips.chutes φ) (i_ctxs : Skips.ctxs φ) (i_ports : Skips.ports φ) (i_encs : Skips.encs φ) (i_pds : Skips.pds φ) (i_seamQ : Skips.seamQ φ) (i_echos : Skips.echos φ) (i_mems : Skips.mems φ) (i_msgs : Skips.msgs φ) (i_axes : Skips.axes φ) (i_hoists : Skips.hoists φ) (i_trigs : Skips.trigs φ) (i_cqWait : Skips.cqWait φ) (i_cqSeq : Skips.cqSeq φ) (i_assays : Skips.assays φ) (i_therms : Skips.therms φ) (i_lamps : Skips.lamps φ) (i_mboxes : Skips.mboxes φ) (i_fws : Skips.fws φ) (i_tsync : Skips.tsync φ) (i_hops : Skips.hops φ) (i_dies : Skips.dies φ) (i_pkg : Skips.pkg φ) (i_pcie : Skips.pcie φ) (i_out : Skips.out φ) (hU : At φ c₀ s) : At φ c₀ (swFollow s d a) := by
  unfold swFollow
  try dsimp only
  repeat' first
    | with_reducible assumption
    | intro _
    | with_reducible apply ite_inv
    | with_reducible apply each_inv
    | with_reducible apply swEdge_inv
    | split

theorem axHandOver_inv {d : Nat} {a : Nat} (i_free : Skips.free φ) (i_regs : Skips.regs φ) (i_shad : Skips.shad φ) (i_hold : Skips.hold φ) (i_fences : Skips.fences φ) (i_ecc : Skips.ecc φ) (i_chutes : Skips.chutes φ) (i_ctxs : Skips.ctxs φ) (i_ports : Skips.ports φ) (i_encs : Skips.encs φ) (i_pds : Skips.pds φ) (i_seamQ : Skips.seamQ φ) (i_echos : Skips.echos φ) (i_mems : Skips.mems φ) (i_msgs : Skips.msgs φ) (i_axes : Skips.axes φ) (i_hoists : Skips.hoists φ) (i_trigs : Skips.trigs φ) (i_cqWait : Skips.cqWait φ) (i_cqSeq : Skips.cqSeq φ) (i_assays : Skips.assays φ) (i_therms : Skips.therms φ) (i_lamps : Skips.lamps φ) (i_mboxes : Skips.mboxes φ) (i_fws : Skips.fws φ) (i_tsync : Skips.tsync φ) (i_hops : Skips.hops φ) (i_dies : Skips.dies φ) (i_pkg : Skips.pkg φ) (i_pcie : Skips.pcie φ) (i_out : Skips.out φ) (hU : At φ c₀ s) : At φ c₀ (axHandOver s d a) := by
  unfold axHandOver
  try dsimp only
  repeat' first
    | with_reducible assumption
    | intro _
    | with_reducible apply ite_inv
    | with_reducible apply chatFollow_inv
    | with_reducible apply swFollow_inv
    | with_reducible apply takeShadows_inv
    | split

theorem axReset_inv {d : Nat} {a : Nat} (i_free : Skips.free φ) (i_regs : Skips.regs φ) (i_shad : Skips.shad φ) (i_hold : Skips.hold φ) (i_fences : Skips.fences φ) (i_ecc : Skips.ecc φ) (i_chutes : Skips.chutes φ) (i_ctxs : Skips.ctxs φ) (i_ports : Skips.ports φ) (i_encs : Skips.encs φ) (i_pds : Skips.pds φ) (i_seamQ : Skips.seamQ φ) (i_echos : Skips.echos φ) (i_mems : Skips.mems φ) (i_msgs : Skips.msgs φ) (i_axes : Skips.axes φ) (i_hoists : Skips.hoists φ) (i_trigs : Skips.trigs φ) (i_cqWait : Skips.cqWait φ) (i_cqSeq : Skips.cqSeq φ) (i_assays : Skips.assays φ) (i_therms : Skips.therms φ) (i_lamps : Skips.lamps φ) (i_mboxes : Skips.mboxes φ) (i_fws : Skips.fws φ) (i_tsync : Skips.tsync φ) (i_hops : Skips.hops φ) (i_dies : Skips.dies φ) (i_pkg : Skips.pkg φ) (i_pcie : Skips.pcie φ) (i_out : Skips.out φ) (hU : At φ c₀ s) : At φ c₀ (axReset s d a) := by
  unfold axReset
  try dsimp only
  repeat' first
    | with_reducible assumption
    | intro _
    | with_reducible apply ite_inv
    | with_reducible apply swFollow_inv
    | with_reducible apply setAxis_inv
    | split

theorem execSwitchInputEdge_ansAt {d : Nat} {a : Nat} {i : Nat} {raw : Bool} (i_free : Skips.free φ) (i_regs : Skips.regs φ) (i_shad : Skips.shad φ) (i_hold : Skips.hold φ) (i_fences : Skips.fences φ) (i_ecc : Skips.ecc φ) (i_chutes : Skips.chutes φ) (i_ctxs : Skips.ctxs φ) (i_ports : Skips.ports φ) (i_encs : Skips.encs φ) (i_pds : Skips.pds φ) (i_seamQ : Skips.seamQ φ) (i_echos : Skips.echos φ) (i_mems : Skips.mems φ) (i_msgs : Skips.msgs φ) (i_axes : Skips.axes φ) (i_hoists : Skips.hoists φ) (i_trigs : Skips.trigs φ) (i_cqWait : Skips.cqWait φ) (i_cqSeq : Skips.cqSeq φ) (i_assays : Skips.assays φ) (i_therms : Skips.therms φ) (i_lamps : Skips.lamps φ) (i_mboxes : Skips.mboxes φ) (i_fws : Skips.fws φ) (i_tsync : Skips.tsync φ) (i_hops : Skips.hops φ) (i_dies : Skips.dies φ) (i_pkg : Skips.pkg φ) (i_pcie : Skips.pcie φ) (i_out : Skips.out φ) (hU : At φ c₀ s) : AnsAt φ c₀ (execSwitchInputEdge d a i raw s) := by
  unfold execSwitchInputEdge
  try dsimp only
  repeat' first
    | with_reducible assumption
    | intro _
    | with_reducible apply ok_ansAt
    | with_reducible apply ite_ansAt
    | with_reducible apply ite_inv
    | with_reducible exact ok_ansAt (by assumption)
    | with_reducible apply swEdge_inv
    | split

theorem execSwEdge_ansAt {d : Nat} {a : Nat} {i : Nat} (i_clock : Skips.clock φ) (i_free : Skips.free φ) (i_regs : Skips.regs φ) (i_shad : Skips.shad φ) (i_hold : Skips.hold φ) (i_fences : Skips.fences φ) (i_ecc : Skips.ecc φ) (i_chutes : Skips.chutes φ) (i_ctxs : Skips.ctxs φ) (i_ports : Skips.ports φ) (i_encs : Skips.encs φ) (i_pds : Skips.pds φ) (i_seamQ : Skips.seamQ φ) (i_echos : Skips.echos φ) (i_mems : Skips.mems φ) (i_msgs : Skips.msgs φ) (i_axes : Skips.axes φ) (i_hoists : Skips.hoists φ) (i_trigs : Skips.trigs φ) (i_cqWait : Skips.cqWait φ) (i_cqSeq : Skips.cqSeq φ) (i_assays : Skips.assays φ) (i_therms : Skips.therms φ) (i_lamps : Skips.lamps φ) (i_mboxes : Skips.mboxes φ) (i_fws : Skips.fws φ) (i_tsync : Skips.tsync φ) (i_hops : Skips.hops φ) (i_dies : Skips.dies φ) (i_pkg : Skips.pkg φ) (i_pcie : Skips.pcie φ) (i_out : Skips.out φ) (hU : At φ c₀ s) : AnsAt φ c₀ (execSwEdge d a i s) := by
  unfold execSwEdge
  try dsimp only
  repeat' first
    | with_reducible assumption
    | intro _
    | with_reducible apply ok_ansAt
    | with_reducible apply ite_ansAt
    | with_reducible apply ite_inv
    | with_reducible exact ok_ansAt (by assumption)
    | with_reducible apply waitClock_inv
    | with_reducible apply setAxis_inv
    | with_reducible apply swQualify_inv
    | with_reducible apply chatter_inv
    | split

end Sys2Proof.Laws
end

