-- ==== Sys2Proof/Laws/MemCtlReg.lean ====
section
/-!
SUPPORT. The register pages that each operation of `Machine/MemCtl.lean` may write: every other page reads as before.
-/

set_option Elab.async false
set_option linter.unusedTactic false
set_option linter.unreachableTactic false
namespace Sys2Proof.Laws

open Sys2Proof.Machine

variable {q₀ : Pg} {s₀ s : State}

theorem mtStat_keeps {d : Nat} (k_memctl : ∀ d, pgMemctl d ≠ q₀) (hU : Keeps q₀ s₀ s) : Keeps q₀ s₀ (mtStat s d) := by
  unfold mtStat
  try dsimp only
  repeat' first
    | with_reducible assumption
    | with_reducible exact k_memctl _
    | intro _
    | with_reducible apply ite_keeps
    | with_reducible apply wr_keeps
    | split
    | with_reducible apply Keeps.lit

theorem mtStart_keeps {d : Nat} (k_memctl : ∀ d, pgMemctl d ≠ q₀) (hU : Keeps q₀ s₀ s) : Keeps q₀ s₀ (mtStart s d) := by
  unfold mtStart
  try dsimp only
  repeat' first
    | with_reducible assumption
    | with_reducible exact k_memctl _
    | intro _
    | with_reducible apply ite_keeps
    | with_reducible apply mtStat_keeps
    | with_reducible apply setMemSt_keeps
    | split
    | with_reducible apply Keeps.lit

theorem execMemtestRegionStart_kept {d : Nat} (k_tb : ∀ d, pgTb d ≠ q₀) (k_memctl : ∀ d, pgMemctl d ≠ q₀) (hU : Keeps q₀ s₀ s) : Kept q₀ s₀ (execMemtestRegionStart d s) := by
  unfold execMemtestRegionStart
  try dsimp only
  repeat' first
    | with_reducible assumption
    | with_reducible exact k_tb _
    | with_reducible exact k_memctl _
    | intro _
    | with_reducible apply ok_kept
    | with_reducible apply ite_kept
    | with_reducible apply ite_keeps
    | with_reducible exact ok_kept (by assumption)
    | with_reducible apply mtStart_keeps
    | with_reducible apply waitClock_keeps
    | split
    | with_reducible apply Keeps.lit

theorem mtCopy_keeps {d : Nat} (k_fence : ∀ d, pgFence d ≠ q₀) (k_memctl : ∀ d, pgMemctl d ≠ q₀) (k_chuteGlobal : ∀ d, pgChuteGlobal d ≠ q₀) (k_chute : ∀ d i, pgChute d i ≠ q₀) (hU : Keeps q₀ s₀ s) : Keeps q₀ s₀ (mtCopy s d) := by
  unfold mtCopy
  try dsimp only
  repeat' first
    | with_reducible assumption
    | with_reducible exact k_fence _
    | with_reducible exact k_memctl _
    | with_reducible exact k_chuteGlobal _
    | with_reducible exact k_chute _ _
    | intro _
    | with_reducible apply ite_keeps
    | with_reducible apply each_keeps
    | with_reducible apply readWord_keeps
    | (with_reducible refine trip_keeps (by assumption) ?_)
    | split
    | with_reducible apply Keeps.lit

theorem mtRepairRow_keeps {d : Nat} {row : Nat} (k_memctl : ∀ d, pgMemctl d ≠ q₀) (hU : Keeps q₀ s₀ s) : Keeps q₀ s₀ (mtRepairRow s d row) := by
  unfold mtRepairRow
  try dsimp only
  repeat' first
    | with_reducible assumption
    | with_reducible exact k_memctl _
    | intro _
    | with_reducible apply ite_keeps
    | with_reducible apply raise_keeps
    | with_reducible apply count_keeps
    | with_reducible apply wf_keeps
    | with_reducible apply setMemSt_keeps
    | split
    | with_reducible apply Keeps.lit

theorem mtEnd_keeps {d : Nat} (k_memctl : ∀ d, pgMemctl d ≠ q₀) (hU : Keeps q₀ s₀ s) : Keeps q₀ s₀ (mtEnd s d) := by
  unfold mtEnd
  try dsimp only
  repeat' first
    | with_reducible assumption
    | with_reducible exact k_memctl _
    | intro _
    | with_reducible apply ite_keeps
    | with_reducible apply mtStat_keeps
    | with_reducible apply setMemSt_keeps
    | with_reducible apply raise_keeps
    | with_reducible apply count_keeps
    | split
    | with_reducible apply Keeps.lit

theorem execMemtestPhaseDone_kept {d : Nat} {rows : List Nat} (k_fence : ∀ d, pgFence d ≠ q₀) (k_memctl : ∀ d, pgMemctl d ≠ q₀) (k_chuteGlobal : ∀ d, pgChuteGlobal d ≠ q₀) (k_chute : ∀ d i, pgChute d i ≠ q₀) (hU : Keeps q₀ s₀ s) : Kept q₀ s₀ (execMemtestPhaseDone d rows s) := by
  unfold execMemtestPhaseDone
  try dsimp only
  repeat' first
    | with_reducible assumption
    | with_reducible exact k_fence _
    | with_reducible exact k_memctl _
    | with_reducible exact k_chuteGlobal _
    | with_reducible exact k_chute _ _
    | intro _
    | with_reducible apply ok_kept
    | with_reducible apply ite_kept
    | with_reducible apply ite_keeps
    | with_reducible exact ok_kept (by assumption)
    | with_reducible apply mtStat_keeps
    | with_reducible apply setMemSt_keeps
    | with_reducible apply mtCopy_keeps
    | with_reducible apply each_keeps
    | with_reducible apply mtRepairRow_keeps
    | with_reducible apply mtEnd_keeps
    | split
    | with_reducible apply Keeps.lit

theorem execRepairMapSave_kept {d : Nat} (k_retain : ∀ d, pgRetain d ≠ q₀) (hU : Keeps q₀ s₀ s) : Kept q₀ s₀ (execRepairMapSave d s) := by
  unfold execRepairMapSave
  try dsimp only
  repeat' first
    | with_reducible assumption
    | with_reducible exact k_retain _
    | intro _
    | with_reducible apply ok_kept
    | with_reducible apply ite_kept
    | with_reducible apply ite_keeps
    | with_reducible exact ok_kept (by assumption)
    | with_reducible apply setMemSt_keeps
    | with_reducible apply nextFree_keeps
    | with_reducible apply retWrite_keeps
    | split
    | with_reducible apply Keeps.lit

theorem retStat_keeps {d : Nat} (k_retain : ∀ d, pgRetain d ≠ q₀) (hU : Keeps q₀ s₀ s) : Keeps q₀ s₀ (retStat s d) := by
  unfold retStat
  try dsimp only
  repeat' first
    | with_reducible assumption
    | with_reducible exact k_retain _
    | intro _
    | with_reducible apply ite_keeps
    | with_reducible apply wb_keeps
    | with_reducible apply wf_keeps
    | split
    | with_reducible apply Keeps.lit

theorem retAdvance_keeps {d : Nat} (k_retain : ∀ d, pgRetain d ≠ q₀) (hU : Keeps q₀ s₀ s) : Keeps q₀ s₀ (retAdvance s d) := by
  unfold retAdvance
  try dsimp only
  repeat' first
    | with_reducible assumption
    | with_reducible exact k_retain _
    | intro _
    | with_reducible apply ite_keeps
    | with_reducible apply wf_keeps
    | split
    | with_reducible apply Keeps.lit

theorem retDataWrite_keeps {r : Req} {d : Nat} {v : Word} (k_retain : ∀ d, pgRetain d ≠ q₀) (hU : Keeps q₀ s₀ s) : Keeps q₀ s₀ (retDataWrite r d v s) := by
  unfold retDataWrite
  try dsimp only
  repeat' first
    | with_reducible assumption
    | with_reducible exact k_retain _
    | intro _
    | with_reducible apply ite_keeps
    | with_reducible apply raise_keeps
    | with_reducible apply logErr_keeps
    | with_reducible apply retStat_keeps
    | with_reducible apply setMemSt_keeps
    | with_reducible apply retAdvance_keeps
    | split
    | with_reducible apply Keeps.lit

theorem execRetDataWrite_kept {r : Req} {d : Nat} {v : Word} (k_retain : ∀ d, pgRetain d ≠ q₀) (k_pcie : pgPcie ≠ q₀) (k_guard : ∀ d, pgGuard d ≠ q₀) (hU : Keeps q₀ s₀ s) : Kept q₀ s₀ (execRetDataWrite r d v s) := by
  unfold execRetDataWrite
  try dsimp only
  repeat' first
    | with_reducible assumption
    | with_reducible exact k_retain _
    | with_reducible exact k_pcie
    | with_reducible exact k_guard _
    | intro _
    | with_reducible apply ok_kept
    | with_reducible apply ite_kept
    | with_reducible apply ite_keeps
    | with_reducible exact ok_kept (by assumption)
    | with_reducible apply guardedWrite_keeps
    | with_reducible apply retDataWrite_keeps
    | split
    | with_reducible apply Keeps.lit

theorem retDataRead_keeps {d : Nat} (k_retain : ∀ d, pgRetain d ≠ q₀) (hU : Keeps q₀ s₀ s) : Keeps q₀ s₀ (retDataRead d s) := by
  unfold retDataRead
  try dsimp only
  repeat' first
    | with_reducible assumption
    | with_reducible exact k_retain _
    | intro _
    | with_reducible apply ite_keeps
    | with_reducible apply wb_keeps
    | with_reducible apply raise_keeps
    | with_reducible apply count_keeps
    | with_reducible apply retAdvance_keeps
    | split
    | with_reducible apply Keeps.lit

theorem execRetDataRead_kept {r : Req} {d : Nat} (k_retain : ∀ d, pgRetain d ≠ q₀) (k_pcie : pgPcie ≠ q₀) (k_guard : ∀ d, pgGuard d ≠ q₀) (hU : Keeps q₀ s₀ s) : Kept q₀ s₀ (execRetDataRead r d s) := by
  unfold execRetDataRead
  try dsimp only
  repeat' first
    | with_reducible assumption
    | with_reducible exact k_retain _
    | with_reducible exact k_pcie
    | with_reducible exact k_guard _
    | intro _
    | with_reducible apply ok_kept
    | with_reducible apply ite_kept
    | with_reducible apply ite_keeps
    | with_reducible exact ok_kept (by assumption)
    | with_reducible apply guardedRead_keeps
    | with_reducible apply retDataRead_keeps
    | split
    | with_reducible apply Keeps.lit

theorem execRetWordWritten_kept {d : Nat} (k_retain : ∀ d, pgRetain d ≠ q₀) (hU : Keeps q₀ s₀ s) : Kept q₀ s₀ (execRetWordWritten d s) := by
  unfold execRetWordWritten
  try dsimp only
  repeat' first
    | with_reducible assumption
    | with_reducible exact k_retain _
    | intro _
    | with_reducible apply ok_kept
    | with_reducible apply ite_kept
    | with_reducible apply ite_keeps
    | with_reducible exact ok_kept (by assumption)
    | with_reducible apply retStat_keeps
    | with_reducible apply retWrite_keeps
    | with_reducible apply setMemSt_keeps
    | split
    | with_reducible apply Keeps.lit

end Sys2Proof.Laws
end

