-- ==== Sys2Proof/Laws/WaveReg.lean ====
section
/-!
SUPPORT. The register pages that each operation of `Machine/Wave.lean` may write: every other page reads as before.
-/

set_option Elab.async false
set_option linter.unusedTactic false
set_option linter.unreachableTactic false
namespace Sys2Proof.Laws

open Sys2Proof.Machine

variable {q₀ : Pg} {s₀ s : State}

theorem streamFollow_keeps {d : Nat} {p : Nat} (hU : Keeps q₀ s₀ s) : Keeps q₀ s₀ (streamFollow s d p) := by
  unfold streamFollow
  try dsimp only
  repeat' first
    | with_reducible assumption
    | intro _
    | with_reducible apply ite_keeps
    | with_reducible apply setPort_keeps
    | with_reducible apply emit_keeps
    | split
    | with_reducible apply Keeps.lit

theorem pwmRoll_keeps {d : Nat} {p : Nat} (k_hp : ∀ d i, pgHp d i ≠ q₀) (hU : Keeps q₀ s₀ s) : Keeps q₀ s₀ (pwmRoll s d p) := by
  unfold pwmRoll
  try dsimp only
  repeat' first
    | with_reducible assumption
    | with_reducible exact k_hp _ _
    | intro _
    | with_reducible apply ite_keeps
    | with_reducible apply setPort_keeps
    | with_reducible apply wf_keeps
    | with_reducible apply emit_keeps
    | split
    | with_reducible apply Keeps.lit

theorem htrFollow_keeps {d : Nat} {p : Nat} (k_hp : ∀ d i, pgHp d i ≠ q₀) (hU : Keeps q₀ s₀ s) : Keeps q₀ s₀ (htrFollow s d p) := by
  unfold htrFollow
  try dsimp only
  repeat' first
    | with_reducible assumption
    | with_reducible exact k_hp _ _
    | intro _
    | with_reducible apply ite_keeps
    | with_reducible apply setDyn_keeps
    | with_reducible apply pwmRoll_keeps
    | with_reducible apply wf_keeps
    | with_reducible apply setPort_keeps
    | with_reducible apply wr_keeps
    | with_reducible apply emit_keeps
    | split
    | with_reducible apply Keeps.lit

theorem hpHandOver_keeps {d : Nat} {p : Nat} (k_hp : ∀ d i, pgHp d i ≠ q₀) (hU : Keeps q₀ s₀ s) : Keeps q₀ s₀ (hpHandOver s d p) := by
  unfold hpHandOver
  try dsimp only
  repeat' first
    | with_reducible assumption
    | with_reducible exact k_hp _ _
    | intro _
    | with_reducible apply ite_keeps
    | with_reducible apply takeShadows_keeps
    | with_reducible apply pwmRoll_keeps
    | with_reducible apply htrFollow_keeps
    | with_reducible apply wf_keeps
    | split
    | with_reducible apply Keeps.lit

theorem loadFail_keeps {d : Nat} {p : Nat} {code : Nat} (k_hp : ∀ d i, pgHp d i ≠ q₀) (hU : Keeps q₀ s₀ s) : Keeps q₀ s₀ (loadFail s d p code) := by
  unfold loadFail
  try dsimp only
  repeat' first
    | with_reducible assumption
    | with_reducible exact k_hp _ _
    | intro _
    | with_reducible apply ite_keeps
    | with_reducible apply wr_keeps
    | with_reducible apply raise_keeps
    | with_reducible apply setPort_keeps
    | split
    | with_reducible apply Keeps.lit

theorem loadAbort_keeps {d : Nat} {p : Nat} (k_hp : ∀ d i, pgHp d i ≠ q₀) (hU : Keeps q₀ s₀ s) : Keeps q₀ s₀ (loadAbort s d p) := by
  unfold loadAbort
  try dsimp only
  repeat' first
    | with_reducible assumption
    | with_reducible exact k_hp _ _
    | intro _
    | with_reducible apply ite_keeps
    | with_reducible apply loadFail_keeps
    | split
    | with_reducible apply Keeps.lit

end Sys2Proof.Laws
end

