-- ==== Sys2Proof/Laws/ImageReg.lean ====
section
/-!
SUPPORT. The register pages that each operation of `Machine/Image.lean` may write: every other page reads as before.
-/

set_option Elab.async false
set_option linter.unusedTactic false
set_option linter.unreachableTactic false
namespace Sys2Proof.Laws

open Sys2Proof.Machine

variable {q₀ : Pg} {s₀ s : State}

theorem blockBad_keeps {d : Nat} {c : Nat} {reason : Nat} {h : Hdr} (k_fence : ∀ d, pgFence d ≠ q₀) (k_chuteGlobal : ∀ d, pgChuteGlobal d ≠ q₀) (k_seam : ∀ d, pgSeam d ≠ q₀) (k_chute : ∀ d i, pgChute d i ≠ q₀) (hU : Keeps q₀ s₀ s) : Keeps q₀ s₀ (blockBad s d c reason h) := by
  unfold blockBad
  try dsimp only
  repeat' first
    | with_reducible assumption
    | with_reducible exact k_fence _
    | with_reducible exact k_chuteGlobal _
    | with_reducible exact k_seam _
    | with_reducible exact k_chute _ _
    | intro _
    | with_reducible apply ite_keeps
    | with_reducible apply wr_keeps
    | with_reducible apply count_keeps
    | with_reducible apply logRecord_keeps
    | with_reducible apply raise_keeps
    | split
    | with_reducible apply Keeps.lit

theorem lodeWrites_keeps {d : Nat} {w : Nat} {vs : List Word} (hU : Keeps q₀ s₀ s) : Keeps q₀ s₀ (lodeWrites s d w vs) := by
  unfold lodeWrites
  try dsimp only
  repeat' first
    | with_reducible assumption
    | intro _
    | with_reducible apply ite_keeps
    | with_reducible apply each_keeps
    | with_reducible apply wrWord_keeps
    | split
    | with_reducible apply Keeps.lit

theorem storeShare_keeps {d : Nat} {k : Nat} {m : Nat} {vals : List Nat} (hU : Keeps q₀ s₀ s) : Keeps q₀ s₀ (storeShare s d k m vals) := by
  unfold storeShare
  try dsimp only
  repeat' first
    | with_reducible assumption
    | intro _
    | with_reducible apply ite_keeps
    | with_reducible apply lodeWrites_keeps
    | with_reducible apply setCtx_keeps
    | split
    | with_reducible apply Keeps.lit

theorem expandLine_keeps {d : Nat} {k : Nat} {sw : Nat} {m : Nat} {colBase : Nat} {y : Nat} {ready : Bool} {pix : List Nat} (k_seam : ∀ d, pgSeam d ≠ q₀) (hU : Keeps q₀ s₀ s) : Keeps q₀ s₀ (expandLine s d k sw m colBase y ready pix) := by
  unfold expandLine
  try dsimp only
  repeat' first
    | with_reducible assumption
    | with_reducible exact k_seam _
    | intro _
    | with_reducible apply ite_keeps
    | with_reducible apply lodeWrites_keeps
    | with_reducible apply setCtx_keeps
    | with_reducible apply count_keeps
    | with_reducible apply storeShare_keeps
    | split
    | with_reducible apply Keeps.lit

theorem creditOwner_keeps {d : Nat} {k : Nat} (hU : Keeps q₀ s₀ s) : Keeps q₀ s₀ (creditOwner s d k) := by
  unfold creditOwner
  try dsimp only
  repeat' first
    | with_reducible assumption
    | intro _
    | with_reducible apply ite_keeps
    | split
    | with_reducible apply Keeps.lit

theorem freeLines_keeps {d : Nat} {k : Nat} {f : ImgLine → Bool} (hU : Keeps q₀ s₀ s) : Keeps q₀ s₀ (freeLines s d k f) := by
  unfold freeLines
  try dsimp only
  repeat' first
    | with_reducible assumption
    | intro _
    | with_reducible apply ite_keeps
    | with_reducible apply setCtx_keeps
    | with_reducible apply each_keeps
    | with_reducible apply creditOwner_keeps
    | split
    | with_reducible apply Keeps.lit

theorem setBlk_keeps {d : Nat} {c : Nat} {b : Option Blk} (hU : Keeps q₀ s₀ s) : Keeps q₀ s₀ (setBlk s d c b) := by
  unfold setBlk
  try dsimp only
  repeat' first
    | with_reducible assumption
    | intro _
    | with_reducible apply ite_keeps
    | with_reducible apply setChute_keeps
    | split
    | with_reducible apply Keeps.lit

theorem asmPoison_keeps {d : Nat} {c : Nat} {o : Option Nat} (k_fence : ∀ d, pgFence d ≠ q₀) (k_chuteGlobal : ∀ d, pgChuteGlobal d ≠ q₀) (k_seam : ∀ d, pgSeam d ≠ q₀) (k_echo : ∀ d, pgEcho d ≠ q₀) (k_ctx : ∀ d, pgCtx d ≠ q₀) (k_chute : ∀ d i, pgChute d i ≠ q₀) (hU : Keeps q₀ s₀ s) : Keeps q₀ s₀ (asmPoison s d c o) := by
  unfold asmPoison
  try dsimp only
  repeat' first
    | with_reducible assumption
    | with_reducible exact k_fence _
    | with_reducible exact k_chuteGlobal _
    | with_reducible exact k_seam _
    | with_reducible exact k_echo _
    | with_reducible exact k_ctx _
    | with_reducible exact k_chute _ _
    | intro _
    | with_reducible apply ite_keeps
    | with_reducible apply logRecord_keeps
    | with_reducible apply ctxPoison_keeps
    | split
    | with_reducible apply Keeps.lit

theorem huntOn_keeps {x0 : Nat} {x2 : Nat} {x3 : Nat} (k_fence : ∀ d, pgFence d ≠ q₀) (k_memctl : ∀ d, pgMemctl d ≠ q₀) (k_chuteGlobal : ∀ d, pgChuteGlobal d ≠ q₀) (k_seam : ∀ d, pgSeam d ≠ q₀) (k_chute : ∀ d i, pgChute d i ≠ q₀) (hU : Keeps q₀ s₀ s) : Keeps q₀ s₀ (huntOn x0 s x2 x3) := by
  induction x0 generalizing s x2 x3 with
  | zero => exact hU
  | succ n ih =>
    unfold huntOn
    try dsimp only
    repeat' first
      | with_reducible assumption
      | with_reducible apply ih
      | with_reducible exact k_fence _
      | with_reducible exact k_memctl _
      | with_reducible exact k_chuteGlobal _
      | with_reducible exact k_seam _
      | with_reducible exact k_chute _ _
      | intro _
      | with_reducible apply ite_keeps
      | with_reducible apply setChute_keeps
      | with_reducible apply count_keeps
      | with_reducible apply chuteSkip_keeps
      | split
      | with_reducible apply Keeps.lit

theorem dropBlock_keeps {d : Nat} {c : Nat} {n : Nat} (k_fence : ∀ d, pgFence d ≠ q₀) (k_memctl : ∀ d, pgMemctl d ≠ q₀) (k_chuteGlobal : ∀ d, pgChuteGlobal d ≠ q₀) (k_chute : ∀ d i, pgChute d i ≠ q₀) (hU : Keeps q₀ s₀ s) : Keeps q₀ s₀ (dropBlock s d c n) := by
  unfold dropBlock
  try dsimp only
  repeat' first
    | with_reducible assumption
    | with_reducible exact k_fence _
    | with_reducible exact k_memctl _
    | with_reducible exact k_chuteGlobal _
    | with_reducible exact k_chute _ _
    | intro _
    | with_reducible apply ite_keeps
    | with_reducible apply chuteSkip_keeps
    | with_reducible apply setChute_keeps
    | split
    | with_reducible apply Keeps.lit

theorem blkGiveUp_keeps {d : Nat} {c : Nat} {b : Blk} (k_fence : ∀ d, pgFence d ≠ q₀) (k_memctl : ∀ d, pgMemctl d ≠ q₀) (k_chuteGlobal : ∀ d, pgChuteGlobal d ≠ q₀) (k_chute : ∀ d i, pgChute d i ≠ q₀) (hU : Keeps q₀ s₀ s) : Keeps q₀ s₀ (blkGiveUp s d c b) := by
  unfold blkGiveUp
  try dsimp only
  repeat' first
    | with_reducible assumption
    | with_reducible exact k_fence _
    | with_reducible exact k_memctl _
    | with_reducible exact k_chuteGlobal _
    | with_reducible exact k_chute _ _
    | intro _
    | with_reducible apply ite_keeps
    | with_reducible apply freeLines_keeps
    | with_reducible apply setBlk_keeps
    | with_reducible apply dropBlock_keeps
    | split
    | with_reducible apply Keeps.lit

theorem blkFail_keeps {d : Nat} {c : Nat} {reason : Nat} {b : Blk} (k_fence : ∀ d, pgFence d ≠ q₀) (k_memctl : ∀ d, pgMemctl d ≠ q₀) (k_chuteGlobal : ∀ d, pgChuteGlobal d ≠ q₀) (k_seam : ∀ d, pgSeam d ≠ q₀) (k_chute : ∀ d i, pgChute d i ≠ q₀) (hU : Keeps q₀ s₀ s) : Keeps q₀ s₀ (blkFail s d c reason b) := by
  unfold blkFail
  try dsimp only
  repeat' first
    | with_reducible assumption
    | with_reducible exact k_fence _
    | with_reducible exact k_memctl _
    | with_reducible exact k_chuteGlobal _
    | with_reducible exact k_seam _
    | with_reducible exact k_chute _ _
    | intro _
    | with_reducible apply ite_keeps
    | with_reducible apply blockBad_keeps
    | with_reducible apply blkGiveUp_keeps
    | split
    | with_reducible apply Keeps.lit

theorem blkTake_keeps {d : Nat} {c : Nat} {b : Blk} (k_ctx : ∀ d, pgCtx d ≠ q₀) (hU : Keeps q₀ s₀ s) : Keeps q₀ s₀ (blkTake s d c b) := by
  unfold blkTake
  try dsimp only
  repeat' first
    | with_reducible assumption
    | with_reducible exact k_ctx _
    | intro _
    | with_reducible apply ite_keeps
    | with_reducible apply setCtx_keeps
    | with_reducible apply setBlk_keeps
    | with_reducible apply ctxEvt_keeps
    | split
    | with_reducible apply Keeps.lit

theorem blkWord_keeps {d : Nat} {c : Nat} {b : Blk} {f : State → Blk → Word → State} (k_fence : ∀ d, pgFence d ≠ q₀) (k_memctl : ∀ d, pgMemctl d ≠ q₀) (k_chuteGlobal : ∀ d, pgChuteGlobal d ≠ q₀) (k_seam : ∀ d, pgSeam d ≠ q₀) (k_echo : ∀ d, pgEcho d ≠ q₀) (k_ctx : ∀ d, pgCtx d ≠ q₀) (k_chute : ∀ d i, pgChute d i ≠ q₀) (hU : Keeps q₀ s₀ s) (hf_f : ∀ tU x0 x1, Keeps q₀ s₀ tU → Keeps q₀ s₀ (f tU x0 x1)) : Keeps q₀ s₀ (blkWord s d c b f).2 := by
  unfold blkWord
  try dsimp only
  repeat' first
    | with_reducible assumption
    | with_reducible exact k_fence _
    | with_reducible exact k_memctl _
    | with_reducible exact k_chuteGlobal _
    | with_reducible exact k_seam _
    | with_reducible exact k_echo _
    | with_reducible exact k_ctx _
    | with_reducible exact k_chute _ _
    | intro _
    | with_reducible apply ite_keeps
    | with_reducible apply hf_f
    | with_reducible apply chuteTake_keeps
    | with_reducible apply asmPoison_keeps
    | with_reducible apply blkGiveUp_keeps
    | with_reducible apply setBlk_keeps
    | (with_reducible refine pair_keeps (by assumption) ?_)
    | split
    | with_reducible apply Keeps.lit

theorem blkAdd_keeps {d : Nat} {c : Nat} {b : Blk} {ws : List Word} (k_seam : ∀ d, pgSeam d ≠ q₀) (hU : Keeps q₀ s₀ s) : Keeps q₀ s₀ (blkAdd s d c b ws) := by
  unfold blkAdd
  try dsimp only
  repeat' first
    | with_reducible assumption
    | with_reducible exact k_seam _
    | intro _
    | with_reducible apply ite_keeps
    | with_reducible apply setBlk_keeps
    | with_reducible apply expandLine_keeps
    | split
    | with_reducible apply Keeps.lit

theorem blkToken_keeps {d : Nat} {c : Nat} {b : Blk} {w : Word} (k_fence : ∀ d, pgFence d ≠ q₀) (k_memctl : ∀ d, pgMemctl d ≠ q₀) (k_chuteGlobal : ∀ d, pgChuteGlobal d ≠ q₀) (k_seam : ∀ d, pgSeam d ≠ q₀) (k_chute : ∀ d i, pgChute d i ≠ q₀) (hU : Keeps q₀ s₀ s) : Keeps q₀ s₀ (blkToken s d c b w) := by
  unfold blkToken
  try dsimp only
  repeat' first
    | with_reducible assumption
    | with_reducible exact k_fence _
    | with_reducible exact k_memctl _
    | with_reducible exact k_chuteGlobal _
    | with_reducible exact k_seam _
    | with_reducible exact k_chute _ _
    | intro _
    | with_reducible apply ite_keeps
    | with_reducible apply blkFail_keeps
    | with_reducible apply setBlk_keeps
    | split
    | with_reducible apply Keeps.lit

theorem blkEnd_keeps {d : Nat} {c : Nat} {b : Blk} (k_fence : ∀ d, pgFence d ≠ q₀) (k_memctl : ∀ d, pgMemctl d ≠ q₀) (k_chuteGlobal : ∀ d, pgChuteGlobal d ≠ q₀) (k_seam : ∀ d, pgSeam d ≠ q₀) (k_echo : ∀ d, pgEcho d ≠ q₀) (k_ctx : ∀ d, pgCtx d ≠ q₀) (k_chute : ∀ d i, pgChute d i ≠ q₀) (hU : Keeps q₀ s₀ s) : Keeps q₀ s₀ (blkEnd s d c b).2 := by
  unfold blkEnd
  try dsimp only
  repeat' first
    | with_reducible assumption
    | with_reducible exact k_fence _
    | with_reducible exact k_memctl _
    | with_reducible exact k_chuteGlobal _
    | with_reducible exact k_seam _
    | with_reducible exact k_echo _
    | with_reducible exact k_ctx _
    | with_reducible exact k_chute _ _
    | intro _
    | with_reducible apply ite_keeps
    | with_reducible apply blkFail_keeps
    | with_reducible apply blkWord_keeps
    | with_reducible apply blkTake_keeps
    | (with_reducible refine pair_keeps (by assumption) ?_)
    | split
    | with_reducible apply Keeps.lit

theorem blkWait_keeps {d : Nat} {c : Nat} {b : Blk} (k_seam : ∀ d, pgSeam d ≠ q₀) (hU : Keeps q₀ s₀ s) : Keeps q₀ s₀ (blkWait s d c b).2 := by
  unfold blkWait
  try dsimp only
  repeat' first
    | with_reducible assumption
    | with_reducible exact k_seam _
    | intro _
    | with_reducible apply ite_keeps
    | with_reducible apply raise_keeps
    | with_reducible apply count_keeps
    | with_reducible apply setBlk_keeps
    | split
    | with_reducible apply Keeps.lit

theorem blkStep_keeps {d : Nat} {c : Nat} {b : Blk} (k_fence : ∀ d, pgFence d ≠ q₀) (k_memctl : ∀ d, pgMemctl d ≠ q₀) (k_chuteGlobal : ∀ d, pgChuteGlobal d ≠ q₀) (k_seam : ∀ d, pgSeam d ≠ q₀) (k_echo : ∀ d, pgEcho d ≠ q₀) (k_ctx : ∀ d, pgCtx d ≠ q₀) (k_chute : ∀ d i, pgChute d i ≠ q₀) (hU : Keeps q₀ s₀ s) : Keeps q₀ s₀ (blkStep s d c b).2 := by
  unfold blkStep
  try dsimp only
  repeat' first
    | with_reducible assumption
    | with_reducible exact k_fence _
    | with_reducible exact k_memctl _
    | with_reducible exact k_chuteGlobal _
    | with_reducible exact k_seam _
    | with_reducible exact k_echo _
    | with_reducible exact k_ctx _
    | with_reducible exact k_chute _ _
    | intro _
    | with_reducible apply ite_keeps
    | with_reducible apply blkEnd_keeps
    | with_reducible apply blkWait_keeps
    | with_reducible apply blkAdd_keeps
    | with_reducible apply blkFail_keeps
    | with_reducible apply blkWord_keeps
    | with_reducible apply blkToken_keeps
    | (with_reducible refine pair_keeps (by assumption) ?_)
    | split
    | with_reducible apply Keeps.lit

theorem blkGo_keeps {x0 : Nat} {x2 : Nat} {x3 : Nat} (k_fence : ∀ d, pgFence d ≠ q₀) (k_memctl : ∀ d, pgMemctl d ≠ q₀) (k_chuteGlobal : ∀ d, pgChuteGlobal d ≠ q₀) (k_seam : ∀ d, pgSeam d ≠ q₀) (k_echo : ∀ d, pgEcho d ≠ q₀) (k_ctx : ∀ d, pgCtx d ≠ q₀) (k_chute : ∀ d i, pgChute d i ≠ q₀) (hU : Keeps q₀ s₀ s) : Keeps q₀ s₀ (blkGo x0 s x2 x3) := by
  induction x0 generalizing s x2 x3 with
  | zero => exact hU
  | succ n ih =>
    unfold blkGo
    try dsimp only
    repeat' first
      | with_reducible assumption
      | with_reducible apply ih
      | with_reducible exact k_fence _
      | with_reducible exact k_memctl _
      | with_reducible exact k_chuteGlobal _
      | with_reducible exact k_seam _
      | with_reducible exact k_echo _
      | with_reducible exact k_ctx _
      | with_reducible exact k_chute _ _
      | intro _
      | with_reducible apply ite_keeps
      | with_reducible apply blkStep_keeps
      | (with_reducible refine pair_keeps (by assumption) ?_)
      | split
      | with_reducible apply Keeps.lit

theorem expandAll_keeps {d : Nat} {k : Nat} (k_fence : ∀ d, pgFence d ≠ q₀) (k_memctl : ∀ d, pgMemctl d ≠ q₀) (k_chuteGlobal : ∀ d, pgChuteGlobal d ≠ q₀) (k_seam : ∀ d, pgSeam d ≠ q₀) (k_echo : ∀ d, pgEcho d ≠ q₀) (k_ctx : ∀ d, pgCtx d ≠ q₀) (k_chute : ∀ d i, pgChute d i ≠ q₀) (hU : Keeps q₀ s₀ s) : Keeps q₀ s₀ (expandAll s d k) := by
  unfold expandAll
  try dsimp only
  repeat' first
    | with_reducible assumption
    | with_reducible exact k_fence _
    | with_reducible exact k_memctl _
    | with_reducible exact k_chuteGlobal _
    | with_reducible exact k_seam _
    | with_reducible exact k_echo _
    | with_reducible exact k_ctx _
    | with_reducible exact k_chute _ _
    | intro _
    | with_reducible apply ite_keeps
    | with_reducible apply blkGo_keeps
    | split
    | with_reducible apply Keeps.lit

theorem blkBegin_keeps {d : Nat} {c : Nat} {h : Hdr} {gap : Bool} {missing : Nat} {newSw : Bool} (k_fence : ∀ d, pgFence d ≠ q₀) (k_memctl : ∀ d, pgMemctl d ≠ q₀) (k_chuteGlobal : ∀ d, pgChuteGlobal d ≠ q₀) (k_seam : ∀ d, pgSeam d ≠ q₀) (k_echo : ∀ d, pgEcho d ≠ q₀) (k_ctx : ∀ d, pgCtx d ≠ q₀) (k_chute : ∀ d i, pgChute d i ≠ q₀) (hU : Keeps q₀ s₀ s) : Keeps q₀ s₀ (blkBegin s d c h gap missing newSw) := by
  unfold blkBegin
  try dsimp only
  repeat' first
    | with_reducible assumption
    | with_reducible exact k_fence _
    | with_reducible exact k_memctl _
    | with_reducible exact k_chuteGlobal _
    | with_reducible exact k_seam _
    | with_reducible exact k_echo _
    | with_reducible exact k_ctx _
    | with_reducible exact k_chute _ _
    | intro _
    | with_reducible apply ite_keeps
    | with_reducible apply dropBlock_keeps
    | with_reducible apply blockBad_keeps
    | with_reducible apply setCtx_keeps
    | with_reducible apply each_keeps
    | with_reducible apply chuteTake_keeps
    | with_reducible apply blkGo_keeps
    | with_reducible apply setBlk_keeps
    | (with_reducible refine pair_keeps (by assumption) ?_)
    | split
    | with_reducible apply Keeps.lit

theorem headPoison_keeps {d : Nat} {c : Nat} {n : Nat} (k_fence : ∀ d, pgFence d ≠ q₀) (k_memctl : ∀ d, pgMemctl d ≠ q₀) (k_chuteGlobal : ∀ d, pgChuteGlobal d ≠ q₀) (k_seam : ∀ d, pgSeam d ≠ q₀) (k_echo : ∀ d, pgEcho d ≠ q₀) (k_ctx : ∀ d, pgCtx d ≠ q₀) (k_chute : ∀ d i, pgChute d i ≠ q₀) (hU : Keeps q₀ s₀ s) : Keeps q₀ s₀ (headPoison s d c n) := by
  unfold headPoison
  try dsimp only
  repeat' first
    | with_reducible assumption
    | with_reducible exact k_fence _
    | with_reducible exact k_memctl _
    | with_reducible exact k_chuteGlobal _
    | with_reducible exact k_seam _
    | with_reducible exact k_echo _
    | with_reducible exact k_ctx _
    | with_reducible exact k_chute _ _
    | intro _
    | with_reducible apply ite_keeps
    | with_reducible apply each_keeps
    | with_reducible apply chuteTake_keeps
    | with_reducible apply asmPoison_keeps
    | with_reducible apply setChute_keeps
    | (with_reducible refine pair_keeps (by assumption) ?_)
    | split
    | with_reducible apply Keeps.lit

theorem blockHead_keeps {d : Nat} {c : Nat} (k_fence : ∀ d, pgFence d ≠ q₀) (k_memctl : ∀ d, pgMemctl d ≠ q₀) (k_chuteGlobal : ∀ d, pgChuteGlobal d ≠ q₀) (k_seam : ∀ d, pgSeam d ≠ q₀) (k_echo : ∀ d, pgEcho d ≠ q₀) (k_ctx : ∀ d, pgCtx d ≠ q₀) (k_chute : ∀ d i, pgChute d i ≠ q₀) (hU : Keeps q₀ s₀ s) : Keeps q₀ s₀ (blockHead s d c) := by
  unfold blockHead
  try dsimp only
  repeat' first
    | with_reducible assumption
    | with_reducible exact k_fence _
    | with_reducible exact k_memctl _
    | with_reducible exact k_chuteGlobal _
    | with_reducible exact k_seam _
    | with_reducible exact k_echo _
    | with_reducible exact k_ctx _
    | with_reducible exact k_chute _ _
    | intro _
    | with_reducible apply ite_keeps
    | with_reducible apply headPoison_keeps
    | with_reducible apply blockBad_keeps
    | with_reducible apply count_keeps
    | with_reducible apply chuteSkip_keeps
    | with_reducible apply huntOn_keeps
    | with_reducible apply setChute_keeps
    | with_reducible apply dropBlock_keeps
    | with_reducible apply ctxEvt_keeps
    | with_reducible apply setCtx_keeps
    | with_reducible exact ok_kept (by assumption)
    | with_reducible apply blkBegin_keeps
    | split
    | with_reducible apply Keeps.lit

theorem blockAccept_keeps {d : Nat} {c : Nat} (k_fence : ∀ d, pgFence d ≠ q₀) (k_memctl : ∀ d, pgMemctl d ≠ q₀) (k_chuteGlobal : ∀ d, pgChuteGlobal d ≠ q₀) (k_seam : ∀ d, pgSeam d ≠ q₀) (k_echo : ∀ d, pgEcho d ≠ q₀) (k_ctx : ∀ d, pgCtx d ≠ q₀) (k_chute : ∀ d i, pgChute d i ≠ q₀) (hU : Keeps q₀ s₀ s) : Keeps q₀ s₀ (blockAccept s d c) := by
  unfold blockAccept
  try dsimp only
  repeat' first
    | with_reducible assumption
    | with_reducible exact k_fence _
    | with_reducible exact k_memctl _
    | with_reducible exact k_chuteGlobal _
    | with_reducible exact k_seam _
    | with_reducible exact k_echo _
    | with_reducible exact k_ctx _
    | with_reducible exact k_chute _ _
    | intro _
    | with_reducible apply ite_keeps
    | with_reducible apply dropBlock_keeps
    | with_reducible apply blkGo_keeps
    | with_reducible apply huntOn_keeps
    | with_reducible apply blockHead_keeps
    | split
    | with_reducible apply Keeps.lit

theorem readSlots_keeps {x0 : List Nat} {x2 : Nat} {x3 : Nat} (k_fence : ∀ d, pgFence d ≠ q₀) (k_memctl : ∀ d, pgMemctl d ≠ q₀) (k_chuteGlobal : ∀ d, pgChuteGlobal d ≠ q₀) (k_seam : ∀ d, pgSeam d ≠ q₀) (k_echo : ∀ d, pgEcho d ≠ q₀) (k_ctx : ∀ d, pgCtx d ≠ q₀) (k_chute : ∀ d i, pgChute d i ≠ q₀) (hU : Keeps q₀ s₀ s) : Keeps q₀ s₀ (readSlots x0 s x2 x3).2.2 := by
  induction x0 generalizing s x2 x3 with
  | nil => exact hU
  | cons e r ih =>
    unfold readSlots
    try dsimp only
    repeat' first
      | with_reducible assumption
      | with_reducible apply ih
      | with_reducible exact k_fence _
      | with_reducible exact k_memctl _
      | with_reducible exact k_chuteGlobal _
      | with_reducible exact k_seam _
      | with_reducible exact k_echo _
      | with_reducible exact k_ctx _
      | with_reducible exact k_chute _ _
      | intro _
      | with_reducible apply ite_keeps
      | with_reducible apply ctxRead_keeps
      | (with_reducible refine trip_keeps (by assumption) ?_)
      | split
      | with_reducible apply Keeps.lit

theorem passValue_keeps {d : Nat} {k : Nat} {x : Nat} {y : Nat} (k_fence : ∀ d, pgFence d ≠ q₀) (k_memctl : ∀ d, pgMemctl d ≠ q₀) (k_chuteGlobal : ∀ d, pgChuteGlobal d ≠ q₀) (k_seam : ∀ d, pgSeam d ≠ q₀) (k_echo : ∀ d, pgEcho d ≠ q₀) (k_ctx : ∀ d, pgCtx d ≠ q₀) (k_chute : ∀ d i, pgChute d i ≠ q₀) (hU : Keeps q₀ s₀ s) : Keeps q₀ s₀ (passValue s d k x y).2.2 := by
  unfold passValue
  try dsimp only
  repeat' first
    | with_reducible assumption
    | with_reducible exact k_fence _
    | with_reducible exact k_memctl _
    | with_reducible exact k_chuteGlobal _
    | with_reducible exact k_seam _
    | with_reducible exact k_echo _
    | with_reducible exact k_ctx _
    | with_reducible exact k_chute _ _
    | intro _
    | with_reducible apply ite_keeps
    | with_reducible apply ctxRead_keeps
    | (with_reducible refine trip_keeps (by assumption) ?_)
    | split
    | with_reducible apply Keeps.lit

theorem maskPixel_keeps {d : Nat} {k : Nat} {n : Noz} (k_fence : ∀ d, pgFence d ≠ q₀) (k_memctl : ∀ d, pgMemctl d ≠ q₀) (k_chuteGlobal : ∀ d, pgChuteGlobal d ≠ q₀) (k_seam : ∀ d, pgSeam d ≠ q₀) (k_echo : ∀ d, pgEcho d ≠ q₀) (k_ctx : ∀ d, pgCtx d ≠ q₀) (k_chute : ∀ d i, pgChute d i ≠ q₀) (hU : Keeps q₀ s₀ s) : Keeps q₀ s₀ (maskPixel s d k n).2.2 := by
  unfold maskPixel
  try dsimp only
  repeat' first
    | with_reducible assumption
    | with_reducible exact k_fence _
    | with_reducible exact k_memctl _
    | with_reducible exact k_chuteGlobal _
    | with_reducible exact k_seam _
    | with_reducible exact k_echo _
    | with_reducible exact k_ctx _
    | with_reducible exact k_chute _ _
    | intro _
    | with_reducible apply ite_keeps
    | with_reducible apply passValue_keeps
    | with_reducible apply setCtx_keeps
    | (with_reducible refine trip_keeps (by assumption) ?_)
    | split
    | with_reducible apply Keeps.lit

theorem nozPixel_keeps {d : Nat} {k : Nat} {n : Nat} {rows : List GRow} {sl : Slots} {z : Nat} (k_fence : ∀ d, pgFence d ≠ q₀) (k_memctl : ∀ d, pgMemctl d ≠ q₀) (k_chuteGlobal : ∀ d, pgChuteGlobal d ≠ q₀) (k_seam : ∀ d, pgSeam d ≠ q₀) (k_echo : ∀ d, pgEcho d ≠ q₀) (k_ctx : ∀ d, pgCtx d ≠ q₀) (k_chute : ∀ d i, pgChute d i ≠ q₀) (hU : Keeps q₀ s₀ s) : Keeps q₀ s₀ (nozPixel s d k n rows sl z).2.2 := by
  unfold nozPixel
  try dsimp only
  repeat' first
    | with_reducible assumption
    | with_reducible exact k_fence _
    | with_reducible exact k_memctl _
    | with_reducible exact k_chuteGlobal _
    | with_reducible exact k_seam _
    | with_reducible exact k_echo _
    | with_reducible exact k_ctx _
    | with_reducible exact k_chute _ _
    | intro _
    | with_reducible apply ite_keeps
    | with_reducible apply maskPixel_keeps
    | (with_reducible refine trip_keeps (by assumption) ?_)
    | split
    | with_reducible apply Keeps.lit

theorem nozPixels_keeps {x0 : List Nat} {x2 : Nat} {x3 : Nat} {x4 : Nat} {x5 : List GRow} {x6 : Slots} (k_fence : ∀ d, pgFence d ≠ q₀) (k_memctl : ∀ d, pgMemctl d ≠ q₀) (k_chuteGlobal : ∀ d, pgChuteGlobal d ≠ q₀) (k_seam : ∀ d, pgSeam d ≠ q₀) (k_echo : ∀ d, pgEcho d ≠ q₀) (k_ctx : ∀ d, pgCtx d ≠ q₀) (k_chute : ∀ d i, pgChute d i ≠ q₀) (hU : Keeps q₀ s₀ s) : Keeps q₀ s₀ (nozPixels x0 s x2 x3 x4 x5 x6).2.2 := by
  induction x0 generalizing s x2 x3 x4 x5 x6 with
  | nil => exact hU
  | cons e r ih =>
    unfold nozPixels
    try dsimp only
    repeat' first
      | with_reducible assumption
      | with_reducible apply ih
      | with_reducible exact k_fence _
      | with_reducible exact k_memctl _
      | with_reducible exact k_chuteGlobal _
      | with_reducible exact k_seam _
      | with_reducible exact k_echo _
      | with_reducible exact k_ctx _
      | with_reducible exact k_chute _ _
      | intro _
      | with_reducible apply ite_keeps
      | with_reducible apply nozPixel_keeps
      | (with_reducible refine trip_keeps (by assumption) ?_)
      | split
      | with_reducible apply Keeps.lit

end Sys2Proof.Laws
end

