-- ==== Sys2Proof/Laws/ChuteCmdReg.lean ====
section
/-!
SUPPORT. The register pages that each operation of `Machine/ChuteCmd.lean` may write: every other page reads as before.
-/

set_option Elab.async false
set_option linter.unusedTactic false
set_option linter.unreachableTactic false
namespace Sys2Proof.Laws

open Sys2Proof.Machine

variable {q₀ : Pg} {s₀ s : State}

theorem pushCredit_keeps {r : Req} {d : Nat} {c : Nat} {off : Nat} {w : CWord} (k_chuteGlobal : ∀ d, pgChuteGlobal d ≠ q₀) (k_chute : ∀ d i, pgChute d i ≠ q₀) (hU : Keeps q₀ s₀ s) : Keeps q₀ s₀ (pushCredit s r d c off w) := by
  unfold pushCredit
  try dsimp only
  repeat' first
    | with_reducible assumption
    | with_reducible exact k_chuteGlobal _
    | with_reducible exact k_chute _ _
    | intro _
    | with_reducible apply ite_keeps
    | with_reducible apply logErr_keeps
    | with_reducible apply chuteEvt_keeps
    | with_reducible apply chuteCount_keeps
    | with_reducible apply chuteAppend_keeps
    | split
    | with_reducible apply Keeps.lit

theorem pushOver_keeps {d : Nat} {c : Nat} {w : CWord} (k_chuteGlobal : ∀ d, pgChuteGlobal d ≠ q₀) (k_chute : ∀ d i, pgChute d i ≠ q₀) (hU : Keeps q₀ s₀ s) : Keeps q₀ s₀ (pushOver s d c w) := by
  unfold pushOver
  try dsimp only
  repeat' first
    | with_reducible assumption
    | with_reducible exact k_chuteGlobal _
    | with_reducible exact k_chute _ _
    | intro _
    | with_reducible apply ite_keeps
    | with_reducible apply setChute_keeps
    | with_reducible apply chuteRoom_keeps
    | with_reducible apply chuteRoomTail_keeps
    | with_reducible apply chuteLost_keeps
    | with_reducible apply chuteAppend_keeps
    | split
    | with_reducible apply Keeps.lit

theorem chutePush_keeps {r : Req} {d : Nat} {c : Nat} {off : Nat} {v : Word} (k_chuteGlobal : ∀ d, pgChuteGlobal d ≠ q₀) (k_chute : ∀ d i, pgChute d i ≠ q₀) (hU : Keeps q₀ s₀ s) : Keeps q₀ s₀ (chutePush r d c off v s) := by
  unfold chutePush
  try dsimp only
  repeat' first
    | with_reducible assumption
    | with_reducible exact k_chuteGlobal _
    | with_reducible exact k_chute _ _
    | intro _
    | with_reducible apply ite_keeps
    | with_reducible apply logErr_keeps
    | with_reducible apply pushOver_keeps
    | with_reducible apply pushCredit_keeps
    | split
    | with_reducible apply Keeps.lit

theorem execChutePush_kept {r : Req} {d : Nat} {c : Nat} {i : Nat} {v : Word} (k_chuteGlobal : ∀ d, pgChuteGlobal d ≠ q₀) (k_pcie : pgPcie ≠ q₀) (k_chute : ∀ d i, pgChute d i ≠ q₀) (k_guard : ∀ d, pgGuard d ≠ q₀) (hU : Keeps q₀ s₀ s) : Kept q₀ s₀ (execChutePush r d c i v s) := by
  unfold execChutePush
  try dsimp only
  repeat' first
    | with_reducible assumption
    | with_reducible exact k_chuteGlobal _
    | with_reducible exact k_pcie
    | with_reducible exact k_chute _ _
    | with_reducible exact k_guard _
    | intro _
    | with_reducible apply ok_kept
    | with_reducible apply ite_kept
    | with_reducible apply ite_keeps
    | with_reducible exact ok_kept (by assumption)
    | with_reducible apply guardedWrite_keeps
    | with_reducible apply chutePush_keeps
    | split
    | with_reducible apply Keeps.lit

theorem popPoison_keeps {d : Nat} {c : Nat} (k_fence : ∀ d, pgFence d ≠ q₀) (k_chuteGlobal : ∀ d, pgChuteGlobal d ≠ q₀) (k_pcie : pgPcie ≠ q₀) (k_chute : ∀ d i, pgChute d i ≠ q₀) (hU : Keeps q₀ s₀ s) : Keeps q₀ s₀ (popPoison s d c) := by
  unfold popPoison
  try dsimp only
  repeat' first
    | with_reducible assumption
    | with_reducible exact k_fence _
    | with_reducible exact k_chuteGlobal _
    | with_reducible exact k_pcie
    | with_reducible exact k_chute _ _
    | intro _
    | with_reducible apply ite_keeps
    | with_reducible apply logRecord_keeps
    | with_reducible apply count_keeps
    | split
    | with_reducible apply Keeps.lit

theorem chutePop_keeps {r : Req} {d : Nat} {c : Nat} {off : Nat} (k_fence : ∀ d, pgFence d ≠ q₀) (k_memctl : ∀ d, pgMemctl d ≠ q₀) (k_chuteGlobal : ∀ d, pgChuteGlobal d ≠ q₀) (k_pcie : pgPcie ≠ q₀) (k_chute : ∀ d i, pgChute d i ≠ q₀) (hU : Keeps q₀ s₀ s) : Keeps q₀ s₀ (chutePop r d c off s) := by
  unfold chutePop
  try dsimp only
  repeat' first
    | with_reducible assumption
    | with_reducible exact k_fence _
    | with_reducible exact k_memctl _
    | with_reducible exact k_chuteGlobal _
    | with_reducible exact k_pcie
    | with_reducible exact k_chute _ _
    | intro _
    | with_reducible apply ite_keeps
    | with_reducible apply logErr_keeps
    | with_reducible apply chuteTake_keeps
    | with_reducible apply raise_keeps
    | with_reducible apply popPoison_keeps
    | (with_reducible refine pair_keeps (by assumption) ?_)
    | split
    | with_reducible apply Keeps.lit

theorem popRead_keeps {r : Req} {d : Nat} {c : Nat} {off : Nat} (k_fence : ∀ d, pgFence d ≠ q₀) (k_memctl : ∀ d, pgMemctl d ≠ q₀) (k_chuteGlobal : ∀ d, pgChuteGlobal d ≠ q₀) (k_pcie : pgPcie ≠ q₀) (k_chute : ∀ d i, pgChute d i ≠ q₀) (k_guard : ∀ d, pgGuard d ≠ q₀) (hU : Keeps q₀ s₀ s) : Keeps q₀ s₀ (popRead s r d c off) := by
  unfold popRead
  try dsimp only
  repeat' first
    | with_reducible assumption
    | with_reducible exact k_fence _
    | with_reducible exact k_memctl _
    | with_reducible exact k_chuteGlobal _
    | with_reducible exact k_pcie
    | with_reducible exact k_chute _ _
    | with_reducible exact k_guard _
    | intro _
    | with_reducible apply ite_keeps
    | with_reducible apply guardedRead_keeps
    | with_reducible apply chutePop_keeps
    | split
    | with_reducible apply Keeps.lit

theorem execChutePop_kept {r : Req} {d : Nat} {c : Nat} {i : Nat} (k_fence : ∀ d, pgFence d ≠ q₀) (k_memctl : ∀ d, pgMemctl d ≠ q₀) (k_chuteGlobal : ∀ d, pgChuteGlobal d ≠ q₀) (k_pcie : pgPcie ≠ q₀) (k_chute : ∀ d i, pgChute d i ≠ q₀) (k_guard : ∀ d, pgGuard d ≠ q₀) (hU : Keeps q₀ s₀ s) : Kept q₀ s₀ (execChutePop r d c i s) := by
  unfold execChutePop
  try dsimp only
  repeat' first
    | with_reducible assumption
    | with_reducible exact k_fence _
    | with_reducible exact k_memctl _
    | with_reducible exact k_chuteGlobal _
    | with_reducible exact k_pcie
    | with_reducible exact k_chute _ _
    | with_reducible exact k_guard _
    | intro _
    | with_reducible apply ok_kept
    | with_reducible apply ite_kept
    | with_reducible apply ite_keeps
    | with_reducible exact ok_kept (by assumption)
    | with_reducible apply popRead_keeps
    | split
    | with_reducible apply Keeps.lit

theorem scanFor_keeps {d : Nat} {c : Nat} {k : Nat} (k_chuteGlobal : ∀ d, pgChuteGlobal d ≠ q₀) (k_chute : ∀ d i, pgChute d i ≠ q₀) (hU : Keeps q₀ s₀ s) : Keeps q₀ s₀ (scanFor s d c k) := by
  unfold scanFor
  try dsimp only
  repeat' first
    | with_reducible assumption
    | with_reducible exact k_chuteGlobal _
    | with_reducible exact k_chute _ _
    | intro _
    | with_reducible apply ite_keeps
    | with_reducible apply setChute_keeps
    | with_reducible apply spotGone_keeps
    | with_reducible apply creditBack_keeps
    | split
    | with_reducible apply Keeps.lit

theorem flushEnd_keeps {d : Nat} {c : Nat} (k_chuteGlobal : ∀ d, pgChuteGlobal d ≠ q₀) (k_chute : ∀ d i, pgChute d i ≠ q₀) (hU : Keeps q₀ s₀ s) : Keeps q₀ s₀ (flushEnd s d c) := by
  unfold flushEnd
  try dsimp only
  repeat' first
    | with_reducible assumption
    | with_reducible exact k_chuteGlobal _
    | with_reducible exact k_chute _ _
    | intro _
    | with_reducible apply ite_keeps
    | with_reducible apply each_keeps
    | with_reducible apply scanFor_keeps
    | with_reducible apply raise_keeps
    | with_reducible apply chuteFollow_keeps
    | with_reducible apply setChute_keeps
    | split
    | with_reducible apply Keeps.lit

theorem execChuteFlushScan_kept {d : Nat} {c : Nat} (k_chuteGlobal : ∀ d, pgChuteGlobal d ≠ q₀) (k_chute : ∀ d i, pgChute d i ≠ q₀) (hU : Keeps q₀ s₀ s) : Kept q₀ s₀ (execChuteFlushScan d c s) := by
  unfold execChuteFlushScan
  try dsimp only
  repeat' first
    | with_reducible assumption
    | with_reducible exact k_chuteGlobal _
    | with_reducible exact k_chute _ _
    | intro _
    | with_reducible apply ok_kept
    | with_reducible apply ite_kept
    | with_reducible apply ite_keeps
    | with_reducible exact ok_kept (by assumption)
    | with_reducible apply flushEnd_keeps
    | split
    | with_reducible apply Keeps.lit

theorem chuteFlush_keeps {d : Nat} {c : Nat} {k : Nat} (k_chute : ∀ d i, pgChute d i ≠ q₀) (hU : Keeps q₀ s₀ s) : Keeps q₀ s₀ (chuteFlush s d c k) := by
  unfold chuteFlush
  try dsimp only
  repeat' first
    | with_reducible assumption
    | with_reducible exact k_chute _ _
    | intro _
    | with_reducible apply ite_keeps
    | with_reducible apply setChute_keeps
    | with_reducible apply raise_keeps
    | split
    | with_reducible apply Keeps.lit

theorem execBlockAccept_kept {d : Nat} {c : Nat} (k_fence : ∀ d, pgFence d ≠ q₀) (k_memctl : ∀ d, pgMemctl d ≠ q₀) (k_chuteGlobal : ∀ d, pgChuteGlobal d ≠ q₀) (k_seam : ∀ d, pgSeam d ≠ q₀) (k_echo : ∀ d, pgEcho d ≠ q₀) (k_ctx : ∀ d, pgCtx d ≠ q₀) (k_chute : ∀ d i, pgChute d i ≠ q₀) (hU : Keeps q₀ s₀ s) : Kept q₀ s₀ (execBlockAccept d c s) := by
  unfold execBlockAccept
  try dsimp only
  repeat' first
    | with_reducible assumption
    | with_reducible exact k_fence _
    | with_reducible exact k_memctl _
    | with_reducible exact k_chuteGlobal _
    | with_reducible exact k_seam _
    | with_reducible exact k_echo _
    | with_reducible exact k_ctx _
    | with_reducible exact k_chute _ _
    | intro _
    | with_reducible apply ok_kept
    | with_reducible apply ite_kept
    | with_reducible apply ite_keeps
    | with_reducible exact ok_kept (by assumption)
    | with_reducible apply blockAccept_keeps
    | split
    | with_reducible apply Keeps.lit

end Sys2Proof.Laws
end

