-- ==== Sys2Proof/Laws/SubstReg.lean ====
section
/-!
SUPPORT. The register pages that each operation of `Machine/Subst.lean` may write: every other page reads as before.
-/

set_option Elab.async false
set_option linter.unusedTactic false
set_option linter.unreachableTactic false
namespace Sys2Proof.Laws

open Sys2Proof.Machine

variable {q₀ : Pg} {s₀ s : State}

theorem nozRecord_keeps {d : Nat} {k : Nat} {type : Nat} {cause : Nat} {idx : Nat} {w2 : Word} {f : Nat} (k_chuteGlobal : ∀ d, pgChuteGlobal d ≠ q₀) (k_chute : ∀ d i, pgChute d i ≠ q₀) (hU : Keeps q₀ s₀ s) : Keeps q₀ s₀ (nozRecord s d k type cause idx w2 f) := by
  unfold nozRecord
  try dsimp only
  repeat' first
    | with_reducible assumption
    | with_reducible exact k_chuteGlobal _
    | with_reducible exact k_chute _ _
    | intro _
    | with_reducible apply ite_keeps
    | with_reducible apply setDie_keeps
    | with_reducible apply chuteRecord_keeps
    | split
    | with_reducible apply Keeps.lit

theorem limitCheck_keeps {d : Nat} {k : Nat} (k_chuteGlobal : ∀ d, pgChuteGlobal d ≠ q₀) (k_echo : ∀ d, pgEcho d ≠ q₀) (k_chute : ∀ d i, pgChute d i ≠ q₀) (hU : Keeps q₀ s₀ s) : Keeps q₀ s₀ (limitCheck s d k) := by
  unfold limitCheck
  try dsimp only
  repeat' first
    | with_reducible assumption
    | with_reducible exact k_chuteGlobal _
    | with_reducible exact k_echo _
    | with_reducible exact k_chute _ _
    | intro _
    | with_reducible apply ite_keeps
    | with_reducible apply setCtx_keeps
    | with_reducible apply raise_keeps
    | with_reducible apply nozRecord_keeps
    | split
    | with_reducible apply Keeps.lit

theorem dropLost_keeps {d : Nat} (k_echo : ∀ d, pgEcho d ≠ q₀) (hU : Keeps q₀ s₀ s) : Keeps q₀ s₀ (dropLost s d) := by
  unfold dropLost
  try dsimp only
  repeat' first
    | with_reducible assumption
    | with_reducible exact k_echo _
    | intro _
    | with_reducible apply ite_keeps
    | with_reducible apply raise_keeps
    | with_reducible apply count_keeps
    | split
    | with_reducible apply Keeps.lit

theorem dropMoved1_keeps {d : Nat} (k_echo : ∀ d, pgEcho d ≠ q₀) (hU : Keeps q₀ s₀ s) : Keeps q₀ s₀ (dropMoved1 s d) := by
  unfold dropMoved1
  try dsimp only
  repeat' first
    | with_reducible assumption
    | with_reducible exact k_echo _
    | intro _
    | with_reducible apply ite_keeps
    | with_reducible apply count_keeps
    | split
    | with_reducible apply Keeps.lit

theorem formOpSet_keeps {d : Nat} {k : Nat} (hU : Keeps q₀ s₀ s) : Keeps q₀ s₀ (formOpSet s d k) := by
  unfold formOpSet
  try dsimp only
  repeat' first
    | with_reducible assumption
    | intro _
    | with_reducible apply ite_keeps
    | with_reducible apply setCtx_keeps
    | split
    | with_reducible apply Keeps.lit

theorem opTurn_keeps {d : Nat} {k : Nat} (k_echo : ∀ d, pgEcho d ≠ q₀) (hU : Keeps q₀ s₀ s) : Keeps q₀ s₀ (opTurn s d k) := by
  unfold opTurn
  try dsimp only
  repeat' first
    | with_reducible assumption
    | with_reducible exact k_echo _
    | intro _
    | with_reducible apply ite_keeps
    | with_reducible apply setCtx_keeps
    | with_reducible apply raise_keeps
    | with_reducible apply countBy_keeps
    | with_reducible apply formOpSet_keeps
    | split
    | with_reducible apply Keeps.lit

theorem subLost_keeps {d : Nat} {x : SubSt} {n : Noz} (k_chuteGlobal : ∀ d, pgChuteGlobal d ≠ q₀) (k_echo : ∀ d, pgEcho d ≠ q₀) (k_chute : ∀ d i, pgChute d i ≠ q₀) (hU : Keeps q₀ s₀ x.s) : Keeps q₀ s₀ (subLost d x n).s := by
  show Keeps q₀ s₀ (dropLost x.s d)
  apply dropLost_keeps <;> assumption

theorem subFailed_keeps {d k : Nat} {x : SubSt} {n : Noz} (k_chuteGlobal : ∀ d, pgChuteGlobal d ≠ q₀) (k_echo : ∀ d, pgEcho d ≠ q₀) (k_chute : ∀ d i, pgChute d i ≠ q₀) (hU : Keeps q₀ s₀ x.s) : Keeps q₀ s₀ (subFailed d k x n).s := by
  unfold subFailed
  dsimp only
  split
  · apply dropMoved1_keeps <;> first | assumption | (apply setEcho_keeps <;> assumption)
  · split
    · apply dropMoved1_keeps <;> assumption
    · apply subLost_keeps <;> assumption

theorem subNoz_keeps {d k : Nat} {l : List Nat} {x : SubSt} {n : Noz} (k_chuteGlobal : ∀ d, pgChuteGlobal d ≠ q₀) (k_echo : ∀ d, pgEcho d ≠ q₀) (k_chute : ∀ d i, pgChute d i ≠ q₀) (hU : Keeps q₀ s₀ x.s) :
    Keeps q₀ s₀ (subNoz d k l x n).s := by
  unfold subNoz
  extract_lets mb
  clear_value mb
  split
  · exact hU
  · split
    · apply dropMoved1_keeps <;> assumption
    · split
      · exact hU
      · split
        · apply subFailed_keeps <;> assumption
        · apply subLost_keeps <;> assumption

theorem redNoz_keeps {d k : Nat} {x : SubSt} {n : Noz} (k_chuteGlobal : ∀ d, pgChuteGlobal d ≠ q₀) (k_echo : ∀ d, pgEcho d ≠ q₀) (k_chute : ∀ d i, pgChute d i ≠ q₀) (hU : Keeps q₀ s₀ x.s) : Keeps q₀ s₀ (redNoz d k x n).s := by
  unfold redNoz
  dsimp only
  split
  · split
    · apply subLost_keeps <;> first | assumption | (apply setEcho_keeps <;> assumption)
    · apply setEcho_keeps <;> assumption
  · exact hU

theorem offNoz_keeps {d k : Nat} {x : SubSt} {n : Noz} (k_chuteGlobal : ∀ d, pgChuteGlobal d ≠ q₀) (k_echo : ∀ d, pgEcho d ≠ q₀) (k_chute : ∀ d i, pgChute d i ≠ q₀) (hU : Keeps q₀ s₀ x.s) : Keeps q₀ s₀ (offNoz d k x n).s := by
  unfold offNoz
  split
  · apply subLost_keeps <;> assumption
  · exact hU

theorem subFold_keeps {f : SubSt → Noz → SubSt} (hf : ∀ x n, Keeps q₀ s₀ x.s → Keeps q₀ s₀ (f x n).s) {l : List Noz} {x : SubSt}
    (hU : Keeps q₀ s₀ x.s) : Keeps q₀ s₀ (l.foldl f x).s := by
  induction l generalizing x with
  | nil => exact hU
  | cons e r ih => exact ih (hf _ _ hU)

theorem substitute_keeps {d k : Nat} {l : List Noz} (k_chuteGlobal : ∀ d, pgChuteGlobal d ≠ q₀) (k_echo : ∀ d, pgEcho d ≠ q₀) (k_chute : ∀ d i, pgChute d i ≠ q₀) (hU : Keeps q₀ s₀ s) : Keeps q₀ s₀ (substitute s d k l).2 := by
  unfold substitute
  dsimp only
  split
  · exact hU
  · dsimp only
    have h0 : Keeps q₀ s₀ (limitCheck s d k) := by apply limitCheck_keeps <;> assumption
    split
    · exact subFold_keeps (fun _ _ h => by apply redNoz_keeps <;> assumption) h0
    · split
      · exact subFold_keeps (fun _ _ h => by apply subNoz_keeps <;> assumption) h0
      · exact subFold_keeps (fun _ _ h => by apply offNoz_keeps <;> assumption) h0

theorem lineBuild_keeps {d : Nat} {k : Nat} (k_fence : ∀ d, pgFence d ≠ q₀) (k_memctl : ∀ d, pgMemctl d ≠ q₀) (k_chuteGlobal : ∀ d, pgChuteGlobal d ≠ q₀) (k_seam : ∀ d, pgSeam d ≠ q₀) (k_echo : ∀ d, pgEcho d ≠ q₀) (k_ctx : ∀ d, pgCtx d ≠ q₀) (k_chute : ∀ d i, pgChute d i ≠ q₀) (hU : Keeps q₀ s₀ s) : Keeps q₀ s₀ (lineBuild s d k) := by
  unfold lineBuild
  try dsimp only
  repeat' first
    | with_reducible assumption
    | with_reducible exact k_fence _
    | with_reducible exact k_memctl _
    | with_reducible exact k_chuteGlobal _
    | with_reducible exact k_seam _
    | with_reducible exact k_echo _
    | with_reducible exact k_ctx _
    | with_reducible exact k_chute _ _
    | intro _
    | with_reducible apply ite_keeps
    | with_reducible apply readSlots_keeps
    | with_reducible apply opTurn_keeps
    | with_reducible apply nozPixels_keeps
    | with_reducible apply substitute_keeps
    | with_reducible apply setCtx_keeps
    | with_reducible apply expandAll_keeps
    | with_reducible apply freeLines_keeps
    | (with_reducible refine pair_keeps (by assumption) ?_)
    | (with_reducible refine trip_keeps (by assumption) ?_)
    | split
    | with_reducible apply Keeps.lit

theorem execLineBuild_kept {d : Nat} {k : Nat} (k_fence : ∀ d, pgFence d ≠ q₀) (k_memctl : ∀ d, pgMemctl d ≠ q₀) (k_chuteGlobal : ∀ d, pgChuteGlobal d ≠ q₀) (k_seam : ∀ d, pgSeam d ≠ q₀) (k_echo : ∀ d, pgEcho d ≠ q₀) (k_ctx : ∀ d, pgCtx d ≠ q₀) (k_chute : ∀ d i, pgChute d i ≠ q₀) (hU : Keeps q₀ s₀ s) : Kept q₀ s₀ (execLineBuild d k s) := by
  unfold execLineBuild
  try dsimp only
  repeat' first
    | with_reducible assumption
    | with_reducible exact k_fence _
    | with_reducible exact k_memctl _
    | with_reducible exact k_chuteGlobal _
    | with_reducible exact k_seam _
    | with_reducible exact k_echo _
    | with_reducible exact k_ctx _
    | with_reducible exact k_chute _ _
    | intro _
    | with_reducible apply ok_kept
    | with_reducible apply ite_kept
    | with_reducible apply ite_keeps
    | with_reducible exact ok_kept (by assumption)
    | with_reducible apply lineBuild_keeps
    | split
    | with_reducible apply Keeps.lit

theorem shareDrop_keeps {d : Nat} (k_seam : ∀ d, pgSeam d ≠ q₀) (hU : Keeps q₀ s₀ s) : Keeps q₀ s₀ (shareDrop s d) := by
  unfold shareDrop
  try dsimp only
  repeat' first
    | with_reducible assumption
    | with_reducible exact k_seam _
    | intro _
    | with_reducible apply ite_keeps
    | with_reducible apply raise_keeps
    | with_reducible apply count_keeps
    | split
    | with_reducible apply Keeps.lit

theorem shareArrive_keeps {q : SeamMsg} {vals : List Nat} (k_seam : ∀ d, pgSeam d ≠ q₀) (hU : Keeps q₀ s₀ s) : Keeps q₀ s₀ (shareArrive s q vals) := by
  unfold shareArrive
  try dsimp only
  repeat' first
    | with_reducible assumption
    | with_reducible exact k_seam _
    | intro _
    | with_reducible apply ite_keeps
    | with_reducible apply shareDrop_keeps
    | with_reducible apply count_keeps
    | with_reducible apply storeShare_keeps
    | with_reducible apply setCtx_keeps
    | split
    | with_reducible apply Keeps.lit

theorem execSeamShareReceive_kept {d : Nat} (k_seam : ∀ d, pgSeam d ≠ q₀) (hU : Keeps q₀ s₀ s) : Kept q₀ s₀ (execSeamShareReceive d s) := by
  unfold execSeamShareReceive
  try dsimp only
  repeat' first
    | with_reducible assumption
    | with_reducible exact k_seam _
    | intro _
    | with_reducible apply ok_kept
    | with_reducible apply ite_kept
    | with_reducible apply ite_keeps
    | with_reducible exact ok_kept (by assumption)
    | with_reducible apply shareArrive_keeps
    | split
    | with_reducible apply Keeps.lit

theorem execSeamCreditReturn_kept {d : Nat} (k_fence : ∀ d, pgFence d ≠ q₀) (k_memctl : ∀ d, pgMemctl d ≠ q₀) (k_chuteGlobal : ∀ d, pgChuteGlobal d ≠ q₀) (k_seam : ∀ d, pgSeam d ≠ q₀) (k_echo : ∀ d, pgEcho d ≠ q₀) (k_ctx : ∀ d, pgCtx d ≠ q₀) (k_chute : ∀ d i, pgChute d i ≠ q₀) (hU : Keeps q₀ s₀ s) : Kept q₀ s₀ (execSeamCreditReturn d s) := by
  unfold execSeamCreditReturn
  try dsimp only
  repeat' first
    | with_reducible assumption
    | with_reducible exact k_fence _
    | with_reducible exact k_memctl _
    | with_reducible exact k_chuteGlobal _
    | with_reducible exact k_seam _
    | with_reducible exact k_echo _
    | with_reducible exact k_ctx _
    | with_reducible exact k_chute _ _
    | intro _
    | with_reducible apply ok_kept
    | with_reducible apply ite_kept
    | with_reducible apply ite_keeps
    | with_reducible exact ok_kept (by assumption)
    | with_reducible apply expandAll_keeps
    | with_reducible apply setCtx_keeps
    | split
    | with_reducible apply Keeps.lit

end Sys2Proof.Laws
end

