-- ==== Sys2Proof/Laws/BindReg.lean ====
section
/-!
SUPPORT. The register pages that each operation of `Machine/Bind.lean` may write: every other page reads as before.
-/

set_option Elab.async false
set_option linter.unusedTactic false
set_option linter.unreachableTactic false
namespace Sys2Proof.Laws

open Sys2Proof.Machine

variable {q₀ : Pg} {s₀ s : State}

theorem rePredict_keeps {d : Nat} {k : Nat} (hU : Keeps q₀ s₀ s) : Keeps q₀ s₀ (rePredict s d k) := by
  unfold rePredict
  try dsimp only
  repeat' first
    | with_reducible assumption
    | intro _
    | with_reducible apply ite_keeps
    | with_reducible apply setCtx_keeps
    | split
    | with_reducible apply Keeps.lit

theorem recompute_keeps {d : Nat} {k : Nat} (hU : Keeps q₀ s₀ s) : Keeps q₀ s₀ (recompute s d k) := by
  unfold recompute
  try dsimp only
  repeat' first
    | with_reducible assumption
    | intro _
    | with_reducible apply ite_keeps
    | with_reducible apply setPort_keeps
    | with_reducible apply setCtx_keeps
    | with_reducible apply rePredict_keeps
    | split
    | with_reducible apply Keeps.lit

theorem estimateArrives_keeps {d : Nat} {c : Nat} {e : Est} (hU : Keeps q₀ s₀ s) : Keeps q₀ s₀ (estimateArrives s d c e) := by
  unfold estimateArrives
  try dsimp only
  repeat' first
    | with_reducible assumption
    | intro _
    | with_reducible apply ite_keeps
    | with_reducible apply setEnc_keeps
    | with_reducible apply each_keeps
    | with_reducible apply setCtx_keeps
    | with_reducible apply recompute_keeps
    | split
    | with_reducible apply Keeps.lit

theorem execEstimateArrival_kept {d : Nat} {c : Nat} (k_tb : ∀ d, pgTb d ≠ q₀) (hU : Keeps q₀ s₀ s) : Kept q₀ s₀ (execEstimateArrival d c s) := by
  unfold execEstimateArrival
  try dsimp only
  repeat' first
    | with_reducible assumption
    | with_reducible exact k_tb _
    | intro _
    | with_reducible apply ok_kept
    | with_reducible apply ite_kept
    | with_reducible apply ite_keeps
    | (with_reducible refine takeMsg_k ?_ ?_ (by assumption))
    | with_reducible exact ok_kept (by assumption)
    | with_reducible apply estimateArrives_keeps
    | split
    | with_reducible apply Keeps.lit

theorem shiftOrigin_keeps {d : Nat} {k : Nat} {delta : Int} (hU : Keeps q₀ s₀ s) : Keeps q₀ s₀ (shiftOrigin s d k delta) := by
  unfold shiftOrigin
  try dsimp only
  repeat' first
    | with_reducible assumption
    | intro _
    | with_reducible apply ite_keeps
    | with_reducible apply setCtx_keeps
    | with_reducible apply setPort_keeps
    | split
    | with_reducible apply Keeps.lit

theorem policyPause_keeps {d : Nat} {k : Nat} {cause : Nat} {record : Bool} (k_fence : ∀ d, pgFence d ≠ q₀) (k_memctl : ∀ d, pgMemctl d ≠ q₀) (k_chuteGlobal : ∀ d, pgChuteGlobal d ≠ q₀) (k_hp : ∀ d i, pgHp d i ≠ q₀) (k_seam : ∀ d, pgSeam d ≠ q₀) (k_echo : ∀ d, pgEcho d ≠ q₀) (k_ctx : ∀ d, pgCtx d ≠ q₀) (k_chute : ∀ d i, pgChute d i ≠ q₀) (hU : Keeps q₀ s₀ s) : Keeps q₀ s₀ (policyPause s d k cause record) := by
  unfold policyPause
  try dsimp only
  repeat' first
    | with_reducible assumption
    | with_reducible exact k_fence _
    | with_reducible exact k_memctl _
    | with_reducible exact k_chuteGlobal _
    | with_reducible exact k_hp _ _
    | with_reducible exact k_seam _
    | with_reducible exact k_echo _
    | with_reducible exact k_ctx _
    | with_reducible exact k_chute _ _
    | intro _
    | with_reducible apply ite_keeps
    | with_reducible apply ctxPolicyPause_keeps
    | with_reducible apply ctxRecord_keeps
    | split
    | with_reducible apply Keeps.lit

theorem stepAt_keeps {d : Nat} {k : Nat} {delta : Int} (k_fence : ∀ d, pgFence d ≠ q₀) (k_memctl : ∀ d, pgMemctl d ≠ q₀) (k_chuteGlobal : ∀ d, pgChuteGlobal d ≠ q₀) (k_hp : ∀ d i, pgHp d i ≠ q₀) (k_seam : ∀ d, pgSeam d ≠ q₀) (k_echo : ∀ d, pgEcho d ≠ q₀) (k_ctx : ∀ d, pgCtx d ≠ q₀) (k_chute : ∀ d i, pgChute d i ≠ q₀) (hU : Keeps q₀ s₀ s) : Keeps q₀ s₀ (stepAt s d k delta) := by
  unfold stepAt
  try dsimp only
  repeat' first
    | with_reducible assumption
    | with_reducible exact k_fence _
    | with_reducible exact k_memctl _
    | with_reducible exact k_chuteGlobal _
    | with_reducible exact k_hp _ _
    | with_reducible exact k_seam _
    | with_reducible exact k_echo _
    | with_reducible exact k_ctx _
    | with_reducible exact k_chute _ _
    | intro _
    | with_reducible apply ite_keeps
    | with_reducible apply ctxEvt_keeps
    | with_reducible apply setCtx_keeps
    | with_reducible apply shiftOrigin_keeps
    | with_reducible apply policyPause_keeps
    | split
    | with_reducible apply Keeps.lit

theorem stepArrives_keeps {d : Nat} {c : Nat} {delta : Int} (k_fence : ∀ d, pgFence d ≠ q₀) (k_memctl : ∀ d, pgMemctl d ≠ q₀) (k_chuteGlobal : ∀ d, pgChuteGlobal d ≠ q₀) (k_hp : ∀ d i, pgHp d i ≠ q₀) (k_seam : ∀ d, pgSeam d ≠ q₀) (k_echo : ∀ d, pgEcho d ≠ q₀) (k_ctx : ∀ d, pgCtx d ≠ q₀) (k_chute : ∀ d i, pgChute d i ≠ q₀) (hU : Keeps q₀ s₀ s) : Keeps q₀ s₀ (stepArrives s d c delta) := by
  unfold stepArrives
  try dsimp only
  repeat' first
    | with_reducible assumption
    | with_reducible exact k_fence _
    | with_reducible exact k_memctl _
    | with_reducible exact k_chuteGlobal _
    | with_reducible exact k_hp _ _
    | with_reducible exact k_seam _
    | with_reducible exact k_echo _
    | with_reducible exact k_ctx _
    | with_reducible exact k_chute _ _
    | intro _
    | with_reducible apply ite_keeps
    | with_reducible apply setEnc_keeps
    | with_reducible apply each_keeps
    | with_reducible apply stepAt_keeps
    | split
    | with_reducible apply Keeps.lit

theorem execPositionStep_kept {d : Nat} {c : Nat} (k_tb : ∀ d, pgTb d ≠ q₀) (k_fence : ∀ d, pgFence d ≠ q₀) (k_memctl : ∀ d, pgMemctl d ≠ q₀) (k_chuteGlobal : ∀ d, pgChuteGlobal d ≠ q₀) (k_hp : ∀ d i, pgHp d i ≠ q₀) (k_seam : ∀ d, pgSeam d ≠ q₀) (k_echo : ∀ d, pgEcho d ≠ q₀) (k_ctx : ∀ d, pgCtx d ≠ q₀) (k_chute : ∀ d i, pgChute d i ≠ q₀) (hU : Keeps q₀ s₀ s) : Kept q₀ s₀ (execPositionStep d c s) := by
  unfold execPositionStep
  try dsimp only
  repeat' first
    | with_reducible assumption
    | with_reducible exact k_tb _
    | with_reducible exact k_fence _
    | with_reducible exact k_memctl _
    | with_reducible exact k_chuteGlobal _
    | with_reducible exact k_hp _ _
    | with_reducible exact k_seam _
    | with_reducible exact k_echo _
    | with_reducible exact k_ctx _
    | with_reducible exact k_chute _ _
    | intro _
    | with_reducible apply ok_kept
    | with_reducible apply ite_kept
    | with_reducible apply ite_keeps
    | (with_reducible refine takeMsg_k ?_ ?_ (by assumption))
    | with_reducible exact ok_kept (by assumption)
    | with_reducible apply stepArrives_keeps
    | split
    | with_reducible apply Keeps.lit

theorem lostPolicy_keeps {d : Nat} {c : Nat} {k : Nat} (k_fence : ∀ d, pgFence d ≠ q₀) (k_memctl : ∀ d, pgMemctl d ≠ q₀) (k_chuteGlobal : ∀ d, pgChuteGlobal d ≠ q₀) (k_hp : ∀ d i, pgHp d i ≠ q₀) (k_seam : ∀ d, pgSeam d ≠ q₀) (k_echo : ∀ d, pgEcho d ≠ q₀) (k_ctx : ∀ d, pgCtx d ≠ q₀) (k_chute : ∀ d i, pgChute d i ≠ q₀) (hU : Keeps q₀ s₀ s) : Keeps q₀ s₀ (lostPolicy s d c k) := by
  unfold lostPolicy
  try dsimp only
  repeat' first
    | with_reducible assumption
    | with_reducible exact k_fence _
    | with_reducible exact k_memctl _
    | with_reducible exact k_chuteGlobal _
    | with_reducible exact k_hp _ _
    | with_reducible exact k_seam _
    | with_reducible exact k_echo _
    | with_reducible exact k_ctx _
    | with_reducible exact k_chute _ _
    | intro _
    | with_reducible apply ite_keeps
    | with_reducible apply ctxFence_keeps
    | with_reducible apply ctxRecord_keeps
    | with_reducible apply policyPause_keeps
    | split
    | with_reducible apply Keeps.lit

theorem lostArrives_keeps {d : Nat} {c : Nat} (k_fence : ∀ d, pgFence d ≠ q₀) (k_memctl : ∀ d, pgMemctl d ≠ q₀) (k_chuteGlobal : ∀ d, pgChuteGlobal d ≠ q₀) (k_hp : ∀ d i, pgHp d i ≠ q₀) (k_seam : ∀ d, pgSeam d ≠ q₀) (k_echo : ∀ d, pgEcho d ≠ q₀) (k_ctx : ∀ d, pgCtx d ≠ q₀) (k_chute : ∀ d i, pgChute d i ≠ q₀) (hU : Keeps q₀ s₀ s) : Keeps q₀ s₀ (lostArrives s d c) := by
  unfold lostArrives
  try dsimp only
  repeat' first
    | with_reducible assumption
    | with_reducible exact k_fence _
    | with_reducible exact k_memctl _
    | with_reducible exact k_chuteGlobal _
    | with_reducible exact k_hp _ _
    | with_reducible exact k_seam _
    | with_reducible exact k_echo _
    | with_reducible exact k_ctx _
    | with_reducible exact k_chute _ _
    | intro _
    | with_reducible apply ite_keeps
    | with_reducible apply setEnc_keeps
    | with_reducible apply each_keeps
    | with_reducible apply ctxEvt_keeps
    | with_reducible apply setCtx_keeps
    | with_reducible apply withdrawAll_keeps
    | with_reducible apply lostPolicy_keeps
    | split
    | with_reducible apply Keeps.lit

theorem execSourceLost_kept {d : Nat} {c : Nat} (k_tb : ∀ d, pgTb d ≠ q₀) (k_fence : ∀ d, pgFence d ≠ q₀) (k_memctl : ∀ d, pgMemctl d ≠ q₀) (k_chuteGlobal : ∀ d, pgChuteGlobal d ≠ q₀) (k_hp : ∀ d i, pgHp d i ≠ q₀) (k_seam : ∀ d, pgSeam d ≠ q₀) (k_echo : ∀ d, pgEcho d ≠ q₀) (k_ctx : ∀ d, pgCtx d ≠ q₀) (k_chute : ∀ d i, pgChute d i ≠ q₀) (hU : Keeps q₀ s₀ s) : Kept q₀ s₀ (execSourceLost d c s) := by
  unfold execSourceLost
  try dsimp only
  repeat' first
    | with_reducible assumption
    | with_reducible exact k_tb _
    | with_reducible exact k_fence _
    | with_reducible exact k_memctl _
    | with_reducible exact k_chuteGlobal _
    | with_reducible exact k_hp _ _
    | with_reducible exact k_seam _
    | with_reducible exact k_echo _
    | with_reducible exact k_ctx _
    | with_reducible exact k_chute _ _
    | intro _
    | with_reducible apply ok_kept
    | with_reducible apply ite_kept
    | with_reducible apply ite_keeps
    | (with_reducible refine takeMsg_k ?_ ?_ (by assumption))
    | with_reducible exact ok_kept (by assumption)
    | with_reducible apply lostArrives_keeps
    | split
    | with_reducible apply Keeps.lit

theorem startGroup_keeps {d : Nat} {k : Nat} {ref : Int} (k_fence : ∀ d, pgFence d ≠ q₀) (k_memctl : ∀ d, pgMemctl d ≠ q₀) (k_chuteGlobal : ∀ d, pgChuteGlobal d ≠ q₀) (k_hp : ∀ d i, pgHp d i ≠ q₀) (k_seam : ∀ d, pgSeam d ≠ q₀) (k_echo : ∀ d, pgEcho d ≠ q₀) (k_ctx : ∀ d, pgCtx d ≠ q₀) (k_chute : ∀ d i, pgChute d i ≠ q₀) (hU : Keeps q₀ s₀ s) : Keeps q₀ s₀ (startGroup s d k ref) := by
  unfold startGroup
  try dsimp only
  repeat' first
    | with_reducible assumption
    | with_reducible exact k_fence _
    | with_reducible exact k_memctl _
    | with_reducible exact k_chuteGlobal _
    | with_reducible exact k_hp _ _
    | with_reducible exact k_seam _
    | with_reducible exact k_echo _
    | with_reducible exact k_ctx _
    | with_reducible exact k_chute _ _
    | intro _
    | with_reducible apply ite_keeps
    | with_reducible apply ctxMove_keeps
    | with_reducible apply rePredict_keeps
    | with_reducible apply setCtx_keeps
    | split
    | with_reducible apply Keeps.lit

theorem pdAt_keeps {d : Nat} {n : Nat} {stamp : Nat} {accepted : Nat} {k : Nat} (k_fence : ∀ d, pgFence d ≠ q₀) (k_memctl : ∀ d, pgMemctl d ≠ q₀) (k_chuteGlobal : ∀ d, pgChuteGlobal d ≠ q₀) (k_hp : ∀ d i, pgHp d i ≠ q₀) (k_seam : ∀ d, pgSeam d ≠ q₀) (k_echo : ∀ d, pgEcho d ≠ q₀) (k_ctx : ∀ d, pgCtx d ≠ q₀) (k_chute : ∀ d i, pgChute d i ≠ q₀) (hU : Keeps q₀ s₀ s) : Keeps q₀ s₀ (pdAt s d n stamp accepted k) := by
  unfold pdAt
  try dsimp only
  repeat' first
    | with_reducible assumption
    | with_reducible exact k_fence _
    | with_reducible exact k_memctl _
    | with_reducible exact k_chuteGlobal _
    | with_reducible exact k_hp _ _
    | with_reducible exact k_seam _
    | with_reducible exact k_echo _
    | with_reducible exact k_ctx _
    | with_reducible exact k_chute _ _
    | intro _
    | with_reducible apply ite_keeps
    | with_reducible apply startGroup_keeps
    | with_reducible apply ctxEvt_keeps
    | split
    | with_reducible apply Keeps.lit

theorem execPdEdgeArrival_kept {d : Nat} {n : Nat} (k_tb : ∀ d, pgTb d ≠ q₀) (k_fence : ∀ d, pgFence d ≠ q₀) (k_memctl : ∀ d, pgMemctl d ≠ q₀) (k_chuteGlobal : ∀ d, pgChuteGlobal d ≠ q₀) (k_hp : ∀ d i, pgHp d i ≠ q₀) (k_seam : ∀ d, pgSeam d ≠ q₀) (k_echo : ∀ d, pgEcho d ≠ q₀) (k_ctx : ∀ d, pgCtx d ≠ q₀) (k_chute : ∀ d i, pgChute d i ≠ q₀) (hU : Keeps q₀ s₀ s) : Kept q₀ s₀ (execPdEdgeArrival d n s) := by
  unfold execPdEdgeArrival
  try dsimp only
  repeat' first
    | with_reducible assumption
    | with_reducible exact k_tb _
    | with_reducible exact k_fence _
    | with_reducible exact k_memctl _
    | with_reducible exact k_chuteGlobal _
    | with_reducible exact k_hp _ _
    | with_reducible exact k_seam _
    | with_reducible exact k_echo _
    | with_reducible exact k_ctx _
    | with_reducible exact k_chute _ _
    | intro _
    | with_reducible apply ok_kept
    | with_reducible apply ite_kept
    | with_reducible apply ite_keeps
    | (with_reducible refine takeMsg_k ?_ ?_ (by assumption))
    | with_reducible exact ok_kept (by assumption)
    | with_reducible apply each_keeps
    | with_reducible apply pdAt_keeps
    | split
    | with_reducible apply Keeps.lit

theorem turnEnd_keeps {d : Nat} {k : Nat} (k_fence : ∀ d, pgFence d ≠ q₀) (k_memctl : ∀ d, pgMemctl d ≠ q₀) (k_chuteGlobal : ∀ d, pgChuteGlobal d ≠ q₀) (k_hp : ∀ d i, pgHp d i ≠ q₀) (k_seam : ∀ d, pgSeam d ≠ q₀) (k_echo : ∀ d, pgEcho d ≠ q₀) (k_ctx : ∀ d, pgCtx d ≠ q₀) (k_chute : ∀ d i, pgChute d i ≠ q₀) (hU : Keeps q₀ s₀ s) : Keeps q₀ s₀ (turnEnd s d k) := by
  unfold turnEnd
  try dsimp only
  repeat' first
    | with_reducible assumption
    | with_reducible exact k_fence _
    | with_reducible exact k_memctl _
    | with_reducible exact k_chuteGlobal _
    | with_reducible exact k_hp _ _
    | with_reducible exact k_seam _
    | with_reducible exact k_echo _
    | with_reducible exact k_ctx _
    | with_reducible exact k_chute _ _
    | intro _
    | with_reducible apply ite_keeps
    | with_reducible apply each_keeps
    | with_reducible apply setCtx_keeps
    | with_reducible apply ctxMove_keeps
    | with_reducible apply rePredict_keeps
    | split
    | with_reducible apply Keeps.lit

theorem memberDone_keeps {d : Nat} {p : Nat} {c : Cycle} {k : Nat} {blank : Bool} (hU : Keeps q₀ s₀ s) : Keeps q₀ s₀ (memberDone s d p c k blank) := by
  unfold memberDone
  try dsimp only
  repeat' first
    | with_reducible assumption
    | intro _
    | with_reducible apply ite_keeps
    | with_reducible apply lineDone_keeps
    | with_reducible apply setCycle_keeps
    | split
    | with_reducible apply Keeps.lit

theorem retire_keeps {d : Nat} {p : Nat} {c : Cycle} (k_fence : ∀ d, pgFence d ≠ q₀) (k_memctl : ∀ d, pgMemctl d ≠ q₀) (k_chuteGlobal : ∀ d, pgChuteGlobal d ≠ q₀) (k_hp : ∀ d i, pgHp d i ≠ q₀) (k_seam : ∀ d, pgSeam d ≠ q₀) (k_echo : ∀ d, pgEcho d ≠ q₀) (k_ctx : ∀ d, pgCtx d ≠ q₀) (k_chute : ∀ d i, pgChute d i ≠ q₀) (hU : Keeps q₀ s₀ s) : Keeps q₀ s₀ (retire s d p c) := by
  unfold retire
  try dsimp only
  repeat' first
    | with_reducible assumption
    | with_reducible exact k_fence _
    | with_reducible exact k_memctl _
    | with_reducible exact k_chuteGlobal _
    | with_reducible exact k_hp _ _
    | with_reducible exact k_seam _
    | with_reducible exact k_echo _
    | with_reducible exact k_ctx _
    | with_reducible exact k_chute _ _
    | intro _
    | with_reducible apply ite_keeps
    | with_reducible apply setPort_keeps
    | with_reducible apply turnEnd_keeps
    | split
    | with_reducible apply Keeps.lit

theorem cycleOutcome_keeps {d : Nat} {p : Nat} {c : Cycle} {delivered : Bool} (k_fence : ∀ d, pgFence d ≠ q₀) (k_memctl : ∀ d, pgMemctl d ≠ q₀) (k_chuteGlobal : ∀ d, pgChuteGlobal d ≠ q₀) (k_hp : ∀ d i, pgHp d i ≠ q₀) (k_seam : ∀ d, pgSeam d ≠ q₀) (k_echo : ∀ d, pgEcho d ≠ q₀) (k_ctx : ∀ d, pgCtx d ≠ q₀) (k_chute : ∀ d i, pgChute d i ≠ q₀) (hU : Keeps q₀ s₀ s) : Keeps q₀ s₀ (cycleOutcome s d p c delivered) := by
  unfold cycleOutcome
  try dsimp only
  repeat' first
    | with_reducible assumption
    | with_reducible exact k_fence _
    | with_reducible exact k_memctl _
    | with_reducible exact k_chuteGlobal _
    | with_reducible exact k_hp _ _
    | with_reducible exact k_seam _
    | with_reducible exact k_echo _
    | with_reducible exact k_ctx _
    | with_reducible exact k_chute _ _
    | intro _
    | with_reducible apply ite_keeps
    | with_reducible apply setCycle_keeps
    | with_reducible apply each_keeps
    | with_reducible apply setCtx_keeps
    | with_reducible apply stallReset_keeps
    | with_reducible apply stallMark_keeps
    | with_reducible apply memberDone_keeps
    | with_reducible apply retire_keeps
    | split
    | with_reducible apply Keeps.lit

theorem asmTurn_keeps {d : Nat} {k : Nat} (k_fence : ∀ d, pgFence d ≠ q₀) (k_memctl : ∀ d, pgMemctl d ≠ q₀) (k_chuteGlobal : ∀ d, pgChuteGlobal d ≠ q₀) (k_seam : ∀ d, pgSeam d ≠ q₀) (k_echo : ∀ d, pgEcho d ≠ q₀) (k_ctx : ∀ d, pgCtx d ≠ q₀) (k_chute : ∀ d i, pgChute d i ≠ q₀) (hU : Keeps q₀ s₀ s) : Keeps q₀ s₀ (asmTurn s d k) := by
  unfold asmTurn
  try dsimp only
  repeat' first
    | with_reducible assumption
    | with_reducible exact k_fence _
    | with_reducible exact k_memctl _
    | with_reducible exact k_chuteGlobal _
    | with_reducible exact k_seam _
    | with_reducible exact k_echo _
    | with_reducible exact k_ctx _
    | with_reducible exact k_chute _ _
    | intro _
    | with_reducible apply ite_keeps
    | with_reducible apply setCtx_keeps
    | with_reducible apply expandAll_keeps
    | with_reducible apply freeLines_keeps
    | split
    | with_reducible apply Keeps.lit

theorem swatheCheck_keeps {d : Nat} {k : Nat} (k_fence : ∀ d, pgFence d ≠ q₀) (k_memctl : ∀ d, pgMemctl d ≠ q₀) (k_chuteGlobal : ∀ d, pgChuteGlobal d ≠ q₀) (k_hp : ∀ d i, pgHp d i ≠ q₀) (k_seam : ∀ d, pgSeam d ≠ q₀) (k_echo : ∀ d, pgEcho d ≠ q₀) (k_ctx : ∀ d, pgCtx d ≠ q₀) (k_chute : ∀ d i, pgChute d i ≠ q₀) (hU : Keeps q₀ s₀ s) : Keeps q₀ s₀ (swatheCheck s d k) := by
  unfold swatheCheck
  try dsimp only
  repeat' first
    | with_reducible assumption
    | with_reducible exact k_fence _
    | with_reducible exact k_memctl _
    | with_reducible exact k_chuteGlobal _
    | with_reducible exact k_hp _ _
    | with_reducible exact k_seam _
    | with_reducible exact k_echo _
    | with_reducible exact k_ctx _
    | with_reducible exact k_chute _ _
    | intro _
    | with_reducible apply ite_keeps
    | with_reducible apply each_keeps
    | with_reducible apply ctxEvt_keeps
    | with_reducible apply ctxHandOver_keeps
    | with_reducible apply asmTurn_keeps
    | with_reducible apply setCtx_keeps
    | with_reducible apply turnEnd_keeps
    | with_reducible apply ctxMove_keeps
    | split
    | with_reducible apply Keeps.lit

theorem skipTo_keeps {d : Nat} {k : Nat} {n : Nat} (k_fence : ∀ d, pgFence d ≠ q₀) (k_memctl : ∀ d, pgMemctl d ≠ q₀) (k_chuteGlobal : ∀ d, pgChuteGlobal d ≠ q₀) (k_seam : ∀ d, pgSeam d ≠ q₀) (k_echo : ∀ d, pgEcho d ≠ q₀) (k_ctx : ∀ d, pgCtx d ≠ q₀) (k_chute : ∀ d i, pgChute d i ≠ q₀) (hU : Keeps q₀ s₀ s) : Keeps q₀ s₀ (skipTo s d k n) := by
  unfold skipTo
  try dsimp only
  repeat' first
    | with_reducible assumption
    | with_reducible exact k_fence _
    | with_reducible exact k_memctl _
    | with_reducible exact k_chuteGlobal _
    | with_reducible exact k_seam _
    | with_reducible exact k_echo _
    | with_reducible exact k_ctx _
    | with_reducible exact k_chute _ _
    | intro _
    | with_reducible apply ite_keeps
    | with_reducible apply setCtx_keeps
    | with_reducible apply ctxEvt_keeps
    | with_reducible apply expandAll_keeps
    | with_reducible apply freeLines_keeps
    | split
    | with_reducible apply Keeps.lit

theorem rejoinNow_keeps {d : Nat} {t : Nat} {k : Nat} (k_fence : ∀ d, pgFence d ≠ q₀) (k_memctl : ∀ d, pgMemctl d ≠ q₀) (k_chuteGlobal : ∀ d, pgChuteGlobal d ≠ q₀) (k_hp : ∀ d i, pgHp d i ≠ q₀) (k_seam : ∀ d, pgSeam d ≠ q₀) (k_echo : ∀ d, pgEcho d ≠ q₀) (k_ctx : ∀ d, pgCtx d ≠ q₀) (k_chute : ∀ d i, pgChute d i ≠ q₀) (hU : Keeps q₀ s₀ s) : Keeps q₀ s₀ (rejoinNow s d t k) := by
  unfold rejoinNow
  try dsimp only
  repeat' first
    | with_reducible assumption
    | with_reducible exact k_fence _
    | with_reducible exact k_memctl _
    | with_reducible exact k_chuteGlobal _
    | with_reducible exact k_hp _ _
    | with_reducible exact k_seam _
    | with_reducible exact k_echo _
    | with_reducible exact k_ctx _
    | with_reducible exact k_chute _ _
    | intro _
    | with_reducible apply ite_keeps
    | with_reducible apply setCtx_keeps
    | with_reducible apply ctxEvt_keeps
    | with_reducible apply seamUpdate_keeps
    | with_reducible apply tryHandOver_keeps
    | with_reducible apply skipTo_keeps
    | split
    | with_reducible apply Keeps.lit

theorem sweepEnd_keeps {d : Nat} {st : Nat} {fail : Nat} (k_echo : ∀ d, pgEcho d ≠ q₀) (hU : Keeps q₀ s₀ s) : Keeps q₀ s₀ (sweepEnd s d st fail) := by
  unfold sweepEnd
  try dsimp only
  repeat' first
    | with_reducible assumption
    | with_reducible exact k_echo _
    | intro _
    | with_reducible apply ite_keeps
    | with_reducible apply raise_keeps
    | with_reducible apply wr_keeps
    | split
    | with_reducible apply Keeps.lit

theorem sweepCheck_keeps {d : Nat} {p : Nat} (k_echo : ∀ d, pgEcho d ≠ q₀) (hU : Keeps q₀ s₀ s) : Keeps q₀ s₀ (sweepCheck s d p) := by
  unfold sweepCheck
  try dsimp only
  repeat' first
    | with_reducible assumption
    | with_reducible exact k_echo _
    | intro _
    | with_reducible apply ite_keeps
    | with_reducible apply sweepEnd_keeps
    | split
    | with_reducible apply Keeps.lit

theorem sweepNext_keeps {d : Nat} {missed : Bool} (k_echo : ∀ d, pgEcho d ≠ q₀) (hU : Keeps q₀ s₀ s) : Keeps q₀ s₀ (sweepNext s d missed) := by
  unfold sweepNext
  try dsimp only
  repeat' first
    | with_reducible assumption
    | with_reducible exact k_echo _
    | intro _
    | with_reducible apply ite_keeps
    | with_reducible apply wf_keeps
    | with_reducible apply setEcho_keeps
    | with_reducible apply sweepEnd_keeps
    | split
    | with_reducible apply Keeps.lit

theorem sweepSpend_keeps {d : Nat} {p : Nat} (k_echo : ∀ d, pgEcho d ≠ q₀) (hU : Keeps q₀ s₀ s) : Keeps q₀ s₀ (sweepSpend s d p) := by
  unfold sweepSpend
  try dsimp only
  repeat' first
    | with_reducible assumption
    | with_reducible exact k_echo _
    | intro _
    | with_reducible apply ite_keeps
    | with_reducible apply sweepNext_keeps
    | with_reducible apply setEcho_keeps
    | split
    | with_reducible apply Keeps.lit

theorem senseChoice_keeps {d : Nat} {p : Nat} {c : Cycle} (k_echo : ∀ d, pgEcho d ≠ q₀) (hU : Keeps q₀ s₀ s) : Keeps q₀ s₀ (senseChoice s d p c).2 := by
  unfold senseChoice
  try dsimp only
  repeat' first
    | with_reducible assumption
    | with_reducible exact k_echo _
    | intro _
    | with_reducible apply ite_keeps
    | with_reducible apply setPort_keeps
    | with_reducible apply sweepSpend_keeps
    | with_reducible apply count_keeps
    | split
    | with_reducible apply Keeps.lit

theorem bindWave_keeps {d : Nat} {p : Nat} {c : Cycle} (k_hp : ∀ d i, pgHp d i ≠ q₀) (hU : Keeps q₀ s₀ s) : Keeps q₀ s₀ (bindWave s d p c).2 := by
  unfold bindWave
  try dsimp only
  repeat' first
    | with_reducible assumption
    | with_reducible exact k_hp _ _
    | intro _
    | with_reducible apply ite_keeps
    | with_reducible apply raise_keeps
    | with_reducible apply count_keeps
    | with_reducible apply wr_keeps
    | with_reducible apply whenDo_keeps
    | with_reducible apply countBy_keeps
    | split
    | with_reducible apply Keeps.lit

theorem loseLine_keeps {d : Nat} {m : Nat} (hU : Keeps q₀ s₀ s) : Keeps q₀ s₀ (loseLine s d m) := by
  unfold loseLine
  try dsimp only
  repeat' first
    | with_reducible assumption
    | intro _
    | with_reducible apply ite_keeps
    | with_reducible apply ctxNull_keeps
    | split
    | with_reducible apply Keeps.lit

theorem underrun_keeps {d : Nat} {m : Nat} (k_fence : ∀ d, pgFence d ≠ q₀) (k_memctl : ∀ d, pgMemctl d ≠ q₀) (k_chuteGlobal : ∀ d, pgChuteGlobal d ≠ q₀) (k_hp : ∀ d i, pgHp d i ≠ q₀) (k_seam : ∀ d, pgSeam d ≠ q₀) (k_echo : ∀ d, pgEcho d ≠ q₀) (k_ctx : ∀ d, pgCtx d ≠ q₀) (k_chute : ∀ d i, pgChute d i ≠ q₀) (hU : Keeps q₀ s₀ s) : Keeps q₀ s₀ (underrun s d m) := by
  unfold underrun
  try dsimp only
  repeat' first
    | with_reducible assumption
    | with_reducible exact k_fence _
    | with_reducible exact k_memctl _
    | with_reducible exact k_chuteGlobal _
    | with_reducible exact k_hp _ _
    | with_reducible exact k_seam _
    | with_reducible exact k_echo _
    | with_reducible exact k_ctx _
    | with_reducible exact k_chute _ _
    | intro _
    | with_reducible apply ite_keeps
    | with_reducible apply policyPause_keeps
    | with_reducible apply ctxFence_keeps
    | with_reducible apply ctxRecord_keeps
    | with_reducible apply setCtx_keeps
    | split
    | with_reducible apply Keeps.lit

theorem bindCycle_keeps {d : Nat} {k : Nat} {t0 : Int} (k_fence : ∀ d, pgFence d ≠ q₀) (k_memctl : ∀ d, pgMemctl d ≠ q₀) (k_chuteGlobal : ∀ d, pgChuteGlobal d ≠ q₀) (k_hp : ∀ d i, pgHp d i ≠ q₀) (k_seam : ∀ d, pgSeam d ≠ q₀) (k_echo : ∀ d, pgEcho d ≠ q₀) (k_ctx : ∀ d, pgCtx d ≠ q₀) (k_chute : ∀ d i, pgChute d i ≠ q₀) (hU : Keeps q₀ s₀ s) : Keeps q₀ s₀ (bindCycle s d k t0) := by
  unfold bindCycle
  try dsimp only
  repeat' first
    | with_reducible assumption
    | with_reducible exact k_fence _
    | with_reducible exact k_memctl _
    | with_reducible exact k_chuteGlobal _
    | with_reducible exact k_hp _ _
    | with_reducible exact k_seam _
    | with_reducible exact k_echo _
    | with_reducible exact k_ctx _
    | with_reducible exact k_chute _ _
    | intro _
    | with_reducible apply ite_keeps
    | with_reducible apply bindWave_keeps
    | with_reducible apply senseChoice_keeps
    | with_reducible apply setPort_keeps
    | with_reducible apply queueFrame_keeps
    | with_reducible apply cycleOutcome_keeps
    | with_reducible apply each_keeps
    | with_reducible apply ctxNull_keeps
    | with_reducible apply ctxEvt_keeps
    | with_reducible apply lineDone_keeps
    | with_reducible apply stallMark_keeps
    | with_reducible apply setCtx_keeps
    | with_reducible apply rePredict_keeps
    | with_reducible apply underrun_keeps
    | (with_reducible refine pair_keeps (by assumption) ?_)
    | split
    | with_reducible apply Keeps.lit

theorem skipLine_keeps {d : Nat} {k : Nat} (k_ctx : ∀ d, pgCtx d ≠ q₀) (hU : Keeps q₀ s₀ s) : Keeps q₀ s₀ (skipLine s d k) := by
  unfold skipLine
  try dsimp only
  repeat' first
    | with_reducible assumption
    | with_reducible exact k_ctx _
    | intro _
    | with_reducible apply ite_keeps
    | with_reducible apply each_keeps
    | with_reducible apply lineDone_keeps
    | with_reducible apply ctxLate_keeps
    | with_reducible apply setCtx_keeps
    | with_reducible apply rePredict_keeps
    | split
    | with_reducible apply Keeps.lit

theorem bindLine_keeps {d : Nat} {k : Nat} (k_fence : ∀ d, pgFence d ≠ q₀) (k_memctl : ∀ d, pgMemctl d ≠ q₀) (k_chuteGlobal : ∀ d, pgChuteGlobal d ≠ q₀) (k_hp : ∀ d i, pgHp d i ≠ q₀) (k_seam : ∀ d, pgSeam d ≠ q₀) (k_echo : ∀ d, pgEcho d ≠ q₀) (k_ctx : ∀ d, pgCtx d ≠ q₀) (k_chute : ∀ d i, pgChute d i ≠ q₀) (hU : Keeps q₀ s₀ s) : Keeps q₀ s₀ (bindLine s d k) := by
  unfold bindLine
  try dsimp only
  repeat' first
    | with_reducible assumption
    | with_reducible exact k_fence _
    | with_reducible exact k_memctl _
    | with_reducible exact k_chuteGlobal _
    | with_reducible exact k_hp _ _
    | with_reducible exact k_seam _
    | with_reducible exact k_echo _
    | with_reducible exact k_ctx _
    | with_reducible exact k_chute _ _
    | intro _
    | with_reducible apply ite_keeps
    | with_reducible apply skipLine_keeps
    | with_reducible apply policyPause_keeps
    | with_reducible apply each_keeps
    | with_reducible apply setCtx_keeps
    | with_reducible apply ctxLate_keeps
    | with_reducible apply bindCycle_keeps
    | split
    | with_reducible apply Keeps.lit

theorem portHandOver_keeps {d : Nat} {p : Nat} (k_hp : ∀ d i, pgHp d i ≠ q₀) (hU : Keeps q₀ s₀ s) : Keeps q₀ s₀ (portHandOver s d p) := by
  unfold portHandOver
  try dsimp only
  repeat' first
    | with_reducible assumption
    | with_reducible exact k_hp _ _
    | intro _
    | with_reducible apply ite_keeps
    | with_reducible apply hpHandOver_keeps
    | split
    | with_reducible apply Keeps.lit

theorem memberHandOvers_keeps {d : Nat} {k : Nat} (k_fence : ∀ d, pgFence d ≠ q₀) (k_memctl : ∀ d, pgMemctl d ≠ q₀) (k_chuteGlobal : ∀ d, pgChuteGlobal d ≠ q₀) (k_hp : ∀ d i, pgHp d i ≠ q₀) (k_seam : ∀ d, pgSeam d ≠ q₀) (k_echo : ∀ d, pgEcho d ≠ q₀) (k_ctx : ∀ d, pgCtx d ≠ q₀) (k_chute : ∀ d i, pgChute d i ≠ q₀) (hU : Keeps q₀ s₀ s) : Keeps q₀ s₀ (memberHandOvers s d k) := by
  unfold memberHandOvers
  try dsimp only
  repeat' first
    | with_reducible assumption
    | with_reducible exact k_fence _
    | with_reducible exact k_memctl _
    | with_reducible exact k_chuteGlobal _
    | with_reducible exact k_hp _ _
    | with_reducible exact k_seam _
    | with_reducible exact k_echo _
    | with_reducible exact k_ctx _
    | with_reducible exact k_chute _ _
    | intro _
    | with_reducible apply ite_keeps
    | with_reducible apply each_keeps
    | with_reducible apply ctxHandOver_keeps
    | split
    | with_reducible apply Keeps.lit

theorem bindPoint_keeps {d : Nat} {k : Nat} {t : Int} (k_tb : ∀ d, pgTb d ≠ q₀) (k_fence : ∀ d, pgFence d ≠ q₀) (k_assay : ∀ d, pgAssay d ≠ q₀) (k_memctl : ∀ d, pgMemctl d ≠ q₀) (k_chuteGlobal : ∀ d, pgChuteGlobal d ≠ q₀) (k_hp : ∀ d i, pgHp d i ≠ q₀) (k_seam : ∀ d, pgSeam d ≠ q₀) (k_echo : ∀ d, pgEcho d ≠ q₀) (k_ctx : ∀ d, pgCtx d ≠ q₀) (k_chute : ∀ d i, pgChute d i ≠ q₀) (hU : Keeps q₀ s₀ s) : Keeps q₀ s₀ (bindPoint s d k t) := by
  unfold bindPoint
  try dsimp only
  repeat' first
    | with_reducible assumption
    | with_reducible exact k_tb _
    | with_reducible exact k_fence _
    | with_reducible exact k_assay _
    | with_reducible exact k_memctl _
    | with_reducible exact k_chuteGlobal _
    | with_reducible exact k_hp _ _
    | with_reducible exact k_seam _
    | with_reducible exact k_echo _
    | with_reducible exact k_ctx _
    | with_reducible exact k_chute _ _
    | intro _
    | with_reducible apply ite_keeps
    | with_reducible apply waitTick_keeps
    | with_reducible apply rePredict_keeps
    | with_reducible apply memberHandOvers_keeps
    | with_reducible apply asBoundary_keeps
    | with_reducible apply portHandOver_keeps
    | with_reducible apply sweepCheck_keeps
    | with_reducible apply each_keeps
    | with_reducible apply rejoinNow_keeps
    | with_reducible apply bindLine_keeps
    | with_reducible apply swatheCheck_keeps
    | with_reducible apply waitClock_keeps
    | split
    | with_reducible apply Keeps.lit

theorem execLineBind_kept {d : Nat} {k0 : Nat} (k_tb : ∀ d, pgTb d ≠ q₀) (k_fence : ∀ d, pgFence d ≠ q₀) (k_assay : ∀ d, pgAssay d ≠ q₀) (k_memctl : ∀ d, pgMemctl d ≠ q₀) (k_chuteGlobal : ∀ d, pgChuteGlobal d ≠ q₀) (k_hp : ∀ d i, pgHp d i ≠ q₀) (k_seam : ∀ d, pgSeam d ≠ q₀) (k_echo : ∀ d, pgEcho d ≠ q₀) (k_ctx : ∀ d, pgCtx d ≠ q₀) (k_chute : ∀ d i, pgChute d i ≠ q₀) (hU : Keeps q₀ s₀ s) : Kept q₀ s₀ (execLineBind d k0 s) := by
  unfold execLineBind
  try dsimp only
  repeat' first
    | with_reducible assumption
    | with_reducible exact k_tb _
    | with_reducible exact k_fence _
    | with_reducible exact k_assay _
    | with_reducible exact k_memctl _
    | with_reducible exact k_chuteGlobal _
    | with_reducible exact k_hp _ _
    | with_reducible exact k_seam _
    | with_reducible exact k_echo _
    | with_reducible exact k_ctx _
    | with_reducible exact k_chute _ _
    | intro _
    | with_reducible apply ok_kept
    | with_reducible apply ite_kept
    | with_reducible apply ite_keeps
    | with_reducible exact ok_kept (by assumption)
    | with_reducible apply ctxAbortNow_keeps
    | with_reducible apply swatheCheck_keeps
    | with_reducible apply turnEnd_keeps
    | with_reducible apply bindPoint_keeps
    | split
    | with_reducible apply Keeps.lit

theorem execFollowerRejoin_kept {d : Nat} {k : Nat} (k_tb : ∀ d, pgTb d ≠ q₀) (k_fence : ∀ d, pgFence d ≠ q₀) (k_memctl : ∀ d, pgMemctl d ≠ q₀) (k_chuteGlobal : ∀ d, pgChuteGlobal d ≠ q₀) (k_hp : ∀ d i, pgHp d i ≠ q₀) (k_seam : ∀ d, pgSeam d ≠ q₀) (k_echo : ∀ d, pgEcho d ≠ q₀) (k_ctx : ∀ d, pgCtx d ≠ q₀) (k_chute : ∀ d i, pgChute d i ≠ q₀) (hU : Keeps q₀ s₀ s) : Kept q₀ s₀ (execFollowerRejoin d k s) := by
  unfold execFollowerRejoin
  try dsimp only
  repeat' first
    | with_reducible assumption
    | with_reducible exact k_tb _
    | with_reducible exact k_fence _
    | with_reducible exact k_memctl _
    | with_reducible exact k_chuteGlobal _
    | with_reducible exact k_hp _ _
    | with_reducible exact k_seam _
    | with_reducible exact k_echo _
    | with_reducible exact k_ctx _
    | with_reducible exact k_chute _ _
    | intro _
    | with_reducible apply ok_kept
    | with_reducible apply ite_kept
    | with_reducible apply ite_keeps
    | with_reducible exact ok_kept (by assumption)
    | with_reducible apply rejoinNow_keeps
    | with_reducible apply waitTick_keeps
    | split
    | with_reducible apply Keeps.lit

theorem freezeCycle_keeps {d : Nat} {p : Nat} {c : Cycle} (k_hp : ∀ d i, pgHp d i ≠ q₀) (hU : Keeps q₀ s₀ s) : Keeps q₀ s₀ (freezeCycle s d p c) := by
  unfold freezeCycle
  try dsimp only
  repeat' first
    | with_reducible assumption
    | with_reducible exact k_hp _ _
    | intro _
    | with_reducible apply ite_keeps
    | with_reducible apply setCycle_keeps
    | with_reducible apply raise_keeps
    | with_reducible apply count_keeps
    | with_reducible apply each_keeps
    | with_reducible apply ctxDegraded_keeps
    | with_reducible apply memberDone_keeps
    | with_reducible apply ctxNull_keeps
    | with_reducible apply emit_keeps
    | split
    | with_reducible apply Keeps.lit

theorem freezeAt_keeps {d : Nat} {p : Nat} {c : Cycle} (k_tb : ∀ d, pgTb d ≠ q₀) (k_hp : ∀ d i, pgHp d i ≠ q₀) (hU : Keeps q₀ s₀ s) : Keeps q₀ s₀ (freezeAt s d p c) := by
  unfold freezeAt
  try dsimp only
  repeat' first
    | with_reducible assumption
    | with_reducible exact k_tb _
    | with_reducible exact k_hp _ _
    | intro _
    | with_reducible apply ite_keeps
    | with_reducible apply freezeCycle_keeps
    | with_reducible apply waitTick_keeps
    | split
    | with_reducible apply Keeps.lit

theorem execLineFreeze_kept {d : Nat} {k : Nat} (k_tb : ∀ d, pgTb d ≠ q₀) (k_hp : ∀ d i, pgHp d i ≠ q₀) (hU : Keeps q₀ s₀ s) : Kept q₀ s₀ (execLineFreeze d k s) := by
  unfold execLineFreeze
  try dsimp only
  repeat' first
    | with_reducible assumption
    | with_reducible exact k_tb _
    | with_reducible exact k_hp _ _
    | intro _
    | with_reducible apply ok_kept
    | with_reducible apply ite_kept
    | with_reducible apply ite_keeps
    | with_reducible exact ok_kept (by assumption)
    | with_reducible apply freezeAt_keeps
    | split
    | with_reducible apply Keeps.lit

theorem playPiezo_keeps {d : Nat} {p : Nat} {c : Cycle} (k_hp : ∀ d i, pgHp d i ≠ q₀) (hU : Keeps q₀ s₀ s) : Keeps q₀ s₀ (playPiezo s d p c) := by
  unfold playPiezo
  try dsimp only
  repeat' first
    | with_reducible assumption
    | with_reducible exact k_hp _ _
    | intro _
    | with_reducible apply ite_keeps
    | with_reducible apply whenDo_keeps
    | with_reducible apply raise_keeps
    | with_reducible apply countBy_keeps
    | with_reducible apply streamFollow_keeps
    | with_reducible apply setPort_keeps
    | split
    | with_reducible apply Keeps.lit

theorem senseOpen_keeps {d : Nat} {p : Nat} {c : Cycle} (hU : Keeps q₀ s₀ s) : Keeps q₀ s₀ (senseOpen s d p c) := by
  unfold senseOpen
  try dsimp only
  repeat' first
    | with_reducible assumption
    | intro _
    | with_reducible apply ite_keeps
    | with_reducible apply setEcho_keeps
    | split
    | with_reducible apply Keeps.lit

theorem playThermal_keeps {d : Nat} {p : Nat} {c : Cycle} (hU : Keeps q₀ s₀ s) : Keeps q₀ s₀ (playThermal s d p c) := by
  unfold playThermal
  try dsimp only
  repeat' first
    | with_reducible assumption
    | intro _
    | with_reducible apply ite_keeps
    | split
    | with_reducible apply Keeps.lit

theorem playCycle_keeps {d : Nat} {p : Nat} {c : Cycle} (k_hp : ∀ d i, pgHp d i ≠ q₀) (hU : Keeps q₀ s₀ s) : Keeps q₀ s₀ (playCycle s d p c) := by
  unfold playCycle
  try dsimp only
  repeat' first
    | with_reducible assumption
    | with_reducible exact k_hp _ _
    | intro _
    | with_reducible apply ite_keeps
    | with_reducible apply playThermal_keeps
    | with_reducible apply senseOpen_keeps
    | with_reducible apply playPiezo_keeps
    | with_reducible apply setPort_keeps
    | split
    | with_reducible apply Keeps.lit

theorem logDrops_keeps {d : Nat} {p : Nat} {c : Cycle} (hU : Keeps q₀ s₀ s) : Keeps q₀ s₀ (logDrops s d p c) := by
  unfold logDrops
  try dsimp only
  repeat' first
    | with_reducible assumption
    | intro _
    | with_reducible apply ite_keeps
    | with_reducible apply setTherm_keeps
    | split
    | with_reducible apply Keeps.lit

theorem fireCycle_keeps {d : Nat} {p : Nat} {c : Cycle} (k_tb : ∀ d, pgTb d ≠ q₀) (k_fence : ∀ d, pgFence d ≠ q₀) (k_memctl : ∀ d, pgMemctl d ≠ q₀) (k_chuteGlobal : ∀ d, pgChuteGlobal d ≠ q₀) (k_hp : ∀ d i, pgHp d i ≠ q₀) (k_seam : ∀ d, pgSeam d ≠ q₀) (k_echo : ∀ d, pgEcho d ≠ q₀) (k_ctx : ∀ d, pgCtx d ≠ q₀) (k_chute : ∀ d i, pgChute d i ≠ q₀) (hU : Keeps q₀ s₀ s) : Keeps q₀ s₀ (fireCycle s d p c) := by
  unfold fireCycle
  try dsimp only
  repeat' first
    | with_reducible assumption
    | with_reducible exact k_tb _
    | with_reducible exact k_fence _
    | with_reducible exact k_memctl _
    | with_reducible exact k_chuteGlobal _
    | with_reducible exact k_hp _ _
    | with_reducible exact k_seam _
    | with_reducible exact k_echo _
    | with_reducible exact k_ctx _
    | with_reducible exact k_chute _ _
    | intro _
    | with_reducible apply ite_keeps
    | with_reducible apply waitTick_keeps
    | with_reducible apply logDrops_keeps
    | with_reducible apply playCycle_keeps
    | with_reducible apply setCycle_keeps
    | with_reducible apply each_keeps
    | with_reducible apply setCtx_keeps
    | with_reducible apply retire_keeps
    | with_reducible apply ctxAbortNow_keeps
    | split
    | with_reducible apply Keeps.lit

theorem execCycleFire_kept {d : Nat} {k : Nat} (k_tb : ∀ d, pgTb d ≠ q₀) (k_fence : ∀ d, pgFence d ≠ q₀) (k_memctl : ∀ d, pgMemctl d ≠ q₀) (k_chuteGlobal : ∀ d, pgChuteGlobal d ≠ q₀) (k_hp : ∀ d i, pgHp d i ≠ q₀) (k_seam : ∀ d, pgSeam d ≠ q₀) (k_echo : ∀ d, pgEcho d ≠ q₀) (k_ctx : ∀ d, pgCtx d ≠ q₀) (k_chute : ∀ d i, pgChute d i ≠ q₀) (hU : Keeps q₀ s₀ s) : Kept q₀ s₀ (execCycleFire d k s) := by
  unfold execCycleFire
  try dsimp only
  repeat' first
    | with_reducible assumption
    | with_reducible exact k_tb _
    | with_reducible exact k_fence _
    | with_reducible exact k_memctl _
    | with_reducible exact k_chuteGlobal _
    | with_reducible exact k_hp _ _
    | with_reducible exact k_seam _
    | with_reducible exact k_echo _
    | with_reducible exact k_ctx _
    | with_reducible exact k_chute _ _
    | intro _
    | with_reducible apply ok_kept
    | with_reducible apply ite_kept
    | with_reducible apply ite_keeps
    | with_reducible exact ok_kept (by assumption)
    | with_reducible apply freezeAt_keeps
    | with_reducible apply fireCycle_keeps
    | split
    | with_reducible apply Keeps.lit

theorem drainEnd_keeps {d : Nat} {k0 : Nat} (k_fence : ∀ d, pgFence d ≠ q₀) (k_memctl : ∀ d, pgMemctl d ≠ q₀) (k_chuteGlobal : ∀ d, pgChuteGlobal d ≠ q₀) (k_hp : ∀ d i, pgHp d i ≠ q₀) (k_seam : ∀ d, pgSeam d ≠ q₀) (k_echo : ∀ d, pgEcho d ≠ q₀) (k_ctx : ∀ d, pgCtx d ≠ q₀) (k_chute : ∀ d i, pgChute d i ≠ q₀) (hU : Keeps q₀ s₀ s) : Keeps q₀ s₀ (drainEnd s d k0) := by
  unfold drainEnd
  try dsimp only
  repeat' first
    | with_reducible assumption
    | with_reducible exact k_fence _
    | with_reducible exact k_memctl _
    | with_reducible exact k_chuteGlobal _
    | with_reducible exact k_hp _ _
    | with_reducible exact k_seam _
    | with_reducible exact k_echo _
    | with_reducible exact k_ctx _
    | with_reducible exact k_chute _ _
    | intro _
    | with_reducible apply ite_keeps
    | with_reducible apply ctxMove_keeps
    | with_reducible apply each_keeps
    | with_reducible apply ctxEnter_keeps
    | split
    | with_reducible apply Keeps.lit

theorem execDrainComplete_kept {d : Nat} {k0 : Nat} (k_fence : ∀ d, pgFence d ≠ q₀) (k_memctl : ∀ d, pgMemctl d ≠ q₀) (k_chuteGlobal : ∀ d, pgChuteGlobal d ≠ q₀) (k_hp : ∀ d i, pgHp d i ≠ q₀) (k_seam : ∀ d, pgSeam d ≠ q₀) (k_echo : ∀ d, pgEcho d ≠ q₀) (k_ctx : ∀ d, pgCtx d ≠ q₀) (k_chute : ∀ d i, pgChute d i ≠ q₀) (hU : Keeps q₀ s₀ s) : Kept q₀ s₀ (execDrainComplete d k0 s) := by
  unfold execDrainComplete
  try dsimp only
  repeat' first
    | with_reducible assumption
    | with_reducible exact k_fence _
    | with_reducible exact k_memctl _
    | with_reducible exact k_chuteGlobal _
    | with_reducible exact k_hp _ _
    | with_reducible exact k_seam _
    | with_reducible exact k_echo _
    | with_reducible exact k_ctx _
    | with_reducible exact k_chute _ _
    | intro _
    | with_reducible apply ok_kept
    | with_reducible apply ite_kept
    | with_reducible apply ite_keeps
    | with_reducible exact ok_kept (by assumption)
    | with_reducible apply drainEnd_keeps
    | split
    | with_reducible apply Keeps.lit

theorem stallRecord_keeps {d : Nat} {k : Nat} {fence : Bool} (k_fence : ∀ d, pgFence d ≠ q₀) (k_chuteGlobal : ∀ d, pgChuteGlobal d ≠ q₀) (k_chute : ∀ d i, pgChute d i ≠ q₀) (hU : Keeps q₀ s₀ s) : Keeps q₀ s₀ (stallRecord s d k fence) := by
  unfold stallRecord
  try dsimp only
  repeat' first
    | with_reducible assumption
    | with_reducible exact k_fence _
    | with_reducible exact k_chuteGlobal _
    | with_reducible exact k_chute _ _
    | intro _
    | with_reducible apply ite_keeps
    | with_reducible apply logRecord_keeps
    | with_reducible apply setPort_keeps
    | with_reducible apply setCtx_keeps
    | split
    | with_reducible apply Keeps.lit

theorem stallNow_keeps {d : Nat} {k : Nat} (k_fence : ∀ d, pgFence d ≠ q₀) (k_memctl : ∀ d, pgMemctl d ≠ q₀) (k_chuteGlobal : ∀ d, pgChuteGlobal d ≠ q₀) (k_hp : ∀ d i, pgHp d i ≠ q₀) (k_seam : ∀ d, pgSeam d ≠ q₀) (k_echo : ∀ d, pgEcho d ≠ q₀) (k_ctx : ∀ d, pgCtx d ≠ q₀) (k_chute : ∀ d i, pgChute d i ≠ q₀) (hU : Keeps q₀ s₀ s) : Keeps q₀ s₀ (stallNow s d k) := by
  unfold stallNow
  try dsimp only
  repeat' first
    | with_reducible assumption
    | with_reducible exact k_fence _
    | with_reducible exact k_memctl _
    | with_reducible exact k_chuteGlobal _
    | with_reducible exact k_hp _ _
    | with_reducible exact k_seam _
    | with_reducible exact k_echo _
    | with_reducible exact k_ctx _
    | with_reducible exact k_chute _ _
    | intro _
    | with_reducible apply ite_keeps
    | with_reducible apply setCtx_keeps
    | with_reducible apply stallRecord_keeps
    | with_reducible apply ctxEvt_keeps
    | with_reducible apply ctxFence_keeps
    | with_reducible apply ctxMove_keeps
    | split
    | with_reducible apply Keeps.lit

theorem execStall_kept {d : Nat} {k : Nat} (k_tb : ∀ d, pgTb d ≠ q₀) (k_fence : ∀ d, pgFence d ≠ q₀) (k_memctl : ∀ d, pgMemctl d ≠ q₀) (k_chuteGlobal : ∀ d, pgChuteGlobal d ≠ q₀) (k_hp : ∀ d i, pgHp d i ≠ q₀) (k_seam : ∀ d, pgSeam d ≠ q₀) (k_echo : ∀ d, pgEcho d ≠ q₀) (k_ctx : ∀ d, pgCtx d ≠ q₀) (k_chute : ∀ d i, pgChute d i ≠ q₀) (hU : Keeps q₀ s₀ s) : Kept q₀ s₀ (execStall d k s) := by
  unfold execStall
  try dsimp only
  repeat' first
    | with_reducible assumption
    | with_reducible exact k_tb _
    | with_reducible exact k_fence _
    | with_reducible exact k_memctl _
    | with_reducible exact k_chuteGlobal _
    | with_reducible exact k_hp _ _
    | with_reducible exact k_seam _
    | with_reducible exact k_echo _
    | with_reducible exact k_ctx _
    | with_reducible exact k_chute _ _
    | intro _
    | with_reducible apply ok_kept
    | with_reducible apply ite_kept
    | with_reducible apply ite_keeps
    | with_reducible exact ok_kept (by assumption)
    | with_reducible apply stallNow_keeps
    | with_reducible apply waitClock_keeps
    | split
    | with_reducible apply Keeps.lit

end Sys2Proof.Laws
end

