-- ==== Sys2Proof/Laws/LoadReg.lean ====
section
/-!
SUPPORT. The register pages that each operation of `Machine/Load.lean` may write: every other page reads as before.
-/

set_option Elab.async false
set_option linter.unusedTactic false
set_option linter.unreachableTactic false
namespace Sys2Proof.Laws

open Sys2Proof.Machine

variable {q₀ : Pg} {s₀ s : State}

theorem setLoad_keeps {d : Nat} {p : Nat} {st : Nat} (k_hp : ∀ d i, pgHp d i ≠ q₀) (hU : Keeps q₀ s₀ s) : Keeps q₀ s₀ (setLoad s d p st) := by
  unfold setLoad
  try dsimp only
  repeat' first
    | with_reducible assumption
    | with_reducible exact k_hp _ _
    | intro _
    | with_reducible apply ite_keeps
    | with_reducible apply wf_keeps
    | split
    | with_reducible apply Keeps.lit

theorem loadStart_keeps {d : Nat} {p : Nat} {b : Nat} (k_hp : ∀ d i, pgHp d i ≠ q₀) (hU : Keeps q₀ s₀ s) : Keeps q₀ s₀ (loadStart s d p b) := by
  unfold loadStart
  try dsimp only
  repeat' first
    | with_reducible assumption
    | with_reducible exact k_hp _ _
    | intro _
    | with_reducible apply ite_keeps
    | with_reducible apply wr_keeps
    | with_reducible apply loadFail_keeps
    | with_reducible apply wf_keeps
    | with_reducible apply setLoad_keeps
    | with_reducible apply setPort_keeps
    | split
    | with_reducible apply Keeps.lit

theorem wfCtrlEff_keeps {r : Req} {d : Nat} {p : Nat} {v : Word} (k_hp : ∀ d i, pgHp d i ≠ q₀) (hU : Keeps q₀ s₀ s) : Keeps q₀ s₀ (wfCtrlEff r d p v s) := by
  unfold wfCtrlEff
  try dsimp only
  repeat' first
    | with_reducible assumption
    | with_reducible exact k_hp _ _
    | intro _
    | with_reducible apply ite_keeps
    | with_reducible apply logErr_keeps
    | with_reducible apply wf_keeps
    | with_reducible apply loadStart_keeps
    | split
    | with_reducible apply Keeps.lit

theorem execWfLoadStart_kept {r : Req} {d : Nat} {p : Nat} {v : Word} (k_hp : ∀ d i, pgHp d i ≠ q₀) (k_pcie : pgPcie ≠ q₀) (k_guard : ∀ d, pgGuard d ≠ q₀) (hU : Keeps q₀ s₀ s) : Kept q₀ s₀ (execWfLoadStart r d p v s) := by
  unfold execWfLoadStart
  try dsimp only
  repeat' first
    | with_reducible assumption
    | with_reducible exact k_hp _ _
    | with_reducible exact k_pcie
    | with_reducible exact k_guard _
    | intro _
    | with_reducible apply ok_kept
    | with_reducible apply ite_kept
    | with_reducible apply ite_keeps
    | with_reducible exact ok_kept (by assumption)
    | with_reducible apply guardedWrite_keeps
    | with_reducible apply wfCtrlEff_keeps
    | split
    | with_reducible apply Keeps.lit

theorem loadCopy_keeps {d : Nat} {p : Nat} (k_fence : ∀ d, pgFence d ≠ q₀) (k_memctl : ∀ d, pgMemctl d ≠ q₀) (k_chuteGlobal : ∀ d, pgChuteGlobal d ≠ q₀) (k_hp : ∀ d i, pgHp d i ≠ q₀) (k_chute : ∀ d i, pgChute d i ≠ q₀) (hU : Keeps q₀ s₀ s) : Keeps q₀ s₀ (loadCopy s d p) := by
  unfold loadCopy
  try dsimp only
  repeat' first
    | with_reducible assumption
    | with_reducible exact k_fence _
    | with_reducible exact k_memctl _
    | with_reducible exact k_chuteGlobal _
    | with_reducible exact k_hp _ _
    | with_reducible exact k_chute _ _
    | intro _
    | with_reducible apply ite_keeps
    | with_reducible apply readWords_keeps
    | with_reducible apply setLoad_keeps
    | with_reducible apply loadFail_keeps
    | with_reducible apply setPort_keeps
    | with_reducible apply wr_keeps
    | (with_reducible refine trip_keeps (by assumption) ?_)
    | split
    | with_reducible apply Keeps.lit

theorem execWfLoadCopy_kept {d : Nat} {p : Nat} (k_tb : ∀ d, pgTb d ≠ q₀) (k_fence : ∀ d, pgFence d ≠ q₀) (k_memctl : ∀ d, pgMemctl d ≠ q₀) (k_chuteGlobal : ∀ d, pgChuteGlobal d ≠ q₀) (k_hp : ∀ d i, pgHp d i ≠ q₀) (k_chute : ∀ d i, pgChute d i ≠ q₀) (hU : Keeps q₀ s₀ s) : Kept q₀ s₀ (execWfLoadCopy d p s) := by
  unfold execWfLoadCopy
  try dsimp only
  repeat' first
    | with_reducible assumption
    | with_reducible exact k_tb _
    | with_reducible exact k_fence _
    | with_reducible exact k_memctl _
    | with_reducible exact k_chuteGlobal _
    | with_reducible exact k_hp _ _
    | with_reducible exact k_chute _ _
    | intro _
    | with_reducible apply ok_kept
    | with_reducible apply ite_kept
    | with_reducible apply ite_keeps
    | with_reducible exact ok_kept (by assumption)
    | with_reducible apply loadCopy_keeps
    | with_reducible apply each_keeps
    | with_reducible apply waitTick_keeps
    | split
    | with_reducible apply Keeps.lit

theorem execWfLoadHead_kept {d : Nat} {p : Nat} (k_hp : ∀ d i, pgHp d i ≠ q₀) (hU : Keeps q₀ s₀ s) : Kept q₀ s₀ (execWfLoadHead d p s) := by
  unfold execWfLoadHead
  try dsimp only
  repeat' first
    | with_reducible assumption
    | with_reducible exact k_hp _ _
    | intro _
    | with_reducible apply ok_kept
    | with_reducible apply ite_kept
    | with_reducible apply ite_keeps
    | with_reducible exact ok_kept (by assumption)
    | with_reducible apply loadFail_keeps
    | with_reducible apply setPort_keeps
    | split
    | with_reducible apply Keeps.lit

theorem execLoadDone_kept {d : Nat} {p : Nat} (k_hp : ∀ d i, pgHp d i ≠ q₀) (hU : Keeps q₀ s₀ s) : Kept q₀ s₀ (execLoadDone d p s) := by
  unfold execLoadDone
  try dsimp only
  repeat' first
    | with_reducible assumption
    | with_reducible exact k_hp _ _
    | intro _
    | with_reducible apply ok_kept
    | with_reducible apply ite_kept
    | with_reducible apply ite_keeps
    | with_reducible apply wf_keeps
    | with_reducible apply setLoad_keeps
    | with_reducible apply wr_keeps
    | with_reducible exact ok_kept (by assumption)
    | with_reducible apply raise_keeps
    | with_reducible apply setPort_keeps
    | split
    | with_reducible apply Keeps.lit

end Sys2Proof.Laws
end

