-- ==== Sys2Proof/Laws/SypolReg.lean ====
section
/-!
SUPPORT. The register pages that each operation of `Machine/Sypol.lean` may write: every other page reads as before.
-/

set_option Elab.async false
set_option linter.unusedTactic false
set_option linter.unreachableTactic false
namespace Sys2Proof.Laws

open Sys2Proof.Machine

variable {q₀ : Pg} {s₀ s : State}

theorem setLink_keeps {d : Nat} {p : Nat} {st : Nat} (k_mbox : ∀ d b, pgMbox d b ≠ q₀) (k_hp : ∀ d i, pgHp d i ≠ q₀) (hU : Keeps q₀ s₀ s) : Keeps q₀ s₀ (setLink s d p st) := by
  unfold setLink
  try dsimp only
  repeat' first
    | with_reducible assumption
    | with_reducible exact k_mbox _ _
    | with_reducible exact k_hp _ _
    | intro _
    | with_reducible apply ite_keeps
    | with_reducible apply streamFollow_keeps
    | with_reducible apply linkStat_keeps
    | with_reducible apply setPort_keeps
    | with_reducible apply whenDo_keeps
    | with_reducible apply raise_keeps
    | with_reducible apply notice_keeps
    | split
    | with_reducible apply Keeps.lit

theorem frameEnd_keeps {d : Nat} {p : Nat} {f : Frame} {good : Bool} (k_fence : ∀ d, pgFence d ≠ q₀) (k_memctl : ∀ d, pgMemctl d ≠ q₀) (k_chuteGlobal : ∀ d, pgChuteGlobal d ≠ q₀) (k_hp : ∀ d i, pgHp d i ≠ q₀) (k_seam : ∀ d, pgSeam d ≠ q₀) (k_echo : ∀ d, pgEcho d ≠ q₀) (k_ctx : ∀ d, pgCtx d ≠ q₀) (k_chute : ∀ d i, pgChute d i ≠ q₀) (hU : Keeps q₀ s₀ s) : Keeps q₀ s₀ (frameEnd s d p f good) := by
  unfold frameEnd
  try dsimp only
  repeat' first
    | with_reducible assumption
    | with_reducible exact k_fence _
    | with_reducible exact k_memctl _
    | with_reducible exact k_chuteGlobal _
    | with_reducible exact k_hp _ _
    | with_reducible exact k_seam _
    | with_reducible exact k_echo _
    | with_reducible exact k_ctx _
    | with_reducible exact k_chute _ _
    | intro _
    | with_reducible apply ite_keeps
    | with_reducible apply setPort_keeps
    | with_reducible apply loadFail_keeps
    | with_reducible apply setCycle_keeps
    | with_reducible apply cycleOutcome_keeps
    | split
    | with_reducible apply Keeps.lit

theorem frameLost_keeps {d : Nat} {p : Nat} {f : Frame} (k_fence : ∀ d, pgFence d ≠ q₀) (k_memctl : ∀ d, pgMemctl d ≠ q₀) (k_chuteGlobal : ∀ d, pgChuteGlobal d ≠ q₀) (k_hp : ∀ d i, pgHp d i ≠ q₀) (k_seam : ∀ d, pgSeam d ≠ q₀) (k_echo : ∀ d, pgEcho d ≠ q₀) (k_ctx : ∀ d, pgCtx d ≠ q₀) (k_chute : ∀ d i, pgChute d i ≠ q₀) (hU : Keeps q₀ s₀ s) : Keeps q₀ s₀ (frameLost s d p f) := by
  unfold frameLost
  try dsimp only
  repeat' first
    | with_reducible assumption
    | with_reducible exact k_fence _
    | with_reducible exact k_memctl _
    | with_reducible exact k_chuteGlobal _
    | with_reducible exact k_hp _ _
    | with_reducible exact k_seam _
    | with_reducible exact k_echo _
    | with_reducible exact k_ctx _
    | with_reducible exact k_chute _ _
    | intro _
    | with_reducible apply ite_keeps
    | with_reducible apply raise_keeps
    | with_reducible apply count_keeps
    | with_reducible apply frameEnd_keeps
    | split
    | with_reducible apply Keeps.lit

theorem unqueue_keeps {d : Nat} {p : Nat} {f : Frame} (hU : Keeps q₀ s₀ s) : Keeps q₀ s₀ (unqueue s d p f) := by
  unfold unqueue
  try dsimp only
  repeat' first
    | with_reducible assumption
    | intro _
    | with_reducible apply ite_keeps
    | with_reducible apply setPort_keeps
    | split
    | with_reducible apply Keeps.lit

theorem transmit_keeps {d : Nat} {p : Nat} {inj : Nat} {f : Frame} (k_hp : ∀ d i, pgHp d i ≠ q₀) (hU : Keeps q₀ s₀ s) : Keeps q₀ s₀ (transmit s d p inj f) := by
  unfold transmit
  try dsimp only
  repeat' first
    | with_reducible assumption
    | with_reducible exact k_hp _ _
    | intro _
    | with_reducible apply ite_keeps
    | with_reducible apply setPort_keeps
    | with_reducible apply whenDo_keeps
    | with_reducible apply count_keeps
    | with_reducible apply setCycle_keeps
    | with_reducible apply emit_keeps
    | with_reducible apply linkStat_keeps
    | split
    | with_reducible apply Keeps.lit

theorem dropFrame_keeps {d : Nat} {p : Nat} {f : Frame} (k_hp : ∀ d i, pgHp d i ≠ q₀) (hU : Keeps q₀ s₀ s) : Keeps q₀ s₀ (dropFrame s d p f) := by
  unfold dropFrame
  try dsimp only
  repeat' first
    | with_reducible assumption
    | with_reducible exact k_hp _ _
    | intro _
    | with_reducible apply ite_keeps
    | with_reducible apply withRetry_keeps
    | with_reducible apply setPort_keeps
    | split
    | with_reducible apply Keeps.lit

theorem abandonFrames_keeps {d : Nat} {p : Nat} (k_fence : ∀ d, pgFence d ≠ q₀) (k_memctl : ∀ d, pgMemctl d ≠ q₀) (k_chuteGlobal : ∀ d, pgChuteGlobal d ≠ q₀) (k_hp : ∀ d i, pgHp d i ≠ q₀) (k_seam : ∀ d, pgSeam d ≠ q₀) (k_echo : ∀ d, pgEcho d ≠ q₀) (k_ctx : ∀ d, pgCtx d ≠ q₀) (k_chute : ∀ d i, pgChute d i ≠ q₀) (hU : Keeps q₀ s₀ s) : Keeps q₀ s₀ (abandonFrames s d p) := by
  unfold abandonFrames
  try dsimp only
  repeat' first
    | with_reducible assumption
    | with_reducible exact k_fence _
    | with_reducible exact k_memctl _
    | with_reducible exact k_chuteGlobal _
    | with_reducible exact k_hp _ _
    | with_reducible exact k_seam _
    | with_reducible exact k_echo _
    | with_reducible exact k_ctx _
    | with_reducible exact k_chute _ _
    | intro _
    | with_reducible apply ite_keeps
    | with_reducible apply linkStat_keeps
    | with_reducible apply setPort_keeps
    | with_reducible apply each_keeps
    | with_reducible apply stallFollow_keeps
    | with_reducible apply frameEnd_keeps
    | split
    | with_reducible apply Keeps.lit

theorem retrain_keeps {d : Nat} {p : Nat} {cause : Nat} (k_fence : ∀ d, pgFence d ≠ q₀) (k_memctl : ∀ d, pgMemctl d ≠ q₀) (k_chuteGlobal : ∀ d, pgChuteGlobal d ≠ q₀) (k_mbox : ∀ d b, pgMbox d b ≠ q₀) (k_hp : ∀ d i, pgHp d i ≠ q₀) (k_seam : ∀ d, pgSeam d ≠ q₀) (k_echo : ∀ d, pgEcho d ≠ q₀) (k_ctx : ∀ d, pgCtx d ≠ q₀) (k_chute : ∀ d i, pgChute d i ≠ q₀) (hU : Keeps q₀ s₀ s) : Keeps q₀ s₀ (retrain s d p cause) := by
  unfold retrain
  try dsimp only
  repeat' first
    | with_reducible assumption
    | with_reducible exact k_fence _
    | with_reducible exact k_memctl _
    | with_reducible exact k_chuteGlobal _
    | with_reducible exact k_mbox _ _
    | with_reducible exact k_hp _ _
    | with_reducible exact k_seam _
    | with_reducible exact k_echo _
    | with_reducible exact k_ctx _
    | with_reducible exact k_chute _ _
    | intro _
    | with_reducible apply ite_keeps
    | with_reducible apply setLink_keeps
    | with_reducible apply count_keeps
    | with_reducible apply abandonFrames_keeps
    | with_reducible apply setPort_keeps
    | split
    | with_reducible apply Keeps.lit

theorem giveUp_keeps {d : Nat} {p : Nat} {f : Frame} (k_fence : ∀ d, pgFence d ≠ q₀) (k_memctl : ∀ d, pgMemctl d ≠ q₀) (k_chuteGlobal : ∀ d, pgChuteGlobal d ≠ q₀) (k_mbox : ∀ d b, pgMbox d b ≠ q₀) (k_hp : ∀ d i, pgHp d i ≠ q₀) (k_seam : ∀ d, pgSeam d ≠ q₀) (k_echo : ∀ d, pgEcho d ≠ q₀) (k_ctx : ∀ d, pgCtx d ≠ q₀) (k_chute : ∀ d i, pgChute d i ≠ q₀) (hU : Keeps q₀ s₀ s) : Keeps q₀ s₀ (giveUp s d p f) := by
  unfold giveUp
  try dsimp only
  repeat' first
    | with_reducible assumption
    | with_reducible exact k_fence _
    | with_reducible exact k_memctl _
    | with_reducible exact k_chuteGlobal _
    | with_reducible exact k_mbox _ _
    | with_reducible exact k_hp _ _
    | with_reducible exact k_seam _
    | with_reducible exact k_echo _
    | with_reducible exact k_ctx _
    | with_reducible exact k_chute _ _
    | intro _
    | with_reducible apply ite_keeps
    | with_reducible apply raise_keeps
    | with_reducible apply count_keeps
    | with_reducible apply dropFrame_keeps
    | with_reducible apply setPort_keeps
    | with_reducible apply frameLost_keeps
    | with_reducible apply retrain_keeps
    | split
    | with_reducible apply Keeps.lit

theorem retransmit_keeps {d : Nat} {p : Nat} {f : Frame} (k_hp : ∀ d i, pgHp d i ≠ q₀) (hU : Keeps q₀ s₀ s) : Keeps q₀ s₀ (retransmit s d p f) := by
  unfold retransmit
  try dsimp only
  repeat' first
    | with_reducible assumption
    | with_reducible exact k_hp _ _
    | intro _
    | with_reducible apply ite_keeps
    | with_reducible apply raise_keeps
    | with_reducible apply count_keeps
    | with_reducible apply withRetry_keeps
    | with_reducible apply setPort_keeps
    | split
    | with_reducible apply Keeps.lit

theorem sendOrLose_keeps {d : Nat} {p : Nat} {inj : Nat} {f : Frame} (k_fence : ∀ d, pgFence d ≠ q₀) (k_memctl : ∀ d, pgMemctl d ≠ q₀) (k_chuteGlobal : ∀ d, pgChuteGlobal d ≠ q₀) (k_mbox : ∀ d b, pgMbox d b ≠ q₀) (k_hp : ∀ d i, pgHp d i ≠ q₀) (k_seam : ∀ d, pgSeam d ≠ q₀) (k_echo : ∀ d, pgEcho d ≠ q₀) (k_ctx : ∀ d, pgCtx d ≠ q₀) (k_chute : ∀ d i, pgChute d i ≠ q₀) (hU : Keeps q₀ s₀ s) : Keeps q₀ s₀ (sendOrLose s d p inj f) := by
  unfold sendOrLose
  try dsimp only
  repeat' first
    | with_reducible assumption
    | with_reducible exact k_fence _
    | with_reducible exact k_memctl _
    | with_reducible exact k_chuteGlobal _
    | with_reducible exact k_mbox _ _
    | with_reducible exact k_hp _ _
    | with_reducible exact k_seam _
    | with_reducible exact k_echo _
    | with_reducible exact k_ctx _
    | with_reducible exact k_chute _ _
    | intro _
    | with_reducible apply ite_keeps
    | with_reducible apply transmit_keeps
    | with_reducible apply frameLost_keeps
    | with_reducible apply giveUp_keeps
    | with_reducible apply queueFrame_keeps
    | split
    | with_reducible apply Keeps.lit

theorem stopNow_keeps {d : Nat} {p : Nat} (k_tb : ∀ d, pgTb d ≠ q₀) (hU : Keeps q₀ s₀ s) : Keeps q₀ s₀ (stopNow s d p) := by
  unfold stopNow
  try dsimp only
  repeat' first
    | with_reducible assumption
    | with_reducible exact k_tb _
    | intro _
    | with_reducible apply ite_keeps
    | with_reducible apply waitTick_keeps
    | with_reducible apply setPort_keeps
    | split
    | with_reducible apply Keeps.lit

theorem sendNext_keeps {d : Nat} {p : Nat} {f : Frame} (k_fence : ∀ d, pgFence d ≠ q₀) (k_inject : ∀ d, pgInject d ≠ q₀) (k_memctl : ∀ d, pgMemctl d ≠ q₀) (k_chuteGlobal : ∀ d, pgChuteGlobal d ≠ q₀) (k_mbox : ∀ d b, pgMbox d b ≠ q₀) (k_hp : ∀ d i, pgHp d i ≠ q₀) (k_seam : ∀ d, pgSeam d ≠ q₀) (k_echo : ∀ d, pgEcho d ≠ q₀) (k_ctx : ∀ d, pgCtx d ≠ q₀) (k_chute : ∀ d i, pgChute d i ≠ q₀) (hU : Keeps q₀ s₀ s) : Keeps q₀ s₀ (sendNext s d p f) := by
  unfold sendNext
  try dsimp only
  repeat' first
    | with_reducible assumption
    | with_reducible exact k_fence _
    | with_reducible exact k_inject _
    | with_reducible exact k_memctl _
    | with_reducible exact k_chuteGlobal _
    | with_reducible exact k_mbox _ _
    | with_reducible exact k_hp _ _
    | with_reducible exact k_seam _
    | with_reducible exact k_echo _
    | with_reducible exact k_ctx _
    | with_reducible exact k_chute _ _
    | intro _
    | with_reducible apply ite_keeps
    | with_reducible apply injPick_keeps
    | with_reducible apply setPort_keeps
    | with_reducible apply sendOrLose_keeps
    | (with_reducible refine pair_keeps (by assumption) ?_)
    | split
    | with_reducible apply Keeps.lit

theorem frameSend_keeps {d : Nat} {p : Nat} (k_tb : ∀ d, pgTb d ≠ q₀) (k_fence : ∀ d, pgFence d ≠ q₀) (k_inject : ∀ d, pgInject d ≠ q₀) (k_memctl : ∀ d, pgMemctl d ≠ q₀) (k_chuteGlobal : ∀ d, pgChuteGlobal d ≠ q₀) (k_mbox : ∀ d b, pgMbox d b ≠ q₀) (k_hp : ∀ d i, pgHp d i ≠ q₀) (k_seam : ∀ d, pgSeam d ≠ q₀) (k_echo : ∀ d, pgEcho d ≠ q₀) (k_ctx : ∀ d, pgCtx d ≠ q₀) (k_chute : ∀ d i, pgChute d i ≠ q₀) (hU : Keeps q₀ s₀ s) : Keeps q₀ s₀ (frameSend s d p) := by
  unfold frameSend
  try dsimp only
  repeat' first
    | with_reducible assumption
    | with_reducible exact k_tb _
    | with_reducible exact k_fence _
    | with_reducible exact k_inject _
    | with_reducible exact k_memctl _
    | with_reducible exact k_chuteGlobal _
    | with_reducible exact k_mbox _ _
    | with_reducible exact k_hp _ _
    | with_reducible exact k_seam _
    | with_reducible exact k_echo _
    | with_reducible exact k_ctx _
    | with_reducible exact k_chute _ _
    | intro _
    | with_reducible apply ite_keeps
    | with_reducible apply stopNow_keeps
    | with_reducible apply waitClock_keeps
    | with_reducible apply sendOrLose_keeps
    | with_reducible apply setPort_keeps
    | with_reducible apply sendNext_keeps
    | with_reducible apply unqueue_keeps
    | split
    | with_reducible apply Keeps.lit

theorem execFrameSend_kept {d : Nat} {p : Nat} (k_tb : ∀ d, pgTb d ≠ q₀) (k_fence : ∀ d, pgFence d ≠ q₀) (k_inject : ∀ d, pgInject d ≠ q₀) (k_memctl : ∀ d, pgMemctl d ≠ q₀) (k_chuteGlobal : ∀ d, pgChuteGlobal d ≠ q₀) (k_mbox : ∀ d b, pgMbox d b ≠ q₀) (k_hp : ∀ d i, pgHp d i ≠ q₀) (k_seam : ∀ d, pgSeam d ≠ q₀) (k_echo : ∀ d, pgEcho d ≠ q₀) (k_ctx : ∀ d, pgCtx d ≠ q₀) (k_chute : ∀ d i, pgChute d i ≠ q₀) (hU : Keeps q₀ s₀ s) : Kept q₀ s₀ (execFrameSend d p s) := by
  unfold execFrameSend
  try dsimp only
  repeat' first
    | with_reducible assumption
    | with_reducible exact k_tb _
    | with_reducible exact k_fence _
    | with_reducible exact k_inject _
    | with_reducible exact k_memctl _
    | with_reducible exact k_chuteGlobal _
    | with_reducible exact k_mbox _ _
    | with_reducible exact k_hp _ _
    | with_reducible exact k_seam _
    | with_reducible exact k_echo _
    | with_reducible exact k_ctx _
    | with_reducible exact k_chute _ _
    | intro _
    | with_reducible apply ok_kept
    | with_reducible apply ite_kept
    | with_reducible apply ite_keeps
    | with_reducible exact ok_kept (by assumption)
    | with_reducible apply frameSend_keeps
    | split
    | with_reducible apply Keeps.lit

theorem upBad_keeps {d : Nat} {p : Nat} (k_hp : ∀ d i, pgHp d i ≠ q₀) (hU : Keeps q₀ s₀ s) : Keeps q₀ s₀ (upBad s d p) := by
  unfold upBad
  try dsimp only
  repeat' first
    | with_reducible assumption
    | with_reducible exact k_hp _ _
    | intro _
    | with_reducible apply ite_keeps
    | with_reducible apply raise_keeps
    | with_reducible apply count_keeps
    | split
    | with_reducible apply Keeps.lit

theorem awaitEof_keeps {f : Frame} (k_tb : ∀ d, pgTb d ≠ q₀) (hU : Keeps q₀ s₀ s) : Keeps q₀ s₀ (awaitEof s f) := by
  unfold awaitEof
  try dsimp only
  repeat' first
    | with_reducible assumption
    | with_reducible exact k_tb _
    | intro _
    | with_reducible apply ite_keeps
    | with_reducible apply waitClock_keeps
    | split
    | with_reducible apply Keeps.lit

theorem ackTake_keeps {d : Nat} {p : Nat} {w : Word} (k_fence : ∀ d, pgFence d ≠ q₀) (k_memctl : ∀ d, pgMemctl d ≠ q₀) (k_chuteGlobal : ∀ d, pgChuteGlobal d ≠ q₀) (k_hp : ∀ d i, pgHp d i ≠ q₀) (k_seam : ∀ d, pgSeam d ≠ q₀) (k_echo : ∀ d, pgEcho d ≠ q₀) (k_ctx : ∀ d, pgCtx d ≠ q₀) (k_chute : ∀ d i, pgChute d i ≠ q₀) (hU : Keeps q₀ s₀ s) : Keeps q₀ s₀ (ackTake s d p w) := by
  unfold ackTake
  try dsimp only
  repeat' first
    | with_reducible assumption
    | with_reducible exact k_fence _
    | with_reducible exact k_memctl _
    | with_reducible exact k_chuteGlobal _
    | with_reducible exact k_hp _ _
    | with_reducible exact k_seam _
    | with_reducible exact k_echo _
    | with_reducible exact k_ctx _
    | with_reducible exact k_chute _ _
    | intro _
    | with_reducible apply ite_keeps
    | with_reducible apply count_keeps
    | with_reducible apply raise_keeps
    | with_reducible apply dropFrame_keeps
    | with_reducible apply frameEnd_keeps
    | with_reducible apply logRecord_keeps
    | with_reducible apply setPort_keeps
    | split
    | with_reducible apply Keeps.lit

theorem headFault_keeps {d : Nat} {p : Nat} (k_hp : ∀ d i, pgHp d i ≠ q₀) (hU : Keeps q₀ s₀ s) : Keeps q₀ s₀ (headFault s d p) := by
  unfold headFault
  try dsimp only
  repeat' first
    | with_reducible assumption
    | with_reducible exact k_hp _ _
    | intro _
    | with_reducible apply ite_keeps
    | with_reducible apply setDyn_keeps
    | split
    | with_reducible apply Keeps.lit

theorem flagFollow_keeps {d : Nat} {p : Nat} (k_thermal : ∀ d, pgThermal d ≠ q₀) (hU : Keeps q₀ s₀ s) : Keeps q₀ s₀ (flagFollow s d p) := by
  unfold flagFollow
  try dsimp only
  repeat' first
    | with_reducible assumption
    | with_reducible exact k_thermal _
    | intro _
    | with_reducible apply ite_keeps
    | with_reducible apply wb_keeps
    | with_reducible apply whenDo_keeps
    | with_reducible apply setTherm_keeps
    | split
    | with_reducible apply Keeps.lit

theorem statusTake_keeps {d : Nat} {p : Nat} {ws : List Word} (k_thermal : ∀ d, pgThermal d ≠ q₀) (k_hp : ∀ d i, pgHp d i ≠ q₀) (hU : Keeps q₀ s₀ s) : Keeps q₀ s₀ (statusTake s d p ws) := by
  unfold statusTake
  try dsimp only
  repeat' first
    | with_reducible assumption
    | with_reducible exact k_thermal _
    | with_reducible exact k_hp _ _
    | intro _
    | with_reducible apply ite_keeps
    | with_reducible apply wr_keeps
    | with_reducible apply countBy_keeps
    | with_reducible apply headFault_keeps
    | with_reducible apply flagFollow_keeps
    | with_reducible apply setPort_keeps
    | split
    | with_reducible apply Keeps.lit

theorem ackAwait_keeps {d : Nat} {p : Nat} {w : Word} (k_tb : ∀ d, pgTb d ≠ q₀) (hU : Keeps q₀ s₀ s) : Keeps q₀ s₀ (ackAwait s d p w) := by
  unfold ackAwait
  try dsimp only
  repeat' first
    | with_reducible assumption
    | with_reducible exact k_tb _
    | intro _
    | with_reducible apply ite_keeps
    | with_reducible apply awaitEof_keeps
    | split
    | with_reducible apply Keeps.lit

theorem upTake_keeps {d : Nat} {p : Nat} {ws : List Word} (k_tb : ∀ d, pgTb d ≠ q₀) (k_fence : ∀ d, pgFence d ≠ q₀) (k_thermal : ∀ d, pgThermal d ≠ q₀) (k_memctl : ∀ d, pgMemctl d ≠ q₀) (k_chuteGlobal : ∀ d, pgChuteGlobal d ≠ q₀) (k_hp : ∀ d i, pgHp d i ≠ q₀) (k_seam : ∀ d, pgSeam d ≠ q₀) (k_echo : ∀ d, pgEcho d ≠ q₀) (k_ctx : ∀ d, pgCtx d ≠ q₀) (k_chute : ∀ d i, pgChute d i ≠ q₀) (hU : Keeps q₀ s₀ s) : Keeps q₀ s₀ (upTake s d p ws) := by
  unfold upTake
  try dsimp only
  repeat' first
    | with_reducible assumption
    | with_reducible exact k_tb _
    | with_reducible exact k_fence _
    | with_reducible exact k_thermal _
    | with_reducible exact k_memctl _
    | with_reducible exact k_chuteGlobal _
    | with_reducible exact k_hp _ _
    | with_reducible exact k_seam _
    | with_reducible exact k_echo _
    | with_reducible exact k_ctx _
    | with_reducible exact k_chute _ _
    | intro _
    | with_reducible apply ite_keeps
    | with_reducible apply ackTake_keeps
    | with_reducible apply ackAwait_keeps
    | with_reducible apply statusTake_keeps
    | split
    | with_reducible apply Keeps.lit

theorem upFrame_keeps {d : Nat} {p : Nat} {cs : List Chr} (k_tb : ∀ d, pgTb d ≠ q₀) (k_fence : ∀ d, pgFence d ≠ q₀) (k_inject : ∀ d, pgInject d ≠ q₀) (k_thermal : ∀ d, pgThermal d ≠ q₀) (k_memctl : ∀ d, pgMemctl d ≠ q₀) (k_chuteGlobal : ∀ d, pgChuteGlobal d ≠ q₀) (k_hp : ∀ d i, pgHp d i ≠ q₀) (k_seam : ∀ d, pgSeam d ≠ q₀) (k_echo : ∀ d, pgEcho d ≠ q₀) (k_ctx : ∀ d, pgCtx d ≠ q₀) (k_chute : ∀ d i, pgChute d i ≠ q₀) (hU : Keeps q₀ s₀ s) : Keeps q₀ s₀ (upFrame s d p cs) := by
  unfold upFrame
  try dsimp only
  repeat' first
    | with_reducible assumption
    | with_reducible exact k_tb _
    | with_reducible exact k_fence _
    | with_reducible exact k_inject _
    | with_reducible exact k_thermal _
    | with_reducible exact k_memctl _
    | with_reducible exact k_chuteGlobal _
    | with_reducible exact k_hp _ _
    | with_reducible exact k_seam _
    | with_reducible exact k_echo _
    | with_reducible exact k_ctx _
    | with_reducible exact k_chute _ _
    | intro _
    | with_reducible apply ite_keeps
    | with_reducible apply upBad_keeps
    | with_reducible apply injPick_keeps
    | with_reducible apply setPort_keeps
    | with_reducible apply each_keeps
    | with_reducible apply upTake_keeps
    | (with_reducible refine pair_keeps (by assumption) ?_)
    | split
    | with_reducible apply Keeps.lit

theorem execAckReceive_kept {d : Nat} {p : Nat} {cs : List Chr} (k_tb : ∀ d, pgTb d ≠ q₀) (k_fence : ∀ d, pgFence d ≠ q₀) (k_inject : ∀ d, pgInject d ≠ q₀) (k_thermal : ∀ d, pgThermal d ≠ q₀) (k_memctl : ∀ d, pgMemctl d ≠ q₀) (k_chuteGlobal : ∀ d, pgChuteGlobal d ≠ q₀) (k_hp : ∀ d i, pgHp d i ≠ q₀) (k_seam : ∀ d, pgSeam d ≠ q₀) (k_echo : ∀ d, pgEcho d ≠ q₀) (k_ctx : ∀ d, pgCtx d ≠ q₀) (k_chute : ∀ d i, pgChute d i ≠ q₀) (hU : Keeps q₀ s₀ s) : Kept q₀ s₀ (execAckReceive d p cs s) := by
  unfold execAckReceive
  try dsimp only
  repeat' first
    | with_reducible assumption
    | with_reducible exact k_tb _
    | with_reducible exact k_fence _
    | with_reducible exact k_inject _
    | with_reducible exact k_thermal _
    | with_reducible exact k_memctl _
    | with_reducible exact k_chuteGlobal _
    | with_reducible exact k_hp _ _
    | with_reducible exact k_seam _
    | with_reducible exact k_echo _
    | with_reducible exact k_ctx _
    | with_reducible exact k_chute _ _
    | intro _
    | with_reducible apply ok_kept
    | with_reducible apply ite_kept
    | with_reducible apply ite_keeps
    | with_reducible exact ok_kept (by assumption)
    | with_reducible apply upFrame_keeps
    | split
    | with_reducible apply Keeps.lit

theorem execStatusReceive_kept {d : Nat} {p : Nat} {cs : List Chr} (k_tb : ∀ d, pgTb d ≠ q₀) (k_fence : ∀ d, pgFence d ≠ q₀) (k_inject : ∀ d, pgInject d ≠ q₀) (k_thermal : ∀ d, pgThermal d ≠ q₀) (k_memctl : ∀ d, pgMemctl d ≠ q₀) (k_chuteGlobal : ∀ d, pgChuteGlobal d ≠ q₀) (k_hp : ∀ d i, pgHp d i ≠ q₀) (k_seam : ∀ d, pgSeam d ≠ q₀) (k_echo : ∀ d, pgEcho d ≠ q₀) (k_ctx : ∀ d, pgCtx d ≠ q₀) (k_chute : ∀ d i, pgChute d i ≠ q₀) (hU : Keeps q₀ s₀ s) : Kept q₀ s₀ (execStatusReceive d p cs s) := by
  unfold execStatusReceive
  try dsimp only
  repeat' first
    | with_reducible assumption
    | with_reducible exact k_tb _
    | with_reducible exact k_fence _
    | with_reducible exact k_inject _
    | with_reducible exact k_thermal _
    | with_reducible exact k_memctl _
    | with_reducible exact k_chuteGlobal _
    | with_reducible exact k_hp _ _
    | with_reducible exact k_seam _
    | with_reducible exact k_echo _
    | with_reducible exact k_ctx _
    | with_reducible exact k_chute _ _
    | intro _
    | with_reducible apply ok_kept
    | with_reducible apply ite_kept
    | with_reducible apply ite_keeps
    | with_reducible exact ok_kept (by assumption)
    | with_reducible apply upFrame_keeps
    | split
    | with_reducible apply Keeps.lit

theorem ackTimeout_keeps {d : Nat} {p : Nat} {f : Frame} (k_fence : ∀ d, pgFence d ≠ q₀) (k_memctl : ∀ d, pgMemctl d ≠ q₀) (k_chuteGlobal : ∀ d, pgChuteGlobal d ≠ q₀) (k_mbox : ∀ d b, pgMbox d b ≠ q₀) (k_hp : ∀ d i, pgHp d i ≠ q₀) (k_seam : ∀ d, pgSeam d ≠ q₀) (k_echo : ∀ d, pgEcho d ≠ q₀) (k_ctx : ∀ d, pgCtx d ≠ q₀) (k_chute : ∀ d i, pgChute d i ≠ q₀) (hU : Keeps q₀ s₀ s) : Keeps q₀ s₀ (ackTimeout s d p f) := by
  unfold ackTimeout
  try dsimp only
  repeat' first
    | with_reducible assumption
    | with_reducible exact k_fence _
    | with_reducible exact k_memctl _
    | with_reducible exact k_chuteGlobal _
    | with_reducible exact k_mbox _ _
    | with_reducible exact k_hp _ _
    | with_reducible exact k_seam _
    | with_reducible exact k_echo _
    | with_reducible exact k_ctx _
    | with_reducible exact k_chute _ _
    | intro _
    | with_reducible apply ite_keeps
    | with_reducible apply retransmit_keeps
    | with_reducible apply giveUp_keeps
    | with_reducible apply queueFrame_keeps
    | split
    | with_reducible apply Keeps.lit

theorem execAckTimeout_kept {d : Nat} {p : Nat} {q : Nat} (k_tb : ∀ d, pgTb d ≠ q₀) (k_fence : ∀ d, pgFence d ≠ q₀) (k_memctl : ∀ d, pgMemctl d ≠ q₀) (k_chuteGlobal : ∀ d, pgChuteGlobal d ≠ q₀) (k_mbox : ∀ d b, pgMbox d b ≠ q₀) (k_hp : ∀ d i, pgHp d i ≠ q₀) (k_seam : ∀ d, pgSeam d ≠ q₀) (k_echo : ∀ d, pgEcho d ≠ q₀) (k_ctx : ∀ d, pgCtx d ≠ q₀) (k_chute : ∀ d i, pgChute d i ≠ q₀) (hU : Keeps q₀ s₀ s) : Kept q₀ s₀ (execAckTimeout d p q s) := by
  unfold execAckTimeout
  try dsimp only
  repeat' first
    | with_reducible assumption
    | with_reducible exact k_tb _
    | with_reducible exact k_fence _
    | with_reducible exact k_memctl _
    | with_reducible exact k_chuteGlobal _
    | with_reducible exact k_mbox _ _
    | with_reducible exact k_hp _ _
    | with_reducible exact k_seam _
    | with_reducible exact k_echo _
    | with_reducible exact k_ctx _
    | with_reducible exact k_chute _ _
    | intro _
    | with_reducible apply ok_kept
    | with_reducible apply ite_kept
    | with_reducible apply ite_keeps
    | with_reducible exact ok_kept (by assumption)
    | with_reducible apply ackTimeout_keeps
    | with_reducible apply waitClock_keeps
    | split
    | with_reducible apply Keeps.lit

theorem execStatusStale_kept {d : Nat} {p : Nat} (k_tb : ∀ d, pgTb d ≠ q₀) (k_hp : ∀ d i, pgHp d i ≠ q₀) (hU : Keeps q₀ s₀ s) : Kept q₀ s₀ (execStatusStale d p s) := by
  unfold execStatusStale
  try dsimp only
  repeat' first
    | with_reducible assumption
    | with_reducible exact k_tb _
    | with_reducible exact k_hp _ _
    | intro _
    | with_reducible apply ok_kept
    | with_reducible apply ite_kept
    | with_reducible apply ite_keeps
    | with_reducible exact ok_kept (by assumption)
    | with_reducible apply headFault_keeps
    | with_reducible apply wb_keeps
    | with_reducible apply waitClock_keeps
    | split
    | with_reducible apply Keeps.lit

theorem execUpstreamCodeErrors_kept {d : Nat} {p : Nat} (k_fence : ∀ d, pgFence d ≠ q₀) (k_memctl : ∀ d, pgMemctl d ≠ q₀) (k_chuteGlobal : ∀ d, pgChuteGlobal d ≠ q₀) (k_mbox : ∀ d b, pgMbox d b ≠ q₀) (k_hp : ∀ d i, pgHp d i ≠ q₀) (k_seam : ∀ d, pgSeam d ≠ q₀) (k_echo : ∀ d, pgEcho d ≠ q₀) (k_ctx : ∀ d, pgCtx d ≠ q₀) (k_chute : ∀ d i, pgChute d i ≠ q₀) (hU : Keeps q₀ s₀ s) : Kept q₀ s₀ (execUpstreamCodeErrors d p s) := by
  unfold execUpstreamCodeErrors
  try dsimp only
  repeat' first
    | with_reducible assumption
    | with_reducible exact k_fence _
    | with_reducible exact k_memctl _
    | with_reducible exact k_chuteGlobal _
    | with_reducible exact k_mbox _ _
    | with_reducible exact k_hp _ _
    | with_reducible exact k_seam _
    | with_reducible exact k_echo _
    | with_reducible exact k_ctx _
    | with_reducible exact k_chute _ _
    | intro _
    | with_reducible apply ok_kept
    | with_reducible apply ite_kept
    | with_reducible apply ite_keeps
    | with_reducible exact ok_kept (by assumption)
    | with_reducible apply retrain_keeps
    | split
    | with_reducible apply Keeps.lit

theorem linkFail_keeps {d : Nat} {p : Nat} {code : Nat} (k_mbox : ∀ d b, pgMbox d b ≠ q₀) (k_hp : ∀ d i, pgHp d i ≠ q₀) (hU : Keeps q₀ s₀ s) : Keeps q₀ s₀ (linkFail s d p code) := by
  unfold linkFail
  try dsimp only
  repeat' first
    | with_reducible assumption
    | with_reducible exact k_mbox _ _
    | with_reducible exact k_hp _ _
    | intro _
    | with_reducible apply ite_keeps
    | with_reducible apply setLink_keeps
    | with_reducible apply wf_keeps
    | with_reducible apply raise_keeps
    | with_reducible apply setPort_keeps
    | split
    | with_reducible apply Keeps.lit

theorem copyRecord_keeps {d : Nat} {p : Nat} {l : List Byte} (k_hp : ∀ d i, pgHp d i ≠ q₀) (hU : Keeps q₀ s₀ s) : Keeps q₀ s₀ (copyRecord s d p l) := by
  unfold copyRecord
  try dsimp only
  repeat' first
    | with_reducible assumption
    | with_reducible exact k_hp _ _
    | intro _
    | with_reducible apply ite_keeps
    | with_reducible apply wr_keeps
    | with_reducible apply wr48_keeps
    | split
    | with_reducible apply Keeps.lit

theorem discover_keeps {d : Nat} {p : Nat} {ans : Option (List Byte)} (k_mbox : ∀ d b, pgMbox d b ≠ q₀) (k_hp : ∀ d i, pgHp d i ≠ q₀) (hU : Keeps q₀ s₀ s) : Keeps q₀ s₀ (discover s d p ans) := by
  unfold discover
  try dsimp only
  repeat' first
    | with_reducible assumption
    | with_reducible exact k_mbox _ _
    | with_reducible exact k_hp _ _
    | intro _
    | with_reducible apply ite_keeps
    | with_reducible apply linkFail_keeps
    | with_reducible apply copyRecord_keeps
    | with_reducible apply setPort_keeps
    | with_reducible apply emit_keeps
    | with_reducible apply setLink_keeps
    | split
    | with_reducible apply Keeps.lit

theorem execLinkDiscovery_kept {d : Nat} {p : Nat} {ans : Option (List Byte)} (k_mbox : ∀ d b, pgMbox d b ≠ q₀) (k_hp : ∀ d i, pgHp d i ≠ q₀) (hU : Keeps q₀ s₀ s) : Kept q₀ s₀ (execLinkDiscovery d p ans s) := by
  unfold execLinkDiscovery
  try dsimp only
  repeat' first
    | with_reducible assumption
    | with_reducible exact k_mbox _ _
    | with_reducible exact k_hp _ _
    | intro _
    | with_reducible apply ok_kept
    | with_reducible apply ite_kept
    | with_reducible apply ite_keeps
    | with_reducible exact ok_kept (by assumption)
    | with_reducible apply discover_keeps
    | split
    | with_reducible apply Keeps.lit

theorem execDiscoveryRepeat_kept {d : Nat} {p : Nat} (k_tb : ∀ d, pgTb d ≠ q₀) (k_mbox : ∀ d b, pgMbox d b ≠ q₀) (k_hp : ∀ d i, pgHp d i ≠ q₀) (hU : Keeps q₀ s₀ s) : Kept q₀ s₀ (execDiscoveryRepeat d p s) := by
  unfold execDiscoveryRepeat
  try dsimp only
  repeat' first
    | with_reducible assumption
    | with_reducible exact k_tb _
    | with_reducible exact k_mbox _ _
    | with_reducible exact k_hp _ _
    | intro _
    | with_reducible apply ok_kept
    | with_reducible apply ite_kept
    | with_reducible apply ite_keeps
    | with_reducible exact ok_kept (by assumption)
    | with_reducible apply setLink_keeps
    | with_reducible apply waitClock_keeps
    | split
    | with_reducible apply Keeps.lit

theorem portRunning_keeps {d : Nat} {p : Nat} (k_hp : ∀ d i, pgHp d i ≠ q₀) (hU : Keeps q₀ s₀ s) : Keeps q₀ s₀ (portRunning s d p) := by
  unfold portRunning
  try dsimp only
  repeat' first
    | with_reducible assumption
    | with_reducible exact k_hp _ _
    | intro _
    | with_reducible apply ite_keeps
    | with_reducible apply setPstate_keeps
    | with_reducible apply setPort_keeps
    | with_reducible apply streamFollow_keeps
    | with_reducible apply htrFollow_keeps
    | split
    | with_reducible apply Keeps.lit

theorem trainSets_keeps {d : Nat} {p : Nat} {n : Nat} (hU : Keeps q₀ s₀ s) : Keeps q₀ s₀ (trainSets s d p n) := by
  unfold trainSets
  try dsimp only
  repeat' first
    | with_reducible assumption
    | intro _
    | with_reducible apply ite_keeps
    | with_reducible apply whenDo_keeps
    | with_reducible apply emit_keeps
    | split
    | with_reducible apply Keeps.lit

theorem linkUp_keeps {d : Nat} {p : Nat} (k_mbox : ∀ d b, pgMbox d b ≠ q₀) (k_hp : ∀ d i, pgHp d i ≠ q₀) (hU : Keeps q₀ s₀ s) : Keeps q₀ s₀ (linkUp s d p) := by
  unfold linkUp
  try dsimp only
  repeat' first
    | with_reducible assumption
    | with_reducible exact k_mbox _ _
    | with_reducible exact k_hp _ _
    | intro _
    | with_reducible apply ite_keeps
    | with_reducible apply trainSets_keeps
    | with_reducible apply setLink_keeps
    | with_reducible apply setPort_keeps
    | with_reducible apply wb_keeps
    | with_reducible apply portRunning_keeps
    | split
    | with_reducible apply Keeps.lit

theorem execLinkUp_kept {d : Nat} {p : Nat} (k_mbox : ∀ d b, pgMbox d b ≠ q₀) (k_hp : ∀ d i, pgHp d i ≠ q₀) (hU : Keeps q₀ s₀ s) : Kept q₀ s₀ (execLinkUp d p s) := by
  unfold execLinkUp
  try dsimp only
  repeat' first
    | with_reducible assumption
    | with_reducible exact k_mbox _ _
    | with_reducible exact k_hp _ _
    | intro _
    | with_reducible apply ok_kept
    | with_reducible apply ite_kept
    | with_reducible apply ite_keeps
    | with_reducible exact ok_kept (by assumption)
    | with_reducible apply linkUp_keeps
    | split
    | with_reducible apply Keeps.lit

end Sys2Proof.Laws
end

