-- ==== Sys2Proof/Laws/EchoReg.lean ====
section
/-!
SUPPORT. The register pages that each operation of `Machine/Echo.lean` may write: every other page reads as before.
-/

set_option Elab.async false
set_option linter.unusedTactic false
set_option linter.unreachableTactic false
namespace Sys2Proof.Laws

open Sys2Proof.Machine

variable {q₀ : Pg} {s₀ s : State}

theorem readEntry_keeps {d : Nat} {ptr : Nat} {i : Nat} (k_fence : ∀ d, pgFence d ≠ q₀) (k_memctl : ∀ d, pgMemctl d ≠ q₀) (k_chuteGlobal : ∀ d, pgChuteGlobal d ≠ q₀) (k_chute : ∀ d i, pgChute d i ≠ q₀) (hU : Keeps q₀ s₀ s) : Keeps q₀ s₀ (readEntry s d ptr i).2 := by
  unfold readEntry
  try dsimp only
  repeat' first
    | with_reducible assumption
    | with_reducible exact k_fence _
    | with_reducible exact k_memctl _
    | with_reducible exact k_chuteGlobal _
    | with_reducible exact k_chute _ _
    | intro _
    | with_reducible apply ite_keeps
    | with_reducible apply readWords_keeps
    | (with_reducible refine trip_keeps (by assumption) ?_)
    | split
    | with_reducible apply Keeps.lit

theorem writeEntry_keeps {d : Nat} {k : Nat} {ptr : Nat} {i : Nat} {x : NozEntry} (hU : Keeps q₀ s₀ s) : Keeps q₀ s₀ (writeEntry s d k ptr i x) := by
  unfold writeEntry
  try dsimp only
  repeat' first
    | with_reducible assumption
    | intro _
    | with_reducible apply ite_keeps
    | with_reducible apply lodeWrites_keeps
    | with_reducible apply setCtx_keeps
    | split
    | with_reducible apply Keeps.lit

theorem features_keeps {h8 : Int} {base : List Nat} {win : List Nat} (hU : Keeps q₀ s₀ s) : Keeps q₀ s₀ (features s h8 base win).2 := by
  unfold features
  try dsimp only
  repeat' first
    | with_reducible assumption
    | intro _
    | with_reducible apply ite_keeps
    | with_reducible apply nextFree_keeps
    | split
    | with_reducible apply Keeps.lit

theorem judge_keeps {d : Nat} {m : Meas} {x : NozEntry} {base : List Nat} {win : List Nat} (hU : Keeps q₀ s₀ s) : Keeps q₀ s₀ (judge s d m x base win).2 := by
  unfold judge
  try dsimp only
  repeat' first
    | with_reducible assumption
    | intro _
    | with_reducible apply ite_keeps
    | with_reducible apply features_keeps
    | with_reducible apply nextFree_keeps
    | (with_reducible refine pair_keeps (by assumption) ?_)
    | split
    | with_reducible apply Keeps.lit

theorem trimStep_keeps {d : Nat} {k : Nat} {i : Nat} {x : NozEntry} {dist : Nat} (k_chuteGlobal : ∀ d, pgChuteGlobal d ≠ q₀) (k_echo : ∀ d, pgEcho d ≠ q₀) (k_chute : ∀ d i, pgChute d i ≠ q₀) (hU : Keeps q₀ s₀ s) : Keeps q₀ s₀ (trimStep s d k i x dist).2 := by
  unfold trimStep
  try dsimp only
  repeat' first
    | with_reducible assumption
    | with_reducible exact k_chuteGlobal _
    | with_reducible exact k_echo _
    | with_reducible exact k_chute _ _
    | intro _
    | with_reducible apply ite_keeps
    | with_reducible apply raise_keeps
    | with_reducible apply count_keeps
    | with_reducible apply nozRecord_keeps
    | split
    | with_reducible apply Keeps.lit

theorem applyValid_keeps {d : Nat} {k : Nat} {i : Nat} {x0 : NozEntry} {v : Verd} (k_chuteGlobal : ∀ d, pgChuteGlobal d ≠ q₀) (k_echo : ∀ d, pgEcho d ≠ q₀) (k_chute : ∀ d i, pgChute d i ≠ q₀) (hU : Keeps q₀ s₀ s) : Keeps q₀ s₀ (applyValid s d k i x0 v).2 := by
  unfold applyValid
  try dsimp only
  repeat' first
    | with_reducible assumption
    | with_reducible exact k_chuteGlobal _
    | with_reducible exact k_echo _
    | with_reducible exact k_chute _ _
    | intro _
    | with_reducible apply ite_keeps
    | with_reducible apply raise_keeps
    | with_reducible apply count_keeps
    | with_reducible apply nozRecord_keeps
    | with_reducible apply trimStep_keeps
    | (with_reducible refine pair_keeps (by assumption) ?_)
    | split
    | with_reducible apply Keeps.lit

theorem resultRecord_keeps {d : Nat} {m : Meas} {v : Verd} (k_chuteGlobal : ∀ d, pgChuteGlobal d ≠ q₀) (k_chute : ∀ d i, pgChute d i ≠ q₀) (hU : Keeps q₀ s₀ s) : Keeps q₀ s₀ (resultRecord s d m v) := by
  unfold resultRecord
  try dsimp only
  repeat' first
    | with_reducible assumption
    | with_reducible exact k_chuteGlobal _
    | with_reducible exact k_chute _ _
    | intro _
    | with_reducible apply ite_keeps
    | with_reducible apply setDie_keeps
    | with_reducible apply chuteRecord_keeps
    | split
    | with_reducible apply Keeps.lit

theorem sweepResult_keeps {d : Nat} {m : Meas} {v : Verd} (k_fence : ∀ d, pgFence d ≠ q₀) (k_memctl : ∀ d, pgMemctl d ≠ q₀) (k_chuteGlobal : ∀ d, pgChuteGlobal d ≠ q₀) (k_echo : ∀ d, pgEcho d ≠ q₀) (k_chute : ∀ d i, pgChute d i ≠ q₀) (hU : Keeps q₀ s₀ s) : Keeps q₀ s₀ (sweepResult s d m v) := by
  unfold sweepResult
  try dsimp only
  repeat' first
    | with_reducible assumption
    | with_reducible exact k_fence _
    | with_reducible exact k_memctl _
    | with_reducible exact k_chuteGlobal _
    | with_reducible exact k_echo _
    | with_reducible exact k_chute _ _
    | intro _
    | with_reducible apply ite_keeps
    | with_reducible apply setEcho_keeps
    | with_reducible apply readEntry_keeps
    | with_reducible apply sweepNext_keeps
    | with_reducible apply writeEntry_keeps
    | with_reducible apply nozRecord_keeps
    | (with_reducible refine pair_keeps (by assumption) ?_)
    | split
    | with_reducible apply Keeps.lit

theorem echoApply_keeps {d : Nat} {m : Meas} {base : List Nat} {win : List Nat} (k_fence : ∀ d, pgFence d ≠ q₀) (k_memctl : ∀ d, pgMemctl d ≠ q₀) (k_chuteGlobal : ∀ d, pgChuteGlobal d ≠ q₀) (k_echo : ∀ d, pgEcho d ≠ q₀) (k_chute : ∀ d i, pgChute d i ≠ q₀) (hU : Keeps q₀ s₀ s) : Keeps q₀ s₀ (echoApply s d m base win) := by
  unfold echoApply
  try dsimp only
  repeat' first
    | with_reducible assumption
    | with_reducible exact k_fence _
    | with_reducible exact k_memctl _
    | with_reducible exact k_chuteGlobal _
    | with_reducible exact k_echo _
    | with_reducible exact k_chute _ _
    | intro _
    | with_reducible apply ite_keeps
    | with_reducible apply readEntry_keeps
    | with_reducible apply judge_keeps
    | with_reducible apply count_keeps
    | with_reducible apply raise_keeps
    | with_reducible apply resultRecord_keeps
    | with_reducible apply sweepResult_keeps
    | with_reducible apply writeEntry_keeps
    | with_reducible apply applyValid_keeps
    | (with_reducible refine pair_keeps (by assumption) ?_)
    | split
    | with_reducible apply Keeps.lit

theorem execEchoResult_kept {d : Nat} {base : List Nat} {win : List Nat} (k_fence : ∀ d, pgFence d ≠ q₀) (k_memctl : ∀ d, pgMemctl d ≠ q₀) (k_chuteGlobal : ∀ d, pgChuteGlobal d ≠ q₀) (k_echo : ∀ d, pgEcho d ≠ q₀) (k_chute : ∀ d i, pgChute d i ≠ q₀) (hU : Keeps q₀ s₀ s) : Kept q₀ s₀ (execEchoResult d base win s) := by
  unfold execEchoResult
  try dsimp only
  repeat' first
    | with_reducible assumption
    | with_reducible exact k_fence _
    | with_reducible exact k_memctl _
    | with_reducible exact k_chuteGlobal _
    | with_reducible exact k_echo _
    | with_reducible exact k_chute _ _
    | intro _
    | with_reducible apply ok_kept
    | with_reducible apply ite_kept
    | with_reducible apply ite_keeps
    | with_reducible exact ok_kept (by assumption)
    | with_reducible apply echoApply_keeps
    | with_reducible apply setEcho_keeps
    | split
    | with_reducible apply Keeps.lit

theorem sweepStart_keeps {r : Req} {d : Nat} (k_echo : ∀ d, pgEcho d ≠ q₀) (hU : Keeps q₀ s₀ s) : Keeps q₀ s₀ (sweepStart r d s) := by
  unfold sweepStart
  try dsimp only
  repeat' first
    | with_reducible assumption
    | with_reducible exact k_echo _
    | intro _
    | with_reducible apply ite_keeps
    | with_reducible apply wr_keeps
    | with_reducible apply logErr_keeps
    | with_reducible apply setEcho_keeps
    | split
    | with_reducible apply Keeps.lit

theorem sweepAbort_keeps {d : Nat} (k_echo : ∀ d, pgEcho d ≠ q₀) (hU : Keeps q₀ s₀ s) : Keeps q₀ s₀ (sweepAbort d s) := by
  unfold sweepAbort
  try dsimp only
  repeat' first
    | with_reducible assumption
    | with_reducible exact k_echo _
    | intro _
    | with_reducible apply ite_keeps
    | with_reducible apply sweepEnd_keeps
    | split
    | with_reducible apply Keeps.lit

theorem execSweepStart_kept {r : Req} {d : Nat} (k_echo : ∀ d, pgEcho d ≠ q₀) (k_pcie : pgPcie ≠ q₀) (k_guard : ∀ d, pgGuard d ≠ q₀) (hU : Keeps q₀ s₀ s) : Kept q₀ s₀ (execSweepStart r d s) := by
  unfold execSweepStart
  try dsimp only
  repeat' first
    | with_reducible assumption
    | with_reducible exact k_echo _
    | with_reducible exact k_pcie
    | with_reducible exact k_guard _
    | intro _
    | with_reducible apply ok_kept
    | with_reducible apply ite_kept
    | with_reducible apply ite_keeps
    | with_reducible exact ok_kept (by assumption)
    | with_reducible apply guardedWrite_keeps
    | with_reducible apply sweepStart_keeps
    | split
    | with_reducible apply Keeps.lit

theorem execSweepAbort_kept {r : Req} {d : Nat} (k_echo : ∀ d, pgEcho d ≠ q₀) (k_pcie : pgPcie ≠ q₀) (k_guard : ∀ d, pgGuard d ≠ q₀) (hU : Keeps q₀ s₀ s) : Kept q₀ s₀ (execSweepAbort r d s) := by
  unfold execSweepAbort
  try dsimp only
  repeat' first
    | with_reducible assumption
    | with_reducible exact k_echo _
    | with_reducible exact k_pcie
    | with_reducible exact k_guard _
    | intro _
    | with_reducible apply ok_kept
    | with_reducible apply ite_kept
    | with_reducible apply ite_keeps
    | with_reducible exact ok_kept (by assumption)
    | with_reducible apply guardedWrite_keeps
    | with_reducible apply sweepAbort_keeps
    | split
    | with_reducible apply Keeps.lit

theorem nzResult_keeps {d : Nat} {op : Nat} {res : Nat} (k_echo : ∀ d, pgEcho d ≠ q₀) (hU : Keeps q₀ s₀ s) : Keeps q₀ s₀ (nzResult s d op res) := by
  unfold nzResult
  try dsimp only
  repeat' first
    | with_reducible assumption
    | with_reducible exact k_echo _
    | intro _
    | with_reducible apply ite_keeps
    | with_reducible apply wr_keeps
    | with_reducible apply raise_keeps
    | split
    | with_reducible apply Keeps.lit

theorem nzCmd_keeps {d : Nat} {op : Nat} {arg : Nat} (k_fence : ∀ d, pgFence d ≠ q₀) (k_memctl : ∀ d, pgMemctl d ≠ q₀) (k_chuteGlobal : ∀ d, pgChuteGlobal d ≠ q₀) (k_echo : ∀ d, pgEcho d ≠ q₀) (k_chute : ∀ d i, pgChute d i ≠ q₀) (hU : Keeps q₀ s₀ s) : Keeps q₀ s₀ (nzCmd d op arg s) := by
  unfold nzCmd
  try dsimp only
  repeat' first
    | with_reducible assumption
    | with_reducible exact k_fence _
    | with_reducible exact k_memctl _
    | with_reducible exact k_chuteGlobal _
    | with_reducible exact k_echo _
    | with_reducible exact k_chute _ _
    | intro _
    | with_reducible apply ite_keeps
    | with_reducible apply nzResult_keeps
    | with_reducible apply readEntry_keeps
    | with_reducible apply writeEntry_keeps
    | with_reducible apply nozRecord_keeps
    | (with_reducible refine pair_keeps (by assumption) ?_)
    | split
    | with_reducible apply Keeps.lit

theorem execSetState_kept {r : Req} {d : Nat} {arg : Nat} (k_fence : ∀ d, pgFence d ≠ q₀) (k_memctl : ∀ d, pgMemctl d ≠ q₀) (k_chuteGlobal : ∀ d, pgChuteGlobal d ≠ q₀) (k_echo : ∀ d, pgEcho d ≠ q₀) (k_pcie : pgPcie ≠ q₀) (k_chute : ∀ d i, pgChute d i ≠ q₀) (k_guard : ∀ d, pgGuard d ≠ q₀) (hU : Keeps q₀ s₀ s) : Kept q₀ s₀ (execSetState r d arg s) := by
  unfold execSetState
  try dsimp only
  repeat' first
    | with_reducible assumption
    | with_reducible exact k_fence _
    | with_reducible exact k_memctl _
    | with_reducible exact k_chuteGlobal _
    | with_reducible exact k_echo _
    | with_reducible exact k_pcie
    | with_reducible exact k_chute _ _
    | with_reducible exact k_guard _
    | intro _
    | with_reducible apply ok_kept
    | with_reducible apply ite_kept
    | with_reducible apply ite_keeps
    | with_reducible exact ok_kept (by assumption)
    | with_reducible apply guardedWrite_keeps
    | with_reducible apply nzCmd_keeps
    | split
    | with_reducible apply Keeps.lit

theorem execSetTrim_kept {r : Req} {d : Nat} {arg : Nat} (k_fence : ∀ d, pgFence d ≠ q₀) (k_memctl : ∀ d, pgMemctl d ≠ q₀) (k_chuteGlobal : ∀ d, pgChuteGlobal d ≠ q₀) (k_echo : ∀ d, pgEcho d ≠ q₀) (k_pcie : pgPcie ≠ q₀) (k_chute : ∀ d i, pgChute d i ≠ q₀) (k_guard : ∀ d, pgGuard d ≠ q₀) (hU : Keeps q₀ s₀ s) : Kept q₀ s₀ (execSetTrim r d arg s) := by
  unfold execSetTrim
  try dsimp only
  repeat' first
    | with_reducible assumption
    | with_reducible exact k_fence _
    | with_reducible exact k_memctl _
    | with_reducible exact k_chuteGlobal _
    | with_reducible exact k_echo _
    | with_reducible exact k_pcie
    | with_reducible exact k_chute _ _
    | with_reducible exact k_guard _
    | intro _
    | with_reducible apply ok_kept
    | with_reducible apply ite_kept
    | with_reducible apply ite_keeps
    | with_reducible exact ok_kept (by assumption)
    | with_reducible apply guardedWrite_keeps
    | with_reducible apply nzCmd_keeps
    | split
    | with_reducible apply Keeps.lit

theorem execClearHist_kept {r : Req} {d : Nat} (k_fence : ∀ d, pgFence d ≠ q₀) (k_memctl : ∀ d, pgMemctl d ≠ q₀) (k_chuteGlobal : ∀ d, pgChuteGlobal d ≠ q₀) (k_echo : ∀ d, pgEcho d ≠ q₀) (k_pcie : pgPcie ≠ q₀) (k_chute : ∀ d i, pgChute d i ≠ q₀) (k_guard : ∀ d, pgGuard d ≠ q₀) (hU : Keeps q₀ s₀ s) : Kept q₀ s₀ (execClearHist r d s) := by
  unfold execClearHist
  try dsimp only
  repeat' first
    | with_reducible assumption
    | with_reducible exact k_fence _
    | with_reducible exact k_memctl _
    | with_reducible exact k_chuteGlobal _
    | with_reducible exact k_echo _
    | with_reducible exact k_pcie
    | with_reducible exact k_chute _ _
    | with_reducible exact k_guard _
    | intro _
    | with_reducible apply ok_kept
    | with_reducible apply ite_kept
    | with_reducible apply ite_keeps
    | with_reducible exact ok_kept (by assumption)
    | with_reducible apply guardedWrite_keeps
    | with_reducible apply nzCmd_keeps
    | split
    | with_reducible apply Keeps.lit

theorem execRefInvalid_kept {r : Req} {d : Nat} (k_fence : ∀ d, pgFence d ≠ q₀) (k_memctl : ∀ d, pgMemctl d ≠ q₀) (k_chuteGlobal : ∀ d, pgChuteGlobal d ≠ q₀) (k_echo : ∀ d, pgEcho d ≠ q₀) (k_pcie : pgPcie ≠ q₀) (k_chute : ∀ d i, pgChute d i ≠ q₀) (k_guard : ∀ d, pgGuard d ≠ q₀) (hU : Keeps q₀ s₀ s) : Kept q₀ s₀ (execRefInvalid r d s) := by
  unfold execRefInvalid
  try dsimp only
  repeat' first
    | with_reducible assumption
    | with_reducible exact k_fence _
    | with_reducible exact k_memctl _
    | with_reducible exact k_chuteGlobal _
    | with_reducible exact k_echo _
    | with_reducible exact k_pcie
    | with_reducible exact k_chute _ _
    | with_reducible exact k_guard _
    | intro _
    | with_reducible apply ok_kept
    | with_reducible apply ite_kept
    | with_reducible apply ite_keeps
    | with_reducible exact ok_kept (by assumption)
    | with_reducible apply guardedWrite_keeps
    | with_reducible apply nzCmd_keeps
    | split
    | with_reducible apply Keeps.lit

theorem execRefValid_kept {r : Req} {d : Nat} (k_fence : ∀ d, pgFence d ≠ q₀) (k_memctl : ∀ d, pgMemctl d ≠ q₀) (k_chuteGlobal : ∀ d, pgChuteGlobal d ≠ q₀) (k_echo : ∀ d, pgEcho d ≠ q₀) (k_pcie : pgPcie ≠ q₀) (k_chute : ∀ d i, pgChute d i ≠ q₀) (k_guard : ∀ d, pgGuard d ≠ q₀) (hU : Keeps q₀ s₀ s) : Kept q₀ s₀ (execRefValid r d s) := by
  unfold execRefValid
  try dsimp only
  repeat' first
    | with_reducible assumption
    | with_reducible exact k_fence _
    | with_reducible exact k_memctl _
    | with_reducible exact k_chuteGlobal _
    | with_reducible exact k_echo _
    | with_reducible exact k_pcie
    | with_reducible exact k_chute _ _
    | with_reducible exact k_guard _
    | intro _
    | with_reducible apply ok_kept
    | with_reducible apply ite_kept
    | with_reducible apply ite_keeps
    | with_reducible exact ok_kept (by assumption)
    | with_reducible apply guardedWrite_keeps
    | with_reducible apply nzCmd_keeps
    | split
    | with_reducible apply Keeps.lit

theorem execLockTrim_kept {r : Req} {d : Nat} {arg : Nat} (k_fence : ∀ d, pgFence d ≠ q₀) (k_memctl : ∀ d, pgMemctl d ≠ q₀) (k_chuteGlobal : ∀ d, pgChuteGlobal d ≠ q₀) (k_echo : ∀ d, pgEcho d ≠ q₀) (k_pcie : pgPcie ≠ q₀) (k_chute : ∀ d i, pgChute d i ≠ q₀) (k_guard : ∀ d, pgGuard d ≠ q₀) (hU : Keeps q₀ s₀ s) : Kept q₀ s₀ (execLockTrim r d arg s) := by
  unfold execLockTrim
  try dsimp only
  repeat' first
    | with_reducible assumption
    | with_reducible exact k_fence _
    | with_reducible exact k_memctl _
    | with_reducible exact k_chuteGlobal _
    | with_reducible exact k_echo _
    | with_reducible exact k_pcie
    | with_reducible exact k_chute _ _
    | with_reducible exact k_guard _
    | intro _
    | with_reducible apply ok_kept
    | with_reducible apply ite_kept
    | with_reducible apply ite_keeps
    | with_reducible exact ok_kept (by assumption)
    | with_reducible apply guardedWrite_keeps
    | with_reducible apply nzCmd_keeps
    | split
    | with_reducible apply Keeps.lit

theorem mapLoad_keeps {x0 : Nat} {x2 : Nat} {x3 : Nat} {x4 : Nat} {x5 : Tbl Nat NzMap} (k_fence : ∀ d, pgFence d ≠ q₀) (k_memctl : ∀ d, pgMemctl d ≠ q₀) (k_chuteGlobal : ∀ d, pgChuteGlobal d ≠ q₀) (k_seam : ∀ d, pgSeam d ≠ q₀) (k_echo : ∀ d, pgEcho d ≠ q₀) (k_ctx : ∀ d, pgCtx d ≠ q₀) (k_chute : ∀ d i, pgChute d i ≠ q₀) (hU : Keeps q₀ s₀ s) : Keeps q₀ s₀ (mapLoad x0 s x2 x3 x4 x5) := by
  induction x0 generalizing s x2 x3 x4 x5 with
  | zero => exact setCtx_keeps hU
  | succ n ih =>
    unfold mapLoad
    try dsimp only
    repeat' first
      | with_reducible assumption
      | with_reducible apply ih
      | with_reducible exact k_fence _
      | with_reducible exact k_memctl _
      | with_reducible exact k_chuteGlobal _
      | with_reducible exact k_seam _
      | with_reducible exact k_echo _
      | with_reducible exact k_ctx _
      | with_reducible exact k_chute _ _
      | intro _
      | with_reducible apply ite_keeps
      | with_reducible apply setCtx_keeps
      | with_reducible apply ctxRead_keeps
      | (with_reducible refine trip_keeps (by assumption) ?_)
      | split
      | with_reducible apply Keeps.lit

theorem execNozzleMapLoadDone_kept {d : Nat} {k : Nat} (k_fence : ∀ d, pgFence d ≠ q₀) (k_memctl : ∀ d, pgMemctl d ≠ q₀) (k_chuteGlobal : ∀ d, pgChuteGlobal d ≠ q₀) (k_seam : ∀ d, pgSeam d ≠ q₀) (k_echo : ∀ d, pgEcho d ≠ q₀) (k_ctx : ∀ d, pgCtx d ≠ q₀) (k_chute : ∀ d i, pgChute d i ≠ q₀) (hU : Keeps q₀ s₀ s) : Kept q₀ s₀ (execNozzleMapLoadDone d k s) := by
  unfold execNozzleMapLoadDone
  try dsimp only
  repeat' first
    | with_reducible assumption
    | with_reducible exact k_fence _
    | with_reducible exact k_memctl _
    | with_reducible exact k_chuteGlobal _
    | with_reducible exact k_seam _
    | with_reducible exact k_echo _
    | with_reducible exact k_ctx _
    | with_reducible exact k_chute _ _
    | intro _
    | with_reducible apply ok_kept
    | with_reducible apply ite_kept
    | with_reducible apply ite_keeps
    | with_reducible exact ok_kept (by assumption)
    | with_reducible apply mapLoad_keeps
    | split
    | with_reducible apply Keeps.lit

end Sys2Proof.Laws
end

