-- ==== Sys2Proof/Laws/ThermalReg.lean ====
section
/-!
SUPPORT. The register pages that each operation of `Machine/Thermal.lean` may write: every other page reads as before.
-/

set_option Elab.async false
set_option linter.unusedTactic false
set_option linter.unreachableTactic false
namespace Sys2Proof.Laws

open Sys2Proof.Machine

variable {q₀ : Pg} {s₀ s : State}

theorem thStat_keeps {d : Nat} (k_thermal : ∀ d, pgThermal d ≠ q₀) (hU : Keeps q₀ s₀ s) : Keeps q₀ s₀ (thStat s d) := by
  unfold thStat
  try dsimp only
  repeat' first
    | with_reducible assumption
    | with_reducible exact k_thermal _
    | intro _
    | with_reducible apply ite_keeps
    | with_reducible apply wb_keeps
    | with_reducible apply wf_keeps
    | with_reducible apply each_keeps
    | split
    | with_reducible apply Keeps.lit

theorem throtFollow_keeps (hU : Keeps q₀ s₀ s) : Keeps q₀ s₀ (throtFollow s) := by
  unfold throtFollow
  try dsimp only
  repeat' first
    | with_reducible assumption
    | intro _
    | with_reducible apply ite_keeps
    | split
    | with_reducible apply Keeps.lit

theorem setScope_keeps {d : Nat} {o : Option Nat} {x : ScopeSt} (k_thermal : ∀ d, pgThermal d ≠ q₀) (hU : Keeps q₀ s₀ s) : Keeps q₀ s₀ (setScope s d o x) := by
  unfold setScope
  try dsimp only
  repeat' first
    | with_reducible assumption
    | with_reducible exact k_thermal _
    | intro _
    | with_reducible apply ite_keeps
    | with_reducible apply throtFollow_keeps
    | with_reducible apply thStat_keeps
    | with_reducible apply setTherm_keeps
    | split
    | with_reducible apply Keeps.lit

theorem thRecord_keeps {d : Nat} {type : Nat} {which : Nat} {isDie : Bool} {bits : Nat} {temp : Int} {w2 : Word} {w3 : Word} (k_chuteGlobal : ∀ d, pgChuteGlobal d ≠ q₀) (k_chute : ∀ d i, pgChute d i ≠ q₀) (hU : Keeps q₀ s₀ s) : Keeps q₀ s₀ (thRecord s d type which isDie bits temp w2 w3) := by
  unfold thRecord
  try dsimp only
  repeat' first
    | with_reducible assumption
    | with_reducible exact k_chuteGlobal _
    | with_reducible exact k_chute _ _
    | intro _
    | with_reducible apply ite_keeps
    | with_reducible apply setDie_keeps
    | with_reducible apply chuteRecord_keeps
    | split
    | with_reducible apply Keeps.lit

theorem scopeRecord_keeps {d : Nat} {type : Nat} {o : Option Nat} {bits : Nat} (k_chuteGlobal : ∀ d, pgChuteGlobal d ≠ q₀) (k_chute : ∀ d i, pgChute d i ≠ q₀) (hU : Keeps q₀ s₀ s) : Keeps q₀ s₀ (scopeRecord s d type o bits) := by
  unfold scopeRecord
  try dsimp only
  repeat' first
    | with_reducible assumption
    | with_reducible exact k_chuteGlobal _
    | with_reducible exact k_chute _ _
    | intro _
    | with_reducible apply ite_keeps
    | with_reducible apply thRecord_keeps
    | split
    | with_reducible apply Keeps.lit

theorem execHeaterUpdate_kept {d : Nat} {p : Nat} (k_tb : ∀ d, pgTb d ≠ q₀) (k_hp : ∀ d i, pgHp d i ≠ q₀) (hU : Keeps q₀ s₀ s) : Kept q₀ s₀ (execHeaterUpdate d p s) := by
  unfold execHeaterUpdate
  try dsimp only
  repeat' first
    | with_reducible assumption
    | with_reducible exact k_tb _
    | with_reducible exact k_hp _ _
    | intro _
    | with_reducible apply ok_kept
    | with_reducible apply ite_kept
    | with_reducible apply ite_keeps
    | with_reducible exact ok_kept (by assumption)
    | with_reducible apply waitClock_keeps
    | with_reducible apply htrFollow_keeps
    | with_reducible apply setPort_keeps
    | split
    | with_reducible apply Keeps.lit

theorem thermAct_keeps {d : Nat} {k : Nat} (k_fence : ∀ d, pgFence d ≠ q₀) (k_chuteGlobal : ∀ d, pgChuteGlobal d ≠ q₀) (k_seam : ∀ d, pgSeam d ≠ q₀) (k_echo : ∀ d, pgEcho d ≠ q₀) (k_ctx : ∀ d, pgCtx d ≠ q₀) (k_chute : ∀ d i, pgChute d i ≠ q₀) (hU : Keeps q₀ s₀ s) : Keeps q₀ s₀ (thermAct s d k) := by
  unfold thermAct
  try dsimp only
  repeat' first
    | with_reducible assumption
    | with_reducible exact k_fence _
    | with_reducible exact k_chuteGlobal _
    | with_reducible exact k_seam _
    | with_reducible exact k_echo _
    | with_reducible exact k_ctx _
    | with_reducible exact k_chute _ _
    | intro _
    | with_reducible apply ite_keeps
    | with_reducible apply ctxEvt_keeps
    | with_reducible apply setCtx_keeps
    | with_reducible apply ctxRecord_keeps
    | with_reducible apply ctxFence_keeps
    | split
    | with_reducible apply Keeps.lit

theorem thermUnact_keeps {d : Nat} (hU : Keeps q₀ s₀ s) : Keeps q₀ s₀ (thermUnact s d) := by
  unfold thermUnact
  try dsimp only
  repeat' first
    | with_reducible assumption
    | intro _
    | with_reducible apply ite_keeps
    | with_reducible apply each_keeps
    | with_reducible apply setCtx_keeps
    | split
    | with_reducible apply Keeps.lit

theorem thermArm_keeps {d : Nat} {k : Nat} (k_fence : ∀ d, pgFence d ≠ q₀) (k_chuteGlobal : ∀ d, pgChuteGlobal d ≠ q₀) (k_seam : ∀ d, pgSeam d ≠ q₀) (k_echo : ∀ d, pgEcho d ≠ q₀) (k_ctx : ∀ d, pgCtx d ≠ q₀) (k_chute : ∀ d i, pgChute d i ≠ q₀) (hU : Keeps q₀ s₀ s) : Keeps q₀ s₀ (thermArm s d k) := by
  unfold thermArm
  try dsimp only
  repeat' first
    | with_reducible assumption
    | with_reducible exact k_fence _
    | with_reducible exact k_chuteGlobal _
    | with_reducible exact k_seam _
    | with_reducible exact k_echo _
    | with_reducible exact k_ctx _
    | with_reducible exact k_chute _ _
    | intro _
    | with_reducible apply ite_keeps
    | with_reducible apply thermAct_keeps
    | split
    | with_reducible apply Keeps.lit

theorem warn_keeps {d : Nat} {o : Option Nat} (k_thermal : ∀ d, pgThermal d ≠ q₀) (k_chuteGlobal : ∀ d, pgChuteGlobal d ≠ q₀) (k_hp : ∀ d i, pgHp d i ≠ q₀) (k_chute : ∀ d i, pgChute d i ≠ q₀) (hU : Keeps q₀ s₀ s) : Keeps q₀ s₀ (warn s d o) := by
  unfold warn
  try dsimp only
  repeat' first
    | with_reducible assumption
    | with_reducible exact k_thermal _
    | with_reducible exact k_chuteGlobal _
    | with_reducible exact k_hp _ _
    | with_reducible exact k_chute _ _
    | intro _
    | with_reducible apply ite_keeps
    | with_reducible apply setScope_keeps
    | with_reducible apply raise_keeps
    | with_reducible apply wr_keeps
    | with_reducible apply htrFollow_keeps
    | with_reducible apply scopeRecord_keeps
    | with_reducible apply count_keeps
    | split
    | with_reducible apply Keeps.lit

theorem scopeUpdate_keeps {d : Nat} {o : Option Nat} (k_thermal : ∀ d, pgThermal d ≠ q₀) (k_chuteGlobal : ∀ d, pgChuteGlobal d ≠ q₀) (k_hp : ∀ d i, pgHp d i ≠ q₀) (k_chute : ∀ d i, pgChute d i ≠ q₀) (hU : Keeps q₀ s₀ s) : Keeps q₀ s₀ (scopeUpdate s d o) := by
  unfold scopeUpdate
  try dsimp only
  repeat' first
    | with_reducible assumption
    | with_reducible exact k_thermal _
    | with_reducible exact k_chuteGlobal _
    | with_reducible exact k_hp _ _
    | with_reducible exact k_chute _ _
    | intro _
    | with_reducible apply ite_keeps
    | with_reducible apply warn_keeps
    | with_reducible apply setScope_keeps
    | split
    | with_reducible apply Keeps.lit

theorem sensorFault_keeps {d : Nat} {which : Nat} {isDie : Bool} {t : Int} (k_thermal : ∀ d, pgThermal d ≠ q₀) (k_chuteGlobal : ∀ d, pgChuteGlobal d ≠ q₀) (k_chute : ∀ d i, pgChute d i ≠ q₀) (hU : Keeps q₀ s₀ s) : Keeps q₀ s₀ (sensorFault s d which isDie t) := by
  unfold sensorFault
  try dsimp only
  repeat' first
    | with_reducible assumption
    | with_reducible exact k_thermal _
    | with_reducible exact k_chuteGlobal _
    | with_reducible exact k_chute _ _
    | intro _
    | with_reducible apply ite_keeps
    | with_reducible apply thRecord_keeps
    | with_reducible apply raise_keeps
    | split
    | with_reducible apply Keeps.lit

theorem islReading_keeps {d : Nat} {i : Nat} {t : Int} (k_thermal : ∀ d, pgThermal d ≠ q₀) (k_chuteGlobal : ∀ d, pgChuteGlobal d ≠ q₀) (k_chute : ∀ d i, pgChute d i ≠ q₀) (hU : Keeps q₀ s₀ s) : Keeps q₀ s₀ (islReading s d i t) := by
  unfold islReading
  try dsimp only
  repeat' first
    | with_reducible assumption
    | with_reducible exact k_thermal _
    | with_reducible exact k_chuteGlobal _
    | with_reducible exact k_chute _ _
    | intro _
    | with_reducible apply ite_keeps
    | with_reducible apply wb_keeps
    | with_reducible apply sensorFault_keeps
    | with_reducible apply setTherm_keeps
    | with_reducible apply wr_keeps
    | split
    | with_reducible apply Keeps.lit

theorem dieTemp_keeps {d : Nat} (k_thermal : ∀ d, pgThermal d ≠ q₀) (hU : Keeps q₀ s₀ s) : Keeps q₀ s₀ (dieTemp s d) := by
  unfold dieTemp
  try dsimp only
  repeat' first
    | with_reducible assumption
    | with_reducible exact k_thermal _
    | intro _
    | with_reducible apply ite_keeps
    | with_reducible apply wr_keeps
    | split
    | with_reducible apply Keeps.lit

theorem publishHead_keeps {d : Nat} {p : Nat} (k_thermal : ∀ d, pgThermal d ≠ q₀) (k_hp : ∀ d i, pgHp d i ≠ q₀) (hU : Keeps q₀ s₀ s) : Keeps q₀ s₀ (publishHead s d p) := by
  unfold publishHead
  try dsimp only
  repeat' first
    | with_reducible assumption
    | with_reducible exact k_thermal _
    | with_reducible exact k_hp _ _
    | intro _
    | with_reducible apply ite_keeps
    | with_reducible apply wb_keeps
    | with_reducible apply wf_keeps
    | with_reducible apply wr_keeps
    | with_reducible apply setPort_keeps
    | split
    | with_reducible apply Keeps.lit

theorem lampTemp_keeps {d : Nat} (hU : Keeps q₀ s₀ s) : Keeps q₀ s₀ (lampTemp s d) := by
  unfold lampTemp
  try dsimp only
  repeat' first
    | with_reducible assumption
    | intro _
    | with_reducible apply ite_keeps
    | with_reducible apply setLamp_keeps
    | split
    | with_reducible apply Keeps.lit

theorem tempUpdate_keeps {d : Nat} {isl : List Int} {power : Nat} (k_thermal : ∀ d, pgThermal d ≠ q₀) (k_chuteGlobal : ∀ d, pgChuteGlobal d ≠ q₀) (k_hp : ∀ d i, pgHp d i ≠ q₀) (k_chute : ∀ d i, pgChute d i ≠ q₀) (hU : Keeps q₀ s₀ s) : Keeps q₀ s₀ (tempUpdate s d isl power) := by
  unfold tempUpdate
  try dsimp only
  repeat' first
    | with_reducible assumption
    | with_reducible exact k_thermal _
    | with_reducible exact k_chuteGlobal _
    | with_reducible exact k_hp _ _
    | with_reducible exact k_chute _ _
    | intro _
    | with_reducible apply ite_keeps
    | with_reducible apply setTherm_keeps
    | with_reducible apply dieTemp_keeps
    | with_reducible apply each_keeps
    | with_reducible apply islReading_keeps
    | with_reducible apply wr_keeps
    | with_reducible apply publishHead_keeps
    | with_reducible apply scopeUpdate_keeps
    | with_reducible apply thStat_keeps
    | with_reducible apply htrFollow_keeps
    | with_reducible apply lampTemp_keeps
    | with_reducible apply asTempUpdate_keeps
    | split
    | with_reducible apply Keeps.lit

theorem execTempUpdate_kept {d : Nat} {isl : List Int} {power : Nat} (k_tb : ∀ d, pgTb d ≠ q₀) (k_thermal : ∀ d, pgThermal d ≠ q₀) (k_chuteGlobal : ∀ d, pgChuteGlobal d ≠ q₀) (k_hp : ∀ d i, pgHp d i ≠ q₀) (k_chute : ∀ d i, pgChute d i ≠ q₀) (hU : Keeps q₀ s₀ s) : Kept q₀ s₀ (execTempUpdate d isl power s) := by
  unfold execTempUpdate
  try dsimp only
  repeat' first
    | with_reducible assumption
    | with_reducible exact k_tb _
    | with_reducible exact k_thermal _
    | with_reducible exact k_chuteGlobal _
    | with_reducible exact k_hp _ _
    | with_reducible exact k_chute _ _
    | intro _
    | with_reducible apply ok_kept
    | with_reducible apply ite_kept
    | with_reducible apply ite_keeps
    | with_reducible exact ok_kept (by assumption)
    | with_reducible apply waitClock_keeps
    | with_reducible apply tempUpdate_keeps
    | split
    | with_reducible apply Keeps.lit

theorem betaTemp_keeps {d : Nat} {p : Nat} {ohm : Nat} (hU : Keeps q₀ s₀ s) : Keeps q₀ s₀ (betaTemp s d p ohm).2 := by
  unfold betaTemp
  try dsimp only
  repeat' first
    | with_reducible assumption
    | intro _
    | with_reducible apply ite_keeps
    | with_reducible apply nextFree_keeps
    | split
    | with_reducible apply Keeps.lit

theorem thermistor_keeps {d : Nat} {p : Nat} {ohm : Nat} (k_thermal : ∀ d, pgThermal d ≠ q₀) (k_chuteGlobal : ∀ d, pgChuteGlobal d ≠ q₀) (k_hp : ∀ d i, pgHp d i ≠ q₀) (k_chute : ∀ d i, pgChute d i ≠ q₀) (hU : Keeps q₀ s₀ s) : Keeps q₀ s₀ (thermistor s d p ohm) := by
  unfold thermistor
  try dsimp only
  repeat' first
    | with_reducible assumption
    | with_reducible exact k_thermal _
    | with_reducible exact k_chuteGlobal _
    | with_reducible exact k_hp _ _
    | with_reducible exact k_chute _ _
    | intro _
    | with_reducible apply ite_keeps
    | with_reducible apply setTherm_keeps
    | with_reducible apply wb_keeps
    | with_reducible apply wf_keeps
    | with_reducible apply htrFollow_keeps
    | with_reducible apply whenDo_keeps
    | with_reducible apply sensorFault_keeps
    | with_reducible apply betaTemp_keeps
    | (with_reducible refine pair_keeps (by assumption) ?_)
    | split
    | with_reducible apply Keeps.lit

theorem execThermistorSample_kept {d : Nat} {p : Nat} {ohm : Nat} (k_thermal : ∀ d, pgThermal d ≠ q₀) (k_chuteGlobal : ∀ d, pgChuteGlobal d ≠ q₀) (k_hp : ∀ d i, pgHp d i ≠ q₀) (k_chute : ∀ d i, pgChute d i ≠ q₀) (hU : Keeps q₀ s₀ s) : Kept q₀ s₀ (execThermistorSample d p ohm s) := by
  unfold execThermistorSample
  try dsimp only
  repeat' first
    | with_reducible assumption
    | with_reducible exact k_thermal _
    | with_reducible exact k_chuteGlobal _
    | with_reducible exact k_hp _ _
    | with_reducible exact k_chute _ _
    | intro _
    | with_reducible apply ok_kept
    | with_reducible apply ite_kept
    | with_reducible apply ite_keeps
    | with_reducible exact ok_kept (by assumption)
    | with_reducible apply thermistor_keeps
    | split
    | with_reducible apply Keeps.lit

theorem thermOff_keeps {d : Nat} {p : Nat} (k_thermal : ∀ d, pgThermal d ≠ q₀) (k_hp : ∀ d i, pgHp d i ≠ q₀) (hU : Keeps q₀ s₀ s) : Keeps q₀ s₀ (thermOff s d p) := by
  unfold thermOff
  try dsimp only
  repeat' first
    | with_reducible assumption
    | with_reducible exact k_thermal _
    | with_reducible exact k_hp _ _
    | intro _
    | with_reducible apply ite_keeps
    | with_reducible apply setTherm_keeps
    | with_reducible apply htrFollow_keeps
    | with_reducible apply wb_keeps
    | split
    | with_reducible apply Keeps.lit

theorem throttleNote_keeps {d : Nat} {o : Option Nat} {on : Bool} (k_mbox : ∀ d b, pgMbox d b ≠ q₀) (hU : Keeps q₀ s₀ s) : Keeps q₀ s₀ (throttleNote s d o on) := by
  unfold throttleNote
  try dsimp only
  repeat' first
    | with_reducible assumption
    | with_reducible exact k_mbox _ _
    | intro _
    | with_reducible apply ite_keeps
    | with_reducible apply notice_keeps
    | split
    | with_reducible apply Keeps.lit

theorem enforceCtxs_keeps {d : Nat} {o : Option Nat} {bits : Nat} (k_fence : ∀ d, pgFence d ≠ q₀) (k_thermal : ∀ d, pgThermal d ≠ q₀) (k_chuteGlobal : ∀ d, pgChuteGlobal d ≠ q₀) (k_mbox : ∀ d b, pgMbox d b ≠ q₀) (k_seam : ∀ d, pgSeam d ≠ q₀) (k_echo : ∀ d, pgEcho d ≠ q₀) (k_ctx : ∀ d, pgCtx d ≠ q₀) (k_chute : ∀ d i, pgChute d i ≠ q₀) (hU : Keeps q₀ s₀ s) : Keeps q₀ s₀ (enforceCtxs s d o bits) := by
  unfold enforceCtxs
  try dsimp only
  repeat' first
    | with_reducible assumption
    | with_reducible exact k_fence _
    | with_reducible exact k_thermal _
    | with_reducible exact k_chuteGlobal _
    | with_reducible exact k_mbox _ _
    | with_reducible exact k_seam _
    | with_reducible exact k_echo _
    | with_reducible exact k_ctx _
    | with_reducible exact k_chute _ _
    | intro _
    | with_reducible apply ite_keeps
    | with_reducible apply setScope_keeps
    | with_reducible apply each_keeps
    | with_reducible apply thermAct_keeps
    | with_reducible apply raise_keeps
    | with_reducible apply count_keeps
    | with_reducible apply throttleNote_keeps
    | with_reducible apply scopeRecord_keeps
    | split
    | with_reducible apply Keeps.lit

theorem echoStep_keeps {d : Nat} {off : Bool} (k_thermal : ∀ d, pgThermal d ≠ q₀) (k_chuteGlobal : ∀ d, pgChuteGlobal d ≠ q₀) (k_mbox : ∀ d b, pgMbox d b ≠ q₀) (k_echo : ∀ d, pgEcho d ≠ q₀) (k_chute : ∀ d i, pgChute d i ≠ q₀) (hU : Keeps q₀ s₀ s) : Keeps q₀ s₀ (echoStep s d off) := by
  unfold echoStep
  try dsimp only
  repeat' first
    | with_reducible assumption
    | with_reducible exact k_thermal _
    | with_reducible exact k_chuteGlobal _
    | with_reducible exact k_mbox _ _
    | with_reducible exact k_echo _
    | with_reducible exact k_chute _ _
    | intro _
    | with_reducible apply ite_keeps
    | with_reducible apply wb_keeps
    | with_reducible apply wf_keeps
    | with_reducible apply setScope_keeps
    | with_reducible apply throttleNote_keeps
    | with_reducible apply scopeRecord_keeps
    | with_reducible apply raise_keeps
    | split
    | with_reducible apply Keeps.lit

theorem graceExpiry_keeps {d : Nat} {o : Option Nat} (k_fence : ∀ d, pgFence d ≠ q₀) (k_thermal : ∀ d, pgThermal d ≠ q₀) (k_chuteGlobal : ∀ d, pgChuteGlobal d ≠ q₀) (k_mbox : ∀ d b, pgMbox d b ≠ q₀) (k_seam : ∀ d, pgSeam d ≠ q₀) (k_echo : ∀ d, pgEcho d ≠ q₀) (k_ctx : ∀ d, pgCtx d ≠ q₀) (k_chute : ∀ d i, pgChute d i ≠ q₀) (hU : Keeps q₀ s₀ s) : Keeps q₀ s₀ (graceExpiry s d o) := by
  unfold graceExpiry
  try dsimp only
  repeat' first
    | with_reducible assumption
    | with_reducible exact k_fence _
    | with_reducible exact k_thermal _
    | with_reducible exact k_chuteGlobal _
    | with_reducible exact k_mbox _ _
    | with_reducible exact k_seam _
    | with_reducible exact k_echo _
    | with_reducible exact k_ctx _
    | with_reducible exact k_chute _ _
    | intro _
    | with_reducible apply ite_keeps
    | with_reducible apply setScope_keeps
    | with_reducible apply enforceCtxs_keeps
    | with_reducible apply echoStep_keeps
    | split
    | with_reducible apply Keeps.lit

theorem execGraceExpiry_kept {d : Nat} {o : Option Nat} (k_tb : ∀ d, pgTb d ≠ q₀) (k_fence : ∀ d, pgFence d ≠ q₀) (k_thermal : ∀ d, pgThermal d ≠ q₀) (k_chuteGlobal : ∀ d, pgChuteGlobal d ≠ q₀) (k_mbox : ∀ d b, pgMbox d b ≠ q₀) (k_seam : ∀ d, pgSeam d ≠ q₀) (k_echo : ∀ d, pgEcho d ≠ q₀) (k_ctx : ∀ d, pgCtx d ≠ q₀) (k_chute : ∀ d i, pgChute d i ≠ q₀) (hU : Keeps q₀ s₀ s) : Kept q₀ s₀ (execGraceExpiry d o s) := by
  unfold execGraceExpiry
  try dsimp only
  repeat' first
    | with_reducible assumption
    | with_reducible exact k_tb _
    | with_reducible exact k_fence _
    | with_reducible exact k_thermal _
    | with_reducible exact k_chuteGlobal _
    | with_reducible exact k_mbox _ _
    | with_reducible exact k_seam _
    | with_reducible exact k_echo _
    | with_reducible exact k_ctx _
    | with_reducible exact k_chute _ _
    | intro _
    | with_reducible apply ok_kept
    | with_reducible apply ite_kept
    | with_reducible apply ite_keeps
    | with_reducible exact ok_kept (by assumption)
    | with_reducible apply graceExpiry_keeps
    | with_reducible apply waitClock_keeps
    | split
    | with_reducible apply Keeps.lit

theorem scopeClear_keeps {d : Nat} {o : Option Nat} (k_thermal : ∀ d, pgThermal d ≠ q₀) (k_chuteGlobal : ∀ d, pgChuteGlobal d ≠ q₀) (k_mbox : ∀ d b, pgMbox d b ≠ q₀) (k_hp : ∀ d i, pgHp d i ≠ q₀) (k_echo : ∀ d, pgEcho d ≠ q₀) (k_chute : ∀ d i, pgChute d i ≠ q₀) (hU : Keeps q₀ s₀ s) : Keeps q₀ s₀ (scopeClear s d o) := by
  unfold scopeClear
  try dsimp only
  repeat' first
    | with_reducible assumption
    | with_reducible exact k_thermal _
    | with_reducible exact k_chuteGlobal _
    | with_reducible exact k_mbox _ _
    | with_reducible exact k_hp _ _
    | with_reducible exact k_echo _
    | with_reducible exact k_chute _ _
    | intro _
    | with_reducible apply ite_keeps
    | with_reducible apply whenDo_keeps
    | with_reducible apply throttleNote_keeps
    | with_reducible apply raise_keeps
    | with_reducible apply scopeRecord_keeps
    | with_reducible apply thermUnact_keeps
    | with_reducible apply setScope_keeps
    | with_reducible apply wb_keeps
    | with_reducible apply wf_keeps
    | with_reducible apply htrFollow_keeps
    | split
    | with_reducible apply Keeps.lit

theorem execWarnClear_kept {d : Nat} {o : Option Nat} (k_tb : ∀ d, pgTb d ≠ q₀) (k_thermal : ∀ d, pgThermal d ≠ q₀) (k_chuteGlobal : ∀ d, pgChuteGlobal d ≠ q₀) (k_mbox : ∀ d b, pgMbox d b ≠ q₀) (k_hp : ∀ d i, pgHp d i ≠ q₀) (k_echo : ∀ d, pgEcho d ≠ q₀) (k_chute : ∀ d i, pgChute d i ≠ q₀) (hU : Keeps q₀ s₀ s) : Kept q₀ s₀ (execWarnClear d o s) := by
  unfold execWarnClear
  try dsimp only
  repeat' first
    | with_reducible assumption
    | with_reducible exact k_tb _
    | with_reducible exact k_thermal _
    | with_reducible exact k_chuteGlobal _
    | with_reducible exact k_mbox _ _
    | with_reducible exact k_hp _ _
    | with_reducible exact k_echo _
    | with_reducible exact k_chute _ _
    | intro _
    | with_reducible apply ok_kept
    | with_reducible apply ite_kept
    | with_reducible apply ite_keeps
    | with_reducible exact ok_kept (by assumption)
    | with_reducible apply scopeClear_keeps
    | with_reducible apply waitClock_keeps
    | split
    | with_reducible apply Keeps.lit

end Sys2Proof.Laws
end

