-- ==== Sys2Proof/Laws/LampReg.lean ====
section
/-!
SUPPORT. The register pages that each operation of `Machine/Lamp.lean` may write: every other page reads as before.
-/

set_option Elab.async false
set_option linter.unusedTactic false
set_option linter.unreachableTactic false
namespace Sys2Proof.Laws

open Sys2Proof.Machine

variable {q₀ : Pg} {s₀ s : State}

theorem setIsland_keeps {d : Nat} {i : Nat} {x : IslandSt} (hU : Keeps q₀ s₀ s) : Keeps q₀ s₀ (setIsland s d i x) := by
  unfold setIsland
  try dsimp only
  repeat' first
    | with_reducible assumption
    | intro _
    | with_reducible apply ite_keeps
    | with_reducible apply setLamp_keeps
    | split
    | with_reducible apply Keeps.lit

theorem lampWorst_keeps {d : Nat} (k_lamp : ∀ d, pgLamp d ≠ q₀) (hU : Keeps q₀ s₀ s) : Keeps q₀ s₀ (lampWorst s d) := by
  unfold lampWorst
  try dsimp only
  repeat' first
    | with_reducible assumption
    | with_reducible exact k_lamp _
    | intro _
    | with_reducible apply ite_keeps
    | with_reducible apply wr_keeps
    | split
    | with_reducible apply Keeps.lit

theorem lampStart_keeps {d : Nat} (hU : Keeps q₀ s₀ s) : Keeps q₀ s₀ (lampStart s d) := by
  unfold lampStart
  try dsimp only
  repeat' first
    | with_reducible assumption
    | intro _
    | with_reducible apply ite_keeps
    | with_reducible apply setLamp_keeps
    | split
    | with_reducible apply Keeps.lit

theorem execLampMeasure_kept {d : Nat} (hU : Keeps q₀ s₀ s) : Kept q₀ s₀ (execLampMeasure d s) := by
  unfold execLampMeasure
  try dsimp only
  repeat' first
    | with_reducible assumption
    | intro _
    | with_reducible apply ok_kept
    | with_reducible apply ite_kept
    | with_reducible apply ite_keeps
    | with_reducible exact ok_kept (by assumption)
    | with_reducible apply lampStart_keeps
    | with_reducible apply setLamp_keeps
    | split
    | with_reducible apply Keeps.lit

theorem execLampMeasureCmd_kept {r : Req} {d : Nat} (k_lamp : ∀ d, pgLamp d ≠ q₀) (k_pcie : pgPcie ≠ q₀) (k_guard : ∀ d, pgGuard d ≠ q₀) (hU : Keeps q₀ s₀ s) : Kept q₀ s₀ (execLampMeasureCmd r d s) := by
  unfold execLampMeasureCmd
  try dsimp only
  repeat' first
    | with_reducible assumption
    | with_reducible exact k_lamp _
    | with_reducible exact k_pcie
    | with_reducible exact k_guard _
    | intro _
    | with_reducible apply ok_kept
    | with_reducible apply ite_kept
    | with_reducible apply ite_keeps
    | with_reducible exact ok_kept (by assumption)
    | with_reducible apply guardedWrite_keeps
    | with_reducible apply lampStart_keeps
    | split
    | with_reducible apply Keeps.lit

theorem ageQueue_keeps {d : Nat} {i : Nat} (hU : Keeps q₀ s₀ s) : Keeps q₀ s₀ (ageQueue s d i) := by
  unfold ageQueue
  try dsimp only
  repeat' first
    | with_reducible assumption
    | intro _
    | with_reducible apply ite_keeps
    | with_reducible apply each_keeps
    | with_reducible apply setIsland_keeps
    | with_reducible apply asQueue_keeps
    | split
    | with_reducible apply Keeps.lit

theorem replan_keeps {d : Nat} {i : Nat} (k_lamp : ∀ d, pgLamp d ≠ q₀) (k_chuteGlobal : ∀ d, pgChuteGlobal d ≠ q₀) (k_mbox : ∀ d b, pgMbox d b ≠ q₀) (k_chute : ∀ d i, pgChute d i ≠ q₀) (hU : Keeps q₀ s₀ s) : Keeps q₀ s₀ (replan s d i) := by
  unfold replan
  try dsimp only
  repeat' first
    | with_reducible assumption
    | with_reducible exact k_lamp _
    | with_reducible exact k_chuteGlobal _
    | with_reducible exact k_mbox _ _
    | with_reducible exact k_chute _ _
    | intro _
    | with_reducible apply ite_keeps
    | with_reducible apply raise_keeps
    | with_reducible apply ageQueue_keeps
    | with_reducible apply setIsland_keeps
    | with_reducible apply setLamp_keeps
    | with_reducible apply thRecord_keeps
    | with_reducible apply notice_keeps
    | with_reducible apply count_keeps
    | split
    | with_reducible apply Keeps.lit

theorem lampIsland_keeps {d : Nat} {i : Nat} {ns : Nat} {np : Nat} (k_lamp : ∀ d, pgLamp d ≠ q₀) (k_chuteGlobal : ∀ d, pgChuteGlobal d ≠ q₀) (k_mbox : ∀ d b, pgMbox d b ≠ q₀) (k_chute : ∀ d i, pgChute d i ≠ q₀) (hU : Keeps q₀ s₀ s) : Keeps q₀ s₀ (lampIsland s d i ns np) := by
  unfold lampIsland
  try dsimp only
  repeat' first
    | with_reducible assumption
    | with_reducible exact k_lamp _
    | with_reducible exact k_chuteGlobal _
    | with_reducible exact k_mbox _ _
    | with_reducible exact k_chute _ _
    | intro _
    | with_reducible apply ite_keeps
    | with_reducible apply nextFree_keeps
    | with_reducible apply setIsland_keeps
    | with_reducible apply replan_keeps
    | with_reducible apply whenDo_keeps
    | with_reducible apply raise_keeps
    | split
    | with_reducible apply Keeps.lit

theorem execMeasured_kept {d : Nat} {cnt : List (Nat × Nat)} (k_tb : ∀ d, pgTb d ≠ q₀) (k_lamp : ∀ d, pgLamp d ≠ q₀) (k_chuteGlobal : ∀ d, pgChuteGlobal d ≠ q₀) (k_mbox : ∀ d b, pgMbox d b ≠ q₀) (k_chute : ∀ d i, pgChute d i ≠ q₀) (hU : Keeps q₀ s₀ s) : Kept q₀ s₀ (execMeasured d cnt s) := by
  unfold execMeasured
  try dsimp only
  repeat' first
    | with_reducible assumption
    | with_reducible exact k_tb _
    | with_reducible exact k_lamp _
    | with_reducible exact k_chuteGlobal _
    | with_reducible exact k_mbox _ _
    | with_reducible exact k_chute _ _
    | intro _
    | with_reducible apply ok_kept
    | with_reducible apply ite_kept
    | with_reducible apply ite_keeps
    | with_reducible exact ok_kept (by assumption)
    | with_reducible apply waitClock_keeps
    | with_reducible apply raise_keeps
    | with_reducible apply setLamp_keeps
    | with_reducible apply lampWorst_keeps
    | with_reducible apply each_keeps
    | with_reducible apply lampIsland_keeps
    | split
    | with_reducible apply Keeps.lit

theorem execCalintExpiry_kept {d : Nat} {i : Nat} (hU : Keeps q₀ s₀ s) : Kept q₀ s₀ (execCalintExpiry d i s) := by
  unfold execCalintExpiry
  try dsimp only
  repeat' first
    | with_reducible assumption
    | intro _
    | with_reducible apply ok_kept
    | with_reducible apply ite_kept
    | with_reducible apply ite_keeps
    | with_reducible exact ok_kept (by assumption)
    | with_reducible apply ageQueue_keeps
    | split
    | with_reducible apply Keeps.lit

theorem histWrite_keeps {d : Nat} (k_lamp : ∀ d, pgLamp d ≠ q₀) (k_retain : ∀ d, pgRetain d ≠ q₀) (hU : Keeps q₀ s₀ s) : Keeps q₀ s₀ (histWrite s d) := by
  unfold histWrite
  try dsimp only
  repeat' first
    | with_reducible assumption
    | with_reducible exact k_lamp _
    | with_reducible exact k_retain _
    | intro _
    | with_reducible apply ite_keeps
    | with_reducible apply nextFree_keeps
    | with_reducible apply retWrites_keeps
    | with_reducible apply setLamp_keeps
    | with_reducible apply raise_keeps
    | with_reducible apply wr_keeps
    | split
    | with_reducible apply Keeps.lit

theorem execHistWritten_kept {d : Nat} (k_lamp : ∀ d, pgLamp d ≠ q₀) (k_retain : ∀ d, pgRetain d ≠ q₀) (hU : Keeps q₀ s₀ s) : Kept q₀ s₀ (execHistWritten d s) := by
  unfold execHistWritten
  try dsimp only
  repeat' first
    | with_reducible assumption
    | with_reducible exact k_lamp _
    | with_reducible exact k_retain _
    | intro _
    | with_reducible apply ok_kept
    | with_reducible apply ite_kept
    | with_reducible apply ite_keeps
    | with_reducible exact ok_kept (by assumption)
    | with_reducible apply histWrite_keeps
    | split
    | with_reducible apply Keeps.lit

theorem histClear_keeps {d : Nat} (k_lamp : ∀ d, pgLamp d ≠ q₀) (k_retain : ∀ d, pgRetain d ≠ q₀) (hU : Keeps q₀ s₀ s) : Keeps q₀ s₀ (histClear d s) := by
  unfold histClear
  try dsimp only
  repeat' first
    | with_reducible assumption
    | with_reducible exact k_lamp _
    | with_reducible exact k_retain _
    | intro _
    | with_reducible apply ite_keeps
    | with_reducible apply retWrites_keeps
    | with_reducible apply wr_keeps
    | split
    | with_reducible apply Keeps.lit

theorem execHistClear_kept {r : Req} {d : Nat} (k_lamp : ∀ d, pgLamp d ≠ q₀) (k_retain : ∀ d, pgRetain d ≠ q₀) (k_pcie : pgPcie ≠ q₀) (k_guard : ∀ d, pgGuard d ≠ q₀) (hU : Keeps q₀ s₀ s) : Kept q₀ s₀ (execHistClear r d s) := by
  unfold execHistClear
  try dsimp only
  repeat' first
    | with_reducible assumption
    | with_reducible exact k_lamp _
    | with_reducible exact k_retain _
    | with_reducible exact k_pcie
    | with_reducible exact k_guard _
    | intro _
    | with_reducible apply ok_kept
    | with_reducible apply ite_kept
    | with_reducible apply ite_keeps
    | with_reducible exact ok_kept (by assumption)
    | with_reducible apply guardedWrite_keeps
    | with_reducible apply histClear_keeps
    | split
    | with_reducible apply Keeps.lit

theorem lampSecond_keeps {d : Nat} (hU : Keeps q₀ s₀ s) : Keeps q₀ s₀ (lampSecond s d) := by
  unfold lampSecond
  try dsimp only
  repeat' first
    | with_reducible assumption
    | intro _
    | with_reducible apply ite_keeps
    | with_reducible apply setLamp_keeps
    | split
    | with_reducible apply Keeps.lit

end Sys2Proof.Laws
end

