-- ==== Sys2Proof/Laws/FenceReg.lean ====
section
/-!
SUPPORT. The register pages that each operation of `Machine/Fence.lean` may write: every other page reads as before.
-/

set_option Elab.async false
set_option linter.unusedTactic false
set_option linter.unreachableTactic false
namespace Sys2Proof.Laws

open Sys2Proof.Machine

variable {q₀ : Pg} {s₀ s : State}

theorem nullFrames_keeps {d : Nat} {p : Nat} (hU : Keeps q₀ s₀ s) : Keeps q₀ s₀ (nullFrames s d p) := by
  unfold nullFrames
  try dsimp only
  repeat' first
    | with_reducible assumption
    | intro _
    | with_reducible apply ite_keeps
    | with_reducible apply setPort_keeps
    | split
    | with_reducible apply Keeps.lit

theorem rampDown_keeps {d : Nat} {p : Nat} {x : PortSt} (hU : Keeps q₀ s₀ s) : Keeps q₀ s₀ (rampDown s d p x) := by
  unfold rampDown
  try dsimp only
  repeat' first
    | with_reducible assumption
    | intro _
    | with_reducible apply ite_keeps
    | split
    | with_reducible apply Keeps.lit

theorem senseCut_keeps {d : Nat} {p : Nat} (hU : Keeps q₀ s₀ s) : Keeps q₀ s₀ (senseCut s d p) := by
  unfold senseCut
  try dsimp only
  repeat' first
    | with_reducible assumption
    | intro _
    | with_reducible apply ite_keeps
    | with_reducible apply setEcho_keeps
    | split
    | with_reducible apply Keeps.lit

theorem hpCut_keeps {d : Nat} {p : Nat} (hU : Keeps q₀ s₀ s) : Keeps q₀ s₀ (hpCut s d p) := by
  unfold hpCut
  try dsimp only
  repeat' first
    | with_reducible assumption
    | intro _
    | with_reducible apply ite_keeps
    | with_reducible apply setPort_keeps
    | with_reducible apply senseCut_keeps
    | with_reducible apply emit_keeps
    | with_reducible apply rampDown_keeps
    | split
    | with_reducible apply Keeps.lit

theorem hpSafe_keeps {d : Nat} {p : Nat} {ks : List Nat} (k_assay : ∀ d, pgAssay d ≠ q₀) (k_hp : ∀ d i, pgHp d i ≠ q₀) (k_seam : ∀ d, pgSeam d ≠ q₀) (k_echo : ∀ d, pgEcho d ≠ q₀) (k_ctx : ∀ d, pgCtx d ≠ q₀) (hU : Keeps q₀ s₀ s) : Keeps q₀ s₀ (hpSafe s d p ks) := by
  unfold hpSafe
  try dsimp only
  repeat' first
    | with_reducible assumption
    | with_reducible exact k_assay _
    | with_reducible exact k_hp _ _
    | with_reducible exact k_seam _
    | with_reducible exact k_echo _
    | with_reducible exact k_ctx _
    | intro _
    | with_reducible apply ite_keeps
    | with_reducible apply hpCut_keeps
    | with_reducible apply nullFrames_keeps
    | with_reducible apply loadAbort_keeps
    | with_reducible apply each_keeps
    | with_reducible apply ctxFence_keeps
    | with_reducible apply asPortFenced_keeps
    | with_reducible apply htrFollow_keeps
    | split
    | with_reducible apply Keeps.lit

theorem encSafe_keeps {d : Nat} {c : Nat} (k_enc : ∀ d i, pgEnc d i ≠ q₀) (hU : Keeps q₀ s₀ s) : Keeps q₀ s₀ (encSafe s d c) := by
  unfold encSafe
  try dsimp only
  repeat' first
    | with_reducible assumption
    | with_reducible exact k_enc _ _
    | intro _
    | with_reducible apply ite_keeps
    | with_reducible apply pdUnlock_keeps
    | with_reducible apply encLost_keeps
    | with_reducible apply encInvalid_keeps
    | with_reducible apply serDrop_keeps
    | split
    | with_reducible apply Keeps.lit

theorem pdSafe_keeps {d : Nat} (hU : Keeps q₀ s₀ s) : Keeps q₀ s₀ (pdSafe s d) := by
  unfold pdSafe
  try dsimp only
  repeat' first
    | with_reducible assumption
    | intro _
    | with_reducible apply ite_keeps
    | split
    | with_reducible apply Keeps.lit

theorem axSafe_keeps {d : Nat} {a : Nat} {reason : Nat} (k_enc : ∀ d i, pgEnc d i ≠ q₀) (k_ax : ∀ d i, pgAx d i ≠ q₀) (hU : Keeps q₀ s₀ s) : Keeps q₀ s₀ (axSafe s d a reason) := by
  unfold axSafe
  try dsimp only
  repeat' first
    | with_reducible assumption
    | with_reducible exact k_enc _ _
    | with_reducible exact k_ax _ _
    | intro _
    | with_reducible apply ite_keeps
    | with_reducible apply setMstate_keeps
    | with_reducible apply setAxis_keeps
    | with_reducible apply setPosValid_keeps
    | with_reducible apply axisLost_keeps
    | split
    | with_reducible apply Keeps.lit

theorem echoSafe_keeps {d : Nat} (hU : Keeps q₀ s₀ s) : Keeps q₀ s₀ (echoSafe s d) := by
  unfold echoSafe
  try dsimp only
  repeat' first
    | with_reducible assumption
    | intro _
    | with_reducible apply ite_keeps
    | with_reducible apply emit_keeps
    | with_reducible apply setEcho_keeps
    | with_reducible apply each_keeps
    | with_reducible apply setPort_keeps
    | split
    | with_reducible apply Keeps.lit

theorem hoistSafe_keeps {d : Nat} {c : Nat} (k_hoistGlobal : ∀ d, pgHoistGlobal d ≠ q₀) (k_chuteGlobal : ∀ d, pgChuteGlobal d ≠ q₀) (k_chute : ∀ d i, pgChute d i ≠ q₀) (hU : Keeps q₀ s₀ s) : Keeps q₀ s₀ (hoistSafe s d c) := by
  unfold hoistSafe
  try dsimp only
  repeat' first
    | with_reducible assumption
    | with_reducible exact k_hoistGlobal _
    | with_reducible exact k_chuteGlobal _
    | with_reducible exact k_chute _ _
    | intro _
    | with_reducible apply ite_keeps
    | with_reducible apply hcUnsig_keeps
    | with_reducible apply hcDrop_keeps
    | with_reducible apply setHoist_keeps
    | split
    | with_reducible apply Keeps.lit

theorem lampSafe_keeps {d : Nat} (hU : Keeps q₀ s₀ s) : Keeps q₀ s₀ (lampSafe s d) := by
  unfold lampSafe
  try dsimp only
  repeat' first
    | with_reducible assumption
    | intro _
    | with_reducible apply ite_keeps
    | with_reducible apply setLamp_keeps
    | split
    | with_reducible apply Keeps.lit

theorem thermSafe_keeps {d : Nat} (hU : Keeps q₀ s₀ s) : Keeps q₀ s₀ (thermSafe s d) := by
  unfold thermSafe
  try dsimp only
  repeat' first
    | with_reducible assumption
    | intro _
    | with_reducible apply ite_keeps
    | with_reducible apply setTherm_keeps
    | split
    | with_reducible apply Keeps.lit

theorem pageSafe_keeps {p : Pg} {reason : Nat} {ks : List Nat} (kp : p ≠ q₀) (k_die : ∀ d, pgDie d ≠ q₀) (k_mode : ∀ d, pgMode d ≠ q₀) (k_tsync : pgTsync ≠ q₀) (k_assay : ∀ d, pgAssay d ≠ q₀) (k_hoistGlobal : ∀ d, pgHoistGlobal d ≠ q₀) (k_chuteGlobal : ∀ d, pgChuteGlobal d ≠ q₀) (k_hp : ∀ d i, pgHp d i ≠ q₀) (k_enc : ∀ d i, pgEnc d i ≠ q₀) (k_ax : ∀ d i, pgAx d i ≠ q₀) (k_seam : ∀ d, pgSeam d ≠ q₀) (k_echo : ∀ d, pgEcho d ≠ q₀) (k_ctx : ∀ d, pgCtx d ≠ q₀) (k_chute : ∀ d i, pgChute d i ≠ q₀) (k_debug : ∀ d, pgDebug d ≠ q₀) (hU : Keeps q₀ s₀ s) : Keeps q₀ s₀ (pageSafe s p reason ks) := by
  unfold pageSafe
  try dsimp only
  repeat' first
    | with_reducible assumption
    | with_reducible exact k_die _
    | with_reducible exact k_mode _
    | with_reducible exact k_tsync
    | with_reducible exact k_assay _
    | with_reducible exact k_hoistGlobal _
    | with_reducible exact k_chuteGlobal _
    | with_reducible exact k_hp _ _
    | with_reducible exact k_enc _ _
    | with_reducible exact k_ax _ _
    | with_reducible exact k_seam _
    | with_reducible exact k_echo _
    | with_reducible exact k_ctx _
    | with_reducible exact k_chute _ _
    | with_reducible exact k_debug _
    | intro _
    | with_reducible apply ite_keeps
    | with_reducible apply hpSafe_keeps
    | with_reducible apply encSafe_keeps
    | with_reducible apply pdSafe_keeps
    | with_reducible apply axSafe_keeps
    | with_reducible apply seamsUpdate_keeps
    | with_reducible apply echoSafe_keeps
    | with_reducible apply asSafe_keeps
    | with_reducible apply hoistSafe_keeps
    | with_reducible apply lampSafe_keeps
    | with_reducible apply thermSafe_keeps
    | with_reducible apply dbgClose_keeps
    | with_reducible apply stepDrop_keeps
    | with_reducible apply wf_keeps
    | with_reducible apply chuteFollow_keeps
    | split
    | with_reducible apply Keeps.lit

theorem fenceQuiet_keeps {p : Pg} {reason : Nat} {ks : List Nat} (kp : p ≠ q₀) (k_die : ∀ d, pgDie d ≠ q₀) (k_mode : ∀ d, pgMode d ≠ q₀) (k_tsync : pgTsync ≠ q₀) (k_fence : ∀ d, pgFence d ≠ q₀) (k_assay : ∀ d, pgAssay d ≠ q₀) (k_hoistGlobal : ∀ d, pgHoistGlobal d ≠ q₀) (k_chuteGlobal : ∀ d, pgChuteGlobal d ≠ q₀) (k_hp : ∀ d i, pgHp d i ≠ q₀) (k_enc : ∀ d i, pgEnc d i ≠ q₀) (k_ax : ∀ d i, pgAx d i ≠ q₀) (k_seam : ∀ d, pgSeam d ≠ q₀) (k_echo : ∀ d, pgEcho d ≠ q₀) (k_ctx : ∀ d, pgCtx d ≠ q₀) (k_chute : ∀ d i, pgChute d i ≠ q₀) (k_debug : ∀ d, pgDebug d ≠ q₀) (hU : Keeps q₀ s₀ s) : Keeps q₀ s₀ (fenceQuiet s p reason ks) := by
  unfold fenceQuiet
  try dsimp only
  repeat' first
    | with_reducible assumption
    | with_reducible exact k_die _
    | with_reducible exact k_mode _
    | with_reducible exact k_tsync
    | with_reducible exact k_fence _
    | with_reducible exact k_assay _
    | with_reducible exact k_hoistGlobal _
    | with_reducible exact k_chuteGlobal _
    | with_reducible exact k_hp _ _
    | with_reducible exact k_enc _ _
    | with_reducible exact k_ax _ _
    | with_reducible exact k_seam _
    | with_reducible exact k_echo _
    | with_reducible exact k_ctx _
    | with_reducible exact k_chute _ _
    | with_reducible exact k_debug _
    | intro _
    | with_reducible apply ite_keeps
    | with_reducible apply encSync_keeps
    | with_reducible apply setFenceSt_keeps
    | with_reducible apply softReset_keeps
    | with_reducible apply wf_keeps
    | with_reducible apply setPstate_keeps
    | with_reducible apply wb_keeps
    | with_reducible apply wr_keeps
    | with_reducible apply raise_keeps
    | with_reducible apply count_keeps
    | with_reducible apply pageSafe_keeps
    | split
    | with_reducible apply Keeps.lit

theorem fencePage_keeps {p : Pg} {reason : Nat} (kp : p ≠ q₀) (k_die : ∀ d, pgDie d ≠ q₀) (k_mode : ∀ d, pgMode d ≠ q₀) (k_tsync : pgTsync ≠ q₀) (k_fence : ∀ d, pgFence d ≠ q₀) (k_assay : ∀ d, pgAssay d ≠ q₀) (k_hoistGlobal : ∀ d, pgHoistGlobal d ≠ q₀) (k_chuteGlobal : ∀ d, pgChuteGlobal d ≠ q₀) (k_hp : ∀ d i, pgHp d i ≠ q₀) (k_enc : ∀ d i, pgEnc d i ≠ q₀) (k_ax : ∀ d i, pgAx d i ≠ q₀) (k_seam : ∀ d, pgSeam d ≠ q₀) (k_echo : ∀ d, pgEcho d ≠ q₀) (k_ctx : ∀ d, pgCtx d ≠ q₀) (k_chute : ∀ d i, pgChute d i ≠ q₀) (k_debug : ∀ d, pgDebug d ≠ q₀) (hU : Keeps q₀ s₀ s) : Keeps q₀ s₀ (fencePage s p reason) := by
  unfold fencePage
  try dsimp only
  repeat' first
    | with_reducible assumption
    | with_reducible exact k_die _
    | with_reducible exact k_mode _
    | with_reducible exact k_tsync
    | with_reducible exact k_fence _
    | with_reducible exact k_assay _
    | with_reducible exact k_hoistGlobal _
    | with_reducible exact k_chuteGlobal _
    | with_reducible exact k_hp _ _
    | with_reducible exact k_enc _ _
    | with_reducible exact k_ax _ _
    | with_reducible exact k_seam _
    | with_reducible exact k_echo _
    | with_reducible exact k_ctx _
    | with_reducible exact k_chute _ _
    | with_reducible exact k_debug _
    | intro _
    | with_reducible apply ite_keeps
    | with_reducible apply logRecord_keeps
    | with_reducible apply fenceQuiet_keeps
    | split
    | with_reducible apply Keeps.lit

theorem fencePageFor_keeps {p : Pg} {reason : Nat} {cause : Link} (kp : p ≠ q₀) (k_die : ∀ d, pgDie d ≠ q₀) (k_mode : ∀ d, pgMode d ≠ q₀) (k_tsync : pgTsync ≠ q₀) (k_fence : ∀ d, pgFence d ≠ q₀) (k_assay : ∀ d, pgAssay d ≠ q₀) (k_hoistGlobal : ∀ d, pgHoistGlobal d ≠ q₀) (k_chuteGlobal : ∀ d, pgChuteGlobal d ≠ q₀) (k_hp : ∀ d i, pgHp d i ≠ q₀) (k_enc : ∀ d i, pgEnc d i ≠ q₀) (k_ax : ∀ d i, pgAx d i ≠ q₀) (k_seam : ∀ d, pgSeam d ≠ q₀) (k_echo : ∀ d, pgEcho d ≠ q₀) (k_ctx : ∀ d, pgCtx d ≠ q₀) (k_chute : ∀ d i, pgChute d i ≠ q₀) (k_debug : ∀ d, pgDebug d ≠ q₀) (hU : Keeps q₀ s₀ s) : Keeps q₀ s₀ (fencePageFor s p reason cause) := by
  unfold fencePageFor
  try dsimp only
  repeat' first
    | with_reducible assumption
    | with_reducible exact k_die _
    | with_reducible exact k_mode _
    | with_reducible exact k_tsync
    | with_reducible exact k_fence _
    | with_reducible exact k_assay _
    | with_reducible exact k_hoistGlobal _
    | with_reducible exact k_chuteGlobal _
    | with_reducible exact k_hp _ _
    | with_reducible exact k_enc _ _
    | with_reducible exact k_ax _ _
    | with_reducible exact k_seam _
    | with_reducible exact k_echo _
    | with_reducible exact k_ctx _
    | with_reducible exact k_chute _ _
    | with_reducible exact k_debug _
    | intro _
    | with_reducible apply ite_keeps
    | with_reducible apply logRecord_keeps
    | with_reducible apply fenceQuiet_keeps
    | split
    | with_reducible apply Keeps.lit

theorem fenceAll_keeps {d reason : Nat} (k_die : ∀ d, pgDie d ≠ q₀) (k_mode : ∀ d, pgMode d ≠ q₀) (k_tsync : pgTsync ≠ q₀) (k_fence : ∀ d, pgFence d ≠ q₀) (k_assay : ∀ d, pgAssay d ≠ q₀) (k_hoistGlobal : ∀ d, pgHoistGlobal d ≠ q₀) (k_chuteGlobal : ∀ d, pgChuteGlobal d ≠ q₀) (k_hp : ∀ d i, pgHp d i ≠ q₀) (k_enc : ∀ d i, pgEnc d i ≠ q₀) (k_ax : ∀ d i, pgAx d i ≠ q₀) (k_seam : ∀ d, pgSeam d ≠ q₀) (k_echo : ∀ d, pgEcho d ≠ q₀) (k_ctx : ∀ d, pgCtx d ≠ q₀) (k_chute : ∀ d i, pgChute d i ≠ q₀) (k_debug : ∀ d, pgDebug d ≠ q₀) (k_fb : ∀ p, (pgKind p).fenceable = true → p ≠ q₀) (hU : Keeps q₀ s₀ s) : Keeps q₀ s₀ (fenceAll s d reason) := by
  unfold fenceAll
  dsimp only
  apply setDie_keeps
  apply each_keeps_mem
  · apply each_keeps hU
    intro t k ht
    apply ctxFence_keeps <;> assumption
  · intro t p hp ht
    have hf : (pgKind p).fenceable = true := by
      have := (List.mem_filter.mp (List.mem_filter.mp hp).1).2
      simp only [Bool.and_eq_true] at this
      exact this.1
    have kp : p ≠ q₀ := k_fb p hf
    apply fenceQuiet_keeps <;> assumption

theorem dieRecord_keeps {d : Nat} {kind : Nat} {reason : Nat} (k_fence : ∀ d, pgFence d ≠ q₀) (k_chuteGlobal : ∀ d, pgChuteGlobal d ≠ q₀) (k_chute : ∀ d i, pgChute d i ≠ q₀) (hU : Keeps q₀ s₀ s) : Keeps q₀ s₀ (dieRecord s d kind reason) := by
  unfold dieRecord
  try dsimp only
  repeat' first
    | with_reducible assumption
    | with_reducible exact k_fence _
    | with_reducible exact k_chuteGlobal _
    | with_reducible exact k_chute _ _
    | intro _
    | with_reducible apply ite_keeps
    | with_reducible apply logRecord_keeps
    | split
    | with_reducible apply Keeps.lit

theorem seamsAll_keeps (k_seam : ∀ d, pgSeam d ≠ q₀) (hU : Keeps q₀ s₀ s) : Keeps q₀ s₀ (seamsAll s) := by
  unfold seamsAll
  try dsimp only
  repeat' first
    | with_reducible assumption
    | with_reducible exact k_seam _
    | intro _
    | with_reducible apply ite_keeps
    | with_reducible apply each_keeps
    | with_reducible apply seamsUpdate_keeps
    | split
    | with_reducible apply Keeps.lit

theorem dieReport_keeps {d : Nat} {reason : Nat} (k_fence : ∀ d, pgFence d ≠ q₀) (k_chuteGlobal : ∀ d, pgChuteGlobal d ≠ q₀) (k_seam : ∀ d, pgSeam d ≠ q₀) (k_chute : ∀ d i, pgChute d i ≠ q₀) (hU : Keeps q₀ s₀ s) : Keeps q₀ s₀ (dieReport s d reason) := by
  unfold dieReport
  try dsimp only
  repeat' first
    | with_reducible assumption
    | with_reducible exact k_fence _
    | with_reducible exact k_chuteGlobal _
    | with_reducible exact k_seam _
    | with_reducible exact k_chute _ _
    | intro _
    | with_reducible apply ite_keeps
    | with_reducible apply dieRecord_keeps
    | with_reducible apply raise_keeps
    | with_reducible apply seamsAll_keeps
    | with_reducible apply wb_keeps
    | split
    | with_reducible apply Keeps.lit

theorem fenceDie_keeps {d : Nat} {reason : Nat} (k_die : ∀ d, pgDie d ≠ q₀) (k_mode : ∀ d, pgMode d ≠ q₀) (k_tsync : pgTsync ≠ q₀) (k_fence : ∀ d, pgFence d ≠ q₀) (k_assay : ∀ d, pgAssay d ≠ q₀) (k_hoistGlobal : ∀ d, pgHoistGlobal d ≠ q₀) (k_chuteGlobal : ∀ d, pgChuteGlobal d ≠ q₀) (k_hp : ∀ d i, pgHp d i ≠ q₀) (k_enc : ∀ d i, pgEnc d i ≠ q₀) (k_ax : ∀ d i, pgAx d i ≠ q₀) (k_seam : ∀ d, pgSeam d ≠ q₀) (k_echo : ∀ d, pgEcho d ≠ q₀) (k_ctx : ∀ d, pgCtx d ≠ q₀) (k_chute : ∀ d i, pgChute d i ≠ q₀) (k_debug : ∀ d, pgDebug d ≠ q₀) (k_fb : ∀ p, (pgKind p).fenceable = true → p ≠ q₀) (hU : Keeps q₀ s₀ s) : Keeps q₀ s₀ (fenceDie s d reason) := by
  unfold fenceDie
  try dsimp only
  repeat' first
    | with_reducible assumption
    | with_reducible exact k_die _
    | with_reducible exact k_mode _
    | with_reducible exact k_tsync
    | with_reducible exact k_fence _
    | with_reducible exact k_assay _
    | with_reducible exact k_hoistGlobal _
    | with_reducible exact k_chuteGlobal _
    | with_reducible exact k_hp _ _
    | with_reducible exact k_enc _ _
    | with_reducible exact k_ax _ _
    | with_reducible exact k_seam _
    | with_reducible exact k_echo _
    | with_reducible exact k_ctx _
    | with_reducible exact k_chute _ _
    | with_reducible exact k_debug _
    | intro _
    | with_reducible apply ite_keeps
    | with_reducible apply fenceAll_keeps
    | with_reducible apply setDie_keeps
    | with_reducible apply dieReport_keeps
    | split
    | with_reducible apply Keeps.lit

theorem diesLearn_keeps (k_fence : ∀ d, pgFence d ≠ q₀) (k_chuteGlobal : ∀ d, pgChuteGlobal d ≠ q₀) (k_seam : ∀ d, pgSeam d ≠ q₀) (k_chute : ∀ d i, pgChute d i ≠ q₀) (hU : Keeps q₀ s₀ s) : Keeps q₀ s₀ (diesLearn s) := by
  unfold diesLearn
  try dsimp only
  repeat' first
    | with_reducible assumption
    | with_reducible exact k_fence _
    | with_reducible exact k_chuteGlobal _
    | with_reducible exact k_seam _
    | with_reducible exact k_chute _ _
    | intro _
    | with_reducible apply ite_keeps
    | with_reducible apply each_keeps
    | with_reducible apply dieReport_keeps
    | with_reducible apply setDie_keeps
    | split
    | with_reducible apply Keeps.lit

theorem trainFailed_keeps {d : Nat} {p : Nat} (k_die : ∀ d, pgDie d ≠ q₀) (k_mode : ∀ d, pgMode d ≠ q₀) (k_tsync : pgTsync ≠ q₀) (k_fence : ∀ d, pgFence d ≠ q₀) (k_assay : ∀ d, pgAssay d ≠ q₀) (k_memctl : ∀ d, pgMemctl d ≠ q₀) (k_hoistGlobal : ∀ d, pgHoistGlobal d ≠ q₀) (k_chuteGlobal : ∀ d, pgChuteGlobal d ≠ q₀) (k_mbox : ∀ d b, pgMbox d b ≠ q₀) (k_hp : ∀ d i, pgHp d i ≠ q₀) (k_enc : ∀ d i, pgEnc d i ≠ q₀) (k_ax : ∀ d i, pgAx d i ≠ q₀) (k_seam : ∀ d, pgSeam d ≠ q₀) (k_echo : ∀ d, pgEcho d ≠ q₀) (k_ctx : ∀ d, pgCtx d ≠ q₀) (k_chute : ∀ d i, pgChute d i ≠ q₀) (k_debug : ∀ d, pgDebug d ≠ q₀) (hU : Keeps q₀ s₀ s) : Keeps q₀ s₀ (trainFailed s d p) := by
  unfold trainFailed
  try dsimp only
  repeat' first
    | with_reducible assumption
    | with_reducible exact k_die _
    | with_reducible exact k_mode _
    | with_reducible exact k_tsync
    | with_reducible exact k_fence _
    | with_reducible exact k_assay _
    | with_reducible exact k_memctl _
    | with_reducible exact k_hoistGlobal _
    | with_reducible exact k_chuteGlobal _
    | with_reducible exact k_mbox _ _
    | with_reducible exact k_hp _ _
    | with_reducible exact k_enc _ _
    | with_reducible exact k_ax _ _
    | with_reducible exact k_seam _
    | with_reducible exact k_echo _
    | with_reducible exact k_ctx _
    | with_reducible exact k_chute _ _
    | with_reducible exact k_debug _
    | intro _
    | with_reducible apply ite_keeps
    | with_reducible apply setPort_keeps
    | with_reducible apply linkFail_keeps
    | with_reducible apply abandonFrames_keeps
    | with_reducible apply fencePageFor_keeps
    | split
    | with_reducible apply Keeps.lit

theorem attemptEnd_keeps {d : Nat} {p : Nat} {n : Nat} (k_tb : ∀ d, pgTb d ≠ q₀) (hU : Keeps q₀ s₀ s) : Keeps q₀ s₀ (attemptEnd s d p n) := by
  unfold attemptEnd
  try dsimp only
  repeat' first
    | with_reducible assumption
    | with_reducible exact k_tb _
    | intro _
    | with_reducible apply ite_keeps
    | with_reducible apply waitClock_keeps
    | with_reducible apply trainSets_keeps
    | split
    | with_reducible apply Keeps.lit

theorem execTrainAttemptTimeout_kept {d : Nat} {e : AttemptEnd} (k_die : ∀ d, pgDie d ≠ q₀) (k_mode : ∀ d, pgMode d ≠ q₀) (k_tb : ∀ d, pgTb d ≠ q₀) (k_tsync : pgTsync ≠ q₀) (k_fence : ∀ d, pgFence d ≠ q₀) (k_assay : ∀ d, pgAssay d ≠ q₀) (k_memctl : ∀ d, pgMemctl d ≠ q₀) (k_hoistGlobal : ∀ d, pgHoistGlobal d ≠ q₀) (k_chuteGlobal : ∀ d, pgChuteGlobal d ≠ q₀) (k_mbox : ∀ d b, pgMbox d b ≠ q₀) (k_hp : ∀ d i, pgHp d i ≠ q₀) (k_enc : ∀ d i, pgEnc d i ≠ q₀) (k_ax : ∀ d i, pgAx d i ≠ q₀) (k_seam : ∀ d, pgSeam d ≠ q₀) (k_echo : ∀ d, pgEcho d ≠ q₀) (k_ctx : ∀ d, pgCtx d ≠ q₀) (k_chute : ∀ d i, pgChute d i ≠ q₀) (k_debug : ∀ d, pgDebug d ≠ q₀) (hU : Keeps q₀ s₀ s) : Kept q₀ s₀ (execTrainAttemptTimeout d e s) := by
  unfold execTrainAttemptTimeout
  try dsimp only
  repeat' first
    | with_reducible assumption
    | with_reducible exact k_die _
    | with_reducible exact k_mode _
    | with_reducible exact k_tb _
    | with_reducible exact k_tsync
    | with_reducible exact k_fence _
    | with_reducible exact k_assay _
    | with_reducible exact k_memctl _
    | with_reducible exact k_hoistGlobal _
    | with_reducible exact k_chuteGlobal _
    | with_reducible exact k_mbox _ _
    | with_reducible exact k_hp _ _
    | with_reducible exact k_enc _ _
    | with_reducible exact k_ax _ _
    | with_reducible exact k_seam _
    | with_reducible exact k_echo _
    | with_reducible exact k_ctx _
    | with_reducible exact k_chute _ _
    | with_reducible exact k_debug _
    | intro _
    | with_reducible apply ok_kept
    | with_reducible apply ite_kept
    | with_reducible apply ite_keeps
    | with_reducible apply attemptEnd_keeps
    | with_reducible exact ok_kept (by assumption)
    | with_reducible apply setPort_keeps
    | with_reducible apply trainFailed_keeps
    | split
    | with_reducible apply Keeps.lit

end Sys2Proof.Laws
end

