-- ==== Sys2Proof/Laws/HoistCtlReg.lean ====
section
/-!
SUPPORT. The register pages that each operation of `Machine/HoistCtl.lean` may write: every other page reads as before.
-/

set_option Elab.async false
set_option linter.unusedTactic false
set_option linter.unreachableTactic false
namespace Sys2Proof.Laws

open Sys2Proof.Machine

variable {q₀ : Pg} {s₀ s : State}

theorem hcRecord_keeps {d : Nat} {c : Nat} {e : HcErr} (k_fence : ∀ d, pgFence d ≠ q₀) (k_chuteGlobal : ∀ d, pgChuteGlobal d ≠ q₀) (k_chute : ∀ d i, pgChute d i ≠ q₀) (hU : Keeps q₀ s₀ s) : Keeps q₀ s₀ (hcRecord s d c e) := by
  unfold hcRecord
  try dsimp only
  repeat' first
    | with_reducible assumption
    | with_reducible exact k_fence _
    | with_reducible exact k_chuteGlobal _
    | with_reducible exact k_chute _ _
    | intro _
    | with_reducible apply ite_keeps
    | with_reducible apply logRecord_keeps
    | split
    | with_reducible apply Keeps.lit

theorem hcReport_keeps {d : Nat} {c : Nat} {e : HcErr} (k_fence : ∀ d, pgFence d ≠ q₀) (k_hoistGlobal : ∀ d, pgHoistGlobal d ≠ q₀) (k_chuteGlobal : ∀ d, pgChuteGlobal d ≠ q₀) (k_hc : ∀ d i, pgHc d i ≠ q₀) (k_chute : ∀ d i, pgChute d i ≠ q₀) (hU : Keeps q₀ s₀ s) : Keeps q₀ s₀ (hcReport s d c e) := by
  unfold hcReport
  try dsimp only
  repeat' first
    | with_reducible assumption
    | with_reducible exact k_fence _
    | with_reducible exact k_hoistGlobal _
    | with_reducible exact k_chuteGlobal _
    | with_reducible exact k_hc _ _
    | with_reducible exact k_chute _ _
    | intro _
    | with_reducible apply ite_keeps
    | with_reducible apply wr_keeps
    | with_reducible apply wr48_keeps
    | with_reducible apply errRecord_keeps
    | with_reducible apply hcRecord_keeps
    | with_reducible apply count_keeps
    | with_reducible apply raise_keeps
    | split
    | with_reducible apply Keeps.lit

theorem hcAborted_keeps {d : Nat} {c : Nat} (k_hoistGlobal : ∀ d, pgHoistGlobal d ≠ q₀) (k_chuteGlobal : ∀ d, pgChuteGlobal d ≠ q₀) (k_hc : ∀ d i, pgHc d i ≠ q₀) (k_chute : ∀ d i, pgChute d i ≠ q₀) (hU : Keeps q₀ s₀ s) : Keeps q₀ s₀ (hcAborted s d c) := by
  unfold hcAborted
  try dsimp only
  repeat' first
    | with_reducible assumption
    | with_reducible exact k_hoistGlobal _
    | with_reducible exact k_chuteGlobal _
    | with_reducible exact k_hc _ _
    | with_reducible exact k_chute _ _
    | intro _
    | with_reducible apply ite_keeps
    | with_reducible apply errRecord_keeps
    | with_reducible apply hcUnhold_keeps
    | with_reducible apply raise_keeps
    | with_reducible apply setHoist_keeps
    | split
    | with_reducible apply Keeps.lit

theorem hcFail_keeps {d : Nat} {c : Nat} {b : Option Burst} {e : HcErr} (k_die : ∀ d, pgDie d ≠ q₀) (k_mode : ∀ d, pgMode d ≠ q₀) (k_tsync : pgTsync ≠ q₀) (k_fence : ∀ d, pgFence d ≠ q₀) (k_assay : ∀ d, pgAssay d ≠ q₀) (k_hoistGlobal : ∀ d, pgHoistGlobal d ≠ q₀) (k_chuteGlobal : ∀ d, pgChuteGlobal d ≠ q₀) (k_hp : ∀ d i, pgHp d i ≠ q₀) (k_enc : ∀ d i, pgEnc d i ≠ q₀) (k_ax : ∀ d i, pgAx d i ≠ q₀) (k_seam : ∀ d, pgSeam d ≠ q₀) (k_echo : ∀ d, pgEcho d ≠ q₀) (k_ctx : ∀ d, pgCtx d ≠ q₀) (k_hc : ∀ d i, pgHc d i ≠ q₀) (k_chute : ∀ d i, pgChute d i ≠ q₀) (k_debug : ∀ d, pgDebug d ≠ q₀) (hU : Keeps q₀ s₀ s) : Keeps q₀ s₀ (hcFail s d c b e) := by
  unfold hcFail
  try dsimp only
  repeat' first
    | with_reducible assumption
    | with_reducible exact k_die _
    | with_reducible exact k_mode _
    | with_reducible exact k_tsync
    | with_reducible exact k_fence _
    | with_reducible exact k_assay _
    | with_reducible exact k_hoistGlobal _
    | with_reducible exact k_chuteGlobal _
    | with_reducible exact k_hp _ _
    | with_reducible exact k_enc _ _
    | with_reducible exact k_ax _ _
    | with_reducible exact k_seam _
    | with_reducible exact k_echo _
    | with_reducible exact k_ctx _
    | with_reducible exact k_hc _ _
    | with_reducible exact k_chute _ _
    | with_reducible exact k_debug _
    | intro _
    | with_reducible apply ite_keeps
    | with_reducible apply hcUnsig_keeps
    | with_reducible apply hcDrop_keeps
    | with_reducible apply setHoist_keeps
    | with_reducible apply hcReport_keeps
    | with_reducible apply fenceQuiet_keeps
    | with_reducible apply hcAborted_keeps
    | split
    | with_reducible apply Keeps.lit

theorem hcHalt_keeps {d : Nat} {c : Nat} {code : Nat} {w : Nat} (k_die : ∀ d, pgDie d ≠ q₀) (k_mode : ∀ d, pgMode d ≠ q₀) (k_tsync : pgTsync ≠ q₀) (k_fence : ∀ d, pgFence d ≠ q₀) (k_assay : ∀ d, pgAssay d ≠ q₀) (k_hoistGlobal : ∀ d, pgHoistGlobal d ≠ q₀) (k_chuteGlobal : ∀ d, pgChuteGlobal d ≠ q₀) (k_hp : ∀ d i, pgHp d i ≠ q₀) (k_enc : ∀ d i, pgEnc d i ≠ q₀) (k_ax : ∀ d i, pgAx d i ≠ q₀) (k_seam : ∀ d, pgSeam d ≠ q₀) (k_echo : ∀ d, pgEcho d ≠ q₀) (k_ctx : ∀ d, pgCtx d ≠ q₀) (k_hc : ∀ d i, pgHc d i ≠ q₀) (k_chute : ∀ d i, pgChute d i ≠ q₀) (k_debug : ∀ d, pgDebug d ≠ q₀) (hU : Keeps q₀ s₀ s) : Keeps q₀ s₀ (hcHalt s d c code w) := by
  unfold hcHalt
  try dsimp only
  repeat' first
    | with_reducible assumption
    | with_reducible exact k_die _
    | with_reducible exact k_mode _
    | with_reducible exact k_tsync
    | with_reducible exact k_fence _
    | with_reducible exact k_assay _
    | with_reducible exact k_hoistGlobal _
    | with_reducible exact k_chuteGlobal _
    | with_reducible exact k_hp _ _
    | with_reducible exact k_enc _ _
    | with_reducible exact k_ax _ _
    | with_reducible exact k_seam _
    | with_reducible exact k_echo _
    | with_reducible exact k_ctx _
    | with_reducible exact k_hc _ _
    | with_reducible exact k_chute _ _
    | with_reducible exact k_debug _
    | intro _
    | with_reducible apply ite_keeps
    | with_reducible apply hcFail_keeps
    | split
    | with_reducible apply Keeps.lit

theorem hcTrigger_keeps {d : Nat} {c : Nat} (k_hc : ∀ d i, pgHc d i ≠ q₀) (hU : Keeps q₀ s₀ s) : Keeps q₀ s₀ (hcTrigger s d c) := by
  unfold hcTrigger
  try dsimp only
  repeat' first
    | with_reducible assumption
    | with_reducible exact k_hc _ _
    | intro _
    | with_reducible apply ite_keeps
    | with_reducible apply raise_keeps
    | with_reducible apply wf_keeps
    | split
    | with_reducible apply Keeps.lit

theorem hcResume_keeps {d : Nat} {c : Nat} (k_chuteGlobal : ∀ d, pgChuteGlobal d ≠ q₀) (k_chute : ∀ d i, pgChute d i ≠ q₀) (hU : Keeps q₀ s₀ s) : Keeps q₀ s₀ (hcResume s d c) := by
  unfold hcResume
  try dsimp only
  repeat' first
    | with_reducible assumption
    | with_reducible exact k_chuteGlobal _
    | with_reducible exact k_chute _ _
    | intro _
    | with_reducible apply ite_keeps
    | with_reducible apply hcUnhold_keeps
    | with_reducible apply setHoist_keeps
    | split
    | with_reducible apply Keeps.lit

theorem hcAbort_keeps {d : Nat} {c : Nat} (k_hoistGlobal : ∀ d, pgHoistGlobal d ≠ q₀) (k_chuteGlobal : ∀ d, pgChuteGlobal d ≠ q₀) (k_hc : ∀ d i, pgHc d i ≠ q₀) (k_chute : ∀ d i, pgChute d i ≠ q₀) (hU : Keeps q₀ s₀ s) : Keeps q₀ s₀ (hcAbort s d c) := by
  unfold hcAbort
  try dsimp only
  repeat' first
    | with_reducible assumption
    | with_reducible exact k_hoistGlobal _
    | with_reducible exact k_chuteGlobal _
    | with_reducible exact k_hc _ _
    | with_reducible exact k_chute _ _
    | intro _
    | with_reducible apply ite_keeps
    | with_reducible apply hcAborted_keeps
    | with_reducible apply hcUnsig_keeps
    | with_reducible apply setHoist_keeps
    | split
    | with_reducible apply Keeps.lit

theorem hcCtrl_keeps {d : Nat} {c : Nat} {v : Word} (k_hoistGlobal : ∀ d, pgHoistGlobal d ≠ q₀) (k_chuteGlobal : ∀ d, pgChuteGlobal d ≠ q₀) (k_hc : ∀ d i, pgHc d i ≠ q₀) (k_chute : ∀ d i, pgChute d i ≠ q₀) (hU : Keeps q₀ s₀ s) : Keeps q₀ s₀ (hcCtrl s d c v) := by
  unfold hcCtrl
  try dsimp only
  repeat' first
    | with_reducible assumption
    | with_reducible exact k_hoistGlobal _
    | with_reducible exact k_chuteGlobal _
    | with_reducible exact k_hc _ _
    | with_reducible exact k_chute _ _
    | intro _
    | with_reducible apply ite_keeps
    | with_reducible apply wb_keeps
    | with_reducible apply whenDo_keeps
    | with_reducible apply wf_keeps
    | with_reducible apply hcAbort_keeps
    | with_reducible apply hcResume_keeps
    | with_reducible apply hcTrigger_keeps
    | split
    | with_reducible apply Keeps.lit

theorem hcStarted_keeps {d : Nat} {c : Nat} (k_hoistGlobal : ∀ d, pgHoistGlobal d ≠ q₀) (k_chuteGlobal : ∀ d, pgChuteGlobal d ≠ q₀) (k_hc : ∀ d i, pgHc d i ≠ q₀) (k_chute : ∀ d i, pgChute d i ≠ q₀) (hU : Keeps q₀ s₀ s) : Keeps q₀ s₀ (hcStarted s d c) := by
  unfold hcStarted
  try dsimp only
  repeat' first
    | with_reducible assumption
    | with_reducible exact k_hoistGlobal _
    | with_reducible exact k_chuteGlobal _
    | with_reducible exact k_hc _ _
    | with_reducible exact k_chute _ _
    | intro _
    | with_reducible apply ite_keeps
    | with_reducible apply setHoist_keeps
    | with_reducible apply hcAborted_keeps
    | with_reducible apply wr_keeps
    | with_reducible apply wr48_keeps
    | with_reducible apply errRecord_keeps
    | with_reducible apply count_keeps
    | with_reducible apply raise_keeps
    | split
    | with_reducible apply Keeps.lit

theorem hcStop_keeps {d : Nat} {c : Nat} (k_hoistGlobal : ∀ d, pgHoistGlobal d ≠ q₀) (k_hc : ∀ d i, pgHc d i ≠ q₀) (hU : Keeps q₀ s₀ s) : Keeps q₀ s₀ (hcStop s d c) := by
  unfold hcStop
  try dsimp only
  repeat' first
    | with_reducible assumption
    | with_reducible exact k_hoistGlobal _
    | with_reducible exact k_hc _ _
    | intro _
    | with_reducible apply ite_keeps
    | with_reducible apply wf_keeps
    | with_reducible apply hcUnsig_keeps
    | with_reducible apply setHoist_keeps
    | split
    | with_reducible apply Keeps.lit

theorem hcStopped_keeps {d : Nat} {c : Nat} (k_hoistGlobal : ∀ d, pgHoistGlobal d ≠ q₀) (k_chuteGlobal : ∀ d, pgChuteGlobal d ≠ q₀) (k_chute : ∀ d i, pgChute d i ≠ q₀) (hU : Keeps q₀ s₀ s) : Keeps q₀ s₀ (hcStopped s d c) := by
  unfold hcStopped
  try dsimp only
  repeat' first
    | with_reducible assumption
    | with_reducible exact k_hoistGlobal _
    | with_reducible exact k_chuteGlobal _
    | with_reducible exact k_chute _ _
    | intro _
    | with_reducible apply ite_keeps
    | with_reducible apply hcUnhold_keeps
    | with_reducible apply errRecord_keeps
    | with_reducible apply setHoist_keeps
    | split
    | with_reducible apply Keeps.lit

end Sys2Proof.Laws
end

