-- ==== Sys2Proof/Laws/AxisReg.lean ====
section
/-!
SUPPORT. The register pages that each operation of `Machine/Axis.lean` may write: every other page reads as before.
-/

set_option Elab.async false
set_option linter.unusedTactic false
set_option linter.unreachableTactic false
namespace Sys2Proof.Laws

open Sys2Proof.Machine

variable {q₀ : Pg} {s₀ s : State}

theorem axFault_keeps {d : Nat} {a : Nat} {bitNo : Nat} {evt : Nat} (k_ax : ∀ d i, pgAx d i ≠ q₀) (hU : Keeps q₀ s₀ s) : Keeps q₀ s₀ (axFault s d a bitNo evt) := by
  unfold axFault
  try dsimp only
  repeat' first
    | with_reducible assumption
    | with_reducible exact k_ax _ _
    | intro _
    | with_reducible apply ite_keeps
    | with_reducible apply raise_keeps
    | with_reducible apply wb_keeps
    | split
    | with_reducible apply Keeps.lit

theorem axPolicy_keeps {d : Nat} {a : Nat} {fenceBit : Nat} {reason : Nat} (k_die : ∀ d, pgDie d ≠ q₀) (k_mode : ∀ d, pgMode d ≠ q₀) (k_tsync : pgTsync ≠ q₀) (k_fence : ∀ d, pgFence d ≠ q₀) (k_assay : ∀ d, pgAssay d ≠ q₀) (k_hoistGlobal : ∀ d, pgHoistGlobal d ≠ q₀) (k_chuteGlobal : ∀ d, pgChuteGlobal d ≠ q₀) (k_hp : ∀ d i, pgHp d i ≠ q₀) (k_enc : ∀ d i, pgEnc d i ≠ q₀) (k_ax : ∀ d i, pgAx d i ≠ q₀) (k_seam : ∀ d, pgSeam d ≠ q₀) (k_echo : ∀ d, pgEcho d ≠ q₀) (k_ctx : ∀ d, pgCtx d ≠ q₀) (k_chute : ∀ d i, pgChute d i ≠ q₀) (k_debug : ∀ d, pgDebug d ≠ q₀) (hU : Keeps q₀ s₀ s) : Keeps q₀ s₀ (axPolicy s d a fenceBit reason) := by
  unfold axPolicy
  try dsimp only
  repeat' first
    | with_reducible assumption
    | with_reducible exact k_die _
    | with_reducible exact k_mode _
    | with_reducible exact k_tsync
    | with_reducible exact k_fence _
    | with_reducible exact k_assay _
    | with_reducible exact k_hoistGlobal _
    | with_reducible exact k_chuteGlobal _
    | with_reducible exact k_hp _ _
    | with_reducible exact k_enc _ _
    | with_reducible exact k_ax _ _
    | with_reducible exact k_seam _
    | with_reducible exact k_echo _
    | with_reducible exact k_ctx _
    | with_reducible exact k_chute _ _
    | with_reducible exact k_debug _
    | intro _
    | with_reducible apply ite_keeps
    | with_reducible apply fencePage_keeps
    | with_reducible apply setAxis_keeps
    | split
    | with_reducible apply Keeps.lit

theorem axStall_keeps {d : Nat} {a : Nat} (k_die : ∀ d, pgDie d ≠ q₀) (k_mode : ∀ d, pgMode d ≠ q₀) (k_tsync : pgTsync ≠ q₀) (k_fence : ∀ d, pgFence d ≠ q₀) (k_assay : ∀ d, pgAssay d ≠ q₀) (k_hoistGlobal : ∀ d, pgHoistGlobal d ≠ q₀) (k_chuteGlobal : ∀ d, pgChuteGlobal d ≠ q₀) (k_hp : ∀ d i, pgHp d i ≠ q₀) (k_enc : ∀ d i, pgEnc d i ≠ q₀) (k_ax : ∀ d i, pgAx d i ≠ q₀) (k_seam : ∀ d, pgSeam d ≠ q₀) (k_echo : ∀ d, pgEcho d ≠ q₀) (k_ctx : ∀ d, pgCtx d ≠ q₀) (k_chute : ∀ d i, pgChute d i ≠ q₀) (k_debug : ∀ d, pgDebug d ≠ q₀) (hU : Keeps q₀ s₀ s) : Keeps q₀ s₀ (axStall s d a) := by
  unfold axStall
  try dsimp only
  repeat' first
    | with_reducible assumption
    | with_reducible exact k_die _
    | with_reducible exact k_mode _
    | with_reducible exact k_tsync
    | with_reducible exact k_fence _
    | with_reducible exact k_assay _
    | with_reducible exact k_hoistGlobal _
    | with_reducible exact k_chuteGlobal _
    | with_reducible exact k_hp _ _
    | with_reducible exact k_enc _ _
    | with_reducible exact k_ax _ _
    | with_reducible exact k_seam _
    | with_reducible exact k_echo _
    | with_reducible exact k_ctx _
    | with_reducible exact k_chute _ _
    | with_reducible exact k_debug _
    | intro _
    | with_reducible apply ite_keeps
    | with_reducible apply axPolicy_keeps
    | with_reducible apply axFault_keeps
    | with_reducible apply count_keeps
    | split
    | with_reducible apply Keeps.lit

theorem stallDetect_keeps {d : Nat} {a : Nat} {theta : Nat} {ia : Int} {ib : Int} (k_ax : ∀ d i, pgAx d i ≠ q₀) (hU : Keeps q₀ s₀ s) : Keeps q₀ s₀ (stallDetect s d a theta ia ib).2 := by
  unfold stallDetect
  try dsimp only
  repeat' first
    | with_reducible assumption
    | with_reducible exact k_ax _ _
    | intro _
    | with_reducible apply ite_keeps
    | with_reducible apply setAxis_keeps
    | with_reducible apply nextFree_keeps
    | with_reducible apply wr_keeps
    | split
    | with_reducible apply Keeps.lit

theorem loopTick_keeps {d : Nat} {a : Nat} {sa : Int} {sb : Int} (k_die : ∀ d, pgDie d ≠ q₀) (k_mode : ∀ d, pgMode d ≠ q₀) (k_tsync : pgTsync ≠ q₀) (k_fence : ∀ d, pgFence d ≠ q₀) (k_assay : ∀ d, pgAssay d ≠ q₀) (k_hoistGlobal : ∀ d, pgHoistGlobal d ≠ q₀) (k_chuteGlobal : ∀ d, pgChuteGlobal d ≠ q₀) (k_hp : ∀ d i, pgHp d i ≠ q₀) (k_enc : ∀ d i, pgEnc d i ≠ q₀) (k_ax : ∀ d i, pgAx d i ≠ q₀) (k_seam : ∀ d, pgSeam d ≠ q₀) (k_echo : ∀ d, pgEcho d ≠ q₀) (k_ctx : ∀ d, pgCtx d ≠ q₀) (k_chute : ∀ d i, pgChute d i ≠ q₀) (k_debug : ∀ d, pgDebug d ≠ q₀) (hU : Keeps q₀ s₀ s) : Keeps q₀ s₀ (loopTick s d a sa sb) := by
  unfold loopTick
  try dsimp only
  repeat' first
    | with_reducible assumption
    | with_reducible exact k_die _
    | with_reducible exact k_mode _
    | with_reducible exact k_tsync
    | with_reducible exact k_fence _
    | with_reducible exact k_assay _
    | with_reducible exact k_hoistGlobal _
    | with_reducible exact k_chuteGlobal _
    | with_reducible exact k_hp _ _
    | with_reducible exact k_enc _ _
    | with_reducible exact k_ax _ _
    | with_reducible exact k_seam _
    | with_reducible exact k_echo _
    | with_reducible exact k_ctx _
    | with_reducible exact k_chute _ _
    | with_reducible exact k_debug _
    | intro _
    | with_reducible apply ite_keeps
    | with_reducible apply setAxis_keeps
    | with_reducible apply nextFree_keeps
    | with_reducible apply stallDetect_keeps
    | with_reducible apply wr_keeps
    | with_reducible apply whenDo_keeps
    | with_reducible apply fencePage_keeps
    | with_reducible apply axFault_keeps
    | with_reducible apply axStall_keeps
    | (with_reducible refine pair_keeps (by assumption) ?_)
    | split
    | with_reducible apply Keeps.lit

theorem execCurrentLoopTick_kept {d : Nat} {a : Nat} {ia : Int} {ib : Int} (k_die : ∀ d, pgDie d ≠ q₀) (k_mode : ∀ d, pgMode d ≠ q₀) (k_tb : ∀ d, pgTb d ≠ q₀) (k_tsync : pgTsync ≠ q₀) (k_fence : ∀ d, pgFence d ≠ q₀) (k_assay : ∀ d, pgAssay d ≠ q₀) (k_hoistGlobal : ∀ d, pgHoistGlobal d ≠ q₀) (k_chuteGlobal : ∀ d, pgChuteGlobal d ≠ q₀) (k_hp : ∀ d i, pgHp d i ≠ q₀) (k_enc : ∀ d i, pgEnc d i ≠ q₀) (k_ax : ∀ d i, pgAx d i ≠ q₀) (k_seam : ∀ d, pgSeam d ≠ q₀) (k_echo : ∀ d, pgEcho d ≠ q₀) (k_ctx : ∀ d, pgCtx d ≠ q₀) (k_chute : ∀ d i, pgChute d i ≠ q₀) (k_debug : ∀ d, pgDebug d ≠ q₀) (hU : Keeps q₀ s₀ s) : Kept q₀ s₀ (execCurrentLoopTick d a ia ib s) := by
  unfold execCurrentLoopTick
  try dsimp only
  repeat' first
    | with_reducible assumption
    | with_reducible exact k_die _
    | with_reducible exact k_mode _
    | with_reducible exact k_tb _
    | with_reducible exact k_tsync
    | with_reducible exact k_fence _
    | with_reducible exact k_assay _
    | with_reducible exact k_hoistGlobal _
    | with_reducible exact k_chuteGlobal _
    | with_reducible exact k_hp _ _
    | with_reducible exact k_enc _ _
    | with_reducible exact k_ax _ _
    | with_reducible exact k_seam _
    | with_reducible exact k_echo _
    | with_reducible exact k_ctx _
    | with_reducible exact k_chute _ _
    | with_reducible exact k_debug _
    | intro _
    | with_reducible apply ok_kept
    | with_reducible apply ite_kept
    | with_reducible apply ite_keeps
    | with_reducible exact ok_kept (by assumption)
    | with_reducible apply loopTick_keeps
    | with_reducible apply waitClock_keeps
    | split
    | with_reducible apply Keeps.lit

theorem execBridgeFault_kept {d : Nat} {a : Nat} (k_die : ∀ d, pgDie d ≠ q₀) (k_mode : ∀ d, pgMode d ≠ q₀) (k_tsync : pgTsync ≠ q₀) (k_fence : ∀ d, pgFence d ≠ q₀) (k_assay : ∀ d, pgAssay d ≠ q₀) (k_hoistGlobal : ∀ d, pgHoistGlobal d ≠ q₀) (k_chuteGlobal : ∀ d, pgChuteGlobal d ≠ q₀) (k_hp : ∀ d i, pgHp d i ≠ q₀) (k_enc : ∀ d i, pgEnc d i ≠ q₀) (k_ax : ∀ d i, pgAx d i ≠ q₀) (k_seam : ∀ d, pgSeam d ≠ q₀) (k_echo : ∀ d, pgEcho d ≠ q₀) (k_ctx : ∀ d, pgCtx d ≠ q₀) (k_chute : ∀ d i, pgChute d i ≠ q₀) (k_debug : ∀ d, pgDebug d ≠ q₀) (hU : Keeps q₀ s₀ s) : Kept q₀ s₀ (execBridgeFault d a s) := by
  unfold execBridgeFault
  try dsimp only
  repeat' first
    | with_reducible assumption
    | with_reducible exact k_die _
    | with_reducible exact k_mode _
    | with_reducible exact k_tsync
    | with_reducible exact k_fence _
    | with_reducible exact k_assay _
    | with_reducible exact k_hoistGlobal _
    | with_reducible exact k_chuteGlobal _
    | with_reducible exact k_hp _ _
    | with_reducible exact k_enc _ _
    | with_reducible exact k_ax _ _
    | with_reducible exact k_seam _
    | with_reducible exact k_echo _
    | with_reducible exact k_ctx _
    | with_reducible exact k_chute _ _
    | with_reducible exact k_debug _
    | intro _
    | with_reducible apply ok_kept
    | with_reducible apply ite_kept
    | with_reducible apply ite_keeps
    | with_reducible exact ok_kept (by assumption)
    | with_reducible apply fencePage_keeps
    | with_reducible apply axFault_keeps
    | split
    | with_reducible apply Keeps.lit

theorem stepApply_keeps {d : Nat} {a : Nat} {dir : Int} {te : Nat} (k_ax : ∀ d i, pgAx d i ≠ q₀) (hU : Keeps q₀ s₀ s) : Keeps q₀ s₀ (stepApply s d a dir te) := by
  unfold stepApply
  try dsimp only
  repeat' first
    | with_reducible assumption
    | with_reducible exact k_ax _ _
    | intro _
    | with_reducible apply ite_keeps
    | with_reducible apply wb_keeps
    | with_reducible apply setAxis_keeps
    | with_reducible apply whenDo_keeps
    | with_reducible apply raise_keeps
    | split
    | with_reducible apply Keeps.lit

theorem execStepInput_kept {d : Nat} {a : Nat} {fwd : Bool} (k_ax : ∀ d i, pgAx d i ≠ q₀) (hU : Keeps q₀ s₀ s) : Kept q₀ s₀ (execStepInput d a fwd s) := by
  unfold execStepInput
  try dsimp only
  repeat' first
    | with_reducible assumption
    | with_reducible exact k_ax _ _
    | intro _
    | with_reducible apply ok_kept
    | with_reducible apply ite_kept
    | with_reducible apply ite_keeps
    | with_reducible exact ok_kept (by assumption)
    | with_reducible apply wr_keeps
    | with_reducible apply stepApply_keeps
    | with_reducible apply setAxis_keeps
    | split
    | with_reducible apply Keeps.lit

theorem judgeDec_keeps {d : Nat} {a : Nat} (k_ax : ∀ d i, pgAx d i ≠ q₀) (hU : Keeps q₀ s₀ s) : Keeps q₀ s₀ (judgeDec s d a) := by
  unfold judgeDec
  try dsimp only
  repeat' first
    | with_reducible assumption
    | with_reducible exact k_ax _ _
    | intro _
    | with_reducible apply ite_keeps
    | with_reducible apply setAxis_keeps
    | with_reducible apply raise_keeps
    | split
    | with_reducible apply Keeps.lit

theorem planMoving_keeps {d : Nat} {a : Nat} (k_ax : ∀ d i, pgAx d i ≠ q₀) (hU : Keeps q₀ s₀ s) : Keeps q₀ s₀ (planMoving s d a) := by
  unfold planMoving
  try dsimp only
  repeat' first
    | with_reducible assumption
    | with_reducible exact k_ax _ _
    | intro _
    | with_reducible apply ite_keeps
    | with_reducible apply judgeDec_keeps
    | with_reducible apply whenDo_keeps
    | with_reducible apply setAxis_keeps
    | with_reducible apply raise_keeps
    | with_reducible apply setMstate_keeps
    | split
    | with_reducible apply Keeps.lit

theorem planStopping_keeps {d : Nat} {a : Nat} (k_ax : ∀ d i, pgAx d i ≠ q₀) (hU : Keeps q₀ s₀ s) : Keeps q₀ s₀ (planStopping s d a) := by
  unfold planStopping
  try dsimp only
  repeat' first
    | with_reducible assumption
    | with_reducible exact k_ax _ _
    | intro _
    | with_reducible apply ite_keeps
    | with_reducible apply setAxis_keeps
    | with_reducible apply raise_keeps
    | with_reducible apply setMstate_keeps
    | with_reducible apply wr48_keeps
    | split
    | with_reducible apply Keeps.lit

theorem axHold_keeps {d : Nat} {a : Nat} (k_ax : ∀ d i, pgAx d i ≠ q₀) (hU : Keeps q₀ s₀ s) : Keeps q₀ s₀ (axHold s d a) := by
  unfold axHold
  try dsimp only
  repeat' first
    | with_reducible assumption
    | with_reducible exact k_ax _ _
    | intro _
    | with_reducible apply ite_keeps
    | with_reducible apply setMstate_keeps
    | split
    | with_reducible apply Keeps.lit

theorem axCut_keeps {d : Nat} {a : Nat} {soft : Bool} (k_ax : ∀ d i, pgAx d i ≠ q₀) (hU : Keeps q₀ s₀ s) : Keeps q₀ s₀ (axCut s d a soft) := by
  unfold axCut
  try dsimp only
  repeat' first
    | with_reducible assumption
    | with_reducible exact k_ax _ _
    | intro _
    | with_reducible apply ite_keeps
    | with_reducible apply setAxis_keeps
    | with_reducible apply setPosValid_keeps
    | with_reducible apply raise_keeps
    | with_reducible apply setMstate_keeps
    | with_reducible apply wr48_keeps
    | split
    | with_reducible apply Keeps.lit

theorem axStop_keeps {d : Nat} {a : Nat} {soft : Bool} (k_ax : ∀ d i, pgAx d i ≠ q₀) (hU : Keeps q₀ s₀ s) : Keeps q₀ s₀ (axStop s d a soft) := by
  unfold axStop
  try dsimp only
  repeat' first
    | with_reducible assumption
    | with_reducible exact k_ax _ _
    | intro _
    | with_reducible apply ite_keeps
    | with_reducible apply axCut_keeps
    | with_reducible apply axHold_keeps
    | split
    | with_reducible apply Keeps.lit

theorem homeStart_keeps {d : Nat} {a : Nat} (k_ax : ∀ d i, pgAx d i ≠ q₀) (hU : Keeps q₀ s₀ s) : Keeps q₀ s₀ (homeStart s d a) := by
  unfold homeStart
  try dsimp only
  repeat' first
    | with_reducible assumption
    | with_reducible exact k_ax _ _
    | intro _
    | with_reducible apply ite_keeps
    | with_reducible apply setHphase_keeps
    | with_reducible apply setMstate_keeps
    | with_reducible apply setAxis_keeps
    | split
    | with_reducible apply Keeps.lit

theorem homePhase_keeps {d : Nat} {a : Nat} {h : Nat} (k_ax : ∀ d i, pgAx d i ≠ q₀) (hU : Keeps q₀ s₀ s) : Keeps q₀ s₀ (homePhase s d a h) := by
  unfold homePhase
  try dsimp only
  repeat' first
    | with_reducible assumption
    | with_reducible exact k_ax _ _
    | intro _
    | with_reducible apply ite_keeps
    | with_reducible apply setHphase_keeps
    | with_reducible apply setAxis_keeps
    | split
    | with_reducible apply Keeps.lit

theorem homeEnd_keeps {d : Nat} {a : Nat} {h : Nat} (hU : Keeps q₀ s₀ s) : Keeps q₀ s₀ (homeEnd s d a h) := by
  unfold homeEnd
  try dsimp only
  repeat' first
    | with_reducible assumption
    | intro _
    | with_reducible apply ite_keeps
    | with_reducible apply setAxis_keeps
    | split
    | with_reducible apply Keeps.lit

theorem homingFault_keeps {d : Nat} {a : Nat} (k_die : ∀ d, pgDie d ≠ q₀) (k_mode : ∀ d, pgMode d ≠ q₀) (k_tsync : pgTsync ≠ q₀) (k_fence : ∀ d, pgFence d ≠ q₀) (k_assay : ∀ d, pgAssay d ≠ q₀) (k_hoistGlobal : ∀ d, pgHoistGlobal d ≠ q₀) (k_chuteGlobal : ∀ d, pgChuteGlobal d ≠ q₀) (k_hp : ∀ d i, pgHp d i ≠ q₀) (k_enc : ∀ d i, pgEnc d i ≠ q₀) (k_ax : ∀ d i, pgAx d i ≠ q₀) (k_seam : ∀ d, pgSeam d ≠ q₀) (k_echo : ∀ d, pgEcho d ≠ q₀) (k_ctx : ∀ d, pgCtx d ≠ q₀) (k_chute : ∀ d i, pgChute d i ≠ q₀) (k_debug : ∀ d, pgDebug d ≠ q₀) (hU : Keeps q₀ s₀ s) : Keeps q₀ s₀ (homingFault s d a) := by
  unfold homingFault
  try dsimp only
  repeat' first
    | with_reducible assumption
    | with_reducible exact k_die _
    | with_reducible exact k_mode _
    | with_reducible exact k_tsync
    | with_reducible exact k_fence _
    | with_reducible exact k_assay _
    | with_reducible exact k_hoistGlobal _
    | with_reducible exact k_chuteGlobal _
    | with_reducible exact k_hp _ _
    | with_reducible exact k_enc _ _
    | with_reducible exact k_ax _ _
    | with_reducible exact k_seam _
    | with_reducible exact k_echo _
    | with_reducible exact k_ctx _
    | with_reducible exact k_chute _ _
    | with_reducible exact k_debug _
    | intro _
    | with_reducible apply ite_keeps
    | with_reducible apply axPolicy_keeps
    | with_reducible apply axFault_keeps
    | split
    | with_reducible apply Keeps.lit

theorem homeEdge_keeps {d : Nat} {a : Nat} {e : Nat × Bool} (k_die : ∀ d, pgDie d ≠ q₀) (k_mode : ∀ d, pgMode d ≠ q₀) (k_tsync : pgTsync ≠ q₀) (k_fence : ∀ d, pgFence d ≠ q₀) (k_assay : ∀ d, pgAssay d ≠ q₀) (k_hoistGlobal : ∀ d, pgHoistGlobal d ≠ q₀) (k_chuteGlobal : ∀ d, pgChuteGlobal d ≠ q₀) (k_hp : ∀ d i, pgHp d i ≠ q₀) (k_enc : ∀ d i, pgEnc d i ≠ q₀) (k_ax : ∀ d i, pgAx d i ≠ q₀) (k_seam : ∀ d, pgSeam d ≠ q₀) (k_echo : ∀ d, pgEcho d ≠ q₀) (k_ctx : ∀ d, pgCtx d ≠ q₀) (k_chute : ∀ d i, pgChute d i ≠ q₀) (k_debug : ∀ d, pgDebug d ≠ q₀) (hU : Keeps q₀ s₀ s) : Keeps q₀ s₀ (homeEdge s d a e) := by
  unfold homeEdge
  try dsimp only
  repeat' first
    | with_reducible assumption
    | with_reducible exact k_die _
    | with_reducible exact k_mode _
    | with_reducible exact k_tsync
    | with_reducible exact k_fence _
    | with_reducible exact k_assay _
    | with_reducible exact k_hoistGlobal _
    | with_reducible exact k_chuteGlobal _
    | with_reducible exact k_hp _ _
    | with_reducible exact k_enc _ _
    | with_reducible exact k_ax _ _
    | with_reducible exact k_seam _
    | with_reducible exact k_echo _
    | with_reducible exact k_ctx _
    | with_reducible exact k_chute _ _
    | with_reducible exact k_debug _
    | intro _
    | with_reducible apply ite_keeps
    | with_reducible apply setAxis_keeps
    | with_reducible apply homeEnd_keeps
    | with_reducible apply homePhase_keeps
    | with_reducible apply homingFault_keeps
    | split
    | with_reducible apply Keeps.lit

theorem homed_keeps {d : Nat} {a : Nat} (k_ax : ∀ d i, pgAx d i ≠ q₀) (hU : Keeps q₀ s₀ s) : Keeps q₀ s₀ (homed s d a) := by
  unfold homed
  try dsimp only
  repeat' first
    | with_reducible assumption
    | with_reducible exact k_ax _ _
    | intro _
    | with_reducible apply ite_keeps
    | with_reducible apply setAxis_keeps
    | with_reducible apply raise_keeps
    | with_reducible apply setMstate_keeps
    | with_reducible apply setPosValid_keeps
    | split
    | with_reducible apply Keeps.lit

theorem planHoming_keeps {d : Nat} {a : Nat} (k_ax : ∀ d i, pgAx d i ≠ q₀) (hU : Keeps q₀ s₀ s) : Keeps q₀ s₀ (planHoming s d a) := by
  unfold planHoming
  try dsimp only
  repeat' first
    | with_reducible assumption
    | with_reducible exact k_ax _ _
    | intro _
    | with_reducible apply ite_keeps
    | with_reducible apply setAxis_keeps
    | with_reducible apply homePhase_keeps
    | with_reducible apply homed_keeps
    | split
    | with_reducible apply Keeps.lit

theorem axGo_keeps {d : Nat} {a : Nat} (k_ax : ∀ d i, pgAx d i ≠ q₀) (hU : Keeps q₀ s₀ s) : Keeps q₀ s₀ (axGo s d a) := by
  unfold axGo
  try dsimp only
  repeat' first
    | with_reducible assumption
    | with_reducible exact k_ax _ _
    | intro _
    | with_reducible apply ite_keeps
    | with_reducible apply setMstate_keeps
    | with_reducible apply setAxis_keeps
    | split
    | with_reducible apply Keeps.lit

theorem axDo_keeps {d : Nat} {a : Nat} {cmd : Nat} (k_ax : ∀ d i, pgAx d i ≠ q₀) (hU : Keeps q₀ s₀ s) : Keeps q₀ s₀ (axDo s d a cmd).2 := by
  unfold axDo
  try dsimp only
  repeat' first
    | with_reducible assumption
    | with_reducible exact k_ax _ _
    | intro _
    | with_reducible apply ite_keeps
    | with_reducible apply axGo_keeps
    | with_reducible apply axStop_keeps
    | with_reducible apply setMstate_keeps
    | with_reducible apply homeStart_keeps
    | with_reducible apply setPosValid_keeps
    | with_reducible apply setAxis_keeps
    | with_reducible apply wr_keeps
    | with_reducible apply axCut_keeps
    | split
    | with_reducible apply Keeps.lit

theorem axCommand_keeps {d : Nat} {a : Nat} {cmd : Nat} (k_ax : ∀ d i, pgAx d i ≠ q₀) (hU : Keeps q₀ s₀ s) : Keeps q₀ s₀ (axCommand s d a cmd) := by
  unfold axCommand
  try dsimp only
  repeat' first
    | with_reducible assumption
    | with_reducible exact k_ax _ _
    | intro _
    | with_reducible apply ite_keeps
    | with_reducible apply axDo_keeps
    | with_reducible apply wr_keeps
    | with_reducible apply whenDo_keeps
    | with_reducible apply raise_keeps
    | (with_reducible refine pair_keeps (by assumption) ?_)
    | split
    | with_reducible apply Keeps.lit

theorem axPlan_keeps {d : Nat} {a : Nat} (k_ax : ∀ d i, pgAx d i ≠ q₀) (hU : Keeps q₀ s₀ s) : Keeps q₀ s₀ (axPlan s d a) := by
  unfold axPlan
  try dsimp only
  repeat' first
    | with_reducible assumption
    | with_reducible exact k_ax _ _
    | intro _
    | with_reducible apply ite_keeps
    | with_reducible apply planMoving_keeps
    | with_reducible apply planStopping_keeps
    | with_reducible apply planHoming_keeps
    | with_reducible apply wb_keeps
    | split
    | with_reducible apply Keeps.lit

theorem profileTick_keeps {d : Nat} {a : Nat} (k_die : ∀ d, pgDie d ≠ q₀) (k_mode : ∀ d, pgMode d ≠ q₀) (k_tsync : pgTsync ≠ q₀) (k_fence : ∀ d, pgFence d ≠ q₀) (k_assay : ∀ d, pgAssay d ≠ q₀) (k_hoistGlobal : ∀ d, pgHoistGlobal d ≠ q₀) (k_chuteGlobal : ∀ d, pgChuteGlobal d ≠ q₀) (k_hp : ∀ d i, pgHp d i ≠ q₀) (k_enc : ∀ d i, pgEnc d i ≠ q₀) (k_ax : ∀ d i, pgAx d i ≠ q₀) (k_seam : ∀ d, pgSeam d ≠ q₀) (k_echo : ∀ d, pgEcho d ≠ q₀) (k_ctx : ∀ d, pgCtx d ≠ q₀) (k_chute : ∀ d i, pgChute d i ≠ q₀) (k_debug : ∀ d, pgDebug d ≠ q₀) (hU : Keeps q₀ s₀ s) : Keeps q₀ s₀ (profileTick s d a) := by
  unfold profileTick
  try dsimp only
  repeat' first
    | with_reducible assumption
    | with_reducible exact k_die _
    | with_reducible exact k_mode _
    | with_reducible exact k_tsync
    | with_reducible exact k_fence _
    | with_reducible exact k_assay _
    | with_reducible exact k_hoistGlobal _
    | with_reducible exact k_chuteGlobal _
    | with_reducible exact k_hp _ _
    | with_reducible exact k_enc _ _
    | with_reducible exact k_ax _ _
    | with_reducible exact k_seam _
    | with_reducible exact k_echo _
    | with_reducible exact k_ctx _
    | with_reducible exact k_chute _ _
    | with_reducible exact k_debug _
    | intro _
    | with_reducible apply ite_keeps
    | with_reducible apply setAxis_keeps
    | with_reducible apply whenDo_keeps
    | with_reducible apply axStop_keeps
    | with_reducible apply each_keeps
    | with_reducible apply homeEdge_keeps
    | with_reducible apply axCommand_keeps
    | with_reducible apply axPlan_keeps
    | split
    | with_reducible apply Keeps.lit

theorem profileNext_keeps {d : Nat} {a : Nat} (k_die : ∀ d, pgDie d ≠ q₀) (k_mode : ∀ d, pgMode d ≠ q₀) (k_tb : ∀ d, pgTb d ≠ q₀) (k_tsync : pgTsync ≠ q₀) (k_fence : ∀ d, pgFence d ≠ q₀) (k_assay : ∀ d, pgAssay d ≠ q₀) (k_hoistGlobal : ∀ d, pgHoistGlobal d ≠ q₀) (k_chuteGlobal : ∀ d, pgChuteGlobal d ≠ q₀) (k_hp : ∀ d i, pgHp d i ≠ q₀) (k_enc : ∀ d i, pgEnc d i ≠ q₀) (k_ax : ∀ d i, pgAx d i ≠ q₀) (k_seam : ∀ d, pgSeam d ≠ q₀) (k_echo : ∀ d, pgEcho d ≠ q₀) (k_ctx : ∀ d, pgCtx d ≠ q₀) (k_chute : ∀ d i, pgChute d i ≠ q₀) (k_debug : ∀ d, pgDebug d ≠ q₀) (hU : Keeps q₀ s₀ s) : Keeps q₀ s₀ (profileNext s d a) := by
  unfold profileNext
  try dsimp only
  repeat' first
    | with_reducible assumption
    | with_reducible exact k_die _
    | with_reducible exact k_mode _
    | with_reducible exact k_tb _
    | with_reducible exact k_tsync
    | with_reducible exact k_fence _
    | with_reducible exact k_assay _
    | with_reducible exact k_hoistGlobal _
    | with_reducible exact k_chuteGlobal _
    | with_reducible exact k_hp _ _
    | with_reducible exact k_enc _ _
    | with_reducible exact k_ax _ _
    | with_reducible exact k_seam _
    | with_reducible exact k_echo _
    | with_reducible exact k_ctx _
    | with_reducible exact k_chute _ _
    | with_reducible exact k_debug _
    | intro _
    | with_reducible apply ite_keeps
    | with_reducible apply profileTick_keeps
    | with_reducible apply waitClock_keeps
    | split
    | with_reducible apply Keeps.lit

theorem execProfileTick_kept {d : Nat} {a : Nat} (k_die : ∀ d, pgDie d ≠ q₀) (k_mode : ∀ d, pgMode d ≠ q₀) (k_tb : ∀ d, pgTb d ≠ q₀) (k_tsync : pgTsync ≠ q₀) (k_fence : ∀ d, pgFence d ≠ q₀) (k_assay : ∀ d, pgAssay d ≠ q₀) (k_hoistGlobal : ∀ d, pgHoistGlobal d ≠ q₀) (k_chuteGlobal : ∀ d, pgChuteGlobal d ≠ q₀) (k_hp : ∀ d i, pgHp d i ≠ q₀) (k_enc : ∀ d i, pgEnc d i ≠ q₀) (k_ax : ∀ d i, pgAx d i ≠ q₀) (k_seam : ∀ d, pgSeam d ≠ q₀) (k_echo : ∀ d, pgEcho d ≠ q₀) (k_ctx : ∀ d, pgCtx d ≠ q₀) (k_chute : ∀ d i, pgChute d i ≠ q₀) (k_debug : ∀ d, pgDebug d ≠ q₀) (hU : Keeps q₀ s₀ s) : Kept q₀ s₀ (execProfileTick d a s) := by
  unfold execProfileTick
  try dsimp only
  repeat' first
    | with_reducible assumption
    | with_reducible exact k_die _
    | with_reducible exact k_mode _
    | with_reducible exact k_tb _
    | with_reducible exact k_tsync
    | with_reducible exact k_fence _
    | with_reducible exact k_assay _
    | with_reducible exact k_hoistGlobal _
    | with_reducible exact k_chuteGlobal _
    | with_reducible exact k_hp _ _
    | with_reducible exact k_enc _ _
    | with_reducible exact k_ax _ _
    | with_reducible exact k_seam _
    | with_reducible exact k_echo _
    | with_reducible exact k_ctx _
    | with_reducible exact k_chute _ _
    | with_reducible exact k_debug _
    | intro _
    | with_reducible apply ok_kept
    | with_reducible apply ite_kept
    | with_reducible apply ite_keeps
    | with_reducible exact ok_kept (by assumption)
    | with_reducible apply profileNext_keeps
    | split
    | with_reducible apply Keeps.lit

theorem axStatWait_keeps {r : Req} {d : Nat} {a : Nat} (k_die : ∀ d, pgDie d ≠ q₀) (k_mode : ∀ d, pgMode d ≠ q₀) (k_tb : ∀ d, pgTb d ≠ q₀) (k_tsync : pgTsync ≠ q₀) (k_fence : ∀ d, pgFence d ≠ q₀) (k_assay : ∀ d, pgAssay d ≠ q₀) (k_hoistGlobal : ∀ d, pgHoistGlobal d ≠ q₀) (k_chuteGlobal : ∀ d, pgChuteGlobal d ≠ q₀) (k_hp : ∀ d i, pgHp d i ≠ q₀) (k_enc : ∀ d i, pgEnc d i ≠ q₀) (k_ax : ∀ d i, pgAx d i ≠ q₀) (k_seam : ∀ d, pgSeam d ≠ q₀) (k_echo : ∀ d, pgEcho d ≠ q₀) (k_ctx : ∀ d, pgCtx d ≠ q₀) (k_chute : ∀ d i, pgChute d i ≠ q₀) (k_debug : ∀ d, pgDebug d ≠ q₀) (hU : Keeps q₀ s₀ s) : Keeps q₀ s₀ (axStatWait s r d a) := by
  unfold axStatWait
  try dsimp only
  repeat' first
    | with_reducible assumption
    | with_reducible exact k_die _
    | with_reducible exact k_mode _
    | with_reducible exact k_tb _
    | with_reducible exact k_tsync
    | with_reducible exact k_fence _
    | with_reducible exact k_assay _
    | with_reducible exact k_hoistGlobal _
    | with_reducible exact k_chuteGlobal _
    | with_reducible exact k_hp _ _
    | with_reducible exact k_enc _ _
    | with_reducible exact k_ax _ _
    | with_reducible exact k_seam _
    | with_reducible exact k_echo _
    | with_reducible exact k_ctx _
    | with_reducible exact k_chute _ _
    | with_reducible exact k_debug _
    | intro _
    | with_reducible apply ite_keeps
    | with_reducible apply profileNext_keeps
    | split
    | with_reducible apply Keeps.lit

theorem axStart_keeps {d : Nat} {a : Nat} (hU : Keeps q₀ s₀ s) : Keeps q₀ s₀ (axStart s d a) := by
  unfold axStart
  try dsimp only
  repeat' first
    | with_reducible assumption
    | intro _
    | with_reducible apply ite_keeps
    | with_reducible apply setAxis_keeps
    | split
    | with_reducible apply Keeps.lit

theorem axRunning_keeps {d : Nat} {a : Nat} (k_ax : ∀ d i, pgAx d i ≠ q₀) (hU : Keeps q₀ s₀ s) : Keeps q₀ s₀ (axRunning s d a) := by
  unfold axRunning
  try dsimp only
  repeat' first
    | with_reducible assumption
    | with_reducible exact k_ax _ _
    | intro _
    | with_reducible apply ite_keeps
    | with_reducible apply setPstate_keeps
    | with_reducible apply setAxis_keeps
    | with_reducible apply setMstate_keeps
    | split
    | with_reducible apply Keeps.lit

theorem axShut_keeps {d : Nat} {a : Nat} (k_ax : ∀ d i, pgAx d i ≠ q₀) (hU : Keeps q₀ s₀ s) : Keeps q₀ s₀ (axShut s d a) := by
  unfold axShut
  try dsimp only
  repeat' first
    | with_reducible assumption
    | with_reducible exact k_ax _ _
    | intro _
    | with_reducible apply ite_keeps
    | with_reducible apply setPstate_keeps
    | with_reducible apply axCut_keeps
    | with_reducible apply axHold_keeps
    | split
    | with_reducible apply Keeps.lit

theorem axOff_keeps {d : Nat} {a : Nat} (k_enc : ∀ d i, pgEnc d i ≠ q₀) (k_ax : ∀ d i, pgAx d i ≠ q₀) (hU : Keeps q₀ s₀ s) : Keeps q₀ s₀ (axOff s d a) := by
  unfold axOff
  try dsimp only
  repeat' first
    | with_reducible assumption
    | with_reducible exact k_enc _ _
    | with_reducible exact k_ax _ _
    | intro _
    | with_reducible apply ite_keeps
    | with_reducible apply setAxis_keeps
    | with_reducible apply axisLost_keeps
    | with_reducible apply setPosValid_keeps
    | with_reducible apply setMstate_keeps
    | split
    | with_reducible apply Keeps.lit

theorem execAxEnableDone_kept {d : Nat} {a : Nat} (k_tb : ∀ d, pgTb d ≠ q₀) (k_ax : ∀ d i, pgAx d i ≠ q₀) (hU : Keeps q₀ s₀ s) : Kept q₀ s₀ (execAxEnableDone d a s) := by
  unfold execAxEnableDone
  try dsimp only
  repeat' first
    | with_reducible assumption
    | with_reducible exact k_tb _
    | with_reducible exact k_ax _ _
    | intro _
    | with_reducible apply ok_kept
    | with_reducible apply ite_kept
    | with_reducible apply ite_keeps
    | with_reducible exact ok_kept (by assumption)
    | with_reducible apply axRunning_keeps
    | with_reducible apply waitClock_keeps
    | with_reducible apply axShut_keeps
    | split
    | with_reducible apply Keeps.lit

theorem axCmdAdd_keeps {r : Req} {d : Nat} {a : Nat} {cmd : Nat} (hU : Keeps q₀ s₀ s) : Keeps q₀ s₀ (axCmdAdd r d a cmd s) := by
  unfold axCmdAdd
  try dsimp only
  repeat' first
    | with_reducible assumption
    | intro _
    | with_reducible apply ite_keeps
    | with_reducible apply setAxis_keeps
    | split
    | with_reducible apply Keeps.lit

theorem axCmdWrite_keeps {r : Req} {d : Nat} {a : Nat} {cmd : Nat} (k_ax : ∀ d i, pgAx d i ≠ q₀) (k_pcie : pgPcie ≠ q₀) (k_guard : ∀ d, pgGuard d ≠ q₀) (hU : Keeps q₀ s₀ s) : Keeps q₀ s₀ (axCmdWrite r d a cmd s) := by
  unfold axCmdWrite
  try dsimp only
  repeat' first
    | with_reducible assumption
    | with_reducible exact k_ax _ _
    | with_reducible exact k_pcie
    | with_reducible exact k_guard _
    | intro _
    | with_reducible apply ite_keeps
    | with_reducible apply guardedWrite_keeps
    | with_reducible apply axCmdAdd_keeps
    | split
    | with_reducible apply Keeps.lit

theorem execAxMove_kept {r : Req} {d : Nat} {a : Nat} (k_ax : ∀ d i, pgAx d i ≠ q₀) (k_pcie : pgPcie ≠ q₀) (k_guard : ∀ d, pgGuard d ≠ q₀) (hU : Keeps q₀ s₀ s) : Kept q₀ s₀ (execAxMove r d a s) := by
  unfold execAxMove
  try dsimp only
  repeat' first
    | with_reducible assumption
    | with_reducible exact k_ax _ _
    | with_reducible exact k_pcie
    | with_reducible exact k_guard _
    | intro _
    | with_reducible apply ok_kept
    | with_reducible apply ite_kept
    | with_reducible apply ite_keeps
    | with_reducible exact ok_kept (by assumption)
    | with_reducible apply axCmdWrite_keeps
    | split
    | with_reducible apply Keeps.lit

theorem execAxStop_kept {r : Req} {d : Nat} {a : Nat} (k_ax : ∀ d i, pgAx d i ≠ q₀) (k_pcie : pgPcie ≠ q₀) (k_guard : ∀ d, pgGuard d ≠ q₀) (hU : Keeps q₀ s₀ s) : Kept q₀ s₀ (execAxStop r d a s) := by
  unfold execAxStop
  try dsimp only
  repeat' first
    | with_reducible assumption
    | with_reducible exact k_ax _ _
    | with_reducible exact k_pcie
    | with_reducible exact k_guard _
    | intro _
    | with_reducible apply ok_kept
    | with_reducible apply ite_kept
    | with_reducible apply ite_keeps
    | with_reducible exact ok_kept (by assumption)
    | with_reducible apply axCmdWrite_keeps
    | split
    | with_reducible apply Keeps.lit

theorem execAxResume_kept {r : Req} {d : Nat} {a : Nat} (k_ax : ∀ d i, pgAx d i ≠ q₀) (k_pcie : pgPcie ≠ q₀) (k_guard : ∀ d, pgGuard d ≠ q₀) (hU : Keeps q₀ s₀ s) : Kept q₀ s₀ (execAxResume r d a s) := by
  unfold execAxResume
  try dsimp only
  repeat' first
    | with_reducible assumption
    | with_reducible exact k_ax _ _
    | with_reducible exact k_pcie
    | with_reducible exact k_guard _
    | intro _
    | with_reducible apply ok_kept
    | with_reducible apply ite_kept
    | with_reducible apply ite_keeps
    | with_reducible exact ok_kept (by assumption)
    | with_reducible apply axCmdWrite_keeps
    | split
    | with_reducible apply Keeps.lit

theorem execAxHome_kept {r : Req} {d : Nat} {a : Nat} (k_ax : ∀ d i, pgAx d i ≠ q₀) (k_pcie : pgPcie ≠ q₀) (k_guard : ∀ d, pgGuard d ≠ q₀) (hU : Keeps q₀ s₀ s) : Kept q₀ s₀ (execAxHome r d a s) := by
  unfold execAxHome
  try dsimp only
  repeat' first
    | with_reducible assumption
    | with_reducible exact k_ax _ _
    | with_reducible exact k_pcie
    | with_reducible exact k_guard _
    | intro _
    | with_reducible apply ok_kept
    | with_reducible apply ite_kept
    | with_reducible apply ite_keeps
    | with_reducible exact ok_kept (by assumption)
    | with_reducible apply axCmdWrite_keeps
    | split
    | with_reducible apply Keeps.lit

theorem execAxLoad_kept {r : Req} {d : Nat} {a : Nat} (k_ax : ∀ d i, pgAx d i ≠ q₀) (k_pcie : pgPcie ≠ q₀) (k_guard : ∀ d, pgGuard d ≠ q₀) (hU : Keeps q₀ s₀ s) : Kept q₀ s₀ (execAxLoad r d a s) := by
  unfold execAxLoad
  try dsimp only
  repeat' first
    | with_reducible assumption
    | with_reducible exact k_ax _ _
    | with_reducible exact k_pcie
    | with_reducible exact k_guard _
    | intro _
    | with_reducible apply ok_kept
    | with_reducible apply ite_kept
    | with_reducible apply ite_keeps
    | with_reducible exact ok_kept (by assumption)
    | with_reducible apply axCmdWrite_keeps
    | split
    | with_reducible apply Keeps.lit

theorem execAxClear_kept {r : Req} {d : Nat} {a : Nat} (k_ax : ∀ d i, pgAx d i ≠ q₀) (k_pcie : pgPcie ≠ q₀) (k_guard : ∀ d, pgGuard d ≠ q₀) (hU : Keeps q₀ s₀ s) : Kept q₀ s₀ (execAxClear r d a s) := by
  unfold execAxClear
  try dsimp only
  repeat' first
    | with_reducible assumption
    | with_reducible exact k_ax _ _
    | with_reducible exact k_pcie
    | with_reducible exact k_guard _
    | intro _
    | with_reducible apply ok_kept
    | with_reducible apply ite_kept
    | with_reducible apply ite_keeps
    | with_reducible exact ok_kept (by assumption)
    | with_reducible apply axCmdWrite_keeps
    | split
    | with_reducible apply Keeps.lit

theorem execAxCut_kept {r : Req} {d : Nat} {a : Nat} (k_ax : ∀ d i, pgAx d i ≠ q₀) (k_pcie : pgPcie ≠ q₀) (k_guard : ∀ d, pgGuard d ≠ q₀) (hU : Keeps q₀ s₀ s) : Kept q₀ s₀ (execAxCut r d a s) := by
  unfold execAxCut
  try dsimp only
  repeat' first
    | with_reducible assumption
    | with_reducible exact k_ax _ _
    | with_reducible exact k_pcie
    | with_reducible exact k_guard _
    | intro _
    | with_reducible apply ok_kept
    | with_reducible apply ite_kept
    | with_reducible apply ite_keeps
    | with_reducible exact ok_kept (by assumption)
    | with_reducible apply axCmdWrite_keeps
    | split
    | with_reducible apply Keeps.lit

theorem limitTrip_keeps {d : Nat} {a : Nat} {i : Nat} (k_die : ∀ d, pgDie d ≠ q₀) (k_mode : ∀ d, pgMode d ≠ q₀) (k_tsync : pgTsync ≠ q₀) (k_fence : ∀ d, pgFence d ≠ q₀) (k_assay : ∀ d, pgAssay d ≠ q₀) (k_hoistGlobal : ∀ d, pgHoistGlobal d ≠ q₀) (k_chuteGlobal : ∀ d, pgChuteGlobal d ≠ q₀) (k_hp : ∀ d i, pgHp d i ≠ q₀) (k_enc : ∀ d i, pgEnc d i ≠ q₀) (k_ax : ∀ d i, pgAx d i ≠ q₀) (k_seam : ∀ d, pgSeam d ≠ q₀) (k_echo : ∀ d, pgEcho d ≠ q₀) (k_ctx : ∀ d, pgCtx d ≠ q₀) (k_chute : ∀ d i, pgChute d i ≠ q₀) (k_debug : ∀ d, pgDebug d ≠ q₀) (hU : Keeps q₀ s₀ s) : Keeps q₀ s₀ (limitTrip s d a i) := by
  unfold limitTrip
  try dsimp only
  repeat' first
    | with_reducible assumption
    | with_reducible exact k_die _
    | with_reducible exact k_mode _
    | with_reducible exact k_tsync
    | with_reducible exact k_fence _
    | with_reducible exact k_assay _
    | with_reducible exact k_hoistGlobal _
    | with_reducible exact k_chuteGlobal _
    | with_reducible exact k_hp _ _
    | with_reducible exact k_enc _ _
    | with_reducible exact k_ax _ _
    | with_reducible exact k_seam _
    | with_reducible exact k_echo _
    | with_reducible exact k_ctx _
    | with_reducible exact k_chute _ _
    | with_reducible exact k_debug _
    | intro _
    | with_reducible apply ite_keeps
    | with_reducible apply axPolicy_keeps
    | with_reducible apply axFault_keeps
    | split
    | with_reducible apply Keeps.lit

theorem swQualify_keeps {d : Nat} {a : Nat} {i : Nat} {lvl : Bool} {pos : Int} {stamp : Nat} {chat : Nat} (k_die : ∀ d, pgDie d ≠ q₀) (k_mode : ∀ d, pgMode d ≠ q₀) (k_tsync : pgTsync ≠ q₀) (k_fence : ∀ d, pgFence d ≠ q₀) (k_assay : ∀ d, pgAssay d ≠ q₀) (k_hoistGlobal : ∀ d, pgHoistGlobal d ≠ q₀) (k_chuteGlobal : ∀ d, pgChuteGlobal d ≠ q₀) (k_hp : ∀ d i, pgHp d i ≠ q₀) (k_enc : ∀ d i, pgEnc d i ≠ q₀) (k_ax : ∀ d i, pgAx d i ≠ q₀) (k_seam : ∀ d, pgSeam d ≠ q₀) (k_echo : ∀ d, pgEcho d ≠ q₀) (k_ctx : ∀ d, pgCtx d ≠ q₀) (k_chute : ∀ d i, pgChute d i ≠ q₀) (k_debug : ∀ d, pgDebug d ≠ q₀) (hU : Keeps q₀ s₀ s) : Keeps q₀ s₀ (swQualify s d a i lvl pos stamp chat) := by
  unfold swQualify
  try dsimp only
  repeat' first
    | with_reducible assumption
    | with_reducible exact k_die _
    | with_reducible exact k_mode _
    | with_reducible exact k_tsync
    | with_reducible exact k_fence _
    | with_reducible exact k_assay _
    | with_reducible exact k_hoistGlobal _
    | with_reducible exact k_chuteGlobal _
    | with_reducible exact k_hp _ _
    | with_reducible exact k_enc _ _
    | with_reducible exact k_ax _ _
    | with_reducible exact k_seam _
    | with_reducible exact k_echo _
    | with_reducible exact k_ctx _
    | with_reducible exact k_chute _ _
    | with_reducible exact k_debug _
    | intro _
    | with_reducible apply ite_keeps
    | with_reducible apply wb_keeps
    | with_reducible apply wr48_keeps
    | with_reducible apply raise_keeps
    | with_reducible apply wr_keeps
    | with_reducible apply whenDo_keeps
    | with_reducible apply setAxis_keeps
    | with_reducible apply limitTrip_keeps
    | split
    | with_reducible apply Keeps.lit

theorem chatFollow_keeps {d : Nat} {a : Nat} (k_die : ∀ d, pgDie d ≠ q₀) (k_mode : ∀ d, pgMode d ≠ q₀) (k_tsync : pgTsync ≠ q₀) (k_fence : ∀ d, pgFence d ≠ q₀) (k_assay : ∀ d, pgAssay d ≠ q₀) (k_hoistGlobal : ∀ d, pgHoistGlobal d ≠ q₀) (k_chuteGlobal : ∀ d, pgChuteGlobal d ≠ q₀) (k_hp : ∀ d i, pgHp d i ≠ q₀) (k_enc : ∀ d i, pgEnc d i ≠ q₀) (k_ax : ∀ d i, pgAx d i ≠ q₀) (k_seam : ∀ d, pgSeam d ≠ q₀) (k_echo : ∀ d, pgEcho d ≠ q₀) (k_ctx : ∀ d, pgCtx d ≠ q₀) (k_chute : ∀ d i, pgChute d i ≠ q₀) (k_debug : ∀ d, pgDebug d ≠ q₀) (hU : Keeps q₀ s₀ s) : Keeps q₀ s₀ (chatFollow s d a) := by
  unfold chatFollow
  try dsimp only
  repeat' first
    | with_reducible assumption
    | with_reducible exact k_die _
    | with_reducible exact k_mode _
    | with_reducible exact k_tsync
    | with_reducible exact k_fence _
    | with_reducible exact k_assay _
    | with_reducible exact k_hoistGlobal _
    | with_reducible exact k_chuteGlobal _
    | with_reducible exact k_hp _ _
    | with_reducible exact k_enc _ _
    | with_reducible exact k_ax _ _
    | with_reducible exact k_seam _
    | with_reducible exact k_echo _
    | with_reducible exact k_ctx _
    | with_reducible exact k_chute _ _
    | with_reducible exact k_debug _
    | intro _
    | with_reducible apply ite_keeps
    | with_reducible apply whenDo_keeps
    | with_reducible apply axPolicy_keeps
    | with_reducible apply axFault_keeps
    | split
    | with_reducible apply Keeps.lit

theorem chatter_keeps {d : Nat} {a : Nat} (k_die : ∀ d, pgDie d ≠ q₀) (k_mode : ∀ d, pgMode d ≠ q₀) (k_tsync : pgTsync ≠ q₀) (k_fence : ∀ d, pgFence d ≠ q₀) (k_assay : ∀ d, pgAssay d ≠ q₀) (k_hoistGlobal : ∀ d, pgHoistGlobal d ≠ q₀) (k_chuteGlobal : ∀ d, pgChuteGlobal d ≠ q₀) (k_hp : ∀ d i, pgHp d i ≠ q₀) (k_enc : ∀ d i, pgEnc d i ≠ q₀) (k_ax : ∀ d i, pgAx d i ≠ q₀) (k_seam : ∀ d, pgSeam d ≠ q₀) (k_echo : ∀ d, pgEcho d ≠ q₀) (k_ctx : ∀ d, pgCtx d ≠ q₀) (k_chute : ∀ d i, pgChute d i ≠ q₀) (k_debug : ∀ d, pgDebug d ≠ q₀) (hU : Keeps q₀ s₀ s) : Keeps q₀ s₀ (chatter s d a) := by
  unfold chatter
  try dsimp only
  repeat' first
    | with_reducible assumption
    | with_reducible exact k_die _
    | with_reducible exact k_mode _
    | with_reducible exact k_tsync
    | with_reducible exact k_fence _
    | with_reducible exact k_assay _
    | with_reducible exact k_hoistGlobal _
    | with_reducible exact k_chuteGlobal _
    | with_reducible exact k_hp _ _
    | with_reducible exact k_enc _ _
    | with_reducible exact k_ax _ _
    | with_reducible exact k_seam _
    | with_reducible exact k_echo _
    | with_reducible exact k_ctx _
    | with_reducible exact k_chute _ _
    | with_reducible exact k_debug _
    | intro _
    | with_reducible apply ite_keeps
    | with_reducible apply count_keeps
    | with_reducible apply chatFollow_keeps
    | with_reducible apply setAxis_keeps
    | split
    | with_reducible apply Keeps.lit

theorem swEdge_keeps {d : Nat} {a : Nat} {i : Nat} {raw : Bool} (k_die : ∀ d, pgDie d ≠ q₀) (k_mode : ∀ d, pgMode d ≠ q₀) (k_tsync : pgTsync ≠ q₀) (k_fence : ∀ d, pgFence d ≠ q₀) (k_assay : ∀ d, pgAssay d ≠ q₀) (k_hoistGlobal : ∀ d, pgHoistGlobal d ≠ q₀) (k_chuteGlobal : ∀ d, pgChuteGlobal d ≠ q₀) (k_hp : ∀ d i, pgHp d i ≠ q₀) (k_enc : ∀ d i, pgEnc d i ≠ q₀) (k_ax : ∀ d i, pgAx d i ≠ q₀) (k_seam : ∀ d, pgSeam d ≠ q₀) (k_echo : ∀ d, pgEcho d ≠ q₀) (k_ctx : ∀ d, pgCtx d ≠ q₀) (k_chute : ∀ d i, pgChute d i ≠ q₀) (k_debug : ∀ d, pgDebug d ≠ q₀) (hU : Keeps q₀ s₀ s) : Keeps q₀ s₀ (swEdge s d a i raw) := by
  unfold swEdge
  try dsimp only
  repeat' first
    | with_reducible assumption
    | with_reducible exact k_die _
    | with_reducible exact k_mode _
    | with_reducible exact k_tsync
    | with_reducible exact k_fence _
    | with_reducible exact k_assay _
    | with_reducible exact k_hoistGlobal _
    | with_reducible exact k_chuteGlobal _
    | with_reducible exact k_hp _ _
    | with_reducible exact k_enc _ _
    | with_reducible exact k_ax _ _
    | with_reducible exact k_seam _
    | with_reducible exact k_echo _
    | with_reducible exact k_ctx _
    | with_reducible exact k_chute _ _
    | with_reducible exact k_debug _
    | intro _
    | with_reducible apply ite_keeps
    | with_reducible apply setAxis_keeps
    | with_reducible apply swQualify_keeps
    | with_reducible apply chatter_keeps
    | split
    | with_reducible apply Keeps.lit

theorem swFollow_keeps {d : Nat} {a : Nat} (k_die : ∀ d, pgDie d ≠ q₀) (k_mode : ∀ d, pgMode d ≠ q₀) (k_tsync : pgTsync ≠ q₀) (k_fence : ∀ d, pgFence d ≠ q₀) (k_assay : ∀ d, pgAssay d ≠ q₀) (k_hoistGlobal : ∀ d, pgHoistGlobal d ≠ q₀) (k_chuteGlobal : ∀ d, pgChuteGlobal d ≠ q₀) (k_hp : ∀ d i, pgHp d i ≠ q₀) (k_enc : ∀ d i, pgEnc d i ≠ q₀) (k_ax : ∀ d i, pgAx d i ≠ q₀) (k_seam : ∀ d, pgSeam d ≠ q₀) (k_echo : ∀ d, pgEcho d ≠ q₀) (k_ctx : ∀ d, pgCtx d ≠ q₀) (k_chute : ∀ d i, pgChute d i ≠ q₀) (k_debug : ∀ d, pgDebug d ≠ q₀) (hU : Keeps q₀ s₀ s) : Keeps q₀ s₀ (swFollow s d a) := by
  unfold swFollow
  try dsimp only
  repeat' first
    | with_reducible assumption
    | with_reducible exact k_die _
    | with_reducible exact k_mode _
    | with_reducible exact k_tsync
    | with_reducible exact k_fence _
    | with_reducible exact k_assay _
    | with_reducible exact k_hoistGlobal _
    | with_reducible exact k_chuteGlobal _
    | with_reducible exact k_hp _ _
    | with_reducible exact k_enc _ _
    | with_reducible exact k_ax _ _
    | with_reducible exact k_seam _
    | with_reducible exact k_echo _
    | with_reducible exact k_ctx _
    | with_reducible exact k_chute _ _
    | with_reducible exact k_debug _
    | intro _
    | with_reducible apply ite_keeps
    | with_reducible apply each_keeps
    | with_reducible apply swEdge_keeps
    | split
    | with_reducible apply Keeps.lit

theorem axHandOver_keeps {d : Nat} {a : Nat} (k_die : ∀ d, pgDie d ≠ q₀) (k_mode : ∀ d, pgMode d ≠ q₀) (k_tsync : pgTsync ≠ q₀) (k_fence : ∀ d, pgFence d ≠ q₀) (k_assay : ∀ d, pgAssay d ≠ q₀) (k_hoistGlobal : ∀ d, pgHoistGlobal d ≠ q₀) (k_chuteGlobal : ∀ d, pgChuteGlobal d ≠ q₀) (k_hp : ∀ d i, pgHp d i ≠ q₀) (k_enc : ∀ d i, pgEnc d i ≠ q₀) (k_ax : ∀ d i, pgAx d i ≠ q₀) (k_seam : ∀ d, pgSeam d ≠ q₀) (k_echo : ∀ d, pgEcho d ≠ q₀) (k_ctx : ∀ d, pgCtx d ≠ q₀) (k_chute : ∀ d i, pgChute d i ≠ q₀) (k_debug : ∀ d, pgDebug d ≠ q₀) (hU : Keeps q₀ s₀ s) : Keeps q₀ s₀ (axHandOver s d a) := by
  unfold axHandOver
  try dsimp only
  repeat' first
    | with_reducible assumption
    | with_reducible exact k_die _
    | with_reducible exact k_mode _
    | with_reducible exact k_tsync
    | with_reducible exact k_fence _
    | with_reducible exact k_assay _
    | with_reducible exact k_hoistGlobal _
    | with_reducible exact k_chuteGlobal _
    | with_reducible exact k_hp _ _
    | with_reducible exact k_enc _ _
    | with_reducible exact k_ax _ _
    | with_reducible exact k_seam _
    | with_reducible exact k_echo _
    | with_reducible exact k_ctx _
    | with_reducible exact k_chute _ _
    | with_reducible exact k_debug _
    | intro _
    | with_reducible apply ite_keeps
    | with_reducible apply chatFollow_keeps
    | with_reducible apply swFollow_keeps
    | with_reducible apply takeShadows_keeps
    | split
    | with_reducible apply Keeps.lit

theorem axReset_keeps {d : Nat} {a : Nat} (k_die : ∀ d, pgDie d ≠ q₀) (k_mode : ∀ d, pgMode d ≠ q₀) (k_tsync : pgTsync ≠ q₀) (k_fence : ∀ d, pgFence d ≠ q₀) (k_assay : ∀ d, pgAssay d ≠ q₀) (k_hoistGlobal : ∀ d, pgHoistGlobal d ≠ q₀) (k_chuteGlobal : ∀ d, pgChuteGlobal d ≠ q₀) (k_hp : ∀ d i, pgHp d i ≠ q₀) (k_enc : ∀ d i, pgEnc d i ≠ q₀) (k_ax : ∀ d i, pgAx d i ≠ q₀) (k_seam : ∀ d, pgSeam d ≠ q₀) (k_echo : ∀ d, pgEcho d ≠ q₀) (k_ctx : ∀ d, pgCtx d ≠ q₀) (k_chute : ∀ d i, pgChute d i ≠ q₀) (k_debug : ∀ d, pgDebug d ≠ q₀) (hU : Keeps q₀ s₀ s) : Keeps q₀ s₀ (axReset s d a) := by
  unfold axReset
  try dsimp only
  repeat' first
    | with_reducible assumption
    | with_reducible exact k_die _
    | with_reducible exact k_mode _
    | with_reducible exact k_tsync
    | with_reducible exact k_fence _
    | with_reducible exact k_assay _
    | with_reducible exact k_hoistGlobal _
    | with_reducible exact k_chuteGlobal _
    | with_reducible exact k_hp _ _
    | with_reducible exact k_enc _ _
    | with_reducible exact k_ax _ _
    | with_reducible exact k_seam _
    | with_reducible exact k_echo _
    | with_reducible exact k_ctx _
    | with_reducible exact k_chute _ _
    | with_reducible exact k_debug _
    | intro _
    | with_reducible apply ite_keeps
    | with_reducible apply swFollow_keeps
    | with_reducible apply setAxis_keeps
    | split
    | with_reducible apply Keeps.lit

theorem execSwitchInputEdge_kept {d : Nat} {a : Nat} {i : Nat} {raw : Bool} (k_die : ∀ d, pgDie d ≠ q₀) (k_mode : ∀ d, pgMode d ≠ q₀) (k_tsync : pgTsync ≠ q₀) (k_fence : ∀ d, pgFence d ≠ q₀) (k_assay : ∀ d, pgAssay d ≠ q₀) (k_hoistGlobal : ∀ d, pgHoistGlobal d ≠ q₀) (k_chuteGlobal : ∀ d, pgChuteGlobal d ≠ q₀) (k_hp : ∀ d i, pgHp d i ≠ q₀) (k_enc : ∀ d i, pgEnc d i ≠ q₀) (k_ax : ∀ d i, pgAx d i ≠ q₀) (k_seam : ∀ d, pgSeam d ≠ q₀) (k_echo : ∀ d, pgEcho d ≠ q₀) (k_ctx : ∀ d, pgCtx d ≠ q₀) (k_chute : ∀ d i, pgChute d i ≠ q₀) (k_debug : ∀ d, pgDebug d ≠ q₀) (hU : Keeps q₀ s₀ s) : Kept q₀ s₀ (execSwitchInputEdge d a i raw s) := by
  unfold execSwitchInputEdge
  try dsimp only
  repeat' first
    | with_reducible assumption
    | with_reducible exact k_die _
    | with_reducible exact k_mode _
    | with_reducible exact k_tsync
    | with_reducible exact k_fence _
    | with_reducible exact k_assay _
    | with_reducible exact k_hoistGlobal _
    | with_reducible exact k_chuteGlobal _
    | with_reducible exact k_hp _ _
    | with_reducible exact k_enc _ _
    | with_reducible exact k_ax _ _
    | with_reducible exact k_seam _
    | with_reducible exact k_echo _
    | with_reducible exact k_ctx _
    | with_reducible exact k_chute _ _
    | with_reducible exact k_debug _
    | intro _
    | with_reducible apply ok_kept
    | with_reducible apply ite_kept
    | with_reducible apply ite_keeps
    | with_reducible exact ok_kept (by assumption)
    | with_reducible apply swEdge_keeps
    | split
    | with_reducible apply Keeps.lit

theorem execSwEdge_kept {d : Nat} {a : Nat} {i : Nat} (k_die : ∀ d, pgDie d ≠ q₀) (k_mode : ∀ d, pgMode d ≠ q₀) (k_tb : ∀ d, pgTb d ≠ q₀) (k_tsync : pgTsync ≠ q₀) (k_fence : ∀ d, pgFence d ≠ q₀) (k_assay : ∀ d, pgAssay d ≠ q₀) (k_hoistGlobal : ∀ d, pgHoistGlobal d ≠ q₀) (k_chuteGlobal : ∀ d, pgChuteGlobal d ≠ q₀) (k_hp : ∀ d i, pgHp d i ≠ q₀) (k_enc : ∀ d i, pgEnc d i ≠ q₀) (k_ax : ∀ d i, pgAx d i ≠ q₀) (k_seam : ∀ d, pgSeam d ≠ q₀) (k_echo : ∀ d, pgEcho d ≠ q₀) (k_ctx : ∀ d, pgCtx d ≠ q₀) (k_chute : ∀ d i, pgChute d i ≠ q₀) (k_debug : ∀ d, pgDebug d ≠ q₀) (hU : Keeps q₀ s₀ s) : Kept q₀ s₀ (execSwEdge d a i s) := by
  unfold execSwEdge
  try dsimp only
  repeat' first
    | with_reducible assumption
    | with_reducible exact k_die _
    | with_reducible exact k_mode _
    | with_reducible exact k_tb _
    | with_reducible exact k_tsync
    | with_reducible exact k_fence _
    | with_reducible exact k_assay _
    | with_reducible exact k_hoistGlobal _
    | with_reducible exact k_chuteGlobal _
    | with_reducible exact k_hp _ _
    | with_reducible exact k_enc _ _
    | with_reducible exact k_ax _ _
    | with_reducible exact k_seam _
    | with_reducible exact k_echo _
    | with_reducible exact k_ctx _
    | with_reducible exact k_chute _ _
    | with_reducible exact k_debug _
    | intro _
    | with_reducible apply ok_kept
    | with_reducible apply ite_kept
    | with_reducible apply ite_keeps
    | with_reducible exact ok_kept (by assumption)
    | with_reducible apply waitClock_keeps
    | with_reducible apply setAxis_keeps
    | with_reducible apply swQualify_keeps
    | with_reducible apply chatter_keeps
    | split
    | with_reducible apply Keeps.lit

end Sys2Proof.Laws
end

