-- ==== Sys2Proof/Laws/MemCtlUpd.lean ====
section
/-!
SUPPORT. What each operation of `Machine/MemCtl.lean` keeps, and the groups of state it may change (`Upd`).
-/

set_option Elab.async false
set_option linter.unusedTactic false
set_option linter.unreachableTactic false
namespace Sys2Proof.Laws

open Sys2Proof.Machine

variable {gr : Grp} {s₀ s : State}

theorem mtStat_upd {d : Nat} (hU : Upd gr s₀ s) : Upd gr s₀ (mtStat s d) := by
  unfold mtStat
  try dsimp only
  repeat' first
    | intro _
    | with_reducible assumption
    | with_reducible apply ite_upd
    | with_reducible apply wr_upd
    | split

theorem mtStart_upd {d : Nat} (hU : Upd gr s₀ s) : Upd gr s₀ (mtStart s d) := by
  unfold mtStart
  try dsimp only
  repeat' first
    | intro _
    | with_reducible assumption
    | with_reducible apply ite_upd
    | with_reducible apply mtStat_upd
    | with_reducible apply setMemSt_upd
    | split
    | with_reducible apply Upd.lit

theorem execMemtestRegionStart_ans {d : Nat} (hU : Upd gr s₀ s) : Ans gr s₀ (execMemtestRegionStart d s) := by
  unfold execMemtestRegionStart
  try dsimp only
  repeat' first
    | intro _
    | with_reducible assumption
    | with_reducible apply ok_ans
    | with_reducible apply ite_ans
    | with_reducible apply ite_upd
    | with_reducible exact ok_ans (by assumption)
    | with_reducible apply mtStart_upd
    | with_reducible apply waitClock_upd
    | split

theorem mtCopy_upd {d : Nat} (hE : gr.ecc = true) (hU : Upd gr s₀ s) : Upd gr s₀ (mtCopy s d) := by
  unfold mtCopy
  try dsimp only
  repeat' first
    | intro _
    | with_reducible assumption
    | with_reducible apply ite_upd
    | with_reducible apply each_upd
    | with_reducible apply readWord_upd
    | (with_reducible refine trip_upd (by assumption) ?_)
    | split

theorem mtRepairRow_upd {d : Nat} {row : Nat} (hU : Upd gr s₀ s) : Upd gr s₀ (mtRepairRow s d row) := by
  unfold mtRepairRow
  try dsimp only
  repeat' first
    | intro _
    | with_reducible assumption
    | with_reducible apply ite_upd
    | with_reducible apply raise_upd
    | with_reducible apply count_upd
    | with_reducible apply wf_upd
    | with_reducible apply setMemSt_upd
    | split
    | with_reducible apply Upd.lit

theorem mtEnd_upd {d : Nat} (hU : Upd gr s₀ s) : Upd gr s₀ (mtEnd s d) := by
  unfold mtEnd
  try dsimp only
  repeat' first
    | intro _
    | with_reducible assumption
    | with_reducible apply ite_upd
    | with_reducible apply mtStat_upd
    | with_reducible apply setMemSt_upd
    | with_reducible apply raise_upd
    | with_reducible apply count_upd
    | split
    | with_reducible apply Upd.lit

theorem execMemtestPhaseDone_ans {d : Nat} {rows : List Nat} (hE : gr.ecc = true) (hU : Upd gr s₀ s) : Ans gr s₀ (execMemtestPhaseDone d rows s) := by
  unfold execMemtestPhaseDone
  try dsimp only
  repeat' first
    | intro _
    | with_reducible assumption
    | with_reducible apply ok_ans
    | with_reducible apply ite_ans
    | with_reducible apply ite_upd
    | with_reducible exact ok_ans (by assumption)
    | with_reducible apply mtStat_upd
    | with_reducible apply setMemSt_upd
    | with_reducible apply mtCopy_upd
    | with_reducible apply each_upd
    | with_reducible apply mtRepairRow_upd
    | with_reducible apply mtEnd_upd
    | split
    | with_reducible apply Upd.lit

theorem execRepairMapSave_ans {d : Nat} (hE : gr.ecc = true) (hR : gr.ret = true) (hU : Upd gr s₀ s) : Ans gr s₀ (execRepairMapSave d s) := by
  unfold execRepairMapSave
  try dsimp only
  repeat' first
    | intro _
    | with_reducible assumption
    | with_reducible apply ok_ans
    | with_reducible apply ite_ans
    | with_reducible apply ite_upd
    | with_reducible exact ok_ans (by assumption)
    | with_reducible apply setMemSt_upd
    | with_reducible apply nextFree_upd
    | with_reducible apply retWrite_upd
    | split
    | with_reducible apply Upd.lit

theorem retStat_upd {d : Nat} (hU : Upd gr s₀ s) : Upd gr s₀ (retStat s d) := by
  unfold retStat
  try dsimp only
  repeat' first
    | intro _
    | with_reducible assumption
    | with_reducible apply ite_upd
    | with_reducible apply wb_upd
    | with_reducible apply wf_upd
    | split

theorem retAdvance_upd {d : Nat} (hU : Upd gr s₀ s) : Upd gr s₀ (retAdvance s d) := by
  unfold retAdvance
  try dsimp only
  repeat' first
    | intro _
    | with_reducible assumption
    | with_reducible apply ite_upd
    | with_reducible apply wf_upd
    | split

theorem retDataWrite_upd {r : Req} {d : Nat} {v : Word} (hU : Upd gr s₀ s) : Upd gr s₀ (retDataWrite r d v s) := by
  unfold retDataWrite
  try dsimp only
  repeat' first
    | intro _
    | with_reducible assumption
    | with_reducible apply ite_upd
    | with_reducible apply raise_upd
    | with_reducible apply logErr_upd
    | with_reducible apply retStat_upd
    | with_reducible apply setMemSt_upd
    | with_reducible apply retAdvance_upd
    | split
    | with_reducible apply Upd.lit

theorem execRetDataWrite_ans {r : Req} {d : Nat} {v : Word} (hU : Upd gr s₀ s) : Ans gr s₀ (execRetDataWrite r d v s) := by
  unfold execRetDataWrite
  try dsimp only
  repeat' first
    | intro _
    | with_reducible assumption
    | with_reducible apply ok_ans
    | with_reducible apply ite_ans
    | with_reducible apply ite_upd
    | with_reducible exact ok_ans (by assumption)
    | with_reducible apply guardedWrite_upd
    | with_reducible apply retDataWrite_upd
    | split

theorem retDataRead_upd {d : Nat} (hE : gr.ecc = true) (hU : Upd gr s₀ s) : Upd gr s₀ (retDataRead d s) := by
  unfold retDataRead
  extract_lets p w queued e s1 s2
  have h1 : Upd gr s₀ s1 := wb_upd (wb_upd hU)
  have h2 : Upd gr s₀ s2 := by
    unfold s2
    clear_value s1 e
    cases e
    · exact h1
    · exact raise_upd (count_upd (h1.checks hE))
    · exact raise_upd (count_upd h1)
  exact retAdvance_upd h2

theorem execRetDataRead_ans {r : Req} {d : Nat} (hE : gr.ecc = true) (hU : Upd gr s₀ s) : Ans gr s₀ (execRetDataRead r d s) := by
  unfold execRetDataRead
  try dsimp only
  repeat' first
    | intro _
    | with_reducible assumption
    | with_reducible apply ok_ans
    | with_reducible apply ite_ans
    | with_reducible apply ite_upd
    | with_reducible exact ok_ans (by assumption)
    | with_reducible apply guardedRead_upd
    | with_reducible apply retDataRead_upd
    | split

theorem execRetWordWritten_ans {d : Nat} (hE : gr.ecc = true) (hR : gr.ret = true) (hU : Upd gr s₀ s) : Ans gr s₀ (execRetWordWritten d s) := by
  unfold execRetWordWritten
  try dsimp only
  repeat' first
    | intro _
    | with_reducible assumption
    | with_reducible apply ok_ans
    | with_reducible apply ite_ans
    | with_reducible apply ite_upd
    | with_reducible exact ok_ans (by assumption)
    | with_reducible apply retStat_upd
    | with_reducible apply retWrite_upd
    | with_reducible apply setMemSt_upd
    | split
    | with_reducible apply Upd.lit

end Sys2Proof.Laws
end

