-- ==== Sys2Proof/Laws/WaveUpd.lean ====
section
/-!
SUPPORT. What each operation of `Machine/Wave.lean` keeps, and the groups of state it may change (`Upd`).
-/

set_option Elab.async false
set_option linter.unusedTactic false
set_option linter.unreachableTactic false
namespace Sys2Proof.Laws

open Sys2Proof.Machine

variable {gr : Grp} {s₀ s : State}

theorem streamFollow_upd {d : Nat} {p : Nat} (hU : Upd gr s₀ s) : Upd gr s₀ (streamFollow s d p) := by
  unfold streamFollow
  try dsimp only
  repeat' first
    | intro _
    | with_reducible assumption
    | with_reducible apply ite_upd
    | with_reducible apply setPort_upd
    | with_reducible apply emit_upd
    | split
    | with_reducible apply Upd.lit

theorem pwmRoll_upd {d : Nat} {p : Nat} (hU : Upd gr s₀ s) : Upd gr s₀ (pwmRoll s d p) := by
  unfold pwmRoll
  try dsimp only
  repeat' first
    | intro _
    | with_reducible assumption
    | with_reducible apply ite_upd
    | with_reducible apply setPort_upd
    | with_reducible apply wf_upd
    | with_reducible apply emit_upd
    | split
    | with_reducible apply Upd.lit

theorem htrFollow_upd {d : Nat} {p : Nat} (hU : Upd gr s₀ s) : Upd gr s₀ (htrFollow s d p) := by
  unfold htrFollow
  try dsimp only
  repeat' first
    | intro _
    | with_reducible assumption
    | with_reducible apply ite_upd
    | with_reducible apply setDyn_upd
    | with_reducible apply pwmRoll_upd
    | with_reducible apply wf_upd
    | with_reducible apply setPort_upd
    | with_reducible apply wr_upd
    | with_reducible apply emit_upd
    | split
    | with_reducible apply Upd.lit

theorem hpHandOver_upd {d : Nat} {p : Nat} (hU : Upd gr s₀ s) : Upd gr s₀ (hpHandOver s d p) := by
  unfold hpHandOver
  try dsimp only
  repeat' first
    | intro _
    | with_reducible assumption
    | with_reducible apply ite_upd
    | with_reducible apply takeShadows_upd
    | with_reducible apply pwmRoll_upd
    | with_reducible apply htrFollow_upd
    | with_reducible apply wf_upd
    | split

theorem loadFail_upd {d : Nat} {p : Nat} {code : Nat} (hU : Upd gr s₀ s) : Upd gr s₀ (loadFail s d p code) := by
  unfold loadFail
  try dsimp only
  repeat' first
    | intro _
    | with_reducible assumption
    | with_reducible apply ite_upd
    | with_reducible apply wr_upd
    | with_reducible apply raise_upd
    | with_reducible apply setPort_upd
    | split
    | with_reducible apply Upd.lit

theorem loadAbort_upd {d : Nat} {p : Nat} (hU : Upd gr s₀ s) : Upd gr s₀ (loadAbort s d p) := by
  unfold loadAbort
  try dsimp only
  repeat' first
    | intro _
    | with_reducible assumption
    | with_reducible apply ite_upd
    | with_reducible apply loadFail_upd
    | split

end Sys2Proof.Laws
end

