-- ==== Sys2Proof/Laws/ImageUpd.lean ====
section
/-!
SUPPORT. What each operation of `Machine/Image.lean` keeps, and the groups of state it may change (`Upd`).
-/

set_option Elab.async false
set_option linter.unusedTactic false
set_option linter.unreachableTactic false
namespace Sys2Proof.Laws

open Sys2Proof.Machine

variable {gr : Grp} {s₀ s : State}

theorem blockBad_upd {d : Nat} {c : Nat} {reason : Nat} {h : Hdr} (hU : Upd gr s₀ s) : Upd gr s₀ (blockBad s d c reason h) := by
  unfold blockBad
  try dsimp only
  repeat' first
    | intro _
    | with_reducible assumption
    | with_reducible apply ite_upd
    | with_reducible apply wr_upd
    | with_reducible apply count_upd
    | with_reducible apply logRecord_upd
    | with_reducible apply raise_upd
    | split

theorem lodeWrites_upd {d : Nat} {w : Nat} {vs : List Word} (hM : gr.mem = true) (hE : gr.ecc = true) (hU : Upd gr s₀ s) : Upd gr s₀ (lodeWrites s d w vs) := by
  unfold lodeWrites
  try dsimp only
  repeat' first
    | intro _
    | with_reducible assumption
    | with_reducible apply ite_upd
    | with_reducible apply each_upd
    | with_reducible apply wrWord_upd
    | split

theorem storeShare_upd {d : Nat} {k : Nat} {m : Nat} {vals : List Nat} (hM : gr.mem = true) (hE : gr.ecc = true) (hU : Upd gr s₀ s) : Upd gr s₀ (storeShare s d k m vals) := by
  unfold storeShare
  try dsimp only
  repeat' first
    | intro _
    | with_reducible assumption
    | with_reducible apply ite_upd
    | with_reducible apply lodeWrites_upd
    | with_reducible apply setCtx_upd
    | split
    | with_reducible apply Upd.lit

theorem expandLine_upd {d : Nat} {k : Nat} {sw : Nat} {m : Nat} {colBase : Nat} {y : Nat} {ready : Bool} {pix : List Nat} (hM : gr.mem = true) (hE : gr.ecc = true) (hU : Upd gr s₀ s) : Upd gr s₀ (expandLine s d k sw m colBase y ready pix) := by
  unfold expandLine
  try dsimp only
  repeat' first
    | intro _
    | with_reducible assumption
    | with_reducible apply ite_upd
    | with_reducible apply lodeWrites_upd
    | with_reducible apply setCtx_upd
    | with_reducible apply count_upd
    | with_reducible apply storeShare_upd
    | split
    | with_reducible apply Upd.lit

theorem creditOwner_upd {d : Nat} {k : Nat} (hU : Upd gr s₀ s) : Upd gr s₀ (creditOwner s d k) := by
  unfold creditOwner
  try dsimp only
  repeat' first
    | intro _
    | with_reducible assumption
    | with_reducible apply ite_upd
    | split
    | with_reducible apply Upd.lit

theorem freeLines_upd {d : Nat} {k : Nat} {f : ImgLine → Bool} (hU : Upd gr s₀ s) : Upd gr s₀ (freeLines s d k f) := by
  unfold freeLines
  try dsimp only
  repeat' first
    | intro _
    | with_reducible assumption
    | with_reducible apply ite_upd
    | with_reducible apply setCtx_upd
    | with_reducible apply each_upd
    | with_reducible apply creditOwner_upd
    | split
    | with_reducible apply Upd.lit

theorem setBlk_upd {d : Nat} {c : Nat} {b : Option Blk} (hU : Upd gr s₀ s) : Upd gr s₀ (setBlk s d c b) := by
  unfold setBlk
  try dsimp only
  repeat' first
    | intro _
    | with_reducible assumption
    | with_reducible apply ite_upd
    | with_reducible apply setChute_upd
    | split
    | with_reducible apply Upd.lit

theorem asmPoison_upd {d : Nat} {c : Nat} {o : Option Nat} (hU : Upd gr s₀ s) : Upd gr s₀ (asmPoison s d c o) := by
  unfold asmPoison
  try dsimp only
  repeat' first
    | intro _
    | with_reducible assumption
    | with_reducible apply ite_upd
    | with_reducible apply logRecord_upd
    | with_reducible apply ctxPoison_upd
    | split
    | with_reducible apply Upd.lit

theorem huntOn_upd {x0 : Nat} {x2 : Nat} {x3 : Nat} (hU : Upd gr s₀ s) : Upd gr s₀ (huntOn x0 s x2 x3) := by
  induction x0 generalizing s x2 x3 with
  | zero => exact hU
  | succ n ih =>
    unfold huntOn
    try dsimp only
    repeat' first
      | intro _
      | with_reducible assumption
      | with_reducible apply ih
      | with_reducible apply ite_upd
      | with_reducible apply setChute_upd
      | with_reducible apply count_upd
      | with_reducible apply chuteSkip_upd
      | split
      | with_reducible apply Upd.lit

theorem dropBlock_upd {d : Nat} {c : Nat} {n : Nat} (hU : Upd gr s₀ s) : Upd gr s₀ (dropBlock s d c n) := by
  unfold dropBlock
  try dsimp only
  repeat' first
    | intro _
    | with_reducible assumption
    | with_reducible apply ite_upd
    | with_reducible apply chuteSkip_upd
    | with_reducible apply setChute_upd
    | split
    | with_reducible apply Upd.lit

theorem blkGiveUp_upd {d : Nat} {c : Nat} {b : Blk} (hU : Upd gr s₀ s) : Upd gr s₀ (blkGiveUp s d c b) := by
  unfold blkGiveUp
  try dsimp only
  repeat' first
    | intro _
    | with_reducible assumption
    | with_reducible apply ite_upd
    | with_reducible apply freeLines_upd
    | with_reducible apply setBlk_upd
    | with_reducible apply dropBlock_upd
    | split

theorem blkFail_upd {d : Nat} {c : Nat} {reason : Nat} {b : Blk} (hU : Upd gr s₀ s) : Upd gr s₀ (blkFail s d c reason b) := by
  unfold blkFail
  try dsimp only
  repeat' first
    | intro _
    | with_reducible assumption
    | with_reducible apply ite_upd
    | with_reducible apply blockBad_upd
    | with_reducible apply blkGiveUp_upd
    | split

theorem blkTake_upd {d : Nat} {c : Nat} {b : Blk} (hU : Upd gr s₀ s) : Upd gr s₀ (blkTake s d c b) := by
  unfold blkTake
  try dsimp only
  repeat' first
    | intro _
    | with_reducible assumption
    | with_reducible apply ite_upd
    | with_reducible apply setCtx_upd
    | with_reducible apply setBlk_upd
    | with_reducible apply ctxEvt_upd
    | split
    | with_reducible apply Upd.lit

theorem blkWord_upd {d : Nat} {c : Nat} {b : Blk} {f : State → Blk → Word → State} (hU : Upd gr s₀ s) (hf_f : ∀ tU x0 x1, Upd gr s₀ tU → Upd gr s₀ (f tU x0 x1)) : Upd gr s₀ (blkWord s d c b f).2 := by
  unfold blkWord
  try dsimp only
  repeat' first
    | intro _
    | with_reducible assumption
    | with_reducible apply ite_upd
    | with_reducible apply hf_f
    | with_reducible apply chuteTake_upd
    | with_reducible apply asmPoison_upd
    | with_reducible apply blkGiveUp_upd
    | with_reducible apply setBlk_upd
    | (with_reducible refine pair_upd (by assumption) ?_)
    | split
    | with_reducible apply Upd.lit

theorem blkAdd_upd {d : Nat} {c : Nat} {b : Blk} {ws : List Word} (hM : gr.mem = true) (hE : gr.ecc = true) (hU : Upd gr s₀ s) : Upd gr s₀ (blkAdd s d c b ws) := by
  unfold blkAdd
  try dsimp only
  repeat' first
    | intro _
    | with_reducible assumption
    | with_reducible apply ite_upd
    | with_reducible apply setBlk_upd
    | with_reducible apply expandLine_upd
    | split
    | with_reducible apply Upd.lit

theorem blkToken_upd {d : Nat} {c : Nat} {b : Blk} {w : Word} (hU : Upd gr s₀ s) : Upd gr s₀ (blkToken s d c b w) := by
  unfold blkToken
  try dsimp only
  repeat' first
    | intro _
    | with_reducible assumption
    | with_reducible apply ite_upd
    | with_reducible apply blkFail_upd
    | with_reducible apply setBlk_upd
    | split
    | with_reducible apply Upd.lit

theorem blkEnd_upd {d : Nat} {c : Nat} {b : Blk} (hU : Upd gr s₀ s) : Upd gr s₀ (blkEnd s d c b).2 := by
  unfold blkEnd
  try dsimp only
  repeat' first
    | intro _
    | with_reducible assumption
    | with_reducible apply ite_upd
    | with_reducible apply blkFail_upd
    | with_reducible apply blkWord_upd
    | with_reducible apply blkTake_upd
    | (with_reducible refine pair_upd (by assumption) ?_)
    | split

theorem blkWait_upd {d : Nat} {c : Nat} {b : Blk} (hU : Upd gr s₀ s) : Upd gr s₀ (blkWait s d c b).2 := by
  unfold blkWait
  try dsimp only
  repeat' first
    | intro _
    | with_reducible assumption
    | with_reducible apply ite_upd
    | with_reducible apply raise_upd
    | with_reducible apply count_upd
    | with_reducible apply setBlk_upd
    | split
    | with_reducible apply Upd.lit

theorem blkStep_upd {d : Nat} {c : Nat} {b : Blk} (hM : gr.mem = true) (hE : gr.ecc = true) (hU : Upd gr s₀ s) : Upd gr s₀ (blkStep s d c b).2 := by
  unfold blkStep
  try dsimp only
  repeat' first
    | intro _
    | with_reducible assumption
    | with_reducible apply ite_upd
    | with_reducible apply blkEnd_upd
    | with_reducible apply blkWait_upd
    | with_reducible apply blkAdd_upd
    | with_reducible apply blkFail_upd
    | with_reducible apply blkWord_upd
    | with_reducible apply blkToken_upd
    | (with_reducible refine pair_upd (by assumption) ?_)
    | split

theorem blkGo_upd {x0 : Nat} {x2 : Nat} {x3 : Nat} (hM : gr.mem = true) (hE : gr.ecc = true) (hU : Upd gr s₀ s) : Upd gr s₀ (blkGo x0 s x2 x3) := by
  induction x0 generalizing s x2 x3 with
  | zero => exact hU
  | succ n ih =>
    unfold blkGo
    try dsimp only
    repeat' first
      | intro _
      | with_reducible assumption
      | with_reducible apply ih
      | with_reducible apply ite_upd
      | with_reducible apply blkStep_upd
      | (with_reducible refine pair_upd (by assumption) ?_)
      | split
      | with_reducible apply Upd.lit

theorem expandAll_upd {d : Nat} {k : Nat} (hM : gr.mem = true) (hE : gr.ecc = true) (hU : Upd gr s₀ s) : Upd gr s₀ (expandAll s d k) := by
  unfold expandAll
  try dsimp only
  repeat' first
    | intro _
    | with_reducible assumption
    | with_reducible apply ite_upd
    | with_reducible apply blkGo_upd
    | split
    | with_reducible apply Upd.lit

theorem blkBegin_upd {d : Nat} {c : Nat} {h : Hdr} {gap : Bool} {missing : Nat} {newSw : Bool} (hM : gr.mem = true) (hE : gr.ecc = true) (hU : Upd gr s₀ s) : Upd gr s₀ (blkBegin s d c h gap missing newSw) := by
  unfold blkBegin
  try dsimp only
  repeat' first
    | intro _
    | with_reducible assumption
    | with_reducible apply ite_upd
    | with_reducible apply dropBlock_upd
    | with_reducible apply blockBad_upd
    | with_reducible apply setCtx_upd
    | with_reducible apply each_upd
    | with_reducible apply chuteTake_upd
    | with_reducible apply blkGo_upd
    | with_reducible apply setBlk_upd
    | (with_reducible refine pair_upd (by assumption) ?_)
    | split
    | with_reducible apply Upd.lit

theorem headPoison_upd {d : Nat} {c : Nat} {n : Nat} (hU : Upd gr s₀ s) : Upd gr s₀ (headPoison s d c n) := by
  unfold headPoison
  try dsimp only
  repeat' first
    | intro _
    | with_reducible assumption
    | with_reducible apply ite_upd
    | with_reducible apply each_upd
    | with_reducible apply chuteTake_upd
    | with_reducible apply asmPoison_upd
    | with_reducible apply setChute_upd
    | (with_reducible refine pair_upd (by assumption) ?_)
    | split
    | with_reducible apply Upd.lit

theorem blockHead_upd {d : Nat} {c : Nat} (hM : gr.mem = true) (hE : gr.ecc = true) (hU : Upd gr s₀ s) : Upd gr s₀ (blockHead s d c) := by
  unfold blockHead
  try dsimp only
  repeat' first
    | intro _
    | with_reducible assumption
    | with_reducible apply ite_upd
    | with_reducible apply headPoison_upd
    | with_reducible apply blockBad_upd
    | with_reducible apply count_upd
    | with_reducible apply chuteSkip_upd
    | with_reducible apply huntOn_upd
    | with_reducible apply setChute_upd
    | with_reducible apply dropBlock_upd
    | with_reducible apply ctxEvt_upd
    | with_reducible apply setCtx_upd
    | with_reducible exact ok_ans (by assumption)
    | with_reducible apply blkBegin_upd
    | split
    | with_reducible apply Upd.lit

theorem blockAccept_upd {d : Nat} {c : Nat} (hM : gr.mem = true) (hE : gr.ecc = true) (hU : Upd gr s₀ s) : Upd gr s₀ (blockAccept s d c) := by
  unfold blockAccept
  try dsimp only
  repeat' first
    | intro _
    | with_reducible assumption
    | with_reducible apply ite_upd
    | with_reducible apply dropBlock_upd
    | with_reducible apply blkGo_upd
    | with_reducible apply huntOn_upd
    | with_reducible apply blockHead_upd
    | split

theorem readSlots_upd {x0 : List Nat} {x2 : Nat} {x3 : Nat} (hE : gr.ecc = true) (hU : Upd gr s₀ s) : Upd gr s₀ (readSlots x0 s x2 x3).2.2 := by
  induction x0 generalizing s x2 x3 with
  | nil => exact hU
  | cons e r ih =>
    unfold readSlots
    try dsimp only
    repeat' first
      | intro _
      | with_reducible assumption
      | with_reducible apply ih
      | with_reducible apply ite_upd
      | with_reducible apply ctxRead_upd
      | (with_reducible refine trip_upd (by assumption) ?_)
      | split

theorem passValue_upd {d : Nat} {k : Nat} {x : Nat} {y : Nat} (hE : gr.ecc = true) (hU : Upd gr s₀ s) : Upd gr s₀ (passValue s d k x y).2.2 := by
  unfold passValue
  try dsimp only
  repeat' first
    | intro _
    | with_reducible assumption
    | with_reducible apply ite_upd
    | with_reducible apply ctxRead_upd
    | (with_reducible refine trip_upd (by assumption) ?_)
    | split
    | with_reducible apply Upd.lit

theorem maskPixel_upd {d : Nat} {k : Nat} {n : Noz} (hE : gr.ecc = true) (hU : Upd gr s₀ s) : Upd gr s₀ (maskPixel s d k n).2.2 := by
  unfold maskPixel
  try dsimp only
  repeat' first
    | intro _
    | with_reducible assumption
    | with_reducible apply ite_upd
    | with_reducible apply passValue_upd
    | with_reducible apply setCtx_upd
    | (with_reducible refine trip_upd (by assumption) ?_)
    | split
    | with_reducible apply Upd.lit

theorem nozPixel_upd {d : Nat} {k : Nat} {n : Nat} {rows : List GRow} {sl : Slots} {z : Nat} (hE : gr.ecc = true) (hU : Upd gr s₀ s) : Upd gr s₀ (nozPixel s d k n rows sl z).2.2 := by
  unfold nozPixel
  try dsimp only
  repeat' first
    | intro _
    | with_reducible assumption
    | with_reducible apply ite_upd
    | with_reducible apply maskPixel_upd
    | (with_reducible refine trip_upd (by assumption) ?_)
    | split
    | with_reducible apply Upd.lit

theorem nozPixels_upd {x0 : List Nat} {x2 : Nat} {x3 : Nat} {x4 : Nat} {x5 : List GRow} {x6 : Slots} (hE : gr.ecc = true) (hU : Upd gr s₀ s) : Upd gr s₀ (nozPixels x0 s x2 x3 x4 x5 x6).2.2 := by
  induction x0 generalizing s x2 x3 x4 x5 x6 with
  | nil => exact hU
  | cons e r ih =>
    unfold nozPixels
    try dsimp only
    repeat' first
      | intro _
      | with_reducible assumption
      | with_reducible apply ih
      | with_reducible apply ite_upd
      | with_reducible apply nozPixel_upd
      | (with_reducible refine trip_upd (by assumption) ?_)
      | split

end Sys2Proof.Laws
end

