-- ==== Sys2Proof/Laws/ChuteCmdUpd.lean ====
section
/-!
SUPPORT. What each operation of `Machine/ChuteCmd.lean` keeps, and the groups of state it may change (`Upd`).
-/

set_option Elab.async false
set_option linter.unusedTactic false
set_option linter.unreachableTactic false
namespace Sys2Proof.Laws

open Sys2Proof.Machine

variable {gr : Grp} {s₀ s : State}

theorem pushCredit_upd {r : Req} {d : Nat} {c : Nat} {off : Nat} {w : CWord} (hU : Upd gr s₀ s) : Upd gr s₀ (pushCredit s r d c off w) := by
  unfold pushCredit
  try dsimp only
  repeat' first
    | intro _
    | with_reducible assumption
    | with_reducible apply ite_upd
    | with_reducible apply logErr_upd
    | with_reducible apply chuteEvt_upd
    | with_reducible apply chuteCount_upd
    | with_reducible apply chuteAppend_upd
    | split

theorem pushOver_upd {d : Nat} {c : Nat} {w : CWord} (hU : Upd gr s₀ s) : Upd gr s₀ (pushOver s d c w) := by
  unfold pushOver
  try dsimp only
  repeat' first
    | intro _
    | with_reducible assumption
    | with_reducible apply ite_upd
    | with_reducible apply setChute_upd
    | with_reducible apply chuteRoom_upd
    | with_reducible apply chuteRoomTail_upd
    | with_reducible apply chuteLost_upd
    | with_reducible apply chuteAppend_upd
    | split
    | with_reducible apply Upd.lit

theorem chutePush_upd {r : Req} {d : Nat} {c : Nat} {off : Nat} {v : Word} (hU : Upd gr s₀ s) : Upd gr s₀ (chutePush r d c off v s) := by
  unfold chutePush
  try dsimp only
  repeat' first
    | intro _
    | with_reducible assumption
    | with_reducible apply ite_upd
    | with_reducible apply logErr_upd
    | with_reducible apply pushOver_upd
    | with_reducible apply pushCredit_upd
    | split

theorem execChutePush_ans {r : Req} {d : Nat} {c : Nat} {i : Nat} {v : Word} (hU : Upd gr s₀ s) : Ans gr s₀ (execChutePush r d c i v s) := by
  unfold execChutePush
  try dsimp only
  repeat' first
    | intro _
    | with_reducible assumption
    | with_reducible apply ok_ans
    | with_reducible apply ite_ans
    | with_reducible apply ite_upd
    | with_reducible exact ok_ans (by assumption)
    | with_reducible apply guardedWrite_upd
    | with_reducible apply chutePush_upd
    | split

theorem popPoison_upd {d : Nat} {c : Nat} (hU : Upd gr s₀ s) : Upd gr s₀ (popPoison s d c) := by
  unfold popPoison
  try dsimp only
  repeat' first
    | intro _
    | with_reducible assumption
    | with_reducible apply ite_upd
    | with_reducible apply logRecord_upd
    | with_reducible apply count_upd
    | split
    | with_reducible apply Upd.lit

theorem chutePop_upd {r : Req} {d : Nat} {c : Nat} {off : Nat} (hU : Upd gr s₀ s) : Upd gr s₀ (chutePop r d c off s) := by
  unfold chutePop
  try dsimp only
  repeat' first
    | intro _
    | with_reducible assumption
    | with_reducible apply ite_upd
    | with_reducible apply logErr_upd
    | with_reducible apply chuteTake_upd
    | with_reducible apply raise_upd
    | with_reducible apply popPoison_upd
    | (with_reducible refine pair_upd (by assumption) ?_)
    | split
    | with_reducible apply Upd.lit

theorem popRead_upd {r : Req} {d : Nat} {c : Nat} {off : Nat} (hU : Upd gr s₀ s) : Upd gr s₀ (popRead s r d c off) := by
  unfold popRead
  try dsimp only
  repeat' first
    | intro _
    | with_reducible assumption
    | with_reducible apply ite_upd
    | with_reducible apply guardedRead_upd
    | with_reducible apply chutePop_upd
    | split

theorem execChutePop_ans {r : Req} {d : Nat} {c : Nat} {i : Nat} (hU : Upd gr s₀ s) : Ans gr s₀ (execChutePop r d c i s) := by
  unfold execChutePop
  try dsimp only
  repeat' first
    | intro _
    | with_reducible assumption
    | with_reducible apply ok_ans
    | with_reducible apply ite_ans
    | with_reducible apply ite_upd
    | with_reducible exact ok_ans (by assumption)
    | with_reducible apply popRead_upd
    | split

theorem scanFor_upd {d : Nat} {c : Nat} {k : Nat} (hU : Upd gr s₀ s) : Upd gr s₀ (scanFor s d c k) := by
  unfold scanFor
  try dsimp only
  repeat' first
    | intro _
    | with_reducible assumption
    | with_reducible apply ite_upd
    | with_reducible apply setChute_upd
    | with_reducible apply spotGone_upd
    | with_reducible apply creditBack_upd
    | split
    | with_reducible apply Upd.lit

theorem flushEnd_upd {d : Nat} {c : Nat} (hU : Upd gr s₀ s) : Upd gr s₀ (flushEnd s d c) := by
  unfold flushEnd
  try dsimp only
  repeat' first
    | intro _
    | with_reducible assumption
    | with_reducible apply ite_upd
    | with_reducible apply each_upd
    | with_reducible apply scanFor_upd
    | with_reducible apply raise_upd
    | with_reducible apply chuteFollow_upd
    | with_reducible apply setChute_upd
    | split
    | with_reducible apply Upd.lit

theorem execChuteFlushScan_ans {d : Nat} {c : Nat} (hU : Upd gr s₀ s) : Ans gr s₀ (execChuteFlushScan d c s) := by
  unfold execChuteFlushScan
  try dsimp only
  repeat' first
    | intro _
    | with_reducible assumption
    | with_reducible apply ok_ans
    | with_reducible apply ite_ans
    | with_reducible apply ite_upd
    | with_reducible exact ok_ans (by assumption)
    | with_reducible apply flushEnd_upd
    | split

theorem chuteFlush_upd {d : Nat} {c : Nat} {k : Nat} (hU : Upd gr s₀ s) : Upd gr s₀ (chuteFlush s d c k) := by
  unfold chuteFlush
  try dsimp only
  repeat' first
    | intro _
    | with_reducible assumption
    | with_reducible apply ite_upd
    | with_reducible apply setChute_upd
    | with_reducible apply raise_upd
    | split
    | with_reducible apply Upd.lit

theorem execBlockAccept_ans {d : Nat} {c : Nat} (hM : gr.mem = true) (hE : gr.ecc = true) (hU : Upd gr s₀ s) : Ans gr s₀ (execBlockAccept d c s) := by
  unfold execBlockAccept
  try dsimp only
  repeat' first
    | intro _
    | with_reducible assumption
    | with_reducible apply ok_ans
    | with_reducible apply ite_ans
    | with_reducible apply ite_upd
    | with_reducible exact ok_ans (by assumption)
    | with_reducible apply blockAccept_upd
    | split

end Sys2Proof.Laws
end

