-- ==== Sys2Proof/Laws/SubstUpd.lean ====
section
/-!
SUPPORT. What each operation of `Machine/Subst.lean` keeps, and the groups of state it may change (`Upd`).
-/

set_option Elab.async false
set_option linter.unusedTactic false
set_option linter.unreachableTactic false
namespace Sys2Proof.Laws

open Sys2Proof.Machine

variable {gr : Grp} {s₀ s : State}

theorem nozRecord_upd {d : Nat} {k : Nat} {type : Nat} {cause : Nat} {idx : Nat} {w2 : Word} {f : Nat} (hU : Upd gr s₀ s) : Upd gr s₀ (nozRecord s d k type cause idx w2 f) := by
  unfold nozRecord
  try dsimp only
  repeat' first
    | intro _
    | with_reducible assumption
    | with_reducible apply ite_upd
    | with_reducible apply setDie_upd
    | with_reducible apply chuteRecord_upd
    | exact ⟨rfl, fun h => h, fun h => h⟩
    | exact ⟨rfl, by simp, by simp⟩
    | split
    | with_reducible apply Upd.lit

theorem limitCheck_upd {d : Nat} {k : Nat} (hU : Upd gr s₀ s) : Upd gr s₀ (limitCheck s d k) := by
  unfold limitCheck
  try dsimp only
  repeat' first
    | intro _
    | with_reducible assumption
    | with_reducible apply ite_upd
    | with_reducible apply setCtx_upd
    | with_reducible apply raise_upd
    | with_reducible apply nozRecord_upd
    | split
    | with_reducible apply Upd.lit

theorem dropLost_upd {d : Nat} (hU : Upd gr s₀ s) : Upd gr s₀ (dropLost s d) := by
  unfold dropLost
  try dsimp only
  repeat' first
    | intro _
    | with_reducible assumption
    | with_reducible apply ite_upd
    | with_reducible apply raise_upd
    | with_reducible apply count_upd
    | split

theorem dropMoved1_upd {d : Nat} (hU : Upd gr s₀ s) : Upd gr s₀ (dropMoved1 s d) := by
  unfold dropMoved1
  try dsimp only
  repeat' first
    | intro _
    | with_reducible assumption
    | with_reducible apply ite_upd
    | with_reducible apply count_upd
    | split

theorem formOpSet_upd {d : Nat} {k : Nat} (hU : Upd gr s₀ s) : Upd gr s₀ (formOpSet s d k) := by
  unfold formOpSet
  try dsimp only
  repeat' first
    | intro _
    | with_reducible assumption
    | with_reducible apply ite_upd
    | with_reducible apply setCtx_upd
    | split
    | with_reducible apply Upd.lit

theorem opTurn_upd {d : Nat} {k : Nat} (hU : Upd gr s₀ s) : Upd gr s₀ (opTurn s d k) := by
  unfold opTurn
  try dsimp only
  repeat' first
    | intro _
    | with_reducible assumption
    | with_reducible apply ite_upd
    | with_reducible apply setCtx_upd
    | with_reducible apply raise_upd
    | with_reducible apply countBy_upd
    | with_reducible apply formOpSet_upd
    | split
    | with_reducible apply Upd.lit

theorem subLost_upd {d : Nat} {x : SubSt} {n : Noz} (hU : Upd gr s₀ x.s) : Upd gr s₀ (subLost d x n).s :=
  dropLost_upd hU

theorem subFailed_upd {d k : Nat} {x : SubSt} {n : Noz} (hU : Upd gr s₀ x.s) : Upd gr s₀ (subFailed d k x n).s := by
  unfold subFailed
  dsimp only
  split
  · exact dropMoved1_upd (setEcho_upd hU)
  · split
    · exact dropMoved1_upd hU
    · exact subLost_upd hU

theorem subNoz_upd {d k : Nat} {l : List Nat} {x : SubSt} {n : Noz} (hU : Upd gr s₀ x.s) :
    Upd gr s₀ (subNoz d k l x n).s := by
  unfold subNoz
  extract_lets mb
  clear_value mb
  split
  · exact hU
  · split
    · exact dropMoved1_upd hU
    · split
      · exact hU
      · split
        · exact subFailed_upd hU
        · exact subLost_upd hU

theorem redNoz_upd {d k : Nat} {x : SubSt} {n : Noz} (hU : Upd gr s₀ x.s) : Upd gr s₀ (redNoz d k x n).s := by
  unfold redNoz
  dsimp only
  split
  · split
    · exact subLost_upd (setEcho_upd hU)
    · exact setEcho_upd hU
  · exact hU

theorem offNoz_upd {d k : Nat} {x : SubSt} {n : Noz} (hU : Upd gr s₀ x.s) : Upd gr s₀ (offNoz d k x n).s := by
  unfold offNoz
  split
  · exact subLost_upd hU
  · exact hU

theorem subFold_upd {f : SubSt → Noz → SubSt} (hf : ∀ x n, Upd gr s₀ x.s → Upd gr s₀ (f x n).s) {l : List Noz} {x : SubSt}
    (hU : Upd gr s₀ x.s) : Upd gr s₀ (l.foldl f x).s := by
  induction l generalizing x with
  | nil => exact hU
  | cons e r ih => exact ih (hf _ _ hU)

theorem substitute_upd {d k : Nat} {l : List Noz} (hU : Upd gr s₀ s) : Upd gr s₀ (substitute s d k l).2 := by
  unfold substitute
  dsimp only
  split
  · exact hU
  · dsimp only
    have h0 : Upd gr s₀ (limitCheck s d k) := limitCheck_upd hU
    split
    · exact subFold_upd (fun _ _ h => redNoz_upd h) h0
    · split
      · exact subFold_upd (fun _ _ h => subNoz_upd h) h0
      · exact subFold_upd (fun _ _ h => offNoz_upd h) h0

theorem lineBuild_upd {d : Nat} {k : Nat} (hM : gr.mem = true) (hE : gr.ecc = true) (hU : Upd gr s₀ s) : Upd gr s₀ (lineBuild s d k) := by
  unfold lineBuild
  try dsimp only
  repeat' first
    | intro _
    | with_reducible assumption
    | with_reducible apply ite_upd
    | with_reducible apply readSlots_upd
    | with_reducible apply opTurn_upd
    | with_reducible apply nozPixels_upd
    | with_reducible apply substitute_upd
    | with_reducible apply setCtx_upd
    | with_reducible apply expandAll_upd
    | with_reducible apply freeLines_upd
    | (with_reducible refine pair_upd (by assumption) ?_)
    | (with_reducible refine trip_upd (by assumption) ?_)
    | split
    | with_reducible apply Upd.lit

theorem execLineBuild_ans {d : Nat} {k : Nat} (hM : gr.mem = true) (hE : gr.ecc = true) (hU : Upd gr s₀ s) : Ans gr s₀ (execLineBuild d k s) := by
  unfold execLineBuild
  try dsimp only
  repeat' first
    | intro _
    | with_reducible assumption
    | with_reducible apply ok_ans
    | with_reducible apply ite_ans
    | with_reducible apply ite_upd
    | with_reducible exact ok_ans (by assumption)
    | with_reducible apply lineBuild_upd
    | split

theorem shareDrop_upd {d : Nat} (hU : Upd gr s₀ s) : Upd gr s₀ (shareDrop s d) := by
  unfold shareDrop
  try dsimp only
  repeat' first
    | intro _
    | with_reducible assumption
    | with_reducible apply ite_upd
    | with_reducible apply raise_upd
    | with_reducible apply count_upd
    | split

theorem shareArrive_upd {q : SeamMsg} {vals : List Nat} (hM : gr.mem = true) (hE : gr.ecc = true) (hU : Upd gr s₀ s) : Upd gr s₀ (shareArrive s q vals) := by
  unfold shareArrive
  try dsimp only
  repeat' first
    | intro _
    | with_reducible assumption
    | with_reducible apply ite_upd
    | with_reducible apply shareDrop_upd
    | with_reducible apply count_upd
    | with_reducible apply storeShare_upd
    | with_reducible apply setCtx_upd
    | split
    | with_reducible apply Upd.lit

theorem execSeamShareReceive_ans {d : Nat} (hM : gr.mem = true) (hE : gr.ecc = true) (hU : Upd gr s₀ s) : Ans gr s₀ (execSeamShareReceive d s) := by
  unfold execSeamShareReceive
  try dsimp only
  repeat' first
    | intro _
    | with_reducible assumption
    | with_reducible apply ok_ans
    | with_reducible apply ite_ans
    | with_reducible apply ite_upd
    | with_reducible exact ok_ans (by assumption)
    | with_reducible apply shareArrive_upd
    | split
    | with_reducible apply Upd.lit

theorem execSeamCreditReturn_ans {d : Nat} (hM : gr.mem = true) (hE : gr.ecc = true) (hU : Upd gr s₀ s) : Ans gr s₀ (execSeamCreditReturn d s) := by
  unfold execSeamCreditReturn
  try dsimp only
  repeat' first
    | intro _
    | with_reducible assumption
    | with_reducible apply ok_ans
    | with_reducible apply ite_ans
    | with_reducible apply ite_upd
    | with_reducible exact ok_ans (by assumption)
    | with_reducible apply expandAll_upd
    | with_reducible apply setCtx_upd
    | split
    | with_reducible apply Upd.lit

end Sys2Proof.Laws
end

