-- ==== Sys2Proof/Laws/BindUpd.lean ====
section
/-!
SUPPORT. What each operation of `Machine/Bind.lean` keeps, and the groups of state it may change (`Upd`).
-/

set_option Elab.async false
set_option linter.unusedTactic false
set_option linter.unreachableTactic false
namespace Sys2Proof.Laws

open Sys2Proof.Machine

variable {gr : Grp} {s₀ s : State}

theorem rePredict_upd {d : Nat} {k : Nat} (hU : Upd gr s₀ s) : Upd gr s₀ (rePredict s d k) := by
  unfold rePredict
  try dsimp only
  repeat' first
    | intro _
    | with_reducible assumption
    | with_reducible apply ite_upd
    | with_reducible apply setCtx_upd
    | split
    | with_reducible apply Upd.lit

theorem recompute_upd {d : Nat} {k : Nat} (hU : Upd gr s₀ s) : Upd gr s₀ (recompute s d k) := by
  unfold recompute
  try dsimp only
  repeat' first
    | intro _
    | with_reducible assumption
    | with_reducible apply ite_upd
    | with_reducible apply setPort_upd
    | with_reducible apply setCtx_upd
    | with_reducible apply rePredict_upd
    | split
    | with_reducible apply Upd.lit

theorem estimateArrives_upd {d : Nat} {c : Nat} {e : Est} (hU : Upd gr s₀ s) : Upd gr s₀ (estimateArrives s d c e) := by
  unfold estimateArrives
  try dsimp only
  repeat' first
    | intro _
    | with_reducible assumption
    | with_reducible apply ite_upd
    | with_reducible apply setEnc_upd
    | with_reducible apply each_upd
    | with_reducible apply setCtx_upd
    | with_reducible apply recompute_upd
    | split
    | with_reducible apply Upd.lit

theorem execEstimateArrival_ans {d : Nat} {c : Nat} (hU : Upd gr s₀ s) : Ans gr s₀ (execEstimateArrival d c s) := by
  unfold execEstimateArrival
  try dsimp only
  repeat' first
    | intro _
    | with_reducible assumption
    | with_reducible apply ok_ans
    | with_reducible apply ite_ans
    | with_reducible apply ite_upd
    | (with_reducible refine takeMsg_e ?_ (by assumption))
    | with_reducible exact ok_ans (by assumption)
    | with_reducible apply estimateArrives_upd
    | split
    | with_reducible apply Upd.lit

theorem shiftOrigin_upd {d : Nat} {k : Nat} {delta : Int} (hU : Upd gr s₀ s) : Upd gr s₀ (shiftOrigin s d k delta) := by
  unfold shiftOrigin
  try dsimp only
  repeat' first
    | intro _
    | with_reducible assumption
    | with_reducible apply ite_upd
    | with_reducible apply setCtx_upd
    | with_reducible apply setPort_upd
    | split
    | with_reducible apply Upd.lit

theorem policyPause_upd {d : Nat} {k : Nat} {cause : Nat} {record : Bool} (hE : gr.ecc = true) (hU : Upd gr s₀ s) : Upd gr s₀ (policyPause s d k cause record) := by
  unfold policyPause
  try dsimp only
  repeat' first
    | intro _
    | with_reducible assumption
    | with_reducible apply ite_upd
    | with_reducible apply ctxPolicyPause_upd
    | with_reducible apply ctxRecord_upd
    | split

theorem stepAt_upd {d : Nat} {k : Nat} {delta : Int} (hE : gr.ecc = true) (hU : Upd gr s₀ s) : Upd gr s₀ (stepAt s d k delta) := by
  unfold stepAt
  try dsimp only
  repeat' first
    | intro _
    | with_reducible assumption
    | with_reducible apply ite_upd
    | with_reducible apply ctxEvt_upd
    | with_reducible apply setCtx_upd
    | with_reducible apply shiftOrigin_upd
    | with_reducible apply policyPause_upd
    | split
    | with_reducible apply Upd.lit

theorem stepArrives_upd {d : Nat} {c : Nat} {delta : Int} (hE : gr.ecc = true) (hU : Upd gr s₀ s) : Upd gr s₀ (stepArrives s d c delta) := by
  unfold stepArrives
  try dsimp only
  repeat' first
    | intro _
    | with_reducible assumption
    | with_reducible apply ite_upd
    | with_reducible apply setEnc_upd
    | with_reducible apply each_upd
    | with_reducible apply stepAt_upd
    | split
    | with_reducible apply Upd.lit

theorem execPositionStep_ans {d : Nat} {c : Nat} (hE : gr.ecc = true) (hU : Upd gr s₀ s) : Ans gr s₀ (execPositionStep d c s) := by
  unfold execPositionStep
  try dsimp only
  repeat' first
    | intro _
    | with_reducible assumption
    | with_reducible apply ok_ans
    | with_reducible apply ite_ans
    | with_reducible apply ite_upd
    | (with_reducible refine takeMsg_e ?_ (by assumption))
    | with_reducible exact ok_ans (by assumption)
    | with_reducible apply stepArrives_upd
    | split
    | with_reducible apply Upd.lit

theorem lostPolicy_upd {d : Nat} {c : Nat} {k : Nat} (hE : gr.ecc = true) (hU : Upd gr s₀ s) : Upd gr s₀ (lostPolicy s d c k) := by
  unfold lostPolicy
  try dsimp only
  repeat' first
    | intro _
    | with_reducible assumption
    | with_reducible apply ite_upd
    | with_reducible apply ctxFence_upd
    | with_reducible apply ctxRecord_upd
    | with_reducible apply policyPause_upd
    | split

theorem lostArrives_upd {d : Nat} {c : Nat} (hE : gr.ecc = true) (hU : Upd gr s₀ s) : Upd gr s₀ (lostArrives s d c) := by
  unfold lostArrives
  try dsimp only
  repeat' first
    | intro _
    | with_reducible assumption
    | with_reducible apply ite_upd
    | with_reducible apply setEnc_upd
    | with_reducible apply each_upd
    | with_reducible apply ctxEvt_upd
    | with_reducible apply setCtx_upd
    | with_reducible apply withdrawAll_upd
    | with_reducible apply lostPolicy_upd
    | split
    | with_reducible apply Upd.lit

theorem execSourceLost_ans {d : Nat} {c : Nat} (hE : gr.ecc = true) (hU : Upd gr s₀ s) : Ans gr s₀ (execSourceLost d c s) := by
  unfold execSourceLost
  try dsimp only
  repeat' first
    | intro _
    | with_reducible assumption
    | with_reducible apply ok_ans
    | with_reducible apply ite_ans
    | with_reducible apply ite_upd
    | (with_reducible refine takeMsg_e ?_ (by assumption))
    | with_reducible exact ok_ans (by assumption)
    | with_reducible apply lostArrives_upd
    | split
    | with_reducible apply Upd.lit

theorem startGroup_upd {d : Nat} {k : Nat} {ref : Int} (hE : gr.ecc = true) (hU : Upd gr s₀ s) : Upd gr s₀ (startGroup s d k ref) := by
  unfold startGroup
  try dsimp only
  repeat' first
    | intro _
    | with_reducible assumption
    | with_reducible apply ite_upd
    | with_reducible apply ctxMove_upd
    | with_reducible apply rePredict_upd
    | with_reducible apply setCtx_upd
    | split
    | with_reducible apply Upd.lit

theorem pdAt_upd {d : Nat} {n : Nat} {stamp : Nat} {accepted : Nat} {k : Nat} (hE : gr.ecc = true) (hU : Upd gr s₀ s) : Upd gr s₀ (pdAt s d n stamp accepted k) := by
  unfold pdAt
  try dsimp only
  repeat' first
    | intro _
    | with_reducible assumption
    | with_reducible apply ite_upd
    | with_reducible apply startGroup_upd
    | with_reducible apply ctxEvt_upd
    | split

theorem execPdEdgeArrival_ans {d : Nat} {n : Nat} (hE : gr.ecc = true) (hU : Upd gr s₀ s) : Ans gr s₀ (execPdEdgeArrival d n s) := by
  unfold execPdEdgeArrival
  try dsimp only
  repeat' first
    | intro _
    | with_reducible assumption
    | with_reducible apply ok_ans
    | with_reducible apply ite_ans
    | with_reducible apply ite_upd
    | (with_reducible refine takeMsg_e ?_ (by assumption))
    | with_reducible exact ok_ans (by assumption)
    | with_reducible apply each_upd
    | with_reducible apply pdAt_upd
    | split
    | with_reducible apply Upd.lit

theorem turnEnd_upd {d : Nat} {k : Nat} (hE : gr.ecc = true) (hU : Upd gr s₀ s) : Upd gr s₀ (turnEnd s d k) := by
  unfold turnEnd
  try dsimp only
  repeat' first
    | intro _
    | with_reducible assumption
    | with_reducible apply ite_upd
    | with_reducible apply each_upd
    | with_reducible apply setCtx_upd
    | with_reducible apply ctxMove_upd
    | with_reducible apply rePredict_upd
    | split
    | with_reducible apply Upd.lit

theorem memberDone_upd {d : Nat} {p : Nat} {c : Cycle} {k : Nat} {blank : Bool} (hU : Upd gr s₀ s) : Upd gr s₀ (memberDone s d p c k blank) := by
  unfold memberDone
  try dsimp only
  repeat' first
    | intro _
    | with_reducible assumption
    | with_reducible apply ite_upd
    | with_reducible apply lineDone_upd
    | with_reducible apply setCycle_upd
    | split
    | with_reducible apply Upd.lit

theorem retire_upd {d : Nat} {p : Nat} {c : Cycle} (hE : gr.ecc = true) (hU : Upd gr s₀ s) : Upd gr s₀ (retire s d p c) := by
  unfold retire
  try dsimp only
  repeat' first
    | intro _
    | with_reducible assumption
    | with_reducible apply ite_upd
    | with_reducible apply setPort_upd
    | with_reducible apply turnEnd_upd
    | split
    | with_reducible apply Upd.lit

theorem cycleOutcome_upd {d : Nat} {p : Nat} {c : Cycle} {delivered : Bool} (hE : gr.ecc = true) (hU : Upd gr s₀ s) : Upd gr s₀ (cycleOutcome s d p c delivered) := by
  unfold cycleOutcome
  try dsimp only
  repeat' first
    | intro _
    | with_reducible assumption
    | with_reducible apply ite_upd
    | with_reducible apply setCycle_upd
    | with_reducible apply each_upd
    | with_reducible apply setCtx_upd
    | with_reducible apply stallReset_upd
    | with_reducible apply stallMark_upd
    | with_reducible apply memberDone_upd
    | with_reducible apply retire_upd
    | split
    | with_reducible apply Upd.lit

theorem asmTurn_upd {d : Nat} {k : Nat} (hM : gr.mem = true) (hE : gr.ecc = true) (hU : Upd gr s₀ s) : Upd gr s₀ (asmTurn s d k) := by
  unfold asmTurn
  try dsimp only
  repeat' first
    | intro _
    | with_reducible assumption
    | with_reducible apply ite_upd
    | with_reducible apply setCtx_upd
    | with_reducible apply expandAll_upd
    | with_reducible apply freeLines_upd
    | split
    | with_reducible apply Upd.lit

theorem swatheCheck_upd {d : Nat} {k : Nat} (hM : gr.mem = true) (hE : gr.ecc = true) (hU : Upd gr s₀ s) : Upd gr s₀ (swatheCheck s d k) := by
  unfold swatheCheck
  try dsimp only
  repeat' first
    | intro _
    | with_reducible assumption
    | with_reducible apply ite_upd
    | with_reducible apply each_upd
    | with_reducible apply ctxEvt_upd
    | with_reducible apply ctxHandOver_upd
    | with_reducible apply asmTurn_upd
    | with_reducible apply setCtx_upd
    | with_reducible apply turnEnd_upd
    | with_reducible apply ctxMove_upd
    | split
    | with_reducible apply Upd.lit

theorem skipTo_upd {d : Nat} {k : Nat} {n : Nat} (hM : gr.mem = true) (hE : gr.ecc = true) (hU : Upd gr s₀ s) : Upd gr s₀ (skipTo s d k n) := by
  unfold skipTo
  try dsimp only
  repeat' first
    | intro _
    | with_reducible assumption
    | with_reducible apply ite_upd
    | with_reducible apply setCtx_upd
    | with_reducible apply ctxEvt_upd
    | with_reducible apply expandAll_upd
    | with_reducible apply freeLines_upd
    | split
    | with_reducible apply Upd.lit

theorem rejoinNow_upd {d : Nat} {t : Nat} {k : Nat} (hM : gr.mem = true) (hE : gr.ecc = true) (hU : Upd gr s₀ s) : Upd gr s₀ (rejoinNow s d t k) := by
  unfold rejoinNow
  try dsimp only
  repeat' first
    | intro _
    | with_reducible assumption
    | with_reducible apply ite_upd
    | with_reducible apply setCtx_upd
    | with_reducible apply ctxEvt_upd
    | with_reducible apply seamUpdate_upd
    | with_reducible apply tryHandOver_upd
    | with_reducible apply skipTo_upd
    | split
    | with_reducible apply Upd.lit

theorem sweepEnd_upd {d : Nat} {st : Nat} {fail : Nat} (hU : Upd gr s₀ s) : Upd gr s₀ (sweepEnd s d st fail) := by
  unfold sweepEnd
  try dsimp only
  repeat' first
    | intro _
    | with_reducible assumption
    | with_reducible apply ite_upd
    | with_reducible apply raise_upd
    | with_reducible apply wr_upd
    | split

theorem sweepCheck_upd {d : Nat} {p : Nat} (hU : Upd gr s₀ s) : Upd gr s₀ (sweepCheck s d p) := by
  unfold sweepCheck
  try dsimp only
  repeat' first
    | intro _
    | with_reducible assumption
    | with_reducible apply ite_upd
    | with_reducible apply sweepEnd_upd
    | split

theorem sweepNext_upd {d : Nat} {missed : Bool} (hU : Upd gr s₀ s) : Upd gr s₀ (sweepNext s d missed) := by
  unfold sweepNext
  try dsimp only
  repeat' first
    | intro _
    | with_reducible assumption
    | with_reducible apply ite_upd
    | with_reducible apply wf_upd
    | with_reducible apply setEcho_upd
    | with_reducible apply sweepEnd_upd
    | split
    | with_reducible apply Upd.lit

theorem sweepSpend_upd {d : Nat} {p : Nat} (hU : Upd gr s₀ s) : Upd gr s₀ (sweepSpend s d p) := by
  unfold sweepSpend
  try dsimp only
  repeat' first
    | intro _
    | with_reducible assumption
    | with_reducible apply ite_upd
    | with_reducible apply sweepNext_upd
    | with_reducible apply setEcho_upd
    | split
    | with_reducible apply Upd.lit

theorem senseChoice_upd {d : Nat} {p : Nat} {c : Cycle} (hU : Upd gr s₀ s) : Upd gr s₀ (senseChoice s d p c).2 := by
  unfold senseChoice
  try dsimp only
  repeat' first
    | intro _
    | with_reducible assumption
    | with_reducible apply ite_upd
    | with_reducible apply setPort_upd
    | with_reducible apply sweepSpend_upd
    | with_reducible apply count_upd
    | split
    | with_reducible apply Upd.lit

theorem bindWave_upd {d : Nat} {p : Nat} {c : Cycle} (hU : Upd gr s₀ s) : Upd gr s₀ (bindWave s d p c).2 := by
  unfold bindWave
  try dsimp only
  repeat' first
    | intro _
    | with_reducible assumption
    | with_reducible apply ite_upd
    | with_reducible apply raise_upd
    | with_reducible apply count_upd
    | with_reducible apply wr_upd
    | with_reducible apply whenDo_upd
    | with_reducible apply countBy_upd
    | split
    | with_reducible apply Upd.lit

theorem loseLine_upd {d : Nat} {m : Nat} (hU : Upd gr s₀ s) : Upd gr s₀ (loseLine s d m) := by
  unfold loseLine
  try dsimp only
  repeat' first
    | intro _
    | with_reducible assumption
    | with_reducible apply ite_upd
    | with_reducible apply ctxNull_upd
    | split

theorem underrun_upd {d : Nat} {m : Nat} (hE : gr.ecc = true) (hU : Upd gr s₀ s) : Upd gr s₀ (underrun s d m) := by
  unfold underrun
  try dsimp only
  repeat' first
    | intro _
    | with_reducible assumption
    | with_reducible apply ite_upd
    | with_reducible apply policyPause_upd
    | with_reducible apply ctxFence_upd
    | with_reducible apply ctxRecord_upd
    | with_reducible apply setCtx_upd
    | split
    | with_reducible apply Upd.lit

theorem bindCycle_upd {d : Nat} {k : Nat} {t0 : Int} (hE : gr.ecc = true) (hU : Upd gr s₀ s) : Upd gr s₀ (bindCycle s d k t0) := by
  unfold bindCycle
  try dsimp only
  repeat' first
    | intro _
    | with_reducible assumption
    | with_reducible apply ite_upd
    | with_reducible apply bindWave_upd
    | with_reducible apply senseChoice_upd
    | with_reducible apply setPort_upd
    | with_reducible apply queueFrame_upd
    | with_reducible apply cycleOutcome_upd
    | with_reducible apply each_upd
    | with_reducible apply ctxNull_upd
    | with_reducible apply ctxEvt_upd
    | with_reducible apply lineDone_upd
    | with_reducible apply stallMark_upd
    | with_reducible apply setCtx_upd
    | with_reducible apply rePredict_upd
    | with_reducible apply underrun_upd
    | (with_reducible refine pair_upd (by assumption) ?_)
    | split
    | with_reducible apply Upd.lit

theorem skipLine_upd {d : Nat} {k : Nat} (hU : Upd gr s₀ s) : Upd gr s₀ (skipLine s d k) := by
  unfold skipLine
  try dsimp only
  repeat' first
    | intro _
    | with_reducible assumption
    | with_reducible apply ite_upd
    | with_reducible apply each_upd
    | with_reducible apply lineDone_upd
    | with_reducible apply ctxLate_upd
    | with_reducible apply setCtx_upd
    | with_reducible apply rePredict_upd
    | split
    | with_reducible apply Upd.lit

theorem bindLine_upd {d : Nat} {k : Nat} (hE : gr.ecc = true) (hU : Upd gr s₀ s) : Upd gr s₀ (bindLine s d k) := by
  unfold bindLine
  try dsimp only
  repeat' first
    | intro _
    | with_reducible assumption
    | with_reducible apply ite_upd
    | with_reducible apply skipLine_upd
    | with_reducible apply policyPause_upd
    | with_reducible apply each_upd
    | with_reducible apply setCtx_upd
    | with_reducible apply ctxLate_upd
    | with_reducible apply bindCycle_upd
    | split
    | with_reducible apply Upd.lit

theorem portHandOver_upd {d : Nat} {p : Nat} (hU : Upd gr s₀ s) : Upd gr s₀ (portHandOver s d p) := by
  unfold portHandOver
  try dsimp only
  repeat' first
    | intro _
    | with_reducible assumption
    | with_reducible apply ite_upd
    | with_reducible apply hpHandOver_upd
    | split

theorem memberHandOvers_upd {d : Nat} {k : Nat} (hE : gr.ecc = true) (hU : Upd gr s₀ s) : Upd gr s₀ (memberHandOvers s d k) := by
  unfold memberHandOvers
  try dsimp only
  repeat' first
    | intro _
    | with_reducible assumption
    | with_reducible apply ite_upd
    | with_reducible apply each_upd
    | with_reducible apply ctxHandOver_upd
    | split

theorem bindPoint_upd {d : Nat} {k : Nat} {t : Int} (hM : gr.mem = true) (hE : gr.ecc = true) (hU : Upd gr s₀ s) : Upd gr s₀ (bindPoint s d k t) := by
  unfold bindPoint
  try dsimp only
  repeat' first
    | intro _
    | with_reducible assumption
    | with_reducible apply ite_upd
    | with_reducible apply waitTick_upd
    | with_reducible apply rePredict_upd
    | with_reducible apply memberHandOvers_upd
    | with_reducible apply asBoundary_upd
    | with_reducible apply portHandOver_upd
    | with_reducible apply sweepCheck_upd
    | with_reducible apply each_upd
    | with_reducible apply rejoinNow_upd
    | with_reducible apply bindLine_upd
    | with_reducible apply swatheCheck_upd
    | with_reducible apply waitClock_upd
    | split

theorem execLineBind_ans {d : Nat} {k0 : Nat} (hM : gr.mem = true) (hE : gr.ecc = true) (hU : Upd gr s₀ s) : Ans gr s₀ (execLineBind d k0 s) := by
  unfold execLineBind
  try dsimp only
  repeat' first
    | intro _
    | with_reducible assumption
    | with_reducible apply ok_ans
    | with_reducible apply ite_ans
    | with_reducible apply ite_upd
    | with_reducible exact ok_ans (by assumption)
    | with_reducible apply ctxAbortNow_upd
    | with_reducible apply swatheCheck_upd
    | with_reducible apply turnEnd_upd
    | with_reducible apply bindPoint_upd
    | split
    | with_reducible apply Upd.lit

theorem execFollowerRejoin_ans {d : Nat} {k : Nat} (hM : gr.mem = true) (hE : gr.ecc = true) (hU : Upd gr s₀ s) : Ans gr s₀ (execFollowerRejoin d k s) := by
  unfold execFollowerRejoin
  try dsimp only
  repeat' first
    | intro _
    | with_reducible assumption
    | with_reducible apply ok_ans
    | with_reducible apply ite_ans
    | with_reducible apply ite_upd
    | with_reducible exact ok_ans (by assumption)
    | with_reducible apply rejoinNow_upd
    | with_reducible apply waitTick_upd
    | split
    | with_reducible apply Upd.lit

theorem freezeCycle_upd {d : Nat} {p : Nat} {c : Cycle} (hU : Upd gr s₀ s) : Upd gr s₀ (freezeCycle s d p c) := by
  unfold freezeCycle
  try dsimp only
  repeat' first
    | intro _
    | with_reducible assumption
    | with_reducible apply ite_upd
    | with_reducible apply setCycle_upd
    | with_reducible apply raise_upd
    | with_reducible apply count_upd
    | with_reducible apply each_upd
    | with_reducible apply ctxDegraded_upd
    | with_reducible apply memberDone_upd
    | with_reducible apply ctxNull_upd
    | with_reducible apply emit_upd
    | split
    | with_reducible apply Upd.lit

theorem freezeAt_upd {d : Nat} {p : Nat} {c : Cycle} (hU : Upd gr s₀ s) : Upd gr s₀ (freezeAt s d p c) := by
  unfold freezeAt
  try dsimp only
  repeat' first
    | intro _
    | with_reducible assumption
    | with_reducible apply ite_upd
    | with_reducible apply freezeCycle_upd
    | with_reducible apply waitTick_upd
    | split

theorem execLineFreeze_ans {d : Nat} {k : Nat} (hU : Upd gr s₀ s) : Ans gr s₀ (execLineFreeze d k s) := by
  unfold execLineFreeze
  try dsimp only
  repeat' first
    | intro _
    | with_reducible assumption
    | with_reducible apply ok_ans
    | with_reducible apply ite_ans
    | with_reducible apply ite_upd
    | with_reducible exact ok_ans (by assumption)
    | with_reducible apply freezeAt_upd
    | split
    | with_reducible apply Upd.lit

theorem playPiezo_upd {d : Nat} {p : Nat} {c : Cycle} (hU : Upd gr s₀ s) : Upd gr s₀ (playPiezo s d p c) := by
  unfold playPiezo
  try dsimp only
  repeat' first
    | intro _
    | with_reducible assumption
    | with_reducible apply ite_upd
    | with_reducible apply whenDo_upd
    | with_reducible apply raise_upd
    | with_reducible apply countBy_upd
    | with_reducible apply streamFollow_upd
    | with_reducible apply setPort_upd
    | split
    | with_reducible apply Upd.lit
    | with_reducible apply Upd.litOut
    | exact List.prefix_append _ _
    | (rw [List.append_assoc]; exact List.prefix_append _ _)

theorem senseOpen_upd {d : Nat} {p : Nat} {c : Cycle} (hU : Upd gr s₀ s) : Upd gr s₀ (senseOpen s d p c) := by
  unfold senseOpen
  try dsimp only
  repeat' first
    | intro _
    | with_reducible assumption
    | with_reducible apply ite_upd
    | with_reducible apply setEcho_upd
    | split
    | with_reducible apply Upd.lit

theorem playThermal_upd {d : Nat} {p : Nat} {c : Cycle} (hU : Upd gr s₀ s) : Upd gr s₀ (playThermal s d p c) := by
  unfold playThermal
  try dsimp only
  repeat' first
    | intro _
    | with_reducible assumption
    | with_reducible apply ite_upd
    | split
    | with_reducible apply Upd.lit
    | with_reducible apply Upd.litOut
    | exact List.prefix_append _ _
    | (rw [List.append_assoc]; exact List.prefix_append _ _)

theorem playCycle_upd {d : Nat} {p : Nat} {c : Cycle} (hU : Upd gr s₀ s) : Upd gr s₀ (playCycle s d p c) := by
  unfold playCycle
  try dsimp only
  repeat' first
    | intro _
    | with_reducible assumption
    | with_reducible apply ite_upd
    | with_reducible apply playThermal_upd
    | with_reducible apply senseOpen_upd
    | with_reducible apply playPiezo_upd
    | with_reducible apply setPort_upd
    | split
    | with_reducible apply Upd.lit

theorem logDrops_upd {d : Nat} {p : Nat} {c : Cycle} (hU : Upd gr s₀ s) : Upd gr s₀ (logDrops s d p c) := by
  unfold logDrops
  try dsimp only
  repeat' first
    | intro _
    | with_reducible assumption
    | with_reducible apply ite_upd
    | with_reducible apply setTherm_upd
    | split
    | with_reducible apply Upd.lit

theorem fireCycle_upd {d : Nat} {p : Nat} {c : Cycle} (hE : gr.ecc = true) (hU : Upd gr s₀ s) : Upd gr s₀ (fireCycle s d p c) := by
  unfold fireCycle
  try dsimp only
  repeat' first
    | intro _
    | with_reducible assumption
    | with_reducible apply ite_upd
    | with_reducible apply waitTick_upd
    | with_reducible apply logDrops_upd
    | with_reducible apply playCycle_upd
    | with_reducible apply setCycle_upd
    | with_reducible apply each_upd
    | with_reducible apply setCtx_upd
    | with_reducible apply retire_upd
    | with_reducible apply ctxAbortNow_upd
    | split
    | with_reducible apply Upd.lit

theorem execCycleFire_ans {d : Nat} {k : Nat} (hE : gr.ecc = true) (hU : Upd gr s₀ s) : Ans gr s₀ (execCycleFire d k s) := by
  unfold execCycleFire
  try dsimp only
  repeat' first
    | intro _
    | with_reducible assumption
    | with_reducible apply ok_ans
    | with_reducible apply ite_ans
    | with_reducible apply ite_upd
    | with_reducible exact ok_ans (by assumption)
    | with_reducible apply freezeAt_upd
    | with_reducible apply fireCycle_upd
    | split
    | with_reducible apply Upd.lit

theorem drainEnd_upd {d : Nat} {k0 : Nat} (hE : gr.ecc = true) (hU : Upd gr s₀ s) : Upd gr s₀ (drainEnd s d k0) := by
  unfold drainEnd
  try dsimp only
  repeat' first
    | intro _
    | with_reducible assumption
    | with_reducible apply ite_upd
    | with_reducible apply ctxMove_upd
    | with_reducible apply each_upd
    | with_reducible apply ctxEnter_upd
    | split

theorem execDrainComplete_ans {d : Nat} {k0 : Nat} (hE : gr.ecc = true) (hU : Upd gr s₀ s) : Ans gr s₀ (execDrainComplete d k0 s) := by
  unfold execDrainComplete
  try dsimp only
  repeat' first
    | intro _
    | with_reducible assumption
    | with_reducible apply ok_ans
    | with_reducible apply ite_ans
    | with_reducible apply ite_upd
    | with_reducible exact ok_ans (by assumption)
    | with_reducible apply drainEnd_upd
    | split

theorem stallRecord_upd {d : Nat} {k : Nat} {fence : Bool} (hU : Upd gr s₀ s) : Upd gr s₀ (stallRecord s d k fence) := by
  unfold stallRecord
  try dsimp only
  repeat' first
    | intro _
    | with_reducible assumption
    | with_reducible apply ite_upd
    | with_reducible apply logRecord_upd
    | with_reducible apply setPort_upd
    | with_reducible apply setCtx_upd
    | split
    | with_reducible apply Upd.lit

theorem stallNow_upd {d : Nat} {k : Nat} (hE : gr.ecc = true) (hU : Upd gr s₀ s) : Upd gr s₀ (stallNow s d k) := by
  unfold stallNow
  try dsimp only
  repeat' first
    | intro _
    | with_reducible assumption
    | with_reducible apply ite_upd
    | with_reducible apply setCtx_upd
    | with_reducible apply stallRecord_upd
    | with_reducible apply ctxEvt_upd
    | with_reducible apply ctxFence_upd
    | with_reducible apply ctxMove_upd
    | split
    | with_reducible apply Upd.lit

theorem execStall_ans {d : Nat} {k : Nat} (hE : gr.ecc = true) (hU : Upd gr s₀ s) : Ans gr s₀ (execStall d k s) := by
  unfold execStall
  try dsimp only
  repeat' first
    | intro _
    | with_reducible assumption
    | with_reducible apply ok_ans
    | with_reducible apply ite_ans
    | with_reducible apply ite_upd
    | with_reducible exact ok_ans (by assumption)
    | with_reducible apply stallNow_upd
    | with_reducible apply waitClock_upd
    | split

end Sys2Proof.Laws
end

