-- ==== Sys2Proof/Laws/LoadUpd.lean ====
section
/-!
SUPPORT. What each operation of `Machine/Load.lean` keeps, and the groups of state it may change (`Upd`).
-/

set_option Elab.async false
set_option linter.unusedTactic false
set_option linter.unreachableTactic false
namespace Sys2Proof.Laws

open Sys2Proof.Machine

variable {gr : Grp} {s₀ s : State}

theorem setLoad_upd {d : Nat} {p : Nat} {st : Nat} (hU : Upd gr s₀ s) : Upd gr s₀ (setLoad s d p st) := by
  unfold setLoad
  try dsimp only
  repeat' first
    | intro _
    | with_reducible assumption
    | with_reducible apply ite_upd
    | with_reducible apply wf_upd
    | split

theorem loadStart_upd {d : Nat} {p : Nat} {b : Nat} (hU : Upd gr s₀ s) : Upd gr s₀ (loadStart s d p b) := by
  unfold loadStart
  try dsimp only
  repeat' first
    | intro _
    | with_reducible assumption
    | with_reducible apply ite_upd
    | with_reducible apply wr_upd
    | with_reducible apply loadFail_upd
    | with_reducible apply wf_upd
    | with_reducible apply setLoad_upd
    | with_reducible apply setPort_upd
    | split
    | with_reducible apply Upd.lit

theorem wfCtrlEff_upd {r : Req} {d : Nat} {p : Nat} {v : Word} (hU : Upd gr s₀ s) : Upd gr s₀ (wfCtrlEff r d p v s) := by
  unfold wfCtrlEff
  try dsimp only
  repeat' first
    | intro _
    | with_reducible assumption
    | with_reducible apply ite_upd
    | with_reducible apply logErr_upd
    | with_reducible apply wf_upd
    | with_reducible apply loadStart_upd
    | split

theorem execWfLoadStart_ans {r : Req} {d : Nat} {p : Nat} {v : Word} (hU : Upd gr s₀ s) : Ans gr s₀ (execWfLoadStart r d p v s) := by
  unfold execWfLoadStart
  try dsimp only
  repeat' first
    | intro _
    | with_reducible assumption
    | with_reducible apply ok_ans
    | with_reducible apply ite_ans
    | with_reducible apply ite_upd
    | with_reducible exact ok_ans (by assumption)
    | with_reducible apply guardedWrite_upd
    | with_reducible apply wfCtrlEff_upd
    | split

theorem loadCopy_upd {d : Nat} {p : Nat} (hE : gr.ecc = true) (hU : Upd gr s₀ s) : Upd gr s₀ (loadCopy s d p) := by
  unfold loadCopy
  try dsimp only
  repeat' first
    | intro _
    | with_reducible assumption
    | with_reducible apply ite_upd
    | with_reducible apply readWords_upd
    | with_reducible apply setLoad_upd
    | with_reducible apply loadFail_upd
    | with_reducible apply setPort_upd
    | with_reducible apply wr_upd
    | (with_reducible refine trip_upd (by assumption) ?_)
    | split
    | with_reducible apply Upd.lit

theorem execWfLoadCopy_ans {d : Nat} {p : Nat} (hE : gr.ecc = true) (hU : Upd gr s₀ s) : Ans gr s₀ (execWfLoadCopy d p s) := by
  unfold execWfLoadCopy
  try dsimp only
  repeat' first
    | intro _
    | with_reducible assumption
    | with_reducible apply ok_ans
    | with_reducible apply ite_ans
    | with_reducible apply ite_upd
    | with_reducible exact ok_ans (by assumption)
    | with_reducible apply loadCopy_upd
    | with_reducible apply each_upd
    | with_reducible apply waitTick_upd
    | split

theorem execWfLoadHead_ans {d : Nat} {p : Nat} (hU : Upd gr s₀ s) : Ans gr s₀ (execWfLoadHead d p s) := by
  unfold execWfLoadHead
  try dsimp only
  repeat' first
    | intro _
    | with_reducible assumption
    | with_reducible apply ok_ans
    | with_reducible apply ite_ans
    | with_reducible apply ite_upd
    | with_reducible exact ok_ans (by assumption)
    | with_reducible apply loadFail_upd
    | with_reducible apply setPort_upd
    | split
    | with_reducible apply Upd.lit

theorem execLoadDone_ans {d : Nat} {p : Nat} (hU : Upd gr s₀ s) : Ans gr s₀ (execLoadDone d p s) := by
  unfold execLoadDone
  try dsimp only
  repeat' first
    | intro _
    | with_reducible assumption
    | with_reducible apply ok_ans
    | with_reducible apply ite_ans
    | with_reducible apply ite_upd
    | with_reducible apply wf_upd
    | with_reducible apply setLoad_upd
    | with_reducible apply wr_upd
    | with_reducible exact ok_ans (by assumption)
    | with_reducible apply raise_upd
    | with_reducible apply setPort_upd
    | split
    | with_reducible apply Upd.lit

end Sys2Proof.Laws
end

