-- ==== Sys2Proof/Laws/SypolUpd.lean ====
section
/-!
SUPPORT. What each operation of `Machine/Sypol.lean` keeps, and the groups of state it may change (`Upd`).
-/

set_option Elab.async false
set_option linter.unusedTactic false
set_option linter.unreachableTactic false
namespace Sys2Proof.Laws

open Sys2Proof.Machine

variable {gr : Grp} {s₀ s : State}

theorem setLink_upd {d : Nat} {p : Nat} {st : Nat} (hU : Upd gr s₀ s) : Upd gr s₀ (setLink s d p st) := by
  unfold setLink
  try dsimp only
  repeat' first
    | intro _
    | with_reducible assumption
    | with_reducible apply ite_upd
    | with_reducible apply streamFollow_upd
    | with_reducible apply linkStat_upd
    | with_reducible apply setPort_upd
    | with_reducible apply whenDo_upd
    | with_reducible apply raise_upd
    | with_reducible apply notice_upd
    | split
    | with_reducible apply Upd.lit

theorem frameEnd_upd {d : Nat} {p : Nat} {f : Frame} {good : Bool} (hE : gr.ecc = true) (hU : Upd gr s₀ s) : Upd gr s₀ (frameEnd s d p f good) := by
  unfold frameEnd
  try dsimp only
  repeat' first
    | intro _
    | with_reducible assumption
    | with_reducible apply ite_upd
    | with_reducible apply setPort_upd
    | with_reducible apply loadFail_upd
    | with_reducible apply setCycle_upd
    | with_reducible apply cycleOutcome_upd
    | split
    | with_reducible apply Upd.lit

theorem frameLost_upd {d : Nat} {p : Nat} {f : Frame} (hE : gr.ecc = true) (hU : Upd gr s₀ s) : Upd gr s₀ (frameLost s d p f) := by
  unfold frameLost
  try dsimp only
  repeat' first
    | intro _
    | with_reducible assumption
    | with_reducible apply ite_upd
    | with_reducible apply raise_upd
    | with_reducible apply count_upd
    | with_reducible apply frameEnd_upd
    | split

theorem unqueue_upd {d : Nat} {p : Nat} {f : Frame} (hU : Upd gr s₀ s) : Upd gr s₀ (unqueue s d p f) := by
  unfold unqueue
  try dsimp only
  repeat' first
    | intro _
    | with_reducible assumption
    | with_reducible apply ite_upd
    | with_reducible apply setPort_upd
    | split
    | with_reducible apply Upd.lit

theorem transmit_upd {d : Nat} {p : Nat} {inj : Nat} {f : Frame} (hU : Upd gr s₀ s) : Upd gr s₀ (transmit s d p inj f) := by
  unfold transmit
  try dsimp only
  repeat' first
    | intro _
    | with_reducible assumption
    | with_reducible apply ite_upd
    | with_reducible apply setPort_upd
    | with_reducible apply whenDo_upd
    | with_reducible apply count_upd
    | with_reducible apply setCycle_upd
    | with_reducible apply emit_upd
    | with_reducible apply linkStat_upd
    | split
    | with_reducible apply Upd.lit

theorem dropFrame_upd {d : Nat} {p : Nat} {f : Frame} (hU : Upd gr s₀ s) : Upd gr s₀ (dropFrame s d p f) := by
  unfold dropFrame
  try dsimp only
  repeat' first
    | intro _
    | with_reducible assumption
    | with_reducible apply ite_upd
    | with_reducible apply withRetry_upd
    | with_reducible apply setPort_upd
    | split
    | with_reducible apply Upd.lit

theorem abandonFrames_upd {d : Nat} {p : Nat} (hE : gr.ecc = true) (hU : Upd gr s₀ s) : Upd gr s₀ (abandonFrames s d p) := by
  unfold abandonFrames
  try dsimp only
  repeat' first
    | intro _
    | with_reducible assumption
    | with_reducible apply ite_upd
    | with_reducible apply linkStat_upd
    | with_reducible apply setPort_upd
    | with_reducible apply each_upd
    | with_reducible apply stallFollow_upd
    | with_reducible apply frameEnd_upd
    | split
    | with_reducible apply Upd.lit

theorem retrain_upd {d : Nat} {p : Nat} {cause : Nat} (hE : gr.ecc = true) (hU : Upd gr s₀ s) : Upd gr s₀ (retrain s d p cause) := by
  unfold retrain
  try dsimp only
  repeat' first
    | intro _
    | with_reducible assumption
    | with_reducible apply ite_upd
    | with_reducible apply setLink_upd
    | with_reducible apply count_upd
    | with_reducible apply abandonFrames_upd
    | with_reducible apply setPort_upd
    | split
    | with_reducible apply Upd.lit

theorem giveUp_upd {d : Nat} {p : Nat} {f : Frame} (hE : gr.ecc = true) (hU : Upd gr s₀ s) : Upd gr s₀ (giveUp s d p f) := by
  unfold giveUp
  try dsimp only
  repeat' first
    | intro _
    | with_reducible assumption
    | with_reducible apply ite_upd
    | with_reducible apply raise_upd
    | with_reducible apply count_upd
    | with_reducible apply dropFrame_upd
    | with_reducible apply setPort_upd
    | with_reducible apply frameLost_upd
    | with_reducible apply retrain_upd
    | split
    | with_reducible apply Upd.lit

theorem retransmit_upd {d : Nat} {p : Nat} {f : Frame} (hU : Upd gr s₀ s) : Upd gr s₀ (retransmit s d p f) := by
  unfold retransmit
  try dsimp only
  repeat' first
    | intro _
    | with_reducible assumption
    | with_reducible apply ite_upd
    | with_reducible apply raise_upd
    | with_reducible apply count_upd
    | with_reducible apply withRetry_upd
    | with_reducible apply setPort_upd
    | split
    | with_reducible apply Upd.lit

theorem sendOrLose_upd {d : Nat} {p : Nat} {inj : Nat} {f : Frame} (hE : gr.ecc = true) (hU : Upd gr s₀ s) : Upd gr s₀ (sendOrLose s d p inj f) := by
  unfold sendOrLose
  try dsimp only
  repeat' first
    | intro _
    | with_reducible assumption
    | with_reducible apply ite_upd
    | with_reducible apply transmit_upd
    | with_reducible apply frameLost_upd
    | with_reducible apply giveUp_upd
    | with_reducible apply queueFrame_upd
    | split

theorem stopNow_upd {d : Nat} {p : Nat} (hU : Upd gr s₀ s) : Upd gr s₀ (stopNow s d p) := by
  unfold stopNow
  try dsimp only
  repeat' first
    | intro _
    | with_reducible assumption
    | with_reducible apply ite_upd
    | with_reducible apply waitTick_upd
    | with_reducible apply setPort_upd
    | split
    | with_reducible apply Upd.lit

theorem sendNext_upd {d : Nat} {p : Nat} {f : Frame} (hE : gr.ecc = true) (hU : Upd gr s₀ s) : Upd gr s₀ (sendNext s d p f) := by
  unfold sendNext
  try dsimp only
  repeat' first
    | intro _
    | with_reducible assumption
    | with_reducible apply ite_upd
    | with_reducible apply injPick_upd
    | with_reducible apply setPort_upd
    | with_reducible apply sendOrLose_upd
    | (with_reducible refine pair_upd (by assumption) ?_)
    | split
    | with_reducible apply Upd.lit

theorem frameSend_upd {d : Nat} {p : Nat} (hE : gr.ecc = true) (hU : Upd gr s₀ s) : Upd gr s₀ (frameSend s d p) := by
  unfold frameSend
  try dsimp only
  repeat' first
    | intro _
    | with_reducible assumption
    | with_reducible apply ite_upd
    | with_reducible apply stopNow_upd
    | with_reducible apply waitClock_upd
    | with_reducible apply sendOrLose_upd
    | with_reducible apply setPort_upd
    | with_reducible apply sendNext_upd
    | with_reducible apply unqueue_upd
    | split
    | with_reducible apply Upd.lit

theorem execFrameSend_ans {d : Nat} {p : Nat} (hE : gr.ecc = true) (hU : Upd gr s₀ s) : Ans gr s₀ (execFrameSend d p s) := by
  unfold execFrameSend
  try dsimp only
  repeat' first
    | intro _
    | with_reducible assumption
    | with_reducible apply ok_ans
    | with_reducible apply ite_ans
    | with_reducible apply ite_upd
    | with_reducible exact ok_ans (by assumption)
    | with_reducible apply frameSend_upd
    | split

theorem upBad_upd {d : Nat} {p : Nat} (hU : Upd gr s₀ s) : Upd gr s₀ (upBad s d p) := by
  unfold upBad
  try dsimp only
  repeat' first
    | intro _
    | with_reducible assumption
    | with_reducible apply ite_upd
    | with_reducible apply raise_upd
    | with_reducible apply count_upd
    | split

theorem awaitEof_upd {f : Frame} (hU : Upd gr s₀ s) : Upd gr s₀ (awaitEof s f) := by
  unfold awaitEof
  try dsimp only
  repeat' first
    | intro _
    | with_reducible assumption
    | with_reducible apply ite_upd
    | with_reducible apply waitClock_upd
    | split

theorem ackTake_upd {d : Nat} {p : Nat} {w : Word} (hE : gr.ecc = true) (hU : Upd gr s₀ s) : Upd gr s₀ (ackTake s d p w) := by
  unfold ackTake
  try dsimp only
  repeat' first
    | intro _
    | with_reducible assumption
    | with_reducible apply ite_upd
    | with_reducible apply count_upd
    | with_reducible apply raise_upd
    | with_reducible apply dropFrame_upd
    | with_reducible apply frameEnd_upd
    | with_reducible apply logRecord_upd
    | with_reducible apply setPort_upd
    | split
    | with_reducible apply Upd.lit

theorem headFault_upd {d : Nat} {p : Nat} (hU : Upd gr s₀ s) : Upd gr s₀ (headFault s d p) := by
  unfold headFault
  try dsimp only
  repeat' first
    | intro _
    | with_reducible assumption
    | with_reducible apply ite_upd
    | with_reducible apply setDyn_upd
    | split

theorem flagFollow_upd {d : Nat} {p : Nat} (hU : Upd gr s₀ s) : Upd gr s₀ (flagFollow s d p) := by
  unfold flagFollow
  try dsimp only
  repeat' first
    | intro _
    | with_reducible assumption
    | with_reducible apply ite_upd
    | with_reducible apply wb_upd
    | with_reducible apply whenDo_upd
    | with_reducible apply setTherm_upd
    | split
    | with_reducible apply Upd.lit

theorem statusTake_upd {d : Nat} {p : Nat} {ws : List Word} (hU : Upd gr s₀ s) : Upd gr s₀ (statusTake s d p ws) := by
  unfold statusTake
  try dsimp only
  repeat' first
    | intro _
    | with_reducible assumption
    | with_reducible apply ite_upd
    | with_reducible apply wr_upd
    | with_reducible apply countBy_upd
    | with_reducible apply headFault_upd
    | with_reducible apply flagFollow_upd
    | with_reducible apply setPort_upd
    | split
    | with_reducible apply Upd.lit

theorem ackAwait_upd {d : Nat} {p : Nat} {w : Word} (hU : Upd gr s₀ s) : Upd gr s₀ (ackAwait s d p w) := by
  unfold ackAwait
  try dsimp only
  repeat' first
    | intro _
    | with_reducible assumption
    | with_reducible apply ite_upd
    | with_reducible apply awaitEof_upd
    | split
    | with_reducible apply Upd.lit

theorem upTake_upd {d : Nat} {p : Nat} {ws : List Word} (hE : gr.ecc = true) (hU : Upd gr s₀ s) : Upd gr s₀ (upTake s d p ws) := by
  unfold upTake
  try dsimp only
  repeat' first
    | intro _
    | with_reducible assumption
    | with_reducible apply ite_upd
    | with_reducible apply ackTake_upd
    | with_reducible apply ackAwait_upd
    | with_reducible apply statusTake_upd
    | split

theorem upFrame_upd {d : Nat} {p : Nat} {cs : List Chr} (hE : gr.ecc = true) (hU : Upd gr s₀ s) : Upd gr s₀ (upFrame s d p cs) := by
  unfold upFrame
  try dsimp only
  repeat' first
    | intro _
    | with_reducible assumption
    | with_reducible apply ite_upd
    | with_reducible apply upBad_upd
    | with_reducible apply injPick_upd
    | with_reducible apply setPort_upd
    | with_reducible apply each_upd
    | with_reducible apply upTake_upd
    | (with_reducible refine pair_upd (by assumption) ?_)
    | split
    | with_reducible apply Upd.lit

theorem execAckReceive_ans {d : Nat} {p : Nat} {cs : List Chr} (hE : gr.ecc = true) (hU : Upd gr s₀ s) : Ans gr s₀ (execAckReceive d p cs s) := by
  unfold execAckReceive
  try dsimp only
  repeat' first
    | intro _
    | with_reducible assumption
    | with_reducible apply ok_ans
    | with_reducible apply ite_ans
    | with_reducible apply ite_upd
    | with_reducible exact ok_ans (by assumption)
    | with_reducible apply upFrame_upd
    | split

theorem execStatusReceive_ans {d : Nat} {p : Nat} {cs : List Chr} (hE : gr.ecc = true) (hU : Upd gr s₀ s) : Ans gr s₀ (execStatusReceive d p cs s) := by
  unfold execStatusReceive
  try dsimp only
  repeat' first
    | intro _
    | with_reducible assumption
    | with_reducible apply ok_ans
    | with_reducible apply ite_ans
    | with_reducible apply ite_upd
    | with_reducible exact ok_ans (by assumption)
    | with_reducible apply upFrame_upd
    | split

theorem ackTimeout_upd {d : Nat} {p : Nat} {f : Frame} (hE : gr.ecc = true) (hU : Upd gr s₀ s) : Upd gr s₀ (ackTimeout s d p f) := by
  unfold ackTimeout
  try dsimp only
  repeat' first
    | intro _
    | with_reducible assumption
    | with_reducible apply ite_upd
    | with_reducible apply retransmit_upd
    | with_reducible apply giveUp_upd
    | with_reducible apply queueFrame_upd
    | split

theorem execAckTimeout_ans {d : Nat} {p : Nat} {q : Nat} (hE : gr.ecc = true) (hU : Upd gr s₀ s) : Ans gr s₀ (execAckTimeout d p q s) := by
  unfold execAckTimeout
  try dsimp only
  repeat' first
    | intro _
    | with_reducible assumption
    | with_reducible apply ok_ans
    | with_reducible apply ite_ans
    | with_reducible apply ite_upd
    | with_reducible exact ok_ans (by assumption)
    | with_reducible apply ackTimeout_upd
    | with_reducible apply waitClock_upd
    | split
    | with_reducible apply Upd.lit

theorem execStatusStale_ans {d : Nat} {p : Nat} (hU : Upd gr s₀ s) : Ans gr s₀ (execStatusStale d p s) := by
  unfold execStatusStale
  try dsimp only
  repeat' first
    | intro _
    | with_reducible assumption
    | with_reducible apply ok_ans
    | with_reducible apply ite_ans
    | with_reducible apply ite_upd
    | with_reducible exact ok_ans (by assumption)
    | with_reducible apply headFault_upd
    | with_reducible apply wb_upd
    | with_reducible apply waitClock_upd
    | split

theorem execUpstreamCodeErrors_ans {d : Nat} {p : Nat} (hE : gr.ecc = true) (hU : Upd gr s₀ s) : Ans gr s₀ (execUpstreamCodeErrors d p s) := by
  unfold execUpstreamCodeErrors
  try dsimp only
  repeat' first
    | intro _
    | with_reducible assumption
    | with_reducible apply ok_ans
    | with_reducible apply ite_ans
    | with_reducible apply ite_upd
    | with_reducible exact ok_ans (by assumption)
    | with_reducible apply retrain_upd
    | split

theorem linkFail_upd {d : Nat} {p : Nat} {code : Nat} (hU : Upd gr s₀ s) : Upd gr s₀ (linkFail s d p code) := by
  unfold linkFail
  try dsimp only
  repeat' first
    | intro _
    | with_reducible assumption
    | with_reducible apply ite_upd
    | with_reducible apply setLink_upd
    | with_reducible apply wf_upd
    | with_reducible apply raise_upd
    | with_reducible apply setPort_upd
    | split
    | with_reducible apply Upd.lit

theorem copyRecord_upd {d : Nat} {p : Nat} {l : List Byte} (hU : Upd gr s₀ s) : Upd gr s₀ (copyRecord s d p l) := by
  unfold copyRecord
  try dsimp only
  repeat' first
    | intro _
    | with_reducible assumption
    | with_reducible apply ite_upd
    | with_reducible apply wr_upd
    | with_reducible apply wr48_upd
    | split

theorem discover_upd {d : Nat} {p : Nat} {ans : Option (List Byte)} (hU : Upd gr s₀ s) : Upd gr s₀ (discover s d p ans) := by
  unfold discover
  try dsimp only
  repeat' first
    | intro _
    | with_reducible assumption
    | with_reducible apply ite_upd
    | with_reducible apply linkFail_upd
    | with_reducible apply copyRecord_upd
    | with_reducible apply setPort_upd
    | with_reducible apply emit_upd
    | with_reducible apply setLink_upd
    | split
    | with_reducible apply Upd.lit

theorem execLinkDiscovery_ans {d : Nat} {p : Nat} {ans : Option (List Byte)} (hU : Upd gr s₀ s) : Ans gr s₀ (execLinkDiscovery d p ans s) := by
  unfold execLinkDiscovery
  try dsimp only
  repeat' first
    | intro _
    | with_reducible assumption
    | with_reducible apply ok_ans
    | with_reducible apply ite_ans
    | with_reducible apply ite_upd
    | with_reducible exact ok_ans (by assumption)
    | with_reducible apply discover_upd
    | split

theorem execDiscoveryRepeat_ans {d : Nat} {p : Nat} (hU : Upd gr s₀ s) : Ans gr s₀ (execDiscoveryRepeat d p s) := by
  unfold execDiscoveryRepeat
  try dsimp only
  repeat' first
    | intro _
    | with_reducible assumption
    | with_reducible apply ok_ans
    | with_reducible apply ite_ans
    | with_reducible apply ite_upd
    | with_reducible exact ok_ans (by assumption)
    | with_reducible apply setLink_upd
    | with_reducible apply waitClock_upd
    | split

theorem portRunning_upd {d : Nat} {p : Nat} (hU : Upd gr s₀ s) : Upd gr s₀ (portRunning s d p) := by
  unfold portRunning
  try dsimp only
  repeat' first
    | intro _
    | with_reducible assumption
    | with_reducible apply ite_upd
    | with_reducible apply setPstate_upd
    | with_reducible apply setPort_upd
    | with_reducible apply streamFollow_upd
    | with_reducible apply htrFollow_upd
    | split
    | with_reducible apply Upd.lit

theorem trainSets_upd {d : Nat} {p : Nat} {n : Nat} (hU : Upd gr s₀ s) : Upd gr s₀ (trainSets s d p n) := by
  unfold trainSets
  try dsimp only
  repeat' first
    | intro _
    | with_reducible assumption
    | with_reducible apply ite_upd
    | with_reducible apply whenDo_upd
    | with_reducible apply emit_upd
    | split

theorem linkUp_upd {d : Nat} {p : Nat} (hU : Upd gr s₀ s) : Upd gr s₀ (linkUp s d p) := by
  unfold linkUp
  try dsimp only
  repeat' first
    | intro _
    | with_reducible assumption
    | with_reducible apply ite_upd
    | with_reducible apply trainSets_upd
    | with_reducible apply setLink_upd
    | with_reducible apply setPort_upd
    | with_reducible apply wb_upd
    | with_reducible apply portRunning_upd
    | split
    | with_reducible apply Upd.lit

theorem execLinkUp_ans {d : Nat} {p : Nat} (hU : Upd gr s₀ s) : Ans gr s₀ (execLinkUp d p s) := by
  unfold execLinkUp
  try dsimp only
  repeat' first
    | intro _
    | with_reducible assumption
    | with_reducible apply ok_ans
    | with_reducible apply ite_ans
    | with_reducible apply ite_upd
    | with_reducible exact ok_ans (by assumption)
    | with_reducible apply linkUp_upd
    | split

end Sys2Proof.Laws
end

