-- ==== Sys2Proof/Laws/EchoUpd.lean ====
section
/-!
SUPPORT. What each operation of `Machine/Echo.lean` keeps, and the groups of state it may change (`Upd`).
-/

set_option Elab.async false
set_option linter.unusedTactic false
set_option linter.unreachableTactic false
namespace Sys2Proof.Laws

open Sys2Proof.Machine

variable {gr : Grp} {s₀ s : State}

theorem readEntry_upd {d : Nat} {ptr : Nat} {i : Nat} (hE : gr.ecc = true) (hU : Upd gr s₀ s) : Upd gr s₀ (readEntry s d ptr i).2 := by
  unfold readEntry
  try dsimp only
  repeat' first
    | intro _
    | with_reducible assumption
    | with_reducible apply ite_upd
    | with_reducible apply readWords_upd
    | (with_reducible refine trip_upd (by assumption) ?_)
    | split

theorem writeEntry_upd {d : Nat} {k : Nat} {ptr : Nat} {i : Nat} {x : NozEntry} (hM : gr.mem = true) (hE : gr.ecc = true) (hU : Upd gr s₀ s) : Upd gr s₀ (writeEntry s d k ptr i x) := by
  unfold writeEntry
  try dsimp only
  repeat' first
    | intro _
    | with_reducible assumption
    | with_reducible apply ite_upd
    | with_reducible apply lodeWrites_upd
    | with_reducible apply setCtx_upd
    | split
    | with_reducible apply Upd.lit

theorem features_upd {h8 : Int} {base : List Nat} {win : List Nat} (hU : Upd gr s₀ s) : Upd gr s₀ (features s h8 base win).2 := by
  unfold features
  try dsimp only
  repeat' first
    | intro _
    | with_reducible assumption
    | with_reducible apply ite_upd
    | with_reducible apply nextFree_upd
    | split

theorem judge_upd {d : Nat} {m : Meas} {x : NozEntry} {base : List Nat} {win : List Nat} (hU : Upd gr s₀ s) : Upd gr s₀ (judge s d m x base win).2 := by
  unfold judge
  try dsimp only
  repeat' first
    | intro _
    | with_reducible assumption
    | with_reducible apply ite_upd
    | with_reducible apply features_upd
    | with_reducible apply nextFree_upd
    | (with_reducible refine pair_upd (by assumption) ?_)
    | split

theorem trimStep_upd {d : Nat} {k : Nat} {i : Nat} {x : NozEntry} {dist : Nat} (hU : Upd gr s₀ s) : Upd gr s₀ (trimStep s d k i x dist).2 := by
  unfold trimStep
  try dsimp only
  repeat' first
    | intro _
    | with_reducible assumption
    | with_reducible apply ite_upd
    | with_reducible apply raise_upd
    | with_reducible apply count_upd
    | with_reducible apply nozRecord_upd
    | split

theorem applyValid_upd {d : Nat} {k : Nat} {i : Nat} {x0 : NozEntry} {v : Verd} (hU : Upd gr s₀ s) : Upd gr s₀ (applyValid s d k i x0 v).2 := by
  unfold applyValid
  try dsimp only
  repeat' first
    | intro _
    | with_reducible assumption
    | with_reducible apply ite_upd
    | with_reducible apply raise_upd
    | with_reducible apply count_upd
    | with_reducible apply nozRecord_upd
    | with_reducible apply trimStep_upd
    | (with_reducible refine pair_upd (by assumption) ?_)
    | split

theorem resultRecord_upd {d : Nat} {m : Meas} {v : Verd} (hU : Upd gr s₀ s) : Upd gr s₀ (resultRecord s d m v) := by
  unfold resultRecord
  try dsimp only
  repeat' first
    | intro _
    | with_reducible assumption
    | with_reducible apply ite_upd
    | with_reducible apply setDie_upd
    | with_reducible apply chuteRecord_upd
    | exact ⟨rfl, fun h => h, fun h => h⟩
    | exact ⟨rfl, by simp, by simp⟩
    | split
    | with_reducible apply Upd.lit

theorem sweepResult_upd {d : Nat} {m : Meas} {v : Verd} (hM : gr.mem = true) (hE : gr.ecc = true) (hU : Upd gr s₀ s) : Upd gr s₀ (sweepResult s d m v) := by
  unfold sweepResult
  try dsimp only
  repeat' first
    | intro _
    | with_reducible assumption
    | with_reducible apply ite_upd
    | with_reducible apply setEcho_upd
    | with_reducible apply readEntry_upd
    | with_reducible apply sweepNext_upd
    | with_reducible apply writeEntry_upd
    | with_reducible apply nozRecord_upd
    | (with_reducible refine pair_upd (by assumption) ?_)
    | split
    | with_reducible apply Upd.lit

theorem echoApply_upd {d : Nat} {m : Meas} {base : List Nat} {win : List Nat} (hM : gr.mem = true) (hE : gr.ecc = true) (hU : Upd gr s₀ s) : Upd gr s₀ (echoApply s d m base win) := by
  unfold echoApply
  try dsimp only
  repeat' first
    | intro _
    | with_reducible assumption
    | with_reducible apply ite_upd
    | with_reducible apply readEntry_upd
    | with_reducible apply judge_upd
    | with_reducible apply count_upd
    | with_reducible apply raise_upd
    | with_reducible apply resultRecord_upd
    | with_reducible apply sweepResult_upd
    | with_reducible apply writeEntry_upd
    | with_reducible apply applyValid_upd
    | (with_reducible refine pair_upd (by assumption) ?_)
    | split
    | with_reducible apply Upd.lit

theorem execEchoResult_ans {d : Nat} {base : List Nat} {win : List Nat} (hM : gr.mem = true) (hE : gr.ecc = true) (hU : Upd gr s₀ s) : Ans gr s₀ (execEchoResult d base win s) := by
  unfold execEchoResult
  try dsimp only
  repeat' first
    | intro _
    | with_reducible assumption
    | with_reducible apply ok_ans
    | with_reducible apply ite_ans
    | with_reducible apply ite_upd
    | with_reducible exact ok_ans (by assumption)
    | with_reducible apply echoApply_upd
    | with_reducible apply setEcho_upd
    | split
    | with_reducible apply Upd.lit

theorem sweepStart_upd {r : Req} {d : Nat} (hU : Upd gr s₀ s) : Upd gr s₀ (sweepStart r d s) := by
  unfold sweepStart
  try dsimp only
  repeat' first
    | intro _
    | with_reducible assumption
    | with_reducible apply ite_upd
    | with_reducible apply wr_upd
    | with_reducible apply logErr_upd
    | with_reducible apply setEcho_upd
    | split
    | with_reducible apply Upd.lit

theorem sweepAbort_upd {d : Nat} (hU : Upd gr s₀ s) : Upd gr s₀ (sweepAbort d s) := by
  unfold sweepAbort
  try dsimp only
  repeat' first
    | intro _
    | with_reducible assumption
    | with_reducible apply ite_upd
    | with_reducible apply sweepEnd_upd
    | split

theorem execSweepStart_ans {r : Req} {d : Nat} (hU : Upd gr s₀ s) : Ans gr s₀ (execSweepStart r d s) := by
  unfold execSweepStart
  try dsimp only
  repeat' first
    | intro _
    | with_reducible assumption
    | with_reducible apply ok_ans
    | with_reducible apply ite_ans
    | with_reducible apply ite_upd
    | with_reducible exact ok_ans (by assumption)
    | with_reducible apply guardedWrite_upd
    | with_reducible apply sweepStart_upd
    | split

theorem execSweepAbort_ans {r : Req} {d : Nat} (hU : Upd gr s₀ s) : Ans gr s₀ (execSweepAbort r d s) := by
  unfold execSweepAbort
  try dsimp only
  repeat' first
    | intro _
    | with_reducible assumption
    | with_reducible apply ok_ans
    | with_reducible apply ite_ans
    | with_reducible apply ite_upd
    | with_reducible exact ok_ans (by assumption)
    | with_reducible apply guardedWrite_upd
    | with_reducible apply sweepAbort_upd
    | split

theorem nzResult_upd {d : Nat} {op : Nat} {res : Nat} (hU : Upd gr s₀ s) : Upd gr s₀ (nzResult s d op res) := by
  unfold nzResult
  try dsimp only
  repeat' first
    | intro _
    | with_reducible assumption
    | with_reducible apply ite_upd
    | with_reducible apply wr_upd
    | with_reducible apply raise_upd
    | split

theorem nzCmd_upd {d : Nat} {op : Nat} {arg : Nat} (hM : gr.mem = true) (hE : gr.ecc = true) (hU : Upd gr s₀ s) : Upd gr s₀ (nzCmd d op arg s) := by
  unfold nzCmd
  try dsimp only
  repeat' first
    | intro _
    | with_reducible assumption
    | with_reducible apply ite_upd
    | with_reducible apply nzResult_upd
    | with_reducible apply readEntry_upd
    | with_reducible apply writeEntry_upd
    | with_reducible apply nozRecord_upd
    | (with_reducible refine pair_upd (by assumption) ?_)
    | split
    | with_reducible apply Upd.lit

theorem execSetState_ans {r : Req} {d : Nat} {arg : Nat} (hM : gr.mem = true) (hE : gr.ecc = true) (hU : Upd gr s₀ s) : Ans gr s₀ (execSetState r d arg s) := by
  unfold execSetState
  try dsimp only
  repeat' first
    | intro _
    | with_reducible assumption
    | with_reducible apply ok_ans
    | with_reducible apply ite_ans
    | with_reducible apply ite_upd
    | with_reducible exact ok_ans (by assumption)
    | with_reducible apply guardedWrite_upd
    | with_reducible apply nzCmd_upd
    | split

theorem execSetTrim_ans {r : Req} {d : Nat} {arg : Nat} (hM : gr.mem = true) (hE : gr.ecc = true) (hU : Upd gr s₀ s) : Ans gr s₀ (execSetTrim r d arg s) := by
  unfold execSetTrim
  try dsimp only
  repeat' first
    | intro _
    | with_reducible assumption
    | with_reducible apply ok_ans
    | with_reducible apply ite_ans
    | with_reducible apply ite_upd
    | with_reducible exact ok_ans (by assumption)
    | with_reducible apply guardedWrite_upd
    | with_reducible apply nzCmd_upd
    | split

theorem execClearHist_ans {r : Req} {d : Nat} (hM : gr.mem = true) (hE : gr.ecc = true) (hU : Upd gr s₀ s) : Ans gr s₀ (execClearHist r d s) := by
  unfold execClearHist
  try dsimp only
  repeat' first
    | intro _
    | with_reducible assumption
    | with_reducible apply ok_ans
    | with_reducible apply ite_ans
    | with_reducible apply ite_upd
    | with_reducible exact ok_ans (by assumption)
    | with_reducible apply guardedWrite_upd
    | with_reducible apply nzCmd_upd
    | split

theorem execRefInvalid_ans {r : Req} {d : Nat} (hM : gr.mem = true) (hE : gr.ecc = true) (hU : Upd gr s₀ s) : Ans gr s₀ (execRefInvalid r d s) := by
  unfold execRefInvalid
  try dsimp only
  repeat' first
    | intro _
    | with_reducible assumption
    | with_reducible apply ok_ans
    | with_reducible apply ite_ans
    | with_reducible apply ite_upd
    | with_reducible exact ok_ans (by assumption)
    | with_reducible apply guardedWrite_upd
    | with_reducible apply nzCmd_upd
    | split

theorem execRefValid_ans {r : Req} {d : Nat} (hM : gr.mem = true) (hE : gr.ecc = true) (hU : Upd gr s₀ s) : Ans gr s₀ (execRefValid r d s) := by
  unfold execRefValid
  try dsimp only
  repeat' first
    | intro _
    | with_reducible assumption
    | with_reducible apply ok_ans
    | with_reducible apply ite_ans
    | with_reducible apply ite_upd
    | with_reducible exact ok_ans (by assumption)
    | with_reducible apply guardedWrite_upd
    | with_reducible apply nzCmd_upd
    | split

theorem execLockTrim_ans {r : Req} {d : Nat} {arg : Nat} (hM : gr.mem = true) (hE : gr.ecc = true) (hU : Upd gr s₀ s) : Ans gr s₀ (execLockTrim r d arg s) := by
  unfold execLockTrim
  try dsimp only
  repeat' first
    | intro _
    | with_reducible assumption
    | with_reducible apply ok_ans
    | with_reducible apply ite_ans
    | with_reducible apply ite_upd
    | with_reducible exact ok_ans (by assumption)
    | with_reducible apply guardedWrite_upd
    | with_reducible apply nzCmd_upd
    | split

theorem mapLoad_upd {x0 : Nat} {x2 : Nat} {x3 : Nat} {x4 : Nat} {x5 : Tbl Nat NzMap} (hE : gr.ecc = true) (hU : Upd gr s₀ s) : Upd gr s₀ (mapLoad x0 s x2 x3 x4 x5) := by
  induction x0 generalizing s x2 x3 x4 x5 with
  | zero => exact setCtx_upd hU
  | succ n ih =>
    unfold mapLoad
    try dsimp only
    repeat' first
      | intro _
      | with_reducible assumption
      | with_reducible apply ih
      | with_reducible apply ite_upd
      | with_reducible apply setCtx_upd
      | with_reducible apply ctxRead_upd
      | (with_reducible refine trip_upd (by assumption) ?_)
      | split
      | with_reducible apply Upd.lit

theorem execNozzleMapLoadDone_ans {d : Nat} {k : Nat} (hE : gr.ecc = true) (hU : Upd gr s₀ s) : Ans gr s₀ (execNozzleMapLoadDone d k s) := by
  unfold execNozzleMapLoadDone
  try dsimp only
  repeat' first
    | intro _
    | with_reducible assumption
    | with_reducible apply ok_ans
    | with_reducible apply ite_ans
    | with_reducible apply ite_upd
    | with_reducible exact ok_ans (by assumption)
    | with_reducible apply mapLoad_upd
    | split

end Sys2Proof.Laws
end

