-- ==== Sys2Proof/Laws/ThermalUpd.lean ====
section
/-!
SUPPORT. What each operation of `Machine/Thermal.lean` keeps, and the groups of state it may change (`Upd`).
-/

set_option Elab.async false
set_option linter.unusedTactic false
set_option linter.unreachableTactic false
namespace Sys2Proof.Laws

open Sys2Proof.Machine

variable {gr : Grp} {s₀ s : State}

theorem thStat_upd {d : Nat} (hU : Upd gr s₀ s) : Upd gr s₀ (thStat s d) := by
  unfold thStat
  try dsimp only
  repeat' first
    | intro _
    | with_reducible assumption
    | with_reducible apply ite_upd
    | with_reducible apply wb_upd
    | with_reducible apply wf_upd
    | with_reducible apply each_upd
    | split
    | with_reducible apply Upd.lit

theorem throtFollow_upd (hU : Upd gr s₀ s) : Upd gr s₀ (throtFollow s) := by
  unfold throtFollow
  try dsimp only
  repeat' first
    | intro _
    | with_reducible assumption
    | with_reducible apply ite_upd
    | split
    | with_reducible apply Upd.lit

theorem setScope_upd {d : Nat} {o : Option Nat} {x : ScopeSt} (hU : Upd gr s₀ s) : Upd gr s₀ (setScope s d o x) := by
  unfold setScope
  try dsimp only
  repeat' first
    | intro _
    | with_reducible assumption
    | with_reducible apply ite_upd
    | with_reducible apply throtFollow_upd
    | with_reducible apply thStat_upd
    | with_reducible apply setTherm_upd
    | split
    | with_reducible apply Upd.lit

theorem thRecord_upd {d : Nat} {type : Nat} {which : Nat} {isDie : Bool} {bits : Nat} {temp : Int} {w2 : Word} {w3 : Word} (hU : Upd gr s₀ s) : Upd gr s₀ (thRecord s d type which isDie bits temp w2 w3) := by
  unfold thRecord
  try dsimp only
  repeat' first
    | intro _
    | with_reducible assumption
    | with_reducible apply ite_upd
    | with_reducible apply setDie_upd
    | with_reducible apply chuteRecord_upd
    | exact ⟨rfl, fun h => h, fun h => h⟩
    | exact ⟨rfl, by simp, by simp⟩
    | split
    | with_reducible apply Upd.lit

theorem scopeRecord_upd {d : Nat} {type : Nat} {o : Option Nat} {bits : Nat} (hU : Upd gr s₀ s) : Upd gr s₀ (scopeRecord s d type o bits) := by
  unfold scopeRecord
  try dsimp only
  repeat' first
    | intro _
    | with_reducible assumption
    | with_reducible apply ite_upd
    | with_reducible apply thRecord_upd
    | split

theorem execHeaterUpdate_ans {d : Nat} {p : Nat} (hU : Upd gr s₀ s) : Ans gr s₀ (execHeaterUpdate d p s) := by
  unfold execHeaterUpdate
  try dsimp only
  repeat' first
    | intro _
    | with_reducible assumption
    | with_reducible apply ok_ans
    | with_reducible apply ite_ans
    | with_reducible apply ite_upd
    | with_reducible exact ok_ans (by assumption)
    | with_reducible apply waitClock_upd
    | with_reducible apply htrFollow_upd
    | with_reducible apply setPort_upd
    | split
    | with_reducible apply Upd.lit

theorem thermAct_upd {d : Nat} {k : Nat} (hU : Upd gr s₀ s) : Upd gr s₀ (thermAct s d k) := by
  unfold thermAct
  try dsimp only
  repeat' first
    | intro _
    | with_reducible assumption
    | with_reducible apply ite_upd
    | with_reducible apply ctxEvt_upd
    | with_reducible apply setCtx_upd
    | with_reducible apply ctxRecord_upd
    | with_reducible apply ctxFence_upd
    | split
    | with_reducible apply Upd.lit

theorem thermUnact_upd {d : Nat} (hU : Upd gr s₀ s) : Upd gr s₀ (thermUnact s d) := by
  unfold thermUnact
  try dsimp only
  repeat' first
    | intro _
    | with_reducible assumption
    | with_reducible apply ite_upd
    | with_reducible apply each_upd
    | with_reducible apply setCtx_upd
    | split
    | with_reducible apply Upd.lit

theorem thermArm_upd {d : Nat} {k : Nat} (hU : Upd gr s₀ s) : Upd gr s₀ (thermArm s d k) := by
  unfold thermArm
  try dsimp only
  repeat' first
    | intro _
    | with_reducible assumption
    | with_reducible apply ite_upd
    | with_reducible apply thermAct_upd
    | split

theorem warn_upd {d : Nat} {o : Option Nat} (hU : Upd gr s₀ s) : Upd gr s₀ (warn s d o) := by
  unfold warn
  try dsimp only
  repeat' first
    | intro _
    | with_reducible assumption
    | with_reducible apply ite_upd
    | with_reducible apply setScope_upd
    | with_reducible apply raise_upd
    | with_reducible apply wr_upd
    | with_reducible apply htrFollow_upd
    | with_reducible apply scopeRecord_upd
    | with_reducible apply count_upd
    | split
    | with_reducible apply Upd.lit

theorem scopeUpdate_upd {d : Nat} {o : Option Nat} (hU : Upd gr s₀ s) : Upd gr s₀ (scopeUpdate s d o) := by
  unfold scopeUpdate
  try dsimp only
  repeat' first
    | intro _
    | with_reducible assumption
    | with_reducible apply ite_upd
    | with_reducible apply warn_upd
    | with_reducible apply setScope_upd
    | split
    | with_reducible apply Upd.lit

theorem sensorFault_upd {d : Nat} {which : Nat} {isDie : Bool} {t : Int} (hU : Upd gr s₀ s) : Upd gr s₀ (sensorFault s d which isDie t) := by
  unfold sensorFault
  try dsimp only
  repeat' first
    | intro _
    | with_reducible assumption
    | with_reducible apply ite_upd
    | with_reducible apply thRecord_upd
    | with_reducible apply raise_upd
    | split

theorem islReading_upd {d : Nat} {i : Nat} {t : Int} (hU : Upd gr s₀ s) : Upd gr s₀ (islReading s d i t) := by
  unfold islReading
  try dsimp only
  repeat' first
    | intro _
    | with_reducible assumption
    | with_reducible apply ite_upd
    | with_reducible apply wb_upd
    | with_reducible apply sensorFault_upd
    | with_reducible apply setTherm_upd
    | with_reducible apply wr_upd
    | split
    | with_reducible apply Upd.lit

theorem dieTemp_upd {d : Nat} (hU : Upd gr s₀ s) : Upd gr s₀ (dieTemp s d) := by
  unfold dieTemp
  try dsimp only
  repeat' first
    | intro _
    | with_reducible assumption
    | with_reducible apply ite_upd
    | with_reducible apply wr_upd
    | split
    | with_reducible apply Upd.lit

theorem publishHead_upd {d : Nat} {p : Nat} (hU : Upd gr s₀ s) : Upd gr s₀ (publishHead s d p) := by
  unfold publishHead
  try dsimp only
  repeat' first
    | intro _
    | with_reducible assumption
    | with_reducible apply ite_upd
    | with_reducible apply wb_upd
    | with_reducible apply wf_upd
    | with_reducible apply wr_upd
    | with_reducible apply setPort_upd
    | split
    | with_reducible apply Upd.lit

theorem lampTemp_upd {d : Nat} (hU : Upd gr s₀ s) : Upd gr s₀ (lampTemp s d) := by
  unfold lampTemp
  try dsimp only
  repeat' first
    | intro _
    | with_reducible assumption
    | with_reducible apply ite_upd
    | with_reducible apply setLamp_upd
    | split
    | with_reducible apply Upd.lit

theorem tempUpdate_upd {d : Nat} {isl : List Int} {power : Nat} (hU : Upd gr s₀ s) : Upd gr s₀ (tempUpdate s d isl power) := by
  unfold tempUpdate
  try dsimp only
  repeat' first
    | intro _
    | with_reducible assumption
    | with_reducible apply ite_upd
    | with_reducible apply setTherm_upd
    | with_reducible apply dieTemp_upd
    | with_reducible apply each_upd
    | with_reducible apply islReading_upd
    | with_reducible apply wr_upd
    | with_reducible apply publishHead_upd
    | with_reducible apply scopeUpdate_upd
    | with_reducible apply thStat_upd
    | with_reducible apply htrFollow_upd
    | with_reducible apply lampTemp_upd
    | with_reducible apply asTempUpdate_upd
    | split
    | with_reducible apply Upd.lit

theorem execTempUpdate_ans {d : Nat} {isl : List Int} {power : Nat} (hU : Upd gr s₀ s) : Ans gr s₀ (execTempUpdate d isl power s) := by
  unfold execTempUpdate
  try dsimp only
  repeat' first
    | intro _
    | with_reducible assumption
    | with_reducible apply ok_ans
    | with_reducible apply ite_ans
    | with_reducible apply ite_upd
    | with_reducible exact ok_ans (by assumption)
    | with_reducible apply waitClock_upd
    | with_reducible apply tempUpdate_upd
    | split
    | with_reducible apply Upd.lit

theorem betaTemp_upd {d : Nat} {p : Nat} {ohm : Nat} (hU : Upd gr s₀ s) : Upd gr s₀ (betaTemp s d p ohm).2 := by
  unfold betaTemp
  try dsimp only
  repeat' first
    | intro _
    | with_reducible assumption
    | with_reducible apply ite_upd
    | with_reducible apply nextFree_upd
    | split

theorem thermistor_upd {d : Nat} {p : Nat} {ohm : Nat} (hU : Upd gr s₀ s) : Upd gr s₀ (thermistor s d p ohm) := by
  unfold thermistor
  try dsimp only
  repeat' first
    | intro _
    | with_reducible assumption
    | with_reducible apply ite_upd
    | with_reducible apply setTherm_upd
    | with_reducible apply wb_upd
    | with_reducible apply wf_upd
    | with_reducible apply htrFollow_upd
    | with_reducible apply whenDo_upd
    | with_reducible apply sensorFault_upd
    | with_reducible apply betaTemp_upd
    | (with_reducible refine pair_upd (by assumption) ?_)
    | split
    | with_reducible apply Upd.lit

theorem execThermistorSample_ans {d : Nat} {p : Nat} {ohm : Nat} (hU : Upd gr s₀ s) : Ans gr s₀ (execThermistorSample d p ohm s) := by
  unfold execThermistorSample
  try dsimp only
  repeat' first
    | intro _
    | with_reducible assumption
    | with_reducible apply ok_ans
    | with_reducible apply ite_ans
    | with_reducible apply ite_upd
    | with_reducible exact ok_ans (by assumption)
    | with_reducible apply thermistor_upd
    | split

theorem thermOff_upd {d : Nat} {p : Nat} (hU : Upd gr s₀ s) : Upd gr s₀ (thermOff s d p) := by
  unfold thermOff
  try dsimp only
  repeat' first
    | intro _
    | with_reducible assumption
    | with_reducible apply ite_upd
    | with_reducible apply setTherm_upd
    | with_reducible apply htrFollow_upd
    | with_reducible apply wb_upd
    | split
    | with_reducible apply Upd.lit

theorem throttleNote_upd {d : Nat} {o : Option Nat} {on : Bool} (hU : Upd gr s₀ s) : Upd gr s₀ (throttleNote s d o on) := by
  unfold throttleNote
  try dsimp only
  repeat' first
    | intro _
    | with_reducible assumption
    | with_reducible apply ite_upd
    | with_reducible apply notice_upd
    | split

theorem enforceCtxs_upd {d : Nat} {o : Option Nat} {bits : Nat} (hU : Upd gr s₀ s) : Upd gr s₀ (enforceCtxs s d o bits) := by
  unfold enforceCtxs
  try dsimp only
  repeat' first
    | intro _
    | with_reducible assumption
    | with_reducible apply ite_upd
    | with_reducible apply setScope_upd
    | with_reducible apply each_upd
    | with_reducible apply thermAct_upd
    | with_reducible apply raise_upd
    | with_reducible apply count_upd
    | with_reducible apply throttleNote_upd
    | with_reducible apply scopeRecord_upd
    | split
    | with_reducible apply Upd.lit

theorem echoStep_upd {d : Nat} {off : Bool} (hU : Upd gr s₀ s) : Upd gr s₀ (echoStep s d off) := by
  unfold echoStep
  try dsimp only
  repeat' first
    | intro _
    | with_reducible assumption
    | with_reducible apply ite_upd
    | with_reducible apply wb_upd
    | with_reducible apply wf_upd
    | with_reducible apply setScope_upd
    | with_reducible apply throttleNote_upd
    | with_reducible apply scopeRecord_upd
    | with_reducible apply raise_upd
    | split
    | with_reducible apply Upd.lit

theorem graceExpiry_upd {d : Nat} {o : Option Nat} (hU : Upd gr s₀ s) : Upd gr s₀ (graceExpiry s d o) := by
  unfold graceExpiry
  try dsimp only
  repeat' first
    | intro _
    | with_reducible assumption
    | with_reducible apply ite_upd
    | with_reducible apply setScope_upd
    | with_reducible apply enforceCtxs_upd
    | with_reducible apply echoStep_upd
    | split
    | with_reducible apply Upd.lit

theorem execGraceExpiry_ans {d : Nat} {o : Option Nat} (hU : Upd gr s₀ s) : Ans gr s₀ (execGraceExpiry d o s) := by
  unfold execGraceExpiry
  try dsimp only
  repeat' first
    | intro _
    | with_reducible assumption
    | with_reducible apply ok_ans
    | with_reducible apply ite_ans
    | with_reducible apply ite_upd
    | with_reducible exact ok_ans (by assumption)
    | with_reducible apply graceExpiry_upd
    | with_reducible apply waitClock_upd
    | split
    | with_reducible apply Upd.lit

theorem scopeClear_upd {d : Nat} {o : Option Nat} (hU : Upd gr s₀ s) : Upd gr s₀ (scopeClear s d o) := by
  unfold scopeClear
  try dsimp only
  repeat' first
    | intro _
    | with_reducible assumption
    | with_reducible apply ite_upd
    | with_reducible apply whenDo_upd
    | with_reducible apply throttleNote_upd
    | with_reducible apply raise_upd
    | with_reducible apply scopeRecord_upd
    | with_reducible apply thermUnact_upd
    | with_reducible apply setScope_upd
    | with_reducible apply wb_upd
    | with_reducible apply wf_upd
    | with_reducible apply htrFollow_upd
    | split
    | with_reducible apply Upd.lit

theorem execWarnClear_ans {d : Nat} {o : Option Nat} (hU : Upd gr s₀ s) : Ans gr s₀ (execWarnClear d o s) := by
  unfold execWarnClear
  try dsimp only
  repeat' first
    | intro _
    | with_reducible assumption
    | with_reducible apply ok_ans
    | with_reducible apply ite_ans
    | with_reducible apply ite_upd
    | with_reducible exact ok_ans (by assumption)
    | with_reducible apply scopeClear_upd
    | with_reducible apply waitClock_upd
    | split
    | with_reducible apply Upd.lit

end Sys2Proof.Laws
end

