-- ==== Sys2Proof/Laws/LampUpd.lean ====
section
/-!
SUPPORT. What each operation of `Machine/Lamp.lean` keeps, and the groups of state it may change (`Upd`).
-/

set_option Elab.async false
set_option linter.unusedTactic false
set_option linter.unreachableTactic false
namespace Sys2Proof.Laws

open Sys2Proof.Machine

variable {gr : Grp} {s₀ s : State}

theorem setIsland_upd {d : Nat} {i : Nat} {x : IslandSt} (hU : Upd gr s₀ s) : Upd gr s₀ (setIsland s d i x) := by
  unfold setIsland
  try dsimp only
  repeat' first
    | intro _
    | with_reducible assumption
    | with_reducible apply ite_upd
    | with_reducible apply setLamp_upd
    | split
    | with_reducible apply Upd.lit

theorem lampWorst_upd {d : Nat} (hU : Upd gr s₀ s) : Upd gr s₀ (lampWorst s d) := by
  unfold lampWorst
  try dsimp only
  repeat' first
    | intro _
    | with_reducible assumption
    | with_reducible apply ite_upd
    | with_reducible apply wr_upd
    | split

theorem lampStart_upd {d : Nat} (hU : Upd gr s₀ s) : Upd gr s₀ (lampStart s d) := by
  unfold lampStart
  try dsimp only
  repeat' first
    | intro _
    | with_reducible assumption
    | with_reducible apply ite_upd
    | with_reducible apply setLamp_upd
    | split
    | with_reducible apply Upd.lit

theorem execLampMeasure_ans {d : Nat} (hU : Upd gr s₀ s) : Ans gr s₀ (execLampMeasure d s) := by
  unfold execLampMeasure
  try dsimp only
  repeat' first
    | intro _
    | with_reducible assumption
    | with_reducible apply ok_ans
    | with_reducible apply ite_ans
    | with_reducible apply ite_upd
    | with_reducible exact ok_ans (by assumption)
    | with_reducible apply lampStart_upd
    | with_reducible apply setLamp_upd
    | split
    | with_reducible apply Upd.lit

theorem execLampMeasureCmd_ans {r : Req} {d : Nat} (hU : Upd gr s₀ s) : Ans gr s₀ (execLampMeasureCmd r d s) := by
  unfold execLampMeasureCmd
  try dsimp only
  repeat' first
    | intro _
    | with_reducible assumption
    | with_reducible apply ok_ans
    | with_reducible apply ite_ans
    | with_reducible apply ite_upd
    | with_reducible exact ok_ans (by assumption)
    | with_reducible apply guardedWrite_upd
    | with_reducible apply lampStart_upd
    | split

theorem ageQueue_upd {d : Nat} {i : Nat} (hU : Upd gr s₀ s) : Upd gr s₀ (ageQueue s d i) := by
  unfold ageQueue
  try dsimp only
  repeat' first
    | intro _
    | with_reducible assumption
    | with_reducible apply ite_upd
    | with_reducible apply each_upd
    | with_reducible apply setIsland_upd
    | with_reducible apply asQueue_upd
    | split
    | with_reducible apply Upd.lit

theorem replan_upd {d : Nat} {i : Nat} (hU : Upd gr s₀ s) : Upd gr s₀ (replan s d i) := by
  unfold replan
  try dsimp only
  repeat' first
    | intro _
    | with_reducible assumption
    | with_reducible apply ite_upd
    | with_reducible apply raise_upd
    | with_reducible apply ageQueue_upd
    | with_reducible apply setIsland_upd
    | with_reducible apply setLamp_upd
    | with_reducible apply thRecord_upd
    | with_reducible apply notice_upd
    | with_reducible apply count_upd
    | split
    | with_reducible apply Upd.lit

theorem lampIsland_upd {d : Nat} {i : Nat} {ns : Nat} {np : Nat} (hU : Upd gr s₀ s) : Upd gr s₀ (lampIsland s d i ns np) := by
  unfold lampIsland
  try dsimp only
  repeat' first
    | intro _
    | with_reducible assumption
    | with_reducible apply ite_upd
    | with_reducible apply nextFree_upd
    | with_reducible apply setIsland_upd
    | with_reducible apply replan_upd
    | with_reducible apply whenDo_upd
    | with_reducible apply raise_upd
    | split
    | with_reducible apply Upd.lit

theorem execMeasured_ans {d : Nat} {cnt : List (Nat × Nat)} (hU : Upd gr s₀ s) : Ans gr s₀ (execMeasured d cnt s) := by
  unfold execMeasured
  try dsimp only
  repeat' first
    | intro _
    | with_reducible assumption
    | with_reducible apply ok_ans
    | with_reducible apply ite_ans
    | with_reducible apply ite_upd
    | with_reducible exact ok_ans (by assumption)
    | with_reducible apply waitClock_upd
    | with_reducible apply raise_upd
    | with_reducible apply setLamp_upd
    | with_reducible apply lampWorst_upd
    | with_reducible apply each_upd
    | with_reducible apply lampIsland_upd
    | split
    | with_reducible apply Upd.lit

theorem execCalintExpiry_ans {d : Nat} {i : Nat} (hU : Upd gr s₀ s) : Ans gr s₀ (execCalintExpiry d i s) := by
  unfold execCalintExpiry
  try dsimp only
  repeat' first
    | intro _
    | with_reducible assumption
    | with_reducible apply ok_ans
    | with_reducible apply ite_ans
    | with_reducible apply ite_upd
    | with_reducible exact ok_ans (by assumption)
    | with_reducible apply ageQueue_upd
    | split

theorem histWrite_upd {d : Nat} (hE : gr.ecc = true) (hR : gr.ret = true) (hU : Upd gr s₀ s) : Upd gr s₀ (histWrite s d) := by
  unfold histWrite
  try dsimp only
  repeat' first
    | intro _
    | with_reducible assumption
    | with_reducible apply ite_upd
    | with_reducible apply nextFree_upd
    | with_reducible apply retWrites_upd
    | with_reducible apply setLamp_upd
    | with_reducible apply raise_upd
    | with_reducible apply wr_upd
    | split
    | with_reducible apply Upd.lit

theorem execHistWritten_ans {d : Nat} (hE : gr.ecc = true) (hR : gr.ret = true) (hU : Upd gr s₀ s) : Ans gr s₀ (execHistWritten d s) := by
  unfold execHistWritten
  try dsimp only
  repeat' first
    | intro _
    | with_reducible assumption
    | with_reducible apply ok_ans
    | with_reducible apply ite_ans
    | with_reducible apply ite_upd
    | with_reducible exact ok_ans (by assumption)
    | with_reducible apply histWrite_upd
    | split

theorem histClear_upd {d : Nat} (hE : gr.ecc = true) (hR : gr.ret = true) (hU : Upd gr s₀ s) : Upd gr s₀ (histClear d s) := by
  unfold histClear
  try dsimp only
  repeat' first
    | intro _
    | with_reducible assumption
    | with_reducible apply ite_upd
    | with_reducible apply retWrites_upd
    | with_reducible apply wr_upd
    | split

theorem execHistClear_ans {r : Req} {d : Nat} (hE : gr.ecc = true) (hR : gr.ret = true) (hU : Upd gr s₀ s) : Ans gr s₀ (execHistClear r d s) := by
  unfold execHistClear
  try dsimp only
  repeat' first
    | intro _
    | with_reducible assumption
    | with_reducible apply ok_ans
    | with_reducible apply ite_ans
    | with_reducible apply ite_upd
    | with_reducible exact ok_ans (by assumption)
    | with_reducible apply guardedWrite_upd
    | with_reducible apply histClear_upd
    | split

theorem lampSecond_upd {d : Nat} (hU : Upd gr s₀ s) : Upd gr s₀ (lampSecond s d) := by
  unfold lampSecond
  try dsimp only
  repeat' first
    | intro _
    | with_reducible assumption
    | with_reducible apply ite_upd
    | with_reducible apply setLamp_upd
    | split
    | with_reducible apply Upd.lit

end Sys2Proof.Laws
end

