-- ==== Sys2Proof/Laws/FenceUpd.lean ====
section
/-!
SUPPORT. What each operation of `Machine/Fence.lean` keeps, and the groups of state it may change (`Upd`).
-/

set_option Elab.async false
set_option linter.unusedTactic false
set_option linter.unreachableTactic false
namespace Sys2Proof.Laws

open Sys2Proof.Machine

variable {gr : Grp} {s₀ s : State}

theorem nullFrames_upd {d : Nat} {p : Nat} (hU : Upd gr s₀ s) : Upd gr s₀ (nullFrames s d p) := by
  unfold nullFrames
  try dsimp only
  repeat' first
    | intro _
    | with_reducible assumption
    | with_reducible apply ite_upd
    | with_reducible apply setPort_upd
    | split
    | with_reducible apply Upd.lit

theorem rampDown_upd {d : Nat} {p : Nat} {x : PortSt} (hU : Upd gr s₀ s) : Upd gr s₀ (rampDown s d p x) := by
  unfold rampDown
  try dsimp only
  repeat' first
    | intro _
    | with_reducible assumption
    | with_reducible apply ite_upd
    | split
    | with_reducible apply Upd.lit
    | with_reducible apply Upd.litOut
    | exact List.prefix_append _ _
    | (rw [List.append_assoc]; exact List.prefix_append _ _)

theorem senseCut_upd {d : Nat} {p : Nat} (hU : Upd gr s₀ s) : Upd gr s₀ (senseCut s d p) := by
  unfold senseCut
  try dsimp only
  repeat' first
    | intro _
    | with_reducible assumption
    | with_reducible apply ite_upd
    | with_reducible apply setEcho_upd
    | split
    | with_reducible apply Upd.lit

theorem hpCut_upd {d : Nat} {p : Nat} (hU : Upd gr s₀ s) : Upd gr s₀ (hpCut s d p) := by
  unfold hpCut
  try dsimp only
  repeat' first
    | intro _
    | with_reducible assumption
    | with_reducible apply ite_upd
    | with_reducible apply setPort_upd
    | with_reducible apply senseCut_upd
    | with_reducible apply emit_upd
    | with_reducible apply rampDown_upd
    | split
    | with_reducible apply Upd.lit

theorem hpSafe_upd {d : Nat} {p : Nat} {ks : List Nat} (hU : Upd gr s₀ s) : Upd gr s₀ (hpSafe s d p ks) := by
  unfold hpSafe
  try dsimp only
  repeat' first
    | intro _
    | with_reducible assumption
    | with_reducible apply ite_upd
    | with_reducible apply hpCut_upd
    | with_reducible apply nullFrames_upd
    | with_reducible apply loadAbort_upd
    | with_reducible apply each_upd
    | with_reducible apply ctxFence_upd
    | with_reducible apply asPortFenced_upd
    | with_reducible apply htrFollow_upd
    | split

theorem encSafe_upd {d : Nat} {c : Nat} (hU : Upd gr s₀ s) : Upd gr s₀ (encSafe s d c) := by
  unfold encSafe
  try dsimp only
  repeat' first
    | intro _
    | with_reducible assumption
    | with_reducible apply ite_upd
    | with_reducible apply pdUnlock_upd
    | with_reducible apply encLost_upd
    | with_reducible apply encInvalid_upd
    | with_reducible apply serDrop_upd
    | split

theorem pdSafe_upd {d : Nat} (hU : Upd gr s₀ s) : Upd gr s₀ (pdSafe s d) := by
  unfold pdSafe
  try dsimp only
  repeat' first
    | intro _
    | with_reducible assumption
    | with_reducible apply ite_upd
    | split
    | with_reducible apply Upd.lit

theorem axSafe_upd {d : Nat} {a : Nat} {reason : Nat} (hU : Upd gr s₀ s) : Upd gr s₀ (axSafe s d a reason) := by
  unfold axSafe
  try dsimp only
  repeat' first
    | intro _
    | with_reducible assumption
    | with_reducible apply ite_upd
    | with_reducible apply setMstate_upd
    | with_reducible apply setAxis_upd
    | with_reducible apply setPosValid_upd
    | with_reducible apply axisLost_upd
    | split
    | with_reducible apply Upd.lit

theorem echoSafe_upd {d : Nat} (hU : Upd gr s₀ s) : Upd gr s₀ (echoSafe s d) := by
  unfold echoSafe
  try dsimp only
  repeat' first
    | intro _
    | with_reducible assumption
    | with_reducible apply ite_upd
    | with_reducible apply emit_upd
    | with_reducible apply setEcho_upd
    | with_reducible apply each_upd
    | with_reducible apply setPort_upd
    | split
    | with_reducible apply Upd.lit

theorem hoistSafe_upd {d : Nat} {c : Nat} (hU : Upd gr s₀ s) : Upd gr s₀ (hoistSafe s d c) := by
  unfold hoistSafe
  try dsimp only
  repeat' first
    | intro _
    | with_reducible assumption
    | with_reducible apply ite_upd
    | with_reducible apply hcUnsig_upd
    | with_reducible apply hcDrop_upd
    | with_reducible apply setHoist_upd
    | split
    | with_reducible apply Upd.lit

theorem lampSafe_upd {d : Nat} (hU : Upd gr s₀ s) : Upd gr s₀ (lampSafe s d) := by
  unfold lampSafe
  try dsimp only
  repeat' first
    | intro _
    | with_reducible assumption
    | with_reducible apply ite_upd
    | with_reducible apply setLamp_upd
    | split
    | with_reducible apply Upd.lit

theorem thermSafe_upd {d : Nat} (hU : Upd gr s₀ s) : Upd gr s₀ (thermSafe s d) := by
  unfold thermSafe
  try dsimp only
  repeat' first
    | intro _
    | with_reducible assumption
    | with_reducible apply ite_upd
    | with_reducible apply setTherm_upd
    | split
    | with_reducible apply Upd.lit

theorem pageSafe_upd {p : Pg} {reason : Nat} {ks : List Nat} (hU : Upd gr s₀ s) : Upd gr s₀ (pageSafe s p reason ks) := by
  unfold pageSafe
  try dsimp only
  repeat' first
    | intro _
    | with_reducible assumption
    | with_reducible apply ite_upd
    | with_reducible apply hpSafe_upd
    | with_reducible apply encSafe_upd
    | with_reducible apply pdSafe_upd
    | with_reducible apply axSafe_upd
    | with_reducible apply seamsUpdate_upd
    | with_reducible apply echoSafe_upd
    | with_reducible apply asSafe_upd
    | with_reducible apply hoistSafe_upd
    | with_reducible apply lampSafe_upd
    | with_reducible apply thermSafe_upd
    | with_reducible apply dbgClose_upd
    | with_reducible apply stepDrop_upd
    | with_reducible apply wf_upd
    | with_reducible apply chuteFollow_upd
    | split
    | with_reducible apply Upd.lit

theorem fenceQuiet_upd {p : Pg} {reason : Nat} {ks : List Nat} (hE : gr.ecc = true) (hU : Upd gr s₀ s) : Upd gr s₀ (fenceQuiet s p reason ks) := by
  unfold fenceQuiet
  try dsimp only
  repeat' first
    | intro _
    | with_reducible assumption
    | with_reducible apply ite_upd
    | with_reducible apply encSync_upd
    | with_reducible apply setFenceSt_upd
    | with_reducible apply softReset_upd
    | with_reducible apply wf_upd
    | with_reducible apply setPstate_upd
    | with_reducible apply wb_upd
    | with_reducible apply wr_upd
    | with_reducible apply raise_upd
    | with_reducible apply count_upd
    | with_reducible apply pageSafe_upd
    | split

theorem fencePage_upd {p : Pg} {reason : Nat} (hE : gr.ecc = true) (hU : Upd gr s₀ s) : Upd gr s₀ (fencePage s p reason) := by
  unfold fencePage
  try dsimp only
  repeat' first
    | intro _
    | with_reducible assumption
    | with_reducible apply ite_upd
    | with_reducible apply logRecord_upd
    | with_reducible apply fenceQuiet_upd
    | split

theorem fencePageFor_upd {p : Pg} {reason : Nat} {cause : Link} (hE : gr.ecc = true) (hU : Upd gr s₀ s) : Upd gr s₀ (fencePageFor s p reason cause) := by
  unfold fencePageFor
  try dsimp only
  repeat' first
    | intro _
    | with_reducible assumption
    | with_reducible apply ite_upd
    | with_reducible apply logRecord_upd
    | with_reducible apply fenceQuiet_upd
    | split

theorem fenceAll_upd {d : Nat} {reason : Nat} (hE : gr.ecc = true) (hU : Upd gr s₀ s) : Upd gr s₀ (fenceAll s d reason) := by
  unfold fenceAll
  try dsimp only
  repeat' first
    | intro _
    | with_reducible assumption
    | with_reducible apply ite_upd
    | with_reducible apply each_upd
    | with_reducible apply ctxFence_upd
    | with_reducible apply fenceQuiet_upd
    | with_reducible apply setDie_upd
    | exact ⟨rfl, fun h => h, fun h => h⟩
    | exact ⟨rfl, by simp, by simp⟩
    | split
    | with_reducible apply Upd.lit

theorem dieRecord_upd {d : Nat} {kind : Nat} {reason : Nat} (hU : Upd gr s₀ s) : Upd gr s₀ (dieRecord s d kind reason) := by
  unfold dieRecord
  try dsimp only
  repeat' first
    | intro _
    | with_reducible assumption
    | with_reducible apply ite_upd
    | with_reducible apply logRecord_upd
    | split

theorem seamsAll_upd (hU : Upd gr s₀ s) : Upd gr s₀ (seamsAll s) := by
  unfold seamsAll
  try dsimp only
  repeat' first
    | intro _
    | with_reducible assumption
    | with_reducible apply ite_upd
    | with_reducible apply each_upd
    | with_reducible apply seamsUpdate_upd
    | split

theorem dieReport_upd {d : Nat} {reason : Nat} (hU : Upd gr s₀ s) : Upd gr s₀ (dieReport s d reason) := by
  unfold dieReport
  try dsimp only
  repeat' first
    | intro _
    | with_reducible assumption
    | with_reducible apply ite_upd
    | with_reducible apply dieRecord_upd
    | with_reducible apply raise_upd
    | with_reducible apply seamsAll_upd
    | with_reducible apply wb_upd
    | split

theorem fenceDie_upd {d : Nat} {reason : Nat} (hE : gr.ecc = true) (hU : Upd gr s₀ s) : Upd gr s₀ (fenceDie s d reason) := by
  unfold fenceDie
  try dsimp only
  repeat' first
    | intro _
    | with_reducible assumption
    | with_reducible apply ite_upd
    | with_reducible apply fenceAll_upd
    | with_reducible apply setDie_upd
    | with_reducible apply dieReport_upd
    | exact ⟨rfl, fun h => h, fun h => h⟩
    | exact ⟨rfl, by simp, by simp⟩
    | split
    | with_reducible apply Upd.lit

theorem diesLearn_upd (hU : Upd gr s₀ s) : Upd gr s₀ (diesLearn s) := by
  unfold diesLearn
  try dsimp only
  repeat' first
    | intro _
    | with_reducible assumption
    | with_reducible apply ite_upd
    | with_reducible apply each_upd
    | with_reducible apply dieReport_upd
    | with_reducible apply setDie_upd
    | exact ⟨rfl, fun h => h, fun h => h⟩
    | exact ⟨rfl, by simp, by simp⟩
    | split
    | with_reducible apply Upd.lit

theorem trainFailed_upd {d : Nat} {p : Nat} (hE : gr.ecc = true) (hU : Upd gr s₀ s) : Upd gr s₀ (trainFailed s d p) := by
  unfold trainFailed
  try dsimp only
  repeat' first
    | intro _
    | with_reducible assumption
    | with_reducible apply ite_upd
    | with_reducible apply setPort_upd
    | with_reducible apply linkFail_upd
    | with_reducible apply abandonFrames_upd
    | with_reducible apply fencePageFor_upd
    | split
    | with_reducible apply Upd.lit

theorem attemptEnd_upd {d : Nat} {p : Nat} {n : Nat} (hU : Upd gr s₀ s) : Upd gr s₀ (attemptEnd s d p n) := by
  unfold attemptEnd
  try dsimp only
  repeat' first
    | intro _
    | with_reducible assumption
    | with_reducible apply ite_upd
    | with_reducible apply waitClock_upd
    | with_reducible apply trainSets_upd
    | split

theorem execTrainAttemptTimeout_ans {d : Nat} {e : AttemptEnd} (hE : gr.ecc = true) (hU : Upd gr s₀ s) : Ans gr s₀ (execTrainAttemptTimeout d e s) := by
  unfold execTrainAttemptTimeout
  try dsimp only
  repeat' first
    | intro _
    | with_reducible assumption
    | with_reducible apply ok_ans
    | with_reducible apply ite_ans
    | with_reducible apply ite_upd
    | with_reducible apply attemptEnd_upd
    | with_reducible exact ok_ans (by assumption)
    | with_reducible apply setPort_upd
    | with_reducible apply trainFailed_upd
    | split
    | with_reducible apply Upd.lit

end Sys2Proof.Laws
end

