-- ==== Sys2Proof/Laws/HoistCtlUpd.lean ====
section
/-!
SUPPORT. What each operation of `Machine/HoistCtl.lean` keeps, and the groups of state it may change (`Upd`).
-/

set_option Elab.async false
set_option linter.unusedTactic false
set_option linter.unreachableTactic false
namespace Sys2Proof.Laws

open Sys2Proof.Machine

variable {gr : Grp} {s₀ s : State}

theorem hcRecord_upd {d : Nat} {c : Nat} {e : HcErr} (hU : Upd gr s₀ s) : Upd gr s₀ (hcRecord s d c e) := by
  unfold hcRecord
  try dsimp only
  repeat' first
    | intro _
    | with_reducible assumption
    | with_reducible apply ite_upd
    | with_reducible apply logRecord_upd
    | split
    | with_reducible apply Upd.lit

theorem hcReport_upd {d : Nat} {c : Nat} {e : HcErr} (hU : Upd gr s₀ s) : Upd gr s₀ (hcReport s d c e) := by
  unfold hcReport
  try dsimp only
  repeat' first
    | intro _
    | with_reducible assumption
    | with_reducible apply ite_upd
    | with_reducible apply wr_upd
    | with_reducible apply wr48_upd
    | with_reducible apply errRecord_upd
    | with_reducible apply hcRecord_upd
    | with_reducible apply count_upd
    | with_reducible apply raise_upd
    | split

theorem hcAborted_upd {d : Nat} {c : Nat} (hU : Upd gr s₀ s) : Upd gr s₀ (hcAborted s d c) := by
  unfold hcAborted
  try dsimp only
  repeat' first
    | intro _
    | with_reducible assumption
    | with_reducible apply ite_upd
    | with_reducible apply errRecord_upd
    | with_reducible apply hcUnhold_upd
    | with_reducible apply raise_upd
    | with_reducible apply setHoist_upd
    | split
    | with_reducible apply Upd.lit

theorem hcFail_upd {d : Nat} {c : Nat} {b : Option Burst} {e : HcErr} (hE : gr.ecc = true) (hU : Upd gr s₀ s) : Upd gr s₀ (hcFail s d c b e) := by
  unfold hcFail
  try dsimp only
  repeat' first
    | intro _
    | with_reducible assumption
    | with_reducible apply ite_upd
    | with_reducible apply hcUnsig_upd
    | with_reducible apply hcDrop_upd
    | with_reducible apply setHoist_upd
    | with_reducible apply hcReport_upd
    | with_reducible apply fenceQuiet_upd
    | with_reducible apply hcAborted_upd
    | split
    | with_reducible apply Upd.lit

theorem hcHalt_upd {d : Nat} {c : Nat} {code : Nat} {w : Nat} (hE : gr.ecc = true) (hU : Upd gr s₀ s) : Upd gr s₀ (hcHalt s d c code w) := by
  unfold hcHalt
  try dsimp only
  repeat' first
    | intro _
    | with_reducible assumption
    | with_reducible apply ite_upd
    | with_reducible apply hcFail_upd
    | split

theorem hcTrigger_upd {d : Nat} {c : Nat} (hU : Upd gr s₀ s) : Upd gr s₀ (hcTrigger s d c) := by
  unfold hcTrigger
  try dsimp only
  repeat' first
    | intro _
    | with_reducible assumption
    | with_reducible apply ite_upd
    | with_reducible apply raise_upd
    | with_reducible apply wf_upd
    | split

theorem hcResume_upd {d : Nat} {c : Nat} (hU : Upd gr s₀ s) : Upd gr s₀ (hcResume s d c) := by
  unfold hcResume
  try dsimp only
  repeat' first
    | intro _
    | with_reducible assumption
    | with_reducible apply ite_upd
    | with_reducible apply hcUnhold_upd
    | with_reducible apply setHoist_upd
    | split
    | with_reducible apply Upd.lit

theorem hcAbort_upd {d : Nat} {c : Nat} (hU : Upd gr s₀ s) : Upd gr s₀ (hcAbort s d c) := by
  unfold hcAbort
  try dsimp only
  repeat' first
    | intro _
    | with_reducible assumption
    | with_reducible apply ite_upd
    | with_reducible apply hcAborted_upd
    | with_reducible apply hcUnsig_upd
    | with_reducible apply setHoist_upd
    | split
    | with_reducible apply Upd.lit

theorem hcCtrl_upd {d : Nat} {c : Nat} {v : Word} (hU : Upd gr s₀ s) : Upd gr s₀ (hcCtrl s d c v) := by
  unfold hcCtrl
  try dsimp only
  repeat' first
    | intro _
    | with_reducible assumption
    | with_reducible apply ite_upd
    | with_reducible apply wb_upd
    | with_reducible apply whenDo_upd
    | with_reducible apply wf_upd
    | with_reducible apply hcAbort_upd
    | with_reducible apply hcResume_upd
    | with_reducible apply hcTrigger_upd
    | split

theorem hcStarted_upd {d : Nat} {c : Nat} (hU : Upd gr s₀ s) : Upd gr s₀ (hcStarted s d c) := by
  unfold hcStarted
  try dsimp only
  repeat' first
    | intro _
    | with_reducible assumption
    | with_reducible apply ite_upd
    | with_reducible apply setHoist_upd
    | with_reducible apply hcAborted_upd
    | with_reducible apply wr_upd
    | with_reducible apply wr48_upd
    | with_reducible apply errRecord_upd
    | with_reducible apply count_upd
    | with_reducible apply raise_upd
    | split
    | with_reducible apply Upd.lit

theorem hcStop_upd {d : Nat} {c : Nat} (hU : Upd gr s₀ s) : Upd gr s₀ (hcStop s d c) := by
  unfold hcStop
  try dsimp only
  repeat' first
    | intro _
    | with_reducible assumption
    | with_reducible apply ite_upd
    | with_reducible apply wf_upd
    | with_reducible apply hcUnsig_upd
    | with_reducible apply setHoist_upd
    | split
    | with_reducible apply Upd.lit

theorem hcStopped_upd {d : Nat} {c : Nat} (hU : Upd gr s₀ s) : Upd gr s₀ (hcStopped s d c) := by
  unfold hcStopped
  try dsimp only
  repeat' first
    | intro _
    | with_reducible assumption
    | with_reducible apply ite_upd
    | with_reducible apply hcUnhold_upd
    | with_reducible apply errRecord_upd
    | with_reducible apply setHoist_upd
    | split
    | with_reducible apply Upd.lit

end Sys2Proof.Laws
end

