-- ==== Sys2Proof/Laws/AxisUpd.lean ====
section
/-!
SUPPORT. What each operation of `Machine/Axis.lean` keeps, and the groups of state it may change (`Upd`).
-/

set_option Elab.async false
set_option linter.unusedTactic false
set_option linter.unreachableTactic false
namespace Sys2Proof.Laws

open Sys2Proof.Machine

variable {gr : Grp} {s₀ s : State}

theorem axFault_upd {d : Nat} {a : Nat} {bitNo : Nat} {evt : Nat} (hU : Upd gr s₀ s) : Upd gr s₀ (axFault s d a bitNo evt) := by
  unfold axFault
  try dsimp only
  repeat' first
    | intro _
    | with_reducible assumption
    | with_reducible apply ite_upd
    | with_reducible apply raise_upd
    | with_reducible apply wb_upd
    | split

theorem axPolicy_upd {d : Nat} {a : Nat} {fenceBit : Nat} {reason : Nat} (hE : gr.ecc = true) (hU : Upd gr s₀ s) : Upd gr s₀ (axPolicy s d a fenceBit reason) := by
  unfold axPolicy
  try dsimp only
  repeat' first
    | intro _
    | with_reducible assumption
    | with_reducible apply ite_upd
    | with_reducible apply fencePage_upd
    | with_reducible apply setAxis_upd
    | split
    | with_reducible apply Upd.lit

theorem axStall_upd {d : Nat} {a : Nat} (hE : gr.ecc = true) (hU : Upd gr s₀ s) : Upd gr s₀ (axStall s d a) := by
  unfold axStall
  try dsimp only
  repeat' first
    | intro _
    | with_reducible assumption
    | with_reducible apply ite_upd
    | with_reducible apply axPolicy_upd
    | with_reducible apply axFault_upd
    | with_reducible apply count_upd
    | split

theorem stallDetect_upd {d : Nat} {a : Nat} {theta : Nat} {ia : Int} {ib : Int} (hU : Upd gr s₀ s) : Upd gr s₀ (stallDetect s d a theta ia ib).2 := by
  unfold stallDetect
  try dsimp only
  repeat' first
    | intro _
    | with_reducible assumption
    | with_reducible apply ite_upd
    | with_reducible apply setAxis_upd
    | with_reducible apply nextFree_upd
    | with_reducible apply wr_upd
    | split
    | with_reducible apply Upd.lit

theorem loopTick_upd {d : Nat} {a : Nat} {sa : Int} {sb : Int} (hE : gr.ecc = true) (hU : Upd gr s₀ s) : Upd gr s₀ (loopTick s d a sa sb) := by
  unfold loopTick
  try dsimp only
  repeat' first
    | intro _
    | with_reducible assumption
    | with_reducible apply ite_upd
    | with_reducible apply setAxis_upd
    | with_reducible apply nextFree_upd
    | with_reducible apply stallDetect_upd
    | with_reducible apply wr_upd
    | with_reducible apply whenDo_upd
    | with_reducible apply fencePage_upd
    | with_reducible apply axFault_upd
    | with_reducible apply axStall_upd
    | (with_reducible refine pair_upd (by assumption) ?_)
    | split
    | with_reducible apply Upd.lit

theorem execCurrentLoopTick_ans {d : Nat} {a : Nat} {ia : Int} {ib : Int} (hE : gr.ecc = true) (hU : Upd gr s₀ s) : Ans gr s₀ (execCurrentLoopTick d a ia ib s) := by
  unfold execCurrentLoopTick
  try dsimp only
  repeat' first
    | intro _
    | with_reducible assumption
    | with_reducible apply ok_ans
    | with_reducible apply ite_ans
    | with_reducible apply ite_upd
    | with_reducible exact ok_ans (by assumption)
    | with_reducible apply loopTick_upd
    | with_reducible apply waitClock_upd
    | split

theorem execBridgeFault_ans {d : Nat} {a : Nat} (hE : gr.ecc = true) (hU : Upd gr s₀ s) : Ans gr s₀ (execBridgeFault d a s) := by
  unfold execBridgeFault
  try dsimp only
  repeat' first
    | intro _
    | with_reducible assumption
    | with_reducible apply ok_ans
    | with_reducible apply ite_ans
    | with_reducible apply ite_upd
    | with_reducible exact ok_ans (by assumption)
    | with_reducible apply fencePage_upd
    | with_reducible apply axFault_upd
    | split

theorem stepApply_upd {d : Nat} {a : Nat} {dir : Int} {te : Nat} (hU : Upd gr s₀ s) : Upd gr s₀ (stepApply s d a dir te) := by
  unfold stepApply
  try dsimp only
  repeat' first
    | intro _
    | with_reducible assumption
    | with_reducible apply ite_upd
    | with_reducible apply wb_upd
    | with_reducible apply setAxis_upd
    | with_reducible apply whenDo_upd
    | with_reducible apply raise_upd
    | split
    | with_reducible apply Upd.lit

theorem execStepInput_ans {d : Nat} {a : Nat} {fwd : Bool} (hU : Upd gr s₀ s) : Ans gr s₀ (execStepInput d a fwd s) := by
  unfold execStepInput
  try dsimp only
  repeat' first
    | intro _
    | with_reducible assumption
    | with_reducible apply ok_ans
    | with_reducible apply ite_ans
    | with_reducible apply ite_upd
    | with_reducible exact ok_ans (by assumption)
    | with_reducible apply wr_upd
    | with_reducible apply stepApply_upd
    | with_reducible apply setAxis_upd
    | split
    | with_reducible apply Upd.lit

theorem judgeDec_upd {d : Nat} {a : Nat} (hU : Upd gr s₀ s) : Upd gr s₀ (judgeDec s d a) := by
  unfold judgeDec
  try dsimp only
  repeat' first
    | intro _
    | with_reducible assumption
    | with_reducible apply ite_upd
    | with_reducible apply setAxis_upd
    | with_reducible apply raise_upd
    | split
    | with_reducible apply Upd.lit

theorem planMoving_upd {d : Nat} {a : Nat} (hU : Upd gr s₀ s) : Upd gr s₀ (planMoving s d a) := by
  unfold planMoving
  try dsimp only
  repeat' first
    | intro _
    | with_reducible assumption
    | with_reducible apply ite_upd
    | with_reducible apply judgeDec_upd
    | with_reducible apply whenDo_upd
    | with_reducible apply setAxis_upd
    | with_reducible apply raise_upd
    | with_reducible apply setMstate_upd
    | split
    | with_reducible apply Upd.lit

theorem planStopping_upd {d : Nat} {a : Nat} (hU : Upd gr s₀ s) : Upd gr s₀ (planStopping s d a) := by
  unfold planStopping
  try dsimp only
  repeat' first
    | intro _
    | with_reducible assumption
    | with_reducible apply ite_upd
    | with_reducible apply setAxis_upd
    | with_reducible apply raise_upd
    | with_reducible apply setMstate_upd
    | with_reducible apply wr48_upd
    | split

theorem axHold_upd {d : Nat} {a : Nat} (hU : Upd gr s₀ s) : Upd gr s₀ (axHold s d a) := by
  unfold axHold
  try dsimp only
  repeat' first
    | intro _
    | with_reducible assumption
    | with_reducible apply ite_upd
    | with_reducible apply setMstate_upd
    | split

theorem axCut_upd {d : Nat} {a : Nat} {soft : Bool} (hU : Upd gr s₀ s) : Upd gr s₀ (axCut s d a soft) := by
  unfold axCut
  try dsimp only
  repeat' first
    | intro _
    | with_reducible assumption
    | with_reducible apply ite_upd
    | with_reducible apply setAxis_upd
    | with_reducible apply setPosValid_upd
    | with_reducible apply raise_upd
    | with_reducible apply setMstate_upd
    | with_reducible apply wr48_upd
    | split
    | with_reducible apply Upd.lit

theorem axStop_upd {d : Nat} {a : Nat} {soft : Bool} (hU : Upd gr s₀ s) : Upd gr s₀ (axStop s d a soft) := by
  unfold axStop
  try dsimp only
  repeat' first
    | intro _
    | with_reducible assumption
    | with_reducible apply ite_upd
    | with_reducible apply axCut_upd
    | with_reducible apply axHold_upd
    | split

theorem homeStart_upd {d : Nat} {a : Nat} (hU : Upd gr s₀ s) : Upd gr s₀ (homeStart s d a) := by
  unfold homeStart
  try dsimp only
  repeat' first
    | intro _
    | with_reducible assumption
    | with_reducible apply ite_upd
    | with_reducible apply setHphase_upd
    | with_reducible apply setMstate_upd
    | with_reducible apply setAxis_upd
    | split
    | with_reducible apply Upd.lit

theorem homePhase_upd {d : Nat} {a : Nat} {h : Nat} (hU : Upd gr s₀ s) : Upd gr s₀ (homePhase s d a h) := by
  unfold homePhase
  try dsimp only
  repeat' first
    | intro _
    | with_reducible assumption
    | with_reducible apply ite_upd
    | with_reducible apply setHphase_upd
    | with_reducible apply setAxis_upd
    | split
    | with_reducible apply Upd.lit

theorem homeEnd_upd {d : Nat} {a : Nat} {h : Nat} (hU : Upd gr s₀ s) : Upd gr s₀ (homeEnd s d a h) := by
  unfold homeEnd
  try dsimp only
  repeat' first
    | intro _
    | with_reducible assumption
    | with_reducible apply ite_upd
    | with_reducible apply setAxis_upd
    | split
    | with_reducible apply Upd.lit

theorem homingFault_upd {d : Nat} {a : Nat} (hE : gr.ecc = true) (hU : Upd gr s₀ s) : Upd gr s₀ (homingFault s d a) := by
  unfold homingFault
  try dsimp only
  repeat' first
    | intro _
    | with_reducible assumption
    | with_reducible apply ite_upd
    | with_reducible apply axPolicy_upd
    | with_reducible apply axFault_upd
    | split

theorem homeEdge_upd {d : Nat} {a : Nat} {e : Nat × Bool} (hE : gr.ecc = true) (hU : Upd gr s₀ s) : Upd gr s₀ (homeEdge s d a e) := by
  unfold homeEdge
  try dsimp only
  repeat' first
    | intro _
    | with_reducible assumption
    | with_reducible apply ite_upd
    | with_reducible apply setAxis_upd
    | with_reducible apply homeEnd_upd
    | with_reducible apply homePhase_upd
    | with_reducible apply homingFault_upd
    | split
    | with_reducible apply Upd.lit

theorem homed_upd {d : Nat} {a : Nat} (hU : Upd gr s₀ s) : Upd gr s₀ (homed s d a) := by
  unfold homed
  try dsimp only
  repeat' first
    | intro _
    | with_reducible assumption
    | with_reducible apply ite_upd
    | with_reducible apply setAxis_upd
    | with_reducible apply raise_upd
    | with_reducible apply setMstate_upd
    | with_reducible apply setPosValid_upd
    | split

theorem planHoming_upd {d : Nat} {a : Nat} (hU : Upd gr s₀ s) : Upd gr s₀ (planHoming s d a) := by
  unfold planHoming
  try dsimp only
  repeat' first
    | intro _
    | with_reducible assumption
    | with_reducible apply ite_upd
    | with_reducible apply setAxis_upd
    | with_reducible apply homePhase_upd
    | with_reducible apply homed_upd
    | split
    | with_reducible apply Upd.lit

theorem axGo_upd {d : Nat} {a : Nat} (hU : Upd gr s₀ s) : Upd gr s₀ (axGo s d a) := by
  unfold axGo
  try dsimp only
  repeat' first
    | intro _
    | with_reducible assumption
    | with_reducible apply ite_upd
    | with_reducible apply setMstate_upd
    | with_reducible apply setAxis_upd
    | split
    | with_reducible apply Upd.lit

theorem axDo_upd {d : Nat} {a : Nat} {cmd : Nat} (hU : Upd gr s₀ s) : Upd gr s₀ (axDo s d a cmd).2 := by
  unfold axDo
  try dsimp only
  repeat' first
    | intro _
    | with_reducible assumption
    | with_reducible apply ite_upd
    | with_reducible apply axGo_upd
    | with_reducible apply axStop_upd
    | with_reducible apply setMstate_upd
    | with_reducible apply homeStart_upd
    | with_reducible apply setPosValid_upd
    | with_reducible apply setAxis_upd
    | with_reducible apply wr_upd
    | with_reducible apply axCut_upd
    | split
    | with_reducible apply Upd.lit

theorem axCommand_upd {d : Nat} {a : Nat} {cmd : Nat} (hU : Upd gr s₀ s) : Upd gr s₀ (axCommand s d a cmd) := by
  unfold axCommand
  try dsimp only
  repeat' first
    | intro _
    | with_reducible assumption
    | with_reducible apply ite_upd
    | with_reducible apply axDo_upd
    | with_reducible apply wr_upd
    | with_reducible apply whenDo_upd
    | with_reducible apply raise_upd
    | (with_reducible refine pair_upd (by assumption) ?_)
    | split

theorem axPlan_upd {d : Nat} {a : Nat} (hU : Upd gr s₀ s) : Upd gr s₀ (axPlan s d a) := by
  unfold axPlan
  try dsimp only
  repeat' first
    | intro _
    | with_reducible assumption
    | with_reducible apply ite_upd
    | with_reducible apply planMoving_upd
    | with_reducible apply planStopping_upd
    | with_reducible apply planHoming_upd
    | with_reducible apply wb_upd
    | split

theorem profileTick_upd {d : Nat} {a : Nat} (hE : gr.ecc = true) (hU : Upd gr s₀ s) : Upd gr s₀ (profileTick s d a) := by
  unfold profileTick
  try dsimp only
  repeat' first
    | intro _
    | with_reducible assumption
    | with_reducible apply ite_upd
    | with_reducible apply setAxis_upd
    | with_reducible apply whenDo_upd
    | with_reducible apply axStop_upd
    | with_reducible apply each_upd
    | with_reducible apply homeEdge_upd
    | with_reducible apply axCommand_upd
    | with_reducible apply axPlan_upd
    | split
    | with_reducible apply Upd.lit

theorem profileNext_upd {d : Nat} {a : Nat} (hE : gr.ecc = true) (hU : Upd gr s₀ s) : Upd gr s₀ (profileNext s d a) := by
  unfold profileNext
  try dsimp only
  repeat' first
    | intro _
    | with_reducible assumption
    | with_reducible apply ite_upd
    | with_reducible apply profileTick_upd
    | with_reducible apply waitClock_upd
    | split

theorem execProfileTick_ans {d : Nat} {a : Nat} (hE : gr.ecc = true) (hU : Upd gr s₀ s) : Ans gr s₀ (execProfileTick d a s) := by
  unfold execProfileTick
  try dsimp only
  repeat' first
    | intro _
    | with_reducible assumption
    | with_reducible apply ok_ans
    | with_reducible apply ite_ans
    | with_reducible apply ite_upd
    | with_reducible exact ok_ans (by assumption)
    | with_reducible apply profileNext_upd
    | split

theorem axStatWait_upd {r : Req} {d : Nat} {a : Nat} (hE : gr.ecc = true) (hU : Upd gr s₀ s) : Upd gr s₀ (axStatWait s r d a) := by
  unfold axStatWait
  try dsimp only
  repeat' first
    | intro _
    | with_reducible assumption
    | with_reducible apply ite_upd
    | with_reducible apply profileNext_upd
    | split

theorem axStart_upd {d : Nat} {a : Nat} (hU : Upd gr s₀ s) : Upd gr s₀ (axStart s d a) := by
  unfold axStart
  try dsimp only
  repeat' first
    | intro _
    | with_reducible assumption
    | with_reducible apply ite_upd
    | with_reducible apply setAxis_upd
    | split
    | with_reducible apply Upd.lit

theorem axRunning_upd {d : Nat} {a : Nat} (hU : Upd gr s₀ s) : Upd gr s₀ (axRunning s d a) := by
  unfold axRunning
  try dsimp only
  repeat' first
    | intro _
    | with_reducible assumption
    | with_reducible apply ite_upd
    | with_reducible apply setPstate_upd
    | with_reducible apply setAxis_upd
    | with_reducible apply setMstate_upd
    | split
    | with_reducible apply Upd.lit

theorem axShut_upd {d : Nat} {a : Nat} (hU : Upd gr s₀ s) : Upd gr s₀ (axShut s d a) := by
  unfold axShut
  try dsimp only
  repeat' first
    | intro _
    | with_reducible assumption
    | with_reducible apply ite_upd
    | with_reducible apply setPstate_upd
    | with_reducible apply axCut_upd
    | with_reducible apply axHold_upd
    | split

theorem axOff_upd {d : Nat} {a : Nat} (hU : Upd gr s₀ s) : Upd gr s₀ (axOff s d a) := by
  unfold axOff
  try dsimp only
  repeat' first
    | intro _
    | with_reducible assumption
    | with_reducible apply ite_upd
    | with_reducible apply setAxis_upd
    | with_reducible apply axisLost_upd
    | with_reducible apply setPosValid_upd
    | with_reducible apply setMstate_upd
    | split
    | with_reducible apply Upd.lit

theorem execAxEnableDone_ans {d : Nat} {a : Nat} (hU : Upd gr s₀ s) : Ans gr s₀ (execAxEnableDone d a s) := by
  unfold execAxEnableDone
  try dsimp only
  repeat' first
    | intro _
    | with_reducible assumption
    | with_reducible apply ok_ans
    | with_reducible apply ite_ans
    | with_reducible apply ite_upd
    | with_reducible exact ok_ans (by assumption)
    | with_reducible apply axRunning_upd
    | with_reducible apply waitClock_upd
    | with_reducible apply axShut_upd
    | split

theorem axCmdAdd_upd {r : Req} {d : Nat} {a : Nat} {cmd : Nat} (hU : Upd gr s₀ s) : Upd gr s₀ (axCmdAdd r d a cmd s) := by
  unfold axCmdAdd
  try dsimp only
  repeat' first
    | intro _
    | with_reducible assumption
    | with_reducible apply ite_upd
    | with_reducible apply setAxis_upd
    | split
    | with_reducible apply Upd.lit

theorem axCmdWrite_upd {r : Req} {d : Nat} {a : Nat} {cmd : Nat} (hU : Upd gr s₀ s) : Upd gr s₀ (axCmdWrite r d a cmd s) := by
  unfold axCmdWrite
  try dsimp only
  repeat' first
    | intro _
    | with_reducible assumption
    | with_reducible apply ite_upd
    | with_reducible apply guardedWrite_upd
    | with_reducible apply axCmdAdd_upd
    | split

theorem execAxMove_ans {r : Req} {d : Nat} {a : Nat} (hU : Upd gr s₀ s) : Ans gr s₀ (execAxMove r d a s) := by
  unfold execAxMove
  try dsimp only
  repeat' first
    | intro _
    | with_reducible assumption
    | with_reducible apply ok_ans
    | with_reducible apply ite_ans
    | with_reducible apply ite_upd
    | with_reducible exact ok_ans (by assumption)
    | with_reducible apply axCmdWrite_upd
    | split

theorem execAxStop_ans {r : Req} {d : Nat} {a : Nat} (hU : Upd gr s₀ s) : Ans gr s₀ (execAxStop r d a s) := by
  unfold execAxStop
  try dsimp only
  repeat' first
    | intro _
    | with_reducible assumption
    | with_reducible apply ok_ans
    | with_reducible apply ite_ans
    | with_reducible apply ite_upd
    | with_reducible exact ok_ans (by assumption)
    | with_reducible apply axCmdWrite_upd
    | split

theorem execAxResume_ans {r : Req} {d : Nat} {a : Nat} (hU : Upd gr s₀ s) : Ans gr s₀ (execAxResume r d a s) := by
  unfold execAxResume
  try dsimp only
  repeat' first
    | intro _
    | with_reducible assumption
    | with_reducible apply ok_ans
    | with_reducible apply ite_ans
    | with_reducible apply ite_upd
    | with_reducible exact ok_ans (by assumption)
    | with_reducible apply axCmdWrite_upd
    | split

theorem execAxHome_ans {r : Req} {d : Nat} {a : Nat} (hU : Upd gr s₀ s) : Ans gr s₀ (execAxHome r d a s) := by
  unfold execAxHome
  try dsimp only
  repeat' first
    | intro _
    | with_reducible assumption
    | with_reducible apply ok_ans
    | with_reducible apply ite_ans
    | with_reducible apply ite_upd
    | with_reducible exact ok_ans (by assumption)
    | with_reducible apply axCmdWrite_upd
    | split

theorem execAxLoad_ans {r : Req} {d : Nat} {a : Nat} (hU : Upd gr s₀ s) : Ans gr s₀ (execAxLoad r d a s) := by
  unfold execAxLoad
  try dsimp only
  repeat' first
    | intro _
    | with_reducible assumption
    | with_reducible apply ok_ans
    | with_reducible apply ite_ans
    | with_reducible apply ite_upd
    | with_reducible exact ok_ans (by assumption)
    | with_reducible apply axCmdWrite_upd
    | split

theorem execAxClear_ans {r : Req} {d : Nat} {a : Nat} (hU : Upd gr s₀ s) : Ans gr s₀ (execAxClear r d a s) := by
  unfold execAxClear
  try dsimp only
  repeat' first
    | intro _
    | with_reducible assumption
    | with_reducible apply ok_ans
    | with_reducible apply ite_ans
    | with_reducible apply ite_upd
    | with_reducible exact ok_ans (by assumption)
    | with_reducible apply axCmdWrite_upd
    | split

theorem execAxCut_ans {r : Req} {d : Nat} {a : Nat} (hU : Upd gr s₀ s) : Ans gr s₀ (execAxCut r d a s) := by
  unfold execAxCut
  try dsimp only
  repeat' first
    | intro _
    | with_reducible assumption
    | with_reducible apply ok_ans
    | with_reducible apply ite_ans
    | with_reducible apply ite_upd
    | with_reducible exact ok_ans (by assumption)
    | with_reducible apply axCmdWrite_upd
    | split

theorem limitTrip_upd {d : Nat} {a : Nat} {i : Nat} (hE : gr.ecc = true) (hU : Upd gr s₀ s) : Upd gr s₀ (limitTrip s d a i) := by
  unfold limitTrip
  try dsimp only
  repeat' first
    | intro _
    | with_reducible assumption
    | with_reducible apply ite_upd
    | with_reducible apply axPolicy_upd
    | with_reducible apply axFault_upd
    | split

theorem swQualify_upd {d : Nat} {a : Nat} {i : Nat} {lvl : Bool} {pos : Int} {stamp : Nat} {chat : Nat} (hE : gr.ecc = true) (hU : Upd gr s₀ s) : Upd gr s₀ (swQualify s d a i lvl pos stamp chat) := by
  unfold swQualify
  try dsimp only
  repeat' first
    | intro _
    | with_reducible assumption
    | with_reducible apply ite_upd
    | with_reducible apply wb_upd
    | with_reducible apply wr48_upd
    | with_reducible apply raise_upd
    | with_reducible apply wr_upd
    | with_reducible apply whenDo_upd
    | with_reducible apply setAxis_upd
    | with_reducible apply limitTrip_upd
    | split
    | with_reducible apply Upd.lit

theorem chatFollow_upd {d : Nat} {a : Nat} (hE : gr.ecc = true) (hU : Upd gr s₀ s) : Upd gr s₀ (chatFollow s d a) := by
  unfold chatFollow
  try dsimp only
  repeat' first
    | intro _
    | with_reducible assumption
    | with_reducible apply ite_upd
    | with_reducible apply whenDo_upd
    | with_reducible apply axPolicy_upd
    | with_reducible apply axFault_upd
    | split

theorem chatter_upd {d : Nat} {a : Nat} (hE : gr.ecc = true) (hU : Upd gr s₀ s) : Upd gr s₀ (chatter s d a) := by
  unfold chatter
  try dsimp only
  repeat' first
    | intro _
    | with_reducible assumption
    | with_reducible apply ite_upd
    | with_reducible apply count_upd
    | with_reducible apply chatFollow_upd
    | with_reducible apply setAxis_upd
    | split
    | with_reducible apply Upd.lit

theorem swEdge_upd {d : Nat} {a : Nat} {i : Nat} {raw : Bool} (hE : gr.ecc = true) (hU : Upd gr s₀ s) : Upd gr s₀ (swEdge s d a i raw) := by
  unfold swEdge
  try dsimp only
  repeat' first
    | intro _
    | with_reducible assumption
    | with_reducible apply ite_upd
    | with_reducible apply setAxis_upd
    | with_reducible apply swQualify_upd
    | with_reducible apply chatter_upd
    | split
    | with_reducible apply Upd.lit

theorem swFollow_upd {d : Nat} {a : Nat} (hE : gr.ecc = true) (hU : Upd gr s₀ s) : Upd gr s₀ (swFollow s d a) := by
  unfold swFollow
  try dsimp only
  repeat' first
    | intro _
    | with_reducible assumption
    | with_reducible apply ite_upd
    | with_reducible apply each_upd
    | with_reducible apply swEdge_upd
    | split

theorem axHandOver_upd {d : Nat} {a : Nat} (hE : gr.ecc = true) (hU : Upd gr s₀ s) : Upd gr s₀ (axHandOver s d a) := by
  unfold axHandOver
  try dsimp only
  repeat' first
    | intro _
    | with_reducible assumption
    | with_reducible apply ite_upd
    | with_reducible apply chatFollow_upd
    | with_reducible apply swFollow_upd
    | with_reducible apply takeShadows_upd
    | split

theorem axReset_upd {d : Nat} {a : Nat} (hE : gr.ecc = true) (hU : Upd gr s₀ s) : Upd gr s₀ (axReset s d a) := by
  unfold axReset
  try dsimp only
  repeat' first
    | intro _
    | with_reducible assumption
    | with_reducible apply ite_upd
    | with_reducible apply swFollow_upd
    | with_reducible apply setAxis_upd
    | split

theorem execSwitchInputEdge_ans {d : Nat} {a : Nat} {i : Nat} {raw : Bool} (hE : gr.ecc = true) (hU : Upd gr s₀ s) : Ans gr s₀ (execSwitchInputEdge d a i raw s) := by
  unfold execSwitchInputEdge
  try dsimp only
  repeat' first
    | intro _
    | with_reducible assumption
    | with_reducible apply ok_ans
    | with_reducible apply ite_ans
    | with_reducible apply ite_upd
    | with_reducible exact ok_ans (by assumption)
    | with_reducible apply swEdge_upd
    | split

theorem execSwEdge_ans {d : Nat} {a : Nat} {i : Nat} (hE : gr.ecc = true) (hU : Upd gr s₀ s) : Ans gr s₀ (execSwEdge d a i s) := by
  unfold execSwEdge
  try dsimp only
  repeat' first
    | intro _
    | with_reducible assumption
    | with_reducible apply ok_ans
    | with_reducible apply ite_ans
    | with_reducible apply ite_upd
    | with_reducible exact ok_ans (by assumption)
    | with_reducible apply waitClock_upd
    | with_reducible apply setAxis_upd
    | with_reducible apply swQualify_upd
    | with_reducible apply chatter_upd
    | split
    | with_reducible apply Upd.lit

end Sys2Proof.Laws
end

