-- ==== Sys2Proof/Laws/MailboxInv.lean ====
section
/-!
SUPPORT. The fields of the state that each operation of `Machine/Mailbox.lean` may change: whatever reads none of them is the same after it.
-/

set_option Elab.async false
set_option linter.unusedTactic false
set_option linter.unreachableTactic false
namespace Sys2Proof.Laws

open Sys2Proof.Machine

variable {α₀ : Type} {φ : State → α₀} {c₀ : α₀} {s : State}

theorem setInState_inv {d : Nat} {sec : Bool} {n : Nat} {st : Nat} (i_regs : Skips.regs φ) (hU : At φ c₀ s) : At φ c₀ (setInState s d sec n st) := by
  unfold setInState
  try dsimp only
  repeat' first
    | with_reducible assumption
    | intro _
    | with_reducible apply ite_inv
    | with_reducible apply wf_inv
    | split

theorem inLoad_inv {d : Nat} {sec : Bool} {n : Nat} {ack : Word} {res : List Word} (i_regs : Skips.regs φ) (i_pcie : Skips.pcie φ) (i_out : Skips.out φ) (hU : At φ c₀ s) : At φ c₀ (inLoad s d sec n ack res) := by
  unfold inLoad
  try dsimp only
  repeat' first
    | with_reducible assumption
    | intro _
    | with_reducible apply ite_inv
    | with_reducible apply each_inv
    | with_reducible apply wr_inv
    | with_reducible apply raise_inv
    | with_reducible apply setInState_inv
    | split

theorem inFinish_inv {d : Nat} {sec : Bool} {n : Nat} {code : Nat} {res : List Word} (i_regs : Skips.regs φ) (i_mboxes : Skips.mboxes φ) (i_pcie : Skips.pcie φ) (i_out : Skips.out φ) (hU : At φ c₀ s) : At φ c₀ (inFinish s d sec n code res) := by
  unfold inFinish
  try dsimp only
  repeat' first
    | with_reducible assumption
    | intro _
    | with_reducible apply ite_inv
    | with_reducible apply setMbox_inv
    | with_reducible apply wr_inv
    | with_reducible apply whenDo_inv
    | with_reducible apply count_inv
    | with_reducible apply setInState_inv
    | with_reducible apply inLoad_inv
    | split

theorem inPost_inv {d : Nat} {sec : Bool} {n : Nat} {v : Word} (i_regs : Skips.regs φ) (i_mboxes : Skips.mboxes φ) (i_pcie : Skips.pcie φ) (i_out : Skips.out φ) (hU : At φ c₀ s) : At φ c₀ (inPost s d sec n v) := by
  unfold inPost
  try dsimp only
  repeat' first
    | with_reducible assumption
    | intro _
    | with_reducible apply ite_inv
    | with_reducible apply wr_inv
    | with_reducible apply setMbox_inv
    | with_reducible apply inLoad_inv
    | with_reducible apply count_inv
    | split

theorem inHdrWrite_inv {r : Req} {d : Nat} {sec : Bool} {n : Nat} {v : Word} (i_regs : Skips.regs φ) (i_mboxes : Skips.mboxes φ) (i_pcie : Skips.pcie φ) (i_out : Skips.out φ) (hU : At φ c₀ s) : At φ c₀ (inHdrWrite r d sec n v s) := by
  unfold inHdrWrite
  try dsimp only
  repeat' first
    | with_reducible assumption
    | intro _
    | with_reducible apply ite_inv
    | with_reducible apply logErr_inv
    | with_reducible apply count_inv
    | with_reducible apply inPost_inv
    | split

theorem execMailboxPost_ansAt {r : Req} {d : Nat} {sec : Bool} {n : Nat} {v : Word} (i_regs : Skips.regs φ) (i_mboxes : Skips.mboxes φ) (i_dies : Skips.dies φ) (i_pcie : Skips.pcie φ) (i_resp : Skips.resp φ) (i_out : Skips.out φ) (hU : At φ c₀ s) : AnsAt φ c₀ (execMailboxPost r d sec n v s) := by
  unfold execMailboxPost
  try dsimp only
  repeat' first
    | with_reducible assumption
    | intro _
    | with_reducible apply ok_ansAt
    | with_reducible apply ite_ansAt
    | with_reducible apply ite_inv
    | with_reducible exact ok_ansAt (by assumption)
    | with_reducible apply guardedWrite_inv
    | with_reducible apply inHdrWrite_inv
    | split

theorem inTake_inv {d : Nat} {sec : Bool} {n : Nat} (i_regs : Skips.regs φ) (i_mboxes : Skips.mboxes φ) (i_pcie : Skips.pcie φ) (i_out : Skips.out φ) (hU : At φ c₀ s) : At φ c₀ (inTake s d sec n) := by
  unfold inTake
  try dsimp only
  repeat' first
    | with_reducible assumption
    | intro _
    | with_reducible apply ite_inv
    | with_reducible apply setInState_inv
    | with_reducible apply setMbox_inv
    | with_reducible apply inFinish_inv
    | split

theorem execMailboxTake_ansAt {d : Nat} (i_regs : Skips.regs φ) (i_mboxes : Skips.mboxes φ) (i_pcie : Skips.pcie φ) (i_out : Skips.out φ) (hU : At φ c₀ s) : AnsAt φ c₀ (execMailboxTake d s) := by
  unfold execMailboxTake
  try dsimp only
  repeat' first
    | with_reducible assumption
    | intro _
    | with_reducible apply ok_ansAt
    | with_reducible apply ite_ansAt
    | with_reducible apply ite_inv
    | with_reducible exact ok_ansAt (by assumption)
    | with_reducible apply inTake_inv
    | split

theorem longFollow_inv {d : Nat} (i_regs : Skips.regs φ) (hU : At φ c₀ s) : At φ c₀ (longFollow s d) := by
  unfold longFollow
  try dsimp only
  repeat' first
    | with_reducible assumption
    | intro _
    | with_reducible apply ite_inv
    | with_reducible apply wb_inv
    | split

theorem setLong_inv {d : Nat} {l : Option LongCmd} (i_regs : Skips.regs φ) (i_fws : Skips.fws φ) (hU : At φ c₀ s) : At φ c₀ (setLong s d l) := by
  unfold setLong
  try dsimp only
  repeat' first
    | with_reducible assumption
    | intro _
    | with_reducible apply ite_inv
    | with_reducible apply longFollow_inv
    | with_reducible apply setFw_inv
    | split

theorem execInDone_ansAt {d : Nat} {sec : Bool} {n : Nat} (i_regs : Skips.regs φ) (i_mboxes : Skips.mboxes φ) (i_fws : Skips.fws φ) (i_pcie : Skips.pcie φ) (i_out : Skips.out φ) (hU : At φ c₀ s) : AnsAt φ c₀ (execInDone d sec n s) := by
  unfold execInDone
  try dsimp only
  repeat' first
    | with_reducible assumption
    | intro _
    | with_reducible apply ok_ansAt
    | with_reducible apply ite_ansAt
    | with_reducible apply ite_inv
    | with_reducible exact ok_ansAt (by assumption)
    | with_reducible apply inFinish_inv
    | with_reducible apply setLong_inv
    | split

theorem longAbandon_inv {d : Nat} {l : LongCmd} (i_regs : Skips.regs φ) (i_ports : Skips.ports φ) (i_mboxes : Skips.mboxes φ) (i_pcie : Skips.pcie φ) (i_out : Skips.out φ) (hU : At φ c₀ s) : At φ c₀ (longAbandon s d l) := by
  unfold longAbandon
  try dsimp only
  repeat' first
    | with_reducible assumption
    | intro _
    | with_reducible apply ite_inv
    | with_reducible apply setLink_inv
    | with_reducible apply sweepAbort_inv
    | split

theorem longEnd_inv {d : Nat} {code : Nat} (i_regs : Skips.regs φ) (i_ports : Skips.ports φ) (i_mboxes : Skips.mboxes φ) (i_fws : Skips.fws φ) (i_pcie : Skips.pcie φ) (i_out : Skips.out φ) (hU : At φ c₀ s) : At φ c₀ (longEnd s d code) := by
  unfold longEnd
  try dsimp only
  repeat' first
    | with_reducible assumption
    | intro _
    | with_reducible apply ite_inv
    | with_reducible apply longAbandon_inv
    | with_reducible apply inFinish_inv
    | with_reducible apply setLong_inv
    | split

theorem execLongCmdTimeout_ansAt {d : Nat} (i_clock : Skips.clock φ) (i_regs : Skips.regs φ) (i_ports : Skips.ports φ) (i_mboxes : Skips.mboxes φ) (i_fws : Skips.fws φ) (i_dies : Skips.dies φ) (i_pcie : Skips.pcie φ) (i_out : Skips.out φ) (hU : At φ c₀ s) : AnsAt φ c₀ (execLongCmdTimeout d s) := by
  unfold execLongCmdTimeout
  try dsimp only
  repeat' first
    | with_reducible assumption
    | intro _
    | with_reducible apply ok_ansAt
    | with_reducible apply ite_ansAt
    | with_reducible apply ite_inv
    | with_reducible exact ok_ansAt (by assumption)
    | with_reducible apply longEnd_inv
    | with_reducible apply waitClock_inv
    | split

theorem setResult_inv {d : Nat} {sec : Bool} {n : Nat} {code : Nat} {res : List Word} (i_mboxes : Skips.mboxes φ) (hU : At φ c₀ s) : At φ c₀ (setResult s d sec n code res) := by
  unfold setResult
  try dsimp only
  repeat' first
    | with_reducible assumption
    | intro _
    | with_reducible apply ite_inv
    | with_reducible apply setMbox_inv
    | split

theorem inRun_inv {d : Nat} {sec : Bool} {n : Nat} {cmd : Nat} {bad : Option Nat} {eff : State → State} (i_mboxes : Skips.mboxes φ) (hU : At φ c₀ s) (hf_eff : ∀ tU, At φ c₀ tU → At φ c₀ (eff tU)) : At φ c₀ (inRun s d sec n cmd bad eff) := by
  unfold inRun
  try dsimp only
  repeat' first
    | with_reducible assumption
    | intro _
    | with_reducible apply ite_inv
    | with_reducible apply hf_eff
    | with_reducible apply setResult_inv
    | split

theorem execGetInfo_ansAt {d : Nat} {sec : Bool} {n : Nat} (i_mboxes : Skips.mboxes φ) (hU : At φ c₀ s) : AnsAt φ c₀ (execGetInfo d sec n s) := by
  unfold execGetInfo
  try dsimp only
  repeat' first
    | with_reducible assumption
    | intro _
    | with_reducible apply ok_ansAt
    | with_reducible apply ite_ansAt
    | with_reducible apply ite_inv
    | with_reducible exact ok_ansAt (by assumption)
    | with_reducible apply inRun_inv
    | with_reducible apply setResult_inv
    | split

theorem execPing_ansAt {d : Nat} {sec : Bool} {n : Nat} (i_mboxes : Skips.mboxes φ) (hU : At φ c₀ s) : AnsAt φ c₀ (execPing d sec n s) := by
  unfold execPing
  try dsimp only
  repeat' first
    | with_reducible assumption
    | intro _
    | with_reducible apply ok_ansAt
    | with_reducible apply ite_ansAt
    | with_reducible apply ite_inv
    | with_reducible exact ok_ansAt (by assumption)
    | with_reducible apply inRun_inv
    | with_reducible apply setResult_inv
    | split

theorem execHeadDiscover_ansAt {d : Nat} {sec : Bool} {n : Nat} {ans : Option (List Byte)} (i_regs : Skips.regs φ) (i_ports : Skips.ports φ) (i_mboxes : Skips.mboxes φ) (i_fws : Skips.fws φ) (i_pcie : Skips.pcie φ) (i_out : Skips.out φ) (hU : At φ c₀ s) : AnsAt φ c₀ (execHeadDiscover d sec n ans s) := by
  unfold execHeadDiscover
  try dsimp only
  repeat' first
    | with_reducible assumption
    | intro _
    | with_reducible apply ok_ansAt
    | with_reducible apply ite_ansAt
    | with_reducible apply ite_inv
    | with_reducible exact ok_ansAt (by assumption)
    | with_reducible apply inRun_inv
    | with_reducible apply setLong_inv
    | with_reducible apply discover_inv
    | with_reducible apply setLink_inv
    | split

theorem execSbRead_ansAt {d : Nat} {sec : Bool} {n : Nat} {ans : Option (List Byte)} (i_mboxes : Skips.mboxes φ) (hU : At φ c₀ s) : AnsAt φ c₀ (execSbRead d sec n ans s) := by
  unfold execSbRead
  try dsimp only
  repeat' first
    | with_reducible assumption
    | intro _
    | with_reducible apply ok_ansAt
    | with_reducible apply ite_ansAt
    | with_reducible apply ite_inv
    | with_reducible exact ok_ansAt (by assumption)
    | with_reducible apply inRun_inv
    | with_reducible apply setResult_inv
    | split

theorem execSbWrite_ansAt {d : Nat} {sec : Bool} {n : Nat} {ack : Bool} (i_mboxes : Skips.mboxes φ) (i_out : Skips.out φ) (hU : At φ c₀ s) : AnsAt φ c₀ (execSbWrite d sec n ack s) := by
  unfold execSbWrite
  try dsimp only
  repeat' first
    | with_reducible assumption
    | intro _
    | with_reducible apply ok_ansAt
    | with_reducible apply ite_ansAt
    | with_reducible apply ite_inv
    | with_reducible exact ok_ansAt (by assumption)
    | with_reducible apply inRun_inv
    | with_reducible apply emit_inv
    | with_reducible apply setResult_inv
    | split

theorem execCaptureRef_ansAt {d : Nat} {sec : Bool} {n : Nat} (i_regs : Skips.regs φ) (i_echos : Skips.echos φ) (i_mboxes : Skips.mboxes φ) (i_fws : Skips.fws φ) (hU : At φ c₀ s) : AnsAt φ c₀ (execCaptureRef d sec n s) := by
  unfold execCaptureRef
  try dsimp only
  repeat' first
    | with_reducible assumption
    | intro _
    | with_reducible apply ok_ansAt
    | with_reducible apply ite_ansAt
    | with_reducible apply ite_inv
    | with_reducible exact ok_ansAt (by assumption)
    | with_reducible apply inRun_inv
    | with_reducible apply wr_inv
    | with_reducible apply sweepStart_inv
    | with_reducible apply setLong_inv
    | split

theorem execAssayRequest_ansAt {d : Nat} {sec : Bool} {n : Nat} (i_regs : Skips.regs φ) (i_assays : Skips.assays φ) (i_mboxes : Skips.mboxes φ) (i_fws : Skips.fws φ) (hU : At φ c₀ s) : AnsAt φ c₀ (execAssayRequest d sec n s) := by
  unfold execAssayRequest
  try dsimp only
  repeat' first
    | with_reducible assumption
    | intro _
    | with_reducible apply ok_ansAt
    | with_reducible apply ite_ansAt
    | with_reducible apply ite_inv
    | with_reducible exact ok_ansAt (by assumption)
    | with_reducible apply inRun_inv
    | with_reducible apply asRequest_inv
    | with_reducible apply setLong_inv
    | with_reducible apply setResult_inv
    | split

theorem execAbortLong_ansAt {d : Nat} {sec : Bool} {n : Nat} (i_regs : Skips.regs φ) (i_ports : Skips.ports φ) (i_mboxes : Skips.mboxes φ) (i_fws : Skips.fws φ) (i_pcie : Skips.pcie φ) (i_out : Skips.out φ) (hU : At φ c₀ s) : AnsAt φ c₀ (execAbortLong d sec n s) := by
  unfold execAbortLong
  try dsimp only
  repeat' first
    | with_reducible assumption
    | intro _
    | with_reducible apply ok_ansAt
    | with_reducible apply ite_ansAt
    | with_reducible apply ite_inv
    | with_reducible exact ok_ansAt (by assumption)
    | with_reducible apply inRun_inv
    | with_reducible apply setResult_inv
    | with_reducible apply longEnd_inv
    | split

theorem execTallyClear_ansAt {d : Nat} {sec : Bool} {n : Nat} (i_regs : Skips.regs φ) (i_ret : Skips.ret φ) (i_retEcc : Skips.retEcc φ) (i_mboxes : Skips.mboxes φ) (i_pcie : Skips.pcie φ) (i_out : Skips.out φ) (hU : At φ c₀ s) : AnsAt φ c₀ (execTallyClear d sec n s) := by
  unfold execTallyClear
  try dsimp only
  repeat' first
    | with_reducible assumption
    | intro _
    | with_reducible apply ok_ansAt
    | with_reducible apply ite_ansAt
    | with_reducible apply ite_inv
    | with_reducible exact ok_ansAt (by assumption)
    | with_reducible apply inRun_inv
    | with_reducible apply setResult_inv
    | with_reducible apply tallyClear_inv
    | split

theorem setFwUp_inv {d : Nat} {b : Bool} (i_regs : Skips.regs φ) (hU : At φ c₀ s) : At φ c₀ (setFwUp s d b) := by
  unfold setFwUp
  try dsimp only
  repeat' first
    | with_reducible assumption
    | intro _
    | with_reducible apply ite_inv
    | with_reducible apply wb_inv
    | split

theorem fwRestart_inv {d : Nat} {cause : Nat} (i_regs : Skips.regs φ) (i_mboxes : Skips.mboxes φ) (i_fws : Skips.fws φ) (i_pcie : Skips.pcie φ) (i_out : Skips.out φ) (hU : At φ c₀ s) : At φ c₀ (fwRestart s d cause) := by
  unfold fwRestart
  try dsimp only
  repeat' first
    | with_reducible assumption
    | intro _
    | with_reducible apply ite_inv
    | with_reducible apply setFwUp_inv
    | with_reducible apply setFw_inv
    | with_reducible apply longFollow_inv
    | with_reducible apply each_inv
    | with_reducible apply raise_inv
    | with_reducible apply wf_inv
    | with_reducible apply setInState_inv
    | with_reducible apply setMbox_inv
    | with_reducible apply inFinish_inv
    | split

theorem execFwRestart_ansAt {d : Nat} {sec : Bool} {n : Nat} (i_regs : Skips.regs φ) (i_mboxes : Skips.mboxes φ) (i_fws : Skips.fws φ) (i_pcie : Skips.pcie φ) (i_out : Skips.out φ) (hU : At φ c₀ s) : AnsAt φ c₀ (execFwRestart d sec n s) := by
  unfold execFwRestart
  try dsimp only
  repeat' first
    | with_reducible assumption
    | intro _
    | with_reducible apply ok_ansAt
    | with_reducible apply ite_ansAt
    | with_reducible apply ite_inv
    | with_reducible exact ok_ansAt (by assumption)
    | with_reducible apply inRun_inv
    | with_reducible apply fwRestart_inv
    | with_reducible apply inFinish_inv
    | split

theorem execFwWatchdogRestart_ansAt {d : Nat} (i_regs : Skips.regs φ) (i_mboxes : Skips.mboxes φ) (i_fws : Skips.fws φ) (i_pcie : Skips.pcie φ) (i_out : Skips.out φ) (hU : At φ c₀ s) : AnsAt φ c₀ (execFwWatchdogRestart d s) := by
  unfold execFwWatchdogRestart
  try dsimp only
  repeat' first
    | with_reducible assumption
    | intro _
    | with_reducible apply ok_ansAt
    | with_reducible apply ite_ansAt
    | with_reducible apply ite_inv
    | with_reducible exact ok_ansAt (by assumption)
    | with_reducible apply fwRestart_inv
    | split

theorem fwStartNote_inv {d : Nat} (i_regs : Skips.regs φ) (i_mboxes : Skips.mboxes φ) (i_pcie : Skips.pcie φ) (i_out : Skips.out φ) (hU : At φ c₀ s) : At φ c₀ (fwStartNote s d) := by
  unfold fwStartNote
  try dsimp only
  repeat' first
    | with_reducible assumption
    | intro _
    | with_reducible apply ite_inv
    | with_reducible apply notice_inv
    | split

theorem execFwStarted_ansAt {d : Nat} (i_regs : Skips.regs φ) (i_mboxes : Skips.mboxes φ) (i_pcie : Skips.pcie φ) (i_out : Skips.out φ) (hU : At φ c₀ s) : AnsAt φ c₀ (execFwStarted d s) := by
  unfold execFwStarted
  try dsimp only
  repeat' first
    | with_reducible assumption
    | intro _
    | with_reducible apply ok_ansAt
    | with_reducible apply ite_ansAt
    | with_reducible apply ite_inv
    | with_reducible exact ok_ansAt (by assumption)
    | with_reducible apply fwStartNote_inv
    | with_reducible apply setFwUp_inv
    | with_reducible apply each_inv
    | with_reducible apply inTake_inv
    | split

theorem lcChange_inv {d : Nat} {t : Nat} (i_regs : Skips.regs φ) (i_dies : Skips.dies φ) (i_pkg : Skips.pkg φ) (i_pcie : Skips.pcie φ) (i_out : Skips.out φ) (hU : At φ c₀ s) : At φ c₀ (lcChange s d t) := by
  unfold lcChange
  try dsimp only
  repeat' first
    | with_reducible assumption
    | intro _
    | with_reducible apply ite_inv
    | with_reducible apply setDie_inv
    | with_reducible apply dbgClose_inv
    | with_reducible apply sessClose_inv
    | with_reducible apply wf_inv
    | with_reducible apply each_inv
    | with_reducible apply allowedFollow_inv
    | with_reducible apply injFollow_inv
    | with_reducible apply raise_inv
    | split

theorem execLifecycleAdvance_ansAt {d : Nat} {sec : Bool} {n : Nat} {good : Bool} (i_regs : Skips.regs φ) (i_mboxes : Skips.mboxes φ) (i_dies : Skips.dies φ) (i_pkg : Skips.pkg φ) (i_pcie : Skips.pcie φ) (i_out : Skips.out φ) (hU : At φ c₀ s) : AnsAt φ c₀ (execLifecycleAdvance d sec n good s) := by
  unfold execLifecycleAdvance
  try dsimp only
  repeat' first
    | with_reducible assumption
    | intro _
    | with_reducible apply ok_ansAt
    | with_reducible apply ite_ansAt
    | with_reducible apply ite_inv
    | with_reducible exact ok_ansAt (by assumption)
    | with_reducible apply inRun_inv
    | with_reducible apply setResult_inv
    | with_reducible apply lcChange_inv
    | split

theorem execOutFull_ansAt {d : Nat} {sec : Bool} {n : Nat} (i_regs : Skips.regs φ) (i_mboxes : Skips.mboxes φ) (i_pcie : Skips.pcie φ) (i_out : Skips.out φ) (hU : At φ c₀ s) : AnsAt φ c₀ (execOutFull d sec n s) := by
  unfold execOutFull
  try dsimp only
  repeat' first
    | with_reducible assumption
    | intro _
    | with_reducible apply ok_ansAt
    | with_reducible apply ite_ansAt
    | with_reducible apply ite_inv
    | with_reducible exact ok_ansAt (by assumption)
    | with_reducible apply setMbox_inv
    | with_reducible apply each_inv
    | with_reducible apply wr_inv
    | with_reducible apply raise_inv
    | with_reducible apply wb_inv
    | with_reducible apply outQueued_inv
    | split

theorem outAck_inv {r : Req} {d : Nat} {sec : Bool} {n : Nat} {v : Word} (i_regs : Skips.regs φ) (i_mboxes : Skips.mboxes φ) (hU : At φ c₀ s) : At φ c₀ (outAck r d sec n v s) := by
  unfold outAck
  try dsimp only
  repeat' first
    | with_reducible assumption
    | intro _
    | with_reducible apply ite_inv
    | with_reducible apply setMbox_inv
    | with_reducible apply wb_inv
    | with_reducible apply logErr_inv
    | split

theorem execNoticeAck_ansAt {r : Req} {d : Nat} {sec : Bool} {n : Nat} {v : Word} (i_regs : Skips.regs φ) (i_mboxes : Skips.mboxes φ) (i_dies : Skips.dies φ) (i_pcie : Skips.pcie φ) (i_resp : Skips.resp φ) (i_out : Skips.out φ) (hU : At φ c₀ s) : AnsAt φ c₀ (execNoticeAck r d sec n v s) := by
  unfold execNoticeAck
  try dsimp only
  repeat' first
    | with_reducible assumption
    | intro _
    | with_reducible apply ok_ansAt
    | with_reducible apply ite_ansAt
    | with_reducible apply ite_inv
    | with_reducible exact ok_ansAt (by assumption)
    | with_reducible apply guardedWrite_inv
    | with_reducible apply outAck_inv
    | split

theorem execInStuck_ansAt {d : Nat} {sec : Bool} {n : Nat} (i_clock : Skips.clock φ) (i_free : Skips.free φ) (i_regs : Skips.regs φ) (i_mboxes : Skips.mboxes φ) (i_dies : Skips.dies φ) (i_pcie : Skips.pcie φ) (i_out : Skips.out φ) (hU : At φ c₀ s) : AnsAt φ c₀ (execInStuck d sec n s) := by
  unfold execInStuck
  try dsimp only
  repeat' first
    | with_reducible assumption
    | intro _
    | with_reducible apply ok_ansAt
    | with_reducible apply ite_ansAt
    | with_reducible apply ite_inv
    | with_reducible exact ok_ansAt (by assumption)
    | with_reducible apply nextFree_inv
    | with_reducible apply waitClock_inv
    | with_reducible apply raise_inv
    | with_reducible apply setMbox_inv
    | split

theorem execOutStuck_ansAt {d : Nat} {sec : Bool} {n : Nat} (i_clock : Skips.clock φ) (i_regs : Skips.regs φ) (i_mboxes : Skips.mboxes φ) (i_dies : Skips.dies φ) (i_pcie : Skips.pcie φ) (i_out : Skips.out φ) (hU : At φ c₀ s) : AnsAt φ c₀ (execOutStuck d sec n s) := by
  unfold execOutStuck
  try dsimp only
  repeat' first
    | with_reducible assumption
    | intro _
    | with_reducible apply ok_ansAt
    | with_reducible apply ite_ansAt
    | with_reducible apply ite_inv
    | with_reducible exact ok_ansAt (by assumption)
    | with_reducible apply waitClock_inv
    | with_reducible apply raise_inv
    | with_reducible apply setMbox_inv
    | split

theorem outClear_inv {d : Nat} {sec : Bool} (i_regs : Skips.regs φ) (i_mboxes : Skips.mboxes φ) (hU : At φ c₀ s) : At φ c₀ (outClear s d sec) := by
  unfold outClear
  try dsimp only
  repeat' first
    | with_reducible assumption
    | intro _
    | with_reducible apply ite_inv
    | with_reducible apply each_inv
    | with_reducible apply wr_inv
    | with_reducible apply setMbox_inv
    | split

theorem mbStop_inv {d : Nat} {sec : Bool} (i_regs : Skips.regs φ) (i_ports : Skips.ports φ) (i_mboxes : Skips.mboxes φ) (i_fws : Skips.fws φ) (i_pcie : Skips.pcie φ) (i_out : Skips.out φ) (hU : At φ c₀ s) : At φ c₀ (mbStop s d sec) := by
  unfold mbStop
  try dsimp only
  repeat' first
    | with_reducible assumption
    | intro _
    | with_reducible apply ite_inv
    | with_reducible apply longEnd_inv
    | with_reducible apply each_inv
    | with_reducible apply inFinish_inv
    | with_reducible apply outClear_inv
    | split

theorem mbResume_inv {d : Nat} {sec : Bool} (i_regs : Skips.regs φ) (i_mboxes : Skips.mboxes φ) (i_pcie : Skips.pcie φ) (i_out : Skips.out φ) (hU : At φ c₀ s) : At φ c₀ (mbResume s d sec) := by
  unfold mbResume
  try dsimp only
  repeat' first
    | with_reducible assumption
    | intro _
    | with_reducible apply ite_inv
    | with_reducible apply each_inv
    | with_reducible apply setMbox_inv
    | with_reducible apply setInState_inv
    | with_reducible apply count_inv
    | with_reducible apply inLoad_inv
    | split

theorem mbReset_inv {d : Nat} {sec : Bool} (i_mboxes : Skips.mboxes φ) (hU : At φ c₀ s) : At φ c₀ (mbReset s d sec) := by
  unfold mbReset
  try dsimp only
  repeat' first
    | with_reducible assumption
    | intro _
    | with_reducible apply ite_inv
    | with_reducible apply each_inv
    | with_reducible apply setMbox_inv
    | split

theorem mbFlr_inv {d : Nat} (i_regs : Skips.regs φ) (i_mboxes : Skips.mboxes φ) (i_pcie : Skips.pcie φ) (i_out : Skips.out φ) (hU : At φ c₀ s) : At φ c₀ (mbFlr s d) := by
  unfold mbFlr
  try dsimp only
  repeat' first
    | with_reducible assumption
    | intro _
    | with_reducible apply ite_inv
    | with_reducible apply each_inv
    | with_reducible apply setInState_inv
    | with_reducible apply setMbox_inv
    | with_reducible apply wr_inv
    | with_reducible apply outClear_inv
    | with_reducible apply raise_inv
    | with_reducible apply wf_inv
    | split

end Sys2Proof.Laws
end

