-- ==== Sys2Proof/Laws/RouteInv.lean ====
section
/-!
SUPPORT. The fields of the state that each operation of `Machine/Route.lean` may change: whatever reads none of them is the same after it.
-/

set_option Elab.async false
set_option linter.unusedTactic false
set_option linter.unreachableTactic false
namespace Sys2Proof.Laws

open Sys2Proof.Machine

variable {α₀ : Type} {φ : State → α₀} {c₀ : α₀} {s : State}

theorem routesFollow_inv (i_regs : Skips.regs φ) (i_pcie : Skips.pcie φ) (i_out : Skips.out φ) (hU : At φ c₀ s) : At φ c₀ (routesFollow s) := by
  unfold routesFollow
  try dsimp only
  repeat' first
    | with_reducible assumption
    | intro _
    | with_reducible apply ite_inv
    | with_reducible apply each_inv
    | with_reducible apply raise_inv
    | with_reducible apply wr_inv
    | split

end Sys2Proof.Laws
end

