-- ==== Sys2Proof/Laws/EncoderInv.lean ====
section
/-!
SUPPORT. The fields of the state that each operation of `Machine/Encoder.lean` may change: whatever reads none of them is the same after it.
-/

set_option Elab.async false
set_option linter.unusedTactic false
set_option linter.unreachableTactic false
namespace Sys2Proof.Laws

open Sys2Proof.Machine

variable {α₀ : Type} {φ : State → α₀} {c₀ : α₀} {s : State}

theorem fit48_inv {z : Int} (i_free : Skips.free φ) (hU : At φ c₀ s) : At φ c₀ (fit48 s z).2 := by
  unfold fit48
  try dsimp only
  repeat' first
    | with_reducible assumption
    | intro _
    | with_reducible apply ite_inv
    | with_reducible apply nextFree_inv
    | split

theorem setSpd_inv {d : Nat} {c : Nat} {v : Int} (i_free : Skips.free φ) (i_regs : Skips.regs φ) (hU : At φ c₀ s) : At φ c₀ (setSpd s d c v) := by
  unfold setSpd
  try dsimp only
  repeat' first
    | with_reducible assumption
    | intro _
    | with_reducible apply ite_inv
    | with_reducible apply fit48_inv
    | with_reducible apply wr48_inv
    | (with_reducible refine pair_inv (by assumption) ?_)
    | split

theorem setPos_inv {d : Nat} {c : Nat} {n : Int} (i_regs : Skips.regs φ) (i_encs : Skips.encs φ) (i_pds : Skips.pds φ) (i_pcie : Skips.pcie φ) (i_out : Skips.out φ) (hU : At φ c₀ s) : At φ c₀ (setPos s d c n) := by
  unfold setPos
  try dsimp only
  repeat' first
    | with_reducible assumption
    | intro _
    | with_reducible apply ite_inv
    | with_reducible apply wr48_inv
    | with_reducible apply winSync_inv
    | with_reducible apply pdMoved_inv
    | with_reducible apply raise_inv
    | split

theorem virtFollow_inv {d : Nat} {c : Nat} (i_regs : Skips.regs φ) (i_encs : Skips.encs φ) (i_pds : Skips.pds φ) (i_pcie : Skips.pcie φ) (i_out : Skips.out φ) (hU : At φ c₀ s) : At φ c₀ (virtFollow s d c) := by
  unfold virtFollow
  try dsimp only
  repeat' first
    | with_reducible assumption
    | intro _
    | with_reducible apply ite_inv
    | with_reducible apply encSync_inv
    | with_reducible apply pdMoved_inv
    | with_reducible apply raise_inv
    | split

theorem posArrange_inv {d : Nat} (i_regs : Skips.regs φ) (i_chutes : Skips.chutes φ) (i_pcie : Skips.pcie φ) (i_out : Skips.out φ) (hU : At φ c₀ s) : At φ c₀ (posArrange s d) := by
  unfold posArrange
  try dsimp only
  repeat' first
    | with_reducible assumption
    | intro _
    | with_reducible apply ite_inv
    | with_reducible apply setChute_inv
    | with_reducible apply each_inv
    | with_reducible apply latch_inv
    | with_reducible apply wf_inv
    | split

theorem posRecord_inv {d : Nat} {key : Nat} {type : Nat} {ch : Nat} {pd : Nat} {count : Int} {stamp : Int} {w5 : Int} {write : Bool} {latch : Bool} (i_regs : Skips.regs φ) (i_chutes : Skips.chutes φ) (i_trigs : Skips.trigs φ) (i_dies : Skips.dies φ) (i_pcie : Skips.pcie φ) (i_out : Skips.out φ) (hU : At φ c₀ s) : At φ c₀ (posRecord s d key type ch pd count stamp w5 write latch) := by
  unfold posRecord
  try dsimp only
  repeat' first
    | with_reducible assumption
    | intro _
    | with_reducible apply ite_inv
    | with_reducible apply count_inv
    | with_reducible apply latch_inv
    | with_reducible apply posArrange_inv
    | with_reducible apply setDie_inv
    | with_reducible apply chuteRecord_inv
    | split

theorem shiftEst_inv {d : Nat} {c : Nat} {amount : Int} (i_regs : Skips.regs φ) (i_encs : Skips.encs φ) (hU : At φ c₀ s) : At φ c₀ (shiftEst s d c amount) := by
  unfold shiftEst
  try dsimp only
  repeat' first
    | with_reducible assumption
    | intro _
    | with_reducible apply ite_inv
    | with_reducible apply winShift_inv
    | with_reducible apply setEnc_inv
    | with_reducible apply wr48_inv
    | split

theorem sendStep_inv {d : Nat} {c : Nat} {amount : Int} {stamp : Int} (i_regs : Skips.regs φ) (i_chutes : Skips.chutes φ) (i_msgs : Skips.msgs φ) (i_trigs : Skips.trigs φ) (i_hops : Skips.hops φ) (i_dies : Skips.dies φ) (i_pcie : Skips.pcie φ) (i_out : Skips.out φ) (hU : At φ c₀ s) : At φ c₀ (sendStep s d c amount stamp) := by
  unfold sendStep
  try dsimp only
  repeat' first
    | with_reducible assumption
    | intro _
    | with_reducible apply ite_inv
    | with_reducible apply encSend_inv
    | with_reducible apply posRecord_inv
    | with_reducible apply raise_inv
    | split

theorem latchSet_inv {d : Nat} {c : Nat} {src : Nat} {pd : Nat} {stamp : Int} (i_free : Skips.free φ) (i_regs : Skips.regs φ) (i_chutes : Skips.chutes φ) (i_encs : Skips.encs φ) (i_trigs : Skips.trigs φ) (i_dies : Skips.dies φ) (i_pcie : Skips.pcie φ) (i_out : Skips.out φ) (hU : At φ c₀ s) : At φ c₀ (latchSet s d c src pd stamp) := by
  unfold latchSet
  try dsimp only
  repeat' first
    | with_reducible assumption
    | intro _
    | with_reducible apply ite_inv
    | with_reducible apply nextFree_inv
    | with_reducible apply setEnc_inv
    | with_reducible apply wr_inv
    | with_reducible apply wr48_inv
    | with_reducible apply posRecord_inv
    | split

theorem takeLatch_inv {d : Nat} {c : Nat} {src : Nat} {pd : Nat} {stamp : Int} (i_free : Skips.free φ) (i_regs : Skips.regs φ) (i_chutes : Skips.chutes φ) (i_encs : Skips.encs φ) (i_trigs : Skips.trigs φ) (i_dies : Skips.dies φ) (i_pcie : Skips.pcie φ) (i_out : Skips.out φ) (hU : At φ c₀ s) : At φ c₀ (takeLatch s d c src pd stamp) := by
  unfold takeLatch
  try dsimp only
  repeat' first
    | with_reducible assumption
    | intro _
    | with_reducible apply ite_inv
    | with_reducible apply latchSet_inv
    | with_reducible apply raise_inv
    | split

theorem latchAgain_inv {d : Nat} {c : Nat} (i_free : Skips.free φ) (i_regs : Skips.regs φ) (i_chutes : Skips.chutes φ) (i_encs : Skips.encs φ) (i_trigs : Skips.trigs φ) (i_dies : Skips.dies φ) (i_pcie : Skips.pcie φ) (i_out : Skips.out φ) (hU : At φ c₀ s) : At φ c₀ (latchAgain s d c) := by
  unfold latchAgain
  try dsimp only
  repeat' first
    | with_reducible assumption
    | intro _
    | with_reducible apply ite_inv
    | with_reducible apply latchSet_inv
    | split

theorem correctPos_inv {d : Nat} {c : Nat} {amount : Int} (i_free : Skips.free φ) (i_regs : Skips.regs φ) (i_chutes : Skips.chutes φ) (i_encs : Skips.encs φ) (i_pds : Skips.pds φ) (i_trigs : Skips.trigs φ) (i_dies : Skips.dies φ) (i_pcie : Skips.pcie φ) (i_out : Skips.out φ) (hU : At φ c₀ s) : At φ c₀ (correctPos s d c amount) := by
  unfold correctPos
  try dsimp only
  repeat' first
    | with_reducible assumption
    | intro _
    | with_reducible apply ite_inv
    | with_reducible apply latchAgain_inv
    | with_reducible apply shiftEst_inv
    | with_reducible apply setPos_inv
    | split

theorem encLoad_inv {d : Nat} {c : Nat} (i_free : Skips.free φ) (i_regs : Skips.regs φ) (i_shad : Skips.shad φ) (i_chutes : Skips.chutes φ) (i_encs : Skips.encs φ) (i_pds : Skips.pds φ) (i_msgs : Skips.msgs φ) (i_trigs : Skips.trigs φ) (i_hops : Skips.hops φ) (i_dies : Skips.dies φ) (i_pcie : Skips.pcie φ) (i_out : Skips.out φ) (hU : At φ c₀ s) : At φ c₀ (encLoad s d c) := by
  unfold encLoad
  try dsimp only
  repeat' first
    | with_reducible assumption
    | intro _
    | with_reducible apply ite_inv
    | with_reducible apply wrShadow_inv
    | with_reducible apply wr_inv
    | with_reducible apply setEnc_inv
    | with_reducible apply latchAgain_inv
    | with_reducible apply sendStep_inv
    | with_reducible apply shiftEst_inv
    | with_reducible apply setPos_inv
    | split

theorem latTrigWrite_inv {d : Nat} {c : Nat} {v : Word} (i_free : Skips.free φ) (i_regs : Skips.regs φ) (i_chutes : Skips.chutes φ) (i_encs : Skips.encs φ) (i_trigs : Skips.trigs φ) (i_dies : Skips.dies φ) (i_pcie : Skips.pcie φ) (i_out : Skips.out φ) (hU : At φ c₀ s) : At φ c₀ (latTrigWrite d c v s) := by
  unfold latTrigWrite
  try dsimp only
  repeat' first
    | with_reducible assumption
    | intro _
    | with_reducible apply ite_inv
    | with_reducible apply takeLatch_inv
    | split

theorem execLatchSw_ansAt {r : Req} {d : Nat} {c : Nat} {v : Word} (i_free : Skips.free φ) (i_regs : Skips.regs φ) (i_chutes : Skips.chutes φ) (i_encs : Skips.encs φ) (i_trigs : Skips.trigs φ) (i_dies : Skips.dies φ) (i_pcie : Skips.pcie φ) (i_resp : Skips.resp φ) (i_out : Skips.out φ) (hU : At φ c₀ s) : AnsAt φ c₀ (execLatchSw r d c v s) := by
  unfold execLatchSw
  try dsimp only
  repeat' first
    | with_reducible assumption
    | intro _
    | with_reducible apply ok_ansAt
    | with_reducible apply ite_ansAt
    | with_reducible apply ite_inv
    | with_reducible exact ok_ansAt (by assumption)
    | with_reducible apply guardedWrite_inv
    | with_reducible apply latTrigWrite_inv
    | split

theorem execLatchPeriodic_ansAt {d : Nat} {c : Nat} (i_clock : Skips.clock φ) (i_free : Skips.free φ) (i_regs : Skips.regs φ) (i_chutes : Skips.chutes φ) (i_encs : Skips.encs φ) (i_trigs : Skips.trigs φ) (i_dies : Skips.dies φ) (i_pcie : Skips.pcie φ) (i_out : Skips.out φ) (hU : At φ c₀ s) : AnsAt φ c₀ (execLatchPeriodic d c s) := by
  unfold execLatchPeriodic
  try dsimp only
  repeat' first
    | with_reducible assumption
    | intro _
    | with_reducible apply ok_ansAt
    | with_reducible apply ite_ansAt
    | with_reducible apply ite_inv
    | with_reducible apply waitClock_inv
    | with_reducible apply setEnc_inv
    | with_reducible exact ok_ansAt (by assumption)
    | with_reducible apply takeLatch_inv
    | split

theorem illegalSample_inv {d : Nat} {c : Nat} (i_free : Skips.free φ) (i_regs : Skips.regs φ) (i_shad : Skips.shad φ) (i_hold : Skips.hold φ) (i_fences : Skips.fences φ) (i_ecc : Skips.ecc φ) (i_chutes : Skips.chutes φ) (i_ctxs : Skips.ctxs φ) (i_ports : Skips.ports φ) (i_encs : Skips.encs φ) (i_pds : Skips.pds φ) (i_seamQ : Skips.seamQ φ) (i_echos : Skips.echos φ) (i_mems : Skips.mems φ) (i_msgs : Skips.msgs φ) (i_axes : Skips.axes φ) (i_hoists : Skips.hoists φ) (i_trigs : Skips.trigs φ) (i_cqWait : Skips.cqWait φ) (i_cqSeq : Skips.cqSeq φ) (i_assays : Skips.assays φ) (i_therms : Skips.therms φ) (i_lamps : Skips.lamps φ) (i_mboxes : Skips.mboxes φ) (i_fws : Skips.fws φ) (i_tsync : Skips.tsync φ) (i_hops : Skips.hops φ) (i_dies : Skips.dies φ) (i_pkg : Skips.pkg φ) (i_pcie : Skips.pcie φ) (i_out : Skips.out φ) (hU : At φ c₀ s) : At φ c₀ (illegalSample s d c).2 := by
  unfold illegalSample
  try dsimp only
  repeat' first
    | with_reducible assumption
    | intro _
    | with_reducible apply ite_inv
    | with_reducible apply raise_inv
    | with_reducible apply count_inv
    | with_reducible apply fencePage_inv
    | split

theorem periodResult_i {d c : Nat} (i_free : Skips.free φ) (hU : At φ c₀ s) {v : Int} {tU : State}
    (e : periodResult s d c = some (v, tU)) : At φ c₀ tU := by
  unfold periodResult at e
  dsimp only at e
  repeat' split at e
  all_goals first
    | (cases e; done)
    | (cases e; first
        | exact hU
        | exact nextFree_inv i_free hU)

theorem setMethod_inv {d : Nat} {c : Nat} {period : Bool} (i_regs : Skips.regs φ) (i_pcie : Skips.pcie φ) (i_out : Skips.out φ) (hU : At φ c₀ s) : At φ c₀ (setMethod s d c period) := by
  unfold setMethod
  try dsimp only
  repeat' first
    | with_reducible assumption
    | intro _
    | with_reducible apply ite_inv
    | with_reducible apply raise_inv
    | with_reducible apply wb_inv
    | split

theorem periodEdge_inv {d : Nat} {c : Nat} (i_free : Skips.free φ) (i_regs : Skips.regs φ) (i_pcie : Skips.pcie φ) (i_out : Skips.out φ) (hU : At φ c₀ s) : At φ c₀ (periodEdge s d c) := by
  unfold periodEdge
  try dsimp only
  repeat' first
    | with_reducible assumption
    | intro _
    | with_reducible apply ite_inv
    | (with_reducible refine periodResult_i ?_ ?_ (by assumption))
    | with_reducible apply setSpd_inv
    | with_reducible apply setMethod_inv
    | split

theorem pushEdges_inv {d : Nat} {c : Nat} {n : Nat} {stamp : Int} {back : Bool} (i_regs : Skips.regs φ) (i_encs : Skips.encs φ) (hU : At φ c₀ s) : At φ c₀ (pushEdges s d c n stamp back) := by
  unfold pushEdges
  try dsimp only
  repeat' first
    | with_reducible assumption
    | intro _
    | with_reducible apply ite_inv
    | with_reducible apply wb_inv
    | with_reducible apply setEnc_inv
    | split

theorem countBySample_inv {d : Nat} {c : Nat} {delta : Int} {stamp : Int} (i_free : Skips.free φ) (i_regs : Skips.regs φ) (i_chutes : Skips.chutes φ) (i_encs : Skips.encs φ) (i_pds : Skips.pds φ) (i_trigs : Skips.trigs φ) (i_dies : Skips.dies φ) (i_pcie : Skips.pcie φ) (i_out : Skips.out φ) (hU : At φ c₀ s) : At φ c₀ (countBySample s d c delta stamp) := by
  unfold countBySample
  try dsimp only
  repeat' first
    | with_reducible assumption
    | intro _
    | with_reducible apply ite_inv
    | with_reducible apply setPos_inv
    | with_reducible apply pushEdges_inv
    | with_reducible apply setDyn_inv
    | with_reducible apply wb_inv
    | with_reducible apply latchAgain_inv
    | with_reducible apply periodEdge_inv
    | with_reducible apply setEnc_inv
    | split

theorem abSample_inv {d : Nat} {c : Nat} {ab : Nat} (i_free : Skips.free φ) (i_regs : Skips.regs φ) (i_shad : Skips.shad φ) (i_hold : Skips.hold φ) (i_fences : Skips.fences φ) (i_ecc : Skips.ecc φ) (i_chutes : Skips.chutes φ) (i_ctxs : Skips.ctxs φ) (i_ports : Skips.ports φ) (i_encs : Skips.encs φ) (i_pds : Skips.pds φ) (i_seamQ : Skips.seamQ φ) (i_echos : Skips.echos φ) (i_mems : Skips.mems φ) (i_msgs : Skips.msgs φ) (i_axes : Skips.axes φ) (i_hoists : Skips.hoists φ) (i_trigs : Skips.trigs φ) (i_cqWait : Skips.cqWait φ) (i_cqSeq : Skips.cqSeq φ) (i_assays : Skips.assays φ) (i_therms : Skips.therms φ) (i_lamps : Skips.lamps φ) (i_mboxes : Skips.mboxes φ) (i_fws : Skips.fws φ) (i_tsync : Skips.tsync φ) (i_hops : Skips.hops φ) (i_dies : Skips.dies φ) (i_pkg : Skips.pkg φ) (i_pcie : Skips.pcie φ) (i_out : Skips.out φ) (hU : At φ c₀ s) : At φ c₀ (abSample s d c ab) := by
  unfold abSample
  try dsimp only
  repeat' first
    | with_reducible assumption
    | intro _
    | with_reducible apply ite_inv
    | with_reducible apply setEnc_inv
    | with_reducible apply countBySample_inv
    | with_reducible apply illegalSample_inv
    | (with_reducible refine pair_inv (by assumption) ?_)
    | split

theorem execEncCount_ansAt {d : Nat} {c : Nat} {la : List Bool} {lb : List Bool} (i_clock : Skips.clock φ) (i_free : Skips.free φ) (i_regs : Skips.regs φ) (i_shad : Skips.shad φ) (i_hold : Skips.hold φ) (i_fences : Skips.fences φ) (i_ecc : Skips.ecc φ) (i_chutes : Skips.chutes φ) (i_ctxs : Skips.ctxs φ) (i_ports : Skips.ports φ) (i_encs : Skips.encs φ) (i_pds : Skips.pds φ) (i_seamQ : Skips.seamQ φ) (i_echos : Skips.echos φ) (i_mems : Skips.mems φ) (i_msgs : Skips.msgs φ) (i_axes : Skips.axes φ) (i_hoists : Skips.hoists φ) (i_trigs : Skips.trigs φ) (i_cqWait : Skips.cqWait φ) (i_cqSeq : Skips.cqSeq φ) (i_assays : Skips.assays φ) (i_therms : Skips.therms φ) (i_lamps : Skips.lamps φ) (i_mboxes : Skips.mboxes φ) (i_fws : Skips.fws φ) (i_tsync : Skips.tsync φ) (i_hops : Skips.hops φ) (i_dies : Skips.dies φ) (i_pkg : Skips.pkg φ) (i_pcie : Skips.pcie φ) (i_out : Skips.out φ) (hU : At φ c₀ s) : AnsAt φ c₀ (execEncCount d c la lb s) := by
  unfold execEncCount
  try dsimp only
  repeat' first
    | with_reducible assumption
    | intro _
    | with_reducible apply ok_ansAt
    | with_reducible apply ite_ansAt
    | with_reducible apply ite_inv
    | with_reducible exact ok_ansAt (by assumption)
    | with_reducible apply abSample_inv
    | with_reducible apply waitClock_inv
    | split

theorem correctStep_inv {d : Nat} {c : Nat} {amount : Int} {stamp : Int} (i_free : Skips.free φ) (i_regs : Skips.regs φ) (i_chutes : Skips.chutes φ) (i_encs : Skips.encs φ) (i_pds : Skips.pds φ) (i_msgs : Skips.msgs φ) (i_trigs : Skips.trigs φ) (i_hops : Skips.hops φ) (i_dies : Skips.dies φ) (i_pcie : Skips.pcie φ) (i_out : Skips.out φ) (hU : At φ c₀ s) : At φ c₀ (correctStep s d c amount stamp) := by
  unfold correctStep
  try dsimp only
  repeat' first
    | with_reducible assumption
    | intro _
    | with_reducible apply ite_inv
    | with_reducible apply sendStep_inv
    | with_reducible apply correctPos_inv
    | split

theorem idxMismatch_inv {d : Nat} {c : Nat} {cnt : Int} {dist : Int} {stamp : Int} (i_regs : Skips.regs φ) (i_chutes : Skips.chutes φ) (i_trigs : Skips.trigs φ) (i_dies : Skips.dies φ) (i_pcie : Skips.pcie φ) (i_out : Skips.out φ) (hU : At φ c₀ s) : At φ c₀ (idxMismatch s d c cnt dist stamp) := by
  unfold idxMismatch
  try dsimp only
  repeat' first
    | with_reducible assumption
    | intro _
    | with_reducible apply ite_inv
    | with_reducible apply wr48_inv
    | with_reducible apply posRecord_inv
    | with_reducible apply raise_inv
    | with_reducible apply count_inv
    | split

theorem idxCheck_inv {d : Nat} {c : Nat} {stamp : Int} (i_free : Skips.free φ) (i_regs : Skips.regs φ) (i_shad : Skips.shad φ) (i_hold : Skips.hold φ) (i_fences : Skips.fences φ) (i_ecc : Skips.ecc φ) (i_chutes : Skips.chutes φ) (i_ctxs : Skips.ctxs φ) (i_ports : Skips.ports φ) (i_encs : Skips.encs φ) (i_pds : Skips.pds φ) (i_seamQ : Skips.seamQ φ) (i_echos : Skips.echos φ) (i_mems : Skips.mems φ) (i_msgs : Skips.msgs φ) (i_axes : Skips.axes φ) (i_hoists : Skips.hoists φ) (i_trigs : Skips.trigs φ) (i_cqWait : Skips.cqWait φ) (i_cqSeq : Skips.cqSeq φ) (i_assays : Skips.assays φ) (i_therms : Skips.therms φ) (i_lamps : Skips.lamps φ) (i_mboxes : Skips.mboxes φ) (i_fws : Skips.fws φ) (i_tsync : Skips.tsync φ) (i_hops : Skips.hops φ) (i_dies : Skips.dies φ) (i_pkg : Skips.pkg φ) (i_pcie : Skips.pcie φ) (i_out : Skips.out φ) (hU : At φ c₀ s) : At φ c₀ (idxCheck s d c stamp) := by
  unfold idxCheck
  try dsimp only
  repeat' first
    | with_reducible assumption
    | intro _
    | with_reducible apply ite_inv
    | with_reducible apply count_inv
    | with_reducible apply wrShadow_inv
    | with_reducible apply wb_inv
    | with_reducible apply correctStep_inv
    | with_reducible apply correctPos_inv
    | with_reducible apply idxMismatch_inv
    | with_reducible apply fencePage_inv
    | split

theorem zSample_inv {d : Nat} {c : Nat} {z : Bool} (i_free : Skips.free φ) (i_regs : Skips.regs φ) (i_shad : Skips.shad φ) (i_hold : Skips.hold φ) (i_fences : Skips.fences φ) (i_ecc : Skips.ecc φ) (i_chutes : Skips.chutes φ) (i_ctxs : Skips.ctxs φ) (i_ports : Skips.ports φ) (i_encs : Skips.encs φ) (i_pds : Skips.pds φ) (i_seamQ : Skips.seamQ φ) (i_echos : Skips.echos φ) (i_mems : Skips.mems φ) (i_msgs : Skips.msgs φ) (i_axes : Skips.axes φ) (i_hoists : Skips.hoists φ) (i_trigs : Skips.trigs φ) (i_cqWait : Skips.cqWait φ) (i_cqSeq : Skips.cqSeq φ) (i_assays : Skips.assays φ) (i_therms : Skips.therms φ) (i_lamps : Skips.lamps φ) (i_mboxes : Skips.mboxes φ) (i_fws : Skips.fws φ) (i_tsync : Skips.tsync φ) (i_hops : Skips.hops φ) (i_dies : Skips.dies φ) (i_pkg : Skips.pkg φ) (i_pcie : Skips.pcie φ) (i_out : Skips.out φ) (hU : At φ c₀ s) : At φ c₀ (zSample s d c z) := by
  unfold zSample
  try dsimp only
  repeat' first
    | with_reducible assumption
    | intro _
    | with_reducible apply ite_inv
    | with_reducible apply setEnc_inv
    | with_reducible apply raise_inv
    | with_reducible apply count_inv
    | with_reducible apply idxCheck_inv
    | with_reducible apply takeLatch_inv
    | split

theorem execIndex_ansAt {d : Nat} {c : Nat} {raw : List Bool} (i_clock : Skips.clock φ) (i_free : Skips.free φ) (i_regs : Skips.regs φ) (i_shad : Skips.shad φ) (i_hold : Skips.hold φ) (i_fences : Skips.fences φ) (i_ecc : Skips.ecc φ) (i_chutes : Skips.chutes φ) (i_ctxs : Skips.ctxs φ) (i_ports : Skips.ports φ) (i_encs : Skips.encs φ) (i_pds : Skips.pds φ) (i_seamQ : Skips.seamQ φ) (i_echos : Skips.echos φ) (i_mems : Skips.mems φ) (i_msgs : Skips.msgs φ) (i_axes : Skips.axes φ) (i_hoists : Skips.hoists φ) (i_trigs : Skips.trigs φ) (i_cqWait : Skips.cqWait φ) (i_cqSeq : Skips.cqSeq φ) (i_assays : Skips.assays φ) (i_therms : Skips.therms φ) (i_lamps : Skips.lamps φ) (i_mboxes : Skips.mboxes φ) (i_fws : Skips.fws φ) (i_tsync : Skips.tsync φ) (i_hops : Skips.hops φ) (i_dies : Skips.dies φ) (i_pkg : Skips.pkg φ) (i_pcie : Skips.pcie φ) (i_out : Skips.out φ) (hU : At φ c₀ s) : AnsAt φ c₀ (execIndex d c raw s) := by
  unfold execIndex
  try dsimp only
  repeat' first
    | with_reducible assumption
    | intro _
    | with_reducible apply ok_ansAt
    | with_reducible apply ite_ansAt
    | with_reducible apply ite_inv
    | with_reducible exact ok_ansAt (by assumption)
    | with_reducible apply zSample_inv
    | with_reducible apply waitClock_inv
    | split

theorem windowEnd_inv {d : Nat} {c : Nat} (i_free : Skips.free φ) (i_regs : Skips.regs φ) (i_encs : Skips.encs φ) (i_pcie : Skips.pcie φ) (i_out : Skips.out φ) (hU : At φ c₀ s) : At φ c₀ (windowEnd s d c) := by
  unfold windowEnd
  try dsimp only
  repeat' first
    | with_reducible assumption
    | intro _
    | with_reducible apply ite_inv
    | with_reducible apply winSync_inv
    | with_reducible apply setEnc_inv
    | with_reducible apply setSpd_inv
    | with_reducible apply setMethod_inv
    | split

theorem execSpeedWindow_ansAt {d : Nat} {c : Nat} (i_clock : Skips.clock φ) (i_free : Skips.free φ) (i_regs : Skips.regs φ) (i_encs : Skips.encs φ) (i_dies : Skips.dies φ) (i_pcie : Skips.pcie φ) (i_out : Skips.out φ) (hU : At φ c₀ s) : AnsAt φ c₀ (execSpeedWindow d c s) := by
  unfold execSpeedWindow
  try dsimp only
  repeat' first
    | with_reducible assumption
    | intro _
    | with_reducible apply ok_ansAt
    | with_reducible apply ite_ansAt
    | with_reducible apply ite_inv
    | with_reducible exact ok_ansAt (by assumption)
    | with_reducible apply windowEnd_inv
    | with_reducible apply waitClock_inv
    | split

theorem execPeriodSpeedLimit_ansAt {d : Nat} {c : Nat} (i_clock : Skips.clock φ) (i_free : Skips.free φ) (i_regs : Skips.regs φ) (i_encs : Skips.encs φ) (i_dies : Skips.dies φ) (i_pcie : Skips.pcie φ) (i_out : Skips.out φ) (hU : At φ c₀ s) : AnsAt φ c₀ (execPeriodSpeedLimit d c s) := by
  unfold execPeriodSpeedLimit
  try dsimp only
  repeat' first
    | with_reducible assumption
    | intro _
    | with_reducible apply ok_ansAt
    | with_reducible apply ite_ansAt
    | with_reducible apply ite_inv
    | with_reducible apply waitClock_inv
    | with_reducible apply setEnc_inv
    | with_reducible exact ok_ansAt (by assumption)
    | with_reducible apply setSpd_inv
    | split

theorem execSpeedStopped_ansAt {d : Nat} {c : Nat} (i_clock : Skips.clock φ) (i_free : Skips.free φ) (i_regs : Skips.regs φ) (i_dies : Skips.dies φ) (i_pcie : Skips.pcie φ) (i_out : Skips.out φ) (hU : At φ c₀ s) : AnsAt φ c₀ (execSpeedStopped d c s) := by
  unfold execSpeedStopped
  try dsimp only
  repeat' first
    | with_reducible assumption
    | intro _
    | with_reducible apply ok_ansAt
    | with_reducible apply ite_ansAt
    | with_reducible apply ite_inv
    | with_reducible apply waitClock_inv
    | with_reducible exact ok_ansAt (by assumption)
    | with_reducible apply wb_inv
    | with_reducible apply setSpd_inv
    | split

theorem serFail_inv {d : Nat} {c : Nat} {code : Nat} (i_free : Skips.free φ) (i_regs : Skips.regs φ) (i_shad : Skips.shad φ) (i_hold : Skips.hold φ) (i_fences : Skips.fences φ) (i_ecc : Skips.ecc φ) (i_chutes : Skips.chutes φ) (i_ctxs : Skips.ctxs φ) (i_ports : Skips.ports φ) (i_encs : Skips.encs φ) (i_pds : Skips.pds φ) (i_seamQ : Skips.seamQ φ) (i_echos : Skips.echos φ) (i_mems : Skips.mems φ) (i_msgs : Skips.msgs φ) (i_axes : Skips.axes φ) (i_hoists : Skips.hoists φ) (i_trigs : Skips.trigs φ) (i_cqWait : Skips.cqWait φ) (i_cqSeq : Skips.cqSeq φ) (i_assays : Skips.assays φ) (i_therms : Skips.therms φ) (i_lamps : Skips.lamps φ) (i_mboxes : Skips.mboxes φ) (i_fws : Skips.fws φ) (i_tsync : Skips.tsync φ) (i_hops : Skips.hops φ) (i_dies : Skips.dies φ) (i_pkg : Skips.pkg φ) (i_pcie : Skips.pcie φ) (i_out : Skips.out φ) (hU : At φ c₀ s) : At φ c₀ (serFail s d c code) := by
  unfold serFail
  try dsimp only
  repeat' first
    | with_reducible assumption
    | intro _
    | with_reducible apply ite_inv
    | with_reducible apply wf_inv
    | with_reducible apply count_inv
    | with_reducible apply raise_inv
    | with_reducible apply setEnc_inv
    | with_reducible apply fencePage_inv
    | split

theorem execSerialFrameStart_ansAt {d : Nat} {c : Nat} {slo : Bool} (i_clock : Skips.clock φ) (i_free : Skips.free φ) (i_regs : Skips.regs φ) (i_shad : Skips.shad φ) (i_hold : Skips.hold φ) (i_fences : Skips.fences φ) (i_ecc : Skips.ecc φ) (i_chutes : Skips.chutes φ) (i_ctxs : Skips.ctxs φ) (i_ports : Skips.ports φ) (i_encs : Skips.encs φ) (i_pds : Skips.pds φ) (i_seamQ : Skips.seamQ φ) (i_echos : Skips.echos φ) (i_mems : Skips.mems φ) (i_msgs : Skips.msgs φ) (i_axes : Skips.axes φ) (i_hoists : Skips.hoists φ) (i_trigs : Skips.trigs φ) (i_cqWait : Skips.cqWait φ) (i_cqSeq : Skips.cqSeq φ) (i_assays : Skips.assays φ) (i_therms : Skips.therms φ) (i_lamps : Skips.lamps φ) (i_mboxes : Skips.mboxes φ) (i_fws : Skips.fws φ) (i_tsync : Skips.tsync φ) (i_hops : Skips.hops φ) (i_dies : Skips.dies φ) (i_pkg : Skips.pkg φ) (i_pcie : Skips.pcie φ) (i_out : Skips.out φ) (hU : At φ c₀ s) : AnsAt φ c₀ (execSerialFrameStart d c slo s) := by
  unfold execSerialFrameStart
  try dsimp only
  repeat' first
    | with_reducible assumption
    | intro _
    | with_reducible apply ok_ansAt
    | with_reducible apply ite_ansAt
    | with_reducible apply ite_inv
    | with_reducible apply waitClock_inv
    | with_reducible exact ok_ansAt (by assumption)
    | with_reducible apply setEnc_inv
    | with_reducible apply serFail_inv
    | with_reducible apply padB_inv
    | split

theorem serUse_inv {d : Nat} {c : Nat} {value : Nat} {delta : Option Int} {warn : Bool} (i_free : Skips.free φ) (i_regs : Skips.regs φ) (i_chutes : Skips.chutes φ) (i_ports : Skips.ports φ) (i_encs : Skips.encs φ) (i_pds : Skips.pds φ) (i_trigs : Skips.trigs φ) (i_therms : Skips.therms φ) (i_dies : Skips.dies φ) (i_pkg : Skips.pkg φ) (i_pcie : Skips.pcie φ) (i_out : Skips.out φ) (hU : At φ c₀ s) : At φ c₀ (serUse s d c value delta warn) := by
  unfold serUse
  try dsimp only
  repeat' first
    | with_reducible assumption
    | intro _
    | with_reducible apply ite_inv
    | with_reducible apply setEnc_inv
    | with_reducible apply wb_inv
    | with_reducible apply wf_inv
    | with_reducible apply warn_inv
    | with_reducible apply setPos_inv
    | with_reducible apply raise_inv
    | with_reducible apply latchAgain_inv
    | split

theorem serPassed_inv {d : Nat} {c : Nat} {value : Nat} {warn : Bool} (i_free : Skips.free φ) (i_regs : Skips.regs φ) (i_shad : Skips.shad φ) (i_hold : Skips.hold φ) (i_fences : Skips.fences φ) (i_ecc : Skips.ecc φ) (i_chutes : Skips.chutes φ) (i_ctxs : Skips.ctxs φ) (i_ports : Skips.ports φ) (i_encs : Skips.encs φ) (i_pds : Skips.pds φ) (i_seamQ : Skips.seamQ φ) (i_echos : Skips.echos φ) (i_mems : Skips.mems φ) (i_msgs : Skips.msgs φ) (i_axes : Skips.axes φ) (i_hoists : Skips.hoists φ) (i_trigs : Skips.trigs φ) (i_cqWait : Skips.cqWait φ) (i_cqSeq : Skips.cqSeq φ) (i_assays : Skips.assays φ) (i_therms : Skips.therms φ) (i_lamps : Skips.lamps φ) (i_mboxes : Skips.mboxes φ) (i_fws : Skips.fws φ) (i_tsync : Skips.tsync φ) (i_hops : Skips.hops φ) (i_dies : Skips.dies φ) (i_pkg : Skips.pkg φ) (i_pcie : Skips.pcie φ) (i_out : Skips.out φ) (hU : At φ c₀ s) : At φ c₀ (serPassed s d c value warn) := by
  unfold serPassed
  try dsimp only
  repeat' first
    | with_reducible assumption
    | intro _
    | with_reducible apply ite_inv
    | with_reducible apply serUse_inv
    | with_reducible apply warn_inv
    | with_reducible apply serFail_inv
    | split

theorem serStale_inv {d : Nat} {c : Nat} (i_regs : Skips.regs φ) (i_encs : Skips.encs φ) (hU : At φ c₀ s) : At φ c₀ (serStale s d c) := by
  unfold serStale
  try dsimp only
  repeat' first
    | with_reducible assumption
    | intro _
    | with_reducible apply ite_inv
    | with_reducible apply wf_inv
    | with_reducible apply count_inv
    | with_reducible apply setEnc_inv
    | split

theorem serLine_inv {d : Nat} {c : Nat} {line : Nat} (i_free : Skips.free φ) (i_regs : Skips.regs φ) (hU : At φ c₀ s) : At φ c₀ (serLine s d c line) := by
  unfold serLine
  try dsimp only
  repeat' first
    | with_reducible assumption
    | intro _
    | with_reducible apply ite_inv
    | with_reducible apply wf_inv
    | with_reducible apply nextFree_inv
    | split

theorem serEnd_inv {d : Nat} {c : Nat} {f : SerFrame} (i_free : Skips.free φ) (i_regs : Skips.regs φ) (i_shad : Skips.shad φ) (i_hold : Skips.hold φ) (i_fences : Skips.fences φ) (i_ecc : Skips.ecc φ) (i_chutes : Skips.chutes φ) (i_ctxs : Skips.ctxs φ) (i_ports : Skips.ports φ) (i_encs : Skips.encs φ) (i_pds : Skips.pds φ) (i_seamQ : Skips.seamQ φ) (i_echos : Skips.echos φ) (i_mems : Skips.mems φ) (i_msgs : Skips.msgs φ) (i_axes : Skips.axes φ) (i_hoists : Skips.hoists φ) (i_trigs : Skips.trigs φ) (i_cqWait : Skips.cqWait φ) (i_cqSeq : Skips.cqSeq φ) (i_assays : Skips.assays φ) (i_therms : Skips.therms φ) (i_lamps : Skips.lamps φ) (i_mboxes : Skips.mboxes φ) (i_fws : Skips.fws φ) (i_tsync : Skips.tsync φ) (i_hops : Skips.hops φ) (i_dies : Skips.dies φ) (i_pkg : Skips.pkg φ) (i_pcie : Skips.pcie φ) (i_out : Skips.out φ) (hU : At φ c₀ s) : At φ c₀ (serEnd s d c f) := by
  unfold serEnd
  try dsimp only
  repeat' first
    | with_reducible assumption
    | intro _
    | with_reducible apply ite_inv
    | with_reducible apply injPick_inv
    | with_reducible apply serFail_inv
    | with_reducible apply serLine_inv
    | with_reducible apply serStale_inv
    | with_reducible apply serPassed_inv
    | (with_reducible refine pair_inv (by assumption) ?_)
    | split

theorem serShut_inv {d : Nat} {c : Nat} (i_encs : Skips.encs φ) (i_out : Skips.out φ) (hU : At φ c₀ s) : At φ c₀ (serShut s d c) := by
  unfold serShut
  try dsimp only
  repeat' first
    | with_reducible assumption
    | intro _
    | with_reducible apply ite_inv
    | with_reducible apply serDrop_inv
    | split

theorem execSerialFrameEnd_ansAt {d : Nat} {c : Nat} {f : SerFrame} (i_free : Skips.free φ) (i_regs : Skips.regs φ) (i_shad : Skips.shad φ) (i_hold : Skips.hold φ) (i_fences : Skips.fences φ) (i_ecc : Skips.ecc φ) (i_chutes : Skips.chutes φ) (i_ctxs : Skips.ctxs φ) (i_ports : Skips.ports φ) (i_encs : Skips.encs φ) (i_pds : Skips.pds φ) (i_seamQ : Skips.seamQ φ) (i_echos : Skips.echos φ) (i_mems : Skips.mems φ) (i_msgs : Skips.msgs φ) (i_axes : Skips.axes φ) (i_hoists : Skips.hoists φ) (i_trigs : Skips.trigs φ) (i_cqWait : Skips.cqWait φ) (i_cqSeq : Skips.cqSeq φ) (i_assays : Skips.assays φ) (i_therms : Skips.therms φ) (i_lamps : Skips.lamps φ) (i_mboxes : Skips.mboxes φ) (i_fws : Skips.fws φ) (i_tsync : Skips.tsync φ) (i_hops : Skips.hops φ) (i_dies : Skips.dies φ) (i_pkg : Skips.pkg φ) (i_pcie : Skips.pcie φ) (i_out : Skips.out φ) (hU : At φ c₀ s) : AnsAt φ c₀ (execSerialFrameEnd d c f s) := by
  unfold execSerialFrameEnd
  try dsimp only
  repeat' first
    | with_reducible assumption
    | intro _
    | with_reducible apply ok_ansAt
    | with_reducible apply ite_ansAt
    | with_reducible apply ite_inv
    | with_reducible exact ok_ansAt (by assumption)
    | with_reducible apply padB_inv
    | with_reducible apply serEnd_inv
    | with_reducible apply serShut_inv
    | split

theorem execSerialTimeout_ansAt {d : Nat} {c : Nat} {ack : Bool} (i_free : Skips.free φ) (i_regs : Skips.regs φ) (i_shad : Skips.shad φ) (i_hold : Skips.hold φ) (i_fences : Skips.fences φ) (i_ecc : Skips.ecc φ) (i_chutes : Skips.chutes φ) (i_ctxs : Skips.ctxs φ) (i_ports : Skips.ports φ) (i_encs : Skips.encs φ) (i_pds : Skips.pds φ) (i_seamQ : Skips.seamQ φ) (i_echos : Skips.echos φ) (i_mems : Skips.mems φ) (i_msgs : Skips.msgs φ) (i_axes : Skips.axes φ) (i_hoists : Skips.hoists φ) (i_trigs : Skips.trigs φ) (i_cqWait : Skips.cqWait φ) (i_cqSeq : Skips.cqSeq φ) (i_assays : Skips.assays φ) (i_therms : Skips.therms φ) (i_lamps : Skips.lamps φ) (i_mboxes : Skips.mboxes φ) (i_fws : Skips.fws φ) (i_tsync : Skips.tsync φ) (i_hops : Skips.hops φ) (i_dies : Skips.dies φ) (i_pkg : Skips.pkg φ) (i_pcie : Skips.pcie φ) (i_out : Skips.out φ) (hU : At φ c₀ s) : AnsAt φ c₀ (execSerialTimeout d c ack s) := by
  unfold execSerialTimeout
  try dsimp only
  repeat' first
    | with_reducible assumption
    | intro _
    | with_reducible apply ok_ansAt
    | with_reducible apply ite_ansAt
    | with_reducible apply ite_inv
    | with_reducible exact ok_ansAt (by assumption)
    | with_reducible apply padB_inv
    | with_reducible apply serFail_inv
    | with_reducible apply serShut_inv
    | split

theorem estPublish_inv {d : Nat} {c : Nat} {p : Int} {v : Int} {a : Int} {valid : Bool} (i_regs : Skips.regs φ) (i_encs : Skips.encs φ) (i_msgs : Skips.msgs φ) (i_hops : Skips.hops φ) (i_pcie : Skips.pcie φ) (i_out : Skips.out φ) (hU : At φ c₀ s) : At φ c₀ (estPublish s d c p v a valid) := by
  unfold estPublish
  try dsimp only
  repeat' first
    | with_reducible assumption
    | intro _
    | with_reducible apply ite_inv
    | with_reducible apply setEnc_inv
    | with_reducible apply wr48_inv
    | with_reducible apply setDyn_inv
    | with_reducible apply wb_inv
    | with_reducible apply encSend_inv
    | split

theorem estNext_inv {d : Nat} {c : Nat} (i_free : Skips.free φ) (hU : At φ c₀ s) : At φ c₀ (estNext s d c).2 := by
  unfold estNext
  try dsimp only
  repeat' first
    | with_reducible assumption
    | intro _
    | with_reducible apply ite_inv
    | with_reducible apply nextFree_inv
    | with_reducible apply fit48_inv
    | (with_reducible refine pair_inv (by assumption) ?_)
    | split

theorem estRestart_inv {d : Nat} {c : Nat} (i_regs : Skips.regs φ) (i_encs : Skips.encs φ) (i_pcie : Skips.pcie φ) (i_out : Skips.out φ) (hU : At φ c₀ s) : At φ c₀ (estRestart s d c).2 := by
  unfold estRestart
  try dsimp only
  repeat' first
    | with_reducible assumption
    | intro _
    | with_reducible apply ite_inv
    | with_reducible apply setEnc_inv
    | with_reducible apply wf_inv
    | with_reducible apply raise_inv
    | split

theorem estStill_inv {d : Nat} {c : Nat} {e : Int × Int × Int} (i_regs : Skips.regs φ) (i_encs : Skips.encs φ) (hU : At φ c₀ s) : At φ c₀ (estStill s d c e).2 := by
  unfold estStill
  try dsimp only
  repeat' first
    | with_reducible assumption
    | intro _
    | with_reducible apply ite_inv
    | with_reducible apply setEnc_inv
    | with_reducible apply wb_inv
    | split

theorem estUpdate_inv {d : Nat} {c : Nat} (i_free : Skips.free φ) (i_regs : Skips.regs φ) (i_encs : Skips.encs φ) (i_msgs : Skips.msgs φ) (i_hops : Skips.hops φ) (i_pcie : Skips.pcie φ) (i_out : Skips.out φ) (hU : At φ c₀ s) : At φ c₀ (estUpdate s d c) := by
  unfold estUpdate
  try dsimp only
  repeat' first
    | with_reducible assumption
    | intro _
    | with_reducible apply ite_inv
    | with_reducible apply estRestart_inv
    | with_reducible apply estNext_inv
    | with_reducible apply estStill_inv
    | with_reducible apply wf_inv
    | with_reducible apply estPublish_inv
    | with_reducible apply wb_inv
    | (with_reducible refine pair_inv (by assumption) ?_)
    | split

theorem virtUpdate_inv {d : Nat} {c : Nat} (i_free : Skips.free φ) (i_regs : Skips.regs φ) (i_encs : Skips.encs φ) (i_pds : Skips.pds φ) (i_msgs : Skips.msgs φ) (i_hops : Skips.hops φ) (i_pcie : Skips.pcie φ) (i_out : Skips.out φ) (hU : At φ c₀ s) : At φ c₀ (virtUpdate s d c) := by
  unfold virtUpdate
  try dsimp only
  repeat' first
    | with_reducible assumption
    | intro _
    | with_reducible apply ite_inv
    | with_reducible apply encLost_inv
    | with_reducible apply encInvalid_inv
    | with_reducible apply setEnc_inv
    | with_reducible apply virtFollow_inv
    | with_reducible apply estPublish_inv
    | with_reducible apply wf_inv
    | with_reducible apply nextFree_inv
    | split

theorem execEstimatorUpdate_ansAt {d : Nat} {c : Nat} (i_clock : Skips.clock φ) (i_free : Skips.free φ) (i_regs : Skips.regs φ) (i_encs : Skips.encs φ) (i_pds : Skips.pds φ) (i_msgs : Skips.msgs φ) (i_hops : Skips.hops φ) (i_dies : Skips.dies φ) (i_pcie : Skips.pcie φ) (i_out : Skips.out φ) (hU : At φ c₀ s) : AnsAt φ c₀ (execEstimatorUpdate d c s) := by
  unfold execEstimatorUpdate
  try dsimp only
  repeat' first
    | with_reducible assumption
    | intro _
    | with_reducible apply ok_ansAt
    | with_reducible apply ite_ansAt
    | with_reducible apply ite_inv
    | with_reducible apply waitClock_inv
    | with_reducible apply setEnc_inv
    | with_reducible exact ok_ansAt (by assumption)
    | with_reducible apply estUpdate_inv
    | with_reducible apply virtUpdate_inv
    | split

theorem remoteLose_inv {d : Nat} {c : Nat} (i_regs : Skips.regs φ) (i_encs : Skips.encs φ) (i_msgs : Skips.msgs φ) (i_hops : Skips.hops φ) (i_pcie : Skips.pcie φ) (i_out : Skips.out φ) (hU : At φ c₀ s) : At φ c₀ (remoteLose s d c) := by
  unfold remoteLose
  try dsimp only
  repeat' first
    | with_reducible assumption
    | intro _
    | with_reducible apply ite_inv
    | with_reducible apply encLost_inv
    | with_reducible apply encInvalid_inv
    | with_reducible apply setEnc_inv
    | split

theorem remoteEst_inv {d : Nat} {c : Nat} {e : Est} (i_regs : Skips.regs φ) (i_encs : Skips.encs φ) (i_msgs : Skips.msgs φ) (i_hops : Skips.hops φ) (i_pcie : Skips.pcie φ) (i_out : Skips.out φ) (hU : At φ c₀ s) : At φ c₀ (remoteEst s d c e) := by
  unfold remoteEst
  try dsimp only
  repeat' first
    | with_reducible assumption
    | intro _
    | with_reducible apply ite_inv
    | with_reducible apply setEnc_inv
    | with_reducible apply wr48_inv
    | with_reducible apply encSend_inv
    | with_reducible apply setDyn_inv
    | with_reducible apply wb_inv
    | split

theorem remoteTake_inv {d : Nat} {c : Nat} {m : HopMsg} (i_regs : Skips.regs φ) (i_encs : Skips.encs φ) (i_pds : Skips.pds φ) (i_msgs : Skips.msgs φ) (i_hops : Skips.hops φ) (i_pcie : Skips.pcie φ) (i_out : Skips.out φ) (hU : At φ c₀ s) : At φ c₀ (remoteTake s d c m) := by
  unfold remoteTake
  try dsimp only
  repeat' first
    | with_reducible assumption
    | intro _
    | with_reducible apply ite_inv
    | with_reducible apply pdMoved_inv
    | with_reducible apply wr48_inv
    | with_reducible apply winSync_inv
    | with_reducible apply remoteEst_inv
    | with_reducible apply encSend_inv
    | with_reducible apply winShift_inv
    | with_reducible apply remoteLose_inv
    | split
    | with_reducible refine At.step (i_hops _ _) ?_

theorem execRemoteEstimateReceive_ansAt {d : Nat} {c : Nat} (i_regs : Skips.regs φ) (i_encs : Skips.encs φ) (i_pds : Skips.pds φ) (i_msgs : Skips.msgs φ) (i_hops : Skips.hops φ) (i_pcie : Skips.pcie φ) (i_out : Skips.out φ) (hU : At φ c₀ s) : AnsAt φ c₀ (execRemoteEstimateReceive d c s) := by
  unfold execRemoteEstimateReceive
  try dsimp only
  repeat' first
    | with_reducible assumption
    | intro _
    | with_reducible apply ok_ansAt
    | with_reducible apply ite_ansAt
    | with_reducible apply ite_inv
    | with_reducible exact ok_ansAt (by assumption)
    | with_reducible apply remoteTake_inv
    | split

theorem execRemoteSourceLost_ansAt {d : Nat} {c : Nat} (i_clock : Skips.clock φ) (i_regs : Skips.regs φ) (i_encs : Skips.encs φ) (i_msgs : Skips.msgs φ) (i_hops : Skips.hops φ) (i_dies : Skips.dies φ) (i_pcie : Skips.pcie φ) (i_out : Skips.out φ) (hU : At φ c₀ s) : AnsAt φ c₀ (execRemoteSourceLost d c s) := by
  unfold execRemoteSourceLost
  try dsimp only
  repeat' first
    | with_reducible assumption
    | intro _
    | with_reducible apply ok_ansAt
    | with_reducible apply ite_ansAt
    | with_reducible apply ite_inv
    | with_reducible exact ok_ansAt (by assumption)
    | with_reducible apply remoteLose_inv
    | with_reducible apply waitClock_inv
    | split

theorem decodeRestart_inv {d : Nat} {c : Nat} {k : Nat} (i_encs : Skips.encs φ) (hU : At φ c₀ s) : At φ c₀ (decodeRestart s d c k) := by
  unfold decodeRestart
  try dsimp only
  repeat' first
    | with_reducible assumption
    | intro _
    | with_reducible apply ite_inv
    | with_reducible apply setEnc_inv
    | split

theorem virtTake_inv {d : Nat} {c : Nat} {pos : Int} (i_encs : Skips.encs φ) (hU : At φ c₀ s) : At φ c₀ (virtTake s d c pos) := by
  unfold virtTake
  try dsimp only
  repeat' first
    | with_reducible assumption
    | intro _
    | with_reducible apply ite_inv
    | with_reducible apply setEnc_inv
    | split

theorem spdFollow_inv {d : Nat} {c : Nat} (i_regs : Skips.regs φ) (hU : At φ c₀ s) : At φ c₀ (spdFollow s d c) := by
  unfold spdFollow
  try dsimp only
  repeat' first
    | with_reducible assumption
    | intro _
    | with_reducible apply ite_inv
    | with_reducible apply wb_inv
    | split

theorem modeTurn_inv {d : Nat} {c : Nat} {pos : Int} (i_regs : Skips.regs φ) (i_encs : Skips.encs φ) (hU : At φ c₀ s) : At φ c₀ (modeTurn s d c pos) := by
  unfold modeTurn
  try dsimp only
  repeat' first
    | with_reducible assumption
    | intro _
    | with_reducible apply ite_inv
    | with_reducible apply decodeRestart_inv
    | with_reducible apply virtTake_inv
    | with_reducible apply wr48_inv
    | with_reducible apply setEnc_inv
    | split

theorem encHandOver_inv {d : Nat} {c : Nat} (i_free : Skips.free φ) (i_regs : Skips.regs φ) (i_shad : Skips.shad φ) (i_chutes : Skips.chutes φ) (i_encs : Skips.encs φ) (i_pds : Skips.pds φ) (i_msgs : Skips.msgs φ) (i_trigs : Skips.trigs φ) (i_hops : Skips.hops φ) (i_dies : Skips.dies φ) (i_pcie : Skips.pcie φ) (i_out : Skips.out φ) (hU : At φ c₀ s) : At φ c₀ (encHandOver s d c) := by
  unfold encHandOver
  try dsimp only
  repeat' first
    | with_reducible assumption
    | intro _
    | with_reducible apply ite_inv
    | with_reducible apply virtFollow_inv
    | with_reducible apply winSync_inv
    | with_reducible apply setEnc_inv
    | with_reducible apply takeShadows_inv
    | with_reducible apply modeTurn_inv
    | with_reducible apply spdFollow_inv
    | with_reducible apply padB_inv
    | with_reducible apply pdMoved_inv
    | with_reducible apply encLoad_inv
    | split

theorem encStart_inv {d : Nat} {c : Nat} (i_regs : Skips.regs φ) (i_encs : Skips.encs φ) (hU : At φ c₀ s) : At φ c₀ (encStart s d c) := by
  unfold encStart
  try dsimp only
  repeat' first
    | with_reducible assumption
    | intro _
    | with_reducible apply ite_inv
    | with_reducible apply setPstate_inv
    | with_reducible apply setEnc_inv
    | with_reducible apply spdFollow_inv
    | with_reducible apply virtTake_inv
    | with_reducible apply decodeRestart_inv
    | split

theorem encStop_inv {d : Nat} {c : Nat} (i_regs : Skips.regs φ) (i_pds : Skips.pds φ) (i_msgs : Skips.msgs φ) (i_hops : Skips.hops φ) (i_pcie : Skips.pcie φ) (i_out : Skips.out φ) (hU : At φ c₀ s) : At φ c₀ (encStop s d c) := by
  unfold encStop
  try dsimp only
  repeat' first
    | with_reducible assumption
    | intro _
    | with_reducible apply ite_inv
    | with_reducible apply pdUnlock_inv
    | with_reducible apply encLost_inv
    | with_reducible apply encInvalid_inv
    | split

theorem encTimeStep_inv {d : Nat} {c : Nat} (i_encs : Skips.encs φ) (i_out : Skips.out φ) (hU : At φ c₀ s) : At φ c₀ (encTimeStep s d c) := by
  unfold encTimeStep
  try dsimp only
  repeat' first
    | with_reducible assumption
    | intro _
    | with_reducible apply ite_inv
    | with_reducible apply serDrop_inv
    | with_reducible apply setEnc_inv
    | split

end Sys2Proof.Laws
end

