-- ==== Sys2Proof/Laws/PdInv.lean ====
section
/-!
SUPPORT. The fields of the state that each operation of `Machine/Pd.lean` may change: whatever reads none of them is the same after it.
-/

set_option Elab.async false
set_option linter.unusedTactic false
set_option linter.unreachableTactic false
namespace Sys2Proof.Laws

open Sys2Proof.Machine

variable {α₀ : Type} {φ : State → α₀} {c₀ : α₀} {s : State}

theorem pdIgnore_inv {d : Nat} {n : Nat} (i_regs : Skips.regs φ) (i_pcie : Skips.pcie φ) (i_out : Skips.out φ) (hU : At φ c₀ s) : At φ c₀ (pdIgnore s d n) := by
  unfold pdIgnore
  try dsimp only
  repeat' first
    | with_reducible assumption
    | intro _
    | with_reducible apply ite_inv
    | with_reducible apply raise_inv
    | with_reducible apply count_inv
    | split

theorem pdAccept_inv {d : Nat} {n : Nat} {stamp : Int} (i_free : Skips.free φ) (i_regs : Skips.regs φ) (i_chutes : Skips.chutes φ) (i_encs : Skips.encs φ) (i_pds : Skips.pds φ) (i_msgs : Skips.msgs φ) (i_trigs : Skips.trigs φ) (i_dies : Skips.dies φ) (i_pcie : Skips.pcie φ) (i_out : Skips.out φ) (hU : At φ c₀ s) : At φ c₀ (pdAccept s d n stamp) := by
  unfold pdAccept
  try dsimp only
  repeat' first
    | with_reducible assumption
    | intro _
    | with_reducible apply ite_inv
    | with_reducible apply raise_inv
    | with_reducible apply count_inv
    | with_reducible apply wr48_inv
    | with_reducible apply nextFree_inv
    | with_reducible apply setPdIn_inv
    | with_reducible apply each_inv
    | with_reducible apply takeLatch_inv
    | with_reducible apply posRecord_inv
    | with_reducible apply sendMsg_inv
    | split

theorem pdPass_inv {d : Nat} {n : Nat} (i_free : Skips.free φ) (i_regs : Skips.regs φ) (i_chutes : Skips.chutes φ) (i_encs : Skips.encs φ) (i_pds : Skips.pds φ) (i_msgs : Skips.msgs φ) (i_trigs : Skips.trigs φ) (i_dies : Skips.dies φ) (i_pcie : Skips.pcie φ) (i_out : Skips.out φ) (hU : At φ c₀ s) : At φ c₀ (pdPass s d n) := by
  unfold pdPass
  try dsimp only
  repeat' first
    | with_reducible assumption
    | intro _
    | with_reducible apply ite_inv
    | with_reducible apply wb_inv
    | with_reducible apply pdAccept_inv
    | with_reducible apply pdIgnore_inv
    | split

theorem pdRaw_inv {d : Nat} {n : Nat} {level : Bool} (i_pds : Skips.pds φ) (hU : At φ c₀ s) : At φ c₀ (pdRaw s d n level) := by
  unfold pdRaw
  try dsimp only
  repeat' first
    | with_reducible assumption
    | intro _
    | with_reducible apply ite_inv
    | with_reducible apply setPdIn_inv
    | split

theorem execProduct_ansAt {d : Nat} {n : Nat} {level : Bool} (i_clock : Skips.clock φ) (i_free : Skips.free φ) (i_regs : Skips.regs φ) (i_chutes : Skips.chutes φ) (i_encs : Skips.encs φ) (i_pds : Skips.pds φ) (i_msgs : Skips.msgs φ) (i_trigs : Skips.trigs φ) (i_dies : Skips.dies φ) (i_pcie : Skips.pcie φ) (i_out : Skips.out φ) (hU : At φ c₀ s) : AnsAt φ c₀ (execProduct d n level s) := by
  unfold execProduct
  try dsimp only
  repeat' first
    | with_reducible assumption
    | intro _
    | with_reducible apply ok_ansAt
    | with_reducible apply ite_ansAt
    | with_reducible apply ite_inv
    | with_reducible apply waitClock_inv
    | with_reducible exact ok_ansAt (by assumption)
    | with_reducible apply pdRaw_inv
    | with_reducible apply pdPass_inv
    | split

theorem pdStart_inv {d : Nat} (i_pds : Skips.pds φ) (hU : At φ c₀ s) : At φ c₀ (pdStart s d) := by
  unfold pdStart
  try dsimp only
  repeat' first
    | with_reducible assumption
    | intro _
    | with_reducible apply ite_inv
    | with_reducible apply each_inv
    | with_reducible apply setPdIn_inv
    | split

theorem execPdLockoutEnd_ansAt {d : Nat} {n : Nat} (i_clock : Skips.clock φ) (i_regs : Skips.regs φ) (i_pds : Skips.pds φ) (i_dies : Skips.dies φ) (i_pcie : Skips.pcie φ) (i_out : Skips.out φ) (hU : At φ c₀ s) : AnsAt φ c₀ (execPdLockoutEnd d n s) := by
  unfold execPdLockoutEnd
  try dsimp only
  repeat' first
    | with_reducible assumption
    | intro _
    | with_reducible apply ok_ansAt
    | with_reducible apply ite_ansAt
    | with_reducible apply ite_inv
    | with_reducible apply waitClock_inv
    | with_reducible exact ok_ansAt (by assumption)
    | with_reducible apply setPdIn_inv
    | split

theorem pdTurn_inv {s0 : State} {d : Nat} {n : Nat} (i_regs : Skips.regs φ) (i_pds : Skips.pds φ) (hU : At φ c₀ s) (hU_s0 : At φ c₀ s0) : At φ c₀ (pdTurn s0 s d n) := by
  unfold pdTurn
  try dsimp only
  repeat' first
    | with_reducible assumption
    | intro _
    | with_reducible apply ite_inv
    | with_reducible apply wb_inv
    | with_reducible apply setPdIn_inv
    | split

theorem pdHandOver_inv {d : Nat} (i_regs : Skips.regs φ) (i_pds : Skips.pds φ) (i_pcie : Skips.pcie φ) (i_out : Skips.out φ) (hU : At φ c₀ s) : At φ c₀ (pdHandOver s d) := by
  unfold pdHandOver
  try dsimp only
  repeat' first
    | with_reducible assumption
    | intro _
    | with_reducible apply ite_inv
    | with_reducible apply each_inv
    | with_reducible apply takeShadows_inv
    | with_reducible apply pdTurn_inv
    | split

end Sys2Proof.Laws
end

