-- ==== Sys2Proof/Laws/SecurityInv.lean ====
section
/-!
SUPPORT. The fields of the state that each operation of `Machine/Security.lean` may change: whatever reads none of them is the same after it.
-/

set_option Elab.async false
set_option linter.unusedTactic false
set_option linter.unreachableTactic false
namespace Sys2Proof.Laws

open Sys2Proof.Machine

variable {α₀ : Type} {φ : State → α₀} {c₀ : α₀} {s : State}

theorem sessState_inv {d : Nat} {st : Nat} (i_regs : Skips.regs φ) (i_dies : Skips.dies φ) (hU : At φ c₀ s) : At φ c₀ (sessState s d st) := by
  unfold sessState
  try dsimp only
  repeat' first
    | with_reducible assumption
    | intro _
    | with_reducible apply ite_inv
    | with_reducible apply wf_inv
    | with_reducible apply setDie_inv
    | split

theorem wrs_inv {p : Pg} {off : Nat} {ws : List Word} (i_regs : Skips.regs φ) (hU : At φ c₀ s) : At φ c₀ (wrs s p off ws) := by
  unfold wrs
  try dsimp only
  repeat' first
    | with_reducible assumption
    | intro _
    | with_reducible apply ite_inv
    | with_reducible apply each_inv
    | with_reducible apply wr_inv
    | split

theorem skipFree_inv {n : Nat} (i_free : Skips.free φ) (hU : At φ c₀ s) : At φ c₀ (skipFree s n) := by
  unfold skipFree
  try dsimp only
  repeat' first
    | with_reducible assumption
    | intro _
    | with_reducible apply ite_inv
    | split
    | with_reducible refine At.step (i_free _ _) ?_

theorem sessStart_inv {r : Req} {d : Nat} {bind : Bool} (i_free : Skips.free φ) (i_regs : Skips.regs φ) (i_dies : Skips.dies φ) (i_pcie : Skips.pcie φ) (i_out : Skips.out φ) (hU : At φ c₀ s) : At φ c₀ (sessStart s r d bind) := by
  unfold sessStart
  try dsimp only
  repeat' first
    | with_reducible assumption
    | intro _
    | with_reducible apply ite_inv
    | with_reducible apply logErr_inv
    | with_reducible apply sessClose_inv
    | with_reducible apply setDie_inv
    | with_reducible apply skipFree_inv
    | with_reducible apply wrs_inv
    | with_reducible apply sessState_inv
    | with_reducible apply wr_inv
    | split

theorem sessCtrlWrite_inv {r : Req} {d : Nat} {v : Word} (i_free : Skips.free φ) (i_regs : Skips.regs φ) (i_dies : Skips.dies φ) (i_pcie : Skips.pcie φ) (i_out : Skips.out φ) (hU : At φ c₀ s) : At φ c₀ (sessCtrlWrite r d v s) := by
  unfold sessCtrlWrite
  try dsimp only
  repeat' first
    | with_reducible assumption
    | intro _
    | with_reducible apply ite_inv
    | with_reducible apply wb_inv
    | with_reducible apply sessClose_inv
    | with_reducible apply sessStart_inv
    | split

theorem execSessionStart_ansAt {r : Req} {d : Nat} {bind : Bool} (i_free : Skips.free φ) (i_regs : Skips.regs φ) (i_dies : Skips.dies φ) (i_pcie : Skips.pcie φ) (i_resp : Skips.resp φ) (i_out : Skips.out φ) (hU : At φ c₀ s) : AnsAt φ c₀ (execSessionStart r d bind s) := by
  unfold execSessionStart
  try dsimp only
  repeat' first
    | with_reducible assumption
    | intro _
    | with_reducible apply ok_ansAt
    | with_reducible apply ite_ansAt
    | with_reducible apply ite_inv
    | with_reducible exact ok_ansAt (by assumption)
    | with_reducible apply guardedWrite_inv
    | with_reducible apply sessCtrlWrite_inv
    | split

theorem sessCloseWrite_inv {r : Req} {d : Nat} (i_free : Skips.free φ) (i_regs : Skips.regs φ) (i_dies : Skips.dies φ) (i_pcie : Skips.pcie φ) (i_out : Skips.out φ) (hU : At φ c₀ s) : At φ c₀ (sessCloseWrite r d s) := by
  unfold sessCloseWrite
  try dsimp only
  repeat' first
    | with_reducible assumption
    | intro _
    | with_reducible apply ite_inv
    | with_reducible apply sessCtrlWrite_inv
    | split

theorem execSessionClose_ansAt {r : Req} {d : Nat} (i_free : Skips.free φ) (i_regs : Skips.regs φ) (i_dies : Skips.dies φ) (i_pcie : Skips.pcie φ) (i_resp : Skips.resp φ) (i_out : Skips.out φ) (hU : At φ c₀ s) : AnsAt φ c₀ (execSessionClose r d s) := by
  unfold execSessionClose
  try dsimp only
  repeat' first
    | with_reducible assumption
    | intro _
    | with_reducible apply ok_ansAt
    | with_reducible apply ite_ansAt
    | with_reducible apply ite_inv
    | with_reducible exact ok_ansAt (by assumption)
    | with_reducible apply guardedWrite_inv
    | with_reducible apply sessCloseWrite_inv
    | split

theorem nonceDrop_inv {d : Nat} (i_free : Skips.free φ) (i_regs : Skips.regs φ) (hU : At φ c₀ s) : At φ c₀ (nonceDrop s d) := by
  unfold nonceDrop
  try dsimp only
  repeat' first
    | with_reducible assumption
    | intro _
    | with_reducible apply ite_inv
    | with_reducible apply wrs_inv
    | with_reducible apply skipFree_inv
    | split

theorem sessOpen_inv {d : Nat} (i_regs : Skips.regs φ) (i_dies : Skips.dies φ) (i_pcie : Skips.pcie φ) (i_out : Skips.out φ) (hU : At φ c₀ s) : At φ c₀ (sessOpen s d) := by
  unfold sessOpen
  try dsimp only
  repeat' first
    | with_reducible assumption
    | intro _
    | with_reducible apply ite_inv
    | with_reducible apply wrs_inv
    | with_reducible apply setDie_inv
    | with_reducible apply raise_inv
    | with_reducible apply count_inv
    | with_reducible apply wf_inv
    | with_reducible apply sessState_inv
    | split

theorem sessFail_inv {d : Nat} (i_regs : Skips.regs φ) (i_dies : Skips.dies φ) (i_pcie : Skips.pcie φ) (i_out : Skips.out φ) (hU : At φ c₀ s) : At φ c₀ (sessFail s d) := by
  unfold sessFail
  try dsimp only
  repeat' first
    | with_reducible assumption
    | intro _
    | with_reducible apply ite_inv
    | with_reducible apply setDie_inv
    | with_reducible apply sessState_inv
    | with_reducible apply raise_inv
    | with_reducible apply count_inv
    | with_reducible apply wf_inv
    | split

theorem sessCheck_inv {r : Req} {d : Nat} {v : Word} (i_free : Skips.free φ) (i_regs : Skips.regs φ) (i_dies : Skips.dies φ) (i_pcie : Skips.pcie φ) (i_out : Skips.out φ) (hU : At φ c₀ s) : At φ c₀ (sessCheck r d v s) := by
  unfold sessCheck
  try dsimp only
  repeat' first
    | with_reducible assumption
    | intro _
    | with_reducible apply ite_inv
    | with_reducible apply logErr_inv
    | with_reducible apply wr_inv
    | with_reducible apply nonceDrop_inv
    | with_reducible apply sessOpen_inv
    | with_reducible apply sessFail_inv
    | split

theorem execSessionCheck_ansAt {r : Req} {d : Nat} {v : Word} (i_free : Skips.free φ) (i_regs : Skips.regs φ) (i_dies : Skips.dies φ) (i_pcie : Skips.pcie φ) (i_resp : Skips.resp φ) (i_out : Skips.out φ) (hU : At φ c₀ s) : AnsAt φ c₀ (execSessionCheck r d v s) := by
  unfold execSessionCheck
  try dsimp only
  repeat' first
    | with_reducible assumption
    | intro _
    | with_reducible apply ok_ansAt
    | with_reducible apply ite_ansAt
    | with_reducible apply ite_inv
    | with_reducible exact ok_ansAt (by assumption)
    | with_reducible apply guardedWrite_inv
    | with_reducible apply sessCheck_inv
    | split

theorem sessDataWrite_inv {r : Req} {d : Nat} {off : Nat} {v : Word} (i_regs : Skips.regs φ) (hU : At φ c₀ s) : At φ c₀ (sessDataWrite r d off v s) := by
  unfold sessDataWrite
  try dsimp only
  repeat' first
    | with_reducible assumption
    | intro _
    | with_reducible apply ite_inv
    | with_reducible apply logErr_inv
    | with_reducible apply wr_inv
    | split

theorem execSessionTimeout_ansAt {d : Nat} (i_clock : Skips.clock φ) (i_regs : Skips.regs φ) (i_dies : Skips.dies φ) (i_pcie : Skips.pcie φ) (i_out : Skips.out φ) (hU : At φ c₀ s) : AnsAt φ c₀ (execSessionTimeout d s) := by
  unfold execSessionTimeout
  try dsimp only
  repeat' first
    | with_reducible assumption
    | intro _
    | with_reducible apply ok_ansAt
    | with_reducible apply ite_ansAt
    | with_reducible apply ite_inv
    | with_reducible exact ok_ansAt (by assumption)
    | with_reducible apply sessClose_inv
    | with_reducible apply waitClock_inv
    | split

theorem execBackoffEnd_ansAt {d : Nat} (i_clock : Skips.clock φ) (i_regs : Skips.regs φ) (i_dies : Skips.dies φ) (i_pcie : Skips.pcie φ) (i_out : Skips.out φ) (hU : At φ c₀ s) : AnsAt φ c₀ (execBackoffEnd d s) := by
  unfold execBackoffEnd
  try dsimp only
  repeat' first
    | with_reducible assumption
    | intro _
    | with_reducible apply ok_ansAt
    | with_reducible apply ite_ansAt
    | with_reducible apply ite_inv
    | with_reducible exact ok_ansAt (by assumption)
    | with_reducible apply sessState_inv
    | with_reducible apply waitClock_inv
    | split

theorem guardSet_inv {r : Req} {d : Nat} {off : Nat} {v : Word} (i_regs : Skips.regs φ) (i_shad : Skips.shad φ) (i_hold : Skips.hold φ) (i_ticks : Skips.ticks φ) (i_pcie : Skips.pcie φ) (i_out : Skips.out φ) (hU : At φ c₀ s) : At φ c₀ (guardSet r d off v s) := by
  unfold guardSet
  try dsimp only
  repeat' first
    | with_reducible assumption
    | intro _
    | with_reducible apply ite_inv
    | with_reducible apply plainWrite_inv
    | with_reducible apply wr48_inv
    | with_reducible apply count_inv
    | with_reducible apply raise_inv
    | with_reducible apply wr_inv
    | split

theorem execGuardWrite_ansAt {r : Req} {d : Nat} {off : Nat} {v : Word} (i_regs : Skips.regs φ) (i_shad : Skips.shad φ) (i_hold : Skips.hold φ) (i_ticks : Skips.ticks φ) (i_dies : Skips.dies φ) (i_pcie : Skips.pcie φ) (i_resp : Skips.resp φ) (i_out : Skips.out φ) (hU : At φ c₀ s) : AnsAt φ c₀ (execGuardWrite r d off v s) := by
  unfold execGuardWrite
  try dsimp only
  repeat' first
    | with_reducible assumption
    | intro _
    | with_reducible apply ok_ansAt
    | with_reducible apply ite_ansAt
    | with_reducible apply ite_inv
    | with_reducible exact ok_ansAt (by assumption)
    | with_reducible apply guardedWrite_inv
    | with_reducible apply guardSet_inv
    | split

theorem tapIr_inv {d : Nat} {code : Nat} (i_regs : Skips.regs φ) (i_dies : Skips.dies φ) (hU : At φ c₀ s) : At φ c₀ (tapIr s d code) := by
  unfold tapIr
  try dsimp only
  repeat' first
    | with_reducible assumption
    | intro _
    | with_reducible apply ite_inv
    | with_reducible apply wf_inv
    | with_reducible apply setDie_inv
    | split

theorem tapScan_inv {d : Nat} {code : Nat} (i_free : Skips.free φ) (i_regs : Skips.regs φ) (i_shad : Skips.shad φ) (i_hold : Skips.hold φ) (i_fences : Skips.fences φ) (i_ecc : Skips.ecc φ) (i_chutes : Skips.chutes φ) (i_ctxs : Skips.ctxs φ) (i_ports : Skips.ports φ) (i_encs : Skips.encs φ) (i_pds : Skips.pds φ) (i_seamQ : Skips.seamQ φ) (i_echos : Skips.echos φ) (i_mems : Skips.mems φ) (i_msgs : Skips.msgs φ) (i_axes : Skips.axes φ) (i_hoists : Skips.hoists φ) (i_trigs : Skips.trigs φ) (i_cqWait : Skips.cqWait φ) (i_cqSeq : Skips.cqSeq φ) (i_assays : Skips.assays φ) (i_therms : Skips.therms φ) (i_lamps : Skips.lamps φ) (i_mboxes : Skips.mboxes φ) (i_fws : Skips.fws φ) (i_tsync : Skips.tsync φ) (i_hops : Skips.hops φ) (i_dies : Skips.dies φ) (i_pkg : Skips.pkg φ) (i_pcie : Skips.pcie φ) (i_out : Skips.out φ) (hU : At φ c₀ s) : At φ c₀ (tapScan s d code) := by
  unfold tapScan
  try dsimp only
  repeat' first
    | with_reducible assumption
    | intro _
    | with_reducible apply ite_inv
    | with_reducible apply tapIr_inv
    | with_reducible apply each_inv
    | with_reducible apply fencePage_inv
    | split

theorem execExtest_ansAt {d : Nat} (i_free : Skips.free φ) (i_regs : Skips.regs φ) (i_shad : Skips.shad φ) (i_hold : Skips.hold φ) (i_fences : Skips.fences φ) (i_ecc : Skips.ecc φ) (i_chutes : Skips.chutes φ) (i_ctxs : Skips.ctxs φ) (i_ports : Skips.ports φ) (i_encs : Skips.encs φ) (i_pds : Skips.pds φ) (i_seamQ : Skips.seamQ φ) (i_echos : Skips.echos φ) (i_mems : Skips.mems φ) (i_msgs : Skips.msgs φ) (i_axes : Skips.axes φ) (i_hoists : Skips.hoists φ) (i_trigs : Skips.trigs φ) (i_cqWait : Skips.cqWait φ) (i_cqSeq : Skips.cqSeq φ) (i_assays : Skips.assays φ) (i_therms : Skips.therms φ) (i_lamps : Skips.lamps φ) (i_mboxes : Skips.mboxes φ) (i_fws : Skips.fws φ) (i_tsync : Skips.tsync φ) (i_hops : Skips.hops φ) (i_dies : Skips.dies φ) (i_pkg : Skips.pkg φ) (i_pcie : Skips.pcie φ) (i_out : Skips.out φ) (hU : At φ c₀ s) : AnsAt φ c₀ (execExtest d s) := by
  unfold execExtest
  try dsimp only
  repeat' first
    | with_reducible assumption
    | intro _
    | with_reducible apply ok_ansAt
    | with_reducible apply ite_ansAt
    | with_reducible apply ite_inv
    | with_reducible exact ok_ansAt (by assumption)
    | with_reducible apply tapScan_inv
    | split

theorem execClamp_ansAt {d : Nat} (i_free : Skips.free φ) (i_regs : Skips.regs φ) (i_shad : Skips.shad φ) (i_hold : Skips.hold φ) (i_fences : Skips.fences φ) (i_ecc : Skips.ecc φ) (i_chutes : Skips.chutes φ) (i_ctxs : Skips.ctxs φ) (i_ports : Skips.ports φ) (i_encs : Skips.encs φ) (i_pds : Skips.pds φ) (i_seamQ : Skips.seamQ φ) (i_echos : Skips.echos φ) (i_mems : Skips.mems φ) (i_msgs : Skips.msgs φ) (i_axes : Skips.axes φ) (i_hoists : Skips.hoists φ) (i_trigs : Skips.trigs φ) (i_cqWait : Skips.cqWait φ) (i_cqSeq : Skips.cqSeq φ) (i_assays : Skips.assays φ) (i_therms : Skips.therms φ) (i_lamps : Skips.lamps φ) (i_mboxes : Skips.mboxes φ) (i_fws : Skips.fws φ) (i_tsync : Skips.tsync φ) (i_hops : Skips.hops φ) (i_dies : Skips.dies φ) (i_pkg : Skips.pkg φ) (i_pcie : Skips.pcie φ) (i_out : Skips.out φ) (hU : At φ c₀ s) : AnsAt φ c₀ (execClamp d s) := by
  unfold execClamp
  try dsimp only
  repeat' first
    | with_reducible assumption
    | intro _
    | with_reducible apply ok_ansAt
    | with_reducible apply ite_ansAt
    | with_reducible apply ite_inv
    | with_reducible exact ok_ansAt (by assumption)
    | with_reducible apply tapScan_inv
    | split

theorem execHighz_ansAt {d : Nat} (i_free : Skips.free φ) (i_regs : Skips.regs φ) (i_shad : Skips.shad φ) (i_hold : Skips.hold φ) (i_fences : Skips.fences φ) (i_ecc : Skips.ecc φ) (i_chutes : Skips.chutes φ) (i_ctxs : Skips.ctxs φ) (i_ports : Skips.ports φ) (i_encs : Skips.encs φ) (i_pds : Skips.pds φ) (i_seamQ : Skips.seamQ φ) (i_echos : Skips.echos φ) (i_mems : Skips.mems φ) (i_msgs : Skips.msgs φ) (i_axes : Skips.axes φ) (i_hoists : Skips.hoists φ) (i_trigs : Skips.trigs φ) (i_cqWait : Skips.cqWait φ) (i_cqSeq : Skips.cqSeq φ) (i_assays : Skips.assays φ) (i_therms : Skips.therms φ) (i_lamps : Skips.lamps φ) (i_mboxes : Skips.mboxes φ) (i_fws : Skips.fws φ) (i_tsync : Skips.tsync φ) (i_hops : Skips.hops φ) (i_dies : Skips.dies φ) (i_pkg : Skips.pkg φ) (i_pcie : Skips.pcie φ) (i_out : Skips.out φ) (hU : At φ c₀ s) : AnsAt φ c₀ (execHighz d s) := by
  unfold execHighz
  try dsimp only
  repeat' first
    | with_reducible assumption
    | intro _
    | with_reducible apply ok_ansAt
    | with_reducible apply ite_ansAt
    | with_reducible apply ite_inv
    | with_reducible exact ok_ansAt (by assumption)
    | with_reducible apply tapScan_inv
    | split

theorem execExtestPulse_ansAt {d : Nat} (i_free : Skips.free φ) (i_regs : Skips.regs φ) (i_shad : Skips.shad φ) (i_hold : Skips.hold φ) (i_fences : Skips.fences φ) (i_ecc : Skips.ecc φ) (i_chutes : Skips.chutes φ) (i_ctxs : Skips.ctxs φ) (i_ports : Skips.ports φ) (i_encs : Skips.encs φ) (i_pds : Skips.pds φ) (i_seamQ : Skips.seamQ φ) (i_echos : Skips.echos φ) (i_mems : Skips.mems φ) (i_msgs : Skips.msgs φ) (i_axes : Skips.axes φ) (i_hoists : Skips.hoists φ) (i_trigs : Skips.trigs φ) (i_cqWait : Skips.cqWait φ) (i_cqSeq : Skips.cqSeq φ) (i_assays : Skips.assays φ) (i_therms : Skips.therms φ) (i_lamps : Skips.lamps φ) (i_mboxes : Skips.mboxes φ) (i_fws : Skips.fws φ) (i_tsync : Skips.tsync φ) (i_hops : Skips.hops φ) (i_dies : Skips.dies φ) (i_pkg : Skips.pkg φ) (i_pcie : Skips.pcie φ) (i_out : Skips.out φ) (hU : At φ c₀ s) : AnsAt φ c₀ (execExtestPulse d s) := by
  unfold execExtestPulse
  try dsimp only
  repeat' first
    | with_reducible assumption
    | intro _
    | with_reducible apply ok_ansAt
    | with_reducible apply ite_ansAt
    | with_reducible apply ite_inv
    | with_reducible exact ok_ansAt (by assumption)
    | with_reducible apply tapScan_inv
    | split

theorem execExtestTrain_ansAt {d : Nat} (i_free : Skips.free φ) (i_regs : Skips.regs φ) (i_shad : Skips.shad φ) (i_hold : Skips.hold φ) (i_fences : Skips.fences φ) (i_ecc : Skips.ecc φ) (i_chutes : Skips.chutes φ) (i_ctxs : Skips.ctxs φ) (i_ports : Skips.ports φ) (i_encs : Skips.encs φ) (i_pds : Skips.pds φ) (i_seamQ : Skips.seamQ φ) (i_echos : Skips.echos φ) (i_mems : Skips.mems φ) (i_msgs : Skips.msgs φ) (i_axes : Skips.axes φ) (i_hoists : Skips.hoists φ) (i_trigs : Skips.trigs φ) (i_cqWait : Skips.cqWait φ) (i_cqSeq : Skips.cqSeq φ) (i_assays : Skips.assays φ) (i_therms : Skips.therms φ) (i_lamps : Skips.lamps φ) (i_mboxes : Skips.mboxes φ) (i_fws : Skips.fws φ) (i_tsync : Skips.tsync φ) (i_hops : Skips.hops φ) (i_dies : Skips.dies φ) (i_pkg : Skips.pkg φ) (i_pcie : Skips.pcie φ) (i_out : Skips.out φ) (hU : At φ c₀ s) : AnsAt φ c₀ (execExtestTrain d s) := by
  unfold execExtestTrain
  try dsimp only
  repeat' first
    | with_reducible assumption
    | intro _
    | with_reducible apply ok_ansAt
    | with_reducible apply ite_ansAt
    | with_reducible apply ite_inv
    | with_reducible exact ok_ansAt (by assumption)
    | with_reducible apply tapScan_inv
    | split

theorem execSamplePreload_ansAt {d : Nat} (i_regs : Skips.regs φ) (i_dies : Skips.dies φ) (hU : At φ c₀ s) : AnsAt φ c₀ (execSamplePreload d s) := by
  unfold execSamplePreload
  try dsimp only
  repeat' first
    | with_reducible assumption
    | intro _
    | with_reducible apply ok_ansAt
    | with_reducible apply ite_ansAt
    | with_reducible apply ite_inv
    | with_reducible exact ok_ansAt (by assumption)
    | with_reducible apply tapIr_inv
    | split

theorem execIdcode_ansAt {d : Nat} (i_regs : Skips.regs φ) (i_dies : Skips.dies φ) (i_resp : Skips.resp φ) (hU : At φ c₀ s) : AnsAt φ c₀ (execIdcode d s) := by
  unfold execIdcode
  try dsimp only
  repeat' first
    | with_reducible assumption
    | intro _
    | with_reducible apply ok_ansAt
    | with_reducible apply ite_ansAt
    | with_reducible apply ite_inv
    | with_reducible exact ok_ansAt (by assumption)
    | with_reducible apply tapIr_inv
    | split
    | with_reducible refine At.step (i_resp _ _) ?_

theorem execDbgStatus_ansAt {d : Nat} (i_regs : Skips.regs φ) (i_dies : Skips.dies φ) (i_resp : Skips.resp φ) (hU : At φ c₀ s) : AnsAt φ c₀ (execDbgStatus d s) := by
  unfold execDbgStatus
  try dsimp only
  repeat' first
    | with_reducible assumption
    | intro _
    | with_reducible apply ok_ansAt
    | with_reducible apply ite_ansAt
    | with_reducible apply ite_inv
    | with_reducible apply tapIr_inv
    | with_reducible exact ok_ansAt (by assumption)
    | split
    | with_reducible refine At.step (i_resp _ _) ?_

theorem tapChal_inv {d : Nat} (i_free : Skips.free φ) (i_regs : Skips.regs φ) (i_dies : Skips.dies φ) (i_resp : Skips.resp φ) (hU : At φ c₀ s) : At φ c₀ (tapChal s d) := by
  unfold tapChal
  try dsimp only
  repeat' first
    | with_reducible assumption
    | intro _
    | with_reducible apply ite_inv
    | with_reducible apply tapIr_inv
    | with_reducible apply nextFree_inv
    | with_reducible apply setDie_inv
    | split
    | with_reducible refine At.step (i_resp _ _) ?_

theorem execUnlockChal_ansAt {d : Nat} (i_free : Skips.free φ) (i_regs : Skips.regs φ) (i_dies : Skips.dies φ) (i_resp : Skips.resp φ) (hU : At φ c₀ s) : AnsAt φ c₀ (execUnlockChal d s) := by
  unfold execUnlockChal
  try dsimp only
  repeat' first
    | with_reducible assumption
    | intro _
    | with_reducible apply ok_ansAt
    | with_reducible apply ite_ansAt
    | with_reducible apply ite_inv
    | with_reducible exact ok_ansAt (by assumption)
    | with_reducible apply tapChal_inv
    | split

theorem dbgOpen_inv {d : Nat} (i_regs : Skips.regs φ) (i_dies : Skips.dies φ) (i_pkg : Skips.pkg φ) (i_pcie : Skips.pcie φ) (i_out : Skips.out φ) (hU : At φ c₀ s) : At φ c₀ (dbgOpen s d) := by
  unfold dbgOpen
  try dsimp only
  repeat' first
    | with_reducible assumption
    | intro _
    | with_reducible apply ite_inv
    | with_reducible apply setDie_inv
    | with_reducible apply allowedFollow_inv
    | with_reducible apply raise_inv
    | with_reducible apply count_inv
    | with_reducible apply wb_inv
    | split

theorem tokenBad_inv {d : Nat} (i_regs : Skips.regs φ) (i_dies : Skips.dies φ) (i_pcie : Skips.pcie φ) (i_out : Skips.out φ) (hU : At φ c₀ s) : At φ c₀ (tokenBad s d) := by
  unfold tokenBad
  try dsimp only
  repeat' first
    | with_reducible assumption
    | intro _
    | with_reducible apply ite_inv
    | with_reducible apply setDie_inv
    | with_reducible apply wf_inv
    | with_reducible apply wb_inv
    | with_reducible apply raise_inv
    | with_reducible apply count_inv
    | split

theorem unlockUpdate_inv {d : Nat} {token : Nat} (i_regs : Skips.regs φ) (i_dies : Skips.dies φ) (i_pkg : Skips.pkg φ) (i_pcie : Skips.pcie φ) (i_out : Skips.out φ) (hU : At φ c₀ s) : At φ c₀ (unlockUpdate s d token) := by
  unfold unlockUpdate
  try dsimp only
  repeat' first
    | with_reducible assumption
    | intro _
    | with_reducible apply ite_inv
    | with_reducible apply tapIr_inv
    | with_reducible apply setDie_inv
    | with_reducible apply dbgOpen_inv
    | with_reducible apply tokenBad_inv
    | split

theorem execUnlockResp_ansAt {d : Nat} {token : Nat} (i_regs : Skips.regs φ) (i_dies : Skips.dies φ) (i_pkg : Skips.pkg φ) (i_pcie : Skips.pcie φ) (i_out : Skips.out φ) (hU : At φ c₀ s) : AnsAt φ c₀ (execUnlockResp d token s) := by
  unfold execUnlockResp
  try dsimp only
  repeat' first
    | with_reducible assumption
    | intro _
    | with_reducible apply ok_ansAt
    | with_reducible apply ite_ansAt
    | with_reducible apply ite_inv
    | with_reducible exact ok_ansAt (by assumption)
    | with_reducible apply unlockUpdate_inv
    | split

theorem execDbgClose_ansAt {d : Nat} (i_regs : Skips.regs φ) (i_dies : Skips.dies φ) (i_pkg : Skips.pkg φ) (i_pcie : Skips.pcie φ) (i_out : Skips.out φ) (hU : At φ c₀ s) : AnsAt φ c₀ (execDbgClose d s) := by
  unfold execDbgClose
  try dsimp only
  repeat' first
    | with_reducible assumption
    | intro _
    | with_reducible apply ok_ansAt
    | with_reducible apply ite_ansAt
    | with_reducible apply ite_inv
    | with_reducible exact ok_ansAt (by assumption)
    | with_reducible apply dbgClose_inv
    | with_reducible apply tapIr_inv
    | split

theorem execBypass_ansAt {d : Nat} {code : Nat} (i_regs : Skips.regs φ) (i_dies : Skips.dies φ) (hU : At φ c₀ s) : AnsAt φ c₀ (execBypass d code s) := by
  unfold execBypass
  try dsimp only
  repeat' first
    | with_reducible assumption
    | intro _
    | with_reducible apply ok_ansAt
    | with_reducible apply ite_ansAt
    | with_reducible apply ite_inv
    | with_reducible exact ok_ansAt (by assumption)
    | with_reducible apply tapIr_inv
    | split

theorem dbgCtrlWrite_inv {d : Nat} {v : Word} (i_regs : Skips.regs φ) (i_dies : Skips.dies φ) (i_pkg : Skips.pkg φ) (i_pcie : Skips.pcie φ) (i_out : Skips.out φ) (hU : At φ c₀ s) : At φ c₀ (dbgCtrlWrite d v s) := by
  unfold dbgCtrlWrite
  try dsimp only
  repeat' first
    | with_reducible assumption
    | intro _
    | with_reducible apply ite_inv
    | with_reducible apply dbgClose_inv
    | split

theorem execDbgCtrlClose_ansAt {r : Req} {d : Nat} (i_regs : Skips.regs φ) (i_dies : Skips.dies φ) (i_pkg : Skips.pkg φ) (i_pcie : Skips.pcie φ) (i_resp : Skips.resp φ) (i_out : Skips.out φ) (hU : At φ c₀ s) : AnsAt φ c₀ (execDbgCtrlClose r d s) := by
  unfold execDbgCtrlClose
  try dsimp only
  repeat' first
    | with_reducible assumption
    | intro _
    | with_reducible apply ok_ansAt
    | with_reducible apply ite_ansAt
    | with_reducible apply ite_inv
    | with_reducible exact ok_ansAt (by assumption)
    | with_reducible apply guardedWrite_inv
    | with_reducible apply dbgCtrlWrite_inv
    | split

theorem execTrstLow_ansAt {d : Nat} (i_regs : Skips.regs φ) (i_dies : Skips.dies φ) (i_pkg : Skips.pkg φ) (i_pcie : Skips.pcie φ) (i_out : Skips.out φ) (hU : At φ c₀ s) : AnsAt φ c₀ (execTrstLow d s) := by
  unfold execTrstLow
  try dsimp only
  repeat' first
    | with_reducible assumption
    | intro _
    | with_reducible apply ok_ansAt
    | with_reducible apply ite_ansAt
    | with_reducible apply ite_inv
    | with_reducible exact ok_ansAt (by assumption)
    | with_reducible apply dbgClose_inv
    | with_reducible apply tapIr_inv
    | split

theorem ijlWrite_inv {r : Req} {d : Nat} {v : Word} (i_regs : Skips.regs φ) (i_shad : Skips.shad φ) (i_hold : Skips.hold φ) (i_ticks : Skips.ticks φ) (i_pcie : Skips.pcie φ) (i_out : Skips.out φ) (hU : At φ c₀ s) : At φ c₀ (ijlWrite r d v s) := by
  unfold ijlWrite
  try dsimp only
  repeat' first
    | with_reducible assumption
    | intro _
    | with_reducible apply ite_inv
    | with_reducible apply injFollow_inv
    | with_reducible apply plainWrite_inv
    | split

theorem execIjlAllowWrite_ansAt {r : Req} {d : Nat} {allow : Bool} (i_regs : Skips.regs φ) (i_shad : Skips.shad φ) (i_hold : Skips.hold φ) (i_ticks : Skips.ticks φ) (i_dies : Skips.dies φ) (i_pcie : Skips.pcie φ) (i_resp : Skips.resp φ) (i_out : Skips.out φ) (hU : At φ c₀ s) : AnsAt φ c₀ (execIjlAllowWrite r d allow s) := by
  unfold execIjlAllowWrite
  try dsimp only
  repeat' first
    | with_reducible assumption
    | intro _
    | with_reducible apply ok_ansAt
    | with_reducible apply ite_ansAt
    | with_reducible apply ite_inv
    | with_reducible exact ok_ansAt (by assumption)
    | with_reducible apply guardedWrite_inv
    | with_reducible apply ijlWrite_inv
    | split

end Sys2Proof.Laws
end

