-- ==== Sys2Proof/Laws/ModeInv.lean ====
section
/-!
SUPPORT. The fields of the state that each operation of `Machine/Mode.lean` may change: whatever reads none of them is the same after it.
-/

set_option Elab.async false
set_option linter.unusedTactic false
set_option linter.unreachableTactic false
namespace Sys2Proof.Laws

open Sys2Proof.Machine

variable {α₀ : Type} {φ : State → α₀} {c₀ : α₀} {s : State}

theorem modeAccept_inv {code : Nat} (i_free : Skips.free φ) (i_regs : Skips.regs φ) (i_pkg : Skips.pkg φ) (hU : At φ c₀ s) : At φ c₀ (modeAccept s code) := by
  unfold modeAccept
  try dsimp only
  repeat' first
    | with_reducible assumption
    | intro _
    | with_reducible apply ite_inv
    | with_reducible apply wr48_inv
    | with_reducible apply wf_inv
    | with_reducible apply wb_inv
    | with_reducible apply each_inv
    | with_reducible apply nextFree_inv
    | with_reducible apply setSave_inv
    | split
    | with_reducible refine At.step (i_pkg _ _) ?_

theorem modeReq_inv {d : Nat} {v : Word} (i_free : Skips.free φ) (i_regs : Skips.regs φ) (i_pkg : Skips.pkg φ) (i_pcie : Skips.pcie φ) (i_out : Skips.out φ) (hU : At φ c₀ s) : At φ c₀ (modeReq d v s) := by
  unfold modeReq
  try dsimp only
  repeat' first
    | with_reducible assumption
    | intro _
    | with_reducible apply ite_inv
    | with_reducible apply raise_inv
    | with_reducible apply wf_inv
    | with_reducible apply count_inv
    | with_reducible apply modeAccept_inv
    | split
    | with_reducible refine At.step (i_pkg _ _) ?_

theorem execModeReqWrite_ansAt {r : Req} {d : Nat} {v : Word} (i_free : Skips.free φ) (i_regs : Skips.regs φ) (i_dies : Skips.dies φ) (i_pkg : Skips.pkg φ) (i_pcie : Skips.pcie φ) (i_resp : Skips.resp φ) (i_out : Skips.out φ) (hU : At φ c₀ s) : AnsAt φ c₀ (execModeReqWrite r d v s) := by
  unfold execModeReqWrite
  try dsimp only
  repeat' first
    | with_reducible assumption
    | intro _
    | with_reducible apply ok_ansAt
    | with_reducible apply ite_ansAt
    | with_reducible apply ite_inv
    | with_reducible exact ok_ansAt (by assumption)
    | with_reducible apply guardedWrite_inv
    | with_reducible apply modeReq_inv
    | split

theorem modeLeadSet_inv {d : Nat} {v : Word} (i_regs : Skips.regs φ) (i_pcie : Skips.pcie φ) (i_out : Skips.out φ) (hU : At φ c₀ s) : At φ c₀ (modeLeadSet d v s) := by
  unfold modeLeadSet
  try dsimp only
  repeat' first
    | with_reducible assumption
    | intro _
    | with_reducible apply ite_inv
    | with_reducible apply raise_inv
    | with_reducible apply wf_inv
    | split

theorem execModeLeadWrite_ansAt {r : Req} {d : Nat} {v : Word} (i_regs : Skips.regs φ) (i_dies : Skips.dies φ) (i_pcie : Skips.pcie φ) (i_resp : Skips.resp φ) (i_out : Skips.out φ) (hU : At φ c₀ s) : AnsAt φ c₀ (execModeLeadWrite r d v s) := by
  unfold execModeLeadWrite
  try dsimp only
  repeat' first
    | with_reducible assumption
    | intro _
    | with_reducible apply ok_ansAt
    | with_reducible apply ite_ansAt
    | with_reducible apply ite_inv
    | with_reducible exact ok_ansAt (by assumption)
    | with_reducible apply guardedWrite_inv
    | with_reducible apply modeLeadSet_inv
    | split

theorem portsFollow_inv {d : Nat} (i_regs : Skips.regs φ) (i_ports : Skips.ports φ) (i_pcie : Skips.pcie φ) (i_out : Skips.out φ) (hU : At φ c₀ s) : At φ c₀ (portsFollow s d) := by
  unfold portsFollow
  try dsimp only
  repeat' first
    | with_reducible assumption
    | intro _
    | with_reducible apply ite_inv
    | with_reducible apply each_inv
    | with_reducible apply streamFollow_inv
    | with_reducible apply htrFollow_inv
    | split

theorem stbyAxis_inv {d : Nat} {a : Nat} (i_regs : Skips.regs φ) (i_axes : Skips.axes φ) (hU : At φ c₀ s) : At φ c₀ (stbyAxis s d a) := by
  unfold stbyAxis
  try dsimp only
  repeat' first
    | with_reducible assumption
    | intro _
    | with_reducible apply ite_inv
    | with_reducible apply setPosValid_inv
    | with_reducible apply setAxis_inv
    | split

theorem stbyEnc_inv {d : Nat} {c : Nat} (i_regs : Skips.regs φ) (i_encs : Skips.encs φ) (hU : At φ c₀ s) : At φ c₀ (stbyEnc s d c) := by
  unfold stbyEnc
  try dsimp only
  repeat' first
    | with_reducible assumption
    | intro _
    | with_reducible apply ite_inv
    | with_reducible apply setEnc_inv
    | with_reducible apply encSync_inv
    | split

theorem stbyEnter_inv {d : Nat} (i_regs : Skips.regs φ) (i_encs : Skips.encs φ) (i_axes : Skips.axes φ) (i_pcie : Skips.pcie φ) (i_out : Skips.out φ) (hU : At φ c₀ s) : At φ c₀ (stbyEnter s d) := by
  unfold stbyEnter
  try dsimp only
  repeat' first
    | with_reducible assumption
    | intro _
    | with_reducible apply ite_inv
    | with_reducible apply each_inv
    | with_reducible apply stbyAxis_inv
    | with_reducible apply stbyEnc_inv
    | with_reducible apply setDyn_inv
    | with_reducible apply wb_inv
    | split

theorem stbyExit_inv {d : Nat} (i_regs : Skips.regs φ) (i_ecc : Skips.ecc φ) (i_chutes : Skips.chutes φ) (i_ctxs : Skips.ctxs φ) (i_ports : Skips.ports φ) (i_encs : Skips.encs φ) (i_seamQ : Skips.seamQ φ) (i_echos : Skips.echos φ) (i_mems : Skips.mems φ) (i_axes : Skips.axes φ) (i_trigs : Skips.trigs φ) (i_mboxes : Skips.mboxes φ) (i_dies : Skips.dies φ) (i_pcie : Skips.pcie φ) (i_out : Skips.out φ) (hU : At φ c₀ s) : At φ c₀ (stbyExit s d) := by
  unfold stbyExit
  try dsimp only
  repeat' first
    | with_reducible assumption
    | intro _
    | with_reducible apply ite_inv
    | with_reducible apply each_inv
    | with_reducible apply retrain_inv
    | with_reducible apply setMstate_inv
    | with_reducible apply setAxis_inv
    | with_reducible apply decodeRestart_inv
    | with_reducible apply setEnc_inv
    | with_reducible apply setDyn_inv
    | with_reducible apply wb_inv
    | split

theorem dieMode_inv {d : Nat} {code : Nat} (i_regs : Skips.regs φ) (i_ecc : Skips.ecc φ) (i_chutes : Skips.chutes φ) (i_ctxs : Skips.ctxs φ) (i_ports : Skips.ports φ) (i_encs : Skips.encs φ) (i_seamQ : Skips.seamQ φ) (i_echos : Skips.echos φ) (i_mems : Skips.mems φ) (i_axes : Skips.axes φ) (i_trigs : Skips.trigs φ) (i_assays : Skips.assays φ) (i_mboxes : Skips.mboxes φ) (i_dies : Skips.dies φ) (i_pcie : Skips.pcie φ) (i_out : Skips.out φ) (hU : At φ c₀ s) : At φ c₀ (dieMode s d code) := by
  unfold dieMode
  try dsimp only
  repeat' first
    | with_reducible assumption
    | intro _
    | with_reducible apply ite_inv
    | with_reducible apply stbyEnter_inv
    | with_reducible apply raise_inv
    | with_reducible apply wf_inv
    | with_reducible apply wb_inv
    | with_reducible apply portsFollow_inv
    | with_reducible apply sweepBreak_inv
    | with_reducible apply asModeChange_inv
    | with_reducible apply stbyExit_inv
    | split

theorem modeSwitch_inv (i_regs : Skips.regs φ) (i_ecc : Skips.ecc φ) (i_chutes : Skips.chutes φ) (i_ctxs : Skips.ctxs φ) (i_ports : Skips.ports φ) (i_encs : Skips.encs φ) (i_seamQ : Skips.seamQ φ) (i_echos : Skips.echos φ) (i_mems : Skips.mems φ) (i_axes : Skips.axes φ) (i_trigs : Skips.trigs φ) (i_assays : Skips.assays φ) (i_mboxes : Skips.mboxes φ) (i_dies : Skips.dies φ) (i_pkg : Skips.pkg φ) (i_pcie : Skips.pcie φ) (i_out : Skips.out φ) (hU : At φ c₀ s) : At φ c₀ (modeSwitch s) := by
  unfold modeSwitch
  try dsimp only
  repeat' first
    | with_reducible assumption
    | intro _
    | with_reducible apply ite_inv
    | with_reducible apply wf_inv
    | with_reducible apply each_inv
    | with_reducible apply dieMode_inv
    | split
    | with_reducible refine At.step (i_pkg _ _) ?_

theorem execModeChanged_ansAt (i_clock : Skips.clock φ) (i_regs : Skips.regs φ) (i_ecc : Skips.ecc φ) (i_chutes : Skips.chutes φ) (i_ctxs : Skips.ctxs φ) (i_ports : Skips.ports φ) (i_encs : Skips.encs φ) (i_seamQ : Skips.seamQ φ) (i_echos : Skips.echos φ) (i_mems : Skips.mems φ) (i_axes : Skips.axes φ) (i_trigs : Skips.trigs φ) (i_assays : Skips.assays φ) (i_mboxes : Skips.mboxes φ) (i_dies : Skips.dies φ) (i_pkg : Skips.pkg φ) (i_pcie : Skips.pcie φ) (i_out : Skips.out φ) (hU : At φ c₀ s) : AnsAt φ c₀ (execModeChanged s) := by
  unfold execModeChanged
  try dsimp only
  repeat' first
    | with_reducible assumption
    | intro _
    | with_reducible apply ok_ansAt
    | with_reducible apply ite_ansAt
    | with_reducible apply ite_inv
    | with_reducible exact ok_ansAt (by assumption)
    | with_reducible apply modeSwitch_inv
    | with_reducible apply waitTick_inv
    | split

theorem execModeClockSettled_ansAt (i_clock : Skips.clock φ) (i_regs : Skips.regs φ) (i_dies : Skips.dies φ) (i_pkg : Skips.pkg φ) (i_pcie : Skips.pcie φ) (i_out : Skips.out φ) (hU : At φ c₀ s) : AnsAt φ c₀ (execModeClockSettled s) := by
  unfold execModeClockSettled
  try dsimp only
  repeat' first
    | with_reducible assumption
    | intro _
    | with_reducible apply ok_ansAt
    | with_reducible apply ite_ansAt
    | with_reducible apply ite_inv
    | with_reducible exact ok_ansAt (by assumption)
    | with_reducible apply waitClock_inv
    | split
    | with_reducible refine At.step (i_pkg _ _) ?_

theorem modeMirror_inv {d : Nat} (i_regs : Skips.regs φ) (i_dies : Skips.dies φ) (i_pcie : Skips.pcie φ) (i_out : Skips.out φ) (hU : At φ c₀ s) : At φ c₀ (modeMirror s d) := by
  unfold modeMirror
  try dsimp only
  repeat' first
    | with_reducible assumption
    | intro _
    | with_reducible apply ite_inv
    | with_reducible apply each_inv
    | with_reducible apply wr_inv
    | with_reducible apply wb_inv
    | with_reducible apply setDie_inv
    | with_reducible apply whenDo_inv
    | with_reducible apply raise_inv
    | split

theorem execModeMirrorArrive_ansAt {d : Nat} (i_regs : Skips.regs φ) (i_dies : Skips.dies φ) (i_pcie : Skips.pcie φ) (i_out : Skips.out φ) (hU : At φ c₀ s) : AnsAt φ c₀ (execModeMirrorArrive d s) := by
  unfold execModeMirrorArrive
  try dsimp only
  repeat' first
    | with_reducible assumption
    | intro _
    | with_reducible apply ok_ansAt
    | with_reducible apply ite_ansAt
    | with_reducible apply ite_inv
    | with_reducible exact ok_ansAt (by assumption)
    | with_reducible apply modeMirror_inv
    | split

end Sys2Proof.Laws
end

