-- ==== Sys2Proof/Laws/TsyncInv.lean ====
section
/-!
SUPPORT. The fields of the state that each operation of `Machine/Tsync.lean` may change: whatever reads none of them is the same after it.
-/

set_option Elab.async false
set_option linter.unusedTactic false
set_option linter.unreachableTactic false
namespace Sys2Proof.Laws

open Sys2Proof.Machine

variable {α₀ : Type} {φ : State → α₀} {c₀ : α₀} {s : State}

theorem setTsState_inv {st : Nat} (i_regs : Skips.regs φ) (i_tsync : Skips.tsync φ) (i_pcie : Skips.pcie φ) (i_out : Skips.out φ) (hU : At φ c₀ s) : At φ c₀ (setTsState s st) := by
  unfold setTsState
  try dsimp only
  repeat' first
    | with_reducible assumption
    | intro _
    | with_reducible apply ite_inv
    | with_reducible apply wf_inv
    | with_reducible apply raise_inv
    | with_reducible apply wb_inv
    | split
    | with_reducible refine At.step (i_tsync _ _) ?_

theorem tsSend_inv (i_tsync : Skips.tsync φ) (i_out : Skips.out φ) (hU : At φ c₀ s) : At φ c₀ (tsSend s) := by
  unfold tsSend
  try dsimp only
  repeat' first
    | with_reducible assumption
    | intro _
    | with_reducible apply ite_inv
    | with_reducible apply emit_inv
    | split
    | with_reducible refine At.step (i_tsync _ _) ?_

theorem execTsyncFrameSend_ansAt (i_clock : Skips.clock φ) (i_regs : Skips.regs φ) (i_tsync : Skips.tsync φ) (i_dies : Skips.dies φ) (i_pcie : Skips.pcie φ) (i_out : Skips.out φ) (hU : At φ c₀ s) : AnsAt φ c₀ (execTsyncFrameSend s) := by
  unfold execTsyncFrameSend
  try dsimp only
  repeat' first
    | with_reducible assumption
    | intro _
    | with_reducible apply ok_ansAt
    | with_reducible apply ite_ansAt
    | with_reducible apply ite_inv
    | with_reducible exact ok_ansAt (by assumption)
    | with_reducible apply tsSend_inv
    | with_reducible apply waitClock_inv
    | split

theorem tsNeedStep_inv {e : Int} (i_regs : Skips.regs φ) (i_tsync : Skips.tsync φ) (i_pcie : Skips.pcie φ) (i_out : Skips.out φ) (hU : At φ c₀ s) : At φ c₀ (tsNeedStep s e) := by
  unfold tsNeedStep
  try dsimp only
  repeat' first
    | with_reducible assumption
    | intro _
    | with_reducible apply ite_inv
    | with_reducible apply wb_inv
    | with_reducible apply raise_inv
    | with_reducible apply tbFollow_inv
    | with_reducible apply wr_inv
    | split
    | with_reducible refine At.step (i_tsync _ _) ?_

theorem tsServo_inv {e : Int} (i_regs : Skips.regs φ) (i_tsync : Skips.tsync φ) (i_pcie : Skips.pcie φ) (i_out : Skips.out φ) (hU : At φ c₀ s) : At φ c₀ (tsServo s e) := by
  unfold tsServo
  try dsimp only
  repeat' first
    | with_reducible assumption
    | intro _
    | with_reducible apply ite_inv
    | with_reducible apply tbFollow_inv
    | with_reducible apply wr_inv
    | split
    | with_reducible refine At.step (i_tsync _ _) ?_

theorem tsLock_inv {e : Int} (i_regs : Skips.regs φ) (i_tsync : Skips.tsync φ) (i_pcie : Skips.pcie φ) (i_out : Skips.out φ) (hU : At φ c₀ s) : At φ c₀ (tsLock s e) := by
  unfold tsLock
  try dsimp only
  repeat' first
    | with_reducible assumption
    | intro _
    | with_reducible apply ite_inv
    | with_reducible apply setTsState_inv
    | split
    | with_reducible refine At.step (i_tsync _ _) ?_

theorem tsAdopt_inv {ws : List Word} (i_regs : Skips.regs φ) (i_tsync : Skips.tsync φ) (i_pkg : Skips.pkg φ) (i_pcie : Skips.pcie φ) (i_out : Skips.out φ) (hU : At φ c₀ s) : At φ c₀ (tsAdopt s ws) := by
  unfold tsAdopt
  try dsimp only
  repeat' first
    | with_reducible assumption
    | intro _
    | with_reducible apply ite_inv
    | with_reducible apply each_inv
    | with_reducible apply setSeconds_inv
    | with_reducible apply wr48_inv
    | with_reducible apply raise_inv
    | split
    | with_reducible refine At.step (i_tsync _ _) ?_

theorem tsMissed_inv (i_regs : Skips.regs φ) (i_tsync : Skips.tsync φ) (hU : At φ c₀ s) : At φ c₀ (tsMissed s) := by
  unfold tsMissed
  try dsimp only
  repeat' first
    | with_reducible assumption
    | intro _
    | with_reducible apply ite_inv
    | with_reducible apply countBy_inv
    | split
    | with_reducible refine At.step (i_tsync _ _) ?_

theorem tsFrame_inv {e : Int} {ws : List Word} (i_regs : Skips.regs φ) (i_tsync : Skips.tsync φ) (i_pkg : Skips.pkg φ) (i_pcie : Skips.pcie φ) (i_out : Skips.out φ) (hU : At φ c₀ s) : At φ c₀ (tsFrame s e ws) := by
  unfold tsFrame
  try dsimp only
  repeat' first
    | with_reducible assumption
    | intro _
    | with_reducible apply ite_inv
    | with_reducible apply wf_inv
    | with_reducible apply tsMissed_inv
    | with_reducible apply wr_inv
    | with_reducible apply tsNeedStep_inv
    | with_reducible apply tsServo_inv
    | with_reducible apply tsAdopt_inv
    | with_reducible apply tsLock_inv
    | split

theorem execTsyncFrameReceive_ansAt {cap : Nat} {c : Chr} {cs : List Chr} (i_regs : Skips.regs φ) (i_tsync : Skips.tsync φ) (i_pkg : Skips.pkg φ) (i_pcie : Skips.pcie φ) (i_out : Skips.out φ) (hU : At φ c₀ s) : AnsAt φ c₀ (execTsyncFrameReceive cap c cs s) := by
  unfold execTsyncFrameReceive
  try dsimp only
  repeat' first
    | with_reducible assumption
    | intro _
    | with_reducible apply ok_ansAt
    | with_reducible apply ite_ansAt
    | with_reducible apply ite_inv
    | with_reducible exact ok_ansAt (by assumption)
    | with_reducible apply tsFrame_inv
    | with_reducible apply raise_inv
    | with_reducible apply count_inv
    | split

theorem stepDie_inv {d : Nat} {e : Int} (i_regs : Skips.regs φ) (i_encs : Skips.encs φ) (i_dies : Skips.dies φ) (i_pcie : Skips.pcie φ) (i_out : Skips.out φ) (hU : At φ c₀ s) : At φ c₀ (stepDie s d e) := by
  unfold stepDie
  try dsimp only
  repeat' first
    | with_reducible assumption
    | intro _
    | with_reducible apply ite_inv
    | with_reducible apply setDie_inv
    | with_reducible apply raise_inv
    | with_reducible apply wr48_inv
    | with_reducible apply each_inv
    | with_reducible apply encTimeStep_inv
    | split

theorem execStepApplied_ansAt (i_clock : Skips.clock φ) (i_regs : Skips.regs φ) (i_encs : Skips.encs φ) (i_tsync : Skips.tsync φ) (i_dies : Skips.dies φ) (i_pcie : Skips.pcie φ) (i_out : Skips.out φ) (hU : At φ c₀ s) : AnsAt φ c₀ (execStepApplied s) := by
  unfold execStepApplied
  try dsimp only
  repeat' first
    | with_reducible assumption
    | intro _
    | with_reducible apply ok_ansAt
    | with_reducible apply ite_ansAt
    | with_reducible apply ite_inv
    | with_reducible exact ok_ansAt (by assumption)
    | with_reducible apply each_inv
    | with_reducible apply waitClock_inv
    | with_reducible apply stepDie_inv
    | with_reducible apply wf_inv
    | with_reducible apply raise_inv
    | with_reducible apply count_inv
    | split
    | with_reducible refine At.step (i_tsync _ _) ?_

theorem execTsyncHoldover_ansAt (i_clock : Skips.clock φ) (i_regs : Skips.regs φ) (i_tsync : Skips.tsync φ) (i_dies : Skips.dies φ) (i_pcie : Skips.pcie φ) (i_out : Skips.out φ) (hU : At φ c₀ s) : AnsAt φ c₀ (execTsyncHoldover s) := by
  unfold execTsyncHoldover
  try dsimp only
  repeat' first
    | with_reducible assumption
    | intro _
    | with_reducible apply ok_ansAt
    | with_reducible apply ite_ansAt
    | with_reducible apply ite_inv
    | with_reducible exact ok_ansAt (by assumption)
    | with_reducible apply waitClock_inv
    | with_reducible apply countBy_inv
    | with_reducible apply setTsState_inv
    | split
    | with_reducible refine At.step (i_tsync _ _) ?_

theorem tsRestart_inv (i_regs : Skips.regs φ) (i_tsync : Skips.tsync φ) (i_pcie : Skips.pcie φ) (i_out : Skips.out φ) (hU : At φ c₀ s) : At φ c₀ (tsRestart s) := by
  unfold tsRestart
  try dsimp only
  repeat' first
    | with_reducible assumption
    | intro _
    | with_reducible apply ite_inv
    | with_reducible apply setTsState_inv
    | split
    | with_reducible refine At.step (i_tsync _ _) ?_

theorem tsStart_inv (i_regs : Skips.regs φ) (i_tsync : Skips.tsync φ) (i_pcie : Skips.pcie φ) (i_out : Skips.out φ) (hU : At φ c₀ s) : At φ c₀ (tsStart s) := by
  unfold tsStart
  try dsimp only
  repeat' first
    | with_reducible assumption
    | intro _
    | with_reducible apply ite_inv
    | with_reducible apply tsRestart_inv
    | split
    | with_reducible refine At.step (i_tsync _ _) ?_

theorem tsStop_inv (i_regs : Skips.regs φ) (i_tsync : Skips.tsync φ) (hU : At φ c₀ s) : At φ c₀ (tsStop s) := by
  unfold tsStop
  try dsimp only
  repeat' first
    | with_reducible assumption
    | intro _
    | with_reducible apply ite_inv
    | with_reducible apply stepDrop_inv
    | split
    | with_reducible refine At.step (i_tsync _ _) ?_

theorem tsOff_inv (i_regs : Skips.regs φ) (i_tsync : Skips.tsync φ) (i_pcie : Skips.pcie φ) (i_out : Skips.out φ) (hU : At φ c₀ s) : At φ c₀ (tsOff s) := by
  unfold tsOff
  try dsimp only
  repeat' first
    | with_reducible assumption
    | intro _
    | with_reducible apply ite_inv
    | with_reducible apply setTsState_inv
    | split

theorem tsHandOver_inv (i_regs : Skips.regs φ) (i_tsync : Skips.tsync φ) (i_pcie : Skips.pcie φ) (i_out : Skips.out φ) (hU : At φ c₀ s) : At φ c₀ (tsHandOver s) := by
  unfold tsHandOver
  try dsimp only
  repeat' first
    | with_reducible assumption
    | intro _
    | with_reducible apply ite_inv
    | with_reducible apply takeShadows_inv
    | with_reducible apply tsRestart_inv
    | split

end Sys2Proof.Laws
end

