-- ==== Sys2Proof/Laws/BurimInv.lean ====
section
/-!
SUPPORT. The fields of the state that each operation of `Machine/Burim.lean` may change: whatever reads none of them is the same after it.
-/

set_option Elab.async false
set_option linter.unusedTactic false
set_option linter.unreachableTactic false
namespace Sys2Proof.Laws

open Sys2Proof.Machine

variable {α₀ : Type} {φ : State → α₀} {c₀ : α₀} {s : State}

theorem countMod_inv {p : Pg} {off : Nat} (i_regs : Skips.regs φ) (hU : At φ c₀ s) : At φ c₀ (countMod s p off) := by
  unfold countMod
  try dsimp only
  repeat' first
    | with_reducible assumption
    | intro _
    | with_reducible apply ite_inv
    | with_reducible apply wr_inv
    | split

theorem dieLost_inv {d : Nat} (i_free : Skips.free φ) (i_regs : Skips.regs φ) (i_shad : Skips.shad φ) (i_hold : Skips.hold φ) (i_fences : Skips.fences φ) (i_ecc : Skips.ecc φ) (i_chutes : Skips.chutes φ) (i_ctxs : Skips.ctxs φ) (i_ports : Skips.ports φ) (i_encs : Skips.encs φ) (i_pds : Skips.pds φ) (i_seamQ : Skips.seamQ φ) (i_echos : Skips.echos φ) (i_mems : Skips.mems φ) (i_msgs : Skips.msgs φ) (i_axes : Skips.axes φ) (i_hoists : Skips.hoists φ) (i_trigs : Skips.trigs φ) (i_cqWait : Skips.cqWait φ) (i_cqSeq : Skips.cqSeq φ) (i_assays : Skips.assays φ) (i_therms : Skips.therms φ) (i_lamps : Skips.lamps φ) (i_mboxes : Skips.mboxes φ) (i_fws : Skips.fws φ) (i_tsync : Skips.tsync φ) (i_hops : Skips.hops φ) (i_dies : Skips.dies φ) (i_pkg : Skips.pkg φ) (i_pcie : Skips.pcie φ) (i_out : Skips.out φ) (hU : At φ c₀ s) : At φ c₀ (dieLost s d) := by
  unfold dieLost
  try dsimp only
  repeat' first
    | with_reducible assumption
    | intro _
    | with_reducible apply ite_inv
    | with_reducible apply wb_inv
    | with_reducible apply allowedFollow_inv
    | with_reducible apply sessClose_inv
    | with_reducible apply diesLearn_inv
    | with_reducible apply fenceDie_inv
    | with_reducible apply raise_inv
    | split

theorem losePathless_inv (i_free : Skips.free φ) (i_regs : Skips.regs φ) (i_shad : Skips.shad φ) (i_hold : Skips.hold φ) (i_fences : Skips.fences φ) (i_ecc : Skips.ecc φ) (i_chutes : Skips.chutes φ) (i_ctxs : Skips.ctxs φ) (i_ports : Skips.ports φ) (i_encs : Skips.encs φ) (i_pds : Skips.pds φ) (i_seamQ : Skips.seamQ φ) (i_echos : Skips.echos φ) (i_mems : Skips.mems φ) (i_msgs : Skips.msgs φ) (i_axes : Skips.axes φ) (i_hoists : Skips.hoists φ) (i_trigs : Skips.trigs φ) (i_cqWait : Skips.cqWait φ) (i_cqSeq : Skips.cqSeq φ) (i_assays : Skips.assays φ) (i_therms : Skips.therms φ) (i_lamps : Skips.lamps φ) (i_mboxes : Skips.mboxes φ) (i_fws : Skips.fws φ) (i_tsync : Skips.tsync φ) (i_hops : Skips.hops φ) (i_dies : Skips.dies φ) (i_pkg : Skips.pkg φ) (i_pcie : Skips.pcie φ) (i_out : Skips.out φ) (hU : At φ c₀ s) : At φ c₀ (losePathless s) := by
  unfold losePathless
  try dsimp only
  repeat' first
    | with_reducible assumption
    | intro _
    | with_reducible apply ite_inv
    | with_reducible apply each_inv
    | with_reducible apply dieLost_inv
    | split

theorem sideRetrain_inv {d : Nat} {i : Nat} (i_regs : Skips.regs φ) (i_burims : Skips.burims φ) (i_pcie : Skips.pcie φ) (i_out : Skips.out φ) (hU : At φ c₀ s) : At φ c₀ (sideRetrain s d i) := by
  unfold sideRetrain
  try dsimp only
  repeat' first
    | with_reducible assumption
    | intro _
    | with_reducible apply ite_inv
    | with_reducible apply setBurim_inv
    | with_reducible apply wf_inv
    | with_reducible apply raise_inv
    | with_reducible apply count_inv
    | split

theorem linkRetrain_inv {d : Nat} {i : Nat} {e : Nat} {j : Nat} (i_regs : Skips.regs φ) (i_burims : Skips.burims φ) (i_pcie : Skips.pcie φ) (i_out : Skips.out φ) (hU : At φ c₀ s) : At φ c₀ (linkRetrain s d i e j) := by
  unfold linkRetrain
  try dsimp only
  repeat' first
    | with_reducible assumption
    | intro _
    | with_reducible apply ite_inv
    | with_reducible apply sideRetrain_inv
    | split

theorem sideDown_inv {d : Nat} {i : Nat} (i_regs : Skips.regs φ) (i_burims : Skips.burims φ) (i_pcie : Skips.pcie φ) (i_out : Skips.out φ) (hU : At φ c₀ s) : At φ c₀ (sideDown s d i) := by
  unfold sideDown
  try dsimp only
  repeat' first
    | with_reducible assumption
    | intro _
    | with_reducible apply ite_inv
    | with_reducible apply raise_inv
    | with_reducible apply setBurim_inv
    | with_reducible apply wf_inv
    | split

theorem sourceGone_inv {d : Nat} {i : Nat} (i_regs : Skips.regs φ) (hU : At φ c₀ s) : At φ c₀ (sourceGone s d i) := by
  unfold sourceGone
  try dsimp only
  repeat' first
    | with_reducible assumption
    | intro _
    | with_reducible apply ite_inv
    | with_reducible apply wf_inv
    | split

theorem flitsReroute_inv {d : Nat} {i : Nat} {fs : List Flit} (i_burims : Skips.burims φ) (hU : At φ c₀ s) : At φ c₀ (flitsReroute s d i fs) := by
  unfold flitsReroute
  try dsimp only
  repeat' first
    | with_reducible assumption
    | intro _
    | with_reducible apply ite_inv
    | with_reducible apply each_inv
    | with_reducible apply setBurim_inv
    | split

theorem linkDown_inv {d : Nat} {i : Nat} {e : Nat} {j : Nat} (i_free : Skips.free φ) (i_regs : Skips.regs φ) (i_shad : Skips.shad φ) (i_hold : Skips.hold φ) (i_fences : Skips.fences φ) (i_ecc : Skips.ecc φ) (i_chutes : Skips.chutes φ) (i_ctxs : Skips.ctxs φ) (i_ports : Skips.ports φ) (i_encs : Skips.encs φ) (i_pds : Skips.pds φ) (i_seamQ : Skips.seamQ φ) (i_echos : Skips.echos φ) (i_mems : Skips.mems φ) (i_msgs : Skips.msgs φ) (i_axes : Skips.axes φ) (i_hoists : Skips.hoists φ) (i_trigs : Skips.trigs φ) (i_cqWait : Skips.cqWait φ) (i_cqSeq : Skips.cqSeq φ) (i_assays : Skips.assays φ) (i_therms : Skips.therms φ) (i_lamps : Skips.lamps φ) (i_mboxes : Skips.mboxes φ) (i_fws : Skips.fws φ) (i_tsync : Skips.tsync φ) (i_burims : Skips.burims φ) (i_hops : Skips.hops φ) (i_dies : Skips.dies φ) (i_pkg : Skips.pkg φ) (i_pcie : Skips.pcie φ) (i_out : Skips.out φ) (hU : At φ c₀ s) : At φ c₀ (linkDown s d i e j) := by
  unfold linkDown
  try dsimp only
  repeat' first
    | with_reducible assumption
    | intro _
    | with_reducible apply ite_inv
    | with_reducible apply sideDown_inv
    | with_reducible apply logRecord_inv
    | with_reducible apply routesFollow_inv
    | with_reducible apply sourceGone_inv
    | with_reducible apply flitsReroute_inv
    | with_reducible apply diesLearn_inv
    | with_reducible apply losePathless_inv
    | with_reducible apply seamsAll_inv
    | split

theorem flitAckTake_inv {d : Nat} {i : Nat} {ack : Nat} (i_burims : Skips.burims φ) (hU : At φ c₀ s) : At φ c₀ (flitAckTake s d i ack) := by
  unfold flitAckTake
  try dsimp only
  repeat' first
    | with_reducible assumption
    | intro _
    | with_reducible apply ite_inv
    | with_reducible apply setBurim_inv
    | split

theorem flitOffer_inv {e : Nat} {j : Nat} {a : FlitIn} (i_burims : Skips.burims φ) (i_dies : Skips.dies φ) (hU : At φ c₀ s) : At φ c₀ (flitOffer s e j a) := by
  unfold flitOffer
  try dsimp only
  repeat' first
    | with_reducible assumption
    | intro _
    | with_reducible apply ite_inv
    | with_reducible apply setBurim_inv
    | with_reducible apply setDie_inv
    | split

theorem flitDeliver_inv {d : Nat} {i : Nat} {e : Nat} {j : Nat} {f : Flit} (i_burims : Skips.burims φ) (hU : At φ c₀ s) : At φ c₀ (flitDeliver s d i e j f) := by
  unfold flitDeliver
  try dsimp only
  repeat' first
    | with_reducible assumption
    | intro _
    | with_reducible apply ite_inv
    | with_reducible apply setBurim_inv
    | split

theorem viaFree_inv {e : Nat} {f : Flit} (i_burims : Skips.burims φ) (hU : At φ c₀ s) : At φ c₀ (viaFree s e f) := by
  unfold viaFree
  try dsimp only
  repeat' first
    | with_reducible assumption
    | intro _
    | with_reducible apply ite_inv
    | with_reducible apply setBurim_inv
    | split

theorem heardFrom_inv {d : Nat} {src : Nat} (i_dies : Skips.dies φ) (hU : At φ c₀ s) : At φ c₀ (heardFrom s d src) := by
  unfold heardFrom
  try dsimp only
  repeat' first
    | with_reducible assumption
    | intro _
    | with_reducible apply ite_inv
    | with_reducible apply setDie_inv
    | split

theorem flitAccept_inv {d : Nat} {i : Nat} {e : Nat} {j : Nat} {f : Flit} {ack : Nat} {hop : Nat} (i_regs : Skips.regs φ) (i_burims : Skips.burims φ) (i_dies : Skips.dies φ) (hU : At φ c₀ s) : At φ c₀ (flitAccept s d i e j f ack hop) := by
  unfold flitAccept
  try dsimp only
  repeat' first
    | with_reducible assumption
    | intro _
    | with_reducible apply ite_inv
    | with_reducible apply flitAckTake_inv
    | with_reducible apply setBurim_inv
    | with_reducible apply countMod_inv
    | with_reducible apply wf_inv
    | with_reducible apply flitDeliver_inv
    | with_reducible apply heardFrom_inv
    | split

theorem nakSend_inv {d : Nat} {i : Nat} (i_burims : Skips.burims φ) (hU : At φ c₀ s) : At φ c₀ (nakSend s d i) := by
  unfold nakSend
  try dsimp only
  repeat' first
    | with_reducible assumption
    | intro _
    | with_reducible apply ite_inv
    | with_reducible apply setBurim_inv
    | split

theorem sideUp_inv {d : Nat} {i : Nat} {e : Nat} {j : Nat} (i_regs : Skips.regs φ) (i_burims : Skips.burims φ) (i_pcie : Skips.pcie φ) (i_out : Skips.out φ) (hU : At φ c₀ s) : At φ c₀ (sideUp s d i e j) := by
  unfold sideUp
  try dsimp only
  repeat' first
    | with_reducible assumption
    | intro _
    | with_reducible apply ite_inv
    | with_reducible apply flitAckTake_inv
    | with_reducible apply raise_inv
    | with_reducible apply setBurim_inv
    | with_reducible apply wf_inv
    | with_reducible apply resend_inv
    | split

theorem flitBad_inv {d : Nat} {i : Nat} {e : Nat} {j : Nat} {ann : Bool} {replay : Bool} (i_regs : Skips.regs φ) (i_burims : Skips.burims φ) (i_pcie : Skips.pcie φ) (i_out : Skips.out φ) (hU : At φ c₀ s) : At φ c₀ (flitBad s d i e j ann replay) := by
  unfold flitBad
  try dsimp only
  repeat' first
    | with_reducible assumption
    | intro _
    | with_reducible apply ite_inv
    | with_reducible apply count_inv
    | with_reducible apply setBurim_inv
    | with_reducible apply linkRetrain_inv
    | with_reducible apply nakSend_inv
    | split

theorem flitArrive_inv {d : Nat} {i : Nat} {e : Nat} {j : Nat} {x : Nat} {hop : Nat} {ann : Bool} {replay : Bool} (i_regs : Skips.regs φ) (i_burims : Skips.burims φ) (i_dies : Skips.dies φ) (i_pcie : Skips.pcie φ) (i_out : Skips.out φ) (hU : At φ c₀ s) : At φ c₀ (flitArrive s d i e j x hop ann replay) := by
  unfold flitArrive
  try dsimp only
  repeat' first
    | with_reducible assumption
    | intro _
    | with_reducible apply ite_inv
    | with_reducible apply flitBad_inv
    | with_reducible apply heardFrom_inv
    | with_reducible apply flitAckTake_inv
    | with_reducible apply flitAccept_inv
    | with_reducible apply nakSend_inv
    | split

theorem flitReplay_inv {d : Nat} {i : Nat} {e : Nat} {j : Nat} {q : Nat} {rest : List Nat} {a : FlitIn} (i_regs : Skips.regs φ) (i_burims : Skips.burims φ) (i_dies : Skips.dies φ) (i_pcie : Skips.pcie φ) (i_out : Skips.out φ) (hU : At φ c₀ s) : At φ c₀ (flitReplay s d i e j q rest a) := by
  unfold flitReplay
  try dsimp only
  repeat' first
    | with_reducible assumption
    | intro _
    | with_reducible apply ite_inv
    | with_reducible apply setBurim_inv
    | with_reducible apply resend_inv
    | with_reducible apply count_inv
    | with_reducible apply flitArrive_inv
    | split

theorem flitTake_inv {e : Nat} {j : Nat} {f : Flit} (i_regs : Skips.regs φ) (i_burims : Skips.burims φ) (hU : At φ c₀ s) : At φ c₀ (flitTake s e j f).2 := by
  unfold flitTake
  try dsimp only
  repeat' first
    | with_reducible assumption
    | intro _
    | with_reducible apply ite_inv
    | with_reducible apply countMod_inv
    | with_reducible apply viaFree_inv
    | with_reducible apply setBurim_inv
    | split

theorem flitNew_inv {d : Nat} {i : Nat} {e : Nat} {j : Nat} {f : Flit} {a : FlitIn} (i_regs : Skips.regs φ) (i_burims : Skips.burims φ) (i_dies : Skips.dies φ) (i_pcie : Skips.pcie φ) (i_out : Skips.out φ) (hU : At φ c₀ s) : At φ c₀ (flitNew s d i e j f a) := by
  unfold flitNew
  try dsimp only
  repeat' first
    | with_reducible assumption
    | intro _
    | with_reducible apply ite_inv
    | with_reducible apply flitTake_inv
    | with_reducible apply injPick_inv
    | with_reducible apply setBurim_inv
    | with_reducible apply flitArrive_inv
    | (with_reducible refine pair_inv (by assumption) ?_)
    | split

theorem flitIdle_inv {d : Nat} {i : Nat} {e : Nat} {j : Nat} {a : FlitIn} (i_regs : Skips.regs φ) (i_burims : Skips.burims φ) (i_dies : Skips.dies φ) (i_pcie : Skips.pcie φ) (i_out : Skips.out φ) (hU : At φ c₀ s) : At φ c₀ (flitIdle s d i e j a) := by
  unfold flitIdle
  try dsimp only
  repeat' first
    | with_reducible assumption
    | intro _
    | with_reducible apply ite_inv
    | with_reducible apply flitArrive_inv
    | split

theorem flitIn_inv {d : Nat} {i : Nat} {e : Nat} {j : Nat} {a : FlitIn} (i_regs : Skips.regs φ) (i_burims : Skips.burims φ) (i_dies : Skips.dies φ) (i_pcie : Skips.pcie φ) (i_out : Skips.out φ) (hU : At φ c₀ s) : At φ c₀ (flitIn s d i e j a) := by
  unfold flitIn
  try dsimp only
  repeat' first
    | with_reducible assumption
    | intro _
    | with_reducible apply ite_inv
    | with_reducible apply flitOffer_inv
    | with_reducible apply resend_inv
    | with_reducible apply flitReplay_inv
    | with_reducible apply flitNew_inv
    | with_reducible apply flitIdle_inv
    | split

theorem execFlitReceive_ansAt {d : Nat} {i : Nat} {a : FlitIn} (i_regs : Skips.regs φ) (i_burims : Skips.burims φ) (i_dies : Skips.dies φ) (i_pcie : Skips.pcie φ) (i_out : Skips.out φ) (hU : At φ c₀ s) : AnsAt φ c₀ (execFlitReceive d i a s) := by
  unfold execFlitReceive
  try dsimp only
  repeat' first
    | with_reducible assumption
    | intro _
    | with_reducible apply ok_ansAt
    | with_reducible apply ite_ansAt
    | with_reducible apply ite_inv
    | with_reducible exact ok_ansAt (by assumption)
    | with_reducible apply flitIn_inv
    | split

theorem execNakReceive_ansAt {d : Nat} {i : Nat} {seq : Nat} (i_burims : Skips.burims φ) (i_pcie : Skips.pcie φ) (i_out : Skips.out φ) (hU : At φ c₀ s) : AnsAt φ c₀ (execNakReceive d i seq s) := by
  unfold execNakReceive
  try dsimp only
  repeat' first
    | with_reducible assumption
    | intro _
    | with_reducible apply ok_ansAt
    | with_reducible apply ite_ansAt
    | with_reducible apply ite_inv
    | with_reducible exact ok_ansAt (by assumption)
    | with_reducible apply setBurim_inv
    | with_reducible apply resend_inv
    | split

theorem execBurimRetrain_ansAt {d : Nat} {i : Nat} (i_regs : Skips.regs φ) (i_burims : Skips.burims φ) (i_pcie : Skips.pcie φ) (i_out : Skips.out φ) (hU : At φ c₀ s) : AnsAt φ c₀ (execBurimRetrain d i s) := by
  unfold execBurimRetrain
  try dsimp only
  repeat' first
    | with_reducible assumption
    | intro _
    | with_reducible apply ok_ansAt
    | with_reducible apply ite_ansAt
    | with_reducible apply ite_inv
    | with_reducible exact ok_ansAt (by assumption)
    | with_reducible apply linkRetrain_inv
    | split

theorem execBurimRetrainDone_ansAt {d : Nat} {i : Nat} {good : Bool} (i_free : Skips.free φ) (i_regs : Skips.regs φ) (i_shad : Skips.shad φ) (i_hold : Skips.hold φ) (i_fences : Skips.fences φ) (i_ecc : Skips.ecc φ) (i_chutes : Skips.chutes φ) (i_ctxs : Skips.ctxs φ) (i_ports : Skips.ports φ) (i_encs : Skips.encs φ) (i_pds : Skips.pds φ) (i_seamQ : Skips.seamQ φ) (i_echos : Skips.echos φ) (i_mems : Skips.mems φ) (i_msgs : Skips.msgs φ) (i_axes : Skips.axes φ) (i_hoists : Skips.hoists φ) (i_trigs : Skips.trigs φ) (i_cqWait : Skips.cqWait φ) (i_cqSeq : Skips.cqSeq φ) (i_assays : Skips.assays φ) (i_therms : Skips.therms φ) (i_lamps : Skips.lamps φ) (i_mboxes : Skips.mboxes φ) (i_fws : Skips.fws φ) (i_tsync : Skips.tsync φ) (i_burims : Skips.burims φ) (i_hops : Skips.hops φ) (i_dies : Skips.dies φ) (i_pkg : Skips.pkg φ) (i_pcie : Skips.pcie φ) (i_out : Skips.out φ) (hU : At φ c₀ s) : AnsAt φ c₀ (execBurimRetrainDone d i good s) := by
  unfold execBurimRetrainDone
  try dsimp only
  repeat' first
    | with_reducible assumption
    | intro _
    | with_reducible apply ok_ansAt
    | with_reducible apply ite_ansAt
    | with_reducible apply ite_inv
    | with_reducible exact ok_ansAt (by assumption)
    | with_reducible apply diesLearn_inv
    | with_reducible apply sideUp_inv
    | with_reducible apply setBurim_inv
    | with_reducible apply linkDown_inv
    | split

end Sys2Proof.Laws
end

