-- ==== Sys2Proof/Laws/MemWinInv.lean ====
section
/-!
SUPPORT. The fields of the state that each operation of `Machine/MemWin.lean` may change: whatever reads none of them is the same after it.
-/

set_option Elab.async false
set_option linter.unusedTactic false
set_option linter.unreachableTactic false
namespace Sys2Proof.Laws

open Sys2Proof.Machine

variable {α₀ : Type} {φ : State → α₀} {c₀ : α₀} {s : State}

theorem collision_inv {r : Req} {d : Nat} {w : Nat} (i_regs : Skips.regs φ) (i_chutes : Skips.chutes φ) (i_trigs : Skips.trigs φ) (i_dies : Skips.dies φ) (i_pcie : Skips.pcie φ) (i_out : Skips.out φ) (hU : At φ c₀ s) : At φ c₀ (collision s r d w) := by
  unfold collision
  try dsimp only
  repeat' first
    | with_reducible assumption
    | intro _
    | with_reducible apply ite_inv
    | with_reducible apply raise_inv
    | with_reducible apply wr_inv
    | with_reducible apply count_inv
    | with_reducible apply logRecord_inv
    | split

theorem wordWrite_inv {r : Req} {d : Nat} {dps : Bool} {w : Nat} {k : Nat} {bs : List Byte} {collide : Bool} (i_regs : Skips.regs φ) (i_mem : Skips.mem φ) (i_ecc : Skips.ecc φ) (i_chutes : Skips.chutes φ) (i_mems : Skips.mems φ) (i_trigs : Skips.trigs φ) (i_dies : Skips.dies φ) (i_pcie : Skips.pcie φ) (i_out : Skips.out φ) (hU : At φ c₀ s) : At φ c₀ (wordWrite s r d dps w k bs collide) := by
  unfold wordWrite
  try dsimp only
  repeat' first
    | with_reducible assumption
    | intro _
    | with_reducible apply ite_inv
    | with_reducible apply collision_inv
    | with_reducible apply wrWord_inv
    | with_reducible apply readWord_inv
    | (with_reducible refine trip_inv (by assumption) ?_)
    | split

theorem windowWord_inv {r : Req} {d : Nat} {dps : Bool} {w : Nat} {k : Nat} {bs : List Byte} {poisoned : Bool} {collide : Bool} (i_regs : Skips.regs φ) (i_mem : Skips.mem φ) (i_ecc : Skips.ecc φ) (i_chutes : Skips.chutes φ) (i_mems : Skips.mems φ) (i_trigs : Skips.trigs φ) (i_dies : Skips.dies φ) (i_pcie : Skips.pcie φ) (i_out : Skips.out φ) (hU : At φ c₀ s) : At φ c₀ (windowWord s r d dps w k bs poisoned collide) := by
  unfold windowWord
  try dsimp only
  repeat' first
    | with_reducible assumption
    | intro _
    | with_reducible apply ite_inv
    | with_reducible apply logErr_inv
    | with_reducible apply collision_inv
    | with_reducible apply poisonWord_inv
    | with_reducible apply wordWrite_inv
    | split

theorem poisonRx_inv (i_regs : Skips.regs φ) (i_pcie : Skips.pcie φ) (i_out : Skips.out φ) (hU : At φ c₀ s) : At φ c₀ (poisonRx s) := by
  unfold poisonRx
  try dsimp only
  repeat' first
    | with_reducible assumption
    | intro _
    | with_reducible apply ite_inv
    | with_reducible apply raise_inv
    | with_reducible apply count_inv
    | split

theorem memWrite_inv {r : Req} {d : Nat} {off : Nat} {bs : List Byte} {poisoned : Bool} {collide : List Nat} (i_regs : Skips.regs φ) (i_mem : Skips.mem φ) (i_ecc : Skips.ecc φ) (i_chutes : Skips.chutes φ) (i_mems : Skips.mems φ) (i_trigs : Skips.trigs φ) (i_dies : Skips.dies φ) (i_pcie : Skips.pcie φ) (i_resp : Skips.resp φ) (i_out : Skips.out φ) (hU : At φ c₀ s) : At φ c₀ (memWrite s r d off bs poisoned collide) := by
  unfold memWrite
  try dsimp only
  repeat' first
    | with_reducible assumption
    | intro _
    | with_reducible apply ite_inv
    | with_reducible apply poisonRx_inv
    | with_reducible apply noAnswer_inv
    | with_reducible apply denyCount_inv
    | with_reducible apply each_inv
    | with_reducible apply windowWord_inv
    | split

theorem windowRead_inv {d : Nat} {dps : Bool} {w : Nat} {src : Nat} {eff : Option Link} {reason : Nat} (i_regs : Skips.regs φ) (i_ecc : Skips.ecc φ) (i_chutes : Skips.chutes φ) (i_mems : Skips.mems φ) (i_trigs : Skips.trigs φ) (i_dies : Skips.dies φ) (i_pcie : Skips.pcie φ) (i_out : Skips.out φ) (hU : At φ c₀ s) : At φ c₀ (windowRead s d dps w src eff reason).2.2 := by
  unfold windowRead
  try dsimp only
  repeat' first
    | with_reducible assumption
    | intro _
    | with_reducible apply ite_inv
    | with_reducible apply readWord_inv
    | (with_reducible refine trip_inv (by assumption) ?_)
    | split

theorem readBytes_inv {x0 : List (Nat × Nat × Nat)} {x2 : Nat} {x3 : Bool} {x4 : Nat} (i_regs : Skips.regs φ) (i_ecc : Skips.ecc φ) (i_chutes : Skips.chutes φ) (i_mems : Skips.mems φ) (i_trigs : Skips.trigs φ) (i_dies : Skips.dies φ) (i_pcie : Skips.pcie φ) (i_out : Skips.out φ) (hU : At φ c₀ s) : At φ c₀ (readBytes x0 s x2 x3 x4).2.2 := by
  induction x0 generalizing s x2 x3 x4 with
  | nil => exact hU
  | cons e r ih =>
    unfold readBytes
    try dsimp only
    repeat' first
      | with_reducible assumption
      | intro _
      | with_reducible apply ih
      | with_reducible apply ite_inv
      | with_reducible apply windowRead_inv
      | (with_reducible refine trip_inv (by assumption) ?_)
      | split

theorem memRead_inv {r : Req} {d : Nat} {off : Nat} {len : Nat} (i_regs : Skips.regs φ) (i_ecc : Skips.ecc φ) (i_chutes : Skips.chutes φ) (i_mems : Skips.mems φ) (i_trigs : Skips.trigs φ) (i_dies : Skips.dies φ) (i_pcie : Skips.pcie φ) (i_resp : Skips.resp φ) (i_out : Skips.out φ) (hU : At φ c₀ s) : At φ c₀ (memRead s r d off len) := by
  unfold memRead
  try dsimp only
  repeat' first
    | with_reducible assumption
    | intro _
    | with_reducible apply ite_inv
    | with_reducible apply noAnswer_inv
    | with_reducible apply denyCount_inv
    | with_reducible apply readBytes_inv
    | with_reducible apply whenDo_inv
    | with_reducible apply count_inv
    | (with_reducible refine trip_inv (by assumption) ?_)
    | split
    | with_reducible refine At.step (i_resp _ _) ?_

theorem execMemWindowWrite_ansAt {r : Req} {d : Nat} {off : Nat} {bs : List Byte} {poisoned : Bool} {collide : List Nat} (i_regs : Skips.regs φ) (i_mem : Skips.mem φ) (i_ecc : Skips.ecc φ) (i_chutes : Skips.chutes φ) (i_mems : Skips.mems φ) (i_trigs : Skips.trigs φ) (i_dies : Skips.dies φ) (i_pcie : Skips.pcie φ) (i_resp : Skips.resp φ) (i_out : Skips.out φ) (hU : At φ c₀ s) : AnsAt φ c₀ (execMemWindowWrite r d off bs poisoned collide s) := by
  unfold execMemWindowWrite
  try dsimp only
  repeat' first
    | with_reducible assumption
    | intro _
    | with_reducible apply ok_ansAt
    | with_reducible apply ite_ansAt
    | with_reducible apply ite_inv
    | with_reducible exact ok_ansAt (by assumption)
    | with_reducible apply memWrite_inv
    | split

theorem execMemWindowRead_ansAt {r : Req} {d : Nat} {off : Nat} {len : Nat} (i_regs : Skips.regs φ) (i_ecc : Skips.ecc φ) (i_chutes : Skips.chutes φ) (i_mems : Skips.mems φ) (i_trigs : Skips.trigs φ) (i_dies : Skips.dies φ) (i_pcie : Skips.pcie φ) (i_resp : Skips.resp φ) (i_out : Skips.out φ) (hU : At φ c₀ s) : AnsAt φ c₀ (execMemWindowRead r d off len s) := by
  unfold execMemWindowRead
  try dsimp only
  repeat' first
    | with_reducible assumption
    | intro _
    | with_reducible apply ok_ansAt
    | with_reducible apply ite_ansAt
    | with_reducible apply ite_inv
    | with_reducible exact ok_ansAt (by assumption)
    | with_reducible apply memRead_inv
    | split

theorem execDescriptorWrite_ansAt {r : Req} {d : Nat} {k : Nat} {w : Nat} {v : Word} (i_regs : Skips.regs φ) (i_mem : Skips.mem φ) (i_ecc : Skips.ecc φ) (i_chutes : Skips.chutes φ) (i_mems : Skips.mems φ) (i_trigs : Skips.trigs φ) (i_dies : Skips.dies φ) (i_pcie : Skips.pcie φ) (i_resp : Skips.resp φ) (i_out : Skips.out φ) (hU : At φ c₀ s) : AnsAt φ c₀ (execDescriptorWrite r d k w v s) := by
  unfold execDescriptorWrite
  try dsimp only
  repeat' first
    | with_reducible assumption
    | intro _
    | with_reducible apply ok_ansAt
    | with_reducible apply ite_ansAt
    | with_reducible apply ite_inv
    | with_reducible exact ok_ansAt (by assumption)
    | with_reducible apply memWrite_inv
    | split

end Sys2Proof.Laws
end

