-- ==== Sys2Proof/Laws/BusInv.lean ====
section
/-!
SUPPORT. The fields of the state that each operation of `Machine/Bus.lean` may change: whatever reads none of them is the same after it.
-/

set_option Elab.async false
set_option linter.unusedTactic false
set_option linter.unreachableTactic false
namespace Sys2Proof.Laws

open Sys2Proof.Machine

variable {α₀ : Type} {φ : State → α₀} {c₀ : α₀} {s : State}

theorem ctrlWrite_inv {r : Req} {p : Pg} {v : Word} (i_free : Skips.free φ) (i_regs : Skips.regs φ) (i_shad : Skips.shad φ) (i_hold : Skips.hold φ) (i_fences : Skips.fences φ) (i_ecc : Skips.ecc φ) (i_chutes : Skips.chutes φ) (i_ctxs : Skips.ctxs φ) (i_ports : Skips.ports φ) (i_encs : Skips.encs φ) (i_pds : Skips.pds φ) (i_seamQ : Skips.seamQ φ) (i_echos : Skips.echos φ) (i_mems : Skips.mems φ) (i_msgs : Skips.msgs φ) (i_axes : Skips.axes φ) (i_hoists : Skips.hoists φ) (i_trigs : Skips.trigs φ) (i_cqWait : Skips.cqWait φ) (i_cqSeq : Skips.cqSeq φ) (i_assays : Skips.assays φ) (i_therms : Skips.therms φ) (i_lamps : Skips.lamps φ) (i_mboxes : Skips.mboxes φ) (i_fws : Skips.fws φ) (i_tsync : Skips.tsync φ) (i_hops : Skips.hops φ) (i_dies : Skips.dies φ) (i_pkg : Skips.pkg φ) (i_pcie : Skips.pcie φ) (i_out : Skips.out φ) (hU : At φ c₀ s) : At φ c₀ (ctrlWrite s r p v) := by
  unfold ctrlWrite
  try dsimp only
  repeat' first
    | with_reducible assumption
    | intro _
    | with_reducible apply ite_inv
    | with_reducible apply fenceWrite_inv
    | with_reducible apply nextFree_inv
    | with_reducible apply primaryWrite_inv
    | with_reducible apply whenDo_inv
    | with_reducible apply enSet_inv
    | with_reducible apply softReset_inv
    | split

theorem hdrWrite_inv {r : Req} {p : Pg} {off : Nat} {v : Word} (i_free : Skips.free φ) (i_regs : Skips.regs φ) (i_shad : Skips.shad φ) (i_gos : Skips.gos φ) (i_hold : Skips.hold φ) (i_fences : Skips.fences φ) (i_ecc : Skips.ecc φ) (i_chutes : Skips.chutes φ) (i_ctxs : Skips.ctxs φ) (i_ports : Skips.ports φ) (i_encs : Skips.encs φ) (i_pds : Skips.pds φ) (i_seamQ : Skips.seamQ φ) (i_echos : Skips.echos φ) (i_mems : Skips.mems φ) (i_msgs : Skips.msgs φ) (i_axes : Skips.axes φ) (i_hoists : Skips.hoists φ) (i_trigs : Skips.trigs φ) (i_cqWait : Skips.cqWait φ) (i_cqSeq : Skips.cqSeq φ) (i_assays : Skips.assays φ) (i_therms : Skips.therms φ) (i_lamps : Skips.lamps φ) (i_mboxes : Skips.mboxes φ) (i_fws : Skips.fws φ) (i_tsync : Skips.tsync φ) (i_hops : Skips.hops φ) (i_dies : Skips.dies φ) (i_pkg : Skips.pkg φ) (i_pcie : Skips.pcie φ) (i_out : Skips.out φ) (hU : At φ c₀ s) : At φ c₀ (hdrWrite s r p off v) := by
  unfold hdrWrite
  try dsimp only
  repeat' first
    | with_reducible assumption
    | intro _
    | with_reducible apply ite_inv
    | with_reducible apply ctrlWrite_inv
    | with_reducible apply commitWrite_inv
    | with_reducible apply evtLat_inv
    | with_reducible apply evtEn_inv
    | with_reducible apply evtLvl_inv
    | with_reducible apply evtVec_inv
    | with_reducible apply evtSet_inv
    | with_reducible apply errClear_inv
    | split

theorem ctxFollow_inv {d : Nat} (i_regs : Skips.regs φ) (i_pcie : Skips.pcie φ) (i_out : Skips.out φ) (hU : At φ c₀ s) : At φ c₀ (ctxFollow s d) := by
  unfold ctxFollow
  try dsimp only
  repeat' first
    | with_reducible assumption
    | intro _
    | with_reducible apply ite_inv
    | with_reducible apply setDyn_inv
    | split

theorem ctxWrite_inv {r : Req} {p : Pg} {off : Nat} {v : Word} (i_free : Skips.free φ) (i_regs : Skips.regs φ) (i_shad : Skips.shad φ) (i_gos : Skips.gos φ) (i_hold : Skips.hold φ) (i_ticks : Skips.ticks φ) (i_mem : Skips.mem φ) (i_ecc : Skips.ecc φ) (i_chutes : Skips.chutes φ) (i_ctxs : Skips.ctxs φ) (i_ports : Skips.ports φ) (i_seamQ : Skips.seamQ φ) (i_echos : Skips.echos φ) (i_mems : Skips.mems φ) (i_trigs : Skips.trigs φ) (i_dies : Skips.dies φ) (i_pcie : Skips.pcie φ) (i_resp : Skips.resp φ) (i_out : Skips.out φ) (hU : At φ c₀ s) : At φ c₀ (ctxWrite s r p off v) := by
  unfold ctxWrite
  try dsimp only
  repeat' first
    | with_reducible assumption
    | intro _
    | with_reducible apply ite_inv
    | with_reducible apply ctxCmdWrite_inv
    | with_reducible apply ctxCommitWrite_inv
    | with_reducible apply ctxFollow_inv
    | with_reducible apply plainWrite_inv
    | split

theorem threshWrite_inv {r : Req} {p : Pg} {v : Word} (i_regs : Skips.regs φ) (i_shad : Skips.shad φ) (i_hold : Skips.hold φ) (i_ticks : Skips.ticks φ) (i_pcie : Skips.pcie φ) (i_out : Skips.out φ) (hU : At φ c₀ s) : At φ c₀ (threshWrite s r p v) := by
  unfold threshWrite
  try dsimp only
  repeat' first
    | with_reducible assumption
    | intro _
    | with_reducible apply ite_inv
    | with_reducible apply plainWrite_inv
    | with_reducible apply wb_inv
    | with_reducible apply cgFollow_inv
    | with_reducible apply latch_inv
    | split

theorem chuteWrite_inv {r : Req} {p : Pg} {off : Nat} {v : Word} (i_regs : Skips.regs φ) (i_shad : Skips.shad φ) (i_hold : Skips.hold φ) (i_ticks : Skips.ticks φ) (i_chutes : Skips.chutes φ) (i_trigs : Skips.trigs φ) (i_pcie : Skips.pcie φ) (i_out : Skips.out φ) (hU : At φ c₀ s) : At φ c₀ (chuteWrite s r p off v) := by
  unfold chuteWrite
  try dsimp only
  repeat' first
    | with_reducible assumption
    | intro _
    | with_reducible apply ite_inv
    | with_reducible apply chutePush_inv
    | with_reducible apply threshWrite_inv
    | with_reducible apply plainWrite_inv
    | with_reducible apply mirrorFollow_inv
    | split

theorem cqSizeSet_inv {r : Req} {d : Nat} {q : Nat} {v : Word} (i_regs : Skips.regs φ) (i_shad : Skips.shad φ) (i_hold : Skips.hold φ) (i_ticks : Skips.ticks φ) (i_pcie : Skips.pcie φ) (i_out : Skips.out φ) (hU : At φ c₀ s) : At φ c₀ (cqSizeSet s r d q v) := by
  unfold cqSizeSet
  try dsimp only
  repeat' first
    | with_reducible assumption
    | intro _
    | with_reducible apply ite_inv
    | with_reducible apply plainWrite_inv
    | with_reducible apply cqFollow_inv
    | with_reducible apply wr_inv
    | split

theorem cqConsSet_inv {r : Req} {d : Nat} {q : Nat} {v : Word} (i_regs : Skips.regs φ) (i_shad : Skips.shad φ) (i_hold : Skips.hold φ) (i_ticks : Skips.ticks φ) (i_pcie : Skips.pcie φ) (i_out : Skips.out φ) (hU : At φ c₀ s) : At φ c₀ (cqConsSet s r d q v) := by
  unfold cqConsSet
  try dsimp only
  repeat' first
    | with_reducible assumption
    | intro _
    | with_reducible apply ite_inv
    | with_reducible apply cqFollow_inv
    | with_reducible apply plainWrite_inv
    | split

theorem hgWrite_inv {r : Req} {p : Pg} {off : Nat} {v : Word} (i_regs : Skips.regs φ) (i_shad : Skips.shad φ) (i_hold : Skips.hold φ) (i_ticks : Skips.ticks φ) (i_pcie : Skips.pcie φ) (i_out : Skips.out φ) (hU : At φ c₀ s) : At φ c₀ (hgWrite s r p off v) := by
  unfold hgWrite
  try dsimp only
  repeat' first
    | with_reducible assumption
    | intro _
    | with_reducible apply ite_inv
    | with_reducible apply cqSizeSet_inv
    | with_reducible apply cqConsSet_inv
    | with_reducible apply plainWrite_inv
    | split

theorem mboxWrite_inv {r : Req} {p : Pg} {off : Nat} {v : Word} (i_regs : Skips.regs φ) (i_shad : Skips.shad φ) (i_hold : Skips.hold φ) (i_ticks : Skips.ticks φ) (i_mboxes : Skips.mboxes φ) (i_pcie : Skips.pcie φ) (i_out : Skips.out φ) (hU : At φ c₀ s) : At φ c₀ (mboxWrite s r p off v) := by
  unfold mboxWrite
  try dsimp only
  repeat' first
    | with_reducible assumption
    | intro _
    | with_reducible apply ite_inv
    | with_reducible apply inHdrWrite_inv
    | with_reducible apply outAck_inv
    | with_reducible apply plainWrite_inv
    | split

theorem tabCtrl_inv {r : Req} {d : Nat} {v : Word} (i_regs : Skips.regs φ) (i_assays : Skips.assays φ) (hU : At φ c₀ s) : At φ c₀ (tabCtrl s r d v) := by
  unfold tabCtrl
  try dsimp only
  repeat' first
    | with_reducible assumption
    | intro _
    | with_reducible apply ite_inv
    | with_reducible apply whenDo_inv
    | with_reducible apply tabRead_inv
    | with_reducible apply tabWrite_inv
    | with_reducible apply tabClear_inv
    | split

theorem echoWrite_inv {r : Req} {p : Pg} {off : Nat} {v : Word} (i_regs : Skips.regs φ) (i_shad : Skips.shad φ) (i_hold : Skips.hold φ) (i_ticks : Skips.ticks φ) (i_mem : Skips.mem φ) (i_ecc : Skips.ecc φ) (i_chutes : Skips.chutes φ) (i_ctxs : Skips.ctxs φ) (i_echos : Skips.echos φ) (i_mems : Skips.mems φ) (i_trigs : Skips.trigs φ) (i_dies : Skips.dies φ) (i_pcie : Skips.pcie φ) (i_out : Skips.out φ) (hU : At φ c₀ s) : At φ c₀ (echoWrite s r p off v) := by
  unfold echoWrite
  try dsimp only
  repeat' first
    | with_reducible assumption
    | intro _
    | with_reducible apply ite_inv
    | with_reducible apply whenDo_inv
    | with_reducible apply sweepStart_inv
    | with_reducible apply sweepAbort_inv
    | with_reducible apply nzCmd_inv
    | with_reducible apply plainWrite_inv
    | split

theorem sessionWrite_inv {r : Req} {p : Pg} {off : Nat} {v : Word} (i_free : Skips.free φ) (i_regs : Skips.regs φ) (i_shad : Skips.shad φ) (i_hold : Skips.hold φ) (i_ticks : Skips.ticks φ) (i_dies : Skips.dies φ) (i_pcie : Skips.pcie φ) (i_out : Skips.out φ) (hU : At φ c₀ s) : At φ c₀ (sessionWrite s r p off v) := by
  unfold sessionWrite
  try dsimp only
  repeat' first
    | with_reducible assumption
    | intro _
    | with_reducible apply ite_inv
    | with_reducible apply sessCtrlWrite_inv
    | with_reducible apply sessCheck_inv
    | with_reducible apply sessDataWrite_inv
    | with_reducible apply plainWrite_inv
    | split

theorem tbWrite_inv {r : Req} {p : Pg} {off : Nat} {v : Word} (i_regs : Skips.regs φ) (i_shad : Skips.shad φ) (i_hold : Skips.hold φ) (i_ticks : Skips.ticks φ) (i_pkg : Skips.pkg φ) (i_pcie : Skips.pcie φ) (i_out : Skips.out φ) (hU : At φ c₀ s) : At φ c₀ (tbWrite s r p off v) := by
  unfold tbWrite
  try dsimp only
  repeat' first
    | with_reducible assumption
    | intro _
    | with_reducible apply ite_inv
    | with_reducible apply plainWrite_inv
    | with_reducible apply tbFollow_inv
    | split
    | with_reducible refine At.step (i_pkg _ _) ?_

theorem blockWrite_inv {r : Req} {p : Pg} {off : Nat} {v : Word} (i_free : Skips.free φ) (i_regs : Skips.regs φ) (i_shad : Skips.shad φ) (i_gos : Skips.gos φ) (i_hold : Skips.hold φ) (i_ticks : Skips.ticks φ) (i_fences : Skips.fences φ) (i_mem : Skips.mem φ) (i_ecc : Skips.ecc φ) (i_ret : Skips.ret φ) (i_retEcc : Skips.retEcc φ) (i_chutes : Skips.chutes φ) (i_ctxs : Skips.ctxs φ) (i_ports : Skips.ports φ) (i_encs : Skips.encs φ) (i_pds : Skips.pds φ) (i_seamQ : Skips.seamQ φ) (i_echos : Skips.echos φ) (i_mems : Skips.mems φ) (i_msgs : Skips.msgs φ) (i_axes : Skips.axes φ) (i_hoists : Skips.hoists φ) (i_trigs : Skips.trigs φ) (i_cqWait : Skips.cqWait φ) (i_cqSeq : Skips.cqSeq φ) (i_assays : Skips.assays φ) (i_therms : Skips.therms φ) (i_lamps : Skips.lamps φ) (i_mboxes : Skips.mboxes φ) (i_fws : Skips.fws φ) (i_tsync : Skips.tsync φ) (i_hops : Skips.hops φ) (i_dies : Skips.dies φ) (i_pkg : Skips.pkg φ) (i_pcie : Skips.pcie φ) (i_resp : Skips.resp φ) (i_out : Skips.out φ) (hU : At φ c₀ s) : At φ c₀ (blockWrite s r p off v) := by
  unfold blockWrite
  try dsimp only
  repeat' first
    | with_reducible assumption
    | intro _
    | with_reducible apply ite_inv
    | with_reducible apply modeReq_inv
    | with_reducible apply modeLeadSet_inv
    | with_reducible apply plainWrite_inv
    | with_reducible apply tbWrite_inv
    | with_reducible apply dieCtrl_inv
    | with_reducible apply tlClearWrite_inv
    | with_reducible apply asCmd_inv
    | with_reducible apply tabCtrl_inv
    | with_reducible apply whenDo_inv
    | with_reducible apply lampStart_inv
    | with_reducible apply histClear_inv
    | with_reducible apply retDataWrite_inv
    | with_reducible apply hgWrite_inv
    | with_reducible apply cgFollow_inv
    | with_reducible apply mboxWrite_inv
    | with_reducible apply wfCtrlEff_inv
    | with_reducible apply latTrigWrite_inv
    | with_reducible apply axCmdAdd_inv
    | with_reducible apply echoWrite_inv
    | with_reducible apply ctxWrite_inv
    | with_reducible apply hcCtrl_inv
    | with_reducible apply chuteWrite_inv
    | with_reducible apply guardSet_inv
    | with_reducible apply dbgCtrlWrite_inv
    | with_reducible apply ijlWrite_inv
    | with_reducible apply sessionWrite_inv
    | split

theorem regEffect_inv {r : Req} {p : Pg} {off : Nat} {v : Word} (i_free : Skips.free φ) (i_regs : Skips.regs φ) (i_shad : Skips.shad φ) (i_gos : Skips.gos φ) (i_hold : Skips.hold φ) (i_ticks : Skips.ticks φ) (i_fences : Skips.fences φ) (i_mem : Skips.mem φ) (i_ecc : Skips.ecc φ) (i_ret : Skips.ret φ) (i_retEcc : Skips.retEcc φ) (i_chutes : Skips.chutes φ) (i_ctxs : Skips.ctxs φ) (i_ports : Skips.ports φ) (i_encs : Skips.encs φ) (i_pds : Skips.pds φ) (i_seamQ : Skips.seamQ φ) (i_echos : Skips.echos φ) (i_mems : Skips.mems φ) (i_msgs : Skips.msgs φ) (i_axes : Skips.axes φ) (i_hoists : Skips.hoists φ) (i_trigs : Skips.trigs φ) (i_cqWait : Skips.cqWait φ) (i_cqSeq : Skips.cqSeq φ) (i_assays : Skips.assays φ) (i_therms : Skips.therms φ) (i_lamps : Skips.lamps φ) (i_mboxes : Skips.mboxes φ) (i_fws : Skips.fws φ) (i_tsync : Skips.tsync φ) (i_hops : Skips.hops φ) (i_dies : Skips.dies φ) (i_pkg : Skips.pkg φ) (i_pcie : Skips.pcie φ) (i_resp : Skips.resp φ) (i_out : Skips.out φ) (hU : At φ c₀ s) : At φ c₀ (regEffect r p off v s) := by
  unfold regEffect
  try dsimp only
  repeat' first
    | with_reducible assumption
    | intro _
    | with_reducible apply ite_inv
    | with_reducible apply hdrWrite_inv
    | with_reducible apply logErr_inv
    | with_reducible apply blockWrite_inv
    | split

theorem regWrite_inv {r : Req} {p : Pg} {off : Nat} {v : Word} (i_free : Skips.free φ) (i_regs : Skips.regs φ) (i_shad : Skips.shad φ) (i_gos : Skips.gos φ) (i_hold : Skips.hold φ) (i_ticks : Skips.ticks φ) (i_fences : Skips.fences φ) (i_mem : Skips.mem φ) (i_ecc : Skips.ecc φ) (i_ret : Skips.ret φ) (i_retEcc : Skips.retEcc φ) (i_chutes : Skips.chutes φ) (i_ctxs : Skips.ctxs φ) (i_ports : Skips.ports φ) (i_encs : Skips.encs φ) (i_pds : Skips.pds φ) (i_seamQ : Skips.seamQ φ) (i_echos : Skips.echos φ) (i_mems : Skips.mems φ) (i_msgs : Skips.msgs φ) (i_axes : Skips.axes φ) (i_hoists : Skips.hoists φ) (i_trigs : Skips.trigs φ) (i_cqWait : Skips.cqWait φ) (i_cqSeq : Skips.cqSeq φ) (i_assays : Skips.assays φ) (i_therms : Skips.therms φ) (i_lamps : Skips.lamps φ) (i_mboxes : Skips.mboxes φ) (i_fws : Skips.fws φ) (i_tsync : Skips.tsync φ) (i_hops : Skips.hops φ) (i_dies : Skips.dies φ) (i_pkg : Skips.pkg φ) (i_pcie : Skips.pcie φ) (i_resp : Skips.resp φ) (i_out : Skips.out φ) (hU : At φ c₀ s) : At φ c₀ (regWrite s r p off v) := by
  unfold regWrite
  try dsimp only
  repeat' first
    | with_reducible assumption
    | intro _
    | with_reducible apply ite_inv
    | with_reducible apply guardedWrite_inv
    | with_reducible apply regEffect_inv
    | split

theorem latCapture_inv {r : Req} {p : Pg} {off : Nat} (i_caps : Skips.caps φ) (hU : At φ c₀ s) : At φ c₀ (latCapture r p off s) := by
  unfold latCapture
  try dsimp only
  repeat' first
    | with_reducible assumption
    | intro _
    | with_reducible apply ite_inv
    | split
    | with_reducible refine At.step (i_caps _ _) ?_

theorem regRead_inv {r : Req} {p : Pg} {off : Nat} (i_clock : Skips.clock φ) (i_free : Skips.free φ) (i_regs : Skips.regs φ) (i_shad : Skips.shad φ) (i_hold : Skips.hold φ) (i_caps : Skips.caps φ) (i_fences : Skips.fences φ) (i_ecc : Skips.ecc φ) (i_retEcc : Skips.retEcc φ) (i_chutes : Skips.chutes φ) (i_ctxs : Skips.ctxs φ) (i_ports : Skips.ports φ) (i_encs : Skips.encs φ) (i_pds : Skips.pds φ) (i_seamQ : Skips.seamQ φ) (i_echos : Skips.echos φ) (i_mems : Skips.mems φ) (i_msgs : Skips.msgs φ) (i_axes : Skips.axes φ) (i_hoists : Skips.hoists φ) (i_trigs : Skips.trigs φ) (i_cqWait : Skips.cqWait φ) (i_cqSeq : Skips.cqSeq φ) (i_assays : Skips.assays φ) (i_therms : Skips.therms φ) (i_lamps : Skips.lamps φ) (i_mboxes : Skips.mboxes φ) (i_fws : Skips.fws φ) (i_tsync : Skips.tsync φ) (i_hops : Skips.hops φ) (i_dies : Skips.dies φ) (i_pkg : Skips.pkg φ) (i_pcie : Skips.pcie φ) (i_resp : Skips.resp φ) (i_out : Skips.out φ) (hU : At φ c₀ s) :
    At φ c₀ (regRead s r p off) := by
  have g : ∀ t val, ∀ f : State → State, At φ c₀ t → (∀ t, At φ c₀ t → At φ c₀ (f t)) →
      At φ c₀ (guardedRead t r p off val f) := by
    intro t val f ht hf
    apply guardedRead_inv <;> assumption
  unfold regRead
  split
  · apply ite_inv
    · apply popRead_inv <;> assumption
    · exact g _ _ _ hU fun _ h => h
  · apply ite_inv
    · exact g _ _ _ hU fun _ h => by apply retDataRead_inv <;> assumption
    · exact g _ _ _ hU fun _ h => h
  · refine g _ _ _ (ite_inv ?_ hU) fun _ h => by apply latCapture_inv <;> assumption
    apply axStatWait_inv <;> assumption
  · exact g _ _ _ hU fun _ h => by apply latCapture_inv <;> assumption

theorem shapedWrite_inv {r : Req} {p : Pg} {off : Nat} {sh : Shape} {v : Word} (i_free : Skips.free φ) (i_regs : Skips.regs φ) (i_shad : Skips.shad φ) (i_gos : Skips.gos φ) (i_hold : Skips.hold φ) (i_ticks : Skips.ticks φ) (i_fences : Skips.fences φ) (i_mem : Skips.mem φ) (i_ecc : Skips.ecc φ) (i_ret : Skips.ret φ) (i_retEcc : Skips.retEcc φ) (i_chutes : Skips.chutes φ) (i_ctxs : Skips.ctxs φ) (i_ports : Skips.ports φ) (i_encs : Skips.encs φ) (i_pds : Skips.pds φ) (i_seamQ : Skips.seamQ φ) (i_echos : Skips.echos φ) (i_mems : Skips.mems φ) (i_msgs : Skips.msgs φ) (i_axes : Skips.axes φ) (i_hoists : Skips.hoists φ) (i_trigs : Skips.trigs φ) (i_cqWait : Skips.cqWait φ) (i_cqSeq : Skips.cqSeq φ) (i_assays : Skips.assays φ) (i_therms : Skips.therms φ) (i_lamps : Skips.lamps φ) (i_mboxes : Skips.mboxes φ) (i_fws : Skips.fws φ) (i_tsync : Skips.tsync φ) (i_hops : Skips.hops φ) (i_dies : Skips.dies φ) (i_pkg : Skips.pkg φ) (i_pcie : Skips.pcie φ) (i_resp : Skips.resp φ) (i_out : Skips.out φ) (hU : At φ c₀ s) : At φ c₀ (shapedWrite s r p off sh v) := by
  unfold shapedWrite
  try dsimp only
  repeat' first
    | with_reducible assumption
    | intro _
    | with_reducible apply ite_inv
    | with_reducible apply poisonRx_inv
    | with_reducible apply regWrite_inv
    | with_reducible apply guardedWrite_inv
    | with_reducible apply logErr_inv
    | split

theorem msixTableWrite_inv {v : Nat} {dw : Nat} {x : Nat} (i_pcie : Skips.pcie φ) (hU : At φ c₀ s) : At φ c₀ (msixTableWrite s v dw x) := by
  unfold msixTableWrite
  try dsimp only
  repeat' first
    | with_reducible assumption
    | intro _
    | with_reducible apply ite_inv
    | split
    | with_reducible refine At.step (i_pcie _ _) ?_

theorem configWrite_inv {field : Nat} {x : Nat} (i_free : Skips.free φ) (i_regs : Skips.regs φ) (i_shad : Skips.shad φ) (i_hold : Skips.hold φ) (i_fences : Skips.fences φ) (i_ecc : Skips.ecc φ) (i_chutes : Skips.chutes φ) (i_ctxs : Skips.ctxs φ) (i_ports : Skips.ports φ) (i_encs : Skips.encs φ) (i_pds : Skips.pds φ) (i_seamQ : Skips.seamQ φ) (i_echos : Skips.echos φ) (i_mems : Skips.mems φ) (i_msgs : Skips.msgs φ) (i_axes : Skips.axes φ) (i_hoists : Skips.hoists φ) (i_trigs : Skips.trigs φ) (i_cqWait : Skips.cqWait φ) (i_cqSeq : Skips.cqSeq φ) (i_assays : Skips.assays φ) (i_therms : Skips.therms φ) (i_lamps : Skips.lamps φ) (i_mboxes : Skips.mboxes φ) (i_fws : Skips.fws φ) (i_tsync : Skips.tsync φ) (i_hops : Skips.hops φ) (i_dies : Skips.dies φ) (i_pkg : Skips.pkg φ) (i_pcie : Skips.pcie φ) (i_out : Skips.out φ) (hU : At φ c₀ s) : At φ c₀ (configWrite s field x) := by
  unfold configWrite
  try dsimp only
  repeat' first
    | with_reducible assumption
    | intro _
    | with_reducible apply ite_inv
    | with_reducible apply bmeSet_inv
    | with_reducible apply functionReset_inv
    | split
    | with_reducible refine At.step (i_pcie _ _) ?_

theorem execRegisterWrite_ansAt {r : Req} {t : Target} {sh : Shape} {v : Nat} (i_free : Skips.free φ) (i_regs : Skips.regs φ) (i_shad : Skips.shad φ) (i_gos : Skips.gos φ) (i_hold : Skips.hold φ) (i_ticks : Skips.ticks φ) (i_fences : Skips.fences φ) (i_mem : Skips.mem φ) (i_ecc : Skips.ecc φ) (i_ret : Skips.ret φ) (i_retEcc : Skips.retEcc φ) (i_chutes : Skips.chutes φ) (i_ctxs : Skips.ctxs φ) (i_ports : Skips.ports φ) (i_encs : Skips.encs φ) (i_pds : Skips.pds φ) (i_seamQ : Skips.seamQ φ) (i_echos : Skips.echos φ) (i_mems : Skips.mems φ) (i_msgs : Skips.msgs φ) (i_axes : Skips.axes φ) (i_hoists : Skips.hoists φ) (i_trigs : Skips.trigs φ) (i_cqWait : Skips.cqWait φ) (i_cqSeq : Skips.cqSeq φ) (i_assays : Skips.assays φ) (i_therms : Skips.therms φ) (i_lamps : Skips.lamps φ) (i_mboxes : Skips.mboxes φ) (i_fws : Skips.fws φ) (i_tsync : Skips.tsync φ) (i_hops : Skips.hops φ) (i_dies : Skips.dies φ) (i_pkg : Skips.pkg φ) (i_pcie : Skips.pcie φ) (i_resp : Skips.resp φ) (i_out : Skips.out φ) (hU : At φ c₀ s) : AnsAt φ c₀ (execRegisterWrite r t sh v s) := by
  unfold execRegisterWrite
  try dsimp only
  repeat' first
    | with_reducible assumption
    | intro _
    | with_reducible apply ok_ansAt
    | with_reducible apply ite_ansAt
    | with_reducible apply ite_inv
    | with_reducible exact ok_ansAt (by assumption)
    | with_reducible apply shapedWrite_inv
    | with_reducible apply poisonRx_inv
    | with_reducible apply msixTableWrite_inv
    | with_reducible apply configWrite_inv
    | split

theorem execUnsupportedRequest_ansAt {r : Req} {bar : Nat} {off : Nat} {write : Bool} (i_regs : Skips.regs φ) (i_pcie : Skips.pcie φ) (i_resp : Skips.resp φ) (i_out : Skips.out φ) (hU : At φ c₀ s) : AnsAt φ c₀ (execUnsupportedRequest r bar off write s) := by
  unfold execUnsupportedRequest
  try dsimp only
  repeat' first
    | with_reducible assumption
    | intro _
    | with_reducible apply ok_ansAt
    | with_reducible apply ite_ansAt
    | with_reducible apply ite_inv
    | with_reducible exact ok_ansAt (by assumption)
    | with_reducible apply unsupported_inv
    | split

theorem lanesRead_inv {r : Req} {p : Pg} {off : Nat} {n : Nat} (i_clock : Skips.clock φ) (i_free : Skips.free φ) (i_regs : Skips.regs φ) (i_shad : Skips.shad φ) (i_hold : Skips.hold φ) (i_caps : Skips.caps φ) (i_fences : Skips.fences φ) (i_ecc : Skips.ecc φ) (i_retEcc : Skips.retEcc φ) (i_chutes : Skips.chutes φ) (i_ctxs : Skips.ctxs φ) (i_ports : Skips.ports φ) (i_encs : Skips.encs φ) (i_pds : Skips.pds φ) (i_seamQ : Skips.seamQ φ) (i_echos : Skips.echos φ) (i_mems : Skips.mems φ) (i_msgs : Skips.msgs φ) (i_axes : Skips.axes φ) (i_hoists : Skips.hoists φ) (i_trigs : Skips.trigs φ) (i_cqWait : Skips.cqWait φ) (i_cqSeq : Skips.cqSeq φ) (i_assays : Skips.assays φ) (i_therms : Skips.therms φ) (i_lamps : Skips.lamps φ) (i_mboxes : Skips.mboxes φ) (i_fws : Skips.fws φ) (i_tsync : Skips.tsync φ) (i_hops : Skips.hops φ) (i_dies : Skips.dies φ) (i_pkg : Skips.pkg φ) (i_pcie : Skips.pcie φ) (i_resp : Skips.resp φ) (i_out : Skips.out φ) (hU : At φ c₀ s) : At φ c₀ (lanesRead s r p off n) := by
  unfold lanesRead
  try dsimp only
  repeat' first
    | with_reducible assumption
    | intro _
    | with_reducible apply ite_inv
    | with_reducible apply regRead_inv
    | split
    | with_reducible refine At.step (i_resp _ _) ?_

theorem execWideLRead_ansAt {r : Req} {t : Target} {n : Nat} (i_clock : Skips.clock φ) (i_free : Skips.free φ) (i_regs : Skips.regs φ) (i_shad : Skips.shad φ) (i_hold : Skips.hold φ) (i_caps : Skips.caps φ) (i_fences : Skips.fences φ) (i_ecc : Skips.ecc φ) (i_retEcc : Skips.retEcc φ) (i_chutes : Skips.chutes φ) (i_ctxs : Skips.ctxs φ) (i_ports : Skips.ports φ) (i_encs : Skips.encs φ) (i_pds : Skips.pds φ) (i_seamQ : Skips.seamQ φ) (i_echos : Skips.echos φ) (i_mems : Skips.mems φ) (i_msgs : Skips.msgs φ) (i_axes : Skips.axes φ) (i_hoists : Skips.hoists φ) (i_trigs : Skips.trigs φ) (i_cqWait : Skips.cqWait φ) (i_cqSeq : Skips.cqSeq φ) (i_assays : Skips.assays φ) (i_therms : Skips.therms φ) (i_lamps : Skips.lamps φ) (i_mboxes : Skips.mboxes φ) (i_fws : Skips.fws φ) (i_tsync : Skips.tsync φ) (i_hops : Skips.hops φ) (i_dies : Skips.dies φ) (i_pkg : Skips.pkg φ) (i_pcie : Skips.pcie φ) (i_resp : Skips.resp φ) (i_out : Skips.out φ) (hU : At φ c₀ s) : AnsAt φ c₀ (execWideLRead r t n s) := by
  unfold execWideLRead
  try dsimp only
  repeat' first
    | with_reducible assumption
    | intro _
    | with_reducible apply ok_ansAt
    | with_reducible apply ite_ansAt
    | with_reducible apply ite_inv
    | with_reducible exact ok_ansAt (by assumption)
    | with_reducible apply regRead_inv
    | with_reducible apply lanesRead_inv
    | split
    | with_reducible refine At.step (i_resp _ _) ?_

theorem execWideLWrite_ansAt {r : Req} {p : Pg} {off : Nat} {v : Word} (i_free : Skips.free φ) (i_regs : Skips.regs φ) (i_shad : Skips.shad φ) (i_gos : Skips.gos φ) (i_hold : Skips.hold φ) (i_ticks : Skips.ticks φ) (i_fences : Skips.fences φ) (i_mem : Skips.mem φ) (i_ecc : Skips.ecc φ) (i_ret : Skips.ret φ) (i_retEcc : Skips.retEcc φ) (i_chutes : Skips.chutes φ) (i_ctxs : Skips.ctxs φ) (i_ports : Skips.ports φ) (i_encs : Skips.encs φ) (i_pds : Skips.pds φ) (i_seamQ : Skips.seamQ φ) (i_echos : Skips.echos φ) (i_mems : Skips.mems φ) (i_msgs : Skips.msgs φ) (i_axes : Skips.axes φ) (i_hoists : Skips.hoists φ) (i_trigs : Skips.trigs φ) (i_cqWait : Skips.cqWait φ) (i_cqSeq : Skips.cqSeq φ) (i_assays : Skips.assays φ) (i_therms : Skips.therms φ) (i_lamps : Skips.lamps φ) (i_mboxes : Skips.mboxes φ) (i_fws : Skips.fws φ) (i_tsync : Skips.tsync φ) (i_hops : Skips.hops φ) (i_dies : Skips.dies φ) (i_pkg : Skips.pkg φ) (i_pcie : Skips.pcie φ) (i_resp : Skips.resp φ) (i_out : Skips.out φ) (hU : At φ c₀ s) : AnsAt φ c₀ (execWideLWrite r p off v s) := by
  unfold execWideLWrite
  try dsimp only
  repeat' first
    | with_reducible assumption
    | intro _
    | with_reducible apply ok_ansAt
    | with_reducible apply ite_ansAt
    | with_reducible apply ite_inv
    | with_reducible exact ok_ansAt (by assumption)
    | with_reducible apply regWrite_inv
    | split

theorem localWrite_inv {r : Req} {d : Nat} {addr : Nat} {v : Word} (i_free : Skips.free φ) (i_regs : Skips.regs φ) (i_shad : Skips.shad φ) (i_gos : Skips.gos φ) (i_hold : Skips.hold φ) (i_ticks : Skips.ticks φ) (i_fences : Skips.fences φ) (i_mem : Skips.mem φ) (i_ecc : Skips.ecc φ) (i_ret : Skips.ret φ) (i_retEcc : Skips.retEcc φ) (i_chutes : Skips.chutes φ) (i_ctxs : Skips.ctxs φ) (i_ports : Skips.ports φ) (i_encs : Skips.encs φ) (i_pds : Skips.pds φ) (i_seamQ : Skips.seamQ φ) (i_echos : Skips.echos φ) (i_mems : Skips.mems φ) (i_msgs : Skips.msgs φ) (i_axes : Skips.axes φ) (i_hoists : Skips.hoists φ) (i_trigs : Skips.trigs φ) (i_cqWait : Skips.cqWait φ) (i_cqSeq : Skips.cqSeq φ) (i_assays : Skips.assays φ) (i_therms : Skips.therms φ) (i_lamps : Skips.lamps φ) (i_mboxes : Skips.mboxes φ) (i_fws : Skips.fws φ) (i_tsync : Skips.tsync φ) (i_hops : Skips.hops φ) (i_dies : Skips.dies φ) (i_pkg : Skips.pkg φ) (i_pcie : Skips.pcie φ) (i_resp : Skips.resp φ) (i_out : Skips.out φ) (hU : At φ c₀ s) : At φ c₀ (localWrite s r d addr v) := by
  unfold localWrite
  try dsimp only
  repeat' first
    | with_reducible assumption
    | intro _
    | with_reducible apply ite_inv
    | with_reducible apply regWrite_inv
    | with_reducible apply memWrite_inv
    | split

theorem localRead_inv {r : Req} {d : Nat} {addr : Nat} (i_clock : Skips.clock φ) (i_free : Skips.free φ) (i_regs : Skips.regs φ) (i_shad : Skips.shad φ) (i_hold : Skips.hold φ) (i_caps : Skips.caps φ) (i_fences : Skips.fences φ) (i_ecc : Skips.ecc φ) (i_retEcc : Skips.retEcc φ) (i_chutes : Skips.chutes φ) (i_ctxs : Skips.ctxs φ) (i_ports : Skips.ports φ) (i_encs : Skips.encs φ) (i_pds : Skips.pds φ) (i_seamQ : Skips.seamQ φ) (i_echos : Skips.echos φ) (i_mems : Skips.mems φ) (i_msgs : Skips.msgs φ) (i_axes : Skips.axes φ) (i_hoists : Skips.hoists φ) (i_trigs : Skips.trigs φ) (i_cqWait : Skips.cqWait φ) (i_cqSeq : Skips.cqSeq φ) (i_assays : Skips.assays φ) (i_therms : Skips.therms φ) (i_lamps : Skips.lamps φ) (i_mboxes : Skips.mboxes φ) (i_fws : Skips.fws φ) (i_tsync : Skips.tsync φ) (i_hops : Skips.hops φ) (i_dies : Skips.dies φ) (i_pkg : Skips.pkg φ) (i_pcie : Skips.pcie φ) (i_resp : Skips.resp φ) (i_out : Skips.out φ) (hU : At φ c₀ s) : At φ c₀ (localRead s r d addr) := by
  unfold localRead
  try dsimp only
  repeat' first
    | with_reducible assumption
    | intro _
    | with_reducible apply ite_inv
    | with_reducible apply regRead_inv
    | with_reducible apply memRead_inv
    | split

theorem dbgDo_inv {d : Nat} {write : Bool} {addr : Nat} {data : Nat} (i_clock : Skips.clock φ) (i_free : Skips.free φ) (i_regs : Skips.regs φ) (i_shad : Skips.shad φ) (i_gos : Skips.gos φ) (i_hold : Skips.hold φ) (i_ticks : Skips.ticks φ) (i_caps : Skips.caps φ) (i_fences : Skips.fences φ) (i_mem : Skips.mem φ) (i_ecc : Skips.ecc φ) (i_ret : Skips.ret φ) (i_retEcc : Skips.retEcc φ) (i_chutes : Skips.chutes φ) (i_ctxs : Skips.ctxs φ) (i_ports : Skips.ports φ) (i_encs : Skips.encs φ) (i_pds : Skips.pds φ) (i_seamQ : Skips.seamQ φ) (i_echos : Skips.echos φ) (i_mems : Skips.mems φ) (i_msgs : Skips.msgs φ) (i_axes : Skips.axes φ) (i_hoists : Skips.hoists φ) (i_trigs : Skips.trigs φ) (i_cqWait : Skips.cqWait φ) (i_cqSeq : Skips.cqSeq φ) (i_assays : Skips.assays φ) (i_therms : Skips.therms φ) (i_lamps : Skips.lamps φ) (i_mboxes : Skips.mboxes φ) (i_fws : Skips.fws φ) (i_tsync : Skips.tsync φ) (i_hops : Skips.hops φ) (i_dies : Skips.dies φ) (i_pkg : Skips.pkg φ) (i_pcie : Skips.pcie φ) (i_resp : Skips.resp φ) (i_out : Skips.out φ) (hU : At φ c₀ s) : At φ c₀ (dbgDo s d write addr data) := by
  unfold dbgDo
  try dsimp only
  repeat' first
    | with_reducible assumption
    | intro _
    | with_reducible apply ite_inv
    | with_reducible apply count_inv
    | with_reducible apply localWrite_inv
    | with_reducible apply localRead_inv
    | with_reducible apply setDie_inv
    | split
    | with_reducible refine At.step (i_resp _ _) ?_

theorem execDbgAccess_ansAt {d : Nat} {write : Bool} {addr : Nat} {data : Nat} (i_clock : Skips.clock φ) (i_free : Skips.free φ) (i_regs : Skips.regs φ) (i_shad : Skips.shad φ) (i_gos : Skips.gos φ) (i_hold : Skips.hold φ) (i_ticks : Skips.ticks φ) (i_caps : Skips.caps φ) (i_fences : Skips.fences φ) (i_mem : Skips.mem φ) (i_ecc : Skips.ecc φ) (i_ret : Skips.ret φ) (i_retEcc : Skips.retEcc φ) (i_chutes : Skips.chutes φ) (i_ctxs : Skips.ctxs φ) (i_ports : Skips.ports φ) (i_encs : Skips.encs φ) (i_pds : Skips.pds φ) (i_seamQ : Skips.seamQ φ) (i_echos : Skips.echos φ) (i_mems : Skips.mems φ) (i_msgs : Skips.msgs φ) (i_axes : Skips.axes φ) (i_hoists : Skips.hoists φ) (i_trigs : Skips.trigs φ) (i_cqWait : Skips.cqWait φ) (i_cqSeq : Skips.cqSeq φ) (i_assays : Skips.assays φ) (i_therms : Skips.therms φ) (i_lamps : Skips.lamps φ) (i_mboxes : Skips.mboxes φ) (i_fws : Skips.fws φ) (i_tsync : Skips.tsync φ) (i_hops : Skips.hops φ) (i_dies : Skips.dies φ) (i_pkg : Skips.pkg φ) (i_pcie : Skips.pcie φ) (i_resp : Skips.resp φ) (i_out : Skips.out φ) (hU : At φ c₀ s) : AnsAt φ c₀ (execDbgAccess d write addr data s) := by
  unfold execDbgAccess
  try dsimp only
  repeat' first
    | with_reducible assumption
    | intro _
    | with_reducible apply ok_ansAt
    | with_reducible apply ite_ansAt
    | with_reducible apply ite_inv
    | with_reducible exact ok_ansAt (by assumption)
    | with_reducible apply dbgDo_inv
    | with_reducible apply tapIr_inv
    | split
    | with_reducible refine At.step (i_resp _ _) ?_

end Sys2Proof.Laws
end

