-- ==== Sys2Proof/Laws/PowerInv.lean ====
section
/-!
SUPPORT. The fields of the state that each operation of `Machine/Power.lean` may change: whatever reads none of them is the same after it.
-/

set_option Elab.async false
set_option linter.unusedTactic false
set_option linter.unreachableTactic false
namespace Sys2Proof.Laws

open Sys2Proof.Machine

variable {α₀ : Type} {φ : State → α₀} {c₀ : α₀} {s : State}

theorem startOver_inv (i_regs : Skips.regs φ) (i_shad : Skips.shad φ) (i_gos : Skips.gos φ) (i_hold : Skips.hold φ) (i_ticks : Skips.ticks φ) (i_caps : Skips.caps φ) (i_fences : Skips.fences φ) (i_mem : Skips.mem φ) (i_ecc : Skips.ecc φ) (i_chutes : Skips.chutes φ) (i_ctxs : Skips.ctxs φ) (i_ports : Skips.ports φ) (i_encs : Skips.encs φ) (i_pds : Skips.pds φ) (i_seamQ : Skips.seamQ φ) (i_echos : Skips.echos φ) (i_mems : Skips.mems φ) (i_msgs : Skips.msgs φ) (i_axes : Skips.axes φ) (i_hoists : Skips.hoists φ) (i_served : Skips.served φ) (i_trigs : Skips.trigs φ) (i_tmrs : Skips.tmrs φ) (i_cqWait : Skips.cqWait φ) (i_cqSeq : Skips.cqSeq φ) (i_assays : Skips.assays φ) (i_therms : Skips.therms φ) (i_lamps : Skips.lamps φ) (i_mboxes : Skips.mboxes φ) (i_fws : Skips.fws φ) (i_tsync : Skips.tsync φ) (i_burims : Skips.burims φ) (i_hops : Skips.hops φ) (i_dies : Skips.dies φ) (i_pkg : Skips.pkg φ) (i_pcie : Skips.pcie φ) (hU : At φ c₀ s) : At φ c₀ (startOver s) := by
  refine At.step ?_ hU
  exact (.trans (i_regs _ s.regs).symm (.trans (i_shad _ s.shad).symm (.trans (i_gos _ s.gos).symm (.trans (i_hold _
    s.hold).symm (.trans (i_ticks _ s.ticks).symm (.trans (i_caps _ s.caps).symm (.trans (i_fences _
    s.fences).symm (.trans (i_mem _ s.mem).symm (.trans (i_ecc _ s.ecc).symm (.trans (i_chutes _ s.chutes).symm
    (.trans (i_ctxs _ s.ctxs).symm (.trans (i_ports _ s.ports).symm (.trans (i_encs _ s.encs).symm (.trans (i_pds
    _ s.pds).symm (.trans (i_seamQ _ s.seamQ).symm (.trans (i_echos _ s.echos).symm (.trans (i_mems _ s.mems).symm
    (.trans (i_msgs _ s.msgs).symm (.trans (i_axes _ s.axes).symm (.trans (i_hoists _ s.hoists).symm (.trans
    (i_served _ s.served).symm (.trans (i_trigs _ s.trigs).symm (.trans (i_tmrs _ s.tmrs).symm (.trans (i_cqWait _
    s.cqWait).symm (.trans (i_cqSeq _ s.cqSeq).symm (.trans (i_assays _ s.assays).symm (.trans (i_therms _
    s.therms).symm (.trans (i_lamps _ s.lamps).symm (.trans (i_mboxes _ s.mboxes).symm (.trans (i_fws _
    s.fws).symm (.trans (i_tsync _ s.tsync).symm (.trans (i_burims _ s.burims).symm (.trans (i_hops _ s.hops).symm
    (.trans (i_dies _ s.dies).symm (.trans (i_pkg _ s.pkg).symm (.trans (i_pcie _ s.pcie).symm (congrArg φ (by
    cases s; rfl))))))))))))))))))))))))))))))))))))))

theorem dormantDie_inv {d : Nat} (i_regs : Skips.regs φ) (i_ret : Skips.ret φ) (i_retEcc : Skips.retEcc φ) (i_encs : Skips.encs φ) (i_axes : Skips.axes φ) (i_dies : Skips.dies φ) (i_pkg : Skips.pkg φ) (i_pcie : Skips.pcie φ) (i_out : Skips.out φ) (hU : At φ c₀ s) : At φ c₀ (dormantDie s d) := by
  unfold dormantDie
  try dsimp only
  repeat' first
    | with_reducible assumption
    | intro _
    | with_reducible apply ite_inv
    | with_reducible apply asSaved_inv
    | with_reducible apply dbgClose_inv
    | with_reducible apply sessClose_inv
    | with_reducible apply stbyEnter_inv
    | split

theorem dormantEnter_inv (i_free : Skips.free φ) (i_regs : Skips.regs φ) (i_ecc : Skips.ecc φ) (i_ret : Skips.ret φ) (i_retEcc : Skips.retEcc φ) (i_chutes : Skips.chutes φ) (i_ctxs : Skips.ctxs φ) (i_ports : Skips.ports φ) (i_encs : Skips.encs φ) (i_seamQ : Skips.seamQ φ) (i_echos : Skips.echos φ) (i_mems : Skips.mems φ) (i_axes : Skips.axes φ) (i_trigs : Skips.trigs φ) (i_assays : Skips.assays φ) (i_mboxes : Skips.mboxes φ) (i_tsync : Skips.tsync φ) (i_dies : Skips.dies φ) (i_pkg : Skips.pkg φ) (i_pcie : Skips.pcie φ) (i_out : Skips.out φ) (hU : At φ c₀ s) : At φ c₀ (dormantEnter s) := by
  unfold dormantEnter
  try dsimp only
  repeat' first
    | with_reducible assumption
    | intro _
    | with_reducible apply ite_inv
    | with_reducible apply each_inv
    | with_reducible apply modeSwitch_inv
    | with_reducible apply dormantDie_inv
    | with_reducible apply nextFree_inv
    | with_reducible apply hostLinkDown_inv
    | split
    | with_reducible refine At.step (skip_pkg_tsync i_pkg i_tsync _ _ _) ?_
    | with_reducible refine At.step (i_pkg _ _) ?_
    | with_reducible refine At.step (i_tsync _ _) ?_

theorem execDormantEntry_ansAt (i_clock : Skips.clock φ) (i_free : Skips.free φ) (i_regs : Skips.regs φ) (i_ecc : Skips.ecc φ) (i_ret : Skips.ret φ) (i_retEcc : Skips.retEcc φ) (i_chutes : Skips.chutes φ) (i_ctxs : Skips.ctxs φ) (i_ports : Skips.ports φ) (i_encs : Skips.encs φ) (i_seamQ : Skips.seamQ φ) (i_echos : Skips.echos φ) (i_mems : Skips.mems φ) (i_axes : Skips.axes φ) (i_trigs : Skips.trigs φ) (i_assays : Skips.assays φ) (i_mboxes : Skips.mboxes φ) (i_tsync : Skips.tsync φ) (i_dies : Skips.dies φ) (i_pkg : Skips.pkg φ) (i_pcie : Skips.pcie φ) (i_out : Skips.out φ) (hU : At φ c₀ s) : AnsAt φ c₀ (execDormantEntry s) := by
  unfold execDormantEntry
  try dsimp only
  repeat' first
    | with_reducible assumption
    | intro _
    | with_reducible apply ok_ansAt
    | with_reducible apply ite_ansAt
    | with_reducible apply ite_inv
    | with_reducible exact ok_ansAt (by assumption)
    | with_reducible apply dormantEnter_inv
    | with_reducible apply waitTick_inv
    | split

theorem execVinOff_ansAt (i_regs : Skips.regs φ) (i_shad : Skips.shad φ) (i_gos : Skips.gos φ) (i_hold : Skips.hold φ) (i_ticks : Skips.ticks φ) (i_caps : Skips.caps φ) (i_fences : Skips.fences φ) (i_mem : Skips.mem φ) (i_ecc : Skips.ecc φ) (i_chutes : Skips.chutes φ) (i_ctxs : Skips.ctxs φ) (i_ports : Skips.ports φ) (i_encs : Skips.encs φ) (i_pds : Skips.pds φ) (i_seamQ : Skips.seamQ φ) (i_echos : Skips.echos φ) (i_mems : Skips.mems φ) (i_msgs : Skips.msgs φ) (i_axes : Skips.axes φ) (i_hoists : Skips.hoists φ) (i_served : Skips.served φ) (i_trigs : Skips.trigs φ) (i_tmrs : Skips.tmrs φ) (i_cqWait : Skips.cqWait φ) (i_cqSeq : Skips.cqSeq φ) (i_assays : Skips.assays φ) (i_therms : Skips.therms φ) (i_lamps : Skips.lamps φ) (i_mboxes : Skips.mboxes φ) (i_fws : Skips.fws φ) (i_tsync : Skips.tsync φ) (i_burims : Skips.burims φ) (i_hops : Skips.hops φ) (i_dies : Skips.dies φ) (i_pkg : Skips.pkg φ) (i_pcie : Skips.pcie φ) (hU : At φ c₀ s) : AnsAt φ c₀ (execVinOff s) := by
  unfold execVinOff
  try dsimp only
  repeat' first
    | with_reducible assumption
    | intro _
    | with_reducible apply ok_ansAt
    | with_reducible apply ite_ansAt
    | with_reducible apply ite_inv
    | with_reducible exact ok_ansAt (by assumption)
    | with_reducible apply startOver_inv
    | split
    | with_reducible refine At.step (i_pkg _ _) ?_

theorem wakeBy_inv {i : Nat} (i_pkg : Skips.pkg φ) (hU : At φ c₀ s) : At φ c₀ (wakeBy s i) := by
  unfold wakeBy
  try dsimp only
  repeat' first
    | with_reducible assumption
    | intro _
    | with_reducible apply ite_inv
    | split
    | with_reducible refine At.step (i_pkg _ _) ?_

theorem execWakePin_ansAt {n : Nat} {rising : Bool} (i_pkg : Skips.pkg φ) (hU : At φ c₀ s) : AnsAt φ c₀ (execWakePin n rising s) := by
  unfold execWakePin
  try dsimp only
  repeat' first
    | with_reducible assumption
    | intro _
    | with_reducible apply ok_ansAt
    | with_reducible apply ite_ansAt
    | with_reducible apply ite_inv
    | with_reducible exact ok_ansAt (by assumption)
    | with_reducible apply wakeBy_inv
    | split

theorem execWakeAlarm_ansAt (i_pkg : Skips.pkg φ) (hU : At φ c₀ s) : AnsAt φ c₀ (execWakeAlarm s) := by
  unfold execWakeAlarm
  try dsimp only
  repeat' first
    | with_reducible assumption
    | intro _
    | with_reducible apply ok_ansAt
    | with_reducible apply ite_ansAt
    | with_reducible apply ite_inv
    | with_reducible exact ok_ansAt (by assumption)
    | with_reducible apply wakeBy_inv
    | split

theorem execDormantSecondsEdge_ansAt (i_clock : Skips.clock φ) (i_free : Skips.free φ) (i_regs : Skips.regs φ) (i_dies : Skips.dies φ) (i_pkg : Skips.pkg φ) (i_pcie : Skips.pcie φ) (i_out : Skips.out φ) (hU : At φ c₀ s) : AnsAt φ c₀ (execDormantSecondsEdge s) := by
  unfold execDormantSecondsEdge
  try dsimp only
  repeat' first
    | with_reducible assumption
    | intro _
    | with_reducible apply ok_ansAt
    | with_reducible apply ite_ansAt
    | with_reducible apply ite_inv
    | with_reducible exact ok_ansAt (by assumption)
    | with_reducible apply waitClock_inv
    | with_reducible apply nextFree_inv
    | split
    | with_reducible refine At.step (i_pkg _ _) ?_

theorem execVinBrownout_ansAt (i_regs : Skips.regs φ) (i_shad : Skips.shad φ) (i_gos : Skips.gos φ) (i_hold : Skips.hold φ) (i_ticks : Skips.ticks φ) (i_caps : Skips.caps φ) (i_fences : Skips.fences φ) (i_mem : Skips.mem φ) (i_ecc : Skips.ecc φ) (i_chutes : Skips.chutes φ) (i_ctxs : Skips.ctxs φ) (i_ports : Skips.ports φ) (i_encs : Skips.encs φ) (i_pds : Skips.pds φ) (i_seamQ : Skips.seamQ φ) (i_echos : Skips.echos φ) (i_mems : Skips.mems φ) (i_msgs : Skips.msgs φ) (i_axes : Skips.axes φ) (i_hoists : Skips.hoists φ) (i_served : Skips.served φ) (i_trigs : Skips.trigs φ) (i_tmrs : Skips.tmrs φ) (i_cqWait : Skips.cqWait φ) (i_cqSeq : Skips.cqSeq φ) (i_assays : Skips.assays φ) (i_therms : Skips.therms φ) (i_lamps : Skips.lamps φ) (i_mboxes : Skips.mboxes φ) (i_fws : Skips.fws φ) (i_tsync : Skips.tsync φ) (i_burims : Skips.burims φ) (i_hops : Skips.hops φ) (i_dies : Skips.dies φ) (i_pkg : Skips.pkg φ) (i_pcie : Skips.pcie φ) (hU : At φ c₀ s) : AnsAt φ c₀ (execVinBrownout s) := by
  unfold execVinBrownout
  try dsimp only
  repeat' first
    | with_reducible assumption
    | intro _
    | with_reducible apply ok_ansAt
    | with_reducible apply ite_ansAt
    | with_reducible apply ite_inv
    | with_reducible exact ok_ansAt (by assumption)
    | with_reducible apply startOver_inv
    | split
    | with_reducible refine At.step (i_pkg _ _) ?_

theorem execVaonReset_ansAt (i_regs : Skips.regs φ) (i_tsync : Skips.tsync φ) (i_pkg : Skips.pkg φ) (hU : At φ c₀ s) : AnsAt φ c₀ (execVaonReset s) := by
  refine ⟨_, rfl, At.step ?_ hU⟩
  exact .trans (i_regs _ s.regs).symm (.trans (i_tsync _ s.tsync).symm (i_pkg s _))

theorem execVaonApplied_ansAt (i_regs : Skips.regs φ) (i_pkg : Skips.pkg φ) (hU : At φ c₀ s) : AnsAt φ c₀ (execVaonApplied s) := by
  unfold execVaonApplied
  try dsimp only
  repeat' first
    | with_reducible assumption
    | intro _
    | with_reducible apply ok_ansAt
    | with_reducible apply ite_ansAt
    | with_reducible apply ite_inv
    | with_reducible exact ok_ansAt (by assumption)
    | with_reducible apply wr_inv
    | split
    | with_reducible refine At.step (i_pkg _ _) ?_

end Sys2Proof.Laws
end

