-- ==== Sys2Proof/Laws/BootInv.lean ====
section
/-!
SUPPORT. The fields of the state that each operation of `Machine/Boot.lean` may change: whatever reads none of them is the same after it.
-/

set_option Elab.async false
set_option linter.unusedTactic false
set_option linter.unreachableTactic false
namespace Sys2Proof.Laws

open Sys2Proof.Machine

variable {α₀ : Type} {φ : State → α₀} {c₀ : α₀} {s : State}

theorem setBoot_inv {d : Nat} {b : BootSt} (i_dies : Skips.dies φ) (hU : At φ c₀ s) : At φ c₀ (setBoot s d b) := by
  unfold setBoot
  try dsimp only
  repeat' first
    | with_reducible assumption
    | intro _
    | with_reducible apply ite_inv
    | with_reducible apply setDie_inv
    | split

theorem stepEnd_inv {d : Nat} {last : Nat} {alt : Nat} {detail : Nat} (i_free : Skips.free φ) (i_regs : Skips.regs φ) (i_ret : Skips.ret φ) (i_retEcc : Skips.retEcc φ) (i_dies : Skips.dies φ) (hU : At φ c₀ s) : At φ c₀ (stepEnd s d last alt detail) := by
  unfold stepEnd
  try dsimp only
  repeat' first
    | with_reducible assumption
    | intro _
    | with_reducible apply ite_inv
    | with_reducible apply nextFree_inv
    | with_reducible apply tlRecord_inv
    | with_reducible apply setBoot_inv
    | split

theorem stepDone_inv {d : Nat} {alt : Nat} (i_free : Skips.free φ) (i_regs : Skips.regs φ) (i_ret : Skips.ret φ) (i_retEcc : Skips.retEcc φ) (i_dies : Skips.dies φ) (hU : At φ c₀ s) : At φ c₀ (stepDone s d alt) := by
  unfold stepDone
  try dsimp only
  repeat' first
    | with_reducible assumption
    | intro _
    | with_reducible apply ite_inv
    | with_reducible apply stepEnd_inv
    | split

theorem stepNone_inv {d : Nat} (i_free : Skips.free φ) (i_regs : Skips.regs φ) (i_ret : Skips.ret φ) (i_retEcc : Skips.retEcc φ) (i_dies : Skips.dies φ) (hU : At φ c₀ s) : At φ c₀ (stepNone s d) := by
  unfold stepNone
  try dsimp only
  repeat' first
    | with_reducible assumption
    | intro _
    | with_reducible apply ite_inv
    | with_reducible apply stepEnd_inv
    | split

theorem powerReturn_inv (i_regs : Skips.regs φ) (i_shad : Skips.shad φ) (i_gos : Skips.gos φ) (i_hold : Skips.hold φ) (i_ticks : Skips.ticks φ) (i_caps : Skips.caps φ) (i_fences : Skips.fences φ) (i_mem : Skips.mem φ) (i_ecc : Skips.ecc φ) (i_chutes : Skips.chutes φ) (i_ctxs : Skips.ctxs φ) (i_ports : Skips.ports φ) (i_encs : Skips.encs φ) (i_pds : Skips.pds φ) (i_seamQ : Skips.seamQ φ) (i_echos : Skips.echos φ) (i_mems : Skips.mems φ) (i_msgs : Skips.msgs φ) (i_axes : Skips.axes φ) (i_hoists : Skips.hoists φ) (i_served : Skips.served φ) (i_trigs : Skips.trigs φ) (i_tmrs : Skips.tmrs φ) (i_cqWait : Skips.cqWait φ) (i_cqSeq : Skips.cqSeq φ) (i_assays : Skips.assays φ) (i_therms : Skips.therms φ) (i_lamps : Skips.lamps φ) (i_mboxes : Skips.mboxes φ) (i_fws : Skips.fws φ) (i_tsync : Skips.tsync φ) (i_burims : Skips.burims φ) (i_hops : Skips.hops φ) (i_dies : Skips.dies φ) (i_pkg : Skips.pkg φ) (i_pcie : Skips.pcie φ) (hU : At φ c₀ s) : At φ c₀ (powerReturn s) := by
  unfold powerReturn
  try dsimp only
  repeat' first
    | with_reducible assumption
    | intro _
    | with_reducible apply ite_inv
    | with_reducible apply startOver_inv
    | with_reducible apply wr_inv
    | split
    | with_reducible refine At.step (i_pkg _ _) ?_

theorem secPhase_inv (i_free : Skips.free φ) (i_pkg : Skips.pkg φ) (hU : At φ c₀ s) : At φ c₀ (secPhase s) := by
  unfold secPhase
  try dsimp only
  repeat' first
    | with_reducible assumption
    | intro _
    | with_reducible apply ite_inv
    | with_reducible apply nextFree_inv
    | split
    | with_reducible refine At.step (i_pkg _ _) ?_

theorem execPowerGood_ansAt {d : Nat} (i_free : Skips.free φ) (i_regs : Skips.regs φ) (i_shad : Skips.shad φ) (i_gos : Skips.gos φ) (i_hold : Skips.hold φ) (i_ticks : Skips.ticks φ) (i_caps : Skips.caps φ) (i_fences : Skips.fences φ) (i_mem : Skips.mem φ) (i_ecc : Skips.ecc φ) (i_chutes : Skips.chutes φ) (i_ctxs : Skips.ctxs φ) (i_ports : Skips.ports φ) (i_encs : Skips.encs φ) (i_pds : Skips.pds φ) (i_seamQ : Skips.seamQ φ) (i_echos : Skips.echos φ) (i_mems : Skips.mems φ) (i_msgs : Skips.msgs φ) (i_axes : Skips.axes φ) (i_hoists : Skips.hoists φ) (i_served : Skips.served φ) (i_trigs : Skips.trigs φ) (i_tmrs : Skips.tmrs φ) (i_cqWait : Skips.cqWait φ) (i_cqSeq : Skips.cqSeq φ) (i_assays : Skips.assays φ) (i_therms : Skips.therms φ) (i_lamps : Skips.lamps φ) (i_mboxes : Skips.mboxes φ) (i_fws : Skips.fws φ) (i_tsync : Skips.tsync φ) (i_burims : Skips.burims φ) (i_hops : Skips.hops φ) (i_dies : Skips.dies φ) (i_pkg : Skips.pkg φ) (i_pcie : Skips.pcie φ) (hU : At φ c₀ s) : AnsAt φ c₀ (execPowerGood d s) := by
  unfold execPowerGood
  try dsimp only
  repeat' first
    | with_reducible assumption
    | intro _
    | with_reducible apply ok_ansAt
    | with_reducible apply ite_ansAt
    | with_reducible apply ite_inv
    | with_reducible apply powerReturn_inv
    | with_reducible exact ok_ansAt (by assumption)
    | with_reducible apply nextFree_inv
    | with_reducible apply setBoot_inv
    | split

theorem leaveOut_inv {d : Nat} (i_free : Skips.free φ) (i_regs : Skips.regs φ) (i_shad : Skips.shad φ) (i_hold : Skips.hold φ) (i_fences : Skips.fences φ) (i_ecc : Skips.ecc φ) (i_chutes : Skips.chutes φ) (i_ctxs : Skips.ctxs φ) (i_ports : Skips.ports φ) (i_encs : Skips.encs φ) (i_pds : Skips.pds φ) (i_seamQ : Skips.seamQ φ) (i_echos : Skips.echos φ) (i_mems : Skips.mems φ) (i_msgs : Skips.msgs φ) (i_axes : Skips.axes φ) (i_hoists : Skips.hoists φ) (i_trigs : Skips.trigs φ) (i_cqWait : Skips.cqWait φ) (i_cqSeq : Skips.cqSeq φ) (i_assays : Skips.assays φ) (i_therms : Skips.therms φ) (i_lamps : Skips.lamps φ) (i_mboxes : Skips.mboxes φ) (i_fws : Skips.fws φ) (i_tsync : Skips.tsync φ) (i_hops : Skips.hops φ) (i_dies : Skips.dies φ) (i_pkg : Skips.pkg φ) (i_pcie : Skips.pcie φ) (i_out : Skips.out φ) (hU : At φ c₀ s) : At φ c₀ (leaveOut s d) := by
  unfold leaveOut
  try dsimp only
  repeat' first
    | with_reducible assumption
    | intro _
    | with_reducible apply ite_inv
    | with_reducible apply dieLost_inv
    | with_reducible apply setBoot_inv
    | split

theorem assayBegin_inv {d : Nat} (i_assays : Skips.assays φ) (i_dies : Skips.dies φ) (hU : At φ c₀ s) : At φ c₀ (assayBegin s d) := by
  unfold assayBegin
  try dsimp only
  repeat' first
    | with_reducible assumption
    | intro _
    | with_reducible apply ite_inv
    | with_reducible apply setBoot_inv
    | with_reducible apply loadPoints_inv
    | with_reducible apply each_inv
    | with_reducible apply asQueue_inv
    | split

theorem enumFollow_inv (i_regs : Skips.regs φ) (i_assays : Skips.assays φ) (i_dies : Skips.dies φ) (i_pkg : Skips.pkg φ) (i_pcie : Skips.pcie φ) (i_out : Skips.out φ) (hU : At φ c₀ s) : At φ c₀ (enumFollow s) := by
  unfold enumFollow
  try dsimp only
  repeat' first
    | with_reducible assumption
    | intro _
    | with_reducible apply ite_inv
    | with_reducible apply each_inv
    | with_reducible apply allowedFollow_inv
    | with_reducible apply wb_inv
    | with_reducible apply assayBegin_inv
    | split

theorem startFollow_inv (i_free : Skips.free φ) (i_regs : Skips.regs φ) (i_shad : Skips.shad φ) (i_hold : Skips.hold φ) (i_fences : Skips.fences φ) (i_ecc : Skips.ecc φ) (i_chutes : Skips.chutes φ) (i_ctxs : Skips.ctxs φ) (i_ports : Skips.ports φ) (i_encs : Skips.encs φ) (i_pds : Skips.pds φ) (i_seamQ : Skips.seamQ φ) (i_echos : Skips.echos φ) (i_mems : Skips.mems φ) (i_msgs : Skips.msgs φ) (i_axes : Skips.axes φ) (i_hoists : Skips.hoists φ) (i_trigs : Skips.trigs φ) (i_cqWait : Skips.cqWait φ) (i_cqSeq : Skips.cqSeq φ) (i_assays : Skips.assays φ) (i_therms : Skips.therms φ) (i_lamps : Skips.lamps φ) (i_mboxes : Skips.mboxes φ) (i_fws : Skips.fws φ) (i_tsync : Skips.tsync φ) (i_hops : Skips.hops φ) (i_dies : Skips.dies φ) (i_pkg : Skips.pkg φ) (i_pcie : Skips.pcie φ) (i_out : Skips.out φ) (hU : At φ c₀ s) : At φ c₀ (startFollow s) := by
  unfold startFollow
  try dsimp only
  repeat' first
    | with_reducible assumption
    | intro _
    | with_reducible apply ite_inv
    | with_reducible apply enumFollow_inv
    | with_reducible apply each_inv
    | with_reducible apply leaveOut_inv
    | split

theorem boardOpen_inv {d : Nat} (i_regs : Skips.regs φ) (i_ret : Skips.ret φ) (i_retEcc : Skips.retEcc φ) (i_dies : Skips.dies φ) (i_pcie : Skips.pcie φ) (i_out : Skips.out φ) (hU : At φ c₀ s) : At φ c₀ (boardOpen s d) := by
  unfold boardOpen
  try dsimp only
  repeat' first
    | with_reducible assumption
    | intro _
    | with_reducible apply ite_inv
    | with_reducible apply tlCheck_inv
    | with_reducible apply setBoot_inv
    | with_reducible apply retWrite_inv
    | with_reducible apply tlRecord_inv
    | split

theorem fusesTake_inv {d : Nat} {f : Fuses} (i_regs : Skips.regs φ) (i_dies : Skips.dies φ) (i_pkg : Skips.pkg φ) (i_pcie : Skips.pcie φ) (i_out : Skips.out φ) (hU : At φ c₀ s) : At φ c₀ (fusesTake s d f) := by
  unfold fusesTake
  try dsimp only
  repeat' first
    | with_reducible assumption
    | intro _
    | with_reducible apply ite_inv
    | with_reducible apply setDie_inv
    | with_reducible apply wf_inv
    | with_reducible apply each_inv
    | with_reducible apply allowedFollow_inv
    | with_reducible apply injFollow_inv
    | split

theorem execFuseRead_ansAt {d : Nat} {f : Fuses} (i_free : Skips.free φ) (i_regs : Skips.regs φ) (i_shad : Skips.shad φ) (i_hold : Skips.hold φ) (i_fences : Skips.fences φ) (i_ecc : Skips.ecc φ) (i_ret : Skips.ret φ) (i_retEcc : Skips.retEcc φ) (i_chutes : Skips.chutes φ) (i_ctxs : Skips.ctxs φ) (i_ports : Skips.ports φ) (i_encs : Skips.encs φ) (i_pds : Skips.pds φ) (i_seamQ : Skips.seamQ φ) (i_echos : Skips.echos φ) (i_mems : Skips.mems φ) (i_msgs : Skips.msgs φ) (i_axes : Skips.axes φ) (i_hoists : Skips.hoists φ) (i_trigs : Skips.trigs φ) (i_cqWait : Skips.cqWait φ) (i_cqSeq : Skips.cqSeq φ) (i_assays : Skips.assays φ) (i_therms : Skips.therms φ) (i_lamps : Skips.lamps φ) (i_mboxes : Skips.mboxes φ) (i_fws : Skips.fws φ) (i_tsync : Skips.tsync φ) (i_hops : Skips.hops φ) (i_dies : Skips.dies φ) (i_pkg : Skips.pkg φ) (i_pcie : Skips.pcie φ) (i_out : Skips.out φ) (hU : At φ c₀ s) : AnsAt φ c₀ (execFuseRead d f s) := by
  unfold execFuseRead
  try dsimp only
  repeat' first
    | with_reducible assumption
    | intro _
    | with_reducible apply ok_ansAt
    | with_reducible apply ite_ansAt
    | with_reducible apply ite_inv
    | with_reducible exact ok_ansAt (by assumption)
    | with_reducible apply boardOpen_inv
    | with_reducible apply setBoot_inv
    | with_reducible apply startFollow_inv
    | with_reducible apply leaveOut_inv
    | with_reducible apply stepEnd_inv
    | with_reducible apply fusesTake_inv
    | with_reducible apply stepNone_inv
    | split

theorem execCrystal_ansAt (i_free : Skips.free φ) (i_regs : Skips.regs φ) (i_ret : Skips.ret φ) (i_retEcc : Skips.retEcc φ) (i_assays : Skips.assays φ) (i_dies : Skips.dies φ) (i_pkg : Skips.pkg φ) (i_pcie : Skips.pcie φ) (i_out : Skips.out φ) (hU : At φ c₀ s) : AnsAt φ c₀ (execCrystal s) := by
  unfold execCrystal
  try dsimp only
  repeat' first
    | with_reducible assumption
    | intro _
    | with_reducible apply ok_ansAt
    | with_reducible apply ite_ansAt
    | with_reducible apply ite_inv
    | with_reducible exact ok_ansAt (by assumption)
    | with_reducible apply stepDone_inv
    | with_reducible apply toInternal_inv
    | split

theorem execPllLock_ansAt {d : Nat} (i_free : Skips.free φ) (i_regs : Skips.regs φ) (i_ret : Skips.ret φ) (i_retEcc : Skips.retEcc φ) (i_dies : Skips.dies φ) (i_pkg : Skips.pkg φ) (i_pcie : Skips.pcie φ) (i_out : Skips.out φ) (hU : At φ c₀ s) : AnsAt φ c₀ (execPllLock d s) := by
  unfold execPllLock
  try dsimp only
  repeat' first
    | with_reducible assumption
    | intro _
    | with_reducible apply ok_ansAt
    | with_reducible apply ite_ansAt
    | with_reducible apply ite_inv
    | with_reducible exact ok_ansAt (by assumption)
    | with_reducible apply setDie_inv
    | with_reducible apply setDyn_inv
    | with_reducible apply wb_inv
    | with_reducible apply stepDone_inv
    | with_reducible apply secPhase_inv
    | with_reducible apply setSyncOk_inv
    | split

theorem memAfresh_inv {d : Nat} (i_mem : Skips.mem φ) (i_ecc : Skips.ecc φ) (hU : At φ c₀ s) : At φ c₀ (memAfresh s d) := by
  unfold memAfresh
  try dsimp only
  repeat' first
    | with_reducible assumption
    | intro _
    | with_reducible apply ite_inv
    | split
    | with_reducible refine At.step (skip_mem_ecc i_mem i_ecc _ _ _) ?_
    | with_reducible refine At.step (i_ecc _ _) ?_
    | with_reducible refine At.step (i_mem _ _) ?_

theorem mapApply_inv {d : Nat} (i_regs : Skips.regs φ) (hU : At φ c₀ s) : At φ c₀ (mapApply s d) := by
  unfold mapApply
  try dsimp only
  repeat' first
    | with_reducible assumption
    | intro _
    | with_reducible apply ite_inv
    | with_reducible apply each_inv
    | with_reducible apply wf_inv
    | split

theorem mapClear_inv {d : Nat} (i_regs : Skips.regs φ) (i_ret : Skips.ret φ) (i_retEcc : Skips.retEcc φ) (i_mems : Skips.mems φ) (hU : At φ c₀ s) : At φ c₀ (mapClear s d) := by
  unfold mapClear
  try dsimp only
  repeat' first
    | with_reducible assumption
    | intro _
    | with_reducible apply ite_inv
    | with_reducible apply retWrites_inv
    | with_reducible apply setMemSt_inv
    | split

theorem portIs_inv {d : Nat} {i : Nat} {e : Nat} {st : Nat} (i_regs : Skips.regs φ) (hU : At φ c₀ s) : At φ c₀ (portIs s d i e st) := by
  unfold portIs
  try dsimp only
  repeat' first
    | with_reducible assumption
    | intro _
    | with_reducible apply ite_inv
    | with_reducible apply wr_inv
    | split

theorem linksBegin_inv {d : Nat} (i_free : Skips.free φ) (i_regs : Skips.regs φ) (i_ret : Skips.ret φ) (i_retEcc : Skips.retEcc φ) (i_dies : Skips.dies φ) (hU : At φ c₀ s) : At φ c₀ (linksBegin s d) := by
  unfold linksBegin
  try dsimp only
  repeat' first
    | with_reducible assumption
    | intro _
    | with_reducible apply ite_inv
    | with_reducible apply stepNone_inv
    | with_reducible apply each_inv
    | with_reducible apply portIs_inv
    | split

theorem execMemRepair_ansAt {d : Nat} (i_free : Skips.free φ) (i_regs : Skips.regs φ) (i_mem : Skips.mem φ) (i_ecc : Skips.ecc φ) (i_ret : Skips.ret φ) (i_retEcc : Skips.retEcc φ) (i_mems : Skips.mems φ) (i_dies : Skips.dies φ) (hU : At φ c₀ s) : AnsAt φ c₀ (execMemRepair d s) := by
  unfold execMemRepair
  try dsimp only
  repeat' first
    | with_reducible assumption
    | intro _
    | with_reducible apply ok_ansAt
    | with_reducible apply ite_ansAt
    | with_reducible apply ite_inv
    | with_reducible exact ok_ansAt (by assumption)
    | with_reducible apply memAfresh_inv
    | with_reducible apply stepDone_inv
    | with_reducible apply mapClear_inv
    | with_reducible apply mapApply_inv
    | with_reducible apply linksBegin_inv
    | split

theorem alignDie_inv {d : Nat} (i_regs : Skips.regs φ) (i_dies : Skips.dies φ) (i_pcie : Skips.pcie φ) (i_out : Skips.out φ) (hU : At φ c₀ s) : At φ c₀ (alignDie s d) := by
  unfold alignDie
  try dsimp only
  repeat' first
    | with_reducible assumption
    | intro _
    | with_reducible apply ite_inv
    | with_reducible apply setDie_inv
    | with_reducible apply setSyncOk_inv
    | with_reducible apply wf_inv
    | split

theorem alignFollow_inv (i_regs : Skips.regs φ) (i_dies : Skips.dies φ) (i_pcie : Skips.pcie φ) (i_out : Skips.out φ) (hU : At φ c₀ s) : At φ c₀ (alignFollow s) := by
  unfold alignFollow
  try dsimp only
  repeat' first
    | with_reducible assumption
    | intro _
    | with_reducible apply ite_inv
    | with_reducible apply each_inv
    | with_reducible apply alignDie_inv
    | split

theorem linksEnd_inv (i_free : Skips.free φ) (i_regs : Skips.regs φ) (i_ret : Skips.ret φ) (i_retEcc : Skips.retEcc φ) (i_dies : Skips.dies φ) (hU : At φ c₀ s) : At φ c₀ (linksEnd s) := by
  unfold linksEnd
  try dsimp only
  repeat' first
    | with_reducible assumption
    | intro _
    | with_reducible apply ite_inv
    | with_reducible apply each_inv
    | with_reducible apply stepEnd_inv
    | split

theorem linkFirstUp_inv {d : Nat} {i : Nat} {e : Nat} {j : Nat} (i_regs : Skips.regs φ) (i_pcie : Skips.pcie φ) (i_out : Skips.out φ) (hU : At φ c₀ s) : At φ c₀ (linkFirstUp s d i e j) := by
  unfold linkFirstUp
  try dsimp only
  repeat' first
    | with_reducible assumption
    | intro _
    | with_reducible apply ite_inv
    | with_reducible apply raise_inv
    | with_reducible apply portIs_inv
    | split

theorem linkKeptDown_inv {d : Nat} {i : Nat} {e : Nat} {j : Nat} (i_regs : Skips.regs φ) (i_pcie : Skips.pcie φ) (i_out : Skips.out φ) (hU : At φ c₀ s) : At φ c₀ (linkKeptDown s d i e j) := by
  unfold linkKeptDown
  try dsimp only
  repeat' first
    | with_reducible assumption
    | intro _
    | with_reducible apply ite_inv
    | with_reducible apply raise_inv
    | with_reducible apply portIs_inv
    | split

theorem linksFollow_inv (i_free : Skips.free φ) (i_regs : Skips.regs φ) (i_shad : Skips.shad φ) (i_hold : Skips.hold φ) (i_fences : Skips.fences φ) (i_ecc : Skips.ecc φ) (i_ret : Skips.ret φ) (i_retEcc : Skips.retEcc φ) (i_chutes : Skips.chutes φ) (i_ctxs : Skips.ctxs φ) (i_ports : Skips.ports φ) (i_encs : Skips.encs φ) (i_pds : Skips.pds φ) (i_seamQ : Skips.seamQ φ) (i_echos : Skips.echos φ) (i_mems : Skips.mems φ) (i_msgs : Skips.msgs φ) (i_axes : Skips.axes φ) (i_hoists : Skips.hoists φ) (i_trigs : Skips.trigs φ) (i_cqWait : Skips.cqWait φ) (i_cqSeq : Skips.cqSeq φ) (i_assays : Skips.assays φ) (i_therms : Skips.therms φ) (i_lamps : Skips.lamps φ) (i_mboxes : Skips.mboxes φ) (i_fws : Skips.fws φ) (i_tsync : Skips.tsync φ) (i_hops : Skips.hops φ) (i_dies : Skips.dies φ) (i_pkg : Skips.pkg φ) (i_pcie : Skips.pcie φ) (i_out : Skips.out φ) (hU : At φ c₀ s) : At φ c₀ (linksFollow s) := by
  unfold linksFollow
  try dsimp only
  repeat' first
    | with_reducible assumption
    | intro _
    | with_reducible apply ite_inv
    | with_reducible apply startFollow_inv
    | with_reducible apply linksEnd_inv
    | with_reducible apply alignFollow_inv
    | with_reducible apply seamsAll_inv
    | with_reducible apply routesFollow_inv
    | split

theorem execBurimTrain_ansAt {d : Nat} {i : Nat} (i_free : Skips.free φ) (i_regs : Skips.regs φ) (i_shad : Skips.shad φ) (i_hold : Skips.hold φ) (i_fences : Skips.fences φ) (i_ecc : Skips.ecc φ) (i_ret : Skips.ret φ) (i_retEcc : Skips.retEcc φ) (i_chutes : Skips.chutes φ) (i_ctxs : Skips.ctxs φ) (i_ports : Skips.ports φ) (i_encs : Skips.encs φ) (i_pds : Skips.pds φ) (i_seamQ : Skips.seamQ φ) (i_echos : Skips.echos φ) (i_mems : Skips.mems φ) (i_msgs : Skips.msgs φ) (i_axes : Skips.axes φ) (i_hoists : Skips.hoists φ) (i_trigs : Skips.trigs φ) (i_cqWait : Skips.cqWait φ) (i_cqSeq : Skips.cqSeq φ) (i_assays : Skips.assays φ) (i_therms : Skips.therms φ) (i_lamps : Skips.lamps φ) (i_mboxes : Skips.mboxes φ) (i_fws : Skips.fws φ) (i_tsync : Skips.tsync φ) (i_hops : Skips.hops φ) (i_dies : Skips.dies φ) (i_pkg : Skips.pkg φ) (i_pcie : Skips.pcie φ) (i_out : Skips.out φ) (hU : At φ c₀ s) : AnsAt φ c₀ (execBurimTrain d i s) := by
  unfold execBurimTrain
  try dsimp only
  repeat' first
    | with_reducible assumption
    | intro _
    | with_reducible apply ok_ansAt
    | with_reducible apply ite_ansAt
    | with_reducible apply ite_inv
    | with_reducible exact ok_ansAt (by assumption)
    | with_reducible apply linksFollow_inv
    | with_reducible apply linkKeptDown_inv
    | with_reducible apply linkFirstUp_inv
    | split

theorem trimsRestore_inv {d : Nat} (i_lamps : Skips.lamps φ) (hU : At φ c₀ s) : At φ c₀ (trimsRestore s d) := by
  unfold trimsRestore
  try dsimp only
  repeat' first
    | with_reducible assumption
    | intro _
    | with_reducible apply ite_inv
    | with_reducible apply each_inv
    | with_reducible apply setIsland_inv
    | split

theorem coreStart_inv {d : Nat} {image : Nat} (i_regs : Skips.regs φ) (i_lamps : Skips.lamps φ) (i_mboxes : Skips.mboxes φ) (i_fws : Skips.fws φ) (i_dies : Skips.dies φ) (i_pcie : Skips.pcie φ) (i_out : Skips.out φ) (hU : At φ c₀ s) : At φ c₀ (coreStart s d image) := by
  unfold coreStart
  try dsimp only
  repeat' first
    | with_reducible assumption
    | intro _
    | with_reducible apply ite_inv
    | with_reducible apply setBoot_inv
    | with_reducible apply setFw_inv
    | with_reducible apply setFwUp_inv
    | with_reducible apply trimsRestore_inv
    | with_reducible apply fwStartNote_inv
    | split

theorem execFwVerify_ansAt {d : Nat} {image : Nat} (i_free : Skips.free φ) (i_regs : Skips.regs φ) (i_shad : Skips.shad φ) (i_hold : Skips.hold φ) (i_fences : Skips.fences φ) (i_ecc : Skips.ecc φ) (i_ret : Skips.ret φ) (i_retEcc : Skips.retEcc φ) (i_chutes : Skips.chutes φ) (i_ctxs : Skips.ctxs φ) (i_ports : Skips.ports φ) (i_encs : Skips.encs φ) (i_pds : Skips.pds φ) (i_seamQ : Skips.seamQ φ) (i_echos : Skips.echos φ) (i_mems : Skips.mems φ) (i_msgs : Skips.msgs φ) (i_axes : Skips.axes φ) (i_hoists : Skips.hoists φ) (i_trigs : Skips.trigs φ) (i_cqWait : Skips.cqWait φ) (i_cqSeq : Skips.cqSeq φ) (i_assays : Skips.assays φ) (i_therms : Skips.therms φ) (i_lamps : Skips.lamps φ) (i_mboxes : Skips.mboxes φ) (i_fws : Skips.fws φ) (i_tsync : Skips.tsync φ) (i_hops : Skips.hops φ) (i_dies : Skips.dies φ) (i_pkg : Skips.pkg φ) (i_pcie : Skips.pcie φ) (i_out : Skips.out φ) (hU : At φ c₀ s) : AnsAt φ c₀ (execFwVerify d image s) := by
  unfold execFwVerify
  try dsimp only
  repeat' first
    | with_reducible assumption
    | intro _
    | with_reducible apply ok_ansAt
    | with_reducible apply ite_ansAt
    | with_reducible apply ite_inv
    | with_reducible exact ok_ansAt (by assumption)
    | with_reducible apply stepDone_inv
    | with_reducible apply coreStart_inv
    | with_reducible apply setBoot_inv
    | with_reducible apply stepNone_inv
    | with_reducible apply allowedFollow_inv
    | with_reducible apply startFollow_inv
    | split

theorem execPcieLink_ansAt {gen : Nat} {width : Nat} {ltssm : Nat} (i_free : Skips.free φ) (i_regs : Skips.regs φ) (i_ret : Skips.ret φ) (i_retEcc : Skips.retEcc φ) (i_assays : Skips.assays φ) (i_dies : Skips.dies φ) (i_pcie : Skips.pcie φ) (i_out : Skips.out φ) (hU : At φ c₀ s) : AnsAt φ c₀ (execPcieLink gen width ltssm s) := by
  unfold execPcieLink
  try dsimp only
  repeat' first
    | with_reducible assumption
    | intro _
    | with_reducible apply ok_ansAt
    | with_reducible apply ite_ansAt
    | with_reducible apply ite_inv
    | with_reducible exact ok_ansAt (by assumption)
    | with_reducible apply wb_inv
    | with_reducible apply stepDone_inv
    | with_reducible apply hostLinkUp_inv
    | with_reducible apply each_inv
    | with_reducible apply assayBegin_inv
    | split
    | with_reducible refine At.step (i_pcie _ _) ?_

theorem boardEnd_inv {d : Nat} (i_regs : Skips.regs φ) (i_ret : Skips.ret φ) (i_retEcc : Skips.retEcc φ) (i_mboxes : Skips.mboxes φ) (i_pcie : Skips.pcie φ) (i_out : Skips.out φ) (hU : At φ c₀ s) : At φ c₀ (boardEnd s d) := by
  unfold boardEnd
  try dsimp only
  repeat' first
    | with_reducible assumption
    | intro _
    | with_reducible apply ite_inv
    | with_reducible apply tlCopies_inv
    | with_reducible apply tlHistory_inv
    | with_reducible apply wf_inv
    | with_reducible apply whenDo_inv
    | with_reducible apply raise_inv
    | with_reducible apply each_inv
    | with_reducible apply notice_inv
    | split

theorem wakeEnd_inv (i_free : Skips.free φ) (i_regs : Skips.regs φ) (i_pkg : Skips.pkg φ) (i_pcie : Skips.pcie φ) (i_out : Skips.out φ) (hU : At φ c₀ s) : At φ c₀ (wakeEnd s) := by
  unfold wakeEnd
  try dsimp only
  repeat' first
    | with_reducible assumption
    | intro _
    | with_reducible apply ite_inv
    | with_reducible apply raise_inv
    | with_reducible apply count_inv
    | with_reducible apply modeReq_inv
    | split
    | with_reducible refine At.step (i_pkg _ _) ?_

theorem descClear_inv {d : Nat} (i_mem : Skips.mem φ) (i_ecc : Skips.ecc φ) (i_ctxs : Skips.ctxs φ) (hU : At φ c₀ s) : At φ c₀ (descClear s d) :=
  .step (.trans (i_ctxs _ s.ctxs).symm (skip_mem_ecc i_mem i_ecc s _ _)) hU

theorem startEnd_inv (i_free : Skips.free φ) (i_regs : Skips.regs φ) (i_mem : Skips.mem φ) (i_ecc : Skips.ecc φ) (i_ret : Skips.ret φ) (i_retEcc : Skips.retEcc φ) (i_ctxs : Skips.ctxs φ) (i_mboxes : Skips.mboxes φ) (i_dies : Skips.dies φ) (i_pkg : Skips.pkg φ) (i_pcie : Skips.pcie φ) (i_out : Skips.out φ) (hU : At φ c₀ s) : At φ c₀ (startEnd s) := by
  unfold startEnd
  try dsimp only
  repeat' first
    | with_reducible assumption
    | intro _
    | with_reducible apply ite_inv
    | with_reducible apply each_inv
    | with_reducible apply descClear_inv
    | with_reducible apply boardEnd_inv
    | with_reducible apply dbgOpen_inv
    | with_reducible apply wakeEnd_inv
    | split
    | with_reducible refine At.step (i_pkg _ _) ?_

theorem assayStepEnd_inv {d : Nat} (i_free : Skips.free φ) (i_regs : Skips.regs φ) (i_mem : Skips.mem φ) (i_ecc : Skips.ecc φ) (i_ret : Skips.ret φ) (i_retEcc : Skips.retEcc φ) (i_ctxs : Skips.ctxs φ) (i_mboxes : Skips.mboxes φ) (i_dies : Skips.dies φ) (i_pkg : Skips.pkg φ) (i_pcie : Skips.pcie φ) (i_out : Skips.out φ) (hU : At φ c₀ s) : At φ c₀ (assayStepEnd s d) := by
  unfold assayStepEnd
  try dsimp only
  repeat' first
    | with_reducible assumption
    | intro _
    | with_reducible apply ite_inv
    | with_reducible apply setBoot_inv
    | with_reducible apply startEnd_inv
    | split

theorem execInitialAssay_ansAt {d : Nat} (i_free : Skips.free φ) (i_regs : Skips.regs φ) (i_mem : Skips.mem φ) (i_ecc : Skips.ecc φ) (i_ret : Skips.ret φ) (i_retEcc : Skips.retEcc φ) (i_ctxs : Skips.ctxs φ) (i_mboxes : Skips.mboxes φ) (i_dies : Skips.dies φ) (i_pkg : Skips.pkg φ) (i_pcie : Skips.pcie φ) (i_out : Skips.out φ) (hU : At φ c₀ s) : AnsAt φ c₀ (execInitialAssay d s) := by
  unfold execInitialAssay
  try dsimp only
  repeat' first
    | with_reducible assumption
    | intro _
    | with_reducible apply ok_ansAt
    | with_reducible apply ite_ansAt
    | with_reducible apply ite_inv
    | with_reducible exact ok_ansAt (by assumption)
    | with_reducible apply assayStepEnd_inv
    | with_reducible apply stepDone_inv
    | with_reducible apply tlCheck_inv
    | split

theorem stepFail_inv {d : Nat} {st : Nat} {detail : Nat} (i_free : Skips.free φ) (i_regs : Skips.regs φ) (i_mem : Skips.mem φ) (i_ecc : Skips.ecc φ) (i_ret : Skips.ret φ) (i_retEcc : Skips.retEcc φ) (i_ctxs : Skips.ctxs φ) (i_mboxes : Skips.mboxes φ) (i_dies : Skips.dies φ) (i_pkg : Skips.pkg φ) (i_pcie : Skips.pcie φ) (i_out : Skips.out φ) (hU : At φ c₀ s) : At φ c₀ (stepFail s d st detail) := by
  unfold stepFail
  try dsimp only
  repeat' first
    | with_reducible assumption
    | intro _
    | with_reducible apply ite_inv
    | with_reducible apply boardOpen_inv
    | with_reducible apply stepEnd_inv
    | with_reducible apply assayStepEnd_inv
    | with_reducible apply setBoot_inv
    | split

theorem execBootStepTimeout_ansAt {d : Nat} {step : Nat} {detail : Nat} (i_clock : Skips.clock φ) (i_free : Skips.free φ) (i_regs : Skips.regs φ) (i_mem : Skips.mem φ) (i_ecc : Skips.ecc φ) (i_ret : Skips.ret φ) (i_retEcc : Skips.retEcc φ) (i_ctxs : Skips.ctxs φ) (i_mboxes : Skips.mboxes φ) (i_dies : Skips.dies φ) (i_pkg : Skips.pkg φ) (i_pcie : Skips.pcie φ) (i_out : Skips.out φ) (hU : At φ c₀ s) : AnsAt φ c₀ (execBootStepTimeout d step detail s) := by
  unfold execBootStepTimeout
  try dsimp only
  repeat' first
    | with_reducible assumption
    | intro _
    | with_reducible apply ok_ansAt
    | with_reducible apply ite_ansAt
    | with_reducible apply ite_inv
    | with_reducible exact ok_ansAt (by assumption)
    | with_reducible apply stepFail_inv
    | with_reducible apply waitClock_inv
    | split

theorem execBootRestart_ansAt (i_clock : Skips.clock φ) (i_regs : Skips.regs φ) (i_shad : Skips.shad φ) (i_gos : Skips.gos φ) (i_hold : Skips.hold φ) (i_ticks : Skips.ticks φ) (i_caps : Skips.caps φ) (i_fences : Skips.fences φ) (i_mem : Skips.mem φ) (i_ecc : Skips.ecc φ) (i_ret : Skips.ret φ) (i_retEcc : Skips.retEcc φ) (i_chutes : Skips.chutes φ) (i_ctxs : Skips.ctxs φ) (i_ports : Skips.ports φ) (i_encs : Skips.encs φ) (i_pds : Skips.pds φ) (i_seamQ : Skips.seamQ φ) (i_echos : Skips.echos φ) (i_mems : Skips.mems φ) (i_msgs : Skips.msgs φ) (i_axes : Skips.axes φ) (i_hoists : Skips.hoists φ) (i_served : Skips.served φ) (i_trigs : Skips.trigs φ) (i_tmrs : Skips.tmrs φ) (i_cqWait : Skips.cqWait φ) (i_cqSeq : Skips.cqSeq φ) (i_assays : Skips.assays φ) (i_therms : Skips.therms φ) (i_lamps : Skips.lamps φ) (i_mboxes : Skips.mboxes φ) (i_fws : Skips.fws φ) (i_tsync : Skips.tsync φ) (i_burims : Skips.burims φ) (i_hops : Skips.hops φ) (i_dies : Skips.dies φ) (i_pkg : Skips.pkg φ) (i_pcie : Skips.pcie φ) (i_out : Skips.out φ) (hU : At φ c₀ s) : AnsAt φ c₀ (execBootRestart s) := by
  unfold execBootRestart
  try dsimp only
  repeat' first
    | with_reducible assumption
    | intro _
    | with_reducible apply ok_ansAt
    | with_reducible apply ite_ansAt
    | with_reducible apply ite_inv
    | with_reducible exact ok_ansAt (by assumption)
    | with_reducible apply waitClock_inv
    | with_reducible apply startOver_inv
    | with_reducible apply each_inv
    | with_reducible apply tlHistory_inv
    | split

end Sys2Proof.Laws
end

