-- ==== Sys2Proof/Laws/MailboxReg.lean ====
section
/-!
SUPPORT. The register pages that each operation of `Machine/Mailbox.lean` may write: every other page reads as before.
-/

set_option Elab.async false
set_option linter.unusedTactic false
set_option linter.unreachableTactic false
namespace Sys2Proof.Laws

open Sys2Proof.Machine

variable {q₀ : Pg} {s₀ s : State}

theorem setInState_keeps {d : Nat} {sec : Bool} {n : Nat} {st : Nat} (k_mbox : ∀ d b, pgMbox d b ≠ q₀) (hU : Keeps q₀ s₀ s) : Keeps q₀ s₀ (setInState s d sec n st) := by
  unfold setInState
  try dsimp only
  repeat' first
    | with_reducible assumption
    | with_reducible exact k_mbox _ _
    | intro _
    | with_reducible apply ite_keeps
    | with_reducible apply wf_keeps
    | split
    | with_reducible apply Keeps.lit

theorem inLoad_keeps {d : Nat} {sec : Bool} {n : Nat} {ack : Word} {res : List Word} (k_mbox : ∀ d b, pgMbox d b ≠ q₀) (hU : Keeps q₀ s₀ s) : Keeps q₀ s₀ (inLoad s d sec n ack res) := by
  unfold inLoad
  try dsimp only
  repeat' first
    | with_reducible assumption
    | with_reducible exact k_mbox _ _
    | intro _
    | with_reducible apply ite_keeps
    | with_reducible apply each_keeps
    | with_reducible apply wr_keeps
    | with_reducible apply raise_keeps
    | with_reducible apply setInState_keeps
    | split
    | with_reducible apply Keeps.lit

theorem inFinish_keeps {d : Nat} {sec : Bool} {n : Nat} {code : Nat} {res : List Word} (k_mbox : ∀ d b, pgMbox d b ≠ q₀) (hU : Keeps q₀ s₀ s) : Keeps q₀ s₀ (inFinish s d sec n code res) := by
  unfold inFinish
  try dsimp only
  repeat' first
    | with_reducible assumption
    | with_reducible exact k_mbox _ _
    | intro _
    | with_reducible apply ite_keeps
    | with_reducible apply setMbox_keeps
    | with_reducible apply wr_keeps
    | with_reducible apply whenDo_keeps
    | with_reducible apply count_keeps
    | with_reducible apply setInState_keeps
    | with_reducible apply inLoad_keeps
    | split
    | with_reducible apply Keeps.lit

theorem inPost_keeps {d : Nat} {sec : Bool} {n : Nat} {v : Word} (k_mbox : ∀ d b, pgMbox d b ≠ q₀) (hU : Keeps q₀ s₀ s) : Keeps q₀ s₀ (inPost s d sec n v) := by
  unfold inPost
  try dsimp only
  repeat' first
    | with_reducible assumption
    | with_reducible exact k_mbox _ _
    | intro _
    | with_reducible apply ite_keeps
    | with_reducible apply wr_keeps
    | with_reducible apply setMbox_keeps
    | with_reducible apply inLoad_keeps
    | with_reducible apply count_keeps
    | split
    | with_reducible apply Keeps.lit

theorem inHdrWrite_keeps {r : Req} {d : Nat} {sec : Bool} {n : Nat} {v : Word} (k_mbox : ∀ d b, pgMbox d b ≠ q₀) (hU : Keeps q₀ s₀ s) : Keeps q₀ s₀ (inHdrWrite r d sec n v s) := by
  unfold inHdrWrite
  try dsimp only
  repeat' first
    | with_reducible assumption
    | with_reducible exact k_mbox _ _
    | intro _
    | with_reducible apply ite_keeps
    | with_reducible apply logErr_keeps
    | with_reducible apply count_keeps
    | with_reducible apply inPost_keeps
    | split
    | with_reducible apply Keeps.lit

theorem execMailboxPost_kept {r : Req} {d : Nat} {sec : Bool} {n : Nat} {v : Word} (k_mbox : ∀ d b, pgMbox d b ≠ q₀) (k_pcie : pgPcie ≠ q₀) (k_guard : ∀ d, pgGuard d ≠ q₀) (hU : Keeps q₀ s₀ s) : Kept q₀ s₀ (execMailboxPost r d sec n v s) := by
  unfold execMailboxPost
  try dsimp only
  repeat' first
    | with_reducible assumption
    | with_reducible exact k_mbox _ _
    | with_reducible exact k_pcie
    | with_reducible exact k_guard _
    | intro _
    | with_reducible apply ok_kept
    | with_reducible apply ite_kept
    | with_reducible apply ite_keeps
    | with_reducible exact ok_kept (by assumption)
    | with_reducible apply guardedWrite_keeps
    | with_reducible apply inHdrWrite_keeps
    | split
    | with_reducible apply Keeps.lit

theorem inTake_keeps {d : Nat} {sec : Bool} {n : Nat} (k_mbox : ∀ d b, pgMbox d b ≠ q₀) (hU : Keeps q₀ s₀ s) : Keeps q₀ s₀ (inTake s d sec n) := by
  unfold inTake
  try dsimp only
  repeat' first
    | with_reducible assumption
    | with_reducible exact k_mbox _ _
    | intro _
    | with_reducible apply ite_keeps
    | with_reducible apply setInState_keeps
    | with_reducible apply setMbox_keeps
    | with_reducible apply inFinish_keeps
    | split
    | with_reducible apply Keeps.lit

theorem execMailboxTake_kept {d : Nat} (k_mbox : ∀ d b, pgMbox d b ≠ q₀) (hU : Keeps q₀ s₀ s) : Kept q₀ s₀ (execMailboxTake d s) := by
  unfold execMailboxTake
  try dsimp only
  repeat' first
    | with_reducible assumption
    | with_reducible exact k_mbox _ _
    | intro _
    | with_reducible apply ok_kept
    | with_reducible apply ite_kept
    | with_reducible apply ite_keeps
    | with_reducible exact ok_kept (by assumption)
    | with_reducible apply inTake_keeps
    | split
    | with_reducible apply Keeps.lit

theorem longFollow_keeps {d : Nat} (k_mbox : ∀ d b, pgMbox d b ≠ q₀) (hU : Keeps q₀ s₀ s) : Keeps q₀ s₀ (longFollow s d) := by
  unfold longFollow
  try dsimp only
  repeat' first
    | with_reducible assumption
    | with_reducible exact k_mbox _ _
    | intro _
    | with_reducible apply ite_keeps
    | with_reducible apply wb_keeps
    | split
    | with_reducible apply Keeps.lit

theorem setLong_keeps {d : Nat} {l : Option LongCmd} (k_mbox : ∀ d b, pgMbox d b ≠ q₀) (hU : Keeps q₀ s₀ s) : Keeps q₀ s₀ (setLong s d l) := by
  unfold setLong
  try dsimp only
  repeat' first
    | with_reducible assumption
    | with_reducible exact k_mbox _ _
    | intro _
    | with_reducible apply ite_keeps
    | with_reducible apply longFollow_keeps
    | with_reducible apply setFw_keeps
    | split
    | with_reducible apply Keeps.lit

theorem execInDone_kept {d : Nat} {sec : Bool} {n : Nat} (k_mbox : ∀ d b, pgMbox d b ≠ q₀) (hU : Keeps q₀ s₀ s) : Kept q₀ s₀ (execInDone d sec n s) := by
  unfold execInDone
  try dsimp only
  repeat' first
    | with_reducible assumption
    | with_reducible exact k_mbox _ _
    | intro _
    | with_reducible apply ok_kept
    | with_reducible apply ite_kept
    | with_reducible apply ite_keeps
    | with_reducible exact ok_kept (by assumption)
    | with_reducible apply inFinish_keeps
    | with_reducible apply setLong_keeps
    | split
    | with_reducible apply Keeps.lit

theorem longAbandon_keeps {d : Nat} {l : LongCmd} (k_mbox : ∀ d b, pgMbox d b ≠ q₀) (k_hp : ∀ d i, pgHp d i ≠ q₀) (k_echo : ∀ d, pgEcho d ≠ q₀) (hU : Keeps q₀ s₀ s) : Keeps q₀ s₀ (longAbandon s d l) := by
  unfold longAbandon
  try dsimp only
  repeat' first
    | with_reducible assumption
    | with_reducible exact k_mbox _ _
    | with_reducible exact k_hp _ _
    | with_reducible exact k_echo _
    | intro _
    | with_reducible apply ite_keeps
    | with_reducible apply setLink_keeps
    | with_reducible apply sweepAbort_keeps
    | split
    | with_reducible apply Keeps.lit

theorem longEnd_keeps {d : Nat} {code : Nat} (k_mbox : ∀ d b, pgMbox d b ≠ q₀) (k_hp : ∀ d i, pgHp d i ≠ q₀) (k_echo : ∀ d, pgEcho d ≠ q₀) (hU : Keeps q₀ s₀ s) : Keeps q₀ s₀ (longEnd s d code) := by
  unfold longEnd
  try dsimp only
  repeat' first
    | with_reducible assumption
    | with_reducible exact k_mbox _ _
    | with_reducible exact k_hp _ _
    | with_reducible exact k_echo _
    | intro _
    | with_reducible apply ite_keeps
    | with_reducible apply longAbandon_keeps
    | with_reducible apply inFinish_keeps
    | with_reducible apply setLong_keeps
    | split
    | with_reducible apply Keeps.lit

theorem execLongCmdTimeout_kept {d : Nat} (k_tb : ∀ d, pgTb d ≠ q₀) (k_mbox : ∀ d b, pgMbox d b ≠ q₀) (k_hp : ∀ d i, pgHp d i ≠ q₀) (k_echo : ∀ d, pgEcho d ≠ q₀) (hU : Keeps q₀ s₀ s) : Kept q₀ s₀ (execLongCmdTimeout d s) := by
  unfold execLongCmdTimeout
  try dsimp only
  repeat' first
    | with_reducible assumption
    | with_reducible exact k_tb _
    | with_reducible exact k_mbox _ _
    | with_reducible exact k_hp _ _
    | with_reducible exact k_echo _
    | intro _
    | with_reducible apply ok_kept
    | with_reducible apply ite_kept
    | with_reducible apply ite_keeps
    | with_reducible exact ok_kept (by assumption)
    | with_reducible apply longEnd_keeps
    | with_reducible apply waitClock_keeps
    | split
    | with_reducible apply Keeps.lit

theorem setResult_keeps {d : Nat} {sec : Bool} {n : Nat} {code : Nat} {res : List Word} (hU : Keeps q₀ s₀ s) : Keeps q₀ s₀ (setResult s d sec n code res) := by
  unfold setResult
  try dsimp only
  repeat' first
    | with_reducible assumption
    | intro _
    | with_reducible apply ite_keeps
    | with_reducible apply setMbox_keeps
    | split
    | with_reducible apply Keeps.lit

theorem inRun_keeps {d : Nat} {sec : Bool} {n : Nat} {cmd : Nat} {bad : Option Nat} {eff : State → State} (hU : Keeps q₀ s₀ s) (hf_eff : ∀ tU, Keeps q₀ s₀ tU → Keeps q₀ s₀ (eff tU)) : Keeps q₀ s₀ (inRun s d sec n cmd bad eff) := by
  unfold inRun
  try dsimp only
  repeat' first
    | with_reducible assumption
    | intro _
    | with_reducible apply ite_keeps
    | with_reducible apply hf_eff
    | with_reducible apply setResult_keeps
    | split
    | with_reducible apply Keeps.lit

theorem execGetInfo_kept {d : Nat} {sec : Bool} {n : Nat} (hU : Keeps q₀ s₀ s) : Kept q₀ s₀ (execGetInfo d sec n s) := by
  unfold execGetInfo
  try dsimp only
  repeat' first
    | with_reducible assumption
    | intro _
    | with_reducible apply ok_kept
    | with_reducible apply ite_kept
    | with_reducible apply ite_keeps
    | with_reducible exact ok_kept (by assumption)
    | with_reducible apply inRun_keeps
    | with_reducible apply setResult_keeps
    | split
    | with_reducible apply Keeps.lit

theorem execPing_kept {d : Nat} {sec : Bool} {n : Nat} (hU : Keeps q₀ s₀ s) : Kept q₀ s₀ (execPing d sec n s) := by
  unfold execPing
  try dsimp only
  repeat' first
    | with_reducible assumption
    | intro _
    | with_reducible apply ok_kept
    | with_reducible apply ite_kept
    | with_reducible apply ite_keeps
    | with_reducible exact ok_kept (by assumption)
    | with_reducible apply inRun_keeps
    | with_reducible apply setResult_keeps
    | split
    | with_reducible apply Keeps.lit

theorem execHeadDiscover_kept {d : Nat} {sec : Bool} {n : Nat} {ans : Option (List Byte)} (k_mbox : ∀ d b, pgMbox d b ≠ q₀) (k_hp : ∀ d i, pgHp d i ≠ q₀) (hU : Keeps q₀ s₀ s) : Kept q₀ s₀ (execHeadDiscover d sec n ans s) := by
  unfold execHeadDiscover
  try dsimp only
  repeat' first
    | with_reducible assumption
    | with_reducible exact k_mbox _ _
    | with_reducible exact k_hp _ _
    | intro _
    | with_reducible apply ok_kept
    | with_reducible apply ite_kept
    | with_reducible apply ite_keeps
    | with_reducible exact ok_kept (by assumption)
    | with_reducible apply inRun_keeps
    | with_reducible apply setLong_keeps
    | with_reducible apply discover_keeps
    | with_reducible apply setLink_keeps
    | split
    | with_reducible apply Keeps.lit

theorem execSbRead_kept {d : Nat} {sec : Bool} {n : Nat} {ans : Option (List Byte)} (hU : Keeps q₀ s₀ s) : Kept q₀ s₀ (execSbRead d sec n ans s) := by
  unfold execSbRead
  try dsimp only
  repeat' first
    | with_reducible assumption
    | intro _
    | with_reducible apply ok_kept
    | with_reducible apply ite_kept
    | with_reducible apply ite_keeps
    | with_reducible exact ok_kept (by assumption)
    | with_reducible apply inRun_keeps
    | with_reducible apply setResult_keeps
    | split
    | with_reducible apply Keeps.lit

theorem execSbWrite_kept {d : Nat} {sec : Bool} {n : Nat} {ack : Bool} (hU : Keeps q₀ s₀ s) : Kept q₀ s₀ (execSbWrite d sec n ack s) := by
  unfold execSbWrite
  try dsimp only
  repeat' first
    | with_reducible assumption
    | intro _
    | with_reducible apply ok_kept
    | with_reducible apply ite_kept
    | with_reducible apply ite_keeps
    | with_reducible exact ok_kept (by assumption)
    | with_reducible apply inRun_keeps
    | with_reducible apply emit_keeps
    | with_reducible apply setResult_keeps
    | split
    | with_reducible apply Keeps.lit

theorem execCaptureRef_kept {d : Nat} {sec : Bool} {n : Nat} (k_mbox : ∀ d b, pgMbox d b ≠ q₀) (k_echo : ∀ d, pgEcho d ≠ q₀) (hU : Keeps q₀ s₀ s) : Kept q₀ s₀ (execCaptureRef d sec n s) := by
  unfold execCaptureRef
  try dsimp only
  repeat' first
    | with_reducible assumption
    | with_reducible exact k_mbox _ _
    | with_reducible exact k_echo _
    | intro _
    | with_reducible apply ok_kept
    | with_reducible apply ite_kept
    | with_reducible apply ite_keeps
    | with_reducible exact ok_kept (by assumption)
    | with_reducible apply inRun_keeps
    | with_reducible apply wr_keeps
    | with_reducible apply sweepStart_keeps
    | with_reducible apply setLong_keeps
    | split
    | with_reducible apply Keeps.lit

theorem execAssayRequest_kept {d : Nat} {sec : Bool} {n : Nat} (k_assay : ∀ d, pgAssay d ≠ q₀) (k_mbox : ∀ d b, pgMbox d b ≠ q₀) (hU : Keeps q₀ s₀ s) : Kept q₀ s₀ (execAssayRequest d sec n s) := by
  unfold execAssayRequest
  try dsimp only
  repeat' first
    | with_reducible assumption
    | with_reducible exact k_assay _
    | with_reducible exact k_mbox _ _
    | intro _
    | with_reducible apply ok_kept
    | with_reducible apply ite_kept
    | with_reducible apply ite_keeps
    | with_reducible exact ok_kept (by assumption)
    | with_reducible apply inRun_keeps
    | with_reducible apply asRequest_keeps
    | with_reducible apply setLong_keeps
    | with_reducible apply setResult_keeps
    | split
    | with_reducible apply Keeps.lit

theorem execAbortLong_kept {d : Nat} {sec : Bool} {n : Nat} (k_mbox : ∀ d b, pgMbox d b ≠ q₀) (k_hp : ∀ d i, pgHp d i ≠ q₀) (k_echo : ∀ d, pgEcho d ≠ q₀) (hU : Keeps q₀ s₀ s) : Kept q₀ s₀ (execAbortLong d sec n s) := by
  unfold execAbortLong
  try dsimp only
  repeat' first
    | with_reducible assumption
    | with_reducible exact k_mbox _ _
    | with_reducible exact k_hp _ _
    | with_reducible exact k_echo _
    | intro _
    | with_reducible apply ok_kept
    | with_reducible apply ite_kept
    | with_reducible apply ite_keeps
    | with_reducible exact ok_kept (by assumption)
    | with_reducible apply inRun_keeps
    | with_reducible apply setResult_keeps
    | with_reducible apply longEnd_keeps
    | split
    | with_reducible apply Keeps.lit

theorem execTallyClear_kept {d : Nat} {sec : Bool} {n : Nat} (k_tally : ∀ d, pgTally d ≠ q₀) (k_retain : ∀ d, pgRetain d ≠ q₀) (hU : Keeps q₀ s₀ s) : Kept q₀ s₀ (execTallyClear d sec n s) := by
  unfold execTallyClear
  try dsimp only
  repeat' first
    | with_reducible assumption
    | with_reducible exact k_tally _
    | with_reducible exact k_retain _
    | intro _
    | with_reducible apply ok_kept
    | with_reducible apply ite_kept
    | with_reducible apply ite_keeps
    | with_reducible exact ok_kept (by assumption)
    | with_reducible apply inRun_keeps
    | with_reducible apply setResult_keeps
    | with_reducible apply tallyClear_keeps
    | split
    | with_reducible apply Keeps.lit

theorem setFwUp_keeps {d : Nat} {b : Bool} (k_mbox : ∀ d b, pgMbox d b ≠ q₀) (hU : Keeps q₀ s₀ s) : Keeps q₀ s₀ (setFwUp s d b) := by
  unfold setFwUp
  try dsimp only
  repeat' first
    | with_reducible assumption
    | with_reducible exact k_mbox _ _
    | intro _
    | with_reducible apply ite_keeps
    | with_reducible apply wb_keeps
    | split
    | with_reducible apply Keeps.lit

theorem fwRestart_keeps {d : Nat} {cause : Nat} (k_mbox : ∀ d b, pgMbox d b ≠ q₀) (hU : Keeps q₀ s₀ s) : Keeps q₀ s₀ (fwRestart s d cause) := by
  unfold fwRestart
  try dsimp only
  repeat' first
    | with_reducible assumption
    | with_reducible exact k_mbox _ _
    | intro _
    | with_reducible apply ite_keeps
    | with_reducible apply setFwUp_keeps
    | with_reducible apply setFw_keeps
    | with_reducible apply longFollow_keeps
    | with_reducible apply each_keeps
    | with_reducible apply raise_keeps
    | with_reducible apply wf_keeps
    | with_reducible apply setInState_keeps
    | with_reducible apply setMbox_keeps
    | with_reducible apply inFinish_keeps
    | split
    | with_reducible apply Keeps.lit

theorem execFwRestart_kept {d : Nat} {sec : Bool} {n : Nat} (k_mbox : ∀ d b, pgMbox d b ≠ q₀) (hU : Keeps q₀ s₀ s) : Kept q₀ s₀ (execFwRestart d sec n s) := by
  unfold execFwRestart
  try dsimp only
  repeat' first
    | with_reducible assumption
    | with_reducible exact k_mbox _ _
    | intro _
    | with_reducible apply ok_kept
    | with_reducible apply ite_kept
    | with_reducible apply ite_keeps
    | with_reducible exact ok_kept (by assumption)
    | with_reducible apply inRun_keeps
    | with_reducible apply fwRestart_keeps
    | with_reducible apply inFinish_keeps
    | split
    | with_reducible apply Keeps.lit

theorem execFwWatchdogRestart_kept {d : Nat} (k_mbox : ∀ d b, pgMbox d b ≠ q₀) (hU : Keeps q₀ s₀ s) : Kept q₀ s₀ (execFwWatchdogRestart d s) := by
  unfold execFwWatchdogRestart
  try dsimp only
  repeat' first
    | with_reducible assumption
    | with_reducible exact k_mbox _ _
    | intro _
    | with_reducible apply ok_kept
    | with_reducible apply ite_kept
    | with_reducible apply ite_keeps
    | with_reducible exact ok_kept (by assumption)
    | with_reducible apply fwRestart_keeps
    | split
    | with_reducible apply Keeps.lit

theorem fwStartNote_keeps {d : Nat} (k_mbox : ∀ d b, pgMbox d b ≠ q₀) (hU : Keeps q₀ s₀ s) : Keeps q₀ s₀ (fwStartNote s d) := by
  unfold fwStartNote
  try dsimp only
  repeat' first
    | with_reducible assumption
    | with_reducible exact k_mbox _ _
    | intro _
    | with_reducible apply ite_keeps
    | with_reducible apply notice_keeps
    | split
    | with_reducible apply Keeps.lit

theorem execFwStarted_kept {d : Nat} (k_mbox : ∀ d b, pgMbox d b ≠ q₀) (hU : Keeps q₀ s₀ s) : Kept q₀ s₀ (execFwStarted d s) := by
  unfold execFwStarted
  try dsimp only
  repeat' first
    | with_reducible assumption
    | with_reducible exact k_mbox _ _
    | intro _
    | with_reducible apply ok_kept
    | with_reducible apply ite_kept
    | with_reducible apply ite_keeps
    | with_reducible exact ok_kept (by assumption)
    | with_reducible apply fwStartNote_keeps
    | with_reducible apply setFwUp_keeps
    | with_reducible apply each_keeps
    | with_reducible apply inTake_keeps
    | split
    | with_reducible apply Keeps.lit

theorem lcChange_keeps {d : Nat} {t : Nat} (k_die : ∀ d, pgDie d ≠ q₀) (k_mode : ∀ d, pgMode d ≠ q₀) (k_inject : ∀ d, pgInject d ≠ q₀) (k_secDie : ∀ d, pgSecDie d ≠ q₀) (k_debug : ∀ d, pgDebug d ≠ q₀) (k_ijl : ∀ d, pgIjl d ≠ q₀) (k_sess : ∀ d, pgSess d ≠ q₀) (hU : Keeps q₀ s₀ s) : Keeps q₀ s₀ (lcChange s d t) := by
  unfold lcChange
  try dsimp only
  repeat' first
    | with_reducible assumption
    | with_reducible exact k_die _
    | with_reducible exact k_mode _
    | with_reducible exact k_inject _
    | with_reducible exact k_secDie _
    | with_reducible exact k_debug _
    | with_reducible exact k_ijl _
    | with_reducible exact k_sess _
    | intro _
    | with_reducible apply ite_keeps
    | with_reducible apply setDie_keeps
    | with_reducible apply dbgClose_keeps
    | with_reducible apply sessClose_keeps
    | with_reducible apply wf_keeps
    | with_reducible apply each_keeps
    | with_reducible apply allowedFollow_keeps
    | with_reducible apply injFollow_keeps
    | with_reducible apply raise_keeps
    | split
    | with_reducible apply Keeps.lit

theorem execLifecycleAdvance_kept {d : Nat} {sec : Bool} {n : Nat} {good : Bool} (k_die : ∀ d, pgDie d ≠ q₀) (k_mode : ∀ d, pgMode d ≠ q₀) (k_inject : ∀ d, pgInject d ≠ q₀) (k_secDie : ∀ d, pgSecDie d ≠ q₀) (k_debug : ∀ d, pgDebug d ≠ q₀) (k_ijl : ∀ d, pgIjl d ≠ q₀) (k_sess : ∀ d, pgSess d ≠ q₀) (hU : Keeps q₀ s₀ s) : Kept q₀ s₀ (execLifecycleAdvance d sec n good s) := by
  unfold execLifecycleAdvance
  try dsimp only
  repeat' first
    | with_reducible assumption
    | with_reducible exact k_die _
    | with_reducible exact k_mode _
    | with_reducible exact k_inject _
    | with_reducible exact k_secDie _
    | with_reducible exact k_debug _
    | with_reducible exact k_ijl _
    | with_reducible exact k_sess _
    | intro _
    | with_reducible apply ok_kept
    | with_reducible apply ite_kept
    | with_reducible apply ite_keeps
    | with_reducible exact ok_kept (by assumption)
    | with_reducible apply inRun_keeps
    | with_reducible apply setResult_keeps
    | with_reducible apply lcChange_keeps
    | split
    | with_reducible apply Keeps.lit

theorem execOutFull_kept {d : Nat} {sec : Bool} {n : Nat} (k_mbox : ∀ d b, pgMbox d b ≠ q₀) (hU : Keeps q₀ s₀ s) : Kept q₀ s₀ (execOutFull d sec n s) := by
  unfold execOutFull
  try dsimp only
  repeat' first
    | with_reducible assumption
    | with_reducible exact k_mbox _ _
    | intro _
    | with_reducible apply ok_kept
    | with_reducible apply ite_kept
    | with_reducible apply ite_keeps
    | with_reducible exact ok_kept (by assumption)
    | with_reducible apply setMbox_keeps
    | with_reducible apply each_keeps
    | with_reducible apply wr_keeps
    | with_reducible apply raise_keeps
    | with_reducible apply wb_keeps
    | with_reducible apply outQueued_keeps
    | split
    | with_reducible apply Keeps.lit

theorem outAck_keeps {r : Req} {d : Nat} {sec : Bool} {n : Nat} {v : Word} (k_mbox : ∀ d b, pgMbox d b ≠ q₀) (hU : Keeps q₀ s₀ s) : Keeps q₀ s₀ (outAck r d sec n v s) := by
  unfold outAck
  try dsimp only
  repeat' first
    | with_reducible assumption
    | with_reducible exact k_mbox _ _
    | intro _
    | with_reducible apply ite_keeps
    | with_reducible apply setMbox_keeps
    | with_reducible apply wb_keeps
    | with_reducible apply logErr_keeps
    | split
    | with_reducible apply Keeps.lit

theorem execNoticeAck_kept {r : Req} {d : Nat} {sec : Bool} {n : Nat} {v : Word} (k_mbox : ∀ d b, pgMbox d b ≠ q₀) (k_pcie : pgPcie ≠ q₀) (k_guard : ∀ d, pgGuard d ≠ q₀) (hU : Keeps q₀ s₀ s) : Kept q₀ s₀ (execNoticeAck r d sec n v s) := by
  unfold execNoticeAck
  try dsimp only
  repeat' first
    | with_reducible assumption
    | with_reducible exact k_mbox _ _
    | with_reducible exact k_pcie
    | with_reducible exact k_guard _
    | intro _
    | with_reducible apply ok_kept
    | with_reducible apply ite_kept
    | with_reducible apply ite_keeps
    | with_reducible exact ok_kept (by assumption)
    | with_reducible apply guardedWrite_keeps
    | with_reducible apply outAck_keeps
    | split
    | with_reducible apply Keeps.lit

theorem execInStuck_kept {d : Nat} {sec : Bool} {n : Nat} (k_tb : ∀ d, pgTb d ≠ q₀) (k_mbox : ∀ d b, pgMbox d b ≠ q₀) (hU : Keeps q₀ s₀ s) : Kept q₀ s₀ (execInStuck d sec n s) := by
  unfold execInStuck
  try dsimp only
  repeat' first
    | with_reducible assumption
    | with_reducible exact k_tb _
    | with_reducible exact k_mbox _ _
    | intro _
    | with_reducible apply ok_kept
    | with_reducible apply ite_kept
    | with_reducible apply ite_keeps
    | with_reducible exact ok_kept (by assumption)
    | with_reducible apply nextFree_keeps
    | with_reducible apply waitClock_keeps
    | with_reducible apply raise_keeps
    | with_reducible apply setMbox_keeps
    | split
    | with_reducible apply Keeps.lit

theorem execOutStuck_kept {d : Nat} {sec : Bool} {n : Nat} (k_tb : ∀ d, pgTb d ≠ q₀) (k_mbox : ∀ d b, pgMbox d b ≠ q₀) (hU : Keeps q₀ s₀ s) : Kept q₀ s₀ (execOutStuck d sec n s) := by
  unfold execOutStuck
  try dsimp only
  repeat' first
    | with_reducible assumption
    | with_reducible exact k_tb _
    | with_reducible exact k_mbox _ _
    | intro _
    | with_reducible apply ok_kept
    | with_reducible apply ite_kept
    | with_reducible apply ite_keeps
    | with_reducible exact ok_kept (by assumption)
    | with_reducible apply waitClock_keeps
    | with_reducible apply raise_keeps
    | with_reducible apply setMbox_keeps
    | split
    | with_reducible apply Keeps.lit

theorem outClear_keeps {d : Nat} {sec : Bool} (k_mbox : ∀ d b, pgMbox d b ≠ q₀) (hU : Keeps q₀ s₀ s) : Keeps q₀ s₀ (outClear s d sec) := by
  unfold outClear
  try dsimp only
  repeat' first
    | with_reducible assumption
    | with_reducible exact k_mbox _ _
    | intro _
    | with_reducible apply ite_keeps
    | with_reducible apply each_keeps
    | with_reducible apply wr_keeps
    | with_reducible apply setMbox_keeps
    | split
    | with_reducible apply Keeps.lit

theorem mbStop_keeps {d : Nat} {sec : Bool} (k_mbox : ∀ d b, pgMbox d b ≠ q₀) (k_hp : ∀ d i, pgHp d i ≠ q₀) (k_echo : ∀ d, pgEcho d ≠ q₀) (hU : Keeps q₀ s₀ s) : Keeps q₀ s₀ (mbStop s d sec) := by
  unfold mbStop
  try dsimp only
  repeat' first
    | with_reducible assumption
    | with_reducible exact k_mbox _ _
    | with_reducible exact k_hp _ _
    | with_reducible exact k_echo _
    | intro _
    | with_reducible apply ite_keeps
    | with_reducible apply longEnd_keeps
    | with_reducible apply each_keeps
    | with_reducible apply inFinish_keeps
    | with_reducible apply outClear_keeps
    | split
    | with_reducible apply Keeps.lit

theorem mbResume_keeps {d : Nat} {sec : Bool} (k_mbox : ∀ d b, pgMbox d b ≠ q₀) (hU : Keeps q₀ s₀ s) : Keeps q₀ s₀ (mbResume s d sec) := by
  unfold mbResume
  try dsimp only
  repeat' first
    | with_reducible assumption
    | with_reducible exact k_mbox _ _
    | intro _
    | with_reducible apply ite_keeps
    | with_reducible apply each_keeps
    | with_reducible apply setMbox_keeps
    | with_reducible apply setInState_keeps
    | with_reducible apply count_keeps
    | with_reducible apply inLoad_keeps
    | split
    | with_reducible apply Keeps.lit

theorem mbReset_keeps {d : Nat} {sec : Bool} (hU : Keeps q₀ s₀ s) : Keeps q₀ s₀ (mbReset s d sec) := by
  unfold mbReset
  try dsimp only
  repeat' first
    | with_reducible assumption
    | intro _
    | with_reducible apply ite_keeps
    | with_reducible apply each_keeps
    | with_reducible apply setMbox_keeps
    | split
    | with_reducible apply Keeps.lit

theorem mbFlr_keeps {d : Nat} (k_mbox : ∀ d b, pgMbox d b ≠ q₀) (hU : Keeps q₀ s₀ s) : Keeps q₀ s₀ (mbFlr s d) := by
  unfold mbFlr
  try dsimp only
  repeat' first
    | with_reducible assumption
    | with_reducible exact k_mbox _ _
    | intro _
    | with_reducible apply ite_keeps
    | with_reducible apply each_keeps
    | with_reducible apply setInState_keeps
    | with_reducible apply setMbox_keeps
    | with_reducible apply wr_keeps
    | with_reducible apply outClear_keeps
    | with_reducible apply raise_keeps
    | with_reducible apply wf_keeps
    | split
    | with_reducible apply Keeps.lit

end Sys2Proof.Laws
end

