-- ==== Sys2Proof/Laws/RouteReg.lean ====
section
/-!
SUPPORT. The register pages that each operation of `Machine/Route.lean` may write: every other page reads as before.
-/

set_option Elab.async false
set_option linter.unusedTactic false
set_option linter.unreachableTactic false
namespace Sys2Proof.Laws

open Sys2Proof.Machine

variable {q₀ : Pg} {s₀ s : State}

theorem routesFollow_keeps (k_burim : ∀ d, pgBurim d ≠ q₀) (hU : Keeps q₀ s₀ s) : Keeps q₀ s₀ (routesFollow s) := by
  unfold routesFollow
  try dsimp only
  repeat' first
    | with_reducible assumption
    | with_reducible exact k_burim _
    | intro _
    | with_reducible apply ite_keeps
    | with_reducible apply each_keeps
    | with_reducible apply raise_keeps
    | with_reducible apply wr_keeps
    | split
    | with_reducible apply Keeps.lit

end Sys2Proof.Laws
end

