-- ==== Sys2Proof/Laws/EncoderReg.lean ====
section
/-!
SUPPORT. The register pages that each operation of `Machine/Encoder.lean` may write: every other page reads as before.
-/

set_option Elab.async false
set_option linter.unusedTactic false
set_option linter.unreachableTactic false
namespace Sys2Proof.Laws

open Sys2Proof.Machine

variable {q₀ : Pg} {s₀ s : State}

theorem fit48_keeps {z : Int} (hU : Keeps q₀ s₀ s) : Keeps q₀ s₀ (fit48 s z).2 := by
  unfold fit48
  try dsimp only
  repeat' first
    | with_reducible assumption
    | intro _
    | with_reducible apply ite_keeps
    | with_reducible apply nextFree_keeps
    | split
    | with_reducible apply Keeps.lit

theorem setSpd_keeps {d : Nat} {c : Nat} {v : Int} (k_enc : ∀ d i, pgEnc d i ≠ q₀) (hU : Keeps q₀ s₀ s) : Keeps q₀ s₀ (setSpd s d c v) := by
  unfold setSpd
  try dsimp only
  repeat' first
    | with_reducible assumption
    | with_reducible exact k_enc _ _
    | intro _
    | with_reducible apply ite_keeps
    | with_reducible apply fit48_keeps
    | with_reducible apply wr48_keeps
    | (with_reducible refine pair_keeps (by assumption) ?_)
    | split
    | with_reducible apply Keeps.lit

theorem setPos_keeps {d : Nat} {c : Nat} {n : Int} (k_enc : ∀ d i, pgEnc d i ≠ q₀) (hU : Keeps q₀ s₀ s) : Keeps q₀ s₀ (setPos s d c n) := by
  unfold setPos
  try dsimp only
  repeat' first
    | with_reducible assumption
    | with_reducible exact k_enc _ _
    | intro _
    | with_reducible apply ite_keeps
    | with_reducible apply wr48_keeps
    | with_reducible apply winSync_keeps
    | with_reducible apply pdMoved_keeps
    | with_reducible apply raise_keeps
    | split
    | with_reducible apply Keeps.lit

theorem virtFollow_keeps {d : Nat} {c : Nat} (k_enc : ∀ d i, pgEnc d i ≠ q₀) (hU : Keeps q₀ s₀ s) : Keeps q₀ s₀ (virtFollow s d c) := by
  unfold virtFollow
  try dsimp only
  repeat' first
    | with_reducible assumption
    | with_reducible exact k_enc _ _
    | intro _
    | with_reducible apply ite_keeps
    | with_reducible apply encSync_keeps
    | with_reducible apply pdMoved_keeps
    | with_reducible apply raise_keeps
    | split
    | with_reducible apply Keeps.lit

theorem posArrange_keeps {d : Nat} (k_enc : ∀ d i, pgEnc d i ≠ q₀) (hU : Keeps q₀ s₀ s) : Keeps q₀ s₀ (posArrange s d) := by
  unfold posArrange
  try dsimp only
  repeat' first
    | with_reducible assumption
    | with_reducible exact k_enc _ _
    | intro _
    | with_reducible apply ite_keeps
    | with_reducible apply setChute_keeps
    | with_reducible apply each_keeps
    | with_reducible apply latch_keeps
    | with_reducible apply wf_keeps
    | split
    | with_reducible apply Keeps.lit

theorem posRecord_keeps {d : Nat} {key : Nat} {type : Nat} {ch : Nat} {pd : Nat} {count : Int} {stamp : Int} {w5 : Int} {write : Bool} {latch : Bool} (k_chuteGlobal : ∀ d, pgChuteGlobal d ≠ q₀) (k_enc : ∀ d i, pgEnc d i ≠ q₀) (k_chute : ∀ d i, pgChute d i ≠ q₀) (hU : Keeps q₀ s₀ s) : Keeps q₀ s₀ (posRecord s d key type ch pd count stamp w5 write latch) := by
  unfold posRecord
  try dsimp only
  repeat' first
    | with_reducible assumption
    | with_reducible exact k_chuteGlobal _
    | with_reducible exact k_enc _ _
    | with_reducible exact k_chute _ _
    | intro _
    | with_reducible apply ite_keeps
    | with_reducible apply count_keeps
    | with_reducible apply latch_keeps
    | with_reducible apply posArrange_keeps
    | with_reducible apply setDie_keeps
    | with_reducible apply chuteRecord_keeps
    | split
    | with_reducible apply Keeps.lit

theorem shiftEst_keeps {d : Nat} {c : Nat} {amount : Int} (k_enc : ∀ d i, pgEnc d i ≠ q₀) (hU : Keeps q₀ s₀ s) : Keeps q₀ s₀ (shiftEst s d c amount) := by
  unfold shiftEst
  try dsimp only
  repeat' first
    | with_reducible assumption
    | with_reducible exact k_enc _ _
    | intro _
    | with_reducible apply ite_keeps
    | with_reducible apply winShift_keeps
    | with_reducible apply setEnc_keeps
    | with_reducible apply wr48_keeps
    | split
    | with_reducible apply Keeps.lit

theorem sendStep_keeps {d : Nat} {c : Nat} {amount : Int} {stamp : Int} (k_chuteGlobal : ∀ d, pgChuteGlobal d ≠ q₀) (k_enc : ∀ d i, pgEnc d i ≠ q₀) (k_chute : ∀ d i, pgChute d i ≠ q₀) (hU : Keeps q₀ s₀ s) : Keeps q₀ s₀ (sendStep s d c amount stamp) := by
  unfold sendStep
  try dsimp only
  repeat' first
    | with_reducible assumption
    | with_reducible exact k_chuteGlobal _
    | with_reducible exact k_enc _ _
    | with_reducible exact k_chute _ _
    | intro _
    | with_reducible apply ite_keeps
    | with_reducible apply encSend_keeps
    | with_reducible apply posRecord_keeps
    | with_reducible apply raise_keeps
    | split
    | with_reducible apply Keeps.lit

theorem latchSet_keeps {d : Nat} {c : Nat} {src : Nat} {pd : Nat} {stamp : Int} (k_chuteGlobal : ∀ d, pgChuteGlobal d ≠ q₀) (k_enc : ∀ d i, pgEnc d i ≠ q₀) (k_chute : ∀ d i, pgChute d i ≠ q₀) (hU : Keeps q₀ s₀ s) : Keeps q₀ s₀ (latchSet s d c src pd stamp) := by
  unfold latchSet
  try dsimp only
  repeat' first
    | with_reducible assumption
    | with_reducible exact k_chuteGlobal _
    | with_reducible exact k_enc _ _
    | with_reducible exact k_chute _ _
    | intro _
    | with_reducible apply ite_keeps
    | with_reducible apply nextFree_keeps
    | with_reducible apply setEnc_keeps
    | with_reducible apply wr_keeps
    | with_reducible apply wr48_keeps
    | with_reducible apply posRecord_keeps
    | split
    | with_reducible apply Keeps.lit

theorem takeLatch_keeps {d : Nat} {c : Nat} {src : Nat} {pd : Nat} {stamp : Int} (k_chuteGlobal : ∀ d, pgChuteGlobal d ≠ q₀) (k_enc : ∀ d i, pgEnc d i ≠ q₀) (k_chute : ∀ d i, pgChute d i ≠ q₀) (hU : Keeps q₀ s₀ s) : Keeps q₀ s₀ (takeLatch s d c src pd stamp) := by
  unfold takeLatch
  try dsimp only
  repeat' first
    | with_reducible assumption
    | with_reducible exact k_chuteGlobal _
    | with_reducible exact k_enc _ _
    | with_reducible exact k_chute _ _
    | intro _
    | with_reducible apply ite_keeps
    | with_reducible apply latchSet_keeps
    | with_reducible apply raise_keeps
    | split
    | with_reducible apply Keeps.lit

theorem latchAgain_keeps {d : Nat} {c : Nat} (k_chuteGlobal : ∀ d, pgChuteGlobal d ≠ q₀) (k_enc : ∀ d i, pgEnc d i ≠ q₀) (k_chute : ∀ d i, pgChute d i ≠ q₀) (hU : Keeps q₀ s₀ s) : Keeps q₀ s₀ (latchAgain s d c) := by
  unfold latchAgain
  try dsimp only
  repeat' first
    | with_reducible assumption
    | with_reducible exact k_chuteGlobal _
    | with_reducible exact k_enc _ _
    | with_reducible exact k_chute _ _
    | intro _
    | with_reducible apply ite_keeps
    | with_reducible apply latchSet_keeps
    | split
    | with_reducible apply Keeps.lit

theorem correctPos_keeps {d : Nat} {c : Nat} {amount : Int} (k_chuteGlobal : ∀ d, pgChuteGlobal d ≠ q₀) (k_enc : ∀ d i, pgEnc d i ≠ q₀) (k_chute : ∀ d i, pgChute d i ≠ q₀) (hU : Keeps q₀ s₀ s) : Keeps q₀ s₀ (correctPos s d c amount) := by
  unfold correctPos
  try dsimp only
  repeat' first
    | with_reducible assumption
    | with_reducible exact k_chuteGlobal _
    | with_reducible exact k_enc _ _
    | with_reducible exact k_chute _ _
    | intro _
    | with_reducible apply ite_keeps
    | with_reducible apply latchAgain_keeps
    | with_reducible apply shiftEst_keeps
    | with_reducible apply setPos_keeps
    | split
    | with_reducible apply Keeps.lit

theorem encLoad_keeps {d : Nat} {c : Nat} (k_chuteGlobal : ∀ d, pgChuteGlobal d ≠ q₀) (k_enc : ∀ d i, pgEnc d i ≠ q₀) (k_chute : ∀ d i, pgChute d i ≠ q₀) (hU : Keeps q₀ s₀ s) : Keeps q₀ s₀ (encLoad s d c) := by
  unfold encLoad
  try dsimp only
  repeat' first
    | with_reducible assumption
    | with_reducible exact k_chuteGlobal _
    | with_reducible exact k_enc _ _
    | with_reducible exact k_chute _ _
    | intro _
    | with_reducible apply ite_keeps
    | with_reducible apply wrShadow_keeps
    | with_reducible apply wr_keeps
    | with_reducible apply setEnc_keeps
    | with_reducible apply latchAgain_keeps
    | with_reducible apply sendStep_keeps
    | with_reducible apply shiftEst_keeps
    | with_reducible apply setPos_keeps
    | split
    | with_reducible apply Keeps.lit

theorem latTrigWrite_keeps {d : Nat} {c : Nat} {v : Word} (k_chuteGlobal : ∀ d, pgChuteGlobal d ≠ q₀) (k_enc : ∀ d i, pgEnc d i ≠ q₀) (k_chute : ∀ d i, pgChute d i ≠ q₀) (hU : Keeps q₀ s₀ s) : Keeps q₀ s₀ (latTrigWrite d c v s) := by
  unfold latTrigWrite
  try dsimp only
  repeat' first
    | with_reducible assumption
    | with_reducible exact k_chuteGlobal _
    | with_reducible exact k_enc _ _
    | with_reducible exact k_chute _ _
    | intro _
    | with_reducible apply ite_keeps
    | with_reducible apply takeLatch_keeps
    | split
    | with_reducible apply Keeps.lit

theorem execLatchSw_kept {r : Req} {d : Nat} {c : Nat} {v : Word} (k_chuteGlobal : ∀ d, pgChuteGlobal d ≠ q₀) (k_enc : ∀ d i, pgEnc d i ≠ q₀) (k_pcie : pgPcie ≠ q₀) (k_chute : ∀ d i, pgChute d i ≠ q₀) (k_guard : ∀ d, pgGuard d ≠ q₀) (hU : Keeps q₀ s₀ s) : Kept q₀ s₀ (execLatchSw r d c v s) := by
  unfold execLatchSw
  try dsimp only
  repeat' first
    | with_reducible assumption
    | with_reducible exact k_chuteGlobal _
    | with_reducible exact k_enc _ _
    | with_reducible exact k_pcie
    | with_reducible exact k_chute _ _
    | with_reducible exact k_guard _
    | intro _
    | with_reducible apply ok_kept
    | with_reducible apply ite_kept
    | with_reducible apply ite_keeps
    | with_reducible exact ok_kept (by assumption)
    | with_reducible apply guardedWrite_keeps
    | with_reducible apply latTrigWrite_keeps
    | split
    | with_reducible apply Keeps.lit

theorem execLatchPeriodic_kept {d : Nat} {c : Nat} (k_tb : ∀ d, pgTb d ≠ q₀) (k_chuteGlobal : ∀ d, pgChuteGlobal d ≠ q₀) (k_enc : ∀ d i, pgEnc d i ≠ q₀) (k_chute : ∀ d i, pgChute d i ≠ q₀) (hU : Keeps q₀ s₀ s) : Kept q₀ s₀ (execLatchPeriodic d c s) := by
  unfold execLatchPeriodic
  try dsimp only
  repeat' first
    | with_reducible assumption
    | with_reducible exact k_tb _
    | with_reducible exact k_chuteGlobal _
    | with_reducible exact k_enc _ _
    | with_reducible exact k_chute _ _
    | intro _
    | with_reducible apply ok_kept
    | with_reducible apply ite_kept
    | with_reducible apply ite_keeps
    | with_reducible apply waitClock_keeps
    | with_reducible apply setEnc_keeps
    | with_reducible exact ok_kept (by assumption)
    | with_reducible apply takeLatch_keeps
    | split
    | with_reducible apply Keeps.lit

theorem illegalSample_keeps {d : Nat} {c : Nat} (k_die : ∀ d, pgDie d ≠ q₀) (k_mode : ∀ d, pgMode d ≠ q₀) (k_tsync : pgTsync ≠ q₀) (k_fence : ∀ d, pgFence d ≠ q₀) (k_assay : ∀ d, pgAssay d ≠ q₀) (k_hoistGlobal : ∀ d, pgHoistGlobal d ≠ q₀) (k_chuteGlobal : ∀ d, pgChuteGlobal d ≠ q₀) (k_hp : ∀ d i, pgHp d i ≠ q₀) (k_enc : ∀ d i, pgEnc d i ≠ q₀) (k_ax : ∀ d i, pgAx d i ≠ q₀) (k_seam : ∀ d, pgSeam d ≠ q₀) (k_echo : ∀ d, pgEcho d ≠ q₀) (k_ctx : ∀ d, pgCtx d ≠ q₀) (k_chute : ∀ d i, pgChute d i ≠ q₀) (k_debug : ∀ d, pgDebug d ≠ q₀) (hU : Keeps q₀ s₀ s) : Keeps q₀ s₀ (illegalSample s d c).2 := by
  unfold illegalSample
  try dsimp only
  repeat' first
    | with_reducible assumption
    | with_reducible exact k_die _
    | with_reducible exact k_mode _
    | with_reducible exact k_tsync
    | with_reducible exact k_fence _
    | with_reducible exact k_assay _
    | with_reducible exact k_hoistGlobal _
    | with_reducible exact k_chuteGlobal _
    | with_reducible exact k_hp _ _
    | with_reducible exact k_enc _ _
    | with_reducible exact k_ax _ _
    | with_reducible exact k_seam _
    | with_reducible exact k_echo _
    | with_reducible exact k_ctx _
    | with_reducible exact k_chute _ _
    | with_reducible exact k_debug _
    | intro _
    | with_reducible apply ite_keeps
    | with_reducible apply raise_keeps
    | with_reducible apply count_keeps
    | with_reducible apply fencePage_keeps
    | split
    | with_reducible apply Keeps.lit

theorem periodResult_k {d c : Nat} (hU : Keeps q₀ s₀ s) {v : Int} {tU : State}
    (e : periodResult s d c = some (v, tU)) : Keeps q₀ s₀ tU := by
  unfold periodResult at e
  dsimp only at e
  repeat' split at e
  all_goals first
    | (cases e; done)
    | (cases e; first
        | exact hU
        | exact nextFree_keeps hU)

theorem setMethod_keeps {d : Nat} {c : Nat} {period : Bool} (k_enc : ∀ d i, pgEnc d i ≠ q₀) (hU : Keeps q₀ s₀ s) : Keeps q₀ s₀ (setMethod s d c period) := by
  unfold setMethod
  try dsimp only
  repeat' first
    | with_reducible assumption
    | with_reducible exact k_enc _ _
    | intro _
    | with_reducible apply ite_keeps
    | with_reducible apply raise_keeps
    | with_reducible apply wb_keeps
    | split
    | with_reducible apply Keeps.lit

theorem periodEdge_keeps {d : Nat} {c : Nat} (k_enc : ∀ d i, pgEnc d i ≠ q₀) (hU : Keeps q₀ s₀ s) : Keeps q₀ s₀ (periodEdge s d c) := by
  unfold periodEdge
  try dsimp only
  repeat' first
    | with_reducible assumption
    | with_reducible exact k_enc _ _
    | intro _
    | with_reducible apply ite_keeps
    | (with_reducible refine periodResult_k ?_ (by assumption))
    | with_reducible apply setSpd_keeps
    | with_reducible apply setMethod_keeps
    | split
    | with_reducible apply Keeps.lit

theorem pushEdges_keeps {d : Nat} {c : Nat} {n : Nat} {stamp : Int} {back : Bool} (k_enc : ∀ d i, pgEnc d i ≠ q₀) (hU : Keeps q₀ s₀ s) : Keeps q₀ s₀ (pushEdges s d c n stamp back) := by
  unfold pushEdges
  try dsimp only
  repeat' first
    | with_reducible assumption
    | with_reducible exact k_enc _ _
    | intro _
    | with_reducible apply ite_keeps
    | with_reducible apply wb_keeps
    | with_reducible apply setEnc_keeps
    | split
    | with_reducible apply Keeps.lit

theorem countBySample_keeps {d : Nat} {c : Nat} {delta : Int} {stamp : Int} (k_chuteGlobal : ∀ d, pgChuteGlobal d ≠ q₀) (k_enc : ∀ d i, pgEnc d i ≠ q₀) (k_chute : ∀ d i, pgChute d i ≠ q₀) (hU : Keeps q₀ s₀ s) : Keeps q₀ s₀ (countBySample s d c delta stamp) := by
  unfold countBySample
  try dsimp only
  repeat' first
    | with_reducible assumption
    | with_reducible exact k_chuteGlobal _
    | with_reducible exact k_enc _ _
    | with_reducible exact k_chute _ _
    | intro _
    | with_reducible apply ite_keeps
    | with_reducible apply setPos_keeps
    | with_reducible apply pushEdges_keeps
    | with_reducible apply setDyn_keeps
    | with_reducible apply wb_keeps
    | with_reducible apply latchAgain_keeps
    | with_reducible apply periodEdge_keeps
    | with_reducible apply setEnc_keeps
    | split
    | with_reducible apply Keeps.lit

theorem abSample_keeps {d : Nat} {c : Nat} {ab : Nat} (k_die : ∀ d, pgDie d ≠ q₀) (k_mode : ∀ d, pgMode d ≠ q₀) (k_tsync : pgTsync ≠ q₀) (k_fence : ∀ d, pgFence d ≠ q₀) (k_assay : ∀ d, pgAssay d ≠ q₀) (k_hoistGlobal : ∀ d, pgHoistGlobal d ≠ q₀) (k_chuteGlobal : ∀ d, pgChuteGlobal d ≠ q₀) (k_hp : ∀ d i, pgHp d i ≠ q₀) (k_enc : ∀ d i, pgEnc d i ≠ q₀) (k_ax : ∀ d i, pgAx d i ≠ q₀) (k_seam : ∀ d, pgSeam d ≠ q₀) (k_echo : ∀ d, pgEcho d ≠ q₀) (k_ctx : ∀ d, pgCtx d ≠ q₀) (k_chute : ∀ d i, pgChute d i ≠ q₀) (k_debug : ∀ d, pgDebug d ≠ q₀) (hU : Keeps q₀ s₀ s) : Keeps q₀ s₀ (abSample s d c ab) := by
  unfold abSample
  try dsimp only
  repeat' first
    | with_reducible assumption
    | with_reducible exact k_die _
    | with_reducible exact k_mode _
    | with_reducible exact k_tsync
    | with_reducible exact k_fence _
    | with_reducible exact k_assay _
    | with_reducible exact k_hoistGlobal _
    | with_reducible exact k_chuteGlobal _
    | with_reducible exact k_hp _ _
    | with_reducible exact k_enc _ _
    | with_reducible exact k_ax _ _
    | with_reducible exact k_seam _
    | with_reducible exact k_echo _
    | with_reducible exact k_ctx _
    | with_reducible exact k_chute _ _
    | with_reducible exact k_debug _
    | intro _
    | with_reducible apply ite_keeps
    | with_reducible apply setEnc_keeps
    | with_reducible apply countBySample_keeps
    | with_reducible apply illegalSample_keeps
    | (with_reducible refine pair_keeps (by assumption) ?_)
    | split
    | with_reducible apply Keeps.lit

theorem execEncCount_kept {d : Nat} {c : Nat} {la : List Bool} {lb : List Bool} (k_die : ∀ d, pgDie d ≠ q₀) (k_mode : ∀ d, pgMode d ≠ q₀) (k_tb : ∀ d, pgTb d ≠ q₀) (k_tsync : pgTsync ≠ q₀) (k_fence : ∀ d, pgFence d ≠ q₀) (k_assay : ∀ d, pgAssay d ≠ q₀) (k_hoistGlobal : ∀ d, pgHoistGlobal d ≠ q₀) (k_chuteGlobal : ∀ d, pgChuteGlobal d ≠ q₀) (k_hp : ∀ d i, pgHp d i ≠ q₀) (k_enc : ∀ d i, pgEnc d i ≠ q₀) (k_ax : ∀ d i, pgAx d i ≠ q₀) (k_seam : ∀ d, pgSeam d ≠ q₀) (k_echo : ∀ d, pgEcho d ≠ q₀) (k_ctx : ∀ d, pgCtx d ≠ q₀) (k_chute : ∀ d i, pgChute d i ≠ q₀) (k_debug : ∀ d, pgDebug d ≠ q₀) (hU : Keeps q₀ s₀ s) : Kept q₀ s₀ (execEncCount d c la lb s) := by
  unfold execEncCount
  try dsimp only
  repeat' first
    | with_reducible assumption
    | with_reducible exact k_die _
    | with_reducible exact k_mode _
    | with_reducible exact k_tb _
    | with_reducible exact k_tsync
    | with_reducible exact k_fence _
    | with_reducible exact k_assay _
    | with_reducible exact k_hoistGlobal _
    | with_reducible exact k_chuteGlobal _
    | with_reducible exact k_hp _ _
    | with_reducible exact k_enc _ _
    | with_reducible exact k_ax _ _
    | with_reducible exact k_seam _
    | with_reducible exact k_echo _
    | with_reducible exact k_ctx _
    | with_reducible exact k_chute _ _
    | with_reducible exact k_debug _
    | intro _
    | with_reducible apply ok_kept
    | with_reducible apply ite_kept
    | with_reducible apply ite_keeps
    | with_reducible exact ok_kept (by assumption)
    | with_reducible apply abSample_keeps
    | with_reducible apply waitClock_keeps
    | split
    | with_reducible apply Keeps.lit

theorem correctStep_keeps {d : Nat} {c : Nat} {amount : Int} {stamp : Int} (k_chuteGlobal : ∀ d, pgChuteGlobal d ≠ q₀) (k_enc : ∀ d i, pgEnc d i ≠ q₀) (k_chute : ∀ d i, pgChute d i ≠ q₀) (hU : Keeps q₀ s₀ s) : Keeps q₀ s₀ (correctStep s d c amount stamp) := by
  unfold correctStep
  try dsimp only
  repeat' first
    | with_reducible assumption
    | with_reducible exact k_chuteGlobal _
    | with_reducible exact k_enc _ _
    | with_reducible exact k_chute _ _
    | intro _
    | with_reducible apply ite_keeps
    | with_reducible apply sendStep_keeps
    | with_reducible apply correctPos_keeps
    | split
    | with_reducible apply Keeps.lit

theorem idxMismatch_keeps {d : Nat} {c : Nat} {cnt : Int} {dist : Int} {stamp : Int} (k_chuteGlobal : ∀ d, pgChuteGlobal d ≠ q₀) (k_enc : ∀ d i, pgEnc d i ≠ q₀) (k_chute : ∀ d i, pgChute d i ≠ q₀) (hU : Keeps q₀ s₀ s) : Keeps q₀ s₀ (idxMismatch s d c cnt dist stamp) := by
  unfold idxMismatch
  try dsimp only
  repeat' first
    | with_reducible assumption
    | with_reducible exact k_chuteGlobal _
    | with_reducible exact k_enc _ _
    | with_reducible exact k_chute _ _
    | intro _
    | with_reducible apply ite_keeps
    | with_reducible apply wr48_keeps
    | with_reducible apply posRecord_keeps
    | with_reducible apply raise_keeps
    | with_reducible apply count_keeps
    | split
    | with_reducible apply Keeps.lit

theorem idxCheck_keeps {d : Nat} {c : Nat} {stamp : Int} (k_die : ∀ d, pgDie d ≠ q₀) (k_mode : ∀ d, pgMode d ≠ q₀) (k_tsync : pgTsync ≠ q₀) (k_fence : ∀ d, pgFence d ≠ q₀) (k_assay : ∀ d, pgAssay d ≠ q₀) (k_hoistGlobal : ∀ d, pgHoistGlobal d ≠ q₀) (k_chuteGlobal : ∀ d, pgChuteGlobal d ≠ q₀) (k_hp : ∀ d i, pgHp d i ≠ q₀) (k_enc : ∀ d i, pgEnc d i ≠ q₀) (k_ax : ∀ d i, pgAx d i ≠ q₀) (k_seam : ∀ d, pgSeam d ≠ q₀) (k_echo : ∀ d, pgEcho d ≠ q₀) (k_ctx : ∀ d, pgCtx d ≠ q₀) (k_chute : ∀ d i, pgChute d i ≠ q₀) (k_debug : ∀ d, pgDebug d ≠ q₀) (hU : Keeps q₀ s₀ s) : Keeps q₀ s₀ (idxCheck s d c stamp) := by
  unfold idxCheck
  try dsimp only
  repeat' first
    | with_reducible assumption
    | with_reducible exact k_die _
    | with_reducible exact k_mode _
    | with_reducible exact k_tsync
    | with_reducible exact k_fence _
    | with_reducible exact k_assay _
    | with_reducible exact k_hoistGlobal _
    | with_reducible exact k_chuteGlobal _
    | with_reducible exact k_hp _ _
    | with_reducible exact k_enc _ _
    | with_reducible exact k_ax _ _
    | with_reducible exact k_seam _
    | with_reducible exact k_echo _
    | with_reducible exact k_ctx _
    | with_reducible exact k_chute _ _
    | with_reducible exact k_debug _
    | intro _
    | with_reducible apply ite_keeps
    | with_reducible apply count_keeps
    | with_reducible apply wrShadow_keeps
    | with_reducible apply wb_keeps
    | with_reducible apply correctStep_keeps
    | with_reducible apply correctPos_keeps
    | with_reducible apply idxMismatch_keeps
    | with_reducible apply fencePage_keeps
    | split
    | with_reducible apply Keeps.lit

theorem zSample_keeps {d : Nat} {c : Nat} {z : Bool} (k_die : ∀ d, pgDie d ≠ q₀) (k_mode : ∀ d, pgMode d ≠ q₀) (k_tsync : pgTsync ≠ q₀) (k_fence : ∀ d, pgFence d ≠ q₀) (k_assay : ∀ d, pgAssay d ≠ q₀) (k_hoistGlobal : ∀ d, pgHoistGlobal d ≠ q₀) (k_chuteGlobal : ∀ d, pgChuteGlobal d ≠ q₀) (k_hp : ∀ d i, pgHp d i ≠ q₀) (k_enc : ∀ d i, pgEnc d i ≠ q₀) (k_ax : ∀ d i, pgAx d i ≠ q₀) (k_seam : ∀ d, pgSeam d ≠ q₀) (k_echo : ∀ d, pgEcho d ≠ q₀) (k_ctx : ∀ d, pgCtx d ≠ q₀) (k_chute : ∀ d i, pgChute d i ≠ q₀) (k_debug : ∀ d, pgDebug d ≠ q₀) (hU : Keeps q₀ s₀ s) : Keeps q₀ s₀ (zSample s d c z) := by
  unfold zSample
  try dsimp only
  repeat' first
    | with_reducible assumption
    | with_reducible exact k_die _
    | with_reducible exact k_mode _
    | with_reducible exact k_tsync
    | with_reducible exact k_fence _
    | with_reducible exact k_assay _
    | with_reducible exact k_hoistGlobal _
    | with_reducible exact k_chuteGlobal _
    | with_reducible exact k_hp _ _
    | with_reducible exact k_enc _ _
    | with_reducible exact k_ax _ _
    | with_reducible exact k_seam _
    | with_reducible exact k_echo _
    | with_reducible exact k_ctx _
    | with_reducible exact k_chute _ _
    | with_reducible exact k_debug _
    | intro _
    | with_reducible apply ite_keeps
    | with_reducible apply setEnc_keeps
    | with_reducible apply raise_keeps
    | with_reducible apply count_keeps
    | with_reducible apply idxCheck_keeps
    | with_reducible apply takeLatch_keeps
    | split
    | with_reducible apply Keeps.lit

theorem execIndex_kept {d : Nat} {c : Nat} {raw : List Bool} (k_die : ∀ d, pgDie d ≠ q₀) (k_mode : ∀ d, pgMode d ≠ q₀) (k_tb : ∀ d, pgTb d ≠ q₀) (k_tsync : pgTsync ≠ q₀) (k_fence : ∀ d, pgFence d ≠ q₀) (k_assay : ∀ d, pgAssay d ≠ q₀) (k_hoistGlobal : ∀ d, pgHoistGlobal d ≠ q₀) (k_chuteGlobal : ∀ d, pgChuteGlobal d ≠ q₀) (k_hp : ∀ d i, pgHp d i ≠ q₀) (k_enc : ∀ d i, pgEnc d i ≠ q₀) (k_ax : ∀ d i, pgAx d i ≠ q₀) (k_seam : ∀ d, pgSeam d ≠ q₀) (k_echo : ∀ d, pgEcho d ≠ q₀) (k_ctx : ∀ d, pgCtx d ≠ q₀) (k_chute : ∀ d i, pgChute d i ≠ q₀) (k_debug : ∀ d, pgDebug d ≠ q₀) (hU : Keeps q₀ s₀ s) : Kept q₀ s₀ (execIndex d c raw s) := by
  unfold execIndex
  try dsimp only
  repeat' first
    | with_reducible assumption
    | with_reducible exact k_die _
    | with_reducible exact k_mode _
    | with_reducible exact k_tb _
    | with_reducible exact k_tsync
    | with_reducible exact k_fence _
    | with_reducible exact k_assay _
    | with_reducible exact k_hoistGlobal _
    | with_reducible exact k_chuteGlobal _
    | with_reducible exact k_hp _ _
    | with_reducible exact k_enc _ _
    | with_reducible exact k_ax _ _
    | with_reducible exact k_seam _
    | with_reducible exact k_echo _
    | with_reducible exact k_ctx _
    | with_reducible exact k_chute _ _
    | with_reducible exact k_debug _
    | intro _
    | with_reducible apply ok_kept
    | with_reducible apply ite_kept
    | with_reducible apply ite_keeps
    | with_reducible exact ok_kept (by assumption)
    | with_reducible apply zSample_keeps
    | with_reducible apply waitClock_keeps
    | split
    | with_reducible apply Keeps.lit

theorem windowEnd_keeps {d : Nat} {c : Nat} (k_enc : ∀ d i, pgEnc d i ≠ q₀) (hU : Keeps q₀ s₀ s) : Keeps q₀ s₀ (windowEnd s d c) := by
  unfold windowEnd
  try dsimp only
  repeat' first
    | with_reducible assumption
    | with_reducible exact k_enc _ _
    | intro _
    | with_reducible apply ite_keeps
    | with_reducible apply winSync_keeps
    | with_reducible apply setEnc_keeps
    | with_reducible apply setSpd_keeps
    | with_reducible apply setMethod_keeps
    | split
    | with_reducible apply Keeps.lit

theorem execSpeedWindow_kept {d : Nat} {c : Nat} (k_tb : ∀ d, pgTb d ≠ q₀) (k_enc : ∀ d i, pgEnc d i ≠ q₀) (hU : Keeps q₀ s₀ s) : Kept q₀ s₀ (execSpeedWindow d c s) := by
  unfold execSpeedWindow
  try dsimp only
  repeat' first
    | with_reducible assumption
    | with_reducible exact k_tb _
    | with_reducible exact k_enc _ _
    | intro _
    | with_reducible apply ok_kept
    | with_reducible apply ite_kept
    | with_reducible apply ite_keeps
    | with_reducible exact ok_kept (by assumption)
    | with_reducible apply windowEnd_keeps
    | with_reducible apply waitClock_keeps
    | split
    | with_reducible apply Keeps.lit

theorem execPeriodSpeedLimit_kept {d : Nat} {c : Nat} (k_tb : ∀ d, pgTb d ≠ q₀) (k_enc : ∀ d i, pgEnc d i ≠ q₀) (hU : Keeps q₀ s₀ s) : Kept q₀ s₀ (execPeriodSpeedLimit d c s) := by
  unfold execPeriodSpeedLimit
  try dsimp only
  repeat' first
    | with_reducible assumption
    | with_reducible exact k_tb _
    | with_reducible exact k_enc _ _
    | intro _
    | with_reducible apply ok_kept
    | with_reducible apply ite_kept
    | with_reducible apply ite_keeps
    | with_reducible apply waitClock_keeps
    | with_reducible apply setEnc_keeps
    | with_reducible exact ok_kept (by assumption)
    | with_reducible apply setSpd_keeps
    | split
    | with_reducible apply Keeps.lit

theorem execSpeedStopped_kept {d : Nat} {c : Nat} (k_tb : ∀ d, pgTb d ≠ q₀) (k_enc : ∀ d i, pgEnc d i ≠ q₀) (hU : Keeps q₀ s₀ s) : Kept q₀ s₀ (execSpeedStopped d c s) := by
  unfold execSpeedStopped
  try dsimp only
  repeat' first
    | with_reducible assumption
    | with_reducible exact k_tb _
    | with_reducible exact k_enc _ _
    | intro _
    | with_reducible apply ok_kept
    | with_reducible apply ite_kept
    | with_reducible apply ite_keeps
    | with_reducible apply waitClock_keeps
    | with_reducible exact ok_kept (by assumption)
    | with_reducible apply wb_keeps
    | with_reducible apply setSpd_keeps
    | split
    | with_reducible apply Keeps.lit

theorem serFail_keeps {d : Nat} {c : Nat} {code : Nat} (k_die : ∀ d, pgDie d ≠ q₀) (k_mode : ∀ d, pgMode d ≠ q₀) (k_tsync : pgTsync ≠ q₀) (k_fence : ∀ d, pgFence d ≠ q₀) (k_assay : ∀ d, pgAssay d ≠ q₀) (k_hoistGlobal : ∀ d, pgHoistGlobal d ≠ q₀) (k_chuteGlobal : ∀ d, pgChuteGlobal d ≠ q₀) (k_hp : ∀ d i, pgHp d i ≠ q₀) (k_enc : ∀ d i, pgEnc d i ≠ q₀) (k_ax : ∀ d i, pgAx d i ≠ q₀) (k_seam : ∀ d, pgSeam d ≠ q₀) (k_echo : ∀ d, pgEcho d ≠ q₀) (k_ctx : ∀ d, pgCtx d ≠ q₀) (k_chute : ∀ d i, pgChute d i ≠ q₀) (k_debug : ∀ d, pgDebug d ≠ q₀) (hU : Keeps q₀ s₀ s) : Keeps q₀ s₀ (serFail s d c code) := by
  unfold serFail
  try dsimp only
  repeat' first
    | with_reducible assumption
    | with_reducible exact k_die _
    | with_reducible exact k_mode _
    | with_reducible exact k_tsync
    | with_reducible exact k_fence _
    | with_reducible exact k_assay _
    | with_reducible exact k_hoistGlobal _
    | with_reducible exact k_chuteGlobal _
    | with_reducible exact k_hp _ _
    | with_reducible exact k_enc _ _
    | with_reducible exact k_ax _ _
    | with_reducible exact k_seam _
    | with_reducible exact k_echo _
    | with_reducible exact k_ctx _
    | with_reducible exact k_chute _ _
    | with_reducible exact k_debug _
    | intro _
    | with_reducible apply ite_keeps
    | with_reducible apply wf_keeps
    | with_reducible apply count_keeps
    | with_reducible apply raise_keeps
    | with_reducible apply setEnc_keeps
    | with_reducible apply fencePage_keeps
    | split
    | with_reducible apply Keeps.lit

theorem execSerialFrameStart_kept {d : Nat} {c : Nat} {slo : Bool} (k_die : ∀ d, pgDie d ≠ q₀) (k_mode : ∀ d, pgMode d ≠ q₀) (k_tb : ∀ d, pgTb d ≠ q₀) (k_tsync : pgTsync ≠ q₀) (k_fence : ∀ d, pgFence d ≠ q₀) (k_assay : ∀ d, pgAssay d ≠ q₀) (k_hoistGlobal : ∀ d, pgHoistGlobal d ≠ q₀) (k_chuteGlobal : ∀ d, pgChuteGlobal d ≠ q₀) (k_hp : ∀ d i, pgHp d i ≠ q₀) (k_enc : ∀ d i, pgEnc d i ≠ q₀) (k_ax : ∀ d i, pgAx d i ≠ q₀) (k_seam : ∀ d, pgSeam d ≠ q₀) (k_echo : ∀ d, pgEcho d ≠ q₀) (k_ctx : ∀ d, pgCtx d ≠ q₀) (k_chute : ∀ d i, pgChute d i ≠ q₀) (k_debug : ∀ d, pgDebug d ≠ q₀) (hU : Keeps q₀ s₀ s) : Kept q₀ s₀ (execSerialFrameStart d c slo s) := by
  unfold execSerialFrameStart
  try dsimp only
  repeat' first
    | with_reducible assumption
    | with_reducible exact k_die _
    | with_reducible exact k_mode _
    | with_reducible exact k_tb _
    | with_reducible exact k_tsync
    | with_reducible exact k_fence _
    | with_reducible exact k_assay _
    | with_reducible exact k_hoistGlobal _
    | with_reducible exact k_chuteGlobal _
    | with_reducible exact k_hp _ _
    | with_reducible exact k_enc _ _
    | with_reducible exact k_ax _ _
    | with_reducible exact k_seam _
    | with_reducible exact k_echo _
    | with_reducible exact k_ctx _
    | with_reducible exact k_chute _ _
    | with_reducible exact k_debug _
    | intro _
    | with_reducible apply ok_kept
    | with_reducible apply ite_kept
    | with_reducible apply ite_keeps
    | with_reducible apply waitClock_keeps
    | with_reducible exact ok_kept (by assumption)
    | with_reducible apply setEnc_keeps
    | with_reducible apply serFail_keeps
    | with_reducible apply padB_keeps
    | split
    | with_reducible apply Keeps.lit

theorem serUse_keeps {d : Nat} {c : Nat} {value : Nat} {delta : Option Int} {warn : Bool} (k_chuteGlobal : ∀ d, pgChuteGlobal d ≠ q₀) (k_enc : ∀ d i, pgEnc d i ≠ q₀) (k_chute : ∀ d i, pgChute d i ≠ q₀) (hU : Keeps q₀ s₀ s) : Keeps q₀ s₀ (serUse s d c value delta warn) := by
  unfold serUse
  try dsimp only
  repeat' first
    | with_reducible assumption
    | with_reducible exact k_chuteGlobal _
    | with_reducible exact k_enc _ _
    | with_reducible exact k_chute _ _
    | intro _
    | with_reducible apply ite_keeps
    | with_reducible apply setEnc_keeps
    | with_reducible apply wb_keeps
    | with_reducible apply wf_keeps
    | with_reducible apply warn_keeps
    | with_reducible apply setPos_keeps
    | with_reducible apply raise_keeps
    | with_reducible apply latchAgain_keeps
    | split
    | with_reducible apply Keeps.lit

theorem serPassed_keeps {d : Nat} {c : Nat} {value : Nat} {warn : Bool} (k_die : ∀ d, pgDie d ≠ q₀) (k_mode : ∀ d, pgMode d ≠ q₀) (k_tsync : pgTsync ≠ q₀) (k_fence : ∀ d, pgFence d ≠ q₀) (k_assay : ∀ d, pgAssay d ≠ q₀) (k_hoistGlobal : ∀ d, pgHoistGlobal d ≠ q₀) (k_chuteGlobal : ∀ d, pgChuteGlobal d ≠ q₀) (k_hp : ∀ d i, pgHp d i ≠ q₀) (k_enc : ∀ d i, pgEnc d i ≠ q₀) (k_ax : ∀ d i, pgAx d i ≠ q₀) (k_seam : ∀ d, pgSeam d ≠ q₀) (k_echo : ∀ d, pgEcho d ≠ q₀) (k_ctx : ∀ d, pgCtx d ≠ q₀) (k_chute : ∀ d i, pgChute d i ≠ q₀) (k_debug : ∀ d, pgDebug d ≠ q₀) (hU : Keeps q₀ s₀ s) : Keeps q₀ s₀ (serPassed s d c value warn) := by
  unfold serPassed
  try dsimp only
  repeat' first
    | with_reducible assumption
    | with_reducible exact k_die _
    | with_reducible exact k_mode _
    | with_reducible exact k_tsync
    | with_reducible exact k_fence _
    | with_reducible exact k_assay _
    | with_reducible exact k_hoistGlobal _
    | with_reducible exact k_chuteGlobal _
    | with_reducible exact k_hp _ _
    | with_reducible exact k_enc _ _
    | with_reducible exact k_ax _ _
    | with_reducible exact k_seam _
    | with_reducible exact k_echo _
    | with_reducible exact k_ctx _
    | with_reducible exact k_chute _ _
    | with_reducible exact k_debug _
    | intro _
    | with_reducible apply ite_keeps
    | with_reducible apply serUse_keeps
    | with_reducible apply warn_keeps
    | with_reducible apply serFail_keeps
    | split
    | with_reducible apply Keeps.lit

theorem serStale_keeps {d : Nat} {c : Nat} (k_enc : ∀ d i, pgEnc d i ≠ q₀) (hU : Keeps q₀ s₀ s) : Keeps q₀ s₀ (serStale s d c) := by
  unfold serStale
  try dsimp only
  repeat' first
    | with_reducible assumption
    | with_reducible exact k_enc _ _
    | intro _
    | with_reducible apply ite_keeps
    | with_reducible apply wf_keeps
    | with_reducible apply count_keeps
    | with_reducible apply setEnc_keeps
    | split
    | with_reducible apply Keeps.lit

theorem serLine_keeps {d : Nat} {c : Nat} {line : Nat} (k_enc : ∀ d i, pgEnc d i ≠ q₀) (hU : Keeps q₀ s₀ s) : Keeps q₀ s₀ (serLine s d c line) := by
  unfold serLine
  try dsimp only
  repeat' first
    | with_reducible assumption
    | with_reducible exact k_enc _ _
    | intro _
    | with_reducible apply ite_keeps
    | with_reducible apply wf_keeps
    | with_reducible apply nextFree_keeps
    | split
    | with_reducible apply Keeps.lit

theorem serEnd_keeps {d : Nat} {c : Nat} {f : SerFrame} (k_die : ∀ d, pgDie d ≠ q₀) (k_mode : ∀ d, pgMode d ≠ q₀) (k_tsync : pgTsync ≠ q₀) (k_fence : ∀ d, pgFence d ≠ q₀) (k_inject : ∀ d, pgInject d ≠ q₀) (k_assay : ∀ d, pgAssay d ≠ q₀) (k_hoistGlobal : ∀ d, pgHoistGlobal d ≠ q₀) (k_chuteGlobal : ∀ d, pgChuteGlobal d ≠ q₀) (k_hp : ∀ d i, pgHp d i ≠ q₀) (k_enc : ∀ d i, pgEnc d i ≠ q₀) (k_ax : ∀ d i, pgAx d i ≠ q₀) (k_seam : ∀ d, pgSeam d ≠ q₀) (k_echo : ∀ d, pgEcho d ≠ q₀) (k_ctx : ∀ d, pgCtx d ≠ q₀) (k_chute : ∀ d i, pgChute d i ≠ q₀) (k_debug : ∀ d, pgDebug d ≠ q₀) (hU : Keeps q₀ s₀ s) : Keeps q₀ s₀ (serEnd s d c f) := by
  unfold serEnd
  try dsimp only
  repeat' first
    | with_reducible assumption
    | with_reducible exact k_die _
    | with_reducible exact k_mode _
    | with_reducible exact k_tsync
    | with_reducible exact k_fence _
    | with_reducible exact k_inject _
    | with_reducible exact k_assay _
    | with_reducible exact k_hoistGlobal _
    | with_reducible exact k_chuteGlobal _
    | with_reducible exact k_hp _ _
    | with_reducible exact k_enc _ _
    | with_reducible exact k_ax _ _
    | with_reducible exact k_seam _
    | with_reducible exact k_echo _
    | with_reducible exact k_ctx _
    | with_reducible exact k_chute _ _
    | with_reducible exact k_debug _
    | intro _
    | with_reducible apply ite_keeps
    | with_reducible apply injPick_keeps
    | with_reducible apply serFail_keeps
    | with_reducible apply serLine_keeps
    | with_reducible apply serStale_keeps
    | with_reducible apply serPassed_keeps
    | (with_reducible refine pair_keeps (by assumption) ?_)
    | split
    | with_reducible apply Keeps.lit

theorem serShut_keeps {d : Nat} {c : Nat} (hU : Keeps q₀ s₀ s) : Keeps q₀ s₀ (serShut s d c) := by
  unfold serShut
  try dsimp only
  repeat' first
    | with_reducible assumption
    | intro _
    | with_reducible apply ite_keeps
    | with_reducible apply serDrop_keeps
    | split
    | with_reducible apply Keeps.lit

theorem execSerialFrameEnd_kept {d : Nat} {c : Nat} {f : SerFrame} (k_die : ∀ d, pgDie d ≠ q₀) (k_mode : ∀ d, pgMode d ≠ q₀) (k_tsync : pgTsync ≠ q₀) (k_fence : ∀ d, pgFence d ≠ q₀) (k_inject : ∀ d, pgInject d ≠ q₀) (k_assay : ∀ d, pgAssay d ≠ q₀) (k_hoistGlobal : ∀ d, pgHoistGlobal d ≠ q₀) (k_chuteGlobal : ∀ d, pgChuteGlobal d ≠ q₀) (k_hp : ∀ d i, pgHp d i ≠ q₀) (k_enc : ∀ d i, pgEnc d i ≠ q₀) (k_ax : ∀ d i, pgAx d i ≠ q₀) (k_seam : ∀ d, pgSeam d ≠ q₀) (k_echo : ∀ d, pgEcho d ≠ q₀) (k_ctx : ∀ d, pgCtx d ≠ q₀) (k_chute : ∀ d i, pgChute d i ≠ q₀) (k_debug : ∀ d, pgDebug d ≠ q₀) (hU : Keeps q₀ s₀ s) : Kept q₀ s₀ (execSerialFrameEnd d c f s) := by
  unfold execSerialFrameEnd
  try dsimp only
  repeat' first
    | with_reducible assumption
    | with_reducible exact k_die _
    | with_reducible exact k_mode _
    | with_reducible exact k_tsync
    | with_reducible exact k_fence _
    | with_reducible exact k_inject _
    | with_reducible exact k_assay _
    | with_reducible exact k_hoistGlobal _
    | with_reducible exact k_chuteGlobal _
    | with_reducible exact k_hp _ _
    | with_reducible exact k_enc _ _
    | with_reducible exact k_ax _ _
    | with_reducible exact k_seam _
    | with_reducible exact k_echo _
    | with_reducible exact k_ctx _
    | with_reducible exact k_chute _ _
    | with_reducible exact k_debug _
    | intro _
    | with_reducible apply ok_kept
    | with_reducible apply ite_kept
    | with_reducible apply ite_keeps
    | with_reducible exact ok_kept (by assumption)
    | with_reducible apply padB_keeps
    | with_reducible apply serEnd_keeps
    | with_reducible apply serShut_keeps
    | split
    | with_reducible apply Keeps.lit

theorem execSerialTimeout_kept {d : Nat} {c : Nat} {ack : Bool} (k_die : ∀ d, pgDie d ≠ q₀) (k_mode : ∀ d, pgMode d ≠ q₀) (k_tsync : pgTsync ≠ q₀) (k_fence : ∀ d, pgFence d ≠ q₀) (k_assay : ∀ d, pgAssay d ≠ q₀) (k_hoistGlobal : ∀ d, pgHoistGlobal d ≠ q₀) (k_chuteGlobal : ∀ d, pgChuteGlobal d ≠ q₀) (k_hp : ∀ d i, pgHp d i ≠ q₀) (k_enc : ∀ d i, pgEnc d i ≠ q₀) (k_ax : ∀ d i, pgAx d i ≠ q₀) (k_seam : ∀ d, pgSeam d ≠ q₀) (k_echo : ∀ d, pgEcho d ≠ q₀) (k_ctx : ∀ d, pgCtx d ≠ q₀) (k_chute : ∀ d i, pgChute d i ≠ q₀) (k_debug : ∀ d, pgDebug d ≠ q₀) (hU : Keeps q₀ s₀ s) : Kept q₀ s₀ (execSerialTimeout d c ack s) := by
  unfold execSerialTimeout
  try dsimp only
  repeat' first
    | with_reducible assumption
    | with_reducible exact k_die _
    | with_reducible exact k_mode _
    | with_reducible exact k_tsync
    | with_reducible exact k_fence _
    | with_reducible exact k_assay _
    | with_reducible exact k_hoistGlobal _
    | with_reducible exact k_chuteGlobal _
    | with_reducible exact k_hp _ _
    | with_reducible exact k_enc _ _
    | with_reducible exact k_ax _ _
    | with_reducible exact k_seam _
    | with_reducible exact k_echo _
    | with_reducible exact k_ctx _
    | with_reducible exact k_chute _ _
    | with_reducible exact k_debug _
    | intro _
    | with_reducible apply ok_kept
    | with_reducible apply ite_kept
    | with_reducible apply ite_keeps
    | with_reducible exact ok_kept (by assumption)
    | with_reducible apply padB_keeps
    | with_reducible apply serFail_keeps
    | with_reducible apply serShut_keeps
    | split
    | with_reducible apply Keeps.lit

theorem estPublish_keeps {d : Nat} {c : Nat} {p : Int} {v : Int} {a : Int} {valid : Bool} (k_enc : ∀ d i, pgEnc d i ≠ q₀) (hU : Keeps q₀ s₀ s) : Keeps q₀ s₀ (estPublish s d c p v a valid) := by
  unfold estPublish
  try dsimp only
  repeat' first
    | with_reducible assumption
    | with_reducible exact k_enc _ _
    | intro _
    | with_reducible apply ite_keeps
    | with_reducible apply setEnc_keeps
    | with_reducible apply wr48_keeps
    | with_reducible apply setDyn_keeps
    | with_reducible apply wb_keeps
    | with_reducible apply encSend_keeps
    | split
    | with_reducible apply Keeps.lit

theorem estNext_keeps {d : Nat} {c : Nat} (hU : Keeps q₀ s₀ s) : Keeps q₀ s₀ (estNext s d c).2 := by
  unfold estNext
  try dsimp only
  repeat' first
    | with_reducible assumption
    | intro _
    | with_reducible apply ite_keeps
    | with_reducible apply nextFree_keeps
    | with_reducible apply fit48_keeps
    | (with_reducible refine pair_keeps (by assumption) ?_)
    | split
    | with_reducible apply Keeps.lit

theorem estRestart_keeps {d : Nat} {c : Nat} (k_enc : ∀ d i, pgEnc d i ≠ q₀) (hU : Keeps q₀ s₀ s) : Keeps q₀ s₀ (estRestart s d c).2 := by
  unfold estRestart
  try dsimp only
  repeat' first
    | with_reducible assumption
    | with_reducible exact k_enc _ _
    | intro _
    | with_reducible apply ite_keeps
    | with_reducible apply setEnc_keeps
    | with_reducible apply wf_keeps
    | with_reducible apply raise_keeps
    | split
    | with_reducible apply Keeps.lit

theorem estStill_keeps {d : Nat} {c : Nat} {e : Int × Int × Int} (k_enc : ∀ d i, pgEnc d i ≠ q₀) (hU : Keeps q₀ s₀ s) : Keeps q₀ s₀ (estStill s d c e).2 := by
  unfold estStill
  try dsimp only
  repeat' first
    | with_reducible assumption
    | with_reducible exact k_enc _ _
    | intro _
    | with_reducible apply ite_keeps
    | with_reducible apply setEnc_keeps
    | with_reducible apply wb_keeps
    | split
    | with_reducible apply Keeps.lit

theorem estUpdate_keeps {d : Nat} {c : Nat} (k_enc : ∀ d i, pgEnc d i ≠ q₀) (hU : Keeps q₀ s₀ s) : Keeps q₀ s₀ (estUpdate s d c) := by
  unfold estUpdate
  try dsimp only
  repeat' first
    | with_reducible assumption
    | with_reducible exact k_enc _ _
    | intro _
    | with_reducible apply ite_keeps
    | with_reducible apply estRestart_keeps
    | with_reducible apply estNext_keeps
    | with_reducible apply estStill_keeps
    | with_reducible apply wf_keeps
    | with_reducible apply estPublish_keeps
    | with_reducible apply wb_keeps
    | (with_reducible refine pair_keeps (by assumption) ?_)
    | split
    | with_reducible apply Keeps.lit

theorem virtUpdate_keeps {d : Nat} {c : Nat} (k_enc : ∀ d i, pgEnc d i ≠ q₀) (hU : Keeps q₀ s₀ s) : Keeps q₀ s₀ (virtUpdate s d c) := by
  unfold virtUpdate
  try dsimp only
  repeat' first
    | with_reducible assumption
    | with_reducible exact k_enc _ _
    | intro _
    | with_reducible apply ite_keeps
    | with_reducible apply encLost_keeps
    | with_reducible apply encInvalid_keeps
    | with_reducible apply setEnc_keeps
    | with_reducible apply virtFollow_keeps
    | with_reducible apply estPublish_keeps
    | with_reducible apply wf_keeps
    | with_reducible apply nextFree_keeps
    | split
    | with_reducible apply Keeps.lit

theorem execEstimatorUpdate_kept {d : Nat} {c : Nat} (k_tb : ∀ d, pgTb d ≠ q₀) (k_enc : ∀ d i, pgEnc d i ≠ q₀) (hU : Keeps q₀ s₀ s) : Kept q₀ s₀ (execEstimatorUpdate d c s) := by
  unfold execEstimatorUpdate
  try dsimp only
  repeat' first
    | with_reducible assumption
    | with_reducible exact k_tb _
    | with_reducible exact k_enc _ _
    | intro _
    | with_reducible apply ok_kept
    | with_reducible apply ite_kept
    | with_reducible apply ite_keeps
    | with_reducible apply waitClock_keeps
    | with_reducible apply setEnc_keeps
    | with_reducible exact ok_kept (by assumption)
    | with_reducible apply estUpdate_keeps
    | with_reducible apply virtUpdate_keeps
    | split
    | with_reducible apply Keeps.lit

theorem remoteLose_keeps {d : Nat} {c : Nat} (k_enc : ∀ d i, pgEnc d i ≠ q₀) (hU : Keeps q₀ s₀ s) : Keeps q₀ s₀ (remoteLose s d c) := by
  unfold remoteLose
  try dsimp only
  repeat' first
    | with_reducible assumption
    | with_reducible exact k_enc _ _
    | intro _
    | with_reducible apply ite_keeps
    | with_reducible apply encLost_keeps
    | with_reducible apply encInvalid_keeps
    | with_reducible apply setEnc_keeps
    | split
    | with_reducible apply Keeps.lit

theorem remoteEst_keeps {d : Nat} {c : Nat} {e : Est} (k_enc : ∀ d i, pgEnc d i ≠ q₀) (hU : Keeps q₀ s₀ s) : Keeps q₀ s₀ (remoteEst s d c e) := by
  unfold remoteEst
  try dsimp only
  repeat' first
    | with_reducible assumption
    | with_reducible exact k_enc _ _
    | intro _
    | with_reducible apply ite_keeps
    | with_reducible apply setEnc_keeps
    | with_reducible apply wr48_keeps
    | with_reducible apply encSend_keeps
    | with_reducible apply setDyn_keeps
    | with_reducible apply wb_keeps
    | split
    | with_reducible apply Keeps.lit

theorem remoteTake_keeps {d : Nat} {c : Nat} {m : HopMsg} (k_enc : ∀ d i, pgEnc d i ≠ q₀) (hU : Keeps q₀ s₀ s) : Keeps q₀ s₀ (remoteTake s d c m) := by
  unfold remoteTake
  try dsimp only
  repeat' first
    | with_reducible assumption
    | with_reducible exact k_enc _ _
    | intro _
    | with_reducible apply ite_keeps
    | with_reducible apply pdMoved_keeps
    | with_reducible apply wr48_keeps
    | with_reducible apply winSync_keeps
    | with_reducible apply remoteEst_keeps
    | with_reducible apply encSend_keeps
    | with_reducible apply winShift_keeps
    | with_reducible apply remoteLose_keeps
    | split
    | with_reducible apply Keeps.lit

theorem execRemoteEstimateReceive_kept {d : Nat} {c : Nat} (k_enc : ∀ d i, pgEnc d i ≠ q₀) (hU : Keeps q₀ s₀ s) : Kept q₀ s₀ (execRemoteEstimateReceive d c s) := by
  unfold execRemoteEstimateReceive
  try dsimp only
  repeat' first
    | with_reducible assumption
    | with_reducible exact k_enc _ _
    | intro _
    | with_reducible apply ok_kept
    | with_reducible apply ite_kept
    | with_reducible apply ite_keeps
    | with_reducible exact ok_kept (by assumption)
    | with_reducible apply remoteTake_keeps
    | split
    | with_reducible apply Keeps.lit

theorem execRemoteSourceLost_kept {d : Nat} {c : Nat} (k_tb : ∀ d, pgTb d ≠ q₀) (k_enc : ∀ d i, pgEnc d i ≠ q₀) (hU : Keeps q₀ s₀ s) : Kept q₀ s₀ (execRemoteSourceLost d c s) := by
  unfold execRemoteSourceLost
  try dsimp only
  repeat' first
    | with_reducible assumption
    | with_reducible exact k_tb _
    | with_reducible exact k_enc _ _
    | intro _
    | with_reducible apply ok_kept
    | with_reducible apply ite_kept
    | with_reducible apply ite_keeps
    | with_reducible exact ok_kept (by assumption)
    | with_reducible apply remoteLose_keeps
    | with_reducible apply waitClock_keeps
    | split
    | with_reducible apply Keeps.lit

theorem decodeRestart_keeps {d : Nat} {c : Nat} {k : Nat} (hU : Keeps q₀ s₀ s) : Keeps q₀ s₀ (decodeRestart s d c k) := by
  unfold decodeRestart
  try dsimp only
  repeat' first
    | with_reducible assumption
    | intro _
    | with_reducible apply ite_keeps
    | with_reducible apply setEnc_keeps
    | split
    | with_reducible apply Keeps.lit

theorem virtTake_keeps {d : Nat} {c : Nat} {pos : Int} (hU : Keeps q₀ s₀ s) : Keeps q₀ s₀ (virtTake s d c pos) := by
  unfold virtTake
  try dsimp only
  repeat' first
    | with_reducible assumption
    | intro _
    | with_reducible apply ite_keeps
    | with_reducible apply setEnc_keeps
    | split
    | with_reducible apply Keeps.lit

theorem spdFollow_keeps {d : Nat} {c : Nat} (k_enc : ∀ d i, pgEnc d i ≠ q₀) (hU : Keeps q₀ s₀ s) : Keeps q₀ s₀ (spdFollow s d c) := by
  unfold spdFollow
  try dsimp only
  repeat' first
    | with_reducible assumption
    | with_reducible exact k_enc _ _
    | intro _
    | with_reducible apply ite_keeps
    | with_reducible apply wb_keeps
    | split
    | with_reducible apply Keeps.lit

theorem modeTurn_keeps {d : Nat} {c : Nat} {pos : Int} (k_enc : ∀ d i, pgEnc d i ≠ q₀) (hU : Keeps q₀ s₀ s) : Keeps q₀ s₀ (modeTurn s d c pos) := by
  unfold modeTurn
  try dsimp only
  repeat' first
    | with_reducible assumption
    | with_reducible exact k_enc _ _
    | intro _
    | with_reducible apply ite_keeps
    | with_reducible apply decodeRestart_keeps
    | with_reducible apply virtTake_keeps
    | with_reducible apply wr48_keeps
    | with_reducible apply setEnc_keeps
    | split
    | with_reducible apply Keeps.lit

theorem encHandOver_keeps {d : Nat} {c : Nat} (k_chuteGlobal : ∀ d, pgChuteGlobal d ≠ q₀) (k_enc : ∀ d i, pgEnc d i ≠ q₀) (k_chute : ∀ d i, pgChute d i ≠ q₀) (hU : Keeps q₀ s₀ s) : Keeps q₀ s₀ (encHandOver s d c) := by
  unfold encHandOver
  try dsimp only
  repeat' first
    | with_reducible assumption
    | with_reducible exact k_chuteGlobal _
    | with_reducible exact k_enc _ _
    | with_reducible exact k_chute _ _
    | intro _
    | with_reducible apply ite_keeps
    | with_reducible apply virtFollow_keeps
    | with_reducible apply winSync_keeps
    | with_reducible apply setEnc_keeps
    | with_reducible apply takeShadows_keeps
    | with_reducible apply modeTurn_keeps
    | with_reducible apply spdFollow_keeps
    | with_reducible apply padB_keeps
    | with_reducible apply pdMoved_keeps
    | with_reducible apply encLoad_keeps
    | split
    | with_reducible apply Keeps.lit

theorem encStart_keeps {d : Nat} {c : Nat} (k_enc : ∀ d i, pgEnc d i ≠ q₀) (hU : Keeps q₀ s₀ s) : Keeps q₀ s₀ (encStart s d c) := by
  unfold encStart
  try dsimp only
  repeat' first
    | with_reducible assumption
    | with_reducible exact k_enc _ _
    | intro _
    | with_reducible apply ite_keeps
    | with_reducible apply setPstate_keeps
    | with_reducible apply setEnc_keeps
    | with_reducible apply spdFollow_keeps
    | with_reducible apply virtTake_keeps
    | with_reducible apply decodeRestart_keeps
    | split
    | with_reducible apply Keeps.lit

theorem encStop_keeps {d : Nat} {c : Nat} (k_enc : ∀ d i, pgEnc d i ≠ q₀) (hU : Keeps q₀ s₀ s) : Keeps q₀ s₀ (encStop s d c) := by
  unfold encStop
  try dsimp only
  repeat' first
    | with_reducible assumption
    | with_reducible exact k_enc _ _
    | intro _
    | with_reducible apply ite_keeps
    | with_reducible apply pdUnlock_keeps
    | with_reducible apply encLost_keeps
    | with_reducible apply encInvalid_keeps
    | split
    | with_reducible apply Keeps.lit

theorem encTimeStep_keeps {d : Nat} {c : Nat} (hU : Keeps q₀ s₀ s) : Keeps q₀ s₀ (encTimeStep s d c) := by
  unfold encTimeStep
  try dsimp only
  repeat' first
    | with_reducible assumption
    | intro _
    | with_reducible apply ite_keeps
    | with_reducible apply serDrop_keeps
    | with_reducible apply setEnc_keeps
    | split
    | with_reducible apply Keeps.lit

end Sys2Proof.Laws
end

