-- ==== Sys2Proof/Laws/PdReg.lean ====
section
/-!
SUPPORT. The register pages that each operation of `Machine/Pd.lean` may write: every other page reads as before.
-/

set_option Elab.async false
set_option linter.unusedTactic false
set_option linter.unreachableTactic false
namespace Sys2Proof.Laws

open Sys2Proof.Machine

variable {q₀ : Pg} {s₀ s : State}

theorem pdIgnore_keeps {d : Nat} {n : Nat} (k_pd : ∀ d, pgPd d ≠ q₀) (hU : Keeps q₀ s₀ s) : Keeps q₀ s₀ (pdIgnore s d n) := by
  unfold pdIgnore
  try dsimp only
  repeat' first
    | with_reducible assumption
    | with_reducible exact k_pd _
    | intro _
    | with_reducible apply ite_keeps
    | with_reducible apply raise_keeps
    | with_reducible apply count_keeps
    | split
    | with_reducible apply Keeps.lit

theorem pdAccept_keeps {d : Nat} {n : Nat} {stamp : Int} (k_chuteGlobal : ∀ d, pgChuteGlobal d ≠ q₀) (k_enc : ∀ d i, pgEnc d i ≠ q₀) (k_pd : ∀ d, pgPd d ≠ q₀) (k_chute : ∀ d i, pgChute d i ≠ q₀) (hU : Keeps q₀ s₀ s) : Keeps q₀ s₀ (pdAccept s d n stamp) := by
  unfold pdAccept
  try dsimp only
  repeat' first
    | with_reducible assumption
    | with_reducible exact k_chuteGlobal _
    | with_reducible exact k_enc _ _
    | with_reducible exact k_pd _
    | with_reducible exact k_chute _ _
    | intro _
    | with_reducible apply ite_keeps
    | with_reducible apply raise_keeps
    | with_reducible apply count_keeps
    | with_reducible apply wr48_keeps
    | with_reducible apply nextFree_keeps
    | with_reducible apply setPdIn_keeps
    | with_reducible apply each_keeps
    | with_reducible apply takeLatch_keeps
    | with_reducible apply posRecord_keeps
    | with_reducible apply sendMsg_keeps
    | split
    | with_reducible apply Keeps.lit

theorem pdPass_keeps {d : Nat} {n : Nat} (k_chuteGlobal : ∀ d, pgChuteGlobal d ≠ q₀) (k_enc : ∀ d i, pgEnc d i ≠ q₀) (k_pd : ∀ d, pgPd d ≠ q₀) (k_chute : ∀ d i, pgChute d i ≠ q₀) (hU : Keeps q₀ s₀ s) : Keeps q₀ s₀ (pdPass s d n) := by
  unfold pdPass
  try dsimp only
  repeat' first
    | with_reducible assumption
    | with_reducible exact k_chuteGlobal _
    | with_reducible exact k_enc _ _
    | with_reducible exact k_pd _
    | with_reducible exact k_chute _ _
    | intro _
    | with_reducible apply ite_keeps
    | with_reducible apply wb_keeps
    | with_reducible apply pdAccept_keeps
    | with_reducible apply pdIgnore_keeps
    | split
    | with_reducible apply Keeps.lit

theorem pdRaw_keeps {d : Nat} {n : Nat} {level : Bool} (hU : Keeps q₀ s₀ s) : Keeps q₀ s₀ (pdRaw s d n level) := by
  unfold pdRaw
  try dsimp only
  repeat' first
    | with_reducible assumption
    | intro _
    | with_reducible apply ite_keeps
    | with_reducible apply setPdIn_keeps
    | split
    | with_reducible apply Keeps.lit

theorem execProduct_kept {d : Nat} {n : Nat} {level : Bool} (k_tb : ∀ d, pgTb d ≠ q₀) (k_chuteGlobal : ∀ d, pgChuteGlobal d ≠ q₀) (k_enc : ∀ d i, pgEnc d i ≠ q₀) (k_pd : ∀ d, pgPd d ≠ q₀) (k_chute : ∀ d i, pgChute d i ≠ q₀) (hU : Keeps q₀ s₀ s) : Kept q₀ s₀ (execProduct d n level s) := by
  unfold execProduct
  try dsimp only
  repeat' first
    | with_reducible assumption
    | with_reducible exact k_tb _
    | with_reducible exact k_chuteGlobal _
    | with_reducible exact k_enc _ _
    | with_reducible exact k_pd _
    | with_reducible exact k_chute _ _
    | intro _
    | with_reducible apply ok_kept
    | with_reducible apply ite_kept
    | with_reducible apply ite_keeps
    | with_reducible apply waitClock_keeps
    | with_reducible exact ok_kept (by assumption)
    | with_reducible apply pdRaw_keeps
    | with_reducible apply pdPass_keeps
    | split
    | with_reducible apply Keeps.lit

theorem pdStart_keeps {d : Nat} (hU : Keeps q₀ s₀ s) : Keeps q₀ s₀ (pdStart s d) := by
  unfold pdStart
  try dsimp only
  repeat' first
    | with_reducible assumption
    | intro _
    | with_reducible apply ite_keeps
    | with_reducible apply each_keeps
    | with_reducible apply setPdIn_keeps
    | split
    | with_reducible apply Keeps.lit

theorem execPdLockoutEnd_kept {d : Nat} {n : Nat} (k_tb : ∀ d, pgTb d ≠ q₀) (hU : Keeps q₀ s₀ s) : Kept q₀ s₀ (execPdLockoutEnd d n s) := by
  unfold execPdLockoutEnd
  try dsimp only
  repeat' first
    | with_reducible assumption
    | with_reducible exact k_tb _
    | intro _
    | with_reducible apply ok_kept
    | with_reducible apply ite_kept
    | with_reducible apply ite_keeps
    | with_reducible apply waitClock_keeps
    | with_reducible exact ok_kept (by assumption)
    | with_reducible apply setPdIn_keeps
    | split
    | with_reducible apply Keeps.lit

theorem pdTurn_keeps {s0 : State} {d : Nat} {n : Nat} (k_pd : ∀ d, pgPd d ≠ q₀) (hU : Keeps q₀ s₀ s) (hU_s0 : Keeps q₀ s₀ s0) : Keeps q₀ s₀ (pdTurn s0 s d n) := by
  unfold pdTurn
  try dsimp only
  repeat' first
    | with_reducible assumption
    | with_reducible exact k_pd _
    | intro _
    | with_reducible apply ite_keeps
    | with_reducible apply wb_keeps
    | with_reducible apply setPdIn_keeps
    | split
    | with_reducible apply Keeps.lit

theorem pdHandOver_keeps {d : Nat} (k_pd : ∀ d, pgPd d ≠ q₀) (hU : Keeps q₀ s₀ s) : Keeps q₀ s₀ (pdHandOver s d) := by
  unfold pdHandOver
  try dsimp only
  repeat' first
    | with_reducible assumption
    | with_reducible exact k_pd _
    | intro _
    | with_reducible apply ite_keeps
    | with_reducible apply each_keeps
    | with_reducible apply takeShadows_keeps
    | with_reducible apply pdTurn_keeps
    | split
    | with_reducible apply Keeps.lit

end Sys2Proof.Laws
end

