-- ==== Sys2Proof/Laws/SecurityReg.lean ====
section
/-!
SUPPORT. The register pages that each operation of `Machine/Security.lean` may write: every other page reads as before.
-/

set_option Elab.async false
set_option linter.unusedTactic false
set_option linter.unreachableTactic false
namespace Sys2Proof.Laws

open Sys2Proof.Machine

variable {q₀ : Pg} {s₀ s : State}

theorem sessState_keeps {d : Nat} {st : Nat} (k_sess : ∀ d, pgSess d ≠ q₀) (hU : Keeps q₀ s₀ s) : Keeps q₀ s₀ (sessState s d st) := by
  unfold sessState
  try dsimp only
  repeat' first
    | with_reducible assumption
    | with_reducible exact k_sess _
    | intro _
    | with_reducible apply ite_keeps
    | with_reducible apply wf_keeps
    | with_reducible apply setDie_keeps
    | split
    | with_reducible apply Keeps.lit

theorem wrs_keeps {p : Pg} {off : Nat} {ws : List Word} (kp : p ≠ q₀) (hU : Keeps q₀ s₀ s) : Keeps q₀ s₀ (wrs s p off ws) := by
  unfold wrs
  try dsimp only
  repeat' first
    | with_reducible assumption
    | intro _
    | with_reducible apply ite_keeps
    | with_reducible apply each_keeps
    | with_reducible apply wr_keeps
    | split
    | with_reducible apply Keeps.lit

theorem skipFree_keeps {n : Nat} (hU : Keeps q₀ s₀ s) : Keeps q₀ s₀ (skipFree s n) := by
  unfold skipFree
  try dsimp only
  repeat' first
    | with_reducible assumption
    | intro _
    | with_reducible apply ite_keeps
    | split
    | with_reducible apply Keeps.lit

theorem sessStart_keeps {r : Req} {d : Nat} {bind : Bool} (k_sess : ∀ d, pgSess d ≠ q₀) (hU : Keeps q₀ s₀ s) : Keeps q₀ s₀ (sessStart s r d bind) := by
  unfold sessStart
  try dsimp only
  repeat' first
    | with_reducible assumption
    | with_reducible exact k_sess _
    | intro _
    | with_reducible apply ite_keeps
    | with_reducible apply logErr_keeps
    | with_reducible apply sessClose_keeps
    | with_reducible apply setDie_keeps
    | with_reducible apply skipFree_keeps
    | with_reducible apply wrs_keeps
    | with_reducible apply sessState_keeps
    | with_reducible apply wr_keeps
    | split
    | with_reducible apply Keeps.lit

theorem sessCtrlWrite_keeps {r : Req} {d : Nat} {v : Word} (k_sess : ∀ d, pgSess d ≠ q₀) (hU : Keeps q₀ s₀ s) : Keeps q₀ s₀ (sessCtrlWrite r d v s) := by
  unfold sessCtrlWrite
  try dsimp only
  repeat' first
    | with_reducible assumption
    | with_reducible exact k_sess _
    | intro _
    | with_reducible apply ite_keeps
    | with_reducible apply wb_keeps
    | with_reducible apply sessClose_keeps
    | with_reducible apply sessStart_keeps
    | split
    | with_reducible apply Keeps.lit

theorem execSessionStart_kept {r : Req} {d : Nat} {bind : Bool} (k_pcie : pgPcie ≠ q₀) (k_guard : ∀ d, pgGuard d ≠ q₀) (k_sess : ∀ d, pgSess d ≠ q₀) (hU : Keeps q₀ s₀ s) : Kept q₀ s₀ (execSessionStart r d bind s) := by
  unfold execSessionStart
  try dsimp only
  repeat' first
    | with_reducible assumption
    | with_reducible exact k_pcie
    | with_reducible exact k_guard _
    | with_reducible exact k_sess _
    | intro _
    | with_reducible apply ok_kept
    | with_reducible apply ite_kept
    | with_reducible apply ite_keeps
    | with_reducible exact ok_kept (by assumption)
    | with_reducible apply guardedWrite_keeps
    | with_reducible apply sessCtrlWrite_keeps
    | split
    | with_reducible apply Keeps.lit

theorem sessCloseWrite_keeps {r : Req} {d : Nat} (k_sess : ∀ d, pgSess d ≠ q₀) (hU : Keeps q₀ s₀ s) : Keeps q₀ s₀ (sessCloseWrite r d s) := by
  unfold sessCloseWrite
  try dsimp only
  repeat' first
    | with_reducible assumption
    | with_reducible exact k_sess _
    | intro _
    | with_reducible apply ite_keeps
    | with_reducible apply sessCtrlWrite_keeps
    | split
    | with_reducible apply Keeps.lit

theorem execSessionClose_kept {r : Req} {d : Nat} (k_pcie : pgPcie ≠ q₀) (k_guard : ∀ d, pgGuard d ≠ q₀) (k_sess : ∀ d, pgSess d ≠ q₀) (hU : Keeps q₀ s₀ s) : Kept q₀ s₀ (execSessionClose r d s) := by
  unfold execSessionClose
  try dsimp only
  repeat' first
    | with_reducible assumption
    | with_reducible exact k_pcie
    | with_reducible exact k_guard _
    | with_reducible exact k_sess _
    | intro _
    | with_reducible apply ok_kept
    | with_reducible apply ite_kept
    | with_reducible apply ite_keeps
    | with_reducible exact ok_kept (by assumption)
    | with_reducible apply guardedWrite_keeps
    | with_reducible apply sessCloseWrite_keeps
    | split
    | with_reducible apply Keeps.lit

theorem nonceDrop_keeps {d : Nat} (k_sess : ∀ d, pgSess d ≠ q₀) (hU : Keeps q₀ s₀ s) : Keeps q₀ s₀ (nonceDrop s d) := by
  unfold nonceDrop
  try dsimp only
  repeat' first
    | with_reducible assumption
    | with_reducible exact k_sess _
    | intro _
    | with_reducible apply ite_keeps
    | with_reducible apply wrs_keeps
    | with_reducible apply skipFree_keeps
    | split
    | with_reducible apply Keeps.lit

theorem sessOpen_keeps {d : Nat} (k_sess : ∀ d, pgSess d ≠ q₀) (hU : Keeps q₀ s₀ s) : Keeps q₀ s₀ (sessOpen s d) := by
  unfold sessOpen
  try dsimp only
  repeat' first
    | with_reducible assumption
    | with_reducible exact k_sess _
    | intro _
    | with_reducible apply ite_keeps
    | with_reducible apply wrs_keeps
    | with_reducible apply setDie_keeps
    | with_reducible apply raise_keeps
    | with_reducible apply count_keeps
    | with_reducible apply wf_keeps
    | with_reducible apply sessState_keeps
    | split
    | with_reducible apply Keeps.lit

theorem sessFail_keeps {d : Nat} (k_sess : ∀ d, pgSess d ≠ q₀) (hU : Keeps q₀ s₀ s) : Keeps q₀ s₀ (sessFail s d) := by
  unfold sessFail
  try dsimp only
  repeat' first
    | with_reducible assumption
    | with_reducible exact k_sess _
    | intro _
    | with_reducible apply ite_keeps
    | with_reducible apply setDie_keeps
    | with_reducible apply sessState_keeps
    | with_reducible apply raise_keeps
    | with_reducible apply count_keeps
    | with_reducible apply wf_keeps
    | split
    | with_reducible apply Keeps.lit

theorem sessCheck_keeps {r : Req} {d : Nat} {v : Word} (k_sess : ∀ d, pgSess d ≠ q₀) (hU : Keeps q₀ s₀ s) : Keeps q₀ s₀ (sessCheck r d v s) := by
  unfold sessCheck
  try dsimp only
  repeat' first
    | with_reducible assumption
    | with_reducible exact k_sess _
    | intro _
    | with_reducible apply ite_keeps
    | with_reducible apply logErr_keeps
    | with_reducible apply wr_keeps
    | with_reducible apply nonceDrop_keeps
    | with_reducible apply sessOpen_keeps
    | with_reducible apply sessFail_keeps
    | split
    | with_reducible apply Keeps.lit

theorem execSessionCheck_kept {r : Req} {d : Nat} {v : Word} (k_pcie : pgPcie ≠ q₀) (k_guard : ∀ d, pgGuard d ≠ q₀) (k_sess : ∀ d, pgSess d ≠ q₀) (hU : Keeps q₀ s₀ s) : Kept q₀ s₀ (execSessionCheck r d v s) := by
  unfold execSessionCheck
  try dsimp only
  repeat' first
    | with_reducible assumption
    | with_reducible exact k_pcie
    | with_reducible exact k_guard _
    | with_reducible exact k_sess _
    | intro _
    | with_reducible apply ok_kept
    | with_reducible apply ite_kept
    | with_reducible apply ite_keeps
    | with_reducible exact ok_kept (by assumption)
    | with_reducible apply guardedWrite_keeps
    | with_reducible apply sessCheck_keeps
    | split
    | with_reducible apply Keeps.lit

theorem sessDataWrite_keeps {r : Req} {d : Nat} {off : Nat} {v : Word} (k_sess : ∀ d, pgSess d ≠ q₀) (hU : Keeps q₀ s₀ s) : Keeps q₀ s₀ (sessDataWrite r d off v s) := by
  unfold sessDataWrite
  try dsimp only
  repeat' first
    | with_reducible assumption
    | with_reducible exact k_sess _
    | intro _
    | with_reducible apply ite_keeps
    | with_reducible apply logErr_keeps
    | with_reducible apply wr_keeps
    | split
    | with_reducible apply Keeps.lit

theorem execSessionTimeout_kept {d : Nat} (k_tb : ∀ d, pgTb d ≠ q₀) (k_sess : ∀ d, pgSess d ≠ q₀) (hU : Keeps q₀ s₀ s) : Kept q₀ s₀ (execSessionTimeout d s) := by
  unfold execSessionTimeout
  try dsimp only
  repeat' first
    | with_reducible assumption
    | with_reducible exact k_tb _
    | with_reducible exact k_sess _
    | intro _
    | with_reducible apply ok_kept
    | with_reducible apply ite_kept
    | with_reducible apply ite_keeps
    | with_reducible exact ok_kept (by assumption)
    | with_reducible apply sessClose_keeps
    | with_reducible apply waitClock_keeps
    | split
    | with_reducible apply Keeps.lit

theorem execBackoffEnd_kept {d : Nat} (k_tb : ∀ d, pgTb d ≠ q₀) (k_sess : ∀ d, pgSess d ≠ q₀) (hU : Keeps q₀ s₀ s) : Kept q₀ s₀ (execBackoffEnd d s) := by
  unfold execBackoffEnd
  try dsimp only
  repeat' first
    | with_reducible assumption
    | with_reducible exact k_tb _
    | with_reducible exact k_sess _
    | intro _
    | with_reducible apply ok_kept
    | with_reducible apply ite_kept
    | with_reducible apply ite_keeps
    | with_reducible exact ok_kept (by assumption)
    | with_reducible apply sessState_keeps
    | with_reducible apply waitClock_keeps
    | split
    | with_reducible apply Keeps.lit

theorem guardSet_keeps {r : Req} {d : Nat} {off : Nat} {v : Word} (k_guard : ∀ d, pgGuard d ≠ q₀) (hU : Keeps q₀ s₀ s) : Keeps q₀ s₀ (guardSet r d off v s) := by
  unfold guardSet
  try dsimp only
  repeat' first
    | with_reducible assumption
    | with_reducible exact k_guard _
    | intro _
    | with_reducible apply ite_keeps
    | with_reducible apply plainWrite_keeps
    | with_reducible apply wr48_keeps
    | with_reducible apply count_keeps
    | with_reducible apply raise_keeps
    | with_reducible apply wr_keeps
    | split
    | with_reducible apply Keeps.lit

theorem execGuardWrite_kept {r : Req} {d : Nat} {off : Nat} {v : Word} (k_pcie : pgPcie ≠ q₀) (k_guard : ∀ d, pgGuard d ≠ q₀) (hU : Keeps q₀ s₀ s) : Kept q₀ s₀ (execGuardWrite r d off v s) := by
  unfold execGuardWrite
  try dsimp only
  repeat' first
    | with_reducible assumption
    | with_reducible exact k_pcie
    | with_reducible exact k_guard _
    | intro _
    | with_reducible apply ok_kept
    | with_reducible apply ite_kept
    | with_reducible apply ite_keeps
    | with_reducible exact ok_kept (by assumption)
    | with_reducible apply guardedWrite_keeps
    | with_reducible apply guardSet_keeps
    | split
    | with_reducible apply Keeps.lit

theorem tapIr_keeps {d : Nat} {code : Nat} (k_debug : ∀ d, pgDebug d ≠ q₀) (hU : Keeps q₀ s₀ s) : Keeps q₀ s₀ (tapIr s d code) := by
  unfold tapIr
  try dsimp only
  repeat' first
    | with_reducible assumption
    | with_reducible exact k_debug _
    | intro _
    | with_reducible apply ite_keeps
    | with_reducible apply wf_keeps
    | with_reducible apply setDie_keeps
    | split
    | with_reducible apply Keeps.lit

theorem tapScan_keeps {d code : Nat} (k_die : ∀ d, pgDie d ≠ q₀) (k_mode : ∀ d, pgMode d ≠ q₀) (k_tsync : pgTsync ≠ q₀) (k_fence : ∀ d, pgFence d ≠ q₀) (k_assay : ∀ d, pgAssay d ≠ q₀) (k_hoistGlobal : ∀ d, pgHoistGlobal d ≠ q₀) (k_chuteGlobal : ∀ d, pgChuteGlobal d ≠ q₀) (k_hp : ∀ d i, pgHp d i ≠ q₀) (k_enc : ∀ d i, pgEnc d i ≠ q₀) (k_ax : ∀ d i, pgAx d i ≠ q₀) (k_seam : ∀ d, pgSeam d ≠ q₀) (k_echo : ∀ d, pgEcho d ≠ q₀) (k_ctx : ∀ d, pgCtx d ≠ q₀) (k_chute : ∀ d i, pgChute d i ≠ q₀) (k_debug : ∀ d, pgDebug d ≠ q₀) (hU : Keeps q₀ s₀ s) : Keeps q₀ s₀ (tapScan s d code) := by
  unfold tapScan
  have hk : ∀ p ∈ bscanPages s d, p ≠ q₀ := by
    intro p hp
    simp only [bscanPages, List.mem_append, List.mem_map] at hp
    obtain ⟨i, -, rfl⟩ | ⟨i, -, rfl⟩ := hp
    · exact k_hp _ _
    · exact k_ax _ _
  have h1 := each_keeps_mem (l := bscanPages s d) (f := fun s p => fencePage s p 8) hU fun t p hp ht => by
    have kp := hk p hp
    apply fencePage_keeps <;> assumption
  apply tapIr_keeps <;> assumption

theorem execExtest_kept {d : Nat} (k_die : ∀ d, pgDie d ≠ q₀) (k_mode : ∀ d, pgMode d ≠ q₀) (k_tsync : pgTsync ≠ q₀) (k_fence : ∀ d, pgFence d ≠ q₀) (k_assay : ∀ d, pgAssay d ≠ q₀) (k_hoistGlobal : ∀ d, pgHoistGlobal d ≠ q₀) (k_chuteGlobal : ∀ d, pgChuteGlobal d ≠ q₀) (k_hp : ∀ d i, pgHp d i ≠ q₀) (k_enc : ∀ d i, pgEnc d i ≠ q₀) (k_ax : ∀ d i, pgAx d i ≠ q₀) (k_seam : ∀ d, pgSeam d ≠ q₀) (k_echo : ∀ d, pgEcho d ≠ q₀) (k_ctx : ∀ d, pgCtx d ≠ q₀) (k_chute : ∀ d i, pgChute d i ≠ q₀) (k_debug : ∀ d, pgDebug d ≠ q₀) (hU : Keeps q₀ s₀ s) : Kept q₀ s₀ (execExtest d s) := by
  unfold execExtest
  try dsimp only
  repeat' first
    | with_reducible assumption
    | with_reducible exact k_die _
    | with_reducible exact k_mode _
    | with_reducible exact k_tsync
    | with_reducible exact k_fence _
    | with_reducible exact k_assay _
    | with_reducible exact k_hoistGlobal _
    | with_reducible exact k_chuteGlobal _
    | with_reducible exact k_hp _ _
    | with_reducible exact k_enc _ _
    | with_reducible exact k_ax _ _
    | with_reducible exact k_seam _
    | with_reducible exact k_echo _
    | with_reducible exact k_ctx _
    | with_reducible exact k_chute _ _
    | with_reducible exact k_debug _
    | intro _
    | with_reducible apply ok_kept
    | with_reducible apply ite_kept
    | with_reducible apply ite_keeps
    | with_reducible exact ok_kept (by assumption)
    | with_reducible apply tapScan_keeps
    | split
    | with_reducible apply Keeps.lit

theorem execClamp_kept {d : Nat} (k_die : ∀ d, pgDie d ≠ q₀) (k_mode : ∀ d, pgMode d ≠ q₀) (k_tsync : pgTsync ≠ q₀) (k_fence : ∀ d, pgFence d ≠ q₀) (k_assay : ∀ d, pgAssay d ≠ q₀) (k_hoistGlobal : ∀ d, pgHoistGlobal d ≠ q₀) (k_chuteGlobal : ∀ d, pgChuteGlobal d ≠ q₀) (k_hp : ∀ d i, pgHp d i ≠ q₀) (k_enc : ∀ d i, pgEnc d i ≠ q₀) (k_ax : ∀ d i, pgAx d i ≠ q₀) (k_seam : ∀ d, pgSeam d ≠ q₀) (k_echo : ∀ d, pgEcho d ≠ q₀) (k_ctx : ∀ d, pgCtx d ≠ q₀) (k_chute : ∀ d i, pgChute d i ≠ q₀) (k_debug : ∀ d, pgDebug d ≠ q₀) (hU : Keeps q₀ s₀ s) : Kept q₀ s₀ (execClamp d s) := by
  unfold execClamp
  try dsimp only
  repeat' first
    | with_reducible assumption
    | with_reducible exact k_die _
    | with_reducible exact k_mode _
    | with_reducible exact k_tsync
    | with_reducible exact k_fence _
    | with_reducible exact k_assay _
    | with_reducible exact k_hoistGlobal _
    | with_reducible exact k_chuteGlobal _
    | with_reducible exact k_hp _ _
    | with_reducible exact k_enc _ _
    | with_reducible exact k_ax _ _
    | with_reducible exact k_seam _
    | with_reducible exact k_echo _
    | with_reducible exact k_ctx _
    | with_reducible exact k_chute _ _
    | with_reducible exact k_debug _
    | intro _
    | with_reducible apply ok_kept
    | with_reducible apply ite_kept
    | with_reducible apply ite_keeps
    | with_reducible exact ok_kept (by assumption)
    | with_reducible apply tapScan_keeps
    | split
    | with_reducible apply Keeps.lit

theorem execHighz_kept {d : Nat} (k_die : ∀ d, pgDie d ≠ q₀) (k_mode : ∀ d, pgMode d ≠ q₀) (k_tsync : pgTsync ≠ q₀) (k_fence : ∀ d, pgFence d ≠ q₀) (k_assay : ∀ d, pgAssay d ≠ q₀) (k_hoistGlobal : ∀ d, pgHoistGlobal d ≠ q₀) (k_chuteGlobal : ∀ d, pgChuteGlobal d ≠ q₀) (k_hp : ∀ d i, pgHp d i ≠ q₀) (k_enc : ∀ d i, pgEnc d i ≠ q₀) (k_ax : ∀ d i, pgAx d i ≠ q₀) (k_seam : ∀ d, pgSeam d ≠ q₀) (k_echo : ∀ d, pgEcho d ≠ q₀) (k_ctx : ∀ d, pgCtx d ≠ q₀) (k_chute : ∀ d i, pgChute d i ≠ q₀) (k_debug : ∀ d, pgDebug d ≠ q₀) (hU : Keeps q₀ s₀ s) : Kept q₀ s₀ (execHighz d s) := by
  unfold execHighz
  try dsimp only
  repeat' first
    | with_reducible assumption
    | with_reducible exact k_die _
    | with_reducible exact k_mode _
    | with_reducible exact k_tsync
    | with_reducible exact k_fence _
    | with_reducible exact k_assay _
    | with_reducible exact k_hoistGlobal _
    | with_reducible exact k_chuteGlobal _
    | with_reducible exact k_hp _ _
    | with_reducible exact k_enc _ _
    | with_reducible exact k_ax _ _
    | with_reducible exact k_seam _
    | with_reducible exact k_echo _
    | with_reducible exact k_ctx _
    | with_reducible exact k_chute _ _
    | with_reducible exact k_debug _
    | intro _
    | with_reducible apply ok_kept
    | with_reducible apply ite_kept
    | with_reducible apply ite_keeps
    | with_reducible exact ok_kept (by assumption)
    | with_reducible apply tapScan_keeps
    | split
    | with_reducible apply Keeps.lit

theorem execExtestPulse_kept {d : Nat} (k_die : ∀ d, pgDie d ≠ q₀) (k_mode : ∀ d, pgMode d ≠ q₀) (k_tsync : pgTsync ≠ q₀) (k_fence : ∀ d, pgFence d ≠ q₀) (k_assay : ∀ d, pgAssay d ≠ q₀) (k_hoistGlobal : ∀ d, pgHoistGlobal d ≠ q₀) (k_chuteGlobal : ∀ d, pgChuteGlobal d ≠ q₀) (k_hp : ∀ d i, pgHp d i ≠ q₀) (k_enc : ∀ d i, pgEnc d i ≠ q₀) (k_ax : ∀ d i, pgAx d i ≠ q₀) (k_seam : ∀ d, pgSeam d ≠ q₀) (k_echo : ∀ d, pgEcho d ≠ q₀) (k_ctx : ∀ d, pgCtx d ≠ q₀) (k_chute : ∀ d i, pgChute d i ≠ q₀) (k_debug : ∀ d, pgDebug d ≠ q₀) (hU : Keeps q₀ s₀ s) : Kept q₀ s₀ (execExtestPulse d s) := by
  unfold execExtestPulse
  try dsimp only
  repeat' first
    | with_reducible assumption
    | with_reducible exact k_die _
    | with_reducible exact k_mode _
    | with_reducible exact k_tsync
    | with_reducible exact k_fence _
    | with_reducible exact k_assay _
    | with_reducible exact k_hoistGlobal _
    | with_reducible exact k_chuteGlobal _
    | with_reducible exact k_hp _ _
    | with_reducible exact k_enc _ _
    | with_reducible exact k_ax _ _
    | with_reducible exact k_seam _
    | with_reducible exact k_echo _
    | with_reducible exact k_ctx _
    | with_reducible exact k_chute _ _
    | with_reducible exact k_debug _
    | intro _
    | with_reducible apply ok_kept
    | with_reducible apply ite_kept
    | with_reducible apply ite_keeps
    | with_reducible exact ok_kept (by assumption)
    | with_reducible apply tapScan_keeps
    | split
    | with_reducible apply Keeps.lit

theorem execExtestTrain_kept {d : Nat} (k_die : ∀ d, pgDie d ≠ q₀) (k_mode : ∀ d, pgMode d ≠ q₀) (k_tsync : pgTsync ≠ q₀) (k_fence : ∀ d, pgFence d ≠ q₀) (k_assay : ∀ d, pgAssay d ≠ q₀) (k_hoistGlobal : ∀ d, pgHoistGlobal d ≠ q₀) (k_chuteGlobal : ∀ d, pgChuteGlobal d ≠ q₀) (k_hp : ∀ d i, pgHp d i ≠ q₀) (k_enc : ∀ d i, pgEnc d i ≠ q₀) (k_ax : ∀ d i, pgAx d i ≠ q₀) (k_seam : ∀ d, pgSeam d ≠ q₀) (k_echo : ∀ d, pgEcho d ≠ q₀) (k_ctx : ∀ d, pgCtx d ≠ q₀) (k_chute : ∀ d i, pgChute d i ≠ q₀) (k_debug : ∀ d, pgDebug d ≠ q₀) (hU : Keeps q₀ s₀ s) : Kept q₀ s₀ (execExtestTrain d s) := by
  unfold execExtestTrain
  try dsimp only
  repeat' first
    | with_reducible assumption
    | with_reducible exact k_die _
    | with_reducible exact k_mode _
    | with_reducible exact k_tsync
    | with_reducible exact k_fence _
    | with_reducible exact k_assay _
    | with_reducible exact k_hoistGlobal _
    | with_reducible exact k_chuteGlobal _
    | with_reducible exact k_hp _ _
    | with_reducible exact k_enc _ _
    | with_reducible exact k_ax _ _
    | with_reducible exact k_seam _
    | with_reducible exact k_echo _
    | with_reducible exact k_ctx _
    | with_reducible exact k_chute _ _
    | with_reducible exact k_debug _
    | intro _
    | with_reducible apply ok_kept
    | with_reducible apply ite_kept
    | with_reducible apply ite_keeps
    | with_reducible exact ok_kept (by assumption)
    | with_reducible apply tapScan_keeps
    | split
    | with_reducible apply Keeps.lit

theorem execSamplePreload_kept {d : Nat} (k_debug : ∀ d, pgDebug d ≠ q₀) (hU : Keeps q₀ s₀ s) : Kept q₀ s₀ (execSamplePreload d s) := by
  unfold execSamplePreload
  try dsimp only
  repeat' first
    | with_reducible assumption
    | with_reducible exact k_debug _
    | intro _
    | with_reducible apply ok_kept
    | with_reducible apply ite_kept
    | with_reducible apply ite_keeps
    | with_reducible exact ok_kept (by assumption)
    | with_reducible apply tapIr_keeps
    | split
    | with_reducible apply Keeps.lit

theorem execIdcode_kept {d : Nat} (k_debug : ∀ d, pgDebug d ≠ q₀) (hU : Keeps q₀ s₀ s) : Kept q₀ s₀ (execIdcode d s) := by
  unfold execIdcode
  try dsimp only
  repeat' first
    | with_reducible assumption
    | with_reducible exact k_debug _
    | intro _
    | with_reducible apply ok_kept
    | with_reducible apply ite_kept
    | with_reducible apply ite_keeps
    | with_reducible exact ok_kept (by assumption)
    | with_reducible apply tapIr_keeps
    | split
    | with_reducible apply Keeps.lit

theorem execDbgStatus_kept {d : Nat} (k_debug : ∀ d, pgDebug d ≠ q₀) (hU : Keeps q₀ s₀ s) : Kept q₀ s₀ (execDbgStatus d s) := by
  unfold execDbgStatus
  try dsimp only
  repeat' first
    | with_reducible assumption
    | with_reducible exact k_debug _
    | intro _
    | with_reducible apply ok_kept
    | with_reducible apply ite_kept
    | with_reducible apply ite_keeps
    | with_reducible apply tapIr_keeps
    | with_reducible exact ok_kept (by assumption)
    | split
    | with_reducible apply Keeps.lit

theorem tapChal_keeps {d : Nat} (k_debug : ∀ d, pgDebug d ≠ q₀) (hU : Keeps q₀ s₀ s) : Keeps q₀ s₀ (tapChal s d) := by
  unfold tapChal
  try dsimp only
  repeat' first
    | with_reducible assumption
    | with_reducible exact k_debug _
    | intro _
    | with_reducible apply ite_keeps
    | with_reducible apply tapIr_keeps
    | with_reducible apply nextFree_keeps
    | with_reducible apply setDie_keeps
    | split
    | with_reducible apply Keeps.lit

theorem execUnlockChal_kept {d : Nat} (k_debug : ∀ d, pgDebug d ≠ q₀) (hU : Keeps q₀ s₀ s) : Kept q₀ s₀ (execUnlockChal d s) := by
  unfold execUnlockChal
  try dsimp only
  repeat' first
    | with_reducible assumption
    | with_reducible exact k_debug _
    | intro _
    | with_reducible apply ok_kept
    | with_reducible apply ite_kept
    | with_reducible apply ite_keeps
    | with_reducible exact ok_kept (by assumption)
    | with_reducible apply tapChal_keeps
    | split
    | with_reducible apply Keeps.lit

theorem dbgOpen_keeps {d : Nat} (k_die : ∀ d, pgDie d ≠ q₀) (k_mode : ∀ d, pgMode d ≠ q₀) (k_debug : ∀ d, pgDebug d ≠ q₀) (hU : Keeps q₀ s₀ s) : Keeps q₀ s₀ (dbgOpen s d) := by
  unfold dbgOpen
  try dsimp only
  repeat' first
    | with_reducible assumption
    | with_reducible exact k_die _
    | with_reducible exact k_mode _
    | with_reducible exact k_debug _
    | intro _
    | with_reducible apply ite_keeps
    | with_reducible apply setDie_keeps
    | with_reducible apply allowedFollow_keeps
    | with_reducible apply raise_keeps
    | with_reducible apply count_keeps
    | with_reducible apply wb_keeps
    | split
    | with_reducible apply Keeps.lit

theorem tokenBad_keeps {d : Nat} (k_debug : ∀ d, pgDebug d ≠ q₀) (hU : Keeps q₀ s₀ s) : Keeps q₀ s₀ (tokenBad s d) := by
  unfold tokenBad
  try dsimp only
  repeat' first
    | with_reducible assumption
    | with_reducible exact k_debug _
    | intro _
    | with_reducible apply ite_keeps
    | with_reducible apply setDie_keeps
    | with_reducible apply wf_keeps
    | with_reducible apply wb_keeps
    | with_reducible apply raise_keeps
    | with_reducible apply count_keeps
    | split
    | with_reducible apply Keeps.lit

theorem unlockUpdate_keeps {d : Nat} {token : Nat} (k_die : ∀ d, pgDie d ≠ q₀) (k_mode : ∀ d, pgMode d ≠ q₀) (k_debug : ∀ d, pgDebug d ≠ q₀) (hU : Keeps q₀ s₀ s) : Keeps q₀ s₀ (unlockUpdate s d token) := by
  unfold unlockUpdate
  try dsimp only
  repeat' first
    | with_reducible assumption
    | with_reducible exact k_die _
    | with_reducible exact k_mode _
    | with_reducible exact k_debug _
    | intro _
    | with_reducible apply ite_keeps
    | with_reducible apply tapIr_keeps
    | with_reducible apply setDie_keeps
    | with_reducible apply dbgOpen_keeps
    | with_reducible apply tokenBad_keeps
    | split
    | with_reducible apply Keeps.lit

theorem execUnlockResp_kept {d : Nat} {token : Nat} (k_die : ∀ d, pgDie d ≠ q₀) (k_mode : ∀ d, pgMode d ≠ q₀) (k_debug : ∀ d, pgDebug d ≠ q₀) (hU : Keeps q₀ s₀ s) : Kept q₀ s₀ (execUnlockResp d token s) := by
  unfold execUnlockResp
  try dsimp only
  repeat' first
    | with_reducible assumption
    | with_reducible exact k_die _
    | with_reducible exact k_mode _
    | with_reducible exact k_debug _
    | intro _
    | with_reducible apply ok_kept
    | with_reducible apply ite_kept
    | with_reducible apply ite_keeps
    | with_reducible exact ok_kept (by assumption)
    | with_reducible apply unlockUpdate_keeps
    | split
    | with_reducible apply Keeps.lit

theorem execDbgClose_kept {d : Nat} (k_die : ∀ d, pgDie d ≠ q₀) (k_mode : ∀ d, pgMode d ≠ q₀) (k_debug : ∀ d, pgDebug d ≠ q₀) (hU : Keeps q₀ s₀ s) : Kept q₀ s₀ (execDbgClose d s) := by
  unfold execDbgClose
  try dsimp only
  repeat' first
    | with_reducible assumption
    | with_reducible exact k_die _
    | with_reducible exact k_mode _
    | with_reducible exact k_debug _
    | intro _
    | with_reducible apply ok_kept
    | with_reducible apply ite_kept
    | with_reducible apply ite_keeps
    | with_reducible exact ok_kept (by assumption)
    | with_reducible apply dbgClose_keeps
    | with_reducible apply tapIr_keeps
    | split
    | with_reducible apply Keeps.lit

theorem execBypass_kept {d : Nat} {code : Nat} (k_debug : ∀ d, pgDebug d ≠ q₀) (hU : Keeps q₀ s₀ s) : Kept q₀ s₀ (execBypass d code s) := by
  unfold execBypass
  try dsimp only
  repeat' first
    | with_reducible assumption
    | with_reducible exact k_debug _
    | intro _
    | with_reducible apply ok_kept
    | with_reducible apply ite_kept
    | with_reducible apply ite_keeps
    | with_reducible exact ok_kept (by assumption)
    | with_reducible apply tapIr_keeps
    | split
    | with_reducible apply Keeps.lit

theorem dbgCtrlWrite_keeps {d : Nat} {v : Word} (k_die : ∀ d, pgDie d ≠ q₀) (k_mode : ∀ d, pgMode d ≠ q₀) (k_debug : ∀ d, pgDebug d ≠ q₀) (hU : Keeps q₀ s₀ s) : Keeps q₀ s₀ (dbgCtrlWrite d v s) := by
  unfold dbgCtrlWrite
  try dsimp only
  repeat' first
    | with_reducible assumption
    | with_reducible exact k_die _
    | with_reducible exact k_mode _
    | with_reducible exact k_debug _
    | intro _
    | with_reducible apply ite_keeps
    | with_reducible apply dbgClose_keeps
    | split
    | with_reducible apply Keeps.lit

theorem execDbgCtrlClose_kept {r : Req} {d : Nat} (k_die : ∀ d, pgDie d ≠ q₀) (k_mode : ∀ d, pgMode d ≠ q₀) (k_pcie : pgPcie ≠ q₀) (k_guard : ∀ d, pgGuard d ≠ q₀) (k_debug : ∀ d, pgDebug d ≠ q₀) (hU : Keeps q₀ s₀ s) : Kept q₀ s₀ (execDbgCtrlClose r d s) := by
  unfold execDbgCtrlClose
  try dsimp only
  repeat' first
    | with_reducible assumption
    | with_reducible exact k_die _
    | with_reducible exact k_mode _
    | with_reducible exact k_pcie
    | with_reducible exact k_guard _
    | with_reducible exact k_debug _
    | intro _
    | with_reducible apply ok_kept
    | with_reducible apply ite_kept
    | with_reducible apply ite_keeps
    | with_reducible exact ok_kept (by assumption)
    | with_reducible apply guardedWrite_keeps
    | with_reducible apply dbgCtrlWrite_keeps
    | split
    | with_reducible apply Keeps.lit

theorem execTrstLow_kept {d : Nat} (k_die : ∀ d, pgDie d ≠ q₀) (k_mode : ∀ d, pgMode d ≠ q₀) (k_debug : ∀ d, pgDebug d ≠ q₀) (hU : Keeps q₀ s₀ s) : Kept q₀ s₀ (execTrstLow d s) := by
  unfold execTrstLow
  try dsimp only
  repeat' first
    | with_reducible assumption
    | with_reducible exact k_die _
    | with_reducible exact k_mode _
    | with_reducible exact k_debug _
    | intro _
    | with_reducible apply ok_kept
    | with_reducible apply ite_kept
    | with_reducible apply ite_keeps
    | with_reducible exact ok_kept (by assumption)
    | with_reducible apply dbgClose_keeps
    | with_reducible apply tapIr_keeps
    | split
    | with_reducible apply Keeps.lit

theorem ijlWrite_keeps {r : Req} {d : Nat} {v : Word} (k_inject : ∀ d, pgInject d ≠ q₀) (k_ijl : ∀ d, pgIjl d ≠ q₀) (hU : Keeps q₀ s₀ s) : Keeps q₀ s₀ (ijlWrite r d v s) := by
  unfold ijlWrite
  try dsimp only
  repeat' first
    | with_reducible assumption
    | with_reducible exact k_inject _
    | with_reducible exact k_ijl _
    | intro _
    | with_reducible apply ite_keeps
    | with_reducible apply injFollow_keeps
    | with_reducible apply plainWrite_keeps
    | split
    | with_reducible apply Keeps.lit

theorem execIjlAllowWrite_kept {r : Req} {d : Nat} {allow : Bool} (k_inject : ∀ d, pgInject d ≠ q₀) (k_pcie : pgPcie ≠ q₀) (k_guard : ∀ d, pgGuard d ≠ q₀) (k_ijl : ∀ d, pgIjl d ≠ q₀) (hU : Keeps q₀ s₀ s) : Kept q₀ s₀ (execIjlAllowWrite r d allow s) := by
  unfold execIjlAllowWrite
  try dsimp only
  repeat' first
    | with_reducible assumption
    | with_reducible exact k_inject _
    | with_reducible exact k_pcie
    | with_reducible exact k_guard _
    | with_reducible exact k_ijl _
    | intro _
    | with_reducible apply ok_kept
    | with_reducible apply ite_kept
    | with_reducible apply ite_keeps
    | with_reducible exact ok_kept (by assumption)
    | with_reducible apply guardedWrite_keeps
    | with_reducible apply ijlWrite_keeps
    | split
    | with_reducible apply Keeps.lit

end Sys2Proof.Laws
end

