-- ==== Sys2Proof/Laws/ModeReg.lean ====
section
/-!
SUPPORT. The register pages that each operation of `Machine/Mode.lean` may write: every other page reads as before.
-/

set_option Elab.async false
set_option linter.unusedTactic false
set_option linter.unreachableTactic false
namespace Sys2Proof.Laws

open Sys2Proof.Machine

variable {q₀ : Pg} {s₀ s : State}

theorem modeAccept_keeps {code : Nat} (k_mode : ∀ d, pgMode d ≠ q₀) (k_assay : ∀ d, pgAssay d ≠ q₀) (hU : Keeps q₀ s₀ s) : Keeps q₀ s₀ (modeAccept s code) := by
  unfold modeAccept
  try dsimp only
  repeat' first
    | with_reducible assumption
    | with_reducible exact k_mode _
    | with_reducible exact k_assay _
    | intro _
    | with_reducible apply ite_keeps
    | with_reducible apply wr48_keeps
    | with_reducible apply wf_keeps
    | with_reducible apply wb_keeps
    | with_reducible apply each_keeps
    | with_reducible apply nextFree_keeps
    | with_reducible apply setSave_keeps
    | split
    | with_reducible apply Keeps.lit

theorem modeReq_keeps {d : Nat} {v : Word} (k_mode : ∀ d, pgMode d ≠ q₀) (k_assay : ∀ d, pgAssay d ≠ q₀) (hU : Keeps q₀ s₀ s) : Keeps q₀ s₀ (modeReq d v s) := by
  unfold modeReq
  try dsimp only
  repeat' first
    | with_reducible assumption
    | with_reducible exact k_mode _
    | with_reducible exact k_assay _
    | intro _
    | with_reducible apply ite_keeps
    | with_reducible apply raise_keeps
    | with_reducible apply wf_keeps
    | with_reducible apply count_keeps
    | with_reducible apply modeAccept_keeps
    | split
    | with_reducible apply Keeps.lit

theorem execModeReqWrite_kept {r : Req} {d : Nat} {v : Word} (k_mode : ∀ d, pgMode d ≠ q₀) (k_assay : ∀ d, pgAssay d ≠ q₀) (k_pcie : pgPcie ≠ q₀) (k_guard : ∀ d, pgGuard d ≠ q₀) (hU : Keeps q₀ s₀ s) : Kept q₀ s₀ (execModeReqWrite r d v s) := by
  unfold execModeReqWrite
  try dsimp only
  repeat' first
    | with_reducible assumption
    | with_reducible exact k_mode _
    | with_reducible exact k_assay _
    | with_reducible exact k_pcie
    | with_reducible exact k_guard _
    | intro _
    | with_reducible apply ok_kept
    | with_reducible apply ite_kept
    | with_reducible apply ite_keeps
    | with_reducible exact ok_kept (by assumption)
    | with_reducible apply guardedWrite_keeps
    | with_reducible apply modeReq_keeps
    | split
    | with_reducible apply Keeps.lit

theorem modeLeadSet_keeps {d : Nat} {v : Word} (k_mode : ∀ d, pgMode d ≠ q₀) (hU : Keeps q₀ s₀ s) : Keeps q₀ s₀ (modeLeadSet d v s) := by
  unfold modeLeadSet
  try dsimp only
  repeat' first
    | with_reducible assumption
    | with_reducible exact k_mode _
    | intro _
    | with_reducible apply ite_keeps
    | with_reducible apply raise_keeps
    | with_reducible apply wf_keeps
    | split
    | with_reducible apply Keeps.lit

theorem execModeLeadWrite_kept {r : Req} {d : Nat} {v : Word} (k_mode : ∀ d, pgMode d ≠ q₀) (k_pcie : pgPcie ≠ q₀) (k_guard : ∀ d, pgGuard d ≠ q₀) (hU : Keeps q₀ s₀ s) : Kept q₀ s₀ (execModeLeadWrite r d v s) := by
  unfold execModeLeadWrite
  try dsimp only
  repeat' first
    | with_reducible assumption
    | with_reducible exact k_mode _
    | with_reducible exact k_pcie
    | with_reducible exact k_guard _
    | intro _
    | with_reducible apply ok_kept
    | with_reducible apply ite_kept
    | with_reducible apply ite_keeps
    | with_reducible exact ok_kept (by assumption)
    | with_reducible apply guardedWrite_keeps
    | with_reducible apply modeLeadSet_keeps
    | split
    | with_reducible apply Keeps.lit

theorem portsFollow_keeps {d : Nat} (k_hp : ∀ d i, pgHp d i ≠ q₀) (hU : Keeps q₀ s₀ s) : Keeps q₀ s₀ (portsFollow s d) := by
  unfold portsFollow
  try dsimp only
  repeat' first
    | with_reducible assumption
    | with_reducible exact k_hp _ _
    | intro _
    | with_reducible apply ite_keeps
    | with_reducible apply each_keeps
    | with_reducible apply streamFollow_keeps
    | with_reducible apply htrFollow_keeps
    | split
    | with_reducible apply Keeps.lit

theorem stbyAxis_keeps {d : Nat} {a : Nat} (k_ax : ∀ d i, pgAx d i ≠ q₀) (hU : Keeps q₀ s₀ s) : Keeps q₀ s₀ (stbyAxis s d a) := by
  unfold stbyAxis
  try dsimp only
  repeat' first
    | with_reducible assumption
    | with_reducible exact k_ax _ _
    | intro _
    | with_reducible apply ite_keeps
    | with_reducible apply setPosValid_keeps
    | with_reducible apply setAxis_keeps
    | split
    | with_reducible apply Keeps.lit

theorem stbyEnc_keeps {d : Nat} {c : Nat} (k_enc : ∀ d i, pgEnc d i ≠ q₀) (hU : Keeps q₀ s₀ s) : Keeps q₀ s₀ (stbyEnc s d c) := by
  unfold stbyEnc
  try dsimp only
  repeat' first
    | with_reducible assumption
    | with_reducible exact k_enc _ _
    | intro _
    | with_reducible apply ite_keeps
    | with_reducible apply setEnc_keeps
    | with_reducible apply encSync_keeps
    | split
    | with_reducible apply Keeps.lit

theorem stbyEnter_keeps {d : Nat} (k_tb : ∀ d, pgTb d ≠ q₀) (k_enc : ∀ d i, pgEnc d i ≠ q₀) (k_ax : ∀ d i, pgAx d i ≠ q₀) (hU : Keeps q₀ s₀ s) : Keeps q₀ s₀ (stbyEnter s d) := by
  unfold stbyEnter
  try dsimp only
  repeat' first
    | with_reducible assumption
    | with_reducible exact k_tb _
    | with_reducible exact k_enc _ _
    | with_reducible exact k_ax _ _
    | intro _
    | with_reducible apply ite_keeps
    | with_reducible apply each_keeps
    | with_reducible apply stbyAxis_keeps
    | with_reducible apply stbyEnc_keeps
    | with_reducible apply setDyn_keeps
    | with_reducible apply wb_keeps
    | split
    | with_reducible apply Keeps.lit

theorem stbyExit_keeps {d : Nat} (k_tb : ∀ d, pgTb d ≠ q₀) (k_fence : ∀ d, pgFence d ≠ q₀) (k_memctl : ∀ d, pgMemctl d ≠ q₀) (k_chuteGlobal : ∀ d, pgChuteGlobal d ≠ q₀) (k_mbox : ∀ d b, pgMbox d b ≠ q₀) (k_hp : ∀ d i, pgHp d i ≠ q₀) (k_ax : ∀ d i, pgAx d i ≠ q₀) (k_seam : ∀ d, pgSeam d ≠ q₀) (k_echo : ∀ d, pgEcho d ≠ q₀) (k_ctx : ∀ d, pgCtx d ≠ q₀) (k_chute : ∀ d i, pgChute d i ≠ q₀) (hU : Keeps q₀ s₀ s) : Keeps q₀ s₀ (stbyExit s d) := by
  unfold stbyExit
  try dsimp only
  repeat' first
    | with_reducible assumption
    | with_reducible exact k_tb _
    | with_reducible exact k_fence _
    | with_reducible exact k_memctl _
    | with_reducible exact k_chuteGlobal _
    | with_reducible exact k_mbox _ _
    | with_reducible exact k_hp _ _
    | with_reducible exact k_ax _ _
    | with_reducible exact k_seam _
    | with_reducible exact k_echo _
    | with_reducible exact k_ctx _
    | with_reducible exact k_chute _ _
    | intro _
    | with_reducible apply ite_keeps
    | with_reducible apply each_keeps
    | with_reducible apply retrain_keeps
    | with_reducible apply setMstate_keeps
    | with_reducible apply setAxis_keeps
    | with_reducible apply decodeRestart_keeps
    | with_reducible apply setEnc_keeps
    | with_reducible apply setDyn_keeps
    | with_reducible apply wb_keeps
    | split
    | with_reducible apply Keeps.lit

theorem dieMode_keeps {d : Nat} {code : Nat} (k_mode : ∀ d, pgMode d ≠ q₀) (k_tb : ∀ d, pgTb d ≠ q₀) (k_fence : ∀ d, pgFence d ≠ q₀) (k_memctl : ∀ d, pgMemctl d ≠ q₀) (k_chuteGlobal : ∀ d, pgChuteGlobal d ≠ q₀) (k_mbox : ∀ d b, pgMbox d b ≠ q₀) (k_hp : ∀ d i, pgHp d i ≠ q₀) (k_enc : ∀ d i, pgEnc d i ≠ q₀) (k_ax : ∀ d i, pgAx d i ≠ q₀) (k_seam : ∀ d, pgSeam d ≠ q₀) (k_echo : ∀ d, pgEcho d ≠ q₀) (k_ctx : ∀ d, pgCtx d ≠ q₀) (k_chute : ∀ d i, pgChute d i ≠ q₀) (hU : Keeps q₀ s₀ s) : Keeps q₀ s₀ (dieMode s d code) := by
  unfold dieMode
  try dsimp only
  repeat' first
    | with_reducible assumption
    | with_reducible exact k_mode _
    | with_reducible exact k_tb _
    | with_reducible exact k_fence _
    | with_reducible exact k_memctl _
    | with_reducible exact k_chuteGlobal _
    | with_reducible exact k_mbox _ _
    | with_reducible exact k_hp _ _
    | with_reducible exact k_enc _ _
    | with_reducible exact k_ax _ _
    | with_reducible exact k_seam _
    | with_reducible exact k_echo _
    | with_reducible exact k_ctx _
    | with_reducible exact k_chute _ _
    | intro _
    | with_reducible apply ite_keeps
    | with_reducible apply stbyEnter_keeps
    | with_reducible apply raise_keeps
    | with_reducible apply wf_keeps
    | with_reducible apply wb_keeps
    | with_reducible apply portsFollow_keeps
    | with_reducible apply sweepBreak_keeps
    | with_reducible apply asModeChange_keeps
    | with_reducible apply stbyExit_keeps
    | split
    | with_reducible apply Keeps.lit

theorem modeSwitch_keeps (k_mode : ∀ d, pgMode d ≠ q₀) (k_tb : ∀ d, pgTb d ≠ q₀) (k_fence : ∀ d, pgFence d ≠ q₀) (k_memctl : ∀ d, pgMemctl d ≠ q₀) (k_chuteGlobal : ∀ d, pgChuteGlobal d ≠ q₀) (k_mbox : ∀ d b, pgMbox d b ≠ q₀) (k_hp : ∀ d i, pgHp d i ≠ q₀) (k_enc : ∀ d i, pgEnc d i ≠ q₀) (k_ax : ∀ d i, pgAx d i ≠ q₀) (k_seam : ∀ d, pgSeam d ≠ q₀) (k_echo : ∀ d, pgEcho d ≠ q₀) (k_ctx : ∀ d, pgCtx d ≠ q₀) (k_chute : ∀ d i, pgChute d i ≠ q₀) (hU : Keeps q₀ s₀ s) : Keeps q₀ s₀ (modeSwitch s) := by
  unfold modeSwitch
  try dsimp only
  repeat' first
    | with_reducible assumption
    | with_reducible exact k_mode _
    | with_reducible exact k_tb _
    | with_reducible exact k_fence _
    | with_reducible exact k_memctl _
    | with_reducible exact k_chuteGlobal _
    | with_reducible exact k_mbox _ _
    | with_reducible exact k_hp _ _
    | with_reducible exact k_enc _ _
    | with_reducible exact k_ax _ _
    | with_reducible exact k_seam _
    | with_reducible exact k_echo _
    | with_reducible exact k_ctx _
    | with_reducible exact k_chute _ _
    | intro _
    | with_reducible apply ite_keeps
    | with_reducible apply wf_keeps
    | with_reducible apply each_keeps
    | with_reducible apply dieMode_keeps
    | split
    | with_reducible apply Keeps.lit

theorem execModeChanged_kept (k_mode : ∀ d, pgMode d ≠ q₀) (k_tb : ∀ d, pgTb d ≠ q₀) (k_fence : ∀ d, pgFence d ≠ q₀) (k_memctl : ∀ d, pgMemctl d ≠ q₀) (k_chuteGlobal : ∀ d, pgChuteGlobal d ≠ q₀) (k_mbox : ∀ d b, pgMbox d b ≠ q₀) (k_hp : ∀ d i, pgHp d i ≠ q₀) (k_enc : ∀ d i, pgEnc d i ≠ q₀) (k_ax : ∀ d i, pgAx d i ≠ q₀) (k_seam : ∀ d, pgSeam d ≠ q₀) (k_echo : ∀ d, pgEcho d ≠ q₀) (k_ctx : ∀ d, pgCtx d ≠ q₀) (k_chute : ∀ d i, pgChute d i ≠ q₀) (hU : Keeps q₀ s₀ s) : Kept q₀ s₀ (execModeChanged s) := by
  unfold execModeChanged
  try dsimp only
  repeat' first
    | with_reducible assumption
    | with_reducible exact k_mode _
    | with_reducible exact k_tb _
    | with_reducible exact k_fence _
    | with_reducible exact k_memctl _
    | with_reducible exact k_chuteGlobal _
    | with_reducible exact k_mbox _ _
    | with_reducible exact k_hp _ _
    | with_reducible exact k_enc _ _
    | with_reducible exact k_ax _ _
    | with_reducible exact k_seam _
    | with_reducible exact k_echo _
    | with_reducible exact k_ctx _
    | with_reducible exact k_chute _ _
    | intro _
    | with_reducible apply ok_kept
    | with_reducible apply ite_kept
    | with_reducible apply ite_keeps
    | with_reducible exact ok_kept (by assumption)
    | with_reducible apply modeSwitch_keeps
    | with_reducible apply waitTick_keeps
    | split
    | with_reducible apply Keeps.lit

theorem execModeClockSettled_kept (k_tb : ∀ d, pgTb d ≠ q₀) (hU : Keeps q₀ s₀ s) : Kept q₀ s₀ (execModeClockSettled s) := by
  unfold execModeClockSettled
  try dsimp only
  repeat' first
    | with_reducible assumption
    | with_reducible exact k_tb _
    | intro _
    | with_reducible apply ok_kept
    | with_reducible apply ite_kept
    | with_reducible apply ite_keeps
    | with_reducible exact ok_kept (by assumption)
    | with_reducible apply waitClock_keeps
    | split
    | with_reducible apply Keeps.lit

theorem modeMirror_keeps {d : Nat} (k_mode : ∀ d, pgMode d ≠ q₀) (hU : Keeps q₀ s₀ s) : Keeps q₀ s₀ (modeMirror s d) := by
  unfold modeMirror
  try dsimp only
  repeat' first
    | with_reducible assumption
    | with_reducible exact k_mode _
    | intro _
    | with_reducible apply ite_keeps
    | with_reducible apply each_keeps
    | with_reducible apply wr_keeps
    | with_reducible apply wb_keeps
    | with_reducible apply setDie_keeps
    | with_reducible apply whenDo_keeps
    | with_reducible apply raise_keeps
    | split
    | with_reducible apply Keeps.lit

theorem execModeMirrorArrive_kept {d : Nat} (k_mode : ∀ d, pgMode d ≠ q₀) (hU : Keeps q₀ s₀ s) : Kept q₀ s₀ (execModeMirrorArrive d s) := by
  unfold execModeMirrorArrive
  try dsimp only
  repeat' first
    | with_reducible assumption
    | with_reducible exact k_mode _
    | intro _
    | with_reducible apply ok_kept
    | with_reducible apply ite_kept
    | with_reducible apply ite_keeps
    | with_reducible exact ok_kept (by assumption)
    | with_reducible apply modeMirror_keeps
    | split
    | with_reducible apply Keeps.lit

end Sys2Proof.Laws
end

