-- ==== Sys2Proof/Laws/TsyncReg.lean ====
section
/-!
SUPPORT. The register pages that each operation of `Machine/Tsync.lean` may write: every other page reads as before.
-/

set_option Elab.async false
set_option linter.unusedTactic false
set_option linter.unreachableTactic false
namespace Sys2Proof.Laws

open Sys2Proof.Machine

variable {q₀ : Pg} {s₀ s : State}

theorem setTsState_keeps {st : Nat} (k_tsync : pgTsync ≠ q₀) (hU : Keeps q₀ s₀ s) : Keeps q₀ s₀ (setTsState s st) := by
  unfold setTsState
  try dsimp only
  repeat' first
    | with_reducible assumption
    | with_reducible exact k_tsync
    | intro _
    | with_reducible apply ite_keeps
    | with_reducible apply wf_keeps
    | with_reducible apply raise_keeps
    | with_reducible apply wb_keeps
    | split
    | with_reducible apply Keeps.lit

theorem tsSend_keeps (hU : Keeps q₀ s₀ s) : Keeps q₀ s₀ (tsSend s) := by
  unfold tsSend
  try dsimp only
  repeat' first
    | with_reducible assumption
    | intro _
    | with_reducible apply ite_keeps
    | with_reducible apply emit_keeps
    | split
    | with_reducible apply Keeps.lit

theorem execTsyncFrameSend_kept (k_tb : ∀ d, pgTb d ≠ q₀) (hU : Keeps q₀ s₀ s) : Kept q₀ s₀ (execTsyncFrameSend s) := by
  unfold execTsyncFrameSend
  try dsimp only
  repeat' first
    | with_reducible assumption
    | with_reducible exact k_tb _
    | intro _
    | with_reducible apply ok_kept
    | with_reducible apply ite_kept
    | with_reducible apply ite_keeps
    | with_reducible exact ok_kept (by assumption)
    | with_reducible apply tsSend_keeps
    | with_reducible apply waitClock_keeps
    | split
    | with_reducible apply Keeps.lit

theorem tsNeedStep_keeps {e : Int} (k_tb : ∀ d, pgTb d ≠ q₀) (k_tsync : pgTsync ≠ q₀) (hU : Keeps q₀ s₀ s) : Keeps q₀ s₀ (tsNeedStep s e) := by
  unfold tsNeedStep
  try dsimp only
  repeat' first
    | with_reducible assumption
    | with_reducible exact k_tb _
    | with_reducible exact k_tsync
    | intro _
    | with_reducible apply ite_keeps
    | with_reducible apply wb_keeps
    | with_reducible apply raise_keeps
    | with_reducible apply tbFollow_keeps
    | with_reducible apply wr_keeps
    | split
    | with_reducible apply Keeps.lit

theorem tsServo_keeps {e : Int} (k_tb : ∀ d, pgTb d ≠ q₀) (k_tsync : pgTsync ≠ q₀) (hU : Keeps q₀ s₀ s) : Keeps q₀ s₀ (tsServo s e) := by
  unfold tsServo
  try dsimp only
  repeat' first
    | with_reducible assumption
    | with_reducible exact k_tb _
    | with_reducible exact k_tsync
    | intro _
    | with_reducible apply ite_keeps
    | with_reducible apply tbFollow_keeps
    | with_reducible apply wr_keeps
    | split
    | with_reducible apply Keeps.lit

theorem tsLock_keeps {e : Int} (k_tsync : pgTsync ≠ q₀) (hU : Keeps q₀ s₀ s) : Keeps q₀ s₀ (tsLock s e) := by
  unfold tsLock
  try dsimp only
  repeat' first
    | with_reducible assumption
    | with_reducible exact k_tsync
    | intro _
    | with_reducible apply ite_keeps
    | with_reducible apply setTsState_keeps
    | split
    | with_reducible apply Keeps.lit

theorem tsAdopt_keeps {ws : List Word} (k_tb : ∀ d, pgTb d ≠ q₀) (k_tsync : pgTsync ≠ q₀) (hU : Keeps q₀ s₀ s) : Keeps q₀ s₀ (tsAdopt s ws) := by
  unfold tsAdopt
  try dsimp only
  repeat' first
    | with_reducible assumption
    | with_reducible exact k_tb _
    | with_reducible exact k_tsync
    | intro _
    | with_reducible apply ite_keeps
    | with_reducible apply each_keeps
    | with_reducible apply setSeconds_keeps
    | with_reducible apply wr48_keeps
    | with_reducible apply raise_keeps
    | split
    | with_reducible apply Keeps.lit

theorem tsMissed_keeps (k_tsync : pgTsync ≠ q₀) (hU : Keeps q₀ s₀ s) : Keeps q₀ s₀ (tsMissed s) := by
  unfold tsMissed
  try dsimp only
  repeat' first
    | with_reducible assumption
    | with_reducible exact k_tsync
    | intro _
    | with_reducible apply ite_keeps
    | with_reducible apply countBy_keeps
    | split
    | with_reducible apply Keeps.lit

theorem tsFrame_keeps {e : Int} {ws : List Word} (k_tb : ∀ d, pgTb d ≠ q₀) (k_tsync : pgTsync ≠ q₀) (hU : Keeps q₀ s₀ s) : Keeps q₀ s₀ (tsFrame s e ws) := by
  unfold tsFrame
  try dsimp only
  repeat' first
    | with_reducible assumption
    | with_reducible exact k_tb _
    | with_reducible exact k_tsync
    | intro _
    | with_reducible apply ite_keeps
    | with_reducible apply wf_keeps
    | with_reducible apply tsMissed_keeps
    | with_reducible apply wr_keeps
    | with_reducible apply tsNeedStep_keeps
    | with_reducible apply tsServo_keeps
    | with_reducible apply tsAdopt_keeps
    | with_reducible apply tsLock_keeps
    | split
    | with_reducible apply Keeps.lit

theorem execTsyncFrameReceive_kept {cap : Nat} {c : Chr} {cs : List Chr} (k_tb : ∀ d, pgTb d ≠ q₀) (k_tsync : pgTsync ≠ q₀) (hU : Keeps q₀ s₀ s) : Kept q₀ s₀ (execTsyncFrameReceive cap c cs s) := by
  unfold execTsyncFrameReceive
  try dsimp only
  repeat' first
    | with_reducible assumption
    | with_reducible exact k_tb _
    | with_reducible exact k_tsync
    | intro _
    | with_reducible apply ok_kept
    | with_reducible apply ite_kept
    | with_reducible apply ite_keeps
    | with_reducible exact ok_kept (by assumption)
    | with_reducible apply tsFrame_keeps
    | with_reducible apply raise_keeps
    | with_reducible apply count_keeps
    | split
    | with_reducible apply Keeps.lit

theorem stepDie_keeps {d : Nat} {e : Int} (k_tb : ∀ d, pgTb d ≠ q₀) (hU : Keeps q₀ s₀ s) : Keeps q₀ s₀ (stepDie s d e) := by
  unfold stepDie
  try dsimp only
  repeat' first
    | with_reducible assumption
    | with_reducible exact k_tb _
    | intro _
    | with_reducible apply ite_keeps
    | with_reducible apply setDie_keeps
    | with_reducible apply raise_keeps
    | with_reducible apply wr48_keeps
    | with_reducible apply each_keeps
    | with_reducible apply encTimeStep_keeps
    | split
    | with_reducible apply Keeps.lit

theorem execStepApplied_kept (k_tb : ∀ d, pgTb d ≠ q₀) (k_tsync : pgTsync ≠ q₀) (hU : Keeps q₀ s₀ s) : Kept q₀ s₀ (execStepApplied s) := by
  unfold execStepApplied
  try dsimp only
  repeat' first
    | with_reducible assumption
    | with_reducible exact k_tb _
    | with_reducible exact k_tsync
    | intro _
    | with_reducible apply ok_kept
    | with_reducible apply ite_kept
    | with_reducible apply ite_keeps
    | with_reducible exact ok_kept (by assumption)
    | with_reducible apply each_keeps
    | with_reducible apply waitClock_keeps
    | with_reducible apply stepDie_keeps
    | with_reducible apply wf_keeps
    | with_reducible apply raise_keeps
    | with_reducible apply count_keeps
    | split
    | with_reducible apply Keeps.lit

theorem execTsyncHoldover_kept (k_tb : ∀ d, pgTb d ≠ q₀) (k_tsync : pgTsync ≠ q₀) (hU : Keeps q₀ s₀ s) : Kept q₀ s₀ (execTsyncHoldover s) := by
  unfold execTsyncHoldover
  try dsimp only
  repeat' first
    | with_reducible assumption
    | with_reducible exact k_tb _
    | with_reducible exact k_tsync
    | intro _
    | with_reducible apply ok_kept
    | with_reducible apply ite_kept
    | with_reducible apply ite_keeps
    | with_reducible exact ok_kept (by assumption)
    | with_reducible apply waitClock_keeps
    | with_reducible apply countBy_keeps
    | with_reducible apply setTsState_keeps
    | split
    | with_reducible apply Keeps.lit

theorem tsRestart_keeps (k_tsync : pgTsync ≠ q₀) (hU : Keeps q₀ s₀ s) : Keeps q₀ s₀ (tsRestart s) := by
  unfold tsRestart
  try dsimp only
  repeat' first
    | with_reducible assumption
    | with_reducible exact k_tsync
    | intro _
    | with_reducible apply ite_keeps
    | with_reducible apply setTsState_keeps
    | split
    | with_reducible apply Keeps.lit

theorem tsStart_keeps (k_tsync : pgTsync ≠ q₀) (hU : Keeps q₀ s₀ s) : Keeps q₀ s₀ (tsStart s) := by
  unfold tsStart
  try dsimp only
  repeat' first
    | with_reducible assumption
    | with_reducible exact k_tsync
    | intro _
    | with_reducible apply ite_keeps
    | with_reducible apply tsRestart_keeps
    | split
    | with_reducible apply Keeps.lit

theorem tsStop_keeps (k_tsync : pgTsync ≠ q₀) (hU : Keeps q₀ s₀ s) : Keeps q₀ s₀ (tsStop s) := by
  unfold tsStop
  try dsimp only
  repeat' first
    | with_reducible assumption
    | with_reducible exact k_tsync
    | intro _
    | with_reducible apply ite_keeps
    | with_reducible apply stepDrop_keeps
    | split
    | with_reducible apply Keeps.lit

theorem tsOff_keeps (k_tsync : pgTsync ≠ q₀) (hU : Keeps q₀ s₀ s) : Keeps q₀ s₀ (tsOff s) := by
  unfold tsOff
  try dsimp only
  repeat' first
    | with_reducible assumption
    | with_reducible exact k_tsync
    | intro _
    | with_reducible apply ite_keeps
    | with_reducible apply setTsState_keeps
    | split
    | with_reducible apply Keeps.lit

theorem tsHandOver_keeps (k_tsync : pgTsync ≠ q₀) (hU : Keeps q₀ s₀ s) : Keeps q₀ s₀ (tsHandOver s) := by
  unfold tsHandOver
  try dsimp only
  repeat' first
    | with_reducible assumption
    | with_reducible exact k_tsync
    | intro _
    | with_reducible apply ite_keeps
    | with_reducible apply takeShadows_keeps
    | with_reducible apply tsRestart_keeps
    | split
    | with_reducible apply Keeps.lit

end Sys2Proof.Laws
end

