-- ==== Sys2Proof/Laws/BurimReg.lean ====
section
/-!
SUPPORT. The register pages that each operation of `Machine/Burim.lean` may write: every other page reads as before.
-/

set_option Elab.async false
set_option linter.unusedTactic false
set_option linter.unreachableTactic false
namespace Sys2Proof.Laws

open Sys2Proof.Machine

variable {q₀ : Pg} {s₀ s : State}

theorem countMod_keeps {p : Pg} {off : Nat} (kp : p ≠ q₀) (hU : Keeps q₀ s₀ s) : Keeps q₀ s₀ (countMod s p off) := by
  unfold countMod
  try dsimp only
  repeat' first
    | with_reducible assumption
    | intro _
    | with_reducible apply ite_keeps
    | with_reducible apply wr_keeps
    | split
    | with_reducible apply Keeps.lit

theorem dieLost_keeps {d : Nat} (k_die : ∀ d, pgDie d ≠ q₀) (k_mode : ∀ d, pgMode d ≠ q₀) (k_tsync : pgTsync ≠ q₀) (k_fence : ∀ d, pgFence d ≠ q₀) (k_assay : ∀ d, pgAssay d ≠ q₀) (k_hoistGlobal : ∀ d, pgHoistGlobal d ≠ q₀) (k_chuteGlobal : ∀ d, pgChuteGlobal d ≠ q₀) (k_hp : ∀ d i, pgHp d i ≠ q₀) (k_enc : ∀ d i, pgEnc d i ≠ q₀) (k_ax : ∀ d i, pgAx d i ≠ q₀) (k_seam : ∀ d, pgSeam d ≠ q₀) (k_echo : ∀ d, pgEcho d ≠ q₀) (k_ctx : ∀ d, pgCtx d ≠ q₀) (k_chute : ∀ d i, pgChute d i ≠ q₀) (k_debug : ∀ d, pgDebug d ≠ q₀) (k_sess : ∀ d, pgSess d ≠ q₀) (k_fb : ∀ p, (pgKind p).fenceable = true → p ≠ q₀) (hU : Keeps q₀ s₀ s) : Keeps q₀ s₀ (dieLost s d) := by
  unfold dieLost
  try dsimp only
  repeat' first
    | with_reducible assumption
    | with_reducible exact k_die _
    | with_reducible exact k_mode _
    | with_reducible exact k_tsync
    | with_reducible exact k_fence _
    | with_reducible exact k_assay _
    | with_reducible exact k_hoistGlobal _
    | with_reducible exact k_chuteGlobal _
    | with_reducible exact k_hp _ _
    | with_reducible exact k_enc _ _
    | with_reducible exact k_ax _ _
    | with_reducible exact k_seam _
    | with_reducible exact k_echo _
    | with_reducible exact k_ctx _
    | with_reducible exact k_chute _ _
    | with_reducible exact k_debug _
    | with_reducible exact k_sess _
    | intro _
    | with_reducible apply ite_keeps
    | with_reducible apply wb_keeps
    | with_reducible apply allowedFollow_keeps
    | with_reducible apply sessClose_keeps
    | with_reducible apply diesLearn_keeps
    | with_reducible apply fenceDie_keeps
    | with_reducible apply raise_keeps
    | split
    | with_reducible apply Keeps.lit

theorem losePathless_keeps (k_die : ∀ d, pgDie d ≠ q₀) (k_mode : ∀ d, pgMode d ≠ q₀) (k_tsync : pgTsync ≠ q₀) (k_fence : ∀ d, pgFence d ≠ q₀) (k_assay : ∀ d, pgAssay d ≠ q₀) (k_hoistGlobal : ∀ d, pgHoistGlobal d ≠ q₀) (k_chuteGlobal : ∀ d, pgChuteGlobal d ≠ q₀) (k_hp : ∀ d i, pgHp d i ≠ q₀) (k_enc : ∀ d i, pgEnc d i ≠ q₀) (k_ax : ∀ d i, pgAx d i ≠ q₀) (k_seam : ∀ d, pgSeam d ≠ q₀) (k_echo : ∀ d, pgEcho d ≠ q₀) (k_ctx : ∀ d, pgCtx d ≠ q₀) (k_chute : ∀ d i, pgChute d i ≠ q₀) (k_debug : ∀ d, pgDebug d ≠ q₀) (k_sess : ∀ d, pgSess d ≠ q₀) (k_fb : ∀ p, (pgKind p).fenceable = true → p ≠ q₀) (hU : Keeps q₀ s₀ s) : Keeps q₀ s₀ (losePathless s) := by
  unfold losePathless
  try dsimp only
  repeat' first
    | with_reducible assumption
    | with_reducible exact k_die _
    | with_reducible exact k_mode _
    | with_reducible exact k_tsync
    | with_reducible exact k_fence _
    | with_reducible exact k_assay _
    | with_reducible exact k_hoistGlobal _
    | with_reducible exact k_chuteGlobal _
    | with_reducible exact k_hp _ _
    | with_reducible exact k_enc _ _
    | with_reducible exact k_ax _ _
    | with_reducible exact k_seam _
    | with_reducible exact k_echo _
    | with_reducible exact k_ctx _
    | with_reducible exact k_chute _ _
    | with_reducible exact k_debug _
    | with_reducible exact k_sess _
    | intro _
    | with_reducible apply ite_keeps
    | with_reducible apply each_keeps
    | with_reducible apply dieLost_keeps
    | split
    | with_reducible apply Keeps.lit

theorem sideRetrain_keeps {d : Nat} {i : Nat} (k_burim : ∀ d, pgBurim d ≠ q₀) (hU : Keeps q₀ s₀ s) : Keeps q₀ s₀ (sideRetrain s d i) := by
  unfold sideRetrain
  try dsimp only
  repeat' first
    | with_reducible assumption
    | with_reducible exact k_burim _
    | intro _
    | with_reducible apply ite_keeps
    | with_reducible apply setBurim_keeps
    | with_reducible apply wf_keeps
    | with_reducible apply raise_keeps
    | with_reducible apply count_keeps
    | split
    | with_reducible apply Keeps.lit

theorem linkRetrain_keeps {d : Nat} {i : Nat} {e : Nat} {j : Nat} (k_burim : ∀ d, pgBurim d ≠ q₀) (hU : Keeps q₀ s₀ s) : Keeps q₀ s₀ (linkRetrain s d i e j) := by
  unfold linkRetrain
  try dsimp only
  repeat' first
    | with_reducible assumption
    | with_reducible exact k_burim _
    | intro _
    | with_reducible apply ite_keeps
    | with_reducible apply sideRetrain_keeps
    | split
    | with_reducible apply Keeps.lit

theorem sideDown_keeps {d : Nat} {i : Nat} (k_burim : ∀ d, pgBurim d ≠ q₀) (hU : Keeps q₀ s₀ s) : Keeps q₀ s₀ (sideDown s d i) := by
  unfold sideDown
  try dsimp only
  repeat' first
    | with_reducible assumption
    | with_reducible exact k_burim _
    | intro _
    | with_reducible apply ite_keeps
    | with_reducible apply raise_keeps
    | with_reducible apply setBurim_keeps
    | with_reducible apply wf_keeps
    | split
    | with_reducible apply Keeps.lit

theorem sourceGone_keeps {d : Nat} {i : Nat} (k_tb : ∀ d, pgTb d ≠ q₀) (hU : Keeps q₀ s₀ s) : Keeps q₀ s₀ (sourceGone s d i) := by
  unfold sourceGone
  try dsimp only
  repeat' first
    | with_reducible assumption
    | with_reducible exact k_tb _
    | intro _
    | with_reducible apply ite_keeps
    | with_reducible apply wf_keeps
    | split
    | with_reducible apply Keeps.lit

theorem flitsReroute_keeps {d : Nat} {i : Nat} {fs : List Flit} (hU : Keeps q₀ s₀ s) : Keeps q₀ s₀ (flitsReroute s d i fs) := by
  unfold flitsReroute
  try dsimp only
  repeat' first
    | with_reducible assumption
    | intro _
    | with_reducible apply ite_keeps
    | with_reducible apply each_keeps
    | with_reducible apply setBurim_keeps
    | split
    | with_reducible apply Keeps.lit

theorem linkDown_keeps {d : Nat} {i : Nat} {e : Nat} {j : Nat} (k_die : ∀ d, pgDie d ≠ q₀) (k_mode : ∀ d, pgMode d ≠ q₀) (k_tb : ∀ d, pgTb d ≠ q₀) (k_tsync : pgTsync ≠ q₀) (k_fence : ∀ d, pgFence d ≠ q₀) (k_assay : ∀ d, pgAssay d ≠ q₀) (k_hoistGlobal : ∀ d, pgHoistGlobal d ≠ q₀) (k_chuteGlobal : ∀ d, pgChuteGlobal d ≠ q₀) (k_hp : ∀ d i, pgHp d i ≠ q₀) (k_enc : ∀ d i, pgEnc d i ≠ q₀) (k_ax : ∀ d i, pgAx d i ≠ q₀) (k_seam : ∀ d, pgSeam d ≠ q₀) (k_echo : ∀ d, pgEcho d ≠ q₀) (k_burim : ∀ d, pgBurim d ≠ q₀) (k_ctx : ∀ d, pgCtx d ≠ q₀) (k_chute : ∀ d i, pgChute d i ≠ q₀) (k_debug : ∀ d, pgDebug d ≠ q₀) (k_sess : ∀ d, pgSess d ≠ q₀) (k_fb : ∀ p, (pgKind p).fenceable = true → p ≠ q₀) (hU : Keeps q₀ s₀ s) : Keeps q₀ s₀ (linkDown s d i e j) := by
  unfold linkDown
  try dsimp only
  repeat' first
    | with_reducible assumption
    | with_reducible exact k_die _
    | with_reducible exact k_mode _
    | with_reducible exact k_tb _
    | with_reducible exact k_tsync
    | with_reducible exact k_fence _
    | with_reducible exact k_assay _
    | with_reducible exact k_hoistGlobal _
    | with_reducible exact k_chuteGlobal _
    | with_reducible exact k_hp _ _
    | with_reducible exact k_enc _ _
    | with_reducible exact k_ax _ _
    | with_reducible exact k_seam _
    | with_reducible exact k_echo _
    | with_reducible exact k_burim _
    | with_reducible exact k_ctx _
    | with_reducible exact k_chute _ _
    | with_reducible exact k_debug _
    | with_reducible exact k_sess _
    | intro _
    | with_reducible apply ite_keeps
    | with_reducible apply sideDown_keeps
    | with_reducible apply logRecord_keeps
    | with_reducible apply routesFollow_keeps
    | with_reducible apply sourceGone_keeps
    | with_reducible apply flitsReroute_keeps
    | with_reducible apply diesLearn_keeps
    | with_reducible apply losePathless_keeps
    | with_reducible apply seamsAll_keeps
    | split
    | with_reducible apply Keeps.lit

theorem flitAckTake_keeps {d : Nat} {i : Nat} {ack : Nat} (hU : Keeps q₀ s₀ s) : Keeps q₀ s₀ (flitAckTake s d i ack) := by
  unfold flitAckTake
  try dsimp only
  repeat' first
    | with_reducible assumption
    | intro _
    | with_reducible apply ite_keeps
    | with_reducible apply setBurim_keeps
    | split
    | with_reducible apply Keeps.lit

theorem flitOffer_keeps {e : Nat} {j : Nat} {a : FlitIn} (hU : Keeps q₀ s₀ s) : Keeps q₀ s₀ (flitOffer s e j a) := by
  unfold flitOffer
  try dsimp only
  repeat' first
    | with_reducible assumption
    | intro _
    | with_reducible apply ite_keeps
    | with_reducible apply setBurim_keeps
    | with_reducible apply setDie_keeps
    | split
    | with_reducible apply Keeps.lit

theorem flitDeliver_keeps {d : Nat} {i : Nat} {e : Nat} {j : Nat} {f : Flit} (hU : Keeps q₀ s₀ s) : Keeps q₀ s₀ (flitDeliver s d i e j f) := by
  unfold flitDeliver
  try dsimp only
  repeat' first
    | with_reducible assumption
    | intro _
    | with_reducible apply ite_keeps
    | with_reducible apply setBurim_keeps
    | split
    | with_reducible apply Keeps.lit

theorem viaFree_keeps {e : Nat} {f : Flit} (hU : Keeps q₀ s₀ s) : Keeps q₀ s₀ (viaFree s e f) := by
  unfold viaFree
  try dsimp only
  repeat' first
    | with_reducible assumption
    | intro _
    | with_reducible apply ite_keeps
    | with_reducible apply setBurim_keeps
    | split
    | with_reducible apply Keeps.lit

theorem heardFrom_keeps {d : Nat} {src : Nat} (hU : Keeps q₀ s₀ s) : Keeps q₀ s₀ (heardFrom s d src) := by
  unfold heardFrom
  try dsimp only
  repeat' first
    | with_reducible assumption
    | intro _
    | with_reducible apply ite_keeps
    | with_reducible apply setDie_keeps
    | split
    | with_reducible apply Keeps.lit

theorem flitAccept_keeps {d : Nat} {i : Nat} {e : Nat} {j : Nat} {f : Flit} {ack : Nat} {hop : Nat} (k_burim : ∀ d, pgBurim d ≠ q₀) (hU : Keeps q₀ s₀ s) : Keeps q₀ s₀ (flitAccept s d i e j f ack hop) := by
  unfold flitAccept
  try dsimp only
  repeat' first
    | with_reducible assumption
    | with_reducible exact k_burim _
    | intro _
    | with_reducible apply ite_keeps
    | with_reducible apply flitAckTake_keeps
    | with_reducible apply setBurim_keeps
    | with_reducible apply countMod_keeps
    | with_reducible apply wf_keeps
    | with_reducible apply flitDeliver_keeps
    | with_reducible apply heardFrom_keeps
    | split
    | with_reducible apply Keeps.lit

theorem nakSend_keeps {d : Nat} {i : Nat} (hU : Keeps q₀ s₀ s) : Keeps q₀ s₀ (nakSend s d i) := by
  unfold nakSend
  try dsimp only
  repeat' first
    | with_reducible assumption
    | intro _
    | with_reducible apply ite_keeps
    | with_reducible apply setBurim_keeps
    | split
    | with_reducible apply Keeps.lit

theorem sideUp_keeps {d : Nat} {i : Nat} {e : Nat} {j : Nat} (k_burim : ∀ d, pgBurim d ≠ q₀) (hU : Keeps q₀ s₀ s) : Keeps q₀ s₀ (sideUp s d i e j) := by
  unfold sideUp
  try dsimp only
  repeat' first
    | with_reducible assumption
    | with_reducible exact k_burim _
    | intro _
    | with_reducible apply ite_keeps
    | with_reducible apply flitAckTake_keeps
    | with_reducible apply raise_keeps
    | with_reducible apply setBurim_keeps
    | with_reducible apply wf_keeps
    | with_reducible apply resend_keeps
    | split
    | with_reducible apply Keeps.lit

theorem flitBad_keeps {d : Nat} {i : Nat} {e : Nat} {j : Nat} {ann : Bool} {replay : Bool} (k_burim : ∀ d, pgBurim d ≠ q₀) (hU : Keeps q₀ s₀ s) : Keeps q₀ s₀ (flitBad s d i e j ann replay) := by
  unfold flitBad
  try dsimp only
  repeat' first
    | with_reducible assumption
    | with_reducible exact k_burim _
    | intro _
    | with_reducible apply ite_keeps
    | with_reducible apply count_keeps
    | with_reducible apply setBurim_keeps
    | with_reducible apply linkRetrain_keeps
    | with_reducible apply nakSend_keeps
    | split
    | with_reducible apply Keeps.lit

theorem flitArrive_keeps {d : Nat} {i : Nat} {e : Nat} {j : Nat} {x : Nat} {hop : Nat} {ann : Bool} {replay : Bool} (k_burim : ∀ d, pgBurim d ≠ q₀) (hU : Keeps q₀ s₀ s) : Keeps q₀ s₀ (flitArrive s d i e j x hop ann replay) := by
  unfold flitArrive
  try dsimp only
  repeat' first
    | with_reducible assumption
    | with_reducible exact k_burim _
    | intro _
    | with_reducible apply ite_keeps
    | with_reducible apply flitBad_keeps
    | with_reducible apply heardFrom_keeps
    | with_reducible apply flitAckTake_keeps
    | with_reducible apply flitAccept_keeps
    | with_reducible apply nakSend_keeps
    | split
    | with_reducible apply Keeps.lit

theorem flitReplay_keeps {d : Nat} {i : Nat} {e : Nat} {j : Nat} {q : Nat} {rest : List Nat} {a : FlitIn} (k_burim : ∀ d, pgBurim d ≠ q₀) (hU : Keeps q₀ s₀ s) : Keeps q₀ s₀ (flitReplay s d i e j q rest a) := by
  unfold flitReplay
  try dsimp only
  repeat' first
    | with_reducible assumption
    | with_reducible exact k_burim _
    | intro _
    | with_reducible apply ite_keeps
    | with_reducible apply setBurim_keeps
    | with_reducible apply resend_keeps
    | with_reducible apply count_keeps
    | with_reducible apply flitArrive_keeps
    | split
    | with_reducible apply Keeps.lit

theorem flitTake_keeps {e : Nat} {j : Nat} {f : Flit} (k_burim : ∀ d, pgBurim d ≠ q₀) (hU : Keeps q₀ s₀ s) : Keeps q₀ s₀ (flitTake s e j f).2 := by
  unfold flitTake
  try dsimp only
  repeat' first
    | with_reducible assumption
    | with_reducible exact k_burim _
    | intro _
    | with_reducible apply ite_keeps
    | with_reducible apply countMod_keeps
    | with_reducible apply viaFree_keeps
    | with_reducible apply setBurim_keeps
    | split
    | with_reducible apply Keeps.lit

theorem flitNew_keeps {d : Nat} {i : Nat} {e : Nat} {j : Nat} {f : Flit} {a : FlitIn} (k_inject : ∀ d, pgInject d ≠ q₀) (k_burim : ∀ d, pgBurim d ≠ q₀) (hU : Keeps q₀ s₀ s) : Keeps q₀ s₀ (flitNew s d i e j f a) := by
  unfold flitNew
  try dsimp only
  repeat' first
    | with_reducible assumption
    | with_reducible exact k_inject _
    | with_reducible exact k_burim _
    | intro _
    | with_reducible apply ite_keeps
    | with_reducible apply flitTake_keeps
    | with_reducible apply injPick_keeps
    | with_reducible apply setBurim_keeps
    | with_reducible apply flitArrive_keeps
    | (with_reducible refine pair_keeps (by assumption) ?_)
    | split
    | with_reducible apply Keeps.lit

theorem flitIdle_keeps {d : Nat} {i : Nat} {e : Nat} {j : Nat} {a : FlitIn} (k_burim : ∀ d, pgBurim d ≠ q₀) (hU : Keeps q₀ s₀ s) : Keeps q₀ s₀ (flitIdle s d i e j a) := by
  unfold flitIdle
  try dsimp only
  repeat' first
    | with_reducible assumption
    | with_reducible exact k_burim _
    | intro _
    | with_reducible apply ite_keeps
    | with_reducible apply flitArrive_keeps
    | split
    | with_reducible apply Keeps.lit

theorem flitIn_keeps {d : Nat} {i : Nat} {e : Nat} {j : Nat} {a : FlitIn} (k_inject : ∀ d, pgInject d ≠ q₀) (k_burim : ∀ d, pgBurim d ≠ q₀) (hU : Keeps q₀ s₀ s) : Keeps q₀ s₀ (flitIn s d i e j a) := by
  unfold flitIn
  try dsimp only
  repeat' first
    | with_reducible assumption
    | with_reducible exact k_inject _
    | with_reducible exact k_burim _
    | intro _
    | with_reducible apply ite_keeps
    | with_reducible apply flitOffer_keeps
    | with_reducible apply resend_keeps
    | with_reducible apply flitReplay_keeps
    | with_reducible apply flitNew_keeps
    | with_reducible apply flitIdle_keeps
    | split
    | with_reducible apply Keeps.lit

theorem execFlitReceive_kept {d : Nat} {i : Nat} {a : FlitIn} (k_inject : ∀ d, pgInject d ≠ q₀) (k_burim : ∀ d, pgBurim d ≠ q₀) (hU : Keeps q₀ s₀ s) : Kept q₀ s₀ (execFlitReceive d i a s) := by
  unfold execFlitReceive
  try dsimp only
  repeat' first
    | with_reducible assumption
    | with_reducible exact k_inject _
    | with_reducible exact k_burim _
    | intro _
    | with_reducible apply ok_kept
    | with_reducible apply ite_kept
    | with_reducible apply ite_keeps
    | with_reducible exact ok_kept (by assumption)
    | with_reducible apply flitIn_keeps
    | split
    | with_reducible apply Keeps.lit

theorem execNakReceive_kept {d : Nat} {i : Nat} {seq : Nat} (hU : Keeps q₀ s₀ s) : Kept q₀ s₀ (execNakReceive d i seq s) := by
  unfold execNakReceive
  try dsimp only
  repeat' first
    | with_reducible assumption
    | intro _
    | with_reducible apply ok_kept
    | with_reducible apply ite_kept
    | with_reducible apply ite_keeps
    | with_reducible exact ok_kept (by assumption)
    | with_reducible apply setBurim_keeps
    | with_reducible apply resend_keeps
    | split
    | with_reducible apply Keeps.lit

theorem execBurimRetrain_kept {d : Nat} {i : Nat} (k_burim : ∀ d, pgBurim d ≠ q₀) (hU : Keeps q₀ s₀ s) : Kept q₀ s₀ (execBurimRetrain d i s) := by
  unfold execBurimRetrain
  try dsimp only
  repeat' first
    | with_reducible assumption
    | with_reducible exact k_burim _
    | intro _
    | with_reducible apply ok_kept
    | with_reducible apply ite_kept
    | with_reducible apply ite_keeps
    | with_reducible exact ok_kept (by assumption)
    | with_reducible apply linkRetrain_keeps
    | split
    | with_reducible apply Keeps.lit

theorem execBurimRetrainDone_kept {d : Nat} {i : Nat} {good : Bool} (k_die : ∀ d, pgDie d ≠ q₀) (k_mode : ∀ d, pgMode d ≠ q₀) (k_tb : ∀ d, pgTb d ≠ q₀) (k_tsync : pgTsync ≠ q₀) (k_fence : ∀ d, pgFence d ≠ q₀) (k_assay : ∀ d, pgAssay d ≠ q₀) (k_hoistGlobal : ∀ d, pgHoistGlobal d ≠ q₀) (k_chuteGlobal : ∀ d, pgChuteGlobal d ≠ q₀) (k_hp : ∀ d i, pgHp d i ≠ q₀) (k_enc : ∀ d i, pgEnc d i ≠ q₀) (k_ax : ∀ d i, pgAx d i ≠ q₀) (k_seam : ∀ d, pgSeam d ≠ q₀) (k_echo : ∀ d, pgEcho d ≠ q₀) (k_burim : ∀ d, pgBurim d ≠ q₀) (k_ctx : ∀ d, pgCtx d ≠ q₀) (k_chute : ∀ d i, pgChute d i ≠ q₀) (k_debug : ∀ d, pgDebug d ≠ q₀) (k_sess : ∀ d, pgSess d ≠ q₀) (k_fb : ∀ p, (pgKind p).fenceable = true → p ≠ q₀) (hU : Keeps q₀ s₀ s) : Kept q₀ s₀ (execBurimRetrainDone d i good s) := by
  unfold execBurimRetrainDone
  try dsimp only
  repeat' first
    | with_reducible assumption
    | with_reducible exact k_die _
    | with_reducible exact k_mode _
    | with_reducible exact k_tb _
    | with_reducible exact k_tsync
    | with_reducible exact k_fence _
    | with_reducible exact k_assay _
    | with_reducible exact k_hoistGlobal _
    | with_reducible exact k_chuteGlobal _
    | with_reducible exact k_hp _ _
    | with_reducible exact k_enc _ _
    | with_reducible exact k_ax _ _
    | with_reducible exact k_seam _
    | with_reducible exact k_echo _
    | with_reducible exact k_burim _
    | with_reducible exact k_ctx _
    | with_reducible exact k_chute _ _
    | with_reducible exact k_debug _
    | with_reducible exact k_sess _
    | intro _
    | with_reducible apply ok_kept
    | with_reducible apply ite_kept
    | with_reducible apply ite_keeps
    | with_reducible exact ok_kept (by assumption)
    | with_reducible apply diesLearn_keeps
    | with_reducible apply sideUp_keeps
    | with_reducible apply setBurim_keeps
    | with_reducible apply linkDown_keeps
    | split
    | with_reducible apply Keeps.lit

end Sys2Proof.Laws
end

