-- ==== Sys2Proof/Laws/MemWinReg.lean ====
section
/-!
SUPPORT. The register pages that each operation of `Machine/MemWin.lean` may write: every other page reads as before.
-/

set_option Elab.async false
set_option linter.unusedTactic false
set_option linter.unreachableTactic false
namespace Sys2Proof.Laws

open Sys2Proof.Machine

variable {q₀ : Pg} {s₀ s : State}

theorem collision_keeps {r : Req} {d : Nat} {w : Nat} (k_fence : ∀ d, pgFence d ≠ q₀) (k_memctl : ∀ d, pgMemctl d ≠ q₀) (k_chuteGlobal : ∀ d, pgChuteGlobal d ≠ q₀) (k_chute : ∀ d i, pgChute d i ≠ q₀) (hU : Keeps q₀ s₀ s) : Keeps q₀ s₀ (collision s r d w) := by
  unfold collision
  try dsimp only
  repeat' first
    | with_reducible assumption
    | with_reducible exact k_fence _
    | with_reducible exact k_memctl _
    | with_reducible exact k_chuteGlobal _
    | with_reducible exact k_chute _ _
    | intro _
    | with_reducible apply ite_keeps
    | with_reducible apply raise_keeps
    | with_reducible apply wr_keeps
    | with_reducible apply count_keeps
    | with_reducible apply logRecord_keeps
    | split
    | with_reducible apply Keeps.lit

theorem wordWrite_keeps {r : Req} {d : Nat} {dps : Bool} {w : Nat} {k : Nat} {bs : List Byte} {collide : Bool} (k_fence : ∀ d, pgFence d ≠ q₀) (k_memctl : ∀ d, pgMemctl d ≠ q₀) (k_chuteGlobal : ∀ d, pgChuteGlobal d ≠ q₀) (k_chute : ∀ d i, pgChute d i ≠ q₀) (hU : Keeps q₀ s₀ s) : Keeps q₀ s₀ (wordWrite s r d dps w k bs collide) := by
  unfold wordWrite
  try dsimp only
  repeat' first
    | with_reducible assumption
    | with_reducible exact k_fence _
    | with_reducible exact k_memctl _
    | with_reducible exact k_chuteGlobal _
    | with_reducible exact k_chute _ _
    | intro _
    | with_reducible apply ite_keeps
    | with_reducible apply collision_keeps
    | with_reducible apply wrWord_keeps
    | with_reducible apply readWord_keeps
    | (with_reducible refine trip_keeps (by assumption) ?_)
    | split
    | with_reducible apply Keeps.lit

theorem windowWord_keeps {r : Req} {d : Nat} {dps : Bool} {w : Nat} {k : Nat} {bs : List Byte} {poisoned : Bool} {collide : Bool} (k_fence : ∀ d, pgFence d ≠ q₀) (k_memctl : ∀ d, pgMemctl d ≠ q₀) (k_chuteGlobal : ∀ d, pgChuteGlobal d ≠ q₀) (k_ctx : ∀ d, pgCtx d ≠ q₀) (k_chute : ∀ d i, pgChute d i ≠ q₀) (hU : Keeps q₀ s₀ s) : Keeps q₀ s₀ (windowWord s r d dps w k bs poisoned collide) := by
  unfold windowWord
  try dsimp only
  repeat' first
    | with_reducible assumption
    | with_reducible exact k_fence _
    | with_reducible exact k_memctl _
    | with_reducible exact k_chuteGlobal _
    | with_reducible exact k_ctx _
    | with_reducible exact k_chute _ _
    | intro _
    | with_reducible apply ite_keeps
    | with_reducible apply logErr_keeps
    | with_reducible apply collision_keeps
    | with_reducible apply poisonWord_keeps
    | with_reducible apply wordWrite_keeps
    | split
    | with_reducible apply Keeps.lit

theorem poisonRx_keeps (k_pcie : pgPcie ≠ q₀) (hU : Keeps q₀ s₀ s) : Keeps q₀ s₀ (poisonRx s) := by
  unfold poisonRx
  try dsimp only
  repeat' first
    | with_reducible assumption
    | with_reducible exact k_pcie
    | intro _
    | with_reducible apply ite_keeps
    | with_reducible apply raise_keeps
    | with_reducible apply count_keeps
    | split
    | with_reducible apply Keeps.lit

theorem memWrite_keeps {r : Req} {d : Nat} {off : Nat} {bs : List Byte} {poisoned : Bool} {collide : List Nat} (k_fence : ∀ d, pgFence d ≠ q₀) (k_memctl : ∀ d, pgMemctl d ≠ q₀) (k_chuteGlobal : ∀ d, pgChuteGlobal d ≠ q₀) (k_pcie : pgPcie ≠ q₀) (k_ctx : ∀ d, pgCtx d ≠ q₀) (k_chute : ∀ d i, pgChute d i ≠ q₀) (k_guard : ∀ d, pgGuard d ≠ q₀) (hU : Keeps q₀ s₀ s) : Keeps q₀ s₀ (memWrite s r d off bs poisoned collide) := by
  unfold memWrite
  try dsimp only
  repeat' first
    | with_reducible assumption
    | with_reducible exact k_fence _
    | with_reducible exact k_memctl _
    | with_reducible exact k_chuteGlobal _
    | with_reducible exact k_pcie
    | with_reducible exact k_ctx _
    | with_reducible exact k_chute _ _
    | with_reducible exact k_guard _
    | intro _
    | with_reducible apply ite_keeps
    | with_reducible apply poisonRx_keeps
    | with_reducible apply noAnswer_keeps
    | with_reducible apply denyCount_keeps
    | with_reducible apply each_keeps
    | with_reducible apply windowWord_keeps
    | split
    | with_reducible apply Keeps.lit

theorem windowRead_keeps {d : Nat} {dps : Bool} {w : Nat} {src : Nat} {eff : Option Link} {reason : Nat} (k_fence : ∀ d, pgFence d ≠ q₀) (k_memctl : ∀ d, pgMemctl d ≠ q₀) (k_chuteGlobal : ∀ d, pgChuteGlobal d ≠ q₀) (k_chute : ∀ d i, pgChute d i ≠ q₀) (hU : Keeps q₀ s₀ s) : Keeps q₀ s₀ (windowRead s d dps w src eff reason).2.2 := by
  unfold windowRead
  try dsimp only
  repeat' first
    | with_reducible assumption
    | with_reducible exact k_fence _
    | with_reducible exact k_memctl _
    | with_reducible exact k_chuteGlobal _
    | with_reducible exact k_chute _ _
    | intro _
    | with_reducible apply ite_keeps
    | with_reducible apply readWord_keeps
    | (with_reducible refine trip_keeps (by assumption) ?_)
    | split
    | with_reducible apply Keeps.lit

theorem readBytes_keeps {x0 : List (Nat × Nat × Nat)} {x2 : Nat} {x3 : Bool} {x4 : Nat} (k_fence : ∀ d, pgFence d ≠ q₀) (k_memctl : ∀ d, pgMemctl d ≠ q₀) (k_chuteGlobal : ∀ d, pgChuteGlobal d ≠ q₀) (k_chute : ∀ d i, pgChute d i ≠ q₀) (hU : Keeps q₀ s₀ s) : Keeps q₀ s₀ (readBytes x0 s x2 x3 x4).2.2 := by
  induction x0 generalizing s x2 x3 x4 with
  | nil => exact hU
  | cons e r ih =>
    unfold readBytes
    try dsimp only
    repeat' first
      | with_reducible assumption
      | with_reducible apply ih
      | with_reducible exact k_fence _
      | with_reducible exact k_memctl _
      | with_reducible exact k_chuteGlobal _
      | with_reducible exact k_chute _ _
      | intro _
      | with_reducible apply ite_keeps
      | with_reducible apply windowRead_keeps
      | (with_reducible refine trip_keeps (by assumption) ?_)
      | split
      | with_reducible apply Keeps.lit

theorem memRead_keeps {r : Req} {d : Nat} {off : Nat} {len : Nat} (k_fence : ∀ d, pgFence d ≠ q₀) (k_memctl : ∀ d, pgMemctl d ≠ q₀) (k_chuteGlobal : ∀ d, pgChuteGlobal d ≠ q₀) (k_pcie : pgPcie ≠ q₀) (k_chute : ∀ d i, pgChute d i ≠ q₀) (k_guard : ∀ d, pgGuard d ≠ q₀) (hU : Keeps q₀ s₀ s) : Keeps q₀ s₀ (memRead s r d off len) := by
  unfold memRead
  try dsimp only
  repeat' first
    | with_reducible assumption
    | with_reducible exact k_fence _
    | with_reducible exact k_memctl _
    | with_reducible exact k_chuteGlobal _
    | with_reducible exact k_pcie
    | with_reducible exact k_chute _ _
    | with_reducible exact k_guard _
    | intro _
    | with_reducible apply ite_keeps
    | with_reducible apply noAnswer_keeps
    | with_reducible apply denyCount_keeps
    | with_reducible apply readBytes_keeps
    | with_reducible apply whenDo_keeps
    | with_reducible apply count_keeps
    | (with_reducible refine trip_keeps (by assumption) ?_)
    | split
    | with_reducible apply Keeps.lit

theorem execMemWindowWrite_kept {r : Req} {d : Nat} {off : Nat} {bs : List Byte} {poisoned : Bool} {collide : List Nat} (k_fence : ∀ d, pgFence d ≠ q₀) (k_memctl : ∀ d, pgMemctl d ≠ q₀) (k_chuteGlobal : ∀ d, pgChuteGlobal d ≠ q₀) (k_pcie : pgPcie ≠ q₀) (k_ctx : ∀ d, pgCtx d ≠ q₀) (k_chute : ∀ d i, pgChute d i ≠ q₀) (k_guard : ∀ d, pgGuard d ≠ q₀) (hU : Keeps q₀ s₀ s) : Kept q₀ s₀ (execMemWindowWrite r d off bs poisoned collide s) := by
  unfold execMemWindowWrite
  try dsimp only
  repeat' first
    | with_reducible assumption
    | with_reducible exact k_fence _
    | with_reducible exact k_memctl _
    | with_reducible exact k_chuteGlobal _
    | with_reducible exact k_pcie
    | with_reducible exact k_ctx _
    | with_reducible exact k_chute _ _
    | with_reducible exact k_guard _
    | intro _
    | with_reducible apply ok_kept
    | with_reducible apply ite_kept
    | with_reducible apply ite_keeps
    | with_reducible exact ok_kept (by assumption)
    | with_reducible apply memWrite_keeps
    | split
    | with_reducible apply Keeps.lit

theorem execMemWindowRead_kept {r : Req} {d : Nat} {off : Nat} {len : Nat} (k_fence : ∀ d, pgFence d ≠ q₀) (k_memctl : ∀ d, pgMemctl d ≠ q₀) (k_chuteGlobal : ∀ d, pgChuteGlobal d ≠ q₀) (k_pcie : pgPcie ≠ q₀) (k_chute : ∀ d i, pgChute d i ≠ q₀) (k_guard : ∀ d, pgGuard d ≠ q₀) (hU : Keeps q₀ s₀ s) : Kept q₀ s₀ (execMemWindowRead r d off len s) := by
  unfold execMemWindowRead
  try dsimp only
  repeat' first
    | with_reducible assumption
    | with_reducible exact k_fence _
    | with_reducible exact k_memctl _
    | with_reducible exact k_chuteGlobal _
    | with_reducible exact k_pcie
    | with_reducible exact k_chute _ _
    | with_reducible exact k_guard _
    | intro _
    | with_reducible apply ok_kept
    | with_reducible apply ite_kept
    | with_reducible apply ite_keeps
    | with_reducible exact ok_kept (by assumption)
    | with_reducible apply memRead_keeps
    | split
    | with_reducible apply Keeps.lit

theorem execDescriptorWrite_kept {r : Req} {d : Nat} {k : Nat} {w : Nat} {v : Word} (k_fence : ∀ d, pgFence d ≠ q₀) (k_memctl : ∀ d, pgMemctl d ≠ q₀) (k_chuteGlobal : ∀ d, pgChuteGlobal d ≠ q₀) (k_pcie : pgPcie ≠ q₀) (k_ctx : ∀ d, pgCtx d ≠ q₀) (k_chute : ∀ d i, pgChute d i ≠ q₀) (k_guard : ∀ d, pgGuard d ≠ q₀) (hU : Keeps q₀ s₀ s) : Kept q₀ s₀ (execDescriptorWrite r d k w v s) := by
  unfold execDescriptorWrite
  try dsimp only
  repeat' first
    | with_reducible assumption
    | with_reducible exact k_fence _
    | with_reducible exact k_memctl _
    | with_reducible exact k_chuteGlobal _
    | with_reducible exact k_pcie
    | with_reducible exact k_ctx _
    | with_reducible exact k_chute _ _
    | with_reducible exact k_guard _
    | intro _
    | with_reducible apply ok_kept
    | with_reducible apply ite_kept
    | with_reducible apply ite_keeps
    | with_reducible exact ok_kept (by assumption)
    | with_reducible apply memWrite_keeps
    | split
    | with_reducible apply Keeps.lit

end Sys2Proof.Laws
end

