-- ==== Sys2Proof/Laws/PageReg.lean ====
section
/-!
SUPPORT. The register pages that each operation of `Machine/Page.lean` may write: every other page reads as before.
-/

set_option Elab.async false
set_option linter.unusedTactic false
set_option linter.unreachableTactic false
namespace Sys2Proof.Laws

open Sys2Proof.Machine

variable {q₀ : Pg} {s₀ s : State}

theorem hpStop_keeps {d : Nat} {p : Nat} (k_fence : ∀ d, pgFence d ≠ q₀) (k_memctl : ∀ d, pgMemctl d ≠ q₀) (k_chuteGlobal : ∀ d, pgChuteGlobal d ≠ q₀) (k_hp : ∀ d i, pgHp d i ≠ q₀) (k_seam : ∀ d, pgSeam d ≠ q₀) (k_echo : ∀ d, pgEcho d ≠ q₀) (k_ctx : ∀ d, pgCtx d ≠ q₀) (k_chute : ∀ d i, pgChute d i ≠ q₀) (hU : Keeps q₀ s₀ s) : Keeps q₀ s₀ (hpStop s d p) := by
  unfold hpStop
  try dsimp only
  repeat' first
    | with_reducible assumption
    | with_reducible exact k_fence _
    | with_reducible exact k_memctl _
    | with_reducible exact k_chuteGlobal _
    | with_reducible exact k_hp _ _
    | with_reducible exact k_seam _
    | with_reducible exact k_echo _
    | with_reducible exact k_ctx _
    | with_reducible exact k_chute _ _
    | intro _
    | with_reducible apply ite_keeps
    | with_reducible apply loadAbort_keeps
    | with_reducible apply setPort_keeps
    | with_reducible apply each_keeps
    | with_reducible apply frameEnd_keeps
    | with_reducible apply htrFollow_keeps
    | split
    | with_reducible apply Keeps.lit

theorem hpOff_keeps {d : Nat} {p : Nat} (k_fence : ∀ d, pgFence d ≠ q₀) (k_thermal : ∀ d, pgThermal d ≠ q₀) (k_memctl : ∀ d, pgMemctl d ≠ q₀) (k_chuteGlobal : ∀ d, pgChuteGlobal d ≠ q₀) (k_mbox : ∀ d b, pgMbox d b ≠ q₀) (k_hp : ∀ d i, pgHp d i ≠ q₀) (k_seam : ∀ d, pgSeam d ≠ q₀) (k_echo : ∀ d, pgEcho d ≠ q₀) (k_ctx : ∀ d, pgCtx d ≠ q₀) (k_chute : ∀ d i, pgChute d i ≠ q₀) (hU : Keeps q₀ s₀ s) : Keeps q₀ s₀ (hpOff s d p) := by
  unfold hpOff
  try dsimp only
  repeat' first
    | with_reducible assumption
    | with_reducible exact k_fence _
    | with_reducible exact k_thermal _
    | with_reducible exact k_memctl _
    | with_reducible exact k_chuteGlobal _
    | with_reducible exact k_mbox _ _
    | with_reducible exact k_hp _ _
    | with_reducible exact k_seam _
    | with_reducible exact k_echo _
    | with_reducible exact k_ctx _
    | with_reducible exact k_chute _ _
    | intro _
    | with_reducible apply ite_keeps
    | with_reducible apply setLink_keeps
    | with_reducible apply abandonFrames_keeps
    | with_reducible apply thermOff_keeps
    | with_reducible apply setPort_keeps
    | split
    | with_reducible apply Keeps.lit

theorem pageStart_keeps {p : Pg} (kp : p ≠ q₀) (k_inject : ∀ d, pgInject d ≠ q₀) (k_mbox : ∀ d b, pgMbox d b ≠ q₀) (k_hp : ∀ d i, pgHp d i ≠ q₀) (k_ijl : ∀ d, pgIjl d ≠ q₀) (hU : Keeps q₀ s₀ s) : Keeps q₀ s₀ (pageStart s p) := by
  unfold pageStart
  try dsimp only
  repeat' first
    | with_reducible assumption
    | with_reducible exact k_inject _
    | with_reducible exact k_mbox _ _
    | with_reducible exact k_hp _ _
    | with_reducible exact k_ijl _
    | intro _
    | with_reducible apply ite_keeps
    | with_reducible apply setPstate_keeps
    | with_reducible apply setLink_keeps
    | with_reducible apply axStart_keeps
    | with_reducible apply injFollow_keeps
    | split
    | with_reducible apply Keeps.lit

theorem pageTied_keeps {p : Pg} (k_fence : ∀ d, pgFence d ≠ q₀) (k_chuteGlobal : ∀ d, pgChuteGlobal d ≠ q₀) (k_chute : ∀ d i, pgChute d i ≠ q₀) (hU : Keeps q₀ s₀ s) : Keeps q₀ s₀ (pageTied s p) := by
  unfold pageTied
  try dsimp only
  repeat' first
    | with_reducible assumption
    | with_reducible exact k_fence _
    | with_reducible exact k_chuteGlobal _
    | with_reducible exact k_chute _ _
    | intro _
    | with_reducible apply ite_keeps
    | with_reducible apply dieRecord_keeps
    | with_reducible apply setDie_keeps
    | split
    | with_reducible apply Keeps.lit

theorem pageRun_keeps {p : Pg} (kp : p ≠ q₀) (k_tsync : pgTsync ≠ q₀) (k_fence : ∀ d, pgFence d ≠ q₀) (k_inject : ∀ d, pgInject d ≠ q₀) (k_hoistGlobal : ∀ d, pgHoistGlobal d ≠ q₀) (k_chuteGlobal : ∀ d, pgChuteGlobal d ≠ q₀) (k_hp : ∀ d i, pgHp d i ≠ q₀) (k_enc : ∀ d i, pgEnc d i ≠ q₀) (k_ax : ∀ d i, pgAx d i ≠ q₀) (k_seam : ∀ d, pgSeam d ≠ q₀) (k_hc : ∀ d i, pgHc d i ≠ q₀) (k_chute : ∀ d i, pgChute d i ≠ q₀) (k_ijl : ∀ d, pgIjl d ≠ q₀) (hU : Keeps q₀ s₀ s) : Keeps q₀ s₀ (pageRun s p) := by
  unfold pageRun
  try dsimp only
  repeat' first
    | with_reducible assumption
    | with_reducible exact k_tsync
    | with_reducible exact k_fence _
    | with_reducible exact k_inject _
    | with_reducible exact k_hoistGlobal _
    | with_reducible exact k_chuteGlobal _
    | with_reducible exact k_hp _ _
    | with_reducible exact k_enc _ _
    | with_reducible exact k_ax _ _
    | with_reducible exact k_seam _
    | with_reducible exact k_hc _ _
    | with_reducible exact k_chute _ _
    | with_reducible exact k_ijl _
    | intro _
    | with_reducible apply ite_keeps
    | with_reducible apply setPstate_keeps
    | with_reducible apply portRunning_keeps
    | with_reducible apply axRunning_keeps
    | with_reducible apply encStart_keeps
    | with_reducible apply pdStart_keeps
    | with_reducible apply pageTied_keeps
    | with_reducible apply chuteFollow_keeps
    | with_reducible apply chuteStart_keeps
    | with_reducible apply cgFollow_keeps
    | with_reducible apply hcStarted_keeps
    | with_reducible apply tsStart_keeps
    | with_reducible apply seamsUpdate_keeps
    | with_reducible apply injFollow_keeps
    | with_reducible apply setDie_keeps
    | split
    | with_reducible apply Keeps.lit

theorem pageShut_keeps {p : Pg} (kp : p ≠ q₀) (k_die : ∀ d, pgDie d ≠ q₀) (k_mode : ∀ d, pgMode d ≠ q₀) (k_tsync : pgTsync ≠ q₀) (k_fence : ∀ d, pgFence d ≠ q₀) (k_inject : ∀ d, pgInject d ≠ q₀) (k_memctl : ∀ d, pgMemctl d ≠ q₀) (k_hoistGlobal : ∀ d, pgHoistGlobal d ≠ q₀) (k_chuteGlobal : ∀ d, pgChuteGlobal d ≠ q₀) (k_mbox : ∀ d b, pgMbox d b ≠ q₀) (k_hp : ∀ d i, pgHp d i ≠ q₀) (k_enc : ∀ d i, pgEnc d i ≠ q₀) (k_ax : ∀ d i, pgAx d i ≠ q₀) (k_seam : ∀ d, pgSeam d ≠ q₀) (k_echo : ∀ d, pgEcho d ≠ q₀) (k_ctx : ∀ d, pgCtx d ≠ q₀) (k_hc : ∀ d i, pgHc d i ≠ q₀) (k_chute : ∀ d i, pgChute d i ≠ q₀) (k_debug : ∀ d, pgDebug d ≠ q₀) (k_ijl : ∀ d, pgIjl d ≠ q₀) (hU : Keeps q₀ s₀ s) : Keeps q₀ s₀ (pageShut s p) := by
  unfold pageShut
  try dsimp only
  repeat' first
    | with_reducible assumption
    | with_reducible exact k_die _
    | with_reducible exact k_mode _
    | with_reducible exact k_tsync
    | with_reducible exact k_fence _
    | with_reducible exact k_inject _
    | with_reducible exact k_memctl _
    | with_reducible exact k_hoistGlobal _
    | with_reducible exact k_chuteGlobal _
    | with_reducible exact k_mbox _ _
    | with_reducible exact k_hp _ _
    | with_reducible exact k_enc _ _
    | with_reducible exact k_ax _ _
    | with_reducible exact k_seam _
    | with_reducible exact k_echo _
    | with_reducible exact k_ctx _
    | with_reducible exact k_hc _ _
    | with_reducible exact k_chute _ _
    | with_reducible exact k_debug _
    | with_reducible exact k_ijl _
    | intro _
    | with_reducible apply ite_keeps
    | with_reducible apply setPstate_keeps
    | with_reducible apply hpStop_keeps
    | with_reducible apply axShut_keeps
    | with_reducible apply encStop_keeps
    | with_reducible apply encSync_keeps
    | with_reducible apply chuteFollow_keeps
    | with_reducible apply setDyn_keeps
    | with_reducible apply hcStop_keeps
    | with_reducible apply tsStop_keeps
    | with_reducible apply seamsUpdate_keeps
    | with_reducible apply asStop_keeps
    | with_reducible apply mbStop_keeps
    | with_reducible apply dbgClose_keeps
    | with_reducible apply injFollow_keeps
    | split
    | with_reducible apply Keeps.lit

theorem pageOff_keeps {p : Pg} (kp : p ≠ q₀) (k_tsync : pgTsync ≠ q₀) (k_fence : ∀ d, pgFence d ≠ q₀) (k_thermal : ∀ d, pgThermal d ≠ q₀) (k_memctl : ∀ d, pgMemctl d ≠ q₀) (k_hoistGlobal : ∀ d, pgHoistGlobal d ≠ q₀) (k_chuteGlobal : ∀ d, pgChuteGlobal d ≠ q₀) (k_mbox : ∀ d b, pgMbox d b ≠ q₀) (k_hp : ∀ d i, pgHp d i ≠ q₀) (k_enc : ∀ d i, pgEnc d i ≠ q₀) (k_ax : ∀ d i, pgAx d i ≠ q₀) (k_seam : ∀ d, pgSeam d ≠ q₀) (k_echo : ∀ d, pgEcho d ≠ q₀) (k_ctx : ∀ d, pgCtx d ≠ q₀) (k_chute : ∀ d i, pgChute d i ≠ q₀) (hU : Keeps q₀ s₀ s) : Keeps q₀ s₀ (pageOff s p) := by
  unfold pageOff
  try dsimp only
  repeat' first
    | with_reducible assumption
    | with_reducible exact k_tsync
    | with_reducible exact k_fence _
    | with_reducible exact k_thermal _
    | with_reducible exact k_memctl _
    | with_reducible exact k_hoistGlobal _
    | with_reducible exact k_chuteGlobal _
    | with_reducible exact k_mbox _ _
    | with_reducible exact k_hp _ _
    | with_reducible exact k_enc _ _
    | with_reducible exact k_ax _ _
    | with_reducible exact k_seam _
    | with_reducible exact k_echo _
    | with_reducible exact k_ctx _
    | with_reducible exact k_chute _ _
    | intro _
    | with_reducible apply ite_keeps
    | with_reducible apply hpOff_keeps
    | with_reducible apply axOff_keeps
    | with_reducible apply heldForget_keeps
    | with_reducible apply setChute_keeps
    | with_reducible apply spotGone_keeps
    | with_reducible apply raise_keeps
    | with_reducible apply hcStopped_keeps
    | with_reducible apply serDrop_keeps
    | with_reducible apply tsOff_keeps
    | split
    | with_reducible apply Keeps.lit

theorem engineReset_keeps {p : Pg} (k_die : ∀ d, pgDie d ≠ q₀) (k_mode : ∀ d, pgMode d ≠ q₀) (k_tsync : pgTsync ≠ q₀) (k_fence : ∀ d, pgFence d ≠ q₀) (k_assay : ∀ d, pgAssay d ≠ q₀) (k_hoistGlobal : ∀ d, pgHoistGlobal d ≠ q₀) (k_chuteGlobal : ∀ d, pgChuteGlobal d ≠ q₀) (k_hp : ∀ d i, pgHp d i ≠ q₀) (k_enc : ∀ d i, pgEnc d i ≠ q₀) (k_ax : ∀ d i, pgAx d i ≠ q₀) (k_seam : ∀ d, pgSeam d ≠ q₀) (k_echo : ∀ d, pgEcho d ≠ q₀) (k_ctx : ∀ d, pgCtx d ≠ q₀) (k_chute : ∀ d i, pgChute d i ≠ q₀) (k_debug : ∀ d, pgDebug d ≠ q₀) (hU : Keeps q₀ s₀ s) : Keeps q₀ s₀ (engineReset s p) := by
  unfold engineReset
  try dsimp only
  repeat' first
    | with_reducible assumption
    | with_reducible exact k_die _
    | with_reducible exact k_mode _
    | with_reducible exact k_tsync
    | with_reducible exact k_fence _
    | with_reducible exact k_assay _
    | with_reducible exact k_hoistGlobal _
    | with_reducible exact k_chuteGlobal _
    | with_reducible exact k_hp _ _
    | with_reducible exact k_enc _ _
    | with_reducible exact k_ax _ _
    | with_reducible exact k_seam _
    | with_reducible exact k_echo _
    | with_reducible exact k_ctx _
    | with_reducible exact k_chute _ _
    | with_reducible exact k_debug _
    | intro _
    | with_reducible apply ite_keeps
    | with_reducible apply linkStat_keeps
    | with_reducible apply htrFollow_keeps
    | with_reducible apply setPort_keeps
    | with_reducible apply axReset_keeps
    | with_reducible apply setEnc_keeps
    | with_reducible apply setChute_keeps
    | with_reducible apply setHoist_keeps
    | with_reducible apply mbReset_keeps
    | with_reducible apply setEcho_keeps
    | with_reducible apply setAssay_keeps
    | with_reducible apply setLamp_keeps
    | split
    | with_reducible apply Keeps.lit

theorem pageReset_keeps {p : Pg} {en : Bool} (kp : p ≠ q₀) (k_die : ∀ d, pgDie d ≠ q₀) (k_mode : ∀ d, pgMode d ≠ q₀) (k_tb : ∀ d, pgTb d ≠ q₀) (k_tsync : pgTsync ≠ q₀) (k_fence : ∀ d, pgFence d ≠ q₀) (k_assay : ∀ d, pgAssay d ≠ q₀) (k_hoistGlobal : ∀ d, pgHoistGlobal d ≠ q₀) (k_chuteGlobal : ∀ d, pgChuteGlobal d ≠ q₀) (k_hp : ∀ d i, pgHp d i ≠ q₀) (k_enc : ∀ d i, pgEnc d i ≠ q₀) (k_ax : ∀ d i, pgAx d i ≠ q₀) (k_seam : ∀ d, pgSeam d ≠ q₀) (k_echo : ∀ d, pgEcho d ≠ q₀) (k_ctx : ∀ d, pgCtx d ≠ q₀) (k_chute : ∀ d i, pgChute d i ≠ q₀) (k_debug : ∀ d, pgDebug d ≠ q₀) (hU : Keeps q₀ s₀ s) : Keeps q₀ s₀ (pageReset s p en) := by
  unfold pageReset
  try dsimp only
  repeat' first
    | with_reducible assumption
    | with_reducible exact k_die _
    | with_reducible exact k_mode _
    | with_reducible exact k_tb _
    | with_reducible exact k_tsync
    | with_reducible exact k_fence _
    | with_reducible exact k_assay _
    | with_reducible exact k_hoistGlobal _
    | with_reducible exact k_chuteGlobal _
    | with_reducible exact k_hp _ _
    | with_reducible exact k_enc _ _
    | with_reducible exact k_ax _ _
    | with_reducible exact k_seam _
    | with_reducible exact k_echo _
    | with_reducible exact k_ctx _
    | with_reducible exact k_chute _ _
    | with_reducible exact k_debug _
    | intro _
    | with_reducible apply ite_keeps
    | with_reducible apply setPstate_keeps
    | with_reducible apply wb_keeps
    | with_reducible apply resetPage_keeps
    | with_reducible apply setFenceSt_keeps
    | with_reducible apply engineReset_keeps
    | with_reducible apply tbFollow_keeps
    | with_reducible apply wr_keeps
    | split
    | with_reducible apply Keeps.lit

theorem pageDone_keeps {p : Pg} (kp : p ≠ q₀) (k_die : ∀ d, pgDie d ≠ q₀) (k_mode : ∀ d, pgMode d ≠ q₀) (k_tb : ∀ d, pgTb d ≠ q₀) (k_tsync : pgTsync ≠ q₀) (k_fence : ∀ d, pgFence d ≠ q₀) (k_inject : ∀ d, pgInject d ≠ q₀) (k_assay : ∀ d, pgAssay d ≠ q₀) (k_thermal : ∀ d, pgThermal d ≠ q₀) (k_memctl : ∀ d, pgMemctl d ≠ q₀) (k_hoistGlobal : ∀ d, pgHoistGlobal d ≠ q₀) (k_chuteGlobal : ∀ d, pgChuteGlobal d ≠ q₀) (k_mbox : ∀ d b, pgMbox d b ≠ q₀) (k_hp : ∀ d i, pgHp d i ≠ q₀) (k_enc : ∀ d i, pgEnc d i ≠ q₀) (k_ax : ∀ d i, pgAx d i ≠ q₀) (k_seam : ∀ d, pgSeam d ≠ q₀) (k_echo : ∀ d, pgEcho d ≠ q₀) (k_ctx : ∀ d, pgCtx d ≠ q₀) (k_chute : ∀ d i, pgChute d i ≠ q₀) (k_debug : ∀ d, pgDebug d ≠ q₀) (k_ijl : ∀ d, pgIjl d ≠ q₀) (hU : Keeps q₀ s₀ s) : Keeps q₀ s₀ (pageDone s p) := by
  unfold pageDone
  try dsimp only
  repeat' first
    | with_reducible assumption
    | with_reducible exact k_die _
    | with_reducible exact k_mode _
    | with_reducible exact k_tb _
    | with_reducible exact k_tsync
    | with_reducible exact k_fence _
    | with_reducible exact k_inject _
    | with_reducible exact k_assay _
    | with_reducible exact k_thermal _
    | with_reducible exact k_memctl _
    | with_reducible exact k_hoistGlobal _
    | with_reducible exact k_chuteGlobal _
    | with_reducible exact k_mbox _ _
    | with_reducible exact k_hp _ _
    | with_reducible exact k_enc _ _
    | with_reducible exact k_ax _ _
    | with_reducible exact k_seam _
    | with_reducible exact k_echo _
    | with_reducible exact k_ctx _
    | with_reducible exact k_chute _ _
    | with_reducible exact k_debug _
    | with_reducible exact k_ijl _
    | intro _
    | with_reducible apply ite_keeps
    | with_reducible apply pageOff_keeps
    | with_reducible apply pageReset_keeps
    | with_reducible apply pageStart_keeps
    | with_reducible apply setFenceSt_keeps
    | with_reducible apply setPstate_keeps
    | split
    | with_reducible apply Keeps.lit

theorem enSet_keeps {p : Pg} {b : Bool} (kp : p ≠ q₀) (k_die : ∀ d, pgDie d ≠ q₀) (k_mode : ∀ d, pgMode d ≠ q₀) (k_tsync : pgTsync ≠ q₀) (k_fence : ∀ d, pgFence d ≠ q₀) (k_inject : ∀ d, pgInject d ≠ q₀) (k_memctl : ∀ d, pgMemctl d ≠ q₀) (k_hoistGlobal : ∀ d, pgHoistGlobal d ≠ q₀) (k_chuteGlobal : ∀ d, pgChuteGlobal d ≠ q₀) (k_mbox : ∀ d b, pgMbox d b ≠ q₀) (k_hp : ∀ d i, pgHp d i ≠ q₀) (k_enc : ∀ d i, pgEnc d i ≠ q₀) (k_ax : ∀ d i, pgAx d i ≠ q₀) (k_seam : ∀ d, pgSeam d ≠ q₀) (k_echo : ∀ d, pgEcho d ≠ q₀) (k_ctx : ∀ d, pgCtx d ≠ q₀) (k_hc : ∀ d i, pgHc d i ≠ q₀) (k_chute : ∀ d i, pgChute d i ≠ q₀) (k_debug : ∀ d, pgDebug d ≠ q₀) (k_ijl : ∀ d, pgIjl d ≠ q₀) (hU : Keeps q₀ s₀ s) : Keeps q₀ s₀ (enSet s p b) := by
  unfold enSet
  try dsimp only
  repeat' first
    | with_reducible assumption
    | with_reducible exact k_die _
    | with_reducible exact k_mode _
    | with_reducible exact k_tsync
    | with_reducible exact k_fence _
    | with_reducible exact k_inject _
    | with_reducible exact k_memctl _
    | with_reducible exact k_hoistGlobal _
    | with_reducible exact k_chuteGlobal _
    | with_reducible exact k_mbox _ _
    | with_reducible exact k_hp _ _
    | with_reducible exact k_enc _ _
    | with_reducible exact k_ax _ _
    | with_reducible exact k_seam _
    | with_reducible exact k_echo _
    | with_reducible exact k_ctx _
    | with_reducible exact k_hc _ _
    | with_reducible exact k_chute _ _
    | with_reducible exact k_debug _
    | with_reducible exact k_ijl _
    | intro _
    | with_reducible apply ite_keeps
    | with_reducible apply whenDo_keeps
    | with_reducible apply wb_keeps
    | with_reducible apply injFollow_keeps
    | with_reducible apply setFenceSt_keeps
    | with_reducible apply pageStart_keeps
    | with_reducible apply setPstate_keeps
    | with_reducible apply setLink_keeps
    | with_reducible apply pageShut_keeps
    | split
    | with_reducible apply Keeps.lit

theorem softReset_keeps {p : Pg} (kp : p ≠ q₀) (k_die : ∀ d, pgDie d ≠ q₀) (k_mode : ∀ d, pgMode d ≠ q₀) (k_tb : ∀ d, pgTb d ≠ q₀) (k_tsync : pgTsync ≠ q₀) (k_fence : ∀ d, pgFence d ≠ q₀) (k_inject : ∀ d, pgInject d ≠ q₀) (k_assay : ∀ d, pgAssay d ≠ q₀) (k_memctl : ∀ d, pgMemctl d ≠ q₀) (k_hoistGlobal : ∀ d, pgHoistGlobal d ≠ q₀) (k_chuteGlobal : ∀ d, pgChuteGlobal d ≠ q₀) (k_mbox : ∀ d b, pgMbox d b ≠ q₀) (k_hp : ∀ d i, pgHp d i ≠ q₀) (k_enc : ∀ d i, pgEnc d i ≠ q₀) (k_ax : ∀ d i, pgAx d i ≠ q₀) (k_seam : ∀ d, pgSeam d ≠ q₀) (k_echo : ∀ d, pgEcho d ≠ q₀) (k_ctx : ∀ d, pgCtx d ≠ q₀) (k_hc : ∀ d i, pgHc d i ≠ q₀) (k_chute : ∀ d i, pgChute d i ≠ q₀) (k_debug : ∀ d, pgDebug d ≠ q₀) (k_ijl : ∀ d, pgIjl d ≠ q₀) (hU : Keeps q₀ s₀ s) : Keeps q₀ s₀ (softReset s p) := by
  unfold softReset
  try dsimp only
  repeat' first
    | with_reducible assumption
    | with_reducible exact k_die _
    | with_reducible exact k_mode _
    | with_reducible exact k_tb _
    | with_reducible exact k_tsync
    | with_reducible exact k_fence _
    | with_reducible exact k_inject _
    | with_reducible exact k_assay _
    | with_reducible exact k_memctl _
    | with_reducible exact k_hoistGlobal _
    | with_reducible exact k_chuteGlobal _
    | with_reducible exact k_mbox _ _
    | with_reducible exact k_hp _ _
    | with_reducible exact k_enc _ _
    | with_reducible exact k_ax _ _
    | with_reducible exact k_seam _
    | with_reducible exact k_echo _
    | with_reducible exact k_ctx _
    | with_reducible exact k_hc _ _
    | with_reducible exact k_chute _ _
    | with_reducible exact k_debug _
    | with_reducible exact k_ijl _
    | intro _
    | with_reducible apply ite_keeps
    | with_reducible apply pageReset_keeps
    | with_reducible apply wb_keeps
    | with_reducible apply enSet_keeps
    | with_reducible apply setPstate_keeps
    | split
    | with_reducible apply Keeps.lit

theorem execBlockStarted_kept {p : Pg} (kp : p ≠ q₀) (k_die : ∀ d, pgDie d ≠ q₀) (k_mode : ∀ d, pgMode d ≠ q₀) (k_tsync : pgTsync ≠ q₀) (k_fence : ∀ d, pgFence d ≠ q₀) (k_inject : ∀ d, pgInject d ≠ q₀) (k_memctl : ∀ d, pgMemctl d ≠ q₀) (k_hoistGlobal : ∀ d, pgHoistGlobal d ≠ q₀) (k_chuteGlobal : ∀ d, pgChuteGlobal d ≠ q₀) (k_mbox : ∀ d b, pgMbox d b ≠ q₀) (k_hp : ∀ d i, pgHp d i ≠ q₀) (k_enc : ∀ d i, pgEnc d i ≠ q₀) (k_ax : ∀ d i, pgAx d i ≠ q₀) (k_seam : ∀ d, pgSeam d ≠ q₀) (k_echo : ∀ d, pgEcho d ≠ q₀) (k_ctx : ∀ d, pgCtx d ≠ q₀) (k_hc : ∀ d i, pgHc d i ≠ q₀) (k_chute : ∀ d i, pgChute d i ≠ q₀) (k_debug : ∀ d, pgDebug d ≠ q₀) (k_ijl : ∀ d, pgIjl d ≠ q₀) (hU : Keeps q₀ s₀ s) : Kept q₀ s₀ (execBlockStarted p s) := by
  unfold execBlockStarted
  try dsimp only
  repeat' first
    | with_reducible assumption
    | with_reducible exact k_die _
    | with_reducible exact k_mode _
    | with_reducible exact k_tsync
    | with_reducible exact k_fence _
    | with_reducible exact k_inject _
    | with_reducible exact k_memctl _
    | with_reducible exact k_hoistGlobal _
    | with_reducible exact k_chuteGlobal _
    | with_reducible exact k_mbox _ _
    | with_reducible exact k_hp _ _
    | with_reducible exact k_enc _ _
    | with_reducible exact k_ax _ _
    | with_reducible exact k_seam _
    | with_reducible exact k_echo _
    | with_reducible exact k_ctx _
    | with_reducible exact k_hc _ _
    | with_reducible exact k_chute _ _
    | with_reducible exact k_debug _
    | with_reducible exact k_ijl _
    | intro _
    | with_reducible apply ok_kept
    | with_reducible apply ite_kept
    | with_reducible apply ite_keeps
    | with_reducible exact ok_kept (by assumption)
    | with_reducible apply setFenceSt_keeps
    | with_reducible apply pageRun_keeps
    | with_reducible apply pageShut_keeps
    | split
    | with_reducible apply Keeps.lit

theorem execShutdownComplete_kept {p : Pg} (kp : p ≠ q₀) (k_die : ∀ d, pgDie d ≠ q₀) (k_mode : ∀ d, pgMode d ≠ q₀) (k_tb : ∀ d, pgTb d ≠ q₀) (k_tsync : pgTsync ≠ q₀) (k_fence : ∀ d, pgFence d ≠ q₀) (k_inject : ∀ d, pgInject d ≠ q₀) (k_assay : ∀ d, pgAssay d ≠ q₀) (k_thermal : ∀ d, pgThermal d ≠ q₀) (k_memctl : ∀ d, pgMemctl d ≠ q₀) (k_hoistGlobal : ∀ d, pgHoistGlobal d ≠ q₀) (k_chuteGlobal : ∀ d, pgChuteGlobal d ≠ q₀) (k_mbox : ∀ d b, pgMbox d b ≠ q₀) (k_hp : ∀ d i, pgHp d i ≠ q₀) (k_enc : ∀ d i, pgEnc d i ≠ q₀) (k_ax : ∀ d i, pgAx d i ≠ q₀) (k_seam : ∀ d, pgSeam d ≠ q₀) (k_echo : ∀ d, pgEcho d ≠ q₀) (k_ctx : ∀ d, pgCtx d ≠ q₀) (k_chute : ∀ d i, pgChute d i ≠ q₀) (k_debug : ∀ d, pgDebug d ≠ q₀) (k_ijl : ∀ d, pgIjl d ≠ q₀) (hU : Keeps q₀ s₀ s) : Kept q₀ s₀ (execShutdownComplete p s) := by
  unfold execShutdownComplete
  try dsimp only
  repeat' first
    | with_reducible assumption
    | with_reducible exact k_die _
    | with_reducible exact k_mode _
    | with_reducible exact k_tb _
    | with_reducible exact k_tsync
    | with_reducible exact k_fence _
    | with_reducible exact k_inject _
    | with_reducible exact k_assay _
    | with_reducible exact k_thermal _
    | with_reducible exact k_memctl _
    | with_reducible exact k_hoistGlobal _
    | with_reducible exact k_chuteGlobal _
    | with_reducible exact k_mbox _ _
    | with_reducible exact k_hp _ _
    | with_reducible exact k_enc _ _
    | with_reducible exact k_ax _ _
    | with_reducible exact k_seam _
    | with_reducible exact k_echo _
    | with_reducible exact k_ctx _
    | with_reducible exact k_chute _ _
    | with_reducible exact k_debug _
    | with_reducible exact k_ijl _
    | intro _
    | with_reducible apply ok_kept
    | with_reducible apply ite_kept
    | with_reducible apply ite_keeps
    | with_reducible exact ok_kept (by assumption)
    | with_reducible apply waitTick_keeps
    | with_reducible apply waitClock_keeps
    | with_reducible apply each_keeps
    | with_reducible apply waitSpare_keeps
    | with_reducible apply pageDone_keeps
    | split
    | with_reducible apply Keeps.lit

theorem resend_keeps {p : Pg} (hU : Keeps q₀ s₀ s) : Keeps q₀ s₀ (resend s p) := by
  unfold resend
  try dsimp only
  repeat' first
    | with_reducible assumption
    | intro _
    | with_reducible apply ite_keeps
    | with_reducible apply pageMsix_keeps
    | split
    | with_reducible apply Keeps.lit

theorem evtLat_keeps {p : Pg} {v : Word} (kp : p ≠ q₀) (hU : Keeps q₀ s₀ s) : Keeps q₀ s₀ (evtLat s p v) := by
  unfold evtLat
  try dsimp only
  repeat' first
    | with_reducible assumption
    | intro _
    | with_reducible apply ite_keeps
    | with_reducible apply resend_keeps
    | with_reducible apply wr_keeps
    | split
    | with_reducible apply Keeps.lit

theorem evtEn_keeps {p : Pg} {v : Word} (kp : p ≠ q₀) (hU : Keeps q₀ s₀ s) : Keeps q₀ s₀ (evtEn s p v) := by
  unfold evtEn
  try dsimp only
  repeat' first
    | with_reducible assumption
    | intro _
    | with_reducible apply ite_keeps
    | with_reducible apply resend_keeps
    | with_reducible apply wr_keeps
    | split
    | with_reducible apply Keeps.lit

theorem evtLvl_keeps {p : Pg} {v : Word} (kp : p ≠ q₀) (hU : Keeps q₀ s₀ s) : Keeps q₀ s₀ (evtLvl s p v) := by
  unfold evtLvl
  try dsimp only
  repeat' first
    | with_reducible assumption
    | intro _
    | with_reducible apply ite_keeps
    | with_reducible apply wr_keeps
    | with_reducible apply latch_keeps
    | split
    | with_reducible apply Keeps.lit

theorem evtSet_keeps {p : Pg} {v : Word} (kp : p ≠ q₀) (hU : Keeps q₀ s₀ s) : Keeps q₀ s₀ (evtSet s p v) := by
  unfold evtSet
  try dsimp only
  repeat' first
    | with_reducible assumption
    | intro _
    | with_reducible apply ite_keeps
    | with_reducible apply latch_keeps
    | split
    | with_reducible apply Keeps.lit

theorem evtVec_keeps {p : Pg} {v : Word} (kp : p ≠ q₀) (hU : Keeps q₀ s₀ s) : Keeps q₀ s₀ (evtVec s p v) := by
  unfold evtVec
  try dsimp only
  repeat' first
    | with_reducible assumption
    | intro _
    | with_reducible apply ite_keeps
    | with_reducible apply wr_keeps
    | split
    | with_reducible apply Keeps.lit

theorem errClear_keeps {p : Pg} {v : Word} (kp : p ≠ q₀) (hU : Keeps q₀ s₀ s) : Keeps q₀ s₀ (errClear s p v) := by
  unfold errClear
  try dsimp only
  repeat' first
    | with_reducible assumption
    | intro _
    | with_reducible apply ite_keeps
    | with_reducible apply wb_keeps
    | split
    | with_reducible apply Keeps.lit

theorem commitWrite_keeps {r : Req} {p : Pg} {v : Word} (kp : p ≠ q₀) (hU : Keeps q₀ s₀ s) : Keeps q₀ s₀ (commitWrite s r p v) := by
  unfold commitWrite
  try dsimp only
  repeat' first
    | with_reducible assumption
    | intro _
    | with_reducible apply ite_keeps
    | with_reducible apply logErr_keeps
    | with_reducible apply wb_keeps
    | with_reducible apply wf_keeps
    | with_reducible apply whenDo_keeps
    | split
    | with_reducible apply Keeps.lit

theorem pageHandOver_keeps {p : Pg} (kp : p ≠ q₀) (k_die : ∀ d, pgDie d ≠ q₀) (k_mode : ∀ d, pgMode d ≠ q₀) (k_tb : ∀ d, pgTb d ≠ q₀) (k_tsync : pgTsync ≠ q₀) (k_fence : ∀ d, pgFence d ≠ q₀) (k_assay : ∀ d, pgAssay d ≠ q₀) (k_hoistGlobal : ∀ d, pgHoistGlobal d ≠ q₀) (k_chuteGlobal : ∀ d, pgChuteGlobal d ≠ q₀) (k_hp : ∀ d i, pgHp d i ≠ q₀) (k_enc : ∀ d i, pgEnc d i ≠ q₀) (k_ax : ∀ d i, pgAx d i ≠ q₀) (k_pd : ∀ d, pgPd d ≠ q₀) (k_seam : ∀ d, pgSeam d ≠ q₀) (k_echo : ∀ d, pgEcho d ≠ q₀) (k_ctx : ∀ d, pgCtx d ≠ q₀) (k_chute : ∀ d i, pgChute d i ≠ q₀) (k_debug : ∀ d, pgDebug d ≠ q₀) (hU : Keeps q₀ s₀ s) : Keeps q₀ s₀ (pageHandOver s p) := by
  unfold pageHandOver
  try dsimp only
  repeat' first
    | with_reducible assumption
    | with_reducible exact k_die _
    | with_reducible exact k_mode _
    | with_reducible exact k_tb _
    | with_reducible exact k_tsync
    | with_reducible exact k_fence _
    | with_reducible exact k_assay _
    | with_reducible exact k_hoistGlobal _
    | with_reducible exact k_chuteGlobal _
    | with_reducible exact k_hp _ _
    | with_reducible exact k_enc _ _
    | with_reducible exact k_ax _ _
    | with_reducible exact k_pd _
    | with_reducible exact k_seam _
    | with_reducible exact k_echo _
    | with_reducible exact k_ctx _
    | with_reducible exact k_chute _ _
    | with_reducible exact k_debug _
    | intro _
    | with_reducible apply ite_keeps
    | with_reducible apply encHandOver_keeps
    | with_reducible apply hpHandOver_keeps
    | with_reducible apply pdHandOver_keeps
    | with_reducible apply tbHandOver_keeps
    | with_reducible apply tsHandOver_keeps
    | with_reducible apply axHandOver_keeps
    | with_reducible apply seamsUpdate_keeps
    | with_reducible apply takeShadows_keeps
    | split
    | with_reducible apply Keeps.lit

theorem execHandOver_kept {p : Pg} (kp : p ≠ q₀) (k_die : ∀ d, pgDie d ≠ q₀) (k_mode : ∀ d, pgMode d ≠ q₀) (k_tb : ∀ d, pgTb d ≠ q₀) (k_tsync : pgTsync ≠ q₀) (k_fence : ∀ d, pgFence d ≠ q₀) (k_assay : ∀ d, pgAssay d ≠ q₀) (k_hoistGlobal : ∀ d, pgHoistGlobal d ≠ q₀) (k_chuteGlobal : ∀ d, pgChuteGlobal d ≠ q₀) (k_hp : ∀ d i, pgHp d i ≠ q₀) (k_enc : ∀ d i, pgEnc d i ≠ q₀) (k_ax : ∀ d i, pgAx d i ≠ q₀) (k_pd : ∀ d, pgPd d ≠ q₀) (k_seam : ∀ d, pgSeam d ≠ q₀) (k_echo : ∀ d, pgEcho d ≠ q₀) (k_ctx : ∀ d, pgCtx d ≠ q₀) (k_chute : ∀ d i, pgChute d i ≠ q₀) (k_debug : ∀ d, pgDebug d ≠ q₀) (hU : Keeps q₀ s₀ s) : Kept q₀ s₀ (execHandOver p s) := by
  unfold execHandOver
  try dsimp only
  repeat' first
    | with_reducible assumption
    | with_reducible exact k_die _
    | with_reducible exact k_mode _
    | with_reducible exact k_tb _
    | with_reducible exact k_tsync
    | with_reducible exact k_fence _
    | with_reducible exact k_assay _
    | with_reducible exact k_hoistGlobal _
    | with_reducible exact k_chuteGlobal _
    | with_reducible exact k_hp _ _
    | with_reducible exact k_enc _ _
    | with_reducible exact k_ax _ _
    | with_reducible exact k_pd _
    | with_reducible exact k_seam _
    | with_reducible exact k_echo _
    | with_reducible exact k_ctx _
    | with_reducible exact k_chute _ _
    | with_reducible exact k_debug _
    | intro _
    | with_reducible apply ok_kept
    | with_reducible apply ite_kept
    | with_reducible apply ite_keeps
    | with_reducible exact ok_kept (by assumption)
    | with_reducible apply pageHandOver_keeps
    | with_reducible apply waitClock_keeps
    | split
    | with_reducible apply Keeps.lit

theorem primaryWrite_keeps {r : Req} {p : Pg} {eff : State → State} (kp : p ≠ q₀) (hU : Keeps q₀ s₀ s) (hf_eff : ∀ tU, Keeps q₀ s₀ tU → Keeps q₀ s₀ (eff tU)) : Keeps q₀ s₀ (primaryWrite s r p eff) := by
  unfold primaryWrite
  try dsimp only
  repeat' first
    | with_reducible assumption
    | intro _
    | with_reducible apply ite_keeps
    | with_reducible apply hf_eff
    | with_reducible apply logErr_keeps
    | split
    | with_reducible apply Keeps.lit

theorem execEnWrite_kept {r : Req} {p : Pg} {b : Bool} (kp : p ≠ q₀) (k_die : ∀ d, pgDie d ≠ q₀) (k_mode : ∀ d, pgMode d ≠ q₀) (k_tsync : pgTsync ≠ q₀) (k_fence : ∀ d, pgFence d ≠ q₀) (k_inject : ∀ d, pgInject d ≠ q₀) (k_memctl : ∀ d, pgMemctl d ≠ q₀) (k_hoistGlobal : ∀ d, pgHoistGlobal d ≠ q₀) (k_chuteGlobal : ∀ d, pgChuteGlobal d ≠ q₀) (k_mbox : ∀ d b, pgMbox d b ≠ q₀) (k_hp : ∀ d i, pgHp d i ≠ q₀) (k_enc : ∀ d i, pgEnc d i ≠ q₀) (k_ax : ∀ d i, pgAx d i ≠ q₀) (k_seam : ∀ d, pgSeam d ≠ q₀) (k_echo : ∀ d, pgEcho d ≠ q₀) (k_pcie : pgPcie ≠ q₀) (k_ctx : ∀ d, pgCtx d ≠ q₀) (k_hc : ∀ d i, pgHc d i ≠ q₀) (k_chute : ∀ d i, pgChute d i ≠ q₀) (k_guard : ∀ d, pgGuard d ≠ q₀) (k_debug : ∀ d, pgDebug d ≠ q₀) (k_ijl : ∀ d, pgIjl d ≠ q₀) (hU : Keeps q₀ s₀ s) : Kept q₀ s₀ (execEnWrite r p b s) := by
  unfold execEnWrite
  try dsimp only
  repeat' first
    | with_reducible assumption
    | with_reducible exact k_die _
    | with_reducible exact k_mode _
    | with_reducible exact k_tsync
    | with_reducible exact k_fence _
    | with_reducible exact k_inject _
    | with_reducible exact k_memctl _
    | with_reducible exact k_hoistGlobal _
    | with_reducible exact k_chuteGlobal _
    | with_reducible exact k_mbox _ _
    | with_reducible exact k_hp _ _
    | with_reducible exact k_enc _ _
    | with_reducible exact k_ax _ _
    | with_reducible exact k_seam _
    | with_reducible exact k_echo _
    | with_reducible exact k_pcie
    | with_reducible exact k_ctx _
    | with_reducible exact k_hc _ _
    | with_reducible exact k_chute _ _
    | with_reducible exact k_guard _
    | with_reducible exact k_debug _
    | with_reducible exact k_ijl _
    | intro _
    | with_reducible apply ok_kept
    | with_reducible apply ite_kept
    | with_reducible apply ite_keeps
    | with_reducible exact ok_kept (by assumption)
    | with_reducible apply guardedWrite_keeps
    | with_reducible apply primaryWrite_keeps
    | with_reducible apply enSet_keeps
    | split
    | with_reducible apply Keeps.lit

theorem execSoftReset_kept {r : Req} {p : Pg} (kp : p ≠ q₀) (k_die : ∀ d, pgDie d ≠ q₀) (k_mode : ∀ d, pgMode d ≠ q₀) (k_tb : ∀ d, pgTb d ≠ q₀) (k_tsync : pgTsync ≠ q₀) (k_fence : ∀ d, pgFence d ≠ q₀) (k_inject : ∀ d, pgInject d ≠ q₀) (k_assay : ∀ d, pgAssay d ≠ q₀) (k_memctl : ∀ d, pgMemctl d ≠ q₀) (k_hoistGlobal : ∀ d, pgHoistGlobal d ≠ q₀) (k_chuteGlobal : ∀ d, pgChuteGlobal d ≠ q₀) (k_mbox : ∀ d b, pgMbox d b ≠ q₀) (k_hp : ∀ d i, pgHp d i ≠ q₀) (k_enc : ∀ d i, pgEnc d i ≠ q₀) (k_ax : ∀ d i, pgAx d i ≠ q₀) (k_seam : ∀ d, pgSeam d ≠ q₀) (k_echo : ∀ d, pgEcho d ≠ q₀) (k_pcie : pgPcie ≠ q₀) (k_ctx : ∀ d, pgCtx d ≠ q₀) (k_hc : ∀ d i, pgHc d i ≠ q₀) (k_chute : ∀ d i, pgChute d i ≠ q₀) (k_guard : ∀ d, pgGuard d ≠ q₀) (k_debug : ∀ d, pgDebug d ≠ q₀) (k_ijl : ∀ d, pgIjl d ≠ q₀) (hU : Keeps q₀ s₀ s) : Kept q₀ s₀ (execSoftReset r p s) := by
  unfold execSoftReset
  try dsimp only
  repeat' first
    | with_reducible assumption
    | with_reducible exact k_die _
    | with_reducible exact k_mode _
    | with_reducible exact k_tb _
    | with_reducible exact k_tsync
    | with_reducible exact k_fence _
    | with_reducible exact k_inject _
    | with_reducible exact k_assay _
    | with_reducible exact k_memctl _
    | with_reducible exact k_hoistGlobal _
    | with_reducible exact k_chuteGlobal _
    | with_reducible exact k_mbox _ _
    | with_reducible exact k_hp _ _
    | with_reducible exact k_enc _ _
    | with_reducible exact k_ax _ _
    | with_reducible exact k_seam _
    | with_reducible exact k_echo _
    | with_reducible exact k_pcie
    | with_reducible exact k_ctx _
    | with_reducible exact k_hc _ _
    | with_reducible exact k_chute _ _
    | with_reducible exact k_guard _
    | with_reducible exact k_debug _
    | with_reducible exact k_ijl _
    | intro _
    | with_reducible apply ok_kept
    | with_reducible apply ite_kept
    | with_reducible apply ite_keeps
    | with_reducible exact ok_kept (by assumption)
    | with_reducible apply guardedWrite_keeps
    | with_reducible apply primaryWrite_keeps
    | with_reducible apply softReset_keeps
    | split
    | with_reducible apply Keeps.lit

theorem execEvtLatWrite_kept {r : Req} {p : Pg} {v : Word} (kp : p ≠ q₀) (k_pcie : pgPcie ≠ q₀) (k_guard : ∀ d, pgGuard d ≠ q₀) (hU : Keeps q₀ s₀ s) : Kept q₀ s₀ (execEvtLatWrite r p v s) := by
  unfold execEvtLatWrite
  try dsimp only
  repeat' first
    | with_reducible assumption
    | with_reducible exact k_pcie
    | with_reducible exact k_guard _
    | intro _
    | with_reducible apply ok_kept
    | with_reducible apply ite_kept
    | with_reducible apply ite_keeps
    | with_reducible exact ok_kept (by assumption)
    | with_reducible apply guardedWrite_keeps
    | with_reducible apply evtLat_keeps
    | split
    | with_reducible apply Keeps.lit

theorem execEvtEnWrite_kept {r : Req} {p : Pg} {v : Word} (kp : p ≠ q₀) (k_pcie : pgPcie ≠ q₀) (k_guard : ∀ d, pgGuard d ≠ q₀) (hU : Keeps q₀ s₀ s) : Kept q₀ s₀ (execEvtEnWrite r p v s) := by
  unfold execEvtEnWrite
  try dsimp only
  repeat' first
    | with_reducible assumption
    | with_reducible exact k_pcie
    | with_reducible exact k_guard _
    | intro _
    | with_reducible apply ok_kept
    | with_reducible apply ite_kept
    | with_reducible apply ite_keeps
    | with_reducible exact ok_kept (by assumption)
    | with_reducible apply guardedWrite_keeps
    | with_reducible apply evtEn_keeps
    | split
    | with_reducible apply Keeps.lit

theorem execEvtSetWrite_kept {r : Req} {p : Pg} {v : Word} (kp : p ≠ q₀) (k_pcie : pgPcie ≠ q₀) (k_guard : ∀ d, pgGuard d ≠ q₀) (hU : Keeps q₀ s₀ s) : Kept q₀ s₀ (execEvtSetWrite r p v s) := by
  unfold execEvtSetWrite
  try dsimp only
  repeat' first
    | with_reducible assumption
    | with_reducible exact k_pcie
    | with_reducible exact k_guard _
    | intro _
    | with_reducible apply ok_kept
    | with_reducible apply ite_kept
    | with_reducible apply ite_keeps
    | with_reducible exact ok_kept (by assumption)
    | with_reducible apply guardedWrite_keeps
    | with_reducible apply evtSet_keeps
    | split
    | with_reducible apply Keeps.lit

theorem execEvtVecWrite_kept {r : Req} {p : Pg} {v : Word} (kp : p ≠ q₀) (k_pcie : pgPcie ≠ q₀) (k_guard : ∀ d, pgGuard d ≠ q₀) (hU : Keeps q₀ s₀ s) : Kept q₀ s₀ (execEvtVecWrite r p v s) := by
  unfold execEvtVecWrite
  try dsimp only
  repeat' first
    | with_reducible assumption
    | with_reducible exact k_pcie
    | with_reducible exact k_guard _
    | intro _
    | with_reducible apply ok_kept
    | with_reducible apply ite_kept
    | with_reducible apply ite_keeps
    | with_reducible exact ok_kept (by assumption)
    | with_reducible apply guardedWrite_keeps
    | with_reducible apply evtVec_keeps
    | split
    | with_reducible apply Keeps.lit

theorem execErrInfoClear_kept {r : Req} {p : Pg} (kp : p ≠ q₀) (k_pcie : pgPcie ≠ q₀) (k_guard : ∀ d, pgGuard d ≠ q₀) (hU : Keeps q₀ s₀ s) : Kept q₀ s₀ (execErrInfoClear r p s) := by
  unfold execErrInfoClear
  try dsimp only
  repeat' first
    | with_reducible assumption
    | with_reducible exact k_pcie
    | with_reducible exact k_guard _
    | intro _
    | with_reducible apply ok_kept
    | with_reducible apply ite_kept
    | with_reducible apply ite_keeps
    | with_reducible exact ok_kept (by assumption)
    | with_reducible apply guardedWrite_keeps
    | with_reducible apply errClear_keeps
    | split
    | with_reducible apply Keeps.lit

theorem execCommitGo_kept {r : Req} {p : Pg} {v : Word} (kp : p ≠ q₀) (k_pcie : pgPcie ≠ q₀) (k_guard : ∀ d, pgGuard d ≠ q₀) (hU : Keeps q₀ s₀ s) : Kept q₀ s₀ (execCommitGo r p v s) := by
  unfold execCommitGo
  try dsimp only
  repeat' first
    | with_reducible assumption
    | with_reducible exact k_pcie
    | with_reducible exact k_guard _
    | intro _
    | with_reducible apply ok_kept
    | with_reducible apply ite_kept
    | with_reducible apply ite_keeps
    | with_reducible exact ok_kept (by assumption)
    | with_reducible apply guardedWrite_keeps
    | with_reducible apply commitWrite_keeps
    | split
    | with_reducible apply Keeps.lit

theorem execCommitCancel_kept {r : Req} {p : Pg} (kp : p ≠ q₀) (k_pcie : pgPcie ≠ q₀) (k_guard : ∀ d, pgGuard d ≠ q₀) (hU : Keeps q₀ s₀ s) : Kept q₀ s₀ (execCommitCancel r p s) := by
  unfold execCommitCancel
  try dsimp only
  repeat' first
    | with_reducible assumption
    | with_reducible exact k_pcie
    | with_reducible exact k_guard _
    | intro _
    | with_reducible apply ok_kept
    | with_reducible apply ite_kept
    | with_reducible apply ite_keeps
    | with_reducible exact ok_kept (by assumption)
    | with_reducible apply guardedWrite_keeps
    | with_reducible apply commitWrite_keeps
    | split
    | with_reducible apply Keeps.lit

end Sys2Proof.Laws
end

