-- ==== Sys2Proof/Laws/PcieReg.lean ====
section
/-!
SUPPORT. The register pages that each operation of `Machine/Pcie.lean` may write: every other page reads as before.
-/

set_option Elab.async false
set_option linter.unusedTactic false
set_option linter.unreachableTactic false
namespace Sys2Proof.Laws

open Sys2Proof.Machine

variable {q₀ : Pg} {s₀ s : State}

theorem readFails_keeps {x : HostRead} {code : Nat} (k_die : ∀ d, pgDie d ≠ q₀) (k_mode : ∀ d, pgMode d ≠ q₀) (k_tsync : pgTsync ≠ q₀) (k_fence : ∀ d, pgFence d ≠ q₀) (k_assay : ∀ d, pgAssay d ≠ q₀) (k_hoistGlobal : ∀ d, pgHoistGlobal d ≠ q₀) (k_chuteGlobal : ∀ d, pgChuteGlobal d ≠ q₀) (k_hp : ∀ d i, pgHp d i ≠ q₀) (k_enc : ∀ d i, pgEnc d i ≠ q₀) (k_ax : ∀ d i, pgAx d i ≠ q₀) (k_seam : ∀ d, pgSeam d ≠ q₀) (k_echo : ∀ d, pgEcho d ≠ q₀) (k_ctx : ∀ d, pgCtx d ≠ q₀) (k_hc : ∀ d i, pgHc d i ≠ q₀) (k_chute : ∀ d i, pgChute d i ≠ q₀) (k_debug : ∀ d, pgDebug d ≠ q₀) (hU : Keeps q₀ s₀ s) : Keeps q₀ s₀ (readFails s x code) := by
  unfold readFails
  try dsimp only
  repeat' first
    | with_reducible assumption
    | with_reducible exact k_die _
    | with_reducible exact k_mode _
    | with_reducible exact k_tsync
    | with_reducible exact k_fence _
    | with_reducible exact k_assay _
    | with_reducible exact k_hoistGlobal _
    | with_reducible exact k_chuteGlobal _
    | with_reducible exact k_hp _ _
    | with_reducible exact k_enc _ _
    | with_reducible exact k_ax _ _
    | with_reducible exact k_seam _
    | with_reducible exact k_echo _
    | with_reducible exact k_ctx _
    | with_reducible exact k_hc _ _
    | with_reducible exact k_chute _ _
    | with_reducible exact k_debug _
    | intro _
    | with_reducible apply ite_keeps
    | with_reducible apply hcFail_keeps
    | with_reducible apply setHoist_keeps
    | (with_reducible refine (?_ : Keeps q₀ s₀ (id _)); assumption)
    | split
    | with_reducible apply Keeps.lit

theorem readTimeout_keeps {n : Nat} {x : HostRead} (k_die : ∀ d, pgDie d ≠ q₀) (k_mode : ∀ d, pgMode d ≠ q₀) (k_tsync : pgTsync ≠ q₀) (k_fence : ∀ d, pgFence d ≠ q₀) (k_assay : ∀ d, pgAssay d ≠ q₀) (k_hoistGlobal : ∀ d, pgHoistGlobal d ≠ q₀) (k_chuteGlobal : ∀ d, pgChuteGlobal d ≠ q₀) (k_hp : ∀ d i, pgHp d i ≠ q₀) (k_enc : ∀ d i, pgEnc d i ≠ q₀) (k_ax : ∀ d i, pgAx d i ≠ q₀) (k_seam : ∀ d, pgSeam d ≠ q₀) (k_echo : ∀ d, pgEcho d ≠ q₀) (k_pcie : pgPcie ≠ q₀) (k_ctx : ∀ d, pgCtx d ≠ q₀) (k_hc : ∀ d i, pgHc d i ≠ q₀) (k_chute : ∀ d i, pgChute d i ≠ q₀) (k_debug : ∀ d, pgDebug d ≠ q₀) (hU : Keeps q₀ s₀ s) : Keeps q₀ s₀ (readTimeout s n x) := by
  unfold readTimeout
  try dsimp only
  repeat' first
    | with_reducible assumption
    | with_reducible exact k_die _
    | with_reducible exact k_mode _
    | with_reducible exact k_tsync
    | with_reducible exact k_fence _
    | with_reducible exact k_assay _
    | with_reducible exact k_hoistGlobal _
    | with_reducible exact k_chuteGlobal _
    | with_reducible exact k_hp _ _
    | with_reducible exact k_enc _ _
    | with_reducible exact k_ax _ _
    | with_reducible exact k_seam _
    | with_reducible exact k_echo _
    | with_reducible exact k_pcie
    | with_reducible exact k_ctx _
    | with_reducible exact k_hc _ _
    | with_reducible exact k_chute _ _
    | with_reducible exact k_debug _
    | intro _
    | with_reducible apply ite_keeps
    | with_reducible apply emit_keeps
    | with_reducible apply count_keeps
    | with_reducible apply readFails_keeps
    | with_reducible apply raise_keeps
    | split
    | with_reducible apply Keeps.lit

theorem linkErrors_keeps {n : Nat} (k_pcie : pgPcie ≠ q₀) (hU : Keeps q₀ s₀ s) : Keeps q₀ s₀ (linkErrors s n) := by
  unfold linkErrors
  try dsimp only
  repeat' first
    | with_reducible assumption
    | with_reducible exact k_pcie
    | intro _
    | with_reducible apply ite_keeps
    | with_reducible apply raise_keeps
    | with_reducible apply countBy_keeps
    | split
    | with_reducible apply Keeps.lit

theorem execCompletionTimeout_kept {e : ReadTimeout} (k_die : ∀ d, pgDie d ≠ q₀) (k_mode : ∀ d, pgMode d ≠ q₀) (k_tsync : pgTsync ≠ q₀) (k_fence : ∀ d, pgFence d ≠ q₀) (k_assay : ∀ d, pgAssay d ≠ q₀) (k_hoistGlobal : ∀ d, pgHoistGlobal d ≠ q₀) (k_chuteGlobal : ∀ d, pgChuteGlobal d ≠ q₀) (k_hp : ∀ d i, pgHp d i ≠ q₀) (k_enc : ∀ d i, pgEnc d i ≠ q₀) (k_ax : ∀ d i, pgAx d i ≠ q₀) (k_seam : ∀ d, pgSeam d ≠ q₀) (k_echo : ∀ d, pgEcho d ≠ q₀) (k_pcie : pgPcie ≠ q₀) (k_ctx : ∀ d, pgCtx d ≠ q₀) (k_hc : ∀ d i, pgHc d i ≠ q₀) (k_chute : ∀ d i, pgChute d i ≠ q₀) (k_debug : ∀ d, pgDebug d ≠ q₀) (hU : Keeps q₀ s₀ s) : Kept q₀ s₀ (execCompletionTimeout e s) := by
  unfold execCompletionTimeout
  try dsimp only
  repeat' first
    | with_reducible assumption
    | with_reducible exact k_die _
    | with_reducible exact k_mode _
    | with_reducible exact k_tsync
    | with_reducible exact k_fence _
    | with_reducible exact k_assay _
    | with_reducible exact k_hoistGlobal _
    | with_reducible exact k_chuteGlobal _
    | with_reducible exact k_hp _ _
    | with_reducible exact k_enc _ _
    | with_reducible exact k_ax _ _
    | with_reducible exact k_seam _
    | with_reducible exact k_echo _
    | with_reducible exact k_pcie
    | with_reducible exact k_ctx _
    | with_reducible exact k_hc _ _
    | with_reducible exact k_chute _ _
    | with_reducible exact k_debug _
    | intro _
    | with_reducible apply ok_kept
    | with_reducible apply ite_kept
    | with_reducible apply ite_keeps
    | with_reducible exact ok_kept (by assumption)
    | with_reducible apply readTimeout_keeps
    | with_reducible apply linkErrors_keeps
    | split
    | with_reducible apply Keeps.lit

theorem execMsixPendingSend_kept {v : Nat} (hU : Keeps q₀ s₀ s) : Kept q₀ s₀ (execMsixPendingSend v s) := by
  unfold execMsixPendingSend
  try dsimp only
  repeat' first
    | with_reducible assumption
    | intro _
    | with_reducible apply ok_kept
    | with_reducible apply ite_kept
    | with_reducible apply ite_keeps
    | with_reducible exact ok_kept (by assumption)
    | with_reducible apply emit_keeps
    | with_reducible apply msix_keeps
    | split
    | with_reducible apply Keeps.lit

theorem mirrorsSend_keeps {d : Nat} (hU : Keeps q₀ s₀ s) : Keeps q₀ s₀ (mirrorsSend s d) := by
  unfold mirrorsSend
  try dsimp only
  repeat' first
    | with_reducible assumption
    | intro _
    | with_reducible apply ite_keeps
    | with_reducible apply each_keeps
    | with_reducible apply whenDo_keeps
    | with_reducible apply mirrorWrite_keeps
    | split
    | with_reducible apply Keeps.lit

theorem recordsSend_keeps {d : Nat} (k_hoistGlobal : ∀ d, pgHoistGlobal d ≠ q₀) (k_hc : ∀ d i, pgHc d i ≠ q₀) (hU : Keeps q₀ s₀ s) : Keeps q₀ s₀ (recordsSend s d) := by
  unfold recordsSend
  try dsimp only
  repeat' first
    | with_reducible assumption
    | with_reducible exact k_hoistGlobal _
    | with_reducible exact k_hc _ _
    | intro _
    | with_reducible apply ite_keeps
    | with_reducible apply each_keeps
    | with_reducible apply cqWrite_keeps
    | split
    | with_reducible apply Keeps.lit

theorem bmeSet_keeps {b : Bool} (k_hoistGlobal : ∀ d, pgHoistGlobal d ≠ q₀) (k_hc : ∀ d i, pgHc d i ≠ q₀) (hU : Keeps q₀ s₀ s) : Keeps q₀ s₀ (bmeSet s b) := by
  unfold bmeSet
  try dsimp only
  repeat' first
    | with_reducible assumption
    | with_reducible exact k_hoistGlobal _
    | with_reducible exact k_hc _ _
    | intro _
    | with_reducible apply ite_keeps
    | with_reducible apply each_keeps
    | with_reducible apply recordsSend_keeps
    | with_reducible apply mirrorsSend_keeps
    | split
    | with_reducible apply Keeps.lit

theorem execBusMasterEnable_kept (k_hoistGlobal : ∀ d, pgHoistGlobal d ≠ q₀) (k_hc : ∀ d i, pgHc d i ≠ q₀) (hU : Keeps q₀ s₀ s) : Kept q₀ s₀ (execBusMasterEnable s) := by
  unfold execBusMasterEnable
  try dsimp only
  repeat' first
    | with_reducible assumption
    | with_reducible exact k_hoistGlobal _
    | with_reducible exact k_hc _ _
    | intro _
    | with_reducible apply ok_kept
    | with_reducible apply ite_kept
    | with_reducible apply ite_keeps
    | with_reducible exact ok_kept (by assumption)
    | with_reducible apply bmeSet_keeps
    | split
    | with_reducible apply Keeps.lit

theorem configReset_keeps (hU : Keeps q₀ s₀ s) : Keeps q₀ s₀ (configReset s) := by
  unfold configReset
  try dsimp only
  repeat' first
    | with_reducible assumption
    | intro _
    | with_reducible apply ite_keeps
    | split
    | with_reducible apply Keeps.lit

theorem readsAbandon_keeps (k_die : ∀ d, pgDie d ≠ q₀) (k_mode : ∀ d, pgMode d ≠ q₀) (k_tsync : pgTsync ≠ q₀) (k_fence : ∀ d, pgFence d ≠ q₀) (k_assay : ∀ d, pgAssay d ≠ q₀) (k_hoistGlobal : ∀ d, pgHoistGlobal d ≠ q₀) (k_chuteGlobal : ∀ d, pgChuteGlobal d ≠ q₀) (k_hp : ∀ d i, pgHp d i ≠ q₀) (k_enc : ∀ d i, pgEnc d i ≠ q₀) (k_ax : ∀ d i, pgAx d i ≠ q₀) (k_seam : ∀ d, pgSeam d ≠ q₀) (k_echo : ∀ d, pgEcho d ≠ q₀) (k_ctx : ∀ d, pgCtx d ≠ q₀) (k_hc : ∀ d i, pgHc d i ≠ q₀) (k_chute : ∀ d i, pgChute d i ≠ q₀) (k_debug : ∀ d, pgDebug d ≠ q₀) (hU : Keeps q₀ s₀ s) : Keeps q₀ s₀ (readsAbandon s) := by
  unfold readsAbandon
  try dsimp only
  repeat' first
    | with_reducible assumption
    | with_reducible exact k_die _
    | with_reducible exact k_mode _
    | with_reducible exact k_tsync
    | with_reducible exact k_fence _
    | with_reducible exact k_assay _
    | with_reducible exact k_hoistGlobal _
    | with_reducible exact k_chuteGlobal _
    | with_reducible exact k_hp _ _
    | with_reducible exact k_enc _ _
    | with_reducible exact k_ax _ _
    | with_reducible exact k_seam _
    | with_reducible exact k_echo _
    | with_reducible exact k_ctx _
    | with_reducible exact k_hc _ _
    | with_reducible exact k_chute _ _
    | with_reducible exact k_debug _
    | intro _
    | with_reducible apply ite_keeps
    | with_reducible apply each_keeps
    | with_reducible apply readFails_keeps
    | split
    | with_reducible apply Keeps.lit

theorem eventsOff_keeps {d : Nat} (k_nsec : q₀.sec = true) (hU : Keeps q₀ s₀ s) : Keeps q₀ s₀ (eventsOff s d) := by
  refine ⟨fun o => ?_, hU.shadows⟩
  rw [← hU.regs o]
  exact Tbl.get_drop_apart _ (fun k : RegKey => decide (k.1.die = d) && !k.1.sec && decide (k.2 = Off.EVT_EN))
    (by simp [k_nsec]) _

theorem functionReset_keeps (k_die : ∀ d, pgDie d ≠ q₀) (k_mode : ∀ d, pgMode d ≠ q₀) (k_tsync : pgTsync ≠ q₀) (k_fence : ∀ d, pgFence d ≠ q₀) (k_assay : ∀ d, pgAssay d ≠ q₀) (k_hoistGlobal : ∀ d, pgHoistGlobal d ≠ q₀) (k_chuteGlobal : ∀ d, pgChuteGlobal d ≠ q₀) (k_mbox : ∀ d b, pgMbox d b ≠ q₀) (k_hp : ∀ d i, pgHp d i ≠ q₀) (k_enc : ∀ d i, pgEnc d i ≠ q₀) (k_ax : ∀ d i, pgAx d i ≠ q₀) (k_seam : ∀ d, pgSeam d ≠ q₀) (k_echo : ∀ d, pgEcho d ≠ q₀) (k_pcie : pgPcie ≠ q₀) (k_ctx : ∀ d, pgCtx d ≠ q₀) (k_hc : ∀ d i, pgHc d i ≠ q₀) (k_chute : ∀ d i, pgChute d i ≠ q₀) (k_debug : ∀ d, pgDebug d ≠ q₀) (k_nsec : q₀.sec = true) (hU : Keeps q₀ s₀ s) : Keeps q₀ s₀ (functionReset s) := by
  unfold functionReset
  try dsimp only
  repeat' first
    | with_reducible assumption
    | with_reducible exact k_die _
    | with_reducible exact k_mode _
    | with_reducible exact k_tsync
    | with_reducible exact k_fence _
    | with_reducible exact k_assay _
    | with_reducible exact k_hoistGlobal _
    | with_reducible exact k_chuteGlobal _
    | with_reducible exact k_mbox _ _
    | with_reducible exact k_hp _ _
    | with_reducible exact k_enc _ _
    | with_reducible exact k_ax _ _
    | with_reducible exact k_seam _
    | with_reducible exact k_echo _
    | with_reducible exact k_pcie
    | with_reducible exact k_ctx _
    | with_reducible exact k_hc _ _
    | with_reducible exact k_chute _ _
    | with_reducible exact k_debug _
    | intro _
    | with_reducible apply ite_keeps
    | with_reducible apply readsAbandon_keeps
    | with_reducible apply configReset_keeps
    | with_reducible apply each_keeps
    | with_reducible apply mbFlr_keeps
    | with_reducible apply eventsOff_keeps
    | with_reducible apply raise_keeps
    | with_reducible apply count_keeps
    | split
    | with_reducible apply Keeps.lit

theorem execFlr_kept (k_die : ∀ d, pgDie d ≠ q₀) (k_mode : ∀ d, pgMode d ≠ q₀) (k_tsync : pgTsync ≠ q₀) (k_fence : ∀ d, pgFence d ≠ q₀) (k_assay : ∀ d, pgAssay d ≠ q₀) (k_hoistGlobal : ∀ d, pgHoistGlobal d ≠ q₀) (k_chuteGlobal : ∀ d, pgChuteGlobal d ≠ q₀) (k_mbox : ∀ d b, pgMbox d b ≠ q₀) (k_hp : ∀ d i, pgHp d i ≠ q₀) (k_enc : ∀ d i, pgEnc d i ≠ q₀) (k_ax : ∀ d i, pgAx d i ≠ q₀) (k_seam : ∀ d, pgSeam d ≠ q₀) (k_echo : ∀ d, pgEcho d ≠ q₀) (k_pcie : pgPcie ≠ q₀) (k_ctx : ∀ d, pgCtx d ≠ q₀) (k_hc : ∀ d i, pgHc d i ≠ q₀) (k_chute : ∀ d i, pgChute d i ≠ q₀) (k_debug : ∀ d, pgDebug d ≠ q₀) (k_nsec : q₀.sec = true) (hU : Keeps q₀ s₀ s) : Kept q₀ s₀ (execFlr s) := by
  unfold execFlr
  try dsimp only
  repeat' first
    | with_reducible assumption
    | with_reducible exact k_die _
    | with_reducible exact k_mode _
    | with_reducible exact k_tsync
    | with_reducible exact k_fence _
    | with_reducible exact k_assay _
    | with_reducible exact k_hoistGlobal _
    | with_reducible exact k_chuteGlobal _
    | with_reducible exact k_mbox _ _
    | with_reducible exact k_hp _ _
    | with_reducible exact k_enc _ _
    | with_reducible exact k_ax _ _
    | with_reducible exact k_seam _
    | with_reducible exact k_echo _
    | with_reducible exact k_pcie
    | with_reducible exact k_ctx _
    | with_reducible exact k_hc _ _
    | with_reducible exact k_chute _ _
    | with_reducible exact k_debug _
    | intro _
    | with_reducible apply ok_kept
    | with_reducible apply ite_kept
    | with_reducible apply ite_keeps
    | with_reducible exact ok_kept (by assumption)
    | with_reducible apply functionReset_keeps
    | split
    | with_reducible apply Keeps.lit

theorem hostLinkDown_keeps {ltssm : Nat} (k_pcie : pgPcie ≠ q₀) (hU : Keeps q₀ s₀ s) : Keeps q₀ s₀ (hostLinkDown s ltssm) := by
  unfold hostLinkDown
  try dsimp only
  repeat' first
    | with_reducible assumption
    | with_reducible exact k_pcie
    | intro _
    | with_reducible apply ite_keeps
    | with_reducible apply wr_keeps
    | with_reducible apply raise_keeps
    | with_reducible apply count_keeps
    | split
    | with_reducible apply Keeps.lit

theorem hostLinkUp_keeps {gen : Nat} {width : Nat} {ltssm : Nat} (k_pcie : pgPcie ≠ q₀) (hU : Keeps q₀ s₀ s) : Keeps q₀ s₀ (hostLinkUp s gen width ltssm) := by
  unfold hostLinkUp
  try dsimp only
  repeat' first
    | with_reducible assumption
    | with_reducible exact k_pcie
    | intro _
    | with_reducible apply ite_keeps
    | with_reducible apply wr_keeps
    | with_reducible apply raise_keeps
    | split
    | with_reducible apply Keeps.lit

theorem execConventionalReset_kept (k_die : ∀ d, pgDie d ≠ q₀) (k_mode : ∀ d, pgMode d ≠ q₀) (k_tsync : pgTsync ≠ q₀) (k_fence : ∀ d, pgFence d ≠ q₀) (k_assay : ∀ d, pgAssay d ≠ q₀) (k_hoistGlobal : ∀ d, pgHoistGlobal d ≠ q₀) (k_chuteGlobal : ∀ d, pgChuteGlobal d ≠ q₀) (k_mbox : ∀ d b, pgMbox d b ≠ q₀) (k_hp : ∀ d i, pgHp d i ≠ q₀) (k_enc : ∀ d i, pgEnc d i ≠ q₀) (k_ax : ∀ d i, pgAx d i ≠ q₀) (k_seam : ∀ d, pgSeam d ≠ q₀) (k_echo : ∀ d, pgEcho d ≠ q₀) (k_pcie : pgPcie ≠ q₀) (k_ctx : ∀ d, pgCtx d ≠ q₀) (k_hc : ∀ d i, pgHc d i ≠ q₀) (k_chute : ∀ d i, pgChute d i ≠ q₀) (k_debug : ∀ d, pgDebug d ≠ q₀) (k_sess : ∀ d, pgSess d ≠ q₀) (k_nsec : q₀.sec = true) (hU : Keeps q₀ s₀ s) : Kept q₀ s₀ (execConventionalReset s) := by
  unfold execConventionalReset
  try dsimp only
  repeat' first
    | with_reducible assumption
    | with_reducible exact k_die _
    | with_reducible exact k_mode _
    | with_reducible exact k_tsync
    | with_reducible exact k_fence _
    | with_reducible exact k_assay _
    | with_reducible exact k_hoistGlobal _
    | with_reducible exact k_chuteGlobal _
    | with_reducible exact k_mbox _ _
    | with_reducible exact k_hp _ _
    | with_reducible exact k_enc _ _
    | with_reducible exact k_ax _ _
    | with_reducible exact k_seam _
    | with_reducible exact k_echo _
    | with_reducible exact k_pcie
    | with_reducible exact k_ctx _
    | with_reducible exact k_hc _ _
    | with_reducible exact k_chute _ _
    | with_reducible exact k_debug _
    | with_reducible exact k_sess _
    | intro _
    | with_reducible apply ok_kept
    | with_reducible apply ite_kept
    | with_reducible apply ite_keeps
    | with_reducible exact ok_kept (by assumption)
    | with_reducible apply each_keeps
    | with_reducible apply functionReset_keeps
    | with_reducible apply sessClose_keeps
    | with_reducible apply nextFree_keeps
    | with_reducible apply hostLinkDown_keeps
    | split
    | with_reducible apply Keeps.lit

theorem execPcieLinkUp_kept {gen : Nat} {width : Nat} {ltssm : Nat} (k_pcie : pgPcie ≠ q₀) (hU : Keeps q₀ s₀ s) : Kept q₀ s₀ (execPcieLinkUp gen width ltssm s) := by
  unfold execPcieLinkUp
  try dsimp only
  repeat' first
    | with_reducible assumption
    | with_reducible exact k_pcie
    | intro _
    | with_reducible apply ok_kept
    | with_reducible apply ite_kept
    | with_reducible apply ite_keeps
    | with_reducible exact ok_kept (by assumption)
    | with_reducible apply hostLinkUp_keeps
    | split
    | with_reducible apply Keeps.lit

theorem execPcieLinkDown_kept {ltssm : Nat} (k_pcie : pgPcie ≠ q₀) (hU : Keeps q₀ s₀ s) : Kept q₀ s₀ (execPcieLinkDown ltssm s) := by
  unfold execPcieLinkDown
  try dsimp only
  repeat' first
    | with_reducible assumption
    | with_reducible exact k_pcie
    | intro _
    | with_reducible apply ok_kept
    | with_reducible apply ite_kept
    | with_reducible apply ite_keeps
    | with_reducible exact ok_kept (by assumption)
    | with_reducible apply hostLinkDown_keeps
    | split
    | with_reducible apply Keeps.lit

end Sys2Proof.Laws
end

