-- ==== Sys2Proof/Laws/BusReg.lean ====
section
/-!
SUPPORT. The register pages that each operation of `Machine/Bus.lean` may write: every other page reads as before.
-/

set_option Elab.async false
set_option linter.unusedTactic false
set_option linter.unreachableTactic false
namespace Sys2Proof.Laws

open Sys2Proof.Machine

variable {q₀ : Pg} {s₀ s : State}

theorem ctrlWrite_keeps {r : Req} {p : Pg} {v : Word} (kp : p ≠ q₀) (k_die : ∀ d, pgDie d ≠ q₀) (k_mode : ∀ d, pgMode d ≠ q₀) (k_tb : ∀ d, pgTb d ≠ q₀) (k_tsync : pgTsync ≠ q₀) (k_fence : ∀ d, pgFence d ≠ q₀) (k_inject : ∀ d, pgInject d ≠ q₀) (k_assay : ∀ d, pgAssay d ≠ q₀) (k_memctl : ∀ d, pgMemctl d ≠ q₀) (k_hoistGlobal : ∀ d, pgHoistGlobal d ≠ q₀) (k_chuteGlobal : ∀ d, pgChuteGlobal d ≠ q₀) (k_mbox : ∀ d b, pgMbox d b ≠ q₀) (k_hp : ∀ d i, pgHp d i ≠ q₀) (k_enc : ∀ d i, pgEnc d i ≠ q₀) (k_ax : ∀ d i, pgAx d i ≠ q₀) (k_seam : ∀ d, pgSeam d ≠ q₀) (k_echo : ∀ d, pgEcho d ≠ q₀) (k_ctx : ∀ d, pgCtx d ≠ q₀) (k_hc : ∀ d i, pgHc d i ≠ q₀) (k_chute : ∀ d i, pgChute d i ≠ q₀) (k_debug : ∀ d, pgDebug d ≠ q₀) (k_ijl : ∀ d, pgIjl d ≠ q₀) (hU : Keeps q₀ s₀ s) : Keeps q₀ s₀ (ctrlWrite s r p v) := by
  unfold ctrlWrite
  try dsimp only
  repeat' first
    | with_reducible assumption
    | with_reducible exact k_die _
    | with_reducible exact k_mode _
    | with_reducible exact k_tb _
    | with_reducible exact k_tsync
    | with_reducible exact k_fence _
    | with_reducible exact k_inject _
    | with_reducible exact k_assay _
    | with_reducible exact k_memctl _
    | with_reducible exact k_hoistGlobal _
    | with_reducible exact k_chuteGlobal _
    | with_reducible exact k_mbox _ _
    | with_reducible exact k_hp _ _
    | with_reducible exact k_enc _ _
    | with_reducible exact k_ax _ _
    | with_reducible exact k_seam _
    | with_reducible exact k_echo _
    | with_reducible exact k_ctx _
    | with_reducible exact k_hc _ _
    | with_reducible exact k_chute _ _
    | with_reducible exact k_debug _
    | with_reducible exact k_ijl _
    | intro _
    | with_reducible apply ite_keeps
    | with_reducible apply fenceWrite_keeps
    | with_reducible apply nextFree_keeps
    | with_reducible apply primaryWrite_keeps
    | with_reducible apply whenDo_keeps
    | with_reducible apply enSet_keeps
    | with_reducible apply softReset_keeps
    | split
    | with_reducible apply Keeps.lit

theorem hdrWrite_keeps {r : Req} {p : Pg} {off : Nat} {v : Word} (kp : p ≠ q₀) (k_die : ∀ d, pgDie d ≠ q₀) (k_mode : ∀ d, pgMode d ≠ q₀) (k_tb : ∀ d, pgTb d ≠ q₀) (k_tsync : pgTsync ≠ q₀) (k_fence : ∀ d, pgFence d ≠ q₀) (k_inject : ∀ d, pgInject d ≠ q₀) (k_assay : ∀ d, pgAssay d ≠ q₀) (k_memctl : ∀ d, pgMemctl d ≠ q₀) (k_hoistGlobal : ∀ d, pgHoistGlobal d ≠ q₀) (k_chuteGlobal : ∀ d, pgChuteGlobal d ≠ q₀) (k_mbox : ∀ d b, pgMbox d b ≠ q₀) (k_hp : ∀ d i, pgHp d i ≠ q₀) (k_enc : ∀ d i, pgEnc d i ≠ q₀) (k_ax : ∀ d i, pgAx d i ≠ q₀) (k_seam : ∀ d, pgSeam d ≠ q₀) (k_echo : ∀ d, pgEcho d ≠ q₀) (k_ctx : ∀ d, pgCtx d ≠ q₀) (k_hc : ∀ d i, pgHc d i ≠ q₀) (k_chute : ∀ d i, pgChute d i ≠ q₀) (k_debug : ∀ d, pgDebug d ≠ q₀) (k_ijl : ∀ d, pgIjl d ≠ q₀) (hU : Keeps q₀ s₀ s) : Keeps q₀ s₀ (hdrWrite s r p off v) := by
  unfold hdrWrite
  try dsimp only
  repeat' first
    | with_reducible assumption
    | with_reducible exact k_die _
    | with_reducible exact k_mode _
    | with_reducible exact k_tb _
    | with_reducible exact k_tsync
    | with_reducible exact k_fence _
    | with_reducible exact k_inject _
    | with_reducible exact k_assay _
    | with_reducible exact k_memctl _
    | with_reducible exact k_hoistGlobal _
    | with_reducible exact k_chuteGlobal _
    | with_reducible exact k_mbox _ _
    | with_reducible exact k_hp _ _
    | with_reducible exact k_enc _ _
    | with_reducible exact k_ax _ _
    | with_reducible exact k_seam _
    | with_reducible exact k_echo _
    | with_reducible exact k_ctx _
    | with_reducible exact k_hc _ _
    | with_reducible exact k_chute _ _
    | with_reducible exact k_debug _
    | with_reducible exact k_ijl _
    | intro _
    | with_reducible apply ite_keeps
    | with_reducible apply ctrlWrite_keeps
    | with_reducible apply commitWrite_keeps
    | with_reducible apply evtLat_keeps
    | with_reducible apply evtEn_keeps
    | with_reducible apply evtLvl_keeps
    | with_reducible apply evtVec_keeps
    | with_reducible apply evtSet_keeps
    | with_reducible apply errClear_keeps
    | split
    | with_reducible apply Keeps.lit

theorem ctxFollow_keeps {d : Nat} (k_ctx : ∀ d, pgCtx d ≠ q₀) (hU : Keeps q₀ s₀ s) : Keeps q₀ s₀ (ctxFollow s d) := by
  unfold ctxFollow
  try dsimp only
  repeat' first
    | with_reducible assumption
    | with_reducible exact k_ctx _
    | intro _
    | with_reducible apply ite_keeps
    | with_reducible apply setDyn_keeps
    | split
    | with_reducible apply Keeps.lit

theorem ctxWrite_keeps {r : Req} {p : Pg} {off : Nat} {v : Word} (kp : p ≠ q₀) (k_fence : ∀ d, pgFence d ≠ q₀) (k_memctl : ∀ d, pgMemctl d ≠ q₀) (k_chuteGlobal : ∀ d, pgChuteGlobal d ≠ q₀) (k_hp : ∀ d i, pgHp d i ≠ q₀) (k_seam : ∀ d, pgSeam d ≠ q₀) (k_echo : ∀ d, pgEcho d ≠ q₀) (k_pcie : pgPcie ≠ q₀) (k_ctx : ∀ d, pgCtx d ≠ q₀) (k_chute : ∀ d i, pgChute d i ≠ q₀) (k_guard : ∀ d, pgGuard d ≠ q₀) (hU : Keeps q₀ s₀ s) : Keeps q₀ s₀ (ctxWrite s r p off v) := by
  unfold ctxWrite
  try dsimp only
  repeat' first
    | with_reducible assumption
    | with_reducible exact k_fence _
    | with_reducible exact k_memctl _
    | with_reducible exact k_chuteGlobal _
    | with_reducible exact k_hp _ _
    | with_reducible exact k_seam _
    | with_reducible exact k_echo _
    | with_reducible exact k_pcie
    | with_reducible exact k_ctx _
    | with_reducible exact k_chute _ _
    | with_reducible exact k_guard _
    | intro _
    | with_reducible apply ite_keeps
    | with_reducible apply ctxCmdWrite_keeps
    | with_reducible apply ctxCommitWrite_keeps
    | with_reducible apply ctxFollow_keeps
    | with_reducible apply plainWrite_keeps
    | split
    | with_reducible apply Keeps.lit

theorem threshWrite_keeps {r : Req} {p : Pg} {v : Word} (kp : p ≠ q₀) (k_chuteGlobal : ∀ d, pgChuteGlobal d ≠ q₀) (hU : Keeps q₀ s₀ s) : Keeps q₀ s₀ (threshWrite s r p v) := by
  unfold threshWrite
  try dsimp only
  repeat' first
    | with_reducible assumption
    | with_reducible exact k_chuteGlobal _
    | intro _
    | with_reducible apply ite_keeps
    | with_reducible apply plainWrite_keeps
    | with_reducible apply wb_keeps
    | with_reducible apply cgFollow_keeps
    | with_reducible apply latch_keeps
    | split
    | with_reducible apply Keeps.lit

theorem chuteWrite_keeps {r : Req} {p : Pg} {off : Nat} {v : Word} (kp : p ≠ q₀) (k_chuteGlobal : ∀ d, pgChuteGlobal d ≠ q₀) (k_chute : ∀ d i, pgChute d i ≠ q₀) (hU : Keeps q₀ s₀ s) : Keeps q₀ s₀ (chuteWrite s r p off v) := by
  unfold chuteWrite
  try dsimp only
  repeat' first
    | with_reducible assumption
    | with_reducible exact k_chuteGlobal _
    | with_reducible exact k_chute _ _
    | intro _
    | with_reducible apply ite_keeps
    | with_reducible apply chutePush_keeps
    | with_reducible apply threshWrite_keeps
    | with_reducible apply plainWrite_keeps
    | with_reducible apply mirrorFollow_keeps
    | split
    | with_reducible apply Keeps.lit

theorem cqSizeSet_keeps {r : Req} {d : Nat} {q : Nat} {v : Word} (k_hoistGlobal : ∀ d, pgHoistGlobal d ≠ q₀) (hU : Keeps q₀ s₀ s) : Keeps q₀ s₀ (cqSizeSet s r d q v) := by
  unfold cqSizeSet
  try dsimp only
  repeat' first
    | with_reducible assumption
    | with_reducible exact k_hoistGlobal _
    | intro _
    | with_reducible apply ite_keeps
    | with_reducible apply plainWrite_keeps
    | with_reducible apply cqFollow_keeps
    | with_reducible apply wr_keeps
    | split
    | with_reducible apply Keeps.lit

theorem cqConsSet_keeps {r : Req} {d : Nat} {q : Nat} {v : Word} (k_hoistGlobal : ∀ d, pgHoistGlobal d ≠ q₀) (hU : Keeps q₀ s₀ s) : Keeps q₀ s₀ (cqConsSet s r d q v) := by
  unfold cqConsSet
  try dsimp only
  repeat' first
    | with_reducible assumption
    | with_reducible exact k_hoistGlobal _
    | intro _
    | with_reducible apply ite_keeps
    | with_reducible apply cqFollow_keeps
    | with_reducible apply plainWrite_keeps
    | split
    | with_reducible apply Keeps.lit

theorem hgWrite_keeps {r : Req} {p : Pg} {off : Nat} {v : Word} (kp : p ≠ q₀) (k_hoistGlobal : ∀ d, pgHoistGlobal d ≠ q₀) (hU : Keeps q₀ s₀ s) : Keeps q₀ s₀ (hgWrite s r p off v) := by
  unfold hgWrite
  try dsimp only
  repeat' first
    | with_reducible assumption
    | with_reducible exact k_hoistGlobal _
    | intro _
    | with_reducible apply ite_keeps
    | with_reducible apply cqSizeSet_keeps
    | with_reducible apply cqConsSet_keeps
    | with_reducible apply plainWrite_keeps
    | split
    | with_reducible apply Keeps.lit

theorem mboxWrite_keeps {r : Req} {p : Pg} {off : Nat} {v : Word} (kp : p ≠ q₀) (k_mbox : ∀ d b, pgMbox d b ≠ q₀) (hU : Keeps q₀ s₀ s) : Keeps q₀ s₀ (mboxWrite s r p off v) := by
  unfold mboxWrite
  try dsimp only
  repeat' first
    | with_reducible assumption
    | with_reducible exact k_mbox _ _
    | intro _
    | with_reducible apply ite_keeps
    | with_reducible apply inHdrWrite_keeps
    | with_reducible apply outAck_keeps
    | with_reducible apply plainWrite_keeps
    | split
    | with_reducible apply Keeps.lit

theorem tabCtrl_keeps {r : Req} {d : Nat} {v : Word} (k_assay : ∀ d, pgAssay d ≠ q₀) (hU : Keeps q₀ s₀ s) : Keeps q₀ s₀ (tabCtrl s r d v) := by
  unfold tabCtrl
  try dsimp only
  repeat' first
    | with_reducible assumption
    | with_reducible exact k_assay _
    | intro _
    | with_reducible apply ite_keeps
    | with_reducible apply whenDo_keeps
    | with_reducible apply tabRead_keeps
    | with_reducible apply tabWrite_keeps
    | with_reducible apply tabClear_keeps
    | split
    | with_reducible apply Keeps.lit

theorem echoWrite_keeps {r : Req} {p : Pg} {off : Nat} {v : Word} (kp : p ≠ q₀) (k_fence : ∀ d, pgFence d ≠ q₀) (k_memctl : ∀ d, pgMemctl d ≠ q₀) (k_chuteGlobal : ∀ d, pgChuteGlobal d ≠ q₀) (k_echo : ∀ d, pgEcho d ≠ q₀) (k_chute : ∀ d i, pgChute d i ≠ q₀) (hU : Keeps q₀ s₀ s) : Keeps q₀ s₀ (echoWrite s r p off v) := by
  unfold echoWrite
  try dsimp only
  repeat' first
    | with_reducible assumption
    | with_reducible exact k_fence _
    | with_reducible exact k_memctl _
    | with_reducible exact k_chuteGlobal _
    | with_reducible exact k_echo _
    | with_reducible exact k_chute _ _
    | intro _
    | with_reducible apply ite_keeps
    | with_reducible apply whenDo_keeps
    | with_reducible apply sweepStart_keeps
    | with_reducible apply sweepAbort_keeps
    | with_reducible apply nzCmd_keeps
    | with_reducible apply plainWrite_keeps
    | split
    | with_reducible apply Keeps.lit

theorem sessionWrite_keeps {r : Req} {p : Pg} {off : Nat} {v : Word} (kp : p ≠ q₀) (k_sess : ∀ d, pgSess d ≠ q₀) (hU : Keeps q₀ s₀ s) : Keeps q₀ s₀ (sessionWrite s r p off v) := by
  unfold sessionWrite
  try dsimp only
  repeat' first
    | with_reducible assumption
    | with_reducible exact k_sess _
    | intro _
    | with_reducible apply ite_keeps
    | with_reducible apply sessCtrlWrite_keeps
    | with_reducible apply sessCheck_keeps
    | with_reducible apply sessDataWrite_keeps
    | with_reducible apply plainWrite_keeps
    | split
    | with_reducible apply Keeps.lit

theorem tbWrite_keeps {r : Req} {p : Pg} {off : Nat} {v : Word} (kp : p ≠ q₀) (k_tb : ∀ d, pgTb d ≠ q₀) (hU : Keeps q₀ s₀ s) : Keeps q₀ s₀ (tbWrite s r p off v) := by
  unfold tbWrite
  try dsimp only
  repeat' first
    | with_reducible assumption
    | with_reducible exact k_tb _
    | intro _
    | with_reducible apply ite_keeps
    | with_reducible apply plainWrite_keeps
    | with_reducible apply tbFollow_keeps
    | split
    | with_reducible apply Keeps.lit

theorem blockWrite_keeps {r : Req} {p : Pg} {off : Nat} {v : Word} (kp : p ≠ q₀) (k_die : ∀ d, pgDie d ≠ q₀) (k_mode : ∀ d, pgMode d ≠ q₀) (k_tb : ∀ d, pgTb d ≠ q₀) (k_tsync : pgTsync ≠ q₀) (k_fence : ∀ d, pgFence d ≠ q₀) (k_inject : ∀ d, pgInject d ≠ q₀) (k_tally : ∀ d, pgTally d ≠ q₀) (k_assay : ∀ d, pgAssay d ≠ q₀) (k_thermal : ∀ d, pgThermal d ≠ q₀) (k_lamp : ∀ d, pgLamp d ≠ q₀) (k_memctl : ∀ d, pgMemctl d ≠ q₀) (k_retain : ∀ d, pgRetain d ≠ q₀) (k_hoistGlobal : ∀ d, pgHoistGlobal d ≠ q₀) (k_chuteGlobal : ∀ d, pgChuteGlobal d ≠ q₀) (k_mbox : ∀ d b, pgMbox d b ≠ q₀) (k_hp : ∀ d i, pgHp d i ≠ q₀) (k_enc : ∀ d i, pgEnc d i ≠ q₀) (k_ax : ∀ d i, pgAx d i ≠ q₀) (k_seam : ∀ d, pgSeam d ≠ q₀) (k_echo : ∀ d, pgEcho d ≠ q₀) (k_pcie : pgPcie ≠ q₀) (k_ctx : ∀ d, pgCtx d ≠ q₀) (k_hc : ∀ d i, pgHc d i ≠ q₀) (k_chute : ∀ d i, pgChute d i ≠ q₀) (k_guard : ∀ d, pgGuard d ≠ q₀) (k_debug : ∀ d, pgDebug d ≠ q₀) (k_ijl : ∀ d, pgIjl d ≠ q₀) (k_sess : ∀ d, pgSess d ≠ q₀) (k_fb : ∀ p, (pgKind p).fenceable = true → p ≠ q₀) (hU : Keeps q₀ s₀ s) : Keeps q₀ s₀ (blockWrite s r p off v) := by
  unfold blockWrite
  try dsimp only
  repeat' first
    | with_reducible assumption
    | with_reducible exact k_die _
    | with_reducible exact k_mode _
    | with_reducible exact k_tb _
    | with_reducible exact k_tsync
    | with_reducible exact k_fence _
    | with_reducible exact k_inject _
    | with_reducible exact k_tally _
    | with_reducible exact k_assay _
    | with_reducible exact k_thermal _
    | with_reducible exact k_lamp _
    | with_reducible exact k_memctl _
    | with_reducible exact k_retain _
    | with_reducible exact k_hoistGlobal _
    | with_reducible exact k_chuteGlobal _
    | with_reducible exact k_mbox _ _
    | with_reducible exact k_hp _ _
    | with_reducible exact k_enc _ _
    | with_reducible exact k_ax _ _
    | with_reducible exact k_seam _
    | with_reducible exact k_echo _
    | with_reducible exact k_pcie
    | with_reducible exact k_ctx _
    | with_reducible exact k_hc _ _
    | with_reducible exact k_chute _ _
    | with_reducible exact k_guard _
    | with_reducible exact k_debug _
    | with_reducible exact k_ijl _
    | with_reducible exact k_sess _
    | intro _
    | with_reducible apply ite_keeps
    | with_reducible apply modeReq_keeps
    | with_reducible apply modeLeadSet_keeps
    | with_reducible apply plainWrite_keeps
    | with_reducible apply tbWrite_keeps
    | with_reducible apply dieCtrl_keeps
    | with_reducible apply tlClearWrite_keeps
    | with_reducible apply asCmd_keeps
    | with_reducible apply tabCtrl_keeps
    | with_reducible apply whenDo_keeps
    | with_reducible apply lampStart_keeps
    | with_reducible apply histClear_keeps
    | with_reducible apply retDataWrite_keeps
    | with_reducible apply hgWrite_keeps
    | with_reducible apply cgFollow_keeps
    | with_reducible apply mboxWrite_keeps
    | with_reducible apply wfCtrlEff_keeps
    | with_reducible apply latTrigWrite_keeps
    | with_reducible apply axCmdAdd_keeps
    | with_reducible apply echoWrite_keeps
    | with_reducible apply ctxWrite_keeps
    | with_reducible apply hcCtrl_keeps
    | with_reducible apply chuteWrite_keeps
    | with_reducible apply guardSet_keeps
    | with_reducible apply dbgCtrlWrite_keeps
    | with_reducible apply ijlWrite_keeps
    | with_reducible apply sessionWrite_keeps
    | split
    | with_reducible apply Keeps.lit

theorem regEffect_keeps {r : Req} {p : Pg} {off : Nat} {v : Word} (kp : p ≠ q₀) (k_die : ∀ d, pgDie d ≠ q₀) (k_mode : ∀ d, pgMode d ≠ q₀) (k_tb : ∀ d, pgTb d ≠ q₀) (k_tsync : pgTsync ≠ q₀) (k_fence : ∀ d, pgFence d ≠ q₀) (k_inject : ∀ d, pgInject d ≠ q₀) (k_tally : ∀ d, pgTally d ≠ q₀) (k_assay : ∀ d, pgAssay d ≠ q₀) (k_thermal : ∀ d, pgThermal d ≠ q₀) (k_lamp : ∀ d, pgLamp d ≠ q₀) (k_memctl : ∀ d, pgMemctl d ≠ q₀) (k_retain : ∀ d, pgRetain d ≠ q₀) (k_hoistGlobal : ∀ d, pgHoistGlobal d ≠ q₀) (k_chuteGlobal : ∀ d, pgChuteGlobal d ≠ q₀) (k_mbox : ∀ d b, pgMbox d b ≠ q₀) (k_hp : ∀ d i, pgHp d i ≠ q₀) (k_enc : ∀ d i, pgEnc d i ≠ q₀) (k_ax : ∀ d i, pgAx d i ≠ q₀) (k_seam : ∀ d, pgSeam d ≠ q₀) (k_echo : ∀ d, pgEcho d ≠ q₀) (k_pcie : pgPcie ≠ q₀) (k_ctx : ∀ d, pgCtx d ≠ q₀) (k_hc : ∀ d i, pgHc d i ≠ q₀) (k_chute : ∀ d i, pgChute d i ≠ q₀) (k_guard : ∀ d, pgGuard d ≠ q₀) (k_debug : ∀ d, pgDebug d ≠ q₀) (k_ijl : ∀ d, pgIjl d ≠ q₀) (k_sess : ∀ d, pgSess d ≠ q₀) (k_fb : ∀ p, (pgKind p).fenceable = true → p ≠ q₀) (hU : Keeps q₀ s₀ s) : Keeps q₀ s₀ (regEffect r p off v s) := by
  unfold regEffect
  try dsimp only
  repeat' first
    | with_reducible assumption
    | with_reducible exact k_die _
    | with_reducible exact k_mode _
    | with_reducible exact k_tb _
    | with_reducible exact k_tsync
    | with_reducible exact k_fence _
    | with_reducible exact k_inject _
    | with_reducible exact k_tally _
    | with_reducible exact k_assay _
    | with_reducible exact k_thermal _
    | with_reducible exact k_lamp _
    | with_reducible exact k_memctl _
    | with_reducible exact k_retain _
    | with_reducible exact k_hoistGlobal _
    | with_reducible exact k_chuteGlobal _
    | with_reducible exact k_mbox _ _
    | with_reducible exact k_hp _ _
    | with_reducible exact k_enc _ _
    | with_reducible exact k_ax _ _
    | with_reducible exact k_seam _
    | with_reducible exact k_echo _
    | with_reducible exact k_pcie
    | with_reducible exact k_ctx _
    | with_reducible exact k_hc _ _
    | with_reducible exact k_chute _ _
    | with_reducible exact k_guard _
    | with_reducible exact k_debug _
    | with_reducible exact k_ijl _
    | with_reducible exact k_sess _
    | intro _
    | with_reducible apply ite_keeps
    | with_reducible apply hdrWrite_keeps
    | with_reducible apply logErr_keeps
    | with_reducible apply blockWrite_keeps
    | split
    | with_reducible apply Keeps.lit

theorem regWrite_keeps {r : Req} {p : Pg} {off : Nat} {v : Word} (kp : p ≠ q₀) (k_die : ∀ d, pgDie d ≠ q₀) (k_mode : ∀ d, pgMode d ≠ q₀) (k_tb : ∀ d, pgTb d ≠ q₀) (k_tsync : pgTsync ≠ q₀) (k_fence : ∀ d, pgFence d ≠ q₀) (k_inject : ∀ d, pgInject d ≠ q₀) (k_tally : ∀ d, pgTally d ≠ q₀) (k_assay : ∀ d, pgAssay d ≠ q₀) (k_thermal : ∀ d, pgThermal d ≠ q₀) (k_lamp : ∀ d, pgLamp d ≠ q₀) (k_memctl : ∀ d, pgMemctl d ≠ q₀) (k_retain : ∀ d, pgRetain d ≠ q₀) (k_hoistGlobal : ∀ d, pgHoistGlobal d ≠ q₀) (k_chuteGlobal : ∀ d, pgChuteGlobal d ≠ q₀) (k_mbox : ∀ d b, pgMbox d b ≠ q₀) (k_hp : ∀ d i, pgHp d i ≠ q₀) (k_enc : ∀ d i, pgEnc d i ≠ q₀) (k_ax : ∀ d i, pgAx d i ≠ q₀) (k_seam : ∀ d, pgSeam d ≠ q₀) (k_echo : ∀ d, pgEcho d ≠ q₀) (k_pcie : pgPcie ≠ q₀) (k_ctx : ∀ d, pgCtx d ≠ q₀) (k_hc : ∀ d i, pgHc d i ≠ q₀) (k_chute : ∀ d i, pgChute d i ≠ q₀) (k_guard : ∀ d, pgGuard d ≠ q₀) (k_debug : ∀ d, pgDebug d ≠ q₀) (k_ijl : ∀ d, pgIjl d ≠ q₀) (k_sess : ∀ d, pgSess d ≠ q₀) (k_fb : ∀ p, (pgKind p).fenceable = true → p ≠ q₀) (hU : Keeps q₀ s₀ s) : Keeps q₀ s₀ (regWrite s r p off v) := by
  unfold regWrite
  try dsimp only
  repeat' first
    | with_reducible assumption
    | with_reducible exact k_die _
    | with_reducible exact k_mode _
    | with_reducible exact k_tb _
    | with_reducible exact k_tsync
    | with_reducible exact k_fence _
    | with_reducible exact k_inject _
    | with_reducible exact k_tally _
    | with_reducible exact k_assay _
    | with_reducible exact k_thermal _
    | with_reducible exact k_lamp _
    | with_reducible exact k_memctl _
    | with_reducible exact k_retain _
    | with_reducible exact k_hoistGlobal _
    | with_reducible exact k_chuteGlobal _
    | with_reducible exact k_mbox _ _
    | with_reducible exact k_hp _ _
    | with_reducible exact k_enc _ _
    | with_reducible exact k_ax _ _
    | with_reducible exact k_seam _
    | with_reducible exact k_echo _
    | with_reducible exact k_pcie
    | with_reducible exact k_ctx _
    | with_reducible exact k_hc _ _
    | with_reducible exact k_chute _ _
    | with_reducible exact k_guard _
    | with_reducible exact k_debug _
    | with_reducible exact k_ijl _
    | with_reducible exact k_sess _
    | intro _
    | with_reducible apply ite_keeps
    | with_reducible apply guardedWrite_keeps
    | with_reducible apply regEffect_keeps
    | split
    | with_reducible apply Keeps.lit

theorem latCapture_keeps {r : Req} {p : Pg} {off : Nat} (hU : Keeps q₀ s₀ s) : Keeps q₀ s₀ (latCapture r p off s) := by
  unfold latCapture
  try dsimp only
  repeat' first
    | with_reducible assumption
    | intro _
    | with_reducible apply ite_keeps
    | split
    | with_reducible apply Keeps.lit

theorem regRead_keeps {r : Req} {p : Pg} {off : Nat} (kp : p ≠ q₀) (k_die : ∀ d, pgDie d ≠ q₀) (k_mode : ∀ d, pgMode d ≠ q₀) (k_tb : ∀ d, pgTb d ≠ q₀) (k_tsync : pgTsync ≠ q₀) (k_fence : ∀ d, pgFence d ≠ q₀) (k_assay : ∀ d, pgAssay d ≠ q₀) (k_memctl : ∀ d, pgMemctl d ≠ q₀) (k_retain : ∀ d, pgRetain d ≠ q₀) (k_hoistGlobal : ∀ d, pgHoistGlobal d ≠ q₀) (k_chuteGlobal : ∀ d, pgChuteGlobal d ≠ q₀) (k_hp : ∀ d i, pgHp d i ≠ q₀) (k_enc : ∀ d i, pgEnc d i ≠ q₀) (k_ax : ∀ d i, pgAx d i ≠ q₀) (k_seam : ∀ d, pgSeam d ≠ q₀) (k_echo : ∀ d, pgEcho d ≠ q₀) (k_pcie : pgPcie ≠ q₀) (k_ctx : ∀ d, pgCtx d ≠ q₀) (k_chute : ∀ d i, pgChute d i ≠ q₀) (k_guard : ∀ d, pgGuard d ≠ q₀) (k_debug : ∀ d, pgDebug d ≠ q₀) (hU : Keeps q₀ s₀ s) :
    Keeps q₀ s₀ (regRead s r p off) := by
  have g : ∀ t val, ∀ f : State → State, Keeps q₀ s₀ t → (∀ t, Keeps q₀ s₀ t → Keeps q₀ s₀ (f t)) →
      Keeps q₀ s₀ (guardedRead t r p off val f) := by
    intro t val f ht hf
    apply guardedRead_keeps <;> assumption
  unfold regRead
  split
  · apply ite_keeps
    · apply popRead_keeps <;> assumption
    · exact g _ _ _ hU fun _ h => h
  · apply ite_keeps
    · exact g _ _ _ hU fun _ h => by apply retDataRead_keeps <;> assumption
    · exact g _ _ _ hU fun _ h => h
  · refine g _ _ _ (ite_keeps ?_ hU) fun _ h => by apply latCapture_keeps <;> assumption
    apply axStatWait_keeps <;> assumption
  · exact g _ _ _ hU fun _ h => by apply latCapture_keeps <;> assumption

theorem shapedWrite_keeps {r : Req} {p : Pg} {off : Nat} {sh : Shape} {v : Word} (kp : p ≠ q₀) (k_die : ∀ d, pgDie d ≠ q₀) (k_mode : ∀ d, pgMode d ≠ q₀) (k_tb : ∀ d, pgTb d ≠ q₀) (k_tsync : pgTsync ≠ q₀) (k_fence : ∀ d, pgFence d ≠ q₀) (k_inject : ∀ d, pgInject d ≠ q₀) (k_tally : ∀ d, pgTally d ≠ q₀) (k_assay : ∀ d, pgAssay d ≠ q₀) (k_thermal : ∀ d, pgThermal d ≠ q₀) (k_lamp : ∀ d, pgLamp d ≠ q₀) (k_memctl : ∀ d, pgMemctl d ≠ q₀) (k_retain : ∀ d, pgRetain d ≠ q₀) (k_hoistGlobal : ∀ d, pgHoistGlobal d ≠ q₀) (k_chuteGlobal : ∀ d, pgChuteGlobal d ≠ q₀) (k_mbox : ∀ d b, pgMbox d b ≠ q₀) (k_hp : ∀ d i, pgHp d i ≠ q₀) (k_enc : ∀ d i, pgEnc d i ≠ q₀) (k_ax : ∀ d i, pgAx d i ≠ q₀) (k_seam : ∀ d, pgSeam d ≠ q₀) (k_echo : ∀ d, pgEcho d ≠ q₀) (k_pcie : pgPcie ≠ q₀) (k_ctx : ∀ d, pgCtx d ≠ q₀) (k_hc : ∀ d i, pgHc d i ≠ q₀) (k_chute : ∀ d i, pgChute d i ≠ q₀) (k_guard : ∀ d, pgGuard d ≠ q₀) (k_debug : ∀ d, pgDebug d ≠ q₀) (k_ijl : ∀ d, pgIjl d ≠ q₀) (k_sess : ∀ d, pgSess d ≠ q₀) (k_fb : ∀ p, (pgKind p).fenceable = true → p ≠ q₀) (hU : Keeps q₀ s₀ s) : Keeps q₀ s₀ (shapedWrite s r p off sh v) := by
  unfold shapedWrite
  try dsimp only
  repeat' first
    | with_reducible assumption
    | with_reducible exact k_die _
    | with_reducible exact k_mode _
    | with_reducible exact k_tb _
    | with_reducible exact k_tsync
    | with_reducible exact k_fence _
    | with_reducible exact k_inject _
    | with_reducible exact k_tally _
    | with_reducible exact k_assay _
    | with_reducible exact k_thermal _
    | with_reducible exact k_lamp _
    | with_reducible exact k_memctl _
    | with_reducible exact k_retain _
    | with_reducible exact k_hoistGlobal _
    | with_reducible exact k_chuteGlobal _
    | with_reducible exact k_mbox _ _
    | with_reducible exact k_hp _ _
    | with_reducible exact k_enc _ _
    | with_reducible exact k_ax _ _
    | with_reducible exact k_seam _
    | with_reducible exact k_echo _
    | with_reducible exact k_pcie
    | with_reducible exact k_ctx _
    | with_reducible exact k_hc _ _
    | with_reducible exact k_chute _ _
    | with_reducible exact k_guard _
    | with_reducible exact k_debug _
    | with_reducible exact k_ijl _
    | with_reducible exact k_sess _
    | intro _
    | with_reducible apply ite_keeps
    | with_reducible apply poisonRx_keeps
    | with_reducible apply regWrite_keeps
    | with_reducible apply guardedWrite_keeps
    | with_reducible apply logErr_keeps
    | split
    | with_reducible apply Keeps.lit

theorem msixTableWrite_keeps {v : Nat} {dw : Nat} {x : Nat} (hU : Keeps q₀ s₀ s) : Keeps q₀ s₀ (msixTableWrite s v dw x) := by
  unfold msixTableWrite
  try dsimp only
  repeat' first
    | with_reducible assumption
    | intro _
    | with_reducible apply ite_keeps
    | split
    | with_reducible apply Keeps.lit

theorem configWrite_keeps {field : Nat} {x : Nat} (k_die : ∀ d, pgDie d ≠ q₀) (k_mode : ∀ d, pgMode d ≠ q₀) (k_tsync : pgTsync ≠ q₀) (k_fence : ∀ d, pgFence d ≠ q₀) (k_assay : ∀ d, pgAssay d ≠ q₀) (k_hoistGlobal : ∀ d, pgHoistGlobal d ≠ q₀) (k_chuteGlobal : ∀ d, pgChuteGlobal d ≠ q₀) (k_mbox : ∀ d b, pgMbox d b ≠ q₀) (k_hp : ∀ d i, pgHp d i ≠ q₀) (k_enc : ∀ d i, pgEnc d i ≠ q₀) (k_ax : ∀ d i, pgAx d i ≠ q₀) (k_seam : ∀ d, pgSeam d ≠ q₀) (k_echo : ∀ d, pgEcho d ≠ q₀) (k_pcie : pgPcie ≠ q₀) (k_ctx : ∀ d, pgCtx d ≠ q₀) (k_hc : ∀ d i, pgHc d i ≠ q₀) (k_chute : ∀ d i, pgChute d i ≠ q₀) (k_debug : ∀ d, pgDebug d ≠ q₀) (k_nsec : q₀.sec = true) (hU : Keeps q₀ s₀ s) : Keeps q₀ s₀ (configWrite s field x) := by
  unfold configWrite
  try dsimp only
  repeat' first
    | with_reducible assumption
    | with_reducible exact k_die _
    | with_reducible exact k_mode _
    | with_reducible exact k_tsync
    | with_reducible exact k_fence _
    | with_reducible exact k_assay _
    | with_reducible exact k_hoistGlobal _
    | with_reducible exact k_chuteGlobal _
    | with_reducible exact k_mbox _ _
    | with_reducible exact k_hp _ _
    | with_reducible exact k_enc _ _
    | with_reducible exact k_ax _ _
    | with_reducible exact k_seam _
    | with_reducible exact k_echo _
    | with_reducible exact k_pcie
    | with_reducible exact k_ctx _
    | with_reducible exact k_hc _ _
    | with_reducible exact k_chute _ _
    | with_reducible exact k_debug _
    | intro _
    | with_reducible apply ite_keeps
    | with_reducible apply bmeSet_keeps
    | with_reducible apply functionReset_keeps
    | split
    | with_reducible apply Keeps.lit

theorem execUnsupportedRequest_kept {r : Req} {bar : Nat} {off : Nat} {write : Bool} (k_pcie : pgPcie ≠ q₀) (hU : Keeps q₀ s₀ s) : Kept q₀ s₀ (execUnsupportedRequest r bar off write s) := by
  unfold execUnsupportedRequest
  try dsimp only
  repeat' first
    | with_reducible assumption
    | with_reducible exact k_pcie
    | intro _
    | with_reducible apply ok_kept
    | with_reducible apply ite_kept
    | with_reducible apply ite_keeps
    | with_reducible exact ok_kept (by assumption)
    | with_reducible apply unsupported_keeps
    | split
    | with_reducible apply Keeps.lit

theorem lanesRead_keeps {r : Req} {p : Pg} {off : Nat} {n : Nat} (kp : p ≠ q₀) (k_die : ∀ d, pgDie d ≠ q₀) (k_mode : ∀ d, pgMode d ≠ q₀) (k_tb : ∀ d, pgTb d ≠ q₀) (k_tsync : pgTsync ≠ q₀) (k_fence : ∀ d, pgFence d ≠ q₀) (k_assay : ∀ d, pgAssay d ≠ q₀) (k_memctl : ∀ d, pgMemctl d ≠ q₀) (k_retain : ∀ d, pgRetain d ≠ q₀) (k_hoistGlobal : ∀ d, pgHoistGlobal d ≠ q₀) (k_chuteGlobal : ∀ d, pgChuteGlobal d ≠ q₀) (k_hp : ∀ d i, pgHp d i ≠ q₀) (k_enc : ∀ d i, pgEnc d i ≠ q₀) (k_ax : ∀ d i, pgAx d i ≠ q₀) (k_seam : ∀ d, pgSeam d ≠ q₀) (k_echo : ∀ d, pgEcho d ≠ q₀) (k_pcie : pgPcie ≠ q₀) (k_ctx : ∀ d, pgCtx d ≠ q₀) (k_chute : ∀ d i, pgChute d i ≠ q₀) (k_guard : ∀ d, pgGuard d ≠ q₀) (k_debug : ∀ d, pgDebug d ≠ q₀) (hU : Keeps q₀ s₀ s) : Keeps q₀ s₀ (lanesRead s r p off n) := by
  unfold lanesRead
  try dsimp only
  repeat' first
    | with_reducible assumption
    | with_reducible exact k_die _
    | with_reducible exact k_mode _
    | with_reducible exact k_tb _
    | with_reducible exact k_tsync
    | with_reducible exact k_fence _
    | with_reducible exact k_assay _
    | with_reducible exact k_memctl _
    | with_reducible exact k_retain _
    | with_reducible exact k_hoistGlobal _
    | with_reducible exact k_chuteGlobal _
    | with_reducible exact k_hp _ _
    | with_reducible exact k_enc _ _
    | with_reducible exact k_ax _ _
    | with_reducible exact k_seam _
    | with_reducible exact k_echo _
    | with_reducible exact k_pcie
    | with_reducible exact k_ctx _
    | with_reducible exact k_chute _ _
    | with_reducible exact k_guard _
    | with_reducible exact k_debug _
    | intro _
    | with_reducible apply ite_keeps
    | with_reducible apply regRead_keeps
    | split
    | with_reducible apply Keeps.lit

theorem execWideLRead_kept {r : Req} {t : Target} {n : Nat} (kt : ∀ p off, t = .reg p off → p ≠ q₀) (k_die : ∀ d, pgDie d ≠ q₀) (k_mode : ∀ d, pgMode d ≠ q₀) (k_tb : ∀ d, pgTb d ≠ q₀) (k_tsync : pgTsync ≠ q₀) (k_fence : ∀ d, pgFence d ≠ q₀) (k_assay : ∀ d, pgAssay d ≠ q₀) (k_memctl : ∀ d, pgMemctl d ≠ q₀) (k_retain : ∀ d, pgRetain d ≠ q₀) (k_hoistGlobal : ∀ d, pgHoistGlobal d ≠ q₀) (k_chuteGlobal : ∀ d, pgChuteGlobal d ≠ q₀) (k_hp : ∀ d i, pgHp d i ≠ q₀) (k_enc : ∀ d i, pgEnc d i ≠ q₀) (k_ax : ∀ d i, pgAx d i ≠ q₀) (k_seam : ∀ d, pgSeam d ≠ q₀) (k_echo : ∀ d, pgEcho d ≠ q₀) (k_pcie : pgPcie ≠ q₀) (k_ctx : ∀ d, pgCtx d ≠ q₀) (k_chute : ∀ d i, pgChute d i ≠ q₀) (k_guard : ∀ d, pgGuard d ≠ q₀) (k_debug : ∀ d, pgDebug d ≠ q₀)
    (hU : Keeps q₀ s₀ s) : Kept q₀ s₀ (execWideLRead r t n s) := by
  unfold execWideLRead
  refine ok_kept ?_
  split
  · have kp := kt _ _ rfl
    refine ite_keeps hU (ite_keeps ?_ ?_)
    · apply regRead_keeps <;> assumption
    · apply lanesRead_keeps <;> assumption
  all_goals exact ite_keeps hU (Keeps.lit hU)

end Sys2Proof.Laws
end

