-- ==== Sys2Proof/Laws/HoistReg.lean ====
section
/-!
SUPPORT. The register pages that each operation of `Machine/Hoist.lean` may write: every other page reads as before.
-/

set_option Elab.async false
set_option linter.unusedTactic false
set_option linter.unreachableTactic false
namespace Sys2Proof.Laws

open Sys2Proof.Machine

variable {q₀ : Pg} {s₀ s : State}

theorem hcCommand_keeps {r : Req} {d : Nat} {c : Nat} {i : Nat} (k_hoistGlobal : ∀ d, pgHoistGlobal d ≠ q₀) (k_chuteGlobal : ∀ d, pgChuteGlobal d ≠ q₀) (k_pcie : pgPcie ≠ q₀) (k_hc : ∀ d i, pgHc d i ≠ q₀) (k_chute : ∀ d i, pgChute d i ≠ q₀) (k_guard : ∀ d, pgGuard d ≠ q₀) (hU : Keeps q₀ s₀ s) : Keeps q₀ s₀ (hcCommand s r d c i) := by
  unfold hcCommand
  try dsimp only
  repeat' first
    | with_reducible assumption
    | with_reducible exact k_hoistGlobal _
    | with_reducible exact k_chuteGlobal _
    | with_reducible exact k_pcie
    | with_reducible exact k_hc _ _
    | with_reducible exact k_chute _ _
    | with_reducible exact k_guard _
    | intro _
    | with_reducible apply ite_keeps
    | with_reducible apply guardedWrite_keeps
    | with_reducible apply hcCtrl_keeps
    | split
    | with_reducible apply Keeps.lit

theorem execHcStart_kept {r : Req} {d : Nat} {c : Nat} (k_hoistGlobal : ∀ d, pgHoistGlobal d ≠ q₀) (k_chuteGlobal : ∀ d, pgChuteGlobal d ≠ q₀) (k_pcie : pgPcie ≠ q₀) (k_hc : ∀ d i, pgHc d i ≠ q₀) (k_chute : ∀ d i, pgChute d i ≠ q₀) (k_guard : ∀ d, pgGuard d ≠ q₀) (hU : Keeps q₀ s₀ s) : Kept q₀ s₀ (execHcStart r d c s) := by
  unfold execHcStart
  try dsimp only
  repeat' first
    | with_reducible assumption
    | with_reducible exact k_hoistGlobal _
    | with_reducible exact k_chuteGlobal _
    | with_reducible exact k_pcie
    | with_reducible exact k_hc _ _
    | with_reducible exact k_chute _ _
    | with_reducible exact k_guard _
    | intro _
    | with_reducible apply ok_kept
    | with_reducible apply ite_kept
    | with_reducible apply ite_keeps
    | with_reducible exact ok_kept (by assumption)
    | with_reducible apply hcCommand_keeps
    | split
    | with_reducible apply Keeps.lit

theorem execHcCancel_kept {r : Req} {d : Nat} {c : Nat} (k_hoistGlobal : ∀ d, pgHoistGlobal d ≠ q₀) (k_chuteGlobal : ∀ d, pgChuteGlobal d ≠ q₀) (k_pcie : pgPcie ≠ q₀) (k_hc : ∀ d i, pgHc d i ≠ q₀) (k_chute : ∀ d i, pgChute d i ≠ q₀) (k_guard : ∀ d, pgGuard d ≠ q₀) (hU : Keeps q₀ s₀ s) : Kept q₀ s₀ (execHcCancel r d c s) := by
  unfold execHcCancel
  try dsimp only
  repeat' first
    | with_reducible assumption
    | with_reducible exact k_hoistGlobal _
    | with_reducible exact k_chuteGlobal _
    | with_reducible exact k_pcie
    | with_reducible exact k_hc _ _
    | with_reducible exact k_chute _ _
    | with_reducible exact k_guard _
    | intro _
    | with_reducible apply ok_kept
    | with_reducible apply ite_kept
    | with_reducible apply ite_keeps
    | with_reducible exact ok_kept (by assumption)
    | with_reducible apply hcCommand_keeps
    | split
    | with_reducible apply Keeps.lit

theorem execHcResume_kept {r : Req} {d : Nat} {c : Nat} (k_hoistGlobal : ∀ d, pgHoistGlobal d ≠ q₀) (k_chuteGlobal : ∀ d, pgChuteGlobal d ≠ q₀) (k_pcie : pgPcie ≠ q₀) (k_hc : ∀ d i, pgHc d i ≠ q₀) (k_chute : ∀ d i, pgChute d i ≠ q₀) (k_guard : ∀ d, pgGuard d ≠ q₀) (hU : Keeps q₀ s₀ s) : Kept q₀ s₀ (execHcResume r d c s) := by
  unfold execHcResume
  try dsimp only
  repeat' first
    | with_reducible assumption
    | with_reducible exact k_hoistGlobal _
    | with_reducible exact k_chuteGlobal _
    | with_reducible exact k_pcie
    | with_reducible exact k_hc _ _
    | with_reducible exact k_chute _ _
    | with_reducible exact k_guard _
    | intro _
    | with_reducible apply ok_kept
    | with_reducible apply ite_kept
    | with_reducible apply ite_keeps
    | with_reducible exact ok_kept (by assumption)
    | with_reducible apply hcCommand_keeps
    | split
    | with_reducible apply Keeps.lit

theorem execHcAbort_kept {r : Req} {d : Nat} {c : Nat} (k_hoistGlobal : ∀ d, pgHoistGlobal d ≠ q₀) (k_chuteGlobal : ∀ d, pgChuteGlobal d ≠ q₀) (k_pcie : pgPcie ≠ q₀) (k_hc : ∀ d i, pgHc d i ≠ q₀) (k_chute : ∀ d i, pgChute d i ≠ q₀) (k_guard : ∀ d, pgGuard d ≠ q₀) (hU : Keeps q₀ s₀ s) : Kept q₀ s₀ (execHcAbort r d c s) := by
  unfold execHcAbort
  try dsimp only
  repeat' first
    | with_reducible assumption
    | with_reducible exact k_hoistGlobal _
    | with_reducible exact k_chuteGlobal _
    | with_reducible exact k_pcie
    | with_reducible exact k_hc _ _
    | with_reducible exact k_chute _ _
    | with_reducible exact k_guard _
    | intro _
    | with_reducible apply ok_kept
    | with_reducible apply ite_kept
    | with_reducible apply ite_keeps
    | with_reducible exact ok_kept (by assumption)
    | with_reducible apply hcCommand_keeps
    | split
    | with_reducible apply Keeps.lit

theorem execHcHold_kept {r : Req} {d : Nat} {c : Nat} {b : Bool} (k_hoistGlobal : ∀ d, pgHoistGlobal d ≠ q₀) (k_chuteGlobal : ∀ d, pgChuteGlobal d ≠ q₀) (k_pcie : pgPcie ≠ q₀) (k_hc : ∀ d i, pgHc d i ≠ q₀) (k_chute : ∀ d i, pgChute d i ≠ q₀) (k_guard : ∀ d, pgGuard d ≠ q₀) (hU : Keeps q₀ s₀ s) : Kept q₀ s₀ (execHcHold r d c b s) := by
  unfold execHcHold
  try dsimp only
  repeat' first
    | with_reducible assumption
    | with_reducible exact k_hoistGlobal _
    | with_reducible exact k_chuteGlobal _
    | with_reducible exact k_pcie
    | with_reducible exact k_hc _ _
    | with_reducible exact k_chute _ _
    | with_reducible exact k_guard _
    | intro _
    | with_reducible apply ok_kept
    | with_reducible apply ite_kept
    | with_reducible apply ite_keeps
    | with_reducible exact ok_kept (by assumption)
    | with_reducible apply guardedWrite_keeps
    | with_reducible apply hcCtrl_keeps
    | split
    | with_reducible apply Keeps.lit

theorem execHoistTrigger_kept {d : Nat} {c : Nat} (k_hc : ∀ d i, pgHc d i ≠ q₀) (hU : Keeps q₀ s₀ s) : Kept q₀ s₀ (execHoistTrigger d c s) := by
  unfold execHoistTrigger
  try dsimp only
  repeat' first
    | with_reducible assumption
    | with_reducible exact k_hc _ _
    | intro _
    | with_reducible apply ok_kept
    | with_reducible apply ite_kept
    | with_reducible apply ite_keeps
    | with_reducible exact ok_kept (by assumption)
    | with_reducible apply hcTrigger_keeps
    | split
    | with_reducible apply Keeps.lit

theorem execRunStart_kept {d : Nat} {c : Nat} (k_hc : ∀ d i, pgHc d i ≠ q₀) (hU : Keeps q₀ s₀ s) : Kept q₀ s₀ (execRunStart d c s) := by
  unfold execRunStart
  try dsimp only
  repeat' first
    | with_reducible assumption
    | with_reducible exact k_hc _ _
    | intro _
    | with_reducible apply ok_kept
    | with_reducible apply ite_kept
    | with_reducible apply ite_keeps
    | with_reducible exact ok_kept (by assumption)
    | with_reducible apply countMod_keeps
    | with_reducible apply wf_keeps
    | with_reducible apply raise_keeps
    | with_reducible apply setHoist_keeps
    | split
    | with_reducible apply Keeps.lit

theorem hcFetch_keeps {x0 : Nat} {x2 : Nat} {x3 : Nat} {x4 : Nat} (k_die : ∀ d, pgDie d ≠ q₀) (k_mode : ∀ d, pgMode d ≠ q₀) (k_tsync : pgTsync ≠ q₀) (k_fence : ∀ d, pgFence d ≠ q₀) (k_assay : ∀ d, pgAssay d ≠ q₀) (k_memctl : ∀ d, pgMemctl d ≠ q₀) (k_hoistGlobal : ∀ d, pgHoistGlobal d ≠ q₀) (k_chuteGlobal : ∀ d, pgChuteGlobal d ≠ q₀) (k_hp : ∀ d i, pgHp d i ≠ q₀) (k_enc : ∀ d i, pgEnc d i ≠ q₀) (k_ax : ∀ d i, pgAx d i ≠ q₀) (k_seam : ∀ d, pgSeam d ≠ q₀) (k_echo : ∀ d, pgEcho d ≠ q₀) (k_ctx : ∀ d, pgCtx d ≠ q₀) (k_hc : ∀ d i, pgHc d i ≠ q₀) (k_chute : ∀ d i, pgChute d i ≠ q₀) (k_debug : ∀ d, pgDebug d ≠ q₀) (hU : Keeps q₀ s₀ s) : Keeps q₀ s₀ (hcFetch x0 s x2 x3 x4).2 := by
  induction x0 generalizing s x2 x3 x4 with
  | zero => exact hU
  | succ n ih =>
    unfold hcFetch
    try dsimp only
    repeat' first
      | with_reducible assumption
      | with_reducible apply ih
      | with_reducible exact k_die _
      | with_reducible exact k_mode _
      | with_reducible exact k_tsync
      | with_reducible exact k_fence _
      | with_reducible exact k_assay _
      | with_reducible exact k_memctl _
      | with_reducible exact k_hoistGlobal _
      | with_reducible exact k_chuteGlobal _
      | with_reducible exact k_hp _ _
      | with_reducible exact k_enc _ _
      | with_reducible exact k_ax _ _
      | with_reducible exact k_seam _
      | with_reducible exact k_echo _
      | with_reducible exact k_ctx _
      | with_reducible exact k_hc _ _
      | with_reducible exact k_chute _ _
      | with_reducible exact k_debug _
      | intro _
      | with_reducible apply ite_keeps
      | with_reducible apply hcHalt_keeps
      | with_reducible apply readWord_keeps
      | with_reducible apply hcFail_keeps
      | (with_reducible refine pair_keeps (by assumption) ?_)
      | (with_reducible refine trip_keeps (by assumption) ?_)
      | split
      | with_reducible apply Keeps.lit

theorem hcInstr_keeps {d : Nat} {c : Nat} {op : Nat} {bad : List Word → Bool} {eff : State → List Word → State} (k_die : ∀ d, pgDie d ≠ q₀) (k_mode : ∀ d, pgMode d ≠ q₀) (k_tsync : pgTsync ≠ q₀) (k_fence : ∀ d, pgFence d ≠ q₀) (k_assay : ∀ d, pgAssay d ≠ q₀) (k_memctl : ∀ d, pgMemctl d ≠ q₀) (k_hoistGlobal : ∀ d, pgHoistGlobal d ≠ q₀) (k_chuteGlobal : ∀ d, pgChuteGlobal d ≠ q₀) (k_hp : ∀ d i, pgHp d i ≠ q₀) (k_enc : ∀ d i, pgEnc d i ≠ q₀) (k_ax : ∀ d i, pgAx d i ≠ q₀) (k_seam : ∀ d, pgSeam d ≠ q₀) (k_echo : ∀ d, pgEcho d ≠ q₀) (k_ctx : ∀ d, pgCtx d ≠ q₀) (k_hc : ∀ d i, pgHc d i ≠ q₀) (k_chute : ∀ d i, pgChute d i ≠ q₀) (k_debug : ∀ d, pgDebug d ≠ q₀) (hU : Keeps q₀ s₀ s) (hf_eff : ∀ tU x0, Keeps q₀ s₀ tU → Keeps q₀ s₀ (eff tU x0)) : Keeps q₀ s₀ (hcInstr s d c op bad eff) := by
  unfold hcInstr
  try dsimp only
  repeat' first
    | with_reducible assumption
    | with_reducible exact k_die _
    | with_reducible exact k_mode _
    | with_reducible exact k_tsync
    | with_reducible exact k_fence _
    | with_reducible exact k_assay _
    | with_reducible exact k_memctl _
    | with_reducible exact k_hoistGlobal _
    | with_reducible exact k_chuteGlobal _
    | with_reducible exact k_hp _ _
    | with_reducible exact k_enc _ _
    | with_reducible exact k_ax _ _
    | with_reducible exact k_seam _
    | with_reducible exact k_echo _
    | with_reducible exact k_ctx _
    | with_reducible exact k_hc _ _
    | with_reducible exact k_chute _ _
    | with_reducible exact k_debug _
    | intro _
    | with_reducible apply ite_keeps
    | with_reducible apply hf_eff
    | with_reducible apply hcFetch_keeps
    | with_reducible apply hcHalt_keeps
    | (with_reducible refine pair_keeps (by assumption) ?_)
    | split
    | with_reducible apply Keeps.lit

theorem hcNext_keeps {d : Nat} {c : Nat} {n : Nat} (hU : Keeps q₀ s₀ s) : Keeps q₀ s₀ (hcNext s d c n) := by
  unfold hcNext
  try dsimp only
  repeat' first
    | with_reducible assumption
    | intro _
    | with_reducible apply ite_keeps
    | with_reducible apply setHoist_keeps
    | split
    | with_reducible apply Keeps.lit

theorem moveBegin_keeps {d : Nat} {c : Nat} {ws : List Word} (hU : Keeps q₀ s₀ s) : Keeps q₀ s₀ (moveBegin s d c ws) := by
  unfold moveBegin
  try dsimp only
  repeat' first
    | with_reducible assumption
    | intro _
    | with_reducible apply ite_keeps
    | with_reducible apply setHoist_keeps
    | split
    | with_reducible apply Keeps.lit

theorem execHoistMove_kept {d : Nat} {c : Nat} (k_die : ∀ d, pgDie d ≠ q₀) (k_mode : ∀ d, pgMode d ≠ q₀) (k_tsync : pgTsync ≠ q₀) (k_fence : ∀ d, pgFence d ≠ q₀) (k_assay : ∀ d, pgAssay d ≠ q₀) (k_memctl : ∀ d, pgMemctl d ≠ q₀) (k_hoistGlobal : ∀ d, pgHoistGlobal d ≠ q₀) (k_chuteGlobal : ∀ d, pgChuteGlobal d ≠ q₀) (k_hp : ∀ d i, pgHp d i ≠ q₀) (k_enc : ∀ d i, pgEnc d i ≠ q₀) (k_ax : ∀ d i, pgAx d i ≠ q₀) (k_seam : ∀ d, pgSeam d ≠ q₀) (k_echo : ∀ d, pgEcho d ≠ q₀) (k_ctx : ∀ d, pgCtx d ≠ q₀) (k_hc : ∀ d i, pgHc d i ≠ q₀) (k_chute : ∀ d i, pgChute d i ≠ q₀) (k_debug : ∀ d, pgDebug d ≠ q₀) (hU : Keeps q₀ s₀ s) : Kept q₀ s₀ (execHoistMove d c s) := by
  unfold execHoistMove
  try dsimp only
  repeat' first
    | with_reducible assumption
    | with_reducible exact k_die _
    | with_reducible exact k_mode _
    | with_reducible exact k_tsync
    | with_reducible exact k_fence _
    | with_reducible exact k_assay _
    | with_reducible exact k_memctl _
    | with_reducible exact k_hoistGlobal _
    | with_reducible exact k_chuteGlobal _
    | with_reducible exact k_hp _ _
    | with_reducible exact k_enc _ _
    | with_reducible exact k_ax _ _
    | with_reducible exact k_seam _
    | with_reducible exact k_echo _
    | with_reducible exact k_ctx _
    | with_reducible exact k_hc _ _
    | with_reducible exact k_chute _ _
    | with_reducible exact k_debug _
    | intro _
    | with_reducible apply ok_kept
    | with_reducible apply ite_kept
    | with_reducible apply ite_keeps
    | with_reducible exact ok_kept (by assumption)
    | with_reducible apply hcInstr_keeps
    | with_reducible apply moveBegin_keeps
    | split
    | with_reducible apply Keeps.lit

theorem loopDo_keeps {d : Nat} {c : Nat} {ws : List Word} (hU : Keeps q₀ s₀ s) : Keeps q₀ s₀ (loopDo s d c ws) := by
  unfold loopDo
  try dsimp only
  repeat' first
    | with_reducible assumption
    | intro _
    | with_reducible apply ite_keeps
    | with_reducible apply setHoist_keeps
    | with_reducible apply nextFree_keeps
    | with_reducible apply hcNext_keeps
    | split
    | with_reducible apply Keeps.lit

theorem execHoistLoop_kept {d : Nat} {c : Nat} (k_die : ∀ d, pgDie d ≠ q₀) (k_mode : ∀ d, pgMode d ≠ q₀) (k_tsync : pgTsync ≠ q₀) (k_fence : ∀ d, pgFence d ≠ q₀) (k_assay : ∀ d, pgAssay d ≠ q₀) (k_memctl : ∀ d, pgMemctl d ≠ q₀) (k_hoistGlobal : ∀ d, pgHoistGlobal d ≠ q₀) (k_chuteGlobal : ∀ d, pgChuteGlobal d ≠ q₀) (k_hp : ∀ d i, pgHp d i ≠ q₀) (k_enc : ∀ d i, pgEnc d i ≠ q₀) (k_ax : ∀ d i, pgAx d i ≠ q₀) (k_seam : ∀ d, pgSeam d ≠ q₀) (k_echo : ∀ d, pgEcho d ≠ q₀) (k_ctx : ∀ d, pgCtx d ≠ q₀) (k_hc : ∀ d i, pgHc d i ≠ q₀) (k_chute : ∀ d i, pgChute d i ≠ q₀) (k_debug : ∀ d, pgDebug d ≠ q₀) (hU : Keeps q₀ s₀ s) : Kept q₀ s₀ (execHoistLoop d c s) := by
  unfold execHoistLoop
  try dsimp only
  repeat' first
    | with_reducible assumption
    | with_reducible exact k_die _
    | with_reducible exact k_mode _
    | with_reducible exact k_tsync
    | with_reducible exact k_fence _
    | with_reducible exact k_assay _
    | with_reducible exact k_memctl _
    | with_reducible exact k_hoistGlobal _
    | with_reducible exact k_chuteGlobal _
    | with_reducible exact k_hp _ _
    | with_reducible exact k_enc _ _
    | with_reducible exact k_ax _ _
    | with_reducible exact k_seam _
    | with_reducible exact k_echo _
    | with_reducible exact k_ctx _
    | with_reducible exact k_hc _ _
    | with_reducible exact k_chute _ _
    | with_reducible exact k_debug _
    | intro _
    | with_reducible apply ok_kept
    | with_reducible apply ite_kept
    | with_reducible apply ite_keeps
    | with_reducible exact ok_kept (by assumption)
    | with_reducible apply hcInstr_keeps
    | with_reducible apply loopDo_keeps
    | split
    | with_reducible apply Keeps.lit

theorem waitBegin_keeps {d : Nat} {c : Nat} {ws : List Word} (hU : Keeps q₀ s₀ s) : Keeps q₀ s₀ (waitBegin s d c ws) := by
  unfold waitBegin
  try dsimp only
  repeat' first
    | with_reducible assumption
    | intro _
    | with_reducible apply ite_keeps
    | with_reducible apply setHoist_keeps
    | split
    | with_reducible apply Keeps.lit

theorem execHoistWait_kept {d : Nat} {c : Nat} (k_die : ∀ d, pgDie d ≠ q₀) (k_mode : ∀ d, pgMode d ≠ q₀) (k_tsync : pgTsync ≠ q₀) (k_fence : ∀ d, pgFence d ≠ q₀) (k_assay : ∀ d, pgAssay d ≠ q₀) (k_memctl : ∀ d, pgMemctl d ≠ q₀) (k_hoistGlobal : ∀ d, pgHoistGlobal d ≠ q₀) (k_chuteGlobal : ∀ d, pgChuteGlobal d ≠ q₀) (k_hp : ∀ d i, pgHp d i ≠ q₀) (k_enc : ∀ d i, pgEnc d i ≠ q₀) (k_ax : ∀ d i, pgAx d i ≠ q₀) (k_seam : ∀ d, pgSeam d ≠ q₀) (k_echo : ∀ d, pgEcho d ≠ q₀) (k_ctx : ∀ d, pgCtx d ≠ q₀) (k_hc : ∀ d i, pgHc d i ≠ q₀) (k_chute : ∀ d i, pgChute d i ≠ q₀) (k_debug : ∀ d, pgDebug d ≠ q₀) (hU : Keeps q₀ s₀ s) : Kept q₀ s₀ (execHoistWait d c s) := by
  unfold execHoistWait
  try dsimp only
  repeat' first
    | with_reducible assumption
    | with_reducible exact k_die _
    | with_reducible exact k_mode _
    | with_reducible exact k_tsync
    | with_reducible exact k_fence _
    | with_reducible exact k_assay _
    | with_reducible exact k_memctl _
    | with_reducible exact k_hoistGlobal _
    | with_reducible exact k_chuteGlobal _
    | with_reducible exact k_hp _ _
    | with_reducible exact k_enc _ _
    | with_reducible exact k_ax _ _
    | with_reducible exact k_seam _
    | with_reducible exact k_echo _
    | with_reducible exact k_ctx _
    | with_reducible exact k_hc _ _
    | with_reducible exact k_chute _ _
    | with_reducible exact k_debug _
    | intro _
    | with_reducible apply ok_kept
    | with_reducible apply ite_kept
    | with_reducible apply ite_keeps
    | with_reducible exact ok_kept (by assumption)
    | with_reducible apply hcInstr_keeps
    | with_reducible apply waitBegin_keeps
    | split
    | with_reducible apply Keeps.lit

theorem waitDone_keeps {d : Nat} {c : Nat} (hU : Keeps q₀ s₀ s) : Keeps q₀ s₀ (waitDone s d c) := by
  unfold waitDone
  try dsimp only
  repeat' first
    | with_reducible assumption
    | intro _
    | with_reducible apply ite_keeps
    | with_reducible apply hcNext_keeps
    | with_reducible apply setHoist_keeps
    | split
    | with_reducible apply Keeps.lit

theorem execWaitSatisfied_kept {d : Nat} {c : Nat} (k_tb : ∀ d, pgTb d ≠ q₀) (k_hc : ∀ d i, pgHc d i ≠ q₀) (hU : Keeps q₀ s₀ s) : Kept q₀ s₀ (execWaitSatisfied d c s) := by
  unfold execWaitSatisfied
  try dsimp only
  repeat' first
    | with_reducible assumption
    | with_reducible exact k_tb _
    | with_reducible exact k_hc _ _
    | intro _
    | with_reducible apply ok_kept
    | with_reducible apply ite_kept
    | with_reducible apply ite_keeps
    | with_reducible exact ok_kept (by assumption)
    | with_reducible apply waitDone_keeps
    | with_reducible apply waitClock_keeps
    | with_reducible apply wf_keeps
    | split
    | with_reducible apply Keeps.lit

theorem execWaitTimeout_kept {d : Nat} {c : Nat} (k_die : ∀ d, pgDie d ≠ q₀) (k_mode : ∀ d, pgMode d ≠ q₀) (k_tb : ∀ d, pgTb d ≠ q₀) (k_tsync : pgTsync ≠ q₀) (k_fence : ∀ d, pgFence d ≠ q₀) (k_assay : ∀ d, pgAssay d ≠ q₀) (k_hoistGlobal : ∀ d, pgHoistGlobal d ≠ q₀) (k_chuteGlobal : ∀ d, pgChuteGlobal d ≠ q₀) (k_hp : ∀ d i, pgHp d i ≠ q₀) (k_enc : ∀ d i, pgEnc d i ≠ q₀) (k_ax : ∀ d i, pgAx d i ≠ q₀) (k_seam : ∀ d, pgSeam d ≠ q₀) (k_echo : ∀ d, pgEcho d ≠ q₀) (k_ctx : ∀ d, pgCtx d ≠ q₀) (k_hc : ∀ d i, pgHc d i ≠ q₀) (k_chute : ∀ d i, pgChute d i ≠ q₀) (k_debug : ∀ d, pgDebug d ≠ q₀) (hU : Keeps q₀ s₀ s) : Kept q₀ s₀ (execWaitTimeout d c s) := by
  unfold execWaitTimeout
  try dsimp only
  repeat' first
    | with_reducible assumption
    | with_reducible exact k_die _
    | with_reducible exact k_mode _
    | with_reducible exact k_tb _
    | with_reducible exact k_tsync
    | with_reducible exact k_fence _
    | with_reducible exact k_assay _
    | with_reducible exact k_hoistGlobal _
    | with_reducible exact k_chuteGlobal _
    | with_reducible exact k_hp _ _
    | with_reducible exact k_enc _ _
    | with_reducible exact k_ax _ _
    | with_reducible exact k_seam _
    | with_reducible exact k_echo _
    | with_reducible exact k_ctx _
    | with_reducible exact k_hc _ _
    | with_reducible exact k_chute _ _
    | with_reducible exact k_debug _
    | intro _
    | with_reducible apply ok_kept
    | with_reducible apply ite_kept
    | with_reducible apply ite_keeps
    | with_reducible exact ok_kept (by assumption)
    | with_reducible apply hcHalt_keeps
    | with_reducible apply waitClock_keeps
    | split
    | with_reducible apply Keeps.lit

theorem signalDo_keeps {d : Nat} {c : Nat} {kind : Nat} {ws : List Word} (k_hoistGlobal : ∀ d, pgHoistGlobal d ≠ q₀) (k_hc : ∀ d i, pgHc d i ≠ q₀) (hU : Keeps q₀ s₀ s) : Keeps q₀ s₀ (signalDo s d c kind ws) := by
  unfold signalDo
  try dsimp only
  repeat' first
    | with_reducible assumption
    | with_reducible exact k_hoistGlobal _
    | with_reducible exact k_hc _ _
    | intro _
    | with_reducible apply ite_keeps
    | with_reducible apply cqAppend_keeps
    | with_reducible apply setHoist_keeps
    | with_reducible apply hcFinish_keeps
    | split
    | with_reducible apply Keeps.lit

theorem execHoistSignal_kept {d : Nat} {c : Nat} (k_die : ∀ d, pgDie d ≠ q₀) (k_mode : ∀ d, pgMode d ≠ q₀) (k_tsync : pgTsync ≠ q₀) (k_fence : ∀ d, pgFence d ≠ q₀) (k_assay : ∀ d, pgAssay d ≠ q₀) (k_memctl : ∀ d, pgMemctl d ≠ q₀) (k_hoistGlobal : ∀ d, pgHoistGlobal d ≠ q₀) (k_chuteGlobal : ∀ d, pgChuteGlobal d ≠ q₀) (k_hp : ∀ d i, pgHp d i ≠ q₀) (k_enc : ∀ d i, pgEnc d i ≠ q₀) (k_ax : ∀ d i, pgAx d i ≠ q₀) (k_seam : ∀ d, pgSeam d ≠ q₀) (k_echo : ∀ d, pgEcho d ≠ q₀) (k_ctx : ∀ d, pgCtx d ≠ q₀) (k_hc : ∀ d i, pgHc d i ≠ q₀) (k_chute : ∀ d i, pgChute d i ≠ q₀) (k_debug : ∀ d, pgDebug d ≠ q₀) (hU : Keeps q₀ s₀ s) : Kept q₀ s₀ (execHoistSignal d c s) := by
  unfold execHoistSignal
  try dsimp only
  repeat' first
    | with_reducible assumption
    | with_reducible exact k_die _
    | with_reducible exact k_mode _
    | with_reducible exact k_tsync
    | with_reducible exact k_fence _
    | with_reducible exact k_assay _
    | with_reducible exact k_memctl _
    | with_reducible exact k_hoistGlobal _
    | with_reducible exact k_chuteGlobal _
    | with_reducible exact k_hp _ _
    | with_reducible exact k_enc _ _
    | with_reducible exact k_ax _ _
    | with_reducible exact k_seam _
    | with_reducible exact k_echo _
    | with_reducible exact k_ctx _
    | with_reducible exact k_hc _ _
    | with_reducible exact k_chute _ _
    | with_reducible exact k_debug _
    | intro _
    | with_reducible apply ok_kept
    | with_reducible apply ite_kept
    | with_reducible apply ite_keeps
    | with_reducible exact ok_kept (by assumption)
    | with_reducible apply hcInstr_keeps
    | with_reducible apply signalDo_keeps
    | split
    | with_reducible apply Keeps.lit

theorem execHoistEnd_kept {d : Nat} {c : Nat} (k_die : ∀ d, pgDie d ≠ q₀) (k_mode : ∀ d, pgMode d ≠ q₀) (k_tsync : pgTsync ≠ q₀) (k_fence : ∀ d, pgFence d ≠ q₀) (k_assay : ∀ d, pgAssay d ≠ q₀) (k_memctl : ∀ d, pgMemctl d ≠ q₀) (k_hoistGlobal : ∀ d, pgHoistGlobal d ≠ q₀) (k_chuteGlobal : ∀ d, pgChuteGlobal d ≠ q₀) (k_hp : ∀ d i, pgHp d i ≠ q₀) (k_enc : ∀ d i, pgEnc d i ≠ q₀) (k_ax : ∀ d i, pgAx d i ≠ q₀) (k_seam : ∀ d, pgSeam d ≠ q₀) (k_echo : ∀ d, pgEcho d ≠ q₀) (k_ctx : ∀ d, pgCtx d ≠ q₀) (k_hc : ∀ d i, pgHc d i ≠ q₀) (k_chute : ∀ d i, pgChute d i ≠ q₀) (k_debug : ∀ d, pgDebug d ≠ q₀) (hU : Keeps q₀ s₀ s) : Kept q₀ s₀ (execHoistEnd d c s) := by
  unfold execHoistEnd
  try dsimp only
  repeat' first
    | with_reducible assumption
    | with_reducible exact k_die _
    | with_reducible exact k_mode _
    | with_reducible exact k_tsync
    | with_reducible exact k_fence _
    | with_reducible exact k_assay _
    | with_reducible exact k_memctl _
    | with_reducible exact k_hoistGlobal _
    | with_reducible exact k_chuteGlobal _
    | with_reducible exact k_hp _ _
    | with_reducible exact k_enc _ _
    | with_reducible exact k_ax _ _
    | with_reducible exact k_seam _
    | with_reducible exact k_echo _
    | with_reducible exact k_ctx _
    | with_reducible exact k_hc _ _
    | with_reducible exact k_chute _ _
    | with_reducible exact k_debug _
    | intro _
    | with_reducible apply ok_kept
    | with_reducible apply ite_kept
    | with_reducible apply ite_keeps
    | with_reducible exact ok_kept (by assumption)
    | with_reducible apply hcInstr_keeps
    | with_reducible apply signalDo_keeps
    | split
    | with_reducible apply Keeps.lit

theorem setaDo_keeps {d : Nat} {c : Nat} {ws : List Word} (k_hc : ∀ d i, pgHc d i ≠ q₀) (hU : Keeps q₀ s₀ s) : Keeps q₀ s₀ (setaDo s d c ws) := by
  unfold setaDo
  try dsimp only
  repeat' first
    | with_reducible assumption
    | with_reducible exact k_hc _ _
    | intro _
    | with_reducible apply ite_keeps
    | with_reducible apply hcNext_keeps
    | with_reducible apply setHcA_keeps
    | split
    | with_reducible apply Keeps.lit

theorem execHoistSeta_kept {d : Nat} {c : Nat} (k_die : ∀ d, pgDie d ≠ q₀) (k_mode : ∀ d, pgMode d ≠ q₀) (k_tsync : pgTsync ≠ q₀) (k_fence : ∀ d, pgFence d ≠ q₀) (k_assay : ∀ d, pgAssay d ≠ q₀) (k_memctl : ∀ d, pgMemctl d ≠ q₀) (k_hoistGlobal : ∀ d, pgHoistGlobal d ≠ q₀) (k_chuteGlobal : ∀ d, pgChuteGlobal d ≠ q₀) (k_hp : ∀ d i, pgHp d i ≠ q₀) (k_enc : ∀ d i, pgEnc d i ≠ q₀) (k_ax : ∀ d i, pgAx d i ≠ q₀) (k_seam : ∀ d, pgSeam d ≠ q₀) (k_echo : ∀ d, pgEcho d ≠ q₀) (k_ctx : ∀ d, pgCtx d ≠ q₀) (k_hc : ∀ d i, pgHc d i ≠ q₀) (k_chute : ∀ d i, pgChute d i ≠ q₀) (k_debug : ∀ d, pgDebug d ≠ q₀) (hU : Keeps q₀ s₀ s) : Kept q₀ s₀ (execHoistSeta d c s) := by
  unfold execHoistSeta
  try dsimp only
  repeat' first
    | with_reducible assumption
    | with_reducible exact k_die _
    | with_reducible exact k_mode _
    | with_reducible exact k_tsync
    | with_reducible exact k_fence _
    | with_reducible exact k_assay _
    | with_reducible exact k_memctl _
    | with_reducible exact k_hoistGlobal _
    | with_reducible exact k_chuteGlobal _
    | with_reducible exact k_hp _ _
    | with_reducible exact k_enc _ _
    | with_reducible exact k_ax _ _
    | with_reducible exact k_seam _
    | with_reducible exact k_echo _
    | with_reducible exact k_ctx _
    | with_reducible exact k_hc _ _
    | with_reducible exact k_chute _ _
    | with_reducible exact k_debug _
    | intro _
    | with_reducible apply ok_kept
    | with_reducible apply ite_kept
    | with_reducible apply ite_keeps
    | with_reducible exact ok_kept (by assumption)
    | with_reducible apply hcInstr_keeps
    | with_reducible apply setaDo_keeps
    | split
    | with_reducible apply Keeps.lit

theorem addaDo_keeps {d : Nat} {c : Nat} {ws : List Word} (k_hc : ∀ d i, pgHc d i ≠ q₀) (hU : Keeps q₀ s₀ s) : Keeps q₀ s₀ (addaDo s d c ws) := by
  unfold addaDo
  try dsimp only
  repeat' first
    | with_reducible assumption
    | with_reducible exact k_hc _ _
    | intro _
    | with_reducible apply ite_keeps
    | with_reducible apply hcNext_keeps
    | with_reducible apply setHcA_keeps
    | split
    | with_reducible apply Keeps.lit

theorem execHoistAdda_kept {d : Nat} {c : Nat} (k_die : ∀ d, pgDie d ≠ q₀) (k_mode : ∀ d, pgMode d ≠ q₀) (k_tsync : pgTsync ≠ q₀) (k_fence : ∀ d, pgFence d ≠ q₀) (k_assay : ∀ d, pgAssay d ≠ q₀) (k_memctl : ∀ d, pgMemctl d ≠ q₀) (k_hoistGlobal : ∀ d, pgHoistGlobal d ≠ q₀) (k_chuteGlobal : ∀ d, pgChuteGlobal d ≠ q₀) (k_hp : ∀ d i, pgHp d i ≠ q₀) (k_enc : ∀ d i, pgEnc d i ≠ q₀) (k_ax : ∀ d i, pgAx d i ≠ q₀) (k_seam : ∀ d, pgSeam d ≠ q₀) (k_echo : ∀ d, pgEcho d ≠ q₀) (k_ctx : ∀ d, pgCtx d ≠ q₀) (k_hc : ∀ d i, pgHc d i ≠ q₀) (k_chute : ∀ d i, pgChute d i ≠ q₀) (k_debug : ∀ d, pgDebug d ≠ q₀) (hU : Keeps q₀ s₀ s) : Kept q₀ s₀ (execHoistAdda d c s) := by
  unfold execHoistAdda
  try dsimp only
  repeat' first
    | with_reducible assumption
    | with_reducible exact k_die _
    | with_reducible exact k_mode _
    | with_reducible exact k_tsync
    | with_reducible exact k_fence _
    | with_reducible exact k_assay _
    | with_reducible exact k_memctl _
    | with_reducible exact k_hoistGlobal _
    | with_reducible exact k_chuteGlobal _
    | with_reducible exact k_hp _ _
    | with_reducible exact k_enc _ _
    | with_reducible exact k_ax _ _
    | with_reducible exact k_seam _
    | with_reducible exact k_echo _
    | with_reducible exact k_ctx _
    | with_reducible exact k_hc _ _
    | with_reducible exact k_chute _ _
    | with_reducible exact k_debug _
    | intro _
    | with_reducible apply ok_kept
    | with_reducible apply ite_kept
    | with_reducible apply ite_keeps
    | with_reducible exact ok_kept (by assumption)
    | with_reducible apply hcInstr_keeps
    | with_reducible apply addaDo_keeps
    | split
    | with_reducible apply Keeps.lit

theorem execHoistNop_kept {d : Nat} {c : Nat} (k_die : ∀ d, pgDie d ≠ q₀) (k_mode : ∀ d, pgMode d ≠ q₀) (k_tsync : pgTsync ≠ q₀) (k_fence : ∀ d, pgFence d ≠ q₀) (k_assay : ∀ d, pgAssay d ≠ q₀) (k_memctl : ∀ d, pgMemctl d ≠ q₀) (k_hoistGlobal : ∀ d, pgHoistGlobal d ≠ q₀) (k_chuteGlobal : ∀ d, pgChuteGlobal d ≠ q₀) (k_hp : ∀ d i, pgHp d i ≠ q₀) (k_enc : ∀ d i, pgEnc d i ≠ q₀) (k_ax : ∀ d i, pgAx d i ≠ q₀) (k_seam : ∀ d, pgSeam d ≠ q₀) (k_echo : ∀ d, pgEcho d ≠ q₀) (k_ctx : ∀ d, pgCtx d ≠ q₀) (k_hc : ∀ d i, pgHc d i ≠ q₀) (k_chute : ∀ d i, pgChute d i ≠ q₀) (k_debug : ∀ d, pgDebug d ≠ q₀) (hU : Keeps q₀ s₀ s) : Kept q₀ s₀ (execHoistNop d c s) := by
  unfold execHoistNop
  try dsimp only
  repeat' first
    | with_reducible assumption
    | with_reducible exact k_die _
    | with_reducible exact k_mode _
    | with_reducible exact k_tsync
    | with_reducible exact k_fence _
    | with_reducible exact k_assay _
    | with_reducible exact k_memctl _
    | with_reducible exact k_hoistGlobal _
    | with_reducible exact k_chuteGlobal _
    | with_reducible exact k_hp _ _
    | with_reducible exact k_enc _ _
    | with_reducible exact k_ax _ _
    | with_reducible exact k_seam _
    | with_reducible exact k_echo _
    | with_reducible exact k_ctx _
    | with_reducible exact k_hc _ _
    | with_reducible exact k_chute _ _
    | with_reducible exact k_debug _
    | intro _
    | with_reducible apply ok_kept
    | with_reducible apply ite_kept
    | with_reducible apply ite_keeps
    | with_reducible exact ok_kept (by assumption)
    | with_reducible apply hcInstr_keeps
    | with_reducible apply hcNext_keeps
    | split
    | with_reducible apply Keeps.lit

theorem hostReadIssue_keeps {d : Nat} {c : Nat} {id : Nat} {addr : Nat} {n : Nat} {kind : Nat} (hU : Keeps q₀ s₀ s) : Keeps q₀ s₀ (hostReadIssue s d c id addr n kind) := by
  unfold hostReadIssue
  try dsimp only
  repeat' first
    | with_reducible assumption
    | intro _
    | with_reducible apply ite_keeps
    | with_reducible apply each_keeps
    | with_reducible apply emit_keeps
    | (with_reducible refine (?_ : Keeps q₀ s₀ (id _)); assumption)
    | split
    | with_reducible apply Keeps.lit

theorem burstBegin_keeps {d : Nat} {c : Nat} {m : MoveSt} (k_chuteGlobal : ∀ d, pgChuteGlobal d ≠ q₀) (k_chute : ∀ d i, pgChute d i ≠ q₀) (hU : Keeps q₀ s₀ s) : Keeps q₀ s₀ (burstBegin s d c m) := by
  unfold burstBegin
  try dsimp only
  repeat' first
    | with_reducible assumption
    | with_reducible exact k_chuteGlobal _
    | with_reducible exact k_chute _ _
    | intro _
    | with_reducible apply ite_keeps
    | with_reducible apply setHoist_keeps
    | with_reducible apply chuteFollow_keeps
    | with_reducible apply setChute_keeps
    | with_reducible apply hostReadIssue_keeps
    | (with_reducible refine (?_ : Keeps q₀ s₀ (id _)); assumption)
    | split
    | with_reducible apply Keeps.lit

theorem execBurstStart_kept {d : Nat} {c : Nat} (k_tb : ∀ d, pgTb d ≠ q₀) (k_chuteGlobal : ∀ d, pgChuteGlobal d ≠ q₀) (k_chute : ∀ d i, pgChute d i ≠ q₀) (hU : Keeps q₀ s₀ s) : Kept q₀ s₀ (execBurstStart d c s) := by
  unfold execBurstStart
  try dsimp only
  repeat' first
    | with_reducible assumption
    | with_reducible exact k_tb _
    | with_reducible exact k_chuteGlobal _
    | with_reducible exact k_chute _ _
    | intro _
    | with_reducible apply ok_kept
    | with_reducible apply ite_kept
    | with_reducible apply ite_keeps
    | with_reducible exact ok_kept (by assumption)
    | with_reducible apply waitClock_keeps
    | with_reducible apply burstBegin_keeps
    | split
    | with_reducible apply Keeps.lit

theorem hcCollide_keeps {d : Nat} {addr : Nat} {n : Nat} {hits : List Nat} (k_fence : ∀ d, pgFence d ≠ q₀) (k_memctl : ∀ d, pgMemctl d ≠ q₀) (k_chuteGlobal : ∀ d, pgChuteGlobal d ≠ q₀) (k_chute : ∀ d i, pgChute d i ≠ q₀) (hU : Keeps q₀ s₀ s) : Keeps q₀ s₀ (hcCollide s d addr n hits) := by
  unfold hcCollide
  try dsimp only
  repeat' first
    | with_reducible assumption
    | with_reducible exact k_fence _
    | with_reducible exact k_memctl _
    | with_reducible exact k_chuteGlobal _
    | with_reducible exact k_chute _ _
    | intro _
    | with_reducible apply ite_keeps
    | with_reducible apply each_keeps
    | with_reducible apply collision_keeps
    | split
    | with_reducible apply Keeps.lit

theorem hcBytes_keeps {x0 : List (Nat × Nat × Nat)} {x2 : Nat} {x3 : Nat} {x4 : Nat} {x5 : Bool} (k_fence : ∀ d, pgFence d ≠ q₀) (k_memctl : ∀ d, pgMemctl d ≠ q₀) (k_chuteGlobal : ∀ d, pgChuteGlobal d ≠ q₀) (k_chute : ∀ d i, pgChute d i ≠ q₀) (hU : Keeps q₀ s₀ s) : Keeps q₀ s₀ (hcBytes x0 s x2 x3 x4 x5).2.2 := by
  induction x0 generalizing s x2 x3 x4 x5 with
  | nil => exact hU
  | cons e r ih =>
    unfold hcBytes
    try dsimp only
    repeat' first
      | with_reducible assumption
      | with_reducible apply ih
      | with_reducible exact k_fence _
      | with_reducible exact k_memctl _
      | with_reducible exact k_chuteGlobal _
      | with_reducible exact k_chute _ _
      | intro _
      | with_reducible apply ite_keeps
      | with_reducible apply windowRead_keeps
      | (with_reducible refine trip_keeps (by assumption) ?_)
      | split
      | with_reducible apply Keeps.lit

theorem poisonTake_keeps {d : Nat} {q : Nat} {j : Nat} (k_fence : ∀ d, pgFence d ≠ q₀) (k_memctl : ∀ d, pgMemctl d ≠ q₀) (k_chuteGlobal : ∀ d, pgChuteGlobal d ≠ q₀) (k_chute : ∀ d i, pgChute d i ≠ q₀) (hU : Keeps q₀ s₀ s) : Keeps q₀ s₀ (poisonTake s d q j) := by
  unfold poisonTake
  try dsimp only
  repeat' first
    | with_reducible assumption
    | with_reducible exact k_fence _
    | with_reducible exact k_memctl _
    | with_reducible exact k_chuteGlobal _
    | with_reducible exact k_chute _ _
    | intro _
    | with_reducible apply ite_keeps
    | with_reducible apply spotGone_keeps
    | with_reducible apply setChute_keeps
    | with_reducible apply each_keeps
    | with_reducible apply chuteFollow_keeps
    | with_reducible apply creditBack_keeps
    | with_reducible apply spillRead_keeps
    | split
    | with_reducible apply Keeps.lit

theorem takeWords_keeps {x0 : Nat} {x2 : Nat} {x3 : Nat} (k_fence : ∀ d, pgFence d ≠ q₀) (k_memctl : ∀ d, pgMemctl d ≠ q₀) (k_chuteGlobal : ∀ d, pgChuteGlobal d ≠ q₀) (k_chute : ∀ d i, pgChute d i ≠ q₀) (hU : Keeps q₀ s₀ s) : Keeps q₀ s₀ (takeWords x0 s x2 x3).2 := by
  induction x0 generalizing s x2 x3 with
  | zero => exact hU
  | succ n ih =>
    unfold takeWords
    try dsimp only
    repeat' first
      | with_reducible assumption
      | with_reducible apply ih
      | with_reducible exact k_fence _
      | with_reducible exact k_memctl _
      | with_reducible exact k_chuteGlobal _
      | with_reducible exact k_chute _ _
      | intro _
      | with_reducible apply ite_keeps
      | with_reducible apply chuteTake_keeps
      | (with_reducible refine pair_keeps (by assumption) ?_)
      | split
      | with_reducible apply Keeps.lit

theorem chuteSource_keeps {d : Nat} {q : Nat} {b : Burst} (k_fence : ∀ d, pgFence d ≠ q₀) (k_memctl : ∀ d, pgMemctl d ≠ q₀) (k_chuteGlobal : ∀ d, pgChuteGlobal d ≠ q₀) (k_chute : ∀ d i, pgChute d i ≠ q₀) (hU : Keeps q₀ s₀ s) : Keeps q₀ s₀ (chuteSource s d q b).2.2.2 := by
  unfold chuteSource
  try dsimp only
  repeat' first
    | with_reducible assumption
    | with_reducible exact k_fence _
    | with_reducible exact k_memctl _
    | with_reducible exact k_chuteGlobal _
    | with_reducible exact k_chute _ _
    | intro _
    | with_reducible apply ite_keeps
    | with_reducible apply poisonTake_keeps
    | with_reducible apply takeWords_keeps
    | (with_reducible refine pair_keeps (by assumption) ?_)
    | split
    | with_reducible apply Keeps.lit

theorem burstPush_keeps {d : Nat} {q : Nat} {b : Burst} {ws : List Word} (k_chuteGlobal : ∀ d, pgChuteGlobal d ≠ q₀) (k_chute : ∀ d i, pgChute d i ≠ q₀) (hU : Keeps q₀ s₀ s) : Keeps q₀ s₀ (burstPush s d q b ws) := by
  unfold burstPush
  try dsimp only
  repeat' first
    | with_reducible assumption
    | with_reducible exact k_chuteGlobal _
    | with_reducible exact k_chute _ _
    | intro _
    | with_reducible apply ite_keeps
    | with_reducible apply setChute_keeps
    | with_reducible apply chuteFollow_keeps
    | with_reducible apply each_keeps
    | with_reducible apply pushOver_keeps
    | with_reducible apply chuteAppend_keeps
    | split
    | with_reducible apply Keeps.lit

theorem hostPuts_keeps {dst : Nat} {kind : Nat} {ws : List Word} (hU : Keeps q₀ s₀ s) : Keeps q₀ s₀ (hostPuts s dst kind ws) := by
  unfold hostPuts
  try dsimp only
  repeat' first
    | with_reducible assumption
    | intro _
    | with_reducible apply ite_keeps
    | with_reducible apply each_keeps
    | with_reducible apply emit_keeps
    | split
    | with_reducible apply Keeps.lit

theorem burstDone_keeps {d : Nat} {c : Nat} {b : Burst} {m : MoveSt} (k_hoistGlobal : ∀ d, pgHoistGlobal d ≠ q₀) (k_chuteGlobal : ∀ d, pgChuteGlobal d ≠ q₀) (k_hc : ∀ d i, pgHc d i ≠ q₀) (k_chute : ∀ d i, pgChute d i ≠ q₀) (hU : Keeps q₀ s₀ s) : Keeps q₀ s₀ (burstDone s d c b m) := by
  unfold burstDone
  try dsimp only
  repeat' first
    | with_reducible assumption
    | with_reducible exact k_hoistGlobal _
    | with_reducible exact k_chuteGlobal _
    | with_reducible exact k_hc _ _
    | with_reducible exact k_chute _ _
    | intro _
    | with_reducible apply ite_keeps
    | with_reducible apply setHcA_keeps
    | with_reducible apply wr_keeps
    | with_reducible apply setHoist_keeps
    | with_reducible apply hcAborted_keeps
    | split
    | with_reducible apply Keeps.lit

theorem execHoistWatchdog_kept {d : Nat} {c : Nat} (k_die : ∀ d, pgDie d ≠ q₀) (k_mode : ∀ d, pgMode d ≠ q₀) (k_tb : ∀ d, pgTb d ≠ q₀) (k_tsync : pgTsync ≠ q₀) (k_fence : ∀ d, pgFence d ≠ q₀) (k_assay : ∀ d, pgAssay d ≠ q₀) (k_hoistGlobal : ∀ d, pgHoistGlobal d ≠ q₀) (k_chuteGlobal : ∀ d, pgChuteGlobal d ≠ q₀) (k_hp : ∀ d i, pgHp d i ≠ q₀) (k_enc : ∀ d i, pgEnc d i ≠ q₀) (k_ax : ∀ d i, pgAx d i ≠ q₀) (k_seam : ∀ d, pgSeam d ≠ q₀) (k_echo : ∀ d, pgEcho d ≠ q₀) (k_ctx : ∀ d, pgCtx d ≠ q₀) (k_hc : ∀ d i, pgHc d i ≠ q₀) (k_chute : ∀ d i, pgChute d i ≠ q₀) (k_debug : ∀ d, pgDebug d ≠ q₀) (hU : Keeps q₀ s₀ s) : Kept q₀ s₀ (execHoistWatchdog d c s) := by
  unfold execHoistWatchdog
  try dsimp only
  repeat' first
    | with_reducible assumption
    | with_reducible exact k_die _
    | with_reducible exact k_mode _
    | with_reducible exact k_tb _
    | with_reducible exact k_tsync
    | with_reducible exact k_fence _
    | with_reducible exact k_assay _
    | with_reducible exact k_hoistGlobal _
    | with_reducible exact k_chuteGlobal _
    | with_reducible exact k_hp _ _
    | with_reducible exact k_enc _ _
    | with_reducible exact k_ax _ _
    | with_reducible exact k_seam _
    | with_reducible exact k_echo _
    | with_reducible exact k_ctx _
    | with_reducible exact k_hc _ _
    | with_reducible exact k_chute _ _
    | with_reducible exact k_debug _
    | intro _
    | with_reducible apply ok_kept
    | with_reducible apply ite_kept
    | with_reducible apply ite_keeps
    | with_reducible exact ok_kept (by assumption)
    | with_reducible apply hcHalt_keeps
    | with_reducible apply waitClock_keeps
    | split
    | with_reducible apply Keeps.lit

theorem timerTokens_keeps {d : Nat} {k : Nat} (hU : Keeps q₀ s₀ s) : Keeps q₀ s₀ (timerTokens s d k) := by
  unfold timerTokens
  try dsimp only
  repeat' first
    | with_reducible assumption
    | intro _
    | with_reducible apply ite_keeps
    | with_reducible apply each_keeps
    | with_reducible apply setHoist_keeps
    | split
    | with_reducible apply Keeps.lit

theorem execGlobalTimerFire_kept {d : Nat} {k : Nat} (k_tb : ∀ d, pgTb d ≠ q₀) (hU : Keeps q₀ s₀ s) : Kept q₀ s₀ (execGlobalTimerFire d k s) := by
  unfold execGlobalTimerFire
  try dsimp only
  repeat' first
    | with_reducible assumption
    | with_reducible exact k_tb _
    | intro _
    | with_reducible apply ok_kept
    | with_reducible apply ite_kept
    | with_reducible apply ite_keeps
    | with_reducible exact ok_kept (by assumption)
    | with_reducible apply waitClock_keeps
    | with_reducible apply hoistSource_keeps
    | with_reducible apply timerTokens_keeps
    | split
    | with_reducible apply Keeps.lit

theorem execCqRecordWrite_kept {d : Nat} {q : Nat} (k_hoistGlobal : ∀ d, pgHoistGlobal d ≠ q₀) (k_hc : ∀ d i, pgHc d i ≠ q₀) (hU : Keeps q₀ s₀ s) : Kept q₀ s₀ (execCqRecordWrite d q s) := by
  unfold execCqRecordWrite
  try dsimp only
  repeat' first
    | with_reducible assumption
    | with_reducible exact k_hoistGlobal _
    | with_reducible exact k_hc _ _
    | intro _
    | with_reducible apply ok_kept
    | with_reducible apply ite_kept
    | with_reducible apply ite_keeps
    | with_reducible exact ok_kept (by assumption)
    | with_reducible apply cqWrite_keeps
    | split
    | with_reducible apply Keeps.lit

theorem execCqSizeWrite_kept {r : Req} {d : Nat} {q : Nat} {v : Word} (k_hoistGlobal : ∀ d, pgHoistGlobal d ≠ q₀) (k_pcie : pgPcie ≠ q₀) (k_guard : ∀ d, pgGuard d ≠ q₀) (hU : Keeps q₀ s₀ s) : Kept q₀ s₀ (execCqSizeWrite r d q v s) := by
  unfold execCqSizeWrite
  try dsimp only
  repeat' first
    | with_reducible assumption
    | with_reducible exact k_hoistGlobal _
    | with_reducible exact k_pcie
    | with_reducible exact k_guard _
    | intro _
    | with_reducible apply ok_kept
    | with_reducible apply ite_kept
    | with_reducible apply ite_keeps
    | with_reducible exact ok_kept (by assumption)
    | with_reducible apply guardedWrite_keeps
    | with_reducible apply cqSizeSet_keeps
    | split
    | with_reducible apply Keeps.lit

theorem execCqConsWrite_kept {r : Req} {d : Nat} {q : Nat} {v : Word} (k_hoistGlobal : ∀ d, pgHoistGlobal d ≠ q₀) (k_pcie : pgPcie ≠ q₀) (k_guard : ∀ d, pgGuard d ≠ q₀) (hU : Keeps q₀ s₀ s) : Kept q₀ s₀ (execCqConsWrite r d q v s) := by
  unfold execCqConsWrite
  try dsimp only
  repeat' first
    | with_reducible assumption
    | with_reducible exact k_hoistGlobal _
    | with_reducible exact k_pcie
    | with_reducible exact k_guard _
    | intro _
    | with_reducible apply ok_kept
    | with_reducible apply ite_kept
    | with_reducible apply ite_keeps
    | with_reducible exact ok_kept (by assumption)
    | with_reducible apply guardedWrite_keeps
    | with_reducible apply cqConsSet_keeps
    | split
    | with_reducible apply Keeps.lit

end Sys2Proof.Laws
end

