-- ==== Sys2Proof/Laws/PowerReg.lean ====
section
/-!
SUPPORT. The register pages that each operation of `Machine/Power.lean` may write: every other page reads as before.
-/

set_option Elab.async false
set_option linter.unusedTactic false
set_option linter.unreachableTactic false
namespace Sys2Proof.Laws

open Sys2Proof.Machine

variable {q₀ : Pg} {s₀ s : State}

theorem dormantDie_keeps {d : Nat} (k_die : ∀ d, pgDie d ≠ q₀) (k_mode : ∀ d, pgMode d ≠ q₀) (k_tb : ∀ d, pgTb d ≠ q₀) (k_assay : ∀ d, pgAssay d ≠ q₀) (k_retain : ∀ d, pgRetain d ≠ q₀) (k_enc : ∀ d i, pgEnc d i ≠ q₀) (k_ax : ∀ d i, pgAx d i ≠ q₀) (k_debug : ∀ d, pgDebug d ≠ q₀) (k_sess : ∀ d, pgSess d ≠ q₀) (hU : Keeps q₀ s₀ s) : Keeps q₀ s₀ (dormantDie s d) := by
  unfold dormantDie
  try dsimp only
  repeat' first
    | with_reducible assumption
    | with_reducible exact k_die _
    | with_reducible exact k_mode _
    | with_reducible exact k_tb _
    | with_reducible exact k_assay _
    | with_reducible exact k_retain _
    | with_reducible exact k_enc _ _
    | with_reducible exact k_ax _ _
    | with_reducible exact k_debug _
    | with_reducible exact k_sess _
    | intro _
    | with_reducible apply ite_keeps
    | with_reducible apply asSaved_keeps
    | with_reducible apply dbgClose_keeps
    | with_reducible apply sessClose_keeps
    | with_reducible apply stbyEnter_keeps
    | split
    | with_reducible apply Keeps.lit

theorem dormantEnter_keeps (k_die : ∀ d, pgDie d ≠ q₀) (k_mode : ∀ d, pgMode d ≠ q₀) (k_tb : ∀ d, pgTb d ≠ q₀) (k_fence : ∀ d, pgFence d ≠ q₀) (k_assay : ∀ d, pgAssay d ≠ q₀) (k_memctl : ∀ d, pgMemctl d ≠ q₀) (k_retain : ∀ d, pgRetain d ≠ q₀) (k_chuteGlobal : ∀ d, pgChuteGlobal d ≠ q₀) (k_mbox : ∀ d b, pgMbox d b ≠ q₀) (k_hp : ∀ d i, pgHp d i ≠ q₀) (k_enc : ∀ d i, pgEnc d i ≠ q₀) (k_ax : ∀ d i, pgAx d i ≠ q₀) (k_seam : ∀ d, pgSeam d ≠ q₀) (k_echo : ∀ d, pgEcho d ≠ q₀) (k_pcie : pgPcie ≠ q₀) (k_ctx : ∀ d, pgCtx d ≠ q₀) (k_chute : ∀ d i, pgChute d i ≠ q₀) (k_debug : ∀ d, pgDebug d ≠ q₀) (k_sess : ∀ d, pgSess d ≠ q₀) (hU : Keeps q₀ s₀ s) : Keeps q₀ s₀ (dormantEnter s) := by
  unfold dormantEnter
  try dsimp only
  repeat' first
    | with_reducible assumption
    | with_reducible exact k_die _
    | with_reducible exact k_mode _
    | with_reducible exact k_tb _
    | with_reducible exact k_fence _
    | with_reducible exact k_assay _
    | with_reducible exact k_memctl _
    | with_reducible exact k_retain _
    | with_reducible exact k_chuteGlobal _
    | with_reducible exact k_mbox _ _
    | with_reducible exact k_hp _ _
    | with_reducible exact k_enc _ _
    | with_reducible exact k_ax _ _
    | with_reducible exact k_seam _
    | with_reducible exact k_echo _
    | with_reducible exact k_pcie
    | with_reducible exact k_ctx _
    | with_reducible exact k_chute _ _
    | with_reducible exact k_debug _
    | with_reducible exact k_sess _
    | intro _
    | with_reducible apply ite_keeps
    | with_reducible apply each_keeps
    | with_reducible apply modeSwitch_keeps
    | with_reducible apply dormantDie_keeps
    | with_reducible apply nextFree_keeps
    | with_reducible apply hostLinkDown_keeps
    | split
    | with_reducible apply Keeps.lit

theorem execDormantEntry_kept (k_die : ∀ d, pgDie d ≠ q₀) (k_mode : ∀ d, pgMode d ≠ q₀) (k_tb : ∀ d, pgTb d ≠ q₀) (k_fence : ∀ d, pgFence d ≠ q₀) (k_assay : ∀ d, pgAssay d ≠ q₀) (k_memctl : ∀ d, pgMemctl d ≠ q₀) (k_retain : ∀ d, pgRetain d ≠ q₀) (k_chuteGlobal : ∀ d, pgChuteGlobal d ≠ q₀) (k_mbox : ∀ d b, pgMbox d b ≠ q₀) (k_hp : ∀ d i, pgHp d i ≠ q₀) (k_enc : ∀ d i, pgEnc d i ≠ q₀) (k_ax : ∀ d i, pgAx d i ≠ q₀) (k_seam : ∀ d, pgSeam d ≠ q₀) (k_echo : ∀ d, pgEcho d ≠ q₀) (k_pcie : pgPcie ≠ q₀) (k_ctx : ∀ d, pgCtx d ≠ q₀) (k_chute : ∀ d i, pgChute d i ≠ q₀) (k_debug : ∀ d, pgDebug d ≠ q₀) (k_sess : ∀ d, pgSess d ≠ q₀) (hU : Keeps q₀ s₀ s) : Kept q₀ s₀ (execDormantEntry s) := by
  unfold execDormantEntry
  try dsimp only
  repeat' first
    | with_reducible assumption
    | with_reducible exact k_die _
    | with_reducible exact k_mode _
    | with_reducible exact k_tb _
    | with_reducible exact k_fence _
    | with_reducible exact k_assay _
    | with_reducible exact k_memctl _
    | with_reducible exact k_retain _
    | with_reducible exact k_chuteGlobal _
    | with_reducible exact k_mbox _ _
    | with_reducible exact k_hp _ _
    | with_reducible exact k_enc _ _
    | with_reducible exact k_ax _ _
    | with_reducible exact k_seam _
    | with_reducible exact k_echo _
    | with_reducible exact k_pcie
    | with_reducible exact k_ctx _
    | with_reducible exact k_chute _ _
    | with_reducible exact k_debug _
    | with_reducible exact k_sess _
    | intro _
    | with_reducible apply ok_kept
    | with_reducible apply ite_kept
    | with_reducible apply ite_keeps
    | with_reducible exact ok_kept (by assumption)
    | with_reducible apply dormantEnter_keeps
    | with_reducible apply waitTick_keeps
    | split
    | with_reducible apply Keeps.lit

theorem wakeBy_keeps {i : Nat} (hU : Keeps q₀ s₀ s) : Keeps q₀ s₀ (wakeBy s i) := by
  unfold wakeBy
  try dsimp only
  repeat' first
    | with_reducible assumption
    | intro _
    | with_reducible apply ite_keeps
    | split
    | with_reducible apply Keeps.lit

theorem execWakePin_kept {n : Nat} {rising : Bool} (hU : Keeps q₀ s₀ s) : Kept q₀ s₀ (execWakePin n rising s) := by
  unfold execWakePin
  try dsimp only
  repeat' first
    | with_reducible assumption
    | intro _
    | with_reducible apply ok_kept
    | with_reducible apply ite_kept
    | with_reducible apply ite_keeps
    | with_reducible exact ok_kept (by assumption)
    | with_reducible apply wakeBy_keeps
    | split
    | with_reducible apply Keeps.lit

theorem execWakeAlarm_kept (hU : Keeps q₀ s₀ s) : Kept q₀ s₀ (execWakeAlarm s) := by
  unfold execWakeAlarm
  try dsimp only
  repeat' first
    | with_reducible assumption
    | intro _
    | with_reducible apply ok_kept
    | with_reducible apply ite_kept
    | with_reducible apply ite_keeps
    | with_reducible exact ok_kept (by assumption)
    | with_reducible apply wakeBy_keeps
    | split
    | with_reducible apply Keeps.lit

theorem execDormantSecondsEdge_kept (k_tb : ∀ d, pgTb d ≠ q₀) (hU : Keeps q₀ s₀ s) : Kept q₀ s₀ (execDormantSecondsEdge s) := by
  unfold execDormantSecondsEdge
  try dsimp only
  repeat' first
    | with_reducible assumption
    | with_reducible exact k_tb _
    | intro _
    | with_reducible apply ok_kept
    | with_reducible apply ite_kept
    | with_reducible apply ite_keeps
    | with_reducible exact ok_kept (by assumption)
    | with_reducible apply waitClock_keeps
    | with_reducible apply nextFree_keeps
    | split
    | with_reducible apply Keeps.lit

theorem execVaonReset_kept (k_die : ∀ d, pgDie d ≠ q₀) (hU : Keeps q₀ s₀ s) : Kept q₀ s₀ (execVaonReset s) := by
  refine ⟨_, rfl, fun o => ?_, hU.shadows⟩
  rw [← hU.regs o]
  exact Tbl.get_drop_apart _ alwaysOn (by simp [alwaysOn, Ne.symm (k_die 0)]) _

theorem execVaonApplied_kept (k_die : ∀ d, pgDie d ≠ q₀) (hU : Keeps q₀ s₀ s) : Kept q₀ s₀ (execVaonApplied s) := by
  unfold execVaonApplied
  try dsimp only
  repeat' first
    | with_reducible assumption
    | with_reducible exact k_die _
    | intro _
    | with_reducible apply ok_kept
    | with_reducible apply ite_kept
    | with_reducible apply ite_keeps
    | with_reducible exact ok_kept (by assumption)
    | with_reducible apply wr_keeps
    | split
    | with_reducible apply Keeps.lit

end Sys2Proof.Laws
end

