-- ==== Sys2Proof/Laws/BootReg.lean ====
section
/-!
SUPPORT. The register pages that each operation of `Machine/Boot.lean` may write: every other page reads as before.
-/

set_option Elab.async false
set_option linter.unusedTactic false
set_option linter.unreachableTactic false
namespace Sys2Proof.Laws

open Sys2Proof.Machine

variable {q₀ : Pg} {s₀ s : State}

theorem setBoot_keeps {d : Nat} {b : BootSt} (hU : Keeps q₀ s₀ s) : Keeps q₀ s₀ (setBoot s d b) := by
  unfold setBoot
  try dsimp only
  repeat' first
    | with_reducible assumption
    | intro _
    | with_reducible apply ite_keeps
    | with_reducible apply setDie_keeps
    | split
    | with_reducible apply Keeps.lit

theorem stepEnd_keeps {d : Nat} {last : Nat} {alt : Nat} {detail : Nat} (k_retain : ∀ d, pgRetain d ≠ q₀) (hU : Keeps q₀ s₀ s) : Keeps q₀ s₀ (stepEnd s d last alt detail) := by
  unfold stepEnd
  try dsimp only
  repeat' first
    | with_reducible assumption
    | with_reducible exact k_retain _
    | intro _
    | with_reducible apply ite_keeps
    | with_reducible apply nextFree_keeps
    | with_reducible apply tlRecord_keeps
    | with_reducible apply setBoot_keeps
    | split
    | with_reducible apply Keeps.lit

theorem stepDone_keeps {d : Nat} {alt : Nat} (k_retain : ∀ d, pgRetain d ≠ q₀) (hU : Keeps q₀ s₀ s) : Keeps q₀ s₀ (stepDone s d alt) := by
  unfold stepDone
  try dsimp only
  repeat' first
    | with_reducible assumption
    | with_reducible exact k_retain _
    | intro _
    | with_reducible apply ite_keeps
    | with_reducible apply stepEnd_keeps
    | split
    | with_reducible apply Keeps.lit

theorem stepNone_keeps {d : Nat} (k_retain : ∀ d, pgRetain d ≠ q₀) (hU : Keeps q₀ s₀ s) : Keeps q₀ s₀ (stepNone s d) := by
  unfold stepNone
  try dsimp only
  repeat' first
    | with_reducible assumption
    | with_reducible exact k_retain _
    | intro _
    | with_reducible apply ite_keeps
    | with_reducible apply stepEnd_keeps
    | split
    | with_reducible apply Keeps.lit

theorem secPhase_keeps (hU : Keeps q₀ s₀ s) : Keeps q₀ s₀ (secPhase s) := by
  unfold secPhase
  try dsimp only
  repeat' first
    | with_reducible assumption
    | intro _
    | with_reducible apply ite_keeps
    | with_reducible apply nextFree_keeps
    | split
    | with_reducible apply Keeps.lit

theorem leaveOut_keeps {d : Nat} (k_die : ∀ d, pgDie d ≠ q₀) (k_mode : ∀ d, pgMode d ≠ q₀) (k_tsync : pgTsync ≠ q₀) (k_fence : ∀ d, pgFence d ≠ q₀) (k_assay : ∀ d, pgAssay d ≠ q₀) (k_hoistGlobal : ∀ d, pgHoistGlobal d ≠ q₀) (k_chuteGlobal : ∀ d, pgChuteGlobal d ≠ q₀) (k_hp : ∀ d i, pgHp d i ≠ q₀) (k_enc : ∀ d i, pgEnc d i ≠ q₀) (k_ax : ∀ d i, pgAx d i ≠ q₀) (k_seam : ∀ d, pgSeam d ≠ q₀) (k_echo : ∀ d, pgEcho d ≠ q₀) (k_ctx : ∀ d, pgCtx d ≠ q₀) (k_chute : ∀ d i, pgChute d i ≠ q₀) (k_debug : ∀ d, pgDebug d ≠ q₀) (k_sess : ∀ d, pgSess d ≠ q₀) (k_fb : ∀ p, (pgKind p).fenceable = true → p ≠ q₀) (hU : Keeps q₀ s₀ s) : Keeps q₀ s₀ (leaveOut s d) := by
  unfold leaveOut
  try dsimp only
  repeat' first
    | with_reducible assumption
    | with_reducible exact k_die _
    | with_reducible exact k_mode _
    | with_reducible exact k_tsync
    | with_reducible exact k_fence _
    | with_reducible exact k_assay _
    | with_reducible exact k_hoistGlobal _
    | with_reducible exact k_chuteGlobal _
    | with_reducible exact k_hp _ _
    | with_reducible exact k_enc _ _
    | with_reducible exact k_ax _ _
    | with_reducible exact k_seam _
    | with_reducible exact k_echo _
    | with_reducible exact k_ctx _
    | with_reducible exact k_chute _ _
    | with_reducible exact k_debug _
    | with_reducible exact k_sess _
    | intro _
    | with_reducible apply ite_keeps
    | with_reducible apply dieLost_keeps
    | with_reducible apply setBoot_keeps
    | split
    | with_reducible apply Keeps.lit

theorem assayBegin_keeps {d : Nat} (hU : Keeps q₀ s₀ s) : Keeps q₀ s₀ (assayBegin s d) := by
  unfold assayBegin
  try dsimp only
  repeat' first
    | with_reducible assumption
    | intro _
    | with_reducible apply ite_keeps
    | with_reducible apply setBoot_keeps
    | with_reducible apply loadPoints_keeps
    | with_reducible apply each_keeps
    | with_reducible apply asQueue_keeps
    | split
    | with_reducible apply Keeps.lit

theorem enumFollow_keeps (k_mode : ∀ d, pgMode d ≠ q₀) (k_fence : ∀ d, pgFence d ≠ q₀) (hU : Keeps q₀ s₀ s) : Keeps q₀ s₀ (enumFollow s) := by
  unfold enumFollow
  try dsimp only
  repeat' first
    | with_reducible assumption
    | with_reducible exact k_mode _
    | with_reducible exact k_fence _
    | intro _
    | with_reducible apply ite_keeps
    | with_reducible apply each_keeps
    | with_reducible apply allowedFollow_keeps
    | with_reducible apply wb_keeps
    | with_reducible apply assayBegin_keeps
    | split
    | with_reducible apply Keeps.lit

theorem startFollow_keeps (k_die : ∀ d, pgDie d ≠ q₀) (k_mode : ∀ d, pgMode d ≠ q₀) (k_tsync : pgTsync ≠ q₀) (k_fence : ∀ d, pgFence d ≠ q₀) (k_assay : ∀ d, pgAssay d ≠ q₀) (k_hoistGlobal : ∀ d, pgHoistGlobal d ≠ q₀) (k_chuteGlobal : ∀ d, pgChuteGlobal d ≠ q₀) (k_hp : ∀ d i, pgHp d i ≠ q₀) (k_enc : ∀ d i, pgEnc d i ≠ q₀) (k_ax : ∀ d i, pgAx d i ≠ q₀) (k_seam : ∀ d, pgSeam d ≠ q₀) (k_echo : ∀ d, pgEcho d ≠ q₀) (k_ctx : ∀ d, pgCtx d ≠ q₀) (k_chute : ∀ d i, pgChute d i ≠ q₀) (k_debug : ∀ d, pgDebug d ≠ q₀) (k_sess : ∀ d, pgSess d ≠ q₀) (k_fb : ∀ p, (pgKind p).fenceable = true → p ≠ q₀) (hU : Keeps q₀ s₀ s) : Keeps q₀ s₀ (startFollow s) := by
  unfold startFollow
  try dsimp only
  repeat' first
    | with_reducible assumption
    | with_reducible exact k_die _
    | with_reducible exact k_mode _
    | with_reducible exact k_tsync
    | with_reducible exact k_fence _
    | with_reducible exact k_assay _
    | with_reducible exact k_hoistGlobal _
    | with_reducible exact k_chuteGlobal _
    | with_reducible exact k_hp _ _
    | with_reducible exact k_enc _ _
    | with_reducible exact k_ax _ _
    | with_reducible exact k_seam _
    | with_reducible exact k_echo _
    | with_reducible exact k_ctx _
    | with_reducible exact k_chute _ _
    | with_reducible exact k_debug _
    | with_reducible exact k_sess _
    | intro _
    | with_reducible apply ite_keeps
    | with_reducible apply enumFollow_keeps
    | with_reducible apply each_keeps
    | with_reducible apply leaveOut_keeps
    | split
    | with_reducible apply Keeps.lit

theorem boardOpen_keeps {d : Nat} (k_tally : ∀ d, pgTally d ≠ q₀) (k_retain : ∀ d, pgRetain d ≠ q₀) (hU : Keeps q₀ s₀ s) : Keeps q₀ s₀ (boardOpen s d) := by
  unfold boardOpen
  try dsimp only
  repeat' first
    | with_reducible assumption
    | with_reducible exact k_tally _
    | with_reducible exact k_retain _
    | intro _
    | with_reducible apply ite_keeps
    | with_reducible apply tlCheck_keeps
    | with_reducible apply setBoot_keeps
    | with_reducible apply retWrite_keeps
    | with_reducible apply tlRecord_keeps
    | split
    | with_reducible apply Keeps.lit

theorem fusesTake_keeps {d : Nat} {f : Fuses} (k_mode : ∀ d, pgMode d ≠ q₀) (k_inject : ∀ d, pgInject d ≠ q₀) (k_ijl : ∀ d, pgIjl d ≠ q₀) (k_sess : ∀ d, pgSess d ≠ q₀) (hU : Keeps q₀ s₀ s) : Keeps q₀ s₀ (fusesTake s d f) := by
  unfold fusesTake
  try dsimp only
  repeat' first
    | with_reducible assumption
    | with_reducible exact k_mode _
    | with_reducible exact k_inject _
    | with_reducible exact k_ijl _
    | with_reducible exact k_sess _
    | intro _
    | with_reducible apply ite_keeps
    | with_reducible apply setDie_keeps
    | with_reducible apply wf_keeps
    | with_reducible apply each_keeps
    | with_reducible apply allowedFollow_keeps
    | with_reducible apply injFollow_keeps
    | split
    | with_reducible apply Keeps.lit

theorem execFuseRead_kept {d : Nat} {f : Fuses} (k_die : ∀ d, pgDie d ≠ q₀) (k_mode : ∀ d, pgMode d ≠ q₀) (k_tsync : pgTsync ≠ q₀) (k_fence : ∀ d, pgFence d ≠ q₀) (k_inject : ∀ d, pgInject d ≠ q₀) (k_tally : ∀ d, pgTally d ≠ q₀) (k_assay : ∀ d, pgAssay d ≠ q₀) (k_retain : ∀ d, pgRetain d ≠ q₀) (k_hoistGlobal : ∀ d, pgHoistGlobal d ≠ q₀) (k_chuteGlobal : ∀ d, pgChuteGlobal d ≠ q₀) (k_hp : ∀ d i, pgHp d i ≠ q₀) (k_enc : ∀ d i, pgEnc d i ≠ q₀) (k_ax : ∀ d i, pgAx d i ≠ q₀) (k_seam : ∀ d, pgSeam d ≠ q₀) (k_echo : ∀ d, pgEcho d ≠ q₀) (k_ctx : ∀ d, pgCtx d ≠ q₀) (k_chute : ∀ d i, pgChute d i ≠ q₀) (k_debug : ∀ d, pgDebug d ≠ q₀) (k_ijl : ∀ d, pgIjl d ≠ q₀) (k_sess : ∀ d, pgSess d ≠ q₀) (k_fb : ∀ p, (pgKind p).fenceable = true → p ≠ q₀) (hU : Keeps q₀ s₀ s) : Kept q₀ s₀ (execFuseRead d f s) := by
  unfold execFuseRead
  try dsimp only
  repeat' first
    | with_reducible assumption
    | with_reducible exact k_die _
    | with_reducible exact k_mode _
    | with_reducible exact k_tsync
    | with_reducible exact k_fence _
    | with_reducible exact k_inject _
    | with_reducible exact k_tally _
    | with_reducible exact k_assay _
    | with_reducible exact k_retain _
    | with_reducible exact k_hoistGlobal _
    | with_reducible exact k_chuteGlobal _
    | with_reducible exact k_hp _ _
    | with_reducible exact k_enc _ _
    | with_reducible exact k_ax _ _
    | with_reducible exact k_seam _
    | with_reducible exact k_echo _
    | with_reducible exact k_ctx _
    | with_reducible exact k_chute _ _
    | with_reducible exact k_debug _
    | with_reducible exact k_ijl _
    | with_reducible exact k_sess _
    | intro _
    | with_reducible apply ok_kept
    | with_reducible apply ite_kept
    | with_reducible apply ite_keeps
    | with_reducible exact ok_kept (by assumption)
    | with_reducible apply boardOpen_keeps
    | with_reducible apply setBoot_keeps
    | with_reducible apply startFollow_keeps
    | with_reducible apply leaveOut_keeps
    | with_reducible apply stepEnd_keeps
    | with_reducible apply fusesTake_keeps
    | with_reducible apply stepNone_keeps
    | split
    | with_reducible apply Keeps.lit

theorem execCrystal_kept (k_mode : ∀ d, pgMode d ≠ q₀) (k_tb : ∀ d, pgTb d ≠ q₀) (k_retain : ∀ d, pgRetain d ≠ q₀) (hU : Keeps q₀ s₀ s) : Kept q₀ s₀ (execCrystal s) := by
  unfold execCrystal
  try dsimp only
  repeat' first
    | with_reducible assumption
    | with_reducible exact k_mode _
    | with_reducible exact k_tb _
    | with_reducible exact k_retain _
    | intro _
    | with_reducible apply ok_kept
    | with_reducible apply ite_kept
    | with_reducible apply ite_keeps
    | with_reducible exact ok_kept (by assumption)
    | with_reducible apply stepDone_keeps
    | with_reducible apply toInternal_keeps
    | split
    | with_reducible apply Keeps.lit

theorem execPllLock_kept {d : Nat} (k_tb : ∀ d, pgTb d ≠ q₀) (k_retain : ∀ d, pgRetain d ≠ q₀) (hU : Keeps q₀ s₀ s) : Kept q₀ s₀ (execPllLock d s) := by
  unfold execPllLock
  try dsimp only
  repeat' first
    | with_reducible assumption
    | with_reducible exact k_tb _
    | with_reducible exact k_retain _
    | intro _
    | with_reducible apply ok_kept
    | with_reducible apply ite_kept
    | with_reducible apply ite_keeps
    | with_reducible exact ok_kept (by assumption)
    | with_reducible apply setDie_keeps
    | with_reducible apply setDyn_keeps
    | with_reducible apply wb_keeps
    | with_reducible apply stepDone_keeps
    | with_reducible apply secPhase_keeps
    | with_reducible apply setSyncOk_keeps
    | split
    | with_reducible apply Keeps.lit

theorem memAfresh_keeps {d : Nat} (hU : Keeps q₀ s₀ s) : Keeps q₀ s₀ (memAfresh s d) := by
  unfold memAfresh
  try dsimp only
  repeat' first
    | with_reducible assumption
    | intro _
    | with_reducible apply ite_keeps
    | split
    | with_reducible apply Keeps.lit

theorem mapApply_keeps {d : Nat} (k_memctl : ∀ d, pgMemctl d ≠ q₀) (hU : Keeps q₀ s₀ s) : Keeps q₀ s₀ (mapApply s d) := by
  unfold mapApply
  try dsimp only
  repeat' first
    | with_reducible assumption
    | with_reducible exact k_memctl _
    | intro _
    | with_reducible apply ite_keeps
    | with_reducible apply each_keeps
    | with_reducible apply wf_keeps
    | split
    | with_reducible apply Keeps.lit

theorem mapClear_keeps {d : Nat} (k_retain : ∀ d, pgRetain d ≠ q₀) (hU : Keeps q₀ s₀ s) : Keeps q₀ s₀ (mapClear s d) := by
  unfold mapClear
  try dsimp only
  repeat' first
    | with_reducible assumption
    | with_reducible exact k_retain _
    | intro _
    | with_reducible apply ite_keeps
    | with_reducible apply retWrites_keeps
    | with_reducible apply setMemSt_keeps
    | split
    | with_reducible apply Keeps.lit

theorem portIs_keeps {d : Nat} {i : Nat} {e : Nat} {st : Nat} (k_burim : ∀ d, pgBurim d ≠ q₀) (hU : Keeps q₀ s₀ s) : Keeps q₀ s₀ (portIs s d i e st) := by
  unfold portIs
  try dsimp only
  repeat' first
    | with_reducible assumption
    | with_reducible exact k_burim _
    | intro _
    | with_reducible apply ite_keeps
    | with_reducible apply wr_keeps
    | split
    | with_reducible apply Keeps.lit

theorem linksBegin_keeps {d : Nat} (k_retain : ∀ d, pgRetain d ≠ q₀) (k_burim : ∀ d, pgBurim d ≠ q₀) (hU : Keeps q₀ s₀ s) : Keeps q₀ s₀ (linksBegin s d) := by
  unfold linksBegin
  try dsimp only
  repeat' first
    | with_reducible assumption
    | with_reducible exact k_retain _
    | with_reducible exact k_burim _
    | intro _
    | with_reducible apply ite_keeps
    | with_reducible apply stepNone_keeps
    | with_reducible apply each_keeps
    | with_reducible apply portIs_keeps
    | split
    | with_reducible apply Keeps.lit

theorem execMemRepair_kept {d : Nat} (k_memctl : ∀ d, pgMemctl d ≠ q₀) (k_retain : ∀ d, pgRetain d ≠ q₀) (k_burim : ∀ d, pgBurim d ≠ q₀) (hU : Keeps q₀ s₀ s) : Kept q₀ s₀ (execMemRepair d s) := by
  unfold execMemRepair
  try dsimp only
  repeat' first
    | with_reducible assumption
    | with_reducible exact k_memctl _
    | with_reducible exact k_retain _
    | with_reducible exact k_burim _
    | intro _
    | with_reducible apply ok_kept
    | with_reducible apply ite_kept
    | with_reducible apply ite_keeps
    | with_reducible exact ok_kept (by assumption)
    | with_reducible apply memAfresh_keeps
    | with_reducible apply stepDone_keeps
    | with_reducible apply mapClear_keeps
    | with_reducible apply mapApply_keeps
    | with_reducible apply linksBegin_keeps
    | split
    | with_reducible apply Keeps.lit

theorem alignDie_keeps {d : Nat} (k_tb : ∀ d, pgTb d ≠ q₀) (hU : Keeps q₀ s₀ s) : Keeps q₀ s₀ (alignDie s d) := by
  unfold alignDie
  try dsimp only
  repeat' first
    | with_reducible assumption
    | with_reducible exact k_tb _
    | intro _
    | with_reducible apply ite_keeps
    | with_reducible apply setDie_keeps
    | with_reducible apply setSyncOk_keeps
    | with_reducible apply wf_keeps
    | split
    | with_reducible apply Keeps.lit

theorem alignFollow_keeps (k_tb : ∀ d, pgTb d ≠ q₀) (hU : Keeps q₀ s₀ s) : Keeps q₀ s₀ (alignFollow s) := by
  unfold alignFollow
  try dsimp only
  repeat' first
    | with_reducible assumption
    | with_reducible exact k_tb _
    | intro _
    | with_reducible apply ite_keeps
    | with_reducible apply each_keeps
    | with_reducible apply alignDie_keeps
    | split
    | with_reducible apply Keeps.lit

theorem linksEnd_keeps (k_retain : ∀ d, pgRetain d ≠ q₀) (hU : Keeps q₀ s₀ s) : Keeps q₀ s₀ (linksEnd s) := by
  unfold linksEnd
  try dsimp only
  repeat' first
    | with_reducible assumption
    | with_reducible exact k_retain _
    | intro _
    | with_reducible apply ite_keeps
    | with_reducible apply each_keeps
    | with_reducible apply stepEnd_keeps
    | split
    | with_reducible apply Keeps.lit

theorem linkFirstUp_keeps {d : Nat} {i : Nat} {e : Nat} {j : Nat} (k_burim : ∀ d, pgBurim d ≠ q₀) (hU : Keeps q₀ s₀ s) : Keeps q₀ s₀ (linkFirstUp s d i e j) := by
  unfold linkFirstUp
  try dsimp only
  repeat' first
    | with_reducible assumption
    | with_reducible exact k_burim _
    | intro _
    | with_reducible apply ite_keeps
    | with_reducible apply raise_keeps
    | with_reducible apply portIs_keeps
    | split
    | with_reducible apply Keeps.lit

theorem linkKeptDown_keeps {d : Nat} {i : Nat} {e : Nat} {j : Nat} (k_burim : ∀ d, pgBurim d ≠ q₀) (hU : Keeps q₀ s₀ s) : Keeps q₀ s₀ (linkKeptDown s d i e j) := by
  unfold linkKeptDown
  try dsimp only
  repeat' first
    | with_reducible assumption
    | with_reducible exact k_burim _
    | intro _
    | with_reducible apply ite_keeps
    | with_reducible apply raise_keeps
    | with_reducible apply portIs_keeps
    | split
    | with_reducible apply Keeps.lit

theorem linksFollow_keeps (k_die : ∀ d, pgDie d ≠ q₀) (k_mode : ∀ d, pgMode d ≠ q₀) (k_tb : ∀ d, pgTb d ≠ q₀) (k_tsync : pgTsync ≠ q₀) (k_fence : ∀ d, pgFence d ≠ q₀) (k_assay : ∀ d, pgAssay d ≠ q₀) (k_retain : ∀ d, pgRetain d ≠ q₀) (k_hoistGlobal : ∀ d, pgHoistGlobal d ≠ q₀) (k_chuteGlobal : ∀ d, pgChuteGlobal d ≠ q₀) (k_hp : ∀ d i, pgHp d i ≠ q₀) (k_enc : ∀ d i, pgEnc d i ≠ q₀) (k_ax : ∀ d i, pgAx d i ≠ q₀) (k_seam : ∀ d, pgSeam d ≠ q₀) (k_echo : ∀ d, pgEcho d ≠ q₀) (k_burim : ∀ d, pgBurim d ≠ q₀) (k_ctx : ∀ d, pgCtx d ≠ q₀) (k_chute : ∀ d i, pgChute d i ≠ q₀) (k_debug : ∀ d, pgDebug d ≠ q₀) (k_sess : ∀ d, pgSess d ≠ q₀) (k_fb : ∀ p, (pgKind p).fenceable = true → p ≠ q₀) (hU : Keeps q₀ s₀ s) : Keeps q₀ s₀ (linksFollow s) := by
  unfold linksFollow
  try dsimp only
  repeat' first
    | with_reducible assumption
    | with_reducible exact k_die _
    | with_reducible exact k_mode _
    | with_reducible exact k_tb _
    | with_reducible exact k_tsync
    | with_reducible exact k_fence _
    | with_reducible exact k_assay _
    | with_reducible exact k_retain _
    | with_reducible exact k_hoistGlobal _
    | with_reducible exact k_chuteGlobal _
    | with_reducible exact k_hp _ _
    | with_reducible exact k_enc _ _
    | with_reducible exact k_ax _ _
    | with_reducible exact k_seam _
    | with_reducible exact k_echo _
    | with_reducible exact k_burim _
    | with_reducible exact k_ctx _
    | with_reducible exact k_chute _ _
    | with_reducible exact k_debug _
    | with_reducible exact k_sess _
    | intro _
    | with_reducible apply ite_keeps
    | with_reducible apply startFollow_keeps
    | with_reducible apply linksEnd_keeps
    | with_reducible apply alignFollow_keeps
    | with_reducible apply seamsAll_keeps
    | with_reducible apply routesFollow_keeps
    | split
    | with_reducible apply Keeps.lit

theorem execBurimTrain_kept {d : Nat} {i : Nat} (k_die : ∀ d, pgDie d ≠ q₀) (k_mode : ∀ d, pgMode d ≠ q₀) (k_tb : ∀ d, pgTb d ≠ q₀) (k_tsync : pgTsync ≠ q₀) (k_fence : ∀ d, pgFence d ≠ q₀) (k_assay : ∀ d, pgAssay d ≠ q₀) (k_retain : ∀ d, pgRetain d ≠ q₀) (k_hoistGlobal : ∀ d, pgHoistGlobal d ≠ q₀) (k_chuteGlobal : ∀ d, pgChuteGlobal d ≠ q₀) (k_hp : ∀ d i, pgHp d i ≠ q₀) (k_enc : ∀ d i, pgEnc d i ≠ q₀) (k_ax : ∀ d i, pgAx d i ≠ q₀) (k_seam : ∀ d, pgSeam d ≠ q₀) (k_echo : ∀ d, pgEcho d ≠ q₀) (k_burim : ∀ d, pgBurim d ≠ q₀) (k_ctx : ∀ d, pgCtx d ≠ q₀) (k_chute : ∀ d i, pgChute d i ≠ q₀) (k_debug : ∀ d, pgDebug d ≠ q₀) (k_sess : ∀ d, pgSess d ≠ q₀) (k_fb : ∀ p, (pgKind p).fenceable = true → p ≠ q₀) (hU : Keeps q₀ s₀ s) : Kept q₀ s₀ (execBurimTrain d i s) := by
  unfold execBurimTrain
  try dsimp only
  repeat' first
    | with_reducible assumption
    | with_reducible exact k_die _
    | with_reducible exact k_mode _
    | with_reducible exact k_tb _
    | with_reducible exact k_tsync
    | with_reducible exact k_fence _
    | with_reducible exact k_assay _
    | with_reducible exact k_retain _
    | with_reducible exact k_hoistGlobal _
    | with_reducible exact k_chuteGlobal _
    | with_reducible exact k_hp _ _
    | with_reducible exact k_enc _ _
    | with_reducible exact k_ax _ _
    | with_reducible exact k_seam _
    | with_reducible exact k_echo _
    | with_reducible exact k_burim _
    | with_reducible exact k_ctx _
    | with_reducible exact k_chute _ _
    | with_reducible exact k_debug _
    | with_reducible exact k_sess _
    | intro _
    | with_reducible apply ok_kept
    | with_reducible apply ite_kept
    | with_reducible apply ite_keeps
    | with_reducible exact ok_kept (by assumption)
    | with_reducible apply linksFollow_keeps
    | with_reducible apply linkKeptDown_keeps
    | with_reducible apply linkFirstUp_keeps
    | split
    | with_reducible apply Keeps.lit

theorem trimsRestore_keeps {d : Nat} (hU : Keeps q₀ s₀ s) : Keeps q₀ s₀ (trimsRestore s d) := by
  unfold trimsRestore
  try dsimp only
  repeat' first
    | with_reducible assumption
    | intro _
    | with_reducible apply ite_keeps
    | with_reducible apply each_keeps
    | with_reducible apply setIsland_keeps
    | split
    | with_reducible apply Keeps.lit

theorem coreStart_keeps {d : Nat} {image : Nat} (k_mbox : ∀ d b, pgMbox d b ≠ q₀) (hU : Keeps q₀ s₀ s) : Keeps q₀ s₀ (coreStart s d image) := by
  unfold coreStart
  try dsimp only
  repeat' first
    | with_reducible assumption
    | with_reducible exact k_mbox _ _
    | intro _
    | with_reducible apply ite_keeps
    | with_reducible apply setBoot_keeps
    | with_reducible apply setFw_keeps
    | with_reducible apply setFwUp_keeps
    | with_reducible apply trimsRestore_keeps
    | with_reducible apply fwStartNote_keeps
    | split
    | with_reducible apply Keeps.lit

theorem execFwVerify_kept {d : Nat} {image : Nat} (k_die : ∀ d, pgDie d ≠ q₀) (k_mode : ∀ d, pgMode d ≠ q₀) (k_tsync : pgTsync ≠ q₀) (k_fence : ∀ d, pgFence d ≠ q₀) (k_assay : ∀ d, pgAssay d ≠ q₀) (k_retain : ∀ d, pgRetain d ≠ q₀) (k_hoistGlobal : ∀ d, pgHoistGlobal d ≠ q₀) (k_chuteGlobal : ∀ d, pgChuteGlobal d ≠ q₀) (k_mbox : ∀ d b, pgMbox d b ≠ q₀) (k_hp : ∀ d i, pgHp d i ≠ q₀) (k_enc : ∀ d i, pgEnc d i ≠ q₀) (k_ax : ∀ d i, pgAx d i ≠ q₀) (k_seam : ∀ d, pgSeam d ≠ q₀) (k_echo : ∀ d, pgEcho d ≠ q₀) (k_ctx : ∀ d, pgCtx d ≠ q₀) (k_chute : ∀ d i, pgChute d i ≠ q₀) (k_debug : ∀ d, pgDebug d ≠ q₀) (k_sess : ∀ d, pgSess d ≠ q₀) (k_fb : ∀ p, (pgKind p).fenceable = true → p ≠ q₀) (hU : Keeps q₀ s₀ s) : Kept q₀ s₀ (execFwVerify d image s) := by
  unfold execFwVerify
  try dsimp only
  repeat' first
    | with_reducible assumption
    | with_reducible exact k_die _
    | with_reducible exact k_mode _
    | with_reducible exact k_tsync
    | with_reducible exact k_fence _
    | with_reducible exact k_assay _
    | with_reducible exact k_retain _
    | with_reducible exact k_hoistGlobal _
    | with_reducible exact k_chuteGlobal _
    | with_reducible exact k_mbox _ _
    | with_reducible exact k_hp _ _
    | with_reducible exact k_enc _ _
    | with_reducible exact k_ax _ _
    | with_reducible exact k_seam _
    | with_reducible exact k_echo _
    | with_reducible exact k_ctx _
    | with_reducible exact k_chute _ _
    | with_reducible exact k_debug _
    | with_reducible exact k_sess _
    | intro _
    | with_reducible apply ok_kept
    | with_reducible apply ite_kept
    | with_reducible apply ite_keeps
    | with_reducible exact ok_kept (by assumption)
    | with_reducible apply stepDone_keeps
    | with_reducible apply coreStart_keeps
    | with_reducible apply setBoot_keeps
    | with_reducible apply stepNone_keeps
    | with_reducible apply allowedFollow_keeps
    | with_reducible apply startFollow_keeps
    | split
    | with_reducible apply Keeps.lit

theorem execPcieLink_kept {gen : Nat} {width : Nat} {ltssm : Nat} (k_retain : ∀ d, pgRetain d ≠ q₀) (k_pcie : pgPcie ≠ q₀) (hU : Keeps q₀ s₀ s) : Kept q₀ s₀ (execPcieLink gen width ltssm s) := by
  unfold execPcieLink
  try dsimp only
  repeat' first
    | with_reducible assumption
    | with_reducible exact k_retain _
    | with_reducible exact k_pcie
    | intro _
    | with_reducible apply ok_kept
    | with_reducible apply ite_kept
    | with_reducible apply ite_keeps
    | with_reducible exact ok_kept (by assumption)
    | with_reducible apply wb_keeps
    | with_reducible apply stepDone_keeps
    | with_reducible apply hostLinkUp_keeps
    | with_reducible apply each_keeps
    | with_reducible apply assayBegin_keeps
    | split
    | with_reducible apply Keeps.lit

theorem boardEnd_keeps {d : Nat} (k_tally : ∀ d, pgTally d ≠ q₀) (k_retain : ∀ d, pgRetain d ≠ q₀) (k_mbox : ∀ d b, pgMbox d b ≠ q₀) (hU : Keeps q₀ s₀ s) : Keeps q₀ s₀ (boardEnd s d) := by
  unfold boardEnd
  try dsimp only
  repeat' first
    | with_reducible assumption
    | with_reducible exact k_tally _
    | with_reducible exact k_retain _
    | with_reducible exact k_mbox _ _
    | intro _
    | with_reducible apply ite_keeps
    | with_reducible apply tlCopies_keeps
    | with_reducible apply tlHistory_keeps
    | with_reducible apply wf_keeps
    | with_reducible apply whenDo_keeps
    | with_reducible apply raise_keeps
    | with_reducible apply each_keeps
    | with_reducible apply notice_keeps
    | split
    | with_reducible apply Keeps.lit

theorem wakeEnd_keeps (k_die : ∀ d, pgDie d ≠ q₀) (k_mode : ∀ d, pgMode d ≠ q₀) (k_assay : ∀ d, pgAssay d ≠ q₀) (hU : Keeps q₀ s₀ s) : Keeps q₀ s₀ (wakeEnd s) := by
  unfold wakeEnd
  try dsimp only
  repeat' first
    | with_reducible assumption
    | with_reducible exact k_die _
    | with_reducible exact k_mode _
    | with_reducible exact k_assay _
    | intro _
    | with_reducible apply ite_keeps
    | with_reducible apply raise_keeps
    | with_reducible apply count_keeps
    | with_reducible apply modeReq_keeps
    | split
    | with_reducible apply Keeps.lit

theorem descClear_keeps {d : Nat} (hU : Keeps q₀ s₀ s) : Keeps q₀ s₀ (descClear s d) := by
  unfold descClear
  try dsimp only
  repeat' first
    | with_reducible assumption
    | intro _
    | with_reducible apply ite_keeps
    | split
    | with_reducible apply Keeps.lit

theorem startEnd_keeps (k_die : ∀ d, pgDie d ≠ q₀) (k_mode : ∀ d, pgMode d ≠ q₀) (k_tally : ∀ d, pgTally d ≠ q₀) (k_assay : ∀ d, pgAssay d ≠ q₀) (k_retain : ∀ d, pgRetain d ≠ q₀) (k_mbox : ∀ d b, pgMbox d b ≠ q₀) (k_debug : ∀ d, pgDebug d ≠ q₀) (hU : Keeps q₀ s₀ s) : Keeps q₀ s₀ (startEnd s) := by
  unfold startEnd
  try dsimp only
  repeat' first
    | with_reducible assumption
    | with_reducible exact k_die _
    | with_reducible exact k_mode _
    | with_reducible exact k_tally _
    | with_reducible exact k_assay _
    | with_reducible exact k_retain _
    | with_reducible exact k_mbox _ _
    | with_reducible exact k_debug _
    | intro _
    | with_reducible apply ite_keeps
    | with_reducible apply each_keeps
    | with_reducible apply descClear_keeps
    | with_reducible apply boardEnd_keeps
    | with_reducible apply dbgOpen_keeps
    | with_reducible apply wakeEnd_keeps
    | split
    | with_reducible apply Keeps.lit

theorem assayStepEnd_keeps {d : Nat} (k_die : ∀ d, pgDie d ≠ q₀) (k_mode : ∀ d, pgMode d ≠ q₀) (k_tally : ∀ d, pgTally d ≠ q₀) (k_assay : ∀ d, pgAssay d ≠ q₀) (k_retain : ∀ d, pgRetain d ≠ q₀) (k_mbox : ∀ d b, pgMbox d b ≠ q₀) (k_debug : ∀ d, pgDebug d ≠ q₀) (hU : Keeps q₀ s₀ s) : Keeps q₀ s₀ (assayStepEnd s d) := by
  unfold assayStepEnd
  try dsimp only
  repeat' first
    | with_reducible assumption
    | with_reducible exact k_die _
    | with_reducible exact k_mode _
    | with_reducible exact k_tally _
    | with_reducible exact k_assay _
    | with_reducible exact k_retain _
    | with_reducible exact k_mbox _ _
    | with_reducible exact k_debug _
    | intro _
    | with_reducible apply ite_keeps
    | with_reducible apply setBoot_keeps
    | with_reducible apply startEnd_keeps
    | split
    | with_reducible apply Keeps.lit

theorem execInitialAssay_kept {d : Nat} (k_die : ∀ d, pgDie d ≠ q₀) (k_mode : ∀ d, pgMode d ≠ q₀) (k_tally : ∀ d, pgTally d ≠ q₀) (k_assay : ∀ d, pgAssay d ≠ q₀) (k_retain : ∀ d, pgRetain d ≠ q₀) (k_mbox : ∀ d b, pgMbox d b ≠ q₀) (k_debug : ∀ d, pgDebug d ≠ q₀) (hU : Keeps q₀ s₀ s) : Kept q₀ s₀ (execInitialAssay d s) := by
  unfold execInitialAssay
  try dsimp only
  repeat' first
    | with_reducible assumption
    | with_reducible exact k_die _
    | with_reducible exact k_mode _
    | with_reducible exact k_tally _
    | with_reducible exact k_assay _
    | with_reducible exact k_retain _
    | with_reducible exact k_mbox _ _
    | with_reducible exact k_debug _
    | intro _
    | with_reducible apply ok_kept
    | with_reducible apply ite_kept
    | with_reducible apply ite_keeps
    | with_reducible exact ok_kept (by assumption)
    | with_reducible apply assayStepEnd_keeps
    | with_reducible apply stepDone_keeps
    | with_reducible apply tlCheck_keeps
    | split
    | with_reducible apply Keeps.lit

theorem stepFail_keeps {d : Nat} {st : Nat} {detail : Nat} (k_die : ∀ d, pgDie d ≠ q₀) (k_mode : ∀ d, pgMode d ≠ q₀) (k_tally : ∀ d, pgTally d ≠ q₀) (k_assay : ∀ d, pgAssay d ≠ q₀) (k_retain : ∀ d, pgRetain d ≠ q₀) (k_mbox : ∀ d b, pgMbox d b ≠ q₀) (k_debug : ∀ d, pgDebug d ≠ q₀) (hU : Keeps q₀ s₀ s) : Keeps q₀ s₀ (stepFail s d st detail) := by
  unfold stepFail
  try dsimp only
  repeat' first
    | with_reducible assumption
    | with_reducible exact k_die _
    | with_reducible exact k_mode _
    | with_reducible exact k_tally _
    | with_reducible exact k_assay _
    | with_reducible exact k_retain _
    | with_reducible exact k_mbox _ _
    | with_reducible exact k_debug _
    | intro _
    | with_reducible apply ite_keeps
    | with_reducible apply boardOpen_keeps
    | with_reducible apply stepEnd_keeps
    | with_reducible apply assayStepEnd_keeps
    | with_reducible apply setBoot_keeps
    | split
    | with_reducible apply Keeps.lit

theorem execBootStepTimeout_kept {d : Nat} {step : Nat} {detail : Nat} (k_die : ∀ d, pgDie d ≠ q₀) (k_mode : ∀ d, pgMode d ≠ q₀) (k_tb : ∀ d, pgTb d ≠ q₀) (k_tally : ∀ d, pgTally d ≠ q₀) (k_assay : ∀ d, pgAssay d ≠ q₀) (k_retain : ∀ d, pgRetain d ≠ q₀) (k_mbox : ∀ d b, pgMbox d b ≠ q₀) (k_debug : ∀ d, pgDebug d ≠ q₀) (hU : Keeps q₀ s₀ s) : Kept q₀ s₀ (execBootStepTimeout d step detail s) := by
  unfold execBootStepTimeout
  try dsimp only
  repeat' first
    | with_reducible assumption
    | with_reducible exact k_die _
    | with_reducible exact k_mode _
    | with_reducible exact k_tb _
    | with_reducible exact k_tally _
    | with_reducible exact k_assay _
    | with_reducible exact k_retain _
    | with_reducible exact k_mbox _ _
    | with_reducible exact k_debug _
    | intro _
    | with_reducible apply ok_kept
    | with_reducible apply ite_kept
    | with_reducible apply ite_keeps
    | with_reducible exact ok_kept (by assumption)
    | with_reducible apply stepFail_keeps
    | with_reducible apply waitClock_keeps
    | split
    | with_reducible apply Keeps.lit

end Sys2Proof.Laws
end

