-- ==== Sys2Proof/Laws/MailboxUpd.lean ====
section
/-!
SUPPORT. What each operation of `Machine/Mailbox.lean` keeps, and the groups of state it may change (`Upd`).
-/

set_option Elab.async false
set_option linter.unusedTactic false
set_option linter.unreachableTactic false
namespace Sys2Proof.Laws

open Sys2Proof.Machine

variable {gr : Grp} {s₀ s : State}

theorem setInState_upd {d : Nat} {sec : Bool} {n : Nat} {st : Nat} (hU : Upd gr s₀ s) : Upd gr s₀ (setInState s d sec n st) := by
  unfold setInState
  try dsimp only
  repeat' first
    | intro _
    | with_reducible assumption
    | with_reducible apply ite_upd
    | with_reducible apply wf_upd
    | split

theorem inLoad_upd {d : Nat} {sec : Bool} {n : Nat} {ack : Word} {res : List Word} (hU : Upd gr s₀ s) : Upd gr s₀ (inLoad s d sec n ack res) := by
  unfold inLoad
  try dsimp only
  repeat' first
    | intro _
    | with_reducible assumption
    | with_reducible apply ite_upd
    | with_reducible apply each_upd
    | with_reducible apply wr_upd
    | with_reducible apply raise_upd
    | with_reducible apply setInState_upd
    | split

theorem inFinish_upd {d : Nat} {sec : Bool} {n : Nat} {code : Nat} {res : List Word} (hU : Upd gr s₀ s) : Upd gr s₀ (inFinish s d sec n code res) := by
  unfold inFinish
  try dsimp only
  repeat' first
    | intro _
    | with_reducible assumption
    | with_reducible apply ite_upd
    | with_reducible apply setMbox_upd
    | with_reducible apply wr_upd
    | with_reducible apply whenDo_upd
    | with_reducible apply count_upd
    | with_reducible apply setInState_upd
    | with_reducible apply inLoad_upd
    | split
    | with_reducible apply Upd.lit

theorem inPost_upd {d : Nat} {sec : Bool} {n : Nat} {v : Word} (hU : Upd gr s₀ s) : Upd gr s₀ (inPost s d sec n v) := by
  unfold inPost
  try dsimp only
  repeat' first
    | intro _
    | with_reducible assumption
    | with_reducible apply ite_upd
    | with_reducible apply wr_upd
    | with_reducible apply setMbox_upd
    | with_reducible apply inLoad_upd
    | with_reducible apply count_upd
    | split
    | with_reducible apply Upd.lit

theorem inHdrWrite_upd {r : Req} {d : Nat} {sec : Bool} {n : Nat} {v : Word} (hU : Upd gr s₀ s) : Upd gr s₀ (inHdrWrite r d sec n v s) := by
  unfold inHdrWrite
  try dsimp only
  repeat' first
    | intro _
    | with_reducible assumption
    | with_reducible apply ite_upd
    | with_reducible apply logErr_upd
    | with_reducible apply count_upd
    | with_reducible apply inPost_upd
    | split

theorem execMailboxPost_ans {r : Req} {d : Nat} {sec : Bool} {n : Nat} {v : Word} (hU : Upd gr s₀ s) : Ans gr s₀ (execMailboxPost r d sec n v s) := by
  unfold execMailboxPost
  try dsimp only
  repeat' first
    | intro _
    | with_reducible assumption
    | with_reducible apply ok_ans
    | with_reducible apply ite_ans
    | with_reducible apply ite_upd
    | with_reducible exact ok_ans (by assumption)
    | with_reducible apply guardedWrite_upd
    | with_reducible apply inHdrWrite_upd
    | split

theorem inTake_upd {d : Nat} {sec : Bool} {n : Nat} (hU : Upd gr s₀ s) : Upd gr s₀ (inTake s d sec n) := by
  unfold inTake
  try dsimp only
  repeat' first
    | intro _
    | with_reducible assumption
    | with_reducible apply ite_upd
    | with_reducible apply setInState_upd
    | with_reducible apply setMbox_upd
    | with_reducible apply inFinish_upd
    | split
    | with_reducible apply Upd.lit

theorem execMailboxTake_ans {d : Nat} (hU : Upd gr s₀ s) : Ans gr s₀ (execMailboxTake d s) := by
  unfold execMailboxTake
  try dsimp only
  repeat' first
    | intro _
    | with_reducible assumption
    | with_reducible apply ok_ans
    | with_reducible apply ite_ans
    | with_reducible apply ite_upd
    | with_reducible exact ok_ans (by assumption)
    | with_reducible apply inTake_upd
    | split
    | with_reducible apply Upd.lit

theorem longFollow_upd {d : Nat} (hU : Upd gr s₀ s) : Upd gr s₀ (longFollow s d) := by
  unfold longFollow
  try dsimp only
  repeat' first
    | intro _
    | with_reducible assumption
    | with_reducible apply ite_upd
    | with_reducible apply wb_upd
    | split
    | with_reducible apply Upd.lit

theorem setLong_upd {d : Nat} {l : Option LongCmd} (hU : Upd gr s₀ s) : Upd gr s₀ (setLong s d l) := by
  unfold setLong
  try dsimp only
  repeat' first
    | intro _
    | with_reducible assumption
    | with_reducible apply ite_upd
    | with_reducible apply longFollow_upd
    | with_reducible apply setFw_upd
    | split
    | with_reducible apply Upd.lit

theorem execInDone_ans {d : Nat} {sec : Bool} {n : Nat} (hU : Upd gr s₀ s) : Ans gr s₀ (execInDone d sec n s) := by
  unfold execInDone
  try dsimp only
  repeat' first
    | intro _
    | with_reducible assumption
    | with_reducible apply ok_ans
    | with_reducible apply ite_ans
    | with_reducible apply ite_upd
    | with_reducible exact ok_ans (by assumption)
    | with_reducible apply inFinish_upd
    | with_reducible apply setLong_upd
    | split
    | with_reducible apply Upd.lit

theorem longAbandon_upd {d : Nat} {l : LongCmd} (hU : Upd gr s₀ s) : Upd gr s₀ (longAbandon s d l) := by
  unfold longAbandon
  try dsimp only
  repeat' first
    | intro _
    | with_reducible assumption
    | with_reducible apply ite_upd
    | with_reducible apply setLink_upd
    | with_reducible apply sweepAbort_upd
    | split
    | with_reducible apply Upd.lit

theorem longEnd_upd {d : Nat} {code : Nat} (hU : Upd gr s₀ s) : Upd gr s₀ (longEnd s d code) := by
  unfold longEnd
  try dsimp only
  repeat' first
    | intro _
    | with_reducible assumption
    | with_reducible apply ite_upd
    | with_reducible apply longAbandon_upd
    | with_reducible apply inFinish_upd
    | with_reducible apply setLong_upd
    | split
    | with_reducible apply Upd.lit

theorem execLongCmdTimeout_ans {d : Nat} (hU : Upd gr s₀ s) : Ans gr s₀ (execLongCmdTimeout d s) := by
  unfold execLongCmdTimeout
  try dsimp only
  repeat' first
    | intro _
    | with_reducible assumption
    | with_reducible apply ok_ans
    | with_reducible apply ite_ans
    | with_reducible apply ite_upd
    | with_reducible exact ok_ans (by assumption)
    | with_reducible apply longEnd_upd
    | with_reducible apply waitClock_upd
    | split
    | with_reducible apply Upd.lit

theorem setResult_upd {d : Nat} {sec : Bool} {n : Nat} {code : Nat} {res : List Word} (hU : Upd gr s₀ s) : Upd gr s₀ (setResult s d sec n code res) := by
  unfold setResult
  try dsimp only
  repeat' first
    | intro _
    | with_reducible assumption
    | with_reducible apply ite_upd
    | with_reducible apply setMbox_upd
    | split
    | with_reducible apply Upd.lit

theorem inRun_upd {d : Nat} {sec : Bool} {n : Nat} {cmd : Nat} {bad : Option Nat} {eff : State → State} (hU : Upd gr s₀ s) (hf_eff : ∀ tU, Upd gr s₀ tU → Upd gr s₀ (eff tU)) : Upd gr s₀ (inRun s d sec n cmd bad eff) := by
  unfold inRun
  try dsimp only
  repeat' first
    | intro _
    | with_reducible assumption
    | with_reducible apply ite_upd
    | with_reducible apply hf_eff
    | with_reducible apply setResult_upd
    | split
    | with_reducible apply Upd.lit

theorem execGetInfo_ans {d : Nat} {sec : Bool} {n : Nat} (hU : Upd gr s₀ s) : Ans gr s₀ (execGetInfo d sec n s) := by
  unfold execGetInfo
  try dsimp only
  repeat' first
    | intro _
    | with_reducible assumption
    | with_reducible apply ok_ans
    | with_reducible apply ite_ans
    | with_reducible apply ite_upd
    | with_reducible exact ok_ans (by assumption)
    | with_reducible apply inRun_upd
    | with_reducible apply setResult_upd
    | split

theorem execPing_ans {d : Nat} {sec : Bool} {n : Nat} (hU : Upd gr s₀ s) : Ans gr s₀ (execPing d sec n s) := by
  unfold execPing
  try dsimp only
  repeat' first
    | intro _
    | with_reducible assumption
    | with_reducible apply ok_ans
    | with_reducible apply ite_ans
    | with_reducible apply ite_upd
    | with_reducible exact ok_ans (by assumption)
    | with_reducible apply inRun_upd
    | with_reducible apply setResult_upd
    | split

theorem execHeadDiscover_ans {d : Nat} {sec : Bool} {n : Nat} {ans : Option (List Byte)} (hU : Upd gr s₀ s) : Ans gr s₀ (execHeadDiscover d sec n ans s) := by
  unfold execHeadDiscover
  try dsimp only
  repeat' first
    | intro _
    | with_reducible assumption
    | with_reducible apply ok_ans
    | with_reducible apply ite_ans
    | with_reducible apply ite_upd
    | with_reducible exact ok_ans (by assumption)
    | with_reducible apply inRun_upd
    | with_reducible apply setLong_upd
    | with_reducible apply discover_upd
    | with_reducible apply setLink_upd
    | split

theorem execSbRead_ans {d : Nat} {sec : Bool} {n : Nat} {ans : Option (List Byte)} (hU : Upd gr s₀ s) : Ans gr s₀ (execSbRead d sec n ans s) := by
  unfold execSbRead
  try dsimp only
  repeat' first
    | intro _
    | with_reducible assumption
    | with_reducible apply ok_ans
    | with_reducible apply ite_ans
    | with_reducible apply ite_upd
    | with_reducible exact ok_ans (by assumption)
    | with_reducible apply inRun_upd
    | with_reducible apply setResult_upd
    | split
    | with_reducible apply Upd.lit

theorem execSbWrite_ans {d : Nat} {sec : Bool} {n : Nat} {ack : Bool} (hU : Upd gr s₀ s) : Ans gr s₀ (execSbWrite d sec n ack s) := by
  unfold execSbWrite
  try dsimp only
  repeat' first
    | intro _
    | with_reducible assumption
    | with_reducible apply ok_ans
    | with_reducible apply ite_ans
    | with_reducible apply ite_upd
    | with_reducible exact ok_ans (by assumption)
    | with_reducible apply inRun_upd
    | with_reducible apply emit_upd
    | with_reducible apply setResult_upd
    | split

theorem execCaptureRef_ans {d : Nat} {sec : Bool} {n : Nat} (hU : Upd gr s₀ s) : Ans gr s₀ (execCaptureRef d sec n s) := by
  unfold execCaptureRef
  try dsimp only
  repeat' first
    | intro _
    | with_reducible assumption
    | with_reducible apply ok_ans
    | with_reducible apply ite_ans
    | with_reducible apply ite_upd
    | with_reducible exact ok_ans (by assumption)
    | with_reducible apply inRun_upd
    | with_reducible apply wr_upd
    | with_reducible apply sweepStart_upd
    | with_reducible apply setLong_upd
    | split

theorem execAssayRequest_ans {d : Nat} {sec : Bool} {n : Nat} (hU : Upd gr s₀ s) : Ans gr s₀ (execAssayRequest d sec n s) := by
  unfold execAssayRequest
  try dsimp only
  repeat' first
    | intro _
    | with_reducible assumption
    | with_reducible apply ok_ans
    | with_reducible apply ite_ans
    | with_reducible apply ite_upd
    | with_reducible exact ok_ans (by assumption)
    | with_reducible apply inRun_upd
    | with_reducible apply asRequest_upd
    | with_reducible apply setLong_upd
    | with_reducible apply setResult_upd
    | split

theorem execAbortLong_ans {d : Nat} {sec : Bool} {n : Nat} (hU : Upd gr s₀ s) : Ans gr s₀ (execAbortLong d sec n s) := by
  unfold execAbortLong
  try dsimp only
  repeat' first
    | intro _
    | with_reducible assumption
    | with_reducible apply ok_ans
    | with_reducible apply ite_ans
    | with_reducible apply ite_upd
    | with_reducible exact ok_ans (by assumption)
    | with_reducible apply inRun_upd
    | with_reducible apply setResult_upd
    | with_reducible apply longEnd_upd
    | split

theorem execTallyClear_ans {d : Nat} {sec : Bool} {n : Nat} (hE : gr.ecc = true) (hR : gr.ret = true) (hU : Upd gr s₀ s) : Ans gr s₀ (execTallyClear d sec n s) := by
  unfold execTallyClear
  try dsimp only
  repeat' first
    | intro _
    | with_reducible assumption
    | with_reducible apply ok_ans
    | with_reducible apply ite_ans
    | with_reducible apply ite_upd
    | with_reducible exact ok_ans (by assumption)
    | with_reducible apply inRun_upd
    | with_reducible apply setResult_upd
    | with_reducible apply tallyClear_upd
    | split

theorem setFwUp_upd {d : Nat} {b : Bool} (hU : Upd gr s₀ s) : Upd gr s₀ (setFwUp s d b) := by
  unfold setFwUp
  try dsimp only
  repeat' first
    | intro _
    | with_reducible assumption
    | with_reducible apply ite_upd
    | with_reducible apply wb_upd
    | split

theorem fwRestart_upd {d : Nat} {cause : Nat} (hU : Upd gr s₀ s) : Upd gr s₀ (fwRestart s d cause) := by
  unfold fwRestart
  try dsimp only
  repeat' first
    | intro _
    | with_reducible assumption
    | with_reducible apply ite_upd
    | with_reducible apply setFwUp_upd
    | with_reducible apply setFw_upd
    | with_reducible apply longFollow_upd
    | with_reducible apply each_upd
    | with_reducible apply raise_upd
    | with_reducible apply wf_upd
    | with_reducible apply setInState_upd
    | with_reducible apply setMbox_upd
    | with_reducible apply inFinish_upd
    | split
    | with_reducible apply Upd.lit

theorem execFwRestart_ans {d : Nat} {sec : Bool} {n : Nat} (hU : Upd gr s₀ s) : Ans gr s₀ (execFwRestart d sec n s) := by
  unfold execFwRestart
  try dsimp only
  repeat' first
    | intro _
    | with_reducible assumption
    | with_reducible apply ok_ans
    | with_reducible apply ite_ans
    | with_reducible apply ite_upd
    | with_reducible exact ok_ans (by assumption)
    | with_reducible apply inRun_upd
    | with_reducible apply fwRestart_upd
    | with_reducible apply inFinish_upd
    | split

theorem execFwWatchdogRestart_ans {d : Nat} (hU : Upd gr s₀ s) : Ans gr s₀ (execFwWatchdogRestart d s) := by
  unfold execFwWatchdogRestart
  try dsimp only
  repeat' first
    | intro _
    | with_reducible assumption
    | with_reducible apply ok_ans
    | with_reducible apply ite_ans
    | with_reducible apply ite_upd
    | with_reducible exact ok_ans (by assumption)
    | with_reducible apply fwRestart_upd
    | split

theorem fwStartNote_upd {d : Nat} (hU : Upd gr s₀ s) : Upd gr s₀ (fwStartNote s d) := by
  unfold fwStartNote
  try dsimp only
  repeat' first
    | intro _
    | with_reducible assumption
    | with_reducible apply ite_upd
    | with_reducible apply notice_upd
    | split

theorem execFwStarted_ans {d : Nat} (hU : Upd gr s₀ s) : Ans gr s₀ (execFwStarted d s) := by
  unfold execFwStarted
  try dsimp only
  repeat' first
    | intro _
    | with_reducible assumption
    | with_reducible apply ok_ans
    | with_reducible apply ite_ans
    | with_reducible apply ite_upd
    | with_reducible exact ok_ans (by assumption)
    | with_reducible apply fwStartNote_upd
    | with_reducible apply setFwUp_upd
    | with_reducible apply each_upd
    | with_reducible apply inTake_upd
    | split

theorem setFuse_upd {d : Nat} {x : DieSt} (hF : gr.fuse = true) (hU : Upd gr s₀ s)
    (e1 : x.sess.st = 2 → (die s d).sess.st = 2) (e2 : x.tap.session = true → (die s d).tap.session = true) :
    Upd gr s₀ (setDie s d x) :=
  setDie_upd_of hU (fun h => by simp [hF] at h) fun _ => ⟨e1, e2⟩

theorem lcChange_upd {d t : Nat} (hF : gr.fuse = true) (hU : Upd gr s₀ s) : Upd gr s₀ (lcChange s d t) := by
  unfold lcChange
  have h1 : Upd gr s₀ (setDie s d { die s d with lc := t }) := setFuse_upd hF hU id id
  refine raise_upd (raise_upd (each_upd (allowedFollow_upd (ite_upd ?_ (ite_upd h1 (dbgClose_upd h1))))
    fun _ _ h => injFollow_upd h))
  refine wf_upd (setDie_upd (sessClose_upd (setFuse_upd hF (ite_upd h1 (dbgClose_upd h1)) id id)) ⟨rfl, ?_, fun h => h⟩)
  intro h; simp at h

theorem execLifecycleAdvance_ans {d : Nat} {sec : Bool} {n : Nat} {good : Bool} (hF : gr.fuse = true) (hU : Upd gr s₀ s) : Ans gr s₀ (execLifecycleAdvance d sec n good s) := by
  unfold execLifecycleAdvance
  try dsimp only
  repeat' first
    | intro _
    | with_reducible assumption
    | with_reducible apply ok_ans
    | with_reducible apply ite_ans
    | with_reducible apply ite_upd
    | with_reducible exact ok_ans (by assumption)
    | with_reducible apply inRun_upd
    | with_reducible apply setResult_upd
    | with_reducible apply lcChange_upd
    | split

theorem execOutFull_ans {d : Nat} {sec : Bool} {n : Nat} (hU : Upd gr s₀ s) : Ans gr s₀ (execOutFull d sec n s) := by
  unfold execOutFull
  try dsimp only
  repeat' first
    | intro _
    | with_reducible assumption
    | with_reducible apply ok_ans
    | with_reducible apply ite_ans
    | with_reducible apply ite_upd
    | with_reducible exact ok_ans (by assumption)
    | with_reducible apply setMbox_upd
    | with_reducible apply each_upd
    | with_reducible apply wr_upd
    | with_reducible apply raise_upd
    | with_reducible apply wb_upd
    | with_reducible apply outQueued_upd
    | split
    | with_reducible apply Upd.lit

theorem outAck_upd {r : Req} {d : Nat} {sec : Bool} {n : Nat} {v : Word} (hU : Upd gr s₀ s) : Upd gr s₀ (outAck r d sec n v s) := by
  unfold outAck
  try dsimp only
  repeat' first
    | intro _
    | with_reducible assumption
    | with_reducible apply ite_upd
    | with_reducible apply setMbox_upd
    | with_reducible apply wb_upd
    | with_reducible apply logErr_upd
    | split
    | with_reducible apply Upd.lit

theorem execNoticeAck_ans {r : Req} {d : Nat} {sec : Bool} {n : Nat} {v : Word} (hU : Upd gr s₀ s) : Ans gr s₀ (execNoticeAck r d sec n v s) := by
  unfold execNoticeAck
  try dsimp only
  repeat' first
    | intro _
    | with_reducible assumption
    | with_reducible apply ok_ans
    | with_reducible apply ite_ans
    | with_reducible apply ite_upd
    | with_reducible exact ok_ans (by assumption)
    | with_reducible apply guardedWrite_upd
    | with_reducible apply outAck_upd
    | split

theorem execInStuck_ans {d : Nat} {sec : Bool} {n : Nat} (hU : Upd gr s₀ s) : Ans gr s₀ (execInStuck d sec n s) := by
  unfold execInStuck
  try dsimp only
  repeat' first
    | intro _
    | with_reducible assumption
    | with_reducible apply ok_ans
    | with_reducible apply ite_ans
    | with_reducible apply ite_upd
    | with_reducible exact ok_ans (by assumption)
    | with_reducible apply nextFree_upd
    | with_reducible apply waitClock_upd
    | with_reducible apply raise_upd
    | with_reducible apply setMbox_upd
    | split
    | with_reducible apply Upd.lit

theorem execOutStuck_ans {d : Nat} {sec : Bool} {n : Nat} (hU : Upd gr s₀ s) : Ans gr s₀ (execOutStuck d sec n s) := by
  unfold execOutStuck
  try dsimp only
  repeat' first
    | intro _
    | with_reducible assumption
    | with_reducible apply ok_ans
    | with_reducible apply ite_ans
    | with_reducible apply ite_upd
    | with_reducible exact ok_ans (by assumption)
    | with_reducible apply waitClock_upd
    | with_reducible apply raise_upd
    | with_reducible apply setMbox_upd
    | split
    | with_reducible apply Upd.lit

theorem outClear_upd {d : Nat} {sec : Bool} (hU : Upd gr s₀ s) : Upd gr s₀ (outClear s d sec) := by
  unfold outClear
  try dsimp only
  repeat' first
    | intro _
    | with_reducible assumption
    | with_reducible apply ite_upd
    | with_reducible apply each_upd
    | with_reducible apply wr_upd
    | with_reducible apply setMbox_upd
    | split
    | with_reducible apply Upd.lit

theorem mbStop_upd {d : Nat} {sec : Bool} (hU : Upd gr s₀ s) : Upd gr s₀ (mbStop s d sec) := by
  unfold mbStop
  try dsimp only
  repeat' first
    | intro _
    | with_reducible assumption
    | with_reducible apply ite_upd
    | with_reducible apply longEnd_upd
    | with_reducible apply each_upd
    | with_reducible apply inFinish_upd
    | with_reducible apply outClear_upd
    | split
    | with_reducible apply Upd.lit

theorem mbResume_upd {d : Nat} {sec : Bool} (hU : Upd gr s₀ s) : Upd gr s₀ (mbResume s d sec) := by
  unfold mbResume
  try dsimp only
  repeat' first
    | intro _
    | with_reducible assumption
    | with_reducible apply ite_upd
    | with_reducible apply each_upd
    | with_reducible apply setMbox_upd
    | with_reducible apply setInState_upd
    | with_reducible apply count_upd
    | with_reducible apply inLoad_upd
    | split
    | with_reducible apply Upd.lit

theorem mbReset_upd {d : Nat} {sec : Bool} (hU : Upd gr s₀ s) : Upd gr s₀ (mbReset s d sec) := by
  unfold mbReset
  try dsimp only
  repeat' first
    | intro _
    | with_reducible assumption
    | with_reducible apply ite_upd
    | with_reducible apply each_upd
    | with_reducible apply setMbox_upd
    | split

theorem mbFlr_upd {d : Nat} (hU : Upd gr s₀ s) : Upd gr s₀ (mbFlr s d) := by
  unfold mbFlr
  try dsimp only
  repeat' first
    | intro _
    | with_reducible assumption
    | with_reducible apply ite_upd
    | with_reducible apply each_upd
    | with_reducible apply setInState_upd
    | with_reducible apply setMbox_upd
    | with_reducible apply wr_upd
    | with_reducible apply outClear_upd
    | with_reducible apply raise_upd
    | with_reducible apply wf_upd
    | split
    | with_reducible apply Upd.lit

end Sys2Proof.Laws
end

