-- ==== Sys2Proof/Laws/RouteUpd.lean ====
section
/-!
SUPPORT. What each operation of `Machine/Route.lean` keeps, and the groups of state it may change (`Upd`).
-/

set_option Elab.async false
set_option linter.unusedTactic false
set_option linter.unreachableTactic false
namespace Sys2Proof.Laws

open Sys2Proof.Machine

variable {gr : Grp} {s₀ s : State}

theorem routesFollow_upd (hU : Upd gr s₀ s) : Upd gr s₀ (routesFollow s) := by
  unfold routesFollow
  try dsimp only
  repeat' first
    | intro _
    | with_reducible assumption
    | with_reducible apply ite_upd
    | with_reducible apply each_upd
    | with_reducible apply raise_upd
    | with_reducible apply wr_upd
    | split

end Sys2Proof.Laws
end

