-- ==== Sys2Proof/Laws/EncoderUpd.lean ====
section
/-!
SUPPORT. What each operation of `Machine/Encoder.lean` keeps, and the groups of state it may change (`Upd`).
-/

set_option Elab.async false
set_option linter.unusedTactic false
set_option linter.unreachableTactic false
namespace Sys2Proof.Laws

open Sys2Proof.Machine

variable {gr : Grp} {s₀ s : State}

theorem fit48_upd {z : Int} (hU : Upd gr s₀ s) : Upd gr s₀ (fit48 s z).2 := by
  unfold fit48
  try dsimp only
  repeat' first
    | intro _
    | with_reducible assumption
    | with_reducible apply ite_upd
    | with_reducible apply nextFree_upd
    | split

theorem setSpd_upd {d : Nat} {c : Nat} {v : Int} (hU : Upd gr s₀ s) : Upd gr s₀ (setSpd s d c v) := by
  unfold setSpd
  try dsimp only
  repeat' first
    | intro _
    | with_reducible assumption
    | with_reducible apply ite_upd
    | with_reducible apply fit48_upd
    | with_reducible apply wr48_upd
    | (with_reducible refine pair_upd (by assumption) ?_)
    | split

theorem setPos_upd {d : Nat} {c : Nat} {n : Int} (hU : Upd gr s₀ s) : Upd gr s₀ (setPos s d c n) := by
  unfold setPos
  try dsimp only
  repeat' first
    | intro _
    | with_reducible assumption
    | with_reducible apply ite_upd
    | with_reducible apply wr48_upd
    | with_reducible apply winSync_upd
    | with_reducible apply pdMoved_upd
    | with_reducible apply raise_upd
    | split

theorem virtFollow_upd {d : Nat} {c : Nat} (hU : Upd gr s₀ s) : Upd gr s₀ (virtFollow s d c) := by
  unfold virtFollow
  try dsimp only
  repeat' first
    | intro _
    | with_reducible assumption
    | with_reducible apply ite_upd
    | with_reducible apply encSync_upd
    | with_reducible apply pdMoved_upd
    | with_reducible apply raise_upd
    | split

theorem posArrange_upd {d : Nat} (hU : Upd gr s₀ s) : Upd gr s₀ (posArrange s d) := by
  unfold posArrange
  try dsimp only
  repeat' first
    | intro _
    | with_reducible assumption
    | with_reducible apply ite_upd
    | with_reducible apply setChute_upd
    | with_reducible apply each_upd
    | with_reducible apply latch_upd
    | with_reducible apply wf_upd
    | split
    | with_reducible apply Upd.lit

theorem posRecord_upd {d : Nat} {key : Nat} {type : Nat} {ch : Nat} {pd : Nat} {count : Int} {stamp : Int} {w5 : Int} {write : Bool} {latch : Bool} (hU : Upd gr s₀ s) : Upd gr s₀ (posRecord s d key type ch pd count stamp w5 write latch) := by
  unfold posRecord
  try dsimp only
  repeat' first
    | intro _
    | with_reducible assumption
    | with_reducible apply ite_upd
    | with_reducible apply count_upd
    | with_reducible apply latch_upd
    | with_reducible apply posArrange_upd
    | with_reducible apply setDie_upd
    | with_reducible apply chuteRecord_upd
    | exact ⟨rfl, fun h => h, fun h => h⟩
    | exact ⟨rfl, by simp, by simp⟩
    | split
    | with_reducible apply Upd.lit

theorem shiftEst_upd {d : Nat} {c : Nat} {amount : Int} (hU : Upd gr s₀ s) : Upd gr s₀ (shiftEst s d c amount) := by
  unfold shiftEst
  try dsimp only
  repeat' first
    | intro _
    | with_reducible assumption
    | with_reducible apply ite_upd
    | with_reducible apply winShift_upd
    | with_reducible apply setEnc_upd
    | with_reducible apply wr48_upd
    | split
    | with_reducible apply Upd.lit

theorem sendStep_upd {d : Nat} {c : Nat} {amount : Int} {stamp : Int} (hU : Upd gr s₀ s) : Upd gr s₀ (sendStep s d c amount stamp) := by
  unfold sendStep
  try dsimp only
  repeat' first
    | intro _
    | with_reducible assumption
    | with_reducible apply ite_upd
    | with_reducible apply encSend_upd
    | with_reducible apply posRecord_upd
    | with_reducible apply raise_upd
    | split

theorem latchSet_upd {d : Nat} {c : Nat} {src : Nat} {pd : Nat} {stamp : Int} (hU : Upd gr s₀ s) : Upd gr s₀ (latchSet s d c src pd stamp) := by
  unfold latchSet
  try dsimp only
  repeat' first
    | intro _
    | with_reducible assumption
    | with_reducible apply ite_upd
    | with_reducible apply nextFree_upd
    | with_reducible apply setEnc_upd
    | with_reducible apply wr_upd
    | with_reducible apply wr48_upd
    | with_reducible apply posRecord_upd
    | split
    | with_reducible apply Upd.lit

theorem takeLatch_upd {d : Nat} {c : Nat} {src : Nat} {pd : Nat} {stamp : Int} (hU : Upd gr s₀ s) : Upd gr s₀ (takeLatch s d c src pd stamp) := by
  unfold takeLatch
  try dsimp only
  repeat' first
    | intro _
    | with_reducible assumption
    | with_reducible apply ite_upd
    | with_reducible apply latchSet_upd
    | with_reducible apply raise_upd
    | split

theorem latchAgain_upd {d : Nat} {c : Nat} (hU : Upd gr s₀ s) : Upd gr s₀ (latchAgain s d c) := by
  unfold latchAgain
  try dsimp only
  repeat' first
    | intro _
    | with_reducible assumption
    | with_reducible apply ite_upd
    | with_reducible apply latchSet_upd
    | split

theorem correctPos_upd {d : Nat} {c : Nat} {amount : Int} (hU : Upd gr s₀ s) : Upd gr s₀ (correctPos s d c amount) := by
  unfold correctPos
  try dsimp only
  repeat' first
    | intro _
    | with_reducible assumption
    | with_reducible apply ite_upd
    | with_reducible apply latchAgain_upd
    | with_reducible apply shiftEst_upd
    | with_reducible apply setPos_upd
    | split

theorem encLoad_upd {d : Nat} {c : Nat} (hU : Upd gr s₀ s) : Upd gr s₀ (encLoad s d c) := by
  unfold encLoad
  try dsimp only
  repeat' first
    | intro _
    | with_reducible assumption
    | with_reducible apply ite_upd
    | with_reducible apply wrShadow_upd
    | with_reducible apply wr_upd
    | with_reducible apply setEnc_upd
    | with_reducible apply latchAgain_upd
    | with_reducible apply sendStep_upd
    | with_reducible apply shiftEst_upd
    | with_reducible apply setPos_upd
    | split
    | with_reducible apply Upd.lit

theorem latTrigWrite_upd {d : Nat} {c : Nat} {v : Word} (hU : Upd gr s₀ s) : Upd gr s₀ (latTrigWrite d c v s) := by
  unfold latTrigWrite
  try dsimp only
  repeat' first
    | intro _
    | with_reducible assumption
    | with_reducible apply ite_upd
    | with_reducible apply takeLatch_upd
    | split

theorem execLatchSw_ans {r : Req} {d : Nat} {c : Nat} {v : Word} (hU : Upd gr s₀ s) : Ans gr s₀ (execLatchSw r d c v s) := by
  unfold execLatchSw
  try dsimp only
  repeat' first
    | intro _
    | with_reducible assumption
    | with_reducible apply ok_ans
    | with_reducible apply ite_ans
    | with_reducible apply ite_upd
    | with_reducible exact ok_ans (by assumption)
    | with_reducible apply guardedWrite_upd
    | with_reducible apply latTrigWrite_upd
    | split

theorem execLatchPeriodic_ans {d : Nat} {c : Nat} (hU : Upd gr s₀ s) : Ans gr s₀ (execLatchPeriodic d c s) := by
  unfold execLatchPeriodic
  try dsimp only
  repeat' first
    | intro _
    | with_reducible assumption
    | with_reducible apply ok_ans
    | with_reducible apply ite_ans
    | with_reducible apply ite_upd
    | with_reducible apply waitClock_upd
    | with_reducible apply setEnc_upd
    | with_reducible exact ok_ans (by assumption)
    | with_reducible apply takeLatch_upd
    | split
    | with_reducible apply Upd.lit

theorem illegalSample_upd {d : Nat} {c : Nat} (hE : gr.ecc = true) (hU : Upd gr s₀ s) : Upd gr s₀ (illegalSample s d c).2 := by
  unfold illegalSample
  try dsimp only
  repeat' first
    | intro _
    | with_reducible assumption
    | with_reducible apply ite_upd
    | with_reducible apply raise_upd
    | with_reducible apply count_upd
    | with_reducible apply fencePage_upd
    | split

theorem periodResult_e {d c : Nat} (hU : Upd gr s₀ s) {v : Int} {tU : State}
    (e : periodResult s d c = some (v, tU)) : Upd gr s₀ tU := by
  unfold periodResult at e
  dsimp only at e
  repeat' split at e
  all_goals first
    | (cases e; done)
    | (cases e; first
        | exact hU
        | exact nextFree_upd hU)

theorem setMethod_upd {d : Nat} {c : Nat} {period : Bool} (hU : Upd gr s₀ s) : Upd gr s₀ (setMethod s d c period) := by
  unfold setMethod
  try dsimp only
  repeat' first
    | intro _
    | with_reducible assumption
    | with_reducible apply ite_upd
    | with_reducible apply raise_upd
    | with_reducible apply wb_upd
    | split

theorem periodEdge_upd {d : Nat} {c : Nat} (hU : Upd gr s₀ s) : Upd gr s₀ (periodEdge s d c) := by
  unfold periodEdge
  try dsimp only
  repeat' first
    | intro _
    | with_reducible assumption
    | with_reducible apply ite_upd
    | (with_reducible refine periodResult_e ?_ (by assumption))
    | with_reducible apply setSpd_upd
    | with_reducible apply setMethod_upd
    | split
    | with_reducible apply Upd.lit

theorem pushEdges_upd {d : Nat} {c : Nat} {n : Nat} {stamp : Int} {back : Bool} (hU : Upd gr s₀ s) : Upd gr s₀ (pushEdges s d c n stamp back) := by
  unfold pushEdges
  try dsimp only
  repeat' first
    | intro _
    | with_reducible assumption
    | with_reducible apply ite_upd
    | with_reducible apply wb_upd
    | with_reducible apply setEnc_upd
    | split
    | with_reducible apply Upd.lit

theorem countBySample_upd {d : Nat} {c : Nat} {delta : Int} {stamp : Int} (hU : Upd gr s₀ s) : Upd gr s₀ (countBySample s d c delta stamp) := by
  unfold countBySample
  try dsimp only
  repeat' first
    | intro _
    | with_reducible assumption
    | with_reducible apply ite_upd
    | with_reducible apply setPos_upd
    | with_reducible apply pushEdges_upd
    | with_reducible apply setDyn_upd
    | with_reducible apply wb_upd
    | with_reducible apply latchAgain_upd
    | with_reducible apply periodEdge_upd
    | with_reducible apply setEnc_upd
    | split
    | with_reducible apply Upd.lit

theorem abSample_upd {d : Nat} {c : Nat} {ab : Nat} (hE : gr.ecc = true) (hU : Upd gr s₀ s) : Upd gr s₀ (abSample s d c ab) := by
  unfold abSample
  try dsimp only
  repeat' first
    | intro _
    | with_reducible assumption
    | with_reducible apply ite_upd
    | with_reducible apply setEnc_upd
    | with_reducible apply countBySample_upd
    | with_reducible apply illegalSample_upd
    | (with_reducible refine pair_upd (by assumption) ?_)
    | split
    | with_reducible apply Upd.lit

theorem execEncCount_ans {d : Nat} {c : Nat} {la : List Bool} {lb : List Bool} (hE : gr.ecc = true) (hU : Upd gr s₀ s) : Ans gr s₀ (execEncCount d c la lb s) := by
  unfold execEncCount
  try dsimp only
  repeat' first
    | intro _
    | with_reducible assumption
    | with_reducible apply ok_ans
    | with_reducible apply ite_ans
    | with_reducible apply ite_upd
    | with_reducible exact ok_ans (by assumption)
    | with_reducible apply abSample_upd
    | with_reducible apply waitClock_upd
    | split

theorem correctStep_upd {d : Nat} {c : Nat} {amount : Int} {stamp : Int} (hU : Upd gr s₀ s) : Upd gr s₀ (correctStep s d c amount stamp) := by
  unfold correctStep
  try dsimp only
  repeat' first
    | intro _
    | with_reducible assumption
    | with_reducible apply ite_upd
    | with_reducible apply sendStep_upd
    | with_reducible apply correctPos_upd
    | split

theorem idxMismatch_upd {d : Nat} {c : Nat} {cnt : Int} {dist : Int} {stamp : Int} (hU : Upd gr s₀ s) : Upd gr s₀ (idxMismatch s d c cnt dist stamp) := by
  unfold idxMismatch
  try dsimp only
  repeat' first
    | intro _
    | with_reducible assumption
    | with_reducible apply ite_upd
    | with_reducible apply wr48_upd
    | with_reducible apply posRecord_upd
    | with_reducible apply raise_upd
    | with_reducible apply count_upd
    | split

theorem idxCheck_upd {d : Nat} {c : Nat} {stamp : Int} (hE : gr.ecc = true) (hU : Upd gr s₀ s) : Upd gr s₀ (idxCheck s d c stamp) := by
  unfold idxCheck
  try dsimp only
  repeat' first
    | intro _
    | with_reducible assumption
    | with_reducible apply ite_upd
    | with_reducible apply count_upd
    | with_reducible apply wrShadow_upd
    | with_reducible apply wb_upd
    | with_reducible apply correctStep_upd
    | with_reducible apply correctPos_upd
    | with_reducible apply idxMismatch_upd
    | with_reducible apply fencePage_upd
    | split
    | with_reducible apply Upd.lit

theorem zSample_upd {d : Nat} {c : Nat} {z : Bool} (hE : gr.ecc = true) (hU : Upd gr s₀ s) : Upd gr s₀ (zSample s d c z) := by
  unfold zSample
  try dsimp only
  repeat' first
    | intro _
    | with_reducible assumption
    | with_reducible apply ite_upd
    | with_reducible apply setEnc_upd
    | with_reducible apply raise_upd
    | with_reducible apply count_upd
    | with_reducible apply idxCheck_upd
    | with_reducible apply takeLatch_upd
    | split
    | with_reducible apply Upd.lit

theorem execIndex_ans {d : Nat} {c : Nat} {raw : List Bool} (hE : gr.ecc = true) (hU : Upd gr s₀ s) : Ans gr s₀ (execIndex d c raw s) := by
  unfold execIndex
  try dsimp only
  repeat' first
    | intro _
    | with_reducible assumption
    | with_reducible apply ok_ans
    | with_reducible apply ite_ans
    | with_reducible apply ite_upd
    | with_reducible exact ok_ans (by assumption)
    | with_reducible apply zSample_upd
    | with_reducible apply waitClock_upd
    | split

theorem windowEnd_upd {d : Nat} {c : Nat} (hU : Upd gr s₀ s) : Upd gr s₀ (windowEnd s d c) := by
  unfold windowEnd
  try dsimp only
  repeat' first
    | intro _
    | with_reducible assumption
    | with_reducible apply ite_upd
    | with_reducible apply winSync_upd
    | with_reducible apply setEnc_upd
    | with_reducible apply setSpd_upd
    | with_reducible apply setMethod_upd
    | split
    | with_reducible apply Upd.lit

theorem execSpeedWindow_ans {d : Nat} {c : Nat} (hU : Upd gr s₀ s) : Ans gr s₀ (execSpeedWindow d c s) := by
  unfold execSpeedWindow
  try dsimp only
  repeat' first
    | intro _
    | with_reducible assumption
    | with_reducible apply ok_ans
    | with_reducible apply ite_ans
    | with_reducible apply ite_upd
    | with_reducible exact ok_ans (by assumption)
    | with_reducible apply windowEnd_upd
    | with_reducible apply waitClock_upd
    | split

theorem execPeriodSpeedLimit_ans {d : Nat} {c : Nat} (hU : Upd gr s₀ s) : Ans gr s₀ (execPeriodSpeedLimit d c s) := by
  unfold execPeriodSpeedLimit
  try dsimp only
  repeat' first
    | intro _
    | with_reducible assumption
    | with_reducible apply ok_ans
    | with_reducible apply ite_ans
    | with_reducible apply ite_upd
    | with_reducible apply waitClock_upd
    | with_reducible apply setEnc_upd
    | with_reducible exact ok_ans (by assumption)
    | with_reducible apply setSpd_upd
    | split
    | with_reducible apply Upd.lit

theorem execSpeedStopped_ans {d : Nat} {c : Nat} (hU : Upd gr s₀ s) : Ans gr s₀ (execSpeedStopped d c s) := by
  unfold execSpeedStopped
  try dsimp only
  repeat' first
    | intro _
    | with_reducible assumption
    | with_reducible apply ok_ans
    | with_reducible apply ite_ans
    | with_reducible apply ite_upd
    | with_reducible apply waitClock_upd
    | with_reducible exact ok_ans (by assumption)
    | with_reducible apply wb_upd
    | with_reducible apply setSpd_upd
    | split

theorem serFail_upd {d : Nat} {c : Nat} {code : Nat} (hE : gr.ecc = true) (hU : Upd gr s₀ s) : Upd gr s₀ (serFail s d c code) := by
  unfold serFail
  try dsimp only
  repeat' first
    | intro _
    | with_reducible assumption
    | with_reducible apply ite_upd
    | with_reducible apply wf_upd
    | with_reducible apply count_upd
    | with_reducible apply raise_upd
    | with_reducible apply setEnc_upd
    | with_reducible apply fencePage_upd
    | split
    | with_reducible apply Upd.lit

theorem execSerialFrameStart_ans {d : Nat} {c : Nat} {slo : Bool} (hE : gr.ecc = true) (hU : Upd gr s₀ s) : Ans gr s₀ (execSerialFrameStart d c slo s) := by
  unfold execSerialFrameStart
  try dsimp only
  repeat' first
    | intro _
    | with_reducible assumption
    | with_reducible apply ok_ans
    | with_reducible apply ite_ans
    | with_reducible apply ite_upd
    | with_reducible apply waitClock_upd
    | with_reducible exact ok_ans (by assumption)
    | with_reducible apply setEnc_upd
    | with_reducible apply serFail_upd
    | with_reducible apply padB_upd
    | split
    | with_reducible apply Upd.lit

theorem serUse_upd {d : Nat} {c : Nat} {value : Nat} {delta : Option Int} {warn : Bool} (hU : Upd gr s₀ s) : Upd gr s₀ (serUse s d c value delta warn) := by
  unfold serUse
  try dsimp only
  repeat' first
    | intro _
    | with_reducible assumption
    | with_reducible apply ite_upd
    | with_reducible apply setEnc_upd
    | with_reducible apply wb_upd
    | with_reducible apply wf_upd
    | with_reducible apply warn_upd
    | with_reducible apply setPos_upd
    | with_reducible apply raise_upd
    | with_reducible apply latchAgain_upd
    | split
    | with_reducible apply Upd.lit

theorem serPassed_upd {d : Nat} {c : Nat} {value : Nat} {warn : Bool} (hE : gr.ecc = true) (hU : Upd gr s₀ s) : Upd gr s₀ (serPassed s d c value warn) := by
  unfold serPassed
  try dsimp only
  repeat' first
    | intro _
    | with_reducible assumption
    | with_reducible apply ite_upd
    | with_reducible apply serUse_upd
    | with_reducible apply warn_upd
    | with_reducible apply serFail_upd
    | split
    | with_reducible apply Upd.lit

theorem serStale_upd {d : Nat} {c : Nat} (hU : Upd gr s₀ s) : Upd gr s₀ (serStale s d c) := by
  unfold serStale
  try dsimp only
  repeat' first
    | intro _
    | with_reducible assumption
    | with_reducible apply ite_upd
    | with_reducible apply wf_upd
    | with_reducible apply count_upd
    | with_reducible apply setEnc_upd
    | split
    | with_reducible apply Upd.lit

theorem serLine_upd {d : Nat} {c : Nat} {line : Nat} (hU : Upd gr s₀ s) : Upd gr s₀ (serLine s d c line) := by
  unfold serLine
  try dsimp only
  repeat' first
    | intro _
    | with_reducible assumption
    | with_reducible apply ite_upd
    | with_reducible apply wf_upd
    | with_reducible apply nextFree_upd
    | split

theorem serEnd_upd {d : Nat} {c : Nat} {f : SerFrame} (hE : gr.ecc = true) (hU : Upd gr s₀ s) : Upd gr s₀ (serEnd s d c f) := by
  unfold serEnd
  try dsimp only
  repeat' first
    | intro _
    | with_reducible assumption
    | with_reducible apply ite_upd
    | with_reducible apply injPick_upd
    | with_reducible apply serFail_upd
    | with_reducible apply serLine_upd
    | with_reducible apply serStale_upd
    | with_reducible apply serPassed_upd
    | (with_reducible refine pair_upd (by assumption) ?_)
    | split
    | with_reducible apply Upd.lit

theorem serShut_upd {d : Nat} {c : Nat} (hU : Upd gr s₀ s) : Upd gr s₀ (serShut s d c) := by
  unfold serShut
  try dsimp only
  repeat' first
    | intro _
    | with_reducible assumption
    | with_reducible apply ite_upd
    | with_reducible apply serDrop_upd
    | split

theorem execSerialFrameEnd_ans {d : Nat} {c : Nat} {f : SerFrame} (hE : gr.ecc = true) (hU : Upd gr s₀ s) : Ans gr s₀ (execSerialFrameEnd d c f s) := by
  unfold execSerialFrameEnd
  try dsimp only
  repeat' first
    | intro _
    | with_reducible assumption
    | with_reducible apply ok_ans
    | with_reducible apply ite_ans
    | with_reducible apply ite_upd
    | with_reducible exact ok_ans (by assumption)
    | with_reducible apply padB_upd
    | with_reducible apply serEnd_upd
    | with_reducible apply serShut_upd
    | split

theorem execSerialTimeout_ans {d : Nat} {c : Nat} {ack : Bool} (hE : gr.ecc = true) (hU : Upd gr s₀ s) : Ans gr s₀ (execSerialTimeout d c ack s) := by
  unfold execSerialTimeout
  try dsimp only
  repeat' first
    | intro _
    | with_reducible assumption
    | with_reducible apply ok_ans
    | with_reducible apply ite_ans
    | with_reducible apply ite_upd
    | with_reducible exact ok_ans (by assumption)
    | with_reducible apply padB_upd
    | with_reducible apply serFail_upd
    | with_reducible apply serShut_upd
    | split

theorem estPublish_upd {d : Nat} {c : Nat} {p : Int} {v : Int} {a : Int} {valid : Bool} (hU : Upd gr s₀ s) : Upd gr s₀ (estPublish s d c p v a valid) := by
  unfold estPublish
  try dsimp only
  repeat' first
    | intro _
    | with_reducible assumption
    | with_reducible apply ite_upd
    | with_reducible apply setEnc_upd
    | with_reducible apply wr48_upd
    | with_reducible apply setDyn_upd
    | with_reducible apply wb_upd
    | with_reducible apply encSend_upd
    | split
    | with_reducible apply Upd.lit

theorem estNext_upd {d : Nat} {c : Nat} (hU : Upd gr s₀ s) : Upd gr s₀ (estNext s d c).2 := by
  unfold estNext
  try dsimp only
  repeat' first
    | intro _
    | with_reducible assumption
    | with_reducible apply ite_upd
    | with_reducible apply nextFree_upd
    | with_reducible apply fit48_upd
    | (with_reducible refine pair_upd (by assumption) ?_)
    | split

theorem estRestart_upd {d : Nat} {c : Nat} (hU : Upd gr s₀ s) : Upd gr s₀ (estRestart s d c).2 := by
  unfold estRestart
  try dsimp only
  repeat' first
    | intro _
    | with_reducible assumption
    | with_reducible apply ite_upd
    | with_reducible apply setEnc_upd
    | with_reducible apply wf_upd
    | with_reducible apply raise_upd
    | split
    | with_reducible apply Upd.lit

theorem estStill_upd {d : Nat} {c : Nat} {e : Int × Int × Int} (hU : Upd gr s₀ s) : Upd gr s₀ (estStill s d c e).2 := by
  unfold estStill
  try dsimp only
  repeat' first
    | intro _
    | with_reducible assumption
    | with_reducible apply ite_upd
    | with_reducible apply setEnc_upd
    | with_reducible apply wb_upd
    | split
    | with_reducible apply Upd.lit

theorem estUpdate_upd {d : Nat} {c : Nat} (hU : Upd gr s₀ s) : Upd gr s₀ (estUpdate s d c) := by
  unfold estUpdate
  try dsimp only
  repeat' first
    | intro _
    | with_reducible assumption
    | with_reducible apply ite_upd
    | with_reducible apply estRestart_upd
    | with_reducible apply estNext_upd
    | with_reducible apply estStill_upd
    | with_reducible apply wf_upd
    | with_reducible apply estPublish_upd
    | with_reducible apply wb_upd
    | (with_reducible refine pair_upd (by assumption) ?_)
    | split

theorem virtUpdate_upd {d : Nat} {c : Nat} (hU : Upd gr s₀ s) : Upd gr s₀ (virtUpdate s d c) := by
  unfold virtUpdate
  try dsimp only
  repeat' first
    | intro _
    | with_reducible assumption
    | with_reducible apply ite_upd
    | with_reducible apply encLost_upd
    | with_reducible apply encInvalid_upd
    | with_reducible apply setEnc_upd
    | with_reducible apply virtFollow_upd
    | with_reducible apply estPublish_upd
    | with_reducible apply wf_upd
    | with_reducible apply nextFree_upd
    | split
    | with_reducible apply Upd.lit

theorem execEstimatorUpdate_ans {d : Nat} {c : Nat} (hU : Upd gr s₀ s) : Ans gr s₀ (execEstimatorUpdate d c s) := by
  unfold execEstimatorUpdate
  try dsimp only
  repeat' first
    | intro _
    | with_reducible assumption
    | with_reducible apply ok_ans
    | with_reducible apply ite_ans
    | with_reducible apply ite_upd
    | with_reducible apply waitClock_upd
    | with_reducible apply setEnc_upd
    | with_reducible exact ok_ans (by assumption)
    | with_reducible apply estUpdate_upd
    | with_reducible apply virtUpdate_upd
    | split
    | with_reducible apply Upd.lit

theorem remoteLose_upd {d : Nat} {c : Nat} (hU : Upd gr s₀ s) : Upd gr s₀ (remoteLose s d c) := by
  unfold remoteLose
  try dsimp only
  repeat' first
    | intro _
    | with_reducible assumption
    | with_reducible apply ite_upd
    | with_reducible apply encLost_upd
    | with_reducible apply encInvalid_upd
    | with_reducible apply setEnc_upd
    | split
    | with_reducible apply Upd.lit

theorem remoteEst_upd {d : Nat} {c : Nat} {e : Est} (hU : Upd gr s₀ s) : Upd gr s₀ (remoteEst s d c e) := by
  unfold remoteEst
  try dsimp only
  repeat' first
    | intro _
    | with_reducible assumption
    | with_reducible apply ite_upd
    | with_reducible apply setEnc_upd
    | with_reducible apply wr48_upd
    | with_reducible apply encSend_upd
    | with_reducible apply setDyn_upd
    | with_reducible apply wb_upd
    | split
    | with_reducible apply Upd.lit

theorem remoteTake_upd {d : Nat} {c : Nat} {m : HopMsg} (hU : Upd gr s₀ s) : Upd gr s₀ (remoteTake s d c m) := by
  unfold remoteTake
  try dsimp only
  repeat' first
    | intro _
    | with_reducible assumption
    | with_reducible apply ite_upd
    | with_reducible apply pdMoved_upd
    | with_reducible apply wr48_upd
    | with_reducible apply winSync_upd
    | with_reducible apply remoteEst_upd
    | with_reducible apply encSend_upd
    | with_reducible apply winShift_upd
    | with_reducible apply remoteLose_upd
    | split
    | with_reducible apply Upd.lit

theorem execRemoteEstimateReceive_ans {d : Nat} {c : Nat} (hU : Upd gr s₀ s) : Ans gr s₀ (execRemoteEstimateReceive d c s) := by
  unfold execRemoteEstimateReceive
  try dsimp only
  repeat' first
    | intro _
    | with_reducible assumption
    | with_reducible apply ok_ans
    | with_reducible apply ite_ans
    | with_reducible apply ite_upd
    | with_reducible exact ok_ans (by assumption)
    | with_reducible apply remoteTake_upd
    | split
    | with_reducible apply Upd.lit

theorem execRemoteSourceLost_ans {d : Nat} {c : Nat} (hU : Upd gr s₀ s) : Ans gr s₀ (execRemoteSourceLost d c s) := by
  unfold execRemoteSourceLost
  try dsimp only
  repeat' first
    | intro _
    | with_reducible assumption
    | with_reducible apply ok_ans
    | with_reducible apply ite_ans
    | with_reducible apply ite_upd
    | with_reducible exact ok_ans (by assumption)
    | with_reducible apply remoteLose_upd
    | with_reducible apply waitClock_upd
    | split

theorem decodeRestart_upd {d : Nat} {c : Nat} {k : Nat} (hU : Upd gr s₀ s) : Upd gr s₀ (decodeRestart s d c k) := by
  unfold decodeRestart
  try dsimp only
  repeat' first
    | intro _
    | with_reducible assumption
    | with_reducible apply ite_upd
    | with_reducible apply setEnc_upd
    | split
    | with_reducible apply Upd.lit

theorem virtTake_upd {d : Nat} {c : Nat} {pos : Int} (hU : Upd gr s₀ s) : Upd gr s₀ (virtTake s d c pos) := by
  unfold virtTake
  try dsimp only
  repeat' first
    | intro _
    | with_reducible assumption
    | with_reducible apply ite_upd
    | with_reducible apply setEnc_upd
    | split
    | with_reducible apply Upd.lit

theorem spdFollow_upd {d : Nat} {c : Nat} (hU : Upd gr s₀ s) : Upd gr s₀ (spdFollow s d c) := by
  unfold spdFollow
  try dsimp only
  repeat' first
    | intro _
    | with_reducible assumption
    | with_reducible apply ite_upd
    | with_reducible apply wb_upd
    | split

theorem modeTurn_upd {d : Nat} {c : Nat} {pos : Int} (hU : Upd gr s₀ s) : Upd gr s₀ (modeTurn s d c pos) := by
  unfold modeTurn
  try dsimp only
  repeat' first
    | intro _
    | with_reducible assumption
    | with_reducible apply ite_upd
    | with_reducible apply decodeRestart_upd
    | with_reducible apply virtTake_upd
    | with_reducible apply wr48_upd
    | with_reducible apply setEnc_upd
    | split
    | with_reducible apply Upd.lit

theorem encHandOver_upd {d : Nat} {c : Nat} (hU : Upd gr s₀ s) : Upd gr s₀ (encHandOver s d c) := by
  unfold encHandOver
  try dsimp only
  repeat' first
    | intro _
    | with_reducible assumption
    | with_reducible apply ite_upd
    | with_reducible apply virtFollow_upd
    | with_reducible apply winSync_upd
    | with_reducible apply setEnc_upd
    | with_reducible apply takeShadows_upd
    | with_reducible apply modeTurn_upd
    | with_reducible apply spdFollow_upd
    | with_reducible apply padB_upd
    | with_reducible apply pdMoved_upd
    | with_reducible apply encLoad_upd
    | split
    | with_reducible apply Upd.lit

theorem encStart_upd {d : Nat} {c : Nat} (hU : Upd gr s₀ s) : Upd gr s₀ (encStart s d c) := by
  unfold encStart
  try dsimp only
  repeat' first
    | intro _
    | with_reducible assumption
    | with_reducible apply ite_upd
    | with_reducible apply setPstate_upd
    | with_reducible apply setEnc_upd
    | with_reducible apply spdFollow_upd
    | with_reducible apply virtTake_upd
    | with_reducible apply decodeRestart_upd
    | split
    | with_reducible apply Upd.lit

theorem encStop_upd {d : Nat} {c : Nat} (hU : Upd gr s₀ s) : Upd gr s₀ (encStop s d c) := by
  unfold encStop
  try dsimp only
  repeat' first
    | intro _
    | with_reducible assumption
    | with_reducible apply ite_upd
    | with_reducible apply pdUnlock_upd
    | with_reducible apply encLost_upd
    | with_reducible apply encInvalid_upd
    | split

theorem encTimeStep_upd {d : Nat} {c : Nat} (hU : Upd gr s₀ s) : Upd gr s₀ (encTimeStep s d c) := by
  unfold encTimeStep
  try dsimp only
  repeat' first
    | intro _
    | with_reducible assumption
    | with_reducible apply ite_upd
    | with_reducible apply serDrop_upd
    | with_reducible apply setEnc_upd
    | split
    | with_reducible apply Upd.lit

end Sys2Proof.Laws
end

