-- ==== Sys2Proof/Laws/PdUpd.lean ====
section
/-!
SUPPORT. What each operation of `Machine/Pd.lean` keeps, and the groups of state it may change (`Upd`).
-/

set_option Elab.async false
set_option linter.unusedTactic false
set_option linter.unreachableTactic false
namespace Sys2Proof.Laws

open Sys2Proof.Machine

variable {gr : Grp} {s₀ s : State}

theorem pdIgnore_upd {d : Nat} {n : Nat} (hU : Upd gr s₀ s) : Upd gr s₀ (pdIgnore s d n) := by
  unfold pdIgnore
  try dsimp only
  repeat' first
    | intro _
    | with_reducible assumption
    | with_reducible apply ite_upd
    | with_reducible apply raise_upd
    | with_reducible apply count_upd
    | split

theorem pdAccept_upd {d : Nat} {n : Nat} {stamp : Int} (hU : Upd gr s₀ s) : Upd gr s₀ (pdAccept s d n stamp) := by
  unfold pdAccept
  try dsimp only
  repeat' first
    | intro _
    | with_reducible assumption
    | with_reducible apply ite_upd
    | with_reducible apply raise_upd
    | with_reducible apply count_upd
    | with_reducible apply wr48_upd
    | with_reducible apply nextFree_upd
    | with_reducible apply setPdIn_upd
    | with_reducible apply each_upd
    | with_reducible apply takeLatch_upd
    | with_reducible apply posRecord_upd
    | with_reducible apply sendMsg_upd
    | split
    | with_reducible apply Upd.lit

theorem pdPass_upd {d : Nat} {n : Nat} (hU : Upd gr s₀ s) : Upd gr s₀ (pdPass s d n) := by
  unfold pdPass
  try dsimp only
  repeat' first
    | intro _
    | with_reducible assumption
    | with_reducible apply ite_upd
    | with_reducible apply wb_upd
    | with_reducible apply pdAccept_upd
    | with_reducible apply pdIgnore_upd
    | split

theorem pdRaw_upd {d : Nat} {n : Nat} {level : Bool} (hU : Upd gr s₀ s) : Upd gr s₀ (pdRaw s d n level) := by
  unfold pdRaw
  try dsimp only
  repeat' first
    | intro _
    | with_reducible assumption
    | with_reducible apply ite_upd
    | with_reducible apply setPdIn_upd
    | split
    | with_reducible apply Upd.lit

theorem execProduct_ans {d : Nat} {n : Nat} {level : Bool} (hU : Upd gr s₀ s) : Ans gr s₀ (execProduct d n level s) := by
  unfold execProduct
  try dsimp only
  repeat' first
    | intro _
    | with_reducible assumption
    | with_reducible apply ok_ans
    | with_reducible apply ite_ans
    | with_reducible apply ite_upd
    | with_reducible apply waitClock_upd
    | with_reducible exact ok_ans (by assumption)
    | with_reducible apply pdRaw_upd
    | with_reducible apply pdPass_upd
    | split

theorem pdStart_upd {d : Nat} (hU : Upd gr s₀ s) : Upd gr s₀ (pdStart s d) := by
  unfold pdStart
  try dsimp only
  repeat' first
    | intro _
    | with_reducible assumption
    | with_reducible apply ite_upd
    | with_reducible apply each_upd
    | with_reducible apply setPdIn_upd
    | split
    | with_reducible apply Upd.lit

theorem execPdLockoutEnd_ans {d : Nat} {n : Nat} (hU : Upd gr s₀ s) : Ans gr s₀ (execPdLockoutEnd d n s) := by
  unfold execPdLockoutEnd
  try dsimp only
  repeat' first
    | intro _
    | with_reducible assumption
    | with_reducible apply ok_ans
    | with_reducible apply ite_ans
    | with_reducible apply ite_upd
    | with_reducible apply waitClock_upd
    | with_reducible exact ok_ans (by assumption)
    | with_reducible apply setPdIn_upd
    | split
    | with_reducible apply Upd.lit

theorem pdTurn_upd {s0 : State} {d : Nat} {n : Nat} (hU : Upd gr s₀ s) (hU_s0 : Upd gr s₀ s0) : Upd gr s₀ (pdTurn s0 s d n) := by
  unfold pdTurn
  try dsimp only
  repeat' first
    | intro _
    | with_reducible assumption
    | with_reducible apply ite_upd
    | with_reducible apply wb_upd
    | with_reducible apply setPdIn_upd
    | split
    | with_reducible apply Upd.lit

theorem pdHandOver_upd {d : Nat} (hU : Upd gr s₀ s) : Upd gr s₀ (pdHandOver s d) := by
  unfold pdHandOver
  try dsimp only
  repeat' first
    | intro _
    | with_reducible assumption
    | with_reducible apply ite_upd
    | with_reducible apply each_upd
    | with_reducible apply takeShadows_upd
    | with_reducible apply pdTurn_upd
    | split

end Sys2Proof.Laws
end

