-- ==== Sys2Proof/Laws/SecurityUpd.lean ====
section
/-!
SUPPORT. What each operation of `Machine/Security.lean` keeps, and the groups of state it may change (`Upd`).
-/

set_option Elab.async false
set_option linter.unusedTactic false
set_option linter.unreachableTactic false
namespace Sys2Proof.Laws

open Sys2Proof.Machine

variable {gr : Grp} {s₀ s : State}

theorem sessState_upd {d st : Nat} (hs : st ≠ 2) (hU : Upd gr s₀ s) : Upd gr s₀ (sessState s d st) :=
  wf_upd (setDie_upd hU ⟨rfl, fun h => absurd h hs, fun h => h⟩)

/-- A session opens, where the groups allow it. -/
theorem sessState_open_upd {d st : Nat} (hS : gr.sess = true) (hU : Upd gr s₀ s) : Upd gr s₀ (sessState s d st) :=
  wf_upd (setDie_upd_of hU (fun _ => rfl) fun h => by simp [hS] at h)

theorem wrs_upd {p : Pg} {off : Nat} {ws : List Word} (hU : Upd gr s₀ s) : Upd gr s₀ (wrs s p off ws) := by
  unfold wrs
  try dsimp only
  repeat' first
    | intro _
    | with_reducible assumption
    | with_reducible apply ite_upd
    | with_reducible apply each_upd
    | with_reducible apply wr_upd
    | split

theorem skipFree_upd {n : Nat} (hU : Upd gr s₀ s) : Upd gr s₀ (skipFree s n) := by
  unfold skipFree
  try dsimp only
  repeat' first
    | intro _
    | with_reducible assumption
    | with_reducible apply ite_upd
    | split
    | with_reducible apply Upd.lit

theorem sessStart_upd {r : Req} {d : Nat} {bind : Bool} (hU : Upd gr s₀ s) : Upd gr s₀ (sessStart s r d bind) := by
  unfold sessStart
  try dsimp only
  repeat' first
    | (decide)
    | (show (if _ then 3 else 0) ≠ 2; split <;> decide)
    | intro _
    | with_reducible assumption
    | with_reducible apply ite_upd
    | with_reducible apply logErr_upd
    | with_reducible apply sessClose_upd
    | with_reducible apply setDie_upd
    | with_reducible apply skipFree_upd
    | with_reducible apply wrs_upd
    | with_reducible apply sessState_upd
    | with_reducible apply wr_upd
    | exact ⟨rfl, fun h => h, fun h => h⟩
    | exact ⟨rfl, by simp, by simp⟩
    | split
    | with_reducible apply Upd.lit

theorem sessCtrlWrite_upd {r : Req} {d : Nat} {v : Word} (hU : Upd gr s₀ s) : Upd gr s₀ (sessCtrlWrite r d v s) := by
  unfold sessCtrlWrite
  try dsimp only
  repeat' first
    | intro _
    | with_reducible assumption
    | with_reducible apply ite_upd
    | with_reducible apply wb_upd
    | with_reducible apply sessClose_upd
    | with_reducible apply sessStart_upd
    | split

theorem execSessionStart_ans {r : Req} {d : Nat} {bind : Bool} (hU : Upd gr s₀ s) : Ans gr s₀ (execSessionStart r d bind s) := by
  unfold execSessionStart
  try dsimp only
  repeat' first
    | intro _
    | with_reducible assumption
    | with_reducible apply ok_ans
    | with_reducible apply ite_ans
    | with_reducible apply ite_upd
    | with_reducible exact ok_ans (by assumption)
    | with_reducible apply guardedWrite_upd
    | with_reducible apply sessCtrlWrite_upd
    | split

theorem sessCloseWrite_upd {r : Req} {d : Nat} (hU : Upd gr s₀ s) : Upd gr s₀ (sessCloseWrite r d s) := by
  unfold sessCloseWrite
  try dsimp only
  repeat' first
    | intro _
    | with_reducible assumption
    | with_reducible apply ite_upd
    | with_reducible apply sessCtrlWrite_upd
    | split

theorem execSessionClose_ans {r : Req} {d : Nat} (hU : Upd gr s₀ s) : Ans gr s₀ (execSessionClose r d s) := by
  unfold execSessionClose
  try dsimp only
  repeat' first
    | intro _
    | with_reducible assumption
    | with_reducible apply ok_ans
    | with_reducible apply ite_ans
    | with_reducible apply ite_upd
    | with_reducible exact ok_ans (by assumption)
    | with_reducible apply guardedWrite_upd
    | with_reducible apply sessCloseWrite_upd
    | split

theorem nonceDrop_upd {d : Nat} (hU : Upd gr s₀ s) : Upd gr s₀ (nonceDrop s d) := by
  unfold nonceDrop
  try dsimp only
  repeat' first
    | intro _
    | with_reducible assumption
    | with_reducible apply ite_upd
    | with_reducible apply wrs_upd
    | with_reducible apply skipFree_upd
    | split

theorem sessOpen_upd {d : Nat} (hS : gr.sess = true) (hU : Upd gr s₀ s) : Upd gr s₀ (sessOpen s d) := by
  unfold sessOpen
  exact raise_upd (count_upd (wf_upd (sessState_open_upd hS (setDie_upd (wrs_upd hU) ⟨rfl, fun h => h, fun h => h⟩))))

theorem sessFail_upd {d : Nat} (hU : Upd gr s₀ s) : Upd gr s₀ (sessFail s d) := by
  unfold sessFail
  try dsimp only
  repeat' first
    | (decide)
    | (show (if _ then 3 else 0) ≠ 2; split <;> decide)
    | intro _
    | with_reducible assumption
    | with_reducible apply ite_upd
    | with_reducible apply setDie_upd
    | with_reducible apply sessState_upd
    | with_reducible apply raise_upd
    | with_reducible apply count_upd
    | with_reducible apply wf_upd
    | exact ⟨rfl, fun h => h, fun h => h⟩
    | exact ⟨rfl, by simp, by simp⟩
    | split
    | with_reducible apply Upd.lit

theorem sessCheck_upd {r : Req} {d : Nat} {v : Word} (hS : gr.sess = true) (hU : Upd gr s₀ s) : Upd gr s₀ (sessCheck r d v s) := by
  unfold sessCheck
  try dsimp only
  repeat' first
    | intro _
    | with_reducible assumption
    | with_reducible apply ite_upd
    | with_reducible apply logErr_upd
    | with_reducible apply wr_upd
    | with_reducible apply nonceDrop_upd
    | with_reducible apply sessOpen_upd
    | with_reducible apply sessFail_upd
    | split

theorem execSessionCheck_ans {r : Req} {d : Nat} {v : Word} (hS : gr.sess = true) (hU : Upd gr s₀ s) : Ans gr s₀ (execSessionCheck r d v s) := by
  unfold execSessionCheck
  try dsimp only
  repeat' first
    | intro _
    | with_reducible assumption
    | with_reducible apply ok_ans
    | with_reducible apply ite_ans
    | with_reducible apply ite_upd
    | with_reducible exact ok_ans (by assumption)
    | with_reducible apply guardedWrite_upd
    | with_reducible apply sessCheck_upd
    | split

theorem sessDataWrite_upd {r : Req} {d : Nat} {off : Nat} {v : Word} (hU : Upd gr s₀ s) : Upd gr s₀ (sessDataWrite r d off v s) := by
  unfold sessDataWrite
  try dsimp only
  repeat' first
    | intro _
    | with_reducible assumption
    | with_reducible apply ite_upd
    | with_reducible apply logErr_upd
    | with_reducible apply wr_upd
    | split

theorem execSessionTimeout_ans {d : Nat} (hU : Upd gr s₀ s) : Ans gr s₀ (execSessionTimeout d s) := by
  unfold execSessionTimeout
  try dsimp only
  repeat' first
    | intro _
    | with_reducible assumption
    | with_reducible apply ok_ans
    | with_reducible apply ite_ans
    | with_reducible apply ite_upd
    | with_reducible exact ok_ans (by assumption)
    | with_reducible apply sessClose_upd
    | with_reducible apply waitClock_upd
    | split

theorem execBackoffEnd_ans {d : Nat} (hU : Upd gr s₀ s) : Ans gr s₀ (execBackoffEnd d s) := by
  unfold execBackoffEnd
  try dsimp only
  repeat' first
    | (decide)
    | (show (if _ then 3 else 0) ≠ 2; split <;> decide)
    | intro _
    | with_reducible assumption
    | with_reducible apply ok_ans
    | with_reducible apply ite_ans
    | with_reducible apply ite_upd
    | with_reducible exact ok_ans (by assumption)
    | with_reducible apply sessState_upd
    | with_reducible apply waitClock_upd
    | split

theorem guardSet_upd {r : Req} {d : Nat} {off : Nat} {v : Word} (hU : Upd gr s₀ s) : Upd gr s₀ (guardSet r d off v s) := by
  unfold guardSet
  try dsimp only
  repeat' first
    | intro _
    | with_reducible assumption
    | with_reducible apply ite_upd
    | with_reducible apply plainWrite_upd
    | with_reducible apply wr48_upd
    | with_reducible apply count_upd
    | with_reducible apply raise_upd
    | with_reducible apply wr_upd
    | split

theorem execGuardWrite_ans {r : Req} {d : Nat} {off : Nat} {v : Word} (hU : Upd gr s₀ s) : Ans gr s₀ (execGuardWrite r d off v s) := by
  unfold execGuardWrite
  try dsimp only
  repeat' first
    | intro _
    | with_reducible assumption
    | with_reducible apply ok_ans
    | with_reducible apply ite_ans
    | with_reducible apply ite_upd
    | with_reducible exact ok_ans (by assumption)
    | with_reducible apply guardedWrite_upd
    | with_reducible apply guardSet_upd
    | split

theorem tapIr_upd {d : Nat} {code : Nat} (hU : Upd gr s₀ s) : Upd gr s₀ (tapIr s d code) := by
  unfold tapIr
  try dsimp only
  repeat' first
    | intro _
    | with_reducible assumption
    | with_reducible apply ite_upd
    | with_reducible apply wf_upd
    | with_reducible apply setDie_upd
    | exact ⟨rfl, fun h => h, fun h => h⟩
    | exact ⟨rfl, by simp, by simp⟩
    | split
    | with_reducible apply Upd.lit

theorem tapScan_upd {d : Nat} {code : Nat} (hE : gr.ecc = true) (hU : Upd gr s₀ s) : Upd gr s₀ (tapScan s d code) := by
  unfold tapScan
  try dsimp only
  repeat' first
    | intro _
    | with_reducible assumption
    | with_reducible apply ite_upd
    | with_reducible apply tapIr_upd
    | with_reducible apply each_upd
    | with_reducible apply fencePage_upd
    | split

theorem execExtest_ans {d : Nat} (hE : gr.ecc = true) (hU : Upd gr s₀ s) : Ans gr s₀ (execExtest d s) := by
  unfold execExtest
  try dsimp only
  repeat' first
    | intro _
    | with_reducible assumption
    | with_reducible apply ok_ans
    | with_reducible apply ite_ans
    | with_reducible apply ite_upd
    | with_reducible exact ok_ans (by assumption)
    | with_reducible apply tapScan_upd
    | split

theorem execClamp_ans {d : Nat} (hE : gr.ecc = true) (hU : Upd gr s₀ s) : Ans gr s₀ (execClamp d s) := by
  unfold execClamp
  try dsimp only
  repeat' first
    | intro _
    | with_reducible assumption
    | with_reducible apply ok_ans
    | with_reducible apply ite_ans
    | with_reducible apply ite_upd
    | with_reducible exact ok_ans (by assumption)
    | with_reducible apply tapScan_upd
    | split

theorem execHighz_ans {d : Nat} (hE : gr.ecc = true) (hU : Upd gr s₀ s) : Ans gr s₀ (execHighz d s) := by
  unfold execHighz
  try dsimp only
  repeat' first
    | intro _
    | with_reducible assumption
    | with_reducible apply ok_ans
    | with_reducible apply ite_ans
    | with_reducible apply ite_upd
    | with_reducible exact ok_ans (by assumption)
    | with_reducible apply tapScan_upd
    | split

theorem execExtestPulse_ans {d : Nat} (hE : gr.ecc = true) (hU : Upd gr s₀ s) : Ans gr s₀ (execExtestPulse d s) := by
  unfold execExtestPulse
  try dsimp only
  repeat' first
    | intro _
    | with_reducible assumption
    | with_reducible apply ok_ans
    | with_reducible apply ite_ans
    | with_reducible apply ite_upd
    | with_reducible exact ok_ans (by assumption)
    | with_reducible apply tapScan_upd
    | split

theorem execExtestTrain_ans {d : Nat} (hE : gr.ecc = true) (hU : Upd gr s₀ s) : Ans gr s₀ (execExtestTrain d s) := by
  unfold execExtestTrain
  try dsimp only
  repeat' first
    | intro _
    | with_reducible assumption
    | with_reducible apply ok_ans
    | with_reducible apply ite_ans
    | with_reducible apply ite_upd
    | with_reducible exact ok_ans (by assumption)
    | with_reducible apply tapScan_upd
    | split

theorem execSamplePreload_ans {d : Nat} (hU : Upd gr s₀ s) : Ans gr s₀ (execSamplePreload d s) := by
  unfold execSamplePreload
  try dsimp only
  repeat' first
    | intro _
    | with_reducible assumption
    | with_reducible apply ok_ans
    | with_reducible apply ite_ans
    | with_reducible apply ite_upd
    | with_reducible exact ok_ans (by assumption)
    | with_reducible apply tapIr_upd
    | split

theorem execIdcode_ans {d : Nat} (hU : Upd gr s₀ s) : Ans gr s₀ (execIdcode d s) := by
  unfold execIdcode
  try dsimp only
  repeat' first
    | intro _
    | with_reducible assumption
    | with_reducible apply ok_ans
    | with_reducible apply ite_ans
    | with_reducible apply ite_upd
    | with_reducible exact ok_ans (by assumption)
    | with_reducible apply tapIr_upd
    | split
    | with_reducible apply Upd.lit

theorem execDbgStatus_ans {d : Nat} (hU : Upd gr s₀ s) : Ans gr s₀ (execDbgStatus d s) := by
  unfold execDbgStatus
  try dsimp only
  repeat' first
    | intro _
    | with_reducible assumption
    | with_reducible apply ok_ans
    | with_reducible apply ite_ans
    | with_reducible apply ite_upd
    | with_reducible apply tapIr_upd
    | with_reducible exact ok_ans (by assumption)
    | split
    | with_reducible apply Upd.lit

theorem tapChal_upd {d : Nat} (hU : Upd gr s₀ s) : Upd gr s₀ (tapChal s d) := by
  unfold tapChal
  try dsimp only
  repeat' first
    | intro _
    | with_reducible assumption
    | with_reducible apply ite_upd
    | with_reducible apply tapIr_upd
    | with_reducible apply nextFree_upd
    | with_reducible apply setDie_upd
    | exact ⟨rfl, fun h => h, fun h => h⟩
    | exact ⟨rfl, by simp, by simp⟩
    | split
    | with_reducible apply Upd.lit

theorem execUnlockChal_ans {d : Nat} (hU : Upd gr s₀ s) : Ans gr s₀ (execUnlockChal d s) := by
  unfold execUnlockChal
  try dsimp only
  repeat' first
    | intro _
    | with_reducible assumption
    | with_reducible apply ok_ans
    | with_reducible apply ite_ans
    | with_reducible apply ite_upd
    | with_reducible exact ok_ans (by assumption)
    | with_reducible apply tapChal_upd
    | split

theorem dbgOpen_upd {d : Nat} (hS : gr.sess = true) (hU : Upd gr s₀ s) : Upd gr s₀ (dbgOpen s d) := by
  unfold dbgOpen
  exact allowedFollow_upd (raise_upd (raise_upd (count_upd (wb_upd
    (setDie_upd_of hU (fun _ => rfl) fun h => by simp [hS] at h)))))

theorem tokenBad_upd {d : Nat} (hU : Upd gr s₀ s) : Upd gr s₀ (tokenBad s d) := by
  unfold tokenBad
  try dsimp only
  repeat' first
    | intro _
    | with_reducible assumption
    | with_reducible apply ite_upd
    | with_reducible apply setDie_upd
    | with_reducible apply wf_upd
    | with_reducible apply wb_upd
    | with_reducible apply raise_upd
    | with_reducible apply count_upd
    | exact ⟨rfl, fun h => h, fun h => h⟩
    | exact ⟨rfl, by simp, by simp⟩
    | split
    | with_reducible apply Upd.lit
    | with_reducible apply Upd.litOut
    | exact List.prefix_append _ _
    | (rw [List.append_assoc]; exact List.prefix_append _ _)

theorem unlockUpdate_upd {d : Nat} {token : Nat} (hS : gr.sess = true) (hU : Upd gr s₀ s) : Upd gr s₀ (unlockUpdate s d token) := by
  unfold unlockUpdate
  try dsimp only
  repeat' first
    | intro _
    | with_reducible assumption
    | with_reducible apply ite_upd
    | with_reducible apply tapIr_upd
    | with_reducible apply setDie_upd
    | with_reducible apply dbgOpen_upd
    | with_reducible apply tokenBad_upd
    | exact ⟨rfl, fun h => h, fun h => h⟩
    | exact ⟨rfl, by simp, by simp⟩
    | split
    | with_reducible apply Upd.lit

theorem execUnlockResp_ans {d : Nat} {token : Nat} (hS : gr.sess = true) (hU : Upd gr s₀ s) : Ans gr s₀ (execUnlockResp d token s) := by
  unfold execUnlockResp
  try dsimp only
  repeat' first
    | intro _
    | with_reducible assumption
    | with_reducible apply ok_ans
    | with_reducible apply ite_ans
    | with_reducible apply ite_upd
    | with_reducible exact ok_ans (by assumption)
    | with_reducible apply unlockUpdate_upd
    | split

theorem execDbgClose_ans {d : Nat} (hU : Upd gr s₀ s) : Ans gr s₀ (execDbgClose d s) := by
  unfold execDbgClose
  try dsimp only
  repeat' first
    | intro _
    | with_reducible assumption
    | with_reducible apply ok_ans
    | with_reducible apply ite_ans
    | with_reducible apply ite_upd
    | with_reducible exact ok_ans (by assumption)
    | with_reducible apply dbgClose_upd
    | with_reducible apply tapIr_upd
    | split

theorem execBypass_ans {d : Nat} {code : Nat} (hU : Upd gr s₀ s) : Ans gr s₀ (execBypass d code s) := by
  unfold execBypass
  try dsimp only
  repeat' first
    | intro _
    | with_reducible assumption
    | with_reducible apply ok_ans
    | with_reducible apply ite_ans
    | with_reducible apply ite_upd
    | with_reducible exact ok_ans (by assumption)
    | with_reducible apply tapIr_upd
    | split

theorem dbgCtrlWrite_upd {d : Nat} {v : Word} (hU : Upd gr s₀ s) : Upd gr s₀ (dbgCtrlWrite d v s) := by
  unfold dbgCtrlWrite
  try dsimp only
  repeat' first
    | intro _
    | with_reducible assumption
    | with_reducible apply ite_upd
    | with_reducible apply dbgClose_upd
    | split

theorem execDbgCtrlClose_ans {r : Req} {d : Nat} (hU : Upd gr s₀ s) : Ans gr s₀ (execDbgCtrlClose r d s) := by
  unfold execDbgCtrlClose
  try dsimp only
  repeat' first
    | intro _
    | with_reducible assumption
    | with_reducible apply ok_ans
    | with_reducible apply ite_ans
    | with_reducible apply ite_upd
    | with_reducible exact ok_ans (by assumption)
    | with_reducible apply guardedWrite_upd
    | with_reducible apply dbgCtrlWrite_upd
    | split

theorem execTrstLow_ans {d : Nat} (hU : Upd gr s₀ s) : Ans gr s₀ (execTrstLow d s) := by
  unfold execTrstLow
  try dsimp only
  repeat' first
    | intro _
    | with_reducible assumption
    | with_reducible apply ok_ans
    | with_reducible apply ite_ans
    | with_reducible apply ite_upd
    | with_reducible exact ok_ans (by assumption)
    | with_reducible apply dbgClose_upd
    | with_reducible apply tapIr_upd
    | split

theorem ijlWrite_upd {r : Req} {d : Nat} {v : Word} (hU : Upd gr s₀ s) : Upd gr s₀ (ijlWrite r d v s) := by
  unfold ijlWrite
  try dsimp only
  repeat' first
    | intro _
    | with_reducible assumption
    | with_reducible apply ite_upd
    | with_reducible apply injFollow_upd
    | with_reducible apply plainWrite_upd
    | split

theorem execIjlAllowWrite_ans {r : Req} {d : Nat} {allow : Bool} (hU : Upd gr s₀ s) : Ans gr s₀ (execIjlAllowWrite r d allow s) := by
  unfold execIjlAllowWrite
  try dsimp only
  repeat' first
    | intro _
    | with_reducible assumption
    | with_reducible apply ok_ans
    | with_reducible apply ite_ans
    | with_reducible apply ite_upd
    | with_reducible exact ok_ans (by assumption)
    | with_reducible apply guardedWrite_upd
    | with_reducible apply ijlWrite_upd
    | split

end Sys2Proof.Laws
end

