-- ==== Sys2Proof/Laws/ModeUpd.lean ====
section
/-!
SUPPORT. What each operation of `Machine/Mode.lean` keeps, and the groups of state it may change (`Upd`).
-/

set_option Elab.async false
set_option linter.unusedTactic false
set_option linter.unreachableTactic false
namespace Sys2Proof.Laws

open Sys2Proof.Machine

variable {gr : Grp} {s₀ s : State}

theorem modeAccept_upd {code : Nat} (hU : Upd gr s₀ s) : Upd gr s₀ (modeAccept s code) := by
  unfold modeAccept
  try dsimp only
  repeat' first
    | intro _
    | with_reducible assumption
    | with_reducible apply ite_upd
    | with_reducible apply wr48_upd
    | with_reducible apply wf_upd
    | with_reducible apply wb_upd
    | with_reducible apply each_upd
    | with_reducible apply nextFree_upd
    | with_reducible apply setSave_upd
    | split
    | with_reducible apply Upd.lit

theorem modeReq_upd {d : Nat} {v : Word} (hU : Upd gr s₀ s) : Upd gr s₀ (modeReq d v s) := by
  unfold modeReq
  try dsimp only
  repeat' first
    | intro _
    | with_reducible assumption
    | with_reducible apply ite_upd
    | with_reducible apply raise_upd
    | with_reducible apply wf_upd
    | with_reducible apply count_upd
    | with_reducible apply modeAccept_upd
    | split
    | with_reducible apply Upd.lit

theorem execModeReqWrite_ans {r : Req} {d : Nat} {v : Word} (hU : Upd gr s₀ s) : Ans gr s₀ (execModeReqWrite r d v s) := by
  unfold execModeReqWrite
  try dsimp only
  repeat' first
    | intro _
    | with_reducible assumption
    | with_reducible apply ok_ans
    | with_reducible apply ite_ans
    | with_reducible apply ite_upd
    | with_reducible exact ok_ans (by assumption)
    | with_reducible apply guardedWrite_upd
    | with_reducible apply modeReq_upd
    | split

theorem modeLeadSet_upd {d : Nat} {v : Word} (hU : Upd gr s₀ s) : Upd gr s₀ (modeLeadSet d v s) := by
  unfold modeLeadSet
  try dsimp only
  repeat' first
    | intro _
    | with_reducible assumption
    | with_reducible apply ite_upd
    | with_reducible apply raise_upd
    | with_reducible apply wf_upd
    | split

theorem execModeLeadWrite_ans {r : Req} {d : Nat} {v : Word} (hU : Upd gr s₀ s) : Ans gr s₀ (execModeLeadWrite r d v s) := by
  unfold execModeLeadWrite
  try dsimp only
  repeat' first
    | intro _
    | with_reducible assumption
    | with_reducible apply ok_ans
    | with_reducible apply ite_ans
    | with_reducible apply ite_upd
    | with_reducible exact ok_ans (by assumption)
    | with_reducible apply guardedWrite_upd
    | with_reducible apply modeLeadSet_upd
    | split

theorem portsFollow_upd {d : Nat} (hU : Upd gr s₀ s) : Upd gr s₀ (portsFollow s d) := by
  unfold portsFollow
  try dsimp only
  repeat' first
    | intro _
    | with_reducible assumption
    | with_reducible apply ite_upd
    | with_reducible apply each_upd
    | with_reducible apply streamFollow_upd
    | with_reducible apply htrFollow_upd
    | split

theorem stbyAxis_upd {d : Nat} {a : Nat} (hU : Upd gr s₀ s) : Upd gr s₀ (stbyAxis s d a) := by
  unfold stbyAxis
  try dsimp only
  repeat' first
    | intro _
    | with_reducible assumption
    | with_reducible apply ite_upd
    | with_reducible apply setPosValid_upd
    | with_reducible apply setAxis_upd
    | split
    | with_reducible apply Upd.lit

theorem stbyEnc_upd {d : Nat} {c : Nat} (hU : Upd gr s₀ s) : Upd gr s₀ (stbyEnc s d c) := by
  unfold stbyEnc
  try dsimp only
  repeat' first
    | intro _
    | with_reducible assumption
    | with_reducible apply ite_upd
    | with_reducible apply setEnc_upd
    | with_reducible apply encSync_upd
    | split
    | with_reducible apply Upd.lit

theorem stbyEnter_upd {d : Nat} (hU : Upd gr s₀ s) : Upd gr s₀ (stbyEnter s d) := by
  unfold stbyEnter
  try dsimp only
  repeat' first
    | intro _
    | with_reducible assumption
    | with_reducible apply ite_upd
    | with_reducible apply each_upd
    | with_reducible apply stbyAxis_upd
    | with_reducible apply stbyEnc_upd
    | with_reducible apply setDyn_upd
    | with_reducible apply wb_upd
    | split

theorem stbyExit_upd {d : Nat} (hE : gr.ecc = true) (hU : Upd gr s₀ s) : Upd gr s₀ (stbyExit s d) := by
  unfold stbyExit
  try dsimp only
  repeat' first
    | intro _
    | with_reducible assumption
    | with_reducible apply ite_upd
    | with_reducible apply each_upd
    | with_reducible apply retrain_upd
    | with_reducible apply setMstate_upd
    | with_reducible apply setAxis_upd
    | with_reducible apply decodeRestart_upd
    | with_reducible apply setEnc_upd
    | with_reducible apply setDyn_upd
    | with_reducible apply wb_upd
    | split
    | with_reducible apply Upd.lit

theorem dieMode_upd {d : Nat} {code : Nat} (hE : gr.ecc = true) (hU : Upd gr s₀ s) : Upd gr s₀ (dieMode s d code) := by
  unfold dieMode
  try dsimp only
  repeat' first
    | intro _
    | with_reducible assumption
    | with_reducible apply ite_upd
    | with_reducible apply stbyEnter_upd
    | with_reducible apply raise_upd
    | with_reducible apply wf_upd
    | with_reducible apply wb_upd
    | with_reducible apply portsFollow_upd
    | with_reducible apply sweepBreak_upd
    | with_reducible apply asModeChange_upd
    | with_reducible apply stbyExit_upd
    | split

theorem modeSwitch_upd (hE : gr.ecc = true) (hU : Upd gr s₀ s) : Upd gr s₀ (modeSwitch s) := by
  unfold modeSwitch
  try dsimp only
  repeat' first
    | intro _
    | with_reducible assumption
    | with_reducible apply ite_upd
    | with_reducible apply wf_upd
    | with_reducible apply each_upd
    | with_reducible apply dieMode_upd
    | split
    | with_reducible apply Upd.lit

theorem execModeChanged_ans (hE : gr.ecc = true) (hU : Upd gr s₀ s) : Ans gr s₀ (execModeChanged s) := by
  unfold execModeChanged
  try dsimp only
  repeat' first
    | intro _
    | with_reducible assumption
    | with_reducible apply ok_ans
    | with_reducible apply ite_ans
    | with_reducible apply ite_upd
    | with_reducible exact ok_ans (by assumption)
    | with_reducible apply modeSwitch_upd
    | with_reducible apply waitTick_upd
    | split

theorem execModeClockSettled_ans (hU : Upd gr s₀ s) : Ans gr s₀ (execModeClockSettled s) := by
  unfold execModeClockSettled
  try dsimp only
  repeat' first
    | intro _
    | with_reducible assumption
    | with_reducible apply ok_ans
    | with_reducible apply ite_ans
    | with_reducible apply ite_upd
    | with_reducible exact ok_ans (by assumption)
    | with_reducible apply waitClock_upd
    | split
    | with_reducible apply Upd.lit

theorem modeMirror_upd {d : Nat} (hU : Upd gr s₀ s) : Upd gr s₀ (modeMirror s d) := by
  unfold modeMirror
  try dsimp only
  repeat' first
    | intro _
    | with_reducible assumption
    | with_reducible apply ite_upd
    | with_reducible apply each_upd
    | with_reducible apply wr_upd
    | with_reducible apply wb_upd
    | with_reducible apply setDie_upd
    | with_reducible apply whenDo_upd
    | with_reducible apply raise_upd
    | exact ⟨rfl, fun h => h, fun h => h⟩
    | exact ⟨rfl, by simp, by simp⟩
    | split
    | with_reducible apply Upd.lit

theorem execModeMirrorArrive_ans {d : Nat} (hU : Upd gr s₀ s) : Ans gr s₀ (execModeMirrorArrive d s) := by
  unfold execModeMirrorArrive
  try dsimp only
  repeat' first
    | intro _
    | with_reducible assumption
    | with_reducible apply ok_ans
    | with_reducible apply ite_ans
    | with_reducible apply ite_upd
    | with_reducible exact ok_ans (by assumption)
    | with_reducible apply modeMirror_upd
    | split

end Sys2Proof.Laws
end

