-- ==== Sys2Proof/Laws/TimebaseUpd.lean ====
section
/-!
SUPPORT. What each operation of `Machine/Timebase.lean` keeps, and the groups of state it may change (`Upd`).
-/

set_option Elab.async false
set_option linter.unusedTactic false
set_option linter.unreachableTactic false
namespace Sys2Proof.Laws

open Sys2Proof.Machine

variable {gr : Grp} {s₀ s : State}

theorem tbMirror_upd {off : Nat} (hU : Upd gr s₀ s) : Upd gr s₀ (tbMirror s off) := by
  unfold tbMirror
  try dsimp only
  repeat' first
    | intro _
    | with_reducible assumption
    | with_reducible apply ite_upd
    | with_reducible apply each_upd
    | with_reducible apply wr_upd
    | split

theorem tbFollow_upd (hU : Upd gr s₀ s) : Upd gr s₀ (tbFollow s) := by
  unfold tbFollow
  try dsimp only
  repeat' first
    | intro _
    | with_reducible assumption
    | with_reducible apply ite_upd
    | with_reducible apply each_upd
    | with_reducible apply setDyn_upd
    | with_reducible apply wb_upd
    | split

theorem freqRelax_upd (hU : Upd gr s₀ s) : Upd gr s₀ (freqRelax s) := by
  unfold freqRelax
  try dsimp only
  repeat' first
    | intro _
    | with_reducible assumption
    | with_reducible apply ite_upd
    | with_reducible apply wr_upd
    | split
    | with_reducible apply Upd.lit

theorem xtalUpdate_upd {temp : Int} (hU : Upd gr s₀ s) : Upd gr s₀ (xtalUpdate s temp) := by
  unfold xtalUpdate
  try dsimp only
  repeat' first
    | intro _
    | with_reducible assumption
    | with_reducible apply ite_upd
    | with_reducible apply wr_upd
    | with_reducible apply nextFree_upd
    | with_reducible apply tbFollow_upd
    | with_reducible apply freqRelax_upd
    | with_reducible apply tbMirror_upd
    | split
    | with_reducible apply Upd.lit

theorem execXtalCompUpdate_ans {temp : Int} (hU : Upd gr s₀ s) : Ans gr s₀ (execXtalCompUpdate temp s) := by
  unfold execXtalCompUpdate
  try dsimp only
  repeat' first
    | intro _
    | with_reducible assumption
    | with_reducible apply ok_ans
    | with_reducible apply ite_ans
    | with_reducible apply ite_upd
    | with_reducible exact ok_ans (by assumption)
    | with_reducible apply xtalUpdate_upd
    | with_reducible apply waitClock_upd
    | split
    | with_reducible apply Upd.lit

theorem toInternal_upd (hU : Upd gr s₀ s) : Upd gr s₀ (toInternal s) := by
  unfold toInternal
  try dsimp only
  repeat' first
    | intro _
    | with_reducible assumption
    | with_reducible apply ite_upd
    | with_reducible apply each_upd
    | with_reducible apply raise_upd
    | with_reducible apply wb_upd
    | with_reducible apply setAssay_upd
    | with_reducible apply allowedFollow_upd
    | with_reducible apply tbFollow_upd
    | split
    | with_reducible apply Upd.lit

theorem execXtalFail_ans (hU : Upd gr s₀ s) : Ans gr s₀ (execXtalFail s) := by
  unfold execXtalFail
  try dsimp only
  repeat' first
    | intro _
    | with_reducible assumption
    | with_reducible apply ok_ans
    | with_reducible apply ite_ans
    | with_reducible apply ite_upd
    | with_reducible exact ok_ans (by assumption)
    | with_reducible apply toInternal_upd
    | split

theorem pllLost_upd {d : Nat} (hU : Upd gr s₀ s) : Upd gr s₀ (pllLost s d) := by
  unfold pllLost
  try dsimp only
  repeat' first
    | intro _
    | with_reducible assumption
    | with_reducible apply ite_upd
    | with_reducible apply setDie_upd
    | with_reducible apply setDyn_upd
    | with_reducible apply wb_upd
    | exact ⟨rfl, fun h => h, fun h => h⟩
    | exact ⟨rfl, by simp, by simp⟩
    | split
    | with_reducible apply Upd.lit

theorem execPllUnlock_ans {d : Nat} (hE : gr.ecc = true) (hU : Upd gr s₀ s) : Ans gr s₀ (execPllUnlock d s) := by
  unfold execPllUnlock
  try dsimp only
  repeat' first
    | intro _
    | with_reducible assumption
    | with_reducible apply ok_ans
    | with_reducible apply ite_ans
    | with_reducible apply ite_upd
    | with_reducible exact ok_ans (by assumption)
    | with_reducible apply fenceDie_upd
    | with_reducible apply pllLost_upd
    | split

theorem execWrap_ans {d : Nat} (hU : Upd gr s₀ s) : Ans gr s₀ (execWrap d s) := by
  unfold execWrap
  try dsimp only
  repeat' first
    | intro _
    | with_reducible assumption
    | with_reducible apply ok_ans
    | with_reducible apply ite_ans
    | with_reducible apply ite_upd
    | with_reducible exact ok_ans (by assumption)
    | with_reducible apply ticksPass_upd
    | split

theorem setSeconds_upd {v : Nat} (hU : Upd gr s₀ s) : Upd gr s₀ (setSeconds s v) := by
  unfold setSeconds
  try dsimp only
  repeat' first
    | intro _
    | with_reducible assumption
    | with_reducible apply ite_upd
    | with_reducible apply each_upd
    | with_reducible apply raise_upd
    | with_reducible apply wr48_upd
    | split
    | with_reducible apply Upd.lit

theorem secEdge_upd (hU : Upd gr s₀ s) : Upd gr s₀ (secEdge s) := by
  unfold secEdge
  try dsimp only
  repeat' first
    | intro _
    | with_reducible assumption
    | with_reducible apply ite_upd
    | with_reducible apply each_upd
    | with_reducible apply setSeconds_upd
    | with_reducible apply lampSecond_upd
    | with_reducible apply asHourly_upd
    | split

theorem execSecEdge_ans (hU : Upd gr s₀ s) : Ans gr s₀ (execSecEdge s) := by
  unfold execSecEdge
  try dsimp only
  repeat' first
    | intro _
    | with_reducible assumption
    | with_reducible apply ok_ans
    | with_reducible apply ite_ans
    | with_reducible apply ite_upd
    | with_reducible exact ok_ans (by assumption)
    | with_reducible apply secEdge_upd
    | with_reducible apply waitTick_upd
    | split

theorem tbHandOver_upd {d : Nat} (hU : Upd gr s₀ s) : Upd gr s₀ (tbHandOver s d) := by
  unfold tbHandOver
  try dsimp only
  repeat' first
    | intro _
    | with_reducible assumption
    | with_reducible apply ite_upd
    | with_reducible apply takeShadows_upd
    | with_reducible apply setSeconds_upd
    | with_reducible apply tbFollow_upd
    | split
    | with_reducible apply Upd.lit

theorem setSyncOk_upd {d : Nat} {b : Bool} (hU : Upd gr s₀ s) : Upd gr s₀ (setSyncOk s d b) := by
  unfold setSyncOk
  try dsimp only
  repeat' first
    | intro _
    | with_reducible assumption
    | with_reducible apply ite_upd
    | with_reducible apply setDyn_upd
    | with_reducible apply wb_upd
    | with_reducible apply setDie_upd
    | exact ⟨rfl, fun h => h, fun h => h⟩
    | exact ⟨rfl, by simp, by simp⟩
    | split
    | with_reducible apply Upd.lit

theorem skewTake_upd {d : Nat} {e : Nat} {off : Int} (hE : gr.ecc = true) (hU : Upd gr s₀ s) : Upd gr s₀ (skewTake s d e off) := by
  unfold skewTake
  try dsimp only
  repeat' first
    | intro _
    | with_reducible assumption
    | with_reducible apply ite_upd
    | with_reducible apply wr_upd
    | with_reducible apply setDie_upd
    | with_reducible apply setSyncOk_upd
    | with_reducible apply fenceDie_upd
    | exact ⟨rfl, fun h => h, fun h => h⟩
    | exact ⟨rfl, by simp, by simp⟩
    | split
    | with_reducible apply Upd.lit

theorem execTimeFlitExchange_ans {d : Nat} {off : Int} (hE : gr.ecc = true) (hU : Upd gr s₀ s) : Ans gr s₀ (execTimeFlitExchange d off s) := by
  unfold execTimeFlitExchange
  try dsimp only
  repeat' first
    | intro _
    | with_reducible assumption
    | with_reducible apply ok_ans
    | with_reducible apply ite_ans
    | with_reducible apply ite_upd
    | with_reducible exact ok_ans (by assumption)
    | with_reducible apply waitClock_upd
    | with_reducible apply skewTake_upd
    | with_reducible apply setDie_upd
    | exact ⟨rfl, fun h => h, fun h => h⟩
    | exact ⟨rfl, by simp, by simp⟩
    | split
    | with_reducible apply Upd.lit

theorem sourceSwitch_upd {d : Nat} (hE : gr.ecc = true) (hU : Upd gr s₀ s) : Upd gr s₀ (sourceSwitch s d) := by
  unfold sourceSwitch
  try dsimp only
  repeat' first
    | intro _
    | with_reducible assumption
    | with_reducible apply ite_upd
    | with_reducible apply wf_upd
    | with_reducible apply fenceDie_upd
    | with_reducible apply setSyncOk_upd
    | split
    | with_reducible apply Upd.lit

theorem execTimeSourceSwitch_ans {d : Nat} (hE : gr.ecc = true) (hU : Upd gr s₀ s) : Ans gr s₀ (execTimeSourceSwitch d s) := by
  unfold execTimeSourceSwitch
  try dsimp only
  repeat' first
    | intro _
    | with_reducible assumption
    | with_reducible apply ok_ans
    | with_reducible apply ite_ans
    | with_reducible apply ite_upd
    | with_reducible exact ok_ans (by assumption)
    | with_reducible apply sourceSwitch_upd
    | split

end Sys2Proof.Laws
end

