-- ==== Sys2Proof/Laws/TsyncUpd.lean ====
section
/-!
SUPPORT. What each operation of `Machine/Tsync.lean` keeps, and the groups of state it may change (`Upd`).
-/

set_option Elab.async false
set_option linter.unusedTactic false
set_option linter.unreachableTactic false
namespace Sys2Proof.Laws

open Sys2Proof.Machine

variable {gr : Grp} {s₀ s : State}

theorem setTsState_upd {st : Nat} (hU : Upd gr s₀ s) : Upd gr s₀ (setTsState s st) := by
  unfold setTsState
  try dsimp only
  repeat' first
    | intro _
    | with_reducible assumption
    | with_reducible apply ite_upd
    | with_reducible apply wf_upd
    | with_reducible apply raise_upd
    | with_reducible apply wb_upd
    | split
    | with_reducible apply Upd.lit

theorem tsSend_upd (hU : Upd gr s₀ s) : Upd gr s₀ (tsSend s) := by
  unfold tsSend
  try dsimp only
  repeat' first
    | intro _
    | with_reducible assumption
    | with_reducible apply ite_upd
    | with_reducible apply emit_upd
    | split
    | with_reducible apply Upd.lit

theorem execTsyncFrameSend_ans (hU : Upd gr s₀ s) : Ans gr s₀ (execTsyncFrameSend s) := by
  unfold execTsyncFrameSend
  try dsimp only
  repeat' first
    | intro _
    | with_reducible assumption
    | with_reducible apply ok_ans
    | with_reducible apply ite_ans
    | with_reducible apply ite_upd
    | with_reducible exact ok_ans (by assumption)
    | with_reducible apply tsSend_upd
    | with_reducible apply waitClock_upd
    | split

theorem tsNeedStep_upd {e : Int} (hU : Upd gr s₀ s) : Upd gr s₀ (tsNeedStep s e) := by
  unfold tsNeedStep
  try dsimp only
  repeat' first
    | intro _
    | with_reducible assumption
    | with_reducible apply ite_upd
    | with_reducible apply wb_upd
    | with_reducible apply raise_upd
    | with_reducible apply tbFollow_upd
    | with_reducible apply wr_upd
    | split
    | with_reducible apply Upd.lit

theorem tsServo_upd {e : Int} (hU : Upd gr s₀ s) : Upd gr s₀ (tsServo s e) := by
  unfold tsServo
  try dsimp only
  repeat' first
    | intro _
    | with_reducible assumption
    | with_reducible apply ite_upd
    | with_reducible apply tbFollow_upd
    | with_reducible apply wr_upd
    | split
    | with_reducible apply Upd.lit

theorem tsLock_upd {e : Int} (hU : Upd gr s₀ s) : Upd gr s₀ (tsLock s e) := by
  unfold tsLock
  try dsimp only
  repeat' first
    | intro _
    | with_reducible assumption
    | with_reducible apply ite_upd
    | with_reducible apply setTsState_upd
    | split
    | with_reducible apply Upd.lit

theorem tsAdopt_upd {ws : List Word} (hU : Upd gr s₀ s) : Upd gr s₀ (tsAdopt s ws) := by
  unfold tsAdopt
  try dsimp only
  repeat' first
    | intro _
    | with_reducible assumption
    | with_reducible apply ite_upd
    | with_reducible apply each_upd
    | with_reducible apply setSeconds_upd
    | with_reducible apply wr48_upd
    | with_reducible apply raise_upd
    | split
    | with_reducible apply Upd.lit

theorem tsMissed_upd (hU : Upd gr s₀ s) : Upd gr s₀ (tsMissed s) := by
  unfold tsMissed
  try dsimp only
  repeat' first
    | intro _
    | with_reducible assumption
    | with_reducible apply ite_upd
    | with_reducible apply countBy_upd
    | split
    | with_reducible apply Upd.lit

theorem tsFrame_upd {e : Int} {ws : List Word} (hU : Upd gr s₀ s) : Upd gr s₀ (tsFrame s e ws) := by
  unfold tsFrame
  try dsimp only
  repeat' first
    | intro _
    | with_reducible assumption
    | with_reducible apply ite_upd
    | with_reducible apply wf_upd
    | with_reducible apply tsMissed_upd
    | with_reducible apply wr_upd
    | with_reducible apply tsNeedStep_upd
    | with_reducible apply tsServo_upd
    | with_reducible apply tsAdopt_upd
    | with_reducible apply tsLock_upd
    | split

theorem execTsyncFrameReceive_ans {cap : Nat} {c : Chr} {cs : List Chr} (hU : Upd gr s₀ s) : Ans gr s₀ (execTsyncFrameReceive cap c cs s) := by
  unfold execTsyncFrameReceive
  try dsimp only
  repeat' first
    | intro _
    | with_reducible assumption
    | with_reducible apply ok_ans
    | with_reducible apply ite_ans
    | with_reducible apply ite_upd
    | with_reducible exact ok_ans (by assumption)
    | with_reducible apply tsFrame_upd
    | with_reducible apply raise_upd
    | with_reducible apply count_upd
    | split
    | with_reducible apply Upd.lit

theorem stepDie_upd {d : Nat} {e : Int} (hU : Upd gr s₀ s) : Upd gr s₀ (stepDie s d e) := by
  unfold stepDie
  try dsimp only
  repeat' first
    | intro _
    | with_reducible assumption
    | with_reducible apply ite_upd
    | with_reducible apply setDie_upd
    | with_reducible apply raise_upd
    | with_reducible apply wr48_upd
    | with_reducible apply each_upd
    | with_reducible apply encTimeStep_upd
    | exact ⟨rfl, fun h => h, fun h => h⟩
    | exact ⟨rfl, by simp, by simp⟩
    | split
    | with_reducible apply Upd.lit

theorem execStepApplied_ans (hU : Upd gr s₀ s) : Ans gr s₀ (execStepApplied s) := by
  unfold execStepApplied
  try dsimp only
  repeat' first
    | intro _
    | with_reducible assumption
    | with_reducible apply ok_ans
    | with_reducible apply ite_ans
    | with_reducible apply ite_upd
    | with_reducible exact ok_ans (by assumption)
    | with_reducible apply each_upd
    | with_reducible apply waitClock_upd
    | with_reducible apply stepDie_upd
    | with_reducible apply wf_upd
    | with_reducible apply raise_upd
    | with_reducible apply count_upd
    | split
    | with_reducible apply Upd.lit

theorem execTsyncHoldover_ans (hU : Upd gr s₀ s) : Ans gr s₀ (execTsyncHoldover s) := by
  unfold execTsyncHoldover
  try dsimp only
  repeat' first
    | intro _
    | with_reducible assumption
    | with_reducible apply ok_ans
    | with_reducible apply ite_ans
    | with_reducible apply ite_upd
    | with_reducible exact ok_ans (by assumption)
    | with_reducible apply waitClock_upd
    | with_reducible apply countBy_upd
    | with_reducible apply setTsState_upd
    | split
    | with_reducible apply Upd.lit

theorem tsRestart_upd (hU : Upd gr s₀ s) : Upd gr s₀ (tsRestart s) := by
  unfold tsRestart
  try dsimp only
  repeat' first
    | intro _
    | with_reducible assumption
    | with_reducible apply ite_upd
    | with_reducible apply setTsState_upd
    | split
    | with_reducible apply Upd.lit

theorem tsStart_upd (hU : Upd gr s₀ s) : Upd gr s₀ (tsStart s) := by
  unfold tsStart
  try dsimp only
  repeat' first
    | intro _
    | with_reducible assumption
    | with_reducible apply ite_upd
    | with_reducible apply tsRestart_upd
    | split
    | with_reducible apply Upd.lit

theorem tsStop_upd (hU : Upd gr s₀ s) : Upd gr s₀ (tsStop s) := by
  unfold tsStop
  try dsimp only
  repeat' first
    | intro _
    | with_reducible assumption
    | with_reducible apply ite_upd
    | with_reducible apply stepDrop_upd
    | split
    | with_reducible apply Upd.lit

theorem tsOff_upd (hU : Upd gr s₀ s) : Upd gr s₀ (tsOff s) := by
  unfold tsOff
  try dsimp only
  repeat' first
    | intro _
    | with_reducible assumption
    | with_reducible apply ite_upd
    | with_reducible apply setTsState_upd
    | split

theorem tsHandOver_upd (hU : Upd gr s₀ s) : Upd gr s₀ (tsHandOver s) := by
  unfold tsHandOver
  try dsimp only
  repeat' first
    | intro _
    | with_reducible assumption
    | with_reducible apply ite_upd
    | with_reducible apply takeShadows_upd
    | with_reducible apply tsRestart_upd
    | split

end Sys2Proof.Laws
end

