-- ==== Sys2Proof/Laws/BurimUpd.lean ====
section
/-!
SUPPORT. What each operation of `Machine/Burim.lean` keeps, and the groups of state it may change (`Upd`).
-/

set_option Elab.async false
set_option linter.unusedTactic false
set_option linter.unreachableTactic false
namespace Sys2Proof.Laws

open Sys2Proof.Machine

variable {gr : Grp} {s₀ s : State}

theorem countMod_upd {p : Pg} {off : Nat} (hU : Upd gr s₀ s) : Upd gr s₀ (countMod s p off) := by
  unfold countMod
  try dsimp only
  repeat' first
    | intro _
    | with_reducible assumption
    | with_reducible apply ite_upd
    | with_reducible apply wr_upd
    | split

theorem dieLost_upd {d : Nat} (hE : gr.ecc = true) (hU : Upd gr s₀ s) : Upd gr s₀ (dieLost s d) := by
  unfold dieLost
  try dsimp only
  repeat' first
    | intro _
    | with_reducible assumption
    | with_reducible apply ite_upd
    | with_reducible apply wb_upd
    | with_reducible apply allowedFollow_upd
    | with_reducible apply sessClose_upd
    | with_reducible apply diesLearn_upd
    | with_reducible apply fenceDie_upd
    | with_reducible apply raise_upd
    | split

theorem losePathless_upd (hE : gr.ecc = true) (hU : Upd gr s₀ s) : Upd gr s₀ (losePathless s) := by
  unfold losePathless
  try dsimp only
  repeat' first
    | intro _
    | with_reducible assumption
    | with_reducible apply ite_upd
    | with_reducible apply each_upd
    | with_reducible apply dieLost_upd
    | split

theorem sideRetrain_upd {d : Nat} {i : Nat} (hU : Upd gr s₀ s) : Upd gr s₀ (sideRetrain s d i) := by
  unfold sideRetrain
  try dsimp only
  repeat' first
    | intro _
    | with_reducible assumption
    | with_reducible apply ite_upd
    | with_reducible apply setBurim_upd
    | with_reducible apply wf_upd
    | with_reducible apply raise_upd
    | with_reducible apply count_upd
    | split
    | with_reducible apply Upd.lit

theorem linkRetrain_upd {d : Nat} {i : Nat} {e : Nat} {j : Nat} (hU : Upd gr s₀ s) : Upd gr s₀ (linkRetrain s d i e j) := by
  unfold linkRetrain
  try dsimp only
  repeat' first
    | intro _
    | with_reducible assumption
    | with_reducible apply ite_upd
    | with_reducible apply sideRetrain_upd
    | split

theorem sideDown_upd {d : Nat} {i : Nat} (hU : Upd gr s₀ s) : Upd gr s₀ (sideDown s d i) := by
  unfold sideDown
  try dsimp only
  repeat' first
    | intro _
    | with_reducible assumption
    | with_reducible apply ite_upd
    | with_reducible apply raise_upd
    | with_reducible apply setBurim_upd
    | with_reducible apply wf_upd
    | split

theorem sourceGone_upd {d : Nat} {i : Nat} (hU : Upd gr s₀ s) : Upd gr s₀ (sourceGone s d i) := by
  unfold sourceGone
  try dsimp only
  repeat' first
    | intro _
    | with_reducible assumption
    | with_reducible apply ite_upd
    | with_reducible apply wf_upd
    | split

theorem flitsReroute_upd {d : Nat} {i : Nat} {fs : List Flit} (hU : Upd gr s₀ s) : Upd gr s₀ (flitsReroute s d i fs) := by
  unfold flitsReroute
  try dsimp only
  repeat' first
    | intro _
    | with_reducible assumption
    | with_reducible apply ite_upd
    | with_reducible apply each_upd
    | with_reducible apply setBurim_upd
    | split
    | with_reducible apply Upd.lit

theorem linkDown_upd {d : Nat} {i : Nat} {e : Nat} {j : Nat} (hE : gr.ecc = true) (hU : Upd gr s₀ s) : Upd gr s₀ (linkDown s d i e j) := by
  unfold linkDown
  try dsimp only
  repeat' first
    | intro _
    | with_reducible assumption
    | with_reducible apply ite_upd
    | with_reducible apply sideDown_upd
    | with_reducible apply logRecord_upd
    | with_reducible apply routesFollow_upd
    | with_reducible apply sourceGone_upd
    | with_reducible apply flitsReroute_upd
    | with_reducible apply diesLearn_upd
    | with_reducible apply losePathless_upd
    | with_reducible apply seamsAll_upd
    | split

theorem flitAckTake_upd {d : Nat} {i : Nat} {ack : Nat} (hU : Upd gr s₀ s) : Upd gr s₀ (flitAckTake s d i ack) := by
  unfold flitAckTake
  try dsimp only
  repeat' first
    | intro _
    | with_reducible assumption
    | with_reducible apply ite_upd
    | with_reducible apply setBurim_upd
    | split
    | with_reducible apply Upd.lit

theorem flitOffer_upd {e : Nat} {j : Nat} {a : FlitIn} (hU : Upd gr s₀ s) : Upd gr s₀ (flitOffer s e j a) := by
  unfold flitOffer
  try dsimp only
  repeat' first
    | intro _
    | with_reducible assumption
    | with_reducible apply ite_upd
    | with_reducible apply setBurim_upd
    | with_reducible apply setDie_upd
    | exact ⟨rfl, fun h => h, fun h => h⟩
    | exact ⟨rfl, by simp, by simp⟩
    | split
    | with_reducible apply Upd.lit

theorem flitDeliver_upd {d : Nat} {i : Nat} {e : Nat} {j : Nat} {f : Flit} (hU : Upd gr s₀ s) : Upd gr s₀ (flitDeliver s d i e j f) := by
  unfold flitDeliver
  try dsimp only
  repeat' first
    | intro _
    | with_reducible assumption
    | with_reducible apply ite_upd
    | with_reducible apply setBurim_upd
    | split
    | with_reducible apply Upd.lit

theorem viaFree_upd {e : Nat} {f : Flit} (hU : Upd gr s₀ s) : Upd gr s₀ (viaFree s e f) := by
  unfold viaFree
  try dsimp only
  repeat' first
    | intro _
    | with_reducible assumption
    | with_reducible apply ite_upd
    | with_reducible apply setBurim_upd
    | split
    | with_reducible apply Upd.lit

theorem heardFrom_upd {d : Nat} {src : Nat} (hU : Upd gr s₀ s) : Upd gr s₀ (heardFrom s d src) := by
  unfold heardFrom
  try dsimp only
  repeat' first
    | intro _
    | with_reducible assumption
    | with_reducible apply ite_upd
    | with_reducible apply setDie_upd
    | exact ⟨rfl, fun h => h, fun h => h⟩
    | exact ⟨rfl, by simp, by simp⟩
    | split
    | with_reducible apply Upd.lit

theorem flitAccept_upd {d : Nat} {i : Nat} {e : Nat} {j : Nat} {f : Flit} {ack : Nat} {hop : Nat} (hU : Upd gr s₀ s) : Upd gr s₀ (flitAccept s d i e j f ack hop) := by
  unfold flitAccept
  try dsimp only
  repeat' first
    | intro _
    | with_reducible assumption
    | with_reducible apply ite_upd
    | with_reducible apply flitAckTake_upd
    | with_reducible apply setBurim_upd
    | with_reducible apply countMod_upd
    | with_reducible apply wf_upd
    | with_reducible apply flitDeliver_upd
    | with_reducible apply heardFrom_upd
    | split
    | with_reducible apply Upd.lit

theorem nakSend_upd {d : Nat} {i : Nat} (hU : Upd gr s₀ s) : Upd gr s₀ (nakSend s d i) := by
  unfold nakSend
  try dsimp only
  repeat' first
    | intro _
    | with_reducible assumption
    | with_reducible apply ite_upd
    | with_reducible apply setBurim_upd
    | split
    | with_reducible apply Upd.lit

theorem sideUp_upd {d : Nat} {i : Nat} {e : Nat} {j : Nat} (hU : Upd gr s₀ s) : Upd gr s₀ (sideUp s d i e j) := by
  unfold sideUp
  try dsimp only
  repeat' first
    | intro _
    | with_reducible assumption
    | with_reducible apply ite_upd
    | with_reducible apply flitAckTake_upd
    | with_reducible apply raise_upd
    | with_reducible apply setBurim_upd
    | with_reducible apply wf_upd
    | with_reducible apply resend_upd
    | split
    | with_reducible apply Upd.lit

theorem flitBad_upd {d : Nat} {i : Nat} {e : Nat} {j : Nat} {ann : Bool} {replay : Bool} (hU : Upd gr s₀ s) : Upd gr s₀ (flitBad s d i e j ann replay) := by
  unfold flitBad
  try dsimp only
  repeat' first
    | intro _
    | with_reducible assumption
    | with_reducible apply ite_upd
    | with_reducible apply count_upd
    | with_reducible apply setBurim_upd
    | with_reducible apply linkRetrain_upd
    | with_reducible apply nakSend_upd
    | split
    | with_reducible apply Upd.lit

theorem flitArrive_upd {d : Nat} {i : Nat} {e : Nat} {j : Nat} {x : Nat} {hop : Nat} {ann : Bool} {replay : Bool} (hU : Upd gr s₀ s) : Upd gr s₀ (flitArrive s d i e j x hop ann replay) := by
  unfold flitArrive
  try dsimp only
  repeat' first
    | intro _
    | with_reducible assumption
    | with_reducible apply ite_upd
    | with_reducible apply flitBad_upd
    | with_reducible apply heardFrom_upd
    | with_reducible apply flitAckTake_upd
    | with_reducible apply flitAccept_upd
    | with_reducible apply nakSend_upd
    | split

theorem flitReplay_upd {d : Nat} {i : Nat} {e : Nat} {j : Nat} {q : Nat} {rest : List Nat} {a : FlitIn} (hU : Upd gr s₀ s) : Upd gr s₀ (flitReplay s d i e j q rest a) := by
  unfold flitReplay
  try dsimp only
  repeat' first
    | intro _
    | with_reducible assumption
    | with_reducible apply ite_upd
    | with_reducible apply setBurim_upd
    | with_reducible apply resend_upd
    | with_reducible apply count_upd
    | with_reducible apply flitArrive_upd
    | split
    | with_reducible apply Upd.lit

theorem flitTake_upd {e : Nat} {j : Nat} {f : Flit} (hU : Upd gr s₀ s) : Upd gr s₀ (flitTake s e j f).2 := by
  unfold flitTake
  try dsimp only
  repeat' first
    | intro _
    | with_reducible assumption
    | with_reducible apply ite_upd
    | with_reducible apply countMod_upd
    | with_reducible apply viaFree_upd
    | with_reducible apply setBurim_upd
    | split
    | with_reducible apply Upd.lit

theorem flitNew_upd {d : Nat} {i : Nat} {e : Nat} {j : Nat} {f : Flit} {a : FlitIn} (hU : Upd gr s₀ s) : Upd gr s₀ (flitNew s d i e j f a) := by
  unfold flitNew
  try dsimp only
  repeat' first
    | intro _
    | with_reducible assumption
    | with_reducible apply ite_upd
    | with_reducible apply flitTake_upd
    | with_reducible apply injPick_upd
    | with_reducible apply setBurim_upd
    | with_reducible apply flitArrive_upd
    | (with_reducible refine pair_upd (by assumption) ?_)
    | split
    | with_reducible apply Upd.lit

theorem flitIdle_upd {d : Nat} {i : Nat} {e : Nat} {j : Nat} {a : FlitIn} (hU : Upd gr s₀ s) : Upd gr s₀ (flitIdle s d i e j a) := by
  unfold flitIdle
  try dsimp only
  repeat' first
    | intro _
    | with_reducible assumption
    | with_reducible apply ite_upd
    | with_reducible apply flitArrive_upd
    | split

theorem flitIn_upd {d : Nat} {i : Nat} {e : Nat} {j : Nat} {a : FlitIn} (hU : Upd gr s₀ s) : Upd gr s₀ (flitIn s d i e j a) := by
  unfold flitIn
  try dsimp only
  repeat' first
    | intro _
    | with_reducible assumption
    | with_reducible apply ite_upd
    | with_reducible apply flitOffer_upd
    | with_reducible apply resend_upd
    | with_reducible apply flitReplay_upd
    | with_reducible apply flitNew_upd
    | with_reducible apply flitIdle_upd
    | split
    | with_reducible apply Upd.lit

theorem execFlitReceive_ans {d : Nat} {i : Nat} {a : FlitIn} (hU : Upd gr s₀ s) : Ans gr s₀ (execFlitReceive d i a s) := by
  unfold execFlitReceive
  try dsimp only
  repeat' first
    | intro _
    | with_reducible assumption
    | with_reducible apply ok_ans
    | with_reducible apply ite_ans
    | with_reducible apply ite_upd
    | with_reducible exact ok_ans (by assumption)
    | with_reducible apply flitIn_upd
    | split
    | with_reducible apply Upd.lit

theorem execNakReceive_ans {d : Nat} {i : Nat} {seq : Nat} (hU : Upd gr s₀ s) : Ans gr s₀ (execNakReceive d i seq s) := by
  unfold execNakReceive
  try dsimp only
  repeat' first
    | intro _
    | with_reducible assumption
    | with_reducible apply ok_ans
    | with_reducible apply ite_ans
    | with_reducible apply ite_upd
    | with_reducible exact ok_ans (by assumption)
    | with_reducible apply setBurim_upd
    | with_reducible apply resend_upd
    | split
    | with_reducible apply Upd.lit

theorem execBurimRetrain_ans {d : Nat} {i : Nat} (hU : Upd gr s₀ s) : Ans gr s₀ (execBurimRetrain d i s) := by
  unfold execBurimRetrain
  try dsimp only
  repeat' first
    | intro _
    | with_reducible assumption
    | with_reducible apply ok_ans
    | with_reducible apply ite_ans
    | with_reducible apply ite_upd
    | with_reducible exact ok_ans (by assumption)
    | with_reducible apply linkRetrain_upd
    | split
    | with_reducible apply Upd.lit

theorem execBurimRetrainDone_ans {d : Nat} {i : Nat} {good : Bool} (hE : gr.ecc = true) (hU : Upd gr s₀ s) : Ans gr s₀ (execBurimRetrainDone d i good s) := by
  unfold execBurimRetrainDone
  try dsimp only
  repeat' first
    | intro _
    | with_reducible assumption
    | with_reducible apply ok_ans
    | with_reducible apply ite_ans
    | with_reducible apply ite_upd
    | with_reducible exact ok_ans (by assumption)
    | with_reducible apply diesLearn_upd
    | with_reducible apply sideUp_upd
    | with_reducible apply setBurim_upd
    | with_reducible apply linkDown_upd
    | split
    | with_reducible apply Upd.lit

end Sys2Proof.Laws
end

