-- ==== Sys2Proof/Laws/ContextUpd.lean ====
section
/-!
SUPPORT. What each operation of `Machine/Context.lean` keeps, and the groups of state it may change (`Upd`).
-/

set_option Elab.async false
set_option linter.unusedTactic false
set_option linter.unreachableTactic false
namespace Sys2Proof.Laws

open Sys2Proof.Machine

variable {gr : Grp} {s₀ s : State}

theorem ctxResult_upd {d : Nat} {k : Nat} {cmd : Nat} {res : Nat} (hU : Upd gr s₀ s) : Upd gr s₀ (ctxResult s d k cmd res) := by
  unfold ctxResult
  try dsimp only
  repeat' first
    | intro _
    | with_reducible assumption
    | with_reducible apply ite_upd
    | with_reducible apply wr_upd
    | with_reducible apply count_upd
    | with_reducible apply raise_upd
    | with_reducible apply whenDo_upd
    | with_reducible apply ctxEvt_upd
    | split

theorem ctxCommand_upd {r : Req} {d : Nat} {k : Nat} {cmd : Nat} {group : Bool} {f : State → Nat × State} (hU : Upd gr s₀ s) (hf_f : ∀ tU, Upd gr s₀ tU → Upd gr s₀ (f tU).2) : Upd gr s₀ (ctxCommand r d k cmd group f s) := by
  unfold ctxCommand
  try dsimp only
  repeat' first
    | intro _
    | with_reducible assumption
    | with_reducible apply ite_upd
    | with_reducible apply hf_f
    | with_reducible apply guardedWrite_upd
    | with_reducible apply ctxResult_upd
    | split

theorem ctxIn_upd {b : Bool} {f : State → State} (hU : Upd gr s₀ s) (hf_f : ∀ tU, Upd gr s₀ tU → Upd gr s₀ (f tU)) : Upd gr s₀ (ctxIn s b f).2 := by
  unfold ctxIn
  try dsimp only
  repeat' first
    | intro _
    | with_reducible assumption
    | with_reducible apply ite_upd
    | with_reducible apply hf_f
    | split

theorem spanMiss_upd {d : Nat} {k : Nat} (hU : Upd gr s₀ s) : Upd gr s₀ (spanMiss s d k) := by
  unfold spanMiss
  try dsimp only
  repeat' first
    | intro _
    | with_reducible assumption
    | with_reducible apply ite_upd
    | with_reducible apply raise_upd
    | split

theorem armNow_upd {d : Nat} {k : Nat} (hE : gr.ecc = true) (hU : Upd gr s₀ s) : Upd gr s₀ (armNow s d k) := by
  unfold armNow
  try dsimp only
  repeat' first
    | intro _
    | with_reducible assumption
    | with_reducible apply ite_upd
    | with_reducible apply discardAsm_upd
    | with_reducible apply setCtx_upd
    | with_reducible apply thermArm_upd
    | with_reducible apply ctxDiff_upd
    | with_reducible apply spanMiss_upd
    | with_reducible apply ctxEnter_upd
    | split
    | with_reducible apply Upd.lit

theorem armCmd_upd {d : Nat} {k : Nat} (hE : gr.ecc = true) (hU : Upd gr s₀ s) : Upd gr s₀ (armCmd d k s).2 := by
  unfold armCmd
  try dsimp only
  repeat' first
    | intro _
    | with_reducible assumption
    | with_reducible apply ite_upd
    | with_reducible apply armNow_upd
    | split
    | with_reducible apply Upd.lit

theorem execCtxArm_ans {r : Req} {d : Nat} {k : Nat} (hE : gr.ecc = true) (hU : Upd gr s₀ s) : Ans gr s₀ (execCtxArm r d k s) := by
  unfold execCtxArm
  try dsimp only
  repeat' first
    | intro _
    | with_reducible assumption
    | with_reducible apply ok_ans
    | with_reducible apply ite_ans
    | with_reducible apply ite_upd
    | with_reducible exact ok_ans (by assumption)
    | with_reducible apply ctxCommand_upd
    | with_reducible apply armCmd_upd
    | (with_reducible refine pair_upd (by assumption) ?_)
    | split

theorem groupIdle_upd {d : Nat} {k : Nat} (hE : gr.ecc = true) (hU : Upd gr s₀ s) : Upd gr s₀ (groupIdle s d k) := by
  unfold groupIdle
  try dsimp only
  repeat' first
    | intro _
    | with_reducible assumption
    | with_reducible apply ite_upd
    | with_reducible apply each_upd
    | with_reducible apply ctxMove_upd
    | with_reducible apply discardAsm_upd
    | split

theorem disarmCmd_upd {d : Nat} {k : Nat} (hE : gr.ecc = true) (hU : Upd gr s₀ s) : Upd gr s₀ (disarmCmd d k s).2 := by
  unfold disarmCmd
  try dsimp only
  repeat' first
    | intro _
    | with_reducible assumption
    | with_reducible apply ite_upd
    | with_reducible apply ctxIn_upd
    | with_reducible apply groupIdle_upd
    | (with_reducible refine pair_upd (by assumption) ?_)
    | split

theorem execCtxDisarm_ans {r : Req} {d : Nat} {k : Nat} (hE : gr.ecc = true) (hU : Upd gr s₀ s) : Ans gr s₀ (execCtxDisarm r d k s) := by
  unfold execCtxDisarm
  try dsimp only
  repeat' first
    | intro _
    | with_reducible assumption
    | with_reducible apply ok_ans
    | with_reducible apply ite_ans
    | with_reducible apply ite_upd
    | with_reducible exact ok_ans (by assumption)
    | with_reducible apply ctxCommand_upd
    | with_reducible apply disarmCmd_upd
    | (with_reducible refine pair_upd (by assumption) ?_)
    | split

theorem startCmd_upd {d : Nat} {k : Nat} (hE : gr.ecc = true) (hU : Upd gr s₀ s) : Upd gr s₀ (startCmd d k s).2 := by
  unfold startCmd
  try dsimp only
  repeat' first
    | intro _
    | with_reducible assumption
    | with_reducible apply ite_upd
    | with_reducible apply startGroup_upd
    | split

theorem execCtxStart_ans {r : Req} {d : Nat} {k : Nat} (hE : gr.ecc = true) (hU : Upd gr s₀ s) : Ans gr s₀ (execCtxStart r d k s) := by
  unfold execCtxStart
  try dsimp only
  repeat' first
    | intro _
    | with_reducible assumption
    | with_reducible apply ok_ans
    | with_reducible apply ite_ans
    | with_reducible apply ite_upd
    | with_reducible exact ok_ans (by assumption)
    | with_reducible apply ctxCommand_upd
    | with_reducible apply startCmd_upd
    | (with_reducible refine pair_upd (by assumption) ?_)
    | split

theorem pauseCmd_upd {d : Nat} {k : Nat} (hE : gr.ecc = true) (hU : Upd gr s₀ s) : Upd gr s₀ (pauseCmd d k s).2 := by
  unfold pauseCmd
  try dsimp only
  repeat' first
    | intro _
    | with_reducible assumption
    | with_reducible apply ite_upd
    | with_reducible apply ctxIn_upd
    | with_reducible apply ctxMove_upd
    | (with_reducible refine pair_upd (by assumption) ?_)
    | split

theorem execCtxPause_ans {r : Req} {d : Nat} {k : Nat} (hE : gr.ecc = true) (hU : Upd gr s₀ s) : Ans gr s₀ (execCtxPause r d k s) := by
  unfold execCtxPause
  try dsimp only
  repeat' first
    | intro _
    | with_reducible assumption
    | with_reducible apply ok_ans
    | with_reducible apply ite_ans
    | with_reducible apply ite_upd
    | with_reducible exact ok_ans (by assumption)
    | with_reducible apply ctxCommand_upd
    | with_reducible apply pauseCmd_upd
    | (with_reducible refine pair_upd (by assumption) ?_)
    | split

theorem drainCmd_upd {d : Nat} {k : Nat} (hE : gr.ecc = true) (hU : Upd gr s₀ s) : Upd gr s₀ (drainCmd d k s).2 := by
  unfold drainCmd
  try dsimp only
  repeat' first
    | intro _
    | with_reducible assumption
    | with_reducible apply ite_upd
    | with_reducible apply ctxIn_upd
    | with_reducible apply ctxMove_upd
    | with_reducible apply setCtx_upd
    | (with_reducible refine pair_upd (by assumption) ?_)
    | split
    | with_reducible apply Upd.lit

theorem execCtxDrain_ans {r : Req} {d : Nat} {k : Nat} (hE : gr.ecc = true) (hU : Upd gr s₀ s) : Ans gr s₀ (execCtxDrain r d k s) := by
  unfold execCtxDrain
  try dsimp only
  repeat' first
    | intro _
    | with_reducible assumption
    | with_reducible apply ok_ans
    | with_reducible apply ite_ans
    | with_reducible apply ite_upd
    | with_reducible exact ok_ans (by assumption)
    | with_reducible apply ctxCommand_upd
    | with_reducible apply drainCmd_upd
    | (with_reducible refine pair_upd (by assumption) ?_)
    | split

theorem abortCmd_upd {d : Nat} {k : Nat} (hE : gr.ecc = true) (hU : Upd gr s₀ s) : Upd gr s₀ (abortCmd d k s).2 := by
  unfold abortCmd
  try dsimp only
  repeat' first
    | intro _
    | with_reducible assumption
    | with_reducible apply ite_upd
    | with_reducible apply groupIdle_upd
    | with_reducible apply ctxAbortAt_upd
    | split
    | with_reducible apply Upd.lit

theorem execCtxAbort_ans {r : Req} {d : Nat} {k : Nat} (hE : gr.ecc = true) (hU : Upd gr s₀ s) : Ans gr s₀ (execCtxAbort r d k s) := by
  unfold execCtxAbort
  try dsimp only
  repeat' first
    | intro _
    | with_reducible assumption
    | with_reducible apply ok_ans
    | with_reducible apply ite_ans
    | with_reducible apply ite_upd
    | with_reducible exact ok_ans (by assumption)
    | with_reducible apply ctxCommand_upd
    | with_reducible apply abortCmd_upd
    | (with_reducible refine pair_upd (by assumption) ?_)
    | split

theorem fillGaps_upd {d : Nat} {k : Nat} (hU : Upd gr s₀ s) : Upd gr s₀ (fillGaps s d k) := by
  unfold fillGaps
  try dsimp only
  repeat' first
    | intro _
    | with_reducible assumption
    | with_reducible apply ite_upd
    | with_reducible apply setCtx_upd
    | split
    | with_reducible apply Upd.lit

theorem rebase_upd {d : Nat} {k : Nat} (hU : Upd gr s₀ s) : Upd gr s₀ (rebase s d k) := by
  unfold rebase
  try dsimp only
  repeat' first
    | intro _
    | with_reducible assumption
    | with_reducible apply ite_upd
    | with_reducible apply ctxEvt_upd
    | with_reducible apply setCtx_upd
    | split
    | with_reducible apply Upd.lit

theorem resumeNow_upd {d : Nat} {k : Nat} (hM : gr.mem = true) (hE : gr.ecc = true) (hU : Upd gr s₀ s) : Upd gr s₀ (resumeNow s d k) := by
  unfold resumeNow
  try dsimp only
  repeat' first
    | intro _
    | with_reducible assumption
    | with_reducible apply ite_upd
    | with_reducible apply each_upd
    | with_reducible apply fillGaps_upd
    | with_reducible apply ctxMove_upd
    | with_reducible apply setCtx_upd
    | with_reducible apply rebase_upd
    | with_reducible apply skipTo_upd
    | with_reducible apply rePredict_upd
    | split
    | with_reducible apply Upd.lit

theorem resumeCmd_upd {d : Nat} {k : Nat} (hM : gr.mem = true) (hE : gr.ecc = true) (hU : Upd gr s₀ s) : Upd gr s₀ (resumeCmd d k s).2 := by
  unfold resumeCmd
  try dsimp only
  repeat' first
    | intro _
    | with_reducible assumption
    | with_reducible apply ite_upd
    | with_reducible apply resumeNow_upd
    | split

theorem execCtxResume_ans {r : Req} {d : Nat} {k : Nat} (hM : gr.mem = true) (hE : gr.ecc = true) (hU : Upd gr s₀ s) : Ans gr s₀ (execCtxResume r d k s) := by
  unfold execCtxResume
  try dsimp only
  repeat' first
    | intro _
    | with_reducible assumption
    | with_reducible apply ok_ans
    | with_reducible apply ite_ans
    | with_reducible apply ite_upd
    | with_reducible exact ok_ans (by assumption)
    | with_reducible apply ctxCommand_upd
    | with_reducible apply resumeCmd_upd
    | (with_reducible refine pair_upd (by assumption) ?_)
    | split

theorem flushCtx_upd {d : Nat} {k : Nat} (hU : Upd gr s₀ s) : Upd gr s₀ (flushCtx s d k) := by
  unfold flushCtx
  try dsimp only
  repeat' first
    | intro _
    | with_reducible assumption
    | with_reducible apply ite_upd
    | with_reducible apply chuteFlush_upd
    | with_reducible apply discardAsm_upd
    | split

theorem flushGroup_upd {d : Nat} {k : Nat} (hE : gr.ecc = true) (hU : Upd gr s₀ s) : Upd gr s₀ (flushGroup s d k) := by
  unfold flushGroup
  try dsimp only
  repeat' first
    | intro _
    | with_reducible assumption
    | with_reducible apply ite_upd
    | with_reducible apply each_upd
    | with_reducible apply flushCtx_upd
    | with_reducible apply ctxMove_upd
    | with_reducible apply ctxEnter_upd
    | with_reducible apply discardAsm_upd
    | split

theorem flushCmd_upd {d : Nat} {k : Nat} (hE : gr.ecc = true) (hU : Upd gr s₀ s) : Upd gr s₀ (flushCmd d k s).2 := by
  unfold flushCmd
  try dsimp only
  repeat' first
    | intro _
    | with_reducible assumption
    | with_reducible apply ite_upd
    | with_reducible apply flushCtx_upd
    | with_reducible apply flushGroup_upd
    | split
    | with_reducible apply Upd.lit

theorem execCtxFlush_ans {r : Req} {d : Nat} {k : Nat} (hE : gr.ecc = true) (hU : Upd gr s₀ s) : Ans gr s₀ (execCtxFlush r d k s) := by
  unfold execCtxFlush
  try dsimp only
  repeat' first
    | intro _
    | with_reducible assumption
    | with_reducible apply ok_ans
    | with_reducible apply ite_ans
    | with_reducible apply ite_upd
    | with_reducible exact ok_ans (by assumption)
    | with_reducible apply ctxCommand_upd
    | with_reducible apply flushCmd_upd
    | (with_reducible refine pair_upd (by assumption) ?_)
    | split

theorem fenceCmd_upd {d : Nat} {k : Nat} (hU : Upd gr s₀ s) : Upd gr s₀ (fenceCmd d k s).2 := by
  unfold fenceCmd
  try dsimp only
  repeat' first
    | intro _
    | with_reducible assumption
    | with_reducible apply ite_upd
    | with_reducible apply ctxIn_upd
    | with_reducible apply ctxFence_upd
    | with_reducible apply ctxRecord_upd
    | (with_reducible refine pair_upd (by assumption) ?_)
    | split

theorem execCtxFence_ans {r : Req} {d : Nat} {k : Nat} (hU : Upd gr s₀ s) : Ans gr s₀ (execCtxFence r d k s) := by
  unfold execCtxFence
  try dsimp only
  repeat' first
    | intro _
    | with_reducible assumption
    | with_reducible apply ok_ans
    | with_reducible apply ite_ans
    | with_reducible apply ite_upd
    | with_reducible exact ok_ans (by assumption)
    | with_reducible apply ctxCommand_upd
    | with_reducible apply fenceCmd_upd
    | (with_reducible refine pair_upd (by assumption) ?_)
    | split

theorem ctxRelRecord_upd {d : Nat} {k : Nat} {kind : Nat} (hU : Upd gr s₀ s) : Upd gr s₀ (ctxRelRecord s d k kind) := by
  unfold ctxRelRecord
  try dsimp only
  repeat' first
    | intro _
    | with_reducible assumption
    | with_reducible apply ite_upd
    | with_reducible apply logRecord_upd
    | split

theorem releaseTo_upd {d : Nat} {k : Nat} {st : CState} {cause : Nat} (hE : gr.ecc = true) (hU : Upd gr s₀ s) : Upd gr s₀ (releaseTo s d k st cause) := by
  unfold releaseTo
  try dsimp only
  repeat' first
    | intro _
    | with_reducible assumption
    | with_reducible apply ite_upd
    | with_reducible apply ctxMove_upd
    | with_reducible apply ctxEnter_upd
    | split

theorem releaseNow_upd {d : Nat} {k : Nat} (hE : gr.ecc = true) (hU : Upd gr s₀ s) : Upd gr s₀ (releaseNow s d k) := by
  unfold releaseNow
  try dsimp only
  repeat' first
    | intro _
    | with_reducible assumption
    | with_reducible apply ite_upd
    | with_reducible apply ctxRelRecord_upd
    | with_reducible apply releaseTo_upd
    | with_reducible apply flushCtx_upd
    | with_reducible apply ctxEnter_upd
    | with_reducible apply setCtx_upd
    | split
    | with_reducible apply Upd.lit

theorem releaseCmd_upd {d : Nat} {k : Nat} (hE : gr.ecc = true) (hU : Upd gr s₀ s) : Upd gr s₀ (releaseCmd d k s).2 := by
  unfold releaseCmd
  try dsimp only
  repeat' first
    | intro _
    | with_reducible assumption
    | with_reducible apply ite_upd
    | with_reducible apply ctxRelRecord_upd
    | with_reducible apply chuteFollow_upd
    | with_reducible apply releaseNow_upd
    | split

theorem execCtxRelease_ans {r : Req} {d : Nat} {k : Nat} (hE : gr.ecc = true) (hU : Upd gr s₀ s) : Ans gr s₀ (execCtxRelease r d k s) := by
  unfold execCtxRelease
  try dsimp only
  repeat' first
    | intro _
    | with_reducible assumption
    | with_reducible apply ok_ans
    | with_reducible apply ite_ans
    | with_reducible apply ite_upd
    | with_reducible exact ok_ans (by assumption)
    | with_reducible apply ctxCommand_upd
    | with_reducible apply releaseCmd_upd
    | (with_reducible refine pair_upd (by assumption) ?_)
    | split

theorem ctxCmdWrite_upd {r : Req} {d : Nat} {v : Word} (hM : gr.mem = true) (hE : gr.ecc = true) (hU : Upd gr s₀ s) :
    Upd gr s₀ (ctxCmdWrite r d v s) := by
  unfold ctxCmdWrite
  generalize fld v 0 4 = c
  refine ctxCommand_upd hU fun t ht => ?_
  split
  · apply armCmd_upd <;> assumption
  · apply disarmCmd_upd <;> assumption
  · apply startCmd_upd <;> assumption
  · apply pauseCmd_upd <;> assumption
  · apply resumeCmd_upd <;> assumption
  · apply drainCmd_upd <;> assumption
  · apply abortCmd_upd <;> assumption
  · apply flushCmd_upd <;> assumption
  · apply fenceCmd_upd <;> assumption
  · apply releaseCmd_upd <;> assumption
  · exact ht

theorem ctxCommitWrite_upd {r : Req} {d : Nat} {k : Nat} {v : Word} (hU : Upd gr s₀ s) : Upd gr s₀ (ctxCommitWrite r d k v s) := by
  unfold ctxCommitWrite
  try dsimp only
  repeat' first
    | intro _
    | with_reducible assumption
    | with_reducible apply ite_upd
    | with_reducible apply logErr_upd
    | with_reducible apply wf_upd
    | with_reducible apply wb_upd
    | split
    | with_reducible apply Upd.lit

theorem execCtxCommitGo_ans {r : Req} {d : Nat} {k : Nat} {v : Word} (hU : Upd gr s₀ s) : Ans gr s₀ (execCtxCommitGo r d k v s) := by
  unfold execCtxCommitGo
  try dsimp only
  repeat' first
    | intro _
    | with_reducible assumption
    | with_reducible apply ok_ans
    | with_reducible apply ite_ans
    | with_reducible apply ite_upd
    | with_reducible exact ok_ans (by assumption)
    | with_reducible apply guardedWrite_upd
    | with_reducible apply ctxCommitWrite_upd
    | split

theorem execCtxHandOver_ans {d : Nat} {k : Nat} (hE : gr.ecc = true) (hU : Upd gr s₀ s) : Ans gr s₀ (execCtxHandOver d k s) := by
  unfold execCtxHandOver
  try dsimp only
  repeat' first
    | intro _
    | with_reducible assumption
    | with_reducible apply ok_ans
    | with_reducible apply ite_ans
    | with_reducible apply ite_upd
    | with_reducible exact ok_ans (by assumption)
    | with_reducible apply ctxHandOver_upd
    | with_reducible apply waitClock_upd
    | split

end Sys2Proof.Laws
end

