-- ==== Sys2Proof/Laws/MemWinUpd.lean ====
section
/-!
SUPPORT. What each operation of `Machine/MemWin.lean` keeps, and the groups of state it may change (`Upd`).
-/

set_option Elab.async false
set_option linter.unusedTactic false
set_option linter.unreachableTactic false
namespace Sys2Proof.Laws

open Sys2Proof.Machine

variable {gr : Grp} {s₀ s : State}

theorem collision_upd {r : Req} {d : Nat} {w : Nat} (hU : Upd gr s₀ s) : Upd gr s₀ (collision s r d w) := by
  unfold collision
  try dsimp only
  repeat' first
    | intro _
    | with_reducible assumption
    | with_reducible apply ite_upd
    | with_reducible apply raise_upd
    | with_reducible apply wr_upd
    | with_reducible apply count_upd
    | with_reducible apply logRecord_upd
    | split
    | with_reducible apply Upd.lit

theorem wordWrite_upd {r : Req} {d : Nat} {dps : Bool} {w : Nat} {k : Nat} {bs : List Byte} {collide : Bool} (hM : gr.mem = true) (hE : gr.ecc = true) (hU : Upd gr s₀ s) : Upd gr s₀ (wordWrite s r d dps w k bs collide) := by
  unfold wordWrite
  try dsimp only
  repeat' first
    | intro _
    | with_reducible assumption
    | with_reducible apply ite_upd
    | with_reducible apply collision_upd
    | with_reducible apply wrWord_upd
    | with_reducible apply readWord_upd
    | (with_reducible refine trip_upd (by assumption) ?_)
    | split

theorem windowWord_upd {r : Req} {d : Nat} {dps : Bool} {w : Nat} {k : Nat} {bs : List Byte} {poisoned : Bool} {collide : Bool} (hM : gr.mem = true) (hE : gr.ecc = true) (hU : Upd gr s₀ s) : Upd gr s₀ (windowWord s r d dps w k bs poisoned collide) := by
  unfold windowWord
  try dsimp only
  repeat' first
    | intro _
    | with_reducible assumption
    | with_reducible apply ite_upd
    | with_reducible apply logErr_upd
    | with_reducible apply collision_upd
    | with_reducible apply poisonWord_upd
    | with_reducible apply wordWrite_upd
    | split
    | with_reducible apply Upd.lit

theorem poisonRx_upd (hU : Upd gr s₀ s) : Upd gr s₀ (poisonRx s) := by
  unfold poisonRx
  try dsimp only
  repeat' first
    | intro _
    | with_reducible assumption
    | with_reducible apply ite_upd
    | with_reducible apply raise_upd
    | with_reducible apply count_upd
    | split

theorem memWrite_upd {r : Req} {d : Nat} {off : Nat} {bs : List Byte} {poisoned : Bool} {collide : List Nat} (hM : gr.mem = true) (hE : gr.ecc = true) (hU : Upd gr s₀ s) : Upd gr s₀ (memWrite s r d off bs poisoned collide) := by
  unfold memWrite
  try dsimp only
  repeat' first
    | intro _
    | with_reducible assumption
    | with_reducible apply ite_upd
    | with_reducible apply poisonRx_upd
    | with_reducible apply noAnswer_upd
    | with_reducible apply denyCount_upd
    | with_reducible apply each_upd
    | with_reducible apply windowWord_upd
    | split
    | with_reducible apply Upd.lit

theorem windowRead_upd {d : Nat} {dps : Bool} {w : Nat} {src : Nat} {eff : Option Link} {reason : Nat} (hE : gr.ecc = true) (hU : Upd gr s₀ s) : Upd gr s₀ (windowRead s d dps w src eff reason).2.2 := by
  unfold windowRead
  try dsimp only
  repeat' first
    | intro _
    | with_reducible assumption
    | with_reducible apply ite_upd
    | with_reducible apply readWord_upd
    | (with_reducible refine trip_upd (by assumption) ?_)
    | split

theorem readBytes_upd {x0 : List (Nat × Nat × Nat)} {x2 : Nat} {x3 : Bool} {x4 : Nat} (hE : gr.ecc = true) (hU : Upd gr s₀ s) : Upd gr s₀ (readBytes x0 s x2 x3 x4).2.2 := by
  induction x0 generalizing s x2 x3 x4 with
  | nil => exact hU
  | cons e r ih =>
    unfold readBytes
    try dsimp only
    repeat' first
      | intro _
      | with_reducible assumption
      | with_reducible apply ih
      | with_reducible apply ite_upd
      | with_reducible apply windowRead_upd
      | (with_reducible refine trip_upd (by assumption) ?_)
      | split

theorem memRead_upd {r : Req} {d : Nat} {off : Nat} {len : Nat} (hE : gr.ecc = true) (hU : Upd gr s₀ s) : Upd gr s₀ (memRead s r d off len) := by
  unfold memRead
  try dsimp only
  repeat' first
    | intro _
    | with_reducible assumption
    | with_reducible apply ite_upd
    | with_reducible apply noAnswer_upd
    | with_reducible apply denyCount_upd
    | with_reducible apply readBytes_upd
    | with_reducible apply whenDo_upd
    | with_reducible apply count_upd
    | (with_reducible refine trip_upd (by assumption) ?_)
    | split
    | with_reducible apply Upd.lit

theorem execMemWindowWrite_ans {r : Req} {d : Nat} {off : Nat} {bs : List Byte} {poisoned : Bool} {collide : List Nat} (hM : gr.mem = true) (hE : gr.ecc = true) (hU : Upd gr s₀ s) : Ans gr s₀ (execMemWindowWrite r d off bs poisoned collide s) := by
  unfold execMemWindowWrite
  try dsimp only
  repeat' first
    | intro _
    | with_reducible assumption
    | with_reducible apply ok_ans
    | with_reducible apply ite_ans
    | with_reducible apply ite_upd
    | with_reducible exact ok_ans (by assumption)
    | with_reducible apply memWrite_upd
    | split

theorem execMemWindowRead_ans {r : Req} {d : Nat} {off : Nat} {len : Nat} (hE : gr.ecc = true) (hU : Upd gr s₀ s) : Ans gr s₀ (execMemWindowRead r d off len s) := by
  unfold execMemWindowRead
  try dsimp only
  repeat' first
    | intro _
    | with_reducible assumption
    | with_reducible apply ok_ans
    | with_reducible apply ite_ans
    | with_reducible apply ite_upd
    | with_reducible exact ok_ans (by assumption)
    | with_reducible apply memRead_upd
    | split

theorem execDescriptorWrite_ans {r : Req} {d : Nat} {k : Nat} {w : Nat} {v : Word} (hM : gr.mem = true) (hE : gr.ecc = true) (hU : Upd gr s₀ s) : Ans gr s₀ (execDescriptorWrite r d k w v s) := by
  unfold execDescriptorWrite
  try dsimp only
  repeat' first
    | intro _
    | with_reducible assumption
    | with_reducible apply ok_ans
    | with_reducible apply ite_ans
    | with_reducible apply ite_upd
    | with_reducible exact ok_ans (by assumption)
    | with_reducible apply memWrite_upd
    | split

end Sys2Proof.Laws
end

