-- ==== Sys2Proof/Laws/PageUpd.lean ====
section
/-!
SUPPORT. What each operation of `Machine/Page.lean` keeps, and the groups of state it may change (`Upd`).
-/

set_option Elab.async false
set_option linter.unusedTactic false
set_option linter.unreachableTactic false
namespace Sys2Proof.Laws

open Sys2Proof.Machine

variable {gr : Grp} {s₀ s : State}

theorem hpStop_upd {d : Nat} {p : Nat} (hE : gr.ecc = true) (hU : Upd gr s₀ s) : Upd gr s₀ (hpStop s d p) := by
  unfold hpStop
  try dsimp only
  repeat' first
    | intro _
    | with_reducible assumption
    | with_reducible apply ite_upd
    | with_reducible apply loadAbort_upd
    | with_reducible apply setPort_upd
    | with_reducible apply each_upd
    | with_reducible apply frameEnd_upd
    | with_reducible apply htrFollow_upd
    | split
    | with_reducible apply Upd.lit

theorem hpOff_upd {d : Nat} {p : Nat} (hE : gr.ecc = true) (hU : Upd gr s₀ s) : Upd gr s₀ (hpOff s d p) := by
  unfold hpOff
  try dsimp only
  repeat' first
    | intro _
    | with_reducible assumption
    | with_reducible apply ite_upd
    | with_reducible apply setLink_upd
    | with_reducible apply abandonFrames_upd
    | with_reducible apply thermOff_upd
    | with_reducible apply setPort_upd
    | split
    | with_reducible apply Upd.lit

theorem pageStart_upd {p : Pg} (hU : Upd gr s₀ s) : Upd gr s₀ (pageStart s p) := by
  unfold pageStart
  try dsimp only
  repeat' first
    | intro _
    | with_reducible assumption
    | with_reducible apply ite_upd
    | with_reducible apply setPstate_upd
    | with_reducible apply setLink_upd
    | with_reducible apply axStart_upd
    | with_reducible apply injFollow_upd
    | split
    | with_reducible apply Upd.lit

theorem pageTied_upd {p : Pg} (hU : Upd gr s₀ s) : Upd gr s₀ (pageTied s p) := by
  unfold pageTied
  try dsimp only
  repeat' first
    | intro _
    | with_reducible assumption
    | with_reducible apply ite_upd
    | with_reducible apply dieRecord_upd
    | with_reducible apply setDie_upd
    | exact ⟨rfl, fun h => h, fun h => h⟩
    | exact ⟨rfl, by simp, by simp⟩
    | split
    | with_reducible apply Upd.lit

theorem pageRun_upd {p : Pg} (hU : Upd gr s₀ s) : Upd gr s₀ (pageRun s p) := by
  unfold pageRun
  try dsimp only
  repeat' first
    | intro _
    | with_reducible assumption
    | with_reducible apply ite_upd
    | with_reducible apply setPstate_upd
    | with_reducible apply portRunning_upd
    | with_reducible apply axRunning_upd
    | with_reducible apply encStart_upd
    | with_reducible apply pdStart_upd
    | with_reducible apply pageTied_upd
    | with_reducible apply chuteFollow_upd
    | with_reducible apply chuteStart_upd
    | with_reducible apply cgFollow_upd
    | with_reducible apply hcStarted_upd
    | with_reducible apply tsStart_upd
    | with_reducible apply seamsUpdate_upd
    | with_reducible apply injFollow_upd
    | with_reducible apply setDie_upd
    | exact ⟨rfl, fun h => h, fun h => h⟩
    | exact ⟨rfl, by simp, by simp⟩
    | split
    | with_reducible apply Upd.lit

theorem pageShut_upd {p : Pg} (hE : gr.ecc = true) (hU : Upd gr s₀ s) : Upd gr s₀ (pageShut s p) := by
  unfold pageShut
  try dsimp only
  repeat' first
    | intro _
    | with_reducible assumption
    | with_reducible apply ite_upd
    | with_reducible apply setPstate_upd
    | with_reducible apply hpStop_upd
    | with_reducible apply axShut_upd
    | with_reducible apply encStop_upd
    | with_reducible apply encSync_upd
    | with_reducible apply chuteFollow_upd
    | with_reducible apply setDyn_upd
    | with_reducible apply hcStop_upd
    | with_reducible apply tsStop_upd
    | with_reducible apply seamsUpdate_upd
    | with_reducible apply asStop_upd
    | with_reducible apply mbStop_upd
    | with_reducible apply dbgClose_upd
    | with_reducible apply injFollow_upd
    | split
    | with_reducible apply Upd.lit

theorem pageOff_upd {p : Pg} (hE : gr.ecc = true) (hU : Upd gr s₀ s) : Upd gr s₀ (pageOff s p) := by
  unfold pageOff
  try dsimp only
  repeat' first
    | intro _
    | with_reducible assumption
    | with_reducible apply ite_upd
    | with_reducible apply hpOff_upd
    | with_reducible apply axOff_upd
    | with_reducible apply heldForget_upd
    | with_reducible apply setChute_upd
    | with_reducible apply spotGone_upd
    | with_reducible apply raise_upd
    | with_reducible apply hcStopped_upd
    | with_reducible apply serDrop_upd
    | with_reducible apply tsOff_upd
    | split
    | with_reducible apply Upd.lit

theorem engineReset_upd {p : Pg} (hE : gr.ecc = true) (hU : Upd gr s₀ s) : Upd gr s₀ (engineReset s p) := by
  unfold engineReset
  try dsimp only
  repeat' first
    | intro _
    | with_reducible assumption
    | with_reducible apply ite_upd
    | with_reducible apply linkStat_upd
    | with_reducible apply htrFollow_upd
    | with_reducible apply setPort_upd
    | with_reducible apply axReset_upd
    | with_reducible apply setEnc_upd
    | with_reducible apply setChute_upd
    | with_reducible apply setHoist_upd
    | with_reducible apply mbReset_upd
    | with_reducible apply setEcho_upd
    | with_reducible apply setAssay_upd
    | with_reducible apply setLamp_upd
    | split
    | with_reducible apply Upd.lit

theorem pageReset_upd {p : Pg} {en : Bool} (hE : gr.ecc = true) (hU : Upd gr s₀ s) : Upd gr s₀ (pageReset s p en) := by
  unfold pageReset
  try dsimp only
  repeat' first
    | intro _
    | with_reducible assumption
    | with_reducible apply ite_upd
    | with_reducible apply setPstate_upd
    | with_reducible apply wb_upd
    | with_reducible apply resetPage_upd
    | with_reducible apply setFenceSt_upd
    | with_reducible apply engineReset_upd
    | with_reducible apply tbFollow_upd
    | with_reducible apply wr_upd
    | split
    | with_reducible apply Upd.lit

theorem pageDone_upd {p : Pg} (hE : gr.ecc = true) (hU : Upd gr s₀ s) : Upd gr s₀ (pageDone s p) := by
  unfold pageDone
  try dsimp only
  repeat' first
    | intro _
    | with_reducible assumption
    | with_reducible apply ite_upd
    | with_reducible apply pageOff_upd
    | with_reducible apply pageReset_upd
    | with_reducible apply pageStart_upd
    | with_reducible apply setFenceSt_upd
    | with_reducible apply setPstate_upd
    | split

theorem enSet_upd {p : Pg} {b : Bool} (hE : gr.ecc = true) (hU : Upd gr s₀ s) : Upd gr s₀ (enSet s p b) := by
  unfold enSet
  try dsimp only
  repeat' first
    | intro _
    | with_reducible assumption
    | with_reducible apply ite_upd
    | with_reducible apply whenDo_upd
    | with_reducible apply wb_upd
    | with_reducible apply injFollow_upd
    | with_reducible apply setFenceSt_upd
    | with_reducible apply pageStart_upd
    | with_reducible apply setPstate_upd
    | with_reducible apply setLink_upd
    | with_reducible apply pageShut_upd
    | split
    | with_reducible apply Upd.lit

theorem softReset_upd {p : Pg} (hE : gr.ecc = true) (hU : Upd gr s₀ s) : Upd gr s₀ (softReset s p) := by
  unfold softReset
  try dsimp only
  repeat' first
    | intro _
    | with_reducible assumption
    | with_reducible apply ite_upd
    | with_reducible apply pageReset_upd
    | with_reducible apply wb_upd
    | with_reducible apply enSet_upd
    | with_reducible apply setPstate_upd
    | split

theorem execBlockStarted_ans {p : Pg} (hE : gr.ecc = true) (hU : Upd gr s₀ s) : Ans gr s₀ (execBlockStarted p s) := by
  unfold execBlockStarted
  try dsimp only
  repeat' first
    | intro _
    | with_reducible assumption
    | with_reducible apply ok_ans
    | with_reducible apply ite_ans
    | with_reducible apply ite_upd
    | with_reducible exact ok_ans (by assumption)
    | with_reducible apply setFenceSt_upd
    | with_reducible apply pageRun_upd
    | with_reducible apply pageShut_upd
    | split

theorem execShutdownComplete_ans {p : Pg} (hE : gr.ecc = true) (hU : Upd gr s₀ s) : Ans gr s₀ (execShutdownComplete p s) := by
  unfold execShutdownComplete
  try dsimp only
  repeat' first
    | intro _
    | with_reducible assumption
    | with_reducible apply ok_ans
    | with_reducible apply ite_ans
    | with_reducible apply ite_upd
    | with_reducible exact ok_ans (by assumption)
    | with_reducible apply waitTick_upd
    | with_reducible apply waitClock_upd
    | with_reducible apply each_upd
    | with_reducible apply waitSpare_upd
    | with_reducible apply pageDone_upd
    | split
    | with_reducible apply Upd.lit

theorem resend_upd {p : Pg} (hU : Upd gr s₀ s) : Upd gr s₀ (resend s p) := by
  unfold resend
  try dsimp only
  repeat' first
    | intro _
    | with_reducible assumption
    | with_reducible apply ite_upd
    | with_reducible apply pageMsix_upd
    | split

theorem evtLat_upd {p : Pg} {v : Word} (hU : Upd gr s₀ s) : Upd gr s₀ (evtLat s p v) := by
  unfold evtLat
  try dsimp only
  repeat' first
    | intro _
    | with_reducible assumption
    | with_reducible apply ite_upd
    | with_reducible apply resend_upd
    | with_reducible apply wr_upd
    | split

theorem evtEn_upd {p : Pg} {v : Word} (hU : Upd gr s₀ s) : Upd gr s₀ (evtEn s p v) := by
  unfold evtEn
  try dsimp only
  repeat' first
    | intro _
    | with_reducible assumption
    | with_reducible apply ite_upd
    | with_reducible apply resend_upd
    | with_reducible apply wr_upd
    | split

theorem evtLvl_upd {p : Pg} {v : Word} (hU : Upd gr s₀ s) : Upd gr s₀ (evtLvl s p v) := by
  unfold evtLvl
  try dsimp only
  repeat' first
    | intro _
    | with_reducible assumption
    | with_reducible apply ite_upd
    | with_reducible apply wr_upd
    | with_reducible apply latch_upd
    | split

theorem evtSet_upd {p : Pg} {v : Word} (hU : Upd gr s₀ s) : Upd gr s₀ (evtSet s p v) := by
  unfold evtSet
  try dsimp only
  repeat' first
    | intro _
    | with_reducible assumption
    | with_reducible apply ite_upd
    | with_reducible apply latch_upd
    | split

theorem evtVec_upd {p : Pg} {v : Word} (hU : Upd gr s₀ s) : Upd gr s₀ (evtVec s p v) := by
  unfold evtVec
  try dsimp only
  repeat' first
    | intro _
    | with_reducible assumption
    | with_reducible apply ite_upd
    | with_reducible apply wr_upd
    | split

theorem errClear_upd {p : Pg} {v : Word} (hU : Upd gr s₀ s) : Upd gr s₀ (errClear s p v) := by
  unfold errClear
  try dsimp only
  repeat' first
    | intro _
    | with_reducible assumption
    | with_reducible apply ite_upd
    | with_reducible apply wb_upd
    | split

theorem commitWrite_upd {r : Req} {p : Pg} {v : Word} (hU : Upd gr s₀ s) : Upd gr s₀ (commitWrite s r p v) := by
  unfold commitWrite
  try dsimp only
  repeat' first
    | intro _
    | with_reducible assumption
    | with_reducible apply ite_upd
    | with_reducible apply logErr_upd
    | with_reducible apply wb_upd
    | with_reducible apply wf_upd
    | with_reducible apply whenDo_upd
    | split
    | with_reducible apply Upd.lit

theorem pageHandOver_upd {p : Pg} (hE : gr.ecc = true) (hU : Upd gr s₀ s) : Upd gr s₀ (pageHandOver s p) := by
  unfold pageHandOver
  try dsimp only
  repeat' first
    | intro _
    | with_reducible assumption
    | with_reducible apply ite_upd
    | with_reducible apply encHandOver_upd
    | with_reducible apply hpHandOver_upd
    | with_reducible apply pdHandOver_upd
    | with_reducible apply tbHandOver_upd
    | with_reducible apply tsHandOver_upd
    | with_reducible apply axHandOver_upd
    | with_reducible apply seamsUpdate_upd
    | with_reducible apply takeShadows_upd
    | split
    | with_reducible apply Upd.lit

theorem execHandOver_ans {p : Pg} (hE : gr.ecc = true) (hU : Upd gr s₀ s) : Ans gr s₀ (execHandOver p s) := by
  unfold execHandOver
  try dsimp only
  repeat' first
    | intro _
    | with_reducible assumption
    | with_reducible apply ok_ans
    | with_reducible apply ite_ans
    | with_reducible apply ite_upd
    | with_reducible exact ok_ans (by assumption)
    | with_reducible apply pageHandOver_upd
    | with_reducible apply waitClock_upd
    | split

theorem primaryWrite_upd {r : Req} {p : Pg} {eff : State → State} (hU : Upd gr s₀ s) (hf_eff : ∀ tU, Upd gr s₀ tU → Upd gr s₀ (eff tU)) : Upd gr s₀ (primaryWrite s r p eff) := by
  unfold primaryWrite
  try dsimp only
  repeat' first
    | intro _
    | with_reducible assumption
    | with_reducible apply ite_upd
    | with_reducible apply hf_eff
    | with_reducible apply logErr_upd
    | split

theorem execEnWrite_ans {r : Req} {p : Pg} {b : Bool} (hE : gr.ecc = true) (hU : Upd gr s₀ s) : Ans gr s₀ (execEnWrite r p b s) := by
  unfold execEnWrite
  try dsimp only
  repeat' first
    | intro _
    | with_reducible assumption
    | with_reducible apply ok_ans
    | with_reducible apply ite_ans
    | with_reducible apply ite_upd
    | with_reducible exact ok_ans (by assumption)
    | with_reducible apply guardedWrite_upd
    | with_reducible apply primaryWrite_upd
    | with_reducible apply enSet_upd
    | split

theorem execSoftReset_ans {r : Req} {p : Pg} (hE : gr.ecc = true) (hU : Upd gr s₀ s) : Ans gr s₀ (execSoftReset r p s) := by
  unfold execSoftReset
  try dsimp only
  repeat' first
    | intro _
    | with_reducible assumption
    | with_reducible apply ok_ans
    | with_reducible apply ite_ans
    | with_reducible apply ite_upd
    | with_reducible exact ok_ans (by assumption)
    | with_reducible apply guardedWrite_upd
    | with_reducible apply primaryWrite_upd
    | with_reducible apply softReset_upd
    | split

theorem execEvtLatWrite_ans {r : Req} {p : Pg} {v : Word} (hU : Upd gr s₀ s) : Ans gr s₀ (execEvtLatWrite r p v s) := by
  unfold execEvtLatWrite
  try dsimp only
  repeat' first
    | intro _
    | with_reducible assumption
    | with_reducible apply ok_ans
    | with_reducible apply ite_ans
    | with_reducible apply ite_upd
    | with_reducible exact ok_ans (by assumption)
    | with_reducible apply guardedWrite_upd
    | with_reducible apply evtLat_upd
    | split

theorem execEvtEnWrite_ans {r : Req} {p : Pg} {v : Word} (hU : Upd gr s₀ s) : Ans gr s₀ (execEvtEnWrite r p v s) := by
  unfold execEvtEnWrite
  try dsimp only
  repeat' first
    | intro _
    | with_reducible assumption
    | with_reducible apply ok_ans
    | with_reducible apply ite_ans
    | with_reducible apply ite_upd
    | with_reducible exact ok_ans (by assumption)
    | with_reducible apply guardedWrite_upd
    | with_reducible apply evtEn_upd
    | split

theorem execEvtSetWrite_ans {r : Req} {p : Pg} {v : Word} (hU : Upd gr s₀ s) : Ans gr s₀ (execEvtSetWrite r p v s) := by
  unfold execEvtSetWrite
  try dsimp only
  repeat' first
    | intro _
    | with_reducible assumption
    | with_reducible apply ok_ans
    | with_reducible apply ite_ans
    | with_reducible apply ite_upd
    | with_reducible exact ok_ans (by assumption)
    | with_reducible apply guardedWrite_upd
    | with_reducible apply evtSet_upd
    | split

theorem execEvtVecWrite_ans {r : Req} {p : Pg} {v : Word} (hU : Upd gr s₀ s) : Ans gr s₀ (execEvtVecWrite r p v s) := by
  unfold execEvtVecWrite
  try dsimp only
  repeat' first
    | intro _
    | with_reducible assumption
    | with_reducible apply ok_ans
    | with_reducible apply ite_ans
    | with_reducible apply ite_upd
    | with_reducible exact ok_ans (by assumption)
    | with_reducible apply guardedWrite_upd
    | with_reducible apply evtVec_upd
    | split

theorem execErrInfoClear_ans {r : Req} {p : Pg} (hU : Upd gr s₀ s) : Ans gr s₀ (execErrInfoClear r p s) := by
  unfold execErrInfoClear
  try dsimp only
  repeat' first
    | intro _
    | with_reducible assumption
    | with_reducible apply ok_ans
    | with_reducible apply ite_ans
    | with_reducible apply ite_upd
    | with_reducible exact ok_ans (by assumption)
    | with_reducible apply guardedWrite_upd
    | with_reducible apply errClear_upd
    | split

theorem execCommitGo_ans {r : Req} {p : Pg} {v : Word} (hU : Upd gr s₀ s) : Ans gr s₀ (execCommitGo r p v s) := by
  unfold execCommitGo
  try dsimp only
  repeat' first
    | intro _
    | with_reducible assumption
    | with_reducible apply ok_ans
    | with_reducible apply ite_ans
    | with_reducible apply ite_upd
    | with_reducible exact ok_ans (by assumption)
    | with_reducible apply guardedWrite_upd
    | with_reducible apply commitWrite_upd
    | split

theorem execCommitCancel_ans {r : Req} {p : Pg} (hU : Upd gr s₀ s) : Ans gr s₀ (execCommitCancel r p s) := by
  unfold execCommitCancel
  try dsimp only
  repeat' first
    | intro _
    | with_reducible assumption
    | with_reducible apply ok_ans
    | with_reducible apply ite_ans
    | with_reducible apply ite_upd
    | with_reducible exact ok_ans (by assumption)
    | with_reducible apply guardedWrite_upd
    | with_reducible apply commitWrite_upd
    | split

end Sys2Proof.Laws
end

