-- ==== Sys2Proof/Laws/ReleaseUpd.lean ====
section
/-!
SUPPORT. What each operation of `Machine/Release.lean` keeps, and the groups of state it may change (`Upd`).
-/

set_option Elab.async false
set_option linter.unusedTactic false
set_option linter.unreachableTactic false
namespace Sys2Proof.Laws

open Sys2Proof.Machine

variable {gr : Grp} {s₀ s : State}

theorem refuseRelease_upd {p : Pg} (hU : Upd gr s₀ s) : Upd gr s₀ (refuseRelease s p) := by
  unfold refuseRelease
  try dsimp only
  repeat' first
    | intro _
    | with_reducible assumption
    | with_reducible apply ite_upd
    | with_reducible apply wr_upd
    | with_reducible apply logRecord_upd
    | with_reducible apply raise_upd
    | split

theorem relRequest_upd {p : Pg} {bflt : Bool} (hU : Upd gr s₀ s) : Upd gr s₀ (relRequest s p bflt) := by
  unfold relRequest
  try dsimp only
  repeat' first
    | intro _
    | with_reducible assumption
    | with_reducible apply ite_upd
    | with_reducible apply refuseRelease_upd
    | with_reducible apply setFenceSt_upd
    | split
    | with_reducible apply Upd.lit

theorem pageUnsafe_upd {p : Pg} (hU : Upd gr s₀ s) : Upd gr s₀ (pageUnsafe s p) := by
  unfold pageUnsafe
  try dsimp only
  repeat' first
    | intro _
    | with_reducible assumption
    | with_reducible apply ite_upd
    | with_reducible apply mbResume_upd
    | with_reducible apply setEnc_upd
    | with_reducible apply setMstate_upd
    | with_reducible apply injFollow_upd
    | split
    | with_reducible apply Upd.lit

theorem pageRelease_upd {p : Pg} (hE : gr.ecc = true) (hU : Upd gr s₀ s) : Upd gr s₀ (pageRelease s p) := by
  unfold pageRelease
  try dsimp only
  repeat' first
    | intro _
    | with_reducible assumption
    | with_reducible apply ite_upd
    | with_reducible apply pageUnsafe_upd
    | with_reducible apply setFenceSt_upd
    | with_reducible apply wb_upd
    | with_reducible apply pageReset_upd
    | with_reducible apply pageOff_upd
    | with_reducible apply pageStart_upd
    | with_reducible apply setPstate_upd
    | with_reducible apply raise_upd
    | with_reducible apply count_upd
    | split
    | with_reducible apply Upd.lit

theorem releaseRecord_upd {p : Pg} {reason : Nat} (hU : Upd gr s₀ s) : Upd gr s₀ (releaseRecord s p reason) := by
  unfold releaseRecord
  try dsimp only
  repeat' first
    | intro _
    | with_reducible assumption
    | with_reducible apply ite_upd
    | with_reducible apply logRecord_upd
    | split

theorem critFollow_upd {d : Nat} (hU : Upd gr s₀ s) : Upd gr s₀ (critFollow s d) := by
  unfold critFollow
  try dsimp only
  repeat' first
    | intro _
    | with_reducible assumption
    | with_reducible apply ite_upd
    | with_reducible apply throtFollow_upd
    | with_reducible apply wb_upd
    | split

theorem execReleaseComplete_ans {p : Pg} (hE : gr.ecc = true) (hU : Upd gr s₀ s) : Ans gr s₀ (execReleaseComplete p s) := by
  unfold execReleaseComplete
  try dsimp only
  repeat' first
    | intro _
    | with_reducible assumption
    | with_reducible apply ok_ans
    | with_reducible apply ite_ans
    | with_reducible apply ite_upd
    | with_reducible exact ok_ans (by assumption)
    | with_reducible apply critFollow_upd
    | with_reducible apply releaseRecord_upd
    | with_reducible apply pageRelease_upd
    | split

theorem fenceWrite_upd {p : Pg} {b : Bool} {bflt : Bool} (hE : gr.ecc = true) (hU : Upd gr s₀ s) : Upd gr s₀ (fenceWrite s p b bflt) := by
  unfold fenceWrite
  try dsimp only
  repeat' first
    | intro _
    | with_reducible assumption
    | with_reducible apply ite_upd
    | with_reducible apply fencePage_upd
    | with_reducible apply relRequest_upd
    | split

theorem execPageFence_ans {r : Req} {p : Pg} (hE : gr.ecc = true) (hU : Upd gr s₀ s) : Ans gr s₀ (execPageFence r p s) := by
  unfold execPageFence
  try dsimp only
  repeat' first
    | intro _
    | with_reducible assumption
    | with_reducible apply ok_ans
    | with_reducible apply ite_ans
    | with_reducible apply ite_upd
    | with_reducible exact ok_ans (by assumption)
    | with_reducible apply guardedWrite_upd
    | with_reducible apply fenceWrite_upd
    | split

theorem execFenceRelease_ans {r : Req} {p : Pg} {bflt : Bool} (hE : gr.ecc = true) (hU : Upd gr s₀ s) : Ans gr s₀ (execFenceRelease r p bflt s) := by
  unfold execFenceRelease
  try dsimp only
  repeat' first
    | intro _
    | with_reducible assumption
    | with_reducible apply ok_ans
    | with_reducible apply ite_ans
    | with_reducible apply ite_upd
    | with_reducible exact ok_ans (by assumption)
    | with_reducible apply guardedWrite_upd
    | with_reducible apply fenceWrite_upd
    | split

theorem dieTakesMode_upd {d : Nat} (hE : gr.ecc = true) (hU : Upd gr s₀ s) : Upd gr s₀ (dieTakesMode s d) := by
  unfold dieTakesMode
  try dsimp only
  repeat' first
    | intro _
    | with_reducible assumption
    | with_reducible apply ite_upd
    | with_reducible apply dieMode_upd
    | split

theorem dieTold_upd {d : Nat} {reason : Nat} (hU : Upd gr s₀ s) : Upd gr s₀ (dieTold s d reason) := by
  unfold dieTold
  try dsimp only
  repeat' first
    | intro _
    | with_reducible assumption
    | with_reducible apply ite_upd
    | with_reducible apply dieRecord_upd
    | with_reducible apply setDie_upd
    | exact ⟨rfl, fun h => h, fun h => h⟩
    | exact ⟨rfl, by simp, by simp⟩
    | split
    | with_reducible apply Upd.lit

theorem dieRelease_upd {d : Nat} (hE : gr.ecc = true) (hU : Upd gr s₀ s) : Upd gr s₀ (dieRelease s d) := by
  unfold dieRelease
  try dsimp only
  repeat' first
    | intro _
    | with_reducible assumption
    | with_reducible apply ite_upd
    | with_reducible apply setDie_upd
    | with_reducible apply whenDo_upd
    | with_reducible apply wb_upd
    | with_reducible apply dieTakesMode_upd
    | with_reducible apply each_upd
    | with_reducible apply pageRelease_upd
    | with_reducible apply critFollow_upd
    | with_reducible apply seamsAll_upd
    | with_reducible apply dieRecord_upd
    | with_reducible apply dieTold_upd
    | with_reducible apply pageTied_upd
    | exact ⟨rfl, fun h => h, fun h => h⟩
    | exact ⟨rfl, by simp, by simp⟩
    | split
    | with_reducible apply Upd.lit

theorem dieRefused_upd {d : Nat} (hU : Upd gr s₀ s) : Upd gr s₀ (dieRefused s d) := by
  unfold dieRefused
  try dsimp only
  repeat' first
    | intro _
    | with_reducible assumption
    | with_reducible apply ite_upd
    | with_reducible apply logRecord_upd
    | with_reducible apply raise_upd
    | split

theorem dieUnfence_upd {d : Nat} (hE : gr.ecc = true) (hU : Upd gr s₀ s) : Upd gr s₀ (dieUnfence s d) := by
  unfold dieUnfence
  try dsimp only
  repeat' first
    | intro _
    | with_reducible assumption
    | with_reducible apply ite_upd
    | with_reducible apply dieRelease_upd
    | with_reducible apply dieRefused_upd
    | split
    | with_reducible apply Upd.lit

theorem dieCtrl_upd {v : Word} (hE : gr.ecc = true) (hU : Upd gr s₀ s) : Upd gr s₀ (dieCtrl s v) := by
  unfold dieCtrl
  try dsimp only
  repeat' first
    | intro _
    | with_reducible assumption
    | with_reducible apply ite_upd
    | with_reducible apply wr_upd
    | with_reducible apply each_upd
    | with_reducible apply fenceDie_upd
    | with_reducible apply dieUnfence_upd
    | split

theorem execDieFenced_ans {r : Req} {v : Word} (hE : gr.ecc = true) (hU : Upd gr s₀ s) : Ans gr s₀ (execDieFenced r v s) := by
  unfold execDieFenced
  try dsimp only
  repeat' first
    | intro _
    | with_reducible assumption
    | with_reducible apply ok_ans
    | with_reducible apply ite_ans
    | with_reducible apply ite_upd
    | with_reducible exact ok_ans (by assumption)
    | with_reducible apply guardedWrite_upd
    | with_reducible apply dieCtrl_upd
    | split

theorem execWatchdog_ans {d : Nat} (hE : gr.ecc = true) (hU : Upd gr s₀ s) : Ans gr s₀ (execWatchdog d s) := by
  unfold execWatchdog
  try dsimp only
  repeat' first
    | intro _
    | with_reducible assumption
    | with_reducible apply ok_ans
    | with_reducible apply ite_ans
    | with_reducible apply ite_upd
    | with_reducible exact ok_ans (by assumption)
    | with_reducible apply waitClock_upd
    | with_reducible apply fenceDie_upd
    | with_reducible apply raise_upd
    | split

theorem pllRelock_upd {d : Nat} (hU : Upd gr s₀ s) : Upd gr s₀ (pllRelock s d) := by
  unfold pllRelock
  try dsimp only
  repeat' first
    | intro _
    | with_reducible assumption
    | with_reducible apply ite_upd
    | with_reducible apply setDie_upd
    | with_reducible apply setDyn_upd
    | with_reducible apply wb_upd
    | exact ⟨rfl, fun h => h, fun h => h⟩
    | exact ⟨rfl, by simp, by simp⟩
    | split
    | with_reducible apply Upd.lit

theorem execPllRelockRelease_ans {d : Nat} (hE : gr.ecc = true) (hU : Upd gr s₀ s) : Ans gr s₀ (execPllRelockRelease d s) := by
  unfold execPllRelockRelease
  try dsimp only
  repeat' first
    | intro _
    | with_reducible assumption
    | with_reducible apply ok_ans
    | with_reducible apply ite_ans
    | with_reducible apply ite_upd
    | with_reducible exact ok_ans (by assumption)
    | with_reducible apply pllRelock_upd
    | with_reducible apply dieRelease_upd
    | with_reducible apply waitClock_upd
    | split

theorem execTimeSkewRelease_ans {d : Nat} (hE : gr.ecc = true) (hU : Upd gr s₀ s) : Ans gr s₀ (execTimeSkewRelease d s) := by
  unfold execTimeSkewRelease
  try dsimp only
  repeat' first
    | intro _
    | with_reducible assumption
    | with_reducible apply ok_ans
    | with_reducible apply ite_ans
    | with_reducible apply ite_upd
    | with_reducible exact ok_ans (by assumption)
    | with_reducible apply dieRelease_upd
    | with_reducible apply waitClock_upd
    | split

theorem critScope_upd {d : Nat} (hU : Upd gr s₀ s) : Upd gr s₀ (critScope s d) := by
  unfold critScope
  try dsimp only
  repeat' first
    | intro _
    | with_reducible assumption
    | with_reducible apply ite_upd
    | with_reducible apply setScope_upd
    | split
    | with_reducible apply Upd.lit

theorem execCritical_ans {d : Nat} {o : Nat} (hE : gr.ecc = true) (hU : Upd gr s₀ s) : Ans gr s₀ (execCritical d o s) := by
  unfold execCritical
  try dsimp only
  repeat' first
    | intro _
    | with_reducible assumption
    | with_reducible apply ok_ans
    | with_reducible apply ite_ans
    | with_reducible apply ite_upd
    | with_reducible exact ok_ans (by assumption)
    | with_reducible apply each_upd
    | with_reducible apply fencePage_upd
    | with_reducible apply raise_upd
    | with_reducible apply critFollow_upd
    | with_reducible apply critScope_upd
    | with_reducible apply thRecord_upd
    | split

end Sys2Proof.Laws
end

