-- ==== Sys2Proof/Laws/PcieUpd.lean ====
section
/-!
SUPPORT. What each operation of `Machine/Pcie.lean` keeps, and the groups of state it may change (`Upd`).
-/

set_option Elab.async false
set_option linter.unusedTactic false
set_option linter.unreachableTactic false
namespace Sys2Proof.Laws

open Sys2Proof.Machine

variable {gr : Grp} {s₀ s : State}

theorem readFails_upd {x : HostRead} {code : Nat} (hE : gr.ecc = true) (hU : Upd gr s₀ s) : Upd gr s₀ (readFails s x code) := by
  unfold readFails
  try dsimp only
  repeat' first
    | intro _
    | with_reducible assumption
    | with_reducible apply ite_upd
    | with_reducible apply hcFail_upd
    | with_reducible apply setHoist_upd
    | (with_reducible refine (?_ : Upd gr s₀ (id _)); assumption)
    | split
    | with_reducible apply Upd.lit

theorem readTimeout_upd {n : Nat} {x : HostRead} (hE : gr.ecc = true) (hU : Upd gr s₀ s) : Upd gr s₀ (readTimeout s n x) := by
  unfold readTimeout
  try dsimp only
  repeat' first
    | intro _
    | with_reducible assumption
    | with_reducible apply ite_upd
    | with_reducible apply emit_upd
    | with_reducible apply count_upd
    | with_reducible apply readFails_upd
    | with_reducible apply raise_upd
    | split
    | with_reducible apply Upd.lit

theorem linkErrors_upd {n : Nat} (hU : Upd gr s₀ s) : Upd gr s₀ (linkErrors s n) := by
  unfold linkErrors
  try dsimp only
  repeat' first
    | intro _
    | with_reducible assumption
    | with_reducible apply ite_upd
    | with_reducible apply raise_upd
    | with_reducible apply countBy_upd
    | split

theorem execCompletionTimeout_ans {e : ReadTimeout} (hE : gr.ecc = true) (hU : Upd gr s₀ s) : Ans gr s₀ (execCompletionTimeout e s) := by
  unfold execCompletionTimeout
  try dsimp only
  repeat' first
    | intro _
    | with_reducible assumption
    | with_reducible apply ok_ans
    | with_reducible apply ite_ans
    | with_reducible apply ite_upd
    | with_reducible exact ok_ans (by assumption)
    | with_reducible apply readTimeout_upd
    | with_reducible apply linkErrors_upd
    | split
    | with_reducible apply Upd.lit

theorem execMsixPendingSend_ans {v : Nat} (hU : Upd gr s₀ s) : Ans gr s₀ (execMsixPendingSend v s) := by
  unfold execMsixPendingSend
  try dsimp only
  repeat' first
    | intro _
    | with_reducible assumption
    | with_reducible apply ok_ans
    | with_reducible apply ite_ans
    | with_reducible apply ite_upd
    | with_reducible exact ok_ans (by assumption)
    | with_reducible apply emit_upd
    | with_reducible apply msix_upd
    | split
    | with_reducible apply Upd.lit

theorem mirrorsSend_upd {d : Nat} (hU : Upd gr s₀ s) : Upd gr s₀ (mirrorsSend s d) := by
  unfold mirrorsSend
  try dsimp only
  repeat' first
    | intro _
    | with_reducible assumption
    | with_reducible apply ite_upd
    | with_reducible apply each_upd
    | with_reducible apply whenDo_upd
    | with_reducible apply mirrorWrite_upd
    | split

theorem recordsSend_upd {d : Nat} (hU : Upd gr s₀ s) : Upd gr s₀ (recordsSend s d) := by
  unfold recordsSend
  try dsimp only
  repeat' first
    | intro _
    | with_reducible assumption
    | with_reducible apply ite_upd
    | with_reducible apply each_upd
    | with_reducible apply cqWrite_upd
    | split

theorem bmeSet_upd {b : Bool} (hU : Upd gr s₀ s) : Upd gr s₀ (bmeSet s b) := by
  unfold bmeSet
  try dsimp only
  repeat' first
    | intro _
    | with_reducible assumption
    | with_reducible apply ite_upd
    | with_reducible apply each_upd
    | with_reducible apply recordsSend_upd
    | with_reducible apply mirrorsSend_upd
    | split
    | with_reducible apply Upd.lit

theorem execBusMasterEnable_ans (hU : Upd gr s₀ s) : Ans gr s₀ (execBusMasterEnable s) := by
  unfold execBusMasterEnable
  try dsimp only
  repeat' first
    | intro _
    | with_reducible assumption
    | with_reducible apply ok_ans
    | with_reducible apply ite_ans
    | with_reducible apply ite_upd
    | with_reducible exact ok_ans (by assumption)
    | with_reducible apply bmeSet_upd
    | split

theorem configReset_upd (hU : Upd gr s₀ s) : Upd gr s₀ (configReset s) := by
  unfold configReset
  try dsimp only
  repeat' first
    | intro _
    | with_reducible assumption
    | with_reducible apply ite_upd
    | split
    | with_reducible apply Upd.lit

theorem readsAbandon_upd (hE : gr.ecc = true) (hU : Upd gr s₀ s) : Upd gr s₀ (readsAbandon s) := by
  unfold readsAbandon
  try dsimp only
  repeat' first
    | intro _
    | with_reducible assumption
    | with_reducible apply ite_upd
    | with_reducible apply each_upd
    | with_reducible apply readFails_upd
    | split
    | with_reducible apply Upd.lit

theorem eventsOff_upd {d : Nat} (hU : Upd gr s₀ s) : Upd gr s₀ (eventsOff s d) := by
  unfold eventsOff
  try dsimp only
  repeat' first
    | intro _
    | with_reducible assumption
    | with_reducible apply ite_upd
    | split
    | with_reducible apply Upd.lit

theorem functionReset_upd (hE : gr.ecc = true) (hU : Upd gr s₀ s) : Upd gr s₀ (functionReset s) := by
  unfold functionReset
  try dsimp only
  repeat' first
    | intro _
    | with_reducible assumption
    | with_reducible apply ite_upd
    | with_reducible apply readsAbandon_upd
    | with_reducible apply configReset_upd
    | with_reducible apply each_upd
    | with_reducible apply mbFlr_upd
    | with_reducible apply eventsOff_upd
    | with_reducible apply raise_upd
    | with_reducible apply count_upd
    | split
    | with_reducible apply Upd.lit

theorem execFlr_ans (hE : gr.ecc = true) (hU : Upd gr s₀ s) : Ans gr s₀ (execFlr s) := by
  unfold execFlr
  try dsimp only
  repeat' first
    | intro _
    | with_reducible assumption
    | with_reducible apply ok_ans
    | with_reducible apply ite_ans
    | with_reducible apply ite_upd
    | with_reducible exact ok_ans (by assumption)
    | with_reducible apply functionReset_upd
    | split

theorem hostLinkDown_upd {ltssm : Nat} (hU : Upd gr s₀ s) : Upd gr s₀ (hostLinkDown s ltssm) := by
  unfold hostLinkDown
  try dsimp only
  repeat' first
    | intro _
    | with_reducible assumption
    | with_reducible apply ite_upd
    | with_reducible apply wr_upd
    | with_reducible apply raise_upd
    | with_reducible apply count_upd
    | split

theorem hostLinkUp_upd {gen : Nat} {width : Nat} {ltssm : Nat} (hU : Upd gr s₀ s) : Upd gr s₀ (hostLinkUp s gen width ltssm) := by
  unfold hostLinkUp
  try dsimp only
  repeat' first
    | intro _
    | with_reducible assumption
    | with_reducible apply ite_upd
    | with_reducible apply wr_upd
    | with_reducible apply raise_upd
    | split

theorem execConventionalReset_ans (hE : gr.ecc = true) (hU : Upd gr s₀ s) : Ans gr s₀ (execConventionalReset s) := by
  unfold execConventionalReset
  try dsimp only
  repeat' first
    | intro _
    | with_reducible assumption
    | with_reducible apply ok_ans
    | with_reducible apply ite_ans
    | with_reducible apply ite_upd
    | with_reducible exact ok_ans (by assumption)
    | with_reducible apply each_upd
    | with_reducible apply functionReset_upd
    | with_reducible apply sessClose_upd
    | with_reducible apply nextFree_upd
    | with_reducible apply hostLinkDown_upd
    | split
    | with_reducible apply Upd.lit

theorem execPcieLinkUp_ans {gen : Nat} {width : Nat} {ltssm : Nat} (hU : Upd gr s₀ s) : Ans gr s₀ (execPcieLinkUp gen width ltssm s) := by
  unfold execPcieLinkUp
  try dsimp only
  repeat' first
    | intro _
    | with_reducible assumption
    | with_reducible apply ok_ans
    | with_reducible apply ite_ans
    | with_reducible apply ite_upd
    | with_reducible exact ok_ans (by assumption)
    | with_reducible apply hostLinkUp_upd
    | split
    | with_reducible apply Upd.lit

theorem execPcieLinkDown_ans {ltssm : Nat} (hU : Upd gr s₀ s) : Ans gr s₀ (execPcieLinkDown ltssm s) := by
  unfold execPcieLinkDown
  try dsimp only
  repeat' first
    | intro _
    | with_reducible assumption
    | with_reducible apply ok_ans
    | with_reducible apply ite_ans
    | with_reducible apply ite_upd
    | with_reducible exact ok_ans (by assumption)
    | with_reducible apply hostLinkDown_upd
    | split

end Sys2Proof.Laws
end

