-- ==== Sys2Proof/Laws/BusUpd.lean ====
section
/-!
SUPPORT. What each operation of `Machine/Bus.lean` keeps, and the groups of state it may change (`Upd`).
-/

set_option Elab.async false
set_option linter.unusedTactic false
set_option linter.unreachableTactic false
namespace Sys2Proof.Laws

open Sys2Proof.Machine

variable {gr : Grp} {s₀ s : State}

theorem ctrlWrite_upd {r : Req} {p : Pg} {v : Word} (hE : gr.ecc = true) (hU : Upd gr s₀ s) : Upd gr s₀ (ctrlWrite s r p v) := by
  unfold ctrlWrite
  try dsimp only
  repeat' first
    | intro _
    | with_reducible assumption
    | with_reducible apply ite_upd
    | with_reducible apply fenceWrite_upd
    | with_reducible apply nextFree_upd
    | with_reducible apply primaryWrite_upd
    | with_reducible apply whenDo_upd
    | with_reducible apply enSet_upd
    | with_reducible apply softReset_upd
    | split

theorem hdrWrite_upd {r : Req} {p : Pg} {off : Nat} {v : Word} (hE : gr.ecc = true) (hU : Upd gr s₀ s) : Upd gr s₀ (hdrWrite s r p off v) := by
  unfold hdrWrite
  try dsimp only
  repeat' first
    | intro _
    | with_reducible assumption
    | with_reducible apply ite_upd
    | with_reducible apply ctrlWrite_upd
    | with_reducible apply commitWrite_upd
    | with_reducible apply evtLat_upd
    | with_reducible apply evtEn_upd
    | with_reducible apply evtLvl_upd
    | with_reducible apply evtVec_upd
    | with_reducible apply evtSet_upd
    | with_reducible apply errClear_upd
    | split

theorem ctxFollow_upd {d : Nat} (hU : Upd gr s₀ s) : Upd gr s₀ (ctxFollow s d) := by
  unfold ctxFollow
  try dsimp only
  repeat' first
    | intro _
    | with_reducible assumption
    | with_reducible apply ite_upd
    | with_reducible apply setDyn_upd
    | split

theorem ctxWrite_upd {r : Req} {p : Pg} {off : Nat} {v : Word} (hM : gr.mem = true) (hE : gr.ecc = true) (hU : Upd gr s₀ s) : Upd gr s₀ (ctxWrite s r p off v) := by
  unfold ctxWrite
  try dsimp only
  repeat' first
    | intro _
    | with_reducible assumption
    | with_reducible apply ite_upd
    | with_reducible apply ctxCmdWrite_upd
    | with_reducible apply ctxCommitWrite_upd
    | with_reducible apply ctxFollow_upd
    | with_reducible apply plainWrite_upd
    | split

theorem threshWrite_upd {r : Req} {p : Pg} {v : Word} (hU : Upd gr s₀ s) : Upd gr s₀ (threshWrite s r p v) := by
  unfold threshWrite
  try dsimp only
  repeat' first
    | intro _
    | with_reducible assumption
    | with_reducible apply ite_upd
    | with_reducible apply plainWrite_upd
    | with_reducible apply wb_upd
    | with_reducible apply cgFollow_upd
    | with_reducible apply latch_upd
    | split

theorem chuteWrite_upd {r : Req} {p : Pg} {off : Nat} {v : Word} (hU : Upd gr s₀ s) : Upd gr s₀ (chuteWrite s r p off v) := by
  unfold chuteWrite
  try dsimp only
  repeat' first
    | intro _
    | with_reducible assumption
    | with_reducible apply ite_upd
    | with_reducible apply chutePush_upd
    | with_reducible apply threshWrite_upd
    | with_reducible apply plainWrite_upd
    | with_reducible apply mirrorFollow_upd
    | split

theorem cqSizeSet_upd {r : Req} {d : Nat} {q : Nat} {v : Word} (hU : Upd gr s₀ s) : Upd gr s₀ (cqSizeSet s r d q v) := by
  unfold cqSizeSet
  try dsimp only
  repeat' first
    | intro _
    | with_reducible assumption
    | with_reducible apply ite_upd
    | with_reducible apply plainWrite_upd
    | with_reducible apply cqFollow_upd
    | with_reducible apply wr_upd
    | split

theorem cqConsSet_upd {r : Req} {d : Nat} {q : Nat} {v : Word} (hU : Upd gr s₀ s) : Upd gr s₀ (cqConsSet s r d q v) := by
  unfold cqConsSet
  try dsimp only
  repeat' first
    | intro _
    | with_reducible assumption
    | with_reducible apply ite_upd
    | with_reducible apply cqFollow_upd
    | with_reducible apply plainWrite_upd
    | split

theorem hgWrite_upd {r : Req} {p : Pg} {off : Nat} {v : Word} (hU : Upd gr s₀ s) : Upd gr s₀ (hgWrite s r p off v) := by
  unfold hgWrite
  try dsimp only
  repeat' first
    | intro _
    | with_reducible assumption
    | with_reducible apply ite_upd
    | with_reducible apply cqSizeSet_upd
    | with_reducible apply cqConsSet_upd
    | with_reducible apply plainWrite_upd
    | split

theorem mboxWrite_upd {r : Req} {p : Pg} {off : Nat} {v : Word} (hU : Upd gr s₀ s) : Upd gr s₀ (mboxWrite s r p off v) := by
  unfold mboxWrite
  try dsimp only
  repeat' first
    | intro _
    | with_reducible assumption
    | with_reducible apply ite_upd
    | with_reducible apply inHdrWrite_upd
    | with_reducible apply outAck_upd
    | with_reducible apply plainWrite_upd
    | split

theorem tabCtrl_upd {r : Req} {d : Nat} {v : Word} (hU : Upd gr s₀ s) : Upd gr s₀ (tabCtrl s r d v) := by
  unfold tabCtrl
  try dsimp only
  repeat' first
    | intro _
    | with_reducible assumption
    | with_reducible apply ite_upd
    | with_reducible apply whenDo_upd
    | with_reducible apply tabRead_upd
    | with_reducible apply tabWrite_upd
    | with_reducible apply tabClear_upd
    | split

theorem echoWrite_upd {r : Req} {p : Pg} {off : Nat} {v : Word} (hM : gr.mem = true) (hE : gr.ecc = true) (hU : Upd gr s₀ s) : Upd gr s₀ (echoWrite s r p off v) := by
  unfold echoWrite
  try dsimp only
  repeat' first
    | intro _
    | with_reducible assumption
    | with_reducible apply ite_upd
    | with_reducible apply whenDo_upd
    | with_reducible apply sweepStart_upd
    | with_reducible apply sweepAbort_upd
    | with_reducible apply nzCmd_upd
    | with_reducible apply plainWrite_upd
    | split

theorem sessionWrite_upd {r : Req} {p : Pg} {off : Nat} {v : Word} (hS : gr.sess = true) (hU : Upd gr s₀ s) : Upd gr s₀ (sessionWrite s r p off v) := by
  unfold sessionWrite
  try dsimp only
  repeat' first
    | intro _
    | with_reducible assumption
    | with_reducible apply ite_upd
    | with_reducible apply sessCtrlWrite_upd
    | with_reducible apply sessCheck_upd
    | with_reducible apply sessDataWrite_upd
    | with_reducible apply plainWrite_upd
    | split

theorem tbWrite_upd {r : Req} {p : Pg} {off : Nat} {v : Word} (hU : Upd gr s₀ s) : Upd gr s₀ (tbWrite s r p off v) := by
  unfold tbWrite
  try dsimp only
  repeat' first
    | intro _
    | with_reducible assumption
    | with_reducible apply ite_upd
    | with_reducible apply plainWrite_upd
    | with_reducible apply tbFollow_upd
    | split
    | with_reducible apply Upd.lit

theorem blockWrite_upd {r : Req} {p : Pg} {off : Nat} {v : Word} (hM : gr.mem = true) (hE : gr.ecc = true) (hR : gr.ret = true) (hS : gr.sess = true) (hU : Upd gr s₀ s) : Upd gr s₀ (blockWrite s r p off v) := by
  unfold blockWrite
  try dsimp only
  repeat' first
    | intro _
    | with_reducible assumption
    | with_reducible apply ite_upd
    | with_reducible apply modeReq_upd
    | with_reducible apply modeLeadSet_upd
    | with_reducible apply plainWrite_upd
    | with_reducible apply tbWrite_upd
    | with_reducible apply dieCtrl_upd
    | with_reducible apply tlClearWrite_upd
    | with_reducible apply asCmd_upd
    | with_reducible apply tabCtrl_upd
    | with_reducible apply whenDo_upd
    | with_reducible apply lampStart_upd
    | with_reducible apply histClear_upd
    | with_reducible apply retDataWrite_upd
    | with_reducible apply hgWrite_upd
    | with_reducible apply cgFollow_upd
    | with_reducible apply mboxWrite_upd
    | with_reducible apply wfCtrlEff_upd
    | with_reducible apply latTrigWrite_upd
    | with_reducible apply axCmdAdd_upd
    | with_reducible apply echoWrite_upd
    | with_reducible apply ctxWrite_upd
    | with_reducible apply hcCtrl_upd
    | with_reducible apply chuteWrite_upd
    | with_reducible apply guardSet_upd
    | with_reducible apply dbgCtrlWrite_upd
    | with_reducible apply ijlWrite_upd
    | with_reducible apply sessionWrite_upd
    | split
    | with_reducible apply Upd.lit

theorem regEffect_upd {r : Req} {p : Pg} {off : Nat} {v : Word} (hM : gr.mem = true) (hE : gr.ecc = true) (hR : gr.ret = true) (hS : gr.sess = true) (hU : Upd gr s₀ s) : Upd gr s₀ (regEffect r p off v s) := by
  unfold regEffect
  try dsimp only
  repeat' first
    | intro _
    | with_reducible assumption
    | with_reducible apply ite_upd
    | with_reducible apply hdrWrite_upd
    | with_reducible apply logErr_upd
    | with_reducible apply blockWrite_upd
    | split
    | with_reducible apply Upd.lit

theorem regWrite_upd {r : Req} {p : Pg} {off : Nat} {v : Word} (hM : gr.mem = true) (hE : gr.ecc = true) (hR : gr.ret = true) (hS : gr.sess = true) (hU : Upd gr s₀ s) : Upd gr s₀ (regWrite s r p off v) := by
  unfold regWrite
  try dsimp only
  repeat' first
    | intro _
    | with_reducible assumption
    | with_reducible apply ite_upd
    | with_reducible apply guardedWrite_upd
    | with_reducible apply regEffect_upd
    | split

theorem latCapture_upd {r : Req} {p : Pg} {off : Nat} (hU : Upd gr s₀ s) : Upd gr s₀ (latCapture r p off s) := by
  unfold latCapture
  try dsimp only
  repeat' first
    | intro _
    | with_reducible assumption
    | with_reducible apply ite_upd
    | split
    | with_reducible apply Upd.lit

theorem regRead_upd {r : Req} {p : Pg} {off : Nat} (hE : gr.ecc = true) (hU : Upd gr s₀ s) :
    Upd gr s₀ (regRead s r p off) := by
  unfold regRead
  split
  · exact ite_upd (popRead_upd hU) (guardedRead_upd hU fun _ h => h)
  · exact ite_upd (guardedRead_upd hU fun _ h => retDataRead_upd hE h) (guardedRead_upd hU fun _ h => h)
  · exact guardedRead_upd (ite_upd (axStatWait_upd hE hU) hU) fun _ h => latCapture_upd h
  · exact guardedRead_upd hU fun _ h => latCapture_upd h

theorem shapedWrite_upd {r : Req} {p : Pg} {off : Nat} {sh : Shape} {v : Word} (hM : gr.mem = true) (hE : gr.ecc = true) (hR : gr.ret = true) (hS : gr.sess = true) (hU : Upd gr s₀ s) : Upd gr s₀ (shapedWrite s r p off sh v) := by
  unfold shapedWrite
  try dsimp only
  repeat' first
    | intro _
    | with_reducible assumption
    | with_reducible apply ite_upd
    | with_reducible apply poisonRx_upd
    | with_reducible apply regWrite_upd
    | with_reducible apply guardedWrite_upd
    | with_reducible apply logErr_upd
    | split

theorem msixTableWrite_upd {v : Nat} {dw : Nat} {x : Nat} (hU : Upd gr s₀ s) : Upd gr s₀ (msixTableWrite s v dw x) := by
  unfold msixTableWrite
  try dsimp only
  repeat' first
    | intro _
    | with_reducible assumption
    | with_reducible apply ite_upd
    | split
    | with_reducible apply Upd.lit

theorem configWrite_upd {field : Nat} {x : Nat} (hE : gr.ecc = true) (hU : Upd gr s₀ s) : Upd gr s₀ (configWrite s field x) := by
  unfold configWrite
  try dsimp only
  repeat' first
    | intro _
    | with_reducible assumption
    | with_reducible apply ite_upd
    | with_reducible apply bmeSet_upd
    | with_reducible apply functionReset_upd
    | split
    | with_reducible apply Upd.lit

theorem execRegisterWrite_ans {r : Req} {t : Target} {sh : Shape} {v : Nat} (hM : gr.mem = true) (hE : gr.ecc = true) (hR : gr.ret = true) (hS : gr.sess = true) (hU : Upd gr s₀ s) : Ans gr s₀ (execRegisterWrite r t sh v s) := by
  unfold execRegisterWrite
  try dsimp only
  repeat' first
    | intro _
    | with_reducible assumption
    | with_reducible apply ok_ans
    | with_reducible apply ite_ans
    | with_reducible apply ite_upd
    | with_reducible exact ok_ans (by assumption)
    | with_reducible apply shapedWrite_upd
    | with_reducible apply poisonRx_upd
    | with_reducible apply msixTableWrite_upd
    | with_reducible apply configWrite_upd
    | split
    | with_reducible apply Upd.lit

theorem execUnsupportedRequest_ans {r : Req} {bar : Nat} {off : Nat} {write : Bool} (hU : Upd gr s₀ s) : Ans gr s₀ (execUnsupportedRequest r bar off write s) := by
  unfold execUnsupportedRequest
  try dsimp only
  repeat' first
    | intro _
    | with_reducible assumption
    | with_reducible apply ok_ans
    | with_reducible apply ite_ans
    | with_reducible apply ite_upd
    | with_reducible exact ok_ans (by assumption)
    | with_reducible apply unsupported_upd
    | split

theorem lanesRead_upd {r : Req} {p : Pg} {off : Nat} {n : Nat} (hE : gr.ecc = true) (hU : Upd gr s₀ s) : Upd gr s₀ (lanesRead s r p off n) := by
  unfold lanesRead
  try dsimp only
  repeat' first
    | intro _
    | with_reducible assumption
    | with_reducible apply ite_upd
    | with_reducible apply regRead_upd
    | split
    | with_reducible apply Upd.lit

theorem execWideLRead_ans {r : Req} {t : Target} {n : Nat} (hE : gr.ecc = true) (hU : Upd gr s₀ s) : Ans gr s₀ (execWideLRead r t n s) := by
  unfold execWideLRead
  try dsimp only
  repeat' first
    | intro _
    | with_reducible assumption
    | with_reducible apply ok_ans
    | with_reducible apply ite_ans
    | with_reducible apply ite_upd
    | with_reducible exact ok_ans (by assumption)
    | with_reducible apply regRead_upd
    | with_reducible apply lanesRead_upd
    | split
    | with_reducible apply Upd.lit

theorem execWideLWrite_ans {r : Req} {p : Pg} {off : Nat} {v : Word} (hM : gr.mem = true) (hE : gr.ecc = true) (hR : gr.ret = true) (hS : gr.sess = true) (hU : Upd gr s₀ s) : Ans gr s₀ (execWideLWrite r p off v s) := by
  unfold execWideLWrite
  try dsimp only
  repeat' first
    | intro _
    | with_reducible assumption
    | with_reducible apply ok_ans
    | with_reducible apply ite_ans
    | with_reducible apply ite_upd
    | with_reducible exact ok_ans (by assumption)
    | with_reducible apply regWrite_upd
    | split

theorem localWrite_upd {r : Req} {d : Nat} {addr : Nat} {v : Word} (hM : gr.mem = true) (hE : gr.ecc = true) (hR : gr.ret = true) (hS : gr.sess = true) (hU : Upd gr s₀ s) : Upd gr s₀ (localWrite s r d addr v) := by
  unfold localWrite
  try dsimp only
  repeat' first
    | intro _
    | with_reducible assumption
    | with_reducible apply ite_upd
    | with_reducible apply regWrite_upd
    | with_reducible apply memWrite_upd
    | split
    | with_reducible apply Upd.lit

theorem localRead_upd {r : Req} {d : Nat} {addr : Nat} (hE : gr.ecc = true) (hU : Upd gr s₀ s) : Upd gr s₀ (localRead s r d addr) := by
  unfold localRead
  try dsimp only
  repeat' first
    | intro _
    | with_reducible assumption
    | with_reducible apply ite_upd
    | with_reducible apply regRead_upd
    | with_reducible apply memRead_upd
    | split
    | with_reducible apply Upd.lit

theorem dbgDo_upd {d : Nat} {write : Bool} {addr : Nat} {data : Nat} (hM : gr.mem = true) (hE : gr.ecc = true) (hR : gr.ret = true) (hS : gr.sess = true) (hU : Upd gr s₀ s) : Upd gr s₀ (dbgDo s d write addr data) := by
  unfold dbgDo
  try dsimp only
  repeat' first
    | intro _
    | with_reducible assumption
    | with_reducible apply ite_upd
    | with_reducible apply count_upd
    | with_reducible apply localWrite_upd
    | with_reducible apply localRead_upd
    | with_reducible apply setDie_upd
    | exact ⟨rfl, fun h => h, fun h => h⟩
    | exact ⟨rfl, by simp, by simp⟩
    | split
    | with_reducible apply Upd.lit

theorem execDbgAccess_ans {d : Nat} {write : Bool} {addr : Nat} {data : Nat} (hM : gr.mem = true) (hE : gr.ecc = true) (hR : gr.ret = true) (hS : gr.sess = true) (hU : Upd gr s₀ s) : Ans gr s₀ (execDbgAccess d write addr data s) := by
  unfold execDbgAccess
  try dsimp only
  repeat' first
    | intro _
    | with_reducible assumption
    | with_reducible apply ok_ans
    | with_reducible apply ite_ans
    | with_reducible apply ite_upd
    | with_reducible exact ok_ans (by assumption)
    | with_reducible apply dbgDo_upd
    | with_reducible apply tapIr_upd
    | split
    | with_reducible apply Upd.lit

end Sys2Proof.Laws
end

