-- ==== Sys2Proof/Laws/HoistUpd.lean ====
section
/-!
SUPPORT. What each operation of `Machine/Hoist.lean` keeps, and the groups of state it may change (`Upd`).
-/

set_option Elab.async false
set_option linter.unusedTactic false
set_option linter.unreachableTactic false
namespace Sys2Proof.Laws

open Sys2Proof.Machine

variable {gr : Grp} {s₀ s : State}

theorem hcCommand_upd {r : Req} {d : Nat} {c : Nat} {i : Nat} (hU : Upd gr s₀ s) : Upd gr s₀ (hcCommand s r d c i) := by
  unfold hcCommand
  try dsimp only
  repeat' first
    | intro _
    | with_reducible assumption
    | with_reducible apply ite_upd
    | with_reducible apply guardedWrite_upd
    | with_reducible apply hcCtrl_upd
    | split

theorem execHcStart_ans {r : Req} {d : Nat} {c : Nat} (hU : Upd gr s₀ s) : Ans gr s₀ (execHcStart r d c s) := by
  unfold execHcStart
  try dsimp only
  repeat' first
    | intro _
    | with_reducible assumption
    | with_reducible apply ok_ans
    | with_reducible apply ite_ans
    | with_reducible apply ite_upd
    | with_reducible exact ok_ans (by assumption)
    | with_reducible apply hcCommand_upd
    | split

theorem execHcCancel_ans {r : Req} {d : Nat} {c : Nat} (hU : Upd gr s₀ s) : Ans gr s₀ (execHcCancel r d c s) := by
  unfold execHcCancel
  try dsimp only
  repeat' first
    | intro _
    | with_reducible assumption
    | with_reducible apply ok_ans
    | with_reducible apply ite_ans
    | with_reducible apply ite_upd
    | with_reducible exact ok_ans (by assumption)
    | with_reducible apply hcCommand_upd
    | split

theorem execHcResume_ans {r : Req} {d : Nat} {c : Nat} (hU : Upd gr s₀ s) : Ans gr s₀ (execHcResume r d c s) := by
  unfold execHcResume
  try dsimp only
  repeat' first
    | intro _
    | with_reducible assumption
    | with_reducible apply ok_ans
    | with_reducible apply ite_ans
    | with_reducible apply ite_upd
    | with_reducible exact ok_ans (by assumption)
    | with_reducible apply hcCommand_upd
    | split

theorem execHcAbort_ans {r : Req} {d : Nat} {c : Nat} (hU : Upd gr s₀ s) : Ans gr s₀ (execHcAbort r d c s) := by
  unfold execHcAbort
  try dsimp only
  repeat' first
    | intro _
    | with_reducible assumption
    | with_reducible apply ok_ans
    | with_reducible apply ite_ans
    | with_reducible apply ite_upd
    | with_reducible exact ok_ans (by assumption)
    | with_reducible apply hcCommand_upd
    | split

theorem execHcHold_ans {r : Req} {d : Nat} {c : Nat} {b : Bool} (hU : Upd gr s₀ s) : Ans gr s₀ (execHcHold r d c b s) := by
  unfold execHcHold
  try dsimp only
  repeat' first
    | intro _
    | with_reducible assumption
    | with_reducible apply ok_ans
    | with_reducible apply ite_ans
    | with_reducible apply ite_upd
    | with_reducible exact ok_ans (by assumption)
    | with_reducible apply guardedWrite_upd
    | with_reducible apply hcCtrl_upd
    | split

theorem execHoistTrigger_ans {d : Nat} {c : Nat} (hU : Upd gr s₀ s) : Ans gr s₀ (execHoistTrigger d c s) := by
  unfold execHoistTrigger
  try dsimp only
  repeat' first
    | intro _
    | with_reducible assumption
    | with_reducible apply ok_ans
    | with_reducible apply ite_ans
    | with_reducible apply ite_upd
    | with_reducible exact ok_ans (by assumption)
    | with_reducible apply hcTrigger_upd
    | split
    | with_reducible apply Upd.lit

theorem execRunStart_ans {d : Nat} {c : Nat} (hU : Upd gr s₀ s) : Ans gr s₀ (execRunStart d c s) := by
  unfold execRunStart
  try dsimp only
  repeat' first
    | intro _
    | with_reducible assumption
    | with_reducible apply ok_ans
    | with_reducible apply ite_ans
    | with_reducible apply ite_upd
    | with_reducible exact ok_ans (by assumption)
    | with_reducible apply countMod_upd
    | with_reducible apply wf_upd
    | with_reducible apply raise_upd
    | with_reducible apply setHoist_upd
    | split
    | with_reducible apply Upd.lit

theorem hcFetch_upd {x0 : Nat} {x2 : Nat} {x3 : Nat} {x4 : Nat} (hE : gr.ecc = true) (hU : Upd gr s₀ s) : Upd gr s₀ (hcFetch x0 s x2 x3 x4).2 := by
  induction x0 generalizing s x2 x3 x4 with
  | zero => exact hU
  | succ n ih =>
    unfold hcFetch
    try dsimp only
    repeat' first
      | intro _
      | with_reducible assumption
      | with_reducible apply ih
      | with_reducible apply ite_upd
      | with_reducible apply hcHalt_upd
      | with_reducible apply readWord_upd
      | with_reducible apply hcFail_upd
      | (with_reducible refine pair_upd (by assumption) ?_)
      | (with_reducible refine trip_upd (by assumption) ?_)
      | split

theorem hcInstr_upd {d : Nat} {c : Nat} {op : Nat} {bad : List Word → Bool} {eff : State → List Word → State} (hE : gr.ecc = true) (hU : Upd gr s₀ s) (hf_eff : ∀ tU x0, Upd gr s₀ tU → Upd gr s₀ (eff tU x0)) : Upd gr s₀ (hcInstr s d c op bad eff) := by
  unfold hcInstr
  try dsimp only
  repeat' first
    | intro _
    | with_reducible assumption
    | with_reducible apply ite_upd
    | with_reducible apply hf_eff
    | with_reducible apply hcFetch_upd
    | with_reducible apply hcHalt_upd
    | (with_reducible refine pair_upd (by assumption) ?_)
    | split
    | with_reducible apply Upd.lit

theorem hcNext_upd {d : Nat} {c : Nat} {n : Nat} (hU : Upd gr s₀ s) : Upd gr s₀ (hcNext s d c n) := by
  unfold hcNext
  try dsimp only
  repeat' first
    | intro _
    | with_reducible assumption
    | with_reducible apply ite_upd
    | with_reducible apply setHoist_upd
    | split
    | with_reducible apply Upd.lit

theorem moveBegin_upd {d : Nat} {c : Nat} {ws : List Word} (hU : Upd gr s₀ s) : Upd gr s₀ (moveBegin s d c ws) := by
  unfold moveBegin
  try dsimp only
  repeat' first
    | intro _
    | with_reducible assumption
    | with_reducible apply ite_upd
    | with_reducible apply setHoist_upd
    | split
    | with_reducible apply Upd.lit

theorem execHoistMove_ans {d : Nat} {c : Nat} (hE : gr.ecc = true) (hU : Upd gr s₀ s) : Ans gr s₀ (execHoistMove d c s) := by
  unfold execHoistMove
  try dsimp only
  repeat' first
    | intro _
    | with_reducible assumption
    | with_reducible apply ok_ans
    | with_reducible apply ite_ans
    | with_reducible apply ite_upd
    | with_reducible exact ok_ans (by assumption)
    | with_reducible apply hcInstr_upd
    | with_reducible apply moveBegin_upd
    | split

theorem loopDo_upd {d : Nat} {c : Nat} {ws : List Word} (hU : Upd gr s₀ s) : Upd gr s₀ (loopDo s d c ws) := by
  unfold loopDo
  try dsimp only
  repeat' first
    | intro _
    | with_reducible assumption
    | with_reducible apply ite_upd
    | with_reducible apply setHoist_upd
    | with_reducible apply nextFree_upd
    | with_reducible apply hcNext_upd
    | split
    | with_reducible apply Upd.lit

theorem execHoistLoop_ans {d : Nat} {c : Nat} (hE : gr.ecc = true) (hU : Upd gr s₀ s) : Ans gr s₀ (execHoistLoop d c s) := by
  unfold execHoistLoop
  try dsimp only
  repeat' first
    | intro _
    | with_reducible assumption
    | with_reducible apply ok_ans
    | with_reducible apply ite_ans
    | with_reducible apply ite_upd
    | with_reducible exact ok_ans (by assumption)
    | with_reducible apply hcInstr_upd
    | with_reducible apply loopDo_upd
    | split

theorem waitBegin_upd {d : Nat} {c : Nat} {ws : List Word} (hU : Upd gr s₀ s) : Upd gr s₀ (waitBegin s d c ws) := by
  unfold waitBegin
  try dsimp only
  repeat' first
    | intro _
    | with_reducible assumption
    | with_reducible apply ite_upd
    | with_reducible apply setHoist_upd
    | split
    | with_reducible apply Upd.lit

theorem execHoistWait_ans {d : Nat} {c : Nat} (hE : gr.ecc = true) (hU : Upd gr s₀ s) : Ans gr s₀ (execHoistWait d c s) := by
  unfold execHoistWait
  try dsimp only
  repeat' first
    | intro _
    | with_reducible assumption
    | with_reducible apply ok_ans
    | with_reducible apply ite_ans
    | with_reducible apply ite_upd
    | with_reducible exact ok_ans (by assumption)
    | with_reducible apply hcInstr_upd
    | with_reducible apply waitBegin_upd
    | split

theorem waitDone_upd {d : Nat} {c : Nat} (hU : Upd gr s₀ s) : Upd gr s₀ (waitDone s d c) := by
  unfold waitDone
  try dsimp only
  repeat' first
    | intro _
    | with_reducible assumption
    | with_reducible apply ite_upd
    | with_reducible apply hcNext_upd
    | with_reducible apply setHoist_upd
    | split
    | with_reducible apply Upd.lit

theorem execWaitSatisfied_ans {d : Nat} {c : Nat} (hU : Upd gr s₀ s) : Ans gr s₀ (execWaitSatisfied d c s) := by
  unfold execWaitSatisfied
  try dsimp only
  repeat' first
    | intro _
    | with_reducible assumption
    | with_reducible apply ok_ans
    | with_reducible apply ite_ans
    | with_reducible apply ite_upd
    | with_reducible exact ok_ans (by assumption)
    | with_reducible apply waitDone_upd
    | with_reducible apply waitClock_upd
    | with_reducible apply wf_upd
    | split
    | with_reducible apply Upd.lit

theorem execWaitTimeout_ans {d : Nat} {c : Nat} (hE : gr.ecc = true) (hU : Upd gr s₀ s) : Ans gr s₀ (execWaitTimeout d c s) := by
  unfold execWaitTimeout
  try dsimp only
  repeat' first
    | intro _
    | with_reducible assumption
    | with_reducible apply ok_ans
    | with_reducible apply ite_ans
    | with_reducible apply ite_upd
    | with_reducible exact ok_ans (by assumption)
    | with_reducible apply hcHalt_upd
    | with_reducible apply waitClock_upd
    | split
    | with_reducible apply Upd.lit

theorem signalDo_upd {d : Nat} {c : Nat} {kind : Nat} {ws : List Word} (hU : Upd gr s₀ s) : Upd gr s₀ (signalDo s d c kind ws) := by
  unfold signalDo
  try dsimp only
  repeat' first
    | intro _
    | with_reducible assumption
    | with_reducible apply ite_upd
    | with_reducible apply cqAppend_upd
    | with_reducible apply setHoist_upd
    | with_reducible apply hcFinish_upd
    | split
    | with_reducible apply Upd.lit

theorem execHoistSignal_ans {d : Nat} {c : Nat} (hE : gr.ecc = true) (hU : Upd gr s₀ s) : Ans gr s₀ (execHoistSignal d c s) := by
  unfold execHoistSignal
  try dsimp only
  repeat' first
    | intro _
    | with_reducible assumption
    | with_reducible apply ok_ans
    | with_reducible apply ite_ans
    | with_reducible apply ite_upd
    | with_reducible exact ok_ans (by assumption)
    | with_reducible apply hcInstr_upd
    | with_reducible apply signalDo_upd
    | split

theorem execHoistEnd_ans {d : Nat} {c : Nat} (hE : gr.ecc = true) (hU : Upd gr s₀ s) : Ans gr s₀ (execHoistEnd d c s) := by
  unfold execHoistEnd
  try dsimp only
  repeat' first
    | intro _
    | with_reducible assumption
    | with_reducible apply ok_ans
    | with_reducible apply ite_ans
    | with_reducible apply ite_upd
    | with_reducible exact ok_ans (by assumption)
    | with_reducible apply hcInstr_upd
    | with_reducible apply signalDo_upd
    | split

theorem setaDo_upd {d : Nat} {c : Nat} {ws : List Word} (hU : Upd gr s₀ s) : Upd gr s₀ (setaDo s d c ws) := by
  unfold setaDo
  try dsimp only
  repeat' first
    | intro _
    | with_reducible assumption
    | with_reducible apply ite_upd
    | with_reducible apply hcNext_upd
    | with_reducible apply setHcA_upd
    | split

theorem execHoistSeta_ans {d : Nat} {c : Nat} (hE : gr.ecc = true) (hU : Upd gr s₀ s) : Ans gr s₀ (execHoistSeta d c s) := by
  unfold execHoistSeta
  try dsimp only
  repeat' first
    | intro _
    | with_reducible assumption
    | with_reducible apply ok_ans
    | with_reducible apply ite_ans
    | with_reducible apply ite_upd
    | with_reducible exact ok_ans (by assumption)
    | with_reducible apply hcInstr_upd
    | with_reducible apply setaDo_upd
    | split

theorem addaDo_upd {d : Nat} {c : Nat} {ws : List Word} (hU : Upd gr s₀ s) : Upd gr s₀ (addaDo s d c ws) := by
  unfold addaDo
  try dsimp only
  repeat' first
    | intro _
    | with_reducible assumption
    | with_reducible apply ite_upd
    | with_reducible apply hcNext_upd
    | with_reducible apply setHcA_upd
    | split

theorem execHoistAdda_ans {d : Nat} {c : Nat} (hE : gr.ecc = true) (hU : Upd gr s₀ s) : Ans gr s₀ (execHoistAdda d c s) := by
  unfold execHoistAdda
  try dsimp only
  repeat' first
    | intro _
    | with_reducible assumption
    | with_reducible apply ok_ans
    | with_reducible apply ite_ans
    | with_reducible apply ite_upd
    | with_reducible exact ok_ans (by assumption)
    | with_reducible apply hcInstr_upd
    | with_reducible apply addaDo_upd
    | split

theorem execHoistNop_ans {d : Nat} {c : Nat} (hE : gr.ecc = true) (hU : Upd gr s₀ s) : Ans gr s₀ (execHoistNop d c s) := by
  unfold execHoistNop
  try dsimp only
  repeat' first
    | intro _
    | with_reducible assumption
    | with_reducible apply ok_ans
    | with_reducible apply ite_ans
    | with_reducible apply ite_upd
    | with_reducible exact ok_ans (by assumption)
    | with_reducible apply hcInstr_upd
    | with_reducible apply hcNext_upd
    | split

theorem hostReadIssue_upd {d : Nat} {c : Nat} {id : Nat} {addr : Nat} {n : Nat} {kind : Nat} (hU : Upd gr s₀ s) : Upd gr s₀ (hostReadIssue s d c id addr n kind) := by
  unfold hostReadIssue
  try dsimp only
  repeat' first
    | intro _
    | with_reducible assumption
    | with_reducible apply ite_upd
    | with_reducible apply each_upd
    | with_reducible apply emit_upd
    | (with_reducible refine (?_ : Upd gr s₀ (id _)); assumption)
    | split
    | with_reducible apply Upd.lit

theorem burstBegin_upd {d : Nat} {c : Nat} {m : MoveSt} (hU : Upd gr s₀ s) : Upd gr s₀ (burstBegin s d c m) := by
  unfold burstBegin
  try dsimp only
  repeat' first
    | intro _
    | with_reducible assumption
    | with_reducible apply ite_upd
    | with_reducible apply setHoist_upd
    | with_reducible apply chuteFollow_upd
    | with_reducible apply setChute_upd
    | with_reducible apply hostReadIssue_upd
    | (with_reducible refine (?_ : Upd gr s₀ (id _)); assumption)
    | split
    | with_reducible apply Upd.lit

theorem execBurstStart_ans {d : Nat} {c : Nat} (hU : Upd gr s₀ s) : Ans gr s₀ (execBurstStart d c s) := by
  unfold execBurstStart
  try dsimp only
  repeat' first
    | intro _
    | with_reducible assumption
    | with_reducible apply ok_ans
    | with_reducible apply ite_ans
    | with_reducible apply ite_upd
    | with_reducible exact ok_ans (by assumption)
    | with_reducible apply waitClock_upd
    | with_reducible apply burstBegin_upd
    | split
    | with_reducible apply Upd.lit

theorem hcTrace_upd {d : Nat} {addr : Nat} {write : Bool} {code : Nat} (hU : Upd gr s₀ s) : Upd gr s₀ (hcTrace s d addr write code) := by
  unfold hcTrace
  try dsimp only
  repeat' first
    | intro _
    | with_reducible assumption
    | with_reducible apply ite_upd
    | with_reducible apply denyCount_upd
    | with_reducible apply logErr_upd
    | split
    | with_reducible apply Upd.lit

theorem hcCollide_upd {d : Nat} {addr : Nat} {n : Nat} {hits : List Nat} (hU : Upd gr s₀ s) : Upd gr s₀ (hcCollide s d addr n hits) := by
  unfold hcCollide
  try dsimp only
  repeat' first
    | intro _
    | with_reducible assumption
    | with_reducible apply ite_upd
    | with_reducible apply each_upd
    | with_reducible apply collision_upd
    | split

theorem hcPut_upd {d : Nat} {addr : Nat} {kind : Nat} {v : Word} {hits : List Nat} (hM : gr.mem = true) (hE : gr.ecc = true) (hR : gr.ret = true) (hS : gr.sess = true) (hU : Upd gr s₀ s) : Upd gr s₀ (hcPut s d addr kind v hits).2 := by
  unfold hcPut
  try dsimp only
  repeat' first
    | intro _
    | with_reducible assumption
    | with_reducible apply ite_upd
    | with_reducible apply hcTrace_upd
    | with_reducible apply hcCollide_upd
    | with_reducible apply memWrite_upd
    | with_reducible apply localWrite_upd
    | split
    | with_reducible apply Upd.lit

theorem hcPuts_upd {x0 : List Word} {x2 : Nat} {x3 : Nat} {x4 : Nat} {x5 : List Nat} (hM : gr.mem = true) (hE : gr.ecc = true) (hR : gr.ret = true) (hS : gr.sess = true) (hU : Upd gr s₀ s) : Upd gr s₀ (hcPuts x0 s x2 x3 x4 x5).2 := by
  induction x0 generalizing s x2 x3 x4 x5 with
  | nil => exact hU
  | cons e r ih =>
    unfold hcPuts
    try dsimp only
    repeat' first
      | intro _
      | with_reducible assumption
      | with_reducible apply ih
      | with_reducible apply ite_upd
      | with_reducible apply hcPut_upd
      | (with_reducible refine pair_upd (by assumption) ?_)
      | split
      | with_reducible apply Upd.lit

theorem hcBytes_upd {x0 : List (Nat × Nat × Nat)} {x2 : Nat} {x3 : Nat} {x4 : Nat} {x5 : Bool} (hE : gr.ecc = true) (hU : Upd gr s₀ s) : Upd gr s₀ (hcBytes x0 s x2 x3 x4 x5).2.2 := by
  induction x0 generalizing s x2 x3 x4 x5 with
  | nil => exact hU
  | cons e r ih =>
    unfold hcBytes
    try dsimp only
    repeat' first
      | intro _
      | with_reducible assumption
      | with_reducible apply ih
      | with_reducible apply ite_upd
      | with_reducible apply windowRead_upd
      | (with_reducible refine trip_upd (by assumption) ?_)
      | split

theorem hcGet_upd {d : Nat} {c : Nat} {addr : Nat} {kind : Nat} (hE : gr.ecc = true) (hU : Upd gr s₀ s) : Upd gr s₀ (hcGet s d c addr kind).2.2 := by
  unfold hcGet
  try dsimp only
  repeat' first
    | intro _
    | with_reducible assumption
    | with_reducible apply ite_upd
    | with_reducible apply hcTrace_upd
    | with_reducible apply localRead_upd
    | with_reducible apply hcBytes_upd
    | (with_reducible refine trip_upd (by assumption) ?_)
    | split
    | with_reducible apply Upd.lit

theorem hcGets_upd {x0 : Nat} {x2 : Nat} {x3 : Nat} {x4 : Nat} {x5 : Nat} (hE : gr.ecc = true) (hU : Upd gr s₀ s) : Upd gr s₀ (hcGets x0 s x2 x3 x4 x5).2.2 := by
  induction x0 generalizing s x2 x3 x4 x5 with
  | zero => exact hU
  | succ n ih =>
    unfold hcGets
    try dsimp only
    repeat' first
      | intro _
      | with_reducible assumption
      | with_reducible apply ih
      | with_reducible apply ite_upd
      | with_reducible apply hcGet_upd
      | (with_reducible refine trip_upd (by assumption) ?_)
      | split
      | with_reducible apply Upd.lit

theorem poisonTake_upd {d : Nat} {q : Nat} {j : Nat} (hU : Upd gr s₀ s) : Upd gr s₀ (poisonTake s d q j) := by
  unfold poisonTake
  try dsimp only
  repeat' first
    | intro _
    | with_reducible assumption
    | with_reducible apply ite_upd
    | with_reducible apply spotGone_upd
    | with_reducible apply setChute_upd
    | with_reducible apply each_upd
    | with_reducible apply chuteFollow_upd
    | with_reducible apply creditBack_upd
    | with_reducible apply spillRead_upd
    | split
    | with_reducible apply Upd.lit

theorem readTrace_upd {s0 : State} {d : Nat} {j : Nat} {e : HcErr} (hU : Upd gr s₀ s) (hU_s0 : Upd gr s₀ s0) : Upd gr s₀ (readTrace s0 s d j e) := by
  unfold readTrace
  try dsimp only
  repeat' first
    | intro _
    | with_reducible assumption
    | with_reducible apply ite_upd
    | with_reducible apply poisonTake_upd
    | with_reducible apply hcTrace_upd
    | split
    | with_reducible apply Upd.lit

theorem takeWords_upd {x0 : Nat} {x2 : Nat} {x3 : Nat} (hU : Upd gr s₀ s) : Upd gr s₀ (takeWords x0 s x2 x3).2 := by
  induction x0 generalizing s x2 x3 with
  | zero => exact hU
  | succ n ih =>
    unfold takeWords
    try dsimp only
    repeat' first
      | intro _
      | with_reducible assumption
      | with_reducible apply ih
      | with_reducible apply ite_upd
      | with_reducible apply chuteTake_upd
      | (with_reducible refine pair_upd (by assumption) ?_)
      | split
      | with_reducible apply Upd.lit

theorem chuteSource_upd {d : Nat} {q : Nat} {b : Burst} (hU : Upd gr s₀ s) : Upd gr s₀ (chuteSource s d q b).2.2.2 := by
  unfold chuteSource
  try dsimp only
  repeat' first
    | intro _
    | with_reducible assumption
    | with_reducible apply ite_upd
    | with_reducible apply poisonTake_upd
    | with_reducible apply takeWords_upd
    | (with_reducible refine pair_upd (by assumption) ?_)
    | split
    | with_reducible apply Upd.lit

theorem burstPush_upd {d : Nat} {q : Nat} {b : Burst} {ws : List Word} (hU : Upd gr s₀ s) : Upd gr s₀ (burstPush s d q b ws) := by
  unfold burstPush
  try dsimp only
  repeat' first
    | intro _
    | with_reducible assumption
    | with_reducible apply ite_upd
    | with_reducible apply setChute_upd
    | with_reducible apply chuteFollow_upd
    | with_reducible apply each_upd
    | with_reducible apply pushOver_upd
    | with_reducible apply chuteAppend_upd
    | split
    | with_reducible apply Upd.lit

theorem hostPuts_upd {dst : Nat} {kind : Nat} {ws : List Word} (hU : Upd gr s₀ s) : Upd gr s₀ (hostPuts s dst kind ws) := by
  unfold hostPuts
  try dsimp only
  repeat' first
    | intro _
    | with_reducible assumption
    | with_reducible apply ite_upd
    | with_reducible apply each_upd
    | with_reducible apply emit_upd
    | split

theorem burstPut_upd {d : Nat} {m : MoveSt} {host : Bool} {b : Burst} {ws : List Word} {hits : List Nat} (hM : gr.mem = true) (hE : gr.ecc = true) (hR : gr.ret = true) (hS : gr.sess = true) (hU : Upd gr s₀ s) : Upd gr s₀ (burstPut s d m host b ws hits).2 := by
  unfold burstPut
  try dsimp only
  repeat' first
    | intro _
    | with_reducible assumption
    | with_reducible apply ite_upd
    | with_reducible apply burstPush_upd
    | with_reducible apply hostPuts_upd
    | with_reducible apply hcPuts_upd
    | (with_reducible refine pair_upd (by assumption) ?_)
    | split
    | with_reducible apply Upd.lit

theorem burstDone_upd {d : Nat} {c : Nat} {b : Burst} {m : MoveSt} (hU : Upd gr s₀ s) : Upd gr s₀ (burstDone s d c b m) := by
  unfold burstDone
  try dsimp only
  repeat' first
    | intro _
    | with_reducible assumption
    | with_reducible apply ite_upd
    | with_reducible apply setHcA_upd
    | with_reducible apply wr_upd
    | with_reducible apply setHoist_upd
    | with_reducible apply hcAborted_upd
    | split
    | with_reducible apply Upd.lit

theorem burstTrace_upd {d : Nat} {e : HcErr} {kind : Nat} {hits : List Nat} (hU : Upd gr s₀ s) : Upd gr s₀ (burstTrace s d e kind hits) := by
  unfold burstTrace
  try dsimp only
  repeat' first
    | intro _
    | with_reducible assumption
    | with_reducible apply ite_upd
    | with_reducible apply hcCollide_upd
    | with_reducible apply hcTrace_upd
    | split

theorem burstWrite_upd {s0 : State} {d : Nat} {c : Nat} {b : Burst} {m : MoveSt} {ws : List Word} {hits : List Nat} (hM : gr.mem = true) (hE : gr.ecc = true) (hR : gr.ret = true) (hS : gr.sess = true) (hU : Upd gr s₀ s) (hU_s0 : Upd gr s₀ s0) : Upd gr s₀ (burstWrite s0 s d c b m ws hits) := by
  unfold burstWrite
  try dsimp only
  repeat' first
    | intro _
    | with_reducible assumption
    | with_reducible apply ite_upd
    | with_reducible apply burstPut_upd
    | with_reducible apply hcFail_upd
    | with_reducible apply burstTrace_upd
    | with_reducible apply burstDone_upd
    | (with_reducible refine pair_upd (by assumption) ?_)
    | split
    | with_reducible apply Upd.lit

theorem burstGo_upd {d : Nat} {c : Nat} {b : Burst} {m : MoveSt} {a : Cpl} {hits : List Nat} (hM : gr.mem = true) (hE : gr.ecc = true) (hR : gr.ret = true) (hS : gr.sess = true) (hU : Upd gr s₀ s) : Upd gr s₀ (burstGo s d c b m a hits) := by
  unfold burstGo
  try dsimp only
  repeat' first
    | intro _
    | with_reducible assumption
    | with_reducible apply ite_upd
    | with_reducible apply hcFail_upd
    | with_reducible apply burstTrace_upd
    | with_reducible apply burstWrite_upd
    | with_reducible apply chuteSource_upd
    | with_reducible apply hcGets_upd
    | with_reducible apply readTrace_upd
    | (with_reducible refine quad_upd (by assumption) ?_)
    | (with_reducible refine trip_upd (by assumption) ?_)
    | (with_reducible refine (?_ : Upd gr s₀ (id _)); assumption)
    | split
    | with_reducible apply Upd.lit

theorem execBurstWritten_ans {d : Nat} {c : Nat} {e : BurstEnd} (hM : gr.mem = true) (hE : gr.ecc = true) (hR : gr.ret = true) (hS : gr.sess = true) (hU : Upd gr s₀ s) : Ans gr s₀ (execBurstWritten d c e s) := by
  unfold execBurstWritten
  try dsimp only
  repeat' first
    | intro _
    | with_reducible assumption
    | with_reducible apply ok_ans
    | with_reducible apply ite_ans
    | with_reducible apply ite_upd
    | with_reducible exact ok_ans (by assumption)
    | with_reducible apply burstGo_upd
    | with_reducible apply setHoist_upd
    | split
    | with_reducible apply Upd.lit

theorem execHoistWatchdog_ans {d : Nat} {c : Nat} (hE : gr.ecc = true) (hU : Upd gr s₀ s) : Ans gr s₀ (execHoistWatchdog d c s) := by
  unfold execHoistWatchdog
  try dsimp only
  repeat' first
    | intro _
    | with_reducible assumption
    | with_reducible apply ok_ans
    | with_reducible apply ite_ans
    | with_reducible apply ite_upd
    | with_reducible exact ok_ans (by assumption)
    | with_reducible apply hcHalt_upd
    | with_reducible apply waitClock_upd
    | split

theorem timerTokens_upd {d : Nat} {k : Nat} (hU : Upd gr s₀ s) : Upd gr s₀ (timerTokens s d k) := by
  unfold timerTokens
  try dsimp only
  repeat' first
    | intro _
    | with_reducible assumption
    | with_reducible apply ite_upd
    | with_reducible apply each_upd
    | with_reducible apply setHoist_upd
    | split
    | with_reducible apply Upd.lit

theorem execGlobalTimerFire_ans {d : Nat} {k : Nat} (hU : Upd gr s₀ s) : Ans gr s₀ (execGlobalTimerFire d k s) := by
  unfold execGlobalTimerFire
  try dsimp only
  repeat' first
    | intro _
    | with_reducible assumption
    | with_reducible apply ok_ans
    | with_reducible apply ite_ans
    | with_reducible apply ite_upd
    | with_reducible exact ok_ans (by assumption)
    | with_reducible apply waitClock_upd
    | with_reducible apply hoistSource_upd
    | with_reducible apply timerTokens_upd
    | split
    | with_reducible apply Upd.lit

theorem execCqRecordWrite_ans {d : Nat} {q : Nat} (hU : Upd gr s₀ s) : Ans gr s₀ (execCqRecordWrite d q s) := by
  unfold execCqRecordWrite
  try dsimp only
  repeat' first
    | intro _
    | with_reducible assumption
    | with_reducible apply ok_ans
    | with_reducible apply ite_ans
    | with_reducible apply ite_upd
    | with_reducible exact ok_ans (by assumption)
    | with_reducible apply cqWrite_upd
    | split

theorem execCqSizeWrite_ans {r : Req} {d : Nat} {q : Nat} {v : Word} (hU : Upd gr s₀ s) : Ans gr s₀ (execCqSizeWrite r d q v s) := by
  unfold execCqSizeWrite
  try dsimp only
  repeat' first
    | intro _
    | with_reducible assumption
    | with_reducible apply ok_ans
    | with_reducible apply ite_ans
    | with_reducible apply ite_upd
    | with_reducible exact ok_ans (by assumption)
    | with_reducible apply guardedWrite_upd
    | with_reducible apply cqSizeSet_upd
    | split

theorem execCqConsWrite_ans {r : Req} {d : Nat} {q : Nat} {v : Word} (hU : Upd gr s₀ s) : Ans gr s₀ (execCqConsWrite r d q v s) := by
  unfold execCqConsWrite
  try dsimp only
  repeat' first
    | intro _
    | with_reducible assumption
    | with_reducible apply ok_ans
    | with_reducible apply ite_ans
    | with_reducible apply ite_upd
    | with_reducible exact ok_ans (by assumption)
    | with_reducible apply guardedWrite_upd
    | with_reducible apply cqConsSet_upd
    | split

end Sys2Proof.Laws
end

