-- ==== Sys2Proof/Laws/PowerUpd.lean ====
section
/-!
SUPPORT. What each operation of `Machine/Power.lean` keeps, and the groups of state it may change (`Upd`).
-/

set_option Elab.async false
set_option linter.unusedTactic false
set_option linter.unreachableTactic false
namespace Sys2Proof.Laws

open Sys2Proof.Machine

variable {gr : Grp} {s₀ s : State}

/-- The entry of a table listed for each number of a range. -/
theorem get_rangeMap {α : Type} (f : Nat → α) (n d : Nat) (x : α) (h : d < n) :
    Tbl.get ((List.range n).map fun i => (i, f i)) d x = f d := by
  have key : ∀ l : List Nat, d ∈ l → Tbl.get (l.map fun i => (i, f i)) d x = f d := by
    intro l
    induction l with
    | nil => intro h; simp at h
    | cons e r ih =>
      intro h
      by_cases he : e = d
      · subst he; simp [Tbl.get]
      · simp only [List.map_cons, Tbl.get, he, if_false]
        exact ih (by simpa [Ne.symm he] using h)
  exact key _ (List.mem_range.2 h)

/-- A die at the start of step 0 (R397, R400). -/
theorem startOver_die {d : Nat} (h : d < s.part.dies) : die (startOver s) d = dieAfresh s d :=
  get_rangeMap _ _ _ _ h

theorem startOver_upd (hM : gr.mem = true) (hE : gr.ecc = true) (hU : Upd gr s₀ s) : Upd gr s₀ (startOver s) :=
  hU.trans {
    pending := rfl
    part := rfl
    clock := Nat.le_refl _
    out := List.prefix_refl _
    memWf := fun _ => ⟨List.Pairwise.nil, fun _ h => by cases h⟩
    retWf := id
    mem := fun h => by simp [hM] at h
    ecc := fun h => by simp [hE] at h
    ret := fun _ => rfl
    fuse := fun _ d hd => by rw [startOver_die hd]; rfl
    sess := fun _ d hd => by rw [startOver_die hd]; exact ⟨fun h => by simp [dieAfresh] at h, fun h => by simp [dieAfresh] at h⟩ }

theorem dormantDie_upd {d : Nat} (hE : gr.ecc = true) (hR : gr.ret = true) (hU : Upd gr s₀ s) : Upd gr s₀ (dormantDie s d) := by
  unfold dormantDie
  try dsimp only
  repeat' first
    | intro _
    | with_reducible assumption
    | with_reducible apply ite_upd
    | with_reducible apply asSaved_upd
    | with_reducible apply dbgClose_upd
    | with_reducible apply sessClose_upd
    | with_reducible apply stbyEnter_upd
    | split

theorem dormantEnter_upd (hE : gr.ecc = true) (hR : gr.ret = true) (hU : Upd gr s₀ s) : Upd gr s₀ (dormantEnter s) := by
  unfold dormantEnter
  try dsimp only
  repeat' first
    | intro _
    | with_reducible assumption
    | with_reducible apply ite_upd
    | with_reducible apply each_upd
    | with_reducible apply modeSwitch_upd
    | with_reducible apply dormantDie_upd
    | with_reducible apply nextFree_upd
    | with_reducible apply hostLinkDown_upd
    | split
    | with_reducible apply Upd.lit

theorem execDormantEntry_ans (hE : gr.ecc = true) (hR : gr.ret = true) (hU : Upd gr s₀ s) : Ans gr s₀ (execDormantEntry s) := by
  unfold execDormantEntry
  try dsimp only
  repeat' first
    | intro _
    | with_reducible assumption
    | with_reducible apply ok_ans
    | with_reducible apply ite_ans
    | with_reducible apply ite_upd
    | with_reducible exact ok_ans (by assumption)
    | with_reducible apply dormantEnter_upd
    | with_reducible apply waitTick_upd
    | split

theorem execVinOff_ans (hM : gr.mem = true) (hE : gr.ecc = true) (hU : Upd gr s₀ s) : Ans gr s₀ (execVinOff s) := by
  unfold execVinOff
  try dsimp only
  repeat' first
    | intro _
    | with_reducible assumption
    | with_reducible apply ok_ans
    | with_reducible apply ite_ans
    | with_reducible apply ite_upd
    | with_reducible exact ok_ans (by assumption)
    | with_reducible apply startOver_upd
    | split
    | with_reducible apply Upd.lit

theorem wakeBy_upd {i : Nat} (hU : Upd gr s₀ s) : Upd gr s₀ (wakeBy s i) := by
  unfold wakeBy
  try dsimp only
  repeat' first
    | intro _
    | with_reducible assumption
    | with_reducible apply ite_upd
    | split
    | with_reducible apply Upd.lit

theorem execWakePin_ans {n : Nat} {rising : Bool} (hU : Upd gr s₀ s) : Ans gr s₀ (execWakePin n rising s) := by
  unfold execWakePin
  try dsimp only
  repeat' first
    | intro _
    | with_reducible assumption
    | with_reducible apply ok_ans
    | with_reducible apply ite_ans
    | with_reducible apply ite_upd
    | with_reducible exact ok_ans (by assumption)
    | with_reducible apply wakeBy_upd
    | split

theorem execWakeAlarm_ans (hU : Upd gr s₀ s) : Ans gr s₀ (execWakeAlarm s) := by
  unfold execWakeAlarm
  try dsimp only
  repeat' first
    | intro _
    | with_reducible assumption
    | with_reducible apply ok_ans
    | with_reducible apply ite_ans
    | with_reducible apply ite_upd
    | with_reducible exact ok_ans (by assumption)
    | with_reducible apply wakeBy_upd
    | split

theorem execDormantSecondsEdge_ans (hU : Upd gr s₀ s) : Ans gr s₀ (execDormantSecondsEdge s) := by
  unfold execDormantSecondsEdge
  try dsimp only
  repeat' first
    | intro _
    | with_reducible assumption
    | with_reducible apply ok_ans
    | with_reducible apply ite_ans
    | with_reducible apply ite_upd
    | with_reducible exact ok_ans (by assumption)
    | with_reducible apply waitClock_upd
    | with_reducible apply nextFree_upd
    | split
    | with_reducible apply Upd.lit

theorem execVinBrownout_ans (hM : gr.mem = true) (hE : gr.ecc = true) (hU : Upd gr s₀ s) : Ans gr s₀ (execVinBrownout s) := by
  unfold execVinBrownout
  try dsimp only
  repeat' first
    | intro _
    | with_reducible assumption
    | with_reducible apply ok_ans
    | with_reducible apply ite_ans
    | with_reducible apply ite_upd
    | with_reducible exact ok_ans (by assumption)
    | with_reducible apply startOver_upd
    | split
    | with_reducible apply Upd.lit

theorem execVaonReset_ans (hU : Upd gr s₀ s) : Ans gr s₀ (execVaonReset s) := by
  unfold execVaonReset
  try dsimp only
  repeat' first
    | intro _
    | with_reducible assumption
    | with_reducible apply ok_ans
    | with_reducible apply ite_ans
    | with_reducible apply ite_upd
    | with_reducible exact ok_ans (by assumption)
    | split
    | with_reducible apply Upd.lit

theorem execVaonApplied_ans (hU : Upd gr s₀ s) : Ans gr s₀ (execVaonApplied s) := by
  unfold execVaonApplied
  try dsimp only
  repeat' first
    | intro _
    | with_reducible assumption
    | with_reducible apply ok_ans
    | with_reducible apply ite_ans
    | with_reducible apply ite_upd
    | with_reducible exact ok_ans (by assumption)
    | with_reducible apply wr_upd
    | split
    | with_reducible apply Upd.lit

end Sys2Proof.Laws
end

