-- ==== Sys2Proof/Laws/BootUpd.lean ====
section
/-!
SUPPORT. What each operation of `Machine/Boot.lean` keeps, and the groups of state it may change (`Upd`).
-/

set_option Elab.async false
set_option linter.unusedTactic false
set_option linter.unreachableTactic false
namespace Sys2Proof.Laws

open Sys2Proof.Machine

variable {gr : Grp} {s₀ s : State}

theorem setBoot_upd {d : Nat} {b : BootSt} (hU : Upd gr s₀ s) : Upd gr s₀ (setBoot s d b) := by
  unfold setBoot
  try dsimp only
  repeat' first
    | intro _
    | with_reducible assumption
    | with_reducible apply ite_upd
    | with_reducible apply setDie_upd
    | exact ⟨rfl, fun h => h, fun h => h⟩
    | exact ⟨rfl, by simp, by simp⟩
    | split
    | with_reducible apply Upd.lit

theorem stepEnd_upd {d : Nat} {last : Nat} {alt : Nat} {detail : Nat} (hE : gr.ecc = true) (hR : gr.ret = true) (hU : Upd gr s₀ s) : Upd gr s₀ (stepEnd s d last alt detail) := by
  unfold stepEnd
  try dsimp only
  repeat' first
    | intro _
    | with_reducible assumption
    | with_reducible apply ite_upd
    | with_reducible apply nextFree_upd
    | with_reducible apply tlRecord_upd
    | with_reducible apply setBoot_upd
    | split
    | with_reducible apply Upd.lit

theorem stepDone_upd {d : Nat} {alt : Nat} (hE : gr.ecc = true) (hR : gr.ret = true) (hU : Upd gr s₀ s) : Upd gr s₀ (stepDone s d alt) := by
  unfold stepDone
  try dsimp only
  repeat' first
    | intro _
    | with_reducible assumption
    | with_reducible apply ite_upd
    | with_reducible apply stepEnd_upd
    | split

theorem stepNone_upd {d : Nat} (hE : gr.ecc = true) (hR : gr.ret = true) (hU : Upd gr s₀ s) : Upd gr s₀ (stepNone s d) := by
  unfold stepNone
  try dsimp only
  repeat' first
    | intro _
    | with_reducible assumption
    | with_reducible apply ite_upd
    | with_reducible apply stepEnd_upd
    | split

theorem powerReturn_upd (hM : gr.mem = true) (hE : gr.ecc = true) (hU : Upd gr s₀ s) : Upd gr s₀ (powerReturn s) := by
  unfold powerReturn
  try dsimp only
  repeat' first
    | intro _
    | with_reducible assumption
    | with_reducible apply ite_upd
    | with_reducible apply startOver_upd
    | with_reducible apply wr_upd
    | split
    | with_reducible apply Upd.lit

theorem secPhase_upd (hU : Upd gr s₀ s) : Upd gr s₀ (secPhase s) := by
  unfold secPhase
  try dsimp only
  repeat' first
    | intro _
    | with_reducible assumption
    | with_reducible apply ite_upd
    | with_reducible apply nextFree_upd
    | split
    | with_reducible apply Upd.lit

theorem execPowerGood_ans {d : Nat} (hM : gr.mem = true) (hE : gr.ecc = true) (hU : Upd gr s₀ s) : Ans gr s₀ (execPowerGood d s) := by
  unfold execPowerGood
  try dsimp only
  repeat' first
    | intro _
    | with_reducible assumption
    | with_reducible apply ok_ans
    | with_reducible apply ite_ans
    | with_reducible apply ite_upd
    | with_reducible apply powerReturn_upd
    | with_reducible exact ok_ans (by assumption)
    | with_reducible apply nextFree_upd
    | with_reducible apply setBoot_upd
    | split
    | with_reducible apply Upd.lit

theorem leaveOut_upd {d : Nat} (hE : gr.ecc = true) (hU : Upd gr s₀ s) : Upd gr s₀ (leaveOut s d) := by
  unfold leaveOut
  try dsimp only
  repeat' first
    | intro _
    | with_reducible assumption
    | with_reducible apply ite_upd
    | with_reducible apply dieLost_upd
    | with_reducible apply setBoot_upd
    | split
    | with_reducible apply Upd.lit

theorem assayBegin_upd {d : Nat} (hU : Upd gr s₀ s) : Upd gr s₀ (assayBegin s d) := by
  unfold assayBegin
  try dsimp only
  repeat' first
    | intro _
    | with_reducible assumption
    | with_reducible apply ite_upd
    | with_reducible apply setBoot_upd
    | with_reducible apply loadPoints_upd
    | with_reducible apply each_upd
    | with_reducible apply asQueue_upd
    | split
    | with_reducible apply Upd.lit

theorem enumFollow_upd (hU : Upd gr s₀ s) : Upd gr s₀ (enumFollow s) := by
  unfold enumFollow
  try dsimp only
  repeat' first
    | intro _
    | with_reducible assumption
    | with_reducible apply ite_upd
    | with_reducible apply each_upd
    | with_reducible apply allowedFollow_upd
    | with_reducible apply wb_upd
    | with_reducible apply assayBegin_upd
    | split

theorem startFollow_upd (hE : gr.ecc = true) (hU : Upd gr s₀ s) : Upd gr s₀ (startFollow s) := by
  unfold startFollow
  try dsimp only
  repeat' first
    | intro _
    | with_reducible assumption
    | with_reducible apply ite_upd
    | with_reducible apply enumFollow_upd
    | with_reducible apply each_upd
    | with_reducible apply leaveOut_upd
    | split

theorem boardOpen_upd {d : Nat} (hE : gr.ecc = true) (hR : gr.ret = true) (hU : Upd gr s₀ s) : Upd gr s₀ (boardOpen s d) := by
  unfold boardOpen
  try dsimp only
  repeat' first
    | intro _
    | with_reducible assumption
    | with_reducible apply ite_upd
    | with_reducible apply tlCheck_upd
    | with_reducible apply setBoot_upd
    | with_reducible apply retWrite_upd
    | with_reducible apply tlRecord_upd
    | split
    | with_reducible apply Upd.lit

theorem fusesTake_upd {d : Nat} {f : Fuses} (hF : gr.fuse = true) (hU : Upd gr s₀ s) :
    Upd gr s₀ (fusesTake s d f) := by
  unfold fusesTake
  refine each_upd (allowedFollow_upd (ite_upd (wf_upd (setDie_upd (setFuse_upd hF hU id id) ⟨rfl, ?_, fun h => h⟩))
    (setFuse_upd hF hU id id))) fun _ _ h => injFollow_upd h
  intro h; simp at h

theorem execFuseRead_ans {d : Nat} {f : Fuses} (hE : gr.ecc = true) (hR : gr.ret = true) (hF : gr.fuse = true) (hU : Upd gr s₀ s) : Ans gr s₀ (execFuseRead d f s) := by
  unfold execFuseRead
  try dsimp only
  repeat' first
    | intro _
    | with_reducible assumption
    | with_reducible apply ok_ans
    | with_reducible apply ite_ans
    | with_reducible apply ite_upd
    | with_reducible exact ok_ans (by assumption)
    | with_reducible apply boardOpen_upd
    | with_reducible apply setBoot_upd
    | with_reducible apply startFollow_upd
    | with_reducible apply leaveOut_upd
    | with_reducible apply stepEnd_upd
    | with_reducible apply fusesTake_upd
    | with_reducible apply stepNone_upd
    | split
    | with_reducible apply Upd.lit

theorem execCrystal_ans (hE : gr.ecc = true) (hR : gr.ret = true) (hU : Upd gr s₀ s) : Ans gr s₀ (execCrystal s) := by
  unfold execCrystal
  try dsimp only
  repeat' first
    | intro _
    | with_reducible assumption
    | with_reducible apply ok_ans
    | with_reducible apply ite_ans
    | with_reducible apply ite_upd
    | with_reducible exact ok_ans (by assumption)
    | with_reducible apply stepDone_upd
    | with_reducible apply toInternal_upd
    | split

theorem execPllLock_ans {d : Nat} (hE : gr.ecc = true) (hR : gr.ret = true) (hU : Upd gr s₀ s) : Ans gr s₀ (execPllLock d s) := by
  unfold execPllLock
  try dsimp only
  repeat' first
    | intro _
    | with_reducible assumption
    | with_reducible apply ok_ans
    | with_reducible apply ite_ans
    | with_reducible apply ite_upd
    | with_reducible exact ok_ans (by assumption)
    | with_reducible apply setDie_upd
    | with_reducible apply setDyn_upd
    | with_reducible apply wb_upd
    | with_reducible apply stepDone_upd
    | with_reducible apply secPhase_upd
    | with_reducible apply setSyncOk_upd
    | exact ⟨rfl, fun h => h, fun h => h⟩
    | exact ⟨rfl, by simp, by simp⟩
    | split
    | with_reducible apply Upd.lit

theorem memAfresh_upd {d : Nat} (hM : gr.mem = true) (hE : gr.ecc = true) (hU : Upd gr s₀ s) :
    Upd gr s₀ (memAfresh s d) :=
  hU.memory hM hE (filter_wf _ _)

theorem mapApply_upd {d : Nat} (hU : Upd gr s₀ s) : Upd gr s₀ (mapApply s d) := by
  unfold mapApply
  try dsimp only
  repeat' first
    | intro _
    | with_reducible assumption
    | with_reducible apply ite_upd
    | with_reducible apply each_upd
    | with_reducible apply wf_upd
    | split

theorem mapClear_upd {d : Nat} (hE : gr.ecc = true) (hR : gr.ret = true) (hU : Upd gr s₀ s) : Upd gr s₀ (mapClear s d) := by
  unfold mapClear
  try dsimp only
  repeat' first
    | intro _
    | with_reducible assumption
    | with_reducible apply ite_upd
    | with_reducible apply retWrites_upd
    | with_reducible apply setMemSt_upd
    | split
    | with_reducible apply Upd.lit

theorem portIs_upd {d : Nat} {i : Nat} {e : Nat} {st : Nat} (hU : Upd gr s₀ s) : Upd gr s₀ (portIs s d i e st) := by
  unfold portIs
  try dsimp only
  repeat' first
    | intro _
    | with_reducible assumption
    | with_reducible apply ite_upd
    | with_reducible apply wr_upd
    | split

theorem linksBegin_upd {d : Nat} (hE : gr.ecc = true) (hR : gr.ret = true) (hU : Upd gr s₀ s) : Upd gr s₀ (linksBegin s d) := by
  unfold linksBegin
  try dsimp only
  repeat' first
    | intro _
    | with_reducible assumption
    | with_reducible apply ite_upd
    | with_reducible apply stepNone_upd
    | with_reducible apply each_upd
    | with_reducible apply portIs_upd
    | split

theorem execMemRepair_ans {d : Nat} (hM : gr.mem = true) (hE : gr.ecc = true) (hR : gr.ret = true) (hU : Upd gr s₀ s) : Ans gr s₀ (execMemRepair d s) := by
  unfold execMemRepair
  try dsimp only
  repeat' first
    | intro _
    | with_reducible assumption
    | with_reducible apply ok_ans
    | with_reducible apply ite_ans
    | with_reducible apply ite_upd
    | with_reducible exact ok_ans (by assumption)
    | with_reducible apply memAfresh_upd
    | with_reducible apply stepDone_upd
    | with_reducible apply mapClear_upd
    | with_reducible apply mapApply_upd
    | with_reducible apply linksBegin_upd
    | split

theorem alignDie_upd {d : Nat} (hU : Upd gr s₀ s) : Upd gr s₀ (alignDie s d) := by
  unfold alignDie
  try dsimp only
  repeat' first
    | intro _
    | with_reducible assumption
    | with_reducible apply ite_upd
    | with_reducible apply setDie_upd
    | with_reducible apply setSyncOk_upd
    | with_reducible apply wf_upd
    | exact ⟨rfl, fun h => h, fun h => h⟩
    | exact ⟨rfl, by simp, by simp⟩
    | split
    | with_reducible apply Upd.lit

theorem alignFollow_upd (hU : Upd gr s₀ s) : Upd gr s₀ (alignFollow s) := by
  unfold alignFollow
  try dsimp only
  repeat' first
    | intro _
    | with_reducible assumption
    | with_reducible apply ite_upd
    | with_reducible apply each_upd
    | with_reducible apply alignDie_upd
    | split

theorem linksEnd_upd (hE : gr.ecc = true) (hR : gr.ret = true) (hU : Upd gr s₀ s) : Upd gr s₀ (linksEnd s) := by
  unfold linksEnd
  try dsimp only
  repeat' first
    | intro _
    | with_reducible assumption
    | with_reducible apply ite_upd
    | with_reducible apply each_upd
    | with_reducible apply stepEnd_upd
    | split

theorem linkFirstUp_upd {d : Nat} {i : Nat} {e : Nat} {j : Nat} (hU : Upd gr s₀ s) : Upd gr s₀ (linkFirstUp s d i e j) := by
  unfold linkFirstUp
  try dsimp only
  repeat' first
    | intro _
    | with_reducible assumption
    | with_reducible apply ite_upd
    | with_reducible apply raise_upd
    | with_reducible apply portIs_upd
    | split

theorem linkKeptDown_upd {d : Nat} {i : Nat} {e : Nat} {j : Nat} (hU : Upd gr s₀ s) : Upd gr s₀ (linkKeptDown s d i e j) := by
  unfold linkKeptDown
  try dsimp only
  repeat' first
    | intro _
    | with_reducible assumption
    | with_reducible apply ite_upd
    | with_reducible apply raise_upd
    | with_reducible apply portIs_upd
    | split

theorem linksFollow_upd (hE : gr.ecc = true) (hR : gr.ret = true) (hU : Upd gr s₀ s) : Upd gr s₀ (linksFollow s) := by
  unfold linksFollow
  try dsimp only
  repeat' first
    | intro _
    | with_reducible assumption
    | with_reducible apply ite_upd
    | with_reducible apply startFollow_upd
    | with_reducible apply linksEnd_upd
    | with_reducible apply alignFollow_upd
    | with_reducible apply seamsAll_upd
    | with_reducible apply routesFollow_upd
    | split

theorem execBurimTrain_ans {d : Nat} {i : Nat} (hE : gr.ecc = true) (hR : gr.ret = true) (hU : Upd gr s₀ s) : Ans gr s₀ (execBurimTrain d i s) := by
  unfold execBurimTrain
  try dsimp only
  repeat' first
    | intro _
    | with_reducible assumption
    | with_reducible apply ok_ans
    | with_reducible apply ite_ans
    | with_reducible apply ite_upd
    | with_reducible exact ok_ans (by assumption)
    | with_reducible apply linksFollow_upd
    | with_reducible apply linkKeptDown_upd
    | with_reducible apply linkFirstUp_upd
    | split
    | with_reducible apply Upd.lit

theorem trimsRestore_upd {d : Nat} (hU : Upd gr s₀ s) : Upd gr s₀ (trimsRestore s d) := by
  unfold trimsRestore
  try dsimp only
  repeat' first
    | intro _
    | with_reducible assumption
    | with_reducible apply ite_upd
    | with_reducible apply each_upd
    | with_reducible apply setIsland_upd
    | split
    | with_reducible apply Upd.lit

theorem coreStart_upd {d : Nat} {image : Nat} (hU : Upd gr s₀ s) : Upd gr s₀ (coreStart s d image) := by
  unfold coreStart
  try dsimp only
  repeat' first
    | intro _
    | with_reducible assumption
    | with_reducible apply ite_upd
    | with_reducible apply setBoot_upd
    | with_reducible apply setFw_upd
    | with_reducible apply setFwUp_upd
    | with_reducible apply trimsRestore_upd
    | with_reducible apply fwStartNote_upd
    | split
    | with_reducible apply Upd.lit

theorem execFwVerify_ans {d : Nat} {image : Nat} (hE : gr.ecc = true) (hR : gr.ret = true) (hU : Upd gr s₀ s) : Ans gr s₀ (execFwVerify d image s) := by
  unfold execFwVerify
  try dsimp only
  repeat' first
    | intro _
    | with_reducible assumption
    | with_reducible apply ok_ans
    | with_reducible apply ite_ans
    | with_reducible apply ite_upd
    | with_reducible exact ok_ans (by assumption)
    | with_reducible apply stepDone_upd
    | with_reducible apply coreStart_upd
    | with_reducible apply setBoot_upd
    | with_reducible apply stepNone_upd
    | with_reducible apply allowedFollow_upd
    | with_reducible apply startFollow_upd
    | split
    | with_reducible apply Upd.lit

theorem execPcieLink_ans {gen : Nat} {width : Nat} {ltssm : Nat} (hE : gr.ecc = true) (hR : gr.ret = true) (hU : Upd gr s₀ s) : Ans gr s₀ (execPcieLink gen width ltssm s) := by
  unfold execPcieLink
  try dsimp only
  repeat' first
    | intro _
    | with_reducible assumption
    | with_reducible apply ok_ans
    | with_reducible apply ite_ans
    | with_reducible apply ite_upd
    | with_reducible exact ok_ans (by assumption)
    | with_reducible apply wb_upd
    | with_reducible apply stepDone_upd
    | with_reducible apply hostLinkUp_upd
    | with_reducible apply each_upd
    | with_reducible apply assayBegin_upd
    | split
    | with_reducible apply Upd.lit

theorem boardEnd_upd {d : Nat} (hE : gr.ecc = true) (hR : gr.ret = true) (hU : Upd gr s₀ s) : Upd gr s₀ (boardEnd s d) := by
  unfold boardEnd
  try dsimp only
  repeat' first
    | intro _
    | with_reducible assumption
    | with_reducible apply ite_upd
    | with_reducible apply tlCopies_upd
    | with_reducible apply tlHistory_upd
    | with_reducible apply wf_upd
    | with_reducible apply whenDo_upd
    | with_reducible apply raise_upd
    | with_reducible apply each_upd
    | with_reducible apply notice_upd
    | split

theorem wakeEnd_upd (hU : Upd gr s₀ s) : Upd gr s₀ (wakeEnd s) := by
  unfold wakeEnd
  try dsimp only
  repeat' first
    | intro _
    | with_reducible assumption
    | with_reducible apply ite_upd
    | with_reducible apply raise_upd
    | with_reducible apply count_upd
    | with_reducible apply modeReq_upd
    | split
    | with_reducible apply Upd.lit

theorem descClear_upd {d : Nat} (hM : gr.mem = true) (hE : gr.ecc = true) (hU : Upd gr s₀ s) : Upd gr s₀ (descClear s d) := by
  unfold descClear
  exact (hU.memory hM hE fun h => filter_wf _ _ h).same rfl rfl rfl rfl rfl rfl rfl rfl rfl

theorem startEnd_upd (hM : gr.mem = true) (hE : gr.ecc = true) (hR : gr.ret = true) (hS : gr.sess = true) (hU : Upd gr s₀ s) : Upd gr s₀ (startEnd s) := by
  unfold startEnd
  try dsimp only
  repeat' first
    | intro _
    | with_reducible assumption
    | with_reducible apply ite_upd
    | with_reducible apply each_upd
    | with_reducible apply descClear_upd
    | with_reducible apply boardEnd_upd
    | with_reducible apply dbgOpen_upd
    | with_reducible apply wakeEnd_upd
    | split
    | with_reducible apply Upd.lit

theorem assayStepEnd_upd {d : Nat} (hM : gr.mem = true) (hE : gr.ecc = true) (hR : gr.ret = true) (hS : gr.sess = true) (hU : Upd gr s₀ s) : Upd gr s₀ (assayStepEnd s d) := by
  unfold assayStepEnd
  try dsimp only
  repeat' first
    | intro _
    | with_reducible assumption
    | with_reducible apply ite_upd
    | with_reducible apply setBoot_upd
    | with_reducible apply startEnd_upd
    | split
    | with_reducible apply Upd.lit

theorem execInitialAssay_ans {d : Nat} (hM : gr.mem = true) (hE : gr.ecc = true) (hR : gr.ret = true) (hS : gr.sess = true) (hU : Upd gr s₀ s) : Ans gr s₀ (execInitialAssay d s) := by
  unfold execInitialAssay
  try dsimp only
  repeat' first
    | intro _
    | with_reducible assumption
    | with_reducible apply ok_ans
    | with_reducible apply ite_ans
    | with_reducible apply ite_upd
    | with_reducible exact ok_ans (by assumption)
    | with_reducible apply assayStepEnd_upd
    | with_reducible apply stepDone_upd
    | with_reducible apply tlCheck_upd
    | split

theorem stepFail_upd {d : Nat} {st : Nat} {detail : Nat} (hM : gr.mem = true) (hE : gr.ecc = true) (hR : gr.ret = true) (hS : gr.sess = true) (hU : Upd gr s₀ s) : Upd gr s₀ (stepFail s d st detail) := by
  unfold stepFail
  try dsimp only
  repeat' first
    | intro _
    | with_reducible assumption
    | with_reducible apply ite_upd
    | with_reducible apply boardOpen_upd
    | with_reducible apply stepEnd_upd
    | with_reducible apply assayStepEnd_upd
    | with_reducible apply setBoot_upd
    | split
    | with_reducible apply Upd.lit

theorem execBootStepTimeout_ans {d : Nat} {step : Nat} {detail : Nat} (hM : gr.mem = true) (hE : gr.ecc = true) (hR : gr.ret = true) (hS : gr.sess = true) (hU : Upd gr s₀ s) : Ans gr s₀ (execBootStepTimeout d step detail s) := by
  unfold execBootStepTimeout
  try dsimp only
  repeat' first
    | intro _
    | with_reducible assumption
    | with_reducible apply ok_ans
    | with_reducible apply ite_ans
    | with_reducible apply ite_upd
    | with_reducible exact ok_ans (by assumption)
    | with_reducible apply stepFail_upd
    | with_reducible apply waitClock_upd
    | split

theorem execBootRestart_ans (hM : gr.mem = true) (hE : gr.ecc = true) (hR : gr.ret = true) (hU : Upd gr s₀ s) : Ans gr s₀ (execBootRestart s) := by
  unfold execBootRestart
  try dsimp only
  repeat' first
    | intro _
    | with_reducible assumption
    | with_reducible apply ok_ans
    | with_reducible apply ite_ans
    | with_reducible apply ite_upd
    | with_reducible exact ok_ans (by assumption)
    | with_reducible apply waitClock_upd
    | with_reducible apply startOver_upd
    | with_reducible apply each_upd
    | with_reducible apply tlHistory_upd
    | split
    | with_reducible apply Upd.lit

end Sys2Proof.Laws
end

