-- ==== Sys2Proof/Laws/Fields.lean ====
section
/-!
SUPPORT. Bit fields after an update of a field, and what a register reads as after each elementary write.
-/

set_option Elab.async false
set_option linter.unusedTactic false
set_option linter.unreachableTactic false
namespace Sys2Proof.Machine

/-! Bit fields. -/

/-- A field as the number of the bits extracted. -/
theorem fld_eq_extract (w : Word) (lo n : Nat) : fld w lo n = (w.extractLsb' lo n).toNat := by
  simp [fld, BitVec.extractLsb'_toNat, Nat.shiftRight_eq_div_pow]

/-- A bit of the number a field holds. -/
theorem testBit_fld (w : Word) (lo n i : Nat) : (fld w lo n).testBit i = (decide (i < n) && w.getLsbD (lo + i)) := by
  rw [fld_eq_extract, BitVec.testBit_toNat, BitVec.getLsbD_extractLsb']

/-- A bit of a field mask. -/
theorem getLsbD_fmask (lo n i : Nat) : (fmask lo n).getLsbD i = (decide (i < 24) && decide (lo ≤ i) && decide (i < lo + n)) := by
  simp only [fmask, word, BitVec.getLsbD_ofNat, Nat.testBit_mul_two_pow, Nat.testBit_two_pow_sub_one]
  by_cases h : lo ≤ i
  · have : (i - lo < n) = (i < lo + n) := by rw [eq_iff_iff]; omega
    simp [h, this]
  · simp [h]

/-- A bit of a word with a field set. -/
theorem getLsbD_setFld (w : Word) (lo n v i : Nat) :
    (setFld w lo n v).getLsbD i
      = if lo ≤ i ∧ i < lo + n then decide (i < 24) && v.testBit (i - lo) else w.getLsbD i := by
  simp only [setFld, BitVec.getLsbD_or, BitVec.getLsbD_and, BitVec.getLsbD_not, getLsbD_fmask, word,
    BitVec.getLsbD_ofNat, Nat.testBit_mul_two_pow, Nat.testBit_mod_two_pow]
  by_cases h24 : i < 24
  · by_cases h1 : lo ≤ i
    · by_cases h2 : i < lo + n
      · have : i - lo < n := by omega
        simp [h24, h1, h2, this]
      · have : ¬ i - lo < n := by omega
        simp [h24, h1, h2, this]
    · simp [h24, h1]
  · have : w.getLsbD i = false := BitVec.getLsbD_of_ge _ _ (by omega)
    simp [h24, this]

/-- The field just set. -/
@[simp] theorem fld_setFld (w : Word) (lo n v : Nat) (h : lo + n ≤ 24) : fld (setFld w lo n v) lo n = v % 2 ^ n := by
  apply Nat.eq_of_testBit_eq
  intro i
  rw [testBit_fld, getLsbD_setFld, Nat.testBit_mod_two_pow]
  by_cases hi : i < n
  · have h1 : lo ≤ lo + i ∧ lo + i < lo + n := by omega
    have h2 : lo + i < 24 := by omega
    simp [hi, h2]
  · simp [hi]

/-- A field apart from the one set. -/
@[simp] theorem fld_setFld_apart (w : Word) (lo n v l k : Nat) (h : l + k ≤ lo ∨ lo + n ≤ l) :
    fld (setFld w lo n v) l k = fld w l k := by
  apply Nat.eq_of_testBit_eq
  intro i
  rw [testBit_fld, testBit_fld, getLsbD_setFld]
  by_cases hi : i < k
  · have : ¬ (lo ≤ l + i ∧ l + i < lo + n) := by omega
    simp [this]
  · simp [hi]

/-- The bit just set. -/
@[simp] theorem bit_setBit (w : Word) (i : Nat) (b : Bool) (h : i < 24) : bit (setBit w i b) i = b := by
  cases b <;> (simp only [bit, setBit, getLsbD_setFld]; simp [h])

/-- A bit apart from the one set. -/
@[simp] theorem bit_setBit_apart (w : Word) (i j : Nat) (b : Bool) (h : i ≠ j) : bit (setBit w i b) j = bit w j := by
  have : ¬ (i ≤ j ∧ j < i + 1) := by omega
  rw [bit, bit, setBit, getLsbD_setFld, if_neg this]

/-- A bit apart from the field set. -/
@[simp] theorem bit_setFld_apart (w : Word) (lo n v j : Nat) (h : j < lo ∨ lo + n ≤ j) : bit (setFld w lo n v) j = bit w j := by
  have : ¬ (lo ≤ j ∧ j < lo + n) := by omega
  simp [bit, getLsbD_setFld, this]

/-- A field apart from the bit set. -/
@[simp] theorem fld_setBit_apart (w : Word) (i l k : Nat) (b : Bool) (h : l + k ≤ i ∨ i + 1 ≤ l) :
    fld (setBit w i b) l k = fld w l k := fld_setFld_apart _ _ _ _ _ _ h

/-- A one-bit field just set. -/
@[simp] theorem fld_setBit (w : Word) (i : Nat) (b : Bool) (h : i < 24) : fld (setBit w i b) i 1 = b2n b := by
  cases b <;> simp [setBit, b2n, fld_setFld _ _ _ _ (by omega : i + 1 ≤ 24)]

/-- A bit of a word or-ed with one bit. -/
@[simp] theorem bit_or_bitw (w : Word) (i : Nat) (h : i < 24) : bit (w ||| bitw i) i = true := by
  simp only [bit, bitw, word, BitVec.getLsbD_or, BitVec.getLsbD_ofNat, Nat.testBit_two_pow_self, h, decide_true,
    Bool.and_self, Bool.or_true]

/-- Another bit of a word or-ed with one bit. -/
@[simp] theorem bit_or_bitw_apart (w : Word) (i j : Nat) (h : i ≠ j) : bit (w ||| bitw i) j = bit w j := by
  simp only [bit, bitw, word, BitVec.getLsbD_or, BitVec.getLsbD_ofNat, Nat.testBit_two_pow]
  simp [h]

/-! Registers after a write. -/

section
variable (s : State) (p q : Pg) (o k : Nat)

/-- A register at another offset. -/
@[simp] theorem rd_wr_off (v : Word) (h : o ≠ k) : rd (wr s p o v) q k = rd s q k := by simp [rd_wr, h]

/-- A register of another page. -/
theorem rd_wr_page (v : Word) (h : p ≠ q) : rd (wr s p o v) q k = rd s q k := by simp [rd_wr, h]

@[simp] theorem rd_wf_same (lo n v : Nat) : rd (wf s p o lo n v) p o = setFld (rd s p o) lo n v := by simp [wf]
@[simp] theorem rd_wf_off (lo n v : Nat) (h : o ≠ k) : rd (wf s p o lo n v) q k = rd s q k := by simp [wf, h]
theorem rd_wf_page (lo n v : Nat) (h : p ≠ q) : rd (wf s p o lo n v) q k = rd s q k := by simp [wf, rd_wr, h]
@[simp] theorem rd_wb_same (i : Nat) (b : Bool) : rd (wb s p o i b) p o = setBit (rd s p o) i b := by simp [wb]
@[simp] theorem rd_wb_off (i : Nat) (b : Bool) (h : o ≠ k) : rd (wb s p o i b) q k = rd s q k := by simp [wb, h]
theorem rd_wb_page (i : Nat) (b : Bool) (h : p ≠ q) : rd (wb s p o i b) q k = rd s q k := by simp [wb, rd_wr, h]
@[simp] theorem rd_count_same : rd (count s p o) p o = inc24 (rd s p o) := by simp [count]
@[simp] theorem rd_count_off (h : o ≠ k) : rd (count s p o) q k = rd s q k := by simp [count, h]
theorem rd_count_page (h : p ≠ q) : rd (count s p o) q k = rd s q k := by simp [count, rd_wr, h]
@[simp] theorem rd_wr48_off (v : Nat) (h : o ≠ k) (h' : o + 4 ≠ k) : rd (wr48 s p o v) q k = rd s q k := by
  simp [wr48, h, h']
theorem rd_wr48_page (v : Nat) (h : p ≠ q) : rd (wr48 s p o v) q k = rd s q k := by simp [wr48, rd_wr, h]

/-- A pair just written. -/
@[simp] theorem rd48_wr48 (v : Nat) : rd48 (wr48 s p o v) p o = v % 2 ^ 48 := by
  simp only [rd48, rdN, wr48, rd_wr_same, rd_wr, lo24, hi24, word, BitVec.toNat_ofNat]
  simp
  omega

@[simp] theorem rd48_wr_off (v : Word) (h : o ≠ k) (h' : o ≠ k + 4) : rd48 (wr s p o v) q k = rd48 s q k := by
  simp [rd48, rdN, h, h']

/-- A field of a register just set. -/
@[simp] theorem rf_wf_same (lo n v : Nat) (h : lo + n ≤ 24) : rf (wf s p o lo n v) p o lo n = v % 2 ^ n := by
  simp [rf, h]

/-- Another field of the register. -/
@[simp] theorem rf_wf_apart (lo n v l m : Nat) (h : l + m ≤ lo ∨ lo + n ≤ l) :
    rf (wf s p o lo n v) p o l m = rf s p o l m := by
  simp [rf, h]

@[simp] theorem rf_wf_off (lo n v l m : Nat) (h : o ≠ k) : rf (wf s p o lo n v) q k l m = rf s q k l m := by simp [rf, h]
@[simp] theorem rf_wb_apart (i l m : Nat) (b : Bool) (h : l + m ≤ i ∨ i + 1 ≤ l) :
    rf (wb s p o i b) p o l m = rf s p o l m := by
  rw [rf, rd_wb_same, fld_setBit_apart _ _ _ _ _ h, rf]
@[simp] theorem rf_wb_off (i l m : Nat) (b : Bool) (h : o ≠ k) : rf (wb s p o i b) q k l m = rf s q k l m := by simp [rf, h]
@[simp] theorem rf_wr_off (v : Word) (l m : Nat) (h : o ≠ k) : rf (wr s p o v) q k l m = rf s q k l m := by simp [rf, h]
@[simp] theorem rf_count_off (l m : Nat) (h : o ≠ k) : rf (count s p o) q k l m = rf s q k l m := by simp [rf, h]
@[simp] theorem rb_wb_same (i : Nat) (b : Bool) (h : i < 24) : rb (wb s p o i b) p o i = b := by simp [rb, h]
@[simp] theorem rb_wb_apart (i j : Nat) (b : Bool) (h : i ≠ j) : rb (wb s p o i b) p o j = rb s p o j := by simp [rb, h]
@[simp] theorem rb_wb_off (i j : Nat) (b : Bool) (h : o ≠ k) : rb (wb s p o i b) q k j = rb s q k j := by simp [rb, h]
@[simp] theorem rb_wf_apart (lo n v j : Nat) (h : j < lo ∨ lo + n ≤ j) : rb (wf s p o lo n v) p o j = rb s p o j := by
  simp [rb, h]
@[simp] theorem rb_wf_off (lo n v j : Nat) (h : o ≠ k) : rb (wf s p o lo n v) q k j = rb s q k j := by simp [rb, h]
@[simp] theorem rb_wr_off (v : Word) (j : Nat) (h : o ≠ k) : rb (wr s p o v) q k j = rb s q k j := by simp [rb, h]
@[simp] theorem rb_count_off (j : Nat) (h : o ≠ k) : rb (count s p o) q k j = rb s q k j := by simp [rb, h]

/-! Events. -/

theorem msix_regs (d v : Nat) : (msix s d v).regs = s.regs := by
  unfold msix; split
  · rfl
  · split <;> rfl

@[simp] theorem rd_msix (d v : Nat) : rd (msix s d v) q k = rd s q k := by simp only [rd, msix_regs]

/-- A latched event changes no register but `EVT_LAT`. -/
@[simp] theorem rd_latch_off (m : Word) (h : k ≠ Off.EVT_LAT) : rd (latch s p m) q k = rd s q k := by
  have h' : Off.EVT_LAT ≠ k := Ne.symm h
  unfold latch; split
  · simp only [whenDo]; split
    · simp only [pageMsix, rd_msix]; exact rd_wr_off _ _ _ _ _ _ h'
    · exact rd_wr_off _ _ _ _ _ _ h'
  · rfl

/-- A latched event changes no other page. -/
theorem rd_latch_page (m : Word) (h : p ≠ q) : rd (latch s p m) q k = rd s q k := by
  unfold latch; split
  · simp only [whenDo]; split
    · simp only [pageMsix, rd_msix]; exact rd_wr_page _ _ _ _ _ _ h
    · exact rd_wr_page _ _ _ _ _ _ h
  · rfl

/-- The event bits of a present page after a latch. -/
theorem rd_latch_same (m : Word) (h : present s p = true) : rd (latch s p m) p Off.EVT_LAT = rd s p Off.EVT_LAT ||| m := by
  unfold latch; rw [if_pos h]; simp only [whenDo]; split
  · simp only [pageMsix, rd_msix, rd_wr_same]
  · simp only [rd_wr_same]

@[simp] theorem rd_raise_off (i : Nat) (h : k ≠ Off.EVT_LAT) : rd (raise s p i) q k = rd s q k := rd_latch_off _ _ _ _ _ h
theorem rd_raise_page (i : Nat) (h : p ≠ q) : rd (raise s p i) q k = rd s q k := rd_latch_page _ _ _ _ _ h
@[simp] theorem rf_raise_off (i l m : Nat) (h : k ≠ Off.EVT_LAT) : rf (raise s p i) q k l m = rf s q k l m := by
  simp only [rf, rd_raise_off _ _ _ _ _ h]
@[simp] theorem rb_raise_off (i j : Nat) (h : k ≠ Off.EVT_LAT) : rb (raise s p i) q k j = rb s q k j := by
  simp only [rb, rd_raise_off _ _ _ _ _ h]
@[simp] theorem rd48_raise_off (i : Nat) (h : k ≠ Off.EVT_LAT) (h' : k + 4 ≠ Off.EVT_LAT) :
    rd48 (raise s p i) q k = rd48 s q k := by
  simp only [rd48, rdN, rd_raise_off _ _ _ _ _ h, rd_raise_off _ _ _ _ _ h']

/-- The event raised is latched. -/
theorem rb_raise_same (i : Nat) (h : present s p = true) (hi : i < 24) : rb (raise s p i) p Off.EVT_LAT i = true := by
  rw [rb, raise, rd_latch_same _ _ _ h]; exact bit_or_bitw _ _ hi

/-- Whatever was latched stays latched. -/
theorem rb_raise_mono (i j : Nat) (h : rb s q Off.EVT_LAT j = true) : rb (raise s p i) q Off.EVT_LAT j = true := by
  by_cases hp : p = q
  · subst hp
    by_cases hpr : present s p = true
    · rw [rb, raise, rd_latch_same _ _ _ hpr]; rw [rb] at h
      simp only [bit, BitVec.getLsbD_or] at *; simp [h]
    · simp only [raise, latch, hpr]; exact h
  · rw [rb, rd_raise_page _ _ _ _ _ hp]; exact h

end

end Sys2Proof.Machine
end

