-- ==== Sys2Proof/Laws/Pages.lean ====
section
/-!
SUPPORT. The block type of each named page: a page of another type is another page.
-/

set_option Elab.async false
set_option linter.unusedTactic false
set_option linter.unreachableTactic false
namespace Sys2Proof.Machine

theorem nsAt_ne {d base n i : Nat} {q : Pg} {k : Kind} (h : ∀ j < n, nsKind (base + j) = k) (hk : pgKind q ≠ k)
    (h0 : pgKind q ≠ .absent) : nsAt d base n i ≠ q := by
  intro e
  subst e
  by_cases hi : i < n
  · exact hk (by simp only [nsAt, ns, pgKind, hi, if_true]; exact h i hi)
  · exact h0 (by simp only [nsAt, ns, pgKind, hi, if_false]; rfl)

theorem pgHp_ne {d i : Nat} {q : Pg} (hk : pgKind q ≠ .hp) (h0 : pgKind q ≠ .absent) : pgHp d i ≠ q :=
  nsAt_ne (by decide) hk h0
theorem pgEnc_ne {d i : Nat} {q : Pg} (hk : pgKind q ≠ .enc) (h0 : pgKind q ≠ .absent) : pgEnc d i ≠ q :=
  nsAt_ne (by decide) hk h0
theorem pgAx_ne {d i : Nat} {q : Pg} (hk : pgKind q ≠ .ax) (h0 : pgKind q ≠ .absent) : pgAx d i ≠ q :=
  nsAt_ne (by decide) hk h0
theorem pgHc_ne {d i : Nat} {q : Pg} (hk : pgKind q ≠ .hoistCh) (h0 : pgKind q ≠ .absent) : pgHc d i ≠ q :=
  nsAt_ne (by decide) hk h0
theorem pgChute_ne {d i : Nat} {q : Pg} (hk : pgKind q ≠ .chute) (h0 : pgKind q ≠ .absent) : pgChute d i ≠ q :=
  nsAt_ne (by decide) hk h0
theorem pgMbox_ne {d : Nat} {b : Bool} {q : Pg} (hk : pgKind q ≠ .mbox) : pgMbox d b ≠ q := by
  intro e; subst e; cases b <;> exact hk rfl
theorem pgDie_ne {d : Nat} {q : Pg} (hk : pgKind q ≠ .die) : pgDie d ≠ q := fun e => hk (e ▸ rfl)
theorem pgMode_ne {d : Nat} {q : Pg} (hk : pgKind q ≠ .mode) : pgMode d ≠ q := fun e => hk (e ▸ rfl)
theorem pgTb_ne {d : Nat} {q : Pg} (hk : pgKind q ≠ .timebase) : pgTb d ≠ q := fun e => hk (e ▸ rfl)
theorem pgFence_ne {d : Nat} {q : Pg} (hk : pgKind q ≠ .fence) : pgFence d ≠ q := fun e => hk (e ▸ rfl)
theorem pgInject_ne {d : Nat} {q : Pg} (hk : pgKind q ≠ .inject) : pgInject d ≠ q := fun e => hk (e ▸ rfl)
theorem pgTally_ne {d : Nat} {q : Pg} (hk : pgKind q ≠ .tally) : pgTally d ≠ q := fun e => hk (e ▸ rfl)
theorem pgAssay_ne {d : Nat} {q : Pg} (hk : pgKind q ≠ .assay) : pgAssay d ≠ q := fun e => hk (e ▸ rfl)
theorem pgThermal_ne {d : Nat} {q : Pg} (hk : pgKind q ≠ .thermal) : pgThermal d ≠ q := fun e => hk (e ▸ rfl)
theorem pgLamp_ne {d : Nat} {q : Pg} (hk : pgKind q ≠ .lamp) : pgLamp d ≠ q := fun e => hk (e ▸ rfl)
theorem pgMemctl_ne {d : Nat} {q : Pg} (hk : pgKind q ≠ .memctl) : pgMemctl d ≠ q := fun e => hk (e ▸ rfl)
theorem pgRetain_ne {d : Nat} {q : Pg} (hk : pgKind q ≠ .retain) : pgRetain d ≠ q := fun e => hk (e ▸ rfl)
theorem pgHoistGlobal_ne {d : Nat} {q : Pg} (hk : pgKind q ≠ .hoistGlobal) : pgHoistGlobal d ≠ q := fun e => hk (e ▸ rfl)
theorem pgChuteGlobal_ne {d : Nat} {q : Pg} (hk : pgKind q ≠ .chuteGlobal) : pgChuteGlobal d ≠ q := fun e => hk (e ▸ rfl)
theorem pgPd_ne {d : Nat} {q : Pg} (hk : pgKind q ≠ .pd) : pgPd d ≠ q := fun e => hk (e ▸ rfl)
theorem pgSeam_ne {d : Nat} {q : Pg} (hk : pgKind q ≠ .seam) : pgSeam d ≠ q := fun e => hk (e ▸ rfl)
theorem pgEcho_ne {d : Nat} {q : Pg} (hk : pgKind q ≠ .echo) : pgEcho d ≠ q := fun e => hk (e ▸ rfl)
theorem pgBurim_ne {d : Nat} {q : Pg} (hk : pgKind q ≠ .burim) : pgBurim d ≠ q := fun e => hk (e ▸ rfl)
theorem pgCtx_ne {d : Nat} {q : Pg} (hk : pgKind q ≠ .ctxCtrl) : pgCtx d ≠ q := fun e => hk (e ▸ rfl)
theorem pgSecDie_ne {d : Nat} {q : Pg} (hk : pgKind q ≠ .secDie) : pgSecDie d ≠ q := fun e => hk (e ▸ rfl)
theorem pgGuard_ne {d : Nat} {q : Pg} (hk : pgKind q ≠ .guard) : pgGuard d ≠ q := fun e => hk (e ▸ rfl)
theorem pgDebug_ne {d : Nat} {q : Pg} (hk : pgKind q ≠ .debug) : pgDebug d ≠ q := fun e => hk (e ▸ rfl)
theorem pgIjl_ne {d : Nat} {q : Pg} (hk : pgKind q ≠ .injectLock) : pgIjl d ≠ q := fun e => hk (e ▸ rfl)
theorem pgSess_ne {d : Nat} {q : Pg} (hk : pgKind q ≠ .session) : pgSess d ≠ q := fun e => hk (e ▸ rfl)
theorem pgTsync_ne {q : Pg} (hk : pgKind q ≠ .tsync) : pgTsync ≠ q := fun e => hk (e ▸ rfl)
theorem pgPcie_ne {q : Pg} (hk : pgKind q ≠ .pcie) : pgPcie ≠ q := fun e => hk (e ▸ rfl)

end Sys2Proof.Machine
end

