-- ==== Sys2Proof/Laws/PerInstr.lean ====
section
/-!
SUPPORT. Per command: the dies that a well-formed command names are dies of the largest part (R1).
-/

set_option Elab.async false
set_option linter.unusedTactic false
set_option linter.unreachableTactic false
namespace Sys2Proof.Laws.Operands

/-- The die whose register a write addresses, if it is one. -/
def targetDies : Target → List Nat
  | .reg p _ => [p.die]
  | .msixTable .. => []
  | .pba .. => []
  | .config .. => []

/-- The dies that a command names, by index or by page. -/
def diesOf (i : Instr) : List Nat :=
  match i with
  | .modeReqWrite _ d _ => [d]
  | .modeLeadWrite _ d _ => [d]
  | .modeChanged => []
  | .modeMirrorArrive d => [d]
  | .modeClockSettled => []
  | .registerWrite _ t _ _ => targetDies t
  | .unsupportedRequest _ _ _ _ => []
  | .enWrite _ p _ => [p.die]
  | .blockStarted p => [p.die]
  | .shutdownComplete p => [p.die]
  | .softReset _ p => [p.die]
  | .evtLatWrite _ p _ => [p.die]
  | .evtEnWrite _ p _ => [p.die]
  | .evtSetWrite _ p _ => [p.die]
  | .evtVecWrite _ p _ => [p.die]
  | .errInfoClear _ p => [p.die]
  | .commitGo _ p _ => [p.die]
  | .commitCancel _ p => [p.die]
  | .handOver p => [p.die]
  | .wideLRead _ t _ => targetDies t
  | .wideLWrite _ p _ _ => [p.die]
  | .xtalCompUpdate _ => []
  | .xtalFail => []
  | .pllUnlock d => [d]
  | .pllRelockRelease d => [d]
  | .wrap d => [d]
  | .secEdge => []
  | .timeFlitExchange d _ => [d]
  | .timeSourceSwitch d => [d]
  | .timeSkewRelease d => [d]
  | .tsyncFrameSend => []
  | .tsyncFrameReceive _ _ _ => []
  | .stepApplied => []
  | .tsyncHoldover => []
  | .encCount d _ _ _ => [d]
  | .index d _ _ => [d]
  | .speedWindow d _ => [d]
  | .speedStopped d _ => [d]
  | .serialFrameStart d _ _ => [d]
  | .serialFrameEnd d _ _ => [d]
  | .serialTimeout d _ _ => [d]
  | .latchSw _ d _ _ => [d]
  | .latchPeriodic d _ => [d]
  | .estimatorUpdate d _ => [d]
  | .remoteEstimateReceive d _ => [d]
  | .remoteSourceLost d _ => [d]
  | .product d _ _ => [d]
  | .pdLockoutEnd d _ => [d]
  | .estimateArrival d _ => [d]
  | .positionStep d _ => [d]
  | .sourceLost d _ => [d]
  | .pdEdgeArrival d _ => [d]
  | .ctxArm _ d _ => [d]
  | .ctxDisarm _ d _ => [d]
  | .ctxStart _ d _ => [d]
  | .ctxPause _ d _ => [d]
  | .ctxResume _ d _ => [d]
  | .ctxDrain _ d _ => [d]
  | .ctxAbort _ d _ => [d]
  | .ctxFlush _ d _ => [d]
  | .chuteFlushScan d _ => [d]
  | .ctxFence _ d _ => [d]
  | .ctxRelease _ d _ => [d]
  | .followerRejoin d _ => [d]
  | .descriptorWrite _ d _ _ _ => [d]
  | .ctxCommitGo _ d _ _ => [d]
  | .ctxHandOver d _ => [d]
  | .lineBind d _ => [d]
  | .lineFreeze d _ => [d]
  | .cycleFire d _ => [d]
  | .drainComplete d _ => [d]
  | .stall d _ => [d]
  | .blockAccept d _ => [d]
  | .lineBuild d _ => [d]
  | .seamShareReceive d => [d]
  | .seamCreditReturn d => [d]
  | .wfLoadStart _ d _ _ => [d]
  | .wfLoadCopy d _ => [d]
  | .wfLoadHead d _ => [d]
  | .loadDone d _ => [d]
  | .heaterUpdate d _ => [d]
  | .nozzleMapLoadDone d _ => [d]
  | .echoResult d _ _ => [d]
  | .sweepStart _ d => [d]
  | .sweepAbort _ d => [d]
  | .setState _ d _ => [d]
  | .setTrim _ d _ => [d]
  | .clearHist _ d => [d]
  | .refInvalid _ d => [d]
  | .refValid _ d => [d]
  | .lockTrim _ d _ => [d]
  | .linkDiscovery d _ _ => [d]
  | .discoveryRepeat d _ => [d]
  | .linkUp d _ => [d]
  | .trainAttemptTimeout d _ => [d]
  | .frameSend d _ => [d]
  | .ackReceive d _ _ => [d]
  | .ackTimeout d _ _ => [d]
  | .statusReceive d _ _ => [d]
  | .statusStale d _ => [d]
  | .currentLoopTick d _ _ _ => [d]
  | .bridgeFault d _ => [d]
  | .stepInput d _ _ => [d]
  | .profileTick d _ => [d]
  | .axEnableDone d _ => [d]
  | .axMove _ d _ => [d]
  | .axStop _ d _ => [d]
  | .axResume _ d _ => [d]
  | .axHome _ d _ => [d]
  | .axLoad _ d _ => [d]
  | .axClear _ d _ => [d]
  | .axCut _ d _ => [d]
  | .switchInputEdge d _ _ _ => [d]
  | .swEdge d _ _ => [d]
  | .hcStart _ d _ => [d]
  | .hcCancel _ d _ => [d]
  | .hcHold _ d _ _ => [d]
  | .hcResume _ d _ => [d]
  | .hcAbort _ d _ => [d]
  | .hoistTrigger d _ => [d]
  | .runStart d _ => [d]
  | .hoistMove d _ => [d]
  | .hoistLoop d _ => [d]
  | .hoistWait d _ => [d]
  | .waitSatisfied d _ => [d]
  | .waitTimeout d _ => [d]
  | .hoistSignal d _ => [d]
  | .hoistSeta d _ => [d]
  | .hoistAdda d _ => [d]
  | .hoistNop d _ => [d]
  | .hoistEnd d _ => [d]
  | .burstStart d _ => [d]
  | .burstWritten d _ _ => [d]
  | .hoistWatchdog d _ => [d]
  | .globalTimerFire d _ => [d]
  | .cqRecordWrite d _ => [d]
  | .cqSizeWrite _ d _ _ => [d]
  | .cqConsWrite _ d _ _ => [d]
  | .chutePush _ d _ _ _ => [d]
  | .chutePop _ d _ _ => [d]
  | .memWindowWrite _ d _ _ _ _ => [d]
  | .memWindowRead _ d _ _ => [d]
  | .memtestRegionStart d => [d]
  | .memtestPhaseDone d _ => [d]
  | .repairMapSave d => [d]
  | .retDataWrite _ d _ => [d]
  | .retDataRead _ d => [d]
  | .retWordWritten d => [d]
  | .asRequest _ d _ => [d]
  | .asSave _ d => [d]
  | .asRestore _ d => [d]
  | .asCancel _ d _ => [d]
  | .saved d => [d]
  | .restored d => [d]
  | .assayRunStart d _ => [d]
  | .assayTakeover d _ => [d]
  | .assayMeasureStart d _ => [d]
  | .assayMeasureEnd d _ _ => [d]
  | .runDone d _ => [d]
  | .tabRead _ d => [d]
  | .tabWrite _ d => [d]
  | .tabClear _ d => [d]
  | .tempUpdate d _ _ => [d]
  | .thermistorSample d _ _ => [d]
  | .warnClear d _ => [d]
  | .graceExpiry d _ => [d]
  | .critical d _ => [d]
  | .lampMeasure d => [d]
  | .lampMeasureCmd _ d => [d]
  | .measured d _ => [d]
  | .calintExpiry d _ => [d]
  | .histWritten d => [d]
  | .histClear _ d => [d]
  | .mailboxPost _ d _ _ _ => [d]
  | .mailboxTake d => [d]
  | .inDone d _ _ => [d]
  | .getInfo d _ _ => [d]
  | .ping d _ _ => [d]
  | .headDiscover d _ _ _ => [d]
  | .sbRead d _ _ _ => [d]
  | .sbWrite d _ _ _ => [d]
  | .captureRef d _ _ => [d]
  | .assayRequest d _ _ => [d]
  | .abortLong d _ _ => [d]
  | .tallyClear d _ _ => [d]
  | .fwRestart d _ _ => [d]
  | .lifecycleAdvance d _ _ _ => [d]
  | .longCmdTimeout d => [d]
  | .fwWatchdogRestart d => [d]
  | .fwStarted d => [d]
  | .outFull d _ _ => [d]
  | .noticeAck _ d _ _ _ => [d]
  | .inStuck d _ _ => [d]
  | .outStuck d _ _ => [d]
  | .flr => []
  | .conventionalReset => []
  | .sessionStart _ d _ => [d]
  | .sessionCheck _ d _ => [d]
  | .sessionClose _ d => [d]
  | .sessionTimeout d => [d]
  | .backoffEnd d => [d]
  | .guardWrite _ d _ _ => [d]
  | .extest d => [d]
  | .samplePreload d => [d]
  | .idcode d => [d]
  | .clamp d => [d]
  | .highz d => [d]
  | .extestPulse d => [d]
  | .extestTrain d => [d]
  | .dbgStatus d => [d]
  | .unlockChal d => [d]
  | .unlockResp d _ => [d]
  | .dbgAccess d _ _ _ => [d]
  | .dbgClose d => [d]
  | .bypass d _ => [d]
  | .dbgCtrlClose _ d => [d]
  | .trstLow d => [d]
  | .ijlAllowWrite _ d _ => [d]
  | .dormantEntry => []
  | .vinOff => []
  | .wakePin _ _ => []
  | .wakeAlarm => []
  | .vinBrownout => []
  | .vaonReset => []
  | .powerGood d => [d]
  | .fuseRead d _ => [d]
  | .crystal => []
  | .pllLock d => [d]
  | .memRepair d => [d]
  | .burimTrain d _ => [d]
  | .fwVerify d _ => [d]
  | .pcieLink _ _ _ => []
  | .initialAssay d => [d]
  | .bootStepTimeout d _ _ => [d]
  | .bootRestart => []
  | .tlClear _ d _ => [d]
  | .cleared d => [d]
  | .pageFence _ p => [p.die]
  | .fenceRelease _ p _ => [p.die]
  | .releaseComplete p => [p.die]
  | .dieFenced _ _ => []
  | .watchdog d => [d]
  | .completionTimeout _ => []
  | .msixPendingSend _ => []
  | .pcieLinkUp _ _ _ => []
  | .flitReceive d _ _ => [d]
  | .nakReceive d _ _ => [d]
  | .burimRetrain d _ => [d]
  | .burimRetrainDone d _ _ => [d]
  | .periodSpeedLimit d _ => [d]
  | .upstreamCodeErrors d _ => [d]
  | .pcieLinkDown _ => []
  | .vaonApplied => []
  | .dormantSecondsEdge => []
  | .busMasterEnable => []

/-- A well-formed command names dies below 8. -/
def Statement (i : Instr) : Prop := i.wf = true → ∀ d ∈ diesOf i, d < 8

theorem die_lt {d : Nat} (h : dieOk d = true) : d < 8 := of_decide_eq_true h

theorem page_lt {p : Pg} (h : p.wf = true) : p.die < 8 := by
  simp only [Pg.wf, Bool.and_eq_true] at h
  exact die_lt h.1

theorem target_lt {t : Target} (h : t.wf = true) : ∀ d ∈ targetDies t, d < 8 := by
  cases t with
  | reg p off =>
    simp only [Target.wf, Bool.and_eq_true] at h
    intro d hd; simp only [targetDies, List.mem_singleton] at hd; subst hd; exact page_lt h.1
  | msixTable v w => intro d hd; cases hd
  | pba w => intro d hd; cases hd
  | config f => intro d hd; cases hd

/-- A list of one die. -/
theorem one {d : Nat} (h : d < 8) : ∀ x ∈ [d], x < 8 := fun _ hx => List.mem_singleton.mp hx ▸ h

theorem modeReqWrite (a0 : Req) (a1 : Nat) (a2 : Word) :
    Statement (.modeReqWrite a0 a1 a2) := fun h => by
  simp only [Instr.wf, Bool.and_eq_true] at h
  exact one (die_lt h.2)

theorem modeLeadWrite (a0 : Req) (a1 : Nat) (a2 : Word) :
    Statement (.modeLeadWrite a0 a1 a2) := fun h => by
  simp only [Instr.wf, Bool.and_eq_true] at h
  exact one (die_lt h.2)

theorem modeChanged :
    Statement (.modeChanged) := fun _ _ h => nomatch h

theorem modeMirrorArrive (a0 : Nat) :
    Statement (.modeMirrorArrive a0) := fun h => one (die_lt h)

theorem modeClockSettled :
    Statement (.modeClockSettled) := fun _ _ h => nomatch h

theorem registerWrite (a0 : Req) (a1 : Target) (a2 : Shape) (a3 : Nat) :
    Statement (.registerWrite a0 a1 a2 a3) := fun h => by
  simp only [Instr.wf, Bool.and_eq_true] at h
  exact target_lt h.1.2

theorem unsupportedRequest (a0 : Req) (a1 : Nat) (a2 : Nat) (a3 : Bool) :
    Statement (.unsupportedRequest a0 a1 a2 a3) := fun _ _ h => nomatch h

theorem enWrite (a0 : Req) (a1 : Pg) (a2 : Bool) :
    Statement (.enWrite a0 a1 a2) := fun h => by
  simp only [Instr.wf, Bool.and_eq_true] at h
  exact one (page_lt h.2)

theorem blockStarted (a0 : Pg) :
    Statement (.blockStarted a0) := fun h => one (page_lt h)

theorem shutdownComplete (a0 : Pg) :
    Statement (.shutdownComplete a0) := fun h => one (page_lt h)

theorem softReset (a0 : Req) (a1 : Pg) :
    Statement (.softReset a0 a1) := fun h => by
  simp only [Instr.wf, Bool.and_eq_true] at h
  exact one (page_lt h.2)

theorem evtLatWrite (a0 : Req) (a1 : Pg) (a2 : Word) :
    Statement (.evtLatWrite a0 a1 a2) := fun h => by
  simp only [Instr.wf, Bool.and_eq_true] at h
  exact one (page_lt h.2)

theorem evtEnWrite (a0 : Req) (a1 : Pg) (a2 : Word) :
    Statement (.evtEnWrite a0 a1 a2) := fun h => by
  simp only [Instr.wf, Bool.and_eq_true] at h
  exact one (page_lt h.2)

theorem evtSetWrite (a0 : Req) (a1 : Pg) (a2 : Word) :
    Statement (.evtSetWrite a0 a1 a2) := fun h => by
  simp only [Instr.wf, Bool.and_eq_true] at h
  exact one (page_lt h.2)

theorem evtVecWrite (a0 : Req) (a1 : Pg) (a2 : Word) :
    Statement (.evtVecWrite a0 a1 a2) := fun h => by
  simp only [Instr.wf, Bool.and_eq_true] at h
  exact one (page_lt h.2)

theorem errInfoClear (a0 : Req) (a1 : Pg) :
    Statement (.errInfoClear a0 a1) := fun h => by
  simp only [Instr.wf, Bool.and_eq_true] at h
  exact one (page_lt h.2)

theorem commitGo (a0 : Req) (a1 : Pg) (a2 : Word) :
    Statement (.commitGo a0 a1 a2) := fun h => by
  simp only [Instr.wf, Bool.and_eq_true] at h
  exact one (page_lt h.2)

theorem commitCancel (a0 : Req) (a1 : Pg) :
    Statement (.commitCancel a0 a1) := fun h => by
  simp only [Instr.wf, Bool.and_eq_true] at h
  exact one (page_lt h.2)

theorem handOver (a0 : Pg) :
    Statement (.handOver a0) := fun h => one (page_lt h)

theorem wideLRead (a0 : Req) (a1 : Target) (a2 : Nat) :
    Statement (.wideLRead a0 a1 a2) := fun h => by
  simp only [Instr.wf, Bool.and_eq_true] at h
  exact target_lt h.1.2

theorem wideLWrite (a0 : Req) (a1 : Pg) (a2 : Nat) (a3 : Word) :
    Statement (.wideLWrite a0 a1 a2 a3) := fun h => by
  simp only [Instr.wf, Bool.and_eq_true] at h
  exact one (page_lt h.1.2)

theorem xtalCompUpdate (a0 : Int) :
    Statement (.xtalCompUpdate a0) := fun _ _ h => nomatch h

theorem xtalFail :
    Statement (.xtalFail) := fun _ _ h => nomatch h

theorem pllUnlock (a0 : Nat) :
    Statement (.pllUnlock a0) := fun h => one (die_lt h)

theorem pllRelockRelease (a0 : Nat) :
    Statement (.pllRelockRelease a0) := fun h => one (die_lt h)

theorem wrap (a0 : Nat) :
    Statement (.wrap a0) := fun h => one (die_lt h)

theorem secEdge :
    Statement (.secEdge) := fun _ _ h => nomatch h

theorem timeFlitExchange (a0 : Nat) (a1 : Int) :
    Statement (.timeFlitExchange a0 a1) := fun h => one (die_lt h)

theorem timeSourceSwitch (a0 : Nat) :
    Statement (.timeSourceSwitch a0) := fun h => one (die_lt h)

theorem timeSkewRelease (a0 : Nat) :
    Statement (.timeSkewRelease a0) := fun h => one (die_lt h)

theorem tsyncFrameSend :
    Statement (.tsyncFrameSend) := fun _ _ h => nomatch h

theorem tsyncFrameReceive (a0 : Nat) (a1 : Chr) (a2 : List Chr) :
    Statement (.tsyncFrameReceive a0 a1 a2) := fun _ _ h => nomatch h

theorem stepApplied :
    Statement (.stepApplied) := fun _ _ h => nomatch h

theorem tsyncHoldover :
    Statement (.tsyncHoldover) := fun _ _ h => nomatch h

theorem encCount (a0 : Nat) (a1 : Nat) (a2 : List Bool) (a3 : List Bool) :
    Statement (.encCount a0 a1 a2 a3) := fun h => by
  simp only [Instr.wf, Bool.and_eq_true] at h
  exact one (die_lt h.1.1.1)

theorem index (a0 : Nat) (a1 : Nat) (a2 : List Bool) :
    Statement (.index a0 a1 a2) := fun h => by
  simp only [Instr.wf, Bool.and_eq_true] at h
  exact one (die_lt h.1.1)

theorem speedWindow (a0 : Nat) (a1 : Nat) :
    Statement (.speedWindow a0 a1) := fun h => by
  simp only [Instr.wf, Bool.and_eq_true] at h
  exact one (die_lt h.1)

theorem speedStopped (a0 : Nat) (a1 : Nat) :
    Statement (.speedStopped a0 a1) := fun h => by
  simp only [Instr.wf, Bool.and_eq_true] at h
  exact one (die_lt h.1)

theorem serialFrameStart (a0 : Nat) (a1 : Nat) (a2 : Bool) :
    Statement (.serialFrameStart a0 a1 a2) := fun h => by
  simp only [Instr.wf, Bool.and_eq_true] at h
  exact one (die_lt h.1)

theorem serialFrameEnd (a0 : Nat) (a1 : Nat) (a2 : SerFrame) :
    Statement (.serialFrameEnd a0 a1 a2) := fun h => by
  simp only [Instr.wf, Bool.and_eq_true] at h
  exact one (die_lt h.1.1)

theorem serialTimeout (a0 : Nat) (a1 : Nat) (a2 : Bool) :
    Statement (.serialTimeout a0 a1 a2) := fun h => by
  simp only [Instr.wf, Bool.and_eq_true] at h
  exact one (die_lt h.1)

theorem latchSw (a0 : Req) (a1 : Nat) (a2 : Nat) (a3 : Word) :
    Statement (.latchSw a0 a1 a2 a3) := fun h => by
  simp only [Instr.wf, Bool.and_eq_true] at h
  exact one (die_lt h.1.2)

theorem latchPeriodic (a0 : Nat) (a1 : Nat) :
    Statement (.latchPeriodic a0 a1) := fun h => by
  simp only [Instr.wf, Bool.and_eq_true] at h
  exact one (die_lt h.1)

theorem estimatorUpdate (a0 : Nat) (a1 : Nat) :
    Statement (.estimatorUpdate a0 a1) := fun h => by
  simp only [Instr.wf, Bool.and_eq_true] at h
  exact one (die_lt h.1)

theorem remoteEstimateReceive (a0 : Nat) (a1 : Nat) :
    Statement (.remoteEstimateReceive a0 a1) := fun h => by
  simp only [Instr.wf, Bool.and_eq_true] at h
  exact one (die_lt h.1)

theorem remoteSourceLost (a0 : Nat) (a1 : Nat) :
    Statement (.remoteSourceLost a0 a1) := fun h => by
  simp only [Instr.wf, Bool.and_eq_true] at h
  exact one (die_lt h.1)

theorem product (a0 : Nat) (a1 : Nat) (a2 : Bool) :
    Statement (.product a0 a1 a2) := fun h => by
  simp only [Instr.wf, Bool.and_eq_true] at h
  exact one (die_lt h.1)

theorem pdLockoutEnd (a0 : Nat) (a1 : Nat) :
    Statement (.pdLockoutEnd a0 a1) := fun h => by
  simp only [Instr.wf, Bool.and_eq_true] at h
  exact one (die_lt h.1)

theorem estimateArrival (a0 : Nat) (a1 : Nat) :
    Statement (.estimateArrival a0 a1) := fun h => by
  simp only [Instr.wf, Bool.and_eq_true] at h
  exact one (die_lt h.1)

theorem positionStep (a0 : Nat) (a1 : Nat) :
    Statement (.positionStep a0 a1) := fun h => by
  simp only [Instr.wf, Bool.and_eq_true] at h
  exact one (die_lt h.1)

theorem sourceLost (a0 : Nat) (a1 : Nat) :
    Statement (.sourceLost a0 a1) := fun h => by
  simp only [Instr.wf, Bool.and_eq_true] at h
  exact one (die_lt h.1)

theorem pdEdgeArrival (a0 : Nat) (a1 : Nat) :
    Statement (.pdEdgeArrival a0 a1) := fun h => by
  simp only [Instr.wf, Bool.and_eq_true] at h
  exact one (die_lt h.1)

theorem ctxArm (a0 : Req) (a1 : Nat) (a2 : Nat) :
    Statement (.ctxArm a0 a1 a2) := fun h => by
  simp only [Instr.wf, Bool.and_eq_true] at h
  exact one (die_lt h.1.2)

theorem ctxDisarm (a0 : Req) (a1 : Nat) (a2 : Nat) :
    Statement (.ctxDisarm a0 a1 a2) := fun h => by
  simp only [Instr.wf, Bool.and_eq_true] at h
  exact one (die_lt h.1.2)

theorem ctxStart (a0 : Req) (a1 : Nat) (a2 : Nat) :
    Statement (.ctxStart a0 a1 a2) := fun h => by
  simp only [Instr.wf, Bool.and_eq_true] at h
  exact one (die_lt h.1.2)

theorem ctxPause (a0 : Req) (a1 : Nat) (a2 : Nat) :
    Statement (.ctxPause a0 a1 a2) := fun h => by
  simp only [Instr.wf, Bool.and_eq_true] at h
  exact one (die_lt h.1.2)

theorem ctxResume (a0 : Req) (a1 : Nat) (a2 : Nat) :
    Statement (.ctxResume a0 a1 a2) := fun h => by
  simp only [Instr.wf, Bool.and_eq_true] at h
  exact one (die_lt h.1.2)

theorem ctxDrain (a0 : Req) (a1 : Nat) (a2 : Nat) :
    Statement (.ctxDrain a0 a1 a2) := fun h => by
  simp only [Instr.wf, Bool.and_eq_true] at h
  exact one (die_lt h.1.2)

theorem ctxAbort (a0 : Req) (a1 : Nat) (a2 : Nat) :
    Statement (.ctxAbort a0 a1 a2) := fun h => by
  simp only [Instr.wf, Bool.and_eq_true] at h
  exact one (die_lt h.1.2)

theorem ctxFlush (a0 : Req) (a1 : Nat) (a2 : Nat) :
    Statement (.ctxFlush a0 a1 a2) := fun h => by
  simp only [Instr.wf, Bool.and_eq_true] at h
  exact one (die_lt h.1.2)

theorem chuteFlushScan (a0 : Nat) (a1 : Nat) :
    Statement (.chuteFlushScan a0 a1) := fun h => by
  simp only [Instr.wf, Bool.and_eq_true] at h
  exact one (die_lt h.1)

theorem ctxFence (a0 : Req) (a1 : Nat) (a2 : Nat) :
    Statement (.ctxFence a0 a1 a2) := fun h => by
  simp only [Instr.wf, Bool.and_eq_true] at h
  exact one (die_lt h.1.2)

theorem ctxRelease (a0 : Req) (a1 : Nat) (a2 : Nat) :
    Statement (.ctxRelease a0 a1 a2) := fun h => by
  simp only [Instr.wf, Bool.and_eq_true] at h
  exact one (die_lt h.1.2)

theorem followerRejoin (a0 : Nat) (a1 : Nat) :
    Statement (.followerRejoin a0 a1) := fun h => by
  simp only [Instr.wf, Bool.and_eq_true] at h
  exact one (die_lt h.1)

theorem descriptorWrite (a0 : Req) (a1 : Nat) (a2 : Nat) (a3 : Nat) (a4 : Word) :
    Statement (.descriptorWrite a0 a1 a2 a3 a4) := fun h => by
  simp only [Instr.wf, Bool.and_eq_true] at h
  exact one (die_lt h.1.1.2)

theorem ctxCommitGo (a0 : Req) (a1 : Nat) (a2 : Nat) (a3 : Word) :
    Statement (.ctxCommitGo a0 a1 a2 a3) := fun h => by
  simp only [Instr.wf, Bool.and_eq_true] at h
  exact one (die_lt h.1.2)

theorem ctxHandOver (a0 : Nat) (a1 : Nat) :
    Statement (.ctxHandOver a0 a1) := fun h => by
  simp only [Instr.wf, Bool.and_eq_true] at h
  exact one (die_lt h.1)

theorem lineBind (a0 : Nat) (a1 : Nat) :
    Statement (.lineBind a0 a1) := fun h => by
  simp only [Instr.wf, Bool.and_eq_true] at h
  exact one (die_lt h.1)

theorem lineFreeze (a0 : Nat) (a1 : Nat) :
    Statement (.lineFreeze a0 a1) := fun h => by
  simp only [Instr.wf, Bool.and_eq_true] at h
  exact one (die_lt h.1)

theorem cycleFire (a0 : Nat) (a1 : Nat) :
    Statement (.cycleFire a0 a1) := fun h => by
  simp only [Instr.wf, Bool.and_eq_true] at h
  exact one (die_lt h.1)

theorem drainComplete (a0 : Nat) (a1 : Nat) :
    Statement (.drainComplete a0 a1) := fun h => by
  simp only [Instr.wf, Bool.and_eq_true] at h
  exact one (die_lt h.1)

theorem stall (a0 : Nat) (a1 : Nat) :
    Statement (.stall a0 a1) := fun h => by
  simp only [Instr.wf, Bool.and_eq_true] at h
  exact one (die_lt h.1)

theorem blockAccept (a0 : Nat) (a1 : Nat) :
    Statement (.blockAccept a0 a1) := fun h => by
  simp only [Instr.wf, Bool.and_eq_true] at h
  exact one (die_lt h.1)

theorem lineBuild (a0 : Nat) (a1 : Nat) :
    Statement (.lineBuild a0 a1) := fun h => by
  simp only [Instr.wf, Bool.and_eq_true] at h
  exact one (die_lt h.1)

theorem seamShareReceive (a0 : Nat) :
    Statement (.seamShareReceive a0) := fun h => one (die_lt h)

theorem seamCreditReturn (a0 : Nat) :
    Statement (.seamCreditReturn a0) := fun h => one (die_lt h)

theorem wfLoadStart (a0 : Req) (a1 : Nat) (a2 : Nat) (a3 : Word) :
    Statement (.wfLoadStart a0 a1 a2 a3) := fun h => by
  simp only [Instr.wf, Bool.and_eq_true] at h
  exact one (die_lt h.1.2)

theorem wfLoadCopy (a0 : Nat) (a1 : Nat) :
    Statement (.wfLoadCopy a0 a1) := fun h => by
  simp only [Instr.wf, Bool.and_eq_true] at h
  exact one (die_lt h.1)

theorem wfLoadHead (a0 : Nat) (a1 : Nat) :
    Statement (.wfLoadHead a0 a1) := fun h => by
  simp only [Instr.wf, Bool.and_eq_true] at h
  exact one (die_lt h.1)

theorem loadDone (a0 : Nat) (a1 : Nat) :
    Statement (.loadDone a0 a1) := fun h => by
  simp only [Instr.wf, Bool.and_eq_true] at h
  exact one (die_lt h.1)

theorem heaterUpdate (a0 : Nat) (a1 : Nat) :
    Statement (.heaterUpdate a0 a1) := fun h => by
  simp only [Instr.wf, Bool.and_eq_true] at h
  exact one (die_lt h.1)

theorem nozzleMapLoadDone (a0 : Nat) (a1 : Nat) :
    Statement (.nozzleMapLoadDone a0 a1) := fun h => by
  simp only [Instr.wf, Bool.and_eq_true] at h
  exact one (die_lt h.1)

theorem echoResult (a0 : Nat) (a1 : List Nat) (a2 : List Nat) :
    Statement (.echoResult a0 a1 a2) := fun h => by
  simp only [Instr.wf, Bool.and_eq_true] at h
  exact one (die_lt h.1.1)

theorem sweepStart (a0 : Req) (a1 : Nat) :
    Statement (.sweepStart a0 a1) := fun h => by
  simp only [Instr.wf, Bool.and_eq_true] at h
  exact one (die_lt h.2)

theorem sweepAbort (a0 : Req) (a1 : Nat) :
    Statement (.sweepAbort a0 a1) := fun h => by
  simp only [Instr.wf, Bool.and_eq_true] at h
  exact one (die_lt h.2)

theorem setState (a0 : Req) (a1 : Nat) (a2 : Nat) :
    Statement (.setState a0 a1 a2) := fun h => by
  simp only [Instr.wf, Bool.and_eq_true] at h
  exact one (die_lt h.2)

theorem setTrim (a0 : Req) (a1 : Nat) (a2 : Nat) :
    Statement (.setTrim a0 a1 a2) := fun h => by
  simp only [Instr.wf, Bool.and_eq_true] at h
  exact one (die_lt h.2)

theorem clearHist (a0 : Req) (a1 : Nat) :
    Statement (.clearHist a0 a1) := fun h => by
  simp only [Instr.wf, Bool.and_eq_true] at h
  exact one (die_lt h.2)

theorem refInvalid (a0 : Req) (a1 : Nat) :
    Statement (.refInvalid a0 a1) := fun h => by
  simp only [Instr.wf, Bool.and_eq_true] at h
  exact one (die_lt h.2)

theorem refValid (a0 : Req) (a1 : Nat) :
    Statement (.refValid a0 a1) := fun h => by
  simp only [Instr.wf, Bool.and_eq_true] at h
  exact one (die_lt h.2)

theorem lockTrim (a0 : Req) (a1 : Nat) (a2 : Nat) :
    Statement (.lockTrim a0 a1 a2) := fun h => by
  simp only [Instr.wf, Bool.and_eq_true] at h
  exact one (die_lt h.2)

theorem linkDiscovery (a0 : Nat) (a1 : Nat) (a2 : Option (List Byte)) :
    Statement (.linkDiscovery a0 a1 a2) := fun h => by
  simp only [Instr.wf, Bool.and_eq_true] at h
  exact one (die_lt h.1)

theorem discoveryRepeat (a0 : Nat) (a1 : Nat) :
    Statement (.discoveryRepeat a0 a1) := fun h => by
  simp only [Instr.wf, Bool.and_eq_true] at h
  exact one (die_lt h.1)

theorem linkUp (a0 : Nat) (a1 : Nat) :
    Statement (.linkUp a0 a1) := fun h => by
  simp only [Instr.wf, Bool.and_eq_true] at h
  exact one (die_lt h.1)

theorem trainAttemptTimeout (a0 : Nat) (a1 : AttemptEnd) :
    Statement (.trainAttemptTimeout a0 a1) := fun h => by
  simp only [Instr.wf, Bool.and_eq_true] at h
  exact one (die_lt h.1)

theorem frameSend (a0 : Nat) (a1 : Nat) :
    Statement (.frameSend a0 a1) := fun h => by
  simp only [Instr.wf, Bool.and_eq_true] at h
  exact one (die_lt h.1)

theorem ackReceive (a0 : Nat) (a1 : Nat) (a2 : List Chr) :
    Statement (.ackReceive a0 a1 a2) := fun h => by
  simp only [Instr.wf, Bool.and_eq_true] at h
  exact one (die_lt h.1)

theorem ackTimeout (a0 : Nat) (a1 : Nat) (a2 : Nat) :
    Statement (.ackTimeout a0 a1 a2) := fun h => by
  simp only [Instr.wf, Bool.and_eq_true] at h
  exact one (die_lt h.1.1)

theorem statusReceive (a0 : Nat) (a1 : Nat) (a2 : List Chr) :
    Statement (.statusReceive a0 a1 a2) := fun h => by
  simp only [Instr.wf, Bool.and_eq_true] at h
  exact one (die_lt h.1)

theorem statusStale (a0 : Nat) (a1 : Nat) :
    Statement (.statusStale a0 a1) := fun h => by
  simp only [Instr.wf, Bool.and_eq_true] at h
  exact one (die_lt h.1)

theorem currentLoopTick (a0 : Nat) (a1 : Nat) (a2 : Int) (a3 : Int) :
    Statement (.currentLoopTick a0 a1 a2 a3) := fun h => by
  simp only [Instr.wf, Bool.and_eq_true] at h
  exact one (die_lt h.1)

theorem bridgeFault (a0 : Nat) (a1 : Nat) :
    Statement (.bridgeFault a0 a1) := fun h => by
  simp only [Instr.wf, Bool.and_eq_true] at h
  exact one (die_lt h.1)

theorem stepInput (a0 : Nat) (a1 : Nat) (a2 : Bool) :
    Statement (.stepInput a0 a1 a2) := fun h => by
  simp only [Instr.wf, Bool.and_eq_true] at h
  exact one (die_lt h.1)

theorem profileTick (a0 : Nat) (a1 : Nat) :
    Statement (.profileTick a0 a1) := fun h => by
  simp only [Instr.wf, Bool.and_eq_true] at h
  exact one (die_lt h.1)

theorem axEnableDone (a0 : Nat) (a1 : Nat) :
    Statement (.axEnableDone a0 a1) := fun h => by
  simp only [Instr.wf, Bool.and_eq_true] at h
  exact one (die_lt h.1)

theorem axMove (a0 : Req) (a1 : Nat) (a2 : Nat) :
    Statement (.axMove a0 a1 a2) := fun h => by
  simp only [Instr.wf, Bool.and_eq_true] at h
  exact one (die_lt h.1.2)

theorem axStop (a0 : Req) (a1 : Nat) (a2 : Nat) :
    Statement (.axStop a0 a1 a2) := fun h => by
  simp only [Instr.wf, Bool.and_eq_true] at h
  exact one (die_lt h.1.2)

theorem axResume (a0 : Req) (a1 : Nat) (a2 : Nat) :
    Statement (.axResume a0 a1 a2) := fun h => by
  simp only [Instr.wf, Bool.and_eq_true] at h
  exact one (die_lt h.1.2)

theorem axHome (a0 : Req) (a1 : Nat) (a2 : Nat) :
    Statement (.axHome a0 a1 a2) := fun h => by
  simp only [Instr.wf, Bool.and_eq_true] at h
  exact one (die_lt h.1.2)

theorem axLoad (a0 : Req) (a1 : Nat) (a2 : Nat) :
    Statement (.axLoad a0 a1 a2) := fun h => by
  simp only [Instr.wf, Bool.and_eq_true] at h
  exact one (die_lt h.1.2)

theorem axClear (a0 : Req) (a1 : Nat) (a2 : Nat) :
    Statement (.axClear a0 a1 a2) := fun h => by
  simp only [Instr.wf, Bool.and_eq_true] at h
  exact one (die_lt h.1.2)

theorem axCut (a0 : Req) (a1 : Nat) (a2 : Nat) :
    Statement (.axCut a0 a1 a2) := fun h => by
  simp only [Instr.wf, Bool.and_eq_true] at h
  exact one (die_lt h.1.2)

theorem switchInputEdge (a0 : Nat) (a1 : Nat) (a2 : Nat) (a3 : Bool) :
    Statement (.switchInputEdge a0 a1 a2 a3) := fun h => by
  simp only [Instr.wf, Bool.and_eq_true] at h
  exact one (die_lt h.1.1)

theorem swEdge (a0 : Nat) (a1 : Nat) (a2 : Nat) :
    Statement (.swEdge a0 a1 a2) := fun h => by
  simp only [Instr.wf, Bool.and_eq_true] at h
  exact one (die_lt h.1.1)

theorem hcStart (a0 : Req) (a1 : Nat) (a2 : Nat) :
    Statement (.hcStart a0 a1 a2) := fun h => by
  simp only [Instr.wf, Bool.and_eq_true] at h
  exact one (die_lt h.1.2)

theorem hcCancel (a0 : Req) (a1 : Nat) (a2 : Nat) :
    Statement (.hcCancel a0 a1 a2) := fun h => by
  simp only [Instr.wf, Bool.and_eq_true] at h
  exact one (die_lt h.1.2)

theorem hcHold (a0 : Req) (a1 : Nat) (a2 : Nat) (a3 : Bool) :
    Statement (.hcHold a0 a1 a2 a3) := fun h => by
  simp only [Instr.wf, Bool.and_eq_true] at h
  exact one (die_lt h.1.2)

theorem hcResume (a0 : Req) (a1 : Nat) (a2 : Nat) :
    Statement (.hcResume a0 a1 a2) := fun h => by
  simp only [Instr.wf, Bool.and_eq_true] at h
  exact one (die_lt h.1.2)

theorem hcAbort (a0 : Req) (a1 : Nat) (a2 : Nat) :
    Statement (.hcAbort a0 a1 a2) := fun h => by
  simp only [Instr.wf, Bool.and_eq_true] at h
  exact one (die_lt h.1.2)

theorem hoistTrigger (a0 : Nat) (a1 : Nat) :
    Statement (.hoistTrigger a0 a1) := fun h => by
  simp only [Instr.wf, Bool.and_eq_true] at h
  exact one (die_lt h.1)

theorem runStart (a0 : Nat) (a1 : Nat) :
    Statement (.runStart a0 a1) := fun h => by
  simp only [Instr.wf, Bool.and_eq_true] at h
  exact one (die_lt h.1)

theorem hoistMove (a0 : Nat) (a1 : Nat) :
    Statement (.hoistMove a0 a1) := fun h => by
  simp only [Instr.wf, Bool.and_eq_true] at h
  exact one (die_lt h.1)

theorem hoistLoop (a0 : Nat) (a1 : Nat) :
    Statement (.hoistLoop a0 a1) := fun h => by
  simp only [Instr.wf, Bool.and_eq_true] at h
  exact one (die_lt h.1)

theorem hoistWait (a0 : Nat) (a1 : Nat) :
    Statement (.hoistWait a0 a1) := fun h => by
  simp only [Instr.wf, Bool.and_eq_true] at h
  exact one (die_lt h.1)

theorem waitSatisfied (a0 : Nat) (a1 : Nat) :
    Statement (.waitSatisfied a0 a1) := fun h => by
  simp only [Instr.wf, Bool.and_eq_true] at h
  exact one (die_lt h.1)

theorem waitTimeout (a0 : Nat) (a1 : Nat) :
    Statement (.waitTimeout a0 a1) := fun h => by
  simp only [Instr.wf, Bool.and_eq_true] at h
  exact one (die_lt h.1)

theorem hoistSignal (a0 : Nat) (a1 : Nat) :
    Statement (.hoistSignal a0 a1) := fun h => by
  simp only [Instr.wf, Bool.and_eq_true] at h
  exact one (die_lt h.1)

theorem hoistSeta (a0 : Nat) (a1 : Nat) :
    Statement (.hoistSeta a0 a1) := fun h => by
  simp only [Instr.wf, Bool.and_eq_true] at h
  exact one (die_lt h.1)

theorem hoistAdda (a0 : Nat) (a1 : Nat) :
    Statement (.hoistAdda a0 a1) := fun h => by
  simp only [Instr.wf, Bool.and_eq_true] at h
  exact one (die_lt h.1)

theorem hoistNop (a0 : Nat) (a1 : Nat) :
    Statement (.hoistNop a0 a1) := fun h => by
  simp only [Instr.wf, Bool.and_eq_true] at h
  exact one (die_lt h.1)

theorem hoistEnd (a0 : Nat) (a1 : Nat) :
    Statement (.hoistEnd a0 a1) := fun h => by
  simp only [Instr.wf, Bool.and_eq_true] at h
  exact one (die_lt h.1)

theorem burstStart (a0 : Nat) (a1 : Nat) :
    Statement (.burstStart a0 a1) := fun h => by
  simp only [Instr.wf, Bool.and_eq_true] at h
  exact one (die_lt h.1)

theorem burstWritten (a0 : Nat) (a1 : Nat) (a2 : BurstEnd) :
    Statement (.burstWritten a0 a1 a2) := fun h => by
  simp only [Instr.wf, Bool.and_eq_true] at h
  exact one (die_lt h.1.1)

theorem hoistWatchdog (a0 : Nat) (a1 : Nat) :
    Statement (.hoistWatchdog a0 a1) := fun h => by
  simp only [Instr.wf, Bool.and_eq_true] at h
  exact one (die_lt h.1)

theorem globalTimerFire (a0 : Nat) (a1 : Nat) :
    Statement (.globalTimerFire a0 a1) := fun h => by
  simp only [Instr.wf, Bool.and_eq_true] at h
  exact one (die_lt h.1)

theorem cqRecordWrite (a0 : Nat) (a1 : Nat) :
    Statement (.cqRecordWrite a0 a1) := fun h => by
  simp only [Instr.wf, Bool.and_eq_true] at h
  exact one (die_lt h.1)

theorem cqSizeWrite (a0 : Req) (a1 : Nat) (a2 : Nat) (a3 : Word) :
    Statement (.cqSizeWrite a0 a1 a2 a3) := fun h => by
  simp only [Instr.wf, Bool.and_eq_true] at h
  exact one (die_lt h.1.2)

theorem cqConsWrite (a0 : Req) (a1 : Nat) (a2 : Nat) (a3 : Word) :
    Statement (.cqConsWrite a0 a1 a2 a3) := fun h => by
  simp only [Instr.wf, Bool.and_eq_true] at h
  exact one (die_lt h.1.2)

theorem chutePush (a0 : Req) (a1 : Nat) (a2 : Nat) (a3 : Nat) (a4 : Word) :
    Statement (.chutePush a0 a1 a2 a3 a4) := fun h => by
  simp only [Instr.wf, Bool.and_eq_true] at h
  exact one (die_lt h.1.1.2)

theorem chutePop (a0 : Req) (a1 : Nat) (a2 : Nat) (a3 : Nat) :
    Statement (.chutePop a0 a1 a2 a3) := fun h => by
  simp only [Instr.wf, Bool.and_eq_true] at h
  exact one (die_lt h.1.1.2)

theorem memWindowWrite (a0 : Req) (a1 : Nat) (a2 : Nat) (a3 : List Byte) (a4 : Bool) (a5 : List Nat) :
    Statement (.memWindowWrite a0 a1 a2 a3 a4 a5) := fun h => by
  simp only [Instr.wf, Bool.and_eq_true] at h
  exact one (die_lt h.1.2)

theorem memWindowRead (a0 : Req) (a1 : Nat) (a2 : Nat) (a3 : Nat) :
    Statement (.memWindowRead a0 a1 a2 a3) := fun h => by
  simp only [Instr.wf, Bool.and_eq_true] at h
  exact one (die_lt h.1.1.2)

theorem memtestRegionStart (a0 : Nat) :
    Statement (.memtestRegionStart a0) := fun h => one (die_lt h)

theorem memtestPhaseDone (a0 : Nat) (a1 : List Nat) :
    Statement (.memtestPhaseDone a0 a1) := fun h => one (die_lt h)

theorem repairMapSave (a0 : Nat) :
    Statement (.repairMapSave a0) := fun h => one (die_lt h)

theorem retDataWrite (a0 : Req) (a1 : Nat) (a2 : Word) :
    Statement (.retDataWrite a0 a1 a2) := fun h => by
  simp only [Instr.wf, Bool.and_eq_true] at h
  exact one (die_lt h.2)

theorem retDataRead (a0 : Req) (a1 : Nat) :
    Statement (.retDataRead a0 a1) := fun h => by
  simp only [Instr.wf, Bool.and_eq_true] at h
  exact one (die_lt h.2)

theorem retWordWritten (a0 : Nat) :
    Statement (.retWordWritten a0) := fun h => one (die_lt h)

theorem asRequest (a0 : Req) (a1 : Nat) (a2 : Nat) :
    Statement (.asRequest a0 a1 a2) := fun h => by
  simp only [Instr.wf, Bool.and_eq_true] at h
  exact one (die_lt h.1.2)

theorem asSave (a0 : Req) (a1 : Nat) :
    Statement (.asSave a0 a1) := fun h => by
  simp only [Instr.wf, Bool.and_eq_true] at h
  exact one (die_lt h.2)

theorem asRestore (a0 : Req) (a1 : Nat) :
    Statement (.asRestore a0 a1) := fun h => by
  simp only [Instr.wf, Bool.and_eq_true] at h
  exact one (die_lt h.2)

theorem asCancel (a0 : Req) (a1 : Nat) (a2 : Nat) :
    Statement (.asCancel a0 a1 a2) := fun h => by
  simp only [Instr.wf, Bool.and_eq_true] at h
  exact one (die_lt h.1.2)

theorem saved (a0 : Nat) :
    Statement (.saved a0) := fun h => one (die_lt h)

theorem restored (a0 : Nat) :
    Statement (.restored a0) := fun h => one (die_lt h)

theorem assayRunStart (a0 : Nat) (a1 : Nat) :
    Statement (.assayRunStart a0 a1) := fun h => by
  simp only [Instr.wf, Bool.and_eq_true] at h
  exact one (die_lt h.1)

theorem assayTakeover (a0 : Nat) (a1 : Nat) :
    Statement (.assayTakeover a0 a1) := fun h => by
  simp only [Instr.wf, Bool.and_eq_true] at h
  exact one (die_lt h.1)

theorem assayMeasureStart (a0 : Nat) (a1 : Nat) :
    Statement (.assayMeasureStart a0 a1) := fun h => by
  simp only [Instr.wf, Bool.and_eq_true] at h
  exact one (die_lt h.1)

theorem assayMeasureEnd (a0 : Nat) (a1 : Nat) (a2 : List Int) :
    Statement (.assayMeasureEnd a0 a1 a2) := fun h => by
  simp only [Instr.wf, Bool.and_eq_true] at h
  exact one (die_lt h.1)

theorem runDone (a0 : Nat) (a1 : Nat) :
    Statement (.runDone a0 a1) := fun h => by
  simp only [Instr.wf, Bool.and_eq_true] at h
  exact one (die_lt h.1)

theorem tabRead (a0 : Req) (a1 : Nat) :
    Statement (.tabRead a0 a1) := fun h => by
  simp only [Instr.wf, Bool.and_eq_true] at h
  exact one (die_lt h.2)

theorem tabWrite (a0 : Req) (a1 : Nat) :
    Statement (.tabWrite a0 a1) := fun h => by
  simp only [Instr.wf, Bool.and_eq_true] at h
  exact one (die_lt h.2)

theorem tabClear (a0 : Req) (a1 : Nat) :
    Statement (.tabClear a0 a1) := fun h => by
  simp only [Instr.wf, Bool.and_eq_true] at h
  exact one (die_lt h.2)

theorem tempUpdate (a0 : Nat) (a1 : List Int) (a2 : Nat) :
    Statement (.tempUpdate a0 a1 a2) := fun h => one (die_lt h)

theorem thermistorSample (a0 : Nat) (a1 : Nat) (a2 : Nat) :
    Statement (.thermistorSample a0 a1 a2) := fun h => by
  simp only [Instr.wf, Bool.and_eq_true] at h
  exact one (die_lt h.1)

theorem warnClear (a0 : Nat) (a1 : Option Nat) :
    Statement (.warnClear a0 a1) := fun h => by
  simp only [Instr.wf, Bool.and_eq_true] at h
  exact one (die_lt h.1)

theorem graceExpiry (a0 : Nat) (a1 : Option Nat) :
    Statement (.graceExpiry a0 a1) := fun h => by
  simp only [Instr.wf, Bool.and_eq_true] at h
  exact one (die_lt h.1)

theorem critical (a0 : Nat) (a1 : Nat) :
    Statement (.critical a0 a1) := fun h => by
  simp only [Instr.wf, Bool.and_eq_true] at h
  exact one (die_lt h.1)

theorem lampMeasure (a0 : Nat) :
    Statement (.lampMeasure a0) := fun h => one (die_lt h)

theorem lampMeasureCmd (a0 : Req) (a1 : Nat) :
    Statement (.lampMeasureCmd a0 a1) := fun h => by
  simp only [Instr.wf, Bool.and_eq_true] at h
  exact one (die_lt h.2)

theorem measured (a0 : Nat) (a1 : List (Nat × Nat)) :
    Statement (.measured a0 a1) := fun h => one (die_lt h)

theorem calintExpiry (a0 : Nat) (a1 : Nat) :
    Statement (.calintExpiry a0 a1) := fun h => by
  simp only [Instr.wf, Bool.and_eq_true] at h
  exact one (die_lt h.1)

theorem histWritten (a0 : Nat) :
    Statement (.histWritten a0) := fun h => one (die_lt h)

theorem histClear (a0 : Req) (a1 : Nat) :
    Statement (.histClear a0 a1) := fun h => by
  simp only [Instr.wf, Bool.and_eq_true] at h
  exact one (die_lt h.2)

theorem mailboxPost (a0 : Req) (a1 : Nat) (a2 : Bool) (a3 : Nat) (a4 : Word) :
    Statement (.mailboxPost a0 a1 a2 a3 a4) := fun h => by
  simp only [Instr.wf, Bool.and_eq_true] at h
  exact one (die_lt h.1.2)

theorem mailboxTake (a0 : Nat) :
    Statement (.mailboxTake a0) := fun h => one (die_lt h)

theorem inDone (a0 : Nat) (a1 : Bool) (a2 : Nat) :
    Statement (.inDone a0 a1 a2) := fun h => by
  simp only [Instr.wf, Bool.and_eq_true] at h
  exact one (die_lt h.1)

theorem getInfo (a0 : Nat) (a1 : Bool) (a2 : Nat) :
    Statement (.getInfo a0 a1 a2) := fun h => by
  simp only [Instr.wf, Bool.and_eq_true] at h
  exact one (die_lt h.1)

theorem ping (a0 : Nat) (a1 : Bool) (a2 : Nat) :
    Statement (.ping a0 a1 a2) := fun h => by
  simp only [Instr.wf, Bool.and_eq_true] at h
  exact one (die_lt h.1)

theorem headDiscover (a0 : Nat) (a1 : Bool) (a2 : Nat) (a3 : Option (List Byte)) :
    Statement (.headDiscover a0 a1 a2 a3) := fun h => by
  simp only [Instr.wf, Bool.and_eq_true] at h
  exact one (die_lt h.1)

theorem sbRead (a0 : Nat) (a1 : Bool) (a2 : Nat) (a3 : Option (List Byte)) :
    Statement (.sbRead a0 a1 a2 a3) := fun h => by
  simp only [Instr.wf, Bool.and_eq_true] at h
  exact one (die_lt h.1)

theorem sbWrite (a0 : Nat) (a1 : Bool) (a2 : Nat) (a3 : Bool) :
    Statement (.sbWrite a0 a1 a2 a3) := fun h => by
  simp only [Instr.wf, Bool.and_eq_true] at h
  exact one (die_lt h.1)

theorem captureRef (a0 : Nat) (a1 : Bool) (a2 : Nat) :
    Statement (.captureRef a0 a1 a2) := fun h => by
  simp only [Instr.wf, Bool.and_eq_true] at h
  exact one (die_lt h.1)

theorem assayRequest (a0 : Nat) (a1 : Bool) (a2 : Nat) :
    Statement (.assayRequest a0 a1 a2) := fun h => by
  simp only [Instr.wf, Bool.and_eq_true] at h
  exact one (die_lt h.1)

theorem abortLong (a0 : Nat) (a1 : Bool) (a2 : Nat) :
    Statement (.abortLong a0 a1 a2) := fun h => by
  simp only [Instr.wf, Bool.and_eq_true] at h
  exact one (die_lt h.1)

theorem tallyClear (a0 : Nat) (a1 : Bool) (a2 : Nat) :
    Statement (.tallyClear a0 a1 a2) := fun h => by
  simp only [Instr.wf, Bool.and_eq_true] at h
  exact one (die_lt h.1)

theorem fwRestart (a0 : Nat) (a1 : Bool) (a2 : Nat) :
    Statement (.fwRestart a0 a1 a2) := fun h => by
  simp only [Instr.wf, Bool.and_eq_true] at h
  exact one (die_lt h.1)

theorem lifecycleAdvance (a0 : Nat) (a1 : Bool) (a2 : Nat) (a3 : Bool) :
    Statement (.lifecycleAdvance a0 a1 a2 a3) := fun h => by
  simp only [Instr.wf, Bool.and_eq_true] at h
  exact one (die_lt h.1)

theorem longCmdTimeout (a0 : Nat) :
    Statement (.longCmdTimeout a0) := fun h => one (die_lt h)

theorem fwWatchdogRestart (a0 : Nat) :
    Statement (.fwWatchdogRestart a0) := fun h => one (die_lt h)

theorem fwStarted (a0 : Nat) :
    Statement (.fwStarted a0) := fun h => one (die_lt h)

theorem outFull (a0 : Nat) (a1 : Bool) (a2 : Nat) :
    Statement (.outFull a0 a1 a2) := fun h => by
  simp only [Instr.wf, Bool.and_eq_true] at h
  exact one (die_lt h.1)

theorem noticeAck (a0 : Req) (a1 : Nat) (a2 : Bool) (a3 : Nat) (a4 : Word) :
    Statement (.noticeAck a0 a1 a2 a3 a4) := fun h => by
  simp only [Instr.wf, Bool.and_eq_true] at h
  exact one (die_lt h.1.2)

theorem inStuck (a0 : Nat) (a1 : Bool) (a2 : Nat) :
    Statement (.inStuck a0 a1 a2) := fun h => by
  simp only [Instr.wf, Bool.and_eq_true] at h
  exact one (die_lt h.1)

theorem outStuck (a0 : Nat) (a1 : Bool) (a2 : Nat) :
    Statement (.outStuck a0 a1 a2) := fun h => by
  simp only [Instr.wf, Bool.and_eq_true] at h
  exact one (die_lt h.1)

theorem flr :
    Statement (.flr) := fun _ _ h => nomatch h

theorem conventionalReset :
    Statement (.conventionalReset) := fun _ _ h => nomatch h

theorem sessionStart (a0 : Req) (a1 : Nat) (a2 : Bool) :
    Statement (.sessionStart a0 a1 a2) := fun h => by
  simp only [Instr.wf, Bool.and_eq_true] at h
  exact one (die_lt h.2)

theorem sessionCheck (a0 : Req) (a1 : Nat) (a2 : Word) :
    Statement (.sessionCheck a0 a1 a2) := fun h => by
  simp only [Instr.wf, Bool.and_eq_true] at h
  exact one (die_lt h.2)

theorem sessionClose (a0 : Req) (a1 : Nat) :
    Statement (.sessionClose a0 a1) := fun h => by
  simp only [Instr.wf, Bool.and_eq_true] at h
  exact one (die_lt h.2)

theorem sessionTimeout (a0 : Nat) :
    Statement (.sessionTimeout a0) := fun h => one (die_lt h)

theorem backoffEnd (a0 : Nat) :
    Statement (.backoffEnd a0) := fun h => one (die_lt h)

theorem guardWrite (a0 : Req) (a1 : Nat) (a2 : Nat) (a3 : Word) :
    Statement (.guardWrite a0 a1 a2 a3) := fun h => by
  simp only [Instr.wf, Bool.and_eq_true] at h
  exact one (die_lt h.1.2)

theorem extest (a0 : Nat) :
    Statement (.extest a0) := fun h => one (die_lt h)

theorem samplePreload (a0 : Nat) :
    Statement (.samplePreload a0) := fun h => one (die_lt h)

theorem idcode (a0 : Nat) :
    Statement (.idcode a0) := fun h => one (die_lt h)

theorem clamp (a0 : Nat) :
    Statement (.clamp a0) := fun h => one (die_lt h)

theorem highz (a0 : Nat) :
    Statement (.highz a0) := fun h => one (die_lt h)

theorem extestPulse (a0 : Nat) :
    Statement (.extestPulse a0) := fun h => one (die_lt h)

theorem extestTrain (a0 : Nat) :
    Statement (.extestTrain a0) := fun h => one (die_lt h)

theorem dbgStatus (a0 : Nat) :
    Statement (.dbgStatus a0) := fun h => one (die_lt h)

theorem unlockChal (a0 : Nat) :
    Statement (.unlockChal a0) := fun h => one (die_lt h)

theorem unlockResp (a0 : Nat) (a1 : Nat) :
    Statement (.unlockResp a0 a1) := fun h => one (die_lt h)

theorem dbgAccess (a0 : Nat) (a1 : Bool) (a2 : Nat) (a3 : Nat) :
    Statement (.dbgAccess a0 a1 a2 a3) := fun h => one (die_lt h)

theorem dbgClose (a0 : Nat) :
    Statement (.dbgClose a0) := fun h => one (die_lt h)

theorem bypass (a0 : Nat) (a1 : Nat) :
    Statement (.bypass a0 a1) := fun h => by
  simp only [Instr.wf, Bool.and_eq_true] at h
  exact one (die_lt h.1)

theorem dbgCtrlClose (a0 : Req) (a1 : Nat) :
    Statement (.dbgCtrlClose a0 a1) := fun h => by
  simp only [Instr.wf, Bool.and_eq_true] at h
  exact one (die_lt h.2)

theorem trstLow (a0 : Nat) :
    Statement (.trstLow a0) := fun h => one (die_lt h)

theorem ijlAllowWrite (a0 : Req) (a1 : Nat) (a2 : Bool) :
    Statement (.ijlAllowWrite a0 a1 a2) := fun h => by
  simp only [Instr.wf, Bool.and_eq_true] at h
  exact one (die_lt h.2)

theorem dormantEntry :
    Statement (.dormantEntry) := fun _ _ h => nomatch h

theorem vinOff :
    Statement (.vinOff) := fun _ _ h => nomatch h

theorem wakePin (a0 : Nat) (a1 : Bool) :
    Statement (.wakePin a0 a1) := fun _ _ h => nomatch h

theorem wakeAlarm :
    Statement (.wakeAlarm) := fun _ _ h => nomatch h

theorem vinBrownout :
    Statement (.vinBrownout) := fun _ _ h => nomatch h

theorem vaonReset :
    Statement (.vaonReset) := fun _ _ h => nomatch h

theorem powerGood (a0 : Nat) :
    Statement (.powerGood a0) := fun h => one (die_lt h)

theorem fuseRead (a0 : Nat) (a1 : Fuses) :
    Statement (.fuseRead a0 a1) := fun h => by
  simp only [Instr.wf, Bool.and_eq_true] at h
  exact one (die_lt h.1)

theorem crystal :
    Statement (.crystal) := fun _ _ h => nomatch h

theorem pllLock (a0 : Nat) :
    Statement (.pllLock a0) := fun h => one (die_lt h)

theorem memRepair (a0 : Nat) :
    Statement (.memRepair a0) := fun h => one (die_lt h)

theorem burimTrain (a0 : Nat) (a1 : Nat) :
    Statement (.burimTrain a0 a1) := fun h => by
  simp only [Instr.wf, Bool.and_eq_true] at h
  exact one (die_lt h.1)

theorem fwVerify (a0 : Nat) (a1 : Nat) :
    Statement (.fwVerify a0 a1) := fun h => one (die_lt h)

theorem pcieLink (a0 : Nat) (a1 : Nat) (a2 : Nat) :
    Statement (.pcieLink a0 a1 a2) := fun _ _ h => nomatch h

theorem initialAssay (a0 : Nat) :
    Statement (.initialAssay a0) := fun h => one (die_lt h)

theorem bootStepTimeout (a0 : Nat) (a1 : Nat) (a2 : Nat) :
    Statement (.bootStepTimeout a0 a1 a2) := fun h => by
  simp only [Instr.wf, Bool.and_eq_true] at h
  exact one (die_lt h.1)

theorem bootRestart :
    Statement (.bootRestart) := fun _ _ h => nomatch h

theorem tlClear (a0 : Req) (a1 : Nat) (a2 : Word) :
    Statement (.tlClear a0 a1 a2) := fun h => by
  simp only [Instr.wf, Bool.and_eq_true] at h
  exact one (die_lt h.2)

theorem cleared (a0 : Nat) :
    Statement (.cleared a0) := fun h => one (die_lt h)

theorem pageFence (a0 : Req) (a1 : Pg) :
    Statement (.pageFence a0 a1) := fun h => by
  simp only [Instr.wf, Bool.and_eq_true] at h
  exact one (page_lt h.2)

theorem fenceRelease (a0 : Req) (a1 : Pg) (a2 : Bool) :
    Statement (.fenceRelease a0 a1 a2) := fun h => by
  simp only [Instr.wf, Bool.and_eq_true] at h
  exact one (page_lt h.2)

theorem releaseComplete (a0 : Pg) :
    Statement (.releaseComplete a0) := fun h => one (page_lt h)

theorem dieFenced (a0 : Req) (a1 : Word) :
    Statement (.dieFenced a0 a1) := fun _ _ h => nomatch h

theorem watchdog (a0 : Nat) :
    Statement (.watchdog a0) := fun h => one (die_lt h)

theorem completionTimeout (a0 : ReadTimeout) :
    Statement (.completionTimeout a0) := fun _ _ h => nomatch h

theorem msixPendingSend (a0 : Nat) :
    Statement (.msixPendingSend a0) := fun _ _ h => nomatch h

theorem pcieLinkUp (a0 : Nat) (a1 : Nat) (a2 : Nat) :
    Statement (.pcieLinkUp a0 a1 a2) := fun _ _ h => nomatch h

theorem flitReceive (a0 : Nat) (a1 : Nat) (a2 : FlitIn) :
    Statement (.flitReceive a0 a1 a2) := fun h => by
  simp only [Instr.wf, Bool.and_eq_true] at h
  exact one (die_lt h.1.1)

theorem nakReceive (a0 : Nat) (a1 : Nat) (a2 : Nat) :
    Statement (.nakReceive a0 a1 a2) := fun h => by
  simp only [Instr.wf, Bool.and_eq_true] at h
  exact one (die_lt h.1.1)

theorem burimRetrain (a0 : Nat) (a1 : Nat) :
    Statement (.burimRetrain a0 a1) := fun h => by
  simp only [Instr.wf, Bool.and_eq_true] at h
  exact one (die_lt h.1)

theorem burimRetrainDone (a0 : Nat) (a1 : Nat) (a2 : Bool) :
    Statement (.burimRetrainDone a0 a1 a2) := fun h => by
  simp only [Instr.wf, Bool.and_eq_true] at h
  exact one (die_lt h.1)

theorem periodSpeedLimit (a0 : Nat) (a1 : Nat) :
    Statement (.periodSpeedLimit a0 a1) := fun h => by
  simp only [Instr.wf, Bool.and_eq_true] at h
  exact one (die_lt h.1)

theorem upstreamCodeErrors (a0 : Nat) (a1 : Nat) :
    Statement (.upstreamCodeErrors a0 a1) := fun h => by
  simp only [Instr.wf, Bool.and_eq_true] at h
  exact one (die_lt h.1)

theorem pcieLinkDown (a0 : Nat) :
    Statement (.pcieLinkDown a0) := fun _ _ h => nomatch h

theorem vaonApplied :
    Statement (.vaonApplied) := fun _ _ h => nomatch h

theorem dormantSecondsEdge :
    Statement (.dormantSecondsEdge) := fun _ _ h => nomatch h

theorem busMasterEnable :
    Statement (.busMasterEnable) := fun _ _ h => nomatch h

end Sys2Proof.Laws.Operands
end

