-- ==== Sys2Proof/Tests/Slice0.lean ====
section
/-!
SUPPORT. Tests on small states: the operands that a well-formed command may have, and for each statement a state that
meets its hypotheses and what its command does there. The figures come from the rules of the manual.
-/

set_option Elab.async false
namespace Sys2Proof.Tests

open Sys2Proof Sys2Proof.Machine

/-- The command completes, in a state for which a check holds. -/
def after (i : Instr) (s : State) (f : State → Bool) : Bool := match exec i s with | .next t => f t | _ => false
/-- A part of two dies, its counters running. -/
def twoDies : State :=
  setDie (setDie { State.reset with part := { dies := 2, tier := .t16E } } 0 { counting := true, pllLocked := true, tick := 1000 }) 1
    { counting := true, pllLocked := true, tick := 1000 }
/-- A host of the non-secure window. -/
def host : Req := ⟨.nsHost, 1⟩
/-- The descriptor words of a small context. -/
def words : Tbl Nat Word := [(0, 0xA0000#24), (1, 9#24), (3, 1000#24), (9, 1#24), (16, 0#24), (20, 1#24)]
/-- A die that can print: mode 3, head port 0, encoder channel 2 and chute 0 running, one context. -/
def job (x : CtxSt) : State :=
  let s := setPstate (setPstate (setPstate (wf twoDies (pgMode 0) Off.MODE_CUR 0 3 3) (pgHp 0 0) stRunning) (pgEnc 0 2) stRunning) (pgChute 0 0) stRunning
  setCtx (setEnc (setPort s 0 0 { link := 3 }) 0 2 { jet := { v := 2 ^ 27, t := 1000, valid := true } }) 0 0 { x with act := words, lat := words }

/-! Operands out of their range make a command ill-formed, one theorem for each check of WellFormed. -/

theorem test_wf_accepts : (Instr.modeReqWrite host 7 3#24).wf = true ∧ (Instr.chutePush host 7 63 255 0#24).wf = true := by decide
theorem test_wf_refuses_requester : (Instr.modeReqWrite ⟨.nsHost, 65536⟩ 0 3#24).wf = false := by decide
theorem test_wf_refuses_die : (Instr.modeReqWrite host 8 3#24).wf = false := by decide
theorem test_wf_refuses_port : (Instr.wfLoadStart host 0 16 0#24).wf = false := by decide
theorem test_wf_refuses_encoder : (Instr.encCount 0 8 [true] [false]).wf = false := by decide
theorem test_wf_refuses_sample_window : (Instr.encCount 0 7 [] [true]).wf = false ∧ (Instr.index 0 7 (List.replicate 17 true)).wf = false := by decide
theorem test_wf_refuses_axis : (Instr.currentLoopTick 0 4 0 0).wf = false := by decide
theorem test_wf_refuses_context : (Instr.ctxArm host 0 256).wf = false := by decide
theorem test_wf_refuses_hoist : (Instr.hcStart host 0 32).wf = false := by decide
theorem test_wf_refuses_chute : (Instr.chuteFlushScan 0 64).wf = false := by decide
theorem test_wf_refuses_queue : (Instr.cqRecordWrite 0 4).wf = false := by decide
theorem test_wf_refuses_timer : (Instr.globalTimerFire 0 4).wf = false := by decide
theorem test_wf_refuses_retry : (Instr.ackTimeout 0 0 256).wf = false := by decide
theorem test_wf_refuses_assay : (Instr.asRequest host 0 51).wf = false ∧ (Instr.asRequest host 0 255).wf = true := by decide
theorem test_wf_refuses_assay_class : (Instr.assayRunStart 0 3).wf = false := by decide
theorem test_wf_refuses_mailbox : (Instr.mailboxPost host 0 false 4 0#24).wf = false := by decide
theorem test_wf_refuses_pin : (Instr.product 0 4 true).wf = false := by decide
theorem test_wf_refuses_switch : (Instr.switchInputEdge 0 0 3 true).wf = false := by decide
theorem test_wf_refuses_burim : (Instr.burimTrain 0 2).wf = false := by decide
theorem test_wf_refuses_push : (Instr.chutePush host 0 0 256 0#24).wf = false := by decide
theorem test_wf_refuses_island : (Instr.calintExpiry 0 11).wf = false := by decide
theorem test_wf_refuses_descriptor : (Instr.descriptorWrite host 0 0 64 0#24).wf = false := by decide
theorem test_wf_refuses_offset : (Instr.wideLWrite host (pgTb 0) 0x42 0).wf = false ∧ (Instr.wideLWrite host (pgTb 0) 0x1000 0).wf = false := by decide
theorem test_wf_refuses_window : (Instr.unsupportedRequest host 0 0x8000000 true).wf = false := by decide
theorem test_wf_refuses_length : (Instr.memWindowRead host 0 0 4097).wf = false := by decide
theorem test_wf_refuses_vector : (Instr.msixPendingSend 128).wf = false := by decide
theorem test_wf_refuses_bar : (Instr.unsupportedRequest host 3 0 true).wf = false := by decide
theorem test_wf_refuses_step : (Instr.bootStepTimeout 0 9 0).wf = false := by decide
theorem test_wf_refuses_ltssm : (Instr.pcieLinkDown 64).wf = false := by decide
theorem test_wf_refuses_sequence : (Instr.nakReceive 0 0 1024).wf = false := by decide
theorem test_wf_refuses_tap : (Instr.bypass 0 256).wf = false := by decide
theorem test_wf_refuses_tag : (Instr.completionTimeout ⟨256, 0⟩).wf = false ∧ (Instr.completionTimeout ⟨0, 2 ^ 24⟩).wf = false := by decide
theorem test_wf_refuses_scope : (Instr.critical 0 17).wf = false ∧ (Instr.warnClear 0 (some 16)).wf = false := by decide
theorem test_wf_refuses_attempt : (Instr.trainAttemptTimeout 0 ⟨16, 1⟩).wf = false ∧ (Instr.trainAttemptTimeout 0 ⟨0, 4⟩).wf = false := by decide
theorem test_wf_refuses_read_size : (Instr.wideLRead host (.reg (pgTb 0) 0x40) 5).wf = false := by decide
theorem test_wf_refuses_converter : (Instr.echoResult 0 [4096] []).wf = false := by decide
theorem test_wf_refuses_place : (Instr.burstWritten 0 0 ⟨.data [], [131072]⟩).wf = false := by decide
theorem test_wf_refuses_page : (Instr.evtEnWrite host ⟨0, false, 256⟩ 0#24).wf = false := by decide
theorem test_wf_refuses_target : (Instr.registerWrite host (.msixTable 0 4) ⟨4, true, false⟩ 0).wf = false := by decide
theorem test_wf_refuses_shape : (Instr.registerWrite host (.config 0) ⟨0, true, false⟩ 0).wf = false := by decide
theorem test_wf_refuses_frame : ({ raw := 0, crc := 64 } : SerFrame).wf = false := by decide
theorem test_wf_refuses_flit : ({ kind := 4 } : FlitIn).wf = false ∧ ({ kind := 1, vc := 4 } : FlitIn).wf = false := by decide
theorem test_wf_refuses_fuses : (⟨true, true, 2 ^ 48, 0, 0, 0, 0, 0⟩ : Fuses).wf = false := by decide

/-! The table has no encodings, so no word spells a command. -/

theorem test_no_word : decodeTableWord 32 0 = none ∧ State.reset.withFetchWord 32 0 = State.reset := by decide +kernel

/-! What each statement's hypotheses meet, and what follows there. -/

theorem test_step_front :
    (fun s : State => s.pending = [.modeLeadWrite host 0 600#24, .secEdge] ∧ (match step s with | .next t => t.pending == [.secEdge] && rf t (pgMode 0) Off.MODE_LEAD 0 16 == 600 | _ => false) = true)
    { twoDies with pending := [.modeLeadWrite host 0 600#24, .secEdge] } := by decide +kernel

theorem test_step_idle :
    twoDies.pending = [] ∧ pllOff twoDies 0 = false ∧ (match step twoDies with | .next t => t.clock == twoDies.clock + 1 && now t 0 == 1001 && now t 1 == 1001 | _ => false) = true := by decide +kernel

theorem test_step_idle_standby :
    pllOff (setDie twoDies 1 { counting := true, tick := 7 }) 1 = true ∧
    (match step { setDie twoDies 1 { counting := true, tick := 7 } with clock := 14 } with | .next t => now t 0 == 1001 && now t 1 == 12 | _ => false) = true := by decide +kernel

theorem test_step_idle_wrap :
    (match step (setDie twoDies 1 { counting := true, pllLocked := true, tick := 2 ^ 48 - 1 }) with | .next t => now t 1 == 0 && rb t (pgTb 1) Off.EVT_LAT 3 && !rb t (pgTb 0) Off.EVT_LAT 3 | _ => false) = true := by decide +kernel

theorem test_step_invariant :
    (fun s : State => Memory.wf s.mem ∧ Memory.wf s.ret ∧ (match step s with | .next t => decide (Memory.wf t.mem ∧ Memory.wf t.ret) && t.mem != s.mem | _ => false) = true)
    { twoDies with pending := [.memWindowWrite host 0 0x400000 [1#8, 0#8, 2#8] false []] } := by decide +kernel

theorem test_register_frame :
    (pgKind (pgTb 0) ≠ .absent ∧ pgKind (pgTb 0) ∉ mayWrite (.modeLeadWrite host 0 600#24) ∧ pageOperand (.modeLeadWrite host 0 600#24) ≠ some (pgTb 0)) ∧
    after (.modeLeadWrite host 0 600#24) twoDies (fun t => t != twoDies) := by decide +kernel

theorem test_register_frame_page :
    (pgKind (pgTb 1) ∉ mayWrite (.evtEnWrite host (pgTb 0) 1#24) ∧ pageOperand (.evtEnWrite host (pgTb 0) 1#24) ≠ some (pgTb 1)) ∧
    after (.evtEnWrite host (pgTb 0) 1#24) twoDies (fun t => t != twoDies && rd t (pgTb 1) Off.EVT_EN == 0#24) := by decide +kernel

theorem test_engine_frame :
    Engine.mem ∉ mayTouch (.modeLeadWrite host 0 600#24) ∧ Engine.mem ∈ mayTouch (.memWindowWrite host 0 0x400000 [1#8] false []) ∧
    after (.modeLeadWrite host 0 600#24) twoDies (fun t => t != twoDies && t.mem == twoDies.mem) := by decide +kernel

theorem test_mode_request :
    Taken twoDies host (pgMode 0) Off.MODE_REQ ∧ inTransition twoDies = false ∧
    bit (rd twoDies (pgMode 0) Off.MODE_ALLOWED) 3 = true ∧ activeRates twoDies = [] ∧
    after (.modeReqWrite host 0 3#24) twoDies (fun t => rb t (pgMode 0) Off.MODE_CUR 8 && t.pkg.nextMode == 3 && rf t (pgMode 0) Off.MODE_STAT 0 8 == 1
      && rd48 t (pgMode 0) Off.MODE_SW_TS_L == 1000 + modeLead twoDies 3) := by decide +kernel

def quiet : State := wr twoDies (pgMode 0) Off.MODE_ALLOWED 0xFF#24
theorem test_mode_dormant :
    Taken quiet host (pgMode 0) Off.MODE_REQ ∧ inTransition quiet = false ∧ bit (rd quiet (pgMode 0) Off.MODE_ALLOWED) 0 = true ∧
    activeRates quiet = [] ∧ after (.modeReqWrite host 0 0#24) quiet (fun t => rd48 t (pgMode 0) Off.MODE_SW_TS_L == 30001000 && t.pkg.nextMode == 0 && rb t (pgMode 0) Off.MODE_CUR 8) := by decide +kernel

def changing : State := { wb twoDies (pgMode 0) Off.MODE_CUR 8 true with pkg := { twoDies.pkg with nextMode := 3, settleAt := 70 } }
theorem test_mode_refused :
    Taken changing host (pgMode 0) Off.MODE_REQ ∧ inTransition changing = true ∧
    after (.modeReqWrite host 0 3#24) changing (fun t => rf t (pgMode 0) Off.MODE_STAT 0 8 == 0x10 && rdN t (pgMode 0) Off.MODE_REFUSED == 1) := by decide +kernel

theorem test_mode_not_allowed :
    Taken twoDies host (pgMode 0) Off.MODE_REQ ∧ bit (rd (wr twoDies (pgMode 0) Off.MODE_ALLOWED 0#24) (pgMode 0) Off.MODE_ALLOWED) 3 = false ∧
    after (.modeReqWrite host 0 3#24) (wr twoDies (pgMode 0) Off.MODE_ALLOWED 0#24) (fun t => rf t (pgMode 0) Off.MODE_STAT 0 8 == 0x11) := by decide +kernel

theorem test_mode_active :
    activeRates (job { st := .printing }) ≠ [] ∧ modeMax 2 = 0 ∧
    after (.modeReqWrite host 0 2#24) (wr (job { st := .printing }) (pgMode 0) Off.MODE_ALLOWED 0xFF#24) (fun t => rf t (pgMode 0) Off.MODE_STAT 0 8 == 0x12) := by decide +kernel

theorem test_mode_lead :
    Taken twoDies host (pgMode 0) Off.MODE_LEAD ∧
    after (.modeLeadWrite host 0 7#24) twoDies (· == wf twoDies (pgMode 0) Off.MODE_LEAD 0 16 500) := by decide +kernel

theorem test_mode_elsewhere :
    (Taken twoDies host (pgMode 1) Off.MODE_LEAD ∧ Taken twoDies host (pgMode 1) Off.MODE_REQ) ∧
    after (.modeLeadWrite host 1 700#24) twoDies (fun t => rb t (pgMode 1) Off.EVT_LAT 3 && rd t (pgMode 1) Off.MODE_LEAD == rd twoDies (pgMode 1) Off.MODE_LEAD) ∧
    after (.modeReqWrite host 1 3#24) twoDies (fun t => rb t (pgMode 1) Off.EVT_LAT 3 && !inTransition t) := by decide +kernel

theorem test_mode_changed :
    inTransition changing = true ∧ changing.pkg.nextMode = 3 ∧ isolated changing 0 = false ∧ isolated changing 1 = false ∧
    after .modeChanged changing (fun t => rf t (pgMode 1) Off.MODE_CUR 0 3 == 3 && rf t (pgMode 0) Off.MODE_STAT 0 8 == 2 && rf t (pgMode 1) Off.MODE_CUR 4 3 == modeOf changing 1) := by decide +kernel

theorem test_mode_mirror :
    (0 < 1 ∧ 1 < changing.part.dies) ∧
    after (.modeMirrorArrive 1) (wf changing (pgMode 0) Off.MODE_LEAD 0 16 600) (fun t => rf t (pgMode 1) Off.MODE_LEAD 0 16 == 600 && rb t (pgMode 1) Off.MODE_CUR 8) := by decide +kernel

theorem test_mode_settled :
    changing.pkg.settleAt ≠ 0 ∧ after .modeClockSettled changing (fun t => t.pkg.settleAt == 0 && t.clock == 70) := by decide +kernel

def loud : State := { wr (wr twoDies (pgTb 0) Off.EVT_EN 0xF#24) (pgTb 0) Off.EVT_LAT 0#24 with
  pcie := { bme := true, msixEn := true, unmasked := [0] } }
theorem test_evt_lat :
    Taken loud host (pgTb 0) Off.EVT_LAT ∧
    after (.evtLatWrite host (pgTb 0) 3#24) (wr loud (pgTb 0) Off.EVT_LAT 6#24) (fun t => rdN t (pgTb 0) Off.EVT_LAT == 4 && t.out == [.msix 0]) := by decide +kernel

theorem test_evt_en :
    Taken loud host (pgTb 0) Off.EVT_EN ∧ after (.evtEnWrite host (pgTb 0) 0x8000F0#24) loud (fun t => rdN t (pgTb 0) Off.EVT_EN == 0x800030) := by decide +kernel

theorem test_evt_set :
    Taken loud host (pgTb 0) Off.EVT_SET ∧ summary loud (pgTb 0) = false ∧ msixOpen loud 0 = true ∧
    after (.evtSetWrite host (pgTb 0) 2#24) loud (fun t => rdN t (pgTb 0) Off.EVT_LAT == 2 && t.out == [.msix 0]) := by decide +kernel

theorem test_evt_vec :
    Taken loud host (pgTb 0) Off.EVT_VEC ∧ after (.evtVecWrite host (pgTb 0) 95#24) loud (fun t => rdN t (pgTb 0) Off.EVT_VEC == 95) ∧
    after (.evtVecWrite host (pgTb 0) 96#24) loud (fun t => rdN t (pgTb 0) Off.EVT_VEC == 0) := by decide +kernel

theorem test_err_clear :
    Taken loud host (pgTb 0) Off.ERR_INFO ∧
    after (.errInfoClear host (pgTb 0)) (wr loud (pgTb 0) Off.ERR_INFO 0xC00400#24) (fun t => rdN t (pgTb 0) Off.ERR_INFO == 0x400) := by decide +kernel

theorem test_refuse_unsupplied :
    (fun s : State => powered s = false ∧ after (.registerWrite host (.reg pgTsync 0x40) ⟨4, true, false⟩ 1) s (· == s) = true)
    { twoDies with pkg := { twoDies.pkg with power := .off } } := by decide +kernel

theorem test_refuse_poisoned :
    powered twoDies = true ∧ after (.registerWrite host (.reg pgTsync 0x40) ⟨4, true, true⟩ 1) twoDies (fun t => rdN t pgPcie Off.CNT_POISON_RX == 1) := by decide +kernel

def fencedTs : State := setPstate twoDies pgTsync stFenced
theorem test_refuse_absent :
    verdict twoDies host (ns 0 0x3F) 0x40 true = .absent ∧ after (.registerWrite host (.reg (ns 0 0x3F) 0x40) ⟨4, true, false⟩ 1) twoDies (· == twoDies) := by decide +kernel

theorem test_refuse_fenced :
    verdict fencedTs host pgTsync 0x40 true = .fenced ∧ after (.registerWrite host (.reg pgTsync 0x40) ⟨4, true, false⟩ 1) fencedTs (fun t => rf t pgTsync Off.ERR_INFO 8 8 == 3) ∧
    after (.registerWrite ⟨.firmware, 0⟩ (.reg pgTsync 0x40) ⟨4, true, false⟩ 1) fencedTs (fun t => t.resp == .error) := by decide +kernel

theorem test_refuse_busy :
    verdict (setPstate twoDies pgTsync stShutting) host pgTsync 0x40 true = .busy ∧
    after (.registerWrite host (.reg pgTsync 0x40) ⟨4, true, false⟩ 1) (setPstate twoDies pgTsync stShutting) (fun t => rf t pgTsync Off.ERR_INFO 8 8 == 2) := by decide +kernel

theorem test_refuse_locked :
    verdict twoDies ⟨.secHost, 1⟩ (pgGuard 0) 0x40 true = .locked ∧ after (.registerWrite ⟨.secHost, 1⟩ (.reg (pgGuard 0) 0x40) ⟨4, true, false⟩ 1) twoDies (fun t => rf t (pgGuard 0) Off.ERR_INFO 8 8 == 4) := by decide +kernel

def shut : State := wr twoDies (pgGuard 0) Off.GD_NS 0#24
theorem test_refuse_denied :
    verdict shut host pgTsync 0x40 true = .denied ∧ after (.registerWrite host (.reg pgTsync 0x40) ⟨4, true, false⟩ 1) shut (fun t => rdN t (pgGuard 0) Off.GD_DENIED == 1 && rdN t pgTsync 0x40 == rdN shut pgTsync 0x40) := by decide +kernel

theorem test_refuse_unsupported :
    verdict twoDies host (ns 5 2) 0x40 true = .unsupported ∧ isHost host = true ∧ after (.registerWrite host (.reg (ns 5 2) 0x40) ⟨4, true, false⟩ 1) twoDies (fun t => rdN t pgPcie Off.CNT_UR == 1) := by decide +kernel

theorem test_refuse_again :
    rb (wr twoDies (pgTb 0) Off.ERR_INFO 0x800400#24) (pgTb 0) Off.ERR_INFO 23 = true ∧
    rf (logErr (wr twoDies (pgTb 0) Off.ERR_INFO 0x800400#24) host (pgTb 0) 0x40 true 9) (pgTb 0) Off.ERR_INFO 8 8 = 4 := by decide +kernel

theorem test_plain_write :
    (pgKind (pgMemctl 0) = .memctl ∧ Taken twoDies host (pgMemctl 0) Off.MT_CFG ∧ twoDies.ticks = []) ∧
    ((regRow (pgMemctl 0) Off.MT_CFG).map fun x => (decide (x.acc = .rw), x.upper, x.ups)) = some (true, false, 0) ∧
    after (.registerWrite host (.reg (pgMemctl 0) Off.MT_CFG) ⟨4, true, false⟩ 1) twoDies (fun t => rf t (pgMemctl 0) Off.MT_CFG 0 1 == 1) := by decide +kernel

theorem test_shadow_write :
    (pgKind (pgThermal 0) = .thermal ∧ Taken twoDies host (pgThermal 0) Off.TH_CFG) ∧
    ((regRow (pgThermal 0) Off.TH_CFG).map fun x => (decide (x.acc = .rws), x.upper, x.ups)) = some (true, false, 0) ∧
    after (.registerWrite host (.reg (pgThermal 0) Off.TH_CFG) ⟨4, true, false⟩ 0x12) twoDies
      (fun t => rdShadow t (pgThermal 0) Off.TH_CFG == 0x12#24 && rd t (pgThermal 0) Off.TH_CFG == resetWord (pgThermal 0) Off.TH_CFG) := by decide +kernel

theorem test_wide_write :
    goSet twoDies (pgEnc 0 1) = false ∧ Taken twoDies host (pgEnc 0 1) Off.VIRT_RATE_L ∧
    (regLocked twoDies (pgEnc 0 1) Off.VIRT_RATE_L 5#24 = none ∧ regIgnored twoDies (pgEnc 0 1) Off.VIRT_RATE_L = false) ∧
    ((regRow (pgEnc 0 1) Off.VIRT_RATE_L).map fun x => (decide (x.acc = .rws), x.upper, x.ups)) = some (true, false, 1) ∧
    after (.wideLWrite host (pgEnc 0 1) Off.VIRT_RATE_L 5#24) { twoDies with hold := Tbl.put [] (pgEnc 0 1, Off.VIRT_RATE_L + 4) 9#24 } (fun t =>
      rdShadow t (pgEnc 0 1) (Off.VIRT_RATE_L + 4) == 9#24 && rdShadow t (pgEnc 0 1) Off.VIRT_RATE_L == 5#24) := by decide +kernel

theorem test_wide_plain :
    Taken twoDies host (pgHc 0 1) 0x90 ∧ ((regRow (pgHc 0 1) 0x90).map fun x => (decide (x.acc = .rw), x.upper, x.ups)) = some (true, false, 2) ∧
    after (.wideLWrite host (pgHc 0 1) 0x90 5#24) { twoDies with hold := Tbl.put [] (pgHc 0 1, 0x98) 9#24 } (fun t =>
      rd t (pgHc 0 1) 0x90 == 5#24 && rd t (pgHc 0 1) (0x98) == 9#24) := by decide +kernel

theorem test_short_read :
    (regRead twoDies host (pgTb 0) 0).resp = .data 2 (regView twoDies (pgTb 0) 0) ∧
    after (.wideLRead host (.reg (pgTb 0) 3) 1) twoDies (fun t => t.resp == .bytes [2#8] false) := by decide +kernel

theorem test_bar4_read :
    (powered twoDies = true ∧ isHost host = true) ∧ after (.wideLRead host (.msixTable 5 3) 4) twoDies (fun t => t.resp == .bytes [1#8, 0#8, 0#8, 0#8] false) ∧
    after (.wideLRead host (.pba 1) 4) { twoDies with pcie := { twoDies.pcie with pba := [33] } } (fun t => t.resp == .bytes [2#8, 0#8, 0#8, 0#8] false) := by decide +kernel

theorem test_bar4_write :
    after (.registerWrite host (.msixTable 5 3) ⟨4, true, false⟩ 0) twoDies (fun t => msixTableRead t 5 3 == 0 && t.pcie.unmasked == [5]) := by decide +kernel

theorem test_bar_write :
    after (.registerWrite host (.config 4) ⟨4, true, false⟩ 0xFFFFFFFF) twoDies (fun t => configRead t 4 == 0xF8000004) := by decide +kernel

theorem test_unsupported_read :
    powered twoDies = true ∧ isHost host = true ∧ nothingThere twoDies 0 0x5000000 = true ∧ present twoDies pgPcie = true ∧
    after (.unsupportedRequest host 0 0x5000000 false) twoDies (fun t => t.resp == .unsupported && rdN t pgPcie Off.CNT_UR == 1 && rb t pgPcie Off.EVT_LAT 3) := by decide +kernel

def encIn (st : Nat) : State := setPstate twoDies (pgEnc 0 1) st
theorem test_page_on :
    Taken (encIn stOff) host (pgEnc 0 1) Off.PAGE_CTRL ∧ enLocked (pgEnc 0 1) = false ∧ notPrimary (pgEnc 0 1) = false ∧
    after (.enWrite host (pgEnc 0 1) true) (encIn stOff) (fun t => pstate t (pgEnc 0 1) == stStarting && rb t (pgEnc 0 1) Off.PAGE_CTRL 0) := by decide +kernel

theorem test_page_shut :
    Taken (encIn stRunning) host (pgEnc 0 1) Off.PAGE_CTRL ∧
    after (.enWrite host (pgEnc 0 1) false) (encIn stRunning) (fun t => pstate t (pgEnc 0 1) == stShutting) := by decide +kernel

theorem test_page_pending :
    after (.enWrite host (pgEnc 0 1) true) (encIn stShutting) (fun t => pstate t (pgEnc 0 1) == stRestart) ∧
    after (.enWrite host (pgEnc 0 1) false) (encIn stRestart) (fun t => pstate t (pgEnc 0 1) == stShutting) := by decide +kernel

theorem test_page_reset :
    after (.softReset host (pgEnc 0 1)) (encIn stRunning) (fun t => pstate t (pgEnc 0 1) == stShutting && rb t (pgEnc 0 1) Off.PAGE_CTRL 2) ∧
    after (.softReset host (pgEnc 0 1)) (wr (encIn stOff) (pgEnc 0 1) Off.ENC_CFG 5#24) (fun t => rd t (pgEnc 0 1) Off.ENC_CFG == resetWord (pgEnc 0 1) Off.ENC_CFG) := by decide +kernel

theorem test_page_fixed :
    Taken twoDies host (pgTb 0) Off.PAGE_CTRL ∧ enLocked (pgTb 0) = true ∧ after (.enWrite host (pgTb 0) false) twoDies (· == twoDies) := by decide +kernel

theorem test_page_chute :
    let s := wr twoDies (pgChute 0 21) Off.CH_CFG 5#24
    (pgKind (pgChute 0 21)).enFixed = false ∧ pstate s (pgChute 0 21) = stOff ∧ after (.softReset host (pgChute 0 21)) s (fun t => rd t (pgChute 0 21) Off.CH_CFG == resetWord (pgChute 0 21) Off.CH_CFG) := by decide +kernel

theorem test_page_start :
    let s := wb (encIn stStarting) (pgEnc 0 1) Off.PAGE_CTRL 0 true
    pageReady s (pgEnc 0 1) = true ∧ after (.blockStarted (pgEnc 0 1)) s (fun t => pstate t (pgEnc 0 1) == stRunning) := by decide +kernel

theorem test_page_end :
    pageIdle (encIn stShutting) (pgEnc 0 1) = true ∧ after (.shutdownComplete (pgEnc 0 1)) (encIn stShutting) (fun t => pstate t (pgEnc 0 1) == stOff) ∧
    after (.shutdownComplete (pgEnc 0 1)) (encIn stRestart) (fun t => pstate t (pgEnc 0 1) == stStarting) := by decide +kernel

theorem test_commit_go :
    Taken twoDies host (pgEnc 0 1) Off.COMMIT ∧ after (.commitGo host (pgEnc 0 1) 1#24) twoDies (fun t => goSet t (pgEnc 0 1)) ∧
    after (.commitGo host (pgEnc 0 1) 0x21#24) (wb twoDies (pgEnc 0 1) Off.COMMIT 0 true)
      (fun t => goSet t (pgEnc 0 1) && rf t (pgEnc 0 1) Off.COMMIT 4 3 == 0 && rf t (pgEnc 0 1) Off.ERR_INFO 8 8 == 5) := by decide +kernel

theorem test_commit_cancel :
    after (.commitCancel host (pgEnc 0 1)) (wb twoDies (pgEnc 0 1) Off.COMMIT 0 true) (fun t => !goSet t (pgEnc 0 1)) := by decide +kernel

def handing : State := { wrShadow (wb twoDies (pgEnc 0 1) Off.COMMIT 0 true) (pgEnc 0 1) Off.ENC_CFG 5#24 with gos := [((pgEnc 0 1, Off.COMMIT), 0)] }
theorem test_hand_over :
    handOverNow handing (pgEnc 0 1) = true ∧ Off.ENC_CFG ∈ rwsOffs (pgEnc 0 1) ∧
    after (.handOver (pgEnc 0 1)) handing (fun t => !goSet t (pgEnc 0 1) && rd t (pgEnc 0 1) Off.ENC_CFG == 5#24 && rb t (pgEnc 0 1) Off.EVT_LAT 23) := by decide +kernel

def encRun : State := setPstate (wb twoDies (pgEnc 0 1) Off.PAGE_CTRL 0 true) (pgEnc 0 1) stRunning
def encFenced (reason : Nat) (rel : Bool) : State :=
  setFenceSt (wf (wb (setPstate encRun (pgEnc 0 1) stFenced) (pgEnc 0 1) Off.PAGE_CTRL 1 true) (pgEnc 0 1) Off.PAGE_STAT 8 8 reason)
    (pgEnc 0 1) { before := stRunning, releasing := rel }
theorem test_page_fence :
    Taken encRun host (pgEnc 0 1) Off.PAGE_CTRL ∧ takesFence encRun (pgEnc 0 1) = true ∧
    after (.pageFence host (pgEnc 0 1)) encRun (fun t => fenced t (pgEnc 0 1) && pageReason t (pgEnc 0 1) == 1 && rdN t (pgFence 0) Off.FN_CNT_FENCES == 1) := by decide +kernel

theorem test_fence_release :
    Taken (encFenced 1 false) host (pgEnc 0 1) Off.PAGE_CTRL ∧ relRefused (encFenced 1 false) (pgEnc 0 1) false = false ∧
    after (.fenceRelease host (pgEnc 0 1) false) (encFenced 1 false) (fun t => fenced t (pgEnc 0 1) && (fenceSt t (pgEnc 0 1)).releasing) := by decide +kernel

theorem test_fence_refused :
    relRefused (encFenced 4 false) (pgEnc 0 1) false = true ∧
    after (.fenceRelease host (pgEnc 0 1) false) (encFenced 4 false) (fun t => fenced t (pgEnc 0 1) && rb t (pgFence 0) Off.EVT_LAT 2) := by decide +kernel

theorem test_release_done :
    fenced (encFenced 1 true) (pgEnc 0 1) = true ∧
    after (.releaseComplete (pgEnc 0 1)) (encFenced 1 true) (fun t => pstate t (pgEnc 0 1) == stStarting && rdN t (pgFence 0) Off.FN_CNT_RELEASES == 1) := by decide +kernel

def small : State := { twoDies with part := { dies := 2, tier := .t08 } }
theorem test_die_fenced :
    Taken small host (pgFence 0) Off.FN_DIE_CTRL ∧ bit (rd small (pgFence 0) Off.FN_DIE_CTRL) 1 = false ∧
    (1 < small.part.dies ∧ bit 2#24 1 = true ∧ (die small 1).dieReason = 0) := by decide +kernel

def dogged : State := wf (wf small (pgFence 1) Off.FN_WDOG 0 16 2) (pgTb 1) Off.TB_STAT 6 2 1
theorem test_die_watchdog :
    1 < dogged.part.dies ∧ rf dogged (pgFence 1) Off.FN_WDOG 0 16 = 2 ∧ (die dogged 1).dieReason = 0 ∧ rf dogged (pgTb 1) Off.TB_STAT 6 2 = 1 ∧ pgEnc 1 0 ∈ fenceablePages dogged 1 := by decide +kernel

def tethered : State := wf (wf dogged (pgBurim 0) Off.BU_STAT_0 0 3 2) (pgBurim 1) (Off.BU_STAT_0 + 4) 0 3 2
theorem test_watchdog_path :
    crossesNow tethered 1 = true := by decide +kernel

def locked : State := setDie small 1 { die small 1 with pllLocked := true, boot := { complete := true } }
theorem test_pll_unlock :
    1 < locked.part.dies ∧ (die locked 1).pllLocked = true ∧ awake locked 1 = true ∧ (die locked 1).dieReason = 0 := by decide +kernel

theorem test_pll_relock :
    let s := setDie locked 1 { die locked 1 with pllLocked := false, dieReason := 4 }
    after (.pllRelockRelease 1) s (fun t => (die t 1).dieReason == 4 && (die t 1).pllLocked) := by decide +kernel

theorem test_pll_release :
    let s := setDie locked 1 { die locked 1 with dieReason := 4 }
    after (.pllRelockRelease 1) s (fun t => (die t 1).dieReason == 0 && t.clock == 25000) := by decide +kernel

theorem test_skew_release :
    let s := wb (setDie locked 1 { die locked 1 with dieReason := 5 }) (pgTb 1) Off.TB_STAT 5 true
    after (.timeSkewRelease 1) s (fun t => (die t 1).dieReason == 0 && t.clock == 250000) := by decide +kernel

theorem test_critical_trip :
    after (.critical 1 3) twoDies (fun t => fenced t (pgHp 1 2) && rb t (pgThermal 1) Off.EVT_LAT 3) := by decide +kernel

theorem test_xtal_comp :
    (sgn 24 (rdN twoDies (pgTb 0) Off.TB_COMP)).natAbs ≤ 8000000 ∧
    after (.xtalCompUpdate 1000) { twoDies with pkg := { compAt := some 5 } } (fun t => t.clock == 2500005 && rdN t (pgTb 1) Off.TB_XTEMP == 1000) := by decide +kernel

theorem test_xtal_fail :
    rb twoDies (pgTb 0) Off.TB_STAT 0 = false ∧ after .xtalFail twoDies (fun t => rb t (pgTb 1) Off.TB_STAT 0 && rb t (pgTb 1) Off.EVT_LAT 0) := by decide +kernel

theorem test_tick_wrap :
    (die twoDies 1).counting = true ∧ after (.wrap 1) (setDie twoDies 1 { counting := true, pllLocked := true, tick := 2 ^ 48 - 1 }) (fun t => now t 1 == 0 && rb t (pgTb 1) Off.EVT_LAT 3) := by decide +kernel

theorem test_sec_edge :
    after .secEdge { twoDies with pkg := { seconds := 2 ^ 48 - 1 } } (fun t => t.pkg.seconds == 0 && rd48 t (pgTb 1) Off.SEC_EDGE_TS_L == 250000000 && t.clock == 249999000) := by decide +kernel

def asleep : State := { State.reset with part := { dies := 2, tier := .t16E }, pkg := { power := .off, vinEn := false, seconds := 7 } }
theorem test_dormant_second :
    lpoRuns asleep = true ∧ after .dormantSecondsEdge asleep (fun t => t.pkg.seconds == 8 && t.clock == 249937500) := by decide +kernel

def synced : State := wf twoDies (pgTb 1) Off.TB_STAT 6 2 1
theorem test_time_exchange :
    syncFrom synced 1 = some 0 ∧ Tbl.has synced.pkg.exchAt 1 = false ∧ (0 < 1 ∧ 1 < synced.part.dies) ∧
    after (.timeFlitExchange 1 (-2)) synced (fun t => rdN t (pgTb 1) Off.DIE_SKEW == 0xFFFE && (die t 1).phase == 1 && !rb t (pgTb 1) Off.TB_STAT 5) := by decide +kernel

theorem test_time_switch :
    rf (wf twoDies (pgTb 1) Off.TB_STAT 6 2 3) (pgTb 1) Off.TB_STAT 6 2 = 3 := by decide +kernel

def master (role : Nat) : State := wf (setPstate twoDies pgTsync stRunning) pgTsync Off.TS_CFG 0 2 role
theorem test_tsync_send :
    running (master 1) pgTsync = true ∧ tsRole (master 1) = 1 ∧ after .tsyncFrameSend (master 1) (fun t => t.out.length == 1 && t.tsync.seq == 1) := by decide +kernel

theorem test_tsync_bad :
    tsListens (master 2) 0 = true ∧ tsRead [kComma] = some [] ∧ tsGood [] = false ∧
    after (.tsyncFrameReceive 0 kComma []) (master 2) (fun t => rdN t pgTsync Off.TS_BAD == 1) := by decide +kernel

theorem test_tsync_good :
    let s := wf (master 2) pgTsync Off.TS_STAT 0 3 2
    let ws := [0xA00100#24, 100#24, 0#24, 0#24, 0#24, crcWords [0xA00100#24, 100#24, 0#24, 0#24, 0#24]]
    tsGood ws = true ∧ tsRead (tsChars ws) = some ws ∧ tsListens s 1595 = true ∧
    after (.tsyncFrameReceive 1595 kComma (ws.flatMap wordChars)) s (fun t => rdN t pgTsync Off.TS_OFFSET == 5 && rf t pgTsync Off.TS_STAT 16 8 == 1) := by decide +kernel

theorem test_step_applied :
    let s := { master 2 with tsync := { step := some (0, -32) } }
    after .stepApplied s (fun t => now t 1 == 998 && t.tsync.step == none && rdN t pgTsync Off.TS_STEPS == 1) := by decide +kernel

theorem test_holdover :
    let s := wf (master 2) pgTsync Off.TS_STAT 0 3 3
    tsState s = 3 ∧ after .tsyncHoldover s (fun t => tsState t == 4 && t.tsync.missed == 3) := by decide +kernel

def counting (ab : Nat) : State := setEnc (setPstate (wf twoDies (pgMode 0) Off.MODE_CUR 0 3 3) (pgEnc 0 2) stRunning) 0 2 { ab := ab, hasRef := true, zRef := true }
/-- A window of `n` equal raw samples. -/
def raws {α : Type} (n : Nat) (x : α) : List α := List.replicate n x
theorem test_enc_forward :
    encOn (counting 1) 0 2 = true ∧ encIncr (counting 1) 0 2 = true ∧ encN (counting 1) 0 2 = 5 ∧
    after (.encCount 0 2 (raws 5 false) (raws 5 false)) (counting 1) (fun t => rd48 t (pgEnc 0 2) Off.POS_L == 1) := by decide +kernel

theorem test_enc_back :
    after (.encCount 0 2 (raws 5 false) (raws 5 true)) (counting 0) (fun t => rd48 t (pgEnc 0 2) Off.POS_L == 2 ^ 48 - 1 && rb t (pgEnc 0 2) Off.SPD_STAT 1) := by decide +kernel

theorem test_enc_majority :
    after (.encCount 0 2 [true, true, false, false, false] [true, false, true, false, false]) (counting 0) (fun t => rd48 t (pgEnc 0 2) Off.POS_L == 0) := by decide +kernel

theorem test_enc_illegal :
    after (.encCount 0 2 (raws 5 true) (raws 5 true)) (counting 0) (fun t => rd48 t (pgEnc 0 2) Off.POS_L == 0 && rdN t (pgEnc 0 2) Off.CNT_ILLEGAL == 1) := by decide +kernel

theorem test_enc_index :
    idxQualified (counting 0) 0 2 false true = true ∧ encIncr (counting 0) 0 2 = true ∧
    after (.index 0 2 (raws 5 true)) (wb (wr48 (counting 0) (pgEnc 0 2) Off.POS_L 77) (pgEnc 0 2) Off.IDX_CFG 2 true)
      (fun t => rdN t (pgEnc 0 2) Off.CNT_IDX == 1 && rdN t (pgEnc 0 2) Off.CNT_IDX_MM == 1 && rd48 t (pgEnc 0 2) Off.IDX_MM_ACT_L == 77) := by decide +kernel

def sensing : State := wr (setPstate twoDies (pgPd 0) stRunning) (pgPd 0) (Off.PD_CFG + 4) 0x20001#24
theorem test_pd_sample :
    after (.product 0 1 true) sensing (fun t => (pdIn t 0 1).raw && !rb t (pgPd 0) Off.PD_LEVEL 1) := by decide +kernel

/-- Input 1 has gone high at clock 0. -/
def risen (x : PdSt) : State := setPdIn sensing 0 1 { x with raw := true, since := 0 }
theorem test_pd_accept :
    (pdNeed (risen {}) 0 1 = 1 ∧ lockEnded (waitClock (risen {}) 1) 0 1 = true) ∧ after (.product 0 1 true) (risen {})
    (fun t => rdN t (pgPd 0) (Off.PD_ACC + 4) == 1 && rd48 t (pgPd 0) (Off.PD_TS_L + 16) == 998 && t.msgs.length == 1) := by decide +kernel

def barred : State := wr (risen { locked := true, lockClock := 40 }) (pgPd 0) (Off.PD_LOCK + 4) 5#24
theorem test_pd_barred :
    lockEnded (waitClock barred 1) 0 1 = false ∧ after (.product 0 1 true) barred (fun t => rdN t (pgPd 0) (Off.PD_LOCKED + 4) == 1) := by decide +kernel

theorem test_pd_lock_end :
    bit (pdCfg barred 0 1) 17 = true ∧ after (.pdLockoutEnd 0 1) barred (fun t => !(pdIn t 0 1).locked && t.clock == 1320) := by decide +kernel

theorem test_speed_window :
    spdPeriod (counting 0) 0 2 = false ∧ spdW (counting 0) 0 2 = 4096 ∧
    after (.speedWindow 0 2) (setEnc (wr48 (counting 0) (pgEnc 0 2) Off.POS_L 4) 0 2 { win := List.replicate 17 (0, 0, 0) })
      (fun t => rd48 t (pgEnc 0 2) Off.SPD_L == 2 ^ 30 && now t 0 == 4096) := by decide +kernel

def slow : State := wb (wr48 (setEnc (wf (setPstate (wf twoDies (pgMode 0) Off.MODE_CUR 0 3 3) (pgEnc 0 1) stRunning) (pgEnc 0 1) Off.SPD_CFG 8 2 0) 0 1
  { edges := [(900, false), (800, false)] }) (pgEnc 0 1) Off.SPD_L (2 ^ 40)) (pgEnc 0 1) Off.SPD_STAT 0 true
theorem test_speed_stopped :
    encOn slow 0 1 = true ∧ spdPeriod slow 0 1 = true ∧ after (.speedStopped 0 1) slow (fun t => rd48 t (pgEnc 0 1) Off.SPD_L == 0 && rb t (pgEnc 0 1) Off.SPD_STAT 2) := by decide +kernel

theorem test_speed_limit :
    after (.periodSpeedLimit 0 1) slow (fun t => t.clock == 64 && rd48 t (pgEnc 0 1) Off.SPD_L == 6704339194) := by decide +kernel

theorem test_latch_sw :
    Taken (counting 0) host (pgEnc 0 2) Off.LAT_TRIG ∧ running (counting 0) (pgEnc 0 2) = true ∧
    after (.latchSw host 0 2 1#24) (wr48 (counting 0) (pgEnc 0 2) Off.POS_L 9) (fun t => rd48 t (pgEnc 0 2) Off.LAT_POS_L == 9 && rd48 t (pgEnc 0 2) Off.LAT_TS_L == 1000) := by decide +kernel

theorem test_latch_periodic :
    (enc (counting 0) 0 2).latAt = none ∧ after (.latchPeriodic 0 2) (wb (counting 0) (pgEnc 0 2) Off.LAT_CFG 9 true) (fun t => rd48 t (pgEnc 0 2) Off.LAT_TS_L == 65536) := by decide +kernel

theorem test_est_update :
    virtGone (counting 0) 0 2 = false ∧ (enc (counting 0) 0 2).restart = true ∧
    after (.estimatorUpdate 0 2) (counting 0) (fun t => rd48 t (pgEnc 0 2) Off.EST_TS_L == now t 0 && rb t (pgEnc 0 2) Off.EVT_LAT 9 && t.msgs.length == 1) := by decide +kernel

def mirrored : State := { wf (counting 0) (pgEnc 0 2) Off.ENC_CFG 0 3 7 with hops := [⟨0, 2, .estimate { p := 5, valid := true }, 11, 12⟩] }
theorem test_remote_estimate :
    encMode mirrored 0 2 = 7 ∧ after (.remoteEstimateReceive 0 2) mirrored (fun t => rd48 t (pgEnc 0 2) Off.POS_L == 11 && rb t (pgEnc 0 2) Off.EST_STAT 0 && t.hops == []) := by decide +kernel

theorem test_remote_lost :
    encOn mirrored 0 2 = true ∧ after (.remoteSourceLost 0 2) mirrored (fun t => rb t (pgEnc 0 2) Off.EVT_LAT 13 && (enc t 0 2).remoteLost) := by decide +kernel

def serial (mode : Nat) (x : EncSt) : State := setEnc (wf (setDie (counting 0) 0 { die (counting 0) 0 with lc := 1 }) (pgEnc 0 2) Off.ENC_CFG 0 3 mode) 0 2 x
theorem test_serial_start :
    encSerial (serial 3 {}) 0 2 = true ∧ after (.serialFrameStart 0 2 true) (serial 3 {}) (fun t => (enc t 0 2).serBusy) ∧
    after (.serialFrameStart 0 2 false) (serial 3 {}) (fun t => rf t (pgEnc 0 2) Off.SER_STAT 0 4 == 1) := by decide +kernel

theorem test_serial_first :
    injOk (serial 3 { serBusy := true }) 0 = false ∧ rf (serial 3 {}) (pgEnc 0 2) Off.SER_CFG 6 2 = 0 ∧
    after (.serialFrameEnd 0 2 { raw := 200 }) (serial 3 { serBusy := true }) (fun t => rd48 t (pgEnc 0 2) Off.POS_L == 200) := by decide +kernel

theorem test_serial_change :
    serBits (serial 3 {}) 0 2 = 24 ∧ after (.serialFrameEnd 0 2 { raw := 2 ^ 24 - 1 }) (serial 3 { serBusy := true, serPrev := some 1 })
    (fun t => rd48 t (pgEnc 0 2) Off.POS_L == 2 ^ 48 - 2) := by decide +kernel

theorem test_serial_bad :
    serCheck (serial 4 {}) 0 2 { raw := 0, start := false } = some 3 ∧
    after (.serialFrameEnd 0 2 { raw := 0, start := false }) (serial 4 { serBusy := true }) (fun t => rf t (pgEnc 0 2) Off.SER_STAT 0 4 == 3) := by decide +kernel

theorem test_serial_timeout :
    after (.serialTimeout 0 2 true) (serial 4 { serBusy := true }) (fun t => rf t (pgEnc 0 2) Off.SER_STAT 0 4 == 2) := by decide +kernel

theorem test_serial_shut :
    let s := setPstate (serial 4 { serBusy := true }) (pgEnc 0 2) stShutting
    encSerial s 0 2 = true ∧ after (.serialFrameEnd 0 2 { raw := 1 }) s (fun t => !(enc t 0 2).serBusy) := by decide +kernel

theorem test_ctx_arm :
    Taken (job {}) host (pgCtx 0) Off.CTX_CMD ∧ (job {}).ecc = [] ∧ armVerdict (job {}) 0 0 = none ∧
    after (.ctxArm host 0 0) (job { doneN := 7 }) (fun t => (ctx t 0 0).st == .armed && (ctx t 0 0).doneN == 0 && ctxResultOf t 0 == 1) := by decide +kernel

theorem test_ctx_scopes :
    ∀ o, (scope (job {}) 0 o).stage ≠ 3 := by intro o; cases o <;> (show (0 : Nat) ≠ 3; decide)

theorem test_ctx_arm_refused :
    armVerdict (setPstate (job {}) (pgHp 0 0) stOff) 0 0 = some 0x12 ∧
    after (.ctxArm host 0 0) (setPstate (job {}) (pgHp 0 0) stOff) (fun t => (ctx t 0 0).st == .idle && ctxResultOf t 0 == 0x12 && rdN t (pgCtx 0) Off.CMD_REFUSED == 1) := by decide +kernel

theorem test_ctx_start :
    followerHeld (job { st := .armed }) 0 0 = false ∧ rateOk (job {}) 0 (cRate (job {}) 0 0) = true ∧ 0 ∈ movers (job { st := .armed }) 0 0 ∧
    after (.ctxStart host 0 0) (job { st := .armed }) (fun t => (ctx t 0 0).st == .printing) := by decide +kernel

theorem test_ctx_disarm :
    after (.ctxDisarm host 0 0) (job { st := .armed }) (fun t => (ctx t 0 0).st == .idle) := by decide +kernel

theorem test_ctx_pause :
    after (.ctxPause host 0 0) (job { st := .printing }) (fun t => (ctx t 0 0).st == .paused && (ctx t 0 0).cause == 1) := by decide +kernel

theorem test_ctx_drain :
    after (.ctxDrain host 0 0) (job { st := .printing }) (fun t => (ctx t 0 0).st == .draining) := by decide +kernel

theorem test_ctx_resume :
    (estOf (job { st := .paused, doneN := 5 }) 0 0).valid = true ∧
    after (.ctxResume host 0 0) (job { st := .paused, doneN := 5 }) (fun t => (ctx t 0 0).st == .printing && (ctx t 0 0).next == 5) := by decide +kernel

theorem test_ctx_abort :
    after (.ctxAbort host 0 0) (job { st := .paused }) (fun t => (ctx t 0 0).st == .idle) ∧
    after (.ctxAbort host 0 0) (setPort (job { st := .printing }) 0 0 { cycles := [{}] }) (fun t => (ctx t 0 0).st == .printing && (ctx t 0 0).aborting) := by decide +kernel

theorem test_ctx_flush :
    after (.ctxFlush host 0 0) (job { built := [{ n := 0 }] }) (fun t => (ctx t 0 0).built == []) := by decide +kernel

theorem test_ctx_fence :
    after (.ctxFence host 0 0) (job { st := .printing }) (fun t => (ctx t 0 0).st == .fenced && (ctx t 0 0).before == .printing) := by decide +kernel

theorem test_ctx_release :
    fenced (job {}) (pgHp 0 (cPort (job {}) 0 0)) = false ∧ cTiming (job { st := .fenced }) 0 0 = true ∧
    after (.ctxRelease host 0 0) (job { st := .fenced, before := .printing }) (fun t => (ctx t 0 0).st == .paused) := by decide +kernel

theorem test_ctx_tier :
    after (.ctxArm host 0 256) (job {}) (fun t => ctxResultOf t 0 == 0x11) := by decide +kernel

def told (k : MsgKind) (x : CtxSt) : State := { job x with msgs := [⟨0, 2, 20, k⟩] }
theorem test_estimate_arrives :
    boundTo (told .lost { st := .armed }) 0 2 = [0] ∧
    after (.estimateArrival 0 2) (told (.estimate { p := 9, valid := true }) { st := .armed, lost := true }) (fun t => (enc t 0 2).jet.p == 9 && !(ctx t 0 0).lost && t.clock == 20) := by decide +kernel

theorem test_step_arrives :
    after (.positionStep 0 2) (told (.step 4 1000) { st := .armed }) (fun t => (ctx t 0 0).cntStep == 1 && rb t (pgCtx 0) Off.CTX_EVT 11) := by decide +kernel

theorem test_source_lost :
    after (.sourceLost 0 2) (told .lost { st := .armed }) (fun t => (ctx t 0 0).lost && !(enc t 0 2).jet.valid) := by decide +kernel

def waiting : State := let s := told (.pdEdge 0 1000 30 0) { st := .armed, armedAt := 10, pdFrom := 10 }
  setCtx s 0 0 { ctx s 0 0 with lat := [(0, 0xA0000#24), (1, 9#24), (2, 1#24), (3, 1000#24)] }
theorem test_pd_starts :
    boundTo waiting 0 2 = [0] ∧ members waiting 0 0 0 = [0] ∧ cStartPd waiting 0 0 = true ∧ after (.pdEdgeArrival 0 0) waiting (fun t => (ctx t 0 0).st == .printing) := by decide +kernel

theorem test_ctx_go :
    Taken (job {}) host (pgCtx 0) (commitOff 3) ∧ after (.ctxCommitGo host 0 3 1#24) (job {}) (fun t => ctxGo t 0 3) := by decide +kernel

theorem test_ctx_hand_over :
    let s := { wb (job {}) (pgCtx 0) (commitOff 0) 0 true with mem := [(wordAddr 0 true 17, 7#8)] }
    handOverFree s 0 0 = true ∧ ctxGo s 0 0 = true ∧ after (.ctxHandOver 0 0) s (fun t => !ctxGo t 0 0 && aw t 0 0 17 == 7#24 && rf t (pgCtx 0) (commitOff 0) 8 8 == 1) := by decide +kernel

theorem test_drain_done :
    groupOpen (job { st := .draining }) 0 0 0 = false ∧ members (job { st := .draining }) 0 0 0 = [0] ∧
    after (.drainComplete 0 0) (job { st := .draining, drainCause := 12 }) (fun t => (ctx t 0 0).st == .idle && (ctx t 0 0).cause == 12) := by decide +kernel

theorem test_stalled :
    after (.stall 0 0) (let s := job { st := .printing, stallBad := true, stallRun := true }; setCtx s 0 0 { ctx s 0 0 with act := (48, 0x100#24) :: words })
    (fun t => (ctx t 0 0).st == .paused && t.clock == 256) := by decide +kernel

theorem test_rejoins :
    let s := job { st := .paused }
    let u := setCtx s 0 1 { st := .fenced, rejoin := true, before := .printing, lat := [(0, 0x20000#24)] }
    timingOf u 0 (cPort u 0 1) (cFg u 0 1) = some 0 ∧ after (.followerRejoin 0 1) u (fun t => (ctx t 0 1).st == .paused && !(ctx t 0 1).rejoin) := by decide +kernel

theorem test_line_bind :
    let s := job { st := .printing, next := 1, built := [{ n := 1 }] }
    members s 0 0 0 = [0] ∧ (predictNext s 0 0 = some (16 * 9192) ∧ ctxGo s 0 0 = false ∧ goSet s (pgHp 0 0) = false) ∧
    (builtLine s 0 0 1).isSome = true ∧ 0 ≤ sgn 48 (uns 48 ((9192 : Int) - (port s 0 0).lead - (now s 0 : Int))) ∧
    after (.lineBind 0 0) s (fun t => (port t 0 0).cycles.map (fun c => (c.line, c.t0)) == [(1, 16 * 9192)] && (ctx t 0 0).next == 2) := by decide +kernel

theorem test_bind_abort :
    let s := job { st := .printing, aborting := true }
    after (.lineBind 0 0) s (fun t => (ctx t 0 0).st == .idle) := by decide +kernel

def bound1 (c : Cycle) : State := setPort (job { st := .printing }) 0 0 { link := 3, cycles := [c] }
theorem test_line_freeze :
    firstCycle (bound1 { cseq := 65, t0 := 160000 }) 0 0 (fun c => !c.frozen) = some { cseq := 65, t0 := 160000 } ∧
    overrun (bound1 { cseq := 65, t0 := 160000 }) 0 0 { cseq := 65, t0 := 160000 } = false ∧ running (bound1 {}) (pgHp 0 0) = true ∧
    after (.lineFreeze 0 0) (bound1 { cseq := 65, t0 := 160000 }) (fun t => t.out.length == 1 && (port t 0 0).cycles.map (fun c => c.armed) == [true] && now t 0 == 9960) := by decide +kernel

theorem test_cycle_fire :
    after (.cycleFire 0 0) (bound1 { cseq := 65, t0 := 160000, frozen := true, noWave := true })
    (fun t => (port t 0 0).cycles.map (fun c => c.fired) == [true] && (ctx t 0 0).lastFired == some 160000 && now t 0 == 10000) := by decide +kernel

def geo : List Word := [7#24, 0#24, 0x3000#24, 0#24, 0x7000#24, 0#24, 0x100000#24]
def fed (ws : List Word) (x : CtxSt) : State :=
  let s := setCtx (job {}) 0 0 { x with st := .armed, geom := geo, act := [(0, 0xA0000#24), (1, 9#24), (3, 1000#24), (9, 1#24), (16, 0#24), (20, 1#24)] }
  wb (setChute s 0 0 { words := ws.map fun w => { w := w } }) (pgSeam 0) Off.IMG_CFG 0 false
def block (seq : Nat) : List Word := [0xC10000#24, word seq, 0#24, 0#24, 0x7000#24, 1#24, 0#24, 0#24, 0xA5#24]
theorem test_block_bad :
    asmReads (fed (block 0) {}) 0 0 = true ∧ chuteHeld (fed (block 0) {}) 0 0 = false ∧ typeOk 0x500000#24 = false ∧
    after (.blockAccept 0 0) (fed (0x500000#24 :: block 0) {}) (fun t => rdN t (pgSeam 0) Off.IMG_BAD == 1) := by decide +kernel

theorem test_block_dup :
    fitOf (fed (block 4) { seqExp := 5 }) 0 0 (hdrOf (block 4)) = .dup ∧
    after (.blockAccept 0 0) (fed (block 4) { seqExp := 5 }) (fun t => (ctx t 0 0).cntDup == 1 && (ctx t 0 0).seqExp == 5) := by decide +kernel

theorem test_block_good :
    fitOf (fed (block 0) {}) 0 0 (hdrOf (block 0)) = .ok false 0 false ∧ geoDepth (fed (block 0) {}) 0 0 = 4 ∧ (hdrOf (block 0)).len = 9 ∧
    after (.blockAccept 0 0) (fed (block 0) {}) (fun t => (ctx t 0 0).seqExp == 1 && (ctx t 0 0).lineL == 1 && (ctx t 0 0).lines.length == 1) := by decide +kernel

theorem test_line_build :
    let s := fed [] { lines := [{ m := 0 }] }
    buildOpen s 0 0 = true ∧ (needed s 0 0 0).all (lineReady s 0 0) = true ∧ after (.lineBuild 0 0) s (fun t => (ctx t 0 0).nextBuild == 1 && (ctx t 0 0).built.length == 1) := by decide +kernel

theorem test_share_drop :
    seamRole (job {}) 0 0 ≠ 2 ∧ after (.seamShareReceive 0) { job {} with seamQ := [⟨0, 0, 3, 0, some [1]⟩] } (fun t => rdN t (pgSeam 0) Off.SEAM_DROP == 1 && t.seamQ == []) := by decide +kernel

theorem test_share_keep :
    let s := { setPstate (setCtx (job {}) 0 0 { seamD := [0x800000#24], seam := 2 }) (pgSeam 0) stRunning with seamQ := [⟨0, 0, 3, 0, some [1]⟩] }
    seamRole s 0 0 = 2 ∧ after (.seamShareReceive 0) s (fun t => rdN t (pgSeam 0) Off.SHARE_RX == 1 && (ctx t 0 0).shares == [(0, 3, [1])]) := by decide +kernel

theorem test_seam_credit :
    after (.seamCreditReturn 0) { job {} with seamQ := [⟨0, 0, 0, 0, none⟩] } (fun t => (ctx t 0 0).credits == 1) := by decide +kernel

theorem test_flush_scan :
    after (.chuteFlushScan 0 0) (setChute (job {}) 0 0 { flush := [0], words := (block 0).map fun w => { w := w } })
    (fun t => (chute t 0 0).flush == [] && (chute t 0 0).words == [] && rb t (pgChute 0 0) Off.EVT_LAT 6) := by decide +kernel

def loader (st : Nat) (x : PortSt) : State := wf (wr (setPort (job {}) 0 0 x) (pgHp 0 0) Off.WF_SRC 16384#24) (pgHp 0 0) Off.WF_STAT 0 3 st
theorem test_load_start :
    Taken (loader 0 {}) host (pgHp 0 0) Off.WF_CTRL ∧ loading (loader 0 {}) 0 0 = false ∧ activeBank (loader 0 {}) 0 0 = 0 ∧
    after (.wfLoadStart host 0 0 0x11#24) (loader 0 {}) (fun t => loadState t 0 0 == 1 && (port t 0 0).loadBank == 1) ∧
    after (.wfLoadStart host 0 0 0x1#24) (loader 0 {}) (fun t => loadState t 0 0 == 5 && rf t (pgHp 0 0) Off.WF_STAT 12 4 == 1) := by decide +kernel

theorem test_load_copy :
    loadState (loader 1 { loadBank := 1 }) 0 0 = 1 ∧ (loader 1 { loadBank := 1 }).ecc = [] := by decide +kernel

theorem test_load_head :
    after (.wfLoadHead 0 0) (loader 3 { link := 3 }) (fun t => (port t 0 0).queue.length == 16) ∧
    after (.wfLoadHead 0 0) (loader 3 {}) (fun t => loadState t 0 0 == 5) := by decide +kernel

theorem test_load_done :
    present (loader 3 {}) (pgHp 0 0) = true ∧ after (.loadDone 0 0) (loader 3 { loadQueued := true, loadBank := 1 }) (fun t => loadState t 0 0 == 4 && loaded t 0 0 1) := by decide +kernel

theorem test_heater :
    htrReason (job {}) 0 0 = 1 ∧ awake (job {}) 0 = true ∧ after (.heaterUpdate 0 0) (job {}) (fun t => rdN t (pgHp 0 0) Off.HTR_DUTY == 0x1000) := by decide +kernel

theorem test_heater_on :
    let s := wf (wr (wr (wb (job {}) (pgHp 0 0) Off.HTR_CFG 0 true) (pgThermal 0) Off.TH_HEAD 0x200640#24) (pgHp 0 0) Off.HTR_SET 0x7FFF#24) (pgHp 0 0) Off.HTR_LIMIT 14 10 100
    let s := wf (wf s (pgHp 0 0) Off.HTR_LIMIT 0 8 255) (pgHp 0 0) Off.HTR_GAIN 12 12 4000
    htrReason s 0 0 = 0 ∧ after (.heaterUpdate 0 0) s (fun t => (port t 0 0).htrNew == 100) := by decide +kernel

theorem test_map_load :
    bound (job { st := .armed, mapReady := false }) 0 0 = true ∧
    after (.nozzleMapLoadDone 0 0) { job { st := .armed, mapReady := false } with mem := [(lodeAddr 0 8 + 2, 0x60#8)] }
      (fun t => (ctx t 0 0).mapReady && Tbl.get (ctx t 0 0).map 1 {} == ⟨3, 0⟩) := by decide +kernel

theorem test_echo_result :
    after (.echoResult 0 (List.replicate 8 1000) (List.replicate 40 1000)) (setEcho (job {}) 0 { meas := [{ port := 0, ctx := 0, idx := 0, ptr := 0, tick := 5, len := 40 }] })
    (fun t => (echo t 0).meas == [] && rdN t (pgEcho 0) Off.INVALID_CNT == 1) := by decide +kernel

def sweeper : State := setCtx (wf (job { st := .printing }) (pgHp 0 0) Off.HP_CFG 0 2 1) 0 0 { st := .printing, lat := words, act := (40, 1#24) :: words }
theorem test_sweep_start :
    Taken sweeper host (pgEcho 0) Off.SWEEP_CTRL ∧ modeOf sweeper 0 = 3 ∧ persOf sweeper 0 (cPort sweeper 0 0) ≠ 2 ∧ capturing sweeper 0 = false ∧
    after (.sweepStart host 0) sweeper (fun t => rf t (pgEcho 0) Off.SWEEP_STAT 0 3 == 1) := by decide +kernel

theorem test_sweep_mode :
    modeOf twoDies 0 ≠ 3 ∧ after (.sweepStart host 0) twoDies (fun t => rf t (pgEcho 0) Off.SWEEP_STAT 4 4 == 1) := by decide +kernel

theorem test_sweep_abort :
    after (.sweepAbort host 0) (wf sweeper (pgEcho 0) Off.SWEEP_STAT 0 3 1) (fun t => rf t (pgEcho 0) Off.SWEEP_STAT 0 3 == 3) := by decide +kernel

theorem test_nz_taken :
    NzTaken (job { st := .armed }) host 0 0 := by decide +kernel

theorem test_nz_state :
    after (.setState host 0 4) (job { st := .armed }) (fun t => fld (rawWord t (nzWord (job { st := .armed }) 0 0 0)) 21 3 == 4 && rf t (pgEcho 0) Off.NZ_CMD_STAT 16 8 == 1) := by decide +kernel

theorem test_nz_trim :
    after (.setTrim host 0 7) (job { st := .armed }) (fun t => rawWord t (lodeAddr 0 0) == 0x3C00#24) := by decide +kernel

theorem test_nz_refs :
    after (.refValid host 0) (job { st := .armed }) (fun t => rawWord t (lodeAddr 0 0) == 0x200#24) ∧
    after (.refInvalid host 0) (job { st := .armed }) (fun t => t.mem == []) ∧ after (.clearHist host 0) (job { st := .armed }) (fun t => t.mem == []) ∧
    after (.lockTrim host 0 9) (job { st := .armed }) (fun t => rawWord t (lodeAddr 0 0) == 0x100#24) := by decide +kernel

def linked (st : Nat) (x : PortSt) : State := setPstate (setPort (job {}) 0 0 { x with link := st }) (pgHp 0 0) stStarting
/-- The identity record of a small thermal head. -/
def headRec : List Byte := [0x53, 0x59, 1, 0xFF, 1, 0, 0x13] ++ List.replicate 24 0 ++ [0x40]
theorem test_link_there :
    PortThere (linked 1 {}) 0 0 ∧ recGood headRec = true ∧ persOf (linked 1 {}) 0 0 < 8 ∧ rf (linked 1 {}) (pgHp 0 0) Off.SY_CFG 0 2 ≠ 0 := by decide +kernel

theorem test_link_discovery :
    after (.linkDiscovery 0 0 none) (linked 1 {}) (fun t => (port t 0 0).link == 5 && rf t (pgHp 0 0) Off.SY_STAT 12 4 == 1) ∧
    after (.linkDiscovery 0 0 (some headRec)) (linked 1 {}) (fun t => (port t 0 0).link == 2 && headNozzles t 0 0 == 256) := by decide +kernel

theorem test_link_repeat :
    after (.discoveryRepeat 0 0) (wb (linked 5 { failAt := 10 }) (pgHp 0 0) Off.PAGE_CTRL 0 true) (fun t => (port t 0 0).link == 1 && t.clock == 25000010) := by decide +kernel

theorem test_link_up :
    after (.linkUp 0 0) (linked 2 {}) (fun t => (port t 0 0).link == 3 && pstate t (pgHp 0 0) == stRunning) := by decide +kernel

theorem test_train_timeout :
    after (.trainAttemptTimeout 0 ⟨0, 1⟩) (linked 2 {}) (fun t => (port t 0 0).attempts == 1) ∧
    after (.trainAttemptTimeout 0 ⟨0, 1⟩) (linked 2 { attempts := 1, rate := 3 }) (fun t => (port t 0 0).rate == 2) ∧
    after (.trainAttemptTimeout 0 ⟨0, 1⟩) (linked 2 { attempts := 1, rate := 0 }) (fun t => (port t 0 0).link == 5 && rf t (pgHp 0 0) Off.SY_STAT 12 4 == 5) ∧
    takesFence (linked 4 {}) (pgHp 0 0) = true ∧
    after (.trainAttemptTimeout 0 ⟨0, 1⟩) (linked 4 { attempts := 1, rate := 0 }) (fun t => fenced t (pgHp 0 0) && pageReason t (pgHp 0 0) == 10) := by decide +kernel

theorem test_link_lost :
    after (.upstreamCodeErrors 0 0) (linked 3 {}) (fun t => (port t 0 0).link == 4 && rdN t (pgHp 0 0) Off.CNT_RETRAIN == 1) := by decide +kernel

theorem test_link_stale :
    after (.statusStale 0 0) (linked 3 {}) (fun t => rb t (pgHp 0 0) Off.SY_HEAD_STAT 4 && t.clock == 1000000) := by decide +kernel

def framed (x : PortSt) : State := setPort (job {}) 0 0 { x with link := 3 }
/-- A port with its link UP on a die whose lifecycle permits no injection. -/
def calm (x : PortSt) : State := setDie (framed x) 0 { die (framed x) 0 with lc := 2 }
def ctrl : Frame := { kind := 4, words := ctrlWords 1 }
def datum (t : Int) : Frame := { kind := 1, words := [0x100000#24, 0#24, 0#24, 0#24], deadline := some t }
theorem test_frame_up :
    PortUp (framed {}) 0 0 ∧ injOk { framed {} with part := { (framed {}).part with dies := 2 } } 0 = true ∧
    injOk (calm {}) 0 = false := by decide +kernel

theorem test_frame_send :
    let s := calm { queue := [ctrl] }
    firstDue (sendable s 0 0) none = some ctrl ∧ meets (unqueue s 0 0 ctrl) 0 0 3 ctrl = true ∧
      after (.frameSend 0 0) s (fun t => t.out.length == 1 && (port t 0 0).outst.length == 1 && rdN t (pgHp 0 0) Off.CNT_TX == 1) := by decide +kernel

theorem test_frame_late :
    let s := calm { queue := [datum 900] }
    meets (unqueue s 0 0 (datum 900)) 0 0 3 (datum 900) = false ∧
      after (.frameSend 0 0) s (fun t => t.out == [] && rdN t (pgHp 0 0) Off.CNT_LATE == 1) := by decide +kernel

theorem test_ack_good :
    after (.ackReceive 0 0 (frameChars [0x100000#24, crcWords [0x100000#24]])) (calm { outst := [ctrl], giveRow := 2 })
    (fun t => (port t 0 0).outst == [] && (port t 0 0).giveRow == 0) := by decide +kernel

theorem test_ack_bad :
    upGood [0x100000#24, 0#24] = false ∧ frameRead (frameChars [0x100000#24, 0#24]) = some [0x100000#24, 0#24] ∧ after (.ackReceive 0 0 (frameChars [0x100000#24, 0#24])) (calm { outst := [ctrl] })
    (fun t => (port t 0 0).outst == [ctrl] && rdN t (pgHp 0 0) Off.CNT_UP_BAD == 1) := by decide +kernel

theorem test_status_good :
    after (.statusReceive 0 0 (frameChars [0x200001#24, 0x1234#24, 0x3002#24, crcWords [0x200001#24, 0x1234#24, 0x3002#24]])) (calm {})
    (fun t => rdN t (pgHp 0 0) Off.THM_VHEAD == 0x11234 && rdN t (pgHp 0 0) Off.CNT_ERR_DA == 3 && rb t (pgHp 0 0) Off.EVT_DYN 20) := by decide +kernel

theorem test_ack_timeout :
    after (.ackTimeout 0 0 0) (calm { outst := [ctrl] }) (fun t => (port t 0 0).queue == [{ ctrl with tries := 1 }] && t.clock == 400) ∧
    after (.ackTimeout 0 0 0) (calm { outst := [{ ctrl with tries := 3 }] }) (fun t => (port t 0 0).link == 4 && rdN t (pgHp 0 0) Off.CNT_GIVEUP == 1) := by decide +kernel

def axisAt (m : Nat) (x : AxisSt) : State := setMstate (setAxis (job {}) 0 0 x) 0 0 m
theorem test_axis_command :
    Taken (axisAt msRest {}) host (pgAx 0 0) Off.AX_CMD ∧
    after (.axMove host 0 0) (axisAt msRest { cmds := [(host, 2)] }) (fun t => (axis t 0 0).cmds == [(host, 2), (host, 1)]) := by decide +kernel

theorem test_axis_there :
    axThere (axisAt msRest {}) 0 0 = true ∧ awake (axisAt msRest {}) 0 = true ∧ stepIn (axisAt msRest {}) 0 0 = false ∧ axEnding (axisAt msRest {}) 0 0 = false ∧
    rdN (axisAt msRest {}) (pgAx 0 0) Off.AX_VMAX = 0 ∧ mstate (axisAt msRest {}) 0 0 = msRest := by decide +kernel

theorem test_axis_move_refused :
    after (.profileTick 0 0) (axisAt msRest { cmds := [(host, 1)] }) (fun t => rdN t (pgAx 0 0) Off.AX_CMD_STAT == 0x110001) := by decide +kernel

theorem test_axis_move :
    let s := wr (wr (wr (wr (axisAt msRest { cmds := [(host, 1)] }) (pgAx 0 0) Off.AX_VMAX 5#24) (pgAx 0 0) Off.AX_ACC 1#24) (pgAx 0 0) Off.AX_DEC 1#24) (pgAx 0 0) Off.AX_TARGET_L 900#24
    rdN s (pgAx 0 0) Off.AX_FAULT = 0 ∧ limitAhead s 0 0 = false ∧
      after (.profileTick 0 0) s (fun t => rdN t (pgAx 0 0) Off.AX_CMD_STAT == 0x10001 && mstate t 0 0 == msMoving && (axis t 0 0).tgt == 900) := by decide +kernel

theorem test_axis_cut :
    after (.profileTick 0 0) (axisAt msMoving { cmds := [(host, 7)], v := 2 ^ 40 }) (fun t => mstate t 0 0 == msRest && !axMoving t 0 0) := by decide +kernel

theorem test_axis_load :
    after (.profileTick 0 0) (wr (axisAt msRest { cmds := [(host, 5)] }) (pgAx 0 0) Off.AX_POS_SET_L 77#24) (fun t => axPos t 0 0 == 77) := by decide +kernel

theorem test_axis_clear :
    after (.profileTick 0 0) (wr (axisAt msRest { cmds := [(host, 6)] }) (pgAx 0 0) Off.AX_FAULT 5#24) (fun t => rd t (pgAx 0 0) Off.AX_FAULT == 0#24) := by decide +kernel

theorem test_axis_halted :
    after (.profileTick 0 0) (wr (axisAt msStopping { x := 3 * ustep }) (pgAx 0 0) Off.AX_TARGET_L 10#24)
    (fun t => mstate t 0 0 == msHalted && rd48 t (pgAx 0 0) Off.AX_REMAIN_L == 7) := by decide +kernel

def axisRun (m : Nat) (x : AxisSt) : State := setPstate (axisAt m x) (pgAx 0 0) stRunning
theorem test_axis_loop :
    after (.currentLoopTick 0 0 100 (-5000)) (axisRun msRest { ben := true }) (fun t => rdN t (pgAx 0 0) Off.AX_IPH == 0x064800) := by decide +kernel

theorem test_axis_overcurrent :
    rdN (axisRun msRest {}) (pgAx 0 0) Off.AX_STALL_VMIN = 0 ∧ takesFence (axisRun msRest {}) (pgAx 0 0) = true ∧
    after (.currentLoopTick 0 0 2000 0) (wf (axisRun msRest { ben := true, ocCount := 1 }) (pgAx 0 0) Off.AX_OC 0 12 100)
      (fun t => fenced t (pgAx 0 0) && pageReason t (pgAx 0 0) == 0x13) := by decide +kernel

theorem test_axis_bridge :
    after (.bridgeFault 0 0) (axisRun msRest { ben := true }) (fun t => fenced t (pgAx 0 0) && pageReason t (pgAx 0 0) == 0x12 && !(axis t 0 0).ben) := by decide +kernel

theorem test_axis_step :
    let s := wf (axisRun msFollow { y := 4 }) (pgAx 0 0) Off.AX_CFG 12 2 1
    stepIn s 0 0 = true ∧ running s (pgAx 0 0) = true ∧ mstate s 0 0 = msFollow ∧
      after (.stepInput 0 0 false) s (fun t => (axis t 0 0).y == 4 - stepWorth s 0 0 && rb t (pgAx 0 0) Off.AX_STAT 17) := by decide +kernel

theorem test_axis_enabled :
    after (.axEnableDone 0 0) (wb (setPstate (axisAt msOff { ben := true }) (pgAx 0 0) stStarting) (pgAx 0 0) Off.PAGE_CTRL 0 true)
    (fun t => pstate t (pgAx 0 0) == stRunning && mstate t 0 0 == msRest && t.clock == 80000) ∧
    after (.axEnableDone 0 0) (setPstate (axisAt msOff { ben := true }) (pgAx 0 0) stStarting) (fun t => pstate t (pgAx 0 0) == stShutting) := by decide +kernel

theorem test_axis_switch :
    debounce (wf (axisRun msRest {}) (pgAx 0 0) Off.AX_SW_CFG 0 16 0) 0 0 = 0 ∧
    after (.switchInputEdge 0 0 2 true) (wf (axisRun msRest {}) (pgAx 0 0) Off.AX_SW_CFG 0 16 0) (fun t => swLevel t 0 0 2 && rb t (pgAx 0 0) Off.EVT_LAT 12) ∧
    after (.switchInputEdge 0 0 2 true) (wf (axisRun msRest {}) (pgAx 0 0) Off.AX_SW_CFG 0 16 4) (fun t => !swLevel t 0 0 2 && (Tbl.get (axis t 0 0).sw 2 {}).burst) := by decide +kernel

theorem test_axis_sw_edge :
    after (.swEdge 0 0 1) (wf (axisRun msRest { sw := [(1, ⟨true, true, true, 5, 6, 0, 0⟩)] }) (pgAx 0 0) Off.AX_SW_CFG 0 16 4)
      (fun t => swLevel t 0 0 1 && rd48 t (pgAx 0 0) Off.AX_EDGE_POS_L == 5 && t.clock == 1000) ∧
    after (.swEdge 0 0 1) (axisRun msRest { sw := [(1, ⟨false, false, true, 5, 6, 0, 0⟩)] }) (fun t => rdN t (pgAx 0 0) Off.CNT_CHATTER == 1) := by decide +kernel

def lift (x : HoistSt) : State := setHoist (setPstate (job {}) (pgHc 0 1) stRunning) 0 1 x
def pend (n : Nat) (s : State) : State := wf s (pgHc 0 1) Off.HC_PEND 0 8 n
theorem test_hoist_taken :
    HcTaken (lift {}) host 0 1 ∧ running (lift {}) (pgHc 0 1) = true ∧ hcOn (lift {}) 0 1 = true := by decide +kernel

theorem test_hoist_start :
    after (.hcStart host 0 1) (lift {}) (fun t => rf t (pgHc 0 1) Off.HC_PEND 0 8 == 1) ∧
    after (.hcStart host 0 1) (pend 255 (lift {})) (fun t => rb t (pgHc 0 1) Off.EVT_LAT 5) ∧
    after (.hcCancel host 0 1) (pend 7 (lift {})) (fun t => rf t (pgHc 0 1) Off.HC_PEND 0 8 == 0) ∧
    after (.hcHold host 0 1 true) (lift {}) (fun t => hcHeld t 0 1) := by decide +kernel

theorem test_hoist_resume :
    after (.hcResume host 0 1) (lift { cs := 5 }) (fun t => (hoist t 0 1).cs == 2) ∧
    after (.hcAbort host 0 1) (lift { cs := 5 }) (fun t => (hoist t 0 1).cs == 1 && rb t (pgHc 0 1) Off.EVT_LAT 4) ∧
    after (.hcAbort host 0 1) (lift { cs := 2, bursts := [⟨1, 0, 0, 0, none, none, none, 0, false⟩] }) (fun t => (hoist t 0 1).cs == 6) := by decide +kernel

theorem test_hoist_trigger :
    after (.hoistTrigger 0 1) { lift {} with trigs := [(0, 1)] } (fun t => t.trigs == [] && rf t (pgHc 0 1) Off.HC_PEND 0 8 == 1) := by decide +kernel

theorem test_hoist_run :
    after (.runStart 0 1) (pend 2 (lift {})) (fun t => (hoist t 0 1).cs == 2 && rf t (pgHc 0 1) Off.HC_PEND 0 8 == 1) := by decide +kernel

theorem test_hoist_wait :
    after (.waitSatisfied 0 1) (lift { cs := 3, wait := some (0, 0, 9, 9) }) (fun t => (hoist t 0 1).pc == 2 && t.clock == 9) ∧
    after (.waitSatisfied 0 1) (pend 1 (lift { cs := 3, wait := some (1, 0, 9, 9) })) (fun t => (hoist t 0 1).cs == 2 && t.clock == 0) ∧
    realChute (lift {}) 3 = true ∧ present (lift {}) (pgChute 0 3) = true ∧
    after (.waitSatisfied 0 1) (lift { cs := 3, wait := some (2, 3, 0, 0) }) (fun t => (hoist t 0 1).cs == 2 && (hoist t 0 1).pc == 2) ∧
    after (.waitTimeout 0 1) (lift { cs := 3, wait := some (1, 0, 9, 9) }) (fun t => (hoist t 0 1).cs == 5 && rf t (pgHc 0 1) Off.HC_ERR 0 8 == 9) := by decide +kernel

theorem test_hoist_watchdog :
    after (.hoistWatchdog 0 1) (wf (lift { cs := 2 }) (pgHc 0 1) Off.HC_WDOG 0 16 1) (fun t => (hoist t 0 1).cs == 5 && t.clock == 4096) := by decide +kernel

theorem test_hoist_timer :
    let s := wr (wr (setPstate (lift {}) (pgHoistGlobal 0) stRunning) (pgHoistGlobal 0) (Off.TMR_PERIOD + 4) 2#24) (pgHc 0 1) Off.HC_TRIG 0x200001#24
    running s (pgHoistGlobal 0) = true ∧ after (.globalTimerFire 0 1) s (fun t => t.trigs == [(0, 1)]) := by decide +kernel

/-- A channel about to execute the words from word 16,384 of the dual-port store. -/
def prog (x : HoistSt) (ws : List Word) : State :=
  let s := wf (wf (lift { x with cs := 2, pc := 16384 }) (pgHc 0 1) Off.HC_PROG 0 17 16384) (pgHc 0 1) Off.HC_PROG_LEN 0 17 8
  { s with mem := (ws.zipIdx.flatMap fun w => (List.range 3).map fun k => (dpsAddr 0 (16384 + w.2) + k, (wordBytes w.1).getD k 0#8)).filter fun e => e.2 != 0#8 }
theorem test_hoist_due :
    HoistDue (prog {} [0x700000#24]) 0 1 [0x700000#24] ∧ HoistDue (prog {} [0x144000#24, 5#24]) 0 1 [0x144000#24, 5#24] ∧
    HoistDue (prog {} [0x500000#24, 1#24, 2#24, 3#24]) 0 1 [0x500000#24, 1#24, 2#24, 3#24] := by decide +kernel

theorem test_hoist_illegal :
    hcReady (prog {} [0x800000#24]) 0 1 = true ∧ after (.hoistNop 0 1) (prog {} [0x800000#24]) (fun t => (hoist t 0 1).cs == 5 && rf t (pgHc 0 1) Off.HC_ERR 0 8 == 6) ∧
    after (.hoistNop 0 1) (setHoist (prog {} []) 0 1 { cs := 2, pc := 1 }) (fun t => rf t (pgHc 0 1) Off.HC_ERR 0 8 == 7) ∧
    after (.hoistNop 0 1) (prog {} [0x700001#24]) (fun t => rf t (pgHc 0 1) Off.HC_ERR 0 8 == 6) := by decide +kernel

theorem test_hoist_move :
    moveBad [0x144000#24, 5#24] = false ∧ after (.hoistMove 0 1) (prog {} [0x144000#24, 5#24])
      (fun t => (hoist t 0 1).move.any fun m => m.left == 5 && m.sk == 1 && m.dk == 0) ∧
    moveBad [0x144000#24, 0#24] = true ∧ after (.hoistMove 0 1) (prog {} [0x144000#24, 0#24]) (fun t => (hoist t 0 1).cs == 5 && rf t (pgHc 0 1) Off.HC_ERR 0 8 == 6) := by decide +kernel

theorem test_hoist_loop :
    after (.hoistLoop 0 1) (prog {} [0x200002#24, 3#24]) (fun t => (hoist t 0 1).pc == 16382 && (hoist t 0 1).lc0 == 2) ∧
    after (.hoistLoop 0 1) (prog { act0 := true, lc0 := 1 } [0x200002#24, 3#24]) (fun t => (hoist t 0 1).pc == 16386) := by decide +kernel

theorem test_hoist_wait_signal :
    after (.hoistWait 0 1) (prog {} [0x300000#24, 9#24]) (fun t => (hoist t 0 1).cs == 3) ∧
    after (.hoistSignal 0 1) (prog {} [0x410000#24]) (fun t => (hoist t 0 1).pc == 16385 && rb t (pgHc 0 1) Off.EVT_LAT 2) ∧
    after (.hoistSignal 0 1) (wr (prog {} [0x480000#24]) (pgHoistGlobal 0) Off.CQ_SIZE 4#24) (fun t => (hoist t 0 1).pc == 16384 && cqRecs t 0 == [⟨1, 0, 2, 0, 0, true⟩]) ∧
    after (.hoistEnd 0 1) (prog {} [0xF00000#24]) (fun t => (hoist t 0 1).cs == 1 && rb t (pgHc 0 1) Off.EVT_LAT 1) := by decide +kernel

theorem test_hoist_address :
    after (.hoistSeta 0 1) (prog {} [0x560000#24, 1#24, 2#24, 3#24]) (fun t => hcA t 0 1 1 == (1 + 2 ^ 25 + 3 * 2 ^ 48, true)) ∧
    after (.hoistAdda 0 1) (prog {} [0x640000#24, 0xFFFFFF#24]) (fun t => hcA t 0 1 1 == (2 ^ 64 - 1, false)) ∧
    after (.hoistNop 0 1) (prog {} [0x700000#24]) (fun t => (hoist t 0 1).pc == 16385) := by decide +kernel

def moving : MoveSt := { sr := 0, dr := 1, sk := 0, dk := 0, remain := 3, sw := 0, src := 0, dst := 0, left := 3 }
def hostSide (s : State) : State := { setHcA (setHcA s 0 1 0 0 true) 0 1 1 0 true with pcie := { s.pcie with bme := true } }
theorem test_burst_start :
    let s := hostSide (lift { cs := 2, move := some moving })
    burstReady s 0 1 = some moving ∧ burstTurn s 0 1 = true ∧ after (.burstStart 0 1) s (fun t => (hoist t 0 1).bursts.length == 1 && t.out.length == 1) := by decide +kernel

theorem test_burst_written :
    let s := hostSide (lift { cs := 2, move := some { moving with left := 0 }, bursts := [⟨3, 0, 0, 0, none, none, none, 0, true⟩] })
    after (.burstWritten 0 1 ⟨.data [1#24, 2#24, 3#24], []⟩) s (fun t => (hoist t 0 1).move == none && (hoist t 0 1).pc == 2 && rdN t (pgHc 0 1) Off.CNT_WORDS == 3) := by decide +kernel

theorem test_burst_local :
    after (.burstWritten 0 1 ⟨.data [], []⟩) (lift { cs := 2, move := some { moving with dk := 1, sk := 1, src := 0x100000, dst := 0x400008, left := 0, remain := 1 }, bursts := [⟨1, 0x100000, 0x400008, 0, none, none, none, 0, false⟩] })
      (fun t => (hoist t 0 1).move == none && rdN t (pgHc 0 1) Off.CNT_WORDS == 1) := by decide +kernel

theorem test_burst_failed :
    let s := lift { cs := 2, move := some { moving with left := 0 }, bursts := [⟨3, 0, 0, 0, some ⟨10, 0, false, false, none, false⟩, none, none, 0, false⟩] }
    after (.burstWritten 0 1 ⟨.data [], []⟩) s (fun t => (hoist t 0 1).cs == 5 && rf t (pgHc 0 1) Off.HC_ERR 0 8 == 10) := by decide +kernel

def queued : State := wr (setCqRecs (hostSide (lift {})) 0 [⟨1, 2, 1, 0, 4, false⟩]) (pgHoistGlobal 0) (Off.CQ_SIZE + 64) 4#24
theorem test_cq_write :
    cqNext 2 (cqRecs queued 0) [] = some ⟨1, 2, 1, 0, 4, false⟩ ∧ cqK queued 0 2 = 4 ∧ cqFull queued 0 2 = false ∧ hostOpen queued 0 = true ∧ after (.cqRecordWrite 0 2) (wf queued (pgHoistGlobal 0) (Off.CQ_CONS + 64) 0 16 1) (fun t => cqIdx t 0 2 == 0 && t.out.length == 0) ∧
    after (.cqRecordWrite 0 2) (wf queued (pgHoistGlobal 0) (Off.CQ_CONS + 64) 0 16 5) (fun t => cqIdx t 0 2 == 1 && t.out.length == 1) := by decide +kernel

theorem test_cq_registers :
    Taken (lift {}) host (pgHoistGlobal 0) (Off.CQ_SIZE + 64) ∧ Taken (lift {}) host (pgHoistGlobal 0) (Off.CQ_CONS + 64) ∧
    after (.cqSizeWrite host 0 2 5#24) (lift {}) (fun t => cqK t 0 2 == 5 && cqPhase t 0 2 == 1) ∧
    after (.cqConsWrite host 0 2 5#24) (lift {}) (fun t => rf t (pgHoistGlobal 0) (Off.CQ_CONS + 64) 0 16 == 5) := by decide +kernel

def chuteRun (x : ChuteSt) : State := setChute (setPstate (job {}) (pgChute 0 3) stRunning) 0 3 x
theorem test_chute_taken :
    Taken (chuteRun {}) host (pgChute 0 3) 0x804 ∧ running (chuteRun {}) (pgChute 0 3) = true ∧ overwrite (chuteRun {}) 0 3 = false ∧
    TakenRead (chuteRun {}) host (pgChute 0 3) 0xC00 ∧ chuteHeld (chuteRun {}) 0 3 = false := by decide +kernel

theorem test_chute_push :
    freeWords {} = 32 ∧ after (.chutePush host 0 3 0 7#24) (chuteRun {}) (fun t => (chute t 0 3).words == [{ w := 7#24, mark := true }]) ∧
    freeWords { reserved := 32 } = 0 ∧ after (.chutePush host 0 3 0 7#24) (chuteRun { reserved := 32 }) (fun t => rdN t (pgChute 0 3) Off.CNT_LOST == 1) ∧
    Taken (chuteRun {}) host (pgChute 0 16) 0x800 ∧ after (.chutePush host 0 16 0 7#24) (chuteRun {}) (fun t => t.chutes == (chuteRun {}).chutes) := by decide +kernel

theorem test_chute_stopped :
    running (job {}) (pgChute 0 3) = false ∧ chuteHeld (job {}) 0 3 = true ∧ Taken (job {}) host (pgChute 0 3) 0x804 ∧ TakenRead (job {}) host (pgChute 0 3) 0xC00 := by decide +kernel

theorem test_chute_pop :
    after (.chutePop host 0 3 0) (chuteRun { words := [{ w := 7#24, mark := true, ecc := .bad }] }) (fun t => (chute t 0 3).words == [] && t.resp == .bytes [0#8, 0#8, 0#8, 0#8] true) ∧
    after (.chutePop host 0 3 0) (chuteRun { words := [{ w := 7#24, mark := true }, { w := 8#24, mark := false }] })
      (fun t => (chute t 0 3).words == [{ w := 8#24, mark := false }] && t.resp == .data (tagOf t (pgChute 0 3) 0xC00 false) 7#24 && (chute t 0 3).grant == 1) ∧
    after (.chutePop host 0 3 0) (chuteRun {}) (fun t => rb t (pgChute 0 3) Off.EVT_LAT 5) := by decide +kernel

theorem test_descr_protected :
    (∃ z, memZone (0x100000 + 3 * (64 * 2 + 60)) 3 = some z ∧ memPermits (job {}) host 0 z.1 true = true) ∧
      powered (job {}) = true ∧ dieAnswers (job {}) host 0 = true := by exact ⟨⟨(true, 564), by decide +kernel⟩, by decide +kernel⟩

theorem test_descr_bytes :
    after (.memWindowWrite host 0 (0x100000 + 3 * (64 * 2 + 60) + 1) [1#8, 2#8] false []) (job {}) (fun t => t.mem == [] && rdN t (pgCtx 0) Off.ERR_INFO == 0x804000 && rdN t (pgCtx 0) Off.ERR_ADDR == 0x1002) := by decide +kernel

theorem test_descr_status :
    after (.descriptorWrite host 0 2 60 7#24) (job {}) (fun t => t.mem == [] && rdN t (pgCtx 0) Off.ERR_INFO == 0x804000 && rdN t (pgCtx 0) Off.ERR_ADDR == 0x1002) := by decide +kernel

theorem test_descr_busy :
    ctxGo (wb (job {}) (pgCtx 0) (Off.CTX_COMMIT + 8) 0 true) 0 2 = true ∧
    after (.descriptorWrite host 0 2 14 7#24) (wb (job {}) (pgCtx 0) (Off.CTX_COMMIT + 8) 0 true) (fun t => t.mem == [] && rdN t (pgCtx 0) Off.ERR_INFO == 0x804100) := by decide +kernel

theorem test_mem_taken :
    (∃ z, memZone 0x400001 4 = some z ∧ memPermits (job {}) host 0 z.1 true = true ∧ memPermits (job {}) host 0 z.1 false = true) ∧
      OffDescr (job {}) 0x400001 := by exact ⟨⟨(false, 1), by decide +kernel⟩, by decide +kernel⟩

theorem test_mem_write :
    after (.memWindowWrite host 0 0x400001 [1#8, 2#8, 3#8, 4#8] false []) (job {})
      (fun t => t.mem == [(0x400001, 1#8), (0x400002, 2#8), (0x400003, 3#8), (0x400004, 4#8)]) ∧
    after (.memWindowWrite host 0 0x400003 [1#8, 2#8, 3#8] true []) (job {}) (fun t => t.mem == [] && rdN t pgPcie Off.CNT_POISON_RX == 1) := by decide +kernel

theorem test_mem_read :
    after (.memWindowRead host 0 0x400001 3) { job {} with mem := [(0x400002, 9#8)] } (fun t => t.resp == .bytes [0#8, 9#8, 0#8] false) := by decide +kernel

theorem test_mem_denied :
    memPermits (wf (job {}) (pgGuard 0) Off.GD_MEM 4 4 0) host 0 false true = false ∧
    after (.memWindowWrite host 0 0x400001 [1#8] false []) (wf (job {}) (pgGuard 0) Off.GD_MEM 4 4 0) (fun t => t.mem == []) ∧
    after (.memWindowRead host 0 0x400001 2) (wf (job {}) (pgGuard 0) Off.GD_MEM 4 4 0) (fun t => t.resp == .bytes [0#8, 0#8] false) := by decide +kernel

theorem test_descr_write :
    ctxGo (job {}) 0 2 = false ∧ after (.descriptorWrite host 0 2 14 0x030201#24) (job {})
    (fun t => rawWord t (dpsAddr 0 142) == descWord 14 0#24 0x030201#24) := by decide +kernel

def tester (x : MemSt) : State := setMemSt (wb (job {}) (pgMemctl 0) Off.MT_CFG 0 true) 0 x
theorem test_memtest_start :
    mtOn (tester {}) 0 = true ∧ after (.memtestRegionStart 0) (tester { sweepBank := 3, sweepRegion := 9 }) (fun t => (memSt t 0).phase == 1 && (memSt t 0).bank == 3) := by decide +kernel

theorem test_memtest_phases :
    after (.memtestPhaseDone 0 [3, 3, 20]) (tester { phase := 2 }) (fun t => (memSt t 0).failing == [3]) ∧
    after (.memtestPhaseDone 0 []) (tester { phase := 3, failing := [3] }) (fun t => (memSt t 0).phase == 4 && rdN t (pgMemctl 0) Off.REP_CNT == 1) ∧
    after (.memtestPhaseDone 0 []) (tester { phase := 4 }) (fun t => (memSt t 0).phase == 0 && (memSt t 0).sweepRegion == 1) := by decide +kernel

theorem test_repair_save :
    after (.repairMapSave 0) (tester { toSave := [0x030005#24] }) (fun t => (memSt t 0).saved == [3] && (memSt t 0).toSave == []) := by decide +kernel

theorem test_ret_write :
    Taken (wr (job {}) (pgRetain 0) Off.RET_ADDR 0x1E00#24) host (pgRetain 0) Off.RET_DATA ∧
    after (.retDataWrite host 0 5#24) (wr (job {}) (pgRetain 0) Off.RET_ADDR 0x1E00#24) (fun t => (memSt t 0).queue == [(3584, 5#24)] && rdN t (pgRetain 0) Off.RET_ADDR == 0x1E01) ∧
    after (.retDataWrite host 0 5#24) (wr (job {}) (pgRetain 0) Off.RET_ADDR 5#24) (fun t => (memSt t 0).queue == [] && rb t (pgRetain 0) Off.EVT_LAT 2) := by decide +kernel

theorem test_ret_full :
    after (.retDataWrite host 0 5#24) (wr (tester { queue := List.replicate 8 (4000, 1#24) }) (pgRetain 0) Off.RET_ADDR 0x1E00#24) (fun t => (memSt t 0).queue.length == 8) := by decide +kernel

theorem test_ret_read :
    TakenRead (tester {}) host (pgRetain 0) Off.RET_DATA ∧ after (.retDataRead host 0) (tester { queue := [(0, 6#24)] }) (fun t => t.resp == .data (tagOf t (pgRetain 0) Off.RET_DATA false) 6#24) := by decide +kernel

theorem test_ret_written :
    after (.retWordWritten 0) (tester { queue := [(7, 6#24), (8, 1#24)] }) (fun t => (memSt t 0).queue == [(8, 1#24)] && t.ret == [(21, 6#8)]) := by decide +kernel

def assayed (c : Nat) (x : AsChan) : State := setAsChan (setPstate (job {}) (pgAssay 0) stRunning) 0 c x
theorem test_assay_taken :
    Taken (assayed 18 {}) host (pgAssay 0) Off.AS_CMD ∧ Taken (assayed 18 {}) host (pgAssay 0) Off.AS_TAB_CTRL ∧
    asPresent (assayed 18 {}) 18 = true ∧ running (assayed 18 {}) (pgAssay 0) = true ∧ noXtal (assayed 18 {}) 0 = false ∧ asPresent (assayed 18 {}) 60 = false := by decide +kernel

theorem test_assay_request :
    after (.asRequest host 0 18) (assayed 18 {}) (fun t => (asChan t 0 18).queued == 1 && rdN t (pgAssay 0) Off.AS_CMD_STAT == 0x11201) ∧
    after (.asRequest host 0 60) (assayed 18 {}) (fun t => rdN t (pgAssay 0) Off.AS_CMD_STAT == 0x103C01) ∧
    after (.asCancel host 0 18) (assayed 18 { queued := 1 }) (fun t => (asChan t 0 18).queued == 0) ∧
    noXtal (wb (assayed 2 {}) (pgTb 0) Off.TB_STAT 0 true) 0 = true ∧
    after (.asRequest host 0 2) (wb (assayed 2 {}) (pgTb 0) Off.TB_STAT 0 true) (fun t => (asChan t 0 2).queued == 0 && rdN t (pgAssay 0) Off.AS_CMD_STAT == 0x110201) := by decide +kernel

theorem test_assay_save :
    after (.asSave host 0) (assayed 18 {}) (fun t => saveState t 0 == 1) ∧ after (.asRestore host 0) (assayed 18 {}) (fun t => saveState t 0 == 2) ∧
    after (.asSave host 0) (setSave (assayed 18 {}) 0 2) (fun t => rdN t (pgAssay 0) Off.AS_CMD_STAT == 0x120002) := by decide +kernel

theorem test_assay_restored :
    storeGood (setSave (assayed 18 {}) 0 2) 0 = false ∧ after (.restored 0) (setSave (assayed 18 {}) 0 2) (fun t => rf t (pgAssay 0) Off.AS_SAVE_STAT 4 4 == 3) := by decide +kernel

theorem test_bytes_word :
    ∀ w : Word, bytesWord (BitVec.ofNat 8 w.toNat) (BitVec.ofNat 8 (w.toNat / 256)) (BitVec.ofNat 8 (w.toNat / 65536)) = w := by
    intro w
    have h := w.isLt
    apply BitVec.eq_of_toNat_eq
    simp only [bytesWord, word, BitVec.toNat_ofNat]
    omega

/-- A retention store with a saved copy of 2,040 words 0 and their check word `w`. -/
def savedCopy (w : Word) : State :=
  { setSave (assayed 18 {}) 0 2 with
    ret := [(1008, 1#8), (1017, BitVec.ofNat 8 w.toNat), (1018, BitVec.ofNat 8 (w.toNat / 256)), (1019, BitVec.ofNat 8 (w.toNat / 65536))] }
theorem test_saved_words :
    ∀ w i, retGet (savedCopy w) 0 (344 + i) = 0#24 := by
    intro w i
    have h : ∀ k, 1032 ≤ k → memGet (savedCopy w).ret k = 0#8 := by
      intro k hk
      show memGet [_, _, _, _] k = 0#8
      simp only [memGet]
      rw [if_neg (by omega), if_neg (by omega), if_neg (by omega), if_neg (by omega)]
    show (if (Ecc.good : Ecc) = .bad then 0#24 else retRaw (savedCopy w) 0 (344 + i)) = 0#24
    rw [if_neg (by decide)]
    simp only [retRaw, retAddr]
    rw [h _ (by omega), h _ (by omega), h _ (by omega)]
    rfl

theorem test_assay_stored :
    ∀ w, crcWords (List.replicate 2040 0#24) = w → saveState (savedCopy w) 0 = 2 ∧ storeGood (savedCopy w) 0 = true := by
    intro w hw
    have h1 : retGet (savedCopy w) 0 336 = 1#24 := rfl
    have h2 : retGet (savedCopy w) 0 339 = w := test_bytes_word w
    have h3 : ((List.range 2040).map fun i => retGet (savedCopy w) 0 (344 + i)) = List.replicate 2040 0#24 := by
      rw [List.map_congr_left (g := fun _ => 0#24) (fun i _ => test_saved_words _ i), List.map_const', List.length_range]
    refine ⟨show saveState (setSave (assayed 18 {}) 0 2) 0 = 2 by decide +kernel, ?_⟩
    simp only [storeGood, h1, h2, h3, hw, decide_true, Bool.and_self]

theorem test_assay_table_busy :
    tabBusy (setSave (assayed 0 {}) 0 2) 0 = true ∧ after (.tabClear host 0) (setSave (assayed 0 { points := [(0, [0x800005#24])] }) 0 2) (fun t => ptValid (point (asChan t 0 0) 0)) := by decide +kernel

theorem test_assay_table :
    tabBusy (assayed 18 {}) 0 = false ∧ after (.tabWrite host 0) (wr (wf (assayed 18 {}) (pgAssay 0) Off.AS_TAB_SEL 0 6 18) (pgAssay 0) Off.AS_TAB_W0 0x800001#24)
      (fun t => ptValid (point (asChan t 0 18) 0)) ∧
    after (.tabRead host 0) (wf (assayed 18 { points := [(0, [5#24, 0#24, 0#24, 0#24, 0#24])] }) (pgAssay 0) Off.AS_TAB_SEL 0 6 18) (fun t => rdN t (pgAssay 0) Off.AS_TAB_W0 == 5) ∧
    after (.tabClear host 0) (wf (assayed 18 { points := [(0, [0x800005#24, 0#24, 0#24, 0#24, 0#24])] }) (pgAssay 0) Off.AS_TAB_SEL 0 6 18) (fun t => !ptValid (point (asChan t 0 18) 0)) := by decide +kernel

def assayRun (x : AsChan) : State := setAsActive (assayed 18 x) 0 1 (some 18)
theorem test_assay_start :
    asActive (assayed 18 { queued := 1 }) 0 1 = none ∧ asBest (assayed 18 { queued := 1 }) 0 1 = some 18 ∧
    after (.assayRunStart 0 1) (assayed 18 { queued := 1 }) (fun t => asActive t 0 1 == some 18 && (asChan t 0 18).st == 2) := by decide +kernel

theorem test_assay_takeover :
    asPos 18 = 1 ∧ portIdle (assayRun { st := 2 }) 0 1 = true ∧ spareFree (waitSpare (waitClock (assayRun { st := 2 }) 1) 0 1) 0 1 = true ∧ portIdle (waitSpare (waitClock (assayRun { st := 2 }) 1) 0 1) 0 1 = true ∧ after (.assayTakeover 0 1) (assayRun { st := 2 }) (fun t => (asChan t 0 18).lent) ∧
    after (.assayMeasureStart 0 1) (assayRun { st := 2, lent := true }) (fun t => (asChan t 0 18).st == 3 && t.clock == 16) := by decide +kernel

theorem test_assay_measured :
    after (.assayMeasureEnd 0 1 ((List.range 16).map fun i => asNominal 1 i)) (assayRun { st := 3 })
      (fun t => (asChan t 0 18).result == 1 && t.clock == 32768) ∧
    after (.assayMeasureEnd 0 1 []) (assayRun { st := 3 }) (fun t => (asChan t 0 18).result == 2) := by decide +kernel

theorem test_assay_aborted :
    after (.runDone 0 1) (assayRun { st := 3, aborted := true }) (fun t => asActive t 0 1 == none && (asChan t 0 18).lastResult == 7) := by decide +kernel

theorem test_assay_done :
    after (.runDone 0 1) (assayRun { st := 3, measured := true, result := 2 }) (fun t => asActive t 0 1 == none && (asChan t 0 18).fails == 1 && rb t (pgAssay 0) Off.EVT_LAT 1) := by decide +kernel

def warm (x : ScopeSt) : State := setScope (setPstate (job {}) (pgThermal 0) stRunning) 0 (some 0) x
theorem test_temp_update :
    modeOf (warm {}) 0 = 3 ∧ after (.tempUpdate 0 [1000, 20000] 77) (warm {})
    (fun t => rdN t (pgThermal 0) Off.TH_ISL == 0x103E8 && rdN t (pgThermal 0) Off.TH_WORK_NOW == 77 && (therm t 0).islBad == [1]) := by decide +kernel

theorem test_thermistor :
    pstate (warm {}) (pgHp 0 0) ≠ stOff ∧ after (.thermistorSample 0 0 50) (warm {}) (fun t => rf t (pgThermal 0) Off.TH_HEAD 18 2 == 2) := by decide +kernel

theorem test_grace :
    (scope (warm { warned := true, graceAt := some 0, w0 := 0 }) 0 (some 0)).graceAt = some 0 ∧
    workFallen (warm { warned := true, graceAt := some 0, w0 := 0 }) 0 (some 0) = true ∧
    after (.graceExpiry 0 (some 0)) (warm { warned := true, graceAt := some 0, w0 := 0 }) (fun t => (scope t 0 (some 0)).graceAt == none) := by decide +kernel

def fired : State := let s := warm { warned := true, stage := 1, graceAt := some 0, w0 := 1 }; setTherm s 0 { therm s 0 with fired := [(0, [(0, 4000)])] }
theorem test_grace_enforced :
    let s := fired
    workFallen s 0 (some 0) = false ∧ after (.graceExpiry 0 (some 0)) s (fun t => (scope t 0 (some 0)).stage == 3 && rdN t (pgThermal 0) Off.TH_ENF_CNT == 1) := by decide +kernel

/-- The die scope warned, its work above the reference, in mode `m`. -/
def hotDie (m : Nat) : State :=
  wf (wr (setScope (setPstate (setPstate (job {}) (pgThermal 0) stRunning) (pgEcho 0) stRunning) 0 none
    { warned := true, stage := 1, graceAt := some 0, w0 := 0 }) (pgThermal 0) Off.TH_WORK_NOW 9#24) (pgMode 0) Off.MODE_CUR 0 3 m
theorem test_grace_echo :
    awake (hotDie 4) 0 = true ∧ workFallen (hotDie 4) 0 none = false ∧ echoEff (hotDie 4) 0 ≠ 0 ∧
    after (.graceExpiry 0 none) (hotDie 4) (fun t => (scope t 0 none).stage == 2 && rb t (pgThermal 0) Off.EVT_LAT 1) := by decide +kernel

theorem test_warn_clear :
    after (.warnClear 0 (some 0)) (warm { warned := true, belowAt := some 5 }) (fun t => !(scope t 0 (some 0)).warned && 25000005 ≤ t.clock) := by decide +kernel

def lampRun (x : LampSt) : State := setLamp (setPstate (job {}) (pgLamp 0) stRunning) 0 x
def atSec (n : Nat) (s : State) : State := { s with pkg := { s.pkg with seconds := n } }
theorem test_lamp_measure :
    lampOn (lampRun {}) 0 = true ∧ after (.lampMeasure 0) (atSec 7200 (lampRun {})) (fun t => (lamp t 0).since == some 0 && (lamp t 0).hourDone == 2) ∧
    Taken (lampRun {}) host (pgLamp 0) Off.LAMP_CMD ∧ after (.lampMeasureCmd host 0) (lampRun {}) (fun t => (lamp t 0).since == some 0) := by decide +kernel

theorem test_lamp_measured :
    islandUp (lampRun {}) 1 = true ∧ after (.measured 0 [(1000, 1001), (1000, 1003)]) (lampRun { since := some 0 })
    (fun t => (island t 0 1).drift == 3000 && t.clock == 2 ^ 20) := by decide +kernel

theorem test_lamp_calint_off :
    after (.calintExpiry 0 1) (atSec 3000000 (wb (lampRun {}) (pgAssay 0) Off.AS_CFG 1 false)) (fun t => (island t 0 1).lastAge == 0) := by decide +kernel

theorem test_lamp_calint :
    fwRuns (lampRun {}) 0 = true ∧ awake (lampRun {}) 0 = true ∧ after (.calintExpiry 0 1) (atSec 3000000 (setPstate (lampRun {}) (pgAssay 0) stRunning)) (fun t => (island t 0 1).lastAge == 3000000) := by decide +kernel

theorem test_lamp_history :
    fwRuns (lampRun {}) 0 = true ∧ after (.histWritten 0) (atSec 86400 (lampRun { n := 4 })) (fun t => (lamp t 0).dayDone == 1 && retRaw t 0 2386 == 1#24) ∧
    after (.histClear host 0) { lampRun {} with ret := [(retAddr 0 2386, 4#8)] } (fun t => t.ret == []) := by decide +kernel

def fwOn : State := setFwUp (setPstate (setPstate (job {}) (pgMbox 0 false) stRunning) (pgMbox 0 true) stRunning) 0 true
def slotAt (st cmd len : Nat) (x : MboxCh) (s : State) : State :=
  setMbox (setInState (wr s (pgMbox 0 true) Off.IN_HDR (word (cmd * 2 ^ 16 + 0x500 + len * 16))) 0 true 0 st) 0 4 x
def boss : Req := ⟨.firmware, 0⟩
theorem test_mbox_post :
    Taken fwOn host (pgMbox 0 false) (mbOff 0 Off.IN_HDR) ∧ pstate fwOn (pgMbox 0 false) ≠ stOff ∧ inState fwOn 0 false 0 = 0 ∧
    after (.mailboxPost host 0 false 0 0x020510#24) fwOn (fun t => inState t 0 false 0 == 1 && inCmd t 0 false 0 == 2) ∧
    after (.mailboxPost host 0 false 0 0x020510#24) (wr fwOn (pgMbox 0 false) Off.IN_LAST 0x501#24) (fun t => inState t 0 false 0 == 3 && rdN t (pgMbox 0 false) Off.CNT_REPLAY == 1) ∧
    after (.mailboxPost host 0 false 0 0x020510#24) (setInState fwOn 0 false 0 2) (fun t => inState t 0 false 0 == 2 && rdN t (pgMbox 0 false) Off.CNT_SLOT_BUSY == 1) := by decide +kernel

theorem test_mbox_take :
    fullSlots (slotAt 1 2 1 {} fwOn) 0 = [(true, 0)] ∧ after (.mailboxTake 0) (slotAt 1 2 1 {} fwOn) (fun t => inState t 0 true 0 == 2) ∧
    oldEpoch (wf (slotAt 1 9 1 {} fwOn) (pgMbox 0 true) Off.MB_EPOCH 8 8 1) 0 true 0 = true ∧
    after (.mailboxTake 0) (wf (slotAt 1 9 1 {} fwOn) (pgMbox 0 true) Off.MB_EPOCH 8 8 1) (fun t => inState t 0 true 0 == 3 && rf t (pgMbox 0 true) Off.IN_ACK 8 8 == 1) := by decide +kernel

theorem test_mbox_done :
    after (.inDone 0 true 0) (slotAt 2 2 1 { result := some (0, [7#24]) } fwOn) (fun t => inState t 0 true 0 == 3 && rdN t (pgMbox 0 true) Off.IN_RES == 7) := by decide +kernel

theorem test_mbox_done_held :
    fwLive fwOn 0 = true ∧ after (.inDone 0 true 0) (setPstate (slotAt 2 2 1 { result := some (0, [7#24]) } fwOn) (pgMbox 0 true) stFenced) (fun t => inState t 0 true 0 == 2 && (mbox t 0 4).held.isSome) ∧
    after (.inDone 0 true 0) (slotAt 2 2 1 { result := some (0, [7#24]), discard := true } fwOn) (fun t => inState t 0 true 0 == 0 && rdN t (pgMbox 0 true) Off.CNT_ACK_DISCARD == 1) ∧
    after (.mailboxPost host 0 false 0 0x020510#24) (setPstate fwOn (pgMbox 0 false) stOff) (fun t => inState t 0 false 0 == 0) := by decide +kernel

theorem test_mbox_notice :
    rb fwOn (pgMbox 0 true) Off.MB_CFG 0 = true ∧ after (.outFull 0 true 0) (slotAt 0 0 0 { queue := [(0x81, [1#24])] } fwOn)
      (fun t => rb t (pgMbox 0 true) Off.OUT_STAT 0 && rdN t (pgMbox 0 true) Off.OUT_HDR == 0x810010) ∧
    Taken (wb fwOn (pgMbox 0 false) Off.OUT_STAT 0 true) host (pgMbox 0 false) (mbOff 0 Off.OUT_ACK) ∧
    after (.noticeAck host 0 false 0 0#24) (wb fwOn (pgMbox 0 false) Off.OUT_STAT 0 true) (fun t => !rb t (pgMbox 0 false) Off.OUT_STAT 0) ∧
    after (.noticeAck host 0 false 0 0x300#24) (wb fwOn (pgMbox 0 false) Off.OUT_STAT 0 true) (fun t => rb t (pgMbox 0 false) Off.OUT_STAT 0) := by decide +kernel

theorem test_mbox_stuck :
    rf fwOn (pgMbox 0 true) Off.MB_CFG 16 8 ≠ 0 ∧ after (.inStuck 0 true 0) (slotAt 1 2 1 {} fwOn) (fun t => rb t (pgMbox 0 true) Off.EVT_LAT 8) ∧
    after (.outStuck 0 true 0) (wb fwOn (pgMbox 0 true) Off.OUT_STAT 0 true) (fun t => rb t (pgMbox 0 true) Off.EVT_LAT 12) := by decide +kernel

def cmd (c len : Nat) (args : List Word) (s : State) : State := slotAt 2 c len { args := args } s
theorem test_cmd_info :
    inReady (cmd 1 0 [] fwOn) 0 true 0 1 = true ∧ inLen (cmd 1 0 [] fwOn) 0 true 0 = 0 ∧ after (.getInfo 0 true 0) (cmd 1 3 [] fwOn)
      (fun t => (mbox t 0 4).result == some (4, [])) ∧
    after (.ping 0 true 0) (cmd 2 2 [7#24, 8#24, 9#24] fwOn) (fun t => (mbox t 0 4).result == some (0, [7#24, 8#24])) := by decide +kernel

theorem test_cmd_discover :
    inReady (cmd 3 1 [0#24] (job {})) 0 true 0 3 = false ∧
    (let s := cmd 3 1 [0#24] (wb (setPort fwOn 0 0 { link := 5 }) (pgHp 0 0) Off.PAGE_CTRL 0 true)
     inReady s 0 true 0 3 = true ∧ after (.headDiscover 0 true 0 none) s (fun t => (port t 0 0).link == 5 && (fw t 0).long == some ⟨true, 0, 3, 0, 0⟩)) := by decide +kernel

theorem test_cmd_side :
    sbBad fwOn 0x014000#24 = false ∧ sbTaken fwOn 0 0x014000#24 = false ∧
    after (.sbRead 0 true 0 (some [1#8, 2#8])) (cmd 4 1 [0x014000#24] fwOn) (fun t => (mbox t 0 4).result == some (0, [0x201#24])) ∧
    after (.sbWrite 0 true 0 true) (cmd 5 2 [0x014000#24, 0x201#24] fwOn) (fun t => t.out == [.sideWrite 0 0 64 [1, 2]]) ∧
    after (.sbWrite 0 true 0 false) (cmd 5 2 [0x014000#24, 0x201#24] fwOn) (fun t => (mbox t 0 4).result == some (9, [])) ∧
    inLen (cmd 8 1 [] fwOn) 0 true 0 = 1 ∧ after (.abortLong 0 true 0) (cmd 8 1 [] fwOn) (fun t => (mbox t 0 4).result == some (4, [])) := by decide +kernel

theorem test_cmd_long :
    is16E fwOn = true ∧ after (.captureRef 0 true 0) (cmd 6 1 [0#24] fwOn) (fun t => (fw t 0).long.isSome) ∧
    after (.assayRequest 0 true 0) (cmd 7 1 [0x112#24] (setPstate fwOn (pgAssay 0) stRunning)) (fun t => (fw t 0).long.isSome) ∧
    after (.assayRequest 0 true 0) (cmd 7 1 [0x12#24] (setPstate fwOn (pgAssay 0) stRunning)) (fun t => (mbox t 0 4).result == some (0, [1#24])) ∧
    after (.abortLong 0 true 0) (setFw (cmd 8 0 [] fwOn) 0 { long := some ⟨false, 1, 7, 0, 0x112⟩ }) (fun t => (fw t 0).long == none && (mbox t 0 4).result == some (0, [])) := by decide +kernel

theorem test_cmd_tally :
    after (.tallyClear 0 true 0) { cmd 9 1 [2#24] fwOn with ret := [(retAddr 0 24, 4#8)] } (fun t => t.ret == []) := by decide +kernel

theorem test_cmd_lifecycle :
    lcDenied fwOn 0 1 = false ∧ after (.lifecycleAdvance 0 true 0 true) (cmd 0x41 2 [1#24, 0x5AA5C3#24] fwOn) (fun t => (die t 0).lc == 1) ∧
    lcDenied fwOn 0 0 = true ∧ after (.lifecycleAdvance 0 true 0 true) (cmd 0x41 2 [0#24, 0x5AA5C3#24] fwOn) (fun t => (mbox t 0 4).result == some (5, [])) := by decide +kernel

theorem test_fw_restart :
    after (.fwRestart 0 true 0) (cmd 0x40 0 [] fwOn) (fun t => !fwUp t 0 && fwEpoch t 0 true == 1 && inState t 0 true 0 == 3) := by decide +kernel

theorem test_fw_watchdog :
    after (.fwWatchdogRestart 0) fwOn (fun t => !fwUp t 0 && fwEpoch t 0 false == 1 && (fw t 0).cause == 3) ∧
    after (.fwStarted 0) (setFw (setFwUp fwOn 0 false) 0 { cause := 2 }) (fun t => fwUp t 0) := by decide +kernel

theorem test_fw_timeout :
    let l : LongCmd := ⟨true, 0, 7, 5, 0x112⟩
    longResult (setFw (setAsChan fwOn 0 18 { st := 2 }) 0 { long := some l }) 0 l = none ∧
    after (.longCmdTimeout 0) (setFw (setFwUp (setAsChan fwOn 0 18 { st := 2 }) 0 true) 0 { long := some l }) (fun t => (fw t 0).long == none && t.clock == 500000005) := by decide +kernel

theorem test_tally_clear :
    Taken fwOn host (pgTally 0) Off.TL_CLEAR ∧ after (.tlClear host 0 3#24) fwOn (fun t => rdN t (pgTally 0) Off.TL_CLEAR == 3) ∧
    after (.cleared 0) { wr fwOn (pgTally 0) Off.TL_CLEAR 3#24 with ret := [(retAddr 0 24, 4#8)] } (fun t => t.ret == [] && rdN t (pgTally 0) Off.TL_CLEAR == 0 && rb t (pgTally 0) Off.EVT_LAT 1) := by decide +kernel

def endpoint (x : PcieSt) : State := { job {} with pcie := x }
theorem test_host_there :
    present (endpoint {}) pgPcie = true ∧ powered (endpoint {}) = true ∧ linkShape 4 4 = true := by decide +kernel

theorem test_flr :
    after .flr (endpoint { bme := true, mse := true, unmasked := [3] }) (fun t => !t.pcie.bme && rdN t pgPcie Off.CNT_FLR == 1 && rf t (pgMbox 0 false) Off.MB_EPOCH 0 8 == 1) ∧
    after .conventionalReset (endpoint {}) (fun t => t.pcie.perst) := by decide +kernel

theorem test_host_reads :
    after (.completionTimeout ⟨0, 2⟩) (wf (endpoint { reads := [⟨0, 1, 0, 4096, 8, 0⟩] }) pgPcie Off.PC_CFG 0 2 1) (fun t => t.out == [.hostRead 0 1 4096 8] && rdN t pgPcie Off.CNT_REISSUE == 1 && rdN t pgPcie Off.CNT_CORR == 2) ∧
    after (.completionTimeout ⟨0, 0⟩) (wf (endpoint { reads := [⟨0, 1, 0, 4096, 8, 1⟩] }) pgPcie Off.PC_CFG 0 2 1) (fun t => t.pcie.reads == [] && rdN t pgPcie Off.CNT_CTO == 1) := by decide +kernel

theorem test_msix_pending :
    msixOpen (endpoint { msixEn := true, bme := true, unmasked := [7], pba := [7] }) 7 = true ∧
    after (.msixPendingSend 7) (endpoint { msixEn := true, bme := true, unmasked := [7], pba := [7] }) (fun t => t.out == [.msix 7] && t.pcie.pba == []) := by decide +kernel

theorem test_link_up_down :
    after (.pcieLinkUp 4 4 0x11) (setDie (endpoint {}) 0 { die (endpoint {}) 0 with boot := { complete := true } }) (fun t => rf t pgPcie Off.PC_STAT 16 4 == 4 && rb t pgPcie Off.EVT_LAT 0) ∧
    after (.pcieLinkDown 0) (wb (endpoint {}) pgPcie Off.PC_STAT 0 true) (fun t => rdN t pgPcie Off.CNT_LINKDOWN == 1) ∧
    after .busMasterEnable { State.reset with part := { State.reset.part with dies := 1 } } (fun t => t.pcie.bme) := by decide +kernel

def sess (x : SessSt) : State := setDie twoDies 0 { die twoDies 0 with sess := x }
def owner : Req := ⟨.secHost, 1⟩
theorem test_sess_start :
    Taken (sess {}) owner (pgSess 0) Off.SESS_CTRL ∧
    after (.sessionStart owner 0 true) (sess {}) (fun t => (die t 0).sess.st == 1 && rdN t (pgSess 0) Off.SESS_RID == 1) ∧
    after (.sessionClose owner 0) (sess { st := 2 }) (fun t => (die t 0).sess.st == 0 && rb t (pgSess 0) Off.EVT_LAT 2) := by decide +kernel

theorem test_sess_check :
    Taken (sess { st := 1 }) owner (pgSess 0) (Off.SESS_RESP + 40) ∧ sessOther (sess { st := 1 }) owner 0 = false := by decide +kernel

/-- A die in the challenge whose first ten response words are right, and the eleventh. -/
def answered : State × Word :=
  let s := sess { st := 1 }
  let ws := words256 (dieHmac s 0 (sessMsg s 0 ++ [1]))
  (wrs s (pgSess 0) Off.SESS_RESP (ws.take 10), ws.getD 10 0#24)
theorem test_sess_opens :
    Taken answered.1 owner (pgSess 0) (Off.SESS_RESP + 40) ∧
    after (.sessionCheck owner 0 answered.2) answered.1 (fun t => (die t 0).sess.st == 2 && rdN t (pgSess 0) Off.SESS_OPENS == 1) ∧
    after (.sessionCheck owner 0 5#24) (sess { st := 1, consec := 3 }) (fun t => (die t 0).sess.st == 3 && rdN t (pgSess 0) Off.SESS_FAILS == 1) := by decide +kernel

theorem test_sess_timeout :
    after (.sessionTimeout 0) ((wf (sess { st := 2 }) (pgSess 0) Off.SESS_TMO 0 16 60)) (fun t => (die t 0).sess.st == 0 && t.clock == 15000000000) ∧
    after (.backoffEnd 0) (sess { st := 3, backoffEnd := 77 }) (fun t => (die t 0).sess.st == 0 && t.clock == 77) := by decide +kernel

theorem test_guard_write :
    Taken (sess { st := 2 }) owner (pgGuard 0) Off.GD_MEM ∧ after (.guardWrite owner 0 Off.GD_MEM 0#24) (sess { st := 2 })
    (fun t => rdN t (pgGuard 0) Off.GD_CHANGES == 1 && rb t (pgGuard 0) Off.EVT_LAT 0) := by decide +kernel

theorem test_ijl_allow :
    Taken (sess { st := 2 }) owner (pgIjl 0) Off.IJL_CTRL ∧ after (.ijlAllowWrite owner 0 true) (setDie (sess { st := 2 }) 0 { die (sess { st := 2 }) 0 with lc := 1 })
    (fun t => rb t (pgIjl 0) Off.IJL_CTRL 0 && rb t (pgIjl 0) Off.IJL_STAT 0) := by decide +kernel

def tapped (lc : Nat) (x : TapSt) : State := setDie twoDies 0 { die twoDies 0 with tap := x, lc := lc }
theorem test_tap_pins :
    takesFence (setPstate twoDies (pgAx 0 1) stRunning) (pgAx 0 1) = true ∧ pgAx 0 1 ∈ bscanPages (tapped 0 {}) 0 ∧
    after (.samplePreload 0) (tapped 0 {}) (fun t => (die t 0).tap.ir == 1) ∧ irListed 0x50 = false ∧ after (.bypass 0 0x50) (tapped 0 {}) (fun t => (die t 0).tap.ir == 0x50) := by decide +kernel

theorem test_tap_idcode :
    after (.idcode 0) (tapped 0 {}) (fun t => t.resp == .tdo 0x25E3056D) ∧ after (.dbgStatus 0) (tapped 0 {}) (fun t => (die t 0).tap.ir == 0x40) := by decide +kernel

theorem test_tap_unlock :
    after (.unlockResp 0 5) (tapped 0 {}) (fun t => (die t 0).tap.session && rb t (pgDebug 0) Off.EVT_LAT 0) ∧
    after (.unlockResp 0 5) (tapped 2 {}) (fun t => !(die t 0).tap.session && (die t 0).tap.fails == 1) := by decide +kernel

theorem test_tap_access :
    after (.dbgAccess 0 false 0x1000 0) (tapped 0 { session := true }) (fun t => (die t 0).tap.accDone && t.resp == .tdo 0) ∧
    after (.dbgAccess 0 false 0x1000 0) (tapped 0 {}) (fun t => (die t 0).tap.ir == 0x43) := by decide +kernel

theorem test_tap_close :
    after (.dbgClose 0) (tapped 0 { session := true }) (fun t => !(die t 0).tap.session && rb t (pgDebug 0) Off.EVT_LAT 1) ∧
    after (.trstLow 0) (tapped 0 { session := true }) (fun t => !(die t 0).tap.session && (die t 0).tap.ir == 255) ∧
    (let s := setDie twoDies 0 { die twoDies 0 with tap := { session := true }, sess := { st := 2 } }
     Taken s owner (pgDebug 0) Off.DBG_CTRL ∧ after (.dbgCtrlClose owner 0) s (fun t => !(die t 0).tap.session)) := by decide +kernel

def asleepAt (p : Power) (x : Bool) : State := { twoDies with pkg := { twoDies.pkg with power := p, vinEn := x, vaonOn := true } }
theorem test_power_off :
    (asleepAt .stopped false).pkg.power = .stopped ∧ after .vinOff { asleepAt .stopped false with mem := [(5, 1#8)] } (fun t => decide (t.pkg.power = .off) && t.mem == []) ∧
    powered twoDies = true ∧ after .vinBrownout { twoDies with mem := [(5, 1#8)], ret := [(5, 1#8)] } (fun t => t.mem == [] && t.ret == [(5, 1#8)]) := by decide +kernel

theorem test_power_wake :
    wakeNow (asleepAt .stopped false) = true ∧
    after (.wakePin 2 true) (wb (asleepAt .stopped false) (pgDie 0) Off.PWR_CFG 6 true) (fun t => t.pkg.woken && t.pkg.wokeBy == 64) ∧
    after .wakeAlarm (wr48 (wb (asleepAt .stopped false) (pgDie 0) Off.PWR_CFG 12 true) (pgDie 0) Off.PWR_ALARM_L 0) (fun t => t.pkg.wokeBy == 4) := by decide +kernel

theorem test_power_vaon :
    after .vaonReset { twoDies with pkg := { twoDies.pkg with seconds := 9 } } (fun t => t.pkg.seconds == 0) ∧ after .vaonApplied { twoDies with pkg := { twoDies.pkg with vaonOn := false } } (fun t => t.pkg.powerOn) := by decide +kernel

theorem test_power_good :
    vinReturns (asleepAt .off true) = true ∧ after (.powerGood 0) (asleepAt .off true) (fun t => (die t 0).boot.step == 1 && (die t 1).boot.step == 0) := by decide +kernel

theorem test_power_dormant :
    let s := wb { twoDies with pkg := { twoDies.pkg with power := .entering, nextMode := 0 } } (pgMode 0) Off.MODE_CUR 8 true
    s.pkg.power = .entering ∧ inTransition s = true := by decide +kernel

def booting (st : Nat) : State := setDie (setDie twoDies 0 { boot := { step := st, outcome := List.replicate st 1 } }) 1 { boot := { step := st, outcome := List.replicate st 1 } }
theorem test_boot_fuses :
    atStep (booting 1) 0 1 = true ∧ stepSkip (boardOpen (booting 1) 0) 0 = false ∧
    after (.fuseRead 1 ⟨true, true, 77, 0, 0, 0, 0, 1⟩) (booting 1) (fun t => (die t 1).boot.step == 3 && (die t 1).serial == 77 && (die t 1).lc == 1) := by decide +kernel

theorem test_boot_clocks :
    stepSkip (booting 2) 0 = false ∧ after .crystal (booting 2) (fun t => (die t 0).boot.step == 3) ∧
    after (.pllLock 1) (booting 3) (fun t => (die t 1).boot.step == 4 && (die t 1).counting) := by decide +kernel

theorem test_boot_memory :
    after (.memRepair 1) { booting 4 with mem := [(2 ^ 24 + 0x400000, 1#8)] } (fun t => (die t 1).boot.step == 5 && t.mem == [] && burimState t 1 1 == 1) := by decide +kernel

theorem test_boot_links :
    let s := wf (wf (booting 5) (pgBurim 0) Off.BU_STAT_0 0 3 1) (pgBurim 1) (Off.BU_STAT_0 + 4) 0 3 1
    burimPeer 2 0 0 = some (1, 1) ∧ linkIn s 0 0 1 1 1 = true ∧ linkSkip s 0 0 = false ∧ atStep s 1 5 = true := by decide +kernel

theorem test_boot_firmware :
    stepSkip (booting 6) 1 = false ∧ atStep (booting 6) 1 6 = true ∧
    after (.pcieLink 5 8 0x11) (booting 7) (fun t => (die t 0).boot.step == 8 && rf t pgPcie Off.PC_STAT 16 4 == 5) := by decide +kernel

theorem test_boot_assay :
    let s := wb (booting 8) (pgFence 0) Off.FN_DIE_STAT 0 true
    enumerated s 0 = true ∧ startupRunsEnded s 0 = true ∧ after (.initialAssay 0) s (fun t => (die t 0).boot.complete && !(die t 1).boot.complete) := by decide +kernel

theorem test_boot_failure :
    canFail (booting 2) 0 2 = true ∧ after (.bootStepTimeout 0 2 1) (booting 2) (fun t => (die t 0).boot.restartAt == some 2500000) ∧
    failedAt (setDie (booting 2) 0 { boot := { step := 2, restartAt := some 9 } }) = some 9 ∧
    after .bootRestart (setDie (booting 2) 0 { boot := { step := 2, restartAt := some 9 } }) (fun t => (die t 0).boot.step == 0 && (die t 1).boot.step == 0 && t.clock == 2500009) := by decide +kernel

def linked2 (st : Nat) : State := wf (wf twoDies (pgBurim 0) Off.BU_STAT_0 0 3 st) (pgBurim 1) (Off.BU_STAT_0 + 4) 0 3 st
theorem test_burim_flit :
    burimPeer (linked2 2).part.dies 0 0 = some (1, 1) ∧ linkIn (linked2 2) 0 0 1 1 2 = true ∧ running (linked2 2) (pgInject 1) = false ∧
    (flitPick (burim (flitOffer (linked2 2) 1 1 { kind := 1 }) 1 1) (burim (flitOffer (linked2 2) 1 1 { kind := 1 }) 1 1).queue).map Flit.src = some 1 := by decide +kernel

theorem test_burim_crosses :
    after (.flitReceive 0 0 { kind := 1 }) (linked2 2) (fun t => (burim t 0 0).last == 0 && (burim t 1 1).next == 1 && rdN t (pgBurim 0) Off.CNT_RX == 1) := by decide +kernel

theorem test_burim_noise :
    let x := onLanes (linked2 2) 1 1 1 { seq := 0, kind := 0, dst := 0, src := 1 }; flitCrc (x / 2 ^ 24) ≠ x % 2 ^ 24 := by decide +kernel

theorem test_burim_crc :
    after (.flitReceive 0 0 { kind := 0, noise := 1 }) (linked2 2) (fun t => rdN t (pgBurim 0) Off.CNT_CRC == 1 && (burim t 0 0).last == 1023) := by decide +kernel

theorem test_burim_nak :
    after (.nakReceive 0 0 4) (setBurim (setBurim (linked2 2) 1 1 { nak := some 4 }) 0 0 { buf := [{ seq := 4, kind := 1 }, { seq := 5, kind := 1 }] }) (fun t => (burim t 0 0).resend == [5]) := by decide +kernel

theorem test_burim_retrain :
    after (.burimRetrain 0 0) (linked2 2) (fun t => linkIn t 0 0 1 1 3 && rb t (pgBurim 0) Off.EVT_LAT 4) ∧
    after (.burimRetrainDone 0 0 true) (linked2 3) (fun t => linkIn t 0 0 1 1 2) ∧ after (.burimRetrainDone 0 0 false) (linked2 3) (fun t => (burim t 0 0).attempts == 1) := by decide +kernel

theorem test_burim_lost :
    after (.burimRetrainDone 0 0 false) (setBurim (linked2 3) 0 0 { attempts := 2 }) (fun t => linkIn t 0 0 1 1 4) := by decide +kernel

/-- Four dies in a ring of UP links, with a flit from die 3 to die 1 waiting at port 0 of die 3. -/
def ringed : State :=
  let s := [0, 1, 2, 3].foldl (fun s d => wf (wf s (pgBurim d) Off.BU_STAT_0 0 3 2) (pgBurim d) (Off.BU_STAT_0 + 4) 0 3 2) { twoDies with part := { twoDies.part with dies := 4 } }
  setBurim s 3 0 { queue := [{ seq := 0, kind := 1, dst := 1, src := 3, words := [5#24] }] }
theorem test_burim_forwards :
    burimPeer 4 0 1 = some (3, 0) ∧ linkIn ringed 0 1 3 0 2 = true ∧ routePort ringed 0 1 false = some 0 ∧
    after (.flitReceive 0 1 { kind := 0 }) ringed (fun t => (burim t 0 0).queue == [{ seq := 0, kind := 1, dst := 1, src := 3, words := [5#24], via := some 1 }]) := by decide +kernel

theorem test_lead_minimum :
    Taken twoDies host (pgMode 0) Off.MODE_LEAD ∧
    after (.registerWrite host (.reg (pgMode 0) Off.MODE_LEAD) ⟨4, true, false⟩ 499) twoDies (fun t => rf t (pgMode 0) Off.MODE_LEAD 0 16 == 500) ∧
    after (.modeLeadWrite host 0 501#24) twoDies (fun t => rf t (pgMode 0) Off.MODE_LEAD 0 16 == 501) := by decide +kernel

theorem test_vector_plain :
    Taken twoDies host (pgTb 0) Off.EVT_VEC ∧
    after (.registerWrite host (.reg (pgTb 0) Off.EVT_VEC) ⟨4, true, false⟩ 95) twoDies (fun t => rf t (pgTb 0) Off.EVT_VEC 0 7 == 95) ∧
    after (.evtVecWrite host (pgTb 0) 96#24) (wf twoDies (pgTb 0) Off.EVT_VEC 0 7 9) (fun t => rf t (pgTb 0) Off.EVT_VEC 0 7 == 9) := by decide +kernel

theorem test_vector_secure :
    Taken twoDies ⟨.firmware, 0⟩ (pgSecDie 0) Off.EVT_VEC ∧
    after (.evtVecWrite ⟨.firmware, 0⟩ (pgSecDie 0) 127#24) twoDies (fun t => rf t (pgSecDie 0) Off.EVT_VEC 0 7 == 127) ∧
    after (.evtVecWrite ⟨.firmware, 0⟩ (pgSecDie 0) 95#24) twoDies (fun t => rf t (pgSecDie 0) Off.EVT_VEC 0 7 == rf twoDies (pgSecDie 0) Off.EVT_VEC 0 7) := by decide +kernel

theorem test_wide_capture :
    TakenRead twoDies host (pgTb 0) Off.TB_NOW_L ∧ (regRow (pgTb 0) Off.TB_NOW_L).map (·.caps) = some 1 ∧
    after (.wideLRead host (.reg (pgTb 0) Off.TB_NOW_L) 4) (setDie twoDies 0 { counting := true, tick := 2 ^ 30 }) (fun t =>
      Tbl.get t.caps (clsCode .nsHost, (pgTb 0, Off.TB_NOW_L + 4)) 0#24 == 64#24) := by decide +kernel

theorem test_wide_later :
    TakenRead twoDies host (pgTb 0) (Off.TB_NOW_L + 4) ∧
    after (.wideLRead host (.reg (pgTb 0) (Off.TB_NOW_L + 4)) 4) { twoDies with caps := Tbl.put [] (clsCode .nsHost, (pgTb 0, Off.TB_NOW_L + 4)) 64#24 }
      (fun t => t.resp == .data 2 64#24) ∧
    after (.wideLRead ⟨.firmware, 0⟩ (.reg (pgTb 0) (Off.TB_NOW_L + 4)) 4) { twoDies with caps := Tbl.put [] (clsCode .nsHost, (pgTb 0, Off.TB_NOW_L + 4)) 64#24 }
      (fun t => t.resp == .data 2 0#24) := by decide +kernel

theorem test_absent_pages :
    (pgKind (ns 0 0x3F) = .absent ∧ present twoDies (ns 0 0x3F) = false ∧ answers twoDies host (ns 0 0x3F) = true) ∧
    after (.wideLRead host (.reg (ns 0 0x3F) 0) 4) twoDies (fun t => t.resp == .data 63 0#24) ∧
    after (.registerWrite host (.reg (ns 0 0x3F) 0x44) ⟨2, true, false⟩ 7) twoDies (· == twoDies) := by decide +kernel

theorem test_absent_pcie :
    pgKind { pgPcie with die := 1 } = .pcie ∧ present twoDies { pgPcie with die := 1 } = false ∧ answers twoDies host { pgPcie with die := 1 } = true := by decide +kernel

def lowTier : State := { twoDies with part := { dies := 2, tier := .t08 } }
theorem test_absent_tier :
    (lowTier.part.tier = .t08 ∧ absent08 (ns 0 0x18) = true) ∧ present lowTier (ns 0 0x18) = false ∧ answers lowTier host (ns 0 0x18) = true := by decide +kernel

theorem test_locked_pages :
    (isHost ⟨.secHost, 1⟩ = true ∧ answers twoDies ⟨.secHost, 1⟩ (pgGuard 0) = true ∧ present twoDies (pgGuard 0) = true ∧
    sessionServes twoDies 0 ⟨.secHost, 1⟩ = false ∧ (pgGuard 0).num ≠ 5 ∧ rb twoDies (pgGuard 0) Off.ERR_INFO 23 = false) ∧
    after (.wideLRead ⟨.secHost, 1⟩ (.reg (pgGuard 0) Off.GD_NS) 4) twoDies (fun t => t.resp == .data 129 0#24) ∧
    after (.registerWrite ⟨.secHost, 1⟩ (.reg (pgGuard 0) Off.GD_NS) ⟨4, true, false⟩ 0) twoDies (fun t =>
      rd t (pgGuard 0) Off.GD_NS == rd twoDies (pgGuard 0) Off.GD_NS && rf t (pgGuard 0) Off.ERR_INFO 8 8 == 4) := by decide +kernel

theorem test_session_page :
    (pgSess 1).num = 5 ∧ answers twoDies ⟨.secHost, 1⟩ (pgSess 1) = true ∧ present twoDies (pgSess 1) = true ∧
    sessionServes twoDies 1 ⟨.secHost, 1⟩ = false ∧ after (.wideLRead ⟨.secHost, 1⟩ (.reg (pgSess 1) Off.SESS_TMO) 4) twoDies (fun t =>
      t.resp == .data 5 (rd twoDies (pgSess 1) Off.SESS_TMO)) := by decide +kernel

theorem test_fuse_frame :
    setsFuses .vinOff = false ∧ after .vinOff (setDie twoDies 0 { die twoDies 0 with lc := 2, key := 77 }) (fun t => fuses (die t 0) == fuses { die twoDies 0 with lc := 2, key := 77 }) := by decide +kernel

theorem test_session_frame :
    opensSessions (.backoffEnd 0) = false ∧ after (.backoffEnd 0) twoDies (fun t => (die t 0).sess.st != 2) := by decide +kernel

end Sys2Proof.Tests
end

namespace Sys2Proof.Machine

/-! Register writes that are taken. -/

/-- A field of `n` bits holds less than `2 ^ n`. -/
theorem fld_lt (w : Word) (lo n : Nat) : fld w lo n < 2 ^ n := Nat.mod_lt _ (Nat.two_pow_pos n)

/-- A word rebuilt from its number. -/
@[simp] theorem word_toNat (v : Word) : word v.toNat = v := by simp [word]

/-- The equation of REGISTER_WRITE for a target in a register page. -/
theorem exec_registerWrite_reg (r : Req) (p : Pg) (off : Nat) (sh : Shape) (v : Nat) (s : State) :
    exec (.registerWrite r (.reg p off) sh v) s = .next (if off < 0x1000 then shapedWrite s r p off sh (word v) else s) := rfl

section
variable {s : State} {r : Req} {p : Pg} {off : Nat} (h : Taken s r p off)
include h

/-- A taken write has its effect, on a state whose session it has kept alive (R379). -/
theorem guardedWrite_of_taken (eff : State → State) : guardedWrite s r p off eff = eff (touchSession s r p) := by
  obtain ⟨hpow, hpass⟩ := h
  simp only [guardedWrite, hpow, hpass, Bool.not_true, Bool.false_eq_true, if_false]

/-- A taken write of an aligned 32-bit register has the register's own effect (R34, R36). -/
theorem exec_registerWrite_of_taken (hoff : off < 0x1000) (hal : off % 4 = 0) (v : Nat) :
    exec (.registerWrite r (.reg p off) ⟨4, true, false⟩ v) s = .next (regEffect r p off (word v) (touchSession s r p)) := by
  have hpow : powered s = true := h.1
  calc exec (.registerWrite r (.reg p off) ⟨4, true, false⟩ v) s
      = .next (shapedWrite s r p off ⟨4, true, false⟩ (word v)) := by rw [exec_registerWrite_reg, if_pos hoff]
    _ = .next (guardedWrite s r p off (regEffect r p off (word v))) := by simp [shapedWrite, regWrite, hpow, hal]
    _ = _ := by rw [guardedWrite_of_taken h]

end

/-! `MODE_LEAD` (R32). -/

/-- The equation of MODE_LEAD_WRITE. -/
theorem exec_modeLeadWrite (r : Req) (d : Nat) (v : Word) (s : State) :
    exec (.modeLeadWrite r d v) s = .next (guardedWrite s r (pgMode d) Off.MODE_LEAD (modeLeadSet d v)) := rfl

/-- On die 0 the register's own effect is the rule's. -/
theorem regEffect_modeLead (r : Req) (v : Word) (s : State) :
    regEffect r (pgMode 0) Off.MODE_LEAD v s = modeLeadSet 0 v s := rfl

/-- The lead that a write leaves: the value written, raised to 500. -/
theorem rf_modeLeadSet (v : Word) (s : State) :
    rf (modeLeadSet 0 v s) (pgMode 0) Off.MODE_LEAD 0 16 = max 500 (fld v 0 16) := by
  have hlt : max 500 (fld v 0 16) < 2 ^ 16 := max_lt (by decide) (fld_lt v 0 16)
  simp only [modeLeadSet, ne_eq, not_true_eq_false, if_false]
  rw [rf_wf_same _ _ _ _ _ _ (by decide), Nat.mod_eq_of_lt hlt]

/-- Both ways of writing the register set the lead. -/
theorem exec_modeLead_of_taken {s : State} {r : Req} {v : Word} (h : Taken s r (pgMode 0) Off.MODE_LEAD) :
    ∀ i ∈ [Instr.modeLeadWrite r 0 v, .registerWrite r (.reg (pgMode 0) Off.MODE_LEAD) ⟨4, true, false⟩ v.toNat],
      exec i s = .next (modeLeadSet 0 v (touchSession s r (pgMode 0))) := by
  simp only [List.forall_mem_cons, List.not_mem_nil, false_implies, implies_true, and_true]
  constructor
  · rw [exec_modeLeadWrite, guardedWrite_of_taken h]
  · rw [exec_registerWrite_of_taken h (by decide) (by decide), word_toNat, regEffect_modeLead]

/-- Settles O53: either way the field takes the larger of 500 and the value written, which 16 bits hold. -/
theorem modeLeadMinimum : Obligations.ModeLeadMinimum := by
  intro s r v h i hi
  refine ⟨_, exec_modeLead_of_taken h i hi, ?_⟩
  simp only [rf_modeLeadSet]
  split <;> omega

end Sys2Proof.Machine

namespace Sys2Proof.Machine

/-! What a register access turns away does (R54, R58): one equation of each access for each verdict used below. -/

section
variable {s : State} {r : Req} {p : Pg} {off : Nat} {write : Bool}

/-- An absent page of a die that answers (R54). -/
theorem verdict_of_not_present (ha : answers s r p = true) (hp : present s p = false) :
    verdict s r p off write = .absent := by
  simp [verdict, ha, hp]

/-- A host reaches a present secure page that no session opens: every page but SESSION is locked (R58). -/
theorem verdict_of_no_session (ha : answers s r p = true) (hp : present s p = true) (hsec : p.sec = true)
    (hhost : isHost r = true) (hses : sessionServes s p.die r = false) (hnum : p.num ≠ 5) :
    verdict s r p off write = .locked := by
  simp [verdict, ha, hp, hsec, hhost, hses, hnum]

/-- The guard of SESSION lets every host in (R381): BAR2 counts as the secure host. -/
theorem permits_session (hsec : p.sec = true) (hhost : isHost r = true) (hnum : p.num = 5) :
    permits s r p write = true := by
  have hcls : clsOn r p = .secHost := by
    obtain h | h : r.cls = .nsHost ∨ r.cls = .secHost := by simpa [isHost] using hhost
    · simp [clsOn, hsec, h]
    · simp [clsOn, h]
  have hguard : guardOf s p = 0xC := by simp [guardOf, hsec, hnum]
  rw [permits, hguard, hcls]
  cases write <;> rfl

/-- SESSION is locked to no one (R58). -/
theorem verdict_session_ne_locked (hnum : p.num = 5) : verdict s r p off write ≠ .locked := by
  simp only [verdict, hnum, ne_eq, not_true_eq_false, decide_false, Bool.and_false, Bool.false_and, Bool.false_eq_true,
    if_false]
  repeat' split
  all_goals simp

/-- A read of SESSION passes. -/
theorem verdict_session_read (ha : answers s r p = true) (hp : present s p = true) (hsec : p.sec = true)
    (hhost : isHost r = true) (hnum : p.num = 5) : verdict s r p off false = .pass := by
  simp [verdict, ha, hp, hnum, permits_session hsec hhost hnum]

variable (hpow : powered s = true)
include hpow

theorem guardedWrite_of_absent (hv : verdict s r p off true = .absent) (eff : State → State) :
    guardedWrite s r p off eff = s := by
  simp [guardedWrite, hpow, hv]

theorem guardedWrite_of_locked (hv : verdict s r p off true = .locked) (eff : State → State) :
    guardedWrite s r p off eff = logErr s ⟨clsOn r p, r.rid⟩ p off true 4 := by
  simp [guardedWrite, hpow, hv]

variable (val : State → Pg → Nat → Word) (eff : State → State)

theorem guardedRead_of_absent (hv : verdict s r p off false = .absent) :
    guardedRead s r p off val eff = { s with resp := .data (tagOf s p off false) 0#24 } := by
  simp [guardedRead, hpow, hv]

theorem guardedRead_of_locked (hv : verdict s r p off false = .locked) :
    guardedRead s r p off val eff = { s with resp := .data (tagOf s p off true) 0#24 } := by
  simp [guardedRead, hpow, hv]

theorem guardedRead_of_pass (hv : verdict s r p off false = .pass) :
    guardedRead s r p off val eff =
      eff { capture (touchSession s r p) r p off val with
        resp := .data (tagOf s p off false) (captured (touchSession s r p) r p off val) } := by
  simp [guardedRead, hpow, hv]

end

/-! Reads of a register page. -/

section
variable {s : State} {r : Req} {p : Pg} {off : Nat}

/-- WIDE_L_READ of an aligned 32-bit register is a read of that register (R35). -/
theorem exec_wideLRead_reg (h : off < 0x1000) (hal : off % 4 = 0) :
    exec (.wideLRead r (.reg p off) 4) s = .next (regRead s r p off) := by
  have hin : ¬ (4 = 0 ∨ 4 < 4 ∨ 0x1000 < off + 4) := by omega
  calc exec (.wideLRead r (.reg p off) 4) s = execWideLRead r (.reg p off) 4 s := rfl
    _ = .next (regRead s r p off) := by simp only [execWideLRead, ok, if_neg hin, hal, and_self, if_true]

/-- The numbers of the chute pages (R56). -/
theorem chute_num (h : pgKind p = .chute) : p.sec = false ∧ 0x60 ≤ p.num ∧ p.num ≤ 0x9F := by
  unfold pgKind at h
  split at h
  next => unfold secKind at h; split at h <;> cases h
  next hsec =>
    refine ⟨by simpa using hsec, ?_⟩
    unfold nsKind at h
    split at h
    · assumption
    · repeat' split at h
      all_goals cases h

theorem pgInst_chute (h : pgKind p = .chute) : pgInst p = p.num - 0x60 := by simp only [pgInst, h]

/-- A chute page is the page of its own number among the chutes. -/
theorem pgChute_pgInst (h : pgKind p = .chute) : pgChute p.die (pgInst p) = p := by
  obtain ⟨hsec, hlo, hhi⟩ := chute_num h
  have hlt : p.num - 0x60 < 64 := by omega
  rw [pgInst_chute h, pgChute, nsAt, if_pos hlt, ns, Nat.add_sub_cancel' hlo, ← hsec]

/-- A read that is not taken ends like that of any register: the pop windows, `RET_DATA` and `AX_CMD_STAT` act only when
taken. -/
theorem regRead_of_not_pass (hv : verdict s r p off false ≠ .pass) :
    ∃ val eff, regRead s r p off = guardedRead s r p off val eff := by
  unfold regRead
  split
  case h_1 hk =>
    split
    · exact ⟨_, _, by rw [popRead, pgChute_pgInst hk]⟩
    · exact ⟨_, _, rfl⟩
  case h_2 => split <;> exact ⟨_, _, rfl⟩
  case h_3 =>
    exact ⟨regView, latCapture r p off, by
      simp only [hv, decide_false, Bool.and_false, Bool.false_eq_true, if_false]⟩
  case h_4 => exact ⟨_, _, rfl⟩

/-- `LAT_EST` is captured on encoder pages only. -/
theorem latCapture_of_not_enc (h : pgKind p ≠ .enc) : latCapture r p off = id := by
  funext t; simp [latCapture, h]

/-- A register with no effect of its own when read, and no wait before it. -/
theorem regRead_plain (hchute : pgKind p = .chute → off < 0xC00) (hret : pgKind p = .retain → off ≠ Off.RET_DATA)
    (hax : pgKind p = .ax → off ≠ Off.AX_CMD_STAT) :
    regRead s r p off = guardedRead s r p off regView (latCapture r p off) := by
  unfold regRead
  split
  case h_1 hk => rw [if_neg (Nat.not_le.2 (hchute hk)), latCapture_of_not_enc (by simp [hk])]
  case h_2 hk => rw [if_neg (hret hk), latCapture_of_not_enc (by simp [hk])]
  case h_3 hk => simp only [hax hk, decide_false, Bool.false_and, Bool.false_eq_true, if_false]
  case h_4 => rfl

/-- WIDE_L_READ of such a register, taken: the answer, then the captures (R49, R113). -/
theorem exec_wideLRead_of_taken (hoff : off < 0x1000) (hal : off % 4 = 0) (hchute : pgKind p = .chute → off < 0xC00)
    (hret : pgKind p = .retain → off ≠ Off.RET_DATA) (hax : pgKind p = .ax → off ≠ Off.AX_CMD_STAT)
    (h : TakenRead s r p off) :
    exec (.wideLRead r (.reg p off) 4) s = .next (latCapture r p off
      { capture (touchSession s r p) r p off regView with
        resp := .data (tagOf s p off false) (captured (touchSession s r p) r p off regView) }) := by
  rw [exec_wideLRead_reg hoff hal, regRead_plain hchute hret hax, guardedRead_of_pass h.1 _ _ h.2]

end

/-- Keeping a session alive changes no capture. -/
@[simp] theorem touchSession_caps (s : State) (r : Req) (p : Pg) : (touchSession s r p).caps = s.caps :=
  Laws.touchSession_inv (φ := State.caps) (fun _ _ => rfl) rfl

/-- Keeping a session alive changes no register. -/
@[simp] theorem touchSession_regs (s : State) (r : Req) (p : Pg) : (touchSession s r p).regs = s.regs :=
  Laws.touchSession_inv (φ := State.regs) (fun _ _ => rfl) rfl

/-- Nothing is kept alive where no session serves. -/
theorem touchSession_of_not_serves {s : State} {r : Req} {p : Pg} (h : sessionServes s p.die r = false) :
    touchSession s r p = s := by simp [touchSession, h]

/-- A capture changes no register. -/
@[simp] theorem capture_regs (s : State) (r : Req) (p : Pg) (off : Nat) (val : State → Pg → Nat → Word) :
    (capture s r p off val).regs = s.regs :=
  Laws.capture_inv (φ := State.regs) (fun _ _ => rfl) rfl

@[simp] theorem latCapture_regs (r : Req) (p : Pg) (off : Nat) (s : State) : (latCapture r p off s).regs = s.regs :=
  Laws.latCapture_inv (φ := State.regs) (fun _ _ => rfl) rfl

@[simp] theorem latCapture_resp (r : Req) (p : Pg) (off : Nat) (s : State) : (latCapture r p off s).resp = s.resp :=
  Laws.latCapture_inv (φ := State.resp) (fun _ _ => rfl) rfl

/-! Captures (R49, R113). -/

/-- The captures `v 0` to `v (n - 1)` put in, one after another, under the keys `key 0` to `key (n - 1)`. -/
def capsPut (s : State) (key : Nat → Nat × RegKey) (v : Nat → Word) (n : Nat) : State :=
  each (List.range n) s fun t i => { t with caps := Tbl.put t.caps (key i) (v i) }

section
variable (s : State) (key : Nat → Nat × RegKey) (v : Nat → Word) (x : Word)

theorem capsPut_zero : capsPut s key v 0 = s := rfl

theorem capsPut_succ_caps (n : Nat) : (capsPut s key v (n + 1)).caps = Tbl.put (capsPut s key v n).caps (key n) (v n) := by
  simp [capsPut, each, List.range_succ]

/-- Other captures are as they were. -/
theorem get_capsPut_other {n : Nat} {k : Nat × RegKey} (h : ∀ i < n, key i ≠ k) :
    Tbl.get (capsPut s key v n).caps k x = Tbl.get s.caps k x := by
  induction n with
  | zero => rw [capsPut_zero]
  | succ n ih =>
    rw [capsPut_succ_caps, Tbl.get_put_other _ _ _ _ _ (h n n.lt_succ_self)]
    exact ih fun i hi => h i (Nat.lt_succ_of_lt hi)

/-- Each of them is found under its key. -/
theorem get_capsPut_same (hinj : Function.Injective key) {n i : Nat} (hi : i < n) :
    Tbl.get (capsPut s key v n).caps (key i) x = v i := by
  induction n with
  | zero => omega
  | succ n ih =>
    rw [capsPut_succ_caps]
    by_cases h : i = n
    · subst h; exact Tbl.get_put_same _ _ _ _
    · rw [Tbl.get_put_other _ _ _ _ _ fun e => h (hinj e).symm]
      exact ih (by omega)

end

section
variable {s : State} {r : Req} {p : Pg} {off : Nat} {row : RegRow} {val : State → Pg → Nat → Word}
variable (hrow : regRow p off = some row)
include hrow

/-- The captures of a read are those of the parts in its row. -/
theorem capture_of_row :
    capture s r p off val = capsPut s (fun i => (clsCode (clsOn r p), (p, off + 4 * (i + 1))))
      (fun i => val s p (off + 4 * (i + 1))) row.caps := by
  simp only [capture, hrow, capsPut]

/-- A part that a read captures is captured as it reads live. -/
theorem get_capture_part {i : Nat} (hi : i < row.caps) (x : Word) :
    Tbl.get (capture s r p off val).caps (clsCode (clsOn r p), (p, off + 4 * (i + 1))) x = val s p (off + 4 * (i + 1)) := by
  have hinj : Function.Injective fun i => (clsCode (clsOn r p), (p, off + 4 * (i + 1))) := by
    intro i j h; simp only [Prod.mk.injEq, true_and] at h; omega
  rw [capture_of_row hrow]
  exact get_capsPut_same _ _ _ x hinj hi

/-- No other class, page or register is captured. -/
theorem get_capture_other {c : Nat} {q : Pg} {o : Nat}
    (h : (c, q) ≠ (clsCode (clsOn r p), p) ∨ ∀ i < row.caps, o ≠ off + 4 * (i + 1)) (x : Word) :
    Tbl.get (capture s r p off val).caps (c, (q, o)) x = Tbl.get s.caps (c, (q, o)) x := by
  rw [capture_of_row hrow]
  refine get_capsPut_other _ _ _ x fun i hi e => ?_
  simp only [Prod.mk.injEq] at e
  obtain ⟨hc, hq, ho⟩ := e
  obtain h | h := h
  · exact h (by rw [hc, hq])
  · exact h i hi ho.symm

/-- `LAT_EST` is none of the four registers after `LAT_POS_L`, which a read of it captures by its row. -/
theorem latCapture_apart {i : Nat} (hi : i < row.caps) :
    ¬ (pgKind p = .enc ∧ off = Off.LAT_POS_L) ∨ Off.LAT_EST ≠ off + 4 * (i + 1) := by
  by_cases h : pgKind p = .enc ∧ off = Off.LAT_POS_L
  · obtain ⟨hk, rfl⟩ := h
    have hcaps : row.caps = 4 := by
      have hfound : regRow p Off.LAT_POS_L = some ⟨0x0E0, 1, 4, .ro, 0x0, 0x0, 1, false, 4, []⟩ := by
        rw [regRow, if_neg (by decide), hk]; rfl
      rw [hrow] at hfound
      cases hfound; rfl
    right; simp only [Off.LAT_EST, Off.LAT_POS_L]; omega
  · exact .inl h

end

/-- A read of `LAT_POS_L` captures `LAT_EST` for its class and page and nothing else (R113). -/
theorem get_latCapture_other (s : State) {r : Req} {p q : Pg} {off c o : Nat}
    (h : ¬ (pgKind p = .enc ∧ off = Off.LAT_POS_L) ∨ (c, q) ≠ (clsCode (clsOn r p), p) ∨ o ≠ Off.LAT_EST) (x : Word) :
    Tbl.get (latCapture r p off s).caps (c, (q, o)) x = Tbl.get s.caps (c, (q, o)) x := by
  unfold latCapture
  split
  next hlat =>
    refine Tbl.get_put_other _ _ _ _ _ fun e => ?_
    simp only [Prod.mk.injEq] at e
    obtain ⟨hc, hq, ho⟩ := e
    obtain h | h | h := h
    · exact h hlat
    · exact h (by rw [hc, hq])
    · exact h ho.symm
  next => rfl

/-- Settles O55: a taken read answers from the captures of its class, then makes the captures of its row. -/
theorem wideReads : Obligations.WideReads := by
  intro s r p off row hoff hal hrow hchute hret hax htaken
  refine ⟨_, exec_wideLRead_of_taken hoff hal hchute hret hax htaken, ?_, ?_, ?_, ?_⟩
  · simp only [latCapture_resp, captured, touchSession_caps]
  · intro i hi x
    have hlat := latCapture_apart hrow hi
    rw [get_latCapture_other _ (hlat.imp id fun h => .inr h.symm)]
    exact get_capture_part hrow hi x
  · intro c q o x h
    rw [get_latCapture_other _ (.inr (h.imp id And.right)), ← touchSession_caps s r p]
    exact get_capture_other hrow (h.imp id And.left) x
  · rw [latCapture_regs, capture_regs, touchSession_regs]

/-! Absent pages (R2, R54). -/

/-- The pages that are absent on every part: those that no table assigns, the PCIE page of another die than die 0, and
the resources that tier 08 lacks. -/
theorem present_eq_false {s : State} {p : Pg}
    (h : pgKind p = .absent ∨ (pgKind p = .pcie ∧ p.die ≠ 0) ∨ (s.part.tier = .t08 ∧ absent08 p = true)) :
    present s p = false := by
  obtain hk | ⟨hk, hd⟩ | ⟨ht, ha⟩ := h
  · simp [present, Part.present, hk]
  · simp [present, Part.present, hk, hd]
  · simp [present, Part.present, ht, ha]

section
variable {s : State} {p : Pg} (h : present s p = false)
include h

theorem latch_of_not_present (m : Word) : latch s p m = s := by simp [latch, h]
theorem raise_of_not_present (n : Nat) : raise s p n = s := latch_of_not_present h _
theorem setDyn_of_not_present (n : Nat) (b : Bool) : setDyn s p n b = s := by simp [setDyn, h]

end

/-- A write that meets an absent page leaves the state, whatever its shape. -/
theorem shapedWrite_of_absent {s : State} {r : Req} {p : Pg} {off : Nat} {sh : Shape} (hpow : powered s = true)
    (hv : verdict s r p off true = .absent) (hsh : sh.poisoned = false) (v : Word) : shapedWrite s r p off sh v = s := by
  unfold shapedWrite
  simp only [hpow, hsh, Bool.not_true, Bool.false_eq_true, if_false]
  split
  · exact guardedWrite_of_absent hpow hv _
  · exact guardedWrite_of_absent hpow hv _

/-- Settles O56: the verdict on every access to an absent page is `absent`, and its events latch on present pages only. -/
theorem absentPages : Obligations.AbsentPages := by
  refine ⟨fun s p h => present_eq_false h, fun s r p hpow hans hpres =>
    ⟨?_, ?_, raise_of_not_present hpres, setDyn_of_not_present hpres⟩⟩
  · intro off hoff hal
    have hv : verdict s r p off false = .absent := verdict_of_not_present hans hpres
    obtain ⟨val, eff, hread⟩ := regRead_of_not_pass (s := s) (by rw [hv]; decide)
    rw [exec_wideLRead_reg hoff hal, hread, guardedRead_of_absent hpow val eff hv]
  · intro off hoff sh v hsh
    rw [exec_registerWrite_reg, if_pos hoff, shapedWrite_of_absent hpow (verdict_of_not_present hans hpres) hsh]

/-! Secure pages (R57, R58). -/

/-- The row found is one of the table's. -/
theorem mem_of_findRow {rows : List RegRow} {o : Nat} {row : RegRow} (h : findRow rows o = some row) : row ∈ rows := by
  induction rows with
  | nil => cases h
  | cons a rows ih =>
    unfold findRow at h
    split at h
    · cases h; exact List.mem_cons_self
    · exact List.mem_cons_of_mem _ (ih h)

/-- No block register of a secure page is shadowed (R57). -/
theorem acc_of_mem_secKind_rows (n : Nat) : ∀ row ∈ (secKind n).rows, row.acc ≠ .rws := by
  unfold secKind
  split <;> decide

/-- No register of a secure page is shadowed. -/
theorem acc_of_sec {p : Pg} {off : Nat} {row : RegRow} (hsec : p.sec = true) (h : regRow p off = some row) :
    row.acc ≠ .rws := by
  have hhdr : ∀ row ∈ rows_hdr, row.acc ≠ .rws := by decide
  unfold regRow at h
  split at h
  · exact hhdr row (mem_of_findRow h)
  · rw [pgKind, if_pos hsec] at h
    exact acc_of_mem_secKind_rows p.num row (mem_of_findRow h)

/-- The tag of a secure page is its number and LOCK: nothing there is pending (R34). -/
theorem tagOf_sec (s : State) {p : Pg} (off : Nat) (lock : Bool) (hsec : p.sec = true) :
    tagOf s p off lock = b2n lock * 128 + p.num % 64 := by
  cases hrow : regRow p off with
  | none => simp [tagOf, hrow, b2n]
  | some row => simp [tagOf, hrow, acc_of_sec hsec hrow, b2n]

/-- Secure pages hold no register with an effect of its own when read. -/
theorem pgKind_sec {p : Pg} (hsec : p.sec = true) : pgKind p ≠ .chute ∧ pgKind p ≠ .retain ∧ pgKind p ≠ .ax := by
  rw [pgKind, if_pos hsec]
  unfold secKind
  split <;> decide

/-- `ERR_INFO` as an error first logged leaves it (R39). -/
theorem rd_logErr_first {s : State} {p : Pg} (h : rb s p Off.ERR_INFO 23 = false) (r : Req) (off : Nat) (write : Bool)
    (code : Nat) :
    rd (logErr s r p off write code) p Off.ERR_INFO = word (2 ^ 23 + clsCode r.cls * 2 ^ 18 + code * 2 ^ 8) := by
  simp [logErr, h]

theorem clsCode_lt (c : Cls) : clsCode c < 4 := by cases c <;> decide

/-- The first error since VALID was cleared sets VALID and gives its code (R39). -/
theorem errInfo_logErr_first {s : State} {p : Pg} (h : rb s p Off.ERR_INFO 23 = false) (r : Req) (off : Nat) (write : Bool)
    {code : Nat} (hcode : code < 256) :
    rb (logErr s r p off write code) p Off.ERR_INFO 23 = true ∧
      rf (logErr s r p off write code) p Off.ERR_INFO 8 8 = code := by
  have hc := clsCode_lt r.cls
  rw [rb, rf, rd_logErr_first h]
  constructor
  · have hbit : (2 ^ 23 + clsCode r.cls * 2 ^ 18 + code * 2 ^ 8) / 2 ^ 23 % 2 = 1 := by omega
    rw [bit, word, BitVec.getLsbD_ofNat, Nat.testBit_eq_decide_div_mod_eq, hbit]
    rfl
  · simp only [fld, word, BitVec.toNat_ofNat]
    omega

/-- Settles O57: without a session every secure page but SESSION is locked, and the guard of SESSION lets a host in. -/
theorem lockedSecurePages : Obligations.LockedSecurePages := by
  intro s r p hpow hhost hsec hans hpres hses off hoff hal
  refine ⟨fun hnum => ?_, fun hnum => ?_⟩
  · have hv (write : Bool) : verdict s r p off write = .locked := verdict_of_no_session hans hpres hsec hhost hses hnum
    refine ⟨?_, fun v => ?_, fun hvalid => errInfo_logErr_first hvalid _ _ _ (by decide)⟩
    · obtain ⟨val, eff, hread⟩ := regRead_of_not_pass (s := s) (by rw [hv]; decide)
      rw [exec_wideLRead_reg hoff hal, hread, guardedRead_of_locked hpow val eff (hv _), tagOf_sec s off true hsec]
      rfl
    · rw [exec_registerWrite_reg, if_pos hoff]
      simp [shapedWrite, hpow, hal, regWrite, guardedWrite_of_locked hpow (hv _)]
  · have hpass : verdict s r p off false = .pass := verdict_session_read hans hpres hsec hhost hnum
    obtain ⟨hchute, hret, hax⟩ := pgKind_sec hsec
    refine ⟨_, exec_wideLRead_of_taken hoff hal (absurd · hchute) (absurd · hret) (absurd · hax) ⟨hpow, hpass⟩,
      ?_, ?_, verdict_session_ne_locked hnum⟩
    · rw [latCapture_resp, touchSession_of_not_serves hses]
    · rw [latCapture_regs, capture_regs, touchSession_regs]

/-! `EVT_VEC` (R46). -/

/-- The equation of EVT_VEC_WRITE. -/
theorem exec_evtVecWrite (r : Req) (p : Pg) (v : Word) (s : State) :
    exec (.evtVecWrite r p v) s = .next (guardedWrite s r p Off.EVT_VEC fun t => evtVec t p v) := rfl

/-- The register's own effect is the rule's. -/
theorem regEffect_evtVec (r : Req) (p : Pg) (v : Word) (s : State) : regEffect r p Off.EVT_VEC v s = evtVec s p v := rfl

/-- Both ways of writing the register set the vector. -/
theorem exec_evtVec_of_taken {s : State} {r : Req} {p : Pg} {v : Word} (h : Taken s r p Off.EVT_VEC) :
    ∀ i ∈ [Instr.evtVecWrite r p v, .registerWrite r (.reg p Off.EVT_VEC) ⟨4, true, false⟩ v.toNat],
      exec i s = .next (evtVec (touchSession s r p) p v) := by
  simp only [List.forall_mem_cons, List.not_mem_nil, false_implies, implies_true, and_true]
  constructor
  · rw [exec_evtVecWrite, guardedWrite_of_taken h]
  · rw [exec_registerWrite_of_taken h (by decide) (by decide), word_toNat, regEffect_evtVec]

/-- A page takes the vectors of its own range. -/
theorem rf_evtVec_of_range {p : Pg} {v : Word} (h : p.sec = decide (96 ≤ fld v 0 7)) (s : State) :
    rf (evtVec s p v) p Off.EVT_VEC 0 7 = fld v 0 7 := by
  have hlt : fld v 0 7 < 2 ^ 7 := fld_lt v 0 7
  rw [evtVec, if_pos h, rf, rd_wr_same]
  simp only [fld, word, BitVec.toNat_ofNat] at hlt ⊢
  omega

/-- A page ignores the vectors of the other range. -/
theorem evtVec_of_not_range {p : Pg} {v : Word} (h : p.sec ≠ decide (96 ≤ fld v 0 7)) (s : State) : evtVec s p v = s := by
  rw [evtVec, if_neg h]

/-- A write of the vector changes no other register. -/
theorem rd_evtVec_other {p q : Pg} {o : Nat} (h : (q, o) ≠ (p, Off.EVT_VEC)) (v : Word) (s : State) :
    rd (evtVec s p v) q o = rd s q o := by
  simp only [evtVec]
  split
  · exact rd_wr_other _ _ _ _ _ _ h.symm
  · rfl

/-- Keeping a session alive is not seen in a register. -/
@[simp] theorem rd_touchSession (s : State) (r : Req) (p q : Pg) (o : Nat) : rd (touchSession s r p) q o = rd s q o := by
  simp only [rd, touchSession_regs]

/-- Settles O54: whether the page is secure and the range of the vector decide together whether the field takes it. -/
theorem eventVectorRange : Obligations.EventVectorRange := by
  intro s r p v h i hi
  have hkeep (hne : p.sec ≠ decide (96 ≤ fld v 0 7)) :
      rf (evtVec (touchSession s r p) p v) p Off.EVT_VEC 0 7 = rf s p Off.EVT_VEC 0 7 := by
    rw [evtVec_of_not_range hne, rf, rd_touchSession, rf]
  refine ⟨_, exec_evtVec_of_taken h i hi, fun hsec hv => hkeep ?_, fun hsec hv => hkeep ?_,
    fun hsec hv => rf_evtVec_of_range ?_ _, fun hsec hv => rf_evtVec_of_range ?_ _, fun q o hqo => ?_⟩
  · simp [hsec, hv]
  · simp [hsec]; omega
  · simp [hsec]; omega
  · simp [hsec, hv]
  · rw [rd_evtVec_other hqo, rd_touchSession]

end Sys2Proof.Machine

namespace Sys2Proof.Machine

/-! What logging an error leaves (R39). -/

@[simp] theorem logErr_mem (s : State) (r : Req) (p : Pg) (off : Nat) (write : Bool) (code : Nat) :
    (logErr s r p off write code).mem = s.mem :=
  Laws.logErr_inv (φ := State.mem) (fun _ _ => rfl) rfl

@[simp] theorem logErr_ecc (s : State) (r : Req) (p : Pg) (off : Nat) (write : Bool) (code : Nat) :
    (logErr s r p off write code).ecc = s.ecc :=
  Laws.logErr_inv (φ := State.ecc) (fun _ _ => rfl) rfl

/-- `ERR_ADDR` as an error first logged leaves it (R39). -/
theorem rd_errAddr_logErr_first {s : State} {p : Pg} (h : rb s p Off.ERR_INFO 23 = false) (r : Req) (off : Nat)
    (write : Bool) (code : Nat) :
    rd (logErr s r p off write code) p Off.ERR_ADDR = word (b2n write * 2 ^ 12 + off % 2 ^ 12) := by
  simp [logErr, h]

/-! Writes to the memory windows (R312, R118). -/

/-- The equation of MEM_WINDOW_WRITE. -/
theorem exec_memWindowWrite (r : Req) (d off : Nat) (bs : List Byte) (poisoned : Bool) (hits : List Nat) (s : State) :
    exec (.memWindowWrite r d off bs poisoned hits) s = .next (memWrite s r d off bs poisoned hits) := rfl

/-- DESCRIPTOR_WRITE is a window write of the word's three bytes. -/
theorem exec_descriptorWrite {s : State} {k w : Nat} (hk : k < nCtx s) (hw : w < 64) (r : Req) (d : Nat) (v : Word) :
    exec (.descriptorWrite r d k w v) s =
      .next (memWrite s r d (0x100000 + 3 * (64 * k + w)) (wordBytes v) false []) := by
  calc exec (.descriptorWrite r d k w v) s = execDescriptorWrite r d k w v s := rfl
    _ = _ := by rw [execDescriptorWrite, if_pos ⟨hk, hw⟩]

/-- A write that lies in a memory and is let through goes word by word. -/
theorem memWrite_of_taken {s : State} {r : Req} {d off b : Nat} {dps : Bool} {bs : List Byte}
    (hzone : memZone off bs.length = some (dps, b)) (h : MemTaken s r d off bs.length true) (hits : List Nat) :
    memWrite s r d off bs false hits =
      each (splitWords (touched bs.length b bs.length) bs) s fun s x =>
        windowWord s r d dps x.1 x.2.1 x.2.2 false (dps && hits.contains x.1) := by
  obtain ⟨hpow, hans, z, hz, hperm⟩ := h
  obtain rfl : (dps, b) = z := Option.some.inj (hzone.symm.trans hz)
  simp [memWrite, hpow, hzone, hans, hperm]

/-- Bytes that end within the word they begin in touch that word alone. -/
theorem touched_within_word {w j n : Nat} (hn : 0 < n) (hj : j + n ≤ 3) : touched n (3 * w + j) n = [(w, j, n)] := by
  obtain ⟨m, rfl⟩ := Nat.exists_eq_add_of_lt hn
  have hdiv : (3 * w + j) / 3 = w := by omega
  have hmod : (3 * w + j) % 3 = j := by omega
  have hmin : min (3 - j) (m + 1) = m + 1 := by omega
  have hrest (f b : Nat) : touched f b 0 = [] := by cases f <;> rfl
  simp only [Nat.zero_add, touched, hdiv, hmod, hmin, Nat.sub_self, hrest]

/-- A die has at most 256 contexts (R116). -/
theorem nCtx_le (s : State) : nCtx s ≤ 256 := by unfold nCtx; split <;> decide

/-- The contexts' descriptors lie in the dual-port store (R52, R117). -/
theorem memZone_descr {s : State} {k w j n : Nat} (hk : k < nCtx s) (hw : w < 64) (hj : j + n ≤ 3) :
    memZone (0x100000 + 3 * (64 * k + w) + j) n = some (true, 3 * (64 * k + w) + j) := by
  have hctx := nCtx_le s
  have hin : 0x100000 ≤ 0x100000 + 3 * (64 * k + w) + j ∧ 0x100000 + 3 * (64 * k + w) + j + n ≤ 0x160000 := by omega
  have hbyte : 0x100000 + 3 * (64 * k + w) + j - 0x100000 = 3 * (64 * k + w) + j := by omega
  rw [memZone, if_pos hin, hbyte]

/-- A taken write of bytes within one word of a descriptor is a write of that word. -/
theorem memWrite_descr_word {s : State} {r : Req} {d k w j : Nat} {bs : List Byte} (hk : k < nCtx s) (hw : w < 64)
    (hbs : bs ≠ []) (hj : j + bs.length ≤ 3) (h : MemTaken s r d (0x100000 + 3 * (64 * k + w) + j) bs.length true)
    (hits : List Nat) :
    memWrite s r d (0x100000 + 3 * (64 * k + w) + j) bs false hits =
      windowWord s r d true (64 * k + w) j bs false (hits.contains (64 * k + w)) := by
  rw [memWrite_of_taken (memZone_descr hk hw hj) h, touched_within_word (List.length_pos_of_ne_nil hbs) hj]
  simp [splitWords, each]

/-- A write to a word of a descriptor that R118 protects is discarded, with code 0x40 or 0x41. -/
theorem descrErr_of_protected {s : State} {r : Req} {d k w : Nat} (hk : k < nCtx s) (hw : w < 64)
    (hprot : (56 ≤ w ∧ r.cls ≠ .firmware) ∨ (w < 56 ∧ ctxGo s d k = true)) :
    descrErr s r d (64 * k + w) = some (if 56 ≤ w then 0x40 else 0x41) := by
  have hdescr : isDescr s (64 * k + w) = true := by simp only [isDescr, decide_eq_true_eq]; omega
  have hmod : (64 * k + w) % 64 = w := by omega
  have hdiv : (64 * k + w) / 64 = k := by omega
  simp only [descrErr, hdescr, hmod, hdiv, Bool.not_true, Bool.false_eq_true, if_false]
  obtain ⟨hst, hcls⟩ | ⟨hsh, hgo⟩ := hprot
  · rw [if_pos hst, if_neg hcls, if_pos hst]
  · have hst : ¬ 56 ≤ w := Nat.not_le.2 hsh
    rw [if_neg hst, if_pos hgo, if_neg hst]

/-- A discarded word of a descriptor only logs its error. -/
theorem windowWord_of_descrErr {s : State} {r : Req} {d w code : Nat} (h : descrErr s r d w = some code) (k : Nat)
    (bs : List Byte) (poisoned collide : Bool) :
    windowWord s r d true w k bs poisoned collide = logErr s r (pgCtx d) (w / 64) true code := by
  simp only [windowWord, if_true, h]

/-- A taken write of bytes within one protected word of a descriptor only logs its error, for the context. -/
theorem memWrite_of_protected {s : State} {r : Req} {d k w j : Nat} {bs : List Byte} (hk : k < nCtx s) (hw : w < 64)
    (hprot : (56 ≤ w ∧ r.cls ≠ .firmware) ∨ (w < 56 ∧ ctxGo s d k = true))
    (hbs : bs ≠ []) (hj : j + bs.length ≤ 3) (h : MemTaken s r d (0x100000 + 3 * (64 * k + w) + j) bs.length true)
    (hits : List Nat) :
    memWrite s r d (0x100000 + 3 * (64 * k + w) + j) bs false hits =
      logErr s r (pgCtx d) k true (if 56 ≤ w then 0x40 else 0x41) := by
  have hdiv : (64 * k + w) / 64 = k := by omega
  rw [memWrite_descr_word hk hw hbs hj h, windowWord_of_descrErr (descrErr_of_protected hk hw hprot), hdiv]

/-- An error logged for a write to a context's descriptor changes no memory; the first one names the context (R118). -/
theorem logErr_ctx {s : State} {d k : Nat} (hk : k < nCtx s) (r : Req) (code : Nat) :
    (logErr s r (pgCtx d) k true code).mem = s.mem ∧ (logErr s r (pgCtx d) k true code).ecc = s.ecc ∧
      (rb s (pgCtx d) Off.ERR_INFO 23 = false →
        rd (logErr s r (pgCtx d) k true code) (pgCtx d) Off.ERR_INFO =
          word (2 ^ 23 + clsCode r.cls * 2 ^ 18 + code * 2 ^ 8) ∧
        rd (logErr s r (pgCtx d) k true code) (pgCtx d) Off.ERR_ADDR = word (2 ^ 12 + k)) := by
  have hmod : k % 2 ^ 12 = k := Nat.mod_eq_of_lt (Nat.lt_of_lt_of_le hk ((nCtx_le s).trans (by decide)))
  refine ⟨logErr_mem .., logErr_ecc .., fun hvalid => ⟨rd_logErr_first hvalid .., ?_⟩⟩
  rw [rd_errAddr_logErr_first hvalid, hmod, b2n, if_pos rfl, Nat.one_mul]

/-- Settles O37: either command is a window write within one protected word, which only logs its error. -/
theorem descriptorProtection : Obligations.DescriptorProtection := by
  intro s r d k w hk hw hprot
  refine ⟨fun v h => ⟨_, exec_descriptorWrite hk hw r d v, ?_⟩,
    fun j bs hits hbs hj h => ⟨_, exec_memWindowWrite .., ?_⟩⟩
  · have hbytes : wordBytes v ≠ [] ∧ 0 + (wordBytes v).length ≤ 3 := ⟨List.cons_ne_nil _ _, Nat.le_refl 3⟩
    rw [← Nat.add_zero (0x100000 + 3 * (64 * k + w)), memWrite_of_protected hk hw hprot hbytes.1 hbytes.2 h]
    exact logErr_ctx hk r _
  · rw [memWrite_of_protected hk hw hprot hbs hj h]
    exact logErr_ctx hk r _

end Sys2Proof.Machine

section
-- One proof after the other: several at once, over a text of this length, need more threads than the memory limit holds.
set_option Elab.async false


namespace Sys2Proof.Machine

/-! The queue and the reset. -/

/-- Settles O1: the equation of a step with a command waiting. -/
theorem stepTakesFront : Obligations.StepTakesFront := by
  intro s c rest h
  rw [step, h]

/-- A table from which every entry of a key is dropped gives the default there. -/
theorem Tbl.get_drop_same {κ α : Type} [DecidableEq κ] (t : Tbl κ α) (f : κ → Bool) {k : κ} (h : f k = true) (v : α) :
    Tbl.get (Tbl.drop t f) k v = v := by
  induction t with
  | nil => rfl
  | cons e r ih =>
    obtain ⟨j, w⟩ := e
    unfold Tbl.drop at ih ⊢
    by_cases hj : f j
    · simpa [hj] using ih
    · have hne : j ≠ k := fun e => hj (e ▸ h)
      simpa [hj, Tbl.get, hne] using ih

/-- Settles O3: no register is listed after reset, nor one of a page after its reset. -/
theorem resetValues : Obligations.ResetValues := by
  refine ⟨rfl, rfl, rfl, rfl, fun _ _ => ⟨rfl, rfl⟩, fun s p off => ?_⟩
  have hdrop (t : Tbl RegKey Word) (v : Word) : Tbl.get (Tbl.drop t fun k => decide (k.1 = p)) (p, off) v = v :=
    Tbl.get_drop_same t _ (decide_eq_true rfl) v
  exact ⟨hdrop s.regs _, hdrop s.shad _⟩

/-- Settles O4: the memories are empty after reset. -/
theorem resetInvariant : Obligations.ResetInvariant := by
  refine ⟨⟨?_, ?_⟩, ⟨?_, ?_⟩⟩ <;> decide

/-! Time passes (R64, R65). -/

/-- A tick on every die acts on each die once: `P` holds until die `d`'s turn, which makes `Q` of it, and `Q` lasts. -/
theorem each_once {α : Type} {l : List α} {f : State → α → State} {P Q : State → Prop} {s : State} {x : α}
    (hx : x ∈ l) (hnd : l.Nodup) (hP : P s) (hpre : ∀ t y, y ≠ x → P t → P (f t y)) (hat : ∀ t, P t → Q (f t x))
    (hpost : ∀ t y, y ≠ x → Q t → Q (f t y)) : Q (each l s f) := by
  have hlast (l : List α) (h : x ∉ l) (t : State) (hQ : Q t) : Q (each l t f) := by
    induction l generalizing t with
    | nil => exact hQ
    | cons y r ih =>
      rw [List.mem_cons, not_or] at h
      exact ih h.2 _ (hpost t y (Ne.symm h.1) hQ)
  induction l generalizing s with
  | nil => cases hx
  | cons y r ih =>
    rw [List.nodup_cons] at hnd
    by_cases h : y = x
    · subst h
      exact hlast r hnd.1 _ (hat s hP)
    · exact ih ((List.mem_cons.1 hx).resolve_left (Ne.symm h)) hnd.2 (hpre s y h hP)

/-- A raised event changes no die. -/
@[simp] theorem raise_dies (s : State) (p : Pg) (i : Nat) : (raise s p i).dies = s.dies :=
  Laws.raise_inv (φ := State.dies) (fun _ _ => rfl) (fun _ _ => rfl) (fun _ _ => rfl) rfl

@[simp] theorem raise_clock (s : State) (p : Pg) (i : Nat) : (raise s p i).clock = s.clock :=
  Laws.raise_inv (φ := State.clock) (fun _ _ => rfl) (fun _ _ => rfl) (fun _ _ => rfl) rfl

@[simp] theorem raise_part (s : State) (p : Pg) (i : Nat) : (raise s p i).part = s.part :=
  Laws.raise_inv (φ := State.part) (fun _ _ => rfl) (fun _ _ => rfl) (fun _ _ => rfl) rfl

@[simp] theorem die_raise (s : State) (p : Pg) (i d : Nat) : die (raise s p i) d = die s d := by
  simp only [die, raise_dies]

/-- The page of the timebase of a die of the part is present. -/
theorem present_pgTb {s : State} {d : Nat} (h : d < s.part.dies) : present s (pgTb d) = true := by
  simp [present, Part.present, pgTb, ns, pgKind, nsKind, absent08, h]

section
variable (s : State) (c n d : Nat)

/-- What ticks do to a die: nothing, or its counter moves, with or without the event. -/
theorem dieTicks_cases (e : Nat) : dieTicks s c n e = s ∨
    ∃ x, dieTicks s c n e = setDie s e x ∨ dieTicks s c n e = raise (setDie s e x) (pgTb e) 3 := by
  simp only [dieTicks, whenDo]
  split
  · exact .inl rfl
  · split
    · exact .inr ⟨_, .inr rfl⟩
    · exact .inr ⟨_, .inl rfl⟩

theorem dieTicks_clock (e : Nat) : (dieTicks s c n e).clock = s.clock := by
  obtain h | ⟨x, h | h⟩ := dieTicks_cases s c n e <;> simp [h]

theorem dieTicks_part (e : Nat) : (dieTicks s c n e).part = s.part := by
  obtain h | ⟨x, h | h⟩ := dieTicks_cases s c n e <;> simp [h]

/-- Time on another die leaves the die's own state. -/
theorem die_dieTicks_other {e : Nat} (he : e ≠ d) : die (dieTicks s c n e) d = die s d := by
  obtain h | ⟨x, h | h⟩ := dieTicks_cases s c n e <;> simp [h, die_setDie_other _ _ _ _ he]

/-- Time changes no register but `EVT_LAT`. -/
theorem rd_dieTicks {e : Nat} {q : Pg} {o : Nat} (ho : o ≠ Off.EVT_LAT) : rd (dieTicks s c n e) q o = rd s q o := by
  obtain h | ⟨x, h | h⟩ := dieTicks_cases s c n e <;> simp [h, ho]

/-- What was latched stays latched while time passes. -/
theorem rb_dieTicks_mono {e : Nat} {q : Pg} {j : Nat} (hj : rb s q Off.EVT_LAT j = true) :
    rb (dieTicks s c n e) q Off.EVT_LAT j = true := by
  obtain h | ⟨x, h | h⟩ := dieTicks_cases s c n e <;> rw [h]
  · exact hj
  · exact hj
  · exact rb_raise_mono _ _ _ _ _ hj

/-- The counter of the die after its ticks. -/
theorem now_dieTicks : now (dieTicks s c n d) d =
    if (die s d).counting then (now s d + tickGain s c n d) % 2 ^ 48 else now s d := by
  simp only [dieTicks, whenDo, now]
  cases hc : (die s d).counting
  · simp
  · simp only [Bool.not_true, Bool.false_eq_true, if_false, if_true]
    split <;> simp [tickMod]

/-- A counter that passes its last value latches WRAP. -/
theorem rb_wrap_dieTicks (hd : d < s.part.dies) (hc : (die s d).counting = true)
    (hw : 2 ^ 48 ≤ now s d + tickGain s c n d) : rb (dieTicks s c n d) (pgTb d) Off.EVT_LAT 3 = true := by
  have hmod : tickMod ≤ (die s d).tick + tickGain s c n d := hw
  simp only [dieTicks, whenDo, hc, Bool.not_true, Bool.false_eq_true, if_false, hmod, decide_true, if_true]
  exact rb_raise_same _ _ _ (present_pgTb (s := setDie s d _) hd) (by decide)

end

/-- What one die shows of its time: its own state, its mode register, and the dies of the part. -/
def TimeView (d : Nat) (s t : State) : Prop :=
  t.part = s.part ∧ die t d = die s d ∧ rd t (pgMode d) Off.MODE_CUR = rd s (pgMode d) Off.MODE_CUR

theorem TimeView.pllOff {d : Nat} {s t : State} (h : TimeView d s t) : pllOff t d = pllOff s d := by
  obtain ⟨-, hdie, hmode⟩ := h
  have hm : modeOf t d = modeOf s d := by rw [modeOf, rf, hmode, modeOf, rf]
  rw [Machine.pllOff, hdie, hm, Machine.pllOff]

/-- Every die of the part has its ticks: its counter advances by its gain, and a counter that passes its last value
latches WRAP. -/
theorem ticksPass_die (s : State) (n d : Nat) (hd : d < s.part.dies) :
    now (ticksPass s n) d = (if (die s d).counting then (now s d + tickGain s s.clock n d) % 2 ^ 48 else now s d) ∧
      ((die s d).counting = true → 2 ^ 48 ≤ now s d + tickGain s s.clock n d →
        rb (ticksPass s n) (pgTb d) Off.EVT_LAT 3 = true) := by
  unfold ticksPass
  refine each_once (P := TimeView d s) (Q := fun t => now t d = _ ∧ (_ → _ → rb t (pgTb d) Off.EVT_LAT 3 = true))
    (List.mem_range.2 hd) List.nodup_range ⟨rfl, rfl, rfl⟩ ?_ ?_ ?_
  · rintro t e he ⟨hpart, hdie, hmode⟩
    exact ⟨(dieTicks_part ..).trans hpart, (die_dieTicks_other _ _ _ _ he).trans hdie,
      (rd_dieTicks _ _ _ (by decide)).trans hmode⟩
  · intro t h
    have hgain : tickGain t s.clock n d = tickGain s s.clock n d := by simp only [tickGain, h.pllOff]
    obtain ⟨hpart, hdie, -⟩ := h
    have hnow : now t d = now s d := congrArg DieSt.tick hdie
    refine ⟨by rw [now_dieTicks, hdie, hnow, hgain], fun hc hw => ?_⟩
    exact rb_wrap_dieTicks t _ _ d (hpart ▸ hd) (hdie ▸ hc) (by rwa [hnow, hgain])
  · rintro t e he ⟨hnow, hwrap⟩
    exact ⟨(congrArg DieSt.tick (die_dieTicks_other _ _ _ _ he)).trans hnow,
      fun hc hw => rb_dieTicks_mono _ _ _ (hwrap hc hw)⟩

@[simp] theorem ticksPass_clock (s : State) (n : Nat) : (ticksPass s n).clock = s.clock + n := by
  unfold ticksPass
  generalize hu : ({ s with clock := s.clock + n } : State) = u
  have hu' : u.clock = s.clock + n := hu ▸ rfl
  clear hu
  unfold each
  generalize dieList s = l
  induction l generalizing u with
  | nil => exact hu'
  | cons x r ih => exact ih _ ((dieTicks_clock ..).trans hu')

/-- Settles O2: an idle step is one tick, in which the crystal has an edge where 5 divides the clock. -/
theorem idleTick : Obligations.IdleTick := by
  intro s hs
  refine ⟨ticksPass s 1, by rw [step, hs], ticksPass_clock s 1, fun d hd g hg => ?_⟩
  have hgain : tickGain s s.clock 1 d = g := by
    rw [hg, tickGain]
    split
    · split <;> omega
    · rfl
  exact hgain ▸ ticksPass_die s 1 d hd

end Sys2Proof.Machine

namespace Sys2Proof.Laws

open Sys2Proof.Machine

/-! What every command keeps (log entries 1, 3 and 7). -/

/-- What a command may change of the groups: the fuses and the sessions are kept but by the commands listed for them. -/
def grpOf (i : Instr) : Grp :=
  { mem := true, ecc := true, ret := true, fuse := setsFuses i, sess := opensSessions i }

/-- Every command completes, in a state reached by what its groups allow. -/
theorem exec_ans (i : Instr) (s : State) : Ans (grpOf i) s (exec i s) := by
  cases i with
  | modeReqWrite => exact execModeReqWrite_ans (.refl _ _)
  | modeLeadWrite => exact execModeLeadWrite_ans (.refl _ _)
  | modeChanged => exact execModeChanged_ans rfl (.refl _ _)
  | modeMirrorArrive => exact execModeMirrorArrive_ans (.refl _ _)
  | modeClockSettled => exact execModeClockSettled_ans (.refl _ _)
  | registerWrite => exact execRegisterWrite_ans rfl rfl rfl rfl (.refl _ _)
  | unsupportedRequest => exact execUnsupportedRequest_ans (.refl _ _)
  | enWrite => exact execEnWrite_ans rfl (.refl _ _)
  | blockStarted => exact execBlockStarted_ans rfl (.refl _ _)
  | shutdownComplete => exact execShutdownComplete_ans rfl (.refl _ _)
  | softReset => exact execSoftReset_ans rfl (.refl _ _)
  | evtLatWrite => exact execEvtLatWrite_ans (.refl _ _)
  | evtEnWrite => exact execEvtEnWrite_ans (.refl _ _)
  | evtSetWrite => exact execEvtSetWrite_ans (.refl _ _)
  | evtVecWrite => exact execEvtVecWrite_ans (.refl _ _)
  | errInfoClear => exact execErrInfoClear_ans (.refl _ _)
  | commitGo => exact execCommitGo_ans (.refl _ _)
  | commitCancel => exact execCommitCancel_ans (.refl _ _)
  | handOver => exact execHandOver_ans rfl (.refl _ _)
  | wideLRead => exact execWideLRead_ans rfl (.refl _ _)
  | wideLWrite => exact execWideLWrite_ans rfl rfl rfl rfl (.refl _ _)
  | xtalCompUpdate => exact execXtalCompUpdate_ans (.refl _ _)
  | xtalFail => exact execXtalFail_ans (.refl _ _)
  | pllUnlock => exact execPllUnlock_ans rfl (.refl _ _)
  | pllRelockRelease => exact execPllRelockRelease_ans rfl (.refl _ _)
  | wrap => exact execWrap_ans (.refl _ _)
  | secEdge => exact execSecEdge_ans (.refl _ _)
  | timeFlitExchange => exact execTimeFlitExchange_ans rfl (.refl _ _)
  | timeSourceSwitch => exact execTimeSourceSwitch_ans rfl (.refl _ _)
  | timeSkewRelease => exact execTimeSkewRelease_ans rfl (.refl _ _)
  | tsyncFrameSend => exact execTsyncFrameSend_ans (.refl _ _)
  | tsyncFrameReceive => exact execTsyncFrameReceive_ans (.refl _ _)
  | stepApplied => exact execStepApplied_ans (.refl _ _)
  | tsyncHoldover => exact execTsyncHoldover_ans (.refl _ _)
  | encCount => exact execEncCount_ans rfl (.refl _ _)
  | index => exact execIndex_ans rfl (.refl _ _)
  | speedWindow => exact execSpeedWindow_ans (.refl _ _)
  | speedStopped => exact execSpeedStopped_ans (.refl _ _)
  | serialFrameStart => exact execSerialFrameStart_ans rfl (.refl _ _)
  | serialFrameEnd => exact execSerialFrameEnd_ans rfl (.refl _ _)
  | serialTimeout => exact execSerialTimeout_ans rfl (.refl _ _)
  | latchSw => exact execLatchSw_ans (.refl _ _)
  | latchPeriodic => exact execLatchPeriodic_ans (.refl _ _)
  | estimatorUpdate => exact execEstimatorUpdate_ans (.refl _ _)
  | remoteEstimateReceive => exact execRemoteEstimateReceive_ans (.refl _ _)
  | remoteSourceLost => exact execRemoteSourceLost_ans (.refl _ _)
  | product => exact execProduct_ans (.refl _ _)
  | pdLockoutEnd => exact execPdLockoutEnd_ans (.refl _ _)
  | estimateArrival => exact execEstimateArrival_ans (.refl _ _)
  | positionStep => exact execPositionStep_ans rfl (.refl _ _)
  | sourceLost => exact execSourceLost_ans rfl (.refl _ _)
  | pdEdgeArrival => exact execPdEdgeArrival_ans rfl (.refl _ _)
  | ctxArm => exact execCtxArm_ans rfl (.refl _ _)
  | ctxDisarm => exact execCtxDisarm_ans rfl (.refl _ _)
  | ctxStart => exact execCtxStart_ans rfl (.refl _ _)
  | ctxPause => exact execCtxPause_ans rfl (.refl _ _)
  | ctxResume => exact execCtxResume_ans rfl rfl (.refl _ _)
  | ctxDrain => exact execCtxDrain_ans rfl (.refl _ _)
  | ctxAbort => exact execCtxAbort_ans rfl (.refl _ _)
  | ctxFlush => exact execCtxFlush_ans rfl (.refl _ _)
  | chuteFlushScan => exact execChuteFlushScan_ans (.refl _ _)
  | ctxFence => exact execCtxFence_ans (.refl _ _)
  | ctxRelease => exact execCtxRelease_ans rfl (.refl _ _)
  | followerRejoin => exact execFollowerRejoin_ans rfl rfl (.refl _ _)
  | descriptorWrite => exact execDescriptorWrite_ans rfl rfl (.refl _ _)
  | ctxCommitGo => exact execCtxCommitGo_ans (.refl _ _)
  | ctxHandOver => exact execCtxHandOver_ans rfl (.refl _ _)
  | lineBind => exact execLineBind_ans rfl rfl (.refl _ _)
  | lineFreeze => exact execLineFreeze_ans (.refl _ _)
  | cycleFire => exact execCycleFire_ans rfl (.refl _ _)
  | drainComplete => exact execDrainComplete_ans rfl (.refl _ _)
  | stall => exact execStall_ans rfl (.refl _ _)
  | blockAccept => exact execBlockAccept_ans rfl rfl (.refl _ _)
  | lineBuild => exact execLineBuild_ans rfl rfl (.refl _ _)
  | seamShareReceive => exact execSeamShareReceive_ans rfl rfl (.refl _ _)
  | seamCreditReturn => exact execSeamCreditReturn_ans rfl rfl (.refl _ _)
  | wfLoadStart => exact execWfLoadStart_ans (.refl _ _)
  | wfLoadCopy => exact execWfLoadCopy_ans rfl (.refl _ _)
  | wfLoadHead => exact execWfLoadHead_ans (.refl _ _)
  | loadDone => exact execLoadDone_ans (.refl _ _)
  | heaterUpdate => exact execHeaterUpdate_ans (.refl _ _)
  | nozzleMapLoadDone => exact execNozzleMapLoadDone_ans rfl (.refl _ _)
  | echoResult => exact execEchoResult_ans rfl rfl (.refl _ _)
  | sweepStart => exact execSweepStart_ans (.refl _ _)
  | sweepAbort => exact execSweepAbort_ans (.refl _ _)
  | setState => exact execSetState_ans rfl rfl (.refl _ _)
  | setTrim => exact execSetTrim_ans rfl rfl (.refl _ _)
  | clearHist => exact execClearHist_ans rfl rfl (.refl _ _)
  | refInvalid => exact execRefInvalid_ans rfl rfl (.refl _ _)
  | refValid => exact execRefValid_ans rfl rfl (.refl _ _)
  | lockTrim => exact execLockTrim_ans rfl rfl (.refl _ _)
  | linkDiscovery => exact execLinkDiscovery_ans (.refl _ _)
  | discoveryRepeat => exact execDiscoveryRepeat_ans (.refl _ _)
  | linkUp => exact execLinkUp_ans (.refl _ _)
  | trainAttemptTimeout => exact execTrainAttemptTimeout_ans rfl (.refl _ _)
  | frameSend => exact execFrameSend_ans rfl (.refl _ _)
  | ackReceive => exact execAckReceive_ans rfl (.refl _ _)
  | ackTimeout => exact execAckTimeout_ans rfl (.refl _ _)
  | statusReceive => exact execStatusReceive_ans rfl (.refl _ _)
  | statusStale => exact execStatusStale_ans (.refl _ _)
  | currentLoopTick => exact execCurrentLoopTick_ans rfl (.refl _ _)
  | bridgeFault => exact execBridgeFault_ans rfl (.refl _ _)
  | stepInput => exact execStepInput_ans (.refl _ _)
  | profileTick => exact execProfileTick_ans rfl (.refl _ _)
  | axEnableDone => exact execAxEnableDone_ans (.refl _ _)
  | axMove => exact execAxMove_ans (.refl _ _)
  | axStop => exact execAxStop_ans (.refl _ _)
  | axResume => exact execAxResume_ans (.refl _ _)
  | axHome => exact execAxHome_ans (.refl _ _)
  | axLoad => exact execAxLoad_ans (.refl _ _)
  | axClear => exact execAxClear_ans (.refl _ _)
  | axCut => exact execAxCut_ans (.refl _ _)
  | switchInputEdge => exact execSwitchInputEdge_ans rfl (.refl _ _)
  | swEdge => exact execSwEdge_ans rfl (.refl _ _)
  | hcStart => exact execHcStart_ans (.refl _ _)
  | hcCancel => exact execHcCancel_ans (.refl _ _)
  | hcHold => exact execHcHold_ans (.refl _ _)
  | hcResume => exact execHcResume_ans (.refl _ _)
  | hcAbort => exact execHcAbort_ans (.refl _ _)
  | hoistTrigger => exact execHoistTrigger_ans (.refl _ _)
  | runStart => exact execRunStart_ans (.refl _ _)
  | hoistMove => exact execHoistMove_ans rfl (.refl _ _)
  | hoistLoop => exact execHoistLoop_ans rfl (.refl _ _)
  | hoistWait => exact execHoistWait_ans rfl (.refl _ _)
  | waitSatisfied => exact execWaitSatisfied_ans (.refl _ _)
  | waitTimeout => exact execWaitTimeout_ans rfl (.refl _ _)
  | hoistSignal => exact execHoistSignal_ans rfl (.refl _ _)
  | hoistSeta => exact execHoistSeta_ans rfl (.refl _ _)
  | hoistAdda => exact execHoistAdda_ans rfl (.refl _ _)
  | hoistNop => exact execHoistNop_ans rfl (.refl _ _)
  | hoistEnd => exact execHoistEnd_ans rfl (.refl _ _)
  | burstStart => exact execBurstStart_ans (.refl _ _)
  | burstWritten => exact execBurstWritten_ans rfl rfl rfl rfl (.refl _ _)
  | hoistWatchdog => exact execHoistWatchdog_ans rfl (.refl _ _)
  | globalTimerFire => exact execGlobalTimerFire_ans (.refl _ _)
  | cqRecordWrite => exact execCqRecordWrite_ans (.refl _ _)
  | cqSizeWrite => exact execCqSizeWrite_ans (.refl _ _)
  | cqConsWrite => exact execCqConsWrite_ans (.refl _ _)
  | chutePush => exact execChutePush_ans (.refl _ _)
  | chutePop => exact execChutePop_ans (.refl _ _)
  | memWindowWrite => exact execMemWindowWrite_ans rfl rfl (.refl _ _)
  | memWindowRead => exact execMemWindowRead_ans rfl (.refl _ _)
  | memtestRegionStart => exact execMemtestRegionStart_ans (.refl _ _)
  | memtestPhaseDone => exact execMemtestPhaseDone_ans rfl (.refl _ _)
  | repairMapSave => exact execRepairMapSave_ans rfl rfl (.refl _ _)
  | retDataWrite => exact execRetDataWrite_ans (.refl _ _)
  | retDataRead => exact execRetDataRead_ans rfl (.refl _ _)
  | retWordWritten => exact execRetWordWritten_ans rfl rfl (.refl _ _)
  | asRequest => exact execAsRequest_ans (.refl _ _)
  | asSave => exact execAsSave_ans (.refl _ _)
  | asRestore => exact execAsRestore_ans (.refl _ _)
  | asCancel => exact execAsCancel_ans (.refl _ _)
  | saved => exact execSaved_ans rfl rfl (.refl _ _)
  | restored => exact execRestored_ans (.refl _ _)
  | assayRunStart => exact execAssayRunStart_ans (.refl _ _)
  | assayTakeover => exact execAssayTakeover_ans (.refl _ _)
  | assayMeasureStart => exact execAssayMeasureStart_ans (.refl _ _)
  | assayMeasureEnd => exact execAssayMeasureEnd_ans (.refl _ _)
  | runDone => exact execRunDone_ans (.refl _ _)
  | tabRead => exact execTabRead_ans (.refl _ _)
  | tabWrite => exact execTabWrite_ans (.refl _ _)
  | tabClear => exact execTabClear_ans (.refl _ _)
  | tempUpdate => exact execTempUpdate_ans (.refl _ _)
  | thermistorSample => exact execThermistorSample_ans (.refl _ _)
  | warnClear => exact execWarnClear_ans (.refl _ _)
  | graceExpiry => exact execGraceExpiry_ans (.refl _ _)
  | critical => exact execCritical_ans rfl (.refl _ _)
  | lampMeasure => exact execLampMeasure_ans (.refl _ _)
  | lampMeasureCmd => exact execLampMeasureCmd_ans (.refl _ _)
  | measured => exact execMeasured_ans (.refl _ _)
  | calintExpiry => exact execCalintExpiry_ans (.refl _ _)
  | histWritten => exact execHistWritten_ans rfl rfl (.refl _ _)
  | histClear => exact execHistClear_ans rfl rfl (.refl _ _)
  | mailboxPost => exact execMailboxPost_ans (.refl _ _)
  | mailboxTake => exact execMailboxTake_ans (.refl _ _)
  | inDone => exact execInDone_ans (.refl _ _)
  | getInfo => exact execGetInfo_ans (.refl _ _)
  | ping => exact execPing_ans (.refl _ _)
  | headDiscover => exact execHeadDiscover_ans (.refl _ _)
  | sbRead => exact execSbRead_ans (.refl _ _)
  | sbWrite => exact execSbWrite_ans (.refl _ _)
  | captureRef => exact execCaptureRef_ans (.refl _ _)
  | assayRequest => exact execAssayRequest_ans (.refl _ _)
  | abortLong => exact execAbortLong_ans (.refl _ _)
  | tallyClear => exact execTallyClear_ans rfl rfl (.refl _ _)
  | fwRestart => exact execFwRestart_ans (.refl _ _)
  | lifecycleAdvance => exact execLifecycleAdvance_ans rfl (.refl _ _)
  | longCmdTimeout => exact execLongCmdTimeout_ans (.refl _ _)
  | fwWatchdogRestart => exact execFwWatchdogRestart_ans (.refl _ _)
  | fwStarted => exact execFwStarted_ans (.refl _ _)
  | outFull => exact execOutFull_ans (.refl _ _)
  | noticeAck => exact execNoticeAck_ans (.refl _ _)
  | inStuck => exact execInStuck_ans (.refl _ _)
  | outStuck => exact execOutStuck_ans (.refl _ _)
  | flr => exact execFlr_ans rfl (.refl _ _)
  | conventionalReset => exact execConventionalReset_ans rfl (.refl _ _)
  | sessionStart => exact execSessionStart_ans (.refl _ _)
  | sessionCheck => exact execSessionCheck_ans rfl (.refl _ _)
  | sessionClose => exact execSessionClose_ans (.refl _ _)
  | sessionTimeout => exact execSessionTimeout_ans (.refl _ _)
  | backoffEnd => exact execBackoffEnd_ans (.refl _ _)
  | guardWrite => exact execGuardWrite_ans (.refl _ _)
  | extest => exact execExtest_ans rfl (.refl _ _)
  | samplePreload => exact execSamplePreload_ans (.refl _ _)
  | idcode => exact execIdcode_ans (.refl _ _)
  | clamp => exact execClamp_ans rfl (.refl _ _)
  | highz => exact execHighz_ans rfl (.refl _ _)
  | extestPulse => exact execExtestPulse_ans rfl (.refl _ _)
  | extestTrain => exact execExtestTrain_ans rfl (.refl _ _)
  | dbgStatus => exact execDbgStatus_ans (.refl _ _)
  | unlockChal => exact execUnlockChal_ans (.refl _ _)
  | unlockResp => exact execUnlockResp_ans rfl (.refl _ _)
  | dbgAccess => exact execDbgAccess_ans rfl rfl rfl rfl (.refl _ _)
  | dbgClose => exact execDbgClose_ans (.refl _ _)
  | bypass => exact execBypass_ans (.refl _ _)
  | dbgCtrlClose => exact execDbgCtrlClose_ans (.refl _ _)
  | trstLow => exact execTrstLow_ans (.refl _ _)
  | ijlAllowWrite => exact execIjlAllowWrite_ans (.refl _ _)
  | dormantEntry => exact execDormantEntry_ans rfl rfl (.refl _ _)
  | vinOff => exact execVinOff_ans rfl rfl (.refl _ _)
  | wakePin => exact execWakePin_ans (.refl _ _)
  | wakeAlarm => exact execWakeAlarm_ans (.refl _ _)
  | vinBrownout => exact execVinBrownout_ans rfl rfl (.refl _ _)
  | vaonReset => exact execVaonReset_ans (.refl _ _)
  | powerGood => exact execPowerGood_ans rfl rfl (.refl _ _)
  | fuseRead => exact execFuseRead_ans rfl rfl rfl (.refl _ _)
  | crystal => exact execCrystal_ans rfl rfl (.refl _ _)
  | pllLock => exact execPllLock_ans rfl rfl (.refl _ _)
  | memRepair => exact execMemRepair_ans rfl rfl rfl (.refl _ _)
  | burimTrain => exact execBurimTrain_ans rfl rfl (.refl _ _)
  | fwVerify => exact execFwVerify_ans rfl rfl (.refl _ _)
  | pcieLink => exact execPcieLink_ans rfl rfl (.refl _ _)
  | initialAssay => exact execInitialAssay_ans rfl rfl rfl rfl (.refl _ _)
  | bootStepTimeout => exact execBootStepTimeout_ans rfl rfl rfl rfl (.refl _ _)
  | bootRestart => exact execBootRestart_ans rfl rfl rfl (.refl _ _)
  | tlClear => exact execTlClear_ans (.refl _ _)
  | cleared => exact execCleared_ans rfl rfl (.refl _ _)
  | pageFence => exact execPageFence_ans rfl (.refl _ _)
  | fenceRelease => exact execFenceRelease_ans rfl (.refl _ _)
  | releaseComplete => exact execReleaseComplete_ans rfl (.refl _ _)
  | dieFenced => exact execDieFenced_ans rfl (.refl _ _)
  | watchdog => exact execWatchdog_ans rfl (.refl _ _)
  | completionTimeout => exact execCompletionTimeout_ans rfl (.refl _ _)
  | msixPendingSend => exact execMsixPendingSend_ans (.refl _ _)
  | pcieLinkUp => exact execPcieLinkUp_ans (.refl _ _)
  | flitReceive => exact execFlitReceive_ans (.refl _ _)
  | nakReceive => exact execNakReceive_ans (.refl _ _)
  | burimRetrain => exact execBurimRetrain_ans (.refl _ _)
  | burimRetrainDone => exact execBurimRetrainDone_ans rfl (.refl _ _)
  | periodSpeedLimit => exact execPeriodSpeedLimit_ans (.refl _ _)
  | upstreamCodeErrors => exact execUpstreamCodeErrors_ans rfl (.refl _ _)
  | pcieLinkDown => exact execPcieLinkDown_ans (.refl _ _)
  | vaonApplied => exact execVaonApplied_ans (.refl _ _)
  | dormantSecondsEdge => exact execDormantSecondsEdge_ans (.refl _ _)
  | busMasterEnable => exact execBusMasterEnable_ans (.refl _ _)

/-! The parts of the state that a command leaves alone. -/

end Sys2Proof.Laws

namespace Sys2Proof.Machine

open Sys2Proof.Laws

/-- A part of the state alone, all the rest being as after reset. -/
def Engine.view : Engine → State → State
  | .free, s => { State.reset with free := s.free }
  | .gos, s => { State.reset with gos := s.gos }
  | .hold, s => { State.reset with hold := s.hold }
  | .ticks, s => { State.reset with ticks := s.ticks }
  | .caps, s => { State.reset with caps := s.caps }
  | .fences, s => { State.reset with fences := s.fences }
  | .mem, s => { State.reset with mem := s.mem }
  | .ecc, s => { State.reset with ecc := s.ecc }
  | .ret, s => { State.reset with ret := s.ret }
  | .retEcc, s => { State.reset with retEcc := s.retEcc }
  | .chutes, s => { State.reset with chutes := s.chutes }
  | .ctxs, s => { State.reset with ctxs := s.ctxs }
  | .ports, s => { State.reset with ports := s.ports }
  | .encs, s => { State.reset with encs := s.encs }
  | .pds, s => { State.reset with pds := s.pds }
  | .seamQ, s => { State.reset with seamQ := s.seamQ }
  | .echos, s => { State.reset with echos := s.echos }
  | .mems, s => { State.reset with mems := s.mems }
  | .msgs, s => { State.reset with msgs := s.msgs }
  | .axes, s => { State.reset with axes := s.axes }
  | .hoists, s => { State.reset with hoists := s.hoists }
  | .served, s => { State.reset with served := s.served }
  | .trigs, s => { State.reset with trigs := s.trigs }
  | .tmrs, s => { State.reset with tmrs := s.tmrs }
  | .cqWait, s => { State.reset with cqWait := s.cqWait }
  | .cqSeq, s => { State.reset with cqSeq := s.cqSeq }
  | .assays, s => { State.reset with assays := s.assays }
  | .therms, s => { State.reset with therms := s.therms }
  | .lamps, s => { State.reset with lamps := s.lamps }
  | .mboxes, s => { State.reset with mboxes := s.mboxes }
  | .fws, s => { State.reset with fws := s.fws }
  | .tsync, s => { State.reset with tsync := s.tsync }
  | .burims, s => { State.reset with burims := s.burims }
  | .hops, s => { State.reset with hops := s.hops }
  | .dies, s => { State.reset with dies := s.dies }
  | .pkg, s => { State.reset with pkg := s.pkg }
  | .pcie, s => { State.reset with pcie := s.pcie }
  | .resp, s => { State.reset with resp := s.resp }

/-- A projection skips a part of the state. -/
def Engine.Skipped {α : Type} (φ : State → α) : Engine → Prop
  | .free => Skips.free φ
  | .gos => Skips.gos φ
  | .hold => Skips.hold φ
  | .ticks => Skips.ticks φ
  | .caps => Skips.caps φ
  | .fences => Skips.fences φ
  | .mem => Skips.mem φ
  | .ecc => Skips.ecc φ
  | .ret => Skips.ret φ
  | .retEcc => Skips.retEcc φ
  | .chutes => Skips.chutes φ
  | .ctxs => Skips.ctxs φ
  | .ports => Skips.ports φ
  | .encs => Skips.encs φ
  | .pds => Skips.pds φ
  | .seamQ => Skips.seamQ φ
  | .echos => Skips.echos φ
  | .mems => Skips.mems φ
  | .msgs => Skips.msgs φ
  | .axes => Skips.axes φ
  | .hoists => Skips.hoists φ
  | .served => Skips.served φ
  | .trigs => Skips.trigs φ
  | .tmrs => Skips.tmrs φ
  | .cqWait => Skips.cqWait φ
  | .cqSeq => Skips.cqSeq φ
  | .assays => Skips.assays φ
  | .therms => Skips.therms φ
  | .lamps => Skips.lamps φ
  | .mboxes => Skips.mboxes φ
  | .fws => Skips.fws φ
  | .tsync => Skips.tsync φ
  | .burims => Skips.burims φ
  | .hops => Skips.hops φ
  | .dies => Skips.dies φ
  | .pkg => Skips.pkg φ
  | .pcie => Skips.pcie φ
  | .resp => Skips.resp φ

/-- A part alone skips every other part. -/
theorem Engine.view_skipped {e x : Engine} (h : e ≠ x) : x.Skipped e.view := by
  cases x <;> intro s v <;> cases e <;> first | rfl | exact absurd rfl h

/-- A part that reads the same alone is the same in both states. -/
theorem Engine.same_of_view {e : Engine} {s t : State} (h : e.view t = e.view s) : e.Same s t := by
  have hview : e.Same s t = e.Same (e.view s) (e.view t) := by cases e <;> rfl
  rw [hview, h]
  cases e <;> rfl

end Sys2Proof.Machine

namespace Sys2Proof.Laws

open Sys2Proof.Machine

/-- A part of the state that a command does not list reads the same after it. -/
theorem exec_ansAt {i : Instr} {e : Engine} (he : e ∉ mayTouch i) (s : State) :
    AnsAt e.view (e.view s) (exec i s) := by
  have off (x : Engine) (hx : (mayTouch i).contains x = true) : x.Skipped e.view :=
    Engine.view_skipped fun h => he (h ▸ List.contains_iff_mem.1 hx)
  have hregs : Skips.regs e.view := fun _ _ => by cases e <;> rfl
  have hshad : Skips.shad e.view := fun _ _ => by cases e <;> rfl
  have hclock : Skips.clock e.view := fun _ _ => by cases e <;> rfl
  have hout : Skips.out e.view := fun _ _ => by cases e <;> rfl
  cases i with
  | modeReqWrite =>
    exact execModeReqWrite_ansAt (off .free rfl) hregs (off .dies rfl) (off .pkg rfl) (off .pcie rfl) (off .resp rfl)
      hout rfl
  | modeLeadWrite => exact execModeLeadWrite_ansAt hregs (off .dies rfl) (off .pcie rfl) (off .resp rfl) hout rfl
  | modeChanged =>
    exact execModeChanged_ansAt hclock hregs (off .ecc rfl) (off .chutes rfl) (off .ctxs rfl) (off .ports rfl)
      (off .encs rfl) (off .seamQ rfl) (off .echos rfl) (off .mems rfl) (off .axes rfl) (off .trigs rfl)
      (off .assays rfl) (off .mboxes rfl) (off .dies rfl) (off .pkg rfl) (off .pcie rfl) hout rfl
  | modeMirrorArrive => exact execModeMirrorArrive_ansAt hregs (off .dies rfl) (off .pcie rfl) hout rfl
  | modeClockSettled =>
    exact execModeClockSettled_ansAt hclock hregs (off .dies rfl) (off .pkg rfl) (off .pcie rfl) hout rfl
  | registerWrite =>
    exact execRegisterWrite_ansAt (off .free rfl) hregs hshad (off .gos rfl) (off .hold rfl) (off .ticks rfl)
      (off .fences rfl) (off .mem rfl) (off .ecc rfl) (off .ret rfl) (off .retEcc rfl) (off .chutes rfl)
      (off .ctxs rfl) (off .ports rfl) (off .encs rfl) (off .pds rfl) (off .seamQ rfl) (off .echos rfl)
      (off .mems rfl) (off .msgs rfl) (off .axes rfl) (off .hoists rfl) (off .trigs rfl) (off .cqWait rfl)
      (off .cqSeq rfl) (off .assays rfl) (off .therms rfl) (off .lamps rfl) (off .mboxes rfl) (off .fws rfl)
      (off .tsync rfl) (off .hops rfl) (off .dies rfl) (off .pkg rfl) (off .pcie rfl) (off .resp rfl) hout rfl
  | unsupportedRequest => exact execUnsupportedRequest_ansAt hregs (off .pcie rfl) (off .resp rfl) hout rfl
  | enWrite =>
    exact execEnWrite_ansAt hregs (off .fences rfl) (off .ecc rfl) (off .chutes rfl) (off .ctxs rfl) (off .ports rfl)
      (off .encs rfl) (off .pds rfl) (off .seamQ rfl) (off .echos rfl) (off .mems rfl) (off .msgs rfl) (off .axes rfl)
      (off .hoists rfl) (off .trigs rfl) (off .cqWait rfl) (off .assays rfl) (off .mboxes rfl) (off .fws rfl)
      (off .tsync rfl) (off .hops rfl) (off .dies rfl) (off .pkg rfl) (off .pcie rfl) (off .resp rfl) hout rfl
  | blockStarted =>
    exact execBlockStarted_ansAt hregs (off .fences rfl) (off .ecc rfl) (off .chutes rfl) (off .ctxs rfl)
      (off .ports rfl) (off .encs rfl) (off .pds rfl) (off .seamQ rfl) (off .echos rfl) (off .mems rfl)
      (off .msgs rfl) (off .axes rfl) (off .hoists rfl) (off .trigs rfl) (off .cqWait rfl) (off .assays rfl)
      (off .mboxes rfl) (off .fws rfl) (off .tsync rfl) (off .hops rfl) (off .dies rfl) (off .pkg rfl) (off .pcie rfl)
      hout rfl
  | shutdownComplete =>
    exact execShutdownComplete_ansAt hclock (off .free rfl) hregs hshad (off .hold rfl) (off .fences rfl)
      (off .ecc rfl) (off .chutes rfl) (off .ctxs rfl) (off .ports rfl) (off .encs rfl) (off .pds rfl)
      (off .seamQ rfl) (off .echos rfl) (off .mems rfl) (off .msgs rfl) (off .axes rfl) (off .hoists rfl)
      (off .trigs rfl) (off .cqWait rfl) (off .cqSeq rfl) (off .assays rfl) (off .therms rfl) (off .lamps rfl)
      (off .mboxes rfl) (off .fws rfl) (off .tsync rfl) (off .hops rfl) (off .dies rfl) (off .pkg rfl) (off .pcie rfl)
      hout rfl
  | softReset =>
    exact execSoftReset_ansAt (off .free rfl) hregs hshad (off .hold rfl) (off .fences rfl) (off .ecc rfl)
      (off .chutes rfl) (off .ctxs rfl) (off .ports rfl) (off .encs rfl) (off .pds rfl) (off .seamQ rfl)
      (off .echos rfl) (off .mems rfl) (off .msgs rfl) (off .axes rfl) (off .hoists rfl) (off .trigs rfl)
      (off .cqWait rfl) (off .cqSeq rfl) (off .assays rfl) (off .therms rfl) (off .lamps rfl) (off .mboxes rfl)
      (off .fws rfl) (off .tsync rfl) (off .hops rfl) (off .dies rfl) (off .pkg rfl) (off .pcie rfl) (off .resp rfl)
      hout rfl
  | evtLatWrite => exact execEvtLatWrite_ansAt hregs (off .dies rfl) (off .pcie rfl) (off .resp rfl) hout rfl
  | evtEnWrite => exact execEvtEnWrite_ansAt hregs (off .dies rfl) (off .pcie rfl) (off .resp rfl) hout rfl
  | evtSetWrite => exact execEvtSetWrite_ansAt hregs (off .dies rfl) (off .pcie rfl) (off .resp rfl) hout rfl
  | evtVecWrite => exact execEvtVecWrite_ansAt hregs (off .dies rfl) (off .pcie rfl) (off .resp rfl) hout rfl
  | errInfoClear => exact execErrInfoClear_ansAt hregs (off .dies rfl) (off .pcie rfl) (off .resp rfl) hout rfl
  | commitGo => exact execCommitGo_ansAt hregs (off .gos rfl) (off .dies rfl) (off .pcie rfl) (off .resp rfl) hout rfl
  | commitCancel =>
    exact execCommitCancel_ansAt hregs (off .gos rfl) (off .dies rfl) (off .pcie rfl) (off .resp rfl) hout rfl
  | handOver =>
    exact execHandOver_ansAt hclock (off .free rfl) hregs hshad (off .hold rfl) (off .fences rfl) (off .ecc rfl)
      (off .chutes rfl) (off .ctxs rfl) (off .ports rfl) (off .encs rfl) (off .pds rfl) (off .seamQ rfl)
      (off .echos rfl) (off .mems rfl) (off .msgs rfl) (off .axes rfl) (off .hoists rfl) (off .trigs rfl)
      (off .cqWait rfl) (off .cqSeq rfl) (off .assays rfl) (off .therms rfl) (off .lamps rfl) (off .mboxes rfl)
      (off .fws rfl) (off .tsync rfl) (off .hops rfl) (off .dies rfl) (off .pkg rfl) (off .pcie rfl) hout rfl
  | wideLRead =>
    exact execWideLRead_ansAt hclock (off .free rfl) hregs hshad (off .hold rfl) (off .caps rfl) (off .fences rfl)
      (off .ecc rfl) (off .retEcc rfl) (off .chutes rfl) (off .ctxs rfl) (off .ports rfl) (off .encs rfl)
      (off .pds rfl) (off .seamQ rfl) (off .echos rfl) (off .mems rfl) (off .msgs rfl) (off .axes rfl)
      (off .hoists rfl) (off .trigs rfl) (off .cqWait rfl) (off .cqSeq rfl) (off .assays rfl) (off .therms rfl)
      (off .lamps rfl) (off .mboxes rfl) (off .fws rfl) (off .tsync rfl) (off .hops rfl) (off .dies rfl)
      (off .pkg rfl) (off .pcie rfl) (off .resp rfl) hout rfl
  | wideLWrite =>
    exact execWideLWrite_ansAt (off .free rfl) hregs hshad (off .gos rfl) (off .hold rfl) (off .ticks rfl)
      (off .fences rfl) (off .mem rfl) (off .ecc rfl) (off .ret rfl) (off .retEcc rfl) (off .chutes rfl)
      (off .ctxs rfl) (off .ports rfl) (off .encs rfl) (off .pds rfl) (off .seamQ rfl) (off .echos rfl)
      (off .mems rfl) (off .msgs rfl) (off .axes rfl) (off .hoists rfl) (off .trigs rfl) (off .cqWait rfl)
      (off .cqSeq rfl) (off .assays rfl) (off .therms rfl) (off .lamps rfl) (off .mboxes rfl) (off .fws rfl)
      (off .tsync rfl) (off .hops rfl) (off .dies rfl) (off .pkg rfl) (off .pcie rfl) (off .resp rfl) hout rfl
  | xtalCompUpdate =>
    exact execXtalCompUpdate_ansAt hclock (off .free rfl) hregs (off .tsync rfl) (off .dies rfl) (off .pkg rfl)
      (off .pcie rfl) hout rfl
  | xtalFail => exact execXtalFail_ansAt hregs (off .assays rfl) (off .pkg rfl) (off .pcie rfl) hout rfl
  | pllUnlock =>
    exact execPllUnlock_ansAt (off .free rfl) hregs hshad (off .hold rfl) (off .fences rfl) (off .ecc rfl)
      (off .chutes rfl) (off .ctxs rfl) (off .ports rfl) (off .encs rfl) (off .pds rfl) (off .seamQ rfl)
      (off .echos rfl) (off .mems rfl) (off .msgs rfl) (off .axes rfl) (off .hoists rfl) (off .trigs rfl)
      (off .cqWait rfl) (off .cqSeq rfl) (off .assays rfl) (off .therms rfl) (off .lamps rfl) (off .mboxes rfl)
      (off .fws rfl) (off .tsync rfl) (off .hops rfl) (off .dies rfl) (off .pkg rfl) (off .pcie rfl) hout rfl
  | pllRelockRelease =>
    exact execPllRelockRelease_ansAt hclock (off .free rfl) hregs hshad (off .hold rfl) (off .fences rfl)
      (off .ecc rfl) (off .chutes rfl) (off .ctxs rfl) (off .ports rfl) (off .encs rfl) (off .pds rfl)
      (off .seamQ rfl) (off .echos rfl) (off .mems rfl) (off .msgs rfl) (off .axes rfl) (off .hoists rfl)
      (off .trigs rfl) (off .cqWait rfl) (off .cqSeq rfl) (off .assays rfl) (off .therms rfl) (off .lamps rfl)
      (off .mboxes rfl) (off .fws rfl) (off .tsync rfl) (off .hops rfl) (off .dies rfl) (off .pkg rfl) (off .pcie rfl)
      hout rfl
  | wrap => exact execWrap_ansAt hclock hregs (off .dies rfl) (off .pcie rfl) hout rfl
  | secEdge =>
    exact execSecEdge_ansAt hclock hregs (off .assays rfl) (off .lamps rfl) (off .dies rfl) (off .pkg rfl)
      (off .pcie rfl) hout rfl
  | timeFlitExchange =>
    exact execTimeFlitExchange_ansAt hclock (off .free rfl) hregs hshad (off .hold rfl) (off .fences rfl)
      (off .ecc rfl) (off .chutes rfl) (off .ctxs rfl) (off .ports rfl) (off .encs rfl) (off .pds rfl)
      (off .seamQ rfl) (off .echos rfl) (off .mems rfl) (off .msgs rfl) (off .axes rfl) (off .hoists rfl)
      (off .trigs rfl) (off .cqWait rfl) (off .cqSeq rfl) (off .assays rfl) (off .therms rfl) (off .lamps rfl)
      (off .mboxes rfl) (off .fws rfl) (off .tsync rfl) (off .hops rfl) (off .dies rfl) (off .pkg rfl) (off .pcie rfl)
      hout rfl
  | timeSourceSwitch =>
    exact execTimeSourceSwitch_ansAt (off .free rfl) hregs hshad (off .hold rfl) (off .fences rfl) (off .ecc rfl)
      (off .chutes rfl) (off .ctxs rfl) (off .ports rfl) (off .encs rfl) (off .pds rfl) (off .seamQ rfl)
      (off .echos rfl) (off .mems rfl) (off .msgs rfl) (off .axes rfl) (off .hoists rfl) (off .trigs rfl)
      (off .cqWait rfl) (off .cqSeq rfl) (off .assays rfl) (off .therms rfl) (off .lamps rfl) (off .mboxes rfl)
      (off .fws rfl) (off .tsync rfl) (off .hops rfl) (off .dies rfl) (off .pkg rfl) (off .pcie rfl) hout rfl
  | timeSkewRelease =>
    exact execTimeSkewRelease_ansAt hclock (off .free rfl) hregs hshad (off .hold rfl) (off .fences rfl)
      (off .ecc rfl) (off .chutes rfl) (off .ctxs rfl) (off .ports rfl) (off .encs rfl) (off .pds rfl)
      (off .seamQ rfl) (off .echos rfl) (off .mems rfl) (off .msgs rfl) (off .axes rfl) (off .hoists rfl)
      (off .trigs rfl) (off .cqWait rfl) (off .cqSeq rfl) (off .assays rfl) (off .therms rfl) (off .lamps rfl)
      (off .mboxes rfl) (off .fws rfl) (off .tsync rfl) (off .hops rfl) (off .dies rfl) (off .pkg rfl) (off .pcie rfl)
      hout rfl
  | tsyncFrameSend =>
    exact execTsyncFrameSend_ansAt hclock hregs (off .tsync rfl) (off .dies rfl) (off .pcie rfl) hout rfl
  | tsyncFrameReceive =>
    exact execTsyncFrameReceive_ansAt hregs (off .tsync rfl) (off .pkg rfl) (off .pcie rfl) hout rfl
  | stepApplied =>
    exact execStepApplied_ansAt hclock hregs (off .encs rfl) (off .tsync rfl) (off .dies rfl) (off .pcie rfl) hout rfl
  | tsyncHoldover =>
    exact execTsyncHoldover_ansAt hclock hregs (off .tsync rfl) (off .dies rfl) (off .pcie rfl) hout rfl
  | encCount =>
    exact execEncCount_ansAt hclock (off .free rfl) hregs hshad (off .hold rfl) (off .fences rfl) (off .ecc rfl)
      (off .chutes rfl) (off .ctxs rfl) (off .ports rfl) (off .encs rfl) (off .pds rfl) (off .seamQ rfl)
      (off .echos rfl) (off .mems rfl) (off .msgs rfl) (off .axes rfl) (off .hoists rfl) (off .trigs rfl)
      (off .cqWait rfl) (off .cqSeq rfl) (off .assays rfl) (off .therms rfl) (off .lamps rfl) (off .mboxes rfl)
      (off .fws rfl) (off .tsync rfl) (off .hops rfl) (off .dies rfl) (off .pkg rfl) (off .pcie rfl) hout rfl
  | index =>
    exact execIndex_ansAt hclock (off .free rfl) hregs hshad (off .hold rfl) (off .fences rfl) (off .ecc rfl)
      (off .chutes rfl) (off .ctxs rfl) (off .ports rfl) (off .encs rfl) (off .pds rfl) (off .seamQ rfl)
      (off .echos rfl) (off .mems rfl) (off .msgs rfl) (off .axes rfl) (off .hoists rfl) (off .trigs rfl)
      (off .cqWait rfl) (off .cqSeq rfl) (off .assays rfl) (off .therms rfl) (off .lamps rfl) (off .mboxes rfl)
      (off .fws rfl) (off .tsync rfl) (off .hops rfl) (off .dies rfl) (off .pkg rfl) (off .pcie rfl) hout rfl
  | speedWindow =>
    exact execSpeedWindow_ansAt hclock (off .free rfl) hregs (off .encs rfl) (off .dies rfl) (off .pcie rfl) hout rfl
  | speedStopped => exact execSpeedStopped_ansAt hclock (off .free rfl) hregs (off .dies rfl) (off .pcie rfl) hout rfl
  | serialFrameStart =>
    exact execSerialFrameStart_ansAt hclock (off .free rfl) hregs hshad (off .hold rfl) (off .fences rfl)
      (off .ecc rfl) (off .chutes rfl) (off .ctxs rfl) (off .ports rfl) (off .encs rfl) (off .pds rfl)
      (off .seamQ rfl) (off .echos rfl) (off .mems rfl) (off .msgs rfl) (off .axes rfl) (off .hoists rfl)
      (off .trigs rfl) (off .cqWait rfl) (off .cqSeq rfl) (off .assays rfl) (off .therms rfl) (off .lamps rfl)
      (off .mboxes rfl) (off .fws rfl) (off .tsync rfl) (off .hops rfl) (off .dies rfl) (off .pkg rfl) (off .pcie rfl)
      hout rfl
  | serialFrameEnd =>
    exact execSerialFrameEnd_ansAt (off .free rfl) hregs hshad (off .hold rfl) (off .fences rfl) (off .ecc rfl)
      (off .chutes rfl) (off .ctxs rfl) (off .ports rfl) (off .encs rfl) (off .pds rfl) (off .seamQ rfl)
      (off .echos rfl) (off .mems rfl) (off .msgs rfl) (off .axes rfl) (off .hoists rfl) (off .trigs rfl)
      (off .cqWait rfl) (off .cqSeq rfl) (off .assays rfl) (off .therms rfl) (off .lamps rfl) (off .mboxes rfl)
      (off .fws rfl) (off .tsync rfl) (off .hops rfl) (off .dies rfl) (off .pkg rfl) (off .pcie rfl) hout rfl
  | serialTimeout =>
    exact execSerialTimeout_ansAt (off .free rfl) hregs hshad (off .hold rfl) (off .fences rfl) (off .ecc rfl)
      (off .chutes rfl) (off .ctxs rfl) (off .ports rfl) (off .encs rfl) (off .pds rfl) (off .seamQ rfl)
      (off .echos rfl) (off .mems rfl) (off .msgs rfl) (off .axes rfl) (off .hoists rfl) (off .trigs rfl)
      (off .cqWait rfl) (off .cqSeq rfl) (off .assays rfl) (off .therms rfl) (off .lamps rfl) (off .mboxes rfl)
      (off .fws rfl) (off .tsync rfl) (off .hops rfl) (off .dies rfl) (off .pkg rfl) (off .pcie rfl) hout rfl
  | latchSw =>
    exact execLatchSw_ansAt (off .free rfl) hregs (off .chutes rfl) (off .encs rfl) (off .trigs rfl) (off .dies rfl)
      (off .pcie rfl) (off .resp rfl) hout rfl
  | latchPeriodic =>
    exact execLatchPeriodic_ansAt hclock (off .free rfl) hregs (off .chutes rfl) (off .encs rfl) (off .trigs rfl)
      (off .dies rfl) (off .pcie rfl) hout rfl
  | estimatorUpdate =>
    exact execEstimatorUpdate_ansAt hclock (off .free rfl) hregs (off .encs rfl) (off .pds rfl) (off .msgs rfl)
      (off .hops rfl) (off .dies rfl) (off .pcie rfl) hout rfl
  | remoteEstimateReceive =>
    exact execRemoteEstimateReceive_ansAt hregs (off .encs rfl) (off .pds rfl) (off .msgs rfl) (off .hops rfl)
      (off .pcie rfl) hout rfl
  | remoteSourceLost =>
    exact execRemoteSourceLost_ansAt hclock hregs (off .encs rfl) (off .msgs rfl) (off .hops rfl) (off .dies rfl)
      (off .pcie rfl) hout rfl
  | product =>
    exact execProduct_ansAt hclock (off .free rfl) hregs (off .chutes rfl) (off .encs rfl) (off .pds rfl)
      (off .msgs rfl) (off .trigs rfl) (off .dies rfl) (off .pcie rfl) hout rfl
  | pdLockoutEnd => exact execPdLockoutEnd_ansAt hclock hregs (off .pds rfl) (off .dies rfl) (off .pcie rfl) hout rfl
  | estimateArrival =>
    exact execEstimateArrival_ansAt hclock hregs (off .ctxs rfl) (off .ports rfl) (off .encs rfl) (off .msgs rfl)
      (off .dies rfl) (off .pcie rfl) hout rfl
  | positionStep =>
    exact execPositionStep_ansAt hclock hregs (off .ecc rfl) (off .chutes rfl) (off .ctxs rfl) (off .ports rfl)
      (off .encs rfl) (off .seamQ rfl) (off .echos rfl) (off .mems rfl) (off .msgs rfl) (off .trigs rfl)
      (off .dies rfl) (off .pcie rfl) hout rfl
  | sourceLost =>
    exact execSourceLost_ansAt hclock hregs (off .ecc rfl) (off .chutes rfl) (off .ctxs rfl) (off .ports rfl)
      (off .encs rfl) (off .seamQ rfl) (off .echos rfl) (off .mems rfl) (off .msgs rfl) (off .trigs rfl)
      (off .dies rfl) (off .pcie rfl) hout rfl
  | pdEdgeArrival =>
    exact execPdEdgeArrival_ansAt hclock hregs (off .ecc rfl) (off .chutes rfl) (off .ctxs rfl) (off .ports rfl)
      (off .seamQ rfl) (off .echos rfl) (off .mems rfl) (off .msgs rfl) (off .trigs rfl) (off .dies rfl)
      (off .pcie rfl) hout rfl
  | ctxArm =>
    exact execCtxArm_ansAt hregs (off .ecc rfl) (off .chutes rfl) (off .ctxs rfl) (off .ports rfl) (off .seamQ rfl)
      (off .echos rfl) (off .mems rfl) (off .trigs rfl) (off .dies rfl) (off .pcie rfl) (off .resp rfl) hout rfl
  | ctxDisarm =>
    exact execCtxDisarm_ansAt hregs (off .ecc rfl) (off .chutes rfl) (off .ctxs rfl) (off .ports rfl) (off .seamQ rfl)
      (off .echos rfl) (off .mems rfl) (off .trigs rfl) (off .dies rfl) (off .pcie rfl) (off .resp rfl) hout rfl
  | ctxStart =>
    exact execCtxStart_ansAt hregs (off .ecc rfl) (off .chutes rfl) (off .ctxs rfl) (off .ports rfl) (off .seamQ rfl)
      (off .echos rfl) (off .mems rfl) (off .trigs rfl) (off .dies rfl) (off .pcie rfl) (off .resp rfl) hout rfl
  | ctxPause =>
    exact execCtxPause_ansAt hregs (off .ecc rfl) (off .chutes rfl) (off .ctxs rfl) (off .ports rfl) (off .seamQ rfl)
      (off .echos rfl) (off .mems rfl) (off .trigs rfl) (off .dies rfl) (off .pcie rfl) (off .resp rfl) hout rfl
  | ctxResume =>
    exact execCtxResume_ansAt (off .free rfl) hregs (off .mem rfl) (off .ecc rfl) (off .chutes rfl) (off .ctxs rfl)
      (off .ports rfl) (off .seamQ rfl) (off .echos rfl) (off .mems rfl) (off .trigs rfl) (off .dies rfl)
      (off .pcie rfl) (off .resp rfl) hout rfl
  | ctxDrain =>
    exact execCtxDrain_ansAt hregs (off .ecc rfl) (off .chutes rfl) (off .ctxs rfl) (off .ports rfl) (off .seamQ rfl)
      (off .echos rfl) (off .mems rfl) (off .trigs rfl) (off .dies rfl) (off .pcie rfl) (off .resp rfl) hout rfl
  | ctxAbort =>
    exact execCtxAbort_ansAt hregs (off .ecc rfl) (off .chutes rfl) (off .ctxs rfl) (off .ports rfl) (off .seamQ rfl)
      (off .echos rfl) (off .mems rfl) (off .trigs rfl) (off .dies rfl) (off .pcie rfl) (off .resp rfl) hout rfl
  | ctxFlush =>
    exact execCtxFlush_ansAt hregs (off .ecc rfl) (off .chutes rfl) (off .ctxs rfl) (off .ports rfl) (off .seamQ rfl)
      (off .echos rfl) (off .mems rfl) (off .trigs rfl) (off .dies rfl) (off .pcie rfl) (off .resp rfl) hout rfl
  | chuteFlushScan => exact execChuteFlushScan_ansAt hregs (off .chutes rfl) (off .trigs rfl) (off .pcie rfl) hout rfl
  | ctxFence =>
    exact execCtxFence_ansAt hregs (off .chutes rfl) (off .ctxs rfl) (off .ports rfl) (off .seamQ rfl)
      (off .echos rfl) (off .trigs rfl) (off .dies rfl) (off .pcie rfl) (off .resp rfl) hout rfl
  | ctxRelease =>
    exact execCtxRelease_ansAt hregs (off .ecc rfl) (off .chutes rfl) (off .ctxs rfl) (off .ports rfl)
      (off .seamQ rfl) (off .echos rfl) (off .mems rfl) (off .trigs rfl) (off .dies rfl) (off .pcie rfl)
      (off .resp rfl) hout rfl
  | followerRejoin =>
    exact execFollowerRejoin_ansAt hclock (off .free rfl) hregs (off .mem rfl) (off .ecc rfl) (off .chutes rfl)
      (off .ctxs rfl) (off .ports rfl) (off .seamQ rfl) (off .echos rfl) (off .mems rfl) (off .trigs rfl)
      (off .dies rfl) (off .pcie rfl) hout rfl
  | descriptorWrite =>
    exact execDescriptorWrite_ansAt hregs (off .mem rfl) (off .ecc rfl) (off .chutes rfl) (off .mems rfl)
      (off .trigs rfl) (off .dies rfl) (off .pcie rfl) (off .resp rfl) hout rfl
  | ctxCommitGo =>
    exact execCtxCommitGo_ansAt hregs (off .gos rfl) (off .dies rfl) (off .pcie rfl) (off .resp rfl) hout rfl
  | ctxHandOver =>
    exact execCtxHandOver_ansAt hclock hregs (off .ecc rfl) (off .chutes rfl) (off .ctxs rfl) (off .ports rfl)
      (off .seamQ rfl) (off .echos rfl) (off .mems rfl) (off .trigs rfl) (off .dies rfl) (off .pcie rfl) hout rfl
  | lineBind =>
    exact execLineBind_ansAt hclock (off .free rfl) hregs (off .mem rfl) (off .ecc rfl) (off .chutes rfl)
      (off .ctxs rfl) (off .ports rfl) (off .seamQ rfl) (off .echos rfl) (off .mems rfl) (off .trigs rfl)
      (off .assays rfl) (off .dies rfl) (off .pcie rfl) hout rfl
  | lineFreeze =>
    exact execLineFreeze_ansAt hclock hregs (off .ctxs rfl) (off .ports rfl) (off .dies rfl) (off .pcie rfl) hout rfl
  | cycleFire =>
    exact execCycleFire_ansAt hclock (off .free rfl) hregs (off .ecc rfl) (off .chutes rfl) (off .ctxs rfl)
      (off .ports rfl) (off .seamQ rfl) (off .echos rfl) (off .mems rfl) (off .trigs rfl) (off .therms rfl)
      (off .dies rfl) (off .pcie rfl) hout rfl
  | drainComplete =>
    exact execDrainComplete_ansAt hregs (off .ecc rfl) (off .chutes rfl) (off .ctxs rfl) (off .ports rfl)
      (off .seamQ rfl) (off .echos rfl) (off .mems rfl) (off .trigs rfl) (off .dies rfl) (off .pcie rfl) hout rfl
  | stall =>
    exact execStall_ansAt hclock hregs (off .ecc rfl) (off .chutes rfl) (off .ctxs rfl) (off .ports rfl)
      (off .seamQ rfl) (off .echos rfl) (off .mems rfl) (off .trigs rfl) (off .dies rfl) (off .pcie rfl) hout rfl
  | blockAccept =>
    exact execBlockAccept_ansAt (off .free rfl) hregs (off .mem rfl) (off .ecc rfl) (off .chutes rfl) (off .ctxs rfl)
      (off .ports rfl) (off .seamQ rfl) (off .echos rfl) (off .mems rfl) (off .trigs rfl) (off .dies rfl)
      (off .pcie rfl) hout rfl
  | lineBuild =>
    exact execLineBuild_ansAt (off .free rfl) hregs (off .mem rfl) (off .ecc rfl) (off .chutes rfl) (off .ctxs rfl)
      (off .ports rfl) (off .seamQ rfl) (off .echos rfl) (off .mems rfl) (off .trigs rfl) (off .dies rfl)
      (off .pcie rfl) hout rfl
  | seamShareReceive =>
    exact execSeamShareReceive_ansAt hregs (off .mem rfl) (off .ecc rfl) (off .ctxs rfl) (off .seamQ rfl)
      (off .pcie rfl) hout rfl
  | seamCreditReturn =>
    exact execSeamCreditReturn_ansAt (off .free rfl) hregs (off .mem rfl) (off .ecc rfl) (off .chutes rfl)
      (off .ctxs rfl) (off .ports rfl) (off .seamQ rfl) (off .echos rfl) (off .mems rfl) (off .trigs rfl)
      (off .dies rfl) (off .pcie rfl) hout rfl
  | wfLoadStart =>
    exact execWfLoadStart_ansAt hregs (off .ports rfl) (off .dies rfl) (off .pcie rfl) (off .resp rfl) hout rfl
  | wfLoadCopy =>
    exact execWfLoadCopy_ansAt hclock hregs (off .ecc rfl) (off .chutes rfl) (off .ports rfl) (off .mems rfl)
      (off .trigs rfl) (off .dies rfl) (off .pcie rfl) hout rfl
  | wfLoadHead => exact execWfLoadHead_ansAt hregs (off .ports rfl) (off .pcie rfl) hout rfl
  | loadDone => exact execLoadDone_ansAt hregs (off .ports rfl) (off .pcie rfl) hout rfl
  | heaterUpdate =>
    exact execHeaterUpdate_ansAt hclock hregs (off .ports rfl) (off .dies rfl) (off .pcie rfl) hout rfl
  | nozzleMapLoadDone =>
    exact execNozzleMapLoadDone_ansAt hregs (off .ecc rfl) (off .chutes rfl) (off .ctxs rfl) (off .ports rfl)
      (off .seamQ rfl) (off .echos rfl) (off .mems rfl) (off .trigs rfl) (off .dies rfl) (off .pcie rfl) hout rfl
  | echoResult =>
    exact execEchoResult_ansAt (off .free rfl) hregs (off .mem rfl) (off .ecc rfl) (off .chutes rfl) (off .ctxs rfl)
      (off .echos rfl) (off .mems rfl) (off .trigs rfl) (off .dies rfl) (off .pcie rfl) hout rfl
  | sweepStart =>
    exact execSweepStart_ansAt hregs (off .echos rfl) (off .dies rfl) (off .pcie rfl) (off .resp rfl) hout rfl
  | sweepAbort => exact execSweepAbort_ansAt hregs (off .dies rfl) (off .pcie rfl) (off .resp rfl) hout rfl
  | setState =>
    exact execSetState_ansAt hregs (off .mem rfl) (off .ecc rfl) (off .chutes rfl) (off .ctxs rfl) (off .mems rfl)
      (off .trigs rfl) (off .dies rfl) (off .pcie rfl) (off .resp rfl) hout rfl
  | setTrim =>
    exact execSetTrim_ansAt hregs (off .mem rfl) (off .ecc rfl) (off .chutes rfl) (off .ctxs rfl) (off .mems rfl)
      (off .trigs rfl) (off .dies rfl) (off .pcie rfl) (off .resp rfl) hout rfl
  | clearHist =>
    exact execClearHist_ansAt hregs (off .mem rfl) (off .ecc rfl) (off .chutes rfl) (off .ctxs rfl) (off .mems rfl)
      (off .trigs rfl) (off .dies rfl) (off .pcie rfl) (off .resp rfl) hout rfl
  | refInvalid =>
    exact execRefInvalid_ansAt hregs (off .mem rfl) (off .ecc rfl) (off .chutes rfl) (off .ctxs rfl) (off .mems rfl)
      (off .trigs rfl) (off .dies rfl) (off .pcie rfl) (off .resp rfl) hout rfl
  | refValid =>
    exact execRefValid_ansAt hregs (off .mem rfl) (off .ecc rfl) (off .chutes rfl) (off .ctxs rfl) (off .mems rfl)
      (off .trigs rfl) (off .dies rfl) (off .pcie rfl) (off .resp rfl) hout rfl
  | lockTrim =>
    exact execLockTrim_ansAt hregs (off .mem rfl) (off .ecc rfl) (off .chutes rfl) (off .ctxs rfl) (off .mems rfl)
      (off .trigs rfl) (off .dies rfl) (off .pcie rfl) (off .resp rfl) hout rfl
  | linkDiscovery => exact execLinkDiscovery_ansAt hregs (off .ports rfl) (off .mboxes rfl) (off .pcie rfl) hout rfl
  | discoveryRepeat =>
    exact execDiscoveryRepeat_ansAt hclock hregs (off .ports rfl) (off .mboxes rfl) (off .dies rfl) (off .pcie rfl)
      hout rfl
  | linkUp => exact execLinkUp_ansAt hregs (off .ports rfl) (off .mboxes rfl) (off .pcie rfl) hout rfl
  | trainAttemptTimeout =>
    exact execTrainAttemptTimeout_ansAt hclock (off .free rfl) hregs hshad (off .hold rfl) (off .fences rfl)
      (off .ecc rfl) (off .chutes rfl) (off .ctxs rfl) (off .ports rfl) (off .encs rfl) (off .pds rfl)
      (off .seamQ rfl) (off .echos rfl) (off .mems rfl) (off .msgs rfl) (off .axes rfl) (off .hoists rfl)
      (off .trigs rfl) (off .cqWait rfl) (off .cqSeq rfl) (off .assays rfl) (off .therms rfl) (off .lamps rfl)
      (off .mboxes rfl) (off .fws rfl) (off .tsync rfl) (off .hops rfl) (off .dies rfl) (off .pkg rfl) (off .pcie rfl)
      hout rfl
  | frameSend =>
    exact execFrameSend_ansAt hclock hregs (off .ecc rfl) (off .chutes rfl) (off .ctxs rfl) (off .ports rfl)
      (off .seamQ rfl) (off .echos rfl) (off .mems rfl) (off .trigs rfl) (off .mboxes rfl) (off .dies rfl)
      (off .pcie rfl) hout rfl
  | ackReceive =>
    exact execAckReceive_ansAt hclock hregs (off .ecc rfl) (off .chutes rfl) (off .ctxs rfl) (off .ports rfl)
      (off .seamQ rfl) (off .echos rfl) (off .mems rfl) (off .trigs rfl) (off .therms rfl) (off .dies rfl)
      (off .pcie rfl) hout rfl
  | ackTimeout =>
    exact execAckTimeout_ansAt hclock hregs (off .ecc rfl) (off .chutes rfl) (off .ctxs rfl) (off .ports rfl)
      (off .seamQ rfl) (off .echos rfl) (off .mems rfl) (off .trigs rfl) (off .mboxes rfl) (off .dies rfl)
      (off .pcie rfl) hout rfl
  | statusReceive =>
    exact execStatusReceive_ansAt hclock hregs (off .ecc rfl) (off .chutes rfl) (off .ctxs rfl) (off .ports rfl)
      (off .seamQ rfl) (off .echos rfl) (off .mems rfl) (off .trigs rfl) (off .therms rfl) (off .dies rfl)
      (off .pcie rfl) hout rfl
  | statusStale => exact execStatusStale_ansAt hclock hregs (off .dies rfl) (off .pcie rfl) hout rfl
  | currentLoopTick =>
    exact execCurrentLoopTick_ansAt hclock (off .free rfl) hregs hshad (off .hold rfl) (off .fences rfl)
      (off .ecc rfl) (off .chutes rfl) (off .ctxs rfl) (off .ports rfl) (off .encs rfl) (off .pds rfl)
      (off .seamQ rfl) (off .echos rfl) (off .mems rfl) (off .msgs rfl) (off .axes rfl) (off .hoists rfl)
      (off .trigs rfl) (off .cqWait rfl) (off .cqSeq rfl) (off .assays rfl) (off .therms rfl) (off .lamps rfl)
      (off .mboxes rfl) (off .fws rfl) (off .tsync rfl) (off .hops rfl) (off .dies rfl) (off .pkg rfl) (off .pcie rfl)
      hout rfl
  | bridgeFault =>
    exact execBridgeFault_ansAt (off .free rfl) hregs hshad (off .hold rfl) (off .fences rfl) (off .ecc rfl)
      (off .chutes rfl) (off .ctxs rfl) (off .ports rfl) (off .encs rfl) (off .pds rfl) (off .seamQ rfl)
      (off .echos rfl) (off .mems rfl) (off .msgs rfl) (off .axes rfl) (off .hoists rfl) (off .trigs rfl)
      (off .cqWait rfl) (off .cqSeq rfl) (off .assays rfl) (off .therms rfl) (off .lamps rfl) (off .mboxes rfl)
      (off .fws rfl) (off .tsync rfl) (off .hops rfl) (off .dies rfl) (off .pkg rfl) (off .pcie rfl) hout rfl
  | stepInput => exact execStepInput_ansAt hregs (off .axes rfl) (off .pcie rfl) hout rfl
  | profileTick =>
    exact execProfileTick_ansAt hclock (off .free rfl) hregs hshad (off .hold rfl) (off .fences rfl) (off .ecc rfl)
      (off .chutes rfl) (off .ctxs rfl) (off .ports rfl) (off .encs rfl) (off .pds rfl) (off .seamQ rfl)
      (off .echos rfl) (off .mems rfl) (off .msgs rfl) (off .axes rfl) (off .hoists rfl) (off .trigs rfl)
      (off .cqWait rfl) (off .cqSeq rfl) (off .assays rfl) (off .therms rfl) (off .lamps rfl) (off .mboxes rfl)
      (off .fws rfl) (off .tsync rfl) (off .hops rfl) (off .dies rfl) (off .pkg rfl) (off .pcie rfl) hout rfl
  | axEnableDone => exact execAxEnableDone_ansAt hclock hregs (off .axes rfl) (off .dies rfl) (off .pcie rfl) hout rfl
  | axMove => exact execAxMove_ansAt hregs (off .axes rfl) (off .dies rfl) (off .pcie rfl) (off .resp rfl) hout rfl
  | axStop => exact execAxStop_ansAt hregs (off .axes rfl) (off .dies rfl) (off .pcie rfl) (off .resp rfl) hout rfl
  | axResume =>
    exact execAxResume_ansAt hregs (off .axes rfl) (off .dies rfl) (off .pcie rfl) (off .resp rfl) hout rfl
  | axHome => exact execAxHome_ansAt hregs (off .axes rfl) (off .dies rfl) (off .pcie rfl) (off .resp rfl) hout rfl
  | axLoad => exact execAxLoad_ansAt hregs (off .axes rfl) (off .dies rfl) (off .pcie rfl) (off .resp rfl) hout rfl
  | axClear => exact execAxClear_ansAt hregs (off .axes rfl) (off .dies rfl) (off .pcie rfl) (off .resp rfl) hout rfl
  | axCut => exact execAxCut_ansAt hregs (off .axes rfl) (off .dies rfl) (off .pcie rfl) (off .resp rfl) hout rfl
  | switchInputEdge =>
    exact execSwitchInputEdge_ansAt (off .free rfl) hregs hshad (off .hold rfl) (off .fences rfl) (off .ecc rfl)
      (off .chutes rfl) (off .ctxs rfl) (off .ports rfl) (off .encs rfl) (off .pds rfl) (off .seamQ rfl)
      (off .echos rfl) (off .mems rfl) (off .msgs rfl) (off .axes rfl) (off .hoists rfl) (off .trigs rfl)
      (off .cqWait rfl) (off .cqSeq rfl) (off .assays rfl) (off .therms rfl) (off .lamps rfl) (off .mboxes rfl)
      (off .fws rfl) (off .tsync rfl) (off .hops rfl) (off .dies rfl) (off .pkg rfl) (off .pcie rfl) hout rfl
  | swEdge =>
    exact execSwEdge_ansAt hclock (off .free rfl) hregs hshad (off .hold rfl) (off .fences rfl) (off .ecc rfl)
      (off .chutes rfl) (off .ctxs rfl) (off .ports rfl) (off .encs rfl) (off .pds rfl) (off .seamQ rfl)
      (off .echos rfl) (off .mems rfl) (off .msgs rfl) (off .axes rfl) (off .hoists rfl) (off .trigs rfl)
      (off .cqWait rfl) (off .cqSeq rfl) (off .assays rfl) (off .therms rfl) (off .lamps rfl) (off .mboxes rfl)
      (off .fws rfl) (off .tsync rfl) (off .hops rfl) (off .dies rfl) (off .pkg rfl) (off .pcie rfl) hout rfl
  | hcStart =>
    exact execHcStart_ansAt hregs (off .chutes rfl) (off .hoists rfl) (off .trigs rfl) (off .cqWait rfl)
      (off .dies rfl) (off .pcie rfl) (off .resp rfl) hout rfl
  | hcCancel =>
    exact execHcCancel_ansAt hregs (off .chutes rfl) (off .hoists rfl) (off .trigs rfl) (off .cqWait rfl)
      (off .dies rfl) (off .pcie rfl) (off .resp rfl) hout rfl
  | hcHold =>
    exact execHcHold_ansAt hregs (off .chutes rfl) (off .hoists rfl) (off .trigs rfl) (off .cqWait rfl)
      (off .dies rfl) (off .pcie rfl) (off .resp rfl) hout rfl
  | hcResume =>
    exact execHcResume_ansAt hregs (off .chutes rfl) (off .hoists rfl) (off .trigs rfl) (off .cqWait rfl)
      (off .dies rfl) (off .pcie rfl) (off .resp rfl) hout rfl
  | hcAbort =>
    exact execHcAbort_ansAt hregs (off .chutes rfl) (off .hoists rfl) (off .trigs rfl) (off .cqWait rfl)
      (off .dies rfl) (off .pcie rfl) (off .resp rfl) hout rfl
  | hoistTrigger => exact execHoistTrigger_ansAt hregs (off .trigs rfl) (off .pcie rfl) hout rfl
  | runStart => exact execRunStart_ansAt hregs (off .hoists rfl) (off .pcie rfl) hout rfl
  | hoistMove =>
    exact execHoistMove_ansAt (off .free rfl) hregs hshad (off .hold rfl) (off .fences rfl) (off .ecc rfl)
      (off .chutes rfl) (off .ctxs rfl) (off .ports rfl) (off .encs rfl) (off .pds rfl) (off .seamQ rfl)
      (off .echos rfl) (off .mems rfl) (off .msgs rfl) (off .axes rfl) (off .hoists rfl) (off .trigs rfl)
      (off .cqWait rfl) (off .cqSeq rfl) (off .assays rfl) (off .therms rfl) (off .lamps rfl) (off .mboxes rfl)
      (off .fws rfl) (off .tsync rfl) (off .hops rfl) (off .dies rfl) (off .pkg rfl) (off .pcie rfl) hout rfl
  | hoistLoop =>
    exact execHoistLoop_ansAt (off .free rfl) hregs hshad (off .hold rfl) (off .fences rfl) (off .ecc rfl)
      (off .chutes rfl) (off .ctxs rfl) (off .ports rfl) (off .encs rfl) (off .pds rfl) (off .seamQ rfl)
      (off .echos rfl) (off .mems rfl) (off .msgs rfl) (off .axes rfl) (off .hoists rfl) (off .trigs rfl)
      (off .cqWait rfl) (off .cqSeq rfl) (off .assays rfl) (off .therms rfl) (off .lamps rfl) (off .mboxes rfl)
      (off .fws rfl) (off .tsync rfl) (off .hops rfl) (off .dies rfl) (off .pkg rfl) (off .pcie rfl) hout rfl
  | hoistWait =>
    exact execHoistWait_ansAt (off .free rfl) hregs hshad (off .hold rfl) (off .fences rfl) (off .ecc rfl)
      (off .chutes rfl) (off .ctxs rfl) (off .ports rfl) (off .encs rfl) (off .pds rfl) (off .seamQ rfl)
      (off .echos rfl) (off .mems rfl) (off .msgs rfl) (off .axes rfl) (off .hoists rfl) (off .trigs rfl)
      (off .cqWait rfl) (off .cqSeq rfl) (off .assays rfl) (off .therms rfl) (off .lamps rfl) (off .mboxes rfl)
      (off .fws rfl) (off .tsync rfl) (off .hops rfl) (off .dies rfl) (off .pkg rfl) (off .pcie rfl) hout rfl
  | waitSatisfied =>
    exact execWaitSatisfied_ansAt hclock hregs (off .hoists rfl) (off .dies rfl) (off .pcie rfl) hout rfl
  | waitTimeout =>
    exact execWaitTimeout_ansAt hclock (off .free rfl) hregs hshad (off .hold rfl) (off .fences rfl) (off .ecc rfl)
      (off .chutes rfl) (off .ctxs rfl) (off .ports rfl) (off .encs rfl) (off .pds rfl) (off .seamQ rfl)
      (off .echos rfl) (off .mems rfl) (off .msgs rfl) (off .axes rfl) (off .hoists rfl) (off .trigs rfl)
      (off .cqWait rfl) (off .cqSeq rfl) (off .assays rfl) (off .therms rfl) (off .lamps rfl) (off .mboxes rfl)
      (off .fws rfl) (off .tsync rfl) (off .hops rfl) (off .dies rfl) (off .pkg rfl) (off .pcie rfl) hout rfl
  | hoistSignal =>
    exact execHoistSignal_ansAt (off .free rfl) hregs hshad (off .hold rfl) (off .fences rfl) (off .ecc rfl)
      (off .chutes rfl) (off .ctxs rfl) (off .ports rfl) (off .encs rfl) (off .pds rfl) (off .seamQ rfl)
      (off .echos rfl) (off .mems rfl) (off .msgs rfl) (off .axes rfl) (off .hoists rfl) (off .trigs rfl)
      (off .cqWait rfl) (off .cqSeq rfl) (off .assays rfl) (off .therms rfl) (off .lamps rfl) (off .mboxes rfl)
      (off .fws rfl) (off .tsync rfl) (off .hops rfl) (off .dies rfl) (off .pkg rfl) (off .pcie rfl) hout rfl
  | hoistSeta =>
    exact execHoistSeta_ansAt (off .free rfl) hregs hshad (off .hold rfl) (off .fences rfl) (off .ecc rfl)
      (off .chutes rfl) (off .ctxs rfl) (off .ports rfl) (off .encs rfl) (off .pds rfl) (off .seamQ rfl)
      (off .echos rfl) (off .mems rfl) (off .msgs rfl) (off .axes rfl) (off .hoists rfl) (off .trigs rfl)
      (off .cqWait rfl) (off .cqSeq rfl) (off .assays rfl) (off .therms rfl) (off .lamps rfl) (off .mboxes rfl)
      (off .fws rfl) (off .tsync rfl) (off .hops rfl) (off .dies rfl) (off .pkg rfl) (off .pcie rfl) hout rfl
  | hoistAdda =>
    exact execHoistAdda_ansAt (off .free rfl) hregs hshad (off .hold rfl) (off .fences rfl) (off .ecc rfl)
      (off .chutes rfl) (off .ctxs rfl) (off .ports rfl) (off .encs rfl) (off .pds rfl) (off .seamQ rfl)
      (off .echos rfl) (off .mems rfl) (off .msgs rfl) (off .axes rfl) (off .hoists rfl) (off .trigs rfl)
      (off .cqWait rfl) (off .cqSeq rfl) (off .assays rfl) (off .therms rfl) (off .lamps rfl) (off .mboxes rfl)
      (off .fws rfl) (off .tsync rfl) (off .hops rfl) (off .dies rfl) (off .pkg rfl) (off .pcie rfl) hout rfl
  | hoistNop =>
    exact execHoistNop_ansAt (off .free rfl) hregs hshad (off .hold rfl) (off .fences rfl) (off .ecc rfl)
      (off .chutes rfl) (off .ctxs rfl) (off .ports rfl) (off .encs rfl) (off .pds rfl) (off .seamQ rfl)
      (off .echos rfl) (off .mems rfl) (off .msgs rfl) (off .axes rfl) (off .hoists rfl) (off .trigs rfl)
      (off .cqWait rfl) (off .cqSeq rfl) (off .assays rfl) (off .therms rfl) (off .lamps rfl) (off .mboxes rfl)
      (off .fws rfl) (off .tsync rfl) (off .hops rfl) (off .dies rfl) (off .pkg rfl) (off .pcie rfl) hout rfl
  | hoistEnd =>
    exact execHoistEnd_ansAt (off .free rfl) hregs hshad (off .hold rfl) (off .fences rfl) (off .ecc rfl)
      (off .chutes rfl) (off .ctxs rfl) (off .ports rfl) (off .encs rfl) (off .pds rfl) (off .seamQ rfl)
      (off .echos rfl) (off .mems rfl) (off .msgs rfl) (off .axes rfl) (off .hoists rfl) (off .trigs rfl)
      (off .cqWait rfl) (off .cqSeq rfl) (off .assays rfl) (off .therms rfl) (off .lamps rfl) (off .mboxes rfl)
      (off .fws rfl) (off .tsync rfl) (off .hops rfl) (off .dies rfl) (off .pkg rfl) (off .pcie rfl) hout rfl
  | burstStart =>
    exact execBurstStart_ansAt hclock hregs (off .chutes rfl) (off .hoists rfl) (off .served rfl) (off .trigs rfl)
      (off .dies rfl) (off .pcie rfl) hout rfl
  | burstWritten =>
    exact execBurstWritten_ansAt hclock (off .free rfl) hregs hshad (off .gos rfl) (off .hold rfl) (off .ticks rfl)
      (off .caps rfl) (off .fences rfl) (off .mem rfl) (off .ecc rfl) (off .ret rfl) (off .retEcc rfl)
      (off .chutes rfl) (off .ctxs rfl) (off .ports rfl) (off .encs rfl) (off .pds rfl) (off .seamQ rfl)
      (off .echos rfl) (off .mems rfl) (off .msgs rfl) (off .axes rfl) (off .hoists rfl) (off .trigs rfl)
      (off .cqWait rfl) (off .cqSeq rfl) (off .assays rfl) (off .therms rfl) (off .lamps rfl) (off .mboxes rfl)
      (off .fws rfl) (off .tsync rfl) (off .hops rfl) (off .dies rfl) (off .pkg rfl) (off .pcie rfl) (off .resp rfl)
      hout rfl
  | hoistWatchdog =>
    exact execHoistWatchdog_ansAt hclock (off .free rfl) hregs hshad (off .hold rfl) (off .fences rfl) (off .ecc rfl)
      (off .chutes rfl) (off .ctxs rfl) (off .ports rfl) (off .encs rfl) (off .pds rfl) (off .seamQ rfl)
      (off .echos rfl) (off .mems rfl) (off .msgs rfl) (off .axes rfl) (off .hoists rfl) (off .trigs rfl)
      (off .cqWait rfl) (off .cqSeq rfl) (off .assays rfl) (off .therms rfl) (off .lamps rfl) (off .mboxes rfl)
      (off .fws rfl) (off .tsync rfl) (off .hops rfl) (off .dies rfl) (off .pkg rfl) (off .pcie rfl) hout rfl
  | globalTimerFire =>
    exact execGlobalTimerFire_ansAt hclock hregs (off .hoists rfl) (off .trigs rfl) (off .tmrs rfl) (off .dies rfl)
      (off .pcie rfl) hout rfl
  | cqRecordWrite =>
    exact execCqRecordWrite_ansAt hregs (off .hoists rfl) (off .trigs rfl) (off .cqWait rfl) (off .cqSeq rfl)
      (off .pcie rfl) hout rfl
  | cqSizeWrite =>
    exact execCqSizeWrite_ansAt hregs hshad (off .hold rfl) (off .ticks rfl) (off .dies rfl) (off .pcie rfl)
      (off .resp rfl) hout rfl
  | cqConsWrite =>
    exact execCqConsWrite_ansAt hregs hshad (off .hold rfl) (off .ticks rfl) (off .dies rfl) (off .pcie rfl)
      (off .resp rfl) hout rfl
  | chutePush =>
    exact execChutePush_ansAt hregs (off .chutes rfl) (off .trigs rfl) (off .dies rfl) (off .pcie rfl) (off .resp rfl)
      hout rfl
  | chutePop =>
    exact execChutePop_ansAt (off .free rfl) hregs (off .caps rfl) (off .ecc rfl) (off .chutes rfl) (off .mems rfl)
      (off .trigs rfl) (off .dies rfl) (off .pcie rfl) (off .resp rfl) hout rfl
  | memWindowWrite =>
    exact execMemWindowWrite_ansAt hregs (off .mem rfl) (off .ecc rfl) (off .chutes rfl) (off .mems rfl)
      (off .trigs rfl) (off .dies rfl) (off .pcie rfl) (off .resp rfl) hout rfl
  | memWindowRead =>
    exact execMemWindowRead_ansAt hregs (off .ecc rfl) (off .chutes rfl) (off .mems rfl) (off .trigs rfl)
      (off .dies rfl) (off .pcie rfl) (off .resp rfl) hout rfl
  | memtestRegionStart =>
    exact execMemtestRegionStart_ansAt hclock hregs (off .mems rfl) (off .dies rfl) (off .pcie rfl) hout rfl
  | memtestPhaseDone =>
    exact execMemtestPhaseDone_ansAt hregs (off .ecc rfl) (off .chutes rfl) (off .mems rfl) (off .trigs rfl)
      (off .dies rfl) (off .pcie rfl) hout rfl
  | repairMapSave =>
    exact execRepairMapSave_ansAt (off .free rfl) hregs (off .ret rfl) (off .retEcc rfl) (off .mems rfl) rfl
  | retDataWrite =>
    exact execRetDataWrite_ansAt hregs (off .mems rfl) (off .dies rfl) (off .pcie rfl) (off .resp rfl) hout rfl
  | retDataRead =>
    exact execRetDataRead_ansAt hregs (off .caps rfl) (off .retEcc rfl) (off .dies rfl) (off .pcie rfl)
      (off .resp rfl) hout rfl
  | retWordWritten => exact execRetWordWritten_ansAt hregs (off .ret rfl) (off .retEcc rfl) (off .mems rfl) rfl
  | asRequest =>
    exact execAsRequest_ansAt hregs (off .assays rfl) (off .dies rfl) (off .pcie rfl) (off .resp rfl) hout rfl
  | asSave => exact execAsSave_ansAt hregs (off .assays rfl) (off .dies rfl) (off .pcie rfl) (off .resp rfl) hout rfl
  | asRestore =>
    exact execAsRestore_ansAt hregs (off .assays rfl) (off .dies rfl) (off .pcie rfl) (off .resp rfl) hout rfl
  | asCancel =>
    exact execAsCancel_ansAt hregs (off .assays rfl) (off .dies rfl) (off .pcie rfl) (off .resp rfl) hout rfl
  | saved => exact execSaved_ansAt hregs (off .ret rfl) (off .retEcc rfl) (off .pcie rfl) hout rfl
  | restored => exact execRestored_ansAt hregs (off .assays rfl) (off .pcie rfl) hout rfl
  | assayRunStart => exact execAssayRunStart_ansAt (off .assays rfl) rfl
  | assayTakeover =>
    exact execAssayTakeover_ansAt hclock hregs (off .assays rfl) (off .dies rfl) (off .pcie rfl) hout rfl
  | assayMeasureStart =>
    exact execAssayMeasureStart_ansAt hclock hregs (off .assays rfl) (off .dies rfl) (off .pcie rfl) hout rfl
  | assayMeasureEnd =>
    exact execAssayMeasureEnd_ansAt hclock hregs (off .assays rfl) (off .dies rfl) (off .pcie rfl) hout rfl
  | runDone => exact execRunDone_ansAt hregs (off .assays rfl) (off .pcie rfl) hout rfl
  | tabRead => exact execTabRead_ansAt hregs (off .dies rfl) (off .pcie rfl) (off .resp rfl) hout rfl
  | tabWrite =>
    exact execTabWrite_ansAt hregs (off .assays rfl) (off .dies rfl) (off .pcie rfl) (off .resp rfl) hout rfl
  | tabClear =>
    exact execTabClear_ansAt hregs (off .assays rfl) (off .dies rfl) (off .pcie rfl) (off .resp rfl) hout rfl
  | tempUpdate =>
    exact execTempUpdate_ansAt hclock hregs (off .chutes rfl) (off .ports rfl) (off .trigs rfl) (off .assays rfl)
      (off .therms rfl) (off .lamps rfl) (off .dies rfl) (off .pkg rfl) (off .pcie rfl) hout rfl
  | thermistorSample =>
    exact execThermistorSample_ansAt (off .free rfl) hregs (off .chutes rfl) (off .ports rfl) (off .trigs rfl)
      (off .therms rfl) (off .dies rfl) (off .pcie rfl) hout rfl
  | warnClear =>
    exact execWarnClear_ansAt hclock hregs (off .chutes rfl) (off .ctxs rfl) (off .ports rfl) (off .trigs rfl)
      (off .therms rfl) (off .mboxes rfl) (off .dies rfl) (off .pkg rfl) (off .pcie rfl) hout rfl
  | graceExpiry =>
    exact execGraceExpiry_ansAt hclock hregs (off .chutes rfl) (off .ctxs rfl) (off .ports rfl) (off .seamQ rfl)
      (off .echos rfl) (off .trigs rfl) (off .therms rfl) (off .mboxes rfl) (off .dies rfl) (off .pkg rfl)
      (off .pcie rfl) hout rfl
  | critical =>
    exact execCritical_ansAt (off .free rfl) hregs hshad (off .hold rfl) (off .fences rfl) (off .ecc rfl)
      (off .chutes rfl) (off .ctxs rfl) (off .ports rfl) (off .encs rfl) (off .pds rfl) (off .seamQ rfl)
      (off .echos rfl) (off .mems rfl) (off .msgs rfl) (off .axes rfl) (off .hoists rfl) (off .trigs rfl)
      (off .cqWait rfl) (off .cqSeq rfl) (off .assays rfl) (off .therms rfl) (off .lamps rfl) (off .mboxes rfl)
      (off .fws rfl) (off .tsync rfl) (off .hops rfl) (off .dies rfl) (off .pkg rfl) (off .pcie rfl) hout rfl
  | lampMeasure => exact execLampMeasure_ansAt (off .lamps rfl) rfl
  | lampMeasureCmd =>
    exact execLampMeasureCmd_ansAt hregs (off .lamps rfl) (off .dies rfl) (off .pcie rfl) (off .resp rfl) hout rfl
  | measured =>
    exact execMeasured_ansAt hclock (off .free rfl) hregs (off .chutes rfl) (off .trigs rfl) (off .assays rfl)
      (off .lamps rfl) (off .mboxes rfl) (off .dies rfl) (off .pcie rfl) hout rfl
  | calintExpiry => exact execCalintExpiry_ansAt (off .assays rfl) (off .lamps rfl) rfl
  | histWritten =>
    exact execHistWritten_ansAt (off .free rfl) hregs (off .ret rfl) (off .retEcc rfl) (off .lamps rfl)
      (off .pcie rfl) hout rfl
  | histClear =>
    exact execHistClear_ansAt hregs (off .ret rfl) (off .retEcc rfl) (off .dies rfl) (off .pcie rfl) (off .resp rfl)
      hout rfl
  | mailboxPost =>
    exact execMailboxPost_ansAt hregs (off .mboxes rfl) (off .dies rfl) (off .pcie rfl) (off .resp rfl) hout rfl
  | mailboxTake => exact execMailboxTake_ansAt hregs (off .mboxes rfl) (off .pcie rfl) hout rfl
  | inDone => exact execInDone_ansAt hregs (off .mboxes rfl) (off .fws rfl) (off .pcie rfl) hout rfl
  | getInfo => exact execGetInfo_ansAt (off .mboxes rfl) rfl
  | ping => exact execPing_ansAt (off .mboxes rfl) rfl
  | headDiscover =>
    exact execHeadDiscover_ansAt hregs (off .ports rfl) (off .mboxes rfl) (off .fws rfl) (off .pcie rfl) hout rfl
  | sbRead => exact execSbRead_ansAt (off .mboxes rfl) rfl
  | sbWrite => exact execSbWrite_ansAt (off .mboxes rfl) hout rfl
  | captureRef => exact execCaptureRef_ansAt hregs (off .echos rfl) (off .mboxes rfl) (off .fws rfl) rfl
  | assayRequest => exact execAssayRequest_ansAt hregs (off .assays rfl) (off .mboxes rfl) (off .fws rfl) rfl
  | abortLong =>
    exact execAbortLong_ansAt hregs (off .ports rfl) (off .mboxes rfl) (off .fws rfl) (off .pcie rfl) hout rfl
  | tallyClear =>
    exact execTallyClear_ansAt hregs (off .ret rfl) (off .retEcc rfl) (off .mboxes rfl) (off .pcie rfl) hout rfl
  | fwRestart => exact execFwRestart_ansAt hregs (off .mboxes rfl) (off .fws rfl) (off .pcie rfl) hout rfl
  | lifecycleAdvance =>
    exact execLifecycleAdvance_ansAt hregs (off .mboxes rfl) (off .dies rfl) (off .pkg rfl) (off .pcie rfl) hout rfl
  | longCmdTimeout =>
    exact execLongCmdTimeout_ansAt hclock hregs (off .ports rfl) (off .mboxes rfl) (off .fws rfl) (off .dies rfl)
      (off .pcie rfl) hout rfl
  | fwWatchdogRestart =>
    exact execFwWatchdogRestart_ansAt hregs (off .mboxes rfl) (off .fws rfl) (off .pcie rfl) hout rfl
  | fwStarted => exact execFwStarted_ansAt hregs (off .mboxes rfl) (off .pcie rfl) hout rfl
  | outFull => exact execOutFull_ansAt hregs (off .mboxes rfl) (off .pcie rfl) hout rfl
  | noticeAck =>
    exact execNoticeAck_ansAt hregs (off .mboxes rfl) (off .dies rfl) (off .pcie rfl) (off .resp rfl) hout rfl
  | inStuck =>
    exact execInStuck_ansAt hclock (off .free rfl) hregs (off .mboxes rfl) (off .dies rfl) (off .pcie rfl) hout rfl
  | outStuck => exact execOutStuck_ansAt hclock hregs (off .mboxes rfl) (off .dies rfl) (off .pcie rfl) hout rfl
  | flr =>
    exact execFlr_ansAt (off .free rfl) hregs hshad (off .hold rfl) (off .fences rfl) (off .ecc rfl) (off .chutes rfl)
      (off .ctxs rfl) (off .ports rfl) (off .encs rfl) (off .pds rfl) (off .seamQ rfl) (off .echos rfl)
      (off .mems rfl) (off .msgs rfl) (off .axes rfl) (off .hoists rfl) (off .trigs rfl) (off .cqWait rfl)
      (off .cqSeq rfl) (off .assays rfl) (off .therms rfl) (off .lamps rfl) (off .mboxes rfl) (off .fws rfl)
      (off .tsync rfl) (off .hops rfl) (off .dies rfl) (off .pkg rfl) (off .pcie rfl) hout rfl
  | conventionalReset =>
    exact execConventionalReset_ansAt (off .free rfl) hregs hshad (off .hold rfl) (off .fences rfl) (off .ecc rfl)
      (off .chutes rfl) (off .ctxs rfl) (off .ports rfl) (off .encs rfl) (off .pds rfl) (off .seamQ rfl)
      (off .echos rfl) (off .mems rfl) (off .msgs rfl) (off .axes rfl) (off .hoists rfl) (off .trigs rfl)
      (off .cqWait rfl) (off .cqSeq rfl) (off .assays rfl) (off .therms rfl) (off .lamps rfl) (off .mboxes rfl)
      (off .fws rfl) (off .tsync rfl) (off .hops rfl) (off .dies rfl) (off .pkg rfl) (off .pcie rfl) hout rfl
  | sessionStart =>
    exact execSessionStart_ansAt (off .free rfl) hregs (off .dies rfl) (off .pcie rfl) (off .resp rfl) hout rfl
  | sessionCheck =>
    exact execSessionCheck_ansAt (off .free rfl) hregs (off .dies rfl) (off .pcie rfl) (off .resp rfl) hout rfl
  | sessionClose =>
    exact execSessionClose_ansAt (off .free rfl) hregs (off .dies rfl) (off .pcie rfl) (off .resp rfl) hout rfl
  | sessionTimeout => exact execSessionTimeout_ansAt hclock hregs (off .dies rfl) (off .pcie rfl) hout rfl
  | backoffEnd => exact execBackoffEnd_ansAt hclock hregs (off .dies rfl) (off .pcie rfl) hout rfl
  | guardWrite =>
    exact execGuardWrite_ansAt hregs hshad (off .hold rfl) (off .ticks rfl) (off .dies rfl) (off .pcie rfl)
      (off .resp rfl) hout rfl
  | extest =>
    exact execExtest_ansAt (off .free rfl) hregs hshad (off .hold rfl) (off .fences rfl) (off .ecc rfl)
      (off .chutes rfl) (off .ctxs rfl) (off .ports rfl) (off .encs rfl) (off .pds rfl) (off .seamQ rfl)
      (off .echos rfl) (off .mems rfl) (off .msgs rfl) (off .axes rfl) (off .hoists rfl) (off .trigs rfl)
      (off .cqWait rfl) (off .cqSeq rfl) (off .assays rfl) (off .therms rfl) (off .lamps rfl) (off .mboxes rfl)
      (off .fws rfl) (off .tsync rfl) (off .hops rfl) (off .dies rfl) (off .pkg rfl) (off .pcie rfl) hout rfl
  | samplePreload => exact execSamplePreload_ansAt hregs (off .dies rfl) rfl
  | idcode => exact execIdcode_ansAt hregs (off .dies rfl) (off .resp rfl) rfl
  | clamp =>
    exact execClamp_ansAt (off .free rfl) hregs hshad (off .hold rfl) (off .fences rfl) (off .ecc rfl)
      (off .chutes rfl) (off .ctxs rfl) (off .ports rfl) (off .encs rfl) (off .pds rfl) (off .seamQ rfl)
      (off .echos rfl) (off .mems rfl) (off .msgs rfl) (off .axes rfl) (off .hoists rfl) (off .trigs rfl)
      (off .cqWait rfl) (off .cqSeq rfl) (off .assays rfl) (off .therms rfl) (off .lamps rfl) (off .mboxes rfl)
      (off .fws rfl) (off .tsync rfl) (off .hops rfl) (off .dies rfl) (off .pkg rfl) (off .pcie rfl) hout rfl
  | highz =>
    exact execHighz_ansAt (off .free rfl) hregs hshad (off .hold rfl) (off .fences rfl) (off .ecc rfl)
      (off .chutes rfl) (off .ctxs rfl) (off .ports rfl) (off .encs rfl) (off .pds rfl) (off .seamQ rfl)
      (off .echos rfl) (off .mems rfl) (off .msgs rfl) (off .axes rfl) (off .hoists rfl) (off .trigs rfl)
      (off .cqWait rfl) (off .cqSeq rfl) (off .assays rfl) (off .therms rfl) (off .lamps rfl) (off .mboxes rfl)
      (off .fws rfl) (off .tsync rfl) (off .hops rfl) (off .dies rfl) (off .pkg rfl) (off .pcie rfl) hout rfl
  | extestPulse =>
    exact execExtestPulse_ansAt (off .free rfl) hregs hshad (off .hold rfl) (off .fences rfl) (off .ecc rfl)
      (off .chutes rfl) (off .ctxs rfl) (off .ports rfl) (off .encs rfl) (off .pds rfl) (off .seamQ rfl)
      (off .echos rfl) (off .mems rfl) (off .msgs rfl) (off .axes rfl) (off .hoists rfl) (off .trigs rfl)
      (off .cqWait rfl) (off .cqSeq rfl) (off .assays rfl) (off .therms rfl) (off .lamps rfl) (off .mboxes rfl)
      (off .fws rfl) (off .tsync rfl) (off .hops rfl) (off .dies rfl) (off .pkg rfl) (off .pcie rfl) hout rfl
  | extestTrain =>
    exact execExtestTrain_ansAt (off .free rfl) hregs hshad (off .hold rfl) (off .fences rfl) (off .ecc rfl)
      (off .chutes rfl) (off .ctxs rfl) (off .ports rfl) (off .encs rfl) (off .pds rfl) (off .seamQ rfl)
      (off .echos rfl) (off .mems rfl) (off .msgs rfl) (off .axes rfl) (off .hoists rfl) (off .trigs rfl)
      (off .cqWait rfl) (off .cqSeq rfl) (off .assays rfl) (off .therms rfl) (off .lamps rfl) (off .mboxes rfl)
      (off .fws rfl) (off .tsync rfl) (off .hops rfl) (off .dies rfl) (off .pkg rfl) (off .pcie rfl) hout rfl
  | dbgStatus => exact execDbgStatus_ansAt hregs (off .dies rfl) (off .resp rfl) rfl
  | unlockChal => exact execUnlockChal_ansAt (off .free rfl) hregs (off .dies rfl) (off .resp rfl) rfl
  | unlockResp => exact execUnlockResp_ansAt hregs (off .dies rfl) (off .pkg rfl) (off .pcie rfl) hout rfl
  | dbgAccess =>
    exact execDbgAccess_ansAt hclock (off .free rfl) hregs hshad (off .gos rfl) (off .hold rfl) (off .ticks rfl)
      (off .caps rfl) (off .fences rfl) (off .mem rfl) (off .ecc rfl) (off .ret rfl) (off .retEcc rfl)
      (off .chutes rfl) (off .ctxs rfl) (off .ports rfl) (off .encs rfl) (off .pds rfl) (off .seamQ rfl)
      (off .echos rfl) (off .mems rfl) (off .msgs rfl) (off .axes rfl) (off .hoists rfl) (off .trigs rfl)
      (off .cqWait rfl) (off .cqSeq rfl) (off .assays rfl) (off .therms rfl) (off .lamps rfl) (off .mboxes rfl)
      (off .fws rfl) (off .tsync rfl) (off .hops rfl) (off .dies rfl) (off .pkg rfl) (off .pcie rfl) (off .resp rfl)
      hout rfl
  | dbgClose => exact execDbgClose_ansAt hregs (off .dies rfl) (off .pkg rfl) (off .pcie rfl) hout rfl
  | bypass => exact execBypass_ansAt hregs (off .dies rfl) rfl
  | dbgCtrlClose =>
    exact execDbgCtrlClose_ansAt hregs (off .dies rfl) (off .pkg rfl) (off .pcie rfl) (off .resp rfl) hout rfl
  | trstLow => exact execTrstLow_ansAt hregs (off .dies rfl) (off .pkg rfl) (off .pcie rfl) hout rfl
  | ijlAllowWrite =>
    exact execIjlAllowWrite_ansAt hregs hshad (off .hold rfl) (off .ticks rfl) (off .dies rfl) (off .pcie rfl)
      (off .resp rfl) hout rfl
  | dormantEntry =>
    exact execDormantEntry_ansAt hclock (off .free rfl) hregs (off .ecc rfl) (off .ret rfl) (off .retEcc rfl)
      (off .chutes rfl) (off .ctxs rfl) (off .ports rfl) (off .encs rfl) (off .seamQ rfl) (off .echos rfl)
      (off .mems rfl) (off .axes rfl) (off .trigs rfl) (off .assays rfl) (off .mboxes rfl) (off .tsync rfl)
      (off .dies rfl) (off .pkg rfl) (off .pcie rfl) hout rfl
  | vinOff =>
    exact execVinOff_ansAt hregs hshad (off .gos rfl) (off .hold rfl) (off .ticks rfl) (off .caps rfl)
      (off .fences rfl) (off .mem rfl) (off .ecc rfl) (off .chutes rfl) (off .ctxs rfl) (off .ports rfl)
      (off .encs rfl) (off .pds rfl) (off .seamQ rfl) (off .echos rfl) (off .mems rfl) (off .msgs rfl) (off .axes rfl)
      (off .hoists rfl) (off .served rfl) (off .trigs rfl) (off .tmrs rfl) (off .cqWait rfl) (off .cqSeq rfl)
      (off .assays rfl) (off .therms rfl) (off .lamps rfl) (off .mboxes rfl) (off .fws rfl) (off .tsync rfl)
      (off .burims rfl) (off .hops rfl) (off .dies rfl) (off .pkg rfl) (off .pcie rfl) rfl
  | wakePin => exact execWakePin_ansAt (off .pkg rfl) rfl
  | wakeAlarm => exact execWakeAlarm_ansAt (off .pkg rfl) rfl
  | vinBrownout =>
    exact execVinBrownout_ansAt hregs hshad (off .gos rfl) (off .hold rfl) (off .ticks rfl) (off .caps rfl)
      (off .fences rfl) (off .mem rfl) (off .ecc rfl) (off .chutes rfl) (off .ctxs rfl) (off .ports rfl)
      (off .encs rfl) (off .pds rfl) (off .seamQ rfl) (off .echos rfl) (off .mems rfl) (off .msgs rfl) (off .axes rfl)
      (off .hoists rfl) (off .served rfl) (off .trigs rfl) (off .tmrs rfl) (off .cqWait rfl) (off .cqSeq rfl)
      (off .assays rfl) (off .therms rfl) (off .lamps rfl) (off .mboxes rfl) (off .fws rfl) (off .tsync rfl)
      (off .burims rfl) (off .hops rfl) (off .dies rfl) (off .pkg rfl) (off .pcie rfl) rfl
  | vaonReset => exact execVaonReset_ansAt hregs (off .tsync rfl) (off .pkg rfl) rfl
  | powerGood =>
    exact execPowerGood_ansAt (off .free rfl) hregs hshad (off .gos rfl) (off .hold rfl) (off .ticks rfl)
      (off .caps rfl) (off .fences rfl) (off .mem rfl) (off .ecc rfl) (off .chutes rfl) (off .ctxs rfl)
      (off .ports rfl) (off .encs rfl) (off .pds rfl) (off .seamQ rfl) (off .echos rfl) (off .mems rfl)
      (off .msgs rfl) (off .axes rfl) (off .hoists rfl) (off .served rfl) (off .trigs rfl) (off .tmrs rfl)
      (off .cqWait rfl) (off .cqSeq rfl) (off .assays rfl) (off .therms rfl) (off .lamps rfl) (off .mboxes rfl)
      (off .fws rfl) (off .tsync rfl) (off .burims rfl) (off .hops rfl) (off .dies rfl) (off .pkg rfl) (off .pcie rfl)
      rfl
  | fuseRead =>
    exact execFuseRead_ansAt (off .free rfl) hregs hshad (off .hold rfl) (off .fences rfl) (off .ecc rfl)
      (off .ret rfl) (off .retEcc rfl) (off .chutes rfl) (off .ctxs rfl) (off .ports rfl) (off .encs rfl)
      (off .pds rfl) (off .seamQ rfl) (off .echos rfl) (off .mems rfl) (off .msgs rfl) (off .axes rfl)
      (off .hoists rfl) (off .trigs rfl) (off .cqWait rfl) (off .cqSeq rfl) (off .assays rfl) (off .therms rfl)
      (off .lamps rfl) (off .mboxes rfl) (off .fws rfl) (off .tsync rfl) (off .hops rfl) (off .dies rfl)
      (off .pkg rfl) (off .pcie rfl) hout rfl
  | crystal =>
    exact execCrystal_ansAt (off .free rfl) hregs (off .ret rfl) (off .retEcc rfl) (off .assays rfl) (off .dies rfl)
      (off .pkg rfl) (off .pcie rfl) hout rfl
  | pllLock =>
    exact execPllLock_ansAt (off .free rfl) hregs (off .ret rfl) (off .retEcc rfl) (off .dies rfl) (off .pkg rfl)
      (off .pcie rfl) hout rfl
  | memRepair =>
    exact execMemRepair_ansAt (off .free rfl) hregs (off .mem rfl) (off .ecc rfl) (off .ret rfl) (off .retEcc rfl)
      (off .mems rfl) (off .dies rfl) rfl
  | burimTrain =>
    exact execBurimTrain_ansAt (off .free rfl) hregs hshad (off .hold rfl) (off .fences rfl) (off .ecc rfl)
      (off .ret rfl) (off .retEcc rfl) (off .chutes rfl) (off .ctxs rfl) (off .ports rfl) (off .encs rfl)
      (off .pds rfl) (off .seamQ rfl) (off .echos rfl) (off .mems rfl) (off .msgs rfl) (off .axes rfl)
      (off .hoists rfl) (off .trigs rfl) (off .cqWait rfl) (off .cqSeq rfl) (off .assays rfl) (off .therms rfl)
      (off .lamps rfl) (off .mboxes rfl) (off .fws rfl) (off .tsync rfl) (off .hops rfl) (off .dies rfl)
      (off .pkg rfl) (off .pcie rfl) hout rfl
  | fwVerify =>
    exact execFwVerify_ansAt (off .free rfl) hregs hshad (off .hold rfl) (off .fences rfl) (off .ecc rfl)
      (off .ret rfl) (off .retEcc rfl) (off .chutes rfl) (off .ctxs rfl) (off .ports rfl) (off .encs rfl)
      (off .pds rfl) (off .seamQ rfl) (off .echos rfl) (off .mems rfl) (off .msgs rfl) (off .axes rfl)
      (off .hoists rfl) (off .trigs rfl) (off .cqWait rfl) (off .cqSeq rfl) (off .assays rfl) (off .therms rfl)
      (off .lamps rfl) (off .mboxes rfl) (off .fws rfl) (off .tsync rfl) (off .hops rfl) (off .dies rfl)
      (off .pkg rfl) (off .pcie rfl) hout rfl
  | pcieLink =>
    exact execPcieLink_ansAt (off .free rfl) hregs (off .ret rfl) (off .retEcc rfl) (off .assays rfl) (off .dies rfl)
      (off .pcie rfl) hout rfl
  | initialAssay =>
    exact execInitialAssay_ansAt (off .free rfl) hregs (off .mem rfl) (off .ecc rfl) (off .ret rfl) (off .retEcc rfl)
      (off .ctxs rfl) (off .mboxes rfl) (off .dies rfl) (off .pkg rfl) (off .pcie rfl) hout rfl
  | bootStepTimeout =>
    exact execBootStepTimeout_ansAt hclock (off .free rfl) hregs (off .mem rfl) (off .ecc rfl) (off .ret rfl)
      (off .retEcc rfl) (off .ctxs rfl) (off .mboxes rfl) (off .dies rfl) (off .pkg rfl) (off .pcie rfl) hout rfl
  | bootRestart =>
    exact execBootRestart_ansAt hclock hregs hshad (off .gos rfl) (off .hold rfl) (off .ticks rfl) (off .caps rfl)
      (off .fences rfl) (off .mem rfl) (off .ecc rfl) (off .ret rfl) (off .retEcc rfl) (off .chutes rfl)
      (off .ctxs rfl) (off .ports rfl) (off .encs rfl) (off .pds rfl) (off .seamQ rfl) (off .echos rfl)
      (off .mems rfl) (off .msgs rfl) (off .axes rfl) (off .hoists rfl) (off .served rfl) (off .trigs rfl)
      (off .tmrs rfl) (off .cqWait rfl) (off .cqSeq rfl) (off .assays rfl) (off .therms rfl) (off .lamps rfl)
      (off .mboxes rfl) (off .fws rfl) (off .tsync rfl) (off .burims rfl) (off .hops rfl) (off .dies rfl)
      (off .pkg rfl) (off .pcie rfl) hout rfl
  | tlClear => exact execTlClear_ansAt hregs (off .dies rfl) (off .pcie rfl) (off .resp rfl) hout rfl
  | cleared => exact execCleared_ansAt hregs (off .ret rfl) (off .retEcc rfl) (off .pcie rfl) hout rfl
  | pageFence =>
    exact execPageFence_ansAt (off .free rfl) hregs hshad (off .hold rfl) (off .fences rfl) (off .ecc rfl)
      (off .chutes rfl) (off .ctxs rfl) (off .ports rfl) (off .encs rfl) (off .pds rfl) (off .seamQ rfl)
      (off .echos rfl) (off .mems rfl) (off .msgs rfl) (off .axes rfl) (off .hoists rfl) (off .trigs rfl)
      (off .cqWait rfl) (off .cqSeq rfl) (off .assays rfl) (off .therms rfl) (off .lamps rfl) (off .mboxes rfl)
      (off .fws rfl) (off .tsync rfl) (off .hops rfl) (off .dies rfl) (off .pkg rfl) (off .pcie rfl) (off .resp rfl)
      hout rfl
  | fenceRelease =>
    exact execFenceRelease_ansAt (off .free rfl) hregs hshad (off .hold rfl) (off .fences rfl) (off .ecc rfl)
      (off .chutes rfl) (off .ctxs rfl) (off .ports rfl) (off .encs rfl) (off .pds rfl) (off .seamQ rfl)
      (off .echos rfl) (off .mems rfl) (off .msgs rfl) (off .axes rfl) (off .hoists rfl) (off .trigs rfl)
      (off .cqWait rfl) (off .cqSeq rfl) (off .assays rfl) (off .therms rfl) (off .lamps rfl) (off .mboxes rfl)
      (off .fws rfl) (off .tsync rfl) (off .hops rfl) (off .dies rfl) (off .pkg rfl) (off .pcie rfl) (off .resp rfl)
      hout rfl
  | releaseComplete =>
    exact execReleaseComplete_ansAt (off .free rfl) hregs hshad (off .hold rfl) (off .fences rfl) (off .ecc rfl)
      (off .chutes rfl) (off .ctxs rfl) (off .ports rfl) (off .encs rfl) (off .pds rfl) (off .seamQ rfl)
      (off .echos rfl) (off .mems rfl) (off .msgs rfl) (off .axes rfl) (off .hoists rfl) (off .trigs rfl)
      (off .cqWait rfl) (off .cqSeq rfl) (off .assays rfl) (off .therms rfl) (off .lamps rfl) (off .mboxes rfl)
      (off .fws rfl) (off .tsync rfl) (off .hops rfl) (off .dies rfl) (off .pkg rfl) (off .pcie rfl) hout rfl
  | dieFenced =>
    exact execDieFenced_ansAt (off .free rfl) hregs hshad (off .hold rfl) (off .fences rfl) (off .ecc rfl)
      (off .chutes rfl) (off .ctxs rfl) (off .ports rfl) (off .encs rfl) (off .pds rfl) (off .seamQ rfl)
      (off .echos rfl) (off .mems rfl) (off .msgs rfl) (off .axes rfl) (off .hoists rfl) (off .trigs rfl)
      (off .cqWait rfl) (off .cqSeq rfl) (off .assays rfl) (off .therms rfl) (off .lamps rfl) (off .mboxes rfl)
      (off .fws rfl) (off .tsync rfl) (off .hops rfl) (off .dies rfl) (off .pkg rfl) (off .pcie rfl) (off .resp rfl)
      hout rfl
  | watchdog =>
    exact execWatchdog_ansAt hclock (off .free rfl) hregs hshad (off .hold rfl) (off .fences rfl) (off .ecc rfl)
      (off .chutes rfl) (off .ctxs rfl) (off .ports rfl) (off .encs rfl) (off .pds rfl) (off .seamQ rfl)
      (off .echos rfl) (off .mems rfl) (off .msgs rfl) (off .axes rfl) (off .hoists rfl) (off .trigs rfl)
      (off .cqWait rfl) (off .cqSeq rfl) (off .assays rfl) (off .therms rfl) (off .lamps rfl) (off .mboxes rfl)
      (off .fws rfl) (off .tsync rfl) (off .hops rfl) (off .dies rfl) (off .pkg rfl) (off .pcie rfl) hout rfl
  | completionTimeout =>
    exact execCompletionTimeout_ansAt (off .free rfl) hregs hshad (off .hold rfl) (off .fences rfl) (off .ecc rfl)
      (off .chutes rfl) (off .ctxs rfl) (off .ports rfl) (off .encs rfl) (off .pds rfl) (off .seamQ rfl)
      (off .echos rfl) (off .mems rfl) (off .msgs rfl) (off .axes rfl) (off .hoists rfl) (off .trigs rfl)
      (off .cqWait rfl) (off .cqSeq rfl) (off .assays rfl) (off .therms rfl) (off .lamps rfl) (off .mboxes rfl)
      (off .fws rfl) (off .tsync rfl) (off .hops rfl) (off .dies rfl) (off .pkg rfl) (off .pcie rfl) hout rfl
  | msixPendingSend => exact execMsixPendingSend_ansAt (off .pcie rfl) hout rfl
  | pcieLinkUp => exact execPcieLinkUp_ansAt hregs (off .pcie rfl) hout rfl
  | flitReceive => exact execFlitReceive_ansAt hregs (off .burims rfl) (off .dies rfl) (off .pcie rfl) hout rfl
  | nakReceive => exact execNakReceive_ansAt (off .burims rfl) (off .pcie rfl) hout rfl
  | burimRetrain => exact execBurimRetrain_ansAt hregs (off .burims rfl) (off .pcie rfl) hout rfl
  | burimRetrainDone =>
    exact execBurimRetrainDone_ansAt (off .free rfl) hregs hshad (off .hold rfl) (off .fences rfl) (off .ecc rfl)
      (off .chutes rfl) (off .ctxs rfl) (off .ports rfl) (off .encs rfl) (off .pds rfl) (off .seamQ rfl)
      (off .echos rfl) (off .mems rfl) (off .msgs rfl) (off .axes rfl) (off .hoists rfl) (off .trigs rfl)
      (off .cqWait rfl) (off .cqSeq rfl) (off .assays rfl) (off .therms rfl) (off .lamps rfl) (off .mboxes rfl)
      (off .fws rfl) (off .tsync rfl) (off .burims rfl) (off .hops rfl) (off .dies rfl) (off .pkg rfl) (off .pcie rfl)
      hout rfl
  | periodSpeedLimit =>
    exact execPeriodSpeedLimit_ansAt hclock (off .free rfl) hregs (off .encs rfl) (off .dies rfl) (off .pcie rfl) hout
      rfl
  | upstreamCodeErrors =>
    exact execUpstreamCodeErrors_ansAt hregs (off .ecc rfl) (off .chutes rfl) (off .ctxs rfl) (off .ports rfl)
      (off .seamQ rfl) (off .echos rfl) (off .mems rfl) (off .trigs rfl) (off .mboxes rfl) (off .dies rfl)
      (off .pcie rfl) hout rfl
  | pcieLinkDown => exact execPcieLinkDown_ansAt hregs (off .pcie rfl) hout rfl
  | vaonApplied => exact execVaonApplied_ansAt hregs (off .pkg rfl) rfl
  | dormantSecondsEdge =>
    exact execDormantSecondsEdge_ansAt hclock (off .free rfl) hregs (off .dies rfl) (off .pkg rfl) (off .pcie rfl)
      hout rfl
  | busMasterEnable =>
    exact execBusMasterEnable_ansAt hregs (off .chutes rfl) (off .hoists rfl) (off .trigs rfl) (off .cqWait rfl)
      (off .cqSeq rfl) (off .pcie rfl) hout rfl

/-! The register pages that a command leaves alone. -/

end Sys2Proof.Laws

namespace Sys2Proof.Machine

open Sys2Proof.Laws

/-- A page is none of the pages that bear the name of a block type. -/
def Kind.Apart : Kind → Pg → Prop
  | .die, q => ∀ d, pgDie d ≠ q
  | .mode, q => ∀ d, pgMode d ≠ q
  | .timebase, q => ∀ d, pgTb d ≠ q
  | .tsync, q => pgTsync ≠ q
  | .fence, q => ∀ d, pgFence d ≠ q
  | .inject, q => ∀ d, pgInject d ≠ q
  | .tally, q => ∀ d, pgTally d ≠ q
  | .assay, q => ∀ d, pgAssay d ≠ q
  | .thermal, q => ∀ d, pgThermal d ≠ q
  | .lamp, q => ∀ d, pgLamp d ≠ q
  | .memctl, q => ∀ d, pgMemctl d ≠ q
  | .retain, q => ∀ d, pgRetain d ≠ q
  | .hoistGlobal, q => ∀ d, pgHoistGlobal d ≠ q
  | .chuteGlobal, q => ∀ d, pgChuteGlobal d ≠ q
  | .mbox, q => ∀ d b, pgMbox d b ≠ q
  | .hp, q => ∀ d i, pgHp d i ≠ q
  | .enc, q => ∀ d i, pgEnc d i ≠ q
  | .ax, q => ∀ d i, pgAx d i ≠ q
  | .pd, q => ∀ d, pgPd d ≠ q
  | .seam, q => ∀ d, pgSeam d ≠ q
  | .echo, q => ∀ d, pgEcho d ≠ q
  | .burim, q => ∀ d, pgBurim d ≠ q
  | .pcie, q => pgPcie ≠ q
  | .ctxCtrl, q => ∀ d, pgCtx d ≠ q
  | .hoistCh, q => ∀ d i, pgHc d i ≠ q
  | .chute, q => ∀ d i, pgChute d i ≠ q
  | .secDie, q => ∀ d, pgSecDie d ≠ q
  | .guard, q => ∀ d, pgGuard d ≠ q
  | .debug, q => ∀ d, pgDebug d ≠ q
  | .injectLock, q => ∀ d, pgIjl d ≠ q
  | .session, q => ∀ d, pgSess d ≠ q
  | _, _ => True

/-- A page of a block type is none of the pages named after another. -/
theorem Kind.apart_of_ne {q : Pg} {k : Kind} (h0 : pgKind q ≠ .absent) (hk : pgKind q ≠ k) : k.Apart q := by
  cases k with
  | die => exact fun _ => pgDie_ne hk
  | mode => exact fun _ => pgMode_ne hk
  | timebase => exact fun _ => pgTb_ne hk
  | tsync => exact pgTsync_ne hk
  | fence => exact fun _ => pgFence_ne hk
  | inject => exact fun _ => pgInject_ne hk
  | tally => exact fun _ => pgTally_ne hk
  | assay => exact fun _ => pgAssay_ne hk
  | thermal => exact fun _ => pgThermal_ne hk
  | lamp => exact fun _ => pgLamp_ne hk
  | memctl => exact fun _ => pgMemctl_ne hk
  | retain => exact fun _ => pgRetain_ne hk
  | hoistGlobal => exact fun _ => pgHoistGlobal_ne hk
  | chuteGlobal => exact fun _ => pgChuteGlobal_ne hk
  | mbox => exact fun _ _ => pgMbox_ne hk
  | hp => exact fun _ _ => pgHp_ne hk h0
  | enc => exact fun _ _ => pgEnc_ne hk h0
  | ax => exact fun _ _ => pgAx_ne hk h0
  | pd => exact fun _ => pgPd_ne hk
  | seam => exact fun _ => pgSeam_ne hk
  | echo => exact fun _ => pgEcho_ne hk
  | burim => exact fun _ => pgBurim_ne hk
  | pcie => exact pgPcie_ne hk
  | ctxCtrl => exact fun _ => pgCtx_ne hk
  | hoistCh => exact fun _ _ => pgHc_ne hk h0
  | chute => exact fun _ _ => pgChute_ne hk h0
  | secDie => exact fun _ => pgSecDie_ne hk
  | guard => exact fun _ => pgGuard_ne hk
  | debug => exact fun _ => pgDebug_ne hk
  | injectLock => exact fun _ => pgIjl_ne hk
  | session => exact fun _ => pgSess_ne hk
  | eventHub => trivial
  | absent => trivial

/-- Every page that exists is of a listed block type. -/
theorem mem_allKinds {q : Pg} (h0 : pgKind q ≠ .absent) : pgKind q ∈ allKinds := by
  revert h0
  generalize pgKind q = k
  cases k <;> decide

/-- A page is no fenceable page where its block type is not in a list that holds every fenceable one. -/
theorem ne_of_fenceable {q : Pg} {l : List Kind} (hk : pgKind q ∉ l) (hl : (allKinds.filter Kind.fenceable).all l.contains = true)
    (h0 : pgKind q ≠ .absent) (p : Pg) (hp : (pgKind p).fenceable = true) : p ≠ q := by
  rintro rfl
  exact hk (List.contains_iff_mem.1 (List.all_eq_true.1 hl _ (List.mem_filter.2 ⟨mem_allKinds h0, hp⟩)))

/-- The block types of non-secure pages (R56). -/
def nsKinds : List Kind := allKinds.filter (· ∉ [.secDie, .guard, .debug, .injectLock, .session])

/-- A non-secure page that exists has one of the block types of non-secure pages. -/
theorem nsKind_mem (n : Nat) : nsKind n ∈ Kind.absent :: nsKinds := by
  unfold nsKind
  repeat' split
  all_goals decide

/-- A page is secure where its block type is not in a list that holds every type of non-secure pages. -/
theorem sec_of_not_mem {q : Pg} {l : List Kind} (hk : pgKind q ∉ l)
    (hl : nsKinds.all l.contains = true)
    (h0 : pgKind q ≠ .absent) : q.sec = true := by
  by_contra hsec
  have hq : pgKind q = nsKind q.num := by rw [pgKind, if_neg hsec]
  obtain h | h := List.mem_cons.1 (nsKind_mem q.num)
  · exact h0 (hq.trans h)
  · exact hk (List.contains_iff_mem.1 (List.all_eq_true.1 hl _ (hq ▸ h)))

/-- A page that a command neither lists nor names reads as before after it. -/
theorem exec_kept {i : Instr} {q : Pg} (h0 : pgKind q ≠ .absent) (hk : pgKind q ∉ mayWrite i)
    (hp : pageOperand i ≠ some q) (s : State) : Kept q s (exec i s) := by
  have off (k : Kind) (h : (mayWrite i).contains k = true) : k.Apart q :=
    Kind.apart_of_ne h0 fun e => hk (e ▸ List.contains_iff_mem.1 h)
  cases i with
  | modeReqWrite =>
    exact execModeReqWrite_kept (off .mode rfl) (off .assay rfl) (off .pcie rfl) (off .guard rfl) (.refl _ _)
  | modeLeadWrite => exact execModeLeadWrite_kept (off .mode rfl) (off .pcie rfl) (off .guard rfl) (.refl _ _)
  | modeChanged =>
    exact execModeChanged_kept (off .mode rfl) (off .timebase rfl) (off .fence rfl) (off .memctl rfl)
      (off .chuteGlobal rfl) (off .mbox rfl) (off .hp rfl) (off .enc rfl) (off .ax rfl) (off .seam rfl)
      (off .echo rfl) (off .ctxCtrl rfl) (off .chute rfl) (.refl _ _)
  | modeMirrorArrive => exact execModeMirrorArrive_kept (off .mode rfl) (.refl _ _)
  | modeClockSettled => exact execModeClockSettled_kept (off .timebase rfl) (.refl _ _)
  | registerWrite => exact absurd (mem_allKinds h0) hk
  | unsupportedRequest => exact execUnsupportedRequest_kept (off .pcie rfl) (.refl _ _)
  | enWrite =>
    exact execEnWrite_kept (fun h => hp (congrArg some h)) (off .die rfl) (off .mode rfl) (off .tsync rfl)
      (off .fence rfl) (off .inject rfl) (off .memctl rfl) (off .hoistGlobal rfl) (off .chuteGlobal rfl)
      (off .mbox rfl) (off .hp rfl) (off .enc rfl) (off .ax rfl) (off .seam rfl) (off .echo rfl) (off .pcie rfl)
      (off .ctxCtrl rfl) (off .hoistCh rfl) (off .chute rfl) (off .guard rfl) (off .debug rfl) (off .injectLock rfl)
      (.refl _ _)
  | blockStarted =>
    exact execBlockStarted_kept (fun h => hp (congrArg some h)) (off .die rfl) (off .mode rfl) (off .tsync rfl)
      (off .fence rfl) (off .inject rfl) (off .memctl rfl) (off .hoistGlobal rfl) (off .chuteGlobal rfl)
      (off .mbox rfl) (off .hp rfl) (off .enc rfl) (off .ax rfl) (off .seam rfl) (off .echo rfl) (off .ctxCtrl rfl)
      (off .hoistCh rfl) (off .chute rfl) (off .debug rfl) (off .injectLock rfl) (.refl _ _)
  | shutdownComplete =>
    exact execShutdownComplete_kept (fun h => hp (congrArg some h)) (off .die rfl) (off .mode rfl) (off .timebase rfl)
      (off .tsync rfl) (off .fence rfl) (off .inject rfl) (off .assay rfl) (off .thermal rfl) (off .memctl rfl)
      (off .hoistGlobal rfl) (off .chuteGlobal rfl) (off .mbox rfl) (off .hp rfl) (off .enc rfl) (off .ax rfl)
      (off .seam rfl) (off .echo rfl) (off .ctxCtrl rfl) (off .chute rfl) (off .debug rfl) (off .injectLock rfl)
      (.refl _ _)
  | softReset =>
    exact execSoftReset_kept (fun h => hp (congrArg some h)) (off .die rfl) (off .mode rfl) (off .timebase rfl)
      (off .tsync rfl) (off .fence rfl) (off .inject rfl) (off .assay rfl) (off .memctl rfl) (off .hoistGlobal rfl)
      (off .chuteGlobal rfl) (off .mbox rfl) (off .hp rfl) (off .enc rfl) (off .ax rfl) (off .seam rfl)
      (off .echo rfl) (off .pcie rfl) (off .ctxCtrl rfl) (off .hoistCh rfl) (off .chute rfl) (off .guard rfl)
      (off .debug rfl) (off .injectLock rfl) (.refl _ _)
  | evtLatWrite =>
    exact execEvtLatWrite_kept (fun h => hp (congrArg some h)) (off .pcie rfl) (off .guard rfl) (.refl _ _)
  | evtEnWrite =>
    exact execEvtEnWrite_kept (fun h => hp (congrArg some h)) (off .pcie rfl) (off .guard rfl) (.refl _ _)
  | evtSetWrite =>
    exact execEvtSetWrite_kept (fun h => hp (congrArg some h)) (off .pcie rfl) (off .guard rfl) (.refl _ _)
  | evtVecWrite =>
    exact execEvtVecWrite_kept (fun h => hp (congrArg some h)) (off .pcie rfl) (off .guard rfl) (.refl _ _)
  | errInfoClear =>
    exact execErrInfoClear_kept (fun h => hp (congrArg some h)) (off .pcie rfl) (off .guard rfl) (.refl _ _)
  | commitGo => exact execCommitGo_kept (fun h => hp (congrArg some h)) (off .pcie rfl) (off .guard rfl) (.refl _ _)
  | commitCancel =>
    exact execCommitCancel_kept (fun h => hp (congrArg some h)) (off .pcie rfl) (off .guard rfl) (.refl _ _)
  | handOver =>
    exact execHandOver_kept (fun h => hp (congrArg some h)) (off .die rfl) (off .mode rfl) (off .timebase rfl)
      (off .tsync rfl) (off .fence rfl) (off .assay rfl) (off .hoistGlobal rfl) (off .chuteGlobal rfl) (off .hp rfl)
      (off .enc rfl) (off .ax rfl) (off .pd rfl) (off .seam rfl) (off .echo rfl) (off .ctxCtrl rfl) (off .chute rfl)
      (off .debug rfl) (.refl _ _)
  | wideLRead =>
    exact execWideLRead_kept (fun _ _ e h => hp (by rw [e, ← h]; rfl)) (off .die rfl) (off .mode rfl)
      (off .timebase rfl) (off .tsync rfl) (off .fence rfl) (off .assay rfl) (off .memctl rfl) (off .retain rfl)
      (off .hoistGlobal rfl) (off .chuteGlobal rfl) (off .hp rfl) (off .enc rfl) (off .ax rfl) (off .seam rfl)
      (off .echo rfl) (off .pcie rfl) (off .ctxCtrl rfl) (off .chute rfl) (off .guard rfl) (off .debug rfl)
      (.refl _ _)
  | wideLWrite => exact absurd (mem_allKinds h0) hk
  | xtalCompUpdate => exact execXtalCompUpdate_kept (off .timebase rfl) (off .tsync rfl) (.refl _ _)
  | xtalFail => exact execXtalFail_kept (off .mode rfl) (off .timebase rfl) (.refl _ _)
  | pllUnlock =>
    exact execPllUnlock_kept (off .die rfl) (off .mode rfl) (off .timebase rfl) (off .tsync rfl) (off .fence rfl)
      (off .assay rfl) (off .hoistGlobal rfl) (off .chuteGlobal rfl) (off .hp rfl) (off .enc rfl) (off .ax rfl)
      (off .seam rfl) (off .echo rfl) (off .ctxCtrl rfl) (off .chute rfl) (off .debug rfl) (ne_of_fenceable hk rfl h0)
      (.refl _ _)
  | pllRelockRelease =>
    exact execPllRelockRelease_kept (off .die rfl) (off .mode rfl) (off .timebase rfl) (off .tsync rfl)
      (off .fence rfl) (off .inject rfl) (off .assay rfl) (off .thermal rfl) (off .memctl rfl) (off .hoistGlobal rfl)
      (off .chuteGlobal rfl) (off .mbox rfl) (off .hp rfl) (off .enc rfl) (off .ax rfl) (off .seam rfl)
      (off .echo rfl) (off .ctxCtrl rfl) (off .chute rfl) (off .debug rfl) (off .injectLock rfl)
      (ne_of_fenceable hk rfl h0) (.refl _ _)
  | wrap => exact execWrap_kept (off .timebase rfl) (.refl _ _)
  | secEdge => exact execSecEdge_kept (off .timebase rfl) (.refl _ _)
  | timeFlitExchange =>
    exact execTimeFlitExchange_kept (off .die rfl) (off .mode rfl) (off .timebase rfl) (off .tsync rfl)
      (off .fence rfl) (off .assay rfl) (off .hoistGlobal rfl) (off .chuteGlobal rfl) (off .hp rfl) (off .enc rfl)
      (off .ax rfl) (off .seam rfl) (off .echo rfl) (off .ctxCtrl rfl) (off .chute rfl) (off .debug rfl)
      (ne_of_fenceable hk rfl h0) (.refl _ _)
  | timeSourceSwitch =>
    exact execTimeSourceSwitch_kept (off .die rfl) (off .mode rfl) (off .timebase rfl) (off .tsync rfl)
      (off .fence rfl) (off .assay rfl) (off .hoistGlobal rfl) (off .chuteGlobal rfl) (off .hp rfl) (off .enc rfl)
      (off .ax rfl) (off .seam rfl) (off .echo rfl) (off .ctxCtrl rfl) (off .chute rfl) (off .debug rfl)
      (ne_of_fenceable hk rfl h0) (.refl _ _)
  | timeSkewRelease =>
    exact execTimeSkewRelease_kept (off .die rfl) (off .mode rfl) (off .timebase rfl) (off .tsync rfl)
      (off .fence rfl) (off .inject rfl) (off .assay rfl) (off .thermal rfl) (off .memctl rfl) (off .hoistGlobal rfl)
      (off .chuteGlobal rfl) (off .mbox rfl) (off .hp rfl) (off .enc rfl) (off .ax rfl) (off .seam rfl)
      (off .echo rfl) (off .ctxCtrl rfl) (off .chute rfl) (off .debug rfl) (off .injectLock rfl)
      (ne_of_fenceable hk rfl h0) (.refl _ _)
  | tsyncFrameSend => exact execTsyncFrameSend_kept (off .timebase rfl) (.refl _ _)
  | tsyncFrameReceive => exact execTsyncFrameReceive_kept (off .timebase rfl) (off .tsync rfl) (.refl _ _)
  | stepApplied => exact execStepApplied_kept (off .timebase rfl) (off .tsync rfl) (.refl _ _)
  | tsyncHoldover => exact execTsyncHoldover_kept (off .timebase rfl) (off .tsync rfl) (.refl _ _)
  | encCount =>
    exact execEncCount_kept (off .die rfl) (off .mode rfl) (off .timebase rfl) (off .tsync rfl) (off .fence rfl)
      (off .assay rfl) (off .hoistGlobal rfl) (off .chuteGlobal rfl) (off .hp rfl) (off .enc rfl) (off .ax rfl)
      (off .seam rfl) (off .echo rfl) (off .ctxCtrl rfl) (off .chute rfl) (off .debug rfl) (.refl _ _)
  | index =>
    exact execIndex_kept (off .die rfl) (off .mode rfl) (off .timebase rfl) (off .tsync rfl) (off .fence rfl)
      (off .assay rfl) (off .hoistGlobal rfl) (off .chuteGlobal rfl) (off .hp rfl) (off .enc rfl) (off .ax rfl)
      (off .seam rfl) (off .echo rfl) (off .ctxCtrl rfl) (off .chute rfl) (off .debug rfl) (.refl _ _)
  | speedWindow => exact execSpeedWindow_kept (off .timebase rfl) (off .enc rfl) (.refl _ _)
  | speedStopped => exact execSpeedStopped_kept (off .timebase rfl) (off .enc rfl) (.refl _ _)
  | serialFrameStart =>
    exact execSerialFrameStart_kept (off .die rfl) (off .mode rfl) (off .timebase rfl) (off .tsync rfl)
      (off .fence rfl) (off .assay rfl) (off .hoistGlobal rfl) (off .chuteGlobal rfl) (off .hp rfl) (off .enc rfl)
      (off .ax rfl) (off .seam rfl) (off .echo rfl) (off .ctxCtrl rfl) (off .chute rfl) (off .debug rfl) (.refl _ _)
  | serialFrameEnd =>
    exact execSerialFrameEnd_kept (off .die rfl) (off .mode rfl) (off .tsync rfl) (off .fence rfl) (off .inject rfl)
      (off .assay rfl) (off .hoistGlobal rfl) (off .chuteGlobal rfl) (off .hp rfl) (off .enc rfl) (off .ax rfl)
      (off .seam rfl) (off .echo rfl) (off .ctxCtrl rfl) (off .chute rfl) (off .debug rfl) (.refl _ _)
  | serialTimeout =>
    exact execSerialTimeout_kept (off .die rfl) (off .mode rfl) (off .tsync rfl) (off .fence rfl) (off .assay rfl)
      (off .hoistGlobal rfl) (off .chuteGlobal rfl) (off .hp rfl) (off .enc rfl) (off .ax rfl) (off .seam rfl)
      (off .echo rfl) (off .ctxCtrl rfl) (off .chute rfl) (off .debug rfl) (.refl _ _)
  | latchSw =>
    exact execLatchSw_kept (off .chuteGlobal rfl) (off .enc rfl) (off .pcie rfl) (off .chute rfl) (off .guard rfl)
      (.refl _ _)
  | latchPeriodic =>
    exact execLatchPeriodic_kept (off .timebase rfl) (off .chuteGlobal rfl) (off .enc rfl) (off .chute rfl)
      (.refl _ _)
  | estimatorUpdate => exact execEstimatorUpdate_kept (off .timebase rfl) (off .enc rfl) (.refl _ _)
  | remoteEstimateReceive => exact execRemoteEstimateReceive_kept (off .enc rfl) (.refl _ _)
  | remoteSourceLost => exact execRemoteSourceLost_kept (off .timebase rfl) (off .enc rfl) (.refl _ _)
  | product =>
    exact execProduct_kept (off .timebase rfl) (off .chuteGlobal rfl) (off .enc rfl) (off .pd rfl) (off .chute rfl)
      (.refl _ _)
  | pdLockoutEnd => exact execPdLockoutEnd_kept (off .timebase rfl) (.refl _ _)
  | estimateArrival => exact execEstimateArrival_kept (off .timebase rfl) (.refl _ _)
  | positionStep =>
    exact execPositionStep_kept (off .timebase rfl) (off .fence rfl) (off .memctl rfl) (off .chuteGlobal rfl)
      (off .hp rfl) (off .seam rfl) (off .echo rfl) (off .ctxCtrl rfl) (off .chute rfl) (.refl _ _)
  | sourceLost =>
    exact execSourceLost_kept (off .timebase rfl) (off .fence rfl) (off .memctl rfl) (off .chuteGlobal rfl)
      (off .hp rfl) (off .seam rfl) (off .echo rfl) (off .ctxCtrl rfl) (off .chute rfl) (.refl _ _)
  | pdEdgeArrival =>
    exact execPdEdgeArrival_kept (off .timebase rfl) (off .fence rfl) (off .memctl rfl) (off .chuteGlobal rfl)
      (off .hp rfl) (off .seam rfl) (off .echo rfl) (off .ctxCtrl rfl) (off .chute rfl) (.refl _ _)
  | ctxArm =>
    exact execCtxArm_kept (off .fence rfl) (off .memctl rfl) (off .chuteGlobal rfl) (off .hp rfl) (off .seam rfl)
      (off .echo rfl) (off .pcie rfl) (off .ctxCtrl rfl) (off .chute rfl) (off .guard rfl) (.refl _ _)
  | ctxDisarm =>
    exact execCtxDisarm_kept (off .fence rfl) (off .memctl rfl) (off .chuteGlobal rfl) (off .hp rfl) (off .seam rfl)
      (off .echo rfl) (off .pcie rfl) (off .ctxCtrl rfl) (off .chute rfl) (off .guard rfl) (.refl _ _)
  | ctxStart =>
    exact execCtxStart_kept (off .fence rfl) (off .memctl rfl) (off .chuteGlobal rfl) (off .hp rfl) (off .seam rfl)
      (off .echo rfl) (off .pcie rfl) (off .ctxCtrl rfl) (off .chute rfl) (off .guard rfl) (.refl _ _)
  | ctxPause =>
    exact execCtxPause_kept (off .fence rfl) (off .memctl rfl) (off .chuteGlobal rfl) (off .hp rfl) (off .seam rfl)
      (off .echo rfl) (off .pcie rfl) (off .ctxCtrl rfl) (off .chute rfl) (off .guard rfl) (.refl _ _)
  | ctxResume =>
    exact execCtxResume_kept (off .fence rfl) (off .memctl rfl) (off .chuteGlobal rfl) (off .hp rfl) (off .seam rfl)
      (off .echo rfl) (off .pcie rfl) (off .ctxCtrl rfl) (off .chute rfl) (off .guard rfl) (.refl _ _)
  | ctxDrain =>
    exact execCtxDrain_kept (off .fence rfl) (off .memctl rfl) (off .chuteGlobal rfl) (off .hp rfl) (off .seam rfl)
      (off .echo rfl) (off .pcie rfl) (off .ctxCtrl rfl) (off .chute rfl) (off .guard rfl) (.refl _ _)
  | ctxAbort =>
    exact execCtxAbort_kept (off .fence rfl) (off .memctl rfl) (off .chuteGlobal rfl) (off .hp rfl) (off .seam rfl)
      (off .echo rfl) (off .pcie rfl) (off .ctxCtrl rfl) (off .chute rfl) (off .guard rfl) (.refl _ _)
  | ctxFlush =>
    exact execCtxFlush_kept (off .fence rfl) (off .memctl rfl) (off .chuteGlobal rfl) (off .hp rfl) (off .seam rfl)
      (off .echo rfl) (off .pcie rfl) (off .ctxCtrl rfl) (off .chute rfl) (off .guard rfl) (.refl _ _)
  | chuteFlushScan => exact execChuteFlushScan_kept (off .chuteGlobal rfl) (off .chute rfl) (.refl _ _)
  | ctxFence =>
    exact execCtxFence_kept (off .fence rfl) (off .chuteGlobal rfl) (off .seam rfl) (off .echo rfl) (off .pcie rfl)
      (off .ctxCtrl rfl) (off .chute rfl) (off .guard rfl) (.refl _ _)
  | ctxRelease =>
    exact execCtxRelease_kept (off .fence rfl) (off .memctl rfl) (off .chuteGlobal rfl) (off .hp rfl) (off .seam rfl)
      (off .echo rfl) (off .pcie rfl) (off .ctxCtrl rfl) (off .chute rfl) (off .guard rfl) (.refl _ _)
  | followerRejoin =>
    exact execFollowerRejoin_kept (off .timebase rfl) (off .fence rfl) (off .memctl rfl) (off .chuteGlobal rfl)
      (off .hp rfl) (off .seam rfl) (off .echo rfl) (off .ctxCtrl rfl) (off .chute rfl) (.refl _ _)
  | descriptorWrite =>
    exact execDescriptorWrite_kept (off .fence rfl) (off .memctl rfl) (off .chuteGlobal rfl) (off .pcie rfl)
      (off .ctxCtrl rfl) (off .chute rfl) (off .guard rfl) (.refl _ _)
  | ctxCommitGo => exact execCtxCommitGo_kept (off .pcie rfl) (off .ctxCtrl rfl) (off .guard rfl) (.refl _ _)
  | ctxHandOver =>
    exact execCtxHandOver_kept (off .timebase rfl) (off .fence rfl) (off .memctl rfl) (off .chuteGlobal rfl)
      (off .hp rfl) (off .seam rfl) (off .echo rfl) (off .ctxCtrl rfl) (off .chute rfl) (.refl _ _)
  | lineBind =>
    exact execLineBind_kept (off .timebase rfl) (off .fence rfl) (off .assay rfl) (off .memctl rfl)
      (off .chuteGlobal rfl) (off .hp rfl) (off .seam rfl) (off .echo rfl) (off .ctxCtrl rfl) (off .chute rfl)
      (.refl _ _)
  | lineFreeze => exact execLineFreeze_kept (off .timebase rfl) (off .hp rfl) (.refl _ _)
  | cycleFire =>
    exact execCycleFire_kept (off .timebase rfl) (off .fence rfl) (off .memctl rfl) (off .chuteGlobal rfl)
      (off .hp rfl) (off .seam rfl) (off .echo rfl) (off .ctxCtrl rfl) (off .chute rfl) (.refl _ _)
  | drainComplete =>
    exact execDrainComplete_kept (off .fence rfl) (off .memctl rfl) (off .chuteGlobal rfl) (off .hp rfl)
      (off .seam rfl) (off .echo rfl) (off .ctxCtrl rfl) (off .chute rfl) (.refl _ _)
  | stall =>
    exact execStall_kept (off .timebase rfl) (off .fence rfl) (off .memctl rfl) (off .chuteGlobal rfl) (off .hp rfl)
      (off .seam rfl) (off .echo rfl) (off .ctxCtrl rfl) (off .chute rfl) (.refl _ _)
  | blockAccept =>
    exact execBlockAccept_kept (off .fence rfl) (off .memctl rfl) (off .chuteGlobal rfl) (off .seam rfl)
      (off .echo rfl) (off .ctxCtrl rfl) (off .chute rfl) (.refl _ _)
  | lineBuild =>
    exact execLineBuild_kept (off .fence rfl) (off .memctl rfl) (off .chuteGlobal rfl) (off .seam rfl) (off .echo rfl)
      (off .ctxCtrl rfl) (off .chute rfl) (.refl _ _)
  | seamShareReceive => exact execSeamShareReceive_kept (off .seam rfl) (.refl _ _)
  | seamCreditReturn =>
    exact execSeamCreditReturn_kept (off .fence rfl) (off .memctl rfl) (off .chuteGlobal rfl) (off .seam rfl)
      (off .echo rfl) (off .ctxCtrl rfl) (off .chute rfl) (.refl _ _)
  | wfLoadStart => exact execWfLoadStart_kept (off .hp rfl) (off .pcie rfl) (off .guard rfl) (.refl _ _)
  | wfLoadCopy =>
    exact execWfLoadCopy_kept (off .timebase rfl) (off .fence rfl) (off .memctl rfl) (off .chuteGlobal rfl)
      (off .hp rfl) (off .chute rfl) (.refl _ _)
  | wfLoadHead => exact execWfLoadHead_kept (off .hp rfl) (.refl _ _)
  | loadDone => exact execLoadDone_kept (off .hp rfl) (.refl _ _)
  | heaterUpdate => exact execHeaterUpdate_kept (off .timebase rfl) (off .hp rfl) (.refl _ _)
  | nozzleMapLoadDone =>
    exact execNozzleMapLoadDone_kept (off .fence rfl) (off .memctl rfl) (off .chuteGlobal rfl) (off .seam rfl)
      (off .echo rfl) (off .ctxCtrl rfl) (off .chute rfl) (.refl _ _)
  | echoResult =>
    exact execEchoResult_kept (off .fence rfl) (off .memctl rfl) (off .chuteGlobal rfl) (off .echo rfl)
      (off .chute rfl) (.refl _ _)
  | sweepStart => exact execSweepStart_kept (off .echo rfl) (off .pcie rfl) (off .guard rfl) (.refl _ _)
  | sweepAbort => exact execSweepAbort_kept (off .echo rfl) (off .pcie rfl) (off .guard rfl) (.refl _ _)
  | setState =>
    exact execSetState_kept (off .fence rfl) (off .memctl rfl) (off .chuteGlobal rfl) (off .echo rfl) (off .pcie rfl)
      (off .chute rfl) (off .guard rfl) (.refl _ _)
  | setTrim =>
    exact execSetTrim_kept (off .fence rfl) (off .memctl rfl) (off .chuteGlobal rfl) (off .echo rfl) (off .pcie rfl)
      (off .chute rfl) (off .guard rfl) (.refl _ _)
  | clearHist =>
    exact execClearHist_kept (off .fence rfl) (off .memctl rfl) (off .chuteGlobal rfl) (off .echo rfl) (off .pcie rfl)
      (off .chute rfl) (off .guard rfl) (.refl _ _)
  | refInvalid =>
    exact execRefInvalid_kept (off .fence rfl) (off .memctl rfl) (off .chuteGlobal rfl) (off .echo rfl)
      (off .pcie rfl) (off .chute rfl) (off .guard rfl) (.refl _ _)
  | refValid =>
    exact execRefValid_kept (off .fence rfl) (off .memctl rfl) (off .chuteGlobal rfl) (off .echo rfl) (off .pcie rfl)
      (off .chute rfl) (off .guard rfl) (.refl _ _)
  | lockTrim =>
    exact execLockTrim_kept (off .fence rfl) (off .memctl rfl) (off .chuteGlobal rfl) (off .echo rfl) (off .pcie rfl)
      (off .chute rfl) (off .guard rfl) (.refl _ _)
  | linkDiscovery => exact execLinkDiscovery_kept (off .mbox rfl) (off .hp rfl) (.refl _ _)
  | discoveryRepeat => exact execDiscoveryRepeat_kept (off .timebase rfl) (off .mbox rfl) (off .hp rfl) (.refl _ _)
  | linkUp => exact execLinkUp_kept (off .mbox rfl) (off .hp rfl) (.refl _ _)
  | trainAttemptTimeout =>
    exact execTrainAttemptTimeout_kept (off .die rfl) (off .mode rfl) (off .timebase rfl) (off .tsync rfl)
      (off .fence rfl) (off .assay rfl) (off .memctl rfl) (off .hoistGlobal rfl) (off .chuteGlobal rfl)
      (off .mbox rfl) (off .hp rfl) (off .enc rfl) (off .ax rfl) (off .seam rfl) (off .echo rfl) (off .ctxCtrl rfl)
      (off .chute rfl) (off .debug rfl) (.refl _ _)
  | frameSend =>
    exact execFrameSend_kept (off .timebase rfl) (off .fence rfl) (off .inject rfl) (off .memctl rfl)
      (off .chuteGlobal rfl) (off .mbox rfl) (off .hp rfl) (off .seam rfl) (off .echo rfl) (off .ctxCtrl rfl)
      (off .chute rfl) (.refl _ _)
  | ackReceive =>
    exact execAckReceive_kept (off .timebase rfl) (off .fence rfl) (off .inject rfl) (off .thermal rfl)
      (off .memctl rfl) (off .chuteGlobal rfl) (off .hp rfl) (off .seam rfl) (off .echo rfl) (off .ctxCtrl rfl)
      (off .chute rfl) (.refl _ _)
  | ackTimeout =>
    exact execAckTimeout_kept (off .timebase rfl) (off .fence rfl) (off .memctl rfl) (off .chuteGlobal rfl)
      (off .mbox rfl) (off .hp rfl) (off .seam rfl) (off .echo rfl) (off .ctxCtrl rfl) (off .chute rfl) (.refl _ _)
  | statusReceive =>
    exact execStatusReceive_kept (off .timebase rfl) (off .fence rfl) (off .inject rfl) (off .thermal rfl)
      (off .memctl rfl) (off .chuteGlobal rfl) (off .hp rfl) (off .seam rfl) (off .echo rfl) (off .ctxCtrl rfl)
      (off .chute rfl) (.refl _ _)
  | statusStale => exact execStatusStale_kept (off .timebase rfl) (off .hp rfl) (.refl _ _)
  | currentLoopTick =>
    exact execCurrentLoopTick_kept (off .die rfl) (off .mode rfl) (off .timebase rfl) (off .tsync rfl)
      (off .fence rfl) (off .assay rfl) (off .hoistGlobal rfl) (off .chuteGlobal rfl) (off .hp rfl) (off .enc rfl)
      (off .ax rfl) (off .seam rfl) (off .echo rfl) (off .ctxCtrl rfl) (off .chute rfl) (off .debug rfl) (.refl _ _)
  | bridgeFault =>
    exact execBridgeFault_kept (off .die rfl) (off .mode rfl) (off .tsync rfl) (off .fence rfl) (off .assay rfl)
      (off .hoistGlobal rfl) (off .chuteGlobal rfl) (off .hp rfl) (off .enc rfl) (off .ax rfl) (off .seam rfl)
      (off .echo rfl) (off .ctxCtrl rfl) (off .chute rfl) (off .debug rfl) (.refl _ _)
  | stepInput => exact execStepInput_kept (off .ax rfl) (.refl _ _)
  | profileTick =>
    exact execProfileTick_kept (off .die rfl) (off .mode rfl) (off .timebase rfl) (off .tsync rfl) (off .fence rfl)
      (off .assay rfl) (off .hoistGlobal rfl) (off .chuteGlobal rfl) (off .hp rfl) (off .enc rfl) (off .ax rfl)
      (off .seam rfl) (off .echo rfl) (off .ctxCtrl rfl) (off .chute rfl) (off .debug rfl) (.refl _ _)
  | axEnableDone => exact execAxEnableDone_kept (off .timebase rfl) (off .ax rfl) (.refl _ _)
  | axMove => exact execAxMove_kept (off .ax rfl) (off .pcie rfl) (off .guard rfl) (.refl _ _)
  | axStop => exact execAxStop_kept (off .ax rfl) (off .pcie rfl) (off .guard rfl) (.refl _ _)
  | axResume => exact execAxResume_kept (off .ax rfl) (off .pcie rfl) (off .guard rfl) (.refl _ _)
  | axHome => exact execAxHome_kept (off .ax rfl) (off .pcie rfl) (off .guard rfl) (.refl _ _)
  | axLoad => exact execAxLoad_kept (off .ax rfl) (off .pcie rfl) (off .guard rfl) (.refl _ _)
  | axClear => exact execAxClear_kept (off .ax rfl) (off .pcie rfl) (off .guard rfl) (.refl _ _)
  | axCut => exact execAxCut_kept (off .ax rfl) (off .pcie rfl) (off .guard rfl) (.refl _ _)
  | switchInputEdge =>
    exact execSwitchInputEdge_kept (off .die rfl) (off .mode rfl) (off .tsync rfl) (off .fence rfl) (off .assay rfl)
      (off .hoistGlobal rfl) (off .chuteGlobal rfl) (off .hp rfl) (off .enc rfl) (off .ax rfl) (off .seam rfl)
      (off .echo rfl) (off .ctxCtrl rfl) (off .chute rfl) (off .debug rfl) (.refl _ _)
  | swEdge =>
    exact execSwEdge_kept (off .die rfl) (off .mode rfl) (off .timebase rfl) (off .tsync rfl) (off .fence rfl)
      (off .assay rfl) (off .hoistGlobal rfl) (off .chuteGlobal rfl) (off .hp rfl) (off .enc rfl) (off .ax rfl)
      (off .seam rfl) (off .echo rfl) (off .ctxCtrl rfl) (off .chute rfl) (off .debug rfl) (.refl _ _)
  | hcStart =>
    exact execHcStart_kept (off .hoistGlobal rfl) (off .chuteGlobal rfl) (off .pcie rfl) (off .hoistCh rfl)
      (off .chute rfl) (off .guard rfl) (.refl _ _)
  | hcCancel =>
    exact execHcCancel_kept (off .hoistGlobal rfl) (off .chuteGlobal rfl) (off .pcie rfl) (off .hoistCh rfl)
      (off .chute rfl) (off .guard rfl) (.refl _ _)
  | hcHold =>
    exact execHcHold_kept (off .hoistGlobal rfl) (off .chuteGlobal rfl) (off .pcie rfl) (off .hoistCh rfl)
      (off .chute rfl) (off .guard rfl) (.refl _ _)
  | hcResume =>
    exact execHcResume_kept (off .hoistGlobal rfl) (off .chuteGlobal rfl) (off .pcie rfl) (off .hoistCh rfl)
      (off .chute rfl) (off .guard rfl) (.refl _ _)
  | hcAbort =>
    exact execHcAbort_kept (off .hoistGlobal rfl) (off .chuteGlobal rfl) (off .pcie rfl) (off .hoistCh rfl)
      (off .chute rfl) (off .guard rfl) (.refl _ _)
  | hoistTrigger => exact execHoistTrigger_kept (off .hoistCh rfl) (.refl _ _)
  | runStart => exact execRunStart_kept (off .hoistCh rfl) (.refl _ _)
  | hoistMove =>
    exact execHoistMove_kept (off .die rfl) (off .mode rfl) (off .tsync rfl) (off .fence rfl) (off .assay rfl)
      (off .memctl rfl) (off .hoistGlobal rfl) (off .chuteGlobal rfl) (off .hp rfl) (off .enc rfl) (off .ax rfl)
      (off .seam rfl) (off .echo rfl) (off .ctxCtrl rfl) (off .hoistCh rfl) (off .chute rfl) (off .debug rfl)
      (.refl _ _)
  | hoistLoop =>
    exact execHoistLoop_kept (off .die rfl) (off .mode rfl) (off .tsync rfl) (off .fence rfl) (off .assay rfl)
      (off .memctl rfl) (off .hoistGlobal rfl) (off .chuteGlobal rfl) (off .hp rfl) (off .enc rfl) (off .ax rfl)
      (off .seam rfl) (off .echo rfl) (off .ctxCtrl rfl) (off .hoistCh rfl) (off .chute rfl) (off .debug rfl)
      (.refl _ _)
  | hoistWait =>
    exact execHoistWait_kept (off .die rfl) (off .mode rfl) (off .tsync rfl) (off .fence rfl) (off .assay rfl)
      (off .memctl rfl) (off .hoistGlobal rfl) (off .chuteGlobal rfl) (off .hp rfl) (off .enc rfl) (off .ax rfl)
      (off .seam rfl) (off .echo rfl) (off .ctxCtrl rfl) (off .hoistCh rfl) (off .chute rfl) (off .debug rfl)
      (.refl _ _)
  | waitSatisfied => exact execWaitSatisfied_kept (off .timebase rfl) (off .hoistCh rfl) (.refl _ _)
  | waitTimeout =>
    exact execWaitTimeout_kept (off .die rfl) (off .mode rfl) (off .timebase rfl) (off .tsync rfl) (off .fence rfl)
      (off .assay rfl) (off .hoistGlobal rfl) (off .chuteGlobal rfl) (off .hp rfl) (off .enc rfl) (off .ax rfl)
      (off .seam rfl) (off .echo rfl) (off .ctxCtrl rfl) (off .hoistCh rfl) (off .chute rfl) (off .debug rfl)
      (.refl _ _)
  | hoistSignal =>
    exact execHoistSignal_kept (off .die rfl) (off .mode rfl) (off .tsync rfl) (off .fence rfl) (off .assay rfl)
      (off .memctl rfl) (off .hoistGlobal rfl) (off .chuteGlobal rfl) (off .hp rfl) (off .enc rfl) (off .ax rfl)
      (off .seam rfl) (off .echo rfl) (off .ctxCtrl rfl) (off .hoistCh rfl) (off .chute rfl) (off .debug rfl)
      (.refl _ _)
  | hoistSeta =>
    exact execHoistSeta_kept (off .die rfl) (off .mode rfl) (off .tsync rfl) (off .fence rfl) (off .assay rfl)
      (off .memctl rfl) (off .hoistGlobal rfl) (off .chuteGlobal rfl) (off .hp rfl) (off .enc rfl) (off .ax rfl)
      (off .seam rfl) (off .echo rfl) (off .ctxCtrl rfl) (off .hoistCh rfl) (off .chute rfl) (off .debug rfl)
      (.refl _ _)
  | hoistAdda =>
    exact execHoistAdda_kept (off .die rfl) (off .mode rfl) (off .tsync rfl) (off .fence rfl) (off .assay rfl)
      (off .memctl rfl) (off .hoistGlobal rfl) (off .chuteGlobal rfl) (off .hp rfl) (off .enc rfl) (off .ax rfl)
      (off .seam rfl) (off .echo rfl) (off .ctxCtrl rfl) (off .hoistCh rfl) (off .chute rfl) (off .debug rfl)
      (.refl _ _)
  | hoistNop =>
    exact execHoistNop_kept (off .die rfl) (off .mode rfl) (off .tsync rfl) (off .fence rfl) (off .assay rfl)
      (off .memctl rfl) (off .hoistGlobal rfl) (off .chuteGlobal rfl) (off .hp rfl) (off .enc rfl) (off .ax rfl)
      (off .seam rfl) (off .echo rfl) (off .ctxCtrl rfl) (off .hoistCh rfl) (off .chute rfl) (off .debug rfl)
      (.refl _ _)
  | hoistEnd =>
    exact execHoistEnd_kept (off .die rfl) (off .mode rfl) (off .tsync rfl) (off .fence rfl) (off .assay rfl)
      (off .memctl rfl) (off .hoistGlobal rfl) (off .chuteGlobal rfl) (off .hp rfl) (off .enc rfl) (off .ax rfl)
      (off .seam rfl) (off .echo rfl) (off .ctxCtrl rfl) (off .hoistCh rfl) (off .chute rfl) (off .debug rfl)
      (.refl _ _)
  | burstStart => exact execBurstStart_kept (off .timebase rfl) (off .chuteGlobal rfl) (off .chute rfl) (.refl _ _)
  | burstWritten => exact absurd (mem_allKinds h0) hk
  | hoistWatchdog =>
    exact execHoistWatchdog_kept (off .die rfl) (off .mode rfl) (off .timebase rfl) (off .tsync rfl) (off .fence rfl)
      (off .assay rfl) (off .hoistGlobal rfl) (off .chuteGlobal rfl) (off .hp rfl) (off .enc rfl) (off .ax rfl)
      (off .seam rfl) (off .echo rfl) (off .ctxCtrl rfl) (off .hoistCh rfl) (off .chute rfl) (off .debug rfl)
      (.refl _ _)
  | globalTimerFire => exact execGlobalTimerFire_kept (off .timebase rfl) (.refl _ _)
  | cqRecordWrite => exact execCqRecordWrite_kept (off .hoistGlobal rfl) (off .hoistCh rfl) (.refl _ _)
  | cqSizeWrite => exact execCqSizeWrite_kept (off .hoistGlobal rfl) (off .pcie rfl) (off .guard rfl) (.refl _ _)
  | cqConsWrite => exact execCqConsWrite_kept (off .hoistGlobal rfl) (off .pcie rfl) (off .guard rfl) (.refl _ _)
  | chutePush =>
    exact execChutePush_kept (off .chuteGlobal rfl) (off .pcie rfl) (off .chute rfl) (off .guard rfl) (.refl _ _)
  | chutePop =>
    exact execChutePop_kept (off .fence rfl) (off .memctl rfl) (off .chuteGlobal rfl) (off .pcie rfl) (off .chute rfl)
      (off .guard rfl) (.refl _ _)
  | memWindowWrite =>
    exact execMemWindowWrite_kept (off .fence rfl) (off .memctl rfl) (off .chuteGlobal rfl) (off .pcie rfl)
      (off .ctxCtrl rfl) (off .chute rfl) (off .guard rfl) (.refl _ _)
  | memWindowRead =>
    exact execMemWindowRead_kept (off .fence rfl) (off .memctl rfl) (off .chuteGlobal rfl) (off .pcie rfl)
      (off .chute rfl) (off .guard rfl) (.refl _ _)
  | memtestRegionStart => exact execMemtestRegionStart_kept (off .timebase rfl) (off .memctl rfl) (.refl _ _)
  | memtestPhaseDone =>
    exact execMemtestPhaseDone_kept (off .fence rfl) (off .memctl rfl) (off .chuteGlobal rfl) (off .chute rfl)
      (.refl _ _)
  | repairMapSave => exact execRepairMapSave_kept (off .retain rfl) (.refl _ _)
  | retDataWrite => exact execRetDataWrite_kept (off .retain rfl) (off .pcie rfl) (off .guard rfl) (.refl _ _)
  | retDataRead => exact execRetDataRead_kept (off .retain rfl) (off .pcie rfl) (off .guard rfl) (.refl _ _)
  | retWordWritten => exact execRetWordWritten_kept (off .retain rfl) (.refl _ _)
  | asRequest => exact execAsRequest_kept (off .assay rfl) (off .pcie rfl) (off .guard rfl) (.refl _ _)
  | asSave => exact execAsSave_kept (off .assay rfl) (off .pcie rfl) (off .guard rfl) (.refl _ _)
  | asRestore => exact execAsRestore_kept (off .assay rfl) (off .pcie rfl) (off .guard rfl) (.refl _ _)
  | asCancel => exact execAsCancel_kept (off .assay rfl) (off .pcie rfl) (off .guard rfl) (.refl _ _)
  | saved => exact execSaved_kept (off .assay rfl) (off .retain rfl) (.refl _ _)
  | restored => exact execRestored_kept (off .assay rfl) (.refl _ _)
  | assayRunStart => exact execAssayRunStart_kept (.refl _ _)
  | assayTakeover => exact execAssayTakeover_kept (off .timebase rfl) (.refl _ _)
  | assayMeasureStart => exact execAssayMeasureStart_kept (off .timebase rfl) (.refl _ _)
  | assayMeasureEnd => exact execAssayMeasureEnd_kept (off .timebase rfl) (.refl _ _)
  | runDone => exact execRunDone_kept (off .assay rfl) (.refl _ _)
  | tabRead => exact execTabRead_kept (off .assay rfl) (off .pcie rfl) (off .guard rfl) (.refl _ _)
  | tabWrite => exact execTabWrite_kept (off .assay rfl) (off .pcie rfl) (off .guard rfl) (.refl _ _)
  | tabClear => exact execTabClear_kept (off .assay rfl) (off .pcie rfl) (off .guard rfl) (.refl _ _)
  | tempUpdate =>
    exact execTempUpdate_kept (off .timebase rfl) (off .thermal rfl) (off .chuteGlobal rfl) (off .hp rfl)
      (off .chute rfl) (.refl _ _)
  | thermistorSample =>
    exact execThermistorSample_kept (off .thermal rfl) (off .chuteGlobal rfl) (off .hp rfl) (off .chute rfl)
      (.refl _ _)
  | warnClear =>
    exact execWarnClear_kept (off .timebase rfl) (off .thermal rfl) (off .chuteGlobal rfl) (off .mbox rfl)
      (off .hp rfl) (off .echo rfl) (off .chute rfl) (.refl _ _)
  | graceExpiry =>
    exact execGraceExpiry_kept (off .timebase rfl) (off .fence rfl) (off .thermal rfl) (off .chuteGlobal rfl)
      (off .mbox rfl) (off .seam rfl) (off .echo rfl) (off .ctxCtrl rfl) (off .chute rfl) (.refl _ _)
  | critical =>
    exact execCritical_kept (off .die rfl) (off .mode rfl) (off .tsync rfl) (off .fence rfl) (off .assay rfl)
      (off .thermal rfl) (off .hoistGlobal rfl) (off .chuteGlobal rfl) (off .hp rfl) (off .enc rfl) (off .ax rfl)
      (off .seam rfl) (off .echo rfl) (off .ctxCtrl rfl) (off .chute rfl) (off .debug rfl) (.refl _ _)
  | lampMeasure => exact execLampMeasure_kept (.refl _ _)
  | lampMeasureCmd => exact execLampMeasureCmd_kept (off .lamp rfl) (off .pcie rfl) (off .guard rfl) (.refl _ _)
  | measured =>
    exact execMeasured_kept (off .timebase rfl) (off .lamp rfl) (off .chuteGlobal rfl) (off .mbox rfl)
      (off .chute rfl) (.refl _ _)
  | calintExpiry => exact execCalintExpiry_kept (.refl _ _)
  | histWritten => exact execHistWritten_kept (off .lamp rfl) (off .retain rfl) (.refl _ _)
  | histClear =>
    exact execHistClear_kept (off .lamp rfl) (off .retain rfl) (off .pcie rfl) (off .guard rfl) (.refl _ _)
  | mailboxPost => exact execMailboxPost_kept (off .mbox rfl) (off .pcie rfl) (off .guard rfl) (.refl _ _)
  | mailboxTake => exact execMailboxTake_kept (off .mbox rfl) (.refl _ _)
  | inDone => exact execInDone_kept (off .mbox rfl) (.refl _ _)
  | getInfo => exact execGetInfo_kept (.refl _ _)
  | ping => exact execPing_kept (.refl _ _)
  | headDiscover => exact execHeadDiscover_kept (off .mbox rfl) (off .hp rfl) (.refl _ _)
  | sbRead => exact execSbRead_kept (.refl _ _)
  | sbWrite => exact execSbWrite_kept (.refl _ _)
  | captureRef => exact execCaptureRef_kept (off .mbox rfl) (off .echo rfl) (.refl _ _)
  | assayRequest => exact execAssayRequest_kept (off .assay rfl) (off .mbox rfl) (.refl _ _)
  | abortLong => exact execAbortLong_kept (off .mbox rfl) (off .hp rfl) (off .echo rfl) (.refl _ _)
  | tallyClear => exact execTallyClear_kept (off .tally rfl) (off .retain rfl) (.refl _ _)
  | fwRestart => exact execFwRestart_kept (off .mbox rfl) (.refl _ _)
  | lifecycleAdvance =>
    exact execLifecycleAdvance_kept (off .die rfl) (off .mode rfl) (off .inject rfl) (off .secDie rfl)
      (off .debug rfl) (off .injectLock rfl) (off .session rfl) (.refl _ _)
  | longCmdTimeout =>
    exact execLongCmdTimeout_kept (off .timebase rfl) (off .mbox rfl) (off .hp rfl) (off .echo rfl) (.refl _ _)
  | fwWatchdogRestart => exact execFwWatchdogRestart_kept (off .mbox rfl) (.refl _ _)
  | fwStarted => exact execFwStarted_kept (off .mbox rfl) (.refl _ _)
  | outFull => exact execOutFull_kept (off .mbox rfl) (.refl _ _)
  | noticeAck => exact execNoticeAck_kept (off .mbox rfl) (off .pcie rfl) (off .guard rfl) (.refl _ _)
  | inStuck => exact execInStuck_kept (off .timebase rfl) (off .mbox rfl) (.refl _ _)
  | outStuck => exact execOutStuck_kept (off .timebase rfl) (off .mbox rfl) (.refl _ _)
  | flr =>
    exact execFlr_kept (off .die rfl) (off .mode rfl) (off .tsync rfl) (off .fence rfl) (off .assay rfl)
      (off .hoistGlobal rfl) (off .chuteGlobal rfl) (off .mbox rfl) (off .hp rfl) (off .enc rfl) (off .ax rfl)
      (off .seam rfl) (off .echo rfl) (off .pcie rfl) (off .ctxCtrl rfl) (off .hoistCh rfl) (off .chute rfl)
      (off .debug rfl) (sec_of_not_mem hk rfl h0) (.refl _ _)
  | conventionalReset =>
    exact execConventionalReset_kept (off .die rfl) (off .mode rfl) (off .tsync rfl) (off .fence rfl) (off .assay rfl)
      (off .hoistGlobal rfl) (off .chuteGlobal rfl) (off .mbox rfl) (off .hp rfl) (off .enc rfl) (off .ax rfl)
      (off .seam rfl) (off .echo rfl) (off .pcie rfl) (off .ctxCtrl rfl) (off .hoistCh rfl) (off .chute rfl)
      (off .debug rfl) (off .session rfl) (sec_of_not_mem hk rfl h0) (.refl _ _)
  | sessionStart => exact execSessionStart_kept (off .pcie rfl) (off .guard rfl) (off .session rfl) (.refl _ _)
  | sessionCheck => exact execSessionCheck_kept (off .pcie rfl) (off .guard rfl) (off .session rfl) (.refl _ _)
  | sessionClose => exact execSessionClose_kept (off .pcie rfl) (off .guard rfl) (off .session rfl) (.refl _ _)
  | sessionTimeout => exact execSessionTimeout_kept (off .timebase rfl) (off .session rfl) (.refl _ _)
  | backoffEnd => exact execBackoffEnd_kept (off .timebase rfl) (off .session rfl) (.refl _ _)
  | guardWrite => exact execGuardWrite_kept (off .pcie rfl) (off .guard rfl) (.refl _ _)
  | extest =>
    exact execExtest_kept (off .die rfl) (off .mode rfl) (off .tsync rfl) (off .fence rfl) (off .assay rfl)
      (off .hoistGlobal rfl) (off .chuteGlobal rfl) (off .hp rfl) (off .enc rfl) (off .ax rfl) (off .seam rfl)
      (off .echo rfl) (off .ctxCtrl rfl) (off .chute rfl) (off .debug rfl) (.refl _ _)
  | samplePreload => exact execSamplePreload_kept (off .debug rfl) (.refl _ _)
  | idcode => exact execIdcode_kept (off .debug rfl) (.refl _ _)
  | clamp =>
    exact execClamp_kept (off .die rfl) (off .mode rfl) (off .tsync rfl) (off .fence rfl) (off .assay rfl)
      (off .hoistGlobal rfl) (off .chuteGlobal rfl) (off .hp rfl) (off .enc rfl) (off .ax rfl) (off .seam rfl)
      (off .echo rfl) (off .ctxCtrl rfl) (off .chute rfl) (off .debug rfl) (.refl _ _)
  | highz =>
    exact execHighz_kept (off .die rfl) (off .mode rfl) (off .tsync rfl) (off .fence rfl) (off .assay rfl)
      (off .hoistGlobal rfl) (off .chuteGlobal rfl) (off .hp rfl) (off .enc rfl) (off .ax rfl) (off .seam rfl)
      (off .echo rfl) (off .ctxCtrl rfl) (off .chute rfl) (off .debug rfl) (.refl _ _)
  | extestPulse =>
    exact execExtestPulse_kept (off .die rfl) (off .mode rfl) (off .tsync rfl) (off .fence rfl) (off .assay rfl)
      (off .hoistGlobal rfl) (off .chuteGlobal rfl) (off .hp rfl) (off .enc rfl) (off .ax rfl) (off .seam rfl)
      (off .echo rfl) (off .ctxCtrl rfl) (off .chute rfl) (off .debug rfl) (.refl _ _)
  | extestTrain =>
    exact execExtestTrain_kept (off .die rfl) (off .mode rfl) (off .tsync rfl) (off .fence rfl) (off .assay rfl)
      (off .hoistGlobal rfl) (off .chuteGlobal rfl) (off .hp rfl) (off .enc rfl) (off .ax rfl) (off .seam rfl)
      (off .echo rfl) (off .ctxCtrl rfl) (off .chute rfl) (off .debug rfl) (.refl _ _)
  | dbgStatus => exact execDbgStatus_kept (off .debug rfl) (.refl _ _)
  | unlockChal => exact execUnlockChal_kept (off .debug rfl) (.refl _ _)
  | unlockResp => exact execUnlockResp_kept (off .die rfl) (off .mode rfl) (off .debug rfl) (.refl _ _)
  | dbgAccess => exact absurd (mem_allKinds h0) hk
  | dbgClose => exact execDbgClose_kept (off .die rfl) (off .mode rfl) (off .debug rfl) (.refl _ _)
  | bypass => exact execBypass_kept (off .debug rfl) (.refl _ _)
  | dbgCtrlClose =>
    exact execDbgCtrlClose_kept (off .die rfl) (off .mode rfl) (off .pcie rfl) (off .guard rfl) (off .debug rfl)
      (.refl _ _)
  | trstLow => exact execTrstLow_kept (off .die rfl) (off .mode rfl) (off .debug rfl) (.refl _ _)
  | ijlAllowWrite =>
    exact execIjlAllowWrite_kept (off .inject rfl) (off .pcie rfl) (off .guard rfl) (off .injectLock rfl) (.refl _ _)
  | dormantEntry =>
    exact execDormantEntry_kept (off .die rfl) (off .mode rfl) (off .timebase rfl) (off .fence rfl) (off .assay rfl)
      (off .memctl rfl) (off .retain rfl) (off .chuteGlobal rfl) (off .mbox rfl) (off .hp rfl) (off .enc rfl)
      (off .ax rfl) (off .seam rfl) (off .echo rfl) (off .pcie rfl) (off .ctxCtrl rfl) (off .chute rfl)
      (off .debug rfl) (off .session rfl) (.refl _ _)
  | vinOff => exact absurd (mem_allKinds h0) hk
  | wakePin => exact execWakePin_kept (.refl _ _)
  | wakeAlarm => exact execWakeAlarm_kept (.refl _ _)
  | vinBrownout => exact absurd (mem_allKinds h0) hk
  | vaonReset => exact execVaonReset_kept (off .die rfl) (.refl _ _)
  | powerGood => exact absurd (mem_allKinds h0) hk
  | fuseRead =>
    exact execFuseRead_kept (off .die rfl) (off .mode rfl) (off .tsync rfl) (off .fence rfl) (off .inject rfl)
      (off .tally rfl) (off .assay rfl) (off .retain rfl) (off .hoistGlobal rfl) (off .chuteGlobal rfl) (off .hp rfl)
      (off .enc rfl) (off .ax rfl) (off .seam rfl) (off .echo rfl) (off .ctxCtrl rfl) (off .chute rfl)
      (off .debug rfl) (off .injectLock rfl) (off .session rfl) (ne_of_fenceable hk rfl h0) (.refl _ _)
  | crystal => exact execCrystal_kept (off .mode rfl) (off .timebase rfl) (off .retain rfl) (.refl _ _)
  | pllLock => exact execPllLock_kept (off .timebase rfl) (off .retain rfl) (.refl _ _)
  | memRepair => exact execMemRepair_kept (off .memctl rfl) (off .retain rfl) (off .burim rfl) (.refl _ _)
  | burimTrain =>
    exact execBurimTrain_kept (off .die rfl) (off .mode rfl) (off .timebase rfl) (off .tsync rfl) (off .fence rfl)
      (off .assay rfl) (off .retain rfl) (off .hoistGlobal rfl) (off .chuteGlobal rfl) (off .hp rfl) (off .enc rfl)
      (off .ax rfl) (off .seam rfl) (off .echo rfl) (off .burim rfl) (off .ctxCtrl rfl) (off .chute rfl)
      (off .debug rfl) (off .session rfl) (ne_of_fenceable hk rfl h0) (.refl _ _)
  | fwVerify =>
    exact execFwVerify_kept (off .die rfl) (off .mode rfl) (off .tsync rfl) (off .fence rfl) (off .assay rfl)
      (off .retain rfl) (off .hoistGlobal rfl) (off .chuteGlobal rfl) (off .mbox rfl) (off .hp rfl) (off .enc rfl)
      (off .ax rfl) (off .seam rfl) (off .echo rfl) (off .ctxCtrl rfl) (off .chute rfl) (off .debug rfl)
      (off .session rfl) (ne_of_fenceable hk rfl h0) (.refl _ _)
  | pcieLink => exact execPcieLink_kept (off .retain rfl) (off .pcie rfl) (.refl _ _)
  | initialAssay =>
    exact execInitialAssay_kept (off .die rfl) (off .mode rfl) (off .tally rfl) (off .assay rfl) (off .retain rfl)
      (off .mbox rfl) (off .debug rfl) (.refl _ _)
  | bootStepTimeout =>
    exact execBootStepTimeout_kept (off .die rfl) (off .mode rfl) (off .timebase rfl) (off .tally rfl)
      (off .assay rfl) (off .retain rfl) (off .mbox rfl) (off .debug rfl) (.refl _ _)
  | bootRestart => exact absurd (mem_allKinds h0) hk
  | tlClear => exact execTlClear_kept (off .tally rfl) (off .pcie rfl) (off .guard rfl) (.refl _ _)
  | cleared => exact execCleared_kept (off .tally rfl) (off .retain rfl) (.refl _ _)
  | pageFence =>
    exact execPageFence_kept (fun h => hp (congrArg some h)) (off .die rfl) (off .mode rfl) (off .tsync rfl)
      (off .fence rfl) (off .assay rfl) (off .hoistGlobal rfl) (off .chuteGlobal rfl) (off .hp rfl) (off .enc rfl)
      (off .ax rfl) (off .seam rfl) (off .echo rfl) (off .pcie rfl) (off .ctxCtrl rfl) (off .chute rfl)
      (off .guard rfl) (off .debug rfl) (.refl _ _)
  | fenceRelease =>
    exact execFenceRelease_kept (fun h => hp (congrArg some h)) (off .die rfl) (off .mode rfl) (off .tsync rfl)
      (off .fence rfl) (off .assay rfl) (off .hoistGlobal rfl) (off .chuteGlobal rfl) (off .hp rfl) (off .enc rfl)
      (off .ax rfl) (off .seam rfl) (off .echo rfl) (off .pcie rfl) (off .ctxCtrl rfl) (off .chute rfl)
      (off .guard rfl) (off .debug rfl) (.refl _ _)
  | releaseComplete =>
    exact execReleaseComplete_kept (fun h => hp (congrArg some h)) (off .die rfl) (off .mode rfl) (off .timebase rfl)
      (off .tsync rfl) (off .fence rfl) (off .inject rfl) (off .assay rfl) (off .thermal rfl) (off .memctl rfl)
      (off .hoistGlobal rfl) (off .chuteGlobal rfl) (off .mbox rfl) (off .hp rfl) (off .enc rfl) (off .ax rfl)
      (off .seam rfl) (off .echo rfl) (off .ctxCtrl rfl) (off .chute rfl) (off .debug rfl) (off .injectLock rfl)
      (.refl _ _)
  | dieFenced =>
    exact execDieFenced_kept (off .die rfl) (off .mode rfl) (off .timebase rfl) (off .tsync rfl) (off .fence rfl)
      (off .inject rfl) (off .assay rfl) (off .thermal rfl) (off .memctl rfl) (off .hoistGlobal rfl)
      (off .chuteGlobal rfl) (off .mbox rfl) (off .hp rfl) (off .enc rfl) (off .ax rfl) (off .seam rfl)
      (off .echo rfl) (off .pcie rfl) (off .ctxCtrl rfl) (off .chute rfl) (off .guard rfl) (off .debug rfl)
      (off .injectLock rfl) (ne_of_fenceable hk rfl h0) (.refl _ _)
  | watchdog =>
    exact execWatchdog_kept (off .die rfl) (off .mode rfl) (off .timebase rfl) (off .tsync rfl) (off .fence rfl)
      (off .assay rfl) (off .hoistGlobal rfl) (off .chuteGlobal rfl) (off .hp rfl) (off .enc rfl) (off .ax rfl)
      (off .seam rfl) (off .echo rfl) (off .ctxCtrl rfl) (off .chute rfl) (off .debug rfl) (ne_of_fenceable hk rfl h0)
      (.refl _ _)
  | completionTimeout =>
    exact execCompletionTimeout_kept (off .die rfl) (off .mode rfl) (off .tsync rfl) (off .fence rfl) (off .assay rfl)
      (off .hoistGlobal rfl) (off .chuteGlobal rfl) (off .hp rfl) (off .enc rfl) (off .ax rfl) (off .seam rfl)
      (off .echo rfl) (off .pcie rfl) (off .ctxCtrl rfl) (off .hoistCh rfl) (off .chute rfl) (off .debug rfl)
      (.refl _ _)
  | msixPendingSend => exact execMsixPendingSend_kept (.refl _ _)
  | pcieLinkUp => exact execPcieLinkUp_kept (off .pcie rfl) (.refl _ _)
  | flitReceive => exact execFlitReceive_kept (off .inject rfl) (off .burim rfl) (.refl _ _)
  | nakReceive => exact execNakReceive_kept (.refl _ _)
  | burimRetrain => exact execBurimRetrain_kept (off .burim rfl) (.refl _ _)
  | burimRetrainDone =>
    exact execBurimRetrainDone_kept (off .die rfl) (off .mode rfl) (off .timebase rfl) (off .tsync rfl)
      (off .fence rfl) (off .assay rfl) (off .hoistGlobal rfl) (off .chuteGlobal rfl) (off .hp rfl) (off .enc rfl)
      (off .ax rfl) (off .seam rfl) (off .echo rfl) (off .burim rfl) (off .ctxCtrl rfl) (off .chute rfl)
      (off .debug rfl) (off .session rfl) (ne_of_fenceable hk rfl h0) (.refl _ _)
  | periodSpeedLimit => exact execPeriodSpeedLimit_kept (off .timebase rfl) (off .enc rfl) (.refl _ _)
  | upstreamCodeErrors =>
    exact execUpstreamCodeErrors_kept (off .fence rfl) (off .memctl rfl) (off .chuteGlobal rfl) (off .mbox rfl)
      (off .hp rfl) (off .seam rfl) (off .echo rfl) (off .ctxCtrl rfl) (off .chute rfl) (.refl _ _)
  | pcieLinkDown => exact execPcieLinkDown_kept (off .pcie rfl) (.refl _ _)
  | vaonApplied => exact execVaonApplied_kept (off .die rfl) (.refl _ _)
  | dormantSecondsEdge => exact execDormantSecondsEdge_kept (off .timebase rfl) (.refl _ _)
  | busMasterEnable => exact execBusMasterEnable_kept (off .hoistGlobal rfl) (off .hoistCh rfl) (.refl _ _)

/-! The frames. -/

/-- Settles O5: a step is a command or a tick, and both keep the form of the memories. -/
theorem stepKeepsInvariant : Obligations.StepKeepsInvariant := by
  intro s t ⟨hmem, hret⟩ hstep
  unfold step at hstep
  split at hstep
  next =>
    cases hstep
    have h : Upd {} s (ticksPass s 1) := ticksPass_upd (.refl _ _)
    exact ⟨h.memWf hmem, h.retWf hret⟩
  next i rest _ =>
    obtain ⟨u, hu, h⟩ := exec_ans i { s with pending := rest }
    cases hu.symm.trans hstep
    exact ⟨h.memWf hmem, h.retWf hret⟩

/-- Settles O6: what every command keeps. -/
theorem everyCommandCompletes : Obligations.EveryCommandCompletes := by
  intro i s
  obtain ⟨t, ht, h⟩ := exec_ans i s
  exact ⟨t, ht, h.pending, h.part, h.clock, h.out⟩

/-- Settles O7: the pages a command may write, or names, are apart from the page. -/
theorem registerFrame : Obligations.RegisterFrame := by
  intro i s p h0 hk hp
  obtain ⟨t, ht, h⟩ := exec_kept h0 hk hp s
  exact ⟨t, ht, fun off => ⟨h.regs off, h.shadows off⟩⟩

/-- Settles O8: the part alone reads the same. -/
theorem engineFrame : Obligations.EngineFrame := by
  intro i s e he
  obtain ⟨t, ht, h⟩ := exec_ansAt he s
  exact ⟨t, ht, Engine.same_of_view h⟩

/-- Settles O59: only the commands listed may change the sessions. -/
theorem sessionFrame : Obligations.SessionFrame := by
  intro i s hi
  obtain ⟨t, ht, h⟩ := exec_ans i s
  exact ⟨t, ht, h.sess hi⟩

end Sys2Proof.Machine

namespace Sys2Proof.Machine

open Sys2Proof.Laws

/-! Fuses (R373, R374). -/

/-- What the commands that write the fuses of die `d` keep: the fuses of every other die, and no lifecycle goes back. -/
structure FuseStep (d : Nat) (s t : State) : Prop where
  part : t.part = s.part
  other : ∀ e < s.part.dies, e ≠ d → fuses (die t e) = fuses (die s e)
  lc : d < s.part.dies → (die s d).lc ≤ (die t d).lc

/-- The groups of everything but the fuses. -/
abbrev allButFuses : Grp := { mem := true, ecc := true, ret := true, sess := true }

variable {d : Nat} {s t u : State}

/-- The lifecycle is one of the fuses. -/
theorem lc_eq_of_fuses {x y : DieSt} (h : fuses x = fuses y) : x.lc = y.lc := by
  simp only [fuses, Prod.mk.injEq] at h
  exact h.2.2.2.2.2

theorem FuseStep.trans (h : FuseStep d s t) (k : FuseStep d t u) : FuseStep d s u where
  part := k.part.trans h.part
  other e he hne := (k.other e (h.part ▸ he) hne).trans (h.other e he hne)
  lc hd := (h.lc hd).trans (k.lc (h.part ▸ hd))

/-- What writes no fuse takes no lifecycle back. -/
theorem FuseStep.of_upd (h : Upd allButFuses s t) : FuseStep d s t where
  part := h.part
  other e he _ := h.fuse rfl e he
  lc hd := Nat.le_of_eq (lc_eq_of_fuses (h.fuse rfl d hd)).symm

theorem FuseStep.then_upd (h : FuseStep d s t) (k : Upd allButFuses t u) : FuseStep d s u := h.trans (.of_upd k)

theorem FuseStep.setDie {x : DieSt} (h : (die s d).lc ≤ x.lc) : FuseStep d s (setDie s d x) where
  part := rfl
  other e _ hne := by rw [die_setDie_other _ _ _ _ hne.symm]
  lc _ := by rwa [die_setDie]

/-- The fuses read take no lifecycle back. -/
theorem fusesTake_fuseStep (s : State) (d : Nat) (f : Fuses) : FuseStep d s (fusesTake s d f) := by
  have hlc : (die s d).lc ≤ max (die s d).lc (f.lc % 4) := Nat.le_max_left ..
  refine FuseStep.trans (FuseStep.setDie (x := { die s d with
    serial := f.serial % 2 ^ 48, lot := f.lot, wafer := f.wafer, lc := max (die s d).lc (f.lc % 4), fuseOk := true
    keyOk := f.keyGood, key := if max (die s d).lc (f.lc % 4) = 3 then 2 ^ 256 - 1 else f.key % 2 ^ 256
    keyId := if max (die s d).lc (f.lc % 4) = 3 then 0 else f.keyId }) hlc) (.of_upd ?_)
  refine each_upd (allowedFollow_upd ?_) fun _ _ h => injFollow_upd h
  refine ite_upd (wf_upd (setDie_upd_of (.refl _ _) (fun _ => rfl) fun h => by cases h)) (.refl _ _)

/-- FUSE_READ reads the fuses of its die. -/
theorem execFuseRead_fuseStep (d : Nat) (f : Fuses) (s : State) : ∃ t, execFuseRead d f s = .next t ∧ FuseStep d s t := by
  refine ⟨_, rfl, ?_⟩
  dsimp only
  have hopen : Upd allButFuses s (boardOpen s d) := boardOpen_upd rfl rfl (.refl _ _)
  split
  · exact .of_upd (.refl _ _)
  · split
    · split
      · exact .of_upd (setBoot_upd hopen)
      · exact .of_upd (startFollow_upd rfl (leaveOut_upd rfl (stepEnd_upd rfl rfl hopen)))
    · split
      · exact .of_upd (.refl _ _)
      · have htake := (FuseStep.of_upd hopen).trans (fusesTake_fuseStep (boardOpen s d) d f)
        have hend := htake.trans (.of_upd (stepEnd_upd (d := d) (last := 1) (alt := 0) (detail := 0) rfl rfl (.refl _ _)))
        split
        · exact hend
        · exact hend.trans (.of_upd (stepNone_upd rfl rfl (.refl _ _)))

/-- An advance that goes forward takes no lifecycle back. -/
theorem lcChange_fuseStep {n : Nat} (h : (die s d).lc ≤ n) : FuseStep d s (lcChange s d n) := by
  have hset : FuseStep d s (Machine.setDie s d { die s d with lc := n }) := .setDie h
  have hclose (b : Bool) : FuseStep d s (if b = true then Machine.setDie s d { die s d with lc := n }
      else dbgClose (Machine.setDie s d { die s d with lc := n }) d) := by
    split
    · exact hset
    · exact hset.then_upd (dbgClose_upd (.refl _ _))
  have hend {u : State} (hu : FuseStep d s u) : FuseStep d s
      (raise (raise (each (dieList s) (allowedFollow u) injFollow) (pgSecDie d) 0) (pgDie d) 1) :=
    hu.then_upd (raise_upd (raise_upd (each_upd (allowedFollow_upd (.refl _ _)) fun _ _ h => injFollow_upd h)))
  refine hend ?_
  split
  · have hkey {u : State} (hu : FuseStep d s u) : FuseStep d s
        (Machine.setDie u d { die u d with key := 2 ^ 256 - 1, keyId := 0 }) := hu.trans (.setDie (Nat.le_refl _))
    exact (hkey (hclose _)).then_upd
      (wf_upd (setDie_upd_of (sessClose_upd (.refl _ _)) (fun _ => rfl) fun h => by cases h))
  · exact hclose _

/-- An advance that is not denied goes forward (R374). -/
theorem lc_lt_of_not_lcDenied {n : Nat} (h : lcDenied s d n = false) : (die s d).lc < n := by
  simp only [lcDenied, Bool.or_eq_false_iff, decide_eq_false_iff_not, Nat.not_le] at h
  exact h.1.1

/-- A list of checks passes only if the first does. -/
theorem head_of_firstBad {b : Bool} {c : Nat} {l : List (Bool × Nat)} (h : firstBad ((b, c) :: l) = none) : b = false := by
  cases b with
  | false => rfl
  | true => simp [firstBad] at h

/-- LIFECYCLE_ADVANCE takes no lifecycle back. -/
theorem execLifecycleAdvance_fuseStep (d : Nat) (sec : Bool) (n : Nat) (good : Bool) (s : State) :
    ∃ t, execLifecycleAdvance d sec n good s = .next t ∧ FuseStep d s t := by
  refine ⟨_, rfl, ?_⟩
  unfold inRun
  split
  · split
    · exact .of_upd (setResult_upd (.refl _ _))
    next hbad =>
      have hden := (Bool.or_eq_false_iff.1 (head_of_firstBad hbad)).2
      split
      · exact (lcChange_fuseStep (lc_lt_of_not_lcDenied hden).le).trans (.of_upd (setResult_upd (.refl _ _)))
      · exact .of_upd (setResult_upd (.refl _ _))
  · exact .of_upd (.refl _ _)

/-- Settles O58: no command but the two writes a fuse, and these go forward on the die they name. -/
theorem fuseFrame : Obligations.FuseFrame := by
  have hkeep (i : Instr) (s : State) (hi : setsFuses i = false) :
      Completes i s fun t => ∀ d < s.part.dies, fuses (die t d) = fuses (die s d) := by
    obtain ⟨t, ht, h⟩ := exec_ans i s
    exact ⟨t, ht, h.fuse hi⟩
  have hset (d : Nat) (i : Instr) (s : State) (hi : ∃ t, exec i s = .next t ∧ FuseStep d s t) :
      Completes i s fun t => ∀ e < s.part.dies, (die s e).lc ≤ (die t e).lc := by
    obtain ⟨t, ht, h⟩ := hi
    refine ⟨t, ht, fun e he => ?_⟩
    by_cases hne : e = d
    · exact hne ▸ h.lc (hne ▸ he)
    · exact Nat.le_of_eq (lc_eq_of_fuses (h.other e he hne)).symm
  refine ⟨hkeep, fun i s => ?_, fun s d sec n good f i hi => ?_⟩
  · by_cases hi : setsFuses i = false
    · obtain ⟨t, ht, h⟩ := hkeep i s hi
      exact ⟨t, ht, fun e he => Nat.le_of_eq (lc_eq_of_fuses (h e he)).symm⟩
    · cases i <;> try exact absurd rfl hi
      case fuseRead d f => exact hset d _ s (execFuseRead_fuseStep d f s)
      case lifecycleAdvance d sec n good => exact hset d _ s (execLifecycleAdvance_fuseStep d sec n good s)
  · have hstep : ∃ t, exec i s = .next t ∧ FuseStep d s t := by
      simp only [List.mem_cons, List.not_mem_nil, or_false] at hi
      obtain rfl | rfl := hi
      · exact execLifecycleAdvance_fuseStep d sec n good s
      · exact execFuseRead_fuseStep d f s
    obtain ⟨t, ht, h⟩ := hstep
    exact ⟨t, ht, h.other⟩

end Sys2Proof.Machine

namespace Sys2Proof.Machine

/-! Keeping a session alive (R379): what a taken access finds. -/

/-- An access that keeps a session alive notes its time in the die. -/
theorem touchSession_cases (s : State) (r : Req) (p : Pg) :
    touchSession s r p = s ∨
      touchSession s r p = setDie s p.die { die s p.die with sess := { (die s p.die).sess with last := s.clock } } := by
  unfold touchSession
  split
  · exact .inr rfl
  · exact .inl rfl

section
variable (s : State) (r : Req) (p : Pg)

@[simp] theorem touchSession_out : (touchSession s r p).out = s.out := by
  obtain h | h := touchSession_cases s r p <;> rw [h] <;> rfl

@[simp] theorem touchSession_pcie : (touchSession s r p).pcie = s.pcie := by
  obtain h | h := touchSession_cases s r p <;> rw [h] <;> rfl

@[simp] theorem touchSession_part : (touchSession s r p).part = s.part := by
  obtain h | h := touchSession_cases s r p <;> rw [h] <;> rfl

@[simp] theorem touchSession_clock : (touchSession s r p).clock = s.clock := by
  obtain h | h := touchSession_cases s r p <;> rw [h] <;> rfl

@[simp] theorem present_touchSession (q : Pg) : present (touchSession s r p) q = present s q := by
  simp only [present, touchSession_part]

@[simp] theorem rf_touchSession (q : Pg) (o lo n : Nat) : rf (touchSession s r p) q o lo n = rf s q o lo n := by
  simp only [rf, rd_touchSession]

@[simp] theorem rb_touchSession (q : Pg) (o i : Nat) : rb (touchSession s r p) q o i = rb s q o i := by
  simp only [rb, rd_touchSession]

@[simp] theorem summary_touchSession (q : Pg) : summary (touchSession s r p) q = summary s q := by
  simp only [summary, rd_touchSession]

end

/-- An access that passes is to a present page. -/
theorem present_of_pass {s : State} {r : Req} {p : Pg} {off : Nat} {write : Bool}
    (h : verdict s r p off write = .pass) : present s p = true := by
  unfold verdict at h
  by_contra hp
  rw [if_pos (show (!present s p) = true by simpa using hp)] at h
  split at h <;> cases h

theorem Taken.present {s : State} {r : Req} {p : Pg} {off : Nat} (h : Taken s r p off) : present s p = true :=
  present_of_pass h.2

/-! Events and messages (R44, R45, R425). -/

/-- A message changes no register. -/
@[simp] theorem rd_pageMsix (s : State) (p q : Pg) (o : Nat) : rd (pageMsix s p) q o = rd s q o := rd_msix ..

/-- A message sent again changes no register. -/
@[simp] theorem rd_resend (s : State) (p q : Pg) (o : Nat) : rd (resend s p) q o = rd s q o := by
  unfold resend
  split <;> simp

/-- A latched event changes no other register. -/
theorem rd_latch_other {s : State} {p q : Pg} {o : Nat} (m : Word) (h : (q, o) ≠ (p, Off.EVT_LAT)) :
    rd (latch s p m) q o = rd s q o := by
  by_cases hp : p = q
  · subst hp
    exact rd_latch_off _ _ _ _ _ fun ho => h (by rw [ho])
  · exact rd_latch_page _ _ _ _ _ hp

/-- The message of a page whose vector is open leaves the part, unless its die is isolated (R410, R425). -/
theorem pageMsix_open {s : State} {p : Pg} (hiso : isolated s p.die = false)
    (hopen : msixOpen s (rf s p Off.EVT_VEC 0 7) = true) :
    pageMsix s p = emit s (.msix (rf s p Off.EVT_VEC 0 7)) := by
  rw [pageMsix, msix, if_neg (by simp [hiso]), if_pos hopen]

/-- A latch by which the summary of a page rises sends its message. -/
theorem latch_out {s : State} {p : Pg} {m : Word} (hp : present s p = true) (hlow : summary s p = false)
    (hhigh : summary (latch s p m) p = true) (hiso : isolated s p.die = false)
    (hopen : msixOpen s (rf s p Off.EVT_VEC 0 7) = true) :
    (latch s p m).out = s.out ++ [.msix (rf s p Off.EVT_VEC 0 7)] := by
  have hrise : summary (wr s p Off.EVT_LAT (rd s p Off.EVT_LAT ||| m)) p = true := by
    simpa [summary, rd_latch_same _ _ _ hp] using hhigh
  have hiso' : isolated (wr s p Off.EVT_LAT (rd s p Off.EVT_LAT ||| m)) p.die = false := by simpa [isolated] using hiso
  have hopen' : msixOpen (wr s p Off.EVT_LAT (rd s p Off.EVT_LAT ||| m))
      (rf (wr s p Off.EVT_LAT (rd s p Off.EVT_LAT ||| m)) p Off.EVT_VEC 0 7) = true := by simpa [msixOpen] using hopen
  simp only [latch, hp, if_true, whenDo, hlow, hrise, Bool.not_false, Bool.and_self, pageMsix_open hiso' hopen']
  simp [emit]

/-! Writes of the event registers (R39, R44, R45). -/

/-- A register of the header read after a taken write of it. -/
theorem exec_evtLatWrite (r : Req) (p : Pg) (v : Word) (s : State) :
    exec (.evtLatWrite r p v) s = .next (guardedWrite s r p Off.EVT_LAT fun t => evtLat t p v) := rfl

theorem exec_evtEnWrite (r : Req) (p : Pg) (v : Word) (s : State) :
    exec (.evtEnWrite r p v) s = .next (guardedWrite s r p Off.EVT_EN fun t => evtEn t p v) := rfl

theorem exec_evtSetWrite (r : Req) (p : Pg) (v : Word) (s : State) :
    exec (.evtSetWrite r p v) s = .next (guardedWrite s r p Off.EVT_SET fun t => evtSet t p v) := rfl

theorem exec_errInfoClear (r : Req) (p : Pg) (s : State) :
    exec (.errInfoClear r p) s = .next (guardedWrite s r p Off.ERR_INFO fun t => errClear t p (bitw 23)) := rfl

section
variable (s : State) (p : Pg) (v : Word)

/-- A write of `EVT_LAT` is a write of that register alone. -/
theorem rd_evtLat (q : Pg) (o : Nat) : rd (evtLat s p v) q o =
    rd (wr s p Off.EVT_LAT ((rd s p Off.EVT_LAT &&& ~~~ v) ||| levelBits s p)) q o := rd_resend ..

/-- A write of `EVT_EN` is a write of that register alone. -/
theorem rd_evtEn (q : Pg) (o : Nat) : rd (evtEn s p v) q o = rd (wr s p Off.EVT_EN (evtMask p v)) q o := rd_resend ..

/-- The word that `ERR_INFO` keeps without VALID and OVF. -/
theorem errClear_valid : errClear s p (bitw 23) =
    wr (wr s p Off.ERR_INFO (setBit (rd s p Off.ERR_INFO) 23 false)) p Off.ERR_INFO
      (setBit (setBit (rd s p Off.ERR_INFO) 23 false) 22 false) := by
  have h : bit (bitw 23) 23 = true := by decide
  rw [errClear, if_pos h, wb_eq, wb_eq, rd_wr_same]

end

/-- Settles O11: each write is a write of one register on the state that the taken access leaves. -/
theorem eventWrites : Obligations.EventWrites := by
  refine ⟨fun s r p v h => ?_, fun s r p v h => ?_, fun s r p v h => ?_, fun s r p v h => ?_, fun s r p h => ?_⟩
  · refine ⟨_, exec_evtLatWrite .., ?_, fun q o hne => ?_⟩
    · rw [guardedWrite_of_taken h, rd_evtLat, rd_wr_same, levelBits]
      simp only [rd_touchSession]
    · rw [guardedWrite_of_taken h, rd_evtLat, rd_wr_other _ _ _ _ _ _ hne.symm, rd_touchSession]
  · refine ⟨_, exec_evtEnWrite .., ?_, fun q o hne => ?_⟩
    · rw [guardedWrite_of_taken h, rd_evtEn, rd_wr_same]
    · rw [guardedWrite_of_taken h, rd_evtEn, rd_wr_other _ _ _ _ _ _ hne.symm, rd_touchSession]
  · have hp := present_touchSession s r p p ▸ h.present
    refine ⟨_, exec_evtSetWrite .., ?_, fun q o hne => ?_, fun hlow hhigh hiso hopen => ?_⟩
    · rw [guardedWrite_of_taken h, evtSet, rd_latch_same _ _ _ hp, rd_touchSession]
    · rw [guardedWrite_of_taken h, evtSet, rd_latch_other _ hne, rd_touchSession]
    · rw [guardedWrite_of_taken h, evtSet] at hhigh ⊢
      rw [latch_out hp (by rwa [summary_touchSession]) hhigh (by simpa [isolated] using hiso)
        (by simpa [msixOpen] using hopen), touchSession_out, rf_touchSession]
  · refine ⟨_, exec_evtVecWrite .., ?_, fun q o hne => ?_⟩
    · rw [guardedWrite_of_taken h, evtVec]
      split
      · rw [rd_wr_same]
      · rw [rd_touchSession]
    · rw [guardedWrite_of_taken h, rd_evtVec_other hne, rd_touchSession]
  · refine ⟨_, exec_errInfoClear .., ?_, fun q o hne => ?_⟩
    · rw [guardedWrite_of_taken h, errClear_valid, rd_wr_same, rd_touchSession]
    · rw [guardedWrite_of_taken h, errClear_valid, rd_wr_other _ _ _ _ _ _ hne.symm, rd_wr_other _ _ _ _ _ _ hne.symm,
        rd_touchSession]

end Sys2Proof.Machine

namespace Sys2Proof.Machine

open Sys2Proof.Laws

/-! Pages apart: a page of one block type is none of the pages named after another. -/

/-- A page of block type `k'` is apart from the pages named after `k`. -/
theorem Kind.apart {q : Pg} (k' k : Kind) (hq : pgKind q = k') (h : k' ≠ k := by decide)
    (h0 : k' ≠ .absent := by decide) : k.Apart q :=
  Kind.apart_of_ne (hq ▸ h0) (hq ▸ h)

/-! Waiting (log entry 14). -/

section
variable (s : State) (c : Nat)

/-- Waiting lets the clock run up to a time that lies ahead. -/
@[simp] theorem waitClock_clock : (waitClock s c).clock = max s.clock c := by
  unfold waitClock
  split
  · omega
  · rw [ticksPass_clock]; omega

@[simp] theorem waitClock_pkg : (waitClock s c).pkg = s.pkg :=
  waitClock_inv (φ := State.pkg) (fun _ _ => rfl) (fun _ _ => rfl) (fun _ _ => rfl) (fun _ _ => rfl) (fun _ _ => rfl) rfl

@[simp] theorem waitClock_part : (waitClock s c).part = s.part :=
  waitClock_inv (φ := State.part) (fun _ _ => rfl) (fun _ _ => rfl) (fun _ _ => rfl) (fun _ _ => rfl) (fun _ _ => rfl) rfl

/-- Waiting changes no register but `EVT_LAT` of a TIMEBASE page. -/
theorem rd_ticksPass {n : Nat} {q : Pg} {o : Nat} (ho : o ≠ Off.EVT_LAT) : rd (ticksPass s n) q o = rd s q o := by
  unfold ticksPass
  generalize hu : ({ s with clock := s.clock + n } : State) = u
  have hu' : rd u q o = rd s q o := hu ▸ rfl
  clear hu
  unfold each
  generalize dieList s = l
  induction l generalizing u with
  | nil => exact hu'
  | cons x r ih => exact ih _ ((rd_dieTicks _ _ _ ho).trans hu')

@[simp] theorem rd_waitClock {q : Pg} {o : Nat} (ho : o ≠ Off.EVT_LAT) : rd (waitClock s c) q o = rd s q o := by
  unfold waitClock
  split
  · rfl
  · exact rd_ticksPass s ho

@[simp] theorem rd_waitTick {d : Nat} {t : Int} {q : Pg} {o : Nat} (ho : o ≠ Off.EVT_LAT) :
    rd (waitTick s d t) q o = rd s q o := by
  simp only [waitTick]
  split
  · rfl
  · exact rd_ticksPass s ho

@[simp] theorem waitTick_pkg (d : Nat) (t : Int) : (waitTick s d t).pkg = s.pkg :=
  waitTick_inv (φ := State.pkg) (fun _ _ => rfl) (fun _ _ => rfl) (fun _ _ => rfl) (fun _ _ => rfl) (fun _ _ => rfl) rfl

@[simp] theorem waitTick_part (d : Nat) (t : Int) : (waitTick s d t).part = s.part :=
  waitTick_inv (φ := State.part) (fun _ _ => rfl) (fun _ _ => rfl) (fun _ _ => rfl) (fun _ _ => rfl) (fun _ _ => rfl) rfl

end

/-! Requests of a mode (R26, R27). -/

/-- The MODE page is not secure: an access keeps no session alive. -/
theorem touchSession_of_not_sec {s : State} {r : Req} {p : Pg} (h : p.sec = false) : touchSession s r p = s := by
  simp [touchSession, h]

/-- The equation of MODE_REQ_WRITE, taken. -/
theorem exec_modeReqWrite_of_taken {s : State} {r : Req} {d : Nat} (h : Taken s r (pgMode d) Off.MODE_REQ) (v : Word) :
    exec (.modeReqWrite r d v) s = .next (modeReq d v s) := by
  change Host.Outcome.next (guardedWrite s r (pgMode d) Off.MODE_REQ (modeReq d v)) = _
  rw [guardedWrite_of_taken h, touchSession_of_not_sec rfl]

/-- The equation of MODE_LEAD_WRITE, taken. -/
theorem exec_modeLeadWrite_of_taken {s : State} {r : Req} {d : Nat} (h : Taken s r (pgMode d) Off.MODE_LEAD) (v : Word) :
    exec (.modeLeadWrite r d v) s = .next (modeLeadSet d v s) := by
  rw [exec_modeLeadWrite, guardedWrite_of_taken h, touchSession_of_not_sec rfl]

/-- The saving of the Assay tables that a DORMANT request begins changes no MODE page and not the part's record. -/
theorem saveAll_mode (l : List Nat) (s : State) (o : Nat) :
    rd (each l s fun s d => if saveState s d = 0 then setSave s d 1 else s) (pgMode 0) o = rd s (pgMode 0) o ∧
      (each l s fun s d => if saveState s d = 0 then setSave s d 1 else s).pkg = s.pkg := by
  constructor
  · exact (each_keeps (q := pgMode 0) (.refl _ _) fun t x h =>
      ite_keeps (setSave_keeps (Kind.apart .mode .assay rfl) h) h).regs o
  · exact each_inv (φ := State.pkg) rfl fun t x h => ite_inv (setSave_inv (fun _ _ => rfl) h) h

/-- An accepted request: TRANSITION, RESULT, the switch tick and the mode to come (R27). -/
theorem modeAccept_spec (s : State) (code : Nat) :
    rb (modeAccept s code) (pgMode 0) Off.MODE_CUR 8 = true ∧ rf (modeAccept s code) (pgMode 0) Off.MODE_STAT 0 8 = 1 ∧
      rf (modeAccept s code) (pgMode 0) Off.MODE_STAT 8 3 = rf s (pgMode 0) Off.MODE_STAT 8 3 ∧
      (modeAccept s code).pkg.nextMode = code ∧
      rd48 (modeAccept s code) (pgMode 0) Off.MODE_SW_TS_L = (now s 0 + modeLead s code) % 2 ^ 48 := by
  have key (t : State) (ht : ∀ o, rd t (pgMode 0) o = rd (wr48 (wf (wb s (pgMode 0) Off.MODE_CUR 8 true) (pgMode 0)
      Off.MODE_STAT 0 8 1) (pgMode 0) Off.MODE_SW_TS_L ((now s 0 + modeLead s code) % tickMod)) (pgMode 0) o)
      (hn : t.pkg.nextMode = code) :
      rb t (pgMode 0) Off.MODE_CUR 8 = true ∧ rf t (pgMode 0) Off.MODE_STAT 0 8 = 1 ∧
        rf t (pgMode 0) Off.MODE_STAT 8 3 = rf s (pgMode 0) Off.MODE_STAT 8 3 ∧ t.pkg.nextMode = code ∧
        rd48 t (pgMode 0) Off.MODE_SW_TS_L = (now s 0 + modeLead s code) % 2 ^ 48 := by
    refine ⟨?_, ?_, ?_, hn, ?_⟩
    · rw [rb, ht]; simp
    · rw [rf, ht]; simp
    · rw [rf, ht]; simp [rf]
    · have hpair := rd48_wr48 (wf (wb s (pgMode 0) Off.MODE_CUR 8 true) (pgMode 0) Off.MODE_STAT 0 8 1) (pgMode 0)
        Off.MODE_SW_TS_L ((now s 0 + modeLead s code) % tickMod)
      rw [rd48, rdN, rdN, ht, ht]
      rw [rd48, rdN, rdN] at hpair
      rw [hpair, tickMod, Nat.mod_mod]
  unfold modeAccept
  split
  · exact key _ (fun o => (saveAll_mode ..).1) (congrArg PkgSt.nextMode (saveAll_mode _ _ 0).2)
  · exact key _ (fun _ => rfl) rfl

/-- The state in which a request is judged shows its code, and is as before in everything that the checks read. -/
theorem modeReq_code {s : State} {v : Word} (h : modeVerdict s (fld v 0 3) = none) :
    modeReq 0 v s = modeAccept (wf (wf s (pgMode 0) Off.MODE_REQ 0 3 (fld v 0 3)) (pgMode 0) Off.MODE_STAT 8 3 (fld v 0 3))
      (fld v 0 3) := by
  simp only [modeReq, ne_eq, not_true_eq_false, if_false, h]

/-- A refused request shows its code and counts (R26). -/
theorem modeReq_refused {s : State} {v : Word} {n : Nat} (h : modeVerdict s (fld v 0 3) = some n) (hn : n < 256) :
    rf (modeReq 0 v s) (pgMode 0) Off.MODE_STAT 0 8 = n ∧ rf (modeReq 0 v s) (pgMode 0) Off.MODE_STAT 8 3 = fld v 0 3 ∧
      rd (modeReq 0 v s) (pgMode 0) Off.MODE_REFUSED = inc24 (rd s (pgMode 0) Off.MODE_REFUSED) ∧
      rd (modeReq 0 v s) (pgMode 0) Off.MODE_CUR = rd s (pgMode 0) Off.MODE_CUR ∧
      (modeReq 0 v s).pkg.nextMode = s.pkg.nextMode ∧
      rd48 (modeReq 0 v s) (pgMode 0) Off.MODE_SW_TS_L = rd48 s (pgMode 0) Off.MODE_SW_TS_L := by
  have hlt : fld v 0 3 < 2 ^ 3 := fld_lt v 0 3
  have hrd (o : Nat) : rd (modeReq 0 v s) (pgMode 0) o = rd (raise (count (wf (wf (wf s (pgMode 0) Off.MODE_REQ 0 3
      (fld v 0 3)) (pgMode 0) Off.MODE_STAT 8 3 (fld v 0 3)) (pgMode 0) Off.MODE_STAT 0 8 n) (pgMode 0) Off.MODE_REFUSED)
      (pgMode 0) 1) (pgMode 0) o := by
    simp only [modeReq, ne_eq, not_true_eq_false, if_false, h]
    rfl
  refine ⟨?_, ?_, ?_, ?_, ?_, ?_⟩
  · rw [rf, hrd]; simp; omega
  · rw [rf, hrd]; simp; omega
  · rw [hrd]; simp
  · rw [hrd]; simp
  · simp only [modeReq, ne_eq, not_true_eq_false, if_false, h]
    exact congrArg PkgSt.nextMode (raise_inv (φ := State.pkg) (fun _ _ => rfl) (fun _ _ => rfl) (fun _ _ => rfl) rfl)
  · rw [rd48, rdN, rdN, hrd, hrd]; simp [rd48, rdN]

/-- A request that passes every check (R26). -/
theorem modeVerdict_none {s : State} {code : Nat} (htr : inTransition s = false)
    (hal : bit (rd s (pgMode 0) Off.MODE_ALLOWED) code = true) (hrate : ∀ c ∈ activeRates s, c ≤ modeMax code)
    (hact : modeMax code = 0 → activeRates s = []) : modeVerdict s code = none := by
  have h2 : ¬ (modeMax code = 0 ∧ activeRates s ≠ []) := fun h => h.2 (hact h.1)
  have h3 : ((activeRates s).any fun r => decide (modeMax code < r)) = false := by
    rw [List.any_eq_false]
    exact fun c hc => by simpa using hrate c hc
  rw [modeVerdict, if_neg (by simp [htr]), if_neg (by simp [hal]), if_neg h2, if_neg (by simp [h3])]

/-- The code of a refused request is that of the first check that fails (R26). -/
theorem modeVerdict_some {s : State} {code n : Nat}
    (hn : n = (if inTransition s then 0x10 else if !bit (rd s (pgMode 0) Off.MODE_ALLOWED) code then 0x11
      else if modeMax code = 0 ∧ activeRates s ≠ [] then 0x12
      else if ∃ c ∈ activeRates s, modeMax code < c then 0x13 else 0)) (h0 : n ≠ 0) :
    modeVerdict s code = some n ∧ n < 256 := by
  have hany : ((activeRates s).any fun r => decide (modeMax code < r)) = true ↔ ∃ c ∈ activeRates s, modeMax code < c := by
    simp
  unfold modeVerdict
  simp only [hany]
  split_ifs at hn ⊢ <;> first | exact absurd hn h0 | exact ⟨hn ▸ rfl, hn ▸ by decide⟩

/-- The code that a request shows changes nothing of its lead. -/
theorem modeLead_write (s : State) (c n : Nat) :
    modeLead (wf (wf s (pgMode 0) Off.MODE_REQ 0 3 c) (pgMode 0) Off.MODE_STAT 8 3 c) n = modeLead s n := by
  have hlead : rf (wf (wf s (pgMode 0) Off.MODE_REQ 0 3 c) (pgMode 0) Off.MODE_STAT 8 3 c) (pgMode 0) Off.MODE_LEAD 0 16 =
      rf s (pgMode 0) Off.MODE_LEAD 0 16 := by simp
  have hmode : modeOf (wf (wf s (pgMode 0) Off.MODE_REQ 0 3 c) (pgMode 0) Off.MODE_STAT 8 3 c) 0 = modeOf s 0 := by
    simp [modeOf]
  simp only [modeLead]
  rw [hlead, hmode]

/-- A write of the MODE page of another die than die 0 latches event 3 there and is ignored (R30). -/
theorem modeNotPrimary {s : State} {d : Nat} (hd : 0 < d) (hp : present s (pgMode d) = true) :
    rb (raise s (pgMode d) 3) (pgMode d) Off.EVT_LAT 3 = true ∧
      rd (raise s (pgMode d) 3) (pgMode 0) = rd s (pgMode 0) := by
  have hne : pgMode d ≠ pgMode 0 := fun h => by cases h; omega
  exact ⟨rb_raise_same _ _ _ hp (by decide), funext fun o => rd_raise_page _ _ _ _ _ hne⟩

/-- Settles O9: the request is judged, then accepted or refused. -/
theorem modeRequests : Obligations.ModeRequests := by
  refine ⟨fun s r v h htr hal hrate hact => ?_, fun s r v n h hn h0 => ?_, fun s r v h => ?_, fun s r d v hd h => ?_,
    fun s r d v hd h => ?_⟩
  · have hlt : fld v 0 3 < 2 ^ 3 := fld_lt v 0 3
    obtain ⟨htrans, hres, hcode, hnext, hts⟩ := modeAccept_spec
      (wf (wf s (pgMode 0) Off.MODE_REQ 0 3 (fld v 0 3)) (pgMode 0) Off.MODE_STAT 8 3 (fld v 0 3)) (fld v 0 3)
    refine ⟨_, exec_modeReqWrite_of_taken h v, ?_⟩
    rw [modeReq_code (modeVerdict_none htr hal hrate hact)]
    refine ⟨htrans, hres, ?_, hnext, ?_⟩
    · rw [hcode, rf_wf_same _ _ _ _ _ _ (by decide), Nat.mod_eq_of_lt hlt]
    · rw [hts, modeLead_write]
      split
      next h0 => rw [modeLead, if_pos h0]; rfl
      next => rfl
  · obtain ⟨hv, hlt⟩ := modeVerdict_some hn h0
    exact ⟨_, exec_modeReqWrite_of_taken h v, modeReq_refused hv hlt⟩
  · rw [exec_modeLeadWrite_of_taken h, modeLeadSet, if_neg (by decide)]
  · refine ⟨_, exec_modeReqWrite_of_taken h v, ?_⟩
    rw [modeReq, if_pos (Nat.pos_iff_ne_zero.1 hd)]
    exact modeNotPrimary hd h.present
  · refine ⟨_, exec_modeLeadWrite_of_taken h v, ?_⟩
    rw [modeLeadSet, if_pos (Nat.pos_iff_ne_zero.1 hd)]
    exact modeNotPrimary hd h.present

/-! The switch (R27, R33). -/

/-- What of a MODE page a switch of another die, and all that follows a switch, leave. -/
theorem stbyExit_mode (s : State) (d e o : Nat) : rd (stbyExit s d) (pgMode e) o = rd s (pgMode e) o :=
  (stbyExit_keeps (q₀ := pgMode e) (Kind.apart .mode .timebase rfl) (Kind.apart .mode .fence rfl) (Kind.apart .mode .memctl rfl)
    (Kind.apart .mode .chuteGlobal rfl) (Kind.apart .mode .mbox rfl) (Kind.apart .mode .hp rfl) (Kind.apart .mode .ax rfl) (Kind.apart .mode .seam rfl)
    (Kind.apart .mode .echo rfl) (Kind.apart .mode .ctxCtrl rfl) (Kind.apart .mode .chute rfl) (.refl _ _)).regs o

theorem stbyEnter_mode (s : State) (d e o : Nat) : rd (stbyEnter s d) (pgMode e) o = rd s (pgMode e) o :=
  (stbyEnter_keeps (q₀ := pgMode e) (Kind.apart .mode .timebase rfl) (Kind.apart .mode .enc rfl) (Kind.apart .mode .ax rfl) (.refl _ _)).regs o

theorem portsFollow_mode (s : State) (d e o : Nat) : rd (portsFollow s d) (pgMode e) o = rd s (pgMode e) o :=
  (portsFollow_keeps (q₀ := pgMode e) (Kind.apart .mode .hp rfl) (.refl _ _)).regs o

/-- The registers of the MODE pages after a die took a mode: its own `MODE_CUR` and the event of the change (R27). -/
theorem rd_dieMode (s : State) (d code e o : Nat) (ho : o ≠ Off.EVT_LAT) : rd (dieMode s d code) (pgMode e) o =
    rd (wf (wf (wb s (pgMode d) Off.MODE_CUR 8 (decide (d ≠ 0) && inTransition s)) (pgMode d) Off.MODE_CUR 4 3 (modeOf s d))
      (pgMode d) Off.MODE_CUR 0 3 code) (pgMode e) o := by
  have hbase : ∀ q, rd (if modeOf s d ≠ 1 ∧ code = 1 then stbyEnter s d else s) (pgMode q) o = rd s (pgMode q) o := by
    intro q; split
    · exact stbyEnter_mode ..
    · rfl
  have hkeep (t : State) : rd (portsFollow (sweepBreak (asModeChange (raise t (pgMode d) 0) d) d fun _ => decide (code ≠ 3)) d)
      (pgMode e) o = rd t (pgMode e) o := by
    rw [portsFollow_mode]
    exact ((sweepBreak_keeps (asModeChange_keeps (.refl (pgMode e) _))).regs o).trans (rd_raise_off _ _ _ _ _ ho)
  have hend : rd (dieMode s d code) (pgMode e) o =
      rd (wf (wf (wb (if modeOf s d ≠ 1 ∧ code = 1 then stbyEnter s d else s) (pgMode d) Off.MODE_CUR 8
        (decide (d ≠ 0) && inTransition s)) (pgMode d) Off.MODE_CUR 4 3 (modeOf s d)) (pgMode d) Off.MODE_CUR 0 3 code)
        (pgMode e) o := by
    simp only [dieMode]
    split
    · rw [stbyExit_mode, hkeep]
    · rw [hkeep]
  rw [hend]
  by_cases hc : (pgMode d, Off.MODE_CUR) = (pgMode e, o)
  · cases hc
    simp [hbase]
  · simp only [wf_eq, wb_eq, rd_wr_other _ _ _ _ _ _ hc, hbase]

/-- A property that every element's turn keeps lasts. -/
theorem each_pres {α : Type} {l : List α} {f : State → α → State} {P : State → Prop} {s : State} (hs : P s)
    (hf : ∀ t, ∀ x ∈ l, P t → P (f t x)) : P (each l s f) := by
  unfold each
  induction l generalizing s with
  | nil => exact hs
  | cons x r ih => exact ih (hf s x List.mem_cons_self hs) fun t y hy => hf t y (List.mem_cons_of_mem _ hy)

/-- A die's switch leaves the MODE page of another die. -/
theorem rd_dieMode_other {s : State} {d e code o : Nat} (he : d ≠ e) (ho : o ≠ Off.EVT_LAT) :
    rd (dieMode s d code) (pgMode e) o = rd s (pgMode e) o := by
  have hne : pgMode d ≠ pgMode e := fun h => he (by cases h; rfl)
  rw [rd_dieMode _ _ _ _ _ ho, rd_wf_page _ _ _ _ _ _ _ _ hne, rd_wf_page _ _ _ _ _ _ _ _ hne, rd_wb_page _ _ _ _ _ _ _ hne]

/-- The mode that a die shows after its switch: the new one, the one it leaves, and no request but one that waits on die 0. -/
theorem dieMode_cur {s : State} {d code : Nat} (hcode : code < 8) :
    rf (dieMode s d code) (pgMode d) Off.MODE_CUR 0 3 = code ∧ rf (dieMode s d code) (pgMode d) Off.MODE_CUR 4 3 = modeOf s d ∧
      rb (dieMode s d code) (pgMode d) Off.MODE_CUR 8 = (decide (d ≠ 0) && inTransition s) := by
  have hold : modeOf s d < 2 ^ 3 := fld_lt _ 0 3
  simp only [rf, rb, rd_dieMode s d code d Off.MODE_CUR (by decide), rd_wf_same, rd_wb_same]
  refine ⟨?_, ?_, ?_⟩
  · rw [fld_setFld _ _ _ _ (by decide)]
    exact Nat.mod_eq_of_lt hcode
  · rw [fld_setFld_apart _ _ _ _ _ _ (by decide), fld_setFld _ _ _ _ (by decide), Nat.mod_eq_of_lt hold]
  · rw [bit_setFld_apart _ _ _ _ _ (by decide), bit_setFld_apart _ _ _ _ _ (by decide), bit_setBit _ _ _ (by decide)]

/-- Die 0 is never isolated (R410). -/
theorem isolated_zero (s : State) : isolated s 0 = false := rfl

/-- The dies that a switch changes, die 0 first. -/
theorem switched_eq (s : State) (h : 0 < s.part.dies) :
    ∃ l, ((dieList s).filter fun d => !isolated s d) = 0 :: l ∧ l.Nodup ∧ 0 ∉ l ∧
      ∀ d < s.part.dies, d ≠ 0 → isolated s d = false → d ∈ l := by
  obtain ⟨n, hn⟩ := Nat.exists_eq_succ_of_ne_zero h.ne'
  have hnd : ((dieList s).filter fun d => !isolated s d).Nodup := List.nodup_range.filter _
  have hmem (d : Nat) (hd : d < s.part.dies) (hi : isolated s d = false) :
      d ∈ (dieList s).filter fun d => !isolated s d := List.mem_filter.2 ⟨List.mem_range.2 hd, by simp [hi]⟩
  have hcons : ∃ l, ((dieList s).filter fun d => !isolated s d) = 0 :: l :=
    ⟨_, by rw [dieList, hn, List.range_succ_eq_map, List.filter_cons, if_pos (by rw [isolated_zero]; rfl)]⟩
  obtain ⟨l, hl⟩ := hcons
  rw [hl] at hnd hmem
  rw [List.nodup_cons] at hnd
  exact ⟨l, hl, hnd.2, hnd.1, fun d hd h0 hi => (List.mem_cons.1 (hmem d hd hi)).resolve_left h0⟩

/-- The dies take a mode one after another: RESULT stays, and each die that changes shows the new mode and the one it left
(R27, R33). -/
theorem dieModes_spec {s u : State} {code : Nat} (hcode : code < 8) (hstat : rf u (pgMode 0) Off.MODE_STAT 0 8 = 2)
    (hcur : ∀ e, rd u (pgMode e) Off.MODE_CUR = rd s (pgMode e) Off.MODE_CUR) :
    ∀ t, t = (each ((dieList s).filter fun d => !isolated s d) u fun s d => dieMode s d code) →
      rf t (pgMode 0) Off.MODE_STAT 0 8 = 2 ∧
        ∀ d < s.part.dies, isolated s d = false → rf t (pgMode d) Off.MODE_CUR 0 3 = code ∧
          rf t (pgMode d) Off.MODE_CUR 4 3 = modeOf s d ∧ rb t (pgMode d) Off.MODE_CUR 8 = false := by
  rintro _ rfl
  refine ⟨?_, fun d hd hi => ?_⟩
  · refine each_pres (P := fun t => rf t (pgMode 0) Off.MODE_STAT 0 8 = 2) hstat fun t e _ ht => ?_
    rw [rf, rd_dieMode _ _ _ _ _ (by decide), rd_wf_off _ _ _ _ _ _ _ _ (by decide), rd_wf_off _ _ _ _ _ _ _ _ (by decide),
      rd_wb_off _ _ _ _ _ _ _ (by decide)]
    exact ht
  · obtain ⟨l, hl, hnd, h0, hmem⟩ := switched_eq s (Nat.zero_lt_of_lt hd)
    have hstay (v : Word) (t : State) (e : Nat) (he : e ≠ d) (ht : rd t (pgMode d) Off.MODE_CUR = v) :
        rd (dieMode t e code) (pgMode d) Off.MODE_CUR = v := (rd_dieMode_other he (by decide)).trans ht
    have hfirst : each ((dieList s).filter fun d => !isolated s d) u (fun s' d => dieMode s' d code) =
        each l (dieMode u 0 code) fun s' d => dieMode s' d code := by rw [hl]; rfl
    rw [hfirst]
    obtain ⟨hmode, hprev, htrans⟩ := dieMode_cur (s := u) (d := 0) hcode
    by_cases hd0 : d = 0
    · subst hd0
      have hlast := each_pres (l := l) (f := fun s' d => dieMode s' d code)
        (P := fun t => rd t (pgMode 0) Off.MODE_CUR = rd (dieMode u 0 code) (pgMode 0) Off.MODE_CUR) rfl
        fun t e he ht => hstay _ t e (fun h => h0 (h ▸ he)) ht
      simp only [rf, rb, hlast]
      exact ⟨hmode, hprev.trans (by rw [modeOf, rf, hcur, modeOf, rf]), htrans⟩
    · refine each_once (P := fun t => inTransition t = false ∧ rd t (pgMode d) Off.MODE_CUR = rd s (pgMode d) Off.MODE_CUR)
        (Q := fun t => rf t (pgMode d) Off.MODE_CUR 0 3 = code ∧ rf t (pgMode d) Off.MODE_CUR 4 3 = modeOf s d ∧
          rb t (pgMode d) Off.MODE_CUR 8 = false) (hmem d hd hd0 hi) hnd ?_ ?_ ?_ ?_
      · exact ⟨htrans, (rd_dieMode_other (Ne.symm hd0) (by decide)).trans (hcur d)⟩
      · rintro t e he ⟨htr, hcurt⟩
        refine ⟨?_, hstay _ t e he hcurt⟩
        by_cases he0 : e = 0
        · subst he0
          exact (dieMode_cur hcode).2.2
        · rwa [inTransition, rb, rd_dieMode_other he0 (by decide)]
      · rintro t ⟨htr, hcurt⟩
        obtain ⟨hm, hp, ht⟩ := dieMode_cur (s := t) (d := d) hcode
        exact ⟨hm, hp.trans (by rw [modeOf, rf, hcurt, modeOf, rf]), by rw [ht, htr, Bool.and_false]⟩
      · rintro t e he ⟨hm, hp, ht⟩
        have hsame := rd_dieMode_other (s := t) (code := code) (o := Off.MODE_CUR) he (by decide)
        simp only [rf, rb, hsame]
        exact ⟨hm, hp, ht⟩

/-- The register after copies of several registers from another page. -/
theorem rd_copies (p q : Pg) (l : List Nat) (s : State) :
    (∀ o ∈ l, rd (each l s fun t o => wr t p o (rd s q o)) p o = rd s q o) ∧
      ∀ p' o, p' ≠ p ∨ o ∉ l → rd (each l s fun t o => wr t p o (rd s q o)) p' o = rd s p' o := by
  have hgen (l : List Nat) (u : State) :
      (∀ o ∈ l, rd (each l u fun t o => wr t p o (rd s q o)) p o = rd s q o) ∧
        ∀ p' o, p' ≠ p ∨ o ∉ l → rd (each l u fun t o => wr t p o (rd s q o)) p' o = rd u p' o := by
    induction l generalizing u with
    | nil => exact ⟨fun _ h => absurd h List.not_mem_nil, fun _ _ _ => rfl⟩
    | cons a l ih =>
      obtain ⟨hin, hout⟩ := ih (wr u p a (rd s q a))
      refine ⟨fun o ho => ?_, fun p' o ho => ?_⟩
      · by_cases hl : o ∈ l
        · exact hin o hl
        · obtain rfl := (List.mem_cons.1 ho).resolve_right hl
          exact (hout p o (.inr hl)).trans (rd_wr_same ..)
      · refine (hout p' o (ho.imp_right fun h hl => h (List.mem_cons_of_mem _ hl))).trans (rd_wr_other _ _ _ _ _ _ ?_)
        intro h
        cases h
        exact ho.elim (fun h => h rfl) fun h => h List.mem_cons_self
  exact hgen l s

/-- The mirrored registers are none of those that the events of a mirror change. -/
theorem modeMirrored_ne {o : Nat} (h : o ∈ modeMirrored) : o ≠ Off.EVT_LAT ∧ o ≠ Off.MODE_CUR := by
  revert o
  decide

/-- What MODE_MIRROR_ARRIVE leaves of the pages' registers but the events of the mirror's page (R30, R33). -/
theorem modeMirror_spec {s : State} {d : Nat} (hd : 0 < d) :
    (∀ o ∈ modeMirrored, rd (modeMirror s d) (pgMode d) o = rd s (pgMode 0) o) ∧
      rb (modeMirror s d) (pgMode d) Off.MODE_CUR 8 = inTransition s ∧ rd (modeMirror s d) (pgMode 0) = rd s (pgMode 0) := by
  have hne : pgMode d ≠ pgMode 0 := fun h => by cases h; omega
  obtain ⟨hin, hout⟩ := rd_copies (pgMode d) (pgMode 0) modeMirrored s
  generalize hu : (each modeMirrored s fun t o => wr t (pgMode d) o (rd s (pgMode 0) o)) = u at hin hout
  have hrd (p : Pg) (o : Nat) (h : p ≠ pgMode d ∨ o ≠ Off.EVT_LAT) : rd (modeMirror s d) p o =
      rd (wb (setDie u d { die u d with refSeen := s.pkg.refusals }) (pgMode d) Off.MODE_CUR 8 (inTransition s)) p o := by
    have hraise (t : State) (i : Nat) : rd (raise t (pgMode d) i) p o = rd t p o := by
      obtain h | h := h
      · exact rd_raise_page _ _ _ _ _ h.symm
      · exact rd_raise_off _ _ _ _ _ h
    simp only [modeMirror, hu, whenDo]
    split <;> split <;> simp only [hraise]
  refine ⟨fun o ho => ?_, ?_, funext fun o => ?_⟩
  · obtain ⟨hl, hc⟩ := modeMirrored_ne ho
    rw [hrd _ _ (.inr hl), rd_wb_off _ _ _ _ _ _ _ hc.symm, rd_setDie, hin o ho]
  · rw [rb, hrd _ _ (.inr (by decide)), rd_wb_same, bit_setBit _ _ _ (by decide)]
  · rw [hrd _ _ (.inl hne.symm), rd_wb_page _ _ _ _ _ _ _ hne, rd_setDie, hout _ _ (.inl hne.symm)]

/-- Waiting for a tick leaves which dies are isolated. -/
@[simp] theorem isolated_waitTick (s : State) (d : Nat) (t : Int) (e : Nat) :
    isolated (waitTick s d t) e = isolated s e := by
  simp [isolated, rb]

end Sys2Proof.Machine

namespace Sys2Proof.Proofs

open Sys2Proof.Machine

/-- Settles O10: the switch comes at its tick, a mirror copies registers, and the clocks settle at their time. -/
theorem modeSwitch : Obligations.ModeSwitch := by
  refine ⟨fun s htr hnext hcode _ => ?_, fun s d hd hlt => ?_, fun s hs => ?_⟩
  · have hexec : exec .modeChanged s = .next (Machine.modeSwitch (waitTick s 0 (rd48 s (pgMode 0) Off.MODE_SW_TS_L))) := by
      change execModeChanged s = _
      rw [execModeChanged, if_pos (by simp [htr, hnext])]
    refine ⟨_, hexec, ?_⟩
    generalize hw : waitTick s 0 (rd48 s (pgMode 0) Off.MODE_SW_TS_L) = w
    have hpkg : w.pkg.nextMode = s.pkg.nextMode := by rw [← hw, waitTick_pkg]
    have hpart : w.part = s.part := by rw [← hw, waitTick_part]
    have hiso (d : Nat) : isolated w d = isolated s d := by rw [← hw, isolated_waitTick]
    have hmode (d : Nat) : modeOf w d = modeOf s d := by rw [← hw, modeOf, rf, rd_waitTick _ (by decide), modeOf, rf]
    obtain ⟨hres, hdies⟩ := dieModes_spec (s := w) (u := { wf w (pgMode 0) Off.MODE_STAT 0 8 2 with
      pkg := { w.pkg with settleAt := w.clock + 64 } }) (hpkg ▸ hcode) (rf_wf_same w _ _ 0 8 2 (by decide))
      (fun e => rd_wf_off w _ _ _ _ 0 8 2 (by decide)) (Machine.modeSwitch w) rfl
    refine ⟨hres, fun d hd hi => ?_⟩
    obtain ⟨hnew, hold, htrans⟩ := hdies d (hpart ▸ hd) ((hiso d).trans hi)
    exact ⟨hnew.trans hpkg, hold.trans (hmode d), htrans⟩
  · refine ⟨_, ?_, modeMirror_spec hd⟩
    change Host.Outcome.next _ = _
    rw [if_pos ⟨hd, hlt⟩]
  · refine ⟨_, if_neg hs, rfl, ?_⟩
    change s.pkg.settleAt ≤ (waitClock s s.pkg.settleAt).clock
    rw [waitClock_clock]
    exact Nat.le_max_right ..

end Sys2Proof.Proofs

namespace Sys2Proof.Machine

/-! Register writes that are turned away (R39, R40, R42, R53, R383, R423). -/

section
variable {s : State} {r : Req} {p : Pg} {off : Nat} (hpow : powered s = true)
include hpow

/-- An aligned 32-bit write that is not poisoned is judged by the access checks. -/
theorem exec_registerWrite_aligned (hoff : off < 0x1000) (hal : off % 4 = 0) (v : Nat) :
    exec (.registerWrite r (.reg p off) ⟨4, true, false⟩ v) s =
      .next (guardedWrite s r p off (regEffect r p off (word v))) := by
  rw [exec_registerWrite_reg, if_pos hoff]
  simp [shapedWrite, hpow, hal, regWrite]

theorem guardedWrite_of_fenced (hv : verdict s r p off true = .fenced) (eff : State → State) :
    guardedWrite s r p off eff = fencedWrite s r p off := by
  simp [guardedWrite, hpow, hv]

theorem guardedWrite_of_busy (hv : verdict s r p off true = .busy) (eff : State → State) :
    guardedWrite s r p off eff = logErr s ⟨clsOn r p, r.rid⟩ p off true 2 := by
  simp [guardedWrite, hpow, hv]

theorem guardedWrite_of_denied (hv : verdict s r p off true = .denied) (eff : State → State) :
    guardedWrite s r p off eff = denyCount (logErr s ⟨clsOn r p, r.rid⟩ p off true 4) r p true false := by
  simp [guardedWrite, hpow, hv]

theorem guardedWrite_of_unsupported (hv : verdict s r p off true = .unsupported) (hhost : isHost r = true)
    (eff : State → State) : guardedWrite s r p off eff = unsupported s (barOf p) (barOff p off) true := by
  simp [guardedWrite, hpow, hv, noAnswer, hhost]

end

/-- A fenced write has its error logged, and a requester of the die gets an error response (R17, R40). -/
theorem fencedWrite_eq (s : State) (r : Req) (p : Pg) (off : Nat) : fencedWrite s r p off =
    { logErr s ⟨clsOn r p, r.rid⟩ p off true 3 with resp := if isHost r then s.resp else .error } := by
  have hresp : (logErr s ⟨clsOn r p, r.rid⟩ p off true 3).resp = s.resp :=
    Laws.logErr_inv (φ := State.resp) (fun _ _ => rfl) rfl
  simp only [fencedWrite]
  split
  · rw [← hresp]
  · rfl

/-- Logging an error writes the error registers of its page only. -/
theorem rd_logErr_other {s : State} {r : Req} {p q : Pg} {off o code : Nat} {write : Bool}
    (h : p ≠ q ∨ (Off.ERR_INFO ≠ o ∧ Off.ERR_ADDR ≠ o)) : rd (logErr s r p off write code) q o = rd s q o := by
  unfold logErr
  obtain h | ⟨hi, ha⟩ := h
  · split
    · exact rd_wb_page _ _ _ _ _ _ _ h
    · rw [rd_wr_page _ _ _ _ _ _ h, rd_wr_page _ _ _ _ _ _ h]
  · split
    · exact rd_wb_off _ _ _ _ _ _ _ hi
    · rw [rd_wr_off _ _ _ _ _ _ ha, rd_wr_off _ _ _ _ _ _ hi]

/-- A further error sets OVF and keeps the first one's code (R39). -/
theorem errInfo_logErr_again {s : State} {p : Pg} (h : rb s p Off.ERR_INFO 23 = true) (r : Req) (off : Nat) (write : Bool)
    (code : Nat) : rf (logErr s r p off write code) p Off.ERR_INFO 8 8 = rf s p Off.ERR_INFO 8 8 ∧
      rb (logErr s r p off write code) p Off.ERR_INFO 22 = true := by
  rw [logErr, if_pos h]
  exact ⟨rf_wb_apart _ _ _ _ _ _ _ (by decide), rb_wb_same _ _ _ _ _ (by decide)⟩

/-- A denial counts, and writes the GUARD page only (R383). -/
theorem denyCount_spec (s : State) (r : Req) (p : Pg) (write mem : Bool) :
    rd (denyCount s r p write mem) (pgGuard p.die) Off.GD_DENIED = inc24 (rd s (pgGuard p.die) Off.GD_DENIED) ∧
      ∀ q, q ≠ pgGuard p.die → ∀ o, rd (denyCount s r p write mem) q o = rd s q o := by
  unfold denyCount
  refine ⟨by simp, fun q hq o => ?_⟩
  rw [rd_raise_page _ _ _ _ _ hq.symm, rd_wr_page _ _ _ _ _ _ hq.symm, rd_count_page _ _ _ _ _ hq.symm]

/-- An access that nothing answers counts, and writes the PCIE page only (R53, R424). -/
theorem unsupported_spec (s : State) (bar off : Nat) (write : Bool) :
    rd (unsupported s bar off write) pgPcie Off.CNT_UR = inc24 (rd s pgPcie Off.CNT_UR) ∧
      ∀ q, q ≠ pgPcie → ∀ o, rd (unsupported s bar off write) q o = rd s q o := by
  have hrd (q : Pg) (o : Nat) : rd (unsupported s bar off write) q o =
      rd (raise (wr (wr (count s pgPcie Off.CNT_UR) pgPcie Off.PC_UR_OFF_L (lo24 off)) pgPcie Off.PC_UR_OFF_H
        (word (bar * 2 ^ 13 + b2n write * 2 ^ 12 + off / 2 ^ 24 % 16))) pgPcie 3) q o := rfl
  refine ⟨by rw [hrd]; simp, fun q hq o => ?_⟩
  rw [hrd, rd_raise_page _ _ _ _ _ hq.symm, rd_wr_page _ _ _ _ _ _ hq.symm, rd_wr_page _ _ _ _ _ _ hq.symm,
    rd_count_page _ _ _ _ _ hq.symm]

/-- Settles O12: one equation for each verdict, and what an error logged leaves in `ERR_INFO`. -/
theorem refusedWrites : Obligations.RefusedWrites := by
  refine ⟨fun s r p off v b hpow => ?_, fun s r p off v hoff hpow => ⟨?_, ?_⟩, fun s r p off v hoff hal hpow => ?_,
    fun s r p off n hn => ⟨fun h => ?_, fun h => errInfo_logErr_again h ..⟩⟩
  · rw [exec_registerWrite_reg]
    simp [shapedWrite, hpow]
  · rw [exec_registerWrite_reg, if_pos hoff]
    simp [shapedWrite, hpow]
  · simp [poisonRx]
  · have heq := exec_registerWrite_aligned (r := r) (p := p) hpow hoff hal v
    refine ⟨fun hv => ?_, fun hv => ?_, fun hv => ?_, fun hv => ?_, fun hv => ⟨_, heq, ?_⟩, fun hv hhost => ⟨_, heq, ?_⟩⟩
    · rw [heq, guardedWrite_of_absent hpow hv]
    · rw [heq, guardedWrite_of_fenced hpow hv, fencedWrite_eq]
    · rw [heq, guardedWrite_of_busy hpow hv]
    · rw [heq, guardedWrite_of_locked hpow hv]
    · rw [guardedWrite_of_denied hpow hv]
      obtain ⟨hcount, hother⟩ := denyCount_spec (logErr s ⟨clsOn r p, r.rid⟩ p off true 4) r p true false
      refine ⟨hcount.trans ?_, fun q hqp hqg o => (hother q hqg o).trans (rd_logErr_other (.inl hqp.symm))⟩
      rw [rd_logErr_other (.inr (by decide))]
    · rw [guardedWrite_of_unsupported hpow hv hhost]
      exact unsupported_spec ..
  · exact (errInfo_logErr_first h r off true hn).symm

end Sys2Proof.Machine

namespace Sys2Proof.Machine

/-! Plain writes of a register by its row (R9, R36, R47, R50). -/

/-- The first write of a register in a tick merges with what it held. -/
theorem tickWrite_first {s : State} (r : Req) (k : RegKey) (row : RegRow) (old v : Word)
    (hfirst : ∀ x ∈ s.ticks, x.clock ≠ s.clock) :
    tickWrite s r k row old v = (merge row old v, { s with ticks := (tickWrite s r k row old v).2.ticks }) := by
  have hnone : (s.ticks.find? fun t => decide (t.reg = k) && decide (t.clock = s.clock) && decide (t.after = old)) = none := by
    rw [List.find?_eq_none]
    intro x hx
    simp [hfirst x hx]
  have hseen : tickSeen s k old = (old, []) := by rw [tickSeen, hnone]
  unfold tickWrite
  simp only [hseen, tickInsert, List.foldl_cons, List.foldl_nil]

theorem rowWrite_rw {s : State} {r : Req} {p : Pg} {off : Nat} {row : RegRow} (v : Word) (hacc : row.acc = .rw)
    (hup : row.upper = false) (hfirst : ∀ x ∈ s.ticks, x.clock ≠ s.clock) :
    ∃ n, rowWrite s r p off row v =
      transferUppers (wr { s with ticks := n } p off (merge row (rd s p off) v)) p off row.ups false := by
  refine ⟨(tickWrite s r (p, off) row (rd s p off) v).2.ticks, ?_⟩
  rw [rowWrite, hacc]
  simp only [hup, Bool.false_eq_true, if_false]
  rw [tickWrite_first r (p, off) row _ v hfirst]

theorem rowWrite_rws {s : State} {r : Req} {p : Pg} {off : Nat} {row : RegRow} (v : Word) (hacc : row.acc = .rws)
    (hup : row.upper = false) (hgo : goSet s p = false) (hfirst : ∀ x ∈ s.ticks, x.clock ≠ s.clock) :
    ∃ n, rowWrite s r p off row v =
      transferUppers (wrShadow { s with ticks := n } p off (merge row (rdShadow s p off) v)) p off row.ups true := by
  refine ⟨(tickWrite s r (p, off) row (rdShadow s p off) v).2.ticks, ?_⟩
  rw [rowWrite, hacc]
  simp only [hup, hgo, Bool.false_eq_true, if_false]
  rw [tickWrite_first r (p, off) row _ v hfirst]

theorem rowWrite_rws_busy {s : State} {r : Req} {p : Pg} {off : Nat} {row : RegRow} (v : Word) (hacc : row.acc = .rws)
    (hgo : goSet s p = true) : rowWrite s r p off row v = logErr s r p off true 5 := by
  rw [rowWrite, hacc]
  simp only [hgo, if_true]

theorem rdShadow_wrShadow_same (s : State) (p : Pg) (o : Nat) (v : Word) : rdShadow (wrShadow s p o v) p o = v := by
  simp [rdShadow, wrShadow]

theorem rdShadow_wrShadow_other (s : State) (p : Pg) {o o' : Nat} (v : Word) (h : o ≠ o') :
    rdShadow (wrShadow s p o v) p o' = rdShadow s p o' := by
  simp [rdShadow, wrShadow, Tbl.get_put, h]

theorem transferUppers_zero (s : State) (p : Pg) (off : Nat) (shadow : Bool) : transferUppers s p off 0 shadow = s := rfl

/-- The transfer of one upper part. -/
def upperStep (p : Pg) (off : Nat) (shadow : Bool) (s : State) (i : Nat) : State :=
  let o := off + 4 * (i + 1)
  match regRow p o with
  | none => s
  | some row =>
    if shadow then wrShadow s p o (merge row (rdShadow s p o) (heldUpper s p o))
    else wr s p o (merge row (rd s p o) (heldUpper s p o))

theorem transferUppers_eq (s : State) (p : Pg) (off n : Nat) (shadow : Bool) :
    transferUppers s p off n shadow = each (List.range n) s (upperStep p off shadow) := rfl

theorem heldUpper_upperStep (s : State) (p : Pg) (off : Nat) (shadow : Bool) (i o : Nat) :
    heldUpper (upperStep p off shadow s i) p o = heldUpper s p o := by
  unfold upperStep heldUpper
  dsimp only
  split
  · rfl
  · split <;> simp

theorem rd_upperStep_other (s : State) {p : Pg} {off i o : Nat} (h : o ≠ off + 4 * (i + 1)) :
    rd (upperStep p off false s i) p o = rd s p o := by
  unfold upperStep
  dsimp only
  split
  · rfl
  · simp [h.symm]

theorem rdShadow_upperStep_other (s : State) {p : Pg} {off i o : Nat} (h : o ≠ off + 4 * (i + 1)) :
    rdShadow (upperStep p off true s i) p o = rdShadow s p o := by
  unfold upperStep
  dsimp only
  split
  · rfl
  · simp [rdShadow, wrShadow, Tbl.get_put, h.symm]

section
variable {s : State} {p : Pg} {off n : Nat}

theorem rd_transferUppers_low : rd (transferUppers s p off n false) p off = rd s p off := by
  rw [transferUppers_eq]
  exact each_pres (P := fun t => rd t p off = rd s p off) rfl fun t i _ ht =>
    (rd_upperStep_other t (by omega)).trans ht

theorem rdShadow_transferUppers_low : rdShadow (transferUppers s p off n true) p off = rdShadow s p off := by
  rw [transferUppers_eq]
  exact each_pres (P := fun t => rdShadow t p off = rdShadow s p off) rfl fun t i _ ht =>
    (rdShadow_upperStep_other t (by omega)).trans ht

/-- The transfer gives each upper part its holding copy, in the writable bits. -/
theorem rd_transferUppers {i : Nat} {rowH : RegRow} (hi : i < n) (hrow : regRow p (off + 4 * (i + 1)) = some rowH) :
    rd (transferUppers s p off n false) p (off + 4 * (i + 1)) =
      merge rowH (rd s p (off + 4 * (i + 1))) (heldUpper s p (off + 4 * (i + 1))) := by
  rw [transferUppers_eq]
  refine each_once (x := i)
    (P := fun t => rd t p (off + 4 * (i + 1)) = rd s p (off + 4 * (i + 1)) ∧
      heldUpper t p (off + 4 * (i + 1)) = heldUpper s p (off + 4 * (i + 1)))
    (Q := fun t => rd t p (off + 4 * (i + 1)) =
      merge rowH (rd s p (off + 4 * (i + 1))) (heldUpper s p (off + 4 * (i + 1))))
    (List.mem_range.2 hi) List.nodup_range ⟨rfl, rfl⟩ ?_ ?_ ?_
  · intro t y hy ht
    exact ⟨(rd_upperStep_other t (by omega)).trans ht.1, (heldUpper_upperStep ..).trans ht.2⟩
  · intro t ht
    simp [upperStep, hrow, ht.1, ht.2]
  · intro t y hy ht
    exact (rd_upperStep_other t (by omega)).trans ht

theorem rdShadow_transferUppers {i : Nat} {rowH : RegRow} (hi : i < n) (hrow : regRow p (off + 4 * (i + 1)) = some rowH) :
    rdShadow (transferUppers s p off n true) p (off + 4 * (i + 1)) =
      merge rowH (rdShadow s p (off + 4 * (i + 1))) (heldUpper s p (off + 4 * (i + 1))) := by
  rw [transferUppers_eq]
  refine each_once (x := i)
    (P := fun t => rdShadow t p (off + 4 * (i + 1)) = rdShadow s p (off + 4 * (i + 1)) ∧
      heldUpper t p (off + 4 * (i + 1)) = heldUpper s p (off + 4 * (i + 1)))
    (Q := fun t => rdShadow t p (off + 4 * (i + 1)) =
      merge rowH (rdShadow s p (off + 4 * (i + 1))) (heldUpper s p (off + 4 * (i + 1))))
    (List.mem_range.2 hi) List.nodup_range ⟨rfl, rfl⟩ ?_ ?_ ?_
  · intro t y hy ht
    exact ⟨(rdShadow_upperStep_other t (by omega)).trans ht.1, (heldUpper_upperStep ..).trans ht.2⟩
  · intro t ht
    simp [upperStep, hrow, ht.1, ht.2, rdShadow_wrShadow_same]
  · intro t y hy ht
    exact (rdShadow_upperStep_other t (by omega)).trans ht

end

/-! Which block registers are plain, and the wide values of the register tables. -/

/-- A row found holds the offset in one of its places. -/
theorem findRow_place {rows : List RegRow} {o : Nat} {row : RegRow} (h : findRow rows o = some row) :
    ∃ i < row.count, o = row.off + i * row.stride := by
  induction rows with
  | nil => cases h
  | cons a rows ih =>
    unfold findRow at h
    split at h
    case isTrue hin =>
      cases h
      obtain ⟨hlo, hhi, hmod⟩ := hin
      have hdiv : (o - row.off) / row.stride * row.stride = o - row.off := Nat.div_mul_cancel (Nat.dvd_of_mod_eq_zero hmod)
      refine ⟨(o - row.off) / row.stride, ?_, by omega⟩
      exact Nat.lt_of_mul_lt_mul_right (a := row.stride) (by omega)
    case isFalse => exact ih h

/-- The offsets of the wide values that are written, by the kind of page. -/
def wideOffs : Kind → List Nat
  | .die => [Off.PWR_ALARM_L]
  | .timebase => [Off.SEC_SET_L]
  | .hoistGlobal => [0x50, 0x70, 0x90, 0xB0]
  | .enc => [0x4C, 0x8C, 0x94]
  | .ax => [0x48, 0x88, 0x9C]
  | .hoistCh => [0x90, 0xA0, 0xB0, 0xC0]
  | .chute => [0x64]
  | _ => []

theorem wide_rows : ∀ k ∈ allKinds, ∀ row ∈ k.rows, 0 < row.ups → row.acc = .rw ∨ row.acc = .rws →
    row.mask = 0xFFFFFF ∧ row.enums = [] ∧ ∀ i < row.count, row.off + i * row.stride ∈ wideOffs k := by
  decide

theorem hdr_rows_narrow : ∀ row ∈ rows_hdr, row.ups = 0 := by decide

/-- What a write of a wide value does beside its row concerns the package alone. -/
theorem blockWrite_wide {p : Pg} {off : Nat} (hoff : off ∈ wideOffs (pgKind p)) (s : State) (r : Req) (v : Word) :
    ∃ k, blockWrite s r p off (regValue s p off v) = { plainWrite s r p off v with pkg := k } := by
  cases hk : pgKind p <;> rw [hk] at hoff <;> simp only [wideOffs, List.mem_cons, List.not_mem_nil, or_false] at hoff
  case die =>
    refine ⟨(plainWrite s r p off v).pkg, ?_⟩
    simp [blockWrite, regValue, hk]
  case timebase =>
    subst hoff
    simp only [blockWrite, regValue, hk, tbWrite]
    norm_num
    split
    · exact ⟨_, rfl⟩
    · exact ⟨_, rfl⟩
  case hoistGlobal =>
    refine ⟨(plainWrite s r p off v).pkg, ?_⟩
    rcases hoff with h | h | h | h <;> subst h <;> simp [blockWrite, regValue, hk, hgWrite]
  case enc =>
    refine ⟨(plainWrite s r p off v).pkg, ?_⟩
    rcases hoff with h | h | h <;> subst h <;> simp [blockWrite, regValue, hk, encValue]
  case ax =>
    refine ⟨(plainWrite s r p off v).pkg, ?_⟩
    rcases hoff with h | h | h <;> subst h <;> simp [blockWrite, regValue, hk]
  case hoistCh =>
    refine ⟨(plainWrite s r p off v).pkg, ?_⟩
    rcases hoff with h | h | h | h <;> subst h <;> simp [blockWrite, regValue, hk]
  case chute =>
    refine ⟨(plainWrite s r p off v).pkg, ?_⟩
    subst hoff
    simp [blockWrite, regValue, hk, chuteWrite]

/-- The block kinds whose registers are all plain, but for `TL_CLEAR`. -/
theorem regEffect_plain {s : State} {r : Req} {p : Pg} {off : Nat} {row : RegRow} (v : Word)
    (hk : pgKind p ∈ [.thermal, .memctl, .pd, .seam, .burim, .pcie, .tally]) (htl : pgKind p = .tally → off ≠ Off.TL_CLEAR) (hlo : 0x40 ≤ off)
    (hrow : regRow p off = some row) : regEffect r p off v s = rowWrite s ⟨clsOn r p, r.rid⟩ p off row v := by
  have hplain : plainWrite s r p off v = rowWrite s ⟨clsOn r p, r.rid⟩ p off row v := by simp only [plainWrite, hrow]
  rw [← hplain, regEffect, if_neg (by omega)]
  simp only [List.mem_cons, List.not_mem_nil, or_false] at hk
  rcases hk with hk | hk | hk | hk | hk | hk | hk
  case inr.inr.inr.inr.inr.inr =>
    have hne := htl hk
    simp [regIgnored, regLocked, blockWrite, regValue, hk, hne]
  all_goals simp [regIgnored, regLocked, blockWrite, regValue, hk]

/-- A wide value that is written stands in a block's table, on a page that is not secure. -/
theorem wide_regRow {p : Pg} {off : Nat} {row : RegRow} (hrow : regRow p off = some row) (hups : 0 < row.ups)
    (hacc : row.acc = .rw ∨ row.acc = .rws) :
    0x40 ≤ off ∧ off ∈ wideOffs (pgKind p) ∧ p.sec = false ∧ ∀ old v, merge row old v = v := by
  unfold regRow at hrow
  split at hrow
  · exact absurd (hdr_rows_narrow row (mem_of_findRow hrow)) (by omega)
  next hlo =>
    have hmem : pgKind p ∈ allKinds := mem_allKinds fun h0 => by rw [h0] at hrow; cases hrow
    obtain ⟨hmask, henums, hoffs⟩ := wide_rows _ hmem row (mem_of_findRow hrow) hups hacc
    obtain ⟨i, hi, rfl⟩ := findRow_place hrow
    refine ⟨by omega, hoffs i hi, ?_, fun old v => ?_⟩
    · by_contra hsec
      have hnone : wideOffs (pgKind p) = [] := by
        rw [pgKind, if_pos (by simpa using hsec)]
        unfold secKind
        split <;> rfl
      have := hoffs i hi
      rw [hnone] at this
      cases this
    · rw [merge, henums, keepEnums, hmask]
      have hall : word 0xFFFFFF = BitVec.allOnes 24 := by decide
      rw [hall, BitVec.and_allOnes, BitVec.not_allOnes, BitVec.and_zero, BitVec.zero_or]

/-! BAR4 and configuration space (R420, R425). -/

theorem msixTableRead_write (s : State) {v dw : Nat} (x : Nat) (hv : v < 128) (hdw : dw < 4) :
    msixTableRead (msixTableWrite s v dw x) v dw = x % 2 ^ 32 := by
  have hv' : ¬ 128 ≤ v := by omega
  have hdw' : ¬ 4 ≤ dw := by omega
  by_cases h3 : dw = 3
  · subst h3
    by_cases hodd : x % 2 = 1
    · simp [msixTableRead, msixTableWrite, hv', hodd, b2n]
      omega
    · simp [msixTableRead, msixTableWrite, hv', hodd, b2n]
      omega
  · simp [msixTableRead, msixTableWrite, hv', hdw', h3]

theorem configRead_write (s : State) {f : Nat} (x : Nat) (hlo : 4 ≤ f) (hhi : f < 10) :
    configRead (configWrite s f x) f = (x &&& barMask (f - 4)) + if f % 2 = 0 then 4 else 0 := by
  interval_cases f <;> simp [configRead, configWrite, barRead]

/-! Reads of one to three bytes (R35). -/

theorem exec_wideLRead_bytes {s : State} {r : Req} {p : Pg} {off k n tag : Nat} {w : Word} (hoff : off < 0x1000)
    (hal : off % 4 = 0) (hn : 0 < n) (hkn : k + n ≤ 4) (hn4 : n < 4) (hr : (regRead s r p off).resp = .data tag w) :
    exec (.wideLRead r (.reg p (off + k)) n) s = .next { regRead s r p off with
      resp := .bytes (((wordBytes w ++ [BitVec.ofNat 8 tag]).drop k).take n) false } := by
  have hin : ¬ (n = 0 ∨ 4 < n ∨ 0x1000 < off + k + n) := by omega
  have hwhole : ¬ ((off + k) % 4 = 0 ∧ n = 4) := by omega
  have hk : (off + k) % 4 = k := by omega
  calc exec (.wideLRead r (.reg p (off + k)) n) s
      = .next (lanesRead s r p (off + k) n) := by
        change execWideLRead r (.reg p (off + k)) n s = _
        simp only [execWideLRead, ok, if_neg hin, if_neg hwhole]
    _ = _ := by simp [lanesRead, hk, hr, respBytes, wordBytes, hkn]

/-- Settles O13: the write falls through to the rule of its table row; the transfer of the upper parts and the words of
BAR4 and of configuration space read back by their own rules. -/
theorem plainAccess : Obligations.PlainAccess := by
  refine ⟨?_, ?_, ?_, ?_, ?_, ?_, ?_⟩
  · intro s r p off row v hk hsec htl hlo hoff hal hrow hacc hup hups htaken hfirst
    refine ⟨_, exec_registerWrite_of_taken htaken hoff hal v, ?_⟩
    obtain ⟨n, hn⟩ := rowWrite_rw (r := ⟨clsOn r p, r.rid⟩) (p := p) (off := off) (word v) hacc hup hfirst
    rw [touchSession_of_not_sec hsec, regEffect_plain (word v) hk (fun _ => htl) hlo hrow, hn, hups, transferUppers_zero]
    rfl
  · intro s r p off row v hk hsec hlo hoff hal hrow hacc hup hups htaken hfirst
    refine ⟨_, exec_registerWrite_of_taken htaken hoff hal v, ?_⟩
    have hkind : pgKind p ∈ [.thermal, .memctl, .pd, .seam, .burim, .pcie, .tally] := by
      simp only [List.mem_cons, List.not_mem_nil, or_false] at hk ⊢
      tauto
    have htl : pgKind p = .tally → off ≠ Off.TL_CLEAR := fun h => by
      rw [h] at hk
      cases hk <;> contradiction
    rw [touchSession_of_not_sec hsec, regEffect_plain (word v) hkind htl hlo hrow]
    refine ⟨fun hgo => rowWrite_rws_busy _ hacc hgo, fun hgo => ?_⟩
    obtain ⟨n, hn⟩ := rowWrite_rws (r := ⟨clsOn r p, r.rid⟩) (p := p) (off := off) (word v) hacc hup hgo hfirst
    rw [hn, hups, transferUppers_zero]
    rfl
  · intro s r p off row v hoff hal hrow hups hup hign hlock htaken hfirst
    refine ⟨regWrite s r p off v, ?_, ?_⟩
    · change ok _ = _
      rw [if_pos ⟨hoff, hal⟩]
    have hwrite (hacc : row.acc = .rw ∨ row.acc = .rws) :
        ∃ k, regWrite s r p off v = { rowWrite s ⟨clsOn r p, r.rid⟩ p off row v with pkg := k } := by
      obtain ⟨hlo, hwide, hsec, -⟩ := wide_regRow hrow hups hacc
      obtain ⟨k, hk⟩ := blockWrite_wide hwide s r v
      refine ⟨k, ?_⟩
      rw [regWrite, guardedWrite_of_taken htaken, touchSession_of_not_sec hsec, regEffect, if_neg (by omega)]
      simp only [hign, hlock, Bool.false_eq_true, if_false, hk, plainWrite, hrow]
    refine ⟨fun hacc => ?_, fun hacc hgo => ?_⟩
    · obtain ⟨k, hk⟩ := hwrite (.inl hacc)
      obtain ⟨-, -, -, hmerge⟩ := wide_regRow hrow hups (.inl hacc)
      obtain ⟨n, hn⟩ := rowWrite_rw (r := ⟨clsOn r p, r.rid⟩) (p := p) (off := off) v hacc hup hfirst
      rw [hk, hn]
      refine ⟨?_, fun i hi rowH hrowH => ?_⟩
      · exact rd_transferUppers_low.trans (by rw [rd_wr_same, hmerge])
      · refine (rd_transferUppers hi hrowH).trans ?_
        have hne : off ≠ off + 4 * (i + 1) := by omega
        rw [rd_wr_off _ _ _ _ _ _ hne]
        rfl
    · obtain ⟨k, hk⟩ := hwrite (.inr hacc)
      obtain ⟨-, -, -, hmerge⟩ := wide_regRow hrow hups (.inr hacc)
      obtain ⟨n, hn⟩ := rowWrite_rws (r := ⟨clsOn r p, r.rid⟩) (p := p) (off := off) v hacc hup hgo hfirst
      rw [hk, hn]
      refine ⟨?_, fun i hi rowH hrowH => ?_⟩
      · exact rdShadow_transferUppers_low.trans (by rw [rdShadow_wrShadow_same, hmerge])
      · refine (rdShadow_transferUppers hi hrowH).trans ?_
        rw [rdShadow_wrShadow_other _ _ _ (by omega)]
        rfl
  · intro s r p off k n tag w hoff hal hn hkn hn4 hr
    exact exec_wideLRead_bytes hoff hal hn hkn hn4 hr
  · intro s r n hpow hhost
    refine ⟨fun v _ dw _ => ?_, fun i hi => ?_, fun f => ?_⟩
    · change ok _ = _
      simp [hpow, hhost, ok]
    · change ok _ = _
      simp [hpow, hhost, ok, hi]
    · change ok _ = _
      simp [hpow, hhost, ok]
  · intro s r x hpow hhost
    refine ⟨fun v hv dw hdw => ⟨msixTableWrite s v dw x, ?_, msixTableRead_write s x hv hdw⟩,
      fun f hlo hhi => ⟨configWrite s f x, ?_, configRead_write s x hlo hhi⟩⟩
    · change ok _ = _
      simp [hpow, hhost, ok]
    · change ok _ = _
      simp [hpow, hhost, ok]
  · intro s r bar off write hpow hhost hnone
    refine ⟨unsupported s bar off write, ?_, (unsupported_spec s bar off write).1, ?_, fun hpres => ?_⟩
    · change ok _ = _
      simp [hpow, hhost, hnone, ok]
    · cases write
      · rfl
      · simp [unsupported]
    · refine rb_raise_same (wr (wr (count s pgPcie Off.CNT_UR) pgPcie Off.PC_UR_OFF_L _) pgPcie Off.PC_UR_OFF_H _) pgPcie 3 ?_
        (by decide)
      exact hpres

end Sys2Proof.Machine

namespace Sys2Proof.Machine

/-! Header registers that the operations of the blocks leave alone, and event bits that they never clear, as a relation
between the state before and after (in the way of `Laws.Keeps`, for one row of registers of all pages). -/

open Sys2Proof.Laws

/-- The header registers that only the life of a page, its hand-over and the event writes change (R38). -/
def steadyOffs : List Nat := [Off.PAGE_CTRL, Off.PAGE_STAT, Off.COMMIT, Off.EVT_EN, Off.EVT_LVL, Off.EVT_VEC, Off.EVT_SET]

/-- The offsets of the shadowed registers of a kind of page. -/
def rwsOf (k : Kind) : List Nat :=
  (k.rows.filter fun r => decide (r.acc = .rws)).flatMap fun r => (List.range r.count).map fun i => r.off + i * r.stride

theorem rwsOffs_eq (p : Pg) : rwsOffs p = rwsOf (pgKind p) := rfl

/-- The shadowed registers of the blocks that act on their hand-over, by the kind of page, and of a FENCE page the register that
shows which dies stand apart (R410). -/
def heldOf : Kind → List Nat
  | .timebase => rwsOf .timebase
  | .tsync => rwsOf .tsync
  | .hp => rwsOf .hp
  | .enc => rwsOf .enc
  | .ax => rwsOf .ax
  | .pd => rwsOf .pd
  | .seam => rwsOf .seam
  | .fence => [Off.FN_DIE_STAT]
  | _ => []

/-- The same by the page. -/
def heldOffs (p : Pg) : List Nat := heldOf (pgKind p)

theorem heldOf_block : ∀ k ∈ allKinds, ∀ o ∈ heldOf k, 0x40 ≤ o := by decide

/-- An offset of a page that holds no header register of these, no latched event and none of the registers above. -/
structure Unsteady (p : Pg) (off : Nat) : Prop where
  off_not_mem : off ∉ steadyOffs
  off_ne_lat : off ≠ Off.EVT_LAT
  off_not_held : off ∉ heldOffs p

theorem heldOffs_block {p : Pg} {o : Nat} (h : o ∈ heldOffs p) : 0x40 ≤ o := by
  refine heldOf_block _ (mem_allKinds fun h0 => ?_) o h
  rw [heldOffs, h0] at h
  cases h

namespace Unsteady

variable {p : Pg} {off d i : Nat}

theorem header (h : off < 0x40) (hs : off ∉ steadyOffs) (hl : off ≠ Off.EVT_LAT) : Unsteady p off :=
  ⟨hs, hl, fun hh => absurd (heldOffs_block hh) (by omega)⟩

theorem dyn : Unsteady p Off.EVT_DYN := .header (by decide) (by decide) (by decide)

theorem errInfo : Unsteady p Off.ERR_INFO := .header (by decide) (by decide) (by decide)

theorem errAddr : Unsteady p Off.ERR_ADDR := .header (by decide) (by decide) (by decide)

theorem block (h : 0x40 ≤ off) (hh : off ∉ heldOffs p) : Unsteady p off :=
  ⟨by simp [steadyOffs]; omega, by simp; omega, hh⟩

theorem of_nsAt {base n : Nat} {k : Kind} (hk : i < n → pgKind (nsAt d base n i) = k) (hh : off ∉ heldOf k) :
    off ∉ heldOffs (nsAt d base n i) := by
  by_cases hi : i < n
  · rwa [heldOffs, hk hi]
  · have h0 : pgKind (nsAt d base n i) = .absent := by
      rw [nsAt, if_neg hi]
      rfl
    rw [heldOffs, h0]
    exact List.not_mem_nil

theorem pgKind_nsAt {base n : Nat} {k : Kind} (hi : i < n) (hk : nsKind (base + i) = k) : pgKind (nsAt d base n i) = k := by
  rw [nsAt, if_pos hi]
  exact hk

theorem hp (h : 0x40 ≤ off) (hh : off ∉ heldOf .hp) : Unsteady (pgHp d i) off :=
  block h (of_nsAt (fun hi => pgKind_nsAt hi (by unfold nsKind; rw [if_neg (by omega), if_neg (by omega), if_pos (by omega)])) hh)

theorem enc (h : 0x40 ≤ off) (hh : off ∉ heldOf .enc) : Unsteady (pgEnc d i) off :=
  block h (of_nsAt (fun hi => pgKind_nsAt hi (by unfold nsKind; rw [if_neg (by omega), if_neg (by omega), if_neg (by omega), if_pos (by omega)])) hh)

theorem ax (h : 0x40 ≤ off) (hh : off ∉ heldOf .ax) : Unsteady (pgAx d i) off :=
  block h (of_nsAt (fun hi => pgKind_nsAt hi (by unfold nsKind; rw [if_neg (by omega), if_neg (by omega), if_neg (by omega), if_neg (by omega), if_pos (by omega)])) hh)

theorem hc (h : 0x40 ≤ off) : Unsteady (pgHc d i) off :=
  block h (of_nsAt (k := .hoistCh) (fun hi => pgKind_nsAt hi (by unfold nsKind; rw [if_neg (by omega), if_pos (by omega)])) List.not_mem_nil)

theorem chute (h : 0x40 ≤ off) : Unsteady (pgChute d i) off :=
  block h (of_nsAt (k := .chute) (fun hi => pgKind_nsAt hi (by unfold nsKind; rw [if_pos (by omega)])) List.not_mem_nil)

end Unsteady

/-! The registers that are handed over, page by page. -/

@[simp] theorem heldOf_timebase : heldOf .timebase = [0x54, 0x70, 0x74] := by decide

@[simp] theorem heldOf_tsync : heldOf .tsync = [0x40, 0x44, 0x48, 0x4C, 0x50] := by decide

@[simp] theorem heldOf_hp : heldOf .hp = [0x5C, 0x6C, 0x74, 0x78, 0x7C, 0x80] := by decide

@[simp] theorem heldOf_enc : heldOf .enc = [0x40, 0x44, 0x48, 0x4C, 0x50, 0x54, 0x58, 0x5C, 0x60, 0x64, 0x68,
      0x6C, 0x70, 0x74, 0x78, 0x7C, 0x80, 0x84, 0x88, 0x8C, 0x90, 0x94, 0x98, 0x9C, 0xA0] := by decide

@[simp] theorem heldOf_ax : heldOf .ax = [0x44, 0x48, 0x4C, 0x50, 0x54, 0x58, 0x5C, 0x60, 0x64, 0x68, 0x6C,
      0x70, 0x74, 0x78, 0x7C, 0x80, 0x84, 0x88, 0x8C, 0x90, 0x94, 0x98, 0x9C, 0xA0] := by decide

@[simp] theorem heldOf_pd : heldOf .pd = [0x40, 0x44, 0x48, 0x4C, 0x50, 0x54, 0x58, 0x5C, 0x60, 0x64, 0x68,
      0x6C, 0x70, 0x74, 0x78, 0x7C] := by decide

@[simp] theorem heldOf_seam : heldOf .seam = [0x40, 0x44] := by decide

@[simp] theorem heldOf_fence : heldOf .fence = [0x74] := rfl

section
variable (d : Nat)

@[simp] theorem heldOffs_pgMode : heldOffs (pgMode d) = [] := rfl

@[simp] theorem heldOffs_pgFence : heldOffs (pgFence d) = heldOf .fence := rfl

@[simp] theorem heldOffs_pgInject : heldOffs (pgInject d) = [] := rfl

@[simp] theorem heldOffs_pgTally : heldOffs (pgTally d) = [] := rfl

@[simp] theorem heldOffs_pgAssay : heldOffs (pgAssay d) = [] := rfl

@[simp] theorem heldOffs_pgThermal : heldOffs (pgThermal d) = [] := rfl

@[simp] theorem heldOffs_pgLamp : heldOffs (pgLamp d) = [] := rfl

@[simp] theorem heldOffs_pgMemctl : heldOffs (pgMemctl d) = [] := rfl

@[simp] theorem heldOffs_pgRetain : heldOffs (pgRetain d) = [] := rfl

@[simp] theorem heldOffs_pgHoistGlobal : heldOffs (pgHoistGlobal d) = [] := rfl

@[simp] theorem heldOffs_pgChuteGlobal : heldOffs (pgChuteGlobal d) = [] := rfl

@[simp] theorem heldOffs_pgEcho : heldOffs (pgEcho d) = [] := rfl

@[simp] theorem heldOffs_pgBurim : heldOffs (pgBurim d) = [] := rfl

@[simp] theorem heldOffs_pgCtx : heldOffs (pgCtx d) = [] := rfl

@[simp] theorem heldOffs_pgSecDie : heldOffs (pgSecDie d) = [] := rfl

@[simp] theorem heldOffs_pgGuard : heldOffs (pgGuard d) = [] := rfl

@[simp] theorem heldOffs_pgDebug : heldOffs (pgDebug d) = [] := rfl

@[simp] theorem heldOffs_pgIjl : heldOffs (pgIjl d) = [] := rfl

@[simp] theorem heldOffs_pgSess : heldOffs (pgSess d) = [] := rfl

@[simp] theorem heldOffs_pgDie : heldOffs (pgDie d) = [] := rfl

@[simp] theorem heldOffs_pgMbox (b : Bool) : heldOffs (pgMbox d b) = [] := by cases b <;> rfl

@[simp] theorem heldOffs_pgTb : heldOffs (pgTb d) = heldOf .timebase := rfl

@[simp] theorem heldOffs_pgPd : heldOffs (pgPd d) = heldOf .pd := rfl

@[simp] theorem heldOffs_pgSeam : heldOffs (pgSeam d) = heldOf .seam := rfl

end

@[simp] theorem heldOffs_pgTsync : heldOffs pgTsync = heldOf .tsync := rfl

@[simp] theorem heldOffs_pgPcie : heldOffs pgPcie = [] := rfl

/-- What a die's own fence and its PLL rest on (R62, R410). -/
abbrev standOf (x : DieSt) : Nat × Bool × Nat := (x.dieReason, x.pllLocked, x.pllSince)

/-- The header registers `F` of every page and the registers above read as before, every latched event is still latched, and
every die stands as before. -/
structure Steady (F : List Nat) (a s : State) : Prop where
  sub : ∀ o ∈ F, o ∈ steadyOffs
  reads : ∀ q, ∀ o ∈ F, rd s q o = rd a q o
  held : ∀ q, ∀ o ∈ heldOffs q, rd s q o = rd a q o
  lats : ∀ q i, rb a q Off.EVT_LAT i = true → rb s q Off.EVT_LAT i = true
  stand : ∀ d, standOf (die s d) = standOf (die a d)

variable {F : List Nat} {s₀ s t : State}

namespace Steady

variable {q : Pg}

theorem refl (s : State) (hF : ∀ o ∈ F, o ∈ steadyOffs := by decide) : Steady F s s := ⟨hF, fun _ _ _ => rfl, fun _ _ _ => rfl, fun _ _ h => h, fun _ => rfl⟩

theorem trans (h : Steady F s₀ s) (h' : Steady F s t) : Steady F s₀ t :=
  ⟨h.sub, fun q o ho => (h'.reads q o ho).trans (h.reads q o ho),
    fun q o ho => (h'.held q o ho).trans (h.held q o ho), fun q i hi => h'.lats q i (h.lats q i hi),
    fun d => (h'.stand d).trans (h.stand d)⟩

theorem rb_eq (h : Steady F s₀ s) (o i : Nat) (ho : o ∈ F) : rb s q o i = rb s₀ q o i := by
  rw [rb, rb, h.reads q o ho]

theorem rf_eq (h : Steady F s₀ s) (o lo n : Nat) (ho : o ∈ F) : rf s q o lo n = rf s₀ q o lo n := by
  rw [rf, rf, h.reads q o ho]

theorem pstate_eq (h : Steady F s₀ s) (hF : Off.PAGE_STAT ∈ F) : pstate s q = pstate s₀ q := h.rf_eq _ _ _ hF

/-- An update of fields that hold no register. -/
theorem of_regs (h : Steady F s₀ s) (hr : t.regs = s.regs) (hd : t.dies = s.dies := by rfl) : Steady F s₀ t :=
  ⟨h.sub, fun q o ho => by rw [← h.reads q o ho, rd, rd, hr],
    fun q o ho => by rw [← h.held q o ho, rd, rd, hr],
    fun q i hi => by rw [← h.lats q i hi, rb, rb, rd, rd, hr], fun d => by rw [← h.stand d, die, die, hd]⟩

end Steady


/-- An update of fields that hold no register, as it stands written out. -/
theorem Steady.lit
    {w_pending : List Instr} {w_clock : Nat} {w_free : Nat} {w_part : Part} {w_gos : Tbl RegKey Nat} {w_hold : Tbl
    RegKey Word} {w_ticks : List TickWrites} {w_caps : Tbl (Nat × RegKey) Word} {w_fences : Tbl Pg FenceSt} {w_mem : List Host.Cell} {w_ecc :
    Tbl Nat Ecc} {w_ret : List Host.Cell} {w_retEcc : Tbl Nat Ecc} {w_chutes : Tbl (Nat × Nat) ChuteSt} {w_ctxs :
    Tbl (Nat × Nat) CtxSt} {w_ports : Tbl (Nat × Nat) PortSt} {w_encs : Tbl (Nat × Nat) EncSt} {w_pds : Tbl (Nat ×
    Nat) PdSt} {w_seamQ : List SeamMsg} {w_echos : Tbl Nat EchoSt} {w_mems : Tbl Nat MemSt} {w_msgs : List Msg}
    {w_axes : Tbl (Nat × Nat) AxisSt} {w_hoists : Tbl (Nat × Nat) HoistSt} {w_served : Tbl Nat Nat} {w_trigs : List (Nat × Nat)} {w_tmrs :
    Tbl (Nat × Nat) Nat} {w_cqWait : Tbl Nat (List CqRec)} {w_cqSeq : Tbl (Nat × Nat) Nat} {w_assays : Tbl Nat
    AssaySt} {w_therms : Tbl Nat ThermSt} {w_lamps : Tbl Nat LampSt} {w_mboxes : Tbl (Nat × Nat) MboxCh} {w_fws :
    Tbl Nat FwSt} {w_tsync : TsyncSt} {w_burims : Tbl (Nat × Nat) BurimSt} {w_hops : List HopMsg} {w_pkg : PkgSt} {w_pcie : PcieSt} {w_resp : Resp} {w_out : List Out}
    (h : Steady F s₀ s) : Steady F s₀ {
      pending := w_pending, clock := w_clock, free := w_free, part := w_part, regs := s.regs, shad := s.shad, gos :=
      w_gos, hold := w_hold, ticks := w_ticks, caps := w_caps, fences := w_fences, mem := w_mem, ecc := w_ecc, ret := w_ret, retEcc :=
      w_retEcc, chutes := w_chutes, ctxs := w_ctxs, ports := w_ports, encs := w_encs, pds := w_pds, seamQ :=
      w_seamQ, echos := w_echos, mems := w_mems, msgs := w_msgs, axes := w_axes, hoists := w_hoists, served := w_served, trigs :=
      w_trigs, tmrs := w_tmrs, cqWait := w_cqWait, cqSeq := w_cqSeq, assays := w_assays, therms := w_therms, lamps
      := w_lamps, mboxes := w_mboxes, fws := w_fws, tsync := w_tsync, burims := w_burims, hops := w_hops, dies :=
      s.dies, pkg := w_pkg, pcie := w_pcie, resp := w_resp, out := w_out } :=
  ⟨h.sub, h.reads, h.held, h.lats, h.stand⟩

theorem each_steady {α : Type} {l : List α} {f : State → α → State} (h : Steady F s₀ s)
    (hf : ∀ t x, Steady F s₀ t → Steady F s₀ (f t x)) : Steady F s₀ (each l s f) :=
  each_pres h fun t x _ => hf t x

theorem each_steady_mem {α : Type} {l : List α} {f : State → α → State} (h : Steady F s₀ s)
    (hf : ∀ t, ∀ x ∈ l, Steady F s₀ t → Steady F s₀ (f t x)) : Steady F s₀ (each l s f) :=
  each_pres h hf

theorem whenDo_steady {b : Bool} {f : State → State} (h : Steady F s₀ s) (hf : ∀ t, Steady F s₀ t → Steady F s₀ (f t)) :
    Steady F s₀ (whenDo b s f) := by
  unfold whenDo; split
  · exact hf _ h
  · exact h

theorem ite_steady {c : Prop} [Decidable c] {x y : State} (hx : Steady F s₀ x) (hy : Steady F s₀ y) :
    Steady F s₀ (if c then x else y) := by
  split
  · exact hx
  · exact hy

theorem pair_steady {α : Type} {x : α × State} {v : α} (e : x = (v, t)) (h : Steady F s₀ x.2) : Steady F s₀ t := by
  subst e; exact h

theorem trip_steady {α β : Type} {x : α × β × State} {v : α} {w : β} (e : x = (v, w, t)) (h : Steady F s₀ x.2.2) :
    Steady F s₀ t := by
  subst e; exact h

theorem quad_steady {α β γ : Type} {x : α × β × γ × State} {v : α} {w : β} {z : γ} (e : x = (v, w, z, t))
    (h : Steady F s₀ x.2.2.2) : Steady F s₀ t := by
  subst e; exact h

theorem wr_steady {p : Pg} {off : Nat} {v : Word} (ko : Unsteady p off) (hU : Steady F s₀ s) : Steady F s₀ (wr s p off v) := by
  refine ⟨hU.sub, fun q o ho => ?_, fun q o ho => ?_, fun q i hi => ?_, hU.stand⟩
  · have hne : off ≠ o := fun h => ko.off_not_mem (h ▸ hU.sub o ho)
    rw [rd_wr_off _ _ _ _ _ _ hne, hU.reads q o ho]
  · have hne : (p, off) ≠ (q, o) := fun h => by
      cases h
      exact ko.off_not_held ho
    rw [rd_wr_other _ _ _ _ _ _ hne, hU.held q o ho]
  · rw [rb, rd_wr_off _ _ _ _ _ _ ko.off_ne_lat]
    exact hU.lats q i hi

/-- A write of a header register that the relation does not speak of. -/
theorem wr_steady_of_not_mem {p : Pg} {off : Nat} {v : Word} (ko : off ∉ F) (hh : off < 0x40) (hl : off ≠ Off.EVT_LAT) (hU : Steady F s₀ s) :
    Steady F s₀ (wr s p off v) := by
  refine ⟨hU.sub, fun q o ho => ?_, fun q o ho => ?_, fun q i hi => ?_, hU.stand⟩
  · have hne : off ≠ o := fun h => ko (h ▸ ho)
    rw [rd_wr_off _ _ _ _ _ _ hne, hU.reads q o ho]
  · have hne : off ≠ o := fun h => absurd (heldOffs_block ho) (by omega)
    rw [rd_wr_off _ _ _ _ _ _ hne, hU.held q o ho]
  · rw [rb, rd_wr_off _ _ _ _ _ _ hl]
    exact hU.lats q i hi

theorem wf_steady {p : Pg} {off lo n v : Nat} (ko : Unsteady p off) (hU : Steady F s₀ s) : Steady F s₀ (wf s p off lo n v) :=
  wr_steady ko hU

theorem wb_steady {p : Pg} {off i : Nat} {b : Bool} (ko : Unsteady p off) (hU : Steady F s₀ s) : Steady F s₀ (wb s p off i b) :=
  wr_steady ko hU

theorem wr48_steady {p : Pg} {off : Nat} {v : Nat} (ko : Unsteady p off) (ko' : Unsteady p (off + 4)) (hU : Steady F s₀ s) :
    Steady F s₀ (wr48 s p off v) :=
  wr_steady ko' (wr_steady ko hU)

theorem wr72_steady {p : Pg} {off : Nat} {v : Nat} (ko : Unsteady p off) (ko' : Unsteady p (off + 4))
    (ko'' : Unsteady p (off + 8)) (hU : Steady F s₀ s) : Steady F s₀ (wr72 s p off v) :=
  wr_steady ko'' (wr_steady ko' (wr_steady ko hU))

theorem count_steady {p : Pg} {off : Nat} (ko : Unsteady p off) (hU : Steady F s₀ s) : Steady F s₀ (count s p off) :=
  wr_steady ko hU

theorem countBy_steady {p : Pg} {off : Nat} {n : Nat} (ko : Unsteady p off) (hU : Steady F s₀ s) :
    Steady F s₀ (countBy s p off n) :=
  wr_steady ko hU

theorem setPstate_steady {p : Pg} {st : Nat} (hs : Off.PAGE_STAT ∉ F) (hU : Steady F s₀ s) : Steady F s₀ (setPstate s p st) :=
  wr_steady_of_not_mem hs (by decide) (by decide) hU

theorem wb_steady_of_not_mem {p : Pg} {off i : Nat} {b : Bool} (ko : off ∉ F) (hh : off < 0x40) (hl : off ≠ Off.EVT_LAT) (hU : Steady F s₀ s) :
    Steady F s₀ (wb s p off i b) :=
  wr_steady_of_not_mem ko hh hl hU

theorem wf_steady_of_not_mem {p : Pg} {off lo n v : Nat} (ko : off ∉ F) (hh : off < 0x40) (hl : off ≠ Off.EVT_LAT) (hU : Steady F s₀ s) :
    Steady F s₀ (wf s p off lo n v) :=
  wr_steady_of_not_mem ko hh hl hU

theorem wrShadow_steady {p : Pg} {off : Nat} {v : Word} (hU : Steady F s₀ s) : Steady F s₀ (wrShadow s p off v) :=
  hU.of_regs rfl

theorem emit_steady {o : Out} (hU : Steady F s₀ s) : Steady F s₀ (emit s o) := hU.of_regs rfl

theorem msix_steady {d v : Nat} (hU : Steady F s₀ s) : Steady F s₀ (msix s d v) := by
  unfold msix
  split
  · exact hU
  split
  · exact emit_steady hU
  · exact hU.of_regs rfl

theorem pageMsix_steady {p : Pg} (hU : Steady F s₀ s) : Steady F s₀ (pageMsix s p) := msix_steady hU

/-- Latching sets bits and clears none. -/
theorem latch_steady {p : Pg} {m : Word} (hU : Steady F s₀ s) : Steady F s₀ (latch s p m) := by
  have hwr : Steady F s₀ (wr s p Off.EVT_LAT (rd s p Off.EVT_LAT ||| m)) := by
    refine ⟨hU.sub, fun q o ho => ?_, fun q o ho => ?_, fun q i hi => ?_, hU.stand⟩
    · have hne : Off.EVT_LAT ≠ o := fun h => by
        have hmem := hU.sub o ho
        rw [← h] at hmem
        exact absurd hmem (by decide)
      rw [rd_wr_off _ _ _ _ _ _ hne, hU.reads q o ho]
    · have hne : Off.EVT_LAT ≠ o := fun h => absurd (heldOffs_block ho) (by rw [← h]; decide)
      rw [rd_wr_off _ _ _ _ _ _ hne, hU.held q o ho]
    · have hlat := hU.lats q i hi
      rw [rb, rd_wr]
      split
      next h =>
        cases h
        rw [rb] at hlat
        simp only [bit, BitVec.getLsbD_or] at hlat ⊢
        rw [hlat, Bool.true_or]
      next => exact hlat
  unfold latch
  split
  · exact whenDo_steady hwr fun _ => pageMsix_steady
  · exact hU

theorem raise_steady {p : Pg} {i : Nat} (hU : Steady F s₀ s) : Steady F s₀ (raise s p i) := by
  unfold raise
  try dsimp only
  repeat' first
    | with_reducible assumption
    | intro _
    | with_reducible apply ite_steady
    | with_reducible apply latch_steady

theorem setDyn_steady {p : Pg} {i : Nat} {b : Bool} (hU : Steady F s₀ s) : Steady F s₀ (setDyn s p i b) := by
  unfold setDyn
  try dsimp only
  repeat' first
    | with_reducible assumption
    | with_reducible exact Unsteady.dyn
    | with_reducible exact Unsteady.hc (by simp)
    | with_reducible exact Unsteady.chute (by simp)
    | with_reducible exact Unsteady.errInfo
    | with_reducible exact Unsteady.errAddr
    | intro _
    | with_reducible apply ite_steady
    | with_reducible apply whenDo_steady
    | with_reducible apply wb_steady
    | with_reducible apply raise_steady

theorem injFollow_steady {d : Nat} (hU : Steady F s₀ s) : Steady F s₀ (injFollow s d) := by
  unfold injFollow
  try dsimp only
  repeat' first
    | with_reducible assumption
    | with_reducible exact Unsteady.hc (by simp)
    | with_reducible exact Unsteady.chute (by simp)
    | with_reducible exact Unsteady.errInfo
    | with_reducible exact Unsteady.errAddr
    | with_reducible exact Unsteady.block (by simp) (by simp)
    | intro _
    | with_reducible apply ite_steady
    | with_reducible apply raise_steady
    | with_reducible apply wb_steady
    | with_reducible apply setDyn_steady

theorem setFenceSt_steady {p : Pg} {x : FenceSt} (hU : Steady F s₀ s) : Steady F s₀ (setFenceSt s p x) := by
  unfold setFenceSt
  try dsimp only
  repeat' first
    | with_reducible assumption
    | intro _
    | with_reducible apply ite_steady
    | split
    | with_reducible apply Steady.lit

theorem setPort_steady {d : Nat} {p : Nat} {x : PortSt} (hU : Steady F s₀ s) : Steady F s₀ (setPort s d p x) := by
  unfold setPort
  try dsimp only
  repeat' first
    | with_reducible assumption
    | intro _
    | with_reducible apply ite_steady
    | split
    | with_reducible apply Steady.lit

theorem streamFollow_steady {d : Nat} {p : Nat} (hU : Steady F s₀ s) : Steady F s₀ (streamFollow s d p) := by
  unfold streamFollow
  try dsimp only
  repeat' first
    | with_reducible assumption
    | intro _
    | with_reducible apply ite_steady
    | with_reducible apply setPort_steady
    | with_reducible apply emit_steady

theorem linkStat_steady {d : Nat} {p : Nat} (hU : Steady F s₀ s) : Steady F s₀ (linkStat s d p) := by
  unfold linkStat
  try dsimp only
  repeat' first
    | with_reducible assumption
    | with_reducible exact Unsteady.hp (by simp) (by simp)
    | with_reducible exact Unsteady.hc (by simp)
    | with_reducible exact Unsteady.chute (by simp)
    | with_reducible exact Unsteady.errInfo
    | with_reducible exact Unsteady.errAddr
    | intro _
    | with_reducible apply ite_steady
    | with_reducible apply wr_steady

theorem outQueued_steady {d : Nat} {sec : Bool} {n : Nat} (hU : Steady F s₀ s) : Steady F s₀ (outQueued s d sec n) := by
  unfold outQueued
  try dsimp only
  repeat' first
    | with_reducible assumption
    | with_reducible exact Unsteady.hc (by simp)
    | with_reducible exact Unsteady.chute (by simp)
    | with_reducible exact Unsteady.errInfo
    | with_reducible exact Unsteady.errAddr
    | with_reducible exact Unsteady.block (by simp [mbOff]; omega) (by simp)
    | intro _
    | with_reducible apply ite_steady
    | with_reducible apply wf_steady

theorem setMbox_steady {d : Nat} {n : Nat} {x : MboxCh} (hU : Steady F s₀ s) : Steady F s₀ (setMbox s d n x) := by
  unfold setMbox
  try dsimp only
  repeat' first
    | with_reducible assumption
    | intro _
    | with_reducible apply ite_steady
    | split
    | with_reducible apply Steady.lit

theorem noticeOn_steady {d : Nat} {sec : Bool} {n : Nat} {code : Nat} {args : List Word} (hU : Steady F s₀ s) : Steady F s₀ (noticeOn s d sec n code args) := by
  unfold noticeOn
  try dsimp only
  repeat' first
    | with_reducible assumption
    | with_reducible exact Unsteady.hc (by simp)
    | with_reducible exact Unsteady.chute (by simp)
    | with_reducible exact Unsteady.errInfo
    | with_reducible exact Unsteady.errAddr
    | with_reducible exact Unsteady.block (by simp) (by simp)
    | intro _
    | with_reducible apply ite_steady
    | with_reducible apply raise_steady
    | with_reducible apply count_steady
    | with_reducible apply outQueued_steady
    | with_reducible apply setMbox_steady

theorem notice_steady {d : Nat} {n : Nat} {code : Nat} {args : List Word} (hU : Steady F s₀ s) : Steady F s₀ (notice s d n code args) := by
  unfold notice
  try dsimp only
  repeat' first
    | with_reducible assumption
    | intro _
    | with_reducible apply ite_steady
    | with_reducible apply noticeOn_steady

theorem setLink_steady {d : Nat} {p : Nat} {st : Nat} (hU : Steady F s₀ s) : Steady F s₀ (setLink s d p st) := by
  unfold setLink
  try dsimp only
  repeat' first
    | with_reducible assumption
    | intro _
    | with_reducible apply ite_steady
    | with_reducible apply streamFollow_steady
    | with_reducible apply linkStat_steady
    | with_reducible apply setPort_steady
    | with_reducible apply whenDo_steady
    | with_reducible apply raise_steady
    | with_reducible apply notice_steady

theorem setAxis_steady {d : Nat} {a : Nat} {x : AxisSt} (hU : Steady F s₀ s) : Steady F s₀ (setAxis s d a x) := by
  unfold setAxis
  try dsimp only
  repeat' first
    | with_reducible assumption
    | intro _
    | with_reducible apply ite_steady
    | split
    | with_reducible apply Steady.lit

theorem axStart_steady {d : Nat} {a : Nat} (hU : Steady F s₀ s) : Steady F s₀ (axStart s d a) := by
  unfold axStart
  try dsimp only
  repeat' first
    | with_reducible assumption
    | intro _
    | with_reducible apply ite_steady
    | with_reducible apply setAxis_steady

theorem pageStart_steady {p : Pg} (hs : Off.PAGE_STAT ∉ F) (hU : Steady F s₀ s) : Steady F s₀ (pageStart s p) := by
  unfold pageStart
  try dsimp only
  repeat' first
    | with_reducible assumption
    | with_reducible exact hs
    | with_reducible refine wf_steady_of_not_mem hs (by simp) (by simp) ?_
    | intro _
    | with_reducible apply ite_steady
    | with_reducible apply setPstate_steady
    | with_reducible apply setLink_steady
    | with_reducible apply axStart_steady
    | with_reducible apply injFollow_steady
    | split

theorem loadFail_steady {d : Nat} {p : Nat} {code : Nat} (hU : Steady F s₀ s) : Steady F s₀ (loadFail s d p code) := by
  unfold loadFail
  try dsimp only
  repeat' first
    | with_reducible assumption
    | with_reducible exact Unsteady.hp (by simp) (by simp)
    | with_reducible exact Unsteady.hc (by simp)
    | with_reducible exact Unsteady.chute (by simp)
    | with_reducible exact Unsteady.errInfo
    | with_reducible exact Unsteady.errAddr
    | intro _
    | with_reducible apply ite_steady
    | with_reducible apply wr_steady
    | with_reducible apply raise_steady
    | with_reducible apply setPort_steady

theorem loadAbort_steady {d : Nat} {p : Nat} (hU : Steady F s₀ s) : Steady F s₀ (loadAbort s d p) := by
  unfold loadAbort
  try dsimp only
  repeat' first
    | with_reducible assumption
    | intro _
    | with_reducible apply ite_steady
    | with_reducible apply loadFail_steady

theorem setCycle_steady {d : Nat} {p : Nat} {c : Cycle} (hU : Steady F s₀ s) : Steady F s₀ (setCycle s d p c) := by
  unfold setCycle
  try dsimp only
  repeat' first
    | with_reducible assumption
    | intro _
    | with_reducible apply ite_steady
    | with_reducible apply setPort_steady

theorem setCtx_steady {d : Nat} {k : Nat} {x : CtxSt} (hU : Steady F s₀ s) : Steady F s₀ (setCtx s d k x) := by
  unfold setCtx
  try dsimp only
  repeat' first
    | with_reducible assumption
    | intro _
    | with_reducible apply ite_steady
    | split
    | with_reducible apply Steady.lit

theorem stallReset_steady {d : Nat} {k : Nat} (hU : Steady F s₀ s) : Steady F s₀ (stallReset s d k) := by
  unfold stallReset
  try dsimp only
  repeat' first
    | with_reducible assumption
    | intro _
    | with_reducible apply ite_steady
    | with_reducible apply setCtx_steady

theorem stallFollow_steady {d : Nat} {k : Nat} (hU : Steady F s₀ s) : Steady F s₀ (stallFollow s d k) := by
  unfold stallFollow
  try dsimp only
  repeat' first
    | with_reducible assumption
    | intro _
    | with_reducible apply ite_steady
    | with_reducible apply setCtx_steady

theorem stallMark_steady {d : Nat} {k : Nat} (hU : Steady F s₀ s) : Steady F s₀ (stallMark s d k) := by
  unfold stallMark
  try dsimp only
  repeat' first
    | with_reducible assumption
    | intro _
    | with_reducible apply ite_steady
    | with_reducible apply stallFollow_steady
    | with_reducible apply setCtx_steady

theorem lineDone_steady {d : Nat} {k : Nat} {blank : Bool} (hU : Steady F s₀ s) : Steady F s₀ (lineDone s d k blank) := by
  unfold lineDone
  try dsimp only
  repeat' first
    | with_reducible assumption
    | intro _
    | with_reducible apply ite_steady
    | with_reducible apply setCtx_steady

theorem memberDone_steady {d : Nat} {p : Nat} {c : Cycle} {k : Nat} {blank : Bool} (hU : Steady F s₀ s) : Steady F s₀ (memberDone s d p c k blank) := by
  unfold memberDone
  try dsimp only
  repeat' first
    | with_reducible assumption
    | intro _
    | with_reducible apply ite_steady
    | with_reducible apply lineDone_steady
    | with_reducible apply setCycle_steady
    | split

theorem queueFrame_steady {d : Nat} {p : Nat} {f : Frame} (hU : Steady F s₀ s) : Steady F s₀ (queueFrame s d p f) := by
  unfold queueFrame
  try dsimp only
  repeat' first
    | with_reducible assumption
    | intro _
    | with_reducible apply ite_steady
    | with_reducible apply setPort_steady

theorem withdraw_steady {d : Nat} {p : Nat} {k : Nat} {c : Cycle} (hU : Steady F s₀ s) : Steady F s₀ (withdraw s d p k c) := by
  unfold withdraw
  try dsimp only
  repeat' first
    | with_reducible assumption
    | intro _
    | with_reducible apply ite_steady
    | with_reducible apply setCycle_steady
    | with_reducible apply queueFrame_steady
    | with_reducible apply setPort_steady

theorem keepLine_steady {d : Nat} {k : Nat} {c : Cycle} (hU : Steady F s₀ s) : Steady F s₀ (keepLine s d k c) := by
  unfold keepLine
  try dsimp only
  repeat' first
    | with_reducible assumption
    | intro _
    | with_reducible apply ite_steady
    | with_reducible apply setCtx_steady
    | split

theorem withdrawAll_steady {d : Nat} {k : Nat} {f : Cycle → Bool} (hU : Steady F s₀ s) : Steady F s₀ (withdrawAll s d k f) := by
  unfold withdrawAll
  try dsimp only
  repeat' first
    | with_reducible assumption
    | intro _
    | with_reducible apply ite_steady
    | with_reducible apply each_steady
    | with_reducible apply withdraw_steady
    | with_reducible apply keepLine_steady

theorem hoistSource_steady {d : Nat} {src : Nat} {idx : Nat} {evt : Nat} (hU : Steady F s₀ s) : Steady F s₀ (hoistSource s d src idx evt) := by
  unfold hoistSource
  try dsimp only
  repeat' first
    | with_reducible assumption
    | intro _
    | with_reducible apply ite_steady
    | split
    | with_reducible apply Steady.lit

theorem ctxEvt_steady {d : Nat} {k : Nat} {i : Nat} (hU : Steady F s₀ s) : Steady F s₀ (ctxEvt s d k i) := by
  unfold ctxEvt
  try dsimp only
  repeat' first
    | with_reducible assumption
    | with_reducible exact Unsteady.hc (by simp)
    | with_reducible exact Unsteady.chute (by simp)
    | with_reducible exact Unsteady.errInfo
    | with_reducible exact Unsteady.errAddr
    | with_reducible exact Unsteady.block (by simp; omega) (by simp)
    | intro _
    | with_reducible apply ite_steady
    | with_reducible apply hoistSource_steady
    | with_reducible apply wr_steady
    | with_reducible apply whenDo_steady
    | with_reducible apply setDyn_steady

theorem setEcho_steady {d : Nat} {x : EchoSt} (hU : Steady F s₀ s) : Steady F s₀ (setEcho s d x) := by
  unfold setEcho
  try dsimp only
  repeat' first
    | with_reducible assumption
    | intro _
    | with_reducible apply ite_steady
    | split
    | with_reducible apply Steady.lit

theorem dropMoved_steady {d : Nat} {k : Nat} (hU : Steady F s₀ s) : Steady F s₀ (dropMoved s d k) := by
  unfold dropMoved
  try dsimp only
  repeat' first
    | with_reducible assumption
    | with_reducible exact Unsteady.hc (by simp)
    | with_reducible exact Unsteady.chute (by simp)
    | with_reducible exact Unsteady.errInfo
    | with_reducible exact Unsteady.errAddr
    | with_reducible exact Unsteady.block (by simp) (by simp)
    | intro _
    | with_reducible apply ite_steady
    | with_reducible apply setEcho_steady
    | with_reducible apply raise_steady
    | with_reducible apply countBy_steady

theorem sweepBreak_steady {d : Nat} {f : Nat → Bool} (hU : Steady F s₀ s) : Steady F s₀ (sweepBreak s d f) := by
  unfold sweepBreak
  try dsimp only
  repeat' first
    | with_reducible assumption
    | intro _
    | with_reducible apply ite_steady
    | with_reducible apply setEcho_steady

theorem staleMeas_steady {d : Nat} {k : Nat} (hU : Steady F s₀ s) : Steady F s₀ (staleMeas s d k) := by
  unfold staleMeas
  try dsimp only
  repeat' first
    | with_reducible assumption
    | intro _
    | with_reducible apply ite_steady
    | with_reducible apply setEcho_steady

theorem setDie_steady {d : Nat} {x : DieSt} (hx : standOf x = standOf (die s d)) (hU : Steady F s₀ s) : Steady F s₀ (setDie s d x) := by
  refine ⟨hU.sub, hU.reads, hU.held, hU.lats, fun e => ?_⟩
  by_cases h : d = e
  · subst h
    rw [die_setDie, hx]
    exact hU.stand d
  · rw [die_setDie_other _ _ _ _ h]
    exact hU.stand e

theorem chuteEvt_steady {d : Nat} {c : Nat} {i : Nat} {g : Nat} (hU : Steady F s₀ s) : Steady F s₀ (chuteEvt s d c i g) := by
  unfold chuteEvt
  try dsimp only
  repeat' first
    | with_reducible assumption
    | intro _
    | with_reducible apply ite_steady
    | with_reducible apply raise_steady
    | with_reducible apply whenDo_steady

theorem chuteCount_steady {d : Nat} {c : Nat} {off : Nat} {total : Nat} (ko : Unsteady (pgChute d c) off) (kt : Unsteady (pgChuteGlobal d) total) (hU : Steady F s₀ s) : Steady F s₀ (chuteCount s d c off total) := by
  unfold chuteCount
  try dsimp only
  repeat' first
    | with_reducible assumption
    | with_reducible exact Unsteady.hc (by simp)
    | with_reducible exact Unsteady.chute (by simp)
    | with_reducible exact Unsteady.errInfo
    | with_reducible exact Unsteady.errAddr
    | intro _
    | with_reducible apply ite_steady
    | with_reducible apply count_steady
    | with_reducible apply whenDo_steady

theorem spotted_steady {d : Nat} {c : Nat} (hU : Steady F s₀ s) : Steady F s₀ (spotted s d c) := by
  unfold spotted
  try dsimp only
  repeat' first
    | with_reducible assumption
    | with_reducible exact Unsteady.hc (by simp)
    | with_reducible exact Unsteady.chute (by simp)
    | with_reducible exact Unsteady.errInfo
    | with_reducible exact Unsteady.errAddr
    | with_reducible exact Unsteady.block (by simp) (by simp)
    | intro _
    | with_reducible apply ite_steady
    | with_reducible apply chuteEvt_steady
    | with_reducible apply chuteCount_steady

theorem spotGone_steady {d : Nat} {c : Nat} {ws : List CWord} (hU : Steady F s₀ s) : Steady F s₀ (spotGone s d c ws) := by
  unfold spotGone
  try dsimp only
  repeat' first
    | with_reducible assumption
    | intro _
    | with_reducible apply ite_steady
    | with_reducible apply each_steady
    | with_reducible apply spotted_steady

theorem chuteLost_steady {d : Nat} {c : Nat} (hU : Steady F s₀ s) : Steady F s₀ (chuteLost s d c) := by
  unfold chuteLost
  try dsimp only
  repeat' first
    | with_reducible assumption
    | with_reducible exact Unsteady.hc (by simp)
    | with_reducible exact Unsteady.chute (by simp)
    | with_reducible exact Unsteady.errInfo
    | with_reducible exact Unsteady.errAddr
    | with_reducible exact Unsteady.block (by simp) (by simp)
    | intro _
    | with_reducible apply ite_steady
    | with_reducible apply chuteEvt_steady
    | with_reducible apply chuteCount_steady

theorem chuteLostN_steady {x0 : Nat} {x2 : Nat} {x3 : Nat} (hU : Steady F s₀ s) : Steady F s₀ (chuteLostN x0 s x2 x3) := by
  induction x0 generalizing s x2 x3 with
  | zero => exact hU
  | succ n ih =>
    unfold chuteLostN
    try dsimp only
    repeat' first
      | with_reducible assumption
      | with_reducible apply ih
      | intro _
      | with_reducible apply ite_steady
      | with_reducible apply chuteLost_steady

theorem setChute_steady {d : Nat} {c : Nat} {x : ChuteSt} (hU : Steady F s₀ s) : Steady F s₀ (setChute s d c x) := by
  unfold setChute
  try dsimp only
  repeat' first
    | with_reducible assumption
    | intro _
    | with_reducible apply ite_steady
    | split
    | with_reducible apply Steady.lit

theorem chuteRoom_steady {d : Nat} {c : Nat} {n : Nat} (hU : Steady F s₀ s) : Steady F s₀ (chuteRoom s d c n) := by
  unfold chuteRoom
  try dsimp only
  repeat' first
    | with_reducible assumption
    | intro _
    | with_reducible apply ite_steady
    | with_reducible apply spotGone_steady
    | with_reducible apply chuteLostN_steady
    | with_reducible apply setChute_steady

theorem cgFollow_steady {d : Nat} (hU : Steady F s₀ s) : Steady F s₀ (cgFollow s d) := by
  unfold cgFollow
  try dsimp only
  repeat' first
    | with_reducible assumption
    | intro _
    | with_reducible apply ite_steady
    | with_reducible apply whenDo_steady
    | with_reducible apply setDyn_steady

theorem chuteFollow_steady {d : Nat} {c : Nat} (hU : Steady F s₀ s) : Steady F s₀ (chuteFollow s d c) := by
  unfold chuteFollow
  try dsimp only
  repeat' first
    | with_reducible assumption
    | intro _
    | with_reducible apply ite_steady
    | with_reducible apply cgFollow_steady
    | with_reducible apply whenDo_steady
    | with_reducible apply setDyn_steady
    | with_reducible apply hoistSource_steady

theorem chuteRecord_steady {d : Nat} {c : Nat} {ws : List Word} (hU : Steady F s₀ s) : Steady F s₀ (chuteRecord s d c ws) := by
  unfold chuteRecord
  try dsimp only
  repeat' first
    | with_reducible assumption
    | intro _
    | with_reducible apply ite_steady
    | with_reducible apply chuteRoom_steady
    | with_reducible apply chuteFollow_steady
    | with_reducible apply setChute_steady
    | with_reducible apply chuteLost_steady

theorem logRecord_steady {d : Nat} {cd : Nat} {x : Rec} (hU : Steady F s₀ s) : Steady F s₀ (logRecord s d cd x) := by
  unfold logRecord
  try dsimp only
  repeat' first
    | with_reducible assumption
    | with_reducible exact Unsteady.hc (by simp)
    | with_reducible exact Unsteady.chute (by simp)
    | with_reducible exact Unsteady.errInfo
    | with_reducible exact Unsteady.errAddr
    | with_reducible exact Unsteady.block (by simp) (by simp)
    | intro _
    | with_reducible apply ite_steady
    | with_reducible apply count_steady
    | with_reducible refine setDie_steady (by rfl) ?_
    | with_reducible apply chuteRecord_steady

theorem setMemSt_steady {d : Nat} {x : MemSt} (hU : Steady F s₀ s) : Steady F s₀ (setMemSt s d x) := by
  unfold setMemSt
  try dsimp only
  repeat' first
    | with_reducible assumption
    | intro _
    | with_reducible apply ite_steady
    | split
    | with_reducible apply Steady.lit

theorem reportBad_steady {d : Nat} {dps : Bool} {w : Nat} {src : Nat} {eff : Option Link} {reason : Nat} (hU : Steady F s₀ s) : Steady F s₀ (reportBad s d dps w src eff reason) := by
  unfold reportBad
  try dsimp only
  repeat' first
    | with_reducible assumption
    | with_reducible exact Unsteady.hc (by simp)
    | with_reducible exact Unsteady.chute (by simp)
    | with_reducible exact Unsteady.errInfo
    | with_reducible exact Unsteady.errAddr
    | with_reducible exact Unsteady.block (by simp) (by simp)
    | intro _
    | with_reducible apply ite_steady
    | with_reducible apply wr48_steady
    | with_reducible apply wr_steady
    | with_reducible apply raise_steady
    | with_reducible apply count_steady
    | with_reducible apply logRecord_steady
    | with_reducible apply whenDo_steady
    | with_reducible apply setMemSt_steady

theorem readWord_steady {d : Nat} {dps : Bool} {w : Nat} {src : Nat} {eff : Option Link} {reason : Nat} (hU : Steady F s₀ s) : Steady F s₀ (readWord s d dps w src eff reason).2.2 := by
  unfold readWord
  try dsimp only
  repeat' first
    | with_reducible assumption
    | with_reducible exact Unsteady.hc (by simp)
    | with_reducible exact Unsteady.chute (by simp)
    | with_reducible exact Unsteady.errInfo
    | with_reducible exact Unsteady.errAddr
    | with_reducible exact Unsteady.block (by simp) (by simp)
    | intro _
    | with_reducible apply ite_steady
    | with_reducible apply raise_steady
    | with_reducible apply count_steady
    | with_reducible apply reportBad_steady
    | split
    | with_reducible apply Steady.lit

theorem readWords_steady {x0 : Nat} {x2 : Nat} {x3 : Bool} {x4 : Nat} {x5 : Nat} {x6 : Option Link} {x7 : Nat} (hU : Steady F s₀ s) : Steady F s₀ (readWords x0 s x2 x3 x4 x5 x6 x7).2.2 := by
  induction x0 generalizing s x2 x3 x4 x5 x6 x7 with
  | zero => exact hU
  | succ n ih =>
    unfold readWords
    try dsimp only
    repeat' first
      | with_reducible assumption
      | with_reducible apply ih
      | intro _
      | with_reducible apply ite_steady
      | with_reducible apply readWord_steady
      | (with_reducible refine trip_steady (by assumption) ?_)
      | split

theorem seamPurge_steady {d : Nat} {k : Nat} {e : Nat} {j : Nat} (hU : Steady F s₀ s) : Steady F s₀ (seamPurge s d k e j) := by
  unfold seamPurge
  try dsimp only
  repeat' first
    | with_reducible assumption
    | intro _
    | with_reducible apply ite_steady
    | split
    | with_reducible apply Steady.lit

theorem seamSet_steady {d : Nat} {k : Nat} {st : Nat} {cause : Nat} (hU : Steady F s₀ s) : Steady F s₀ (seamSet s d k st cause) := by
  unfold seamSet
  try dsimp only
  repeat' first
    | with_reducible assumption
    | with_reducible exact Unsteady.hc (by simp)
    | with_reducible exact Unsteady.chute (by simp)
    | with_reducible exact Unsteady.errInfo
    | with_reducible exact Unsteady.errAddr
    | with_reducible exact Unsteady.block (by simp) (by simp)
    | intro _
    | with_reducible apply ite_steady
    | with_reducible apply seamPurge_steady
    | with_reducible apply setCtx_steady
    | with_reducible apply wr_steady
    | with_reducible apply whenDo_steady
    | with_reducible apply raise_steady

theorem seamUpdate_steady {d : Nat} {k : Nat} (hU : Steady F s₀ s) : Steady F s₀ (seamUpdate s d k) := by
  unfold seamUpdate
  try dsimp only
  repeat' first
    | with_reducible assumption
    | intro _
    | with_reducible apply ite_steady
    | with_reducible apply seamSet_steady

theorem ctxFence_steady {d : Nat} {k : Nat} {cause : Nat} (hU : Steady F s₀ s) : Steady F s₀ (ctxFence s d k cause) := by
  unfold ctxFence
  try dsimp only
  repeat' first
    | with_reducible assumption
    | intro _
    | with_reducible apply ite_steady
    | with_reducible apply withdrawAll_steady
    | with_reducible apply stallFollow_steady
    | with_reducible apply setCtx_steady
    | with_reducible apply seamUpdate_steady
    | with_reducible apply sweepBreak_steady
    | with_reducible apply staleMeas_steady
    | with_reducible apply dropMoved_steady
    | with_reducible apply ctxEvt_steady

theorem ctxPoison_steady {d : Nat} {k : Nat} (hU : Steady F s₀ s) : Steady F s₀ (ctxPoison s d k) := by
  unfold ctxPoison
  try dsimp only
  repeat' first
    | with_reducible assumption
    | intro _
    | with_reducible apply ite_steady
    | with_reducible apply ctxFence_steady

theorem ctxRead_steady {d : Nat} {k : Nat} {dps : Bool} {w : Nat} {n : Nat} (hU : Steady F s₀ s) : Steady F s₀ (ctxRead s d k dps w n).2.2 := by
  unfold ctxRead
  try dsimp only
  repeat' first
    | with_reducible assumption
    | intro _
    | with_reducible apply ite_steady
    | with_reducible apply readWords_steady
    | with_reducible apply ctxPoison_steady

theorem geomReport_steady {d : Nat} {k : Nat} {code : Nat} (hU : Steady F s₀ s) : Steady F s₀ (geomReport s d k code) := by
  unfold geomReport
  try dsimp only
  repeat' first
    | with_reducible assumption
    | with_reducible exact Unsteady.hc (by simp)
    | with_reducible exact Unsteady.chute (by simp)
    | with_reducible exact Unsteady.errInfo
    | with_reducible exact Unsteady.errAddr
    | with_reducible exact Unsteady.block (by simp) (by simp)
    | intro _
    | with_reducible apply ite_steady
    | with_reducible apply setCtx_steady
    | with_reducible apply raise_steady
    | with_reducible apply wr_steady

theorem checkSeamMask_steady {d : Nat} {k : Nat} (hU : Steady F s₀ s) : Steady F s₀ (checkSeamMask s d k) := by
  unfold checkSeamMask
  try dsimp only
  repeat' first
    | with_reducible assumption
    | intro _
    | with_reducible apply ite_steady
    | with_reducible apply geomReport_steady

theorem readDescr_steady {d : Nat} {k : Nat} (hU : Steady F s₀ s) : Steady F s₀ (readDescr s d k) := by
  unfold readDescr
  try dsimp only
  repeat' first
    | with_reducible assumption
    | intro _
    | with_reducible apply ite_steady
    | with_reducible apply setCtx_steady
    | with_reducible apply geomReport_steady
    | with_reducible apply ctxRead_steady
    | with_reducible apply checkSeamMask_steady
    | (with_reducible refine trip_steady (by assumption) ?_)
    | split

theorem checkDescr_steady {d : Nat} {k : Nat} (hU : Steady F s₀ s) : Steady F s₀ (checkDescr s d k) := by
  unfold checkDescr
  try dsimp only
  repeat' first
    | with_reducible assumption
    | intro _
    | with_reducible apply ite_steady
    | with_reducible apply seamUpdate_steady
    | with_reducible apply readDescr_steady

theorem ctxDiff_steady {d : Nat} {k : Nat} (hU : Steady F s₀ s) : Steady F s₀ (ctxDiff s d k) := by
  unfold ctxDiff
  try dsimp only
  repeat' first
    | with_reducible assumption
    | intro _
    | with_reducible apply ite_steady
    | with_reducible apply raise_steady
    | split

theorem mapReload_steady {d : Nat} {k : Nat} (hU : Steady F s₀ s) : Steady F s₀ (mapReload s d k) := by
  unfold mapReload
  try dsimp only
  repeat' first
    | with_reducible assumption
    | with_reducible exact Unsteady.hc (by simp)
    | with_reducible exact Unsteady.chute (by simp)
    | with_reducible exact Unsteady.errInfo
    | with_reducible exact Unsteady.errAddr
    | with_reducible exact Unsteady.block (by simp) (by simp)
    | intro _
    | with_reducible apply ite_steady
    | with_reducible apply setCtx_steady
    | with_reducible apply raise_steady
    | with_reducible apply wr_steady

theorem ctxHandOver_steady {d : Nat} {k : Nat} (hU : Steady F s₀ s) : Steady F s₀ (ctxHandOver s d k) := by
  unfold ctxHandOver
  try dsimp only
  repeat' first
    | with_reducible assumption
    | with_reducible exact Unsteady.hc (by simp)
    | with_reducible exact Unsteady.chute (by simp)
    | with_reducible exact Unsteady.errInfo
    | with_reducible exact Unsteady.errAddr
    | with_reducible exact Unsteady.block (by simp [commitOff]; omega) (by simp)
    | intro _
    | with_reducible apply ite_steady
    | with_reducible apply ctxRead_steady
    | with_reducible apply setCtx_steady
    | with_reducible apply wr_steady
    | with_reducible apply stallFollow_steady
    | with_reducible apply checkDescr_steady
    | with_reducible apply ctxDiff_steady
    | with_reducible apply ctxEvt_steady
    | with_reducible apply staleMeas_steady
    | with_reducible apply mapReload_steady

theorem tryHandOver_steady {d : Nat} {k : Nat} (hU : Steady F s₀ s) : Steady F s₀ (tryHandOver s d k) := by
  unfold tryHandOver
  try dsimp only
  repeat' first
    | with_reducible assumption
    | intro _
    | with_reducible apply ite_steady
    | with_reducible apply ctxHandOver_steady

theorem ctxEnter_steady {d : Nat} {k : Nat} {st : CState} {cause : Nat} (hU : Steady F s₀ s) : Steady F s₀ (ctxEnter s d k st cause) := by
  unfold ctxEnter
  try dsimp only
  repeat' first
    | with_reducible assumption
    | intro _
    | with_reducible apply ite_steady
    | with_reducible apply withdrawAll_steady
    | with_reducible apply stallFollow_steady
    | with_reducible apply setCtx_steady
    | with_reducible apply ctxEvt_steady
    | with_reducible apply dropMoved_steady
    | with_reducible apply sweepBreak_steady
    | with_reducible apply staleMeas_steady
    | with_reducible apply tryHandOver_steady
    | with_reducible apply seamUpdate_steady
    | with_reducible apply mapReload_steady
    | with_reducible apply checkDescr_steady
    | split

theorem ctxMove_steady {d : Nat} {k : Nat} {st : CState} {cause : Nat} (hU : Steady F s₀ s) : Steady F s₀ (ctxMove s d k st cause) := by
  unfold ctxMove
  try dsimp only
  repeat' first
    | with_reducible assumption
    | intro _
    | with_reducible apply ite_steady
    | with_reducible apply each_steady
    | with_reducible apply ctxEnter_steady

theorem rePredict_steady {d : Nat} {k : Nat} (hU : Steady F s₀ s) : Steady F s₀ (rePredict s d k) := by
  unfold rePredict
  try dsimp only
  repeat' first
    | with_reducible assumption
    | intro _
    | with_reducible apply ite_steady
    | with_reducible apply setCtx_steady

theorem turnEnd_steady {d : Nat} {k : Nat} (hU : Steady F s₀ s) : Steady F s₀ (turnEnd s d k) := by
  unfold turnEnd
  try dsimp only
  repeat' first
    | with_reducible assumption
    | intro _
    | with_reducible apply ite_steady
    | with_reducible apply each_steady
    | with_reducible apply setCtx_steady
    | with_reducible apply ctxMove_steady
    | with_reducible apply rePredict_steady

theorem retire_steady {d : Nat} {p : Nat} {c : Cycle} (hU : Steady F s₀ s) : Steady F s₀ (retire s d p c) := by
  unfold retire
  try dsimp only
  repeat' first
    | with_reducible assumption
    | intro _
    | with_reducible apply ite_steady
    | with_reducible apply setPort_steady
    | with_reducible apply turnEnd_steady
    | split

theorem cycleOutcome_steady {d : Nat} {p : Nat} {c : Cycle} {delivered : Bool} (hU : Steady F s₀ s) : Steady F s₀ (cycleOutcome s d p c delivered) := by
  unfold cycleOutcome
  try dsimp only
  repeat' first
    | with_reducible assumption
    | intro _
    | with_reducible apply ite_steady
    | with_reducible apply setCycle_steady
    | with_reducible apply each_steady
    | with_reducible apply setCtx_steady
    | with_reducible apply stallReset_steady
    | with_reducible apply stallMark_steady
    | with_reducible apply memberDone_steady
    | with_reducible apply retire_steady

theorem frameEnd_steady {d : Nat} {p : Nat} {f : Frame} {good : Bool} (hU : Steady F s₀ s) : Steady F s₀ (frameEnd s d p f good) := by
  unfold frameEnd
  try dsimp only
  repeat' first
    | with_reducible assumption
    | intro _
    | with_reducible apply ite_steady
    | with_reducible apply setPort_steady
    | with_reducible apply loadFail_steady
    | with_reducible apply setCycle_steady
    | with_reducible apply cycleOutcome_steady
    | split

theorem pwmRoll_steady {d : Nat} {p : Nat} (hU : Steady F s₀ s) : Steady F s₀ (pwmRoll s d p) := by
  unfold pwmRoll
  try dsimp only
  repeat' first
    | with_reducible assumption
    | with_reducible exact Unsteady.hp (by simp) (by simp)
    | with_reducible exact Unsteady.hc (by simp)
    | with_reducible exact Unsteady.chute (by simp)
    | with_reducible exact Unsteady.errInfo
    | with_reducible exact Unsteady.errAddr
    | intro _
    | with_reducible apply ite_steady
    | with_reducible apply setPort_steady
    | with_reducible apply wf_steady
    | with_reducible apply emit_steady

theorem htrFollow_steady {d : Nat} {p : Nat} (hU : Steady F s₀ s) : Steady F s₀ (htrFollow s d p) := by
  unfold htrFollow
  try dsimp only
  repeat' first
    | with_reducible assumption
    | with_reducible exact Unsteady.hp (by simp) (by simp)
    | with_reducible exact Unsteady.hc (by simp)
    | with_reducible exact Unsteady.chute (by simp)
    | with_reducible exact Unsteady.errInfo
    | with_reducible exact Unsteady.errAddr
    | intro _
    | with_reducible apply ite_steady
    | with_reducible apply setDyn_steady
    | with_reducible apply pwmRoll_steady
    | with_reducible apply wf_steady
    | with_reducible apply setPort_steady
    | with_reducible apply wr_steady
    | with_reducible apply emit_steady

theorem hpStop_steady {d : Nat} {p : Nat} (hU : Steady F s₀ s) : Steady F s₀ (hpStop s d p) := by
  unfold hpStop
  try dsimp only
  repeat' first
    | with_reducible assumption
    | intro _
    | with_reducible apply ite_steady
    | with_reducible apply loadAbort_steady
    | with_reducible apply setPort_steady
    | with_reducible apply each_steady
    | with_reducible apply frameEnd_steady
    | with_reducible apply htrFollow_steady

theorem setPosValid_steady {d : Nat} {a : Nat} {b : Bool} (hU : Steady F s₀ s) : Steady F s₀ (setPosValid s d a b) := by
  unfold setPosValid
  try dsimp only
  repeat' first
    | with_reducible assumption
    | with_reducible exact Unsteady.ax (by simp) (by simp)
    | with_reducible exact Unsteady.hc (by simp)
    | with_reducible exact Unsteady.chute (by simp)
    | with_reducible exact Unsteady.errInfo
    | with_reducible exact Unsteady.errAddr
    | intro _
    | with_reducible apply ite_steady
    | with_reducible apply wb_steady

theorem setMstate_steady {d : Nat} {a : Nat} {m : Nat} (hU : Steady F s₀ s) : Steady F s₀ (setMstate s d a m) := by
  unfold setMstate
  try dsimp only
  repeat' first
    | with_reducible assumption
    | with_reducible exact Unsteady.ax (by simp) (by simp)
    | with_reducible exact Unsteady.hc (by simp)
    | with_reducible exact Unsteady.chute (by simp)
    | with_reducible exact Unsteady.errInfo
    | with_reducible exact Unsteady.errAddr
    | intro _
    | with_reducible apply ite_steady
    | with_reducible apply wf_steady

theorem axCut_steady {d : Nat} {a : Nat} {soft : Bool} (hU : Steady F s₀ s) : Steady F s₀ (axCut s d a soft) := by
  unfold axCut
  try dsimp only
  repeat' first
    | with_reducible assumption
    | with_reducible exact Unsteady.ax (by simp) (by simp)
    | with_reducible exact Unsteady.hc (by simp)
    | with_reducible exact Unsteady.chute (by simp)
    | with_reducible exact Unsteady.errInfo
    | with_reducible exact Unsteady.errAddr
    | intro _
    | with_reducible apply ite_steady
    | with_reducible apply setAxis_steady
    | with_reducible apply setPosValid_steady
    | with_reducible apply raise_steady
    | with_reducible apply setMstate_steady
    | with_reducible apply wr48_steady

theorem axHold_steady {d : Nat} {a : Nat} (hU : Steady F s₀ s) : Steady F s₀ (axHold s d a) := by
  unfold axHold
  try dsimp only
  repeat' first
    | with_reducible assumption
    | intro _
    | with_reducible apply ite_steady
    | with_reducible apply setMstate_steady

theorem axShut_steady {d : Nat} {a : Nat} (hs : Off.PAGE_STAT ∉ F) (hU : Steady F s₀ s) : Steady F s₀ (axShut s d a) := by
  unfold axShut
  try dsimp only
  repeat' first
    | with_reducible assumption
    | with_reducible exact hs
    | with_reducible refine wf_steady_of_not_mem hs (by simp) (by simp) ?_
    | intro _
    | with_reducible apply ite_steady
    | with_reducible apply setPstate_steady
    | with_reducible apply axCut_steady
    | with_reducible apply axHold_steady

theorem setPdIn_steady {d : Nat} {n : Nat} {x : PdSt} (hU : Steady F s₀ s) : Steady F s₀ (setPdIn s d n x) := by
  unfold setPdIn
  try dsimp only
  repeat' first
    | with_reducible assumption
    | intro _
    | with_reducible apply ite_steady
    | split
    | with_reducible apply Steady.lit

theorem pdUnlock_steady {d : Nat} {c : Nat} {f : Nat → Bool} (hU : Steady F s₀ s) : Steady F s₀ (pdUnlock s d c f) := by
  unfold pdUnlock
  try dsimp only
  repeat' first
    | with_reducible assumption
    | intro _
    | with_reducible apply ite_steady
    | with_reducible apply each_steady
    | with_reducible apply setPdIn_steady

theorem sendMsg_steady {d : Nat} {c : Nat} {k : MsgKind} (hU : Steady F s₀ s) : Steady F s₀ (sendMsg s d c k) := by
  unfold sendMsg
  try dsimp only
  repeat' first
    | with_reducible assumption
    | intro _
    | with_reducible apply ite_steady
    | split
    | with_reducible apply Steady.lit

theorem encSend_steady {d : Nat} {c : Nat} {k : MsgKind} (hU : Steady F s₀ s) : Steady F s₀ (encSend s d c k) := by
  unfold encSend
  try dsimp only
  repeat' first
    | with_reducible assumption
    | intro _
    | with_reducible apply ite_steady
    | with_reducible apply sendMsg_steady
    | split
    | with_reducible apply Steady.lit

theorem encLost_steady {d : Nat} {c : Nat} (hU : Steady F s₀ s) : Steady F s₀ (encLost s d c) := by
  unfold encLost
  try dsimp only
  repeat' first
    | with_reducible assumption
    | intro _
    | with_reducible apply ite_steady
    | with_reducible apply raise_steady
    | with_reducible apply encSend_steady

theorem encInvalid_steady {d : Nat} {c : Nat} (hU : Steady F s₀ s) : Steady F s₀ (encInvalid s d c) := by
  unfold encInvalid
  try dsimp only
  repeat' first
    | with_reducible assumption
    | with_reducible exact Unsteady.enc (by simp) (by simp)
    | with_reducible exact Unsteady.hc (by simp)
    | with_reducible exact Unsteady.chute (by simp)
    | with_reducible exact Unsteady.errInfo
    | with_reducible exact Unsteady.errAddr
    | intro _
    | with_reducible apply ite_steady
    | with_reducible apply setDyn_steady
    | with_reducible apply wb_steady

theorem encStop_steady {d : Nat} {c : Nat} (hU : Steady F s₀ s) : Steady F s₀ (encStop s d c) := by
  unfold encStop
  try dsimp only
  repeat' first
    | with_reducible assumption
    | intro _
    | with_reducible apply ite_steady
    | with_reducible apply pdUnlock_steady
    | with_reducible apply encLost_steady
    | with_reducible apply encInvalid_steady

theorem setEnc_steady {d : Nat} {c : Nat} {x : EncSt} (hU : Steady F s₀ s) : Steady F s₀ (setEnc s d c x) := by
  unfold setEnc
  try dsimp only
  repeat' first
    | with_reducible assumption
    | intro _
    | with_reducible apply ite_steady
    | split
    | with_reducible apply Steady.lit

theorem winSync_steady {d : Nat} {c : Nat} (hU : Steady F s₀ s) : Steady F s₀ (winSync s d c) := by
  unfold winSync
  try dsimp only
  repeat' first
    | with_reducible assumption
    | intro _
    | with_reducible apply ite_steady
    | with_reducible apply setEnc_steady

theorem encSync_steady {d : Nat} {c : Nat} (hU : Steady F s₀ s) : Steady F s₀ (encSync s d c) := by
  unfold encSync
  try dsimp only
  repeat' first
    | with_reducible assumption
    | with_reducible exact Unsteady.enc (by simp) (by simp)
    | with_reducible exact Unsteady.hc (by simp)
    | with_reducible exact Unsteady.chute (by simp)
    | with_reducible exact Unsteady.errInfo
    | with_reducible exact Unsteady.errAddr
    | intro _
    | with_reducible apply ite_steady
    | with_reducible apply winSync_steady
    | with_reducible apply wr48_steady

theorem setCqRecs_steady {d : Nat} {l : List CqRec} (hU : Steady F s₀ s) : Steady F s₀ (setCqRecs s d l) := by
  unfold setCqRecs
  try dsimp only
  repeat' first
    | with_reducible assumption
    | intro _
    | with_reducible apply ite_steady
    | split
    | with_reducible apply Steady.lit

theorem setHoist_steady {d : Nat} {c : Nat} {x : HoistSt} (hU : Steady F s₀ s) : Steady F s₀ (setHoist s d c x) := by
  unfold setHoist
  try dsimp only
  repeat' first
    | with_reducible assumption
    | intro _
    | with_reducible apply ite_steady
    | split
    | with_reducible apply Steady.lit

theorem cqFollow_steady {d : Nat} {q : Nat} {kept : Bool} (hU : Steady F s₀ s) : Steady F s₀ (cqFollow s d q kept) := by
  unfold cqFollow
  try dsimp only
  repeat' first
    | with_reducible assumption
    | intro _
    | with_reducible apply ite_steady
    | with_reducible apply setDyn_steady

theorem hcUnsig_steady {d : Nat} {c : Nat} (hU : Steady F s₀ s) : Steady F s₀ (hcUnsig s d c) := by
  unfold hcUnsig
  try dsimp only
  repeat' first
    | with_reducible assumption
    | intro _
    | with_reducible apply ite_steady
    | with_reducible apply setCqRecs_steady
    | with_reducible apply setHoist_steady
    | with_reducible apply each_steady
    | with_reducible apply cqFollow_steady

theorem hcStop_steady {d : Nat} {c : Nat} (hU : Steady F s₀ s) : Steady F s₀ (hcStop s d c) := by
  unfold hcStop
  try dsimp only
  repeat' first
    | with_reducible assumption
    | with_reducible exact Unsteady.hc (by simp)
    | with_reducible exact Unsteady.chute (by simp)
    | with_reducible exact Unsteady.errInfo
    | with_reducible exact Unsteady.errAddr
    | intro _
    | with_reducible apply ite_steady
    | with_reducible apply wf_steady
    | with_reducible apply hcUnsig_steady
    | with_reducible apply setHoist_steady

theorem stepDrop_steady (hU : Steady F s₀ s) : Steady F s₀ (stepDrop s) := by
  unfold stepDrop
  try dsimp only
  repeat' first
    | with_reducible assumption
    | with_reducible exact Unsteady.hc (by simp)
    | with_reducible exact Unsteady.chute (by simp)
    | with_reducible exact Unsteady.errInfo
    | with_reducible exact Unsteady.errAddr
    | with_reducible exact Unsteady.block (by simp) (by simp)
    | intro _
    | with_reducible apply ite_steady
    | with_reducible apply wb_steady
    | split
    | with_reducible apply Steady.lit

theorem tsStop_steady (hU : Steady F s₀ s) : Steady F s₀ (tsStop s) := by
  unfold tsStop
  try dsimp only
  repeat' first
    | with_reducible assumption
    | intro _
    | with_reducible apply ite_steady
    | with_reducible apply stepDrop_steady
    | split
    | with_reducible apply Steady.lit

theorem seamsUpdate_steady {d : Nat} (hU : Steady F s₀ s) : Steady F s₀ (seamsUpdate s d) := by
  unfold seamsUpdate
  try dsimp only
  repeat' first
    | with_reducible assumption
    | intro _
    | with_reducible apply ite_steady
    | with_reducible apply each_steady
    | with_reducible apply seamUpdate_steady

theorem setAssay_steady {d : Nat} {x : AssaySt} (hU : Steady F s₀ s) : Steady F s₀ (setAssay s d x) := by
  unfold setAssay
  try dsimp only
  repeat' first
    | with_reducible assumption
    | intro _
    | with_reducible apply ite_steady
    | split
    | with_reducible apply Steady.lit

theorem setAsChan_steady {d : Nat} {c : Nat} {x : AsChan} (hU : Steady F s₀ s) : Steady F s₀ (setAsChan s d c x) := by
  unfold setAsChan
  try dsimp only
  repeat' first
    | with_reducible assumption
    | intro _
    | with_reducible apply ite_steady
    | with_reducible apply setAssay_steady

theorem asStop_steady {d : Nat} (hU : Steady F s₀ s) : Steady F s₀ (asStop s d) := by
  unfold asStop
  try dsimp only
  repeat' first
    | with_reducible assumption
    | intro _
    | with_reducible apply ite_steady
    | with_reducible apply each_steady
    | with_reducible apply setAsChan_steady

theorem sweepEnd_steady {d : Nat} {st : Nat} {fail : Nat} (hU : Steady F s₀ s) : Steady F s₀ (sweepEnd s d st fail) := by
  unfold sweepEnd
  try dsimp only
  repeat' first
    | with_reducible assumption
    | with_reducible exact Unsteady.hc (by simp)
    | with_reducible exact Unsteady.chute (by simp)
    | with_reducible exact Unsteady.errInfo
    | with_reducible exact Unsteady.errAddr
    | with_reducible exact Unsteady.block (by simp) (by simp)
    | intro _
    | with_reducible apply ite_steady
    | with_reducible apply raise_steady
    | with_reducible apply wr_steady

theorem sweepAbort_steady {d : Nat} (hU : Steady F s₀ s) : Steady F s₀ (sweepAbort d s) := by
  unfold sweepAbort
  try dsimp only
  repeat' first
    | with_reducible assumption
    | intro _
    | with_reducible apply ite_steady
    | with_reducible apply sweepEnd_steady

theorem longAbandon_steady {d : Nat} {l : LongCmd} (hU : Steady F s₀ s) : Steady F s₀ (longAbandon s d l) := by
  unfold longAbandon
  try dsimp only
  repeat' first
    | with_reducible assumption
    | intro _
    | with_reducible apply ite_steady
    | with_reducible apply setLink_steady
    | with_reducible apply sweepAbort_steady
    | split

theorem setInState_steady {d : Nat} {sec : Bool} {n : Nat} {st : Nat} (hU : Steady F s₀ s) : Steady F s₀ (setInState s d sec n st) := by
  unfold setInState
  try dsimp only
  repeat' first
    | with_reducible assumption
    | with_reducible exact Unsteady.hc (by simp)
    | with_reducible exact Unsteady.chute (by simp)
    | with_reducible exact Unsteady.errInfo
    | with_reducible exact Unsteady.errAddr
    | with_reducible exact Unsteady.block (by simp [mbOff]; omega) (by simp)
    | intro _
    | with_reducible apply ite_steady
    | with_reducible apply wf_steady

theorem inLoad_steady {d : Nat} {sec : Bool} {n : Nat} {ack : Word} {res : List Word} (hU : Steady F s₀ s) : Steady F s₀ (inLoad s d sec n ack res) := by
  unfold inLoad
  try dsimp only
  repeat' first
    | with_reducible assumption
    | with_reducible exact Unsteady.hc (by simp)
    | with_reducible exact Unsteady.chute (by simp)
    | with_reducible exact Unsteady.errInfo
    | with_reducible exact Unsteady.errAddr
    | with_reducible exact Unsteady.block (by simp [mbOff]; omega) (by simp)
    | intro _
    | with_reducible apply ite_steady
    | with_reducible apply each_steady
    | with_reducible apply wr_steady
    | with_reducible apply raise_steady
    | with_reducible apply setInState_steady

theorem inFinish_steady {d : Nat} {sec : Bool} {n : Nat} {code : Nat} {res : List Word} (hU : Steady F s₀ s) : Steady F s₀ (inFinish s d sec n code res) := by
  unfold inFinish
  try dsimp only
  repeat' first
    | with_reducible assumption
    | with_reducible exact Unsteady.hc (by simp)
    | with_reducible exact Unsteady.chute (by simp)
    | with_reducible exact Unsteady.errInfo
    | with_reducible exact Unsteady.errAddr
    | with_reducible exact Unsteady.block (by simp [mbOff]; omega) (by simp)
    | with_reducible exact Unsteady.block (by simp) (by simp)
    | intro _
    | with_reducible apply ite_steady
    | with_reducible apply setMbox_steady
    | with_reducible apply wr_steady
    | with_reducible apply whenDo_steady
    | with_reducible apply count_steady
    | with_reducible apply setInState_steady
    | with_reducible apply inLoad_steady

theorem longFollow_steady {d : Nat} (hU : Steady F s₀ s) : Steady F s₀ (longFollow s d) := by
  unfold longFollow
  try dsimp only
  repeat' first
    | with_reducible assumption
    | with_reducible exact Unsteady.hc (by simp)
    | with_reducible exact Unsteady.chute (by simp)
    | with_reducible exact Unsteady.errInfo
    | with_reducible exact Unsteady.errAddr
    | with_reducible exact Unsteady.block (by simp) (by simp)
    | intro _
    | with_reducible apply ite_steady
    | with_reducible apply wb_steady

theorem setFw_steady {d : Nat} {x : FwSt} (hU : Steady F s₀ s) : Steady F s₀ (setFw s d x) := by
  unfold setFw
  try dsimp only
  repeat' first
    | with_reducible assumption
    | intro _
    | with_reducible apply ite_steady
    | split
    | with_reducible apply Steady.lit

theorem setLong_steady {d : Nat} {l : Option LongCmd} (hU : Steady F s₀ s) : Steady F s₀ (setLong s d l) := by
  unfold setLong
  try dsimp only
  repeat' first
    | with_reducible assumption
    | intro _
    | with_reducible apply ite_steady
    | with_reducible apply longFollow_steady
    | with_reducible apply setFw_steady

theorem longEnd_steady {d : Nat} {code : Nat} (hU : Steady F s₀ s) : Steady F s₀ (longEnd s d code) := by
  unfold longEnd
  try dsimp only
  repeat' first
    | with_reducible assumption
    | intro _
    | with_reducible apply ite_steady
    | with_reducible apply longAbandon_steady
    | with_reducible apply inFinish_steady
    | with_reducible apply setLong_steady
    | split

theorem outClear_steady {d : Nat} {sec : Bool} (hU : Steady F s₀ s) : Steady F s₀ (outClear s d sec) := by
  unfold outClear
  try dsimp only
  repeat' first
    | with_reducible assumption
    | with_reducible exact Unsteady.hc (by simp)
    | with_reducible exact Unsteady.chute (by simp)
    | with_reducible exact Unsteady.errInfo
    | with_reducible exact Unsteady.errAddr
    | with_reducible exact Unsteady.block (by simp [mbOff]; omega) (by simp)
    | intro _
    | with_reducible apply ite_steady
    | with_reducible apply each_steady
    | with_reducible apply wr_steady
    | with_reducible apply setMbox_steady

theorem mbStop_steady {d : Nat} {sec : Bool} (hU : Steady F s₀ s) : Steady F s₀ (mbStop s d sec) := by
  unfold mbStop
  try dsimp only
  repeat' first
    | with_reducible assumption
    | intro _
    | with_reducible apply ite_steady
    | with_reducible apply longEnd_steady
    | with_reducible apply each_steady
    | with_reducible apply inFinish_steady
    | with_reducible apply outClear_steady
    | split

theorem noFwFollow_steady (hU : Steady F s₀ s) : Steady F s₀ (noFwFollow s) := by
  unfold noFwFollow
  try dsimp only
  repeat' first
    | with_reducible assumption
    | intro _
    | with_reducible apply ite_steady
    | split
    | with_reducible apply Steady.lit

theorem allowedFollow_steady (hU : Steady F s₀ s) : Steady F s₀ (allowedFollow s) := by
  unfold allowedFollow
  try dsimp only
  repeat' first
    | with_reducible assumption
    | with_reducible exact Unsteady.hc (by simp)
    | with_reducible exact Unsteady.chute (by simp)
    | with_reducible exact Unsteady.errInfo
    | with_reducible exact Unsteady.errAddr
    | with_reducible exact Unsteady.block (by simp) (by simp)
    | intro _
    | with_reducible apply ite_steady
    | with_reducible apply noFwFollow_steady
    | with_reducible apply raise_steady
    | with_reducible apply wr_steady

theorem dbgClose_steady {d : Nat} (hU : Steady F s₀ s) : Steady F s₀ (dbgClose s d) := by
  unfold dbgClose
  try dsimp only
  repeat' first
    | with_reducible assumption
    | with_reducible exact Unsteady.hc (by simp)
    | with_reducible exact Unsteady.chute (by simp)
    | with_reducible exact Unsteady.errInfo
    | with_reducible exact Unsteady.errAddr
    | with_reducible exact Unsteady.block (by simp) (by simp)
    | intro _
    | with_reducible apply ite_steady
    | with_reducible apply wb_steady
    | with_reducible refine setDie_steady (by rfl) ?_
    | with_reducible apply allowedFollow_steady
    | with_reducible apply raise_steady

theorem pageShut_steady {p : Pg} (hs : Off.PAGE_STAT ∉ F) (hU : Steady F s₀ s) : Steady F s₀ (pageShut s p) := by
  unfold pageShut
  try dsimp only
  repeat' first
    | with_reducible assumption
    | with_reducible exact hs
    | with_reducible refine wf_steady_of_not_mem hs (by simp) (by simp) ?_
    | intro _
    | with_reducible apply ite_steady
    | with_reducible apply setPstate_steady
    | with_reducible apply hpStop_steady
    | with_reducible apply axShut_steady
    | with_reducible apply encStop_steady
    | with_reducible apply encSync_steady
    | with_reducible apply chuteFollow_steady
    | with_reducible apply setDyn_steady
    | with_reducible apply hcStop_steady
    | with_reducible apply tsStop_steady
    | with_reducible apply seamsUpdate_steady
    | with_reducible apply asStop_steady
    | with_reducible apply mbStop_steady
    | with_reducible apply dbgClose_steady
    | with_reducible apply injFollow_steady
    | split

theorem enSet_steady {p : Pg} {b : Bool} (hc : Off.PAGE_CTRL ∉ F) (hs : Off.PAGE_STAT ∉ F) (hU : Steady F s₀ s) : Steady F s₀ (enSet s p b) := by
  unfold enSet
  try dsimp only
  repeat' first
    | with_reducible assumption
    | with_reducible exact Unsteady.hc (by simp)
    | with_reducible exact Unsteady.chute (by simp)
    | with_reducible exact Unsteady.errInfo
    | with_reducible exact Unsteady.errAddr
    | with_reducible exact hc
    | with_reducible exact hs
    | with_reducible refine wb_steady_of_not_mem hc (by simp) (by simp) ?_
    | with_reducible refine wf_steady_of_not_mem hs (by simp) (by simp) ?_
    | intro _
    | with_reducible apply ite_steady
    | with_reducible apply whenDo_steady
    | with_reducible apply wb_steady
    | with_reducible apply injFollow_steady
    | with_reducible apply setFenceSt_steady
    | with_reducible apply pageStart_steady
    | with_reducible apply setPstate_steady
    | with_reducible apply setLink_steady
    | with_reducible apply pageShut_steady

theorem portRunning_steady {d : Nat} {p : Nat} (hs : Off.PAGE_STAT ∉ F) (hU : Steady F s₀ s) : Steady F s₀ (portRunning s d p) := by
  unfold portRunning
  try dsimp only
  repeat' first
    | with_reducible assumption
    | with_reducible exact hs
    | with_reducible refine wf_steady_of_not_mem hs (by simp) (by simp) ?_
    | intro _
    | with_reducible apply ite_steady
    | with_reducible apply setPstate_steady
    | with_reducible apply setPort_steady
    | with_reducible apply streamFollow_steady
    | with_reducible apply htrFollow_steady

theorem axRunning_steady {d : Nat} {a : Nat} (hs : Off.PAGE_STAT ∉ F) (hU : Steady F s₀ s) : Steady F s₀ (axRunning s d a) := by
  unfold axRunning
  try dsimp only
  repeat' first
    | with_reducible assumption
    | with_reducible exact hs
    | with_reducible refine wf_steady_of_not_mem hs (by simp) (by simp) ?_
    | intro _
    | with_reducible apply ite_steady
    | with_reducible apply setPstate_steady
    | with_reducible apply setAxis_steady
    | with_reducible apply setMstate_steady

theorem spdFollow_steady {d : Nat} {c : Nat} (hU : Steady F s₀ s) : Steady F s₀ (spdFollow s d c) := by
  unfold spdFollow
  try dsimp only
  repeat' first
    | with_reducible assumption
    | with_reducible exact Unsteady.enc (by simp) (by simp)
    | with_reducible exact Unsteady.hc (by simp)
    | with_reducible exact Unsteady.chute (by simp)
    | with_reducible exact Unsteady.errInfo
    | with_reducible exact Unsteady.errAddr
    | intro _
    | with_reducible apply ite_steady
    | with_reducible apply wb_steady

theorem virtTake_steady {d : Nat} {c : Nat} {pos : Int} (hU : Steady F s₀ s) : Steady F s₀ (virtTake s d c pos) := by
  unfold virtTake
  try dsimp only
  repeat' first
    | with_reducible assumption
    | intro _
    | with_reducible apply ite_steady
    | with_reducible apply setEnc_steady

theorem decodeRestart_steady {d : Nat} {c : Nat} {k : Nat} (hU : Steady F s₀ s) : Steady F s₀ (decodeRestart s d c k) := by
  unfold decodeRestart
  try dsimp only
  repeat' first
    | with_reducible assumption
    | intro _
    | with_reducible apply ite_steady
    | with_reducible apply setEnc_steady

theorem encStart_steady {d : Nat} {c : Nat} (hU : Steady F s₀ s) : Steady F s₀ (encStart s d c) := by
  unfold encStart
  try dsimp only
  repeat' first
    | with_reducible assumption
    | intro _
    | with_reducible apply ite_steady
    | with_reducible apply setPstate_steady
    | with_reducible apply setEnc_steady
    | with_reducible apply spdFollow_steady
    | with_reducible apply virtTake_steady
    | with_reducible apply decodeRestart_steady

theorem pdStart_steady {d : Nat} (hU : Steady F s₀ s) : Steady F s₀ (pdStart s d) := by
  unfold pdStart
  try dsimp only
  repeat' first
    | with_reducible assumption
    | intro _
    | with_reducible apply ite_steady
    | with_reducible apply each_steady
    | with_reducible apply setPdIn_steady

theorem dieRecord_steady {d : Nat} {kind : Nat} {reason : Nat} (hU : Steady F s₀ s) : Steady F s₀ (dieRecord s d kind reason) := by
  unfold dieRecord
  try dsimp only
  repeat' first
    | with_reducible assumption
    | intro _
    | with_reducible apply ite_steady
    | with_reducible apply logRecord_steady

theorem pageTied_steady {p : Pg} (hU : Steady F s₀ s) : Steady F s₀ (pageTied s p) := by
  unfold pageTied
  try dsimp only
  repeat' first
    | with_reducible assumption
    | intro _
    | with_reducible apply ite_steady
    | with_reducible apply dieRecord_steady
    | with_reducible refine setDie_steady (by rfl) ?_

theorem mirrorWrite_steady {d : Nat} {c : Nat} (hU : Steady F s₀ s) : Steady F s₀ (mirrorWrite s d c) := by
  unfold mirrorWrite
  try dsimp only
  repeat' first
    | with_reducible assumption
    | intro _
    | with_reducible apply ite_steady
    | with_reducible apply setChute_steady
    | with_reducible apply emit_steady

theorem chuteStart_steady {d : Nat} {c : Nat} (hU : Steady F s₀ s) : Steady F s₀ (chuteStart s d c) := by
  unfold chuteStart
  try dsimp only
  repeat' first
    | with_reducible assumption
    | intro _
    | with_reducible apply ite_steady
    | with_reducible apply setChute_steady
    | with_reducible apply whenDo_steady
    | with_reducible apply chuteEvt_steady
    | with_reducible apply chuteFollow_steady
    | with_reducible apply mirrorWrite_steady

theorem cqAppend_steady {d : Nat} {c : Nat} {kind : Nat} {code : Nat} {q : Nat} {instr : Bool} (hU : Steady F s₀ s) : Steady F s₀ (cqAppend s d c kind code q instr) := by
  unfold cqAppend
  try dsimp only
  repeat' first
    | with_reducible assumption
    | intro _
    | with_reducible apply ite_steady
    | with_reducible apply cqFollow_steady
    | with_reducible apply setCqRecs_steady

theorem errRecord_steady {d : Nat} {c : Nat} {kind : Nat} {code : Nat} (hU : Steady F s₀ s) : Steady F s₀ (errRecord s d c kind code) := by
  unfold errRecord
  try dsimp only
  repeat' first
    | with_reducible assumption
    | intro _
    | with_reducible apply ite_steady
    | with_reducible apply cqAppend_steady

theorem unreserve_steady {d : Nat} {b : Burst} (hU : Steady F s₀ s) : Steady F s₀ (unreserve s d b) := by
  unfold unreserve
  try dsimp only
  repeat' first
    | with_reducible assumption
    | intro _
    | with_reducible apply ite_steady
    | with_reducible apply chuteFollow_steady
    | with_reducible apply setChute_steady
    | split

theorem hcUnhold_steady {d : Nat} {c : Nat} (hU : Steady F s₀ s) : Steady F s₀ (hcUnhold s d c) := by
  unfold hcUnhold
  try dsimp only
  repeat' first
    | with_reducible assumption
    | intro _
    | with_reducible apply ite_steady
    | with_reducible apply each_steady
    | with_reducible apply setHoist_steady
    | with_reducible apply unreserve_steady

theorem hcAborted_steady {d : Nat} {c : Nat} (hU : Steady F s₀ s) : Steady F s₀ (hcAborted s d c) := by
  unfold hcAborted
  try dsimp only
  repeat' first
    | with_reducible assumption
    | intro _
    | with_reducible apply ite_steady
    | with_reducible apply errRecord_steady
    | with_reducible apply hcUnhold_steady
    | with_reducible apply raise_steady
    | with_reducible apply setHoist_steady

theorem hcStarted_steady {d : Nat} {c : Nat} (hU : Steady F s₀ s) : Steady F s₀ (hcStarted s d c) := by
  unfold hcStarted
  try dsimp only
  repeat' first
    | with_reducible assumption
    | with_reducible exact Unsteady.hc (by simp)
    | with_reducible exact Unsteady.chute (by simp)
    | with_reducible exact Unsteady.errInfo
    | with_reducible exact Unsteady.errAddr
    | intro _
    | with_reducible apply ite_steady
    | with_reducible apply setHoist_steady
    | with_reducible apply hcAborted_steady
    | with_reducible apply wr_steady
    | with_reducible apply wr48_steady
    | with_reducible apply errRecord_steady
    | with_reducible apply count_steady
    | with_reducible apply raise_steady
    | split

theorem setTsState_steady {st : Nat} (hU : Steady F s₀ s) : Steady F s₀ (setTsState s st) := by
  unfold setTsState
  try dsimp only
  repeat' first
    | with_reducible assumption
    | with_reducible exact Unsteady.hc (by simp)
    | with_reducible exact Unsteady.chute (by simp)
    | with_reducible exact Unsteady.errInfo
    | with_reducible exact Unsteady.errAddr
    | with_reducible exact Unsteady.block (by simp) (by simp)
    | intro _
    | with_reducible apply ite_steady
    | with_reducible apply wf_steady
    | with_reducible apply raise_steady
    | with_reducible apply wb_steady
    | split
    | with_reducible apply Steady.lit

theorem tsRestart_steady (hU : Steady F s₀ s) : Steady F s₀ (tsRestart s) := by
  unfold tsRestart
  try dsimp only
  repeat' first
    | with_reducible assumption
    | intro _
    | with_reducible apply ite_steady
    | with_reducible apply setTsState_steady
    | split
    | with_reducible apply Steady.lit

theorem tsStart_steady (hU : Steady F s₀ s) : Steady F s₀ (tsStart s) := by
  unfold tsStart
  try dsimp only
  repeat' first
    | with_reducible assumption
    | intro _
    | with_reducible apply ite_steady
    | with_reducible apply tsRestart_steady
    | split
    | with_reducible apply Steady.lit

theorem pageRun_steady {p : Pg} (hs : Off.PAGE_STAT ∉ F) (hU : Steady F s₀ s) : Steady F s₀ (pageRun s p) := by
  unfold pageRun
  try dsimp only
  repeat' first
    | with_reducible assumption
    | with_reducible exact hs
    | with_reducible refine wf_steady_of_not_mem hs (by simp) (by simp) ?_
    | intro _
    | with_reducible apply ite_steady
    | with_reducible apply setPstate_steady
    | with_reducible apply portRunning_steady
    | with_reducible apply axRunning_steady
    | with_reducible apply encStart_steady
    | with_reducible apply pdStart_steady
    | with_reducible apply pageTied_steady
    | with_reducible apply chuteFollow_steady
    | with_reducible apply chuteStart_steady
    | with_reducible apply cgFollow_steady
    | with_reducible apply hcStarted_steady
    | with_reducible apply tsStart_steady
    | with_reducible apply seamsUpdate_steady
    | with_reducible apply injFollow_steady
    | with_reducible refine setDie_steady (by rfl) ?_
    | split

theorem abandonFrames_steady {d : Nat} {p : Nat} (hU : Steady F s₀ s) : Steady F s₀ (abandonFrames s d p) := by
  unfold abandonFrames
  try dsimp only
  repeat' first
    | with_reducible assumption
    | intro _
    | with_reducible apply ite_steady
    | with_reducible apply linkStat_steady
    | with_reducible apply setPort_steady
    | with_reducible apply each_steady
    | with_reducible apply stallFollow_steady
    | with_reducible apply frameEnd_steady

theorem setTherm_steady {d : Nat} {x : ThermSt} (hU : Steady F s₀ s) : Steady F s₀ (setTherm s d x) := by
  unfold setTherm
  try dsimp only
  repeat' first
    | with_reducible assumption
    | intro _
    | with_reducible apply ite_steady
    | split
    | with_reducible apply Steady.lit

theorem thermOff_steady {d : Nat} {p : Nat} (hU : Steady F s₀ s) : Steady F s₀ (thermOff s d p) := by
  unfold thermOff
  try dsimp only
  repeat' first
    | with_reducible assumption
    | with_reducible exact Unsteady.hp (by simp) (by simp)
    | with_reducible exact Unsteady.hc (by simp)
    | with_reducible exact Unsteady.chute (by simp)
    | with_reducible exact Unsteady.errInfo
    | with_reducible exact Unsteady.errAddr
    | with_reducible exact Unsteady.block (by simp [thReg]; omega) (by simp)
    | intro _
    | with_reducible apply ite_steady
    | with_reducible apply setTherm_steady
    | with_reducible apply htrFollow_steady
    | with_reducible apply wb_steady

theorem hpOff_steady {d : Nat} {p : Nat} (hU : Steady F s₀ s) : Steady F s₀ (hpOff s d p) := by
  unfold hpOff
  try dsimp only
  repeat' first
    | with_reducible assumption
    | intro _
    | with_reducible apply ite_steady
    | with_reducible apply setLink_steady
    | with_reducible apply abandonFrames_steady
    | with_reducible apply thermOff_steady
    | with_reducible apply setPort_steady

theorem axisLost_steady {d : Nat} {a : Nat} (hU : Steady F s₀ s) : Steady F s₀ (axisLost s d a) := by
  unfold axisLost
  try dsimp only
  repeat' first
    | with_reducible assumption
    | intro _
    | with_reducible apply ite_steady
    | with_reducible apply each_steady
    | with_reducible apply encLost_steady

theorem axOff_steady {d : Nat} {a : Nat} (hU : Steady F s₀ s) : Steady F s₀ (axOff s d a) := by
  unfold axOff
  try dsimp only
  repeat' first
    | with_reducible assumption
    | intro _
    | with_reducible apply ite_steady
    | with_reducible apply setAxis_steady
    | with_reducible apply axisLost_steady
    | with_reducible apply setPosValid_steady
    | with_reducible apply setMstate_steady

theorem heldForget_steady {d : Nat} {q : Nat} (hU : Steady F s₀ s) : Steady F s₀ (heldForget s d q) := by
  unfold heldForget
  try dsimp only
  repeat' first
    | with_reducible assumption
    | intro _
    | with_reducible apply ite_steady
    | with_reducible apply each_steady
    | with_reducible apply setHoist_steady

theorem hcStopped_steady {d : Nat} {c : Nat} (hU : Steady F s₀ s) : Steady F s₀ (hcStopped s d c) := by
  unfold hcStopped
  try dsimp only
  repeat' first
    | with_reducible assumption
    | intro _
    | with_reducible apply ite_steady
    | with_reducible apply hcUnhold_steady
    | with_reducible apply errRecord_steady
    | with_reducible apply setHoist_steady

theorem padB_steady {s0 : State} {d : Nat} {c : Nat} (hU : Steady F s₀ s) : Steady F s₀ (padB s0 s d c) := by
  unfold padB
  try dsimp only
  repeat' first
    | with_reducible assumption
    | intro _
    | with_reducible apply ite_steady
    | with_reducible apply emit_steady

theorem serDrop_steady {d : Nat} {c : Nat} (hU : Steady F s₀ s) : Steady F s₀ (serDrop s d c) := by
  unfold serDrop
  try dsimp only
  repeat' first
    | with_reducible assumption
    | intro _
    | with_reducible apply ite_steady
    | with_reducible apply padB_steady
    | with_reducible apply setEnc_steady

theorem tsOff_steady (hU : Steady F s₀ s) : Steady F s₀ (tsOff s) := by
  unfold tsOff
  try dsimp only
  repeat' first
    | with_reducible assumption
    | intro _
    | with_reducible apply ite_steady
    | with_reducible apply setTsState_steady

theorem pageOff_steady {p : Pg} (hU : Steady F s₀ s) : Steady F s₀ (pageOff s p) := by
  unfold pageOff
  try dsimp only
  repeat' first
    | with_reducible assumption
    | intro _
    | with_reducible apply ite_steady
    | with_reducible apply hpOff_steady
    | with_reducible apply axOff_steady
    | with_reducible apply heldForget_steady
    | with_reducible apply setChute_steady
    | with_reducible apply spotGone_steady
    | with_reducible apply raise_steady
    | with_reducible apply hcStopped_steady
    | with_reducible apply serDrop_steady
    | with_reducible apply tsOff_steady
    | split

theorem senseCut_steady {d : Nat} {p : Nat} (hU : Steady F s₀ s) : Steady F s₀ (senseCut s d p) := by
  unfold senseCut
  try dsimp only
  repeat' first
    | with_reducible assumption
    | intro _
    | with_reducible apply ite_steady
    | with_reducible apply setEcho_steady

theorem rampDown_steady {d : Nat} {p : Nat} {x : PortSt} (hU : Steady F s₀ s) : Steady F s₀ (rampDown s d p x) := by
  unfold rampDown
  try dsimp only
  repeat' first
    | with_reducible assumption
    | intro _
    | with_reducible apply ite_steady
    | split
    | with_reducible apply Steady.lit

theorem hpCut_steady {d : Nat} {p : Nat} (hU : Steady F s₀ s) : Steady F s₀ (hpCut s d p) := by
  unfold hpCut
  try dsimp only
  repeat' first
    | with_reducible assumption
    | intro _
    | with_reducible apply ite_steady
    | with_reducible apply setPort_steady
    | with_reducible apply senseCut_steady
    | with_reducible apply emit_steady
    | with_reducible apply rampDown_steady

theorem nullFrames_steady {d : Nat} {p : Nat} (hU : Steady F s₀ s) : Steady F s₀ (nullFrames s d p) := by
  unfold nullFrames
  try dsimp only
  repeat' first
    | with_reducible assumption
    | intro _
    | with_reducible apply ite_steady
    | with_reducible apply setPort_steady

theorem setAsActive_steady {d : Nat} {cls : Nat} {c : Option Nat} (hU : Steady F s₀ s) : Steady F s₀ (setAsActive s d cls c) := by
  unfold setAsActive
  try dsimp only
  repeat' first
    | with_reducible assumption
    | intro _
    | with_reducible apply ite_steady
    | with_reducible apply setAssay_steady

theorem asQueue_steady {d : Nat} {c : Nat} {kind : Nat} (hU : Steady F s₀ s) : Steady F s₀ (asQueue s d c kind) := by
  unfold asQueue
  try dsimp only
  repeat' first
    | with_reducible assumption
    | intro _
    | with_reducible apply ite_steady
    | with_reducible apply setAsChan_steady

theorem asRotate_steady {d : Nat} {cls : Nat} (hU : Steady F s₀ s) : Steady F s₀ (asRotate s d cls) := by
  unfold asRotate
  try dsimp only
  repeat' first
    | with_reducible assumption
    | intro _
    | with_reducible apply ite_steady
    | with_reducible apply asQueue_steady
    | with_reducible apply setAssay_steady
    | split

theorem asEnd_steady {d : Nat} {c : Nat} {res : Nat} (hU : Steady F s₀ s) : Steady F s₀ (asEnd s d c res) := by
  unfold asEnd
  try dsimp only
  repeat' first
    | with_reducible assumption
    | intro _
    | with_reducible apply ite_steady
    | with_reducible apply setAsActive_steady
    | with_reducible apply setAsChan_steady
    | with_reducible apply asRotate_steady
    | with_reducible apply raise_steady

theorem spareBack_steady {d : Nat} {c : Nat} (hU : Steady F s₀ s) : Steady F s₀ (spareBack s d c) := by
  unfold spareBack
  try dsimp only
  repeat' first
    | with_reducible assumption
    | intro _
    | with_reducible apply ite_steady
    | with_reducible apply setAssay_steady

theorem asPortFenced_steady {d : Nat} {p : Nat} (hU : Steady F s₀ s) : Steady F s₀ (asPortFenced s d p) := by
  unfold asPortFenced
  try dsimp only
  repeat' first
    | with_reducible assumption
    | intro _
    | with_reducible apply ite_steady
    | with_reducible apply each_steady
    | with_reducible apply asEnd_steady
    | with_reducible apply spareBack_steady

theorem hpSafe_steady {d : Nat} {p : Nat} {ks : List Nat} (hU : Steady F s₀ s) : Steady F s₀ (hpSafe s d p ks) := by
  unfold hpSafe
  try dsimp only
  repeat' first
    | with_reducible assumption
    | intro _
    | with_reducible apply ite_steady
    | with_reducible apply hpCut_steady
    | with_reducible apply nullFrames_steady
    | with_reducible apply loadAbort_steady
    | with_reducible apply each_steady
    | with_reducible apply ctxFence_steady
    | with_reducible apply asPortFenced_steady
    | with_reducible apply htrFollow_steady

theorem encSafe_steady {d : Nat} {c : Nat} (hU : Steady F s₀ s) : Steady F s₀ (encSafe s d c) := by
  unfold encSafe
  try dsimp only
  repeat' first
    | with_reducible assumption
    | intro _
    | with_reducible apply ite_steady
    | with_reducible apply pdUnlock_steady
    | with_reducible apply encLost_steady
    | with_reducible apply encInvalid_steady
    | with_reducible apply serDrop_steady

theorem pdSafe_steady {d : Nat} (hU : Steady F s₀ s) : Steady F s₀ (pdSafe s d) := by
  unfold pdSafe
  try dsimp only
  repeat' first
    | with_reducible assumption
    | intro _
    | with_reducible apply ite_steady
    | split
    | with_reducible apply Steady.lit

theorem axSafe_steady {d : Nat} {a : Nat} {reason : Nat} (hU : Steady F s₀ s) : Steady F s₀ (axSafe s d a reason) := by
  unfold axSafe
  try dsimp only
  repeat' first
    | with_reducible assumption
    | intro _
    | with_reducible apply ite_steady
    | with_reducible apply setMstate_steady
    | with_reducible apply setAxis_steady
    | with_reducible apply setPosValid_steady
    | with_reducible apply axisLost_steady

theorem echoSafe_steady {d : Nat} (hU : Steady F s₀ s) : Steady F s₀ (echoSafe s d) := by
  unfold echoSafe
  try dsimp only
  repeat' first
    | with_reducible assumption
    | intro _
    | with_reducible apply ite_steady
    | with_reducible apply emit_steady
    | with_reducible apply setEcho_steady
    | with_reducible apply each_steady
    | with_reducible apply setPort_steady

theorem asForget_steady {d : Nat} {c : Nat} (hU : Steady F s₀ s) : Steady F s₀ (asForget s d c) := by
  unfold asForget
  try dsimp only
  repeat' first
    | with_reducible assumption
    | intro _
    | with_reducible apply ite_steady
    | with_reducible apply setAsActive_steady
    | with_reducible apply setAsChan_steady

theorem asApply_steady {d : Nat} {c : Nat} (hU : Steady F s₀ s) : Steady F s₀ (asApply s d c) := by
  unfold asApply
  try dsimp only
  repeat' first
    | with_reducible assumption
    | intro _
    | with_reducible apply ite_steady
    | with_reducible apply setAsChan_steady
    | split

theorem asHandBack_steady {d : Nat} {c : Nat} (hU : Steady F s₀ s) : Steady F s₀ (asHandBack s d c) := by
  unfold asHandBack
  try dsimp only
  repeat' first
    | with_reducible assumption
    | intro _
    | with_reducible apply ite_steady
    | with_reducible apply asEnd_steady
    | with_reducible apply spareBack_steady
    | with_reducible apply asForget_steady
    | with_reducible apply asApply_steady

theorem asAbandon_steady {d : Nat} {c : Nat} (hU : Steady F s₀ s) : Steady F s₀ (asAbandon s d c) := by
  unfold asAbandon
  try dsimp only
  repeat' first
    | with_reducible assumption
    | intro _
    | with_reducible apply ite_steady
    | with_reducible apply asForget_steady
    | with_reducible apply setAsChan_steady
    | with_reducible apply asHandBack_steady

theorem asSafe_steady {d : Nat} (hU : Steady F s₀ s) : Steady F s₀ (asSafe s d) := by
  unfold asSafe
  try dsimp only
  repeat' first
    | with_reducible assumption
    | intro _
    | with_reducible apply ite_steady
    | with_reducible apply each_steady
    | with_reducible apply asAbandon_steady

theorem hcDrop_steady {d : Nat} {c : Nat} (hU : Steady F s₀ s) : Steady F s₀ (hcDrop s d c) := by
  unfold hcDrop
  try dsimp only
  repeat' first
    | with_reducible assumption
    | intro _
    | with_reducible apply ite_steady
    | with_reducible apply setHoist_steady
    | with_reducible apply each_steady
    | with_reducible apply unreserve_steady
    | split
    | with_reducible apply Steady.lit

theorem hoistSafe_steady {d : Nat} {c : Nat} (hU : Steady F s₀ s) : Steady F s₀ (hoistSafe s d c) := by
  unfold hoistSafe
  try dsimp only
  repeat' first
    | with_reducible assumption
    | intro _
    | with_reducible apply ite_steady
    | with_reducible apply hcUnsig_steady
    | with_reducible apply hcDrop_steady
    | with_reducible apply setHoist_steady
    | split
    | with_reducible apply Steady.lit

theorem setLamp_steady {d : Nat} {x : LampSt} (hU : Steady F s₀ s) : Steady F s₀ (setLamp s d x) := by
  unfold setLamp
  try dsimp only
  repeat' first
    | with_reducible assumption
    | intro _
    | with_reducible apply ite_steady
    | split
    | with_reducible apply Steady.lit

theorem lampSafe_steady {d : Nat} (hU : Steady F s₀ s) : Steady F s₀ (lampSafe s d) := by
  unfold lampSafe
  try dsimp only
  repeat' first
    | with_reducible assumption
    | intro _
    | with_reducible apply ite_steady
    | with_reducible apply setLamp_steady

theorem thermSafe_steady {d : Nat} (hU : Steady F s₀ s) : Steady F s₀ (thermSafe s d) := by
  unfold thermSafe
  try dsimp only
  repeat' first
    | with_reducible assumption
    | intro _
    | with_reducible apply ite_steady
    | with_reducible apply setTherm_steady

theorem pageSafe_steady {p : Pg} {reason : Nat} {ks : List Nat} (hU : Steady F s₀ s) : Steady F s₀ (pageSafe s p reason ks) := by
  unfold pageSafe
  try dsimp only
  repeat' first
    | with_reducible assumption
    | with_reducible exact Unsteady.block (by simp) (by simp [heldOffs, heldOf, *])
    | intro _
    | with_reducible apply ite_steady
    | with_reducible apply hpSafe_steady
    | with_reducible apply encSafe_steady
    | with_reducible apply pdSafe_steady
    | with_reducible apply axSafe_steady
    | with_reducible apply seamsUpdate_steady
    | with_reducible apply echoSafe_steady
    | with_reducible apply asSafe_steady
    | with_reducible apply hoistSafe_steady
    | with_reducible apply lampSafe_steady
    | with_reducible apply thermSafe_steady
    | with_reducible apply dbgClose_steady
    | with_reducible apply stepDrop_steady
    | with_reducible apply wf_steady
    | with_reducible apply chuteFollow_steady
    | split

theorem fenceQuiet_steady {p : Pg} {reason : Nat} {ks : List Nat} (hc : Off.PAGE_CTRL ∉ F) (hs : Off.PAGE_STAT ∉ F) (hU : Steady F s₀ s) : Steady F s₀ (fenceQuiet s p reason ks) := by
  unfold fenceQuiet
  try dsimp only
  repeat' first
    | with_reducible assumption
    | with_reducible exact Unsteady.hc (by simp)
    | with_reducible exact Unsteady.chute (by simp)
    | with_reducible exact Unsteady.errInfo
    | with_reducible exact Unsteady.errAddr
    | with_reducible exact Unsteady.block (by simp) (by simp)
    | with_reducible exact hc
    | with_reducible exact hs
    | with_reducible refine wb_steady_of_not_mem hc (by simp) (by simp) ?_
    | with_reducible refine wf_steady_of_not_mem hs (by simp) (by simp) ?_
    | intro _
    | with_reducible apply ite_steady
    | with_reducible apply encSync_steady
    | with_reducible apply setFenceSt_steady
    | with_reducible apply wf_steady
    | with_reducible apply setPstate_steady
    | with_reducible apply wb_steady
    | with_reducible apply wr_steady
    | with_reducible apply raise_steady
    | with_reducible apply count_steady
    | with_reducible apply pageSafe_steady

theorem fencePage_steady {p : Pg} {reason : Nat} (hc : Off.PAGE_CTRL ∉ F) (hs : Off.PAGE_STAT ∉ F) (hU : Steady F s₀ s) : Steady F s₀ (fencePage s p reason) := by
  unfold fencePage
  try dsimp only
  repeat' first
    | with_reducible assumption
    | with_reducible exact hc
    | with_reducible exact hs
    | with_reducible refine wb_steady_of_not_mem hc (by simp) (by simp) ?_
    | with_reducible refine wf_steady_of_not_mem hs (by simp) (by simp) ?_
    | intro _
    | with_reducible apply ite_steady
    | with_reducible apply logRecord_steady
    | with_reducible apply fenceQuiet_steady

theorem fencePageFor_steady {p : Pg} {reason : Nat} {cause : Link} (hc : Off.PAGE_CTRL ∉ F) (hs : Off.PAGE_STAT ∉ F) (hU : Steady F s₀ s) : Steady F s₀ (fencePageFor s p reason cause) := by
  unfold fencePageFor
  try dsimp only
  repeat' first
    | with_reducible assumption
    | with_reducible exact hc
    | with_reducible exact hs
    | with_reducible refine wb_steady_of_not_mem hc (by simp) (by simp) ?_
    | with_reducible refine wf_steady_of_not_mem hs (by simp) (by simp) ?_
    | intro _
    | with_reducible apply ite_steady
    | with_reducible apply logRecord_steady
    | with_reducible apply fenceQuiet_steady

theorem fenceAll_steady {d : Nat} {reason : Nat} (hc : Off.PAGE_CTRL ∉ F) (hs : Off.PAGE_STAT ∉ F) (hU : Steady F s₀ s) :
    Steady F s₀ (fenceAll s d reason) := by
  unfold fenceAll
  dsimp only
  refine setDie_steady (by rfl) ?_
  apply each_steady
  · exact each_steady hU fun t k => ctxFence_steady
  · exact fun t p => fenceQuiet_steady hc hs

theorem seamsAll_steady (hU : Steady F s₀ s) : Steady F s₀ (seamsAll s) := by
  unfold seamsAll
  try dsimp only
  repeat' first
    | with_reducible assumption
    | intro _
    | with_reducible apply ite_steady
    | with_reducible apply each_steady
    | with_reducible apply seamsUpdate_steady

theorem dieTicks_steady {c : Nat} {n : Nat} {d : Nat} (hU : Steady F s₀ s) : Steady F s₀ (dieTicks s c n d) := by
  unfold dieTicks
  try dsimp only
  repeat' first
    | with_reducible assumption
    | intro _
    | with_reducible apply ite_steady
    | with_reducible refine setDie_steady (by rfl) ?_
    | with_reducible apply whenDo_steady
    | with_reducible apply raise_steady

theorem ticksPass_steady {n : Nat} (hU : Steady F s₀ s) : Steady F s₀ (ticksPass s n) := by
  unfold ticksPass
  try dsimp only
  repeat' first
    | with_reducible assumption
    | intro _
    | with_reducible apply ite_steady
    | with_reducible apply each_steady
    | with_reducible apply dieTicks_steady
    | split
    | with_reducible apply Steady.lit

theorem waitClock_steady {c : Nat} (hU : Steady F s₀ s) : Steady F s₀ (waitClock s c) := by
  unfold waitClock
  try dsimp only
  repeat' first
    | with_reducible assumption
    | intro _
    | with_reducible apply ite_steady
    | with_reducible apply ticksPass_steady

theorem waitTick_steady {d : Nat} {t : Int} (hU : Steady F s₀ s) : Steady F s₀ (waitTick s d t) := by
  unfold waitTick
  try dsimp only
  repeat' first
    | with_reducible assumption
    | intro _
    | with_reducible apply ite_steady
    | with_reducible apply ticksPass_steady

theorem pdMoved_steady {d : Nat} {c : Nat} (hU : Steady F s₀ s) : Steady F s₀ (pdMoved s d c) := by
  unfold pdMoved
  try dsimp only
  repeat' first
    | with_reducible assumption
    | intro _
    | with_reducible apply ite_steady
    | with_reducible apply pdUnlock_steady

theorem virtFollow_steady {d : Nat} {c : Nat} (hU : Steady F s₀ s) : Steady F s₀ (virtFollow s d c) := by
  unfold virtFollow
  try dsimp only
  repeat' first
    | with_reducible assumption
    | intro _
    | with_reducible apply ite_steady
    | with_reducible apply encSync_steady
    | with_reducible apply pdMoved_steady
    | with_reducible apply raise_steady

theorem modeTurn_steady {d : Nat} {c : Nat} {pos : Int} (hU : Steady F s₀ s) : Steady F s₀ (modeTurn s d c pos) := by
  unfold modeTurn
  try dsimp only
  repeat' first
    | with_reducible assumption
    | with_reducible exact Unsteady.enc (by simp) (by simp)
    | with_reducible exact Unsteady.hc (by simp)
    | with_reducible exact Unsteady.chute (by simp)
    | with_reducible exact Unsteady.errInfo
    | with_reducible exact Unsteady.errAddr
    | intro _
    | with_reducible apply ite_steady
    | with_reducible apply decodeRestart_steady
    | with_reducible apply virtTake_steady
    | with_reducible apply wr48_steady
    | with_reducible apply setEnc_steady

theorem nextFree_steady (hU : Steady F s₀ s) : Steady F s₀ (nextFree s) := by
  unfold nextFree
  try dsimp only
  repeat' first
    | with_reducible assumption
    | intro _
    | with_reducible apply ite_steady
    | split
    | with_reducible apply Steady.lit

theorem posArrange_steady {d : Nat} (hU : Steady F s₀ s) : Steady F s₀ (posArrange s d) := by
  unfold posArrange
  try dsimp only
  repeat' first
    | with_reducible assumption
    | with_reducible exact Unsteady.enc (by simp) (by simp)
    | with_reducible exact Unsteady.hc (by simp)
    | with_reducible exact Unsteady.chute (by simp)
    | with_reducible exact Unsteady.errInfo
    | with_reducible exact Unsteady.errAddr
    | intro _
    | with_reducible apply ite_steady
    | with_reducible apply setChute_steady
    | with_reducible apply each_steady
    | with_reducible apply latch_steady
    | with_reducible apply wf_steady

theorem posRecord_steady {d : Nat} {key : Nat} {type : Nat} {ch : Nat} {pd : Nat} {count : Int} {stamp : Int} {w5 : Int} {write : Bool} {latch : Bool} (hU : Steady F s₀ s) : Steady F s₀ (posRecord s d key type ch pd count stamp w5 write latch) := by
  unfold posRecord
  try dsimp only
  repeat' first
    | with_reducible assumption
    | with_reducible exact Unsteady.hc (by simp)
    | with_reducible exact Unsteady.chute (by simp)
    | with_reducible exact Unsteady.errInfo
    | with_reducible exact Unsteady.errAddr
    | intro _
    | with_reducible apply ite_steady
    | with_reducible apply count_steady
    | with_reducible apply latch_steady
    | with_reducible apply posArrange_steady
    | with_reducible refine setDie_steady (by rfl) ?_
    | with_reducible apply chuteRecord_steady
    | split

theorem latchSet_steady {d : Nat} {c : Nat} {src : Nat} {pd : Nat} {stamp : Int} (hU : Steady F s₀ s) : Steady F s₀ (latchSet s d c src pd stamp) := by
  unfold latchSet
  try dsimp only
  repeat' first
    | with_reducible assumption
    | with_reducible exact Unsteady.enc (by simp) (by simp)
    | with_reducible exact Unsteady.hc (by simp)
    | with_reducible exact Unsteady.chute (by simp)
    | with_reducible exact Unsteady.errInfo
    | with_reducible exact Unsteady.errAddr
    | intro _
    | with_reducible apply ite_steady
    | with_reducible apply nextFree_steady
    | with_reducible apply setEnc_steady
    | with_reducible apply wr_steady
    | with_reducible apply wr48_steady
    | with_reducible apply posRecord_steady

theorem latchAgain_steady {d : Nat} {c : Nat} (hU : Steady F s₀ s) : Steady F s₀ (latchAgain s d c) := by
  unfold latchAgain
  try dsimp only
  repeat' first
    | with_reducible assumption
    | intro _
    | with_reducible apply ite_steady
    | with_reducible apply latchSet_steady

theorem sendStep_steady {d : Nat} {c : Nat} {amount : Int} {stamp : Int} (hU : Steady F s₀ s) : Steady F s₀ (sendStep s d c amount stamp) := by
  unfold sendStep
  try dsimp only
  repeat' first
    | with_reducible assumption
    | intro _
    | with_reducible apply ite_steady
    | with_reducible apply encSend_steady
    | with_reducible apply posRecord_steady
    | with_reducible apply raise_steady

theorem winShift_steady {d : Nat} {c : Nat} {amount : Int} (hU : Steady F s₀ s) : Steady F s₀ (winShift s d c amount) := by
  unfold winShift
  try dsimp only
  repeat' first
    | with_reducible assumption
    | intro _
    | with_reducible apply ite_steady
    | with_reducible apply setEnc_steady

theorem shiftEst_steady {d : Nat} {c : Nat} {amount : Int} (hU : Steady F s₀ s) : Steady F s₀ (shiftEst s d c amount) := by
  unfold shiftEst
  try dsimp only
  repeat' first
    | with_reducible assumption
    | with_reducible exact Unsteady.enc (by simp) (by simp)
    | with_reducible exact Unsteady.hc (by simp)
    | with_reducible exact Unsteady.chute (by simp)
    | with_reducible exact Unsteady.errInfo
    | with_reducible exact Unsteady.errAddr
    | intro _
    | with_reducible apply ite_steady
    | with_reducible apply winShift_steady
    | with_reducible apply setEnc_steady
    | with_reducible apply wr48_steady

theorem setPos_steady {d : Nat} {c : Nat} {n : Int} (hU : Steady F s₀ s) : Steady F s₀ (setPos s d c n) := by
  unfold setPos
  try dsimp only
  repeat' first
    | with_reducible assumption
    | with_reducible exact Unsteady.enc (by simp) (by simp)
    | with_reducible exact Unsteady.hc (by simp)
    | with_reducible exact Unsteady.chute (by simp)
    | with_reducible exact Unsteady.errInfo
    | with_reducible exact Unsteady.errAddr
    | intro _
    | with_reducible apply ite_steady
    | with_reducible apply wr48_steady
    | with_reducible apply winSync_steady
    | with_reducible apply pdMoved_steady
    | with_reducible apply raise_steady

theorem pdTurn_steady {s0 : State} {d : Nat} {n : Nat} (hU : Steady F s₀ s) : Steady F s₀ (pdTurn s0 s d n) := by
  unfold pdTurn
  try dsimp only
  repeat' first
    | with_reducible assumption
    | with_reducible exact Unsteady.hc (by simp)
    | with_reducible exact Unsteady.chute (by simp)
    | with_reducible exact Unsteady.errInfo
    | with_reducible exact Unsteady.errAddr
    | with_reducible exact Unsteady.block (by simp) (by simp)
    | intro _
    | with_reducible apply ite_steady
    | with_reducible apply wb_steady
    | with_reducible apply setPdIn_steady

theorem tbFollow_steady (hU : Steady F s₀ s) : Steady F s₀ (tbFollow s) := by
  unfold tbFollow
  try dsimp only
  repeat' first
    | with_reducible assumption
    | with_reducible exact Unsteady.hc (by simp)
    | with_reducible exact Unsteady.chute (by simp)
    | with_reducible exact Unsteady.errInfo
    | with_reducible exact Unsteady.errAddr
    | with_reducible exact Unsteady.block (by simp) (by simp)
    | intro _
    | with_reducible apply ite_steady
    | with_reducible apply each_steady
    | with_reducible apply setDyn_steady
    | with_reducible apply wb_steady

theorem setSeconds_steady {v : Nat} (hU : Steady F s₀ s) : Steady F s₀ (setSeconds s v) := by
  unfold setSeconds
  try dsimp only
  repeat' first
    | with_reducible assumption
    | with_reducible exact Unsteady.hc (by simp)
    | with_reducible exact Unsteady.chute (by simp)
    | with_reducible exact Unsteady.errInfo
    | with_reducible exact Unsteady.errAddr
    | with_reducible exact Unsteady.block (by simp) (by simp)
    | intro _
    | with_reducible apply ite_steady
    | with_reducible apply each_steady
    | with_reducible apply raise_steady
    | with_reducible apply wr48_steady
    | split
    | with_reducible apply Steady.lit

theorem axPolicy_steady {d : Nat} {a : Nat} {fenceBit : Nat} {reason : Nat} (hc : Off.PAGE_CTRL ∉ F) (hs : Off.PAGE_STAT ∉ F) (hU : Steady F s₀ s) : Steady F s₀ (axPolicy s d a fenceBit reason) := by
  unfold axPolicy
  try dsimp only
  repeat' first
    | with_reducible assumption
    | with_reducible exact hc
    | with_reducible exact hs
    | with_reducible refine wb_steady_of_not_mem hc (by simp) (by simp) ?_
    | with_reducible refine wf_steady_of_not_mem hs (by simp) (by simp) ?_
    | intro _
    | with_reducible apply ite_steady
    | with_reducible apply fencePage_steady
    | with_reducible apply setAxis_steady

theorem axFault_steady {d : Nat} {a : Nat} {bitNo : Nat} {evt : Nat} (hU : Steady F s₀ s) : Steady F s₀ (axFault s d a bitNo evt) := by
  unfold axFault
  try dsimp only
  repeat' first
    | with_reducible assumption
    | with_reducible exact Unsteady.ax (by simp) (by simp)
    | with_reducible exact Unsteady.hc (by simp)
    | with_reducible exact Unsteady.chute (by simp)
    | with_reducible exact Unsteady.errInfo
    | with_reducible exact Unsteady.errAddr
    | intro _
    | with_reducible apply ite_steady
    | with_reducible apply raise_steady
    | with_reducible apply wb_steady

theorem chatFollow_steady {d : Nat} {a : Nat} (hc : Off.PAGE_CTRL ∉ F) (hs : Off.PAGE_STAT ∉ F) (hU : Steady F s₀ s) : Steady F s₀ (chatFollow s d a) := by
  unfold chatFollow
  try dsimp only
  repeat' first
    | with_reducible assumption
    | with_reducible exact hc
    | with_reducible exact hs
    | with_reducible refine wb_steady_of_not_mem hc (by simp) (by simp) ?_
    | with_reducible refine wf_steady_of_not_mem hs (by simp) (by simp) ?_
    | intro _
    | with_reducible apply ite_steady
    | with_reducible apply whenDo_steady
    | with_reducible apply axPolicy_steady
    | with_reducible apply axFault_steady

theorem limitTrip_steady {d : Nat} {a : Nat} {i : Nat} (hc : Off.PAGE_CTRL ∉ F) (hs : Off.PAGE_STAT ∉ F) (hU : Steady F s₀ s) : Steady F s₀ (limitTrip s d a i) := by
  unfold limitTrip
  try dsimp only
  repeat' first
    | with_reducible assumption
    | with_reducible exact hc
    | with_reducible exact hs
    | with_reducible refine wb_steady_of_not_mem hc (by simp) (by simp) ?_
    | with_reducible refine wf_steady_of_not_mem hs (by simp) (by simp) ?_
    | intro _
    | with_reducible apply ite_steady
    | with_reducible apply axPolicy_steady
    | with_reducible apply axFault_steady

theorem swQualify_steady {d : Nat} {a : Nat} {i : Nat} {lvl : Bool} {pos : Int} {stamp : Nat} {chat : Nat} (hc : Off.PAGE_CTRL ∉ F) (hs : Off.PAGE_STAT ∉ F) (hU : Steady F s₀ s) : Steady F s₀ (swQualify s d a i lvl pos stamp chat) := by
  unfold swQualify
  try dsimp only
  repeat' first
    | with_reducible assumption
    | with_reducible exact Unsteady.ax (by simp) (by simp)
    | with_reducible exact Unsteady.hc (by simp)
    | with_reducible exact Unsteady.chute (by simp)
    | with_reducible exact Unsteady.errInfo
    | with_reducible exact Unsteady.errAddr
    | with_reducible exact hc
    | with_reducible exact hs
    | with_reducible refine wb_steady_of_not_mem hc (by simp) (by simp) ?_
    | with_reducible refine wf_steady_of_not_mem hs (by simp) (by simp) ?_
    | intro _
    | with_reducible apply ite_steady
    | with_reducible apply wb_steady
    | with_reducible apply wr48_steady
    | with_reducible apply raise_steady
    | with_reducible apply wr_steady
    | with_reducible apply whenDo_steady
    | with_reducible apply setAxis_steady
    | with_reducible apply limitTrip_steady

theorem chatter_steady {d : Nat} {a : Nat} (hc : Off.PAGE_CTRL ∉ F) (hs : Off.PAGE_STAT ∉ F) (hU : Steady F s₀ s) : Steady F s₀ (chatter s d a) := by
  unfold chatter
  try dsimp only
  repeat' first
    | with_reducible assumption
    | with_reducible exact Unsteady.ax (by simp) (by simp)
    | with_reducible exact Unsteady.hc (by simp)
    | with_reducible exact Unsteady.chute (by simp)
    | with_reducible exact Unsteady.errInfo
    | with_reducible exact Unsteady.errAddr
    | with_reducible exact hc
    | with_reducible exact hs
    | with_reducible refine wb_steady_of_not_mem hc (by simp) (by simp) ?_
    | with_reducible refine wf_steady_of_not_mem hs (by simp) (by simp) ?_
    | intro _
    | with_reducible apply ite_steady
    | with_reducible apply count_steady
    | with_reducible apply chatFollow_steady
    | with_reducible apply setAxis_steady

theorem swEdge_steady {d : Nat} {a : Nat} {i : Nat} {raw : Bool} (hc : Off.PAGE_CTRL ∉ F) (hs : Off.PAGE_STAT ∉ F) (hU : Steady F s₀ s) : Steady F s₀ (swEdge s d a i raw) := by
  unfold swEdge
  try dsimp only
  repeat' first
    | with_reducible assumption
    | with_reducible exact hc
    | with_reducible exact hs
    | with_reducible refine wb_steady_of_not_mem hc (by simp) (by simp) ?_
    | with_reducible refine wf_steady_of_not_mem hs (by simp) (by simp) ?_
    | intro _
    | with_reducible apply ite_steady
    | with_reducible apply setAxis_steady
    | with_reducible apply swQualify_steady
    | with_reducible apply chatter_steady

theorem swFollow_steady {d : Nat} {a : Nat} (hc : Off.PAGE_CTRL ∉ F) (hs : Off.PAGE_STAT ∉ F) (hU : Steady F s₀ s) : Steady F s₀ (swFollow s d a) := by
  unfold swFollow
  try dsimp only
  repeat' first
    | with_reducible assumption
    | with_reducible exact hc
    | with_reducible exact hs
    | with_reducible refine wb_steady_of_not_mem hc (by simp) (by simp) ?_
    | with_reducible refine wf_steady_of_not_mem hs (by simp) (by simp) ?_
    | intro _
    | with_reducible apply ite_steady
    | with_reducible apply each_steady
    | with_reducible apply swEdge_steady

end Sys2Proof.Machine

namespace Sys2Proof.Machine

/-! The life of a page (R41, R42, R43). -/

/-- The INJECT page of a part in FIELD shuts down with its DENIED event enabled, and its vector is open. -/
def injectShutting : State :=
  let p := pgInject 0
  let s := setDie (wb (setPstate State.reset p stShutting) p Off.EVT_EN 2 true) 0 { die State.reset 0 with lc := 2 }
  { s with
    pkg := { s.pkg with power := .running }
    pcie := { s.pcie with bme := true, msixEn := true, unmasked := [rf s p Off.EVT_VEC 0 7] } }

theorem out_enWrite_injectShutting :
    ((guardedWrite injectShutting ⟨.secHost, 0⟩ (pgInject 0) Off.PAGE_CTRL fun s =>
      primaryWrite s ⟨.secHost, 0⟩ (pgInject 0) fun s => enSet s (pgInject 0) true).out).length = 1 := by
  decide

/-- Refutes O14: EN := 1 on an INJECT page that shuts down, on a die where injection is not permitted, raises DENIED at
once, and with the event enabled and the vector open its message leaves the part (R417, R425). -/
theorem not_pageLife : ¬ Obligations.PageLife := by
  intro h
  obtain ⟨hlife, -⟩ := h
  obtain ⟨-, -, hrestart, -⟩ := hlife injectShutting ⟨.secHost, 0⟩ (pgInject 0) (by decide) (by decide) (by decide)
  obtain ⟨t, ht, -, hout⟩ := hrestart (by decide)
  cases ht
  have hlen := congrArg List.length hout
  rw [out_enWrite_injectShutting] at hlen
  exact absurd hlen (by decide)

end Sys2Proof.Machine

namespace Sys2Proof.Machine

open Sys2Proof.Laws

/-! COMMIT and the hand-over (R47). -/

theorem sec_of_hasRws {p : Pg} (h : (pgKind p).hasRws = true) : p.sec = false := by
  by_contra hsec
  rw [pgKind, if_pos (by simpa using hsec)] at h
  unfold secKind at h
  split at h <;> cases h

section
variable {s : State} {r : Req} {p : Pg} {v : Word}

theorem exec_commitGo_of_taken (h : Taken s r p Off.COMMIT) (hsec : p.sec = false) (v : Word) :
    exec (.commitGo r p v) s = .next (commitWrite s (asSeen r p) p (setBit v 0 true)) := by
  change ok _ = _
  rw [guardedWrite_of_taken h, touchSession_of_not_sec hsec]

theorem exec_commitCancel_of_taken (h : Taken s r p Off.COMMIT) (hsec : p.sec = false) :
    exec (.commitCancel r p) s =
      .next (commitWrite s (asSeen r p) p (setBit (setBit (rd s p Off.COMMIT) 0 false) 1 true)) := by
  change ok _ = _
  rw [guardedWrite_of_taken h, touchSession_of_not_sec hsec]

variable (hp : notPrimary p = false) (hrws : (pgKind p).hasRws = true)
include hp hrws

/-- A GO to a page whose hand-over waits keeps its boundary and reports another one. -/
theorem commitWrite_go_again (hgo : goSet s p = true) (h1 : bit v 1 = false) :
    commitWrite s r p v = if fld v 4 3 = rf s p Off.COMMIT 4 3 then wb s p Off.COMMIT 7 (bit v 7)
      else logErr (wb s p Off.COMMIT 7 (bit v 7)) r p Off.COMMIT true 5 := by
  have hview : goSet (wb s p Off.COMMIT 7 (bit v 7)) p = true := by
    rw [goSet, rb_wb_apart _ _ _ _ _ _ (by decide)]
    exact hgo
  have hlog : goSet (logErr (wb s p Off.COMMIT 7 (bit v 7)) r p Off.COMMIT true 5) p = true := by
    rw [goSet, rb, rd_logErr_other (.inr ⟨by decide, by decide⟩)]
    exact hview
  unfold commitWrite
  simp only [hp, hrws, hgo, h1, whenDo, Bool.false_eq_true, Bool.not_true, if_false, if_true]
  split
  · simp [hview]
  · simp [hlog]

/-- A first GO notes its clock. -/
theorem commitWrite_go_first (hgo : goSet s p = false) (h0 : bit v 0 = true) (h1 : bit v 1 = false) :
    goSet (commitWrite s r p v) p = true ∧ goAt (commitWrite s r p v) p Off.COMMIT = s.clock := by
  have hview : goSet (wb s p Off.COMMIT 7 (bit v 7)) p = false := by
    rw [goSet, rb_wb_apart _ _ _ _ _ _ (by decide)]
    exact hgo
  have hbound : goSet (wf (wb s p Off.COMMIT 7 (bit v 7)) p Off.COMMIT 4 3 (fld v 4 3)) p = false := by
    rw [goSet, rb_wf_apart _ _ _ _ _ _ _ (by decide)]
    exact hview
  unfold commitWrite
  simp only [hp, hrws, hgo, h0, h1, whenDo, Bool.false_eq_true, Bool.not_true, if_false, Bool.true_and]
  split
  · simp only [hbound, Bool.not_false, if_true]
    exact ⟨rb_wb_same _ _ _ _ _ (by decide), by simp [goAt]⟩
  · simp only [hview, Bool.not_false, if_true]
    exact ⟨rb_wb_same _ _ _ _ _ (by decide), by simp [goAt]⟩

/-- CANCEL with the boundary as it is takes the GO back and touches nothing else. -/
theorem commitWrite_cancel (h0 : bit v 0 = false) (h1 : bit v 1 = true) (hb : fld v 4 3 = rf s p Off.COMMIT 4 3) :
    goSet (commitWrite s r p v) p = false ∧ ∀ o, o ≠ Off.COMMIT → rd (commitWrite s r p v) p o = rd s p o := by
  have hfin (u : State) (hu : ∀ o, o ≠ Off.COMMIT → rd u p o = rd s p o) :
      goSet (wb u p Off.COMMIT 0 false) p = false ∧ ∀ o, o ≠ Off.COMMIT → rd (wb u p Off.COMMIT 0 false) p o = rd s p o :=
    ⟨rb_wb_same _ _ _ _ _ (by decide), fun o ho => (rd_wb_off _ _ _ _ _ _ _ ho.symm).trans (hu o ho)⟩
  have hview : ∀ o, o ≠ Off.COMMIT → rd (wb s p Off.COMMIT 7 (bit v 7)) p o = rd s p o :=
    fun o ho => rd_wb_off _ _ _ _ _ _ _ ho.symm
  unfold commitWrite
  simp only [hp, hrws, h0, h1, hb, whenDo, Bool.false_eq_true, Bool.not_true, if_false, Bool.false_and, if_true]
  split
  · exact hfin _ hview
  split
  · exact hfin _ fun o ho => (rd_wf_off _ _ _ _ _ _ _ _ ho.symm).trans (hview o ho)
  · exact hfin _ hview

end

/-! Taking the shadow values. -/

theorem rwsOf_block : ∀ k ∈ allKinds, ∀ o ∈ rwsOf k, 0x40 ≤ o := by decide

theorem rwsOffs_block {p : Pg} {o : Nat} (h : o ∈ rwsOffs p) : 0x40 ≤ o := by
  rw [rwsOffs_eq] at h
  refine rwsOf_block _ (mem_allKinds fun h0 => ?_) o h
  rw [h0] at h
  cases h

theorem rd_each_wr (l : List Nat) (s : State) (p : Pg) (g : Nat → Word) (o : Nat) :
    rd (each l s fun t k => wr t p k (g k)) p o = if o ∈ l then g o else rd s p o := by
  unfold each
  induction l generalizing s with
  | nil => simp
  | cons k l ih =>
    rw [List.foldl_cons, ih]
    by_cases hl : o ∈ l
    · simp [hl]
    · by_cases hk : o = k
      · subst hk
        simp [hl]
      · simp [hl, hk, Ne.symm hk]

/-- What a hand-over of the page leaves: the shadow values of state `s` in the registers but those excepted, GO clear, the
count advanced and HANDED_OVER latched. -/
structure HandedOver (s : State) (p : Pg) (except : Nat → Prop) (u : State) : Prop where
  go : goSet u p = false
  lat : rb u p Off.EVT_LAT 23 = true
  count : rf u p Off.COMMIT 8 8 = (rf s p Off.COMMIT 8 8 + 1) % 256
  regs : ∀ o ∈ rwsOffs p, ¬ except o → rd u p o = rdShadow s p o

theorem handedOver_takeShadows {s : State} {p : Pg} (hpres : present s p = true) (ex : Nat → Prop) :
    HandedOver s p ex (takeShadows s p) := by
  have hc : Off.COMMIT ∉ rwsOffs p := fun h => absurd (rwsOffs_block h) (by decide)
  have hcommit : rd (takeShadows s p) p Off.COMMIT =
      setFld (setFld (rd s p Off.COMMIT) 0 1 0) 8 8 (fld (rd s p Off.COMMIT) 8 8 + 1) := by
    unfold takeShadows
    rw [rd_raise_off _ _ _ _ _ (by decide), rd_wr_same, rd_each_wr, if_neg hc]
  refine ⟨?_, ?_, ?_, fun o ho _ => ?_⟩
  · rw [goSet, rb, hcommit, bit_setFld_apart _ _ _ _ _ (by decide)]
    exact bit_setBit _ 0 false (by decide)
  · refine rb_raise_same _ _ _ ?_ (by decide)
    exact each_pres (P := fun t => present t p = true) hpres fun u o _ hu => hu
  · rw [rf, hcommit, fld_setFld _ _ _ _ (by decide)]
    rfl
  · have h40 := rwsOffs_block ho
    unfold takeShadows
    rw [rd_raise_off _ _ _ _ _ (by simp; omega), rd_wr_off _ _ _ _ _ _ (by simp; omega), rd_each_wr, if_pos ho]

/-- An operation that is steady keeps what the hand-over left. -/
theorem HandedOver.steady {s : State} {p : Pg} {ex : Nat → Prop} {u t : State} (h : HandedOver s p ex u)
    (hu : Steady [Off.COMMIT] u t) (hheld : heldOffs p = rwsOffs p) : HandedOver s p ex t where
  go := (hu.rb_eq _ _ (by decide)).trans h.go
  lat := hu.lats _ _ h.lat
  count := (hu.rf_eq _ _ _ (by decide)).trans h.count
  regs o ho hex := (hu.held p o (hheld ▸ ho)).trans (h.regs o ho hex)

theorem HandedOver.of_pre {s u t : State} {p : Pg} {ex : Nat → Prop} (h : HandedOver u p ex t)
    (hu : Steady [Off.COMMIT] s u) (hshad : u.shad = s.shad) : HandedOver s p ex t where
  go := h.go
  lat := h.lat
  count := by rw [h.count, hu.rf_eq _ _ _ (by decide)]
  regs o ho hex := by rw [h.regs o ho hex, rdShadow, rdShadow, hshad]

theorem HandedOver.wr_excepted {s u : State} {p : Pg} {ex : Nat → Prop} {off : Nat} (h : HandedOver s p ex u) (v : Word)
    (h40 : 0x40 ≤ off) (hex : ex off) : HandedOver s p ex (wr u p off v) where
  go := by rw [goSet, rb_wr_off _ _ _ _ _ _ _ (by simp; omega)]; exact h.go
  lat := by rw [rb_wr_off _ _ _ _ _ _ _ (by simp; omega)]; exact h.lat
  count := by rw [rf, rd_wr_off _ _ _ _ _ _ (by simp; omega)]; exact h.count
  regs o ho hno := by
    have hne : off ≠ o := fun e => hno (e ▸ hex)
    rw [rd_wr_off _ _ _ _ _ _ hne]
    exact h.regs o ho hno

/-! The page of a kind, by its number. -/

theorem sec_of_kind {p : Pg} {k : Kind} (h : pgKind p = k) (hk : ∀ n, secKind n ≠ k) : p.sec = false := by
  by_contra hsec
  rw [pgKind, if_pos (by simpa using hsec)] at h
  exact hk _ h

theorem nsKind_of_kind {p : Pg} {k : Kind} (h : pgKind p = k) (hsec : p.sec = false) : nsKind p.num = k := by
  rwa [pgKind, if_neg (by simp [hsec])] at h

theorem eq_ns {p : Pg} {n : Nat} (hsec : p.sec = false) (hn : p.num = n) : ns p.die n = p := by
  subst hn
  rw [ns, ← hsec]

theorem eq_nsAt {p : Pg} {base n : Nat} (hsec : p.sec = false) (hlo : base ≤ p.num) (hhi : p.num < base + n) :
    nsAt p.die base n (p.num - base) = p := by
  rw [nsAt, if_pos (by omega)]
  exact eq_ns hsec (by omega)

section
variable {p : Pg}

theorem pgHp_pgInst (h : pgKind p = .hp) : pgHp p.die (pgInst p) = p := by
  have hsec : p.sec = false := sec_of_kind h fun n => by unfold secKind; split <;> simp
  have hnum : 0x10 ≤ p.num ∧ p.num ≤ 0x1F := by
    have hk := nsKind_of_kind h hsec
    unfold nsKind at hk
    repeat' split at hk
    all_goals first | assumption | cases hk
  have hi : pgInst p = p.num - 0x10 := by simp only [pgInst, h]
  rw [hi]
  exact eq_nsAt hsec hnum.1 (by omega)

theorem pgEnc_pgInst (h : pgKind p = .enc) : pgEnc p.die (pgInst p) = p := by
  have hsec : p.sec = false := sec_of_kind h fun n => by unfold secKind; split <;> simp
  have hnum : 0x20 ≤ p.num ∧ p.num ≤ 0x27 := by
    have hk := nsKind_of_kind h hsec
    unfold nsKind at hk
    repeat' split at hk
    all_goals first | assumption | cases hk
  have hi : pgInst p = p.num - 0x20 := by simp only [pgInst, h]
  rw [hi]
  exact eq_nsAt hsec hnum.1 (by omega)

theorem pgAx_pgInst (h : pgKind p = .ax) : pgAx p.die (pgInst p) = p := by
  have hsec : p.sec = false := sec_of_kind h fun n => by unfold secKind; split <;> simp
  have hnum : 0x28 ≤ p.num ∧ p.num ≤ 0x2B := by
    have hk := nsKind_of_kind h hsec
    unfold nsKind at hk
    repeat' split at hk
    all_goals first | assumption | cases hk
  have hi : pgInst p = p.num - 0x28 := by simp only [pgInst, h]
  rw [hi]
  exact eq_nsAt hsec hnum.1 (by omega)

theorem pgHc_pgInst (h : pgKind p = .hoistCh) : pgHc p.die (pgInst p) = p := by
  have hsec : p.sec = false := sec_of_kind h fun n => by unfold secKind; split <;> simp
  have hnum : 0x40 ≤ p.num ∧ p.num ≤ 0x5F := by
    have hk := nsKind_of_kind h hsec
    unfold nsKind at hk
    repeat' split at hk
    all_goals first | assumption | cases hk
  have hi : pgInst p = p.num - 0x40 := by simp only [pgInst, h]
  rw [hi]
  exact eq_nsAt hsec hnum.1 (by omega)

/-- A page of a kind that has one page per die. -/
theorem eq_ns_of_kind {k : Kind} {n : Nat} (h : pgKind p = k) (hk : ∀ m, secKind m ≠ k) (hn : ∀ m, nsKind m = k → m = n) :
    ns p.die n = p :=
  eq_ns (sec_of_kind h hk) (hn _ (nsKind_of_kind h (sec_of_kind h hk)))

theorem pgPd_die (h : pgKind p = .pd) : pgPd p.die = p :=
  eq_ns_of_kind h (fun n => by unfold secKind; split <;> simp) fun m hm => by
    unfold nsKind at hm
    repeat' split at hm
    all_goals first | rfl | cases hm

theorem pgTb_die (h : pgKind p = .timebase) : pgTb p.die = p :=
  eq_ns_of_kind h (fun n => by unfold secKind; split <;> simp) fun m hm => by
    unfold nsKind at hm
    repeat' split at hm
    all_goals first | rfl | cases hm

theorem pgSeam_die (h : pgKind p = .seam) : pgSeam p.die = p :=
  eq_ns_of_kind h (fun n => by unfold secKind; split <;> simp) fun m hm => by
    unfold nsKind at hm
    repeat' split at hm
    all_goals first | rfl | cases hm

theorem pgTsync_of_kind (h : pgKind p = .tsync) (hp : notPrimary p = false) : pgTsync = p := by
  have hd : p.die = 0 := by simpa [notPrimary, h] using hp
  have hns : ns p.die 0x03 = p := eq_ns_of_kind h (fun n => by unfold secKind; split <;> simp) fun m hm => by
    unfold nsKind at hm
    repeat' split at hm
    all_goals first | rfl | cases hm
  rwa [hd] at hns

end

/-! What a hand-over does to its block (R60, R79, R89, R90, R96, R108, R194, R261). -/

section
variable {s : State} {p : Pg} (ex : Nat → Prop) (hpres : present s p = true)
include hpres

theorem handedOver_enc (hk : pgKind p = .enc) (hex : ex Off.POS_CTRL) : HandedOver s p ex (encHandOver s p.die (pgInst p)) := by
  have hheld : heldOffs p = rwsOffs p := by rw [heldOffs, rwsOffs_eq, hk]; rfl
  have hpre (u : State) (hu : Steady [Off.COMMIT] s u) (hshad : u.shad = s.shad) (hpart : u.part = s.part) :
      HandedOver s p ex (takeShadows u p) :=
    (handedOver_takeShadows (by rw [present, hpart]; exact hpres) ex).of_pre hu hshad
  unfold encHandOver
  rw [pgEnc_pgInst hk]
  dsimp only
  generalize hs0 : (if running s p = true then virtFollow s p.die (pgInst p) else winSync s p.die (pgInst p)) = s0
  have h0 : Steady [Off.COMMIT] s s0 ∧ s0.shad = s.shad ∧ s0.part = s.part := by
    rw [← hs0]
    split
    · exact ⟨virtFollow_steady (.refl s), virtFollow_inv (φ := State.shad) (fun _ _ => rfl) (fun _ _ => rfl) (fun _ _ => rfl)
        (fun _ _ => rfl) (fun _ _ => rfl) rfl, virtFollow_inv (φ := State.part) (fun _ _ => rfl) (fun _ _ => rfl)
        (fun _ _ => rfl) (fun _ _ => rfl) (fun _ _ => rfl) rfl⟩
    · exact ⟨winSync_steady (.refl s), winSync_inv (φ := State.shad) (fun _ _ => rfl) rfl,
        winSync_inv (φ := State.part) (fun _ _ => rfl) rfl⟩
  obtain ⟨hst, hshad, hpart⟩ := h0
  have htake : HandedOver s p ex (takeShadows (if (running s p && decide (encMode s p.die (pgInst p) = 5)) = true then
      setEnc s0 p.die (pgInst p) { enc s0 p.die (pgInst p) with acc := virtAcc s0 p.die (pgInst p), accAt := s.clock }
      else s0) p) := by
    split
    · exact hpre _ (setEnc_steady hst) hshad hpart
    · exact hpre _ hst hshad hpart
  generalize takeShadows _ p = s2 at htake ⊢
  refine HandedOver.steady ?_ (padB_steady (pdMoved_steady (.refl _ (by decide)))) hheld
  have hspd (u : State) (hu : HandedOver s p ex u) : HandedOver s p ex
      (if spdSel u p.die (pgInst p) ≠ spdSel s p.die (pgInst p) then spdFollow u p.die (pgInst p) else u) := by
    split
    · exact hu.steady (spdFollow_steady (.refl _)) hheld
    · exact hu
  have hload (u : State) (hu : HandedOver s p ex u) : HandedOver s p ex
      (if rb u p Off.POS_CTRL 0 = true then encLoad u p.die (pgInst p) else u) := by
    split
    · have hwr := hu.wr_excepted 0#24 (off := Off.POS_CTRL) (by simp) hex
      unfold encLoad
      rw [pgEnc_pgInst hk]
      dsimp only
      refine HandedOver.steady hwr (latchAgain_steady (sendStep_steady (shiftEst_steady (setPos_steady (setEnc_steady
        (wrShadow_steady (.refl _)))))) ) hheld
    · exact hu
  refine hload _ (hspd _ ?_)
  split
  · exact htake.steady (modeTurn_steady (.refl _)) hheld
  · exact htake

theorem handedOver_hp (hk : pgKind p = .hp) : HandedOver s p ex (hpHandOver s p.die (pgInst p)) := by
  have hheld : heldOffs p = rwsOffs p := by rw [heldOffs, rwsOffs_eq, hk]; rfl
  have hroll : Steady [Off.COMMIT] s (pwmRoll s p.die (pgInst p)) := pwmRoll_steady (.refl s)
  have hshad : (pwmRoll s p.die (pgInst p)).shad = s.shad :=
    pwmRoll_inv (φ := State.shad) (fun _ _ => rfl) (fun _ _ => rfl) (fun _ _ => rfl) rfl
  have hpart : (pwmRoll s p.die (pgInst p)).part = s.part :=
    pwmRoll_inv (φ := State.part) (fun _ _ => rfl) (fun _ _ => rfl) (fun _ _ => rfl) rfl
  have htake := (handedOver_takeShadows (s := pwmRoll s p.die (pgInst p)) (by rw [present, hpart]; exact hpres) ex).of_pre hroll hshad
  unfold hpHandOver
  rw [pgHp_pgInst hk]
  refine htake.steady (htrFollow_steady (wf_steady ?_ (.refl _))) hheld
  rw [← pgHp_pgInst hk]
  exact .hp (by simp) (by simp)

theorem handedOver_pd (hk : pgKind p = .pd) : HandedOver s p ex (pdHandOver s p.die) := by
  have hheld : heldOffs p = rwsOffs p := by rw [heldOffs, rwsOffs_eq, hk]; rfl
  unfold pdHandOver
  rw [pgPd_die hk]
  exact (handedOver_takeShadows hpres ex).steady (each_steady (.refl _) fun u n hu => pdTurn_steady hu) hheld

theorem handedOver_timebase (hk : pgKind p = .timebase) : HandedOver s p ex (tbHandOver s p.die) := by
  have hheld : heldOffs p = rwsOffs p := by rw [heldOffs, rwsOffs_eq, hk]; rfl
  refine HandedOver.steady (u := takeShadows s p) (handedOver_takeShadows hpres ex) ?_ hheld
  unfold tbHandOver
  rw [pgTb_die hk]
  dsimp only
  split
  · exact .refl _
  split
  · exact tbFollow_steady (Steady.lit (setSeconds_steady (.refl _)))
  · exact tbFollow_steady (.refl _)

theorem handedOver_tsync (hk : pgKind p = .tsync) (hp : notPrimary p = false) : HandedOver s p ex (tsHandOver s) := by
  have hheld : heldOffs p = rwsOffs p := by rw [heldOffs, rwsOffs_eq, hk]; rfl
  refine HandedOver.steady (u := takeShadows s p) (handedOver_takeShadows hpres ex) ?_ hheld
  unfold tsHandOver
  rw [pgTsync_of_kind hk hp]
  dsimp only
  split
  · exact tsRestart_steady (.refl _)
  · exact .refl _

theorem handedOver_ax (hk : pgKind p = .ax) : HandedOver s p ex (axHandOver s p.die (pgInst p)) := by
  have hheld : heldOffs p = rwsOffs p := by rw [heldOffs, rwsOffs_eq, hk]; rfl
  refine HandedOver.steady (u := takeShadows s p) (handedOver_takeShadows hpres ex) ?_ hheld
  unfold axHandOver
  rw [pgAx_pgInst hk]
  exact chatFollow_steady (by decide) (by decide) (swFollow_steady (by decide) (by decide) (.refl _))

theorem handedOver_seam (hk : pgKind p = .seam) : HandedOver s p ex (seamsUpdate (takeShadows s p) p.die) := by
  have hheld : heldOffs p = rwsOffs p := by rw [heldOffs, rwsOffs_eq, hk]; rfl
  exact (handedOver_takeShadows hpres ex).steady (seamsUpdate_steady (.refl _)) hheld

/-- The hand-over of any page that has shadowed registers. -/
theorem handedOver_pageHandOver (hp : notPrimary p = false)
    (hex : pgKind p = .enc → ex Off.POS_CTRL) : HandedOver s p ex (pageHandOver s p) := by
  unfold pageHandOver
  dsimp only
  split
  next hk => exact handedOver_enc ex hpres hk (hex hk)
  next hk => exact handedOver_hp ex hpres hk
  next hk => exact handedOver_pd ex hpres hk
  next hk => exact handedOver_timebase ex hpres hk
  next hk => exact handedOver_tsync ex hpres hk hp
  next hk => exact handedOver_ax ex hpres hk
  next hk => exact handedOver_seam ex hpres hk
  next => exact handedOver_takeShadows hpres ex

end

theorem clock_pageHandOver (s : State) (p : Pg) : (pageHandOver s p).clock = s.clock := by
  apply pageHandOver_inv (φ := State.clock)
  case hU => rfl
  all_goals exact fun _ _ => rfl

end Sys2Proof.Machine

namespace Sys2Proof.Proofs

open Sys2Proof.Machine Sys2Proof.Laws

/-- Settles O15: a write of COMMIT by its cases; a hand-over takes the shadow values and what it does to its block
afterwards is steady in the registers handed over, in COMMIT and in the latched events. -/
theorem pageHandOver : Obligations.PageHandOver := by
  refine ⟨fun s r p v htaken hrws hp => ⟨fun h1 => ?_, ?_⟩, fun s p hpres hrws hp hnow => ?_⟩
  · refine ⟨_, exec_commitGo_of_taken htaken (sec_of_hasRws hrws) v, ?_⟩
    have h0' : bit (setBit v 0 true) 0 = true := bit_setBit _ _ _ (by decide)
    have h1' : bit (setBit v 0 true) 1 = false := (bit_setBit_apart _ _ _ _ (by decide)).trans h1
    have hb' : fld (setBit v 0 true) 4 3 = fld v 4 3 := fld_setBit_apart _ _ _ _ _ (by decide)
    cases hgo : goSet s p with
    | false =>
      obtain ⟨hset, hat⟩ := commitWrite_go_first (r := asSeen r p) hp hrws hgo h0' h1'
      exact ⟨hset, fun _ => hat, fun h => absurd h (by decide)⟩
    | true =>
      have hview : goSet (wb s p Off.COMMIT 7 (bit (setBit v 0 true) 7)) p = true := by
        rw [goSet, rb_wb_apart _ _ _ _ _ _ (by decide)]
        exact hgo
      rw [commitWrite_go_again hp hrws hgo h1', hb']
      split
      next hsame => exact ⟨hview, fun h => absurd h (by decide), fun _ hne => absurd hsame hne⟩
      next =>
        refine ⟨?_, fun h => absurd h (by decide), fun _ _ => ⟨?_, fun herr => (errInfo_logErr_first ?_ _ _ _ (by decide)).2⟩⟩
        · rw [goSet, rb, rd_logErr_other (.inr ⟨by decide, by decide⟩)]
          exact hview
        · rw [rf, rd_logErr_other (.inr ⟨by decide, by decide⟩)]
          exact rf_wb_apart _ _ _ _ _ _ _ (by decide)
        · rw [rb_wb_off _ _ _ _ _ _ _ _ (by decide)]
          exact herr
  · refine ⟨_, exec_commitCancel_of_taken htaken (sec_of_hasRws hrws), ?_⟩
    have h0 : bit (setBit (setBit (rd s p Off.COMMIT) 0 false) 1 true) 0 = false := by
      rw [bit_setBit_apart _ _ _ _ (by decide), bit_setBit _ _ _ (by decide)]
    have hb : fld (setBit (setBit (rd s p Off.COMMIT) 0 false) 1 true) 4 3 = rf s p Off.COMMIT 4 3 := by
      rw [fld_setBit_apart _ _ _ _ _ (by decide), fld_setBit_apart _ _ _ _ _ (by decide), rf]
    obtain ⟨hgo, hrest⟩ := commitWrite_cancel (r := asSeen r p) hp hrws h0 (bit_setBit _ _ _ (by decide)) hb
    exact ⟨hgo, fun o ho _ _ => hrest o ho⟩
  · have hexec : exec (.handOver p) s = .next (Machine.pageHandOver (waitClock s (goAt s p Off.COMMIT + 1)) p) := by
      change ok _ = _
      rw [hpres, hnow]
      rfl
    refine ⟨_, hexec, ?_⟩
    have hclock : (Machine.pageHandOver (waitClock s (goAt s p Off.COMMIT + 1)) p).clock = max s.clock (goAt s p Off.COMMIT + 1) := by
      rw [clock_pageHandOver, waitClock_clock]
    have hwait : HandedOver s p (fun o => pgKind p = .enc ∧ o = Off.POS_CTRL) (Machine.pageHandOver (waitClock s (goAt s p Off.COMMIT + 1)) p) := by
      refine HandedOver.of_pre (u := waitClock s (goAt s p Off.COMMIT + 1)) (handedOver_pageHandOver _ ?_ hp fun hk => ⟨hk, rfl⟩)
        (waitClock_steady (.refl s)) ?_
      · rw [present, waitClock_part]
        exact hpres
      · exact waitClock_inv (φ := State.shad) (fun _ _ => rfl) (fun _ _ => rfl) (fun _ _ => rfl) (fun _ _ => rfl)
          (fun _ _ => rfl) rfl
    refine ⟨hwait.go, hwait.lat, hwait.count, ?_, fun o ho hno => hwait.regs o ho fun ⟨hk, he⟩ => hno hk he⟩
    rw [hclock]
    exact Nat.lt_of_lt_of_le (Nat.lt_succ_self _) (Nat.le_max_right _ _)

end Sys2Proof.Proofs

namespace Sys2Proof.Machine

/-! Fences of pages (R406, R408, R409). -/

/-- The FENCE page of die 0 itself stands as FENCED out of SHUTTING, with its release under way and five releases counted. -/
def fencePageReleasing : State :=
  let f := pgFence 0
  setFenceSt (wr (setPstate State.reset f stFenced) f Off.FN_CNT_RELEASES 5#24) f { before := stShutting, releasing := true }

theorem releases_fencePageReleasing :
    rd (critFollow (releaseRecord (pageRelease fencePageReleasing (pgFence 0)) (pgFence 0)
      (pageReason fencePageReleasing (pgFence 0))) 0) (pgFence 0) Off.FN_CNT_RELEASES = 1#24 := by
  decide

/-- Refutes O16: a release out of SHUTTING with EN = 1 resets the page, and where the page is the FENCE page itself the
count of releases starts anew. -/
theorem not_pageFences : ¬ Obligations.PageFences := by
  intro h
  obtain ⟨-, hrelease⟩ := h
  obtain ⟨t, ht, -, -, -, hcount, -⟩ := hrelease fencePageReleasing (pgFence 0) (by decide) (by decide) (by decide) (by decide)
  cases ht
  have hone := releases_fencePageReleasing
  exact absurd (hone.symm.trans hcount) (by decide)

end Sys2Proof.Machine

namespace Sys2Proof.Machine

open Sys2Proof.Laws

/-! The timebase (R59, R61, R65, R66, R68). -/

/-- A changing condition touches `EVT_DYN` and `EVT_LAT` alone. -/
theorem rd_setDyn_off (s : State) (p q : Pg) (i : Nat) (b : Bool) {o : Nat} (hd : Off.EVT_DYN ≠ o) (hl : o ≠ Off.EVT_LAT) :
    rd (setDyn s p i b) q o = rd s q o := by
  simp only [setDyn, whenDo]
  split
  · split <;> split <;> simp only [rd_raise_off _ _ _ _ _ hl, rd_wb_off _ _ _ _ _ _ _ hd]
  · rfl

theorem rb_setDyn_mono (s : State) (p q : Pg) (i j : Nat) (b : Bool) (h : rb s q Off.EVT_LAT j = true) :
    rb (setDyn s p i b) q Off.EVT_LAT j = true := by
  have hwb : rb (wb s p Off.EVT_DYN i b) q Off.EVT_LAT j = true := (rb_wb_off _ _ _ _ _ _ _ _ (by decide)).trans h
  simp only [setDyn, whenDo]
  split
  · split <;> split
    · exact rb_raise_mono _ _ _ _ _ hwb
    · exact rb_raise_mono _ _ _ _ _ h
    · exact hwb
    · exact h
  · exact h

section
variable (s : State)

/-- The follower of the steering writes `TB_STAT` and the header alone. -/
theorem rd_tbFollow {q : Pg} {o : Nat} (hs : Off.TB_STAT ≠ o) (hd : Off.EVT_DYN ≠ o) (hl : o ≠ Off.EVT_LAT) :
    rd (tbFollow s) q o = rd s q o := by
  unfold tbFollow
  refine each_pres (P := fun t => rd t q o = rd s q o) rfl fun t d _ ht => ?_
  rw [rd_setDyn_off _ _ _ _ _ hd hl, rd_wb_off _ _ _ _ _ _ _ hs, rd_wb_off _ _ _ _ _ _ _ hs, ht]

/-- The oscillator shown and the events latched stay. -/
theorem tbFollow_src (q : Pg) (h : rb s q Off.TB_STAT 0 = true ∧ rb s q Off.EVT_LAT 0 = true) :
    rb (tbFollow s) q Off.TB_STAT 0 = true ∧ rb (tbFollow s) q Off.EVT_LAT 0 = true := by
  have hwb (t : State) (p : Pg) (i : Nat) (b : Bool) (hi : i ≠ 0) (ht : rb t q Off.TB_STAT 0 = true ∧ rb t q Off.EVT_LAT 0 = true) :
      rb (wb t p Off.TB_STAT i b) q Off.TB_STAT 0 = true ∧ rb (wb t p Off.TB_STAT i b) q Off.EVT_LAT 0 = true := by
    refine ⟨?_, (rb_wb_off _ _ _ _ _ _ _ _ (by decide)).trans ht.2⟩
    by_cases hp : p = q
    · rw [hp, rb_wb_apart _ _ _ _ _ _ hi]
      exact ht.1
    · rw [rb, wb, rd_wr_page _ _ _ _ _ _ hp]
      exact ht.1
  unfold tbFollow
  refine each_pres (P := fun t => rb t q Off.TB_STAT 0 = true ∧ rb t q Off.EVT_LAT 0 = true) h fun t d _ ht => ?_
  obtain ⟨hsrc, hlat⟩ := hwb _ (pgTb d) 3 (rb s (pgTb 0) Off.TB_CTRL 0 && !rb s (pgTb 0) Off.TB_STAT 0) (by decide)
    (hwb t (pgTb d) 4 (decide (500000 < (steerSum s).natAbs)) (by decide) ht)
  exact ⟨by rw [rb, rd_setDyn_off _ _ _ _ _ (by decide) (by decide)]; exact hsrc, rb_setDyn_mono _ _ _ _ _ _ hlat⟩

/-- The mirror gives a register of every die die 0's value and changes no other register. -/
theorem rd_tbMirror_other {off o : Nat} (q : Pg) (h : off ≠ o) : rd (tbMirror s off) q o = rd s q o := by
  unfold tbMirror
  exact each_pres (P := fun t => rd t q o = rd s q o) rfl fun t d _ ht => (rd_wr_off _ _ _ _ _ _ h).trans ht

theorem rd_tbMirror {off d : Nat} (hd : d < s.part.dies) : rd (tbMirror s off) (pgTb d) off = rd s (pgTb 0) off := by
  unfold tbMirror
  refine each_once (P := fun _ => True) (Q := fun t => rd t (pgTb d) off = rd s (pgTb 0) off) (List.mem_range.2 hd)
    List.nodup_range trivial (fun _ _ _ _ => trivial) (fun _ _ => rd_wr_same ..) fun t e he ht => ?_
  rw [rd_wr_page _ _ _ _ _ _ fun h => he (by cases h; rfl), ht]

theorem tbMirror_fields (off : Nat) : (tbMirror s off).part = s.part ∧ (tbMirror s off).clock = s.clock ∧
    (tbMirror s off).pkg = s.pkg := by
  unfold tbMirror
  exact each_pres (P := fun t => t.part = s.part ∧ t.clock = s.clock ∧ t.pkg = s.pkg) ⟨rfl, rfl, rfl⟩ fun t d _ ht => ht

theorem rd_freqRelax {q : Pg} {o : Nat} (h : pgTsync ≠ q) : rd (freqRelax s) q o = rd s q o := by
  unfold freqRelax
  split
  · rfl
  · exact rd_wr_page _ _ _ _ _ _ h

theorem freqRelax_fields : (freqRelax s).part = s.part ∧ (freqRelax s).clock = s.clock ∧ (freqRelax s).pkg = s.pkg := by
  unfold freqRelax
  split <;> exact ⟨rfl, rfl, rfl⟩

theorem tbFollow_pkg : (tbFollow s).pkg = s.pkg :=
  tbFollow_inv (φ := State.pkg) (fun _ _ => rfl) (fun _ _ => rfl) (fun _ _ => rfl) rfl

theorem tbFollow_clock : (tbFollow s).clock = s.clock :=
  tbFollow_inv (φ := State.clock) (fun _ _ => rfl) (fun _ _ => rfl) (fun _ _ => rfl) rfl

theorem sgn_wordI {z : Int} (hlo : -8388608 ≤ z) (hhi : z < 8388608) : sgn 24 (wordI z).toNat = z := by
  rw [wordI, BitVec.toNat_ofInt, sgn]
  split <;> omega

/-- A reading of the crystal's sensor moves the compensation by one bounded step and shows it on every die. -/
theorem xtalUpdate_spec (temp : Int) (hin : (sgn 24 (rdN s (pgTb 0) Off.TB_COMP)).natAbs ≤ 8000000) (h0 : 0 < s.part.dies) :
    (sgn 24 (rdN (xtalUpdate s temp) (pgTb 0) Off.TB_COMP) - sgn 24 (rdN s (pgTb 0) Off.TB_COMP)).natAbs ≤ 50 ∧
    rd (xtalUpdate s temp) (pgTb 0) Off.TB_XTEMP = word (uns 16 temp) ∧
    (xtalUpdate s temp).pkg.compAt = some (xtalUpdate s temp).clock ∧ (xtalUpdate s temp).clock = s.clock ∧
    ∀ d < s.part.dies, rd (xtalUpdate s temp) (pgTb d) Off.TB_COMP = rd (xtalUpdate s temp) (pgTb 0) Off.TB_COMP := by
  generalize hold : sgn 24 (rdN s (pgTb 0) Off.TB_COMP) = old at hin ⊢
  generalize hstep : clampI (-50) 50 (xtalCorr s temp - old) = step
  have hclamp : -50 ≤ step ∧ step ≤ 50 := by
    rw [← hstep, clampI]
    split
    · omega
    split <;> omega
  generalize hs2 : (wr (wr (nextFree s) (pgTb 0) Off.TB_XTEMP (word (uns 16 temp))) (pgTb 0) Off.TB_COMP
    (wordI (old + step))) = s1
  have ht : xtalUpdate s temp = tbFollow (freqRelax (tbMirror (tbMirror
      { s1 with pkg := { s1.pkg with compAt := some s1.clock } } Off.TB_XTEMP) Off.TB_COMP)) := by
    subst hs2 hstep hold
    rfl
  have hne (d : Nat) : pgTsync ≠ pgTb d := fun h => by cases h
  have hs1part : s1.part = s.part := by rw [← hs2]; rfl
  have hs1clock : s1.clock = s.clock := by rw [← hs2]; rfl
  have hcomp (d : Nat) (hd : d < s.part.dies) : rd (xtalUpdate s temp) (pgTb d) Off.TB_COMP = wordI (old + step) := by
    rw [ht, rd_tbFollow _ (by decide) (by decide) (by decide), rd_freqRelax _ (hne d), rd_tbMirror _ (by
      rw [(tbMirror_fields _ _).1]; exact hs1part ▸ hd), rd_tbMirror_other _ _ (by decide)]
    subst hs2
    exact rd_wr_same ..
  refine ⟨?_, ?_, ?_, ?_, fun d hd => (hcomp d hd).trans (hcomp 0 h0).symm⟩
  · rw [rdN, hcomp 0 h0, sgn_wordI (by omega) (by omega)]
    omega
  · rw [ht, rd_tbFollow _ (by decide) (by decide) (by decide), rd_freqRelax _ (hne 0), rd_tbMirror_other _ _ (by decide),
      rd_tbMirror _ (hs1part ▸ h0)]
    subst hs2
    exact (rd_wr_off _ _ _ _ _ _ (by decide)).trans (rd_wr_same ..)
  · rw [ht, tbFollow_pkg, tbFollow_clock, (freqRelax_fields _).2.2, (freqRelax_fields _).2.1, (tbMirror_fields _ _).2.2,
      (tbMirror_fields _ _).2.1, (tbMirror_fields _ _).2.2, (tbMirror_fields _ _).2.1]
  · rw [ht, tbFollow_clock, (freqRelax_fields _).2.1, (tbMirror_fields _ _).2.1, (tbMirror_fields _ _).2.1]
    exact hs1clock

end

/-- The internal oscillator takes over on every die of the part. -/
theorem toInternal_src (s : State) {d : Nat} (hd : d < s.part.dies) :
    rb (toInternal s) (pgTb d) Off.TB_STAT 0 = true ∧ rb (toInternal s) (pgTb d) Off.EVT_LAT 0 = true := by
  have hkeep (t : State) : Keeps (pgTb d) t (allowedFollow t) :=
    allowedFollow_keeps (Kind.apart .timebase .mode rfl) (.refl _ t)
  unfold toInternal
  dsimp only
  rw [rb, rb, (hkeep _).regs, (hkeep _).regs]
  refine tbFollow_src _ _ ?_
  refine each_once (P := fun t => t.part = s.part)
    (Q := fun t => rb t (pgTb d) Off.TB_STAT 0 = true ∧ rb t (pgTb d) Off.EVT_LAT 0 = true) (List.mem_range.2 hd)
    List.nodup_range rfl (fun t e _ ht => ?_) (fun t ht => ?_) fun t e he ht => ?_
  · simpa using ht
  · refine ⟨?_, ?_⟩
    · change rb (raise (wb t (pgTb d) Off.TB_STAT 0 true) (pgTb d) 0) (pgTb d) Off.TB_STAT 0 = true
      rw [rb, rd_raise_off _ _ _ _ _ (by decide)]
      exact rb_wb_same _ _ _ _ _ (by decide)
    · exact rb_raise_same _ _ _ (present_pgTb (s := wb t (pgTb d) Off.TB_STAT 0 true) (ht ▸ hd)) (by decide)
  · have hne : pgTb e ≠ pgTb d := fun h => he (by cases h; rfl)
    change rb (raise (wb t (pgTb e) Off.TB_STAT 0 true) (pgTb e) 0) (pgTb d) Off.TB_STAT 0 = true ∧
      rb (raise (wb t (pgTb e) Off.TB_STAT 0 true) (pgTb e) 0) (pgTb d) Off.EVT_LAT 0 = true
    rw [rb, rb, rd_raise_page _ _ _ _ _ hne, rd_raise_page _ _ _ _ _ hne, wb, rd_wr_page _ _ _ _ _ _ hne,
      rd_wr_page _ _ _ _ _ _ hne]
    exact ht

/-- The time until a counter has advanced by `n` advances it by `n`, or by up to 4 more on the crystal's edges. -/
theorem tickGain_ticksFor (s : State) (d n : Nat) : n ≤ tickGain s s.clock (ticksFor s d n) d ∧
    tickGain s s.clock (ticksFor s d n) d < n + 5 ∧
    (pllOff s d = false → tickGain s s.clock (ticksFor s d n) d = n ∧ ticksFor s d n = n) := by
  unfold tickGain ticksFor
  by_cases hn : n = 0
  · subst hn
    cases pllOff s d <;> simp
  · cases hp : pllOff s d
    · simp [hn]
    · simp only [hn, if_false, if_true, ceilDiv]
      refine ⟨?_, ?_, fun h => nomatch h⟩ <;> omega

/-- What a seconds edge shows on a die. -/
def EdgeShown (s : State) (d : Nat) (t : State) : Prop :=
  rd48 t (pgTb d) Off.SEC_EDGE_TS_L = now t d % 2 ^ 48 ∧ rb t (pgTb d) Off.EVT_LAT 2 = true ∧ t.dies = s.dies

theorem setSeconds_spec (s : State) (v : Nat) : (setSeconds s v).pkg.seconds = v % 2 ^ 48 ∧ (setSeconds s v).part = s.part ∧
    ∀ d < s.part.dies, EdgeShown s d (setSeconds s v) := by
  have hfields (t : State) (d : Nat) : (raise (wr48 t (pgTb d) Off.SEC_EDGE_TS_L (now t d)) (pgTb d) 2).pkg = t.pkg ∧
      (raise (wr48 t (pgTb d) Off.SEC_EDGE_TS_L (now t d)) (pgTb d) 2).part = t.part ∧
      (raise (wr48 t (pgTb d) Off.SEC_EDGE_TS_L (now t d)) (pgTb d) 2).dies = t.dies :=
    ⟨raise_inv (φ := State.pkg) (fun _ _ => rfl) (fun _ _ => rfl) (fun _ _ => rfl) rfl, raise_part .., raise_dies ..⟩
  refine ⟨?_, ?_, fun d hd => ?_⟩
  · unfold setSeconds
    exact each_pres (P := fun t => t.pkg.seconds = v % 2 ^ 48) rfl fun t d _ ht => by rw [(hfields t d).1, ht]
  · unfold setSeconds
    exact each_pres (P := fun t => t.part = s.part) rfl fun t d _ ht => (hfields t d).2.1.trans ht
  · unfold setSeconds
    refine each_once (P := fun t => t.part = s.part ∧ t.dies = s.dies) (Q := EdgeShown s d) (List.mem_range.2 hd)
      List.nodup_range ⟨rfl, rfl⟩ (fun t e _ ht => ?_) (fun t ht => ?_) fun t e he ht => ?_
    · exact ⟨(hfields t e).2.1.trans ht.1, (hfields t e).2.2.trans ht.2⟩
    · obtain ⟨hpart, hdies⟩ := ht
      refine ⟨?_, rb_raise_same _ _ _ (present_pgTb (s := wr48 t _ _ _) (hpart ▸ hd)) (by decide),
        (hfields t d).2.2.trans hdies⟩
      have hnow : now (raise (wr48 t (pgTb d) Off.SEC_EDGE_TS_L (now t d)) (pgTb d) 2) d = now t d := by
        rw [now, die, (hfields t d).2.2]
        rfl
      rw [hnow, rd48, rdN, rdN, rd_raise_off _ _ _ _ _ (by decide), rd_raise_off _ _ _ _ _ (by decide)]
      exact rd48_wr48 ..
    · obtain ⟨hts, hlat, hdies⟩ := ht
      have hne : pgTb e ≠ pgTb d := fun h => he (by cases h; rfl)
      have hrd (o : Nat) : rd (raise (wr48 t (pgTb e) Off.SEC_EDGE_TS_L (now t e)) (pgTb e) 2) (pgTb d) o = rd t (pgTb d) o := by
        rw [rd_raise_page _ _ _ _ _ hne, wr48, rd_wr_page _ _ _ _ _ _ hne, rd_wr_page _ _ _ _ _ _ hne]
      refine ⟨?_, ?_, (hfields t e).2.2.trans hdies⟩
      · rw [rd48, rdN, rdN, hrd, hrd, now, die, (hfields t e).2.2]
        exact hts
      · rw [rb, hrd]
        exact hlat

/-- On a seconds edge every die shows its local tick, and the counter has advanced. -/
theorem secEdge_spec (s : State) : (secEdge s).pkg.seconds = (s.pkg.seconds + 1) % 2 ^ 48 ∧
    ∀ d < s.part.dies, rd48 (secEdge s) (pgTb d) Off.SEC_EDGE_TS_L = now (secEdge s) d % 2 ^ 48 ∧
      rb (secEdge s) (pgTb d) Off.EVT_LAT 2 = true := by
  obtain ⟨hsec, hpart, hshown⟩ := setSeconds_spec s (s.pkg.seconds + 1)
  refine ⟨?_, fun d hd => ?_⟩
  · unfold secEdge
    refine each_pres (P := fun t => t.pkg.seconds = (s.pkg.seconds + 1) % 2 ^ 48) hsec fun t e _ ht => ?_
    have hpkg : (lampSecond (asHourly t e) e).pkg = t.pkg :=
      lampSecond_inv (φ := State.pkg) (fun _ _ => rfl) (asHourly_inv (φ := State.pkg) (fun _ _ => rfl) rfl)
    rw [hpkg, ht]
  · unfold secEdge
    refine (each_pres (P := EdgeShown s d) (hshown d hd) fun t e _ ht => ?_).elim fun h1 h2 => ⟨h1, h2.1⟩
    obtain ⟨hts, hlat, hdies⟩ := ht
    have hkeep : Keeps (pgTb d) t (lampSecond (asHourly t e) e) := lampSecond_keeps (asHourly_keeps (.refl _ t))
    have hd' : (lampSecond (asHourly t e) e).dies = t.dies :=
      lampSecond_inv (φ := State.dies) (fun _ _ => rfl) (asHourly_inv (φ := State.dies) (fun _ _ => rfl) rfl)
    refine ⟨?_, ?_, hd'.trans hdies⟩
    · rw [rd48, rdN, rdN, hkeep.regs, hkeep.regs, now, die, hd']
      exact hts
    · rw [rb, hkeep.regs]
      exact hlat

/-- Without a counter that runs, ticks move the clock alone. -/
theorem ticksPass_standing (s : State) (n : Nat) (h : ∀ d < s.part.dies, (die s d).counting = false) :
    ticksPass s n = { s with clock := s.clock + n } := by
  unfold ticksPass
  refine each_pres (P := fun t => t = { s with clock := s.clock + n }) rfl fun t d hd ht => ?_
  have hc : (die t d).counting = false := by
    rw [ht]
    exact h d (List.mem_range.1 hd)
  rw [dieTicks, hc]
  exact ht

/-- The time until a counter passes its last value. -/
theorem wrap_spec (s : State) {d : Nat} (hd : d < s.part.dies) (hc : (die s d).counting = true) (hlt : now s d < 2 ^ 48) :
    now (ticksPass s (ticksFor s d (tickMod - now s d))) d < 5 ∧
    rb (ticksPass s (ticksFor s d (tickMod - now s d))) (pgTb d) Off.EVT_LAT 3 = true ∧
    (pllOff s d = false → now (ticksPass s (ticksFor s d (tickMod - now s d))) d = 0 ∧
      (ticksPass s (ticksFor s d (tickMod - now s d))).clock = s.clock + (2 ^ 48 - now s d)) := by
  generalize hn : tickMod - now s d = n
  have hn' : n + now s d = 2 ^ 48 := by
    rw [← hn]
    exact Nat.sub_add_cancel hlt.le
  obtain ⟨hnow, hwrap⟩ := ticksPass_die s (ticksFor s d n) d hd
  obtain ⟨hlo, hhi, hrun⟩ := tickGain_ticksFor s d n
  rw [if_pos hc] at hnow
  refine ⟨?_, hwrap hc (by omega), fun hp => ⟨?_, ?_⟩⟩
  · rw [hnow]
    omega
  · rw [hnow, (hrun hp).1]
    omega
  · rw [ticksPass_clock, (hrun hp).2]
    omega

section
variable (w : State) (k : PkgSt)

theorem pkg_nextFree_setPkg : (nextFree { w with pkg := k }).pkg = k := rfl

theorem clock_nextFree_setPkg : (nextFree { w with pkg := k }).clock = w.clock := rfl

theorem nextFree_setPkg_fields (c : Nat) :
    { nextFree { { w with clock := c } with pkg := k } with pkg := w.pkg, clock := w.clock, free := w.free } = w := rfl

end

/-- The low-power oscillator's seconds edge. -/
theorem dormantSecondsEdge_spec {s : State} (hrun : lpoRuns s = true) :
    ∃ t, exec .dormantSecondsEdge s = .next t ∧ t.pkg.seconds = (s.pkg.seconds + 1) % 2 ^ 48 ∧
      s.pkg.edgeAt + 249937500 ≤ t.clock ∧
      ((∀ d < s.part.dies, (die s d).counting = false) → { t with pkg := s.pkg, clock := s.clock, free := s.free } = s) := by
  have hexec : exec .dormantSecondsEdge s = ok (if lpoRuns s then
      nextFree { waitClock s (lpoEdge s) with pkg := { (waitClock s (lpoEdge s)).pkg with
        seconds := ((waitClock s (lpoEdge s)).pkg.seconds + 1) % tickMod, edgeAt := (waitClock s (lpoEdge s)).clock,
        lpoInc := freeBelow (waitClock s (lpoEdge s)) 125001 } } else s) := rfl
  have hpkg : (waitClock s (lpoEdge s)).pkg = s.pkg := waitClock_pkg ..
  have hclock : s.pkg.edgeAt + 249937500 ≤ (waitClock s (lpoEdge s)).clock := by
    rw [waitClock_clock, lpoEdge]
    omega
  have hstand : (∀ d < s.part.dies, (die s d).counting = false) → ∃ c, waitClock s (lpoEdge s) = { s with clock := c } := by
    intro h
    unfold waitClock
    split
    · exact ⟨s.clock, rfl⟩
    · exact ⟨_, ticksPass_standing s _ h⟩
  generalize waitClock s (lpoEdge s) = w at hexec hpkg hclock hstand
  rw [if_pos hrun] at hexec
  refine ⟨_, hexec, ?_, ?_, fun h => ?_⟩
  · rw [pkg_nextFree_setPkg, hpkg, tickMod]
  · rw [clock_nextFree_setPkg]
    exact hclock
  · obtain ⟨c, rfl⟩ := hstand h
    exact nextFree_setPkg_fields ..

/-- Settles O18: the followers of the compensation touch neither `TB_COMP` nor `TB_XTEMP`, and on a seconds edge every
die's page is written once. -/
theorem timebase : Obligations.Timebase := by
  refine ⟨fun s temp hin h0 => ?_, fun s hsrc => ?_, fun s d hd hc hlt => ?_, fun s hpow hc => ?_, fun s hrun => ?_⟩
  · generalize hw : (match s.pkg.compAt with | none => s | some c => waitClock s (c + 2500000)) = w
    have hwait : rd w (pgTb 0) Off.TB_COMP = rd s (pgTb 0) Off.TB_COMP ∧ w.part = s.part ∧
        ∀ c, s.pkg.compAt = some c → c + 2500000 ≤ w.clock := by
      rw [← hw]
      cases hcomp : s.pkg.compAt with
      | none => exact ⟨rfl, rfl, fun c h => nomatch h⟩
      | some c =>
        refine ⟨rd_waitClock _ _ (by decide), waitClock_part .., fun c' h => ?_⟩
        cases h
        rw [waitClock_clock]
        exact Nat.le_max_right ..
    obtain ⟨hrd, hpart, hclock⟩ := hwait
    have hN : rdN w (pgTb 0) Off.TB_COMP = rdN s (pgTb 0) Off.TB_COMP := by rw [rdN, rdN, hrd]
    obtain ⟨hstep, htemp, hat, hkeep, hmirror⟩ := xtalUpdate_spec w temp (hN ▸ hin) (hpart ▸ h0)
    refine ⟨xtalUpdate w temp, by rw [← hw]; rfl, hN ▸ hstep, htemp, hat, fun c h => hkeep ▸ hclock c h, fun d hd => ?_⟩
    exact hmirror d (hpart ▸ hd)
  · refine ⟨toInternal s, ?_, fun d hd => toInternal_src s hd⟩
    change ok _ = _
    rw [hsrc]
    rfl
  · exact ⟨_, congrArg Host.Outcome.next (if_pos ⟨hd, hc⟩), wrap_spec s hd hc hlt⟩
  · obtain ⟨hsec, hdies⟩ := secEdge_spec (waitTick s 0 (rd48 s (pgTb 0) Off.SEC_EDGE_TS_L + (250000000 - s.pkg.secFrac)))
    refine ⟨_, ?_, by rw [hsec, waitTick_pkg], fun d hd => hdies d (by rwa [waitTick_part])⟩
    change ok _ = _
    rw [hc, hpow]
    rfl
  · exact dormantSecondsEdge_spec hrun

end Sys2Proof.Machine

namespace Sys2Proof.Machine

/-! Time between packages (R72 to R79). -/

/-- A part number without dies, whose TSYNC registers read as a slave in SHUTTING: there is no TSYNC page to latch on. -/
def noDies : State :=
  { setPstate (wr State.reset pgTsync Off.TS_CFG 2#24) pgTsync stShutting with part := { State.reset.part with dies := 0 } }

/-- Refutes O19: in SHUTTING a slave listens without its page being present, and an absent page latches no event (R2). -/
theorem not_timeTransfer : ¬ Obligations.TimeTransfer := by
  intro h
  obtain ⟨-, -, -, hreceive, -⟩ := h
  obtain ⟨hbad, -⟩ := hreceive noDies 0 kComma [] (by decide)
  obtain ⟨t, ht, -, hlat, -⟩ := hbad (by decide)
  cases ht
  exact absurd hlat (by decide)

end Sys2Proof.Machine

namespace Sys2Proof.Machine

/-! Speed and latches of encoder channels (R94 to R109). -/

/-- Channel 0 of die 0 runs, with no latch taken in this tick, while the tick's position records hold a latch under its key. -/
def recordBeforeLatch : State :=
  let s := setPstate State.reset (pgEnc 0 0) stRunning
  let s1 := setDie s 0 { die s 0 with 
    recs := [{ key := 0, head := 0, ws := [], written := false, latch := true }], recsAt := s.clock }
  setEnc { s1 with pkg := { s1.pkg with power := .running } } 0 0 { enc s1 0 0 with latAt := none }

theorem posSeq_recordBeforeLatch : (die (guardedWrite recordBeforeLatch ⟨.secHost, 0⟩ (pgEnc 0 0) Off.LAT_TRIG
    (latTrigWrite 0 0 1#24)) 0).posSeq = 0 := by
  decide

/-- Refutes O21: where the tick's records already hold a latch of the channel, the latch takes that record's place and uses
up no number, and nothing in the statement ties the records to `latAt` (R103). -/
theorem not_encoderSpeed : ¬ Obligations.EncoderSpeed := by
  intro h
  obtain ⟨-, -, hlatch, -⟩ := h
  obtain ⟨t, ht, -, -, -, -, hseq⟩ := hlatch recordBeforeLatch ⟨.secHost, 0⟩ 0 0 1#24 (by decide) (by decide) (by decide)
    (by decide) (by decide)
  cases ht
  have hzero := posSeq_recordBeforeLatch
  exact absurd (hzero.symm.trans hseq) (by decide)

end Sys2Proof.Machine

namespace Sys2Proof.Machine

/-! Cycles of a port (R133, R190). -/

/-- A bound cycle without members whose freeze point lies 10 ticks past the wrap of a die's counter. -/
def cyclePastWrap : Cycle := { t0 := 16 * (2 ^ 48 + 10) + 640 }

/-- Context 0 prints with that cycle bound on a port without a link, and the counter's WRAP event is enabled with an open
vector. -/
def freezeAtWrap : State :=
  let s := wb State.reset (pgTb 0) Off.EVT_EN 3 true
  let s1 := setDie s 0 { die s 0 with counting := true, tick := 2 ^ 48 - 1 }
  let s2 := setCtx s1 0 0 { ctx s1 0 0 with st := .printing }
  let s3 := setPort s2 0 0 { port s2 0 0 with cycles := [cyclePastWrap] }
  { s3 with pcie := { s3.pcie with bme := true, msixEn := true, unmasked := [rf s (pgTb 0) Off.EVT_VEC 0 7] } }

theorem out_freezeAt_freezeAtWrap : (freezeAt freezeAtWrap 0 (cPort freezeAtWrap 0 0) cyclePastWrap).out.length = 1 := by
  decide

/-- Refutes O25: a freeze that sends nothing to the head still waits for its tick, and the die's counter may wrap on the
way, whose event sends its message (R65, R425). -/
theorem not_boundCycles : ¬ Obligations.BoundCycles := by
  intro h
  obtain ⟨-, -, hfreeze, -⟩ := h
  obtain ⟨t, ht, -, hplain⟩ := hfreeze freezeAtWrap 0 0 (by decide) (by decide) (by decide) cyclePastWrap (by decide)
  obtain ⟨-, hquiet⟩ := hplain (.inl (by decide))
  obtain ⟨hout, -⟩ := hquiet (by decide)
  cases ht
  have hlen := congrArg List.length hout
  rw [out_freezeAt_freezeAtWrap] at hlen
  exact absurd hlen (by decide)

end Sys2Proof.Machine

namespace Sys2Proof.Machine

/-! Commands of an axis at its profile tick (R254, R262). -/

/-- Axis 0 stands at its target at REST with its low limit active, its last segment still has a velocity, and this tick's
profile tick is done. -/
def restingAdrift : State :=
  let p := pgAx 0 0
  let s := wf (wf State.reset (pgMode 0) Off.MODE_CUR 0 3 3) p Off.AX_STAT 0 4 msRest
  let s1 := wb (wr (wr (wr s p Off.AX_VMAX 1#24) p Off.AX_ACC 1#24) p Off.AX_DEC 1#24) p Off.AX_STAT 13 true
  setAxis s1 0 0 { axis s1 0 0 with v := 2 ^ 56, cmds := [(⟨.secHost, 0⟩, 1)], profAt := some 0 }

theorem result_profileNext_restingAdrift : rdN (profileNext restingAdrift 0 0) (pgAx 0 0) Off.AX_CMD_STAT = 0x130001 := by
  decide

/-- Refutes O31: nothing ties REST to a velocity of 0; an axis at REST that drifts has passed its target when the profile
tick comes, and its active limit then lies ahead (R262). -/
theorem not_axisCommands : ¬ Obligations.AxisCommands := by
  intro h
  obtain ⟨-, htick⟩ := h
  obtain ⟨hmove, -⟩ := htick restingAdrift 0 0 (by decide) (by decide) (by decide) (by decide)
  obtain ⟨-, haccepted⟩ := hmove (by decide) (by decide) (by decide) (by decide)
  obtain ⟨t, ht, hres, -⟩ := haccepted (by decide) (by decide) (by decide) (by decide) (by decide)
  cases ht
  rw [result_profileNext_restingAdrift] at hres
  exact absurd hres (by decide)

end Sys2Proof.Machine

namespace Sys2Proof.Machine

/-! Registers of a completion queue (R36, R290). -/

/-- Die 0's CQ_SIZE_0 reads as 5, written in this tick by Hoist, whose write comes last. -/
def sizeWritten : State :=
  let k : RegKey := (pgHoistGlobal 0, Off.CQ_SIZE)
  let s := wr State.reset k.1 k.2 5#24
  { s with pkg := { s.pkg with power := .running }
           ticks := [⟨k, s.clock, 0#24, 5#24, [(tickRank .hoist, 5#24)]⟩] }

theorem size_sizeWritten : rf (guardedWrite sizeWritten ⟨.secHost, 0⟩ (pgHoistGlobal 0) (Off.CQ_SIZE + 32 * 0)
    fun s => cqSizeSet s ⟨.secHost, 0⟩ 0 0 4#24) (pgHoistGlobal 0) (Off.CQ_SIZE + 32 * 0) 0 5 = 5 := by
  decide

/-- Refutes O35: a write of CQ_SIZE_q in the tick of another write whose requester comes later in the order of R36 leaves
that one's value. -/
theorem not_hoistBursts : ¬ Obligations.HoistBursts := by
  intro h
  obtain ⟨-, -, -, hregs⟩ := h
  obtain ⟨hsize, -⟩ := hregs sizeWritten ⟨.secHost, 0⟩ 0 0 4#24 (by decide)
  obtain ⟨t, ht, hval, -⟩ := hsize (by decide)
  cases ht
  have hold : 5 = fld 4#24 0 5 := size_sizeWritten.symm.trans hval
  exact absurd hold (by decide)

end Sys2Proof.Machine

namespace Sys2Proof.Machine

/-! A poisoned word in the chute of records (R298, R411). -/

/-- Chute 19 of die 0, which takes the log's records, runs and holds one poisoned word. -/
def poisonedRecord : State :=
  let s := setPstate State.reset (pgChute 0 19) stRunning
  setChute { s with pkg := { s.pkg with power := .running } } 0 19 { chute s 0 19 with words := [{ w := 0#24, ecc := .bad }] }

theorem length_popRead_poisonedRecord :
    (chute (popRead poisonedRecord ⟨.secHost, 0⟩ 0 19 (0xC00 + 4 * (0 % 256))) 0 19).words.length = 8 := by
  decide +kernel

/-- Refutes O36: the record of a poisoned word popped from CHUTE_19 is itself appended to that chute (R298, R411). -/
theorem not_chuteWindows : ¬ Obligations.ChuteWindows := by
  intro h
  obtain ⟨-, hpop⟩ := h
  obtain ⟨-, hfull, -⟩ := hpop poisonedRecord ⟨.secHost, 0⟩ 0 19 0 (by decide) (by decide)
  obtain ⟨-, hbad⟩ := hfull (by decide +kernel) { w := 0#24, ecc := .bad } [] (by decide +kernel)
  obtain ⟨t, ht, hwords, -⟩ := hbad rfl
  have hexec : exec (.chutePop ⟨.secHost, 0⟩ 0 19 0) poisonedRecord =
      .next (popRead poisonedRecord ⟨.secHost, 0⟩ 0 19 (0xC00 + 4 * (0 % 256))) :=
    congrArg Host.Outcome.next (if_pos (by decide))
  rw [← Host.Outcome.next.inj (hexec.symm.trans ht)] at hwords
  have hlen := congrArg List.length hwords
  rw [List.length_map] at hlen
  exact absurd (length_popRead_poisonedRecord.symm.trans hlen) (by decide)

end Sys2Proof.Machine

namespace Sys2Proof.Machine

/-! Outstanding host reads (R422, R424). -/

/-- A host read of Hoist channel 0 of die 0. -/
def lateRead : HostRead := { die := 0, chan := 0, burst := 0, addr := 0, bytes := 4, tries := 0 }

/-- That read is outstanding with a retry left, and the event of correctable errors is enabled with an open vector. -/
def readOutstanding : State :=
  let s := wf (wb State.reset pgPcie Off.EVT_EN 6 true) pgPcie Off.PC_CFG 0 2 3
  { s with pcie := { s.pcie with
      reads := [lateRead], bme := true, msixEn := true, unmasked := [rf s pgPcie Off.EVT_VEC 0 7] } }

theorem out_readTimeout_readOutstanding :
    (readTimeout (linkErrors readOutstanding 1) 0 lateRead).out.length = 2 := by
  decide

/-- Refutes O47: correctable errors before a completion timeout latch their event, and its message leaves before the read is
issued again (R424, R425). -/
theorem not_hostLink : ¬ Obligations.HostLink := by
  intro h
  obtain ⟨-, htimeout, -⟩ := h
  obtain ⟨hagain, -⟩ := htimeout readOutstanding 0 1 (by decide) lateRead (by decide)
  obtain ⟨t, ht, hout, -⟩ := hagain (by decide)
  cases ht
  have hlen := congrArg List.length hout
  exact absurd (out_readTimeout_readOutstanding.symm.trans hlen) (by decide)

end Sys2Proof.Machine

namespace Sys2Proof.Machine

/-! The permission of fault injection (R36, R390). -/

/-- Die 0's IJL_CTRL was written as 0 in this tick, in the last place of the order. -/
def allowWritten : State :=
  { State.reset with
    pkg := { State.reset.pkg with power := .running }
    ticks := [⟨(pgIjl 0, Off.IJL_CTRL), State.reset.clock, 0#24, 0#24, [(tickRank .hoist, 0#24)]⟩] }

theorem allow_ijlWrite_allowWritten : rb (guardedWrite allowWritten ⟨.firmware, 0⟩ (pgIjl 0) Off.IJL_CTRL
    (ijlWrite ⟨.firmware, 0⟩ 0 (word (b2n true)))) (pgIjl 0) Off.IJL_CTRL 0 = false := by
  decide

/-- Refutes O48: a write of ALLOW in the tick of another write whose requester comes later in the order of R36 leaves that
one's value. -/
theorem not_secureSession : ¬ Obligations.SecureSession := by
  intro h
  obtain ⟨-, -, -, -, hallow⟩ := h
  obtain ⟨t, ht, hval, -⟩ := hallow allowWritten ⟨.firmware, 0⟩ 0 true (by decide)
  cases ht
  exact absurd (allow_ijlWrite_allowWritten.symm.trans hval) (by decide)

end Sys2Proof.Machine

namespace Sys2Proof.Machine
open Sys2Proof.Laws

/-! ### What registers, events and waiting leave alone

Most operations end with counters, events and status registers. Two views of the state say what these leave: `engines`
leaves out the registers, the host link and what has left the part, `timeless` the clock and the dies' counters too. -/

/-- All of the state but the registers, the host link and what has left the part. -/
def engines (s : State) : State := { s with regs := [], pcie := {}, out := [] }

/-- All of the state but what the passing of time changes. -/
def timeless (s : State) : State := { engines s with clock := 0, dies := [] }

/-- A command completes in the state that its execution gives. -/
theorem Completes.of {i : Instr} {s t : State} {P : State → Prop} (h : exec i s = .next t) (hP : P t) : Completes i s P :=
  ⟨t, h, hP⟩

section
variable (s : State)

@[simp] theorem engines_wr (p : Pg) (o : Nat) (v : Word) : engines (wr s p o v) = engines s := rfl
@[simp] theorem engines_wf (p : Pg) (o lo n v : Nat) : engines (wf s p o lo n v) = engines s := rfl
@[simp] theorem engines_wb (p : Pg) (o i : Nat) (b : Bool) : engines (wb s p o i b) = engines s := rfl
@[simp] theorem engines_count (p : Pg) (o : Nat) : engines (count s p o) = engines s := rfl

@[simp] theorem engines_latch (p : Pg) (m : Word) : engines (latch s p m) = engines s :=
  latch_inv (φ := engines) (fun _ _ => rfl) (fun _ _ => rfl) (fun _ _ => rfl) rfl

@[simp] theorem engines_raise (p : Pg) (i : Nat) : engines (raise s p i) = engines s := engines_latch ..

@[simp] theorem engines_logErr (r : Req) (p : Pg) (off : Nat) (write : Bool) (code : Nat) :
    engines (logErr s r p off write code) = engines s := logErr_inv (φ := engines) (fun _ _ => rfl) rfl

theorem timeless_engines {s t : State} (h : engines t = engines s) : timeless t = timeless s :=
  congrArg (fun u : State => { u with clock := 0, dies := [] }) h

/-- A part of the state that `engines` shows is one of `engines`. -/
theorem eq_of_engines {α : Type} (φ : State → α) {s t : State} (h : engines t = engines s)
    (hφ : ∀ u, φ (engines u) = φ u := by intro; rfl) : φ t = φ s := by rw [← hφ t, h, hφ]

/-- A part of the state that `timeless` shows is one of `timeless`. -/
theorem eq_of_timeless {α : Type} (φ : State → α) {s t : State} (h : timeless t = timeless s)
    (hφ : ∀ u, φ (timeless u) = φ u := by intro; rfl) : φ t = φ s := by rw [← hφ t, h, hφ]

@[simp] theorem timeless_waitClock (c : Nat) : timeless (waitClock s c) = timeless s :=
  waitClock_inv (φ := timeless) (fun _ _ => rfl) (fun _ _ => rfl) (fun _ _ => rfl) (fun _ _ => rfl) (fun _ _ => rfl) rfl

@[simp] theorem timeless_waitTick (d : Nat) (t : Int) : timeless (waitTick s d t) = timeless s :=
  waitTick_inv (φ := timeless) (fun _ _ => rfl) (fun _ _ => rfl) (fun _ _ => rfl) (fun _ _ => rfl) (fun _ _ => rfl) rfl

@[simp] theorem timeless_touchSession (r : Req) (p : Pg) : timeless (touchSession s r p) = timeless s :=
  touchSession_inv (φ := timeless) (fun _ _ => rfl) rfl

end

/-! ### The memory engine -/

section
variable (s : State) (d : Nat)

@[simp] theorem memSt_raise (p : Pg) (i : Nat) : memSt (raise s p i) d = memSt s d :=
  eq_of_engines (memSt · d) (engines_raise ..)

@[simp] theorem memSt_waitClock (c : Nat) : memSt (waitClock s c) d = memSt s d :=
  eq_of_timeless (memSt · d) (timeless_waitClock ..)

@[simp] theorem memSt_touchSession (r : Req) (p : Pg) : memSt (touchSession s r p) d = memSt s d :=
  eq_of_timeless (memSt · d) (timeless_touchSession ..)

@[simp] theorem memSt_mtStat (e : Nat) : memSt (mtStat s d) e = memSt s e := rfl
@[simp] theorem memSt_retStat (e : Nat) : memSt (retStat s d) e = memSt s e := rfl
@[simp] theorem memSt_retWrite (w : Nat) (v : Word) (e : Nat) : memSt (retWrite s d w v) e = memSt s e := rfl
@[simp] theorem mtStat_mem : (mtStat s d).mem = s.mem := rfl
@[simp] theorem mtStat_clock : (mtStat s d).clock = s.clock := rfl

@[simp] theorem mtCopy_mem : (mtCopy s d).mem = s.mem := by
  apply mtCopy_inv (φ := State.mem)
  case hU => rfl
  all_goals exact fun _ _ => rfl

/-- The next region begins: the first one found bad by a reader, else the one of the sweep. -/
theorem mtStart_spec : (memSt (mtStart s d) d).phase = 1 ∧
    ((memSt (mtStart s d) d).bank, (memSt (mtStart s d) d).region) =
      (memSt s d).ahead.headD ((memSt s d).sweepBank, (memSt s d).sweepRegion) ∧
    (memSt (mtStart s d) d).ahead = (memSt s d).ahead.tail ∧ (mtStart s d).clock = s.clock := by
  unfold mtStart
  cases h : (memSt s d).ahead <;> simp [h]

/-- The copy of a region done. -/
theorem memCopied {u : State} (h : u.mem = s.mem) :
    (memSt (mtStat (setMemSt u d { memSt u d with phase := 2 }) d) d).phase = 2 ∧
      (mtStat (setMemSt u d { memSt u d with phase := 2 }) d).mem = s.mem := ⟨by simp, h⟩

theorem phase_mtEnd : (memSt (mtEnd s d) d).phase = 0 := by
  unfold mtEnd
  dsimp only
  split_ifs <;> simp [count]

end

/-! ### The retention store -/

section
variable (s : State) (d : Nat)

@[simp] theorem rd_setMemSt' (x : MemSt) (p : Pg) (o : Nat) : rd (setMemSt s d x) p o = rd s p o := rfl

theorem exec_retDataWrite_of_taken {r : Req} (h : Taken s r (pgRetain d) Off.RET_DATA) (v : Word) :
    exec (.retDataWrite r d v) s =
      .next (retDataWrite ⟨clsOn r (pgRetain d), r.rid⟩ d v (touchSession s r (pgRetain d))) :=
  congrArg Host.Outcome.next (guardedWrite_of_taken h _)

@[simp] theorem retAdvance_mems : (retAdvance s d).mems = s.mems := by
  unfold retAdvance
  dsimp only
  split <;> rfl

@[simp] theorem retAdvance_ret : (retAdvance s d).ret = s.ret := by
  unfold retAdvance
  dsimp only
  split <;> rfl

@[simp] theorem retAdvance_resp : (retAdvance s d).resp = s.resp := by
  unfold retAdvance
  dsimp only
  split <;> rfl

@[simp] theorem memSt_retAdvance (e : Nat) : memSt (retAdvance s d) e = memSt s e := by
  unfold memSt
  rw [retAdvance_mems]

theorem retAddr_retAdvance : rf (retAdvance s d) (pgRetain d) Off.RET_ADDR 0 12 =
    (rf s (pgRetain d) Off.RET_ADDR 0 12 + b2n (rb s (pgRetain d) Off.RET_ADDR 12)) % 4096 := by
  unfold retAdvance
  dsimp only
  split
  · rename_i h
    rw [rf_wf_same _ _ _ _ _ _ (by decide), h]
    rfl
  · rename_i h
    rw [Bool.eq_false_of_not_eq_true h]
    exact (Nat.mod_eq_of_lt (fld_lt ..)).symm

theorem rd_retAdvance_other {p : Pg} {o : Nat} (h : o ≠ Off.RET_ADDR) : rd (retAdvance s d) p o = rd s p o := by
  unfold retAdvance
  dsimp only
  split
  · exact rd_wr_off _ _ _ _ _ _ h.symm
  · rfl

end

theorem bytesWord_bytes (w : Word) :
    bytesWord (BitVec.ofNat 8 w.toNat) (BitVec.ofNat 8 (w.toNat / 256)) (BitVec.ofNat 8 (w.toNat / 65536)) = w := by
  have h := w.isLt
  apply BitVec.eq_of_toNat_eq
  simp only [bytesWord, word, BitVec.toNat_ofNat]
  omega

theorem bytesWord_memSet3 (m : List Host.Cell) (a : Nat) (w : Word) :
    bytesWord (memGet (memSet3 m a w) a) (memGet (memSet3 m a w) (a + 1)) (memGet (memSet3 m a w) (a + 2)) = w := by
  simpa [memSet3, memGet_memSet] using bytesWord_bytes w

/-- A write to RET_DATA that waits in the queue. -/
theorem retDataWrite_queued {s : State} {r : Req} {d : Nat} {v : Word}
    (hfw : ¬ (rf s (pgRetain d) Off.RET_ADDR 0 12 < 3584 ∧ r.cls ≠ .firmware)) (hlen : (memSt s d).queue.length < 8) :
    retDataWrite r d v s = retAdvance (retStat (setMemSt s d { memSt s d with
      queue := (memSt s d).queue ++ [(rf s (pgRetain d) Off.RET_ADDR 0 12, v)] }) d) d := by
  unfold retDataWrite
  simp only [if_neg hfw, if_neg (show ¬ 8 ≤ (memSt s d).queue.length by omega)]

/-- A write to RET_DATA that finds the queue full. -/
theorem retDataWrite_full {s : State} {r : Req} {d : Nat} {v : Word}
    (hfw : ¬ (rf s (pgRetain d) Off.RET_ADDR 0 12 < 3584 ∧ r.cls ≠ .firmware)) (hlen : 8 ≤ (memSt s d).queue.length) :
    retDataWrite r d v s = retAdvance (logErr s r (pgRetain d) Off.RET_DATA true 0x41) d := by
  unfold retDataWrite
  simp only [if_neg hfw, if_pos hlen]

/-- A write to RET_DATA of a word that is not the requester's. -/
theorem retDataWrite_refused {s : State} {r : Req} {d : Nat} {v : Word}
    (hw : rf s (pgRetain d) Off.RET_ADDR 0 12 < 3584) (hfw : r.cls ≠ .firmware) :
    retDataWrite r d v s = retAdvance (raise (logErr s r (pgRetain d) Off.RET_DATA true 0x40) (pgRetain d) 2) d := by
  unfold retDataWrite
  simp only [if_pos (show _ ∧ _ from ⟨hw, hfw⟩)]

/-- What a queued word leaves in the registers of the queue. -/
theorem rf_retStat (s : State) (d : Nat) :
    rf (retStat s d) (pgRetain d) Off.RET_STAT 4 4 = (memSt s d).queue.length % 16 := by
  unfold retStat
  dsimp only
  rw [rf_wb_apart _ _ _ _ _ _ _ (by omega), rf_wf_same _ _ _ _ _ _ (by decide)]
  rfl

theorem rd_retStat_other (s : State) (d : Nat) {p : Pg} {o : Nat} (h : Off.RET_STAT ≠ o) :
    rd (retStat s d) p o = rd s p o := by
  unfold retStat wb wf
  dsimp only
  rw [rd_wr_off _ _ _ _ _ _ h, rd_wr_off _ _ _ _ _ _ h]

/-- A read of RET_DATA from a good store leaves the store and the answer. -/
theorem retDataRead_good {s : State} (d : Nat) (h : s.retEcc = []) :
    (retDataRead d s).ret = s.ret ∧ (retDataRead d s).resp = s.resp := by
  unfold retDataRead
  have hgood : Tbl.get s.retEcc (retAddr d (rf s (pgRetain d) Off.RET_ADDR 0 12)) .good = .good := by rw [h]; rfl
  simp only [hgood, ite_self, retAdvance_ret, retAdvance_resp]
  exact ⟨rfl, rfl⟩

theorem exec_retDataRead_of_taken {s : State} {r : Req} {d : Nat} (h : TakenRead s r (pgRetain d) Off.RET_DATA) :
    exec (.retDataRead r d) s = .next (retDataRead d
      { capture (touchSession s r (pgRetain d)) r (pgRetain d) Off.RET_DATA (fun s _ _ => retDataVal s d) with
        resp := .data (tagOf s (pgRetain d) Off.RET_DATA false)
          (captured (touchSession s r (pgRetain d)) r (pgRetain d) Off.RET_DATA fun s _ _ => retDataVal s d) }) :=
  congrArg Host.Outcome.next (guardedRead_of_pass h.1 _ _ h.2)

/-- The value of RET_DATA in a good store. -/
theorem retDataVal_good {s : State} (d : Nat) (h : s.retEcc = []) : retDataVal s d =
    match (memSt s d).queue.reverse.find? fun e => decide (e.1 = rf s (pgRetain d) Off.RET_ADDR 0 12) with
    | some e => e.2
    | none => retRaw s d (rf s (pgRetain d) Off.RET_ADDR 0 12) := by
  unfold retDataVal
  have hbad : ¬ Tbl.get s.retEcc (retAddr d (rf s (pgRetain d) Off.RET_ADDR 0 12)) .good = .bad := by
    rw [h]
    exact nofun
  simp only [if_neg hbad] <;> rfl

theorem exec_repairMapSave {s : State} {d : Nat} (hd : d < s.part.dies) (hlen : (memSt s d).saved.length < 64) {w : Word}
    {rest : List Word} (h : (memSt s d).toSave = w :: rest) : ∃ n v, exec (.repairMapSave d) s =
      .next (nextFree (retWrite (setMemSt s d
        { memSt s d with toSave := rest, saved := (memSt s d).saved ++ [w.toNat / 2 ^ 16] }) d n v)) := by
  simp only [show exec (.repairMapSave d) s = execRepairMapSave d s from rfl, execRepairMapSave, h,
    if_pos (show d < s.part.dies ∧ _ from ⟨hd, hlen⟩)]
  exact ⟨_, _, rfl⟩

section
variable {s : State} {d : Nat} (hd : d < s.part.dies) (rows : List Nat)
include hd

theorem exec_memtestPhaseDone_copy (h : (memSt s d).phase = 1) : exec (.memtestPhaseDone d rows) s =
    .next (mtStat (setMemSt (mtCopy s d) d { memSt (mtCopy s d) d with phase := 2 }) d) := by
  change execMemtestPhaseDone d rows s = _
  simp only [execMemtestPhaseDone, if_neg (Nat.not_le.mpr hd), h]

theorem exec_memtestPhaseDone_march (h : (memSt s d).phase = 2) : exec (.memtestPhaseDone d rows) s =
    .next (mtStat (setMemSt s d { memSt s d with phase := 3, failing := (rows.filter (· < 16)).eraseDups }) d) := by
  change execMemtestPhaseDone d rows s = _
  simp only [execMemtestPhaseDone, if_neg (Nat.not_le.mpr hd), h]

theorem exec_memtestPhaseDone_repair (h : (memSt s d).phase = 3) : exec (.memtestPhaseDone d rows) s =
    .next (mtStat (setMemSt (each (memSt s d).failing s fun s row => mtRepairRow s d row) d
      { memSt (each (memSt s d).failing s fun s row => mtRepairRow s d row) d with phase := 4, failing := [] }) d) := by
  change execMemtestPhaseDone d rows s = _
  simp only [execMemtestPhaseDone, if_neg (Nat.not_le.mpr hd), h]

theorem exec_memtestPhaseDone_restore (h : (memSt s d).phase = 4) : exec (.memtestPhaseDone d rows) s =
    .next (mtEnd s d) := by
  change execMemtestPhaseDone d rows s = _
  simp only [execMemtestPhaseDone, if_neg (Nat.not_le.mpr hd), h]

end

/-- Settles O39: each command is an equation of its engine's state and of the store. -/
theorem memoryService : Obligations.MemoryService := by
  refine ⟨fun s d hd hon hph => ?_, fun s d rows hd => ⟨fun hph hecc => ?_, fun hph => ?_, fun hph => ?_, fun hph => ?_⟩,
    fun s d hd hlen w rest hsave => ?_, fun s r d v hT => ⟨fun hw => ⟨fun hlen => ?_, fun hlen => ?_⟩, fun hw hfw => ?_⟩,
    fun s r d hT hecc hcaps => ?_, fun s d e rest hq => ?_⟩
  · refine ⟨_, congrArg Host.Outcome.next (if_pos (by simp [hd, hon, hph])), ?_⟩
    obtain ⟨h1, h2, h3, h4⟩ := mtStart_spec
      (waitClock s ((memSt s d).lastStart + max 1 (rf s (pgMemctl d) Off.MT_CFG 8 8) * 25000)) d
    rw [memSt_waitClock] at h2 h3
    refine ⟨h1, h2, h3, ?_⟩
    rw [h4, waitClock_clock]
    exact le_max_right ..
  · refine ⟨_, exec_memtestPhaseDone_copy hd rows hph, memCopied s d (mtCopy_mem s d)⟩
  · refine ⟨_, exec_memtestPhaseDone_march hd rows hph, ?_⟩
    simp
  · refine ⟨_, exec_memtestPhaseDone_repair hd rows hph, ?_⟩
    simp
  · refine ⟨_, exec_memtestPhaseDone_restore hd rows hph, ?_⟩
    exact phase_mtEnd s d
  · obtain ⟨n, v, h⟩ := exec_repairMapSave hd hlen hsave
    exact ⟨_, h, by simp⟩
  · refine ⟨_, exec_retDataWrite_of_taken s d hT v, ?_⟩
    have hfw : ¬ (rf s (pgRetain d) Off.RET_ADDR 0 12 < 3584 ∧ clsOn r (pgRetain d) ≠ .firmware) := by
      rintro ⟨hlow, hcls⟩
      exact hw.elim (by omega) hcls
    rw [retDataWrite_queued (by simpa only [rf_touchSession] using hfw) (by simpa using hlen)]
    refine ⟨?_, ?_, ?_⟩
    · simp
    · unfold rf
      rw [rd_retAdvance_other _ _ (by decide)]
      exact (rf_retStat ..).trans (by simp; omega)
    · rw [retAddr_retAdvance]
      unfold rf rb
      simp only [rd_retStat_other _ _ (show Off.RET_STAT ≠ Off.RET_ADDR by decide), rd_setMemSt', rd_touchSession]
  · refine ⟨_, exec_retDataWrite_of_taken s d hT v, ?_⟩
    have hfw : ¬ (rf s (pgRetain d) Off.RET_ADDR 0 12 < 3584 ∧ clsOn r (pgRetain d) ≠ .firmware) := by
      rintro ⟨hlow, hcls⟩
      exact hw.elim (by omega) hcls
    rw [retDataWrite_full (by simpa only [rf_touchSession] using hfw) (by simpa using hlen)]
    exact (retAdvance_mems ..).trans ((eq_of_engines State.mems (engines_logErr ..)).trans
      (eq_of_timeless State.mems (timeless_touchSession ..)))
  · refine ⟨_, exec_retDataWrite_of_taken s d hT v, ?_⟩
    rw [retDataWrite_refused (r := ⟨clsOn r (pgRetain d), r.rid⟩) (by simpa only [rf_touchSession] using hw) hfw]
    refine ⟨(retAdvance_mems ..).trans (((eq_of_engines State.mems (engines_raise ..)).trans
      (eq_of_engines State.mems (engines_logErr ..))).trans (eq_of_timeless State.mems (timeless_touchSession ..))), ?_⟩
    unfold rb
    rw [rd_retAdvance_other _ _ (by decide)]
    exact rb_raise_same _ _ _ ((eq_of_engines (present · _) (engines_logErr ..)).trans (by simpa using hT.present)) (by decide)
  · refine ⟨_, exec_retDataRead_of_taken hT, ?_⟩
    have htouch : timeless (touchSession s r (pgRetain d)) = timeless s := timeless_touchSession ..
    have hgood : (touchSession s r (pgRetain d)).retEcc = [] := (eq_of_timeless State.retEcc htouch).trans hecc
    have hval : captured (touchSession s r (pgRetain d)) r (pgRetain d) Off.RET_DATA (fun s _ _ => retDataVal s d) =
        retDataVal (touchSession s r (pgRetain d)) d := by
      unfold captured
      rw [eq_of_timeless State.caps htouch, hcaps]
      rfl
    have hecc' : ∀ x, { capture (touchSession s r (pgRetain d)) r (pgRetain d) Off.RET_DATA (fun s _ _ => retDataVal s d)
        with resp := x }.retEcc = [] := fun _ => (capture_inv (φ := State.retEcc) (fun _ _ => rfl) rfl).trans hgood
    refine ⟨(retDataRead_good d (hecc' _)).1.trans ((capture_inv (φ := State.ret) (fun _ _ => rfl) rfl).trans
      (eq_of_timeless State.ret htouch)), _, (retDataRead_good d (hecc' _)).2.trans (congrArg (Resp.data _) (hval.trans ?_))⟩
    rw [retDataVal_good _ hgood, memSt_touchSession, rf_touchSession, eq_of_timeless (retRaw · d) htouch] <;> rfl
  · obtain ⟨w, v⟩ := e
    refine ⟨_, congrArg Host.Outcome.next (by simp only [hq]; rfl), ?_⟩
    refine ⟨by simp, bytesWord_memSet3 .., fun x hx => memGet_memSet3 _ _ _ _ (hx.imp_right fun h => h)⟩
end Sys2Proof.Machine

namespace Sys2Proof.Machine
open Sys2Proof.Laws

/-! ### The block types of the numbered pages -/

theorem pgKind_pgHp (d : Nat) {i : Nat} (h : i < 16) : pgKind (pgHp d i) = .hp := by
  rw [pgHp, nsAt, if_pos h]
  exact (by decide : ∀ i < 16, nsKind (0x10 + i) = .hp) i h

theorem pgKind_pgEnc (d : Nat) {i : Nat} (h : i < 8) : pgKind (pgEnc d i) = .enc := by
  rw [pgEnc, nsAt, if_pos h]
  exact (by decide : ∀ i < 8, nsKind (0x20 + i) = .enc) i h

theorem pgKind_pgAx (d : Nat) {i : Nat} (h : i < 4) : pgKind (pgAx d i) = .ax := by
  rw [pgAx, nsAt, if_pos h]
  exact (by decide : ∀ i < 4, nsKind (0x28 + i) = .ax) i h

theorem pgKind_pgHc (d : Nat) {i : Nat} (h : i < 32) : pgKind (pgHc d i) = .hoistCh := by
  rw [pgHc, nsAt, if_pos h]
  exact (by decide : ∀ i < 32, nsKind (0x40 + i) = .hoistCh) i h

theorem pgKind_pgChute (d : Nat) {i : Nat} (h : i < 64) : pgKind (pgChute d i) = .chute := by
  rw [pgChute, nsAt, if_pos h]
  exact (by decide : ∀ i < 64, nsKind (0x60 + i) = .chute) i h

@[simp] theorem sec_pgHc (d c : Nat) : (pgHc d c).sec = false := rfl

/-! ### A Hoist channel's engine -/

section
variable (s : State) (d c : Nat)

@[simp] theorem hoist_raise (p : Pg) (i : Nat) : hoist (raise s p i) d c = hoist s d c :=
  eq_of_engines (hoist · d c) (engines_raise ..)

@[simp] theorem hoist_waitClock (n : Nat) : hoist (waitClock s n) d c = hoist s d c :=
  eq_of_timeless (hoist · d c) (timeless_waitClock ..)

@[simp] theorem present_raise (p : Pg) (i : Nat) (q : Pg) : present (raise s p i) q = present s q :=
  eq_of_engines (present · q) (engines_raise ..)

@[simp] theorem present_waitClock (n : Nat) (q : Pg) : present (waitClock s n) q = present s q :=
  eq_of_timeless (present · q) (timeless_waitClock ..)

@[simp] theorem hoist_errRecord (k code : Nat) (d' c' : Nat) : hoist (errRecord s d c k code) d' c' = hoist s d' c' := by
  apply errRecord_inv (φ := (hoist · d' c'))
  case hU => rfl
  all_goals exact fun _ _ => rfl

@[simp] theorem present_errRecord (k code : Nat) (q : Pg) : present (errRecord s d c k code) q = present s q := by
  apply errRecord_inv (φ := (present · q))
  case hU => rfl
  all_goals exact fun _ _ => rfl

theorem hoist_unreserve (b : Burst) (d' c' : Nat) : hoist (unreserve s d b) d' c' = hoist s d' c' := by
  apply unreserve_inv (φ := (hoist · d' c'))
  case hU => rfl
  all_goals exact fun _ _ => rfl

theorem hoist_unreserves (l : List Burst) (d' c' : Nat) :
    hoist (each l s fun s b => unreserve s d b) d' c' = hoist s d' c' :=
  each_pres (P := fun t => hoist t d' c' = hoist s d' c') rfl fun t b _ h => (hoist_unreserve t d b d' c').trans h

@[simp] theorem hoist_hcUnhold : hoist (hcUnhold s d c) d c = { hoist s d c with held := none } :=
  (hoist_unreserves ..).trans (by simp)

@[simp] theorem hoist_hcDrop : hoist (hcDrop s d c) d c = { hoist s d c with bursts := [] } :=
  (hoist_unreserves ..).trans (hoist_setHoist ..)

@[simp] theorem hoist_hcUnsig : hoist (hcUnsig s d c) d c = { hoist s d c with sig := none } := by
  unfold hcUnsig
  dsimp only
  split
  · refine (each_pres (P := fun t => hoist t d c = { hoist s d c with sig := none }) ?_ fun t q _ h => ?_)
    · simp
    · refine Eq.trans ?_ h
      apply cqFollow_inv (φ := (hoist · d c))
      case hU => rfl
      all_goals exact fun _ _ => rfl
  · rename_i h
    have hnone : (hoist s d c).sig = none := by simpa using h
    rw [← hnone]

@[simp] theorem present_hcUnhold (q : Pg) : present (hcUnhold s d c) q = present s q := by
  apply hcUnhold_inv (φ := (present · q))
  case hU => rfl
  all_goals exact fun _ _ => rfl

@[simp] theorem present_hcDrop (q : Pg) : present (hcDrop s d c) q = present s q := by
  apply hcDrop_inv (φ := (present · q))
  case hU => rfl
  all_goals exact fun _ _ => rfl

@[simp] theorem present_hcUnsig (q : Pg) : present (hcUnsig s d c) q = present s q := by
  apply hcUnsig_inv (φ := (present · q))
  case hU => rfl
  all_goals exact fun _ _ => rfl

@[simp] theorem hoist_hcReport (e : HcErr) (d' c' : Nat) : hoist (hcReport s d c e) d' c' = hoist s d' c' := by
  apply hcReport_inv (φ := (hoist · d' c'))
  case hU => rfl
  all_goals exact fun _ _ => rfl

end

/-! What the registers of the channel keep. -/

section
variable (s : State) (d : Nat) {c : Nat} (hc : c < 32) (o : Nat)
include hc

theorem rd_hcUnhold : rd (hcUnhold s d c) (pgHc d c) o = rd s (pgHc d c) o :=
  (hcUnhold_keeps (Kind.apart .hoistCh .chuteGlobal (pgKind_pgHc d hc)) (Kind.apart .hoistCh .chute (pgKind_pgHc d hc))
    (.refl ..)).regs o

theorem rd_hcDrop : rd (hcDrop s d c) (pgHc d c) o = rd s (pgHc d c) o :=
  (hcDrop_keeps (Kind.apart .hoistCh .chuteGlobal (pgKind_pgHc d hc)) (Kind.apart .hoistCh .chute (pgKind_pgHc d hc))
    (.refl ..)).regs o

theorem rd_hcUnsig : rd (hcUnsig s d c) (pgHc d c) o = rd s (pgHc d c) o :=
  (hcUnsig_keeps (Kind.apart .hoistCh .hoistGlobal (pgKind_pgHc d hc)) (.refl ..)).regs o

theorem rd_errRecord (k code : Nat) : rd (errRecord s d c k code) (pgHc d c) o = rd s (pgHc d c) o :=
  (errRecord_keeps (Kind.apart .hoistCh .hoistGlobal (pgKind_pgHc d hc)) (.refl ..)).regs o

theorem rd_hcRecord (e : HcErr) : rd (hcRecord s d c e) (pgHc d c) o = rd s (pgHc d c) o :=
  (hcRecord_keeps (Kind.apart .hoistCh .fence (pgKind_pgHc d hc)) (Kind.apart .hoistCh .chuteGlobal (pgKind_pgHc d hc))
    (Kind.apart .hoistCh .chute (pgKind_pgHc d hc)) (.refl ..)).regs o

omit hc in
theorem fld_word_byte (n : Nat) : fld (word n) 0 8 = n % 256 := by
  simp only [fld, word, BitVec.toNat_ofNat, pow_zero, Nat.div_one]
  omega

/-- What a halt reports. -/
theorem hcReport_spec {e : HcErr} (hp : present s (pgHc d c) = true) :
    rf (hcReport s d c e) (pgHc d c) Off.HC_ERR 0 8 = e.code % 256 ∧ rb (hcReport s d c e) (pgHc d c) Off.EVT_LAT 3 = true := by
  unfold hcReport rf rb
  dsimp only
  rw [rd_errRecord _ _ hc, rd_hcRecord _ _ hc, rd_errRecord _ _ hc, rd_hcRecord _ _ hc]
  constructor
  · rw [count, rd_wr_off _ _ _ _ _ _ (by decide), rd_raise_off _ _ _ _ _ (by decide), rd_wr_off _ _ _ _ _ _ (by decide),
      rd_wr48_off _ _ _ _ _ _ (by decide) (by decide), rd_wr_same, fld_word_byte]
    omega
  · rw [count, rd_wr_off _ _ _ _ _ _ (by decide)]
    exact rb_raise_same _ _ _ hp (by decide)

/-- A halt of a running channel that does not abort, for another reason than poison. -/
theorem hcHalt_spec {code w : Nat} (hrun : running s (pgHc d c) = true) (hcs : (hoist s d c).cs ≠ 6) (hcode : code < 256)
    (h3 : code ≠ 3) : Halted (hcHalt s d c code w) d c code := by
  obtain ⟨hp, hst⟩ := Bool.and_eq_true_iff.1 hrun
  unfold hcHalt hcFail
  simp only [hst, hcs, decide_false, Bool.not_false, Bool.and_false, Bool.and_true, if_neg h3, if_true,
    Bool.false_eq_true, if_false]
  have hpres : ∀ x, present (setHoist (hcUnsig (hcDrop s d c) d c) d c x) (pgHc d c) = true := fun _ =>
    (present_hcUnsig ..).trans ((present_hcDrop ..).trans hp)
  obtain ⟨herr, hev⟩ := hcReport_spec _ d hc (e := { code := code, addr := dpsLocal w }) (hpres _)
  refine ⟨?_, herr.trans (Nat.mod_eq_of_lt hcode), hev⟩
  rw [hoist_hcReport, hoist_setHoist]

end
/-! ### Writes of HC_CTRL -/

section
variable {s : State} {r : Req} {d c : Nat} (h : HcTaken s r d c)
include h

/-- A taken write of one action bit is the write of HC_CTRL with HOLD as it stands. -/
theorem hcCommand_of_taken (i : Nat) :
    hcCommand s r d c i = hcCtrl s d c (setBit (setBit 0#24 2 (hcHeld s d c)) i true) := by
  rw [hcCommand, guardedWrite_of_taken h.2, touchSession_of_not_sec (sec_pgHc d c)]

theorem exec_hcStart : exec (.hcStart r d c) s = .next (hcTrigger (wb s (pgHc d c) Off.HC_CTRL 2 (hcHeld s d c)) d c) := by
  refine congrArg Host.Outcome.next ((if_pos h.1).trans ((hcCommand_of_taken h 0).trans ?_))
  cases hcHeld s d c <;> rfl

theorem exec_hcCancel : exec (.hcCancel r d c) s =
    .next (wf (wb s (pgHc d c) Off.HC_CTRL 2 (hcHeld s d c)) (pgHc d c) Off.HC_PEND 0 8 0) := by
  refine congrArg Host.Outcome.next ((if_pos h.1).trans ((hcCommand_of_taken h 1).trans ?_))
  cases hcHeld s d c <;> rfl

theorem exec_hcResume : exec (.hcResume r d c) s =
    .next (Machine.hcResume (wb s (pgHc d c) Off.HC_CTRL 2 (hcHeld s d c)) d c) := by
  refine congrArg Host.Outcome.next ((if_pos h.1).trans ((hcCommand_of_taken h 3).trans ?_))
  cases hcHeld s d c <;> rfl

theorem exec_hcAbort : exec (.hcAbort r d c) s =
    .next (Machine.hcAbort (wb s (pgHc d c) Off.HC_CTRL 2 (hcHeld s d c)) d c) := by
  refine congrArg Host.Outcome.next ((if_pos h.1).trans ((hcCommand_of_taken h 4).trans ?_))
  cases hcHeld s d c <;> rfl

theorem exec_hcHold (b : Bool) : exec (.hcHold r d c b) s = .next (wb s (pgHc d c) Off.HC_CTRL 2 b) := by
  refine congrArg Host.Outcome.next ((if_pos h.1).trans ((guardedWrite_of_taken h.2 _).trans ?_))
  rw [touchSession_of_not_sec (sec_pgHc d c)]
  cases b <;> rfl

end

theorem running_wb_off (s : State) (p q : Pg) {o : Nat} (i : Nat) (b : Bool) (h : o ≠ Off.PAGE_STAT) :
    running (wb s p o i b) q = running s q := by
  unfold running pstate
  rw [rf_wb_off _ _ _ _ _ _ _ _ _ h]
  rfl

/-- A trigger that reaches a running channel. -/
theorem hcTrigger_running {s : State} {d c : Nat} (h : running s (pgHc d c) = true) : hcTrigger s d c =
    if rf s (pgHc d c) Off.HC_PEND 0 8 = 255 then raise s (pgHc d c) 5
    else wf s (pgHc d c) Off.HC_PEND 0 8 (rf s (pgHc d c) Off.HC_PEND 0 8 + 1) := by
  have hst : pstate s (pgHc d c) = stRunning := of_decide_eq_true (Bool.and_eq_true_iff.1 h).2
  unfold hcTrigger
  rw [if_pos (by rw [hst]; decide)]

theorem hcTrigger_adds {s : State} {d c : Nat} (h : running s (pgHc d c) = true) (hlt : rf s (pgHc d c) Off.HC_PEND 0 8 < 255) :
    (hcTrigger s d c).trigs = s.trigs ∧
      rf (hcTrigger s d c) (pgHc d c) Off.HC_PEND 0 8 = rf s (pgHc d c) Off.HC_PEND 0 8 + 1 := by
  rw [hcTrigger_running h, if_neg (by omega), rf_wf_same _ _ _ _ _ _ (by decide)]
  exact ⟨rfl, by omega⟩

/-- A channel that waited goes on behind its WAIT. -/
theorem waitDone_spec (s : State) (d c : Nat) : (hoist (waitDone s d c) d c).cs = 2 ∧
    (hoist (waitDone s d c) d c).pc = (hoist s d c).pc + 2 ∧ (waitDone s d c).clock = s.clock := by
  unfold waitDone hcNext
  simp

section
variable {s : State} {d c : Nat} (hrun : running s (pgHc d c) = true)
include hrun

/-- A RESUME of a halted channel: it stands where it halted, and what its failed burst reserved is given up. -/
theorem hcResume_halted (hcs : (hoist s d c).cs = 5) : (hoist (Machine.hcResume s d c) d c).cs = 2 ∧
    (hoist (Machine.hcResume s d c) d c).held = none ∧ (hoist (Machine.hcResume s d c) d c).pc = (hoist s d c).pc := by
  unfold Machine.hcResume
  rw [if_pos (by rw [hrun]; exact decide_eq_true hcs)]
  simp only [hoist_setHoist, hoist_hcUnhold, and_self]

/-- An ABORT of a halted channel completes at once. -/
theorem hcAbort_halted (hcs : (hoist s d c).cs = 5) : (hoist (Machine.hcAbort s d c) d c).cs = 1 ∧
    (hoist (Machine.hcAbort s d c) d c).move = none ∧ rb (Machine.hcAbort s d c) (pgHc d c) Off.EVT_LAT 4 = true := by
  unfold Machine.hcAbort
  simp only [hrun, hcs, Bool.not_true, Bool.false_eq_true, if_false, if_true]
  unfold hcAborted
  refine ⟨by simp, by simp, rb_raise_same _ _ _ ?_ (by decide)⟩
  exact (present_errRecord ..).trans ((present_hcUnhold ..).trans (Bool.and_eq_true_iff.1 hrun).1)

/-- An ABORT of a running channel waits for its bursts in flight. -/
theorem hcAbort_bursts (hcs : (hoist s d c).cs = 2) (hb : (hoist s d c).bursts ≠ []) :
    (hoist (Machine.hcAbort s d c) d c).cs = 6 ∧ (hoist (Machine.hcAbort s d c) d c).bursts = (hoist s d c).bursts := by
  unfold Machine.hcAbort
  simp [hrun, hcs, hb]

end

/-! ### Waits and the watchdog -/

section
variable {s : State} {d c q v f : Nat} (hon : hcOn s d c = true)
include hon

theorem exec_waitSatisfied_timed (hcs : (hoist s d c).cs = 3) (hw : (hoist s d c).wait = some (0, q, v, f)) :
    exec (.waitSatisfied d c) s = .next (waitDone (waitClock s f) d c) :=
  congrArg Host.Outcome.next ((if_pos (by simp [hon, hcs])).trans (by rw [hw]; rfl))

theorem exec_waitSatisfied_trigger (hcs : (hoist s d c).cs = 3) (hw : (hoist s d c).wait = some (1, q, v, f))
    (hn : 0 < rf s (pgHc d c) Off.HC_PEND 0 8) : exec (.waitSatisfied d c) s =
      .next (waitDone (wf s (pgHc d c) Off.HC_PEND 0 8 (rf s (pgHc d c) Off.HC_PEND 0 8 - 1)) d c) :=
  congrArg Host.Outcome.next ((if_pos (by simp [hon, hcs])).trans (by rw [hw]; exact if_pos hn))

theorem exec_waitSatisfied_chute (hcs : (hoist s d c).cs = 3) (hw : (hoist s d c).wait = some (2, q, v, f))
    (hp : present s (pgChute d q) = true) (hreal : realChute s q = true) (hlev : v ≤ chuteLevel s d q) :
    exec (.waitSatisfied d c) s = .next (waitDone s d c) :=
  congrArg Host.Outcome.next ((if_pos (by simp [hon, hcs])).trans
    (by rw [hw]; exact if_pos (by rw [hp, hreal, decide_eq_true hlev]; rfl)))

theorem exec_waitTimeout (hcs : (hoist s d c).cs = 3) (hw : (hoist s d c).wait = some (1, q, v, f)) (hv : v ≠ 0)
    (hn : rf s (pgHc d c) Off.HC_PEND 0 8 = 0) :
    exec (.waitTimeout d c) s = .next (hcHalt (waitClock s f) d c 9 (hoist s d c).pc) :=
  congrArg Host.Outcome.next ((if_pos (by simp [hon, hcs])).trans (by rw [hw]; exact if_pos ⟨hv, hn⟩))

theorem exec_hoistWatchdog (hcs : (hoist s d c).cs = 2) (hb : (hoist s d c).bursts.any Burst.hostRead = false)
    (hw : rf s (pgHc d c) Off.HC_WDOG 0 16 ≠ 0) : exec (.hoistWatchdog d c) s =
      .next (hcHalt (waitClock s ((hoist s d c).wdAt + 4096 * rf s (pgHc d c) Off.HC_WDOG 0 16)) d c 8 (hoist s d c).pc) :=
  congrArg Host.Outcome.next (if_pos (by rw [hon, hcs, hb, decide_eq_true hw]; rfl))

/-- A run begins: it takes a trigger. -/
theorem exec_runStart (hcs : (hoist s d c).cs = 1) (hn : 0 < rf s (pgHc d c) Off.HC_PEND 0 8) :
    ∃ t x, exec (.runStart d c) s = .next (raise (setHoist t d c x) (pgHc d c) 0) ∧
      t = countMod (wf s (pgHc d c) Off.HC_PEND 0 8 (rf s (pgHc d c) Off.HC_PEND 0 8 - 1)) (pgHc d c) Off.CNT_RUNS ∧
      x.cs = 2 ∧ x.pc = rf s (pgHc d c) Off.HC_PROG 0 17 :=
  ⟨_, _, congrArg Host.Outcome.next (if_pos (by simp [hon, hcs, hn])), rfl, rfl, rfl⟩

/-- A halt after waiting until clock `n`. -/
theorem hcHalt_waitClock {n code w : Nat} (hcs : (hoist s d c).cs ≠ 6) (hcode : code < 256) (h3 : code ≠ 3) :
    Halted (hcHalt (waitClock s n) d c code w) d c code ∧ n ≤ (hcHalt (waitClock s n) d c code w).clock := by
  simp only [hcOn, Bool.and_eq_true, decide_eq_true_eq] at hon
  obtain ⟨⟨⟨hc, -⟩, -⟩, hrun⟩ := hon
  refine ⟨hcHalt_spec _ d hc ?_ (by rwa [hoist_waitClock]) hcode h3, ?_⟩
  · unfold running pstate rf at hrun ⊢
    rwa [present_waitClock, rd_waitClock _ _ (by decide)]
  · have hclock : (hcHalt (waitClock s n) d c code w).clock = (waitClock s n).clock := by
      apply hcHalt_inv (φ := State.clock)
      case hU => rfl
      all_goals exact fun _ _ => rfl
    rw [hclock, waitClock_clock]
    exact le_max_right ..

end

theorem present_congr {s t : State} (h : t.part = s.part) (q : Pg) : present t q = present s q := by
  unfold present
  rw [h]

theorem exec_globalTimerFire {s : State} {d k : Nat} (hd : d < s.part.dies) (hk : k < 4)
    (hper : rdN s (pgHoistGlobal d) (Off.TMR_PERIOD + 4 * k) ≠ 0) (hrun : running s (pgHoistGlobal d) = true) :
    ∃ n m, exec (.globalTimerFire d k) s =
      .next (hoistSource (timerTokens { waitClock s n with tmrs := m } d k) d 1 k 0) :=
  ⟨_, _, congrArg Host.Outcome.next (if_pos ⟨hd, hk, hper, hrun⟩)⟩

/-- A timer that fires sends its triggers to the channels that named it before. -/
theorem trigs_hoistSource_timer (s : State) (d k n : Nat) (m : Tbl (Nat × Nat) Nat) :
    (hoistSource (timerTokens { waitClock s n with tmrs := m } d k) d 1 k 0).trigs =
      s.trigs ++ ((List.range 32).filter (hoistNames s d 1 k 0)).map fun c => (d, c) := by
  have htrigs : (timerTokens { waitClock s n with tmrs := m } d k).trigs = s.trigs :=
    (timerTokens_inv (φ := State.trigs) (fun _ _ => rfl) rfl).trans
      (eq_of_timeless (t := waitClock s n) State.trigs (timeless_waitClock ..))
  have hpart : (timerTokens { waitClock s n with tmrs := m } d k).part = s.part :=
    (timerTokens_inv (φ := State.part) (fun _ _ => rfl) rfl).trans (waitClock_part ..)
  have hnames : ∀ c, hoistNames (timerTokens { waitClock s n with tmrs := m } d k) d 1 k 0 c =
      hoistNames s d 1 k 0 c := fun c => by
    have hreg : rd (timerTokens { waitClock s n with tmrs := m } d k) (pgHc d c) Off.HC_TRIG =
        rd s (pgHc d c) Off.HC_TRIG :=
      ((timerTokens_keeps (.refl ..)).regs _).trans (rd_waitClock _ _ (by decide))
    simp only [hoistNames, hreg, present_congr hpart]
  unfold hoistSource
  simp only [htrigs, funext hnames]

/-- Settles O33: the writes of HC_CTRL are equations of the channel, and a halt is `hcHalt_spec`. -/
theorem hoistRuns : Obligations.HoistRuns := by
  refine ⟨fun s r d c h => ⟨fun hrun hlt => ?_, fun hrun hmax => ?_, ?_, fun b => ?_, fun hrun hcs => ⟨?_, ?_⟩,
    fun hrun hcs hb => ?_⟩, fun s d c hmem hrun hlt => ?_, fun s d c hon => ⟨fun hcs hn => ?_,
    fun k q v f hcs hw => ⟨fun hk => ?_, fun hk hn => ?_, fun hk hp hreal hlev => ?_, fun hk hv hn => ?_⟩,
    fun hcs hb hw => ?_⟩, fun s d k hd hk hrun hper => ?_⟩
  · refine .of (exec_hcStart h) ?_
    have hadd := (hcTrigger_adds (s := wb s (pgHc d c) Off.HC_CTRL 2 (hcHeld s d c))
      (by rwa [running_wb_off _ _ _ _ _ (by decide)])
      (by rwa [rf_wb_off _ _ _ _ _ _ _ _ _ (by decide)])).2
    exact hadd.trans (congrArg (· + 1) (rf_wb_off _ _ _ _ _ _ _ _ _ (by decide)))
  · refine .of (exec_hcStart h) ?_
    rw [hcTrigger_running (by rwa [running_wb_off _ _ _ _ _ (by decide)]), rf_wb_off _ _ _ _ _ _ _ _ _ (by decide),
      if_pos hmax]
    refine ⟨?_, rb_raise_same _ _ _ h.2.present (by decide)⟩
    unfold rf
    rw [rd_raise_off _ _ _ _ _ (by decide)]
    exact (rf_wb_off _ _ _ _ _ _ _ _ _ (by decide)).trans hmax
  · refine ⟨_, exec_hcCancel h, rf_wf_same _ _ _ _ _ _ (by decide), ?_⟩
    unfold hcHeld
    rw [rb_wf_off _ _ _ _ _ _ _ _ _ (by decide), rb_wb_same _ _ _ _ _ (by decide)]
  · exact ⟨_, exec_hcHold h b, rb_wb_same _ _ _ _ _ (by decide), rfl⟩
  · exact .of (exec_hcResume h) (hcResume_halted (by rwa [running_wb_off _ _ _ _ _ (by decide)]) hcs)
  · exact .of (exec_hcAbort h) (hcAbort_halted (by rwa [running_wb_off _ _ _ _ _ (by decide)]) hcs)
  · exact .of (exec_hcAbort h) (hcAbort_bursts (by rwa [running_wb_off _ _ _ _ _ (by decide)]) hcs hb)
  · refine .of (congrArg Host.Outcome.next (if_pos hmem)) ?_
    exact hcTrigger_adds (s := { s with trigs := s.trigs.erase (d, c) }) hrun hlt
  · obtain ⟨t, x, hex, rfl, hx, hpc⟩ := exec_runStart hon hcs hn
    simp only [hcOn, running, Bool.and_eq_true] at hon
    refine .of hex ⟨by rw [hoist_raise, hoist_setHoist, hx], by rw [hoist_raise, hoist_setHoist, hpc],
      rb_raise_same _ _ _ hon.2.1 (by decide), ?_, ?_⟩
    · unfold rf
      rw [rd_raise_off _ _ _ _ _ (by decide)]
      have hpend := rf_wf_same s (pgHc d c) Off.HC_PEND 0 8 (rf s (pgHc d c) Off.HC_PEND 0 8 - 1) (by decide)
      have hlt := fld_lt (rd s (pgHc d c) Off.HC_PEND) 0 8
      refine (congrArg (fun w => fld w 0 8 + 1) (rd_wr_off _ _ _ _ _ _ (by decide))).trans ?_
      unfold rf at hpend hn
      rw [hpend]
      omega
    · rw [rd_raise_off _ _ _ _ _ (by decide)]
      exact (rd_wr_same ..).trans (congrArg (· + 1#24) (rd_wr_off _ _ _ _ _ _ (by decide)))
  · subst hk
    obtain ⟨h1, h2, h3⟩ := waitDone_spec (waitClock s f) d c
    refine .of (exec_waitSatisfied_timed hon hcs hw) ⟨h1, h2.trans (by rw [hoist_waitClock]), ?_⟩
    rw [h3, waitClock_clock]
    exact le_max_right ..
  · subst hk
    obtain ⟨h1, h2, h3⟩ := waitDone_spec (wf s (pgHc d c) Off.HC_PEND 0 8 (rf s (pgHc d c) Off.HC_PEND 0 8 - 1)) d c
    refine .of (exec_waitSatisfied_trigger hon hcs hw hn) ⟨h1, h2, ?_⟩
    have hpend := rf_wf_same s (pgHc d c) Off.HC_PEND 0 8 (rf s (pgHc d c) Off.HC_PEND 0 8 - 1) (by decide)
    have hlt := fld_lt (rd s (pgHc d c) Off.HC_PEND) 0 8
    change rf (wf s (pgHc d c) Off.HC_PEND 0 8 (rf s (pgHc d c) Off.HC_PEND 0 8 - 1)) (pgHc d c) Off.HC_PEND 0 8 + 1 = _
    rw [hpend]
    unfold rf at hn ⊢
    omega
  · subst hk
    obtain ⟨h1, h2, -⟩ := waitDone_spec s d c
    exact .of (exec_waitSatisfied_chute hon hcs hw hp hreal hlev) ⟨h1, h2⟩
  · subst hk
    exact .of (exec_waitTimeout hon hcs hw hv hn) (hcHalt_waitClock hon (by omega) (by decide) (by decide))
  · exact .of (exec_hoistWatchdog hon hcs hb hw) (hcHalt_waitClock hon (by omega) (by decide) (by decide))
  · obtain ⟨n, m, h⟩ := exec_globalTimerFire hd hk hper hrun
    exact .of h (trigs_hoistSource_timer ..)
end Sys2Proof.Machine

namespace Sys2Proof.Machine
open Sys2Proof.Laws

/-! ### The Assay engine -/

theorem le_clock_waitTick (s : State) (d : Nat) (t : Int) : s.clock ≤ (waitTick s d t).clock := by
  unfold waitTick
  dsimp only
  split
  · exact le_rfl
  · rw [ticksPass_clock]
    omega

theorem le_clock_waitClock (s : State) (c : Nat) : s.clock ≤ (waitClock s c).clock := by
  rw [waitClock_clock]
  exact le_max_left ..

theorem clock_waitClock_le (s : State) (c : Nat) : c ≤ (waitClock s c).clock := by
  rw [waitClock_clock]
  exact le_max_right ..

section
variable (s : State) (d c : Nat)

@[simp] theorem assay_waitClock (n : Nat) : assay (waitClock s n) d = assay s d :=
  eq_of_timeless (assay · d) (timeless_waitClock ..)

@[simp] theorem assay_waitTick (e : Nat) (t : Int) : assay (waitTick s e t) d = assay s d :=
  eq_of_timeless (assay · d) (timeless_waitTick ..)

@[simp] theorem assay_raise (p : Pg) (i : Nat) : assay (raise s p i) d = assay s d :=
  eq_of_engines (assay · d) (engines_raise ..)

@[simp] theorem timeless_waitSpare (cls : Nat) : timeless (waitSpare s d cls) = timeless s := by
  unfold waitSpare
  split
  · rfl
  · exact timeless_waitTick ..

@[simp] theorem assay_waitSpare (e cls : Nat) : assay (waitSpare s e cls) d = assay s d :=
  eq_of_timeless (assay · d) (timeless_waitSpare ..)

theorem rd_waitSpare (cls : Nat) {q : Pg} {o : Nat} (ho : o ≠ Off.EVT_LAT) : rd (waitSpare s d cls) q o = rd s q o := by
  unfold waitSpare
  split
  · rfl
  · exact rd_waitTick _ ho

theorem le_clock_waitSpare (cls : Nat) : s.clock ≤ (waitSpare s d cls).clock := by
  unfold waitSpare
  split
  · exact le_rfl
  · exact le_clock_waitTick ..

theorem asChan_of_assay {s t : State} {d : Nat} (h : assay t d = assay s d) (c : Nat) : asChan t d c = asChan s d c := by
  rw [asChan, h, asChan]

@[simp] theorem asChan_setAsChan (x : AsChan) : asChan (setAsChan s d c x) d c = x := by simp [asChan, setAsChan]

@[simp] theorem asChan_setAsActive (cls : Nat) (a : Option Nat) : asChan (setAsActive s d cls a) d c = asChan s d c := by
  simp [asChan, setAsActive]

@[simp] theorem asActive_setAsActive (cls : Nat) (a : Option Nat) : asActive (setAsActive s d cls a) d cls = a := by
  cases a <;> simp [asActive, setAsActive]

@[simp] theorem asActive_setAsChan (cls : Nat) (x : AsChan) : asActive (setAsChan s d c x) d cls = asActive s d cls := by
  simp [asActive, setAsChan]

theorem asChan_setAsChan_other {c e : Nat} (x : AsChan) (h : c ≠ e) : asChan (setAsChan s d c x) d e = asChan s d e := by
  simp [asChan, setAsChan, Tbl.get_put_other _ _ _ _ _ h]

end

/-! Queueing and rotation change only what is queued. -/

theorem asQueue_cases (s : State) (d c k : Nat) :
    asQueue s d c k = s ∨ asQueue s d c k = setAsChan s d c { asChan s d c with queued := k } := by
  unfold asQueue
  dsimp only
  split_ifs
  · exact .inl rfl
  · exact .inr rfl
  · exact .inl rfl

/-- What queueing leaves of a channel and of the classes. -/
theorem asQueue_spec (s : State) (d e k c : Nat) : (∀ cls, asActive (asQueue s d e k) d cls = asActive s d cls) ∧
    ∃ q, asChan (asQueue s d e k) d c = { asChan s d c with queued := q } := by
  obtain h | h := asQueue_cases s d e k
  · rw [h]
    exact ⟨fun _ => rfl, (asChan s d c).queued, rfl⟩
  · rw [h]
    refine ⟨fun cls => asActive_setAsChan .., ?_⟩
    by_cases he : e = c
    · subst he
      exact ⟨k, asChan_setAsChan ..⟩
    · exact ⟨(asChan s d c).queued, asChan_setAsChan_other s d _ he⟩

/-- What rotation leaves of a channel and of the classes. -/
theorem asRotate_spec (s : State) (d cls c : Nat) : (∀ cl, asActive (asRotate s d cls) d cl = asActive s d cl) ∧
    ∃ q, asChan (asRotate s d cls) d c = { asChan s d c with queued := q } := by
  unfold asRotate
  split
  · dsimp only
    split
    · exact ⟨fun _ => rfl, (asChan s d c).queued, rfl⟩
    · rename_i e _ _
      obtain ⟨hact, q, hq⟩ := asQueue_spec s d e 5 c
      split
      · exact ⟨fun _ => rfl, (asChan s d c).queued, rfl⟩
      · refine ⟨fun cl => ?_, q, ?_⟩
        · simpa [asActive] using hact cl
        · simpa [asChan] using hq
  · exact ⟨fun _ => rfl, (asChan s d c).queued, rfl⟩

theorem asWaiting_ne_nil {s : State} {d cls c : Nat} (h : asBest s d cls = some c) : asWaiting s d cls ≠ [] := by
  intro hnil
  rw [asBest, hnil] at h
  cases h

theorem asRotate_of_waiting {s : State} {d cls : Nat} (h : asWaiting s d cls ≠ []) : asRotate s d cls = s := by
  rw [asRotate, if_neg (by simp [h])]

/-! The rows of a run. -/

section
variable {s : State} {d cls : Nat} (hd : d < s.part.dies) (hcls : cls < 3) (hm : modeOf s d ≠ 1)
include hd hcls hm

theorem asRun_eq {c : Nat} (h : asActive s d cls = some c) : asRun s d cls = some c := by
  rw [asRun, if_pos (by simp [asLive, hd, hcls, hm]), h]

/-- A run that starts. -/
theorem exec_assayRunStart (hrun : running s (pgAssay d) = true) (hact : asActive s d cls = none) {c : Nat}
    (hbest : asBest s d cls = some c) : ∃ u x, exec (.assayRunStart d cls) s = .next (setAsActive (setAsChan u d c x) d cls (some c)) ∧
      x = { asChan s d c with st := 2, queued := 0, kind := (asChan s d c).queued, result := 0, measured := false,
                              aborted := false, takenAt := u.clock } := by
  have hrot : asRotate s d cls = s := asRotate_of_waiting (asWaiting_ne_nil hbest)
  refine ⟨setAssay s d { assay s d with xtalLost := if cls = 0 then noXtal s d else (assay s d).xtalLost }, _, ?_, rfl⟩
  refine congrArg Host.Outcome.next ((if_pos (by simp [asLive, hd, hcls, hm, hrun, hact])).trans ?_)
  simp only [hrot, hbest]
  rw [show asChan (setAssay s d _) d c = asChan s d c by simp [asChan]]

end
/-- The state in which a takeover comes. -/
def takeoverAt (s : State) (d cls c : Nat) : State := waitSpare (waitClock s ((asChan s d c).takenAt + 1)) d cls

@[simp] theorem assay_takeoverAt (s : State) (d cls c e : Nat) : assay (takeoverAt s d cls c) e = assay s e := by
  simp [takeoverAt]

/-- The state in which a measurement begins. -/
def measureAt (s : State) (d cls c : Nat) : State :=
  if asPos c = 16 then waitSpare s d cls
  else waitTick (waitClock s ((asChan s d c).takenAt + 16)) d ((asChan s d c).origEnd + 16)

theorem rd_measureAt (s : State) (d cls c : Nat) {q : Pg} {o : Nat} (ho : o ≠ Off.EVT_LAT) :
    rd (measureAt s d cls c) q o = rd s q o := by
  unfold measureAt
  split
  · exact rd_waitSpare _ _ _ ho
  · exact (rd_waitTick _ ho).trans (rd_waitClock _ _ ho)

theorem takenAt_le_measureAt {s : State} {d cls c : Nat} (h : asPos c ≠ 16) :
    (asChan s d c).takenAt + 16 ≤ (measureAt s d cls c).clock := by
  rw [measureAt, if_neg h]
  exact (clock_waitClock_le ..).trans (le_clock_waitTick ..)

section
variable {s : State} {d cls c : Nat} (hrun : asRun s d cls = some c)
include hrun

theorem exec_assayTakeover (hst : (asChan s d c).st = 2) (hlent : (asChan s d c).lent = false) (hpos : asPos c ≠ 16)
    (hidle : portIdle s d (asPos c) = true) (hfree : spareFree (takeoverAt s d cls c) d (asClass c) = true) :
    exec (.assayTakeover d cls) s = .next (setAsChan (takeoverAt s d cls c) d c { asChan s d c with
      lent := true, takenAt := (takeoverAt s d cls c).clock, origEnd := portEnd (takeoverAt s d cls c) d (asPos c) }) := by
  have hx : asChan (takeoverAt s d cls c) d c = asChan s d c := asChan_of_assay (assay_takeoverAt ..) c
  change ok _ = _
  simp only [hrun]
  rw [if_pos ⟨hst, by rw [hlent]; rfl, hpos, hidle⟩, show waitSpare _ d cls = takeoverAt s d cls c from rfl, asTake, hx, if_pos ⟨hst, by rw [hlent]; rfl, hpos, hfree⟩]

theorem exec_assayMeasureStart (hst : (asChan s d c).st = 2) (hab : (asChan s d c).aborted = false)
    (hready : (asChan s d c).lent = true ∨ asPos c = 16) :
    exec (.assayMeasureStart d cls) s = .next (setAsChan (measureAt s d cls c) d c { asChan s d c with
      st := 3, measAt := (measureAt s d cls c).clock, runTemp := islTemp (measureAt s d cls c) d (asIsland c) }) := by
  change ok _ = _
  simp only [hrun, hst, hab, hready, Bool.not_false, and_self, if_true]
  rfl

theorem exec_assayMeasureEnd (hst : (asChan s d c).st = 3) (hmeas : (asChan s d c).measured = false)
    (hab : (asChan s d c).aborted = false) (ps : List Int) : ∃ x, exec (.assayMeasureEnd d cls ps) s =
      .next (setAsChan (waitClock s ((asChan s d c).measAt + asLength cls)) d c x) ∧ x.measured = true ∧
      x.result = asCheck s d cls ((assay s d).xtalLost || noXtal s d) ps ∧
      (x.result ≠ 1 → x.points = (asChan s d c).points) := by
  have hcheck : asCheck (waitClock s ((asChan s d c).measAt + asLength cls)) d cls
      ((assay (waitClock s ((asChan s d c).measAt + asLength cls)) d).xtalLost ||
        noXtal (waitClock s ((asChan s d c).measAt + asLength cls)) d) ps =
      asCheck s d cls ((assay s d).xtalLost || noXtal s d) ps := by
    rw [assay_waitClock]
    unfold asCheck noXtal rb rf
    simp only [rd_waitClock _ _ (show Off.AS_LIMIT ≠ Off.EVT_LAT by decide)]
  have hx : asChan (waitClock s ((asChan s d c).measAt + asLength cls)) d c = asChan s d c :=
    asChan_of_assay (assay_waitClock ..) c
  simp only [show exec (.assayMeasureEnd d cls ps) s = execAssayMeasureEnd d cls ps s from rfl, execAssayMeasureEnd, hrun]
  rw [if_pos ⟨hst, by rw [hmeas]; rfl, by rw [hab]; rfl⟩]
  refine ⟨_, rfl, rfl, hcheck, fun hres => ?_⟩
  dsimp only at hres ⊢
  rw [if_neg hres, hx]

theorem exec_runDone (h : asPos c = 16 ∨ portIdle s d (asPos c) = true) :
    exec (.runDone d cls) s = .next (asHandBack s d c) := by
  change ok _ = _
  simp only [hrun, h, if_true]

end

theorem rd_asRotate (s : State) (d cls : Nat) (q : Pg) (o : Nat) : rd (asRotate s d cls) q o = rd s q o :=
  asRotate_inv (φ := (rd · q o)) (fun _ _ => rfl) rfl

/-- What a run's end makes of its channel, before its class may go on by rotation. -/
theorem asEnd_eq (s : State) (d c res : Nat) : ∃ y, asEnd s d c res =
      asRotate (raise (setAsActive (setAsChan s d c y) d (asClass c) none) (pgAssay d) (if res = 1 then 0 else 1)) d (asClass c) ∧
    y.st = 0 ∧ y.lastResult = res ∧
    y.runs = (if res = 7 then (asChan s d c).runs else min ((asChan s d c).runs + 1) 0xFFFFFF) :=
  ⟨_, rfl, rfl, rfl, by simp⟩

/-- The end of a run: the class is free, and the channel shows the result. -/
theorem asEnd_spec (s : State) (d c res : Nat) (hp : present s (pgAssay d) = true) :
    asActive (asEnd s d c res) d (asClass c) = none ∧ (asChan (asEnd s d c res) d c).st = 0 ∧
      (asChan (asEnd s d c res) d c).lastResult = res ∧
      (asChan (asEnd s d c res) d c).runs = (if res = 7 then (asChan s d c).runs else min ((asChan s d c).runs + 1) 0xFFFFFF) ∧
      rb (asEnd s d c res) (pgAssay d) Off.EVT_LAT (if res = 1 then 0 else 1) = true := by
  obtain ⟨y, heq, hst, hres, hruns⟩ := asEnd_eq s d c res
  rw [heq]
  obtain ⟨hact, q, hq⟩ := asRotate_spec (raise (setAsActive (setAsChan s d c y) d (asClass c) none) (pgAssay d)
    (if res = 1 then 0 else 1)) d (asClass c) c
  have hchan : asChan (raise (setAsActive (setAsChan s d c y) d (asClass c) none) (pgAssay d) (if res = 1 then 0 else 1)) d c = y :=
    (asChan_of_assay (assay_raise ..) c).trans (by simp)
  rw [hchan] at hq
  refine ⟨(hact _).trans ?_, by rw [hq, ← hst], by rw [hq, ← hres], by rw [hq, ← hruns], ?_⟩
  · simp [asActive, setAsActive]
  · rw [rb, rd_asRotate]
    exact rb_raise_same _ _ _ hp (by split <;> decide)

/-- What the spare's return leaves of the channels. -/
theorem asChan_spareBack (s : State) (d c e : Nat) : asChan (spareBack s d c) d e = asChan s d e := by
  unfold spareBack
  split
  · simp [asChan]
  · rfl

/-- What the codes in force leave of a channel. -/
theorem asChan_asApply (s : State) (d c : Nat) : (asChan (asApply s d c) d c).runs = (asChan s d c).runs := by
  unfold asApply
  dsimp only
  split
  · rfl
  · rw [asChan_setAsChan]

/-- Settles O41: every row of a run is an equation of the channel. -/
theorem assayRuns : Obligations.AssayRuns := by
  refine fun s d cls hd hcls hm => ⟨fun hrun hact c hbest => ?_, fun c hact hst hlent hpos hidle hfree _ => ?_,
    fun c hact hst hab hready => ?_, fun c hact hst hmeas hab ps => ?_, fun c hact hcl hst hidle hp => ⟨fun hab hmeas hres => ?_, fun hab => ?_⟩⟩
  · obtain ⟨u, x, hex, hx⟩ := exec_assayRunStart hd hcls hm hrun hact hbest
    refine .of hex ?_
    simp [hx]
  · refine .of (exec_assayTakeover (asRun_eq hd hcls hm hact) hst hlent hpos hidle hfree) ?_
    rw [asChan_setAsChan]
    exact ⟨rfl, rfl, (clock_waitClock_le ..).trans (le_clock_waitSpare ..), rfl⟩
  · refine .of (exec_assayMeasureStart (asRun_eq hd hcls hm hact) hst hab hready) ?_
    rw [asChan_setAsChan]
    refine ⟨rfl, rfl, ?_, takenAt_le_measureAt⟩
    unfold islTemp rf
    rw [rd_measureAt _ _ _ _ (by simp; omega)]
  · obtain ⟨x, hex, h1, h2, h3⟩ := exec_assayMeasureEnd (asRun_eq hd hcls hm hact) hst hmeas hab ps
    refine .of hex ?_
    rw [asChan_setAsChan]
    exact ⟨h1, clock_waitClock_le .., h2, h3⟩
  · refine .of (exec_runDone (asRun_eq hd hcls hm hact) hidle) ?_
    have hback : asHandBack s d c = asEnd (asApply (spareBack s d c) d c) d c (asChan s d c).result := by
      simp [asHandBack, hab, hst, hmeas]
    have hp' : present (asApply (spareBack s d c) d c) (pgAssay d) = true :=
      (asApply_inv (φ := (present · (pgAssay d))) (fun _ _ => rfl)
        (spareBack_inv (φ := (present · (pgAssay d))) (fun _ _ => rfl) rfl)).trans hp
    obtain ⟨h1, h2, h3, h4, h5⟩ := asEnd_spec _ d c (asChan s d c).result hp'
    rw [if_neg hres, asChan_asApply, asChan_spareBack] at h4
    rw [hback, ← hcl]
    exact ⟨h1, h2, h3, h4, h5⟩
  · refine .of (exec_runDone (asRun_eq hd hcls hm hact) hidle) ?_
    have hback : asHandBack s d c = asEnd (spareBack s d c) d c 7 := by simp [asHandBack, hab, hst]
    have hp' : present (spareBack s d c) (pgAssay d) = true :=
      (spareBack_inv (φ := (present · (pgAssay d))) (fun _ _ => rfl) rfl).trans hp
    obtain ⟨h1, h2, h3, h4, h5⟩ := asEnd_spec _ d c 7 hp'
    rw [if_pos rfl, asChan_spareBack] at h4
    rw [hback, ← hcl]
    exact ⟨h1, h2, h3, h4, h5⟩

end Sys2Proof.Machine

namespace Sys2Proof.Machine
open Sys2Proof.Laws

/-! ### Commands to the Assay page -/

@[simp] theorem sec_pgAssay (d : Nat) : (pgAssay d).sec = false := rfl

theorem rdN_asResult (s : State) (d ch : Nat) {op res : Nat} (hop : op < 256) (hres : res < 256) :
    rdN (asResult s d op ch res) (pgAssay d) Off.AS_CMD_STAT = res * 65536 + ch % 256 * 256 + op := by
  have hch := Nat.mod_lt ch (show 0 < 256 by decide)
  unfold rdN asResult
  rw [rd_wr_same, word, BitVec.toNat_ofNat]
  omega

@[simp] theorem asResult_assays (s : State) (d op ch res : Nat) : (asResult s d op ch res).assays = s.assays := rfl
@[simp] theorem asChan_asResult (s : State) (d op ch res c : Nat) : asChan (asResult s d op ch res) d c = asChan s d c := rfl

theorem saveState_asResult (s : State) (d op ch res : Nat) : saveState (asResult s d op ch res) d = saveState s d := by
  unfold saveState rf asResult
  rw [rd_wr_off _ _ _ _ _ _ (by decide)]

theorem saveState_setSave (s : State) (d : Nat) {st : Nat} (h : st < 4) : saveState (setSave s d st) d = st := by
  unfold saveState setSave
  rw [rf_wf_same _ _ _ _ _ _ (by decide)]
  exact Nat.mod_eq_of_lt h

/-- A channel that is queued for a request. -/
theorem queued_asQueue_request {s : State} {d c : Nat} (hp : asPresent s c = true) (hrun : running s (pgAssay d) = true)
    (hawake : awake s d = true) (hx : ¬ (noXtal s d && decide (asClass c = 0)) = true) : (asChan (asQueue s d c 1) d c).queued = 1 := by
  unfold asQueue
  dsimp only
  rw [if_neg (by simpa [hp, hrun, hawake] using hx)]
  split
  · rw [asChan_setAsChan]
  · rename_i h
    rw [not_or] at h
    have hrank : asRank (asChan s d c).queued = 0 := by have := h.2; simp only [asRank] at this ⊢; omega
    unfold asRank at hrank
    split at hrank <;> simp_all

theorem asCancel1_queued (s : State) (d c : Nat) : (asChan (asCancel1 s d c) d c).queued = 0 := by
  unfold asCancel1 asForget
  dsimp only
  split <;> simp

section
variable {s : State} {r : Req} {d : Nat} (h : Taken s r (pgAssay d) Off.AS_CMD)
include h

theorem exec_asRequest {ch : Nat} (hch : ch < 256) : exec (.asRequest r d ch) s = .next (asRequest s d ch) := by
  refine congrArg Host.Outcome.next ((guardedWrite_of_taken h _).trans ?_)
  rw [touchSession_of_not_sec (sec_pgAssay d), Nat.mod_eq_of_lt hch]
  rfl

theorem exec_asCancel {ch : Nat} (hch : ch < 256) : exec (.asCancel r d ch) s = .next (asCancel s d ch) := by
  refine congrArg Host.Outcome.next ((guardedWrite_of_taken h _).trans ?_)
  rw [touchSession_of_not_sec (sec_pgAssay d), Nat.mod_eq_of_lt hch]
  rfl

theorem exec_asSave : exec (.asSave r d) s = .next (asSave s d 0) := by
  refine congrArg Host.Outcome.next ((guardedWrite_of_taken h _).trans ?_)
  rw [touchSession_of_not_sec (sec_pgAssay d)]
  rfl

theorem exec_asRestore : exec (.asRestore r d) s = .next (asRestore s d 0) := by
  refine congrArg Host.Outcome.next ((guardedWrite_of_taken h _).trans ?_)
  rw [touchSession_of_not_sec (sec_pgAssay d)]
  rfl

end

section
variable {s : State} {r : Req} {d : Nat} (h : Taken s r (pgAssay d) Off.AS_TAB_CTRL)
include h

theorem exec_tabRead : exec (.tabRead r d) s = .next (tabRead d s) := by
  refine congrArg Host.Outcome.next ((guardedWrite_of_taken h _).trans ?_)
  rw [touchSession_of_not_sec (sec_pgAssay d)]

theorem exec_tabWrite : exec (.tabWrite r d) s = .next (tabWrite ⟨clsOn r (pgAssay d), r.rid⟩ d s) := by
  refine congrArg Host.Outcome.next ((guardedWrite_of_taken h _).trans ?_)
  rw [touchSession_of_not_sec (sec_pgAssay d)]

theorem exec_tabClear : exec (.tabClear r d) s = .next (tabClear ⟨clsOn r (pgAssay d), r.rid⟩ d s) := by
  refine congrArg Host.Outcome.next ((guardedWrite_of_taken h _).trans ?_)
  rw [touchSession_of_not_sec (sec_pgAssay d)]

end

/-! The store (R334). -/

theorem retWrite_ret (s : State) (d w : Nat) (v : Word) : (retWrite s d w v).ret = memSet3 s.ret (retAddr d w) v := rfl

/-- A retention word leaves the words before it. -/
theorem retRaw_retWrite_other (s : State) (d : Nat) {w k : Nat} (v : Word) (h : k < w) :
    retRaw (retWrite s d w v) d k = retRaw s d k := by
  have haddr : retAddr d k + 2 < retAddr d w := by
    unfold retAddr
    omega
  rw [retRaw, retWrite_ret, memGet_memSet3 _ _ _ _ (.inl (by omega)), memGet_memSet3 _ _ _ _ (.inl (by omega)),
    memGet_memSet3 _ _ _ _ (.inl haddr), retRaw]

theorem retRaw_retWrites_other (d : Nat) {k : Nat} (w : Nat) (l : List (Word × Nat)) (s : State)
    (h : ∀ x ∈ l, k < w + x.2) : retRaw (each l s fun s x => retWrite s d (w + x.2) x.1) d k = retRaw s d k :=
  each_pres (P := fun t => retRaw t d k = retRaw s d k) rfl fun t x hx ht =>
    (retRaw_retWrite_other t d x.1 (h x hx)).trans ht

/-- The first word of a run is stored. -/
theorem retRaw_retWrites_head (s : State) (d w : Nat) (v : Word) (vs : List Word) :
    retRaw (retWrites s d w (v :: vs)) d w = v := by
  unfold retWrites
  rw [List.zipIdx_cons]
  change retRaw (each _ (retWrite s d (w + 0) v) _) d w = v
  refine (retRaw_retWrites_other d w _ _ fun x hx => ?_).trans (bytesWord_memSet3 ..)
  have := List.le_snd_of_mem_zipIdx hx
  omega

theorem retGet_setAsChan (s : State) (d c w : Nat) (x : AsChan) : retGet (setAsChan s d c x) d w = retGet s d w := rfl

/-- A table made from a list reads as the function it lists. -/
theorem Tbl.get_map {α β : Type} [DecidableEq α] (f : α → β) {l : List α} {k : α} (h : k ∈ l) (v : β) :
    Tbl.get (l.map fun k => (k, f k)) k v = f k := by
  induction l with
  | nil => cases h
  | cons a r ih =>
    by_cases ha : a = k
    · simp [Tbl.get, ha]
    · simpa [Tbl.get, ha] using ih ((List.mem_cons.1 h).resolve_left (Ne.symm ha))

/-- The points that a restore loads. -/
theorem point_loadPoints (s : State) (d : Nat) {c k : Nat} (hc : c ∈ asAll s) (hk : k < 8) :
    point (asChan (loadPoints s d) d c) k = (List.range 5).map fun j => retGet s d (344 + 40 * c + 5 * k + j) := by
  have hstep : (∀ w, retGet (loadPoints s d) d w = retGet s d w) ∧
      point (asChan (loadPoints s d) d c) k = (List.range 5).map fun j => retGet s d (344 + 40 * c + 5 * k + j) := by
    refine each_once (P := fun t => ∀ w, retGet t d w = retGet s d w)
      (Q := fun t => (∀ w, retGet t d w = retGet s d w) ∧
        point (asChan t d c) k = (List.range 5).map fun j => retGet s d (344 + 40 * c + 5 * k + j))
      hc ((List.nodup_range).filter _) (fun _ => rfl) (fun t e he ht => ht) (fun t ht => ⟨ht, ?_⟩) fun t e he ht => ⟨ht.1, ?_⟩
    · rw [asChan_setAsChan, point, Tbl.get_map _ (by simpa using hk)]
      simp only [ht]
    · rw [asChan_setAsChan_other _ _ _ he]
      exact ht.2
  exact hstep.2

/-- The Assay tables are saved. -/
theorem asSaved_spec {s : State} {d : Nat} (hp : present s (pgAssay d) = true) :
    saveState (asSaved s d) d = 0 ∧ rf (asSaved s d) (pgAssay d) Off.AS_SAVE_STAT 4 4 = 1 ∧
      rb (asSaved s d) (pgAssay d) Off.EVT_LAT 2 = true ∧ retRaw (asSaved s d) d 336 = 1#24 ∧
      (asSaved s d).assays = s.assays ∧ rd (asSaved s d) (pgAssay d) Off.AS_SAVES = inc24 (rd s (pgAssay d) Off.AS_SAVES) := by
  unfold asSaved
  dsimp only
  generalize hvs : lo24 s.pkg.seconds :: hi24 s.pkg.seconds :: crcWords (asArea s d) :: 0#24 :: 0#24 :: 0#24 :: 0#24 :: asArea s d = vs
  rw [show [word 1, lo24 s.pkg.seconds, hi24 s.pkg.seconds, crcWords (asArea s d), 0#24, 0#24, 0#24, 0#24] ++ asArea s d =
    word 1 :: vs by rw [← hvs]; rfl]
  have hraw := retRaw_retWrites_head s d 336 (word 1) vs
  have hass : (retWrites s d 336 (word 1 :: vs)).assays = s.assays :=
    retWrites_inv (φ := State.assays) (fun _ _ => rfl) (fun _ _ => rfl) (fun _ _ => rfl) rfl
  have hreg (o : Nat) : rd (retWrites s d 336 (word 1 :: vs)) (pgAssay d) o = rd s (pgAssay d) o :=
    (retWrites_keeps (Kind.apart .assay .retain rfl) (.refl ..)).regs o
  have hpres : present (retWrites s d 336 (word 1 :: vs)) (pgAssay d) = true :=
    (retWrites_inv (φ := (present · (pgAssay d))) (fun _ _ => rfl) (fun _ _ => rfl) (fun _ _ => rfl) rfl).trans hp
  generalize retWrites s d 336 (word 1 :: vs) = u at *
  refine ⟨?_, ?_, rb_raise_same _ _ _ hpres (by decide), (eq_of_engines (retRaw · d 336) (engines_raise ..)).trans hraw,
    (eq_of_engines State.assays (engines_raise ..)).trans hass, ?_⟩
  · unfold saveState rf
    rw [rd_raise_off _ _ _ _ _ (by decide), count, rd_wr_off _ _ _ _ _ _ (by decide)]
    exact (rf_wf_apart _ _ _ _ _ _ _ _ (by decide)).trans (saveState_setSave _ _ (by decide))
  · unfold rf
    rw [rd_raise_off _ _ _ _ _ (by decide), count, rd_wr_off _ _ _ _ _ _ (by decide)]
    exact rf_wf_same _ _ _ _ _ _ (by decide)
  · rw [rd_raise_off _ _ _ _ _ (by decide), count, rd_wr_same]
    unfold setSave wf
    rw [rd_wr_off _ _ _ _ _ _ (by decide), rd_wr_off _ _ _ _ _ _ (by decide), hreg]

/-- What the registers show of the end of a restore. -/
theorem restoreShown (u : State) {d st res i : Nat} (hst : st < 4) (hres : res < 16) (hi : i < 24)
    (hp : present u (pgAssay d) = true) :
    saveState (raise (wf (setSave u d st) (pgAssay d) Off.AS_SAVE_STAT 4 4 res) (pgAssay d) i) d = st ∧
      rf (raise (wf (setSave u d st) (pgAssay d) Off.AS_SAVE_STAT 4 4 res) (pgAssay d) i) (pgAssay d) Off.AS_SAVE_STAT 4 4 = res ∧
      rb (raise (wf (setSave u d st) (pgAssay d) Off.AS_SAVE_STAT 4 4 res) (pgAssay d) i) (pgAssay d) Off.EVT_LAT i = true := by
  refine ⟨?_, ?_, rb_raise_same _ _ _ hp hi⟩
  · unfold saveState rf
    rw [rd_raise_off _ _ _ _ _ (by decide)]
    exact (rf_wf_apart _ _ _ _ _ _ _ _ (by decide)).trans (saveState_setSave _ _ hst)
  · unfold rf
    rw [rd_raise_off _ _ _ _ _ (by decide)]
    exact (rf_wf_same _ _ _ _ _ _ (by decide)).trans (Nat.mod_eq_of_lt hres)

section
variable {s : State} {d : Nat}

theorem exec_restored_good (hd : d < s.part.dies) (hs : saveState s d = 2) (h : storeGood s d = true) :
    exec (.restored d) s = .next (raise (wf (setSave (loadPoints s d) d (if s.pkg.power = .entering then 1 else 0))
      (pgAssay d) Off.AS_SAVE_STAT 4 4 2) (pgAssay d) 3) :=
  congrArg Host.Outcome.next ((if_pos ⟨hd, hs⟩).trans (if_pos h))

theorem exec_restored_bad (hd : d < s.part.dies) (hs : saveState s d = 2) (h : storeGood s d = false) :
    exec (.restored d) s = .next (raise (wf (setSave s d (if s.pkg.power = .entering then 1 else 0))
      (pgAssay d) Off.AS_SAVE_STAT 4 4 3) (pgAssay d) 4) :=
  congrArg Host.Outcome.next ((if_pos ⟨hd, hs⟩).trans (if_neg (by rw [h]; exact Bool.false_ne_true)))

/-! The temperature tables (R333). -/

/-- A read of the table shows the selected point. -/
theorem tabRead_spec (hp : asPresent s (tabCh s d) = true) : (tabRead d s).assays = s.assays ∧ ∀ i < 5,
    rd (tabRead d s) (pgAssay d) (Off.AS_TAB_W0 + 4 * i) = (point (asChan s d (tabCh s d)) (tabPt s d)).getD i 0#24 := by
  unfold tabRead
  rw [if_pos hp]
  have hsel (t : State) (j : Nat) (v : Word) (h : rd t (pgAssay d) Off.AS_TAB_SEL = rd s (pgAssay d) Off.AS_TAB_SEL) :
      rd (wr t (pgAssay d) (Off.AS_TAB_W0 + 4 * j) v) (pgAssay d) Off.AS_TAB_SEL = rd s (pgAssay d) Off.AS_TAB_SEL :=
    (rd_wr_off _ _ _ _ _ _ (by simp; omega)).trans h
  refine ⟨each_pres (P := fun t => t.assays = s.assays) rfl fun _ _ _ ht => ht, fun i hi => ?_⟩
  refine each_once (x := i)
    (P := fun t => t.assays = s.assays ∧ rd t (pgAssay d) Off.AS_TAB_SEL = rd s (pgAssay d) Off.AS_TAB_SEL)
    (Q := fun t => rd t (pgAssay d) (Off.AS_TAB_W0 + 4 * i) = (point (asChan s d (tabCh s d)) (tabPt s d)).getD i 0#24)
    (List.mem_range.2 hi) List.nodup_range ⟨rfl, rfl⟩ (fun t j _ ht => ⟨ht.1, hsel t j _ ht.2⟩) (fun t ht => ?_)
    fun t j hj ht => (rd_wr_off _ _ _ _ _ _ (by omega)).trans ht
  obtain ⟨hass, hreg⟩ := ht
  rw [rd_wr_same]
  simp only [tabCh, tabPt, rf, asChan, assay, hreg, hass]

theorem ptValid_cleared (w : List Word) : ptValid (w.set 0 (setBit (w.getD 0 0#24) 23 false)) = false := by
  cases w with
  | nil => rfl
  | cons a l => exact bit_setBit _ _ _ (by decide)

/-- The words that a write stores in the selected point, and a point of another temperature as it was. -/
theorem tabWrite_spec (r : Req) (hp : asPresent s (tabCh s d) = true) (hbusy : tabBusy s d = false) :
    point (asChan (tabWrite r d s) d (tabCh s d)) (tabPt s d) = ((List.range 5).map fun i =>
        rd s (pgAssay d) (Off.AS_TAB_W0 + 4 * i) &&& word (if i = 0 then 0x80FFFF else 0xFFFFFF)) ∧
      ∀ k < 8, k ≠ tabPt s d → ptValid (point (asChan (tabWrite r d s) d (tabCh s d)) k) = true →
        point (asChan (tabWrite r d s) d (tabCh s d)) k = point (asChan s d (tabCh s d)) k := by
  unfold tabWrite
  simp only [hbusy, hp, Bool.false_eq_true, Bool.not_true, if_false, asChan_setAsChan]
  have hpt : tabPt s d < 8 := fld_lt ..
  refine ⟨?_, fun k hk hne hval => ?_⟩
  · rw [point, Tbl.get_map _ (List.mem_range.2 hpt), if_pos rfl]
  · rw [point, Tbl.get_map _ (List.mem_range.2 hk), if_neg hne] at hval ⊢
    split at hval
    · rw [ptValid_cleared] at hval
      cases hval
    · rename_i hclash
      rw [if_neg hclash]

theorem tabClear_spec (r : Req) (hp : asPresent s (tabCh s d) = true) (hbusy : tabBusy s d = false) :
    ptValid (point (asChan (tabClear r d s) d (tabCh s d)) (tabPt s d)) = false ∧
      ∀ k, k ≠ tabPt s d → point (asChan (tabClear r d s) d (tabCh s d)) k = point (asChan s d (tabCh s d)) k := by
  unfold tabClear
  simp only [hbusy, hp, Bool.false_eq_true, Bool.not_true, if_false, asChan_setAsChan]
  refine ⟨?_, fun k hk => ?_⟩
  · rw [point, Tbl.get_put_same]
    exact ptValid_cleared _
  · rw [point, Tbl.get_put_other _ _ _ _ _ (Ne.symm hk), point]

theorem tabWrite_busy (r : Req) (hbusy : tabBusy s d = true) : (tabWrite r d s).assays = s.assays := by
  unfold tabWrite
  rw [hbusy]
  exact eq_of_engines State.assays (engines_logErr ..)

theorem tabClear_busy (r : Req) (hbusy : tabBusy s d = true) : (tabClear r d s).assays = s.assays := by
  unfold tabClear
  rw [hbusy]
  exact eq_of_engines State.assays (engines_logErr ..)

end

/-- Settles O40: each command is an equation of the page and of the channels' engine. -/
theorem assayCommands : Obligations.AssayCommands := by
  refine ⟨fun s r d h => ⟨fun ch hch hp => ⟨fun hx => ?_, fun hx hc => ?_⟩, fun ch hch hp => ?_, fun ch hch hp => ?_,
    fun hs => ?_, fun hs => ?_, fun hs hpast => ?_, fun hs => ?_⟩,
    fun s d hd hp => ⟨fun hs => ?_, fun hs hg => ?_, fun hs hg => ?_⟩, fun s r d h hp => ⟨?_, fun hb => ?_, fun hb => ?_, fun hb => ?_⟩⟩
  · refine .of (exec_asRequest h (by omega)) ?_
    have hx' : ¬ (noXtal s d = true ∧ asClass ch = 0) := by
      rintro ⟨h1, h2⟩
      exact hx.elim (by simp [h1]) (absurd h2)
    unfold asRequest
    rw [if_neg (by omega), if_neg (by simp [hp]), if_neg hx']
    refine ⟨(rdN_asResult _ _ _ (by decide) (by decide)).trans (by omega), fun hrun hawake => ?_⟩
    rw [asChan_asResult]
    exact queued_asQueue_request hp hrun hawake (by simpa using hx')
  · refine .of (exec_asRequest h (by omega)) ?_
    unfold asRequest
    rw [if_neg (by omega), if_neg (by simp [hp]), if_pos ⟨hx, hc⟩]
    exact ⟨rfl, (rdN_asResult _ _ _ (by decide) (by decide)).trans (by omega)⟩
  · refine .of (exec_asRequest h (by omega)) ?_
    unfold asRequest
    rw [if_neg (by omega), if_pos (by simp [hp])]
    exact ⟨rfl, (rdN_asResult _ _ _ (by decide) (by decide)).trans (by omega)⟩
  · refine .of (exec_asCancel h (by omega)) ?_
    unfold asCancel
    rw [if_neg (by omega), if_neg (by simp [hp])]
    exact ⟨asCancel1_queued .., (rdN_asResult _ _ _ (by decide) (by decide)).trans (by omega)⟩
  · refine .of (exec_asSave h) ?_
    rw [asSave, if_neg (by simp [hs]), saveState_asResult]
    exact ⟨saveState_setSave _ _ (by decide), rdN_asResult _ _ _ (by decide) (by decide)⟩
  · refine .of (exec_asSave h) ?_
    rw [asSave, if_pos hs, saveState_asResult]
    exact ⟨rfl, rdN_asResult _ _ _ (by decide) (by decide)⟩
  · refine .of (exec_asRestore h) ?_
    rw [asRestore, if_neg (by simp only [hs, hpast]; simp), saveState_asResult]
    exact ⟨saveState_setSave _ _ (by decide), rdN_asResult _ _ _ (by decide) (by decide)⟩
  · refine .of (exec_asRestore h) ?_
    rw [asRestore, if_pos hs, saveState_asResult]
    exact ⟨rfl, rdN_asResult _ _ _ (by decide) (by decide)⟩
  · exact .of (congrArg Host.Outcome.next (if_pos ⟨hd, hs⟩)) (asSaved_spec hp)
  · have hp' : present (loadPoints s d) (pgAssay d) = true :=
      (loadPoints_inv (φ := (present · (pgAssay d))) (fun _ _ => rfl) rfl).trans hp
    obtain ⟨h1, h2, h3⟩ := restoreShown (loadPoints s d) (st := if s.pkg.power = .entering then 1 else 0) (res := 2) (i := 3)
      (by split <;> decide) (by decide) (by decide) hp'
    refine .of (exec_restored_good hd hs hg) ⟨h1, h2, h3, fun c hc k hk => ?_⟩
    rw [asChan_of_assay (assay_raise ..)]
    exact point_loadPoints s d hc hk
  · obtain ⟨h1, h2, h3⟩ := restoreShown s (st := if s.pkg.power = .entering then 1 else 0) (res := 3) (i := 4)
      (by split <;> decide) (by decide) (by decide) hp
    exact .of (exec_restored_bad hd hs hg) ⟨h1, h2, h3, eq_of_engines State.assays (engines_raise ..)⟩
  · exact .of (exec_tabRead h) (tabRead_spec hp)
  · exact .of (exec_tabWrite h) (tabWrite_spec _ hp hb)
  · exact .of (exec_tabClear h) (tabClear_spec _ hp hb)
  · exact ⟨.of (exec_tabWrite h) (tabWrite_busy _ hb), .of (exec_tabClear h) (tabClear_busy _ hb)⟩
end Sys2Proof.Machine

namespace Sys2Proof.Machine
open Sys2Proof.Laws

/-! ### Runs of retention words -/

theorem retWrites_cons (s : State) (d w : Nat) (v : Word) (vs : List Word) :
    retWrites s d w (v :: vs) = retWrites (retWrite s d w v) d (w + 1) vs := by
  unfold retWrites
  rw [List.zipIdx_cons, show (0 : Nat) + 1 = 0 + 1 from rfl, List.zipIdx_succ]
  change each _ (retWrite s d (w + 0) v) _ = _
  simp only [each, List.foldl_map, Nat.add_zero, Nat.add_assoc, Nat.add_comm 1]

/-- Each word of a run is stored. -/
theorem retRaw_retWrites (d : Nat) (vs : List Word) : ∀ (s : State) (w i : Nat) (h : i < vs.length),
    retRaw (retWrites s d w vs) d (w + i) = vs[i] := by
  induction vs with
  | nil => exact fun _ _ _ h => absurd h (Nat.not_lt_zero _)
  | cons v vs ih =>
    intro s w i h
    cases i with
    | zero => exact retRaw_retWrites_head s d w v vs
    | succ i =>
      rw [retWrites_cons, List.getElem_cons_succ, show w + (i + 1) = w + 1 + i by omega]
      exact ih _ _ _ (Nat.lt_of_succ_lt_succ h)

/-- A run of words leaves the bytes before and behind it. -/
theorem memGet_retWrites (d x : Nat) (vs : List Word) : ∀ (s : State) (w : Nat),
    x < retAddr d w ∨ retAddr d (w + vs.length) ≤ x → memGet (retWrites s d w vs).ret x = memGet s.ret x := by
  induction vs with
  | nil => exact fun _ _ _ => rfl
  | cons v vs ih =>
    intro s w h
    rw [List.length_cons] at h
    unfold retAddr at h ih
    rw [retWrites_cons, ih _ _ (by omega), retWrite_ret, memGet_memSet3]
    unfold retAddr
    omega

/-! ### The ageing monitor's engine -/

@[simp] theorem sec_pgLamp (d : Nat) : (pgLamp d).sec = false := rfl

section
variable (s : State) (d : Nat)

@[simp] theorem lamp_raise (p : Pg) (i e : Nat) : lamp (raise s p i) e = lamp s e :=
  eq_of_engines (lamp · e) (engines_raise ..)

@[simp] theorem lamp_waitClock (n e : Nat) : lamp (waitClock s n) e = lamp s e :=
  eq_of_timeless (lamp · e) (timeless_waitClock ..)

@[simp] theorem lamp_asQueue (c k e : Nat) : lamp (asQueue s d c k) e = lamp s e :=
  asQueue_inv (φ := (lamp · e)) (fun _ _ => rfl) rfl

theorem island_of_lamp {s t : State} {d : Nat} (h : lamp t d = lamp s d) (i : Nat) : island t d i = island s d i := by
  rw [island, h, island]

@[simp] theorem island_setIsland (i : Nat) (x : IslandSt) : island (setIsland s d i x) d i = x := by
  simp [island, setIsland]

theorem island_setIsland_other {i j : Nat} (x : IslandSt) (h : i ≠ j) : island (setIsland s d i x) d j = island s d j := by
  simp [island, setIsland, Tbl.get_put_other _ _ _ _ _ h]

@[simp] theorem since_setIsland (i : Nat) (x : IslandSt) : (lamp (setIsland s d i x) d).since = (lamp s d).since := by
  simp [setIsland]

end

/-- A measurement's state and the drifts of the islands are the same. -/
structure DriftsKept (d : Nat) (s t : State) : Prop where
  since : (lamp t d).since = (lamp s d).since
  drift : ∀ j, (island t d j).drift = (island s d j).drift

namespace DriftsKept

theorem of_lamp {s t : State} {d : Nat} (h : lamp t d = lamp s d) : DriftsKept d s t :=
  ⟨by rw [h], fun j => by rw [island_of_lamp h]⟩

theorem trans {s t u : State} {d : Nat} (h : DriftsKept d s t) (k : DriftsKept d t u) : DriftsKept d s u :=
  ⟨k.since.trans h.since, fun j => (k.drift j).trans (h.drift j)⟩

theorem setIsland {s : State} {d i : Nat} {x : IslandSt} (h : x.drift = (island s d i).drift) :
    DriftsKept d s (setIsland s d i x) := by
  refine ⟨since_setIsland .., fun j => ?_⟩
  by_cases hj : i = j
  · rw [← hj, island_setIsland, h]
  · rw [island_setIsland_other _ _ _ hj]

end DriftsKept

theorem lamp_asQueues (s : State) (d k : Nat) (l : List Nat) (e : Nat) : lamp (each l s fun s c => asQueue s d c k) e = lamp s e :=
  each_pres (P := fun t => lamp t e = lamp s e) rfl fun t c _ ht => (lamp_asQueue t d c k e).trans ht

theorem ageQueue_drifts (s : State) (d i : Nat) : DriftsKept d s (ageQueue s d i) := by
  unfold ageQueue
  split
  · exact (DriftsKept.setIsland (i := i) (x := { island s d i with lastAge := s.pkg.seconds }) rfl).trans
      (.of_lamp (lamp_asQueues ..))
  · exact .of_lamp rfl

/-- The count of re-plans is apart. -/
theorem DriftsKept.replans (s : State) (d n : Nat) : DriftsKept d s (setLamp s d { lamp s d with replans := n }) :=
  ⟨by rw [lamp_setLamp], fun j => by simp [island]⟩

/-- What reports a re-plan leaves the islands. -/
theorem DriftsKept.reported (s : State) (d type which bits n code o k : Nat) (isDie : Bool) (temp : Int) (w2 w3 : Word) (p q : Pg)
    (args : List Word) :
    DriftsKept d s (notice (raise (count (thRecord s d type which isDie bits temp w2 w3) p o) q k) d n code args) :=
  .of_lamp ((notice_inv (φ := (lamp · d)) (fun _ _ => rfl) (fun _ _ => rfl) (fun _ _ => rfl) (fun _ _ => rfl) rfl).trans
    ((lamp_raise ..).trans (thRecord_inv (φ := (lamp · d)) (fun _ _ => rfl) (fun _ _ => rfl) (fun _ _ => rfl)
      (fun _ _ => rfl) (fun _ _ => rfl) (fun _ _ => rfl) rfl)))

theorem replan_drifts (s : State) (d i : Nat) : DriftsKept d s (replan s d i) := by
  unfold replan
  dsimp only
  have hwarn : lamp (if (island s d i).vtrim < 8 then s else raise s (pgLamp d) 2) d = lamp s d := by
    split
    · rfl
    · exact lamp_raise ..
  refine (DriftsKept.of_lamp hwarn).trans ((DriftsKept.setIsland ?_).trans ((ageQueue_drifts ..).trans
    ((DriftsKept.replans ..).trans (.reported ..))))
  rw [island_of_lamp hwarn]

/-- One island's counts: its drift, and the other islands as they were. -/
theorem lampIsland_spec (s : State) (d i ns np : Nat) : (lamp (lampIsland s d i ns np) d).since = (lamp s d).since ∧
    (∀ j, i ≠ j → (island (lampIsland s d i ns np) d j).drift = (island s d j).drift) ∧
    (ns ≠ 0 → (island (lampIsland s d i ns np) d i).drift = (np - ns) * 1000000 / ns % 2 ^ 24) := by
  unfold lampIsland
  dsimp only
  generalize hdr : (if ns = 0 then (freeBelow s (2 ^ 24), nextFree s) else ((np - ns) * 1000000 / ns % 2 ^ 24, s)) = e
  have hs0 : lamp e.2 d = lamp s d := by rw [← hdr]; split <;> rfl
  have hval : ns ≠ 0 → e.1 = (np - ns) * 1000000 / ns % 2 ^ 24 := fun h => by rw [← hdr, if_neg h]
  generalize hx : ({ island e.2 d i with drift := e.1 } : IslandSt) = x
  have hxd : x.drift = e.1 := by rw [← hx]
  have hk : DriftsKept d (setIsland e.2 d i x) (if replanDue (setIsland e.2 d i x) d i = true then replan (setIsland e.2 d i x) d i
      else setIsland e.2 d i x) := by
    split
    · exact replan_drifts ..
    · exact .of_lamp rfl
  generalize (if replanDue (setIsland e.2 d i x) d i = true then replan (setIsland e.2 d i x) d i
      else setIsland e.2 d i x) = u at hk ⊢
  have hend : lamp (whenDo (decide (margin (island u d i) < 0)) u (raise · (pgLamp d) 3)) d = lamp u d := by
    unfold whenDo
    split
    · exact lamp_raise ..
    · rfl
  refine ⟨by rw [hend, hk.since, since_setIsland, hs0], fun j hj => ?_, fun hns => ?_⟩
  · rw [island_of_lamp hend, hk.drift, island_setIsland_other _ _ _ hj, island_of_lamp hs0]
  · rw [island_of_lamp hend, hk.drift, island_setIsland, hxd, hval hns]

/-! An event of the LAMP page stays latched. -/

theorem lampEvent_replan {s : State} {d i k : Nat} (h : rb s (pgLamp d) Off.EVT_LAT k = true) :
    rb (replan s d i) (pgLamp d) Off.EVT_LAT k = true := by
  unfold replan
  dsimp only
  have hwarn : rb (if (island s d i).vtrim < 8 then s else raise s (pgLamp d) 2) (pgLamp d) Off.EVT_LAT k = true := by
    split
    · exact h
    · exact rb_raise_mono _ _ _ _ _ h
  generalize (if (island s d i).vtrim < 8 then s else raise s (pgLamp d) 2) = u at hwarn ⊢
  rw [rb, (notice_keeps (Kind.apart .lamp .mbox rfl) (.refl ..)).regs]
  refine rb_raise_mono _ _ _ _ _ ?_
  rw [rb, count, rd_wr_off _ _ _ _ _ _ (by decide),
    (thRecord_keeps (Kind.apart .lamp .chuteGlobal rfl) (Kind.apart .lamp .chute rfl) (.refl ..)).regs, rd_setLamp,
    (ageQueue_keeps (.refl ..)).regs]
  exact hwarn

theorem lampEvent_lampIsland {s : State} {d i ns np k : Nat} (h : rb s (pgLamp d) Off.EVT_LAT k = true) :
    rb (lampIsland s d i ns np) (pgLamp d) Off.EVT_LAT k = true := by
  unfold lampIsland
  dsimp only
  generalize hdr : (if ns = 0 then (freeBelow s (2 ^ 24), nextFree s) else ((np - ns) * 1000000 / ns % 2 ^ 24, s)) = e
  have hs0 : rb e.2 (pgLamp d) Off.EVT_LAT k = true := by rw [← hdr]; split <;> exact h
  generalize ({ island e.2 d i with drift := e.1 } : IslandSt) = x
  have hu' : rb (setIsland e.2 d i x) (pgLamp d) Off.EVT_LAT k = true := hs0
  generalize setIsland e.2 d i x = u at hu' ⊢
  have hr : rb (if replanDue u d i = true then replan u d i else u) (pgLamp d) Off.EVT_LAT k = true := by
    split
    · exact lampEvent_replan hu'
    · exact hu'
  generalize (if replanDue u d i = true then replan u d i else u) = v at hr ⊢
  unfold whenDo
  split
  · exact rb_raise_mono _ _ _ _ _ hr
  · exact hr

/-! The measurement of all islands (R351). -/

/-- The counts of the islands, one after the other. -/
def lampIslands (s : State) (d : Nat) (l : List ((Nat × Nat) × Nat)) : State :=
  each l s fun s e => lampIsland s d e.2 e.1.1 e.1.2

theorem lampIslands_since (s : State) (d : Nat) (l : List ((Nat × Nat) × Nat)) :
    (lamp (lampIslands s d l) d).since = (lamp s d).since :=
  each_pres (P := fun t => (lamp t d).since = (lamp s d).since) rfl fun t e _ ht => (lampIsland_spec t d e.2 e.1.1 e.1.2).1.trans ht

theorem lampIslands_clock (s : State) (d : Nat) (l : List ((Nat × Nat) × Nat)) : (lampIslands s d l).clock = s.clock := by
  refine each_pres (P := fun t => t.clock = s.clock) rfl fun t e _ ht => Eq.trans ?_ ht
  apply lampIsland_inv (φ := State.clock)
  case hU => rfl
  all_goals exact fun _ _ => rfl

theorem lampIslands_event {s : State} {d k : Nat} (l : List ((Nat × Nat) × Nat)) (h : rb s (pgLamp d) Off.EVT_LAT k = true) :
    rb (lampIslands s d l) (pgLamp d) Off.EVT_LAT k = true :=
  each_pres (P := fun t => rb t (pgLamp d) Off.EVT_LAT k = true) h fun _ _ _ ht => lampEvent_lampIsland ht

/-- Operations on elements with distinct keys: what one of them establishes and those of other keys keep. -/
theorem each_at_key {α : Type} {l : List (α × Nat)} {f : State → α × Nat → State} {Q : State → Prop} (s : State) {x : α × Nat}
    (hx : x ∈ l) (hnd : (l.map Prod.snd).Nodup) (hat : ∀ t, Q (f t x)) (hpost : ∀ t y, y.2 ≠ x.2 → Q t → Q (f t y)) :
    Q (each l s f) := by
  obtain ⟨a, b, rfl⟩ := List.append_of_mem hx
  unfold each
  rw [List.foldl_append, List.foldl_cons]
  have hb : ∀ e ∈ b, e.2 ≠ x.2 := by
    rw [List.map_append, List.map_cons, List.nodup_append] at hnd
    intro e he h
    exact (List.nodup_cons.1 hnd.2.1).1 (List.mem_map.2 ⟨e, he, h⟩)
  exact each_pres (l := b) (f := f) (P := Q) (hat _) fun t e he ht => hpost t e (hb e he) ht

/-- An island named once has the drift of its counts. -/
theorem lampIslands_drift (s : State) (d : Nat) {l : List ((Nat × Nat) × Nat)} (hnd : (l.map Prod.snd).Nodup) {ns np i : Nat}
    (hmem : ((ns, np), i) ∈ l) (hns : ns ≠ 0) :
    (island (lampIslands s d l) d i).drift = (np - ns) * 1000000 / ns % 2 ^ 24 := by
  have hat (t : State) : (island (lampIsland t d i ns np) d i).drift = (np - ns) * 1000000 / ns % 2 ^ 24 :=
    (lampIsland_spec t d i ns np).2.2 hns
  generalize (np - ns) * 1000000 / ns % 2 ^ 24 = v at hat ⊢
  exact each_at_key (α := Nat × Nat) (Q := fun t => (island t d i).drift = v) s hmem hnd hat
    fun t e he ht => ((lampIsland_spec t d e.2 e.1.1 e.1.2).2.1 i he).trans ht

/-- What a measurement of all islands shows at its end. -/
theorem lampMeasured_spec (u : State) (d : Nat) (l : List ((Nat × Nat) × Nat)) (hp : present u (pgLamp d) = true) :
    (lamp (lampWorst (lampIslands (raise (setLamp u d { lamp u d with since := none }) (pgLamp d) 0) d l) d) d).since = none ∧
      (lampWorst (lampIslands (raise (setLamp u d { lamp u d with since := none }) (pgLamp d) 0) d l) d).clock = u.clock ∧
      rb (lampWorst (lampIslands (raise (setLamp u d { lamp u d with since := none }) (pgLamp d) 0) d l) d) (pgLamp d)
        Off.EVT_LAT 0 = true := by
  refine ⟨(lampIslands_since ..).trans (by rw [lamp_raise, lamp_setLamp]), (lampIslands_clock ..).trans (raise_clock ..), ?_⟩
  rw [rb, lampWorst, rd_wr_off _ _ _ _ _ _ (by decide)]
  exact lampIslands_event _ (rb_raise_same _ _ _ hp (by decide))

theorem exec_measured {s : State} {d c : Nat} (cnt : List (Nat × Nat)) (hd : d < s.part.dies) (h : (lamp s d).since = some c) :
    exec (.measured d cnt) s = .next (lampWorst (lampIslands
      (raise (setLamp (waitClock s (c + 2 ^ 20)) d { lamp (waitClock s (c + 2 ^ 20)) d with since := none }) (pgLamp d) 0) d
      ((cnt.take 11).zipIdx.filter fun e => islandUp s e.2)) d) := by
  change ok _ = _
  simp only [if_pos hd, h]
  rfl

/-- An hour noted, and the measurement that it begins. -/
theorem lampHour_spec (s : State) (d n : Nat) : (lamp (lampStart (setLamp s d { lamp s d with hourDone := n }) d) d).hourDone = n ∧
    (lampOn s d = true → (lamp s d).since = none →
      (lamp (lampStart (setLamp s d { lamp s d with hourDone := n }) d) d).since = some s.clock) := by
  have hon : lampOn (setLamp s d { lamp s d with hourDone := n }) d = lampOn s d := rfl
  unfold lampStart
  rw [hon, lamp_setLamp]
  refine ⟨by split <;> simp, fun h1 h2 => ?_⟩
  rw [if_pos (by simp [h1, h2]), lamp_setLamp]
  rfl

/-! The daily history (R354). -/

theorem retRaw_of_ret {s t : State} (h : t.ret = s.ret) (d w : Nat) : retRaw t d w = retRaw s d w := by
  rw [retRaw, h, retRaw]

theorem histClear_spec (s : State) (d : Nat) : retRaw (histClear d s) d 2385 = 0#24 ∧ retRaw (histClear d s) d 2386 = 0#24 ∧
    ∀ x, x < retAddr d 2385 ∨ retAddr d 2387 ≤ x → memGet (histClear d s).ret x = memGet s.ret x := by
  have hret : (histClear d s).ret = (retWrites s d 2385 [0#24, 0#24]).ret := rfl
  have hraw (w : Nat) : retRaw (histClear d s) d w = retRaw (retWrites s d 2385 [0#24, 0#24]) d w := retRaw_of_ret hret d w
  rw [hraw, hraw, hret]
  exact ⟨retRaw_retWrites d [0#24, 0#24] s 2385 0 (by decide), retRaw_retWrites d [0#24, 0#24] s 2385 1 (by decide),
    fun x hx => memGet_retWrites d x [0#24, 0#24] s 2385 hx⟩

/-- What a day's record makes of the state: the record, the header, and the statistics begun anew. -/
theorem histWrite_eq (s : State) (d : Nat) : ∃ u x w, histWrite s d =
      raise (wr (setLamp (retWrites u d 2384 [word 1, word (((retRaw s d 2385).toNat % 127 + 1) % 127),
        word (min ((retRaw s d 2386).toNat + 1) 127)]) d x) (pgLamp d) Off.LAMP_TTL w) (pgLamp d) 4 ∧
    u.part = s.part ∧ x.dayDone = s.pkg.seconds / 86400 ∧ x.n = 0 :=
  ⟨_, _, _, rfl, retWrites_inv (φ := State.part) (fun _ _ => rfl) (fun _ _ => rfl) (fun _ _ => rfl) rfl, rfl, rfl⟩

/-- The day's record and the header's advance. -/
theorem histWrite_spec {s : State} {d : Nat} (hp : present s (pgLamp d) = true) :
    (lamp (histWrite s d) d).dayDone = s.pkg.seconds / 86400 ∧ (lamp (histWrite s d) d).n = 0 ∧
      rb (histWrite s d) (pgLamp d) Off.EVT_LAT 4 = true ∧ retRaw (histWrite s d) d 2384 = 1#24 ∧
      retRaw (histWrite s d) d 2385 = word (((retRaw s d 2385).toNat % 127 + 1) % 127) ∧
      retRaw (histWrite s d) d 2386 = word (min ((retRaw s d 2386).toNat + 1) 127) := by
  obtain ⟨u, x, w, heq, hpu, hday, hn⟩ := histWrite_eq s d
  generalize hvs : [word 1, word (((retRaw s d 2385).toNat % 127 + 1) % 127), word (min ((retRaw s d 2386).toNat + 1) 127)] = vs at heq
  have hret : (histWrite s d).ret = (retWrites u d 2384 vs).ret := by
    rw [heq]
    exact (eq_of_engines State.ret (engines_raise ..)).trans rfl
  have hraw (w : Nat) : retRaw (histWrite s d) d w = retRaw (retWrites u d 2384 vs) d w := retRaw_of_ret hret d w
  have hlamp : lamp (histWrite s d) d = x := by
    rw [heq, lamp_raise]
    exact lamp_setLamp ..
  rw [hraw, hraw, hraw, hlamp]
  refine ⟨hday, hn, ?_, ?_⟩
  rotate_left 1
  · subst hvs
    exact ⟨retRaw_retWrites d _ u 2384 0 (by simp), retRaw_retWrites d _ u 2384 1 (by simp),
      retRaw_retWrites d _ u 2384 2 (by simp)⟩
  rw [heq]
  refine rb_raise_same _ _ _ ?_ (by decide)
  exact (present_congr (s := u) (retWrites_inv (φ := State.part) (fun _ _ => rfl) (fun _ _ => rfl) (fun _ _ => rfl) rfl) _).trans
    ((present_congr hpu _).trans hp)

/-! Queueing for ageing (R352). -/

theorem queued_asQueue_ageing {s : State} {d c : Nat} (hp : asPresent s c = true) (hrun : running s (pgAssay d) = true)
    (hawake : awake s d = true) (hx : noXtal s d = false) (hq : (asChan s d c).queued = 0) :
    (asChan (asQueue s d c 2) d c).queued = 2 := by
  unfold asQueue
  dsimp only
  rw [if_neg (by simp [hp, hrun, hawake, hx]), if_pos (.inl hq), asChan_setAsChan]

theorem asChan_asQueue_other (s : State) (d k : Nat) {e c : Nat} (h : e ≠ c) : asChan (asQueue s d e k) d c = asChan s d c := by
  obtain hq | hq := asQueue_cases s d e k
  · rw [hq]
  · rw [hq, asChan_setAsChan_other _ _ _ h]

/-- An island's channels are queued as AGEING. -/
theorem ageQueue_queues {s : State} {d i c : Nat} (hon : rb s (pgAssay d) Off.AS_CFG 1 = true) (hrun : running s (pgAssay d) = true)
    (hawake : awake s d = true) (hx : noXtal s d = false) (hc : c ∈ islandChans s i) (hq : (asChan s d c).queued = 0) :
    (asChan (ageQueue s d i) d c).queued = 2 := by
  have hall : c ∈ asAll s := (List.mem_filter.1 hc).1
  have hp : asPresent s c = true := (List.mem_filter.1 hall).2
  rw [ageQueue, if_pos hon]
  refine each_once
    (P := fun t => t.regs = s.regs ∧ t.part = s.part ∧ (asChan t d c).queued = 0)
    (Q := fun t => (asChan t d c).queued = 2)
    hc ((List.nodup_range.filter _).filter _) ⟨rfl, rfl, hq⟩ (fun t e he ht => ?_) (fun t ht => ?_) fun t e he ht => ?_
  · obtain ⟨h1, h2, h3⟩ := ht
    refine ⟨(asQueue_inv (φ := State.regs) (fun _ _ => rfl) rfl).trans h1,
      (asQueue_inv (φ := State.part) (fun _ _ => rfl) rfl).trans h2, ?_⟩
    rw [asChan_asQueue_other _ _ _ he, h3]
  · obtain ⟨h1, h2, h3⟩ := ht
    have hreg (p : Pg) (o : Nat) : rd t p o = rd s p o := by rw [rd, h1, rd]
    refine queued_asQueue_ageing ?_ ?_ ?_ ?_ h3
    · rwa [asPresent, nPorts, is16E, h2]
    · rwa [running, present_congr h2, pstate, rf, hreg]
    · rwa [awake, modeOf, rf, hreg]
    · rwa [noXtal, rb, hreg]
  · rw [asChan_asQueue_other _ _ _ he, ht]

/-- Settles O43: the ageing commands are equations of the monitor's engine. -/
theorem ageingMonitors : Obligations.AgeingMonitors := by
  refine ⟨fun s d hd h0 hne => ?_, fun s r d h => ⟨fun hon hnone => ?_, ?_⟩, fun s d cnt hd hp c hc => ?_,
    fun s d i hd hi hfw hawake hdue => ⟨fun hoff => ?_, fun hon => ?_⟩, fun s d hd hfw hawake h0 hne hp => ?_⟩
  · refine .of (congrArg Host.Outcome.next (if_pos ⟨hd, h0, hne⟩)) (lampHour_spec s d _)
  · refine .of (congrArg Host.Outcome.next (guardedWrite_of_taken h _)) ?_
    rw [touchSession_of_not_sec (sec_pgLamp d), lampStart, if_pos (by simp [hon, hnone]), lamp_setLamp]
  · refine .of (congrArg Host.Outcome.next (guardedWrite_of_taken h _)) ?_
    rw [touchSession_of_not_sec (sec_pgLamp d)]
    exact histClear_spec s d
  · obtain ⟨h1, h2, h3⟩ := lampMeasured_spec (waitClock s (c + 2 ^ 20)) d
      ((cnt.take 11).zipIdx.filter fun e => islandUp s e.2) ((present_waitClock ..).trans hp)
    refine .of (exec_measured cnt hd hc) ⟨h1, le_of_le_of_eq (clock_waitClock_le ..) h2.symm, h3, fun i hi hup ns np hget hns => ?_⟩
    rw [island_of_lamp (show lamp (lampWorst _ d) d = lamp _ d from rfl)]
    refine lampIslands_drift _ d ?_ ?_ hns
    · exact ((List.filter_sublist).map _).nodup (List.nodup_zipIdx_map_snd _)
    · refine List.mem_filter.2 ⟨List.mem_zipIdx_iff_getElem?.2 ?_, hup⟩
      rw [List.getElem?_take_of_lt hi, hget]
  · refine .of (congrArg Host.Outcome.next (if_pos ⟨hd, hi, hfw, hawake, hdue⟩)) ?_
    rw [ageQueue, if_neg (by simp [hoff])]
  · refine .of (congrArg Host.Outcome.next (if_pos ⟨hd, hi, hfw, hawake, hdue⟩)) ⟨?_, fun hrun hx c hc hq => ageQueue_queues hon hrun hawake hx hc hq⟩
    rw [ageQueue, if_pos hon, island_of_lamp (lamp_asQueues ..), island_setIsland]
  · refine .of (congrArg Host.Outcome.next (if_pos (by simp [hd, hfw, hawake, h0, hne]))) (histWrite_spec hp)
end Sys2Proof.Machine

namespace Sys2Proof.Machine
open Sys2Proof.Laws

/-! ### Words written side by side -/

/-- Words written from an offset on leave every other register. -/
theorem rd_wrWords_other (p : Pg) (b : Nat) (l : List (Word × Nat)) (s : State) {q : Pg} {o : Nat}
    (h : ∀ x ∈ l, o ≠ b + 4 * x.2) : rd (each l s fun s x => wr s p (b + 4 * x.2) x.1) q o = rd s q o :=
  each_pres (P := fun t => rd t q o = rd s q o) rfl fun _ x hx ht => (rd_wr_off _ _ _ _ _ _ (h x hx).symm).trans ht

/-- Each word written from an offset on stands in its place. -/
theorem rd_wrWords (p : Pg) (b : Nat) (ws : List Word) (s : State) {i : Nat} (h : i < ws.length) :
    rd (each ws.zipIdx s fun s x => wr s p (b + 4 * x.2) x.1) p (b + 4 * i) = ws[i] :=
  each_at_key (Q := fun t => rd t p (b + 4 * i) = ws[i]) s
    (List.mem_zipIdx_iff_getElem?.2 (List.getElem?_eq_getElem h) : (ws[i], i) ∈ ws.zipIdx) (List.nodup_zipIdx_map_snd _)
    (fun _ => rd_wr_same ..) fun _ _ hj ht => (rd_wr_off _ _ _ _ _ _ (by omega)).trans ht

theorem snd_lt_of_mem_zipIdx {α : Type} {l : List α} {x : α × Nat} (h : x ∈ l.zipIdx) : x.2 < l.length := by
  have := List.mem_zipIdx h
  omega

/-! ### The slots of a mailbox -/

theorem present_pgMbox {s : State} {d : Nat} (sec : Bool) (h : d < s.part.dies) : present s (pgMbox d sec) = true := by
  cases sec <;> simp [present, Part.present, pgMbox, ns, sp, pgKind, nsKind, secKind, absent08, h]

section
variable (s : State) (d : Nat) (sec : Bool) (n : Nat)

@[simp] theorem mbox_raise (p : Pg) (i e m : Nat) : mbox (raise s p i) e m = mbox s e m :=
  eq_of_engines (mbox · e m) (engines_raise ..)

@[simp] theorem mbox_waitClock (c e m : Nat) : mbox (waitClock s c) e m = mbox s e m :=
  eq_of_timeless (mbox · e m) (timeless_waitClock ..)

/-- A register of a channel that is apart from another one of its registers. -/
theorem mbOff_ne {a b : Nat} (h : a ≠ b) : mbOff n a ≠ mbOff n b := by
  unfold mbOff
  omega

theorem inState_setInState {st : Nat} (h : st < 4) : inState (setInState s d sec n st) d sec n = st := by
  rw [inState, setInState, rf_wf_same _ _ _ _ _ _ (by decide)]
  exact Nat.mod_eq_of_lt h

/-- The registers of a page below those of the channels, and an acknowledgement that is loaded. -/
theorem inLoad_spec (ack : Word) {res : List Word} (hn : n < 4) (hp : present s (pgMbox d sec) = true) (hlen : res.length ≤ 8) :
    inState (inLoad s d sec n ack res) d sec n = 3 ∧ rd (inLoad s d sec n ack res) (pgMbox d sec) (mbOff n Off.IN_ACK) = ack ∧
      rb (inLoad s d sec n ack res) (pgMbox d sec) Off.EVT_LAT n = true ∧
      (∀ i < res.length, rd (inLoad s d sec n ack res) (pgMbox d sec) (mbOff n Off.IN_RES + 4 * i) = res.getD i 0#24) ∧
      ∀ o < 0x100, o ≠ Off.EVT_LAT → rd (inLoad s d sec n ack res) (pgMbox d sec) o = rd s (pgMbox d sec) o := by
  unfold inLoad
  dsimp only
  generalize hu : each res.zipIdx (wr s (pgMbox d sec) (mbOff n Off.IN_ACK) ack)
    (fun s x => wr s (pgMbox d sec) (mbOff n Off.IN_RES + 4 * x.2) x.1) = u
  have hother (o : Nat) (ho : ∀ i < res.length, o ≠ mbOff n Off.IN_RES + 4 * i) :
      rd u (pgMbox d sec) o = rd (wr s (pgMbox d sec) (mbOff n Off.IN_ACK) ack) (pgMbox d sec) o := by
    rw [← hu]
    exact rd_wrWords_other _ _ _ _ fun x hx => ho _ (snd_lt_of_mem_zipIdx hx)
  have hpu : present u (pgMbox d sec) = true := by
    rw [← hu]
    exact each_pres (P := fun t => present t (pgMbox d sec) = true) hp fun _ _ _ ht => ht
  have hwf (o : Nat) (h1 : o ≠ Off.EVT_LAT) (h2 : o ≠ mbOff n Off.IN_STAT) :
      rd (raise (setInState u d sec n 3) (pgMbox d sec) n) (pgMbox d sec) o = rd u (pgMbox d sec) o := by
    rw [rd_raise_off _ _ _ _ _ h1, setInState, wf, rd_wr_off _ _ _ _ _ _ h2.symm]
  refine ⟨?_, ?_, rb_raise_same _ _ _ hpu (by omega), fun i hi => ?_, fun o ho hne => ?_⟩
  · rw [inState, rf, rd_raise_off _ _ _ _ _ (by unfold mbOff; simp; omega)]
    exact inState_setInState _ _ _ _ (by decide)
  · rw [hwf _ (by unfold mbOff; simp; omega) (mbOff_ne _ (by decide)),
      hother _ fun i hi => by unfold mbOff; simp; omega, rd_wr_same]
  · rw [hwf _ (by unfold mbOff; simp; omega) (by unfold mbOff; simp; omega), ← hu, rd_wrWords _ _ _ _ hi,
      List.getD_eq_getElem _ _ hi]
  · rw [hwf _ hne (by unfold mbOff; simp; omega), hother _ fun i hi => by unfold mbOff; simp; omega,
      rd_wr_off _ _ _ _ _ _ (by unfold mbOff; simp; omega)]

@[simp] theorem inLoad_mbox (ack : Word) (res : List Word) (e m : Nat) : mbox (inLoad s d sec n ack res) e m = mbox s e m := by
  unfold inLoad
  dsimp only
  rw [mbox_raise, setInState]
  exact each_pres (P := fun t => mbox t e m = mbox s e m) rfl fun _ _ _ ht => ht

/-- The acknowledgement of a message. -/
def ackWord (code : Nat) (res : List Word) : Word :=
  word (inTag s d sec n * 2 ^ 16 + code * 2 ^ 8 + b2n (oldEpoch s d sec n) * 2 ^ 6 + res.length)

theorem ackWord_fields {code : Nat} {res : List Word} (hcode : code < 256) (hlen : res.length ≤ 8) :
    fld (ackWord s d sec n code res) 8 8 = code ∧ fld (ackWord s d sec n code res) 16 8 = inTag s d sec n ∧
      fld (ackWord s d sec n code res) 0 4 = res.length := by
  have htag : inTag s d sec n < 2 ^ 8 := fld_lt ..
  have hb : b2n (oldEpoch s d sec n) ≤ 1 := by cases oldEpoch s d sec n <;> decide
  simp only [fld, ackWord, word, BitVec.toNat_ofNat]
  omega

/-- What the end of a message first writes: the record of the slot, and the count of stale ones. -/
def inRecord (code : Nat) (res : List Word) : State :=
  whenDo (decide (code = 1)) (wr (setMbox s d (mbIx sec n) { mbox s d (mbIx sec n) with
    dAck := ackWord s d sec n code res, dRes := res, result := none, discard := false }) (pgMbox d sec) (mbOff n Off.IN_LAST)
    (word (inTag s d sec n * 2 ^ 8 + 1))) (count · (pgMbox d sec) Off.CNT_STALE)

theorem inFinish_eq (code : Nat) (res : List Word) : inFinish s d sec n code res =
    if (mbox s d (mbIx sec n)).discard then setInState (count (inRecord s d sec n code res) (pgMbox d sec) Off.CNT_ACK_DISCARD) d sec n 0
    else if fenced s (pgMbox d sec) then setMbox (inRecord s d sec n code res) d (mbIx sec n)
      { mbox (inRecord s d sec n code res) d (mbIx sec n) with held := some (ackWord s d sec n code res, res) }
    else inLoad (inRecord s d sec n code res) d sec n (ackWord s d sec n code res) res := rfl

theorem rd_inRecord (code : Nat) (res : List Word) {o : Nat} (h1 : o ≠ mbOff n Off.IN_LAST) (h2 : o ≠ Off.CNT_STALE) :
    rd (inRecord s d sec n code res) (pgMbox d sec) o = rd s (pgMbox d sec) o := by
  unfold inRecord whenDo
  split
  · dsimp only
    rw [count, rd_wr_off _ _ _ _ _ _ h2.symm, rd_wr_off _ _ _ _ _ _ h1.symm, rd_setMbox]
  · rw [rd_wr_off _ _ _ _ _ _ h1.symm, rd_setMbox]

theorem present_inRecord (code : Nat) (res : List Word) (q : Pg) : present (inRecord s d sec n code res) q = present s q := by
  unfold inRecord whenDo
  split <;> rfl

/-- The end of a message whose acknowledgement is loaded. -/
theorem inFinish_loaded {code : Nat} {res : List Word} (hn : n < 4) (hp : present s (pgMbox d sec) = true)
    (hdis : (mbox s d (mbIx sec n)).discard = false) (hf : fenced s (pgMbox d sec) = false) (hcode : code < 256)
    (hlen : res.length ≤ 8) : inState (inFinish s d sec n code res) d sec n = 3 ∧
      rf (inFinish s d sec n code res) (pgMbox d sec) (mbOff n Off.IN_ACK) 8 8 = code ∧
      rf (inFinish s d sec n code res) (pgMbox d sec) (mbOff n Off.IN_ACK) 16 8 = inTag s d sec n ∧
      rf (inFinish s d sec n code res) (pgMbox d sec) (mbOff n Off.IN_ACK) 0 4 = res.length ∧
      rb (inFinish s d sec n code res) (pgMbox d sec) Off.EVT_LAT n = true ∧
      ∀ i < res.length, rd (inFinish s d sec n code res) (pgMbox d sec) (mbOff n Off.IN_RES + 4 * i) = res.getD i 0#24 := by
  rw [inFinish_eq, hdis, hf]
  obtain ⟨h1, h2, h3, h4, -⟩ := inLoad_spec (inRecord s d sec n code res) d sec n (ackWord s d sec n code res) hn
    ((present_inRecord ..).trans hp) hlen
  obtain ⟨f1, f2, f3⟩ := ackWord_fields s d sec n hcode hlen
  refine ⟨h1, ?_, ?_, ?_, h3, h4⟩
  · exact (congrArg (fld · 8 8) h2).trans f1
  · exact (congrArg (fld · 16 8) h2).trans f2
  · exact (congrArg (fld · 0 4) h2).trans f3

/-- The end of a message whose page is fenced. -/
theorem inFinish_held {code : Nat} {res : List Word} (hdis : (mbox s d (mbIx sec n)).discard = false)
    (hf : fenced s (pgMbox d sec) = true) : inState (inFinish s d sec n code res) d sec n = inState s d sec n ∧
      (mbox (inFinish s d sec n code res) d (mbIx sec n)).held.map Prod.snd = some res := by
  rw [inFinish_eq, hdis, hf]
  refine ⟨congrArg (fld · 0 2) (rd_inRecord s d sec n code res (mbOff_ne _ (by decide)) (by unfold mbOff; simp; omega)), ?_⟩
  simp

/-- The end of a message after a Function Level Reset. -/
theorem inFinish_discarded {code : Nat} {res : List Word} (hdis : (mbox s d (mbIx sec n)).discard = true) :
    inState (inFinish s d sec n code res) d sec n = 0 ∧
      rd (inFinish s d sec n code res) (pgMbox d sec) Off.CNT_ACK_DISCARD = inc24 (rd s (pgMbox d sec) Off.CNT_ACK_DISCARD) := by
  rw [inFinish_eq, hdis]
  refine ⟨inState_setInState _ _ _ _ (by decide), ?_⟩
  rw [if_pos rfl, setInState, wf, rd_wr_off _ _ _ _ _ _ (by unfold mbOff; simp; omega), count, rd_wr_same,
    rd_inRecord _ _ _ _ _ _ (by unfold mbOff; simp; omega) (by decide)]

end
/-! ### Posts (R359, R361) -/

section
variable (s : State) (d : Nat) (sec : Bool) (n : Nat) (v : Word)

/-- A post that is accepted, before the record of the slot is looked at. -/
def inPosted : State :=
  setMbox (wr (wr s (pgMbox d sec) (mbOff n Off.IN_HDR) (v &&& 0xFFFFF0#24)) (pgMbox d sec) (mbOff n Off.IN_STAT)
    (word (fld (rd s (pgMbox d sec) Off.MB_EPOCH) 0 8 * 2 ^ 16 + fld (rd s (pgMbox d sec) Off.MB_EPOCH) 8 8 * 2 ^ 8 + 1)))
    d (mbIx sec n) { mbox s d (mbIx sec n) with
      args := (List.range 16).map fun i => rd s (pgMbox d sec) (mbOff n Off.IN_ARG + 4 * i)
      result := none, discard := false, postAt := some s.clock, inAt := s.clock, inLate := false }

theorem inPost_eq : inPost s d sec n v =
    if bit (rd s (pgMbox d sec) (mbOff n Off.IN_LAST)) 0 ∧ fld (rd s (pgMbox d sec) (mbOff n Off.IN_LAST)) 8 8 = fld v 8 8 then
      inLoad (count (inPosted s d sec n v) (pgMbox d sec) Off.CNT_REPLAY) d sec n
        (setBit (mbox s d (mbIx sec n)).dAck 7 true) (mbox s d (mbIx sec n)).dRes
    else inPosted s d sec n v := rfl

/-- A new message stands in its slot, FULL. -/
theorem inPosted_spec : inState (inPosted s d sec n v) d sec n = 1 ∧ inHdr (inPosted s d sec n v) d sec n = (v &&& 0xFFFFF0#24) ∧
    (mbox (inPosted s d sec n v) d (mbIx sec n)).args =
      (List.range 16).map fun i => rd s (pgMbox d sec) (mbOff n Off.IN_ARG + 4 * i) := by
  unfold inPosted
  refine ⟨?_, ?_, by rw [mbox_setMbox]⟩
  · rw [inState, rf, rd_setMbox, rd_wr_same]
    simp only [fld, word, BitVec.toNat_ofNat]
    omega
  · rw [inHdr, rd_setMbox, rd_wr_off _ _ _ _ _ _ (mbOff_ne _ (by decide)), rd_wr_same]

/-- A repeated message is answered from the record of its slot. -/
theorem inPost_replayed (hn : n < 4) (hp : present s (pgMbox d sec) = true)
    (hlast : rb s (pgMbox d sec) (mbOff n Off.IN_LAST) 0 = true) (htag : rf s (pgMbox d sec) (mbOff n Off.IN_LAST) 8 8 = fld v 8 8)
    (hlen : (mbox s d (mbIx sec n)).dRes.length ≤ 8) : inState (inPost s d sec n v) d sec n = 3 ∧
      rd (inPost s d sec n v) (pgMbox d sec) (mbOff n Off.IN_ACK) = setBit (mbox s d (mbIx sec n)).dAck 7 true ∧
      rb (inPost s d sec n v) (pgMbox d sec) Off.EVT_LAT n = true ∧
      rd (inPost s d sec n v) (pgMbox d sec) Off.CNT_REPLAY = inc24 (rd s (pgMbox d sec) Off.CNT_REPLAY) := by
  rw [inPost_eq, if_pos ⟨hlast, htag⟩]
  obtain ⟨h1, h2, h3, -, h5⟩ := inLoad_spec (count (inPosted s d sec n v) (pgMbox d sec) Off.CNT_REPLAY) d sec n
    (setBit (mbox s d (mbIx sec n)).dAck 7 true) hn hp hlen
  refine ⟨h1, h2, h3, (h5 _ (by decide) (by decide)).trans ?_⟩
  rw [count, rd_wr_same, inPosted, rd_setMbox, rd_wr_off _ _ _ _ _ _ (by unfold mbOff; simp; omega),
    rd_wr_off _ _ _ _ _ _ (by unfold mbOff; simp; omega)]

end

theorem exec_mailboxPost {s : State} {r : Req} {d n : Nat} {sec : Bool} {v : Word} (hn : n < 4)
    (h : Taken s r (pgMbox d sec) (mbOff n Off.IN_HDR)) : exec (.mailboxPost r d sec n v) s =
      .next (inHdrWrite ⟨clsOn r (pgMbox d sec), r.rid⟩ d sec n v (touchSession s r (pgMbox d sec))) := by
  refine congrArg Host.Outcome.next ?_
  rw [Nat.mod_eq_of_lt hn]
  exact guardedWrite_of_taken h _

theorem exec_noticeAck {s : State} {r : Req} {d n : Nat} {sec : Bool} {v : Word} (hn : n < 4)
    (h : Taken s r (pgMbox d sec) (mbOff n Off.OUT_ACK)) : exec (.noticeAck r d sec n v) s =
      .next (outAck ⟨clsOn r (pgMbox d sec), r.rid⟩ d sec n v (touchSession s r (pgMbox d sec))) := by
  refine congrArg Host.Outcome.next ?_
  rw [Nat.mod_eq_of_lt hn]
  exact guardedWrite_of_taken h _

section
variable {s : State} {r : Req} {d n : Nat} {sec : Bool} {v : Word}

/-- A post on a page that is OFF. -/
theorem inHdrWrite_off (h : pstate s (pgMbox d sec) = stOff) :
    inHdrWrite r d sec n v s = logErr s r (pgMbox d sec) (mbOff n Off.IN_HDR) true 0x42 := by
  rw [inHdrWrite, if_pos h]

variable (hst : pstate s (pgMbox d sec) ≠ stOff) (hflr : sec = true ∨ s.pcie.flrAt ≠ some s.clock)
include hst hflr

theorem inHdrWrite_free (h1 : inState s d sec n ≠ 1) (h2 : inState s d sec n ≠ 2) :
    inHdrWrite r d sec n v s = inPost s d sec n v := by
  have hns : ¬ (sec = false ∧ s.pcie.flrAt = some s.clock) := by
    rintro ⟨hs, hc⟩
    exact hflr.elim (by simp [hs]) (absurd hc)
  rw [inHdrWrite, if_neg hst, if_neg hns, if_neg (by simp [h1, h2])]

theorem inHdrWrite_busy (h : inState s d sec n = 1 ∨ inState s d sec n = 2) : inHdrWrite r d sec n v s =
    logErr (count s (pgMbox d sec) Off.CNT_SLOT_BUSY) r (pgMbox d sec) (mbOff n Off.IN_HDR) true 0x40 := by
  have hns : ¬ (sec = false ∧ s.pcie.flrAt = some s.clock) := by
    rintro ⟨hs, hc⟩
    exact hflr.elim (by simp [hs]) (absurd hc)
  rw [inHdrWrite, if_neg hst, if_neg hns, if_pos h]

end

/-! ### Messages taken and notices posted (R360, R367) -/

section
variable (s : State) (d : Nat) (sec : Bool) (n : Nat)

/-- A message taken that is not stale. -/
theorem inTake_busy (h : (oldEpoch s d sec n && staleCmd (inCmd s d sec n)) = false) :
    inState (inTake s d sec n) d sec n = 2 ∧
      (mbox (inTake s d sec n) d (mbIx sec n)).result = if knownCmd (inCmd s d sec n) then none else some (2, []) := by
  have hno : ¬ (oldEpoch s d sec n = true ∧ staleCmd (inCmd s d sec n) = true) := by simpa [Bool.and_eq_false_iff] using h
  unfold inTake
  dsimp only
  rw [if_neg hno, mbox_setMbox]
  exact ⟨inState_setInState _ _ _ _ (by decide), rfl⟩

/-- A stale message is answered at once. -/
theorem inTake_stale (hn : n < 4) (hrun : running s (pgMbox d sec) = true) (hdis : (mbox s d (mbIx sec n)).discard = false)
    (h : (oldEpoch s d sec n && staleCmd (inCmd s d sec n)) = true) : inState (inTake s d sec n) d sec n = 3 ∧
      rf (inTake s d sec n) (pgMbox d sec) (mbOff n Off.IN_ACK) 8 8 = 1 ∧
      rb (inTake s d sec n) (pgMbox d sec) Off.EVT_LAT n = true := by
  obtain ⟨hp, hst⟩ := Bool.and_eq_true_iff.1 hrun
  unfold inTake
  dsimp only
  rw [if_pos (Bool.and_eq_true_iff.1 h)]
  generalize hx : ({ mbox (setInState s d sec n 2) d (mbIx sec n) with
    result := if knownCmd (inCmd s d sec n) then none else some (2, []), inAt := s.clock } : MboxCh) = x
  have hxd : x.discard = false := by rw [← hx]; exact hdis
  have hf : fenced (setMbox (setInState s d sec n 2) d (mbIx sec n) x) (pgMbox d sec) = false := by
    have hps : pstate (setMbox (setInState s d sec n 2) d (mbIx sec n) x) (pgMbox d sec) = stRunning :=
      (rf_wf_off _ _ _ _ _ _ _ _ _ _ (by unfold mbOff; simp; omega)).trans (of_decide_eq_true hst)
    rw [fenced, hps]
    rfl
  obtain ⟨h1, h2, -, -, h5, -⟩ := inFinish_loaded (setMbox (setInState s d sec n 2) d (mbIx sec n) x) d sec n (code := 1) (res := [])
    hn hp (by rw [mbox_setMbox]; exact hxd) hf (by decide) (by decide)
  exact ⟨h1, h2, h5⟩

end
/-- A notice is posted. -/
theorem exec_outFull {s : State} {d n : Nat} {sec : Bool} (hd : d < s.part.dies) (hn : n < 4) (hfw : fwLive s d = true)
    (hrun : running s (pgMbox d sec) = true) (hfree : rb s (pgMbox d sec) (mbOff n Off.OUT_STAT) 0 = false)
    (hen : rb s (pgMbox d sec) Off.MB_CFG n = true) {e : Nat × List Word} {q : List (Nat × List Word)}
    (hq : (mbox s d (mbIx sec n)).queue = e :: q) : ∃ u, exec (.outFull d sec n) s =
      .next (raise (wb (outQueued (wr u (pgMbox d sec) (mbOff n Off.OUT_HDR)
        (word (e.1 * 2 ^ 16 + (mbox s d (mbIx sec n)).outTag * 2 ^ 8 + e.2.length * 2 ^ 4))) d sec n) (pgMbox d sec)
        (mbOff n Off.OUT_STAT) 0 true) (pgMbox d sec) (4 + n)) ∧
      (mbox u d (mbIx sec n)).queue = q ∧ u.part = s.part := by
  obtain ⟨code, args⟩ := e
  refine ⟨_, congrArg Host.Outcome.next ((if_pos ⟨hd, hn, hfw, hrun, by simp [hfree], hen⟩).trans (by simp only [hq]; rfl)), ?_, ?_⟩
  · refine each_pres (P := fun t => (mbox t d (mbIx sec n)).queue = q) ?_ fun _ _ _ ht => ht
    rw [mbox_setMbox]
  · exact each_pres (P := fun t => t.part = s.part) rfl fun _ _ _ ht => ht

/-- What a posted notice shows. -/
theorem outPosted_spec {u : State} {d n : Nat} {sec : Bool} {w : Word} (hn : n < 4) (hp : present u (pgMbox d sec) = true) :
    rb (raise (wb (outQueued (wr u (pgMbox d sec) (mbOff n Off.OUT_HDR) w) d sec n) (pgMbox d sec) (mbOff n Off.OUT_STAT) 0 true)
        (pgMbox d sec) (4 + n)) (pgMbox d sec) (mbOff n Off.OUT_STAT) 0 = true ∧
      rd (raise (wb (outQueued (wr u (pgMbox d sec) (mbOff n Off.OUT_HDR) w) d sec n) (pgMbox d sec) (mbOff n Off.OUT_STAT) 0 true)
        (pgMbox d sec) (4 + n)) (pgMbox d sec) (mbOff n Off.OUT_HDR) = w ∧
      rb (raise (wb (outQueued (wr u (pgMbox d sec) (mbOff n Off.OUT_HDR) w) d sec n) (pgMbox d sec) (mbOff n Off.OUT_STAT) 0 true)
        (pgMbox d sec) (4 + n)) (pgMbox d sec) Off.EVT_LAT (4 + n) = true := by
  refine ⟨?_, ?_, rb_raise_same _ _ _ hp (by omega)⟩
  · rw [rb, rd_raise_off _ _ _ _ _ (by unfold mbOff; simp; omega)]
    exact rb_wb_same _ _ _ _ _ (by decide)
  · rw [rd_raise_off _ _ _ _ _ (by unfold mbOff; simp; omega), wb, rd_wr_off _ _ _ _ _ _ (mbOff_ne _ (by decide)), outQueued, wf,
      rd_wr_off _ _ _ _ _ _ (mbOff_ne _ (by decide)), rd_wr_same]

theorem mem_fullSlots {s : State} {d : Nat} {x : Bool × Nat} (h : x ∈ fullSlots s d) :
    x.2 < 4 ∧ running s (pgMbox d x.1) = true := by
  obtain ⟨hx, hc⟩ := List.mem_filter.1 h
  exact ⟨(by decide : ∀ x ∈ takeOrder, x.2 < 4) x hx, (Bool.and_eq_true_iff.1 hc).2⟩

theorem exec_inDone {s : State} {d n : Nat} {sec : Bool} (hd : d < s.part.dies) (hn : n < 4) (hfw : fwLive s d = true)
    (hbusy : inState s d sec n = 2) (hheld : (mbox s d (mbIx sec n)).held = none) (hlong : longHere s d sec n = none)
    {x : Nat × List Word} (hx : (mbox s d (mbIx sec n)).result = some x) :
    exec (.inDone d sec n) s = .next (inFinish s d sec n x.1 x.2) := by
  change ok _ = _
  rw [if_pos ⟨hd, hn, hfw, hbusy, hheld⟩, hlong, hx]

/-! The timers of the slots and of the posted notices (R370). -/

theorem exec_inStuck {s : State} {d n : Nat} {sec : Bool} (hd : d < s.part.dies) (hn : n < 4)
    (hst : inState s d sec n = 1 ∨ inState s d sec n = 2) (hlong : longHere s d sec n = none)
    (htmo : rf s (pgMbox d sec) Off.MB_CFG 16 8 ≠ 0) (hf : fenced s (pgMbox d sec) = false)
    (hlate : (mbox s d (mbIx sec n)).inLate = false) : ∃ x, exec (.inStuck d sec n) s =
      .next (raise (setMbox (waitClock s ((mbox s d (mbIx sec n)).inAt + rf s (pgMbox d sec) Off.MB_CFG 16 8 * 2500000)) d
        (mbIx sec n) x) (pgMbox d sec) (8 + n)) :=
  ⟨_, congrArg Host.Outcome.next ((if_pos ⟨hd, hn, hst, htmo, by simp [hf], by simp [hlate]⟩).trans
    (if_neg (by simp [progKeeps, hlong])))⟩

theorem exec_outStuck {s : State} {d n : Nat} {sec : Bool} (hd : d < s.part.dies) (hn : n < 4)
    (hst : rb s (pgMbox d sec) (mbOff n Off.OUT_STAT) 0 = true) (htmo : rf s (pgMbox d sec) Off.MB_CFG 8 8 ≠ 0)
    (hf : fenced s (pgMbox d sec) = false) (hlate : (mbox s d (mbIx sec n)).outLate = false) : ∃ x, exec (.outStuck d sec n) s =
      .next (raise (setMbox (waitClock s ((mbox s d (mbIx sec n)).outAt + rf s (pgMbox d sec) Off.MB_CFG 8 8 * 2500000)) d
        (mbIx sec n) x) (pgMbox d sec) (12 + n)) :=
  ⟨_, congrArg Host.Outcome.next (if_pos ⟨hd, hn, hst, htmo, by simp [hf], by simp [hlate]⟩)⟩

/-- A timer that has expired after clock `c`. -/
theorem lateRaised {s : State} {p : Pg} {c d m i : Nat} {x : MboxCh} (hp : present s p = true) (hi : i < 24) :
    rb (raise (setMbox (waitClock s c) d m x) p i) p Off.EVT_LAT i = true ∧
      c ≤ (raise (setMbox (waitClock s c) d m x) p i).clock := by
  refine ⟨rb_raise_same _ _ _ ((present_waitClock ..).trans hp) hi, ?_⟩
  rw [raise_clock, setMbox_clock]
  exact clock_waitClock_le ..

/-- Settles O44: the slots' rules above, one for each row. -/
theorem mailboxMessages : Obligations.MailboxMessages := by
  refine ⟨fun s r d n sec v hn h => ⟨fun hoff => ?_, fun hst hflr => ⟨fun h1 h2 hnew => ?_, fun h1 h2 hlast htag hlen => ?_, fun hb => ?_⟩⟩,
    fun s d hd hfw e l hl => ⟨fun hok => ?_, fun hstale hdis => ?_⟩,
    fun s d n sec hd hn hfw hp hbusy hheld hlong x hx => ⟨fun hf hdis hcode hlen => ?_, fun hf hdis => ?_, fun hdis => ?_⟩,
    fun s d n sec hd hn hfw hrun hfree hen e q hq => ?_, fun s r d n sec v hn h => ⟨fun hpost htag => ?_, fun htag => ?_⟩,
    fun s d n sec hd hn hp hf => ⟨fun hst hlong htmo hlate => ?_, fun hst htmo hlate => ?_⟩⟩
  · refine .of (exec_mailboxPost hn h) ?_
    rw [inHdrWrite_off (by rwa [pstate, rf_touchSession])]
    refine ⟨(eq_of_engines State.mboxes (engines_logErr ..)).trans (eq_of_timeless State.mboxes (timeless_touchSession ..)), ?_⟩
    rw [inState, rf, rd_logErr_other (.inr ⟨by unfold mbOff; simp; omega, by unfold mbOff; simp; omega⟩), rd_touchSession]
    rfl
  · refine .of (exec_mailboxPost hn h) ?_
    rw [inHdrWrite_free (by rwa [pstate, rf_touchSession]) (by simpa using hflr) (by rwa [inState, rf_touchSession])
      (by rwa [inState, rf_touchSession]), inPost_eq, if_neg ?_]
    · obtain ⟨g1, g2, g3⟩ := inPosted_spec (touchSession s r (pgMbox d sec)) d sec n v
      exact ⟨g1, g2, g3.trans (by simp only [rd_touchSession])⟩
    · rw [rd_touchSession]
      rintro ⟨hlast, htag⟩
      exact hnew.elim (by rw [rb, hlast]; exact Bool.noConfusion) (absurd htag)
  · refine .of (exec_mailboxPost hn h) ?_
    rw [inHdrWrite_free (by rwa [pstate, rf_touchSession]) (by simpa using hflr) (by rwa [inState, rf_touchSession])
      (by rwa [inState, rf_touchSession])]
    have hm : mbox (touchSession s r (pgMbox d sec)) d (mbIx sec n) = mbox s d (mbIx sec n) :=
      eq_of_timeless (mbox · d (mbIx sec n)) (timeless_touchSession ..)
    obtain ⟨g1, g2, g3, g4⟩ := inPost_replayed (touchSession s r (pgMbox d sec)) d sec n v hn (by simpa using h.present)
      (by rwa [rb_touchSession]) (by rwa [rf_touchSession]) (by rwa [hm])
    rw [hm] at g2
    rw [rd_touchSession] at g4
    exact ⟨g1, g2, g3, g4⟩
  · refine .of (exec_mailboxPost hn h) ?_
    rw [inHdrWrite_busy (by rwa [pstate, rf_touchSession]) (by simpa using hflr) (by simpa only [inState, rf_touchSession] using hb)]
    refine ⟨(eq_of_engines State.mboxes (engines_logErr ..)).trans (eq_of_timeless State.mboxes (timeless_touchSession ..)), ?_, ?_⟩
    · rw [inState, rf, rd_logErr_other (.inr ⟨by unfold mbOff; simp; omega, by unfold mbOff; simp; omega⟩), count,
        rd_wr_off _ _ _ _ _ _ (by unfold mbOff; simp; omega), rd_touchSession]
      rfl
    · rw [rd_logErr_other (.inr ⟨by decide, by decide⟩), count, rd_wr_same, rd_touchSession]
  · exact .of (congrArg Host.Outcome.next ((if_pos ⟨hd, hfw⟩).trans (by rw [hl]))) (inTake_busy s d e.1 e.2 hok)
  · obtain ⟨hn, hrun⟩ := mem_fullSlots (s := s) (d := d) (x := e) (by rw [hl]; exact List.mem_cons_self)
    exact .of (congrArg Host.Outcome.next ((if_pos ⟨hd, hfw⟩).trans (by rw [hl]))) (inTake_stale s d e.1 e.2 hn hrun hdis hstale)
  · exact .of (exec_inDone hd hn hfw hbusy hheld hlong hx) (inFinish_loaded s d sec n hn hp hdis hf hcode hlen)
  · obtain ⟨g1, g2⟩ := inFinish_held s d sec n (code := x.1) (res := x.2) hdis hf
    exact .of (exec_inDone hd hn hfw hbusy hheld hlong hx) ⟨g1.trans hbusy, g2⟩
  · exact .of (exec_inDone hd hn hfw hbusy hheld hlong hx) (inFinish_discarded s d sec n hdis)
  · obtain ⟨u, hex, hqu, hpart⟩ := exec_outFull hd hn hfw hrun hfree hen hq
    obtain ⟨h1, h2, h3⟩ := outPosted_spec hn ((present_congr hpart _).trans (present_pgMbox sec hd))
    exact .of hex ⟨h1, by rw [mbox_raise]; exact hqu, h2, h3⟩
  · refine .of (exec_noticeAck hn h) ?_
    unfold outAck
    simp only [rb_touchSession, rd_touchSession]
    rw [if_pos ⟨hpost, htag⟩]
    exact rb_wb_same _ _ _ _ _ (by decide)
  · refine .of (exec_noticeAck hn h) ?_
    unfold outAck
    simp only [rb_touchSession, rd_touchSession]
    rw [if_neg fun hc => htag hc.2, rb, rd_logErr_other (.inr ⟨by unfold mbOff; simp; omega, by unfold mbOff; simp; omega⟩),
      rd_touchSession, rb]
  · obtain ⟨x, hex⟩ := exec_inStuck hd hn hst hlong htmo hf hlate
    exact .of hex (lateRaised hp (by omega))
  · obtain ⟨x, hex⟩ := exec_outStuck hd hn hst htmo hf hlate
    exact .of hex (lateRaised hp (by omega))

end Sys2Proof.Machine

namespace Sys2Proof.Machine
open Sys2Proof.Laws

/-! ### A start over (R10, R438) -/

section
variable (s : State)

theorem rd_startOver (p : Pg) (off : Nat) :
    rd (startOver s) p off = if alwaysOn (p, off) then rd s p off else resetWord p off := by
  have hregs : (startOver s).regs = Tbl.drop s.regs fun k => !alwaysOn k := by
    unfold startOver Tbl.drop
    simp only [Bool.not_not]
  rw [rd, hregs]
  split
  · rename_i h
    exact Tbl.get_drop_apart _ _ (by simp [h]) _
  · rename_i h
    exact Tbl.get_drop_same _ _ (by simp [h]) _

theorem die_startOver {d : Nat} (h : d < s.part.dies) : die (startOver s) d = dieAfresh s d :=
  Tbl.get_map _ (List.mem_range.2 h) _

end

theorem exec_vinOff {s : State} (h : s.pkg.power = .stopped) :
    exec .vinOff s = .next (startOver { s with pkg := { s.pkg with power := .off } }) :=
  congrArg Host.Outcome.next (if_pos h)

theorem exec_vinBrownout {s : State} (h : powered s = true) : exec .vinBrownout s =
    .next (startOver { s with pkg := { s.pkg with power := .off, vinEn := true, woken := false, wokeBy := 0 } }) :=
  congrArg Host.Outcome.next (if_pos h)

/-! ### DORMANT (R395) -/

/-- The link is down once it has left L0. -/
theorem hostLinkDown_down (s : State) (ltssm : Nat) : rb (hostLinkDown s ltssm) pgPcie Off.PC_STAT 0 = false := by
  have hword : rb (wr s pgPcie Off.PC_STAT (linkWord s 0 0 ltssm false)) pgPcie Off.PC_STAT 0 = false := by
    rw [rb, rd_wr_same, bit, linkWord, word, BitVec.getLsbD_ofNat, Nat.testBit_zero, Bool.and_eq_false_iff]
    refine .inr (decide_eq_false ?_)
    rw [show b2n false = 0 from rfl]
    omega
  unfold hostLinkDown
  dsimp only
  split
  · rw [rb, rd_raise_off _ _ _ _ _ (by decide), count, rd_wr_off _ _ _ _ _ _ (by decide)]
    exact hword
  · exact hword

/-- The groups that a stop leaves: no session opens. -/
abbrev stopGroups : Grp := { mem := true, ecc := true, ret := true, fuse := true }

theorem sess_sessClose (s : State) (d : Nat) : (die (sessClose s d) d).sess.st ≠ 2 := by
  unfold sessClose
  dsimp only
  split
  · rw [die_raise, wf, die_wr, die_setDie]
    exact (by decide : (0 : Nat) ≠ 2)
  · rename_i h
    exact h

/-- A die that has stopped has no open session. -/
theorem sess_dormantDie {s : State} {d : Nat} (hd : d < s.part.dies) : (die (dormantDie s d) d).sess.st ≠ 2 := by
  unfold dormantDie
  dsimp only
  have hs : (if saveState s d = 1 then asSaved s d else s).part = s.part := by
    split
    · exact (asSaved_upd (gr := stopGroups) rfl rfl (.refl _ s)).part
    · rfl
  generalize (if saveState s d = 1 then asSaved s d else s) = v at hs ⊢
  have hu : (if modeOf v d = 1 then v else stbyEnter v d).part = s.part := by
    split
    · exact hs
    · exact (stbyEnter_upd (gr := stopGroups) (.refl _ _)).part.trans hs
  generalize (if modeOf v d = 1 then v else stbyEnter v d) = u at hu ⊢
  have hpart : (sessClose u d).part = s.part := (sessClose_upd (gr := stopGroups) (.refl _ u)).part.trans hu
  exact fun h2 => sess_sessClose u d (((dbgClose_upd (gr := stopGroups) (.refl _ _)).sess rfl d (hpart ▸ hd)).1 h2)

/-- After the stop of all dies no session is open. -/
theorem sess_dormantDies {s : State} {d : Nat} (u : State) (hu : u.part = s.part) (hd : d < s.part.dies) :
    (die (each (dieList s) u dormantDie) d).sess.st ≠ 2 := by
  refine (each_once (x := d) (P := fun t => t.part = s.part) (Q := fun t => t.part = s.part ∧ (die t d).sess.st ≠ 2)
    (List.mem_range.2 hd) List.nodup_range hu (fun t e _ ht => ?_) (fun t ht => ⟨?_, ?_⟩) fun t e _ ht => ⟨?_, fun h2 => ?_⟩).2
  · exact (dormantDie_upd (gr := stopGroups) rfl rfl (.refl _ t)).part.trans ht
  · exact (dormantDie_upd (gr := stopGroups) rfl rfl (.refl _ t)).part.trans ht
  · exact sess_dormantDie (ht ▸ hd)
  · exact (dormantDie_upd (gr := stopGroups) rfl rfl (.refl _ t)).part.trans ht.1
  · exact ht.2 (((dormantDie_upd (gr := stopGroups) rfl rfl (.refl _ t)).sess rfl d (ht.1 ▸ hd)).1 h2)

theorem dormantEnter_spec (s : State) : (dormantEnter s).pkg.power = .stopped ∧ (dormantEnter s).pkg.vinEn = false ∧
    rb (dormantEnter s) pgPcie Off.PC_STAT 0 = false ∧ ∀ d < s.part.dies, (die (dormantEnter s) d).sess.st ≠ 2 := by
  refine ⟨rfl, rfl, hostLinkDown_down .., fun d hd => ?_⟩
  have hmode := modeSwitch_upd (gr := stopGroups) rfl (.refl _ s)
  have hstop := sess_dormantDies (modeSwitch s) hmode.part hd
  have hpart : (each (dieList s) (modeSwitch s) dormantDie).part = s.part :=
    each_pres (P := fun t => t.part = s.part) hmode.part fun t e _ ht =>
      (dormantDie_upd (gr := stopGroups) rfl rfl (.refl _ t)).part.trans ht
  exact fun h2 => hstop (((hostLinkDown_upd (gr := stopGroups) (.refl _ _)).sess rfl d (hpart ▸ hd)).1 h2)

/-! ### Wakes (R396) and the return of the supply (R397) -/

theorem exec_wakePin {s : State} {n : Nat} {rise : Bool} (hw : wakeNow s = true) (hn : n < 4)
    (hen : rb s (pgDie 0) Off.PWR_CFG (4 + n) = true) (hedge : rb s (pgDie 0) Off.PWR_CFG (8 + n) = !rise) :
    exec (.wakePin n rise) s = .next (wakeBy s (4 + n)) := by
  refine congrArg Host.Outcome.next (if_pos ?_)
  unfold rb at hen hedge
  rw [hw, hen, hedge, decide_eq_true hn]
  cases rise <;> rfl

theorem exec_wakeAlarm {s : State} (hw : wakeNow s = true) (hen : rb s (pgDie 0) Off.PWR_CFG 12 = true)
    (hat : s.pkg.edgeAt = s.clock) (hsec : s.pkg.seconds = rd48 s (pgDie 0) Off.PWR_ALARM_L) :
    exec .wakeAlarm s = .next (wakeBy s 2) := by
  refine congrArg Host.Outcome.next (if_pos ?_)
  rw [hw, hen, decide_eq_true hat, decide_eq_true hsec]
  rfl

theorem rd_vaonReset (s : State) (p : Pg) (off : Nat) :
    Tbl.get (Tbl.drop s.regs alwaysOn) (p, off) (resetWord p off) = if alwaysOn (p, off) then resetWord p off else rd s p off := by
  split
  · rename_i h
    exact Tbl.get_drop_same _ _ h _
  · rename_i h
    exact Tbl.get_drop_apart _ _ (Bool.eq_false_of_not_eq_true h) _

/-- The supply is there again: every die stands at the start of step 0. -/
theorem powerReturn_spec (s : State) : (powerReturn s).pkg.power = .running ∧ (powerReturn s).ret = s.ret ∧
    (powerReturn s).part = s.part ∧ ∀ e < s.part.dies, (die (powerReturn s) e).boot.step = 0 ∧
      (die (powerReturn s) e).boot.outcome = [] ∧ (die (powerReturn s) e).boot.complete = false ∧
      (die (powerReturn s) e).boot.stuck = false := by
  refine ⟨rfl, rfl, rfl, fun e he => ?_⟩
  have hdie : die (powerReturn s) e = dieAfresh { s with pkg := { s.pkg with power := .running, vinEn := true } } e :=
    die_startOver _ he
  rw [hdie]
  exact ⟨rfl, rfl, rfl, rfl⟩

theorem exec_powerGood {s : State} {d : Nat} (hd : d < s.part.dies) (hv : vinReturns s = true) : ∃ b,
    exec (.powerGood d) s = .next (nextFree (setBoot (powerReturn s) d b)) ∧ b.step = 1 := by
  obtain ⟨hpow, -, hpart, hdies⟩ := powerReturn_spec s
  obtain ⟨h1, h2, h3, h4⟩ := hdies d hd
  have hs1 : (if decide (d < s.part.dies) && vinReturns s then powerReturn s else s) = powerReturn s :=
    if_pos (by rw [decide_eq_true hd, hv]; rfl)
  have hat : atStep (powerReturn s) d 0 = true := by
    unfold atStep
    dsimp only
    rw [h1, h2, h3, h4, hpow, hpart, decide_eq_true hd]
    rfl
  change ∃ b, ok _ = _ ∧ _
  simp only [hs1, hat, if_true]
  exact ⟨_, rfl, rfl⟩

/-- Settles O50: a loss of the supply is `startOver`, a stop `dormantEnter`. -/
theorem powerStates : Obligations.PowerStates := by
  refine ⟨fun s hpow htr hm => ?_, fun s hpow => ?_, fun s hpow => ?_, fun s hw => ⟨fun n rise hn hen hedge => ?_, fun hen hat hsec => ?_⟩,
    fun s => ?_, fun s hoff => ?_, fun s d hd hv => ?_⟩
  · refine .of (congrArg Host.Outcome.next (if_pos ⟨hpow, htr, hm⟩)) ?_
    obtain ⟨h1, h2, h3, h4⟩ := dormantEnter_spec (waitTick s 0 (rd48 s (pgMode 0) Off.MODE_SW_TS_L))
    rw [waitTick_part] at h4
    exact ⟨h1, h2, h3, h4⟩
  · exact .of (exec_vinOff hpow) ⟨rfl, rfl, rfl, rfl, fun p off => rd_startOver ..⟩
  · exact .of (exec_vinBrownout hpow) ⟨rfl, rfl, rfl, rfl, fun p off => rd_startOver ..⟩
  · exact .of (exec_wakePin hw hn hen hedge) ⟨rfl, rfl, rfl⟩
  · exact .of (exec_wakeAlarm hw hen hat hsec) ⟨rfl, rfl, rfl⟩
  · exact .of rfl ⟨rfl, rfl, rfl, fun p off => rd_vaonReset s p off⟩
  · exact .of (congrArg Host.Outcome.next (if_neg (by rw [hoff]; exact Bool.false_ne_true))) ⟨rfl, rfl, rd_wr_same ..⟩
  · obtain ⟨b, hex, hb⟩ := exec_powerGood hd hv
    obtain ⟨hpow, hret, -, hdies⟩ := powerReturn_spec s
    refine .of hex ⟨hpow, ?_, hret, fun e he hne => ?_⟩
    · rw [die_nextFree, setBoot, die_setDie]
      exact hb
    · rw [die_nextFree, setBoot, die_setDie_other _ _ _ _ (Ne.symm hne)]
      exact (hdies e he).1

end Sys2Proof.Machine

namespace Sys2Proof.Machine
open Sys2Proof.Laws

/-! ### Loads of a waveform bank (R196) -/

@[simp] theorem sec_pgHp (d p : Nat) : (pgHp d p).sec = false := rfl

section
variable (s : State) (d p : Nat)

@[simp] theorem port_raise (q : Pg) (i d' p' : Nat) : port (raise s q i) d' p' = port s d' p' :=
  eq_of_engines (port · d' p') (engines_raise ..)

theorem loadState_setLoad (st : Nat) : loadState (setLoad s d p st) d p = st % 8 := rf_wf_same _ _ _ _ _ _ (by decide)

/-- A failed load: state 5, the code, and event 1 of a present port. -/
theorem loadFail_spec (code : Nat) : loadState (loadFail s d p code) d p = 5 ∧
    rf (loadFail s d p code) (pgHp d p) Off.WF_STAT 12 4 = code % 16 ∧
    (present s (pgHp d p) = true → rb (loadFail s d p code) (pgHp d p) Off.EVT_LAT 1 = true) := by
  have hstat : rd (loadFail s d p code) (pgHp d p) Off.WF_STAT =
      setFld (setFld (rd s (pgHp d p) Off.WF_STAT) 0 3 5) 12 4 code := by
    unfold loadFail
    rw [rd_raise_off _ _ _ _ _ (by decide)]
    exact rd_wr_same ..
  refine ⟨?_, ?_, fun hp => rb_raise_same _ _ _ hp (by decide)⟩
  · rw [loadState, rf, hstat, fld_setFld_apart _ _ _ _ _ _ (by decide), fld_setFld _ _ _ _ (by decide)]
    rfl
  · rw [rf, hstat, fld_setFld _ _ _ _ (by decide)]
    rfl

end

/-- A write of LOAD asks for the load of the bank it names. -/
theorem exec_wfLoadStart {s : State} {r : Req} {d p : Nat} (v : Word) (h : Taken s r (pgHp d p) Off.WF_CTRL)
    (hp : p < 16) (hl : loading s d p = false) :
    exec (.wfLoadStart r d p v) s =
      .next (loadStart (wf s (pgHp d p) Off.WF_CTRL 4 1 (fld v 4 1)) d p (fld v 4 1)) := by
  refine (if_pos hp).trans (congrArg Host.Outcome.next ((guardedWrite_of_taken h _).trans ?_))
  rw [touchSession_of_not_sec (sec_pgHp d p), wfCtrlEff, hl, bit_setBit _ _ _ (by decide),
    fld_setBit_apart _ _ _ _ _ (by decide)]
  rfl

/-- The active bank is not loaded. -/
theorem loadStart_active {s : State} {d p b : Nat} (hp : present s (pgHp d p) = true) (hb : b = activeBank s d p) :
    loadState (loadStart s d p b) d p = 5 ∧ rf (loadStart s d p b) (pgHp d p) Off.WF_STAT 12 4 = 1 ∧
    rb (loadStart s d p b) (pgHp d p) Off.EVT_LAT 1 = true := by
  rw [loadStart, if_pos hb]
  obtain ⟨h1, h2, h3⟩ := loadFail_spec (wr s (pgHp d p) Off.WF_STAT
    (setFld (setFld (rd s (pgHp d p) Off.WF_STAT) 4 1 b) 12 4 0)) d p 1
  exact ⟨h1, h2, h3 hp⟩

/-- A load that begins. -/
theorem loadStart_begins {s : State} {d p b : Nat} (hb : b ≠ activeBank s d p)
    (hsel : b ≠ fld (rdShadow s (pgHp d p) Off.WF_BANK_SEL) 0 1) (hlo : 16384 ≤ rf s (pgHp d p) Off.WF_SRC 0 17)
    (hhi : rf s (pgHp d p) Off.WF_SRC 0 17 + 4095 ≤ 131071) (hb2 : b < 2) :
    loadState (loadStart s d p b) d p = 1 ∧ loaded (loadStart s d p b) d p b = false ∧
    (port (loadStart s d p b) d p).loadBank = b ∧ rf (loadStart s d p b) (pgHp d p) Off.WF_STAT 12 4 = 0 := by
  simp only [loadStart, if_neg hb, if_neg hsel, if_neg (show ¬(_ ∨ _) from not_or.2 ⟨not_lt.2 hlo, not_lt.2 hhi⟩)]
  refine ⟨?_, ?_, by rw [port_setPort], ?_⟩
  · exact (rf_wf_apart _ _ _ _ _ _ _ _ (by omega)).trans (loadState_setLoad ..)
  · exact rb_wb_same _ (pgHp d p) Off.WF_STAT (8 + b) false (by omega)
  · refine (rf_wf_apart _ _ _ _ _ _ _ _ (by omega)).trans ((rf_wf_apart _ _ _ _ _ _ _ _ (by decide)).trans ?_)
    rw [rf, rd_wr_same, fld_setFld _ _ _ _ (by decide)]
    rfl

/-- Words without check errors are read as they stand. -/
theorem readWords_good {s : State} (h : s.ecc = []) (n d : Nat) (dps : Bool) (w src : Nat) (eff : Option Link) (reason : Nat) :
    readWords n s d dps w src eff reason = ((List.range n).map fun i => rawWord s (wordAddr d dps (w + i)), false, s) := by
  induction n generalizing w with
  | zero => rfl
  | succ n ih =>
    have hword : readWord s d dps w src eff reason = (rawWord s (wordAddr d dps w), false, s) := by
      simp only [readWord, eccOf, h, Tbl.get]
    simp only [readWords, hword, ih, List.range_succ_eq_map, List.map_cons, List.map_map, Nat.add_zero]
    refine congrArg (·, false, s) (congrArg (_ :: ·) (List.map_congr_left fun i _ => ?_))
    simp only [Function.comp, Nat.succ_eq_add_one, Nat.add_assoc, Nat.add_comm 1]

/-- The table that numbers a list. -/
theorem Tbl.get_zipIdx {α : Type} (l : List α) (k i : Nat) (v : α) :
    Tbl.get ((l.zipIdx k).map fun x => (x.2, x.1)) (k + i) v = l[i]?.getD v := by
  induction l generalizing k i with
  | nil => rfl
  | cons a r ih =>
    cases i with
    | zero => simp [Tbl.get]
    | succ i => simpa [Tbl.get, Nat.add_assoc, Nat.add_comm 1] using ih (k + 1) i

/-- A copy of words that were read whole fills the bank and goes on to the head. -/
theorem loadCopy_of_read {s s1 : State} {d p : Nat} {ws : List Word}
    (h : readWords 4096 (setLoad s d p 2) d true (rf s (pgHp d p) Off.WF_SRC 0 17) 0 none 0 = (ws, false, s1)) :
    loadState (loadCopy s d p) d p = 3 ∧
    ∀ i, bankWord (loadCopy s d p) d p (port s d p).loadBank i = ws[i]?.getD 0#24 := by
  simp only [loadCopy, h, Bool.false_eq_true, if_false]
  refine ⟨loadState_setLoad .., fun i => ?_⟩
  have hget := Tbl.get_zipIdx ws 0 i 0#24
  rw [Nat.zero_add] at hget
  by_cases hb : (port s d p).loadBank = 0
  · simpa only [bankWord, setLoad, wf_eq, port_setPort, port_wr, hb, if_true] using hget
  · simpa only [bankWord, setLoad, wf_eq, port_setPort, port_wr, hb, if_false] using hget

theorem loadCopy_good {s : State} (h : s.ecc = []) (d p : Nat) :
    loadState (loadCopy s d p) d p = 3 ∧ ∀ i < 4096, bankWord (loadCopy s d p) d p (port s d p).loadBank i =
      rawWord s (wordAddr d true (rf s (pgHp d p) Off.WF_SRC 0 17 + i)) := by
  obtain ⟨h1, h2⟩ := loadCopy_of_read
    (readWords_good (s := setLoad s d p 2) h 4096 d true (rf s (pgHp d p) Off.WF_SRC 0 17) 0 none 0)
  refine ⟨h1, fun i hi => (h2 i).trans ?_⟩
  rw [List.getElem?_map, List.getElem?_range hi]
  rfl

/-- WF_LOAD_COPY waits for the ends of the cycles that play from the bank and copies then. -/
theorem exec_wfLoadCopy {s : State} {d p : Nat} (hd : d < s.part.dies) (hl : loadState s d p = 1)
    (hc : ∀ c ∈ (port s d p).cycles, c.bank = (port s d p).loadBank → c.fired = true ∨ c.noWave = true) :
    exec (.wfLoadCopy d p) s =
      .next (loadCopy (each (bankEnd s d p (port s d p).loadBank) s fun s t => waitTick s d t) d p) := by
  refine (if_pos ⟨hd, hl⟩).trans (if_neg ?_)
  simp only [List.any_eq_true, not_exists, not_and, Bool.and_eq_true, decide_eq_true_eq, Bool.not_eq_true']
  rintro c hmem ⟨hb, hf⟩ hn
  rcases hc c hmem hb with h | h
  · exact Bool.noConfusion (h.symm.trans hf)
  · exact Bool.noConfusion (h.symm.trans hn)

/-- What the waits leave. -/
theorem waits_keep (l : List Int) (s : State) (d : Nat) {q : Pg} {o : Nat} (ho : o ≠ Off.EVT_LAT) :
    timeless (each l s fun s t => waitTick s d t) = timeless s ∧
    rd (each l s fun s t => waitTick s d t) q o = rd s q o :=
  each_pres (P := fun u => timeless u = timeless s ∧ rd u q o = rd s q o) ⟨rfl, rfl⟩ fun _ _ _ h =>
    ⟨(timeless_waitTick ..).trans h.1, (rd_waitTick _ ho).trans h.2⟩

/-- The frames of a load: one for each table, none sent yet. -/
theorem exec_wfLoadHead_up {s : State} {d p : Nat} (hd : d < s.part.dies) (hl : loadState s d p = 3)
    (hq : (port s d p).loadQueued = false) (hlink : (port s d p).link = 3) :
    ∃ fs : List Frame, fs.length = 16 ∧ (∀ f ∈ fs, f.kind = 3 ∧ f.tries = 0) ∧
      exec (.wfLoadHead d p) s = .next (setPort s d p { port s d p with
        queue := (port s d p).queue ++ fs, loadTables := 16, loadQueued := true }) := by
  refine ⟨_, ?_, ?_, (if_pos ⟨hd, hl, by rw [hq]; rfl⟩).trans (if_neg (not_not.2 hlink))⟩
  · simp
  · simp only [List.mem_map]
    rintro f ⟨t, -, rfl⟩
    exact ⟨rfl, rfl⟩

theorem exec_wfLoadHead_down {s : State} {d p : Nat} (hd : d < s.part.dies) (hl : loadState s d p = 3)
    (hq : (port s d p).loadQueued = false) (hlink : (port s d p).link ≠ 3) :
    exec (.wfLoadHead d p) s = .next (loadFail s d p 5) :=
  (if_pos ⟨hd, hl, by rw [hq]; rfl⟩).trans (if_pos hlink)

/-- The state in which a load shows as done. -/
def loadShown (s : State) (d p : Nat) : State :=
  wr (wf (setLoad s d p 4) (pgHp d p) Off.WF_STAT (8 + (port s d p).loadBank) 1 1) (pgHp d p)
    (if (port s d p).loadBank = 0 then Off.WF_VALID_0 else Off.WF_VALID_1) (word (port s d p).loadValid)

theorem exec_loadDone {s : State} {d p : Nat} (hd : d < s.part.dies) (hl : loadState s d p = 3)
    (hq : (port s d p).loadQueued = true) (ht : (port s d p).loadTables = 0) :
    exec (.loadDone d p) s =
      .next (raise (setPort (loadShown s d p) d p { port s d p with loadQueued := false }) (pgHp d p) 0) :=
  if_pos ⟨hd, hl, hq, ht⟩

theorem loadShown_spec {s : State} {d p : Nat} (hb : (port s d p).loadBank < 2) :
    loadState (loadShown s d p) d p = 4 ∧ loaded (loadShown s d p) d p (port s d p).loadBank = true := by
  have hoff : (if (port s d p).loadBank = 0 then Off.WF_VALID_0 else Off.WF_VALID_1) ≠ Off.WF_STAT := by
    split <;> decide
  simp only [loadState, loaded, rf, rb, loadShown, rd_wr_off _ _ _ _ _ _ hoff]
  exact ⟨(rf_wf_apart _ _ _ _ _ _ _ _ (by omega)).trans (loadState_setLoad ..),
    rb_wb_same _ (pgHp d p) Off.WF_STAT (8 + (port s d p).loadBank) true (by omega)⟩

/-! ### The head heater (R194, R195) -/

theorem rd_pwmRoll (s : State) (d p : Nat) (q : Pg) {o : Nat} (ho : Off.HTR_DUTY ≠ o) : rd (pwmRoll s d p) q o = rd s q o := by
  unfold pwmRoll
  dsimp only
  split
  · rfl
  · split <;> split <;> simp [ho]

theorem rd_htrFollow (s : State) (d p : Nat) (q : Pg) {o : Nat} (hh : Off.HTR_DUTY ≠ o) (hd : Off.EVT_DYN ≠ o)
    (hl : o ≠ Off.EVT_LAT) : rd (htrFollow s d p) q o = rd s q o := by
  have hdyn : rd (setDyn (pwmRoll s d p) (pgHp d p) 7 (decide (1 < htrReason s d p))) q o = rd s q o :=
    (rd_setDyn_off _ _ _ _ _ hd hl).trans (rd_pwmRoll _ _ _ _ hh)
  unfold htrFollow
  dsimp only
  split
  · exact (rd_wf_off _ _ _ _ _ _ _ _ hh).trans hdyn
  · split <;> simp [hh, hdyn]

/-- The reason is a function of these registers and of the thermal scopes. -/
theorem htrReason_congr {s t : State} {d p : Nat} (hpart : t.part = s.part) (hth : t.therms = s.therms)
    (hcfg : rd t (pgHp d p) Off.HTR_CFG = rd s (pgHp d p) Off.HTR_CFG)
    (hlim : rd t (pgHp d p) Off.HTR_LIMIT = rd s (pgHp d p) Off.HTR_LIMIT)
    (hst : rd t (pgHp d p) Off.PAGE_STAT = rd s (pgHp d p) Off.PAGE_STAT)
    (hmode : rd t (pgMode d) Off.MODE_CUR = rd s (pgMode d) Off.MODE_CUR)
    (hhead : rd t (pgThermal d) (thReg Off.TH_HEAD p) = rd s (pgThermal d) (thReg Off.TH_HEAD p)) :
    htrReason t d p = htrReason s d p := by
  simp only [htrReason, rb, rf, running, pstate, headValid, headTemp, scope, therm, present_congr hpart, hth, hcfg, hlim,
    hst, hmode, hhead]
  rfl

theorem htrReason_htrFollow (s : State) (d : Nat) (p : Nat) : htrReason (htrFollow s d p) d p = htrReason s d p := by
  have hmode := (htrFollow_keeps (s := s) (d := d) (p := p) (q₀ := pgMode d) (Kind.apart .mode .hp rfl) (.refl ..)).regs
  have hth := (htrFollow_keeps (s := s) (d := d) (p := p) (q₀ := pgThermal d) (Kind.apart .thermal .hp rfl) (.refl ..)).regs
  refine htrReason_congr ?_ ?_ (rd_htrFollow _ _ _ _ (by decide) (by decide) (by decide))
    (rd_htrFollow _ _ _ _ (by decide) (by decide) (by decide)) (rd_htrFollow _ _ _ _ (by decide) (by decide) (by decide))
    (hmode _) (hth _)
  · apply htrFollow_inv (φ := State.part)
    case hU => rfl
    all_goals exact fun _ _ => rfl
  · apply htrFollow_inv (φ := State.therms)
    case hU => rfl
    all_goals exact fun _ _ => rfl

theorem htrReason_lt (s : State) (d p : Nat) : htrReason s d p < 6 := by
  unfold htrReason
  dsimp only
  repeat' split
  all_goals decide

/-- What the heater shows after its off conditions were seen to. -/
theorem htrFollow_spec (s : State) (d p : Nat) :
    rf (htrFollow s d p) (pgHp d p) Off.HTR_DUTY 12 4 = htrReason s d p ∧
    (htrReason s d p ≠ 0 → rf (htrFollow s d p) (pgHp d p) Off.HTR_DUTY 0 10 = 0 ∧
      (port (htrFollow s d p) d p).htrNew = 0 ∧ (port (htrFollow s d p) d p).integ = 0) := by
  unfold htrFollow
  by_cases hc : htrReason s d p = 0
  · simp only [if_pos hc]
    exact ⟨by rw [hc]; exact rf_wf_same _ _ _ _ _ _ (by decide), fun h => absurd hc h⟩
  · have hlt := htrReason_lt s d p
    have hfld : fld (word (htrReason s d p * 2 ^ 12)) 12 4 = htrReason s d p ∧
        fld (word (htrReason s d p * 2 ^ 12)) 0 10 = 0 := by
      generalize htrReason s d p = c at hlt
      interval_cases c <;> decide
    simp only [if_neg hc]
    split
    all_goals
      simp only [rf, rd_emit, rd_setPort, rd_wr_same]
      exact ⟨hfld.1, fun _ => ⟨hfld.2, congrArg PortSt.htrNew (port_setPort ..), congrArg PortSt.integ (port_setPort ..)⟩⟩

theorem clampI_mem {hi : Int} (h : 0 ≤ hi) (z : Int) : 0 ≤ clampI 0 hi z ∧ clampI 0 hi z ≤ hi := by
  unfold clampI
  split
  · exact ⟨le_rfl, h⟩
  · split <;> omega

/-- The state in which the heater is updated: when its time comes. -/
def htrDue (s : State) (d p : Nat) : State :=
  match (port s d p).htrAt with | none => s | some c => waitClock s (c + 2500000)

/-- The state in which the off conditions have been seen to. -/
def htrSeen (s : State) (d p : Nat) : State :=
  htrFollow (setPort (htrDue s d p) d p { port (htrDue s d p) d p with htrAt := some (htrDue s d p).clock }) d p

theorem htrDue_keeps (s : State) (d p : Nat) : timeless (htrDue s d p) = timeless s ∧
    ∀ (q : Pg) {o : Nat}, o ≠ Off.EVT_LAT → rd (htrDue s d p) q o = rd s q o := by
  unfold htrDue
  split
  · exact ⟨rfl, fun _ _ _ => rfl⟩
  · exact ⟨timeless_waitClock .., fun _ _ h => rd_waitClock _ _ h⟩

theorem htrReason_htrSeen (s : State) (d : Nat) {p : Nat} (hp : p < 16) : htrReason (htrSeen s d p) d p = htrReason s d p := by
  obtain ⟨ht, hr⟩ := htrDue_keeps s d p
  have hpart := eq_of_timeless State.part ht
  have hth := eq_of_timeless State.therms ht
  refine (htrReason_htrFollow ..).trans (htrReason_congr hpart hth
    (hr _ (by decide)) (hr _ (by decide)) (hr _ (by decide)) (hr _ (by decide)) (hr _ ?_))
  simp [thReg]
  omega

theorem exec_heaterUpdate_off {s : State} {d p : Nat} (hd : d < s.part.dies) (hp : p < nPorts s) (ha : awake s d = true)
    (h : htrReason (htrSeen s d p) d p ≠ 0) : exec (.heaterUpdate d p) s = .next (htrSeen s d p) :=
  congrArg Host.Outcome.next ((if_pos ⟨hd, hp, ha⟩).trans (if_neg h))

theorem exec_heaterUpdate_on {s : State} {d p : Nat} (hd : d < s.part.dies) (hp : p < nPorts s) (ha : awake s d = true)
    (h : htrReason (htrSeen s d p) d p = 0) :
    ∃ x y : Int, exec (.heaterUpdate d p) s = .next (setPort (htrSeen s d p) d p { port (htrSeen s d p) d p with
      integ := clampI 0 (rf (htrSeen s d p) (pgHp d p) Off.HTR_LIMIT 14 10 : Nat) x,
      htrNew := (clampI 0 (rf (htrSeen s d p) (pgHp d p) Off.HTR_LIMIT 14 10 : Nat) y).toNat }) :=
  ⟨_, _, congrArg Host.Outcome.next ((if_pos ⟨hd, hp, ha⟩).trans (if_pos h))⟩

theorem nPorts_le (s : State) : nPorts s ≤ 16 := by
  unfold nPorts
  split <;> decide

/-! ### Nozzle maps (R203) -/

/-- A map of entries without check errors. -/
theorem mapLoad_good {s : State} (h : s.ecc = []) (d k n i : Nat) (m : Tbl Nat NzMap) :
    mapLoad n s d k i m = setCtx s d k { ctx s d k with
      map := m ++ (List.range n).map fun j =>
        (i + j, ⟨fld (rawWord s (lodeAddr d (af s d k 41 0 21 + 8 * (i + j)))) 21 3,
          fld (rawWord s (lodeAddr d (af s d k 41 0 21 + 8 * (i + j)))) 12 2⟩), mapReady := true } := by
  induction n generalizing i m with
  | zero => simp [mapLoad]
  | succ n ih =>
    have hread := readWords_good h 1 d false (nozAddr (af s d k 41 0 21) i) 0 (poisonEff s d k) 0x0B
    simp only [mapLoad, ctxRead, hread, ih, Bool.false_eq_true, if_false, List.range_succ_eq_map, List.map_cons, List.map_map,
      List.range_zero, List.map_nil, List.headD_cons, List.append_assoc, List.cons_append, List.nil_append, Nat.add_zero]
    refine congrArg (fun l => setCtx s d k { ctx s d k with map := m ++ (_ :: l), mapReady := true })
      (List.map_congr_left fun j _ => ?_)
    simp only [Function.comp, Nat.succ_eq_add_one, Nat.add_assoc, Nat.add_comm 1]

theorem exec_nozzleMapLoadDone {s : State} {d k : Nat} (hd : d < s.part.dies) (hk : k < nCtx s) (hb : bound s d k = true)
    (hm : (ctx s d k).mapReady = false) :
    exec (.nozzleMapLoadDone d k) s = .next (mapLoad (cCount s d k + 1) s d k 0 []) :=
  if_pos ⟨hd, hk, hb, by rw [hm]; rfl⟩

/-- Settles O27: a load is `loadStart`, `loadCopy` and `loadShown`, the heater `htrFollow_spec`, the map `mapLoad_good`. -/
theorem waveformLoads : Obligations.WaveformLoads := by
  refine ⟨fun s r d p v h hp hl => ⟨fun hb => ?_, fun hb hsel hlo hhi => ?_⟩, fun s d p hd hecc hl hc => ?_,
    fun s d p hd hl hq => ⟨fun hlink => ?_, fun hlink => ?_⟩, fun s d p hd hl hq ht hb hp => ?_,
    fun s d p hd hp ha => ?_, fun s d k hd hk hecc hb hm => ?_⟩
  · exact .of (exec_wfLoadStart v h hp hl)
      (loadStart_active h.present (hb.trans (rf_wf_off _ _ _ _ _ _ _ _ _ _ (by decide)).symm))
  · refine .of (exec_wfLoadStart v h hp hl) (loadStart_begins ?_ ?_ ?_ ?_ (fld_lt _ _ _))
    · rwa [activeBank, rf_wf_off _ _ _ _ _ _ _ _ _ _ (by decide)]
    · exact hsel
    · rwa [rf_wf_off _ _ _ _ _ _ _ _ _ _ (by decide)]
    · rwa [rf_wf_off _ _ _ _ _ _ _ _ _ _ (by decide)]
  · refine .of (exec_wfLoadCopy hd hl hc) ?_
    obtain ⟨ht, hr⟩ := waits_keep (bankEnd s d p (port s d p).loadBank) s d (q := pgHp d p) (o := Off.WF_SRC) (by decide)
    obtain ⟨h1, h2⟩ := loadCopy_good ((eq_of_timeless State.ecc ht).trans hecc) d p
    refine ⟨h1, fun i hi => ?_⟩
    have h3 := h2 i hi
    rw [eq_of_timeless (port · d p) ht, rawWord, eq_of_timeless State.mem ht, rf, hr] at h3
    exact h3
  · obtain ⟨fs, hlen, hfs, hex⟩ := exec_wfLoadHead_up hd hl hq hlink
    refine .of hex ?_
    rw [port_setPort]
    refine ⟨rfl, rfl, by simp [hlen], List.prefix_append .., ?_⟩
    simpa using hfs
  · obtain ⟨h1, h2, -⟩ := loadFail_spec s d p 5
    exact .of (exec_wfLoadHead_down hd hl hq hlink) ⟨h1, h2⟩
  · refine .of (exec_loadDone hd hl hq ht) ?_
    obtain ⟨h1, h2⟩ := loadShown_spec (s := s) (d := d) (p := p) hb
    refine ⟨?_, ?_, rb_raise_same _ _ _ hp (by decide)⟩
    · rw [loadState, rf, rd_raise_off _ _ _ _ _ (by decide)]
      exact h1
    · rw [loaded, rb, rd_raise_off _ _ _ _ _ (by decide)]
      exact h2
  · have hres := htrReason_htrSeen s d (hp.trans_le (nPorts_le s))
    obtain ⟨h1, h2⟩ := htrFollow_spec
      (setPort (htrDue s d p) d p { port (htrDue s d p) d p with htrAt := some (htrDue s d p).clock }) d p
    have hlim : rf (htrSeen s d p) (pgHp d p) Off.HTR_LIMIT 14 10 = rf s (pgHp d p) Off.HTR_LIMIT 14 10 :=
      congrArg (fld · 14 10) ((rd_htrFollow _ _ _ _ (by decide) (by decide) (by decide)).trans
        ((htrDue_keeps s d p).2 _ (by decide)))
    rw [← htrReason_htrFollow, show htrFollow _ d p = htrSeen s d p from rfl, hres] at h1 h2
    by_cases hc : htrReason s d p = 0
    · obtain ⟨x, y, hex⟩ := exec_heaterUpdate_on hd hp ha (hres.trans hc)
      have hx := clampI_mem (Int.natCast_nonneg (rf s (pgHp d p) Off.HTR_LIMIT 14 10)) x
      have hy := clampI_mem (Int.natCast_nonneg (rf s (pgHp d p) Off.HTR_LIMIT 14 10)) y
      refine .of hex ⟨h1, fun _ => ?_, fun h => absurd hc h⟩
      rw [port_setPort, hlim]
      exact ⟨Int.toNat_le.2 hy.2, hx⟩
    · exact .of (exec_heaterUpdate_off hd hp ha (by rwa [hres])) ⟨h1, fun h => absurd h hc, h2⟩
  · refine .of (exec_nozzleMapLoadDone hd hk hb hm) ?_
    rw [mapLoad_good hecc, ctx_setCtx]
    refine ⟨rfl, fun i hi => ?_⟩
    have hget := Tbl.get_map (fun j => (⟨fld (rawWord s (lodeAddr d (af s d k 41 0 21 + 8 * j))) 21 3,
        fld (rawWord s (lodeAddr d (af s d k 41 0 21 + 8 * j))) 12 2⟩ : NzMap))
      (List.mem_range.2 (Nat.lt_succ_of_le hi)) {}
    simpa only [List.nil_append, Nat.zero_add] using hget

end Sys2Proof.Machine

namespace Sys2Proof.Machine
open Sys2Proof.Laws

/-! ### Words and their bytes (R312) -/

theorem wordBytes_bytesWord (a b c : Byte) : wordBytes (bytesWord a b c) = [a, b, c] := by
  have ha := a.isLt
  have hb := b.isLt
  have hc := c.isLt
  have hword : (bytesWord a b c).toNat = a.toNat + 256 * b.toNat + 65536 * c.toNat := by
    rw [bytesWord, word, BitVec.toNat_ofNat, Nat.mod_eq_of_lt (by omega)]
  simp only [wordBytes, hword, List.cons.injEq, and_true]
  refine ⟨?_, ?_, ?_⟩ <;> refine BitVec.eq_of_toNat_eq ?_ <;> rw [BitVec.toNat_ofNat] <;> omega

theorem memGet_memSet3_bytes (m : List Host.Cell) (a : Nat) (x y z : Byte) (k : Nat) :
    memGet (memSet3 m a (bytesWord x y z)) k =
      if a + 2 = k then z else if a + 1 = k then y else if a = k then x else memGet m k := by
  have h := wordBytes_bytesWord x y z
  simp only [wordBytes, List.cons.injEq, and_true] at h
  obtain ⟨h1, h2, h3⟩ := h
  simp only [memSet3, memGet_memSet, h1, h2, h3]

theorem wordBytes_getD (s : State) (a i : Nat) (h : i < 3) : (wordBytes (rawWord s a)).getD i 0#8 = memGet s.mem (a + i) := by
  rw [rawWord, wordBytes_bytesWord]
  interval_cases i <;> rfl

/-- The bytes of a memory word from one to another. -/
theorem wordBytes_slice (s : State) (a k m : Nat) (h : k + m ≤ 3) :
    ((wordBytes (rawWord s a)).drop k).take m = (List.range m).map fun j => memGet s.mem (a + k + j) := by
  refine List.ext_getElem? fun i => ?_
  rw [rawWord, wordBytes_bytesWord, List.getElem?_take, List.getElem?_drop, List.getElem?_map]
  by_cases hi : i < m
  · rw [if_pos hi, List.getElem?_range hi, Option.map_some]
    have hk : k + i < 3 := by omega
    have hread := wordBytes_getD s a (k + i) hk
    rw [rawWord, wordBytes_bytesWord, List.getD_eq_getElem?_getD, ← Nat.add_assoc] at hread
    rw [← hread, List.getElem?_eq_getElem hk]
    rfl
  · rw [if_neg hi, List.getElem?_eq_none (by simpa using Nat.not_lt.1 hi)]
    rfl

/-- A word with some bytes replaced stores those bytes. -/
theorem memGet_mergeBytes {s : State} {a k : Nat} {bs : List Byte} {v : Word} (h : k + bs.length ≤ 3)
    (hv : 3 ≤ bs.length ∨ v = rawWord s a) (x : Nat) :
    memGet (memSet3 s.mem a (mergeBytes v k bs)) x =
      if a + k ≤ x ∧ x < a + k + bs.length then bs.getD (x - (a + k)) 0#8 else memGet s.mem x := by
  have hbyte (i : Nat) (hi : i < 3) (hx : a + i = x) :
      (if k ≤ i ∧ i < k + bs.length then bs.getD (i - k) 0#8 else (wordBytes v).getD i 0#8) =
        if a + k ≤ x ∧ x < a + k + bs.length then bs.getD (x - (a + k)) 0#8 else memGet s.mem x := by
    by_cases hin : k ≤ i ∧ i < k + bs.length
    · rw [if_pos hin, if_pos (by omega), show x - (a + k) = i - k by omega]
    · rw [if_neg hin, if_neg (by omega), hv.resolve_left (by omega), wordBytes_getD _ _ _ hi, hx]
  simp only [mergeBytes, memGet_memSet3_bytes]
  split
  · exact hbyte 2 (by omega) (by assumption)
  · split
    · exact hbyte 1 (by omega) (by assumption)
    · split
      · exact hbyte 0 (by omega) (by assumption)
      · rw [if_neg (by omega)]

/-! ### Windows outside the descriptors -/

theorem wordAddr_eq (d : Nat) (dps : Bool) (w : Nat) : wordAddr d dps w = wordAddr d dps 0 + 3 * w := by
  cases dps <;> simp [wordAddr, lodeAddr, dpsAddr]

/-- No word is poisoned and none has a correctable error. -/
def AllGood (s : State) : Prop := ∀ a, eccOf s a = .good

theorem allGood_of_nil {s : State} (h : s.ecc = []) : AllGood s := fun a => by rw [eccOf, h]; rfl

theorem allGood_wrWord {s : State} (h : AllGood s) (a : Nat) (v : Word) : AllGood (wrWord s a v) := fun b => by
  rw [eccOf, wrWord, Tbl.get_put]
  split
  · rfl
  · exact h b

/-- The word of a memory belongs to no descriptor. -/
def PlainWord (s : State) (dps : Bool) (w : Nat) : Prop := (dps && isDescr s w) = false

theorem PlainWord.of_part {s t : State} {dps : Bool} {w : Nat} (h : PlainWord s dps w) (hpart : t.part = s.part) :
    PlainWord t dps w := by
  unfold PlainWord isDescr nCtx
  rw [hpart]
  exact h

theorem readWord_of_good {s : State} (h : AllGood s) (d : Nat) (dps : Bool) (w src : Nat) (eff : Option Link) (reason : Nat) :
    readWord s d dps w src eff reason = (rawWord s (wordAddr d dps w), false, s) := by
  simp only [readWord, h (wordAddr d dps w)]

theorem descrErr_of_plain {s : State} {dps : Bool} {w : Nat} (h : PlainWord s dps w) (r : Req) (d : Nat) :
    (if dps then descrErr s r d w else none) = none := by
  cases dps
  · rfl
  · simp_all [PlainWord, descrErr]

/-- A write within a word outside the descriptors stores its bytes and leaves every other byte. -/
theorem windowWord_plain {s : State} (hg : AllGood s) {dps : Bool} {w : Nat} (hp : PlainWord s dps w) (r : Req) (d k : Nat)
    {bs : List Byte} (hk : k + bs.length ≤ 3) :
    ∃ v, windowWord s r d dps w k bs false false = wrWord s (wordAddr d dps w) v ∧
      ∀ x, memGet (memSet3 s.mem (wordAddr d dps w) v) x =
        if wordAddr d dps w + k ≤ x ∧ x < wordAddr d dps w + k + bs.length then bs.getD (x - (wordAddr d dps w + k)) 0#8
        else memGet s.mem x := by
  have hstored (v : Word) : storedWord s d dps w v = v := by simp [storedWord, show (dps && isDescr s w) = false from hp]
  simp only [windowWord, descrErr_of_plain hp, wordWrite, readWord_of_good hg, hstored, Bool.false_eq_true, if_false]
  split
  · exact ⟨_, rfl, memGet_mergeBytes hk (.inl (by assumption))⟩
  · exact ⟨_, rfl, memGet_mergeBytes hk (.inr rfl)⟩

theorem touched_zero (f b : Nat) : touched f b 0 = [] := by cases f <;> rfl

/-- Bytes written word by word stand at their addresses, and no other byte changes. -/
theorem windowWrites_plain (r : Req) (d : Nat) (dps : Bool) (f b : Nat) (bs : List Byte) (s : State) (hf : bs.length ≤ f)
    (hg : AllGood s) (hp : ∀ w, b / 3 ≤ w → PlainWord s dps w) (x : Nat) :
    memGet (each (splitWords (touched f b bs.length) bs) s fun s x =>
      windowWord s r d dps x.1 x.2.1 x.2.2 false false).mem x =
      if wordAddr d dps 0 + b ≤ x ∧ x < wordAddr d dps 0 + b + bs.length then bs.getD (x - (wordAddr d dps 0 + b)) 0#8
      else memGet s.mem x := by
  induction f generalizing b bs s with
  | zero =>
    rw [if_neg (by omega)]
    rfl
  | succ f ih =>
    by_cases hbs : bs.length = 0
    · rw [hbs, touched_zero, if_neg (by omega)]
      rfl
    · set m := min (3 - b % 3) bs.length with hm
      have htouch : touched (f + 1) b bs.length = (b / 3, b % 3, m) :: touched f (b + m) (bs.length - m) := by
        obtain ⟨n, hn⟩ := Nat.exists_eq_succ_of_ne_zero hbs
        rw [hm, hn]
        rfl
      have hlen : (bs.take m).length = m := by rw [List.length_take]; omega
      obtain ⟨v, hv, hmem⟩ := windowWord_plain hg (hp (b / 3) le_rfl) r d (b % 3) (bs := bs.take m) (by omega)
      have hrest := ih (b + m) (bs.drop m) (wrWord s (wordAddr d dps (b / 3)) v) (by rw [List.length_drop]; omega)
        (allGood_wrWord hg _ _) fun w hw => hp w (by omega)
      rw [htouch]
      simp only [splitWords, each, List.foldl_cons, hv] at hrest ⊢
      rw [List.length_drop] at hrest
      rw [hrest, show (wrWord s (wordAddr d dps (b / 3)) v).mem = memSet3 s.mem (wordAddr d dps (b / 3)) v from rfl, hmem,
        wordAddr_eq d dps (b / 3), hlen, show wordAddr d dps 0 + 3 * (b / 3) + b % 3 = wordAddr d dps 0 + b by omega]
      by_cases h1 : wordAddr d dps 0 + b ≤ x ∧ x < wordAddr d dps 0 + b + m
      · rw [if_neg (by omega), if_pos h1, if_pos (by omega)]
        simp only [List.getD_eq_getElem?_getD, List.getElem?_take]
        rw [if_pos (by omega)]
      · rw [if_neg h1]
        by_cases h2 : wordAddr d dps 0 + (b + m) ≤ x ∧ x < wordAddr d dps 0 + (b + m) + (bs.length - m)
        · rw [if_pos h2, if_pos (by omega)]
          simp only [List.getD_eq_getElem?_getD, List.getElem?_drop]
          rw [show m + (x - (wordAddr d dps 0 + (b + m))) = x - (wordAddr d dps 0 + b) by omega]
        · rw [if_neg h2, if_neg (by omega)]

/-- Bytes read word by word are those stored, and reading them changes nothing. -/
theorem readBytes_plain {s : State} (hg : AllGood s) (d : Nat) (dps : Bool) (src f b n : Nat) (hf : n ≤ f)
    (hp : ∀ w, b / 3 ≤ w → PlainWord s dps w) :
    readBytes (touched f b n) s d dps src =
      ((List.range n).map fun j => memGet s.mem (wordAddr d dps 0 + b + j), false, s) := by
  induction f generalizing b n with
  | zero =>
    obtain rfl : n = 0 := by omega
    rfl
  | succ f ih =>
    by_cases hn : n = 0
    · subst hn
      rfl
    · set m := min (3 - b % 3) n with hm
      have htouch : touched (f + 1) b n = (b / 3, b % 3, m) :: touched f (b + m) (n - m) := by
        obtain ⟨k, rfl⟩ := Nat.exists_eq_succ_of_ne_zero hn
        rfl
      have hword : windowRead s d dps (b / 3) src = (rawWord s (wordAddr d dps (b / 3)), false, s) := by
        rw [windowRead, show (dps && isDescr s (b / 3)) = false from hp _ le_rfl]
        exact readWord_of_good hg ..
      simp only [htouch, readBytes, hword, ih (b + m) (n - m) (by omega) fun w hw => hp w (by omega), Bool.false_eq_true,
        if_false, wordBytes_slice s _ (b % 3) m (by omega), Bool.or_false]
      refine congrArg (·, false, s) ?_
      rw [wordAddr_eq d dps (b / 3), show wordAddr d dps 0 + 3 * (b / 3) + b % 3 = wordAddr d dps 0 + b by omega,
        show n = m + (n - m) by omega, List.range_add, List.map_append, List.map_map, Nat.add_sub_cancel_left]
      refine congrArg (_ ++ ·) (List.map_congr_left fun j _ => ?_)
      simp only [Function.comp, Nat.add_assoc]

/-- An access outside the descriptors, and the words it touches. -/
theorem memZone_plain {s : State} {off n : Nat} {dps : Bool} {b : Nat} (hz : memZone off n = some (dps, b))
    (hoff : OffDescr s off) : (∀ w, b / 3 ≤ w → PlainWord s dps w) ∧ ∀ d, wordAddr d dps 0 + b = d * 2 ^ 24 + off := by
  unfold memZone at hz
  split at hz
  · obtain ⟨rfl, rfl⟩ : true = dps ∧ off - 0x100000 = b := by simpa using hz
    refine ⟨fun w hw => ?_, fun d => ?_⟩
    · simp only [PlainWord, isDescr, Bool.true_and, decide_eq_false_iff_not]
      simp only [OffDescr] at hoff
      omega
    · simp only [wordAddr, dpsAddr, if_true]
      omega
  · split at hz
    · obtain ⟨rfl, rfl⟩ : false = dps ∧ off - 0x400000 = b := by simpa using hz
      refine ⟨fun _ _ => rfl, fun d => ?_⟩
      simp only [wordAddr, lodeAddr, Bool.false_eq_true, if_false]
      omega
    · cases hz

/-! ### Poisoned requests (R423) -/

/-- What a poisoned request leaves of what judges it. -/
theorem memTaken_poisonRx {s : State} {r : Req} {d off n : Nat} {write : Bool} (h : MemTaken s r d off n write) :
    MemTaken (poisonRx s) r d off n write := by
  obtain ⟨hpow, hans, z, hz, hperm⟩ := h
  have hpart : (poisonRx s).part = s.part := by simp [poisonRx]
  have hfence (i : Nat) : rb (poisonRx s) (pgFence 0) Off.FN_DIE_STAT i = rb s (pgFence 0) Off.FN_DIE_STAT i := by
    simp [poisonRx, rb]
  have hpkg : (poisonRx s).pkg = s.pkg := (eq_of_engines State.pkg (engines_raise ..)).trans rfl
  have hticks : (poisonRx s).ticks = s.ticks := (eq_of_engines State.ticks (engines_raise ..)).trans rfl
  have hclock : (poisonRx s).clock = s.clock := (eq_of_engines State.clock (engines_raise ..)).trans rfl
  have hguard : rd (poisonRx s) (pgGuard d) Off.GD_MEM = rd s (pgGuard d) Off.GD_MEM := by simp [poisonRx]
  refine ⟨?_, ?_, z, hz, ?_⟩
  · simpa only [powered, hpkg] using hpow
  · simpa only [dieAnswers, isolated, hpart, hfence] using hans
  · simpa only [memPermits, guardReg, hticks, hclock, hguard] using hperm

theorem touched_ge {f b n : Nat} {x : Nat × Nat × Nat} (h : x ∈ touched f b n) : b / 3 ≤ x.1 := by
  induction f generalizing b n with
  | zero => cases h
  | succ f ih =>
    cases n with
    | zero => cases h
    | succ n =>
      rcases List.mem_cons.1 h with rfl | h
      · exact le_rfl
      · exact (Nat.div_le_div_right (Nat.le_add_right ..)).trans (ih h)

theorem mem_splitWords {l : List (Nat × Nat × Nat)} {bs : List Byte} {x : Nat × Nat × List Byte} (h : x ∈ splitWords l bs) :
    ∃ y ∈ l, y.1 = x.1 := by
  induction l generalizing bs with
  | nil => cases h
  | cons a r ih =>
    rcases List.mem_cons.1 h with rfl | h
    · exact ⟨a, List.mem_cons_self .., rfl⟩
    · obtain ⟨y, hy, hyx⟩ := ih h
      exact ⟨y, List.mem_cons_of_mem _ hy, hyx⟩

/-- The words of a poisoned request are stored as poisoned; no byte and no register changes. -/
theorem poisonedWrites_plain (s : State) (r : Req) (d : Nat) (dps : Bool) {b : Nat}
    (hp : ∀ w, b / 3 ≤ w → PlainWord s dps w) (f n : Nat) (bs : List Byte) :
    (each (splitWords (touched f b n) bs) s fun s x => windowWord s r d dps x.1 x.2.1 x.2.2 true false).mem = s.mem ∧
    (each (splitWords (touched f b n) bs) s fun s x => windowWord s r d dps x.1 x.2.1 x.2.2 true false).regs = s.regs := by
  suffices h : ∀ l : List (Nat × Nat × List Byte), (∀ x ∈ l, b / 3 ≤ x.1) → ∀ u : State, u.part = s.part →
      (each l u fun s x => windowWord s r d dps x.1 x.2.1 x.2.2 true false).mem = u.mem ∧
      (each l u fun s x => windowWord s r d dps x.1 x.2.1 x.2.2 true false).regs = u.regs by
    refine h _ (fun x hx => ?_) s rfl
    obtain ⟨y, hy, hyx⟩ := mem_splitWords hx
    exact hyx ▸ touched_ge hy
  intro l
  induction l with
  | nil => exact fun _ _ _ => ⟨rfl, rfl⟩
  | cons x l ih =>
    intro hl u hu
    have hplain : PlainWord u dps x.1 := (hp x.1 (hl x (List.mem_cons_self ..))).of_part hu
    have hword : windowWord u r d dps x.1 x.2.1 x.2.2 true false = poisonWord u (wordAddr d dps x.1) := by
      simp only [windowWord, descrErr_of_plain hplain, if_true, Bool.false_eq_true, if_false]
    have hrest := ih (fun y hy => hl y (List.mem_cons_of_mem _ hy)) (poisonWord u (wordAddr d dps x.1)) hu
    simp only [each, List.foldl_cons, hword]
    exact hrest

/-- A poisoned write that lies in a memory and is let through goes word by word. -/
theorem memWrite_poisoned {s : State} {r : Req} {d off b : Nat} {dps : Bool} {bs : List Byte}
    (hzone : memZone off bs.length = some (dps, b)) (h : MemTaken s r d off bs.length true) :
    memWrite s r d off bs true [] = each (splitWords (touched bs.length b bs.length) bs) (poisonRx s) fun s x =>
      windowWord s r d dps x.1 x.2.1 x.2.2 true false := by
  obtain ⟨-, hans, z, hz, hperm⟩ := memTaken_poisonRx h
  obtain rfl : (dps, b) = z := Option.some.inj (hzone.symm.trans hz)
  simp [memWrite, h.1, hzone, hans, hperm]

/-! ### Accesses that the guard turns away (R381, R383) -/

theorem memWrite_denied {s : State} {r : Req} {d off : Nat} {bs : List Byte} (hpow : powered s = true)
    (hans : dieAnswers s r d = true) {z : Bool × Nat} (hz : memZone off bs.length = some z)
    (hperm : memPermits s r d z.1 true = false) : memWrite s r d off bs false [] = denyCount s r (ns d 0) true true := by
  simp [memWrite, hpow, hans, hz, hperm]

theorem memRead_denied {s : State} {r : Req} {d off n : Nat} (hpow : powered s = true)
    (hans : dieAnswers s r d = true) {z : Bool × Nat} (hz : memZone off n = some z)
    (hperm : memPermits s r d z.1 false = false) : memRead s r d off n =
      { denyCount s r (ns d 0) false true with resp := .bytes (List.replicate n 0#8) false } := by
  simp [memRead, hpow, hans, hz, hperm]

theorem denyCount_memory (s : State) (r : Req) (p : Pg) (write mem : Bool) :
    (denyCount s r p write mem).mem = s.mem ∧ (denyCount s r p write mem).ecc = s.ecc := by
  constructor
  · apply denyCount_inv (φ := State.mem)
    case hU => rfl
    all_goals exact fun _ _ => rfl
  · apply denyCount_inv (φ := State.ecc)
    case hU => rfl
    all_goals exact fun _ _ => rfl

/-- A read that is let through answers what it reads. -/
theorem memRead_of_taken {s : State} {r : Req} {d off n b : Nat} {dps : Bool} (hg : AllGood s) (hoff : OffDescr s off)
    (hzone : memZone off n = some (dps, b)) (h : MemTaken s r d off n false) :
    memRead s r d off n = { s with resp := .bytes ((List.range n).map fun j => memGet s.mem (d * 2 ^ 24 + off + j)) false } := by
  obtain ⟨hplain, haddr⟩ := memZone_plain hzone hoff
  obtain ⟨hpow, hans, z, hz, hperm⟩ := h
  obtain rfl : (dps, b) = z := Option.some.inj (hzone.symm.trans hz)
  have hread := readBytes_plain hg d dps (clsSrc r.cls) n b n le_rfl hplain
  rw [haddr] at hread
  simp [memRead, hpow, hzone, hans, hperm, hread, whenDo]

/-- A taken write of a shadow word of a descriptor, GO being 0, stores what its fields take. -/
theorem memWrite_shadowWord {s : State} {r : Req} {d k w : Nat} (hk : k < nCtx s) (hw : w < 56) (hgo : ctxGo s d k = false)
    (v : Word) (h : MemTaken s r d (0x100000 + 3 * (64 * k + w)) 3 true) :
    memWrite s r d (0x100000 + 3 * (64 * k + w)) (wordBytes v) false [] =
      wrWord s (dpsAddr d (64 * k + w)) (descWord w (rawWord s (dpsAddr d (64 * k + w))) v) := by
  have hdescr : isDescr s (64 * k + w) = true := by simp only [isDescr, decide_eq_true_eq]; omega
  have hmod : (64 * k + w) % 64 = w := by omega
  have hdiv : (64 * k + w) / 64 = k := by omega
  have herr : descrErr s r d (64 * k + w) = none := by
    simp [descrErr, hdescr, hmod, hdiv, hgo, Nat.not_le.2 hw]
  have hmerge : mergeBytes 0#24 0 (wordBytes v) = v := bytesWord_bytes v
  have hstored : storedWord s d true (64 * k + w) v = descWord w (rawWord s (dpsAddr d (64 * k + w))) v := by
    rw [storedWord, hdescr, hmod, decide_eq_true hw]
    rfl
  have hlen : (wordBytes v).length = 3 := rfl
  have hword := memWrite_descr_word (s := s) (r := r) (d := d) (j := 0) (bs := wordBytes v) hk (hw.trans (by decide))
    (List.cons_ne_nil _ _) le_rfl h []
  simp only [Nat.add_zero] at hword
  rw [hword, windowWord, if_pos rfl, herr]
  simp only [wordWrite, hlen, le_refl, if_true, hmerge, hstored, List.contains_nil, Bool.false_eq_true, if_false]
  rfl

/-- Settles O38: a window access outside the descriptors goes word by word (`windowWrites_plain`, `readBytes_plain`). -/
theorem memoryWindows : Obligations.MemoryWindows := by
  refine ⟨fun s r d off bs hecc hoff h => ?_, fun s r d off bs hpow hans z hz hperm => ?_,
    fun s r d k w v hk hw hgo h => ?_, fun s r d off n hecc hoff h => ?_, fun s r d off n hpow hans z hz hperm => ?_⟩
  · obtain ⟨⟨dps, b⟩, hz, -⟩ := h.2.2
    obtain ⟨hplain, haddr⟩ := memZone_plain hz hoff
    constructor
    · refine .of (exec_memWindowWrite ..) ?_
      have hmem := windowWrites_plain r d dps bs.length b bs s le_rfl (allGood_of_nil hecc) hplain
      rw [memWrite_of_taken hz h]
      simp only [List.contains_nil, Bool.and_false]
      refine ⟨fun j hj => ?_, fun x hx => ?_⟩
      · rw [hmem, haddr, if_pos (by omega), Nat.add_sub_cancel_left]
      · rw [hmem, haddr, if_neg (by omega)]
    · refine .of (exec_memWindowWrite ..) ?_
      rw [memWrite_poisoned hz h]
      have hpart : (poisonRx s).part = s.part := by simp [poisonRx]
      obtain ⟨hmem, hregs⟩ := poisonedWrites_plain (poisonRx s) r d dps (b := b)
        (fun w hw => (hplain w hw).of_part hpart) bs.length bs.length bs
      refine ⟨hmem.trans ((eq_of_engines State.mem (engines_raise ..)).trans rfl), ?_⟩
      rw [rd, hregs]
      exact (rd_raise_off _ _ _ _ _ (by decide)).trans (rd_wr_same ..)
  · refine .of (exec_memWindowWrite ..) ?_
    rw [memWrite_denied hpow hans hz hperm]
    exact denyCount_memory ..
  · refine .of (exec_descriptorWrite hk (hw.trans (by decide)) r d v) ?_
    rw [memWrite_shadowWord hk hw hgo v h]
    exact ⟨bytesWord_memSet3 .., fun x hx => memGet_memSet3 _ _ _ _ (by omega), rfl⟩
  · obtain ⟨⟨dps, b⟩, hz, -⟩ := h.2.2
    refine .of (show exec (.memWindowRead r d off n) s = .next (memRead s r d off n) from rfl) ?_
    rw [memRead_of_taken (allGood_of_nil hecc) hoff hz h]
    exact ⟨rfl, rfl⟩
  · refine .of (show exec (.memWindowRead r d off n) s = .next (memRead s r d off n) from rfl) ?_
    rw [memRead_denied hpow hans hz hperm]
    exact ⟨(denyCount_memory ..).1, rfl⟩

end Sys2Proof.Machine

namespace Sys2Proof.Machine
open Sys2Proof.Laws

/-! ### What the end of a message leaves (R360) -/

/-- An offset of no register that the end of a message in slot `n` writes. -/
def SlotApart (n o : Nat) : Prop :=
  o ≠ Off.EVT_LAT ∧ o ≠ Off.CNT_STALE ∧ o ≠ Off.CNT_ACK_DISCARD ∧ (o < mbOff n 0x100 ∨ mbOff n 0x200 ≤ o)

section
variable (s : State) (d : Nat) (sec : Bool) (n : Nat) {q : Pg} {o : Nat}

/-- Another page, or a register apart from those of the slot. -/
def ApartFrom (q : Pg) (o : Nat) : Prop := q ≠ pgMbox d sec ∨ SlotApart n o

variable {d sec n} in
theorem ApartFrom.of_page (h : q ≠ pgMbox d sec) : ApartFrom d sec n q o := .inl h

variable {d sec n} in
/-- A register of the slot is not written. -/
theorem ApartFrom.slot (h : ApartFrom d sec n q o) (k : Nat) (hk : 0x100 ≤ k) (hk2 : k < 0x200) :
    (q, o) ≠ (pgMbox d sec, mbOff n k) := by
  rintro ⟨⟩
  rcases h with h | ⟨-, -, -, h⟩
  · exact h rfl
  · unfold mbOff at h
    omega

variable {d sec n} in
/-- A counter of the page and its event register are not written. -/
theorem ApartFrom.count (h : ApartFrom d sec n q o) {k : Nat}
    (hk : k = Off.EVT_LAT ∨ k = Off.CNT_STALE ∨ k = Off.CNT_ACK_DISCARD) : (q, o) ≠ (pgMbox d sec, k) := by
  rintro ⟨⟩
  rcases h with h | ⟨h1, h2, h3, -⟩
  · exact h rfl
  · rcases hk with rfl | rfl | rfl
    · exact h1 rfl
    · exact h2 rfl
    · exact h3 rfl

theorem rd_raise_apart (s : State) (p : Pg) (i : Nat) {q : Pg} {o : Nat} (h : (q, o) ≠ (p, Off.EVT_LAT)) :
    rd (raise s p i) q o = rd s q o := by
  by_cases hq : p = q
  · exact rd_raise_off _ _ _ _ _ fun ho => h (by rw [hq, ho])
  · exact rd_raise_page _ _ _ _ _ hq

theorem rd_setInState {st : Nat} (h : ApartFrom d sec n q o) : rd (setInState s d sec n st) q o = rd s q o := by
  rw [setInState, wf, rd_wr_other _ _ _ _ _ _ (h.slot Off.IN_STAT (by decide) (by decide)).symm]

theorem rd_inLoad (ack : Word) {res : List Word} (hlen : res.length ≤ 8) (h : ApartFrom d sec n q o) :
    rd (inLoad s d sec n ack res) q o = rd s q o := by
  unfold inLoad
  by_cases hev : (q, o) = (pgMbox d sec, Off.EVT_LAT)
  · exact absurd hev (h.count (.inl rfl))
  dsimp only
  rw [rd_raise_apart _ _ _ hev, rd_setInState _ _ _ _ h]
  refine each_pres (P := fun t => rd t q o = rd s q o)
    (rd_wr_other _ _ _ _ _ _ (h.slot Off.IN_ACK (by decide) (by decide)).symm) fun t x hx ht => ?_
  have hi := snd_lt_of_mem_zipIdx hx
  have hslot := h.slot (Off.IN_RES + 4 * x.2) (by simp; omega) (by simp; omega)
  rw [show mbOff n (Off.IN_RES + 4 * x.2) = mbOff n Off.IN_RES + 4 * x.2 by unfold mbOff; omega] at hslot
  exact (rd_wr_other _ _ _ _ _ _ hslot.symm).trans ht

theorem rd_inRecord_apart (code : Nat) (res : List Word) (h : ApartFrom d sec n q o) :
    rd (inRecord s d sec n code res) q o = rd s q o := by
  have hlast := (h.slot Off.IN_LAST (by decide) (by decide)).symm
  have hstale := (h.count (.inr (.inl rfl))).symm
  unfold inRecord whenDo
  split
  · dsimp only
    rw [Machine.count, rd_wr_other _ _ _ _ _ _ hstale, rd_wr_other _ _ _ _ _ _ hlast, rd_setMbox]
  · rw [rd_wr_other _ _ _ _ _ _ hlast, rd_setMbox]

/-- The end of a message writes the registers of its slot, two counters and an event alone. -/
theorem rd_inFinish (code : Nat) {res : List Word} (hlen : res.length ≤ 8) (h : ApartFrom d sec n q o) :
    rd (inFinish s d sec n code res) q o = rd s q o := by
  rw [inFinish_eq]
  split
  · rw [rd_setInState _ _ _ _ h, Machine.count, rd_wr_other _ _ _ _ _ _ (h.count (.inr (.inr rfl))).symm,
      rd_inRecord_apart _ _ _ _ _ _ h]
  · split
    · rw [rd_setMbox, rd_inRecord_apart _ _ _ _ _ _ h]
    · rw [rd_inLoad _ _ _ _ _ hlen h, rd_inRecord_apart _ _ _ _ _ _ h]

theorem rd_inTake (h : ApartFrom d sec n q o) : rd (inTake s d sec n) q o = rd s q o := by
  unfold inTake
  dsimp only
  split
  · rw [rd_inFinish _ _ _ _ _ (by decide) h, rd_setMbox, rd_setInState _ _ _ _ h]
  · rw [rd_setMbox, rd_setInState _ _ _ _ h]

end

/-- A register below those of the slots is apart from every slot. -/
theorem apartFrom_low {d : Nat} {sec : Bool} (n : Nat) {q : Pg} {o : Nat} (h : o < 0x100) (h1 : o ≠ Off.EVT_LAT)
    (h2 : o ≠ Off.CNT_STALE) (h3 : o ≠ Off.CNT_ACK_DISCARD) : ApartFrom d sec n q o :=
  .inr ⟨h1, h2, h3, .inl (by unfold mbOff; omega)⟩

theorem apartFrom_other {d : Nat} {sec : Bool} {m n : Nat} {q : Pg} (h : m ≠ n) :
    ApartFrom d sec m q (mbOff n Off.IN_STAT) := by
  refine .inr ⟨?_, ?_, ?_, ?_⟩ <;> unfold mbOff <;> simp <;> omega

/-! ### A restart of the core (R362, R363) -/

/-- What a restart does with a slot of a page. -/
def restartSlot (d : Nat) (sec : Bool) (s : State) (n : Nat) : State :=
  if inState s d sec n = 2 ∧ (mbox s d (mbIx sec n)).held = none then
    let s1 := setInState (setMbox s d (mbIx sec n) { mbox s d (mbIx sec n) with result := none }) d sec n 1
    if running s (pgMbox d sec) || fenced s (pgMbox d sec) then s1 else inFinish s1 d sec n 0x0C []
  else s

/-- The new epoch of a page. -/
def restartEpoch (d : Nat) (s : State) (sec : Bool) : State :=
  raise (wf s (pgMbox d sec) Off.MB_EPOCH 8 8 (fwEpoch s d sec + 1)) (pgMbox d sec) 16

/-- What a restart does with a page. -/
def restartPage (d : Nat) (s : State) (sec : Bool) : State := each (List.range 4) (restartEpoch d s sec) (restartSlot d sec)

/-- The core is down, and its long command is lost. -/
def coreDown (s : State) (d cause : Nat) : State :=
  longFollow (setFwUp (setFw s d { (fw s d) with long := none, cause := cause }) d false) d

theorem fwRestart_eq (s : State) (d cause : Nat) :
    fwRestart s d cause = restartPage d (restartPage d (coreDown s d cause) false) true := by
  unfold fwRestart restartPage coreDown restartEpoch
  dsimp only [each, List.foldl]
  rfl

section
variable (s : State) (d : Nat) (sec : Bool) {q : Pg} {o : Nat}

theorem rd_restartSlot {m : Nat} (h : ApartFrom d sec m q o) : rd (restartSlot d sec s m) q o = rd s q o := by
  unfold restartSlot
  dsimp only
  split
  · split
    · rw [rd_setInState _ _ _ _ h, rd_setMbox]
    · rw [rd_inFinish _ _ _ _ _ (by decide) h, rd_setInState _ _ _ _ h, rd_setMbox]
  · rfl

theorem rd_restartSlots (h : ∀ n, ApartFrom d sec n q o) : rd (restartPage d s sec) q o = rd (restartEpoch d s sec) q o :=
  each_pres (P := fun t => rd t q o = rd (restartEpoch d s sec) q o) rfl fun _ m _ ht => (rd_restartSlot _ _ _ (h m)).trans ht

theorem rd_restartEpoch (h : (q, o) ≠ (pgMbox d sec, Off.MB_EPOCH)) (hl : (q, o) ≠ (pgMbox d sec, Off.EVT_LAT)) :
    rd (restartEpoch d s sec) q o = rd s q o := by
  rw [restartEpoch, rd_raise_apart _ _ _ hl, wf, rd_wr_other _ _ _ _ _ _ h.symm]

theorem rd_restartPage_page (h : q ≠ pgMbox d sec) : rd (restartPage d s sec) q o = rd s q o := by
  rw [rd_restartSlots _ _ _ fun n => .of_page h, rd_restartEpoch _ _ _ (fun e => h (congrArg Prod.fst e))
    fun e => h (congrArg Prod.fst e)]

theorem fwEpoch_restartPage : fwEpoch (restartPage d s sec) d sec = (fwEpoch s d sec + 1) % 256 := by
  rw [fwEpoch, rf, rd_restartSlots _ _ _ fun n => apartFrom_low n (by decide) (by decide) (by decide) (by decide), restartEpoch,
    rd_raise_off _ _ _ _ _ (by decide)]
  exact rf_wf_same _ _ _ _ _ _ (by decide)

theorem fwEpoch_restartPage_other {sec' : Bool} (h : sec' ≠ sec) : fwEpoch (restartPage d s sec) d sec' = fwEpoch s d sec' := by
  have hpg : pgMbox d sec' ≠ pgMbox d sec := by
    cases sec <;> cases sec' <;> simp_all [pgMbox, ns, sp]
  rw [fwEpoch, rf, rd_restartPage_page _ _ _ hpg, fwEpoch, rf]

theorem fwUp_restartPage : fwUp (restartPage d s sec) d = fwUp s d := by
  rw [fwUp, rb, rd_restartSlots _ _ _ fun n => apartFrom_low n (by decide) (by decide) (by decide) (by decide),
    rd_restartEpoch _ _ _ (by simp) (by simp), fwUp, rb]

theorem fw_restartPage (e : Nat) : fw (restartPage d s sec) e = fw s e := by
  refine each_pres (P := fun t => fw t e = fw s e) (eq_of_engines (fw · e) (engines_raise ..)) fun t m _ ht => ?_
  unfold restartSlot
  dsimp only
  split
  · split
    · exact ht
    · refine Eq.trans ?_ ht
      apply inFinish_inv (φ := (fw · e))
      case hU => rfl
      all_goals exact fun _ _ => rfl
  · exact ht

/-- A slot that holds an acknowledged message keeps it. -/
theorem inState_restartPage {n : Nat} (h : inState s d sec n ≠ 2) : inState (restartPage d s sec) d sec n = inState s d sec n := by
  have hep : inState (restartEpoch d s sec) d sec n = inState s d sec n := by
    rw [inState, rf, rd_restartEpoch _ _ _ (by simp [mbOff]; omega) (by simp [mbOff]; omega), inState, rf]
  refine each_pres (P := fun t => inState t d sec n = inState s d sec n) hep fun t m _ ht => ?_
  by_cases hm : m = n
  · subst hm
    rw [restartSlot, if_neg (fun hc => h (ht ▸ hc.1)), ht]
  · rw [← ht, inState, rf, rd_restartSlot _ _ _ (apartFrom_other hm), inState, rf]

end

theorem fw_coreDown (s : State) (d cause : Nat) : fw (coreDown s d cause) d = { fw s d with long := none, cause := cause } := by
  exact fw_setFw ..

theorem fwUp_coreDown (s : State) (d cause : Nat) : fwUp (coreDown s d cause) d = false := by
  have hpg : pgMbox d true ≠ pgMbox d false := by simp [pgMbox, ns, sp]
  unfold coreDown longFollow setFwUp fwUp
  exact (congrArg (bit · 0) (rd_wr_page _ _ _ _ _ _ hpg)).trans ((rb_wb_apart _ _ _ _ _ _ (by decide)).trans
    ((congrArg (bit · 0) (rd_wr_page _ _ _ _ _ _ hpg)).trans (rb_wb_same _ _ _ _ _ (by decide))))

theorem rd_coreDown (s : State) (d cause : Nat) (q : Pg) {o : Nat} (h : Off.MB_STAT ≠ o) : rd (coreDown s d cause) q o = rd s q o := by
  unfold coreDown longFollow setFwUp
  dsimp only
  simp only [wb, rd_wr_off _ _ _ _ _ _ h, rd_setFw]

/-- A restart takes firmware down, advances the epoch of both pages and ends the long command. -/
theorem fwRestart_spec (s : State) (d cause : Nat) : fwUp (fwRestart s d cause) d = false ∧
    (∀ sec, fwEpoch (fwRestart s d cause) d sec = (fwEpoch s d sec + 1) % 256) ∧
    fw (fwRestart s d cause) d = { fw s d with long := none, cause := cause } := by
  have hep (sec : Bool) : fwEpoch (coreDown s d cause) d sec = fwEpoch s d sec := by
    rw [fwEpoch, rf, rd_coreDown _ _ _ _ (by decide), fwEpoch, rf]
  rw [fwRestart_eq]
  refine ⟨by rw [fwUp_restartPage, fwUp_restartPage, fwUp_coreDown], fun sec => ?_,
    by rw [fw_restartPage, fw_restartPage, fw_coreDown]⟩
  cases sec
  · rw [fwEpoch_restartPage_other _ _ _ (by decide), fwEpoch_restartPage, hep]
  · rw [fwEpoch_restartPage, fwEpoch_restartPage_other _ _ _ (by decide), hep]

theorem inState_fwRestart (s : State) (d cause n : Nat) (h : inState s d true n ≠ 2) :
    inState (fwRestart s d cause) d true n = inState s d true n := by
  have hdown : inState (restartPage d (coreDown s d cause) false) d true n = inState s d true n := by
    rw [inState, rf, rd_restartPage_page _ _ _ (by simp [pgMbox, ns, sp]), rd_coreDown _ _ _ _ (by simp [mbOff]; omega), inState, rf]
  rw [fwRestart_eq, inState_restartPage _ _ _ (by rwa [hdown]), hdown]

theorem exec_fwRestart {s : State} {d n : Nat} (hr : inReady s d true n 0x40 = true) (hl : inLen s d true n = 0) :
    exec (.fwRestart d true n) s = .next (fwRestart (inFinish s d true n 0 []) d 2) := by
  refine congrArg Host.Outcome.next ((if_pos hr).trans ?_)
  rw [hl]
  rfl

theorem exec_fwWatchdogRestart {s : State} {d : Nat} (hd : d < s.part.dies) (h : fwLive s d = true) :
    exec (.fwWatchdogRestart d) s = .next (fwRestart s d 3) :=
  congrArg Host.Outcome.next (if_pos ⟨hd, h⟩)

/-! ### The start of the core, and the limit of a long command (R366, R367) -/

theorem fwUp_setFwUp (s : State) (d : Nat) (b : Bool) : fwUp (setFwUp s d b) d = b := by
  have hpg : pgMbox d true ≠ pgMbox d false := by simp [pgMbox, ns, sp]
  exact (congrArg (bit · 0) (rd_wr_page _ _ _ _ _ _ hpg)).trans (rb_wb_same _ _ _ _ _ (by decide))

theorem fwUp_noticeOn (s : State) (d : Nat) (sec : Bool) (n code : Nat) (args : List Word) :
    fwUp (noticeOn s d sec n code args) d = fwUp s d := by
  unfold noticeOn fwUp
  dsimp only
  split
  · rfl
  · split
    · exact congrArg (bit · 0) ((rd_raise_off _ _ _ _ _ (by decide)).trans (rd_count_off _ _ _ _ _ (by decide)))
    · exact congrArg (bit · 0) (rd_wr_off _ _ _ _ _ _ (by unfold mbOff; simp; omega))

theorem fwUp_fwStartNote (s : State) (d : Nat) : fwUp (fwStartNote s d) d = fwUp s d := by
  unfold fwStartNote notice
  split
  · rw [fwUp_noticeOn, fwUp_noticeOn]
  · rfl

theorem exec_fwStarted {s : State} {d : Nat} (hd : d < s.part.dies) (hup : fwUp s d = false) (ha : awake s d = true)
    (hc : (fw s d).cause ≠ 0) : ∃ l : List (Bool × Nat),
      exec (.fwStarted d) s = .next (each l (fwStartNote (setFwUp s d true) d) fun s x => inTake s d x.1 x.2) :=
  ⟨_, congrArg Host.Outcome.next (if_pos ⟨hd, ha, by simp [hup], hc⟩)⟩

theorem exec_longCmdTimeout {s : State} {d n : Nat} (hd : d < s.part.dies) (h : fwLive s d = true) {l : LongCmd}
    (hl : (fw s d).long = some l) (hn : longLimit l = some n) (hr : longResult s d l = none) :
    exec (.longCmdTimeout d) s = .next (longEnd (waitClock s (l.start + n)) d 0x0B) := by
  refine congrArg Host.Outcome.next ((if_pos ⟨hd, h⟩).trans ?_)
  simp only [hl, hn, hr]

/-- A long command that ends leaves the die without one. -/
theorem longEnd_long (s : State) (d code : Nat) : (fw (longEnd s d code) d).long = none := by
  unfold longEnd
  split
  · assumption
  · rename_i l hl
    dsimp only
    generalize (if l.cmd = 7 ∧ code = 0x0B then s else longAbandon s d l) = u
    have hset : (fw (setLong u d none) d).long = none := congrArg FwSt.long (fw_setFw ..)
    refine Eq.trans ?_ hset
    apply inFinish_inv (φ := fun t => (fw t d).long)
    case hU => rfl
    all_goals exact fun _ _ => rfl

theorem clock_longEnd (s : State) (d code : Nat) : (longEnd s d code).clock = s.clock := by
  apply longEnd_inv (φ := State.clock)
  case hU => rfl
  all_goals exact fun _ _ => rfl

/-! ### The clear of the tally board (R403) -/

theorem retRaw_retWrite (s : State) (d w k : Nat) (v : Word) :
    retRaw (retWrite s d w v) d k = if w = k then v else retRaw s d k := by
  split
  · subst w
    exact bytesWord_memSet3 ..
  · have hapart (i : Nat) (hi : i < 3) : memGet (memSet3 s.ret (retAddr d w) v) (retAddr d k + i) = memGet s.ret (retAddr d k + i) :=
      memGet_memSet3 _ _ _ _ (by unfold retAddr; omega)
    have h0 := hapart 0 (by decide)
    rw [Nat.add_zero] at h0
    rw [retRaw, retWrite_ret, h0, hapart 1 (by decide), hapart 2 (by decide), retRaw]

theorem retRaw_zero {s : State} {d k : Nat} (h : retRaw s d k = 0#24) (w : Nat) : retRaw (retWrite s d w 0#24) d k = 0#24 := by
  rw [retRaw_retWrite, h, ite_self]

/-- The board after its entries are cleared. -/
def boardCleared (s : State) (d mask : Nat) : State :=
  let s1 := each (bitsSet 9 mask) s fun s st => retWrite (retWrite s d (tlWord st 0) 0#24) d (tlWord st 1) 0#24
  if mask % 512 = 511 then retWrite s1 d 17 0#24 else s1

theorem retRaw_boardCleared (s : State) (d : Nat) {mask st : Nat} (h : st ∈ bitsSet 9 mask) :
    retRaw (boardCleared s d mask) d (tlWord st 0) = 0#24 := by
  have hloop := each_once (P := fun _ => True) (Q := fun t => retRaw t d (tlWord st 0) = 0#24)
    (f := fun s st => retWrite (retWrite s d (tlWord st 0) 0#24) d (tlWord st 1) 0#24) (s := s) h
    (List.Nodup.filter _ List.nodup_range) trivial (fun _ _ _ _ => trivial)
    (fun t _ => retRaw_zero (by rw [retRaw_retWrite, if_pos rfl]) _) fun t y _ ht => retRaw_zero (retRaw_zero ht _) _
  unfold boardCleared
  dsimp only
  split
  · exact retRaw_zero hloop _
  · exact hloop

theorem rd_retWrite (s : State) (d w : Nat) (v : Word) {q : Pg} (o : Nat) (h : pgRetain d ≠ q) :
    rd (retWrite s d w v) q o = rd s q o :=
  (rd_wr48_page _ _ _ _ _ _ h :)

/-- The retention store has its own page. -/
theorem pgRetain_ne_pgTally (d : Nat) : pgRetain d ≠ pgTally d := by simp [pgRetain, pgTally, ns]

theorem rd_boardCleared (s : State) (d mask o : Nat) : rd (boardCleared s d mask) (pgTally d) o = rd s (pgTally d) o := by
  have hw (t : State) (w : Nat) (v : Word) : rd (retWrite t d w v) (pgTally d) o = rd t (pgTally d) o :=
    rd_retWrite _ _ _ _ _ (pgRetain_ne_pgTally d)
  have hloop : rd (each (bitsSet 9 mask) s fun s st => retWrite (retWrite s d (tlWord st 0) 0#24) d (tlWord st 1) 0#24)
      (pgTally d) o = rd s (pgTally d) o :=
    each_pres (P := fun t => rd t (pgTally d) o = rd s (pgTally d) o) rfl fun _ _ _ ht => (hw ..).trans ((hw ..).trans ht)
  unfold boardCleared
  dsimp only
  split
  · exact (hw ..).trans hloop
  · exact hloop

/-- The page's copy of a step's first word. -/
theorem rd_tlCopies (s : State) (d : Nat) {st : Nat} (h : st < 9) :
    rd (tlCopies s d) (pgTally d) (Off.TL_STEP + 4 * st) = retRaw s d (tlWord st 0) := by
  refine each_once (P := fun t => t.ret = s.ret) (f := fun s st => wr s (pgTally d) (Off.TL_STEP + 4 * st) (retRaw s d (tlWord st 0)))
    (Q := fun t => rd t (pgTally d) (Off.TL_STEP + 4 * st) = retRaw s d (tlWord st 0)) (List.mem_range.2 h)
    List.nodup_range rfl (fun _ _ _ ht => ht) (fun t ht => ?_) fun t y hy ht => ?_
  · rw [rd_wr_same, retRaw, ht, retRaw]
  · exact (rd_wr_off _ _ _ _ _ _ (by omega)).trans ht

/-- The copies are written below `TL_CLEAR`. -/
theorem rd_tlCopies_clear (s : State) (d : Nat) : rd (tlCopies s d) (pgTally d) Off.TL_CLEAR = rd s (pgTally d) Off.TL_CLEAR :=
  each_pres (P := fun t => rd t (pgTally d) Off.TL_CLEAR = rd s (pgTally d) Off.TL_CLEAR) (rd_wr_off _ _ _ _ _ _ (by decide))
    fun t st hst ht => (rd_wr_off _ _ _ _ _ _ (by have := List.mem_range.1 hst; simp; omega)).trans ht

theorem ret_tlCopies (s : State) (d : Nat) : (tlCopies s d).ret = s.ret :=
  each_pres (P := fun t => t.ret = s.ret) rfl fun _ _ _ ht => ht

/-- The board's page after a clear. -/
def clearShown (s : State) (d : Nat) (left : Word) : State :=
  wb (wr s (pgTally d) Off.TL_CLEAR left) (pgTally d) Off.TL_STAT 0 (decide (left ≠ 0#24))

theorem tallyClear_eq (s : State) (d mask : Nat) : tallyClear s d mask =
    raise (clearShown (tlCopies (boardCleared s d mask) d) d
      (rd (tlCopies (boardCleared s d mask) d) (pgTally d) Off.TL_CLEAR &&& ~~~ word (mask % 512))) (pgTally d) 1 := rfl

theorem ret_clearShown (s : State) (d : Nat) (left : Word) : (clearShown s d left).ret = s.ret := rfl

theorem part_boardCleared (s : State) (d mask : Nat) : (boardCleared s d mask).part = s.part := by
  have hloop : (each (bitsSet 9 mask) s fun s st => retWrite (retWrite s d (tlWord st 0) 0#24) d (tlWord st 1) 0#24).part =
      s.part := each_pres (P := fun t => t.part = s.part) rfl fun _ _ _ ht => ht
  unfold boardCleared
  dsimp only
  split
  · exact hloop
  · exact hloop

theorem part_clearShown (s : State) (d : Nat) (left : Word) : (clearShown s d left).part = s.part := rfl

theorem part_tlCopies (s : State) (d : Nat) : (tlCopies s d).part = s.part :=
  each_pres (P := fun t => t.part = s.part) rfl fun _ _ _ ht => ht

theorem present_clearShown (s : State) (d mask : Nat) (left : Word) (q : Pg) :
    present (clearShown (tlCopies (boardCleared s d mask) d) d left) q = present s q :=
  congrArg (fun p => p.present q) (((part_clearShown ..).trans (part_tlCopies ..)).trans (part_boardCleared s d mask))

theorem and_not_word {m : Word} (h : m &&& 0x1FF#24 = m) : m &&& ~~~ word (m.toNat % 512) = 0#24 := by
  have hlt : m.toNat < 512 := by
    rw [← h, BitVec.toNat_and]
    exact Nat.lt_succ_of_le Nat.and_le_right
  rw [Nat.mod_eq_of_lt hlt, word, BitVec.ofNat_toNat, BitVec.setWidth_eq, BitVec.and_not_self]
  rfl

theorem exec_tlClear {s : State} {r : Req} {d : Nat} {v : Word} (h : Taken s r (pgTally d) Off.TL_CLEAR) :
    exec (.tlClear r d v) s = .next (tlClearWrite d v (touchSession s r (pgTally d))) :=
  congrArg Host.Outcome.next (guardedWrite_of_taken h _)

theorem exec_cleared {s : State} {d : Nat} (hd : d < s.part.dies) (hup : fwUp s d = true) (hm : 2 ≤ modeOf s d)
    (hc : rd s (pgTally d) Off.TL_CLEAR ≠ 0#24) :
    exec (.cleared d) s = .next (tallyClear s d (rd s (pgTally d) Off.TL_CLEAR).toNat) :=
  congrArg Host.Outcome.next (if_pos ⟨hd, hup, hm, hc⟩)

theorem mem_bitsSet {n v i : Nat} : i ∈ bitsSet n v ↔ i < n ∧ v.testBit i = true := by simp [bitsSet]

/-- Settles O46: a restart is `fwRestart_spec`, a clear `tallyClear_eq`. -/
theorem firmwareRestarts : Obligations.FirmwareRestarts := by
  refine ⟨fun s d n hr hl hf hdis => ?_, fun s d hd => ⟨fun h => ?_, fun hup ha hc => ?_, fun h l hl n hn hres => ?_⟩,
    fun s r d v h => ?_, fun s d hd hup hm hc hmask hp => ?_⟩
  · refine .of (exec_fwRestart hr hl) ?_
    simp only [inReady, Bool.and_eq_true, decide_eq_true_eq] at hr
    obtain ⟨⟨⟨⟨⟨⟨⟨hd, hn⟩, -⟩, -⟩, -⟩, -⟩, -⟩, -⟩ := hr
    have hdone := (inFinish_loaded s d true n (code := 0) (res := []) hn (present_pgMbox true hd) hdis hf (by decide)
      (by decide)).1
    obtain ⟨h1, h2, h3⟩ := fwRestart_spec (inFinish s d true n 0 []) d 2
    refine ⟨h1, fun sec => ?_, by rw [h3], ?_⟩
    · rw [h2, fwEpoch, rf, rd_inFinish _ _ _ _ _ (by decide)
        (apartFrom_low n (by decide) (by decide) (by decide) (by decide)), fwEpoch, rf]
    · rw [inState_fwRestart _ _ _ _ (by rw [hdone]; decide), hdone]
  · refine .of (exec_fwWatchdogRestart hd h) ?_
    obtain ⟨h1, h2, h3⟩ := fwRestart_spec s d 3
    exact ⟨h1, by rw [h3], by rw [h3], h2⟩
  · obtain ⟨l, hex⟩ := exec_fwStarted hd hup ha hc
    refine .of hex (each_pres (P := fun t => fwUp t d = true) ?_ fun t x _ ht => ?_)
    · rw [fwUp_fwStartNote, fwUp_setFwUp]
    · rw [fwUp, rb, rd_inTake _ _ _ _ (apartFrom_low x.2 (by decide) (by decide) (by decide) (by decide))]
      exact ht
  · refine .of (exec_longCmdTimeout hd h hl hn hres) ⟨longEnd_long .., ?_⟩
    rw [clock_longEnd, waitClock_clock]
    exact le_max_right ..
  · refine .of (exec_tlClear h) ⟨?_, eq_of_timeless State.ret (timeless_touchSession ..)⟩
    unfold tlClearWrite
    dsimp only
    rw [wb, rd_wr_off _ _ _ _ _ _ (by decide), rd_wr_same, rd_touchSession]
  · refine .of (exec_cleared hd hup hm hc) ?_
    rw [tallyClear_eq]
    refine ⟨?_, rb_raise_same _ _ _ ((present_clearShown ..).trans hp) (by decide), fun st hst hbit => ?_⟩
    · rw [rd_raise_off _ _ _ _ _ (by decide), clearShown, wb, rd_wr_off _ _ _ _ _ _ (by decide), rd_wr_same,
        rd_tlCopies_clear, rd_boardCleared]
      exact and_not_word hmask
    · have hin : st ∈ bitsSet 9 (rd s (pgTally d) Off.TL_CLEAR).toNat :=
        mem_bitsSet.2 ⟨hst, by rw [Nat.testBit_eq_decide_div_mod_eq]; exact decide_eq_true hbit⟩
      have hzero := retRaw_boardCleared s d hin
      refine ⟨?_, ?_⟩
      · rw [retRaw, eq_of_engines State.ret (engines_raise ..)]
        rw [ret_clearShown, ret_tlCopies]
        exact hzero
      · rw [rd_raise_off _ _ _ _ _ (by simp; omega), clearShown, wb, rd_wr_off _ _ _ _ _ _ (by simp; omega),
          rd_wr_off _ _ _ _ _ _ (by simp; omega), rd_tlCopies _ _ hst, hzero]

end Sys2Proof.Machine

namespace Sys2Proof.Machine
open Sys2Proof.Laws

/-! ### Fetching an instruction (R271) -/

section
variable {s : State} {d c : Nat} {ws : List Word}

/-- Words of the program without check errors are fetched as they stand. -/
theorem hcFetch_good (hecc : s.ecc = []) (n w : Nat)
    (h : ∀ i < n, progWord s d c (w + i) = true ∧ rawWord s (wordAddr d true (w + i)) = iw ws i) :
    hcFetch n s d c w = (some ((List.range n).map (iw ws)), s) := by
  suffices hgen : ∀ k, (∀ i < n, progWord s d c (w + i) = true ∧ rawWord s (wordAddr d true (w + i)) = iw ws (k + i)) →
      hcFetch n s d c w = (some ((List.range n).map fun i => iw ws (k + i)), s) by
    simpa only [Nat.zero_add] using hgen 0 (by simpa only [Nat.zero_add] using h)
  intro k hk
  clear h
  induction n generalizing w k with
  | zero => rfl
  | succ n ih =>
    obtain ⟨hp, hw⟩ := hk 0 (Nat.succ_pos n)
    have hrest := ih (w + 1) (k + 1) fun i hi => by
      have := hk (i + 1) (Nat.succ_lt_succ hi)
      simpa only [Nat.add_assoc, Nat.add_comm 1] using this
    simp only [Nat.add_zero] at hp hw
    simp only [hcFetch, hp, Bool.not_true, Bool.false_eq_true, if_false, readWord_of_good (allGood_of_nil hecc), hrest, hw,
      Option.map_some, List.range_succ_eq_map, List.map_cons, List.map_map, Nat.add_zero]
    refine congrArg (fun l => (some (_ :: l), s)) (List.map_congr_left fun i _ => ?_)
    simp only [Function.comp, Nat.succ_eq_add_one, Nat.add_assoc, Nat.add_comm 1]

theorem map_iw (ws : List Word) : (List.range ws.length).map (iw ws) = ws := by
  refine List.ext_getElem (by simp) fun i h1 h2 => ?_
  simp [iw, h2]

/-- The channel that is about to execute runs and does not wait to abort. -/
theorem HoistDue.on (h : hcReady s d c = true) :
    c < 32 ∧ running s (pgHc d c) = true ∧ (hoist s d c).cs = 2 := by
  simp only [hcReady, hcOn, Bool.and_eq_true, decide_eq_true_eq] at h
  exact ⟨h.1.1.1.1.1.1.1, h.1.1.1.1.2, h.1.1.1.2⟩

theorem HoistDue.move_none (h : hcReady s d c = true) : (hoist s d c).move = none := by
  simp only [hcReady, Bool.and_eq_true, Option.isNone_iff_eq_none] at h
  exact h.1.1.2

/-- An instruction that is due is refused or carried out. -/
theorem hcInstr_due (h : HoistDue s d c ws) {op : Nat} (hop : fld (iw ws 0) 20 4 = op) (bad : List Word → Bool)
    (eff : State → List Word → State) :
    hcInstr s d c op bad eff = if bad ws then hcHalt s d c 6 (hoist s d c).pc else eff s ws := by
  obtain ⟨hready, hecc, hlen, hwords⟩ := h
  have hpos : 0 < ws.length := by
    rcases Nat.eq_zero_or_pos ws.length with h0 | h0
    · rw [h0] at hlen
      unfold opWords at hlen
      split at hlen <;> cases hlen
    · exact h0
  have hfirst := hcFetch_good (c := c) (ws := ws) hecc 1 (hoist s d c).pc fun i hi => hwords i (by omega)
  have hrest := hcFetch_good (c := c) (ws := ws.tail) hecc (ws.length - 1) ((hoist s d c).pc + 1) fun i hi => by
    have := hwords (i + 1) (by omega)
    rw [Nat.add_assoc, Nat.add_comm 1]
    simpa [iw] using this
  have hall : iw ws 0 :: (List.range (ws.length - 1)).map (iw ws.tail) = ws := by
    cases ws with
    | nil => cases hpos
    | cons a r => exact congrArg (a :: ·) (map_iw r)
  rw [hop] at hlen
  unfold hcInstr
  simp only [hready, Bool.not_true, Bool.false_eq_true, if_false, hfirst, List.range_one, List.map_cons, List.map_nil,
    List.headD_cons, hlen, hop, ne_eq, not_true_eq_false, hrest, List.cons_append, List.nil_append, hall]

/-- A refused instruction halts the channel. -/
theorem hcHalt_ready (h : hcReady s d c = true) {code : Nat} (hcode : code < 256) (h3 : code ≠ 3) (w : Nat) :
    Halted (hcHalt s d c code w) d c code := by
  obtain ⟨hc, hrun, hcs⟩ := HoistDue.on h
  exact hcHalt_spec _ d hc hrun (by rw [hcs]; decide) hcode h3

theorem hcInstr_bad (h : HoistDue s d c ws) {op : Nat} (hop : fld (iw ws 0) 20 4 = op) {bad : List Word → Bool}
    (hbad : bad ws = true) (eff : State → List Word → State) : Halted (hcInstr s d c op bad eff) d c 6 := by
  rw [hcInstr_due h hop, if_pos hbad]
  exact hcHalt_ready h.1 (by decide) (by decide) _

theorem hcInstr_good (h : HoistDue s d c ws) {op : Nat} (hop : fld (iw ws 0) 20 4 = op) {bad : List Word → Bool}
    (hbad : bad ws = false) (eff : State → List Word → State) : hcInstr s d c op bad eff = eff s ws := by
  rw [hcInstr_due h hop, hbad]
  exact if_neg Bool.false_ne_true

/-- A pc outside the program halts with code 7. -/
theorem hcInstr_outside (h : hcReady s d c = true) (hpc : progWord s d c (hoist s d c).pc = false) (op : Nat)
    (bad : List Word → Bool) (eff : State → List Word → State) : Halted (hcInstr s d c op bad eff) d c 7 := by
  unfold hcInstr
  simp only [h, Bool.not_true, Bool.false_eq_true, if_false, hcFetch, hpc, Bool.not_false, if_true]
  exact hcHalt_ready h (by decide) (by decide) _

/-- A word without a listed opcode halts with code 6. -/
theorem hcInstr_unlisted (h : hcReady s d c = true) (hecc : s.ecc = []) (hpc : progWord s d c (hoist s d c).pc = true)
    (hop : opWords (fld (rawWord s (wordAddr d true (hoist s d c).pc)) 20 4) = none) (op : Nat)
    (bad : List Word → Bool) (eff : State → List Word → State) : Halted (hcInstr s d c op bad eff) d c 6 := by
  unfold hcInstr
  simp only [h, Bool.not_true, Bool.false_eq_true, if_false, hcFetch, hpc, readWord_of_good (allGood_of_nil hecc),
    Option.map_some, List.headD_cons, hop]
  exact hcHalt_ready h (by decide) (by decide) _

end

/-! ### The effects (R272 to R279) -/

section
variable (s : State) (d c : Nat) (ws : List Word)

@[simp] theorem cqRecs_raise (p : Pg) (i e : Nat) : cqRecs (raise s p i) e = cqRecs s e :=
  eq_of_engines (cqRecs · e) (engines_raise ..)

/-- A LOOP that goes back. -/
theorem loopDo_back (h : (iw ws 1).toNat = 0 ∨
      1 < (if loopOn (hoist s d c) (iw ws 0) then loopCount (hoist s d c) (iw ws 0) else (iw ws 1).toNat)) :
    loopOn (hoist (loopDo s d c ws) d c) (iw ws 0) = true ∧
      (hoist (loopDo s d c ws) d c).pc = (hoist s d c).pc - fld (iw ws 0) 0 12 ∧
      ((iw ws 1).toNat ≠ 0 → loopCount (hoist (loopDo s d c ws) d c) (iw ws 0) + 1 =
        if loopOn (hoist s d c) (iw ws 0) then loopCount (hoist s d c) (iw ws 0) else (iw ws 1).toNat) := by
  unfold loopOn loopCount at h ⊢
  unfold loopDo
  dsimp only
  by_cases hn : (iw ws 1).toNat = 0
  · rw [if_pos hn, hoist_setHoist]
    cases bit (iw ws 0) 19 <;> exact ⟨rfl, rfl, fun h => absurd hn h⟩
  · rw [if_neg hn]
    have hcnt := h.resolve_left hn
    generalize (if (if bit (iw ws 0) 19 then (hoist s d c).act1 else (hoist s d c).act0) = true then
      (if bit (iw ws 0) 19 then (hoist s d c).lc1 else (hoist s d c).lc0) else (iw ws 1).toNat) = cnt at hcnt
    have h0 : cnt ≠ 0 := by omega
    have h1 : cnt - 1 ≠ 0 := by omega
    rw [if_neg h0, if_neg h0, if_pos (And.intro h0 h1), hoist_setHoist]
    cases bit (iw ws 0) 19 <;> exact ⟨rfl, rfl, fun _ => Nat.sub_add_cancel (by omega)⟩

/-- A LOOP that falls through. -/
theorem loopDo_through (hn : (iw ws 1).toNat ≠ 0)
    (h : (if loopOn (hoist s d c) (iw ws 0) then loopCount (hoist s d c) (iw ws 0) else (iw ws 1).toNat) ≤ 1) :
    loopOn (hoist (loopDo s d c ws) d c) (iw ws 0) = false ∧
      (hoist (loopDo s d c ws) d c).pc = (hoist s d c).pc + 2 := by
  unfold loopOn loopCount at h
  unfold loopOn loopDo
  dsimp only
  rw [if_neg hn]
  generalize (if (if bit (iw ws 0) 19 then (hoist s d c).act1 else (hoist s d c).act0) = true then
    (if bit (iw ws 0) 19 then (hoist s d c).lc1 else (hoist s d c).lc0) else (iw ws 1).toNat) = cnt at h
  have hno : ¬(cnt ≠ 0 ∧ (if cnt = 0 then freeBelow s (2 ^ 24) else cnt - 1) ≠ 0) := by
    rintro ⟨h0, h1⟩
    rw [if_neg h0] at h1
    omega
  rw [if_neg hno, hcNext, hoist_setHoist, hoist_setHoist]
  cases bit (iw ws 0) 19 <;> exact ⟨rfl, rfl⟩

/-- A WAIT that begins. -/
theorem waitBegin_spec : (hoist (waitBegin s d c ws) d c).cs = 3 ∧ (hoist (waitBegin s d c ws) d c).pc = (hoist s d c).pc ∧
    ∃ f, (hoist (waitBegin s d c ws) d c).wait = some (fld (iw ws 0) 16 4, fld (iw ws 0) 0 6, (iw ws 1).toNat, f) ∧
      (fld (iw ws 0) 16 4 = 0 → f = s.clock + (iw ws 1).toNat) ∧
      (fld (iw ws 0) 16 4 = 1 → f = if (iw ws 1).toNat = 0 then 0 else s.clock + 256 * (iw ws 1).toNat) := by
  unfold waitBegin
  dsimp only
  rw [hoist_setHoist]
  refine ⟨rfl, rfl, _, rfl, fun h => ?_, fun h => ?_⟩ <;> rw [h] <;> rfl

/-- A SIGNAL or an END whose record is asked for waits for it. -/
theorem signalDo_record (kind : Nat) (hb : bit (iw ws 0) 19 = true) (hk : cqK s d (fld (iw ws 0) 17 2) ≠ 0) :
    hoist (signalDo s d c kind ws) d c = { hoist s d c with sig := some (iw ws 0) } ∧
      cqRecs (signalDo s d c kind ws) d = cqRecs s d ++
        [⟨c, fld (iw ws 0) 17 2, kind, fld (iw ws 0) 8 8, rf s (pgHc d c) Off.CNT_RUNS 0 16, true⟩] := by
  have hk' : cqK (setHoist s d c { hoist s d c with sig := some (iw ws 0) }) d (fld (iw ws 0) 17 2) ≠ 0 := hk
  unfold signalDo
  dsimp only
  rw [if_pos (by rw [hb, decide_eq_true hk]; rfl), cqAppend, if_neg hk']
  dsimp only
  constructor
  · refine Eq.trans ?_ (hoist_setHoist s d c { hoist s d c with sig := some (iw ws 0) })
    apply cqFollow_inv (φ := (hoist · d c))
    case hU => rfl
    all_goals exact fun _ _ => rfl
  · refine Eq.trans (b := cqRecs (setCqRecs (setHoist s d c { hoist s d c with sig := some (iw ws 0) }) d _) d) ?_
      (cqRecs_setCqRecs ..)
    apply cqFollow_inv (φ := (cqRecs · d))
    case hU => rfl
    all_goals exact fun _ _ => rfl

/-- A SIGNAL or an END without a record is finished at once. -/
theorem signalDo_plain (kind : Nat) (h : bit (iw ws 0) 19 = false ∨ cqK s d (fld (iw ws 0) 17 2) = 0) :
    signalDo s d c kind ws = hcFinish s d c (iw ws 0) := by
  unfold signalDo
  dsimp only
  rw [if_neg]
  rcases h with h | h <;> simp [h]

/-- An END that is finished. -/
theorem hcFinish_end {w : Word} (hw : fld w 20 4 = 0xF) (hp : present s (pgHc d c) = true) :
    (hoist (hcFinish s d c w) d c).cs = 1 ∧ rb (hcFinish s d c w) (pgHc d c) Off.EVT_LAT 1 = true ∧
      cqRecs (hcFinish s d c w) d = cqRecs s d := by
  unfold hcFinish
  dsimp only
  rw [if_pos hw]
  refine ⟨?_, rb_raise_same _ _ _ hp (by decide), cqRecs_raise ..⟩
  rw [hoist_raise]
  exact congrArg HoistSt.cs (hoist_setHoist ..)

/-- A SIGNAL that is finished. -/
theorem hcFinish_signal {w : Word} (hw : fld w 20 4 = 4) (hp : present s (pgHc d c) = true) :
    (hoist (hcFinish s d c w) d c).pc = (hoist s d c).pc + 1 ∧
      (bit w 16 = true → rb (hcFinish s d c w) (pgHc d c) Off.EVT_LAT 2 = true) ∧
      cqRecs (hcFinish s d c w) d = cqRecs s d := by
  have hsrc (t : State) : hoist (whenDo (bit w 7) t fun s => hoistSource s d 2 c 0) d c = hoist t d c ∧
      (whenDo (bit w 7) t fun s => hoistSource s d 2 c 0).regs = t.regs ∧
      cqRecs (whenDo (bit w 7) t fun s => hoistSource s d 2 c 0) d = cqRecs t d := by
    cases bit w 7 <;> exact ⟨rfl, rfl, rfl⟩
  unfold hcFinish
  dsimp only
  rw [if_neg (by rw [hw]; decide)]
  generalize hx : ({ hoist s d c with pc := (hoist s d c).pc + 1, sig := none, wdAt := s.clock } : HoistSt) = x
  obtain ⟨h1, h2, h3⟩ := hsrc (whenDo (bit w 16) (setHoist s d c x) (raise · (pgHc d c) 2))
  refine ⟨?_, fun hb => ?_, ?_⟩
  · rw [h1]
    cases bit w 16
    · exact (congrArg HoistSt.pc (hoist_setHoist ..)).trans (by rw [← hx])
    · exact (congrArg HoistSt.pc ((hoist_raise ..).trans (hoist_setHoist ..))).trans (by rw [← hx])
  · rw [rb, rd, h2, hb]
    exact rb_raise_same (setHoist s d c x) _ _ hp (by decide)
  · rw [h3]
    cases bit w 16
    · rfl
    · exact cqRecs_raise ..

/-- An address register just loaded. -/
theorem hcA_setHcA {a addr : Nat} (h : addr < 2 ^ 64) (host : Bool) : hcA (setHcA s d c a addr host) d c a = (addr, host) := by
  have hmod : addr % 2 ^ 64 = addr := Nat.mod_eq_of_lt h
  have hhi : addr / 2 ^ 48 < 2 ^ 16 := by omega
  have hb : b2n host ≤ 1 := by cases host <;> decide
  have hbit : bit (word (b2n host * 2 ^ 16 + addr / 2 ^ 48)) 16 = host := by
    have hmod2 : (b2n host * 2 ^ 16 + addr / 2 ^ 48) % 2 ^ 24 = b2n host * 2 ^ 16 + addr / 2 ^ 48 := Nat.mod_eq_of_lt (by omega)
    have hdiv : (b2n host * 2 ^ 16 + addr / 2 ^ 48) / 2 ^ 16 = b2n host := by omega
    rw [bit, BitVec.getLsbD, word, BitVec.toNat_ofNat, hmod2, Nat.testBit_eq_decide_div_mod_eq, hdiv]
    cases host <;> rfl
  have hfld : fld (word (b2n host * 2 ^ 16 + addr / 2 ^ 48)) 0 16 = addr / 2 ^ 48 := by
    simp only [fld, word, BitVec.toNat_ofNat]
    omega
  unfold hcA setHcA rf rb
  dsimp only
  rw [hmod, rd48_wr_off _ _ _ _ _ _ (by omega) (by omega), rd48_wr48, rd_wr_same, hbit, hfld]
  exact Prod.ext (Nat.mod_add_div addr (2 ^ 48)) rfl

end

theorem hcNext_spec (s : State) (d c n : Nat) : (hoist (hcNext s d c n) d c).pc = (hoist s d c).pc + n ∧
    (hcNext s d c n).regs = s.regs ∧
    hoist (hcNext s d c n) d c = { hoist s d c with pc := (hoist s d c).pc + n, wdAt := s.clock } :=
  ⟨congrArg HoistSt.pc (hoist_setHoist ..), rfl, hoist_setHoist ..⟩

theorem hcA_hcNext (s : State) (d c n a : Nat) : hcA (hcNext s d c n) d c a = hcA s d c a := rfl

theorem hoist_setHcA (s : State) (d c a addr : Nat) (host : Bool) : hoist (setHcA s d c a addr host) d c = hoist s d c := rfl

/-- The address that a SETA loads fits its register. -/
theorem setaAddr_lt (a b : Word) (e : Nat) (he : e < 2 ^ 16) : a.toNat + 2 ^ 24 * b.toNat + 2 ^ 48 * e < 2 ^ 64 := by
  have ha := a.isLt
  have hb := b.isLt
  omega

theorem uns_lt (n : Nat) (z : Int) : uns n z < 2 ^ n := by
  have hpos : (0 : Int) < 2 ^ n := by positivity
  have := Int.emod_lt_of_pos z hpos
  have := Int.emod_nonneg z hpos.ne'
  unfold uns
  zify
  omega

/-- Settles O34: an instruction that is due has its effect (`hcInstr_good`) or halts the channel (`hcInstr_bad`). -/
theorem hoistInstructions : Obligations.HoistInstructions := by
  refine ⟨fun s d c ws h => ?_, fun s d c h hecc i hi => ⟨fun hpc => ?_, fun hpc hop => ?_⟩⟩
  · obtain ⟨hc, hrun, hcs⟩ := HoistDue.on h.1
    have hp := (Bool.and_eq_true_iff.1 hrun).1
    refine ⟨fun hop hbad => ?_, fun hop hbad => ?_, fun hop hr hoff => ⟨fun hl => ?_, fun hn hl => ?_⟩, fun hop hbad => ?_,
      fun hop hr hk => ?_, fun hop hbad => ?_, fun hop hr => ⟨fun hrec => ?_, fun hb hk => ?_⟩, fun hop hbad => ?_,
      fun hop hr => ⟨fun hrec => ?_, fun hb hk => ?_⟩, fun hop hbad => ?_, fun hop hr hr3 => ?_, fun hop hbad => ?_,
      fun hop hr => ?_, fun hop hbad => ?_, fun hop hr => ?_, fun hop hbad => ?_⟩
    · refine .of (congrArg Host.Outcome.next (hcInstr_good h hop hbad _)) ?_
      refine ⟨_, congrArg HoistSt.move (hoist_setHoist ..), rfl, rfl, rfl, rfl, rfl, rfl, rfl⟩
    · exact ⟨_, rfl, hcInstr_bad h hop hbad _⟩
    · exact .of (congrArg Host.Outcome.next (hcInstr_good h hop (by simp [hr, hoff]) _)) (loopDo_back s d c ws hl)
    · exact .of (congrArg Host.Outcome.next (hcInstr_good h hop (by simp [hr, hoff]) _)) (loopDo_through s d c ws hn hl)
    · exact ⟨_, rfl, hcInstr_bad h hop (by simpa using hbad) _⟩
    · exact .of (congrArg Host.Outcome.next (hcInstr_good h hop (by simp [hr, hk]) _)) (waitBegin_spec s d c ws)
    · exact ⟨_, rfl, hcInstr_bad h hop (by simpa using hbad) _⟩
    · refine .of (congrArg Host.Outcome.next (hcInstr_good h hop hr _)) ?_
      rw [signalDo_plain _ _ _ _ _ hrec]
      exact hcFinish_signal s d c hop hp
    · refine .of (congrArg Host.Outcome.next (hcInstr_good h hop hr _)) ?_
      obtain ⟨h1, h2⟩ := signalDo_record s d c ws 2 hb hk
      exact ⟨by rw [h1], by rw [h1], h2⟩
    · exact ⟨_, rfl, hcInstr_bad h hop hbad _⟩
    · refine .of (congrArg Host.Outcome.next (hcInstr_good h hop hr _)) ?_
      rw [signalDo_plain _ _ _ _ _ hrec]
      exact hcFinish_end s d c hop hp
    · refine .of (congrArg Host.Outcome.next (hcInstr_good h hop hr _)) ?_
      obtain ⟨h1, h2⟩ := signalDo_record s d c ws 1 hb hk
      exact ⟨by rw [h1, hcs], by rw [h1], h2⟩
    · exact ⟨_, rfl, hcInstr_bad h hop hbad _⟩
    · refine .of (congrArg Host.Outcome.next (hcInstr_good h hop (by simp [hr, hr3]) _)) ⟨?_, ?_⟩
      · exact (hcNext_spec ..).1
      · exact (hcA_hcNext ..).trans (hcA_setHcA _ _ _ (setaAddr_lt _ _ _ (fld_lt ..)) _)
    · exact ⟨_, rfl, hcInstr_bad h hop (by simpa using hbad) _⟩
    · refine .of (congrArg Host.Outcome.next (hcInstr_good h hop hr _)) ⟨?_, ?_⟩
      · exact (hcNext_spec ..).1
      · exact (hcA_hcNext ..).trans (hcA_setHcA _ _ _ (uns_lt ..) _)
    · exact ⟨_, rfl, hcInstr_bad h hop hbad _⟩
    · refine .of (congrArg Host.Outcome.next (hcInstr_good h hop hr _)) ⟨?_, ?_⟩
      · exact (hcNext_spec ..).2.1
      · exact (hcNext_spec ..).2.2
    · exact ⟨_, rfl, hcInstr_bad h hop hbad _⟩
  · simp only [List.mem_cons, List.not_mem_nil, or_false] at hi
    obtain rfl | rfl | rfl | rfl | rfl | rfl | rfl | rfl := hi <;> exact ⟨_, rfl, hcInstr_outside h hpc _ _ _⟩
  · simp only [List.mem_cons, List.not_mem_nil, or_false] at hi
    obtain rfl | rfl | rfl | rfl | rfl | rfl | rfl | rfl := hi <;> exact ⟨_, rfl, hcInstr_unlisted h hecc hpc hop _ _ _⟩

end Sys2Proof.Machine

namespace Sys2Proof.Machine
open Sys2Proof.Laws

/-! ### Links and discovery (R232, R233, R234) -/

section
variable (s : State) (d p : Nat)

theorem link_streamFollow : (port (streamFollow s d p) d p).link = (port s d p).link := by
  unfold streamFollow
  dsimp only
  simp only [apply_ite (fun t => port t d p), port_emit, port_setPort, ite_self]

theorem link_notice (n code : Nat) (args : List Word) (d' p' : Nat) :
    port (notice s d n code args) d' p' = port s d' p' := by
  apply notice_inv (φ := (port · d' p'))
  case hU => rfl
  all_goals exact fun _ _ => rfl

/-- The state of a link just set. -/
theorem link_setLink (st : Nat) : (port (setLink s d p st) d p).link = st := by
  have hset : (port (streamFollow (linkStat (setPort s d p { port s d p with link := st, tryAt := s.clock }) d p) d p) d p).link = st :=
    (link_streamFollow ..).trans (congrArg PortSt.link (port_setPort ..))
  unfold setLink
  dsimp only
  generalize streamFollow (linkStat (setPort s d p { port s d p with link := st, tryAt := s.clock }) d p) d p = t at hset
  simp only [whenDo]
  split <;> split <;> split <;> simp only [link_notice, port_raise, hset]

theorem link_linkFail (code : Nat) : (port (linkFail s d p code) d p).link = 5 := by
  unfold linkFail
  dsimp only
  rw [port_raise, port_setPort]
  exact link_setLink ..

/-- Discovery ends in FAILED or goes on to training. -/
theorem link_discover (ans : Option (List Byte)) : (port (discover s d p ans) d p).link ∈ [2, 5] := by
  have h5 (t : State) (code : Nat) : (port (linkFail t d p code) d p).link ∈ [2, 5] := by
    rw [link_linkFail]
    decide
  unfold discover
  cases ans with
  | none => exact h5 _ _
  | some l =>
    dsimp only
    split
    · exact h5 _ _
    · split
      · exact h5 _ _
      · split
        · exact h5 _ _
        · split
          · exact h5 _ _
          · rw [link_setLink]
            decide

theorem fw_discover (ans : Option (List Byte)) (e : Nat) : fw (discover s d p ans) e = fw s e := by
  apply discover_inv (φ := (fw · e))
  case hU => rfl
  all_goals exact fun _ _ => rfl

theorem fw_setLink (st e : Nat) : fw (setLink s d p st) e = fw s e := by
  apply setLink_inv (φ := (fw · e))
  case hU => rfl
  all_goals exact fun _ _ => rfl

theorem fw_setLong (l : Option LongCmd) : (fw (setLong s d l) d).long = l := congrArg FwSt.long (fw_setFw ..)

end

/-! ### The lifecycle (R374) -/

section
variable (s : State) (d : Nat)

theorem dies_allowedFollow : (allowedFollow s).dies = s.dies := by
  apply allowedFollow_inv (φ := State.dies)
  case hU => rfl
  all_goals exact fun _ _ => rfl

theorem dies_injFollow (e : Nat) : (injFollow s e).dies = s.dies := by
  apply injFollow_inv (φ := State.dies)
  case hU => rfl
  all_goals exact fun _ _ => rfl

theorem die_of_dies {s t : State} (h : t.dies = s.dies) (d : Nat) : die t d = die s d := by rw [die, h, die]

theorem lc_dbgClose : (die (dbgClose s d) d).lc = (die s d).lc := by
  unfold dbgClose
  dsimp only
  split
  · rw [die_of_dies (dies_allowedFollow _), die_raise, die_raise, wb_eq, die_wr, die_setDie]
  · rfl

theorem lc_sessClose : (die (sessClose s d) d).lc = (die s d).lc := by
  unfold sessClose
  dsimp only
  split
  · rw [die_raise, wf_eq, die_wr, die_setDie]
  · rfl

/-- The new lifecycle state is in force. -/
theorem lc_lcChange (t : Nat) : (die (lcChange s d t) d).lc = t := by
  unfold lcChange
  dsimp only
  generalize hs2 : (if (decide (t = 0) || (decide (t = 1) && rb s (pgDebug d) Off.PAGE_CTRL 0)) = true then
    setDie s d { die s d with lc := t } else dbgClose (setDie s d { die s d with lc := t }) d) = s2
  have h2 : (die s2 d).lc = t := by
    rw [← hs2]
    split
    · exact congrArg DieSt.lc (die_setDie ..)
    · exact (lc_dbgClose ..).trans (congrArg DieSt.lc (die_setDie ..))
  rw [die_raise, die_raise]
  refine (each_pres (P := fun u => (die u d).lc = t) ?_ fun u e _ hu => (congrArg DieSt.lc (die_of_dies (dies_injFollow u e) d)).trans hu :)
  rw [die_of_dies (dies_allowedFollow _)]
  split
  · refine (congrArg DieSt.lc (die_setDie ..)).trans ((lc_sessClose ..).trans ?_)
    exact (congrArg DieSt.lc (die_setDie ..)).trans h2
  · exact h2

end

/-! ### Commands of firmware (R364, R366) -/

section
variable {s : State} {d n cmd : Nat} {sec : Bool}

/-- A command whose checks pass has its effect. -/
theorem inRun_pass (h : inReady s d sec n cmd = true) {l : List (Bool × Nat)} (hl : ∀ x ∈ l, x.1 = false) (eff : State → State) :
    inRun s d sec n cmd (firstBad l) eff = eff s := by
  have hnone : firstBad l = none := by
    clear h
    induction l with
    | nil => rfl
    | cons x l ih =>
      rw [firstBad, hl x (List.mem_cons_self ..)]
      exact ih fun y hy => hl y (List.mem_cons_of_mem _ hy)
  rw [hnone]
  exact if_pos h

theorem inRun_bad (h : inReady s d sec n cmd = true) (c : Nat) (eff : State → State) :
    inRun s d sec n cmd (some c) eff = setResult s d sec n c [] := if_pos h

theorem result_setResult (s : State) (d n : Nat) (sec : Bool) (code : Nat) (res : List Word) :
    (mbox (setResult s d sec n code res) d (mbIx sec n)).result = some (code, res) := congrArg MboxCh.result (mbox_setMbox ..)

/-- A failing first check is the command's result. -/
theorem inRun_first (h : inReady s d sec n cmd = true) {b : Bool} (hb : b = true) (c : Nat) (l : List (Bool × Nat))
    (eff : State → State) :
    (mbox (inRun s d sec n cmd (firstBad ((b, c) :: l)) eff) d (mbIx sec n)).result = some (c, []) := by
  rw [firstBad, if_pos hb, inRun_bad h]
  exact result_setResult ..

end

theorem rf_sweepStart_cfg (s : State) (r : Req) (d lo n : Nat) :
    rf (sweepStart r d s) (pgEcho d) Off.SWEEP_CFG lo n = rf s (pgEcho d) Off.SWEEP_CFG lo n := by
  refine congrArg (fld · lo n) ?_
  unfold sweepStart
  dsimp only
  split
  · rfl
  · split
    · exact rd_wr_off _ _ _ _ _ _ (by decide)
    · split
      · exact rd_wr_off _ _ _ _ _ _ (by decide)
      · split
        · exact (rd_wr_off _ _ _ _ _ _ (by decide)).trans (rd_logErr_other (.inr ⟨by decide, by decide⟩) ..)
        · simp

theorem rf_setLong_echo (s : State) (d e o lo n : Nat) (l : Option LongCmd) :
    rf (setLong s d l) (pgEcho e) o lo n = rf s (pgEcho e) o lo n :=
  congrArg (fld · lo n) ((setLong_keeps (fun _ b => by cases b <;> simp [pgEcho, pgMbox, ns, sp]) (.refl ..)).regs o)

theorem fld_sweepCfg (w : Word) : fld (word (fld w 0 8 * 2 ^ 16 + fld w 8 4 * 2 ^ 12 + 2)) 16 8 = fld w 0 8 := by
  have h1 : fld w 0 8 < 2 ^ 8 := fld_lt ..
  have h2 : fld w 8 4 < 2 ^ 4 := fld_lt ..
  rw [fld, word, BitVec.toNat_ofNat]
  omega

theorem result_asResult (s : State) (d c : Nat) : word (rf (asResult s d 1 c 1) (pgAssay d) Off.AS_CMD_STAT 16 8) = 1#24 := by
  have h := rdN_asResult s d c (op := 1) (res := 1) (by decide) (by decide)
  have hfld : rf (asResult s d 1 c 1) (pgAssay d) Off.AS_CMD_STAT 16 8 = 1 := by
    rw [rf, fld, show (rd (asResult s d 1 c 1) (pgAssay d) Off.AS_CMD_STAT).toNat = _ from h]
    omega
  rw [hfld]
  rfl

/-- A request of a channel that can be measured. -/
theorem asRequest_present {s : State} {d c : Nat} (hc : c ≠ 0xFF) (hp : asPresent s c = true) (hx : noXtal s d = false) :
    asRequest s d c = asResult (asQueue s d c 1) d 1 c 1 := by
  unfold asRequest
  rw [if_neg hc, hp, if_neg (by decide), if_neg (by simp [hx])]

/-- The clear of the tally board ends with the words of the steps cleared. -/
theorem retRaw_tallyClear (s : State) (d : Nat) {mask st : Nat} (h : st ∈ bitsSet 9 mask) :
    retRaw (tallyClear s d mask) d (tlWord st 0) = 0#24 := by
  rw [tallyClear_eq, retRaw, eq_of_engines State.ret (engines_raise ..), ret_clearShown, ret_tlCopies]
  exact retRaw_boardCleared s d h

/-- Settles O45: a command whose checks pass has its effect (`inRun_good`), and a failing check is its result. -/
theorem firmwareCommands : Obligations.FirmwareCommands := by
  refine fun s d n sec => ⟨fun h => ⟨fun hl => ?_, fun hl => ?_⟩, fun ans e he h hl => ?_, fun h hl => ?_,
    fun p ans h hl hp hlt hb hen hlink => ?_, fun h hl hbad ht => ⟨?_, fun l => ?_⟩, fun h hoff hl hbad ht => ?_,
    fun h hoff hl hbad ht => ?_, fun h hl h16 hb hst => ?_, fun h hl hc hp hx hrun => ⟨fun hw => ?_, fun hw hb => ?_⟩,
    fun h hl hb => ?_, fun h hl hz => ?_, fun h tgt htgt => ⟨fun hden hl ha => ?_, fun hden => ?_⟩⟩
  · exact .of (congrArg Host.Outcome.next (inRun_pass h (by simp [hl]) _)) ⟨rfl, result_setResult ..⟩
  · exact ⟨_, rfl, inRun_first h (decide_eq_true hl) _ _ _⟩
  · simp only [List.mem_cons, List.not_mem_nil, or_false] at he
    obtain rfl | rfl | rfl | rfl | rfl | rfl := he <;> exact ⟨_, rfl, inRun_first h (decide_eq_true hl) _ _ _⟩
  · exact .of (congrArg Host.Outcome.next (inRun_pass h (by simpa using hl) _)) ⟨result_setResult .., rfl⟩
  · subst hp
    refine .of (congrArg Host.Outcome.next (inRun_pass h (by simp [hl, hlt, hb, hen, hlink]) _)) ⟨link_discover .., ?_⟩
    dsimp only
    rw [fw_discover, fw_setLink]
    exact fw_setLong ..
  · exact .of (congrArg Host.Outcome.next (inRun_pass h (by simp [hl, hbad, ht]) _)) (result_setResult ..)
  · exact .of (congrArg Host.Outcome.next (inRun_pass h (by simp [hl, hbad, ht]) _)) (result_setResult ..)
  · exact .of (congrArg Host.Outcome.next (inRun_pass h (by simp [hl, hbad, ht, hoff]) _)) ⟨result_setResult .., rfl⟩
  · exact .of (congrArg Host.Outcome.next (inRun_pass h (by simp [hl, hbad, ht, hoff]) _)) ⟨result_setResult .., rfl⟩
  · refine .of (congrArg Host.Outcome.next (inRun_pass h (by simp [hl, h16, hb, hst]) _)) ⟨fw_setLong .., ?_⟩
    dsimp only
    rw [rf_setLong_echo, rf_sweepStart_cfg, rf, rd_wr_same, fld_sweepCfg]
  · have hne : fld (inArg s d sec n 0) 0 8 ≠ 0xFF := by omega
    refine .of (congrArg Host.Outcome.next (inRun_pass h (by simp [hl, hp, hx, hrun, hw]) _)) ?_
    dsimp only
    rw [hw, asRequest_present hne hp hx]
    exact (result_setResult ..).trans (by rw [result_asResult])
  · have hne : fld (inArg s d sec n 0) 0 8 ≠ 0xFF := by omega
    refine .of (congrArg Host.Outcome.next (inRun_pass h (by simp [hl, hp, hx, hrun, hw, hb, hne]) _)) ?_
    dsimp only
    rw [hw]
    exact fw_setLong ..
  · refine .of (congrArg Host.Outcome.next (inRun_pass h (by simp [hl, hb]) _)) ⟨result_setResult .., ?_⟩
    exact longEnd_long s d 0x0C
  · refine .of (congrArg Host.Outcome.next (inRun_pass h (by simp [hl, hz]) _)) ⟨result_setResult .., fun st hst hbit => ?_⟩
    refine (retRaw_tallyClear s d (mem_bitsSet.2 ⟨hst, ?_⟩) :)
    rw [Nat.testBit_eq_decide_div_mod_eq]
    exact decide_eq_true hbit
  · subst htgt
    refine .of (congrArg Host.Outcome.next (inRun_pass h (by simp [hden, hl, ha]) _)) ⟨?_, result_setResult ..⟩
    exact lc_lcChange ..
  · subst htgt
    exact .of (congrArg Host.Outcome.next ((congrArg (inRun s d true n 0x41 · _) (if_pos (by rw [hden]; rfl))).trans (inRun_bad h 5 _)))
      ⟨rfl, result_setResult ..⟩

end Sys2Proof.Machine

namespace Sys2Proof.Machine
open Sys2Proof.Laws

/-! ### The wire form of a flit (R429, R460) -/

theorem crcBit_lt {c : Nat} (b : Bool) : crcBit c b < 2 ^ 24 := by
  unfold crcBit
  dsimp only
  have h : c * 2 % 2 ^ 24 < 2 ^ 24 := Nat.mod_lt _ (by decide)
  split
  · exact Nat.xor_lt_two_pow h (by decide)
  · exact h

theorem crcBits_lt (l : List Bool) : crcBits l < 2 ^ 24 := by
  suffices h : ∀ c < 2 ^ 24, l.foldl crcBit c < 2 ^ 24 from h _ (by decide)
  induction l with
  | nil => exact fun _ h => h
  | cons b l ih => exact fun c _ => ih _ (crcBit_lt b)

/-- Words side by side stay below the power of their bits. -/
theorem foldl_words_lt (g : Nat → Nat) (hg : ∀ i, g i < 2 ^ 24) (n : Nat) :
    (List.range n).foldl (fun a i => a * 2 ^ 24 + g i) 0 < 2 ^ (24 * n) := by
  induction n with
  | zero => exact Nat.one_pos
  | succ n ih =>
    rw [List.range_succ, List.foldl_append, List.foldl_cons, List.foldl_nil, Nat.mul_succ, Nat.pow_add]
    have := hg n
    calc _ < (List.range n).foldl (fun a i => a * 2 ^ 24 + g i) 0 * 2 ^ 24 + 2 ^ 24 := Nat.add_lt_add_left this _
      _ = ((List.range n).foldl (fun a i => a * 2 ^ 24 + g i) 0 + 1) * 2 ^ 24 := (Nat.succ_mul _ _).symm
      _ ≤ _ := Nat.mul_le_mul_right _ ih

/-- The parts of a number written side by side. -/
theorem parts_of_packed {head route pay n m : Nat} (hr : route < 2 ^ n) (hp : pay < 2 ^ m) :
    ((head * 2 ^ n + route) * 2 ^ m + pay) / 2 ^ m % 2 ^ n = route ∧
      ((head * 2 ^ n + route) * 2 ^ m + pay) / 2 ^ (m + n) = head := by
  have hdiv : ((head * 2 ^ n + route) * 2 ^ m + pay) / 2 ^ m = head * 2 ^ n + route := by
    rw [Nat.mul_comm, Nat.mul_add_div (Nat.two_pow_pos m), Nat.div_eq_of_lt hp, Nat.add_zero]
  refine ⟨?_, ?_⟩
  · rw [hdiv, Nat.mul_comm, Nat.mul_add_mod, Nat.mod_eq_of_lt hr]
  · rw [Nat.pow_add, ← Nat.div_div_eq_div_mul, hdiv, Nat.mul_comm, Nat.mul_add_div (Nat.two_pow_pos n), Nat.div_eq_of_lt hr,
      Nat.add_zero]

/-- A flit's body, as its parts. -/
theorem flitBody_parts (f : Flit) (ack : Nat) : ∃ head route, head < 2 ^ 24 ∧ route < 2 ^ 16 ∧
    head = f.kind % 16 * 2 ^ 20 + f.seq % 1024 * 2 ^ 10 + ack % 1024 ∧
    route = f.dst % 8 * 2 ^ 13 + f.src % 8 * 2 ^ 10 + f.vc % 4 * 2 ^ 8 + (f.words.length - 1) % 64 ∧
    flitBody f ack / 2 ^ 960 % 2 ^ 16 = route ∧ flitBody f ack / 2 ^ 976 % 2 ^ 24 = head := by
  obtain ⟨head, hh⟩ : ∃ n, n = f.kind % 16 * 2 ^ 20 + f.seq % 1024 * 2 ^ 10 + ack % 1024 := ⟨_, rfl⟩
  obtain ⟨route, hr⟩ :
      ∃ n, n = f.dst % 8 * 2 ^ 13 + f.src % 8 * 2 ^ 10 + f.vc % 4 * 2 ^ 8 + (f.words.length - 1) % 64 := ⟨_, rfl⟩
  have hlt : head < 2 ^ 24 := by omega
  have hrt : route < 2 ^ 16 := by omega
  have hpay : (List.range 40).foldl (fun n i => n * 2 ^ 24 + (f.words.getD i 0#24).toNat) 0 < 2 ^ 960 :=
    (show 24 * 40 = 960 from rfl) ▸ foldl_words_lt (fun i => (f.words.getD i 0#24).toNat) (fun i => (f.words.getD i 0#24).isLt) 40
  have hbody : flitBody f ack = (head * 2 ^ 16 + route) * 2 ^ 960 +
      (List.range 40).foldl (fun n i => n * 2 ^ 24 + (f.words.getD i 0#24).toNat) 0 := by
    rw [hh, hr, flitBody]
  obtain ⟨h1, h2⟩ := parts_of_packed (head := head) hrt hpay
  refine ⟨head, route, hlt, hrt, hh, hr, ?_, ?_⟩
  · rw [hbody]
    exact h1
  · rw [hbody, show 976 = 960 + 16 from rfl, h2, Nat.mod_eq_of_lt hlt]

/-- A flit on the lanes: its body and its check word. -/
theorem flitWire_parts (f : Flit) (ack : Nat) :
    flitWire f ack / 2 ^ 24 = flitBody f ack ∧ flitWire f ack % 2 ^ 24 = flitCrc (flitBody f ack) := by
  have hlt : flitCrc (flitBody f ack) < 2 ^ 24 := crcBits_lt _
  unfold flitWire
  generalize flitCrc (flitBody f ack) = c at hlt
  generalize flitBody f ack = b
  omega

/-- What arrives without errors is what was sent. -/
theorem flitRead_flitWire {f : Flit} (ack : Nat) (hk : f.kind ≤ 3) (hs : f.seq < 1024) (hd : f.dst < 8) (hsrc : f.src < 8) :
    (flitRead (flitWire f ack)).1.kind = f.kind ∧ (flitRead (flitWire f ack)).1.seq = f.seq ∧
      (flitRead (flitWire f ack)).1.dst = f.dst ∧ (flitRead (flitWire f ack)).1.src = f.src := by
  obtain ⟨head, route, -, -, hh, hr, h1, h2⟩ := flitBody_parts f ack
  unfold flitRead
  dsimp only
  rw [(flitWire_parts f ack).1, h1, h2]
  clear h1 h2
  omega

/-! ### The two ends of a link (R21) -/

theorem burimPort_cases {n d e i : Nat} (h : burimPort n d e = some i) :
    (n = 2 ∧ d = 0 ∧ e = 1 ∧ i = 0) ∨ (n = 2 ∧ d = 1 ∧ e = 0 ∧ i = 1) ∨ (4 ≤ n ∧ (d + 1) % n = e ∧ i = 0) ∨
      (4 ≤ n ∧ (e + 1) % n = d ∧ i = 1) := by
  unfold burimPort at h
  split at h
  · split at h
    · exact .inl (by rw [← Option.some.inj h]; omega)
    · split at h
      · exact .inr (.inl (by rw [← Option.some.inj h]; omega))
      · cases h
  · split at h
    · split at h
      · exact .inr (.inr (.inl (by rw [← Option.some.inj h]; omega)))
      · split at h
        · exact .inr (.inr (.inr (by rw [← Option.some.inj h]; omega)))
        · cases h
    · cases h

theorem burimPort_lt {n d e i : Nat} (h : burimPort n d e = some i) : i < 2 := by
  rcases burimPort_cases h with h | h | h | h <;> omega

theorem succ_mod_ne {n d : Nat} (hn : 4 ≤ n) (hd : d < n) : (d + 1) % n ≠ d := by
  rcases Nat.lt_or_ge (d + 1) n with hlt | hge
  · rw [Nat.mod_eq_of_lt hlt]
    omega
  · rw [show d + 1 = n by omega, Nat.mod_self]
    omega

theorem burimPort_ne {n d e i : Nat} (h : burimPort n d e = some i) (he : e < n) : e ≠ d := by
  rcases burimPort_cases h with h | h | ⟨hn, hmod, -⟩ | ⟨hn, hmod, -⟩
  · omega
  · omega
  · rintro rfl
    exact succ_mod_ne hn he hmod
  · rintro rfl
    exact succ_mod_ne hn he hmod

/-- The far end of a port is another die's. -/
theorem burimPeer_ne {n d i e j : Nat} (h : burimPeer n d i = some (e, j)) : e ≠ d ∧ i < 2 := by
  unfold burimPeer at h
  split at h
  · cases h
  · rename_i x hx
    obtain ⟨k, -, hk⟩ := Option.map_eq_some_iff.1 h
    obtain ⟨rfl, rfl⟩ := Prod.mk.inj hk
    have hport : burimPort n d x = some i := of_decide_eq_true (List.find?_some hx :)
    exact ⟨burimPort_ne hport (List.mem_range.1 (List.mem_of_find?_eq_some hx)), burimPort_lt hport⟩

theorem pgBurim_apart {d e : Nat} (h : e ≠ d) : pgBurim e ≠ pgBurim d := by
  simp [pgBurim, ns, h]

/-! ### The way of a flit depends on the links alone (R22) -/

/-- The links of two states are alike. -/
def SameLinks (s t : State) : Prop := t.part = s.part ∧ ∀ d, ∀ i < 2, burimState t d i = burimState s d i

section
variable {s t : State} (h : SameLinks s t)
include h

theorem sideAlive_congr (a b : Nat) : sideAlive t a b = sideAlive s a b := by
  unfold sideAlive
  rw [h.1]
  split
  · rfl
  · rename_i i hi
    rw [h.2 a i (burimPort_lt hi)]

theorem wayHops_congr (up : Bool) (e n d : Nat) : wayHops t up e n d = wayHops s up e n d := by
  induction n generalizing d with
  | zero => rfl
  | succ n ih =>
    simp only [wayHops, linkAlive, sideAlive_congr h, h.1, ih]
    rfl

theorem routePort_congr (d e : Nat) (turn : Bool) : routePort t d e turn = routePort s d e turn := by
  simp only [routePort, reaches, waysTo, wayHops_congr h, h.1]
  rfl

end

/-! ### A flit sent for the first time (R430, R431) -/

/-- The offset of a port's counter is none of the links' registers. -/
theorem buOff_ne_stat {i k o : Nat} (ho : 0x60 ≤ o) (hk : k < 2) : buOff i o ≠ Off.BU_STAT_0 + 4 * k := by
  unfold buOff
  simp
  omega

theorem burimState_wr_counter (s : State) (p : Pg) (i o : Nat) (v : Word) (ho : 0x60 ≤ o) (d : Nat) {k : Nat} (hk : k < 2) :
    burimState (wr s p (buOff i o) v) d k = burimState s d k :=
  congrArg (fld · 0 3) (rd_wr_off _ _ _ _ _ _ (buOff_ne_stat ho hk))

section
variable (s : State) (e j : Nat) (a : FlitIn)

/-- A flit offered waits at the port; nothing else of the links changes. -/
theorem flitOffer_spec : (flitOffer s e j a).regs = s.regs ∧ (flitOffer s e j a).part = s.part ∧
    (∃ q, burim (flitOffer s e j a) e j = { burim s e j with queue := q }) ∧
    ∀ d i, (e, j) ≠ (d, i) → burim (flitOffer s e j a) d i = burim s d i := by
  unfold flitOffer
  dsimp only
  split
  · exact ⟨rfl, rfl, ⟨_, rfl⟩, fun _ _ _ => rfl⟩
  · split
    · exact ⟨rfl, rfl, ⟨_, burim_setBurim ..⟩, fun d i h => burim_setBurim_other _ _ _ _ _ _ h⟩
    · exact ⟨rfl, rfl, ⟨_, burim_setBurim ..⟩, fun d i h => burim_setBurim_other _ _ _ _ _ _ h⟩

/-- The credit given back changes credits alone. -/
theorem viaFree_spec (f : Flit) : (viaFree s e f).regs = s.regs ∧ (viaFree s e f).part = s.part ∧
    ∀ d i, ∃ sp, burim (viaFree s e f) d i = { burim s d i with spent := sp } := by
  unfold viaFree
  split
  · rename_i c k _
    refine ⟨rfl, rfl, fun d i => ?_⟩
    by_cases h : (c, k) = (d, i)
    · obtain ⟨rfl, rfl⟩ := Prod.mk.inj h
      exact ⟨_, burim_setBurim ..⟩
    · exact ⟨_, burim_setBurim_other _ _ _ _ _ _ h⟩
  · exact ⟨rfl, rfl, fun _ _ => ⟨_, rfl⟩⟩

end

/-- The sending port after a new flit has left it. -/
def sentFrom (y : BurimSt) (f : Flit) : BurimSt :=
  creditUse { y with next := (y.next + 1) % 1024, buf := y.buf ++ [{ f with seq := y.next, via := none }], queue := y.queue.erase f }
    f.vc

theorem flitTake_eq (s : State) (e j : Nat) (f : Flit) : flitTake s e j f =
    ({ f with seq := (burim s e j).next, via := none },
      countMod (viaFree (setBurim s e j (sentFrom (burim s e j) f)) e f) (pgBurim e) (buOff j Off.CNT_TX_burim)) := rfl

/-- What the sending end does with a new flit. -/
theorem flitTake_spec (s : State) (e j : Nat) (f : Flit) :
    (flitTake s e j f).1 = { f with seq := (burim s e j).next, via := none } ∧
    (flitTake s e j f).2.part = s.part ∧
    (burim (flitTake s e j f).2 e j).next = ((burim s e j).next + 1) % 1024 ∧
    (∀ d i, (e, j) ≠ (d, i) → ∃ sp, burim (flitTake s e j f).2 d i = { burim s d i with spent := sp }) ∧
    rd (flitTake s e j f).2 (pgBurim e) (buOff j Off.CNT_TX_burim) = rd s (pgBurim e) (buOff j Off.CNT_TX_burim) + 1#24 ∧
    ∀ q o, (q, o) ≠ (pgBurim e, buOff j Off.CNT_TX_burim) → rd (flitTake s e j f).2 q o = rd s q o := by
  rw [flitTake_eq]
  generalize hz : sentFrom (burim s e j) f = z
  obtain ⟨hregs, hpart, hb⟩ := viaFree_spec (setBurim s e j z) e f
  refine ⟨rfl, hpart, ?_, fun d i h => ?_, ?_, fun q o h => ?_⟩
  · obtain ⟨sp, hsp⟩ := hb e j
    rw [countMod, burim_wr, hsp, burim_setBurim, ← hz]
    rfl
  · obtain ⟨sp, hsp⟩ := hb d i
    rw [burim_setBurim_other _ _ _ _ _ _ h] at hsp
    exact ⟨sp, hsp⟩
  · rw [countMod, rd_wr_same, rd, hregs]
    rfl
  · rw [countMod, rd_wr_other _ _ _ _ _ _ h.symm, rd, hregs]
    rfl

/-- The receiving end after a flit that it accepts has been counted. -/
def flitNoted (s : State) (d i : Nat) (f : Flit) (ack hop : Nat) : State :=
  let s2 := countMod (flitAckTake (setBurim s d i { burim s d i with last := f.seq }) d i ack) (pgBurim d) (buOff i Off.CNT_RX)
  wf s2 (pgBurim d) (buOff i Off.LAT_MAX) 0 8 (min 255 (max (rf s2 (pgBurim d) (buOff i Off.LAT_MAX) 0 8) hop))

/-- The same, with the sender's sign of life. -/
def flitTaken (s : State) (d i : Nat) (f : Flit) (ack hop : Nat) : State := heardFrom (flitNoted s d i f ack hop) d f.src

theorem flitAccept_eq (s : State) (d i e j : Nat) (f : Flit) (ack hop : Nat) :
    flitAccept s d i e j f ack hop = flitDeliver (flitTaken s d i f ack hop) d i e j f := rfl

theorem heardFrom_spec (s : State) (d src : Nat) :
    (heardFrom s d src).regs = s.regs ∧ (heardFrom s d src).part = s.part ∧ (heardFrom s d src).burims = s.burims := by
  unfold heardFrom
  split <;> exact ⟨rfl, rfl, rfl⟩

theorem flitTaken_spec (s : State) (d i : Nat) (f : Flit) (ack hop : Nat) :
    (flitTaken s d i f ack hop).part = s.part ∧
    (∃ b, burim (flitTaken s d i f ack hop) d i = { burim s d i with last := f.seq, buf := b }) ∧
    (∀ e j, (d, i) ≠ (e, j) → burim (flitTaken s d i f ack hop) e j = burim s e j) ∧
    rd (flitTaken s d i f ack hop) (pgBurim d) (buOff i Off.CNT_RX) = rd s (pgBurim d) (buOff i Off.CNT_RX) + 1#24 ∧
    (∀ q o, (q, o) ≠ (pgBurim d, buOff i Off.CNT_RX) → (q, o) ≠ (pgBurim d, buOff i Off.LAT_MAX) →
      rd (flitTaken s d i f ack hop) q o = rd s q o) := by
  obtain ⟨hregs, hpart, hb⟩ := heardFrom_spec (flitNoted s d i f ack hop) d f.src
  have hrd (q : Pg) (o : Nat) : rd (flitTaken s d i f ack hop) q o = rd (flitNoted s d i f ack hop) q o := by
    rw [flitTaken, rd, hregs, rd]
  have hbur (e j : Nat) : burim (flitTaken s d i f ack hop) e j =
      burim (flitAckTake (setBurim s d i { burim s d i with last := f.seq }) d i ack) e j := by
    rw [flitTaken, burim, hb]
    rfl
  refine ⟨hpart, ⟨afterAck (burim s d i).buf ack, ?_⟩, fun e j h => ?_, ?_, fun q o h1 h2 => ?_⟩
  · rw [hbur, flitAckTake, burim_setBurim, burim_setBurim]
  · rw [hbur, flitAckTake, burim_setBurim_other _ _ _ _ _ _ h, burim_setBurim_other _ _ _ _ _ _ h]
  · rw [hrd]
    exact (rd_wf_off _ _ _ _ _ _ _ _ (by unfold buOff; simp)).trans (rd_wr_same ..)
  · rw [hrd]
    exact (rd_wr_other _ _ _ _ _ _ h2.symm).trans (rd_wr_other _ _ _ _ _ _ h1.symm)

/-- Delivery keeps registers, acknowledgements and sequence numbers; a flit for another die waits at the port of its route. -/
theorem flitDeliver_spec (s : State) {d i e j : Nat} (hne : e ≠ d) (f : Flit) :
    (flitDeliver s d i e j f).regs = s.regs ∧ (burim (flitDeliver s d i e j f) d i).last = (burim s d i).last ∧
    (burim (flitDeliver s d i e j f) e j).next = (burim s e j).next ∧
    (f.dst ≠ d → ∀ p, routePort s d f.dst (decide (i = 0)) = some p →
      (burim (flitDeliver s d i e j f) d p).queue = (burim s d p).queue ++ [{ f with via := some i }]) := by
  have hej (p : Nat) : (d, p) ≠ (e, j) := fun h => hne (Prod.mk.inj h).1.symm
  have hback : (setBurim s e j (creditFree (burim s e j) f.vc)).regs = s.regs ∧
      (burim (setBurim s e j (creditFree (burim s e j) f.vc)) d i).last = (burim s d i).last ∧
      (burim (setBurim s e j (creditFree (burim s e j) f.vc)) e j).next = (burim s e j).next := by
    refine ⟨rfl, ?_, ?_⟩
    · rw [burim_setBurim_other _ _ _ _ _ _ (hej i).symm]
    · rw [burim_setBurim]
      rfl
  unfold flitDeliver
  dsimp only
  by_cases hd : f.dst = d
  · rw [if_pos hd]
    exact ⟨hback.1, hback.2.1, hback.2.2, fun h => absurd hd h⟩
  · rw [if_neg hd]
    cases hr : routePort s d f.dst (decide (i = 0)) with
    | none => exact ⟨hback.1, hback.2.1, hback.2.2, fun _ _ h => absurd h (by simp)⟩
    | some p =>
      dsimp only
      refine ⟨rfl, ?_, ?_, fun _ p' hp => ?_⟩
      · by_cases hp : p = i
        · subst hp
          rw [burim_setBurim]
        · exact congrArg BurimSt.last (burim_setBurim_other _ _ _ _ _ _ (by simp [hp]))
      · exact congrArg BurimSt.next (burim_setBurim_other _ _ _ _ _ _ (hej p))
      · obtain rfl := Option.some.inj hp
        exact congrArg BurimSt.queue (burim_setBurim ..)

theorem injPick_idle {s : State} {d : Nat} (h : running s (pgInject d) = false) (cls dir t : Nat) :
    injPick s d cls dir t = (0, s) := by
  unfold injPick
  dsimp only
  rw [h]
  rfl

/-- A new flit that crosses without error, injection not running, is accepted by the far end. -/
theorem flitNew_accepted {s : State} {d i e j : Nat} {f : Flit} {a : FlitIn} (hne : e ≠ d) (hnoise : a.noise = 0)
    (hlate : (burim s e j).late = none) (hinj : running s (pgInject e) = false)
    (hseq : (burim s e j).next = ((burim s d i).last + 1) % 1024) (hk1 : 1 ≤ f.kind) (hk3 : f.kind ≤ 3) (hd : f.dst < 8)
    (hsrc : f.src < 8) :
    ∃ g ack, g.seq = (burim s e j).next ∧ g.dst = f.dst ∧
      flitNew s d i e j f a = flitAccept (flitTake s e j f).2 d i e j g ack a.hop := by
  obtain ⟨h1, hpart, -, hother, -, hrd⟩ := flitTake_spec s e j f
  have hinj' : running (flitTake s e j f).2 (pgInject e) = false := by
    have hst : rd (flitTake s e j f).2 (pgInject e) Off.PAGE_STAT = rd s (pgInject e) Off.PAGE_STAT :=
      hrd _ _ fun h => by simp [pgInject, pgBurim, ns] at h
    rw [← hinj, running, pstate, rf, hst, present_congr hpart]
    rfl
  have hseqlt : (burim s e j).next < 1024 := hseq ▸ Nat.mod_lt _ (by decide)
  obtain ⟨hkind, hs, hdst, -⟩ := flitRead_flitWire (f := (flitTake s e j f).1) (burim (flitTake s e j f).2 e j).last
    (by rw [h1]; exact hk3) (by rw [h1]; exact hseqlt) (by rw [h1]; exact hd) (by rw [h1]; exact hsrc)
  obtain ⟨hdiv, hmod⟩ := flitWire_parts (flitTake s e j f).1 (burim (flitTake s e j f).2 e j).last
  have hlanes : Nat.xor (onLanes (flitTake s e j f).2 e j a.noise (flitTake s e j f).1) (b2n (decide (0 = 2))) =
      flitWire (flitTake s e j f).1 (burim (flitTake s e j f).2 e j).last := by
    rw [onLanes, hnoise, Nat.zero_mod]
    exact (Nat.xor_zero _).trans (Nat.xor_zero _)
  have hlast : (burim (flitTake s e j f).2 d i).last = (burim s d i).last := by
    obtain ⟨sp, hsp⟩ := hother d i fun h => hne (Prod.mk.inj h).1
    rw [hsp]
  refine ⟨_, (flitRead (flitWire (flitTake s e j f).1 (burim (flitTake s e j f).2 e j).last)).2, hs.trans (by rw [h1]), hdst.trans (by rw [h1]), ?_⟩
  have hnew : flitNew s d i e j f a = flitArrive (flitTake s e j f).2 d i e j
      (Nat.xor (onLanes (flitTake s e j f).2 e j a.noise (flitTake s e j f).1) (b2n (decide (0 = 2)))) a.hop (announced s e j) false := by
    unfold flitNew
    simp only [injPick_idle hinj', hlate, Nat.zero_ne_one, if_false, OfNat.zero_ne_ofNat, false_and]
  rw [hnew, hlanes, flitArrive]
  rw [if_neg (by rw [hdiv, hmod]; exact not_not.2 rfl), if_neg, if_pos]
  · rw [hs, h1, hlast]
    exact hseq
  · rw [hkind, h1]
    change ¬(f.kind = 0 ∨ f.kind = 4)
    omega

/-! ### Flits with errors, retraining and the loss of a link (R431, R432) -/

theorem burimState_of_rd {s t : State} {d i : Nat}
    (h : rd t (pgBurim d) (Off.BU_STAT_0 + 4 * i) = rd s (pgBurim d) (Off.BU_STAT_0 + 4 * i)) : burimState t d i = burimState s d i := by
  rw [burimState, rf, h, burimState, rf]

@[simp] theorem burim_raise (s : State) (p : Pg) (k d i : Nat) : burim (raise s p k) d i = burim s d i :=
  eq_of_engines (burim · d i) (engines_raise ..)

/-- One side in retraining. -/
theorem sideRetrain_spec (s : State) (d i : Nat) : burimState (sideRetrain s d i) d i = 3 ∧
    rd (sideRetrain s d i) (pgBurim d) (buOff i Off.CNT_RETRAIN_burim) = inc24 (rd s (pgBurim d) (buOff i Off.CNT_RETRAIN_burim)) ∧
    (∀ o, o ≠ Off.EVT_LAT → o ≠ Off.BU_STAT_0 + 4 * i → o ≠ buOff i Off.CNT_RETRAIN_burim →
      rd (sideRetrain s d i) (pgBurim d) o = rd s (pgBurim d) o) ∧
    (∀ q, q ≠ pgBurim d → ∀ o, rd (sideRetrain s d i) q o = rd s q o) ∧
    (burim (sideRetrain s d i) d i).last = (burim s d i).last ∧
    ∀ e j, (d, i) ≠ (e, j) → burim (sideRetrain s d i) e j = burim s e j := by
  have hoff : buOff i Off.CNT_RETRAIN_burim ≠ Off.BU_STAT_0 + 4 * i := by unfold buOff; simp; omega
  unfold sideRetrain
  dsimp only
  refine ⟨?_, ?_, fun o h1 h2 h3 => ?_, fun q hq o => ?_, ?_, fun e j h => ?_⟩
  · rw [burimState, rf, rd_raise_off _ _ _ _ _ (by simp; omega), count, rd_wr_off _ _ _ _ _ _ hoff, rd_setBurim]
    exact (rf_wf_same _ _ _ _ _ _ (by decide))
  · rw [rd_raise_off _ _ _ _ _ (by unfold buOff; simp; omega), count, rd_wr_same, rd_setBurim, wf,
      rd_wr_off _ _ _ _ _ _ hoff.symm]
  · rw [rd_raise_off _ _ _ _ _ h1, count, rd_wr_off _ _ _ _ _ _ h3.symm, rd_setBurim, wf, rd_wr_off _ _ _ _ _ _ h2.symm]
  · rw [rd_raise_page _ _ _ _ _ hq.symm, rd_count_page _ _ _ _ _ hq.symm, rd_setBurim, wf, rd_wr_page _ _ _ _ _ _ hq.symm]
  · rw [burim_raise, count, burim_wr, burim_setBurim]
  · rw [burim_raise, count, burim_wr, burim_setBurim_other _ _ _ _ _ _ h, wf, burim_wr]

/-- Both sides in retraining. -/
theorem linkRetrain_spec (s : State) {d i e j : Nat} (hne : e ≠ d) : linkIn (linkRetrain s d i e j) d i e j 3 = true ∧
    rd (linkRetrain s d i e j) (pgBurim d) (buOff i Off.CNT_RETRAIN_burim) = inc24 (rd s (pgBurim d) (buOff i Off.CNT_RETRAIN_burim)) ∧
    (∀ o, o ≠ Off.EVT_LAT → o ≠ Off.BU_STAT_0 + 4 * i → o ≠ buOff i Off.CNT_RETRAIN_burim →
      rd (linkRetrain s d i e j) (pgBurim d) o = rd s (pgBurim d) o) ∧
    (burim (linkRetrain s d i e j) d i).last = (burim s d i).last := by
  obtain ⟨a1, a2, a3, -, a5, -⟩ := sideRetrain_spec s d i
  obtain ⟨b1, -, -, b4, -, b6⟩ := sideRetrain_spec (sideRetrain s d i) e j
  have hpg := pgBurim_apart hne
  unfold linkRetrain
  refine ⟨?_, ?_, fun o h1 h2 h3 => ?_, ?_⟩
  · rw [linkIn, burimState_of_rd (b4 _ hpg.symm _), a1, b1]
    rfl
  · rw [b4 _ hpg.symm, a2]
  · rw [b4 _ hpg.symm, a3 o h1 h2 h3]
  · rw [b6 d i fun h => hne (Prod.mk.inj h).1, a5]

/-- A flit whose check word fails is counted, and the last good one stays. -/
theorem flitBad_spec (s : State) {d i e j : Nat} (hne : e ≠ d) (ann replay : Bool) :
    rd (flitBad s d i e j ann replay) (pgBurim d) (buOff i Off.CNT_CRC) = inc24 (rd s (pgBurim d) (buOff i Off.CNT_CRC)) ∧
    (burim (flitBad s d i e j ann replay) d i).last = (burim s d i).last := by
  unfold flitBad
  dsimp only
  generalize hx : setBurim (count s (pgBurim d) (buOff i Off.CNT_CRC)) d i _ = u
  have hlast : (burim u d i).last = (burim s d i).last := by
    rw [← hx, burim_setBurim]
    rfl
  have hcnt : rd u (pgBurim d) (buOff i Off.CNT_CRC) = inc24 (rd s (pgBurim d) (buOff i Off.CNT_CRC)) := by
    rw [← hx, rd_setBurim, count, rd_wr_same]
  split
  · obtain ⟨-, -, h3, h4⟩ := linkRetrain_spec u (i := i) (j := j) hne
    exact ⟨(h3 _ (by unfold buOff; simp; omega) (by unfold buOff; simp; omega) (by unfold buOff; simp)).trans hcnt, h4.trans hlast⟩
  · unfold nakSend
    dsimp only
    split
    · exact ⟨hcnt, (congrArg BurimSt.last (burim_setBurim ..)).trans hlast⟩
    · exact ⟨hcnt, hlast⟩

/-- One side enters UP. -/
theorem sideUp_spec (s : State) (d i e j : Nat) : burimState (sideUp s d i e j) d i = 2 ∧
    ∀ q, q ≠ pgBurim d → ∀ o, rd (sideUp s d i e j) q o = rd s q o := by
  unfold sideUp
  dsimp only
  refine ⟨?_, fun q hq o => ?_⟩
  · rw [burimState, rf, rd_raise_off _ _ _ _ _ (by simp; omega), rd_setBurim]
    exact rf_wf_same _ _ _ _ _ _ (by decide)
  · rw [rd_raise_page _ _ _ _ _ hq.symm, rd_setBurim, wf, rd_wr_page _ _ _ _ _ _ hq.symm, flitAckTake, rd_setBurim]

/-- One side enters DOWN. -/
theorem sideDown_spec (s : State) (d i : Nat) : burimState (sideDown s d i) d i = 4 ∧
    ∀ q, q ≠ pgBurim d → ∀ o, rd (sideDown s d i) q o = rd s q o := by
  unfold sideDown
  refine ⟨?_, fun q hq o => ?_⟩
  · rw [burimState, rf, rd_raise_off _ _ _ _ _ (by simp; omega), rd_setBurim]
    exact rf_wf_same _ _ _ _ _ _ (by decide)
  · rw [rd_raise_page _ _ _ _ _ hq.symm, rd_setBurim, wf, rd_wr_page _ _ _ _ _ _ hq.symm]

/-- What die 0 learns leaves the links' pages. -/
theorem rd_diesLearn_burim (s : State) (d o : Nat) : rd (diesLearn s) (pgBurim d) o = rd s (pgBurim d) o :=
  (diesLearn_keeps (Kind.apart .burim .fence rfl) (Kind.apart .burim .chuteGlobal rfl) (Kind.apart .burim .seam rfl)
    (Kind.apart .burim .chute rfl) (.refl ..)).regs o

theorem rd_losePathless_burim (s : State) (d o : Nat) : rd (losePathless s) (pgBurim d) o = rd s (pgBurim d) o := by
  have ha (k : Kind) (h : .burim ≠ k) : k.Apart (pgBurim d) := Kind.apart .burim k rfl h
  refine (losePathless_keeps (ha .die (by decide)) (ha .mode (by decide)) (ha .tsync (by decide)) (ha .fence (by decide))
    (ha .assay (by decide)) (ha .hoistGlobal (by decide)) (ha .chuteGlobal (by decide)) (ha .hp (by decide))
    (ha .enc (by decide)) (ha .ax (by decide)) (ha .seam (by decide)) (ha .echo (by decide)) (ha .ctxCtrl (by decide))
    (ha .chute (by decide)) (ha .debug (by decide)) (ha .session (by decide)) (fun p hp hpq => ?_) (.refl ..)).regs o
  rw [hpq] at hp
  cases hp

theorem rd_seamsAll_burim (s : State) (d o : Nat) : rd (seamsAll s) (pgBurim d) o = rd s (pgBurim d) o :=
  (seamsAll_keeps (Kind.apart .burim .seam rfl) (.refl ..)).regs o

theorem rd_logRecord_burim (s : State) (a b d o : Nat) (r : Rec) : rd (logRecord s a b r) (pgBurim d) o = rd s (pgBurim d) o :=
  (logRecord_keeps (Kind.apart .burim .fence rfl) (Kind.apart .burim .chuteGlobal rfl) (Kind.apart .burim .chute rfl)
    (.refl ..)).regs o

theorem rd_sourceGone_burim (s : State) (a i d o : Nat) : rd (sourceGone s a i) (pgBurim d) o = rd s (pgBurim d) o :=
  (sourceGone_keeps (Kind.apart .burim .timebase rfl) (.refl ..)).regs o

theorem regs_flitsReroute (s : State) (d i : Nat) (fs : List Flit) : (flitsReroute s d i fs).regs = s.regs := by
  refine each_pres (P := fun t => t.regs = s.regs) rfl fun t f _ ht => ?_
  split
  · split
    · exact ht
    · exact ht
  · exact ht

/-- The routes follow the links and change none of them. -/
theorem rd_routesFollow (s : State) (q : Pg) {o : Nat} (hr : Off.BU_ROUTE ≠ o) (hl : o ≠ Off.EVT_LAT) :
    rd (routesFollow s) q o = rd s q o := by
  refine each_pres (P := fun t => rd t q o = rd s q o) rfl fun t d _ ht => ?_
  split
  · exact ht
  · rw [rd_raise_off _ _ _ _ _ hl, rd_wr_off _ _ _ _ _ _ hr, ht]

/-- Both sides of a link that is lost are down. -/
theorem linkDown_spec (s : State) {d i e j : Nat} (hne : e ≠ d) (hi : i < 2) (hj : j < 2) :
    linkIn (linkDown s d i e j) d i e j 4 = true := by
  obtain ⟨a1, -⟩ := sideDown_spec s d i
  obtain ⟨b1, b2⟩ := sideDown_spec (sideDown s d i) e j
  have hkeep (c : Nat) {k : Nat} (hk : k < 2) : burimState (linkDown s d i e j) c k = burimState (sideDown (sideDown s d i) e j) c k := by
    refine burimState_of_rd ?_
    unfold linkDown
    dsimp only
    rw [rd_diesLearn_burim, rd_losePathless_burim, rd_seamsAll_burim, rd, regs_flitsReroute, regs_flitsReroute]
    refine (rd_routesFollow _ _ (by simp; omega) (by simp; omega)).trans ?_
    rw [rd_sourceGone_burim, rd_sourceGone_burim, rd_logRecord_burim]
  rw [linkIn, hkeep d hi, hkeep e hj, b1, burimState_of_rd (b2 _ (pgBurim_apart hne).symm _), a1]
  rfl

/-! ### The commands -/

section
variable {s : State} {d i e j : Nat} (hp : burimPeer s.part.dies d i = some (e, j))
include hp

theorem exec_flitReceive (a : FlitIn) (h : linkIn s d i e j 2 = true) : exec (.flitReceive d i a) s = .next (flitIn s d i e j a) := by
  refine congrArg Host.Outcome.next ?_
  rw [hp]
  exact if_pos h

theorem exec_nakReceive {q : Nat} (h : linkIn s d i e j 2 = true) (hn : (burim s e j).nak = some q) :
    exec (.nakReceive d i q) s = .next (setBurim s d i { burim s d i with
      buf := afterAck (burim s d i).buf q, resend := (afterAck (burim s d i).buf q).map Flit.seq }) := by
  refine congrArg Host.Outcome.next ?_
  rw [hp]
  exact if_pos (by rw [h, hn, decide_eq_true rfl]; rfl)

theorem exec_burimRetrain (h : linkIn s d i e j 2 = true) : exec (.burimRetrain d i) s = .next (linkRetrain s d i e j) := by
  refine congrArg Host.Outcome.next ?_
  rw [hp]
  exact if_pos h

theorem exec_burimRetrainDone (good : Bool) (h : linkIn s d i e j 3 = true) : exec (.burimRetrainDone d i good) s =
    .next (if good then diesLearn (sideUp (sideUp s d i e j) e j d i)
      else if (burim s d i).attempts < 2 then
        setBurim (setBurim s d i { burim s d i with attempts := (burim s d i).attempts + 1, since := s.clock }) e j
          { burim s e j with attempts := (burim s d i).attempts + 1, since := s.clock }
      else linkDown s d i e j) := by
  refine congrArg Host.Outcome.next ?_
  rw [hp]
  exact if_neg (by rw [h]; decide)

end

theorem burimPeer_lt {n d i e j : Nat} (h : burimPeer n d i = some (e, j)) : j < 2 := by
  unfold burimPeer at h
  split at h
  · cases h
  · obtain ⟨k, hport, hk⟩ := Option.map_eq_some_iff.1 h
    obtain ⟨rfl, rfl⟩ := Prod.mk.inj hk
    exact burimPort_lt hport

/-- What a new flit changes, sent and accepted. -/
theorem flitNew_spec {s u : State} {d i e j : Nat} {f : Flit} {a : FlitIn} (hne : e ≠ d)
    (hreg : u.regs = s.regs) (hpart : u.part = s.part) (hej : ∃ q, burim u e j = { burim s e j with queue := q })
    (hother : ∀ c k, (e, j) ≠ (c, k) → burim u c k = burim s c k) (hnoise : a.noise = 0)
    (hlate : (burim s e j).late = none) (hinj : running s (pgInject e) = false)
    (hseq : (burim s e j).next = ((burim s d i).last + 1) % 1024) (hk1 : 1 ≤ f.kind) (hk3 : f.kind ≤ 3) (hd : f.dst < 8)
    (hsrc : f.src < 8) :
    (burim (flitNew u d i e j f a) d i).last = (burim s e j).next ∧
    (burim (flitNew u d i e j f a) e j).next = ((burim s e j).next + 1) % 1024 ∧
    rd (flitNew u d i e j f a) (pgBurim d) (buOff i Off.CNT_RX) = rd s (pgBurim d) (buOff i Off.CNT_RX) + 1#24 ∧
    rd (flitNew u d i e j f a) (pgBurim e) (buOff j Off.CNT_TX_burim) = rd s (pgBurim e) (buOff j Off.CNT_TX_burim) + 1#24 ∧
    (f.dst ≠ d → ∀ p, routePort s d f.dst (decide (i = 0)) = some p →
      (burim (flitNew u d i e j f a) d p).queue.length = (burim s d p).queue.length + 1 ∧
      ((burim (flitNew u d i e j f a) d p).queue.getLast?.map fun g => (g.dst, g.via)) = some (f.dst, some i)) := by
  obtain ⟨q, hq⟩ := hej
  have hdi (p : Nat) : (e, j) ≠ (d, p) := fun h => hne (Prod.mk.inj h).1
  have hrdu (p : Pg) (o : Nat) : rd u p o = rd s p o := by rw [rd, hreg, rd]
  have hinju : running u (pgInject e) = false := by
    rw [running, pstate, rf, hrdu, present_congr hpart, ← hinj]
    rfl
  obtain ⟨g, ack, hgs, hgd, hnew⟩ := flitNew_accepted (s := u) (i := i) (a := a) hne hnoise (by rw [hq]; exact hlate) hinju
    (by rw [hq, hother d i (hdi i)]; exact hseq) hk1 hk3 hd hsrc
  rw [hq] at hgs
  obtain ⟨-, htpart, htnext, htother, httx, htrd⟩ := flitTake_spec u e j f
  obtain ⟨hnpart, ⟨b, hnb⟩, hnother, hnrx, hnrd⟩ := flitTaken_spec (flitTake u e j f).2 d i g ack a.hop
  obtain ⟨hvreg, hvlast, hvnext, hvq⟩ := flitDeliver_spec (flitTaken (flitTake u e j f).2 d i g ack a.hop) (i := i) (j := j) hne g
  have hpg := pgBurim_apart hne
  rw [hnew, flitAccept_eq]
  refine ⟨?_, ?_, ?_, ?_, fun hdst p hroute => ?_⟩
  · rw [hvlast, hnb, hgs]
  · rw [hvnext, hnother e j (hdi i).symm, htnext, hq]
  · rw [rd, hvreg]
    refine hnrx.trans ?_
    rw [htrd (pgBurim d) _ fun h => hpg (congrArg Prod.fst h).symm, hrdu]
  · rw [rd, hvreg]
    refine (hnrd _ _ (fun h => hpg (congrArg Prod.fst h)) fun h => hpg (congrArg Prod.fst h)).trans ?_
    exact httx.trans (by rw [hrdu])
  · have hlinks : SameLinks s (flitTaken (flitTake u e j f).2 d i g ack a.hop) := by
      refine ⟨hnpart.trans (htpart.trans hpart), fun c k hk => burimState_of_rd ?_⟩
      have hoff {k' o : Nat} (ho : 0x60 ≤ o) : Off.BU_STAT_0 + 4 * k ≠ buOff k' o := (buOff_ne_stat ho hk).symm
      rw [hnrd _ _ (fun h => hoff (by decide) (congrArg Prod.snd h)) fun h => hoff (by decide) (congrArg Prod.snd h),
        htrd _ _ fun h => hoff (by decide) (congrArg Prod.snd h), hrdu]
    rw [← hgd] at hdst hroute
    have hqueue := hvq hdst p ((routePort_congr hlinks ..).trans hroute)
    have hold : (burim (flitTaken (flitTake u e j f).2 d i g ack a.hop) d p).queue = (burim s d p).queue := by
      obtain ⟨sp, hsp⟩ := htother d p (hdi p)
      by_cases hpi : i = p
      · subst hpi
        rw [hnb, hsp, hother d i (hdi i)]
      · rw [hnother d p (by simp [hpi]), hsp, hother d p (hdi p)]
    rw [hqueue, hold, hgd]
    simp

/-- Settles O52: a flit that crosses is `flitNew_spec`, one in error `flitBad_spec`, a lost link `linkDown_spec`. -/
theorem burimLinks : Obligations.BurimLinks := by
  intro s d i e j hp
  obtain ⟨hne, hi⟩ := burimPeer_ne hp
  refine ⟨fun a h hk hnoise hres hlate hbuf hinj hseq f hpick hk1 hk3 hd hsrc _ => ?_, fun a h hk hres hq hcrc => ?_,
    fun q h hn => ?_, fun h hpres => ?_, fun h => ?_, fun h hatt => ?_, fun h hatt => ?_⟩
  · obtain ⟨hreg, hpart, ⟨q, hq⟩, hother⟩ := flitOffer_spec s e j a
    have hin : flitIn s d i e j a = flitNew (flitOffer s e j a) d i e j f a := by
      have hbuf' : ¬256 ≤ (burim (flitOffer s e j a) e j).buf.length := by rw [hq]; exact Nat.not_le.2 hbuf
      have hres' : (burim (flitOffer s e j a) e j).resend = [] := by rw [hq]; exact hres
      simp only [flitIn, if_neg (Nat.not_lt.2 hk), hres', if_neg hbuf', hpick]
    refine .of (exec_flitReceive hp a h) ?_
    rw [hin]
    exact flitNew_spec hne hreg hpart ⟨q, hq⟩ hother hnoise hlate hinj hseq hk1 hk3 hd hsrc
  · have hin : flitIn s d i e j a = flitIdle s d i e j a := by
      have hoffer : flitOffer s e j a = s := if_pos (.inl hk)
      have hpick : flitPick (burim s e j) (burim s e j).queue = none := by rw [hq]; rfl
      simp only [flitIn, hk, hoffer, hres, hpick, ite_self, Nat.not_lt_zero, if_false]
    refine .of (exec_flitReceive hp a h) ?_
    rw [hin, flitIdle, flitArrive, if_pos (hcrc _ rfl)]
    exact flitBad_spec s hne _ _
  · refine .of (exec_nakReceive hp h hn) ?_
    rw [burim_setBurim]
    exact ⟨rfl, rfl, rfl⟩
  · obtain ⟨h1, h2, -, -⟩ := linkRetrain_spec s (i := i) (j := j) hne
    refine .of (exec_burimRetrain hp h) ⟨h1, h2, ?_⟩
    obtain ⟨-, -, -, b4, -, -⟩ := sideRetrain_spec (sideRetrain s d i) e j
    rw [rb, linkRetrain, b4 _ (pgBurim_apart hne).symm]
    exact rb_raise_same _ _ _ hpres (by omega)
  · refine .of (exec_burimRetrainDone hp true h) ?_
    obtain ⟨a1, -⟩ := sideUp_spec s d i e j
    obtain ⟨b1, b2⟩ := sideUp_spec (sideUp s d i e j) e j d i
    rw [if_pos rfl, linkIn, burimState_of_rd (rd_diesLearn_burim ..), burimState_of_rd (rd_diesLearn_burim ..), b1,
      burimState_of_rd (b2 _ (pgBurim_apart hne).symm _), a1]
    rfl
  · refine .of (exec_burimRetrainDone hp false h) ?_
    rw [if_neg Bool.false_ne_true, if_pos hatt]
    refine ⟨h, ?_⟩
    rw [burim_setBurim_other _ _ _ _ _ _ fun h => hne (Prod.mk.inj h).1, burim_setBurim]
  · refine .of (exec_burimRetrainDone hp false h) ?_
    rw [if_neg Bool.false_ne_true, if_neg (Nat.not_lt.2 hatt)]
    exact linkDown_spec s hne hi (burimPeer_lt hp)

end Sys2Proof.Machine

namespace Sys2Proof.Machine
open Sys2Proof.Laws

/-! ### The steps of a start (R399 to R402) -/

section
variable (s : State) (d : Nat)

theorem dies_tlRecord (st last alt detail us : Nat) : (tlRecord s d st last alt detail us).dies = s.dies :=
  tlRecord_inv (φ := State.dies) (fun _ _ => rfl) (fun _ _ => rfl) (fun _ _ => rfl) rfl

theorem dies_tlCheck : (tlCheck s d).dies = s.dies := by
  apply tlCheck_inv (φ := State.dies)
  case hU => rfl
  all_goals exact fun _ _ => rfl

theorem die_setBoot (b : BootSt) : die (setBoot s d b) d = { die s d with boot := b } := die_setDie ..

theorem die_boardOpen : ∃ n, die (boardOpen s d) d = { die s d with boot := { (die s d).boot with skips := n } } := by
  refine ⟨tlSkips (tlCheck s d) d, ?_⟩
  unfold boardOpen
  dsimp only
  rw [die_of_dies (dies_tlRecord ..)]
  refine (retWrite_inv (φ := (die · d)) (fun _ _ => rfl) (fun _ _ => rfl) (fun _ _ => rfl) ?_)
  refine (retWrite_inv (φ := (die · d)) (fun _ _ => rfl) (fun _ _ => rfl) (fun _ _ => rfl) ?_)
  exact (die_setBoot ..).trans (by rw [die_of_dies (dies_tlCheck s d)])

/-- The next step of the die has begun, and the step that ended has its outcome. -/
theorem die_stepEnd (last alt detail : Nat) : die (stepEnd s d last alt detail) d = { die s d with boot := { (die s d).boot with
    step := (die s d).boot.step + 1, since := s.clock, outcome := (die s d).boot.outcome ++ [last]
    alts := if last = 3 then (die s d).boot.alts + 2 ^ (die s d).boot.step else (die s d).boot.alts } } := by
  unfold stepEnd
  dsimp only
  rw [die_setBoot]
  have h : die (nextFree (tlRecord s d (die s d).boot.step last alt detail (stepUs s d))) d = die s d :=
    die_of_dies (dies_tlRecord ..) d
  rw [h]

theorem stepDone_of_not_skip {alt : Nat} (h : stepSkip s d = false) : stepDone s d alt = stepEnd s d 1 0 0 := by
  rw [stepDone, h]
  rfl

theorem clock_boardOpen : (boardOpen s d).clock = s.clock := by
  apply boardOpen_inv (φ := State.clock)
  case hU => rfl
  all_goals exact fun _ _ => rfl

theorem mem_stepEnd (last alt detail : Nat) : (stepEnd s d last alt detail).mem = s.mem := by
  apply stepEnd_inv (φ := State.mem)
  case hU => rfl
  all_goals exact fun _ _ => rfl

theorem part_stepEnd (last alt detail : Nat) : (stepEnd s d last alt detail).part = s.part := by
  apply stepEnd_inv (φ := State.part)
  case hU => rfl
  all_goals exact fun _ _ => rfl

theorem pcie_stepEnd (last alt detail : Nat) : (stepEnd s d last alt detail).pcie = s.pcie := by
  apply stepEnd_inv (φ := State.pcie)
  case hU => rfl
  all_goals exact fun _ _ => rfl

theorem rd_stepEnd (last alt detail : Nat) {q : Pg} (hq : Kind.retain.Apart q) (o : Nat) :
    rd (stepEnd s d last alt detail) q o = rd s q o :=
  (stepEnd_keeps hq (.refl ..)).regs o

end

/-! ### FUSE_READ -/

theorem die_fusesTake (s : State) (d : Nat) (f : Fuses) : (die (fusesTake s d f) d).serial = f.serial % 2 ^ 48 ∧
    (die (fusesTake s d f) d).lc = max (die s d).lc (f.lc % 4) ∧ (die (fusesTake s d f) d).fuseOk = true ∧
    (die (fusesTake s d f) d).boot = (die s d).boot := by
  unfold fusesTake
  dsimp only
  rw [die_of_dies (s := allowedFollow _) (each_pres (P := fun t => t.dies = _) rfl fun t e _ ht => (dies_injFollow t e).trans ht),
    die_of_dies (dies_allowedFollow _)]
  split
  · rw [wf, die_wr, die_setDie, die_setDie]
    exact ⟨rfl, rfl, rfl, rfl⟩
  · rw [die_setDie]
    exact ⟨rfl, rfl, rfl, rfl⟩

theorem step_of_atStep {s : State} {d st : Nat} (h : atStep s d st = true) : (die s d).boot.step = st := by
  simp only [atStep, Bool.and_eq_true, decide_eq_true_eq] at h
  obtain ⟨⟨⟨⟨-, hst⟩, -⟩, -⟩, -⟩ := h
  exact hst

theorem exec_fuseRead {s : State} {d : Nat} {f : Fuses} (h : atStep s d 1 = true) (hk : stepSkip (boardOpen s d) d = false)
    (hf : f.good = true) : exec (.fuseRead d f) s =
      .next (if d = 0 then stepEnd (fusesTake (boardOpen s d) d f) d 1 0 0
        else stepNone (stepEnd (fusesTake (boardOpen s d) d f) d 1 0 0) d) := by
  refine congrArg Host.Outcome.next ((if_neg (by rw [h]; simp)).trans ?_)
  dsimp only
  rw [if_neg (by rw [hk]; simp), if_neg (by rw [hf]; simp)]

/-- FUSE_READ of good fuses. -/
theorem fuseRead_spec {s : State} {d : Nat} {f : Fuses} (h : atStep s d 1 = true)
    (hk : stepSkip (boardOpen s d) d = false) (hf : f.good = true) : Completes (.fuseRead d f) s fun t =>
      (die t d).boot.step = (if d = 0 then 2 else 3) ∧ (die t d).serial = f.serial % 2 ^ 48 ∧
      (die t d).lc = max (die s d).lc (f.lc % 4) ∧ (die t d).fuseOk = true := by
  refine .of (exec_fuseRead h hk hf) ?_
  obtain ⟨n, hn⟩ := die_boardOpen s d
  obtain ⟨hserial, hlc, hok, hboot⟩ := die_fusesTake (boardOpen s d) d f
  have hst := step_of_atStep h
  split
  · rw [die_stepEnd, hboot, hn]
    exact ⟨congrArg (· + 1) hst, hserial, hlc.trans (by rw [hn]), hok⟩
  · rw [stepNone, die_stepEnd, die_stepEnd, hboot, hn]
    exact ⟨congrArg (· + 1 + 1) hst, hserial, hlc.trans (by rw [hn]), hok⟩

/-! ### CRYSTAL and PLL_LOCK -/

theorem crystal_spec {s : State} (h : atStep s 0 2 = true) (hk : stepSkip s 0 = false) :
    Completes .crystal s fun t => (die t 0).boot.step = 3 := by
  refine .of (congrArg Host.Outcome.next (if_pos h)) ?_
  rw [hk, if_neg (by simp), stepDone_of_not_skip _ _ hk, die_stepEnd]
  exact congrArg (· + 1) (step_of_atStep h)

theorem dies_setDyn (s : State) (p : Pg) (i : Nat) (b : Bool) (d : Nat) : die (setDyn s p i b) d = die s d := by
  apply setDyn_inv (φ := (die · d))
  case hU => rfl
  all_goals exact fun _ _ => rfl

/-- SYNC_OK of a die changes the time of its last change alone. -/
theorem die_setSyncOk (s : State) (d : Nat) (b : Bool) : ∃ n, die (setSyncOk s d b) d = { die s d with syncSince := n } := by
  have h : die (setDyn (wb s (pgTb d) Off.TB_STAT 5 b) (pgTb d) 4 (!b)) d = die s d :=
    (dies_setDyn ..).trans (die_wr ..)
  unfold setSyncOk
  dsimp only
  split
  · rw [die_setDie, h]
    exact ⟨_, rfl⟩
  · exact ⟨_, h⟩

/-- The state of a die whose PLL has locked, before the step ends. -/
def pllLocked (s : State) (d : Nat) : State :=
  setDyn (wb (setDie s d { die s d with pllLocked := true, pllSince := s.clock, counting := true, tick := 0 }) (pgTb d) Off.TB_STAT 2 true)
    (pgTb d) 1 false

theorem die_pllLocked (s : State) (d : Nat) : die (pllLocked s d) d =
    { die s d with pllLocked := true, pllSince := s.clock, counting := true, tick := 0 } :=
  (dies_setDyn ..).trans ((die_wr ..).trans (die_setDie ..))

theorem die_secPhase (s : State) (d : Nat) : die (secPhase s) d = die s d := by
  unfold secPhase
  split
  · rfl
  · rfl

/-- The locked PLL of a die, as the step ends on it. -/
theorem die_pllStep (s : State) (d : Nat) : ∃ n,
    die (if d = 0 then secPhase (setSyncOk (pllLocked s d) 0 true) else pllLocked s d) d =
      { die s d with pllLocked := true, pllSince := s.clock, counting := true, tick := 0, syncSince := n } := by
  split
  · subst d
    obtain ⟨n, hn⟩ := die_setSyncOk (pllLocked s 0) 0 true
    exact ⟨n, (die_secPhase ..).trans (hn.trans (by rw [die_pllLocked]))⟩
  · exact ⟨_, die_pllLocked s d⟩

theorem exec_pllLock {s : State} {d : Nat} (h : atStep s d 3 = true) : exec (.pllLock d) s =
    .next (stepDone (if d = 0 then secPhase (setSyncOk (pllLocked s d) 0 true) else pllLocked s d) d 3) :=
  congrArg Host.Outcome.next (if_pos h)

theorem pllLock_spec {s : State} {d : Nat} (h : atStep s d 3 = true) (hk : stepSkip s d = false) :
    Completes (.pllLock d) s fun t =>
      (die t d).boot.step = 4 ∧ (die t d).counting = true ∧ (die t d).pllLocked = true ∧ now t d = 0 := by
  refine .of (exec_pllLock h) ?_
  obtain ⟨n, hn⟩ := die_pllStep s d
  generalize (if d = 0 then secPhase (setSyncOk (pllLocked s d) 0 true) else pllLocked s d) = t at hn
  have hk' : stepSkip t d = false := by
    rw [stepSkip, hn]
    exact hk
  rw [stepDone_of_not_skip _ _ hk', now, die_stepEnd, hn]
  exact ⟨congrArg (· + 1) (step_of_atStep h), rfl, rfl, rfl⟩

/-! ### MEM_REPAIR -/

theorem memGet_filter (m : List Host.Cell) (k : Nat → Bool) (x : Nat) :
    memGet (m.filter fun e => k e.1) x = if k x then memGet m x else 0#8 := by
  induction m with
  | nil => simp [memGet]
  | cons e m ih =>
    obtain ⟨a, b⟩ := e
    by_cases hk : k a = true <;> by_cases ha : a = x
    · subst ha
      simp [memGet, hk]
    · simp [memGet, hk, ha, ih]
    · subst ha
      simp [hk, ih]
    · simp [memGet, hk, ha, ih]

theorem die_mapApply (s : State) (d e : Nat) : die (mapApply s d) e = die s e := by
  apply mapApply_inv (φ := (die · e))
  case hU => rfl
  all_goals exact fun _ _ => rfl

theorem mem_mapApply (s : State) (d : Nat) : (mapApply s d).mem = s.mem := by
  apply mapApply_inv (φ := State.mem)
  case hU => rfl
  all_goals exact fun _ _ => rfl

theorem part_mapApply (s : State) (d : Nat) : (mapApply s d).part = s.part := by
  apply mapApply_inv (φ := State.part)
  case hU => rfl
  all_goals exact fun _ _ => rfl

theorem linksBegin_spec (s : State) (d : Nat) : (linksBegin s d).mem = s.mem ∧
    (die (linksBegin s d) d).boot.step = (die s d).boot.step + (if s.part.dies = 1 then 1 else 0) := by
  unfold linksBegin
  split
  · exact ⟨mem_stepEnd .., by rw [stepNone, die_stepEnd]⟩
  · refine each_pres (P := fun t => t.mem = s.mem ∧ (die t d).boot.step = (die s d).boot.step + 0) ⟨rfl, rfl⟩ fun t b _ ht => ?_
    split
    · exact ⟨ht.1, (congrArg (fun x : DieSt => x.boot.step) (die_wr ..)).trans ht.2⟩
    · exact ht

theorem exec_memRepair {s : State} {d : Nat} (h : atStep s d 4 = true) (hk : stepSkip s d = false) :
    exec (.memRepair d) s = .next (linksBegin (stepDone (mapApply (memAfresh s d) d) d 4) d) := by
  refine congrArg Host.Outcome.next ((if_pos h).trans ?_)
  dsimp only
  rw [if_neg (by rw [hk]; simp)]

theorem memRepair_spec {s : State} {d : Nat} (h : atStep s d 4 = true) (hk : stepSkip s d = false) :
    Completes (.memRepair d) s fun t => (die t d).boot.step = (if s.part.dies = 1 then 6 else 5) ∧
      ∀ x, memGet t.mem x = if x / 2 ^ 24 = d then 0#8 else memGet s.mem x := by
  refine .of (exec_memRepair h hk) ?_
  have hd : die (mapApply (memAfresh s d) d) d = die s d := die_mapApply ..
  have hk' : stepSkip (mapApply (memAfresh s d) d) d = false := by
    rw [stepSkip, hd]
    exact hk
  rw [stepDone_of_not_skip _ _ hk']
  obtain ⟨hmem, hstep⟩ := linksBegin_spec (stepEnd (mapApply (memAfresh s d) d) d 1 0 0) d
  rw [mem_stepEnd, mem_mapApply] at hmem
  rw [die_stepEnd, hd, part_stepEnd, part_mapApply] at hstep
  refine ⟨hstep.trans ?_, fun x => ?_⟩
  · have hst := step_of_atStep h
    show (die s d).boot.step + 1 + (if s.part.dies = 1 then 1 else 0) = _
    rw [hst]
    split <;> rfl
  · rw [hmem]
    refine (memGet_filter s.mem (fun a => decide (a / 2 ^ 24 ≠ d)) x).trans ?_
    by_cases hx : x / 2 ^ 24 = d
    · rw [if_neg (by rw [decide_eq_true_eq]; exact not_not.2 hx), if_pos hx]
    · rw [if_pos (decide_eq_true hx), if_neg hx]

end Sys2Proof.Machine

namespace Sys2Proof.Machine
open Sys2Proof.Laws

/-! ### What the enumeration of the dies leaves of a start (R401, R405) -/

/-- The state of a die's start. -/
def bootAt (d : Nat) (s : State) : BootSt := (die s d).boot

section
variable (s : State) (e : Nat)

theorem bootAt_dbgClose (d : Nat) : bootAt e (dbgClose s d) = bootAt e s := by
  unfold dbgClose
  dsimp only
  split
  · rw [bootAt, die_of_dies (dies_allowedFollow _), die_raise, die_raise, wb, die_wr]
    by_cases h : d = e
    · subst h
      rw [die_setDie]
      rfl
    · rw [die_setDie_other _ _ _ _ h]
      rfl
  · rfl

/-- The safe state of a page leaves the start of every die. -/
theorem bootAt_pageSafe (p : Pg) (r : Nat) (ks : List Nat) : bootAt e (pageSafe s p r ks) = bootAt e s := by
  unfold pageSafe
  dsimp only
  split
  · apply hpSafe_inv (φ := bootAt e) (hU := rfl) <;> exact fun _ _ => rfl
  · apply encSafe_inv (φ := bootAt e) (hU := rfl) <;> exact fun _ _ => rfl
  · apply pdSafe_inv (φ := bootAt e) (hU := rfl) <;> exact fun _ _ => rfl
  · apply axSafe_inv (φ := bootAt e) (hU := rfl) <;> exact fun _ _ => rfl
  · apply seamsUpdate_inv (φ := bootAt e) (hU := rfl) <;> exact fun _ _ => rfl
  · apply echoSafe_inv (φ := bootAt e) (hU := rfl) <;> exact fun _ _ => rfl
  · apply asSafe_inv (φ := bootAt e) (hU := rfl) <;> exact fun _ _ => rfl
  · apply hoistSafe_inv (φ := bootAt e) (hU := rfl) <;> exact fun _ _ => rfl
  · apply lampSafe_inv (φ := bootAt e) (hU := rfl) <;> exact fun _ _ => rfl
  · apply thermSafe_inv (φ := bootAt e) (hU := rfl) <;> exact fun _ _ => rfl
  · exact bootAt_dbgClose ..
  · rfl
  · rfl
  · apply chuteFollow_inv (φ := bootAt e) (hU := rfl) <;> exact fun _ _ => rfl
  · rfl

theorem bootAt_encSync (d i : Nat) : bootAt e (encSync s d i) = bootAt e s := by
  apply encSync_inv (φ := bootAt e) (hU := rfl) <;> exact fun _ _ => rfl

theorem bootAt_raise (p : Pg) (i : Nat) : bootAt e (raise s p i) = bootAt e s := congrArg DieSt.boot (die_raise ..)

theorem bootAt_wr (p : Pg) (o : Nat) (v : Word) : bootAt e (wr s p o v) = bootAt e s := congrArg DieSt.boot (die_wr ..)

theorem bootAt_fenceQuiet (p : Pg) (r : Nat) (ks : List Nat) : bootAt e (fenceQuiet s p r ks) = bootAt e s := by
  unfold fenceQuiet
  dsimp only
  split
  · rfl
  · rw [bootAt_raise, count, bootAt_wr, bootAt_pageSafe, bootAt_wr, wf, bootAt_wr, setPstate, wf, bootAt_wr, wb, bootAt_wr]
    split
    · exact bootAt_encSync s e p.die (pgInst p)
    · rfl

/-- A change of a die that leaves its start. -/
theorem bootAt_setDie (d : Nat) (x : DieSt) (h : x.boot = (die s d).boot) : bootAt e (setDie s d x) = bootAt e s := by
  by_cases hd : d = e
  · subst hd
    exact (congrArg DieSt.boot (die_setDie ..)).trans h
  · exact congrArg DieSt.boot (die_setDie_other _ _ _ _ hd)

theorem bootAt_logRecord (d cd : Nat) (x : Rec) : bootAt e (logRecord s d cd x) = bootAt e s := by
  unfold logRecord
  dsimp only
  apply chuteRecord_inv (φ := bootAt e)
  case hU =>
    rw [At, count, bootAt_wr]
    exact bootAt_setDie s e d _ rfl
  all_goals exact fun _ _ => rfl

end

/-- What a change of the dies that take part leaves of the firmware of a die and of its start: whether firmware is up, the
step and the image. -/
structure StartKept (d : Nat) (s t : State) : Prop where
  stat : rd t (pgMbox d false) Off.MB_STAT = rd s (pgMbox d false) Off.MB_STAT
  step : (bootAt d t).step = (bootAt d s).step
  image : (bootAt d t).image = (bootAt d s).image

section
variable {d : Nat} {s t u : State}

theorem StartKept.refl (s : State) : StartKept d s s := ⟨rfl, rfl, rfl⟩

theorem StartKept.trans (h : StartKept d s t) (h' : StartKept d t u) : StartKept d s u :=
  ⟨h'.stat.trans h.stat, h'.step.trans h.step, h'.image.trans h.image⟩

/-- An operation that leaves the page's registers and the start of the die. -/
theorem StartKept.of (h : rd t (pgMbox d false) Off.MB_STAT = rd s (pgMbox d false) Off.MB_STAT) (hb : bootAt d t = bootAt d s) :
    StartKept d s t := ⟨h, by rw [hb], by rw [hb]⟩

theorem mbox_apart (k : Kind) (h : .mbox ≠ k) : k.Apart (pgMbox d false) := Kind.apart .mbox k rfl h

theorem startKept_wr {p : Pg} (o : Nat) (v : Word) (h : p ≠ pgMbox d false) : StartKept d s (wr s p o v) :=
  .of (rd_wr_page _ _ _ _ _ _ h) (bootAt_wr ..)

theorem startKept_raise (p : Pg) (i : Nat) : StartKept d s (raise s p i) :=
  .of (rd_raise_off _ _ _ _ _ (by decide)) (bootAt_raise ..)

theorem startKept_allowedFollow : StartKept d s (allowedFollow s) :=
  .of ((allowedFollow_keeps (mbox_apart .mode (by decide)) (.refl ..)).regs _) (congrArg DieSt.boot (die_of_dies (dies_allowedFollow s) d))

/-- The start of a die set to one at the same step with the same image. -/
theorem startKept_setBoot {e : Nat} {b : BootSt} (hs : b.step = (die s e).boot.step) (hi : b.image = (die s e).boot.image) :
    StartKept d s (setBoot s e b) := by
  refine ⟨rfl, ?_, ?_⟩
  · by_cases h : e = d
    · subst h
      exact (congrArg (fun x : DieSt => x.boot.step) (die_setDie ..)).trans hs
    · exact congrArg (fun x : DieSt => x.boot.step) (die_setDie_other _ _ _ _ h)
  · by_cases h : e = d
    · subst h
      exact (congrArg (fun x : DieSt => x.boot.image) (die_setDie ..)).trans hi
    · exact congrArg (fun x : DieSt => x.boot.image) (die_setDie_other _ _ _ _ h)

theorem startKept_setDie {e : Nat} {x : DieSt} (h : x.boot = (die s e).boot) : StartKept d s (setDie s e x) :=
  .of rfl (bootAt_setDie s d e x h)

theorem startKept_ctxFence (e k c : Nat) : StartKept d s (ctxFence s e k c) := by
  refine .of ?_ ?_
  · exact (ctxFence_keeps (mbox_apart .seam (by decide)) (mbox_apart .echo (by decide)) (mbox_apart .ctxCtrl (by decide)) (.refl ..)).regs _
  · apply ctxFence_inv (φ := bootAt d) (hU := rfl) <;> exact fun _ _ => rfl

/-- Fencing a page leaves whether firmware is up, the mailbox's own page too. -/
theorem startKept_fenceQuiet (p : Pg) (r : Nat) (ks : List Nat) : StartKept d s (fenceQuiet s p r ks) := by
  refine .of ?_ (bootAt_fenceQuiet ..)
  by_cases hp : p = pgMbox d false
  · subst hp
    unfold fenceQuiet
    dsimp only
    split
    · rfl
    · have hf : pgFence (pgMbox d false).die ≠ pgMbox d false := mbox_apart .fence (by decide) d
      rw [rd_raise_off _ _ _ _ _ (by decide), rd_count_page _ _ _ _ _ hf]
      refine (rd_wr_page _ _ _ _ _ _ hf).trans ?_
      rw [rd_wf_off _ _ _ _ _ _ _ _ (by decide), setPstate, rd_wf_off _ _ _ _ _ _ _ _ (by decide)]
      exact rd_wr_off _ _ _ _ _ _ (by decide)
  · have ha (k : Kind) (h : .mbox ≠ k) := mbox_apart (d := d) k h
    exact (fenceQuiet_keeps hp (ha .die (by decide)) (ha .mode (by decide)) (ha .tsync (by decide)) (ha .fence (by decide))
      (ha .assay (by decide)) (ha .hoistGlobal (by decide)) (ha .chuteGlobal (by decide)) (ha .hp (by decide))
      (ha .enc (by decide)) (ha .ax (by decide)) (ha .seam (by decide)) (ha .echo (by decide)) (ha .ctxCtrl (by decide))
      (ha .chute (by decide)) (ha .debug (by decide)) (.refl ..)).regs _

theorem startKept_fenceAll (e r : Nat) : StartKept d s (fenceAll s e r) := by
  unfold fenceAll
  dsimp only
  refine .trans ?_ (startKept_setDie rfl)
  refine each_pres (P := StartKept d s) ?_ fun t p _ ht => ht.trans (startKept_fenceQuiet ..)
  exact each_pres (P := StartKept d s) (.refl s) fun t k _ ht => ht.trans (startKept_ctxFence ..)

theorem startKept_dieReport (e r : Nat) : StartKept d s (dieReport s e r) := by
  refine .of ?_ ?_
  · exact (dieReport_keeps (mbox_apart .fence (by decide)) (mbox_apart .chuteGlobal (by decide)) (mbox_apart .seam (by decide))
      (mbox_apart .chute (by decide)) (.refl ..)).regs _
  · rw [dieReport, dieRecord, bootAt_logRecord, bootAt_raise]
    apply seamsAll_inv (φ := bootAt d)
    case hU => exact bootAt_wr ..
    all_goals exact fun _ _ => rfl

theorem startKept_fenceDie (e r : Nat) : StartKept d s (fenceDie s e r) := by
  unfold fenceDie
  dsimp only
  split
  · exact .refl s
  · have h := (startKept_fenceAll (d := d) (s := s) e r).trans (startKept_setDie (e := e)
      (x := { die (fenceAll s e r) e with dieReason := r, dieTied := decide (e = 0) || (decide (4 ≤ r) && decide (r ≤ 6) && !crossesNow (fenceAll s e r) e) }) rfl)
    split
    · exact h
    · exact h.trans (startKept_dieReport ..)

theorem startKept_untie (e : Nat) : StartKept d s
    (dieReport (setDie s e { die s e with dieTied := false }) e (die s e).dieReason) :=
  (startKept_setDie (x := { die s e with dieTied := false }) rfl).trans (startKept_dieReport e (die s e).dieReason)

theorem startKept_diesLearn : StartKept d s (diesLearn s) :=
  each_pres (P := StartKept d s) (.refl s) fun t e _ ht => ht.trans (startKept_untie (s := t) e)

theorem startKept_sessClose (e : Nat) : StartKept d s (sessClose s e) := by
  refine .of ?_ ?_
  · exact (sessClose_keeps (mbox_apart .session (by decide)) (.refl ..)).regs _
  · unfold sessClose
    dsimp only
    split
    · rw [bootAt_raise, wf, bootAt_wr]
      exact bootAt_setDie s d e _ rfl
    · rfl

theorem startKept_fenceStat (i : Nat) (b : Bool) : StartKept d s (wb s (pgFence 0) Off.FN_DIE_STAT i b) :=
  startKept_wr _ _ (mbox_apart .fence (by decide) 0)

theorem startKept_dieLost (e : Nat) : StartKept d s (dieLost s e) := by
  unfold dieLost
  split
  · exact .refl s
  · dsimp only
    refine .trans ?_ startKept_allowedFollow
    refine .trans ?_ (startKept_sessClose e)
    refine .trans ?_ startKept_diesLearn
    refine .trans ?_ (startKept_fenceDie e 7)
    refine .trans ?_ (startKept_raise _ 4)
    exact (startKept_fenceStat (16 + e) true).trans (startKept_fenceStat e false)

theorem startKept_leaveOut (e : Nat) : StartKept d s (leaveOut s e) :=
  (startKept_setBoot (b := { (die s e).boot with stuck := true }) rfl rfl).trans (startKept_dieLost e)

theorem startKept_assays (h : t.regs = s.regs) (h' : t.dies = s.dies) : StartKept d s t :=
  .of (by rw [rd, h, rd]) (congrArg DieSt.boot (die_of_dies h' d))

theorem startKept_assayBegin (e : Nat) : StartKept d s (assayBegin s e) := by
  have hb : StartKept d s (setBoot s e { (die s e).boot with since := s.clock }) := startKept_setBoot rfl rfl
  unfold assayBegin
  dsimp only
  generalize setBoot s e { (die s e).boot with since := s.clock } = u at hb
  split
  · exact hb
  · have hl : StartKept d s (if storeGood u e then loadPoints u e else u) := by
      split
      · refine hb.trans (startKept_assays ?_ ?_)
        · exact loadPoints_inv (φ := State.regs) (fun _ _ => rfl) rfl
        · exact loadPoints_inv (φ := State.dies) (fun _ _ => rfl) rfl
      · exact hb
    generalize (if storeGood u e then loadPoints u e else u) = v at hl
    split
    · exact hl
    · refine each_pres (P := StartKept d s) hl fun w c _ hw => hw.trans (startKept_assays ?_ ?_)
      · exact asQueue_inv (φ := State.regs) (fun _ _ => rfl) rfl
      · exact asQueue_inv (φ := State.dies) (fun _ _ => rfl) rfl

theorem startKept_enumFollow : StartKept d s (enumFollow s) := by
  refine each_pres (P := StartKept d s) (.refl s) fun t e _ ht => ?_
  have h := (ht.trans (startKept_fenceStat e true)).trans startKept_allowedFollow
  dsimp only
  split
  · exact h.trans (startKept_assayBegin e)
  · exact h

theorem startKept_startFollow : StartKept d s (startFollow s) := by
  unfold startFollow
  dsimp only
  split
  · exact each_pres (P := StartKept d s) startKept_enumFollow fun t e _ ht => ht.trans (startKept_leaveOut e)
  · exact startKept_enumFollow

end

/-! ### FW_VERIFY (R404) -/

theorem fwUp_trimsRestore (s : State) (d : Nat) : fwUp (trimsRestore s d) d = fwUp s d := by
  apply trimsRestore_inv (φ := (fwUp · d)) (hU := rfl)
  exact fun _ _ => rfl

theorem bootAt_trimsRestore (s : State) (d : Nat) : bootAt d (trimsRestore s d) = bootAt d s := by
  apply trimsRestore_inv (φ := bootAt d) (hU := rfl)
  exact fun _ _ => rfl

theorem bootAt_fwStartNote (s : State) (d : Nat) : bootAt d (fwStartNote s d) = bootAt d s := by
  apply notice_inv (φ := bootAt d) (hU := rfl) <;> exact fun _ _ => rfl

/-- Firmware of a die is up and runs from the image once its core has started. -/
theorem coreStart_spec (s : State) (d image : Nat) : fwUp (coreStart s d image) d = true ∧
    (bootAt d (coreStart s d image)).image = image ∧ (bootAt d (coreStart s d image)).step = (die s d).boot.step ∧
    (bootAt d (coreStart s d image)).skips = (die s d).boot.skips := by
  unfold coreStart
  dsimp only
  rw [fwUp_trimsRestore, fwUp_fwStartNote, bootAt_trimsRestore, bootAt_fwStartNote]
  refine ⟨fwUp_setFwUp .., ?_⟩
  have h (t : State) (x : FwSt) (b : Bool) : bootAt d (setFw (setFwUp t d b) d x) = bootAt d t := by
    show bootAt d (setFwUp t d b) = _
    rw [setFwUp, wb, bootAt_wr, wb, bootAt_wr]
  rw [h, bootAt, die_setBoot]
  exact ⟨rfl, rfl, rfl⟩

theorem fwUp_stepEnd (s : State) (d l a e : Nat) : fwUp (stepEnd s d l a e) d = fwUp s d :=
  congrArg (bit · 0) (rd_stepEnd _ _ _ _ _ (mbox_apart .retain (by decide)) _)

theorem exec_fwVerify {s : State} {d : Nat} (h : atStep s d 6 = true) (hk : stepSkip s d = false) :
    exec (.fwVerify d 0) s = .next (allowedFollow (startFollow
      (if d = 0 then stepDone (coreStart s d 0) d 7 else stepNone (stepDone (coreStart s d 0) d 7) d))) := by
  refine congrArg Host.Outcome.next ((if_neg (by rw [h, hk]; simp)).trans ?_)
  rfl

/-- FW_VERIFY of image A. -/
theorem fwVerify_spec {s : State} {d : Nat} (h : atStep s d 6 = true) (hk : stepSkip s d = false) :
    Completes (.fwVerify d 0) s fun t => fwUp t d = true ∧ (die t d).boot.image = 0 ∧
      (die t d).boot.step = (if d = 0 then 7 else 8) := by
  refine .of (exec_fwVerify h hk) ?_
  obtain ⟨hup, himage, hstep, hskips⟩ := coreStart_spec s d 0
  rw [step_of_atStep h] at hstep
  generalize coreStart s d 0 = c at hup himage hstep hskips
  have hk' : stepSkip c d = false := by
    unfold stepSkip at hk ⊢
    rw [step_of_atStep h] at hk
    refine Eq.trans ?_ hk
    exact congrArg₂ Nat.testBit hskips hstep
  rw [stepDone_of_not_skip _ _ hk']
  have hend : fwUp (if d = 0 then stepEnd (c) d 1 0 0 else stepNone (stepEnd (c) d 1 0 0) d) d = true ∧
      (bootAt d (if d = 0 then stepEnd (c) d 1 0 0 else stepNone (stepEnd (c) d 1 0 0) d)).image = 0 ∧
      (bootAt d (if d = 0 then stepEnd (c) d 1 0 0 else stepNone (stepEnd (c) d 1 0 0) d)).step =
        (if d = 0 then 7 else 8) := by
    split
    · rw [fwUp_stepEnd, bootAt, die_stepEnd]
      exact ⟨hup, himage, congrArg (· + 1) hstep⟩
    · rw [stepNone, fwUp_stepEnd, fwUp_stepEnd, bootAt, die_stepEnd, die_stepEnd]
      exact ⟨hup, himage, congrArg (· + 1 + 1) hstep⟩
  obtain ⟨hup, himage, hstep⟩ := hend
  generalize (if d = 0 then stepEnd (c) d 1 0 0 else stepNone (stepEnd (c) d 1 0 0) d) = t at hup himage hstep
  have hkept : StartKept d t (allowedFollow (startFollow t)) := startKept_startFollow.trans startKept_allowedFollow
  exact ⟨(congrArg (bit · 0) hkept.stat).trans hup, hkept.image.trans himage, hkept.step.trans hstep⟩

/-! ### PCIE_LINK and INITIAL_ASSAY -/

theorem bootAt_hostLinkUp (s : State) (d g w l : Nat) : bootAt d (hostLinkUp s g w l) = bootAt d s := by
  apply hostLinkUp_inv (φ := bootAt d) (hU := rfl) <;> exact fun _ _ => rfl

theorem perst_raise (s : State) (p : Pg) (i : Nat) : (raise s p i).pcie.perst = s.pcie.perst := by
  unfold raise latch pageMsix msix
  dsimp only
  split
  · rw [whenDo]
    split
    · split
      · rfl
      · split
        · rfl
        · rfl
    · rfl
  · rfl

theorem perst_hostLinkUp (s : State) (g w l : Nat) : (hostLinkUp s g w l).pcie.perst = s.pcie.perst := by
  unfold hostLinkUp
  dsimp only
  split
  · exact perst_raise ..
  · split
    · rfl
    · exact perst_raise ..

/-- The word of a link in L0 shows the link and its generation. -/
theorem linkWord_spec (s : State) {g : Nat} (w l : Nat) (hg : g < 16) :
    bit (linkWord s g w l true) 0 = true ∧ fld (linkWord s g w l true) 16 4 = g := by
  have hb : b2n (rb s pgPcie Off.PC_STAT 1) < 2 := by
    unfold b2n
    split <;> decide
  unfold linkWord
  generalize b2n (rb s pgPcie Off.PC_STAT 1) = b at hb
  refine ⟨?_, ?_⟩
  · rw [bit, word, BitVec.getLsbD_ofNat, Nat.testBit_zero, Bool.and_eq_true]
    refine ⟨rfl, decide_eq_true ?_⟩
    rw [show b2n true = 1 from rfl]
    omega
  · rw [fld, word, BitVec.toNat_ofNat, show b2n true = 1 from rfl]
    omega

theorem stat_hostLinkUp (s : State) {g : Nat} (w l : Nat) (hg : g < 16) :
    rb (hostLinkUp s g w l) pgPcie Off.PC_STAT 0 = true ∧ rf (hostLinkUp s g w l) pgPcie Off.PC_STAT 16 4 = g := by
  obtain ⟨hbit, hgen⟩ := linkWord_spec s w l hg
  have hrd : rd (hostLinkUp s g w l) pgPcie Off.PC_STAT = linkWord s g w l true := by
    unfold hostLinkUp
    dsimp only
    have hwr := rd_wr_same s pgPcie Off.PC_STAT (linkWord s g w l true)
    split
    · rw [rd_raise_off _ _ _ _ _ (by decide), hwr]
    · split
      · exact hwr
      · rw [rd_raise_off _ _ _ _ _ (by decide), hwr]
  rw [rb, rf, hrd]
  exact ⟨hbit, hgen⟩

/-- What the start of step 8 on the dies leaves: the step of every die, and the host link. -/
structure HostKept (s t : State) : Prop where
  step : (bootAt 0 t).step = (bootAt 0 s).step
  stat : rd t pgPcie Off.PC_STAT = rd s pgPcie Off.PC_STAT
  perst : t.pcie.perst = s.pcie.perst

theorem hostKept_assayBegin (s : State) (e : Nat) : HostKept s (assayBegin s e) where
  step := (startKept_assayBegin (d := 0) e).step
  stat := (assayBegin_keeps (q₀ := pgPcie) (.refl ..)).regs _
  perst := by
    apply assayBegin_inv (φ := (·.pcie.perst)) (hU := rfl) <;> exact fun _ _ => rfl

theorem hostKept_each (l : List Nat) (s : State) : HostKept s (each l s assayBegin) :=
  each_pres (P := HostKept s) ⟨rfl, rfl, rfl⟩ fun t e _ ht =>
    have h := hostKept_assayBegin t e
    ⟨h.step.trans ht.step, h.stat.trans ht.stat, h.perst.trans ht.perst⟩

/-- The state in which PERST# has been deasserted, before the link is up. -/
def perstOff (s : State) (skip : Bool) : State :=
  wb { s with pcie := { s.pcie with perst := false } } pgPcie Off.PC_STAT 1 (s.pcie.clksel != skip)

theorem exec_pcieLink {s : State} {gen width ltssm : Nat} (h : atStep s 0 7 = true) (hk : stepSkip s 0 = false)
    (hl : linkShape gen width = true) : ∃ l, exec (.pcieLink gen width ltssm) s =
      .next (each l (stepDone (hostLinkUp (perstOff s false) gen width ltssm) 0 9) assayBegin) := by
  refine ⟨(dieList (stepDone (hostLinkUp (perstOff s false) gen width ltssm) 0 9)).filter fun d =>
    enumerated (stepDone (hostLinkUp (perstOff s false) gen width ltssm) 0 9) d &&
      decide ((die (stepDone (hostLinkUp (perstOff s false) gen width ltssm) 0 9) d).boot.step = 8),
    congrArg Host.Outcome.next ((if_pos (by rw [h, hk, hl]; rfl)).trans ?_)⟩
  rw [hk]
  rfl

theorem pcieLink_spec {s : State} {gen width ltssm : Nat} (h : atStep s 0 7 = true) (hk : stepSkip s 0 = false)
    (hl : linkShape gen width = true) : Completes (.pcieLink gen width ltssm) s fun t => (die t 0).boot.step = 8 ∧
      rb t pgPcie Off.PC_STAT 0 = true ∧ rf t pgPcie Off.PC_STAT 16 4 = gen ∧ t.pcie.perst = false := by
  obtain ⟨l, hexec⟩ := exec_pcieLink (ltssm := ltssm) h hk hl
  refine .of hexec ?_
  have hg : gen < 16 := by
    simp only [linkShape, Bool.and_eq_true, decide_eq_true_eq] at hl
    omega
  have hb : bootAt 0 (hostLinkUp (perstOff s false) gen width ltssm) = bootAt 0 s :=
    (bootAt_hostLinkUp ..).trans (bootAt_wr ..)
  obtain ⟨hup, hgen⟩ := stat_hostLinkUp (perstOff s false) width ltssm hg
  have hperst : (hostLinkUp (perstOff s false) gen width ltssm).pcie.perst = false := perst_hostLinkUp ..
  generalize hostLinkUp (perstOff s false) gen width ltssm = u at hb hup hgen hperst
  have hk' : stepSkip u 0 = false := by
    rw [stepSkip, show (die u 0).boot = _ from hb]
    exact hk
  rw [stepDone_of_not_skip _ _ hk']
  obtain ⟨hstep, hstat, hkeep⟩ := hostKept_each l (stepEnd u 0 1 0 0)
  have hrd := hstat.trans (rd_stepEnd _ _ _ _ _ (Kind.apart .pcie .retain rfl) Off.PC_STAT)
  refine ⟨hstep.trans ?_, (congrArg (bit · 0) hrd).trans hup, (congrArg (fld · 16 4) hrd).trans hgen, hkeep.trans ?_⟩
  · rw [bootAt, die_stepEnd]
    exact congrArg (· + 1) ((congrArg BootSt.step hb).trans (step_of_atStep h))
  · rw [pcie_stepEnd]
    exact hperst

/-- The end of a start leaves the start of every die as it is. -/
theorem bootAt_startEnd (s : State) (d : Nat) : bootAt d (startEnd s) = bootAt d s := by
  unfold startEnd
  dsimp only
  apply wakeEnd_inv (φ := bootAt d)
  case hU =>
    refine each_pres (P := fun t => bootAt d t = bootAt d s) ?_ fun t e _ ht => ?_
    · refine each_pres (P := fun t => bootAt d t = bootAt d s) ?_ fun t e _ ht => ?_
      · exact each_pres (P := fun t => bootAt d t = bootAt d s) rfl fun t e _ ht => ht
      · apply boardEnd_inv (φ := bootAt d) (hU := ht) <;> exact fun _ _ => rfl
    · unfold dbgOpen
      dsimp only
      rw [bootAt, die_of_dies (dies_allowedFollow _), die_raise, die_raise, count, die_wr, wb, die_wr]
      exact (bootAt_setDie t d e { die t e with tap := { (die t e).tap with session := true } } rfl).trans ht
  all_goals exact fun _ _ => rfl

theorem assayStepEnd_complete (s : State) (d : Nat) : (die (assayStepEnd s d) d).boot.complete = true := by
  have h : (bootAt d (setBoot s d { (die s d).boot with complete := true })).complete = true := by
    rw [bootAt, die_setBoot]
  unfold assayStepEnd
  dsimp only
  split
  · exact (congrArg BootSt.complete (bootAt_startEnd ..)).trans h
  · exact h

theorem initialAssay_spec {s : State} {d : Nat} (h : atStep s d 8 = true) (he : enumerated s d = true)
    (h0 : 8 ≤ (die s 0).boot.step) (hr : startupRunsEnded s d = true) :
    Completes (.initialAssay d) s fun t => (die t d).boot.complete = true := by
  refine .of (congrArg Host.Outcome.next (if_pos ?_)) (assayStepEnd_complete ..)
  rw [h, he, decide_eq_true h0, hr]
  rfl

/-! ### BURIM_TRAIN -/

theorem apart_burim (k : Kind) (d : Nat) (h : .burim ≠ k) : k.Apart (pgBurim d) := Kind.apart .burim k rfl h

theorem rd_startFollow_burim (s : State) (d o : Nat) : rd (startFollow s) (pgBurim d) o = rd s (pgBurim d) o := by
  have ha (k : Kind) (h : .burim ≠ k) := apart_burim k d h
  refine (startFollow_keeps (ha .die (by decide)) (ha .mode (by decide)) (ha .tsync (by decide)) (ha .fence (by decide))
    (ha .assay (by decide)) (ha .hoistGlobal (by decide)) (ha .chuteGlobal (by decide)) (ha .hp (by decide))
    (ha .enc (by decide)) (ha .ax (by decide)) (ha .seam (by decide)) (ha .echo (by decide)) (ha .ctxCtrl (by decide))
    (ha .chute (by decide)) (ha .debug (by decide)) (ha .session (by decide)) (fun p hp hpq => ?_) (.refl ..)).regs o
  rw [hpq] at hp
  cases hp

/-- What follows a change of the links leaves their states. -/
theorem burimState_linksFollow (s : State) (d : Nat) {i : Nat} (hi : i < 2) : burimState (linksFollow s) d i = burimState s d i := by
  refine burimState_of_rd ?_
  unfold linksFollow
  rw [rd_startFollow_burim]
  refine ((linksEnd_keeps (apart_burim .retain d (by decide)) (.refl ..)).regs _).trans ?_
  refine ((alignFollow_keeps (apart_burim .timebase d (by decide)) (.refl ..)).regs _).trans ?_
  rw [rd_seamsAll_burim]
  exact rd_routesFollow _ _ (by simp; omega) (by simp; omega)

/-- A port shows the state it has taken. -/
theorem burimState_portIs (s : State) (d i : Nat) {e st : Nat} (hst : st < 8) : burimState (portIs s d i e st) d i = st := by
  rw [burimState, rf, portIs, rd_wr_same, fld, word, BitVec.toNat_ofNat]
  omega

theorem linkFirstUp_up (s : State) {d i e j : Nat} (hne : e ≠ d) (hi : i < 2) (hj : j < 2) :
    linkIn (linkFirstUp s d i e j) d i e j 2 = true := by
  have hkeep (c : Nat) {k : Nat} (hk : k < 2) : burimState (linkFirstUp s d i e j) c k = burimState (portIs (portIs s d i e 2) e j d 2) c k :=
    burimState_of_rd <| (rd_raise_off _ _ _ _ _ (by simp; omega)).trans (rd_raise_off _ _ _ _ _ (by simp; omega))
  rw [linkIn, hkeep d hi, hkeep e hj, burimState_portIs _ _ _ (by decide)]
  have hd : burimState (portIs (portIs s d i e 2) e j d 2) d i = burimState (portIs s d i e 2) d i :=
    burimState_of_rd (rd_wr_page _ _ _ _ _ _ (pgBurim_apart hne))
  rw [hd, burimState_portIs _ _ _ (by decide)]
  rfl

theorem burimTrain_spec {s : State} {d i e j : Nat} (hp : burimPeer s.part.dies d i = some (e, j)) (hd : atStep s d 5 = true)
    (he : atStep s e 5 = true) (hl : linkIn s d i e j 1 = true) (hs : linkSkip s d i = false) (hs' : linkSkip s e j = false) :
    Completes (.burimTrain d i) s fun t => linkIn t d i e j 2 = true := by
  have hexec : exec (.burimTrain d i) s = .next (linksFollow (linkFirstUp s d i e j)) := by
    refine congrArg Host.Outcome.next ?_
    rw [hp]
    refine (if_pos (by rw [hd, he, hl]; rfl)).trans ?_
    rw [hs, hs']
    rfl
  refine .of hexec ?_
  obtain ⟨hne, hi⟩ := burimPeer_ne hp
  have hj := burimPeer_lt hp
  rw [linkIn, burimState_linksFollow _ _ hi, burimState_linksFollow _ _ hj]
  exact linkFirstUp_up s hne hi hj

/-! ### Failures and restarts (R400) -/

/-- The clock at which a step can have failed. -/
def failClock (s : State) (d st : Nat) : State := if st = 7 then s else waitClock s (stepStart s d st + stepLimit st)

theorem exec_bootStepTimeout {s : State} {d st detail : Nat} (h : canFail s d st = true) :
    exec (.bootStepTimeout d st detail) s = .next (stepFail (failClock s d st) d st detail) :=
  congrArg Host.Outcome.next (if_pos h)

theorem stepFail_spec (s : State) (d detail : Nat) {st : Nat} (hst : st ≠ 8) : (stepFail s d st detail).clock = s.clock ∧
    (die (stepFail s d st detail) d).boot.step = st ∧ (die (stepFail s d st detail) d).boot.restartAt = some s.clock := by
  unfold stepFail
  dsimp only
  rw [if_neg hst]
  have hclock : (if st = 1 then boardOpen s d else s).clock = s.clock := by
    split
    · exact clock_boardOpen ..
    · rfl
  refine ⟨?_, by rw [die_setBoot], by rw [die_setBoot]⟩
  unfold setBoot
  apply setDie_inv (φ := State.clock) (hU := ?_)
  · exact fun _ _ => rfl
  apply stepEnd_inv (φ := State.clock) (hU := hclock) <;> exact fun _ _ => rfl

theorem bootStepTimeout_spec {s : State} {d st detail : Nat} (h : canFail s d st = true) (hst : st ≠ 8) :
    Completes (.bootStepTimeout d st detail) s fun t => (die t d).boot.restartAt = some t.clock ∧ (die t d).boot.step = st ∧
      (st ≠ 7 → stepStart s d st + stepLimit st ≤ t.clock) := by
  refine .of (exec_bootStepTimeout h) ?_
  obtain ⟨hclock, hstep, hat⟩ := stepFail_spec (failClock s d st) d detail hst
  refine ⟨hat.trans (by rw [hclock]), hstep, fun h7 => ?_⟩
  rw [hclock, failClock, if_neg h7, waitClock_clock]
  exact le_max_right ..

theorem clock_tlHistory (s : State) (d n : Nat) : (tlHistory s d n).clock = s.clock := by
  apply tlHistory_inv (φ := State.clock) (hU := rfl) <;> exact fun _ _ => rfl

theorem part_tlHistory (s : State) (d n : Nat) : (tlHistory s d n).part = s.part := by
  apply tlHistory_inv (φ := State.part) (hU := rfl) <;> exact fun _ _ => rfl

theorem exec_bootRestart {s : State} {c : Nat} (h : failedAt s = some c) : ∃ l : List Nat, exec .bootRestart s =
    .next (startOver (each l (waitClock s (c + 2500000)) fun s d => tlHistory s d (outcomeWord (die s d).boot.outcome))) := by
  refine ⟨(dieList s).filter fun d => decide (2 ≤ (die s d).boot.outcome.length), congrArg Host.Outcome.next ?_⟩
  rw [h]

theorem bootRestart_spec {s : State} {c : Nat} (h : failedAt s = some c) : Completes .bootRestart s fun t =>
    c + 2500000 ≤ t.clock ∧ t.mem = [] ∧ ∀ d < s.part.dies, (die t d).boot.step = 0 ∧ (die t d).boot.complete = false := by
  obtain ⟨l, hexec⟩ := exec_bootRestart h
  refine .of hexec ?_
  have hkeep : (each l (waitClock s (c + 2500000)) fun s d => tlHistory s d (outcomeWord (die s d).boot.outcome)).clock =
        (waitClock s (c + 2500000)).clock ∧
      (each l (waitClock s (c + 2500000)) fun s d => tlHistory s d (outcomeWord (die s d).boot.outcome)).part = s.part := by
    refine each_pres (P := fun t => t.clock = (waitClock s (c + 2500000)).clock ∧ t.part = s.part) ⟨rfl, waitClock_part ..⟩
      fun t d _ ht => ?_
    rw [clock_tlHistory, part_tlHistory]
    exact ht
  generalize (each l (waitClock s (c + 2500000)) fun s d => tlHistory s d (outcomeWord (die s d).boot.outcome)) = u at hkeep
  obtain ⟨hclock, hpart⟩ := hkeep
  refine ⟨?_, rfl, fun d hd => ?_⟩
  · show _ ≤ u.clock
    rw [hclock, waitClock_clock]
    exact le_max_right ..
  · rw [die_startOver (s := u) (d := d) (by rw [hpart]; exact hd)]
    exact ⟨rfl, rfl⟩

/-- Settles O51: each step that is not skipped ends on its own die alone, and the enumeration that follows leaves the
step, the image and the mailbox's firmware bit of the die. -/
theorem bootSteps : Obligations.BootSteps :=
  ⟨fun _ _ _ h hk hf => fuseRead_spec h hk hf, fun _ h hk => crystal_spec h hk, fun _ _ h hk => pllLock_spec h hk,
    fun _ _ h hk => memRepair_spec h hk, fun _ _ _ _ _ hp hd he hl hs hs' => burimTrain_spec hp hd he hl hs hs',
    fun _ _ h hk => fwVerify_spec h hk, fun _ _ _ _ h hk hl => pcieLink_spec h hk hl,
    fun _ _ h he h0 hr => initialAssay_spec h he h0 hr, fun _ _ _ _ h hst => bootStepTimeout_spec h hst,
    fun _ _ h => bootRestart_spec h⟩

end Sys2Proof.Machine

namespace Sys2Proof.Machine
open Sys2Proof.Laws

/-! ### The state of a page when pages are fenced (R406) -/

section
variable (s : State)

/-- Operations that keep the state of every page. -/
theorem stat_pageSafe (p q : Pg) (r : Nat) (ks : List Nat) :
    rd (pageSafe s p r ks) q Off.PAGE_STAT = rd s q Off.PAGE_STAT :=
  (pageSafe_steady (Steady.refl (F := [Off.PAGE_STAT]) s)).reads q _ (by simp)

theorem stat_encSync (d i : Nat) (q : Pg) : rd (encSync s d i) q Off.PAGE_STAT = rd s q Off.PAGE_STAT :=
  (encSync_steady (Steady.refl (F := [Off.PAGE_STAT]) s)).reads q _ (by simp)

theorem stat_logRecord (d cd : Nat) (x : Rec) (q : Pg) : rd (logRecord s d cd x) q Off.PAGE_STAT = rd s q Off.PAGE_STAT :=
  (logRecord_steady (Steady.refl (F := [Off.PAGE_STAT]) s)).reads q _ (by simp)

theorem stat_encSync_enc (p q : Pg) : rd (if pgKind p = .enc then encSync s p.die (pgInst p) else s) q Off.PAGE_STAT =
    rd s q Off.PAGE_STAT := by
  split
  · exact stat_encSync ..
  · rfl

theorem not_fenced_of_takesFence {p : Pg} (h : takesFence s p = true) :
    ¬(!(pgKind p).fenceable || !present s p || fenced s p) = true := by
  unfold takesFence at h
  cases hk : (pgKind p).fenceable <;> cases hp : present s p <;> cases hf : fenced s p <;> simp [hk, hp, hf] at h ⊢

/-- The word of a page that is fenced. -/
def fencedWord (w : Word) (r : Nat) : Word := setFld (setFld w 0 3 stFenced) 8 8 r

/-- A page that takes its fence shows it, with the reason. -/
theorem stat_fenceQuiet_same {p : Pg} (r : Nat) (ks : List Nat) (h : takesFence s p = true) :
    rd (fenceQuiet s p r ks) p Off.PAGE_STAT = fencedWord (rd s p Off.PAGE_STAT) r := by
  unfold fenceQuiet
  dsimp only
  rw [if_neg (not_fenced_of_takesFence s h), rd_raise_off _ _ _ _ _ (by decide), count, rd_wr_off _ _ _ _ _ _ (by decide), stat_pageSafe,
    rd_wr_off _ _ _ _ _ _ (by decide), wf, rd_wr_same, setPstate, wf, rd_wr_same, wb, rd_wr_off _ _ _ _ _ _ (by decide)]
  exact congrArg (fencedWord · r) (stat_encSync_enc s p p)

/-- Fencing a page leaves the state of every other page. -/
theorem stat_fenceQuiet_other {p q : Pg} (r : Nat) (ks : List Nat) (h : p ≠ q) :
    rd (fenceQuiet s p r ks) q Off.PAGE_STAT = rd s q Off.PAGE_STAT := by
  unfold fenceQuiet
  dsimp only
  split
  · rfl
  · rw [rd_raise_off _ _ _ _ _ (by decide), count, rd_wr_off _ _ _ _ _ _ (by decide), stat_pageSafe,
      rd_wr_off _ _ _ _ _ _ (by decide), wf, rd_wr_page _ _ _ _ _ _ h, setPstate, wf, rd_wr_page _ _ _ _ _ _ h, wb,
      rd_wr_page _ _ _ _ _ _ h]
    exact stat_encSync_enc s p q

theorem part_fenceQuiet (p : Pg) (r : Nat) (ks : List Nat) : (fenceQuiet s p r ks).part = s.part := by
  apply fenceQuiet_inv (φ := State.part) (hU := rfl) <;> exact fun _ _ => rfl

theorem part_fencePage (p : Pg) (r : Nat) : (fencePage s p r).part = s.part := by
  apply fencePage_inv (φ := State.part) (hU := rfl) <;> exact fun _ _ => rfl

end

section
variable {s t : State} {p q : Pg}

/-- The states of a page read from the word it shows. -/
theorem fenced_of_stat {r : Nat} {w : Word} (h : rd t q Off.PAGE_STAT = fencedWord w r) : fenced t q = true := by
  unfold fenced pstate
  rw [rf, h, fencedWord, fld_setFld_apart _ _ _ _ _ _ (by decide), fld_setFld _ _ _ _ (by decide)]
  rfl

theorem fenced_congr (h : rd t q Off.PAGE_STAT = rd s q Off.PAGE_STAT) : fenced t q = fenced s q := by
  unfold fenced pstate rf
  rw [h]

theorem takesFence_congr (h : rd t q Off.PAGE_STAT = rd s q Off.PAGE_STAT) (hp : t.part = s.part) : takesFence t q = takesFence s q := by
  unfold takesFence
  rw [fenced_congr h, present_congr hp]

/-- A page that takes a fence when another page is fenced takes it still. -/
theorem takesFence_fencePage_other (r : Nat) (h : p ≠ q) : takesFence (fencePage s p r) q = takesFence s q := by
  refine takesFence_congr ?_ (part_fencePage ..)
  unfold fencePage
  split
  · dsimp only
    rw [stat_logRecord, stat_fenceQuiet_other _ _ _ h]
  · rfl

theorem fenced_fencePage_same (r : Nat) (h : takesFence s p = true) : fenced (fencePage s p r) p = true := by
  unfold fencePage
  rw [if_pos h]
  exact fenced_of_stat ((stat_logRecord ..).trans (stat_fenceQuiet_same _ _ _ h))

theorem fenced_fencePage (r : Nat) (h : fenced s q = true) : fenced (fencePage s p r) q = true := by
  by_cases hp : p = q
  · subst hp
    unfold fencePage
    rw [if_neg (by unfold takesFence; rw [h]; simp)]
    exact h
  · rw [← h]
    refine fenced_congr ?_
    unfold fencePage
    split
    · dsimp only
      rw [stat_logRecord, stat_fenceQuiet_other _ _ _ hp]
    · rfl

/-- Every page of a list that takes a fence is fenced once each page of the list has been. -/
theorem fenced_each_fencePage {l : List Pg} (r : Nat) (hq : q ∈ l) (h : takesFence s q = true) :
    fenced (each l s fun s p => fencePage s p r) q = true := by
  have hkeep (l : List Pg) (t : State) (ht : fenced t q = true) : fenced (each l t fun s p => fencePage s p r) q = true :=
    each_pres (P := fun t => fenced t q = true) ht fun _ _ _ h => fenced_fencePage r h
  induction l generalizing s with
  | nil => cases hq
  | cons p l ih =>
    by_cases hp : p = q
    · subst hp
      exact hkeep l _ (fenced_fencePage_same r h)
    · exact ih ((List.mem_cons.1 hq).resolve_left (Ne.symm hp)) ((takesFence_fencePage_other r hp).trans h)

end

end Sys2Proof.Machine

namespace Sys2Proof.Machine
open Sys2Proof.Laws

/-! ### The instruction register (R384, R385) -/

section
variable (s : State) (d code : Nat)

theorem die_tapIr : die (tapIr s d code) d = { die s d with tap := { (die s d).tap with ir := code, pins := irPins code } } :=
  (die_wr ..).trans (die_setDie ..)

theorem stat_tapIr (q : Pg) : rd (tapIr s d code) q Off.PAGE_STAT = rd s q Off.PAGE_STAT :=
  rd_wf_off _ _ _ _ _ _ _ _ (by decide)

theorem rf_tapIr (h : code < 256) : rf (tapIr s d code) (pgDebug d) Off.DBG_STAT 8 8 = code := by
  rw [tapIr, rf_wf_same _ _ _ _ _ _ (by decide)]
  exact Nat.mod_eq_of_lt h

/-- A boundary-scan instruction. -/
theorem tapScan_spec (h : code < 256) (hpins : irPins code = true) :
    (die (tapScan s d code) d).tap.ir = code ∧ (die (tapScan s d code) d).tap.pins = true ∧
    rf (tapScan s d code) (pgDebug d) Off.DBG_STAT 8 8 = code ∧
    ∀ p ∈ bscanPages s d, takesFence s p = true → fenced (tapScan s d code) p = true := by
  unfold tapScan
  refine ⟨by rw [die_tapIr], by rw [die_tapIr, hpins], rf_tapIr _ _ _ h, fun p hp ht => ?_⟩
  rw [fenced_congr (stat_tapIr ..)]
  exact fenced_each_fencePage 8 hp ht

end

section
variable {s : State} {d : Nat}

theorem scan_completes (hd : d < s.part.dies) {ic : Instr × Nat}
    (h : ic ∈ [(Instr.extest d, 0), (.clamp d, 3), (.highz d, 4), (.extestPulse d, 5), (.extestTrain d, 6)]) :
    Completes ic.1 s fun t => (die t d).tap.ir = ic.2 ∧ (die t d).tap.pins = true ∧ rf t (pgDebug d) Off.DBG_STAT 8 8 = ic.2 ∧
      ∀ p ∈ bscanPages s d, takesFence s p = true → fenced t p = true := by
  have hnext (code : Nat) : (ok (if d < s.part.dies then tapScan s d code else s) : Host.Outcome State Fault Refusal) =
    .next (tapScan s d code) := congrArg _ (if_pos hd)
  simp only [List.mem_cons, List.not_mem_nil, or_false] at h
  obtain rfl | rfl | rfl | rfl | rfl := h
  · exact .of (hnext 0) (tapScan_spec s d 0 (by decide) (by decide))
  · exact .of (hnext 3) (tapScan_spec s d 3 (by decide) (by decide))
  · exact .of (hnext 4) (tapScan_spec s d 4 (by decide) (by decide))
  · exact .of (hnext 5) (tapScan_spec s d 5 (by decide) (by decide))
  · exact .of (hnext 6) (tapScan_spec s d 6 (by decide) (by decide))

theorem irPins_of_not_listed {c : Nat} (h : irListed c = false) : irPins c = false := by
  simp only [irListed, Bool.or_eq_false_iff, decide_eq_false_iff_not] at h
  simp only [irPins, List.contains_eq_mem, List.mem_cons, List.not_mem_nil, or_false, decide_eq_false_iff_not]
  omega

/-! ### Debug sessions (R386 to R389) -/

theorem die_allowedFollow (s : State) (d : Nat) : die (allowedFollow s) d = die s d := die_of_dies (dies_allowedFollow s) d

/-- A debug session that opens. -/
theorem dbgOpen_spec (hp : present s (pgDebug d) = true) :
    die (dbgOpen s d) d = { die s d with tap := { (die s d).tap with session := true } } ∧
    rb (dbgOpen s d) (pgDebug d) Off.EVT_LAT 0 = true := by
  unfold dbgOpen
  dsimp only
  refine ⟨?_, ?_⟩
  · rw [die_allowedFollow, die_raise, die_raise, count, die_wr, wb, die_wr, die_setDie]
  · have hmode : ∀ d', pgMode d' ≠ pgDebug d := fun d' => by simp [pgMode, pgDebug, ns, sp]
    refine (congrArg (bit · 0) ((allowedFollow_keeps hmode (.refl ..)).regs _)).trans ?_
    refine rb_raise_mono _ _ _ _ _ (rb_raise_same _ _ _ ?_ (by decide))
    exact hp

/-- A debug session that closes. -/
theorem die_dbgClose : (die (dbgClose s d) d).tap.session = false ∧ (die (dbgClose s d) d).tap.ir = (die s d).tap.ir := by
  unfold dbgClose
  dsimp only
  split
  · rw [die_allowedFollow, die_raise, die_raise, wb, die_wr, die_setDie]
    exact ⟨rfl, rfl⟩
  · rename_i h
    exact ⟨Bool.eq_false_iff.2 h, rfl⟩

/-- The state in which UNLOCK_RESP has used up the challenge. -/
def chalUsed (s : State) (d : Nat) : State :=
  setDie (tapIr s d 0x42) d { die (tapIr s d 0x42) d with tap := { (die (tapIr s d 0x42) d).tap with chal := none } }

theorem die_chalUsed : die (chalUsed s d) d =
    { die s d with tap := { (die s d).tap with ir := 0x42, pins := irPins 0x42, chal := none } } := by
  rw [chalUsed, die_setDie, die_tapIr]

theorem unlockUpdate_open {token : Nat} (hf : fenced s (pgDebug d) = false) (hl : (die s d).lc = 0) :
    unlockUpdate s d token = dbgOpen (chalUsed s d) d := by
  refine (if_neg (by rw [hf]; simp)).trans ?_
  rw [hl]
  rfl

theorem unlockUpdate_bad {token : Nat} (hf : fenced s (pgDebug d) = false) (hl : (die s d).lc = 2)
    (hc : ∀ c, (die s d).tap.chal = some c → token % 2 ^ 64 ≠ unlockToken s d c) :
    unlockUpdate s d token = tokenBad (chalUsed s d) d := by
  refine (if_neg (by rw [hf]; simp)).trans ?_
  rw [hl]
  refine if_pos ?_
  cases h : (die s d).tap.chal with
  | none => rfl
  | some c => exact congrArg (!·) (decide_eq_false (hc c h))

/-- A token that is not that of the challenge is counted. -/
theorem tokenBad_spec : (die (tokenBad s d) d).tap.session = (die s d).tap.session ∧
    (die (tokenBad s d) d).tap.fails = min ((die s d).tap.fails + 1) 3 ∧
    rd (tokenBad s d) (pgDebug d) Off.DBG_FAILS_CNT = inc24 (rd s (pgDebug d) Off.DBG_FAILS_CNT) := by
  unfold tokenBad
  dsimp only
  refine ⟨?_, ?_, ?_⟩
  · rw [die_raise, count, die_wr, wf, die_wr, wb, die_wr, die_setDie]
  · rw [die_raise, count, die_wr, wf, die_wr, wb, die_wr, die_setDie]
  · rw [rd_raise_off _ _ _ _ _ (by decide), count, rd_wr_same, rd_wf_off _ _ _ _ _ _ _ _ (by decide), wb,
      rd_wr_off _ _ _ _ _ _ (by decide)]
    rfl

theorem unlockResp_spec {token : Nat} (hd : d < s.part.dies) (hf : fenced s (pgDebug d) = false)
    (hp : present s (pgDebug d) = true) :
    ((die s d).lc = 0 → Completes (.unlockResp d token) s fun t => (die t d).tap.session = true ∧ (die t d).tap.chal = none ∧
      rb t (pgDebug d) Off.EVT_LAT 0 = true) ∧
    ((die s d).lc = 2 → (∀ c, (die s d).tap.chal = some c → token % 2 ^ 64 ≠ unlockToken s d c) →
      Completes (.unlockResp d token) s fun t => (die t d).tap.session = (die s d).tap.session ∧
        (die t d).tap.fails = min ((die s d).tap.fails + 1) 3 ∧
        rd t (pgDebug d) Off.DBG_FAILS_CNT = inc24 (rd s (pgDebug d) Off.DBG_FAILS_CNT)) := by
  have hexec : exec (.unlockResp d token) s = .next (unlockUpdate s d token) := congrArg Host.Outcome.next (if_pos hd)
  refine ⟨fun hl => .of hexec ?_, fun hl hc => .of hexec ?_⟩
  · rw [unlockUpdate_open hf hl]
    obtain ⟨hdie, hev⟩ := dbgOpen_spec (s := chalUsed s d) hp
    rw [hdie, die_chalUsed]
    exact ⟨rfl, rfl, hev⟩
  · rw [unlockUpdate_bad hf hl hc]
    obtain ⟨hsess, hfails, hcnt⟩ := tokenBad_spec (s := chalUsed s d) (d := d)
    rw [die_chalUsed] at hsess hfails
    exact ⟨hsess, hfails, hcnt.trans (congrArg inc24 (rd_wf_off _ _ _ _ _ _ _ _ (by decide)))⟩

/-- An access of the debug port ends with its data register set. -/
theorem accDone_dbgDo (s : State) (d : Nat) (w : Bool) (a x : Nat) : (die (dbgDo s d w a x) d).tap.accDone = true := by
  unfold dbgDo
  dsimp only
  rw [die_setDie]

theorem dbgAccess_spec (hd : d < s.part.dies) (w : Bool) (a x : Nat) :
    ((die s d).tap.session = true → Completes (.dbgAccess d w a x) s fun t =>
      t.resp = .tdo (dbgCapture (die s d).tap) ∧ (die t d).tap.accDone = true) ∧
    ((die s d).tap.session = false → Completes (.dbgAccess d w a x) s fun t =>
      (die t d).tap.ir = 0x43 ∧ t.mem = s.mem ∧ t.resp = s.resp) := by
  refine ⟨fun hs => .of (congrArg Host.Outcome.next ((if_neg (Nat.not_le.2 hd)).trans (if_pos hs))) ⟨rfl, ?_⟩,
    fun hs => .of (congrArg Host.Outcome.next ((if_neg (Nat.not_le.2 hd)).trans (if_neg (by rw [hs]; simp)))) ⟨?_, rfl, rfl⟩⟩
  · exact accDone_dbgDo (tapIr s d 0x43) d w (a % 2 ^ 32) (x % 2 ^ 24)
  · rw [die_tapIr]

/-- The session of a die closes when its instruction register takes a code that closes it. -/
theorem close_spec (code : Nat) : (die (dbgClose (tapIr s d code) d) d).tap.session = false ∧
    (die (dbgClose (tapIr s d code) d) d).tap.ir = code := by
  obtain ⟨hs, hi⟩ := die_dbgClose (s := tapIr s d code) (d := d)
  exact ⟨hs, hi.trans (by rw [die_tapIr])⟩

theorem dbgCtrlClose_spec {r : Req} (h : Taken s r (pgDebug d) Off.DBG_CTRL) : Completes (.dbgCtrlClose r d) s fun t =>
    (die t d).tap.session = false ∧ (die t d).tap.ir = (die s d).tap.ir := by
  have hexec : exec (.dbgCtrlClose r d) s = .next (dbgClose (touchSession s r (pgDebug d)) d) :=
    congrArg Host.Outcome.next (guardedWrite_of_taken h _)
  refine .of hexec ?_
  obtain ⟨hs, hi⟩ := die_dbgClose (s := touchSession s r (pgDebug d)) (d := d)
  refine ⟨hs, hi.trans ?_⟩
  unfold touchSession
  split
  · rw [show (pgDebug d).die = d from rfl, die_setDie]
  · rfl

end

/-- Settles O49: each instruction is the load of its code, beside a scan that fences the pages one by one, and a session
that opens or closes. -/
theorem testAccessPort : Obligations.TestAccessPort := by
  refine ⟨fun s d hd => ⟨fun ic hic => scan_completes hd hic, ?_, fun c hc hl => ?_, ?_, ?_, ?_,
    fun token hf hp => unlockResp_spec hd hf hp, fun w a x => (dbgAccess_spec hd w a x).1, fun w a x => (dbgAccess_spec hd w a x).2, ?_, ?_⟩,
    fun s r d h => dbgCtrlClose_spec h⟩
  · exact .of (congrArg Host.Outcome.next (if_pos hd)) ⟨by rw [die_tapIr], by rw [die_tapIr]; rfl, rfl⟩
  · refine .of (congrArg Host.Outcome.next (if_pos ?_)) ⟨by rw [die_tapIr], by rw [die_tapIr, irPins_of_not_listed hl], rfl, rfl⟩
    rw [decide_eq_true hd, decide_eq_true hc, hl]
    rfl
  · exact .of (congrArg Host.Outcome.next (if_pos hd)) ⟨congrArg (fun x : DieSt => x.tap.ir) (die_tapIr s d 0x02), rfl⟩
  · exact .of (congrArg Host.Outcome.next (if_pos hd)) ⟨congrArg (fun x : DieSt => x.tap.ir) (die_tapIr s d 0x40), rfl⟩
  · refine .of (congrArg Host.Outcome.next (if_pos hd)) ⟨?_, freeBelow s (2 ^ 64), ?_, rfl⟩
    · refine (congrArg (fun x : DieSt => x.tap.ir) (die_setDie ..)).trans ?_
      rw [die_tapIr]
    · exact congrArg (fun x : DieSt => x.tap.chal) (die_setDie ..)
  · exact .of (congrArg Host.Outcome.next (if_pos hd)) (close_spec 0x44)
  · exact .of (congrArg Host.Outcome.next (if_pos hd)) (close_spec 0xFF)

end Sys2Proof.Machine

namespace Sys2Proof.Machine
open Sys2Proof.Laws

/-! ### What the cycles and frames of a port leave of its link (R232 to R242) -/

/-- The state of a port's link: LINK, rates, attempts, frame numbers, the frames without an acknowledgement, and times. -/
def lineOf (x : PortSt) : Nat × Nat × Nat × Nat × Nat × Nat × Nat × List Frame × Nat × Nat × Nat :=
  (x.link, x.rate, x.trained, x.attempts, x.retrainCause, x.failAt, x.fseqNext, x.outst, x.giveRow, x.statusAt, x.upAt)

/-- The link of a port as a view of the state. -/
def lineAt (d p : Nat) (s : State) := lineOf (port s d p)

section
variable (s : State) (d p : Nat)

/-- A change of a port's record beside its link. -/
theorem line_setPort (e q : Nat) (x : PortSt) (h : lineOf x = lineAt e q s) : lineAt d p (setPort s e q x) = lineAt d p s := by
  by_cases hk : (e, q) = (d, p)
  · obtain ⟨rfl, rfl⟩ := Prod.mk.inj hk
    exact (congrArg lineOf (port_setPort ..)).trans h
  · exact congrArg lineOf (port_setPort_other _ _ _ _ _ _ hk)

/-! The cycles of a port -/

theorem line_setCycle (e q : Nat) (c : Cycle) : lineAt d p (setCycle s e q c) = lineAt d p s := line_setPort _ _ _ _ _ _ rfl

theorem line_queueFrame (e q : Nat) (f : Frame) : lineAt d p (queueFrame s e q f) = lineAt d p s := line_setPort _ _ _ _ _ _ rfl

theorem line_withdraw (e q k : Nat) (c : Cycle) : lineAt d p (withdraw s e q k c) = lineAt d p s := by
  unfold withdraw
  dsimp only
  split
  · split
    · rw [line_queueFrame, line_setCycle]
    · rw [line_setPort _ _ _ _ _ _ (by rfl), line_setCycle]
  · rfl

theorem line_withdrawAll (e k : Nat) (f : Cycle → Bool) : lineAt d p (withdrawAll s e k f) = lineAt d p s :=
  each_pres (P := fun t => lineAt d p t = lineAt d p s) rfl fun t c _ ht => by
    rw [line_withdraw]
    apply keepLine_inv (φ := lineAt d p) (hU := ht)
    exact fun _ _ => rfl

/-! The contexts of a port -/

theorem line_stallFollow (e k : Nat) : lineAt d p (stallFollow s e k) = lineAt d p s := by
  apply stallFollow_inv (φ := lineAt d p) (hU := rfl)
  exact fun _ _ => rfl

theorem line_seamUpdate (e k : Nat) : lineAt d p (seamUpdate s e k) = lineAt d p s := by
  apply seamUpdate_inv (φ := lineAt d p) (hU := rfl) <;> exact fun _ _ => rfl

theorem line_sweepBreak (e : Nat) (f : Nat → Bool) : lineAt d p (sweepBreak s e f) = lineAt d p s := by
  apply sweepBreak_inv (φ := lineAt d p) (hU := rfl)
  exact fun _ _ => rfl

theorem line_staleMeas (e k : Nat) : lineAt d p (staleMeas s e k) = lineAt d p s := by
  apply staleMeas_inv (φ := lineAt d p) (hU := rfl)
  exact fun _ _ => rfl

theorem line_dropMoved (e k : Nat) : lineAt d p (dropMoved s e k) = lineAt d p s := by
  apply dropMoved_inv (φ := lineAt d p) (hU := rfl) <;> exact fun _ _ => rfl

theorem line_ctxEvt (e k i : Nat) : lineAt d p (ctxEvt s e k i) = lineAt d p s := by
  apply ctxEvt_inv (φ := lineAt d p) (hU := rfl) <;> exact fun _ _ => rfl

theorem line_ctxFence (e k c : Nat) : lineAt d p (ctxFence s e k c) = lineAt d p s := by
  unfold ctxFence
  dsimp only
  split
  · rfl
  · rw [line_seamUpdate, line_sweepBreak, line_staleMeas, line_dropMoved, line_ctxEvt, line_stallFollow]
    exact line_withdrawAll ..

theorem line_readWords (n e : Nat) (dps : Bool) (w i : Nat) (eff : Option Link) (r : Nat) :
    lineAt d p (readWords n s e dps w i eff r).2.2 = lineAt d p s := by
  apply readWords_inv (φ := lineAt d p) (hU := rfl) <;> exact fun _ _ => rfl

theorem line_ctxRead (e k : Nat) (dps : Bool) (w n : Nat) : lineAt d p (ctxRead s e k dps w n).2.2 = lineAt d p s := by
  unfold ctxRead
  dsimp only
  split
  · exact (line_ctxFence ..).trans (line_readWords ..)
  · exact line_readWords ..

theorem line_geomReport (e k c : Nat) : lineAt d p (geomReport s e k c) = lineAt d p s := by
  apply geomReport_inv (φ := lineAt d p) (hU := rfl) <;> exact fun _ _ => rfl

/-- The state after a read whose result has been taken apart. -/
theorem line_of_ctxRead {s t : State} {e k w n : Nat} {dps bad : Bool} {ws : List Word} (h : ctxRead s e k dps w n = (ws, bad, t)) :
    lineAt d p t = lineAt d p s := by
  have hl := line_ctxRead s d p e k dps w n
  rw [h] at hl
  exact hl

theorem line_checkSeamMask (e k : Nat) : lineAt d p (checkSeamMask s e k) = lineAt d p s := by
  apply checkSeamMask_inv (φ := lineAt d p) (hU := rfl) <;> exact fun _ _ => rfl

theorem line_ctxDiff (e k : Nat) : lineAt d p (ctxDiff s e k) = lineAt d p s := by
  apply ctxDiff_inv (φ := lineAt d p) (hU := rfl) <;> exact fun _ _ => rfl

theorem line_mapReload (e k : Nat) : lineAt d p (mapReload s e k) = lineAt d p s := by
  apply mapReload_inv (φ := lineAt d p) (hU := rfl) <;> exact fun _ _ => rfl

theorem line_readDescr (e k : Nat) : lineAt d p (readDescr s e k) = lineAt d p s := by
  unfold readDescr
  extract_lets g sp x s0
  have h0 : lineAt d p s0 = lineAt d p s := rfl
  split
  · exact (line_geomReport ..).trans h0
  · split
    rename_i h bad s1 he1
    have h1 := (line_of_ctxRead d p he1).trans h0
    split
    · exact h1
    · extract_lets rows
      split
      · exact (line_geomReport ..).trans h1
      · split
        rename_i r bad2 s2 he2
        have h2 := (line_of_ctxRead d p he2).trans h1
        split
        · exact h2
        · split
          rename_i sd bad3 s3 he3
          have h3 : lineAt d p s3 = lineAt d p s := by
            split at he3
            · cases he3
              exact h2
            · exact (line_of_ctxRead d p he3).trans h2
          split
          · exact h3
          · extract_lets y4 s4
            have h4 : lineAt d p s4 = lineAt d p s := h3
            split
            · exact (line_geomReport ..).trans h4
            · split
              · exact (line_geomReport ..).trans h4
              · exact (line_checkSeamMask ..).trans h4

theorem line_checkDescr (e k : Nat) : lineAt d p (checkDescr s e k) = lineAt d p s := by
  have h : lineAt d p (seamUpdate (readDescr s e k) e k) = lineAt d p s := (line_seamUpdate ..).trans (line_readDescr ..)
  unfold checkDescr
  dsimp only
  split
  · exact (line_seamUpdate ..).trans h
  · exact h

theorem line_ctxHandOver (e k : Nat) : lineAt d p (ctxHandOver s e k) = lineAt d p s := by
  unfold ctxHandOver
  split
  rename_i ws bad s1 he
  have h1 := line_of_ctxRead d p he
  split
  · exact h1
  · extract_lets old nt act y s2 c s3 s4
    have h4 : lineAt d p s4 = lineAt d p s := by
      refine (line_stallFollow ..).trans ?_
      rw [line_checkDescr, line_ctxDiff, line_ctxEvt]
      exact h1
    split
    · exact (line_staleMeas ..).trans ((line_mapReload ..).trans h4)
    · exact h4

theorem line_tryHandOver (e k : Nat) : lineAt d p (tryHandOver s e k) = lineAt d p s := by
  unfold tryHandOver
  dsimp only
  split
  · exact line_ctxHandOver ..
  · rfl

theorem line_ctxEnter (e k : Nat) (st : CState) (cause : Nat) : lineAt d p (ctxEnter s e k st cause) = lineAt d p s := by
  unfold ctxEnter
  extract_lets x s0 y s1 s2 s3 s4 s5
  split
  · rfl
  · have h0 : lineAt d p s0 = lineAt d p s := by
      unfold s0
      split
      · exact line_withdrawAll ..
      · rfl
    have h1 : lineAt d p s1 = lineAt d p s := (line_stallFollow ..).trans h0
    have h2 : lineAt d p s2 = lineAt d p s := by
      unfold s2
      split
      · exact h1
      · exact (line_ctxEvt ..).trans h1
    have h3 : lineAt d p s3 = lineAt d p s := by
      unfold s3
      split
      · exact h2
      · exact (line_dropMoved ..).trans h2
    have h4 : lineAt d p s4 = lineAt d p s := by
      refine (line_sweepBreak ..).trans ?_
      split
      · exact (line_staleMeas ..).trans h3
      · exact h3
    have h5 : lineAt d p s5 = lineAt d p s := (line_tryHandOver ..).trans ((line_seamUpdate ..).trans h4)
    split
    · exact (line_mapReload ..).trans ((line_checkDescr ..).trans h5)
    · exact h5

theorem line_ctxMove (e k : Nat) (st : CState) (cause : Nat) : lineAt d p (ctxMove s e k st cause) = lineAt d p s := by
  unfold ctxMove
  extract_lets ms rj s1
  have h1 : lineAt d p s1 = lineAt d p s :=
    each_pres (P := fun t => lineAt d p t = lineAt d p s) rfl fun _ _ _ ht => (line_ctxEnter ..).trans ht
  split
  · exact each_pres (P := fun t => lineAt d p t = lineAt d p s) h1 fun _ _ _ ht => (line_ctxEnter ..).trans ht
  · exact h1

theorem line_turnEnd (e k : Nat) : lineAt d p (turnEnd s e k) = lineAt d p s := by
  unfold turnEnd
  extract_lets x s1 y s2 z s3
  have h2 : lineAt d p s2 = lineAt d p s :=
    each_pres (P := fun t => lineAt d p t = lineAt d p s) rfl fun _ _ _ ht => ht
  split
  · split
    · exact (line_ctxMove ..).trans h2
    · exact h2
  · rfl

/-! The outcome of a cycle's frame -/

theorem line_retire (e q : Nat) (c : Cycle) : lineAt d p (retire s e q c) = lineAt d p s := by
  unfold retire
  split
  · rfl
  · split
    · exact (line_turnEnd ..).trans (line_setPort _ _ _ _ _ _ rfl)
    · rfl

theorem line_memberDone (e q : Nat) (c : Cycle) (k : Nat) (blank : Bool) : lineAt d p (memberDone s e q c k blank) = lineAt d p s := by
  unfold memberDone
  split
  · rfl
  · split
    · apply lineDone_inv (φ := lineAt d p) (hU := line_setCycle ..)
      exact fun _ _ => rfl
    · rfl

theorem line_cycleOutcome (e q : Nat) (c : Cycle) (good : Bool) : lineAt d p (cycleOutcome s e q c good) = lineAt d p s := by
  unfold cycleOutcome
  dsimp only
  rw [line_retire]
  refine each_pres (P := fun t => lineAt d p t = lineAt d p s) (line_setCycle ..) fun t m _ ht => ?_
  have hstep : lineAt d p (if good && !m.nul then
      setCtx (stallReset t e m.ctx) e m.ctx { ctx (stallReset t e m.ctx) e m.ctx with under := false } else stallMark t e m.ctx) =
      lineAt d p s := by
    split
    · exact ht
    · exact (line_stallFollow ..).trans ht
  split
  · exact hstep
  · exact (line_memberDone ..).trans hstep

theorem line_loadFail (e q c : Nat) : lineAt d p (loadFail s e q c) = lineAt d p s := by
  unfold loadFail
  dsimp only
  rw [lineAt, port_raise]
  exact line_setPort (wr s (pgHp e q) Off.WF_STAT _) _ _ _ _ _ rfl

/-- The end of a frame leaves the link of every port. -/
theorem line_frameEnd (e q : Nat) (f : Frame) (good : Bool) : lineAt d p (frameEnd s e q f good) = lineAt d p s := by
  unfold frameEnd
  split
  · split
    · split
      · exact line_setPort _ _ _ _ _ _ rfl
      · exact line_loadFail ..
    · rfl
  · split
    · rfl
    · split
      · split
        · exact line_setCycle ..
        · rfl
      · split
        · rfl
        · exact line_cycleOutcome ..

/-! The fence of a page -/

theorem line_pwmRoll (e q : Nat) : lineAt d p (pwmRoll s e q) = lineAt d p s := by
  unfold pwmRoll
  extract_lets x pg n us s1 s2
  have h1 : lineAt d p s1 = lineAt d p s := line_setPort _ _ _ _ _ _ rfl
  have h2 : lineAt d p s2 = lineAt d p s := by
    unfold s2
    split
    · exact h1
    · exact h1
  split
  · rfl
  · split
    · exact h2
    · exact h2

theorem line_setDyn (pg : Pg) (i : Nat) (b : Bool) : lineAt d p (setDyn s pg i b) = lineAt d p s := by
  apply setDyn_inv (φ := lineAt d p) (hU := rfl) <;> exact fun _ _ => rfl

theorem line_htrFollow (e q : Nat) : lineAt d p (htrFollow s e q) = lineAt d p s := by
  unfold htrFollow
  extract_lets pg c s1 x s2
  have h1 : lineAt d p s1 = lineAt d p s := (line_setDyn ..).trans (line_pwmRoll ..)
  have h2 : lineAt d p s2 = lineAt d p s := by
    refine (line_setPort _ _ _ _ _ _ ?_).trans h1
    rfl
  split
  · exact h1
  · split
    · exact h2
    · exact h2

theorem line_nullFrames (e q : Nat) : lineAt d p (nullFrames s e q) = lineAt d p s := line_setPort _ _ _ _ _ _ rfl

theorem line_loadAbort (e q : Nat) : lineAt d p (loadAbort s e q) = lineAt d p s := by
  unfold loadAbort
  split
  · exact line_loadFail ..
  · rfl

theorem line_hpCut (e q : Nat) : lineAt d p (hpCut s e q) = lineAt d p s := by
  unfold hpCut
  extract_lets x busy s1 s2
  have h1 : lineAt d p s1 = lineAt d p s := line_setPort _ _ _ _ _ _ rfl
  split
  · exact h1
  · split
    · exact h1
    · exact h1

theorem line_hpSafe (e q : Nat) (ks : List Nat) : lineAt d p (hpSafe s e q ks) = lineAt d p s := by
  unfold hpSafe
  extract_lets s1 s2
  have h1 : lineAt d p s1 = lineAt d p s := (line_hpCut ..).trans ((line_nullFrames ..).trans (line_loadAbort ..))
  have h2 : lineAt d p s2 = lineAt d p s :=
    each_pres (P := fun t => lineAt d p t = lineAt d p s) h1 fun _ _ _ ht => (line_ctxFence ..).trans ht
  apply asPortFenced_inv (φ := lineAt d p) (hU := (line_htrFollow ..).trans h2) <;> exact fun _ _ => rfl

theorem line_echoSafe (e : Nat) : lineAt d p (echoSafe s e) = lineAt d p s :=
  each_pres (P := fun t => lineAt d p t = lineAt d p s) rfl fun _ _ _ ht => by
    refine (line_setPort _ _ _ _ _ _ ?_).trans ht
    rfl

/-- The safe state of a page leaves the link of every port. -/
theorem line_pageSafe (pg : Pg) (r : Nat) (ks : List Nat) : lineAt d p (pageSafe s pg r ks) = lineAt d p s := by
  unfold pageSafe
  dsimp only
  split
  · exact line_hpSafe ..
  · apply encSafe_inv (φ := lineAt d p) (hU := rfl) <;> exact fun _ _ => rfl
  · apply pdSafe_inv (φ := lineAt d p) (hU := rfl) <;> exact fun _ _ => rfl
  · apply axSafe_inv (φ := lineAt d p) (hU := rfl) <;> exact fun _ _ => rfl
  · apply seamsUpdate_inv (φ := lineAt d p) (hU := rfl) <;> exact fun _ _ => rfl
  · exact line_echoSafe ..
  · apply asSafe_inv (φ := lineAt d p) (hU := rfl) <;> exact fun _ _ => rfl
  · apply hoistSafe_inv (φ := lineAt d p) (hU := rfl) <;> exact fun _ _ => rfl
  · apply lampSafe_inv (φ := lineAt d p) (hU := rfl) <;> exact fun _ _ => rfl
  · rfl
  · apply dbgClose_inv (φ := lineAt d p) (hU := rfl) <;> exact fun _ _ => rfl
  · rfl
  · rfl
  · apply chuteFollow_inv (φ := lineAt d p) (hU := rfl) <;> exact fun _ _ => rfl
  · rfl

theorem line_raise (pg : Pg) (i : Nat) : lineAt d p (raise s pg i) = lineAt d p s := congrArg lineOf (port_raise ..)

theorem line_wr (pg : Pg) (o : Nat) (v : Word) : lineAt d p (wr s pg o v) = lineAt d p s := congrArg lineOf (port_wr ..)

theorem line_encSync (e i : Nat) : lineAt d p (encSync s e i) = lineAt d p s := by
  apply encSync_inv (φ := lineAt d p) (hU := rfl) <;> exact fun _ _ => rfl

theorem line_fenceQuiet (pg : Pg) (r : Nat) (ks : List Nat) : lineAt d p (fenceQuiet s pg r ks) = lineAt d p s := by
  unfold fenceQuiet
  dsimp only
  split
  · rfl
  · rw [line_raise, count, line_wr, line_pageSafe, line_wr, wf, line_wr, setPstate, wf, line_wr, wb, line_wr]
    split
    · exact line_encSync s d p pg.die (pgInst pg)
    · rfl

theorem line_fencePageFor (pg : Pg) (r : Nat) (l : Link) : lineAt d p (fencePageFor s pg r l) = lineAt d p s := by
  unfold fencePageFor
  split
  · apply logRecord_inv (φ := lineAt d p)
    case hU => exact line_fenceQuiet ..
    all_goals exact fun _ _ => rfl
  · rfl

end
end Sys2Proof.Machine

namespace Sys2Proof.Machine
open Sys2Proof.Laws

/-! ### What the cycles and frames of a port leave of the registers of head ports -/

theorem hp_apart {d p : Nat} (hp : p < 16) (k : Kind) (h : .hp ≠ k) : k.Apart (pgHp d p) :=
  Kind.apart .hp k (pgKind_pgHp d hp) h

section
variable {s t : State} {d p : Nat} (hp : p < 16) {o : Nat}
include hp

theorem hpReg_ctxRead {e k w n : Nat} {dps bad : Bool} {ws : List Word} (h : ctxRead s e k dps w n = (ws, bad, t)) :
    rd t (pgHp d p) o = rd s (pgHp d p) o := by
  have hr := (ctxRead_keeps (q₀ := pgHp d p) (d := e) (k := k) (dps := dps) (w := w) (n := n) (hp_apart hp .fence (by decide))
    (hp_apart hp .memctl (by decide)) (hp_apart hp .chuteGlobal (by decide)) (hp_apart hp .seam (by decide))
    (hp_apart hp .echo (by decide)) (hp_apart hp .ctxCtrl (by decide)) (hp_apart hp .chute (by decide)) (.refl _ s)).regs o
  rw [h] at hr
  exact hr

theorem hpReg_ctxEvt (e k i : Nat) : rd (ctxEvt s e k i) (pgHp d p) o = rd s (pgHp d p) o :=
  (ctxEvt_keeps (hp_apart hp .ctxCtrl (by decide)) (.refl ..)).regs o

theorem hpReg_checkDescr (e k : Nat) : rd (checkDescr s e k) (pgHp d p) o = rd s (pgHp d p) o :=
  (checkDescr_keeps (hp_apart hp .fence (by decide)) (hp_apart hp .memctl (by decide)) (hp_apart hp .chuteGlobal (by decide))
    (hp_apart hp .seam (by decide)) (hp_apart hp .echo (by decide)) (hp_apart hp .ctxCtrl (by decide))
    (hp_apart hp .chute (by decide)) (.refl ..)).regs o

theorem hpReg_mapReload (e k : Nat) : rd (mapReload s e k) (pgHp d p) o = rd s (pgHp d p) o :=
  (mapReload_keeps (hp_apart hp .echo (by decide)) (.refl ..)).regs o

theorem hpReg_dropMoved (e k : Nat) : rd (dropMoved s e k) (pgHp d p) o = rd s (pgHp d p) o :=
  (dropMoved_keeps (hp_apart hp .echo (by decide)) (.refl ..)).regs o

theorem hpReg_seamUpdate (e k : Nat) : rd (seamUpdate s e k) (pgHp d p) o = rd s (pgHp d p) o :=
  (seamUpdate_keeps (hp_apart hp .seam (by decide)) (.refl ..)).regs o

omit hp in
theorem regs_stallFollow (s : State) (e k : Nat) : (stallFollow s e k).regs = s.regs := by
  apply stallFollow_inv (φ := State.regs) (hU := rfl)
  exact fun _ _ => rfl

omit hp in
theorem regs_withdrawAll (s : State) (e k : Nat) (f : Cycle → Bool) : (withdrawAll s e k f).regs = s.regs := by
  apply withdrawAll_inv (φ := State.regs) (hU := rfl) <;> exact fun _ _ => rfl

omit hp in
theorem regs_sweepBreak (s : State) (e : Nat) (f : Nat → Bool) : (sweepBreak s e f).regs = s.regs := by
  apply sweepBreak_inv (φ := State.regs) (hU := rfl)
  exact fun _ _ => rfl

omit hp in
/-- Reads follow the registers alone. -/
theorem rd_of_regs (h : t.regs = s.regs) (q : Pg) (o : Nat) : rd t q o = rd s q o := by rw [rd, h, rd]

section
variable (hl : o ≠ Off.EVT_LAT)
include hl

omit hp in
theorem hpReg_ctxDiff (e k : Nat) (q : Pg) : rd (ctxDiff s e k) q o = rd s q o := by
  unfold ctxDiff
  split
  · rfl
  · split
    · exact rd_raise_off _ _ _ _ _ hl
    · rfl

theorem hpReg_ctxHandOver (e k : Nat) : rd (ctxHandOver s e k) (pgHp d p) o = rd s (pgHp d p) o := by
  unfold ctxHandOver
  split
  rename_i ws bad s1 he
  have h1 : rd s1 (pgHp d p) o = rd s (pgHp d p) o := hpReg_ctxRead hp he
  split
  · exact h1
  · extract_lets old nt act y s2 c s3 s4
    have h3 : rd s3 (pgHp d p) o = rd s (pgHp d p) o :=
      (rd_wr_page _ _ _ _ _ _ (hp_apart hp .ctxCtrl (by decide) e)).trans h1
    have h4 : rd s4 (pgHp d p) o = rd s (pgHp d p) o := by
      refine (rd_of_regs (regs_stallFollow ..) _ _).trans ?_
      rw [hpReg_checkDescr hp, hpReg_ctxDiff hl, hpReg_ctxEvt hp, h3]
    split
    · exact (rd_of_regs rfl _ _).trans ((hpReg_mapReload hp _ _).trans h4)
    · exact h4

theorem hpReg_tryHandOver (e k : Nat) : rd (tryHandOver s e k) (pgHp d p) o = rd s (pgHp d p) o := by
  unfold tryHandOver
  dsimp only
  split
  · exact hpReg_ctxHandOver hp hl _ _
  · rfl

theorem hpReg_ctxEnter (e k : Nat) (st : CState) (cause : Nat) :
    rd (ctxEnter s e k st cause) (pgHp d p) o = rd s (pgHp d p) o := by
  unfold ctxEnter
  extract_lets x s0 y s1 s2 s3 s4 s5
  split
  · rfl
  · have h0 : rd s0 (pgHp d p) o = rd s (pgHp d p) o := by
      unfold s0
      split
      · exact rd_of_regs (regs_withdrawAll ..) _ _
      · rfl
    have h1 : rd s1 (pgHp d p) o = rd s (pgHp d p) o := (rd_of_regs (regs_stallFollow ..) _ _).trans h0
    have h2 : rd s2 (pgHp d p) o = rd s (pgHp d p) o := by
      unfold s2
      split
      · exact h1
      · exact (hpReg_ctxEvt hp _ _ _).trans h1
    have h3 : rd s3 (pgHp d p) o = rd s (pgHp d p) o := by
      unfold s3
      split
      · exact h2
      · exact (hpReg_dropMoved hp _ _).trans h2
    have h4 : rd s4 (pgHp d p) o = rd s (pgHp d p) o := by
      refine (rd_of_regs (regs_sweepBreak ..) _ _).trans ?_
      split
      · exact h3
      · exact h3
    have h5 : rd s5 (pgHp d p) o = rd s (pgHp d p) o :=
      (hpReg_tryHandOver hp hl _ _).trans ((hpReg_seamUpdate hp _ _).trans h4)
    split
    · exact (hpReg_mapReload hp _ _).trans ((hpReg_checkDescr hp _ _).trans h5)
    · exact h5

theorem hpReg_ctxMove (e k : Nat) (st : CState) (cause : Nat) : rd (ctxMove s e k st cause) (pgHp d p) o = rd s (pgHp d p) o := by
  unfold ctxMove
  extract_lets ms rj s1
  have h1 : rd s1 (pgHp d p) o = rd s (pgHp d p) o :=
    each_pres (P := fun t => rd t (pgHp d p) o = rd s (pgHp d p) o) rfl fun _ _ _ ht => (hpReg_ctxEnter hp hl _ _ _ _).trans ht
  split
  · exact each_pres (P := fun t => rd t (pgHp d p) o = rd s (pgHp d p) o) h1 fun _ _ _ ht =>
      (hpReg_ctxEnter hp hl _ _ _ _).trans ht
  · exact h1

theorem hpReg_turnEnd (e k : Nat) : rd (turnEnd s e k) (pgHp d p) o = rd s (pgHp d p) o := by
  unfold turnEnd
  extract_lets x s1 y s2 z s3
  have h2 : rd s2 (pgHp d p) o = rd s (pgHp d p) o :=
    each_pres (P := fun t => rd t (pgHp d p) o = rd s (pgHp d p) o) rfl fun _ _ _ ht => ht
  split
  · split
    · exact (hpReg_ctxMove hp hl _ _ _ _).trans h2
    · exact h2
  · rfl

theorem hpReg_retire (e q : Nat) (c : Cycle) : rd (retire s e q c) (pgHp d p) o = rd s (pgHp d p) o := by
  unfold retire
  split
  · rfl
  · split
    · exact hpReg_turnEnd hp hl _ _
    · rfl

omit hp hl in
theorem regs_memberDone (s : State) (e q : Nat) (c : Cycle) (k : Nat) (b : Bool) : (memberDone s e q c k b).regs = s.regs := by
  apply memberDone_inv (φ := State.regs) (hU := rfl) <;> exact fun _ _ => rfl

theorem hpReg_cycleOutcome (e q : Nat) (c : Cycle) (good : Bool) :
    rd (cycleOutcome s e q c good) (pgHp d p) o = rd s (pgHp d p) o := by
  unfold cycleOutcome
  dsimp only
  rw [hpReg_retire hp hl]
  refine each_pres (P := fun t => rd t (pgHp d p) o = rd s (pgHp d p) o) rfl fun t m _ ht => ?_
  have hstep : rd (if good && !m.nul then
      setCtx (stallReset t e m.ctx) e m.ctx { ctx (stallReset t e m.ctx) e m.ctx with under := false } else stallMark t e m.ctx)
      (pgHp d p) o = rd s (pgHp d p) o := by
    split
    · exact ht
    · exact (rd_of_regs (regs_stallFollow ..) _ _).trans ht
  split
  · exact hstep
  · exact (rd_of_regs (regs_memberDone ..) _ _).trans hstep

omit hp in
theorem rd_loadFail (e r c : Nat) (q : Pg) (hw : Off.WF_STAT ≠ o) : rd (loadFail s e r c) q o = rd s q o := by
  unfold loadFail
  dsimp only
  rw [rd_raise_off _ _ _ _ _ hl]
  exact rd_wr_off _ _ _ _ _ _ hw

/-- The end of a frame changes WF_STAT and events of a head port alone. -/
theorem hpReg_frameEnd (hw : Off.WF_STAT ≠ o) (e q : Nat) (f : Frame) (good : Bool) :
    rd (frameEnd s e q f good) (pgHp d p) o = rd s (pgHp d p) o := by
  unfold frameEnd
  split
  · split
    · split
      · rfl
      · exact rd_loadFail hl _ _ _ _ hw
    · rfl
  · split
    · rfl
    · split
      · split
        · rfl
        · rfl
      · split
        · rfl
        · exact hpReg_cycleOutcome hp hl _ _ _ _

end
end

end Sys2Proof.Machine

namespace Sys2Proof.Machine
open Sys2Proof.Laws

/-! ### The state of a link and the register that shows it (R232) -/

section
variable (s : State) (d p : Nat)

theorem stat_linkStat : rf (linkStat s d p) (pgHp d p) Off.SY_STAT 0 3 = (port s d p).link % 8 ∧
    rf (linkStat s d p) (pgHp d p) Off.SY_STAT 4 2 = (port s d p).trained % 4 ∧
    rf (linkStat s d p) (pgHp d p) Off.SY_STAT 12 4 = rf s (pgHp d p) Off.SY_STAT 12 4 := by
  unfold linkStat
  dsimp only
  simp only [rf, rd_wr_same]
  refine ⟨?_, ?_, ?_⟩ <;> simp

theorem rd_linkStat_off {q : Pg} {o : Nat} (h : Off.SY_STAT ≠ o) : rd (linkStat s d p) q o = rd s q o :=
  rd_wr_off _ _ _ _ _ _ h

theorem regs_streamFollow : (streamFollow s d p).regs = s.regs := by
  apply streamFollow_inv (φ := State.regs) (hU := rfl) <;> exact fun _ _ => rfl

theorem line_streamFollow (e q : Nat) : lineAt d p (streamFollow s e q) = lineAt d p s := by
  unfold streamFollow
  extract_lets x lvl on code s1 s2
  have h1 : lineAt d p s1 = lineAt d p s := by
    refine (line_setPort _ _ _ _ _ _ ?_).trans rfl
    rfl
  have h2 : lineAt d p s2 = lineAt d p s := by
    unfold s2
    split
    · exact h1
    · exact h1
  split
  · exact h2
  · exact h2

theorem line_notice (e n c : Nat) (args : List Word) : lineAt d p (notice s e n c args) = lineAt d p s := by
  apply notice_inv (φ := lineAt d p) (hU := rfl) <;> exact fun _ _ => rfl

/-- The state that shows a link just set, before its events. -/
def linkShown (st : Nat) : State :=
  streamFollow (linkStat (setPort s d p { port s d p with link := st, tryAt := s.clock }) d p) d p

theorem line_linkShown (st : Nat) : lineAt d p (linkShown s d p st) = lineOf { port s d p with link := st } := by
  unfold linkShown
  rw [line_streamFollow, linkStat, line_wr, lineAt, port_setPort]
  rfl

theorem setLink_eq (st : Nat) : setLink s d p st =
    whenDo (decide ((port s d p).link ≠ st)) (whenDo (decide (st = 3) && decide ((port s d p).link ≠ 3))
      (whenDo (decide ((port s d p).link = 3) && decide (st ≠ 3)) (linkShown s d p st) (raise · (pgHp d p) 13))
      (raise · (pgHp d p) 12)) fun t => notice t d 1 0x82 [word (p + st * 2 ^ 4 + rf t (pgHp d p) Off.SY_STAT 12 4 * 2 ^ 8)] := rfl

/-- What holds of the state shown, and is kept by the events of a change, holds after the change. -/
theorem setLink_of {P : State → Prop} (st : Nat) (h : P (linkShown s d p st)) (hr : ∀ t i, P t → P (raise t (pgHp d p) i))
    (hn : ∀ t w, P t → P (notice t d 1 0x82 w)) : P (setLink s d p st) := by
  rw [setLink_eq]
  have h1 : P (whenDo (decide ((port s d p).link = 3) && decide (st ≠ 3)) (linkShown s d p st) (raise · (pgHp d p) 13)) := by
    rw [whenDo]
    split
    · exact hr _ _ h
    · exact h
  have h2 : P (whenDo (decide (st = 3) && decide ((port s d p).link ≠ 3))
      (whenDo (decide ((port s d p).link = 3) && decide (st ≠ 3)) (linkShown s d p st) (raise · (pgHp d p) 13))
      (raise · (pgHp d p) 12)) := by
    rw [whenDo]
    split
    · exact hr _ _ h1
    · exact h1
  rw [whenDo]
  split
  · exact hn _ _ h2
  · exact h2

theorem line_setLink (st : Nat) : lineAt d p (setLink s d p st) = lineOf { port s d p with link := st } :=
  setLink_of s d p (P := fun t => lineAt d p t = _) st (line_linkShown ..) (fun _ _ ht => (line_raise ..).trans ht)
    fun _ _ ht => (line_notice ..).trans ht

theorem clock_setLink (st : Nat) : (setLink s d p st).clock = s.clock := by
  apply setLink_inv (φ := State.clock) (hU := rfl) <;> exact fun _ _ => rfl

theorem part_setLink (st : Nat) : (setLink s d p st).part = s.part := by
  apply setLink_inv (φ := State.part) (hU := rfl) <;> exact fun _ _ => rfl

end

section
variable (s : State) {d p : Nat} (hp : p < 16)
include hp

theorem rd_notice_hp (e n c : Nat) (args : List Word) (o : Nat) : rd (notice s e n c args) (pgHp d p) o = rd s (pgHp d p) o :=
  (notice_keeps (fun e b => hp_apart hp .mbox (by decide) e b) (.refl ..)).regs o

/-- The link in SY_STAT, its rate, and the code of its last failure. -/
theorem stat_setLink (st : Nat) : rf (setLink s d p st) (pgHp d p) Off.SY_STAT 0 3 = st % 8 ∧
    rf (setLink s d p st) (pgHp d p) Off.SY_STAT 4 2 = (port s d p).trained % 4 ∧
    rf (setLink s d p st) (pgHp d p) Off.SY_STAT 12 4 = rf s (pgHp d p) Off.SY_STAT 12 4 := by
  have hrd : rd (setLink s d p st) (pgHp d p) Off.SY_STAT = rd (linkShown s d p st) (pgHp d p) Off.SY_STAT :=
    setLink_of s d p (P := fun t => rd t (pgHp d p) Off.SY_STAT = _) st rfl
      (fun _ _ ht => (rd_raise_off _ _ _ _ _ (by decide)).trans ht) fun _ _ ht => (rd_notice_hp _ hp ..).trans ht
  have hls : rd (linkShown s d p st) (pgHp d p) Off.SY_STAT =
      rd (linkStat (setPort s d p { port s d p with link := st, tryAt := s.clock }) d p) (pgHp d p) Off.SY_STAT :=
    rd_of_regs (regs_streamFollow ..) _ _
  obtain ⟨h1, h2, h3⟩ := stat_linkStat (setPort s d p { port s d p with link := st, tryAt := s.clock }) d p
  rw [port_setPort] at h1 h2
  unfold rf at h1 h2 h3 ⊢
  rw [hrd, hls]
  exact ⟨h1, h2, h3⟩

/-- A change of a link leaves the other registers of the port. -/
theorem rd_setLink_off (st : Nat) {o : Nat} (hs : Off.SY_STAT ≠ o) (hl : o ≠ Off.EVT_LAT) :
    rd (setLink s d p st) (pgHp d p) o = rd s (pgHp d p) o :=
  setLink_of s d p (P := fun t => rd t (pgHp d p) o = rd s (pgHp d p) o) st
    ((rd_of_regs (regs_streamFollow ..) _ _).trans ((rd_linkStat_off _ _ _ hs).trans rfl))
    (fun _ _ ht => (rd_raise_off _ _ _ _ _ hl).trans ht) fun _ _ ht => (rd_notice_hp _ hp ..).trans ht

theorem rb_notice_hp {t : State} {i : Nat} (e n c : Nat) (args : List Word) (h : rb t (pgHp d p) Off.EVT_LAT i = true) :
    rb (notice t e n c args) (pgHp d p) Off.EVT_LAT i = true :=
  (congrArg (bit · i) (rd_notice_hp t hp ..)).trans h

/-- A link that leaves UP latches LINK_DOWN, and one that becomes UP latches LINK_UP. -/
theorem evt_setLink (st : Nat) (hpres : present s (pgHp d p) = true) :
    ((port s d p).link = 3 → st ≠ 3 → rb (setLink s d p st) (pgHp d p) Off.EVT_LAT 13 = true) ∧
    ((port s d p).link ≠ 3 → st = 3 → rb (setLink s d p st) (pgHp d p) Off.EVT_LAT 12 = true) := by
  have hpart : (linkShown s d p st).part = s.part := by
    unfold linkShown
    apply streamFollow_inv (φ := State.part)
    case hU => rfl
    all_goals exact fun _ _ => rfl
  rw [setLink_eq]
  refine ⟨fun h3 hst => ?_, fun h3 hst => ?_⟩
  · rw [decide_eq_true h3, decide_eq_true hst, decide_eq_false hst, decide_eq_true (by rw [h3]; exact Ne.symm hst)]
    exact rb_notice_hp hp _ _ _ _ (rb_raise_same _ _ _ (present_congr hpart _ ▸ hpres) (by decide))
  · rw [decide_eq_false h3, decide_eq_true hst, decide_eq_true h3, decide_eq_true (by rw [hst]; exact h3)]
    exact rb_notice_hp hp _ _ _ _ (rb_raise_same _ _ _ (present_congr hpart _ ▸ hpres) (by decide))

end
end Sys2Proof.Machine

namespace Sys2Proof.Machine
open Sys2Proof.Laws

/-! ### Discovery and training (R232 to R235) -/

section
variable (s : State) {d p : Nat} (hp : p < 16)

/-- The state in which a link has failed, before event 14. -/
def linkFailed (s : State) (d p code : Nat) : State :=
  setPort (setLink (wf s (pgHp d p) Off.SY_STAT 12 4 code) d p 5) d p
    { port (setLink (wf s (pgHp d p) Off.SY_STAT 12 4 code) d p 5) d p with failAt := s.clock }

theorem linkFail_eq (code : Nat) : linkFail s d p code = raise (linkFailed s d p code) (pgHp d p) 14 := rfl

/-- The parts of a link in its view. -/
theorem line_link {t : State} {x : PortSt} (h : lineAt d p t = lineOf x) : (port t d p).link = x.link :=
  congrArg (fun y => y.1) h

theorem line_rate {t : State} {x : PortSt} (h : lineAt d p t = lineOf x) : (port t d p).rate = x.rate :=
  congrArg (fun y => y.2.1) h

include hp

/-- Discovery or training that has failed. -/
theorem linkFail_spec {code : Nat} (hc : code < 16) : rf (linkFail s d p code) (pgHp d p) Off.SY_STAT 0 3 = 5 ∧
    rf (linkFail s d p code) (pgHp d p) Off.SY_STAT 12 4 = code ∧
    (present s (pgHp d p) = true → rb (linkFail s d p code) (pgHp d p) Off.EVT_LAT 14 = true) := by
  rw [linkFail_eq]
  obtain ⟨h1, -, h3⟩ := stat_setLink (wf s (pgHp d p) Off.SY_STAT 12 4 code) hp 5
  refine ⟨?_, ?_, fun h => rb_raise_same _ _ _ ?_ (by decide)⟩
  · rw [rf, rd_raise_off _ _ _ _ _ (by decide)]
    exact h1
  · rw [rf, rd_raise_off _ _ _ _ _ (by decide)]
    refine h3.trans ((rf_wf_same _ _ _ _ _ _ (by decide)).trans ?_)
    exact Nat.mod_eq_of_lt hc
  · refine Eq.trans (present_congr ?_ _) h
    exact part_setLink ..

/-- A state that discovery goes through. -/
def discovered (s : State) (d p : Nat) (l : List Byte) : State :=
  let s1 := copyRecord s d p l
  let s2 := setPort s1 d p { port s1 d p with rate := min (rf s (pgHp d p) Off.SY_CFG 0 2) (recByte l 6 % 4), attempts := 0 }
  emit (emit s2 (.sideWrite d p 0x20 [0x81])) (.sideWrite d p 0x20 [0x01])

omit hp in
theorem discover_some (l : List Byte) : discover s d p (some l) =
    if !recGood l then linkFail (copyRecord s d p l) d p 2
    else if !(recByte l 3).testBit (persOf s d p) then linkFail (copyRecord s d p l) d p 3
    else if persOf s d p ≠ 2 ∧ recByte l 6 % 4 = 0 then linkFail (copyRecord s d p l) d p 4
    else if persOf s d p ≠ 2 ∧ min (rf s (pgHp d p) Off.SY_CFG 0 2) (recByte l 6 % 4) = 0 then
      linkFail (discovered s d p l) d p 5 else setLink (discovered s d p l) d p 2 := rfl

omit hp in
/-- The head's nozzles as its record gives them. -/
theorem nozzles_copyRecord (l : List Byte) :
    rf (copyRecord s d p l) (pgHp d p) Off.SY_HEAD_ID2 12 12 = (recByte l 4 * 256 + recByte l 5 - 1) % 4096 := by
  unfold copyRecord
  dsimp only
  rw [rf, rd_wr48_off _ _ _ _ _ _ (by decide) (by decide), rd_wr_off _ _ _ _ _ _ (by decide), rd_wr_same, fld, word,
    BitVec.toNat_ofNat]
  have ha : (recByte l 4 * 256 + recByte l 5 - 1) % 4096 < 4096 := Nat.mod_lt _ (by decide)
  have hb : recByte l 6 / 4 % 4 < 4 := Nat.mod_lt _ (by decide)
  have hc : recByte l 6 / 16 % 2 < 2 := Nat.mod_lt _ (by decide)
  generalize (recByte l 4 * 256 + recByte l 5 - 1) % 4096 = a at ha
  generalize recByte l 6 / 4 % 4 = b at hb
  generalize recByte l 6 / 16 % 2 = c at hc
  omega

theorem discover_good {l : List Byte} (h1 : recGood l = true) (h2 : (recByte l 3).testBit (persOf s d p) = true)
    (h : persOf s d p ≠ 2 → recByte l 6 % 4 ≠ 0 ∧ rf s (pgHp d p) Off.SY_CFG 0 2 ≠ 0) :
    (port (discover s d p (some l)) d p).link = 2 ∧ rf (discover s d p (some l)) (pgHp d p) Off.SY_STAT 0 3 = 2 ∧
    (port (discover s d p (some l)) d p).rate = min (rf s (pgHp d p) Off.SY_CFG 0 2) (recByte l 6 % 4) ∧
    headNozzles (discover s d p (some l)) d p = (recByte l 4 * 256 + recByte l 5 - 1) % 4096 + 1 := by
  have heq : discover s d p (some l) = setLink (discovered s d p l) d p 2 := by
    rw [discover_some, h1, h2, if_neg (by simp), if_neg (by simp), if_neg (fun hc => (h hc.1).1 hc.2), if_neg]
    rintro ⟨hc, hmin⟩
    obtain ⟨ha, hb⟩ := h hc
    omega
  have hrate : (port (discovered s d p l) d p).rate = min (rf s (pgHp d p) Off.SY_CFG 0 2) (recByte l 6 % 4) :=
    congrArg PortSt.rate (port_setPort ..)
  have hnoz : headNozzles (discovered s d p l) d p = (recByte l 4 * 256 + recByte l 5 - 1) % 4096 + 1 := by
    have hregs : (discovered s d p l).regs = (copyRecord s d p l).regs := rfl
    rw [headNozzles, rf, rd_of_regs hregs]
    exact congrArg (· + 1) (nozzles_copyRecord s l)
  rw [heq]
  generalize discovered s d p l = u at hrate hnoz
  have hline := line_setLink u d p 2
  obtain ⟨hstat, -, -⟩ := stat_setLink u hp 2
  refine ⟨line_link hline, hstat, (line_rate hline).trans hrate, ?_⟩
  rw [headNozzles, rf, rd_setLink_off u hp 2 (by decide) (by decide)]
  exact hnoz

omit hp in
theorem exec_linkDiscovery {ans : Option (List Byte)} (h : PortThere s d p) (hl : (port s d p).link = 1) :
    exec (.linkDiscovery d p ans) s = .next (discover s d p ans) :=
  if_pos ⟨h.1, h.2.1, hl⟩

end

/-- LINK_DISCOVERY. -/
theorem linkDiscovery_spec {s : State} {d p : Nat} (h : PortThere s d p) (hl : (port s d p).link = 1) :
    (Completes (.linkDiscovery d p none) s fun t => (port t d p).link = 5 ∧ rf t (pgHp d p) Off.SY_STAT 0 3 = 5 ∧
      rf t (pgHp d p) Off.SY_STAT 12 4 = 1 ∧ rb t (pgHp d p) Off.EVT_LAT 14 = true) ∧
    (∀ l, Completes (.linkDiscovery d p (some l)) s fun t =>
      (recGood l = false → rf t (pgHp d p) Off.SY_STAT 0 3 = 5 ∧ rf t (pgHp d p) Off.SY_STAT 12 4 = 2) ∧
      (recGood l = true → (recByte l 3).testBit (persOf s d p) = false →
        rf t (pgHp d p) Off.SY_STAT 0 3 = 5 ∧ rf t (pgHp d p) Off.SY_STAT 12 4 = 3) ∧
      (recGood l = true → (recByte l 3).testBit (persOf s d p) = true →
        (persOf s d p ≠ 2 → recByte l 6 % 4 = 0 →
          rf t (pgHp d p) Off.SY_STAT 0 3 = 5 ∧ rf t (pgHp d p) Off.SY_STAT 12 4 = 4) ∧
        (persOf s d p ≠ 2 → recByte l 6 % 4 ≠ 0 → rf s (pgHp d p) Off.SY_CFG 0 2 = 0 →
          rf t (pgHp d p) Off.SY_STAT 0 3 = 5 ∧ rf t (pgHp d p) Off.SY_STAT 12 4 = 5) ∧
        ((persOf s d p ≠ 2 → recByte l 6 % 4 ≠ 0 ∧ rf s (pgHp d p) Off.SY_CFG 0 2 ≠ 0) →
          (port t d p).link = 2 ∧ rf t (pgHp d p) Off.SY_STAT 0 3 = 2 ∧
          (port t d p).rate = min (rf s (pgHp d p) Off.SY_CFG 0 2) (recByte l 6 % 4) ∧
          headNozzles t d p = (recByte l 4 * 256 + recByte l 5 - 1) % 4096 + 1))) := by
  have hp : p < 16 := lt_of_lt_of_le h.2.1 (nPorts_le s)
  have hfail (t : State) {code : Nat} (hc : code < 16) : rf (linkFail t d p code) (pgHp d p) Off.SY_STAT 0 3 = 5 ∧
      rf (linkFail t d p code) (pgHp d p) Off.SY_STAT 12 4 = code :=
    ⟨(linkFail_spec t hp hc).1, (linkFail_spec t hp hc).2.1⟩
  refine ⟨.of (exec_linkDiscovery s h hl) ?_, fun l => .of (exec_linkDiscovery s h hl)
    ⟨fun h1 => ?_, fun h1 h2 => ?_, fun h1 h2 => ⟨fun h3 h4 => ?_, fun h3 h4 h5 => ?_, fun h3 => discover_good s hp h1 h2 h3⟩⟩⟩
  · obtain ⟨hstat, hcode, hevt⟩ := linkFail_spec s hp (code := 1) (by decide)
    exact ⟨link_linkFail s d p 1, hstat, hcode, hevt h.2.2⟩
  · rw [discover_some, h1]
    exact hfail _ (by decide)
  · rw [discover_some, h1, h2]
    exact hfail _ (by decide)
  · rw [discover_some, h1, h2, if_neg (by simp), if_neg (by simp), if_pos ⟨h3, h4⟩]
    exact hfail _ (by decide)
  · rw [discover_some, h1, h2, if_neg (by simp), if_neg (by simp), if_neg (fun hc => h4 hc.2), if_pos ⟨h3, by rw [h5]; exact Nat.zero_min _⟩]
    exact hfail _ (by decide)

theorem discoveryRepeat_spec {s : State} {d p : Nat} (h : PortThere s d p) (hl : (port s d p).link = 5)
    (hs : pstate s (pgHp d p) = stStarting) (he : rb s (pgHp d p) Off.PAGE_CTRL 0 = true) :
    Completes (.discoveryRepeat d p) s fun t => (port t d p).link = 1 ∧ (port s d p).failAt + 25000000 ≤ t.clock := by
  refine .of (if_pos ⟨h.1, h.2.1, hl, hs, he⟩) ⟨line_link (line_setLink ..), ?_⟩
  rw [clock_setLink, waitClock_clock]
  exact le_max_right ..

end Sys2Proof.Machine

namespace Sys2Proof.Machine
open Sys2Proof.Laws

/-! ### LINK_UP and the end of a training attempt (R234, R242) -/

section
variable (s : State) {d p : Nat} (hp : p < 16)

theorem line_trainSets (n e q : Nat) : lineAt d p (trainSets s e q n) = lineAt d p s := by
  apply trainSets_inv (φ := lineAt d p) (hU := rfl) <;> exact fun _ _ => rfl

theorem line_waitClock (c : Nat) : lineAt d p (waitClock s c) = lineAt d p s := by
  apply waitClock_inv (φ := lineAt d p) (hU := rfl) <;> exact fun _ _ => rfl

theorem port_trainSets (n e q d p : Nat) : port (trainSets s e q n) d p = port s d p := by
  apply trainSets_inv (φ := (port · d p)) (hU := rfl) <;> exact fun _ _ => rfl

theorem regs_trainSets (n e q : Nat) : (trainSets s e q n).regs = s.regs := by
  apply trainSets_inv (φ := State.regs) (hU := rfl) <;> exact fun _ _ => rfl

theorem part_trainSets (n e q : Nat) : (trainSets s e q n).part = s.part := by
  apply trainSets_inv (φ := State.part) (hU := rfl) <;> exact fun _ _ => rfl

/-- The state of a port whose link is up, before it may enter RUNNING. -/
def linkUpShown (s : State) (d p : Nat) : State :=
  let s1 := setLink (setPort (trainSets s d p 3) d p { port (trainSets s d p 3) d p with trained := (port (trainSets s d p 3) d p).rate }) d p 3
  let x := port s1 d p
  wb (setPort s1 d p { x with
    fseqNext := 0, giveRow := 0, attempts := 0, statusAt := (trainSets s d p 3).clock, wireFree := (trainSets s d p 3).clock
    upAt := (trainSets s d p 3).clock, lead := bindLead s1 d p }) (pgHp d p) Off.THM_VHEAD 16 false

theorem linkUp_eq : linkUp s d p = if pstate (linkUpShown s d p) (pgHp d p) = stStarting then portRunning (linkUpShown s d p) d p
    else linkUpShown s d p := rfl

theorem line_portRunning (d' p' : Nat) : lineAt d p (portRunning s d' p') = lineAt d p s := by
  unfold portRunning
  dsimp only
  rw [line_streamFollow, line_htrFollow]
  refine (line_setPort _ _ _ _ _ _ ?_).trans (line_wr ..)
  rfl

include hp

theorem linkUpShown_spec (hpres : present s (pgHp d p) = true) (hl : (port s d p).link ≠ 3) :
    (port (linkUpShown s d p) d p).link = 3 ∧ (port (linkUpShown s d p) d p).fseqNext = 0 ∧
    rf (linkUpShown s d p) (pgHp d p) Off.SY_STAT 0 3 = 3 ∧
    rf (linkUpShown s d p) (pgHp d p) Off.SY_STAT 4 2 = (port s d p).rate % 4 ∧
    rb (linkUpShown s d p) (pgHp d p) Off.EVT_LAT 12 = true ∧
    pstate (linkUpShown s d p) (pgHp d p) = pstate s (pgHp d p) := by
  unfold linkUpShown
  dsimp only
  have hport : port (setPort (trainSets s d p 3) d p { port (trainSets s d p 3) d p with trained := (port (trainSets s d p 3) d p).rate }) d p =
      { port s d p with trained := (port s d p).rate } := by
    rw [port_setPort, port_trainSets]
  have hregs : (setPort (trainSets s d p 3) d p { port (trainSets s d p 3) d p with trained := (port (trainSets s d p 3) d p).rate }).regs =
      s.regs := regs_trainSets ..
  have hpart : (setPort (trainSets s d p 3) d p { port (trainSets s d p 3) d p with trained := (port (trainSets s d p 3) d p).rate }).part =
      s.part := part_trainSets ..
  generalize setPort (trainSets s d p 3) d p { port (trainSets s d p 3) d p with trained := (port (trainSets s d p 3) d p).rate } = u
    at hport hregs hpart
  have hlink : (port (setLink u d p 3) d p).link = 3 := line_link (line_setLink ..)
  obtain ⟨hst, hrate, -⟩ := stat_setLink u hp 3
  obtain ⟨-, hevt⟩ := evt_setLink u hp 3 ((present_congr hpart _).trans hpres)
  have hps : rd (setLink u d p 3) (pgHp d p) Off.PAGE_STAT = rd s (pgHp d p) Off.PAGE_STAT :=
    (rd_setLink_off u hp 3 (by decide) (by decide)).trans (rd_of_regs hregs _ _)
  rw [hport] at hrate hevt
  generalize setLink u d p 3 = v at hlink hst hrate hevt hps
  refine ⟨?_, ?_, ?_, ?_, ?_, ?_⟩
  · rw [wb, port_wr, port_setPort]
    exact hlink
  · rw [wb, port_wr, port_setPort]
  · exact (congrArg (fld · 0 3) (rd_wr_off _ _ _ _ _ _ (by decide))).trans hst
  · exact (congrArg (fld · 4 2) (rd_wr_off _ _ _ _ _ _ (by decide))).trans hrate
  · exact (congrArg (bit · 12) (rd_wr_off _ _ _ _ _ _ (by decide))).trans (hevt hl rfl)
  · exact congrArg (fld · 0 3) ((rd_wr_off _ _ _ _ _ _ (by decide)).trans hps)

omit hp in
theorem rb_htrFollow_mono (i : Nat) (h : rb s (pgHp d p) Off.EVT_LAT i = true) : rb (htrFollow s d p) (pgHp d p) Off.EVT_LAT i = true :=
  (htrFollow_steady (Steady.refl (F := []) s)).lats _ _ h

/-- LINK_UP. -/
theorem linkUp_spec (hpres : present s (pgHp d p) = true) (hl : (port s d p).link ≠ 3) :
    (port (linkUp s d p) d p).link = 3 ∧ rf (linkUp s d p) (pgHp d p) Off.SY_STAT 0 3 = 3 ∧
    rf (linkUp s d p) (pgHp d p) Off.SY_STAT 4 2 = (port s d p).rate % 4 ∧ rb (linkUp s d p) (pgHp d p) Off.EVT_LAT 12 = true ∧
    (port (linkUp s d p) d p).fseqNext = 0 ∧
    pstate (linkUp s d p) (pgHp d p) = if pstate s (pgHp d p) = stStarting then stRunning else pstate s (pgHp d p) := by
  obtain ⟨hlink, hseq, hst, hrate, hevt, hps⟩ := linkUpShown_spec s hp hpres hl
  rw [linkUp_eq]
  generalize linkUpShown s d p = u at hlink hseq hst hrate hevt hps
  rw [← hps]
  split
  · have hline : lineAt d p (portRunning u d p) = lineAt d p u := line_portRunning ..
    have hrd {o : Nat} (h1 : Off.HTR_DUTY ≠ o) (h2 : Off.EVT_DYN ≠ o) (h3 : o ≠ Off.EVT_LAT) :
        rd (portRunning u d p) (pgHp d p) o = rd (setPstate u (pgHp d p) stRunning) (pgHp d p) o :=
      (rd_of_regs (regs_streamFollow ..) _ _).trans (rd_htrFollow _ d p _ h1 h2 h3)
    have hoff {o : Nat} (h : Off.PAGE_STAT ≠ o) : rd (setPstate u (pgHp d p) stRunning) (pgHp d p) o = rd u (pgHp d p) o :=
      rd_wr_off _ _ _ _ _ _ h
    refine ⟨(line_link hline).trans hlink, ?_, ?_, ?_, (congrArg (fun y => y.2.2.2.2.2.2.1) hline).trans hseq, ?_⟩
    · exact (congrArg (fld · 0 3) ((hrd (by decide) (by decide) (by decide)).trans (hoff (by decide)))).trans hst
    · exact (congrArg (fld · 4 2) ((hrd (by decide) (by decide) (by decide)).trans (hoff (by decide)))).trans hrate
    · refine (congrArg (bit · 12) (rd_of_regs (regs_streamFollow ..) _ _)).trans (rb_htrFollow_mono _ _ ?_)
      exact (congrArg (bit · 12) (hoff (by decide))).trans hevt
    · exact (congrArg (fld · 0 3) (hrd (by decide) (by decide) (by decide))).trans (rf_wf_same _ _ _ _ _ _ (by decide))
  · exact ⟨hlink, hst, hrate, hevt, hseq, rfl⟩

/-! The end of an attempt -/

omit hp in
theorem line_attemptEnd (n : Nat) : lineAt d p (attemptEnd s d p n) = lineAt d p s :=
  (line_waitClock ..).trans (line_trainSets ..)

omit hp in
theorem clock_attemptEnd (n : Nat) : (port s d p).tryAt + 5000 ≤ (attemptEnd s d p n).clock := by
  unfold attemptEnd
  rw [waitClock_clock]
  refine le_trans ?_ (le_max_right ..)
  split
  · exact le_refl _
  · omega

theorem rd_attemptEnd (n o : Nat) : rd (attemptEnd s d p n) (pgHp d p) o = rd s (pgHp d p) o :=
  ((waitClock_keeps (hp_apart hp .timebase (by decide)) (.refl ..)).regs o).trans (rd_of_regs (regs_trainSets ..) _ _)

omit hp in
theorem part_attemptEnd (n : Nat) : (attemptEnd s d p n).part = s.part :=
  (waitClock_part ..).trans (part_trainSets ..)

end

/-! ### Frames that a port gives up (R235) -/

section
variable (s : State) {d p : Nat}

/-- A port without frames, before its cycles are lost. -/
def framesGone (s : State) (d p : Nat) : State :=
  linkStat (setPort s d p { port s d p with
    outst := [], queue := [], held := [], follow := [], stopFrames := [], wireFree := s.clock }) d p

theorem abandonFrames_eq : ∃ ks fs, abandonFrames s d p =
    each fs (each ks (framesGone s d p) fun s k => stallFollow s d k) fun s f => frameEnd s d p f false :=
  ⟨_, _, rfl⟩

theorem line_abandonFrames : lineAt d p (abandonFrames s d p) = lineOf { port s d p with outst := [] } := by
  obtain ⟨ks, fs, heq⟩ := abandonFrames_eq s (d := d) (p := p)
  rw [heq]
  refine each_pres (P := fun t => lineAt d p t = _) ?_ fun _ _ _ ht => (line_frameEnd ..).trans ht
  refine each_pres (P := fun t => lineAt d p t = _) ?_ fun _ _ _ ht => (line_stallFollow ..).trans ht
  rw [framesGone, linkStat, line_wr, lineAt, port_setPort]
  rfl

theorem rd_abandonFrames (hp : p < 16) {o : Nat} (hs : Off.SY_STAT ≠ o) (hw : Off.WF_STAT ≠ o) (hl : o ≠ Off.EVT_LAT) :
    rd (abandonFrames s d p) (pgHp d p) o = rd s (pgHp d p) o := by
  obtain ⟨ks, fs, heq⟩ := abandonFrames_eq s (d := d) (p := p)
  rw [heq]
  refine each_pres (P := fun t => rd t (pgHp d p) o = rd s (pgHp d p) o) ?_ fun _ _ _ ht => (hpReg_frameEnd hp hl hw _ _ _ _).trans ht
  refine each_pres (P := fun t => rd t (pgHp d p) o = rd s (pgHp d p) o) ?_ fun _ _ _ ht =>
    (rd_of_regs (regs_stallFollow ..) _ _).trans ht
  exact rd_linkStat_off _ _ _ hs

theorem part_abandonFrames : (abandonFrames s d p).part = s.part := by
  apply abandonFrames_inv (φ := State.part) (hU := rfl) <;> exact fun _ _ => rfl

/-- A port that takes the fence of a cause is fenced with its reason. -/
theorem stat_fencePageFor {q : Pg} (r : Nat) (l : Link) (h : takesFence s q = true) :
    rd (fencePageFor s q r l) q Off.PAGE_STAT = fencedWord (rd s q Off.PAGE_STAT) r := by
  unfold fencePageFor
  rw [if_pos h]
  exact (stat_logRecord ..).trans (stat_fenceQuiet_same _ _ _ h)

theorem reason_of_stat {t : State} {q : Pg} {r : Nat} {w : Word} (h : rd t q Off.PAGE_STAT = fencedWord w r) :
    pageReason t q = r % 256 := by
  rw [pageReason, rf, h, fencedWord]
  exact fld_setFld _ _ _ _ (by decide)

/-- A retraining that has failed, before the port is fenced. -/
def retrainFailed (s : State) (d p : Nat) : State :=
  abandonFrames (setPort (linkFail s d p (port s d p).retrainCause) d p
    { port (linkFail s d p (port s d p).retrainCause) d p with fault := none }) d p

theorem trainFailed_retrain (h : (port s d p).link = 4) : ∃ l, trainFailed s d p = fencePageFor (retrainFailed s d p) (pgHp d p) 0x0A l := by
  unfold trainFailed
  dsimp only
  rw [if_pos h]
  cases (port s d p).fault with
  | none => exact ⟨_, rfl⟩
  | some f => exact ⟨_, rfl⟩

theorem trainFailed_train (h : (port s d p).link ≠ 4) : trainFailed s d p = linkFail s d p 5 := if_neg h

theorem link_retrainFailed : (port (retrainFailed s d p) d p).link = 5 := by
  refine (line_link (line_abandonFrames ..)).trans ?_
  rw [port_setPort]
  exact link_linkFail ..

theorem part_linkFail (c : Nat) : (linkFail s d p c).part = s.part := by
  apply linkFail_inv (φ := State.part) (hU := rfl) <;> exact fun _ _ => rfl

theorem takesFence_retrainFailed (hp : p < 16) : takesFence (retrainFailed s d p) (pgHp d p) = takesFence s (pgHp d p) := by
  refine takesFence_congr ?_ ?_
  · refine (rd_abandonFrames _ hp (by decide) (by decide) (by decide)).trans ?_
    refine (rd_raise_off _ _ _ _ _ (by decide)).trans ?_
    exact (rd_setLink_off _ hp 5 (by decide) (by decide)).trans (rd_wf_off _ _ _ _ _ _ _ _ (by decide))
  · exact (part_abandonFrames ..).trans (part_linkFail ..)

/-- Training that has failed for good. -/
theorem trainFailed_spec (hp : p < 16) (hl : (port s d p).link = 2 ∨ (port s d p).link = 4) :
    (port (trainFailed s d p) d p).link = 5 ∧
    ((port s d p).link = 2 → rf (trainFailed s d p) (pgHp d p) Off.SY_STAT 12 4 = 5) ∧
    ((port s d p).link = 4 → takesFence s (pgHp d p) = true →
      fenced (trainFailed s d p) (pgHp d p) = true ∧ pageReason (trainFailed s d p) (pgHp d p) = 0x0A) := by
  obtain h2 | h4 := hl
  · have h4 : (port s d p).link ≠ 4 := by omega
    rw [trainFailed_train s h4]
    exact ⟨link_linkFail .., fun _ => (linkFail_spec s hp (by decide)).2.1, fun h => absurd h h4⟩
  · obtain ⟨l, heq⟩ := trainFailed_retrain s h4
    rw [heq]
    refine ⟨(line_link (line_fencePageFor ..)).trans (link_retrainFailed s), fun h => by omega, fun _ ht => ?_⟩
    have hstat := stat_fencePageFor (retrainFailed s d p) 0x0A l ((takesFence_retrainFailed s hp).trans ht)
    exact ⟨fenced_of_stat hstat, reason_of_stat hstat⟩

end

/-- TRAIN_ATTEMPT_TIMEOUT. -/
theorem trainAttemptTimeout_spec {s : State} {d p : Nat} (h : PortThere s d p)
    (hl : (port s d p).link = 2 ∨ (port s d p).link = 4) (n : Nat) :
    Completes (.trainAttemptTimeout d ⟨p, n⟩) s fun t => (port s d p).tryAt + 5000 ≤ t.clock ∧
      ((port s d p).attempts = 0 → (∀ off, rd t (pgHp d p) off = rd s (pgHp d p) off) ∧
        (port t d p).attempts = 1 ∧ (port t d p).rate = (port s d p).rate) ∧
      ((port s d p).attempts ≠ 0 → rateFloor s d p < (port s d p).rate →
        (port t d p).attempts = 0 ∧ (port t d p).rate + 1 = (port s d p).rate ∧ (port t d p).link = (port s d p).link) ∧
      ((port s d p).attempts ≠ 0 → (port s d p).rate ≤ rateFloor s d p →
        (port t d p).link = 5 ∧ ((port s d p).link = 2 → rf t (pgHp d p) Off.SY_STAT 12 4 = 5) ∧
        ((port s d p).link = 4 → takesFence s (pgHp d p) = true →
          fenced t (pgHp d p) = true ∧ pageReason t (pgHp d p) = 0x0A)) := by
  have hp : p < 16 := lt_of_lt_of_le h.2.1 (nPorts_le s)
  have hexec : exec (.trainAttemptTimeout d ⟨p, n⟩) s = .next (
      let s1 := attemptEnd s d p n
      let x := port s1 d p
      if x.attempts = 0 then setPort s1 d p { x with attempts := 1, tryAt := s1.clock }
      else if rateFloor s1 d p < x.rate then setPort s1 d p { x with attempts := 0, rate := x.rate - 1, tryAt := s1.clock }
      else trainFailed s1 d p) := by
    refine (if_pos ⟨h.1, h.2.1, hl⟩).trans ?_
    simp only [apply_ite Host.Outcome.next] <;> rfl
  refine .of hexec ?_
  have hline := line_attemptEnd s (d := d) (p := p) n
  have hclock := clock_attemptEnd s (d := d) (p := p) n
  have hrd (o : Nat) := rd_attemptEnd s (d := d) hp n o
  have hfloor : rateFloor (attemptEnd s d p n) d p = rateFloor s d p := by
    unfold rateFloor persOf rf
    rw [hrd]
  have htakes : takesFence (attemptEnd s d p n) (pgHp d p) = takesFence s (pgHp d p) :=
    takesFence_congr (hrd _) (part_attemptEnd ..)
  have hclk (t : State) : (trainFailed t d p).clock = t.clock := by
    apply trainFailed_inv (φ := State.clock) (hU := rfl) <;> exact fun _ _ => rfl
  have hlink : (port (attemptEnd s d p n) d p).link = (port s d p).link := line_link hline
  have hrate : (port (attemptEnd s d p n) d p).rate = (port s d p).rate := line_rate hline
  have hatt : (port (attemptEnd s d p n) d p).attempts = (port s d p).attempts := congrArg (fun y => y.2.2.2.1) hline
  dsimp only
  generalize attemptEnd s d p n = u at hclock hrd hfloor htakes hlink hrate hatt
  rw [← hlink, ← hrate, ← hatt, ← hfloor, ← htakes]
  rw [← hlink] at hl
  split
  · rename_i h0
    refine ⟨hclock, fun _ => ⟨hrd, ?_, ?_⟩, fun hn => absurd h0 hn, fun hn => absurd h0 hn⟩
    · rw [port_setPort]
    · rw [port_setPort]
  · split
    · rename_i h0 hf
      refine ⟨hclock, fun hz => absurd hz h0, fun _ _ => ⟨?_, ?_, ?_⟩, fun _ hn => absurd hf (Nat.not_lt.2 hn)⟩
      · rw [port_setPort]
      · rw [port_setPort]
        exact Nat.sub_add_cancel (Nat.one_le_of_lt hf)
      · rw [port_setPort]
    · rename_i h0 hf
      exact ⟨(hclk u).symm ▸ hclock, fun hz => absurd hz h0, fun _ hn => absurd hn hf, fun _ _ => trainFailed_spec u hp hl⟩

/-! ### Retraining and stale status (R235, R238) -/

theorem retrain_spec {s : State} {d p : Nat} (cause : Nat) (hp : p < 16) (hpres : present s (pgHp d p) = true)
    (hl : (port s d p).link = 3) :
    (port (retrain s d p cause) d p).link = 4 ∧ (port (retrain s d p cause) d p).retrainCause = cause ∧
    (port (retrain s d p cause) d p).outst = [] ∧ rb (retrain s d p cause) (pgHp d p) Off.EVT_LAT 13 = true ∧
    rd (retrain s d p cause) (pgHp d p) Off.CNT_RETRAIN = inc24 (rd s (pgHp d p) Off.CNT_RETRAIN) := by
  unfold retrain
  rw [if_neg (not_not.2 hl)]
  extract_lets s1 y
  have hs1 : (port s1 d p).link = 4 := line_link (line_setLink ..)
  have hevt : rb s1 (pgHp d p) Off.EVT_LAT 13 = true :=
    (evt_setLink (count s (pgHp d p) Off.CNT_RETRAIN) hp 4 hpres).1 ((congrArg PortSt.link (port_wr ..)).trans hl) (by decide)
  have hcnt : rd s1 (pgHp d p) Off.CNT_RETRAIN = inc24 (rd s (pgHp d p) Off.CNT_RETRAIN) :=
    (rd_setLink_off _ hp 4 (by decide) (by decide)).trans (rd_wr_same ..)
  have hline := line_abandonFrames (setPort s1 d p { y with attempts := 0, retrainCause := cause }) (d := d) (p := p)
  rw [port_setPort] at hline
  refine ⟨(line_link hline).trans hs1, congrArg (fun y => y.2.2.2.2.1) hline, congrArg (fun y => y.2.2.2.2.2.2.2.1) hline, ?_, ?_⟩
  · exact (abandonFrames_steady (Steady.refl (F := []) _)).lats _ _ hevt
  · exact (rd_abandonFrames _ hp (by decide) (by decide) (by decide)).trans hcnt

/-- The condition of an event follows what it is set to. -/
theorem rb_setDyn_dyn {s : State} {q : Pg} {i : Nat} (b : Bool) (h : present s q = true) (hi : i < 24) :
    rb (setDyn s q i b) q Off.EVT_DYN i = b := by
  have hset : rb (whenDo (rb s q Off.EVT_DYN i != b) s (wb · q Off.EVT_DYN i b)) q Off.EVT_DYN i = b := by
    rw [whenDo]
    split
    · exact rb_wb_same _ _ _ _ _ hi
    · rename_i hne
      simpa using hne
  unfold setDyn
  dsimp only
  rw [if_pos h]
  generalize whenDo (rb s q Off.EVT_DYN i != b) s (wb · q Off.EVT_DYN i b) = t at hset
  rw [whenDo]
  split
  · exact (congrArg (bit · i) (rd_raise_off _ _ _ _ _ (by decide))).trans hset
  · exact hset

/-- A field with a bit set is not 0. -/
theorem fld_ne_zero_of_bit {w : Word} {n i : Nat} (h : bit w i = true) (hi : i < n) : fld w 0 n ≠ 0 := by
  intro h0
  have ht := testBit_fld w 0 n i
  rw [h0, Nat.zero_testBit, decide_eq_true hi] at ht
  rw [bit] at h
  simp [h] at ht

/-- STATUS_STALE. -/
theorem headFault_spec {s : State} {d p : Nat} (hpres : present s (pgHp d p) = true) (h : rb s (pgHp d p) Off.SY_HEAD_STAT 4 = true) :
    (headFault s d p).clock = s.clock ∧ rb (headFault s d p) (pgHp d p) Off.SY_HEAD_STAT 4 = true ∧
    rb (headFault s d p) (pgHp d p) Off.EVT_DYN 20 = true := by
  refine ⟨?_, (congrArg (bit · 4) (rd_setDyn_off _ _ _ _ _ (by decide) (by decide))).trans h, ?_⟩
  · apply headFault_inv (φ := State.clock) (hU := rfl) <;> exact fun _ _ => rfl
  · refine (rb_setDyn_dyn _ hpres (by decide)).trans (decide_eq_true ?_)
    exact fld_ne_zero_of_bit h (by decide)

/-- Settles O29: a change of a link is one operation, and what the lost frames of a link do leaves the link's state and the
port's registers. -/
theorem linkLife : Obligations.LinkLife := by
  refine ⟨fun s d p h hl => linkDiscovery_spec h hl, fun s d p h hl hs he => discoveryRepeat_spec h hl hs he,
    fun s d p h hl => ⟨?_, fun n => trainAttemptTimeout_spec h hl n⟩, fun s d p h => ?_, fun s d p h hl => ?_⟩
  · refine .of (if_pos ⟨h.1, h.2.1, hl⟩) (linkUp_spec s (lt_of_lt_of_le h.2.1 (nPorts_le s)) h.2.2 ?_)
    omega
  · obtain ⟨hthere, hl, hm⟩ := h
    refine .of (if_pos ?_) (retrain_spec 6 (lt_of_lt_of_le hthere.2.1 (nPorts_le s)) hthere.2.2 hl)
    unfold lanesUp
    rw [decide_eq_true hthere.1, decide_eq_true hthere.2.1, decide_eq_true hl, decide_eq_true hm]
    rfl
  · have hexec : exec (.statusStale d p) s =
        .next (headFault (wb (waitClock s ((port s d p).statusAt + 1000000)) (pgHp d p) Off.SY_HEAD_STAT 4 true) d p) :=
      if_pos ⟨h.1, h.2.1, by omega, by omega⟩
    obtain ⟨hclock, hstale, hdyn⟩ := headFault_spec (s := wb (waitClock s ((port s d p).statusAt + 1000000)) (pgHp d p) Off.SY_HEAD_STAT 4 true)
      (d := d) (p := p) ((present_congr (waitClock_part ..) _).trans h.2.2) (rb_wb_same _ _ _ _ _ (by decide))
    refine .of hexec ⟨?_, hstale, hdyn⟩
    rw [hclock]
    exact (waitClock_clock s _).symm ▸ le_max_right ..

end Sys2Proof.Machine

namespace Sys2Proof.Machine
open Sys2Proof.Laws

/-! ### The readings of the THERMAL page that its scopes leave (R340 to R343) -/

/-- The readings that the warnings of a die leave: the work now, and the island temperatures. -/
def ThermalReading (o : Nat) : Prop := o = 0x054 ∨ (0x060 ≤ o ∧ o < 0x08C)

theorem thermal_apart {d : Nat} (k : Kind) (h : .thermal ≠ k) : k.Apart (pgThermal d) := Kind.apart .thermal k rfl h

theorem ThermalReading.ne_lat {o : Nat} (h : ThermalReading o) : o ≠ Off.EVT_LAT := by
  unfold ThermalReading at h
  simp
  omega

theorem ThermalReading.lt {o : Nat} (h : ThermalReading o) : 0x054 ≤ o ∧ o < 0x08C := by
  unfold ThermalReading at h
  omega

section
variable (s : State) {d o : Nat} (ho : ThermalReading o)

theorem reading_chuteRecord (d' c : Nat) (ws : List Word) : rd (chuteRecord s d' c ws) (pgThermal d) o = rd s (pgThermal d) o :=
  (chuteRecord_keeps (thermal_apart .chuteGlobal (by decide)) (thermal_apart .chute (by decide)) (.refl ..)).regs o

theorem reading_scopeRecord (e n : Nat) (x : Option Nat) (b : Nat) : rd (scopeRecord s e n x b) (pgThermal d) o = rd s (pgThermal d) o :=
  (scopeRecord_keeps (thermal_apart .chuteGlobal (by decide)) (thermal_apart .chute (by decide)) (.refl ..)).regs o

theorem reading_htrFollow (e p : Nat) : rd (htrFollow s e p) (pgThermal d) o = rd s (pgThermal d) o :=
  (htrFollow_keeps (thermal_apart .hp (by decide)) (.refl ..)).regs o

include ho

theorem reading_sensorFault (e w : Nat) (b : Bool) (t : Int) : rd (sensorFault s e w b t) (pgThermal d) o = rd s (pgThermal d) o := by
  unfold sensorFault
  exact (reading_chuteRecord ..).trans (rd_raise_off _ _ _ _ _ ho.ne_lat)

theorem reading_thStat (e : Nat) : rd (thStat s e) (pgThermal d) o = rd s (pgThermal d) o := by
  have hlt := ho.lt
  unfold thStat
  dsimp only
  have hbase : rd (wb (wf s (pgThermal e) Off.TH_STAT 2 2 (scope s e none).stage) (pgThermal e) Off.TH_STAT 6
      ((scope s e none).warned || (List.range (nPorts s)).any fun q => (scope s e (some q)).warned)) (pgThermal d) o =
      rd s (pgThermal d) o := by
    unfold ThermalReading at ho
    exact (rd_wr_off _ _ _ _ _ _ (by simp; omega)).trans (rd_wr_off _ _ _ _ _ _ (by simp; omega))
  refine each_pres (P := fun t => rd t (pgThermal d) o = rd s (pgThermal d) o) hbase fun t q _ ht => ?_
  have hne : thReg Off.TH_HEAD q ≠ o := by
    simp [thReg]
    omega
  exact ((rd_wr_off _ _ _ _ _ _ hne).trans (rd_wr_off _ _ _ _ _ _ hne)).trans ht

theorem reading_setScope (e : Nat) (x : Option Nat) (y : ScopeSt) : rd (setScope s e x y) (pgThermal d) o = rd s (pgThermal d) o :=
  (rd_of_regs rfl _ _).trans (reading_thStat _ ho e)

theorem reading_warn (e : Nat) (x : Option Nat) : rd (warn s e x) (pgThermal d) o = rd s (pgThermal d) o := by
  have hlt := ho.lt
  unfold warn
  dsimp only
  rw [reading_scopeRecord, count]
  have hcnt : Off.TH_WARN_CNT ≠ o := by
    unfold ThermalReading at ho
    simp
    omega
  rw [rd_wr_off _ _ _ _ _ _ hcnt]
  have hset := reading_setScope s (d := d) ho e x
    { warned := true, stage := 1, w0 := scopeWork s e x, graceAt := some (s.clock + graceTicks s e) }
  split
  · rw [rd_raise_off _ _ _ _ _ ho.ne_lat]
    refine (rd_wr_off _ _ _ _ _ _ ?_).trans hset
    unfold ThermalReading at ho
    simp
    omega
  · rw [reading_htrFollow, rd_raise_off _ _ _ _ _ ho.ne_lat]
    refine (rd_wr_off _ _ _ _ _ _ ?_).trans hset
    simp [thReg]
    omega

theorem reading_scopeUpdate (e : Nat) (x : Option Nat) : rd (scopeUpdate s e x) (pgThermal d) o = rd s (pgThermal d) o := by
  unfold scopeUpdate
  dsimp only
  split
  · rfl
  · split
    · split
      · exact reading_warn _ ho ..
      · rfl
    · split
      · exact reading_setScope _ ho ..
      · exact reading_setScope _ ho ..

theorem reading_publishHead (e p : Nat) : rd (publishHead s e p) (pgThermal d) o = rd s (pgThermal d) o := by
  have hlt := ho.lt
  have hne : thReg Off.TH_HEAD p ≠ o := by
    simp [thReg]
    omega
  unfold publishHead
  dsimp only
  split
  · rfl
  · exact (rd_wr_page _ _ _ _ _ _ (thermal_apart .hp (by decide) e p)).trans
      ((rd_wr_off _ _ _ _ _ _ hne).trans (rd_wr_off _ _ _ _ _ _ hne))

theorem reading_dieTemp (e : Nat) : rd (dieTemp s e) (pgThermal d) o = rd s (pgThermal d) o := by
  unfold dieTemp
  dsimp only
  split
  · rfl
  · refine rd_wr_off _ _ _ _ _ _ ?_
    unfold ThermalReading at ho
    simp
    omega

end

/-! ### The record of a scope -/

section
variable (s : State) (d : Nat)

theorem therm_setScope (o : Option Nat) (x : ScopeSt) : therm (setScope s d o x) d =
    match o with | none => { therm s d with die := x } | some p => { therm s d with ports := Tbl.put (therm s d).ports p x } := by
  unfold setScope
  dsimp only
  refine (thStat_inv (φ := (therm · d)) (fun _ _ => rfl) ?_ : therm (thStat _ d) d = _)
  exact therm_setTherm ..

theorem scope_setScope (o : Option Nat) (x : ScopeSt) : scope (setScope s d o x) d o = x := by
  unfold scope
  rw [therm_setScope]
  cases o with
  | none => rfl
  | some p => exact Tbl.get_put_same _ _ _ _

theorem updAt_setScope (o : Option Nat) (x : ScopeSt) : (therm (setScope s d o x) d).updAt = (therm s d).updAt := by
  rw [therm_setScope]
  cases o with
  | none => rfl
  | some p => rfl

theorem heads_setScope (o : Option Nat) (x : ScopeSt) : (therm (setScope s d o x) d).heads = (therm s d).heads := by
  rw [therm_setScope]
  cases o with
  | none => rfl
  | some p => rfl

end
end Sys2Proof.Machine

namespace Sys2Proof.Machine
open Sys2Proof.Laws

/-! ### TEMP_UPDATE (R340 to R343) -/

theorem present_pgThermal {s : State} {d : Nat} (h : d < s.part.dies) : present s (pgThermal d) = true := by
  simp [present, Part.present, pgThermal, ns, pgKind, nsKind, absent08, h]

section
variable (s : State) (d : Nat)

theorem therm_scopeRecord (e n : Nat) (x : Option Nat) (b : Nat) : therm (scopeRecord s e n x b) d = therm s d := by
  apply scopeRecord_inv (φ := (therm · d)) (hU := rfl) <;> exact fun _ _ => rfl

theorem therm_sensorFault (e w : Nat) (b : Bool) (x : Int) : therm (sensorFault s e w b x) d = therm s d := by
  apply sensorFault_inv (φ := (therm · d)) (hU := rfl) <;> exact fun _ _ => rfl

theorem therm_htrFollow (e p : Nat) : therm (htrFollow s e p) d = therm s d := by
  apply htrFollow_inv (φ := (therm · d)) (hU := rfl) <;> exact fun _ _ => rfl

theorem therm_raise (p : Pg) (i : Nat) : therm (raise s p i) d = therm s d := by
  apply raise_inv (φ := (therm · d)) (hU := rfl) <;> exact fun _ _ => rfl

theorem therm_warn (o : Option Nat) : therm (warn s d o) d =
    therm (setScope s d o { warned := true, stage := 1, w0 := scopeWork s d o, graceAt := some (s.clock + graceTicks s d) }) d := by
  unfold warn
  dsimp only
  rw [therm_scopeRecord, count, therm_wr]
  split
  · rw [therm_raise, therm_wr]
  · rw [therm_htrFollow, therm_raise, therm_wr]

theorem updAt_scopeUpdate (o : Option Nat) : (therm (scopeUpdate s d o) d).updAt = (therm s d).updAt := by
  unfold scopeUpdate
  dsimp only
  split
  · rfl
  · split
    · split
      · rw [therm_warn]
        exact updAt_setScope ..
      · rfl
    · split
      · exact updAt_setScope ..
      · exact updAt_setScope ..

theorem updAt_islReading (i : Nat) (x : Int) : (therm (islReading s d i x) d).updAt = (therm s d).updAt := by
  unfold islReading
  dsimp only
  split
  · split
    · rfl
    · rw [therm_sensorFault, therm_setTherm]
  · rw [therm_setTherm]

theorem islReading_other {i j : Nat} (x : Int) (hi : i < 11) (hij : j ≠ i) :
    rd (islReading s d j x) (pgThermal d) (Off.TH_ISL + 4 * i) = rd s (pgThermal d) (Off.TH_ISL + 4 * i) := by
  have hr : ThermalReading (Off.TH_ISL + 4 * i) := .inr (by simp; omega)
  have hne : Off.TH_ISL + 4 * j ≠ Off.TH_ISL + 4 * i := by omega
  unfold islReading
  dsimp only
  split
  · split
    · exact rd_wr_off _ _ _ _ _ _ hne
    · exact (reading_sensorFault _ hr ..).trans (rd_wr_off _ _ _ _ _ _ hne)
  · exact rd_wr_off _ _ _ _ _ _ hne

theorem islReading_same (i : Nat) {x : Int} (h1 : -3840 ≤ x) (h2 : x ≤ 9600) :
    rd (islReading s d i x) (pgThermal d) (Off.TH_ISL + 4 * i) = word (2 ^ 16 + uns 16 x) := by
  unfold islReading
  dsimp only
  rw [if_neg (by omega)]
  exact rd_wr_same ..

/-- The readings of the islands, each at its own register. -/
theorem islReadings_at {isl : List Int} {i : Nat} (hi : i < 11) {x : Int} (hx : isl[i]? = some x) (h1 : -3840 ≤ x) (h2 : x ≤ 9600) :
    rd (each ((isl.take 11).zipIdx) s fun s e => islReading s d e.2 e.1) (pgThermal d) (Off.TH_ISL + 4 * i) = word (2 ^ 16 + uns 16 x) := by
  refine each_at_key (Q := fun t => rd t (pgThermal d) (Off.TH_ISL + 4 * i) = word (2 ^ 16 + uns 16 x)) s (x := (x, i)) ?_ ?_
    (fun t => islReading_same t d i h1 h2) fun t y hy ht => (islReading_other t d y.1 hi hy).trans ht
  · rw [List.mem_zipIdx_iff_getElem?]
    simp [hi, hx]
  · rw [List.zipIdx_map_snd]
    exact List.nodup_range'

theorem clock_tempUpdate (isl : List Int) (power : Nat) : (tempUpdate s d isl power).clock = s.clock := by
  apply tempUpdate_inv (φ := State.clock) (hU := rfl) <;> exact fun _ _ => rfl

/-- The part of the update that follows the readings of the islands. -/
def tempScopes (ports : Nat) (s : State) (d power : Nat) : State :=
  let s3 := wr s (pgThermal d) Off.TH_WORK_NOW (word (min power 0xFFFFFF))
  let s4 := each (List.range ports) s3 fun s p => wr (publishHead s d p) (pgThermal d) (thReg Off.TH_HEAD_WORK p) (word (portWork s d p))
  let s5 := scopeUpdate (thStat s4 d) d none
  each (List.range ports) s5 fun s p => htrFollow (scopeUpdate s d (some p)) d p

/-- The islands of a die, read. -/
def islandsRead (s : State) (d : Nat) (isl : List Int) : State :=
  each ((isl.take 11).zipIdx) (setTherm s d { therm s d with updAt := some s.clock }) fun s e => islReading s d e.2 e.1

theorem tempScopes_reading (n power : Nat) {o : Nat} (ho : ThermalReading o) :
    rd (tempScopes n s d power) (pgThermal d) o =
      if o = Off.TH_WORK_NOW then word (min power 0xFFFFFF) else rd s (pgThermal d) o := by
  have hlt := ho.lt
  unfold tempScopes
  dsimp only
  have hkeep {t : State} (l : List Nat) : rd (each l t fun s p => htrFollow (scopeUpdate s d (some p)) d p) (pgThermal d) o =
      rd t (pgThermal d) o :=
    each_pres (P := fun u => rd u (pgThermal d) o = rd t (pgThermal d) o) rfl fun u p _ hu => by
      rw [reading_htrFollow, reading_scopeUpdate _ ho, hu]
  have hheads {t : State} (l : List Nat) : rd (each l t fun s p =>
      wr (publishHead s d p) (pgThermal d) (thReg Off.TH_HEAD_WORK p) (word (portWork s d p))) (pgThermal d) o = rd t (pgThermal d) o :=
    each_pres (P := fun u => rd u (pgThermal d) o = rd t (pgThermal d) o) rfl fun u p _ hu => by
      rw [rd_wr_off _ _ _ _ _ _ (by simp [thReg]; omega), reading_publishHead _ ho, hu]
  rw [hkeep, reading_scopeUpdate _ ho, reading_thStat _ ho, hheads]
  split
  · subst o
    exact rd_wr_same ..
  · rename_i h
    exact rd_wr_off _ _ _ _ _ _ (Ne.symm h)

theorem updAt_tempScopes (n power : Nat) : (therm (tempScopes n s d power) d).updAt = (therm s d).updAt := by
  unfold tempScopes
  dsimp only
  refine each_pres (P := fun u => (therm u d).updAt = (therm s d).updAt) ?_ fun u p _ hu => ?_
  · rw [updAt_scopeUpdate]
    refine (congrArg ThermSt.updAt (thStat_inv (φ := (therm · d)) (fun _ _ => rfl) rfl)).trans ?_
    refine each_pres (P := fun u => (therm u d).updAt = (therm s d).updAt) rfl fun u p _ hu => ?_
    rw [therm_wr]
    refine (congrArg ThermSt.updAt (publishHead_inv (φ := (therm · d)) (fun _ _ => rfl) (fun _ _ => rfl) rfl)).trans hu
  · rw [therm_htrFollow, updAt_scopeUpdate]
    exact hu

theorem tempUpdate_tail (t : State) : (lampTemp (asTempUpdate t d) d).regs = t.regs ∧
    therm (lampTemp (asTempUpdate t d) d) d = therm t d :=
  ⟨asTempUpdate_inv (φ := State.regs) (fun _ _ => rfl) rfl, asTempUpdate_inv (φ := (therm · d)) (fun _ _ => rfl) rfl⟩

/-- The 10 ms update of a die. -/
theorem tempUpdate_spec (isl : List Int) (power : Nat) :
    (therm (tempUpdate s d isl power) d).updAt = some s.clock ∧
    rd (tempUpdate s d isl power) (pgThermal d) Off.TH_WORK_NOW = word (min power 0xFFFFFF) ∧
    ∀ i < 11, ∀ x, isl[i]? = some x → -3840 ≤ x → x ≤ 9600 →
      rd (tempUpdate s d isl power) (pgThermal d) (Off.TH_ISL + 4 * i) = word (2 ^ 16 + uns 16 x) := by
  obtain ⟨hregs, htherm⟩ := tempUpdate_tail d (tempScopes (nPorts s) (dieTemp (islandsRead s d isl) d) d power)
  have heq : tempUpdate s d isl power = lampTemp (asTempUpdate (tempScopes (nPorts s) (dieTemp (islandsRead s d isl) d) d power) d) d := by
    unfold tempUpdate tempScopes islandsRead
    dsimp only
  rw [heq, htherm]
  refine ⟨?_, ?_, fun i hi x hx h1 h2 => ?_⟩
  · rw [updAt_tempScopes]
    refine (congrArg ThermSt.updAt (dieTemp_inv (φ := (therm · d)) (fun _ _ => rfl) rfl)).trans ?_
    refine each_pres (P := fun u => (therm u d).updAt = some s.clock) ?_ fun u e _ hu => (updAt_islReading ..).trans hu
    rw [therm_setTherm]
  · exact (rd_of_regs hregs _ _).trans ((tempScopes_reading _ d _ power (.inl rfl)).trans (if_pos rfl))
  · have hr : ThermalReading (Off.TH_ISL + 4 * i) := .inr (by simp; omega)
    refine (rd_of_regs hregs _ _).trans ((tempScopes_reading _ d _ power hr).trans ((if_neg (by simp; omega)).trans ?_))
    rw [reading_dieTemp _ hr]
    exact islReadings_at _ d hi hx h1 h2

end

/-- TEMP_UPDATE comes 10 ms after the last one at the earliest. -/
def updateTime (s : State) (d : Nat) : State :=
  match (therm s d).updAt with
  | none => s
  | some c => waitClock s (c + 2500000)

theorem exec_tempUpdate {s : State} {d power : Nat} {isl : List Int} (hd : d < s.part.dies) (hm : 2 ≤ modeOf s d) :
    exec (.tempUpdate d isl power) s = .next (tempUpdate (updateTime s d) d isl power) :=
  congrArg Host.Outcome.next (if_pos ⟨hd, hm⟩)

theorem clock_updateTime {s : State} {d c : Nat} (h : (therm s d).updAt = some c) : c + 2500000 ≤ (updateTime s d).clock := by
  unfold updateTime
  rw [h]
  exact (waitClock_clock ..).symm ▸ le_max_right ..

/-! ### THERMISTOR_SAMPLE (R341) -/

/-- A reading outside the range of the thermistor. -/
theorem thermistor_bad (s : State) (d p : Nat) {ohm : Nat} (h : ohm < 100 ∨ 1000000 < ohm) :
    headValid (thermistor s d p ohm) d p = false ∧
    rf (thermistor s d p ohm) (pgThermal d) (thReg Off.TH_HEAD p) 18 2 = (if ohm < 100 then 2 else 1) := by
  have hl : thReg Off.TH_HEAD p ≠ Off.EVT_LAT := by
    simp [thReg]
    omega
  have hsf (t : State) (w : Nat) (b : Bool) (x : Int) : rd (sensorFault t d w b x) (pgThermal d) (thReg Off.TH_HEAD p) =
      rd t (pgThermal d) (thReg Off.TH_HEAD p) := by
    unfold sensorFault
    exact (reading_chuteRecord ..).trans (rd_raise_off _ _ _ _ _ hl)
  have hwhen (c : Bool) (t : State) (x : Int) : rd (whenDo c t fun s => sensorFault s d p false x) (pgThermal d) (thReg Off.TH_HEAD p) =
      rd t (pgThermal d) (thReg Off.TH_HEAD p) := by
    rw [whenDo]
    split
    · exact hsf ..
    · rfl
  unfold thermistor
  dsimp only
  rw [if_pos h.symm]
  unfold headValid rb rf
  simp only [reading_htrFollow, hwhen]
  have hpage (u : State) : rd (wb u (pgHp d p) Off.WF_TEMP 16 true) (pgThermal d) (thReg Off.TH_HEAD p) =
      rd u (pgThermal d) (thReg Off.TH_HEAD p) := rd_wr_page _ _ _ _ _ _ (thermal_apart .hp (by decide) d p)
  rw [hpage]
  refine ⟨rb_wb_same _ _ _ _ _ (by decide), (rf_wb_apart _ _ _ _ _ _ _ (by decide)).trans ((rf_wf_same _ _ _ _ _ _ (by decide)).trans ?_)⟩
  split <;> rfl

/-- A reading inside it. -/
theorem thermistor_good (s : State) (d p : Nat) {ohm : Nat} (h1 : 100 ≤ ohm) (h2 : ohm ≤ 1000000) :
    rf (thermistor s d p ohm) (pgThermal d) (thReg Off.TH_HEAD p) 18 2 = 0 ∧
    (Tbl.get (therm (thermistor s d p ohm) d).heads p {}).good = true := by
  unfold thermistor
  dsimp only
  rw [if_neg (by omega)]
  refine ⟨rf_wf_same _ _ _ _ _ _ (by decide), ?_⟩
  rw [wf, therm_wr, therm_setTherm]
  exact congrArg HeadTh.good (Tbl.get_put_same _ _ _ _)

end Sys2Proof.Machine

namespace Sys2Proof.Machine
open Sys2Proof.Laws

/-! ### GRACE_EXPIRY and WARN_CLEAR (R342, R345, R347) -/

section
variable (s : State) (d : Nat)

theorem scope_of_therm {s t : State} {d : Nat} (h : therm t d = therm s d) (o : Option Nat) : scope t d o = scope s d o := by
  unfold scope
  rw [h]

theorem clock_setScope (o : Option Nat) (x : ScopeSt) : (setScope s d o x).clock = s.clock := by
  apply setScope_inv (φ := State.clock) (hU := rfl) <;> exact fun _ _ => rfl

theorem part_setScope (o : Option Nat) (x : ScopeSt) : (setScope s d o x).part = s.part := by
  apply setScope_inv (φ := State.part) (hU := rfl) <;> exact fun _ _ => rfl

theorem therm_thermAct (k : Nat) : therm (thermAct s d k) d = therm s d := by
  apply thermAct_inv (φ := (therm · d)) (hU := rfl) <;> exact fun _ _ => rfl

theorem part_thermAct (k : Nat) : (thermAct s d k).part = s.part := by
  apply thermAct_inv (φ := State.part) (hU := rfl) <;> exact fun _ _ => rfl

theorem rd_thermAct (k o : Nat) : rd (thermAct s d k) (pgThermal d) o = rd s (pgThermal d) o :=
  (thermAct_keeps (thermal_apart .fence (by decide)) (thermal_apart .chuteGlobal (by decide)) (thermal_apart .seam (by decide))
    (thermal_apart .echo (by decide)) (thermal_apart .ctxCtrl (by decide)) (thermal_apart .chute (by decide)) (.refl ..)).regs o

theorem therm_throttleNote (o : Option Nat) (b : Bool) : therm (throttleNote s d o b) d = therm s d := by
  apply throttleNote_inv (φ := (therm · d)) (hU := rfl) <;> exact fun _ _ => rfl

theorem rd_throttleNote (o : Option Nat) (b : Bool) (k : Nat) : rd (throttleNote s d o b) (pgThermal d) k = rd s (pgThermal d) k :=
  (throttleNote_keeps (fun e b => thermal_apart .mbox (by decide) e b) (.refl ..)).regs k

/-- A register of the page that no scope writes. -/
theorem rd_thStat_off {k : Nat} (hs : Off.TH_STAT ≠ k) (hh : ∀ q, thReg Off.TH_HEAD q ≠ k) :
    rd (thStat s d) (pgThermal d) k = rd s (pgThermal d) k := by
  unfold thStat
  dsimp only
  refine each_pres (P := fun t => rd t (pgThermal d) k = rd s (pgThermal d) k) ?_ fun t q _ ht => ?_
  · exact (rd_wr_off _ _ _ _ _ _ hs).trans (rd_wr_off _ _ _ _ _ _ hs)
  · exact ((rd_wr_off _ _ _ _ _ _ (hh q)).trans (rd_wr_off _ _ _ _ _ _ (hh q))).trans ht

theorem rd_setScope_cnt (o : Option Nat) (x : ScopeSt) :
    rd (setScope s d o x) (pgThermal d) Off.TH_ENF_CNT = rd s (pgThermal d) Off.TH_ENF_CNT := by
  refine (rd_of_regs rfl _ _).trans (rd_thStat_off _ d (by decide) fun q => ?_)
  simp [thReg]
  omega

/-- Enforcement in a scope. -/
theorem enforceCtxs_spec (o : Option Nat) (bits : Nat) (hp : present s (pgThermal d) = true) :
    (scope (enforceCtxs s d o bits) d o).stage = 3 ∧ (scope (enforceCtxs s d o bits) d o).graceAt = none ∧
    rb (enforceCtxs s d o bits) (pgThermal d) Off.EVT_LAT 1 = true ∧
    rd (enforceCtxs s d o bits) (pgThermal d) Off.TH_ENF_CNT = inc24 (rd s (pgThermal d) Off.TH_ENF_CNT) := by
  unfold enforceCtxs
  extract_lets y s1 s2 s3
  have hs2 : therm s2 d = therm s1 d ∧ s2.part = s.part ∧ rd s2 (pgThermal d) Off.TH_ENF_CNT = rd s (pgThermal d) Off.TH_ENF_CNT := by
    refine each_pres (P := fun t => therm t d = therm s1 d ∧ t.part = s.part ∧
      rd t (pgThermal d) Off.TH_ENF_CNT = rd s (pgThermal d) Off.TH_ENF_CNT) ⟨rfl, part_setScope .., rd_setScope_cnt ..⟩ fun t k _ ht => ?_
    rw [therm_thermAct, part_thermAct, rd_thermAct]
    exact ht
  obtain ⟨hth, hpart, hcnt⟩ := hs2
  have hth3 : therm s3 d = therm s1 d := (therm_raise ..).trans ((therm_wr ..).trans hth)
  have hscope : scope (throttleNote (scopeRecord s3 d 2 o (bits + 2)) d o true) d o = { y with stage := 3, graceAt := none } :=
    (scope_of_therm ((therm_throttleNote ..).trans ((therm_scopeRecord ..).trans hth3)) o).trans (scope_setScope ..)
  rw [hscope]
  refine ⟨rfl, rfl, ?_, ?_⟩
  · rw [rb, rd_throttleNote, reading_scopeRecord]
    exact rb_raise_same _ _ _ ((present_congr hpart _).trans hp) (by decide)
  · rw [rd_throttleNote, reading_scopeRecord, rd_raise_off _ _ _ _ _ (by decide), count, rd_wr_same, hcnt]

/-- A step of the echo coverage in the scope of a die. -/
theorem echoStep_spec (off : Bool) (hp : present s (pgThermal d) = true) :
    (scope (echoStep s d off) d none).stage = 2 ∧
    (scope (echoStep s d off) d none).graceAt = some ((echoStep s d off).clock + graceTicks s d) ∧
    rb (echoStep s d off) (pgThermal d) Off.EVT_LAT 1 = true := by
  have hclock : (echoStep s d off).clock = s.clock := by
    apply echoStep_inv (φ := State.clock) (hU := rfl) <;> exact fun _ _ => rfl
  rw [hclock]
  unfold echoStep
  extract_lets p s1 y s2
  have hscope : scope (throttleNote (scopeRecord (raise s2 (pgThermal d) 1) d 2 none (if off then 4 else 1)) d none true) d none =
      { y with stage := 2, graceAt := some (s.clock + graceTicks s d) } :=
    (scope_of_therm ((therm_throttleNote ..).trans ((therm_scopeRecord ..).trans (therm_raise ..))) none).trans (scope_setScope ..)
  have hpart : s2.part = s.part := by
    refine (part_setScope ..).trans ?_
    unfold s1
    split <;> rfl
  rw [hscope]
  refine ⟨rfl, rfl, ?_⟩
  rw [rb, rd_throttleNote, reading_scopeRecord]
  exact rb_raise_same _ _ _ ((present_congr hpart _).trans hp) (by decide)

/-- A scope that clears. -/
theorem scopeClear_spec (o : Option Nat) : (scope (scopeClear s d o) d o).warned = false ∧ (scope (scopeClear s d o) d o).stage = 0 ∧
    (scopeClear s d o).clock = s.clock := by
  have hclock : (scopeClear s d o).clock = s.clock := by
    apply scopeClear_inv (φ := State.clock) (hU := rfl) <;> exact fun _ _ => rfl
  have hun (t : State) : therm (thermUnact t d) d = therm t d := thermUnact_inv (φ := (therm · d)) (fun _ _ => rfl) rfl
  have hscope : scope (scopeClear s d o) d o = { w0 := (scope s d o).w0 } := by
    unfold scopeClear
    extract_lets enf s0 s1
    have h1 : scope s1 d o = { w0 := (scope s d o).w0 } := (scope_of_therm (hun _) o).trans (scope_setScope ..)
    cases o with
    | none =>
      have hth : therm (whenDo (is16E s) s1 fun s => wb (wf s (pgEcho d) Off.ECHO_DIV 4 2 0) (pgEcho d) Off.ECHO_DIV 7 false) d = therm s1 d := by
        rw [whenDo]
        split
        · exact (therm_wr ..).trans (therm_wr ..)
        · rfl
      exact (scope_of_therm hth none).trans h1
    | some p => exact (scope_of_therm (therm_htrFollow ..) (some p)).trans h1
  rw [hscope]
  exact ⟨rfl, rfl, hclock⟩

end

section
variable {s : State} {d : Nat} {o : Option Nat} {c : Nat} (hd : d < s.part.dies) (hr : running s (pgThermal d) = true)
include hd hr

theorem exec_graceExpiry (hf : fwRuns s d = true) (ha : awake s d = true) (hg : (scope s d o).graceAt = some c) (hc : c ≤ s.clock) :
    exec (.graceExpiry d o) s = .next (graceExpiry s d o) := by
  have hw : waitClock s c = s := if_pos hc
  refine congrArg Host.Outcome.next ?_
  rw [if_pos (by rw [decide_eq_true hd, hr, hf, ha]; rfl), hg]
  exact congrArg (graceExpiry · d o) hw

theorem graceExpiry_spec (hf : fwRuns s d = true) (ha : awake s d = true) (hg : (scope s d o).graceAt = some c) (hc : c ≤ s.clock) :
    (workFallen s d o = true → Completes (.graceExpiry d o) s fun t => scope t d o = { scope s d o with graceAt := none }) ∧
    (workFallen s d o = false → (o ≠ none ∨ echoEff s d = 0) → Completes (.graceExpiry d o) s fun t => (scope t d o).stage = 3 ∧
      (scope t d o).graceAt = none ∧ rb t (pgThermal d) Off.EVT_LAT 1 = true ∧
      rd t (pgThermal d) Off.TH_ENF_CNT = inc24 (rd s (pgThermal d) Off.TH_ENF_CNT)) ∧
    (workFallen s d o = false → o = none → echoEff s d ≠ 0 → Completes (.graceExpiry d o) s fun t => (scope t d o).stage = 2 ∧
      (scope t d o).graceAt = some (t.clock + graceTicks s d) ∧ rb t (pgThermal d) Off.EVT_LAT 1 = true) := by
  have hexec := exec_graceExpiry hd hr hf ha hg hc
  have hp := present_pgThermal hd
  refine ⟨fun hw => .of hexec ?_, fun hw ho => .of hexec ?_, fun hw ho he => .of hexec ?_⟩
  · have heq : graceExpiry s d o = setScope s d o { scope s d o with graceAt := none } := if_pos hw
    rw [heq]
    exact scope_setScope ..
  · have heq : graceExpiry s d o = enforceCtxs s d o 0 := by
      refine (if_neg (by rw [hw]; simp)).trans ?_
      cases o with
      | none => exact if_pos (ho.resolve_left fun h => h rfl)
      | some p => rfl
    rw [heq]
    exact enforceCtxs_spec s d o 0 hp
  · subst ho
    have heq : graceExpiry s d none = echoStep s d (decide (rf s (pgEcho d) Off.ECHO_DIV 4 2 = 1)) := by
      refine (if_neg (by rw [hw]; simp)).trans ?_
      exact if_neg he
    rw [heq]
    exact echoStep_spec s d _ hp

omit hr in
theorem warnClear_spec (hr : running s (pgThermal d) = true) (hw : (scope s d o).warned = true) (hb : (scope s d o).belowAt = some c) :
    Completes (.warnClear d o) s fun t => (scope t d o).warned = false ∧
      (scope t d o).stage = 0 ∧ c + max 1 (rf s (pgThermal d) Off.TH_CFG 0 4) * 25000000 ≤ t.clock := by
  have hexec : exec (.warnClear d o) s =
      .next (scopeClear (waitClock s (c + max 1 (rf s (pgThermal d) Off.TH_CFG 0 4) * 25000000)) d o) := by
    refine congrArg Host.Outcome.next ?_
    rw [if_pos (by rw [decide_eq_true hd, hr, hw]; rfl), hb]
  refine .of hexec ?_
  generalize c + max 1 (rf s (pgThermal d) Off.TH_CFG 0 4) * 25000000 = n
  obtain ⟨h1, h2, h3⟩ := scopeClear_spec (waitClock s n) d o
  refine ⟨h1, h2, ?_⟩
  rw [h3, waitClock_clock]
  exact le_max_right ..

end

/-- Settles O42: each reading of an island goes to its own register, and the record of a scope is what its last change set. -/
theorem thermalScopes : Obligations.ThermalScopes := by
  refine ⟨fun s d power isl hd hm => ?_, fun s d p ohm hd hp ha hs => ⟨fun h => ?_, fun h1 h2 => ?_⟩,
    fun s d o hd hr hf ha c hg hc => graceExpiry_spec hd hr hf ha hg hc, fun s d o hd hr hw c hb => warnClear_spec hd hr hw hb⟩
  · refine .of (exec_tempUpdate hd hm) ?_
    obtain ⟨hupd, hwork, hisl⟩ := tempUpdate_spec (updateTime s d) d isl power
    rw [clock_tempUpdate]
    exact ⟨hupd, hwork, fun c hc => clock_updateTime hc, hisl⟩
  · exact .of (congrArg Host.Outcome.next (if_pos ⟨hd, hp, ha, hs⟩)) (thermistor_bad s d p h)
  · exact .of (congrArg Host.Outcome.next (if_pos ⟨hd, hp, ha, hs⟩)) (thermistor_good s d p h1 h2)

end Sys2Proof.Machine

namespace Sys2Proof.Machine
open Sys2Proof.Laws

/-! ### What a fence leaves of an axis (R268, R406) -/

theorem ax_apart {d a : Nat} (ha : a < 4) (k : Kind) (h : .ax ≠ k) : k.Apart (pgAx d a) :=
  Kind.apart .ax k (pgKind_pgAx d ha) h

theorem kindFenceable_ax : Kind.ax.fenceable = true := rfl

section
variable (s : State) {d a : Nat} (ha : a < 4)

theorem axis_logRecord (e cd : Nat) (x : Rec) : axis (logRecord s e cd x) d a = axis s d a := by
  apply logRecord_inv (φ := fun s => axis s d a) (hU := rfl) <;> exact fun _ _ => rfl

theorem axis_axisLost (e c : Nat) : axis (axisLost s e c) d a = axis s d a := by
  apply axisLost_inv (φ := fun s => axis s d a) (hU := rfl) <;> exact fun _ _ => rfl

theorem clock_fencePage (p : Pg) (r : Nat) : (fencePage s p r).clock = s.clock := by
  apply fencePage_inv (φ := State.clock) (hU := rfl) <;> exact fun _ _ => rfl

include ha

theorem axReg_axisLost (e c o : Nat) : rd (axisLost s e c) (pgAx d a) o = rd s (pgAx d a) o :=
  (axisLost_keeps (ax_apart ha .enc (by decide)) (.refl ..)).regs o

theorem axReg_logRecord (e cd : Nat) (x : Rec) (o : Nat) : rd (logRecord s e cd x) (pgAx d a) o = rd s (pgAx d a) o :=
  (logRecord_keeps (ax_apart ha .fence (by decide)) (ax_apart ha .chuteGlobal (by decide)) (ax_apart ha .chute (by decide)) (.refl ..)).regs o

omit ha in
theorem axReg_setMstate (m : Nat) {o : Nat} (ho : Off.AX_STAT ≠ o) : rd (setMstate s d a m) (pgAx d a) o = rd s (pgAx d a) o := by
  unfold setMstate
  dsimp only
  split
  · exact rd_wr_off _ _ _ _ _ _ ho
  · exact (rd_wr_off _ _ _ _ _ _ ho).trans (rd_wr_off _ _ _ _ _ _ ho)

/-- The safe state of an axis changes only its status among the registers of its page. -/
theorem axReg_axSafe (r : Nat) {o : Nat} (ho : Off.AX_STAT ≠ o) : rd (axSafe s d a r) (pgAx d a) o = rd s (pgAx d a) o := by
  unfold axSafe
  extract_lets coast moving x y s1 s2
  have h1 : rd s1 (pgAx d a) o = rd s (pgAx d a) o := axReg_setMstate _ _ ho
  refine (axReg_axisLost _ ha _ _ _).trans ?_
  unfold s2
  split
  · exact (rd_wr_off _ _ _ _ _ _ ho).trans h1
  · exact h1

omit ha in
/-- It leaves the time of the current loop and the switch inputs, and for the faults of the bridges it disables them. -/
theorem axis_axSafe (r : Nat) : (axis (axSafe s d a r) d a).loopAt = (axis s d a).loopAt ∧
    (axis (axSafe s d a r) d a).sw = (axis s d a).sw ∧ (r = 0x12 → (axis (axSafe s d a r) d a).ben = false) := by
  unfold axSafe
  extract_lets coast moving x y s1 s2
  have hy : y.loopAt = (axis s d a).loopAt ∧ y.sw = (axis s d a).sw ∧ (r = 0x12 → y.ben = false) := by
    unfold y
    split
    · exact ⟨rfl, rfl, fun _ => rfl⟩
    · next hc => exact ⟨rfl, rfl, fun hr => absurd (by simp [coast, hr]) hc⟩
  have h1 : axis s1 d a = { y with stopDue := false, ocCount := 0 } := by
    unfold s1 setMstate
    dsimp only
    split <;> exact axis_setAxis ..
  have h2 : axis s2 d a = axis s1 d a := by
    unfold s2
    split <;> rfl
  rw [axis_axisLost, h2, h1]
  exact hy

/-- The state of a fenced axis page before its block takes its safe state. -/
def axFenceHead (s : State) (d a r : Nat) : State :=
  let p := pgAx d a
  let st := stateBefore s p
  let was := if st = stStarting ∧ cameBack s p then stRunning else st
  let s1 := setFenceSt s p { before := was, softReset := rb s p Off.PAGE_CTRL 2 }
  wr (wf (setPstate (wb s1 p Off.PAGE_CTRL 1 true) p stFenced) p Off.PAGE_STAT 8 8 r) (pgFence p.die) Off.FN_LAST
    (word (b2n p.sec * 2 ^ 23 + p.num * 2 ^ 8 + r))

theorem pgInst_pgAx : pgInst (pgAx d a) = a := by
  unfold pgInst
  rw [pgKind_pgAx d ha]
  show (if a < 4 then 0x28 + a else 0xFFFF) - 0x28 = a
  rw [if_pos ha]
  omega

theorem fenceQuiet_ax {r : Nat} {ks : List Nat} (h : takesFence s (pgAx d a) = true) :
    fenceQuiet s (pgAx d a) r ks =
      raise (count (axSafe (axFenceHead s d a r) (pgAx d a).die a r) (pgFence (pgAx d a).die) Off.FN_CNT_FENCES)
        (pgFence (pgAx d a).die) 0 := by
  unfold fenceQuiet
  dsimp only
  rw [if_neg (not_fenced_of_takesFence s h), if_neg (by rw [pgKind_pgAx d ha]; decide), pageSafe, pgKind_pgAx d ha, pgInst_pgAx ha]
  rfl

omit ha in
theorem axis_raise (p : Pg) (i : Nat) : axis (raise s p i) d a = axis s d a := by
  apply raise_inv (φ := fun s => axis s d a) (hU := rfl) <;> exact fun _ _ => rfl

omit ha in
theorem axis_axFenceHead (r : Nat) : axis (axFenceHead s d a r) d a = axis s d a := rfl

omit ha in
theorem axReg_axFenceHead (r : Nat) {o : Nat} (hc : Off.PAGE_CTRL ≠ o) (hs : Off.PAGE_STAT ≠ o) (hp : pgFence d ≠ pgAx d a) :
    rd (axFenceHead s d a r) (pgAx d a) o = rd s (pgAx d a) o :=
  (rd_wr_page _ _ _ _ _ _ hp).trans ((rd_wr_off _ _ _ _ _ _ hs).trans ((rd_wr_off _ _ _ _ _ _ hs).trans (rd_wr_off _ _ _ _ _ _ hc)))

/-- A fence of an axis page changes only its header and `AX_STAT` on the page. -/
theorem axReg_fencePage (r : Nat) {o : Nat} (hc : Off.PAGE_CTRL ≠ o) (hs : Off.PAGE_STAT ≠ o) (ho : Off.AX_STAT ≠ o) :
    rd (fencePage s (pgAx d a) r) (pgAx d a) o = rd s (pgAx d a) o := by
  have hf : pgFence d ≠ pgAx d a := ax_apart ha .fence (by decide) d
  unfold fencePage
  split
  · next h =>
    refine (axReg_logRecord _ ha _ _ _ _).trans ?_
    rw [fenceQuiet_ax s ha h]
    exact (rd_raise_page _ _ _ _ _ hf).trans ((rd_count_page _ _ _ _ _ hf).trans
      ((axReg_axSafe _ ha _ ho).trans (axReg_axFenceHead _ _ hc hs hf)))
  · rfl

/-- It leaves the time of the current loop and the switch inputs, and for the faults of the bridges it disables them. -/
theorem axis_fencePage (r : Nat) : (axis (fencePage s (pgAx d a) r) d a).loopAt = (axis s d a).loopAt ∧
    (axis (fencePage s (pgAx d a) r) d a).sw = (axis s d a).sw ∧
    (takesFence s (pgAx d a) = true → r = 0x12 → (axis (fencePage s (pgAx d a) r) d a).ben = false) := by
  unfold fencePage
  split
  · next h =>
    dsimp only
    obtain ⟨h1, h2, h3⟩ := axis_axSafe (axFenceHead s d a r) (d := d) (a := a) r
    rw [axis_logRecord, fenceQuiet_ax s ha h, axis_raise]
    exact ⟨h1.trans (congrArg AxisSt.loopAt (axis_axFenceHead ..)), h2.trans (congrArg AxisSt.sw (axis_axFenceHead ..)), fun _ => h3⟩
  · next h => exact ⟨rfl, rfl, fun h' => absurd h' h⟩

omit ha in
/-- The page shows its fence with the reason. -/
theorem shown_fencePage {q : Pg} (r : Nat) (h : takesFence s q = true) :
    fenced (fencePage s q r) q = true ∧ pageReason (fencePage s q r) q = r % 256 := by
  have hst : rd (fencePage s q r) q Off.PAGE_STAT = fencedWord (rd s q Off.PAGE_STAT) r := by
    unfold fencePage
    rw [if_pos h]
    exact (stat_logRecord ..).trans (stat_fenceQuiet_same _ _ _ h)
  exact ⟨fenced_of_stat hst, reason_of_stat hst⟩

end

section
variable (s : State) {d a : Nat} (ha : a < 4)

/-! ### Faults of an axis -/

/-- What a fault bit and its event leave: every register of the page but the two. -/
theorem rd_axFault (b e : Nat) (q : Pg) {o : Nat} (hf : Off.AX_FAULT ≠ o) (hl : o ≠ Off.EVT_LAT) :
    rd (axFault s d a b e) q o = rd s q o :=
  (rd_raise_off _ _ _ _ _ hl).trans (rd_wr_off _ _ _ _ _ _ hf)

theorem takesFence_axFault (b e : Nat) (q : Pg) : takesFence (axFault s d a b e) q = takesFence s q :=
  takesFence_congr (rd_axFault s b e q (by decide) (by decide)) (by
    unfold axFault
    exact raise_inv (φ := State.part) (fun _ _ => rfl) (fun _ _ => rfl) (fun _ _ => rfl) rfl)

theorem axFault_spec (b e : Nat) (hp : present s (pgAx d a) = true) (hb : b < 24) (he : e < 24) :
    rb (axFault s d a b e) (pgAx d a) Off.AX_FAULT b = true ∧ rb (axFault s d a b e) (pgAx d a) Off.EVT_LAT e = true := by
  unfold axFault
  refine ⟨?_, rb_raise_same _ _ _ hp he⟩
  rw [rb, rd_raise_off _ _ _ _ _ (by decide)]
  exact rb_wb_same _ _ _ _ _ hb

theorem axis_axFault (b e : Nat) : axis (axFault s d a b e) d a = axis s d a := axis_raise ..

theorem clock_axFault (b e : Nat) : (axFault s d a b e).clock = s.clock := by
  apply raise_inv (φ := State.clock) (hU := rfl) <;> exact fun _ _ => rfl

/-! ### The current loop (R249 to R251) -/

/-- What a loop tick shows of its sample, and when it was: the register of the currents, the time of the last tick and the clock. -/
def LoopShown (d a : Nat) (s t : State) : Prop :=
  (axis t d a).loopAt = (axis s d a).loopAt ∧ rd t (pgAx d a) Off.AX_IPH = rd s (pgAx d a) Off.AX_IPH ∧ t.clock = s.clock

variable {s} in
theorem LoopShown.trans {t u : State} (h : LoopShown d a s t) (h' : LoopShown d a t u) : LoopShown d a s u :=
  ⟨h'.1.trans h.1, h'.2.1.trans h.2.1, h'.2.2.trans h.2.2⟩

theorem loopShown_axFault (b e : Nat) : LoopShown d a s (axFault s d a b e) :=
  ⟨congrArg AxisSt.loopAt (axis_axFault ..), rd_axFault _ _ _ _ (by decide) (by decide), clock_axFault ..⟩

include ha

theorem loopShown_fencePage (r : Nat) : LoopShown d a s (fencePage s (pgAx d a) r) :=
  ⟨(axis_fencePage s ha r).1, axReg_fencePage s ha r (by decide) (by decide) (by decide), clock_fencePage ..⟩

theorem loopShown_axPolicy (b r : Nat) : LoopShown d a s (axPolicy s d a b r) := by
  unfold axPolicy
  split
  · exact loopShown_fencePage s ha r
  · exact ⟨by rw [axis_setAxis], rfl, rfl⟩

theorem loopShown_axStall : LoopShown d a s (axStall s d a) := by
  have hc : LoopShown d a s (count s (pgAx d a) Off.CNT_STALL) := ⟨rfl, rd_wr_off _ _ _ _ _ _ (by decide), rfl⟩
  exact (hc.trans (loopShown_axFault ..)).trans (loopShown_axPolicy _ ha _ _)

omit ha in
theorem regs_nextFree : (nextFree s).regs = s.regs := rfl

omit ha in
theorem rd_stallDetect (th : Nat) (ia ib : Int) (q : Pg) {o : Nat} (ho : Off.AX_LOAD ≠ o) :
    rd (stallDetect s d a th ia ib).2 q o = rd s q o := by
  unfold stallDetect
  extract_lets p x v vmin off
  split
  · rfl
  · split
    next thr s1 h1 =>
    have hr : s1.regs = s.regs := by
      split at h1
      · exact congrArg (fun z => z.2.regs) h1.symm
      · exact congrArg (fun z => z.2.regs) h1.symm
    exact (rd_wr_off _ _ _ _ _ _ ho).trans (rd_of_regs hr q o)

omit ha in
theorem clock_stallDetect (th : Nat) (ia ib : Int) : (stallDetect s d a th ia ib).2.clock = s.clock := by
  apply stallDetect_inv (φ := State.clock) (hU := rfl) <;> exact fun _ _ => rfl

omit ha in
theorem part_stallDetect (th : Nat) (ia ib : Int) : (stallDetect s d a th ia ib).2.part = s.part := by
  apply stallDetect_inv (φ := State.part) (hU := rfl) <;> exact fun _ _ => rfl

omit ha in
theorem stallDetect_off (th : Nat) (ia ib : Int) (h : rdN s (pgAx d a) Off.AX_STALL_VMIN = 0) :
    (stallDetect s d a th ia ib).1 = false := by
  unfold stallDetect
  extract_lets p x v vmin off
  exact congrArg Prod.fst (if_pos (.inl (by simp [off, p, h])))

end

section
variable (s : State) {d a : Nat}

theorem LoopShown.whenDo {t : State} {b : Bool} {f : State → State} (h : LoopShown d a s t) (hf : LoopShown d a t (f t)) :
    LoopShown d a s (whenDo b t f) := by
  cases b
  · exact h
  · exact h.trans hf

/-- The word of the two sampled currents. -/
def currentsWord (ia ib : Int) : Word := word (uns 12 (satI 12 ia) * 2 ^ 12 + uns 12 (satI 12 ib))

theorem fld_currentsWord (ia ib : Int) : fld (currentsWord ia ib) 12 12 = uns 12 (satI 12 ia) ∧
    fld (currentsWord ia ib) 0 12 = uns 12 (satI 12 ib) := by
  have h1 : uns 12 (satI 12 ia) < 2 ^ 12 := by unfold uns; omega
  have h2 : uns 12 (satI 12 ib) < 2 ^ 12 := by unfold uns; omega
  unfold currentsWord
  generalize uns 12 (satI 12 ia) = x at *
  generalize uns 12 (satI 12 ib) = y at *
  have hw : (word (x * 2 ^ 12 + y)).toNat = x * 2 ^ 12 + y := by
    rw [word, BitVec.toNat_ofNat, Nat.mod_eq_of_lt (by omega)]
  rw [fld, fld, hw]
  constructor <;> omega

theorem double_half (z : Int) : 2 * z / 2 = z := by omega

/-- A loop tick with the bridges enabled shows its sample and its clock; without stall detection a second sample in a row above
the limit fences the axis. -/
theorem loopTick_spec (ia ib : Int) (ha : a < 4) (hp : present s (pgAx d a) = true) (hb : (axis s d a).ben = true) :
    ((axis (loopTick s d a ia ib) d a).loopAt = some (loopTick s d a ia ib).clock ∧
      rd (loopTick s d a ia ib) (pgAx d a) Off.AX_IPH = currentsWord ia ib) ∧
    (rdN s (pgAx d a) Off.AX_STALL_VMIN = 0 → takesFence s (pgAx d a) = true → 1 ≤ (axis s d a).ocCount →
      rf s (pgAx d a) Off.AX_OC 0 12 < (2 * satI 12 ia).natAbs →
      fenced (loopTick s d a ia ib) (pgAx d a) = true ∧ pageReason (loopTick s d a ia ib) (pgAx d a) = 0x13 ∧
        rb (loopTick s d a ia ib) (pgAx d a) Off.AX_FAULT 6 = true) := by
  unfold loopTick
  rw [if_neg (by simp [hb])]
  extract_lets A B pos theta amp ra s1 rb' s2 kp ki lim oc
  split
  split
  split
  next st s3 h3 =>
  extract_lets x3 s4 s5
  have e3 : s3 = (stallDetect (wr s2 (pgAx d a) Off.AX_IPH (word (uns 12 (A / 2) * 2 ^ 12 + uns 12 (B / 2)))) d a theta A B).2 := by rw [h3]
  have hiph : rd s4 (pgAx d a) Off.AX_IPH = currentsWord ia ib := by
    refine (rd_of_regs (s := s3) rfl _ _).trans ?_
    rw [e3, rd_stallDetect _ _ _ _ _ (by decide), rd_wr_same]
    simp only [A, B, double_half]
    rfl
  have hreg : ∀ o, Off.AX_LOAD ≠ o → Off.AX_IPH ≠ o → rd s4 (pgAx d a) o = rd s (pgAx d a) o := fun o h h' => by
    refine (rd_of_regs (s := s3) rfl _ _).trans ?_
    rw [e3, rd_stallDetect _ _ _ _ _ h, rd_wr_off _ _ _ _ _ _ h']
    rfl
  have hclk : s4.clock = s.clock := by
    refine Eq.trans (b := s3.clock) rfl ?_
    rw [e3, clock_stallDetect]
    rfl
  have hpart : s4.part = s.part := by
    refine Eq.trans (b := s3.part) rfl ?_
    rw [e3, part_stallDetect]
    rfl
  have hat : (axis s4 d a).loopAt = some s.clock := by
    unfold s4
    rw [axis_setAxis]
  have h5 : LoopShown d a s4 s5 := by
    unfold s5
    refine .whenDo (t := nextFree (nextFree s4)) _ ⟨rfl, rfl, rfl⟩ ?_
    exact (loopShown_axFault ..).trans (loopShown_fencePage _ ha _)
  obtain ⟨g1, g2, g3⟩ : LoopShown d a s4 (whenDo st s5 (axStall · d a)) := h5.whenDo _ (loopShown_axStall _ ha)
  refine ⟨⟨g1.trans (hat.trans (congrArg some (g3.trans hclk).symm)), g2.trans hiph⟩, fun hv hf hc ho => ?_⟩
  have hst : st = false := by
    have : st = (stallDetect (wr s2 (pgAx d a) Off.AX_IPH (word (uns 12 (A / 2) * 2 ^ 12 + uns 12 (B / 2)))) d a theta A B).1 := by rw [h3]
    rw [this]
    refine stallDetect_off _ _ _ _ ?_
    rw [rdN, rd_wr_off _ _ _ _ _ _ (by decide)]
    exact hv
  have hoc : decide (2 ≤ oc) = true := by
    have : oc = (axis s d a).ocCount + 1 := if_pos (.inl ho)
    simp only [decide_eq_true_eq]
    omega
  have hs5 : s5 = fencePage (axFault (nextFree (nextFree s4)) d a 6 10) (pgAx d a) 0x13 := by
    unfold s5
    rw [hoc]
    rfl
  have hfin : whenDo st s5 (axStall · d a) = fencePage (axFault (nextFree (nextFree s4)) d a 6 10) (pgAx d a) 0x13 := by
    rw [hst, ← hs5]
    rfl
  rw [hfin]
  generalize hu : nextFree (nextFree s4) = u
  have hupart : u.part = s.part := by rw [← hu]; exact hpart
  have hureg : rd u (pgAx d a) Off.PAGE_STAT = rd s (pgAx d a) Off.PAGE_STAT := by
    rw [← hu]
    exact (rd_of_regs (s := s4) rfl _ _).trans (hreg _ (by decide) (by decide))
  have htf : takesFence (axFault u d a 6 10) (pgAx d a) = true := by
    rw [takesFence_axFault, takesFence_congr hureg hupart]
    exact hf
  obtain ⟨r1, r2⟩ := shown_fencePage (axFault u d a 6 10) 0x13 htf
  refine ⟨r1, r2, ?_⟩
  rw [rb, axReg_fencePage _ ha _ (by decide) (by decide) (by decide)]
  exact (axFault_spec u 6 10 ((present_congr hupart _).trans hp) (by decide) (by decide)).1

end

end Sys2Proof.Machine

namespace Sys2Proof.Machine
open Sys2Proof.Laws

/-! ### Switch inputs, step inputs and enabling of an axis (R252, R253, R261, R267) -/

section
variable (s : State) {d a : Nat}

/-- What the faults of an axis leave of its switch input `i`: the qualified level, the last edge, the chatter count, the state of
the inputs and the clock; and a latched event stays. -/
structure SwShown (d a i : Nat) (s t : State) : Prop where
  level : swLevel t d a i = swLevel s d a i
  info : rd t (pgAx d a) Off.AX_EDGE_INFO = rd s (pgAx d a) Off.AX_EDGE_INFO
  chat : rd t (pgAx d a) Off.CNT_CHATTER = rd s (pgAx d a) Off.CNT_CHATTER
  sw : (axis t d a).sw = (axis s d a).sw
  clock : t.clock = s.clock
  evt : ∀ j, rb s (pgAx d a) Off.EVT_LAT j = true → rb t (pgAx d a) Off.EVT_LAT j = true

theorem SwShown.refl {i : Nat} : SwShown d a i s s := ⟨rfl, rfl, rfl, rfl, rfl, fun _ h => h⟩

variable {s} in
theorem SwShown.trans {i : Nat} {t u : State} (h : SwShown d a i s t) (h' : SwShown d a i t u) : SwShown d a i s u :=
  ⟨h'.level.trans h.level, h'.info.trans h.info, h'.chat.trans h.chat, h'.sw.trans h.sw, h'.clock.trans h.clock,
    fun j hj => h'.evt j (h.evt j hj)⟩

variable {i : Nat}

theorem swShown_axFault (b e : Nat) : SwShown d a i s (axFault s d a b e) where
  level := by rw [swLevel, rb, rd_axFault _ _ _ _ (by decide) (by decide)]; rfl
  info := rd_axFault _ _ _ _ (by decide) (by decide)
  chat := rd_axFault _ _ _ _ (by decide) (by decide)
  sw := by rw [axis_axFault]
  clock := clock_axFault ..
  evt j hj := rb_raise_mono _ _ _ _ _ (by rwa [rb, wb, rd_wr_off _ _ _ _ _ _ (by decide)])

/-- A change of the motion state or of the validity of the position leaves the qualified levels. -/
theorem swLevel_setMstate (m : Nat) (hi : i < 3) : swLevel (setMstate s d a m) d a i = swLevel s d a i := by
  unfold setMstate swLevel
  dsimp only
  split
  · exact rb_wf_apart _ _ _ _ _ _ _ (by omega)
  · exact (rb_wf_apart _ _ _ _ _ _ _ (by omega)).trans (rb_wf_apart _ _ _ _ _ _ _ (by omega))

variable (ha : a < 4) (hi : i < 3)
include ha hi

theorem swLevel_axSafe (r : Nat) : swLevel (axSafe s d a r) d a i = swLevel s d a i := by
  unfold axSafe
  extract_lets coast moving x y s1 s2
  have h1 : swLevel s1 d a i = swLevel s d a i := swLevel_setMstate _ _ hi
  rw [swLevel, rb, axReg_axisLost _ ha]
  refine Eq.trans ?_ h1
  unfold s2
  split
  · exact rb_wb_apart _ _ _ _ _ _ (by omega)
  · rfl

theorem swShown_fencePage (r : Nat) : SwShown d a i s (fencePage s (pgAx d a) r) where
  level := by
    unfold fencePage
    split
    · next h =>
      rw [swLevel, rb, axReg_logRecord _ ha, fenceQuiet_ax s ha h, rd_raise_page _ _ _ _ _ (ax_apart ha .fence (by decide) _),
        rd_count_page _ _ _ _ _ (ax_apart ha .fence (by decide) _)]
      refine (swLevel_axSafe _ ha hi r).trans ?_
      exact congrArg (bit · (13 + i)) (axReg_axFenceHead s r (by decide) (by decide) (ax_apart ha .fence (by decide) d))
    · rfl
  info := axReg_fencePage s ha r (by decide) (by decide) (by decide)
  chat := axReg_fencePage s ha r (by decide) (by decide) (by decide)
  sw := (axis_fencePage s ha r).2.1
  clock := clock_fencePage ..
  evt j hj := by rwa [rb, axReg_fencePage s ha r (by decide) (by decide) (by decide)]

theorem swShown_axPolicy (b r : Nat) : SwShown d a i s (axPolicy s d a b r) := by
  unfold axPolicy
  split
  · exact swShown_fencePage s ha hi r
  · exact ⟨rfl, rfl, rfl, by rw [axis_setAxis], rfl, fun _ h => h⟩

omit ha hi in
theorem limitTrip_eq (j : Nat) : limitTrip s d a j = axPolicy (axFault s d a (3 + j) 4) d a 6 0x0F ∨ limitTrip s d a j = s :=
  ite_eq_or_eq ..

theorem swShown_limitTrip (j : Nat) : SwShown d a i s (limitTrip s d a j) := by
  obtain h | h := limitTrip_eq s (d := d) (a := a) j
  · rw [h]
    exact (swShown_axFault s ..).trans (swShown_axPolicy _ ha hi _ _)
  · rw [h]
    exact .refl s

theorem swShown_chatFollow : SwShown d a i s (chatFollow s d a) := by
  unfold chatFollow
  extract_lets lim past
  cases (past && !rb s (pgAx d a) Off.AX_FAULT 2)
  · exact .refl s
  · exact (swShown_axFault s ..).trans (swShown_axPolicy _ ha hi _ _)

/-- A qualified edge of an input shows its level, its number and its event. -/
theorem swQualify_spec (hp : present s (pgAx d a) = true) (lvl : Bool) (pos : Int) (stamp chat : Nat) :
    (swLevel (swQualify s d a i lvl pos stamp chat) d a i = lvl ∧
      rf (swQualify s d a i lvl pos stamp chat) (pgAx d a) Off.AX_EDGE_INFO 0 2 = i ∧
      rb (swQualify s d a i lvl pos stamp chat) (pgAx d a) Off.EVT_LAT 12 = true) ∧
    (axis (swQualify s d a i lvl pos stamp chat) d a).sw = (axis s d a).sw ∧
    (swQualify s d a i lvl pos stamp chat).clock = s.clock := by
  unfold swQualify
  extract_lets p s1 s2 s3 s4
  have hax : axis s3 d a = axis s d a := axis_raise ..
  have hclk : s3.clock = s.clock := by
    apply raise_inv (φ := State.clock) (hU := rfl) <;> exact fun _ _ => rfl
  have hlvl : swLevel s3 d a i = lvl := by
    rw [swLevel, rb, rd_raise_off _ _ _ _ _ (by decide), rd_wr_off _ _ _ _ _ _ (by decide),
      rd_wr48_off _ _ _ _ _ _ (by decide) (by decide), rd_wr48_off _ _ _ _ _ _ (by decide) (by decide)]
    exact rb_wb_same _ _ _ _ _ (by omega)
  have hinfo : rf s3 (pgAx d a) Off.AX_EDGE_INFO 0 2 = i := by
    rw [rf, rd_raise_off _ _ _ _ _ (by decide), rd_wr_same, fld, word, BitVec.toNat_ofNat]
    cases lvl <;> simp only [b2n] <;> omega
  have hevt : rb s3 (pgAx d a) Off.EVT_LAT 12 = true := rb_raise_same _ _ _ hp (by decide)
  have h34 : SwShown d a i s3 s4 := by
    unfold s4
    cases decide (mstate s3 d a = msHoming)
    · exact ⟨rfl, rfl, rfl, rfl, rfl, fun _ h => h⟩
    · exact ⟨rfl, rfl, rfl, by rw [Machine.whenDo, if_pos rfl, axis_setAxis], rfl, fun _ h => h⟩
  have h35 : SwShown d a i s3 (whenDo lvl s4 (limitTrip · d a i)) := by
    cases lvl
    · exact h34
    · exact h34.trans (swShown_limitTrip _ ha hi i)
  exact ⟨⟨h35.level.trans hlvl, (congrArg (fld · 0 2) h35.info).trans hinfo, h35.evt 12 hevt⟩,
    h35.sw.trans (congrArg AxisSt.sw hax), h35.clock.trans hclk⟩

/-- A chatter edge counts and leaves the qualified levels. -/
theorem chatter_spec : swLevel (chatter s d a) d a i = swLevel s d a i ∧
    rd (chatter s d a) (pgAx d a) Off.CNT_CHATTER = inc24 (rd s (pgAx d a) Off.CNT_CHATTER) ∧
    (axis (chatter s d a) d a).sw = (axis s d a).sw ∧ (chatter s d a).clock = s.clock := by
  unfold chatter
  extract_lets s1 x
  have h := swShown_chatFollow (d := d) (setAxis s1 d a { x with hchat := x.hchat + 1 }) ha hi
  refine ⟨h.level.trans ?_, h.chat.trans (rd_wr_same ..), h.sw.trans (by rw [axis_setAxis]; rfl), h.clock⟩
  exact congrArg (bit · (13 + i)) (rd_wr_off _ _ _ _ _ _ (by decide))

end

/-! ### The commands -/

section
variable {s : State} {d a : Nat}

theorem axThere_lt (h : axThere s d a = true) : a < 4 ∧ present s (pgAx d a) = true := by
  simpa [axThere] using h

theorem exec_currentLoopTick (ia ib : Int) (h : axThere s d a = true) (hw : awake s d = true) :
    exec (.currentLoopTick d a ia ib) s =
      .next (loopTick (waitClock s (nextAt s d 5000 (axis s d a).loopAt)) d a ia ib) :=
  congrArg Host.Outcome.next (if_pos (by simp [h, hw]))

theorem exec_bridgeFault (h : axThere s d a = true) (hb : (axis s d a).ben = true) :
    exec (.bridgeFault d a) s = .next (fencePage (axFault s d a 5 9) (pgAx d a) 0x12) :=
  congrArg Host.Outcome.next (if_pos (by simp [h, hb]))

theorem exec_stepInput (fwd : Bool) (h : axThere s d a = true) (hw : awake s d = true) (hs : stepIn s d a = true)
    (hr : running s (pgAx d a) = true) (hm : mstate s d a = msFollow) : exec (.stepInput d a fwd) s =
      .next (stepApply (wr s (pgAx d a) Off.CNT_STEP_IN (rd s (pgAx d a) Off.CNT_STEP_IN + 1)) d a (if fwd then 1 else -1)
        (uns 48 ((now s d : Int) - 9))) :=
  congrArg Host.Outcome.next ((if_pos (by simp [h, hw, hs, hr])).trans (if_pos hm))

theorem exec_axEnableDone (h : axThere s d a = true) (hp : pstate s (pgAx d a) = stStarting) : exec (.axEnableDone d a) s =
    .next (if rb (axRunning (waitClock s ((axis s d a).rampAt + 16 * 5000)) d a) (pgAx d a) Off.PAGE_CTRL 0 then
      axRunning (waitClock s ((axis s d a).rampAt + 16 * 5000)) d a
      else axShut (axRunning (waitClock s ((axis s d a).rampAt + 16 * 5000)) d a) d a) :=
  congrArg Host.Outcome.next (if_pos (by simp [h, hp]))

theorem exec_switchInputEdge {i : Nat} (raw : Bool) (h : axThere s d a = true) (hw : awake s d = true) (hi : i < 3) :
    exec (.switchInputEdge d a i raw) s = .next (swEdge s d a i raw) :=
  congrArg Host.Outcome.next (if_pos (by simp [h, hw, hi]))

/-- The end of the burst of an input, before its level is compared. -/
def burstEnd (s : State) (d a i : Nat) : State :=
  let w := Tbl.get (axis s d a).sw i {}
  let s1 := waitClock s (w.since + debounce s d a)
  setAxis s1 d a { axis s1 d a with sw := Tbl.put (axis s1 d a).sw i { w with burst := false } }

theorem exec_swEdge {i : Nat} (h : axThere s d a = true) (hw : awake s d = true) (hi : i < 3)
    (hb : (Tbl.get (axis s d a).sw i {}).burst = true) : exec (.swEdge d a i) s =
      .next (if (Tbl.get (axis s d a).sw i {}).level ≠ swLevel (burstEnd s d a i) d a i then
        swQualify (burstEnd s d a i) d a i (Tbl.get (axis s d a).sw i {}).level (Tbl.get (axis s d a).sw i {}).pos
          (Tbl.get (axis s d a).sw i {}).stamp (Tbl.get (axis s d a).sw i {}).chat
        else chatter (burstEnd s d a i) d a) :=
  congrArg Host.Outcome.next (if_pos (by simp [h, hw, hi, hb]))

theorem axis_waitClock (s : State) (d a c : Nat) : axis (waitClock s c) d a = axis s d a := by
  apply waitClock_inv (φ := fun s => axis s d a) (hU := rfl) <;> exact fun _ _ => rfl

/-- The step of a following axis. -/
theorem stepApply_spec (s : State) (d a : Nat) (dir : Int) (te : Nat) :
    rd (stepApply s d a dir te) (pgAx d a) Off.CNT_STEP_IN = rd s (pgAx d a) Off.CNT_STEP_IN ∧
      (axis (stepApply s d a dir te) d a).y = sgn 48 (uns 48 ((axis s d a).y + dir * stepWorth s d a)) ∧
      rb (stepApply s d a dir te) (pgAx d a) Off.AX_STAT 17 = decide (dir < 0) := by
  unfold stepApply
  extract_lets x sc y cur gap turn far s1 seg rate onto from_ n seg2 s2 cap
  have h1 : rd s1 (pgAx d a) Off.CNT_STEP_IN = rd s (pgAx d a) Off.CNT_STEP_IN ∧ rb s1 (pgAx d a) Off.AX_STAT 17 = decide (dir < 0) := by
    unfold s1
    split
    · next h => exact ⟨rd_wr_off _ _ _ _ _ _ (by decide), (rb_wb_same _ _ _ _ _ (by decide)).trans (by simp [h])⟩
    · next h => exact ⟨rd_wr_off _ _ _ _ _ _ (by decide), (rb_wb_same _ _ _ _ _ (by decide)).trans (by simpa using h)⟩
  split
  · exact ⟨h1.1, by rw [axis_setAxis], h1.2⟩
  · have h2 : (axis s2 d a).y = y := by
      unfold s2
      rw [axis_setAxis]
    cases decide (cap < far.natAbs * 10000)
    · exact ⟨h1.1, h2, h1.2⟩
    · refine ⟨(rd_raise_off _ _ _ _ _ (by decide)).trans h1.1, (congrArg AxisSt.y (axis_raise ..)).trans h2, ?_⟩
      exact (congrArg (bit · 17) (rd_raise_off _ _ _ _ _ (by decide))).trans h1.2

theorem pstate_setPstate (s : State) (p : Pg) {st : Nat} (h : st < 8) : pstate (setPstate s p st) p = st := by
  rw [pstate, setPstate, rf_wf_same _ _ _ _ _ _ (by decide)]
  exact Nat.mod_eq_of_lt h

theorem mstate_setMstate (s : State) (d a : Nat) {m : Nat} (h : m < 16) : mstate (setMstate s d a m) d a = m := by
  unfold setMstate mstate
  dsimp only
  split
  · exact (rf_wf_same _ _ _ _ _ _ (by decide)).trans (Nat.mod_eq_of_lt h)
  · exact (rf_wf_apart _ _ _ _ _ _ _ _ (by decide)).trans ((rf_wf_same _ _ _ _ _ _ (by decide)).trans (Nat.mod_eq_of_lt h))

/-- An axis that becomes RUNNING. -/
theorem axRunning_spec (s : State) (d a : Nat) : pstate (axRunning s d a) (pgAx d a) = stRunning ∧
    mstate (axRunning s d a) d a = (if stepIn s d a && !cameBack s (pgAx d a) then msFollow else msRest) ∧
    rb (axRunning s d a) (pgAx d a) Off.PAGE_CTRL 0 = rb s (pgAx d a) Off.PAGE_CTRL 0 ∧
    (axRunning s d a).clock = s.clock := by
  unfold axRunning
  extract_lets s1 x s2
  have hin : stepIn s2 d a = stepIn s d a := by
    have hreg : rd s2 (pgAx d a) Off.AX_CFG = rd s (pgAx d a) Off.AX_CFG :=
      (rd_of_regs (s := s1) rfl _ _).trans (rd_wr_off _ _ _ _ _ _ (by decide))
    rw [stepIn, stepIn, rf, rf, hreg]
  refine ⟨?_, ?_, ?_, ?_⟩
  · rw [pstate, rf, axReg_setMstate _ _ (by decide)]
    exact pstate_setPstate _ _ (by decide)
  · rw [mstate_setMstate _ _ _ (by split <;> decide), hin]
  · rw [rb, axReg_setMstate _ _ (by decide)]
    exact congrArg (bit · 0) (rd_wr_off _ _ _ _ _ _ (by decide))
  · unfold setMstate
    dsimp only
    split <;> rfl

/-- An axis whose page shuts down. -/
theorem axShut_spec (s : State) (d a : Nat) : pstate (axShut s d a) (pgAx d a) = stShutting ∧ (axShut s d a).clock = s.clock := by
  have hreg : rd (axShut s d a) (pgAx d a) Off.PAGE_STAT = rd (setPstate s (pgAx d a) stShutting) (pgAx d a) Off.PAGE_STAT := by
    unfold axShut axCut axHold
    extract_lets
    split
    · refine (rd_raise_off _ _ _ _ _ (by decide)).trans ((axReg_setMstate _ _ (by decide)).trans
        ((rd_wr48_off _ _ _ _ _ _ (by decide) (by decide)).trans ?_))
      exact rd_wr_off _ _ _ _ _ _ (by decide)
    · split
      · exact axReg_setMstate _ _ (by decide)
      · rfl
  refine ⟨?_, ?_⟩
  · rw [pstate, rf, hreg]
    exact pstate_setPstate _ _ (by decide)
  · apply axShut_inv (φ := State.clock) (hU := rfl) <;> exact fun _ _ => rfl

/-- The edge of an input to another level, without debounce and with. -/
theorem swEdge_qualifies {i : Nat} (raw : Bool) (h : (raw != rb s (pgAx d a) Off.AX_SW_CFG (18 + i)) ≠ (Tbl.get (axis s d a).sw i {}).level)
    (hd : debounce s d a = 0) : ∃ x pos stamp, swEdge s d a i raw =
      swQualify (setAxis s d a x) d a i (raw != rb s (pgAx d a) Off.AX_SW_CFG (18 + i)) pos stamp 0 :=
  ⟨_, _, _, (if_neg h).trans (if_pos hd)⟩

theorem swEdge_bursts {i : Nat} (raw : Bool) (h : (raw != rb s (pgAx d a) Off.AX_SW_CFG (18 + i)) ≠ (Tbl.get (axis s d a).sw i {}).level)
    (hd : debounce s d a ≠ 0) (hb : (Tbl.get (axis s d a).sw i {}).burst = false)
    (hl : (raw != rb s (pgAx d a) Off.AX_SW_CFG (18 + i)) ≠ swLevel s d a i) : ∃ v : SwSt, v.burst = true ∧
      swEdge s d a i raw = setAxis s d a { axis s d a with sw := Tbl.put (axis s d a).sw i v } :=
  ⟨_, rfl, (if_neg h).trans ((if_neg hd).trans ((if_neg (by simp [hb])).trans (if_pos hl)))⟩

/-- The end of the burst of an input leaves the qualified levels and the chatter count. -/
theorem burstEnd_spec (s : State) (d a i : Nat) :
    swLevel (burstEnd s d a i) d a i = swLevel s d a i ∧
    rd (burstEnd s d a i) (pgAx d a) Off.CNT_CHATTER = rd s (pgAx d a) Off.CNT_CHATTER ∧
    (Tbl.get (axis (burstEnd s d a i) d a).sw i {}).burst = false ∧
    (Tbl.get (axis s d a).sw i {}).since + debounce s d a ≤ (burstEnd s d a i).clock ∧
    (burstEnd s d a i).part = s.part := by
  unfold burstEnd
  extract_lets w s1
  refine ⟨congrArg (bit · (13 + i)) (rd_waitClock _ _ (by decide)), rd_waitClock _ _ (by decide), ?_, clock_waitClock_le _ _, waitClock_part ..⟩
  rw [axis_setAxis, Tbl.get_put_same]

end

/-- Settles O32: each input of an axis by what its command does, with the fences of its faults leaving what the command shows. -/
theorem axisInputs : Obligations.AxisInputs := by
  unfold Obligations.AxisInputs
  refine ⟨?_, ?_, ?_, ?_, ?_, ?_⟩
  · intro s d a ia ib h hw hb
    obtain ⟨ha, hp⟩ := axThere_lt h
    refine .of (exec_currentLoopTick ia ib h hw) ?_
    generalize hu : waitClock s (nextAt s d 5000 (axis s d a).loopAt) = u
    have hax : axis u d a = axis s d a := hu ▸ axis_waitClock ..
    have hpart : u.part = s.part := hu ▸ waitClock_part ..
    have hreg : ∀ o, o ≠ Off.EVT_LAT → rd u (pgAx d a) o = rd s (pgAx d a) o := fun o ho => hu ▸ rd_waitClock _ _ ho
    obtain ⟨⟨h1, h2⟩, h3⟩ := loopTick_spec u ia ib ha ((present_congr hpart _).trans hp) (hax ▸ hb)
    obtain ⟨f1, f2⟩ := fld_currentsWord ia ib
    rw [rdN, hreg _ (by decide), takesFence_congr (hreg _ (by decide)) hpart, hax, rf, hreg _ (by decide)] at h3
    exact ⟨h1, (congrArg (fld · 12 12) h2).trans f1, (congrArg (fld · 0 12) h2).trans f2, h3⟩
  · intro s d a h hb hf
    obtain ⟨ha, hp⟩ := axThere_lt h
    refine .of (exec_bridgeFault h hb) ?_
    obtain ⟨f1, f2⟩ := axFault_spec s (d := d) (a := a) 5 9 hp (by decide) (by decide)
    have hf' : takesFence (axFault s d a 5 9) (pgAx d a) = true := (takesFence_axFault ..).trans hf
    obtain ⟨h1, h2⟩ := shown_fencePage (axFault s d a 5 9) 0x12 hf'
    refine ⟨h1, h2, ?_, ?_, (axis_fencePage _ ha 0x12).2.2 hf' rfl⟩
    · rwa [rb, axReg_fencePage _ ha _ (by decide) (by decide) (by decide)]
    · rwa [rb, axReg_fencePage _ ha _ (by decide) (by decide) (by decide)]
  · intro s d a fwd h hw hs hr hm
    refine .of (exec_stepInput fwd h hw hs hr hm) ?_
    obtain ⟨h1, h2, h3⟩ := stepApply_spec (wr s (pgAx d a) Off.CNT_STEP_IN (rd s (pgAx d a) Off.CNT_STEP_IN + 1)) d a
      (if fwd then 1 else -1) (uns 48 ((now s d : Int) - 9))
    refine ⟨h1.trans (rd_wr_same ..), h2.trans ?_, h3.trans (by cases fwd <;> rfl)⟩
    have hreg : rd (wr s (pgAx d a) Off.CNT_STEP_IN (rd s (pgAx d a) Off.CNT_STEP_IN + 1)) (pgAx d a) Off.AX_CFG =
      rd s (pgAx d a) Off.AX_CFG := rd_wr_off _ _ _ _ _ _ (by decide)
    rw [stepWorth, stepWorth, rf, rf, rf, rf, hreg]
    rfl
  · intro s d a h hp
    refine .of (exec_axEnableDone h hp) ?_
    generalize hu : waitClock s ((axis s d a).rampAt + 16 * 5000) = u
    have hreg : ∀ o, o ≠ Off.EVT_LAT → rd u (pgAx d a) o = rd s (pgAx d a) o := fun o ho => hu ▸ rd_waitClock _ _ ho
    have hclk : (axis s d a).rampAt + 80000 ≤ u.clock := hu ▸ clock_waitClock_le ..
    have hback : cameBack u (pgAx d a) = cameBack s (pgAx d a) := by
      refine congrArg (fun x : FenceSt => decide (x.before = stRunning)) ?_
      rw [← hu]
      apply waitClock_inv (φ := fun s => fenceSt s (pgAx d a)) (hU := rfl) <;> exact fun _ _ => rfl
    obtain ⟨h1, h2, h3, h4⟩ := axRunning_spec u d a
    rw [rb, rb, hreg _ (by decide), ← rb, ← rb] at h3
    rw [hback, stepIn, rf, hreg _ (by decide), ← rf, ← stepIn] at h2
    obtain ⟨g1, g2⟩ := axShut_spec (axRunning u d a) d a
    rw [h3]
    cases hc : rb s (pgAx d a) Off.PAGE_CTRL 0
    · exact ⟨hclk.trans (h4.symm.trans g2.symm).le, fun _ => g1, fun hc => absurd hc (by decide)⟩
    · exact ⟨hclk.trans h4.symm.le, fun hc => absurd hc (by decide), fun _ => ⟨h1, h2⟩⟩
  · intro s d a i raw h hw hi hne
    obtain ⟨ha, hp⟩ := axThere_lt h
    refine ⟨fun hd => .of (exec_switchInputEdge raw h hw hi) ?_, fun hd hb hl => .of (exec_switchInputEdge raw h hw hi) ?_⟩
    · obtain ⟨x, pos, stamp, he⟩ := swEdge_qualifies raw hne hd
      rw [he]
      exact (swQualify_spec (setAxis s d a x) ha hi hp _ pos stamp 0).1
    · obtain ⟨v, hv, he⟩ := swEdge_bursts raw hne hd hb hl
      rw [he, axis_setAxis, Tbl.get_put_same]
      exact ⟨hv, rfl⟩
  · intro s d a i h hw hi hb
    obtain ⟨ha, hp⟩ := axThere_lt h
    obtain ⟨b1, b2, b3, b4, b5⟩ := burstEnd_spec s d a i
    refine .of (exec_swEdge h hw hi hb) ?_
    rw [b1]
    split
    · next hne =>
      obtain ⟨⟨q1, -, q3⟩, q4, q5⟩ := swQualify_spec (burstEnd s d a i) ha hi ((present_congr b5 _).trans hp)
        (Tbl.get (axis s d a).sw i {}).level (Tbl.get (axis s d a).sw i {}).pos (Tbl.get (axis s d a).sw i {}).stamp
        (Tbl.get (axis s d a).sw i {}).chat
      exact ⟨(congrArg (fun w => (Tbl.get w i {}).burst) q4).trans b3, b4.trans q5.symm.le, q1, fun _ => q3, fun he => absurd he hne⟩
    · next he =>
      obtain ⟨c1, c2, c3, c4⟩ := chatter_spec (burstEnd s d a i) ha hi
      exact ⟨(congrArg (fun w => (Tbl.get w i {}).burst) c3).trans b3, b4.trans c4.symm.le, (c1.trans b1).trans (not_not.mp he).symm,
        fun hne => absurd hne he, fun _ => c2.trans (congrArg inc24 b2)⟩

end Sys2Proof.Machine

namespace Sys2Proof.Machine
open Sys2Proof.Laws

/-! ### Results of echo measurements (R212) -/

theorem echo_apart (d : Nat) (k : Kind) (h : .echo ≠ k) : k.Apart (pgEcho d) := Kind.apart .echo k rfl h

section
variable {s t u : State} {d : Nat}

/-- What the handling of a result leaves: the measurements that wait and the two counts of results. -/
structure MeasKept (d : Nat) (s t : State) : Prop where
  meas : (echo t d).meas = (echo s d).meas
  good : rd t (pgEcho d) Off.MEAS_CNT = rd s (pgEcho d) Off.MEAS_CNT
  bad : rd t (pgEcho d) Off.INVALID_CNT = rd s (pgEcho d) Off.INVALID_CNT

theorem MeasKept.trans (h : MeasKept d s t) (h' : MeasKept d t u) : MeasKept d s u :=
  ⟨h'.meas.trans h.meas, h'.good.trans h.good, h'.bad.trans h.bad⟩

theorem MeasKept.of_regs (h : (echo t d).meas = (echo s d).meas) (hr : ∀ o, rd t (pgEcho d) o = rd s (pgEcho d) o) : MeasKept d s t :=
  ⟨h, hr _, hr _⟩

theorem MeasKept.refl : MeasKept d s s := .of_regs rfl fun _ => rfl

variable (s d)

theorem measKept_wr {o : Nat} (w : Word) (hg : o ≠ Off.MEAS_CNT) (hb : o ≠ Off.INVALID_CNT) : MeasKept d s (wr s (pgEcho d) o w) :=
  ⟨rfl, rd_wr_off _ _ _ _ _ _ hg, rd_wr_off _ _ _ _ _ _ hb⟩

theorem measKept_raise (i : Nat) : MeasKept d s (raise s (pgEcho d) i) where
  meas := by
    refine congrArg EchoSt.meas (?_ : echo (raise s (pgEcho d) i) d = echo s d)
    apply raise_inv (φ := fun s => echo s d) (hU := rfl) <;> exact fun _ _ => rfl
  good := rd_raise_off _ _ _ _ _ (by decide)
  bad := rd_raise_off _ _ _ _ _ (by decide)

theorem measKept_setEcho (x : EchoSt) (h : x.meas = (echo s d).meas) : MeasKept d s (setEcho s d x) :=
  .of_regs ((congrArg EchoSt.meas (echo_setEcho ..)).trans h) fun _ => rfl

theorem measKept_readEntry (e p i : Nat) : MeasKept d s (readEntry s e p i).2 := by
  refine .of_regs (congrArg EchoSt.meas (?_ : echo (readEntry s e p i).2 d = echo s d)) fun o => ?_
  · apply readEntry_inv (φ := fun s => echo s d) (hU := rfl) <;> exact fun _ _ => rfl
  · exact (readEntry_keeps (echo_apart d .fence (by decide)) (echo_apart d .memctl (by decide)) (echo_apart d .chuteGlobal (by decide))
      (echo_apart d .chute (by decide)) (.refl ..)).regs o

theorem measKept_writeEntry (e k p i : Nat) (x : NozEntry) : MeasKept d s (writeEntry s e k p i x) := by
  refine .of_regs (congrArg EchoSt.meas (?_ : echo (writeEntry s e k p i x) d = echo s d)) fun o => ?_
  · apply writeEntry_inv (φ := fun s => echo s d) (hU := rfl) <;> exact fun _ _ => rfl
  · exact (writeEntry_keeps (.refl ..)).regs o

theorem measKept_nozRecord (e k ty c i : Nat) (w : Word) (f : Nat) : MeasKept d s (nozRecord s e k ty c i w f) := by
  refine .of_regs (congrArg EchoSt.meas (?_ : echo (nozRecord s e k ty c i w f) d = echo s d)) fun o => ?_
  · apply nozRecord_inv (φ := fun s => echo s d) (hU := rfl) <;> exact fun _ _ => rfl
  · exact (nozRecord_keeps (echo_apart d .chuteGlobal (by decide)) (echo_apart d .chute (by decide)) (.refl ..)).regs o

theorem measKept_resultRecord (e : Nat) (m : Meas) (v : Verd) : MeasKept d s (resultRecord s e m v) := by
  refine .of_regs (congrArg EchoSt.meas (?_ : echo (resultRecord s e m v) d = echo s d)) fun o => ?_
  · apply resultRecord_inv (φ := fun s => echo s d) (hU := rfl) <;> exact fun _ _ => rfl
  · exact (resultRecord_keeps (echo_apart d .chuteGlobal (by decide)) (echo_apart d .chute (by decide)) (.refl ..)).regs o

theorem measKept_trimStep (k i : Nat) (x : NozEntry) (n : Nat) : MeasKept d s (trimStep s d k i x n).2 := by
  unfold trimStep
  extract_lets c step o q h o2 t
  split
  · exact .refl
  · split
    · exact .refl
    · split
      · exact ((measKept_nozRecord ..).trans (measKept_wr _ _ _ (by decide) (by decide))).trans (measKept_raise ..)
      · split
        · exact (measKept_nozRecord ..).trans (measKept_raise ..)
        · exact .refl

theorem measKept_applyValid (k i : Nat) (x : NozEntry) (v : Verd) : MeasKept d s (applyValid s d k i x v).2 := by
  unfold applyValid
  extract_lets c x1 x2 sh x3
  split
  next x4 ch h =>
  extract_lets s1
  have h1 : MeasKept d s s1 := by
    unfold s1
    split
    · exact ((measKept_nozRecord ..).trans (measKept_wr _ _ _ (by decide) (by decide))).trans (measKept_raise ..)
    · exact .refl
  split
  · exact h1
  · exact h1.trans (measKept_trimStep ..)

theorem measKept_sweepNext (b : Bool) : MeasKept d s (sweepNext s d b) := by
  unfold sweepNext
  extract_lets p k i off s1 x s2
  have h1 : MeasKept d s s1 := measKept_wr _ _ _ (by unfold off; split <;> decide) (by unfold off; split <;> decide)
  have h2 : MeasKept d s s2 := h1.trans (measKept_setEcho _ _ _ rfl)
  split
  · exact (h2.trans (measKept_wr _ _ _ (by decide) (by decide))).trans (measKept_raise ..)
  · exact h2.trans (measKept_wr _ _ _ (by decide) (by decide))

theorem measKept_sweepResult (m : Meas) (v : Verd) : MeasKept d s (sweepResult s d m v) := by
  unfold sweepResult
  extract_lets p k
  split
  · rename_i x src sw s1 h
    have h1 : MeasKept d s s1 := measKept_setEcho _ _ _ rfl
    split
    · exact h1
    · split
      · split
        next o s2 ho =>
        have h2 : MeasKept d s s2 := by
          have := h1.trans (measKept_readEntry s1 d d m.ptr m.idx)
          rwa [ho] at this
        split
        · exact h2.trans (measKept_sweepNext ..)
        · next e =>
          extract_lets n s3 s4
          have h3 : MeasKept d s s3 := h2.trans (measKept_writeEntry ..)
          have h4 : MeasKept d s s4 := by
            unfold s4
            split
            · exact h3.trans (measKept_nozRecord ..)
            · exact h3
          exact h4.trans (measKept_sweepNext ..)
      · exact h1.trans (measKept_sweepNext ..)
  · exact .refl

theorem measKept_judge (m : Meas) (x : NozEntry) (base win : List Nat) : MeasKept d s (judge s d m x base win).2 := by
  refine .of_regs (congrArg EchoSt.meas (?_ : echo (judge s d m x base win).2 d = echo s d)) fun o => ?_
  · apply judge_inv (φ := fun s => echo s d) (hU := rfl)
    exact fun _ _ => rfl
  · exact (judge_keeps (.refl ..)).regs o

/-- The entry at a table place as it stands in memory. -/
def storedEntry (s : State) (d ptr i : Nat) : NozEntry :=
  ⟨(List.range 8).map fun w => rawWord s (lodeAddr d (nozAddr ptr i + w))⟩

theorem readEntry_good (ptr i : Nat) (h : s.ecc = []) : readEntry s d ptr i = (some (storedEntry s d ptr i), s) := by
  unfold readEntry
  rw [readWords_good h]
  rfl

/-- A result whose entry can be read counts as valid or as invalid. -/
def CountedOnce (d : Nat) (s t : State) : Prop :=
  (rd t (pgEcho d) Off.MEAS_CNT = inc24 (rd s (pgEcho d) Off.MEAS_CNT) ∧
      rd t (pgEcho d) Off.INVALID_CNT = rd s (pgEcho d) Off.INVALID_CNT) ∨
    (rd t (pgEcho d) Off.INVALID_CNT = inc24 (rd s (pgEcho d) Off.INVALID_CNT) ∧
      rd t (pgEcho d) Off.MEAS_CNT = rd s (pgEcho d) Off.MEAS_CNT)

variable {s d} in
theorem CountedOnce.kept {u v : State} (h : CountedOnce d s t) (h1 : MeasKept d u s) (h2 : MeasKept d t v) : CountedOnce d u v := by
  unfold CountedOnce
  rwa [h2.good, h2.bad, ← h1.good, ← h1.bad]

/-- What follows the judgement `v` of a measurement of entry `x` in the state `s2`. -/
def judged (d : Nat) (m : Meas) (x : NozEntry) (v : Verd) (s2 : State) : State :=
  let good := decide (v.cls ≠ 7) || (m.cap && decide (v.reason = 3))
  let s3 := if good then count s2 (pgEcho d) Off.MEAS_CNT
    else raise (count s2 (pgEcho d) Off.INVALID_CNT) (pgEcho d) 5
  let s4 := resultRecord s3 d m v
  if m.cap then (if good then sweepResult s4 d m v else s4)
  else if v.cls = 7 then writeEntry s4 d m.ctx m.ptr m.idx (applyInvalid s4 x v)
  else
    let y := applyValid s4 d m.ctx m.idx x v
    sweepResult (writeEntry y.2 d m.ctx m.ptr m.idx y.1) d m v

theorem echoApply_good (m : Meas) (base win : List Nat) (he : s.ecc = []) : echoApply s d m base win =
    judged d m (storedEntry s d m.ptr m.idx) (judge s d m (storedEntry s d m.ptr m.idx) base win).1
      (judge s d m (storedEntry s d m.ptr m.idx) base win).2 := by
  unfold echoApply
  rw [readEntry_good _ _ _ _ he]
  rfl

theorem echoApply_spec (m : Meas) (base win : List Nat) (he : s.ecc = []) :
    (echo (echoApply s d m base win) d).meas = (echo s d).meas ∧ CountedOnce d s (echoApply s d m base win) := by
  rw [echoApply_good _ _ _ _ _ he]
  have h2 := measKept_judge s d m (storedEntry s d m.ptr m.idx) base win
  generalize (judge s d m (storedEntry s d m.ptr m.idx) base win).1 = v
  generalize (judge s d m (storedEntry s d m.ptr m.idx) base win).2 = s2 at h2
  unfold judged
  extract_lets good s3 s4
  obtain ⟨c1, c2⟩ : (echo s3 d).meas = (echo s2 d).meas ∧ CountedOnce d s2 s3 := by
    unfold s3
    split
    · exact ⟨rfl, .inl ⟨rd_wr_same .., rd_wr_off _ _ _ _ _ _ (by decide)⟩⟩
    · have hr := measKept_raise (count s2 (pgEcho d) Off.INVALID_CNT) d 5
      exact ⟨hr.meas, .inr ⟨hr.bad.trans (rd_wr_same ..), hr.good.trans (rd_wr_off _ _ _ _ _ _ (by decide))⟩⟩
  have h4 : MeasKept d s3 s4 := measKept_resultRecord ..
  have fin (t : State) (ht : MeasKept d s4 t) : (echo t d).meas = (echo s d).meas ∧ CountedOnce d s t :=
    ⟨ht.meas.trans (h4.meas.trans (c1.trans h2.meas)), c2.kept h2 (h4.trans ht)⟩
  split
  · split
    · exact fin _ (measKept_sweepResult ..)
    · exact fin _ .refl
  · split
    · exact fin _ (measKept_writeEntry ..)
    · exact fin _ (((measKept_applyValid ..).trans (measKept_writeEntry ..)).trans (measKept_sweepResult ..))

variable {s d} in
theorem exec_echoResult {m : Meas} {rest : List Meas} {base win : List Nat} (hm : (echo s d).meas = m :: rest)
    (hb : base.length = 8) (hw : win.length = m.len) (hv : ∀ v ∈ base ++ win, v < 4096) :
    exec (.echoResult d base win) s = .next (echoApply (setEcho s d { echo s d with meas := rest }) d m base win) := by
  show execEchoResult d base win s = _
  unfold execEchoResult
  rw [hm]
  exact if_pos ⟨hb, hw, List.all_eq_true.2 fun v h => decide_eq_true (hv v h)⟩

/-! ### Sweeps (R214) -/

variable {s d} {r : Req}

theorem exec_sweepStart (h : Taken s r (pgEcho d) Off.SWEEP_CTRL) :
    exec (.sweepStart r d) s = .next (sweepStart ⟨clsOn r (pgEcho d), r.rid⟩ d s) := by
  refine congrArg Host.Outcome.next ((guardedWrite_of_taken h _).trans ?_)
  rw [touchSession_of_not_sec]
  rfl

theorem exec_sweepAbort (h : Taken s r (pgEcho d) Off.SWEEP_CTRL) : exec (.sweepAbort r d) s = .next (sweepAbort d s) := by
  refine congrArg Host.Outcome.next ((guardedWrite_of_taken h _).trans ?_)
  rw [touchSession_of_not_sec]
  rfl

/-- The status of a sweep that ends or is refused. -/
theorem sweepStat_fields (w : Word) {st c : Nat} (hs : st < 8) (hc : c < 16) :
    fld (setFld (setFld w 0 3 st) 4 4 c) 0 3 = st ∧ fld (setFld (setFld w 0 3 st) 4 4 c) 4 4 = c := by
  refine ⟨?_, (fld_setFld _ _ _ _ (by decide)).trans (Nat.mod_eq_of_lt hc)⟩
  rw [fld_setFld_apart _ _ _ _ _ _ (by decide), fld_setFld _ _ _ _ (by decide)]
  exact Nat.mod_eq_of_lt hs

end

end Sys2Proof.Machine

namespace Sys2Proof.Machine
open Sys2Proof.Laws

/-! ### Nozzle commands (R226) -/

section
variable (d w : Nat)

/-- One word of a run of lode words. -/
def lodeStep (s : State) (x : Word × Nat) : State := if w + x.2 < 2097152 then wrWord s (lodeAddr d (w + x.2)) x.1 else s

theorem lodeWrites_eq (s : State) (vs : List Word) : lodeWrites s d w vs = each (vs.zipIdx 0) s (lodeStep d w) := rfl

/-- A run of lode words within the lode leaves the bytes before and behind it. -/
theorem memGet_lodeSteps (x : Nat) (vs : List Word) : ∀ (s : State) (k : Nat), w + k + vs.length ≤ 2097152 →
    x < lodeAddr d (w + k) ∨ lodeAddr d (w + k + vs.length) ≤ x → memGet (each (vs.zipIdx k) s (lodeStep d w)).mem x = memGet s.mem x := by
  induction vs with
  | nil => exact fun _ _ _ _ => rfl
  | cons v vs ih =>
    intro s k hn h
    rw [List.length_cons] at h hn
    unfold lodeAddr at h ih
    have hstep : lodeStep d w s (v, k) = wrWord s (lodeAddr d (w + k)) v := if_pos (by show w + k < _; omega)
    show memGet (each (vs.zipIdx (k + 1)) (lodeStep d w s (v, k)) (lodeStep d w)).mem x = _
    rw [hstep, ih _ _ (by omega) (by omega)]
    exact memGet_memSet3 _ _ _ _ (by unfold lodeAddr; omega)

/-- Each word of the run is stored. -/
theorem rawWord_lodeSteps (vs : List Word) : ∀ (s : State) (k i : Nat), w + k + vs.length ≤ 2097152 → ∀ h : i < vs.length,
    rawWord (each (vs.zipIdx k) s (lodeStep d w)) (lodeAddr d (w + k + i)) = vs[i] := by
  induction vs with
  | nil => exact fun _ _ _ _ h => absurd h (Nat.not_lt_zero _)
  | cons v vs ih =>
    intro s k i hn h
    rw [List.length_cons] at hn h
    have hstep : lodeStep d w s (v, k) = wrWord s (lodeAddr d (w + k)) v := if_pos (by show w + k < _; omega)
    show rawWord (each (vs.zipIdx (k + 1)) (lodeStep d w s (v, k)) (lodeStep d w)) _ = _
    cases i with
    | zero =>
      have hm (j : Nat) (hj : j < 3) : memGet (each (vs.zipIdx (k + 1)) (lodeStep d w s (v, k)) (lodeStep d w)).mem
          (lodeAddr d (w + k + 0) + j) = memGet (memSet3 s.mem (lodeAddr d (w + k)) v) (lodeAddr d (w + k) + j) := by
        rw [memGet_lodeSteps _ _ _ _ _ _ (by omega) (.inl (by unfold lodeAddr; omega)), hstep]
        rfl
      have h0 := hm 0 (by decide)
      have h1 := hm 1 (by decide)
      have h2 := hm 2 (by decide)
      simp only [Nat.add_zero] at h0 h1 h2 ⊢
      rw [rawWord, h0, h1, h2]
      exact bytesWord_memSet3 ..
    | succ i =>
      rw [List.getElem_cons_succ, show w + k + (i + 1) = w + (k + 1) + i by omega]
      exact ih _ _ _ (by omega) (Nat.lt_of_succ_lt_succ h)

end

section
variable {s : State} {d i : Nat}

/-- The words of an entry written back, and the bytes around it. -/
theorem lodeWrites_entry (s : State) (d ptr i : Nat) (y : NozEntry) (hy : y.w.length = 8) (h : nozAddr ptr i + 8 ≤ 2097152) :
    (∀ w < 8, rawWord (lodeWrites s d (nozAddr ptr i) y.w) (lodeAddr d (ptr + 8 * i + w)) = y.at w) ∧
    OtherBytes s (lodeWrites s d (nozAddr ptr i) y.w) (lodeAddr d (ptr + 8 * i + 0)) 24 := by
  refine ⟨fun w hw => ?_, fun x hx => ?_⟩
  · have hlen : w < y.w.length := hy.symm ▸ hw
    have haddr : ptr + 8 * i + w = nozAddr ptr i + 0 + w := by rw [nozAddr, Nat.add_zero]
    rw [haddr, NozEntry.at, List.getD_eq_getElem?_getD, List.getElem?_eq_getElem hlen, Option.getD_some, lodeWrites_eq,
      rawWord_lodeSteps d (nozAddr ptr i) y.w s 0 w (by omega) hlen]
  · rw [lodeWrites_eq]
    have hout : x < lodeAddr d (nozAddr ptr i + 0) ∨ lodeAddr d (nozAddr ptr i + 0 + y.w.length) ≤ x := by
      have hn : nozAddr ptr i = ptr + 8 * i := rfl
      have hl (w : Nat) : lodeAddr d w = d * 2 ^ 24 + 0x400000 + 3 * w := rfl
      rw [hl] at hx ⊢
      rw [hl]
      omega
    rw [memGet_lodeSteps d (nozAddr ptr i) x y.w s 0 (by omega) hout]

theorem mem_writeEntry (s : State) (d k ptr i : Nat) (x : NozEntry) :
    (writeEntry s d k ptr i x).mem = (lodeWrites s d (nozAddr ptr i) x.w).mem := by
  unfold writeEntry
  dsimp only
  split <;> rfl

theorem mem_nozRecord (s : State) (d k t c i : Nat) (w : Word) (f : Nat) : (nozRecord s d k t c i w f).mem = s.mem := by
  apply nozRecord_inv (φ := State.mem) (hU := rfl) <;> exact fun _ _ => rfl

theorem nzResult_done (s : State) (d op : Nat) (h : op < 2 ^ 16) :
    rf (nzResult s d op 1) (pgEcho d) Off.NZ_CMD_STAT 16 8 = 1 ∧ (nzResult s d op 1).mem = s.mem := by
  refine ⟨?_, rfl⟩
  rw [nzResult, if_pos rfl, rf, rd_wr_same, fld, word, BitVec.toNat_ofNat]
  omega

/-- A nozzle command whose argument is listed writes its entry back and answers DONE. -/
theorem nzCmd_done {r : Req} {op arg : Nat} {y : NozEntry} (hop : op < 2 ^ 16) (h : NzTaken s r d i)
    (hl : (nzEffect op arg ⟨List.replicate 8 0#24⟩).isNone = false)
    (hy : nzEffect op arg (storedEntry s d (af s d (rf s (pgEcho d) Off.NZ_SEL 16 8) 41 0 21) i) = some y) :
    rf (nzCmd d op arg s) (pgEcho d) Off.NZ_CMD_STAT 16 8 = 1 ∧
      (nzCmd d op arg s).mem = (lodeWrites s d (nozAddr (af s d (rf s (pgEcho d) Off.NZ_SEL 16 8) 41 0 21) i) y.w).mem := by
  obtain ⟨-, hm, he, hk, rfl, hr, ht⟩ := h
  obtain ⟨u, hu, hmem⟩ : ∃ u, nzCmd d op arg s = nzResult u d op 1 ∧ u.mem = (writeEntry s d (rf s (pgEcho d) Off.NZ_SEL 16 8)
      (af s d (rf s (pgEcho d) Off.NZ_SEL 16 8) 41 0 21) (rf s (pgEcho d) Off.NZ_SEL 0 12) y).mem := by
    unfold nzCmd
    extract_lets k i
    rw [if_neg (not_lt.2 hm), if_neg (not_le.2 hk), if_neg (not_lt.2 hr), if_neg (by rw [ht]; decide)]
    rw [if_neg (by rw [hl]; decide), readEntry_good _ _ _ _ he]
    dsimp only
    rw [show nzEffect op arg (storedEntry s d _ i) = some y from hy, Option.getD_some]
    refine ⟨_, rfl, ?_⟩
    split
    · exact mem_nozRecord ..
    · split
      · exact mem_nozRecord ..
      · rfl
  obtain ⟨h1, h2⟩ := nzResult_done u d op hop
  rw [hu]
  exact ⟨h1, h2.trans (hmem.trans (mem_writeEntry ..))⟩

/-! The words of an entry after a command. -/

theorem len_set (x : NozEntry) (i lo n v : Nat) : (x.set i lo n v).w.length = x.w.length := List.length_set ..

theorem at_set_same (x : NozEntry) (i lo n v : Nat) (h : i < x.w.length) : (x.set i lo n v).at i = setFld (x.at i) lo n v := by
  unfold NozEntry.set
  generalize setFld (x.at i) lo n v = u
  rw [NozEntry.at, List.getD_eq_getElem?_getD, List.getElem?_set_self h, Option.getD_some]

theorem at_set_other (x : NozEntry) (i j lo n v : Nat) (h : i ≠ j) : (x.set i lo n v).at j = x.at j := by
  rw [NozEntry.at, NozEntry.set, List.getD_eq_getElem?_getD, List.getElem?_set_ne h, NozEntry.at, List.getD_eq_getElem?_getD]

theorem at_setW_same (x : NozEntry) (i : Nat) (v : Word) (h : i < x.w.length) : (x.setW i v).at i = v := by
  rw [NozEntry.at, NozEntry.setW, List.getD_eq_getElem?_getD, List.getElem?_set_self h, Option.getD_some]

theorem at_setW_other (x : NozEntry) (i j : Nat) (v : Word) (h : i ≠ j) : (x.setW i v).at j = x.at j := by
  rw [NozEntry.at, NozEntry.setW, List.getD_eq_getElem?_getD, List.getElem?_set_ne h, NozEntry.at, List.getD_eq_getElem?_getD]

theorem len_storedEntry (s : State) (d ptr i : Nat) : (storedEntry s d ptr i).w.length = 8 := by
  rw [storedEntry, List.length_map, List.length_range]

theorem at_storedEntry (s : State) (d ptr i : Nat) {w : Nat} (h : w < 8) :
    (storedEntry s d ptr i).at w = rawWord s (lodeAddr d (ptr + 8 * i + w)) := by
  rw [NozEntry.at, storedEntry, List.getD_eq_getElem?_getD, List.getElem?_map, List.getElem?_range h]
  rfl

/-- A table entry within a table of the lode. -/
theorem entry_in_lode {k : Nat} (hr : i ≤ (ctxRange s d k).2) (ht : tableBad s d k = false) : nozAddr (af s d k 41 0 21) i + 8 ≤ 2097152 := by
  have h : ¬2097152 < af s d k 41 0 21 + 8 * ((ctxRange s d k).2 + 1) := of_decide_eq_false ht
  have hn (p : Nat) : nozAddr p i = p + 8 * i := rfl
  rw [hn]
  omega

/-- A listed nozzle command answers DONE, stores the words of the entry it makes and leaves every other byte. -/
theorem nzCmd_stores {r : Req} {op arg : Nat} {y : NozEntry} (hop : op < 2 ^ 16) (h : NzTaken s r d i)
    (hl : (nzEffect op arg ⟨List.replicate 8 0#24⟩).isNone = false)
    (hy : nzEffect op arg (storedEntry s d (af s d (rf s (pgEcho d) Off.NZ_SEL 16 8) 41 0 21) i) = some y) (hlen : y.w.length = 8) :
    rf (nzCmd d op arg s) (pgEcho d) Off.NZ_CMD_STAT 16 8 = 1 ∧
      (∀ w < 8, rawWord (nzCmd d op arg s) (nzWord s d i w) = y.at w) ∧ OtherBytes s (nzCmd d op arg s) (nzWord s d i 0) 24 := by
  obtain ⟨h1, h2⟩ := nzCmd_done hop h hl hy
  obtain ⟨-, -, -, -, -, hr, ht⟩ := h
  obtain ⟨h3, h4⟩ := lodeWrites_entry s d _ i y hlen (entry_in_lode hr ht)
  refine ⟨h1, fun w hw => ?_, fun x hx => ?_⟩
  · rw [rawWord, h2]
    exact h3 w hw
  · rw [h2]
    exact h4 x hx

/-! The six commands. -/

/-- A taken nozzle command. -/
theorem nzTaken_next {r : Req} {eff : State → State} (h : NzTaken s r d i) : guardedWrite s r (pgEcho d) Off.NZ_CMD eff = eff s := by
  refine (guardedWrite_of_taken h.1 _).trans ?_
  rw [touchSession_of_not_sec]
  rfl

theorem setState_spec {r : Req} (h : NzTaken s r d i) {arg : Nat} (ha : arg % 8 ≠ 7) :
    Completes (.setState r d arg) s fun t => rf t (pgEcho d) Off.NZ_CMD_STAT 16 8 = 1 ∧
      fld (rawWord t (nzWord s d i 0)) 21 3 = arg % 8 ∧ OtherBytes s t (nzWord s d i 0) 24 := by
  refine .of (congrArg Host.Outcome.next (nzTaken_next h)) ?_
  have hlt : ¬arg % 16 % 8 = 7 := by omega
  have hl := len_storedEntry s d (af s d (rf s (pgEcho d) Off.NZ_SEL 16 8) 41 0 21) i
  obtain ⟨h1, h2, h3⟩ := nzCmd_stores (op := 1) (arg := arg % 16) (by decide) h (by rw [nzEffect, if_neg hlt]; rfl) (if_neg hlt) (by rw [len_set, len_set, len_set, hl])
  refine ⟨h1, ?_, h3⟩
  rw [h2 0 (by decide), at_set_same _ _ _ _ _ (by rw [len_set, len_set, hl]; decide), at_set_same _ _ _ _ _ (by rw [len_set, hl]; decide),
    at_set_same _ _ _ _ _ (by rw [hl]; decide), fld_setFld_apart _ _ _ _ _ _ (by decide), fld_setFld_apart _ _ _ _ _ _ (by decide),
    fld_setFld _ _ _ _ (by decide)]
  omega

theorem setState_refused {r : Req} (h : NzTaken s r d i) {arg : Nat} (ha : arg % 8 = 7) :
    Completes (.setState r d arg) s fun t => rf t (pgEcho d) Off.NZ_CMD_STAT 16 8 = 0x11 ∧
      t.mem = s.mem ∧ rb t (pgEcho d) Off.EVT_LAT 8 = true := by
  refine .of (congrArg Host.Outcome.next (nzTaken_next h)) ?_
  obtain ⟨htk, hm, he, hk, rfl, hr, ht⟩ := h
  have hres : nzCmd d 1 (arg % 16) s = nzResult s d 1 0x11 := by
    unfold nzCmd
    extract_lets k i
    rw [if_neg (not_lt.2 hm), if_neg (not_le.2 hk), if_neg (not_lt.2 hr), if_neg (by rw [ht]; decide)]
    exact if_pos (by rw [nzEffect, if_pos (by omega)]; rfl)
  rw [hres, nzResult, if_neg (by decide)]
  refine ⟨?_, ?_, rb_raise_same _ _ _ htk.present (by decide)⟩
  · rw [rf, rd_raise_off _ _ _ _ _ (by decide), rd_wr_same]
    rfl
  · apply raise_inv (φ := State.mem) (hU := rfl) <;> exact fun _ _ => rfl

theorem setTrim_spec {r : Req} (h : NzTaken s r d i) (arg : Nat) :
    Completes (.setTrim r d arg) s fun t => rf t (pgEcho d) Off.NZ_CMD_STAT 16 8 = 1 ∧
      fld (rawWord t (nzWord s d i 0)) 12 2 = arg % 4 ∧ fld (rawWord t (nzWord s d i 0)) 10 2 = arg % 4 ∧
      OtherBytes s t (nzWord s d i 0) 24 := by
  refine .of (congrArg Host.Outcome.next (nzTaken_next h)) ?_
  have hl := len_storedEntry s d (af s d (rf s (pgEcho d) Off.NZ_SEL 16 8) 41 0 21) i
  obtain ⟨h1, h2, h3⟩ := nzCmd_stores (op := 2) (arg := arg % 16) (by decide) h rfl rfl (by rw [len_set, len_set, len_set, hl])
  refine ⟨h1, ?_, ?_, h3⟩
  · rw [h2 0 (by decide), at_set_same _ _ _ _ _ (by rw [len_set, len_set, hl]; decide), at_set_same _ _ _ _ _ (by rw [len_set, hl]; decide),
      at_set_same _ _ _ _ _ (by rw [hl]; decide), fld_setFld_apart _ _ _ _ _ _ (by decide), fld_setFld_apart _ _ _ _ _ _ (by decide),
      fld_setFld _ _ _ _ (by decide)]
    omega
  · rw [h2 0 (by decide), at_set_same _ _ _ _ _ (by rw [len_set, len_set, hl]; decide), at_set_same _ _ _ _ _ (by rw [len_set, hl]; decide),
      fld_setFld_apart _ _ _ _ _ _ (by decide), fld_setFld _ _ _ _ (by decide)]
    omega

theorem clearHist_spec {r : Req} (h : NzTaken s r d i) :
    Completes (.clearHist r d) s fun t => rf t (pgEcho d) Off.NZ_CMD_STAT 16 8 = 1 ∧ rawWord t (nzWord s d i 6) = 0#24 ∧
      fld (rawWord t (nzWord s d i 0)) 14 4 = 0 ∧ OtherBytes s t (nzWord s d i 0) 24 := by
  refine .of (congrArg Host.Outcome.next (nzTaken_next h)) ?_
  have hl := len_storedEntry s d (af s d (rf s (pgEcho d) Off.NZ_SEL 16 8) 41 0 21) i
  obtain ⟨h1, h2, h3⟩ := nzCmd_stores (op := 3) (arg := 0) (by decide) h rfl rfl
    ((List.length_set ..).trans (by rw [len_set, len_set, len_set, len_set, hl]))
  refine ⟨h1, ?_, ?_, h3⟩
  · rw [h2 6 (by decide), at_setW_same _ _ _ (by rw [len_set, len_set, len_set, len_set, hl]; decide)]
  · rw [h2 0 (by decide), at_setW_other _ _ _ _ (by decide), at_set_other _ _ _ _ _ _ (by decide),
      at_set_same _ _ _ _ _ (by rw [len_set, len_set, hl]; decide), at_set_same _ _ _ _ _ (by rw [len_set, hl]; decide),
      fld_setFld_apart _ _ _ _ _ _ (by decide), fld_setFld _ _ _ _ (by decide), Nat.zero_mod]

/-- A command that sets one field of word 0. -/
theorem nzField_spec {r : Req} {op arg lo v : Nat} (hop : op < 2 ^ 16) (h : NzTaken s r d i)
    (hy : ∀ x, nzEffect op arg x = some (x.set 0 lo 1 v)) :
    rf (nzCmd d op arg s) (pgEcho d) Off.NZ_CMD_STAT 16 8 = 1 ∧
      rawWord (nzCmd d op arg s) (nzWord s d i 0) = setFld (rawWord s (nzWord s d i 0)) lo 1 v ∧
      OtherBytes s (nzCmd d op arg s) (nzWord s d i 0) 24 := by
  have hl := len_storedEntry s d (af s d (rf s (pgEcho d) Off.NZ_SEL 16 8) 41 0 21) i
  obtain ⟨h1, h2, h3⟩ := nzCmd_stores hop h (by rw [hy]; rfl) (hy _) (by rw [len_set, hl])
  refine ⟨h1, ?_, h3⟩
  rw [h2 0 (by decide), at_set_same _ _ _ _ _ (by rw [hl]; decide), at_storedEntry _ _ _ _ (by decide)]

/-- The start of a sweep by its checks in order (R214). -/
theorem sweepStart_spec {r : Req} {k : Nat} (hn : rf s (pgEcho d) Off.SWEEP_STAT 0 3 ≠ 1) (hk : k = rf s (pgEcho d) Off.SWEEP_CFG 16 8) :
    (modeOf s d ≠ 3 → rf (sweepStart r d s) (pgEcho d) Off.SWEEP_STAT 0 3 = 3 ∧ rf (sweepStart r d s) (pgEcho d) Off.SWEEP_STAT 4 4 = 1) ∧
    (modeOf s d = 3 → (ctx s d k).st ≠ .printing →
      rf (sweepStart r d s) (pgEcho d) Off.SWEEP_STAT 0 3 = 3 ∧ rf (sweepStart r d s) (pgEcho d) Off.SWEEP_STAT 4 4 = 2) ∧
    (modeOf s d = 3 → (ctx s d k).st = .printing ∧ persOf s d (cPort s d k) ≠ 2 ∧ bit (aw s d k 40) 0 = true ∧
        (ctx s d k).ntBad = false → capturing s d = false ∨ r.cls = .firmware →
      rf (sweepStart r d s) (pgEcho d) Off.SWEEP_STAT 0 3 = 1 ∧ rd (sweepStart r d s) (pgEcho d) Off.SWEEP_DONE = 0#24 ∧
        rd (sweepStart r d s) (pgEcho d) Off.SWEEP_MISS = 0#24) ∧
    (modeOf s d = 3 → (ctx s d k).st = .printing ∧ persOf s d (cPort s d k) ≠ 2 ∧ bit (aw s d k 40) 0 = true ∧
        (ctx s d k).ntBad = false → capturing s d = true → r.cls ≠ .firmware →
      rf (sweepStart r d s) (pgEcho d) Off.SWEEP_STAT 0 3 = 3 ∧ rf (sweepStart r d s) (pgEcho d) Off.SWEEP_STAT 4 4 = 3) := by
  subst hk
  have refused (u : State) {c : Nat} (hc : c < 16) (h : sweepStart r d s =
      wr u (pgEcho d) Off.SWEEP_STAT (setFld (setFld (rd u (pgEcho d) Off.SWEEP_STAT) 0 3 3) 4 4 c)) :
      rf (sweepStart r d s) (pgEcho d) Off.SWEEP_STAT 0 3 = 3 ∧ rf (sweepStart r d s) (pgEcho d) Off.SWEEP_STAT 4 4 = c := by
    rw [h, rf, rf, rd_wr_same]
    exact sweepStat_fields _ (by decide) hc
  refine ⟨fun hm => refused s (by decide) ?_, fun hm hc => refused s (by decide) ?_, fun hm hc hcap => ?_, fun hm hc hcap hf =>
    refused (logErr s r (pgEcho d) Off.SWEEP_CTRL true 0x40) (by decide) ?_⟩
  · exact (if_neg hn).trans (if_pos hm)
  · exact (if_neg hn).trans ((if_neg (not_not.2 hm)).trans (if_pos (.inl hc)))
  · obtain ⟨c1, c2, c3, c4⟩ := hc
    have h : sweepStart r d s = setEcho (wr (wr (wr s (pgEcho d) Off.SWEEP_STAT (word 1)) (pgEcho d) Off.SWEEP_DONE 0#24)
        (pgEcho d) Off.SWEEP_MISS 0#24) d { echo s d with sweep := { port := cPort s d (rf s (pgEcho d) Off.SWEEP_CFG 16 8) } } :=
      (if_neg hn).trans ((if_neg (not_not.2 hm)).trans ((if_neg (by simp [c1, c2, c3, c4])).trans (if_neg fun hx => by
        obtain hcap | hcap := hcap
        · exact absurd hx.1 (by rw [hcap]; decide)
        · exact hx.2 hcap)))
    rw [h]
    refine ⟨?_, ?_, rd_wr_same ..⟩
    · exact (congrArg (fld · 0 3) ((rd_wr_off _ _ _ _ _ _ (by decide)).trans ((rd_wr_off _ _ _ _ _ _ (by decide)).trans (rd_wr_same ..)))).trans rfl
    · exact (rd_wr_off _ _ _ _ _ _ (by decide)).trans (rd_wr_same ..)
  · obtain ⟨c1, c2, c3, c4⟩ := hc
    exact (if_neg hn).trans ((if_neg (not_not.2 hm)).trans ((if_neg (by simp [c1, c2, c3, c4])).trans (if_pos ⟨hcap, hf⟩)))

end

/-- Settles O28: a result is judged once and counted once; a sweep starts by its checks in order; a nozzle command writes back the
entry it makes of the stored one. -/
theorem echoAndNozzles : Obligations.EchoAndNozzles := by
  unfold Obligations.EchoAndNozzles
  refine ⟨?_, ?_, ?_, ?_⟩
  · intro s d base win he hb hv m rest hm hw
    refine .of (exec_echoResult hm hb hw hv) ?_
    obtain ⟨h1, h2⟩ := echoApply_spec (setEcho s d { echo s d with meas := rest }) d m base win he
    exact ⟨h1.trans (by rw [echo_setEcho]), h2⟩
  · intro s r d k ht hn hk
    obtain ⟨h1, h2, h3, h4⟩ := sweepStart_spec (r := ⟨clsOn r (pgEcho d), r.rid⟩) hn hk
    exact ⟨fun m1 m2 m3 m4 m5 => .of (exec_sweepStart ht) ⟨h3 m1 ⟨m2, m3, m4, m5⟩, h4 m1 ⟨m2, m3, m4, m5⟩⟩,
      fun m1 m2 => .of (exec_sweepStart ht) (h2 m1 m2), fun m1 => .of (exec_sweepStart ht) (h1 m1)⟩
  · intro s r d ht hs
    refine .of (exec_sweepAbort ht) ?_
    obtain ⟨h1, h2⟩ := sweepStat_fields (rd s (pgEcho d) Off.SWEEP_STAT) (st := 3) (c := 4) (by decide) (by decide)
    have hreg : rd (sweepAbort d s) (pgEcho d) Off.SWEEP_STAT = setFld (setFld (rd s (pgEcho d) Off.SWEEP_STAT) 0 3 3) 4 4 4 := by
      rw [sweepAbort, if_pos hs]
      exact (rd_raise_off _ _ _ _ _ (by decide)).trans (rd_wr_same ..)
    refine ⟨(congrArg (fld · 0 3) hreg).trans h1, (congrArg (fld · 4 4) hreg).trans h2, ?_⟩
    rw [sweepAbort, if_pos hs]
    exact rb_raise_same _ _ _ ht.present (by decide)
  · intro s r d i h
    refine ⟨fun arg ha => setState_spec h ha, fun arg ha => setState_refused h ha, setTrim_spec h, clearHist_spec h, ?_, ?_, fun arg => ?_⟩
    · exact .of (congrArg Host.Outcome.next (nzTaken_next h)) (nzField_spec (by decide) h fun _ => rfl)
    · exact .of (congrArg Host.Outcome.next (nzTaken_next h)) (nzField_spec (by decide) h fun _ => rfl)
    · exact .of (congrArg Host.Outcome.next (nzTaken_next h)) (nzField_spec (by decide) h fun _ => rfl)

end Sys2Proof.Machine

namespace Sys2Proof.Machine
open Sys2Proof.Laws

/-! ### What a fence leaves of a serial encoder channel (R101, R110, R406) -/

theorem enc_apart {d c : Nat} (hc : c < 8) (k : Kind) (h : .enc ≠ k) : k.Apart (pgEnc d c) :=
  Kind.apart .enc k (pgKind_pgEnc d hc) h

theorem pgInst_pgEnc {d c : Nat} (hc : c < 8) : pgInst (pgEnc d c) = c := by
  unfold pgInst
  rw [pgKind_pgEnc d hc]
  show (if c < 8 then 0x20 + c else 0xFFFF) - 0x20 = c
  rw [if_pos hc]
  omega

theorem uns_sgn (n v : Nat) (h : v < 2 ^ n) : uns n (sgn n v) = v := by
  have hv : ((v : Int) % 2 ^ n) = v := Int.emod_eq_of_lt (by omega) (by exact_mod_cast h)
  unfold uns sgn
  rw [Nat.mod_eq_of_lt h]
  split
  · rw [hv]
    rfl
  · rw [Int.sub_emod_right, hv]
    rfl

theorem rd48_lt (s : State) (p : Pg) (o : Nat) : rd48 s p o < 2 ^ 48 := by
  have h1 := (rd s p o).isLt
  have h2 := (rd s p (o + 4)).isLt
  unfold rd48 rdN
  omega

section
variable (s : State) {t u : State} {d c : Nat}

/-- What the end of a frame's consequences leave of a serial channel: its due time, its idleness, the count and the status of its
frames, its position and the event of a failed frame. -/
structure SerKept (d c : Nat) (s t : State) : Prop where
  due : (enc t d c).serAt = (enc s d c).serAt
  idle : (enc s d c).serBusy = false → (enc t d c).serBusy = false
  bad : rd t (pgEnc d c) Off.CNT_SER_BAD = rd s (pgEnc d c) Off.CNT_SER_BAD
  stat : rd t (pgEnc d c) Off.SER_STAT = rd s (pgEnc d c) Off.SER_STAT
  pos : rd48 t (pgEnc d c) Off.POS_L = rd48 s (pgEnc d c) Off.POS_L
  evt : rb s (pgEnc d c) Off.EVT_LAT 6 = true → rb t (pgEnc d c) Off.EVT_LAT 6 = true
  clock : t.clock = s.clock

variable {s} in
theorem SerKept.trans (h : SerKept d c s t) (h' : SerKept d c t u) : SerKept d c s u :=
  ⟨h'.due.trans h.due, fun x => h'.idle (h.idle x), h'.bad.trans h.bad, h'.stat.trans h.stat, h'.pos.trans h.pos,
    fun x => h'.evt (h.evt x), h'.clock.trans h.clock⟩

theorem SerKept.refl : SerKept d c s s := ⟨rfl, id, rfl, rfl, rfl, id, rfl⟩

variable {s} in
/-- What changes neither the channel nor its registers. -/
theorem SerKept.of_kept (he : enc t d c = enc s d c) (hr : ∀ o, rd t (pgEnc d c) o = rd s (pgEnc d c) o) (hc : t.clock = s.clock) :
    SerKept d c s t :=
  ⟨by rw [he], by rw [he]; exact id, hr _, hr _, by rw [rd48, rdN, rdN, hr, hr]; rfl, by rw [rb, rb, hr]; exact id, hc⟩

/-- Registers of other offsets. -/
theorem serKept_wr (p : Pg) {o : Nat} (w : Word) (ho : o ∉ [Off.CNT_SER_BAD, Off.SER_STAT, Off.POS_L, Off.POS_L + 4, Off.EVT_LAT]) :
    SerKept d c s (wr s p o w) := by
  simp only [List.mem_cons, List.not_mem_nil, or_false, not_or] at ho
  obtain ⟨h1, h2, h3, h4, h5⟩ := ho
  exact ⟨rfl, id, rd_wr_off _ _ _ _ _ _ h1, rd_wr_off _ _ _ _ _ _ h2, rd48_wr_off _ _ _ _ _ _ h3 h4,
    by rw [rb, rb, rd_wr_off _ _ _ _ _ _ h5]; exact id, rfl⟩

theorem enc_raise (p : Pg) (i e f : Nat) : enc (raise s p i) e f = enc s e f := by
  apply raise_inv (φ := fun s => enc s e f) (hU := rfl) <;> exact fun _ _ => rfl

theorem clock_raise (p : Pg) (i : Nat) : (raise s p i).clock = s.clock := by
  apply raise_inv (φ := State.clock) (hU := rfl) <;> exact fun _ _ => rfl

theorem serKept_raise (p : Pg) (i : Nat) : SerKept d c s (raise s p i) :=
  ⟨by rw [enc_raise], by rw [enc_raise]; exact id, rd_raise_off _ _ _ _ _ (by decide), rd_raise_off _ _ _ _ _ (by decide),
    rd48_raise_off _ _ _ _ _ (by decide) (by decide), rb_raise_mono _ _ _ _ _, clock_raise ..⟩

theorem serKept_setDyn (p : Pg) (i : Nat) (b : Bool) : SerKept d c s (setDyn s p i b) := by
  unfold setDyn
  split
  · extract_lets was s1
    have h1 : SerKept d c s s1 := by
      unfold s1
      cases was != b
      · exact .refl s
      · exact serKept_wr _ _ _ (by decide)
    cases b && !was
    · exact h1
    · exact h1.trans (serKept_raise ..)
  · exact .refl s

/-- A frame in progress that is dropped. -/
theorem serKept_serDrop (e f : Nat) : SerKept d c s (serDrop s e f) := by
  have hdrop : SerKept d c s (setEnc s e f { enc s e f with serBusy := false }) := by
    by_cases h : (e, f) = (d, c)
    · obtain ⟨rfl, rfl⟩ := Prod.mk.inj h
      exact ⟨by rw [enc_setEnc], fun _ => by rw [enc_setEnc], rfl, rfl, rfl, id, rfl⟩
    · exact .of_kept (enc_setEnc_other _ _ _ _ _ _ h) (fun _ => rfl) rfl
  unfold serDrop padB
  split
  · exact hdrop
  · exact hdrop.trans (.of_kept rfl (fun _ => rfl) rfl)

theorem idle_serDrop : (enc (serDrop s d c) d c).serBusy = false := by
  unfold serDrop padB
  split
  · rw [enc_setEnc]
  · exact (congrArg EncSt.serBusy (enc_setEnc ..))

theorem serKept_encSend (e f : Nat) (k : MsgKind) : SerKept d c s (encSend s e f k) := by
  refine .of_kept ?_ (fun o => ?_) ?_
  · apply encSend_inv (φ := fun s => enc s d c) (hU := rfl) <;> exact fun _ _ => rfl
  · exact (encSend_keeps (.refl ..)).regs o
  · apply encSend_inv (φ := State.clock) (hU := rfl) <;> exact fun _ _ => rfl

theorem serKept_encSafe (e f : Nat) : SerKept d c s (encSafe s e f) := by
  unfold encSafe encLost encInvalid
  extract_lets s0
  have h0 : SerKept d c s s0 := by
    refine .of_kept ?_ (fun o => ?_) ?_
    · apply pdUnlock_inv (φ := fun s => enc s d c) (hU := rfl) <;> exact fun _ _ => rfl
    · exact (pdUnlock_keeps (.refl ..)).regs o
    · apply pdUnlock_inv (φ := State.clock) (hU := rfl) <;> exact fun _ _ => rfl
  exact (((h0.trans (serKept_serDrop ..)).trans ((serKept_wr _ _ _ (by decide)).trans (serKept_setDyn ..))).trans
    (serKept_encSend ..)).trans (serKept_raise ..)

theorem encPos_serial (h : encSerial s d c = true) : encPos s d c = sgn 48 (rd48 s (pgEnc d c) Off.POS_L) := by
  have hm : encMode s d c = 3 ∨ encMode s d c = 4 := by simpa [encSerial] using h
  unfold encPos
  rw [if_neg (by omega), if_neg (by omega)]

/-- A serial channel's position is what its registers hold, also when a fence records it. -/
theorem serKept_encSync (h : encSerial s d c = true) : SerKept d c s (encSync s d c) := by
  have hw : SerKept d c s (winSync s d c) := ⟨by rw [winSync, enc_setEnc], fun hb => by rwa [winSync, enc_setEnc], rfl, rfl, rfl, id, rfl⟩
  unfold encSync
  dsimp only
  refine hw.trans ⟨rfl, id, rd_wr48_off _ _ _ _ _ _ (by decide) (by decide), rd_wr48_off _ _ _ _ _ _ (by decide) (by decide), ?_,
    by rw [rb, rb, rd_wr48_off _ _ _ _ _ _ (by decide) (by decide)]; exact id, rfl⟩
  have hpos : encPos (winSync s d c) d c = sgn 48 (rd48 s (pgEnc d c) Off.POS_L) := encPos_serial (winSync s d c) h
  rw [rd48_wr48, hpos, uns_sgn _ _ (rd48_lt ..), Nat.mod_eq_of_lt (rd48_lt ..)]
  rfl

/-- A fence of a serial channel leaves its frames and its position. -/
theorem serKept_fencePage (h : encSerial s d c = true) (hc : c < 8) (r : Nat) : SerKept d c s (fencePage s (pgEnc d c) r) := by
  unfold fencePage
  split
  · next ht =>
    dsimp only
    have hq (ks : List Nat) : SerKept d c s (fenceQuiet s (pgEnc d c) r ks) := by
      unfold fenceQuiet
      extract_lets st was s0 s1 s2 f s3
      rw [if_neg (not_fenced_of_takesFence s ht)]
      have h0 : SerKept d c s s0 := by
        unfold s0
        rw [if_pos (pgKind_pgEnc d hc), pgInst_pgEnc hc]
        exact serKept_encSync s h
      have h1 : SerKept d c s0 s1 := .of_kept rfl (fun _ => rfl) rfl
      have h2 : SerKept d c s s2 := (h0.trans h1).trans (((serKept_wr s1 (o := Off.PAGE_CTRL) _ _ (by decide)).trans
        (serKept_wr (o := Off.PAGE_STAT) _ _ _ (by decide))).trans (serKept_wr (o := Off.PAGE_STAT) _ _ _ (by decide)))
      have hsafe : SerKept d c s3 (pageSafe s3 (pgEnc d c) r ks) := by
        rw [pageSafe, pgKind_pgEnc d hc, pgInst_pgEnc hc]
        exact serKept_encSafe s3 _ _
      refine (((h2.trans ?_).trans hsafe).trans ?_).trans (serKept_raise ..)
      · exact .of_kept rfl (fun o => rd_wr_page _ _ _ _ _ _ (enc_apart hc .fence (by decide) _)) rfl
      · exact .of_kept rfl (fun o => rd_wr_page _ _ _ _ _ _ (enc_apart hc .fence (by decide) _)) rfl
    refine (hq (fenceCtxs s (pgEnc d c))).trans (.of_kept ?_ (fun o => ?_) ?_)
    · apply logRecord_inv (φ := fun s => enc s d c) (hU := rfl) <;> exact fun _ _ => rfl
    · exact (logRecord_keeps (enc_apart hc .fence (by decide)) (enc_apart hc .chuteGlobal (by decide)) (enc_apart hc .chute (by decide))
        (.refl ..)).regs o
    · apply logRecord_inv (φ := State.clock) (hU := rfl) <;> exact fun _ _ => rfl
  · exact .refl s

/-! ### Failed frames (R101) -/

/-- A failed frame ends, counts, shows its code and latches its event, and leaves the position. -/
theorem serFail_spec (h : encSerial s d c = true) (hc : c < 8) (hp : present s (pgEnc d c) = true) (code : Nat) :
    (enc (serFail s d c code) d c).serBusy = false ∧ (enc (serFail s d c code) d c).serAt = (enc s d c).serAt ∧
    rd (serFail s d c code) (pgEnc d c) Off.CNT_SER_BAD = inc24 (rd s (pgEnc d c) Off.CNT_SER_BAD) ∧
    rf (serFail s d c code) (pgEnc d c) Off.SER_STAT 0 4 = code % 16 ∧
    rb (serFail s d c code) (pgEnc d c) Off.EVT_LAT 6 = true ∧
    rd48 (serFail s d c code) (pgEnc d c) Off.POS_L = rd48 s (pgEnc d c) Off.POS_L ∧ (serFail s d c code).clock = s.clock := by
  unfold serFail
  extract_lets p n s1 src s2 m
  have hs2 : SerKept d c (setEnc s1 d c { enc s1 d c with serBusy := false }) s2 := serKept_raise ..
  have hser : encSerial s2 d c = true := by
    have hcfg : rd s2 (pgEnc d c) Off.ENC_CFG = rd s (pgEnc d c) Off.ENC_CFG :=
      (rd_raise_off _ _ _ _ _ (by decide)).trans ((rd_wr_off _ _ _ _ _ _ (by decide)).trans
        ((rd_wr_off _ _ _ _ _ _ (by decide)).trans (rd_wr_off _ _ _ _ _ _ (by decide))))
    rwa [encSerial, encMode, rf, hcfg]
  have hfin : SerKept d c s2 (if m ≠ 0 ∧ m ≤ n then fencePage s2 p 0x0D else s2) := by
    split
    · exact serKept_fencePage s2 hser hc _
    · exact .refl s2
  have hall := hs2.trans hfin
  refine ⟨hall.idle (by rw [enc_setEnc]), hall.due.trans (by rw [enc_setEnc]; rfl), hall.bad.trans ?_, (congrArg (fld · 0 4) hall.stat).trans ?_,
    hfin.evt (rb_raise_same _ _ _ hp (by decide)), hall.pos.trans ?_, hall.clock⟩
  · exact (rd_wr_off _ _ _ _ _ _ (by decide)).trans ((rd_wr_off _ _ _ _ _ _ (by decide)).trans (rd_wr_same ..))
  · exact rf_wf_same _ _ _ _ _ _ (by decide)
  · exact (rd48_wr_off _ _ _ _ _ _ (by decide) (by decide)).trans ((rd48_wr_off _ _ _ _ _ _ (by decide) (by decide)).trans
      (rd48_wr_off _ _ _ _ _ _ (by decide) (by decide)))

end

end Sys2Proof.Machine

namespace Sys2Proof.Machine
open Sys2Proof.Laws

/-! ### Frames that pass, and the commands (R97 to R101) -/

section
variable (s : State) {t u : State} {d c : Nat}

theorem serKept_padB (s0 : State) : SerKept d c s (padB s0 s d c) := by
  unfold padB
  split
  · exact .refl s
  · exact .of_kept rfl (fun _ => rfl) rfl

/-- What follows a change of the position leaves the position and the idleness of the channel. -/
structure PosKept (d c : Nat) (s t : State) : Prop where
  pos : rd48 t (pgEnc d c) Off.POS_L = rd48 s (pgEnc d c) Off.POS_L
  busy : (enc t d c).serBusy = (enc s d c).serBusy

variable {s} in
theorem PosKept.trans (h : PosKept d c s t) (h' : PosKept d c t u) : PosKept d c s u := ⟨h'.pos.trans h.pos, h'.busy.trans h.busy⟩

theorem PosKept.refl : PosKept d c s s := ⟨rfl, rfl⟩

theorem posKept_raise (p : Pg) (i : Nat) : PosKept d c s (raise s p i) :=
  ⟨rd48_raise_off _ _ _ _ _ (by decide) (by decide), by rw [enc_raise]⟩

theorem posKept_wr (p : Pg) {o : Nat} (w : Word) (h : o ≠ Off.POS_L) (h' : o ≠ Off.POS_L + 4) : PosKept d c s (wr s p o w) :=
  ⟨rd48_wr_off _ _ _ _ _ _ h h', rfl⟩

theorem posKept_wr48 (p : Pg) {o v : Nat} (h : o ≠ Off.POS_L) (h' : o ≠ Off.POS_L + 4) (h1 : o + 4 ≠ Off.POS_L) (h2 : o + 4 ≠ Off.POS_L + 4) :
    PosKept d c s (wr48 s p o v) :=
  (posKept_wr s p _ h h').trans (posKept_wr _ p _ h1 h2)

theorem posKept_posArrange (e : Nat) : PosKept d c s (posArrange s e) := by
  unfold posArrange
  extract_lets x rs bs ch m s1
  have h1 : PosKept d c s s1 := ⟨rfl, rfl⟩
  exact each_pres (P := PosKept d c s) h1 fun u e _ hu => hu.trans (posKept_wr _ _ _ (by decide) (by decide))

variable (hc : c < 8)
include hc

theorem posKept_chuteRecord (e n : Nat) (ws : List Word) : PosKept d c s (chuteRecord s e n ws) := by
  have hr : ∀ o, rd (chuteRecord s e n ws) (pgEnc d c) o = rd s (pgEnc d c) o := fun o =>
    (chuteRecord_keeps (enc_apart hc .chuteGlobal (by decide)) (enc_apart hc .chute (by decide)) (.refl ..)).regs o
  refine ⟨by rw [rd48, rdN, rdN, hr, hr]; rfl, congrArg EncSt.serBusy (?_ : enc (chuteRecord s e n ws) d c = enc s d c)⟩
  apply chuteRecord_inv (φ := fun s => enc s d c) (hU := rfl) <;> exact fun _ _ => rfl

theorem posKept_posRecord (e k ty ch pd : Nat) (n st w : Int) (wt lt : Bool) : PosKept d c s (posRecord s e k ty ch pd n st w wt lt) := by
  unfold posRecord
  extract_lets x old k' t' r
  split
  · exact .trans (t := setDie s e _) ⟨rfl, rfl⟩ (posKept_posArrange ..)
  · rename_i s1 l src o heq
    have h1 : PosKept d c s s1 := by
      unfold s1
      split
      · exact posKept_chuteRecord s hc ..
      · exact .refl s
    exact (h1.trans (t := s1) (u := setDie s1 e _) ⟨rfl, rfl⟩).trans (posKept_posArrange ..)

theorem posKept_latchAgain : PosKept d c s (latchAgain s d c) := by
  unfold latchAgain
  extract_lets x
  split
  · unfold latchSet
    extract_lets p n e s1 s2 s3
    have h1 : PosKept d c s s1 := ⟨rfl, by
      show (enc (setEnc s d c _) d c).serBusy = _
      rw [enc_setEnc]⟩
    have h3 : PosKept d c s s3 := ((h1.trans ((posKept_wr48 _ _ (by decide) (by decide) (by decide) (by decide)).trans
      ((posKept_wr48 _ _ (by decide) (by decide) (by decide) (by decide)).trans (posKept_wr _ _ _ (by decide) (by decide))))).trans
      (posKept_wr _ _ _ (by decide) (by decide)))
    exact h3.trans (posKept_posRecord _ hc ..)
  · exact .refl s

omit hc in
/-- A position that is set is what its registers then hold. -/
theorem setPos_spec (n : Int) : rd48 (setPos s d c n) (pgEnc d c) Off.POS_L = uns 48 n ∧
    (enc (setPos s d c n) d c).serBusy = (enc s d c).serBusy := by
  unfold setPos
  extract_lets s1
  have h1 : rd48 s1 (pgEnc d c) Off.POS_L = uns 48 n ∧ (enc s1 d c).serBusy = (enc s d c).serBusy :=
    ⟨(rd48_wr48 ..).trans (Nat.mod_eq_of_lt (uns_lt ..)), by
      show (enc (winSync s d c) d c).serBusy = _
      rw [winSync, enc_setEnc]⟩
  have h2 : PosKept d c s1 (if sgn 48 (uns 48 n) = n then s1 else raise s1 (pgEnc d c) 11) := by
    split
    · exact .refl s1
    · exact posKept_raise ..
  have h3 (v : State) : PosKept d c v (pdMoved v d c) := by
    refine ⟨?_, congrArg EncSt.serBusy (?_ : enc (pdMoved v d c) d c = enc v d c)⟩
    · have hr : ∀ o, rd (pdMoved v d c) (pgEnc d c) o = rd v (pgEnc d c) o := fun o => (pdMoved_keeps (.refl ..)).regs o
      rw [rd48, rdN, rdN, hr, hr]
      rfl
    · apply pdMoved_inv (φ := fun s => enc s d c) (hU := rfl) <;> exact fun _ _ => rfl
  have h := h2.trans (h3 _)
  exact ⟨h.pos.trans h1.1, h.busy.trans h1.2⟩

omit hc in
theorem uns_sgn_add (v : Nat) (z : Int) : uns 48 (sgn 48 v + z) = uns 48 ((v : Int) + z) := by
  unfold uns sgn
  split <;> congr 1 <;> omega

omit hc in
/-- A move of a serial channel's position. -/
theorem movePos_spec (h : encSerial s d c = true) (z : Int) :
    rd48 (setPos (if z = 0 then s else wb s (pgEnc d c) Off.SPD_STAT 1 (decide (z < 0))) d c (encPos s d c + z)) (pgEnc d c) Off.POS_L =
      uns 48 (rd48 s (pgEnc d c) Off.POS_L + z) ∧
    (enc (setPos (if z = 0 then s else wb s (pgEnc d c) Off.SPD_STAT 1 (decide (z < 0))) d c (encPos s d c + z)) d c).serBusy =
      (enc s d c).serBusy := by
  have hz : PosKept d c s (if z = 0 then s else wb s (pgEnc d c) Off.SPD_STAT 1 (decide (z < 0))) := by
    split
    · exact .refl s
    · exact posKept_wr _ _ _ (by decide) (by decide)
  obtain ⟨g1, g2⟩ := setPos_spec (if z = 0 then s else wb s (pgEnc d c) Off.SPD_STAT 1 (decide (z < 0))) (d := d) (c := c) (encPos s d c + z)
  exact ⟨g1.trans (by rw [encPos_serial s h, uns_sgn_add]), g2.trans hz.busy⟩

/-- A used frame before its position: the channel is idle and its warning shown. -/
def serUsed (s : State) (d c value : Nat) (warn : Bool) : State :=
  let s1 := setEnc s d c { enc s d c with serPrev := some value, serLast := some (enc s d c).serStamp, serBusy := false }
  wb (wf s1 (pgEnc d c) Off.SER_STAT 16 8 0) (pgEnc d c) Off.SER_STAT 4 warn

omit hc in
theorem serUsed_spec (v : Nat) (warn : Bool) : rd48 (serUsed s d c v warn) (pgEnc d c) Off.POS_L = rd48 s (pgEnc d c) Off.POS_L ∧
    (enc (serUsed s d c v warn) d c).serBusy = false ∧ encSerial (serUsed s d c v warn) d c = encSerial s d c := by
  unfold serUsed
  extract_lets src s1
  have h2 : PosKept d c s1 (wb (wf s1 (pgEnc d c) Off.SER_STAT 16 8 0) (pgEnc d c) Off.SER_STAT 4 warn) :=
    (posKept_wr s1 _ _ (by decide) (by decide)).trans (posKept_wr _ _ _ (by decide) (by decide))
  refine ⟨h2.pos, h2.busy.trans (by rw [enc_setEnc]), ?_⟩
  have hcfg : rd (wb (wf s1 (pgEnc d c) Off.SER_STAT 16 8 0) (pgEnc d c) Off.SER_STAT 4 warn) (pgEnc d c) Off.ENC_CFG = rd s (pgEnc d c) Off.ENC_CFG :=
    (rd_wr_off _ _ _ _ _ _ (by decide)).trans (rd_wr_off _ _ _ _ _ _ (by decide))
  rw [encSerial, encSerial, encMode, encMode, rf, rf, hcfg]

/-- What follows the position of a used frame. -/
theorem posKept_serAfter (warn : Bool) (st : Nat) : PosKept d c s
    (latchAgain (setEnc (if warn then raise s (pgEnc d c) 7 else s) d c
      { enc (if warn then raise s (pgEnc d c) 7 else s) d c with
        pair := some (2 * encPos (if warn then raise s (pgEnc d c) 7 else s) d c, st) }) d c) := by
  have h4 : PosKept d c s (if warn then raise s (pgEnc d c) 7 else s) := by
    split
    · exact posKept_raise ..
    · exact .refl s
  refine (h4.trans ?_).trans (posKept_latchAgain _ hc)
  exact ⟨rfl, by rw [enc_setEnc]⟩

/-- A frame that is used sets or moves the position, and the channel is idle. -/
theorem serUse_first (v : Nat) (warn : Bool) : rd48 (serUse s d c v none warn) (pgEnc d c) Off.POS_L = uns 48 v ∧
    (enc (serUse s d c v none warn) d c).serBusy = false := by
  obtain ⟨-, u2, -⟩ := serUsed_spec s (d := d) (c := c) v warn
  obtain ⟨g1, g2⟩ := setPos_spec (serUsed s d c v warn) (d := d) (c := c) v
  have h := posKept_serAfter (d := d) (c := c) (setPos (serUsed s d c v warn) d c v) hc warn (enc s d c).serStamp
  exact ⟨h.pos.trans g1, h.busy.trans (g2.trans u2)⟩

theorem serUse_next (h : encSerial s d c = true) (v : Nat) (z : Int) (warn : Bool) :
    rd48 (serUse s d c v (some z) warn) (pgEnc d c) Off.POS_L = uns 48 (rd48 s (pgEnc d c) Off.POS_L + z) ∧
    (enc (serUse s d c v (some z) warn) d c).serBusy = false := by
  obtain ⟨u1, u2, u3⟩ := serUsed_spec s (d := d) (c := c) v warn
  obtain ⟨g1, g2⟩ := movePos_spec (serUsed s d c v warn) (u3.trans h) z
  rw [u1] at g1
  have h := posKept_serAfter (d := d) (c := c) (setPos (if z = 0 then serUsed s d c v warn else wb (serUsed s d c v warn) (pgEnc d c) Off.SPD_STAT 1 (decide (z < 0))) d c
    (encPos (serUsed s d c v warn) d c + z)) hc warn (enc s d c).serStamp
  exact ⟨h.pos.trans g1, h.busy.trans (g2.trans u2)⟩

/-- A frame that passed its checks ends, used or failed by its jump. -/
theorem serPassed_idle (h : encSerial s d c = true) (hp : present s (pgEnc d c) = true) (v : Nat) (warn : Bool) :
    (enc (serPassed s d c v warn) d c).serBusy = false := by
  unfold serPassed
  extract_lets p x
  split
  · exact (serUse_first s hc v warn).2
  · extract_lets delta
    split
    · exact (serFail_spec s h hc hp 8).1
    · exact (serUse_next s hc h _ _ _).2

omit hc in
theorem regs_serLine (line : Nat) {q : Pg} {o : Nat} (ho : Off.SER_STAT ≠ o) : rd (serLine s d c line) q o = rd s q o := by
  unfold serLine
  split
  · rfl
  · split
    · exact rd_wr_off _ _ _ _ _ _ ho
    · exact (rd_of_regs rfl _ _).trans (rd_wr_off _ _ _ _ _ _ ho)

omit hc in
theorem part_serLine (line : Nat) : (serLine s d c line).part = s.part := by
  apply serLine_inv (φ := State.part) (hU := rfl) <;> exact fun _ _ => rfl

omit hc in
theorem encSerial_congr (h : rd t (pgEnc d c) Off.ENC_CFG = rd s (pgEnc d c) Off.ENC_CFG) : encSerial t d c = encSerial s d c := by
  rw [encSerial, encSerial, encMode, encMode, rf, rf, h]

theorem reg_injPick (e k dir n o : Nat) : rd (injPick s e k dir n).2 (pgEnc d c) o = rd s (pgEnc d c) o :=
  (injPick_keeps (enc_apart hc .inject (by decide)) (.refl ..)).regs o

omit hc in
theorem part_injPick (e k dir n : Nat) : (injPick s e k dir n).2.part = s.part := by
  apply injPick_inv (φ := State.part) (hU := rfl) <;> exact fun _ _ => rfl

/-- The end of a frame leaves the channel idle, whatever was injected. -/
theorem serEnd_idle (h : encSerial s d c = true) (hp : present s (pgEnc d c) = true) (f : SerFrame) :
    (enc (serEnd s d c f) d c).serBusy = false := by
  have hr := reg_injPick (d := d) s hc d 2 0 c
  have hpt := part_injPick s d 2 0 c
  unfold serEnd
  generalize hi : injPick s d 2 0 c = i at hr hpt
  obtain ⟨inj, s0⟩ := i
  have h0 : encSerial s0 d c = true := (encSerial_congr s (hr _)).trans h
  have hp0 : present s0 (pgEnc d c) = true := (present_congr hpt _).trans hp
  have h1 : encSerial (serLine s0 d c f.line) d c = true := (encSerial_congr s0 (regs_serLine s0 _ (by decide))).trans h0
  have hp1 : present (serLine s0 d c f.line) (pgEnc d c) = true := (present_congr (part_serLine ..) _).trans hp0
  dsimp only
  split
  · exact (serFail_spec s0 h0 hc hp0 _).1
  · generalize serLine s0 d c f.line = s1 at h1 hp1
    split
    · exact (serFail_spec s1 h1 hc hp1 _).1
    · have hends (b : Bool) (v : Nat) (w : Bool) : (enc (if b then serStale s1 d c else serPassed s1 d c v w) d c).serBusy = false := by
        cases b
        · exact serPassed_idle s1 hc h1 hp1 v w
        · exact congrArg EncSt.serBusy (enc_setEnc ..)
      exact hends _ _ _

end

section
variable {s : State} {d c : Nat}

theorem encOn_present (h : encOn s d c = true) : c < 8 ∧ present s (pgEnc d c) = true := by
  simp only [encOn, running, Bool.and_eq_true, decide_eq_true_eq] at h
  exact ⟨h.1.1, h.1.2.1⟩

/-- The state in which the next frame is due. -/
def frameDue (s : State) (d c : Nat) : State :=
  waitClock s ((enc s d c).serAt.getD s.clock + max 1 (rdN s (pgEnc d c) Off.SER_PERIOD))

/-- The channel once its frame is due. -/
def dueEnc (s : State) (d c : Nat) : EncSt := { enc s d c with serAt := some s.clock }

/-- The channel as its frame begins. -/
def begunEnc (s : State) (d c : Nat) : EncSt :=
  { dueEnc s d c with serBusy := true, serStamp := uns 48 ((now s d : Int) - rf s (pgEnc d c) Off.SER_LAT 0 16) }

theorem exec_serialFrameStart (slo : Bool) (h : encOn s d c = true) (hs : encSerial s d c = true) :
    exec (.serialFrameStart d c slo) s = .next (if (enc s d c).serBusy then setEnc (frameDue s d c) d c (dueEnc (frameDue s d c) d c)
      else if !slo && decide (encMode s d c = 3) then serFail (setEnc (frameDue s d c) d c (dueEnc (frameDue s d c) d c)) d c 1
      else padB (frameDue s d c) (setEnc (frameDue s d c) d c (begunEnc (frameDue s d c) d c)) d c) := by
  refine (if_pos (by simp [h, hs])).trans ?_
  cases (enc s d c).serBusy
  · cases !slo && decide (encMode s d c = 3)
    · rfl
    · rfl
  · rfl

theorem exec_serialFrameEnd (f : SerFrame) (h : encOn s d c = true) (hs : encSerial s d c = true) (hb : (enc s d c).serBusy = true) :
    exec (.serialFrameEnd d c f) s = .next (padB s (serEnd s d c f) d c) := if_pos (by simp [h, hs, hb])

theorem exec_serialTimeout (ack : Bool) (h : encOn s d c = true) (hs : encSerial s d c = true) (hb : (enc s d c).serBusy = true)
    (ha : ack = true → encMode s d c = 4) :
    exec (.serialTimeout d c ack) s = .next (padB s (serFail s d c (if ack then 2 else 7)) d c) :=
  if_pos (by cases ack <;> simp [h, hs, hb, ha])

theorem serKept_frameDue : enc (frameDue s d c) d c = enc s d c ∧
    (∀ o, o ≠ Off.EVT_LAT → rd (frameDue s d c) (pgEnc d c) o = rd s (pgEnc d c) o) ∧
    (frameDue s d c).part = s.part ∧ (frameDue s d c).fences = s.fences := by
  refine ⟨?_, fun o ho => rd_waitClock _ _ ho, waitClock_part .., ?_⟩
  · apply waitClock_inv (φ := fun s => enc s d c) (hU := rfl) <;> exact fun _ _ => rfl
  · apply waitClock_inv (φ := State.fences) (hU := rfl) <;> exact fun _ _ => rfl

/-- A frame begins when it is due, unless one is in progress or the data line is low in SSI. -/
theorem serialFrameStart_spec (slo : Bool) (h : encOn s d c = true) (hs : encSerial s d c = true) :
    Completes (.serialFrameStart d c slo) s fun t => (enc t d c).serAt = some t.clock ∧
      ((enc s d c).serBusy = true → (enc t d c).serBusy = true ∧ (enc t d c).serStamp = (enc s d c).serStamp) ∧
      ((enc s d c).serBusy = false → slo = true ∨ encMode s d c = 4 → (enc t d c).serBusy = true ∧ t.fences = s.fences ∧
        (enc t d c).serStamp = uns 48 ((now t d : Int) - rf s (pgEnc d c) Off.SER_LAT 0 16)) ∧
      ((enc s d c).serBusy = false → slo = false → encMode s d c = 3 → rf t (pgEnc d c) Off.SER_STAT 0 4 = 1 ∧
        rd t (pgEnc d c) Off.CNT_SER_BAD = inc24 (rd s (pgEnc d c) Off.CNT_SER_BAD)) := by
  obtain ⟨hc, hp⟩ := encOn_present h
  obtain ⟨k1, k2, k3, k4⟩ := serKept_frameDue (s := s) (d := d) (c := c)
  refine .of (exec_serialFrameStart slo h hs) ?_
  generalize frameDue s d c = u at k1 k2 k3 k4
  cases hb : (enc s d c).serBusy
  · have hlow : (!slo && decide (encMode s d c = 3)) = true ↔ slo = false ∧ encMode s d c = 3 := by simp
    by_cases hl : (!slo && decide (encMode s d c = 3)) = true
    · rw [if_neg (by decide), if_pos hl]
      obtain ⟨l1, l2⟩ := hlow.1 hl
      have hser : encSerial (setEnc u d c (dueEnc u d c)) d c = true :=
        (encSerial_congr s (k2 _ (by decide))).trans hs
      obtain ⟨f1, f2, f3, f4, f5, f6, f7⟩ := serFail_spec _ hser hc ((present_congr k3 _).trans hp) 1
      refine ⟨f2.trans ?_, fun x => absurd x (by decide), fun _ x => absurd x ?_, fun _ _ _ => ⟨f4, f3.trans (congrArg inc24 (k2 _ (by decide)))⟩⟩
      · rw [enc_setEnc, f7]
        rfl
      · rw [l1, l2]
        decide
    · rw [if_neg (by decide), if_neg hl]
      have he (x : EncSt) : enc (padB u (setEnc u d c x) d c) d c = x ∧ (padB u (setEnc u d c x) d c).clock = u.clock ∧
          (padB u (setEnc u d c x) d c).fences = u.fences ∧ now (padB u (setEnc u d c x) d c) d = now u d := by
        unfold padB
        split
        · exact ⟨enc_setEnc .., rfl, rfl, rfl⟩
        · exact ⟨enc_setEnc .., rfl, rfl, rfl⟩
      obtain ⟨e1, e2, e3, e4⟩ := he (begunEnc u d c)
      rw [e1, e2, e3, e4]
      refine ⟨rfl, fun x => absurd x (by decide), fun _ _ => ⟨rfl, k4, ?_⟩, fun _ x y => absurd (hlow.2 ⟨x, y⟩) hl⟩
      rw [begunEnc, rf, k2 _ (by decide), rf]
  · rw [if_pos rfl, enc_setEnc]
    refine ⟨rfl, fun _ => ⟨by rw [dueEnc, k1]; exact hb, by rw [dueEnc, k1]⟩, fun x => absurd x (by decide), fun x => absurd x (by decide)⟩

end

end Sys2Proof.Machine

namespace Sys2Proof.Machine
open Sys2Proof.Laws

section
variable {s : State} {d c : Nat}

theorem injPick_none (cls dir n : Nat) (h : injOk s d = false) : injPick s d cls dir n = (0, s) := by
  unfold injPick
  exact if_pos (by simp [h])

/-- The end of a frame where no fault is injected. -/
theorem serEnd_checked (f : SerFrame) (hi : injOk s d = false) {n : Nat} (hn : serCheck (serLine s d c f.line) d c f = some n) :
    serEnd s d c f = serFail (serLine s d c f.line) d c n := by
  unfold serEnd
  rw [injPick_none _ _ _ hi]
  dsimp only
  rw [if_neg (by decide), if_neg (by decide), hn]

theorem serEnd_passed (f : SerFrame) (hi : injOk s d = false) (hn : serCheck (serLine s d c f.line) d c f = none)
    (hl : (enc s d c).serLast = none) : serEnd s d c f =
      serPassed (serLine s d c f.line) d c (serValue s d c f false) (decide (encMode s d c = 4) && !f.nW) := by
  unfold serEnd
  rw [injPick_none _ _ _ hi]
  dsimp only
  rw [if_neg (by decide), if_neg (by decide), hn, hl]
  rfl

/-- The checks of a frame read the configuration of the channel. -/
theorem serCheck_serLine (f : SerFrame) (line : Nat) : serCheck (serLine s d c line) d c f = serCheck s d c f := by
  have hcfg : rd (serLine s d c line) (pgEnc d c) Off.SER_CFG = rd s (pgEnc d c) Off.SER_CFG := regs_serLine _ _ (by decide)
  have h1 : encMode (serLine s d c line) d c = encMode s d c := congrArg (fld · 0 3) (regs_serLine _ _ (by decide))
  have h2 : rb (serLine s d c line) (pgEnc d c) Off.SER_CFG 7 = rb s (pgEnc d c) Off.SER_CFG 7 := congrArg (bit · 7) hcfg
  have h3 : serBits (serLine s d c line) d c = serBits s d c := congrArg (fun w => clampN 8 48 (fld w 0 6)) hcfg
  rw [serCheck, serCheck, h1, h2, h3]

theorem serFrameFails (h : encOn s d c = true) (hs : encSerial s d c = true) (f : SerFrame) (hi : injOk s d = false) {n : Nat}
    (hn : serCheck s d c f = some n) :
    rd (serEnd s d c f) (pgEnc d c) Off.CNT_SER_BAD = inc24 (rd s (pgEnc d c) Off.CNT_SER_BAD) ∧
    rf (serEnd s d c f) (pgEnc d c) Off.SER_STAT 0 4 = n % 16 ∧ rb (serEnd s d c f) (pgEnc d c) Off.EVT_LAT 6 = true ∧
    rd48 (serEnd s d c f) (pgEnc d c) Off.POS_L = rd48 s (pgEnc d c) Off.POS_L := by
  obtain ⟨hc, hp⟩ := encOn_present h
  rw [serEnd_checked f hi ((serCheck_serLine f _).trans hn)]
  have h1 : encSerial (serLine s d c f.line) d c = true := (encSerial_congr s (regs_serLine s _ (by decide))).trans hs
  obtain ⟨-, -, f3, f4, f5, f6, -⟩ := serFail_spec _ h1 hc ((present_congr (part_serLine ..) _).trans hp) n
  refine ⟨f3.trans (congrArg inc24 (regs_serLine s _ (by decide))), f4, f5, f6.trans ?_⟩
  rw [rd48, rdN, rdN, regs_serLine s _ (by decide), regs_serLine s _ (by decide)]
  rfl

/-- A good frame of SSI without parity and Gray code, its number among the bits. -/
theorem serFrameUsed (f : SerFrame) (hi : injOk s d = false) (hm : encMode s d c = 3)
    (hf : rf s (pgEnc d c) Off.SER_CFG 6 2 = 0) (hl : (enc s d c).serLast = none) :
    serEnd s d c f = serPassed s d c (f.raw % 2 ^ serBits s d c) false := by
  have hbit (i : Nat) (h : i < 2) : rb s (pgEnc d c) Off.SER_CFG (6 + i) = false := by
    have ht := testBit_fld (rd s (pgEnc d c) Off.SER_CFG) 6 2 i
    rw [show fld (rd s (pgEnc d c) Off.SER_CFG) 6 2 = 0 from hf, Nat.zero_testBit, decide_eq_true h, Bool.true_and] at ht
    exact ht.symm
  have h6 : rb s (pgEnc d c) Off.SER_CFG 6 = false := hbit 0 (by decide)
  have h7 : rb s (pgEnc d c) Off.SER_CFG 7 = false := hbit 1 (by decide)
  have hline : serLine s d c f.line = s := if_pos (by omega)
  have hn : serCheck s d c f = none := by
    unfold serCheck
    dsimp only
    rw [if_pos hm, if_neg (by simp [h7])]
  rw [serEnd_passed f hi ((serCheck_serLine f f.line).trans hn) hl, hline]
  have hv : serValue s d c f false = f.raw % 2 ^ serBits s d c := by
    unfold serValue
    dsimp only
    exact (if_neg (by simp)).trans (if_neg (by rw [h6]; decide))
  have hw : (decide (encMode s d c = 4) && !f.nW) = false := by
    rw [hm]
    rfl
  rw [hv, hw]

theorem serUsed_value (f : SerFrame) : uns 48 (f.raw % 2 ^ serBits s d c : Nat) = f.raw % 2 ^ serBits s d c := by
  have hb : serBits s d c ≤ 48 := by
    unfold serBits clampN
    split_ifs <;> omega
  have hlt : f.raw % 2 ^ serBits s d c < 2 ^ 48 :=
    (Nat.mod_lt _ (Nat.two_pow_pos _)).trans_le (Nat.pow_le_pow_right (by decide) hb)
  generalize f.raw % 2 ^ serBits s d c = v at hlt
  unfold uns
  omega

theorem shut_idle (hc : c < 8) (hp : pstate s (pgEnc d c) = stShutting) (hs : encSerial s d c = true) (hw : awake s d = true) :
    (enc (serShut s d c) d c).serBusy = false ∧ rd48 (serShut s d c) (pgEnc d c) Off.POS_L = rd48 s (pgEnc d c) Off.POS_L := by
  rw [serShut, if_pos (by simp [hc, hp, hs, hw])]
  exact ⟨idle_serDrop s, (serKept_serDrop s d c).pos⟩

theorem not_encOn_of_shutting (hp : pstate s (pgEnc d c) = stShutting) : encOn s d c = false := by
  have hr : running s (pgEnc d c) = false := by
    rw [running, hp]
    simp [stShutting, stRunning]
  rw [encOn, hr]
  simp

theorem exec_serialFrameEnd_shut (f : SerFrame) (h : encOn s d c = false) : exec (.serialFrameEnd d c f) s = .next (serShut s d c) :=
  if_neg (by simp [h])

theorem exec_serialTimeout_shut (ack : Bool) (h : encOn s d c = false) : exec (.serialTimeout d c ack) s = .next (serShut s d c) :=
  if_neg (by simp [h])

end

/-- Settles O22: a frame begins when it is due, and ends used, stale, failed or dropped, always leaving the channel idle. -/
theorem serialEncoders : Obligations.SerialEncoders := by
  unfold Obligations.SerialEncoders
  refine ⟨fun s d c slo h hs => serialFrameStart_spec slo h hs, ?_, ?_, ?_⟩
  · intro s d c f h hs hb
    obtain ⟨hc, hp⟩ := encOn_present h
    have hpad : SerKept d c (serEnd s d c f) (padB s (serEnd s d c f) d c) := serKept_padB ..
    refine .of (exec_serialFrameEnd f h hs hb) ⟨hpad.idle (serEnd_idle s hc hs hp f), fun hi n hn => ?_, fun hi hm hf hl => ?_⟩
    · obtain ⟨f1, f2, f3, f4⟩ := serFrameFails h hs f hi hn
      exact ⟨hpad.bad.trans f1, (congrArg (fld · 0 4) hpad.stat).trans f2, hpad.evt f3, hpad.pos.trans f4⟩
    · have hu := serFrameUsed f hi hm hf hl
      refine ⟨fun hprev => hpad.pos.trans ?_, fun prev hprev hj hd => hpad.pos.trans ?_⟩
      · rw [hu, serPassed, hprev]
        exact (serUse_first s hc _ false).1.trans (serUsed_value f)
      · rw [hu, serPassed, hprev]
        dsimp only
        rw [if_neg (by rw [hj]; exact fun hx => hx.1 rfl), hd]
        exact (serUse_next s hc hs _ _ false).1
  · intro s d c ack h hs hb ha
    obtain ⟨hc, hp⟩ := encOn_present h
    have hpad : SerKept d c (serFail s d c (if ack then 2 else 7)) (padB s (serFail s d c (if ack then 2 else 7)) d c) := serKept_padB ..
    obtain ⟨f1, -, f3, f4, -, -, -⟩ := serFail_spec s hs hc hp (if ack then 2 else 7)
    exact .of (exec_serialTimeout ack h hs hb ha) ⟨hpad.bad.trans f3, (congrArg (fld · 0 4) hpad.stat).trans (f4.trans (by cases ack <;> rfl)),
      hpad.idle f1⟩
  · intro s d c f ack hc hp hs hw
    have hoff := not_encOn_of_shutting hp
    exact ⟨.of (exec_serialFrameEnd_shut f hoff) (shut_idle hc hp hs hw), .of (exec_serialTimeout_shut ack hoff) (shut_idle hc hp hs hw)⟩

end Sys2Proof.Machine

namespace Sys2Proof.Machine
open Sys2Proof.Laws

/-! ### Upstream frames as characters (R230, R236) -/

/-- The three bytes of a word make the word. -/
theorem word_bytes (w : Word) : word (fld w 16 8 % 256 * 2 ^ 16 + fld w 8 8 % 256 * 2 ^ 8 + fld w 0 8 % 256) = w := by
  have h := w.isLt
  refine BitVec.eq_of_toNat_eq ?_
  rw [word, BitVec.toNat_ofNat, fld, fld, fld]
  omega

theorem charWords_wordChars (ws : List Word) : charWords (ws.flatMap wordChars) = some ws := by
  induction ws with
  | nil => rfl
  | cons w ws ih =>
    show (charWords (ws.flatMap wordChars)).map _ = _
    rw [ih, Option.map_some, word_bytes]

/-- The characters of a frame are read as its words. -/
theorem frameRead_frameChars (ws : List Word) : frameRead (frameChars ws) = some ws := by
  show (if kSof = kSof ∧ (ws.flatMap wordChars ++ [kEof]).getLast? = some kEof then charWords (ws.flatMap wordChars ++ [kEof]).dropLast else none) = _
  rw [if_pos ⟨rfl, by rw [List.getLast?_concat]⟩, List.dropLast_concat, charWords_wordChars]

theorem upGood_ack {w : Word} (h : fld w 20 4 = 1) : upGood [w, crcWords [w]] = true := by
  simp [upGood, h]

theorem upGood_status {w0 : Word} (w1 w2 : Word) (h : fld w0 20 4 = 2) : upGood [w0, w1, w2, crcWords [w0, w1, w2]] = true := by
  simp [upGood, h]

section
variable {s : State} {d p : Nat}

theorem PortUp.lanesUp (h : PortUp s d p) : lanesUp s d p = true := by
  obtain ⟨⟨h1, h2, -⟩, h3, h4⟩ := h
  simp [Machine.lanesUp, h1, h2, h3, h4]

theorem PortUp.lt (h : PortUp s d p) : p < 16 := h.1.2.1.trans_le (nPorts_le _)

/-- A frame that cannot be read or fails its checks is counted and has no other effect on the port. -/
theorem upFrame_bad (h : PortUp s d p) {cs : List Chr} (hb : upGood ((frameRead cs).getD []) = false) :
    port (upFrame s d p cs) d p = port s d p ∧ rb (upFrame s d p cs) (pgHp d p) Off.EVT_LAT 19 = true ∧
    rd (upFrame s d p cs) (pgHp d p) Off.CNT_UP_BAD = inc24 (rd s (pgHp d p) Off.CNT_UP_BAD) := by
  have hu : upFrame s d p cs = upBad s d p := if_pos (by rw [hb]; rfl)
  rw [hu, upBad]
  exact ⟨port_raise .., rb_raise_same _ _ _ h.1.2.2 (by decide), (rd_raise_off _ _ _ _ _ (by decide)).trans (rd_wr_same ..)⟩

/-- A good frame takes effect at once where none is held back and none is injected. -/
theorem upFrame_good {ws : List Word} (hg : upGood ws = true) (hi : injOk s d = false) (hh : (port s d p).upHeld = []) :
    upFrame s d p (frameChars ws) = upTake (setPort s d p { port s d p with upHeld := [] }) d p ws := by
  unfold upFrame
  rw [frameRead_frameChars, Option.getD_some]
  dsimp only
  rw [hg, if_neg (by decide), injPick_none _ _ _ hi]
  dsimp only
  rw [if_neg (by decide), if_neg (by decide), if_neg (by decide), hh]
  rfl

theorem line_outst {t : State} {x : PortSt} (h : lineAt d p t = lineOf x) : (port t d p).outst = x.outst :=
  congrArg (fun y => y.2.2.2.2.2.2.2.1) h

theorem line_giveRow {t : State} {x : PortSt} (h : lineAt d p t = lineOf x) : (port t d p).giveRow = x.giveRow :=
  congrArg (fun y => y.2.2.2.2.2.2.2.2.1) h

/-! ### Acknowledgements (R239) -/

theorem line_linkStat (e q : Nat) : lineAt d p (linkStat s e q) = lineAt d p s := line_wr ..

/-- What a change of a port's frames leaves beside them: the link, with the frames as changed. -/
theorem line_withRetry (e q g : Nat) (f : State → State) : lineAt d p (withRetry s e q g f) = lineAt d p (f s) := by
  unfold withRetry
  dsimp only
  rw [line_linkStat]
  exact each_pres (P := fun t => lineAt d p t = lineAt d p (f s)) rfl fun t k _ ht => (line_stallFollow ..).trans ht

theorem line_dropFrame (f : Frame) : lineAt d p (dropFrame s d p f) =
    lineOf { port s d p with outst := (port s d p).outst.filter fun g => decide (g.fseq ≠ f.fseq) } := by
  unfold dropFrame
  dsimp only
  rw [line_withRetry, lineAt, port_setPort]
  rfl

theorem line_logRecord (e cd : Nat) (x : Rec) : lineAt d p (logRecord s e cd x) = lineAt d p s := by
  apply logRecord_inv (φ := lineAt d p) (hU := rfl) <;> exact fun _ _ => rfl

/-- An acknowledgement in time takes its frame off and ends the row of give-ups. -/
theorem ackTake_spec {w : Word} {f : Frame} (hcode : fld w 10 2 = 0)
    (hf : (port s d p).outst.find? (fun f => decide (f.fseq = fld w 12 8)) = some f) :
    (ackInTime s f = true → (∀ g ∈ (port (ackTake s d p w) d p).outst, g.fseq ≠ f.fseq) ∧ (port (ackTake s d p w) d p).giveRow = 0) ∧
    (ackInTime s f = false → ackTake s d p w = s) := by
  have hs (t : State) : (match fld w 10 2 with
      | 1 => count t (pgHp d p) Off.CNT_DUP_ACK
      | 2 => raise (count t (pgHp d p) Off.CNT_REJECT) (pgHp d p) 17
      | _ => t) = t := by rw [hcode] <;> rfl
  unfold ackTake
  extract_lets q code s1
  have hs1 : s1 = s := hs s
  rw [hs1, hf]
  dsimp only
  constructor
  · intro ht
    rw [if_neg (by simp [code, hcode, ht]), if_neg (by simp [code, hcode])]
    have hdrop := line_dropFrame (s := s) (d := d) (p := p) f
    have h3 (u : State) (hu : lineAt d p u = lineAt d p (dropFrame s d p f)) :
        (∀ g ∈ (port (frameEnd (setPort u d p { port u d p with giveRow := 0 }) d p f true) d p).outst, g.fseq ≠ f.fseq) ∧
        (port (frameEnd (setPort u d p { port u d p with giveRow := 0 }) d p f true) d p).giveRow = 0 := by
      have hline := line_frameEnd (setPort u d p { port u d p with giveRow := 0 }) d p d p f true
      rw [lineAt, lineAt, port_setPort] at hline
      refine ⟨fun g hg => ?_, line_giveRow hline⟩
      rw [line_outst hline] at hg
      have ho : (port u d p).outst = _ := line_outst (hu.trans hdrop)
      rw [ho] at hg
      exact of_decide_eq_true (List.mem_filter.1 hg).2
    refine h3 _ ?_
    split
    · split
      · rfl
      · split
        · rfl
        · split
          · rw [line_logRecord]
            exact line_setPort _ _ _ _ _ _ rfl
          · rfl
    · rfl
  · intro ht
    exact if_pos (.inr ⟨by simp [code, hcode], by simp [ht]⟩)

theorem exec_ackReceive (h : PortUp s d p) (cs : List Chr) : exec (.ackReceive d p cs) s = .next (upFrame s d p cs) :=
  if_pos h.lanesUp

theorem exec_statusReceive (h : PortUp s d p) (cs : List Chr) : exec (.statusReceive d p cs) s = .next (upFrame s d p cs) :=
  if_pos h.lanesUp

/-- The frame that an acknowledgement names has left: the clock at which it takes effect. -/
theorem clock_awaitEof (f : Frame) : (awaitEof s f).clock = if f.tries = 0 then max s.clock f.sentAt else s.clock := by
  unfold awaitEof
  split
  · exact waitClock_clock ..
  · rfl

theorem line_awaitEof (f : Frame) : lineAt d p (awaitEof s f) = lineAt d p s := by
  unfold awaitEof
  split
  · exact line_waitClock ..
  · rfl

/-- ACK_RECEIVE of a good acknowledgement. -/
theorem ackReceive_spec (h : PortUp s d p) {w : Word} (hi : injOk s d = false) (hh : (port s d p).upHeld = [])
    (hk : fld w 20 4 = 1) (hcode : fld w 10 2 = 0) {f : Frame}
    (hf : (port s d p).outst.find? (fun f => decide (f.fseq = fld w 12 8)) = some f) :
    Completes (.ackReceive d p (frameChars [w, crcWords [w]])) s fun t =>
      (s.clock ≤ f.sentAt + 400 → f.tries = 0 ∨ f.sentAt ≤ s.clock →
        (∀ g ∈ (port t d p).outst, g.fseq ≠ f.fseq) ∧ (port t d p).giveRow = 0) ∧
      (f.sentAt + 400 < s.clock → (port t d p).outst = (port s d p).outst) := by
  refine .of (exec_ackReceive h _) ?_
  rw [upFrame_good (upGood_ack hk) hi hh]
  generalize hu : setPort s d p { port s d p with upHeld := [] } = u
  have hline : lineAt d p u = lineAt d p s := hu ▸ line_setPort _ _ _ _ _ _ rfl
  have hclk : u.clock = s.clock := hu ▸ rfl
  have hfu : (port u d p).outst.find? (fun f => decide (f.fseq = fld w 12 8)) = some f := by
    rw [line_outst hline]
    exact hf
  have htake : upTake u d p [w, crcWords [w]] = ackTake (awaitEof u f) d p w := by
    refine (if_pos hk).trans ?_
    show ackTake (ackAwait u d p w) d p w = _
    rw [ackAwait, hfu]
  have hv : lineAt d p (awaitEof u f) = lineAt d p s := (line_awaitEof f).trans hline
  have hfv : (port (awaitEof u f) d p).outst.find? (fun f => decide (f.fseq = fld w 12 8)) = some f := by
    rw [line_outst hv]
    exact hf
  have hc := clock_awaitEof (s := u) f
  rw [hclk] at hc
  rw [htake]
  generalize awaitEof u f = v at hv hfv hc
  obtain ⟨h1, h2⟩ := ackTake_spec hcode hfv
  refine ⟨fun hle ht => h1 ?_, fun hlt => ?_⟩
  · rw [ackInTime, hc, Bool.and_eq_true, decide_eq_true_eq, decide_eq_true_eq]
    split
    · omega
    · next hn => exact ⟨ht.resolve_left hn, hle⟩
  · have hlate : ackInTime v f = false := by
      rw [ackInTime, hc, Bool.and_eq_false_iff, decide_eq_false_iff_not, decide_eq_false_iff_not]
      right
      split <;> omega
    rw [h2 hlate]
    exact line_outst hv

/-! ### Status frames (R238) -/

theorem fld_thermal (w : Word) : fld (word (2 ^ 16 + fld w 0 16)) 0 16 = fld w 0 16 ∧ bit (word (2 ^ 16 + fld w 0 16)) 16 = true := by
  have hw := fld_lt w 0 16
  generalize fld w 0 16 = v at hw
  have hn : (word (2 ^ 16 + v)).toNat = 2 ^ 16 + v := by
    rw [word, BitVec.toNat_ofNat, Nat.mod_eq_of_lt (by omega)]
  constructor
  · rw [fld, hn]
    omega
  · rw [bit, BitVec.getLsbD, hn, Nat.testBit_two_pow_add_eq, Nat.testBit_lt_two_pow hw]
    rfl

theorem fld_flags (w : Word) : fld (word (fld w 12 8 * 2 ^ 16 + fld w 0 4)) 0 5 = fld w 0 4 := by
  have h1 := fld_lt w 12 8
  have h2 := fld_lt w 0 4
  rw [fld, word, BitVec.toNat_ofNat]
  omega

theorem statusTake_spec (hp : p < 16) {w0 w1 w2 c : Word} :
    (port (statusTake s d p [w0, w1, w2, c]) d p).statusAt = s.clock ∧
    rf (statusTake s d p [w0, w1, w2, c]) (pgHp d p) Off.THM_VHEAD 0 16 = fld w1 0 16 ∧
    rb (statusTake s d p [w0, w1, w2, c]) (pgHp d p) Off.THM_VHEAD 16 = true ∧
    rf (statusTake s d p [w0, w1, w2, c]) (pgHp d p) Off.SY_HEAD_STAT 0 5 = fld w0 0 4 ∧
    rd (statusTake s d p [w0, w1, w2, c]) (pgHp d p) Off.CNT_ERR_DA = add24 (rd s (pgHp d p) Off.CNT_ERR_DA) (fld w2 12 12) ∧
    rd (statusTake s d p [w0, w1, w2, c]) (pgHp d p) Off.CNT_ERR_DB = add24 (rd s (pgHp d p) Off.CNT_ERR_DB) (fld w2 0 12) := by
  unfold statusTake
  extract_lets w q s1 s2 s3 src
  have hkeep {o : Nat} (hd : Off.EVT_DYN ≠ o) (hl : o ≠ Off.EVT_LAT) (u : State) :
      rd (headFault (flagFollow u d p) d p) (pgHp d p) o = rd u (pgHp d p) o :=
    (rd_setDyn_off _ _ _ _ _ hd hl).trans ((flagFollow_keeps (hp_apart hp .thermal (by decide)) (.refl ..)).regs o)
  have hline (u : State) : lineAt d p (headFault (flagFollow u d p) d p) = lineAt d p u := by
    refine (line_setDyn ..).trans ?_
    unfold flagFollow
    extract_lets b s1
    cases b <;> rfl
  have hs3 {o : Nat} (ha : Off.CNT_ERR_DA ≠ o) (hb : Off.CNT_ERR_DB ≠ o) : rd s3 (pgHp d p) o = rd s2 (pgHp d p) o :=
    (rd_wr_off _ _ _ _ _ _ hb).trans (rd_wr_off _ _ _ _ _ _ ha)
  have hthm : rd s3 (pgHp d p) Off.THM_VHEAD = word (2 ^ 16 + fld w1 0 16) :=
    (hs3 (by decide) (by decide)).trans ((rd_wr_off _ _ _ _ _ _ (by decide)).trans (rd_wr_same ..))
  have hst : rd s3 (pgHp d p) Off.SY_HEAD_STAT = word (fld w0 12 8 * 2 ^ 16 + fld w0 0 4) :=
    (hs3 (by decide) (by decide)).trans (rd_wr_same ..)
  refine ⟨?_, ?_, ?_, ?_, ?_, ?_⟩
  · have h := hline (setPort s3 d p { src with statusAt := s.clock })
    rw [lineAt, lineAt, port_setPort] at h
    exact congrArg (fun y => y.2.2.2.2.2.2.2.2.2.1) h
  · rw [rf, hkeep (by decide) (by decide), rd_setPort, hthm]
    exact (fld_thermal ..).1
  · rw [rb, hkeep (by decide) (by decide), rd_setPort, hthm]
    exact (fld_thermal ..).2
  · rw [rf, hkeep (by decide) (by decide), rd_setPort, hst]
    exact fld_flags w0
  · rw [hkeep (by decide) (by decide), rd_setPort]
    refine (rd_wr_off _ _ _ _ _ _ (by decide)).trans ((rd_wr_same ..).trans ?_)
    exact congrArg (add24 · _) ((rd_wr_off _ _ _ _ _ _ (by decide)).trans (rd_wr_off _ _ _ _ _ _ (by decide)))
  · rw [hkeep (by decide) (by decide), rd_setPort]
    refine (rd_wr_same ..).trans (congrArg (add24 · _) ?_)
    exact (rd_wr_off _ _ _ _ _ _ (by decide)).trans ((rd_wr_off _ _ _ _ _ _ (by decide)).trans (rd_wr_off _ _ _ _ _ _ (by decide)))

/-- STATUS_RECEIVE of a good status. -/
theorem statusReceive_spec (h : PortUp s d p) {w0 : Word} (w1 w2 : Word) (hi : injOk s d = false) (hh : (port s d p).upHeld = [])
    (hk : fld w0 20 4 = 2) : Completes (.statusReceive d p (frameChars [w0, w1, w2, crcWords [w0, w1, w2]])) s fun t =>
      (port t d p).statusAt = s.clock ∧
      rf t (pgHp d p) Off.THM_VHEAD 0 16 = fld w1 0 16 ∧ rb t (pgHp d p) Off.THM_VHEAD 16 = true ∧
      rf t (pgHp d p) Off.SY_HEAD_STAT 0 5 = fld w0 0 4 ∧
      rd t (pgHp d p) Off.CNT_ERR_DA = add24 (rd s (pgHp d p) Off.CNT_ERR_DA) (fld w2 12 12) ∧
      rd t (pgHp d p) Off.CNT_ERR_DB = add24 (rd s (pgHp d p) Off.CNT_ERR_DB) (fld w2 0 12) := by
  refine .of (exec_statusReceive h _) ?_
  have htake : upTake (setPort s d p { port s d p with upHeld := [] }) d p [w0, w1, w2, crcWords [w0, w1, w2]] =
      statusTake (setPort s d p { port s d p with upHeld := [] }) d p [w0, w1, w2, crcWords [w0, w1, w2]] :=
    if_neg (show ¬fld w0 20 4 = 1 by omega)
  rw [upFrame_good (upGood_status w1 w2 hk) hi hh, htake]
  generalize hu : setPort s d p { port s d p with upHeld := [] } = u
  have hr (o : Nat) : rd u (pgHp d p) o = rd s (pgHp d p) o := rd_of_regs (hu ▸ rfl) _ _
  have hc : u.clock = s.clock := hu ▸ rfl
  rw [← hc, ← hr, ← hr]
  exact statusTake_spec h.lt

end

end Sys2Proof.Machine

namespace Sys2Proof.Machine
open Sys2Proof.Laws

/-! ### Frames without an acknowledgement (R240) -/

section
variable (s : State) {d p : Nat}

theorem rd_withRetry (e q g : Nat) (f : State → State) (r : Pg) {o : Nat} (ho : Off.SY_STAT ≠ o) :
    rd (withRetry s e q g f) r o = rd (f s) r o := by
  unfold withRetry
  dsimp only
  refine (rd_linkStat_off _ _ _ ho).trans ?_
  exact each_pres (P := fun t => rd t r o = rd (f s) r o) rfl fun t k _ ht => (rd_of_regs (regs_stallFollow ..) _ _).trans ht

theorem port_withRetry (e q g : Nat) (f : State → State) : port (withRetry s e q g f) d p = port (f s) d p := by
  unfold withRetry
  dsimp only
  show port (each _ (f s) _) d p = _
  refine each_pres (P := fun t => port t d p = port (f s) d p) rfl fun t k _ ht => ?_
  apply stallFollow_inv (φ := fun s => port s d p) (hU := ht)
  exact fun _ _ => rfl

theorem part_frameLost (f : Frame) : (frameLost s d p f).part = s.part := by
  apply frameLost_inv (φ := State.part) (hU := rfl) <;> exact fun _ _ => rfl

/-- What a lost frame leaves: the link, other registers of the port, and latched events. -/
theorem line_frameLost (f : Frame) : lineAt d p (frameLost s d p f) = lineAt d p s := by
  unfold frameLost
  extract_lets s1
  refine (line_frameEnd ..).trans ?_
  unfold s1
  split
  · exact (line_raise ..).trans (line_wr ..)
  · rfl

theorem rd_frameLost (hp : p < 16) (f : Frame) {o : Nat} (hw : Off.WF_STAT ≠ o) (hl : o ≠ Off.EVT_LAT) (hc : Off.CNT_LATE ≠ o) :
    rd (frameLost s d p f) (pgHp d p) o = rd s (pgHp d p) o := by
  unfold frameLost
  extract_lets s1
  refine (hpReg_frameEnd hp hl hw ..).trans ?_
  unfold s1
  split
  · exact (rd_raise_off _ _ _ _ _ hl).trans (rd_wr_off _ _ _ _ _ _ hc)
  · rfl

theorem evt_frameEnd (f : Frame) (b : Bool) (i : Nat) (h : rb s (pgHp d p) Off.EVT_LAT i = true) :
    rb (frameEnd s d p f b) (pgHp d p) Off.EVT_LAT i = true :=
  (frameEnd_steady (Steady.refl (F := []) s)).lats _ _ h

theorem evt_frameLost (f : Frame) (i : Nat) (h : rb s (pgHp d p) Off.EVT_LAT i = true) :
    rb (frameLost s d p f) (pgHp d p) Off.EVT_LAT i = true := by
  unfold frameLost
  extract_lets s1
  refine evt_frameEnd _ _ _ _ ?_
  unfold s1
  split
  · refine rb_raise_mono _ _ _ _ _ ?_
    rwa [rb, count, rd_wr_off _ _ _ _ _ _ (by decide)]
  · exact h

/-- A retraining that starts keeps latched events and the counts of other registers. -/
theorem retrain_keeps_shown (hp : p < 16) (cause : Nat) :
    (∀ i, rb s (pgHp d p) Off.EVT_LAT i = true → rb (retrain s d p cause) (pgHp d p) Off.EVT_LAT i = true) ∧
    rd (retrain s d p cause) (pgHp d p) Off.CNT_GIVEUP = rd s (pgHp d p) Off.CNT_GIVEUP := by
  unfold retrain
  split
  · exact ⟨fun _ h => h, rfl⟩
  · extract_lets s1 y
    refine ⟨fun i h => ?_, ?_⟩
    · refine (abandonFrames_steady (Steady.refl (F := []) _)).lats _ _ ?_
      refine (setLink_steady (Steady.refl (F := []) _)).lats _ _ ?_
      rwa [rb, count, rd_wr_off _ _ _ _ _ _ (by decide)]
    · exact (rd_abandonFrames _ hp (by decide) (by decide) (by decide)).trans
        ((rd_setLink_off _ hp 4 (by decide) (by decide)).trans (rd_wr_off _ _ _ _ _ _ (by decide)))

/-- A retransmission is queued and counted. -/
theorem retransmit_spec (f : Frame) (hpr : present s (pgHp d p) = true) :
    (retransmit s d p f).clock = s.clock ∧ rb (retransmit s d p f) (pgHp d p) Off.EVT_LAT 15 = true ∧
    rd (retransmit s d p f) (pgHp d p) Off.CNT_RETRY = inc24 (rd s (pgHp d p) Off.CNT_RETRY) ∧
    { f with tries := f.tries + 1 } ∈ (port (retransmit s d p f) d p).queue := by
  refine ⟨?_, ?_, ?_, ?_⟩
  · apply retransmit_inv (φ := State.clock) (hU := rfl) <;> exact fun _ _ => rfl
  · unfold retransmit
    rw [rb, rd_withRetry _ _ _ _ _ _ (by decide)]
    exact rb_raise_same _ _ _ hpr (by decide)
  · unfold retransmit
    rw [rd_withRetry _ _ _ _ _ _ (by decide)]
    exact (rd_raise_off _ _ _ _ _ (by decide)).trans (rd_wr_same ..)
  · unfold retransmit
    rw [port_withRetry, port_setPort]
    exact List.mem_append_right _ (List.mem_singleton.2 rfl)

/-- A frame given up is counted with its event, and after a third retry the link retrains. -/
theorem giveUp_spec (f : Frame) (hp : p < 16) (hpr : present s (pgHp d p) = true) (hl : (port s d p).link = 3) :
    (giveUp s d p f).clock = s.clock ∧ rb (giveUp s d p f) (pgHp d p) Off.EVT_LAT 16 = true ∧
    rd (giveUp s d p f) (pgHp d p) Off.CNT_GIVEUP = inc24 (rd s (pgHp d p) Off.CNT_GIVEUP) ∧
    (3 ≤ f.tries → (port (giveUp s d p f) d p).link = 4 ∧ (port (giveUp s d p f) d p).retrainCause = 7) := by
  refine ⟨?_, ?_⟩
  · apply giveUp_inv (φ := State.clock) (hU := rfl) <;> exact fun _ _ => rfl
  unfold giveUp
  extract_lets s1 x s2 s3
  have hdrop : (dropFrame s d p f).part = s.part := by
    apply dropFrame_inv (φ := State.part) (hU := rfl) <;> exact fun _ _ => rfl
  have h1 : rb s1 (pgHp d p) Off.EVT_LAT 16 = true := rb_raise_same _ _ _ ((present_congr (s := s) hdrop _).trans hpr) (by decide)
  have hc1 : rd s1 (pgHp d p) Off.CNT_GIVEUP = inc24 (rd s (pgHp d p) Off.CNT_GIVEUP) := by
    refine (rd_raise_off _ _ _ _ _ (by decide)).trans ((rd_wr_same ..).trans (congrArg inc24 ?_))
    unfold dropFrame
    dsimp only
    rw [rd_withRetry _ _ _ _ _ _ (by decide)]
    rfl
  have hl1 : (port s1 d p).link = 3 := by
    have hd := line_dropFrame (s := s) (d := d) (p := p) f
    exact (line_link (((line_raise ..).trans (line_wr ..)).trans hd)).trans hl
  have h3 : rb s3 (pgHp d p) Off.EVT_LAT 16 = true := evt_frameLost _ _ _ h1
  have hc3 : rd s3 (pgHp d p) Off.CNT_GIVEUP = inc24 (rd s (pgHp d p) Off.CNT_GIVEUP) :=
    (rd_frameLost s2 hp f (by decide) (by decide) (by decide)).trans hc1
  have hl3 : (port s3 d p).link = 3 := by
    refine (congrArg (fun y => y.1) (line_frameLost s2 f)).trans ?_
    show (port s2 d p).link = 3
    rw [port_setPort]
    exact hl1
  have hp3 : present s3 (pgHp d p) = true := by
    refine (present_congr (s := s) ?_ _).trans hpr
    refine (part_frameLost s2 f).trans ?_
    show (raise (count (dropFrame s d p f) (pgHp d p) Off.CNT_GIVEUP) (pgHp d p) 16).part = s.part
    refine Eq.trans ?_ hdrop
    apply raise_inv (φ := State.part) (hU := rfl) <;> exact fun _ _ => rfl
  obtain ⟨k1, k2⟩ := retrain_keeps_shown s3 (d := d) hp 7
  obtain ⟨r1, r2, -, -, -⟩ := retrain_spec (s := s3) 7 hp hp3 hl3
  split
  · exact ⟨k1 _ h3, k2.trans hc3, fun _ => ⟨r1, r2⟩⟩
  · next hn => exact ⟨h3, hc3, fun ht => absurd (Or.inl ht) hn⟩

end

section
variable {s : State} {d p : Nat}

theorem exec_ackTimeout (h : PortUp s d p) {q : Nat} {f : Frame}
    (hf : (port s d p).outst.find? (fun g => decide (g.fseq = q)) = some f)
    (hq : (((port s d p).queue ++ (port s d p).held ++ (port s d p).follow).any
      fun g => decide (g.tries ≠ 0) && decide (g.fseq = q)) = false) :
    exec (.ackTimeout d p q) s = .next (ackTimeout (waitClock s (f.sentAt + 400)) d p f) := by
  refine (if_pos h.lanesUp).trans ?_
  rw [hf]
  exact if_neg (by rw [hq]; decide)

/-- The frame that follows one given up, if any, is queued beside what the port shows. -/
theorem shown_queueFrame (t : State) (c : Prop) [Decidable c] (g : Frame) :
    (if c then queueFrame t d p g else t).clock = t.clock ∧ (if c then queueFrame t d p g else t).regs = t.regs ∧
    lineAt d p (if c then queueFrame t d p g else t) = lineAt d p t := by
  split
  · exact ⟨rfl, rfl, line_queueFrame ..⟩
  · exact ⟨rfl, rfl, rfl⟩

theorem ackTimeout_spec (h : PortUp s d p) {q : Nat} {f : Frame}
    (hf : (port s d p).outst.find? (fun g => decide (g.fseq = q)) = some f)
    (hq : (((port s d p).queue ++ (port s d p).held ++ (port s d p).follow).any
      fun g => decide (g.tries ≠ 0) && decide (g.fseq = q)) = false) :
    (f.tries < 3 → meets (waitClock s (f.sentAt + 400)) d p (f.words.length + 1) f = true →
      Completes (.ackTimeout d p q) s fun t => f.sentAt + 400 ≤ t.clock ∧ rb t (pgHp d p) Off.EVT_LAT 15 = true ∧
        rd t (pgHp d p) Off.CNT_RETRY = inc24 (rd s (pgHp d p) Off.CNT_RETRY) ∧
        { f with tries := f.tries + 1 } ∈ (port t d p).queue) ∧
    (3 ≤ f.tries ∨ meets (waitClock s (f.sentAt + 400)) d p (f.words.length + 1) f = false →
      Completes (.ackTimeout d p q) s fun t => f.sentAt + 400 ≤ t.clock ∧ rb t (pgHp d p) Off.EVT_LAT 16 = true ∧
        rd t (pgHp d p) Off.CNT_GIVEUP = inc24 (rd s (pgHp d p) Off.CNT_GIVEUP) ∧
        (3 ≤ f.tries → (port t d p).link = 4 ∧ (port t d p).retrainCause = 7)) := by
  have hexec := exec_ackTimeout h hf hq
  have hclk : f.sentAt + 400 ≤ (waitClock s (f.sentAt + 400)).clock := clock_waitClock_le ..
  have hline := line_waitClock (s := s) (d := d) (p := p) (f.sentAt + 400)
  have hreg {o : Nat} (ho : o ≠ Off.EVT_LAT) : rd (waitClock s (f.sentAt + 400)) (pgHp d p) o = rd s (pgHp d p) o := rd_waitClock _ _ ho
  have hpr : present (waitClock s (f.sentAt + 400)) (pgHp d p) = true := (present_congr (waitClock_part ..) _).trans h.1.2.2
  generalize waitClock s (f.sentAt + 400) = u at hexec hclk hline hreg hpr
  refine ⟨fun ht hm => .of hexec ?_, fun hm => .of hexec ?_⟩
  · rw [ackTimeout, if_pos ⟨ht, hm⟩]
    obtain ⟨r1, r2, r3, r4⟩ := retransmit_spec u f hpr
    exact ⟨hclk.trans r1.symm.le, r2, r3.trans (congrArg inc24 (hreg (by decide))), r4⟩
  · unfold ackTimeout
    rw [if_neg (by rintro ⟨h1, h2⟩; exact hm.elim (fun h => absurd h (by omega)) (fun h => absurd (h2.symm.trans h) (by decide)))]
    dsimp only
    obtain ⟨g1, g2, g3, g4⟩ := giveUp_spec u f h.lt hpr ((line_link hline).trans h.2.1)
    generalize giveUp u d p f = v at g1 g2 g3 g4
    obtain ⟨q1, q2, q3⟩ := shown_queueFrame (d := d) (p := p) v
      ((f.kind = 1 ∧ (!isReplace f) = true ∧ meets u d p 3 f = true) ∧ (port v d p).link = 3) (nullOf f)
    refine ⟨hclk.trans (q1.trans g1).symm.le, ?_, (rd_of_regs q2 _ _).trans (g3.trans (congrArg inc24 (hreg (by decide)))), fun ht => ?_⟩
    · rw [rb, rd_of_regs q2]
      exact g2
    · exact ⟨(line_link q3).trans (g4 ht).1, (congrArg (fun y => y.2.2.2.2.1) q3).trans (g4 ht).2⟩

end

end Sys2Proof.Machine

namespace Sys2Proof.Machine
open Sys2Proof.Laws

/-! ### Frames that leave (R236, R239, R240) -/

section
variable {s : State} {d p : Nat}

/-- The port as it sends a frame of its queue at once. -/
def sending (s : State) (d p : Nat) (f : Frame) : State :=
  setPort (unqueue s d p f) d p
    { port (unqueue s d p f) d p with follow := (port (unqueue s d p f) d p).held, held := [] }

theorem exec_frameSend (h : PortUp s d p) (hi : injOk s d = false) (hfo : (port s d p).follow = []) (hst : (port s d p).stopFrames = [])
    (hw : (port s d p).wireFree ≤ s.clock) {f : Frame} (hf : firstDue (sendable s d p) none = some f) :
    exec (.frameSend d p) s = .next (sendOrLose (sending s d p f) d p 0 f) := by
  refine (if_pos h.lanesUp).trans (congrArg Host.Outcome.next ?_)
  have hstop : stopNow (waitClock s (port s d p).wireFree) d p = s := by
    rw [waitClock, if_pos hw]
    exact if_pos hst
  have hinj : (if meets (unqueue s d p f) d p (f.words.length + 1) f then injPick (unqueue s d p f) d 0 0 p else (0, unqueue s d p f)) =
      (0, unqueue s d p f) := by
    split
    · exact injPick_none _ _ _ hi
    · rfl
  unfold frameSend
  rw [hstop]
  dsimp only
  rw [hfo]
  dsimp only
  rw [hf]
  show sendNext (unqueue s d p f) d p f = _
  unfold sendNext
  rw [hinj]
  exact if_neg (by decide)

/-- Whether a frame can leave in time depends on the lanes, the queue and the rate of its port. -/
theorem meets_setPort (u : State) (x : PortSt) (w : Nat) (f : Frame) (h1 : x.wireFree = (port u d p).wireFree)
    (h2 : x.queue = (port u d p).queue) (h3 : x.rate = (port u d p).rate) : meets (setPort u d p x) d p w f = meets u d p w f := by
  have hrate (n : Nat) : frameTicks (setPort u d p x) d p n = frameTicks u d p n := by
    have hr : charRate (setPort u d p x) d p = charRate u d p := by
      unfold charRate
      rw [port_setPort, h3]
      rfl
    rw [frameTicks, frameTicks, charTicks, charTicks, hr]
  have hahead (t : Int) : aheadUntil (setPort u d p x) d p t = aheadUntil u d p t := by
    unfold aheadUntil
    rw [port_setPort, h1, h2]
    simp only [hrate]
    rfl
  unfold meets
  split
  · rfl
  · rw [hahead, hrate]
    rfl

theorem meets_sending (w : Nat) (f : Frame) : meets (sending s d p f) d p w f = meets (unqueue s d p f) d p w f := meets_setPort _ _ _ _ rfl rfl rfl

/-- A new frame in time is put on the lanes with the next number. -/
theorem transmit_new (u : State) {f : Frame} (hf : f.tries = 0) :
    (transmit u d p 0 f).out = u.out ++ [.frame d p (charAt (port u d p) (max u.clock (port u d p).wireFree))
      (sealWords f.words (port u d p).fseqNext false)] ∧
    (port (transmit u d p 0 f) d p).queue = (port u d p).queue ∧
    (port (transmit u d p 0 f) d p).outst.length = (port u d p).outst.length + 1 ∧
    (port (transmit u d p 0 f) d p).fseqNext = ((port u d p).fseqNext + 1) % 256 ∧
    rd (transmit u d p 0 f) (pgHp d p) Off.CNT_TX = inc24 (rd u (pgHp d p) Off.CNT_TX) := by
  unfold transmit
  extract_lets x fresh q at_ eof f1 s1 s2 s3 s4
  have hfresh : fresh = true := decide_eq_true hf
  have hq : q = x.fseqNext := if_pos hfresh
  have h1 : port s1 d p = { x with
      wireFree := eof, fseqNext := (x.fseqNext + 1) % 256, outst := x.outst ++ [f1] } := by
    unfold s1
    rw [port_setPort, hfresh]
    rfl
  have hs2 : s2 = count s1 (pgHp d p) Off.CNT_TX := by
    unfold s2
    rw [hfresh]
    rfl
  have h3 : (port s3 d p).queue = (port s2 d p).queue ∧ lineAt d p s3 = lineAt d p s2 ∧ s3.out = s2.out ∧ s3.regs = s2.regs := by
    unfold s3
    split
    · exact ⟨rfl, rfl, rfl, rfl⟩
    · exact ⟨by rw [setCycle, port_setPort], line_setCycle .., rfl, rfl⟩
  obtain ⟨k1, k2, k3, k4⟩ := h3
  have hp2 : port s2 d p = port s1 d p := by
    rw [hs2]
    rfl
  rw [hp2, h1] at k1
  rw [lineAt, lineAt, hp2, h1] at k2
  have hs4 : s4 = emit s3 (.frame d p (charAt x at_) (sealWords f1.words q false)) := if_neg (by decide)
  have hp4 : port (linkStat s4 d p) d p = port s3 d p := by
    rw [hs4]
    rfl
  refine ⟨?_, ?_, ?_, ?_, ?_⟩
  · show s4.out = _
    rw [hs4, hq]
    show s3.out ++ _ = _
    rw [k3, hs2]
    rfl
  · rw [hp4]
    exact k1
  · rw [hp4, line_outst k2, List.length_append]
    rfl
  · rw [hp4]
    exact congrArg (fun y => y.2.2.2.2.2.2.1) k2
  · refine (rd_linkStat_off _ _ _ (by decide)).trans ?_
    rw [hs4, rd_emit, rd_of_regs k4, hs2]
    exact rd_wr_same ..

/-- FRAME_SEND of a new frame in time. -/
theorem frameSend_spec (h : PortUp s d p) (hi : injOk s d = false) (hfo : (port s d p).follow = []) (hst : (port s d p).stopFrames = [])
    (hw : (port s d p).wireFree ≤ s.clock) {f : Frame} (hf : firstDue (sendable s d p) none = some f) (ht : f.tries = 0) :
    (meets (unqueue s d p f) d p (f.words.length + 1) f = true → Completes (.frameSend d p) s fun t =>
      t.out = s.out ++ [.frame d p (charAt (port s d p) s.clock) (sealWords f.words (port s d p).fseqNext false)] ∧
      (port t d p).queue = (port s d p).queue.erase f ∧ (port t d p).outst.length = (port s d p).outst.length + 1 ∧
      (port t d p).fseqNext = ((port s d p).fseqNext + 1) % 256 ∧
      rd t (pgHp d p) Off.CNT_TX = inc24 (rd s (pgHp d p) Off.CNT_TX)) ∧
    (meets (unqueue s d p f) d p (f.words.length + 1) f = false → f.kind = 1 → isReplace f = false →
      Completes (.frameSend d p) s fun t => rb t (pgHp d p) Off.EVT_LAT 18 = true ∧
        rd t (pgHp d p) Off.CNT_LATE = inc24 (rd s (pgHp d p) Off.CNT_LATE) ∧
        rd t (pgHp d p) Off.CNT_TX = rd s (pgHp d p) Off.CNT_TX ∧
        (meets (unqueue s d p f) d p 3 f = true → nullOf f ∈ (port t d p).queue)) := by
  have hexec := exec_frameSend h hi hfo hst hw hf
  have hport : port (sending s d p f) d p =
      { port s d p with queue := (port s d p).queue.erase f, follow := (port s d p).held, held := [] } := by
    rw [sending, port_setPort, unqueue, port_setPort]
  have hreg (q : Pg) (o : Nat) : rd (sending s d p f) q o = rd s q o := rfl
  have hclk : (sending s d p f).clock = s.clock := rfl
  have hout : (sending s d p f).out = s.out := rfl
  have hpart : (sending s d p f).part = s.part := rfl
  rw [← meets_sending, ← meets_sending]
  generalize sending s d p f = u at hexec hport hreg hclk hout hpart
  refine ⟨fun hm => .of hexec ?_, fun hm hk hr => .of hexec ?_⟩
  · rw [sendOrLose, if_pos hm]
    obtain ⟨t1, t2, t3, t4, t5⟩ := transmit_new (d := d) (p := p) u ht
    rw [hport] at t1 t2 t3 t4
    rw [hout, hclk, Nat.max_eq_left hw] at t1
    exact ⟨t1, t2, t3, t4, t5.trans (congrArg inc24 (hreg ..))⟩
  · unfold sendOrLose
    rw [if_neg (by rw [hm]; decide), if_pos ht]
    dsimp only
    have hlink : (port (frameLost u d p f) d p).link = 3 := by
      refine (congrArg (fun y => y.1) (line_frameLost u f)).trans ?_
      show (port u d p).link = 3
      rw [hport]
      exact h.2.1
    have hlost : frameLost u d p f = frameEnd (raise (count u (pgHp d p) Off.CNT_LATE) (pgHp d p) 18) d p f false :=
      congrArg (frameEnd · d p f false) (if_pos ⟨hk, by rw [hr]; rfl⟩)
    have hevt : rb (frameLost u d p f) (pgHp d p) Off.EVT_LAT 18 = true := by
      rw [hlost]
      exact evt_frameEnd _ _ _ _ (rb_raise_same _ _ _ ((present_congr hpart _).trans h.1.2.2) (by decide))
    have hlate : rd (frameLost u d p f) (pgHp d p) Off.CNT_LATE = inc24 (rd s (pgHp d p) Off.CNT_LATE) := by
      rw [hlost]
      refine (hpReg_frameEnd h.lt (by decide) (by decide) ..).trans ((rd_raise_off _ _ _ _ _ (by decide)).trans ?_)
      exact (rd_wr_same ..).trans (congrArg inc24 (hreg ..))
    have htx : rd (frameLost u d p f) (pgHp d p) Off.CNT_TX = rd s (pgHp d p) Off.CNT_TX :=
      (rd_frameLost u h.lt f (by decide) (by decide) (by decide)).trans (hreg ..)
    generalize frameLost u d p f = v at hlink hevt hlate htx
    obtain ⟨-, q2, -⟩ := shown_queueFrame (d := d) (p := p) v
      ((f.kind = 1 ∧ (!isReplace f) = true ∧ meets u d p 3 f = true) ∧ (port v d p).link = 3) (nullOf f)
    refine ⟨?_, (rd_of_regs q2 _ _).trans hlate, (rd_of_regs q2 _ _).trans htx, fun h3 => ?_⟩
    · rw [rb, rd_of_regs q2]
      exact hevt
    · rw [if_pos ⟨⟨hk, by rw [hr]; rfl, h3⟩, hlink⟩, queueFrame, port_setPort]
      exact List.mem_append_right _ (List.mem_singleton.2 rfl)

end

/-- Settles O30: frames in order of their deadlines, the characters of upstream frames read back as their words, and what a lost
frame's consequences leave of the link. -/
theorem linkFrames : Obligations.LinkFrames := by
  unfold Obligations.LinkFrames
  refine ⟨fun s d p h hi hfo hst hw f hf ht => frameSend_spec h hi hfo hst hw hf ht, fun s d p h => ⟨fun cs hb => ?_, ?_, ?_, ?_⟩⟩
  · exact ⟨.of (exec_ackReceive h cs) (upFrame_bad h hb), .of (exec_statusReceive h cs) (upFrame_bad h hb)⟩
  · exact fun w hi hh hk hcode f hf => ackReceive_spec h hi hh hk hcode hf
  · exact fun w0 w1 w2 hi hh hk => statusReceive_spec h w1 w2 hi hh hk
  · exact fun q f hf hq => ackTimeout_spec h hf hq

end Sys2Proof.Machine

namespace Sys2Proof.Machine
open Sys2Proof.Laws

/-! ### What the operations of an encoder channel leave of its samples and counts (R84 to R93) -/

/-- The counts of illegal samples and index edges, and the count that a mismatch records. -/
def encCounts : List Nat := [Off.CNT_ILLEGAL, Off.CNT_IDX, Off.CNT_IDX_MM, Off.IDX_MM_ACT_L, Off.IDX_MM_ACT_L + 4]

/-- These and the position. -/
def encSeen : List Nat := [Off.POS_L, Off.POS_L + 4] ++ encCounts

/-- The decoded levels of a channel. -/
def encSig (x : EncSt) : Nat × Bool × Bool × Bool := (x.ab, x.hasRef, x.z, x.zRef)

/-- The decoded levels of a channel, the registers `F` of its page and its latched events stay. -/
structure EncKept (F : List Nat) (d c : Nat) (s t : State) : Prop where
  sub : ∀ o ∈ F, o ∈ encSeen
  sig : encSig (enc t d c) = encSig (enc s d c)
  regs : ∀ o ∈ F, rd t (pgEnc d c) o = rd s (pgEnc d c) o
  evts : ∀ i, rb s (pgEnc d c) Off.EVT_LAT i = true → rb t (pgEnc d c) Off.EVT_LAT i = true

section
variable {F : List Nat} {d c : Nat} {a s t : State}

namespace EncKept

theorem refl (s : State) (hF : ∀ o ∈ F, o ∈ encSeen := by decide) : EncKept F d c s s := ⟨hF, rfl, fun _ _ => rfl, fun _ h => h⟩

theorem trans (h : EncKept F d c a s) (h' : EncKept F d c s t) : EncKept F d c a t :=
  ⟨h.sub, h'.sig.trans h.sig, fun o ho => (h'.regs o ho).trans (h.regs o ho), fun i hi => h'.evts i (h.evts i hi)⟩

theorem of_same (h : EncKept F d c a s) (he : enc t d c = enc s d c) (hr : ∀ o, rd t (pgEnc d c) o = rd s (pgEnc d c) o) :
    EncKept F d c a t :=
  h.trans ⟨h.sub, by rw [he], fun o _ => hr o, fun i hi => by rwa [rb, hr]⟩

theorem wr (h : EncKept F d c a s) (p : Pg) {o : Nat} (w : Word) (ho : o ∉ F) (hl : o ≠ Off.EVT_LAT) : EncKept F d c a (wr s p o w) :=
  h.trans ⟨h.sub, rfl, fun k hk => rd_wr_off _ _ _ _ _ _ (fun e => ho (e ▸ hk)), fun i hi => by rwa [rb, rd_wr_off _ _ _ _ _ _ hl]⟩

/-- A write of a register that is not among the seen ones. -/
theorem wr' (h : EncKept F d c a s) (p : Pg) {o : Nat} (w : Word) (ho : o ∉ encSeen) (hl : o ≠ Off.EVT_LAT) :
    EncKept F d c a (Machine.wr s p o w) :=
  h.wr p w (fun hf => ho (h.sub o hf)) hl

theorem wr48 (h : EncKept F d c a s) (p : Pg) {o : Nat} (v : Nat) (ho : o ∉ encSeen ∧ o + 4 ∉ encSeen) (hl : o ≠ Off.EVT_LAT ∧ o + 4 ≠ Off.EVT_LAT) :
    EncKept F d c a (Machine.wr48 s p o v) :=
  (h.wr' p _ ho.1 hl.1).wr' p _ ho.2 hl.2

theorem raise (h : EncKept F d c a s) (p : Pg) (i : Nat) : EncKept F d c a (raise s p i) :=
  h.trans ⟨h.sub, by rw [enc_raise], fun o ho => rd_raise_off _ _ _ _ _ (fun e => by
    have := h.sub o ho
    rw [e] at this
    revert this
    decide), fun j hj => rb_raise_mono _ _ _ _ _ hj⟩

theorem setDyn (h : EncKept F d c a s) (p : Pg) (i : Nat) (b : Bool) : EncKept F d c a (setDyn s p i b) := by
  unfold Machine.setDyn
  split
  · extract_lets was s1
    have h1 : EncKept F d c a s1 := by
      unfold s1
      cases was != b
      · exact h
      · exact h.wr' _ _ (by decide) (by decide)
    cases b && !was
    · exact h1
    · exact h1.raise ..
  · exact h

theorem setEnc (h : EncKept F d c a s) (e f : Nat) (x : EncSt) (hx : encSig x = encSig (enc s e f)) : EncKept F d c a (setEnc s e f x) := by
  refine h.trans ⟨h.sub, ?_, fun _ _ => rfl, fun _ hi => hi⟩
  by_cases hk : (e, f) = (d, c)
  · obtain ⟨rfl, rfl⟩ := Prod.mk.inj hk
    rw [enc_setEnc, hx]
  · rw [enc_setEnc_other _ _ _ _ _ _ hk]

theorem pdMoved (h : EncKept F d c a s) (e f : Nat) : EncKept F d c a (pdMoved s e f) := by
  refine h.of_same ?_ fun o => (pdMoved_keeps (.refl ..)).regs o
  apply pdMoved_inv (φ := fun s => enc s d c) (hU := rfl) <;> exact fun _ _ => rfl

theorem winSync (h : EncKept F d c a s) (e f : Nat) : EncKept F d c a (winSync s e f) := h.setEnc _ _ _ rfl

theorem encSend (h : EncKept F d c a s) (e f : Nat) (k : MsgKind) : EncKept F d c a (encSend s e f k) := by
  refine h.of_same ?_ fun o => (encSend_keeps (.refl ..)).regs o
  apply encSend_inv (φ := fun s => enc s d c) (hU := rfl) <;> exact fun _ _ => rfl

/-! Speed (R94 to R96). -/

theorem setSpd (h : EncKept F d c a s) (e f : Nat) (v : Int) : EncKept F d c a (setSpd s e f v) := by
  unfold Machine.setSpd fit48
  split
  next w s1 hf =>
  have h1 : EncKept F d c a s1 := by
    split at hf
    · exact (Prod.mk.inj hf).2 ▸ h
    · exact (Prod.mk.inj hf).2 ▸ h.of_same rfl fun _ => rfl
  exact h1.wr48 _ _ (by decide) (by decide)

theorem periodEdge (h : EncKept F d c a s) (e f : Nat) : EncKept F d c a (periodEdge s e f) := by
  unfold Machine.periodEdge
  split
  · exact h
  · split
    · exact h
    · next v s1 hp =>
      have h1 : EncKept F d c a s1 := by
        unfold periodResult at hp
        dsimp only at hp
        split at hp
        · exact (Prod.mk.inj (Option.some.inj hp)).2 ▸ h
        · split at hp
          · split at hp
            · exact (Prod.mk.inj (Option.some.inj hp)).2 ▸ h.of_same rfl fun _ => rfl
            · exact (Prod.mk.inj (Option.some.inj hp)).2 ▸ h
          · exact absurd hp (by simp)
      have h2 := h1.setSpd e f v
      dsimp only
      split
      · exact (h2.wr' _ _ (by decide) (by decide)).raise ..
      · exact h2

theorem pushEdges (h : EncKept F d c a s) (e f n : Nat) (st : Int) (b : Bool) : EncKept F d c a (pushEdges s e f n st b) := by
  unfold Machine.pushEdges
  extract_lets x es
  exact wr' (o := Off.SPD_STAT) (wr' (o := Off.SPD_STAT) (setEnc h e f _ (by rfl)) _ _ (by decide) (by decide)) _ _ (by decide) (by decide)

/-! Position (R88, R93). -/

/-- A position that is set. -/
theorem setPos (h : EncKept encCounts d c a s) (e f : Nat) (n : Int) : EncKept encCounts d c a (setPos s e f n) := by
  unfold Machine.setPos
  extract_lets s1
  have h1 : EncKept encCounts d c a s1 :=
    ((h.winSync e f).wr _ _ (by decide) (by decide)).wr _ _ (by decide) (by decide)
  refine pdMoved ?_ e f
  split
  · exact h1
  · exact h1.raise ..

/-! Records and latches (R102, R103). -/

theorem chuteRecord (hc : c < 8) (h : EncKept F d c a s) (e n : Nat) (ws : List Word) : EncKept F d c a (chuteRecord s e n ws) := by
  refine h.of_same ?_ fun o => (chuteRecord_keeps (enc_apart hc .chuteGlobal (by decide)) (enc_apart hc .chute (by decide)) (.refl ..)).regs o
  apply chuteRecord_inv (φ := fun s => enc s d c) (hU := rfl) <;> exact fun _ _ => rfl

theorem posArrange (h : EncKept F d c a s) (e : Nat) : EncKept F d c a (posArrange s e) := by
  unfold Machine.posArrange
  extract_lets x rs bs ch m s1
  have h1 : EncKept F d c a s1 := h.of_same rfl fun _ => rfl
  exact each_pres (P := EncKept F d c a) h1 fun u e _ hu => hu.wr' _ _ (by decide) (by decide)

theorem setDie (h : EncKept F d c a s) (e : Nat) (x : DieSt) : EncKept F d c a (setDie s e x) := h.of_same rfl fun _ => rfl

theorem posRecord (hc : c < 8) (h : EncKept F d c a s) (e k ty ch pd : Nat) (n st w : Int) (wt lt : Bool) :
    EncKept F d c a (posRecord s e k ty ch pd n st w wt lt) := by
  unfold Machine.posRecord
  extract_lets x old k' t' r
  split
  · exact (h.setDie ..).posArrange ..
  · rename_i s1 l src o heq
    have h1 : EncKept F d c a s1 := by
      unfold s1
      split
      · exact h.chuteRecord hc ..
      · exact h
    exact (h1.setDie ..).posArrange ..

theorem latchSet (hc : c < 8) (h : EncKept F d c a s) (e f src pd : Nat) (st : Int) : EncKept F d c a (latchSet s e f src pd st) := by
  unfold Machine.latchSet
  extract_lets p n v src s1 s2 s3
  have h1 : EncKept F d c a s1 := (h.setEnc e f _ (by rfl)).of_same rfl fun _ => rfl
  have h3 : EncKept F d c a s3 := (((h1.wr48 _ _ (by decide) (by decide)).wr48 _ _ (by decide) (by decide)).wr' _ _ (by decide) (by decide)).wr' _ _
    (by decide) (by decide)
  exact h3.posRecord hc ..

theorem latchAgain (hc : c < 8) (h : EncKept F d c a s) (e f : Nat) : EncKept F d c a (latchAgain s e f) := by
  unfold Machine.latchAgain
  dsimp only
  split
  · exact h.latchSet hc ..
  · exact h

theorem takeLatch (hc : c < 8) (h : EncKept F d c a s) (e f src pd : Nat) (st : Int) : EncKept F d c a (takeLatch s e f src pd st) := by
  unfold Machine.takeLatch
  extract_lets p x
  split
  · exact h
  · split
    · split
      · exact h.latchSet hc ..
      · exact h
    · exact (h.raise ..).latchSet hc ..

/-! Corrections (R93). -/

theorem shiftEst (h : EncKept F d c a s) (e f : Nat) (n : Int) : EncKept F d c a (shiftEst s e f n) := by
  unfold Machine.shiftEst
  extract_lets x p s1
  have hx : encSig x = encSig (enc s e f) := by
    unfold x winShift
    rw [enc_setEnc]
    rfl
  have h1 : EncKept F d c a s1 := h.setEnc e f _ (by exact hx)
  exact h1.wr48 _ _ (by decide) (by decide)

theorem correctPos (hc : c < 8) (h : EncKept encCounts d c a s) (e f : Nat) (n : Int) : EncKept encCounts d c a (correctPos s e f n) :=
  ((h.setPos e f _).shiftEst e f n).latchAgain hc e f

theorem sendStep (hc : c < 8) (h : EncKept F d c a s) (e f : Nat) (n st : Int) : EncKept F d c a (sendStep s e f n st) :=
  ((h.raise ..).posRecord hc ..).encSend ..

theorem correctStep (hc : c < 8) (h : EncKept encCounts d c a s) (e f : Nat) (n st : Int) :
    EncKept encCounts d c a (correctStep s e f n st) :=
  (h.correctPos hc e f n).sendStep hc ..

/-! Fences (R406). -/

theorem serDrop (h : EncKept F d c a s) (e f : Nat) : EncKept F d c a (serDrop s e f) := by
  have h1 : EncKept F d c a (Machine.setEnc s e f { enc s e f with serBusy := false }) := h.setEnc e f _ (by rfl)
  unfold Machine.serDrop padB
  split
  · exact h1
  · exact h1.of_same rfl fun _ => rfl

theorem encSafe (h : EncKept F d c a s) (e f : Nat) : EncKept F d c a (encSafe s e f) := by
  unfold Machine.encSafe encLost encInvalid
  extract_lets s0
  have h0 : EncKept F d c a s0 := by
    refine h.of_same ?_ fun o => (pdUnlock_keeps (.refl ..)).regs o
    apply pdUnlock_inv (φ := fun s => enc s d c) (hU := rfl) <;> exact fun _ _ => rfl
  exact ((((h0.serDrop e f).wr' (o := Off.EST_STAT) _ _ (by decide) (by decide)).setDyn _ _ _).encSend ..).raise ..

theorem logRecord (hc : c < 8) (h : EncKept F d c a s) (e cd : Nat) (x : Rec) : EncKept F d c a (logRecord s e cd x) := by
  refine h.of_same ?_ fun o => (logRecord_keeps (enc_apart hc .fence (by decide)) (enc_apart hc .chuteGlobal (by decide))
    (enc_apart hc .chute (by decide)) (.refl ..)).regs o
  apply logRecord_inv (φ := fun s => enc s d c) (hU := rfl) <;> exact fun _ _ => rfl

/-- A fence of an encoder page. -/
theorem fencePage (hc : c < 8) (h : EncKept encCounts d c a s) (r : Nat) : EncKept encCounts d c a (fencePage s (pgEnc d c) r) := by
  unfold Machine.fencePage
  split
  · next ht =>
    have hq (ks : List Nat) : EncKept encCounts d c a (fenceQuiet s (pgEnc d c) r ks) := by
      unfold fenceQuiet
      extract_lets st was s0 s1 s2 f s3
      rw [if_neg (not_fenced_of_takesFence s ht)]
      have h0 : EncKept encCounts d c a s0 := by
        unfold s0 encSync
        rw [if_pos (pgKind_pgEnc d hc)]
        exact ((h.winSync ..).wr _ _ (by decide) (by decide)).wr _ _ (by decide) (by decide)
      have h1 : EncKept encCounts d c a s1 := h0.of_same rfl fun _ => rfl
      have h2 : EncKept encCounts d c a s2 :=
        wr' (o := Off.PAGE_STAT) (wr' (o := Off.PAGE_STAT) (wr' (o := Off.PAGE_CTRL) h1 _ _ (by decide) (by decide)) _ _ (by decide) (by decide)) _ _
          (by decide) (by decide)
      have h3 : EncKept encCounts d c a s3 := h2.wr' (o := Off.FN_LAST) _ _ (by decide) (by decide)
      have hsafe : EncKept encCounts d c a (pageSafe s3 (pgEnc d c) r ks) := by
        rw [pageSafe, pgKind_pgEnc d hc, pgInst_pgEnc hc]
        exact h3.encSafe ..
      exact (hsafe.wr' (o := Off.FN_CNT_FENCES) _ _ (by decide) (by decide)).raise ..
    exact (hq (fenceCtxs s (pgEnc d c))).logRecord hc ..
  · exact h

end EncKept

end

end Sys2Proof.Machine

namespace Sys2Proof.Machine
open Sys2Proof.Laws

/-! ### Decode samples (R84 to R88) -/

section
variable {d c : Nat} {a s t : State}

theorem EncKept.pos (h : EncKept [Off.POS_L, Off.POS_L + 4] d c s t) :
    rd48 t (pgEnc d c) Off.POS_L = rd48 s (pgEnc d c) Off.POS_L := by
  rw [rd48, rdN, rdN, h.regs _ (by decide), h.regs _ (by decide)]
  rfl

theorem encPos_incr (h : encIncr s d c = true) : encPos s d c = sgn 48 (rd48 s (pgEnc d c) Off.POS_L) := by
  have hm : encMode s d c ≤ 2 := of_decide_eq_true h
  unfold encPos
  rw [if_neg (by omega), if_neg (by omega)]

theorem encIncr_congr (h : rd t (pgEnc d c) Off.ENC_CFG = rd s (pgEnc d c) Off.ENC_CFG) : encIncr t d c = encIncr s d c := by
  rw [encIncr, encIncr, encMode, encMode, rf, rf, h]

/-- A pair for the estimator leaves the decoded levels. -/
theorem EncKept.setPair {F : List Nat} (h : EncKept F d c a s) (e f : Nat) (z : Option (Int × Nat)) :
    EncKept F d c a (Machine.setEnc s e f { enc s e f with pair := z }) := h.setEnc e f _ (by rfl)

/-- A count change leaves the channel's samples and counts. -/
theorem encKept_countBySample (hc : c < 8) (h : EncKept encCounts d c a s) (delta st : Int) :
    EncKept encCounts d c a (countBySample s d c delta st) := by
  unfold countBySample
  split
  · exact h
  · extract_lets back s1 z s2
    have h2 : EncKept encCounts d c a s2 := (((h.pushEdges ..).setPos ..).wr' (o := Off.EST_STAT) _ _ (by decide) (by decide)).setDyn _ _ _
    exact ((h2.setPair d c _).periodEdge d c).latchAgain hc d c

/-- It moves the position of an incremental channel by the change. -/
theorem countBySample_pos (hc : c < 8) (hi : encIncr s d c = true) (delta st : Int) :
    rd48 (countBySample s d c delta st) (pgEnc d c) Off.POS_L = uns 48 ((rd48 s (pgEnc d c) Off.POS_L : Int) + delta) := by
  unfold countBySample
  split
  · next h0 =>
    have hlt := rd48_lt s (pgEnc d c) Off.POS_L
    rw [h0]
    generalize rd48 s (pgEnc d c) Off.POS_L = v at hlt
    unfold uns
    omega
  · extract_lets back s1 z s2
    have hpush : rd48 (pushEdges s d c delta.natAbs st back) (pgEnc d c) Off.POS_L = rd48 s (pgEnc d c) Off.POS_L :=
      (rd48_wr_off _ _ _ _ _ _ (by decide) (by decide)).trans (rd48_wr_off _ _ _ _ _ _ (by decide) (by decide))
    have hincr : encIncr (pushEdges s d c delta.natAbs st back) d c = true :=
      (encIncr_congr (s := s) ((rd_wr_off _ _ _ _ _ _ (by decide)).trans (rd_wr_off _ _ _ _ _ _ (by decide)))).trans hi
    have h1 : rd48 s1 (pgEnc d c) Off.POS_L = uns 48 ((rd48 s (pgEnc d c) Off.POS_L : Int) + delta) := by
      refine (setPos_spec _ _).1.trans ?_
      have hpos : encPos s d c = sgn 48 (rd48 s (pgEnc d c) Off.POS_L) := encPos_incr hi
      rw [hpos, uns_sgn_add]
    have hfin : EncKept [Off.POS_L, Off.POS_L + 4] d c s1 (latchAgain (periodEdge (setEnc s2 d c { enc s2 d c with pair := some (z, uns 48 st) }) d c) d c) := by
      have h2 : EncKept [Off.POS_L, Off.POS_L + 4] d c s1 s2 :=
        ((EncKept.refl s1).wr' (o := Off.EST_STAT) _ _ (by decide) (by decide)).setDyn _ _ _
      exact ((h2.setPair d c _).periodEdge d c).latchAgain hc d c
    exact hfin.pos.trans h1

/-- What an illegal sample shows. -/
theorem illegalSample_spec (hc : c < 8) (hp : present s (pgEnc d c) = true) :
    encSig (enc (illegalSample s d c).2 d c) = encSig (enc s d c) ∧
    rd (illegalSample s d c).2 (pgEnc d c) Off.CNT_ILLEGAL = inc24 (rd s (pgEnc d c) Off.CNT_ILLEGAL) ∧
    rb (illegalSample s d c).2 (pgEnc d c) Off.EVT_LAT 0 = true ∧
    (rb s (pgEnc d c) Off.ENC_CFG 4 = false → rb s (pgEnc d c) Off.ENC_CFG 5 = false →
      (illegalSample s d c).1 = 0 ∧ rd48 (illegalSample s d c).2 (pgEnc d c) Off.POS_L = rd48 s (pgEnc d c) Off.POS_L) := by
  unfold illegalSample
  extract_lets p s1
  have e1 : encSig (enc s1 d c) = encSig (enc s d c) := by
    unfold s1
    rw [enc_raise]
    rfl
  have c1 : rd s1 (pgEnc d c) Off.CNT_ILLEGAL = inc24 (rd s (pgEnc d c) Off.CNT_ILLEGAL) :=
    (rd_raise_off _ _ _ _ _ (by decide)).trans (rd_wr_same ..)
  have v1 : rb s1 (pgEnc d c) Off.EVT_LAT 0 = true := rb_raise_same _ _ _ hp (by decide)
  have p1 : rd48 s1 (pgEnc d c) Off.POS_L = rd48 s (pgEnc d c) Off.POS_L :=
    (rd48_raise_off _ _ _ _ _ (by decide) (by decide)).trans (rd48_wr_off _ _ _ _ _ _ (by decide) (by decide))
  have fin (t : State) (h : EncKept encCounts d c s1 t) : encSig (enc t d c) = encSig (enc s d c) ∧
      rd t (pgEnc d c) Off.CNT_ILLEGAL = inc24 (rd s (pgEnc d c) Off.CNT_ILLEGAL) ∧ rb t (pgEnc d c) Off.EVT_LAT 0 = true :=
    ⟨h.sig.trans e1, (h.regs _ (by decide)).trans c1, h.evts _ v1⟩
  split
  · next hinf =>
    obtain ⟨f1, f2, f3⟩ := fin _ (((EncKept.refl s1).wr' p (o := Off.CNT_INFER) _ (by decide) (by decide)).raise p 1)
    exact ⟨f1, f2, f3, fun h4 => absurd hinf (by simp [p, h4])⟩
  · split
    · next hf =>
      obtain ⟨f1, f2, f3⟩ := fin _ ((EncKept.refl s1).fencePage hc 0x0C)
      exact ⟨f1, f2, f3, fun _ h5 => absurd (show rb s (pgEnc d c) Off.ENC_CFG 5 = true from hf) (by rw [h5]; decide)⟩
    · obtain ⟨f1, f2, f3⟩ := fin _ (.refl s1)
      exact ⟨f1, f2, f3, fun _ _ => ⟨rfl, p1⟩⟩

/-- A decode sample. -/
theorem abSample_spec (hc : c < 8) (hi : encIncr s d c = true) (hp : present s (pgEnc d c) = true) (ab : Nat) :
    (enc (abSample s d c ab) d c).ab = ab ∧ (enc (abSample s d c ab) d c).hasRef = true ∧
    ((enc s d c).hasRef = false → rd48 (abSample s d c ab) (pgEnc d c) Off.POS_L = rd48 s (pgEnc d c) Off.POS_L) ∧
    (∀ n, decodeStep (encMode s d c) (rb s (pgEnc d c) Off.ENC_CFG 8) (enc s d c).ab ab = some n → (enc s d c).hasRef = true →
      rd48 (abSample s d c ab) (pgEnc d c) Off.POS_L =
        uns 48 ((rd48 s (pgEnc d c) Off.POS_L : Int) + if rb s (pgEnc d c) Off.ENC_CFG 3 then -n else n)) ∧
    (decodeStep (encMode s d c) (rb s (pgEnc d c) Off.ENC_CFG 8) (enc s d c).ab ab = none → (enc s d c).hasRef = true →
      rd (abSample s d c ab) (pgEnc d c) Off.CNT_ILLEGAL = inc24 (rd s (pgEnc d c) Off.CNT_ILLEGAL) ∧
      rb (abSample s d c ab) (pgEnc d c) Off.EVT_LAT 0 = true ∧
      (rb s (pgEnc d c) Off.ENC_CFG 4 = false → rb s (pgEnc d c) Off.ENC_CFG 5 = false →
        rd48 (abSample s d c ab) (pgEnc d c) Off.POS_L = rd48 s (pgEnc d c) Off.POS_L)) := by
  unfold abSample
  extract_lets x s1 sign
  have hx : encSig (enc s1 d c) = (ab, true, (enc s d c).z, (enc s d c).zRef) := by
    unfold s1
    rw [enc_setEnc]
    rfl
  have hreg (o : Nat) : rd s1 (pgEnc d c) o = rd s (pgEnc d c) o := rfl
  have hi1 : encIncr s1 d c = true := hi
  have hp1 : present s1 (pgEnc d c) = true := hp
  have hpos : rd48 s1 (pgEnc d c) Off.POS_L = rd48 s (pgEnc d c) Off.POS_L := rfl
  have levels {t : State} (h : encSig (enc t d c) = encSig (enc s1 d c)) : (enc t d c).ab = ab ∧ (enc t d c).hasRef = true :=
    ⟨congrArg Prod.fst (h.trans hx), congrArg (fun y => y.2.1) (h.trans hx)⟩
  rcases Bool.eq_false_or_eq_true x.hasRef with hr | hr
  case inr =>
    have hr' : (enc s d c).hasRef = false := hr
    rw [if_pos (show (!x.hasRef) = true by rw [hr]; rfl)]
    obtain ⟨l1, l2⟩ := levels (t := s1) rfl
    exact ⟨l1, l2, fun _ => hpos, fun _ _ h => absurd (h.symm.trans hr') (by decide), fun _ h => absurd (h.symm.trans hr') (by decide)⟩
  case inl =>
    have hr' : (enc s d c).hasRef = true := hr
    rw [if_neg (show ¬(!x.hasRef) = true by rw [hr]; decide)]
    generalize hst : sampleStamp s1 d c = st
    cases decodeStep (encMode s d c) (rb s (pgEnc d c) Off.ENC_CFG 8) x.ab ab with
    | some n =>
      obtain ⟨l1, l2⟩ := levels (encKept_countBySample hc (.refl s1) (sign * n) st).sig
      refine ⟨l1, l2, fun h => absurd (h.symm.trans hr') (by decide), fun m hm _ => ?_, fun h => absurd h (Option.some_ne_none n)⟩
      obtain rfl : n = m := Option.some.inj hm
      refine (countBySample_pos hc hi1 _ _).trans ?_
      rw [hpos]
      cases hb : rb s (pgEnc d c) Off.ENC_CFG 3 <;> simp [sign, hb]
    | none =>
      obtain ⟨g1, g2, g3, g4⟩ := illegalSample_spec (s := s1) hc hp1
      have hcnt := encKept_countBySample (d := d) hc (.refl (illegalSample s1 d c).2) (illegalSample s1 d c).1 st
      obtain ⟨l1, l2⟩ := levels (hcnt.sig.trans g1)
      refine ⟨l1, l2, fun h => absurd (h.symm.trans hr') (by decide), fun m hm => absurd hm.symm (Option.some_ne_none m), fun _ _ =>
        ⟨(hcnt.regs _ (by decide)).trans g2, hcnt.evts _ g3, fun h4 h5 => ?_⟩⟩
      obtain ⟨k1, k2⟩ := g4 h4 h5
      rw [← hpos, ← k2]
      dsimp only
      rw [k1, countBySample, if_pos rfl]

theorem exec_encCount {la lb : List Bool} (ho : encOn s d c = true) (hi : encIncr s d c = true) (ha : la.length = encN s d c)
    (hb : lb.length = encN s d c) :
    exec (.encCount d c la lb) s = .next (abSample (waitClock s (sampleClock s d c (enc s d c).sampleAt)) d c
      (2 * b2n (majority (decide (2 ≤ (enc s d c).ab)) la) + b2n (majority (decide ((enc s d c).ab % 2 = 1)) lb))) :=
  if_pos (by simp [ho, hi, ha, hb])

/-! ### Index edges (R91 to R93) -/

/-- A channel's state through a pause. -/
theorem enc_waitClock (s : State) (n d c : Nat) : enc (waitClock s n) d c = enc s d c := by
  apply waitClock_inv (φ := fun s => enc s d c) (hU := rfl) <;> exact fun _ _ => rfl

/-- Fewer registers. -/
theorem EncKept.idx (h : EncKept encCounts d c s t) : EncKept [Off.CNT_IDX] d c s t :=
  ⟨by decide, h.sig, fun o ho => h.regs o (by rw [List.mem_singleton.mp ho]; decide), h.evts⟩

theorem encKept_idxMismatch (hc : c < 8) (s : State) (cnt dist st : Int) :
    EncKept [Off.CNT_IDX] d c s (idxMismatch s d c cnt dist st) := by
  unfold idxMismatch
  extract_lets p s1
  have h1 : EncKept [Off.CNT_IDX] d c s s1 :=
    ((((((EncKept.refl s).wr p (o := Off.IDX_MM_ACT_L) _ (by decide) (by decide)).wr p (o := Off.IDX_MM_ACT_L + 4) _ (by decide) (by decide)).wr p
      (o := Off.IDX_MM_EXP_L) _ (by decide) (by decide)).wr p (o := Off.IDX_MM_EXP_L + 4) _ (by decide) (by decide)).wr p (o := Off.IDX_MM_TS_L) _
      (by decide) (by decide)).wr p (o := Off.IDX_MM_TS_L + 4) _ (by decide) (by decide)
  exact ((h1.wr p _ (by decide) (by decide)).raise p 3).posRecord hc ..

/-- A mismatch records its count. -/
theorem idxMismatch_spec (hc : c < 8) (hp : present s (pgEnc d c) = true) (cnt dist st : Int) :
    rd (idxMismatch s d c cnt dist st) (pgEnc d c) Off.CNT_IDX_MM = inc24 (rd s (pgEnc d c) Off.CNT_IDX_MM) ∧
    rb (idxMismatch s d c cnt dist st) (pgEnc d c) Off.EVT_LAT 3 = true ∧
    rd48 (idxMismatch s d c cnt dist st) (pgEnc d c) Off.IDX_MM_ACT_L = uns 48 cnt := by
  unfold idxMismatch
  extract_lets p s1
  have hrec (x : State) (w : Int) (hwt hlt : Bool) : EncKept encCounts d c x (posRecord x d c 5 c 0 cnt st w hwt hlt) :=
    (EncKept.refl x).posRecord hc ..
  refine ⟨((hrec ..).regs _ (by decide)).trans ?_, (hrec ..).evts 3 (rb_raise_same _ _ _ hp (by decide)), ?_⟩
  · refine (rd_raise_off _ _ _ _ _ (by decide)).trans ((rd_wr_same ..).trans (congrArg inc24 ?_))
    exact (rd_wr48_off _ _ _ _ _ _ (by decide) (by decide)).trans ((rd_wr48_off _ _ _ _ _ _ (by decide) (by decide)).trans
      (rd_wr48_off _ _ _ _ _ _ (by decide) (by decide)))
  · have hact (x : State) (w : Int) (hwt hlt : Bool) :
        rd48 (posRecord x d c 5 c 0 cnt st w hwt hlt) (pgEnc d c) Off.IDX_MM_ACT_L = rd48 x (pgEnc d c) Off.IDX_MM_ACT_L := by
      rw [rd48, rdN, rdN, (hrec ..).regs _ (by decide), (hrec ..).regs _ (by decide)]
      rfl
    refine (hact ..).trans ((rd48_raise_off _ _ _ _ _ (by decide) (by decide)).trans ((rd48_wr_off _ _ _ _ _ _ (by decide) (by decide)).trans ?_))
    have hoff (x : State) {o : Nat} (v : Nat) (ho : o = Off.IDX_MM_EXP_L ∨ o = Off.IDX_MM_TS_L) :
        rd48 (wr48 x p o v) p Off.IDX_MM_ACT_L = rd48 x p Off.IDX_MM_ACT_L := by
      rcases ho with rfl | rfl
      all_goals exact (rd48_wr_off _ _ _ _ _ _ (by decide) (by decide)).trans (rd48_wr_off _ _ _ _ _ _ (by decide) (by decide))
    refine (hoff _ _ (.inr rfl)).trans ((hoff _ _ (.inl rfl)).trans ((rd48_wr48 ..).trans (Nat.mod_eq_of_lt ?_)))
    unfold uns
    omega

/-- A checked edge leaves the count of edges. -/
theorem encKept_idxCheck (hc : c < 8) (s : State) (st : Int) : EncKept [Off.CNT_IDX] d c s (idxCheck s d c st) := by
  unfold idxCheck
  extract_lets p w cnt dist s1 s2
  split
  · exact (EncKept.refl s).wr p _ (by decide) (by decide)
  · split
    · have h1 : EncKept [Off.CNT_IDX] d c s s1 :=
        ((EncKept.refl s).wr p (o := Off.IDX_CFG) _ (by decide) (by decide)).of_same rfl fun _ => rfl
      exact h1.trans ((EncKept.refl s1).correctStep hc ..).idx
    · split
      · split
        · exact (((EncKept.refl s).correctPos hc ..).idx).wr p _ (by decide) (by decide)
        · exact .refl s
      · have h2 : EncKept [Off.CNT_IDX] d c s s2 := encKept_idxMismatch hc ..
        split
        · exact h2.trans ((EncKept.refl s2).correctStep hc ..).idx
        · exact h2.trans ((EncKept.refl s2).fencePage hc 0x0B).idx
        · exact h2

/-- A check that finds a mismatch. -/
theorem idxCheck_mismatch (hc : c < 8) (hp : present s (pgEnc d c) = true) (h7 : rb s (pgEnc d c) Off.IDX_CFG 7 = false)
    (hl : (enc s d c).loadAt = none)
    (hd : rf s (pgEnc d c) Off.IDX_CFG 8 16 < (idxDist (rdN s (pgEnc d c) Off.IDX_PERIOD)
      (sgn 48 (rd48 s (pgEnc d c) Off.IDX_EXP_L)) (encPos s d c)).natAbs) (st : Int) :
    rd (idxCheck s d c st) (pgEnc d c) Off.CNT_IDX_MM = inc24 (rd s (pgEnc d c) Off.CNT_IDX_MM) ∧
    rb (idxCheck s d c st) (pgEnc d c) Off.EVT_LAT 3 = true ∧
    rd48 (idxCheck s d c st) (pgEnc d c) Off.IDX_MM_ACT_L = uns 48 (encPos s d c) := by
  unfold idxCheck
  extract_lets p w cnt dist s1 s2
  obtain ⟨g1, g2, g3⟩ := idxMismatch_spec (d := d) hc hp cnt dist st
  rw [if_neg (by rw [hl]; simp), if_neg (by exact (by rw [h7]; decide : ¬rb s (pgEnc d c) Off.IDX_CFG 7 = true)), if_neg (by exact Nat.not_le.mpr hd)]
  have fin (t : State) (h : EncKept encCounts d c s2 t) : rd t (pgEnc d c) Off.CNT_IDX_MM = inc24 (rd s (pgEnc d c) Off.CNT_IDX_MM) ∧
      rb t (pgEnc d c) Off.EVT_LAT 3 = true ∧ rd48 t (pgEnc d c) Off.IDX_MM_ACT_L = uns 48 (encPos s d c) := by
    refine ⟨(h.regs _ (by decide)).trans g1, h.evts _ g2, Eq.trans ?_ g3⟩
    rw [rd48, rdN, rdN, h.regs _ (by decide), h.regs _ (by decide)]
    rfl
  split
  · exact fin _ ((EncKept.refl s2).correctStep hc ..)
  · exact fin _ ((EncKept.refl s2).fencePage hc 0x0B)
  · exact fin _ (.refl s2)

/-- The edge that a sample of Z shows. -/
theorem zSample_spec (hc : c < 8) (hi : encIncr s d c = true) (hp : present s (pgEnc d c) = true) (z : Bool) :
    (enc (zSample s d c z) d c).z = z ∧ (enc (zSample s d c z) d c).zRef = true ∧
    (((enc s d c).zRef && idxQualified s d c (enc s d c).z z) = false →
      rd (zSample s d c z) (pgEnc d c) Off.CNT_IDX = rd s (pgEnc d c) Off.CNT_IDX ∧
      rd48 (zSample s d c z) (pgEnc d c) Off.POS_L = rd48 s (pgEnc d c) Off.POS_L) ∧
    ((enc s d c).zRef = true → idxQualified s d c (enc s d c).z z = true →
      rd (zSample s d c z) (pgEnc d c) Off.CNT_IDX = inc24 (rd s (pgEnc d c) Off.CNT_IDX) ∧
      rb (zSample s d c z) (pgEnc d c) Off.EVT_LAT 2 = true ∧
      (rb s (pgEnc d c) Off.IDX_CFG 2 = true → rb s (pgEnc d c) Off.IDX_CFG 7 = false → (enc s d c).loadAt = none →
        rf s (pgEnc d c) Off.IDX_CFG 8 16 < (idxDist (rdN s (pgEnc d c) Off.IDX_PERIOD)
          (sgn 48 (rd48 s (pgEnc d c) Off.IDX_EXP_L)) (encPos s d c)).natAbs →
        rd (zSample s d c z) (pgEnc d c) Off.CNT_IDX_MM = inc24 (rd s (pgEnc d c) Off.CNT_IDX_MM) ∧
        rb (zSample s d c z) (pgEnc d c) Off.EVT_LAT 3 = true ∧
        rd48 (zSample s d c z) (pgEnc d c) Off.IDX_MM_ACT_L = rd48 s (pgEnc d c) Off.POS_L)) := by
  unfold zSample
  extract_lets p x s1 st s2 s3
  have hx1 : encSig (enc s1 d c) = ((enc s d c).ab, (enc s d c).hasRef, z, true) := by
    unfold s1
    rw [enc_setEnc]
    rfl
  have levels {t : State} (h : encSig (enc t d c) = encSig (enc s1 d c)) : (enc t d c).z = z ∧ (enc t d c).zRef = true :=
    ⟨congrArg (fun y => y.2.2.1) (h.trans hx1), congrArg (fun y => y.2.2.2) (h.trans hx1)⟩
  by_cases hq : (!x.zRef || !idxQualified s d c x.z z) = true
  · rw [if_pos hq]
    obtain ⟨l1, l2⟩ := levels (t := s1) rfl
    refine ⟨l1, l2, fun _ => ⟨rfl, rfl⟩, fun hz hy => absurd hq ?_⟩
    rw [show x.zRef = true from hz, show idxQualified s d c x.z z = true from hy]
    decide
  · rw [if_neg hq]
    have hx2 : enc s2 d c = enc s1 d c := enc_raise ..
    have hreg {o : Nat} (ho : o ≠ Off.EVT_LAT) (hcnt : o ≠ Off.CNT_IDX) : rd s2 p o = rd s p o :=
      (rd_raise_off _ _ _ _ _ ho).trans (rd_wr_off _ _ _ _ _ _ hcnt.symm)
    have h48 {o : Nat} (ho : o ≠ Off.EVT_LAT ∧ o ≠ Off.CNT_IDX) (ho' : o + 4 ≠ Off.EVT_LAT ∧ o + 4 ≠ Off.CNT_IDX) : rd48 s2 p o = rd48 s p o := by
      rw [rd48, rdN, rdN, hreg ho.1 ho.2, hreg ho'.1 ho'.2]
      rfl
    have hcnt2 : rd s2 p Off.CNT_IDX = inc24 (rd s p Off.CNT_IDX) := (rd_raise_off _ _ _ _ _ (by decide)).trans (rd_wr_same ..)
    have hev2 : rb s2 p Off.EVT_LAT 2 = true := rb_raise_same _ _ _ hp (by decide)
    have h3 : EncKept [Off.CNT_IDX] d c s2 s3 := by
      unfold s3
      split
      · exact encKept_idxCheck hc ..
      · exact .refl s2
    have hlast (u : State) : EncKept encCounts d c u (if rb u p Off.LAT_CFG 8 = true then takeLatch u d c 3 0 st else u) := by
      split
      · exact (EncKept.refl u).takeLatch hc ..
      · exact .refl u
    have h4 := h3.trans (hlast s3).idx
    obtain ⟨l1, l2⟩ := levels (h4.sig.trans (congrArg encSig hx2))
    refine ⟨l1, l2, fun h => absurd ?_ hq, fun _ _ => ⟨(h4.regs _ (by decide)).trans hcnt2, h4.evts _ hev2, fun h2 h7 hl hd => ?_⟩⟩
    · have h' : (x.zRef && idxQualified s d c x.z z) = false := h
      rw [← Bool.not_and, h']
      rfl
    · have hi2 : encIncr s2 d c = true := (encIncr_congr (s := s) (hreg (by decide) (by decide))).trans hi
      have hpos : encPos s2 d c = encPos s d c := by
        rw [encPos_incr hi2, encPos_incr hi, h48 (by decide) (by decide)]
      have hl2 : (enc s2 d c).loadAt = none := by
        rw [hx2]
        unfold s1
        rw [enc_setEnc]
        exact hl
      have hdist : rf s2 p Off.IDX_CFG 8 16 < (idxDist (rdN s2 p Off.IDX_PERIOD) (sgn 48 (rd48 s2 p Off.IDX_EXP_L)) (encPos s2 d c)).natAbs := by
        rw [rf, hreg (by decide) (by decide), rdN, hreg (by decide) (by decide), h48 (by decide) (by decide), hpos]
        exact hd
      have h72 : rb s2 p Off.IDX_CFG 7 = false := by rwa [rb, hreg (by decide) (by decide)]
      have hp2 : present s2 p = true := (present_congr (s := s) (t := s2) (by simp [s2, s1]) p).trans hp
      obtain ⟨g1, g2, g3⟩ := idxCheck_mismatch (s := s2) hc hp2 h72 hl2 hdist st
      have e3 : s3 = idxCheck s2 d c st := if_pos (by rwa [rb, hreg (by decide) (by decide)])
      rw [← e3] at g1 g2 g3
      refine ⟨((hlast s3).regs _ (by decide)).trans (g1.trans (congrArg inc24 (hreg (by decide) (by decide)))), (hlast s3).evts _ g2, ?_⟩
      have hact : rd48 (if rb s3 p Off.LAT_CFG 8 = true then takeLatch s3 d c 3 0 st else s3) p Off.IDX_MM_ACT_L = rd48 s3 p Off.IDX_MM_ACT_L := by
        rw [rd48, rdN, rdN, (hlast s3).regs _ (by decide), (hlast s3).regs _ (by decide)]
        rfl
      rw [hact, g3, hpos, encPos_incr hi, uns_sgn _ _ (rd48_lt ..)]

theorem exec_index {raw : List Bool} (ho : encOn s d c = true) (hi : encIncr s d c = true) (ha : raw.length = encN s d c) :
    exec (.index d c raw) s = .next (zSample (waitClock s (sampleClock s d c (enc s d c).zAt)) d c (majority (enc s d c).z raw)) :=
  if_pos (by simp [ho, hi, ha])

end

end Sys2Proof.Machine

namespace Sys2Proof.Machine
open Sys2Proof.Laws

/-! ### Product-detect inputs (R111, R112) -/

/-- The PD page is apart from those of another kind. -/
theorem pd_apart (d : Nat) (k : Kind) (h : .pd ≠ k) : k.Apart (pgPd d) := Kind.apart .pd k rfl h

/-- The inputs of a die with their page, the clock and the die's tick stay. -/
structure PdQuiet (d : Nat) (s t : State) : Prop where
  pds : t.pds = s.pds
  regs : ∀ o, rd t (pgPd d) o = rd s (pgPd d) o
  clock : t.clock = s.clock
  tick : now t d = now s d

section
variable {d n : Nat} {a s t : State}

namespace PdQuiet

theorem refl (s : State) : PdQuiet d s s := ⟨rfl, fun _ => rfl, rfl, rfl⟩

theorem trans (h : PdQuiet d a s) (h' : PdQuiet d s t) : PdQuiet d a t :=
  ⟨h'.pds.trans h.pds, fun o => (h'.regs o).trans (h.regs o), h'.clock.trans h.clock, h'.tick.trans h.tick⟩

theorem posArrange (s : State) (d e : Nat) : PdQuiet d s (posArrange s e) where
  pds := by apply posArrange_inv (φ := (·.pds)) (hU := rfl) <;> exact fun _ _ => rfl
  regs o := (posArrange_keeps (pd_apart d .enc (by decide)) (.refl ..)).regs o
  clock := by apply posArrange_inv (φ := (·.clock)) (hU := rfl) <;> exact fun _ _ => rfl
  tick := by apply posArrange_inv (φ := (now · d)) (hU := rfl) <;> exact fun _ _ => rfl

theorem chuteRecord (s : State) (d e c : Nat) (ws : List Word) : PdQuiet d s (chuteRecord s e c ws) where
  pds := by apply chuteRecord_inv (φ := (·.pds)) (hU := rfl) <;> exact fun _ _ => rfl
  regs o := (chuteRecord_keeps (pd_apart d .chuteGlobal (by decide)) (pd_apart d .chute (by decide)) (.refl ..)).regs o
  clock := by apply chuteRecord_inv (φ := (·.clock)) (hU := rfl) <;> exact fun _ _ => rfl
  tick := by apply chuteRecord_inv (φ := (now · d)) (hU := rfl) <;> exact fun _ _ => rfl

theorem raise (s : State) {p : Pg} (hp : p ≠ pgPd d) (i : Nat) : PdQuiet d s (raise s p i) where
  pds := by apply raise_inv (φ := (·.pds)) (hU := rfl) <;> exact fun _ _ => rfl
  regs o := rd_raise_page _ _ _ _ _ hp
  clock := clock_raise ..
  tick := by apply raise_inv (φ := (now · d)) (hU := rfl) <;> exact fun _ _ => rfl

/-- A change of a die's state but its tick. -/
theorem setDie (s : State) (d e : Nat) (x : DieSt) (hx : x.tick = (die s e).tick) : PdQuiet d s (setDie s e x) := by
  refine ⟨rfl, fun _ => rfl, rfl, ?_⟩
  by_cases he : e = d
  · subst he
    rw [now, die_setDie, hx]
    rfl
  · rw [now, die_setDie_other _ _ _ _ he]
    rfl

theorem posRecord (s : State) (d e k ty ch pd : Nat) (c st w : Int) (wt lt : Bool) : PdQuiet d s (posRecord s e k ty ch pd c st w wt lt) := by
  unfold Machine.posRecord
  extract_lets x old k' t' r
  split
  · exact (setDie s d e _ (by rfl)).trans (posArrange ..)
  · rename_i s1 l src o heq
    have h1 : PdQuiet d s s1 := by
      unfold s1
      split
      · exact chuteRecord ..
      · exact .refl s
    exact (h1.trans (setDie s1 d e _ (by rfl))).trans (posArrange ..)

theorem wr (s : State) {p : Pg} (hp : p ≠ pgPd d) (o : Nat) (w : Word) : PdQuiet d s (wr s p o w) :=
  ⟨rfl, fun _ => rd_wr_page _ _ _ _ _ _ hp, rfl, rfl⟩

theorem latchSet (s : State) {d c : Nat} (hc : pgEnc d c ≠ pgPd d) (src pd : Nat) (st : Int) : PdQuiet d s (latchSet s d c src pd st) := by
  unfold Machine.latchSet
  extract_lets p m v x s1 s2 s3
  have h1 : PdQuiet d s s1 := ⟨rfl, fun _ => rfl, rfl, rfl⟩
  have h3 : PdQuiet d s s3 := (((((h1.trans (wr _ hc _ _)).trans (wr _ hc _ _)).trans (wr _ hc _ _)).trans (wr _ hc _ _)).trans (wr _ hc _ _)).trans
    (wr _ hc _ _)
  exact h3.trans (posRecord ..)

theorem takeLatch (s : State) {d c : Nat} (hc : pgEnc d c ≠ pgPd d) (src pd : Nat) (st : Int) : PdQuiet d s (takeLatch s d c src pd st) := by
  unfold Machine.takeLatch
  extract_lets p x
  split
  · exact .refl s
  · split
    · split
      · exact latchSet s hc ..
      · exact .refl s
    · exact (raise s hc 5).trans (latchSet _ hc ..)

theorem sendMsg (s : State) (d e c : Nat) (k : MsgKind) : PdQuiet d s (sendMsg s e c k) := ⟨rfl, fun _ => rfl, rfl, rfl⟩

end PdQuiet

/-- An accepted edge (R111). -/
theorem pdAccept_spec (hn : n < 8) (hp : present s (pgPd d) = true) (st : Int) :
    rd (pdAccept s d n st) (pgPd d) (Off.PD_ACC + 4 * n) = inc24 (rd s (pgPd d) (Off.PD_ACC + 4 * n)) ∧
    rb (pdAccept s d n st) (pgPd d) Off.EVT_LAT n = true ∧
    rd48 (pdAccept s d n st) (pgPd d) (Off.PD_TS_L + 16 * n) = uns 48 st ∧
    rd (pdAccept s d n st) (pgPd d) Off.PD_LEVEL = rd s (pgPd d) Off.PD_LEVEL ∧
    (pdIn (pdAccept s d n st) d n).raw = (pdIn s d n).raw ∧ (pdIn (pdAccept s d n st) d n).since = (pdIn s d n).since ∧
    (pdAccept s d n st).clock = s.clock ∧ now (pdAccept s d n st) d = now s d := by
  unfold pdAccept
  extract_lets p w ub pos dif s1 s2 lock y s3 s4 s5
  have h5 : PdQuiet d s3 (sendMsg s5 d n (.pdEdge n (uns 48 st) s.clock pos)) := by
    have h4 : PdQuiet d s3 s4 := each_pres (P := PdQuiet d s3) (.refl s3) fun u c _ hu => hu.trans (.takeLatch u (pd_apart d .enc (by decide) d c) ..)
    exact (h4.trans (.posRecord ..)).trans (.sendMsg ..)
  have hoff {o : Nat} (h : o = Off.PD_ACC + 4 * n ∨ o = Off.PD_TS_L + 16 * n ∨ o = Off.PD_TS_L + 16 * n + 4 ∨ o = Off.PD_LEVEL ∨ o = Off.EVT_LAT) :
      rd s2 p o = rd s1 p o := by
    unfold s2
    split
    · rfl
    · refine rd_wr48_off _ _ _ _ _ _ ?_ ?_
      all_goals
        simp only [Off.PD_ACC, Off.PD_TS_L, Off.PD_LEVEL, Off.EVT_LAT, Off.PD_POS_L] at h ⊢
        omega
  have hreg {o : Nat} (h : o = Off.PD_ACC + 4 * n ∨ o = Off.PD_TS_L + 16 * n ∨ o = Off.PD_TS_L + 16 * n + 4 ∨ o = Off.PD_LEVEL ∨ o = Off.EVT_LAT) :
      rd (sendMsg s5 d n (.pdEdge n (uns 48 st) s.clock pos)) p o = rd s1 p o := (h5.regs o).trans (hoff h)
  have hacc : Off.PD_ACC + 4 * n ≠ Off.EVT_LAT ∧ Off.PD_TS_L + 16 * n ≠ Off.PD_ACC + 4 * n ∧ Off.PD_TS_L + 16 * n + 4 ≠ Off.PD_ACC + 4 * n ∧
      Off.PD_TS_L + 16 * n ≠ Off.EVT_LAT ∧ Off.PD_TS_L + 16 * n + 4 ≠ Off.EVT_LAT ∧ Off.PD_TS_L + 16 * n ≠ Off.PD_LEVEL ∧
      Off.PD_TS_L + 16 * n + 4 ≠ Off.PD_LEVEL ∧ Off.PD_ACC + 4 * n ≠ Off.PD_LEVEL := by
    simp only [Off.PD_ACC, Off.PD_TS_L, Off.PD_LEVEL, Off.EVT_LAT]
    omega
  obtain ⟨a1, a2, a3, a4, a5, a6, a7, a8⟩ := hacc
  have k2 : s2.pds = s.pds ∧ s2.clock = s.clock ∧ now s2 d = now s d := by
    have k1 : s1.pds = s.pds ∧ s1.clock = s.clock ∧ now s1 d = now s d := by
      refine ⟨?_, clock_raise .., ?_⟩
      · apply raise_inv (φ := (·.pds)) (hU := rfl) <;> exact fun _ _ => rfl
      · apply raise_inv (φ := (now · d)) (hU := rfl) <;> exact fun _ _ => rfl
    unfold s2
    split
    · exact k1
    · exact k1
  obtain ⟨kp, kc, kn⟩ := k2
  have hin : pdIn (sendMsg s5 d n (.pdEdge n (uns 48 st) s.clock pos)) d n = { pdIn s2 d n with locked := lock, lockClock := s.clock } := by
    rw [pdIn, h5.pds]
    exact pdIn_setPdIn ..
  have hin2 : pdIn s2 d n = pdIn s d n := by rw [pdIn, kp, ← pdIn]
  refine ⟨(hreg (.inl rfl)).trans ?_, ?_, ?_, (hreg (by simp)).trans ?_, ?_, ?_, h5.clock.trans kc, h5.tick.trans kn⟩
  · refine (rd_raise_off _ _ _ _ _ a1).trans ((rd_wr_same ..).trans (congrArg inc24 ?_))
    exact rd_wr48_off _ _ _ _ _ _ a2 a3
  · rw [rb, hreg (by simp), ← rb]
    exact rb_raise_same _ _ _ hp (by omega)
  · rw [rd48, rdN, rdN, hreg (by simp), hreg (by simp)]
    refine (rd48_raise_off _ _ _ _ _ a4 a5).trans ((rd48_wr_off _ _ _ _ _ _ a2.symm a3.symm).trans ((rd48_wr48 ..).trans (Nat.mod_eq_of_lt ?_)))
    unfold uns
    omega
  · exact (rd_raise_off _ _ _ _ _ (by decide)).trans ((rd_wr_off _ _ _ _ _ _ a8).trans (rd_wr48_off _ _ _ _ _ _ a6 a7))
  · rw [hin, hin2]
  · rw [hin, hin2]

/-- An ignored edge (R112). -/
theorem pdIgnore_spec (hn : n < 8) (hp : present s (pgPd d) = true) :
    rd (pdIgnore s d n) (pgPd d) (Off.PD_LOCKED + 4 * n) = inc24 (rd s (pgPd d) (Off.PD_LOCKED + 4 * n)) ∧
    rb (pdIgnore s d n) (pgPd d) Off.EVT_LAT (8 + n) = true ∧ (pdIgnore s d n).msgs = s.msgs ∧
    rd (pdIgnore s d n) (pgPd d) Off.PD_LEVEL = rd s (pgPd d) Off.PD_LEVEL ∧ (pdIgnore s d n).pds = s.pds ∧
    (pdIgnore s d n).clock = s.clock ∧ now (pdIgnore s d n) d = now s d := by
  have hne : Off.PD_LOCKED + 4 * n ≠ Off.EVT_LAT ∧ Off.PD_LOCKED + 4 * n ≠ Off.PD_LEVEL := by
    simp only [Off.PD_LOCKED, Off.PD_LEVEL, Off.EVT_LAT]
    omega
  unfold pdIgnore
  refine ⟨(rd_raise_off _ _ _ _ _ hne.1).trans (rd_wr_same ..), rb_raise_same _ _ _ hp (by omega), ?_,
    (rd_raise_off _ _ _ _ _ (by decide)).trans (rd_wr_off _ _ _ _ _ _ hne.2), ?_, clock_raise .., ?_⟩
  · apply raise_inv (φ := (·.msgs)) (hU := rfl) <;> exact fun _ _ => rfl
  · apply raise_inv (φ := (·.pds)) (hU := rfl) <;> exact fun _ _ => rfl
  · apply raise_inv (φ := (now · d)) (hU := rfl) <;> exact fun _ _ => rfl

/-- A filtered level that changes (R111). -/
theorem pdPass_spec (hn : n < 8) (hp : present s (pgPd d) = true) (hl : rb s (pgPd d) Off.PD_LEVEL n ≠ pdIn1 s d n)
    (hw : (pdIn s d n).since + pdNeed s d n ≤ s.clock) :
    rb (pdPass s d n) (pgPd d) Off.PD_LEVEL n = pdIn1 s d n ∧
    (bit (pdCfg s d n) 0 = true → pdEdgeOk (fld (pdCfg s d n) 1 2) (pdIn1 s d n) = true →
      (lockEnded s d n = true →
        rd (pdPass s d n) (pgPd d) (Off.PD_ACC + 4 * n) = inc24 (rd s (pgPd d) (Off.PD_ACC + 4 * n)) ∧
        rb (pdPass s d n) (pgPd d) Off.EVT_LAT n = true ∧
        rd48 (pdPass s d n) (pgPd d) (Off.PD_TS_L + 16 * n) =
          uns 48 ((now (pdPass s d n) d : Int) - (((pdPass s d n).clock - (pdIn s d n).since : Nat) : Int) - 2)) ∧
      (lockEnded s d n = false →
        rd (pdPass s d n) (pgPd d) (Off.PD_LOCKED + 4 * n) = inc24 (rd s (pgPd d) (Off.PD_LOCKED + 4 * n)) ∧
        rb (pdPass s d n) (pgPd d) Off.EVT_LAT (8 + n) = true ∧ (pdPass s d n).msgs = s.msgs)) := by
  unfold pdPass
  extract_lets p x level w s1
  rw [if_neg (not_or.mpr ⟨hl, Nat.not_lt.mpr hw⟩)]
  have hlev : rb s1 p Off.PD_LEVEL n = pdIn1 s d n := rb_wb_same _ _ _ _ _ (by omega)
  have hr {o : Nat} (ho : o ≠ Off.PD_LEVEL) : rd s1 p o = rd s p o := rd_wr_off _ _ _ _ _ _ ho.symm
  have hacc : Off.PD_ACC + 4 * n ≠ Off.PD_LEVEL ∧ Off.PD_LOCKED + 4 * n ≠ Off.PD_LEVEL := by
    simp only [Off.PD_ACC, Off.PD_LOCKED, Off.PD_LEVEL]
    omega
  split
  · next hno =>
    refine ⟨hlev, fun h0 he => absurd hno ?_⟩
    rw [show bit w 0 = true from h0, show pdEdgeOk (fld w 1 2) level = true from he]
    decide
  · split
    · next hend =>
      obtain ⟨g1, g2, g3, g4, -, -, g7, g8⟩ :=
        pdAccept_spec (s := s1) hn hp ((now s d : Int) - ((s.clock - x.since : Nat) : Int) - 2)
      refine ⟨by rw [rb, g4]; exact hlev, fun _ _ => ⟨fun _ => ⟨g1.trans (congrArg inc24 (hr hacc.1)), g2, g3.trans ?_⟩,
        fun h => absurd (h.symm.trans hend) (by decide)⟩⟩
      rw [g7, g8]
      rfl
    · next hend =>
      obtain ⟨g1, g2, g3, g4, -, -, -⟩ := pdIgnore_spec (s := s1) hn hp
      exact ⟨by rw [rb, g4]; exact hlev, fun _ _ => ⟨fun h => absurd h hend, fun _ => ⟨g1.trans (congrArg inc24 (hr hacc.2)), g2, g3⟩⟩⟩

/-- The level of the raw samples and the clock stay. -/
theorem pdPass_raw (hn : n < 8) (hp : present s (pgPd d) = true) :
    (pdIn (pdPass s d n) d n).raw = (pdIn s d n).raw ∧ (pdPass s d n).clock = s.clock := by
  unfold pdPass
  extract_lets p x level w s1
  split
  · exact ⟨rfl, rfl⟩
  · split
    · exact ⟨rfl, rfl⟩
    · split
      · obtain ⟨-, -, -, -, g5, -, g7, -⟩ :=
          pdAccept_spec (s := s1) hn hp ((now s d : Int) - ((s.clock - x.since : Nat) : Int) - 2)
        exact ⟨g5, g7⟩
      · obtain ⟨-, -, -, -, g5, g6, -⟩ := pdIgnore_spec (s := s1) hn hp
        exact ⟨by rw [pdIn, g5]; rfl, g6⟩

theorem exec_product {l : Bool} (hn : n < 8) (hr : running s (pgPd d) = true) :
    exec (.product d n l) s = .next (pdRaw (pdPass (if (pdIn s d n).raw = l ∧ rb s (pgPd d) Off.PD_LEVEL n ≠ pdIn1 s d n then
      waitClock s ((pdIn s d n).since + pdNeed s d n) else s) d n) d n l) :=
  if_pos (by simp [hn, hr])

/-- A raw level that the input has already. -/
theorem pdRaw_same {l : Bool} (h : (pdIn s d n).raw = l) : pdRaw s d n l = s := if_pos h

/-- What a pause leaves of an input. -/
theorem pdIn_waitClock (s : State) (c d n : Nat) : pdIn (waitClock s c) d n = pdIn s d n := by
  apply waitClock_inv (φ := fun s => pdIn s d n) (hU := rfl) <;> exact fun _ _ => rfl

theorem pdReg_waitClock (s : State) (c d n : Nat) :
    pdCfg (waitClock s c) d n = pdCfg s d n ∧ pdLock (waitClock s c) d n = pdLock s d n :=
  ⟨rd_waitClock _ _ (by simp only [Off.PD_CFG, Off.EVT_LAT]; omega),
    congrArg BitVec.toNat (rd_waitClock _ _ (by simp only [Off.PD_LOCK, Off.EVT_LAT]; omega))⟩

/-- A pause leaves what an incremental channel's samples read. -/
theorem encReg_waitClock (s : State) (c : Nat) {q : Pg} {o : Nat} (h : o ≠ Off.EVT_LAT ∧ o + 4 ≠ Off.EVT_LAT) :
    rd48 (waitClock s c) q o = rd48 s q o := by
  rw [rd48, rdN, rdN, rd_waitClock _ _ h.1, rd_waitClock _ _ h.2]
  rfl

/-- The lockout of an unbound input has ended once its time has passed (R112). -/
theorem lockEnded_waitClock (h : bit (pdCfg s d n) 17 = true) :
    lockEnded (waitClock s ((pdIn s d n).lockClock + 256 * pdLock s d n)) d n = true := by
  unfold lockEnded
  simp only [(pdReg_waitClock ..).1, (pdReg_waitClock ..).2, pdIn_waitClock, h, if_true]
  rw [decide_eq_true (clock_waitClock_le ..), Bool.or_true]

theorem exec_pdLockoutEnd (hn : n < 8) (hl : (pdIn s d n).locked = true) :
    exec (.pdLockoutEnd d n) s = .next
      (if lockEnded (if bit (pdCfg s d n) 17 then waitClock s ((pdIn s d n).lockClock + 256 * pdLock s d n) else s) d n then
        setPdIn (if bit (pdCfg s d n) 17 then waitClock s ((pdIn s d n).lockClock + 256 * pdLock s d n) else s) d n
          { pdIn (if bit (pdCfg s d n) 17 then waitClock s ((pdIn s d n).lockClock + 256 * pdLock s d n) else s) d n with locked := false }
      else if bit (pdCfg s d n) 17 then waitClock s ((pdIn s d n).lockClock + 256 * pdLock s d n) else s) :=
  if_pos (by simp [hn, hl])

end

/-- A decode sample of an incremental channel (R84 to R88). -/
theorem encCount_spec {s : State} {d c : Nat} {la lb : List Bool} (ho : encOn s d c = true) (hi : encIncr s d c = true)
    (ha : la.length = encN s d c) (hb : lb.length = encN s d c) (ab : Nat)
    (hab : ab = 2 * b2n (majority (decide (2 ≤ (enc s d c).ab)) la) + b2n (majority (decide ((enc s d c).ab % 2 = 1)) lb)) :
    Completes (.encCount d c la lb) s fun t => (enc t d c).ab = ab ∧ (enc t d c).hasRef = true ∧
      ((enc s d c).hasRef = false → rd48 t (pgEnc d c) Off.POS_L = rd48 s (pgEnc d c) Off.POS_L) ∧
      (∀ n, decodeStep (encMode s d c) (rb s (pgEnc d c) Off.ENC_CFG 8) (enc s d c).ab ab = some n → (enc s d c).hasRef = true →
        rd48 t (pgEnc d c) Off.POS_L =
          uns 48 ((rd48 s (pgEnc d c) Off.POS_L : Int) + if rb s (pgEnc d c) Off.ENC_CFG 3 then -n else n)) ∧
      (decodeStep (encMode s d c) (rb s (pgEnc d c) Off.ENC_CFG 8) (enc s d c).ab ab = none → (enc s d c).hasRef = true →
        rd t (pgEnc d c) Off.CNT_ILLEGAL = inc24 (rd s (pgEnc d c) Off.CNT_ILLEGAL) ∧ rb t (pgEnc d c) Off.EVT_LAT 0 = true ∧
        (rb s (pgEnc d c) Off.ENC_CFG 4 = false → rb s (pgEnc d c) Off.ENC_CFG 5 = false →
          rd48 t (pgEnc d c) Off.POS_L = rd48 s (pgEnc d c) Off.POS_L)) := by
  refine .of (exec_encCount ho hi ha hb) ?_
  rw [← hab]
  obtain ⟨hc, hp⟩ := encOn_present ho
  have he := enc_waitClock s (sampleClock s d c (enc s d c).sampleAt) d c
  have hr {q : Pg} {o : Nat} (h : o ≠ Off.EVT_LAT) : rd (waitClock s (sampleClock s d c (enc s d c).sampleAt)) q o = rd s q o := rd_waitClock _ _ h
  have hpos : rd48 (waitClock s (sampleClock s d c (enc s d c).sampleAt)) (pgEnc d c) Off.POS_L = rd48 s (pgEnc d c) Off.POS_L :=
    encReg_waitClock _ _ (by decide)
  have hp' : present (waitClock s (sampleClock s d c (enc s d c).sampleAt)) (pgEnc d c) = true := by rwa [present_waitClock]
  generalize waitClock s (sampleClock s d c (enc s d c).sampleAt) = u at he hr hpos hp' ⊢
  have hm : encMode u d c = encMode s d c := by rw [encMode, encMode, rf, rf, hr (by decide)]
  have hb (i : Nat) : rb u (pgEnc d c) Off.ENC_CFG i = rb s (pgEnc d c) Off.ENC_CFG i := by rw [rb, rb, hr (by decide)]
  have h := abSample_spec hc ((encIncr_congr (hr (by decide))).trans hi) hp' ab
  rw [he, hm, hb, hb, hb, hb, hpos, hr (by decide)] at h
  exact h

/-- A sample of Z of an incremental channel (R91 to R93). -/
theorem index_spec {s : State} {d c : Nat} {raw : List Bool} (ho : encOn s d c = true) (hi : encIncr s d c = true)
    (hraw : raw.length = encN s d c) (z : Bool) (hz : z = majority (enc s d c).z raw) :
    Completes (.index d c raw) s fun t => (enc t d c).z = z ∧ (enc t d c).zRef = true ∧
      (((enc s d c).zRef && idxQualified s d c (enc s d c).z z) = false →
        rd t (pgEnc d c) Off.CNT_IDX = rd s (pgEnc d c) Off.CNT_IDX ∧
        rd48 t (pgEnc d c) Off.POS_L = rd48 s (pgEnc d c) Off.POS_L) ∧
      ((enc s d c).zRef = true → idxQualified s d c (enc s d c).z z = true →
        rd t (pgEnc d c) Off.CNT_IDX = inc24 (rd s (pgEnc d c) Off.CNT_IDX) ∧ rb t (pgEnc d c) Off.EVT_LAT 2 = true ∧
        (rb s (pgEnc d c) Off.IDX_CFG 2 = true → rb s (pgEnc d c) Off.IDX_CFG 7 = false → (enc s d c).loadAt = none →
          rf s (pgEnc d c) Off.IDX_CFG 8 16 < (idxDist (rdN s (pgEnc d c) Off.IDX_PERIOD)
            (sgn 48 (rd48 s (pgEnc d c) Off.IDX_EXP_L)) (encPos s d c)).natAbs →
          rd t (pgEnc d c) Off.CNT_IDX_MM = inc24 (rd s (pgEnc d c) Off.CNT_IDX_MM) ∧ rb t (pgEnc d c) Off.EVT_LAT 3 = true ∧
          rd48 t (pgEnc d c) Off.IDX_MM_ACT_L = rd48 s (pgEnc d c) Off.POS_L)) := by
  refine .of (exec_index ho hi hraw) ?_
  rw [← hz]
  obtain ⟨hc, hp⟩ := encOn_present ho
  have he := enc_waitClock s (sampleClock s d c (enc s d c).zAt) d c
  have hr {q : Pg} {o : Nat} (h : o ≠ Off.EVT_LAT) : rd (waitClock s (sampleClock s d c (enc s d c).zAt)) q o = rd s q o := rd_waitClock _ _ h
  have hpos {o : Nat} (h : o ≠ Off.EVT_LAT ∧ o + 4 ≠ Off.EVT_LAT) :
      rd48 (waitClock s (sampleClock s d c (enc s d c).zAt)) (pgEnc d c) o = rd48 s (pgEnc d c) o := encReg_waitClock _ _ h
  have hp' : present (waitClock s (sampleClock s d c (enc s d c).zAt)) (pgEnc d c) = true := by rwa [present_waitClock]
  generalize waitClock s (sampleClock s d c (enc s d c).zAt) = u at he hr hpos hp' ⊢
  have hi' : encIncr u d c = true := (encIncr_congr (hr (by decide))).trans hi
  have hq (a b : Bool) : idxQualified u d c a b = idxQualified s d c a b := by
    unfold idxQualified encMode rf
    simp only [he, hr (o := Off.IDX_CFG) (by decide), hr (o := Off.ENC_CFG) (by decide)]
  have hx : encPos u d c = encPos s d c := by rw [encPos_incr hi', encPos_incr hi, hpos (by decide)]
  have hb (i : Nat) : rb u (pgEnc d c) Off.IDX_CFG i = rb s (pgEnc d c) Off.IDX_CFG i := by rw [rb, rb, hr (by decide)]
  have ht : rf u (pgEnc d c) Off.IDX_CFG 8 16 = rf s (pgEnc d c) Off.IDX_CFG 8 16 := by rw [rf, rf, hr (by decide)]
  have hd : rdN u (pgEnc d c) Off.IDX_PERIOD = rdN s (pgEnc d c) Off.IDX_PERIOD := by rw [rdN, rdN, hr (by decide)]
  have h := zSample_spec hc hi' hp' z
  rw [he, hq, hx, hpos (o := Off.POS_L) (by decide), hpos (o := Off.IDX_EXP_L) (by decide), hb 2, hb 7, ht, hd, hr (o := Off.CNT_IDX) (by decide), hr (o := Off.CNT_IDX_MM) (by decide)] at h
  exact h

/-- A raw sample of a product-detect input (R111, R112). -/
theorem product_spec {s : State} {d n : Nat} {l : Bool} (hn : n < 8) (hr : running s (pgPd d) = true) :
    ((pdIn s d n).raw ≠ l → Completes (.product d n l) s fun t =>
      (pdIn t d n).raw = l ∧ (pdIn t d n).since = s.clock ∧ t.clock = s.clock) ∧
    ((pdIn s d n).raw = l → rb s (pgPd d) Off.PD_LEVEL n = pdIn1 s d n → exec (.product d n l) s = .next s) ∧
    ((pdIn s d n).raw = l → rb s (pgPd d) Off.PD_LEVEL n ≠ pdIn1 s d n → Completes (.product d n l) s fun t =>
      rb t (pgPd d) Off.PD_LEVEL n = pdIn1 s d n ∧ (pdIn s d n).since + pdNeed s d n ≤ t.clock ∧
      (bit (pdCfg s d n) 0 = true → pdEdgeOk (fld (pdCfg s d n) 1 2) (pdIn1 s d n) = true →
        (lockEnded (waitClock s ((pdIn s d n).since + pdNeed s d n)) d n = true →
          rd t (pgPd d) (Off.PD_ACC + 4 * n) = inc24 (rd s (pgPd d) (Off.PD_ACC + 4 * n)) ∧ rb t (pgPd d) Off.EVT_LAT n = true ∧
          rd48 t (pgPd d) (Off.PD_TS_L + 16 * n) =
            uns 48 ((now t d : Int) - ((t.clock - (pdIn s d n).since : Nat) : Int) - 2)) ∧
        (lockEnded (waitClock s ((pdIn s d n).since + pdNeed s d n)) d n = false →
          rd t (pgPd d) (Off.PD_LOCKED + 4 * n) = inc24 (rd s (pgPd d) (Off.PD_LOCKED + 4 * n)) ∧
          rb t (pgPd d) Off.EVT_LAT (8 + n) = true ∧ t.msgs = s.msgs))) := by
  have hp : present s (pgPd d) = true := by
    simp only [running, Bool.and_eq_true] at hr
    exact hr.1
  refine ⟨fun hl => .of (exec_product hn hr) ?_, fun hl hlev => (exec_product hn hr).trans ?_, fun hl hlev => .of (exec_product hn hr) ?_⟩
  · rw [if_neg (fun h => hl h.1)]
    obtain ⟨g1, g2⟩ := pdPass_raw (d := d) hn hp
    rw [pdRaw, if_neg (by rwa [g1]), pdIn_setPdIn]
    exact ⟨rfl, g2, g2⟩
  · rw [if_neg (fun h => h.2 hlev)]
    have hpass : pdPass s d n = s := if_pos (.inl hlev)
    rw [hpass, pdRaw_same hl]
  · rw [if_pos ⟨hl, hlev⟩]
    have hin := pdIn_waitClock s ((pdIn s d n).since + pdNeed s d n) d n
    obtain ⟨hcfg, -⟩ := pdReg_waitClock s ((pdIn s d n).since + pdNeed s d n) d n
    have hreg {q : Pg} {o : Nat} (h : o ≠ Off.EVT_LAT) : rd (waitClock s ((pdIn s d n).since + pdNeed s d n)) q o = rd s q o := rd_waitClock _ _ h
    have hp' : present (waitClock s ((pdIn s d n).since + pdNeed s d n)) (pgPd d) = true := by rwa [present_waitClock]
    have hm : (waitClock s ((pdIn s d n).since + pdNeed s d n)).msgs = s.msgs := by
      apply waitClock_inv (φ := (·.msgs)) (hU := rfl) <;> exact fun _ _ => rfl
    have hw := clock_waitClock_le s ((pdIn s d n).since + pdNeed s d n)
    generalize waitClock s ((pdIn s d n).since + pdNeed s d n) = u at hin hcfg hreg hp' hm hw ⊢
    have h1 : pdIn1 u d n = pdIn1 s d n := by rw [pdIn1, pdIn1, hin, hcfg]
    have hneed : pdNeed u d n = pdNeed s d n := by rw [pdNeed, pdNeed, hcfg]
    have hlev' : rb u (pgPd d) Off.PD_LEVEL n ≠ pdIn1 u d n := by rwa [h1, rb, hreg (by decide)]
    obtain ⟨k1, k2⟩ := pdPass_raw (s := u) (d := d) hn hp'
    rw [pdRaw_same (by rw [k1, hin]; exact hl)]
    have h := pdPass_spec (s := u) hn hp' hlev' (by rw [hin, hneed]; exact hw)
    rw [h1, hcfg, hin, hm, hreg (o := Off.PD_ACC + 4 * n) (by simp only [Off.PD_ACC, Off.EVT_LAT]; omega),
      hreg (o := Off.PD_LOCKED + 4 * n) (by simp only [Off.PD_LOCKED, Off.EVT_LAT]; omega)] at h
    exact ⟨h.1, by rw [k2]; exact hw, h.2⟩

/-- The end of a lockout (R112). -/
theorem pdLockoutEnd_spec {s : State} {d n : Nat} (hn : n < 8) (hl : (pdIn s d n).locked = true) :
    (bit (pdCfg s d n) 17 = true → Completes (.pdLockoutEnd d n) s fun t =>
      (pdIn t d n).locked = false ∧ (pdIn s d n).lockClock + 256 * pdLock s d n ≤ t.clock) ∧
    (bit (pdCfg s d n) 17 = false → lockEnded s d n = true → Completes (.pdLockoutEnd d n) s fun t =>
      (pdIn t d n).locked = false ∧ t.regs = s.regs) ∧
    (bit (pdCfg s d n) 17 = false → lockEnded s d n = false → exec (.pdLockoutEnd d n) s = .next s) := by
  refine ⟨fun hb => .of (exec_pdLockoutEnd hn hl) ?_, fun hb he => .of (exec_pdLockoutEnd hn hl) ?_,
    fun hb he => (exec_pdLockoutEnd hn hl).trans ?_⟩
  · rw [if_pos hb, if_pos (lockEnded_waitClock hb), pdIn_setPdIn]
    exact ⟨rfl, clock_waitClock_le ..⟩
  · rw [if_neg (show ¬bit (pdCfg s d n) 17 = true by rw [hb]; decide), if_pos he, pdIn_setPdIn]
    exact ⟨rfl, rfl⟩
  · rw [if_neg (show ¬bit (pdCfg s d n) 17 = true by rw [hb]; decide), if_neg (show ¬lockEnded s d n = true by rw [he]; decide)]

/-- Settles O20: each command waits for its sample and then is one operation of the channel or the input. -/
theorem encoderCounts : Obligations.EncoderCounts := by
  unfold Obligations.EncoderCounts
  refine ⟨fun s d c la lb ho hi ha hb ab hab => ?_, fun s d c raw ho hi hraw z hz => index_spec ho hi hraw z hz,
    fun s d n l hn hr => product_spec hn hr, fun s d n hn hl => pdLockoutEnd_spec hn hl⟩
  obtain ⟨t, ht, h1, h2, h3, h4, h5⟩ := encCount_spec ho hi ha hb ab hab
  exact ⟨t, ht, h1, h2, h3, h4, h5, fun _ => rfl⟩

end Sys2Proof.Machine

namespace Sys2Proof.Machine

/-! RESUME and the words in the chutes (R127, R143, R298). -/

/-- A timing context and a follower that has rejoined stand PAUSED; the assembler holds a block of the follower, and the next
word of its chute is poisoned. -/
def resumePoisoned : State :=
  let s := setPstate (setPstate State.reset (pgEnc 0 0) stRunning) (pgChute 0 0) stRunning
  let s := setEnc { s with pkg := { s.pkg with power := .running } } 0 0 { enc s 0 0 with jet := { (enc s 0 0).jet with valid := true } }
  let s := setCtx s 0 0 { ctx s 0 0 with st := .paused, lat := [(0, 0x80000#24)] }
  let s := setCtx s 0 1 { ctx s 0 1 with st := .paused, skipDue := true }
  setChute s 0 0 { chute s 0 0 with
    words := [{ w := 0#24, ecc := .bad }], blk := some { ctx := 1, head := [], sw := 0, line := [0#24] } }

theorem ctx_resumePoisoned :
    (ctx (ctxCommand ⟨.firmware, 0⟩ 0 0 5 true (resumeCmd 0 0) resumePoisoned) 0 1).st = .fenced := by
  decide +kernel

theorem stage_resumePoisoned (o : Option Nat) : (scope resumePoisoned 0 o).stage ≠ 3 := by
  cases o with
  | none => decide
  | some p => exact (by decide : ({} : ScopeSt).stage ≠ 3)

/-- Refutes O23: as the follower skips lines at RESUME its block goes on in the assembler, and a poisoned word of the chute,
which is no word of memory, fences it. -/
theorem not_contextCommands : ¬ Obligations.ContextCommands := by
  intro h
  obtain ⟨-, hcmds, -⟩ := h
  have htaken : CtxTaken resumePoisoned ⟨.firmware, 0⟩ 0 0 := ⟨⟨by decide, by decide⟩, by decide, by decide, stage_resumePoisoned⟩
  obtain ⟨-, -, -, hresume, -⟩ := hcmds resumePoisoned ⟨.firmware, 0⟩ 0 0 htaken (by decide)
  obtain ⟨t, ht, -, -, hgo⟩ := hresume (by decide) (by decide) (by decide) (by decide)
  obtain ⟨hmoved, -⟩ := hgo (by decide)
  obtain rfl : ctxCommand ⟨.firmware, 0⟩ 0 0 5 true (resumeCmd 0 0) resumePoisoned = t := Host.Outcome.next.inj ht
  exact absurd (ctx_resumePoisoned.symm.trans (hmoved 1 (by decide))) (by decide)

end Sys2Proof.Machine

namespace Sys2Proof.Machine

/-! Building lines and the words in the chutes (R126, R159, R298). -/

/-- Line 0 of a PAUSED context can be built, its line 5 is bound and has not fired, and the assembler holds a block of the
context whose next word in the chute is poisoned. -/
def buildPoisoned : State :=
  let s := setPstate State.reset (pgChute 0 0) stRunning
  let s := setCtx s 0 0 { ctx s 0 0 with st := .paused, geom := [0#24], imgEnds := [(0, 0)] }
  let s := setPort s 0 0 { port s 0 0 with cycles := [{ members := [{ ctx := 0, line := 5 }] }] }
  setChute s 0 0 { chute s 0 0 with
    words := [{ w := 0#24, ecc := .bad }], blk := some { ctx := 0, head := [], sw := 0, line := [0#24] } }

theorem built_buildPoisoned : (ctx (lineBuild buildPoisoned 0 0) 0 0).built.length = 2 := by
  decide +kernel

/-- Refutes O26: the block in the assembler goes on after LINE_BUILD, a poisoned word of the chute, which is no word of memory,
fences the context, and the bound line withdrawn from its cycle joins the built lines. -/
theorem not_imageBlocks : ¬ Obligations.ImageBlocks := by
  intro h
  obtain ⟨-, -, hbuild, -⟩ := h
  obtain ⟨t, ht, -, b, hbuilt, -⟩ := hbuild buildPoisoned 0 0 (by decide) (by decide) (by decide) (by decide) (by decide)
  obtain rfl : lineBuild buildPoisoned 0 0 = t := Host.Outcome.next.inj ht
  have hlen : (ctx (lineBuild buildPoisoned 0 0) 0 0).built.length = 1 := by
    rw [hbuilt]
    rfl
  exact absurd (built_buildPoisoned.symm.trans hlen) (by decide)

end Sys2Proof.Machine

namespace Sys2Proof.Machine
open Sys2Proof.Laws

/-! ### The state of other pages when an axis fences (R260 to R265) -/

section
variable (s : State) {d a : Nat} {q : Pg}

theorem stat_fencePage_other {p : Pg} (r : Nat) (h : p ≠ q) : rd (fencePage s p r) q Off.PAGE_STAT = rd s q Off.PAGE_STAT := by
  unfold fencePage
  split
  · exact (stat_logRecord ..).trans (stat_fenceQuiet_other _ _ _ h)
  · rfl

variable (h : pgAx d a ≠ q)
include h

theorem stat_axPolicy (b r : Nat) : rd (axPolicy s d a b r) q Off.PAGE_STAT = rd s q Off.PAGE_STAT := by
  unfold axPolicy
  split
  · exact stat_fencePage_other s r h
  · rfl

theorem stat_axFault (b e : Nat) : rd (axFault s d a b e) q Off.PAGE_STAT = rd s q Off.PAGE_STAT :=
  (rd_raise_off _ _ _ _ _ (by decide)).trans (rd_wr_page _ _ _ _ _ _ h)

theorem stat_limitTrip (i : Nat) : rd (limitTrip s d a i) q Off.PAGE_STAT = rd s q Off.PAGE_STAT := by
  unfold limitTrip
  dsimp only
  rw [apply_ite (rd · q Off.PAGE_STAT), stat_axPolicy _ h, stat_axFault _ h, ite_self]

theorem stat_swQualify (i : Nat) (lvl : Bool) (pos : Int) (stamp chat : Nat) :
    rd (swQualify s d a i lvl pos stamp chat) q Off.PAGE_STAT = rd s q Off.PAGE_STAT := by
  unfold swQualify
  extract_lets p s1 s2 s3 s4
  have h3 : rd s3 q Off.PAGE_STAT = rd s q Off.PAGE_STAT := by
    refine (rd_raise_off _ _ _ _ _ (by decide)).trans ((rd_wr_page _ _ _ _ _ _ h).trans ?_)
    refine (rd_wr_page _ _ _ _ _ _ h).trans ((rd_wr_page _ _ _ _ _ _ h).trans ?_)
    exact (rd_wr_page _ _ _ _ _ _ h).trans ((rd_wr_page _ _ _ _ _ _ h).trans (rd_wr_page _ _ _ _ _ _ h))
  have h4 : rd s4 q Off.PAGE_STAT = rd s q Off.PAGE_STAT := by
    unfold s4 whenDo
    split
    · exact h3
    · exact h3
  unfold whenDo
  split
  · exact (stat_limitTrip _ h i).trans h4
  · exact h4

theorem stat_chatFollow : rd (chatFollow s d a) q Off.PAGE_STAT = rd s q Off.PAGE_STAT := by
  unfold chatFollow whenDo
  dsimp only
  split
  · exact (stat_axPolicy _ h ..).trans (stat_axFault _ h ..)
  · rfl

theorem stat_swEdge (i : Nat) (raw : Bool) : rd (swEdge s d a i raw) q Off.PAGE_STAT = rd s q Off.PAGE_STAT := by
  unfold swEdge chatter
  dsimp only
  split
  · rfl
  · split
    · exact stat_swQualify _ h ..
    · split
      · refine (stat_chatFollow _ h).trans (rd_wr_page _ _ _ _ _ _ h)
      · split
        · rfl
        · rfl

theorem stat_swFollow : rd (swFollow s d a) q Off.PAGE_STAT = rd s q Off.PAGE_STAT :=
  each_pres (P := fun t => rd t q Off.PAGE_STAT = rd s q Off.PAGE_STAT) rfl fun _ _ _ ht => (stat_swEdge _ h ..).trans ht

end

/-! ### STANDBY leaves the pages' states (R63, R393) -/

section
variable {F : List Nat} {s t : State} {d : Nat}

theorem retrain_steady {p c : Nat} (h : Steady F s t) : Steady F s (retrain t d p c) := by
  unfold retrain
  split
  · exact h
  · extract_lets t1
    exact abandonFrames_steady (setPort_steady (setLink_steady (count_steady (.hp (by simp) (by simp)) h)))

theorem stbyEnter_steady (h : Steady F s t) : Steady F s (stbyEnter t d) := by
  unfold stbyEnter
  extract_lets s2 s3 s4
  have h2 : Steady F s s2 := each_steady h fun u a hu => by
    unfold stbyAxis
    dsimp only
    split
    · exact hu
    · exact setPosValid_steady (setAxis_steady hu)
  have h3 : Steady F s s3 := each_steady h2 fun u c hu => by
    unfold stbyEnc
    split
    · exact hu
    · exact setEnc_steady (encSync_steady hu)
  have h4 : Steady F s s4 := setDyn_steady (wb_steady (.block (by simp) (by simp)) h3)
  split
  · exact h4
  · exact setDyn_steady (wb_steady (.block (by simp) (by simp)) h4)

theorem stbyExit_steady (h : Steady F s t) : Steady F s (stbyExit t d) := by
  unfold stbyExit
  extract_lets s1 s2 s3 s4
  have h1 : Steady F s s1 := each_steady h fun u p hu => retrain_steady hu
  have h2 : Steady F s s2 := each_steady h1 fun u a hu => setMstate_steady (setAxis_steady hu)
  have h3 : Steady F s s3 := each_steady h2 fun u c hu => setEnc_steady (decodeRestart_steady hu)
  have h4 : Steady F s s4 := setDyn_steady (wb_steady (.block (by simp) (by simp)) h3)
  split
  · exact h4
  · exact setDyn_steady (wb_steady (.block (by simp) (by simp)) h4)

end

/-! ### The ends of fences (R409) -/

section
variable {F : List Nat} {s t : State}

theorem mbResume_steady {d : Nat} {sec : Bool} (h : Steady F s t) : Steady F s (mbResume t d sec) := by
  unfold mbResume
  refine each_steady h fun u n hu => ?_
  extract_lets x u1
  have h1 : Steady F s u1 := setMbox_steady hu
  split
  · exact h1
  · split
    · exact setInState_steady (count_steady (.block (by simp) (by simp)) h1)
    · exact inLoad_steady h1

theorem pageUnsafe_steady {p : Pg} (h : Steady F s t) : Steady F s (pageUnsafe t p) := by
  unfold pageUnsafe
  dsimp only
  split
  · exact mbResume_steady h
  · exact setEnc_steady h
  · exact setMstate_steady h
  · exact injFollow_steady h
  · exact h

/-- The inputs of an axis are sampled anew, and may fence it. -/
theorem engineReset_steady {p : Pg} (hax : pgKind p = .ax → Off.PAGE_CTRL ∉ F ∧ Off.PAGE_STAT ∉ F) (h : Steady F s t) :
    Steady F s (engineReset t p) := by
  unfold engineReset
  dsimp only
  split
  · exact linkStat_steady (htrFollow_steady (setPort_steady h))
  · next hk => exact swFollow_steady (hax hk).1 (hax hk).2 (setAxis_steady h)
  · exact setEnc_steady h
  · exact setChute_steady h
  · exact setHoist_steady h
  · exact h.of_regs rfl
  · exact h.of_regs rfl
  · exact each_steady h fun u n hu => setMbox_steady hu
  · exact setEcho_steady h
  · exact setAssay_steady h
  · exact setLamp_steady h
  · exact h.of_regs rfl
  · exact h

theorem asModeChange_steady {d : Nat} (h : Steady F s t) : Steady F s (asModeChange t d) :=
  each_steady h fun u c hu => by
    dsimp only
    split
    · exact setAsChan_steady hu
    · exact hu

theorem dieMode_steady {d code : Nat} (h : Steady F s t) : Steady F s (dieMode t d code) := by
  unfold dieMode
  extract_lets old p s0 s1 s2
  have h0 : Steady F s s0 := by
    unfold s0
    split
    · exact stbyEnter_steady h
    · exact h
  have h1 : Steady F s s1 :=
    raise_steady (wf_steady (.block (by simp) (by simp [p])) (wf_steady (.block (by simp) (by simp [p])) (wb_steady (.block (by simp) (by simp [p])) h0)))
  have h2 : Steady F s s2 :=
    each_steady (sweepBreak_steady (asModeChange_steady h1)) fun u p hu => streamFollow_steady (htrFollow_steady hu)
  split
  · exact stbyExit_steady h2
  · exact h2

theorem critFollow_steady {d : Nat} (h : Steady F s t) : Steady F s (critFollow t d) :=
  (wb_steady (.block (by simp) (by simp)) h).of_regs rfl

end

/-! ### What a die keeps while another one is fenced or released (R410) -/

/-- The part, the state of the die's pages, its bit of `FN_DIE_STAT` and how it stands. -/
structure DieApart (d : Nat) (s t : State) : Prop where
  part : t.part = s.part
  stat : ∀ q, q.die = d → rd t q Off.PAGE_STAT = rd s q Off.PAGE_STAT
  iso : rb t (pgFence 0) Off.FN_DIE_STAT (8 + d) = rb s (pgFence 0) Off.FN_DIE_STAT (8 + d)
  stand : standOf (die t d) = standOf (die s d)

/-- The register of a steady operation that shows which dies stand apart. -/
theorem Steady.dieStat {F : List Nat} {s t : State} (h : Steady F s t) : rd t (pgFence 0) Off.FN_DIE_STAT = rd s (pgFence 0) Off.FN_DIE_STAT :=
  h.held _ _ (by simp)

section
variable {d e : Nat} {a s t : State}

namespace DieApart

theorem refl (s : State) : DieApart d s s := ⟨rfl, fun _ _ => rfl, rfl, rfl⟩

theorem trans (h : DieApart d a s) (h' : DieApart d s t) : DieApart d a t :=
  ⟨h'.part.trans h.part, fun q hq => (h'.stat q hq).trans (h.stat q hq), h'.iso.trans h.iso, h'.stand.trans h.stand⟩

/-- An operation that leaves the states of all pages. -/
theorem of_steady (h : DieApart d a s) (hs : Steady [Off.PAGE_STAT] s t) (hp : t.part = s.part) : DieApart d a t :=
  h.trans ⟨hp, fun q _ => hs.reads q _ (by simp), by rw [rb, rb, hs.dieStat], hs.stand d⟩

/-- An operation that leaves the states of the die's pages. -/
theorem of_stat (h : DieApart d a s) (hs : Steady [] s t) (hp : t.part = s.part)
    (hq : ∀ q, q.die = d → rd t q Off.PAGE_STAT = rd s q Off.PAGE_STAT) : DieApart d a t :=
  h.trans ⟨hp, hq, by rw [rb, rb, hs.dieStat], hs.stand d⟩

/-- A write on a page of another die. -/
theorem wr (h : DieApart d a s) {p : Pg} (hp : p.die ≠ d) {o : Nat} (hf : p ≠ pgFence 0 ∨ o ≠ Off.FN_DIE_STAT) (w : Word) :
    DieApart d a (wr s p o w) := by
  refine h.trans ⟨rfl, fun q hq => rd_wr_page _ _ _ _ _ _ fun e => hp (e ▸ hq), ?_, rfl⟩
  rcases hf with hf | hf
  · rw [rb, rb, rd_wr_page _ _ _ _ _ _ hf]
  · rw [rb, rb, rd_wr_off _ _ _ _ _ _ hf]

theorem fenceQuiet (h : DieApart d a s) {p : Pg} (hp : p.die ≠ d) (r : Nat) (ks : List Nat) : DieApart d a (fenceQuiet s p r ks) :=
  h.of_stat (fenceQuiet_steady (by simp) (by simp) (.refl s)) (part_fenceQuiet ..) fun q hq =>
    stat_fenceQuiet_other _ _ _ fun e => hp (e ▸ hq)

theorem ctxFence (h : DieApart d a s) (f k c : Nat) : DieApart d a (ctxFence s f k c) := by
  refine h.of_steady (ctxFence_steady (.refl s)) ?_
  apply ctxFence_inv (φ := State.part) (hU := rfl) <;> exact fun _ _ => rfl

theorem seamsAll (h : DieApart d a s) : DieApart d a (seamsAll s) := by
  refine h.of_steady (seamsAll_steady (.refl s)) ?_
  apply seamsAll_inv (φ := State.part) (hU := rfl) <;> exact fun _ _ => rfl

theorem dieRecord (h : DieApart d a s) (f k r : Nat) : DieApart d a (dieRecord s f k r) := by
  refine h.of_steady (dieRecord_steady (.refl s)) ?_
  apply dieRecord_inv (φ := State.part) (hU := rfl) <;> exact fun _ _ => rfl

theorem raise (h : DieApart d a s) (p : Pg) (i : Nat) : DieApart d a (raise s p i) := by
  refine h.of_steady (raise_steady (.refl s)) ?_
  apply raise_inv (φ := State.part) (hU := rfl) <;> exact fun _ _ => rfl

theorem setDie (h : DieApart d a s) (x : DieSt) (he : e ≠ d) : DieApart d a (setDie s e x) :=
  h.trans ⟨rfl, fun _ _ => rfl, rfl, by rw [die_setDie_other _ _ _ _ he]⟩

/-- Another die's bit of `FN_DIE_STAT`. -/
theorem dieStat (h : DieApart d a s) (b : Bool) (he : e ≠ d) (hd : d ≠ 0) : DieApart d a (wb s (pgFence 0) Off.FN_DIE_STAT (8 + e) b) := by
  refine h.trans ⟨rfl, fun q hq => rd_wr_page _ _ _ _ _ _ fun hz => hd ?_, rb_wb_apart _ _ _ _ _ _ (by omega), rfl⟩
  rw [← hq, ← hz]
  rfl

/-! Fences of another die. -/

theorem die_of_fenceable {p : Pg} (h : p ∈ fenceablePages s e) : p.die = e := by
  simp only [fenceablePages, List.mem_filter, List.mem_append, List.mem_map] at h
  obtain ⟨⟨i, -, rfl⟩ | ⟨i, -, rfl⟩, -⟩ := h
  · rfl
  · rfl

theorem fenceAll (h : DieApart d a s) (he : e ≠ d) (r : Nat) : DieApart d a (fenceAll s e r) := by
  unfold Machine.fenceAll
  extract_lets ks ps s1 s2
  have h1 : DieApart d a s1 := each_pres (P := DieApart d a) h fun u k _ hu => hu.ctxFence ..
  have h2 : DieApart d a s2 := each_pres (P := DieApart d a) h1 fun u p hp hu =>
    hu.fenceQuiet (by rw [die_of_fenceable (List.mem_filter.mp hp).1]; exact he) ..
  exact h2.setDie _ he

theorem dieReport (h : DieApart d a s) (he : e ≠ d) (hd : d ≠ 0) (r : Nat) : DieApart d a (dieReport s e r) :=
  (((h.dieStat true he hd).seamsAll).raise ..).dieRecord ..

theorem fenceDie (h : DieApart d a s) (he : e ≠ d) (hd : d ≠ 0) (r : Nat) : DieApart d a (fenceDie s e r) := by
  unfold Machine.fenceDie
  extract_lets s1 own tied x s2
  split
  · exact h
  · have h2 : DieApart d a s2 := (h.fenceAll he r).setDie _ he
    split
    · exact h2
    · exact h2.dieReport he hd r

/-! Releases of another die's pages. -/

theorem setPstate (h : DieApart d a s) {p : Pg} (hp : p.die ≠ d) (st : Nat) : DieApart d a (setPstate s p st) :=
  h.wr hp (.inr (by decide)) _

theorem axReset (h : DieApart d a s) (he : e ≠ d) (i : Nat) : DieApart d a (axReset s e i) := by
  unfold Machine.axReset
  extract_lets sw
  have h1 : DieApart d a (setAxis s e i { sw := sw }) := h.of_steady (setAxis_steady (.refl s)) rfl
  refine h1.of_stat (swFollow_steady (by simp) (by simp) (.refl _)) ?_ fun q hq => stat_swFollow _ fun hz => he ((congrArg Pg.die hz).trans hq)
  apply swFollow_inv (φ := State.part) (hU := rfl) <;> exact fun _ _ => rfl

theorem engineReset (h : DieApart d a s) {p : Pg} (hp : p.die ≠ d) : DieApart d a (engineReset s p) := by
  by_cases hk : pgKind p = .ax
  · rw [Machine.engineReset, hk]
    exact h.axReset hp _
  · refine h.of_steady (engineReset_steady (fun hz => absurd hz hk) (.refl s)) ?_
    apply engineReset_inv (φ := State.part) (hU := rfl) <;> exact fun _ _ => rfl

theorem resetPage (h : DieApart d a s) {p : Pg} (hp : p.die ≠ d) (hf : p ≠ pgFence 0) : DieApart d a (resetPage s p) := by
  have hreg {q : Pg} (hq : q ≠ p) (o : Nat) : rd (Machine.resetPage s p) q o = rd s q o :=
    (resetPage_keeps (Ne.symm hq) (.refl q s)).regs o
  exact h.trans ⟨rfl, fun q hq => hreg (fun hz => hp (hz ▸ hq)) _, by rw [rb, rb, hreg hf.symm], rfl⟩

theorem pageReset (h : DieApart d a s) {p : Pg} (hp : p.die ≠ d) (hf : p ≠ pgFence 0) (en : Bool) : DieApart d a (pageReset s p en) := by
  unfold Machine.pageReset
  extract_lets freq s1 s2
  have h1 : DieApart d a s1 := ((h.resetPage hp hf).wr hp (.inr (by decide)) _).setPstate hp _
  have h2 : DieApart d a s2 := (h1.engineReset hp).of_steady (setFenceSt_steady (.refl _)) rfl
  split
  · exact h2
  · have h3 : DieApart d a (if en then s2 else { Machine.wr s2 p Off.TS_FREQ freq with tsync := { s2.tsync with relax := true } }) := by
      split
      · exact h2
      · exact (h2.wr hp (.inr (by decide)) freq).of_steady ((Steady.refl _).of_regs rfl) rfl
    refine h3.of_steady (tbFollow_steady (.refl _)) ?_
    apply tbFollow_inv (φ := State.part) (hU := rfl) <;> exact fun _ _ => rfl

theorem pageOff (h : DieApart d a s) (p : Pg) : DieApart d a (pageOff s p) := by
  refine h.of_steady (pageOff_steady (.refl s)) ?_
  apply pageOff_inv (φ := State.part) (hU := rfl) <;> exact fun _ _ => rfl

theorem pageStart (h : DieApart d a s) {p : Pg} (hp : p.die ≠ d) : DieApart d a (pageStart s p) := by
  unfold Machine.pageStart
  extract_lets s1 f i
  have h1 : DieApart d a s1 := h.setPstate hp _
  split
  · split
    · refine h1.of_steady (setLink_steady (.refl _)) ?_
      apply setLink_inv (φ := State.part) (hU := rfl) <;> exact fun _ _ => rfl
    · exact h1
  · refine h1.of_steady (axStart_steady (.refl _)) ?_
    apply axStart_inv (φ := State.part) (hU := rfl) <;> exact fun _ _ => rfl
  · refine h1.of_steady (injFollow_steady (.refl _)) ?_
    apply injFollow_inv (φ := State.part) (hU := rfl) <;> exact fun _ _ => rfl
  · exact h1

theorem pageUnsafe (h : DieApart d a s) (p : Pg) : DieApart d a (pageUnsafe s p) := by
  refine h.of_steady (pageUnsafe_steady (.refl s)) ?_
  apply pageUnsafe_inv (φ := State.part) (hU := rfl) <;> exact fun _ _ => rfl

theorem pageRelease (h : DieApart d a s) {p : Pg} (hp : p.die ≠ d) (hf : p ≠ pgFence 0) : DieApart d a (pageRelease s p) := by
  unfold Machine.pageRelease
  extract_lets x en s1 s2 f
  have h0 : DieApart d a (setFenceSt (wb s p Off.PAGE_CTRL 1 false) p { x with releasing := false }) :=
    (h.wr hp (.inr (by decide)) _).of_steady (setFenceSt_steady (.refl _)) rfl
  have h1 : DieApart d a s1 := h0.pageUnsafe p
  have hset {u : State} (hu : DieApart d a u) (y : FenceSt) : DieApart d a (setFenceSt u p y) := hu.of_steady (setFenceSt_steady (.refl _)) rfl
  have h2 : DieApart d a s2 := by
    unfold s2
    split
    · exact (h1.pageOff p).pageReset hp hf _
    · split
      · exact ((h1.pageOff p).pageReset hp hf _).pageStart hp
      · split
        · exact h1.pageStart hp
        · split
          · exact hset (h1.setPstate hp _) _
          · exact hset ((h1.pageOff p).setPstate hp _) _
  exact (h2.wr (p := f) hp (.inr (by decide)) _).raise ..

/-! A mode that a die takes. -/

theorem dieMode (h : DieApart d a s) (e code : Nat) : DieApart d a (dieMode s e code) := by
  refine h.of_steady (dieMode_steady (.refl s)) ?_
  apply dieMode_inv (φ := State.part) (hU := rfl) <;> exact fun _ _ => rfl

theorem critFollow (h : DieApart d a s) (e : Nat) : DieApart d a (critFollow s e) := h.of_steady (critFollow_steady (.refl s)) rfl

theorem dieTold (h : DieApart d a s) (he : e ≠ d) (r : Nat) : DieApart d a (dieTold s e r) := by
  unfold Machine.dieTold
  split
  · exact (h.setDie _ he).dieRecord ..
  · exact h

theorem pageTied (h : DieApart d a s) (p : Pg) : DieApart d a (pageTied s p) := by
  refine h.of_steady (pageTied_steady (.refl s)) ?_
  apply pageTied_inv (φ := State.part) (hU := rfl) <;> exact fun _ _ => rfl

theorem ne_fence_of_fenceable {p : Pg} (h : p ∈ fenceablePages s e) : p ≠ pgFence 0 := by
  rintro rfl
  simp only [fenceablePages, List.mem_filter, Bool.and_eq_true] at h
  exact absurd h.2.1 (by decide)

theorem dieRelease (h : DieApart d a s) (he : e ≠ d) (hd : d ≠ 0) : DieApart d a (dieRelease s e) := by
  unfold Machine.dieRelease
  extract_lets reason ps y s1 s2 s3 s4
  have h2 : DieApart d a s2 := by
    unfold s2 whenDo
    split
    · exact (h.setDie _ he).dieStat false he hd
    · exact h.setDie _ he
  have h3 : DieApart d a s3 := by
    have hp : DieApart d a (each ps s2 fun s p => Machine.pageRelease s p) := each_pres (P := DieApart d a) h2 fun u p hp hu =>
      hu.pageRelease (by rw [die_of_fenceable (List.mem_filter.mp hp).1]; exact he) (ne_fence_of_fenceable (List.mem_filter.mp hp).1)
    unfold s3 dieTakesMode
    split
    · exact hp
    · exact hp.dieMode ..
  have h4 : DieApart d a s4 := h3.seamsAll.critFollow e
  split
  · exact (h4.dieTold he _).dieRecord ..
  · split
    · exact h4
    · exact h4.pageTied _

theorem dieUnfence (h : DieApart d a s) (he : e ≠ d) (hd : d ≠ 0) : DieApart d a (dieUnfence s e) := by
  have hno : DieApart d a (dieRefused s e) := by
    refine h.of_steady (logRecord_steady (raise_steady (.refl s))) ?_
    apply dieRefused_inv (φ := State.part) (hU := rfl) <;> exact fun _ _ => rfl
  unfold Machine.dieUnfence
  split
  · exact h
  · exact h.dieRelease he hd
  · split
    · exact h.dieRelease he hd
    · exact hno
  · exact hno

end DieApart

/-! ### How a die stands when it is released (R408, R410) -/

theorem stand_pageReset (s : State) (p : Pg) (en : Bool) (d : Nat) : standOf (die (pageReset s p en) d) = standOf (die s d) := by
  unfold pageReset
  extract_lets freq s1 s2
  have h2 : standOf (die s2 d) = standOf (die s d) :=
    (engineReset_steady (F := []) (p := p) (fun _ => ⟨by simp, by simp⟩) (.refl s1)).stand d
  split
  · exact h2
  · refine ((tbFollow_steady (F := []) (.refl _)).stand d).trans ?_
    split
    · exact h2
    · exact h2

theorem stand_pageStart (s : State) (p : Pg) (d : Nat) : standOf (die (pageStart s p) d) = standOf (die s d) :=
  (pageStart_steady (F := []) (by simp) (.refl s)).stand d

theorem stand_pageOff (s : State) (p : Pg) (d : Nat) : standOf (die (pageOff s p) d) = standOf (die s d) :=
  (pageOff_steady (F := []) (.refl s)).stand d

theorem stand_pageRelease (s : State) (p : Pg) (d : Nat) : standOf (die (pageRelease s p) d) = standOf (die s d) := by
  unfold pageRelease
  extract_lets x en s1 s2 f
  have h1 : standOf (die s1 d) = standOf (die s d) := (pageUnsafe_steady (F := []) (p := p) (.refl _)).stand d
  have h2 : standOf (die s2 d) = standOf (die s1 d) := by
    unfold s2
    split
    · exact (stand_pageReset ..).trans (stand_pageOff ..)
    · split
      · exact (stand_pageStart ..).trans ((stand_pageReset ..).trans (stand_pageOff ..))
      · split
        · exact stand_pageStart ..
        · split
          · rfl
          · exact stand_pageOff ..
  exact ((raise_steady (F := []) (.refl _)).stand d).trans (h2.trans h1)

/-- A released die has no fence. -/
theorem reason_dieRelease (s : State) (d : Nat) : (die (dieRelease s d) d).dieReason = 0 := by
  unfold dieRelease
  extract_lets reason ps y s1 s2 s3 s4
  have h2 : (die s2 d).dieReason = 0 := by
    have h1 : (die s1 d).dieReason = 0 := congrArg DieSt.dieReason (die_setDie ..)
    unfold s2 whenDo
    split
    · exact h1
    · exact h1
  have h3 : (die s3 d).dieReason = 0 := by
    have hp : (die (each ps s2 fun s p => pageRelease s p) d).dieReason = 0 :=
      each_pres (P := fun u => (die u d).dieReason = 0) h2 fun u p _ hu => (congrArg Prod.fst (stand_pageRelease u p d)).trans hu
    unfold s3 dieTakesMode
    split
    · exact hp
    · exact (congrArg Prod.fst ((dieMode_steady (F := []) (.refl _)).stand d)).trans hp
  have h4 : (die s4 d).dieReason = 0 :=
    (congrArg Prod.fst ((critFollow_steady (F := []) (seamsAll_steady (.refl s3))).stand d)).trans h3
  split
  · refine (congrArg Prod.fst ((dieRecord_steady (F := []) (.refl _)).stand d)).trans ?_
    unfold dieTold
    split
    · refine (congrArg Prod.fst ((dieRecord_steady (F := []) (.refl _)).stand d)).trans ?_
      rw [die_setDie]
      exact h4
    · exact h4
  · split
    · exact h4
    · exact (congrArg Prod.fst ((pageTied_steady (F := []) (.refl _)).stand d)).trans h4

end

end Sys2Proof.Machine

namespace Sys2Proof.Machine
open Sys2Proof.Laws

/-! ### A die that is fenced (R410) -/

section
variable {s t : State} {d : Nat} {q : Pg}

theorem fenced_fenceQuiet {p : Pg} (r : Nat) (ks : List Nat) (h : fenced s q = true) : fenced (fenceQuiet s p r ks) q = true := by
  by_cases hp : p = q
  · subst hp
    unfold fenceQuiet
    rw [if_pos (by rw [h, Bool.or_true])]
    exact h
  · rwa [fenced_congr (stat_fenceQuiet_other _ _ _ hp)]

/-- Every page of a list that takes a fence is fenced once each page of the list has been. -/
theorem fenced_each_fenceQuiet {l : List Pg} (r : Nat) (ks : List Nat) (hq : q ∈ l) (h : takesFence s q = true) :
    fenced (each l s fun s p => fenceQuiet s p r ks) q = true := by
  have hkeep (l : List Pg) (t : State) (ht : fenced t q = true) : fenced (each l t fun s p => fenceQuiet s p r ks) q = true :=
    each_pres (P := fun t => fenced t q = true) ht fun _ _ _ h => fenced_fenceQuiet r ks h
  induction l generalizing s with
  | nil => cases hq
  | cons p l ih =>
    by_cases hp : p = q
    · subst hp
      exact hkeep l _ (fenced_of_stat (stat_fenceQuiet_same _ _ _ h))
    · exact ih ((List.mem_cons.1 hq).resolve_left (Ne.symm hp))
        ((takesFence_congr (stat_fenceQuiet_other _ _ _ hp) (part_fenceQuiet ..)).trans h)

/-- Every page of the die that can be fenced is. -/
theorem fenced_fenceAll (r : Nat) (hq : q ∈ fenceablePages s d) : fenced (fenceAll s d r) q = true := by
  unfold fenceAll
  extract_lets ks ps s1 s2
  have h1 : Steady [Off.PAGE_STAT] s s1 := each_steady (.refl s) fun u k hu => ctxFence_steady hu
  have hp1 : s1.part = s.part := each_pres (P := fun u => u.part = s.part) rfl fun u k _ hu => by
    refine Eq.trans ?_ hu
    apply ctxFence_inv (φ := State.part) (hU := rfl) <;> exact fun _ _ => rfl
  have hstat : rd s1 q Off.PAGE_STAT = rd s q Off.PAGE_STAT := h1.reads q _ (by simp)
  have h2 : fenced s2 q = true := by
    cases hf : fenced s q with
    | true =>
      exact each_pres (P := fun u => fenced u q = true) ((fenced_congr hstat).trans hf) fun _ _ _ h => fenced_fenceQuiet _ _ h
    | false =>
      have htake : takesFence s q = true := by
        simp only [fenceablePages, List.mem_filter] at hq
        rw [takesFence, hq.2, hf]
        rfl
      exact fenced_each_fenceQuiet _ _ (List.mem_filter.mpr ⟨hq, htake⟩) ((takesFence_congr hstat hp1).trans htake)
  exact h2

/-- The report to die 0 leaves the pages' states and how the dies stand, and isolates the die. -/
theorem dieReport_spec (s : State) (d r : Nat) :
    (∀ q, rd (dieReport s d r) q Off.PAGE_STAT = rd s q Off.PAGE_STAT) ∧ standOf (die (dieReport s d r) d) = standOf (die s d) ∧
    (d < 8 → rb (dieReport s d r) (pgFence 0) Off.FN_DIE_STAT (8 + d) = true) ∧
    (∀ q i, rb s q Off.EVT_LAT i = true → rb (dieReport s d r) q Off.EVT_LAT i = true) := by
  unfold dieReport
  have h : Steady [Off.PAGE_STAT] (wb s (pgFence 0) Off.FN_DIE_STAT (8 + d) true) (dieRecord (raise (seamsAll
      (wb s (pgFence 0) Off.FN_DIE_STAT (8 + d) true)) (pgFence 0) 3) d 1 r) :=
    dieRecord_steady (raise_steady (seamsAll_steady (.refl _)))
  refine ⟨fun q => (h.reads q _ (by simp)).trans (rd_wr_off _ _ _ _ _ _ (by decide)), h.stand d, fun hd => ?_, fun q i hi => h.lats q i ?_⟩
  · rw [rb, h.dieStat]
    exact rb_wb_same _ _ _ _ _ (by omega)
  · rwa [rb, wb, rd_wr_off _ _ _ _ _ _ (by decide)]

/-- The ways to die 0 rest on the part and the states of its links. -/
theorem crossesNow_congr (hp : t.part = s.part) (hb : ∀ e i, burimState t e i = burimState s e i) : crossesNow t d = crossesNow s d := by
  have hway (up : Bool) (f e : Nat) : upWay t up f e = upWay s up f e := by
    induction f generalizing e with
    | zero => rfl
    | succ f ih =>
      unfold upWay
      simp only [hp, hb, ih]
  unfold crossesNow
  rw [hp, hway, hway]

/-- Fencing a die's contexts and pages leaves the links. -/
theorem crossesNow_fenceAll (r : Nat) : crossesNow (fenceAll s d r) d = crossesNow s d := by
  refine crossesNow_congr ?_ fun e i => ?_
  · apply fenceAll_inv (φ := State.part) (hU := rfl) <;> exact fun _ _ => rfl
  · have ha (k : Kind) (h : .burim ≠ k) := apart_burim k e h
    refine congrArg (fld · 0 3) ((fenceAll_keeps (ha .die (by decide)) (ha .mode (by decide)) (ha .tsync (by decide)) (ha .fence (by decide))
      (ha .assay (by decide)) (ha .hoistGlobal (by decide)) (ha .chuteGlobal (by decide)) (ha .hp (by decide)) (ha .enc (by decide))
      (ha .ax (by decide)) (ha .seam (by decide)) (ha .echo (by decide)) (ha .ctxCtrl (by decide)) (ha .chute (by decide))
      (ha .debug (by decide)) (fun p hf hz => ?_) (.refl _ s)).regs _)
    rw [hz, show pgKind (pgBurim e) = .burim from rfl] at hf
    exact absurd hf (by decide)

/-- What the fence of a whole die does. -/
theorem fenceDie_spec (h0 : (die s d).dieReason = 0) (hd : d < s.part.dies) (r : Nat) :
    (die (fenceDie s d r) d).dieReason = r ∧ (die (fenceDie s d r) d).pllLocked = (die s d).pllLocked ∧
    (∀ q ∈ fenceablePages s d, fenced (fenceDie s d r) q = true) ∧
    (∀ q i, rb s q Off.EVT_LAT i = true → rb (fenceDie s d r) q Off.EVT_LAT i = true) ∧
    (d ≠ 0 → d < 8 → r < 4 ∨ crossesNow s d = true → rb (fenceDie s d r) (pgFence 0) Off.FN_DIE_STAT (8 + d) = true) := by
  unfold fenceDie
  extract_lets s1 own tied x s2
  rw [if_neg (by omega)]
  have h1 : Steady [] s s1 := fenceAll_steady (by simp) (by simp) (.refl s)
  have hx : (die s2 d).dieReason = r ∧ (die s2 d).pllLocked = (die s d).pllLocked := by
    unfold s2
    rw [die_setDie]
    exact ⟨rfl, congrArg (fun y => y.2.1) (h1.stand d)⟩
  have hf (q : Pg) (hq : q ∈ fenceablePages s d) : fenced s2 q = true := by
    have hq1 : fenced s1 q = true := fenced_fenceAll r hq
    rw [← hq1]
    exact fenced_congr (rd_setDie ..)
  cases ht : tied with
  | true =>
    rw [if_pos rfl]
    have hlat (q : Pg) (i : Nat) (hi : rb s q Off.EVT_LAT i = true) : rb s2 q Off.EVT_LAT i = true := by
      rw [rb, rd_setDie]
      exact h1.lats q i hi
    have hfree (hd0 : d ≠ 0) (hr : r < 4 ∨ crossesNow s d = true) : tied = false := by
      have hcross : crossesNow s1 d = crossesNow s d := crossesNow_fenceAll r
      unfold tied own
      rw [hcross, decide_eq_false hd0, Bool.false_or]
      rcases hr with hr | hr
      · rw [decide_eq_false (Nat.not_le.mpr hr), Bool.false_and, Bool.false_and]
      · rw [hr, Bool.not_true, Bool.and_false]
    clear_value tied s2
    exact ⟨hx.1, hx.2, hf, hlat, fun hd0 _ hr => absurd (ht.symm.trans (hfree hd0 hr)) (by decide)⟩
  | false =>
    rw [if_neg (by decide)]
    obtain ⟨g1, g2, g3, g4⟩ := dieReport_spec s2 d r
    generalize dieReport s2 d r = u at g1 g2 g3 g4 ⊢
    exact ⟨(congrArg Prod.fst g2).trans hx.1, (congrArg (fun y => y.2.1) g2).trans hx.2, fun q hq => (fenced_congr (g1 q)).trans (hf q hq),
      fun q i hi => g4 q i (by rw [rb, rd_setDie]; exact h1.lats q i hi), fun _ h8 _ => g3 h8⟩

theorem fenceablePages_congr (h : t.part = s.part) : fenceablePages t d = fenceablePages s d := by
  unfold fenceablePages
  simp only [present_congr h]

theorem isolated_of_stat (hd : d ≠ 0) (h : rb s (pgFence 0) Off.FN_DIE_STAT (8 + d) = true) : isolated s d = true := by
  rw [isolated, h, decide_eq_true hd]
  rfl

theorem present_pgFence (h : d < s.part.dies) : present s (pgFence d) = true := by
  simp [present, Part.present, pgFence, ns, pgKind, nsKind, absent08, h]

/-- One die's turn in a write of `FN_DIE_CTRL`. -/
theorem dieApart_turn {e : Nat} (hd : d ≠ 0) (he : e ≠ d) (u : State) (rise fall : Bool) :
    DieApart d u (if rise then fenceDie u e 1 else if fall then dieUnfence u e else u) := by
  split
  · exact (DieApart.refl u).fenceDie he hd 1
  · split
    · exact (DieApart.refl u).dieUnfence he hd
    · exact .refl u

/-- A write of `FN_DIE_CTRL` that sets the bit of a die without a fence. -/
theorem dieCtrl_spec {v : Word} (hd0 : 0 < d) (hd : d < s.part.dies) (hd8 : d < 8) (hv : bit v d = true)
    (hold : bit (rd s (pgFence 0) Off.FN_DIE_CTRL) d = false) (h0 : (die s d).dieReason = 0) :
    isolated (dieCtrl s v) d = true ∧ (die (dieCtrl s v) d).dieReason = 1 ∧ ∀ q ∈ fenceablePages s d, fenced (dieCtrl s v) q = true := by
  have hne : d ≠ 0 := by omega
  have hall : rb (dieCtrl s v) (pgFence 0) Off.FN_DIE_STAT (8 + d) = true ∧ (die (dieCtrl s v) d).dieReason = 1 ∧
      ∀ q ∈ fenceablePages s d, fenced (dieCtrl s v) q = true := by
    unfold dieCtrl
    extract_lets f old s1
    refine each_once (P := DieApart d s) (Q := fun u => rb u (pgFence 0) Off.FN_DIE_STAT (8 + d) = true ∧ (die u d).dieReason = 1 ∧
      ∀ q ∈ fenceablePages s d, fenced u q = true) (x := d) ?_ (List.nodup_range.filter _) ?_ ?_ ?_ ?_
    · rw [List.mem_filter, List.mem_range]
      exact ⟨hd8, by rw [decide_eq_true (show 1 ≤ d by omega), decide_eq_true hd]; rfl⟩
    · exact (DieApart.refl s).wr (show (pgFence 0).die ≠ d from hne.symm) (.inr (by decide)) _
    · exact fun t e he ht => ht.trans (dieApart_turn hne he t _ _)
    · intro t ht
      rw [if_pos (by rw [hv, show bit old d = false from hold]; rfl)]
      have hr : (die t d).dieReason = 0 := (congrArg Prod.fst ht.stand).trans h0
      obtain ⟨g1, -, g3, -, g5⟩ := fenceDie_spec (s := t) hr (by rw [ht.part]; exact hd) 1
      exact ⟨g5 hne hd8 (.inl (by decide)), g1, fun q hq => g3 q (by rwa [fenceablePages_congr ht.part])⟩
    · intro t e he ⟨q1, q2, q3⟩
      have ht := dieApart_turn hne he t (bit v e && !bit old e) (!bit v e && bit old e)
      refine ⟨ht.iso.trans q1, (congrArg Prod.fst ht.stand).trans q2, fun q hq => (fenced_congr (ht.stat q ?_)).trans (q3 q hq)⟩
      exact DieApart.die_of_fenceable hq
  exact ⟨isolated_of_stat hne hall.1, hall.2⟩

theorem exec_dieFenced {r : Req} {v : Word} (h : Taken s r (pgFence 0) Off.FN_DIE_CTRL) : exec (.dieFenced r v) s = .next (dieCtrl s v) := by
  refine congrArg Host.Outcome.next ((guardedWrite_of_taken h _).trans ?_)
  rw [touchSession_of_not_sec rfl]

theorem exec_watchdog (h0 : 0 < d) (hd : d < s.part.dies) (hw : rf s (pgFence d) Off.FN_WDOG 0 16 ≠ 0) (hr : (die s d).dieReason = 0)
    (ht : rf s (pgTb d) Off.TB_STAT 6 2 ≠ 0) :
    exec (.watchdog d) s = .next (fenceDie (raise (waitClock s ((die s d).lastFlit0 + rf s (pgFence d) Off.FN_WDOG 0 16 * 1024)) (pgFence d) 5) d 6) :=
  congrArg Host.Outcome.next (if_pos ⟨h0, hd, hw, hr, ht⟩)

theorem clock_fenceDie (s : State) (d r : Nat) : (fenceDie s d r).clock = s.clock := by
  apply fenceDie_inv (φ := State.clock) (hU := rfl) <;> exact fun _ _ => rfl

/-- The watchdog of a die (R410). -/
theorem watchdog_spec (h0 : 0 < d) (hd8 : d < 8) (hd : d < s.part.dies) (hw : rf s (pgFence d) Off.FN_WDOG 0 16 ≠ 0)
    (hr : (die s d).dieReason = 0) (ht : rf s (pgTb d) Off.TB_STAT 6 2 ≠ 0) :
    Completes (.watchdog d) s fun t => (crossesNow s d = true → isolated t d = true) ∧ (die t d).dieReason = 6 ∧
      rb t (pgFence d) Off.EVT_LAT 5 = true ∧ (die s d).lastFlit0 + rf s (pgFence d) Off.FN_WDOG 0 16 * 1024 ≤ t.clock ∧
      ∀ p ∈ fenceablePages s d, fenced t p = true := by
  refine .of (exec_watchdog h0 hd hw hr ht) ?_
  generalize hc : (die s d).lastFlit0 + rf s (pgFence d) Off.FN_WDOG 0 16 * 1024 = c
  have hstand : standOf (die (raise (waitClock s c) (pgFence d) 5) d) = standOf (die s d) :=
    (raise_steady (F := []) (waitClock_steady (.refl s))).stand d
  have hpart : (raise (waitClock s c) (pgFence d) 5).part = s.part := by simp
  have hclk : c ≤ (raise (waitClock s c) (pgFence d) 5).clock := (clock_waitClock_le s c).trans (clock_raise ..).ge
  have hcross : crossesNow (raise (waitClock s c) (pgFence d) 5) d = crossesNow s d := by
    refine crossesNow_congr hpart fun e i => congrArg (fld · 0 3) ((rd_raise_off _ _ _ _ _ ?_).trans (rd_waitClock _ _ ?_))
    all_goals
      simp only [Off.BU_STAT_0, Off.EVT_LAT]
      omega
  have hevt : rb (raise (waitClock s c) (pgFence d) 5) (pgFence d) Off.EVT_LAT 5 = true := by
    refine rb_raise_same _ _ _ ?_ (by decide)
    rw [present_waitClock]
    exact present_pgFence hd
  generalize raise (waitClock s c) (pgFence d) 5 = u at hstand hpart hclk hcross hevt ⊢
  obtain ⟨g1, -, g3, g4, g5⟩ := fenceDie_spec (s := u) ((congrArg Prod.fst hstand).trans hr) (by rw [hpart]; exact hd) 6
  have hne : d ≠ 0 := by omega
  exact ⟨fun hx => isolated_of_stat hne (g5 hne hd8 (.inr (hcross.trans hx))), g1, g4 _ _ hevt, by rw [clock_fenceDie]; exact hclk,
    fun q hq => g3 q (by rwa [fenceablePages_congr hpart])⟩

end

end Sys2Proof.Machine

namespace Sys2Proof.Machine
open Sys2Proof.Laws

/-! ### Die fences by a PLL and their ends (R62, R408) -/

section
variable {s t : State} {d : Nat}

theorem tb_apart (d : Nat) (k : Kind) (h : .timebase ≠ k) : k.Apart (pgTb d) := Kind.apart .timebase k rfl h

/-- Fencing a die leaves the TIMEBASE pages. -/
theorem rd_fenceDie_tb (s : State) (e r d o : Nat) : rd (fenceDie s e r) (pgTb d) o = rd s (pgTb d) o := by
  have ha (k : Kind) (h : .timebase ≠ k) := tb_apart d k h
  refine (fenceDie_keeps (ha .die (by decide)) (ha .mode (by decide)) (ha .tsync (by decide)) (ha .fence (by decide))
    (ha .assay (by decide)) (ha .hoistGlobal (by decide)) (ha .chuteGlobal (by decide)) (ha .hp (by decide)) (ha .enc (by decide))
    (ha .ax (by decide)) (ha .seam (by decide)) (ha .echo (by decide)) (ha .ctxCtrl (by decide)) (ha .chute (by decide))
    (ha .debug (by decide)) (fun p hf hz => ?_) (.refl _ s)).regs o
  rw [hz, show pgKind (pgTb d) = .timebase from rfl] at hf
  exact absurd hf (by decide)

/-- How the dies stand and what the TIMEBASE page shows after the PLL's event follows. -/
theorem pllEvent_spec (x : DieSt) (b c : Bool) :
    standOf (die (setDyn (wb (setDie s d x) (pgTb d) Off.TB_STAT 2 b) (pgTb d) 1 c) d) = standOf x ∧
    rb (setDyn (wb (setDie s d x) (pgTb d) Off.TB_STAT 2 b) (pgTb d) 1 c) (pgTb d) Off.TB_STAT 2 = b ∧
    (setDyn (wb (setDie s d x) (pgTb d) Off.TB_STAT 2 b) (pgTb d) 1 c).part = s.part ∧
    (setDyn (wb (setDie s d x) (pgTb d) Off.TB_STAT 2 b) (pgTb d) 1 c).clock = s.clock := by
  refine ⟨((setDyn_steady (F := []) (.refl _)).stand d).trans ?_, ?_, ?_, ?_⟩
  · rw [wb, die_wr, die_setDie]
  · rw [rb, rd_setDyn_off _ _ _ _ _ (by decide) (by decide)]
    exact rb_wb_same _ _ _ _ _ (by decide)
  · apply setDyn_inv (φ := State.part) (hU := rfl) <;> exact fun _ _ => rfl
  · apply setDyn_inv (φ := State.clock) (hU := rfl) <;> exact fun _ _ => rfl

/-- PLL_UNLOCK (R62). -/
theorem pllUnlock_spec (hd : d < s.part.dies) (hl : (die s d).pllLocked = true) (hw : awake s d = true) (hr : (die s d).dieReason = 0) :
    Completes (.pllUnlock d) s fun t => (die t d).dieReason = 4 ∧ (die t d).pllLocked = false ∧
      rb t (pgTb d) Off.TB_STAT 2 = false ∧ ∀ p ∈ fenceablePages s d, fenced t p = true := by
  have hexec : exec (.pllUnlock d) s = .next (fenceDie (pllLost s d) d 4) := congrArg Host.Outcome.next (if_pos (by simp [hd, hl, hw]))
  refine .of hexec ?_
  obtain ⟨g1, g2, g3, -⟩ := pllEvent_spec (s := s) (d := d) { die s d with pllLocked := false, pllSince := s.clock } false true
  have hu : pllLost s d = setDyn (wb (setDie s d { die s d with pllLocked := false, pllSince := s.clock }) (pgTb d) Off.TB_STAT 2 false)
    (pgTb d) 1 true := rfl
  rw [← hu] at g1 g2 g3
  generalize pllLost s d = u at g1 g2 g3 ⊢
  obtain ⟨f1, f2, f3, -, -⟩ := fenceDie_spec (s := u) ((congrArg Prod.fst g1).trans hr) (by rw [g3]; exact hd) 4
  refine ⟨f1, f2.trans (congrArg (fun y => y.2.1) g1), ?_, fun q hq => f3 q (by rwa [fenceablePages_congr g3])⟩
  rw [rb, rd_fenceDie_tb, ← rb]
  exact g2

/-- PLL_RELOCK_RELEASE of an unlocked PLL (R62). -/
theorem pllRelock_spec (hd : d < s.part.dies) (hb : (die s d).boot.complete = true) (hl : (die s d).pllLocked = false) :
    Completes (.pllRelockRelease d) s fun t => (die t d).pllLocked = true ∧ (die t d).pllSince = t.clock ∧
      rb t (pgTb d) Off.TB_STAT 2 = true ∧ (die t d).dieReason = (die s d).dieReason := by
  have hexec : exec (.pllRelockRelease d) s = .next (pllRelock s d) :=
    congrArg Host.Outcome.next ((if_neg (by simp [hd, hb])).trans (if_pos (by rw [hl]; rfl)))
  refine .of hexec ?_
  obtain ⟨g1, g2, -, g4⟩ := pllEvent_spec (s := s) (d := d) { die s d with pllLocked := true, pllSince := s.clock } true false
  have hu : pllRelock s d = setDyn (wb (setDie s d { die s d with pllLocked := true, pllSince := s.clock }) (pgTb d) Off.TB_STAT 2 true)
    (pgTb d) 1 false := rfl
  rw [← hu] at g1 g2 g4
  exact ⟨congrArg (fun y => y.2.1) g1, (congrArg (fun y => y.2.2) g1).trans g4.symm, g2, congrArg Prod.fst g1⟩

/-- A die that is released when it may be. -/
theorem dieRelease_waitClock (s : State) (c d : Nat) :
    (die (dieRelease (waitClock s c) d) d).dieReason = 0 ∧ c ≤ (dieRelease (waitClock s c) d).clock := by
  have hclk : (dieRelease (waitClock s c) d).clock = (waitClock s c).clock := by
    apply dieRelease_inv (φ := State.clock) (hU := rfl) <;> exact fun _ _ => rfl
  exact ⟨reason_dieRelease .., by rw [hclk]; exact clock_waitClock_le ..⟩

theorem exec_pllRelease (hd : d < s.part.dies) (hb : (die s d).boot.complete = true) (hl : (die s d).pllLocked = true)
    (hr : (die s d).dieReason = 4) : exec (.pllRelockRelease d) s = .next (dieRelease (waitClock s ((die s d).pllSince + 25000)) d) :=
  congrArg Host.Outcome.next ((if_neg (by simp [hd, hb])).trans ((if_neg (by rw [hl]; decide)).trans (if_pos hr)))

theorem exec_timeSkewRelease (hd : d < s.part.dies) (hr : (die s d).dieReason = 5) (hs : rb s (pgTb d) Off.TB_STAT 5 = true) :
    exec (.timeSkewRelease d) s = .next (dieRelease (waitClock s ((die s d).syncSince + 250000)) d) :=
  congrArg Host.Outcome.next (if_pos ⟨hd, hr, hs⟩)

/-! ### The critical temperature (R349) -/

/-- Every present head port page of a list is fenced. -/
theorem fenced_fencePorts {p : Nat} (hp : p < nPorts s) (hpres : present s (pgHp d p) = true) :
    fenced (each ((List.range (nPorts s)).map (pgHp d)) s fun s p => fencePage s p 9) (pgHp d p) = true := by
  have hmem : pgHp d p ∈ (List.range (nPorts s)).map (pgHp d) := List.mem_map_of_mem (List.mem_range.mpr hp)
  cases hf : fenced s (pgHp d p) with
  | true => exact each_pres (P := fun t => fenced t (pgHp d p) = true) hf fun _ _ _ h => fenced_fencePage 9 h
  | false =>
    refine fenced_each_fencePage 9 hmem ?_
    rw [takesFence, pgKind_pgHp d (hp.trans_le (nPorts_le s)), hpres, hf]
    rfl

/-- CRITICAL (R349). -/
theorem critical_spec {o : Nat} (hd : d < s.part.dies) (ho : o < 11) (hw : awake s d = true) :
    Completes (.critical d o) s fun t => rb t (pgThermal d) Off.EVT_LAT 3 = true ∧
      ∀ p < nPorts s, present s (pgHp d p) = true → fenced t (pgHp d p) = true := by
  have hexec : exec (.critical d o) s = .next
      (let s1 := each ((List.range (nPorts s)).map (pgHp d)) s fun s p => fencePage s p 9
       let s2 := raise (critFollow (critScope s1 d) d) (pgThermal d) 3
       thRecord s2 d 4 o true 0 (islTemp s2 d o) (word (scope s d none).w0) (word (scopeWork s2 d none))) :=
    congrArg Host.Outcome.next (if_pos ⟨hd, ho, hw⟩)
  refine .of hexec ?_
  extract_lets s1 s2
  have hpart : s1.part = s.part := each_pres (P := fun u => u.part = s.part) rfl fun u p _ hu => (part_fencePage ..).trans hu
  have hcrit : (critFollow (critScope s1 d) d).part = s1.part := by
    apply critFollow_inv (φ := State.part) (hU := part_setScope ..) <;> exact fun _ _ => rfl
  refine ⟨?_, fun p hp hpres => ?_⟩
  · have hth (k : Kind) (h : .thermal ≠ k) : k.Apart (pgThermal d) := Kind.apart .thermal k rfl h
    rw [rb, (thRecord_keeps (hth .chuteGlobal (by decide)) (hth .chute (by decide)) (.refl _ s2)).regs, ← rb]
    exact rb_raise_same _ _ _ (present_pgThermal (by rw [hcrit, hpart]; exact hd)) (by decide)
  · have hhp (k : Kind) (h : .hp ≠ k) := hp_apart (d := d) (hp.trans_le (nPorts_le s)) k h
    have h1 : fenced s1 (pgHp d p) = true := fenced_fencePorts hp hpres
    rw [← h1]
    refine fenced_congr ?_
    refine ((thRecord_keeps (hhp .chuteGlobal (by decide)) (hhp .chute (by decide)) (.refl _ s2)).regs _).trans ?_
    refine (rd_raise_off _ _ _ _ _ (by decide)).trans ?_
    exact (critFollow_keeps (hhp .thermal (by decide)) (critScope_keeps (hhp .thermal (by decide)) (.refl _ s1))).regs _

end

/-- Settles O17: the fence of a whole die takes every page of it that can be fenced, and what fences or releases another die leaves
them alone. -/
theorem dieFences : Obligations.DieFences := by
  unfold Obligations.DieFences
  refine ⟨fun s r v d ht h0 hd h8 hv hold hr => .of (exec_dieFenced ht) (dieCtrl_spec h0 hd h8 hv hold hr),
    fun s d h0 h8 hd hw hr ht => watchdog_spec h0 h8 hd hw hr ht, fun s d hd hl hw hr => pllUnlock_spec hd hl hw hr,
    fun s d hd hb hl => pllRelock_spec hd hb hl, fun s d hd hb hl hr => .of (exec_pllRelease hd hb hl hr) (dieRelease_waitClock ..),
    fun s d hd hr hs => .of (exec_timeSkewRelease hd hr hs) (dieRelease_waitClock ..), fun s d o hd ho hw => critical_spec hd ho hw⟩

end Sys2Proof.Machine

namespace Sys2Proof.Machine
open Sys2Proof.Laws

/-! ### What the operations of jet contexts leave of them (R117 to R147) -/

/-- Where a context stands: its state and what it comes from and goes to, and its latched words. -/
def ctxPlace (x : CtxSt) : CState × CState × Nat × Bool × Nat × Tbl Nat Word := (x.st, x.before, x.cause, x.rejoin, x.drainCause, x.lat)

/-- Its marks. -/
def ctxMarks (x : CtxSt) : Bool × Nat := (x.lost, x.cntStep)

/-- What operations on contexts leave: the marks of every context and its events that are latched; its active words and its commit
word, but for a hand-over (`h`); and, with no word of memory poisoned, the place of every context outside `M`. -/
structure CtxKept (M : Nat → Nat → Prop) (h : Prop) (s t : State) : Prop where
  marks : ∀ d k, ctxMarks (ctx t d k) = ctxMarks (ctx s d k)
  evts : ∀ d k i, k < 256 → rb s (pgCtx d) (Off.CTX_EVT + 4 * k) i = true → rb t (pgCtx d) (Off.CTX_EVT + 4 * k) i = true
  words : ¬h → ∀ d k, (ctx t d k).act = (ctx s d k).act
  commit : ¬h → ∀ d k, k < 256 → rd t (pgCtx d) (commitOff k) = rd s (pgCtx d) (commitOff k)
  ecc : s.ecc = [] → t.ecc = []
  place : s.ecc = [] → ∀ d k, ¬M d k → ctxPlace (ctx t d k) = ctxPlace (ctx s d k)

/-- The page of the contexts is apart from those of another kind. -/
theorem ctxPage_apart (d : Nat) (k : Kind) (h : .ctxCtrl ≠ k) : k.Apart (pgCtx d) := Kind.apart .ctxCtrl k rfl h

section
variable {M : Nat → Nat → Prop} {h : Prop} {a s t : State} {d k : Nat}

namespace CtxKept

theorem refl (s : State) : CtxKept M h s s :=
  ⟨fun _ _ => rfl, fun _ _ _ _ hi => hi, fun _ _ _ => rfl, fun _ _ _ _ => rfl, fun he => he, fun _ _ _ _ => rfl⟩

theorem trans (h1 : CtxKept M h a s) (h2 : CtxKept M h s t) : CtxKept M h a t :=
  ⟨fun e j => (h2.marks e j).trans (h1.marks e j), fun e j i hj hi => h2.evts e j i hj (h1.evts e j i hj hi),
    fun hh e j => (h2.words hh e j).trans (h1.words hh e j), fun hh e j hj => (h2.commit hh e j hj).trans (h1.commit hh e j hj),
    fun he => h2.ecc (h1.ecc he), fun he e j hm => (h2.place (h1.ecc he) e j hm).trans (h1.place he e j hm)⟩

/-- An operation that leaves the contexts and the registers of their page. -/
theorem of_same (h1 : CtxKept M h a s) (hc : t.ctxs = s.ctxs) (he : s.ecc = [] → t.ecc = [])
    (hr : ∀ e, ∀ o, rd t (pgCtx e) o = rd s (pgCtx e) o) :
    CtxKept M h a t := by
  have hx (e j : Nat) : ctx t e j = ctx s e j := by rw [ctx, hc, ← ctx]
  exact h1.trans ⟨fun e j => by rw [hx], fun e j i _ hi => by rwa [rb, hr], fun _ e j => by rw [hx], fun _ e j _ => hr e _,
    he, fun _ e j _ => by rw [hx]⟩

/-- A write on another page, or of another register than the words of the contexts. -/
theorem wr (h1 : CtxKept M h a s) (p : Pg) {o : Nat} (w : Word) (ho : (∀ e, p ≠ pgCtx e) ∨ o < Off.CTX_COMMIT) : CtxKept M h a (wr s p o w) := by
  have hr (e : Nat) {o' : Nat} (ho' : Off.CTX_COMMIT ≤ o') : rd (Machine.wr s p o w) (pgCtx e) o' = rd s (pgCtx e) o' := by
    rcases ho with ho | ho
    · exact rd_wr_page _ _ _ _ _ _ (ho e)
    · exact rd_wr_off _ _ _ _ _ _ (by omega)
  exact h1.trans ⟨fun _ _ => rfl, fun e j i _ hi => by rwa [rb, hr e (by simp only [Off.CTX_COMMIT, Off.CTX_EVT]; omega)], fun _ _ _ => rfl,
    fun _ e j _ => hr e (by unfold commitOff; omega), fun he => he, fun _ _ _ _ => rfl⟩

theorem raise (h1 : CtxKept M h a s) (p : Pg) (i : Nat) : CtxKept M h a (raise s p i) := by
  have hr (e : Nat) {o : Nat} (ho : Off.CTX_COMMIT ≤ o) : rd (Machine.raise s p i) (pgCtx e) o = rd s (pgCtx e) o :=
    rd_raise_off _ _ _ _ _ (by simp only [Off.CTX_COMMIT] at ho; simp only [Off.EVT_LAT]; omega)
  have hc : (Machine.raise s p i).ctxs = s.ctxs := by
    apply raise_inv (φ := State.ctxs) (hU := rfl) <;> exact fun _ _ => rfl
  have he : (Machine.raise s p i).ecc = s.ecc := by
    apply raise_inv (φ := State.ecc) (hU := rfl) <;> exact fun _ _ => rfl
  have hx (e j : Nat) : ctx (Machine.raise s p i) e j = ctx s e j := by rw [ctx, hc, ← ctx]
  exact h1.trans ⟨fun e j => by rw [hx], fun e j n _ hn => by rwa [rb, hr e (by simp only [Off.CTX_COMMIT, Off.CTX_EVT]; omega)],
    fun _ e j => by rw [hx], fun _ e j _ => hr e (by unfold commitOff; omega), fun h0 => he.trans h0, fun _ e j _ => by rw [hx]⟩

theorem setDyn (h1 : CtxKept M h a s) (p : Pg) (i : Nat) (b : Bool) : CtxKept M h a (setDyn s p i b) := by
  unfold Machine.setDyn
  split
  · extract_lets was s1
    have h2 : CtxKept M h a s1 := by
      unfold s1
      cases was != b
      · exact h1
      · exact h1.wr _ _ (.inr (by decide))
    cases b && !was
    · exact h2
    · exact h2.raise ..
  · exact h1

/-- A context that changes: its marks and active words stay, and its place or it is one of `M`. -/
theorem setCtx (h1 : CtxKept M h a s) (e j : Nat) (x : CtxSt) (hm : ctxMarks x = ctxMarks (ctx s e j)) (hw : ¬h → x.act = (ctx s e j).act)
    (hp : s.ecc = [] → ¬M e j → ctxPlace x = ctxPlace (ctx s e j)) : CtxKept M h a (setCtx s e j x) := by
  refine h1.trans ⟨fun e' j' => ?_, fun _ _ _ _ hi => hi, fun hh e' j' => ?_, fun _ _ _ _ => rfl, fun he => he, fun he e' j' hM => ?_⟩
  all_goals by_cases hk : (e, j) = (e', j')
  · obtain ⟨rfl, rfl⟩ := Prod.mk.inj hk
    rw [ctx_setCtx, hm]
  · rw [ctx_setCtx_other _ _ _ _ _ _ hk]
  · obtain ⟨rfl, rfl⟩ := Prod.mk.inj hk
    rw [ctx_setCtx, hw hh]
  · rw [ctx_setCtx_other _ _ _ _ _ _ hk]
  · obtain ⟨rfl, rfl⟩ := Prod.mk.inj hk
    rw [ctx_setCtx, hp he hM]
  · rw [ctx_setCtx_other _ _ _ _ _ _ hk]

/-- A context that changes in other parts. -/
theorem setCtx' (h1 : CtxKept M h a s) (e j : Nat) (x : CtxSt) (hx : (ctxMarks x, x.act, ctxPlace x) =
    (ctxMarks (ctx s e j), (ctx s e j).act, ctxPlace (ctx s e j))) : CtxKept M h a (Machine.setCtx s e j x) := by
  obtain ⟨hm, hx⟩ := Prod.mk.inj hx
  obtain ⟨hw, hp⟩ := Prod.mk.inj hx
  exact h1.setCtx e j x hm (fun _ => hw) fun _ _ => hp

/-- An event of a context. -/
theorem ctxEvt (h1 : CtxKept M h a s) (e j i : Nat) : CtxKept M h a (ctxEvt s e j i) := by
  unfold Machine.ctxEvt
  extract_lets off s1
  have h2 : CtxKept M h a s1 := by
    have hw : CtxKept M h a (Machine.wr s (pgCtx e) off (rd s (pgCtx e) off ||| bitw i)) := by
      refine h1.trans ⟨fun _ _ => rfl, fun e' j' n _ hn => ?_, fun _ _ _ => rfl, fun _ e' j' hj => rd_wr_off _ _ _ _ _ _ ?_, fun he => he,
        fun _ _ _ _ => rfl⟩
      · rw [rb, rd_wr]
        split
        next hq =>
          obtain ⟨hp, ho⟩ := Prod.mk.inj hq
          rw [rb, ← hp, ← ho] at hn
          simp only [bit, BitVec.getLsbD_or] at hn ⊢
          rw [hn, Bool.true_or]
        next => exact hn
      · simp only [off, commitOff, Off.CTX_EVT, Off.CTX_COMMIT]
        omega
    exact hw.of_same rfl (fun he => he) fun _ _ => rfl
  unfold whenDo
  split
  · exact h2.setDyn ..
  · exact h2

theorem whenDo (h1 : CtxKept M h a s) (b : Bool) {f : State → State} (hf : CtxKept M h a (f s)) : CtxKept M h a (whenDo b s f) := by
  unfold Machine.whenDo
  split
  · exact hf
  · exact h1

/-! Lines withdrawn, records and measurements. -/

theorem withdrawAll (h1 : CtxKept M h a s) (e j : Nat) (f : Cycle → Bool) : CtxKept M h a (withdrawAll s e j f) := by
  refine each_pres (P := CtxKept M h a) h1 fun u c _ hu => ?_
  have hk : CtxKept M h a (keepLine u e j c) := by
    unfold keepLine
    split
    · exact hu
    · dsimp only
      split
      · exact hu
      · exact hu.setCtx' _ _ _ rfl
  refine hk.of_same ?_ ?_ fun p o => (withdraw_keeps (.refl ..)).regs o
  · apply withdraw_inv (φ := State.ctxs) (hU := rfl) <;> exact fun _ _ => rfl
  · refine fun he => Eq.trans ?_ he
    apply withdraw_inv (φ := State.ecc) (hU := rfl) <;> exact fun _ _ => rfl

theorem stallFollow (h1 : CtxKept M h a s) (e j : Nat) : CtxKept M h a (stallFollow s e j) := by
  unfold Machine.stallFollow
  split
  · exact h1
  · exact h1.setCtx' _ _ _ rfl

theorem logRecord (h1 : CtxKept M h a s) (e c : Nat) (x : Rec) : CtxKept M h a (logRecord s e c x) := by
  refine h1.of_same ?_ ?_ fun p o => (logRecord_keeps (ctxPage_apart p .fence (by decide)) (ctxPage_apart p .chuteGlobal (by decide))
    (ctxPage_apart p .chute (by decide)) (.refl ..)).regs o
  · apply logRecord_inv (φ := State.ctxs) (hU := rfl) <;> exact fun _ _ => rfl
  · refine fun he => Eq.trans ?_ he
    apply logRecord_inv (φ := State.ecc) (hU := rfl) <;> exact fun _ _ => rfl

theorem dropMoved (h1 : CtxKept M h a s) (e j : Nat) : CtxKept M h a (dropMoved s e j) := by
  refine h1.of_same ?_ ?_ fun p o => (dropMoved_keeps (ctxPage_apart p .echo (by decide)) (.refl ..)).regs o
  · apply dropMoved_inv (φ := State.ctxs) (hU := rfl) <;> exact fun _ _ => rfl
  · refine fun he => Eq.trans ?_ he
    apply dropMoved_inv (φ := State.ecc) (hU := rfl) <;> exact fun _ _ => rfl

theorem setEcho (h1 : CtxKept M h a s) (e : Nat) (x : EchoSt) : CtxKept M h a (setEcho s e x) :=
  h1.of_same rfl (fun he => he) fun _ _ => rfl

theorem staleMeas (h1 : CtxKept M h a s) (e j : Nat) : CtxKept M h a (staleMeas s e j) := h1.setEcho ..

theorem sweepBreak (h1 : CtxKept M h a s) (e : Nat) (f : Nat → Bool) : CtxKept M h a (sweepBreak s e f) := by
  unfold Machine.sweepBreak
  dsimp only
  split
  · exact h1.setEcho ..
  · exact h1

theorem ctxDiff (h1 : CtxKept M h a s) (e j : Nat) : CtxKept M h a (ctxDiff s e j) := by
  unfold Machine.ctxDiff
  split
  · exact h1
  · split
    · exact h1.raise ..
    · exact h1

/-! Seams (R165). -/

theorem seamSet (h1 : CtxKept M h a s) (e j st c : Nat) : CtxKept M h a (seamSet s e j st c) := by
  unfold Machine.seamSet
  extract_lets x
  split
  · exact h1
  · split
    next f i hp =>
    extract_lets s0 s1 s2 s3
    have h0 : CtxKept M h a s0 ∧ ctx s0 e j = ctx s e j := by
      unfold s0
      split
      · exact ⟨h1.of_same rfl (fun he => he) fun _ _ => rfl, rfl⟩
      · exact ⟨h1, rfl⟩
    have h2 : CtxKept M h a s2 :=
      (h0.1.setCtx' _ _ _ (by rw [h0.2]; rfl)).wr _ _ (.inl fun q => (ctxPage_apart q .seam (by decide) e))
    have h3 : CtxKept M h a s3 := h2.whenDo _ (h2.raise ..)
    exact h3.whenDo _ (h3.raise ..)

theorem seamUpdate (h1 : CtxKept M h a s) (e j : Nat) : CtxKept M h a (seamUpdate s e j) := by
  unfold Machine.seamUpdate
  split
  · exact h1.seamSet ..
  · dsimp only
    split
    · exact (h1.seamSet ..).seamSet ..
    · exact h1.seamSet ..

/-! Poison (R144, R311). -/

/-- With poison in memory nothing is said of places. -/
theorem of_poisoned (he : s.ecc ≠ []) (h1 : CtxKept (fun _ _ => True) h s t) : CtxKept M h s t :=
  ⟨h1.marks, h1.evts, h1.words, h1.commit, fun h0 => absurd h0 he, fun h0 => absurd h0 he⟩

theorem ctxFence (h1 : CtxKept M h a s) (e j c : Nat) (hM : M e j) : CtxKept M h a (ctxFence s e j c) := by
  unfold Machine.ctxFence
  extract_lets x s1 y s2
  split
  · exact h1
  · have h2 : CtxKept M h a s2 := by
      refine stallFollow (setCtx (h1.withdrawAll e j _) e j _ ?_ ?_ fun _ hno => absurd hM hno) e j
      · rfl
      · exact fun _ => rfl
    exact (((((h2.ctxEvt e j 6).dropMoved e j).staleMeas e j).sweepBreak e _).seamUpdate e j)

theorem readWords (h1 : CtxKept M h a s) (n e : Nat) (dps : Bool) (w src : Nat) (eff : Option Link) (r : Nat) :
    CtxKept M h a (readWords n s e dps w src eff r).2.2 := by
  refine h1.of_same ?_ (fun he => ?_) fun p o => (readWords_keeps (ctxPage_apart p .fence (by decide)) (ctxPage_apart p .memctl (by decide))
    (ctxPage_apart p .chuteGlobal (by decide)) (ctxPage_apart p .chute (by decide)) (.refl ..)).regs o
  · apply readWords_inv (φ := State.ctxs) (hU := rfl) <;> exact fun _ _ => rfl
  · rw [readWords_good he]
    exact he

theorem ctxRead (h1 : CtxKept M h a s) (e j : Nat) (dps : Bool) (w n : Nat) : CtxKept M h a (ctxRead s e j dps w n).2.2 := by
  refine h1.trans ?_
  by_cases he : s.ecc = []
  · unfold Machine.ctxRead
    rw [readWords_good he]
    exact .refl s
  · refine of_poisoned he ?_
    have h2 := (refl (M := fun _ _ => True) (h := h) s).readWords n e dps w 0 (poisonEff s e j) 0x0B
    unfold Machine.ctxRead
    dsimp only
    split
    · exact h2.ctxFence e j 0x0B trivial
    · exact h2

/-- The state after a read of descriptor words. -/
theorem of_ctxRead {u : State} {e j w n : Nat} {dps bad : Bool} {ws : List Word} (h1 : CtxKept M h a s)
    (hu : Machine.ctxRead s e j dps w n = (ws, bad, u)) : CtxKept M h a u := by
  have h2 := h1.ctxRead e j dps w n
  rwa [hu] at h2

/-! Descriptors and maps (R161, R203). -/

theorem geomReport (h1 : CtxKept M h a s) (e j c : Nat) : CtxKept M h a (geomReport s e j c) := by
  refine CtxKept.raise (wr (setCtx' h1 e j { ctx s e j with geomBad := true } rfl) _ _ (.inl fun q => ctxPage_apart q .seam (by decide) e)) _ _

theorem checkSeamMask (h1 : CtxKept M h a s) (e j : Nat) : CtxKept M h a (checkSeamMask s e j) := by
  unfold Machine.checkSeamMask
  split
  · exact h1.geomReport ..
  · split
    · exact h1.geomReport ..
    · split
      · exact h1.geomReport ..
      · exact h1

theorem readDescr (h1 : CtxKept M h a s) (e j : Nat) : CtxKept M h a (readDescr s e j) := by
  unfold Machine.readDescr
  extract_lets g sp x0 s0
  have h0 : CtxKept M h a s0 := h1.setCtx' _ _ _ rfl
  clear_value s0
  split
  · exact h0.geomReport ..
  · split
    next hd bad s1 hr1 =>
    have hk1 := h0.of_ctxRead hr1
    split
    · exact hk1
    · extract_lets rows
      split
      · exact hk1.geomReport ..
      · split
        next r bad2 s2 hr2 =>
        have hk2 := hk1.of_ctxRead hr2
        split
        · exact hk2
        · split
          next sd bad3 s3 hr3 =>
          have hk3 : CtxKept M h a s3 := by
            split at hr3
            · obtain ⟨-, hr3⟩ := Prod.mk.inj hr3
              obtain ⟨-, rfl⟩ := Prod.mk.inj hr3
              exact hk2
            · exact hk2.of_ctxRead hr3
          split
          · exact hk3
          · extract_lets x4 s4
            have hk4 : CtxKept M h a s4 := hk3.setCtx' _ _ _ rfl
            clear_value s4
            split
            · exact hk4.geomReport ..
            · split
              · exact hk4.geomReport ..
              · exact hk4.checkSeamMask ..

theorem checkDescr (h1 : CtxKept M h a s) (e j : Nat) : CtxKept M h a (checkDescr s e j) := by
  have h2 := (h1.readDescr e j).seamUpdate e j
  unfold Machine.checkDescr
  dsimp only
  split
  · exact h2.seamUpdate ..
  · exact h2

theorem mapReload (h1 : CtxKept M h a s) (e j : Nat) : CtxKept M h a (mapReload s e j) := by
  unfold Machine.mapReload
  split
  · exact h1.setCtx' _ _ _ rfl
  · split
    · refine CtxKept.raise (wr (setCtx' h1 e j _ ?_) _ _ (.inl fun q => ctxPage_apart q .echo (by decide) e)) _ _
      rfl
    · exact h1.setCtx' _ _ _ rfl

/-! Hand-overs and changes of state (R119, R122). -/

/-- What follows a hand-over: its event, the checks of the descriptors and the map. -/
theorem handedOver (h1 : CtxKept M h a s) (e j : Nat) :
    CtxKept M h a (Machine.stallFollow (Machine.checkDescr (Machine.ctxDiff (Machine.ctxEvt s e j 7) e j) e j) e j) :=
  (((h1.ctxEvt e j 7).ctxDiff e j).checkDescr e j).stallFollow e j

end CtxKept

end

end Sys2Proof.Machine

namespace Sys2Proof.Machine
open Sys2Proof.Laws

/-! ### Hand-overs and changes of state leave the other contexts (R119 to R126) -/

section
variable {M : Nat → Nat → Prop} {h : Prop} {a s t : State} {d k : Nat}

/-- The contexts of a group are of the tier. -/
theorem lt_of_mem_members {p g m : Nat} (hm : m ∈ members s d p g) : m < nCtx s := by
  rw [members, List.mem_filter, List.mem_range] at hm
  exact hm.1

/-- The contexts that move with one of the tier are of the tier. -/
theorem lt_of_mem_movers {m : Nat} (hk : k < 256) (hm : m ∈ movers s d k) : m < 256 := by
  unfold movers at hm
  split at hm
  · exact (lt_of_mem_members (List.mem_filter.1 hm).1).trans_le (nCtx_le s)
  · rwa [List.mem_singleton.1 hm]

namespace CtxKept

/-- A write of a commit word, in a hand-over. -/
theorem wrCommit (h1 : CtxKept M h a s) (e j : Nat) (w : Word) (hh : h) (hj : j < 256) : CtxKept M h a (Machine.wr s (pgCtx e) (commitOff j) w) := by
  refine h1.trans ⟨fun _ _ => rfl, fun e' j' i _ hi => ?_, fun hn => absurd hh hn, fun hn => absurd hh hn, fun he => he, fun _ _ _ _ => rfl⟩
  rwa [rb, rd_wr_off _ _ _ _ _ _ (by simp only [commitOff, Off.CTX_COMMIT, Off.CTX_EVT]; omega)]

theorem ctxHandOver (h1 : CtxKept M h a s) (e j : Nat) (hh : h) (hj : j < 256) : CtxKept M h a (ctxHandOver s e j) := by
  unfold Machine.ctxHandOver
  split
  next ws bad s1 hr =>
  have hk1 := h1.of_ctxRead hr
  split
  · exact hk1
  · extract_lets old nt act x s2 c s3 s4
    have h2 : CtxKept M h a s2 := hk1.setCtx _ _ _ rfl (fun hn => absurd hh hn) fun _ _ => rfl
    have h4 : CtxKept M h a s4 := (h2.wrCommit e j _ hh hj).handedOver e j
    split
    · exact (h4.mapReload e j).staleMeas e j
    · exact h4

theorem tryHandOver (h1 : CtxKept M h a s) (e j : Nat) (hh : h) (hj : j < 256) : CtxKept M h a (tryHandOver s e j) := by
  unfold Machine.tryHandOver
  dsimp only
  split
  · exact h1.ctxHandOver e j hh hj
  · exact h1

/-- What follows the entry of a context into a state: its event, what it had moved and measured, its seam and a hand-over. -/
theorem entered (h1 : CtxKept M h a s) (e j : Nat) (old new : CState) (hh : h) (hj : j < 256) :
    CtxKept M h a
      (let s2 := match entryEvt old new with | none => s | some i => Machine.ctxEvt s e j i
       let s3 := if new = .printing ∨ new = .draining then s2 else Machine.dropMoved s2 e j
       let s4 := Machine.sweepBreak (if new = .idle then Machine.staleMeas s3 e j else s3) e fun i => decide (i = j) && decide (new ≠ .printing)
       let s5 := Machine.tryHandOver (Machine.seamUpdate s4 e j) e j
       if new = .armed then Machine.mapReload (Machine.checkDescr s5 e j) e j else s5) := by
  extract_lets s2 s3 s4 s5
  have h2 : CtxKept M h a s2 := by
    unfold s2
    split
    · exact h1
    · exact h1.ctxEvt ..
  have h3 : CtxKept M h a s3 := by
    unfold s3
    split
    · exact h2
    · exact h2.dropMoved ..
  have h4 : CtxKept M h a s4 := by
    unfold s4
    split
    · exact (h3.staleMeas ..).sweepBreak ..
    · exact h3.sweepBreak ..
  have h5 : CtxKept M h a s5 := (h4.seamUpdate e j).tryHandOver e j hh hj
  split
  · exact (h5.checkDescr e j).mapReload e j
  · exact h5

theorem ctxEnter (h1 : CtxKept M h a s) (e j : Nat) (st : CState) (cause : Nat) (hh : h) (hj : j < 256) (hM : M e j) :
    CtxKept M h a (ctxEnter s e j st cause) := by
  unfold Machine.ctxEnter
  extract_lets x s0
  split
  · exact h1
  · have h0 : CtxKept M h a s0 := by
      unfold s0
      split
      · exact h1.withdrawAll ..
      · exact h1
    clear_value s0
    refine entered (stallFollow (setCtx h0 e j _ ?_ (fun hn => absurd hh hn) fun _ hn => absurd hM hn) e j) e j x.st st hh hj
    rfl

theorem ctxMove (h1 : CtxKept M h a s) (e j : Nat) (st : CState) (cause : Nat) (hh : h) (hj : j < 256) (hM : ∀ e j, M e j) :
    CtxKept M h a (ctxMove s e j st cause) := by
  unfold Machine.ctxMove
  extract_lets ms rj s1
  have h2 : CtxKept M h a s1 := each_pres h1 fun u m hm hu => hu.ctxEnter e m _ _ hh (lt_of_mem_movers hj hm) (hM e m)
  split
  · refine each_pres h2 fun u m hm hu => hu.ctxEnter e m _ _ hh ?_ (hM e m)
    unfold rj at hm
    split at hm
    · exact (lt_of_mem_members (List.mem_filter.1 hm).1).trans_le (nCtx_le s)
    · cases hm
  · exact h2

end CtxKept

/-- A context outside `M` stands as it did, no word of memory poisoned. -/
theorem CtxKept.stands (h1 : CtxKept M h s t) (he : s.ecc = []) {e j : Nat} (hM : ¬M e j) :
    (ctx t e j).st = (ctx s e j).st ∧ (ctx t e j).cause = (ctx s e j).cause ∧ (ctx t e j).rejoin = (ctx s e j).rejoin := by
  have hp := h1.place he e j hM
  simp only [ctxPlace, Prod.mk.injEq] at hp
  obtain ⟨hst, -, hcause, hrejoin, -⟩ := hp
  exact ⟨hst, hcause, hrejoin⟩

/-- A context that enters a state, no word of memory poisoned, is in it, with the cause if it is IDLE or PAUSED. -/
theorem ctxEnter_enters (he : s.ecc = []) (hk : k < 256) {st : CState} (cause : Nat) (hne : (ctx s d k).st ≠ st) :
    (ctx (ctxEnter s d k st cause) d k).st = st ∧
    (st = .paused ∨ st = .idle → (ctx (ctxEnter s d k st cause) d k).cause = cause) := by
  unfold ctxEnter
  extract_lets x s0 x0 s1
  rw [if_neg hne]
  have he0 : s0.ecc = [] := by
    unfold s0
    split
    · exact ((CtxKept.refl (M := fun _ _ => False) (h := True) s).withdrawAll d k _).ecc he
    · exact he
  have hk1 : CtxKept (fun _ _ => False) True _ s1 := (CtxKept.refl _).stallFollow d k
  obtain ⟨hst, hcause, -⟩ := (hk1.entered d k x.st st trivial hk).stands he0 (e := d) (j := k) not_false
  refine ⟨hst.trans ?_, fun hq => hcause.trans ?_⟩
  · rw [ctx_setCtx]
  · rw [ctx_setCtx, if_pos hq]

end

end Sys2Proof.Machine

namespace Sys2Proof.Machine
open Sys2Proof.Laws

/-! ### Policies and placements leave the marks and events of contexts (R126, R132, R140, R141) -/

section
variable {M : Nat → Nat → Prop} {h : Prop} {a s t : State} {d k : Nat}

/-- A timing context is of the tier as its follower is. -/
theorem leader_lt (hk : k < 256) : leader s d k < 256 := by
  unfold leader timingOf
  cases hf : (members s d (cPort s d k) (cFg s d k)).find? fun k => cTiming s d k with
  | none => exact hk
  | some l => exact (lt_of_mem_members (List.mem_of_find?_eq_some hf)).trans_le (nCtx_le s)

namespace CtxKept

theorem setPort (h1 : CtxKept M h a s) (e p : Nat) (x : PortSt) : CtxKept M h a (setPort s e p x) :=
  h1.of_same rfl (fun he => he) fun _ _ => rfl

theorem discardAsm (h1 : CtxKept M h a s) (e j : Nat) : CtxKept M h a (discardAsm s e j) := by
  unfold Machine.discardAsm
  extract_lets s0 x
  have h0 : CtxKept M h a s0 := by
    refine h1.of_same ?_ (fun he => Eq.trans ?_ he) fun p o => ?_
    · apply blkDrop_inv (φ := State.ctxs) (hU := rfl) <;> exact fun _ _ => rfl
    · apply blkDrop_inv (φ := State.ecc) (hU := rfl) <;> exact fun _ _ => rfl
    · exact (blkDrop_keeps (.refl ..)).regs o
  exact h0.setCtx' _ _ _ rfl

/-- An ABORT of contexts of the tier. -/
theorem ctxAbortNow (h1 : CtxKept M h a s) (e j : Nat) (hh : h) (hj : j < 256) (hby : (ctx s e j).abortBy < 256) (hM : ∀ e j, M e j) :
    CtxKept M h a (ctxAbortNow s e j) := by
  unfold Machine.ctxAbortNow
  extract_lets x by_ ms s1
  have hb : by_ < 256 := by
    unfold by_
    split
    · exact hj
    · exact hby
  exact each_pres (h1.ctxMove e by_ _ _ hh hb hM) fun u m _ hu => hu.discardAsm e m

theorem ctxAbortAt (h1 : CtxKept M h a s) (e j c : Nat) (hh : h) (hj : j < 256) (hM : ∀ e j, M e j) : CtxKept M h a (ctxAbortAt s e j c) := by
  unfold Machine.ctxAbortAt
  extract_lets l x s1
  have h2 : CtxKept M h a s1 := h1.setCtx' _ _ _ rfl
  split
  · exact h2.ctxAbortNow e l hh (leader_lt hj) (by rw [ctx_setCtx]; exact hj) hM
  · exact h2

theorem ctxRecord (h1 : CtxKept M h a s) (e j c : Nat) (b : Bool) : CtxKept M h a (ctxRecord s e j c b) := h1.logRecord ..

theorem policyPause (h1 : CtxKept M h a s) (e j c : Nat) (b : Bool) (hh : h) (hj : j < 256) (hM : ∀ e j, M e j) :
    CtxKept M h a (policyPause s e j c b) := by
  unfold Machine.policyPause
  have h2 : CtxKept M h a (if b then Machine.ctxRecord s e j c false else s) := by
    split
    · exact h1.ctxRecord ..
    · exact h1
  split
  · unfold ctxPolicyPause
    split
    · exact h2.ctxMove e j _ _ hh hj hM
    · exact h2.ctxAbortAt e j c hh hj hM
    · exact h2
  · exact h1

theorem shiftOrigin (h1 : CtxKept M h a s) (e j : Nat) (z : Int) (hh : h) : CtxKept M h a (shiftOrigin s e j z) := by
  unfold Machine.shiftOrigin
  extract_lets sh x s1 p
  have h2 : CtxKept M h a s1 := h1.setCtx _ _ _ rfl (fun hn => absurd hh hn) fun _ _ => rfl
  exact h2.setPort ..

theorem lostPolicy (h1 : CtxKept M h a s) (e c j : Nat) (hh : h) (hj : j < 256) (hM : ∀ e j, M e j) : CtxKept M h a (lostPolicy s e c j) := by
  unfold Machine.lostPolicy
  extract_lets rec_
  split
  · split
    · exact h1
    · refine CtxKept.ctxFence ?_ e j 6 (hM e j)
      split
      · exact h1.ctxRecord ..
      · exact h1
  · exact h1.policyPause e j 6 _ hh hj hM

theorem stallRecord (h1 : CtxKept M h a s) (e j : Nat) (b : Bool) : CtxKept M h a (stallRecord s e j b) := by
  unfold Machine.stallRecord
  extract_lets p stall r
  split
  · exact (h1.setPort ..).logRecord ..
  · split
    · refine CtxKept.logRecord (setCtx' h1 e _ _ ?_) ..
      rfl
    · exact h1.logRecord ..

theorem rePredict (h1 : CtxKept M h a s) (e j : Nat) : CtxKept M h a (rePredict s e j) := by
  unfold Machine.rePredict
  generalize (if (ctx s e j).st = .printing then predictNext s e j else (ctx s e j).fireNext) = f
  exact h1.setCtx' _ _ _ rfl

theorem recompute (h1 : CtxKept M h a s) (e j : Nat) : CtxKept M h a (recompute s e j) := by
  unfold Machine.recompute
  extract_lets p g x s1 last y s2
  have h2 : CtxKept M h a s1 := h1.setPort ..
  clear_value s1
  refine CtxKept.rePredict ?_ e j
  unfold s2
  clear_value last
  cases last with
  | none => exact h2
  | some c => exact h2.setCtx' _ _ _ rfl

/-- A context without a block that it takes is at the end of its lines: nothing of the assembler moves. -/
theorem expandAll (h1 : CtxKept M h a s) (e j : Nat) (ht : takesBlocks s e j = false) : CtxKept M h a (expandAll s e j) := by
  unfold Machine.expandAll
  extract_lets c
  split
  · exact h1
  next b hb =>
    split
    next hbj =>
      cases Machine.blkFuel s e c with
      | zero => exact h1
      | succ n =>
        have hstep : blkStep s e c b = (false, s) := if_pos (by rw [hbj, ht, Bool.not_false, Bool.or_true])
        simp only [blkGo, hb, hstep]
        exact h1
    · exact h1

theorem freeLines (h1 : CtxKept M h a s) (e j : Nat) (f : ImgLine → Bool) : CtxKept M h a (freeLines s e j f) := by
  unfold Machine.freeLines
  extract_lets x gone s1
  have h2 : CtxKept M h a s1 := h1.setCtx' _ _ _ rfl
  refine each_pres h2 fun u _ _ hu => ?_
  unfold creditOwner
  split
  · exact hu.of_same rfl (fun he => he) fun _ _ => rfl
  · exact hu

end CtxKept

end

end Sys2Proof.Machine

namespace Sys2Proof.Machine
open Sys2Proof.Laws

/-! ### Messages to jet contexts (R107, R132, R140, R141) -/

section
variable {s t : State} {d c k : Nat}

/-- The messages on their way, the clock, and what the islands hold of the channels. -/
def arriving (s : State) : List Msg × Nat × Tbl (Nat × Nat) EncSt := (s.msgs, s.clock, s.encs)

/-- The first message on its way, if it is the one that is looked for, arrives no earlier than it is due. -/
theorem takeMsg_head {m : Msg} {rest : List Msg} {f : Msg → Bool} (hm : s.msgs = m :: rest) (hd : m.die = d) (hf : f m = true) :
    takeMsg s d f = some (m, waitClock { s with msgs := rest } m.due) := by
  have hfind : s.msgs.find? (fun x => decide (x.die = d) && f x) = some m := by
    rw [hm, List.find?_cons_of_pos (by simp [hd, hf])]
  have herase : s.msgs.erase m = rest := by rw [hm, List.erase_cons_head]
  simp only [takeMsg, hfind, herase]

/-- Waiting leaves the contexts. -/
@[simp] theorem waitClock_ctxs (n : Nat) : (waitClock s n).ctxs = s.ctxs := by
  apply waitClock_inv (φ := State.ctxs) (hU := rfl) <;> exact fun _ _ => rfl

/-- What has arrived when a message is taken. -/
theorem arriving_waitClock (n : Nat) : arriving (waitClock s n) = (s.msgs, max s.clock n, s.encs) := by
  have h : (fun u : State => (u.msgs, u.encs)) (waitClock s n) = (s.msgs, s.encs) := by
    apply waitClock_inv (φ := fun u : State => (u.msgs, u.encs)) (hU := rfl) <;> exact fun _ _ => rfl
  obtain ⟨hm, he⟩ := Prod.mk.inj h
  rw [arriving, hm, he, waitClock_clock]

/-- The contexts bound to a channel depend on the contexts and the tier. -/
theorem boundTo_congr (hc : t.ctxs = s.ctxs) (hp : t.part = s.part) : boundTo t d c = boundTo s d c := by
  have hn : nCtx t = nCtx s := by rw [nCtx, hp, ← nCtx]
  have hx (j : Nat) : ctx t d j = ctx s d j := by rw [ctx, hc, ← ctx]
  rw [boundTo, hn]
  refine List.filter_congr fun j _ => ?_
  have hb : bound t d j = bound s d j := by rw [bound, hx, ← bound]
  have hs : cSrc t d j = cSrc s d j := by rw [cSrc, lf, lw, hx, ← lw, ← lf, ← cSrc]
  rw [hb, hs]

/-- The contexts bound to a channel are of the tier. -/
theorem lt_of_mem_boundTo (hk : k ∈ boundTo s d c) : k < 256 := by
  rw [boundTo, List.mem_filter, List.mem_range] at hk
  exact hk.1.trans_le (nCtx_le s)

/-- Each bound context is listed once. -/
theorem nodup_boundTo : (boundTo s d c).Nodup := List.nodup_range.filter _

/-- As `each_once`, of the members of the list alone. -/
theorem each_once_mem {l : List Nat} {f : State → Nat → State} {P Q : State → Prop} {x : Nat} (hx : x ∈ l) (hnd : l.Nodup) (hP : P s)
    (hpre : ∀ t, ∀ y ∈ l, y ≠ x → P t → P (f t y)) (hat : ∀ t, P t → Q (f t x)) (hpost : ∀ t, ∀ y ∈ l, y ≠ x → Q t → Q (f t y)) :
    Q (each l s f) := by
  have hf : each l s f = each l s fun t y => if y ∈ l then f t y else t :=
    List.foldl_ext _ _ _ fun t y hy => (if_pos hy).symm
  rw [hf]
  refine each_once hx hnd hP (fun t y hy ht => ?_) (fun t ht => ?_) fun t y hy ht => ?_
  · split
    next hm => exact hpre t y hm hy ht
    next => exact ht
  · rw [if_pos hx]
    exact hat t ht
  · split
    next hm => exact hpost t y hm hy ht
    next => exact ht

/-! ESTIMATE_ARRIVAL. -/

/-- The estimate at one context. -/
def estimateAt (d : Nat) (e : Est) (s : State) (k : Nat) : State :=
  let s2 := if e.valid then setCtx s d k { ctx s d k with lost := false } else s
  if cTiming s2 d k && activeSt s2 d k then recompute s2 d k else s2

theorem estimateArrives_eq (e : Est) : estimateArrives s d c e =
    each (boundTo (setEnc s d c { enc s d c with jet := e }) d c) (setEnc s d c { enc s d c with jet := e }) (estimateAt d e) := rfl

theorem arriving_estimateAt (e : Est) : arriving (estimateAt d e s k) = arriving s := by
  unfold estimateAt
  extract_lets x s2
  have h2 : arriving s2 = arriving s := by
    unfold s2
    split <;> rfl
  split
  · refine Eq.trans ?_ h2
    apply recompute_inv (φ := arriving) (hU := rfl) <;> exact fun _ _ => rfl
  · exact h2

/-- A valid estimate clears LOST of the context that it reaches and leaves that of others. -/
theorem lost_estimateAt {e : Est} (hv : e.valid = true) (j : Nat) :
    (ctx (estimateAt d e s k) d j).lost = (decide (j ≠ k) && (ctx s d j).lost) := by
  unfold estimateAt
  extract_lets x s2
  have h2 : (ctx s2 d j).lost = (decide (j ≠ k) && (ctx s d j).lost) := by
    unfold s2
    rw [if_pos hv]
    by_cases hj : j = k
    · subst hj
      rw [ctx_setCtx, decide_eq_false (not_not_intro rfl), Bool.false_and]
    · rw [ctx_setCtx_other _ _ _ _ _ _ (by simpa using fun q => hj q.symm), decide_eq_true hj, Bool.true_and]
  split
  · exact (congrArg Prod.fst (((CtxKept.refl (M := fun _ _ => True) (h := True) s2).recompute d k).marks d j)).trans h2
  · exact h2

theorem exec_estimateArrival {due : Nat} {e : Est} {rest : List Msg} (hm : s.msgs = ⟨d, c, due, .estimate e⟩ :: rest) :
    exec (.estimateArrival d c) s = .next (estimateArrives (waitClock { s with msgs := rest } due) d c e) := by
  change execEstimateArrival d c s = _
  unfold execEstimateArrival
  rw [takeMsg_head hm rfl (by simp)]

/-- An estimate that arrives is what the island holds, and ends LOST if it is valid. -/
theorem estimateArrives_spec (e : Est) : arriving (estimateArrives s d c e) = arriving (setEnc s d c { enc s d c with jet := e }) ∧
    (e.valid = true → ∀ k ∈ boundTo s d c, (ctx (estimateArrives s d c e) d k).lost = false) := by
  rw [estimateArrives_eq]
  generalize hu : setEnc s d c { enc s d c with jet := e } = u
  have hb : boundTo u d c = boundTo s d c := by
    subst hu
    exact boundTo_congr rfl rfl
  rw [hb]
  refine ⟨each_pres (P := fun t => arriving t = arriving u) rfl fun t k _ ht => (arriving_estimateAt e).trans ht, fun hv k hk => ?_⟩
  refine each_once (P := fun _ => True) (Q := fun t => (ctx t d k).lost = false) hk nodup_boundTo trivial (fun _ _ _ _ => trivial)
    (fun t _ => ?_) fun t y _ ht => ?_
  · rw [lost_estimateAt hv, decide_eq_false (not_not_intro rfl), Bool.false_and]
  · rw [lost_estimateAt hv, ht, Bool.and_false]

/-! POSITION_STEP. -/

theorem exec_positionStep {due st : Nat} {z : Int} {rest : List Msg} (hm : s.msgs = ⟨d, c, due, .step z st⟩ :: rest) :
    exec (.positionStep d c) s = .next (stepArrives (waitClock { s with msgs := rest } due) d c z) := by
  change execPositionStep d c s = _
  unfold execPositionStep
  rw [takeMsg_head hm rfl (by simp)]

/-- An event that a context latches. -/
theorem rb_ctxEvt (hk : k < 256) {i : Nat} (hi : i < 24) : rb (ctxEvt s d k i) (pgCtx d) (Off.CTX_EVT + 4 * k) i = true := by
  unfold ctxEvt
  extract_lets off s1
  have h1 : rb s1 (pgCtx d) (Off.CTX_EVT + 4 * k) i = true := by
    change bit (rd (wr s (pgCtx d) off (rd s (pgCtx d) off ||| bitw i)) (pgCtx d) off) i = true
    rw [rd_wr_same]
    exact bit_or_bitw _ _ hi
  exact ((CtxKept.refl (M := fun _ _ => True) (h := True) s1).whenDo _ ((CtxKept.refl s1).setDyn ..)).evts d k i hk h1

/-- What a context that a step reaches does after its count and event. -/
def stepPolicy (s : State) (d k : Nat) (z : Int) : State :=
  if !bit (aw s d k 50) 0 && (decide (af s d k 50 8 16 = 0) || decide (z.natAbs ≤ af s d k 50 8 16)) then shiftOrigin s d k z
  else policyPause s d k 5 true

theorem stepAt_eq (z : Int) : stepAt s d k z = stepPolicy (ctxEvt (setCtx s d k { ctx s d k with cntStep := inc12 (ctx s d k).cntStep }) d k 11) d k z := rfl

theorem CtxKept.stepPolicy (z : Int) (hk : k < 256) : CtxKept (fun _ _ => True) True s (Machine.stepPolicy s d k z) := by
  unfold Machine.stepPolicy
  split
  · exact (CtxKept.refl s).shiftOrigin d k z trivial
  · exact (CtxKept.refl s).policyPause d k 5 true trivial hk fun _ _ => trivial

/-- A step counts in the context that it reaches, and in no other. -/
theorem cntStep_stepAt (z : Int) (hk : k < 256) (j : Nat) :
    (ctx (stepAt s d k z) d j).cntStep = if j = k then inc12 (ctx s d j).cntStep else (ctx s d j).cntStep := by
  rw [stepAt_eq]
  generalize hu : setCtx s d k { ctx s d k with cntStep := inc12 (ctx s d k).cntStep } = u
  have hkept := ((CtxKept.refl u).ctxEvt d k 11).trans (CtxKept.stepPolicy (d := d) (k := k) z hk)
  refine (congrArg Prod.snd (hkept.marks d j)).trans ?_
  rw [ctxMarks, ← hu]
  split
  next hj => rw [hj, ctx_setCtx]
  next hj => rw [ctx_setCtx_other _ _ _ _ _ _ (by simpa using fun q => hj q.symm)]

/-- The event of a step is latched in the context that it reaches, and stays in others. -/
theorem evt_stepAt (z : Int) (hk : k < 256) {j : Nat} (hj : j < 256) (h : j = k ∨ rb s (pgCtx d) (Off.CTX_EVT + 4 * j) 11 = true) :
    rb (stepAt s d k z) (pgCtx d) (Off.CTX_EVT + 4 * j) 11 = true := by
  rw [stepAt_eq]
  refine (CtxKept.stepPolicy z hk).evts d j 11 hj ?_
  obtain rfl | h := h
  · exact rb_ctxEvt hj (by decide)
  · exact ((CtxKept.refl (M := fun _ _ => True) (h := True) _).ctxEvt d k 11).evts d j 11 hj h

theorem stepArrives_spec (z : Int) : (stepArrives s d c z).msgs = s.msgs ∧ (stepArrives s d c z).clock = s.clock ∧
    ∀ k ∈ boundTo s d c, (ctx (stepArrives s d c z) d k).cntStep = inc12 (ctx s d k).cntStep ∧
      rb (stepArrives s d c z) (pgCtx d) (Off.CTX_EVT + 4 * k) 11 = true := by
  have hv : (fun u : State => (u.msgs, u.clock)) (stepArrives s d c z) = (s.msgs, s.clock) := by
    apply stepArrives_inv (φ := fun u : State => (u.msgs, u.clock)) (hU := rfl) <;> exact fun _ _ => rfl
  obtain ⟨hmsgs, hclock⟩ := Prod.mk.inj hv
  refine ⟨hmsgs, hclock, fun k hk => ?_⟩
  have hk' := lt_of_mem_boundTo hk
  unfold stepArrives
  extract_lets x y s1
  have hb : boundTo s1 d c = boundTo s d c := boundTo_congr rfl rfl
  have hx : ctx s1 d k = ctx s d k := rfl
  rw [hb, ← hx]
  clear_value s1
  refine each_once_mem (P := fun t => (ctx t d k).cntStep = (ctx s1 d k).cntStep)
    (Q := fun t => (ctx t d k).cntStep = inc12 (ctx s1 d k).cntStep ∧ rb t (pgCtx d) (Off.CTX_EVT + 4 * k) 11 = true)
    hk nodup_boundTo rfl (fun t y hm hy ht => ?_) (fun t ht => ⟨?_, evt_stepAt z hk' hk' (.inl rfl)⟩)
    fun t y hm hy ht => ⟨?_, evt_stepAt z (lt_of_mem_boundTo hm) hk' (.inr ht.2)⟩
  · rw [cntStep_stepAt z (lt_of_mem_boundTo hm), if_neg (Ne.symm hy), ht]
  · rw [cntStep_stepAt z hk', if_pos rfl, ht]
  · rw [cntStep_stepAt z (lt_of_mem_boundTo hm), if_neg (Ne.symm hy), ht.1]

/-! SOURCE_LOST. -/

theorem exec_sourceLost {due : Nat} {rest : List Msg} (hm : s.msgs = ⟨d, c, due, .lost⟩ :: rest) :
    exec (.sourceLost d c) s = .next (lostArrives (waitClock { s with msgs := rest } due) d c) := by
  change execSourceLost d c s = _
  unfold execSourceLost
  rw [takeMsg_head hm rfl (by simp)]

/-- A context with the mark of a lost source. -/
def markLost (d : Nat) (s : State) (k : Nat) : State := setCtx s d k { ctx s d k with lost := true }

/-- The loss of its source at one context. -/
def lostAt (d : Nat) (s : State) (k : Nat) : State :=
  let s3 := ctxEvt (markLost d s k) d k 12
  if (ctx s3 d k).st = .printing ∨ (ctx s3 d k).st = .draining then withdrawAll s3 d k fun c => !c.frozen else s3

theorem lostArrives_eq : lostArrives s d c =
    (let s1 := setEnc s d c { enc s d c with jet := { (enc s d c).jet with valid := false } }
     each ((boundTo s1 d c).filter fun k => decide ((ctx s1 d k).st = .printing) || decide ((ctx s1 d k).st = .draining))
       (each (boundTo s1 d c) s1 (lostAt d)) fun s k => lostPolicy s d c k) := rfl

/-- A loss withdraws lines of the marked context after its event. -/
theorem withdrawn_lostAt : CtxKept (fun _ _ => True) True (ctxEvt (markLost d s k) d k 12) (lostAt d s k) := by
  unfold lostAt
  dsimp only
  split
  · exact (CtxKept.refl _).withdrawAll ..
  · exact .refl _

/-- The loss of a source marks the context that it reaches, and the mark of others stays. -/
theorem lost_lostAt {j : Nat} (h : j = k ∨ (ctx s d j).lost = true) : (ctx (lostAt d s k) d j).lost = true := by
  have hkept := ((CtxKept.refl (M := fun _ _ => True) (h := True) _).ctxEvt d k 12).trans (withdrawn_lostAt (s := s) (d := d) (k := k))
  refine (congrArg Prod.fst (hkept.marks d j)).trans ?_
  rw [ctxMarks, markLost]
  by_cases hj : j = k
  · rw [hj, ctx_setCtx]
  · rw [ctx_setCtx_other _ _ _ _ _ _ (by simpa using fun q => hj q.symm)]
    exact h.resolve_left hj

/-- Its event is latched in that context, and stays in others. -/
theorem evt_lostAt {j : Nat} (hj : j < 256) (h : j = k ∨ rb s (pgCtx d) (Off.CTX_EVT + 4 * j) 12 = true) :
    rb (lostAt d s k) (pgCtx d) (Off.CTX_EVT + 4 * j) 12 = true := by
  refine withdrawn_lostAt.evts d j 12 hj ?_
  obtain rfl | h := h
  · exact rb_ctxEvt hj (by decide)
  · exact ((CtxKept.refl (M := fun _ _ => True) (h := True) _).ctxEvt d k 12).evts d j 12 hj h

theorem lostArrives_spec : (lostArrives s d c).msgs = s.msgs ∧ (enc (lostArrives s d c) d c).jet.valid = false ∧
    ∀ k ∈ boundTo s d c, (ctx (lostArrives s d c) d k).lost = true ∧
      rb (lostArrives s d c) (pgCtx d) (Off.CTX_EVT + 4 * k) 12 = true := by
  rw [lostArrives_eq]
  extract_lets x y s1
  have hb : boundTo s1 d c = boundTo s d c := boundTo_congr rfl rfl
  have hjet : (enc s1 d c).jet.valid = false := by
    unfold s1
    rw [enc_setEnc]
  have hmsgs : s1.msgs = s.msgs := rfl
  rw [hb, ← hmsgs]
  clear_value s1
  have hlost (u : State) (k : Nat) : arriving (lostPolicy u d c k) = arriving u := by
    apply lostPolicy_inv (φ := arriving) (hU := rfl) <;> exact fun _ _ => rfl
  have hmark (u : State) (k : Nat) : arriving (lostAt d u k) = arriving u := by
    unfold lostAt
    have hu : arriving (ctxEvt (markLost d u k) d k 12) = arriving u := by
      apply ctxEvt_inv (φ := arriving) (hU := rfl) <;> exact fun _ _ => rfl
    dsimp only
    split
    · refine Eq.trans ?_ hu
      apply withdrawAll_inv (φ := arriving) (hU := rfl) <;> exact fun _ _ => rfl
    · exact hu
  generalize hks : boundTo s d c = ks
  generalize hs2 : each ks s1 (lostAt d) = s2
  have h2 : arriving s2 = arriving s1 :=
    hs2 ▸ each_pres (P := fun t => arriving t = arriving s1) rfl fun t k _ ht => (hmark t k).trans ht
  generalize (fun k => decide ((ctx s1 d k).st = .printing) || decide ((ctx s1 d k).st = .draining)) = f
  have h3 : arriving (each (ks.filter f) s2 fun s k => lostPolicy s d c k) = arriving s1 :=
    each_pres (P := fun t => arriving t = arriving s1) h2 fun t k _ ht => (hlost t k).trans ht
  have hkept : CtxKept (fun _ _ => True) True s2 (each (ks.filter f) s2 fun s k => lostPolicy s d c k) :=
    each_pres (.refl s2) fun t k hk ht =>
      ht.lostPolicy d c k trivial (lt_of_mem_boundTo (hks ▸ (List.mem_filter.1 hk).1)) fun _ _ => trivial
  obtain ⟨hm3, -, he3⟩ : _ = _ ∧ _ = _ ∧ _ = _ := by simpa only [arriving, Prod.mk.injEq] using h3
  refine ⟨hm3, ?_, fun k hk => ?_⟩
  · rw [enc, he3, ← enc, hjet]
  · have hk' : k < 256 := lt_of_mem_boundTo (hks ▸ hk)
    have hq : (ctx s2 d k).lost = true ∧ rb s2 (pgCtx d) (Off.CTX_EVT + 4 * k) 12 = true := by
      rw [← hs2]
      exact each_once (P := fun _ => True) (Q := fun t => (ctx t d k).lost = true ∧ rb t (pgCtx d) (Off.CTX_EVT + 4 * k) 12 = true)
        hk (hks ▸ nodup_boundTo) trivial (fun _ _ _ _ => trivial) (fun _ _ => ⟨lost_lostAt (.inl rfl), evt_lostAt hk' (.inl rfl)⟩)
        fun _ _ _ ht => ⟨lost_lostAt (.inr ht.1), evt_lostAt hk' (.inr ht.2)⟩
    exact ⟨(congrArg Prod.fst (hkept.marks d k)).trans hq.1, hkept.evts d k 12 hk' hq.2⟩

end

end Sys2Proof.Machine

namespace Sys2Proof.Machine
open Sys2Proof.Laws

/-! ### A group of one context, product-detect edges, and hand-overs (R119, R120, R124, R130) -/

section
variable {s t : State} {d c k : Nat}

/-- A context alone in its group moves alone. -/
theorem movers_alone (hm : members s d (cPort s d k) (cFg s d k) = [k]) : movers s d k = [k] := by
  unfold movers
  split
  · rw [hm]
    exact List.filter_cons_of_pos (by simp)
  · rfl

/-- A context alone in its group that enters a state moves, and nothing else. -/
theorem ctxMove_alone (he : s.ecc = []) (hk : k < 256) (hm : members s d (cPort s d k) (cFg s d k) = [k]) {st : CState} (cause : Nat)
    (hne : (ctx s d k).st ≠ st) : ctxMove s d k st cause = ctxEnter s d k st cause := by
  have hst := (ctxEnter_enters he hk cause hne).1
  unfold ctxMove
  extract_lets ms rj s1
  have hms : ms = [k] := movers_alone hm
  have h1 : s1 = ctxEnter s d k st cause := by
    change each ms s _ = _
    rw [hms]
    exact congrArg (ctxEnter s d k st) (if_pos rfl)
  have hrj : ∀ m ∈ rj, m = k := by
    intro m hmem
    unfold rj at hmem
    split at hmem
    · rw [hm] at hmem
      exact List.mem_singleton.1 (List.mem_filter.1 hmem).1
    · cases hmem
  rw [h1]
  split
  · refine each_pres (P := fun u => u = ctxEnter s d k st cause) rfl fun u m hmem hu => ?_
    rw [hu, hrj m hmem]
    exact if_pos hst
  · rfl

/-! PD_EDGE_ARRIVAL. -/

theorem exec_pdEdgeArrival {n ch due stamp acc : Nat} {pos : Int} {rest : List Msg}
    (hm : s.msgs = ⟨d, ch, due, .pdEdge n stamp acc pos⟩ :: rest) :
    exec (.pdEdgeArrival d n) s = .next (
      let s1 := waitClock { s with msgs := rest } due
      each ((List.range (nCtx s1)).filter (bound s1 d)) s1 fun s k => pdAt s d n stamp acc k) := by
  change execPdEdgeArrival d n s = _
  unfold execPdEdgeArrival
  rw [takeMsg_head hm rfl (by simp)]

/-- An edge that a context waits for starts it. -/
theorem st_pdAt (he : s.ecc = []) (hk : k < 256) (hm : members s d (cPort s d k) (cFg s d k) = [k]) (hst : (ctx s d k).st = .armed)
    (ht : cTiming s d k = true) (hpd : cStartPd s d k = true) {n stamp acc : Nat} (hn : cPd s d k = n) (hl : (ctx s d k).lost = false)
    (hfrom : (ctx s d k).pdFrom ≤ acc) (hr : rateOk s d (cRate s d k) = true) : (ctx (pdAt s d n stamp acc k) d k).st = .printing := by
  have hl' : ¬(ctx s d k).lost = true := by rw [hl]; decide
  unfold pdAt
  extract_lets x
  rw [if_pos ⟨hst, ht, hpd, hn, hl', hfrom⟩, if_pos hr]
  generalize extrapolate s (estOf s d k) stamp = ref
  have hne : (ctx s d k).st ≠ .printing := by rw [hst]; decide
  unfold startGroup
  rw [ctxMove_alone he hk hm 0 hne]
  have hst1 := (ctxEnter_enters he hk 0 hne).1
  generalize ctxEnter s d k .printing 0 = u at hst1
  rw [rePredict, ctx_setCtx, ctx_setCtx]
  exact hst1

/-- Waiting leaves the poison of memory. -/
@[simp] theorem waitClock_ecc (n : Nat) : (waitClock s n).ecc = s.ecc := by
  apply waitClock_inv (φ := State.ecc) (hU := rfl) <;> exact fun _ _ => rfl

/-- The groups of contexts depend on the contexts and the tier. -/
theorem members_congr (hc : t.ctxs = s.ctxs) (hp : t.part = s.part) (p g : Nat) : members t d p g = members s d p g := by
  have hn : nCtx t = nCtx s := by rw [nCtx, hp, ← nCtx]
  have hx (j : Nat) : ctx t d j = ctx s d j := by rw [ctx, hc, ← ctx]
  have hl (j w lo n : Nat) : lf t d j w lo n = lf s d j w lo n := by rw [lf, lw, hx, ← lw, ← lf]
  rw [members, hn]
  refine List.filter_congr fun j _ => ?_
  have hb : bound t d j = bound s d j := by rw [bound, hx, ← bound]
  have hport : cPort t d j = cPort s d j := hl ..
  have hfg : cFg t d j = cFg s d j := hl ..
  rw [hb, hport, hfg]

/-- An edge at the bound contexts of a die starts the one that there is. -/
theorem st_pdEdges (he : s.ecc = []) (hkn : k < nCtx s) (hb : bound s d k = true)
    (hm : members s d (cPort s d k) (cFg s d k) = [k]) (hone : ∀ j, bound s d j = true → j = k) (hst : (ctx s d k).st = .armed)
    (ht : cTiming s d k = true) (hpd : cStartPd s d k = true) {n stamp acc : Nat} (hn : cPd s d k = n) (hl : (ctx s d k).lost = false)
    (hfrom : (ctx s d k).pdFrom ≤ acc) (hr : rateOk s d (cRate s d k) = true) :
    (ctx (each ((List.range (nCtx s)).filter (bound s d)) s fun s k => pdAt s d n stamp acc k) d k).st = .printing := by
  have hmem : k ∈ (List.range (nCtx s)).filter (bound s d) := List.mem_filter.2 ⟨List.mem_range.2 hkn, hb⟩
  refine each_once_mem (P := fun t => t = s) (Q := fun t => (ctx t d k).st = .printing) hmem (List.nodup_range.filter _) rfl
    (fun t y hy hne _ => absurd (hone y (List.mem_filter.1 hy).2) hne) (fun t hs => ?_)
    fun t y hy hne _ => absurd (hone y (List.mem_filter.1 hy).2) hne
  rw [hs]
  exact st_pdAt he (hkn.trans_le (nCtx_le s)) hm hst ht hpd hn hl hfrom hr

/-- The messages that are left when a product-detect edge has been taken. -/
theorem msgs_pdEdges (l : List Nat) (n stamp acc : Nat) : (each l s fun s k => pdAt s d n stamp acc k).msgs = s.msgs := by
  refine each_pres (P := fun t => t.msgs = s.msgs) rfl fun t k _ ht => Eq.trans ?_ ht
  apply pdAt_inv (φ := State.msgs) (hU := rfl) <;> exact fun _ _ => rfl

/-! CTX_COMMIT_GO and CTX_HAND_OVER. -/

/-- A taken write of GO, to a context of the tier. -/
theorem ctxCommitWrite_go {r : Req} {v : Word} (hk : k < nCtx s) (hv : bit v 0 = true) :
    ctxGo (ctxCommitWrite r d k v s) d k = true ∧ (ctxCommitWrite r d k v s).ctxs = s.ctxs := by
  refine ⟨?_, ?_⟩
  · unfold ctxCommitWrite
    extract_lets p off b go s1 s2
    rw [if_neg (not_le.2 hk), hv, Bool.true_and]
    cases hgo : ctxGo s2 d k
    · exact rb_wb_same _ (pgCtx d) (commitOff k) 0 true (by decide)
    · exact hgo
  · apply ctxCommitWrite_inv (φ := State.ctxs) (hU := rfl) <;> exact fun _ _ => rfl

theorem exec_ctxCommitGo {r : Req} {v : Word} (hk : k < nCtx s) (htaken : Taken s r (pgCtx d) (commitOff k)) :
    exec (.ctxCommitGo r d k v) s = .next (ctxCommitWrite ⟨clsOn r (pgCtx d), r.rid⟩ d k v (touchSession s r (pgCtx d))) :=
  congrArg Host.Outcome.next ((if_pos (hk.trans_le (nCtx_le s))).trans (guardedWrite_of_taken htaken _))

theorem exec_ctxHandOver (hd : d < s.part.dies) (hk : k < nCtx s) (hgo : ctxGo s d k = true) (hfree : handOverFree s d k = true) :
    exec (.ctxHandOver d k) s = .next (ctxHandOver (waitClock s (goAt s (pgCtx d) (commitOff k) + 1)) d k) :=
  congrArg Host.Outcome.next (if_pos ⟨hd, hk, hgo, hfree⟩)

/-- The words that a hand-over makes active, from the shadow copy and the active one. -/
def handedWords (s : State) (d k : Nat) : Tbl Nat Word :=
  (((List.range 56).map fun i => rawWord s (wordAddr d true (64 * k + i))).zipIdx).map fun x =>
    (x.2, descWord x.2 (aw s d k x.2) x.1)

/-- The table of what becomes of the items of a numbered list. -/
theorem Tbl.get_zipIdx_map {α β : Type} (F : Nat → α → β) (l : List α) (n i : Nat) (v : β) {x : α} (hx : l[i]? = some x) :
    Tbl.get ((l.zipIdx n).map fun x => (x.2, F x.2 x.1)) (n + i) v = F (n + i) x := by
  induction l generalizing n i with
  | nil => simp at hx
  | cons y r ih =>
    cases i with
    | zero =>
      obtain rfl : y = x := by simpa using hx
      simp [Tbl.get]
    | succ i => simpa [Tbl.get, Nat.add_assoc, Nat.add_comm 1] using ih (n + 1) i (by simpa using hx)

theorem get_handedWords {w : Nat} (hw : w < 56) :
    Tbl.get (handedWords s d k) w 0#24 = descWord w (aw s d k w) (rawWord s (wordAddr d true (64 * k + w))) := by
  have hx : ((List.range 56).map fun i => rawWord s (wordAddr d true (64 * k + i)))[w]? = some (rawWord s (wordAddr d true (64 * k + w))) := by
    simp [hw]
  have h := Tbl.get_zipIdx_map (fun i v => descWord i (aw s d k i) v) _ 0 w 0#24 hx
  rwa [Nat.zero_add] at h

/-- The context with the words that a hand-over makes active, and its commit word. -/
def handedState (s : State) (d k : Nat) : State :=
  let s2 := setCtx s d k { ctx s d k with act := handedWords s d k }
  let c := rd s2 (pgCtx d) (commitOff k)
  wr s2 (pgCtx d) (commitOff k) (setFld (setFld c 0 1 0) 8 8 (fld c 8 8 + 1))

/-- A hand-over, no word of memory poisoned. -/
theorem ctxHandOver_eq (he : s.ecc = []) : ctxHandOver s d k =
    (let s4 := stallFollow (checkDescr (ctxDiff (ctxEvt (handedState s d k) d k 7) d k) d k) d k
     if bound s4 d k && decide (af s4 d k 41 0 21 ≠ af s d k 41 0 21) then staleMeas (mapReload s4 d k) d k else s4) := by
  have hr : ctxRead s d k true (64 * k) 56 = ((List.range 56).map fun i => rawWord s (wordAddr d true (64 * k + i)), false, s) := by
    unfold ctxRead
    rw [readWords_good he]
    rfl
  unfold ctxHandOver
  rw [hr]
  rfl

/-- What a hand-over leaves of the words, the commit word and the events. -/
theorem ctxHandOver_kept (he : s.ecc = []) : CtxKept (fun _ _ => False) False (ctxEvt (handedState s d k) d k 7) (ctxHandOver s d k) := by
  rw [ctxHandOver_eq he]
  extract_lets s4
  have h4 : CtxKept (fun _ _ => False) False (ctxEvt (handedState s d k) d k 7) s4 :=
    (((CtxKept.refl _).ctxDiff d k).checkDescr d k).stallFollow d k
  split
  · exact (h4.mapReload d k).staleMeas d k
  · exact h4

/-- A hand-over clears GO, counts, latches its event and makes the words active. -/
theorem ctxHandOver_spec (he : s.ecc = []) (hk : k < 256) : ctxGo (ctxHandOver s d k) d k = false ∧
    rf (ctxHandOver s d k) (pgCtx d) (commitOff k) 8 8 = (rf s (pgCtx d) (commitOff k) 8 8 + 1) % 256 ∧
    rb (ctxHandOver s d k) (pgCtx d) (Off.CTX_EVT + 4 * k) 7 = true ∧ (ctxHandOver s d k).clock = s.clock ∧
    ∀ w < 56, aw (ctxHandOver s d k) d k w = descWord w (aw s d k w) (rawWord s (wordAddr d true (64 * k + w))) := by
  have h1 : CtxKept (fun _ _ => False) False (handedState s d k) (ctxHandOver s d k) :=
    ((CtxKept.refl _).ctxEvt d k 7).trans (ctxHandOver_kept he)
  have hcommit : rd (ctxHandOver s d k) (pgCtx d) (commitOff k) =
      setFld (setFld (rd s (pgCtx d) (commitOff k)) 0 1 0) 8 8 (rf s (pgCtx d) (commitOff k) 8 8 + 1) := by
    rw [h1.commit not_false d k hk]
    exact rd_wr_same ..
  refine ⟨?_, ?_, (ctxHandOver_kept he).evts d k 7 hk (rb_ctxEvt hk (by decide)), ?_, fun w hw => ?_⟩
  · rw [ctxGo, rb, hcommit, bit_setFld_apart _ _ _ _ _ (by decide)]
    exact bit_setBit _ 0 false (by decide)
  · rw [rf, hcommit]
    exact fld_setFld _ 8 8 _ (by decide)
  · apply ctxHandOver_inv (φ := State.clock) (hU := rfl) <;> exact fun _ _ => rfl
  · have hctx : ctx (handedState s d k) d k = { ctx s d k with act := handedWords s d k } := ctx_setCtx ..
    rw [aw, h1.words not_false d k, hctx]
    exact get_handedWords hw

end

end Sys2Proof.Machine

namespace Sys2Proof.Machine
open Sys2Proof.Laws

/-! ### Draining, stalling and rejoining (R126, R127, R138) -/

section
variable {s t : State} {d k : Nat}

/-! DRAIN_COMPLETE. -/

/-- The member of a group of one is of the tier, bound, and its own timing context. -/
theorem alone_facts (hm : members s d (cPort s d k) (cFg s d k) = [k]) (ht : cTiming s d k = true) : bound s d k = true ∧ leader s d k = k := by
  refine ⟨?_, ?_⟩
  · have hmem : k ∈ members s d (cPort s d k) (cFg s d k) := hm ▸ List.mem_singleton_self k
    rw [members, List.mem_filter, Bool.and_eq_true, Bool.and_eq_true] at hmem
    exact hmem.2.1.1
  · rw [leader, timingOf, hm, List.find?_cons_of_pos ht, Option.getD_some]

theorem exec_drainComplete (hd : d < s.part.dies) (hk : k < nCtx s) (hb : bound s d k = true) :
    exec (.drainComplete d k) s = .next (drainEnd s d k) :=
  congrArg Host.Outcome.next (if_pos ⟨hd, hk, hb⟩)

/-- A group of one that drains, with no cycle open, ends. -/
theorem drainEnd_alone (he : s.ecc = []) (hk : k < 256) (hst : (ctx s d k).st = .draining) (ht : cTiming s d k = true)
    (hm : members s d (cPort s d k) (cFg s d k) = [k]) (ho : groupOpen s d (cPort s d k) (cFg s d k) = false) :
    drainEnd s d k = ctxEnter s d k .idle (ctx s d k).drainCause := by
  have hl := (alone_facts hm ht).2
  unfold drainEnd
  rw [hl]
  extract_lets l
  rw [ho, if_neg Bool.false_ne_true, if_pos hst]
  exact ctxMove_alone he hk hm _ (by rw [hst]; decide)

/-! STALL. -/

theorem exec_stall (hd : d < s.part.dies) (hk : k < nCtx s) (hon : stallOn s d k = true) :
    exec (.stall d k) s = .next (stallNow (waitClock s (s.clock + (stallTmo s d k - stallTime s d k))) d k) :=
  if_pos ⟨hd, hk, hon⟩

/-- A member of a group moves once. -/
theorem nodup_movers : (movers s d k).Nodup := by
  unfold movers
  split
  · exact (List.nodup_range.filter _).filter _
  · exact List.nodup_singleton k

/-- A context moves with itself. -/
theorem mem_movers (hk : k < nCtx s) : k ∈ movers s d k := by
  unfold movers
  split
  next hb =>
    refine List.mem_filter.2 ⟨List.mem_filter.2 ⟨List.mem_range.2 hk, ?_⟩, by simp⟩
    simp [hb]
  next => exact List.mem_singleton_self k

/-- A printing context that moves to PAUSED is paused with the cause, whichever members move with it. -/
theorem ctxMove_paused (he : s.ecc = []) (hk : k < nCtx s) (hst : (ctx s d k).st = .printing) (cause : Nat) :
    (ctx (ctxMove s d k .paused cause) d k).st = .paused ∧ (ctx (ctxMove s d k .paused cause) d k).cause = cause := by
  have hk' : k < 256 := hk.trans_le (nCtx_le s)
  unfold ctxMove
  extract_lets ms rj s1
  rw [if_neg (by decide)]
  have hkept (u : State) (m : Nat) (hm : m ∈ ms) :
      CtxKept (fun _ j => j = m) True u (ctxEnter u d m .paused (if m = k then cause else 7)) :=
    (CtxKept.refl u).ctxEnter d m _ _ trivial (lt_of_mem_movers hk' hm) rfl
  refine (each_once_mem (P := fun u => u.ecc = [] ∧ (ctx u d k).st = .printing)
    (Q := fun u => u.ecc = [] ∧ (ctx u d k).st = .paused ∧ (ctx u d k).cause = cause) (mem_movers hk) nodup_movers ⟨he, hst⟩
    (fun u m hm hne hu => ?_) (fun u hu => ?_) fun u m hm hne hu => ?_).2
  · obtain ⟨hst', -, -⟩ := (hkept u m hm).stands hu.1 (e := d) (Ne.symm hne)
    exact ⟨(hkept u m hm).ecc hu.1, hst'.trans hu.2⟩
  · rw [if_pos rfl]
    obtain ⟨hst', hcause⟩ := ctxEnter_enters hu.1 hk' cause (st := .paused) (by rw [hu.2]; decide)
    exact ⟨((CtxKept.refl (M := fun _ _ => True) (h := True) u).ctxEnter d k _ _ trivial hk' trivial).ecc hu.1, hst', hcause (.inl rfl)⟩
  · obtain ⟨hst', hcause', -⟩ := (hkept u m hm).stands hu.1 (e := d) (Ne.symm hne)
    exact ⟨(hkept u m hm).ecc hu.1, hst'.trans hu.2.1, hcause'.trans hu.2.2⟩

/-- A printing context that is fenced is FENCED with the cause. -/
theorem ctxFence_fences (he : s.ecc = []) (hst : (ctx s d k).st = .printing) (cause : Nat) :
    (ctx (ctxFence s d k cause) d k).st = .fenced ∧ (ctx (ctxFence s d k cause) d k).cause = cause := by
  unfold ctxFence
  extract_lets x s1 y s2
  have hne : ¬(x.st = .fenced ∧ ¬x.rejoin) := fun q => by
    have h := hst.symm.trans q.1
    exact absurd h (by decide)
  rw [if_neg hne]
  have he1 : s1.ecc = [] := ((CtxKept.refl (M := fun _ _ => False) (h := True) s).withdrawAll d k _).ecc he
  have h2 : CtxKept (fun _ _ => False) True _ s2 := (CtxKept.refl _).stallFollow d k
  have h3 := ((((h2.ctxEvt d k 6).dropMoved d k).staleMeas d k).sweepBreak d fun j => decide (j = k)).seamUpdate d k
  obtain ⟨hst', hcause, -⟩ := h3.stands he1 (e := d) (j := k) not_false
  rw [ctx_setCtx] at hst' hcause
  exact ⟨hst', hcause⟩

/-- The timer of a context begins again, with its event and record. -/
def stalled (s : State) (d k : Nat) : State :=
  let s0 := setCtx s d k { ctx s d k with stallAcc := 0, stallAt := s.clock }
  stallRecord (ctxEvt s0 d k 9) d k (decide (af s d k 48 4 2 = 1))

theorem stallNow_eq : stallNow s d k =
    if decide (af s d k 48 4 2 = 1) then ctxFence (stalled s d k) d k 3 else ctxMove (stalled s d k) d k .paused 3 := rfl

/-- A stall latches its event and pauses or fences the context. -/
theorem stallNow_spec (he : s.ecc = []) (hk : k < nCtx s) (hst : (ctx s d k).st = .printing) :
    rb (stallNow s d k) (pgCtx d) (Off.CTX_EVT + 4 * k) 9 = true ∧ (ctx (stallNow s d k) d k).cause = 3 ∧
    (af s d k 48 4 2 ≠ 1 → (ctx (stallNow s d k) d k).st = .paused) ∧ (af s d k 48 4 2 = 1 → (ctx (stallNow s d k) d k).st = .fenced) := by
  have hk' : k < 256 := hk.trans_le (nCtx_le s)
  have h0 : CtxKept (fun _ _ => False) True s (stalled s d k) := by
    refine CtxKept.stallRecord (CtxKept.ctxEvt ((CtxKept.refl s).setCtx' d k _ ?_) d k 9) d k _
    rfl
  have hev : rb (stalled s d k) (pgCtx d) (Off.CTX_EVT + 4 * k) 9 = true :=
    ((CtxKept.refl (M := fun _ _ => True) (h := True) _).stallRecord d k _).evts d k 9 hk' (rb_ctxEvt hk' (by decide))
  have hnc : nCtx (stalled s d k) = nCtx s := by
    have hp : (stalled s d k).part = s.part := by
      have hevt : (ctxEvt (setCtx s d k { ctx s d k with stallAcc := 0, stallAt := s.clock }) d k 9).part = s.part := by
        apply ctxEvt_inv (φ := State.part) (hU := rfl) <;> exact fun _ _ => rfl
      refine Eq.trans ?_ hevt
      apply stallRecord_inv (φ := State.part) (hU := rfl) <;> exact fun _ _ => rfl
    rw [nCtx, hp, ← nCtx]
  have he0 := h0.ecc he
  have hst0 := (h0.stands he (e := d) (j := k) not_false).1.trans hst
  rw [stallNow_eq]
  by_cases hf : af s d k 48 4 2 = 1
  · rw [decide_eq_true hf, if_pos rfl]
    obtain ⟨hfst, hcause⟩ := ctxFence_fences he0 hst0 3
    exact ⟨((CtxKept.refl (M := fun _ _ => True) (h := True) _).ctxFence d k 3 trivial).evts d k 9 hk' hev, hcause,
      fun hn => absurd hf hn, fun _ => hfst⟩
  · rw [decide_eq_false hf, if_neg Bool.false_ne_true]
    obtain ⟨hpst, hcause⟩ := ctxMove_paused he0 (hnc ▸ hk) hst0 3
    exact ⟨((CtxKept.refl (M := fun _ _ => True) (h := True) _).ctxMove d k _ 3 trivial hk' fun _ _ => trivial).evts d k 9 hk' hev, hcause,
      fun _ => hpst, fun hq => absurd hq hf⟩

/-! FOLLOWER_REJOIN. -/

theorem exec_followerRejoin {l : Nat} (hd : d < s.part.dies) (hk : k < nCtx s) (hr : (ctx s d k).rejoin = true)
    (ht : timingOf s d (cPort s d k) (cFg s d k) = some l) (hst : (ctx s d l).st = .paused ∨ (ctx s d l).st = .draining) :
    exec (.followerRejoin d k) s = .next (rejoinNow s d l k) := by
  change execFollowerRejoin d k s = _
  unfold execFollowerRejoin
  rw [if_pos ⟨hd, hk, hr⟩, ht]
  obtain hst | hst := hst <;> simp only [hst]

/-- Lines skipped by a context that takes no blocks, no word of memory poisoned. -/
theorem skipTo_kept (he : s.ecc = []) (n : Nat) (ht : takesBlocks s d k = false) : CtxKept (fun _ _ => False) True s (skipTo s d k n) := by
  unfold skipTo
  extract_lets x c ahead s1 s2
  have h1 : CtxKept (fun _ _ => False) True s s1 := (CtxKept.refl s).setCtx' _ _ _ rfl
  have h2 : CtxKept (fun _ _ => False) True s s2 := by
    unfold s2
    split
    · exact h1
    · exact h1.ctxEvt ..
  have h3 := h2.freeLines d k fun l => decide (l.sw = x.swBuild) && lineOver s d k l.m (n + 2 ^ 24 - 1)
  have hst := (h3.stands he (e := d) (j := k) not_false).1
  exact h3.expandAll d k (by rwa [takesBlocks, hst, ← takesBlocks])

/-- A follower that rejoins takes the state of its timing context. -/
theorem rejoinNow_spec {l : Nat} (he : s.ecc = []) (hk : k < 256) (hst : (ctx s d l).st = .paused ∨ (ctx s d l).st = .draining) :
    (ctx (rejoinNow s d l k) d k).st = (ctx s d l).st ∧ (ctx (rejoinNow s d l k) d k).rejoin = false := by
  unfold rejoinNow
  extract_lets st x s1 s2
  have hctx : ctx s1 d k = _ := ctx_setCtx ..
  have h2 : CtxKept (fun _ _ => False) True s1 s2 := by
    unfold s2
    split
    · exact .refl _
    · exact (CtxKept.refl _).ctxEvt ..
  have h3 : CtxKept (fun _ _ => False) True s1 (if st = .paused then s2 else skipTo s2 d k (ctx s d l).next) := by
    split
    · exact h2
    next hp =>
      have he2 := h2.ecc he
      refine h2.trans (skipTo_kept he2 _ ?_)
      have hst2 : (ctx s2 d k).st = .draining := (h2.stands he (e := d) (j := k) not_false).1.trans (hctx ▸ hst.resolve_left hp)
      rw [takesBlocks, hst2]
  obtain ⟨hst', -, hrejoin⟩ := ((h3.tryHandOver d k trivial hk).seamUpdate d k).stands he (e := d) (j := k) not_false
  rw [hctx] at hst' hrejoin
  exact ⟨hst', hrejoin⟩

end

end Sys2Proof.Machine

namespace Sys2Proof.Machine
open Sys2Proof.Laws

/-! ### Messages to contexts, hand-overs, and the ends of draining and stalling (O24) -/

section
variable {s : State} {d c k due : Nat} {rest : List Msg}

/-- The state in which a message is taken: its arrival, and the contexts bound to a channel as they were. -/
theorem taken_message : (waitClock { s with msgs := rest } due).msgs = rest ∧
    (waitClock { s with msgs := rest } due).clock = max s.clock due ∧
    boundTo (waitClock { s with msgs := rest } due) d c = boundTo s d c := by
  have harr : arriving (waitClock { s with msgs := rest } due) = (rest, max s.clock due, s.encs) := arriving_waitClock due
  rw [arriving] at harr
  obtain ⟨hmsgs, hrest⟩ := Prod.mk.inj harr
  exact ⟨hmsgs, (Prod.mk.inj hrest).1, boundTo_congr (waitClock_ctxs due) (waitClock_part _ due)⟩

theorem completes_estimateArrival {e : Est} (hm : s.msgs = ⟨d, c, due, .estimate e⟩ :: rest) :
    Completes (.estimateArrival d c) s fun t => (enc t d c).jet = e ∧ t.msgs = rest ∧ due ≤ t.clock ∧
      (e.valid = true → ∀ k ∈ boundTo s d c, (ctx t d k).lost = false) := by
  refine .of (exec_estimateArrival hm) ?_
  obtain ⟨hmsgs, hclock, hb⟩ := taken_message (s := s) (d := d) (c := c) (rest := rest) (due := due)
  rw [← hb]
  generalize waitClock { s with msgs := rest } due = u at hmsgs hclock
  obtain ⟨hspec, hlost⟩ := estimateArrives_spec (s := u) (d := d) (c := c) e
  obtain ⟨hmt, hrest⟩ := Prod.mk.inj hspec
  obtain ⟨hct, het⟩ := Prod.mk.inj hrest
  refine ⟨?_, hmt.trans hmsgs, ?_, hlost⟩
  · rw [enc, het, ← enc, enc_setEnc]
  · exact (le_max_right _ _).trans_eq (hct.trans hclock).symm

theorem completes_positionStep {z : Int} {st : Nat} (hm : s.msgs = ⟨d, c, due, .step z st⟩ :: rest) :
    Completes (.positionStep d c) s fun t => t.msgs = rest ∧ due ≤ t.clock ∧
      ∀ k ∈ boundTo s d c, (ctx t d k).cntStep = inc12 (ctx s d k).cntStep ∧ rb t (pgCtx d) (Off.CTX_EVT + 4 * k) 11 = true := by
  refine .of (exec_positionStep hm) ?_
  obtain ⟨hmsgs, hclock, hb⟩ := taken_message (s := s) (d := d) (c := c) (rest := rest) (due := due)
  have hx (k : Nat) : ctx (waitClock { s with msgs := rest } due) d k = ctx s d k := by rw [ctx, waitClock_ctxs, ← ctx] <;> rfl
  simp only [← hb, ← hx]
  generalize waitClock { s with msgs := rest } due = u at hmsgs hclock
  obtain ⟨hmt, hct, hspec⟩ := stepArrives_spec (s := u) (d := d) (c := c) z
  exact ⟨hmt.trans hmsgs, (le_max_right _ _).trans_eq (hct.trans hclock).symm, hspec⟩

theorem completes_sourceLost (hm : s.msgs = ⟨d, c, due, .lost⟩ :: rest) :
    Completes (.sourceLost d c) s fun t => t.msgs = rest ∧ (enc t d c).jet.valid = false ∧
      ∀ k ∈ boundTo s d c, (ctx t d k).lost = true ∧ rb t (pgCtx d) (Off.CTX_EVT + 4 * k) 12 = true := by
  refine .of (exec_sourceLost hm) ?_
  obtain ⟨hmsgs, -, hb⟩ := taken_message (s := s) (d := d) (c := c) (rest := rest) (due := due)
  rw [← hb]
  generalize waitClock { s with msgs := rest } due = u at hmsgs
  obtain ⟨hmt, hspec⟩ := lostArrives_spec (s := u) (d := d) (c := c)
  exact ⟨hmt.trans hmsgs, hspec⟩

theorem completes_pdEdgeArrival {n stamp acc ch : Nat} {pos : Int} (hm : s.msgs = ⟨d, ch, due, .pdEdge n stamp acc pos⟩ :: rest)
    (he : s.ecc = []) (hb : boundTo s d (cSrc s d k) = [k]) (halone : members s d (cPort s d k) (cFg s d k) = [k])
    (hone : ∀ j, bound s d j = true → j = k) (hst : (ctx s d k).st = .armed) (ht : cTiming s d k = true) (hpd : cStartPd s d k = true)
    (hn : cPd s d k = n) (hl : (ctx s d k).lost = false) (hfrom : (ctx s d k).pdFrom ≤ acc) (hr : rateOk s d (cRate s d k) = true) :
    Completes (.pdEdgeArrival d n) s fun t => (ctx t d k).st = .printing ∧ t.msgs = rest := by
  refine .of (exec_pdEdgeArrival hm) ?_
  extract_lets u
  have hmsgs : u.msgs = rest := (taken_message (s := s) (d := d) (c := 0) (rest := rest) (due := due)).1
  have hc : u.ctxs = s.ctxs := waitClock_ctxs due
  have hp : u.part = s.part := waitClock_part _ due
  have hpk : u.pkg = s.pkg := waitClock_pkg _ due
  have heu : u.ecc = [] := (waitClock_ecc due).trans he
  have hmode (e : Nat) : rd u (pgMode e) Off.MODE_CUR = rd s (pgMode e) Off.MODE_CUR := rd_waitClock _ due (by decide)
  have hrate (r : Nat) : rateOk u d r = rateOk s d r := by
    have hm : modeOf u d = modeOf s d := by rw [modeOf, rf, hmode, ← rf, ← modeOf]
    have hi : inTransition u = inTransition s := by rw [inTransition, rb, hmode, ← rb, ← inTransition]
    rw [rateOk, hm, hi, hpk, ← rateOk]
  clear_value u
  have hx (j : Nat) : ctx u d j = ctx s d j := by rw [ctx, hc, ← ctx]
  have hw (w : Nat) : lw u d k w = lw s d k w := by rw [lw, hx, ← lw]
  have hbound (j : Nat) : bound u d j = bound s d j := by rw [bound, hx, ← bound]
  have hport : cPort u d k = cPort s d k := by rw [cPort, lf, hw, ← lf, ← cPort]
  have hfg : cFg u d k = cFg s d k := by rw [cFg, lf, hw, ← lf, ← cFg]
  have hcr : cRate u d k = cRate s d k := by rw [cRate, lf, hw, ← lf, ← cRate]
  have hmem : k ∈ boundTo s d (cSrc s d k) := hb ▸ List.mem_singleton_self k
  obtain ⟨hkn, hbk⟩ := List.mem_filter.1 hmem
  refine ⟨st_pdEdges heu ?_ ((hbound k).trans (Bool.and_eq_true _ _ |>.mp hbk).1) ?_ (fun j hj => hone j ((hbound j).symm.trans hj))
    (by rwa [hx]) (by rwa [cTiming, hw, ← cTiming]) (by rwa [cStartPd, hw, ← cStartPd]) (by rwa [cPd, lf, hw, ← lf, ← cPd])
    (by rwa [hx]) (by rwa [hx]) (by rwa [hrate, hcr]), (msgs_pdEdges _ n stamp acc).trans hmsgs⟩
  · rw [nCtx, hp, ← nCtx]
    exact List.mem_range.1 hkn
  · rw [members_congr hc hp, hport, hfg, halone]

theorem completes_ctxCommitGo {r : Req} {v : Word} (htaken : Taken s r (pgCtx d) (commitOff k)) (hk : k < nCtx s) (hv : bit v 0 = true) :
    Completes (.ctxCommitGo r d k v) s fun t => ctxGo t d k = true ∧ t.ctxs = s.ctxs := by
  refine .of (exec_ctxCommitGo hk htaken) ?_
  have hpart : (touchSession s r (pgCtx d)).part = s.part := touchSession_inv (φ := State.part) (fun _ _ => rfl) rfl
  have hctxs : (touchSession s r (pgCtx d)).ctxs = s.ctxs := touchSession_inv (φ := State.ctxs) (fun _ _ => rfl) rfl
  have hn : nCtx (touchSession s r (pgCtx d)) = nCtx s := by rw [nCtx, hpart, ← nCtx]
  obtain ⟨hgo, hsame⟩ := ctxCommitWrite_go (r := ⟨clsOn r (pgCtx d), r.rid⟩) (d := d) (hn ▸ hk) hv
  exact ⟨hgo, hsame.trans hctxs⟩

theorem completes_ctxHandOver (hd : d < s.part.dies) (hk : k < nCtx s) (he : s.ecc = []) (hgo : ctxGo s d k = true)
    (hfree : handOverFree s d k = true) :
    Completes (.ctxHandOver d k) s fun t => ctxGo t d k = false ∧
      rf t (pgCtx d) (commitOff k) 8 8 = (rf s (pgCtx d) (commitOff k) 8 8 + 1) % 256 ∧
      rb t (pgCtx d) (Off.CTX_EVT + 4 * k) 7 = true ∧ goAt s (pgCtx d) (commitOff k) < t.clock ∧
      ∀ w < 56, aw t d k w = descWord w (aw s d k w) (rawWord s (wordAddr d true (64 * k + w))) := by
  refine .of (exec_ctxHandOver hd hk hgo hfree) ?_
  generalize hn : goAt s (pgCtx d) (commitOff k) + 1 = n
  obtain ⟨h1, h2, h3, h4, h5⟩ := ctxHandOver_spec (d := d) (k := k) ((waitClock_ecc (s := s) n).trans he) (hk.trans_le (nCtx_le s))
  have hmem : (waitClock s n).mem = s.mem := by
    apply waitClock_inv (φ := State.mem) (hU := rfl) <;> exact fun _ _ => rfl
  have haw (w : Nat) : aw (waitClock s n) d k w = aw s d k w := by rw [aw, ctx, waitClock_ctxs, ← ctx, ← aw]
  have hraw (a : Nat) : rawWord (waitClock s n) a = rawWord s a := by rw [rawWord, hmem, ← rawWord]
  refine ⟨h1, ?_, h3, ?_, fun w hw => ?_⟩
  · rw [h2, rf, rd_waitClock s n (by simp only [commitOff, Off.CTX_COMMIT, Off.EVT_LAT]; omega), ← rf]
  · rw [h4, waitClock_clock]
    omega
  · rw [h5 w hw, haw, hraw]

theorem completes_drainComplete (hd : d < s.part.dies) (hk : k < nCtx s) (he : s.ecc = []) (hst : (ctx s d k).st = .draining)
    (ht : cTiming s d k = true) (hm : members s d (cPort s d k) (cFg s d k) = [k]) (ho : groupOpen s d (cPort s d k) (cFg s d k) = false) :
    Completes (.drainComplete d k) s fun t => (ctx t d k).st = .idle ∧ (ctx t d k).cause = (ctx s d k).drainCause := by
  have hk' : k < 256 := hk.trans_le (nCtx_le s)
  refine .of (exec_drainComplete hd hk (alone_facts hm ht).1) ?_
  rw [drainEnd_alone he hk' hst ht hm ho]
  obtain ⟨hidle, hcause⟩ := ctxEnter_enters he hk' (ctx s d k).drainCause (st := .idle) (by rw [hst]; decide)
  exact ⟨hidle, hcause (.inr rfl)⟩

/-- A context whose timer runs prints. -/
theorem st_of_stallOn (h : stallOn s d k = true) : (ctx s d k).st = .printing := by
  simp only [stallOn, Bool.and_eq_true, decide_eq_true_eq] at h
  exact h.1.1.1

theorem completes_stall (hd : d < s.part.dies) (hk : k < nCtx s) (he : s.ecc = []) (hon : stallOn s d k = true) :
    Completes (.stall d k) s fun t => s.clock + (stallTmo s d k - stallTime s d k) ≤ t.clock ∧
      rb t (pgCtx d) (Off.CTX_EVT + 4 * k) 9 = true ∧ (ctx t d k).cause = 3 ∧
      (af s d k 48 4 2 ≠ 1 → (ctx t d k).st = .paused) ∧ (af s d k 48 4 2 = 1 → (ctx t d k).st = .fenced) := by
  refine .of (exec_stall hd hk hon) ?_
  generalize s.clock + (stallTmo s d k - stallTime s d k) = n
  have hx : ctx (waitClock s n) d k = ctx s d k := by rw [ctx, waitClock_ctxs, ← ctx]
  have hn : nCtx (waitClock s n) = nCtx s := by rw [nCtx, waitClock_part, ← nCtx]
  have haf : af (waitClock s n) d k 48 4 2 = af s d k 48 4 2 := by rw [af, aw, hx, ← aw, ← af]
  have hclock : (stallNow (waitClock s n) d k).clock = (waitClock s n).clock := by
    apply stallNow_inv (φ := State.clock) (hU := rfl) <;> exact fun _ _ => rfl
  rw [hclock, waitClock_clock, ← haf]
  exact ⟨le_max_right _ _, stallNow_spec ((waitClock_ecc n).trans he) (hn ▸ hk) (hx ▸ st_of_stallOn hon)⟩

end

/-- Settles O24: a message is taken and reaches each bound context once; what a context does then (policies, hand-overs, changes of
state) leaves the marks and events of all, and, no word of memory poisoned, the places of the contexts that do not move. -/
theorem contextEvents : Obligations.ContextEvents := by
  unfold Obligations.ContextEvents
  refine ⟨fun _ _ _ _ _ _ hm => completes_estimateArrival hm, fun _ _ _ _ _ _ _ hm => completes_positionStep hm,
    fun _ _ _ _ _ hm => completes_sourceLost hm,
    fun _ _ _ _ _ _ _ _ _ _ hm he hb halone hone hst ht hpd hn hl hfrom hr =>
      completes_pdEdgeArrival hm he hb halone hone hst ht hpd hn hl hfrom hr,
    fun _ _ _ _ _ htaken hk hv => completes_ctxCommitGo htaken hk hv,
    fun _ _ _ hd hk he hgo hfree => completes_ctxHandOver hd hk he hgo hfree,
    fun _ _ _ hd hk he hst ht hm ho => completes_drainComplete hd hk he hst ht hm ho,
    fun _ _ _ hd hk he hon => completes_stall hd hk he hon,
    fun _ _ _ _ hd hk he hr ht hst _ => .of (exec_followerRejoin hd hk hr ht hst) (rejoinNow_spec he (hk.trans_le (nCtx_le _)) hst)⟩

end Sys2Proof.Machine

end
